-- ==== Sys2Proof/Word.lean ====
section
/-! DEFINITION. The word types of the MH640 and their plainest arithmetic. -/
namespace Sys2Proof

/-- A byte of memory. -/
abbrev Byte := BitVec 8

/-- A 32-bit register, port or general-register value. -/
abbrev Word := BitVec 32

/-- A 64-bit value: accumulators, timestamps, the tick counter, binary64 patterns. -/
abbrev DWord := BitVec 64

/-- The word that holds a natural number, modulo 2^32. -/
abbrev word (n : Nat) : Word := BitVec.ofNat 32 n

end Sys2Proof
end

