-- ==== Sys2Proof/Syntax.lean ====
section
/-! DEFINITION. The commands of the MH640 block: one constructor of `Instr` per row of spec/opcode_table.json, with
the operands that the row's step takes from outside (the issuing port, an address and a value, an instruction's
fields, or what the environment supplies: an ECC outcome, an input level, a time). -/
namespace Sys2Proof

/-- The two host ports (05_host.md). -/
inductive HostPort where
  | a
  | b
  deriving DecidableEq, Repr

/-- Who reads a 64-bit register half by half: each host port and the Vuile monitor has its own latch (R47, R387). -/
inductive Reader where
  | host (p : HostPort)
  | monitor
  deriving DecidableEq, Repr

/-- Access sizes of memory regions in bytes (R17). -/
inductive AccSize where
  | b1
  | b2
  | b4
  | b8
  deriving DecidableEq, Repr

/-- What the ECC of the memory word that a step reads reports. -/
inductive Ecc where
  | ok
  | corrected
  | uncorrectable
  deriving DecidableEq, Repr

/-- An error that ECC reports in an engine's read of tick SRAM: the byte address, and whether it is uncorrectable. -/
structure SramError where
  addr : Nat
  uncorrectable : Bool
  deriving DecidableEq, Repr

/-- The vote over the three copies of the commit logic at an edge (R37). -/
inductive CommitVote where
  | agree
  | minority (copy : Fin 3)
  | noMajority
  deriving DecidableEq, Repr

/-- One Limath instruction issued by a core: the predicate selector (bits 23 and 22..20), the format bits 19..0, and
what ECC reports for its fetch and for the memory word it reads (03_limath.md, *Instruction formats*). -/
structure Lim where
  core  : Fin 6
  inv   : Bool
  pn    : BitVec 3
  w     : BitVec 20
  fetch : Ecc
  data  : Ecc
  deriving DecidableEq, Repr

/-- The levels of the straps at the rising edge of RST_N (R94, R400). -/
structure Straps where
  boot  : BitVec 2
  hostA : Bool
  hostB : Bool
  deriving DecidableEq, Repr

/-- What start-up finds outside the sequencer (R124): the fitted DRAM (DRAMSZ code, 0 none), which of the training
rates 0 to 4 would train, whether CLK32K runs, and, where replay meets a
journal word it cannot read, how many casks it has found by then (R340). -/
structure StartEnv where
  dramSz     : BitVec 3
  trains     : List (Fin 5)
  clk32k     : Bool
  journalBad : Option Nat
  deriving DecidableEq, Repr

/-- The wake causes of R131 that are present at a wake. -/
structure WakeSet where
  hostA : Bool
  hostB : Bool
  tmr   : Bool
  tdl   : Bool
  hrn   : Bool
  fld   : Bool
  deriving DecidableEq, Repr

/-- A serial position frame as received (R141 to R144): raw SSI bits or RS-485 bytes, a UART framing error, the
measured line delay in core cycles and the frame's timestamp. -/
structure SerialFrame where
  raw     : BitVec 48
  bytes   : List Byte
  framing : Bool
  delay   : Nat
  ts      : DWord
  deriving DecidableEq, Repr

/-- The modulator bits of the three current channels of a lane that end at the sample instant (R205), oldest first. -/
structure PassBits where
  ia : List Bool
  ib : List Bool
  ic : List Bool
  deriving DecidableEq, Repr

/-- A CSI-2 packet between a Frame Start and its Frame End (R224, R225): its virtual channel and data type, whether its header
has an error that cannot be corrected, whether its CRC fails, and its length in pixels. -/
structure CsiPacket where
  vc    : Fin 4
  dt    : BitVec 6
  ecc   : Bool
  crc   : Bool
  width : Nat
  deriving DecidableEq, Repr

/-- A Frame Start of a CSI-2 link: its virtual channel and the instant at which it was decoded (R224, R227). -/
structure CsiStart where
  vc : Fin 4
  ts : DWord
  deriving DecidableEq, Repr

/-- A Frame End of a CSI-2 link: its virtual channel and the packets since the Frame Start (R225). -/
structure CsiEnd where
  vc      : Fin 4
  packets : List CsiPacket
  deriving DecidableEq, Repr

/-- A level of an input pin that has held for `held` core cycles since the instant `ts` (FILT, R137, R157). -/
structure HeldLevel where
  held : Nat
  ts   : DWord
  deriving DecidableEq, Repr

/-- A rising edge of the Z input of channel c, whose high level has held for `held` core cycles (R139). -/
structure ZRise where
  c    : Fin 16
  held : Nat
  deriving DecidableEq, Repr

/-- How an edge frame reached the field island: whether its check holds, and whether a configuration frame sent since the last
edge marker arrived complete and valid (R254, R255). -/
structure FrameArrival where
  crcOk : Bool
  cfgOk : Bool
  deriving DecidableEq, Repr

/-- The input voltages of a conversion in nV: V(TS_AP) − V(TS_AN) and V(TS_REFP) − V(TS_REFN) (R276). -/
structure TsVolts where
  diff : Int
  ref  : Int
  deriving DecidableEq, Repr

/-- An encoder input HQb as channel `ch` of the Harness reads it (R323). -/
structure HqInput where
  b  : Fin 2
  ch : Fin 2
  deriving DecidableEq, Repr

/-- How a stage of a Tendril memory command ends (R290): the transfer failed three times, the whole image has been carried, or an
accepted image is programmed. -/
inductive NvEnd where
  | failed
  | sent
  | programmed
  deriving DecidableEq, Repr

/-- What overruns Compute: a pass of a lane (R189) or a work item of a graph (R235). -/
inductive Overrun where
  | lane (n : Fin 16)
  | item (g : Fin 4)
  deriving DecidableEq, Repr

/-- How an array or spill write of the Cellar verifies: the array offsets whose writes fail, once for each failing
try (R342, R344), and whether a write into the spill block fails (R343). -/
structure VerifyEnv where
  fails     : List Nat
  spillFail : Bool
  deriving DecidableEq, Repr

/-- The samples one Harness channel takes in a cycle (R299, R309, R322): its HI levels, HRST, HACK, its read-back of
its half of the HO pairs, whether a pin of pair x has been in current limit for 1 ms, its coil currents in mA, and its HB
switch read-backs. -/
structure HarnessSample where
  hi       : BitVec 16
  hrst     : Bool
  hack     : Bool
  hoRead   : BitVec 4
  hoLimit  : BitVec 4
  coil0    : Nat
  coil1    : Nat
  hbRead   : BitVec 2
  deriving DecidableEq, Repr

/-- How far a VSAFE power-up has come (R313): the channels begin to test themselves; or their tests end, with whether the
self-test passed and whether the newer copy of the active configuration passed its check (R317). -/
inductive VsafeUp where
  | begin
  | tested (selfTestOk newerOk : Bool)
  deriving DecidableEq, Repr

/-- What goes wrong between the Harness channels in a cycle (R302). -/
structure HarnessTrouble where
  exchangeLost : Bool
  ratioBad     : Bool
  selfTestBad  : Bool
  configBad    : Bool
  deriving DecidableEq, Repr

/-- The Harness cycle in which HRST falls: how long it was held, the samples of both channels, and what disturbs the cycle (R311). -/
structure ResetCycle where
  heldMs  : Nat
  sa      : HarnessSample
  sb      : HarnessSample
  trouble : HarnessTrouble
  deriving DecidableEq, Repr

/-- How an identity bus read ends on the wire (R381, R382): a bus error, no acknowledgement, or the bytes read. -/
inductive IdWire where
  | busErr
  | absent
  | data (bytes : List Byte)
  deriving DecidableEq, Repr

/-- A value or status that the field island sends on a coupler (R254). -/
inductive FieldReport where
  | dio (i : Fin 16) (level : Bool)
  | dioFault (i : Fin 16)
  | aoFault (j : Fin 4) (thrm compl shut : Bool)
  | ai (k : Fin 4) (w : Word)
  | env (vfield : BitVec 16) (temp : BitVec 16)
  | status (cfgv safe uv ovld silent imm : Bool)
  deriving DecidableEq, Repr

/-- The ways a clock can stop (19_events.md, events 9 to 12). -/
inductive ClockLoss where
  | pll
  | xtal
  | clk32k
  | dramPll
  deriving DecidableEq, Repr

/-- The monitor's UART request frame as its bytes after the CRC has been checked: sequence number and payload
(R386). -/
structure MonFrame where
  seq     : Byte
  payload : List Byte
  deriving DecidableEq, Repr

/-- A word of the configuration space of a PCIe port (R95): vendor and device, class code and revision, header type, the six
BAR words, the subsystem, the D-state, the MSI-X message control, the identity of the AER capability. -/
inductive CfgField where
  | ids
  | classRev
  | header
  | bar (i : Fin 6)
  | subsystem
  | power
  | msix
  | aer
  deriving DecidableEq, Repr

/-- A PCIe configuration request: a read, a change of the D-state, of the MSI-X Enable and Function Mask bits, or of a BAR. -/
inductive CfgRequest where
  | read (f : CfgField)
  | power (d3hot : Bool)
  | msix (enable functionMask : Bool)
  | bar (i : Fin 6) (v : Word)
  deriving DecidableEq, Repr

/-- The commands of the block, one constructor per row of the operation table, by family; those without operands stand
last. -/
inductive Instr where
  -- the tick (02_tick.md)
  | tickEdge (vote : CommitVote)
  | fractionalEdge (i : Fin 3)
  | slip (p : HostPort)
  | pkclr (p : HostPort)
  | tckPeriodWrite (p : HostPort) (v : Word)
  | tckCountLoRead (r : Reader)
  | tckEdgetsLoRead (r : Reader)
  | tckTsLoRead (r : Reader)
  -- host writes (05_host.md)
  | heldWtWriteComplete (p : HostPort)
  | registerWrite (p : HostPort) (addr : Nat) (size : AccSize) (v : DWord)
  | stickyClear (p : HostPort) (addr : Nat) (v : Word)
  | hostMemoryWrite (p : HostPort) (addr : Nat) (size : AccSize) (v : DWord)
  | hostInstructionWrite (p : HostPort) (addr : Nat) (size : AccSize) (v : DWord)
  | hostCellarWrite (p : HostPort) (addr : Nat) (size : AccSize) (v : DWord) (verify : VerifyEnv)
  -- Limath: integer arithmetic and logic (03_limath.md)
  | nop (o : Lim)
  | add (o : Lim)
  | addi (o : Lim)
  | sub (o : Lim)
  | adds (o : Lim)
  | subs (o : Lim)
  | mul (o : Lim)
  | mulh (o : Lim)
  | div (o : Lim)
  | rem (o : Lim)
  | and (o : Lim)
  | or (o : Lim)
  | xor (o : Lim)
  | andi (o : Lim)
  | ori (o : Lim)
  | xori (o : Lim)
  | shl (o : Lim)
  | shr (o : Lim)
  | sar (o : Lim)
  | shi (o : Lim)
  | rot (o : Lim)
  | min (o : Lim)
  | max (o : Lim)
  | abs (o : Lim)
  | clz (o : Lim)
  | popc (o : Lim)
  | bfx (o : Lim)
  | bfi (o : Lim)
  | clamp (o : Lim)
  | sel (o : Lim)
  | movi (o : Lim)
  | ldc (o : Lim)
  -- compare and predicate
  | cmp (o : Lim)
  | cmpi (o : Lim)
  | fcmp (o : Lim)
  | plog (o : Lim)
  | pmov (o : Lim)
  | tst (o : Lim)
  -- accumulators
  | mac (o : Lim)
  | mach (o : Lim)
  | aclr (o : Lim)
  | aset (o : Lim)
  | aext (o : Lim)
  | aadd (o : Lim)
  | ashl (o : Lim)
  | amov (o : Lim)
  -- floating point
  | fadd (o : Lim)
  | fsub (o : Lim)
  | fmul (o : Lim)
  | fma (o : Lim)
  | fdiv (o : Lim)
  | fsqrt (o : Lim)
  | fmin (o : Lim)
  | fmax (o : Lim)
  | fabs (o : Lim)
  | fcvt (o : Lim)
  | fmov (o : Lim)
  | fclamp (o : Lim)
  | fldc (o : Lim)
  | frsq (o : Lim)
  | fsc (o : Lim)
  -- local data memory
  | ldw (o : Lim)
  | ldh (o : Lim)
  | ldhu (o : Lim)
  | ldb (o : Lim)
  | ldbu (o : Lim)
  | ldd (o : Lim)
  | stw (o : Lim)
  | sth (o : Lim)
  | stb (o : Lim)
  | std (o : Lim)
  | fld (o : Lim)
  | fst (o : Lim)
  -- tick SRAM
  | ldsw (o : Lim)
  | ldsd (o : Lim)
  | stsw (o : Lim)
  | stsd (o : Lim)
  | flds (o : Lim)
  | fsts (o : Lim)
  -- ports, mailboxes, carts, engines, the Cellar
  | pin (o : Lim)
  | pout (o : Lim)
  | mbw (o : Lim)
  | mbr (o : Lim)
  | mbs (o : Lim)
  | cart (o : Lim)
  | ctst (o : Lim)
  | treeRun (o : Lim)
  | cld (o : Lim)
  | ckb (o : Lim)
  | ckw (o : Lim)
  | ckc (o : Lim)
  -- control flow and system
  | jmp (o : Lim)
  | call (o : Lim)
  | ret (o : Lim)
  | loop (o : Lim)
  | loopr (o : Lim)
  | endl (o : Lim)
  | btab (o : Lim)
  | tend (o : Lim)
  | rds (o : Lim)
  | wrs (o : Lim)
  | evs (o : Lim)
  -- the loader and the carts (04_programs.md)
  | loadCommand (p : HostPort) (v : Word)
  | cartDone (core : Fin 6) (idx : Fin 64) (err : Option SramError)
  | cartLanding (core : Fin 6) (idx : Fin 64)
  -- the reins (05_host.md)
  | reinsReq (p : HostPort) (contested : Bool)
  | reinsRel (p : HostPort)
  | reinsTake (p : HostPort) (contested : Bool)
  | heartbeat (p : HostPort)
  -- rings and the quad-SPI target
  | doorbell (p : HostPort) (v : Word)
  | cplheadWrite (p : HostPort) (v : Word)
  | commandConsume (p : HostPort)
  | cmdNop (p : HostPort)
  | rd32 (p : HostPort)
  | wr32 (p : HostPort)
  | wrat (p : HostPort)
  | rdat (p : HostPort)
  | wratAccept (p : HostPort)
  | rdatPerform (p : HostPort)
  | qspiWrite (p : HostPort) (offset : BitVec 24) (words : List Word)
  | qspiRead (p : HostPort) (offset : BitVec 24) (n : Nat)
  | qspiReadTimeout (p : HostPort)
  | setwin (p : HostPort) (v : Word)
  | vecackWrite (p : HostPort) (v : Word)
  | cplModerationEnd (p : HostPort)
  | msixSend (p : HostPort) (v : Fin 32)
  | perst (p : HostPort)
  -- modes, reset and power (06_modes.md)
  | modeRequest (req : BitVec 3)
  | halt (event : Fin 256) (detail : Word)
  | softwareReset (p : HostPort) (v : Word)
  | rstNPulse (ns : Nat) (straps : Straps)
  | pgoodFall (straps : Straps)
  | startUp (env : StartEnv)
  | wake (causes : WakeSet) (stopTu : Nat)
  -- axes (08_motion.md)
  | axisEnable (n : Fin 16)
  | axisDisable (n : Fin 16)
  | qstop (n : Fin 16)
  | gearMode (n : Fin 16)
  | camArm (n : Fin 16)
  | segpush (n : Fin 16)
  | flush (n : Fin 16)
  | segmentEnd (g : Fin 4)
  | limitInput (n : Fin 16) (limP limN home : Bool)
  | stepPulse (n : Fin 16) (ofs : Nat)
  | blindHoldEnd (n : Fin 16)
  -- field island (13_field.md)
  | islandEdgeFrame (f : FrameArrival)
  | stoppedHeartbeat (crcOk : Bool)
  | configSend (p : HostPort) (v : Word)
  | dioSample (i : Fin 16) (level : Bool)
  | fieldReport (r : FieldReport)
  | dioOverload (i : Fin 16)
  | dfclr (mask : BitVec 16)
  | aoCompliance (j : Fin 4)
  | aoThermalShutdown (j : Fin 4)
  | fclr (j : Fin 4) (tempC : Int)
  | aiSample (k : Fin 4) (reading : Nat) (burnHot : Bool)
  | aiProtEnd (k : Fin 4)
  | fieldUndervoltage (lost : Bool)
  -- Tendril (14_tendril.md)
  | foldBack (acts : Bool)
  | conversion (v : TsVolts) (cin : Int) (exOpen refDiff : Bool)
  | tendrilSlot (downOk : Bool)
  | uplinkReceive (ok : Bool) (mv : BitVec 16) (temp : BitVec 16)
  | setptWrite (v : Word)
  | nvWrite (p : HostPort)
  | nvRead (p : HostPort)
  | nvTransferEnd (e : NvEnd)
  | hartRequest (preambles : Nat) (parityOk : Bool) (frame : List Byte)
  | hartReplySend (elapsedMs : Nat)
  -- Harness (15_harness.md)
  | harnessCycle (sa sb : HarnessSample) (trouble : HarnessTrouble)
  | testPulse (x : Fin 8) (two : Bool)
  | outputDip (x : Fin 4) (low : Bool)
  | discrepancyTimeout (f : Fin 8)
  | synchronismTimeout (f : Fin 8)
  | harnessReset (r : ResetCycle)
  | statusFrameReceive (crcOk : Bool)
  | sealSend (p : HostPort) (v : Word)
  | proposalReceive (transferOk : Bool)
  | configActivate (heldMs : Nat) (seenByBoth : Bool)
  | configWriteEnd (agree : Bool)
  | vsafePowerUp (e : VsafeUp)
  -- brakes (16_brake.md)
  | hqCount (q : HqInput) (a ph : Bool)
  | coilFault (b : Fin 2)
  | brakeDue (b : Fin 2)
  | brakeOverdue (b : Fin 2)
  | brakeTestStart (b : Fin 2)
  -- Cellar (17_cellar.md)
  | caskApply (verify : VerifyEnv)
  | logResume (p : HostPort)
  | spillclr (p : HostPort) (v : Word)
  -- faults (18_trouble.md)
  | pop (v : Word)
  | holdfClear (p : HostPort)
  | fpdisClear (p : HostPort)
  -- events and sensors (19_events.md, 23_electrical.md)
  | swset (v : Word)
  | tempWarning (tempC : Int)
  | tempCritical (tempC : Int)
  | clockLoss (which : ClockLoss)
  | dramEccRead (addr : Nat) (uncorrectable : Bool)
  -- the remaining host and supply steps
  | hostRead (p : HostPort) (bar2 : Bool) (addr : Nat) (size : AccSize) (ecc : Ecc)
  | hostDramWrite (p : HostPort) (addr : Nat) (size : AccSize) (v : DWord)
  | pcieLinkChange (p : HostPort) (up : Bool)
  | pcieConfigRequest (p : HostPort) (req : CfgRequest)
  -- feedback (07_feedback.md)
  | quadEdge (c : Fin 16) (a b : Bool) (l : HeldLevel)
  | hallStep (c : Fin 16) (uvw : BitVec 3) (l : HeldLevel)
  | zEdge (z : ZRise)
  | zeroSpeedTimeout (c : Fin 16)
  | ssiFrameStart (c : Fin 16)
  | serialFrameEnd (c : Fin 16) (frame : SerialFrame)
  | rs485Request (c : Fin 16)
  | rs485Timeout (c : Fin 16)
  | serialStaleTimeout (c : Fin 16)
  | sincosSample (c : Fin 16) (sn cs : BitVec 14) (quadrants : BitVec 32) (fast : Bool) (ts : DWord)
  | capEdge (j : Fin 8) (rising : Bool) (l : HeldLevel)
  | latchTimeout (j : Fin 8)
  | setpos (c : Fin 16)
  | refset (c : Fin 16)
  | zarm (c : Fin 16)
  | rearm (j : Fin 8)
  | fbTypeChange (p : HostPort) (c : Fin 16) (v : Word)
  -- control engine (09_control.md)
  | controlPass (n : Fin 16) (bits : PassBits)
  | chopperPass (n : Fin 16) (bits : PassBits)
  | chopperModeTimeout (n : Fin 16)
  | engineOverrun (src : Overrun)
  | carrierValley (n : Fin 16)
  | overcurrentTrip (ch : Fin 24) (amps : Word)
  | sdError (ch : Fin 24)
  | frset (n : Fin 16)
  | frclr (n : Fin 16)
  | cgset (n : Fin 16)
  | cgclr (n : Fin 16)
  | tableWrite (n : Fin 16) (v : Word)
  | gainWrite (n : Fin 16) (offset : Nat) (v : Word)
  -- print (10_print.md)
  | jobGo (p : Fin 2)
  | jobAbort (p : Fin 2)
  | rowFetch (p : Fin 2) (err : Option SramError)
  | indexDue (p : Fin 2)
  | delayedFiring (p : Fin 2)
  | firingEnd (p : Fin 2)
  | headFault (p : Fin 2) (low : Bool)
  | densityWrite (p : Fin 2) (v : Word)
  | sliceWidthWrite (p : Fin 2) (v : Word)
  | ratioWrite (port : HostPort) (p : Fin 2) (v : Word)
  -- vision (11_vision.md)
  | frameStart (p : Fin 2) (f : CsiStart)
  | frameEnd (p : Fin 2) (f : CsiEnd)
  | frameReady (p : Fin 2)
  | graphRun (g : Fin 4)
  | graphStop (g : Fin 4)
  | qcycWrite (g : Fin 4) (v : Word)
  | confminWrite (g : Fin 4) (v : Word)
  | missingTimeout (g : Fin 4)
  | handoffWrite (g : Fin 4)
  | handoffExpiry (entry : Nat)
  | hoffrdWrite (p : HostPort) (v : Word)
  -- trees (12_trees.md)
  | treeLoadEnd (sourceUe : Bool)
  -- trim (20_trim.md)
  | trimGo (v : Word)
  | trimStepEnd (code : BitVec 4) (result : List Word)
  | trimRestoreWrite (p : HostPort) (addr : Nat) (v : Word)
  -- identity and monitor (21_identity_monitor.md)
  | idRead (mask : BitVec 4)
  | idReadEnd (b : Fin 4) (wire : IdWire)
  | idLanding (b : Fin 4)
  | monInfo (f : MonFrame)
  | monRead (f : MonFrame)
  | monWrite (f : MonFrame)
  | monCore (f : MonFrame)
  | monUnlock (f : MonFrame)
  | monClose (f : MonFrame)
  | monHold (f : MonFrame)
  | monStep (f : MonFrame)
  | monFree (f : MonFrame)
  | monTrace (f : MonFrame)
  | monBaud (f : MonFrame)
  | monCodeWrite (p : HostPort) (v : Word)
  -- commands without operands
  | slipLimit
  | computeStart
  | stageStart
  | loadVerifyEnd
  | hbTimeout
  | wakeTimerExpiry
  | harnessLinkLoss
  | treeLoad
  | heartbeatAck
  | configResend
  | totalOverload
  | resume
  | silenceTimeout
  | immediateSafeMarker
  | islandPowerUp
  | tendrilStart
  | brownOut
  | sourceSelect
  | tendrilLinkLoss
  | hartRecordLanding
  | hartReplyGo
  | hrstTooLong
  | statusFrame
  | pendingExpiry
  | vsafeLow
  | testHoldEnd
  | testAckTimeout
  | commitWordWrite
  | faultPulseEnd
  | dramStall
  | supplyFault
  | trimNext
  | trimAbort
  | trimPointReached
  | trimPointTimeout
  | monStepEnd
  | monFrameGap
  | monFrameError
  | monIdleTimeout
  | vfieldRecovery
  | vsafeRecovery
  deriving DecidableEq, Repr

end Sys2Proof
end

