-- ==== Sys2Proof/Decode.lean ====
section
/-! DEFINITION. The commands that the operation table spells with bits: none of its rows gives any. -/
namespace Sys2Proof

/-- The command that a word of the operation table spells. No row of the table gives bits, so no word spells one. -/
def decodeTableWord (_nbits _w : Nat) : Option Instr := none

end Sys2Proof
end

