-- ==== Sys2Proof/Config.lean ====
section
/-! DEFINITION. What the part or the implementation fixes and the manual leaves open: every constant here is opaque, so
no proof can see its value and a claim that holds here holds for every value. -/
namespace Sys2Proof.Config

/-- The fuse bank's key hash: word i of SYS_KEYHASHi (06_modes.md, R76). Part-specific. -/
opaque keyHash : Nat → Word

/-- FRSQ's result within the stated bound (03_limath.md, operation 0x4D); the machine uses it only where it meets the
bound (assumption 20). -/
opaque frsq : Word → Word

/-- FSC's sine within the stated bound (operation 0x4E, assumption 20). -/
opaque fscSin : Word → Word

/-- FSC's cosine within the stated bound (operation 0x4E, assumption 20). -/
opaque fscCos : Word → Word

/-- The tree engine's binary64 exponential (R244): the manual fixes neither its algorithm nor its last bits, only that
the same inputs give the same bits (assumption 21). -/
opaque exp64 : DWord → DWord

/-- A byte that the manual gives a step to write without saying which: vision engine records (assumption 22). The
argument is the counter `Dev.freeCtr` and the index of the byte. -/
opaque freeByte : Nat → Nat → Byte

/-- A 32-bit value that the manual leaves open (assumption 23). The argument is the counter `Dev.freeCtr`. -/
opaque freeWord : Nat → Word

/-- The confidence of a Flow, Disparity or Feature tile (R228, R236): the manual states no formula that fixes it. -/
opaque tileConfidence : Nat → Byte

/-- Factory trim of the PWM delay line: the four of the twenty cells that are left out, each an index among the cells
still in use (R417: exactly 16 ones). -/
opaque pwmLeftOut0 : Fin 20
opaque pwmLeftOut1 : Fin 19
opaque pwmLeftOut2 : Fin 18
opaque pwmLeftOut3 : Fin 17

/-- Factory trims of TRM_SDSELg: the cell of input 8g + i (R417: a cell that exists). -/
opaque sdSel : Nat → Nat → BitVec 3

/-- Factory trims of TRM_SCSELc (R417). -/
opaque scSel : Nat → BitVec 2

/-- Factory trim of TRM_CELSEL (R417). -/
opaque celSel : BitVec 2

/-- Factory trims of FBc_SCOFS (R148, R417). -/
opaque scOfs : Nat → Word

/-- Factory trims of FBc_SCCOR (R148, R417). -/
opaque scCor : Nat → Word

/-- The factory segment choice of AOj, TRM_AOSEGj (R377 table, step 3): a part value. -/
opaque aoSeg : Nat → BitVec 18

/-- Whether the loader, reading an image whose bytes change while it verifies, still reads this byte string (R419). -/
opaque loaderRead : Nat → List Byte

/-- A byte of the Cellar's journal region, whose format the manual leaves open (R332). The arguments are the counter
`Dev.freeCtr` and the offset. -/
opaque journalByte : Nat → Nat → Byte

/-- How many core cycles below the 8 of its bound a tick SRAM load takes: the phase of the arbitration wheel at its
issue (R57, R88, assumption 25). The argument is the counter `Dev.freeCtr`. -/
opaque sramEarly : Nat → Fin 8

/-- Whether a conversion whose rounding the manual does not state rounds an inexact value up (assumption 24). The
argument is the counter `Dev.freeCtr`. -/
opaque roundUp : Nat → Bool

end Sys2Proof.Config
end

