-- ==== Sys2Proof/Machine/Bits.lean ====
section
/-! DEFINITION. Bit fields, sign extension and byte order: the helpers every register and memory access goes through. -/
namespace Sys2Proof.Machine

/-- Bits hi..lo of a word, as a number. -/
def bits {n : Nat} (w : BitVec n) (hi lo : Nat) : Nat := w.toNat / 2 ^ lo % 2 ^ (hi + 1 - lo)

/-- Bit i of a word. -/
def bit {n : Nat} (w : BitVec n) (i : Nat) : Bool := w.getLsbD i

/-- The mask that has ones in bits hi..lo. -/
def mask (hi lo : Nat) : Word := word ((2 ^ (hi + 1 - lo) - 1) * 2 ^ lo)

/-- The word with bits hi..lo replaced by the low bits of v. -/
def setBits (w : Word) (hi lo v : Nat) : Word :=
  (w &&& ~~~ mask hi lo) ||| (word (v * 2 ^ lo) &&& mask hi lo)

/-- The word with bit i set or cleared. -/
def setBit (w : Word) (i : Nat) (b : Bool) : Word :=
  if b then w ||| word (2 ^ i) else w &&& ~~~ word (2 ^ i)

/-- The number of a truth value. -/
def b2n (b : Bool) : Nat := if b then 1 else 0

/-- The signed value of the low n bits of a number. -/
def signed (n v : Nat) : Int :=
  let u := v % 2 ^ n
  if 2 * u < 2 ^ n then (u : Int) else (u : Int) - (2 ^ n : Nat)

/-- The 32-bit word of an integer, modulo 2^32. -/
def wordI (i : Int) : Word := BitVec.ofInt 32 i

/-- The signed value of a word. -/
def sint (w : Word) : Int := w.toInt

/-- A 32-bit register pair's low and high words (R47, R48). -/
def loWord (d : DWord) : Word := d.setWidth 32
def hiWord (d : DWord) : Word := (d >>> 32).setWidth 32

/-- The doubleword of a high and a low word. -/
def dword (hi lo : Word) : DWord := (hi.setWidth 64 <<< 32) ||| lo.setWidth 64

/-- The number of 1 bits of a number, over its low n bits. -/
def popCount (v : Nat) : Nat → Nat
  | 0 => 0
  | n + 1 => popCount v n + v / 2 ^ n % 2

/-- Leading zeros of the low n bits of a number. -/
def leadingZeros (v : Nat) : Nat → Nat
  | 0 => 0
  | n + 1 => if v / 2 ^ n % 2 = 1 then 0 else 1 + leadingZeros v n

/-- The bytes of a number, least significant first. -/
def leBytes (v : Nat) : Nat → List Byte
  | 0 => []
  | n + 1 => BitVec.ofNat 8 v :: leBytes (v / 256) n

/-- The number that bytes spell, least significant first. -/
def leNat : List Byte → Nat
  | [] => 0
  | b :: bs => b.toNat + 256 * leNat bs

/-- The number that bytes spell, most significant first. -/
def beNat (bs : List Byte) : Nat := bs.foldl (fun n b => n * 256 + b.toNat) 0

/-- The integer kept within two bounds. -/
def clampI (lo hi x : Int) : Int := if x < lo then lo else if hi < x then hi else x

/-- The shortest signed difference of two 32-bit positions (R149, R163). -/
def shortest (a b : Word) : Int := (a - b).toInt

/-- One step of CRC-16 with polynomial `poly`, most significant bit first, no reflection. -/
def crc16Bits (poly : BitVec 16) (c : BitVec 16) : Nat → BitVec 16
  | 0 => c
  | n + 1 => crc16Bits poly (if c.msb then (c <<< 1) ^^^ poly else c <<< 1) n

/-- CRC-16 over bytes, no reflection and no final XOR (R9, R143). -/
def crc16 (poly init : BitVec 16) (bs : List Byte) : BitVec 16 :=
  bs.foldl (fun c b => crc16Bits poly (c ^^^ ((b.setWidth 16 : BitVec 16) <<< (8 : Nat))) 8) init

/-- CRC-16/CCITT: polynomial 0x1021, initial value 0xFFFF (R9). -/
def crcCcitt (bs : List Byte) : BitVec 16 := crc16 0x1021 0xFFFF bs

def crc8Bits (poly : BitVec 8) (c : BitVec 8) : Nat → BitVec 8
  | 0 => c
  | n + 1 => crc8Bits poly (if c.msb then (c <<< 1) ^^^ poly else c <<< 1) n

/-- CRC-8 over bytes (R143). -/
def crc8 (poly init : BitVec 8) (bs : List Byte) : BitVec 8 :=
  bs.foldl (fun c b => crc8Bits poly (c ^^^ b) 8) init

def crc32Bits (c : Word) : Nat → Word
  | 0 => c
  | n + 1 => crc32Bits (if c.msb then (c <<< 1) ^^^ 0x04C11DB7 else c <<< 1) n

/-- The 32-bit check of the Harness configuration: polynomial 0x04C1_1DB7, initial value 0xFFFF_FFFF, no reflection,
no final XOR (15_harness.md). -/
def crc32 (bs : List Byte) : Word :=
  bs.foldl (fun c b => crc32Bits (c ^^^ ((b.setWidth 32 : BitVec 32) <<< (24 : Nat))) 8) 0xFFFFFFFF

end Sys2Proof.Machine
end

