-- ==== Sys2Proof/Machine/Float.lean ====
section
/-! DEFINITION. Floating point: exact values, one rounding (R61, R62). Binary32 as the Limath cores and the control
engine compute it, binary64 as the planner and the tree engine do. -/
namespace Sys2Proof.Machine

/-- A binary format: exponent bits, fraction bits, and whether it has subnormal numbers; without them a subnormal pattern is a
zero and a result below the smallest normal number becomes one (R61). -/
structure Fmt where
  eb  : Nat
  mb  : Nat
  den : Bool
  deriving DecidableEq, Repr

/-- Binary32 as the cores and the control engine compute it (R61). -/
def b32 : Fmt := ⟨8, 23, false⟩
/-- IEEE binary32 and binary64, as the planner and the tree engine take them (R163). -/
def i32 : Fmt := ⟨8, 23, true⟩
def b64 : Fmt := ⟨11, 52, true⟩

def Fmt.bias (f : Fmt) : Nat := 2 ^ (f.eb - 1) - 1
def Fmt.maxE (f : Fmt) : Nat := 2 ^ f.eb - 1

/-- A floating-point value: NaN, an infinity, a zero, or (-1)^s * m * 2^e with m > 0. -/
inductive FV where
  | nan
  | inf (s : Bool)
  | zero (s : Bool)
  | fin (s : Bool) (m : Nat) (e : Int)
  deriving DecidableEq, Repr

/-- The value of a pattern; in a format without subnormal numbers such a pattern reads as zero of its sign (R61). -/
def decodeF (f : Fmt) (w : Nat) : FV :=
  let s := decide (w / 2 ^ (f.eb + f.mb) % 2 = 1)
  let e := w / 2 ^ f.mb % 2 ^ f.eb
  let m := w % 2 ^ f.mb
  if e = f.maxE then (if m = 0 then .inf s else .nan)
  else if e = 0 then (if f.den ∧ m ≠ 0 then .fin s m (1 - ((f.bias + f.mb : Nat) : Int)) else .zero s)
  else .fin s (2 ^ f.mb + m) ((e : Int) - (f.bias + f.mb : Nat))

/-- What a floating-point operation reports: the CST bits DZ (1), FNV (2), FOV (3), FNAN (4). -/
structure FRes where
  w   : Nat
  cst : Nat
  deriving DecidableEq, Repr

def signBit (f : Fmt) (s : Bool) : Nat := if s then 2 ^ (f.eb + f.mb) else 0

/-- The patterns of the special results. -/
def nanPat (f : Fmt) : Nat := f.maxE * 2 ^ f.mb + 2 ^ (f.mb - 1)
def infPat (f : Fmt) (s : Bool) : Nat := signBit f s + f.maxE * 2 ^ f.mb
def zeroPat (f : Fmt) (s : Bool) : Nat := signBit f s

/-- A NaN result: from a NaN input, or from non-NaN inputs (which sets FNV). -/
def nanRes (f : Fmt) (invalid : Bool) : FRes := ⟨nanPat f, if invalid then 20 else 16⟩

/-- The low bits of a shift to the right, rounded to nearest, ties to even. -/
def rneShift (m s : Nat) : Nat :=
  if s = 0 then m
  else
    let q := m / 2 ^ s
    let r := m % 2 ^ s
    let h := 2 ^ (s - 1)
    if h < r ∨ (r = h ∧ q % 2 = 1) then q + 1 else q

/-- The fraction of a number below the smallest normal one: its multiple of the smallest subnormal number, to nearest, ties to
even. -/
def roundDen (f : Fmt) (m : Nat) (e : Int) : Nat :=
  let s := 1 - ((f.bias + f.mb : Nat) : Int) - e
  if 0 ≤ s then rneShift m s.toNat else m * 2 ^ (-s).toNat

/-- (-1)^s * m * 2^e rounded to the format, m > 0: to nearest, ties to even; beyond the range to infinity with FOV; a
result whose rounding with unbounded exponent is below the smallest normal number is subnormal, or zero of its sign in a format
without subnormal numbers (R61). -/
def roundF (f : Fmt) (s : Bool) (m0 : Nat) (e0 : Int) : FRes :=
  let p := f.mb + 1
  let n := Nat.log2 m0 + 1
  let (q, e) := if p < n then (rneShift m0 (n - p), e0 + ((n - p : Nat) : Int))
    else (m0 * 2 ^ (p - n), e0 - ((p - n : Nat) : Int))
  let (q, e) := if q = 2 ^ p then (2 ^ (p - 1), e + 1) else (q, e)
  let be := e + ((f.bias + f.mb : Nat) : Int)
  if (f.maxE : Int) ≤ be then ⟨infPat f s, 8⟩
  else if be < 1 then ⟨signBit f s + (if f.den then roundDen f m0 e0 else 0), 0⟩
  else ⟨signBit f s + be.toNat * 2 ^ f.mb + (q - 2 ^ f.mb), 0⟩

/-- The pattern of a value, rounded. -/
def encodeF (f : Fmt) : FV → FRes
  | .nan => nanRes f false
  | .inf s => ⟨infPat f s, 0⟩
  | .zero s => ⟨zeroPat f s, 0⟩
  | .fin s m e => if m = 0 then ⟨zeroPat f s, 0⟩ else roundF f s m e

def FV.neg : FV → FV
  | .nan => .nan
  | .inf s => .inf (!s)
  | .zero s => .zero (!s)
  | .fin s m e => .fin (!s) m e

def FV.isNan : FV → Bool
  | .nan => true
  | _ => false

def FV.sign : FV → Bool
  | .nan => false
  | .inf s => s
  | .zero s => s
  | .fin s _ _ => s

/-- The signed mantissa. -/
def smant (s : Bool) (m : Nat) : Int := if s then -(m : Int) else (m : Int)

/-- The exact value of a signed mantissa and an exponent; an exact zero has the given sign. -/
def ofMant (z : Bool) (i : Int) (e : Int) : FV := if i = 0 then .zero z else .fin (decide (i < 0)) i.natAbs e

/-- Exact sum; none where infinities of opposite sign meet. -/
def addV : FV → FV → Option FV
  | .nan, _ => some .nan
  | _, .nan => some .nan
  | .inf s, .inf t => if s = t then some (.inf s) else none
  | .inf s, _ => some (.inf s)
  | _, .inf t => some (.inf t)
  | .zero s, .zero t => some (.zero (s && t))
  | .zero _, y => some y
  | x, .zero _ => some x
  | .fin s m e, .fin t n g =>
    let lo := min e g
    some (ofMant false (smant s m * 2 ^ (e - lo).toNat + smant t n * 2 ^ (g - lo).toNat) lo)

/-- Exact product; none for zero times infinity. -/
def mulV : FV → FV → Option FV
  | .nan, _ => some .nan
  | _, .nan => some .nan
  | .inf _, .zero _ => none
  | .zero _, .inf _ => none
  | .inf s, y => some (.inf (s != y.sign))
  | x, .inf t => some (.inf (x.sign != t))
  | .zero s, y => some (.zero (s != y.sign))
  | x, .zero t => some (.zero (x.sign != t))
  | .fin s m e, .fin t n g => some (.fin (s != t) (m * n) (e + g))

/-- The rounded result of an exact value, or the NaN of an invalid operation. -/
def finish (f : Fmt) : Option FV → FRes
  | none => nanRes f true
  | some v => encodeF f v

def addF (f : Fmt) (a b : Nat) : FRes := finish f (addV (decodeF f a) (decodeF f b))
def subF (f : Fmt) (a b : Nat) : FRes := finish f (addV (decodeF f a) (decodeF f b).neg)
def mulF (f : Fmt) (a b : Nat) : FRes := finish f (mulV (decodeF f a) (decodeF f b))

/-- d + a * b, rounded once. -/
def fmaF (f : Fmt) (d a b : Nat) : FRes :=
  match decodeF f d, mulV (decodeF f a) (decodeF f b) with
  | .nan, _ => nanRes f false
  | _, none => nanRes f true
  | x, some y => finish f (addV x y)

/-- Quotient. A non-zero value divided by zero sets DZ. -/
def divF (f : Fmt) (a b : Nat) : FRes :=
  match decodeF f a, decodeF f b with
  | .nan, _ => nanRes f false
  | _, .nan => nanRes f false
  | .inf _, .inf _ => nanRes f true
  | .zero _, .zero _ => nanRes f true
  | .inf s, .zero t => ⟨infPat f (s != t), 2⟩
  | .inf s, y => ⟨infPat f (s != y.sign), 0⟩
  | .zero s, y => ⟨zeroPat f (s != y.sign), 0⟩
  | x, .inf t => ⟨zeroPat f (x.sign != t), 0⟩
  | x, .zero t => ⟨infPat f (x.sign != t), 2⟩
  | .fin s m e, .fin t n g =>
    let k := 2 * f.mb + 6
    let num := m * 2 ^ k
    let q := 2 * (num / n) + (if num % n = 0 then 0 else 1)
    roundF f (s != t) q (e - g - (k + 1 : Nat))

/-- The integer square root of a number below 4^n, bit by bit. -/
def isqrtBits (v : Nat) : Nat → Nat → Nat
  | 0, r => r
  | n + 1, r => let c := r + 2 ^ n; isqrtBits v n (if c * c ≤ v then c else r)

/-- The integer square root. -/
def isqrt (v : Nat) : Nat := isqrtBits v (Nat.log2 v / 2 + 1) 0

def sqrtF (f : Fmt) (a : Nat) : FRes :=
  match decodeF f a with
  | .nan => nanRes f false
  | .zero s => ⟨zeroPat f s, 0⟩
  | .inf s => if s then nanRes f true else ⟨infPat f false, 0⟩
  | .fin s m e =>
    if s then nanRes f true
    else
      let (m, e) := if e % 2 = 0 then (m, e) else (2 * m, e - 1)
      let k := f.mb + 6
      let v := m * 4 ^ k
      let r := isqrt v
      roundF f false (2 * r + (if r * r = v then 0 else 1)) (e / 2 - (k + 1 : Nat))

/-- The order of two non-NaN values, with -0 below +0 when `z`. -/
def ltV (z : Bool) : FV → FV → Bool
  | .nan, _ => false
  | _, .nan => false
  | .inf s, .inf t => s && !t
  | .inf s, _ => s
  | _, .inf t => !t
  | .zero s, .zero t => z && s && !t
  | .zero _, .fin t _ _ => !t
  | .fin s _ _, .zero _ => s
  | .fin s m e, .fin t n g =>
    let lo := min e g
    decide (smant s m * 2 ^ (e - lo).toNat < smant t n * 2 ^ (g - lo).toNat)

def ltF (f : Fmt) (a b : Nat) : Bool := ltV false (decodeF f a) (decodeF f b)
def unordF (f : Fmt) (a b : Nat) : Bool := (decodeF f a).isNan || (decodeF f b).isNan
def leF (f : Fmt) (a b : Nat) : Bool := !unordF f a b && !ltF f b a
def eqF (f : Fmt) (a b : Nat) : Bool := !unordF f a b && !ltF f a b && !ltF f b a
def isNanF (f : Fmt) (a : Nat) : Bool := (decodeF f a).isNan
def finiteF (f : Fmt) (a : Nat) : Bool :=
  match decodeF f a with
  | .nan => false
  | .inf _ => false
  | _ => true

/-- Minimum and maximum: one NaN operand gives the other; -0 is below +0 (R61). -/
def minF (f : Fmt) (a b : Nat) : FRes :=
  let x := decodeF f a
  let y := decodeF f b
  if x.isNan then encodeF f y else if y.isNan then encodeF f x else encodeF f (if ltV true y x then y else x)

def maxF (f : Fmt) (a b : Nat) : FRes :=
  let x := decodeF f a
  let y := decodeF f b
  if x.isNan then encodeF f y else if y.isNan then encodeF f x else encodeF f (if ltV true x y then y else x)

def negF (f : Fmt) (a : Nat) : FRes := encodeF f (decodeF f a).neg
def absF (f : Fmt) (a : Nat) : FRes :=
  let x := decodeF f a
  encodeF f (if x.sign then x.neg else x)

/-- An integer as a floating-point value. -/
def ofIntF (f : Fmt) (i : Int) : FRes := encodeF f (ofMant false i 0)

/-- A rational n / d, d > 0, rounded once. -/
def ofRatF (f : Fmt) (n : Int) (d : Nat) : FRes :=
  if n = 0 then ⟨0, 0⟩
  else
    let k := Nat.log2 d + f.mb + 6
    let num := n.natAbs * 2 ^ k
    roundF f (decide (n < 0)) (2 * (num / d) + (if num % d = 0 then 0 else 1)) (-(k + 1 : Nat))

/-- Round to an integer, to nearest, ties to even; none for a NaN; infinities as beyond every range. -/
def rneV : FV → Option Int
  | .nan => none
  | .inf s => some (if s then -(2 ^ 80) else 2 ^ 80)
  | .zero _ => some 0
  | .fin s m e => some (smant s (if 0 ≤ e then m * 2 ^ e.toNat else rneShift m (-e).toNat))

/-- Floor of a value; none for a NaN; infinities as beyond every range. -/
def floorV : FV → Option Int
  | .nan => none
  | .inf s => some (if s then -(2 ^ 80) else 2 ^ 80)
  | .zero _ => some 0
  | .fin s m e => some (if 0 ≤ e then smant s (m * 2 ^ e.toNat) else (smant s m).fdiv (2 ^ (-e).toNat))

/-- FCVT to an integer: the result, and the CST bits SAT (0) and FNV (2) (R62). -/
def toIntF (f : Fmt) (lo hi : Int) (a : Nat) : Int × Nat :=
  match rneV (decodeF f a) with
  | none => (0, 4)
  | some i => if i < lo then (lo, 1) else if hi < i then (hi, 1) else (i, 0)

/-! ## Sine and cosine of a fraction of a turn, to 2^-56 -/

/-- π/2 in units of 2^-64. -/
def halfPi : Int := 28976077832308491369

/-- Taylor terms of sine or cosine in units of 2^-64: term t of order i, x squared. -/
def taylor (x2 : Int) : Nat → Int → Int → Int → Int
  | 0, _, _, acc => acc
  | n + 1, t, i, acc =>
    let t := -(t * x2 / 2 ^ 64) / (i * (i + 1))
    taylor x2 n t (i + 2) (acc + t)

/-- sin and cos of r quarter turns / 2^30, r < 2^30, in units of 2^-64. -/
def quarterSin (r : Nat) : Int :=
  let x := halfPi * r / 2 ^ 30
  taylor (x * x / 2 ^ 64) 14 x 2 x
def quarterCos (r : Nat) : Int :=
  let x := halfPi * r / 2 ^ 30
  taylor (x * x / 2 ^ 64) 14 (2 ^ 64) 1 (2 ^ 64)

/-- sin of t / 2^32 turns, in units of 2^-64. -/
def turnSin (t : Nat) : Int :=
  let r := t % 2 ^ 30
  match t / 2 ^ 30 % 4 with
  | 0 => quarterSin r
  | 1 => quarterCos r
  | 2 => -quarterSin r
  | _ => -quarterCos r

/-- cos of t / 2^32 turns, in units of 2^-64. -/
def turnCos (t : Nat) : Int := turnSin (t + 2 ^ 30)

/-- The signed value of a finite pattern in units of 2^-64, rounded down; none for NaN and infinities. -/
def fixOf (f : Fmt) (a : Nat) : Option Int :=
  match decodeF f a with
  | .nan => none
  | .inf _ => none
  | .zero _ => some 0
  | .fin s m e => floorV (.fin s m (e + 64))

/-- The open pattern `free` where it is a pattern that decodes as itself within 2^-22 of the value (in units of 2^-64, known to
2^-56), else the value correctly rounded: a result with absolute error at most 2^-22 (operation 0x4E, assumption 20). -/
def withinAbs (free : Word) (v : Int) : Nat :=
  match fixOf b32 free.toNat with
  | some x => if (x - v).natAbs ≤ 2 ^ 42 - 2 ^ 8 ∧ (encodeF b32 (decodeF b32 free.toNat)).w = free.toNat then free.toNat
              else (ofRatF b32 v (2 ^ 64)).w
  | none => (ofRatF b32 v (2 ^ 64)).w

/-- FSC's results for an angle word (operation 0x4E, assumption 20). -/
def sinW (t : Word) : Word := word (withinAbs (Config.fscSin t) (turnSin t.toNat))
def cosW (t : Word) : Word := word (withinAbs (Config.fscCos t) (turnCos t.toNat))

/-- Whether a positive pattern r is within 2^-22 relative of 1/√x, for x = m * 2^e. -/
def rsqOk (r : Nat) (m : Nat) (e : Int) : Bool :=
  match decodeF b32 r with
  | .fin false n g =>
    -- r² x against (1 ± 2^-22)², all times 2^44
    let ex := 2 * g + e + 44
    let v := n * n * m
    let lo := (2 ^ 22 - 1) ^ 2
    let hi := (2 ^ 22 + 1) ^ 2
    if 0 ≤ ex then decide (lo ≤ v * 2 ^ ex.toNat) && decide (v * 2 ^ ex.toNat ≤ hi)
    else decide (lo * 2 ^ (-ex).toNat ≤ v) && decide (v ≤ hi * 2 ^ (-ex).toNat)
  | _ => false

/-- FRSQ (operation 0x4D, R61): within 2^-22 relative of 1/√a (assumption 20). -/
def rsqF (a : Word) : FRes :=
  match decodeF b32 a.toNat with
  | .nan => nanRes b32 false
  | .zero _ => ⟨infPat b32 false, 2⟩
  | .inf s => if s then nanRes b32 true else ⟨0, 0⟩
  | .fin s m e =>
    if s then nanRes b32 true
    else
      let free := (Config.frsq a).toNat
      if rsqOk free m e then ⟨free, 0⟩
      else
        -- 1/√(m 2^e) = √(4^k / m') * 2^(-e'/2 - k), with e' even
        let (m, e) := if e % 2 = 0 then (m, e) else (2 * m, e - 1)
        let k := 60
        let r := isqrt (4 ^ k / m)
        roundF b32 false (2 * r + 1) (-(e / 2) - (k + 1 : Nat))

end Sys2Proof.Machine
end

