-- ==== Sys2Proof/Machine/Regs.lean ====
section
/-! DEFINITION. The register map: the device address, the reset value and the kinds of bits of every register of the
manual's register tables (the first table under *Registers* of each of 02_tick.md to 23_electrical.md). -/
namespace Sys2Proof.Machine

/-- A register, or an array of n (by n2) registers of one form, at base + i * s + j * s2. The masks say which bits are
of each kind (00_scope.md, R7): plain read/write, write-1-to-clear, written from the next edge (staged),
configuration. A bit in no mask reads as the machine gives it and discards writes. -/
structure RegRow where
  base  : Nat
  n     : Nat
  s     : Nat
  n2    : Nat
  s2    : Nat
  reset : Word
  rw    : Word
  w1c   : Word
  wt    : Word
  wc    : Word
  deriving DecidableEq, Repr

/-- Whether an address is one of the row's. -/
def RegRow.holds (r : RegRow) (a : Nat) : Bool :=
  let d := a - r.base
  let k := d % r.s
  decide (r.base <= a) && decide (d / r.s < r.n) &&
    (if r.n2 = 1 then decide (k = 0) else decide (k % r.s2 = 0) && decide (k / r.s2 < r.n2))

-- SYS (06_modes.md)
abbrev SYS_ID : Nat := 0x01000000
abbrev SYS_STEP : Nat := 0x01000004
abbrev SYS_CAPS : Nat := 0x01000008
abbrev SYS_MODE : Nat := 0x01000010
abbrev SYS_MODEREQ : Nat := 0x01000014
abbrev SYS_MSTAT : Nat := 0x01000018
abbrev SYS_HOLDCAUSE : Nat := 0x0100001C
abbrev SYS_PWRSTAT : Nat := 0x01000020
abbrev SYS_PWRCFG : Nat := 0x01000024
abbrev SYS_WAKEEN : Nat := 0x01000028
abbrev SYS_WAKECAUSE : Nat := 0x0100002C
abbrev SYS_WAKETMR : Nat := 0x01000030
abbrev SYS_RSTCAUSE : Nat := 0x01000034
abbrev SYS_CMD : Nat := 0x01000038
abbrev SYS_BOOTSTAT : Nat := 0x0100003C
abbrev SYS_KEYHASH (i : Nat) : Nat := 0x01000040 + 0x4 * i

/-- Registers of the SYS block, 06_modes.md. -/
def regsSys : List RegRow := [
  ⟨0x01000000, 1, 0x1, 1, 0x1, 0x4D480640, 0x0, 0x0, 0x0, 0x0⟩,
  ⟨0x01000004, 1, 0x1, 1, 0x1, 0x101, 0x0, 0x0, 0x0, 0x0⟩,
  ⟨0x01000008, 1, 0x1, 1, 0x1, 0x0, 0x0, 0x0, 0x0, 0x0⟩,
  ⟨0x01000010, 1, 0x1, 1, 0x1, 0x0, 0x0, 0x0, 0x0, 0x0⟩,
  ⟨0x01000014, 1, 0x1, 1, 0x1, 0x0, 0x0, 0x0, 0x7, 0x0⟩,
  ⟨0x01000018, 1, 0x1, 1, 0x1, 0x0, 0x0, 0x300, 0x0, 0x0⟩,
  ⟨0x0100001C, 1, 0x1, 1, 0x1, 0x0, 0x0, 0x1F, 0x0, 0x0⟩,
  ⟨0x01000020, 1, 0x1, 1, 0x1, 0x111, 0x0, 0x10000, 0x0, 0x0⟩,
  ⟨0x01000024, 1, 0x1, 1, 0x1, 0x10, 0xFFFF, 0x0, 0x0, 0x0⟩,
  ⟨0x01000028, 1, 0x1, 1, 0x1, 0x7, 0xF, 0x0, 0x0, 0x0⟩,
  ⟨0x0100002C, 1, 0x1, 1, 0x1, 0x0, 0x0, 0x3F, 0x0, 0x0⟩,
  ⟨0x01000030, 1, 0x1, 1, 0x1, 0x0, 0xFFFFFF, 0x0, 0x0, 0x0⟩,
  ⟨0x01000034, 1, 0x1, 1, 0x1, 0x0, 0x0, 0x7, 0x0, 0x0⟩,
  ⟨0x01000038, 1, 0x1, 1, 0x1, 0x0, 0x0, 0x0, 0x0, 0x0⟩,
  ⟨0x0100003C, 1, 0x1, 1, 0x1, 0x0, 0x0, 0x0, 0x0, 0x0⟩,
  ⟨0x01000040, 8, 0x4, 1, 0x1, 0x0, 0x0, 0x0, 0x0, 0x0⟩]

-- TCK (02_tick.md)
abbrev TCK_PERIOD : Nat := 0x01010000
abbrev TCK_BUDGET : Nat := 0x01010004
abbrev TCK_CFG : Nat := 0x01010008
abbrev TCK_CMD : Nat := 0x0101000C
abbrev TCK_COUNT_LO : Nat := 0x01010010
abbrev TCK_COUNT_HI : Nat := 0x01010014
abbrev TCK_SLIPS : Nat := 0x01010018
abbrev TCK_SLIPCAUSE : Nat := 0x0101001C
abbrev TCK_EDGETS_LO : Nat := 0x01010020
abbrev TCK_EDGETS_HI : Nat := 0x01010024
abbrev TCK_TS_LO : Nat := 0x01010028
abbrev TCK_TS_HI : Nat := 0x0101002C
abbrev TCK_GUARD : Nat := 0x01010030
abbrev TCK_GAP : Nat := 0x01010034
abbrev TCK_STAT : Nat := 0x01010038
abbrev TCK_CONSEC : Nat := 0x0101003C
abbrev TCK_PEAK (i : Nat) : Nat := 0x01010040 + 0x4 * i

/-- Registers of the TCK block, 02_tick.md. -/
def regsTck : List RegRow := [
  ⟨0x01010000, 1, 0x1, 1, 0x1, 0x2DC6C, 0x0, 0x0, 0x0, 0xFFFFFFFF⟩,
  ⟨0x01010004, 1, 0x1, 1, 0x1, 0x159B4, 0x0, 0x0, 0x0, 0x0⟩,
  ⟨0x01010008, 1, 0x1, 1, 0x1, 0x4, 0xFF, 0x0, 0x0, 0x0⟩,
  ⟨0x0101000C, 1, 0x1, 1, 0x1, 0x0, 0x0, 0x0, 0x0, 0x0⟩,
  ⟨0x01010010, 1, 0x1, 1, 0x1, 0x0, 0x0, 0x0, 0x0, 0x0⟩,
  ⟨0x01010014, 1, 0x1, 1, 0x1, 0x0, 0x0, 0x0, 0x0, 0x0⟩,
  ⟨0x01010018, 1, 0x1, 1, 0x1, 0x0, 0x0, 0x0, 0x0, 0x0⟩,
  ⟨0x0101001C, 1, 0x1, 1, 0x1, 0x0, 0x0, 0xF, 0x0, 0x0⟩,
  ⟨0x01010020, 1, 0x1, 1, 0x1, 0x0, 0x0, 0x0, 0x0, 0x0⟩,
  ⟨0x01010024, 1, 0x1, 1, 0x1, 0x0, 0x0, 0x0, 0x0, 0x0⟩,
  ⟨0x01010028, 1, 0x1, 1, 0x1, 0x0, 0x0, 0x0, 0x0, 0x0⟩,
  ⟨0x0101002C, 1, 0x1, 1, 0x1, 0x0, 0x0, 0x0, 0x0, 0x0⟩,
  ⟨0x01010030, 1, 0x1, 1, 0x1, 0x0, 0x0, 0x0, 0x0, 0x0⟩,
  ⟨0x01010034, 1, 0x1, 1, 0x1, 0x0, 0x0, 0x0, 0x0, 0x0⟩,
  ⟨0x01010038, 1, 0x1, 1, 0x1, 0x0, 0x0, 0x70, 0x0, 0x0⟩,
  ⟨0x0101003C, 1, 0x1, 1, 0x1, 0x0, 0x0, 0x0, 0x0, 0x0⟩,
  ⟨0x01010040, 6, 0x4, 1, 0x1, 0x0, 0x0, 0x0, 0x0, 0x0⟩]

-- HST (05_host.md)
abbrev HST_REINS : Nat := 0x01020000
abbrev HST_HB : Nat := 0x01020004
abbrev HST_HBTO : Nat := 0x01020008
abbrev HST_LTR : Nat := 0x0102000C
abbrev HST_PCIID : Nat := 0x01020010
abbrev HST_TAKES : Nat := 0x01020014
abbrev HST_STAT (i : Nat) : Nat := 0x01020100 + 0x100 * i
abbrev HST_CMDHEAD (i : Nat) : Nat := 0x01020104 + 0x100 * i
abbrev HST_CMDTAIL (i : Nat) : Nat := 0x01020108 + 0x100 * i
abbrev HST_CPLHEAD (i : Nat) : Nat := 0x0102010C + 0x100 * i
abbrev HST_CPLTAIL (i : Nat) : Nat := 0x01020110 + 0x100 * i
abbrev HST_DISCARD (i : Nat) : Nat := 0x01020114 + 0x100 * i
abbrev HST_PENDING (i : Nat) : Nat := 0x01020118 + 0x100 * i
abbrev HST_CPLMOD (i : Nat) : Nat := 0x0102011C + 0x100 * i
abbrev HST_TICKDIV (i : Nat) : Nat := 0x01020120 + 0x100 * i
abbrev HST_SPIWIN (i : Nat) : Nat := 0x01020124 + 0x100 * i
abbrev HST_VECPEND (i : Nat) : Nat := 0x01020128 + 0x100 * i
abbrev HST_VECACK (i : Nat) : Nat := 0x0102012C + 0x100 * i
abbrev HST_MSIX (i j : Nat) : Nat := 0x01020400 + 0x200 * i + 0x4 * j
abbrev HST_PBA (i j : Nat) : Nat := 0x01020800 + 0x8 * i + 0x4 * j
abbrev HST_CRING (i j : Nat) : Nat := 0x01028000 + 0x4000 * i + 0x4 * j
abbrev HST_CPRING (i j : Nat) : Nat := 0x0102A000 + 0x4000 * i + 0x4 * j

/-- Registers of the HST block, 05_host.md. -/
def regsHst0 : List RegRow := [
  ⟨0x01020000, 1, 0x1, 1, 0x1, 0x10000, 0x0, 0x0, 0x0, 0x0⟩,
  ⟨0x01020004, 1, 0x1, 1, 0x1, 0x0, 0x0, 0x0, 0x0, 0x0⟩,
  ⟨0x01020008, 1, 0x1, 1, 0x1, 0x64, 0x3FF, 0x0, 0x0, 0x0⟩,
  ⟨0x0102000C, 1, 0x1, 1, 0x1, 0x0, 0xFFFF, 0x0, 0x0, 0x0⟩,
  ⟨0x01020010, 1, 0x1, 1, 0x1, 0x6401DA7, 0x0, 0x0, 0x0, 0x0⟩,
  ⟨0x01020014, 1, 0x1, 1, 0x1, 0x0, 0x0, 0x0, 0x0, 0x0⟩,
  ⟨0x01020100, 2, 0x100, 1, 0x1, 0x0, 0x0, 0xFE, 0x0, 0x0⟩,
  ⟨0x01020104, 2, 0x100, 1, 0x1, 0x0, 0x0, 0x0, 0x0, 0x0⟩,
  ⟨0x01020108, 2, 0x100, 1, 0x1, 0x0, 0x1FF, 0x0, 0x0, 0x0⟩,
  ⟨0x0102010C, 2, 0x100, 1, 0x1, 0x0, 0x1FF, 0x0, 0x0, 0x0⟩,
  ⟨0x01020110, 2, 0x100, 1, 0x1, 0x0, 0x0, 0x0, 0x0, 0x0⟩,
  ⟨0x01020114, 2, 0x100, 1, 0x1, 0x0, 0x0, 0x0, 0x0, 0x0⟩,
  ⟨0x01020118, 2, 0x100, 1, 0x1, 0x0, 0x0, 0x0, 0x0, 0x0⟩,
  ⟨0x0102011C, 2, 0x100, 1, 0x1, 0x0, 0xFF, 0x0, 0x0, 0x0⟩,
  ⟨0x01020120, 2, 0x100, 1, 0x1, 0x0, 0xFFFF, 0x0, 0x0, 0x0⟩,
  ⟨0x01020124, 2, 0x100, 1, 0x1, 0x0, 0x800001FF, 0x0, 0x0, 0x0⟩,
  ⟨0x01020128, 2, 0x100, 1, 0x1, 0x0, 0x0, 0x0, 0x0, 0x0⟩,
  ⟨0x0102012C, 2, 0x100, 1, 0x1, 0x0, 0x0, 0x0, 0x0, 0x0⟩,
  ⟨0x01020400, 2, 0x200, 128, 0x4, 0x0, 0xFFFFFFFF, 0x0, 0x0, 0x0⟩,
  ⟨0x01020800, 2, 0x8, 2, 0x4, 0x0, 0x0, 0x0, 0x0, 0x0⟩]
/-- Registers of the HST block, 05_host.md. -/
def regsHst1 : List RegRow := [
  ⟨0x01028000, 2, 0x4000, 2048, 0x4, 0x0, 0xFFFFFFFF, 0x0, 0x0, 0x0⟩,
  ⟨0x0102A000, 2, 0x4000, 2048, 0x4, 0x0, 0x0, 0x0, 0x0, 0x0⟩]
/-- Registers of the HST block, 05_host.md. -/
def regsHst : List RegRow := regsHst0 ++ regsHst1

-- LIM (04_programs.md)
abbrev LIM_LOADCMD : Nat := 0x01030000
abbrev LIM_IMGADDR : Nat := 0x01030004
abbrev LIM_IMGLEN : Nat := 0x01030008
abbrev LIM_LDSTAT : Nat := 0x0103000C
abbrev LIM_IMGID : Nat := 0x01030010
abbrev LIM_IMGVER : Nat := 0x01030014
abbrev LIM_CORES : Nat := 0x01030018
abbrev LIM_FAULTCORE : Nat := 0x0103001C
abbrev LIM_MINPER : Nat := 0x01030020
abbrev LIM_STAGELINES : Nat := 0x01030024
abbrev LIM_CERT (i : Nat) : Nat := 0x01030040 + 0x4 * i
abbrev LIM_CST (i : Nat) : Nat := 0x01030800 + 0x40 * i
abbrev LIM_EXC (i : Nat) : Nat := 0x01030804 + 0x40 * i
abbrev LIM_EXCPC (i : Nat) : Nat := 0x01030808 + 0x40 * i
abbrev LIM_MB (i j : Nat) : Nat := 0x01031000 + 0x100 * i + 0x4 * j
abbrev LIM_MBC (i j : Nat) : Nat := 0x01031800 + 0x100 * i + 0x4 * j

/-- Registers of the LIM block, 04_programs.md. -/
def regsLim : List RegRow := [
  ⟨0x01030000, 1, 0x1, 1, 0x1, 0x0, 0x0, 0x0, 0x0, 0x0⟩,
  ⟨0x01030004, 1, 0x1, 1, 0x1, 0x0, 0xFFFFFFC0, 0x0, 0x0, 0x0⟩,
  ⟨0x01030008, 1, 0x1, 1, 0x1, 0x0, 0xFFFFFFFF, 0x0, 0x0, 0x0⟩,
  ⟨0x0103000C, 1, 0x1, 1, 0x1, 0x0, 0x0, 0x80000000, 0x0, 0x0⟩,
  ⟨0x01030010, 1, 0x1, 1, 0x1, 0x0, 0x0, 0x0, 0x0, 0x0⟩,
  ⟨0x01030014, 1, 0x1, 1, 0x1, 0x0, 0x0, 0x0, 0x0, 0x0⟩,
  ⟨0x01030018, 1, 0x1, 1, 0x1, 0x0, 0x0, 0x0, 0x0, 0x0⟩,
  ⟨0x0103001C, 1, 0x1, 1, 0x1, 0x7, 0x0, 0x0, 0x0, 0x0⟩,
  ⟨0x01030020, 1, 0x1, 1, 0x1, 0x0, 0x0, 0x0, 0x0, 0x0⟩,
  ⟨0x01030024, 1, 0x1, 1, 0x1, 0x0, 0x0, 0x0, 0x0, 0x0⟩,
  ⟨0x01030040, 6, 0x4, 1, 0x1, 0x0, 0x0, 0x0, 0x0, 0x0⟩,
  ⟨0x01030800, 6, 0x40, 1, 0x1, 0x0, 0x0, 0x0, 0x0, 0x0⟩,
  ⟨0x01030804, 6, 0x40, 1, 0x1, 0x0, 0x0, 0x80000000, 0x0, 0x0⟩,
  ⟨0x01030808, 6, 0x40, 1, 0x1, 0x0, 0x0, 0x0, 0x0, 0x0⟩,
  ⟨0x01031000, 6, 0x100, 64, 0x4, 0x0, 0x0, 0x0, 0xFFFFFFFF, 0x0⟩,
  ⟨0x01031800, 6, 0x100, 64, 0x4, 0x0, 0x0, 0x0, 0x0, 0x0⟩]

-- AX (08_motion.md)
abbrev AX_CFG (i : Nat) : Nat := 0x01040000 + 0x400 * i
abbrev AX_STEP (i : Nat) : Nat := 0x01040004 + 0x400 * i
abbrev AX_FBRATIO (i : Nat) : Nat := 0x01040008 + 0x400 * i
abbrev AX_GSRC (i : Nat) : Nat := 0x0104000C + 0x400 * i
abbrev AX_CTRL (i : Nat) : Nat := 0x01040010 + 0x400 * i
abbrev AX_TPOS (i : Nat) : Nat := 0x01040014 + 0x400 * i
abbrev AX_TVEL (i : Nat) : Nat := 0x01040018 + 0x400 * i
abbrev AX_VMAX (i : Nat) : Nat := 0x0104001C + 0x400 * i
abbrev AX_AMAX (i : Nat) : Nat := 0x01040020 + 0x400 * i
abbrev AX_JMAX (i : Nat) : Nat := 0x01040024 + 0x400 * i
abbrev AX_QDEC (i : Nat) : Nat := 0x01040028 + 0x400 * i
abbrev AX_GNUM (i : Nat) : Nat := 0x0104002C + 0x400 * i
abbrev AX_GDEN (i : Nat) : Nat := 0x01040030 + 0x400 * i
abbrev AX_ACT (i : Nat) : Nat := 0x01040034 + 0x400 * i
abbrev AX_SEGDUR (i : Nat) : Nat := 0x01040038 + 0x400 * i
abbrev AX_SEGPOS (i : Nat) : Nat := 0x0104003C + 0x400 * i
abbrev AX_SEGVEL (i : Nat) : Nat := 0x01040040 + 0x400 * i
abbrev AX_CAMORG (i : Nat) : Nat := 0x01040044 + 0x400 * i
abbrev AX_STAT (i : Nat) : Nat := 0x01040050 + 0x400 * i
abbrev AX_CPOS (i : Nat) : Nat := 0x01040054 + 0x400 * i
abbrev AX_CPOSF (i : Nat) : Nat := 0x01040058 + 0x400 * i
abbrev AX_CVEL (i : Nat) : Nat := 0x0104005C + 0x400 * i
abbrev AX_CACC (i : Nat) : Nat := 0x01040060 + 0x400 * i
abbrev AX_ALERTCNT (i : Nat) : Nat := 0x01040064 + 0x400 * i
abbrev AX_CAMADDR (i : Nat) : Nat := 0x01040070 + 0x400 * i
abbrev AX_CAMLEN (i : Nat) : Nat := 0x01040074 + 0x400 * i
abbrev AX_CAMSPAN (i : Nat) : Nat := 0x01040078 + 0x400 * i
abbrev AX_CAMRISE (i : Nat) : Nat := 0x0104007C + 0x400 * i
abbrev AX_GRP (i : Nat) : Nat := 0x01044000 + 0x10 * i
abbrev AX_GQFREE (i : Nat) : Nat := 0x01044004 + 0x10 * i

/-- Registers of the AX block, 08_motion.md. -/
def regsAx0 : List RegRow := [
  ⟨0x01040000, 16, 0x400, 1, 0x1, 0x0, 0x0, 0x0, 0x0, 0xFF80FFFF⟩,
  ⟨0x01040004, 16, 0x400, 1, 0x1, 0x1772F, 0x0, 0x0, 0x0, 0x1FFFFFF⟩,
  ⟨0x01040008, 16, 0x400, 1, 0x1, 0x3F800000, 0x0, 0x0, 0x0, 0xFFFFFFFF⟩,
  ⟨0x0104000C, 16, 0x400, 1, 0x1, 0x0, 0x0, 0x0, 0x0, 0x1F⟩,
  ⟨0x01040010, 16, 0x400, 1, 0x1, 0x0, 0x0, 0x0, 0x1F, 0x0⟩,
  ⟨0x01040014, 16, 0x400, 1, 0x1, 0x0, 0x0, 0x0, 0xFFFFFFFF, 0x0⟩,
  ⟨0x01040018, 16, 0x400, 1, 0x1, 0x0, 0x0, 0x0, 0xFFFFFFFF, 0x0⟩,
  ⟨0x0104001C, 16, 0x400, 1, 0x1, 0x447A0000, 0x0, 0x0, 0xFFFFFFFF, 0x0⟩,
  ⟨0x01040020, 16, 0x400, 1, 0x1, 0x461C4000, 0x0, 0x0, 0xFFFFFFFF, 0x0⟩,
  ⟨0x01040024, 16, 0x400, 1, 0x1, 0x49742400, 0x0, 0x0, 0xFFFFFFFF, 0x0⟩,
  ⟨0x01040028, 16, 0x400, 1, 0x1, 0x461C4000, 0x0, 0x0, 0xFFFFFFFF, 0x0⟩,
  ⟨0x0104002C, 16, 0x400, 1, 0x1, 0x1, 0x0, 0x0, 0xFFFFFFFF, 0x0⟩,
  ⟨0x01040030, 16, 0x400, 1, 0x1, 0x1, 0x0, 0x0, 0xFFFFFFFF, 0x0⟩,
  ⟨0x01040034, 16, 0x400, 1, 0x1, 0x0, 0x0, 0x0, 0x3, 0x0⟩,
  ⟨0x01040038, 16, 0x400, 1, 0x1, 0x0, 0x0, 0x0, 0xFFFFFFFF, 0x0⟩,
  ⟨0x0104003C, 16, 0x400, 1, 0x1, 0x0, 0x0, 0x0, 0xFFFFFFFF, 0x0⟩,
  ⟨0x01040040, 16, 0x400, 1, 0x1, 0x0, 0x0, 0x0, 0xFFFFFFFF, 0x0⟩,
  ⟨0x01040044, 16, 0x400, 1, 0x1, 0x0, 0x0, 0x0, 0xFFFFFFFF, 0x0⟩,
  ⟨0x01040050, 16, 0x400, 1, 0x1, 0x0, 0x0, 0x3F80, 0x0, 0x0⟩,
  ⟨0x01040054, 16, 0x400, 1, 0x1, 0x0, 0x0, 0x0, 0x0, 0x0⟩]
/-- Registers of the AX block, 08_motion.md. -/
def regsAx1 : List RegRow := [
  ⟨0x01040058, 16, 0x400, 1, 0x1, 0x0, 0x0, 0x0, 0x0, 0x0⟩,
  ⟨0x0104005C, 16, 0x400, 1, 0x1, 0x0, 0x0, 0x0, 0x0, 0x0⟩,
  ⟨0x01040060, 16, 0x400, 1, 0x1, 0x0, 0x0, 0x0, 0x0, 0x0⟩,
  ⟨0x01040064, 16, 0x400, 1, 0x1, 0x0, 0x0, 0x0, 0x0, 0x0⟩,
  ⟨0x01040070, 16, 0x400, 1, 0x1, 0x0, 0x0, 0x0, 0x0, 0x3FFFC0⟩,
  ⟨0x01040074, 16, 0x400, 1, 0x1, 0x4, 0x0, 0x0, 0x0, 0x1FFF⟩,
  ⟨0x01040078, 16, 0x400, 1, 0x1, 0x1, 0x0, 0x0, 0x0, 0xFFFFFFFF⟩,
  ⟨0x0104007C, 16, 0x400, 1, 0x1, 0x0, 0x0, 0x0, 0x0, 0xFFFFFFFF⟩,
  ⟨0x01044000, 4, 0x10, 1, 0x1, 0x0, 0x0, 0x0, 0x0, 0xFFFF⟩,
  ⟨0x01044004, 4, 0x10, 1, 0x1, 0x20, 0x0, 0x0, 0x0, 0x0⟩]
/-- Registers of the AX block, 08_motion.md. -/
def regsAx : List RegRow := regsAx0 ++ regsAx1

-- CTL (09_control.md)
abbrev CTL_CFG (i : Nat) : Nat := 0x01050000 + 0x1000 * i
abbrev CTL_PMAP (i : Nat) : Nat := 0x01050004 + 0x1000 * i
abbrev CTL_SMAP (i : Nat) : Nat := 0x01050008 + 0x1000 * i
abbrev CTL_CARRIER (i : Nat) : Nat := 0x0105000C + 0x1000 * i
abbrev CTL_DTIME (i : Nat) : Nat := 0x01050010 + 0x1000 * i
abbrev CTL_POLES (i : Nat) : Nat := 0x01050014 + 0x1000 * i
abbrev CTL_CPR (i : Nat) : Nat := 0x01050018 + 0x1000 * i
abbrev CTL_EOFS (i : Nat) : Nat := 0x0105001C + 0x1000 * i
abbrev CTL_VBUS (i : Nat) : Nat := 0x01050048 + 0x1000 * i
abbrev CTL_MODMAX (i : Nat) : Nat := 0x0105004C + 0x1000 * i
abbrev CTL_GAIN (i j : Nat) : Nat := 0x01050020 + 0x1000 * i + 0x4 * j
abbrev CTL_ISCALE (i : Nat) : Nat := 0x01050054 + 0x1000 * i
abbrev CTL_IOFS (i j : Nat) : Nat := 0x01050058 + 0x1000 * i + 0x4 * j
abbrev CTL_IQUIET (i : Nat) : Nat := 0x01050064 + 0x1000 * i
abbrev CTL_ISTRONG (i : Nat) : Nat := 0x01050068 + 0x1000 * i
abbrev CTL_VSTR (i : Nat) : Nat := 0x0105006C + 0x1000 * i
abbrev CTL_VHYS (i : Nat) : Nat := 0x01050070 + 0x1000 * i
abbrev CTL_KQP (i : Nat) : Nat := 0x01050074 + 0x1000 * i
abbrev CTL_KQI (i : Nat) : Nat := 0x01050078 + 0x1000 * i
abbrev CTL_MSTEP (i : Nat) : Nat := 0x0105007C + 0x1000 * i
abbrev CTL_TORG (i : Nat) : Nat := 0x01050080 + 0x1000 * i
abbrev CTL_TSPAN (i : Nat) : Nat := 0x01050084 + 0x1000 * i
abbrev CTL_FRSCALE (i : Nat) : Nat := 0x01050088 + 0x1000 * i
abbrev CTL_CGSCALE (i : Nat) : Nat := 0x0105008C + 0x1000 * i
abbrev CTL_FRDEAD (i : Nat) : Nat := 0x01050090 + 0x1000 * i
abbrev CTL_OCLIM (i : Nat) : Nat := 0x01050094 + 0x1000 * i
abbrev CTL_TACT (i : Nat) : Nat := 0x01050098 + 0x1000 * i
abbrev CTL_STAT (i : Nat) : Nat := 0x0105009C + 0x1000 * i
abbrev CTL_SDGRP (i : Nat) : Nat := 0x01050300 + 0x4 * i
abbrev CTL_PAIRMODE : Nat := 0x01050310
abbrev CTL_POL0 : Nat := 0x01050314
abbrev CTL_POL1 : Nat := 0x01050318
abbrev CTL_DPCERT (i : Nat) : Nat := 0x01050320 + 0x4 * i
abbrev CTL_SDSTAT : Nat := 0x01050330
abbrev CTL_FRTAB (i j : Nat) : Nat := 0x01050400 + 0x1000 * i + 0x4 * j
abbrev CTL_CGTAB (i j : Nat) : Nat := 0x01050800 + 0x1000 * i + 0x4 * j

/-- Registers of the CTL block, 09_control.md. -/
def regsCtl0 : List RegRow := [
  ⟨0x01050000, 16, 0x1000, 1, 0x1, 0x0, 0x0, 0x0, 0x0, 0x7⟩,
  ⟨0x01050004, 16, 0x1000, 1, 0x1, 0xFFFFFF, 0x0, 0x0, 0x0, 0xFFFFFF⟩,
  ⟨0x01050008, 16, 0x1000, 1, 0x1, 0x7FFF, 0x0, 0x0, 0x0, 0x7FFF⟩,
  ⟨0x0105000C, 16, 0x1000, 1, 0x1, 0x840124F8, 0x0, 0x0, 0x0, 0xFF1FFFFF⟩,
  ⟨0x01050010, 16, 0x1000, 1, 0x1, 0x2EE0, 0x0, 0x0, 0x0, 0xFFFF⟩,
  ⟨0x01050014, 16, 0x1000, 1, 0x1, 0x1, 0x0, 0x0, 0x0, 0x7F⟩,
  ⟨0x01050018, 16, 0x1000, 1, 0x1, 0x1000, 0x0, 0x0, 0x0, 0xFFFFFFFF⟩,
  ⟨0x0105001C, 16, 0x1000, 1, 0x1, 0x0, 0x0, 0x0, 0xFFFFFFFF, 0x0⟩,
  ⟨0x01050048, 16, 0x1000, 1, 0x1, 0x41C00000, 0x0, 0x0, 0xFFFFFFFF, 0x0⟩,
  ⟨0x0105004C, 16, 0x1000, 1, 0x1, 0x3F733333, 0x0, 0x0, 0xFFFFFFFF, 0x0⟩,
  ⟨0x01050020, 16, 0x1000, 13, 0x4, 0x0, 0x0, 0x0, 0xFFFFFFFF, 0x0⟩,
  ⟨0x01050054, 16, 0x1000, 1, 0x1, 0x3F800000, 0x0, 0x0, 0xFFFFFFFF, 0x0⟩,
  ⟨0x01050058, 16, 0x1000, 3, 0x4, 0x0, 0x0, 0x0, 0xFFFFFFFF, 0x0⟩,
  ⟨0x01050064, 16, 0x1000, 1, 0x1, 0x0, 0x0, 0x0, 0xFFFFFFFF, 0x0⟩,
  ⟨0x01050068, 16, 0x1000, 1, 0x1, 0x0, 0x0, 0x0, 0xFFFFFFFF, 0x0⟩,
  ⟨0x0105006C, 16, 0x1000, 1, 0x1, 0x0, 0x0, 0x0, 0xFFFFFFFF, 0x0⟩,
  ⟨0x01050070, 16, 0x1000, 1, 0x1, 0x0, 0x0, 0x0, 0xFFFFFFFF, 0x0⟩,
  ⟨0x01050074, 16, 0x1000, 1, 0x1, 0x0, 0x0, 0x0, 0xFFFFFFFF, 0x0⟩,
  ⟨0x01050078, 16, 0x1000, 1, 0x1, 0x0, 0x0, 0x0, 0xFFFFFFFF, 0x0⟩,
  ⟨0x0105007C, 16, 0x1000, 1, 0x1, 0x10, 0x0, 0x0, 0x0, 0x1FF⟩]
/-- Registers of the CTL block, 09_control.md. -/
def regsCtl1 : List RegRow := [
  ⟨0x01050080, 16, 0x1000, 1, 0x1, 0x0, 0x0, 0x0, 0x0, 0xFFFFFFFF⟩,
  ⟨0x01050084, 16, 0x1000, 1, 0x1, 0x1000, 0x0, 0x0, 0x0, 0xFFFFFFFF⟩,
  ⟨0x01050088, 16, 0x1000, 1, 0x1, 0x0, 0x0, 0x0, 0xFFFFFFFF, 0x0⟩,
  ⟨0x0105008C, 16, 0x1000, 1, 0x1, 0x0, 0x0, 0x0, 0xFFFFFFFF, 0x0⟩,
  ⟨0x01050090, 16, 0x1000, 1, 0x1, 0x0, 0x0, 0x0, 0xFFFFFFFF, 0x0⟩,
  ⟨0x01050094, 16, 0x1000, 1, 0x1, 0x0, 0x0, 0x0, 0xFFFFFFFF, 0x0⟩,
  ⟨0x01050098, 16, 0x1000, 1, 0x1, 0x0, 0x0, 0x0, 0xF, 0x0⟩,
  ⟨0x0105009C, 16, 0x1000, 1, 0x1, 0x0, 0x0, 0x1FC, 0x0, 0x0⟩,
  ⟨0x01050300, 3, 0x4, 1, 0x1, 0x4B0400, 0x0, 0x0, 0x0, 0x1FF1FF3⟩,
  ⟨0x01050310, 1, 0x1, 1, 0x1, 0x0, 0x0, 0x0, 0x0, 0xFFFFFF⟩,
  ⟨0x01050314, 1, 0x1, 1, 0x1, 0x0, 0x0, 0x0, 0x0, 0xFFFFFFFF⟩,
  ⟨0x01050318, 1, 0x1, 1, 0x1, 0x0, 0x0, 0x0, 0x0, 0xFFFF⟩,
  ⟨0x01050320, 4, 0x4, 1, 0x1, 0x0, 0x0, 0x0, 0x0, 0x0⟩,
  ⟨0x01050330, 1, 0x1, 1, 0x1, 0x0, 0x0, 0xFFFFFF, 0x0, 0x0⟩,
  ⟨0x01050400, 16, 0x1000, 256, 0x4, 0x0, 0x0, 0x0, 0xFFFFFFFF, 0x0⟩,
  ⟨0x01050800, 16, 0x1000, 512, 0x4, 0x0, 0x0, 0x0, 0xFFFFFFFF, 0x0⟩]
/-- Registers of the CTL block, 09_control.md. -/
def regsCtl : List RegRow := regsCtl0 ++ regsCtl1

-- FB (07_feedback.md)
abbrev FB_CFG (i : Nat) : Nat := 0x01060000 + 0x100 * i
abbrev FB_ZSTO (i : Nat) : Nat := 0x01060004 + 0x100 * i
abbrev FB_STAT (i : Nat) : Nat := 0x01060008 + 0x100 * i
abbrev FB_POS (i : Nat) : Nat := 0x0106000C + 0x100 * i
abbrev FB_SPD (i : Nat) : Nat := 0x01060010 + 0x100 * i
abbrev FB_SER (i : Nat) : Nat := 0x01060014 + 0x100 * i
abbrev FB_SERFLD (i : Nat) : Nat := 0x01060018 + 0x100 * i
abbrev FB_SERDLY (i : Nat) : Nat := 0x0106001C + 0x100 * i
abbrev FB_SCOFS (i : Nat) : Nat := 0x01060020 + 0x100 * i
abbrev FB_SCCOR (i : Nat) : Nat := 0x01060024 + 0x100 * i
abbrev FB_SCAMP (i : Nat) : Nat := 0x01060028 + 0x100 * i
abbrev FB_RSFMT (i : Nat) : Nat := 0x01060030 + 0x100 * i
abbrev FB_RSCRC (i : Nat) : Nat := 0x01060034 + 0x100 * i
abbrev FB_RSTX (i j : Nat) : Nat := 0x01060040 + 0x100 * i + 0x4 * j
abbrev FB_CAP (i : Nat) : Nat := 0x01061000 + 0x4 * i

/-- Registers of the FB block, 07_feedback.md. -/
def regsFb : List RegRow := [
  ⟨0x01060000, 16, 0x100, 1, 0x1, 0x0, 0x0, 0x0, 0x0, 0x3F3C07⟩,
  ⟨0x01060004, 16, 0x100, 1, 0x1, 0x3E8, 0xFFFF, 0x0, 0x0, 0x0⟩,
  ⟨0x01060008, 16, 0x100, 1, 0x1, 0x10, 0x0, 0xDF00, 0x0, 0x0⟩,
  ⟨0x0106000C, 16, 0x100, 1, 0x1, 0x0, 0x0, 0x0, 0x0, 0x0⟩,
  ⟨0x01060010, 16, 0x100, 1, 0x1, 0x0, 0x0, 0x0, 0x0, 0x0⟩,
  ⟨0x01060014, 16, 0x100, 1, 0x1, 0x4080064, 0x0, 0x0, 0x0, 0xFFFFFFFF⟩,
  ⟨0x01060018, 16, 0x100, 1, 0x1, 0x0, 0x0, 0x0, 0x0, 0x3FFF03F⟩,
  ⟨0x0106001C, 16, 0x100, 1, 0x1, 0x0, 0xFFF, 0x0, 0x0, 0x0⟩,
  ⟨0x01060020, 16, 0x100, 1, 0x1, 0x0, 0x0, 0x0, 0x0, 0xFFFFFFFF⟩,
  ⟨0x01060024, 16, 0x100, 1, 0x1, 0x0, 0x0, 0x0, 0x0, 0xFFFFFFFF⟩,
  ⟨0x01060028, 16, 0x100, 1, 0x1, 0x1F400800, 0x0, 0x0, 0x0, 0xFFFFFFFF⟩,
  ⟨0x01060030, 16, 0x100, 1, 0x1, 0x0, 0x0, 0x0, 0x0, 0xFFFF3FDF⟩,
  ⟨0x01060034, 16, 0x100, 1, 0x1, 0x0, 0x0, 0x0, 0x0, 0xFFFFFFFF⟩,
  ⟨0x01060040, 16, 0x100, 4, 0x4, 0x0, 0x0, 0x0, 0x0, 0xFFFFFFFF⟩,
  ⟨0x01061000, 8, 0x4, 1, 0x1, 0x0, 0x0, 0x0, 0x0, 0xFF8F⟩]

-- PRT (10_print.md)
abbrev PRT_CFG (i : Nat) : Nat := 0x01070000 + 0x100 * i
abbrev PRT_PACE (i : Nat) : Nat := 0x01070004 + 0x100 * i
abbrev PRT_RATIO (i : Nat) : Nat := 0x01070008 + 0x100 * i
abbrev PRT_ROWOFS (i : Nat) : Nat := 0x0107000C + 0x100 * i
abbrev PRT_RINGBASE (i : Nat) : Nat := 0x01070010 + 0x100 * i
abbrev PRT_GEOM (i : Nat) : Nat := 0x01070014 + 0x100 * i
abbrev PRT_STAT (i : Nat) : Nat := 0x01070018 + 0x100 * i
abbrev PRT_LATECNT (i : Nat) : Nat := 0x0107001C + 0x100 * i
abbrev PRT_SKIPCNT (i : Nat) : Nat := 0x01070020 + 0x100 * i
abbrev PRT_JOBCMD (i : Nat) : Nat := 0x01070024 + 0x100 * i
abbrev PRT_JOBSTART (i : Nat) : Nat := 0x01070028 + 0x100 * i
abbrev PRT_JOBROWS (i : Nat) : Nat := 0x0107002C + 0x100 * i
abbrev PRT_WRIDX (i : Nat) : Nat := 0x01070030 + 0x100 * i
abbrev PRT_RDIDX (i : Nat) : Nat := 0x01070034 + 0x100 * i
abbrev PRT_DEN (i j : Nat) : Nat := 0x01070040 + 0x100 * i + 0x4 * j
abbrev PRT_SLW (i j : Nat) : Nat := 0x01070080 + 0x100 * i + 0x4 * j

/-- Registers of the PRT block, 10_print.md. -/
def regsPrt : List RegRow := [
  ⟨0x01070000, 2, 0x100, 1, 0x1, 0x23C00, 0x0, 0x0, 0x0, 0x37FFFF01⟩,
  ⟨0x01070004, 2, 0x100, 1, 0x1, 0x0, 0x0, 0x0, 0x0, 0x1F3⟩,
  ⟨0x01070008, 2, 0x100, 1, 0x1, 0x10001, 0x0, 0x0, 0x0, 0xFFFFFFFF⟩,
  ⟨0x0107000C, 2, 0x100, 1, 0x1, 0x0, 0x0, 0x0, 0x0, 0xFFFF⟩,
  ⟨0x01070010, 2, 0x100, 1, 0x1, 0x0, 0x0, 0x0, 0x0, 0x0⟩,
  ⟨0x01070014, 2, 0x100, 1, 0x1, 0x0, 0x0, 0x0, 0x0, 0x0⟩,
  ⟨0x01070018, 2, 0x100, 1, 0x1, 0x0, 0x0, 0x3F80, 0x0, 0x0⟩,
  ⟨0x0107001C, 2, 0x100, 1, 0x1, 0x0, 0x0, 0x0, 0x0, 0x0⟩,
  ⟨0x01070020, 2, 0x100, 1, 0x1, 0x0, 0x0, 0x0, 0x0, 0x0⟩,
  ⟨0x01070024, 2, 0x100, 1, 0x1, 0x0, 0x0, 0x0, 0x3, 0x0⟩,
  ⟨0x01070028, 2, 0x100, 1, 0x1, 0x0, 0x0, 0x0, 0xFFFFFFFF, 0x0⟩,
  ⟨0x0107002C, 2, 0x100, 1, 0x1, 0x0, 0x0, 0x0, 0xFFFF, 0x0⟩,
  ⟨0x01070030, 2, 0x100, 1, 0x1, 0x0, 0x0, 0x0, 0xFFFF, 0x0⟩,
  ⟨0x01070034, 2, 0x100, 1, 0x1, 0x0, 0x0, 0x0, 0x0, 0x0⟩,
  ⟨0x01070040, 2, 0x100, 16, 0x4, 0x0, 0x0, 0x0, 0xFFFFFFFF, 0x0⟩,
  ⟨0x01070080, 2, 0x100, 16, 0x4, 0x0, 0x0, 0x0, 0xFFFFFFFF, 0x0⟩]

-- VIS (11_vision.md)
abbrev VIS_BUDGET : Nat := 0x01080000
abbrev VIS_CSI_CFG (i : Nat) : Nat := 0x01080040 + 0x40 * i
abbrev VIS_CSI_SIZE (i : Nat) : Nat := 0x01080044 + 0x40 * i
abbrev VIS_CSI_FBLO (i : Nat) : Nat := 0x01080048 + 0x40 * i
abbrev VIS_CSI_FBHI (i : Nat) : Nat := 0x0108004C + 0x40 * i
abbrev VIS_CSI_STAT (i : Nat) : Nat := 0x01080050 + 0x40 * i
abbrev VIS_CSI_FRAMES (i : Nat) : Nat := 0x01080054 + 0x40 * i
abbrev VIS_CSI_DROPS (i : Nat) : Nat := 0x01080058 + 0x40 * i
abbrev VIS_G_STAT (i : Nat) : Nat := 0x01080100 + 0x20 * i
abbrev VIS_G_SEQ (i : Nat) : Nat := 0x01080104 + 0x20 * i
abbrev VIS_G_SKIPS (i : Nat) : Nat := 0x01080108 + 0x20 * i
abbrev VIS_G_QCYC (i : Nat) : Nat := 0x0108010C + 0x20 * i
abbrev VIS_HOFFLO : Nat := 0x01080200
abbrev VIS_HOFFHI : Nat := 0x01080204
abbrev VIS_HOFFCFG : Nat := 0x01080208
abbrev VIS_HOFFWR : Nat := 0x0108020C
abbrev VIS_HOFFRD : Nat := 0x01080210
abbrev VIS_HOFFSKIP : Nat := 0x01080214

/-- Registers of the VIS block, 11_vision.md. -/
def regsVis : List RegRow := [
  ⟨0x01080000, 1, 0x1, 1, 0x1, 0xACDA, 0x0, 0x0, 0x0, 0x0⟩,
  ⟨0x01080040, 2, 0x40, 1, 0x1, 0x32A04, 0x0, 0x0, 0x0, 0xF3F1F⟩,
  ⟨0x01080044, 2, 0x40, 1, 0x1, 0x4000500, 0x0, 0x0, 0x0, 0x1FFF1FFF⟩,
  ⟨0x01080048, 2, 0x40, 1, 0x1, 0x0, 0x0, 0x0, 0x0, 0xFFFFFFC0⟩,
  ⟨0x0108004C, 2, 0x40, 1, 0x1, 0x0, 0x0, 0x0, 0x0, 0x1⟩,
  ⟨0x01080050, 2, 0x40, 1, 0x1, 0x0, 0x0, 0x3E, 0x0, 0x0⟩,
  ⟨0x01080054, 2, 0x40, 1, 0x1, 0x0, 0x0, 0x0, 0x0, 0x0⟩,
  ⟨0x01080058, 2, 0x40, 1, 0x1, 0x0, 0x0, 0x0, 0x0, 0x0⟩,
  ⟨0x01080100, 4, 0x20, 1, 0x1, 0x0, 0x0, 0x1E0, 0x0, 0x0⟩,
  ⟨0x01080104, 4, 0x20, 1, 0x1, 0x0, 0x0, 0x0, 0x0, 0x0⟩,
  ⟨0x01080108, 4, 0x20, 1, 0x1, 0x0, 0x0, 0x0, 0x0, 0x0⟩,
  ⟨0x0108010C, 4, 0x20, 1, 0x1, 0x0, 0x0, 0x0, 0x0, 0x0⟩,
  ⟨0x01080200, 1, 0x1, 1, 0x1, 0x0, 0x0, 0x0, 0x0, 0xFFFFFFC0⟩,
  ⟨0x01080204, 1, 0x1, 1, 0x1, 0x0, 0x0, 0x0, 0x0, 0x1⟩,
  ⟨0x01080208, 1, 0x1, 1, 0x1, 0x4000004, 0x0, 0x0, 0x0, 0xFFFF01FF⟩,
  ⟨0x0108020C, 1, 0x1, 1, 0x1, 0x0, 0x0, 0x0, 0x0, 0x0⟩,
  ⟨0x01080210, 1, 0x1, 1, 0x1, 0x0, 0xFF, 0x0, 0x0, 0x0⟩,
  ⟨0x01080214, 1, 0x1, 1, 0x1, 0x0, 0x0, 0x0, 0x0, 0x0⟩]

-- TRE (12_trees.md)
abbrev TRE_LOADCMD : Nat := 0x01090000
abbrev TRE_LDADDR : Nat := 0x01090004
abbrev TRE_LDLEN : Nat := 0x01090008
abbrev TRE_LDBASE : Nat := 0x0109000C
abbrev TRE_LDSTAT : Nat := 0x01090010
abbrev TRE_STAT : Nat := 0x01090014
abbrev TRE_LOADED : Nat := 0x01090018
abbrev TRE_S_BASE (i : Nat) : Nat := 0x01090100 + 0x10 * i
abbrev TRE_S_SIZE (i : Nat) : Nat := 0x01090104 + 0x10 * i
abbrev TRE_S_COST (i : Nat) : Nat := 0x01090108 + 0x10 * i
abbrev TRE_S_ID (i : Nat) : Nat := 0x0109010C + 0x10 * i
abbrev TRE_DECL (i : Nat) : Nat := 0x01090300 + 0x4 * i

/-- Registers of the TRE block, 12_trees.md. -/
def regsTre : List RegRow := [
  ⟨0x01090000, 1, 0x1, 1, 0x1, 0x0, 0x0, 0x0, 0x1F3, 0x0⟩,
  ⟨0x01090004, 1, 0x1, 1, 0x1, 0x0, 0x0, 0x0, 0xFFFFFFF8, 0x0⟩,
  ⟨0x01090008, 1, 0x1, 1, 0x1, 0x0, 0x0, 0x0, 0xFFFFFFFF, 0x0⟩,
  ⟨0x0109000C, 1, 0x1, 1, 0x1, 0x0, 0x0, 0x0, 0x3FFFF, 0x0⟩,
  ⟨0x01090010, 1, 0x1, 1, 0x1, 0x0, 0x0, 0x80000000, 0x0, 0x0⟩,
  ⟨0x01090014, 1, 0x1, 1, 0x1, 0x0, 0x0, 0xF, 0x0, 0x0⟩,
  ⟨0x01090018, 1, 0x1, 1, 0x1, 0x0, 0x0, 0x0, 0x0, 0x0⟩,
  ⟨0x01090100, 32, 0x10, 1, 0x1, 0x0, 0x0, 0x0, 0x0, 0x0⟩,
  ⟨0x01090104, 32, 0x10, 1, 0x1, 0x0, 0x0, 0x0, 0x0, 0x0⟩,
  ⟨0x01090108, 32, 0x10, 1, 0x1, 0x0, 0x0, 0x0, 0x0, 0x0⟩,
  ⟨0x0109010C, 32, 0x10, 1, 0x1, 0x0, 0x0, 0x0, 0x0, 0x0⟩,
  ⟨0x01090300, 32, 0x4, 1, 0x1, 0x0, 0x0, 0x0, 0x0, 0x0⟩]

-- FLD (13_field.md)
abbrev FLD_CFG : Nat := 0x010A0000
abbrev FLD_CFGCMD : Nat := 0x010A0004
abbrev FLD_STAT : Nat := 0x010A0008
abbrev FLD_FRERR : Nat := 0x010A000C
abbrev FLD_ENV : Nat := 0x010A0010
abbrev FLD_DIN : Nat := 0x010A0014
abbrev FLD_DFLT : Nat := 0x010A0018
abbrev FLD_DOUT : Nat := 0x010A0020
abbrev FLD_DFCLR : Nat := 0x010A0024
abbrev FLD_RESUME : Nat := 0x010A0028
abbrev FLD_DIO_CFG (i : Nat) : Nat := 0x010A0040 + 0x4 * i
abbrev FLD_AO (i : Nat) : Nat := 0x010A0080 + 0x10 * i
abbrev FLD_AO_CFG (i : Nat) : Nat := 0x010A0084 + 0x10 * i
abbrev FLD_AO_TRIM (i : Nat) : Nat := 0x010A0088 + 0x10 * i
abbrev FLD_AO_STAT (i : Nat) : Nat := 0x010A008C + 0x10 * i
abbrev FLD_AI_CFG (i : Nat) : Nat := 0x010A00C0 + 0x8 * i
abbrev FLD_AI (i : Nat) : Nat := 0x010A00C4 + 0x8 * i

/-- Registers of the FLD block, 13_field.md. -/
def regsFld : List RegRow := [
  ⟨0x010A0000, 1, 0x1, 1, 0x1, 0xA, 0x0, 0x0, 0x0, 0xFF⟩,
  ⟨0x010A0004, 1, 0x1, 1, 0x1, 0x0, 0x0, 0x0, 0x0, 0x0⟩,
  ⟨0x010A0008, 1, 0x1, 1, 0x1, 0x0, 0x0, 0xF0, 0x0, 0x0⟩,
  ⟨0x010A000C, 1, 0x1, 1, 0x1, 0x0, 0x0, 0x0, 0x0, 0x0⟩,
  ⟨0x010A0010, 1, 0x1, 1, 0x1, 0x0, 0x0, 0x0, 0x0, 0x0⟩,
  ⟨0x010A0014, 1, 0x1, 1, 0x1, 0x0, 0x0, 0x0, 0x0, 0x0⟩,
  ⟨0x010A0018, 1, 0x1, 1, 0x1, 0x0, 0x0, 0xFFFF, 0x0, 0x0⟩,
  ⟨0x010A0020, 1, 0x1, 1, 0x1, 0x0, 0x0, 0x0, 0xFFFF, 0x0⟩,
  ⟨0x010A0024, 1, 0x1, 1, 0x1, 0x0, 0x0, 0x0, 0xFFFF, 0x0⟩,
  ⟨0x010A0028, 1, 0x1, 1, 0x1, 0x0, 0x0, 0x0, 0x1, 0x0⟩,
  ⟨0x010A0040, 16, 0x4, 1, 0x1, 0x350, 0x0, 0x0, 0x0, 0x3FFF7⟩,
  ⟨0x010A0080, 4, 0x10, 1, 0x1, 0x30000, 0x0, 0x0, 0x4003FFFF, 0x0⟩,
  ⟨0x010A0084, 4, 0x10, 1, 0x1, 0x10000, 0x0, 0x0, 0x0, 0x1FFFF⟩,
  ⟨0x010A0088, 4, 0x10, 1, 0x1, 0x0, 0x0, 0x0, 0x0, 0xFFFFFFFF⟩,
  ⟨0x010A008C, 4, 0x10, 1, 0x1, 0x0, 0x0, 0x3, 0x0, 0x0⟩,
  ⟨0x010A00C0, 4, 0x8, 1, 0x1, 0x0, 0x0, 0x0, 0x0, 0x3⟩,
  ⟨0x010A00C4, 4, 0x8, 1, 0x1, 0x0, 0x0, 0x0, 0x0, 0x0⟩]

-- TDL (14_tendril.md)
abbrev TDL_STAT : Nat := 0x010B0000
abbrev TDL_SETPT : Nat := 0x010B0004
abbrev TDL_HTX : Nat := 0x010B0008
abbrev TDL_VIN : Nat := 0x010B000C
abbrev TDL_CIN : Nat := 0x010B0010
abbrev TDL_SEQ : Nat := 0x010B0014
abbrev TDL_LOOP : Nat := 0x010B0018
abbrev TDL_ENV : Nat := 0x010B001C
abbrev TDL_HRXADDR : Nat := 0x010B0020
abbrev TDL_HTXADDR : Nat := 0x010B0024
abbrev TDL_FRERR : Nat := 0x010B0028
abbrev TDL_RESTARTS : Nat := 0x010B002C
abbrev TDL_HCNT : Nat := 0x010B0030
abbrev TDL_NVCMD : Nat := 0x010B0040
abbrev TDL_NVSTAT : Nat := 0x010B0044
abbrev TDL_NVTCRC : Nat := 0x010B0048
abbrev TDL_SCFG : Nat := 0x010B0800
abbrev TDL_EXC : Nat := 0x010B0804
abbrev TDL_SIL : Nat := 0x010B0808
abbrev TDL_TRIM : Nat := 0x010B080C
abbrev TDL_HCFG : Nat := 0x010B0810
abbrev TDL_HUID0 : Nat := 0x010B0814
abbrev TDL_HUID1 : Nat := 0x010B0818
abbrev TDL_NPTS : Nat := 0x010B081C
abbrev TDL_NVCRC : Nat := 0x010B083C
abbrev TDL_PT1_IN : Nat := 0x010B0848
abbrev TDL_PT01_OUT (i : Nat) : Nat := 0x010B0844 + 0x8 * i
abbrev TDL_PT_IN (i : Nat) : Nat := 0x010B0840 + 0x8 * i
abbrev TDL_PT_OUT (i : Nat) : Nat := 0x010B0844 + 0x8 * i

/-- Registers of the TDL block, 14_tendril.md. -/
def regsTdl0 : List RegRow := [
  ⟨0x010B0000, 1, 0x1, 1, 0x1, 0x0, 0x0, 0x3F0000, 0x0, 0x0⟩,
  ⟨0x010B0004, 1, 0x1, 1, 0x1, 0x0, 0x0, 0x0, 0xFFFF, 0x0⟩,
  ⟨0x010B0008, 1, 0x1, 1, 0x1, 0x0, 0x0, 0x0, 0x1, 0x0⟩,
  ⟨0x010B000C, 1, 0x1, 1, 0x1, 0x0, 0x0, 0x0, 0x0, 0x0⟩,
  ⟨0x010B0010, 1, 0x1, 1, 0x1, 0x0, 0x0, 0x0, 0x0, 0x0⟩,
  ⟨0x010B0014, 1, 0x1, 1, 0x1, 0x0, 0x0, 0x0, 0x0, 0x0⟩,
  ⟨0x010B0018, 1, 0x1, 1, 0x1, 0x0, 0x0, 0x0, 0x0, 0x0⟩,
  ⟨0x010B001C, 1, 0x1, 1, 0x1, 0x0, 0x0, 0x0, 0x0, 0x0⟩,
  ⟨0x010B0020, 1, 0x1, 1, 0x1, 0x0, 0x0, 0x0, 0x0, 0x3FFFC0⟩,
  ⟨0x010B0024, 1, 0x1, 1, 0x1, 0x0, 0x0, 0x0, 0x0, 0x3FFFC0⟩,
  ⟨0x010B0028, 1, 0x1, 1, 0x1, 0x0, 0x0, 0x0, 0x0, 0x0⟩,
  ⟨0x010B002C, 1, 0x1, 1, 0x1, 0x0, 0x0, 0x0, 0x0, 0x0⟩,
  ⟨0x010B0030, 1, 0x1, 1, 0x1, 0x0, 0x0, 0x0, 0x0, 0x0⟩,
  ⟨0x010B0040, 1, 0x1, 1, 0x1, 0x0, 0x0, 0x0, 0x0, 0x0⟩,
  ⟨0x010B0044, 1, 0x1, 1, 0x1, 0x0, 0x0, 0x80000000, 0x0, 0x0⟩,
  ⟨0x010B0048, 1, 0x1, 1, 0x1, 0x0, 0x0, 0x0, 0x0, 0x0⟩,
  ⟨0x010B0800, 1, 0x1, 1, 0x1, 0x0, 0x11DF, 0x0, 0x0, 0x0⟩,
  ⟨0x010B0804, 1, 0x1, 1, 0x1, 0x0, 0x1FF, 0x0, 0x0, 0x0⟩,
  ⟨0x010B0808, 1, 0x1, 1, 0x1, 0x10A, 0x13FF, 0x0, 0x0, 0x0⟩,
  ⟨0x010B080C, 1, 0x1, 1, 0x1, 0x0, 0xFFFFFFFF, 0x0, 0x0, 0x0⟩]
/-- Registers of the TDL block, 14_tendril.md. -/
def regsTdl1 : List RegRow := [
  ⟨0x010B0810, 1, 0x1, 1, 0x1, 0xC80500, 0xFF1F3F, 0x0, 0x0, 0x0⟩,
  ⟨0x010B0814, 1, 0x1, 1, 0x1, 0x0, 0xFFFFFF3F, 0x0, 0x0, 0x0⟩,
  ⟨0x010B0818, 1, 0x1, 1, 0x1, 0x0, 0xFF, 0x0, 0x0, 0x0⟩,
  ⟨0x010B081C, 1, 0x1, 1, 0x1, 0x2, 0xFF, 0x0, 0x0, 0x0⟩,
  ⟨0x010B083C, 1, 0x1, 1, 0x1, 0x0, 0x0, 0x0, 0x0, 0x0⟩,
  ⟨0x010B0848, 1, 0x1, 1, 0x1, 0x1, 0xFFFFFFFF, 0x0, 0x0, 0x0⟩,
  ⟨0x010B0844, 2, 0x8, 1, 0x1, 0x1F40, 0xFFFF, 0x0, 0x0, 0x0⟩,
  ⟨0x010B0840, 248, 0x8, 1, 0x1, 0x0, 0xFFFFFFFF, 0x0, 0x0, 0x0⟩,
  ⟨0x010B0844, 248, 0x8, 1, 0x1, 0x0, 0xFFFF, 0x0, 0x0, 0x0⟩]
/-- Registers of the TDL block, 14_tendril.md. -/
def regsTdl : List RegRow := regsTdl0 ++ regsTdl1

-- HRN (15_harness.md)
abbrev HRN_STAT : Nat := 0x010C0000
abbrev HRN_FUNC : Nat := 0x010C0004
abbrev HRN_INA : Nat := 0x010C0008
abbrev HRN_INB : Nat := 0x010C000C
abbrev HRN_OUT : Nat := 0x010C0010
abbrev HRN_STICKY : Nat := 0x010C0014
abbrev HRN_STICKY2 : Nat := 0x010C0018
abbrev HRN_ACRC : Nat := 0x010C001C
abbrev HRN_SEQ : Nat := 0x010C0020
abbrev HRN_BRK : Nat := 0x010C0024
abbrev HRN_PCRC : Nat := 0x010C0028
abbrev HRN_FRERR : Nat := 0x010C002C
abbrev HRN_RSTCNT : Nat := 0x010C0030
abbrev HRN_BSTICKY : Nat := 0x010C0034
abbrev HRN_BT_STAT (i : Nat) : Nat := 0x010C0040 + 0x10 * i
abbrev HRN_BT_MOVE (i : Nat) : Nat := 0x010C0044 + 0x10 * i
abbrev HRN_BT_AGE (i : Nat) : Nat := 0x010C0048 + 0x10 * i
abbrev HRN_BT_COIL (i : Nat) : Nat := 0x010C004C + 0x10 * i
abbrev HRN_SEALCMD : Nat := 0x010C0100
abbrev HRN_SEALSTAT : Nat := 0x010C0104
abbrev HRN_PROP (i : Nat) : Nat := 0x010C0400 + 0x4 * i
abbrev HRN_ACFG (i : Nat) : Nat := 0x010C0800 + 0x4 * i
abbrev HRN_PCFG (i : Nat) : Nat := 0x010C0C00 + 0x4 * i

/-- Registers of the HRN block, 15_harness.md. -/
def regsHrn0 : List RegRow := [
  ⟨0x010C0000, 1, 0x1, 1, 0x1, 0x0, 0x0, 0x0, 0x0, 0x0⟩,
  ⟨0x010C0004, 1, 0x1, 1, 0x1, 0x0, 0x0, 0x0, 0x0, 0x0⟩,
  ⟨0x010C0008, 1, 0x1, 1, 0x1, 0x0, 0x0, 0x0, 0x0, 0x0⟩,
  ⟨0x010C000C, 1, 0x1, 1, 0x1, 0x0, 0x0, 0x0, 0x0, 0x0⟩,
  ⟨0x010C0010, 1, 0x1, 1, 0x1, 0x0, 0x0, 0x0, 0x0, 0x0⟩,
  ⟨0x010C0014, 1, 0x1, 1, 0x1, 0x0, 0x0, 0x0, 0x0, 0x0⟩,
  ⟨0x010C0018, 1, 0x1, 1, 0x1, 0x0, 0x0, 0x0, 0x0, 0x0⟩,
  ⟨0x010C001C, 1, 0x1, 1, 0x1, 0x0, 0x0, 0x0, 0x0, 0x0⟩,
  ⟨0x010C0020, 1, 0x1, 1, 0x1, 0x0, 0x0, 0x0, 0x0, 0x0⟩,
  ⟨0x010C0024, 1, 0x1, 1, 0x1, 0x0, 0x0, 0x0, 0x0, 0x0⟩,
  ⟨0x010C0028, 1, 0x1, 1, 0x1, 0x0, 0x0, 0x0, 0x0, 0x0⟩,
  ⟨0x010C002C, 1, 0x1, 1, 0x1, 0x0, 0x0, 0x0, 0x0, 0x0⟩,
  ⟨0x010C0030, 1, 0x1, 1, 0x1, 0x0, 0x0, 0x0, 0x0, 0x0⟩,
  ⟨0x010C0034, 1, 0x1, 1, 0x1, 0x0, 0x0, 0x0, 0x0, 0x0⟩,
  ⟨0x010C0040, 2, 0x10, 1, 0x1, 0x0, 0x0, 0x0, 0x0, 0x0⟩,
  ⟨0x010C0044, 2, 0x10, 1, 0x1, 0x0, 0x0, 0x0, 0x0, 0x0⟩,
  ⟨0x010C0048, 2, 0x10, 1, 0x1, 0x0, 0x0, 0x0, 0x0, 0x0⟩,
  ⟨0x010C004C, 2, 0x10, 1, 0x1, 0x0, 0x0, 0x0, 0x0, 0x0⟩,
  ⟨0x010C0100, 1, 0x1, 1, 0x1, 0x0, 0x0, 0x0, 0x0, 0x0⟩,
  ⟨0x010C0104, 1, 0x1, 1, 0x1, 0x0, 0x0, 0x0, 0x0, 0x0⟩]
/-- Registers of the HRN block, 15_harness.md. -/
def regsHrn1 : List RegRow := [
  ⟨0x010C0400, 64, 0x4, 1, 0x1, 0x0, 0x0, 0x0, 0x0, 0xFFFFFFFF⟩,
  ⟨0x010C0800, 64, 0x4, 1, 0x1, 0x0, 0x0, 0x0, 0x0, 0x0⟩,
  ⟨0x010C0C00, 64, 0x4, 1, 0x1, 0x0, 0x0, 0x0, 0x0, 0x0⟩]
/-- Registers of the HRN block, 15_harness.md. -/
def regsHrn : List RegRow := regsHrn0 ++ regsHrn1

-- CEL (17_cellar.md)
abbrev CEL_STAT : Nat := 0x010D0000
abbrev CEL_CMD : Nat := 0x010D0004
abbrev CEL_LOGHEAD : Nat := 0x010D0008
abbrev CEL_LOGSEQ : Nat := 0x010D000C
abbrev CEL_DROPPED : Nat := 0x010D0010
abbrev CEL_SPILLCNT : Nat := 0x010D0014
abbrev CEL_REPLAY : Nat := 0x010D0018
abbrev CEL_CASKS : Nat := 0x010D001C
abbrev CEL_UEADDR : Nat := 0x010D0020
abbrev CEL_WEADDR : Nat := 0x010D0024
abbrev CEL_CKSTAT (i : Nat) : Nat := 0x010D0030 + 0x4 * i

/-- Registers of the CEL block, 17_cellar.md. -/
def regsCel : List RegRow := [
  ⟨0x010D0000, 1, 0x1, 1, 0x1, 0x100, 0x0, 0x7F, 0x0, 0x0⟩,
  ⟨0x010D0004, 1, 0x1, 1, 0x1, 0x0, 0x0, 0x0, 0x0, 0x0⟩,
  ⟨0x010D0008, 1, 0x1, 1, 0x1, 0x0, 0x0, 0x0, 0x0, 0x0⟩,
  ⟨0x010D000C, 1, 0x1, 1, 0x1, 0x0, 0x0, 0x0, 0x0, 0x0⟩,
  ⟨0x010D0010, 1, 0x1, 1, 0x1, 0x0, 0x0, 0x0, 0x0, 0x0⟩,
  ⟨0x010D0014, 1, 0x1, 1, 0x1, 0x0, 0x0, 0x0, 0x0, 0x0⟩,
  ⟨0x010D0018, 1, 0x1, 1, 0x1, 0x0, 0x0, 0x0, 0x0, 0x0⟩,
  ⟨0x010D001C, 1, 0x1, 1, 0x1, 0x0, 0x0, 0x0, 0x0, 0x0⟩,
  ⟨0x010D0020, 1, 0x1, 1, 0x1, 0x0, 0x0, 0x0, 0x0, 0x0⟩,
  ⟨0x010D0024, 1, 0x1, 1, 0x1, 0x0, 0x0, 0x0, 0x0, 0x0⟩,
  ⟨0x010D0030, 6, 0x4, 1, 0x1, 0x0, 0x0, 0x0, 0x0, 0x0⟩]

-- FLT (18_trouble.md)
abbrev FLT_STAT : Nat := 0x010E0000
abbrev FLT_CFG : Nat := 0x010E0004
abbrev FLT_CMD : Nat := 0x010E0008
abbrev FLT_DEPTH : Nat := 0x010E000C
abbrev FLT_OVF : Nat := 0x010E0010
abbrev FLT_NOTES : Nat := 0x010E0014
abbrev FLT_PULSECNT : Nat := 0x010E0018
abbrev FLT_LOGLOST : Nat := 0x010E001C
abbrev FLT_REC (i j : Nat) : Nat := 0x010E0020 + 0x20 * i + 0x4 * j

/-- Registers of the FLT block, 18_trouble.md. -/
def regsFlt : List RegRow := [
  ⟨0x010E0000, 1, 0x1, 1, 0x1, 0x0, 0x0, 0x13E, 0x0, 0x0⟩,
  ⟨0x010E0004, 1, 0x1, 1, 0x1, 0xA, 0x1FF, 0x0, 0x0, 0x0⟩,
  ⟨0x010E0008, 1, 0x1, 1, 0x1, 0x0, 0x0, 0x0, 0x8000FFFF, 0x0⟩,
  ⟨0x010E000C, 1, 0x1, 1, 0x1, 0x0, 0x0, 0x0, 0x0, 0x0⟩,
  ⟨0x010E0010, 1, 0x1, 1, 0x1, 0x0, 0x0, 0x0, 0x0, 0x0⟩,
  ⟨0x010E0014, 1, 0x1, 1, 0x1, 0x0, 0x0, 0x0, 0x0, 0x0⟩,
  ⟨0x010E0018, 1, 0x1, 1, 0x1, 0x0, 0x0, 0x0, 0x0, 0x0⟩,
  ⟨0x010E001C, 1, 0x1, 1, 0x1, 0x0, 0x0, 0x0, 0x0, 0x0⟩,
  ⟨0x010E0020, 2, 0x20, 6, 0x4, 0x0, 0x0, 0x0, 0x0, 0x0⟩]

-- EVT (19_events.md)
abbrev EVT_STICKY4 : Nat := 0x010F0010
abbrev EVT_STICKY (i : Nat) : Nat := 0x010F0000 + 0x4 * i
abbrev EVT_SUMMARY : Nat := 0x010F0020
abbrev EVT_OVF (i : Nat) : Nat := 0x010F0024 + 0x4 * i
abbrev EVT_LANDADDR : Nat := 0x010F002C
abbrev EVT_LANDCFG : Nat := 0x010F0030
abbrev EVT_SWSET : Nat := 0x010F0034
abbrev EVT_TRIG_CFG (i : Nat) : Nat := 0x010F0040 + 0x10 * i
abbrev EVT_TRIG_TICK (i : Nat) : Nat := 0x010F0044 + 0x10 * i
abbrev EVT_TRIG_TSLO (i : Nat) : Nat := 0x010F0048 + 0x10 * i
abbrev EVT_TRIG_TSHI (i : Nat) : Nat := 0x010F004C + 0x10 * i
abbrev EVT_TRIGSTAT : Nat := 0x010F0080
abbrev EVT_ROUTE216 : Nat := 0x010F0760
abbrev EVT_ROUTE128 : Nat := 0x010F0600
abbrev EVT_ROUTE140 : Nat := 0x010F0630
abbrev EVT_ROUTE208 : Nat := 0x010F0740
abbrev EVT_ROUTE (i : Nat) : Nat := 0x010F0400 + 0x4 * i

/-- Registers of the EVT block, 19_events.md. -/
def regsEvt : List RegRow := [
  ⟨0x010F0010, 1, 0x1, 1, 0x1, 0x0, 0x0, 0xFFFF0000, 0x0, 0x0⟩,
  ⟨0x010F0000, 8, 0x4, 1, 0x1, 0x0, 0x0, 0xFFFFFFFF, 0x0, 0x0⟩,
  ⟨0x010F0020, 1, 0x1, 1, 0x1, 0x0, 0x0, 0x0, 0x0, 0x0⟩,
  ⟨0x010F0024, 2, 0x4, 1, 0x1, 0x0, 0x0, 0xFFFFFFF0, 0x0, 0x0⟩,
  ⟨0x010F002C, 1, 0x1, 1, 0x1, 0x0, 0x0, 0x0, 0x0, 0x3FFFC0⟩,
  ⟨0x010F0030, 1, 0x1, 1, 0x1, 0x0, 0x0, 0x0, 0x0, 0x1⟩,
  ⟨0x010F0034, 1, 0x1, 1, 0x1, 0x0, 0x0, 0x0, 0xFF, 0x0⟩,
  ⟨0x010F0040, 4, 0x10, 1, 0x1, 0x0, 0x1FF, 0x0, 0x0, 0x0⟩,
  ⟨0x010F0044, 4, 0x10, 1, 0x1, 0x0, 0x0, 0x0, 0x0, 0x0⟩,
  ⟨0x010F0048, 4, 0x10, 1, 0x1, 0x0, 0x0, 0x0, 0x0, 0x0⟩,
  ⟨0x010F004C, 4, 0x10, 1, 0x1, 0x0, 0x0, 0x0, 0x0, 0x0⟩,
  ⟨0x010F0080, 1, 0x1, 1, 0x1, 0x0, 0x0, 0xF, 0x0, 0x0⟩,
  ⟨0x010F0760, 1, 0x1, 1, 0x1, 0x1000404, 0x1001F1F, 0x0, 0x0, 0x0⟩,
  ⟨0x010F0600, 1, 0x1, 1, 0x1, 0x1000505, 0x1001F1F, 0x0, 0x0, 0x0⟩,
  ⟨0x010F0630, 1, 0x1, 1, 0x1, 0x1000505, 0x1001F1F, 0x0, 0x0, 0x0⟩,
  ⟨0x010F0740, 1, 0x1, 1, 0x1, 0x1000606, 0x1001F1F, 0x0, 0x0, 0x0⟩,
  ⟨0x010F0400, 256, 0x4, 1, 0x1, 0x1000000, 0x1001F1F, 0x0, 0x0, 0x0⟩]

-- TRM (20_trim.md)
abbrev TRM_CMD : Nat := 0x01100000
abbrev TRM_STAT : Nat := 0x01100004
abbrev TRM_SRC : Nat := 0x01100008
abbrev TRM_COUNT : Nat := 0x0110000C
abbrev TRM_PWMSEL : Nat := 0x01100100
abbrev TRM_SDSEL (i : Nat) : Nat := 0x01100104 + 0x4 * i
abbrev TRM_SCSEL (i : Nat) : Nat := 0x01100110 + 0x4 * i
abbrev TRM_CELSEL : Nat := 0x01100130
abbrev TRM_AOSEG (i : Nat) : Nat := 0x01100140 + 0x4 * i
abbrev TRM_FOSC : Nat := 0x01100150
abbrev TRM_TOSC : Nat := 0x01100154
abbrev TRM_TREF : Nat := 0x01100158

/-- Registers of the TRM block, 20_trim.md. -/
def regsTrm : List RegRow := [
  ⟨0x01100000, 1, 0x1, 1, 0x1, 0x0, 0x0, 0x0, 0x7070F, 0x0⟩,
  ⟨0x01100004, 1, 0x1, 1, 0x1, 0x0, 0x0, 0x3000000, 0x0, 0x0⟩,
  ⟨0x01100008, 1, 0x1, 1, 0x1, 0x0, 0x0, 0x0, 0x0, 0x0⟩,
  ⟨0x0110000C, 1, 0x1, 1, 0x1, 0x0, 0x0, 0x0, 0x0, 0x0⟩,
  ⟨0x01100100, 1, 0x1, 1, 0x1, 0x0, 0x0, 0x0, 0x0, 0xFFFFF⟩,
  ⟨0x01100104, 3, 0x4, 1, 0x1, 0x0, 0x0, 0x0, 0x0, 0xFFFFFF⟩,
  ⟨0x01100110, 8, 0x4, 1, 0x1, 0x0, 0x0, 0x0, 0x0, 0x3⟩,
  ⟨0x01100130, 1, 0x1, 1, 0x1, 0x0, 0x0, 0x0, 0x0, 0x3⟩,
  ⟨0x01100140, 4, 0x4, 1, 0x1, 0x0, 0x0, 0x0, 0x0, 0x0⟩,
  ⟨0x01100150, 1, 0x1, 1, 0x1, 0x0, 0x0, 0x0, 0x0, 0x0⟩,
  ⟨0x01100154, 1, 0x1, 1, 0x1, 0x0, 0x0, 0x0, 0x0, 0x0⟩,
  ⟨0x01100158, 1, 0x1, 1, 0x1, 0x0, 0x0, 0x0, 0x0, 0x0⟩]

-- IDN (21_identity_monitor.md)
abbrev IDN_CMD : Nat := 0x01110000
abbrev IDN_CFG (i : Nat) : Nat := 0x01110010 + 0x100 * i
abbrev IDN_DEST (i : Nat) : Nat := 0x01110014 + 0x100 * i
abbrev IDN_EXPKIND (i : Nat) : Nat := 0x01110018 + 0x100 * i
abbrev IDN_EXPMAKER (i : Nat) : Nat := 0x0111001C + 0x100 * i
abbrev IDN_EXPPART (i : Nat) : Nat := 0x01110020 + 0x100 * i
abbrev IDN_STAT (i : Nat) : Nat := 0x01110024 + 0x100 * i
abbrev IDN_REC (i j : Nat) : Nat := 0x01110080 + 0x100 * i + 0x4 * j

/-- Registers of the IDN block, 21_identity_monitor.md. -/
def regsIdn : List RegRow := [
  ⟨0x01110000, 1, 0x1, 1, 0x1, 0x0, 0x0, 0x0, 0xF, 0x0⟩,
  ⟨0x01110010, 4, 0x100, 1, 0x1, 0x1050, 0x0, 0x0, 0x0, 0x177F⟩,
  ⟨0x01110014, 4, 0x100, 1, 0x1, 0x0, 0x0, 0x0, 0x0, 0x3FFFC0⟩,
  ⟨0x01110018, 4, 0x100, 1, 0x1, 0x0, 0x0, 0x0, 0x0, 0xFF⟩,
  ⟨0x0111001C, 4, 0x100, 1, 0x1, 0x0, 0x0, 0x0, 0x0, 0xFFFFFFFF⟩,
  ⟨0x01110020, 4, 0x100, 1, 0x1, 0x0, 0x0, 0x0, 0x0, 0xFFFFFFFF⟩,
  ⟨0x01110024, 4, 0x100, 1, 0x1, 0x0, 0x0, 0x10000, 0x0, 0x0⟩,
  ⟨0x01110080, 4, 0x100, 32, 0x4, 0x0, 0x0, 0x0, 0x0, 0x0⟩]

-- MON (21_identity_monitor.md)
abbrev MON_CFG : Nat := 0x01120000
abbrev MON_CODE : Nat := 0x01120004
abbrev MON_STAT : Nat := 0x01120008
abbrev MON_BAUD : Nat := 0x0112000C
abbrev MON_TRIGSTOP : Nat := 0x01120010
abbrev MON_TRCFG : Nat := 0x01120014
abbrev MON_TRHEAD : Nat := 0x01120018
abbrev MON_STEPS : Nat := 0x0112001C
abbrev MON_TRBUF (i : Nat) : Nat := 0x01121000 + 0x4 * i

/-- Registers of the MON block, 21_identity_monitor.md. -/
def regsMon : List RegRow := [
  ⟨0x01120000, 1, 0x1, 1, 0x1, 0x3C01, 0xFF03, 0x0, 0x0, 0x0⟩,
  ⟨0x01120004, 1, 0x1, 1, 0x1, 0x0, 0x0, 0x0, 0x0, 0x0⟩,
  ⟨0x01120008, 1, 0x1, 1, 0x1, 0x0, 0x0, 0x0, 0x0, 0x0⟩,
  ⟨0x0112000C, 1, 0x1, 1, 0x1, 0x1A1, 0xFFFF, 0x0, 0x0, 0x0⟩,
  ⟨0x01120010, 1, 0x1, 1, 0x1, 0x0, 0xF, 0x0, 0x0, 0x0⟩,
  ⟨0x01120014, 1, 0x1, 1, 0x1, 0x0, 0xFF0F01, 0x0, 0x0, 0x0⟩,
  ⟨0x01120018, 1, 0x1, 1, 0x1, 0x0, 0x0, 0x0, 0x0, 0x0⟩,
  ⟨0x0112001C, 1, 0x1, 1, 0x1, 0x0, 0x0, 0x0, 0x0, 0x0⟩,
  ⟨0x01121000, 2048, 0x4, 1, 0x1, 0x0, 0x0, 0x0, 0x0, 0x0⟩]

-- DRM (23_electrical.md)
abbrev DRM_CFG : Nat := 0x01130000
abbrev DRM_STAT : Nat := 0x01130004
abbrev DRM_CECNT : Nat := 0x01130008
abbrev DRM_UECNT : Nat := 0x0113000C
abbrev DRM_UEADDR : Nat := 0x01130010

/-- Registers of the DRM block, 23_electrical.md. -/
def regsDrm : List RegRow := [
  ⟨0x01130000, 1, 0x1, 1, 0x1, 0x4, 0x0, 0x0, 0x0, 0x7⟩,
  ⟨0x01130004, 1, 0x1, 1, 0x1, 0x0, 0x0, 0x30, 0x0, 0x0⟩,
  ⟨0x01130008, 1, 0x1, 1, 0x1, 0x0, 0x0, 0x0, 0x0, 0x0⟩,
  ⟨0x0113000C, 1, 0x1, 1, 0x1, 0x0, 0x0, 0x0, 0x0, 0x0⟩,
  ⟨0x01130010, 1, 0x1, 1, 0x1, 0x0, 0x0, 0x0, 0x0, 0x0⟩]

/-- The registers of a block, by its number (the address divided by 2^16). -/
def blockRows : Nat -> List RegRow
  | 0x100 => regsSys
  | 0x101 => regsTck
  | 0x102 => regsHst
  | 0x103 => regsLim
  | 0x104 => regsAx
  | 0x105 => regsCtl
  | 0x106 => regsFb
  | 0x107 => regsPrt
  | 0x108 => regsVis
  | 0x109 => regsTre
  | 0x10A => regsFld
  | 0x10B => regsTdl
  | 0x10C => regsHrn
  | 0x10D => regsCel
  | 0x10E => regsFlt
  | 0x10F => regsEvt
  | 0x110 => regsTrm
  | 0x111 => regsIdn
  | 0x112 => regsMon
  | 0x113 => regsDrm
  | _ => []

/-- The register at a device address, if there is one. -/
def row? (a : Nat) : Option RegRow := (blockRows (a / 0x10000)).find? (fun r => r.holds a)

/-- What a register that no entry of the store lists reads as: its reset value. -/
def regReset (a : Nat) : Word :=
  match row? a with
  | some r => r.reset
  | none => 0

end Sys2Proof.Machine
end

