-- ==== Sys2Proof/Machine/Store.lean ====
section
/-! DEFINITION. Sparse stores in one canonical form: a list of key and value pairs, keys strictly rising, no entry equal
to what an unlisted key reads as. Every memory and the register file are such stores. -/
namespace Sys2Proof.Machine

/-- A sparse store. What an unlisted key reads as is the argument `d` of its operations. -/
abbrev SMap (β : Type) := List (Nat × β)

/-- What key a reads as. -/
def smGet {β : Type} (d : Nat → β) : SMap β → Nat → β
  | [], a => d a
  | (k, v) :: t, a => if k = a then v else smGet d t a

/-- The sorted list with an entry added or replaced. -/
def smInsert {β : Type} (a : Nat) (v : β) : SMap β → SMap β
  | [] => [(a, v)]
  | (k, w) :: t => if a < k then (a, v) :: (k, w) :: t else if a = k then (a, v) :: t else (k, w) :: smInsert a v t

/-- The store without key a. -/
def smErase {β : Type} (a : Nat) (m : SMap β) : SMap β := m.filter (fun e => e.1 != a)

/-- The store after writing v at key a; writing what an unlisted key reads as removes the entry. -/
def smSet {β : Type} [DecidableEq β] (d : Nat → β) (m : SMap β) (a : Nat) (v : β) : SMap β :=
  if v = d a then smErase a m else smInsert a v m

/-- Keys strictly rising. -/
def smSorted {β : Type} : SMap β → Bool
  | [] => true
  | [_] => true
  | (k, _) :: (k', w) :: t => decide (k < k') && smSorted ((k', w) :: t)

/-- The canonical form. -/
def smWf {β : Type} [DecidableEq β] (d : Nat → β) (m : SMap β) : Bool :=
  smSorted m && m.all (fun e => decide (e.2 ≠ d e.1))

/-- A byte-addressed memory, on the host's cells. -/
abbrev Memory := List Host.Cell

/-- What an unlisted byte of a memory reads as: 0 (R124 step 2 sets every memory of the logic island to 0; for DRAM and
the non-volatile arrays assumption 3). -/
def byte0 (_ : Nat) : Byte := 0

/-- One byte. -/
def Memory.byte (m : Memory) (a : Nat) : Byte := smGet byte0 m a

/-- Write one byte. -/
def Memory.setByte (m : Memory) (a : Nat) (v : Byte) : Memory := smSet byte0 m a v

/-- The canonical form of a memory. -/
def Memory.wf (m : Memory) : Bool := smWf byte0 m

/-- The n bytes from a. -/
def Memory.bytes (m : Memory) (a : Nat) : Nat → List Byte
  | 0 => []
  | n + 1 => m.byte a :: Memory.bytes m (a + 1) n

/-- Write a list of bytes from a. -/
def Memory.setBytes (m : Memory) (a : Nat) : List Byte → Memory
  | [] => m
  | b :: bs => Memory.setBytes (m.setByte a b) (a + 1) bs

/-- A little-endian number of n bytes from a (00_scope.md, *Numbers and units*). -/
def Memory.read (m : Memory) (a n : Nat) : Nat := leNat (m.bytes a n)

/-- Write a little-endian number of n bytes from a. -/
def Memory.write (m : Memory) (a n v : Nat) : Memory := m.setBytes a (leBytes v n)

/-- A little-endian 32-bit word. -/
def Memory.word (m : Memory) (a : Nat) : Word := BitVec.ofNat 32 (m.read a 4)

/-- Write a little-endian 32-bit word. -/
def Memory.setWord (m : Memory) (a : Nat) (v : Word) : Memory := m.write a 4 v.toNat

/-- What an unlisted word of a word store reads as. -/
def word0 (_ : Nat) : Word := 0

/-- A store of 32-bit words. -/
abbrev Words := SMap Word

def Words.get (m : Words) (a : Nat) : Word := smGet word0 m a
def Words.set (m : Words) (a : Nat) (v : Word) : Words := smSet word0 m a v

/-- The words of a list from index a. -/
def Words.setAll (m : Words) (a : Nat) : List Word → Words
  | [] => m
  | w :: ws => Words.setAll (Words.set m a w) (a + 1) ws

/-- The 32-bit little-endian words of a byte string. -/
def wordsOf : List Byte → List Word
  | b0 :: b1 :: b2 :: b3 :: t => BitVec.ofNat 32 (leNat [b0, b1, b2, b3]) :: wordsOf t
  | _ => []

/-- The sum of a list of numbers, and the largest of a list. -/
def sumList (l : List Nat) : Nat := l.foldl (· + ·) 0
def maxList (l : List Nat) : Nat := l.foldl Nat.max 0

/-- Fold a state through a list of steps, one for each index below n. -/
def forAll {σ : Type} (n : Nat) (f : Nat → σ → σ) (s : σ) : σ := (List.range n).foldl (fun s i => f i s) s

end Sys2Proof.Machine
end

