-- ==== Sys2Proof/Machine/State.lean ====
section
/-! DEFINITION. The state of the MH640 as plain data, and the state right after reset. Registers live in one sparse
store keyed by device address (`Dev.regs`); what the manual gives the part beyond its registers (memories, queues,
latches, the islands' own state) is typed data. -/
namespace Sys2Proof.Machine

/-- Why the block stops with a fault: never. Every step of the operation table has an effect in the manual, so no
meaning ends in a fault. The one constructor keeps the type inhabited; nothing raises it. Safe. -/
inductive Fault where
  /-- Raised by nothing. Safe. -/
  | none
  deriving DecidableEq, Repr

/-- Why a command has no meaning in the model. -/
inductive Refusal where
  /-- Raised by an arm of `exec` that has no meaning yet. Safe: the run stops. -/
  | notModelled (mnemonic : String)
  deriving DecidableEq, Repr

/-! ## System, tick and faults -/

/-- The modes of SYS_MODE.MODE (R114). -/
inductive Mode where
  | startUp
  | commission
  | run
  | hold
  | trim
  deriving DecidableEq, Repr

/-- The part of the tick (02_tick.md, *Phases*). `idle`: no tick is in progress (before edge 0, while the tick is
stopped or held, and from a wake to its first edge). -/
inductive Phase where
  | idle
  | capture
  | compute
  | stage
  deriving DecidableEq, Repr

/-- The fault classes (R347). -/
inductive Cls where
  | note
  | degrade
  | slip
  | hold
  | halt
  deriving DecidableEq, Repr

/-- A cask: its tag and its entries, an array offset and a word each (17_cellar.md). -/
structure Cask where
  tag     : Byte
  entries : List (Nat × Word)
  deriving DecidableEq, Repr

/-- Who staged a write (R39). -/
inductive Writer where
  | core (k : Nat)
  | host (p : HostPort)
  | timed (p : HostPort)
  | monitor
  | engine
  deriving DecidableEq, Repr

/-- A staged write (R36, R39). -/
inductive Write where
  | reg (addr : Nat) (v : Word)
  | port (addr : Nat) (v : Word)
  | sram (addr n v : Nat)
  | dmem (core addr n v : Nat)
  | mbox (core box : Nat) (v : Word)
  | cart (core idx : Nat)
  | cask (core : Nat) (c : Cask)
  | softEv (mask : Nat)
  deriving DecidableEq, Repr

/-- A staged write, its writer, and the core cycle since reset in which it was accepted (R39). -/
structure Staged where
  by_ : Writer
  w   : Write
  at_ : Nat
  deriving DecidableEq, Repr

/-- The tick unit (02_tick.md). -/
structure Tick where
  /-- Part of the tick. -/
  phase      : Phase
  /-- Tick-unit instant of the most recent edge. -/
  edgeAt     : Nat
  /-- Instant at which the next edge falls while the tick runs. -/
  due        : Nat
  /-- TCK_COUNT (R47). -/
  count      : DWord
  /-- A fault slip has stopped the work of the running tick (R43). -/
  stopWork   : Bool
  /-- The instant of that stop: what the other cores issue up to it, in the same core cycle, is still detected (R350). -/
  stopAt     : Nat
  /-- Slip causes of the running tick (R42). -/
  slipCmd    : Bool
  slipGuard  : Bool
  slipFault  : Bool
  /-- A commanded slip that belongs to the next tick (R38). -/
  slipNext   : Bool
  /-- The most recent edge abandoned its tick (R108). -/
  abandoned  : Bool
  /-- The fault of R44 has been raised for the standing run of abandoned ticks. -/
  limitDone  : Bool
  /-- The writes staged in the running tick, in order of acceptance, and those that belong to the next one. -/
  staged     : List Staged
  stagedNext : List Staged
  /-- Fractional edges of the running tick that have been reached. -/
  fracDone   : Nat
  deriving DecidableEq, Repr

/-- A record of the fault stack (18_trouble.md, *Stack record*). -/
structure FRec where
  ev     : Nat
  cls    : Cls
  pre    : Bool
  infp   : Bool
  id     : Word
  detail : Word
  ts     : DWord
  count  : DWord
  deriving DecidableEq, Repr

/-- A fault record still to be written to the log (R359). -/
structure FLog where
  rec_    : FRec
  abandon : Bool
  dropped : Bool
  deriving DecidableEq, Repr

/-- The fault unit (18_trouble.md). -/
structure FaultUnit where
  /-- Top record first; at most two. -/
  stack    : List FRec
  /-- Faults of class Degrade or higher since reset. -/
  total    : Word
  /-- Records not yet written to the log, oldest first. -/
  logs     : List FLog
  /-- A pulse holds FAULT_N low (R358), and the instant in tick units at which it ends. -/
  pulse    : Bool
  pulseEnd : Nat
  /-- The fault program runs or has run in the present tick (R351). -/
  ran      : Bool
  deriving DecidableEq, Repr

/-- The event fabric's landing accumulators and the events recorded while the tick is stopped in S4 (19_events.md). -/
structure Events where
  land     : BitVec 256
  landTrig : BitVec 4
  folded   : Nat
  deferred : List Nat
  deriving DecidableEq, Repr

/-- Power and wake state (06_modes.md). -/
structure Power where
  /-- The tick is stopped in S3 or S4 (R130). -/
  stopped  : Bool
  /-- Edges since the last wake; none before the first wake (R130). -/
  awake    : Option Nat
  /-- Wake causes of the most recent wake (port 0x0008). -/
  lastWake : BitVec 6
  /-- Wake causes that have arisen since the last edge or wake (R130, R131): FLD, HRN, TDL, TMR, HOSTA, HOSTB. -/
  wakeReq  : BitVec 6
  deriving DecidableEq, Repr

/-! ## Host ports (05_host.md) -/

/-- A timed command that waits for its edge (R106). -/
structure Timed where
  write : Bool
  tag   : BitVec 16
  idx   : Nat
  addr  : Nat
  data  : Word
  edge  : Nat
  /-- A WRAT that has been accepted and waits for its edge. -/
  acc   : Bool
  /-- The word that an RDAT found committed at its edge (R108); none before that edge. -/
  got   : Option Word
  deriving DecidableEq, Repr

/-- A consumed command entry that is being carried out (R110). -/
structure Command where
  idx  : Nat
  opc  : Byte
  tag  : BitVec 16
  addr : Nat
  data : Word
  edge : Word
  /-- TCK_COUNT at its consumption (R106). -/
  count : DWord
  deriving DecidableEq, Repr

/-- What a write of a port to the reins arbiter asks for (R103). -/
inductive ReinsAct where
  | req (contested : Bool)
  | rel
  | take (contested : Bool)
  | beat
  deriving DecidableEq, Repr

/-- A write that has arrived at a port (R96): to device addresses, to DRAM, a word of a quad-SPI WRITE at its offset, to the
reins arbiter, or of SETWIN. -/
inductive PortWrite where
  | dev (addr n : Nat) (v : DWord)
  | dram (addr n : Nat) (v : DWord)
  | spi (ofs : Nat) (v : Word)
  | reins (a : ReinsAct)
  | win (v : Word)
  deriving DecidableEq, Repr

/-- One host port beyond its registers. -/
structure Port where
  pcie     : Bool
  d3hot    : Bool
  /-- Configuration space that requests write: MSI-X Enable and Function Mask, BAR0 and the upper half of BAR2/BAR3 (R95). -/
  msixOn   : Bool
  msixMask : Bool
  bar0     : Word
  bar3     : Word
  /-- The entry that COMMAND_CONSUME took and that its command row has yet to carry out. -/
  inFlight : Option Command
  /-- Timed commands that wait, in ring order. -/
  timed    : List Timed
  /-- PHASE of the next completion (1 on the first pass). -/
  cplPhase : Bool
  /-- Within HSTx_CPLMOD of the last vector 0 message. -/
  modBusy  : Bool
  /-- Writes held because the staging area is full (R40), and those that arrived behind them (R96), oldest first. -/
  held     : List PortWrite
  /-- The data of the most recent read. -/
  resp     : List Word
  /-- Bytes sent on the quad-SPI data lines before the data of the most recent READ. -/
  marker   : Option Byte
  /-- MSI-X messages sent, by vector. -/
  msgs     : SMap Nat
  /-- Latched upper halves of TCK_COUNT, TCK_EDGETS and TCK_TS. -/
  hiCount  : Word
  hiEdge   : Word
  hiTs     : Word
  deriving DecidableEq, Repr

/-- The reins arbiter (R103). -/
structure Reins where
  holder  : Option HostPort
  hbLate  : Bool
  /-- The port that won the previous contested grant. -/
  lastWin : HostPort
  deriving DecidableEq, Repr

/-! ## Limath cores and the loader (03_limath.md, 04_programs.md) -/

/-- What a core is doing. -/
inductive Run where
  | idle
  | tick
  | fault
  | ended
  | stopped
  deriving DecidableEq, Repr

/-- One Limath core. -/
structure Core where
  g      : Vector Word 32
  f      : Vector Word 16
  a      : Vector DWord 4
  /-- p7..p0; bit 0 is 1. -/
  p      : BitVec 8
  cst    : Word
  pc     : BitVec 14
  /-- Return stack, top first. -/
  stack  : List (BitVec 14)
  lc     : Vector (BitVec 16) 4
  /-- The body start of the open loop of each level. -/
  body   : Vector (Option (BitVec 14)) 4
  run    : Run
  /-- Cycles since the start of Compute (RDS 7). -/
  cyc    : Nat
  /-- The cycle from which each register can be read without a stall: g at 0, f at 32, a at 48, p at 56 (R56). -/
  ready  : SMap Nat
  /-- The accumulator of the MAC or MACH that issued last, if it was the last instruction (R56). -/
  lastMac : Option Nat
  /-- The open cask, and the cause of R336 that it meets so far (0 none); with no cask open, 4 after a NESTED refusal. -/
  cask   : Option Cask
  bad    : Nat
  imem   : Words
  consts : Words
  dmem   : Memory
  /-- Cart descriptor flags (R67, R86). -/
  busy   : BitVec 64
  done   : BitVec 64
  err    : BitVec 64
  deriving DecidableEq, Repr

/-- A cart in the cart unit (R84 to R86). `arrived`: its last line has arrived and it lands at the next committing
edge; `data` holds the source lines of a cart to DRAM, or the lines that arrived. -/
structure Cart where
  core    : Nat
  idx     : Nat
  dAddr   : Nat
  sAddr   : Nat
  lines   : Nat
  toDram  : Bool
  bad     : Bool
  arrived : Bool
  ended   : Bool
  data    : List Byte
  deriving DecidableEq, Repr

/-- The code, entry, data and constants that an image gives one core. -/
structure CoreImg where
  core   : Nat
  entry  : Nat
  code   : List Word
  data   : List (Nat × List Byte)
  consts : List Word
  deriving DecidableEq, Repr

/-- A law snippet of an image: lane, hook, PARAM, its words and its constant words. -/
structure Snippet where
  lane   : Nat
  hook   : Nat
  code   : List Word
  consts : List Word
  deriving DecidableEq, Repr

/-- A frame graph of an image (11_vision.md): the words of its type 7 section. -/
structure Graph where
  no   : Nat
  body : List Byte
  deriving DecidableEq, Repr

/-- A print image feed (10_print.md): the words of its type 8 section. -/
structure Feed where
  port : Nat
  body : List Byte
  deriving DecidableEq, Repr

/-- A program image as the loader read and proved it (R77, R78, R92). -/
structure Image where
  id         : Word
  ver        : Word
  cores      : Nat
  faultCore  : Nat
  faultEntry : Nat
  progs      : List CoreImg
  costs      : List Nat
  snippets   : List Snippet
  graphs     : List Graph
  feeds      : List Feed
  certs      : List Nat
  dpCerts    : List Nat
  minPer     : Nat
  lines      : Nat
  deriving DecidableEq, Repr

/-- The loader (R77 to R79, R419). -/
structure Loader where
  /-- The image in force. -/
  image    : Option Image
  /-- An accepted image that takes effect at the next edge. -/
  next     : Option Image
  /-- A running verification reads the Cellar boot region, or tick SRAM from an address for a length. -/
  fromCel  : Bool
  addr     : Nat
  len      : Nat
  /-- Bytes of the source changed while the verification runs (R419). -/
  changed  : Bool
  deriving DecidableEq, Repr

/-! ## Feedback (07_feedback.md) -/

/-- One feedback channel beyond its registers. -/
structure FbCh where
  cnt     : Word
  /-- Levels of A, B (quadrature) or the state U, V, W (Hall) at the last accepted edge. -/
  lvl     : BitVec 3
  /-- Timestamp and direction (true: down) of the last accepted edge, good frame or sample; whether there is one. -/
  lastTs  : DWord
  lastDn  : Bool
  seen    : Bool
  /-- The reference edge of R150. -/
  refCnt  : Word
  refTs   : DWord
  refOk   : Bool
  /-- Accepted edges, good frames or samples in the window since the last event of R153, up to 2. -/
  since   : Nat
  /-- An edge, frame or sample was accepted, and a reversal occurred, since the last Capture. -/
  edged   : Bool
  revved  : Bool
  /-- A reversal occurred in the window that the ports show (+0x10 bit 8). -/
  rev     : Bool
  /-- The counter was re-zeroed at Z since the last Capture (R156). -/
  rezero  : Bool
  /-- Sum of the re-references of a sin/cos channel. -/
  ofs     : Word
  /-- The last edge is a reversal edge with no edge after it. -/
  revLast : Bool
  /-- A good frame completed since the end of the last Capture (R145). -/
  fresh   : Bool
  /-- The previous good frame or sample: counter and timestamp (R152, R157). -/
  prevCnt : Word
  prevTs  : DWord
  /-- The last good position field of a serial channel (R144), and whether there is one. -/
  field   : Word
  fieldOk : Bool
  /-- A serial frame is being transferred, the tick-unit instant before which the MONO time of the last one has not ended (R141),
  and the bytes of the last RS-485 request (R143). -/
  inFrame : Bool
  recover : Nat
  req     : List Byte
  /-- Z re-zero armed (R139), ZPOS. -/
  zarm    : Bool
  zpos    : Word
  /-- Raw frame or samples, and the corrected amplitude (ports +0x30 to +0x38). -/
  raw     : BitVec 48
  rawC    : BitVec 14
  amp     : Word
  /-- Values latched in Capture; `lspd` is SPD as latched, `spd` is cleared with SPDV and by the zero-speed timeout. -/
  pos     : Word
  ts      : DWord
  spd     : Word
  lspd    : Word
  dcnt    : Word
  dt      : Word
  /-- The position latched in the Capture before, and at how many Captures in a row the channel was configured, up to 2
  (R171). -/
  pos1    : Word
  caps    : Nat
  /-- Sin/cos: position and timestamp of the newest sample latched at an edge (R152), and whether the sample of the most recent
  edge has been latched. -/
  edgePos : Word
  edgeTs  : DWord
  taken   : Bool
  deriving DecidableEq, Repr

/-- One position latch (R157, R158). -/
structure Latch where
  armed   : Bool
  /-- A CAP edge that waits for the next sample or frame: its timestamp. -/
  waiting : Option DWord
  /-- A result not yet latched in Capture: position, timestamp, error. -/
  result  : Option (Word × DWord × Bool)
  /-- What the ports show. -/
  lpos    : Word
  lts     : DWord
  lvalid  : Bool
  lovr    : Bool
  lerr    : Bool
  deriving DecidableEq, Repr

/-! ## The Cellar (17_cellar.md) -/

/-- A committed cask in the journal that has not been applied: `word` once its commit word is written; `slot` is the log
record and sequence number that a log cask fills; `count` is TCK_COUNT at its commit edge. -/
structure JCask where
  core  : Nat
  cask  : Cask
  word  : Bool
  slot  : Option (Nat × Word)
  count : DWord
  deriving DecidableEq, Repr

/-- A log record of the fault unit that has its slot and is not yet written to the array. -/
structure LogRec where
  slot  : Nat
  seq   : Word
  bytes : List Byte
  deriving DecidableEq, Repr

/-- The Cellar beyond its registers. `array` is what reads return (R337); `durable` is what the array holds. -/
structure Cellar where
  array   : Memory
  durable : Memory
  spill   : Memory
  journal : List JCask
  recs    : List LogRec
  /-- Casks in the journal since the newest applied mark that never commit, and casks opened in the running tick. -/
  dead    : Nat
  live    : Nat
  /-- Journal entries used by the casks of the running tick (R335). -/
  used    : Nat
  deriving DecidableEq, Repr

/-! ## The monitor (21_identity_monitor.md) -/

/-- The Vuile monitor beyond its registers. -/
structure Mon where
  /-- Trigger units that have hit since the most recent edge. -/
  trigHit  : BitVec 4
  /-- HOLD waits for the next edge; STEP runs (R391). -/
  holdReq  : Bool
  stepping : Bool
  /-- MON_CODE, which reads 0. -/
  code     : Word
  /-- The most recent response, as its bytes. -/
  resp     : List Byte
  /-- Latched upper halves of TCK_COUNT, TCK_EDGETS and TCK_TS (R387). -/
  hiCount  : Word
  hiEdge   : Word
  hiTs     : Word
  /-- Trace entries still to be written after a hit; none before one (R393). -/
  post     : Option Nat
  deriving DecidableEq, Repr

def Mon.reset : Mon :=
  { trigHit := 0, holdReq := false, stepping := false, code := 0, resp := [], hiCount := 0, hiEdge := 0,
    hiTs := 0, post := none }

/-! ## Identity and trim (20_trim.md, 21_identity_monitor.md) -/

/-- One identity bus beyond its registers: a read runs; a read that has ended and waits for a committing edge (its STATE
and its bytes); PART and SERIAL of the most recent GOOD read, and whether there is one. -/
structure IdBus where
  busy   : Bool
  /-- The bytes that the controller sends in the most recent read: after the start, and after the repeated
  start (R381). -/
  sent   : List Byte × List Byte
  ended  : Option (Nat × List Byte)
  part   : Word
  serial : Word
  good   : Bool
  deriving DecidableEq, Repr

def IdBus.reset : IdBus := { busy := false, sent := ([], []), ended := none, part := 0, serial := 0, good := false }

/-- The trim engine beyond TRM_STAT: drive points reached by the running step, its end (code, results) that waits for a
committing edge, and the AO segment choices that the field island holds (none: the factory choice). -/
structure Trim where
  points : Nat
  ended  : Option (Nat × List Word)
  seg    : Vector (Option Word) 4
  deriving DecidableEq, Repr

def Trim.reset : Trim := { points := 0, ended := none, seg := Vector.replicate 4 none }

/-! ## Axes (08_motion.md) -/

/-- A trajectory state: position in 1/65,536 axis units modulo 2^48, velocity and acceleration in binary32 (R163). -/
structure Traj where
  p : BitVec 48
  v : Word
  a : Word
  deriving DecidableEq, Repr

/-- What the interval that ends in a state reports at its end (R169, R180, R183): LIMITED, OVER, DONE, LOCK reached,
the cam engaged, GEAROVR. -/
structure TrajRep where
  limited : Bool
  ovr    : Bool
  done    : Bool
  lock    : Bool
  gearOvr : Bool
  deriving DecidableEq, Repr

/-- A queued segment of a group: its duration in ticks, and for each member its end position and velocity (R175). -/
structure Seg where
  dur  : Nat
  ends : List (Nat × Word × Word)
  deriving DecidableEq, Repr

/-- One interpolation group: queued segments, oldest first; the running segment, the TCK_COUNT at which it began and its
members' states there (R177); and whether it starved (R178). -/
structure Group where
  queue   : List Seg
  running : Option (Seg × DWord × List (Nat × Traj))
  starved : Bool
  deriving DecidableEq, Repr

/-- A planned interval: the state at its end, what it reports there, and the gear and cam quantities that commit with it
(R165, R180, R182). -/
structure Plan where
  fin     : Traj
  rep     : TrajRep
  locked  : Bool
  lockNum : Int
  lockDen : Nat
  mLast   : BitVec 48
  armed   : Bool
  camOfs  : Int
  halting : Bool
  deriving DecidableEq, Repr

/-- One axis slot beyond its registers. -/
structure Axis where
  /-- The state at the most recent edge, the state at the end of the running interval and what it then reports. -/
  cur     : Traj
  fin     : Traj
  rep     : TrajRep
  /-- The interval planned in Stage for the edge that follows (R165). -/
  plan    : Option Plan
  /-- The axis runs (EN committed and started). -/
  on      : Bool
  /-- It started at the most recent edge: the coming interval is a hold interval (R166, R170). -/
  fresh   : Bool
  /-- The velocity rule runs with vt = 0 until at rest (R178: starve or break). -/
  halting : Bool
  /-- A limit's ramped stop shapes the coming interval; its hard stop holds it at v = 0 (R183). -/
  ramp    : Bool
  hard    : Bool
  /-- Gear locked or cam engaged; the exact position at the master position `mLast`, a fraction over `lockDen` in 1/65,536 unit
  (gear), or CAMOFS in 1/65,536 unit (cam); the master position at the most recent edge (gear) or at the end of the newest planned
  interval (cam), and the SPD of a feedback master latched at the Capture before the most recent one. -/
  locked  : Bool
  lockNum : Int
  lockDen : Nat
  mLast   : BitVec 48
  mVel    : Word
  armed   : Bool
  camOfs  : Int
  /-- GNUM and GDEN in force since the most recent edge, and between the two before it (R180). -/
  gear1   : Word × Word
  gear2   : Word × Word
  /-- Where the coming interval ends after a hold interval at the end of a segment that ends at rest (R177). -/
  settle  : Option (BitVec 48)
  /-- The strong-mode hold of a blind start (R172). -/
  blind   : Bool
  /-- Filtered levels of LIMn_P, LIMn_N and HOMEn, and the active states latched in Capture (bits 0, 1, 2). -/
  limP    : Bool
  limN    : Bool
  home    : Bool
  act     : BitVec 3
  /-- Step generator: the integer position reached by pulses, pulses emitted, the direction (true: backward), and the tick-unit
  instants at which the newest pulse starts and at which the direction changed last (R174). -/
  stepPos : Word
  pulses  : Nat
  back    : Bool
  stepAt  : Option Nat
  dirAt   : Option Nat
  /-- Alerts since reset. -/
  alerts  : Byte
  deriving DecidableEq, Repr

def Traj.zero : Traj := ⟨0, 0, 0⟩
def TrajRep.none : TrajRep := ⟨false, false, false, false, false⟩
def Group.reset : Group := { queue := [], running := none, starved := false }
def Axis.reset : Axis :=
  { cur := Traj.zero, fin := Traj.zero, rep := TrajRep.none, plan := none, on := false, fresh := false, halting := false,
    ramp := false, hard := false, locked := false, lockNum := 0, lockDen := 1, mLast := 0, mVel := 0, armed := false,
    camOfs := 0, gear1 := (1, 1), gear2 := (1, 1), settle := none, blind := false, limP := false, limN := false, home := false, act := 0, stepPos := 0, pulses := 0, back := false,
    stepAt := none, dirAt := none, alerts := 0 }

/-! ## Control engine (09_control.md) -/

/-- One control-engine lane beyond its registers. -/
structure Lane where
  /-- Velocity and current integrators, filtered velocity; chopper integrators (R191, R207). -/
  xv      : Word
  xd      : Word
  xq      : Word
  vf      : Word
  xa      : Word
  xb      : Word
  /-- Mechanical phase, previous position of the channel, and what SETPOS and Z re-zeros have added since reset: now, at
  the sample instant and at the previous pass (R192). -/
  m         : Nat
  prevPm    : Word
  shift     : Word
  shiftS    : Word
  prevShift : Word
  /-- Position of the channel at the most recent sample instant, SPD and SPDV as latched in Capture. -/
  pmS     : Word
  spdS    : Word
  spdvS   : Bool
  /-- Coil angle in 1/65,536 microsteps (modulo 4 MSTEP microsteps), and the commanded position it refers to (R207). -/
  theta   : Nat
  prevPc  : BitVec 48
  /-- Chopper mode: strong; a change is wanted; its 50 ms have passed; the sign of ia* at the previous pass (true:
  negative); passes of a forced ramp left, and the amplitude it began at (R208). -/
  strong  : Bool
  wanted  : Bool
  forced  : Bool
  iaNeg   : Option Bool
  rampN   : Nat
  rampAmp : Word
  /-- Values that the ports show (R211): those of the pass that samples at the edge, and those of the latest pass. -/
  ia      : Word
  ib      : Word
  ic      : Word
  id_     : Word
  iq      : Word
  ang     : Word
  iqRef   : Word
  idRef   : Word
  vd      : Word
  vq      : Word
  ep      : Word
  /-- Duties in binary32 of phases 0 to 3: of a pass whose apply instant has not come, waiting for the next valley, and
  loaded in the PWM block (R201). -/
  next    : Option (Vector Word 4)
  wait    : Option (Vector Word 4)
  load    : Vector Word 4
  /-- Passes done in the running tick. -/
  passes  : Nat
  /-- The lane drives its outputs (they are inactive otherwise). -/
  drive   : Bool
  /-- Snippet registers g8 to g15, f8 to f15 and a0 (R197). -/
  sg      : Vector Word 8
  sf      : Vector Word 8
  sa      : DWord
  /-- Captures in a row with STALE (R210); a trip waits for its edge. -/
  stale   : Nat
  tripped : Bool
  /-- The committed carrier breaks R200. -/
  badCar  : Bool
  deriving DecidableEq, Repr

def Lane.reset : Lane :=
  { xv := 0, xd := 0, xq := 0, vf := 0, xa := 0, xb := 0, m := 0, prevPm := 0, shift := 0, shiftS := 0, prevShift := 0,
    pmS := 0, spdS := 0, spdvS := false, theta := 0, prevPc := 0, strong := false, wanted := false, forced := false,
    iaNeg := none, rampN := 0, rampAmp := 0, ia := 0, ib := 0, ic := 0, id_ := 0, iq := 0, ang := 0, iqRef := 0,
    idRef := 0, vd := 0, vq := 0, ep := 0, next := none, wait := none, load := Vector.replicate 4 0, passes := 0,
    drive := false, sg := Vector.replicate 8 0, sf := Vector.replicate 8 0, sa := 0, stale := 0, tripped := false,
    badCar := false }

/-! ## Print ports (10_print.md) -/

/-- A print job: JOBSTART, JOBROWS, the RDIDX it started at, the next firing index, indices fired, the last index fired. -/
structure Job where
  start : Word
  rows  : Nat
  first : Nat
  next  : Nat
  fired : Nat
  last  : Option Nat
  deriving DecidableEq, Repr

/-- Slice 0 of an index shifted ahead of its firing (R219): the job's first row and the index, when the shift begins and
ends, the density and slice-width words in force as it begins (R220), and for each colour the row it prints. -/
structure Shift where
  first : Nat
  index : Nat
  start : Nat
  done  : Nat
  den   : List Word
  slw   : List Word
  rows  : List (Option (List Byte))
  deriving DecidableEq, Repr

/-- A firing: its index, whether it fires blank, whether its strobes may rise, whether its job is still the active one, PRTp_CFG
and the shape in force, the instant at which PHp_LAT first rises, and the tables and rows of its shift. -/
structure Firing where
  index  : Nat
  blank  : Bool
  strobe : Bool
  own    : Bool
  cfg    : Word
  dots   : Nat
  colours : Nat
  at_    : Nat
  den    : List Word
  slw    : List Word
  rows   : List (Option (List Byte))
  deriving DecidableEq, Repr

/-- One print port beyond its registers. -/
structure Prt where
  /-- Source position S (forward steps minus backward steps). -/
  pos     : Word
  active  : Option Job
  /-- The queued job; its `next` advances over the indices that pass blank before it starts (R217). -/
  queued  : Option Job
  firing  : Option Firing
  /-- Slice 0 of the next index, shifted or to be shifted. -/
  shift   : Option Shift
  /-- An index that fell due and waits (R222), and whether it fires blank. -/
  waiting : Option (Nat × Bool)
  /-- Fetched rows, oldest first: row index and bytes; the next row index to fetch; missing rows to discard (R221). -/
  fifo    : List (Nat × List Byte)
  fetch   : Nat
  late    : List Nat
  /-- PHp_FLT_N is low. -/
  fltLow  : Bool
  /-- Timestamp of the last due index. -/
  lastDue : DWord
  deriving DecidableEq, Repr

def Prt.reset : Prt :=
  { pos := 0, active := none, queued := none, firing := none, shift := none, waiting := none, fifo := [], fetch := 0, late := [],
    fltLow := false, lastDue := 0 }


/-! ## Vision (11_vision.md) -/

/-- A camera frame in a buffer: port, SEQ, Frame Start timestamp and buffer number (R227). -/
structure Frame where
  port : Nat
  seq  : Word
  ts   : DWord
  buf  : Nat
  deriving DecidableEq, Repr

/-- What a graph processes: a frame, and for a STEREO graph the right frame of the pair (R231). -/
structure FramePair where
  left  : Frame
  right : Option Frame
  /-- The first of the free values that its items take (model's own, R235). -/
  seed  : Nat
  deriving DecidableEq, Repr

/-- One CSI-2 receiver: the frame being received (its timestamp and buffer), frames whose Frame End has arrived and whose
last line the DRAM controller has not yet accepted, and ready frames that no Capture has seen (R226, R227). -/
structure Rx where
  recv  : Option (DWord × Nat)
  ended : List (DWord × Nat)
  ready : List Frame
  deriving DecidableEq, Repr

/-- The frame a graph processes (R234 to R237). -/
structure VActive where
  pair    : FramePair
  /-- FIRST, and whether the Flow pairing fails and the Disparity seed is lost. -/
  first   : Bool
  noFlow  : Bool
  noSeed  : Bool
  prevTs  : DWord
  /-- TCK_COUNT of the tick that accepted it. -/
  accept  : DWord
  bank    : Nat
  /-- Coarse items and refinement items done. -/
  pos     : Nat
  refs    : Nat
  /-- Candidate tiles (node, tile) in list order, and the tiles of the refined map. -/
  cand    : List (Nat × Nat)
  refined : List Nat
  /-- The records of each tile of a Feature node: node, tile, bytes (R236). -/
  feats   : List (Nat × Nat × List Byte)
  deriving DecidableEq, Repr

/-- A closed or missing result that is published at the next committing edge (R232, R238). -/
structure VResult where
  missing : Bool
  seq     : Word
  ts      : DWord
  bank    : Nat
  counts  : Word
  frame   : Option Frame
  deriving DecidableEq, Repr

/-- One frame graph slot of Trellis. -/
structure VGraph where
  run     : Bool
  slot    : Option FramePair
  /-- Frames of a STEREO graph that wait for a partner: left and right (R231). -/
  waitL   : Option Frame
  waitR   : Option Frame
  active  : Option VActive
  closing : List VResult
  /-- The bank of the next accepted frame, and the bank published last. -/
  bank    : Nat
  shown   : Option Nat
  /-- The next frame is the first after a start or a wake; the frame processed last: its SEQ and timestamp. -/
  fresh   : Bool
  lastSeq : Word
  lastTs  : DWord
  /-- Ticks since a frame was last accepted (R232). -/
  quiet   : Nat
  /-- The published result as the ports show it. -/
  pTs     : DWord
  pBank   : Word
  pCounts : Word
  deriving DecidableEq, Repr

/-- A published result that waits for its hand-off entry. -/
structure Handoff where
  graph : Nat
  seq   : Word
  ts    : DWord
  frame : Frame
  bank  : Nat
  deriving DecidableEq, Repr

/-- A valid hand-off entry: its index, the buffer it holds and the TCK_COUNT at which it was written (R240). -/
structure HandEntry where
  idx   : Nat
  port  : Nat
  buf   : Nat
  count : DWord
  deriving DecidableEq, Repr

structure Vis where
  rx   : Vector Rx 2
  gr   : Vector VGraph 4
  todo : List Handoff
  held : List HandEntry
  deriving DecidableEq, Repr

def Rx.reset : Rx := { recv := none, ended := [], ready := [] }
def VGraph.reset : VGraph :=
  { run := false, slot := none, waitL := none, waitR := none, active := none, closing := [], bank := 0, shown := none,
    fresh := true, lastSeq := 0, lastTs := 0, quiet := 0, pTs := 0, pBank := 0, pCounts := 0 }
def Vis.reset : Vis :=
  { rx := Vector.replicate 2 Rx.reset, gr := Vector.replicate 4 VGraph.reset, todo := [], held := [] }

/-- Rows of DRAM that the device filled with bytes that the manual leaves open (camera pixels, engine images): the first
address, the bytes of a row, the distance of two rows, their number, which bits of the odd bytes of a row may be set (R226), and
the free value's index (assumption 22). -/
structure FreeArea where
  base  : Nat
  len   : Nat
  pitch : Nat
  rows  : Nat
  hi    : Byte
  ctr   : Nat
  deriving DecidableEq, Repr

/-! ## Tree engine (12_trees.md) -/

/-- A model in a slot: its node base, its body in node words, and the fields of its header (*Model format*). -/
structure TModel where
  base    : Nat
  words   : Nat
  nin     : Nat
  nf      : Nat
  ntrees  : Nat
  nout    : Nat
  link    : Nat
  rootOfs : Nat
  bias    : List Word
  cost    : Nat
  id      : Word
  deriving DecidableEq, Repr

/-- A running load, with LOADCMD, LDADDR, LDLEN and LDBASE as committed at its edge (R247). -/
structure TLoad where
  slot : Nat
  cel  : Bool
  addr : Nat
  len  : Nat
  base : Nat
  deriving DecidableEq, Repr

/-- An invocation of the running tick (R246): its core, the core cycle of its issue, the cycles that it takes of the engine, and
the cycle at which it retires as far as the invocations issued so far tell. -/
structure TRun where
  core : Nat
  at_  : Nat
  work : Nat
  ends : Nat
  deriving DecidableEq, Repr

/-- The node store (64-bit words), the slots, a running load, an accepted model that waits for its edge (R249), and the
invocations of the running tick in the order of their issue. -/
structure Trees where
  store    : SMap DWord
  slots    : Vector (Option TModel) 32
  loading  : Option TLoad
  accepted : Option (Nat × TModel)
  runs     : List TRun
  deriving DecidableEq, Repr

def Trees.reset : Trees :=
  { store := [], slots := Vector.replicate 32 none, loading := none, accepted := none, runs := [] }

/-! ## Field island (13_field.md) -/

/-- An output image on its way to the island: DOUT, DFCLR, RESUME and the AO words, which of them committed in its tick, and which
carried FCLR (R253, R262, R264). -/
structure IslImage where
  dout   : BitVec 16
  dfclr  : BitVec 16
  resume : Bool
  ao     : Vector Word 4
  fresh  : Vector Bool 4
  fclr   : Vector Bool 4
  deriving DecidableEq, Repr

/-- One AO: the word in force, whether one has come since the configuration became valid, a thermal shutdown, and the
demanded current: whether the driver is on, the value from which it slews, the tick-unit instant at which it began, and
the value it approaches, in 1/131,070,000 mA (R262); the drive point of a trim step in the same unit (R376), and what the DAC approaches (R265). -/
structure AoPin where
  word   : Word
  got    : Bool
  shut   : Bool
  drive  : Bool
  point  : Option Nat
  start  : Nat
  since  : Nat
  target : Nat
  dac    : Rat
  deriving DecidableEq, Repr

/-- The island itself. A configuration is the words of FLD_CFG, FLD_DIOi_CFG, FLD_AOj_CFG, FLD_AOj_TRIM and FLD_AIk_CFG
in this order. -/
structure Island where
  powered : Bool
  uv      : Bool
  /-- SAFE, its cause (timeout, marker), and the outputs-off form of R269. -/
  safe    : Bool
  silent  : Bool
  imm     : Bool
  cold    : Bool
  /-- The configuration in force, and a complete frame that waits for a COMMIT (R255). -/
  cfg     : Option (List Word)
  newCfg  : Option (List Word)
  /-- The mode whose outputs apply, the buffered image and the DIO states applied last. -/
  mode    : Mode
  image   : Option IslImage
  dout    : BitVec 16
  /-- Latched-off channels, driven outputs, and their levels when SAFE was latched and when Hold was entered. -/
  off     : BitVec 16
  dio     : BitVec 16
  atSafe  : BitVec 16
  atHold  : BitVec 16
  ao      : Vector AoPin 4
  /-- Filtered input states and how many successive samples disagreed. -/
  din     : BitVec 16
  agree   : Vector Nat 16
  /-- AI sample numbers, and disconnected burdens. -/
  seq     : Vector Byte 4
  prot    : Vector Bool 4
  /-- Tick-unit instant of the last valid heartbeat. -/
  beat    : Nat
  deriving DecidableEq, Repr

/-- The island and what the main die holds beside the FLD registers: the edge frame on its way (COMMIT, mode), whether the
island's acknowledgement is on its way, whether that of the most recent edge came, the configuration sent last, inputs
changed since the last Capture and as latched, the instants of the last AI samples with their ages at the edge, and whether the
island was last known to hold a valid configuration (R255). -/
structure Field where
  isl    : Island
  frame  : Option (Bool × Mode)
  ackDue : Bool
  acked  : Bool
  sent   : Option (List Word)
  dchgs  : BitVec 16
  dchg   : BitVec 16
  aiAt   : Vector Nat 4
  aiAge  : Vector Nat 4
  valid  : Bool
  deriving DecidableEq, Repr

def AoPin.reset : AoPin :=
  { word := 0x30000, got := false, shut := false, drive := false, point := none, start := 0, since := 0, target := 0,
    dac := 0 }

/-- The island at its power-up: SAFE latched with every output off, no configuration (R255, R269). -/
def Island.reset : Island :=
  { powered := true, uv := false, safe := true, silent := false, imm := false, cold := true, cfg := none, newCfg := none,
    mode := .commission, image := none, dout := 0, off := 0, dio := 0, atSafe := 0, atHold := 0,
    ao := Vector.replicate 4 AoPin.reset, din := 0, agree := Vector.replicate 16 0, seq := Vector.replicate 4 0,
    prot := Vector.replicate 4 false, beat := 0 }

def Field.reset : Field :=
  { isl := Island.reset, frame := none, ackDue := false, acked := false, sent := none, dchgs := 0, dchg := 0,
    aiAt := Vector.replicate 4 0, aiAge := Vector.replicate 4 0, valid := false }

/-! ## Tendril (14_tendril.md) -/

/-- A downlink: set-point code, SETV, mode, whether Trim was entered from Hold, and the Halt flag. -/
structure Downlink where
  set  : Nat
  setv : Bool
  mode : Mode
  org  : Mode
  halt : Bool
  deriving DecidableEq, Repr

/-- A HART request that the Tendril accepted: delimiter, address bytes, command, data, and its arrival. -/
structure HartReq where
  delim : Byte
  addr  : List Byte
  cmd   : Byte
  data  : List Byte
  deriving DecidableEq, Repr

/-- A reply record that GO sent: command, byte count, RXSEQ, and data. -/
structure HartReply where
  cmd   : Byte
  count : Nat
  seq   : Byte
  data  : List Byte
  deriving DecidableEq, Repr

/-- Where a memory command stands: its transfer, the programming of an accepted image, or cut off by a loss of loop power (R289 to
R291). -/
inductive NvStage where
  | transfer
  | program
  | lost
  deriving DecidableEq, Repr

/-- A memory command: the image sent, or none for a READ, and where it stands. -/
structure NvJob where
  image : Option (List Word)
  stage : NvStage
  deriving DecidableEq, Repr

/-- The Tendril, and what the main die holds of it beside the TDL registers. -/
structure Tendril where
  powered : Bool
  /-- Tick-unit instants of the start, the latest slot marker (none before the first) and the latest conversion. -/
  begun   : Nat
  slot    : Option Nat
  conv    : Nat
  /-- The first value is taken (R275); conversions done since the start or a memory write; the loop current is held until
  they are (R290). -/
  started : Bool
  settle  : Nat
  hold    : Bool
  /-- Sensor results, sequence numbers, successive bad conversions of each channel, faults. -/
  vin     : Word
  cin     : Word
  /-- The voltage code of the last conversion without a fault (R277). -/
  vgood   : Word
  vseq    : Byte
  cseq    : Byte
  vbad    : Nat
  ebad    : Nat
  cbad    : Nat
  sfV     : Bool
  sfC     : Bool
  refErr  : Bool
  /-- Its own memory by word (unlisted words read as shipped), whether its CRC fails, and NVBAD as found at the start. -/
  nv      : SMap Word
  nvFail  : Bool
  nvBad   : Bool
  /-- The latest valid downlink, slots since then, and silence (R281). -/
  down    : Option Downlink
  misses  : Nat
  silent  : Bool
  /-- The source and the code applied; what the DAC is driven to, in the same unit (R285); the point a trim step drives. -/
  src     : Nat
  code    : Nat
  dac     : Rat
  trim    : Option Nat
  /-- Flags that the uplink carries: restart, fold-back, HRXERR counts. -/
  restart : Bool
  foldB   : Bool
  rxErr   : Nat
  /-- The running memory command. -/
  job     : Option NvJob
  /-- The latest request, whether it waits for its record, whether it has arrived at the mirror; the reply on its way; the
  bytes of the last transmission. -/
  req     : Option HartReq
  reqNew  : Bool
  reqIn   : Bool
  reply   : Option HartReply
  sent    : List Byte
  rxSeq   : Byte
  txSeq   : Byte
  /-- The instant of the latest conversion that an uplink brought to the mirror, and µs from it to the edge, as latched. -/
  seen    : Nat
  age     : Nat
  deriving DecidableEq, Repr

def Tendril.reset : Tendril :=
  { powered := false, begun := 0, slot := none, conv := 0, started := false, settle := 0, hold := false, vin := 0,
    cin := 0, vgood := 0, vseq := 0, cseq := 0, vbad := 0, ebad := 0, cbad := 0, sfV := false, sfC := false, refErr := false,
    nv := [], nvFail := false, nvBad := false, down := none, misses := 0, silent := false, src := 0, code := 0, dac := 0,
    trim := none, restart := false, foldB := false, rxErr := 0, job := none, req := none, reqNew := false,
    reqIn := false, reply := none, sent := [], rxSeq := 0, txSeq := 0, seen := 0, age := 0 }

/-! ## Harness and safe brakes (15_harness.md, 16_brake.md) -/

/-- A function slot in one channel: its state (HRN_FUNC codes), whether DEMAND was entered from OK, whether an input was
accepted closed since, and the first hand of an ARMED slot (true: right). -/
structure HSlot where
  st     : Nat
  fromOk : Bool
  closed : Bool
  right  : Bool
  deriving DecidableEq, Repr

/-- One Harness channel: accepted levels (HI15..0, HRST in bit 16, HACK in bit 17), successive disagreeing samples, and
its slots. -/
structure HChan where
  lvl   : BitVec 18
  agree : Vector Nat 16
  slots : Vector HSlot 8
  /-- The most recent samples of HI; those before the test pulse in progress; the inputs that read low at a sample of it. -/
  raw     : BitVec 16
  before  : BitVec 16
  lowSeen : BitVec 16
  /-- The states of the slots as most recently received from the other channel (R302). -/
  got     : Vector Nat 8
  deriving DecidableEq, Repr

/-- The HQ counting of one channel: the count, the levels it saw last, and the count at the start of a hold step (R323, R327). -/
structure HqCount where
  n     : Int
  lvl   : BitVec 2
  start : Int
  deriving DecidableEq, Repr

/-- One brake. Times in cycles of 250 µs. -/
structure Brake where
  /-- Energised, and for how long; commanded off, for how long; de-energised with current above 30 mA, current outside its
  bounds, and a switch that reads on while off, for how long. -/
  on     : Bool
  onFor  : Nat
  offFor : Nat
  hotFor : Nat
  badFor : Nat
  swFor  : Nat
  fault  : Bool
  due    : Bool
  overdue   : Bool
  /-- Cycles since the last pass; none without one. -/
  age    : Option Nat
  /-- Test step (0 none), largest differences of either channel, HQERR during the test. -/
  step   : Nat
  move2  : Nat
  move5  : Nat
  hqErr  : Bool
  last   : Nat
  cause  : Nat
  count  : Nat
  /-- The HQ counts of channels A and B. -/
  hq     : Vector HqCount 2
  coilA  : Nat
  coilB  : Nat
  deriving DecidableEq, Repr

/-- A status frame on its way: register values, events (bit e: event 128 + e), sequence number, echo part (R298). -/
structure HFrame where
  vals   : List (Nat × Word)
  events : BitVec 16
  seq    : BitVec 16
  part   : Nat
  deriving DecidableEq, Repr

/-- The Harness die, and what the main die holds of it beside the HRN registers. -/
structure Harness where
  powered : Bool
  /-- HRN_STAT.STATE and FCODE. -/
  state   : Nat
  fcode   : Nat
  low     : Bool
  /-- The active configuration (the newer copy), the older copy, the pending configuration, the one being written, and a
  proposal on the sealing line (R315 to R317). -/
  active  : Option (List Byte)
  prev    : Option (List Byte)
  pend    : Option (List Byte)
  writing : Option (List Byte)
  line    : Option (List Byte)
  /-- Outcome of the last proposal: HRN_SEALSTAT as the next frame shows it. -/
  sealW   : Word
  a       : HChan
  b       : HChan
  /-- Cycles an input has differed between the channels, and cycles without an exchange. -/
  differ  : Vector Nat 16
  noEx    : Nat
  /-- Inputs that failed their latest test pulse, inputs that the latest pulse of each HT showed cross-connected to it, cycles
  of mask of each HT. -/
  tpBad   : BitVec 16
  cross   : Vector (BitVec 16) 8
  mask    : Vector Nat 8
  /-- Energised pairs, output faults, read-backs of both halves, and successive high samples of de-energised pins. -/
  pairs   : BitVec 4
  ofault  : BitVec 4
  readA   : BitVec 4
  readB   : BitVec 4
  highA   : Vector Nat 4
  highB   : Vector Nat 4
  sticky  : Word
  sticky2 : Word
  bsticky : Word
  rstCnt  : Word
  /-- A pending configuration stood when HACK rose, and no proposal and no energised pin since (R316). -/
  hackOk  : Bool
  brakes  : Vector Brake 2
  /-- Events whose cause no frame has carried yet. -/
  events  : BitVec 16
  seq     : BitVec 16
  part    : Nat
  frame   : Option HFrame
  /-- In the mirror: the last valid sequence number, and the echo parts received since the last change. -/
  seen    : Option (BitVec 16)
  echo    : BitVec 32
  deriving DecidableEq, Repr

def HSlot.reset : HSlot := { st := 0, fromOk := false, closed := false, right := false }
def HChan.reset : HChan :=
  { lvl := 0, agree := Vector.replicate 16 0, slots := Vector.replicate 8 HSlot.reset, raw := 0, before := 0, lowSeen := 0,
    got := Vector.replicate 8 0 }
def HqCount.reset : HqCount := { n := 0, lvl := 0, start := 0 }
def Brake.reset : Brake :=
  { on := false, onFor := 0, offFor := 0, hotFor := 0, badFor := 0, swFor := 0, fault := false, due := false, overdue := false,
    age := none, step := 0, move2 := 0, move5 := 0, hqErr := false, last := 0, cause := 0, count := 0,
    hq := Vector.replicate 2 HqCount.reset, coilA := 0, coilB := 0 }
def Harness.reset : Harness :=
  { powered := false, state := 3, fcode := 0, low := false, active := none, prev := none, pend := none, writing := none, line := none,
    sealW := 0, a := HChan.reset, b := HChan.reset, differ := Vector.replicate 16 0, noEx := 0, tpBad := 0, cross := Vector.replicate 8 0,
    mask := Vector.replicate 8 0, pairs := 0, ofault := 0, readA := 0, readB := 0, highA := Vector.replicate 4 0,
    highB := Vector.replicate 4 0, sticky := 0, sticky2 := 0, bsticky := 0, rstCnt := 0, hackOk := false,
    brakes := Vector.replicate 2 Brake.reset, events := 0, seq := 0, part := 0, frame := none, seen := none, echo := 0 }

/-! ## The whole block -/

/-- Everything the manual gives the device, but for the command queue. -/
structure Dev where
  /-- Tick units of 1/3 ns, stops included (R48, R49), and the instant of the release of the most recent reset. -/
  now     : Nat
  born    : Nat
  mode    : Mode
  /-- In Trim, the mode it was entered from (SYS_MODE.ORIGIN). -/
  origin  : Mode
  halted  : Bool
  /-- SYS_BOOTSTAT.READY. -/
  ready   : Bool
  /-- BOOT1 and BOOT0 as sampled. -/
  boot    : BitVec 2
  /-- A Hold-class fault waits for the next edge (R347). -/
  holdReq : Bool
  dramSz  : Nat
  fldLink : Bool
  tdlLink : Bool
  hrnLink : Bool
  /-- Counts the values that the manual leaves open; the model's own field (assumption 1). -/
  freeCtr : Nat
  tick    : Tick
  fu      : FaultUnit
  ev      : Events
  pw      : Power
  reins   : Reins
  pa      : Port
  pb      : Port
  cores   : Vector Core 6
  loader  : Loader
  carts   : List Cart
  fb      : Vector FbCh 16
  latches : Vector Latch 8
  axes    : Vector Axis 16
  groups  : Vector Group 4
  lanes   : Vector Lane 16
  prt     : Vector Prt 2
  vis     : Vis
  trees   : Trees
  field   : Field
  tdl     : Tendril
  hrn     : Harness
  cel     : Cellar
  /-- The register file: every register of the register map. -/
  regs    : SMap Word
  /-- Output ports that have no register (R81). -/
  outs    : SMap Word
  mon     : Mon
  idn     : Vector IdBus 4
  trim    : Trim
  sram    : Memory
  dram    : Memory
  /-- What unlisted bytes of DRAM read as: newest area first; 0 outside every area. -/
  areas   : List FreeArea
  deriving DecidableEq, Repr

/-- The machine: the device, its state as latched and committed at the end of the most recent Capture (what PIN, host
reads of data memory and the monitor's CORE return), and the commands that wait, first in, first out. -/
structure State where
  dev     : Dev
  snap    : Dev
  pending : List Instr
  deriving DecidableEq, Repr

/-! ## Reset -/

def Tick.reset : Tick :=
  { phase := .idle, edgeAt := 0, due := 0, count := 0, stopWork := false, stopAt := 0, slipCmd := false,
    slipGuard := false, slipFault := false, slipNext := false, abandoned := false, limitDone := false, staged := [], stagedNext := [],
    fracDone := 0 }

def FaultUnit.reset : FaultUnit := { stack := [], total := 0, logs := [], pulse := false, pulseEnd := 0, ran := false }

def Events.reset : Events := { land := 0, landTrig := 0, folded := 0, deferred := [] }

def Power.reset : Power := { stopped := false, awake := none, lastWake := 0, wakeReq := 0 }

def Reins.reset : Reins := { holder := none, hbLate := false, lastWin := .b }

def Port.reset (pcie : Bool) : Port :=
  { pcie := pcie, d3hot := false, msixOn := false, msixMask := false, bar0 := 0, bar3 := 0, inFlight := none, timed := [], cplPhase := true, modBusy := false,
    held := [], resp := [], marker := none, msgs := [], hiCount := 0, hiEdge := 0, hiTs := 0 }

def Core.reset : Core :=
  { g := Vector.replicate 32 0, f := Vector.replicate 16 0, a := Vector.replicate 4 0, p := 1, cst := 0, pc := 0,
    stack := [], lc := Vector.replicate 4 0, body := Vector.replicate 4 none, run := .idle, cyc := 0, ready := [],
    lastMac := none, cask := none, bad := 0, imem := [], consts := [], dmem := [], busy := 0, done := 0,
    err := 0 }

def Loader.reset : Loader := { image := none, next := none, fromCel := false, addr := 0, len := 0, changed := false }

def FbCh.reset : FbCh :=
  { cnt := 0, lvl := 0, lastTs := 0, lastDn := false, seen := false, refCnt := 0, refTs := 0, refOk := false,
    since := 0, edged := false, revved := false, rev := false, rezero := false, ofs := 0, revLast := false, fresh := false, prevCnt := 0, prevTs := 0,
    field := 0, fieldOk := false, inFrame := false, recover := 0, req := [], zarm := false, zpos := 0, raw := 0, rawC := 0, amp := 0, pos := 0,
    ts := 0, spd := 0, lspd := 0, dcnt := 0, dt := 0, pos1 := 0, caps := 0, edgePos := 0, edgeTs := 0, taken := false }

def Latch.reset : Latch :=
  { armed := false, waiting := none, result := none, lpos := 0, lts := 0, lvalid := false, lovr := false,
    lerr := false }

def Cellar.reset : Cellar := { array := [], durable := [], spill := [], journal := [], recs := [], dead := 0, live := 0, used := 0 }

/-- The device just after the release of reset, before the start-up steps of R124: straps read 0, memories read 0, every
register at its reset value, SYS_RSTCAUSE.POWER as the cause of a first power-up (assumptions 3 to 5). -/
def Dev.reset : Dev :=
  { now := 0, born := 0, mode := .startUp, origin := .commission, halted := false, ready := false, boot := 0, holdReq := false,
    dramSz := 0, fldLink := false, tdlLink := false, hrnLink := false, freeCtr := 0, tick := Tick.reset,
    fu := FaultUnit.reset, ev := Events.reset, pw := Power.reset, reins := Reins.reset, pa := Port.reset false,
    pb := Port.reset false, cores := Vector.replicate 6 Core.reset, loader := Loader.reset, carts := [],
    fb := Vector.replicate 16 FbCh.reset, latches := Vector.replicate 8 Latch.reset, axes := Vector.replicate 16 Axis.reset,
    groups := Vector.replicate 4 Group.reset, lanes := Vector.replicate 16 Lane.reset, prt := Vector.replicate 2 Prt.reset, vis := Vis.reset, trees := Trees.reset, field := Field.reset, tdl := Tendril.reset, hrn := Harness.reset,
    cel := Cellar.reset, regs := [(SYS_RSTCAUSE, 1)],
    outs := [], mon := Mon.reset, idn := Vector.replicate 4 IdBus.reset, trim := Trim.reset, sram := [], dram := [], areas := [] }

/-- The machine right after reset. -/
def State.reset : State := { dev := Dev.reset, snap := Dev.reset, pending := [] }

end Sys2Proof.Machine
end

