-- ==== Sys2Proof/Machine/Ops.lean ====
section
/-! DEFINITION. The named operations that every meaning goes through: registers, ports, sticky bits, events and their
delivery (19_events.md), faults (18_trouble.md), the log (17_cellar.md), and time. -/
namespace Sys2Proof

/-- Port numbers x: 0 for A, 1 for B. -/
def HostPort.num : HostPort → Nat
  | .a => 0
  | .b => 1

/-- The other port. -/
def HostPort.other : HostPort → HostPort
  | .a => .b
  | .b => .a

end Sys2Proof

namespace Sys2Proof.Machine

/-! ## Registers and ports -/

/-- The register at an address. -/
def Dev.reg (d : Dev) (a : Nat) : Word := smGet regReset d.regs a

/-- Set the register at an address. -/
def Dev.setReg (d : Dev) (a : Nat) (v : Word) : Dev := { d with regs := smSet regReset d.regs a v }

/-- Bits hi..lo of a register. -/
def Dev.fld (d : Dev) (a hi lo : Nat) : Nat := bits (d.reg a) hi lo

/-- Bit i of a register. -/
def Dev.flag (d : Dev) (a i : Nat) : Bool := bit (d.reg a) i

/-- Replace bits hi..lo of a register. -/
def Dev.setFld (a hi lo v : Nat) (d : Dev) : Dev := d.setReg a (setBits (d.reg a) hi lo v)

/-- Set or clear bit i of a register. -/
def Dev.setFlag (a i : Nat) (b : Bool) (d : Dev) : Dev := d.setReg a (setBit (d.reg a) i b)

/-- Add one to a counter register, modulo 2^32. -/
def Dev.count1 (a : Nat) (d : Dev) : Dev := d.setReg a (d.reg a + 1)

/-- An output port without a register: its committed value (reset 0). -/
def Dev.out (d : Dev) (p : Nat) : Word := smGet word0 d.outs p
def Dev.setOut (d : Dev) (p : Nat) (v : Word) : Dev := { d with outs := smSet word0 d.outs p v }

/-- The next value that the manual leaves open: the index of a free value (assumption 1). -/
def Dev.tickFree (d : Dev) : Dev := { d with freeCtr := d.freeCtr + 1 }

/-- A field value where it lies in its stated range, else a free value of that range (assumption 23). -/
def legalOr (d : Dev) (lo hi v : Nat) : Nat :=
  if lo ≤ v ∧ v ≤ hi then v else lo + (Config.freeWord d.freeCtr).toNat % (hi + 1 - lo)

/-- The same for the i-th of several open fields of one step, each of which takes a free value of its own. -/
def legalAt (d : Dev) (i lo hi v : Nat) : Nat :=
  if lo ≤ v ∧ v ≤ hi then v else lo + (Config.freeWord (d.freeCtr + i)).toNat % (hi + 1 - lo)

/-! ## Host ports and cores -/

def Dev.port (d : Dev) : HostPort → Port
  | .a => d.pa
  | .b => d.pb

def Dev.setPort (d : Dev) (p : HostPort) (x : Port) : Dev :=
  match p with
  | .a => { d with pa := x }
  | .b => { d with pb := x }

def Dev.core (d : Dev) (k : Fin 6) : Core := d.cores[k]
def Dev.setCore (d : Dev) (k : Fin 6) (c : Core) : Dev := { d with cores := d.cores.set k c }
def Dev.ch (d : Dev) (c : Fin 16) : FbCh := d.fb[c]
def Dev.setCh (d : Dev) (c : Fin 16) (x : FbCh) : Dev := { d with fb := d.fb.set c x }
def Dev.latch (d : Dev) (j : Fin 8) : Latch := d.latches[j]
def Dev.setLatch (d : Dev) (j : Fin 8) (x : Latch) : Dev := { d with latches := d.latches.set j x }

/-! ## Time -/

/-- An instant as a device timestamp: core cycles from reset (R48). -/
def Dev.stampAt (d : Dev) (t : Nat) : DWord := BitVec.ofNat 64 ((t - d.born) / 2)

/-- The device timestamp; in S3 and S4 it stands at the edge after which the tick stopped (R49). -/
def Dev.stamp (d : Dev) : DWord := d.stampAt (if d.pw.stopped then d.tick.edgeAt else d.now)

/-- The tick period in force, in tick units. -/
def Dev.period (d : Dev) : Nat := (d.reg TCK_PERIOD).toNat

/-- The per-core budget (R31). -/
def budget (p : Nat) : Nat := (p - 10500) / 2

/-- Time is at least the given tick-unit instant. -/
def Dev.reach (d : Dev) (t : Nat) : Dev := { d with now := max d.now t }

/-- The period of the running tick. -/
def Dev.tickLen (d : Dev) : Nat := d.tick.due - d.tick.edgeAt

/-- The instant of the edge at which the running tick began, plus an offset. -/
def Dev.reachTick (d : Dev) (ofs : Nat) : Dev := d.reach (d.tick.edgeAt + ofs)

/-- The cycles of Compute of the running tick (R31). -/
def Dev.tickBudget (d : Dev) : Nat := budget d.tickLen

/-- The last core cycle of Compute of the running tick, at which timed writes are accepted (R102). -/
def Dev.lastCycle (d : Dev) : Nat := d.tick.edgeAt + (d.tickLen - 6002)

/-- The instant of a core's present cycle, within its tick: Compute begins 4,500 tick units after the edge. -/
def Dev.coreTime (d : Dev) (k : Fin 6) : Nat := min (d.tick.edgeAt + 4500 + 2 * (d.core k).cyc) d.tick.due

/-- The instant that the device has reached: the latest command's, and the present cycle of every core whose program has run
in this tick. -/
def Dev.instant (d : Dev) : Nat :=
  (List.finRange 6).foldl (fun (t : Nat) (k : Fin 6) => if (d.core k).run = .idle then t else max t (d.coreTime k)) d.now

/-- The core cycle, counted from reset, of an instant. -/
def Dev.cycleAt (d : Dev) (t : Nat) : Nat := (t - d.born) / 2

/-- Time is at least the given timestamp. -/
def Dev.reachTs (d : Dev) (ts : DWord) : Dev := d.reach (d.born + 2 * ts.toNat)

/-! ## Modes -/

def Mode.num : Mode → Nat
  | .startUp => 0
  | .commission => 1
  | .run => 2
  | .hold => 3
  | .trim => 4

def Cls.num : Cls → Nat
  | .note => 0
  | .degrade => 1
  | .slip => 2
  | .hold => 3
  | .halt => 4

/-! ## Interrupt vectors (R112, R369) -/

/-- The address of the pending bits of a port: the MSI-X pending bit array, or HSTx_VECPEND on a quad-SPI port. -/
def pendAddr (d : Dev) (p : HostPort) : Nat :=
  if (d.port p).pcie then HST_PBA p.num 0 else HST_VECPEND p.num

/-- A vector is requested on a port: its pending bit is set. -/
def vecSet (p : HostPort) (v : Nat) (d : Dev) : Dev := Dev.setFlag (pendAddr d p) v true d

/-- A vector is requested on both ports. -/
def vecBoth (v : Nat) (d : Dev) : Dev := vecSet .b v (vecSet .a v d)

/-- The address of EVT_OVFx of a port. -/
def ovfAddr (p : HostPort) : Nat := EVT_OVF p.num

/-- An event routed to vector v of a port: a vector already pending merges it and sets EVT_OVFx (R369). Values below 4
route nowhere (R368). -/
def routeTo (p : HostPort) (v : Nat) (d : Dev) : Dev :=
  if v < 4 then d
  else if d.flag (pendAddr d p) v then Dev.setFlag (ovfAddr p) v true d
  else vecSet p v d

/-! ## Events (R365 to R372) -/

/-- Reserved event numbers (19_events.md, *Event sources*). -/
def evReserved (e : Nat) : Bool :=
  (decide (26 ≤ e) && decide (e ≤ 31)) || decide (e = 143) || decide (e = 159) ||
  decide (e = 167) || (decide (226 ≤ e) && decide (e ≤ 231)) || (decide (235 ≤ e) && decide (e ≤ 239)) ||
  decide (e = 247) || decide (256 ≤ e)

/-- Trigger unit k sees event e (R371). A hit named in MON_TRIGSTOP asks the monitor to hold the tick (R392). -/
def trigOne (e k : Nat) (d : Dev) : Dev :=
  let cfg := d.reg (EVT_TRIG_CFG k)
  if bit cfg 8 && decide (bits cfg 7 0 = e) then
    let d := d.setReg (EVT_TRIG_TICK k) (loWord d.tick.count)
    let d := d.setReg (EVT_TRIG_TSLO k) (loWord d.stamp)
    let d := d.setReg (EVT_TRIG_TSHI k) (hiWord d.stamp)
    let d := Dev.setFlag (EVT_TRIG_CFG k) 8 false d
    let d := Dev.setFlag EVT_TRIGSTAT k true d
    { d with ev := { d.ev with landTrig := d.ev.landTrig ||| BitVec.ofNat 4 (2 ^ k) },
             mon := { d.mon with trigHit := d.mon.trigHit ||| BitVec.ofNat 4 (2 ^ k) } }
  else d

/-- An event is raised: sticky bit, routes, landing and triggers. -/
def raiseNow (e : Nat) (d : Dev) : Dev :=
  if evReserved e then d
  else
    let d := Dev.setFlag (EVT_STICKY (e / 32)) (e % 32) true d
    let r := d.reg (EVT_ROUTE e)
    let d := if bit r 24 then { d with ev := { d.ev with land := d.ev.land ||| BitVec.ofNat 256 (2 ^ e) } } else d
    let d := routeTo .b (bits r 12 8) (routeTo .a (bits r 4 0) d)
    forAll 4 (trigOne e) d

/-- The power state chosen at the most recent edge. -/
def Dev.pstate (d : Dev) : Nat := d.fld SYS_PWRSTAT 2 0

/-- An event is raised; while the tick is stopped in S4 the always-on domain records it for the wake (19_events.md). -/
def raise (e : Nat) (d : Dev) : Dev :=
  if d.pw.stopped && decide (d.pstate = 4) then { d with ev := { d.ev with deferred := d.ev.deferred ++ [e] } }
  else raiseNow e d

/-- An event is raised when a condition holds. -/
def raiseIf (b : Bool) (e : Nat) (d : Dev) : Dev := if b then raise e d else d

/-! ## HSTx_STAT sticky bits: each set raises its event (events 32 + 8x to 38 + 8x) -/

def statBit (p : HostPort) (i ev : Nat) (d : Dev) : Dev :=
  raise (32 + 8 * p.num + ev) (Dev.setFlag (HST_STAT p.num) i true d)

def setRefuse (p : HostPort) (d : Dev) : Dev := statBit p 2 0 d
def setAccErr (p : HostPort) (d : Dev) : Dev := statBit p 1 1 d
def setDenied (p : HostPort) (d : Dev) : Dev := statBit p 3 2 d
def setLost (p : HostPort) (d : Dev) : Dev := statBit p 5 3 d
def setDisc (p : HostPort) (d : Dev) : Dev := statBit p 4 4 d
def setBadDb (p : HostPort) (d : Dev) : Dev := statBit p 6 5 d
def setSpiTo (p : HostPort) (d : Dev) : Dev := statBit p 7 6 d

/-! ## The log (R341, R342, R359) -/

/-- The array offset of a log record. -/
def logOfs (slot : Nat) : Nat := 0x64000 + 64 * slot

/-- The 64 bytes of a log record: its sequence number, source, CRC, TCK_COUNT and 48 data bytes. -/
def logRecord (seq : Word) (src : Nat) (count : DWord) (data : List Byte) : List Byte :=
  let body := leBytes count.toNat 8 ++ (data ++ List.replicate 48 0).take 48
  leBytes seq.toNat 4 ++ leBytes (src + (crcCcitt body).toNat * 65536) 4 ++ body

/-- Take the next log slot and sequence number, while LOGON reads 1; otherwise the record is dropped (R342). -/
def logAssign (d : Dev) : Option (Nat × Word) × Dev :=
  if d.flag CEL_STAT 8 then
    let slot := (d.reg CEL_LOGHEAD).toNat
    let seq := d.reg CEL_LOGSEQ
    (some (slot, seq), (d.setReg CEL_LOGHEAD (word ((slot + 1) % 1536))).setReg CEL_LOGSEQ (seq + 1))
  else (none, Dev.count1 CEL_DROPPED d)

def FRec.word0 (r : FRec) : Word :=
  word (r.ev % 256 + 256 * r.cls.num + 2048 * b2n r.pre + 4096 * b2n r.infp + 65536 * (r.id.toNat % 65536))

/-- Words 0 to 5 of a stack record. -/
def FRec.word (r : FRec) : Nat → Word
  | 0 => r.word0
  | 1 => r.detail
  | 2 => loWord r.ts
  | 3 => hiWord r.ts
  | 4 => loWord r.count
  | 5 => hiWord r.count
  | _ => 0

/-- The data of a fault log record (R359). -/
def FLog.data (l : FLog) (ovf : Word) : List Byte :=
  (List.range 6).flatMap (fun i => leBytes (l.rec_.word i).toNat 4) ++
  leBytes (b2n l.abandon + 2 * b2n l.dropped + 4 * b2n (l.rec_.cls = .note)) 4 ++ leBytes ovf.toNat 4 ++
  List.replicate 16 0

/-- One fault record is written to the log: its slot, its readable contents and, for the array, a pending write. -/
def logFault (l : FLog) (d : Dev) : Dev :=
  match logAssign d with
  | (none, d) => d
  | (some (slot, seq), d) =>
    let bs := logRecord seq 8 d.tick.count (l.data (d.reg FLT_OVF))
    { d with cel := { d.cel with array := d.cel.array.setBytes (logOfs slot) bs,
                                 recs := d.cel.recs ++ [⟨slot, seq, bs⟩] } }

/-- After the casks of an edge: at most 4 fault records are written, the rest is lost (R359). -/
def logEdge (d : Dev) : Dev :=
  let now := d.fu.logs.take 4
  let lost := (d.fu.logs.drop 4).length
  let d := now.foldl (fun d l => logFault l d) d
  let d := if lost = 0 then d else d.setReg FLT_LOGLOST (d.reg FLT_LOGLOST + word lost)
  { d with fu := { d.fu with logs := [] } }

/-- After a Halt every unwritten record is written, within 20 µs (R359). -/
def logFlush (d : Dev) : Dev :=
  let d := d.fu.logs.foldl (fun d l => logFault l d) d
  { d with fu := { d.fu with logs := [] } }

/-! ## Faults (R346 to R359) -/

/-- FAULT_N is driven low (R356, R358). -/
def faultLow (d : Dev) : Bool := d.halted || d.flag FLT_STAT 4 || d.flag FLT_STAT 5 || d.fu.pulse

/-- A change, with vector 2 at a high-to-low transition of FAULT_N (R358). -/
def watchFaultN (f : Dev → Dev) (d : Dev) : Dev :=
  let d' := f d
  if !faultLow d && faultLow d' then vecBoth 2 d' else d'

/-- A pulse falls due on FAULT_N: the pin is low until PULSE µs after it (R358). -/
def pulseDue (d : Dev) : Dev :=
  let d := Dev.count1 FLT_PULSECNT d
  { d with fu := { d.fu with pulse := true, pulseEnd := d.now + 3000 * d.fld FLT_CFG 7 0 } }

/-- A record moved down in the stack. -/
def FRec.preempted (r : FRec) : FRec := { r with pre := true }

/-- The stack after a record arrives, and the record that is dropped, if any: of three, the newest of the lowest class;
the higher class is on top, and the old top record at equal class (R349). -/
def stackPush (n : FRec) : List FRec → List FRec × Option FRec
  | [] => ([n], none)
  | [t] => if t.cls.num < n.cls.num then ([n, t.preempted], none) else ([t, n], none)
  | t :: w :: _ =>
    let low := min n.cls.num (min t.cls.num w.cls.num)
    if n.cls.num = low then ([t, w], some n)
    else if w.cls.num = low ∧ (t.cls.num ≠ low ∨ t.id.toNat < w.id.toNat) then
      (if t.cls.num < n.cls.num then ([n, t.preempted], some w) else ([t, n], some w))
    else (if w.cls.num < n.cls.num then ([n, w], some t) else ([w, n], some t))

/-- The running tick is abandoned by a fault: its work stops at once (R41, R43). No tick runs while the tick is idle. -/
def abandonBy (guard : Bool) (d : Dev) : Dev :=
  if d.tick.phase = .idle then d
  else { d with tick := { d.tick with stopWork := true, stopAt := if d.tick.stopWork then d.tick.stopAt else d.now,
                                      slipGuard := d.tick.slipGuard || guard,
                                      slipFault := d.tick.slipFault || !guard } }

/-- A log record that is still to be written, after a record has arrived: PRE and DROPPED as they now stand (R349, R359). -/
def FLog.arrived (st : List FRec) (drop : Option FRec) (l : FLog) : FLog :=
  { l with rec_ := ((drop.toList ++ st).find? (fun r => decide (r.id = l.rec_.id))).getD l.rec_,
           dropped := l.dropped || drop.any (fun r => decide (r.id = l.rec_.id)) }

/-- A fault of class Degrade or higher enters the stack (R349); events 216 and 217, and its log record (R359). -/
def enterStack (r : FRec) (abandon : Bool) (d : Dev) : Dev :=
  let (st, drop) := stackPush r d.fu.stack
  let log : FLog := { rec_ := r, abandon := abandon, dropped := false }
  let d := { d with fu := { d.fu with stack := st, logs := (d.fu.logs ++ [log]).map (FLog.arrived st drop) } }
  let d := raise 216 d
  match drop with
  | none => d
  | some _ => raise 217 (Dev.setFlag FLT_STAT 3 true (Dev.count1 FLT_OVF d))

/-- The running trim step fails with a code: STATE 3, POINT 0, no drive, event 233 (R375, R376). -/
def trimFail (code : Nat) (d : Dev) : Dev :=
  if d.fld TRM_STAT 1 0 = 1 then
    let d := Dev.setFld TRM_STAT 19 16 code (Dev.setFld TRM_STAT 13 12 0 (Dev.setFld TRM_STAT 1 0 3 d))
    let x := d.field.isl
    let d := { d with trim := { d.trim with points := 0, ended := none }, tdl := { d.tdl with trim := none },
                      field := { d.field with isl := { x with ao := x.ao.map (fun a => { a with point := none }) } } }
    raise 233 (Dev.count1 TRM_COUNT d)
  else d

/-- A running two-point step whose island's link is lost ends with code 6; the island's own silence handling ends the drive
(steps 3 and 4 of 20_trim.md). -/
def trimLinkLost (step : Nat) (d : Dev) : Dev :=
  if decide (d.fld TRM_STAT 1 0 = 1) && decide (d.fld TRM_STAT 7 4 = step) && d.trim.ended.isNone then
    Dev.setFld TRM_STAT 13 12 0 { d with trim := { d.trim with ended := some (6, []) } }
  else d

/-- A Halt takes the outputs to their Halt states: no lane drives, no print strobe stays high (R120, R121). -/
def haltOutputs (d : Dev) : Dev :=
  { d with lanes := d.lanes.map (fun l => { l with drive := false, next := none, wait := none }),
           prt := d.prt.map (fun x => { x with firing := x.firing.map (fun f => { f with strobe := false }) }) }

/-- The effects that hardware applies at detection of a fault of a class (R347, R357, R358). A Halt stops the tick, ends a
trim step (R377), and every unwritten record is written to the log (R121, R359). -/
def applyClass (c : Cls) (d : Dev) : Dev :=
  match c with
  | .note => d
  | .degrade => pulseDue (Dev.setFlag FLT_STAT 2 true d)
  | .slip => pulseDue (Dev.setFlag FLT_STAT 1 true d)
  | .hold => { Dev.setFlag FLT_STAT 4 true d with holdReq := true }
  | .halt => raise 219 (logFlush (trimFail 7 (haltOutputs { d with
      halted := true, tick := { d.tick with phase := .idle, stopWork := true } })))

/-- A fault is detected: source event `ev`, its class, its DETAIL word, whether it arose in the fault program, whether it
abandons its tick, and whether that counts as GUARD (R42, R347 to R353). -/
def faultAt (ev : Nat) (c : Cls) (detail : Word) (infp abandon guard : Bool) (d : Dev) : Dev :=
  watchFaultN (fun d =>
    let d := raise ev d
    let r : FRec := { ev := ev, cls := c, pre := false, infp := infp, id := 0, detail := detail, ts := d.stamp,
                      count := d.tick.count }
    if c = .note then
      let d := Dev.count1 FLT_NOTES d
      if d.flag FLT_CFG 8 then { d with fu := { d.fu with logs := d.fu.logs ++ [⟨r, false, false⟩] } } else d
    else
      let d := { d with fu := { d.fu with total := d.fu.total + 1 } }
      let r := { r with id := d.fu.total }
      let d := if abandon then abandonBy guard d else d
      applyClass c (enterStack r abandon d)) d

/-- A fault of its event's fixed class (R367). -/
def fault (ev : Nat) (c : Cls) (detail : Word) (d : Dev) : Dev :=
  faultAt ev c detail false (c = .slip) (ev = 3) d

/-- An engine's read of n bytes of tick SRAM at an address meets an error: event 224, a Note, or 225, a Slip fault (R367). -/
def sramErr (err : Option Sys2Proof.SramError) (a n : Nat) (d : Dev) : Dev :=
  match err with
  | none => d
  | some e =>
    if a ≤ e.addr ∧ e.addr < a + n then
      if e.uncorrectable then fault 225 .slip (word e.addr) d.tickFree else fault 224 .note (word e.addr) d
    else d

/-- The bytes of that read: the 64-bit word of an uncorrectable error is open (assumption 112). -/
def sramData (err : Option Sys2Proof.SramError) (a : Nat) (bs : List Byte) (d : Dev) : List Byte :=
  match err with
  | none => bs
  | some e =>
    if e.uncorrectable then
      bs.zipIdx.map (fun x => if (a + x.2) / 8 = e.addr / 8 then Config.freeByte d.freeCtr x.2 else x.1)
    else bs

/-- The record with an ID leaves the stack at the edge at which its POP commits (R352). -/
def popFault (id : Nat) (d : Dev) : Dev :=
  let hit := fun (r : FRec) => decide (r.id.toNat % 65536 = id)
  match d.fu.stack with
  | [] => Dev.setFlag FLT_STAT 8 true d
  | t :: rest =>
    if hit t then { d with fu := { d.fu with stack := rest } }
    else match rest with
      | [] => Dev.setFlag FLT_STAT 8 true d
      | w :: _ => if hit w then { d with fu := { d.fu with stack := [t] } } else Dev.setFlag FLT_STAT 8 true d

/-- FLT_DEPTH (18_trouble.md). -/
def fltDepth (d : Dev) : Word :=
  match d.fu.stack with
  | [] => 0
  | [t] => word (1 + 16 * t.cls.num)
  | t :: w :: _ => word (2 + 16 * t.cls.num + 256 * w.cls.num)

/-- Word w of record i of the stack; 0 when absent. -/
def fltRec (d : Dev) (i w : Nat) : Word :=
  match d.fu.stack[i]? with
  | some r => r.word w
  | none => 0

/-- FLT_STAT as it reads. -/
def fltStat (d : Dev) : Word :=
  setBit (setBit (d.reg FLT_STAT) 0 (faultLow d)) 7 d.halted

/-! ## Whether the tick runs -/

/-- The monitor holds the tick (R391). -/
def monHeld (d : Dev) : Bool := d.flag MON_STAT 1

/-- The parts of the tick advance: READY, no Halt, and the tick neither stopped (R49) nor held (R391). -/
def ticking (d : Dev) : Bool := d.ready && !d.halted && !d.pw.stopped && !monHeld d

/-- What acts at a committing edge acts while the tick runs: no edge commits before READY (R124), after a Halt (R121), in S3
and S4 (R49), or while the monitor holds the tick (R391). -/
def atEdge (f : Dev → Dev) (s : State) : Host.Outcome State Fault Refusal :=
  .next { s with dev := if ticking s.dev then f s.dev else s.dev }

/-- What a block does by itself, once the start-up sequencer has set READY (R124). -/
def onReady (f : Dev → Dev) (s : State) : Host.Outcome State Fault Refusal :=
  .next { s with dev := if s.dev.ready then f s.dev else s.dev }

/-! ## Slips (R42) -/

/-- A commanded slip abandons a tick that R38 assigns: the running one before Stage, else the next. -/
def commandSlip (d : Dev) : Dev :=
  match d.tick.phase with
  | .capture | .compute => { d with tick := { d.tick with slipCmd := true } }
  | .stage | .idle => { d with tick := { d.tick with slipNext := true } }

/-- The running tick is to be abandoned. -/
def Tick.abandoning (t : Tick) : Bool := t.slipCmd || t.slipGuard || t.slipFault

/-! ## Lane trips (R210) -/

def Dev.axis (d : Dev) (n : Fin 16) : Axis := d.axes[n]
def Dev.setAxis (d : Dev) (n : Fin 16) (x : Axis) : Dev := { d with axes := d.axes.set n x }
def Dev.group (d : Dev) (g : Fin 4) : Group := d.groups[g]
def Dev.setGroup (d : Dev) (g : Fin 4) (x : Group) : Dev := { d with groups := d.groups.set g x }
def Dev.lane (d : Dev) (n : Fin 16) : Lane := d.lanes[n]
def Dev.setLane (d : Dev) (n : Fin 16) (x : Lane) : Dev := { d with lanes := d.lanes.set n x }

/-- AXn_CFG.KIND: 0 off, 1 servo, 2 chopper stepper, 3 step/direction (R162). -/
def Dev.kind (d : Dev) (n : Nat) : Nat := d.fld (AX_CFG n) 1 0

/-- Lane n trips: the cause bit and TRIP of CTLn_STAT, event 80 + n as a Degrade fault, its outputs inactive; the next edge
commits EN = 0 (R210). A lane that stands tripped only records the further cause (assumption 34). -/
def laneTrip (n : Fin 16) (cause : Nat) (d : Dev) : Dev :=
  let was := d.flag (CTL_STAT n) 9
  let d := Dev.setFlag (CTL_STAT n) 9 true (Dev.setFlag (CTL_STAT n) cause true d)
  if was then d
  else
    let d := d.setLane n { d.lane n with drive := false, next := none, wait := none, tripped := true }
    fault (80 + n) .degrade (word (d.fld (CTL_STAT n) 9 0)) d

/-- CTLn_STAT bits ISAT, LAWNAN and CFGERR raise event 80 + n when they go from 0 to 1, without a trip (R210). -/
def laneNote (n : Fin 16) (i : Nat) (d : Dev) : Dev :=
  if d.flag (CTL_STAT n) i then d else raise (80 + n) (Dev.setFlag (CTL_STAT n) i true d)

/-! ## Two-point trim (R265, R285) -/

/-- The DAC value for a demanded value I with the trims of R265: (I - b) / a, where a = 1 / (1 + GAIN × 2^-20) and
b = -OFS × 0.01 µA × a; `unit` is 0.01 µA in the unit of I. -/
def trimmedDac (trim : Word) (unit i : Rat) : Rat :=
  i * (1 + mkRat (signed 16 (bits trim 31 16)) (2 ^ 20)) + (signed 16 (bits trim 15 0) : Rat) * unit

/-! ## Staging (R38 to R40) -/

/-- Writes of one core cycle: cores L0 to L5, the control engine, Trellis, then port A and port B, each with its direct
writes before its timed ones (R39, R102); a monitor write comes last (assumption 104). -/
def Writer.rank : Writer → Nat
  | .core k => k
  | .engine => 7
  | .host p => 8 + 2 * p.num
  | .timed p => 9 + 2 * p.num
  | .monitor => 12

/-- The first of two staged writes was accepted before the second, or in its cycle with a rank no higher. -/
def Staged.before (x y : Staged) : Bool :=
  decide (x.at_ < y.at_) || (decide (x.at_ = y.at_) && decide (x.by_.rank ≤ y.by_.rank))

/-- A staged write takes its place behind those accepted before it or with it. -/
def insertStaged (x : Staged) : List Staged → List Staged
  | [] => [x]
  | y :: l => if y.before x then y :: insertStaged x l else x :: y :: l

/-- Staged writes in the order of acceptance (R39). -/
def inOrder (l : List Staged) : List Staged := l.foldl (fun acc x => insertStaged x acc) []

/-- A write is staged in the running tick, accepted in a core cycle. -/
def stageAt (cycle : Nat) (by_ : Writer) (w : Write) (d : Dev) : Dev :=
  { d with tick := { d.tick with staged := d.tick.staged ++ [⟨by_, w, cycle⟩] } }

/-- A program's write, accepted in the core cycle in which its instruction retires, the last that it occupies (R39). -/
def stage (k : Fin 6) (w : Write) (d : Dev) : Dev :=
  stageAt (d.cycleAt (d.tick.edgeAt + 4500 + 2 * ((d.core k).cyc - 1))) (.core k) w d

/-- A host write takes its place: in the running tick before the start of Stage, else in the next (R38, R101). It is accepted
when its port completes it, which the running tick counts to its last cycle of Compute. -/
def stageHost (by_ : Writer) (w : Write) (d : Dev) : Dev :=
  match d.tick.phase with
  | .capture | .compute => stageAt (d.cycleAt (min d.instant d.lastCycle)) by_ w d
  | .stage | .idle =>
    { d with tick := { d.tick with stagedNext := d.tick.stagedNext ++ [⟨by_, w, d.cycleAt d.now⟩] } }

/-- A direct staged write of a host port; timed writes have acceptance of their own (assumption 31). -/
def Writer.ofPort (p : HostPort) : Writer → Bool
  | .host q => decide (q = p)
  | _ => false

/-- The host writes of a port in the staging area it would join now (R40). -/
def stagedBy (p : HostPort) (d : Dev) : Nat :=
  let l := match d.tick.phase with
    | .capture | .compute => d.tick.staged
    | .stage | .idle => d.tick.stagedNext
  (l.filter (fun s => s.by_.ofPort p)).length

end Sys2Proof.Machine
end

