-- ==== Sys2Proof/Machine/Operands.lean ====
section
/-! DEFINITION. The operand forms of the Limath formats (03_limath.md, *Instruction formats*): fields of bits 19..0, the
registers they name, and which field contents are listed encodings (R55). -/
namespace Sys2Proof.Machine

/-- Bits hi..lo of an instruction word's low 20 bits. -/
def lf (o : Sys2Proof.Lim) (hi lo : Nat) : Nat := bits o.w hi lo

def rdOf (o : Sys2Proof.Lim) : Nat := lf o 19 15
def raOf (o : Sys2Proof.Lim) : Nat := lf o 14 10
def rbOf (o : Sys2Proof.Lim) : Nat := lf o 9 5
def fnOf (o : Sys2Proof.Lim) : Nat := lf o 4 0
/-- imm10, signed and zero-extended. -/
def imm10 (o : Sys2Proof.Lim) : Int := signed 10 (lf o 9 0)
def uimm10 (o : Sys2Proof.Lim) : Nat := lf o 9 0
/-- imm15, signed and as an index. -/
def imm15 (o : Sys2Proof.Lim) : Int := signed 15 (lf o 14 0)
def idx15 (o : Sys2Proof.Lim) : Nat := lf o 14 0
/-- Format C. -/
def pdOf (o : Sys2Proof.Lim) : Nat := lf o 19 17
def ccOf (o : Sys2Proof.Lim) : Nat := lf o 16 15
/-- Format A. -/
def kOf (o : Sys2Proof.Lim) : Nat := lf o 11 10
def shOf (o : Sys2Proof.Lim) : Nat := lf o 9 4
def rndOf (o : Sys2Proof.Lim) : Nat := lf o 3 3
/-- Format X: the file selector and the byte address of the port. -/
def fSel (o : Sys2Proof.Lim) : Bool := decide (lf o 14 14 = 1)
def portOf (o : Sys2Proof.Lim) : Nat := 4 * lf o 13 0
/-- Format M. -/
def coreOf (o : Sys2Proof.Lim) : Nat := lf o 14 12
def boxOf (o : Sys2Proof.Lim) : Nat := lf o 11 6
/-- Format D. -/
def dIdx (o : Sys2Proof.Lim) : Nat := lf o 5 0
/-- Format B. -/
def targetOf (o : Sys2Proof.Lim) : BitVec 14 := BitVec.ofNat 14 (lf o 13 0)
/-- Formats L and LR. -/
def lvlOf (o : Sys2Proof.Lim) : Nat := lf o 19 18
def countOf (o : Sys2Proof.Lim) : Nat := lf o 15 0
def lraOf (o : Sys2Proof.Lim) : Nat := lf o 17 13
def boundOf (o : Sys2Proof.Lim) : Nat := lf o 12 0

/-! ## Registers: g0 reads 0, p0 reads 1, and writes to them are ignored (R50) -/

def Core.gr (c : Core) (i : Nat) : Word := if i = 0 then 0 else c.g[Fin.ofNat 32 i]
def Core.setG (c : Core) (i : Nat) (v : Word) : Core :=
  if i = 0 then c else { c with g := c.g.set (Fin.ofNat 32 i) v }
def Core.fr (c : Core) (i : Nat) : Word := c.f[Fin.ofNat 16 i]
def Core.setF (c : Core) (i : Nat) (v : Word) : Core := { c with f := c.f.set (Fin.ofNat 16 i) v }
def Core.ac (c : Core) (i : Nat) : DWord := c.a[Fin.ofNat 4 i]
def Core.setA (c : Core) (i : Nat) (v : DWord) : Core := { c with a := c.a.set (Fin.ofNat 4 i) v }
def Core.pr (c : Core) (i : Nat) : Bool := decide (i = 0) || bit c.p i
def Core.setP (c : Core) (i : Nat) (b : Bool) : Core :=
  if i = 0 then c
  else { c with p := if b then c.p ||| BitVec.ofNat 8 (2 ^ i) else c.p &&& ~~~ BitVec.ofNat 8 (2 ^ i) }

/-- The keys of the registers in `Core.ready`. -/
def kg (i : Nat) : Nat := i
def kf (i : Nat) : Nat := 32 + i
def ka (i : Nat) : Nat := 48 + i
def kp (i : Nat) : Nat := 56 + i

/-! ## Listed encodings (R55) -/

/-- A field that names an f register, an accumulator or a predicate. -/
def okF (i : Nat) : Bool := decide (i < 16)
def okA (i : Nat) : Bool := decide (i < 4)
def okP (i : Nat) : Bool := decide (i < 8)
def even (i : Nat) : Bool := decide (i % 2 = 0)

/-- Format R with rd, ra, rb and fn in a range; unnamed fields are 0. -/
def okR (o : Sys2Proof.Lim) (maxFn : Nat) : Bool := decide (fnOf o ≤ maxFn)
def okRa (o : Sys2Proof.Lim) (maxFn : Nat) : Bool := okR o maxFn && decide (rbOf o = 0)
def okA3 (o : Sys2Proof.Lim) : Bool := decide (lf o 14 12 = 0) && decide (lf o 2 0 = 0)
def okB (o : Sys2Proof.Lim) : Bool := decide (lf o 19 14 = 0)
def okL (o : Sys2Proof.Lim) : Bool := decide (lf o 17 16 = 0)
def okF3 (o : Sys2Proof.Lim) (maxFn : Nat) : Bool :=
  okR o maxFn && okF (rdOf o) && okF (raOf o) && okF (rbOf o)
def okF2 (o : Sys2Proof.Lim) (maxFn : Nat) : Bool := okRa o maxFn && okF (rdOf o) && okF (raOf o)
def okPair (o : Sys2Proof.Lim) : Bool := even (rdOf o)
def okFrd (o : Sys2Proof.Lim) : Bool := okF (rdOf o)

end Sys2Proof.Machine
end

