-- ==== Sys2Proof/Machine/Flags.lean ====
section
/-! DEFINITION. CST bits, saturation and the comparisons of the Limath instructions (03_limath.md). -/
namespace Sys2Proof.Machine

/-- Set CST bits: SAT 0, DZ 1, FNV 2, FOV 3, FNAN 4, LCL 5, CBSY 6, CEC 7. -/
def Core.sticky (c : Core) (m : Nat) : Core := { c with cst := c.cst ||| word m }

/-- An exact integer clamped to a destination range, with SAT when it clamps. -/
def sat (lo hi x : Int) : Int × Nat := if x < lo then (lo, 1) else if hi < x then (hi, 1) else (x, 0)

def satS32 (x : Int) : Word × Nat := let r := sat (-(2 ^ 31)) (2 ^ 31 - 1) x; (wordI r.1, r.2)
def satU32 (x : Int) : Word × Nat := let r := sat 0 (2 ^ 32 - 1) x; (wordI r.1, r.2)
def satS64 (x : Int) : DWord × Nat := let r := sat (-(2 ^ 63)) (2 ^ 63 - 1) x; (BitVec.ofInt 64 r.1, r.2)

/-- The operand value that a signed or unsigned form reads. -/
def valOf (unsigned : Bool) (w : Word) : Int := if unsigned then (w.toNat : Int) else w.toInt

/-- CMP's conditions by fn (0 EQ to 9 GTU). -/
def condI : Nat → Word → Word → Bool
  | 0, a, b => decide (a = b)
  | 1, a, b => decide (a ≠ b)
  | 2, a, b => decide (a.toInt < b.toInt)
  | 3, a, b => decide (b.toInt ≤ a.toInt)
  | 4, a, b => decide (a.toNat < b.toNat)
  | 5, a, b => decide (b.toNat ≤ a.toNat)
  | 6, a, b => decide (a.toInt ≤ b.toInt)
  | 7, a, b => decide (b.toInt < a.toInt)
  | 8, a, b => decide (a.toNat ≤ b.toNat)
  | _, a, b => decide (b.toNat < a.toNat)

/-- FCMP's conditions by fn, with a NaN operand 0 but for NE and UN (R60). -/
def condF : Nat → Word → Word → Bool
  | 0, a, b => eqF b32 a.toNat b.toNat
  | 1, a, b => !eqF b32 a.toNat b.toNat
  | 2, a, b => ltF b32 a.toNat b.toNat
  | 3, a, b => leF b32 b.toNat a.toNat
  | 4, a, b => leF b32 a.toNat b.toNat
  | 5, a, b => ltF b32 b.toNat a.toNat
  | _, a, b => unordF b32 a.toNat b.toNat

/-- PLOG's operations by fn. -/
def plogOp : Nat → Bool → Bool → Bool
  | 0, a, b => a && b
  | 1, a, b => a || b
  | 2, a, b => a != b
  | 3, a, b => a && !b
  | _, a, _ => !a

/-- DIV (R58): result and CST bits. -/
def divOp (unsigned : Bool) (a b : Word) : Word × Nat :=
  if unsigned then (if b = 0 then (0xFFFFFFFF, 2) else (word (a.toNat / b.toNat), 0))
  else if b = 0 then (if 0 ≤ a.toInt then 0x7FFFFFFF else 0x80000000, 2)
  else satS32 (a.toInt.tdiv b.toInt)

/-- REM (R58): result and CST bits. -/
def remOp (unsigned : Bool) (a b : Word) : Word × Nat :=
  if b = 0 then (a, 2)
  else if unsigned then (word (a.toNat % b.toNat), 0) else (wordI (a.toInt.tmod b.toInt), 0)

/-- Shifts with counts of 32 or more (SHL, SHR, SAR). -/
def shlW (a : Word) (n : Nat) : Word := if 32 ≤ n then 0 else a <<< n
def shrW (a : Word) (n : Nat) : Word := if 32 ≤ n then 0 else a >>> n
def sarW (a : Word) (n : Nat) : Word := a.sshiftRight (min n 31)
def rorW (a : Word) (n : Nat) : Word := a.rotateRight (n % 32)

/-- SHI's mode, imm10[6:5]. -/
def shiOp (mode : Nat) (a : Word) (n : Nat) : Word :=
  match mode with
  | 0 => shlW a n
  | 1 => shrW a n
  | 2 => sarW a n
  | _ => rorW a n

/-- BFX and BFI on fields at lsb of width w. -/
def bfxOp (a : Word) (lsb w : Nat) : Word := word (a.toNat / 2 ^ lsb % 2 ^ w)
def bfiOp (d a : Word) (lsb w : Nat) : Word :=
  let m := word ((2 ^ w - 1) * 2 ^ lsb)
  (d &&& ~~~ m) ||| (word (a.toNat * 2 ^ lsb) &&& m)

/-- CLAMP: min(max(d, a), b), signed (R59). -/
def clampW (d a b : Word) : Word :=
  let t := if d.toInt < a.toInt then a else d
  if b.toInt < t.toInt then b else t

/-- The halves of a word, signed. -/
def loS (w : Word) : Int := signed 16 w.toNat
def hiS (w : Word) : Int := signed 16 (w.toNat / 65536)

/-- FCLAMP: FMIN(FMAX(d, a), b), each under R61. -/
def fclampW (d a b : Word) : FRes :=
  let t := maxF b32 d.toNat a.toNat
  let r := minF b32 t.w b.toNat
  ⟨r.w, r.cst⟩

/-- AEXT: (a + rnd * 2^(sh-1)) >> sh, saturated to 32 bits. -/
def aextOp (a : DWord) (sh rnd : Nat) : Word × Nat :=
  let r : Int := if sh = 0 then 0 else (rnd * 2 ^ (sh - 1) : Nat)
  satS32 ((a.toInt + r) / 2 ^ sh)

/-- ASHL: a left shift that saturates, or an arithmetic right shift. -/
def ashlOp (a : DWord) (sh : Nat) (right : Bool) : DWord × Nat :=
  if right then (a.sshiftRight sh, 0) else satS64 (a.toInt * 2 ^ sh)

end Sys2Proof.Machine
end

