-- ==== Sys2Proof/Machine/LimathOps.lean ====
section
/-! DEFINITION. Issuing one Limath instruction: what every instruction does before, around and after its own operation
(03_limath.md: fetch errors, illegal encodings, predication R53, stalls R56, exceptions R348, R353). -/
namespace Sys2Proof.Machine

/-- Exception codes (03_limath.md, *Exceptions*). -/
def excClass (code : Nat) : Cls := if code ≤ 4 then .slip else .hold

/-- The fault program runs (R351). -/
def fpRunning (d : Dev) : Bool := d.cores.toList.any (fun c => decide (c.run = .fault))

/-- A fault of class Hold escalated from a fault of the fault core in its fault program: event 218, INFP, the original
event in DETAIL, and FPDIS set (R353). The original event is raised as well (assumption 30). -/
def escalate (ev : Nat) (guard : Bool) (d : Dev) : Dev :=
  watchFaultN (fun d => Dev.setFlag FLT_STAT 5 true (faultAt 218 .hold (word ev) true true guard (raise ev d))) d

/-- Core k stops with an exception: LIMk_EXC, LIMk_EXCPC, the fault and the abandoned tick (R348). -/
def limExc (k : Fin 6) (code : Nat) (d : Dev) : Dev :=
  let d := d.reach (d.coreTime k)
  let c := d.core k
  let inFault := c.run = .fault
  let d := d.setCore k { c with run := .stopped }
  let d := d.setReg (LIM_EXC k) (word (0x80000000 + code))
  let d := d.setReg (LIM_EXCPC k) (c.pc.setWidth 32)
  if inFault then escalate (16 + k) false d
  else faultAt (16 + k) (excClass code) (word (code + 16 * k + 65536 * c.pc.toNat)) (fpRunning d) true false d

/-- A corrected error in a core's memories: CST.CEC and a Note (event 22; the memory in DETAIL bits 1..0). -/
def limCec (k : Fin 6) (memory : Nat) (d : Dev) : Dev :=
  fault 22 .note (word (16 * k + memory)) (d.setCore k ((d.core k).sticky 128))

/-- A core issues instructions: Compute runs and has a cycle left for it, its work is not stopped, and it runs its tick or
fault program (R31, R33, R43, R52). When a fault has stopped the work, cores still issue up to that core cycle, as faults of one
cycle are all detected (R350). -/
def issuing (d : Dev) (k : Fin 6) : Bool :=
  decide (d.tick.phase = .compute) && decide ((d.core k).cyc < d.tickBudget) && (!d.tick.stopWork || decide (d.coreTime k ≤ d.tick.stopAt)) && !d.halted &&
    (decide ((d.core k).run = .tick) || decide ((d.core k).run = .fault))

/-- The predicate of the instruction holds (R53). -/
def predOn (o : Sys2Proof.Lim) (c : Core) : Bool := c.pr o.pn.toNat != o.inv

/-- PI = 1 with PN = 0 is an illegal encoding (R53). -/
def okPred (o : Sys2Proof.Lim) : Bool := !(o.inv && decide (o.pn = 0))

/-- The stall of an instruction that reads these registers (R56); g0 and p0 have no producer. -/
def stallOf (c : Core) (reads : List Nat) : Nat :=
  maxList (reads.map (fun r => if r = kg 0 ∨ r = kp 0 then 0 else smGet (fun _ => 0) c.ready r - c.cyc))

/-- The instruction occupies the issue slot for `cost` cycles from its issue, and its results are ready `lat` cycles
after it issued. -/
def Core.retire (c : Core) (issue cost lat : Nat) (dsts : List Nat) : Core :=
  { c with cyc := issue + cost, lastMac := none, pc := c.pc + 1,
           ready := dsts.foldl (fun m r => smSet (fun _ => 0) m r (issue + max lat cost)) c.ready }

/-- A predicated-off instruction retires in one cycle with no effect (R53). A MAC that follows one has no MAC immediately before
it (DESIGN CHOICE, assumption 118). -/
def skipOff (k : Fin 6) (d : Dev) : Dev :=
  let c := d.core k
  d.setCore k { c with cyc := c.cyc + 1, lastMac := none, pc := c.pc + 1 }

/-- What comes before the operation of an instruction: fetch errors, the encoding, the predicate. `off` is what the
instruction does when it is predicated off; `on` its operation when it executes. -/
def limGate (o : Sys2Proof.Lim) (legal : Bool) (off on_ : Dev → Dev) (d : Dev) : Dev :=
  if !issuing d o.core then d
  else if o.fetch = .uncorrectable then limExc o.core 1 d
  else
    let d := if o.fetch = .corrected then limCec o.core 0 d else d
    if !(legal && okPred o) then limExc o.core 5 d
    else if predOn o (d.core o.core) then on_ d else off d

/-- The same on the whole machine. -/
def limDev (o : Sys2Proof.Lim) (legal : Bool) (off on_ : Dev → Dev) (s : State) : State :=
  { s with dev := limGate o legal off on_ s.dev }

/-- An instruction that works on its core's registers alone: reads with stalls, cost, latency and destinations. -/
def limReg (o : Sys2Proof.Lim) (legal : Bool) (reads : List Nat) (cost lat : Nat) (dsts : List Nat)
    (op : Core → Core) (s : State) : State :=
  limDev o legal (skipOff o.core) (fun d =>
    let c := d.core o.core
    let issue := c.cyc + stallOf c reads
    d.setCore o.core ((op c).retire issue cost lat dsts)) s

/-- The same for an operation that also reports CST bits with its result. -/
def gResult (rd : Nat) (c : Core) (r : Word × Nat) : Core := (c.setG rd r.1).sticky r.2
def fResult (rd : Nat) (c : Core) (r : FRes) : Core := (c.setF rd (word r.w)).sticky r.cst
def aResult (rd : Nat) (c : Core) (r : DWord × Nat) : Core := (c.setA rd r.1).sticky r.2

/-- Integer R format: g[rd] from g[ra] and g[rb]. -/
def intR (o : Sys2Proof.Lim) (legal : Bool) (cost lat : Nat) (op : Word → Word → Word × Nat) (s : State) : State :=
  limReg o legal [kg (raOf o), kg (rbOf o)] cost lat [kg (rdOf o)]
    (fun c => gResult (rdOf o) c (op (c.gr (raOf o)) (c.gr (rbOf o)))) s

/-- Integer I format and one-operand R format: g[rd] from g[ra]. -/
def intI (o : Sys2Proof.Lim) (legal : Bool) (op : Word → Word × Nat) (s : State) : State :=
  limReg o legal [kg (raOf o)] 1 1 [kg (rdOf o)] (fun c => gResult (rdOf o) c (op (c.gr (raOf o)))) s

/-- Floating-point R format: f[rd] from f[ra] and f[rb]. -/
def fltR (o : Sys2Proof.Lim) (cost lat : Nat) (op : Nat → Nat → FRes) (s : State) : State :=
  limReg o (okF3 o 0) [kf (raOf o), kf (rbOf o)] cost lat [kf (rdOf o)]
    (fun c => fResult (rdOf o) c (op (c.fr (raOf o)).toNat (c.fr (rbOf o)).toNat)) s

/-- Floating point with one operand. -/
def fltU (o : Sys2Proof.Lim) (maxFn cost : Nat) (op : Word → FRes) (s : State) : State :=
  limReg o (okF2 o maxFn) [kf (raOf o)] cost cost [kf (rdOf o)]
    (fun c => fResult (rdOf o) c (op (c.fr (raOf o)))) s

/-- Results without CST bits. -/
def plain (w : Word) : Word × Nat := (w, 0)

end Sys2Proof.Machine
end

