-- ==== Sys2Proof/Machine/LimathInt.lean ====
section
/-! DEFINITION. Integer, predicate and accumulator instructions (03_limath.md, *Instruction list*). -/
namespace Sys2Proof.Machine

open Sys2Proof (Lim)

/-- The outcome of a meaning that always answers a next state. -/
abbrev Out := Host.Outcome State Fault Refusal

def execNop (o : Lim) (s : State) : Out := .next (limReg o (decide (o.w = 0)) [] 1 1 [] id s)
def execAdd (o : Lim) (s : State) : Out := .next (intR o (okR o 0) 1 1 (fun a b => plain (a + b)) s)
def execAddi (o : Lim) (s : State) : Out := .next (intI o true (fun a => plain (a + wordI (imm10 o))) s)
def execSub (o : Lim) (s : State) : Out := .next (intR o (okR o 0) 1 1 (fun a b => plain (a - b)) s)

/-- Saturating sum and difference; fn 0 signed, 1 unsigned. -/
def execAdds (o : Lim) (s : State) : Out :=
  .next (intR o (okR o 1) 1 1 (fun a b =>
    if fnOf o = 0 then satS32 (a.toInt + b.toInt) else satU32 (a.toNat + b.toNat)) s)
def execSubs (o : Lim) (s : State) : Out :=
  .next (intR o (okR o 1) 1 1 (fun a b =>
    if fnOf o = 0 then satS32 (a.toInt - b.toInt) else satU32 ((a.toNat : Int) - b.toNat)) s)

/-- Products, latency 3 (R56). -/
def execMul (o : Lim) (s : State) : Out := .next (intR o (okR o 0) 1 3 (fun a b => plain (a * b)) s)
def execMulh (o : Lim) (s : State) : Out :=
  .next (intR o (okR o 1) 1 3 (fun a b =>
    plain (wordI (valOf (fnOf o = 1) a * valOf (fnOf o = 1) b / 2 ^ 32))) s)

/-- Division and remainder, 18 cycles (R58). -/
def execDiv (o : Lim) (s : State) : Out := .next (intR o (okR o 1) 18 18 (divOp (fnOf o = 1)) s)
def execRem (o : Lim) (s : State) : Out := .next (intR o (okR o 1) 18 18 (remOp (fnOf o = 1)) s)

def execAnd (o : Lim) (s : State) : Out := .next (intR o (okR o 0) 1 1 (fun a b => plain (a &&& b)) s)
def execOr (o : Lim) (s : State) : Out := .next (intR o (okR o 0) 1 1 (fun a b => plain (a ||| b)) s)
def execXor (o : Lim) (s : State) : Out := .next (intR o (okR o 0) 1 1 (fun a b => plain (a ^^^ b)) s)
def execAndi (o : Lim) (s : State) : Out := .next (intI o true (fun a => plain (a &&& word (uimm10 o))) s)
def execOri (o : Lim) (s : State) : Out := .next (intI o true (fun a => plain (a ||| word (uimm10 o))) s)
def execXori (o : Lim) (s : State) : Out := .next (intI o true (fun a => plain (a ^^^ word (uimm10 o))) s)

/-- Shifts by rb[7:0]. -/
def execShl (o : Lim) (s : State) : Out :=
  .next (intR o (okR o 0) 1 1 (fun a b => plain (shlW a (bits b 7 0))) s)
def execShr (o : Lim) (s : State) : Out :=
  .next (intR o (okR o 0) 1 1 (fun a b => plain (shrW a (bits b 7 0))) s)
def execSar (o : Lim) (s : State) : Out :=
  .next (intR o (okR o 0) 1 1 (fun a b => plain (sarW a (bits b 7 0))) s)
/-- Shift or rotate by imm10[4:0]; the mode in imm10[6:5]; imm10[9:7] is 0. -/
def execShi (o : Lim) (s : State) : Out :=
  .next (intI o (decide (lf o 9 7 = 0)) (fun a => plain (shiOp (lf o 6 5) a (lf o 4 0))) s)
def execRot (o : Lim) (s : State) : Out :=
  .next (intR o (okR o 0) 1 1 (fun a b => plain (rorW a (bits b 4 0))) s)

/-- Minimum and maximum; fn 0 signed, 1 unsigned. -/
def execMin (o : Lim) (s : State) : Out :=
  .next (intR o (okR o 1) 1 1 (fun a b =>
    plain (if valOf (fnOf o = 1) b < valOf (fnOf o = 1) a then b else a)) s)
def execMax (o : Lim) (s : State) : Out :=
  .next (intR o (okR o 1) 1 1 (fun a b =>
    plain (if valOf (fnOf o = 1) a < valOf (fnOf o = 1) b then b else a)) s)

def execAbs (o : Lim) (s : State) : Out := .next (intI o (okRa o 0) (fun a => satS32 a.toInt.natAbs) s)
def execClz (o : Lim) (s : State) : Out := .next (intI o (okRa o 0) (fun a => plain (word (leadingZeros a.toNat 32))) s)
def execPopc (o : Lim) (s : State) : Out := .next (intI o (okRa o 0) (fun a => plain (word (popCount a.toNat 32))) s)

/-- Bit fields: lsb = imm10[4:0], width - 1 = imm10[9:5]. -/
def execBfx (o : Lim) (s : State) : Out :=
  .next (intI o true (fun a => plain (bfxOp a (lf o 4 0) (lf o 9 5 + 1))) s)
def execBfi (o : Lim) (s : State) : Out :=
  .next (limReg o true [kg (rdOf o), kg (raOf o)] 1 1 [kg (rdOf o)] (fun c =>
    c.setG (rdOf o) (bfiOp (c.gr (rdOf o)) (c.gr (raOf o)) (lf o 4 0) (lf o 9 5 + 1))) s)

def execClamp (o : Lim) (s : State) : Out :=
  .next (limReg o (okR o 0) [kg (rdOf o), kg (raOf o), kg (rbOf o)] 1 1 [kg (rdOf o)] (fun c =>
    c.setG (rdOf o) (clampW (c.gr (rdOf o)) (c.gr (raOf o)) (c.gr (rbOf o)))) s)

/-- SEL on p[fn[2:0]]; fn[4:3] is 0. -/
def execSel (o : Lim) (s : State) : Out :=
  .next (limReg o (okR o 7) [kg (raOf o), kg (rbOf o), kp (fnOf o)] 1 1 [kg (rdOf o)] (fun c =>
    c.setG (rdOf o) (if c.pr (fnOf o) then c.gr (raOf o) else c.gr (rbOf o))) s)

def execMovi (o : Lim) (s : State) : Out :=
  .next (limReg o true [] 1 1 [kg (rdOf o)] (fun c => c.setG (rdOf o) (wordI (imm15 o))) s)

/-- LDC: a word of the image constant table (R78). -/
def execLdc (o : Lim) (s : State) : Out :=
  .next (limReg o (decide (idx15 o < 4096)) [] 2 2 [kg (rdOf o)] (fun c =>
    c.setG (rdOf o) (c.consts.get (idx15 o))) s)

/-! ## Compare and predicate -/

def execCmp (o : Lim) (s : State) : Out :=
  .next (limReg o (okR o 9 && okP (rdOf o)) [kg (raOf o), kg (rbOf o)] 1 1 [kp (rdOf o)] (fun c =>
    c.setP (rdOf o) (condI (fnOf o) (c.gr (raOf o)) (c.gr (rbOf o)))) s)

/-- CMPI: cc 0 EQ, 1 NE, 2 LT, 3 GE, signed. -/
def execCmpi (o : Lim) (s : State) : Out :=
  .next (limReg o true [kg (raOf o)] 1 1 [kp (pdOf o)] (fun c =>
    c.setP (pdOf o) (condI (ccOf o) (c.gr (raOf o)) (wordI (imm10 o)))) s)

def execFcmp (o : Lim) (s : State) : Out :=
  .next (limReg o (okR o 6 && okP (rdOf o) && okF (raOf o) && okF (rbOf o)) [kf (raOf o), kf (rbOf o)] 1 1
    [kp (rdOf o)] (fun c => c.setP (rdOf o) (condF (fnOf o) (c.fr (raOf o)) (c.fr (rbOf o)))) s)

/-- PLOG; rb is 0 with fn 4. -/
def execPlog (o : Lim) (s : State) : Out :=
  .next (limReg o (okR o 4 && okP (rdOf o) && okP (raOf o) && okP (rbOf o) &&
      (decide (fnOf o ≠ 4) || decide (rbOf o = 0))) [kp (raOf o), kp (rbOf o)] 1 1 [kp (rdOf o)] (fun c =>
    c.setP (rdOf o) (plogOp (fnOf o) (c.pr (raOf o)) (c.pr (rbOf o)))) s)

/-- PMOV: fn 0 predicates to g[rd]; fn 1 g[ra] bits 1..7 to p1..p7 (R50). -/
def execPmov (o : Lim) (s : State) : Out :=
  .next (
    if fnOf o = 0 then
      limReg o (okRa o 1 && decide (raOf o = 0)) ((List.range 8).map kp) 1 1 [kg (rdOf o)] (fun c =>
        c.setG (rdOf o) ((c.p ||| 1).setWidth 32)) s
    else
      limReg o (okRa o 1 && decide (rdOf o = 0)) [kg (raOf o)] 1 1 ((List.range 8).map kp) (fun c =>
        { c with p := (c.gr (raOf o)).setWidth 8 ||| 1 }) s)

/-- TST: cc 0 tests for not zero, 1 for zero; imm10 zero-extended. -/
def execTst (o : Lim) (s : State) : Out :=
  .next (limReg o (decide (ccOf o < 2)) [kg (raOf o)] 1 1 [kp (pdOf o)] (fun c =>
    c.setP (pdOf o) (decide (c.gr (raOf o) &&& word (uimm10 o) ≠ 0) != decide (ccOf o = 1))) s)

/-! ## Accumulators -/

/-- MAC and MACH do not stall on the accumulator of the MAC or MACH immediately before them (R56). -/
def macReads (o : Lim) (s : State) : List Nat :=
  [kg (raOf o), kg (rbOf o)] ++ (if (s.dev.core o.core).lastMac = some (rdOf o) then [] else [ka (rdOf o)])

/-- The core after a MAC or MACH issued, which the next one does not stall on. -/
def macDone (o : Lim) (before : State) (s : State) : State :=
  let c := s.dev.core o.core
  let b := before.dev.core o.core
  if c.pc = b.pc then s
  else if predOn o b then { s with dev := s.dev.setCore o.core { c with lastMac := some (rdOf o) } } else s

/-- a[rd] ± ra * rb; fn[0] unsigned, fn[1] subtracts. -/
def execMac (o : Lim) (s : State) : Out :=
  .next (macDone o s (limReg o (okR o 3 && okA (rdOf o)) (macReads o s) 1 3 [ka (rdOf o)] (fun c =>
    let u := decide (fnOf o % 2 = 1)
    let p := valOf u (c.gr (raOf o)) * valOf u (c.gr (rbOf o))
    aResult (rdOf o) c (satS64 ((c.ac (rdOf o)).toInt + (if 2 ≤ fnOf o then -p else p)))) s))

/-- a[rd] + the products of the signed halves. -/
def execMach (o : Lim) (s : State) : Out :=
  .next (macDone o s (limReg o (okR o 0 && okA (rdOf o)) (macReads o s) 1 3 [ka (rdOf o)] (fun c =>
    let x := c.gr (raOf o)
    let y := c.gr (rbOf o)
    aResult (rdOf o) c (satS64 ((c.ac (rdOf o)).toInt + loS x * loS y + hiS x * hiS y))) s))

def execAclr (o : Lim) (s : State) : Out :=
  .next (limReg o (okRa o 31 && okA (rdOf o)) [kg (raOf o)] 1 1 [ka (rdOf o)] (fun c =>
    c.setA (rdOf o) (BitVec.ofInt 64 ((c.gr (raOf o)).toInt * 2 ^ fnOf o))) s)

def execAset (o : Lim) (s : State) : Out :=
  .next (limReg o (okR o 0 && okA (rdOf o)) [kg (raOf o), kg (rbOf o)] 1 1 [ka (rdOf o)] (fun c =>
    c.setA (rdOf o) (dword (c.gr (raOf o)) (c.gr (rbOf o)))) s)

def execAext (o : Lim) (s : State) : Out :=
  .next (limReg o (okA3 o) [ka (kOf o)] 1 3 [kg (rdOf o)] (fun c =>
    gResult (rdOf o) c (aextOp (c.ac (kOf o)) (shOf o) (rndOf o))) s)

def execAadd (o : Lim) (s : State) : Out :=
  .next (limReg o (okRa o 1 && okA (rdOf o) && okA (raOf o)) [ka (rdOf o), ka (raOf o)] 1 3 [ka (rdOf o)] (fun c =>
    let x := (c.ac (rdOf o)).toInt
    let y := (c.ac (raOf o)).toInt
    aResult (rdOf o) c (satS64 (if fnOf o = 1 then x - y else x + y))) s)

/-- ASHL names a[k]; its rd field is 0. -/
def execAshl (o : Lim) (s : State) : Out :=
  .next (limReg o (okA3 o && decide (rdOf o = 0)) [ka (kOf o)] 1 3 [ka (kOf o)] (fun c =>
    aResult (kOf o) c (ashlOp (c.ac (kOf o)) (shOf o) (decide (rndOf o = 1)))) s)

def execAmov (o : Lim) (s : State) : Out :=
  .next (limReg o (okRa o 1 && okA (raOf o)) [ka (raOf o)] 1 3 [kg (rdOf o)] (fun c =>
    c.setG (rdOf o) (if fnOf o = 0 then loWord (c.ac (raOf o)) else hiWord (c.ac (raOf o)))) s)

end Sys2Proof.Machine
end

