-- ==== Sys2Proof/Machine/LimathFloat.lean ====
section
/-! DEFINITION. Floating-point instructions (03_limath.md, R61, R62). -/
namespace Sys2Proof.Machine

open Sys2Proof (Lim)

def execFadd (o : Lim) (s : State) : Out := .next (fltR o 1 3 (addF b32) s)
def execFsub (o : Lim) (s : State) : Out := .next (fltR o 1 3 (subF b32) s)
def execFmul (o : Lim) (s : State) : Out := .next (fltR o 1 3 (mulF b32) s)

/-- fd + fa * fb, rounded once. -/
def execFma (o : Lim) (s : State) : Out :=
  .next (limReg o (okF3 o 0) [kf (rdOf o), kf (raOf o), kf (rbOf o)] 1 3 [kf (rdOf o)] (fun c =>
    fResult (rdOf o) c (fmaF b32 (c.fr (rdOf o)).toNat (c.fr (raOf o)).toNat (c.fr (rbOf o)).toNat)) s)

def execFdiv (o : Lim) (s : State) : Out := .next (fltR o 12 12 (divF b32) s)
def execFsqrt (o : Lim) (s : State) : Out := .next (fltU o 0 12 (fun a => sqrtF b32 a.toNat) s)
def execFmin (o : Lim) (s : State) : Out := .next (fltR o 1 1 (minF b32) s)
def execFmax (o : Lim) (s : State) : Out := .next (fltR o 1 1 (maxF b32) s)

/-- fn 0 the absolute value, fn 1 the negation. -/
def execFabs (o : Lim) (s : State) : Out :=
  .next (fltU o 1 1 (fun a => if fnOf o = 0 then absF b32 a.toNat else negF b32 a.toNat) s)

/-- FCVT by fn: 0 to s32, 1 to u32, 2 from signed, 3 from unsigned (R62). -/
def execFcvt (o : Lim) (s : State) : Out :=
  .next (
    if fnOf o < 2 then
      limReg o (okRa o 3 && okF (raOf o)) [kf (raOf o)] 1 3 [kg (rdOf o)] (fun c =>
        let r := if fnOf o = 0 then toIntF b32 (-(2 ^ 31)) (2 ^ 31 - 1) (c.fr (raOf o)).toNat
                 else toIntF b32 0 (2 ^ 32 - 1) (c.fr (raOf o)).toNat
        gResult (rdOf o) c (wordI r.1, r.2)) s
    else
      limReg o (okRa o 3 && okF (rdOf o)) [kg (raOf o)] 1 3 [kf (rdOf o)] (fun c =>
        fResult (rdOf o) c (ofIntF b32 (valOf (decide (fnOf o = 3)) (c.gr (raOf o))))) s)

/-- FMOV moves bits: fn 0 fd := fa, 1 fd := g[ra], 2 g[rd] := fa. -/
def execFmov (o : Lim) (s : State) : Out :=
  .next (
    if fnOf o = 0 then
      limReg o (okF2 o 2) [kf (raOf o)] 1 1 [kf (rdOf o)] (fun c => c.setF (rdOf o) (c.fr (raOf o))) s
    else if fnOf o = 1 then
      limReg o (okRa o 2 && okF (rdOf o)) [kg (raOf o)] 1 1 [kf (rdOf o)] (fun c =>
        c.setF (rdOf o) (c.gr (raOf o))) s
    else
      limReg o (okRa o 2 && okF (raOf o)) [kf (raOf o)] 1 1 [kg (rdOf o)] (fun c =>
        c.setG (rdOf o) (c.fr (raOf o))) s)

def execFclamp (o : Lim) (s : State) : Out :=
  .next (limReg o (okF3 o 0) [kf (rdOf o), kf (raOf o), kf (rbOf o)] 1 1 [kf (rdOf o)] (fun c =>
    fResult (rdOf o) c (fclampW (c.fr (rdOf o)) (c.fr (raOf o)) (c.fr (rbOf o)))) s)

/-- FLDC moves the bits of a constant word (R78). -/
def execFldc (o : Lim) (s : State) : Out :=
  .next (limReg o (decide (idx15 o < 4096) && okF (rdOf o)) [] 2 2 [kf (rdOf o)] (fun c =>
    c.setF (rdOf o) (c.consts.get (idx15 o))) s)

def execFrsq (o : Lim) (s : State) : Out := .next (fltU o 0 6 rsqF s)

/-- FSC: f[rd] the sine, f[rd + 1] the cosine of g[ra] / 2^32 turns. -/
def execFsc (o : Lim) (s : State) : Out :=
  .next (limReg o (okRa o 0 && okF (rdOf o) && even (rdOf o)) [kg (raOf o)] 4 4 [kf (rdOf o), kf (rdOf o + 1)]
    (fun c => (c.setF (rdOf o) (sinW (c.gr (raOf o)))).setF (rdOf o + 1) (cosW (c.gr (raOf o)))) s)

end Sys2Proof.Machine
end

