-- ==== Sys2Proof/Machine/LimathMem.lean ====
section
/-! DEFINITION. Loads and stores of local data memory and tick SRAM (03_limath.md, R34, R35, R63, R64). -/
namespace Sys2Proof.Machine

open Sys2Proof (Lim)

/-- The effective address g[ra] + imm10 * n, modulo 2^32. -/
def effAddr (o : Lim) (c : Core) (n : Nat) : Nat := (c.gr (raOf o) + wordI (imm10 o * n)).toNat

/-- An address rounded down to the access size (R63). -/
def alignTo (n a : Nat) : Nat := a - a % n

/-- The exception of a data read: ADDR comes first, as its access is not made; then the uncorrectable error (R64). -/
def dataExc (o : Lim) (limit addr ecc : Nat) : Nat :=
  if limit ≤ addr then 4 else if o.data = .uncorrectable then ecc else 0

/-- A load from local data memory of n bytes; `put` writes the value read. -/
def loadLocal (o : Lim) (legal : Bool) (n : Nat) (dsts : List Nat) (put : Core → Nat → Core) (s : State) : State :=
  limDev o legal (skipOff o.core) (fun d =>
      let c := d.core o.core
      let issue := c.cyc + stallOf c [kg (raOf o)]
      let a := effAddr o c n
      let e := dataExc o 0x20000 a 2
      if e ≠ 0 then limExc o.core e d
      else
        let d := d.setCore o.core ((put c (c.dmem.read (alignTo n a) n)).retire issue 2 2 dsts)
        if o.data = .corrected then limCec o.core 1 d else d) s

/-- A store of n bytes to local data memory, seen by the core at once. -/
def storeLocal (o : Lim) (legal : Bool) (n : Nat) (reads : List Nat) (val : Core → Nat) (s : State) : State :=
  limDev o legal (skipOff o.core) (fun d =>
      let c := d.core o.core
      let issue := c.cyc + stallOf c (kg (raOf o) :: reads)
      let a := effAddr o c n
      if 0x20000 ≤ a then limExc o.core 4 d
      else d.setCore o.core ({ c with dmem := c.dmem.write (alignTo n a) n (val c) }.retire issue 1 1 [])) s

/-- Load results: one register, sign-extended from n bytes, or a pair. -/
def putG (o : Lim) (c : Core) (v : Nat) : Core := c.setG (rdOf o) (word v)
def putGs (o : Lim) (n : Nat) (c : Core) (v : Nat) : Core := c.setG (rdOf o) (wordI (signed (8 * n) v))
def putPair (o : Lim) (c : Core) (v : Nat) : Core :=
  (c.setG (rdOf o) (word v)).setG (rdOf o + 1) (word (v / 2 ^ 32))
def putF (o : Lim) (c : Core) (v : Nat) : Core := c.setF (rdOf o) (word v)

/-- The doubleword rd + 1 : rd. -/
def pairVal (o : Lim) (c : Core) : Nat := (dword (c.gr (rdOf o + 1)) (c.gr (rdOf o))).toNat

def execLdw (o : Lim) (s : State) : Out := .next (loadLocal o true 4 [kg (rdOf o)] (putG o) s)
def execLdh (o : Lim) (s : State) : Out := .next (loadLocal o true 2 [kg (rdOf o)] (putGs o 2) s)
def execLdhu (o : Lim) (s : State) : Out := .next (loadLocal o true 2 [kg (rdOf o)] (putG o) s)
def execLdb (o : Lim) (s : State) : Out := .next (loadLocal o true 1 [kg (rdOf o)] (putGs o 1) s)
def execLdbu (o : Lim) (s : State) : Out := .next (loadLocal o true 1 [kg (rdOf o)] (putG o) s)
def execLdd (o : Lim) (s : State) : Out :=
  .next (loadLocal o (okPair o) 8 [kg (rdOf o), kg (rdOf o + 1)] (putPair o) s)
def execStw (o : Lim) (s : State) : Out :=
  .next (storeLocal o true 4 [kg (rdOf o)] (fun c => (c.gr (rdOf o)).toNat) s)
def execSth (o : Lim) (s : State) : Out :=
  .next (storeLocal o true 2 [kg (rdOf o)] (fun c => (c.gr (rdOf o)).toNat) s)
def execStb (o : Lim) (s : State) : Out :=
  .next (storeLocal o true 1 [kg (rdOf o)] (fun c => (c.gr (rdOf o)).toNat) s)
def execStd (o : Lim) (s : State) : Out :=
  .next (storeLocal o (okPair o) 8 [kg (rdOf o), kg (rdOf o + 1)] (pairVal o) s)
def execFld (o : Lim) (s : State) : Out := .next (loadLocal o (okFrd o) 4 [kf (rdOf o)] (putF o) s)
def execFst (o : Lim) (s : State) : Out :=
  .next (storeLocal o (okFrd o) 4 [kf (rdOf o)] (fun c => (c.fr (rdOf o)).toNat) s)

/-! ## Tick SRAM -/

/-- A load returns the state committed at edge n (R34), in at most 8 cycles (R88). -/
def loadSram (o : Lim) (legal : Bool) (n : Nat) (dsts : List Nat) (put : Core → Nat → Core) (s : State) : State :=
  limDev o legal (skipOff o.core) (fun d =>
      let c := d.core o.core
      let issue := c.cyc + stallOf c [kg (raOf o)]
      let a := effAddr o c n
      let e := dataExc o 0x400000 a 3
      if e ≠ 0 then limExc o.core e d
      else
        let cost := 8 - (Config.sramEarly d.freeCtr).val
        let d := d.tickFree.setCore o.core ((put c (d.sram.read (alignTo n a) n)).retire issue cost cost dsts)
        if o.data = .corrected then
          fault 224 .note (word (alignTo n a)) (d.setCore o.core ((d.core o.core).sticky 128))
        else d) s

/-- The distinct 64-byte lines of tick SRAM that cores have staged in the running tick (R35). -/
def stagedLines (d : Dev) : List Nat :=
  d.tick.staged.foldl (fun l e =>
    match e.by_, e.w with
    | .core _, .sram a _ _ => if l.contains (a / 64) then l else (a / 64) :: l
    | _, _ => l) []

/-- A store stages its bytes for the next edge; more than 8,192 distinct lines in a tick is a Slip fault (R35). -/
def storeSram (o : Lim) (legal : Bool) (n : Nat) (reads : List Nat) (val : Core → Nat) (s : State) : State :=
  limDev o legal (skipOff o.core) (fun d =>
      let c := d.core o.core
      let issue := c.cyc + stallOf c (kg (raOf o) :: reads)
      let a := effAddr o c n
      if 0x400000 ≤ a then limExc o.core 4 d
      else
        let d := d.setCore o.core (c.retire issue 2 2 [])
        let d := stage o.core (.sram (alignTo n a) n (val c)) d
        let lines := (stagedLines d).length
        if 8192 < lines then fault 5 .slip (word lines) d else d) s

def execLdsw (o : Lim) (s : State) : Out := .next (loadSram o true 4 [kg (rdOf o)] (putG o) s)
def execLdsd (o : Lim) (s : State) : Out :=
  .next (loadSram o (okPair o) 8 [kg (rdOf o), kg (rdOf o + 1)] (putPair o) s)
def execStsw (o : Lim) (s : State) : Out :=
  .next (storeSram o true 4 [kg (rdOf o)] (fun c => (c.gr (rdOf o)).toNat) s)
def execStsd (o : Lim) (s : State) : Out :=
  .next (storeSram o (okPair o) 8 [kg (rdOf o), kg (rdOf o + 1)] (pairVal o) s)
def execFlds (o : Lim) (s : State) : Out := .next (loadSram o (okFrd o) 4 [kf (rdOf o)] (putF o) s)
def execFsts (o : Lim) (s : State) : Out :=
  .next (storeSram o (okFrd o) 4 [kf (rdOf o)] (fun c => (c.fr (rdOf o)).toNat) s)

end Sys2Proof.Machine
end

