-- ==== Sys2Proof/Machine/LimathSys.lean ====
section
/-! DEFINITION. Mailboxes, carts, the Cellar and casks, control flow and system instructions (03_limath.md,
04_programs.md, 17_cellar.md). -/
namespace Sys2Proof.Machine

open Sys2Proof (Lim)

/-- A memory error of a mailbox or Cellar read: SECC, or the value and CST.CEC. -/
def execMbw (o : Lim) (s : State) : Out :=
  .next (limDev o (decide (coreOf o < 6) && decide (lf o 5 0 = 0)) (skipOff o.core) (fun d =>
    let c := d.core o.core
    let issue := c.cyc + stallOf c [kg (rdOf o)]
    stage o.core (.mbox (coreOf o) (boxOf o) (c.gr (rdOf o))) (d.setCore o.core (c.retire issue 1 1 []))) s)

/-- MBR and MBS read the core's own mailbox as committed (R34, R65). -/
def readMbox (o : Lim) (addr : Nat) (s : State) : State :=
  limDev o (decide (coreOf o = 0) && decide (lf o 5 0 = 0)) (skipOff o.core) (fun d =>
    if o.data = .uncorrectable then limExc o.core 3 d
    else
      let c := d.core o.core
      let d := d.setCore o.core ((c.setG (rdOf o) (d.reg addr)).retire c.cyc 4 4 [kg (rdOf o)])
      if o.data = .corrected then limCec o.core 2 d else d) s

def execMbr (o : Lim) (s : State) : Out := .next (readMbox o (LIM_MB o.core (boxOf o)) s)
def execMbs (o : Lim) (s : State) : Out := .next (readMbox o (LIM_MBC o.core (boxOf o)) s)

/-- CART: a busy descriptor sets CBSY; else the issue is staged and the descriptor is busy (R67). -/
def execCart (o : Lim) (s : State) : Out :=
  .next (limDev o (decide (lf o 19 6 = 0)) (skipOff o.core) (fun d =>
    let c := d.core o.core
    let i := dIdx o
    let c' := c.retire c.cyc 1 1 []
    if bit c.busy i then d.setCore o.core (c'.sticky 64)
    else
      stage o.core (.cart o.core i)
        (d.setCore o.core { c' with busy := c'.busy ||| BitVec.ofNat 64 (2 ^ i) })) s)

/-- CTST: the done (sel 0) or error (sel 1) flag as latched in Capture. -/
def execCtst (o : Lim) (s : State) : Out :=
  .next (limReg o (decide (ccOf o < 2) && decide (lf o 14 6 = 0)) [] 1 1 [kp (pdOf o)] (fun c =>
    let l := s.snap.core o.core
    c.setP (pdOf o) (bit (if ccOf o = 0 then l.done else l.err) (dIdx o))) s)

/-! ## The Cellar -/

/-- A 32-bit word of the Cellar: the journal region's contents are open (R332). -/
def celWord (d : Dev) (a : Nat) : Word :=
  if 0x80000 ≤ a then d.cel.spill.word (a - 0x80000)
  else if 0x7C000 ≤ a then
    word (leNat ((List.range 4).map (fun i => Config.journalByte d.freeCtr (a + i))))
  else d.cel.array.word a

/-- CEL_STAT as it reads: PEND while committed casks are not applied. -/
def celStat (d : Dev) : Word :=
  setBit (d.reg CEL_STAT) 7 (!d.cel.journal.isEmpty)

/-- What CLD reads at an offset: the array, the spill block, or Cellar status as latched in Capture (R334). -/
def cldValue (s : State) (a : Nat) : Option Word :=
  if a < 0x81000 then some (celWord s.dev a)
  else if a < 0x81018 then some (s.snap.reg (CEL_CKSTAT ((a - 0x81000) / 4)))
  else if a < 0x8101C then some (celStat s.snap)
  else if a < 0x81020 then some (s.snap.reg CEL_LOGHEAD)
  else none

def execCld (o : Lim) (s : State) : Out :=
  .next (limDev o true (skipOff o.core) (fun d =>
    let c := d.core o.core
    let issue := c.cyc + stallOf c [kg (raOf o)]
    let a := alignTo 4 (effAddr o c 4)
    match cldValue s a with
    | none => limExc o.core 4 d
    | some v =>
      if a < 0x81000 ∧ o.data = .uncorrectable then limExc o.core 3 d
      else
        let d := d.setCore o.core ((c.setG (rdOf o) v).retire issue 6 6 [kg (rdOf o)])
        if a < 0x81000 ∧ o.data = .corrected then
          fault 212 .note (word a) (Dev.setFlag CEL_STAT 3 true (d.setCore o.core ((d.core o.core).sticky 128)))
        else d) s)

/-- The lower of two causes of R336, where 0 is none. -/
def minCause (a b : Nat) : Nat := if a = 0 then b else if b = 0 then a else min a b

/-- A cask of core k is refused (outcome 2) or dropped (outcome 3): CEL_CKSTATk, CEL_STAT.REFUSE, event 211 (R336). -/
def caskRefused (k : Fin 6) (tag : Byte) (outcome cause : Nat) (d : Dev) : Dev :=
  let w := setBits (setBits (setBits (d.reg (CEL_CKSTAT k)) 15 12 cause) 9 8 outcome) 7 0 tag.toNat
  raise 211 (Dev.setFlag CEL_STAT 4 true (d.setReg (CEL_CKSTAT k) w))

/-- The offsets that a cask of a tag may address (R335). -/
def caskAddrOk (tag : Byte) (a : Nat) : Bool :=
  if tag = 255 then decide (0x10 ≤ a) && decide (a < 0x40) else decide (0x40000 ≤ a) && decide (a < 0x64000)

def execCkb (o : Lim) (s : State) : Out :=
  .next (limDev o (decide (rdOf o = 0) && decide (idx15 o < 256)) (skipOff o.core) (fun d =>
    let c := d.core o.core
    let r := c.retire c.cyc 2 2 []
    let d := d.tickFree
    match c.cask with
    | some k => caskRefused o.core k.tag 2 (minCause c.bad 4) (d.setCore o.core { r with cask := none, bad := 4 })
    | none =>
      let used := d.cel.used + 2
      let d := { d with cel := { d.cel with used := used, live := d.cel.live + 1 } }
      d.setCore o.core { r with cask := some ⟨BitVec.ofNat 8 (idx15 o), []⟩, bad := if 511 < used then 3 else 0 }) s)

/-- A CKW or CKC with no cask open records NOCASK, but for those that follow a NESTED refusal (R336). -/
def noCask (k : Fin 6) (c : Core) (d : Dev) : Dev :=
  if c.bad = 4 then d else Dev.setFld (CEL_CKSTAT k) 15 12 6 d

def execCkw (o : Lim) (s : State) : Out :=
  .next (limDev o (decide (rdOf o = 0) && okR o 0) (skipOff o.core) (fun d =>
    let c := d.core o.core
    let issue := c.cyc + stallOf c [kg (raOf o), kg (rbOf o)]
    let r := c.retire issue 4 4 []
    match c.cask with
    | none => noCask o.core c (d.setCore o.core r)
    | some k =>
      let a := alignTo 4 (c.gr (rbOf o)).toNat
      let used := d.cel.used + 1
      let es := k.entries ++ [(a, c.gr (raOf o))]
      let bad := minCause c.bad (if !caskAddrOk k.tag a then 1 else if 256 < es.length then 2
        else if 511 < used then 3 else 0)
      { d with cel := { d.cel with used := used } }.tickFree.setCore o.core
        { r with cask := some ⟨k.tag, es⟩, bad := bad }) s)

/-- CKC closes a cask that breaks no rule: it is the last cask closed, to commit with the tick (R336). -/
def caskClosed (k : Fin 6) (tag : Byte) (d : Dev) : Dev :=
  d.setReg (CEL_CKSTAT k) (setBits (setBits (setBits (d.reg (CEL_CKSTAT k)) 15 12 0) 9 8 1) 7 0 tag.toNat)

def execCkc (o : Lim) (s : State) : Out :=
  .next (limDev o (decide (o.w = 0)) (skipOff o.core) (fun d =>
    let c := d.core o.core
    let r := c.retire c.cyc 2 2 []
    match c.cask with
    | none => noCask o.core c (d.setCore o.core r)
    | some k =>
      let d := d.setCore o.core { r with cask := none, bad := 0 }
      if c.bad ≠ 0 then caskRefused o.core k.tag 2 c.bad d
      else stage o.core (.cask o.core k) (caskClosed o.core k.tag d)) s)

/-! ## Control flow -/

/-- The opcode and the ENDL level of an instruction word. -/
def isEndl (w : Word) (l : Nat) : Bool := decide (bits w 31 24 = 0x95) && decide (bits w 19 18 = l)

/-- The first ENDL of level l at word address a or above, within n words (R54). -/
def findEndl (m : Words) (l : Nat) (a : Nat) : Nat → Option Nat
  | 0 => none
  | n + 1 => if isEndl (m.get a) l then some a else findEndl m l (a + 1) n

/-- The ENDL that matches a LOOP or LOOPR of level l at pc. -/
def matchEndl (c : Core) (l : Nat) : Option Nat := findEndl c.imem l (c.pc.toNat + 1) (16383 - c.pc.toNat)

/-- A LOOP or LOOPR that does not run its body goes on after its matching ENDL, or raises LPX (R54, R72). -/
def skipLoop (o : Lim) (issue : Nat) (flags : Nat) (d : Dev) : Dev :=
  let c := d.core o.core
  match matchEndl c (lvlOf o) with
  | none => limExc o.core 7 d
  | some a => d.setCore o.core { (c.retire issue 1 1 []).sticky flags with pc := BitVec.ofNat 14 (a + 1) }

def execJmp (o : Lim) (s : State) : Out :=
  .next (limDev o (okB o) (skipOff o.core) (fun d =>
    let c := d.core o.core
    d.setCore o.core { c.retire c.cyc 2 2 [] with pc := targetOf o }) s)

/-- CALL pushes PC + 1; a ninth entry raises STK. -/
def execCall (o : Lim) (s : State) : Out :=
  .next (limDev o (okB o) (skipOff o.core) (fun d =>
    let c := d.core o.core
    if 8 ≤ c.stack.length then limExc o.core 6 d
    else d.setCore o.core { c.retire c.cyc 2 2 [] with pc := targetOf o, stack := (c.pc + 1) :: c.stack }) s)

def execRet (o : Lim) (s : State) : Out :=
  .next (limDev o (okB o && decide (lf o 13 0 = 0)) (skipOff o.core) (fun d =>
    let c := d.core o.core
    match c.stack with
    | [] => limExc o.core 6 d
    | a :: t => d.setCore o.core { c.retire c.cyc 2 2 [] with pc := a, stack := t }) s)

/-- Open a loop of level l: its counter and the start of its body. -/
def Core.openLoop (c : Core) (l n : Nat) : Core :=
  { c with lc := c.lc.set (Fin.ofNat 4 l) (BitVec.ofNat 16 n), body := c.body.set (Fin.ofNat 4 l) (some (c.pc + 1)) }

def execLoop (o : Lim) (s : State) : Out :=
  .next (limDev o (okL o && decide (countOf o ≠ 0)) (fun d => skipLoop o (d.core o.core).cyc 0 d)
    (fun d =>
      let c := d.core o.core
      d.setCore o.core ((c.openLoop (lvlOf o) (countOf o)).retire c.cyc 1 1 [])) s)

/-- LOOPR: ra clamped to 0 to bound; LCL when it clamps from above; ra ≤ 0 skips the body (R72). -/
def execLoopr (o : Lim) (s : State) : Out :=
  .next (limDev o (decide (boundOf o ≠ 0)) (fun d => skipLoop o (d.core o.core).cyc 0 d) (fun d =>
    let c := d.core o.core
    let issue := c.cyc + stallOf c [kg (lraOf o)]
    let n := (c.gr (lraOf o)).toInt
    if n ≤ 0 then skipLoop o issue 0 d
    else
      let ovr := decide ((boundOf o : Int) < n)
      let n := min n.toNat (boundOf o)
      d.setCore o.core (((c.openLoop (lvlOf o) n).sticky (if ovr then 32 else 0)).retire issue 1 1 [])) s)

/-- ENDL: decrement and go back to the body start while the counter is not zero; LPX with no open loop of its level. -/
def execEndl (o : Lim) (s : State) : Out :=
  .next (limDev o (okL o && decide (countOf o = 0)) (skipOff o.core) (fun d =>
    let c := d.core o.core
    let l := Fin.ofNat 4 (lvlOf o)
    match c.body[l] with
    | none => limExc o.core 7 d
    | some a =>
      let n := c.lc[l] - 1
      let c' := { c.retire c.cyc 1 1 [] with lc := c.lc.set l n }
      d.setCore o.core (if n = 0 then { c' with body := c.body.set l none } else { c' with pc := a })) s)

def execBtab (o : Lim) (s : State) : Out :=
  .next (limDev o (decide (rdOf o = 0) && decide (rbOf o = 0)) (skipOff o.core) (fun d =>
    let c := d.core o.core
    let issue := c.cyc + stallOf c [kg (raOf o)]
    let i := (c.gr (raOf o)).toInt
    let n := if 0 ≤ i ∧ i < fnOf o + 1 then i.toNat + 1 else fnOf o + 2
    d.setCore o.core { c.retire issue 3 3 [] with pc := c.pc + BitVec.ofNat 14 n }) s)

/-- The entry of a core's tick program, and of the fault program. -/
def tickEntry (d : Dev) (k : Nat) : Option Nat :=
  match d.loader.image with
  | none => none
  | some i => (i.progs.find? (fun p => decide (p.core = k) && decide (i.cores / 2 ^ k % 2 = 1))).map (·.entry)

/-- A program starts: PC at its entry, an empty return stack, cleared loop counters (R52, R351). -/
def Core.start (c : Core) (r : Run) (entry : Nat) : Core :=
  { c with run := r, pc := BitVec.ofNat 14 entry, stack := [], lc := Vector.replicate 4 0,
           body := Vector.replicate 4 none }

/-- What outlives a program's casks: after a NESTED refusal CKW and CKC act on nothing until the next CKB (R336). -/
def Core.nested (c : Core) : Nat := if c.bad = 4 then 4 else 0

/-- A cask still open at a TEND is dropped with cause OPEN (R336). -/
def dropCask (k : Fin 6) (d : Dev) : Dev :=
  let c := d.core k
  let d := d.setCore k { c with cask := none, bad := c.nested }
  match c.cask with
  | none => d
  | some x => caskRefused k x.tag 3 5 d

/-- TEND: the tick program ends and the core idles, TCK_PEAKk holding the highest count of cycles; or the fault program
ends and the tick program starts (R73, R351). -/
def execTend (o : Lim) (s : State) : Out :=
  .next (limDev o (okB o && decide (lf o 13 0 = 0)) (skipOff o.core) (fun d =>
    let c := d.core o.core
    let d := dropCask o.core (d.setCore o.core (c.retire c.cyc 1 1 []))
    let c := d.core o.core
    if c.run = .fault then
      match tickEntry d o.core with
      | some e => d.setCore o.core (c.start .tick e)
      | none => d.setCore o.core { c with run := .ended }
    else
      let d := d.setCore o.core { c with run := .ended }
      if (d.reg (TCK_PEAK o.core)).toNat < c.cyc then d.setReg (TCK_PEAK o.core) (word c.cyc) else d) s)

/-! ## Special registers and software events -/

/-- RDS's values: TCK_COUNT, TCK_EDGETS and TCK_SLIPS as latched in Capture. -/
def specialReg (s : State) (k : Nat) (c : Core) (i : Nat) : Word :=
  if i = 0 then word k
  else if i = 1 then loWord s.snap.tick.count
  else if i = 2 then hiWord s.snap.tick.count
  else if i = 3 then s.dev.reg TCK_PERIOD
  else if i = 4 then word (budget s.dev.period)
  else if i = 5 then loWord (s.snap.stampAt s.snap.tick.edgeAt)
  else if i = 6 then hiWord (s.snap.stampAt s.snap.tick.edgeAt)
  else if i = 7 then word c.cyc
  else if i = 8 then c.cst
  else if i < 13 then (c.lc[Fin.ofNat 4 (i - 9)]).setWidth 32
  else if i = 13 then word c.stack.length
  else if i = 14 then s.snap.reg TCK_SLIPS
  else 0

def execRds (o : Lim) (s : State) : Out :=
  .next (limReg o (decide (idx15 o < 16384)) [] 1 1 [kg (rdOf o)] (fun c =>
    c.setG (rdOf o) (specialReg s o.core c (idx15 o))) s)

/-- WRS clears CST bits; only index 8 is listed. -/
def execWrs (o : Lim) (s : State) : Out :=
  .next (limReg o (decide (idx15 o = 8)) [kg (rdOf o)] 1 1 [] (fun c =>
    { c with cst := c.cst &&& ~~~ c.gr (rdOf o) }) s)

/-- EVS stages software event 248 + imm15 (R372). -/
def execEvs (o : Lim) (s : State) : Out :=
  .next (limDev o (decide (rdOf o = 0) && decide (idx15 o < 8)) (skipOff o.core) (fun d =>
    let c := d.core o.core
    stage o.core (.softEv (2 ^ idx15 o)) (d.setCore o.core (c.retire c.cyc 1 1 []))) s)

end Sys2Proof.Machine
end

