-- ==== Sys2Proof/Machine/LimathCode.lean ====
section
/-! DEFINITION. Instruction words (03_limath.md, *Instruction list*): for each opcode the listed encodings (R55), cost,
latency and the registers read and written, as the loader charges them (R57), and the run of a law snippet (R75, R197). -/
namespace Sys2Proof.Machine

open Sys2Proof (Lim)

/-- What the loader needs of an instruction word. -/
structure OpInfo where
  legal : Bool
  cost  : Nat
  lat   : Nat
  reads : List Nat
  dsts  : List Nat
  deriving DecidableEq, Repr

/-- The opcode of a word, and its predicate selector and low fields as an instruction of core k. -/
def opcodeOf (w : Word) : Nat := bits w 31 24
def limOf (k : Fin 6) (w : Word) : Lim := ⟨k, bit w 23, BitVec.ofNat 3 (bits w 22 20), w.setWidth 20, .ok, .ok⟩

/-- Shapes of the tables: g[rd] from g[ra], g[rb]; g[rd] from g[ra]; f[rd] from f[ra], f[rb]; f[rd] from f[ra]. -/
def infoR (o : Lim) (maxFn cost lat : Nat) : OpInfo :=
  ⟨okR o maxFn, cost, lat, [kg (raOf o), kg (rbOf o)], [kg (rdOf o)]⟩
def infoI (o : Lim) (legal : Bool) : OpInfo := ⟨legal, 1, 1, [kg (raOf o)], [kg (rdOf o)]⟩
def infoF (o : Lim) (cost lat : Nat) : OpInfo := ⟨okF3 o 0, cost, lat, [kf (raOf o), kf (rbOf o)], [kf (rdOf o)]⟩
def infoU (o : Lim) (maxFn cost : Nat) : OpInfo := ⟨okF2 o maxFn, cost, cost, [kf (raOf o)], [kf (rdOf o)]⟩
/-- Loads to g, pairs or f, and stores from them. -/
def infoLd (o : Lim) (legal : Bool) (cost : Nat) (dsts : List Nat) : OpInfo := ⟨legal, cost, cost, [kg (raOf o)], dsts⟩
def infoSt (o : Lim) (legal : Bool) (cost : Nat) (reads : List Nat) : OpInfo :=
  ⟨legal, cost, cost, kg (raOf o) :: reads, []⟩
def pairOf (o : Lim) : List Nat := [kg (rdOf o), kg (rdOf o + 1)]

/-- Integer arithmetic and logic, opcodes 0x00 to 0x1F. -/
def infoInt (op : Nat) (o : Lim) : OpInfo :=
  match op with
  | 0x00 => ⟨decide (o.w = 0), 1, 1, [], []⟩
  | 0x02 | 0x0D | 0x0E | 0x0F | 0x1A => infoI o true
  | 0x04 | 0x05 | 0x15 | 0x16 => infoR o 1 1 1
  | 0x06 => infoR o 0 1 3
  | 0x07 => infoR o 1 1 3
  | 0x08 | 0x09 => infoR o 1 18 18
  | 0x13 => infoI o (decide (lf o 9 7 = 0))
  | 0x17 | 0x18 | 0x19 => infoI o (okRa o 0)
  | 0x1B => ⟨true, 1, 1, [kg (rdOf o), kg (raOf o)], [kg (rdOf o)]⟩
  | 0x1C => ⟨okR o 0, 1, 1, [kg (rdOf o), kg (raOf o), kg (rbOf o)], [kg (rdOf o)]⟩
  | 0x1D => ⟨okR o 7, 1, 1, [kg (raOf o), kg (rbOf o), kp (fnOf o)], [kg (rdOf o)]⟩
  | 0x1E => ⟨true, 1, 1, [], [kg (rdOf o)]⟩
  | 0x1F => ⟨decide (idx15 o < 4096), 2, 2, [], [kg (rdOf o)]⟩
  | _ => infoR o 0 1 1

/-- Compare and predicate, accumulators: opcodes 0x20 to 0x37. -/
def infoCmp (op : Nat) (o : Lim) : Option OpInfo :=
  match op with
  | 0x20 => some ⟨okR o 9 && okP (rdOf o), 1, 1, [kg (raOf o), kg (rbOf o)], [kp (rdOf o)]⟩
  | 0x21 => some ⟨true, 1, 1, [kg (raOf o)], [kp (pdOf o)]⟩
  | 0x22 => some ⟨okR o 6 && okP (rdOf o) && okF (raOf o) && okF (rbOf o), 1, 1, [kf (raOf o), kf (rbOf o)],
      [kp (rdOf o)]⟩
  | 0x23 => some ⟨okR o 4 && okP (rdOf o) && okP (raOf o) && okP (rbOf o) && (decide (fnOf o ≠ 4) ||
      decide (rbOf o = 0)), 1, 1, [kp (raOf o), kp (rbOf o)], [kp (rdOf o)]⟩
  | 0x24 =>
    if fnOf o = 0 then some ⟨okRa o 1 && decide (raOf o = 0), 1, 1, (List.range 8).map kp, [kg (rdOf o)]⟩
    else some ⟨okRa o 1 && decide (rdOf o = 0), 1, 1, [kg (raOf o)], (List.range 8).map kp⟩
  | 0x25 => some ⟨decide (ccOf o < 2), 1, 1, [kg (raOf o)], [kp (pdOf o)]⟩
  | 0x30 => some ⟨okR o 3 && okA (rdOf o), 1, 3, [kg (raOf o), kg (rbOf o), ka (rdOf o)], [ka (rdOf o)]⟩
  | 0x31 => some ⟨okR o 0 && okA (rdOf o), 1, 3, [kg (raOf o), kg (rbOf o), ka (rdOf o)], [ka (rdOf o)]⟩
  | 0x32 => some ⟨okRa o 31 && okA (rdOf o), 1, 1, [kg (raOf o)], [ka (rdOf o)]⟩
  | 0x33 => some ⟨okR o 0 && okA (rdOf o), 1, 1, [kg (raOf o), kg (rbOf o)], [ka (rdOf o)]⟩
  | 0x34 => some ⟨okA3 o, 1, 3, [ka (kOf o)], [kg (rdOf o)]⟩
  | 0x35 => some ⟨okRa o 1 && okA (rdOf o) && okA (raOf o), 1, 3, [ka (rdOf o), ka (raOf o)], [ka (rdOf o)]⟩
  | 0x36 => some ⟨okA3 o && decide (rdOf o = 0), 1, 3, [ka (kOf o)], [ka (kOf o)]⟩
  | 0x37 => some ⟨okRa o 1 && okA (raOf o), 1, 3, [ka (raOf o)], [kg (rdOf o)]⟩
  | _ => none

/-- Floating point: opcodes 0x40 to 0x4E. -/
def infoFlt (op : Nat) (o : Lim) : Option OpInfo :=
  match op with
  | 0x40 | 0x41 | 0x42 => some (infoF o 1 3)
  | 0x43 => some ⟨okF3 o 0, 1, 3, [kf (rdOf o), kf (raOf o), kf (rbOf o)], [kf (rdOf o)]⟩
  | 0x44 => some (infoF o 12 12)
  | 0x45 => some (infoU o 0 12)
  | 0x46 | 0x47 => some (infoF o 1 1)
  | 0x48 => some (infoU o 1 1)
  | 0x49 =>
    if fnOf o < 2 then some ⟨okRa o 3 && okF (raOf o), 1, 3, [kf (raOf o)], [kg (rdOf o)]⟩
    else some ⟨okRa o 3 && okF (rdOf o), 1, 3, [kg (raOf o)], [kf (rdOf o)]⟩
  | 0x4A =>
    if fnOf o = 0 then some ⟨okF2 o 2, 1, 1, [kf (raOf o)], [kf (rdOf o)]⟩
    else if fnOf o = 1 then some ⟨okRa o 2 && okF (rdOf o), 1, 1, [kg (raOf o)], [kf (rdOf o)]⟩
    else some ⟨okRa o 2 && okF (raOf o), 1, 1, [kf (raOf o)], [kg (rdOf o)]⟩
  | 0x4B => some ⟨okF3 o 0, 1, 1, [kf (rdOf o), kf (raOf o), kf (rbOf o)], [kf (rdOf o)]⟩
  | 0x4C => some ⟨decide (idx15 o < 4096) && okF (rdOf o), 2, 2, [], [kf (rdOf o)]⟩
  | 0x4D => some (infoU o 0 6)
  | 0x4E => some ⟨okRa o 0 && okF (rdOf o) && even (rdOf o), 4, 4, [kg (raOf o)], [kf (rdOf o), kf (rdOf o + 1)]⟩
  | _ => none

/-- Memory: opcodes 0x50 to 0x65. -/
def infoMem (op : Nat) (o : Lim) : Option OpInfo :=
  let g := [kg (rdOf o)]
  let f := [kf (rdOf o)]
  match op with
  | 0x50 | 0x51 | 0x52 | 0x53 | 0x54 => some (infoLd o true 2 g)
  | 0x55 => some (infoLd o (okPair o) 2 (pairOf o))
  | 0x56 | 0x57 | 0x58 => some (infoSt o true 1 g)
  | 0x59 => some (infoSt o (okPair o) 1 (pairOf o))
  | 0x5A => some (infoLd o (okFrd o) 2 f)
  | 0x5B => some (infoSt o (okFrd o) 1 f)
  | 0x60 => some (infoLd o true 8 g)
  | 0x61 => some (infoLd o (okPair o) 8 (pairOf o))
  | 0x62 => some (infoSt o true 2 g)
  | 0x63 => some (infoSt o (okPair o) 2 (pairOf o))
  | 0x64 => some (infoLd o (okFrd o) 8 f)
  | 0x65 => some (infoSt o (okFrd o) 2 f)
  | _ => none

/-- Ports, mailboxes, carts, engines, the Cellar, control flow and system: opcodes 0x70 to 0xA6. TREE.RUN is listed with
its cost without the declared one, JMP with its taken cost. -/
def infoSys (op : Nat) (o : Lim) : Option OpInfo :=
  let g := [kg (rdOf o)]
  match op with
  | 0x70 => some ⟨!fSel o || okF (rdOf o), 2, 2, [], [if fSel o then kf (rdOf o) else kg (rdOf o)]⟩
  | 0x71 => some ⟨!fSel o || okF (rdOf o), 1, 1, [if fSel o then kf (rdOf o) else kg (rdOf o)], []⟩
  | 0x78 => some ⟨decide (coreOf o < 6) && decide (lf o 5 0 = 0), 1, 1, g, []⟩
  | 0x79 | 0x7A => some ⟨decide (coreOf o = 0) && decide (lf o 5 0 = 0), 4, 4, [], g⟩
  | 0x80 => some ⟨decide (lf o 19 6 = 0), 1, 1, [], []⟩
  | 0x81 => some ⟨decide (ccOf o < 2) && decide (lf o 14 6 = 0), 1, 1, [], [kp (pdOf o)]⟩
  | 0x88 => some ⟨decide (rdOf o = 0), 2, 2, [kg (raOf o), kg (rbOf o)], []⟩
  | 0x90 => some ⟨okB o, 2, 2, [], []⟩
  | 0x91 => some ⟨okB o, 2, 2, [], []⟩
  | 0x92 => some ⟨okB o && decide (lf o 13 0 = 0), 2, 2, [], []⟩
  | 0x93 => some ⟨okL o && decide (countOf o ≠ 0), 1, 1, [], []⟩
  | 0x94 => some ⟨decide (boundOf o ≠ 0), 1, 1, [kg (lraOf o)], []⟩
  | 0x95 => some ⟨okL o && decide (countOf o = 0), 1, 1, [], []⟩
  | 0x96 => some ⟨decide (rdOf o = 0) && decide (rbOf o = 0), 3, 3, [kg (raOf o)], []⟩
  | 0x97 => some ⟨okB o && decide (lf o 13 0 = 0), 1, 1, [], []⟩
  | 0xA0 => some ⟨decide (idx15 o < 16384), 1, 1, [], g⟩
  | 0xA1 => some ⟨decide (idx15 o = 8), 1, 1, g, []⟩
  | 0xA2 => some ⟨decide (rdOf o = 0) && decide (idx15 o < 8), 1, 1, [], []⟩
  | 0xA3 => some ⟨true, 6, 6, [kg (raOf o)], g⟩
  | 0xA4 => some ⟨decide (rdOf o = 0) && decide (idx15 o < 256), 2, 2, [], []⟩
  | 0xA5 => some ⟨decide (rdOf o = 0) && okR o 0, 4, 4, [kg (raOf o), kg (rbOf o)], []⟩
  | 0xA6 => some ⟨decide (o.w = 0), 2, 2, [], []⟩
  | _ => none

/-- The entry of an instruction word; none for an opcode that is not listed. -/
def opInfo (w : Word) : Option OpInfo :=
  let op := opcodeOf w
  let o := limOf 0 w
  if op < 0x20 then some (infoInt op o)
  else if op < 0x40 then infoCmp op o
  else if op < 0x50 then infoFlt op o
  else if op < 0x70 then infoMem op o
  else infoSys op o

/-- The word is a listed encoding (R53, R55). -/
def legalWord (w : Word) : Bool :=
  match opInfo w with
  | some i => i.legal && okPred (limOf 0 w)
  | none => false

/-! ## Law snippets (R75, R197) -/

/-- The integer operations of the law profile. -/
def lawInt (op : Nat) (o : Lim) (s : State) : Out :=
  match op with
  | 0x00 => execNop o s
  | 0x01 => execAdd o s
  | 0x02 => execAddi o s
  | 0x03 => execSub o s
  | 0x04 => execAdds o s
  | 0x05 => execSubs o s
  | 0x06 => execMul o s
  | 0x07 => execMulh o s
  | 0x0A => execAnd o s
  | 0x0B => execOr o s
  | 0x0C => execXor o s
  | 0x0D => execAndi o s
  | 0x0E => execOri o s
  | 0x0F => execXori o s
  | 0x10 => execShl o s
  | 0x11 => execShr o s
  | 0x12 => execSar o s
  | 0x13 => execShi o s
  | 0x14 => execRot o s
  | 0x15 => execMin o s
  | 0x16 => execMax o s
  | 0x17 => execAbs o s
  | 0x18 => execClz o s
  | 0x19 => execPopc o s
  | 0x1A => execBfx o s
  | 0x1B => execBfi o s
  | 0x1C => execClamp o s
  | 0x1D => execSel o s
  | 0x1E => execMovi o s
  | 0x1F => execLdc o s
  | _ => .next s

/-- The other operations of the law profile. -/
def lawRest (op : Nat) (o : Lim) (s : State) : Out :=
  match op with
  | 0x20 => execCmp o s
  | 0x21 => execCmpi o s
  | 0x22 => execFcmp o s
  | 0x23 => execPlog o s
  | 0x30 => execMac o s
  | 0x32 => execAclr o s
  | 0x34 => execAext o s
  | 0x36 => execAshl o s
  | 0x40 => execFadd o s
  | 0x41 => execFsub o s
  | 0x42 => execFmul o s
  | 0x43 => execFma o s
  | 0x46 => execFmin o s
  | 0x47 => execFmax o s
  | 0x48 => execFabs o s
  | 0x49 => execFcvt o s
  | 0x4A => execFmov o s
  | 0x4B => execFclamp o s
  | 0x4C => execFldc o s
  | 0x4D => execFrsq o s
  | 0x4E => execFsc o s
  | 0x90 => execJmp o s
  | 0x97 => execTend o s
  | _ => .next s

/-- One instruction of a snippet, which stands in core 0 of a scratch machine. -/
def lawStep (s : State) : State :=
  let c := s.dev.core 0
  let w := c.imem.get c.pc.toNat
  let o := limOf 0 w
  match (if opcodeOf w < 0x20 then lawInt (opcodeOf w) o s else lawRest (opcodeOf w) o s) with
  | .next t => t
  | _ => s

/-- A snippet runs to its TEND: forward jumps only, so at most 64 instructions. -/
def lawRun : Nat → State → State
  | 0, s => s
  | n + 1, s => if (s.dev.core 0).run = .tick then lawRun n (lawStep s) else s

/-- The scratch machine a snippet runs in: its words, its constants and the registers that the datapath loads. -/
def lawScratch (x : Snippet) (c : Core) (d : Dev) : State :=
  let c := { c with imem := Words.setAll [] 0 x.code, consts := Words.setAll [] 0 x.consts, run := .tick, pc := 0,
                    cyc := 0, p := 1 }
  let t := { d.tick with phase := .compute, stopWork := false, edgeAt := 0, due := 750000 }
  let d := { d with tick := t, halted := false, loader := Loader.reset }
  { dev := d.setCore 0 c, snap := d, pending := [] }

end Sys2Proof.Machine
end

