-- ==== Sys2Proof/Machine/Motion.lean ====
section
/-! DEFINITION. Arithmetic that the planner and the control engine share: binary32 and binary64 operations on patterns,
exact values of binary32 patterns, and trajectory states (R61, R163, R165). -/
namespace Sys2Proof.Machine

/-! ## Binary32 on words (control engine) -/

def fAdd (a b : Word) : Word := word (addF b32 a.toNat b.toNat).w
def fSub (a b : Word) : Word := word (subF b32 a.toNat b.toNat).w
def fMul (a b : Word) : Word := word (mulF b32 a.toNat b.toNat).w
def fDiv (a b : Word) : Word := word (divF b32 a.toNat b.toNat).w
def fSqrt (a : Word) : Word := word (sqrtF b32 a.toNat).w
def fNeg (a : Word) : Word := word (negF b32 a.toNat).w
def fAbs (a : Word) : Word := word (absF b32 a.toNat).w
def fLt (a b : Word) : Bool := ltF b32 a.toNat b.toNat
def fFinite (a : Word) : Bool := finiteF b32 a.toNat
/-- The value kept within two bounds; a NaN stays. -/
def fClamp (x lo hi : Word) : Word := if fLt x lo then lo else if fLt hi x then hi else x
/-- -1, 0 or 1. -/
def fSign (a : Word) : Int := if fLt a 0 then -1 else if fLt 0 a then 1 else 0
def fMin (a b : Word) : Word := if fLt b a then b else a
def fMax (a b : Word) : Word := if fLt a b then b else a
def fOfInt (i : Int) : Word := word (ofIntF b32 i).w
/-- Order and sign of IEEE binary32 values, subnormal ones among them (R163). -/
def iLt (a b : Word) : Bool := ltF i32 a.toNat b.toNat
def iSign (a : Word) : Int := if iLt a 0 then -1 else if iLt 0 a then 1 else 0
def fOne : Word := 0x3F800000
def fHalf : Word := 0x3F000000
/-- √3 in binary32. -/
def fSqrt3 : Word := 0x3FDDB3D7

/-! ## Binary64 on patterns (planner) -/

def qAdd (a b : Nat) : Nat := (addF b64 a b).w
def qSub (a b : Nat) : Nat := (subF b64 a b).w
def qMul (a b : Nat) : Nat := (mulF b64 a b).w
def qDiv (a b : Nat) : Nat := (divF b64 a b).w
def qSqrt (a : Nat) : Nat := (sqrtF b64 a).w
def qNeg (a : Nat) : Nat := (negF b64 a).w
def qAbs (a : Nat) : Nat := (absF b64 a).w
def qLt (a b : Nat) : Bool := ltF b64 a b
def qLe (a b : Nat) : Bool := leF b64 a b
def qInt (i : Int) : Nat := (ofIntF b64 i).w
/-- The value kept within two bounds. -/
def qClamp (x lo hi : Nat) : Nat := if qLt x lo then lo else if qLt hi x then hi else x
/-- sign(x) as -1.0, 0.0 or 1.0. -/
def qSign (x : Nat) : Nat := if qLt x 0 then qInt (-1) else if qLt 0 x then qInt 1 else 0
/-- Binary32 to binary64, exactly, and back, rounded. -/
def q64 (w : Word) : Nat := (encodeF b64 (decodeF i32 w.toNat)).w
def q32 (x : Nat) : Word := word (encodeF i32 (decodeF b64 x)).w
/-- An integer count of 1/65,536 units as binary64, and a binary64 length rounded to 1/65,536 unit. -/
def qOfUnits (i : Int) : Nat := (ofRatF b64 i 65536).w
def unitsOf (x : Nat) : Int :=
  match decodeF b64 x with
  | .fin s m e => (rneV (.fin s m (e + 16))).getD 0
  | _ => 0

/-! ## Exact values -/

/-- The exact value of a finite binary32 pattern. -/
def ratOf (w : Word) : Rat :=
  match decodeF i32 w.toNat with
  | .fin s m e => if 0 ≤ e then mkRat (smant s m * 2 ^ e.toNat) 1 else mkRat (smant s m) (2 ^ (-e).toNat)
  | _ => 0

/-- An exact value rounded to binary32, as the control engine and as the planner take it, and to an integer (ties to even). -/
def f32OfRat (r : Rat) : Word := word (ofRatF b32 r.num r.den).w
def i32OfRat (r : Rat) : Word := word (ofRatF i32 r.num r.den).w
def rneRat (r : Rat) : Int :=
  let q := r.num.fdiv r.den
  let m := r.num - q * r.den
  if 2 * m < r.den then q else if (r.den : Int) < 2 * m then q + 1 else if q % 2 = 0 then q else q + 1

/-! ## Positions -/

/-- The shortest signed difference of two positions in 1/65,536 unit, modulo 2^48 (R163). -/
def posDiff (a b : BitVec 48) : Int := (a - b).toInt
def posOfInt (w : Word) : BitVec 48 := BitVec.ofNat 48 (w.toNat * 65536)
def posAdd (p : BitVec 48) (i : Int) : BitVec 48 := p + BitVec.ofInt 48 i
/-- The integer part. -/
def posInt (p : BitVec 48) : Word := word (p.toNat / 65536)

/-- The period in force in seconds. -/
def periodRat (d : Dev) : Rat := mkRat d.period 3000000000

/-- A hold interval: the velocity of its start, no acceleration (R166). -/
def holdEnd (d : Dev) (x : Traj) : Traj :=
  { p := posAdd x.p (rneRat (ratOf x.v * periodRat d * 65536)), v := x.v, a := 0 }

/-- The state at rest where a state stands. -/
def Traj.stopped (x : Traj) : Traj := { x with v := 0, a := 0 }

/-- The cubic of an interval, in units over the fraction u of the period that has passed: A u + B u² + C u³ from its start (R165). -/
structure Cubic where
  a : Rat
  b : Rat
  c : Rat
  deriving DecidableEq, Repr

/-- The cubic from a state that ends at a position after one period. -/
def cubicOf (d : Dev) (x : Traj) (fin : BitVec 48) : Cubic :=
  let t := periodRat d
  let a := ratOf x.v * t
  let b := ratOf x.a * t * t / 2
  ⟨a, b, mkRat (posDiff fin x.p) 65536 - a - b⟩

/-- Distance from the start, velocity and acceleration, the last two in units over the period. -/
def Cubic.pos (q : Cubic) (u : Rat) : Rat := q.a * u + q.b * u * u + q.c * u * u * u
def Cubic.vel (q : Cubic) (u : Rat) : Rat := q.a + 2 * q.b * u + 3 * q.c * u * u
def Cubic.acc (q : Cubic) (u : Rat) : Rat := 2 * q.b + 6 * q.c * u

/-- The trajectory of an axis at the fraction u of the running interval (R165). -/
def trajU (d : Dev) (x : Axis) (u : Rat) : Traj :=
  let q := cubicOf d x.cur x.fin.p
  let t := periodRat d
  { p := posAdd x.cur.p (rneRat (q.pos u * 65536)), v := if t = 0 then x.cur.v else i32OfRat (q.vel u / t),
    a := if t = 0 then x.cur.a else i32OfRat (q.acc u / (t * t)) }

/-- The trajectory of an axis at k quarters of the running interval. -/
def trajAt (d : Dev) (x : Axis) (k : Nat) : Traj := if k = 0 then x.cur else trajU d x (mkRat k 4)

/-- The least point of lo + 1 to hi from which a property holds that fails at lo and holds at hi, by bisection. -/
def firstFrom (p : Nat → Bool) : Nat → Nat → Nat → Nat
  | 0, _, hi => hi
  | n + 1, lo, hi =>
    if hi ≤ lo + 1 then hi
    else
      let m := (lo + hi) / 2
      if p m then firstFrom p n lo m else firstFrom p n m hi

/-- The velocity has a direction (true: backward) at part k of `parts` of the interval. -/
def Cubic.goes (q : Cubic) (back : Bool) (parts k : Nat) : Bool :=
  let v := q.vel (mkRat k parts)
  if back then decide (v < 0) else decide (0 < v)

/-- The part at which the motion that has a direction at part `hi` took that direction; none where it had it from the start of the
interval. Two changes in one interval lie on both sides of the velocity's turning point. -/
def Cubic.turn (q : Cubic) (back : Bool) (parts hi : Nat) : Option Nat :=
  let top := if q.c = 0 then 0 else (-q.b / (3 * q.c) * (parts : Nat)).floor.toNat
  if decide (0 < top) && decide (top < hi) && !q.goes back parts top then some (firstFrom (q.goes back parts) 32 top hi)
  else if !q.goes back parts 0 then some (firstFrom (q.goes back parts) 32 0 hi)
  else none

end Sys2Proof.Machine
end

