-- ==== Sys2Proof/Machine/Control.lean ====
section
/-! DEFINITION. The control engine and the power-stage outputs (09_control.md): servo and chopper passes in binary32 under
R61 in the written order (assumption 35), law snippets, the PWM compares, lane start, stop and trips. -/
namespace Sys2Proof.Machine

/-! ## Configuration and what a lane needs (R200, R204) -/

/-- Passes per tick by CTLn_CFG.PASSES (R188). -/
def passCount (d : Dev) (n : Nat) : Nat := 2 ^ d.fld (CTL_CFG n) 1 0

/-- The quarter of the tick at which pass j samples (R188). -/
def sampleQuarter (d : Dev) (n j : Nat) : Nat := j * (4 / passCount d n)

/-- A fractional edge i (0 to 2 for fe1 to fe3) is a sample and apply instant of lane n. -/
def usesFrac (d : Dev) (n i : Nat) : Bool := decide ((i + 1) % (4 / passCount d n) = 0)

/-- A CTLn_CARRIER value meets R200 under a period in tick units and a number of passes. -/
def carrierOk (c : Word) (period passes : Nat) : Bool :=
  if bit c 31 then
    let m := bits c 30 24
    decide (1 ≤ m) && decide (m % passes = 0) && decide (15000 * m ≤ period)
  else decide (7500 ≤ bits c 20 0)

/-- The output of phase p, and the SD channel of phase a, b, c (R204). -/
def phaseOut (d : Dev) (n p : Nat) : Nat := d.fld (CTL_PMAP n) (6 * p + 5) (6 * p)
def phaseCh (d : Dev) (n i : Nat) : Nat := d.fld (CTL_SMAP n) (5 * i + 4) (5 * i)

/-- An SD channel that a lane can measure with: named, and its group enabled. -/
def sdReady (d : Dev) (ch : Nat) : Bool := decide (ch < 24) && d.flag (CTL_SDGRP (ch / 8)) 0

/-- The lane has every output and current channel it needs (R204). -/
def laneEquipped (d : Dev) (n : Nat) : Bool :=
  let outs := if d.kind n = 1 then 3 else 4
  let chs := if d.kind n = 1 ∧ d.flag (CTL_CFG n) 2 = true then 3 else 2
  (List.range outs).all (fun p => decide (phaseOut d n p ≠ 63)) && (List.range chs).all (fun i => sdReady d (phaseCh d n i))

/-- A PMAP value that R204 refuses. -/
def pmapBad (d : Dev) (n : Nat) (v : Word) : Bool :=
  (List.range 4).any (fun p =>
    let o := bits v (6 * p + 5) (6 * p)
    decide (o ≠ 63) && (decide (47 < o) ||
      (d.flag CTL_PAIRMODE (o / 2) && decide (o % 2 = 1)) ||
      (List.range 16).any (fun k => decide (k ≠ n) && (List.range 4).any (fun q => decide (phaseOut d k q = o)))))

/-- A lane of a servo or a chopper stepper (R186). -/
def laneKind (d : Dev) (n : Nat) : Bool := decide (d.kind n = 1) || decide (d.kind n = 2)

/-- The lane runs passes (R187). -/
def laneRuns (d : Dev) (n : Fin 16) : Bool :=
  decide (d.mode = .run) && !d.halted && laneKind d n && d.flag (AX_CTRL n) 0 && !d.flag (CTL_STAT n) 9 &&
    (d.axis n).on

/-- The committed carriers are checked again at an edge at which a new period or new PASSES take effect, once every write of the
edge has committed; `old` is the device before them (R200). -/
def carrierRecheck (old d : Dev) : Dev :=
  forAll 16 (fun n d =>
    if laneKind d n && (decide (d.period ≠ old.period) || decide (passCount d n ≠ passCount old n)) &&
        !carrierOk (d.reg (CTL_CARRIER n)) d.period (passCount d n) then
      let d := laneNote (Fin.ofNat 16 n) 8 d
      d.setLane (Fin.ofNat 16 n) { d.lane (Fin.ofNat 16 n) with badCar := true, drive := false }
    else d) d

/-! ## Commits of the lane's registers -/

/-- A gain value that R193 refuses, by offset in the lane window. -/
def gainBad (offset : Nat) (v : Word) : Bool :=
  if offset = 0x1C then false
  else if !fFinite v then true
  else if offset = 0x24 then fLt v 0 || fLt 0x40000000 v
  else if offset = 0x48 then !fLt 0 v
  else if offset = 0x4C then fLt v 0 || fLt fOne v
  else if 0x20 ≤ offset ∧ offset ≤ 0x44 then fLt v 0
  else false

/-- A committed write of a gain: ignored with CFGERR where R193 refuses it. -/
def commitGain (n : Fin 16) (offset : Nat) (v : Word) (d : Dev) : Dev :=
  if gainBad offset v then laneNote n 8 d else d.setReg (CTL_CFG n + offset) v

/-- GAIN_WRITE names a WT register of the lane: the gains, the current scaling, the chopper's and the tables' scales. -/
def isGain (offset : Nat) : Bool :=
  decide (offset % 4 = 0) && ((decide (0x1C ≤ offset) && decide (offset ≤ 0x78)) ||
    (decide (0x88 ≤ offset) && decide (offset ≤ 0x94)))

def execGainWrite (n : Fin 16) (offset : Nat) (v : Word) (s : State) : Out :=
  atEdge (fun d => if isGain offset then commitGain n offset v d else d) s

/-- A committed write of CTLn_CFG, CTLn_PMAP or CTLn_CARRIER (R188, R200, R204). -/
def commitLaneCfg (n : Fin 16) (v : Word) (d : Dev) : Dev :=
  if bits v 1 0 = 3 then laneNote n 8 d else d.setReg (CTL_CFG n) (v &&& 7)
def commitPmap (n : Fin 16) (v : Word) (d : Dev) : Dev :=
  if pmapBad d n v then laneNote n 8 d else d.setReg (CTL_PMAP n) (v &&& 0xFFFFFF)
def commitCarrier (n : Fin 16) (v : Word) (d : Dev) : Dev :=
  if carrierOk v d.period (passCount d n) then
    (d.setReg (CTL_CARRIER n) (v &&& 0xFF1FFFFF)).setLane n { d.lane n with badCar := false }
  else laneNote n 8 d

/-- Entry i of the friction table (8 bits) and of the cogging table (16 bits, signed) of a lane (R196). -/
def frEntry (d : Dev) (n i : Nat) : Nat := d.fld (CTL_FRTAB n (i / 4)) (8 * (i % 4) + 7) (8 * (i % 4))
def cgEntry (d : Dev) (n i : Nat) : Int :=
  signed 16 (d.fld (CTL_CGTAB n (i / 2)) (16 * (i % 2) + 15) (16 * (i % 2)))

/-- A committed TWR word: one entry of a table, whose learned flag clears (R196). -/
def tableWrite (n : Fin 16) (v : Word) (d : Dev) : Dev :=
  if !bit v 11 then d
  else
    let i := bits v 9 0
    if bit v 10 then
      Dev.setFlag (CTL_STAT n) 11 false
        (Dev.setFld (CTL_CGTAB n (i / 2)) (16 * (i % 2) + 15) (16 * (i % 2)) (bits v 31 16) d)
    else
      Dev.setFlag (CTL_STAT n) 10 false
        (Dev.setFld (CTL_FRTAB n (i / 4)) (8 * (i % 4) + 7) (8 * (i % 4)) (bits v 23 16) d)

def execTableWrite (n : Fin 16) (v : Word) (s : State) : Out := atEdge (tableWrite n v) s

/-- TACT bits: FRSET 0, FRCLR 1, CGSET 2, CGCLR 3, after the entry writes of the edge (R196). -/
def frSet (n : Fin 16) (d : Dev) : Dev := Dev.setFlag (CTL_STAT n) 10 true d
def frClr (n : Fin 16) (d : Dev) : Dev := Dev.setFlag (CTL_STAT n) 10 false d
def cgSet (n : Fin 16) (d : Dev) : Dev := Dev.setFlag (CTL_STAT n) 11 true d
def cgClr (n : Fin 16) (d : Dev) : Dev := Dev.setFlag (CTL_STAT n) 11 false d
def laneAct (n : Fin 16) (v : Word) (d : Dev) : Dev :=
  let d := if bit v 0 then frSet n d else d
  let d := if bit v 1 then frClr n d else d
  let d := if bit v 2 then cgSet n d else d
  if bit v 3 then cgClr n d else d

def execFrset (n : Fin 16) (s : State) : Out := atEdge (frSet n) s
def execFrclr (n : Fin 16) (s : State) : Out := atEdge (frClr n) s
def execCgset (n : Fin 16) (s : State) : Out := atEdge (cgSet n) s
def execCgclr (n : Fin 16) (s : State) : Out := atEdge (cgClr n) s

/-! ## Start and stop of a lane (R192, R199, R200, R204, R207) -/

/-- The output ports of lane n: IPRE +0x40, LAWPAR +0x44, IFF +0x54, TQREQ +0x58, LMODE +0x5C. -/
def lanePort (d : Dev) (n ofs : Nat) : Word := d.out (0x1000 + 0x80 * n + ofs)
def lmode (d : Dev) (n i : Nat) : Bool := bit (lanePort d n 0x5C) i

/-- The channel that axis n reads. -/
def axisCh (d : Dev) (n : Nat) : Fin 16 := Fin.ofNat 16 (d.fld (AX_CFG n) 31 28)

/-- Electrical turns of a coil in 1/65,536 microsteps. -/
def coilTurn (d : Dev) (n : Nat) : Nat := 4 * legalOr d 1 256 (d.fld (CTL_MSTEP n) 8 0) * 65536

/-- The mechanical phase and the position of a lane are those of its channel as latched (R192). -/
def lanePhase (n : Fin 16) (d : Dev) : Dev :=
  let l := d.lane n
  let p := (d.ch (axisCh d n)).pos
  let cpr := legalOr d 1 0xFFFFFFFF (d.reg (CTL_CPR n)).toNat
  d.setLane n { l with m := p.toNat % cpr, prevPm := p, shiftS := l.shift, prevShift := l.shift, pmS := p }

/-- A start edge: TRIP clears, integrators and the snippet state are set, the phases are aligned; a lane that cannot run
trips with CFGERR. `blind` is a start under R172. -/
def laneStart (n : Fin 16) (blind : Bool) (d : Dev) : Dev :=
  let d := Dev.setFlag (CTL_STAT n) 9 false d
  if !laneKind d n then d
  else
    let l := d.lane n
    let ch := d.ch (axisCh d n)
    let cpr := legalOr d 1 0xFFFFFFFF (d.reg (CTL_CPR n)).toNat
    let turn := coilTurn d n
    let steps := mkRat ch.pos.toInt 1 * ratOf (d.reg (AX_FBRATIO n)) * 65536
    let l := { l with
      xv := if lmode d n 2 then lanePort d n 0x40 else l.xv, xd := 0, xq := 0, xa := 0, xb := 0,
      m := ch.pos.toNat % cpr, prevPm := ch.pos, shiftS := l.shift, prevShift := l.shift, pmS := ch.pos,
      theta := if blind then 0 else (steps.floor.emod turn).toNat, prevPc := (d.axis n).cur.p,
      strong := blind || l.strong, wanted := false, forced := false, iaNeg := none, rampN := 0, next := none,
      wait := none, sg := Vector.replicate 8 0, sf := Vector.replicate 8 0, sa := 0, tripped := false }
    let d := d.setLane n l
    if l.badCar || !laneEquipped d n then laneTrip n 8 d else d

/-- EN = 0 commits: the lane stops driving and its integrators are 0 (R173, R199). -/
def laneStop (n : Fin 16) (d : Dev) : Dev :=
  d.setLane n { d.lane n with xv := 0, xd := 0, xq := 0, xa := 0, xb := 0, drive := false, next := none, wait := none,
                              tripped := false }

/-- The state of a lane that reverts to its values at edge n when a tick is abandoned (R43). -/
def laneRevert (old new : Lane) : Lane :=
  { new with xv := old.xv, xd := old.xd, xq := old.xq, vf := old.vf, xa := old.xa, xb := old.xb, m := old.m,
             prevPm := old.prevPm, prevShift := old.prevShift, theta := old.theta, prevPc := old.prevPc,
             strong := old.strong, wanted := old.wanted, forced := old.forced, iaNeg := old.iaNeg,
             rampN := old.rampN, rampAmp := old.rampAmp, sg := old.sg, sf := old.sf, sa := old.sa, next := none }

/-- What a lane samples at edge n: position, SPD and SPDV of its channel as latched in Capture. -/
def laneCapture (n : Fin 16) (d : Dev) : Dev :=
  let c := axisCh d n
  let x := d.ch c
  let l := d.lane n
  let d := d.setLane n { l with pmS := x.pos, shiftS := l.shift, spdS := x.spd, spdvS := d.flag (FB_STAT c) 0,
                                passes := 0 }
  -- STALE at four Captures in a row trips a servo lane (R210)
  let l := d.lane n
  if d.kind n = 1 ∧ d.flag (AX_CFG n) 27 = true ∧ d.fld (FB_CFG c) 2 0 ≠ 0 ∧ d.flag (FB_STAT c) 4 = true then
    let d := d.setLane n { l with stale := min 4 (l.stale + 1) }
    if 3 ≤ l.stale ∧ d.flag (CTL_STAT n) 9 = false then laneTrip n 6 d else d
  else d.setLane n { l with stale := 0 }

/-- What a lane samples at a fractional edge it uses: the counter of its channel at that instant (R136). -/
def laneFrac (n : Fin 16) (d : Dev) : Dev :=
  let l := d.lane n
  d.setLane n { l with pmS := (d.ch (axisCh d n)).cnt, shiftS := l.shift }

/-- CTLn_STAT as it reads: RUN while the lane runs passes, STRONG for the chopper mode in force (R187, R208). -/
def laneStatus (d : Dev) (n : Fin 16) : Word :=
  setBit (setBit (d.reg (CTL_STAT n)) 0 (laneRuns d n)) 1 (d.lane n).strong

/-! ## Currents (R205) -/

/-- C(i, 2), and the weight of modulator bit i in a sinc3 window of 3 OSR - 2 bits. -/
def choose2 (i : Nat) : Nat := i * (i - 1) / 2
def sinc3Weight (osr i : Nat) : Int :=
  (choose2 (i + 2) : Int) - 3 * (choose2 (i + 2 - osr) : Nat) + 3 * (choose2 (i + 2 - 2 * osr) : Nat)

/-- The decimator output as a fraction of full scale. -/
def sinc3 (osr : Nat) (bs : List Bool) : Rat :=
  let w := 3 * osr - 2
  let bs := bs.drop (bs.length - w)
  let n := (bs.zipIdx).foldl (fun (t : Int) e => if e.1 then t + sinc3Weight osr e.2 else t - sinc3Weight osr e.2) 0
  mkRat n (osr * osr * osr)

/-- The current of phase i of lane n in A. -/
def phaseCurrent (d : Dev) (n i : Nat) (bs : List Bool) : Word :=
  let osr := legalOr d 16 256 (d.fld (CTL_SDGRP (phaseCh d n i / 8)) 12 4)
  fSub (fMul (f32OfRat (sinc3 osr bs)) (d.reg (CTL_ISCALE n))) (d.reg (CTL_IOFS n i))

/-! ## Law hooks (R197, R198) -/

/-- The snippet of a lane and hook in the image in force. -/
def snippetOf (d : Dev) (n hook : Nat) : Option Snippet :=
  match d.loader.image with
  | none => none
  | some i => i.snippets.find? (fun x => decide (x.lane = n) && decide (x.hook = hook))

/-- A finite output of a snippet; 0.0 with LAWNAN otherwise. -/
def lawOut (n : Fin 16) (w : Word) (d : Dev) : Word × Dev := if fFinite w then (w, d) else (0, laneNote n 7 d)

/-- The registers of a pass that every hook loads: dt, the position of the channel, the commanded position, the angle. -/
structure HookIn where
  dt  : Word
  pm  : Word
  pc  : Word
  ang : Word
  deriving DecidableEq, Repr

/-- A hook runs: f0 to f4 in, f0 and f1 out. Without a snippet the values pass unchanged. -/
def runHook (n : Fin 16) (hook : Nat) (h : HookIn) (fin : List Word) (d : Dev) : Word × Word × Dev :=
  let f0 := fin.getD 0 0
  let f1 := fin.getD 1 0
  match snippetOf d n hook with
  | none => (f0, f1, d)
  | some x =>
    let l := d.lane n
    let gs := [0, h.pm, h.pc, h.ang] ++ (List.range 4).map (fun i => lanePort d n (0x44 + 4 * i)) ++ l.sg.toList
    let fs := (List.range 5).map (fun i => fin.getD i 0) ++ [h.dt, d.reg (CTL_GAIN n 6), d.reg (CTL_VBUS n)] ++
      l.sf.toList
    let c := Core.reset
    let c := (List.range 16).foldl (fun c i => c.setG i (gs.getD i 0)) c
    let c := (List.range 16).foldl (fun c i => c.setF i (fs.getD i 0)) c
    let t := lawRun 64 (lawScratch x (c.setA 0 l.sa) d)
    let c := t.dev.core 0
    let d := d.setLane n { l with sg := Vector.ofFn (fun i => c.gr (8 + i.val)),
                                  sf := Vector.ofFn (fun i => c.fr (8 + i.val)), sa := c.ac 0 }
    let (o0, d) := lawOut n (c.fr 0) d
    if hook < 2 then (o0, f1, d)
    else
      let (o1, d) := lawOut n (c.fr 1) d
      (o0, o1, d)

/-! ## The servo law (R191 to R195) -/

/-- dt of a pass in seconds. -/
def passDt (d : Dev) (n : Nat) : Word := f32OfRat (periodRat d / (passCount d n : Nat))

/-- φ of R195 and the table index, with the remainder of the division. -/
def tableIndex (d : Dev) (n : Nat) (pm : Word) : Nat × Nat × Nat :=
  let span := legalOr d 1024 0xFFFFFFFF (d.reg (CTL_TSPAN n)).toNat
  let phi := ((pm - d.reg (CTL_TORG n)).toInt.emod span).toNat
  (phi * 1024 / span, phi * 1024 % span, span)

/-- The friction term: the entry times FRSCALE with the sign of vc; 0 below FRDEAD or when not learned. -/
def frictionOf (d : Dev) (n : Nat) (pm vc : Word) : Word :=
  let (i, _, _) := tableIndex d n pm
  if !d.flag (CTL_STAT n) 10 || fLt (fAbs vc) (d.reg (CTL_FRDEAD n)) then 0
  else fMul (fMul (fOfInt (frEntry d n i)) (d.reg (CTL_FRSCALE n))) (fOfInt (fSign vc))

/-- The cogging term: interpolated between entries, times CGSCALE; 0 when not learned. -/
def coggingOf (d : Dev) (n : Nat) (pm : Word) : Word :=
  let (i, r, span) := tableIndex d n pm
  if !d.flag (CTL_STAT n) 11 then 0
  else
    let e0 := cgEntry d n i
    let e1 := cgEntry d n ((i + 1) % 1024)
    fMul (f32OfRat (mkRat (e0 * span + (e1 - e0) * r) span)) (d.reg (CTL_CGSCALE n))

/-- A turn fraction in binary32 as an angle word, modulo one turn. -/
def angleOf (turns : Word) : Word :=
  match decodeF b32 turns.toNat with
  | .fin s m e => wordI ((rneV (.fin s m (e + 32))).getD 0)
  | _ => 0

/-- Clarke (amplitude-invariant, assumption 36) and Park. -/
def clarke (ia ib ic : Word) : Word × Word :=
  (fDiv (fSub (fSub (fMul 0x40000000 ia) ib) ic) 0x40400000, fDiv (fSub ib ic) fSqrt3)
def park (al be ang : Word) : Word × Word :=
  (fAdd (fMul al (cosW ang)) (fMul be (sinW ang)), fSub (fMul be (cosW ang)) (fMul al (sinW ang)))

/-- SVPWM of inverse Park: duties of phases 0 to 2. -/
def svpwm (d : Dev) (n : Nat) (vd vq ang : Word) : Vector Word 4 :=
  let al := fSub (fMul vd (cosW ang)) (fMul vq (sinW ang))
  let be := fAdd (fMul vd (sinW ang)) (fMul vq (cosW ang))
  let h := fMul (fDiv fSqrt3 0x40000000) be
  let va := al
  let vb := fAdd (fNeg (fMul fHalf al)) h
  let vc := fSub (fNeg (fMul fHalf al)) h
  let z := fNeg (fDiv (fAdd (fMax (fMax va vb) vc) (fMin (fMin va vb) vc)) 0x40000000)
  let duty := fun v => fClamp (fAdd fHalf (fDiv (fAdd v z) (d.reg (CTL_VBUS n)))) 0 fOne
  #v[duty va, duty vb, duty vc, 0]

/-- Set a sticky bit of CTLn_STAT that raises no event (VSAT). -/
def laneFlag (n : Fin 16) (i : Nat) (b : Bool) (d : Dev) : Dev := if b then Dev.setFlag (CTL_STAT n) i true d else d

/-- The servo gains by index: KPP 0, KFFV 1, KVP 2, KVI 3, KFFA 4, VFILT 5, ILIM 6, KCP 7, KCI 8, KE 9, IDREF 12. -/
def gain (d : Dev) (n i : Nat) : Word := d.reg (CTL_GAIN n i)

/-- The mechanical phase advances by the motion of the channel since the previous pass, without re-references (R192). -/
def phaseStep (d : Dev) (n : Nat) (l : Lane) : Nat :=
  let cpr := legalOr d 1 0xFFFFFFFF (d.reg (CTL_CPR n)).toNat
  let moved := ((l.pmS - l.prevPm) - (l.shiftS - l.prevShift)).toInt
  (((l.m : Int) + moved).emod cpr).toNat

/-- The velocity part of R191: vf, the velocity loop and the torque request, up to the clamp of iq*. Answers iq* before
the clamp. -/
def servoOuter (n : Fin 16) (h : HookIn) (x : Traj) (d : Dev) : Word × Dev :=
  let l := d.lane n
  if lmode d n 0 then (lanePort d n 0x58, d)
  else
    let ilim := gain d n 6
    let ep := f32OfRat (mkRat (posDiff x.p (posOfInt l.pmS)) 65536)
    let vr := fAdd (fMul (gain d n 1) x.v) (fMul (gain d n 0) ep)
    let (vr, _, d) := runHook n 0 h [vr, ep, x.v, x.a, l.vf] d
    let ev := fSub vr l.vf
    let iq := fAdd (fAdd (fMul (gain d n 2) ev) l.xv) (fMul (gain d n 4) x.a)
    let (iq, _, d) := runHook n 1 h [iq, ev, vr, l.vf, l.xv] d
    let xv := if fLt (fAbs iq) ilim || decide (fSign ev ≠ fSign iq) then
        fClamp (fAdd l.xv (fMul (fMul (gain d n 3) ev) h.dt)) (fNeg ilim) ilim
      else l.xv
    let d := d.setLane n { d.lane n with xv := xv, ep := wordI (posDiff x.p (posOfInt l.pmS) / 65536) }
    (fAdd (fAdd (fAdd iq (frictionOf d n l.pmS x.v)) (coggingOf d n l.pmS)) (lanePort d n 0x54), d)

/-- The current part of R191: hook 2, the current loops, hook 3, the voltage limit and the duties. -/
def servoInner (n : Fin 16) (h : HookIn) (iq0 ia ib ic : Word) (first : Bool) (d : Dev) : Dev :=
  let ilim := gain d n 6
  let iqc := fClamp iq0 (fNeg ilim) ilim
  let (iqh, idr, d) := runHook n 2 h [iqc, gain d n 12] d
  let iqr := fClamp iqh (fNeg ilim) ilim
  let d := if iqc ≠ iq0 ∨ iqr ≠ iqh then laneNote n 2 d else d
  let (al, be) := clarke ia ib ic
  let (id, iq) := park al be h.ang
  let l := d.lane n
  let vd := fAdd (fMul (gain d n 7) (fSub idr id)) l.xd
  let vq := fAdd (fAdd (fMul (gain d n 7) (fSub iqr iq)) l.xq) (fMul (gain d n 9) l.vf)
  let (vd, vq, d) := runHook n 3 h [vd, vq, id, iq] d
  let lim := fDiv (fMul (d.reg (CTL_MODMAX n)) (d.reg (CTL_VBUS n))) fSqrt3
  let len := fSqrt (fAdd (fMul vd vd) (fMul vq vq))
  let ovr := fLt lim len
  let k := fDiv lim len
  let vd := if ovr then fMul vd k else vd
  let vq := if ovr then fMul vq k else vq
  let d := laneFlag n 3 ovr d
  let l := d.lane n
  let poles := legalOr d 1 64 (d.fld (CTL_POLES n) 6 0)
  let cpr := legalOr d 1 0xFFFFFFFF (d.reg (CTL_CPR n)).toNat
  let turns := fDiv (fMul l.vf (fOfInt poles)) (fOfInt cpr)
  let lead := angleOf (fMul (fMul turns 0x3FC00000) h.dt)
  let xd := if ovr then l.xd else fAdd l.xd (fMul (fMul (gain d n 8) (fSub idr id)) h.dt)
  let xq := if ovr then l.xq else fAdd l.xq (fMul (fMul (gain d n 8) (fSub iqr iq)) h.dt)
  d.setLane n { l with xd := xd, xq := xq, iqRef := iqr, idRef := idr, vd := vd, vq := vq,
                       ia := if first then ia else l.ia, ib := if first then ib else l.ib,
                       ic := if first then ic else l.ic, id_ := if first then id else l.id_,
                       iq := if first then iq else l.iq, ang := if first then h.ang else l.ang,
                       next := some (svpwm d n vd vq (h.ang + lead)) }

/-- The lane can begin its next pass: it runs, its sample instant has come and the work of the tick goes on. -/
def passReady (d : Dev) (n : Fin 16) : Bool :=
  let j := (d.lane n).passes
  laneRuns d n && decide (d.tick.phase ≠ .idle) && !d.tick.stopWork && decide (j < passCount d n) &&
    decide (sampleQuarter d n j ≤ d.tick.fracDone)

/-- CONTROL_PASS (R191). -/
def servoPass (n : Fin 16) (b : PassBits) (d : Dev) : Dev :=
  if !(passReady d n && decide (d.kind n = 1)) then d
  else
    let l := d.lane n
    let j := l.passes
    let x := trajAt d (d.axis n) (sampleQuarter d n j)
    let dt := passDt d n
    let ia := phaseCurrent d n 0 b.ia
    let ib := phaseCurrent d n 1 b.ib
    let ic := if d.flag (CTL_CFG n) 2 then phaseCurrent d n 2 b.ic else fNeg (fAdd ia ib)
    let vm := if l.spdvS then l.spdS else fDiv (fOfInt (shortest l.pmS l.prevPm)) dt
    let vt := d.reg (CTL_GAIN n 5)
    let vf := if fSign vt = 0 then vm else fAdd l.vf (fMul (fSub vm l.vf) (fMin fOne (fDiv dt vt)))
    let m := phaseStep d n l
    let poles := legalOr d 1 64 (d.fld (CTL_POLES n) 6 0)
    let cpr := legalOr d 1 0xFFFFFFFF (d.reg (CTL_CPR n)).toNat
    let ang := d.reg (CTL_EOFS n) + word (m * poles * 2 ^ 32 / cpr)
    let h : HookIn := ⟨dt, l.pmS, posInt x.p, ang⟩
    let d := d.setLane n { l with vf := vf, m := m, passes := j + 1 }
    let (iq0, d) := servoOuter n h x d
    let d := servoInner n h iq0 ia ib ic (decide (j = 0)) d
    let l := d.lane n
    d.setLane n { l with prevPm := l.pmS, prevShift := l.shiftS }

def execControlPass (n : Fin 16) (b : PassBits) (s : State) : Out := .next { s with dev := servoPass n b s.dev }

/-! ## The stepper chopper (R207, R208) -/

/-- The mode the lane wants at a speed: strong, quiet, or as it is. -/
def wantStrong (d : Dev) (n : Fin 16) (vc : Word) : Bool :=
  let v := fAbs vc
  let must := !fLt v (d.reg (CTL_VSTR n)) || lmode d n 1 || (d.axis n).blind
  if must then true
  else if fLt v (fSub (d.reg (CTL_VSTR n)) (d.reg (CTL_VHYS n))) then false
  else (d.lane n).strong

/-- The amplitude of a mode. -/
def modeAmp (d : Dev) (n : Nat) (strong : Bool) : Word := if strong then d.reg (CTL_ISTRONG n) else d.reg (CTL_IQUIET n)

/-- The mode and the amplitude of a pass (R208): a wanted change takes place where ia* changes sign, or at the pass after
its 50 ms, then with a ramp of 16 passes; in the blind hold strong mode is held at once. -/
def chopperMode (n : Fin 16) (vc cosA : Word) (d : Dev) : Word × Dev :=
  let l := d.lane n
  let want := wantStrong d n vc
  let wanted := want != l.strong
  let ia0 := fMul (modeAmp d n l.strong) cosA
  let cross := decide (fSign ia0 ≠ 0) && (match l.iaNeg with
    | some g => g != fLt ia0 0
    | none => false)
  if wanted && l.forced then
    let old := modeAmp d n l.strong
    let l := { l with strong := want, wanted := false, forced := false, rampN := 15, rampAmp := old }
    let d := d.setLane n l
    (fAdd old (fDiv (fSub (modeAmp d n want) old) 0x41800000), d)
  else if wanted && cross then
    let d := d.setLane n { l with strong := want, wanted := false, rampN := 0 }
    (modeAmp d n want, d)
  else
    let amp := modeAmp d n l.strong
    let k := 16 - l.rampN + 1
    let a := if l.rampN = 0 then amp else fAdd l.rampAmp (fDiv (fMul (fSub amp l.rampAmp) (fOfInt k)) 0x41800000)
    (a, d.setLane n { l with wanted := wanted, forced := wanted && l.forced, rampN := l.rampN - 1 })

/-- CHOPPER_PASS (R207). -/
def chopperPass (n : Fin 16) (b : PassBits) (d : Dev) : Dev :=
  if !(passReady d n && decide (d.kind n = 2)) then d
  else
    let l := d.lane n
    let j := l.passes
    let first := decide (j = 0)
    let x := trajAt d (d.axis n) (sampleQuarter d n j)
    let dt := passDt d n
    let turn := coilTurn d n
    let theta := (((l.theta : Int) + posDiff x.p l.prevPc).emod turn).toNat
    let ang := word (theta * 2 ^ 32 / turn)
    let ia := phaseCurrent d n 0 b.ia
    let ib := phaseCurrent d n 1 b.ib
    let h : HookIn := ⟨dt, l.pmS, posInt x.p, ang⟩
    let d := d.setLane n { l with theta := theta, prevPc := x.p, passes := j + 1 }
    let (amp, d) := chopperMode n x.v (cosW ang) d
    let (amp, _, d) := runHook n 2 h [amp, 0] d
    let iar := fMul amp (cosW ang)
    let ibr := fMul amp (sinW ang)
    let strong := (d.lane n).strong
    let kp := if strong then gain d n 7 else d.reg (CTL_KQP n)
    let ki := if strong then gain d n 8 else d.reg (CTL_KQI n)
    let l := d.lane n
    let va := fAdd (fMul kp (fSub iar ia)) l.xa
    let vb := fAdd (fMul kp (fSub ibr ib)) l.xb
    let (va, vb, d) := runHook n 3 h [va, vb, ia, ib] d
    let lim := fMul (d.reg (CTL_MODMAX n)) (d.reg (CTL_VBUS n))
    let overA := fLt lim (fAbs va)
    let overB := fLt lim (fAbs vb)
    let va := fClamp va (fNeg lim) lim
    let vb := fClamp vb (fNeg lim) lim
    let d := laneFlag n 3 (overA || overB) d
    let l := d.lane n
    let half := fun (v : Word) => fDiv v (fMul 0x40000000 (d.reg (CTL_VBUS n)))
    let duties := #v[fAdd fHalf (half va), fSub fHalf (half va), fAdd fHalf (half vb), fSub fHalf (half vb)]
    d.setLane n { l with
      xa := if overA then l.xa else fAdd l.xa (fMul (fMul ki (fSub iar ia)) dt),
      xb := if overB then l.xb else fAdd l.xb (fMul (fMul ki (fSub ibr ib)) dt),
      iaNeg := if fSign iar = 0 then l.iaNeg else some (fLt iar 0), iqRef := amp, idRef := 0, vd := va, vq := vb,
      ia := if first then ia else l.ia, ib := if first then ib else l.ib, ic := 0,
      ang := if first then ang else l.ang, prevPm := l.pmS, prevShift := l.shiftS, next := some duties }

def execChopperPass (n : Fin 16) (b : PassBits) (s : State) : Out := .next { s with dev := chopperPass n b s.dev }

/-- CHOPPER_MODE_TIMEOUT: 50 ms after a change was wanted it takes place at the next pass (R208). -/
def execChopperModeTimeout (n : Fin 16) (s : State) : Out :=
  .next { s with dev := let l := s.dev.lane n
                        if l.wanted then s.dev.setLane n { l with forced := true } else s.dev }

/-! ## The PWM block (R201) -/

/-- The compares of a finished pass reach their apply instant; those of a lane that no longer runs are dropped, and its outputs
stay inactive (R187, R210). -/
def applyCompares (n : Fin 16) (d : Dev) : Dev :=
  let l := d.lane n
  match l.next with
  | none => d
  | some v =>
    if !laneRuns d n then d.setLane n { l with next := none, wait := none, drive := false }
    else if d.flag (CTL_CARRIER n) 31 then d.setLane n { l with next := none, load := v, drive := true }
    else d.setLane n { l with next := none, wait := some v }

/-- CARRIER_VALLEY: with LOCK = 0 compares take effect at the first valley at or after their apply instant. -/
def carrierValley (n : Fin 16) (d : Dev) : Dev :=
  let l := d.lane n
  match l.wait with
  | none => d
  | some v => if laneRuns d n then d.setLane n { l with wait := none, load := v, drive := true }
    else d.setLane n { l with wait := none, drive := false }

def execCarrierValley (n : Fin 16) (s : State) : Out := .next { s with dev := carrierValley n s.dev }

/-- On-time of phase p in 1/16 core cycles: d × T, rounded (R201); T is 8 P / M sixteenths with LOCK = 1, 16 CPER
otherwise (R200). -/
def onTime (d : Dev) (n : Fin 16) (p : Fin 4) : Nat :=
  let c := d.reg (CTL_CARRIER n)
  let t := if bit c 31 then mkRat (8 * d.period) (bits c 30 24) else mkRat (16 * bits c 20 0) 1
  if (d.lane n).drive then (rneRat (ratOf (d.lane n).load[p] * t)).toNat else 0

/-! ## Protection (R206, R209, R210) -/

/-- Lane n maps SD channel ch. -/
def mapsCh (d : Dev) (n ch : Nat) : Bool :=
  laneKind d n && (List.range 3).any (fun i => decide (phaseCh d n i = ch))

/-- OVERCURRENT_TRIP: each lane that maps the channel and whose OCLIM |i| exceeds trips with OC. -/
def overcurrent (ch : Fin 24) (amps : Word) (d : Dev) : Dev :=
  forAll 16 (fun n d =>
    let lim := d.reg (CTL_OCLIM n)
    if mapsCh d n ch && decide (fSign lim ≠ 0) && fLt lim (fAbs amps) then laneTrip (Fin.ofNat 16 n) 4 d else d) d

def execOvercurrentTrip (ch : Fin 24) (amps : Word) (s : State) : Out :=
  .next { s with dev := overcurrent ch amps s.dev }

/-- SD_ERROR: the channel's bit of CTL_SDSTAT; every lane that maps it trips with SDERR. -/
def sdError (ch : Fin 24) (d : Dev) : Dev :=
  forAll 16 (fun n d => if mapsCh d n ch then laneTrip (Fin.ofNat 16 n) 5 d else d) (Dev.setFlag CTL_SDSTAT ch true d)

def execSdError (ch : Fin 24) (s : State) : Out := .next { s with dev := sdError ch s.dev }

/-! ## Input ports (R211) -/

/-- The lanes as their ports show them for a tick: currents and the angle are those sampled at edge n, which the first pass, begun
within Capture, has by its end (R189, assumption 127); the rest is what stood at the edge (R211). -/
def laneLatch (edge now : Vector Lane 16) : Vector Lane 16 :=
  Vector.ofFn (fun (n : Fin 16) =>
    let c := now[n]
    { edge[n] with ia := c.ia, ib := c.ib, ic := c.ic, id_ := c.id_, iq := c.iq, ang := c.ang })

/-- Input ports of lane n, as latched in Capture (R211). -/
def lanePortIn (snap : Dev) (n : Fin 16) (ofs : Nat) : Word :=
  if snap.kind n = 0 ∨ snap.kind n = 3 then 0
  else
    let c := snap.lane n
    let l := snap.lane n
    match ofs with
    | 0x00 => c.ia
    | 0x04 => c.ib
    | 0x08 => c.ic
    | 0x0C => c.id_
    | 0x10 => c.iq
    | 0x14 => l.iqRef
    | 0x18 => l.idRef
    | 0x1C => l.vd
    | 0x20 => l.vq
    | 0x24 => l.xv
    | 0x28 => l.vf
    | 0x2C => laneStatus snap n
    | 0x30 => c.ang
    | 0x34 => l.ep
    | _ => 0

end Sys2Proof.Machine
end

