-- ==== Sys2Proof/Machine/Print.lean ====
section
/-! DEFINITION. Print-head timing (10_print.md). -/
namespace Sys2Proof.Machine

def Dev.prtp (d : Dev) (p : Fin 2) : Prt := d.prt[p]
def Dev.setPrt (d : Dev) (p : Fin 2) (x : Prt) : Dev := { d with prt := d.prt.set p x }

/-! ## Geometry and thresholds -/

def prtDots (d : Dev) (p : Nat) : Nat := d.fld (PRT_GEOM p) 11 0
def prtColours (d : Dev) (p : Nat) : Nat := d.fld (PRT_GEOM p) 14 12
def prtRingRows (d : Dev) (p : Nat) : Nat := d.fld (PRT_GEOM p) 26 16

/-- Row bytes: COLOURS × DOTS / 2, rounded up to a multiple of 64. -/
def rowBytes (d : Dev) (p : Nat) : Nat := (prtColours d p * prtDots d p / 2 + 63) / 64 * 64

/-- ROWOFSc, 15 taken as 14, and the largest of the colours in use. -/
def rowOfs (d : Dev) (p c : Nat) : Nat := min 14 (d.fld (PRT_ROWOFS p) (4 * c + 3) (4 * c))
def maxOfs (d : Dev) (p : Nat) : Nat := maxList ((List.range (prtColours d p)).map (rowOfs d p))

/-- ceil(r × NUM / DEN) (R217). -/
def dueAt (d : Dev) (p r : Nat) : Int :=
  let num := d.fld (PRT_RATIO p) 15 0
  let den := d.fld (PRT_RATIO p) 31 16
  if den = 0 then 0 else ((r * num + den - 1) / den : Nat)

/-- D of R217. -/
def jobDist (x : Prt) (j : Job) : Int := shortest x.pos j.start

/-- The indices of a job: JOBROWS + max(ROWOFSc). -/
def jobTotal (d : Dev) (p : Nat) (j : Job) : Nat := j.rows + maxOfs d p

/-! ## Status -/

/-- STAT bits ACTIVE, QUEUED, ARMED, FIRING, BEHIND. -/
def prtStatus (p : Fin 2) (d : Dev) : Dev :=
  let x := d.prtp p
  let armed := match x.active with
    | some j => decide (j.next = 0)
    | none => false
  let behind := match x.active with
    | some j => (match j.last with
      | some r => decide (jobDist x j < dueAt d p r)
      | none => false)
    | none => false
  Dev.setFlag (PRT_STAT p) 2 x.active.isSome (Dev.setFlag (PRT_STAT p) 3 x.queued.isSome
    (Dev.setFlag (PRT_STAT p) 4 armed (Dev.setFlag (PRT_STAT p) 5 x.firing.isSome
      (Dev.setFlag (PRT_STAT p) 6 behind d))))

/-- The rows below RDIDX leave the FIFO; the next fetch is at RDIDX or later. -/
def setRdIdx (p : Fin 2) (i : Nat) (d : Dev) : Dev :=
  let i := i % 65536
  let x := d.prtp p
  let past := fun (r : Nat) => decide ((r + 65536 - i) % 65536 ≥ 32768)
  let d := d.setReg (PRT_RDIDX p) (word i)
  d.setPrt p { x with fifo := x.fifo.filter (fun e => !past e.1), late := x.late.filter (fun r => !past r),
                      fetch := if past x.fetch then i else x.fetch }

/-- The place of PRTp_CFG.DIV: one print clock in tick units (R212). -/
def printClock (cfg : Word) : Nat := 2 * bits cfg 15 8

/-! ## The slices of a firing (R219) -/

def Firing.slices (f : Firing) : Nat := bits f.cfg 26 24 + 1
def slwOf (slw : List Word) (c s : Nat) : Nat := bits (slw.getD (4 * c + s / 2) 0) (16 * (s % 2) + 15) (16 * (s % 2))
def Firing.width (f : Firing) (c s : Nat) : Nat := slwOf f.slw c s
def Firing.maxWidth (f : Firing) (s : Nat) : Nat := maxList ((List.range f.colours).map (fun c => f.width c s))

/-- LATW, 0 taken as 1, and LATSU. -/
def Firing.latW (f : Firing) : Nat := max 1 (bits f.cfg 19 16)
def Firing.lead (f : Firing) : Nat := f.latW + bits f.cfg 23 20

/-- The print clocks of a slice that another slice of the firing follows: LATW + LATSU + max(largest width, DOTS). -/
def Firing.sliceClocks (f : Firing) (s : Nat) : Nat := f.lead + max (f.maxWidth s) f.dots

/-- When slice s begins, when its strobes rise, and when the last strobe of the firing ends. -/
def Firing.sliceStart (f : Firing) (s : Nat) : Nat :=
  f.at_ + printClock f.cfg * ((List.range s).map f.sliceClocks).sum
def Firing.strobeRise (f : Firing) (s : Nat) : Nat := f.sliceStart s + printClock f.cfg * f.lead
def Firing.lastStrobe (f : Firing) : Nat :=
  f.strobeRise (f.slices - 1) + printClock f.cfg * f.maxWidth (f.slices - 1)

/-! ## Which index comes next -/

/-- The row index of the ring that job row j needs. -/
def ringRow (j : Job) (row : Nat) : Nat := (j.first + row) % 65536

/-- The row that colour c prints at index r, if any (R217). -/
def rowOf (d : Dev) (p : Nat) (j : Job) (r c : Nat) : Option Nat :=
  if rowOfs d p c ≤ r ∧ r - rowOfs d p c < j.rows then some (ringRow j (r - rowOfs d p c)) else none

/-- The rows index r needs that have not been fetched and are not already given up. -/
def missingRows (d : Dev) (p : Fin 2) (j : Job) (r : Nat) : List Nat :=
  let x := d.prtp p
  ((List.range (prtColours d p)).filterMap (rowOf d p j r)).filter
    (fun i => !x.late.contains i && !x.fifo.any (fun e => decide (e.1 = i)))

/-- The bytes that colour c prints at index r; a row that was given up prints blank. -/
def rowBytesOf (d : Dev) (p : Fin 2) (j : Job) (r c : Nat) : Option (List Byte) :=
  (rowOf d p j r c).bind (fun i => ((d.prtp p).fifo.find? (fun e => decide (e.1 = i))).map (·.2))

/-- A queued job as it will start: its rows begin at the RDIDX then in force (R216, R217). -/
def queuedJob (d : Dev) (p : Fin 2) : Option Job :=
  (d.prtp p).queued.map (fun q => { q with first := (match (d.prtp p).active with
    | some j => (j.first + j.rows) % 65536
    | none => d.fld (PRT_RDIDX p) 15 0) })

/-- The job and index whose slice 0 is shifted next: the waiting index, else the next one of the active job, else that of the
queued job. -/
def nextIndex (d : Dev) (p : Fin 2) : Option (Job × Nat) :=
  let x := d.prtp p
  let due := fun (j : Job) => if j.next < jobTotal d p j then some (j, j.next) else none
  match x.waiting, x.active with
  | some (r, blank), some j => if blank then none else some (j, r)
  | _, some j => (due j).or ((queuedJob d p).bind due)
  | _, none => (queuedJob d p).bind due

/-- The words of the density and slice-width tables of a port. -/
def denWords (d : Dev) (p : Nat) : List Word := (List.range 16).map (fun i => d.reg (PRT_DEN p i))
def slwWords (d : Dev) (p : Nat) : List Word := (List.range 16).map (fun i => d.reg (PRT_SLW p i))

/-- Slice 0 of the next index is shifted as soon as its rows are fetched; during a firing, while the last slice's strobes run
(R219). -/
def shiftNext (p : Fin 2) (d : Dev) : Dev :=
  let x := d.prtp p
  match nextIndex d p with
  | none => d
  | some (j, r) =>
    let have_ := match x.shift with
      | some h => decide (h.first = j.first ∧ h.index = r)
      | none => false
    if have_ || !(missingRows d p j r).isEmpty then d
    else
      let start := match x.firing with
        | some f => max d.now (f.strobeRise (f.slices - 1))
        | none => d.now
      d.setPrt p { x with shift := some ⟨j.first, r, start, start + printClock (d.reg (PRT_CFG p)) * prtDots d p,
        denWords d p, slwWords d p, (List.range (prtColours d p)).map (rowBytesOf d p j r)⟩ }

/-- After a change of a table, a shift that has yet to begin takes the new words (R220). -/
def retable (p : Fin 2) (d : Dev) : Dev :=
  let x := d.prtp p
  d.setPrt p { x with shift := x.shift.map (fun h =>
    if d.now < h.start then { h with den := denWords d p, slw := slwWords d p } else h) }

/-- RDIDX follows the indices that have fired or passed: row k of the job is behind it once index k + max(ROWOFSc) is done
(R215). -/
def advanceRd (p : Fin 2) (d : Dev) : Dev :=
  let x := d.prtp p
  match x.active with
  | none => d
  | some j =>
    let open_ := match x.firing.filter (·.own), x.waiting with
      | some f, _ => f.index
      | none, some (r, _) => r
      | none, none => j.next
    setRdIdx p (j.first + min j.rows (open_ - maxOfs d p)) d

def skipCount (p : Fin 2) (n : Nat) (d : Dev) : Dev := d.setReg (PRT_SKIPCNT p) (d.reg (PRT_SKIPCNT p) + word n)

/-! ## Jobs (R216 to R218) -/

/-- A job ends: DONE and event 168 + 4p; RDIDX is past its rows. -/
def jobDone (p : Fin 2) (j : Job) (d : Dev) : Dev :=
  let d := setRdIdx p (j.first + j.rows) d
  raise (168 + 4 * p) (Dev.setFlag (PRT_STAT p) 13 true (d.setPrt p { d.prtp p with active := none }))

/-- A job whose every index has fired or passed ends; so does a queued job whose every index passed before it could start. -/
def jobFinish (p : Fin 2) (d : Dev) : Dev :=
  let x := d.prtp p
  match x.active with
  | none => d
  | some j =>
    if j.next < jobTotal d p j || (x.firing.any (·.own)) || x.waiting.isSome then d
    else
      let d := jobDone p j d
      match queuedJob d p with
      | some q =>
        if jobTotal d p q ≤ q.next then jobDone p q (d.setPrt p { d.prtp p with queued := none }) else d
      | none => d

/-- How many indices from r on are due at a distance, of a job of n indices. -/
def dueCount (d : Dev) (p : Nat) (dist : Int) : Nat → Nat → Nat
  | 0, _ => 0
  | n + 1, r => if dueAt d p r ≤ dist then 1 + dueCount d p dist n (r + 1) else 0

/-- The indices of a job from its next one on that are due at once. -/
def dueNow (d : Dev) (p : Fin 2) (j : Job) : Nat :=
  dueCount d p (jobDist (d.prtp p) j) (jobTotal d p j - j.next) j.next

def newJob (start : Word) (rows first : Nat) : Job :=
  { start := start, rows := rows, first := first, next := 0, fired := 0, last := none }

/-- A job becomes active: the indices already due pass blank (R217). -/
def jobStart (p : Fin 2) (start : Word) (rows : Nat) (d : Dev) : Dev :=
  let j := newJob start rows (d.fld (PRT_RDIDX p) 15 0)
  let n := dueNow d p j
  let d := d.setPrt p { d.prtp p with active := some { j with next := n } }
  if n = 0 then d else jobFinish p (advanceRd p (skipCount p n d))

/-- The indices of a queued job that fall due while another job is active pass blank (R217). -/
def queuePass (p : Fin 2) (d : Dev) : Dev :=
  let x := d.prtp p
  match x.active, x.queued with
  | some _, some q =>
    let n := dueNow d p q
    if n = 0 then d else skipCount p n (d.setPrt p { x with queued := some { q with next := q.next + n } })
  | _, _ => d

def jobError (p : Fin 2) (d : Dev) : Dev := raise (171 + 4 * p) (Dev.setFlag (PRT_STAT p) 11 true d)

/-- The feed source is there: an enabled axis, or a channel of TYPE 1 or 2. -/
def feedReady (d : Dev) (p : Nat) : Bool :=
  let i := d.fld (PRT_PACE p) 7 4
  match d.fld (PRT_PACE p) 1 0 with
  | 1 => d.flag (AX_CTRL i) 0
  | 2 => decide (d.fld (FB_CFG i) 2 0 = 1) || decide (d.fld (FB_CFG i) 2 0 = 2)
  | _ => false

/-- GO (R216). A disabled port refuses the job as well (assumption 41). -/
def jobGo (p : Fin 2) (d : Dev) : Dev :=
  let x := d.prtp p
  let start := d.reg (PRT_JOBSTART p)
  let rows := d.fld (PRT_JOBROWS p) 15 0
  prtStatus p (
    if prtRingRows d p = 0 ∨ rows = 0 ∨ feedReady d p = false ∨ d.flag (PRT_CFG p) 0 = false ∨ x.queued.isSome then
      jobError p d
    else if x.active.isNone then shiftNext p (jobStart p start rows d)
    else shiftNext p (queuePass p (d.setPrt p { x with queued := some (newJob start rows 0) })))

/-- ABORT: the active job ends and the queued one is dropped; a row that is firing completes; RDIDX goes past the job. -/
def jobAbort (p : Fin 2) (d : Dev) : Dev :=
  let x := d.prtp p
  prtStatus p (match x.active with
    | none => d.setPrt p { x with queued := none, shift := none }
    | some j =>
      let i := (j.first + j.rows) % 65536
      let d := d.setReg (PRT_RDIDX p) (word i)
      d.setPrt p { x with active := none, queued := none, shift := none, waiting := none, fifo := [], late := [], fetch := i,
                          firing := x.firing.map (fun f => { f with own := false }) })

def execJobGo (p : Fin 2) (s : State) : Out := atEdge (jobGo p) s
def execJobAbort (p : Fin 2) (s : State) : Out := atEdge (jobAbort p) s

/-- A committed JOBCMD: GO first, then ABORT. -/
def jobCmd (p : Fin 2) (v : Word) (d : Dev) : Dev :=
  let d := if bit v 0 then jobGo p d else d
  if bit v 1 then jobAbort p d else d

/-! ## Rows (R214, R215) -/

/-- The next row to fetch is available: in [RDIDX, WRIDX) modulo 65,536. -/
def rowAvailable (d : Dev) (p : Fin 2) : Bool :=
  let rd := (d.reg (PRT_RDIDX p)).toNat
  let n := ((d.reg (PRT_WRIDX p)).toNat + 65536 - rd) % 65536
  let k := ((d.prtp p).fetch + 65536 - rd) % 65536
  decide (prtRingRows d p ≠ 0) && decide (n < 32768) && decide (k < n)

/-- ROW_FETCH: the next available row is copied into the FIFO of 16 rows, or discarded where it was late (R215, R221). -/
def rowFetch (p : Fin 2) (err : Option Sys2Proof.SramError) (d : Dev) : Dev :=
  let x := d.prtp p
  if !rowAvailable d p || decide (16 ≤ x.fifo.length) then d
  else
    let i := x.fetch
    let a := (d.reg (PRT_RINGBASE p)).toNat + i % prtRingRows d p * rowBytes d p
    let next := (i + 1) % 65536
    shiftNext p (
      if x.late.contains i then d.setPrt p { x with fetch := next }
      else
        let bs := sramData err a (d.sram.bytes a (rowBytes d p)) d
        sramErr err a (rowBytes d p) (d.setPrt p { x with fetch := next, fifo := x.fifo ++ [(i, bs)] }))

def execRowFetch (p : Fin 2) (err : Option Sys2Proof.SramError) (s : State) : Out :=
  .next { s with dev := rowFetch p err s.dev }

/-! ## Firing (R217 to R223) -/

/-- Index r fires: PHp_LAT rises at the given instant. A blank firing raises no strobe (assumption 131). -/
def fireIndex (p : Fin 2) (r : Nat) (blank : Bool) (at_ : Nat) (d : Dev) : Dev :=
  let x := d.prtp p
  let act := x.active.map (fun j => { j with fired := j.fired + 1, last := some r })
  let (den, slw, rows) := match x.shift.filter (fun _ => !blank) with
    | some h => (h.den, h.slw, h.rows)
    | none => (denWords d p, slwWords d p, [])
  d.setPrt p { x with active := act, shift := if blank then x.shift else none,
                      firing := some ⟨r, blank, !blank, true, d.reg (PRT_CFG p), prtDots d p, prtColours d p, at_, den, slw, rows⟩ }

/-- The instant at which PHp_LAT rises for an index that is due now: within 2 print clocks plus 16 core cycles (R219). -/
def latchAt (d : Dev) (p : Fin 2) : Nat :=
  d.now + (Config.freeWord d.freeCtr).toNat % (2 * printClock (d.reg (PRT_CFG p)) + 33)

/-- A late index (R221): LATECNT, LATE and event 169 + 4p. -/
def lateIndex (p : Fin 2) (d : Dev) : Dev :=
  raise (169 + 4 * p) (Dev.setFlag (PRT_STAT p) 8 true (Dev.count1 (PRT_LATECNT p) d))

/-- Slice 0 of the index that is to fire has been shifted by now; a blank firing needs no shift. -/
def shifted (d : Dev) (p : Fin 2) (blank : Bool) : Bool :=
  blank || (match (d.prtp p).shift with
    | some h => decide (h.done ≤ d.now)
    | none => false)

/-- An index that may fire: at once, or waiting for the firing in progress and its own shift, or skipped behind a waiting one
(R222). -/
def queueIndex (p : Fin 2) (r : Nat) (blank : Bool) (d : Dev) : Dev :=
  let x := d.prtp p
  if x.waiting.isSome then raise (170 + 4 * p) (Dev.setFlag (PRT_STAT p) 9 true (skipCount p 1 d))
  else if x.firing.isNone && shifted d p blank then
    shiftNext p (Dev.tickFree (fireIndex p r blank (latchAt d p) d))
  else shiftNext p (Dev.setFlag (PRT_STAT p) 7 true (d.setPrt p { x with waiting := some (r, blank) }))

/-- The head fault level keeps firing instants blank (R213). -/
def headLow (d : Dev) (p : Fin 2) : Bool := d.flag (PRT_CFG p) 29 && (d.prtp p).fltLow

/-- An index that cannot fire with its rows (R221): blank, or the job is aborted. -/
def fireLate (p : Fin 2) (fire : Dev → Dev) (d : Dev) : Dev :=
  if d.flag (PRT_CFG p) 28 then jobAbort p (lateIndex p d) else fire (lateIndex p d)

/-- The job whose next index may fall due: the active one, or the queued one after the active job's end. -/
def dueJob (d : Dev) (p : Fin 2) : Option Job := (d.prtp p).active.or (queuedJob d p)

/-- INDEX_DUE: the next index of the job falls due when D has reached it (R217). A queued job starts at that instant (R216). -/
def indexDue (p : Fin 2) (d : Dev) : Dev :=
  let x := d.prtp p
  match dueJob d p with
  | none => d
  | some j =>
    if jobTotal d p j ≤ j.next || decide (jobDist x j < dueAt d p j.next) then d
    else
      let r := j.next
      let d := d.setPrt p { x with active := some { j with next := r + 1 }, lastDue := d.stamp,
                                   queued := if x.active.isSome then x.queued else none }
      let miss := missingRows d p j r
      prtStatus p (jobFinish p (
        if d.mode ≠ .run || d.halted then shiftNext p (advanceRd p (skipCount p 1 d))
        else if headLow d p || !miss.isEmpty then
          fireLate p (fun d => queueIndex p r true (d.setPrt p { d.prtp p with late := (d.prtp p).late ++ miss })) d
        else queueIndex p r false d))

def execIndexDue (p : Fin 2) (s : State) : Out := onReady (indexDue p) s

/-- The instant at which the waiting index may fire: its shift is done (R222). -/
def shiftDone (d : Dev) (p : Fin 2) (blank : Bool) : Nat :=
  match (d.prtp p).shift.filter (fun _ => !blank) with
  | some h => h.done
  | none => d.now

/-- DELAYED_FIRING: a waiting index fires as soon as the firing before it and its own shift are done (R222); outside Run it
passes blank. -/
def delayedFiring (p : Fin 2) (d : Dev) : Dev :=
  match (d.prtp p).waiting, (d.prtp p).firing with
  | some (r, blank), none =>
    let d := d.reach (shiftDone d p blank)
    let d := d.setPrt p { d.prtp p with waiting := none }
    prtStatus p (
      if d.mode ≠ .run || d.halted then shiftNext p (jobFinish p (advanceRd p (skipCount p 1 d)))
      else if headLow d p && !blank then fireLate p (fun d => shiftNext p (fireIndex p r true d.now d)) d
      else shiftNext p (fireIndex p r blank d.now d))
  | _, _ => d

def execDelayedFiring (p : Fin 2) (s : State) : Out := onReady (delayedFiring p) s

/-- FIRING_END: the last strobe of a firing ends; with the last index the job ends (R218). The firing lasts until the shift that
began in its last slice is done as well (R219). -/
def firingEnd (p : Fin 2) (d : Dev) : Dev :=
  match (d.prtp p).firing with
  | none => d
  | some f =>
    let d := d.reach f.lastStrobe
    let d := d.setPrt p { d.prtp p with firing := none }
    let d := if f.own then jobFinish p (advanceRd p d) else d
    let done := match (d.prtp p).shift with
      | some h => if h.start ≤ d.now then h.done else d.now
      | none => d.now
    prtStatus p (shiftNext p (d.reach done))

def execFiringEnd (p : Fin 2) (s : State) : Out := onReady (firingEnd p) s

/-- Every strobe of a port ends. -/
def endStrobes (p : Fin 2) (d : Dev) : Dev :=
  let x := d.prtp p
  d.setPrt p { x with firing := x.firing.map (fun f => { f with strobe := false }) }

/-- A low level of PHp_FLT_N with FLTEN = 1 (R213): HEADFLT, event 171 + 4p and no strobe. -/
def headFaulted (p : Fin 2) (d : Dev) : Dev :=
  raise (171 + 4 * p) (Dev.setFlag (PRT_STAT p) 10 true (endStrobes p d))

/-- HEAD_FAULT: the level of PHp_FLT_N. -/
def headFault (p : Fin 2) (low : Bool) (d : Dev) : Dev :=
  let x := d.prtp p
  let d := d.setPrt p { x with fltLow := low }
  if low && !x.fltLow && d.flag (PRT_CFG p) 29 then headFaulted p d else d

def execHeadFault (p : Fin 2) (low : Bool) (s : State) : Out := onReady (headFault p low) s

/-- The device leaves Run or halts: no strobe stays high (R223). -/
def printLeaveRun (d : Dev) : Dev := forAll 2 (fun p d => endStrobes (Fin.ofNat 2 p) d) d

/-- A step of the feed: of axis i (source 1) or of feedback channel i (source 2); S counts forward steps up. -/
def feedStep (src i : Nat) (up : Bool) (d : Dev) : Dev :=
  forAll 2 (fun k d =>
    let p := Fin.ofNat 2 k
    let pace := d.reg (PRT_PACE p)
    if bits pace 1 0 = src ∧ bits pace 7 4 = i then
      let x := d.prtp p
      prtStatus p (queuePass p (d.setPrt p { x with pos := if up != bit pace 8 then x.pos + 1 else x.pos - 1 }))
    else d) d

/-! ## Committed writes (R218, R220) -/

/-- DENWR: one density entry. -/
def densityWrite (p : Fin 2) (v : Word) (d : Dev) : Dev :=
  if !bit v 31 then d
  else
    let l := bits v 5 2
    retable p (Dev.setFld (PRT_DEN p (4 * bits v 1 0 + l / 4)) (8 * (l % 4) + 7) (8 * (l % 4)) (bits v 15 8) d)

/-- SLWWR: one slice width. -/
def sliceWrite (p : Fin 2) (v : Word) (d : Dev) : Dev :=
  if !bit v 15 then d
  else
    let s := bits v 4 2
    retable p (Dev.setFld (PRT_SLW p (4 * bits v 1 0 + s / 2)) (16 * (s % 2) + 15) (16 * (s % 2)) (bits v 31 16) d)

def execDensityWrite (p : Fin 2) (v : Word) (s : State) : Out := atEdge (densityWrite p v) s
def execSliceWidthWrite (p : Fin 2) (v : Word) (s : State) : Out := atEdge (sliceWrite p v) s

/-- Committed writes of PRTp_CFG (DIV 30 to 240) and PRTp_RATIO (NUM ≥ DEN, neither 0). FLTEN taken with PHp_FLT_N already low
is a head fault (R213). -/
def commitPrtCfg (p : Fin 2) (v : Word) (d : Dev) : Dev :=
  if bits v 15 8 < 30 ∨ 240 < bits v 15 8 then Dev.setFlag (PRT_STAT p) 12 true d
  else
    let old := d.flag (PRT_CFG p) 29
    let d := Dev.setFlag (PRT_STAT p) 0 (bit v 0) (d.setReg (PRT_CFG p) (v &&& 0x37FFFF01))
    if headLow d p && !old then headFaulted p d else d
def commitRatio (p : Fin 2) (v : Word) (d : Dev) : Dev :=
  let num := bits v 15 0
  let den := bits v 31 16
  if num = 0 ∨ den = 0 ∨ num < den then Dev.setFlag (PRT_STAT p) 12 true d else d.setReg (PRT_RATIO p) v

/-! ## The dots of a slice (R219, R220) -/

/-- The level of dot `dot` of colour c in a row of DOTS dots a plane. -/
def dotLevel (dots c dot : Nat) (row : List Byte) : Nat :=
  let b := row.getD (c * (dots / 2) + dot / 2) 0
  if dot % 2 = 0 then b.toNat % 16 else b.toNat / 16

/-- Bit s of DENc[L]. -/
def densityBit (den : List Word) (c level s : Nat) : Bool := bit (den.getD (4 * c + level / 4) 0) (8 * (level % 4) + s)

/-- The bit that dot `dot` of colour c carries in slice s: 0 where the colour prints blank. -/
def dotBit (den : List Word) (rows : List (Option (List Byte))) (dots c s dot : Nat) : Bool :=
  match rows.getD c none with
  | some row => densityBit den c (dotLevel dots c dot row) s
  | none => false

/-! ## Ports -/

def prtPort (d : Dev) (p : Fin 2) (ofs : Nat) : Word :=
  let x := d.prtp p
  if !d.flag (PRT_CFG p) 0 then 0
  else
    match ofs with
    | 0x00 => d.reg (PRT_STAT p)
    | 0x04 => d.reg (PRT_RDIDX p)
    | 0x08 => (match x.active with
      | some j => word j.fired
      | none => 0)
    | 0x0C => d.reg (PRT_LATECNT p)
    | 0x10 => d.reg (PRT_SKIPCNT p)
    | 0x14 => loWord x.lastDue
    | 0x18 => hiWord x.lastDue
    | _ => 0

end Sys2Proof.Machine
end

