-- ==== Sys2Proof/Machine/Feedback.lean ====
section
/-! DEFINITION. Position and speed feedback (07_feedback.md). Edges, frames and samples arrive in the order of their
timestamps, those before edge n ahead of it (assumption 32). -/
namespace Sys2Proof.Machine

/-- FBc_CFG.TYPE: 0 off, 1 quadrature, 2 Hall, 3 SSI, 4 RS-485, 5 sin/cos (R134). -/
def Dev.fbType (d : Dev) (c : Nat) : Nat := d.fld (FB_CFG c) 2 0

/-- A pin whose filter is `filt` accepts a level that it has held for `held` core cycles (R137). -/
def pinHeld (filt held : Nat) : Bool := decide (filt + 1 ≤ held)

/-- A speed n / d counts per second, as binary32. -/
def speedOf (n : Int) (d : Nat) : Word := if d = 0 then 0 else word (ofRatF b32 n d).w

/-- FBc_CFG.FILT. -/
def fbFilt (d : Dev) (c : Nat) : Nat := d.fld (FB_CFG c) 21 16

/-- The feedback unit does not count while the tick is stopped (R132). -/
def fbLive (d : Dev) (c : Nat) (ty : Nat) : Bool := decide (d.fbType c = ty) && !d.pw.stopped

/-- The servo lanes that close their loops on channel c trip with FBLOSS (R210). -/
def fbLoss (c : Nat) (d : Dev) : Dev :=
  forAll 16 (fun n d =>
    if d.kind n = 1 ∧ d.flag (AX_CFG n) 27 = true ∧ d.fld (AX_CFG n) 31 28 = c then laneTrip (Fin.ofNat 16 n) 6 d
    else d) d

/-- An error bit of FBc_STAT is set; event 97 + 2c at its change from 0 to 1 (R161), with FBLOSS for QERR (9), HERR (10)
and SCERR (12). -/
def fbErr (c : Fin 16) (i : Nat) (d : Dev) : Dev :=
  if d.flag (FB_STAT c) i then d
  else
    let d := raise (97 + 2 * c) (Dev.setFlag (FB_STAT c) i true d)
    if i = 9 ∨ i = 10 ∨ i = 12 then fbLoss c d else d

/-- SPDV reads 0 until two edges, frames or samples have been seen since now (R153); REF is cleared (R155). -/
def fbUnref (c : Fin 16) (d : Dev) : Dev :=
  let d := Dev.setFlag (FB_STAT c) 0 false (Dev.setFlag (FB_STAT c) 1 false d)
  d.setCh c { d.ch c with since := 0, spd := 0, dcnt := 0, dt := 0 }

/-- One accepted count, up or down, at a timestamp (R137, R140, R154). -/
def countEdge (c : Fin 16) (dn : Bool) (ts : DWord) (d : Dev) : Dev :=
  let x := d.ch c
  let cnt := if dn then x.cnt - 1 else x.cnt + 1
  let rev := x.seen && (dn != x.lastDn)
  let discard := d.flag (FB_CFG c) 10
  let y := { x with cnt := cnt, lastTs := ts, lastDn := dn, seen := true, since := min 2 (x.since + 1), edged := true,
                    revved := x.revved || rev, revLast := rev && discard,
                    refCnt := if rev && discard then cnt else x.refCnt,
                    refTs := if rev && discard then ts else x.refTs,
                    refOk := x.refOk || (rev && discard) }
  let d := Dev.setFlag (FB_STAT c) 2 dn (Dev.setFlag (FB_STAT c) 3 false (d.setCh c y))
  let d := feedStep 2 c (!dn) d
  if rev then
    let d := Dev.setFlag (FB_STAT c) 8 true d
    if discard then d else raise (96 + 2 * c) d
  else d

/-- QUAD_EDGE: new levels of A and B, held for `held` core cycles since `ts`. Up is A leading B: 00, 10, 11, 01 (R137). -/
def quadStep (c : Fin 16) (a b : Bool) (held : Nat) (ts : DWord) (d : Dev) : Dev :=
  if !(fbLive d c 1 && pinHeld (fbFilt d c) held) then d
  else
    let d := d.reachTs ts
    let x := d.ch c
    let a0 := bit x.lvl 0
    let b0 := bit x.lvl 1
    let d := d.setCh c { x with lvl := BitVec.ofNat 3 (b2n a + 2 * b2n b) }
    if (a != a0) && (b != b0) then fbUnref c (fbErr c 9 d)
    else if (a == a0) && (b == b0) then d
    else
      -- with A changing, up when A becomes the opposite of B; with B changing, up when B becomes equal to A
      let up := if a != a0 then a != b else a == b
      countEdge c (up == d.flag (FB_CFG c) 11) ts d

def execQuadEdge (c : Fin 16) (a b : Bool) (l : Sys2Proof.HeldLevel) (s : State) : Out :=
  .next { s with dev := quadStep c a b l.held l.ts s.dev }

/-- The place of a Hall state in the sequence U, UV, V, VW, W, WU (R140); U is bit 0, V bit 1, W bit 2. -/
def hallPos : Nat → Option Nat
  | 1 => some 0
  | 3 => some 1
  | 2 => some 2
  | 6 => some 3
  | 4 => some 4
  | 5 => some 5
  | _ => none

/-- HALL_STEP: a new state, held for `held` core cycles since `ts`, counts one step, or sets HERR (R140). From no valid state,
the first valid state counts nothing. -/
def hallTo (c : Fin 16) (uvw : BitVec 3) (held : Nat) (ts : DWord) (d : Dev) : Dev :=
  if !(fbLive d c 2 && pinHeld (fbFilt d c) held) then d
  else
    let d := d.reachTs ts
    let x := d.ch c
    let bad := fun d => fbUnref c (fbErr c 10 d)
    let d := d.setCh c { x with lvl := uvw }
    match hallPos x.lvl.toNat, hallPos uvw.toNat with
    | _, none => bad d
    | none, some _ => d
    | some i, some j =>
      if i = j then d
      else if j = (i + 1) % 6 then countEdge c (d.flag (FB_CFG c) 11) ts d
      else if i = (j + 1) % 6 then countEdge c (!d.flag (FB_CFG c) 11) ts d
      else bad d

def execHallStep (c : Fin 16) (uvw : BitVec 3) (l : Sys2Proof.HeldLevel) (s : State) : Out :=
  .next { s with dev := hallTo c uvw l.held l.ts s.dev }

/-- A re-reference of channel c by an amount is taken out of the commutation phase of its lanes (R192). -/
def laneShift (c : Nat) (by_ : Word) (d : Dev) : Dev :=
  forAll 16 (fun n d =>
    if d.kind n = 1 ∧ d.fld (AX_CFG n) 31 28 = c then
      let l := d.lane (Fin.ofNat 16 n)
      d.setLane (Fin.ofNat 16 n) { l with shift := l.shift + by_ }
    else d) d

/-- The counter, and everything counted in it, moves by an amount (R139, R156). -/
def moveCount (c : Fin 16) (by_ : Word) (d : Dev) : Dev :=
  let x := d.ch c
  laneShift c by_ (d.setCh c { x with cnt := x.cnt + by_, refCnt := x.refCnt + by_, prevCnt := x.prevCnt + by_,
                                      edgePos := x.edgePos + by_, ofs := x.ofs + by_ })

/-- Z_EDGE: a rising edge of Z whose level has held for `held` core cycles records ZPOS and may re-zero the counter under
ZMODE (R139). -/
def zStep (c : Fin 16) (held : Nat) (d : Dev) : Dev :=
  let mode := d.fld (FB_CFG c) 13 12
  if mode = 0 ∨ !((fbLive d c 1 || fbLive d c 5) && pinHeld (fbFilt d c) held) then d
  else
    let x := d.ch c
    let d := d.setCh c { x with zpos := x.cnt }
    if mode = 3 ∨ (mode = 2 ∧ x.zarm) then
      let d := moveCount c (-x.cnt) d
      d.setCh c { d.ch c with rezero := true, zarm := if mode = 2 then false else x.zarm }
    else d

def execZEdge (z : Sys2Proof.ZRise) (s : State) : Out := .next { s with dev := zStep z.c z.held s.dev }

/-- ZERO_SPEED_TIMEOUT: no edge for ZSTO µs: SPD is 0.0 and ZERO reads 1 (R151). -/
def zeroSpeed (c : Fin 16) (d : Dev) : Dev :=
  if fbLive d c 1 || fbLive d c 2 then Dev.setFlag (FB_STAT c) 3 true (d.setCh c { d.ch c with spd := 0 }) else d

def execZeroSpeedTimeout (c : Fin 16) (s : State) : Out := .next { s with dev := zeroSpeed c s.dev }

/-! ## Serial channels (R141 to R145) -/

/-- The instant of the running tick at which the frame of channel c starts: LEAD µs before an edge of the period in force. -/
def serialInstant (d : Dev) (c : Nat) : Nat :=
  d.tick.edgeAt + (d.period - 3000 * d.fld (FB_SER c) 31 24 % d.period) % d.period

/-- The clock or bit time of a serial channel in tick units: DIV / 100 MHz. -/
def serialBit (d : Dev) (c : Nat) : Nat := 30 * legalAt d 0 (if d.fbType c = 3 then 10 else 6) 1000 (d.fld (FB_SER c) 9 0)

/-- FBc_SER.MONO in tick units; 0 is taken as 1 µs. -/
def serialMono (d : Dev) (c : Nat) : Nat := 3000 * max 1 (d.fld (FB_SER c) 23 18)

/-- A frame of channel c may start: its kind is `ty`, the previous frame has ended and so has its MONO time (R141). -/
def serialFree (ty : Nat) (c : Fin 16) (d : Dev) : Bool :=
  fbLive d c ty && !(d.ch c).inFrame && decide ((d.ch c).recover ≤ max d.now (serialInstant d c))

/-- SSI_FRAME_START: the clock of a frame begins (R141). -/
def ssiStart (c : Fin 16) (d : Dev) : Dev :=
  if serialFree 3 c d then (d.reach (serialInstant d c)).setCh c { d.ch c with inFrame := true } else d

/-- The request of an RS-485 channel: the TXLEN lowest bytes of RSTX0 to RSTX3, lowest first (R143). -/
def rsRequest (d : Dev) (c : Nat) : List Byte :=
  ((List.range 4).flatMap (fun k => leBytes (d.reg (FB_RSTX c k)).toNat 4)).take (legalAt d 1 1 16 (d.fld (FB_RSFMT c) 4 0))

/-- RS485_REQUEST: the request bytes, each of ten bits, go out on FBc_A while the driver enable is true; then the driver is
released and the response is awaited (R143). -/
def rsStart (c : Fin 16) (d : Dev) : Dev :=
  if serialFree 4 c d then
    let req := rsRequest d c
    (Dev.tickFree (d.reach (max d.now (serialInstant d c) + 10 * req.length * serialBit d c)).tickFree).setCh c
      { d.ch c with inFrame := true, req := req }
  else d

def execSsiFrameStart (c : Fin 16) (s : State) : Out := .next { s with dev := ssiStart c s.dev }
def execRs485Request (c : Fin 16) (s : State) : Out := .next { s with dev := rsStart c s.dev }

/-- Gray code to binary, n bits. -/
def grayTo : Nat → Nat → Nat
  | 0, _ => 0
  | n + 1, g => g ^^^ grayTo n (g / 2)

/-- Bits of an SSI frame of LEN bits, in the order received: bit 1 is the first. -/
def ssiBit (raw : BitVec 48) (len i : Nat) : Bool := decide (1 ≤ i) && decide (i ≤ len) && bit raw (len - i)

/-- The position field of an SSI frame, or none where the frame fails (R144). Fields outside their ranges take open legal
values (assumption 23). -/
def ssiField (d : Dev) (c : Nat) (f : SerialFrame) : Option (Nat × Nat) :=
  let ser := d.reg (FB_SER c)
  let fd := d.reg (FB_SERFLD c)
  let len := legalAt d 0 1 48 (bits ser 17 12)
  let plen := legalAt d 1 1 32 (bits fd 17 12)
  let msb := legalAt d 2 1 48 (bits fd 5 0)
  let par := bits fd 19 18
  let errb := legalAt d 3 0 48 (bits fd 25 20)
  let ones := popCount (bits f.raw (len - 1) 0) 48
  let parOk := match par with
    | 1 => decide (ones % 2 = 0)
    | 2 => decide (ones % 2 = 1)
    | _ => true
  if f.framing || !parOk || ssiBit f.raw len errb then none
  else
    let v := (List.range plen).foldl (fun v i => 2 * v + b2n (ssiBit f.raw len (msb + i))) 0
    -- bits of the field beyond the frame are open
    let v := if msb + plen ≤ len + 1 then v else (Config.freeWord (d.freeCtr + 4)).toNat % 2 ^ plen
    some (if bit ser 11 then grayTo plen v else v, plen)

/-- The position field of an RS-485 response, or none where it fails (R143, R144). Fields outside their ranges take open legal
values (assumption 23). -/
def rsField (d : Dev) (c : Nat) (f : SerialFrame) : Option (Nat × Nat) :=
  let fmt := d.reg (FB_RSFMT c)
  let n := legalAt d 0 3 32 (bits fmt 31 24)
  let ofs := bits fmt 23 16
  let plen := legalAt d 1 1 32 (bits fmt 13 8)
  let poly := d.fld (FB_RSCRC c) 15 0
  let init := d.fld (FB_RSCRC c) 31 16
  let bs := f.bytes.take n
  let crcOk := match bits fmt 7 6 with
    | 1 => decide ((crc8 (BitVec.ofNat 8 poly) (BitVec.ofNat 8 init) (bs.take (n - 1))).toNat = beNat (bs.drop (n - 1)))
    | 2 => decide ((crc16 (BitVec.ofNat 16 poly) (BitVec.ofNat 16 init) (bs.take (n - 2))).toNat =
        beNat (bs.drop (n - 2)))
    | _ => true
  if f.framing || decide (f.bytes.length < n) || !crcOk then none
  else
    -- a field beyond the response is open
    let v := if 8 * ofs + plen ≤ 8 * n then leNat (bs.drop ofs) % 2 ^ plen
      else (Config.freeWord (d.freeCtr + 2)).toNat % 2 ^ plen
    some (if d.flag (FB_SER c) 11 then grayTo plen v else v, plen)

/-- A number n / d rounded to an integer where the manual states no rounding: down, or up by an open choice
(assumption 24). -/
def openRound (d : Dev) (n : Int) (den : Nat) : Int :=
  let q := n.fdiv den
  if q * den = n then q else if Config.roundUp d.freeCtr then q + 1 else q

/-- The position at a CAP edge between two samples or frames, by linear interpolation (R157). -/
def interpolate (d : Dev) (p0 p1 : Word) (t0 t1 t : DWord) : Word :=
  let dt := (t1 - t0).toNat
  if dt = 0 then p1 else p0 + wordI (openRound d (shortest p1 p0 * ((t - t0).toNat : Int)) dt)

/-- The latches that wait for the next sample or frame of channel c get their result, between the newest one so far and that
one; with none so far the manual gives no position (R157, assumption 23). -/
def finishLatches (c : Fin 16) (p1 : Word) (t1 : DWord) (d : Dev) : Dev :=
  let x := d.ch c
  forAll 8 (fun j d =>
    let l := d.latch (Fin.ofNat 8 j)
    match l.waiting with
    | some t =>
      if d.fld (FB_CAP j) 3 0 = c then
        (d.tickFree).setLatch (Fin.ofNat 8 j)
          { l with waiting := none,
                   result := some (if x.seen then interpolate d x.cnt p1 x.lastTs t1 t else Config.freeWord d.freeCtr, t, false) }
      else d
    | none => d) d

/-- A good frame: the field's shortest difference modulo 2^POSLEN is added to the counter (R144, R152). -/
def goodFrame (c : Fin 16) (f : SerialFrame) (v plen : Nat) (d : Dev) : Dev :=
  let x := d.ch c
  let diff := signed plen (v + 2 ^ plen - x.field.toNat % 2 ^ plen)
  -- with no previous good field the manual gives no position: a free value (assumption 23)
  let cnt := if x.fieldOk then x.cnt + wordI diff else Config.freeWord d.freeCtr
  let d := finishLatches c cnt f.ts d.tickFree
  let x := d.ch c
  let dn := decide ((cnt - x.cnt).toInt < 0)
  let d := d.setCh c { x with cnt := cnt, field := word v, fieldOk := true, prevCnt := x.cnt, prevTs := x.lastTs,
                              lastTs := f.ts, lastDn := dn, seen := true, since := min 2 (x.since + 1), fresh := true,
                              edged := true, inFrame := false, raw := f.raw }
  Dev.setFlag (FB_STAT c) 2 dn d

/-- A failed frame leaves position and speed unchanged and sets SERR (R144). -/
def badFrame (c : Fin 16) (d : Dev) : Dev := fbErr c 11 (d.setCh c { d.ch c with inFrame := false })

/-- The raw bits of an RS-485 response, as ports +0x30 and +0x34 show them. -/
def rawOf (ty : Nat) (f : SerialFrame) : BitVec 48 := if ty = 3 then f.raw else BitVec.ofNat 48 (leNat f.bytes)

/-- A measured line delay is reported in FBc_SERDLY in every frame (R142); what a delay beyond its 12 bits reads as is open. -/
def reportDelay (c : Fin 16) (delay : Nat) (d : Dev) : Dev :=
  d.setReg (FB_SERDLY c) (if delay < 4096 then word delay else word ((Config.freeWord d.freeCtr).toNat % 4096))

/-- The end of an SSI frame: LEN clock periods after its first edge, with the MONO time after it (R141). -/
def ssiDone (c : Fin 16) (ts : DWord) (d : Dev) : Dev :=
  let e := d.born + 2 * ts.toNat + legalAt d 0 1 48 (d.fld (FB_SER c) 17 12) * serialBit d c
  (d.reach e).setCh c { d.ch c with recover := e + serialMono d c }

/-- SERIAL_FRAME_END (R141 to R144): with AUTODLY the measured delay is reported, and one above 3,000 cycles fails the frame. -/
def serialEnd (c : Fin 16) (f : SerialFrame) (d : Dev) : Dev :=
  let ty := d.fbType c
  if !(fbLive d c 3 || fbLive d c 4) || !(d.ch c).inFrame then d
  else
    let d := d.reachTs f.ts
    let auto := decide (ty = 3) && d.flag (FB_SER c) 10
    let late := auto && decide (3000 < f.delay)
    let r := if late then none else if ty = 3 then ssiField d c f else rsField d c f
    let d := if ty = 3 then ssiDone c f.ts d else d
    let d := (if auto then reportDelay c f.delay d else d).tickFree
    match r with
    | none => badFrame c d
    | some (v, plen) => goodFrame c { f with raw := rawOf ty f } v plen d

def execSerialFrameEnd (c : Fin 16) (f : SerialFrame) (s : State) : Out :=
  .next { s with dev := serialEnd c f s.dev }

/-- RS485_TIMEOUT: the response did not begin within MONO µs (R143, R144). -/
def execRs485Timeout (c : Fin 16) (s : State) : Out :=
  .next { s with dev := if fbLive s.dev c 4 && (s.dev.ch c).inFrame then badFrame c s.dev else s.dev }

/-- SERIAL_STALE_TIMEOUT: no good frame for 4 ms clears SPDV and REF (R145). SPDV then reads 0 until two more good frames, as after
the causes of R153 (DESIGN CHOICE, assumption 121). -/
def execSerialStaleTimeout (c : Fin 16) (s : State) : Out :=
  .next { s with dev := if fbLive s.dev c 3 || fbLive s.dev c 4 then fbUnref c s.dev else s.dev }

/-! ## Sin/cos channels (R146, R147) -/

/-- The 12-bit angle (2^-12 line periods) of a point, by quadrant and comparison with the tangent of each step: the
largest step not above it in its quadrant. -/
def angleQ (y x : Int) : Nat → Nat → Nat
  | 0, k => k
  | n + 1, k =>
    let c := k + 2 ^ n
    angleQ y x n (if x * turnSin (c * 2 ^ 20) ≤ y * turnCos (c * 2 ^ 20) then c else k)

/-- The angle of (cos, sin) = (x, y) in 2^-12 turns, rounded down. -/
def angle12 (y x : Int) : Nat :=
  if 0 < x ∧ 0 ≤ y then angleQ y x 10 0
  else if x ≤ 0 ∧ 0 < y then 1024 + angleQ (-x) y 10 0
  else if x < 0 ∧ y ≤ 0 then 2048 + angleQ (-y) (-x) 10 0
  else if 0 ≤ x ∧ y < 0 then 3072 + angleQ x (-y) 10 0
  else 0

/-- Corrected sine and cosine, times 2^79 (R146): offsets, gain of cos, and the quadrature phase error PHASE removed:
sin' = (sin - cos·sin φ) / cos φ, given times cos φ. The angle and the amplitude use the pair (sin - cos·sin φ,
cos·cos φ) and cos φ (assumption 33). -/
def scCorrected (d : Dev) (c : Nat) (sn cs : BitVec 14) : Int × Int × Int :=
  let ofs := d.reg (FB_SCOFS c)
  let cor := d.reg (FB_SCCOR c)
  let s : Int := sn.toInt - signed 16 (bits ofs 15 0)
  let k : Int := (cs.toInt - signed 16 (bits ofs 31 16)) * (bits cor 15 0 : Nat)
  let ph := (signed 16 (bits cor 31 16) * 65536).emod (2 ^ 32)
  let sp := turnSin ph.toNat
  let cp := turnCos ph.toNat
  -- in units of 2^-79 codes (15 fraction bits of GAIN, 64 of the sine)
  (s * 2 ^ 15 * 2 ^ 64 - k * sp, k * cp, cp)

/-- A sample at `ts` is the one taken at an instant: it falls within 31.25 ns after it (R136). -/
def takenAt (d : Dev) (t : Nat) (ts : DWord) : Bool :=
  decide ((d.stampAt t).toNat ≤ ts.toNat) && decide (ts.toNat ≤ (d.stampAt t).toNat + 46)

/-- The lanes of channel c that sample at the most recent edge or fractional edge take the sample that falls on it (R136). -/
def laneAlign (c : Fin 16) (ts : DWord) (d : Dev) : Dev :=
  let k := d.tick.fracDone
  if takenAt d (d.tick.edgeAt + k * d.tickLen / 4) ts then
    forAll 16 (fun n d =>
      let i : Fin 16 := Fin.ofNat 16 n
      if d.kind n = 1 ∧ axisCh d n = c ∧ (k = 0 ∨ usesFrac d n (k - 1) = true) then
        d.setLane i { d.lane i with pmS := (d.ch c).cnt, shiftS := (d.lane i).shift }
      else d) d
  else d

/-- The sample of an edge is latched: POS, TS, and from the sample of the edge before it the speed, in steps per second (R136,
R152). SPDV reads 1 from the second such sample in the window (R153, assumption 122). -/
def edgeSample (c : Fin 16) (d : Dev) : Dev :=
  let x := d.ch c
  let y := { x with taken := true, pos := x.cnt, ts := x.lastTs, edgePos := x.cnt, edgeTs := x.lastTs,
                    since := min 2 (x.since + 1) }
  let d := if x.since = 0 then d.setCh c { y with spd := 0, dcnt := 0, dt := 0 }
    else
      let n := (x.cnt - x.edgePos).toInt
      let t := (x.lastTs - x.edgeTs).toNat
      Dev.setFlag (FB_STAT c) 0 true (d.setCh c { y with dcnt := wordI n, dt := word (min t 0xFFFFFFFF),
                                                         spd := speedOf (n * 1500000000) t })
  forAll 16 (fun n d =>
    let i : Fin 16 := Fin.ofNat 16 n
    if d.kind n = 1 ∧ axisCh d n = c then
      d.setLane i { d.lane i with spdS := (d.ch c).spd, spdvS := d.flag (FB_STAT c) 0 }
    else d) d

/-- SINCOS_SAMPLE: a sample pair with the quadrant count of the comparators; `fast` when the line frequency is above
500 kHz (R146, R147). In Capture the sample that falls on the edge is latched. INV turns the position of a sin/cos channel round
and does nothing on a serial one (DESIGN CHOICE, assumption 123). -/
def sincosStep (c : Fin 16) (sn cs : BitVec 14) (quadrants : BitVec 32) (fast : Bool) (ts : DWord) (d : Dev) : Dev :=
  if !fbLive d c 5 then d
  else
    let d := d.reachTs ts
    let (y, x, cp) := scCorrected d c sn cs
    -- amplitude² in codes²: (y² + x²) / (cp² 2^30)
    let num := (y * y + x * x).toNat
    let den := (cp * cp).toNat * 2 ^ 30
    let amp := if den = 0 then 0 else isqrt (num / den)
    let amin := d.fld (FB_SCAMP c) 15 0
    let amax := d.fld (FB_SCAMP c) 31 16
    let low := decide (num < amin * amin * den)
    let high := decide (amax * amax * den < num)
    let z := d.ch c
    let up := if amp * amp * den = num then 0 else b2n (Config.roundUp d.freeCtr)
    let d := (d.tickFree).setCh c { z with raw := sn.setWidth 48, rawC := cs, amp := word (amp + up) }
    if low || high || fast then fbUnref c (fbErr c 12 d)
    else
      let a := angle12 y x
      -- join the angle to the quadrant count: the line period nearest to it
      let q := quadrants.toInt
      let per := (q - ((a / 1024 : Nat) : Int) + 2).fdiv 4
      let pos := wordI ((if d.flag (FB_CFG c) 11 then -1 else 1) * (per * 4096 + a)) + (d.ch c).ofs
      let d := finishLatches c pos ts d
      let z := d.ch c
      let dn := decide ((pos - z.cnt).toInt < 0)
      let z := { z with cnt := pos, prevCnt := z.cnt, prevTs := z.lastTs, lastTs := ts, lastDn := dn, seen := true,
                        edged := true }
      let d := laneAlign c ts (Dev.setFlag (FB_STAT c) 2 dn (d.setCh c z))
      if decide (d.tick.phase = .capture) && takenAt d d.tick.edgeAt ts && !z.taken then edgeSample c d else d

/-! ## Position latches (R157, R158) -/

/-- CAP_EDGE: an edge of CAPj whose level has held for `held` core cycles since `ts`. A counted edge at the same timestamp is
later than it (07_feedback.md). An edge recorded before the previous result was latched takes its place and sets LOVR (R158). -/
def capStep (j : Fin 8) (rising : Bool) (held : Nat) (ts : DWord) (d : Dev) : Dev :=
  let cfg := d.reg (FB_CAP j)
  let edge := bits cfg 9 8
  let cont := bit cfg 7
  let l := d.latch j
  let wants := if rising then decide (edge = 1 ∨ edge = 3) else decide (edge = 2 ∨ edge = 3)
  if !wants || !l.armed || d.pw.stopped || !pinHeld (bits cfg 15 10) held then d
  else
    let d := d.reachTs ts
    let c := Fin.ofNat 16 (bits cfg 3 0)
    let x := d.ch c
    let l := { l with armed := cont }
    match d.fbType c with
    | 1 | 2 =>
      let pos := if x.seen && x.edged && decide (x.lastTs = ts) then (if x.lastDn then x.cnt + 1 else x.cnt - 1)
                 else x.cnt
      d.setLatch j { l with lovr := l.lovr || l.result.isSome, result := some (pos, ts, false) }
    | 3 | 4 | 5 => d.setLatch j { l with lovr := l.lovr || l.waiting.isSome || l.result.isSome, waiting := some ts, result := none }
    | _ => d

def execCapEdge (j : Fin 8) (rising : Bool) (l : Sys2Proof.HeldLevel) (s : State) : Out :=
  .next { s with dev := capStep j rising l.held l.ts s.dev }

/-- LATCH_TIMEOUT: no later good frame of a serial channel within 4 ms of the CAP edge records LERR (R157). -/
def latchTimeout (j : Fin 8) (d : Dev) : Dev :=
  let l := d.latch j
  let ty := d.fbType (d.fld (FB_CAP j) 3 0)
  match l.waiting with
  | some t => if ty = 3 ∨ ty = 4 then d.setLatch j { l with waiting := none, result := some (0, t, true) } else d
  | none => d

def execLatchTimeout (j : Fin 8) (s : State) : Out := .next { s with dev := latchTimeout j s.dev }

/-! ## Commands of port +0x40 (R139, R155, R156, R158), each acting at its edge -/

/-- SETPOS: the counter becomes SETVAL + (counter - POS), POS as latched in Capture of the ending tick (R156). Before a
Z re-zero of the same tick it moves nothing: the re-zero applies after it. -/
def setPos (c : Fin 16) (setval : Word) (d : Dev) : Dev :=
  if (d.ch c).rezero then d else moveCount c (setval - (d.ch c).pos) d

/-- REFSET: REF reads 1 (R155). -/
def refSet (c : Fin 16) (d : Dev) : Dev := Dev.setFlag (FB_STAT c) 1 true d

def zArm (c : Fin 16) (d : Dev) : Dev := d.setCh c { d.ch c with zarm := true }

/-- REARM: the latch takes edges again and LVALID clears (R158); LOVR and LERR clear with it, and a result that is not yet latched
is dropped (DESIGN CHOICE, assumption 124). -/
def reArm (j : Fin 8) (d : Dev) : Dev :=
  d.setLatch j { d.latch j with armed := true, lvalid := false, lovr := false, lerr := false, result := none,
                                waiting := none }

/-- The value committed to SETVAL of a channel. -/
def setVal (d : Dev) (c : Nat) : Word := d.out (0x1844 + 0x80 * c)

def execSetpos (c : Fin 16) (s : State) : Out := atEdge (fun d => setPos c (setVal d c) d) s
def execRefset (c : Fin 16) (s : State) : Out := atEdge (refSet c) s
def execZarm (c : Fin 16) (s : State) : Out := atEdge (zArm c) s
def execRearm (j : Fin 8) (s : State) : Out := atEdge (reArm j) s

/-- A committed write of FBc_CFG (R134, R135): a change of TYPE resets the channel and the latches that sample it. -/
def commitFbCfg (c : Fin 16) (v : Word) (d : Dev) : Dev :=
  let ty := bits v 2 0
  if (ty = 5 ∧ 8 ≤ c.val) ∨ 6 ≤ ty then fbErr c 14 d
  else
    let old := d.fbType c
    let d := d.setReg (FB_CFG c) (v &&& 0x003F3C07)
    if ty = old then d
    else
      let d := d.setCh c { FbCh.reset with zpos := (d.ch c).zpos }
      let d := Dev.setFlag (FB_STAT c) 0 false (Dev.setFlag (FB_STAT c) 1 false (Dev.setFlag (FB_STAT c) 4 true d))
      let d := Dev.setFlag (FB_STAT c) 3 false (Dev.setFlag (FB_STAT c) 2 false d)
      forAll 8 (fun j d => if j = c.val ∨ d.fld (FB_CAP j) 3 0 = c then d.setLatch (Fin.ofNat 8 j) Latch.reset else d) d

/-! ## Capture (R136, R145, R150 to R154) -/

/-- The speed of a quadrature or Hall channel at Capture of the tick that begins at `edge` (R150, R151, R154). Where the first
edges of a channel all fall in one window there is no reference edge: SPDV reads 1 with SPD, DCNT and DT at 0 (DESIGN CHOICE,
assumption 125). -/
def speedQuad (edge : DWord) (c : Fin 16) (d : Dev) : Dev :=
  let x := d.ch c
  let discard := d.flag (FB_CFG c) 10
  if x.since < 2 ∨ (discard ∧ x.revLast ∧ x.edged) then
    Dev.setFlag (FB_STAT c) 0 false (d.setCh c { x with spd := 0, dcnt := 0, dt := 0, refCnt := x.cnt, refTs := x.lastTs,
                                                         refOk := x.seen })
  else
    let d := Dev.setFlag (FB_STAT c) 0 true d
    if x.edged then
      if x.refOk then
        let n := (x.cnt - x.refCnt).toInt
        let t := (x.lastTs - x.refTs).toNat
        d.setCh c { x with dcnt := wordI n, dt := word (min t 0xFFFFFFFF), spd := speedOf (n * 1500000000) t,
                           refCnt := x.cnt, refTs := x.lastTs }
      else d.setCh c { x with refCnt := x.cnt, refTs := x.lastTs, refOk := true, spd := 0, dcnt := 0, dt := 0 }
    else
      let t := (edge - x.lastTs).toNat
      let zero := decide (d.fld (FB_ZSTO c) 15 0 * 1500 ≤ t)
      let mag := speedOf 1500000000 t
      let m0 := x.spd &&& 0x7FFFFFFF
      let m := if ltF b32 mag.toNat m0.toNat then mag else m0
      let d := if zero then Dev.setFlag (FB_STAT c) 3 true d else d
      d.setCh c { x with dcnt := 0, dt := word (min t 0xFFFFFFFF),
                         spd := if zero then 0 else (x.spd &&& 0x80000000) ||| m, refCnt := x.cnt, refTs := x.lastTs }

/-- The speed of a serial channel, from its two most recent good frames (R152, R153). -/
def speedSerial (c : Fin 16) (d : Dev) : Dev :=
  let x := d.ch c
  if x.since < 2 then Dev.setFlag (FB_STAT c) 0 false (d.setCh c { x with spd := 0, dcnt := 0, dt := 0 })
  else
    let n := (x.cnt - x.prevCnt).toInt
    let t := (x.lastTs - x.prevTs).toNat
    Dev.setFlag (FB_STAT c) 0 true (d.setCh c { x with dcnt := wordI n, dt := word (min t 0xFFFFFFFF),
                                                       spd := speedOf (n * 1500000000) t })

/-- Capture of one channel at its edge; the sample of a sin/cos channel follows within 31.25 ns (`edgeSample`). -/
def fbCapture (edge : DWord) (c : Fin 16) (d : Dev) : Dev :=
  let ty := d.fbType c
  if ty = 0 then d
  else
    let d := if ty = 1 ∨ ty = 2 then speedQuad edge c d else if ty = 5 then d else speedSerial c d
    let x := d.ch c
    d.setCh c { x with pos := x.cnt, pos1 := x.pos, caps := min 2 (x.caps + 1), taken := false,
                       ts := if ty = 1 ∨ ty = 2 then edge else x.lastTs, edged := false, revLast := false,
                       revved := false, rev := x.revved, rezero := false }

/-- The end of Capture of one channel: STALE reads 1 when no good frame completed since the end of the Capture before (R145); a
channel that is not serial reads 0 (DESIGN CHOICE, assumption 126). A sin/cos channel whose sample at the edge fell outside the
window has no speed (R153). -/
def fbCaptureEnd (c : Fin 16) (d : Dev) : Dev :=
  let ty := d.fbType c
  if ty = 0 then d
  else
    let d := if ty = 5 ∧ (d.ch c).taken = false then
        Dev.setFlag (FB_STAT c) 0 false (d.setCh c { d.ch c with since := 0, spd := 0, dcnt := 0, dt := 0 })
      else d
    (Dev.setFlag (FB_STAT c) 4 ((decide (ty = 3) || decide (ty = 4)) && !(d.ch c).fresh) d).setCh c
      { d.ch c with fresh := false, lspd := (d.ch c).spd }

/-- The end of Capture of one latch: a result that is ready shows (R158). -/
def latchCapture (j : Fin 8) (d : Dev) : Dev :=
  let l := d.latch j
  match l.result with
  | some (p, t, e) => d.setLatch j { l with lpos := if e then l.lpos else p, lts := t, lvalid := true,
                                            lerr := l.lerr || e, result := none }
  | none => d

/-- FBc_STAT as the port shows it: bit 8 for a reversal in this tick's window only. -/
def fbStatPort (d : Dev) (c : Fin 16) : Word :=
  setBit (word (d.fld (FB_STAT c) 15 0)) 8 (d.ch c).rev

/-- The input ports of channel c (R159). -/
def fbPort (d : Dev) (c : Fin 16) (ofs : Nat) : Word :=
  let x := d.ch c
  let ty := d.fbType c
  if ty = 0 then 0
  else
    let l := d.latch (Fin.ofNat 8 c)
    let lw := fun (w : Word) => if c.val < 8 then w else 0
    match ofs with
    | 0x00 => x.pos
    | 0x04 => loWord x.ts
    | 0x08 => hiWord x.ts
    | 0x0C => x.spd
    | 0x10 => fbStatPort d c
    | 0x14 => x.dcnt
    | 0x18 => x.dt
    | 0x1C => x.zpos
    | 0x20 => lw l.lpos
    | 0x24 => lw (loWord l.lts)
    | 0x28 => lw (hiWord l.lts)
    | 0x2C => lw (word (b2n l.lvalid + 2 * b2n l.lovr + 4 * b2n l.lerr))
    | 0x30 => word x.raw.toNat
    | 0x34 => if ty = 5 then x.rawC.setWidth 32 else if ty = 3 ∨ ty = 4 then word (x.raw.toNat / 2 ^ 32) else 0
    | 0x38 => if ty = 5 then x.amp else 0
    | 0x3C => loWord x.lastTs
    | _ => 0

end Sys2Proof.Machine
end

