-- ==== Sys2Proof/Machine/Axes.lean ====
section
/-! DEFINITION. Axes, profiles and coordinated motion (08_motion.md). The planner computes the slew limiter in binary64 in
the written order (assumption 38); groups, gears and cams are exact with one rounding (assumption 39). -/
namespace Sys2Proof.Machine

/-! ## Alerts and the committed controls -/

def axEn (d : Dev) (n : Nat) : Bool := d.flag (AX_CTRL n) 0
def axMode (d : Dev) (n : Nat) : Nat := d.fld (AX_CTRL n) 3 1
def axQstop (d : Dev) (n : Nat) : Bool := d.flag (AX_CTRL n) 4

/-- AX_ALERT on axis n: CAUSE, ALERT, the alert count and event 49 + 2n. -/
def axAlert (n : Fin 16) (cause : Nat) (d : Dev) : Dev :=
  let d := Dev.setFlag (AX_STAT n) 13 true (Dev.setFld (AX_STAT n) 31 24 cause d)
  raise (49 + 2 * n) (d.setAxis n { d.axis n with alerts := (d.axis n).alerts + 1 })

/-- DONE with event 48 + 2n. -/
def axDone (n : Fin 16) (d : Dev) : Dev := raise (48 + 2 * n) (Dev.setFlag (AX_STAT n) 7 true d)

/-! ## The slew limiter (R167, R168) -/

/-- The limits of a plan in binary64: the period, vmax, amax, jmax. -/
structure Lims where
  t    : Nat
  vmax : Nat
  amax : Nat
  jmax : Nat
  deriving DecidableEq, Repr

/-- VMAX as it is taken: a step/direction axis is held to 4,000,000 units/s (R174). -/
def vmaxOf (d : Dev) (n : Nat) : Word :=
  let cap : Word := 0x4A742400
  if d.kind n = 3 ∧ iLt cap (d.reg (AX_VMAX n)) = true then cap else d.reg (AX_VMAX n)

/-- The limits in force for axis n. With `q`, amax is QDEC. -/
def limsOf (d : Dev) (n : Nat) (q : Bool) : Lims :=
  { t := (ofRatF b64 d.period 3000000000).w, vmax := q64 (vmaxOf d n),
    amax := q64 (if q then d.reg (AX_QDEC n) else d.reg (AX_AMAX n)), jmax := q64 (d.reg (AX_JMAX n)) }

/-- The result of the velocity rule: the distance moved, v1, a1, and whether the snap applied. -/
structure Slew where
  dp   : Nat
  v1   : Nat
  a1   : Nat
  snap : Bool
  deriving DecidableEq, Repr

/-- The velocity rule (R167). -/
def velRule (l : Lims) (vt v0 a0 : Nat) : Slew :=
  let two := qInt 2
  let vt := qClamp vt (qNeg l.vmax) l.vmax
  let jt := qMul l.jmax l.t
  let e := qSub (qSub vt v0) (qDiv (qMul a0 (qAbs a0)) (qMul two l.jmax))
  let ag := qMul (qSign e) l.amax
  let a1 := qAdd a0 (qClamp (qSub ag a0) (qNeg jt) jt)
  let v1 := qAdd v0 (qDiv (qMul (qAdd a0 a1) l.t) two)
  let snap := qLe (qAbs a0) jt && qLe (qAbs (qSub vt v1)) (qDiv (qMul jt l.t) two)
  let a1 := if snap then 0 else a1
  let v1 := if snap then vt else v1
  let dp := qAdd (qDiv (qMul (qAdd v0 v1) l.t) two) (qDiv (qMul (qMul (qSub a0 a1) l.t) l.t) (qInt 12))
  ⟨dp, v1, a1, snap⟩

/-- The stopping distance for a speed u ≥ 0 toward the target and an acceleration in the same sense (R168). -/
def stopDist (l : Lims) (u al : Nat) : Nat :=
  let two := qInt 2
  let u2 := qAdd u (qDiv (qMul al (qAbs al)) (qMul two l.jmax))
  let s1 := qAdd (qDiv (qMul u (qAbs al)) l.jmax)
    (qDiv (qMul (qMul al al) al) (qMul (qMul (qInt 3) l.jmax) l.jmax))
  let s0 :=
    if qLe u2 0 then 0
    else if qLe (qDiv (qMul l.amax l.amax) l.jmax) u2 then
      qAdd (qDiv (qMul u2 u2) (qMul two l.amax)) (qDiv (qMul u2 l.amax) (qMul two l.jmax))
    else qMul u2 (qSqrt (qDiv u2 l.jmax))
  qAdd s1 s0

/-- The clamp of R184 on a velocity target, by the latched limits. -/
def limitClamp (x : Axis) (vt : Nat) : Nat :=
  let vt := if bit x.act 0 && qLt 0 vt then 0 else vt
  if bit x.act 1 && qLt vt 0 then 0 else vt

/-- The end state of a slew from a start. -/
def slewEnd (x : Traj) (r : Slew) : Traj := { p := posAdd x.p (unitsOf r.dp), v := q32 r.v1, a := q32 r.a1 }

/-- Two patterns have the same value. -/
def qEq (a b : Nat) : Bool := eqF b64 a b

/-- A plan that keeps the axis's gear and cam quantities and reports nothing. -/
def basePlan (x : Axis) (fin : Traj) : Plan :=
  { fin := fin, rep := TrajRep.none, locked := false, lockNum := x.lockNum, lockDen := x.lockDen, mLast := x.mLast,
    armed := x.armed, camOfs := x.camOfs, halting := false }

/-- A velocity target as committed; a NaN gives an open one within the limits (assumption 23). -/
def velTarget (d : Dev) (w : Word) : Nat :=
  if isNanF b32 w.toNat then
    (if isNanF b32 (Config.freeWord d.freeCtr).toNat then 0 else q64 (Config.freeWord d.freeCtr))
  else q64 w

/-- The velocity rule toward a target under the limit clamp; LIMITED for a clamp. -/
def slewTo (l : Lims) (x : Axis) (vt : Nat) : Slew × Bool :=
  let c := limitClamp x vt
  (velRule l c (q64 x.cur.v) (q64 x.cur.a), !qEq c vt)

/-- Velocity mode, or a forced stop with vt = 0: LIMITED where v1 does not reach the set-point. -/
def planVel (d : Dev) (n : Fin 16) (l : Lims) (x : Axis) (vt : Nat) : Plan :=
  let (r, cl) := slewTo l x vt
  let reach := eqF i32 (q32 r.v1).toNat (d.reg (AX_TVEL n)).toNat
  { basePlan x (slewEnd x.cur r) with rep := { TrajRep.none with limited := cl || !reach } }

/-- No velocity and no acceleration. -/
def Traj.atRest (x : Traj) : Bool := decide (iSign x.v = 0) && decide (iSign x.a = 0)

/-- The interval from one state to another passes a point `du` units of 1/65,536 ahead: it ends beyond it, turns back beyond it, or
begins on it in motion (R169). -/
def passes (d : Dev) (x fin : Traj) (du : Int) : Bool :=
  let q := cubicOf d x fin.p
  let back := decide (iSign fin.v < 0)
  let far : Int := match (if iSign fin.v = 0 ∨ iSign fin.v = iSign x.v then none else q.turn back 65536 65536) with
    | some k => rneRat (q.pos (mkRat k 65536) * 65536)
    | none => 0
  let fwd := max (posDiff fin.p x.p) far
  let bwd := min (posDiff fin.p x.p) far
  if 0 < du then decide (du < fwd) else if du < 0 then decide (bwd < du) else decide (iSign x.v ≠ 0)

/-- Position mode (R168): snap onto TPOS, or the velocity rule with vt = s vmax or 0. -/
def planPos (d : Dev) (n : Fin 16) (l : Lims) (x : Axis) : Plan :=
  let target := posOfInt (d.reg (AX_TPOS n))
  let du := posDiff target x.cur.p
  let dd := qOfUnits du
  let v0 := q64 x.cur.v
  let a0 := q64 x.cur.a
  let jt := qMul l.jmax l.t
  let close := qLe (qAbs dd) (qDiv (qMul (qMul jt l.t) l.t) (qInt 6)) && qLe (qAbs v0) (qDiv (qMul jt l.t) (qInt 2)) &&
    qLe (qAbs a0) jt
  if close then
    let there := decide (du = 0) && qEq v0 0 && qEq a0 0
    { basePlan x ⟨target, 0, 0⟩ with rep := { TrajRep.none with done := !there } }
  else
    let s := qSign dd
    let (tr, c1) := slewTo l x (qMul s l.vmax)
    let brake := qLt 0 (qMul s tr.v1) &&
      qLe (qAbs dd) (qAdd (qMul s tr.dp) (stopDist l (qMul s tr.v1) (qMul s tr.a1)))
    let (r, c2) := if brake then slewTo l x 0 else (tr, c1)
    let fin := slewEnd x.cur r
    { basePlan x fin with rep := { TrajRep.none with limited := decide (fin.p ≠ target) || c2, ovr := passes d x.cur fin du,
                                                     done := decide (fin.p = target) && fin.atRest } }

/-- A forced stop by the velocity rule with vt = 0 (QSTOP, a ramped limit stop, a starved or broken group). -/
def planStop (d : Dev) (n : Fin 16) (l : Lims) (x : Axis) : Plan :=
  let (r, _) := slewTo l x 0
  let fin := slewEnd x.cur r
  let reach := match axMode d n with
    | 0 => decide (fin.p = posOfInt (d.reg (AX_TPOS n)))
    | 1 => eqF i32 fin.v.toNat (d.reg (AX_TVEL n)).toNat
    | _ => true
  { basePlan x fin with rep := { TrajRep.none with limited := !reach } }

/-! ## Groups (R175 to R178) -/

/-- The members of group g, lowest first, and its lead. -/
def members (d : Dev) (g : Nat) : List (Fin 16) := (List.finRange 16).filter (fun n => d.flag (AX_GRP g) n)
def leadOf (d : Dev) (g : Nat) : Option (Fin 16) := (members d g).head?
/-- The group an axis belongs to, and the group it leads. -/
def groupOf (d : Dev) (n : Fin 16) : Option (Fin 4) := (List.finRange 4).find? (fun g => d.flag (AX_GRP g) n)
def ledBy (d : Dev) (n : Fin 16) : Option (Fin 4) := (List.finRange 4).find? (fun g => decide (leadOf d g = some n))

/-- A committed write of AX_GRPg: ignored where it would place an axis in two groups (R175). -/
def commitGroup (g : Fin 4) (v : Word) (d : Dev) : Dev :=
  if (List.finRange 4).any (fun h => decide (h ≠ g) && decide ((d.reg (AX_GRP h) &&& v &&& 0xFFFF) ≠ 0)) then d
  else d.setReg (AX_GRP g) (v &&& 0xFFFF)

/-- A cubic Hermite path in exact units: start position offset 0, end offset D, velocities, duration in seconds. -/
structure Hermite where
  dist : Rat
  v0   : Rat
  v1   : Rat
  time : Rat
  deriving DecidableEq, Repr

/-- The coefficients of s² and s³ of the path, s from 0 to 1. -/
def Hermite.b (h : Hermite) : Rat := 3 * h.dist - (2 * h.v0 + h.v1) * h.time
def Hermite.c (h : Hermite) : Rat := (h.v0 + h.v1) * h.time - 2 * h.dist
def Hermite.pos (h : Hermite) (s : Rat) : Rat := h.v0 * h.time * s + h.b * s * s + h.c * s * s * s
def Hermite.vel (h : Hermite) (s : Rat) : Rat := h.v0 + (2 * h.b * s + 3 * h.c * s * s) / h.time
def Hermite.acc (h : Hermite) (s : Rat) : Rat := (2 * h.b + 6 * h.c * s) / (h.time * h.time)
def Hermite.jerk (h : Hermite) : Rat := 6 * h.c / (h.time * h.time * h.time)

def ratAbs (r : Rat) : Rat := if r < 0 then -r else r

/-- The path from a state to a segment's end for one member. -/
def hermiteOf (d : Dev) (dur : Nat) (x : Traj) (e : Word × Word) : Hermite :=
  { dist := mkRat (posDiff (posOfInt e.1) x.p) 65536, v0 := ratOf x.v, v1 := ratOf e.2, time := periodRat d * (dur : Nat) }

/-- The path keeps within a member's VMAX throughout, AMAX at either end and JMAX (R176). -/
def hermiteOk (d : Dev) (n : Fin 16) (h : Hermite) (endV : Word) : Bool :=
  let vmax := ratOf (vmaxOf d n)
  let amax := ratOf (d.reg (AX_AMAX n))
  let jmax := ratOf (d.reg (AX_JMAX n))
  let inner := if h.c = 0 then 0 else
    let s := -h.b / (3 * h.c)
    if 0 < s ∧ s < 1 then ratAbs (h.vel s) else 0
  fFinite endV && decide (ratAbs h.v0 ≤ vmax) && decide (ratAbs h.v1 ≤ vmax) && decide (inner ≤ vmax) &&
    decide (ratAbs (h.acc 0) ≤ amax) && decide (ratAbs (h.acc 1) ≤ amax) && decide (ratAbs h.jerk ≤ jmax)

/-- The end of a member in a segment. -/
def Seg.endOf (s : Seg) (n : Fin 16) : Word × Word :=
  match s.ends.find? (fun e => decide (e.1 = n.val)) with
  | some e => (e.2.1, e.2.2)
  | none => (0, 0)

/-- The state of a member after k ticks of a segment that began in state x. -/
def segState (d : Dev) (s : Seg) (n : Fin 16) (x : Traj) (k : Nat) : Traj :=
  let e := s.endOf n
  let h := hermiteOf d s.dur x e
  let u := mkRat k s.dur
  if s.dur ≤ k then { p := posOfInt e.1, v := e.2, a := i32OfRat (h.acc 1) }
  else { p := posAdd x.p (rneRat (h.pos u * 65536)), v := i32OfRat (h.vel u), a := i32OfRat (h.acc u) }

/-- Where a segment pushed now would begin for a member: the end of the newest queued or running segment, else its state. -/
def pushStart (d : Dev) (g : Group) (n : Fin 16) : Traj :=
  match g.queue.getLast?, g.running with
  | some s, _ => ⟨posOfInt (s.endOf n).1, (s.endOf n).2, 0⟩
  | none, some (s, _, _) => ⟨posOfInt (s.endOf n).1, (s.endOf n).2, 0⟩
  | none, none => (d.axis n).cur

/-- SEGPUSH of axis n, acting where it leads a group (R176). -/
def segPush (n : Fin 16) (d : Dev) : Dev :=
  match ledBy d n with
  | none => d
  | some g =>
    let q := d.group g
    if 32 ≤ q.queue.length then axAlert n 6 d
    else
      let ms := members d g
      let dur := legalOr d 1 65535 (d.reg (AX_SEGDUR n)).toNat
      let s : Seg := { dur := dur, ends := ms.map (fun (m : Fin 16) => (m.val, d.reg (AX_SEGPOS m), d.reg (AX_SEGVEL m))) }
      let ok := ms.all (fun m => hermiteOk d m (hermiteOf d dur (pushStart d q m) (s.endOf m)) (s.endOf m).2)
      if ok then d.setGroup g { q with queue := q.queue ++ [s] } else axAlert n 5 d

/-- FLUSH of a lead: every queued segment that has not started is discarded. -/
def segFlush (n : Fin 16) (d : Dev) : Dev :=
  match ledBy d n with
  | none => d
  | some g => d.setGroup g { d.group g with queue := [] }

def execSegpush (n : Fin 16) (s : State) : Out := atEdge (segPush n) s
def execFlush (n : Fin 16) (s : State) : Out := atEdge (segFlush n) s

/-- The group of axis n breaks (R178): the queue is flushed, every other member stops, BREAK on the lead. A group in which nothing
runs, is queued or still brakes has nothing to break (DESIGN CHOICE, assumption 129). -/
def groupBreak (n : Fin 16) (d : Dev) : Dev :=
  match groupOf d n with
  | none => d
  | some g =>
    let q := d.group g
    if q.running.isNone && q.queue.isEmpty && !(members d g).any (fun m => (d.axis m).halting) then d
    else
      let d := d.setGroup g { q with queue := [], running := none, starved := false }
      let d := (members d g).foldl (fun (d : Dev) (m : Fin 16) => if m = n then d else d.setAxis m { d.axis m with halting := true, settle := none }) d
      match leadOf d g with
      | some m => axAlert m 11 d
      | none => d

/-- A queued segment starts at this edge from the members' states (R177). -/
def segStart (g : Fin 4) (d : Dev) : Dev :=
  let q := d.group g
  match q.queue with
  | [] => d
  | s :: t =>
    let ms := members d g
    let d := ms.foldl (fun (d : Dev) (m : Fin 16) =>
      let x := d.axis m
      let h := hermiteOf d s.dur x.cur (s.endOf m)
      d.setAxis m { x with cur := { x.cur with a := i32OfRat (h.acc 0) }, settle := none }) d
    d.setGroup g { queue := t, running := some (s, d.tick.count, ms.map (fun (m : Fin 16) => (m.val, (d.axis m).cur))),
                   starved := false }

/-- A member stands where a segment that ends at rest ends, or, after a hold interval, comes to rest there in the coming one
(R177). -/
def segRest (s : Seg) (m : Fin 16) (d : Dev) : Dev :=
  let x := d.axis m
  let p := posOfInt (s.endOf m).1
  d.setAxis m (if x.cur.p = p then { x with cur := x.cur.stopped } else { x with settle := some p })

/-- The running segment of group g ends when its duration has passed (R177, R178). A DONE at an abandoned edge is reported at the
next one that commits (R366). -/
def segEnd (commits : Bool) (g : Fin 4) (d : Dev) : Dev :=
  let q := d.group g
  match q.running with
  | none => d
  | some (s, c0, _) =>
    if (d.tick.count - c0).toNat < s.dur then d
    else if !q.queue.isEmpty then segStart g (d.setGroup g { q with running := none })
    else
      let d := d.setGroup g { q with running := none }
      if s.ends.all (fun e => decide (iSign e.2.2 = 0)) then
        let d := (members d g).foldl (fun (d : Dev) (m : Fin 16) => segRest s m d) d
        match leadOf d g with
        | some m => if commits then axDone m d else d.setAxis m { d.axis m with rep := { (d.axis m).rep with done := true } }
        | none => d
      else
        let d := d.setGroup g { d.group g with starved := true }
        let d := (members d g).foldl (fun (d : Dev) (m : Fin 16) =>
          Dev.setFlag (AX_STAT m) 10 true (d.setAxis m { d.axis m with halting := true })) d
        match leadOf d g with
        | some m => axAlert m 4 d
        | none => d

def execSegmentEnd (g : Fin 4) (s : State) : Out := atEdge (segEnd true g) s

/-- The groups at an edge: running segments end, and a group whose members are all ready starts (R177). -/
def groupEdge (commits : Bool) (g : Fin 4) (d : Dev) : Dev :=
  let d := segEnd commits g d
  let q := d.group g
  let ms := members d g
  if q.running.isNone && !q.queue.isEmpty && !ms.isEmpty &&
      ms.all (fun m => (d.axis m).on && decide (axMode d m = 2) && (d.axis m).cur.atRest) then segStart g d
  else d

/-- The groups at an abandoned edge: their segments go on by TCK_COUNT (R177). -/
def groupsHold (d : Dev) : Dev := (List.finRange 4).foldl (fun (d : Dev) (g : Fin 4) => groupEdge false g d) d

/-- The segment that runs axis n, its start state there, and the ticks elapsed at the coming edge. -/
def segOf (d : Dev) (n : Fin 16) : Option (Seg × Traj × Nat) :=
  match groupOf d n with
  | none => none
  | some g =>
    match (d.group g).running with
    | none => none
    | some (s, c0, st) => (st.find? (fun e => decide (e.1 = n.val))).map (fun e => (s, e.2, (d.tick.count - c0).toNat + 1))

/-! ## Gears and cams (R179 to R182) -/

/-- The state that an axis will have at the end of the coming interval. -/
def nextOf (d : Dev) (x : Axis) : Traj :=
  match x.plan with
  | some p => p.fin
  | none => if x.on then holdEnd d x.cur else x.cur

/-- The master of axis n: position, velocity and acceleration (R179, R180). -/
def masterOf (d : Dev) (n : Fin 16) : BitVec 48 × Word × Word :=
  let src := d.reg (AX_GSRC n)
  let i := Fin.ofNat 16 (bits src 3 0)
  if bit src 4 then
    let c := d.ch i
    (posOfInt c.pos, c.lspd, q32 (qDiv (qSub (q64 c.lspd) (q64 (d.axis n).mVel)) (limsOf d n false).t))
  else if i < n then let t := nextOf d (d.axis i); (t.p, t.v, t.a)
  else let t := (d.axis i).cur; (t.p, t.v, t.a)

/-- Why a start is refused: NOFB, BLIND, or none (R170). -/
def startRefusal (d : Dev) (n : Fin 16) : Option Nat :=
  let fb := d.flag (AX_CFG n) 27
  match d.kind n with
  | 1 => if !fb || decide (d.fbType (axisCh d n) = 0) then some 2 else none
  | 0 => none
  | _ => if !fb && !d.flag (AX_CFG n) 7 then some 1 else none

/-- An axis counts as enabled at an edge: EN = 1 is committed and its start, where one falls due, is not refused (R170). -/
def axCounts (d : Dev) (m : Fin 16) : Bool :=
  axEn d m && ((d.axis m).on || decide (d.mode ≠ .run) || (startRefusal d m).isNone)

/-- The master is not there: its axis is not enabled, or its channel has TYPE 0 (R179). -/
def masterBad (d : Dev) (n : Fin 16) : Bool :=
  let src := d.reg (AX_GSRC n)
  if bit src 4 then decide (d.fbType (bits src 3 0) = 0) else !axCounts d (Fin.ofNat 16 (bits src 3 0))

/-- The position of the master at the most recent edge: its state there, or POS as latched. -/
def masterEdge (d : Dev) (n : Fin 16) : BitVec 48 :=
  let src := d.reg (AX_GSRC n)
  let i := Fin.ofNat 16 (bits src 3 0)
  if bit src 4 then posOfInt (d.ch i).pos else (d.axis i).cur.p

/-- GNUM and GDEN as committed. -/
def gearNow (d : Dev) (n : Nat) : Word × Word := (d.reg (AX_GNUM n), d.reg (AX_GDEN n))

/-- Master motion times a gear ratio, exactly, in 1/65,536 unit. -/
def geared (g : Word × Word) (moved : Int) : Rat := mkRat (moved * g.1.toInt) g.2.toNat

/-- GNUM / GDEN in binary64. -/
def gearRatio (g : Word × Word) : Nat := qDiv (qInt g.1.toInt) (qInt (g.2.toNat : Int))

/-- The master is an axis below the follower, whose state at the end of the planned interval is used, or an axis above it, whose
state one edge older is; otherwise a feedback channel as latched (R179). -/
def masterBelow (d : Dev) (n : Fin 16) : Bool := !bit (d.reg (AX_GSRC n)) 4 && decide (bits (d.reg (AX_GSRC n)) 3 0 < n.val)
def masterAxis (d : Dev) (n : Fin 16) : Bool := !bit (d.reg (AX_GSRC n)) 4

/-- What the follower of a locked gear moves, beyond its position at `mLast`, up to the state of the master that it uses: motion
before the coming edge takes the ratio in force since the most recent edge, motion after it the ratio that commits there (R180). -/
def gearMove (d : Dev) (n : Fin 16) (x : Axis) (mp : BitVec 48) : Rat :=
  if !masterAxis d n then 0
  else
    let m1 := masterEdge d n
    geared x.gear1 (posDiff m1 x.mLast) + (if masterBelow d n then geared (gearNow d n) (posDiff mp m1) else 0)

/-- A gear interval (R180). The velocity takes the ratio of the motion that it measures (DEDUCED, assumption 130). -/
def planGear (d : Dev) (n : Fin 16) (l : Lims) (x : Axis) : Plan :=
  let (mp, mv, ma) := masterOf d n
  let k := gearRatio (if masterBelow d n then gearNow d n else if masterAxis d n then x.gear1 else x.gear2)
  if x.locked then
    let r := mkRat x.lockNum x.lockDen + gearMove d n x mp
    let v := qMul k (q64 mv)
    let a := qMul k (q64 ma)
    let ovr := qLt l.vmax (qAbs v) || qLt l.amax (qAbs a)
    { basePlan x ⟨BitVec.ofInt 48 (rneRat r), q32 v, q32 a⟩ with
      locked := true, rep := { TrajRep.none with lock := true, limited := ovr, gearOvr := ovr } }
  else
    let (r, cl) := slewTo l x (qMul (gearRatio (gearNow d n)) (q64 mv))
    let fin := slewEnd x.cur r
    -- the lock position at the master position of the most recent edge
    let y := { x with mLast := if masterBelow d n then masterEdge d n else x.mLast }
    let p := mkRat fin.p.toNat 1 - gearMove d n y mp
    { basePlan x fin with
      locked := r.snap, lockNum := p.num.emod (2 ^ 48 * p.den), lockDen := p.den, mLast := y.mLast,
      rep := { TrajRep.none with lock := r.snap, done := r.snap, limited := cl } }

/-- Entry i of the cam table of axis n in 1/65,536 unit: entry i + CAMLEN is entry i plus CAMRISE (R181). Beyond tick SRAM
the manual gives no entry: a free value (assumption 23). -/
def camEntry (d : Dev) (n : Nat) (len : Nat) (i : Int) : Int :=
  let a := (d.reg (AX_CAMADDR n)).toNat + 4 * (i.emod len).toNat
  let e := if a + 4 ≤ 0x400000 then (d.sram.word a).toInt else (Config.freeWord d.freeCtr).toInt
  (e + (d.reg (AX_CAMRISE n)).toInt * i.fdiv len) * 256

/-- f(φ) in 1/65,536 unit and f'(φ) in units per master unit, for φ in 1/65,536 master unit: the uniform Catmull-Rom
spline through the entries (R181). -/
def camAt (d : Dev) (n : Nat) (phi : Nat) : Rat × Rat :=
  let len := legalOr d 4 4096 (d.fld (AX_CAMLEN n) 12 0)
  let span := legalOr d 1 0xFFFFFFFF (d.reg (AX_CAMSPAN n)).toNat
  let x := mkRat (phi * len) (span * 65536)
  let i := x.floor
  let u := x - i
  let e := fun (j : Int) => mkRat (camEntry d n len (i + j)) 1
  let a := 2 * e 0
  let b := e 1 - e (-1)
  let c := 2 * e (-1) - 5 * e 0 + 4 * e 1 - e 2
  let q := 3 * e 0 - e (-1) - 3 * e 1 + e 2
  ((a + b * u + c * u * u + q * u * u * u) / 2,
   (b + 2 * c * u + 3 * q * u * u) / 2 * mkRat len span / 65536)

/-- Master phase φ of a master position, in 1/65,536 unit. -/
def camPhase (d : Dev) (n : Nat) (m : BitVec 48) : Nat :=
  let span := legalOr d 1 0xFFFFFFFF (d.reg (AX_CAMSPAN n)).toNat * 65536
  ((posDiff m (posOfInt (d.reg (AX_CAMORG n)))).emod span).toNat

/-- A cam interval (R181, R182). The follower's acceleration is not given: a free value (assumption 23). -/
def planCam (d : Dev) (n : Fin 16) (l : Lims) (x : Axis) : Plan :=
  let (mp, mv, _) := masterOf d n
  let span : Nat := legalOr d 1 0xFFFFFFFF (d.reg (AX_CAMSPAN n)).toNat * 65536
  let raw : Int := (camPhase d n x.mLast : Int) + posDiff mp x.mLast
  let passes := raw.fdiv span
  let (f, f') := camAt d n (raw.emod span).toNat
  let v := q32 (qMul (ofRatF b64 f'.num f'.den).w (q64 mv))
  let a := Config.freeWord d.freeCtr
  if x.locked then
    let ofs := x.camOfs + passes * (d.reg (AX_CAMRISE n)).toInt * 256
    { basePlan x ⟨BitVec.ofInt 48 (ofs + rneRat f), v, a⟩ with
      locked := true, armed := false, camOfs := ofs, mLast := mp, rep := { TrajRep.none with lock := true } }
  else
    let (r, cl) := slewTo l x (velTarget d (d.reg (AX_TVEL n)))
    let fin := slewEnd x.cur r
    if x.armed && decide (passes ≠ 0) then
      let ofs := (fin.p.toNat : Int) - rneRat f
      { basePlan x { fin with v := v, a := a } with
        locked := true, armed := false, camOfs := ofs, mLast := mp,
        rep := { TrajRep.none with lock := true, done := true, limited := cl || !qEq (q64 v) (q64 fin.v) } }
    else { basePlan x fin with mLast := mp, rep := { TrajRep.none with limited := cl } }

/-- At an edge a locked gear takes in the motion of its master over the interval that ends there, under the ratio that was in
force in it; then the ratios move on (R180). -/
def gearEdge (n : Fin 16) (d : Dev) : Dev :=
  let x := d.axis n
  let m := masterEdge d n
  let r := mkRat x.lockNum x.lockDen + geared x.gear1 (posDiff m x.mLast)
  let x := if axMode d n ≠ 3 then x
    else if x.locked then { x with lockNum := r.num.emod (2 ^ 48 * r.den), lockDen := r.den, mLast := m }
    else { x with mLast := m }
  d.setAxis n { x with gear2 := x.gear1, gear1 := gearNow d n }

/-! ## The plan of one axis (R165) -/

/-- The interval that axis n runs from the coming edge, whose committed state `d` holds. -/
def planAxis (d : Dev) (n : Fin 16) : Plan :=
  let x := d.axis n
  let l := limsOf d n false
  if x.hard then basePlan x x.cur
  else if let some p := x.settle then basePlan x ⟨p, 0, 0⟩
  else if axQstop d n || x.ramp then planStop d n (limsOf d n true) x
  else
    match axMode d n with
    | 0 => planPos d n l x
    | 1 => planVel d n l x (velTarget d (d.reg (AX_TVEL n)))
    | 2 =>
      match segOf d n with
      | some (s, st, k) => if x.halting then planStop d n l x else basePlan x (segState d s n st k)
      | none =>
        let p := planStop d n l x
        { p with halting := x.halting && !p.fin.atRest }
    | 3 => planGear d n l x
    | _ => planCam d n l x

/-- Plans for every running axis in ascending order. -/
def planAll (d : Dev) : Dev :=
  (List.finRange 16).foldl (fun (d : Dev) (n : Fin 16) =>
    let x := d.axis n
    if x.on && !x.fresh then (d.setAxis n { x with plan := some (planAxis d n) }).tickFree
    else d.setAxis n { x with plan := none }) d

/-! ## Starting and stopping (R170 to R173) -/

/-- The speed of R171: SPD, or the difference of the positions latched at the last two Captures. -/
def startSpeed (d : Dev) (n : Fin 16) (scale : Rat) : Word :=
  let c := axisCh d n
  let x := d.ch c
  if d.flag (FB_STAT c) 0 then (if scale = 1 then x.spd else i32OfRat (ratOf x.spd * scale))
  else if x.caps < 2 ∨ d.period = 0 then 0
  else i32OfRat (mkRat (shortest x.pos x.pos1) 1 / periodRat d * scale)

/-- Axis n starts at this edge in Run (R170 to R172), or its enable is refused: the edge commits EN = 0, with what that does to its
lane and its group (R173, R178, R199). -/
def axisStart (n : Fin 16) (d : Dev) : Dev :=
  match startRefusal d n with
  | some c =>
    let d := if axMode d n = 2 then groupBreak n d else d
    laneStop n (axAlert n c (Dev.setFlag (AX_CTRL n) 0 false d))
  | none =>
    let x := d.axis n
    let fb := d.flag (AX_CFG n) 27
    let cur : Traj :=
      if d.kind n = 1 then { p := posOfInt (d.ch (axisCh d n)).pos, v := startSpeed d n 1, a := 0 }
      else if fb && decide (d.kind n ≠ 0) then { x.cur with v := startSpeed d n (ratOf (d.reg (AX_FBRATIO n))), a := 0 }
      else x.cur.stopped
    let blind := decide (d.kind n = 2 ∨ d.kind n = 3) && !fb
    let d := d.setAxis n { x with cur := cur, fin := cur, plan := none, on := true, fresh := true, halting := false,
                                  ramp := false, hard := false, locked := false, settle := none, blind := blind,
                                  stepPos := posInt cur.p }
    laneStart n blind d

/-- A servo that starts at this edge on a sin/cos channel starts from the sample taken at the edge (R136, R171). -/
def startSample (c : Fin 16) (d : Dev) : Dev :=
  forAll 16 (fun k d =>
    let n : Fin 16 := Fin.ofNat 16 k
    let x := d.axis n
    if d.kind n = 1 ∧ axisCh d n = c ∧ x.on = true ∧ x.fresh = true then
      let cur : Traj := { p := posOfInt (d.ch c).pos, v := startSpeed d n 1, a := 0 }
      let d := d.setAxis n { x with cur := cur, fin := holdEnd d cur, stepPos := posInt cur.p }
      lanePhase n d
    else d) d

def execSincosSample (c : Fin 16) (sn cs : BitVec 14) (quadrants : BitVec 32) (fast : Bool) (ts : DWord) (s : State) : Out :=
  let d := sincosStep c sn cs quadrants fast ts s.dev
  .next { s with dev := if !(s.dev.ch c).taken && (d.ch c).taken then startSample c d else d }

/-- EN = 0 commits: v and a become 0 and p stays; the lane stops (R173); the group breaks (R178). -/
def axisStop (n : Fin 16) (d : Dev) : Dev :=
  let d := if axMode d n = 2 then groupBreak n d else d
  let x := d.axis n
  let d := d.setAxis n { x with cur := x.cur.stopped, fin := x.cur.stopped, plan := none, on := false, fresh := false,
                                halting := false, ramp := false, hard := false, locked := false, settle := none, blind := false }
  laneStop n (Dev.setFlag (AX_CTRL n) 0 false d)

/-- The mode of axis n changes to a legal mode at this edge: gear and cam state begins anew (R179, R182), a group breaks
(R178); a missing master refuses modes 3 and 4. -/
def axisMode (n : Fin 16) (mode : Nat) (d : Dev) : Dev :=
  if mode = axMode d n then d
  else if 5 ≤ mode then axAlert n 9 d
  else if (mode = 3 ∨ mode = 4) ∧ masterBad d n = true then axAlert n 10 d
  else
    let d := if axMode d n = 2 ∧ axEn d n then groupBreak n d else d
    let d := Dev.setFld (AX_CTRL n) 3 1 mode d
    d.setAxis n { d.axis n with locked := false, armed := decide (mode = 4), halting := false, settle := none,
                                mLast := masterEdge d n }

/-- EN commits: a start in Run, a stop, or the enable alone (R170, R173). TRIP clears when EN = 1 commits (R210). -/
def axisEn (n : Fin 16) (en : Bool) (d : Dev) : Dev :=
  if en then
    let d := Dev.setFlag (CTL_STAT n) 9 false (Dev.setFlag (AX_CTRL n) 0 true d)
    if d.mode = .run ∧ d.halted = false ∧ (d.axis n).on = false then axisStart n d else d
  else if axEn d n || (d.axis n).on then axisStop n d else laneStop n d

def execAxisEnable (n : Fin 16) (s : State) : Out := atEdge (axisEn n true) s
def execAxisDisable (n : Fin 16) (s : State) : Out := atEdge (axisEn n false) s
def execQstop (n : Fin 16) (s : State) : Out := atEdge (Dev.setFlag (AX_CTRL n) 4 true) s
def execGearMode (n : Fin 16) (s : State) : Out := atEdge (axisMode n 3) s
def execCamArm (n : Fin 16) (s : State) : Out := atEdge (axisMode n 4) s

/-- BLIND_HOLD_END: BLINDT ms after a blind start the chopper switches modes normally (R172). -/
def execBlindHoldEnd (n : Fin 16) (s : State) : Out :=
  .next { s with dev := s.dev.setAxis n { s.dev.axis n with blind := false } }

/-! ## Commits at the edge -/

/-- A committed write of an axis register, by offset from AXn_CFG; CTRL and ACT wait for `axesCommit` in the output store
at their port addresses (R185). -/
def axCtrlKey (n : Nat) : Nat := 0x0840 + 0x80 * n
def axActKey (n : Nat) : Nat := 0x0864 + 0x80 * n

def commitAxis (n : Fin 16) (ofs : Nat) (v : Word) (d : Dev) : Dev :=
  if ofs = 0x10 then d.setOut (axCtrlKey n) (setBit (v &&& 0x1F) 31 true)
  else if ofs = 0x34 then d.setOut (axActKey n) (v &&& 3)
  else if 0x1C ≤ ofs ∧ ofs ≤ 0x28 then
    if fFinite v && iLt 0 v then d.setReg (AX_CFG n + ofs) v else axAlert n 9 d
  else if ofs = 0x30 then (if v = 0 then axAlert n 9 d else d.setReg (AX_CFG n + ofs) v)
  else d.setReg (AX_CFG n + ofs) v

/-- The limit of an axis acts at this edge where motion is toward it (R183): MODE 1 and TVEL 0 commit. -/
def axisLimit (n : Fin 16) (d : Dev) : Dev :=
  let x := d.axis n
  let d := d.setAxis n { x with ramp := false, hard := false }
  let act := d.fld (AX_CFG n) 5 4
  let toward := (bit x.act 0 && decide (0 < iSign x.cur.v)) || (bit x.act 1 && decide (iSign x.cur.v < 0))
  if x.on && toward && decide (act ≠ 0) then
    let d := if axMode d n = 2 then groupBreak n d else d
    let d := (Dev.setFld (AX_CTRL n) 3 1 1 d).setReg (AX_TVEL n) 0
    let y := d.axis n
    let d := d.setAxis n (if act = 1 then { y with hard := true, cur := y.cur.stopped, locked := false, armed := false, settle := none }
      else { y with ramp := true, locked := false, armed := false, settle := none })
    axAlert n 3 (Dev.setFlag (AX_STAT n) 12 true d)
  else d

/-- The controls, stops, modes, limits, segments and groups that commit at an edge, in that order, so that a mode finds its master as
the edge leaves it (R179); starts follow once the
feedback of the edge is latched (`axesStart`). A tripped lane commits EN = 0 (R210). -/
def axesCommit (d : Dev) : Dev :=
  let ns := List.finRange 16
  let ctl := fun (d : Dev) (n : Fin 16) => d.out (axCtrlKey n)
  let pend := ns.map (fun (n : Fin 16) => ctl d n)
  let d := ns.foldl (fun (d : Dev) (n : Fin 16) =>
    let v := pend.getD n 0
    let d := d.setOut (axCtrlKey n) 0
    let d := if bit v 31 then Dev.setFlag (AX_CTRL n) 4 (bit v 4) (if bit v 0 then Dev.setFlag (AX_CTRL n) 0 true d else d)
      else d
    d) d
  let d := ns.foldl (fun (d : Dev) (n : Fin 16) =>
    let v := pend.getD n 0
    if (d.lane n).tripped || (bit v 31 && !bit v 0) then axisEn n false d
    else if bit v 31 then Dev.setFlag (CTL_STAT n) 9 false (Dev.setFlag (AX_CTRL n) 0 true d) else d) d
  let d := ns.foldl (fun (d : Dev) (n : Fin 16) => let v := pend.getD n 0; if bit v 31 then axisMode n (bits v 3 1) d else d) d
  let d := ns.foldl (fun (d : Dev) (n : Fin 16) => axisLimit n d) d
  let d := ns.foldl (fun (d : Dev) (n : Fin 16) =>
    let v := d.out (axActKey n)
    let d := d.setOut (axActKey n) 0
    let d := if bit v 0 then segPush n d else d
    if bit v 1 then segFlush n d else d) d
  (List.finRange 4).foldl (fun (d : Dev) (g : Fin 4) => groupEdge true g d) d

/-- The direction of a step generator up to an offset into the running interval: it changes at the instant at which v(t) crosses
zero (R174). -/
def dirTo (n : Fin 16) (ofs : Nat) (d : Dev) : Dev :=
  let x := d.axis n
  let q := cubicOf d x.cur x.fin.p
  let back := q.goes true d.tickLen ofs
  if back = x.back ∨ (!back && !q.goes false d.tickLen ofs) then d
  else d.setAxis n { x with back := back, dirAt := some (d.tick.edgeAt + (q.turn back d.tickLen ofs).getD 0) }

/-- The direction of a state that an axis takes at an edge. -/
def dirEdge (n : Fin 16) (d : Dev) : Dev :=
  let x := d.axis n
  let back := decide (iSign x.cur.v < 0)
  if !x.on || back = x.back || decide (iSign x.cur.v = 0) then d
  else d.setAxis n { x with back := back, dirAt := some d.tick.edgeAt }

/-- The running interval of axis n ends: its end is the state at this edge, and it reports (R169, R180). A DONE at an
abandoned edge is reported at the next one that commits (R366). -/
def axisEnd (commits : Bool) (n : Fin 16) (d : Dev) : Dev :=
  let x := d.axis n
  if !x.on then d.setAxis n { x with fresh := false }
  else
    let r := x.rep
    let d := (dirTo n d.tickLen d).setAxis n { (dirTo n d.tickLen d).axis n with
      cur := x.fin, fresh := false, rep := { TrajRep.none with done := r.done && !commits } }
    let d := if r.limited then Dev.setFlag (AX_STAT n) 8 true d else d
    let d := if r.ovr then Dev.setFlag (AX_STAT n) 9 true d else d
    let d := Dev.setFlag (AX_STAT n) 4 r.lock d
    let d := if r.done && commits then axDone n d else d
    if r.gearOvr then axAlert n 7 d else d

def axesEnd (commits : Bool) (d : Dev) : Dev :=
  (List.finRange 16).foldl (fun (d : Dev) (n : Fin 16) => axisEnd commits n d) d

/-- The interval of axis n from this edge: the planned one where the tick committed, else a hold interval (R165, R166). -/
def axisRun (commits : Bool) (n : Fin 16) (d : Dev) : Dev :=
  let x := d.axis n
  if !x.on then d.setAxis n { x with fin := x.cur, plan := none }
  else
    let cur := { x.cur with a := 0 }
    let hold : Axis := { x with cur := cur, fin := if x.hard then cur else holdEnd d cur, plan := none,
                                rep := { TrajRep.none with lock := d.flag (AX_STAT n) 4, done := x.rep.done } }
    match (if commits && !x.fresh then x.plan else none) with
    | some p =>
      d.setAxis n { x with fin := p.fin, rep := p.rep, plan := none, settle := none, locked := p.locked, lockNum := p.lockNum,
                           lockDen := p.lockDen, mLast := p.mLast, armed := p.armed, camOfs := p.camOfs,
                           halting := p.halting }
    | none => d.setAxis n hold

/-- AXn_STAT bits EN, MOVING, INPOS and GRUN at an edge. -/
def axisStatus (n : Fin 16) (d : Dev) : Dev :=
  let x := d.axis n
  let moving := !x.cur.atRest
  let inpos := decide (axMode d n = 0) && decide (x.cur.p = posOfInt (d.reg (AX_TPOS n))) && !moving
  Dev.setFlag (AX_STAT n) 0 (axEn d n) (Dev.setFlag (AX_STAT n) 1 moving (Dev.setFlag (AX_STAT n) 2 inpos
    (Dev.setFlag (AX_STAT n) 3 (segOf d n).isSome d)))

def axesRun (commits : Bool) (d : Dev) : Dev :=
  (List.finRange 16).foldl (fun (d : Dev) (n : Fin 16) =>
    axisStatus n (dirEdge n (gearEdge n (axisRun commits n d)))) d

/-- At an edge in Run, every axis with EN = 1 committed that does not run starts (R170). -/
def axesStart (d : Dev) : Dev :=
  (List.finRange 16).foldl (fun (d : Dev) (n : Fin 16) => if axEn d n && !(d.axis n).on then axisStart n d else d) d

/-- The device leaves Run: the planner stops, the state stays, the lanes' outputs go inactive (R120, R166); a running
segment is dropped (assumption 37). -/
def axesLeaveRun (d : Dev) : Dev :=
  let d := (List.finRange 16).foldl (fun (d : Dev) (n : Fin 16) =>
    let x := d.axis n
    let d := d.setAxis n { x with fin := x.cur, plan := none, on := false, fresh := false, halting := false,
                                  locked := false, ramp := false, hard := false, settle := none }
    d.setLane n { d.lane n with drive := false, next := none, wait := none }) d
  (List.finRange 4).foldl (fun (d : Dev) (g : Fin 4) => d.setGroup g { d.group g with running := none }) d

/-- Capture of the axis inputs: the latched limits (R183). -/
def axisCapture (n : Fin 16) (d : Dev) : Dev :=
  let x := d.axis n
  let cfg := d.reg (AX_CFG n)
  let pol := bit cfg 3
  let act := b2n (x.limP != pol) + 2 * b2n (x.limN != pol) + 4 * b2n (x.home != bit cfg 2)
  d.setAxis n { x with act := BitVec.ofNat 3 act }

/-- Before Capture: the SPD of a feedback master as latched at the Capture before (R180). -/
def masterSpeed (n : Fin 16) (d : Dev) : Dev :=
  let src := d.reg (AX_GSRC n)
  if bit src 4 then d.setAxis n { d.axis n with mVel := (d.ch (Fin.ofNat 16 (bits src 3 0))).lspd } else d

/-- LIMIT_INPUT: the filtered levels of LIMn_P, LIMn_N and HOMEn; they act through the next Capture (R183), and
are ignored before READY (R124, R126). -/
def execLimitInput (n : Fin 16) (limP limN home : Bool) (s : State) : Out :=
  onReady (fun d => d.setAxis n { d.axis n with limP := limP, limN := limN, home := home }) s

/-- AXn_STEP in tick units: a pulse of STPHI cycles and the DIRn set-up of DIRSU cycles of 2.667 ns (R174). -/
def stepHigh (d : Dev) (n : Nat) : Nat := 8 * max 1 (d.fld (AX_STEP n) 7 0)
def stepSetup (d : Dev) (n : Nat) : Nat := 8 * d.fld (AX_STEP n) 23 8

/-- The instant at which a step that falls due at an instant starts, and whether it comes too soon after the one before it: pulses
start at least 2 STPHI cycles apart, and not before DIRSU cycles after the change of DIRn (R174). -/
def stepStart (d : Dev) (n : Fin 16) (due : Nat) : Nat × Bool :=
  let x := d.axis n
  let free := match x.stepAt with
    | some t => t + 2 * stepHigh d n
    | none => 0
  let set := match x.dirAt with
    | some t => t + stepSetup d n
    | none => 0
  (max due (max free set), decide (due < free))

/-- STEP_PULSE: the integer part of the commanded position has changed `ofs` tick units after the most recent edge: the step
generator goes one step nearer to it and feeds the print ports (R217); on a kind 3 axis STPn pulses, and a step that falls due too
early is delayed (R174). -/
def stepPulse (n : Fin 16) (ofs : Nat) (d : Dev) : Dev :=
  let ofs := min ofs d.tickLen
  let p := (trajU d (d.axis n) (mkRat ofs d.tickLen)).p
  let diff := (posInt p - (d.axis n).stepPos).toInt
  if !((d.axis n).on && decide (d.mode = .run) && !d.halted) || decide (diff = 0) then d
  else
    let back := decide (diff < 0)
    let d := dirTo n ofs (d.reachTick ofs)
    let x := d.axis n
    let stp := decide (d.kind n = 3)
    let (t, late) := stepStart d n (d.tick.edgeAt + ofs)
    let d := d.setAxis n { x with pulses := if stp then x.pulses + 1 else x.pulses, stepAt := if stp then some t else x.stepAt,
                                  stepPos := if back then x.stepPos - 1 else x.stepPos + 1 }
    let d := feedStep 1 n (!back) d
    if late && stp then axAlert n 8 (Dev.setFlag (AX_STAT n) 11 true d) else d

def execStepPulse (n : Fin 16) (ofs : Nat) (s : State) : Out := .next { s with dev := stepPulse n ofs s.dev }

/-- GENx is high (R164). -/
def genHigh (d : Dev) (x : Nat) : Bool :=
  let ns := (List.finRange 16).filter (fun (n : Fin 16) => d.flag (AX_CFG n) 23 && decide (d.fld (AX_CFG n) 26 24 = x))
  decide (d.mode = .run) && !d.halted && !ns.isEmpty && ns.all (fun n => axEn d n)

/-! ## Input ports and read-only registers (R185) -/

/-- Free queue slots of the group that axis n leads. -/
def queueFree (d : Dev) (n : Fin 16) : Nat :=
  match ledBy d n with
  | some g => 32 - (d.group g).queue.length
  | none => 0

/-- Ticks left in the running segment of the group that axis n leads. -/
def ticksLeft (d : Dev) (n : Fin 16) : Nat :=
  match ledBy d n with
  | none => 0
  | some g =>
    match (d.group g).running with
    | some (s, c0, _) => s.dur - (d.tick.count - c0).toNat
    | none => 0

def axPort (d : Dev) (n : Fin 16) (ofs : Nat) : Word :=
  let x := d.axis n
  match ofs with
  | 0x00 => posInt x.cur.p
  | 0x04 => word (x.cur.p.toNat % 65536)
  | 0x08 => x.cur.v
  | 0x0C => x.cur.a
  | 0x10 => d.reg (AX_STAT n)
  | 0x14 => word (queueFree d n)
  | 0x18 => x.act.setWidth 32
  | 0x1C => word (x.alerts.toNat + 256 * d.fld (AX_STAT n) 31 24)
  | 0x20 => word (ticksLeft d n)
  | _ => 0

end Sys2Proof.Machine
end

