-- ==== Sys2Proof/Machine/Dram.lean ====
section
/-! DEFINITION. DRAM: the usable capacity (R16), and areas whose bytes the manual leaves open because a camera or an
engine wrote them (assumption 22). -/
namespace Sys2Proof.Machine

/-- Usable bytes: seven-eighths of the fitted capacity (R16), which SYS_CAPS.DRAMSZ gives. -/
def dramSize (d : Dev) : Nat := if d.dramSz = 0 ∨ 4 < d.dramSz then 0 else 2 ^ (29 + d.dramSz) / 8 * 7

/-- Address a lies in a row of the area. -/
def FreeArea.hit (r : FreeArea) (a : Nat) : Bool :=
  decide (r.base ≤ a) && decide ((a - r.base) / r.pitch < r.rows) && decide ((a - r.base) % r.pitch < r.len)

/-- What an unlisted byte of DRAM reads as. -/
def dramDefault : List FreeArea → Nat → Byte
  | [], _ => 0
  | r :: t, a =>
    if r.hit a then
      (if (a - r.base) % r.pitch % 2 = 1 then Config.freeByte r.ctr a &&& r.hi else Config.freeByte r.ctr a)
    else dramDefault t a

/-- One byte; above the usable capacity 0. -/
def Dev.dramByte (d : Dev) (a : Nat) : Byte := if a < dramSize d then smGet (dramDefault d.areas) d.dram a else 0

def Dev.setDramByte (d : Dev) (a : Nat) (v : Byte) : Dev :=
  if a < dramSize d then { d with dram := smSet (dramDefault d.areas) d.dram a v } else d

/-- The n bytes from a. -/
def Dev.dramBytes (d : Dev) (a : Nat) : Nat → List Byte
  | 0 => []
  | n + 1 => d.dramByte a :: Dev.dramBytes d (a + 1) n

/-- Write bytes from a. -/
def setDramBytes (a : Nat) : List Byte → Dev → Dev
  | [], d => d
  | b :: bs, d => setDramBytes (a + 1) bs (d.setDramByte a b)

/-- The device fills rows with bytes that the manual leaves open; the rows of the same place that it replaces go. -/
def openArea (r : FreeArea) (d : Dev) : Dev :=
  let under := fun (x : FreeArea) =>
    decide (x.base = r.base) && decide (x.pitch = r.pitch) && decide (x.len ≤ r.len) && decide (x.rows ≤ r.rows)
  { d with dram := d.dram.filter (fun e => !r.hit e.1), areas := r :: d.areas.filter (fun x => !under x) }

/-- The canonical form of DRAM. -/
def dramWf (d : Dev) : Bool := smWf (dramDefault d.areas) d.dram

end Sys2Proof.Machine
end

