-- ==== Sys2Proof/Machine/Vision.lean ====
section
/-! DEFINITION. Camera receivers, Trellis and the hand-off ring (11_vision.md). What an engine computes from the pixels is
open: its records and images hold free values where the manual fixes no value (assumption 22). -/
namespace Sys2Proof.Machine

def Dev.rx (d : Dev) (p : Fin 2) : Rx := d.vis.rx[p]
def Dev.setRx (d : Dev) (p : Fin 2) (x : Rx) : Dev := { d with vis := { d.vis with rx := d.vis.rx.set p x } }
def Dev.vg (d : Dev) (g : Fin 4) : VGraph := d.vis.gr[g]
def Dev.setVg (d : Dev) (g : Fin 4) (x : VGraph) : Dev := { d with vis := { d.vis with gr := d.vis.gr.set g x } }

/-! ## The frame graph's section (type 7) -/

/-- An n-byte field of the section. -/
def Graph.rd (g : Graph) (o n : Nat) : Nat := leNat ((g.body.drop o).take n)
def Graph.nodes (g : Graph) : Nat := g.rd 0x04 1
def Graph.srcPort (g : Graph) : Nat := g.rd 0x05 1 % 2
def Graph.stereo (g : Graph) : Bool := decide (g.rd 0x05 1 / 2 % 2 = 1)
def Graph.width (g : Graph) : Nat := g.rd 0x08 2
def Graph.height (g : Graph) : Nat := g.rd 0x0A 2
def Graph.dt (g : Graph) : Nat := g.rd 0x0C 1
def Graph.refMax (g : Graph) : Nat := g.rd 0x0E 2
def Graph.bankAddr (g : Graph) (b : Nat) : Nat := g.rd 0x10 4 + b * g.rd 0x14 4
def Graph.scratch (g : Graph) : Nat := g.rd 0x18 8
def Graph.frto (g : Graph) : Nat := g.rd 0x28 2

/-- An n-byte field of a node record. -/
def Graph.nd (g : Graph) (k o n : Nat) : Nat := g.rd (64 + 32 * k + o) n
def Graph.engine (g : Graph) (k : Nat) : Nat := g.nd k 0 1
def Graph.refine (g : Graph) (k : Nat) : Bool := decide (g.nd k 1 1 % 2 = 1)
def Graph.toDram (g : Graph) (k : Nat) : Bool := decide (g.nd k 1 1 / 2 % 2 = 1)
def Graph.in0 (g : Graph) (k : Nat) : Nat := g.nd k 2 1
def Graph.in1 (g : Graph) (k : Nat) : Nat := g.nd k 3 1
def Graph.level (g : Graph) (k : Nat) : Nat := g.nd k 4 1
def Graph.outOfs (g : Graph) (k : Nat) : Nat := g.nd k 8 4
def Graph.outMax (g : Graph) (k : Nat) : Nat := g.nd k 12 4
def Graph.par (g : Graph) (k o n : Nat) : Nat := g.nd k (16 + o) n

/-- Tiles across, and tiles in all. -/
def Graph.cols (g : Graph) : Nat := (g.width + 127) / 128
def Graph.tiles (g : Graph) : Nat := g.cols * ((g.height + 127) / 128)

/-- Bytes of a pixel. -/
def pixBytes (dt : Nat) : Nat := if dt = 0x2A then 1 else 2

/-- Pixels of a full tile at a level; blocks of 8 × 8 of it. -/
def tilePx (l : Nat) : Nat := (128 / 2 ^ l) * (128 / 2 ^ l)
def tileBlocks (l : Nat) : Nat := (128 / 2 ^ l / 8) * (128 / 2 ^ l / 8)

def ceilDiv (a b : Nat) : Nat := (a + b - 1) / b

/-- The declared cost of a tile item of node k at a level (R228). -/
def Graph.cost (g : Graph) (k l : Nat) : Nat :=
  64 + match g.engine k with
    | 0 => ceilDiv (sumList ((List.range (g.par k 0 1)).map tilePx)) 4
    | 1 => ceilDiv (tilePx l) 2
    | 2 => ceilDiv (tilePx l) 4
    | 3 => 96 * tileBlocks l
    | 4 => ceilDiv (tilePx l * (64 * 2 ^ g.par k 0 1)) 128
    | 5 => ceilDiv (tilePx l) 8
    | 6 => ceilDiv (tilePx l) 4
    | _ => ceilDiv (tilePx l) 8

/-- The declared cost of the final item of node k; 0 where it has none. -/
def Graph.finalCost (g : Graph) (k : Nat) : Nat :=
  match g.engine k with
  | 5 => 8256
  | 6 => 8256
  | 7 => 320
  | _ => 0

def Graph.costs (g : Graph) (k : Nat) : List Nat :=
  [g.cost k (g.level k), g.finalCost k, if g.refine k then g.cost k 0 else 0]

/-- The largest item cost of a graph. -/
def Graph.maxCost (g : Graph) : Nat := maxList ((List.range g.nodes).flatMap g.costs)

/-- Coarse items of node k, and of all nodes below k. -/
def Graph.items (g : Graph) (k : Nat) : Nat := g.tiles + (if g.finalCost k = 0 then 0 else 1)
def Graph.before (g : Graph) (k : Nat) : Nat := sumList ((List.range k).map g.items)

/-- The coarse list: node and item, where item `tiles` is the final one (R234). -/
def Graph.coarse (g : Graph) : List (Nat × Nat) :=
  (List.range g.nodes).flatMap (fun k => (List.range (g.items k)).map (fun t => (k, t)))

/-- The node indices that node k reads. -/
def Graph.inputs (g : Graph) (k : Nat) : List Nat := [g.in0 k, g.in1 k].filter (fun i => decide (i < 64))

/-! ## What the loader checks (R229) -/

/-- The most bytes that node k can write. -/
def Graph.outNeed (g : Graph) (k : Nat) : Nat :=
  let b := pixBytes g.dt
  match g.engine k with
  | 0 => sumList ((List.range (g.par k 0 1)).map (fun i =>
      ceilDiv g.width (2 ^ (i + 1)) * ceilDiv g.height (2 ^ (i + 1)) * b))
  | 1 => g.width * g.height * b
  | 2 => 4 + 8 * g.par k 0 1 * g.tiles
  | 3 => 4 + 8 * g.tiles
  | 4 => 4 + 8 * g.tiles
  | 5 => 4 + 16 * 256
  | 6 => 4 + 16 * g.par k 2 1
  | _ => 4 + 16 * g.tiles + 1024

/-- The PARAM bytes of node k are in range and its unused ones 0. -/
def Graph.paramOk (g : Graph) (k : Nat) : Bool :=
  let p := g.par k
  match g.engine k with
  | 0 => decide (1 ≤ p 0 1) && decide (p 0 1 ≤ 4) && decide (p 1 15 = 0)
  | 1 => decide (p 0 4 < 0x400000) && decide (p 4 12 = 0)
  | 2 => decide (1 ≤ p 0 1) && decide (p 0 1 ≤ 64) && decide (p 1 1 = 0) && decide (p 4 12 = 0)
  | 3 => decide (1 ≤ p 4 1) && decide (p 4 1 ≤ 7) && decide (p 5 11 = 0)
  | 4 => decide (p 0 1 ≤ 2) && decide (p 1 3 = 0) && decide (p 8 8 = 0)
  | 5 => decide (p 2 1 ≤ 1) && decide (p 3 1 = 0) && decide (p 8 8 = 0)
  | 6 => decide (1 ≤ p 2 1) && decide (p 2 1 ≤ 32) && decide (p 3 13 = 0)
  | _ => decide (p 2 14 = 0)

/-- The kind of an input: 8 a source, otherwise the engine of the node; none where the index is not below k. -/
def Graph.inKind (g : Graph) (k i : Nat) : Option Nat :=
  if i = 0xFF then some 8
  else if i = 0xFE then (if g.stereo then some 8 else none)
  else if i < k then some (g.engine i)
  else none

/-- An input of node k matches its LEVEL: a level of a Pyramid, else level 0. -/
def Graph.levelOk (g : Graph) (k i : Nat) : Bool :=
  if g.inKind k i = some 0 then decide (1 ≤ g.level k) && decide (g.level k ≤ g.par i 0 1) else decide (g.level k = 0)

/-- The source that an input of node k comes from in the end: 0xFF left, 0xFE right. -/
def Graph.side (g : Graph) : Nat → Nat → Nat
  | 0, i => i
  | n + 1, i => if i < 64 then Graph.side g n (g.in0 i) else i

/-- The input kinds of the table of engines. -/
def Graph.inOk (g : Graph) (k : Nat) : Bool :=
  let a := g.inKind k (g.in0 k)
  let alone := decide (g.in1 k = 0xFD)
  match g.engine k with
  | 0 => alone && (decide (a = some 8) || decide (a = some 1)) && decide (g.level k = 0)
  | 1 => alone && decide (a = some 8) && decide (g.level k = 0)
  | 2 => alone && (decide (a = some 8) || decide (a = some 0)) && g.levelOk k (g.in0 k)
  | 3 => alone && decide (a = some 0) && g.levelOk k (g.in0 k)
  | 4 => g.stereo && decide (a = some 0) && decide (g.inKind k (g.in1 k) = some 0) && g.levelOk k (g.in0 k) &&
      g.levelOk k (g.in1 k) && decide (g.side k (g.in0 k) = 0xFF) && decide (g.side k (g.in1 k) = 0xFE)
  | _ => alone && (decide (a = some 8) || decide (a = some 0) || decide (a = some 1)) && g.levelOk k (g.in0 k)

def Graph.nodeOk (g : Graph) (k : Nat) : Bool :=
  let e := g.engine k
  decide (e ≤ 7) && decide (g.nd k 1 1 < 4) && decide (g.nd k 5 3 = 0) &&
  (!g.refine k || (decide (2 ≤ e) && decide (e ≤ 4))) && (g.toDram k || decide (2 ≤ e)) &&
  g.paramOk k && g.inOk k && decide (g.outNeed k ≤ g.outMax k) &&
  decide (g.outOfs k + g.outMax k ≤ if g.toDram k then g.rd 0x20 4 else g.rd 0x14 4)

/-- Bytes of the full field of a Flow node for one tile, and of the full map of a Disparity node: 2 bytes for each pixel at its
LEVEL (assumption 22). -/
def Graph.fieldBytes (g : Graph) (k : Nat) : Nat := 4 * tileBlocks (g.level k)
def Graph.mapBytes (g : Graph) (k : Nat) : Nat := 2 * tilePx (g.level k)

/-- The output areas: the space (true: scratch), the offset and the length; full fields and maps count as well. -/
def Graph.areas (g : Graph) (k : Nat) : List (Bool × Nat × Nat) :=
  (g.toDram k, g.outOfs k, g.outMax k) ::
    (if g.engine k = 3 ∧ g.par k 0 4 ≠ 0 then [(true, g.par k 0 4, g.tiles * g.fieldBytes k)]
     else if g.engine k = 4 ∧ g.par k 4 4 ≠ 0 then [(true, g.par k 4 4, g.tiles * g.mapBytes k)] else [])

/-- No two areas share a byte, and the scratch ones end within DRAMSIZE. -/
def disjointAreas : List (Bool × Nat × Nat) → Bool
  | [] => true
  | (s, o, n) :: t =>
    t.all (fun x => decide (x.1 ≠ s) || decide (o + n ≤ x.2.1) || decide (x.2.1 + x.2.2 ≤ o)) && disjointAreas t

/-- The vision block accepts a type 7 section (R229). -/
def Graph.ok (g : Graph) : Bool :=
  let n := g.nodes
  let as_ := (List.range n).flatMap g.areas
  decide (g.body.length = 64 + 32 * n) && decide (g.no < 4) && decide (g.rd 0 4 = 0x54524C47) &&
  decide (1 ≤ n) && decide (n ≤ 64) && decide (g.rd 0x05 1 ≤ 2) &&
  decide (16 ≤ g.width) && decide (g.width ≤ 4096) && decide (g.width % 16 = 0) &&
  decide (8 ≤ g.height) && decide (g.height ≤ 3072) && decide (0x2A ≤ g.dt) && decide (g.dt ≤ 0x2C) &&
  decide (g.rd 0x10 4 % 64 = 0) && decide (g.rd 0x14 4 % 64 = 0) && decide (g.scratch % 4096 = 0) &&
  decide (g.rd 0x2A 1 ≤ 1) && decide (g.rd 0x2B 21 = 0) && (List.range n).all g.nodeOk &&
  disjointAreas as_ && as_.all (fun x => !x.1 || decide (x.2.1 + x.2.2 ≤ g.rd 0x20 4)) &&
  decide (g.bankAddr 2 ≤ 0x400000) && decide (g.maxCost ≤ g.rd 0x24 4)

/-! ## Budget, ports and status -/

/-- VB (R233). -/
def visBudget (p : Nat) : Nat := (p - 10500) / 4

/-- The frame graph of a number in the image in force. -/
def graphOf (d : Dev) (n : Nat) : Option Graph :=
  match d.loader.image with
  | none => none
  | some i => i.graphs.find? (fun g => decide (g.no = n))

/-- The port of graph g at an offset of its window (R241). -/
def visPortAddr (g ofs : Nat) : Nat := 0x2200 + 0x80 * g + ofs

/-- CONFMIN in force: the port's value when bit 8 selects it, else the header's. -/
def confMin (d : Dev) (n : Nat) (g : Graph) : Nat :=
  let w := d.out (visPortAddr n 0x48)
  if bit w 8 then bits w 7 0 else g.rd 0x0D 1

/-- GERR of a graph, and event 157. -/
def visGerr (g : Fin 4) (d : Dev) : Dev := raise 157 (Dev.setFlag (VIS_G_STAT g) 8 true d)

/-- VIS_Gg_STAT bits RUN, BUSY, REFINING and FIRST. -/
def visStatus (g : Fin 4) (d : Dev) : Dev :=
  let x := d.vg g
  let w := match x.active, graphOf d g with
    | some a, some gr => 2 + 4 * b2n (decide (gr.coarse.length ≤ a.pos)) + 8 * b2n a.first
    | _, _ => 0
  Dev.setFld (VIS_G_STAT g) 3 0 (b2n x.run + w) d

/-- A graph is mid-frame (R130). -/
def visBusy (d : Dev) : Bool := d.vis.gr.toList.any (fun x => x.active.isSome)

/-- A skipped frame (R231). -/
def visSkip (g : Fin 4) (d : Dev) : Dev :=
  raise (148 + g) (Dev.setFlag (VIS_G_STAT g) 5 true (Dev.count1 (VIS_G_SKIPS g) d))

/-! ## Graph start and stop (R230) -/

/-- A port's configuration is the one the graph declares. -/
def portMatches (d : Dev) (g : Graph) (p : Nat) : Bool :=
  d.flag (VIS_CSI_CFG p) 0 && decide (d.fld (VIS_CSI_SIZE p) 12 0 = g.width) &&
    decide (d.fld (VIS_CSI_SIZE p) 28 16 = g.height) && decide (d.fld (VIS_CSI_CFG p) 13 8 = g.dt)

/-- The ports that feed a graph. -/
def Graph.ports (g : Graph) : List Nat := if g.stereo then [0, 1] else [g.srcPort]

/-- RUN = 1 commits: the graph starts, or the start is refused. A graph that the image does not hold is refused too
(assumption 42). -/
def visStart (g : Fin 4) (d : Dev) : Dev :=
  let x := d.vg g
  let port := visPortAddr g 0x40
  if x.run then d
  else
    match graphOf d g with
    | none => visGerr g (d.setOut port 0)
    | some gr =>
      if gr.ports.all (portMatches d gr) && decide (gr.maxCost ≤ visBudget d.period) then
        visStatus g ((d.setOut port 1).setVg g { VGraph.reset with
          run := true, shown := x.shown, pTs := x.pTs, pBank := x.pBank, pCounts := x.pCounts, lastSeq := x.lastSeq })
      else visGerr g (d.setOut port 0)

/-- RUN = 0 commits: no result for an unfinished frame, and the graph's buffers are released. -/
def visStop (g : Fin 4) (d : Dev) : Dev :=
  let x := d.vg g
  let y := { x with run := false, slot := none, waitL := none, waitR := none, active := none }
  visStatus g ((d.setOut (visPortAddr g 0x40) 0).setVg g y)

def execGraphRun (g : Fin 4) (s : State) : Out := atEdge (visStart g) s
def execGraphStop (g : Fin 4) (s : State) : Out := atEdge (visStop g) s

/-- A committed write of the control port. -/
def visRunPort (g : Fin 4) (v : Word) (d : Dev) : Dev :=
  if bit v 0 then visStart g d else if (d.vg g).run then visStop g d else d.setOut (visPortAddr g 0x40) 0

/-- A committed write of the QCYC port: 0 selects the header's value; a value below the largest item cost is ignored with
GERR (R241). -/
def visQcyc (g : Fin 4) (v : Word) (d : Dev) : Dev :=
  let d' := d.setOut (visPortAddr g 0x44) v
  match graphOf d g with
  | none => if v = 0 then d'.setReg (VIS_G_QCYC g) 0 else d'.setReg (VIS_G_QCYC g) v
  | some gr =>
    if v = 0 then d'.setReg (VIS_G_QCYC g) (word (gr.rd 0x24 4))
    else if v.toNat < gr.maxCost then visGerr g d
    else d'.setReg (VIS_G_QCYC g) v

def execQcycWrite (g : Fin 4) (v : Word) (s : State) : Out := atEdge (visQcyc g v) s

/-- A committed write of the CONFMIN port. -/
def visConfmin (g : Fin 4) (v : Word) (d : Dev) : Dev := d.setOut (visPortAddr g 0x48) (v &&& 0x1FF)

def execConfminWrite (g : Fin 4) (v : Word) (s : State) : Out := atEdge (visConfmin g v) s

/-- A change of period stops a running graph whose largest item cost the new budget cannot hold (R233). -/
def visBudgetStop (d : Dev) : Dev :=
  let d := d.setReg VIS_BUDGET (word (visBudget d.period))
  forAll 4 (fun k d =>
    let g : Fin 4 := Fin.ofNat 4 k
    match graphOf d k with
    | some gr => if (d.vg g).run && decide (visBudget d.period < gr.maxCost) then visGerr g (visStop g d) else d
    | none => d) d

/-- A new image: every graph stops, the new ones are stopped and show their header's QCYC (11_vision.md, *Corners*). -/
def visImage (d : Dev) : Dev :=
  forAll 4 (fun k d =>
    let g : Fin 4 := Fin.ofNat 4 k
    let d := visStop g d
    let d := (d.setOut (visPortAddr k 0x44) 0).setOut (visPortAddr k 0x48) 0
    let d := d.setVg g { VGraph.reset with shown := none }
    d.setReg (VIS_G_QCYC k) (match graphOf d k with
      | some gr => word (gr.rd 0x24 4)
      | none => 0)) d

/-- A wake: the first frame after it is FIRST (R237). -/
def visWake (d : Dev) : Dev :=
  { d with vis := { d.vis with gr := d.vis.gr.map (fun x => { x with fresh := true }) } }

/-! ## Camera receivers (R224 to R227) -/

/-- Bytes of a frame buffer, and the address of buffer b of a port. -/
def bufBytes (d : Dev) (p : Nat) : Nat :=
  (d.fld (VIS_CSI_SIZE p) 12 0 * pixBytes (d.fld (VIS_CSI_CFG p) 13 8) + 63) / 64 * 64 * d.fld (VIS_CSI_SIZE p) 28 16
def bufAddr (d : Dev) (p b : Nat) : Nat :=
  (d.reg (VIS_CSI_FBLO p)).toNat + 2 ^ 32 * d.fld (VIS_CSI_FBHI p) 0 0 + b * bufBytes d p

/-- The frames a graph holds: in progress, in its slot, waiting for a partner, and of results not yet handed off. -/
def VGraph.frames (x : VGraph) : List Frame :=
  let pair := fun (o : Option FramePair) => match o with
    | some f => f.left :: f.right.toList
    | none => []
  pair (x.active.map (·.pair)) ++ pair x.slot ++ x.waitL.toList ++ x.waitR.toList ++ x.closing.filterMap (·.frame)

/-- The buffers of a port that are held (R226). -/
def heldBufs (d : Dev) (p : Fin 2) : List Nat :=
  let x := d.rx p
  let own := fun (l : List Frame) => (l.filter (fun f => decide (f.port = p.val))).map (·.buf)
  (x.recv.map (·.2)).toList ++ x.ended.map (·.2) ++ own x.ready ++ own (d.vis.gr.toList.flatMap VGraph.frames) ++
    own (d.vis.todo.map (·.frame)) ++ (d.vis.held.filter (fun e => decide (e.port = p.val))).map (·.buf)

/-- The receiver's BUSY bit. -/
def rxBusy (p : Fin 2) (d : Dev) : Dev := Dev.setFlag (VIS_CSI_STAT p) 6 (d.rx p).recv.isSome d

/-- A damaged or dropped frame: DROPS, a cause bit of STAT and event 152 + p. -/
def rxDrop (p : Fin 2) (causes : List Nat) (d : Dev) : Dev :=
  let d := causes.foldl (fun d i => Dev.setFlag (VIS_CSI_STAT p) i true d) (Dev.count1 (VIS_CSI_DROPS p) d)
  raise (152 + p) d

/-- The upper byte of a pixel of 2 bytes holds no more than the pixel's bits: it is right-aligned (R226). -/
def pixHi (dt : Nat) : Byte := if dt = 0x2B then 0x03 else if dt = 0x2C then 0x0F else 0xFF

/-- The port takes the packets of a virtual channel: it is enabled, and the channel is its own (R224). -/
def csiTakes (d : Dev) (p : Fin 2) (vc : Fin 4) : Bool :=
  d.flag (VIS_CSI_CFG p) 0 && !d.pw.stopped && decide (d.fld (VIS_CSI_CFG p) 4 3 = vc.val)

/-- The pixels of a frame in buffer b are the camera's: open (assumption 22). -/
def csiPixels (d : Dev) (p : Fin 2) (b : Nat) : FreeArea :=
  let dt := d.fld (VIS_CSI_CFG p) 13 8
  let row := d.fld (VIS_CSI_SIZE p) 12 0 * pixBytes dt
  ⟨bufAddr d p b, row, (row + 63) / 64 * 64, d.fld (VIS_CSI_SIZE p) 28 16, pixHi dt, d.freeCtr⟩

/-- FRAME_START: the lowest-numbered buffer that is not held takes the frame; without one it is dropped (R226). A Frame
Start inside a frame ends that frame as damaged by its line count (assumption 42). -/
def frameStart (p : Fin 2) (vc : Fin 4) (ts : DWord) (d : Dev) : Dev :=
  if !csiTakes d p vc then d
  else
    let x := d.rx p
    let d := if x.recv.isSome then rxDrop p [3] (d.setRx p { x with recv := none }) else d
    let held := heldBufs d p
    match (List.range (d.fld (VIS_CSI_CFG p) 19 16)).find? (fun b => !held.contains b) with
    | none => rxBusy p (rxDrop p [4] d)
    | some b =>
      let d := (openArea (csiPixels d p b) d).tickFree
      rxBusy p (d.setRx p { d.rx p with recv := some (ts, b) })

def execFrameStart (p : Fin 2) (f : Sys2Proof.CsiStart) (s : State) : Out :=
  onReady (fun d => frameStart p f.vc f.ts (d.reachTs f.ts)) s

/-- The damage of a frame, as bits of STAT, from the packets since its Frame Start; those of another virtual channel or data type
(line-start and line-end packets among them) are ignored (R224, R225). -/
def csiDamage (d : Dev) (p : Fin 2) (packets : List CsiPacket) : List Nat :=
  let lines := packets.filter (fun k => !k.ecc && decide (d.fld (VIS_CSI_CFG p) 4 3 = k.vc.val) &&
    decide (d.fld (VIS_CSI_CFG p) 13 8 = k.dt.toNat))
  let size := lines.any (fun k => decide (k.width ≠ d.fld (VIS_CSI_SIZE p) 12 0)) ||
    decide (lines.length ≠ d.fld (VIS_CSI_SIZE p) 28 16)
  (if packets.any (·.ecc) then [1] else []) ++ (if lines.any (·.crc) then [2] else []) ++ (if size then [3] else [])

/-- FRAME_END: a damaged frame frees its buffer and is never made ready (R225). -/
def frameEnd (p : Fin 2) (vc : Fin 4) (packets : List CsiPacket) (d : Dev) : Dev :=
  let x := d.rx p
  match x.recv with
  | none => d
  | some f =>
    if !csiTakes d p vc then d
    else
      let causes := csiDamage d p packets
      let d := d.setRx p { x with recv := none }
      rxBusy p (if causes.isEmpty then d.setRx p { d.rx p with ended := x.ended ++ [f] } else rxDrop p causes d)

def execFrameEnd (p : Fin 2) (f : Sys2Proof.CsiEnd) (s : State) : Out := onReady (frameEnd p f.vc f.packets) s

/-- FRAME_READY: the DRAM controller accepted the last line of the oldest ended frame (R227). -/
def frameReady (p : Fin 2) (d : Dev) : Dev :=
  let x := d.rx p
  match x.ended with
  | [] => d
  | (ts, b) :: t =>
    let d := Dev.count1 (VIS_CSI_FRAMES p) d
    d.setRx p { x with ended := t, ready := x.ready ++ [⟨p, d.reg (VIS_CSI_FRAMES p), ts, b⟩] }

def execFrameReady (p : Fin 2) (s : State) : Out := onReady (frameReady p) s

/-- S3 or S4: the camera ports are disabled, and a frame in progress is lost. -/
def visSleep (d : Dev) : Dev :=
  forAll 2 (fun k d =>
    let p : Fin 2 := Fin.ofNat 2 k
    rxBusy p (d.setRx p { d.rx p with recv := none })) d

/-- Committed writes of the receiver configuration: values outside the listed ones are ignored with CFGERR. -/
def commitCsiCfg (p : Fin 2) (v : Word) (d : Dev) : Dev :=
  let bad := bits v 19 16 < 3 ∨ 8 < bits v 19 16 ∨ bits v 13 8 < 0x2A ∨ 0x2C < bits v 13 8 ∨ bits v 2 1 = 3
  if bad then raise 158 (Dev.setFlag (VIS_CSI_STAT p) 5 true d)
  else
    let d := d.setReg (VIS_CSI_CFG p) (v &&& 0xF3F1F)
    if bit v 0 then d else rxBusy p (d.setRx p { d.rx p with recv := none })

/-- A committed frame size; a size outside R224 becomes a free legal one (assumption 23). -/
def commitCsiSize (p : Fin 2) (v : Word) (d : Dev) : Dev :=
  let w := bits v 12 0
  let w := if w % 16 = 0 then 16 * legalOr d 1 256 (w / 16) else 16 * legalOr d 1 256 0
  let h := legalOr d 8 3072 (bits v 28 16)
  d.tickFree.setReg (VIS_CSI_SIZE p) (word (w + 65536 * h))

/-- A committed hand-off configuration: HOFFLEN a power of two from 4 to 256, HOFFHOLD from 1 (assumption 23). -/
def commitHoffCfg (v : Word) (d : Dev) : Dev :=
  let n := bits v 8 0
  let len := if [4, 8, 16, 32, 64, 128, 256].contains n then n else 2 ^ (legalOr d 2 8 0)
  d.tickFree.setReg VIS_HOFFCFG (word (len + 65536 * legalOr d 1 65535 (bits v 31 16)))

/-! ## Frame acceptance (R231, R237) -/

/-- The free values that the items of a frame take: two for each item of its lists. -/
def Graph.frees (g : Graph) : Nat := 2 * (g.coarse.length + g.nodes * g.tiles)

/-- A frame or pair enters the slot; the frame already there is skipped. -/
def visSlot (g : Fin 4) (gr : Graph) (l : Frame) (r : Option Frame) (d : Dev) : Dev :=
  let x := d.vg g
  let d := { d.setVg g { x with slot := some ⟨l, r, d.freeCtr⟩ } with freeCtr := d.freeCtr + gr.frees }
  if x.slot.isSome then visSkip g d else d

/-- Two timestamps differ by at most `us` microseconds. -/
def tsNear (a b : DWord) (us : Nat) : Bool :=
  decide ((a.toNat - b.toNat) + (b.toNat - a.toNat) ≤ 1500 * us)

/-- A STEREO graph pairs the most recent ready frame of each port; one that a newer frame of its port replaces is
skipped. -/
def visPair (g : Fin 4) (gr : Graph) (f : Frame) (d : Dev) : Dev :=
  let x := d.vg g
  let old := if f.port = 0 then x.waitL else x.waitR
  let d := if old.isSome then visSkip g d else d
  let x := d.vg g
  let x := if f.port = 0 then { x with waitL := some f } else { x with waitR := some f }
  match x.waitL, x.waitR with
  | some l, some r =>
    if tsNear l.ts r.ts (gr.rd 0x06 2) then visSlot g gr l (some r) (d.setVg g { x with waitL := none, waitR := none })
    else d.setVg g x
  | _, _ => d.setVg g x

/-- One ready frame, as Trellis sees it in Capture: every running graph of its port takes it. -/
def visOffer (f : Frame) (d : Dev) : Dev :=
  forAll 4 (fun k d =>
    let g : Fin 4 := Fin.ofNat 4 k
    match graphOf d k with
    | none => d
    | some gr =>
      if !(d.vg g).run then d
      else if gr.stereo then visPair g gr f d
      else if gr.srcPort = f.port then visSlot g gr f none d
      else d) d

/-- Whether a graph has a node of an engine. -/
def Graph.has (g : Graph) (e : Nat) : Bool := (List.range g.nodes).any (fun k => decide (g.engine k = e))

/-- The frame in the slot is accepted for processing. -/
def visAccept (g : Fin 4) (d : Dev) : Dev :=
  let x := d.vg g
  match x.active, x.slot, graphOf d g with
  | none, some f, some gr =>
    let gap := decide (4 < (f.left.seq - x.lastSeq).toNat)
    let noFlow := x.fresh || gap
    let first := x.fresh || (gap && gr.has 3)
    let a : VActive := {
      pair := f, first := first, noFlow := noFlow, noSeed := x.fresh,
      prevTs := if first then 0 else x.lastTs, accept := d.tick.count, bank := x.bank, pos := 0, refs := 0, cand := [],
      refined := [], feats := [] }
    let y := { x with slot := none, active := some a, bank := (x.bank + 1) % 2, fresh := false }
    visStatus g (d.setVg g { y with lastSeq := f.left.seq, lastTs := f.left.ts, quiet := 0 })
  | _, _, _ => d

/-- At the edge that begins a tick: a running graph counts a tick without an accepted frame (R232). -/
def visTick (d : Dev) : Dev :=
  forAll 4 (fun k d =>
    let g : Fin 4 := Fin.ofNat 4 k
    d.setVg g { d.vg g with quiet := (d.vg g).quiet + 1 }) d

/-- FRAME_ACCEPT, at the end of Capture (R227): ready frames enter the slots, and an idle graph accepts. -/
def visCapture (d : Dev) : Dev :=
  let fs := (d.rx 0).ready ++ (d.rx 1).ready
  let d := fs.foldl (fun d f => visOffer f d) d
  let d := forAll 2 (fun k d =>
    let p : Fin 2 := Fin.ofNat 2 k
    d.setRx p { d.rx p with ready := [] }) d
  forAll 4 (fun k d => visAccept (Fin.ofNat 4 k) d) d

/-! ## Engine outputs -/

/-- Where node k's output starts: in the bank in tick SRAM, or in the DRAM scratch. -/
def outBase (gr : Graph) (a : VActive) (k : Nat) : Nat :=
  (if gr.toDram k then gr.scratch else gr.bankAddr a.bank) + gr.outOfs k

/-- Bytes of an output: staged into tick SRAM in a core cycle (R235), or written to DRAM. -/
def putOut (dram : Bool) (cyc a : Nat) (bs : List Byte) (d : Dev) : Dev :=
  if dram then setDramBytes a bs d else stageAt cyc .engine (.sram a bs.length (leNat bs)) d

/-- n bytes that the manual leaves open, of an item whose free value has index c. -/
def freeBytes (c n : Nat) : List Byte := (List.range n).map (Config.freeByte c)

/-- Bytes o to o + n - 1 of an item's open bytes. -/
def freeSlice (c o n : Nat) : List Byte := (List.range n).map (fun i => Config.freeByte c (o + i))

/-- How many results an item finds, at most m: open. -/
def found (c m : Nat) : Nat := (Config.freeWord c).toNat % (m + 1)

/-- An image: its first byte, the bytes of a pixel, the distance of two rows and its size. -/
structure Picture where
  base  : Nat
  pix   : Nat
  pitch : Nat
  w     : Nat
  h     : Nat
  deriving DecidableEq, Repr

/-- A level of an image whose level 0 is W × H. -/
def Graph.levelW (g : Graph) (l : Nat) : Nat := ceilDiv g.width (2 ^ l)
def Graph.levelH (g : Graph) (l : Nat) : Nat := ceilDiv g.height (2 ^ l)

/-- The image that node k keeps at a level in the scratch: the levels of a Pyramid follow each other from level 1 on, rows without
gaps (assumption 22); a Warp keeps level 0. -/
def Graph.image (g : Graph) (k l : Nat) : Picture :=
  let b := pixBytes g.dt
  let before := sumList ((List.range (l - 1)).map (fun i => g.levelW (i + 1) * g.levelH (i + 1) * b))
  ⟨g.scratch + g.outOfs k + before, b, g.levelW l * b, g.levelW l, g.levelH l⟩

/-- A camera frame in its buffer. -/
def frameImage (d : Dev) (gr : Graph) (f : Frame) : Picture :=
  let b := pixBytes gr.dt
  ⟨bufAddr d f.port f.buf, b, (gr.width * b + 63) / 64 * 64, gr.width, gr.height⟩

/-- The rows of a tile at a level, clipped to the image: first column and row, columns and rows. -/
def Graph.tileBox (g : Graph) (i : Picture) (l t : Nat) : Nat × Nat × Nat × Nat :=
  let s := 128 / 2 ^ l
  let x := t % g.cols * s
  let y := t / g.cols * s
  (x, y, min s (i.w - x), min s (i.h - y))

/-- The pixel codes of a tile of an image. -/
def tileCodes (d : Dev) (gr : Graph) (i : Picture) (l t : Nat) : List Nat :=
  let (x, y, nx, ny) := gr.tileBox i l t
  (List.range ny).flatMap (fun r => (List.range nx).map (fun c =>
    leNat (d.dramBytes (i.base + (y + r) * i.pitch + (x + c) * i.pix) i.pix)))

/-- A tile of an image that an engine makes: its pixels are open, kept at source depth. -/
def openTile (gr : Graph) (i : Picture) (l t c : Nat) (d : Dev) : Dev :=
  let (x, y, nx, ny) := gr.tileBox i l t
  openArea ⟨i.base + y * i.pitch + x * i.pix, nx * i.pix, i.pitch, ny, pixHi gr.dt, c⟩ d

/-- The image that node k reads. -/
def inImage (d : Dev) (gr : Graph) (a : VActive) (k : Nat) : Picture :=
  match gr.in0 k with
  | 0xFE => frameImage d gr (a.pair.right.getD a.pair.left)
  | 0xFF => frameImage d gr a.pair.left
  | i => gr.image i (gr.level k)

/-- A number n / m in whole codes; its rounding is open (assumption 22). -/
def openCode (c i n m : Nat) : Nat := if n % m = 0 then n / m else if Config.roundUp (c + i) then n / m + 1 else n / m

/-- The Stats record of a tile: minimum, maximum, mean, standard deviation, and the counts above and at or below THR. -/
def statsRecord (gr : Graph) (k c : Nat) (cs : List Nat) : List Byte :=
  let n := max 1 cs.length
  let sum := sumList cs
  let dev := n * sumList (cs.map (fun v => v * v)) - sum * sum
  let above := (cs.filter (fun v => decide (gr.par k 0 2 < v))).length
  let sd := if isqrt dev * isqrt dev = dev then openCode c 1 (isqrt dev) n
    else if Config.roundUp (c + 1) then isqrt dev / n + 1 else isqrt dev / n
  leBytes (cs.foldl Nat.min (cs.headD 0)) 2 ++ leBytes (maxList cs) 2 ++ leBytes (openCode c 0 sum n) 2 ++ leBytes sd 2 ++
    leBytes above 4 ++ leBytes (cs.length - above) 4

/-- Count how often each bin occurs. -/
def histogram (shift : Nat) (cs : List Nat) : List Byte :=
  (List.range 256).flatMap (fun k => leBytes (cs.filter (fun c => decide (c / 2 ^ shift = k))).length 4)

/-- The Stats histogram of the frame. -/
def statsHist (d : Dev) (gr : Graph) (a : VActive) (k : Nat) : List Byte :=
  histogram ((gr.dt - 0x2A) * 2) ((List.range gr.tiles).flatMap (tileCodes d gr (inImage d gr a k) (gr.level k)))

/-- The confidence of a tile: of a Feature tile from its count, 0 where the pairing fails or the seed is lost (R228, R237). -/
def tileConf (gr : Graph) (a : VActive) (k c : Nat) : Nat :=
  if gr.engine k = 2 then min 255 (16 * found c (gr.par k 0 1))
  else if (gr.engine k = 3 ∧ a.noFlow) ∨ (gr.engine k = 4 ∧ a.noSeed) then 0 else (Config.tileConfidence c).toNat

/-- The record of a tile of a Flow or Disparity node: open but for its confidence and level. -/
def matchRecord (gr : Graph) (k c conf level : Nat) : List Byte :=
  if gr.engine k = 3 then freeSlice c 0 4 ++ leBytes conf 1 ++ leBytes level 1 ++ freeSlice c 4 2
  else freeBytes c 6 ++ leBytes conf 1 ++ leBytes level 1

/-- The records of a tile of a Feature node: x, y and score open, the level, and flag bit 0 for a refined one. -/
def featRecords (gr : Graph) (k c level refined : Nat) : List Byte :=
  (List.range (found c (gr.par k 0 1))).flatMap (fun i => freeSlice c (6 * i) 6 ++ leBytes level 1 ++ leBytes refined 1)

/-- The records of a Feature node, by tile (the order of the tiles is DESIGN CHOICE, assumption 22), and their count. -/
def featOut (gr : Graph) (a : VActive) (k : Nat) : List Byte :=
  let bs := (List.range gr.tiles).flatMap (fun t =>
    match a.feats.find? (fun e => decide (e.1 = k ∧ e.2.1 = t)) with
    | some e => e.2.2
    | none => [])
  leBytes (bs.length / 8) 4 ++ bs

/-- The records of a tile take their place. -/
def VActive.setFeats (a : VActive) (k t : Nat) (bs : List Byte) : VActive :=
  { a with feats := (k, t, bs) :: a.feats.filter (fun e => !decide (e.1 = k ∧ e.2.1 = t)) }

/-- The full field of a Flow node or the full map of a Disparity node for a tile, in DRAM, tile by tile (assumption 22). -/
def fullField (gr : Graph) (k t c : Nat) (d : Dev) : Dev :=
  if gr.engine k = 3 ∧ gr.par k 0 4 ≠ 0 then
    openArea ⟨gr.scratch + gr.par k 0 4 + t * gr.fieldBytes k, gr.fieldBytes k, gr.fieldBytes k, 1, 0xFF, c + 1⟩ d
  else if gr.engine k = 4 ∧ gr.par k 4 4 ≠ 0 then
    openArea ⟨gr.scratch + gr.par k 4 4 + t * gr.mapBytes k, gr.mapBytes k, gr.mapBytes k, 1, 0xFF, c + 1⟩ d
  else d

/-- The free value of the coarse item at the list position, and of a refinement item (R235). -/
def VActive.coarseFree (a : VActive) : Nat := a.pair.seed + 2 * a.pos
def VActive.refineFree (a : VActive) (gr : Graph) (k t : Nat) : Nat := a.pair.seed + 2 * (gr.coarse.length + k * gr.tiles + t)

/-- A coarse item is computed, its output accepted in core cycle `cyc`; its confidence may make the tile a candidate. -/
def runCoarse (gr : Graph) (cmin cyc k t : Nat) (a : VActive) (d : Dev) : VActive × Dev :=
  let c := a.coarseFree
  let base := outBase gr a k
  let put := putOut (gr.toDram k) cyc
  let last := decide (t = gr.tiles)
  let conf := tileConf gr a k c
  let a' := if gr.refine k && decide (conf < cmin) && !last then { a with cand := a.cand ++ [(k, t)] } else a
  match gr.engine k with
  | 0 => (a', (List.range (gr.par k 0 1)).foldl (fun d i => openTile gr (gr.image k (i + 1)) (i + 1) t c d) d)
  | 1 => (a', openTile gr (gr.image k 0) 0 t c d)
  | 2 =>
    let a' := a'.setFeats k t (featRecords gr k c (gr.level k) 0)
    (a', put base (featOut gr a' k) d)
  | 3 | 4 => (a', fullField gr k t c (put (base + 4 + 8 * t) (matchRecord gr k c conf (gr.level k))
      (put base (leBytes (t + 1) 4) d)))
  | 5 =>
    let n := found c 256
    (a', if last then put base (leBytes n 4 ++ freeBytes c (16 * n)) d else d)
  | 6 =>
    let n := found c (gr.par k 2 1)
    (a', if last then put base (leBytes n 4 ++ (List.range n).flatMap (fun i => freeSlice c (14 * i) 14 ++ [0, 0])) d else d)
  | _ =>
    if last then (a', put (base + 4 + 16 * gr.tiles) (statsHist d gr a k) d)
    else (a', put (base + 4 + 16 * t) (statsRecord gr k c (tileCodes d gr (inImage d gr a k) (gr.level k) t))
      (put base (leBytes (t + 1) 4) d))

/-- A refinement item is computed: its record replaces the coarse one, and the tile enters the refined map (R236). -/
def runRefine (gr : Graph) (cyc k t : Nat) (a : VActive) (d : Dev) : VActive × Dev :=
  let c := a.refineFree gr k t
  let base := outBase gr a k
  let put := putOut (gr.toDram k) cyc
  let a := { a with refined := if a.refined.contains t then a.refined else t :: a.refined }
  if gr.engine k = 2 then
    let a := a.setFeats k t (featRecords gr k c 0 1)
    (a, put base (featOut gr a k) d)
  else (a, put (base + 4 + 8 * t) (matchRecord gr k c (Config.tileConfidence c).toNat 0) d)

/-! ## Admission and closing (R234 to R238) -/

/-- Every item of the nodes that node k reads is among the first `start` coarse items; for a final item, every tile item
of its own node too. -/
def depsDone (gr : Graph) (start k t : Nat) : Bool :=
  (gr.inputs k).all (fun i => decide (gr.before (i + 1) ≤ start)) &&
    (decide (t < gr.tiles) || decide (gr.before k + gr.tiles ≤ start))

/-- The refinement list: the candidates of the nodes whose pairing or seed stands, at most REFMAX items. -/
def refineList (gr : Graph) (a : VActive) : List (Nat × Nat) :=
  (a.cand.filter (fun c => !((decide (gr.engine c.1 = 3) && a.noFlow) || (decide (gr.engine c.1 = 4) && a.noSeed)))).take
    gr.refMax

/-- What one graph has left in a tick: Trellis cycles, the items for which the tile store and the result writes have room
(open, assumption 22), and what it has spent; whether room ended admission. -/
structure Quantum where
  left   : Nat
  room   : Nat
  /-- What this graph and the lower ones have spent. -/
  spent  : Nat
  starve : Bool
  deriving DecidableEq, Repr

/-- One item is admitted or ends admission. -/
def Quantum.take (q : Quantum) (cost : Nat) (deps : Bool) : Option Quantum × Quantum :=
  if !deps || decide (q.left < cost) then (none, q)
  else if q.room = 0 then (none, { q with starve := true })
  else
    let q' := { q with left := q.left - cost, room := q.room - 1, spent := q.spent + cost }
    (some q', q')

/-- The core cycle in which the output of an item is accepted: items run one after another from the start of Compute, each for its
declared cost at 750 MHz (DESIGN CHOICE, assumption 132). -/
def itemCycle (d : Dev) (spent : Nat) : Nat := d.cycleAt (d.tick.edgeAt + 4500) + 2 * spent

/-- Admission along the coarse list. -/
def admitCoarse (gr : Graph) (cmin start : Nat) :
    List (Nat × Nat) → VActive → Quantum → Dev → VActive × Quantum × Dev
  | [], a, q, d => (a, q, d)
  | (k, t) :: rest, a, q, d =>
    let cost := if t = gr.tiles then gr.finalCost k else gr.cost k (gr.level k)
    match q.take cost (depsDone gr start k t) with
    | (none, q) => (a, q, d)
    | (some q, _) =>
      let (a, d) := runCoarse gr cmin (itemCycle d q.spent) k t a d
      admitCoarse gr cmin start rest { a with pos := a.pos + 1 } q d

/-- Admission along the refinement list. -/
def admitRefine (gr : Graph) (start : Nat) :
    List (Nat × Nat) → VActive → Quantum → Dev → VActive × Quantum × Dev
  | [], a, q, d => (a, q, d)
  | (k, t) :: rest, a, q, d =>
    match q.take (gr.cost k 0) (depsDone gr start k 0 && decide (gr.before k + gr.tiles ≤ start)) with
    | (none, q) => (a, q, d)
    | (some q, _) =>
      let (a, d) := runRefine gr (itemCycle d q.spent) k t a d
      admitRefine gr start rest { a with refs := a.refs + 1 } q d

/-- The refined map: bit t of byte t / 8. -/
def refinedMap (l : List Nat) : List Byte :=
  (List.range 96).map (fun i => BitVec.ofNat 8 (sumList ((List.range 8).map (fun j =>
    if l.contains (8 * i + j) then 2 ^ j else 0))))

/-- The 256 bytes of a result bank header. -/
def bankHeader (seq : Word) (ts : DWord) (status counts ticks : Nat) (prev : DWord) (refined : List Nat) : List Byte :=
  leBytes seq.toNat 4 ++ leBytes ts.toNat 8 ++ leBytes status 4 ++ leBytes counts 4 ++ leBytes ticks 4 ++
    leBytes prev.toNat 8 ++ List.replicate 96 0 ++ refinedMap refined ++ List.replicate 32 0

/-- FRAME_CLOSE: the header is staged, and the result awaits the edge. -/
def visClose (g : Fin 4) (gr : Graph) (cyc : Nat) (a : VActive) (d : Dev) : Dev :=
  let part := a.refs < (refineList gr a).length
  let counts := a.cand.length % 65536 + 65536 * (a.refs % 65536)
  let hdr := bankHeader a.pair.left.seq a.pair.left.ts (2 * b2n a.first + 4 * b2n part) counts
    (d.tick.count - a.accept).toNat a.prevTs a.refined
  let d := stageAt cyc .engine (.sram (gr.bankAddr a.bank) 256 (leNat hdr)) d
  let x := d.vg g
  visStatus g (d.setVg g { x with active := none, closing := x.closing ++
    [⟨false, a.pair.left.seq, a.pair.left.ts, a.bank, word counts, some a.pair.left⟩] })

/-- What a graph may spend: QCYC in force. -/
def qcyc (d : Dev) (g : Nat) : Nat := (d.reg (VIS_G_QCYC g)).toNat

/-- ADMISSION of one graph; the sum is what lower graphs and this one have spent. -/
def admitGraph (g : Fin 4) (spent : Nat) (d : Dev) : Nat × Dev :=
  match graphOf d g with
  | none => (spent, d)
  | some gr =>
    let n := gr.coarse.length
    let d := match (d.vg g).active with
      | some a => if n ≤ a.pos ∧ (d.vg g).slot.isSome then visAccept g (visClose g gr (itemCycle d spent) a d) else d
      | none => d
    match (d.vg g).active with
    | none => (spent, d)
    | some a =>
      let q : Quantum := { left := min (qcyc d g) (visBudget d.period - spent),
                           room := (Config.freeWord d.freeCtr).toNat, spent := spent, starve := false }
      let start := a.pos
      let (a, q, d) := admitCoarse gr (confMin d g gr) start (gr.coarse.drop start) a q d.tickFree
      let (a, q, d) := if a.pos < n then (a, q, d)
        else admitRefine gr start ((refineList gr a).drop a.refs) a q d
      let d := visStatus g (d.setVg g { d.vg g with active := some a })
      let d := if q.starve then raise 156 (Dev.setFlag (VIS_G_STAT g) 7 true d) else d
      let done := decide (n ≤ a.pos) && decide ((refineList gr a).length ≤ a.refs)
      (q.spent, if done then visClose g gr (itemCycle d q.spent) a d else d)

/-- ADMISSION at the start of Compute: graphs in ascending order (R234). -/
def visAdmit (d : Dev) : Dev :=
  ((List.range 4).foldl (fun (s : Nat × Dev) k => admitGraph (Fin.ofNat 4 k) s.1 s.2) (0, d)).2

/-- An abandoned tick: Trellis state goes back to that of its Capture, and its items are admitted again (R235). -/
def visRevert (old : Dev) (d : Dev) : Dev :=
  forAll 4 (fun k d =>
    let g : Fin 4 := Fin.ofNat 4 k
    visStatus g (d.setVg g (old.vg g))) d

/-! ## Results and the hand-off ring (R232, R238 to R240) -/

/-- One result is published at the edge. -/
def visPublish (g : Fin 4) (gr : Graph) (r : VResult) (d : Dev) : Dev :=
  let d := d.setReg (VIS_G_SEQ g) r.seq
  let x := d.vg g
  let d := d.setVg g { x with shown := some r.bank, pTs := r.ts, pBank := word (gr.bankAddr r.bank), pCounts := r.counts }
  if r.missing then raise (148 + g) (Dev.setFlag (VIS_G_STAT g) 6 true d)
  else
    let d := raise (144 + g) d
    match r.frame with
    | some f => if gr.rd 0x2A 1 % 2 = 1 then
        { d with vis := { d.vis with todo := d.vis.todo ++ [⟨g, r.seq, r.ts, f, r.bank⟩] } } else d
    | none => d

/-- RESULT_PUBLISH at a committing edge, before Capture. -/
def visPublishAll (d : Dev) : Dev :=
  forAll 4 (fun k d =>
    let g : Fin 4 := Fin.ofNat 4 k
    match graphOf d k with
    | none => d
    | some gr =>
      let rs := (d.vg g).closing
      rs.foldl (fun d r => visPublish g gr r d) (d.setVg g { d.vg g with closing := [] })) d

/-- MISSING_TIMEOUT: FRTO ticks without an accepted frame: a header alone, in the bank that is not published, with the SEQ
of the most recent accepted frame (R232). -/
def visMissing (g : Fin 4) (d : Dev) : Dev :=
  let x := d.vg g
  match graphOf d g with
  | none => d
  | some gr =>
    if !x.run || decide (gr.frto = 0) || decide (x.quiet < gr.frto) || decide (d.tick.phase = .idle) then d
    else
      let bank := match x.shown with
        | some b => (b + 1) % 2
        | none => 0
      let hdr := bankHeader x.lastSeq 0 1 0 0 0 []
      let d := stageAt (d.cycleAt d.instant) .engine (.sram (gr.bankAddr bank) 256 (leNat hdr)) d
      d.setVg g { d.vg g with quiet := 0, closing := x.closing ++ [⟨true, x.lastSeq, 0, bank, 0, none⟩] }

def execMissingTimeout (g : Fin 4) (s : State) : Out := .next { s with dev := visMissing g s.dev }

/-- HOFFLEN, and the DRAM address of entry i. -/
def hoffLen (d : Dev) : Nat := d.fld VIS_HOFFCFG 8 0
def hoffAddr (d : Dev) (i : Nat) : Nat := (d.reg VIS_HOFFLO).toNat + 2 ^ 32 * d.fld VIS_HOFFHI 0 0 + 32 * i

/-- The 32 bytes of a hand-off entry. -/
def hoffEntry (d : Dev) (gr : Graph) (h : Handoff) : List Byte :=
  let a := bufAddr d h.frame.port h.frame.buf
  leBytes h.seq.toNat 4 ++ leBytes (h.graph + 256) 4 ++ leBytes h.ts.toNat 8 ++ leBytes a 8 ++
    leBytes (gr.width + 65536 * gr.height) 4 ++
    leBytes (gr.dt + 256 * h.frame.buf + 65536 * (gr.bankAddr h.bank / 64 % 65536)) 4

/-- HANDOFF_WRITE: the oldest published result of the graph gets its entry; a full ring writes none (R239). -/
def visHandoff (g : Fin 4) (d : Dev) : Dev :=
  match d.vis.todo.find? (fun h => decide (h.graph = g.val)), graphOf d g with
  | some h, some gr =>
    let d := { d with vis := { d.vis with todo := d.vis.todo.erase h } }
    let wr := d.fld VIS_HOFFWR 7 0
    let next := (wr + 1) % hoffLen d
    if next = d.fld VIS_HOFFRD 7 0 % hoffLen d then raise 154 (Dev.count1 VIS_HOFFSKIP d)
    else
      let d := setDramBytes (hoffAddr d wr) (hoffEntry d gr h) d
      let e : HandEntry := ⟨wr, h.frame.port, h.frame.buf, d.tick.count⟩
      let d := { d with vis := { d.vis with held := d.vis.held ++ [e] } }
      d.setReg VIS_HOFFWR (word next)
  | _, _ => d

def execHandoffWrite (g : Fin 4) (s : State) : Out := atEdge (visHandoff g) s

/-- HANDOFF_EXPIRY: HOFFHOLD ticks have passed since a valid entry was written: STATE 2, the buffer released, event 155
(R240). -/
def visExpire (i : Nat) (d : Dev) : Dev :=
  match d.vis.held.find? (fun e => decide (e.idx = i)) with
  | none => d
  | some e =>
    if (d.tick.count - e.count).toNat < d.fld VIS_HOFFCFG 31 16 then d
    else
      let d := { d with vis := { d.vis with held := d.vis.held.erase e } }
      raise 155 (setDramBytes (hoffAddr d i + 5) [2] d)

def execHandoffExpiry (i : Nat) (s : State) : Out := .next { s with dev := visExpire i s.dev }

/-- A new HOFFRD releases the entries the consumer has passed (R240). -/
def setHoffRd (v : Word) (d : Dev) : Dev :=
  let n := hoffLen d
  let wr := d.fld VIS_HOFFWR 7 0
  let rd := bits v 7 0
  let d := d.setReg VIS_HOFFRD (v &&& 0xFF)
  let waits := fun (e : HandEntry) => decide ((e.idx + n - rd % n) % n < (wr + n - rd % n) % n)
  { d with vis := { d.vis with held := d.vis.held.filter waits } }

/-! ## Ports (R241) -/

def visPort (d : Dev) (g : Fin 4) (ofs : Nat) : Word :=
  let x := d.vg g
  if (graphOf d g).isNone then 0
  else match ofs with
  | 0x00 => d.reg (VIS_G_STAT g)
  | 0x04 => d.reg (VIS_G_SEQ g)
  | 0x08 => loWord x.pTs
  | 0x0C => hiWord x.pTs
  | 0x10 => x.pBank
  | 0x14 => x.pCounts
  | 0x18 => d.reg (VIS_G_SKIPS g)
  | _ => 0

end Sys2Proof.Machine
end

