-- ==== Sys2Proof/Machine/Trouble.lean ====
section
/-! DEFINITION. The rows of the fault unit, the event fabric and the sensors (18_trouble.md, 19_events.md,
23_electrical.md). -/
namespace Sys2Proof.Machine

/-! ## The fault unit (R352, R357, R358, R363) -/

/-- A committed POP: bit 31 POP, bits 15..0 the ID (R352). -/
def popCommit (v : Word) (d : Dev) : Dev := if bit v 31 then popFault (bits v 15 0) d else d

def execPop (v : Word) (s : State) : Out := atEdge (popCommit v) s

/-- A record of class Hold stands in the stack. -/
def holdStands (d : Dev) : Bool := d.fu.stack.any (fun r => decide (r.cls = .hold))

/-- A W1C write of FLT_STAT: HOLDF stays while a Hold record stands (R357); FPDIS lets the fault program run again
(R353). -/
def clearFltStat (v : Word) (d : Dev) : Dev :=
  let m := v &&& 0x13E
  let m := if holdStands d then setBit m 4 false else m
  d.setReg FLT_STAT (d.reg FLT_STAT &&& ~~~ m)

/-- FAULT_PULSE_END: PULSE µs have passed since the latest due instant (R358). -/
def pulseOver (d : Dev) : Dev :=
  if d.fu.pulse then let d := d.reach d.fu.pulseEnd; { d with fu := { d.fu with pulse := false } } else d

def execFaultPulseEnd (s : State) : Out := .next { s with dev := pulseOver s.dev }

/-- A cart of core k ends: its done flag, and its error flag (R84, R86). The flags show, and the descriptor is free, from
the next Capture (R67). -/
def cartFlags (k : Fin 6) (i : Nat) (bad : Bool) (d : Dev) : Dev :=
  let c := d.core k
  let m := BitVec.ofNat 64 (2 ^ i)
  d.setCore k { c with done := c.done ||| m, err := if bad then c.err ||| m else c.err }

/-- A graph has a node that writes to DRAM. -/
def dramGraph (d : Dev) (g : Nat) : Bool :=
  match graphOf d g with
  | some gr => (List.range gr.nodes).any gr.toDram
  | none => false

/-- Something of the device may hold data in the DRAM write buffer: a cart to DRAM, a graph with outputs there, a camera frame. -/
def dramHolds (d : Dev) : Bool :=
  d.carts.any (·.toDram) || (List.finRange 4).any (fun (g : Fin 4) => dramGraph d g && (d.vg g).active.isSome) ||
    d.vis.rx.any (fun x => x.recv.isSome || !x.ended.isEmpty)

/-- DRAM_STALL: the write buffer accepted no line for 1 ms and is discarded (R363): the carts to DRAM end in error, the
graphs in progress with outputs in DRAM stop with GERR, event 220 is a Hold fault. -/
def dramStall (d : Dev) : Dev :=
  if !dramHolds d then d
  else
  let d := (d.carts.filter (·.toDram)).foldl (fun d x => cartFlags (Fin.ofNat 6 x.core) x.idx true d) d
  let d := { d with carts := d.carts.filter (fun x => !x.toDram) }
  let d := forAll 4 (fun g d =>
    if dramGraph d g && (d.vg (Fin.ofNat 4 g)).active.isSome then visGerr (Fin.ofNat 4 g) (visStop (Fin.ofNat 4 g) d) else d) d
  fault 220 .hold 0 d

def execDramStall (s : State) : Out := .next { s with dev := dramStall s.dev }

/-! ## Events (R372) -/

/-- Software events of a committed mask: bit i raises event 248 + i. -/
def softEvents (v : Nat) (d : Dev) : Dev := forAll 8 (fun i d => raiseIf (decide (v / 2 ^ i % 2 = 1)) (248 + i) d) d

def execSwset (v : Word) (s : State) : Out := atEdge (softEvents v.toNat) s

/-! ## Clocks, supplies and temperature (R367, R413): monitored from READY on (R124) -/

/-- A fault of a monitor, once start-up is over. -/
def monitorFault (ev : Nat) (c : Cls) (detail : Word) (d : Dev) : Dev := if d.ready then fault ev c detail d else d

def execTempWarning (t : Int) (s : State) : Out :=
  .next { s with dev := if 150 < t then monitorFault 13 .note (wordI t) s.dev else s.dev }

def execTempCritical (t : Int) (s : State) : Out :=
  .next { s with dev := if 160 < t then monitorFault 14 .hold (wordI t) s.dev else s.dev }

/-- Event and class of a lost clock (events 9 to 12). -/
def clockEvent : Sys2Proof.ClockLoss → Nat × Cls
  | .pll => (9, .halt)
  | .xtal => (10, .halt)
  | .clk32k => (11, .degrade)
  | .dramPll => (12, .hold)

def execClockLoss (w : Sys2Proof.ClockLoss) (s : State) : Out :=
  .next { s with dev := monitorFault (clockEvent w).1 (clockEvent w).2 0 s.dev }

def execSupplyFault (s : State) : Out := .next { s with dev := monitorFault 15 .halt 0 s.dev }

/-- HALT: a fault of class Halt, of one of the sources that have that class (R121, R367). -/
def execHalt (event : Fin 256) (detail : Word) (s : State) : Out :=
  .next { s with dev := if [2, 9, 10, 15].contains event.val then monitorFault event .halt detail s.dev else s.dev }

/-! ## DRAM reads (R416) -/

/-- A DRAM read whose ECC reports: DETAIL is address bits 32..6. A cart whose source holds the line ends in error (R86). -/
def dramEcc (addr : Nat) (uncorrectable : Bool) (d : Dev) : Dev :=
  let a := word (addr / 64 % 2 ^ 27)
  if uncorrectable then
    let hit := fun (x : Cart) => !x.toDram && !x.arrived && decide (x.dAddr ≤ addr) && decide (addr < x.dAddr + 64 * x.lines)
    let d := { d with carts := d.carts.map (fun x => if hit x then { x with bad := true } else x) }
    fault 221 .note a ((Dev.count1 DRM_UECNT (Dev.setFlag DRM_STAT 5 true d)).setReg DRM_UEADDR a)
  else fault 222 .note a (Dev.count1 DRM_CECNT (Dev.setFlag DRM_STAT 4 true d))

def execDramEccRead (addr : Nat) (uncorrectable : Bool) (s : State) : Out :=
  .next { s with dev := if s.dev.dramSz = 0 then s.dev else dramEcc addr uncorrectable s.dev }

end Sys2Proof.Machine
end

