-- ==== Sys2Proof/Machine/Carts.lean ====
section
/-! DEFINITION. Carts between DRAM and tick SRAM (04_programs.md, *Carts*). -/
namespace Sys2Proof.Machine

/-- The descriptor breaks R86. -/
def cartBad (d : Dev) (w0 w1 w2 w3 : Nat) : Bool :=
  let lines := w3 % 2048
  let da := w0 + 2 ^ 32 * (w1 % 2)
  let sa := w2 % 2 ^ 22
  decide (lines = 0) || decide (1024 < lines) || decide (2 ≤ w1) || decide (2 ^ 22 ≤ w2) ||
    decide (w3 / 2048 % 32 ≠ 0) || decide (2 ^ 17 ≤ w3) || decide (da % 64 ≠ 0) || decide (sa % 64 ≠ 0) ||
    decide (dramSize d < da + 64 * lines) || decide (0x400000 < sa + 64 * lines)

/-- CART_ENQUEUE: the issue enters the queue at a committing edge; its descriptor is read as committed there, and its done and
error flags clear (R84, R86). -/
def cartEnqueue (k : Fin 6) (i : Nat) (d : Dev) : Dev :=
  let c := d.core k
  let m := BitVec.ofNat 64 (2 ^ i)
  let w := fun (o : Nat) => (c.dmem.word (0x1FC00 + 16 * i + o)).toNat
  let bad := cartBad d (w 0) (w 4) (w 8) (w 12)
  let lines := w 12 % 2048
  let sa := w 8 % 2 ^ 22
  let x : Cart :=
    { core := k, idx := i, dAddr := w 0 + 2 ^ 32 * (w 4 % 2), sAddr := sa, lines := lines,
      toDram := decide (w 12 / 65536 % 2 = 1), bad := bad, arrived := false, ended := false, data := [] }
  { d.setCore k { c with done := c.done &&& ~~~ m, err := c.err &&& ~~~ m } with carts := d.carts ++ [x] }

/-- The carts toward DRAM that entered at this edge copy their source lines, the landing line of the edge included (R84, R370). -/
def cartSources (d : Dev) : Dev :=
  { d with carts := d.carts.map (fun x =>
      if x.toDram && !x.bad && x.data.isEmpty then { x with data := d.sram.bytes x.sAddr (64 * x.lines) } else x) }

/-- The first cart of a descriptor that a condition admits, and the queue without it. -/
def takeCart (f : Cart → Bool) : List Cart → Option (Cart × List Cart)
  | [] => none
  | x :: t => if f x then some (x, t) else (takeCart f t).map (fun r => (r.1, x :: r.2))

def Cart.of (k : Fin 6) (i : Fin 64) (x : Cart) : Bool := decide (x.core = k.val) && decide (x.idx = i.val)

/-- CART_DONE: the controller has accepted every line of a cart to DRAM, or a cart ends in error and writes nothing
(R84, R86). -/
def cartDone (k : Fin 6) (i : Fin 64) (err : Option Sys2Proof.SramError) (d : Dev) : Dev :=
  match takeCart (fun x => x.of k i && (x.toDram || x.bad)) d.carts with
  | none => d
  | some (x, rest) =>
    let d := { d with carts := rest }
    if x.bad then cartFlags k i true d
    else sramErr err x.sAddr (64 * x.lines) (cartFlags k i false (setDramBytes x.dAddr (sramData err x.sAddr x.data d) d))

def execCartDone (k : Fin 6) (i : Fin 64) (err : Option Sys2Proof.SramError) (s : State) : Out :=
  .next { s with dev := cartDone k i err s.dev }

/-- CART_LANDING: the last line of a cart from DRAM has arrived; it lands at the next committing edge (R85). -/
def cartArrive (k : Fin 6) (i : Fin 64) (d : Dev) : Dev :=
  match takeCart (fun x => x.of k i && !x.toDram && !x.bad && !x.arrived) d.carts with
  | none => d
  | some (x, rest) => { d with carts := rest ++ [{ x with arrived := true, data := d.dramBytes x.dAddr (64 * x.lines) }] }

def execCartLanding (k : Fin 6) (i : Fin 64) (s : State) : Out := .next { s with dev := cartArrive k i s.dev }

/-- At a committing edge, after its staged writes: the arrived carts write their lines in order of arrival (R85). -/
def cartsLand (d : Dev) : Dev :=
  let l := d.carts.filter (·.arrived)
  let d := l.foldl (fun d x => cartFlags (Fin.ofNat 6 x.core) x.idx false { d with sram := d.sram.setBytes x.sAddr x.data }) d
  { d with carts := d.carts.filter (fun x => !x.arrived) }

/-- At Capture a descriptor whose done flag is latched is no longer busy (R67). -/
def cartCapture (d : Dev) : Dev :=
  { d with cores := d.cores.map (fun c => { c with busy := c.busy &&& ~~~ c.done }) }

end Sys2Proof.Machine
end

