-- ==== Sys2Proof/Machine/Cellar.lean ====
section
/-! DEFINITION. The Cellar beyond what the cores do with it (17_cellar.md): commit and application of casks, the log, the
spill block, the host's boot writes and replay. -/
namespace Sys2Proof.Machine

def Dev.setCel (d : Dev) (c : Cellar) : Dev := { d with cel := c }

/-! ## Commit (R337, R341) -/

/-- The 48 data bytes of a log cask: its values at offsets 0x10 to 0x3C, unwritten words 0. -/
def logCaskData (c : Cask) : List Byte :=
  let m : Memory := c.entries.foldl (fun m e => m.setWord (e.1 - 0x10) e.2) []
  m.bytes 0 48

/-- The entries of a cask that is no log cask, written to a memory in CKW order (R339). -/
def putEntries (es : List (Nat × Word)) (m : Memory) : Memory := es.foldl (fun m e => m.setWord e.1 e.2) m

/-- CASK_COMMIT of one cask at edge n+1: its values can be read from that Capture on, COUNT counts it, and a log cask takes
its record. The rest of CEL_CKSTATk is that of the last cask closed (R336). -/
def caskCommit (k : Fin 6) (c : Cask) (d : Dev) : Dev :=
  let st := d.reg (CEL_CKSTAT k)
  let d := d.setReg (CEL_CKSTAT k) (setBits st 31 16 ((bits st 31 16 + 1) % 65536))
  let d := Dev.count1 CEL_CASKS d
  if c.tag = 255 then
    let (slot, d) := logAssign d
    let array := match slot with
      | some (i, seq) => d.cel.array.setBytes (logOfs i) (logRecord seq k d.tick.count (logCaskData c))
      | none => d.cel.array
    d.setCel { d.cel with array := array, journal := d.cel.journal ++ [⟨k, c, false, slot, d.tick.count⟩] }
  else
    d.setCel { d.cel with array := putEntries c.entries d.cel.array,
                          journal := d.cel.journal ++ [⟨k, c, false, none, d.tick.count⟩] }

/-- The casks of a tick that do not commit stay in the journal without a commit word; the tick's entry count starts anew. -/
def journalTick (committed : Nat) (d : Dev) : Dev :=
  d.setCel { d.cel with dead := d.cel.dead + (d.cel.live - committed), live := 0, used := 0 }

/-- A cask is open, from its CKB to its applied mark (R130, R338). -/
def celBusy (d : Dev) : Bool := !d.cel.journal.isEmpty || d.cores.toList.any (fun c => c.cask.isSome)

/-- COMMIT_WORD_WRITE: the commit words of the committed casks are in the journal: the casks are durable (R338). -/
def commitWords (d : Dev) : Dev :=
  d.setCel { d.cel with journal := d.cel.journal.map (fun j => { j with word := true }) }

def execCommitWordWrite (s : State) : Out := .next { s with dev := commitWords s.dev }

/-! ## Application (R338, R339, R342 to R344) -/

/-- How many tries of the write of the 64-bit word at an offset fail. -/
def wordFails (v : Sys2Proof.VerifyEnv) (a : Nat) : Nat := (v.fails.filter (fun o => decide (o / 8 = a / 8))).length

/-- A word whose write failed holds what the manual does not state (assumption 22). -/
def freeWord8 (a : Nat) (d : Dev) : Dev :=
  let bs := (List.range 8).map (Config.freeByte d.freeCtr)
  let a := a / 8 * 8
  { d.tickFree with cel := { d.cel with array := d.cel.array.setBytes a bs, durable := d.cel.durable.setBytes a bs } }

/-- A parameters, counters or boot word whose second try failed: WERR, CEL_WEADDR, and event 214, a Hold fault but for the
boot region (R344). -/
def writeError (a : Nat) (d : Dev) : Dev :=
  let d := Dev.setFlag CEL_STAT 5 true ((freeWord8 a d).setReg CEL_WEADDR (word a))
  if a < 0x40000 then raise 214 d else fault 214 .hold (word a) d

/-- The 64-bit words that entries write, each once. -/
def wordsTouched (es : List (Nat × Word)) : List Nat :=
  es.foldl (fun l e => if l.contains (e.1 / 8 * 8) then l else l ++ [e.1 / 8 * 8]) []

/-- The entries of the casks of an edge are applied: one array write a word, each verified. -/
def applyEntries (v : Sys2Proof.VerifyEnv) (es : List (Nat × Word)) (d : Dev) : Dev :=
  let d := d.setCel { d.cel with durable := putEntries es d.cel.durable }
  (wordsTouched es).foldl (fun d a => if 2 ≤ wordFails v a then writeError a d else d) d

/-- SPILL_FULL: SPFAIL and event 210 (R343). -/
def spillFull (d : Dev) : Dev := fault 210 .note (d.reg CEL_SPILLCNT) (Dev.setFlag CEL_STAT 1 true d)

/-- One spill record for a failed log record (R342). -/
def spillRecord (v : Sys2Proof.VerifyEnv) (a : Nat) (rec_ : List Byte) (d : Dev) : Dev :=
  let n := d.fld CEL_SPILLCNT 6 0
  if 64 ≤ n ∨ v.spillFail then spillFull d
  else
    let bs := leBytes 0x4C4C5053 4 ++ leBytes a 4 ++ leBytes d.stamp.toNat 8 ++ leBytes (loWord d.tick.count).toNat 4 ++
      leBytes (d.reg CEL_DROPPED).toNat 4 ++ leBytes 0 8 ++ rec_.take 32
    let d := d.setCel { d.cel with spill := d.cel.spill.setBytes (64 * n) bs }
    raise 209 (d.setReg CEL_SPILLCNT (word (n + 1)))

/-- The word of a record (in the order 1 to 7, then 0) whose write fails. -/
def failedWord (v : Sys2Proof.VerifyEnv) (slot : Nat) : Option Nat :=
  [1, 2, 3, 4, 5, 6, 7, 0].find? (fun w => decide (1 ≤ wordFails v (logOfs slot + 8 * w)))

/-- LOG_WRITE_FAIL: the record holds the words written before the failed one; FAIL, event 208 as a Degrade fault, a spill
record, LOGON cleared; the next record takes the slot and number after it (R342). -/
def logFail (v : Sys2Proof.VerifyEnv) (slot : Nat) (seq : Word) (bs : List Byte) (w : Nat) (d : Dev) : Dev :=
  let a := logOfs slot
  let done := if w = 0 then [1, 2, 3, 4, 5, 6, 7] else (List.range w).drop 1
  let dur := done.foldl (fun m i => m.setBytes (a + 8 * i) ((bs.drop (8 * i)).take 8)) d.cel.durable
  let d := freeWord8 (a + 8 * w) (d.setCel { d.cel with durable := dur })
  let d := d.setCel { d.cel with array := d.cel.array.setBytes a (d.cel.durable.bytes a 64) }
  let d := fault 208 .degrade (word (a + 8 * w)) (Dev.setFlag CEL_STAT 0 true d)
  let d := spillRecord v (a + 8 * w) bs d
  let d := Dev.setFlag CEL_STAT 8 false d
  (d.setReg CEL_LOGHEAD (word ((slot + 1) % 1536))).setReg CEL_LOGSEQ (seq + 1)

/-- LOG_RECORD_WRITE of an assigned record; while LOGON is 0 it is dropped and its slot shows what the array holds. -/
def logWrite (v : Sys2Proof.VerifyEnv) (slot : Nat) (seq : Word) (bs : List Byte) (d : Dev) : Dev :=
  let a := logOfs slot
  if !d.flag CEL_STAT 8 then
    Dev.count1 CEL_DROPPED (d.setCel { d.cel with array := d.cel.array.setBytes a (d.cel.durable.bytes a 64) })
  else
    match failedWord v slot with
    | some w => logFail v slot seq bs w d
    | none => d.setCel { d.cel with durable := d.cel.durable.setBytes a bs }

/-- CASK_APPLY: the casks whose commit words are written are applied in order, then the fault unit's records; with casks, an
applied mark ends it. -/
def caskApply (v : Sys2Proof.VerifyEnv) (d : Dev) : Dev :=
  let js := d.cel.journal.filter (·.word)
  let es := (js.filter (fun j => decide (j.cask.tag ≠ 255))).flatMap (fun j => j.cask.entries)
  let recs := js.filterMap (fun j => j.slot.map (fun s => (s.1, s.2, logRecord s.2 j.core j.count (logCaskData j.cask)))) ++
    d.cel.recs.map (fun r => (r.slot, r.seq, r.bytes))
  let d := d.setCel { d.cel with journal := d.cel.journal.filter (fun j => !j.word), recs := [],
                                 dead := if js.isEmpty then d.cel.dead else 0 }
  recs.foldl (fun d r => logWrite v r.1 r.2.1 r.2.2 d) (applyEntries v es d)

def execCaskApply (v : Sys2Proof.VerifyEnv) (s : State) : Out := .next { s with dev := caskApply v s.dev }

/-! ## Host commands (R333, R342, R343) -/

/-- A write of 1 to FAIL: it clears, and LOGON is set again. -/
def logResume (d : Dev) : Dev :=
  if d.flag CEL_STAT 0 then Dev.setFlag CEL_STAT 8 true (Dev.setFlag CEL_STAT 0 false d) else d

/-- SPILLCLR: every spill word 0. -/
def spillClear (d : Dev) : Dev := (d.setCel { d.cel with spill := [] }).setReg CEL_SPILLCNT 0

/-- A host write into the boot region, at an array offset: it is not journalled, and each 64-bit word is verified. -/
def bootWrite (v : Sys2Proof.VerifyEnv) (a n val : Nat) (d : Dev) : Dev :=
  let d := d.setCel { d.cel with array := d.cel.array.write a n val, durable := d.cel.durable.write a n val }
  let ws := if a / 8 = (a + n - 1) / 8 then [a / 8 * 8] else [a / 8 * 8, a / 8 * 8 + 8]
  ws.foldl (fun d w => if 2 ≤ wordFails v w then writeError w d else d) d

/-! ## Start-up (R340, R341) -/

/-- The log slots that hold any byte, each once; a record of zeros has a CRC that fails. -/
def logSlots (m : Memory) : List Nat :=
  (m.filter (fun e => decide (0x64000 ≤ e.1) && decide (e.1 < 0x7C000))).foldl (fun l e =>
    let s := (e.1 - 0x64000) / 64
    if l.contains s then l else l ++ [s]) []

/-- The valid records: slot and sequence number. -/
def logValid (m : Memory) : List (Nat × Word) :=
  ((logSlots m).filter (fun s => decide (crcCcitt (m.bytes (logOfs s + 8) 56) = BitVec.ofNat 16 (m.read (logOfs s + 6) 2)))).map
    (fun s => (s, m.word (logOfs s)))

/-- The head and the next sequence number: after the newest valid record. -/
def logHead (m : Memory) : Nat × Word :=
  let vs := logValid m
  match vs.find? (fun e => vs.all (fun q => decide ((e.2 - q.2).toNat < 2 ^ 31))) with
  | some (s, q) => ((s + 1) % 1536, q + 1)
  | none => (0, 0)

/-- Spill records held: those with the mark of a spill record. -/
def spillCount (m : Memory) : Nat := ((List.range 64).filter (fun i => decide (m.word (64 * i) = 0x4C4C5053))).length

/-- One replayed cask: its entries, or its log record at the next slot. -/
def replayCask (j : JCask) (d : Dev) : Dev :=
  if j.cask.tag = 255 then
    let slot := d.fld CEL_LOGHEAD 10 0
    let seq := d.reg CEL_LOGSEQ
    let bs := logRecord seq j.core j.count (logCaskData j.cask)
    let d := d.setCel { d.cel with durable := d.cel.durable.setBytes (logOfs slot) bs }
    (d.setReg CEL_LOGHEAD (word ((slot + 1) % 1536))).setReg CEL_LOGSEQ (seq + 1)
  else d.setCel { d.cel with durable := putEntries j.cask.entries d.cel.durable }

/-- JOURNAL_REPLAY, after the log head is found. `bad`: replay met an unreadable journal word after it had found this many
casks. The result is SYS_BOOTSTAT.REPLAY. -/
def celReplay (bad : Option Nat) (d : Dev) : Nat × Dev :=
  let (slot, seq) := logHead d.cel.durable
  let d := (d.setReg CEL_LOGHEAD (word slot)).setReg CEL_LOGSEQ seq
  let d := d.setReg CEL_SPILLCNT (word (spillCount d.cel.spill))
  let good := d.cel.journal.filter (·.word)
  let back := d.cel.dead + d.cel.live + (d.cel.journal.filter (fun j => !j.word)).length
  let clear := fun (d : Dev) =>
    d.setCel { d.cel with array := d.cel.durable, journal := [], recs := [], dead := 0, live := 0, used := 0 }
  match bad with
  | some n =>
    let d := (clear d).setReg CEL_REPLAY (word (n % 65536 * 65536))
    (3, fault 215 .degrade 0 (Dev.setFlag CEL_STAT 6 true d))
  | none =>
    let d := clear (good.foldl (fun d j => replayCask j d) d)
    (if good.isEmpty then (if back = 0 then 0 else 2) else 1,
      d.setReg CEL_REPLAY (word (good.length % 65536 + 65536 * (back % 65536))))

/-! ## Ports (status of the Cellar) -/

/-- The Cellar as its host region shows it: the array, the journal and the spill block. -/
def celByte (d : Dev) (a : Nat) : Byte :=
  if 0x80000 ≤ a then d.cel.spill.byte (a - 0x80000)
  else if 0x7C000 ≤ a then Config.journalByte d.freeCtr a
  else d.cel.array.byte a

end Sys2Proof.Machine
end

