-- ==== Sys2Proof/Machine/Field.lean ====
section
/-! DEFINITION. The field island and its mirror (13_field.md). What arises on the island reaches the mirror at once, within
the 5 µs that R254 allows; SAFE shows when the link returns (assumption 44). -/
namespace Sys2Proof.Machine

def Dev.isl (d : Dev) : Island := d.field.isl
def Dev.setIsl (d : Dev) (x : Island) : Dev := { d with field := { d.field with isl := x } }
def bit16 (i : Nat) : BitVec 16 := BitVec.ofNat 16 (2 ^ i)
def put16 (w : BitVec 16) (i : Nat) (b : Bool) : BitVec 16 := if b then w ||| bit16 i else w &&& ~~~ bit16 i

/-! ## The configuration -/

/-- The mirror's configuration words. -/
def mirrorCfg (d : Dev) : List Word :=
  d.reg FLD_CFG :: ((List.range 16).map (fun i => d.reg (FLD_DIO_CFG i)) ++ (List.range 4).map (fun j => d.reg (FLD_AO_CFG j)) ++
    (List.range 4).map (fun j => d.reg (FLD_AO_TRIM j)) ++ (List.range 4).map (fun k => d.reg (FLD_AI_CFG k)))

def cfgDio (c : List Word) (i : Nat) : Word := c.getD (1 + i) 0
def cfgAo (c : List Word) (j : Nat) : Word := c.getD (17 + j) 0
def cfgTrim (c : List Word) (j : Nat) : Word := c.getD (21 + j) 0
def cfgAi (c : List Word) (k : Nat) : Word := c.getD (25 + k) 0

/-- A word of the island's configuration; 0 while it holds none. -/
def Island.dioCfg (x : Island) (i : Nat) : Word := cfgDio (x.cfg.getD []) i
def Island.dioMode (x : Island) (i : Nat) : Nat := bits (x.dioCfg i) 1 0
/-- AI MODE: 3 is taken as 0. -/
def Island.aiMode (x : Island) (k : Nat) : Nat := let m := bits (cfgAi (x.cfg.getD []) k) 1 0; if m = 3 then 0 else m
/-- FLD_TIMEOUT in tick units; without a configuration its reset value (assumption 45). -/
def Island.timeout (x : Island) : Nat := 3000000 * bits ((x.cfg.getD [10]).getD 0 10) 7 0

/-- A committed FLD_CFG: a FLD_TIMEOUT of 0 is ignored. -/
def commitFldCfg (v : Word) (d : Dev) : Dev := if bits v 7 0 = 0 then d else d.setReg FLD_CFG (v &&& 0xFF)

/-! ## Outputs (R120, R259 to R269) -/

/-- The choice of a HOLDST or SAFE field: off, on or the kept level. -/
def keepState (f : Nat) (kept : Bool) : Bool :=
  match f with
  | 1 => true
  | 2 => kept
  | _ => false

/-- The state of DIO output i. -/
def Island.dioLevel (x : Island) (i : Nat) : Bool :=
  if !x.powered || x.uv || x.cfg.isNone || decide (x.dioMode i ≠ 3) || bit x.off i then false
  else if x.safe then !x.cold && keepState (bits (x.dioCfg i) 15 14) (bit x.atSafe i)
  else
    match x.mode with
    | .run => bit x.dout i
    | .hold => keepState (bits (x.dioCfg i) 17 16) (bit x.atHold i)
    | _ => false

/-- The current of an AO word in 1/131,070,000 mA, and whether its driver is on (R262). -/
def aoCurrent (w : Word) : Bool × Nat :=
  let code := bits w 15 0
  match bits w 17 16 with
  | 0 => (true, 2000 * (20 * code))
  | 1 => (true, 2000 * (4 * 65535 + 16 * code))
  | 2 => (true, 2000 * (24 * code))
  | _ => (false, 0)

/-- What AOj drives. -/
def Island.aoWants (x : Island) (j : Fin 4) : Bool × Nat :=
  let a := x.ao[j]
  let c := cfgAo (x.cfg.getD []) j
  match (if x.powered && !x.uv && !x.safe then a.point else none) with
  | some i => (true, i)
  | none =>
  if !x.powered || x.uv || x.cfg.isNone || !a.got || a.shut then (false, 0)
  else if x.safe then (if x.cold || bit c 16 then (false, 0) else (true, 65535 * min 48000 (bits c 15 0)))
  else
    match x.mode with
    | .run => aoCurrent a.word
    | .hold => aoCurrent a.word
    | _ => (false, 0)

/-- The demanded current at an instant: it moves at 1 mA/µs, 43,690 units a tick unit (R262). -/
def AoPin.at_ (a : AoPin) (t : Nat) : Nat :=
  let k := 43690 * (t - a.since)
  if a.start ≤ a.target then min a.target (a.start + k) else max a.target (a.start - k)

/-- The DAC value for a demanded current, in 1/131,070,000 mA (R265). -/
def aoDac (trim : Word) (i : Nat) : Rat := trimmedDac trim (mkRat 131070000 100000) i

/-- AOj begins to approach what it wants, its DAC as the trims in force give it; the points of a trim step are nominal, without
them (R265). An output that turns off is at 0 mA at once. -/
def aoMove (t : Nat) (slews : Bool) (j : Fin 4) (x : Island) : Island :=
  let a := x.ao[j]
  let (on_, goal) := x.aoWants j
  let dac := if !on_ then 0 else if a.point.isSome then (goal : Rat) else aoDac (cfgTrim (x.cfg.getD []) j) goal
  if a.target = goal ∧ a.drive = on_ ∧ a.dac = dac then x
  else { x with ao := x.ao.set j { a with drive := on_, start := if slews then a.at_ t else goal, since := t, target := goal,
                                          dac := dac } }

/-- Every output takes its state at an instant. -/
def Island.drive (t : Nat) (slews : Bool) (x : Island) : Island :=
  let x := forAll 16 (fun i (x : Island) => { x with dio := put16 x.dio i (x.dioLevel i) }) x
  forAll 4 (fun j x => aoMove t slews (Fin.ofNat 4 j) x) x

/-! ## The mirror (R254, R26) -/

/-- The values that arise on the island reach the mirror: the island has power and the link is up (R26, R254). -/
def fieldUp (d : Dev) : Bool := d.isl.powered && d.flag FLD_STAT 0

/-- The mirror's DIN word; every bit that changes counts as changed since the last Capture (R258). -/
def setDin (w : BitVec 16) (d : Dev) : Dev :=
  let old := (d.reg FLD_DIN).setWidth 16
  let d := d.setReg FLD_DIN (w.setWidth 32)
  { d with field := { d.field with dchgs := d.field.dchgs ||| (old ^^^ w) } }

/-- The mirror takes the filtered state of channel i: for an input, event 176 + i and a field wake cause in the direction EDGE
selects (R258). -/
def mirrorDio (i : Fin 16) (level : Bool) (d : Dev) : Dev :=
  if d.flag FLD_DIN i = level then d
  else
    let d := setDin (put16 ((d.reg FLD_DIN).setWidth 16) i level) d
    let edge := d.fld (FLD_DIO_CFG i) 13 12
    let input := decide (d.fld (FLD_DIO_CFG i) 1 0 = 1) || decide (d.fld (FLD_DIO_CFG i) 1 0 = 2)
    if input && (decide (edge = 3) || (decide (edge = 1) && level) || (decide (edge = 2) && !level)) then
      let d := raise (176 + i) d
      { d with pw := { d.pw with wakeReq := d.pw.wakeReq ||| 1 } }
    else d

/-- A channel was latched off: its bit of FLD_DFLT and event 176 + i (R259). -/
def mirrorDioFault (i : Nat) (d : Dev) : Dev := raise (176 + i) (Dev.setFlag FLD_DFLT i true d)

/-- AOj's THERM and COMPL, sticky, and SHUT; event 192 + j for what is reported (R263, R264). -/
def mirrorAo (j : Fin 4) (thrm compl shut : Bool) (d : Dev) : Dev :=
  let a := FLD_AO_STAT j
  let was := d.flag a 2
  let d := if thrm then Dev.setFlag a 0 true d else d
  let d := if compl then Dev.setFlag a 1 true d else d
  let d := Dev.setFlag a 2 shut d
  raiseIf (thrm || compl || (shut && !was)) (192 + j) d

/-- An AI word arrives; OVR or PROT that was not set raises event 196 (R266). -/
def mirrorAi (k : Fin 4) (w : Word) (d : Dev) : Dev :=
  let was := d.reg (FLD_AI k)
  let d := d.setReg (FLD_AI k) (w &&& 0x7FFFFFF)
  let d := { d with field := { d.field with aiAt := d.field.aiAt.set k d.now } }
  raiseIf ((bit w 24 && !bit was 24) || (bit w 25 && !bit was 25)) 196 d

/-- Island status arrives: events 197 for SAFE, 198 for UV and 199 for OVLD as they come up (R256, R261, R268). -/
def mirrorStatus (cfgv safe uv ovld silent imm : Bool) (d : Dev) : Dev :=
  let newSafe := safe && !d.flag FLD_STAT 2
  let newUv := uv && !d.flag FLD_STAT 3
  let d := Dev.setFlag FLD_STAT 1 cfgv (Dev.setFlag FLD_STAT 2 safe (Dev.setFlag FLD_STAT 3 uv d))
  let d := if newSafe && silent then Dev.setFlag FLD_STAT 5 true d else d
  let d := if newSafe && imm then Dev.setFlag FLD_STAT 7 true d else d
  let d := if ovld then raise 199 (Dev.setFlag FLD_STAT 4 true d) else d
  raiseIf newUv 198 (raiseIf newSafe 197 d)

/-- What the mirror knows of the island's configuration: while it holds no valid one, its inputs and AI words read 0 (R255). -/
def mirrorValid (valid : Bool) (d : Dev) : Dev :=
  let d := { d with field := { d.field with valid := valid } }
  if valid then d else forAll 4 (fun k d => d.setReg (FLD_AI k) 0) (setDin 0 d)

/-- The island reports its status, while the link is up (R268). -/
def reportStatus (ovld : Bool) (d : Dev) : Dev :=
  let x := d.isl
  if !fieldUp d then d
  else mirrorValid x.cfg.isSome (mirrorStatus (decide (x.cfg = some (mirrorCfg d))) x.safe x.uv ovld x.silent x.imm d)

/-- The link returns: the island's inputs, latched-off channels and shutdowns, which arose while it was lost, reach the mirror
(DESIGN CHOICE, assumption 44). -/
def linkReturn (d : Dev) : Dev :=
  let x := d.isl
  let d := if x.cfg.isSome then setDin x.din d else d
  let d := forAll 16 (fun i d => if bit x.off i && !d.flag FLD_DFLT i then mirrorDioFault i d else d) d
  forAll 4 (fun j d =>
    let a := x.ao[Fin.ofNat 4 j]
    if a.shut != d.flag (FLD_AO_STAT j) 2 then mirrorAo (Fin.ofNat 4 j) a.shut false a.shut d else d) d

/-- A value or status that the island sent (R254). -/
def fieldReport (r : Sys2Proof.FieldReport) (d : Dev) : Dev :=
  match r with
  | .dio i level => mirrorDio i level d
  | .dioFault i => mirrorDioFault i d
  | .aoFault j thrm compl shut => mirrorAo j thrm compl shut d
  | .ai k w => mirrorAi k w d
  | .env vfield temp => d.setReg FLD_ENV (temp.setWidth 32 <<< (16 : Nat) ||| vfield.setWidth 32)
  | .status cfgv safe uv ovld silent imm =>
    mirrorValid (cfgv || d.field.valid) (mirrorStatus cfgv safe uv ovld silent imm d)

def execFieldReport (r : Sys2Proof.FieldReport) (s : State) : Out := onReady (fieldReport r) s

/-! ## Heartbeat and image (R253 to R256) -/

/-- Where a commit marks that a word of AOj is new (bit 0) and carried FCLR (bit 1). -/
def aoKey (j : Nat) : Nat := 0x2511 + 4 * j

/-- OUTPUT_IMAGE_SEND: the image of the tick, from the device as it will commit. -/
def fieldImage (next : Dev) : IslImage :=
  { dout := (next.reg FLD_DOUT).setWidth 16, dfclr := (next.out 0x2504).setWidth 16, resume := bit (next.out 0x2508) 0,
    ao := Vector.ofFn (fun j : Fin 4 => next.reg (FLD_AO j)),
    fresh := Vector.ofFn (fun j : Fin 4 => bit (next.out (aoKey j)) 0),
    fclr := Vector.ofFn (fun j : Fin 4 => bit (next.out (aoKey j)) 1) }

def sendImage (im : IslImage) (d : Dev) : Dev :=
  let x := d.isl
  if x.powered then d.setIsl { x with image := some im } else d

/-- The mode whose outputs apply: Trim keeps those of the mode it was entered from (R120). -/
def Dev.outMode (d : Dev) : Mode := if d.mode = .trim then d.origin else d.mode

/-- FIELD_HEARTBEAT at every edge: a frame that never arrived counts as lost, and LINK falls without the acknowledgement of
the edge before (R254, assumption 43). A lost frame was an ABANDON: where no tick ran since, its image is gone. -/
def fieldBeat (ran commit : Bool) (d : Dev) : Dev :=
  let d := if d.field.frame.isSome then Dev.count1 FLD_FRERR d else d
  let d := if d.field.frame.isSome && !ran then d.setIsl { d.isl with image := none } else d
  let d := if d.field.acked then d else trimLinkLost 3 { Dev.setFlag FLD_STAT 0 false d with fldLink := false }
  { d with field := { d.field with frame := some (commit, d.outMode), ackDue := false, acked := false } }

/-- The island takes a new configuration: channels whose MODE is unchanged keep their states. -/
def takeCfg (c : List Word) (x : Island) : Island :=
  let y := { x with cfg := some c, newCfg := none }
  forAll 16 (fun i (y : Island) =>
    if y.dioMode i = x.dioMode i then y
    else { y with off := put16 y.off i false, din := put16 y.din i false, agree := y.agree.set (Fin.ofNat 16 i) 0 }) y

/-- DFCLR: the latched-off channels of the mask are released (R260). -/
def islDfclr (m : BitVec 16) (x : Island) : Island := { x with off := x.off &&& ~~~ m }

/-- RESUME: SAFE clears (R268). -/
def islResume (x : Island) : Island := { x with safe := false, silent := false, imm := false, cold := false }

/-- A COMMIT frame: the new configuration, the clears, RESUME, and then the image, gated by the mode; in Hold the AO words
of the edge that entered it stay (R253, R120). -/
def islCommit (m : Mode) (cool : Vector Bool 4) (x : Island) : Island :=
  let x := match x.newCfg with
    | some c => takeCfg c x
    | none => x
  let x := if m = .hold ∧ x.mode ≠ .hold then { x with atHold := x.dio } else x
  let held := decide (m = .hold) && decide (x.mode = .hold)
  let x := { x with mode := m }
  match x.image with
  | none => x
  | some im =>
    let x := islDfclr im.dfclr x
    let x := if im.resume then islResume x else x
    let ao := Vector.ofFn (fun (j : Fin 4) =>
      let a := x.ao[j]
      let a := { a with shut := a.shut && !(im.fclr[j] && cool[j]) }
      if held && a.got then a else { a with word := im.ao[j], got := a.got || (im.fresh[j] && x.cfg.isSome) })
    { x with image := none, dout := im.dout, ao := ao }

/-- Whether the driver of each AO is below 140 °C when an FCLR commits: its temperature is no operand of the frame, so open
(assumption 133). -/
def aoCool (d : Dev) : Vector Bool 4 := Vector.ofFn (fun (j : Fin 4) => Config.roundUp (d.freeCtr + j))

/-- The mirror's SHUT bits after a COMMIT. -/
def mirrorShut (d : Dev) : Dev :=
  if !fieldUp d then d
  else forAll 4 (fun j d => Dev.setFlag (FLD_AO_STAT j) 2 (d.isl.ao[Fin.ofNat 4 j]).shut d) d

/-- ISLAND_EDGE_FRAME: COMMIT applies the buffered image 1 µs after the edge, ABANDON discards it; a corrupt frame, or one
that an unpowered island does not receive, counts as ABANDON without an acknowledgement (R253, R254). `cfgOk`: a configuration
frame sent since the last edge marker arrived complete and valid (R255). -/
def islandEdgeFrame (crcOk cfgOk : Bool) (d : Dev) : Dev :=
  match d.field.frame with
  | none => d
  | some (commit, m) =>
    let d := { d with field := { d.field with frame := none } }
    let x := d.isl
    if !crcOk || !x.powered then Dev.count1 FLD_FRERR (d.setIsl { x with image := none })
    else
      let x := { x with beat := d.now, newCfg := if cfgOk then x.newCfg else none }
      let d := { d with field := { d.field with ackDue := true } }
      if commit then
        let y := islCommit m (aoCool d) x
        let d := { d with freeCtr := d.freeCtr + 4 }
        let d := mirrorShut (d.setIsl (y.drive (d.tick.edgeAt + 3000) true))
        reportStatus false (if fieldUp d && y.cfg.isSome then setDin y.din d else d)
      else d.setIsl { x with image := none }

def execIslandEdgeFrame (f : Sys2Proof.FrameArrival) (s : State) : Out :=
  .next { s with dev := islandEdgeFrame f.crcOk f.cfgOk s.dev }

/-- HEARTBEAT_ACK: LINK, and the status that the island shows from then on (R254, R268). -/
def heartbeatAck (d : Dev) : Dev :=
  if !d.field.ackDue then d
  else
    let was := d.flag FLD_STAT 0
    let d := { Dev.setFlag FLD_STAT 0 true d with fldLink := true, field := { d.field with ackDue := false, acked := true } }
    reportStatus false (if was then d else linkReturn d)

def execHeartbeatAck (s : State) : Out := .next { s with dev := heartbeatAck s.dev }

/-- STOPPED_HEARTBEAT: no edge marker while the tick is stopped or held (R128). LINK stays as the most recent edge left it
(R254). -/
def stoppedHeartbeat (crcOk : Bool) (d : Dev) : Dev :=
  let x := d.isl
  if !crcOk || !x.powered || d.halted || decide (d.tick.phase ≠ .idle) then d
  else d.setIsl { x with beat := d.now }

def execStoppedHeartbeat (crcOk : Bool) (s : State) : Out := .next { s with dev := stoppedHeartbeat crcOk s.dev }

/-- The committed configuration is sent: the island holds it from the next COMMIT (R255). -/
def fieldCfgSend (d : Dev) : Dev :=
  let c := mirrorCfg d
  let x := d.isl
  let d := { d with field := { d.field with sent := some c } }
  if x.powered then d.setIsl { x with newCfg := some c } else d

/-- CONFIG_RESEND: the island reports CFGV = 0 while the link is up, and the mirror holds the configuration it sent (R256).-/
def configResend (d : Dev) : Dev :=
  if d.flag FLD_STAT 0 && !d.flag FLD_STAT 1 && decide (d.field.sent = some (mirrorCfg d)) then
    raise 199 (Dev.setFlag FLD_STAT 6 true (fieldCfgSend d))
  else d

def execConfigResend (s : State) : Out := .next { s with dev := configResend s.dev }

/-! ## Inputs (R257, R258, R266) -/

/-- DIO_SAMPLE: an input's sample is filtered, and a state is accepted after FILT agreeing samples; an output shows its
pin. -/
def dioSample (i : Fin 16) (level : Bool) (d : Dev) : Dev :=
  let x := d.isl
  let level := level && !x.uv
  if !x.powered || x.cfg.isNone || decide (x.dioMode i = 0) then d
  else if level = bit x.din i then d.setIsl { x with agree := x.agree.set i 0 }
  else
    let n := x.agree[i] + 1
    let filt := if x.dioMode i = 3 then 1 else max 1 (bits (x.dioCfg i) 11 8)
    if n < filt then d.setIsl { x with agree := x.agree.set i n }
    else
      let d := d.setIsl { x with agree := x.agree.set i 0, din := put16 x.din i level }
      if fieldUp d then mirrorDio i level d else d

def execDioSample (i : Fin 16) (level : Bool) (s : State) : Out := .next { s with dev := dioSample i level s.dev }

/-- AI_SAMPLE: the reading of a 1 ms window, limited with OVR; a current above 30 mA disconnects the burden (R266). -/
def aiSample (k : Fin 4) (reading : Nat) (hot : Bool) (d : Dev) : Dev :=
  let x := d.isl
  let m := x.aiMode k
  let trimming := decide (d.fld TRM_STAT 1 0 = 1) && decide (d.fld TRM_STAT 7 4 = 5) && decide (d.fld TRM_STAT 10 8 = 0)
  if !x.powered || x.uv || x.cfg.isNone || decide (m = 0) || trimming then d
  else
    let lim := if m = 1 then 52000 else 55000
    let prot := x.prot[k] || (hot && decide (m = 1))
    let seq := x.seq[k] + 1
    let w := min reading lim + 2 ^ 16 * seq.toNat + 2 ^ 24 * b2n (decide (lim < reading)) + 2 ^ 25 * b2n prot + 2 ^ 26
    let d := d.setIsl { x with seq := x.seq.set k seq, prot := x.prot.set k prot }
    if fieldUp d then mirrorAi k (word w) d else d

def execAiSample (k : Fin 4) (reading : Nat) (hot : Bool) (s : State) : Out :=
  .next { s with dev := aiSample k reading hot s.dev }

/-- AI_PROT_END: the burden is connected again. -/
def aiProtEnd (k : Fin 4) (d : Dev) : Dev :=
  let x := d.isl
  if x.prot[k] then
    let d := d.setIsl { x with prot := x.prot.set k false }
    if fieldUp d then Dev.setFlag (FLD_AI k) 25 false d else d
  else d

def execAiProtEnd (k : Fin 4) (s : State) : Out := .next { s with dev := aiProtEnd k s.dev }

/-! ## Output faults (R259 to R264) -/

/-- A driven output is latched off. -/
def dioLatchOff (i : Fin 16) (d : Dev) : Dev :=
  let x := d.isl
  let x := { x with off := put16 x.off i true }
  let d := d.setIsl (x.drive d.now true)
  if fieldUp d then mirrorDioFault i d else d

def dioOverload (i : Fin 16) (d : Dev) : Dev := if bit d.isl.dio i then dioLatchOff i d else d

def execDioOverload (i : Fin 16) (s : State) : Out := .next { s with dev := dioOverload i s.dev }

/-- TOTAL_OVERLOAD: the highest-numbered channel that is on is shed (R261). -/
def totalOverload (d : Dev) : Dev :=
  match ((List.range 16).reverse).find? (fun i => bit d.isl.dio i) with
  | none => d
  | some i => reportStatus true (dioLatchOff (Fin.ofNat 16 i) d)

def execTotalOverload (s : State) : Out := .next { s with dev := totalOverload s.dev }

/-- The instant at which a command of the edge acts on the field pins: 1 µs after it (R253). -/
def pinInstant (d : Dev) : Nat := d.tick.edgeAt + 3000

/-- DFCLR and RESUME of a committed image. -/
def fieldDfclr (m : BitVec 16) (d : Dev) : Dev :=
  let x := d.isl
  if !x.powered then d else d.setIsl ((islDfclr m x).drive (pinInstant d) true)

def fieldResume (d : Dev) : Dev :=
  let x := d.isl
  if !x.powered then d else reportStatus false (d.setIsl ((islResume x).drive (pinInstant d) true))

def execDfclr (m : BitVec 16) (s : State) : Out := atEdge (fieldDfclr m) s
def execResume (s : State) : Out := atEdge fieldResume s

/-- AO_COMPLIANCE: COMPL and event 192 + j. -/
def execAoCompliance (j : Fin 4) (s : State) : Out :=
  .next { s with dev := if fieldUp s.dev then mirrorAo j false true (s.dev.isl.ao[j]).shut s.dev else s.dev }

/-- AO_THERMAL_SHUTDOWN: the output turns off at 0 mA with THERM and SHUT (R264). -/
def aoThermal (j : Fin 4) (d : Dev) : Dev :=
  let x := d.isl
  if !x.powered then d
  else
    let x := { x with ao := x.ao.set j { x.ao[j] with shut := true } }
    let d := d.setIsl (aoMove d.now false j x)
    if fieldUp d then mirrorAo j true false true d else d

def execAoThermalShutdown (j : Fin 4) (s : State) : Out := .next { s with dev := aoThermal j s.dev }

/-- FCLR of a committed AO word: it releases a shutdown while the driver is below 140 °C, and its word applies (R264). -/
def fieldFclr (j : Fin 4) (temp : Int) (d : Dev) : Dev :=
  let x := d.isl
  if !x.powered || decide (140 ≤ temp) || !(x.ao[j]).shut then d
  else
    let x := { x with ao := x.ao.set j { x.ao[j] with shut := false } }
    mirrorShut (d.setIsl (aoMove (pinInstant d) true j x))

def execFclr (j : Fin 4) (temp : Int) (s : State) : Out := atEdge (fieldFclr j temp) s

/-! ## Silence, undervoltage and power (R267 to R270) -/

/-- SAFE is latched. -/
def islSafe (imm : Bool) (t : Nat) (x : Island) : Island :=
  if x.safe then x
  else ({ x with safe := true, silent := !imm, imm := imm, atSafe := x.dio } : Island).drive t true

/-- SILENCE_TIMEOUT: FLD_TIMEOUT has passed since the last valid heartbeat. -/
def silenceTimeout (d : Dev) : Dev :=
  let x := d.isl
  if !x.powered then d
  else
    let d := d.reach (x.beat + x.timeout)
    d.setIsl (islSafe false d.now x)

def execSilenceTimeout (s : State) : Out := .next { s with dev := silenceTimeout s.dev }

/-- IMMEDIATE_SAFE_MARKER, which a Halt sends (R121). -/
def execImmediateSafeMarker (s : State) : Out :=
  let d := s.dev
  .next { s with dev := if d.halted && d.isl.powered then d.setIsl (islSafe true d.now d.isl) else d }

/-- FIELD_UNDERVOLTAGE: every output turns off, inputs read 0, UV and event 198; an island that then loses its power as well
returns under R269 (R270). -/
def fieldUndervoltage (lost : Bool) (d : Dev) : Dev :=
  let x := d.isl
  let d := d.setIsl (({ x with uv := true, din := 0, agree := Vector.replicate 16 0 } : Island).drive d.now false)
  let d := if fieldUp d then
      reportStatus false (forAll 4 (fun k d => d.setReg (FLD_AI k) (d.reg (FLD_AI k) &&& 0x7FF0000)) (setDin 0 d))
    else d
  if lost then d.setIsl { Island.reset with powered := false } else d

def execFieldUndervoltage (lost : Bool) (s : State) : Out := .next { s with dev := fieldUndervoltage lost s.dev }

/-- VFIELD above 17.0 V: normal operation returns. -/
def fieldRecovery (d : Dev) : Dev :=
  let x := d.isl
  if x.powered && x.uv then reportStatus false (d.setIsl (({ x with uv := false } : Island).drive d.now true)) else d

def execVfieldRecovery (s : State) : Out := .next { s with dev := fieldRecovery s.dev }

/-- ISLAND_POWER_UP: SAFE latched with every output off, and no configuration (R269). The segment choices and the oscillator trim
are the factory's again (20_trim.md, steps 3 and 5). -/
def islandPowerUp (d : Dev) : Dev :=
  let d := trimLinkLost 3 (Dev.setFld TRM_SRC 11 8 0 (d.setReg TRM_FOSC 0))
  { d.setIsl { Island.reset with beat := d.now } with trim := { d.trim with seg := Vector.replicate 4 none } }

def execIslandPowerUp (s : State) : Out := .next { s with dev := islandPowerUp s.dev }

/-! ## Capture and ports (R271) -/

/-- The end of Capture: the changed inputs, and the ages of the AI samples at the edge; 0 where there is no sample (R255, R258,
R266). -/
def fieldCapture (d : Dev) : Dev :=
  let age := Vector.ofFn (fun (k : Fin 4) => if d.flag (FLD_AI k) 26 then (d.tick.edgeAt - d.field.aiAt[k]) / 3000 else 0)
  { d with field := { d.field with dchg := d.field.dchgs, dchgs := 0, aiAge := age } }

/-- AIk is configured; the ports of one that is not read 0 (R83). -/
def aiOn (d : Dev) (k : Nat) : Bool := decide (d.fld (FLD_AI_CFG k) 1 0 = 1) || decide (d.fld (FLD_AI_CFG k) 1 0 = 2)

/-- The field ports. While the island holds no valid configuration the mirror's inputs are 0 (R255). -/
def fieldPort (d : Dev) (p : Nat) : Word :=
  if p = 0x2400 then d.reg FLD_DIN
  else if p = 0x2404 then d.field.dchg.setWidth 32
  else if p = 0x2408 then d.reg FLD_STAT &&& 0xFF
  else if p = 0x240C then
    d.reg FLD_DFLT ||| word (65536 * sumList ((List.range 4).map (fun j => 2 ^ j * b2n (d.flag (FLD_AO_STAT j) 2))))
  else if p = 0x2410 then d.reg FLD_ENV
  else if 0x2420 ≤ p ∧ p < 0x2430 then (if aiOn d ((p - 0x2420) / 4) then d.reg (FLD_AI ((p - 0x2420) / 4)) else 0)
  else if 0x2430 ≤ p ∧ p < 0x2440 then
    (if aiOn d ((p - 0x2430) / 4) then word (d.field.aiAge[Fin.ofNat 4 ((p - 0x2430) / 4)]) else 0)
  else 0

end Sys2Proof.Machine
end

