-- ==== Sys2Proof/Machine/Harness.lean ====
section
/-! DEFINITION. The Harness die (15_harness.md): its configuration, its two channels, function slots and safety outputs.
A row that names a time (a timeout, a hold) asserts that the time has passed (assumption 47). -/
namespace Sys2Proof.Machine

def Dev.setHrn (d : Dev) (h : Harness) : Dev := { d with hrn := h }

/-! ## The configuration block (R315, R318) -/

/-- An n-byte field of a configuration. -/
def hcfg (c : List Byte) (o n : Nat) : Nat := leNat ((c.drop o).take n)

/-- Input i: FILT, TPEN, source; its reserved bits. -/
def hIn (c : List Byte) (i : Nat) : Nat := hcfg c (0x10 + 2 * i) 2
def hFilt (c : List Byte) (i : Nat) : Nat := hIn c i % 64
def hTpen (c : List Byte) (i : Nat) : Bool := decide (hIn c i / 128 % 2 = 1)
def hSrc (c : List Byte) (i : Nat) : Nat := hIn c i / 256 % 8

/-- Slot f: byte o. -/
def hSlotByte (c : List Byte) (f o : Nat) : Nat := hcfg c (0x30 + 16 * f + o) 1
def hType (c : List Byte) (f : Nat) : Nat := hSlotByte c f 0
def hMask (c : List Byte) (f x : Nat) : Bool := decide (hSlotByte c f 1 / 2 ^ x % 2 = 1)
def hDemen (c : List Byte) (f : Nat) : Bool := hMask c f 4
def hAuto (c : List Byte) (f : Nat) : Bool := hMask c f 5
def hAntiv (c : List Byte) (f : Nat) : Bool := hMask c f 6
/-- Input k (0 to 3) of slot f. -/
def hInp (c : List Byte) (f k : Nat) : Nat := hSlotByte c f (2 + k)
/-- The inputs that slot f uses. -/
def hInputs (c : List Byte) (f : Nat) : List Nat :=
  if hType c f = 0 then [] else ((List.range 4).map (hInp c f)).filter (fun i => decide (i < 16))

/-- Brake record b: n bytes at o; whether it is used. -/
def bk (c : List Byte) (b o n : Nat) : Nat := hcfg c (0xB0 + 16 * b + o) n
/-- The record is not all zeros; EN says that its brake is used (a record with EN 0 is held to the ranges and input rules of a
used one, and its brake is not used: assumption 135). -/
def bkSome (c : List Byte) (b : Nat) : Bool := !((c.drop (0xB0 + 16 * b)).take 16).all (fun x => decide (x = 0))
def bkUsed (c : List Byte) (b : Nat) : Bool := decide (bk c b 0 1 % 2 = 1)
def bkTest (c : List Byte) (b : Nat) : Bool := decide (bk c b 0 1 / 2 % 2 = 1)
def bkPair (c : List Byte) (b : Nat) : Nat := bk c b 1 1 % 4
def bkReq (c : List Byte) (b : Nat) : Nat := bk c b 2 1
def bkAck (c : List Byte) (b : Nat) : Nat := bk c b 3 1
def bkInputs (c : List Byte) (b : Nat) : List Nat :=
  if bkSome c b then bkReq c b :: (if bkTest c b then [bkAck c b] else []) else []

def slotFormOk (c : List Byte) (f : Nat) : Bool :=
  decide (hType c f ≤ 4) && !hMask c f 7 && decide (hcfg c (0x30 + 16 * f + 8) 8 = 0) &&
  (List.range 4).all (fun k => decide (hInp c f k < 16) || decide (hInp c f k = 0xFF)) &&
  (decide (hType c f = 0) ||
    (decide (2 ≤ hcfg c (0x30 + 16 * f + 6) 2) && decide (hcfg c (0x30 + 16 * f + 6) 2 ≤ 250)))

def brakeFormOk (c : List Byte) (b : Nat) : Bool :=
  let r := bk c b
  !bkSome c b ||
    (decide (r 0 1 < 4) && decide (r 1 1 < 4) && decide (r 2 1 < 16) &&
     (if bkTest c b then decide (r 3 1 < 16) else decide (r 3 1 = 0xFF)) &&
     decide (1 ≤ r 4 2) && decide (r 4 2 ≤ 168) && decide (50 ≤ r 6 2) && decide (r 6 2 ≤ 500) &&
     decide (1 ≤ r 8 2) && decide (r 8 2 ≤ 1000) && decide (100 ≤ r 10 2) && decide (r 10 2 ≤ 2000) &&
     decide (r 10 2 + 100 ≤ r 12 2) && decide (r 12 2 ≤ 2500) && decide (10 ≤ r 14 1) && decide (r 14 1 ≤ 100) &&
     decide (r 15 1 = 0))

/-- FORM: magic, ranges and reserved fields. -/
def hFormOk (c : List Byte) : Bool :=
  decide (hcfg c 0 4 = 0x4E524148) && decide (50 ≤ hcfg c 8 2) && decide (hcfg c 8 2 ≤ 1000) && decide (hcfg c 10 2 = 0) &&
  decide (hcfg c 12 4 < 16) &&
  (List.range 16).all (fun i => decide (hFilt c i ≤ 40) && decide (hIn c i / 64 % 2 = 0) && decide (hIn c i < 2048)) &&
  (List.range 8).all (slotFormOk c) && (List.range 2).all (brakeFormOk c) && decide (hcfg c 0xD0 44 = 0)

/-- CHECK, and the CHECK that the block carries. -/
def hCheck (c : List Byte) : Word := word (hcfg c 0xFC 4)
def hCheckOk (c : List Byte) : Bool := decide (crc32 (c.take 0xFC) = hCheck c)

/-- No number occurs twice. -/
def distinct : List Nat → Bool
  | [] => true
  | x :: t => !t.contains x && distinct t

/-- INPUT: counts for each type, no input used twice, and the rules of light curtains, AUTORST and brake inputs. An unused
slot may name any inputs, and one input twice in a slot counts as used twice (assumption 135). -/
def hInputOk (c : List Byte) : Bool :=
  let need := fun (f : Nat) => if hType c f = 3 then 4 else 2
  (List.range 8).all (fun f => decide (hType c f = 0) || (List.range 4).all (fun k =>
    decide ((hInp c f k < 16) ↔ (k < need f)))) &&
  distinct ((List.range 8).flatMap (hInputs c) ++ bkInputs c 0 ++ bkInputs c 1) &&
  (List.range 8).all (fun f => (decide (hType c f ≠ 4) || (hInputs c f).all (fun i => !hTpen c i)) &&
    (!hAuto c f || decide (hType c f = 2) || decide (hType c f = 4))) &&
  (bkInputs c 0 ++ bkInputs c 1).all (fun i => !hTpen c i)

/-- The refusal code of a proposal; 0 where it is accepted (R315). -/
def hRefuse (c : List Byte) : Nat := if !hFormOk c then 1 else if !hCheckOk c then 2 else if !hInputOk c then 3 else 0

/-- The configuration in force; all zeros without one. -/
def Harness.cfg (h : Harness) : List Byte := h.active.getD []

/-! ## Status (R302, R314) -/

/-- The state of slot f. Each channel takes it as OK only when its own state and the state most recently received from the
other channel are both OK; otherwise the first of them that is not OK is the slot's state (R302). -/
def Harness.func (h : Harness) (f : Fin 8) : Nat :=
  if (h.a.slots[f]).st ≠ 1 then (h.a.slots[f]).st
  else if (h.b.slots[f]).st ≠ 1 then (h.b.slots[f]).st
  else if h.a.got[f] ≠ 1 then h.a.got[f]
  else h.b.got[f]

/-- The exchange of the function states; a lost one leaves what was received before (R302). -/
def shareStates (lost : Bool) (h : Harness) : Harness :=
  if lost then h
  else { h with a := { h.a with got := h.b.slots.map (·.st) }, b := { h.b with got := h.a.slots.map (·.st) } }

/-- DEMAND. -/
def Harness.demand (h : Harness) : Bool :=
  decide (h.state = 2) || decide (h.state = 3) || (decide (h.state = 1) && (List.range 8).any (fun k =>
    let st := h.func (Fin.ofNat 8 k)
    hDemen h.cfg k && decide (st ≠ 0) && decide (st ≠ 1)))

/-- An event of the Harness waits for the next frame. -/
def Harness.event (e : Nat) (h : Harness) : Harness := { h with events := h.events ||| BitVec.ofNat 16 (2 ^ (e - 128)) }

/-- A change, with events 128 and 129 for DEMAND and slot states that it changes (R314). -/
def hWatch (f : Harness → Harness) (h : Harness) : Harness :=
  let h' := f h
  let h'' := if h.demand = h'.demand then h' else h'.event 128
  if (List.range 8).all (fun k => decide (h.func (Fin.ofNat 8 k) = h'.func (Fin.ofNat 8 k))) then h'' else h''.event 129

/-- Set a bit of a sticky word. -/
def Harness.stick (i : Nat) (h : Harness) : Harness := { h with sticky := setBit h.sticky i true }
def Harness.stick2 (i : Nat) (h : Harness) : Harness := { h with sticky2 := setBit h.sticky2 i true }
def Harness.bstick (i : Nat) (h : Harness) : Harness := { h with bsticky := setBit h.bsticky i true }

/-! ## Brake records and aborts (R328) -/

def Harness.brake (h : Harness) (b : Fin 2) : Brake := h.brakes[b]
def Harness.setBrake (h : Harness) (b : Fin 2) (x : Brake) : Harness := { h with brakes := h.brakes.set b x }

/-- A test ends: LAST, CAUSE, COUNT, event 134. -/
def testEnd (b : Fin 2) (last cause : Nat) (h : Harness) : Harness :=
  let x := h.brake b
  (h.setBrake b { x with step := 0, last := last, cause := cause, count := x.count + 1 }).event 134

/-- An abort (R328). -/
def testAbort (b : Fin 2) (cause : Nat) (h : Harness) : Harness :=
  if (h.brake b).step = 0 then h else testEnd b 3 cause h

/-! ## FAULT and start (R303, R304, R313) -/

/-- Every pin de-energised. -/
def Harness.dark (h : Harness) : Harness :=
  { h with pairs := 0, brakes := h.brakes.map (fun b => { b with on := false, onFor := 0 }) }

/-- Every slot of both channels in a state, and seen so by the other. -/
def Harness.allSlots (s : Nat → HSlot) (h : Harness) : Harness :=
  let v : Vector HSlot 8 := Vector.ofFn (fun f : Fin 8 => s f)
  let g := v.map (·.st)
  { h with a := { h.a with slots := v, got := g }, b := { h.b with slots := v, got := g } }

/-- FAULT: every pin de-energised, a running brake test aborted with its pair, every function 0, event 133; only a new VSAFE
leaves it (R303, R328). -/
def hFault (code : Nat) (h : Harness) : Harness :=
  if h.state = 2 then h
  else
    let h := (testAbort 1 1 (testAbort 0 1 h)).dark.allSlots (fun _ => HSlot.reset)
    { h.event 133 with state := 2, fcode := code }

/-- The start of every slot: LOCK for a two-hand slot, DEMAND for the others (R304, R307, assumption 48). -/
def slotStart (c : List Byte) (f : Nat) : HSlot :=
  { HSlot.reset with st := if hType c f = 0 then 0 else if hType c f = 3 then 5 else 2 }

/-- Slots and brakes start with a configuration: DUE is set with no age for each used brake, whose last test and whose coil
fault, if one stands, stay (R313, R316, R322, R324). -/
def hStart (h : Harness) : Harness :=
  let c := h.cfg
  let h := h.dark.allSlots (slotStart c)
  let due := fun (k : Nat) (b : Brake) =>
    if bkUsed c k then { b with due := true, age := none, step := 0 }
    else { Brake.reset with count := b.count, last := b.last, cause := b.cause, move2 := b.move2, move5 := b.move5, hq := b.hq, coilA := b.coilA, coilB := b.coilB }
  let h := { h with brakes := Vector.ofFn (fun k : Fin 2 => due k h.brakes[k]), state := if h.active.isSome then 1 else 0 }
  if (List.range 2).any (bkUsed c) then h.event 139 else h

/-! ## Sampling (R299 to R302) -/

/-- FILT of an input: at least 5 for the inputs of a light-curtain slot (R306). -/
def inFilt (c : List Byte) (i : Nat) : Nat :=
  if (List.range 8).any (fun f => decide (hType c f = 4) && (hInputs c f).contains i) then max 5 (hFilt c i) else hFilt c i

/-- The samples of a masked input do not reach the filter (R300). -/
def Harness.masked (h : Harness) (i : Nat) : Bool := hTpen h.cfg i && decide (0 < h.mask[Fin.ofNat 8 (hSrc h.cfg i)])

def put18 (w : BitVec 18) (i : Nat) (b : Bool) : BitVec 18 :=
  if b then w ||| BitVec.ofNat 18 (2 ^ i) else w &&& ~~~ BitVec.ofNat 18 (2 ^ i)

/-- One channel samples its inputs, HRST and HACK. The samples of a mask but its last two lie within its pulse of 300 µs (R299,
R300). -/
def sampleChan (h : Harness) (s : Sys2Proof.HarnessSample) (ch : HChan) : HChan :=
  let low := if h.mask.any (fun n => decide (3 ≤ n)) then ch.lowSeen ||| ~~~ s.hi else ch.lowSeen
  let ch := { ch with lvl := put18 (put18 ch.lvl 16 s.hrst) 17 s.hack, raw := s.hi, lowSeen := low }
  forAll 16 (fun i (ch : HChan) =>
    let k : Fin 16 := Fin.ofNat 16 i
    if h.masked i then ch
    else if bit s.hi i = bit ch.lvl i then { ch with agree := ch.agree.set k 0 }
    else
      let n := ch.agree[k] + 1
      if n ≤ inFilt h.cfg i then { ch with agree := ch.agree.set k n }
      else { ch with agree := ch.agree.set k 0, lvl := put18 ch.lvl i (bit s.hi i) }) ch

/-- A test-pulse fault of input i: TPFi, and state TPF in every slot that uses it (R301, R304). -/
def tpFault (i : Nat) (h : Harness) : Harness :=
  let h := h.stick i
  let hit := fun (ch : HChan) => { ch with slots := Vector.ofFn (fun f : Fin 8 =>
    let x := ch.slots[f]
    if x.st ≠ 0 ∧ (hInputs h.cfg f).contains i then { x with st := 7 } else x) }
  { h with a := hit h.a, b := hit h.b }

/-- The verdicts of a test pulse of HTx, by its remaining mask. At its last sample (3 left): each input it feeds passes when
both channels read it low at a sample of the pulse, and otherwise has a test-pulse fault. At the first sample after it (2 left):
an input of another source that either channel read low within the pulse only, and high before and after it, has one too
(R300, R301). -/
def pulseVerdict (x : Fin 8) (h : Harness) : Harness :=
  let b := fun (i : Nat) => BitVec.ofNat 16 (2 ^ i)
  let crossed := fun (ch : HChan) (i : Nat) => bit ch.before i && bit ch.lowSeen i && bit ch.raw i
  match h.mask[x] with
  | 3 => forAll 16 (fun i h =>
      if !hTpen h.cfg i || decide (hSrc h.cfg i ≠ x.val) then h
      else if bit h.a.lowSeen i && bit h.b.lowSeen i then { h with tpBad := h.tpBad &&& ~~~ b i }
      else tpFault i { h with tpBad := h.tpBad ||| b i }) h
  | 2 => forAll 16 (fun i h =>
      if hTpen h.cfg i && decide (hSrc h.cfg i ≠ x.val) && (crossed h.a i || crossed h.b i) then
        tpFault i { h with cross := h.cross.set x (h.cross[x] ||| b i) }
      else { h with cross := h.cross.set x (h.cross[x] &&& ~~~ b i) }) h
  | _ => h

def pulseTests (h : Harness) : Harness :=
  let h := forAll 8 (fun x h => pulseVerdict (Fin.ofNat 8 x) h) h
  { h with mask := h.mask.map (· - 1) }

/-- The cause of a test-pulse fault of input i still stands: its latest test pulse failed, or the latest pulse of another output
showed the cross-connection. -/
def Harness.tpCause (h : Harness) (i : Nat) : Bool := hTpen h.cfg i && (bit h.tpBad i || h.cross.any (fun v => bit v i))

/-- The exchange between the channels, and what it faults on (R302). -/
def exchange (t : Sys2Proof.HarnessTrouble) (h : Harness) : Harness :=
  let differ := Vector.ofFn (fun i : Fin 16 => if bit h.a.lvl i = bit h.b.lvl i then 0 else h.differ[i] + 1)
  let h := { h with differ := differ, noEx := if t.exchangeLost then h.noEx + 1 else 0 }
  if differ.toList.any (fun n => decide (8 < n)) then hFault 1 h
  else if 4 ≤ h.noEx then hFault 2 h
  else if t.ratioBad then hFault 3 h
  else if t.configBad then hFault 4 h
  else if t.selfTestBad then hFault 5 h
  else h

/-! ## Slot transitions (R304 to R307) -/

/-- Input k of slot f is closed in a channel: its level, inverted for IN2 of an antivalent slot; open under TPFi. -/
def inClosed (h : Harness) (ch : HChan) (f k : Nat) : Bool :=
  let i := hInp h.cfg f k
  (bit ch.lvl i != (decide (k = 1) && hAntiv h.cfg f)) && !bit h.sticky i

/-- A hand of a two-hand slot (0 left, 1 right) is actuated, or released (R307). -/
def handOn (h : Harness) (ch : HChan) (f k : Nat) : Bool := inClosed h ch f k && !bit ch.lvl (hInp h.cfg f (k + 2))
def handOff (h : Harness) (ch : HChan) (f k : Nat) : Bool := !bit ch.lvl (hInp h.cfg f k) && bit ch.lvl (hInp h.cfg f (k + 2))

/-- A transition of a slot of type 1, 2 or 4. -/
def stepSlot (h : Harness) (ch : HChan) (f : Nat) (x : HSlot) : HSlot :=
  let c0 := inClosed h ch f 0
  let c1 := inClosed h ch f 1
  match x.st with
  | 1 => if c0 && c1 then x else { x with st := 2, fromOk := true, closed := false }
  | 3 => if c0 && c1 then x else { x with st := 2, fromOk := false, closed := false }
  | 2 =>
    if c0 && c1 then { x with st := if hAuto h.cfg f then 1 else 3 }
    else { x with closed := c0 || c1 }
  | 6 => if !c0 && !c1 then { x with st := 2, fromOk := false, closed := false } else x
  | _ => x

/-- A transition of a two-hand slot. -/
def stepHands (h : Harness) (ch : HChan) (f : Nat) (x : HSlot) : HSlot :=
  let on0 := handOn h ch f 0
  let on1 := handOn h ch f 1
  let off0 := handOff h ch f 0
  let off1 := handOff h ch f 1
  match x.st with
  | 5 => if off0 && off1 then { x with st := 2 } else x
  | 2 => if on0 then { x with st := 4, right := false } else if on1 then { x with st := 4, right := true } else x
  | 4 =>
    if (if x.right then off1 else off0) then { x with st := 5 }
    else if (if x.right then on0 else on1) then { x with st := 1 } else x
  | 1 => if off0 || off1 then { x with st := 5 } else x
  | 6 => if off0 && off1 then { x with st := 5 } else x
  | _ => x

/-- The transitions caused by inputs, in one channel. -/
def stepChan (h : Harness) (ch : HChan) : HChan :=
  { ch with slots := Vector.ofFn (fun f : Fin 8 =>
    let x := ch.slots[f]
    if hType h.cfg f = 0 then x else if hType h.cfg f = 3 then stepHands h ch f x else stepSlot h ch f x) }

def stepSlots (h : Harness) : Harness := { h with a := stepChan h h.a, b := stepChan h h.b }

/-- Entry to DISCF: its sticky bit and event 130 (R305). -/
def hDiscf (f : Fin 8) (h : Harness) : Harness :=
  let mv := fun (ch : HChan) => { ch with slots := ch.slots.set f { ch.slots[f] with st := 6 } }
  ({ h with a := mv h.a, b := mv h.b }.stick (16 + f)).event 130

/-! ## Outputs (R308, R309) -/

/-- A slot enables its outputs: OK in both channels, or OFF. -/
def Harness.enables (h : Harness) (f : Fin 8) : Bool := decide (h.func f = 1) || decide (h.func f = 0)

/-- Pair x is to be energised (R308). -/
def Harness.wantPair (h : Harness) (x : Nat) : Bool :=
  let named := (List.range 8).filter (fun f => decide (hType h.cfg f ≠ 0) && hMask h.cfg f x)
  decide (h.state = 1) && h.powered && !h.low && h.writing.isNone && !bit h.ofault x && !named.isEmpty &&
    named.all (fun f => h.enables (Fin.ofNat 8 f))

def setPairs (h : Harness) : Harness :=
  { h with pairs := BitVec.ofNat 4 (sumList ((List.range 4).map (fun x => 2 ^ x * b2n (h.wantPair x)))) }

/-- An output fault of group x: OSHORTx or OOCx, both pins off, event 132 (R309). -/
def outFault (x : Nat) (oc : Bool) (h : Harness) : Harness :=
  let h := { h with ofault := h.ofault ||| BitVec.ofNat 4 (2 ^ x), pairs := h.pairs &&& ~~~ BitVec.ofNat 4 (2 ^ x) }
  (h.stick ((if oc then 28 else 24) + x)).event 132

/-- Successive samples at which a de-energised pin reads high. -/
def highCount (h : Harness) (rd : BitVec 4) (v : Vector Nat 4) : Vector Nat 4 :=
  Vector.ofFn (fun x : Fin 4 => if bit rd x && !bit h.pairs x then v[x] + 1 else 0)

/-- The read-backs of a cycle and the output faults they show. -/
def readBack (sa sb : Sys2Proof.HarnessSample) (h : Harness) : Harness :=
  let h := { h with readA := sa.hoRead, readB := sb.hoRead, highA := highCount h sa.hoRead h.highA,
                    highB := highCount h sb.hoRead h.highB }
  forAll 4 (fun x h =>
    let k : Fin 4 := Fin.ofNat 4 x
    let h := if (bit sa.hoLimit x || bit sb.hoLimit x) && bit h.pairs x then outFault x true h else h
    if h.highA[k] = 4 ∨ h.highB[k] = 4 then outFault x false h else h) h

end Sys2Proof.Machine
end

