-- ==== Sys2Proof/Machine/Brake.lean ====
section
/-! DEFINITION. Safe brakes and their test (16_brake.md). Times are counted in Harness cycles of 250 µs. -/
namespace Sys2Proof.Machine

/-- Input i as both channels accept it: high in both, low in both. -/
def Harness.high (h : Harness) (i : Nat) : Bool := bit h.a.lvl i && bit h.b.lvl i
def Harness.lowIn (h : Harness) (i : Nat) : Bool := !bit h.a.lvl i && !bit h.b.lvl i

/-! ## The test (R325 to R328) -/

/-- The verdict at the end of step 6 (R327). -/
def testVerdict (b : Fin 2) (h : Harness) : Harness :=
  let x := h.brake b
  let tol := bk h.cfg b 8 2
  if x.hqErr then testEnd b 2 4 (h.bstick (2 + b))
  else if tol < x.move2 then testEnd b 2 5 (h.bstick (2 + b))
  else if tol < x.move5 then testEnd b 2 6 (h.bstick (2 + b))
  else testEnd b 1 0 (h.setBrake b { x with due := false, overdue := false, age := some 0 })

/-- A step begins; in steps 2 and 5 each channel holds the HQ count it starts at. -/
def testStep (b : Fin 2) (n : Nat) (h : Harness) : Harness :=
  let x := h.brake b
  h.setBrake b { x with step := n, hq := x.hq.map (fun q => { q with start := q.n }) }

/-- TEST_STEP_ADVANCE and the aborts of one cycle. -/
def testCycle (b : Fin 2) (h : Harness) : Harness :=
  let x := h.brake b
  let up := h.high (bkAck h.cfg b)
  let dn := h.lowIn (bkAck h.cfg b)
  if x.step = 0 then h
  else if !bit h.pairs (bkPair h.cfg b) then testAbort b 1 h
  else
    match x.step with
    | 1 => if up then testStep b 2 h else h
    | 2 => if up then h else testAbort b 3 h
    | 3 => if dn then testStep b 4 h else h
    | 4 => if up then testStep b 5 h else h
    | 5 => if up then h else testAbort b 3 h
    | _ => if dn then testVerdict b h else h

/-- Every condition of R325 under which a test of brake b starts; SETTLE × 10 ms is SETTLE × 40 cycles. -/
def testReady (b : Fin 2) (h : Harness) : Bool :=
  let x := h.brake b
  let c := h.cfg
  decide (h.state = 1) && h.powered && bkUsed c b && bkTest c b && x.due && !x.on && decide (x.step = 0) &&
    decide (40 * bk c b 14 1 ≤ x.offFor) && decide (x.coilA < 30) && decide (x.coilB < 30) && bit h.pairs (bkPair c b) && h.lowIn (bkReq c b) && h.lowIn (bkAck c b)

/-- BRAKE_TEST_START: the first cycle at which the conditions hold; brake 0 goes first, and brake 1 waits for its end. -/
def testStart (b : Fin 2) (h : Harness) : Harness :=
  let other := (h.brake (1 - b)).step
  if !testReady b h || decide (other ≠ 0) || (decide (b = 1) && testReady 0 h) then h
  else h.setBrake b { h.brake b with step := 1, move2 := 0, move5 := 0, hqErr := false }

/-- TEST_HOLD_END: TPH has passed in a hold step of the running test. -/
def testHold (h : Harness) : Harness :=
  forAll 2 (fun k h =>
    let b : Fin 2 := Fin.ofNat 2 k
    match (h.brake b).step with
    | 2 => testStep b 3 h
    | 5 => testStep b 6 h
    | _ => h) h

/-- TEST_ACK_TIMEOUT: 500 ms have passed in a step that waits for ACKIN. -/
def testTimeout (h : Harness) : Harness :=
  forAll 2 (fun k h =>
    let b : Fin 2 := Fin.ofNat 2 k
    match (h.brake b).step with
    | 1 => testAbort b 2 h
    | 3 => testAbort b 2 h
    | 4 => testAbort b 2 h
    | 6 => testAbort b 2 h
    | _ => h) h

/-! ## Switching and the coil (R320, R322) -/

/-- A coil fault: both switches off, BFLTb, event 131; a running test aborts, with a CAUSE that the manual does not state
(assumption 23). -/
def coilFault (b : Fin 2) (free : Nat) (h : Harness) : Harness :=
  let h := testAbort b (1 + free % 6) h
  ((h.setBrake b { h.brake b with fault := true, on := false, onFor := 0 }).bstick b).event 131

/-- Brake b is to be energised; a release while DUE is set is refused. -/
def brakeSwitch (b : Fin 2) (h : Harness) : Harness :=
  let x := h.brake b
  let c := h.cfg
  let want := decide (h.state = 1) && h.powered && !h.low && h.writing.isNone && bkUsed c b &&
    bit h.pairs (bkPair c b) && h.high (bkReq c b) && !x.fault && decide (x.step = 0)
  let on_ := want && (x.on || !x.due)
  h.setBrake b { x with on := on_, onFor := if on_ then x.onFor + 1 else 0, offFor := if on_ then 0 else x.offFor + 1 }

/-- LOCKED: the brake is applied and a release would be refused. -/
def Brake.locked (x : Brake) : Bool := x.due && !x.on

/-- One cycle of coil monitoring: currents, and how long each of the conditions of R322 has stood. -/
def coilWatch (b : Fin 2) (free : Nat) (ma mb : Nat) (swA swB : Bool) (h : Harness) : Harness :=
  let x := h.brake b
  let c := h.cfg
  let out := fun (m : Nat) => decide (m < bk c b 10 2) || decide (bk c b 12 2 < m)
  let x := { x with coilA := ma, coilB := mb, age := x.age.map (· + 1),
                    badFor := if x.on && decide (1200 ≤ x.onFor) && (out ma || out mb) then x.badFor + 1 else 0,
                    hotFor := if !x.on && (decide (30 < ma) || decide (30 < mb)) then x.hotFor + 1 else 0,
                    swFor := if !x.on && (swA || swB) then x.swFor + 1 else 0 }
  let h := h.setBrake b x
  if bkUsed c b && !x.fault && (decide (400 ≤ x.badFor) || decide (1200 ≤ x.hotFor) || decide (4 ≤ x.swFor)) then
    coilFault b free h
  else h

/-! ## HQ counts (R323) -/

/-- Quadrature position of a level pair (A, B). -/
def quadPos (a b : Bool) : Nat := match a, b with
  | false, false => 0
  | true, false => 1
  | true, true => 2
  | false, true => 3

/-- HQ_COUNT: between two samples of a channel, a change of one signal counts up or down; a change of both sets HQERR. Steps 2
and 5 record the largest difference of either channel (R323, R327). -/
def hqCount (b ch : Fin 2) (qa qb : Bool) (h : Harness) : Harness :=
  let x := h.brake b
  let q := x.hq[ch]
  let moved := (quadPos qa qb + 4 - quadPos (bit q.lvl 0) (bit q.lvl 1)) % 4
  let q := { q with lvl := BitVec.ofNat 2 (b2n qa + 2 * b2n qb),
                    n := match moved with
                      | 1 => q.n + 1
                      | 3 => q.n - 1
                      | _ => q.n }
  let x := { x with hq := x.hq.set ch q, hqErr := x.hqErr || (decide (moved = 2) && decide (x.step ≠ 0)) }
  let diff := (q.n - q.start).natAbs
  h.setBrake b (match x.step with
    | 2 => { x with move2 := max x.move2 diff }
    | 5 => { x with move5 := max x.move5 diff }
    | _ => x)

/-- BRAKE_DUE and BRAKE_OVERDUE: the age reaches INTERVAL, or twice INTERVAL (R324). An hour is 14,400,000 cycles. -/
def brakeDue (b : Fin 2) (times : Nat) (h : Harness) : Harness :=
  let x := h.brake b
  let age := x.age.map (fun a => max a (times * 14400000 * bk h.cfg b 4 2))
  if !bkUsed h.cfg b || !h.powered then h
  else if times = 1 then
    (if x.due then h else (h.setBrake b { x with due := true, age := age }).event 139)
  else if x.overdue then h
  else ((h.setBrake b { x with due := true, overdue := true, age := age }).bstick (4 + b)).event 139

/-! ## The words of the status frame -/

/-- The brake word of brake b. -/
def brakeWord (x : Brake) : Nat :=
  let req := [1, 2, 4, 5].contains x.step
  x.step + 16 * b2n req + 32 * b2n (decide (4 ≤ x.step) && req) + 64 * x.last + 256 * b2n x.on + 512 * b2n x.due +
    1024 * b2n x.overdue + 2048 * b2n x.locked + 4096 * b2n x.fault

/-- HRN_BTb_AGE: minutes since the last pass. -/
def brakeAge (x : Brake) : Nat := match x.age with
  | none => 0xFFFFFFFF
  | some n => min 0xFFFFFFFF (n / 240000)

/-- The four test registers of brake b. -/
def brakeRegs (b : Nat) (x : Brake) : List (Nat × Word) :=
  [(HRN_BT_STAT b, word (x.last + 256 * x.cause + 65536 * (x.count % 65536))),
   (HRN_BT_MOVE b, word (min 65535 x.move2 + 65536 * min 65535 x.move5)),
   (HRN_BT_AGE b, word (brakeAge x)), (HRN_BT_COIL b, word (min 65535 x.coilA + 65536 * min 65535 x.coilB))]

end Sys2Proof.Machine
end

