-- ==== Sys2Proof/Machine/HarnessRows.lean ====
section
/-! DEFINITION. The steps of the Harness and of its mirror (15_harness.md, 16_brake.md). -/
namespace Sys2Proof.Machine

/-- A step of the Harness while it has VSAFE and is not in FAULT. -/
def hrnStep (f : Harness → Harness) (s : State) : Out :=
  let h := s.dev.hrn
  .next { s with dev := if h.powered && decide (h.state ≠ 2) then s.dev.setHrn (hWatch f h) else s.dev }

/-! ## The steps of a reset (R311) -/

/-- Step 1: the sticky bits whose cause is no longer present clear. -/
def clearStickies (h : Harness) : Harness :=
  let keep := fun (i : Nat) =>
    if i < 16 then h.tpCause i
    else if i < 24 then decide (h.func (Fin.ofNat 8 (i - 16)) = 6)
    else bit h.ofault (i % 4) && (bit h.readA (i % 4) || bit h.readB (i % 4))
  let st := forAll 32 (fun i w => if keep i then w else setBit w i false) h.sticky
  let st2 := if h.low then h.sticky2 &&& 4 else 0
  let kb := fun (i : Nat) =>
    let x := h.brake (Fin.ofNat 2 i)
    if i < 2 then x.fault && (decide (30 ≤ x.coilA) || decide (30 ≤ x.coilB)) else if i < 4 then decide (x.last = 2) else x.overdue
  let bs := forAll 6 (fun i w => if kb i then w else setBit w i false) h.bsticky
  { h with sticky := st, sticky2 := st2, bsticky := bs }

/-- Step 2: TPF slots whose inputs all passed go to DEMAND, and faults whose pins read low or whose coil is cold clear. -/
def clearFaults (h : Harness) : Harness :=
  let c := h.cfg
  let mv := fun (ch : HChan) => { ch with slots := Vector.ofFn (fun f : Fin 8 =>
    let x := ch.slots[f]
    if x.st = 7 ∧ (hInputs c f).all (fun i => !(hTpen c i && bit h.tpBad i)) then { x with st := 2, fromOk := false, closed := false } else x) }
  let cold := fun (x : Brake) => if x.coilA < 30 ∧ x.coilB < 30 then { x with fault := false } else x
  { h with a := mv h.a, b := mv h.b, ofault := h.ofault &&& (h.readA ||| h.readB), brakes := h.brakes.map cold }

/-- Step 3: READY slots go to OK (step 2 makes none). -/
def readyToOk (h : Harness) : Harness :=
  let mv := fun (ch : HChan) => { ch with slots := ch.slots.map (fun x => if x.st = 3 then { x with st := 1 } else x) }
  { h with a := mv h.a, b := mv h.b }

/-- An accepted reset (R311). -/
def resetSteps (h : Harness) : Harness :=
  ({ readyToOk (clearFaults (clearStickies h)) with rstCnt := h.rstCnt + 1 } : Harness).event 135

/-- In this cycle the later channel sees HRST fall, and the other sees it low. -/
def hrstFell (was h : Harness) : Bool :=
  (bit was.a.lvl 16 || bit was.b.lvl 16) && !bit h.a.lvl 16 && !bit h.b.lvl 16

/-! ## The cycle (R312) -/

/-- The hold of HACK: it begins with a pending configuration, and an energised pair breaks it (R316). -/
def hackWatch (was : Bool) (h : Harness) : Harness :=
  let now := bit h.a.lvl 17
  { h with hackOk := if now && !was then h.pend.isSome && decide (h.pairs = 0) else h.hackOk && decide (h.pairs = 0) }

/-- One cycle of both channels, in the order of R312: sampling and filtering; test-pulse faults and the exchange of levels;
transitions caused by inputs; an accepted reset; the exchange of states; outputs, brakes and tests. -/
def harnessCycle (free : Nat) (sa sb : Sys2Proof.HarnessSample) (t : Sys2Proof.HarnessTrouble) (rst : Harness → Harness → Harness)
    (h : Harness) : Harness :=
  let was := h
  let h := { h with a := sampleChan h sa h.a, b := sampleChan h sb h.b }
  let h := exchange t (pulseTests h)
  if h.state = 2 then { h with readA := sa.hoRead, readB := sb.hoRead }
  else
    let h := rst was (readBack sa sb (if h.low then h else stepSlots h))
    let h := setPairs (shareStates t.exchangeLost h)
    let h := coilWatch 0 free sa.coil0 sb.coil0 (bit sa.hbRead 0) (bit sb.hbRead 0) h
    let h := coilWatch 1 free sa.coil1 sb.coil1 (bit sa.hbRead 1) (bit sb.hbRead 1) h
    let h := testCycle 1 (testCycle 0 h)
    hackWatch (bit was.a.lvl 17) (brakeSwitch 1 (brakeSwitch 0 h))

/-- HARNESS_CYCLE: a cycle without an accepted reset. -/
def execHarnessCycle (sa sb : Sys2Proof.HarnessSample) (t : Sys2Proof.HarnessTrouble) (s : State) : Out :=
  let free := (Config.freeWord s.dev.freeCtr).toNat
  hrnStep (harnessCycle free sa sb t (fun _ h => h)) { s with dev := s.dev.tickFree }

/-- TEST_PULSE: HTx goes low for 300 µs. The channels hold the levels before it; where it begins at most 50 µs before a sample
(`two`), two samples lie within it and four within the 0.8 ms of the mask, else one and three. Those samples of the inputs it feeds
do not reach the filter, and the cycles judge the pulse (R300). -/
def testPulse (x : Fin 8) (two : Bool) (h : Harness) : Harness :=
  let arm := fun (ch : HChan) => { ch with before := ch.raw, lowSeen := 0 }
  { h with mask := h.mask.set x (if two then 4 else 3), a := arm h.a, b := arm h.b }

def execTestPulse (x : Fin 8) (two : Bool) (s : State) : Out := hrnStep (testPulse x two) s

/-- OUTPUT_DIP: an energised pin of a pair with ODIP is dipped; one that does not read low is an output fault (R309). -/
def execOutputDip (x : Fin 4) (low : Bool) (s : State) : Out :=
  hrnStep (fun h => if bit h.pairs x && decide (hcfg h.cfg 12 4 / 2 ^ x.val % 2 = 1) && !low then outFault x false h else h) s

/-- DISCREPANCY_TIMEOUT: DISC has passed while the inputs of slot f disagree (R304, R307). A slot that left READY for DEMAND by
one input counts its other input as the one that is closed (DEDUCED, assumption 134). -/
def disagrees (h : Harness) (f : Fin 8) (ch : HChan) : Bool :=
  let x := ch.slots[f]
  if hType h.cfg f = 3 then
    decide (x.st ≠ 0) && decide (x.st ≠ 6) && decide (x.st ≠ 7) && (List.range 2).any (fun k => !handOn h ch f k && !handOff h ch f k)
  else decide (x.st = 2) && (inClosed h ch f 0 != inClosed h ch f 1) && (x.fromOk || x.closed)

def execDiscrepancyTimeout (f : Fin 8) (s : State) : Out :=
  hrnStep (fun h => if !h.low && (disagrees h f h.a || disagrees h f h.b) then hDiscf f h else h) s

/-- SYNCHRONISM_TIMEOUT: the 500 ms window of an ARMED two-hand slot has passed (R307). -/
def syncTimeout (f : Fin 8) (h : Harness) : Harness :=
  let mv := fun (ch : HChan) =>
    if (ch.slots[f]).st = 4 then { ch with slots := ch.slots.set f { ch.slots[f] with st := 5 } } else ch
  { h with a := mv h.a, b := mv h.b }

def execSynchronismTimeout (f : Fin 8) (s : State) : Out := hrnStep (syncTimeout f) s

/-! ## Reset (R311) -/

/-- HARNESS_RESET: the cycle in which HRST falls after both channels saw it high for `ms`. A hold of 100 ms to 3,000 ms is
accepted, at its place in the cycle: after the transitions that inputs cause, before the outputs are set (R311, R312). -/
def harnessReset (ms : Nat) (was h : Harness) : Harness :=
  if 100 ≤ ms ∧ ms ≤ 3000 ∧ hrstFell was h = true then resetSteps h else h

def execHarnessReset (r : Sys2Proof.ResetCycle) (s : State) : Out :=
  let free := (Config.freeWord s.dev.freeCtr).toNat
  hrnStep (harnessCycle free r.sa r.sb r.trouble (harnessReset r.heldMs)) { s with dev := s.dev.tickFree }

/-- HRST_TOO_LONG: RSTLONG; a bit of HRN_STICKY2 set is event 141. -/
def execHrstTooLong (s : State) : Out := hrnStep (fun h => (h.stick2 0).event 141) s

/-! ## Status frames (R298) -/

/-- HRN_STAT but for LINK and ECHOV. -/
def hrnStatWord (h : Harness) : Word :=
  word (h.state + 4 * b2n h.demand + 8 * b2n h.pend.isSome + 32 * b2n h.low + 256 * h.fcode)

/-- HRN_OUT. -/
def hrnOutWord (h : Harness) : Word :=
  word (sumList ((List.range 4).map (fun x => 2 ^ (2 * x) * b2n (bit h.readA x) + 2 ^ (2 * x + 1) * b2n (bit h.readB x))) +
    256 * h.pairs.toNat + 4096 * b2n (h.brake 0).on + 8192 * b2n (h.brake 1).on)

/-- The 16 bytes of echo of a frame: parts 0 to 15 of the active, then of the pending configuration. -/
def echoWords (h : Harness) : List (Nat × Word) :=
  let blk := if h.part < 16 then h.active.getD [] else h.pend.getD []
  let at_ := if h.part < 16 then HRN_ACFG (4 * h.part) else HRN_PCFG (4 * (h.part - 16))
  (List.range 4).map (fun i => (at_ + 4 * i, word (hcfg blk (16 * (h.part % 16) + 4 * i) 4)))

/-- The registers whose change is a change of the status frame for R131. -/
def frameState (h : Harness) : List (Nat × Word) :=
  let check := fun (o : Option (List Byte)) => match o with
    | some c => hCheck c
    | none => 0
  [(HRN_FUNC, word (sumList ((List.range 8).map (fun k => 16 ^ k * h.func (Fin.ofNat 8 k))))),
   (HRN_INA, h.a.lvl.setWidth 32), (HRN_INB, h.b.lvl.setWidth 32), (HRN_OUT, hrnOutWord h),
   (HRN_STICKY, h.sticky), (HRN_STICKY2, h.sticky2), (HRN_ACRC, check h.active), (HRN_PCRC, check h.pend),
   (HRN_RSTCNT, h.rstCnt), (HRN_BSTICKY, h.bsticky), (HRN_SEALSTAT, h.sealW),
   (HRN_BRK, word (brakeWord (h.brake 0) + 65536 * brakeWord (h.brake 1)))]

/-- STATUS_FRAME: the frame that channel A's timing sends. -/
def statusFrame (h : Harness) : Harness :=
  let seq := h.seq + 1
  let f : HFrame := { vals := (HRN_STAT, hrnStatWord h) :: (frameState h ++ brakeRegs 0 (h.brake 0) ++ brakeRegs 1 (h.brake 1) ++ echoWords h), events := h.events, seq := seq, part := h.part }
  { h with seq := seq, part := (h.part + 1) % 32, frame := some f }

def execStatusFrame (s : State) : Out :=
  let h := s.dev.hrn
  .next { s with dev := if h.powered then s.dev.setHrn (statusFrame h) else s.dev }

/-- The Harness link changes: SYS_CAPS.HRNLINK, HRN_STAT.LINK, event 140. -/
def hrnLinkSet (up : Bool) (d : Dev) : Dev :=
  if d.hrnLink = up then d else raise 140 (Dev.setFlag HRN_STAT 31 up { d with hrnLink := up })

/-- A Harness wake cause (R131). -/
def hrnWake (d : Dev) : Dev := { d with pw := { d.pw with wakeReq := d.pw.wakeReq ||| 2 } }

/-- The cause of event 128 + e still stands as the mirror shows it: a discrepancy, a coil or output fault, the FAULT state, a test
that is due, a bit of HRN_STICKY2. The other Harness events tell of a change that is over (DESIGN CHOICE, assumption 115). -/
def hrnCause (e : Nat) (d : Dev) : Bool :=
  match e with
  | 2 => decide (d.fld HRN_STICKY 23 16 ≠ 0)
  | 3 => d.flag HRN_BRK 12 || d.flag HRN_BRK 28
  | 4 => decide (d.fld HRN_STICKY 31 24 ≠ 0)
  | 5 => decide (d.fld HRN_STAT 1 0 = 2)
  | 11 => decide (d.fld HRN_BRK 10 9 ≠ 0) || decide (d.fld HRN_BRK 26 25 ≠ 0)
  | 13 => decide (d.fld HRN_STICKY2 2 0 ≠ 0)
  | _ => false

/-- A reset of the Harness that the frame shows as accepted clears the bits of EVT_STICKY4 whose cause is over (R365). -/
def hrnEventClear (d : Dev) : Dev :=
  forAll 16 (fun e d => if hrnCause e d then d else Dev.setFlag EVT_STICKY4 e false d) d

/-- A valid frame in the mirror: the registers (HRN_SEALSTAT reads 1 while the proposal is on the sealing line), ECHOV, a wake cause where the status changed (its sequence number and echo
apart, assumption 116), and the events whose cause it shows. -/
def frameTake (f : HFrame) (d : Dev) : Dev :=
  let stat0 := setBit (setBit (d.reg HRN_STAT) 31 false) 4 false
  let old := f.vals.map (fun e => (e.1, if e.1 = HRN_STAT then stat0 else d.reg e.1))
  let quiet := fun (e : Nat × Word) => decide (HRN_ACFG 0 ≤ e.1)
  let changed := decide (old.filter (fun e => !quiet e) ≠ f.vals.filter (fun e => !quiet e))
  let cfgNew := f.vals.any (fun e => (decide (e.1 = HRN_ACRC) || decide (e.1 = HRN_PCRC)) && decide (d.reg e.1 ≠ e.2))
  let echo := (if cfgNew then 0 else d.hrn.echo) ||| BitVec.ofNat 32 (2 ^ f.part)
  let sending := d.hrn.line.isSome
  let d := f.vals.foldl (fun d e => if sending && decide (e.1 = HRN_SEALSTAT) then d else d.setReg e.1 e.2) d
  let d := Dev.setFlag HRN_STAT 4 (decide (echo.toNat = 2 ^ 32 - 1)) (Dev.setFlag HRN_STAT 31 d.hrnLink d)
  let d := d.setReg HRN_SEQ (f.seq.setWidth 32)
  let d := d.setHrn { d.hrn with echo := echo, events := d.hrn.events &&& ~~~ f.events, seen := some f.seq }
  let d := if changed then hrnWake d else d
  let d := if bit f.events 7 then hrnEventClear d else d
  forAll 15 (fun e d => raiseIf (bit f.events e) (128 + e) d) d

/-- STATUS_FRAME_RECEIVE: a valid frame is kept; a bad check, or a gap in the sequence, counts in HRN_FRERR. -/
def frameReceive (crcOk : Bool) (d : Dev) : Dev :=
  match d.hrn.frame with
  | none => d
  | some f =>
    let d := d.setHrn { d.hrn with frame := none }
    if !crcOk then Dev.count1 HRN_FRERR (d.setHrn { d.hrn with seen := d.hrn.seen.map (· + 1) })
    else
      let gap := match d.hrn.seen with
        | some n => decide (f.seq ≠ n + 1)
        | none => false
      frameTake f (hrnLinkSet true (if gap then Dev.count1 HRN_FRERR d else d))

def execStatusFrameReceive (crcOk : Bool) (s : State) : Out := onReady (frameReceive crcOk) s

/-! ## Sealed configuration (R315 to R317) -/

/-- HRN_SEALCMD.SEND in Commission: the committed HRN_PROP goes over the sealing line. -/
def sealSend (d : Dev) : Dev :=
  let bytes := (List.range 64).flatMap (fun i => leBytes (d.reg (HRN_PROP i)).toNat 4)
  Dev.setReg (d.setHrn { d.hrn with line := some bytes }) HRN_SEALSTAT 1

/-- PROPOSAL_RECEIVE: the proposal becomes pending, or is refused with the first code that applies; one that reaches a Harness
without VSAFE or in FAULT is lost. The outcome shows in the next frame. A refused proposal that arrives during a hold of HACK is a
new proposal of R316 too (DEDUCED, assumption 135). -/
def proposalReceive (transferOk : Bool) (h : Harness) : Harness :=
  match h.line with
  | none => h
  | some c =>
    let h := { h with line := none }
    let code := if hRefuse c ≠ 0 then hRefuse c else if transferOk then 0 else 4
    if code ≠ 0 then { h with sealW := word (3 + 256 * code), hackOk := false }.event 137
    else { h with pend := some c, sealW := 2, hackOk := false }.event 136

def execProposalReceive (transferOk : Bool) (s : State) : Out :=
  let h := s.dev.hrn
  if h.powered && decide (h.state ≠ 2) then hrnStep (proposalReceive transferOk) s
  else .next { s with dev := s.dev.setHrn { h with line := none } }

/-- PENDING_EXPIRY: 600 s after it arrived. -/
def execPendingExpiry (s : State) : Out :=
  hrnStep (fun h => if h.pend.isSome && h.writing.isNone then ({ h with pend := none, hackOk := false } : Harness).event 142 else h) s

/-- CONFIG_ACTIVATE: the falling edge of HACK. The write goes over the older copy, which is lost; outputs stay de-energised until
it has ended (R316, R317). -/
def configActivate (ms : Nat) (both : Bool) (h : Harness) : Harness :=
  match h.pend with
  | some c =>
    if decide (2000 ≤ ms) && decide (ms ≤ 5000) && both && h.hackOk && decide (h.pairs = 0) then
      { h.dark with writing := some c, prev := none, hackOk := false }
    else ({ h with hackOk := false } : Harness).stick2 1 |>.event 141
  | none => ({ h with hackOk := false } : Harness).stick2 1 |>.event 141

def execConfigActivate (ms : Nat) (both : Bool) (s : State) : Out := hrnStep (configActivate ms both) s

/-- CONFIG_WRITE_END: the configuration is active, the slots restart, event 138; channels that disagree fault (R302). -/
def configWriteEnd (agree : Bool) (h : Harness) : Harness :=
  match h.writing with
  | none => h
  | some c =>
    let h := { h with writing := none }
    if !agree then hFault 4 h
    else (hStart { h with active := some c, prev := h.active, pend := none }).event 138

def execConfigWriteEnd (agree : Bool) (s : State) : Out := hrnStep (configWriteEnd agree) s

/-! ## VSAFE (R313) -/

/-- VSAFE rises: an unfinished write is lost (R317), and so are stickies, the pending configuration and every record of a test;
STATE reads 3. -/
def vsafeBegin (h : Harness) : Harness :=
  { Harness.reset with powered := true, active := h.active, prev := h.prev, seq := h.seq, seen := h.seen, echo := h.echo }

/-- The self-test and the check of the active configuration have ended: the newer copy whose check passes is used, every slot
starts, or the Harness enters FAULT (R302, R313, R317). -/
def vsafeTested (ok newerOk : Bool) (h : Harness) : Harness :=
  let cfg := if newerOk then h.active else h.prev
  if h.state ≠ 3 then h
  else if !ok then hFault 5 h
  else if !(cfg.all hCheckOk) || (cfg.isNone && h.active.isSome) then hFault 4 h
  else hStart { h with state := 0, active := cfg, prev := if newerOk then h.prev else none }

/-- VSAFE_POWER_UP: VSAFE rises, or the start-up test that follows ends. -/
def execVsafePowerUp (e : Sys2Proof.VsafeUp) (s : State) : Out :=
  match e with
  | .begin => .next { s with dev := s.dev.setHrn (vsafeBegin s.dev.hrn) }
  | .tested ok newerOk => hrnStep (vsafeTested ok newerOk) s

/-- VSAFE_LOW: every pin de-energised, every slot but OFF in DEMAND, VSLOW; a running brake test ends without a record (R313,
23_electrical.md). -/
def vsafeLow (h : Harness) : Harness :=
  let mv := fun (ch : HChan) => { ch with slots := ch.slots.map (fun (x : HSlot) =>
    if x.st = 0 then x else { x with st := 2, fromOk := false, closed := false }) }
  let h := { h with brakes := h.brakes.map (fun (b : Brake) => { b with step := 0 }) }
  ({ h.dark with low := true, a := mv h.a, b := mv h.b } : Harness).stick2 2 |>.event 141

def execVsafeLow (s : State) : Out := hrnStep vsafeLow s

/-- VSAFE is above its upper threshold again (R407). -/
def execVsafeRecovery (s : State) : Out := hrnStep (fun h => { h with low := false }) s

/-! ## Brakes -/

def execHqCount (q : Sys2Proof.HqInput) (qa qb : Bool) (s : State) : Out := hrnStep (hqCount q.b q.ch qa qb) s
def execCoilFault (b : Fin 2) (s : State) : Out :=
  let free := (Config.freeWord s.dev.freeCtr).toNat
  hrnStep (fun h => if bkUsed h.cfg b && !(h.brake b).fault then coilFault b free h else h) { s with dev := s.dev.tickFree }
def execBrakeDue (b : Fin 2) (s : State) : Out := hrnStep (brakeDue b 1) s
def execBrakeOverdue (b : Fin 2) (s : State) : Out := hrnStep (brakeDue b 2) s
def execBrakeTestStart (b : Fin 2) (s : State) : Out := hrnStep (testStart b) s
def execTestHoldEnd (s : State) : Out := hrnStep testHold s
def execTestAckTimeout (s : State) : Out := hrnStep testTimeout s

/-! ## Ports -/

/-- Ports 0x2700 to 0x2724. -/
def hrnPort (d : Dev) (p : Nat) : Word := if p ≤ 0x2724 then d.reg (HRN_STAT + (p - 0x2700)) else 0

end Sys2Proof.Machine
end

