-- ==== Sys2Proof/Machine/Identity.lean ====
section
/-! DEFINITION. The identity buses (21_identity_monitor.md, R381 to R385). IDNb_STAT: STATE 2..0, MATCH 3, CHANGED 4,
COUNT 15..8, IGN 16. -/
namespace Sys2Proof.Machine

def Dev.bus (d : Dev) (b : Fin 4) : IdBus := d.idn[b]
def Dev.setBus (d : Dev) (b : Fin 4) (x : IdBus) : Dev := { d with idn := d.idn.set b x }

/-- What the controller sends: after the start, the address with write and the word address 0, of one byte or of two (A16); after
the repeated start, the address with read (R381). -/
def idSent (cfg : Word) : List Byte × List Byte :=
  let addr := bits cfg 6 0
  (BitVec.ofNat 8 (2 * addr) :: (if bit cfg 9 then [0, 0] else [0]), [BitVec.ofNat 8 (2 * addr + 1)])

/-- A read of bus b begins, with its configuration as it stands: STATE 1. -/
def idStart (b : Fin 4) (d : Dev) : Dev :=
  Dev.setFld (IDN_STAT b) 2 0 1 (d.setBus b { d.bus b with busy := true, sent := idSent (d.reg (IDN_CFG b)) })

/-- ID_READ: the READ bits that commit; one for a bus that reads, or that is not enabled, sets IGN (R383). -/
def idRead (mask : Nat) (d : Dev) : Dev :=
  forAll 4 (fun k d =>
    let b := Fin.ofNat 4 k
    if mask / 2 ^ k % 2 = 0 then d
    else if (d.bus b).busy || !d.flag (IDN_CFG b) 12 then Dev.setFlag (IDN_STAT b) 16 true d
    else idStart b d) d

def execIdRead (m : BitVec 4) (s : State) : Out := atEdge (idRead m.toNat) s

/-- At READY each enabled bus is read (R383). -/
def idReady (d : Dev) : Dev := idRead 15 d

/-- The outcome of a read and the bytes it leaves in IDNb_REC (R382, R385). -/
def idOutcome : Sys2Proof.IdWire → Nat × List Byte
  | .busErr => (5, [])
  | .absent => (3, [])
  | .data bs =>
    let r := (bs ++ List.replicate 128 0).take 128
    let at_ := fun (o n : Nat) => leNat ((r.drop o).take n)
    if (crcCcitt (r.take 0x7E)).toNat ≠ at_ 0x7E 2 then (4, r)
    else if at_ 0 2 ≠ 0x4E50 ∨ at_ 2 1 ≠ 1 then (6, r)
    else (2, r)

/-- ID_READ_END: event 240 + b; the result waits for a committing edge (R382, R385). -/
def idEnd (b : Fin 4) (w : Sys2Proof.IdWire) (d : Dev) : Dev :=
  if (d.bus b).busy then raise (240 + b) (d.setBus b { d.bus b with busy := false, ended := some (idOutcome w) }) else d

def execIdReadEnd (b : Fin 4) (w : Sys2Proof.IdWire) (s : State) : Out := .next { s with dev := idEnd b w s.dev }

/-- The result of a read at a committing edge: IDNb_REC, STATE, COUNT, MATCH and CHANGED (R384), and with LAND = 1 the
record in tick SRAM after the staged writes (R385). -/
def idLand (b : Fin 4) (d : Dev) : Dev :=
  let x := d.bus b
  match x.ended with
  | none => d
  | some (st, bytes) =>
    let r := (bytes ++ List.replicate 128 0).take 128
    let w := fun (i : Nat) => word (leNat ((r.drop (4 * i)).take 4))
    let d := forAll 32 (fun i d => d.setReg (IDN_REC b i) (w i)) d
    let good := decide (st = 2)
    let eq := fun (e v : Word) => decide (e = 0) || decide (e = v)
    let isMatch := good && eq (word (d.fld (IDN_EXPKIND b) 7 0)) (word (bits (w 0) 31 24)) &&
      eq (d.reg (IDN_EXPMAKER b)) (w 1) && eq (d.reg (IDN_EXPPART b)) (w 2)
    let changed := if good then x.good && (decide (x.part ≠ w 2) || decide (x.serial ≠ w 3)) else d.flag (IDN_STAT b) 4
    let d := Dev.setFld (IDN_STAT b) 15 8 (d.fld (IDN_STAT b) 15 8 + 1) d
    let d := Dev.setFlag (IDN_STAT b) 4 changed (Dev.setFlag (IDN_STAT b) 3 isMatch d)
    let d := Dev.setFld (IDN_STAT b) 2 0 (if x.busy then 1 else st) d
    let y := { x with ended := none }
    let d := d.setBus b (if good then { y with part := w 2, serial := w 3, good := true } else y)
    if d.flag (IDN_CFG b) 10 then
      { d with sram := d.sram.setBytes (d.fld (IDN_DEST b) 21 6 * 64) (r.take (0x400000 - d.fld (IDN_DEST b) 21 6 * 64)) }
    else d

def idLandAll (d : Dev) : Dev := (List.finRange 4).foldl (fun (d : Dev) (b : Fin 4) => idLand b d) d

/-- ID_LANDING: the landing of bus b at its committing edge. -/
def execIdLanding (b : Fin 4) (s : State) : Out := atEdge (idLand b) s

/-- Input ports of the identity window. -/
def idnPort (d : Dev) (p : Nat) : Word :=
  if p % 4 ≠ 0 then 0
  else if 0x2800 ≤ p ∧ p < 0x2810 then word (d.fld (IDN_STAT ((p - 0x2800) / 4)) 15 0)
  else if 0x2810 ≤ p ∧ p < 0x2820 then (d.bus (Fin.ofNat 4 ((p - 0x2810) / 4))).part
  else if 0x2820 ≤ p ∧ p < 0x2830 then (d.bus (Fin.ofNat 4 ((p - 0x2820) / 4))).serial
  else 0

end Sys2Proof.Machine
end

