-- ==== Sys2Proof/Machine/Sha.lean ====
section
/-! DEFINITION. SHA-256 (FIPS 180-4), which the loader and the tree engine's load check use (R77, R248). -/
namespace Sys2Proof.Machine

/-- The primes below n, by trial division. -/
def isPrime (n : Nat) : Bool := decide (2 ≤ n) && (List.range n).all (fun d => decide (d < 2) || decide (n % d ≠ 0))

/-- The first 64 primes (the largest is 311). -/
def primes64 : List Nat := (List.range 312).filter isPrime

/-- The floor of the k-th root of v (k = 2 or 3), by bits. -/
def rootBits (k v : Nat) : Nat → Nat → Nat
  | 0, r => r
  | n + 1, r => if (r + 2 ^ n) ^ k ≤ v then rootBits k v n (r + 2 ^ n) else rootBits k v n r

/-- The first 32 fraction bits of the k-th root of p. -/
def rootFrac (k p : Nat) : Word := word (rootBits k (p * 2 ^ (32 * k)) 40 0)

/-- The round constants: cube roots of the first 64 primes; the initial hash value: square roots of the first eight. -/
def shaK : List Word := primes64.map (rootFrac 3)
def shaH0 : List Word := (primes64.take 8).map (rootFrac 2)

/-- The next words of the message schedule, newest first. -/
def shaSchedule : Nat → List Word → List Word
  | 0, ws => ws
  | n + 1, ws =>
    let x := ws.getD 14 0
    let y := ws.getD 1 0
    let s0 := x.rotateRight 7 ^^^ x.rotateRight 18 ^^^ (x >>> (3 : Nat))
    let s1 := y.rotateRight 17 ^^^ y.rotateRight 19 ^^^ (y >>> (10 : Nat))
    shaSchedule n ((ws.getD 15 0 + s0 + ws.getD 6 0 + s1) :: ws)

/-- One round. -/
def shaRound (s : List Word) (kw : Word × Word) : List Word :=
  match s with
  | [a, b, c, d, e, f, g, h] =>
    let s1 := e.rotateRight 6 ^^^ e.rotateRight 11 ^^^ e.rotateRight 25
    let ch := (e &&& f) ^^^ (~~~ e &&& g)
    let t1 := h + s1 + ch + kw.1 + kw.2
    let s0 := a.rotateRight 2 ^^^ a.rotateRight 13 ^^^ a.rotateRight 22
    let mj := (a &&& b) ^^^ (a &&& c) ^^^ (b &&& c)
    [t1 + s0 + mj, a, b, c, d + t1, e, f, g]
  | s => s

/-- The 32-bit big-endian words of a block. -/
def beWords : List Byte → List Word
  | b0 :: b1 :: b2 :: b3 :: t => word (beNat [b0, b1, b2, b3]) :: beWords t
  | _ => []

/-- One block of 64 bytes. -/
def shaBlock (h : List Word) (block : List Byte) : List Word :=
  let ws := (shaSchedule 48 (beWords block).reverse).reverse
  List.zipWith (· + ·) h ((shaK.zip ws).foldl shaRound h)

/-- The blocks of a padded message. -/
def shaBlocks : Nat → List Word → List Byte → List Word
  | 0, h, _ => h
  | n + 1, h, m => shaBlocks n (shaBlock h (m.take 64)) (m.drop 64)

/-- The bytes of a number, most significant first. -/
def beBytes (v n : Nat) : List Byte := (leBytes v n).reverse

/-- SHA-256 of a byte string: 32 bytes. -/
def sha256 (m : List Byte) : List Byte :=
  let zeros := (119 - m.length % 64) % 64
  let p := m ++ [0x80] ++ List.replicate zeros 0 ++ beBytes (8 * m.length) 8
  (shaBlocks (p.length / 64) shaH0 p).flatMap (fun w => beBytes w.toNat 4)

end Sys2Proof.Machine
end

