-- ==== Sys2Proof/Machine/Trees.lean ====
section
/-! DEFINITION. The tree engine (12_trees.md): model loads, their checks, and TREE.RUN. -/
namespace Sys2Proof.Machine

def dword0 (_ : Nat) : DWord := 0

/-! ## Reading a model -/

/-- An n-byte field of a byte string. -/
def fieldOf (bs : List Byte) (o n : Nat) : Nat := leNat ((bs.drop o).take n)

/-- A node word of a body held as a list of bytes, and as stored from a base. -/
def bodyWord (body : List Byte) (i : Nat) : Nat := fieldOf body (8 * i) 8

/-- Bits hi..lo of a number. -/
def nbits (v hi lo : Nat) : Nat := v / 2 ^ lo % 2 ^ (hi + 1 - lo)

/-- A front entry: OP, A, B, N, P0, P1 and its reserved word. -/
structure Front where
  op : Nat
  a  : Nat
  b  : Nat
  n  : Nat
  p0 : Word
  p1 : Word
  z  : Nat
  deriving DecidableEq, Repr

def frontOf (w0 w1 : Nat) : Front :=
  ⟨nbits w0 7 0, nbits w0 15 8, nbits w0 23 16, nbits w0 31 24, word (nbits w0 63 32), word (nbits w1 31 0), nbits w1 63 32⟩

/-- The smallest k with n ≤ 2^k. -/
def log2Ceil (n : Nat) : Nat := if n ≤ 1 then 0 else Nat.log2 (n - 1) + 1

/-- Front-stage cycles of an entry. -/
def Front.cycles (f : Front) : Nat :=
  match f.op with
  | 0 => 2
  | 1 => 2 + log2Ceil (f.n + 1)
  | 2 => 1
  | _ => 2

/-- Edge j of a table at node index t, and root j of the root table. -/
def halfWord (rd : Nat → Nat) (t j : Nat) : Nat := nbits (rd (t + j / 2)) (32 * (j % 2) + 31) (32 * (j % 2))

/-! ## The checks of a load (R248) -/

/-- A finite binary32 pattern, subnormals included. -/
def finite32 (w : Nat) : Bool := decide (nbits w 30 23 ≠ 255)

/-- The form of a front entry: fields in range, unused and reserved ones 0 (code 2). -/
def Front.formOk (f : Front) : Bool :=
  decide (f.op ≤ 3) && decide (f.z = 0) &&
  (decide (f.op = 3) || decide (f.b = 0)) && (if f.op = 1 then decide (1 ≤ f.n) else decide (f.n = 0)) &&
  (decide (f.op ≠ 2) || decide (f.p0 = 0)) && (decide (f.op = 0) || decide (f.p1 = 0))

/-- A BIN table: in the body, strictly ascending, finite. -/
def binOk (rd : Nat → Nat) (len t n : Nat) : Bool :=
  decide (t + (n + 1) / 2 ≤ len) && (List.range n).all (fun j => finite32 (halfWord rd t j)) &&
    (List.range (n - 1)).all (fun j => ltF i32 (halfWord rd t j) (halfWord rd t (j + 1)))

/-- The structure of front entry i (code 5). -/
def Front.structOk (f : Front) (rd : Nat → Nat) (len nin i : Nat) : Bool :=
  match f.op with
  | 0 => decide (f.a < nin) && finite32 f.p0.toNat && finite32 f.p1.toNat && decide (nbits f.p1.toNat 30 0 ≠ 0)
  | 1 => decide (f.a < nin) && binOk rd len f.p0.toNat f.n
  | 2 => decide (f.a < nin)
  | _ => decide (f.a < i) && decide (f.b < i) && decide (1 ≤ f.p0.toNat) && decide (f.p0.toNat ≤ 65536)

/-- The reserved bits of a tree node are 0. -/
def nodeForm (w : Nat) : Bool := if nbits w 63 63 = 0 then decide (nbits w 62 56 = 0) && decide (nbits w 31 18 = 0)
  else decide (nbits w 62 36 = 0)

/-- The depth of the tree at node i, within `fuel` splits; none where its structure is not allowed or it is deeper. -/
def treeDepth (rd : Nat → Nat) (len nf nout : Nat) : Nat → Nat → Option Nat
  | 0, i =>
    if len ≤ i then none
    else if nbits (rd i) 63 63 = 1 ∧ nbits (rd i) 35 32 < nout ∧ finite32 (nbits (rd i) 31 0) then some 0 else none
  | fuel + 1, i =>
    if len ≤ i then none
    else
      let w := rd i
      if nbits w 63 63 = 1 then
        (if nbits w 35 32 < nout ∧ finite32 (nbits w 31 0) then some 0 else none)
      else if nf ≤ nbits w 55 48 ∨ nbits w 17 0 ≤ i then none
      else
        match treeDepth rd len nf nout fuel (i + 1), treeDepth rd len nf nout fuel (nbits w 17 0) with
        | some a, some b => some (1 + max a b)
        | _, _ => none

/-- A node index takes its place in an ascending list without repeats. -/
def insertNode (q : Nat) : List Nat → List Nat
  | [] => [q]
  | a :: t => if q < a then q :: a :: t else if q = a then a :: t else a :: insertNode q t

/-- The reserved bits of every node reached from the given ones within the body are 0: the lowest node in hand is checked and
its children, which lie above it, take its place. -/
def treeForm (rd : Nat → Nat) (len : Nat) : Nat → List Nat → Bool
  | 0, _ => true
  | _ + 1, [] => true
  | fuel + 1, i :: t =>
    if len ≤ i then true
    else
      let w := rd i
      let r := nbits w 17 0
      nodeForm w && treeForm rd len fuel (if nbits w 63 63 = 1 then t
        else insertNode (i + 1) (if i < r then insertNode r t else t))

/-- The header of a model, as read from its source bytes. -/
def modelOf (bs : List Byte) (base : Nat) : TModel :=
  { base := base, words := (fieldOf bs 0x08 4 - 128) / 8, nin := fieldOf bs 0x10 2, nf := fieldOf bs 0x12 2,
    ntrees := fieldOf bs 0x14 2, nout := fieldOf bs 0x16 1, link := fieldOf bs 0x17 1, rootOfs := fieldOf bs 0x18 4,
    bias := (List.range 16).map (fun i => word (fieldOf bs (0x20 + 4 * i) 4)), cost := 0, id := word (fieldOf bs 0x0C 4) }

/-- The root of tree t. -/
def TModel.root (m : TModel) (rd : Nat → Nat) (t : Nat) : Nat := halfWord rd m.rootOfs t

/-- The front entries. -/
def TModel.front (m : TModel) (rd : Nat → Nat) : List Front :=
  (List.range m.nf).map (fun i => frontOf (rd (2 * i)) (rd (2 * i + 1)))

def TModel.depth (m : TModel) (rd : Nat → Nat) (t : Nat) : Option Nat :=
  treeDepth rd m.words m.nf m.nout 16 (m.root rd t)

/-- C of R245. -/
def TModel.costOf (m : TModel) (rd : Nat → Nat) : Nat :=
  let f := sumList ((m.front rd).map Front.cycles)
  let lane := fun (l : Nat) => sumList (((List.range m.ntrees).filter (fun t => decide (t % 8 = l))).map (fun t =>
    6 * ((m.depth rd t).getD 0) + 6))
  let o := match m.link with
    | 0 => 4 * m.nout
    | 1 => 4 * m.nout
    | 2 => 4 + 24
    | _ => 12 * m.nout + 24
  2 * (256 + m.nin + f + maxList ((List.range 8).map lane) + o)

/-- FORM of the header: magic, format and ranges. -/
def TModel.headerOk (m : TModel) (bs : List Byte) : Bool :=
  let len := fieldOf bs 0x08 4
  decide (fieldOf bs 0 4 = 0x4C444D54) && decide (fieldOf bs 4 4 = 1) && decide (len % 8 = 0) && decide (128 ≤ len) &&
  decide (1 ≤ m.nin) && decide (m.nin ≤ 256) && decide (1 ≤ m.nf) && decide (m.nf ≤ 256) && decide (1 ≤ m.ntrees) &&
  decide (m.ntrees ≤ 4096) && decide (1 ≤ m.nout) && decide (m.nout ≤ 16) && decide (m.link ≤ 3) &&
  (decide (m.link ≠ 2) || decide (m.nout = 1)) && (decide (m.link ≠ 3) || decide (2 ≤ m.nout)) &&
  decide (fieldOf bs 0x1C 4 = 0) && decide (2 * m.nf ≤ m.words) &&
  decide (m.rootOfs + (m.ntrees + 1) / 2 ≤ m.words) && (m.bias.drop m.nout).all (fun w => decide (w = 0))

/-- STRUCT. -/
def TModel.structOk (m : TModel) (rd : Nat → Nat) : Bool :=
  ((m.front rd).zipIdx).all (fun e => e.1.structOk rd m.words m.nin e.2) &&
  m.bias.all (fun w => finite32 w.toNat) && (List.range m.ntrees).all (fun t => (m.depth rd t).isSome)

/-- FORM of the body: front entries and the nodes that the trees reach. -/
def TModel.bodyForm (m : TModel) (rd : Nat → Nat) : Bool :=
  (m.front rd).all Front.formOk &&
    treeForm rd m.words (m.words + 1) ((List.range m.ntrees).foldl (fun l t => insertNode (m.root rd t) l) [])

/-- The node ranges of the slots in force: base and length. -/
def nodeRanges (d : Dev) : List (Nat × Nat) := d.trees.slots.toList.filterMap (fun o => o.map (fun m => (m.base, m.words)))

/-- The refusal code of a load, lowest first, or the model (R248). -/
def loadCheck (d : Dev) (ld : TLoad) (ue : Bool) : Nat ⊕ TModel :=
  let size := if ld.cel then 0x80000 else 0x400000
  let n := max 128 ld.len
  let bs := if ld.cel then d.cel.array.bytes ld.addr n else d.sram.bytes ld.addr n
  if size < ld.addr + ld.len ∨ ld.len ≠ fieldOf bs 0x08 4 ∨ ue then .inl 1
  else
    let m := modelOf bs ld.base
    let body := bs.drop 128
    let rd := bodyWord body
    let m := { m with cost := m.costOf rd }
    if !m.headerOk bs || !m.bodyForm rd then .inl 2
    else if 262143 < ld.base + m.words - 1 ∨
        (nodeRanges d).any (fun r => decide (r.1 < ld.base + m.words) && decide (ld.base < r.1 + r.2)) then .inl 3
    else if sha256 body ≠ (bs.drop 0x60).take 32 then .inl 4
    else if !m.structOk rd then .inl 5
    else if (d.reg (TRE_DECL ld.slot)).toNat < m.cost then .inl 6
    else .inr m

/-! ## Loads (R247, R249) -/

/-- TREE_LOAD: GO commits with SRC and SLOT of the committed LOADCMD. -/
def treeLoad (d : Dev) : Dev :=
  let cmd := d.out 0x218C
  if d.trees.loading.isSome then Dev.setFlag TRE_LDSTAT 31 true d
  else
    let ld : TLoad := { slot := bits cmd 8 4, cel := bit cmd 1, addr := (d.reg TRE_LDADDR).toNat,
                        len := (d.reg TRE_LDLEN).toNat, base := d.fld TRE_LDBASE 17 0 }
    let w := setBits (setBits (setBits (d.reg TRE_LDSTAT) 20 16 ld.slot) 15 8 0) 1 0 1
    { d.setReg TRE_LDSTAT w with trees := { d.trees with loading := some ld } }

def execTreeLoad (s : State) : Out := atEdge treeLoad s

/-- The store with a body written from a base. -/
def storeBody (base : Nat) (rd : Nat → Nat) : Nat → SMap DWord → SMap DWord
  | 0, m => m
  | n + 1, m => storeBody base rd n (smSet dword0 m (base + n) (BitVec.ofNat 64 (rd n)))

/-- TREE_LOAD_END: the check ends; a refusal shows at once, an accepted model waits for its edge. -/
def treeLoadEnd (ue : Bool) (d : Dev) : Dev :=
  match d.trees.loading with
  | none => d
  | some ld =>
    match loadCheck d ld ue with
    | .inl code =>
      let d := { d with trees := { d.trees with loading := none } }
      raise 163 (d.setReg TRE_LDSTAT (setBits (setBits (d.reg TRE_LDSTAT) 15 8 code) 1 0 3))
    | .inr m =>
      let body := (if ld.cel then d.cel.array.bytes ld.addr ld.len else d.sram.bytes ld.addr ld.len).drop 128
      let store := storeBody ld.base (bodyWord body) m.words d.trees.store
      { d with trees := { d.trees with store := store, loading := some ld, accepted := some (ld.slot, m) } }

def execTreeLoadEnd (ue : Bool) (s : State) : Out :=
  .next { s with dev := if s.dev.trees.accepted.isSome then s.dev else treeLoadEnd ue s.dev }

/-- The registers of slot i. -/
def slotRegs (i : Fin 32) (d : Dev) : Dev :=
  match d.trees.slots[i] with
  | none =>
    Dev.setFlag TRE_LOADED i false ((((d.setReg (TRE_S_BASE i) 0).setReg (TRE_S_SIZE i) 0).setReg (TRE_S_COST i) 0).setReg
      (TRE_S_ID i) 0)
  | some m =>
    let b := word (m.base + (m.nout - 1) * 2 ^ 20 + m.link * 2 ^ 24)
    Dev.setFlag TRE_LOADED i true ((((d.setReg (TRE_S_BASE i) b).setReg (TRE_S_SIZE i) (word m.words)).setReg
      (TRE_S_COST i) (word m.cost)).setReg (TRE_S_ID i) m.id)

def setSlot (i : Fin 32) (o : Option TModel) (d : Dev) : Dev :=
  slotRegs i { d with trees := { d.trees with slots := d.trees.slots.set i o } }

/-- MODEL_PLACE at the first committing edge after the check (R249). -/
def modelPlace (d : Dev) : Dev :=
  match d.trees.accepted with
  | none => d
  | some (i, m) =>
    let d := setSlot (Fin.ofNat 32 i) (some m) d
    let d := { d with trees := { d.trees with loading := none, accepted := none } }
    raise 162 ((d.setReg TRE_LDSTAT (setBits (d.reg TRE_LDSTAT) 1 0 2)).setOut 0x210C m.id)

/-- TREE_EVICT: the slots whose cost exceeds the new declared cost (R251). -/
def treeEvict (d : Dev) : Dev :=
  forAll 32 (fun k d =>
    let i : Fin 32 := Fin.ofNat 32 k
    match d.trees.slots[i] with
    | some m =>
      if (d.reg (TRE_DECL k)).toNat < m.cost then raise 166 (Dev.setFlag TRE_STAT 2 true (setSlot i none d)) else d
    | none => d) d

/-! ## The front stage (R242, R243) -/

/-- The code of an entry from the input words and the codes so far. SCALE's NaN, which only a subnormal P1 can give, is
open (assumption 23). -/
def Front.code (f : Front) (free : Nat) (rd : Nat → Nat) (x : Nat → Word) (codes : List Nat) : Nat :=
  match f.op with
  | 0 =>
    match rneV (decodeF b32 (fMul (fSub (x f.a) f.p0) f.p1).toNat) with
    | some i => (clampI 0 65535 i).toNat
    | none => free % 65536
  | 1 => ((List.range f.n).filter (fun j => leF b32 (halfWord rd f.p0.toNat j) (x f.a).toNat)).length
  | 2 => min (x f.a).toNat 65535
  | _ => min (codes.getD f.a 0 * f.p0.toNat + codes.getD f.b 0) 65535

def frontCodes (free : Nat) (rd : Nat → Nat) (x : Nat → Word) (fs : List Front) : List Nat :=
  fs.foldl (fun cs f => cs ++ [f.code free rd x cs]) []

/-- The lowest-numbered input word that SCALE or BIN reads and that is a NaN. -/
def firstNan (x : Nat → Word) (fs : List Front) (nin : Nat) : Option Nat :=
  (List.range nin).find? (fun i => isNanF b32 (x i).toNat && fs.any (fun f => decide (f.op ≤ 1) && decide (f.a = i)))

/-! ## Walk and combination (R244) -/

/-- The leaf a walk reaches: its output and value. -/
def walkTree (rd : Nat → Nat) (codes : List Nat) : Nat → Nat → Nat × Nat
  | 0, i => (nbits (rd i) 35 32, nbits (rd i) 31 0)
  | fuel + 1, i =>
    let w := rd i
    if nbits w 63 63 = 1 then (nbits w 35 32, nbits w 31 0)
    else walkTree rd codes fuel (if codes.getD (nbits w 55 48) 0 < nbits w 47 32 then i + 1 else nbits w 17 0)

/-- A binary32 pattern as binary64, exactly. -/
def widen (w : Nat) : Nat := (encodeF b64 (decodeF i32 w)).w

/-- A binary64 value rounded once to binary32. -/
def narrow (x : Nat) : Word := word (encodeF i32 (decodeF b64 x)).w

/-- The sum of r^i / i! for i below n, times 2^140, for r times 2^140. -/
def expSum (r : Int) : Nat → Nat → Int → Int → Int
  | 0, _, _, acc => acc
  | n + 1, i, t, acc => expSum r n (i + 1) ((t * r).fdiv (2 ^ 140 * (i : Int))) (acc + t)

/-- ln 2 times 2^140. -/
def ln2Fix : Int := 966106166171702452789019208761976768099343

/-- e^x in binary64, to nearest. -/
def expNear (x : Nat) : Nat :=
  match decodeF b64 x with
  | .nan => nanPat b64
  | .inf s => if s then 0 else infPat b64 false
  | .zero _ => qInt 1
  | .fin s m e =>
    if 10 ≤ (Nat.log2 m : Int) + e then (if s then 0 else infPat b64 false)
    else
      let v : Int := smant s m
      let f : Int := if 0 ≤ e + 140 then v * 2 ^ (e + 140).toNat else v.fdiv (2 ^ (-(e + 140)).toNat)
      let k := (2 * f + ln2Fix).fdiv (2 * ln2Fix)
      (roundF b64 false (expSum (f - k * ln2Fix) 40 1 (2 ^ 140) 0).toNat (k - 140)).w

/-- The engine's e^x: its last bit is open, and e^0 is 1 (assumption 21). -/
def engineExp (x : Nat) : Nat :=
  let n := expNear x
  let y := (Config.exp64 (BitVec.ofNat 64 x)).toNat
  if !eqF b64 x 0 && (decide (y + 1 = n) || decide (y = n + 1)) then y else n

/-- s_o: the lane sums in lane order, then the bias. -/
def outputSum (bias : Nat) (leaves : List (Nat × Nat × Nat)) (o : Nat) : Nat :=
  let lane := fun (l : Nat) => (leaves.filter (fun e => decide (e.1 % 8 = l) && decide (e.2.1 = o))).foldl
    (fun s e => qAdd s (widen e.2.2)) 0
  let lanes := (List.range 8).map lane
  qAdd (lanes.foldl qAdd 0) bias

/-- The link. -/
def linkOut (link ntrees : Nat) (s : List Nat) : List Word :=
  let one := qInt 1
  match link with
  | 0 => s.map narrow
  | 1 => s.map (fun x => narrow (qDiv x (qInt ntrees)))
  | 2 => s.map (fun x => narrow (qDiv one (qAdd one (engineExp (qNeg x)))))
  | _ =>
    let m := s.foldl (fun a b => if qLt a b then b else a) (s.headD 0)
    let es := s.map (fun x => engineExp (qSub x m))
    let t := es.foldl qAdd 0
    es.map (fun e => narrow (qDiv e t))

/-- The index of the largest output, lowest on ties. -/
def argMax (os : List Word) : Nat :=
  (os.zipIdx.foldl (fun (b : Word × Nat) e => if iLt b.1 e.1 then e else b) (os.headD 0, 0)).2

/-- The result words of an invocation and whether it met a NaN. -/
def treeResult (m : TModel) (free : Nat) (rd : Nat → Nat) (x : Nat → Word) : List Word × Bool :=
  let fs := m.front rd
  match firstNan x fs m.nin with
  | some i => (word (2 + 256 * (i % 256)) :: List.replicate m.nout 0x7FC00000, true)
  | none =>
    let codes := frontCodes free rd x fs
    let leaves := (List.range m.ntrees).map (fun t => (t, walkTree rd codes 16 (m.root rd t)))
    let s := (List.range m.nout).map (fun o => outputSum (widen (m.bias.getD o 0).toNat) leaves o)
    let os := linkOut m.link m.ntrees s
    (word (1 + 65536 * (if m.nout = 1 then 0 else argMax os)) :: os, false)

/-! ## TREE.RUN -/

/-- Write result words into local data memory. -/
def putWords (m : Memory) (a : Nat) : List Word → Memory
  | [] => m
  | w :: ws => putWords (m.setWord a w) (a + 4) ws

/-! ### The engine's order (R28, R246) -/

/-- An invocation stands in a list behind those issued before it or with it. -/
def insertRun (x : TRun) : List TRun → List TRun
  | [] => [x]
  | y :: l => if y.at_ ≤ x.at_ then y :: insertRun x l else x :: y :: l

/-- The cycle at which an invocation ends that needs `left` more cycles of the engine from cycle `now` on, while the intervals
given, in the order of their starts, are taken. -/
def engineEnd (now left : Nat) : List TRun → Nat
  | [] => now + left
  | r :: l =>
    if r.ends ≤ now then engineEnd now left l
    else if now + left ≤ r.at_ then now + left
    else engineEnd r.ends (left - (r.at_ - now)) l

/-- The invocations of core k end as those of the lower-numbered cores leave the engine to them. -/
def scheduleCore (l : List TRun) (k : Nat) : List TRun :=
  l.map (fun r => if r.core = k then { r with ends := engineEnd r.at_ r.work (l.filter (fun q => decide (q.core < k))) } else r)

/-- Every invocation's end, the lowest-numbered core first. -/
def scheduleRuns (l : List TRun) : List TRun := (List.range 6).foldl scheduleCore l

/-- The cycle at which the newest invocation of a core retires; 0 without one. -/
def lastEnd (l : List TRun) (k : Nat) : Nat := maxList ((l.filter (fun r => decide (r.core = k))).map (·.ends))

/-- Core k issues an invocation that takes `work` cycles of the engine. It waits while invocations of lower-numbered cores run
or pend; those of higher-numbered cores that have not retired are suspended and resume after it, and their cores wait. -/
def engineTake (k : Fin 6) (issue work : Nat) (d : Dev) : Dev :=
  let old := d.trees.runs
  let runs := scheduleRuns (insertRun ⟨k, issue, work, issue⟩ old)
  let d := forAll 6 (fun j d =>
    let c := d.core (Fin.ofNat 6 j)
    if j = k.val ∨ (lastEnd old j ≠ 0 ∧ c.cyc = lastEnd old j) then
      d.setCore (Fin.ofNat 6 j) { c with cyc := lastEnd runs j }
    else d) d
  { d with trees := { d.trees with runs := runs } }

/-- How many cycles of the engine an invocation takes: at least 1, at most its bound; the manual gives the bound
(R245, R250, assumption 25). -/
def treeCycles (d : Dev) (bound : Nat) : Nat := 1 + (Config.freeWord d.freeCtr).toNat % bound

/-- The node at which an error is reported: one of the model's, open (assumption 23). -/
def errNode (d : Dev) (m : TModel) : Word := word (m.base + (Config.freeWord d.freeCtr).toNat % m.words)

/-- TREE.RUN: ADDR outside data memory (R242), an empty slot (R250), a node-store error (R252), NaN inputs (R243), or the
model's outputs (R244). The results are in memory when the instruction retires (R66). -/
def execTreeRun (o : Sys2Proof.Lim) (s : State) : Out :=
  .next (limDev o (decide (rdOf o = 0)) (skipOff o.core) (fun d =>
    let c := d.core o.core
    let issue := c.cyc + stallOf c [kg (raOf o), kg (rbOf o)]
    let a := alignTo 4 (c.gr (raOf o)).toNat
    let b := alignTo 4 (c.gr (rbOf o)).toNat
    let slot := d.trees.slots[Fin.ofNat 32 (fnOf o)]
    let nin := (slot.map (·.nin)).getD 0
    let nout := (slot.map (·.nout)).getD 0
    if 0x20000 < a + 4 * nin ∨ 0x20000 < b + 4 * (1 + nout) then limExc o.core 4 d
    else
      match slot with
      | none =>
        let n := treeCycles d (2 + 512)
        let c' := { c.retire issue n n [] with dmem := c.dmem.setWord b 4 }
        raise 161 (Dev.setFlag TRE_STAT 1 true (engineTake o.core issue n (d.tickFree.setCore o.core c')))
      | some m =>
        if o.data = .uncorrectable then fault 164 .slip (errNode d m) (d.reach (d.coreTime o.core)).tickFree
        else
          let node := errNode d m
          let rd := fun i => (smGet dword0 d.trees.store (m.base + i)).toNat
          let free := (Config.freeWord d.freeCtr).toNat
          let d := d.tickFree
          let (ws, nan) := treeResult m free rd (fun i => c.dmem.word (a + 4 * i))
          let n := treeCycles d (2 + m.cost)
          let c' := { c.retire issue n n [] with dmem := putWords c.dmem b ws }
          let d := engineTake o.core issue n (d.tickFree.setCore o.core c')
          let d := if nan then raise 160 (Dev.setFlag TRE_STAT 0 true d) else d
          if o.data = .corrected then fault 165 .note node (Dev.setFlag TRE_STAT 3 true d) else d) s)

/-! ## Ports -/

def treePort (d : Dev) (p : Nat) : Word :=
  match p with
  | 0x2100 => d.reg TRE_LDSTAT
  | 0x2104 => d.reg TRE_STAT &&& 0xFF
  | 0x2108 => d.reg TRE_LOADED
  | 0x210C => d.out 0x210C
  | _ => 0

end Sys2Proof.Machine
end

