-- ==== Sys2Proof/Machine/Tendril.lean ====
section
/-! DEFINITION. The Tendril and its mirror (14_tendril.md). Loop currents are codes in units of 0.5 µA. -/
namespace Sys2Proof.Machine

def Dev.setTdl (d : Dev) (t : Tendril) : Dev := { d with tdl := t }

/-! ## Memory and image (R286, R290) -/

/-- Word i of the memory as shipped: the image that the reset values of the TDL_NV registers give. -/
def tdlShip (i : Nat) : Word := regReset (TDL_SCFG + 4 * i)

/-- A word of the Tendril's own memory by its offset in the image. -/
def Tendril.nvWord (t : Tendril) (o : Nat) : Word := smGet tdlShip t.nv (o / 4)

def Tendril.scfg (t : Tendril) : Word := t.nvWord 0x00
def Tendril.sil (t : Tendril) : Word := t.nvWord 0x08
def Tendril.hcfg (t : Tendril) : Word := t.nvWord 0x10
def Tendril.npts (t : Tendril) : Nat := bits (t.nvWord 0x1C) 7 0
def Tendril.ptIn (t : Tendril) (p : Nat) : Int := (t.nvWord (0x40 + 8 * p)).toInt
def Tendril.ptOut (t : Tendril) (p : Nat) : Nat := bits (t.nvWord (0x44 + 8 * p)) 15 0

/-- The enabled channels: with NVBAD both stay off (R287). -/
def Tendril.vOn (t : Tendril) : Bool := decide (bits t.scfg 1 0 ≠ 0) && !t.nvBad
def Tendril.cOn (t : Tendril) : Bool := bit t.scfg 8 && !t.nvBad

/-- CRC-16/CCITT over the 512 words but the one at 0x3C (R286). -/
def nvCrcOf (w : Nat → Word) : Word :=
  (crcCcitt (((List.range 512).filter (fun i => decide (i ≠ 15))).flatMap (fun i => leBytes (w i).toNat 4))).setWidth 32

/-- TDL_NVCRC, and the CRC of the Tendril's memory that the uplink carries. -/
def nvCrc (d : Dev) : Word := nvCrcOf (fun i => d.reg (TDL_SCFG + 4 * i))
def Tendril.crc (t : Tendril) : Word := nvCrcOf (fun i => smGet tdlShip t.nv i)

/-- TDL_STAT as it reads: NVMATCH is computed (R286). -/
def tdlStat (d : Dev) : Word :=
  setBit (d.reg TDL_STAT) 3 (d.flag TDL_STAT 0 && decide (d.reg TDL_NVTCRC = nvCrc d))

/-- The image as words. -/
def nvImage (d : Dev) : List Word := (List.range 512).map (fun i => d.reg (TDL_SCFG + 4 * i))

/-- The refusal code of an image: FORM, ORDER, or 0 (R290). Its reserved bits are 0, because the registers hold none. -/
def nvCheck (im : List Word) : Nat :=
  let w := fun (o : Nat) => im.getD (o / 4) 0
  let scfg := w 0
  let sil := w 8
  let hcfg := w 0x10
  let n := bits (w 0x1C) 7 0
  let exc := bits (w 4) 8 0 + (if bit scfg 8 then 50 else 0)
  let off := if bit scfg 12 then !bit scfg 8 else decide (bits scfg 1 0 = 0)
  let outs := (List.range n).map (fun p => bits (w (0x44 + 8 * p)) 15 0)
  let ins := (List.range n).map (fun p => (w (0x40 + 8 * p)).toInt)
  if bits scfg 1 0 = 3 ∨ 3 < bits scfg 4 2 ∨ bits scfg 7 6 = 3 ∨ 400 < exc ∨ bits sil 7 0 < 2 ∨ bits sil 9 8 = 3 ∨
      bits hcfg 12 8 < 5 ∨ 20 < bits hcfg 12 8 ∨ bits hcfg 23 16 < 50 ∨ 250 < bits hcfg 23 16 ∨ n < 2 ∨ 248 < n ∨
      outs.any (fun o => decide (o < 7600) || decide (41000 < o)) ∨ (bits sil 9 8 = 0 ∧ off) then 3
  else if (List.range (n - 1)).any (fun p => decide (ins.getD (p + 1) 0 ≤ ins.getD p 0)) then 4
  else 0

/-! ## Start and power (R273 to R275) -/

/-- TENDRIL_START: the terminal voltage exceeds the brown-out threshold. -/
def tendrilStart (d : Dev) : Dev :=
  let t := d.tdl
  d.setTdl { Tendril.reset with powered := true, begun := d.now, restart := true, nv := t.nv, nvFail := t.nvFail, nvBad := t.nvFail, vseq := t.vseq, cseq := t.cseq, rxSeq := t.rxSeq, txSeq := t.txSeq, rxErr := t.rxErr, vin := t.vin, cin := t.cin, vgood := t.vgood, job := t.job, trim := t.trim,
                                    seen := t.seen, age := t.age }

def execTendrilStart (s : State) : Out := .next { s with dev := tendrilStart s.dev }

/-- BROWN_OUT: the Tendril loses its power; a memory that was being programmed is left with a failing CRC (R274, R291). -/
def brownOut (d : Dev) : Dev :=
  let t := d.tdl
  let programming := t.job.any (fun j => decide (j.stage = .program))
  d.setTdl { t with powered := false, started := false, slot := none, down := none, src := 0, code := 0, dac := 0, reply := none,
                    nvFail := t.nvFail || programming,
                    job := t.job.map (fun j => if programming then { j with stage := .lost } else j) }

def execBrownOut (s : State) : Out := .next { s with dev := brownOut s.dev }

/-- FOLD_BACK: thermal fold-back begins or ends to act; the uplink reports it. -/
def execFoldBack (acts : Bool) (s : State) : Out :=
  .next { s with dev := s.dev.setTdl { s.dev.tdl with foldB := acts } }

/-! ## Conversions and the table (R276 to R278, R288) -/

/-- Whether every enabled channel has its third conversion, or 60 ms have passed with no channel enabled (R275). -/
def Tendril.settled (t : Tendril) (now : Nat) : Bool :=
  if t.vOn || t.cOn then decide (3 ≤ t.settle) else decide (t.begun + 180000000 ≤ now)

/-- A channel's result: whether it clamps, and the clamped code. -/
def clampCode (lo hi x : Int) : Bool × Word := (decide (x < lo) || decide (hi < x), wordI (clampI lo hi x))

/-- A trim step that takes the Tendril's conversions runs: step 4, or step 5 with index 1 (20_trim.md, *Trim steps*). -/
def tdlTrimming (d : Dev) : Bool :=
  decide (d.fld TRM_STAT 1 0 = 1) && (decide (d.fld TRM_STAT 7 4 = 4) ||
    (decide (d.fld TRM_STAT 7 4 = 5) && decide (d.fld TRM_STAT 10 8 = 1)))

/-- A quotient rounded to the nearest integer; a tie goes either way, as R276 states none. -/
def roundNear (tie : Bool) (n : Int) (m : Nat) : Int :=
  let q := n.fdiv m
  let r := 2 * (n - q * m)
  if r < m ∨ (r = m ∧ !tie) then q else q + 1

/-- VIN before the clamp, from the input difference and the external reference in nV: the gain and the reference are those of the
memory (R276). A reference that is not positive gives no stated code: it is open (assumption 23). -/
def vinCode (d : Dev) (vdiff vref : Int) : Int :=
  let t := d.tdl
  let g := (1 : Int) * [1, 8, 32, 128].getD (bits t.scfg 4 2) 1
  let ref : Int := if bits t.scfg 1 0 = 1 then vref else 1200000000
  if ref ≤ 0 then (Config.freeWord d.freeCtr).toInt
  else roundNear (Config.roundUp d.freeCtr) (vdiff * g * 2 ^ 23) ref.toNat

/-- CONVERSION: one conversion of every enabled channel: the voltages V(TS_AP) − V(TS_AN) and V(TS_REFP) − V(TS_REFN) in nV, and the
capacitance in units of 2^−16 pF, before the clamp. The first two after a start are discarded. -/
def conversion (vdiff vref cin : Int) (exOpen refDiff : Bool) (d : Dev) : Dev :=
  let vin := vinCode d vdiff vref
  let d := d.tickFree
  let t := d.tdl
  if !t.powered || (!t.vOn && !t.cOn) || tdlTrimming d then d
  else
    let t := { t with settle := t.settle + 1, conv := d.now, refErr := t.refErr || refDiff }
    if t.settle < 3 then d.setTdl t
    else
      let (vo, v) := clampCode (-(2 ^ 23 - 1)) (2 ^ 23 - 1) vin
      let (co, c) := clampCode 0 26214400 cin
      let t := if !t.vOn then t else
        let vb := if vo then t.vbad + 1 else 0
        let eb := if exOpen then t.ebad + 1 else 0
        let sf := decide (2 ≤ vb) || decide (2 ≤ eb) || (t.sfV && (vo || exOpen))
        { t with vbad := vb, ebad := eb, vin := if sf && !vo then t.vgood else v, vseq := t.vseq + 1, sfV := sf,
                 vgood := if vo || exOpen then t.vgood else v }
      let t := if !t.cOn then t else
        let cb := if co then t.cbad + 1 else 0
        { t with cbad := cb, cin := c, cseq := t.cseq + 1, sfC := decide (2 ≤ cb) || (t.sfC && co) }
      d.setTdl t

def execConversion (v : Sys2Proof.TsVolts) (cin : Int) (exOpen refDiff : Bool) (s : State) : Out :=
  .next { s with dev := conversion v.diff v.ref cin exOpen refDiff s.dev }

/-- The interpolation of R288 between points p and p + 1, to the nearest code, ties upward. -/
def tableStep (x x0 x1 : Int) (y0 y1 : Nat) : Nat :=
  let num := (y0 : Int) * (x1 - x0) + ((y1 : Int) - y0) * (x - x0)
  ((2 * num + (x1 - x0)) / (2 * (x1 - x0))).toNat

/-- The table output for an input, from point p on. -/
def tableFrom (t : Tendril) (x : Int) : Nat → Nat → Nat
  | 0, p => t.ptOut p
  | n + 1, p => if x < t.ptIn (p + 1) then tableStep x (t.ptIn p) (t.ptIn (p + 1)) (t.ptOut p) (t.ptOut (p + 1))
      else tableFrom t x n (p + 1)

def Tendril.tableOut (t : Tendril) : Nat :=
  let x : Int := if bit t.scfg 12 then t.cin.toInt else t.vin.toInt
  if x ≤ t.ptIn 0 then t.ptOut 0 else tableFrom t x (t.npts - 1) 0

/-! ## Slots (R279 to R283) -/

/-- TENDRIL_SLOT: the Tendril opens a slot; the main die sends the state committed at the most recent edge. -/
def tendrilSlot (downOk : Bool) (d : Dev) : Dev :=
  let t := d.tdl
  if !t.powered then d
  else
    let d := match t.slot with
      | some a => d.reach (a + 3000000)
      | none => d
    let t := { t with slot := some d.now }
    if downOk && d.ready then
      let dl : Downlink := { set := d.fld TDL_SETPT 15 0, setv := d.flag TDL_STAT 2, mode := d.mode, org := d.origin, halt := d.halted }
      d.setTdl { t with down := some dl, misses := 0, silent := false }
    else d.setTdl { t with misses := t.misses + 1 }

def execTendrilSlot (downOk : Bool) (s : State) : Out := .next { s with dev := tendrilSlot downOk s.dev }

/-- Row 4 of R280: the downlink's mode lets the committed set-point drive the loop. -/
def Downlink.sets (l : Downlink) : Bool :=
  !l.halt && l.setv && (decide (l.mode = .run) || decide (l.mode = .hold) || (decide (l.mode = .trim) && decide (l.org = .hold)))

/-- A committed set-point as applied (R283). -/
def clampSet (s : Nat) : Nat := min 46000 (max 7000 s)

/-- The low and high alarm codes. -/
def alarmOut (high : Bool) : Nat × Nat := if high then (4, 43500) else (3, 7200)

/-- The source and the code by the first row of R280 that applies. -/
def Tendril.choose (t : Tendril) : Nat × Nat :=
  let sf := if bit t.scfg 12 then t.sfC else t.sfV
  if t.nvBad || t.refErr then (3, 7200)
  else
    match t.trim with
    | some c => (5, c)
    | none =>
      match if t.silent then none else t.down.filter Downlink.sets with
      | some l => (1, clampSet l.set)
      | none =>
        match bits t.sil 9 8 with
        | 0 => if sf then alarmOut (bit t.sil 12) else (2, t.tableOut)
        | 2 => alarmOut true
        | _ => alarmOut false

/-- What the DAC is driven to for a code: the trims of the Tendril's own memory, but the points of a trim step are nominal
(R285). -/
def Tendril.dacFor (t : Tendril) (src code : Nat) : Rat :=
  if src = 5 then code else trimmedDac (t.nvWord 0x0C) (mkRat 2 100) code

/-- The loop current holds: an image is being programmed (R290), or the conversions restart with the current held. -/
def Tendril.holds (t : Tendril) (now : Nat) : Bool :=
  t.job.any (fun j => decide (j.stage = .program)) || (t.hold && !t.settled now)

/-- SOURCE_SELECT, at the end of the downlink window of a slot. The code during START is open within the 3.0 mA to 3.4 mA of R272
(assumption 23). -/
def sourceSelect (d : Dev) : Dev :=
  let t := d.tdl
  match t.slot with
  | none => d
  | some a =>
    let d := d.reach (a + 1200000)
    let t := { t with silent := decide (bits t.sil 7 0 ≤ t.misses) || t.down.isNone }
    if !t.started && !t.settled d.now then
      let code := 6000 + (Config.freeWord d.freeCtr).toNat % 801
      d.tickFree.setTdl { t with src := 0, code := code, dac := code }
    else if t.holds d.now then d.setTdl t
    else
      let (src, code) := t.choose
      d.setTdl { t with started := true, hold := false, src := src, code := code, dac := t.dacFor src code }

def execSourceSelect (s : State) : Out := .next { s with dev := sourceSelect s.dev }

/-! ## Uplink and mirror (R279) -/

/-- LINK changes: event 200. -/
def tdlLinkSet (up : Bool) (d : Dev) : Dev :=
  if d.flag TDL_STAT 0 = up then { d with tdlLink := up }
  else
    let d := if up then d else trimLinkLost 4 d
    raise 200 { Dev.setFlag TDL_STAT 0 up d with tdlLink := up }

/-- A Tendril wake cause (R131). -/
def tdlWake (d : Dev) : Dev := { d with pw := { d.pw with wakeReq := d.pw.wakeReq ||| 4 } }

/-- A restart is reported: the Tendril has chosen its reference pair anew, which one is open, and its oscillator trim is the
factory's again (20_trim.md, steps 4 and 5). -/
def tdlRestarted (d : Dev) : Dev :=
  (d.setReg TRM_TREF ([3, 5, 6].getD ((Config.freeWord (d.freeCtr + 1)).toNat % 3) 3)).setReg TRM_TOSC 0 |>.tickFree

/-- What a valid uplink carries reaches the mirror: sensor results, status, source, and events as they come up. -/
def tdlMirror (mv temp : BitVec 16) (d : Dev) : Dev :=
  let t := d.tdl
  let was := d.reg TDL_STAT
  let d := (d.setReg TDL_VIN t.vin).setReg TDL_CIN t.cin
  let d := d.setReg TDL_SEQ (word (t.vseq.toNat + 256 * t.cseq.toNat + 65536 * t.rxSeq.toNat + 2 ^ 24 * t.txSeq.toNat))
  let d := d.setReg TDL_LOOP (word (t.code + 65536 * t.src))
  let d := d.setReg TDL_ENV (temp.setWidth 32 <<< (16 : Nat) ||| mv.setWidth 32)
  let d := d.setReg TDL_NVTCRC (if t.nvFail then Config.freeWord d.freeCtr &&& 0xFFFF else t.crc)
  let d := Dev.setFld TDL_STAT 10 8 t.src (Dev.setFlag TDL_STAT 1 t.silent (Dev.setFlag TDL_STAT 4 t.nvBad
    (Dev.setFlag TDL_STAT 5 t.refErr (Dev.setFlag TDL_STAT 6 t.sfV (Dev.setFlag TDL_STAT 7 t.sfC d)))))
  let d := if (t.sfV && !bit was 6) || (t.sfC && !bit was 7) then tdlWake (raise 202 d) else d
  let alarm := decide (t.src = 3) || decide (t.src = 4)
  let d := if alarm && decide (bits was 10 8 ≠ t.src) then tdlWake (raise 203 d) else d
  let lowv := decide (mv.toNat < 10000)
  let d := if lowv && !d.flag TDL_STAT 21 then raise 207 (Dev.setFlag TDL_STAT 21 true d) else d
  let d := if t.foldB && !d.flag TDL_STAT 20 then raise 207 (Dev.setFlag TDL_STAT 20 true d) else d
  let d := if t.restart then raise 201 (Dev.setFlag TDL_STAT 16 true (Dev.count1 TDL_RESTARTS (tdlRestarted d))) else d
  let d := if t.rxErr = 0 then d
    else Dev.setFlag TDL_STAT 18 true (Dev.setFld TDL_HCNT 15 0 (d.fld TDL_HCNT 15 0 + t.rxErr) d)
  d.tickFree.setTdl { t with restart := false, rxErr := 0, seen := t.conv }

/-- UPLINK_RECEIVE: a valid uplink is kept; a corrupt or missing one counts in TDL_FRERR. -/
def uplinkReceive (ok : Bool) (mv temp : BitVec 16) (d : Dev) : Dev :=
  if ok && d.tdl.powered then tdlMirror mv temp (tdlLinkSet true d) else Dev.count1 TDL_FRERR d

def execUplinkReceive (ok : Bool) (mv temp : BitVec 16) (s : State) : Out :=
  onReady (uplinkReceive ok mv temp) s

/-- TENDRIL_LINK_LOSS: no valid uplink for 3 ms; the mirror keeps the last values (R26). -/
def execTendrilLinkLoss (s : State) : Out :=
  onReady (fun d => tdlLinkSet false (Dev.setFlag TDL_STAT 1 false d)) s

/-- The committed SETPT of an edge, the one accepted last: the set-point and SETV; CLAMP for a code that R283 clamps. -/
def setptWrite (v : Word) (d : Dev) : Dev :=
  let s := bits v 15 0
  let d := Dev.setFlag TDL_STAT 2 true (d.setReg TDL_SETPT (v &&& 0xFFFF))
  if s < 7000 ∨ 46000 < s then Dev.setFlag TDL_STAT 17 true d else d

def execSetptWrite (v : Word) (s : State) : Out := atEdge (setptWrite v) s

/-! ## Memory commands (R289, R290) -/

/-- A memory command ends: STATE, CODE and event 206. -/
def nvEnd (state code : Nat) (d : Dev) : Dev :=
  let d := d.setTdl { d.tdl with job := none }
  raise 206 (d.setReg TDL_NVSTAT (setBits (setBits (d.reg TDL_NVSTAT) 15 8 code) 1 0 state))

/-- A write of TDL_NVCMD that is ignored (R289). -/
def nvIgnore (d : Dev) : Dev := Dev.setFlag TDL_NVSTAT 31 true d

/-- TDL_NVCMD: accepted in Commission, linked, with no command running; any other write sets IGN, and code 1 or 2 where it
is refused at the mirror. WRITE and READ together are ignored (assumption 46). -/
def nvCommand (v : Word) (d : Dev) : Dev :=
  if d.tdl.job.isSome || decide (bits v 1 0 = 0) || decide (bits v 1 0 = 3) then nvIgnore d
  else if d.mode ≠ .commission then nvEnd 3 1 (nvIgnore d)
  else if !d.flag TDL_STAT 0 then nvEnd 3 2 (nvIgnore d)
  else
    let job := if bit v 0 then some (nvImage d) else none
    let w := setBits (setBits (d.reg TDL_NVSTAT) 15 8 0) 1 0 1
    (d.setReg TDL_NVSTAT w).setTdl { d.tdl with job := some ⟨job, .transfer⟩ }

/-- The Tendril's memory from an image. -/
def nvStore (im : List Word) : SMap Word := im.zipIdx.foldl (fun m e => smSet tdlShip m e.2 e.1) []

/-- The image registers from the Tendril's memory. -/
def nvLoad (t : Tendril) (d : Dev) : Dev := forAll 512 (fun i d => d.setReg (TDL_SCFG + 4 * i) (smGet tdlShip t.nv i)) d

/-- The transfer of a memory command is complete: a READ ends; the image of a WRITE is refused, or its programming begins, during
which the loop current holds (R290). -/
def nvSent (j : NvJob) (d : Dev) : Dev :=
  match j.image with
  | none => nvEnd 2 0 (nvLoad d.tdl d)
  | some im => if nvCheck im ≠ 0 then nvEnd 3 (nvCheck im) d else d.setTdl { d.tdl with job := some { j with stage := .program } }

/-- The programmed image takes effect; the conversions restart with the loop current held (R290). -/
def nvInEffect (im : List Word) (d : Dev) : Dev :=
  let t := d.tdl
  let t := { t with nv := nvStore im, nvFail := false, nvBad := false, settle := 0, hold := true, begun := d.now }
  nvEnd 2 0 (d.setTdl { t with vbad := 0, ebad := 0, cbad := 0, sfV := false, sfC := false })

/-- NV_TRANSFER_END: the transfer failed three times, the whole image has arrived, or the accepted one is programmed. A command
that a loss of loop power cut off ends as a failed one (assumption 46). -/
def nvTransferEnd (e : Sys2Proof.NvEnd) (d : Dev) : Dev :=
  match d.tdl.job with
  | none => d
  | some j =>
    match e, j.stage, j.image with
    | .failed, .transfer, _ => nvEnd 3 5 d
    | .sent, .transfer, _ => nvSent j d
    | .programmed, .program, some im => nvInEffect im d
    | _, .lost, _ => nvEnd 3 5 d
    | _, _, _ => d

def execNvTransferEnd (e : Sys2Proof.NvEnd) (s : State) : Out := .next { s with dev := nvTransferEnd e s.dev }

/-! ## HART (R292 to R295) -/

/-- The parts of a frame from its delimiter to its check byte; none where the lengths do not fit. -/
def hartParse (f : List Byte) : Option HartReq :=
  match f with
  | [] => none
  | delim :: rest =>
    let n := if bit delim 7 then 5 else 1
    match rest.drop n with
    | cmd :: cnt :: tail =>
      if rest.length = n + 2 + cnt.toNat + 1 then some ⟨delim, rest.take n, cmd, tail.take cnt.toNat⟩ else none
    | _ => none

/-- The XOR of bytes. -/
def xorBytes (l : List Byte) : Byte := l.foldl (· ^^^ ·) 0

/-- The Tendril's long address, bits 7..6 of its first byte 0. -/
def Tendril.longAddr (t : Tendril) : List Byte :=
  leBytes (t.nvWord 0x14).toNat 4 ++ leBytes (t.nvWord 0x18).toNat 1

/-- A request's address with bits 7..6 of the first byte masked. -/
def maskAddr : List Byte → List Byte
  | [] => []
  | a :: t => (a &&& 0x3F) :: t

/-- An all-zero long address: BCAST. -/
def HartReq.bcast (r : HartReq) : Bool := bit r.delim 7 && (maskAddr r.addr).all (fun b => decide (b = 0))

/-- The request is for this Tendril. -/
def Tendril.isMine (t : Tendril) (r : HartReq) : Bool :=
  if bit r.delim 7 then r.bcast || decide (maskAddr r.addr = maskAddr t.longAddr)
  else decide (bits (r.addr.headD 0) 5 0 = bits t.hcfg 5 0)

/-- Trim step 4 runs: requests are checked but not forwarded (20_trim.md). -/
def loopTrimming (d : Dev) : Bool := decide (d.fld TRM_STAT 1 0 = 1) && decide (d.fld TRM_STAT 7 4 = 4)

/-- HART_REQUEST: a frame is checked, and forwarded when it is addressed, linked and the memory is good (R293). -/
def hartRequest (preambles : Nat) (parityOk : Bool) (f : List Byte) (d : Dev) : Dev :=
  let t := d.tdl
  let delim := f.headD 0
  if !t.powered || (decide (delim ≠ 0x02) && decide (delim ≠ 0x82)) then d
  else
    match hartParse f with
    | none => d.setTdl { t with rxErr := t.rxErr + 1 }
    | some r =>
      if preambles < 2 ∨ !parityOk ∨ xorBytes f ≠ 0 then d.setTdl { t with rxErr := t.rxErr + 1 }
      else if !t.isMine r || t.silent || t.down.isNone || t.nvBad || loopTrimming d then d
      else d.setTdl { t with req := some r, reqNew := true, reqIn := false }

def execHartRequest (preambles : Nat) (parityOk : Bool) (f : List Byte) (s : State) : Out :=
  .next { s with dev := hartRequest preambles parityOk f s.dev }

/-- HART_RECORD_LANDING: the last byte of a forwarded request has arrived; its record lands at the first committing edge. -/
def hartArrive (d : Dev) : Dev :=
  let t := d.tdl
  if t.reqNew then tdlWake (d.setTdl { t with reqNew := false, reqIn := true }) else d

def execHartRecordLanding (s : State) : Out := onReady hartArrive s

/-- The 320 bytes of a request record. -/
def hartRecord (r : HartReq) (seq : Byte) : List Byte :=
  let a := r.addr ++ List.replicate 5 0
  [r.delim, r.cmd, BitVec.ofNat 8 r.data.length, seq] ++ a.take 4 ++
    (if bit r.delim 7 then leBytes ((a.getD 4 0).toNat + 256 * b2n r.bcast) 4 else [0, 0, 0, 0]) ++
    (r.data ++ List.replicate 308 0).take 308

/-- At a committing edge: the record is written after the staged writes, RXSEQ advances, event 204 (R294). -/
def hartLand (d : Dev) : Dev :=
  let t := d.tdl
  match t.reqIn, t.req with
  | true, some r =>
    let seq := t.rxSeq + 1
    let d := { d with sram := d.sram.setBytes (d.reg TDL_HRXADDR).toNat (hartRecord r seq) }
    let d := Dev.setFld TDL_SEQ 23 16 seq.toNat d
    raise 204 (d.setTdl { t with reqIn := false, rxSeq := seq })
  | _, _ => d

/-- HART_REPLY_GO: the mirror reads the committed reply record and sends it. -/
def hartReplyGo (d : Dev) : Dev :=
  let a := (d.reg TDL_HTXADDR).toNat
  let b := fun (i : Nat) => d.sram.byte (a + i)
  let n := (b 1).toNat
  d.setTdl { d.tdl with reply := some ⟨b 0, n, b 3, d.sram.bytes (a + 4) n⟩ }

def execHartReplyGo (s : State) : Out := atEdge hartReplyGo s

/-- A dropped reply (R295). -/
def hartDrop (d : Dev) : Dev :=
  raise 205 (Dev.setFlag TDL_STAT 19 true (Dev.setFld TDL_HCNT 31 16 (d.fld TDL_HCNT 31 16 + 1) d))

/-- The transmitted reply. -/
def hartFrame (t : Tendril) (q : HartReq) (r : HartReply) : List Byte :=
  let addr := match q.addr with
    | [] => []
    | a :: rest => (a &&& 0xBF) :: rest
  let body := [if bit q.delim 7 then 0x86 else 0x06] ++ addr ++ [r.cmd, BitVec.ofNat 8 r.count] ++ r.data
  List.replicate (bits t.hcfg 12 8) 0xFF ++ body ++ [xorBytes body]

/-- HART_REPLY_SEND: all of the reply has arrived, `ms` after the request's check byte; it waits while a memory transfer
runs. -/
def hartReplySend (ms : Nat) (d : Dev) : Dev :=
  let t := d.tdl
  match t.reply, t.req with
  | some r, some q =>
    if t.job.isSome then d
    else
      let d := d.setTdl { t with reply := none }
      let ok := decide (r.seq = t.rxSeq) && decide (ms ≤ bits t.hcfg 23 16) && !t.silent && t.down.isSome && t.powered &&
        t.started && decide (2 ≤ r.count)
      if ok then
        let d := Dev.setFld TDL_SEQ 31 24 (t.txSeq + 1).toNat d
        d.setTdl { d.tdl with sent := hartFrame t q r, txSeq := t.txSeq + 1 }
      else hartDrop d
  | some _, none => if t.job.isSome then d else hartDrop (d.setTdl { t with reply := none })
  | none, _ => d

def execHartReplySend (ms : Nat) (s : State) : Out := .next { s with dev := hartReplySend ms s.dev }

/-! ## Capture and ports (R296) -/

/-- The end of Capture: the age at the edge of the latest conversion that the mirror knows. -/
def tdlCapture (d : Dev) : Dev := d.setTdl { d.tdl with age := min 65535 ((d.tick.edgeAt - d.tdl.seen) / 3000) }

def tdlPort (d : Dev) (p : Nat) : Word :=
  match p with
  | 0x2600 => tdlStat d
  | 0x2604 => d.reg TDL_VIN
  | 0x2608 => d.reg TDL_CIN
  | 0x260C => d.reg TDL_SEQ
  | 0x2610 => word d.tdl.age
  | 0x2614 => d.reg TDL_LOOP
  | 0x2618 => d.reg TDL_ENV
  | _ => 0

end Sys2Proof.Machine
end

