-- ==== Sys2Proof/Machine/Trim.lean ====
section
/-! DEFINITION. Trim steps (20_trim.md). TRM_STAT: STATE 1..0, STEP 7..4, INDEX 10..8, POINT 13..12, CODE 19..16, IGN 24,
CFGERR 25. -/
namespace Sys2Proof.Machine

def trimRunning (d : Dev) : Bool := decide (d.fld TRM_STAT 1 0 = 1)
def trimStep (d : Dev) : Nat := d.fld TRM_STAT 7 4
def trimIndex (d : Dev) : Nat := d.fld TRM_STAT 10 8
def trimPoint (d : Dev) : Nat := d.fld TRM_STAT 13 12

/-- The indices a step has (the step table). -/
def stepIndices : Nat → Nat
  | 0 => 1
  | 1 => 3
  | 2 => 8
  | 3 => 4
  | 4 => 1
  | 5 => 2
  | 6 => 1
  | _ => 0

/-- The Needs column of the step table. -/
def stepNeeds (d : Dev) (step i : Nat) : Bool :=
  match step with
  | 1 => d.flag (CTL_SDGRP i) 0
  | 2 => decide (d.fld (FB_CFG i) 2 0 = 5)
  | 3 => d.flag FLD_STAT 0 && d.flag FLD_STAT 1 && !d.isl.safe && !(d.isl.ao[Fin.ofNat 4 i]).shut
  | 4 => d.tdlLink && !d.tdl.nvBad
  | 5 => if i = 0 then d.fldLink else d.tdlLink
  | _ => true

/-- The points of a two-point step drive AOj at 4 mA and 20 mA, and the loop at codes 8,000 and 40,000, each point slewing
from the value before it. -/
def trimDrive (d : Dev) : Dev :=
  let p := trimPoint d
  match trimStep d with
  | 3 =>
    let j := Fin.ofNat 4 (trimIndex d)
    let x := d.isl
    let pt := if p = 0 then none else some (131070000 * (if p = 1 then 4 else 20))
    d.setIsl (aoMove d.now true j { x with ao := x.ao.set j { x.ao[j] with point := pt } })
  | 4 => d.setTdl { d.tdl with trim := if p = 0 then none else some (if p = 1 then 8000 else 40000) }
  | _ => d

/-- GO at its edge (R374, R375). -/
def trimGo (step i : Nat) (d : Dev) : Dev :=
  if d.mode ≠ .trim ∨ trimRunning d then Dev.setFlag TRM_STAT 24 true d
  else
    let code := if stepIndices step ≤ i then 1 else if stepNeeds d step i then 0 else 2
    let w := setBits (setBits (d.reg TRM_STAT &&& 0x3000000) 7 4 step) 10 8 i
    let d := { d with trim := { d.trim with points := 0, ended := none } }
    if code = 0 then d.setReg TRM_STAT (setBits w 1 0 1)
    else raise 233 (d.setReg TRM_STAT (setBits (setBits w 1 0 3) 19 16 code))

/-- NEXT at its edge: a step that waits at a point goes on to the next point, or past the second one (R376). -/
def trimNext (d : Dev) : Dev :=
  if trimRunning d && decide (trimPoint d ≠ 0) then
    let p := trimPoint d
    trimDrive (Dev.setFld TRM_STAT 13 12 (if p = 1 then 2 else 0) { d with trim := { d.trim with points := p + 1 } })
  else Dev.setFlag TRM_STAT 24 true d

/-- A running step ends: its drive stops, and it waits for a committing edge (R375, R378). -/
def trimEnd (code : Nat) (r : List Word) (d : Dev) : Dev :=
  let d := trimDrive (Dev.setFld TRM_STAT 13 12 0 d)
  { d with trim := { d.trim with ended := some (code, r) } }

/-- A committed TRM_CMD: of GO, NEXT and ABORT together, the GO is ignored (R374); ABORT fails the running step. -/
def trimCmd (v : Word) (d : Dev) : Dev :=
  let n := b2n (bit v 16) + b2n (bit v 17) + b2n (bit v 18)
  let d := if bit v 16 then (if n = 1 then trimGo (bits v 3 0) (bits v 10 8) d else Dev.setFlag TRM_STAT 24 true d) else d
  let d := if bit v 17 then trimNext d else d
  if bit v 18 then trimFail 7 (if trimRunning d then trimDrive (Dev.setFld TRM_STAT 13 12 0 d) else d) else d

def execTrimGo (v : Word) (s : State) : Out := atEdge (trimCmd (v ||| 0x10000)) s
def execTrimNext (s : State) : Out := atEdge (trimCmd 0x20000) s
def execTrimAbort (s : State) : Out := atEdge (trimCmd 0x40000) s

/-- TRIM_POINT_REACHED: the choice of a two-point step is made, and the step stands at its low point (POINT 1). -/
def trimReached (d : Dev) : Dev :=
  if trimRunning d && d.trim.ended.isNone && (decide (trimStep d = 3) || decide (trimStep d = 4)) &&
      decide (d.trim.points = 0) && decide (trimPoint d = 0) then
    trimDrive (Dev.setFld TRM_STAT 13 12 1 { d with trim := { d.trim with points := 1 } })
  else d

def execTrimPointReached (s : State) : Out := .next { s with dev := trimReached s.dev }

/-- TRIM_POINT_TIMEOUT: no NEXT within 600 s of reaching the point: code 5 (R376). -/
def trimTimeout (d : Dev) : Dev :=
  if trimRunning d && decide (trimPoint d ≠ 0) then trimEnd 5 [] d else d

def execTrimPointTimeout (s : State) : Out := .next { s with dev := trimTimeout s.dev }

/-- What a step's result may be, one word for each result: the number of elements that the step keeps (R379, R417). -/
def trimResultOk (step : Nat) (r : List Word) : Bool :=
  match step, r with
  | 0, [a] => decide (a.toNat < 2 ^ 20) && decide (popCount a.toNat 20 = 16)
  | 1, [a] => decide (a.toNat < 2 ^ 24)
  | 2, [a, _, _] => decide (a.toNat < 4)
  | 3, [a] => decide (a.toNat < 2 ^ 18) && decide (popCount a.toNat 18 = 16)
  | 4, [a] => decide (a.toNat < 8) && decide (popCount a.toNat 3 = 2)
  | 5, [a] => decide (a.toNat < 512) && decide (a.toNat / 128 % 2 = 0)
  | 6, [a] => decide (a.toNat < 4)
  | _, _ => false

/-- The code with which the running step may end at this point: a result only after the second point of a two-point step; no
element fits (4); the motion of step 2 is not complete within 60 s (5); step 5 has lost its island's link (6; a two-point step ends
with the link itself). -/
def trimCodeOk (d : Dev) (code : Nat) (r : List Word) : Bool :=
  let step := trimStep d
  match code with
  | 0 => trimResultOk step r && (!(decide (step = 3) || decide (step = 4)) || decide (d.trim.points = 3))
  | 4 => true
  | 5 => decide (step = 2)
  | 6 => decide (step = 5) && !(if trimIndex d = 0 then d.fldLink else d.tdlLink)
  | _ => false

/-- TRIM_STEP_END: the running step ends with a result (code 0) or fails with code 4, 5 or 6. -/
def trimStepEnd (code : Nat) (r : List Word) (d : Dev) : Dev :=
  if trimRunning d && d.trim.ended.isNone && trimCodeOk d code r then trimEnd code (if code = 0 then r else []) d else d

def execTrimStepEnd (code : BitVec 4) (r : List Word) (s : State) : Out :=
  .next { s with dev := trimStepEnd code.toNat r s.dev }

/-- The results of a step in their registers (R378). -/
def trimResult (step i : Nat) (r : List Word) (d : Dev) : Dev :=
  let w := fun (k : Nat) => r.getD k 0
  match step with
  | 0 => d.setReg TRM_PWMSEL (w 0)
  | 1 => d.setReg (TRM_SDSEL i) (w 0)
  | 2 => ((d.setReg (TRM_SCSEL i) (w 0)).setReg (FB_SCOFS i) (w 1)).setReg (FB_SCCOR i) (w 2)
  | 3 => { Dev.setFlag TRM_SRC (8 + i) true d with trim := { d.trim with seg := d.trim.seg.set (Fin.ofNat 4 i) (some (w 0)) } }
  | 4 => d.setReg TRM_TREF (w 0)
  | 5 =>
    if i = 0 then d.setReg TRM_FOSC (w 0)
    else
      -- the Tendril restarts its conversions with the loop current held, as under R290
      (d.setReg TRM_TOSC (w 0)).setTdl { d.tdl with settle := 0, hold := true, begun := d.now }
  | _ => d.setReg TRM_CELSEL (w 0)

/-- TRIM_RESULT_APPLY, at a committing edge (R378). -/
def trimApply (d : Dev) : Dev :=
  match d.trim.ended with
  | none => d
  | some (code, r) =>
    let d := { d with trim := { d.trim with ended := none, points := 0 } }
    if code = 0 then
      let step := trimStep d
      let d := Dev.setFlag TRM_SRC step true (trimResult step (trimIndex d) r d)
      raise 232 (Dev.count1 TRM_COUNT (Dev.setFld TRM_STAT 1 0 2 d))
    else trimFail code d

/-- TRIM_RESTORE_WRITE accepted in Commission: a write of a volatile result takes effect when it completes; one that does not
name exactly the number of elements the step keeps is ignored with CFGERR (R379). -/
def trimRestore (addr : Nat) (v : Word) (d : Dev) : Dev :=
  if addr = TRM_PWMSEL then
    if v.toNat < 2 ^ 20 ∧ popCount v.toNat 20 = 16 then d.setReg addr v else Dev.setFlag TRM_STAT 25 true d
  else
    match row? addr with
    | some r => d.setReg addr (v &&& (r.rw ||| r.wt ||| r.wc))
    | none => d

/-- TRM_AOSEGj as the island reports it; 0 while its link is lost. -/
def aoSegWord (d : Dev) (j : Fin 4) : Word :=
  if d.fldLink then d.trim.seg[j].getD ((Config.aoSeg j).setWidth 32) else 0

end Sys2Proof.Machine
end

