-- ==== Sys2Proof/Machine/Ports.lean ====
section
/-! DEFINITION. The port space (04_programs.md, *Port space*): which ports exist (R82), what PIN returns (R81, R83) and
POUT. -/
namespace Sys2Proof.Machine

open Sys2Proof (Lim)

/-- The offset p lies in lo..hi. -/
def within (p lo hi : Nat) : Bool := decide (lo ≤ p) && decide (p ≤ hi)

/-- The input ports that the chapters assign. -/
def portIn (p : Nat) : Bool :=
  let o := p % 128
  if p < 0x100 then within p 0x00 0x08 || within p 0x10 0x1C || within p 0x20 0x34 || within p 0x40 0x54 || decide (p = 0x58)
  else if within p 0x800 0xFFF then decide (o ≤ 0x20)
  else if within p 0x1000 0x17FF then decide (o ≤ 0x34)
  else if within p 0x1800 0x1FFF then decide (o ≤ 0x3C)
  else if within p 0x2000 0x20FF then decide (o ≤ 0x18)
  else if within p 0x2100 0x21FF then decide (p ≤ 0x210C)
  else if within p 0x2200 0x23FF then decide (o ≤ 0x18)
  else if within p 0x2400 0x25FF then decide (p ≤ 0x2410) || within p 0x2420 0x243C
  else if within p 0x2600 0x26FF then decide (p ≤ 0x2618)
  else if within p 0x2700 0x27FF then decide (p ≤ 0x2724)
  else within p 0x2800 0x282C

/-- The output ports that the chapters assign. -/
def portOut (p : Nat) : Bool :=
  let o := p % 128
  if p < 0x100 then decide (p = 0x80) || decide (p = 0x84)
  else if within p 0x800 0xFFF then within o 0x40 0x74
  else if within p 0x1000 0x17FF then within o 0x40 0x70
  else if within p 0x1800 0x1FFF then within o 0x40 0x44
  else if within p 0x2000 0x20FF then within o 0x40 0x54
  else if within p 0x2100 0x21FF then within p 0x2180 0x218C
  else if within p 0x2200 0x23FF then within o 0x40 0x48
  else if within p 0x2400 0x25FF then within p 0x2500 0x2508 || within p 0x2510 0x251C
  else if within p 0x2600 0x26FF then within p 0x2680 0x2684
  else decide (p = 0x2880)

/-- The register that forms one target with an output port (R185, R211, R247, R271, R296, R352 and the PRT and IDN
chapters). -/
def portReg (p : Nat) : Option Nat :=
  let o := p % 128
  let k := p / 128
  if p = 0x84 then some FLT_CMD
  else if within p 0x800 0xFFF && within o 0x40 0x74 then some (AX_CFG (k % 16) + (o - 0x30))
  else if within p 0x1000 0x17FF && decide (o = 0x60) then some (CTL_TACT (k % 16))
  else if within p 0x2000 0x20FF && within o 0x40 0x4C then some (PRT_JOBCMD (k % 2) + (o - 0x40))
  else if within p 0x2180 0x2188 then some (TRE_LDADDR + (p - 0x2180))
  else if p = 0x218C then some TRE_LOADCMD
  else if within p 0x2500 0x2508 then some (FLD_DOUT + (p - 0x2500))
  else if within p 0x2510 0x251C then some (FLD_AO ((p - 0x2510) / 4))
  else if p = 0x2680 then some TDL_SETPT
  else if p = 0x2684 then some TDL_HTX
  else if p = 0x2880 then some IDN_CMD
  else none

/-- The output ports that read back 0 (R81). -/
def portZero (p : Nat) : Bool :=
  let o := p % 128
  decide (p = 0x84) || (within p 0x800 0xFFF && decide (o = 0x64)) || (within p 0x1000 0x17FF && decide (o = 0x60)) ||
    (within p 0x1800 0x1FFF && decide (o = 0x40)) || (within p 0x2000 0x20FF && decide (o = 0x40)) ||
    decide (p = 0x218C) || decide (p = 0x2504) || decide (p = 0x2508) || decide (p = 0x2684) || decide (p = 0x2880)

/-- The system ports hold mode, hold causes and power state as at the edge, in the output store (06_modes.md, *System
ports*). -/
def sysPortLatch (d : Dev) : Dev :=
  let pw := d.fld SYS_PWRSTAT 2 0 + 256 * d.fld SYS_PWRSTAT 16 16 + 65536 * d.pw.lastWake.toNat
  ((d.setOut 0x00 (word d.mode.num)).setOut 0x04 (d.reg SYS_HOLDCAUSE)).setOut 0x08 (word pw)

/-- Ports of the system, tick and fault window. -/
def sysPort (d : Dev) (p : Nat) : Word :=
  if p ≤ 0x08 then d.out p
  else if p = 0x10 then fltStat d &&& 0xFF
  else if p = 0x14 then fltDepth d
  else if p = 0x18 then d.reg TCK_SLIPCAUSE &&& 15
  else if p = 0x1C then d.reg TCK_CONSEC
  else if within p 0x20 0x34 then fltRec d 0 ((p - 0x20) / 4)
  else if within p 0x40 0x54 then fltRec d 1 ((p - 0x40) / 4)
  else if p = 0x58 then d.reg FLT_OVF
  else 0

/-- Trim step 1 runs over a group that lane n measures with: its currents read 0. -/
def laneTrimmed (d : Dev) (n : Nat) : Bool :=
  trimRunning d && decide (trimStep d = 1) &&
    (List.range 3).any (fun i => decide (phaseCh d n i / 8 = trimIndex d) && decide (phaseCh d n i < 24))

/-- An input port: `snap` is the device as latched in Capture (R81, R83). -/
def portInput (snap : Dev) (p : Nat) : Word :=
  let o := p % 128
  let k := p / 128
  if p < 0x100 then sysPort snap p
  else if p < 0x1000 then
    let n : Fin 16 := Fin.ofNat 16 k
    if snap.kind n = 0 then 0 else axPort snap n o
  else if p < 0x1800 then
    let n : Fin 16 := Fin.ofNat 16 k
    if o ≤ 0x10 ∧ laneTrimmed snap n then 0 else lanePortIn snap n o
  else if p < 0x2000 then fbPort snap (Fin.ofNat 16 k) o
  else if p < 0x2100 then prtPort snap (Fin.ofNat 2 k) o
  else if p < 0x2200 then treePort snap p
  else if p < 0x2400 then visPort snap (Fin.ofNat 4 (k - 0x44)) o
  else if p < 0x2600 then fieldPort snap p
  else if p < 0x2700 then tdlPort snap p
  else if p < 0x2800 then hrnPort snap p
  else if snap.flag (IDN_CFG (p / 4 % 4)) 12 then idnPort snap p else 0

/-- What PIN of a port returns; a reserved port reads 0 (R3). -/
def pinValue (snap : Dev) (p : Nat) : Word :=
  if portIn p then portInput snap p
  else if portOut p then
    if portZero p then 0
    else match portReg p with
      | some a => snap.reg a
      | none => snap.out p
  else 0

/-- PIN: g[rd] or f[rd] from a port. -/
def execPin (o : Lim) (s : State) : Out :=
  .next (limReg o (!fSel o || okF (rdOf o)) [] 2 2 [if fSel o then kf (rdOf o) else kg (rdOf o)] (fun c =>
    let v := pinValue s.snap (portOf o)
    if fSel o then c.setF (rdOf o) v else c.setG (rdOf o) v) s)

/-- POUT: g[rd] or f[rd] is staged for a port; one to an input port or a reserved port has no effect (R3, R82). -/
def execPout (o : Lim) (s : State) : Out :=
  .next (limDev o (!fSel o || okF (rdOf o)) (skipOff o.core) (fun d =>
    let c := d.core o.core
    let issue := c.cyc + stallOf c [if fSel o then kf (rdOf o) else kg (rdOf o)]
    let v := if fSel o then c.fr (rdOf o) else c.gr (rdOf o)
    let d := d.setCore o.core (c.retire issue 1 1 [])
    if portOut (portOf o) then stage o.core (.port (portOf o) v) d else d) s)

end Sys2Proof.Machine
end

