-- ==== Sys2Proof/Machine/Commit.lean ====
section
/-! DEFINITION. The commit of one tick's staged writes (02_tick.md, R36, R39): registers, ports, memories, mailboxes, and
the outputs that act once, at the edge at which they commit. -/
namespace Sys2Proof.Machine

/-! ## Outputs that act once: of several writes in a tick the one accepted last acts, after the other writes (R39) -/

/-- The word of an output that acts waits, beside its port or register address, for the end of the commit. -/
def hold (p : Nat) (v : Word) (d : Dev) : Dev := (d.setOut (p + 1) v).setOut (p + 2) 1

/-- No word waits. -/
def dropHeld (p : Nat) (d : Dev) : Dev := (d.setOut (p + 1) 0).setOut (p + 2) 0

/-- The waiting word acts. -/
def act (p : Nat) (f : Word → Dev → Dev) (d : Dev) : Dev :=
  if d.out (p + 2) = 0 then d else f (d.out (p + 1)) (dropHeld p d)

/-- The output addresses of lane and print table writes. -/
def twrPort (n i : Nat) : Nat := 0x1064 + 0x80 * n + 4 * i
def denPort (p : Nat) : Nat := 0x2050 + 0x80 * p
def slwPort (p : Nat) : Nat := 0x2054 + 0x80 * p

/-- A waiting word no longer acts where a later write replaced what it would write (R39). -/
def supersede (p : Nat) (f : Word → Bool) (d : Dev) : Dev :=
  if d.out (p + 2) ≠ 0 ∧ f (d.out (p + 1)) then dropHeld p d else d

/-- A host write of word w of the friction or cogging table: its learned flag clears (R196). -/
def commitTable (n : Fin 16) (cog : Bool) (w : Nat) (a : Nat) (v : Word) (d : Dev) : Dev :=
  let d := forAll 4 (fun i d => supersede (twrPort n i) (fun x =>
    bit x 11 && (bit x 10 == cog) && decide (bits x 9 0 / (if cog then 2 else 4) = w)) d) d
  Dev.setFlag (CTL_STAT n) (if cog then 11 else 10) false (d.setReg a v)

/-! ## Registers -/

/-- A committed write of a control-engine register, by offset in the lane window. -/
def commitLane (n : Fin 16) (ofs a : Nat) (v : Word) (d : Dev) : Dev :=
  if ofs = 0 then commitLaneCfg n v d
  else if ofs = 4 then commitPmap n v d
  else if ofs = 0xC then commitCarrier n v d
  else if ofs = 0x98 then hold (0x1060 + 0x80 * n) v d
  else if 0x800 ≤ ofs then commitTable n true ((ofs - 0x800) / 4) a v d
  else if 0x400 ≤ ofs then commitTable n false ((ofs - 0x400) / 4) a v d
  else if isGain ofs then commitGain n ofs v d
  else d.setReg a v

/-- A committed write of a print register, by offset in the port's window. -/
def commitPrint (p : Fin 2) (ofs a : Nat) (v : Word) (d : Dev) : Dev :=
  if ofs = 0 then commitPrtCfg p v d
  else if ofs = 8 then commitRatio p v d
  else if ofs = 0x24 then hold (0x2040 + 0x80 * p) v d
  else if 0x80 ≤ ofs then
    (supersede (slwPort p) (fun x => decide (4 * bits x 1 0 + bits x 4 2 / 2 = (ofs - 0x80) / 4)) d).setReg a v |> retable p
  else if 0x40 ≤ ofs then
    (supersede (denPort p) (fun x => decide (4 * bits x 1 0 + bits x 5 2 / 4 = (ofs - 0x40) / 4)) d).setReg a v |> retable p
  else d.setReg a v

/-- A committed write of a vision register. -/
def commitVision (a : Nat) (v : Word) (d : Dev) : Dev :=
  if a = VIS_CSI_CFG 0 then commitCsiCfg 0 v d
  else if a = VIS_CSI_CFG 1 then commitCsiCfg 1 v d
  else if a = VIS_CSI_SIZE 0 then commitCsiSize 0 v d
  else if a = VIS_CSI_SIZE 1 then commitCsiSize 1 v d
  else if a = VIS_HOFFCFG then commitHoffCfg v d
  else d.setReg a v

/-- A committed write of a register: bits outside its staged and configuration bits keep their value. -/
def commitReg (a : Nat) (v : Word) (d : Dev) : Dev :=
  match row? a with
  | none => d
  | some r =>
    let m := r.wt ||| r.wc
    let w := (d.reg a &&& ~~~ m) ||| (v &&& m)
    let o := a % 0x10000
    match a / 0x10000 with
    | 0x104 =>
      if o < 0x4000 then commitAxis (Fin.ofNat 16 (o / 0x400)) (o % 0x400) w d
      else commitGroup (Fin.ofNat 4 (o / 0x10)) w d
    | 0x105 => commitLane (Fin.ofNat 16 (o / 0x1000)) (o % 0x1000) a w d
    | 0x106 => if o < 0x1000 ∧ o % 0x100 = 0 then commitFbCfg (Fin.ofNat 16 (o / 0x100)) w d else d.setReg a w
    | 0x107 => commitPrint (Fin.ofNat 2 (o / 0x100)) (o % 0x100) a w d
    | 0x108 => commitVision a w d
    | 0x109 => if a = TRE_LOADCMD then hold 0x218C w (d.setOut 0x218C w) else d.setReg a w
    | 0x10A =>
      if a = FLD_CFG then commitFldCfg w d
      else if a = FLD_DFCLR then d.setOut 0x2504 w
      else if a = FLD_RESUME then d.setOut 0x2508 w
      else if 0x80 ≤ o ∧ o < 0xC0 ∧ o % 0x10 = 0 then
        -- FCLR acts once (R264); the word is new in this tick (R262)
        (d.setReg a (w &&& 0x3FFFF)).setOut (aoKey ((o - 0x80) / 0x10)) (1 + 2 * word (b2n (bit v 30)))
      else d.setReg a w
    | 0x10B => if a = TDL_SETPT then hold 0x2680 w d else if a = TDL_HTX then hold 0x2684 w d else d.setReg a w
    | 0x10E => if a = FLT_CMD then hold 0x84 w d else d.setReg a w
    | 0x10F => if a = EVT_SWSET then hold EVT_SWSET w d else d.setReg a w
    | 0x110 => if a = TRM_CMD then hold TRM_CMD w d else d.setReg a w
    | 0x111 => if a = IDN_CMD then hold 0x2880 w d else d.setReg a w
    | _ => d.setReg a w

/-! ## Ports -/

/-- A committed write of an output port; reserved bits of a port without a register read back 0 (R3). -/
def commitPort (p : Nat) (v : Word) (d : Dev) : Dev :=
  let o := p % 128
  match portReg p with
  | some a => commitReg a v d
  | none =>
    if p = 0x80 then d.setOut p (v &&& 1)
    else if within p 0x1000 0x17FF then
      if 0x64 ≤ o then hold p (v &&& 0xFFFF0FFF) (d.setOut p (v &&& 0xFFFF0FFF)) else d.setOut p (if o = 0x5C then v &&& 7 else v)
    else if within p 0x1800 0x1FFF then if o = 0x40 then hold p v d else d.setOut p v
    else if within p 0x2000 0x20FF then
      let w := v &&& (if o = 0x50 then 0x8000FF3F else 0xFFFF801F)
      hold p w (d.setOut p w)
    else
      let g : Fin 4 := Fin.ofNat 4 (p / 128 - 0x44)
      if o = 0x40 then hold p v d else if o = 0x44 then visQcyc g v d else visConfmin g v d

/-- A committed word of feedback port +0x40. -/
def fbAct (c : Fin 16) (v : Word) (d : Dev) : Dev :=
  let d := if bit v 0 then setPos c (setVal d c) d else d
  let d := if bit v 1 then refSet c d else d
  let d := if bit v 2 then zArm c d else d
  if bit v 3 ∧ c.val < 8 then reArm (Fin.ofNat 8 c) d else d

/-- The outputs that act, after the other writes of the tick. -/
def commitActs (d : Dev) : Dev :=
  let d := forAll 16 (fun k d => act (0x1840 + 0x80 * k) (fbAct (Fin.ofNat 16 k)) d) d
  let d := forAll 16 (fun k d => forAll 4 (fun i d => act (twrPort k i) (tableWrite (Fin.ofNat 16 k)) d) d) d
  let d := forAll 16 (fun k d => act (0x1060 + 0x80 * k) (laneAct (Fin.ofNat 16 k)) d) d
  let d := forAll 2 (fun k d =>
    let p : Fin 2 := Fin.ofNat 2 k
    act (0x2040 + 0x80 * k) (jobCmd p) (act (slwPort k) (sliceWrite p) (act (denPort k) (densityWrite p) d))) d
  let d := act 0x218C (fun v d => if bit v 0 then treeLoad d else d) d
  let d := forAll 4 (fun k d => act (0x2240 + 0x80 * k) (visRunPort (Fin.ofNat 4 k)) d) d
  let d := act 0x2680 setptWrite d
  let d := act 0x2684 (fun v d => if bit v 0 then hartReplyGo d else d) d
  let d := act 0x2880 (fun v d => idRead (bits v 3 0) d) d
  let d := act 0x84 popCommit d
  let d := act EVT_SWSET (fun v d => d.setOut EVT_SWSET (d.out EVT_SWSET ||| v)) d
  let d := softEvents (d.out EVT_SWSET).toNat (d.setOut EVT_SWSET 0)
  act TRM_CMD trimCmd d

/-! ## The staged writes of a tick -/

/-- One staged write commits. Carts and casks follow after the rest. -/
def commitOne (d : Dev) (s : Staged) : Dev :=
  match s.w with
  | .reg a v => commitReg a v d
  | .port p v => commitPort p v d
  | .sram a n v => { d with sram := d.sram.write a n v }
  | .dmem k a n v =>
    let c := d.core (Fin.ofNat 6 k)
    d.setCore (Fin.ofNat 6 k) { c with dmem := c.dmem.write a n v }
  | .mbox k j v => d.setReg (LIM_MB k j) v
  | .softEv m => d.setOut EVT_SWSET (d.out EVT_SWSET ||| word m)
  | .cart _ _ => d
  | .cask _ _ => d

/-- The mailbox that a staged write addresses. -/
def mboxOf : Write → Option Nat
  | .mbox k j _ => some (LIM_MB k j)
  | .reg a _ => if LIM_MB 0 0 ≤ a ∧ a < LIM_MB 6 0 then some a else none
  | _ => none

/-- A list with each number once. -/
def nubNat (l : List Nat) : List Nat := l.foldl (fun acc a => if acc.contains a then acc else acc ++ [a]) []

/-- The staged writes commit in order of acceptance, then the outputs that act; each mailbox written counts once (R65). -/
def commitWrites (l : List Staged) (d : Dev) : Dev :=
  let d := forAll 4 (fun j d => d.setOut (aoKey j) 0) ((d.setOut 0x2504 0).setOut 0x2508 0)
  let d := commitActs (l.foldl commitOne d)
  (nubNat (l.filterMap (fun s => mboxOf s.w))).foldl (fun d a => Dev.count1 (a + 0x800) d) d

/-- The casks of a tick in CKC order, and how many. -/
def commitCasks (l : List Staged) (d : Dev) : Dev :=
  let cs := l.filterMap (fun s => match s.w with
    | .cask k c => some (k, c)
    | _ => none)
  journalTick cs.length (cs.foldl (fun d x => caskCommit (Fin.ofNat 6 x.1) x.2 d) d)

/-- The cart issues of a tick enter the queue, after every other write of the edge (R84). -/
def commitCarts (l : List Staged) (d : Dev) : Dev :=
  l.foldl (fun d s => match s.w with
    | .cart k i => cartEnqueue (Fin.ofNat 6 k) i d
    | _ => d) d

/-! ## An image takes effect (R78) -/

/-- A core as the image gives it; its registers are reset (R51). -/
def coreOfImage (im : Image) (k : Nat) : Core :=
  match im.progs.find? (fun p => decide (p.core = k)) with
  | none => Core.reset
  | some p =>
    { Core.reset with imem := Words.setAll [] 0 p.code, consts := Words.setAll [] 0 p.consts,
                      dmem := p.data.foldl (fun (m : Memory) s => m.setBytes s.1 s.2) [] }

/-- The ring of a print port: its base and geometry (R214). -/
def printFeed (im : Image) (p : Nat) (d : Dev) : Dev :=
  match im.feeds.find? (fun f => decide (f.port = p)) with
  | none => (d.setReg (PRT_RINGBASE p) 0).setReg (PRT_GEOM p) 0
  | some f =>
    let w := fun (i : Nat) => fieldOf f.body (4 * i) 4
    (d.setReg (PRT_RINGBASE p) (word (w 0))).setReg (PRT_GEOM p) (word (w 2 + 4096 * w 3 + 65536 * w 1))

/-- IMAGE_TAKE_EFFECT: the accepted image at the first edge after its acceptance. -/
def imageTake (d : Dev) : Dev :=
  match d.loader.next with
  | none => d
  | some im =>
    let d := { d with loader := { d.loader with image := some im, next := none },
                      cores := Vector.ofFn (fun (k : Fin 6) => coreOfImage im k),
                      lanes := d.lanes.map (fun (l : Lane) => { l with sg := Vector.replicate 8 0, sf := Vector.replicate 8 0, sa := 0 }) }
    let d := ((d.setReg LIM_IMGID im.id).setReg LIM_IMGVER im.ver).setReg LIM_CORES (word im.cores)
    let d := ((d.setReg LIM_FAULTCORE (word im.faultCore)).setReg LIM_MINPER (word im.minPer)).setReg LIM_STAGELINES (word im.lines)
    let d := forAll 6 (fun k d => d.setReg (LIM_CERT k) (word (im.certs.getD k 0))) d
    let d := forAll 4 (fun k d => d.setReg (CTL_DPCERT k) (word (im.dpCerts.getD k 0))) d
    let d := forAll 32 (fun k d => d.setReg (TRE_DECL k) (word (im.costs.getD k 0))) d
    let d := forAll 6 (fun k d => forAll 64 (fun j d => (d.setReg (LIM_MB k j) 0).setReg (LIM_MBC k j) 0) d) d
    let d := forAll 2 (printFeed im) d
    treeEvict (visImage (d.setOut 0x80 0))

/-- The staged writes that an image leaves standing: those to data memory are discarded, with REFUSE of the host port that
issued them (R23). -/
def imageDiscard (l : List Staged) (d : Dev) : List Staged × Dev :=
  if d.loader.next.isNone then (l, d)
  else
    let bad := l.filter (fun s => match s.w with
      | .dmem _ _ _ _ => true
      | _ => false)
    let hit := fun (p : Sys2Proof.HostPort) => bad.any (fun s => decide (s.by_ = .host p) || decide (s.by_ = .timed p))
    let d := if hit .a then setRefuse .a d else d
    let d := if hit .b then setRefuse .b d else d
    (l.filter (fun s => match s.w with
      | .dmem _ _ _ _ => false
      | _ => true), d)

end Sys2Proof.Machine
end

