-- ==== Sys2Proof/Machine/Ecdsa.lean ====
section
/-! DEFINITION. ECDSA over P-256 with SHA-256 (FIPS 186-4), which authenticates an image (R76). -/
namespace Sys2Proof.Machine

/-- The field prime, the curve coefficient b (a is -3), the base point and its order. -/
def p256p : Nat := 0xFFFFFFFF00000001000000000000000000000000FFFFFFFFFFFFFFFFFFFFFFFF
def p256b : Nat := 0x5AC635D8AA3A93E7B3EBBD55769886BC651D06B0CC53B0F63BCE3C3E27D2604B
def p256n : Nat := 0xFFFFFFFF00000000FFFFFFFFFFFFFFFFBCE6FAADA7179E84F3B9CAC2FC632551
def p256g : Nat × Nat :=
  (0x6B17D1F2E12C4247F8BCE6E563A440F277037D812DEB33A0F4A13945D898C296,
   0x4FE342E2FE1A7F9B8EE7EB4A7C0F9E162BCE33576B315ECECBB6406837BF51F5)

/-- b ^ e modulo m, for e below 2 ^ bits. -/
def powMod (m b : Nat) : Nat → Nat → Nat
  | 0, _ => 1 % m
  | k + 1, e =>
    let h := powMod m (b * b % m) k (e / 2)
    if e % 2 = 1 then b * h % m else h

/-- The inverse modulo a prime. -/
def invMod (m b : Nat) : Nat := powMod m b 256 (m - 2)

/-- a - b modulo m, for b below m. -/
def subMod (m a b : Nat) : Nat := (a + (m - b % m)) % m

/-- A point of the curve; none is the point at infinity. -/
abbrev EcPoint := Option (Nat × Nat)

/-- The chord or tangent of slope s through (x1, y1) and x2. -/
def ecThird (s x1 y1 x2 : Nat) : EcPoint :=
  let x3 := subMod p256p (subMod p256p (s * s) x1) x2
  some (x3, subMod p256p (s * subMod p256p x1 x3) y1)

def ecDouble : EcPoint → EcPoint
  | none => none
  | some (x, y) =>
    if y = 0 then none
    else ecThird ((subMod p256p (3 * x * x) 3) * invMod p256p (2 * y) % p256p) x y x

def ecAdd : EcPoint → EcPoint → EcPoint
  | none, q => q
  | p, none => p
  | some (x1, y1), some (x2, y2) =>
    if x1 = x2 then (if y1 = y2 then ecDouble (some (x1, y1)) else none)
    else ecThird ((subMod p256p y2 y1) * invMod p256p (subMod p256p x2 x1) % p256p) x1 y1 x2

/-- k times a point, for k below 2 ^ bits. -/
def ecMul (q : EcPoint) : Nat → Nat → EcPoint
  | 0, _ => none
  | b + 1, k =>
    let h := ecDouble (ecMul q b (k / 2))
    if k % 2 = 1 then ecAdd h q else h

/-- The coordinates name a point of the curve. -/
def onCurve (x y : Nat) : Bool :=
  decide (x < p256p) && decide (y < p256p) &&
    decide (y * y % p256p = subMod p256p (x * x * x + p256b) (3 * x))

/-- The signature (r, s) over a hash verifies with the key (x, y). -/
def ecdsaOk (hash x y r s : Nat) : Bool :=
  if decide (r = 0) || decide (p256n ≤ r) || decide (s = 0) || decide (p256n ≤ s) || !onCurve x y then false
  else
    let w := invMod p256n s
    match ecAdd (ecMul (some p256g) 256 (hash * w % p256n)) (ecMul (some (x, y)) 256 (r * w % p256n)) with
    | none => false
    | some (px, _) => decide (px % p256n = r)

end Sys2Proof.Machine
end

