-- ==== Sys2Proof/Machine/Flow.lean ====
section
/-! DEFINITION. The loader's flow rules (R68 to R73), the certified worst case of a program (R57, R90, R91) and of a law
snippet (R75). Assumption 60 says how the rules are read. -/
namespace Sys2Proof.Machine

/-- The worst case carried to a place in a program: cycles, declared tree cycles, staged lines, the latency that each
register still has outstanding there, and the accumulator of a MAC or MACH just before it (R56). -/
structure Path where
  cyc  : Nat
  tree : Nat
  line : Nat
  pend : SMap Nat
  mac  : Option Nat
  deriving DecidableEq, Repr

def nat0 (_ : Nat) : Nat := 0
def Path.start : Path := { cyc := 0, tree := 0, line := 0, pend := [], mac := none }

/-- The larger latency of each register. -/
def maxPend (a b : SMap Nat) : SMap Nat := b.foldl (fun m e => smSet nat0 m e.1 (max e.2 (smGet nat0 m e.1))) a

/-- Where paths join: each figure at its worst, one by one (R90). -/
def Path.join (a b : Path) : Path :=
  { cyc := max a.cyc b.cyc, tree := max a.tree b.tree, line := max a.line b.line, pend := maxPend a.pend b.pend,
    mac := if a.mac = b.mac then a.mac else none }

def joinOpt : Option Path → Option Path → Option Path
  | none, b => b
  | a, none => a
  | some a, some b => some (a.join b)

/-- An instruction is a MAC or MACH. -/
def isMac (op : Nat) : Bool := decide (op = 0x30) || decide (op = 0x31)

/-- The path after an instruction that occupies `cost` cycles: its stall on the registers it reads, and the latencies of
those it writes. A predicated one may leave a register to its earlier producer, and breaks a chain of MACs (R57,
assumption 118). -/
def Path.adv (p : Path) (op : Nat) (o : Sys2Proof.Lim) (i : OpInfo) (cost : Nat) : Path :=
  let acc := ka (rdOf o)
  let reads := i.reads ++ (if o.pn = 0 then [] else [kp o.pn.toNat])
  let waits := reads.filter (fun r => decide (r ≠ kg 0) && decide (r ≠ kp 0) &&
    !(isMac op && decide (r = acc) && decide (p.mac = some (rdOf o))))
  let dec := maxList (waits.map (smGet nat0 p.pend)) + cost
  let left := p.pend.filterMap (fun e => if dec < e.2 then some (e.1, e.2 - dec) else none)
  let keep := fun (r : Nat) => if o.pn = 0 then 0 else smGet nat0 left r
  { p with cyc := p.cyc + dec, pend := i.dsts.foldl (fun m r => smSet nat0 m r (max (i.lat - cost) (keep r))) left,
           mac := if isMac op && decide (o.pn = 0) then some (rdOf o) else none }

/-- The paths that leave a region: by RET, by TEND, and by the ENDL of a loop body. -/
structure Exits where
  ret  : Option Path
  tend : Option Path
  endl : Option Path
  deriving DecidableEq, Repr

def Exits.none : Exits := ⟨Option.none, Option.none, Option.none⟩
def Exits.join (a b : Exits) : Exits := ⟨joinOpt a.ret b.ret, joinOpt a.tend b.tend, joinOpt a.endl b.endl⟩

/-- The worst of the paths that leave. -/
def Exits.worst (e : Exits) : Path := ((joinOpt (joinOpt e.ret e.tend) e.endl)).getD Path.start

/-- A region: the last word address of a function or a loop body, the loops open around it, the functions entered, and
whether it is a loop body. -/
structure Region where
  lim   : Nat
  depth : Nat
  calls : List Nat
  body  : Bool
  deriving DecidableEq, Repr

/-- The program under proof: its words and the declared costs of the tree slots. -/
structure Prog where
  code  : List Word
  costs : List Nat
  deriving DecidableEq, Repr

def Prog.at_ (g : Prog) (a : Nat) : Word := g.code.getD a 0

/-- Control reaches q with a path. -/
def reachAt (q : Nat) (p : Path) (m : SMap Path) : SMap Path :=
  match m.find? (fun e => decide (e.1 = q)) with
  | some e => smInsert q (e.2.join p) m
  | none => smInsert q p m

/-- Control goes from pc to q, which lies ahead within the region. -/
def go (r : Region) (pc q : Nat) (p : Path) (m : SMap Path) : Option (SMap Path) :=
  if pc < q ∧ q ≤ r.lim then some (reachAt q p m) else none

/-- The first ENDL of a level in a..lim. -/
def endlOf (g : Prog) (l a lim : Nat) : Option Nat :=
  ((List.range (lim + 1 - a)).map (a + ·)).find? (fun q => isEndl (g.at_ q) l)

/-- The latencies that a path hands on, with its figures counted anew. -/
def Path.fresh (p : Path) : Path := { Path.start with pend := p.pend, mac := p.mac }

/-- A path whose figures are those of a plus k times those of b, with the latencies of x. -/
def Path.plus (a b x : Path) (k : Nat) : Path :=
  { cyc := a.cyc + k * b.cyc, tree := a.tree + k * b.tree, line := a.line + k * b.line, pend := x.pend, mac := x.mac }

/-- The later iterations of a loop body: its entry latencies grow until they stand still. -/
def laterIters (f : Path → Option Exits) : Nat → Path → Option Exits
  | 0, p => f p
  | n + 1, p =>
    match f p with
    | none => none
    | some e =>
      match e.endl with
      | none => some e
      | some q =>
        let p' := p.join q.fresh
        if p'.fresh = p.fresh then some e else laterIters f n p'.fresh

/-- The paths after a loop of `count` iterations that is entered with p: its exits, and the path after its ENDL. A path of the
body that ends at RET or TEND counts in the worst path of the body too (DESIGN CHOICE, assumption 119). -/
def loopTotal (f : Path → Option Exits) (count : Nat) (p : Path) : Option (Exits × Option Path) :=
  match f p.fresh with
  | none => none
  | some e1 =>
    match (if count ≤ 1 then none else e1.endl) with
    | none =>
      let w := e1.worst
      let out := fun (x : Option Path) => x.map (fun x => p.plus w x 1)
      some (⟨out e1.ret, out e1.tend, none⟩, out e1.endl)
    | some q =>
      match laterIters f 20 q.fresh with
      | none => none
      | some e2 =>
        let base := (p.plus e1.worst p 1).plus e2.worst p (count - 1)
        let out := fun (x : Option Path) => x.map (fun x => base.plus Path.start x 0)
        some (⟨joinOpt (out e1.ret) (out e2.ret), joinOpt (out e1.tend) (out e2.tend), none⟩, out e2.endl)

/-- The table of a BTAB at pc: each word an unpredicated forward JMP (R71). -/
def btabGo (g : Prog) (r : Region) (p : Path) : List Nat → SMap Path → Option (SMap Path)
  | [], m => some m
  | q :: t, m =>
    let w := g.at_ q
    let o := limOf 0 w
    match opInfo w with
    | some i =>
      if opcodeOf w = 0x90 ∧ o.pn = 0 ∧ o.inv = false ∧ q ≤ r.lim then
        match go r q (targetOf o).toNat (p.adv 0x90 o i 2) m with
        | some m => btabGo g r p t m
        | none => none
      else none
    | none => none

/-- A region walked in ascending order of address: what leaves it, or none where a flow rule is broken. `nested` are the
loops met so far, and `m` the places reached and not yet walked. Words that no path from an entry reaches are not held to
R69 to R71 and R75 (DESIGN CHOICE, assumption 120). -/
def walk (g : Prog) : Nat → Region → List (Nat × Nat) → SMap Path → Exits → Option Exits
  | 0, _, _, _, _ => none
  | _ + 1, _, _, [], ex => some ex
  | n + 1, r, nested, (pc, p) :: m, ex =>
    if nested.any (fun b => decide (b.1 < pc) && decide (pc ≤ b.2)) then none
    else
      let w := g.at_ pc
      let o := limOf 0 w
      let op := opcodeOf w
      match opInfo w with
      | none => none
      | some i =>
        let always := decide (o.pn = 0)
        let step := fun (cost : Nat) => p.adv op o i cost
        let fall := fun (cost : Nat) (m : SMap Path) => if always then some m else go r pc (pc + 1) (step cost) m
        if op = 0x95 then
          if r.body && decide (pc = r.lim) && decide (lvlOf o + 1 = r.depth) then
            walk g n r nested m { ex with endl := joinOpt ex.endl (some (step 1)) }
          else none
        else if op = 0x97 then
          match fall 1 m with
          | some m => walk g n r nested m { ex with tend := joinOpt ex.tend (some (step 1)) }
          | none => none
        else if op = 0x92 then
          if r.calls.isEmpty then none
          else match fall 2 m with
            | some m => walk g n r nested m { ex with ret := joinOpt ex.ret (some (step 2)) }
            | none => none
        else if op = 0x90 then
          match (fall 1 m).bind (go r pc (targetOf o).toNat (step 2)) with
          | some m => walk g n r nested m ex
          | none => none
        else if op = 0x96 then
          let k := fnOf o + 1
          match (btabGo g r (step 3) ((List.range k).map (pc + 1 + ·)) m).bind (go r pc (pc + 1 + k) (step 3)) with
          | some m =>
            match fall 3 m with
            | some m => walk g n r nested m ex
            | none => none
          | none => none
        else if op = 0x91 then
          let t := (targetOf o).toNat
          if r.calls.contains t || decide (8 ≤ r.calls.length) then none
          else
            let p1 := step 2
            match walk g n ⟨16383, r.depth, t :: r.calls, false⟩ [] [(t, p1.fresh)] Exits.none with
            | none => none
            | some e =>
              let ex := { ex with tend := joinOpt ex.tend (e.tend.map (fun x => p1.plus x x 1)) }
              let m1 := match e.ret with
                | some x => go r pc (pc + 1) (p1.plus x x 1) m
                | none => some m
              match m1.bind (fall 2) with
              | some m => walk g n r nested m ex
              | none => none
        else if op = 0x93 ∨ op = 0x94 then
          let l := lvlOf o
          let count := if op = 0x93 then countOf o else boundOf o
          match endlOf g l (pc + 1) r.lim with
          | none => none
          | some e =>
            if !(decide (l = r.depth) && decide (pc + 2 ≤ e)) then none
            else
              let p1 := step 1
              let body := fun (x : Path) => walk g n ⟨e, r.depth + 1, r.calls, true⟩ [] [(pc + 1, x)] Exits.none
              match loopTotal body count p1 with
              | none => none
              | some (e1, after) =>
                let m1 := match after with
                  | some x => go r pc (e + 1) x m
                  | none => some m
                let skip := fun (m : SMap Path) => if always && decide (op = 0x93) then some m else go r pc (e + 1) p1 m
                match m1.bind skip with
                | some m => walk g n r ((pc, e) :: nested) m (ex.join e1)
                | none => none
        else
          let d := if op = 0x88 then g.costs.getD (fnOf o) 0 else 0
          let p1 := step (i.cost + d)
          let stored := decide (op = 0x62) || decide (op = 0x63) || decide (op = 0x65)
          let p1 := { p1 with tree := p1.tree + d, line := p1.line + b2n stored }
          match go r pc (pc + 1) p1 m with
          | some m => walk g n r nested m ex
          | none => none

/-! ## Functions (R68) -/

/-- A word address stands in an ascending list, once. -/
def insertAddr (q : Nat) : List Nat → List Nat
  | [] => [q]
  | a :: t => if q < a then q :: a :: t else if q = a then a :: t else a :: insertAddr q t

/-- Where control can go within a function after the word at pc: the next word, a JMP's target, the word after a skipped loop. -/
def flowNext (g : Prog) (pc : Nat) : List Nat :=
  let w := g.at_ pc
  let o := limOf 0 w
  let op := opcodeOf w
  let on_ := match op with
    | 0x90 => [(targetOf o).toNat]
    | 0x92 => []
    | 0x97 => []
    | 0x93 => (pc + 1) :: ((endlOf g (lvlOf o) (pc + 1) 16383).map (· + 1)).toList
    | 0x94 => (pc + 1) :: ((endlOf g (lvlOf o) (pc + 1) 16383).map (· + 1)).toList
    | 0x96 => (List.range (fnOf o + 2)).map (pc + 1 + ·)
    | _ => [pc + 1]
  if o.pn = 0 then on_ else (pc + 1) :: on_

/-- The words of a function, found forward from the addresses in hand. -/
def functionWords (g : Prog) : Nat → List Nat → List Nat
  | 0, _ => []
  | _ + 1, [] => []
  | n + 1, a :: t =>
    if g.code.length ≤ a then functionWords g n t
    else a :: functionWords g n (((flowNext g a).filter (fun q => decide (a < q))).foldl (fun l q => insertAddr q l) t)

/-- The functions of a program, from the entries in hand: each its words. -/
def functionsOf (g : Prog) : Nat → List Nat → List (List Nat) → List Nat → List (List Nat)
  | 0, _, acc, _ => acc
  | _ + 1, [], acc, _ => acc
  | n + 1, e :: t, acc, seen =>
    let ws := functionWords g 16385 [e]
    let calls := (ws.filter (fun a => decide (opcodeOf (g.at_ a) = 0x91))).map (fun a => (targetOf (limOf 0 (g.at_ a))).toNat)
    let new := calls.filter (fun q => decide (q ≠ e) && !seen.contains q && !t.contains q)
    functionsOf g n (new.foldl (fun l q => insertAddr q l) [] ++ t) (ws :: acc) (e :: seen)

/-- Every JMP that a path reaches has its target in the function that holds it: a function with the target holds the JMP as well
(R68, assumption 120). -/
def jumpsInFunction (g : Prog) (entry : Nat) : Bool :=
  let fs := functionsOf g 16385 [entry] [] []
  fs.all (fun ws => ws.all (fun a => decide (opcodeOf (g.at_ a) ≠ 0x90) ||
    fs.all (fun f => !f.contains (targetOf (limOf 0 (g.at_ a))).toNat || f.contains a)))

/-- The worst path from an entry to TEND, or none where a flow rule is broken (R68 to R73). Regions nest at most 12 deep (8
calls, 3 loops), each of at most 16,384 words. -/
def certify (g : Prog) (entry : Nat) : Option Path :=
  if !jumpsInFunction g entry then none
  else match walk g (12 * 16385) ⟨16383, 0, [], false⟩ [] [(entry, Path.start)] Exits.none with
  | some e => e.tend
  | none => none

/-! ## Law snippets (R75) -/

/-- An operation of the law profile. -/
def lawOp (op : Nat) : Bool :=
  (decide (op ≤ 0x1F) && decide (op ≠ 0x08) && decide (op ≠ 0x09)) ||
  [0x20, 0x21, 0x22, 0x23, 0x30, 0x32, 0x34, 0x36, 0x90, 0x97].contains op ||
  (decide (0x40 ≤ op) && decide (op ≤ 0x4E) && decide (op ≠ 0x44) && decide (op ≠ 0x45))

/-- A register of the law profile: g0 to g15, f0 to f15, a0, p0 to p3. -/
def lawReg (r : Nat) : Bool :=
  decide (r < 16) || (decide (32 ≤ r) && decide (r ≤ 48)) || (decide (56 ≤ r) && decide (r < 60))

/-- A word of the law profile. -/
def lawWord (w : Word) : Bool :=
  let o := limOf 0 w
  let op := opcodeOf w
  match opInfo w with
  | none => false
  | some i =>
    lawOp op && (i.reads ++ i.dsts).all lawReg && decide (o.pn.toNat < 4) &&
      (!(decide (op = 0x1F) || decide (op = 0x4C)) || decide (idx15 o < 64))

/-- The worst path of a snippet to TEND; none where a word or a path breaks R75. -/
def snippetWorst (code : List Word) : Option Nat :=
  if code.all lawWord && decide (code ≠ []) && decide (code.length ≤ 64) then
    match walk ⟨code, []⟩ 16385 ⟨code.length - 1, 0, [], false⟩ [] [(0, Path.start)] Exits.none with
    | some e => e.tend.map (·.cyc)
    | none => none
  else none

end Sys2Proof.Machine
end

