-- ==== Sys2Proof/Machine/Loader.lean ====
section
/-! DEFINITION. The loader of program images (04_programs.md, R76 to R80, R87 to R93, R418, R419). Assumption 61 says how
the form rules are read. -/
namespace Sys2Proof.Machine

/-! ## The form of an image (R418) -/

/-- A section table entry. -/
structure Sect where
  type  : Nat
  core  : Nat
  resv  : Nat
  ofs   : Nat
  size  : Nat
  param : Nat
  deriving DecidableEq, Repr

/-- An image as bytes, and its header fields. -/
structure RawImage where
  bytes : List Byte
  deriving DecidableEq, Repr

def RawImage.hdr (b : RawImage) (o : Nat) : Nat := fieldOf b.bytes o 4
def RawImage.length (b : RawImage) : Nat := b.hdr 0x08
def RawImage.cores (b : RawImage) : Nat := b.hdr 0x14
def RawImage.faultCore (b : RawImage) : Nat := b.hdr 0x18
def RawImage.uses (b : RawImage) : Nat := b.hdr 0x1C
def RawImage.nsect (b : RawImage) : Nat := b.hdr 0x20

def RawImage.sect (b : RawImage) (i : Nat) : Sect :=
  let e := (b.bytes.drop (0x40 + 16 * i)).take 16
  ⟨fieldOf e 0 2, fieldOf e 2 1, fieldOf e 3 1, fieldOf e 4 4, fieldOf e 8 4, fieldOf e 12 4⟩

def RawImage.sects (b : RawImage) : List Sect := (List.range (min 64 b.nsect)).map b.sect
def RawImage.ofType (b : RawImage) (t : Nat) : List Sect := b.sects.filter (fun s => decide (s.type = t))
def RawImage.body (b : RawImage) (s : Sect) : List Byte := (b.bytes.drop s.ofs).take s.size

/-- The header: MAGIC, FORMAT, reserved fields, NSECT, and LENGTH with the section table before the key (items 1, 2). -/
def RawImage.headerOk (b : RawImage) : Bool :=
  decide (64 ≤ b.bytes.length) && decide (b.hdr 0 = 0x48544D4C) && decide (b.hdr 4 = 1) && decide (b.cores < 64) &&
    decide (b.faultCore < 8) && decide (b.uses < 8) && decide (1 ≤ b.nsect) && decide (b.nsect ≤ 64) &&
    ((b.bytes.drop 0x24).take 28).all (fun x => decide (x = 0)) && decide (b.length = b.bytes.length) &&
    decide (b.length ≤ 0x200000) && decide (64 + 16 * b.nsect + 128 ≤ b.length)

/-- One section by itself. R418 does not list an unknown TYPE, a SIZE of type 1 or 3 that is no multiple of 4, or a PARAM beyond
instruction memory: they are refused as FORM (DESIGN CHOICE, assumption 61). -/
def RawImage.sectOk (b : RawImage) (s : Sect) : Bool :=
  decide (s.resv = 0) && decide (s.ofs + s.size + 128 ≤ b.length) &&
  match s.type with
  | 1 => decide (s.core < 6) && decide (s.size % 4 = 0) && decide (s.param < 16384)
  | 2 => decide (s.core < 6)
  | 3 => decide (s.core < 6) && decide (s.size % 4 = 0) && decide (s.param = 0)
  | 4 => decide (s.core = b.faultCore) && decide (s.size = 0) && decide (s.param < 16384)
  | 5 => decide (s.core = 0xFF) && decide (s.size = 128) && decide (s.param = 0)
  | 6 => decide (s.core = 0xFF) && decide (s.param < 65536) && decide (s.param / 64 % 4 = 0) &&
      decide (s.size = 4 * (s.param / 256 + 64))
  | 7 => decide (s.core = 0xFF)
  | 8 => decide (s.core = 0xFF)
  | _ => false

/-- No key occurs twice. -/
def noRepeat : List Nat → Bool
  | [] => true
  | a :: t => !t.contains a && noRepeat t

/-- The bodies of two data sections of one core that overlap (item 8). -/
def dataOverlap (s t : Sect) : Bool :=
  decide (s.core = t.core) && decide (0 < s.size) && decide (0 < t.size) && decide (s.param < t.param + t.size) &&
    decide (t.param < s.param + s.size)

def dataApart : List Sect → Bool
  | [] => true
  | s :: t => t.all (fun x => !dataOverlap s x) && dataApart t

/-- The instruction words of a core's program. -/
def RawImage.code (b : RawImage) (k : Nat) : List Word :=
  match (b.ofType 1).find? (fun s => decide (s.core = k)) with
  | some s => wordsOf (b.body s)
  | none => []

/-- A use that the image makes and USES does not declare (item 9). -/
def RawImage.undeclared (b : RawImage) : Bool :=
  (decide (b.uses % 2 = 0) && (b.ofType 1).any (fun s => (wordsOf (b.body s)).any (fun w => decide (opcodeOf w = 0x80)))) ||
    (decide (b.uses / 2 % 2 = 0) && !(b.ofType 7).isEmpty) || (decide (b.uses / 4 % 2 = 0) && !(b.ofType 8).isEmpty)

def RawImage.formOk (b : RawImage) : Bool :=
  b.headerOk && b.sects.all b.sectOk && noRepeat ((b.ofType 1).map (·.core)) && noRepeat ((b.ofType 3).map (·.core)) &&
    (List.range 6).all (fun k => decide (b.cores / 2 ^ k % 2 = 1) == (b.ofType 1).any (fun s => decide (s.core = k))) &&
    decide ((b.ofType 4).length ≤ 1) && decide ((b.ofType 5).length ≤ 1) &&
    noRepeat ((b.ofType 6).map (fun s => s.param % 64)) && noRepeat ((b.ofType 7).map (·.param)) &&
    noRepeat ((b.ofType 8).map (·.param)) && dataApart (b.ofType 2) && !b.undeclared

/-! ## The other checks -/

/-- KEY: the hash of the key in the image is not the fused one. SIG: the signature does not verify (R76). -/
def RawImage.key (b : RawImage) : List Byte := (b.bytes.drop (b.length - 128)).take 64
def RawImage.keyOk (b : RawImage) : Bool :=
  decide (wordsOf (sha256 b.key) = (List.range 8).map Sys2Proof.Config.keyHash)
def RawImage.sigOk (b : RawImage) : Bool :=
  let t := b.bytes.drop (b.length - 128)
  let n := fun (o : Nat) => beNat ((t.drop o).take 32)
  ecdsaOk (beNat (sha256 (b.bytes.take (b.length - 128)))) (n 0) (n 32) (n 64) (n 96)

/-- A section exceeds its memory or table. -/
def sizeOk (s : Sect) : Bool :=
  match s.type with
  | 1 => decide (s.size ≤ 4 * 16384)
  | 2 => decide (s.param + s.size ≤ 0x20000)
  | 3 => decide (s.size ≤ 4 * 4096)
  | _ => true

/-- The declared costs of the tree slots. -/
def RawImage.costs (b : RawImage) : List Nat :=
  match b.ofType 5 with
  | s :: _ => (wordsOf (b.body s)).map (·.toNat)
  | [] => List.replicate 32 0

/-- The law snippets. -/
def RawImage.snippets (b : RawImage) : List Snippet :=
  (b.ofType 6).map (fun s =>
    let ws := wordsOf (b.body s)
    let n := s.param / 256
    ⟨s.param % 16, s.param / 16 % 4, ws.take n, ws.drop n⟩)

/-- The cores with a tick program, the fault core where it is one of them and has a fault program, and entries. -/
def RawImage.coreList (b : RawImage) : List Nat := (List.range 6).filter (fun k => decide (b.cores / 2 ^ k % 2 = 1))
def RawImage.entry (b : RawImage) (k : Nat) : Nat :=
  (((b.ofType 1).find? (fun s => decide (s.core = k))).map (·.param)).getD 0
def RawImage.faultEntry (b : RawImage) : Option Nat :=
  if b.coreList.contains b.faultCore then (b.ofType 4).head?.map (·.param) else none

/-- The worst paths of a core: tick program, and fault program on the fault core (R80). -/
def RawImage.runs (b : RawImage) (k : Nat) : List (Option Path) :=
  let g : Prog := ⟨b.code k, b.costs⟩
  certify g (b.entry k) ::
    (match b.faultEntry with
      | some e => if k = b.faultCore then [certify g e] else []
      | none => [])

/-- A figure of a core summed over its programs. -/
def RawImage.total (b : RawImage) (f : Path → Nat) (k : Nat) : Nat :=
  sumList ((b.runs k).map (fun p => (p.map f).getD 0))

/-- The certified worst case of a core; one that runs trees is charged those of the lower cores too (R28, R90). -/
def RawImage.cert (b : RawImage) (k : Nat) : Nat :=
  if !b.coreList.contains k then 0
  else
    let own := b.total (·.tree) k
    let lower := sumList ((b.coreList.filter (fun j => decide (j < k))).map (b.total (·.tree)))
    b.total (·.cyc) k + (if own = 0 then 0 else lower)

/-- Some word of some program meets a condition of its opcode and operands. -/
def RawImage.anyWord (b : RawImage) (f : Nat → Nat → Sys2Proof.Lim → Bool) : Bool :=
  b.coreList.any (fun k => (b.code k).any (fun w => f k (opcodeOf w) (limOf 0 w)))

/-- The words of a core's constant table. -/
def RawImage.consts (b : RawImage) (k : Nat) : List Word :=
  match (b.ofType 3).find? (fun s => decide (s.core = k)) with
  | some s => wordsOf (b.body s)
  | none => []

def badConst (b : RawImage) (k op : Nat) (o : Sys2Proof.Lim) : Bool :=
  (decide (op = 0x1F) || decide (op = 0x4C)) && decide ((b.consts k).length ≤ idx15 o)
/-- A port breach (R82). -/
def badPort (op : Nat) (o : Sys2Proof.Lim) : Bool :=
  (decide (op = 0x70) && !(portIn (portOf o) || portOut (portOf o))) || (decide (op = 0x71) && !portOut (portOf o))
/-- TREE.RUN on an unused slot (R87). -/
def badSlot (b : RawImage) (op : Nat) (o : Sys2Proof.Lim) : Bool :=
  decide (op = 0x88) && decide (b.costs.getD (fnOf o) 0 = 0)

/-- The certified lines of all cores (R91). -/
def RawImage.lines (b : RawImage) : Nat := sumList (b.coreList.map (b.total (·.line)))

/-- The certified sum of a datapath: four lanes at 96 cycles, and 8 plus the worst path of each snippet (R190). -/
def RawImage.dpCert (b : RawImage) (dp : Nat) : Nat :=
  4 * 96 + sumList ((b.snippets.filter (fun x => decide (x.lane % 4 = dp))).map
    (fun x => 8 + (snippetWorst x.code).getD 0))

/-- A print image feed in range (R214). -/
def feedOk (s : Sect) (body : List Byte) : Bool :=
  let w := fun (i : Nat) => fieldOf body (4 * i) 4
  let rb := (w 3 * w 2 / 2 + 63) / 64 * 64
  decide (s.param < 2) && decide (body.length = 16) && decide (w 0 % 64 = 0) &&
    [2, 4, 8, 16, 32, 64, 128, 256, 512, 1024].contains (w 1) && decide (w 2 % 64 = 0) && decide (64 ≤ w 2) &&
    decide (w 2 ≤ 2048) && decide (1 ≤ w 3) && decide (w 3 ≤ 4) && decide (w 0 + w 1 * rb ≤ 0x400000)

def RawImage.graphs (b : RawImage) : List Graph := (b.ofType 7).map (fun s => ⟨s.param, b.body s⟩)

/-- The refusal codes that apply, from FLOW on; the programs are in form and their words listed. -/
def RawImage.lateCodes (b : RawImage) (dram : Bool) : List (Nat × Bool) :=
  [(6, b.coreList.any (fun k => (b.runs k).any (·.isNone))),
   (7, b.anyWord (badConst b)),
   (8, b.anyWord (fun _ op o => badPort op o)),
   (9, b.anyWord (fun _ op o => badSlot b op o) || b.costs.any (fun c => decide (1 ≤ c) && decide (c < 512)) ||
      b.coreList.any (fun k => decide (369750 < b.cert k))),
   (10, decide (8192 < b.lines)),
   (11, b.snippets.any (fun x => (snippetWorst x.code).isNone) || (List.range 4).any (fun p => decide (4359 < b.dpCert p))),
   (12, decide (b.uses ≠ 0) && !dram),
   (13, b.faultEntry.isNone),
   (14, b.graphs.any (fun g => !g.ok) || (b.ofType 8).any (fun s => !feedOk s (b.body s)))]

/-- The lowest refusal code that applies, 0 for an accepted image (R93). -/
def RawImage.code_ (b : RawImage) (dram : Bool) : Nat :=
  if !b.formOk then 1
  else if !b.keyOk then 2
  else if !b.sigOk then 3
  else if !b.sects.all sizeOk then 4
  else if b.coreList.any (fun k => !(b.code k).all legalWord) || b.snippets.any (fun x => !x.code.all legalWord) then 5
  else (((b.lateCodes dram).find? (·.2)).map (·.1)).getD 0

/-- What an accepted image loads. -/
def RawImage.image (b : RawImage) : Image :=
  let certs := (List.range 6).map b.cert
  let named := fun (k : Nat) => b.sects.any (fun s => decide (1 ≤ s.type) && decide (s.type ≤ 3) && decide (s.core = k))
  { id := word (b.hdr 0x0C), ver := word (b.hdr 0x10), cores := b.cores, faultCore := b.faultCore,
    faultEntry := b.faultEntry.getD 0,
    progs := ((List.range 6).filter named).map (fun k =>
      ⟨k, b.entry k, b.code k, ((b.ofType 2).filter (fun s => decide (s.core = k))).map (fun s => (s.param, b.body s)),
        b.consts k⟩),
    costs := b.costs, snippets := b.snippets, graphs := b.graphs,
    feeds := (b.ofType 8).map (fun s => ⟨s.param, b.body s⟩), certs := certs,
    dpCerts := (List.range 4).map b.dpCert, minPer := max 46875 (2 * maxList certs + 10500), lines := b.lines }

/-! ## A load (R79, R419) -/

/-- A verification runs. -/
def loading (d : Dev) : Bool := decide (d.fld LIM_LDSTAT 1 0 = 1)

/-- The bytes that a running verification reads; none where the source cannot hold the image. -/
def loadSource (d : Dev) : Option (List Byte) :=
  if d.loader.fromCel then
    let n := d.cel.array.read 0x08 4
    if 0x40000 < n then none else some (d.cel.array.bytes 0 n)
  else if 0x200000 < d.loader.len ∨ 0x400000 < d.loader.addr + d.loader.len then none
  else some (d.sram.bytes d.loader.addr d.loader.len)

/-- Bytes that a running verification reads have changed between two states (R419). -/
def loadWatch (old : Dev) (d : Dev) : Dev :=
  if loading d && decide (loadSource old ≠ loadSource d) then { d with loader := { d.loader with changed := true } } else d

/-- A load starts. -/
def loadStart (cel : Bool) (d : Dev) : Dev :=
  let d := d.setReg LIM_LDSTAT (setBits (setBits (d.reg LIM_LDSTAT) 15 8 0) 1 0 1)
  { d with loader := { d.loader with fromCel := cel, addr := (d.reg LIM_IMGADDR).toNat, len := (d.reg LIM_IMGLEN).toNat,
                                     changed := false } }

/-- A write of LIM_LOADCMD by the reins holder (R79). -/
def loadCommand (v : Word) (d : Dev) : Dev :=
  if d.mode ≠ .commission ∨ loading d then raise 25 (Dev.setFlag LIM_LDSTAT 31 true d)
  else if bit v 0 then loadStart (bit v 1) d
  else d

/-- LOAD_VERIFY_END. Where the source changed meanwhile, the bytes read are open; they are checked all the same. -/
def loadVerifyEnd (d : Dev) : Dev :=
  if !loading d then d
  else
    let src := if d.loader.changed then some (Sys2Proof.Config.loaderRead d.freeCtr) else loadSource d
    let d := d.tickFree
    let (code, im) := match src with
      | none => (1, none)
      | some bs => let b : RawImage := ⟨bs⟩
                   let c := b.code_ (decide (d.dramSz ≠ 0))
                   (c, if c = 0 then some b.image else none)
    let done := fun (st : Nat) (d : Dev) => d.setReg LIM_LDSTAT (setBits (setBits (d.reg LIM_LDSTAT) 15 8 code) 1 0 st)
    match im with
    | some i => raise 23 (done 2 { d with loader := { d.loader with next := some i } })
    | none => raise 24 (done 3 d)

def execLoadVerifyEnd (s : State) : Out := .next { s with dev := loadVerifyEnd s.dev }

end Sys2Proof.Machine
end

