-- ==== Sys2Proof/Machine/Modes.lean ====
section
/-! DEFINITION. Modes and hold causes (R114 to R119), the power state chosen at an edge (R129, R130), and what the monitor
does at an edge (R388, R391 to R393). -/
namespace Sys2Proof.Machine

/-! ## The monitor's session and hold (R388, R391) -/

/-- A session is open. -/
def monOpen (d : Dev) : Bool := d.flag MON_STAT 0

/-- The tick runs on after a hold: the next edge falls one period later. -/
def monRelease (d : Dev) : Dev :=
  let d := if monHeld d then { d with tick := { d.tick with due := d.now + d.period } } else d
  let d := (Dev.setFlag MON_STAT 1 false d).setReg MON_STEPS 0
  { d with mon := { d.mon with holdReq := false, stepping := false } }

/-- The session closes, which lets a held tick run on. -/
def monSessionEnd (d : Dev) : Dev := if monOpen d then monRelease (Dev.setFlag MON_STAT 0 false d) else d

/-! ## Modes -/

/-- A device in a mode. -/
def setMode (m : Mode) (d : Dev) : Dev :=
  if m = d.mode then d
  else
    let old := d.mode
    let d := { d with mode := m, origin := if m = .trim then old else .startUp }
    let d := if old = .run then printLeaveRun (axesLeaveRun d) else d
    -- SETV reads 0 at every edge that enters Commission (R282)
    let d := if m = .commission then Dev.setFlag TDL_STAT 2 false d else d
    if old = .commission then monSessionEnd d else d

/-- A refusal of a mode request (R115). -/
def modeRefuse (code : Nat) (d : Dev) : Dev := Dev.setFld SYS_MSTAT 3 0 code (Dev.setFlag SYS_MSTAT 8 true d)

/-- The bit of HRN_STAT that shows a demand. -/
def hrnDemand (d : Dev) : Bool := d.flag HRN_STAT 2

/-- The mark of a Harness link loss that no edge has seen yet. -/
def linkLostMark : Nat := 0x0C

/-- The committed value of the RUNOK port. -/
def runOk (d : Dev) : Bool := bit (d.out 0x80) 0

/-- The first condition of R117 that fails, as its code; 0 when Run may be entered. `demand`: latched in Capture. -/
def runCode (demand : Bool) (d : Dev) : Nat :=
  if d.loader.image.isNone then 2
  else if d.period < (d.reg LIM_MINPER).toNat then 3
  else if !runOk d then 4
  else if d.flag SYS_HOLDCAUSE 2 || d.flag SYS_HOLDCAUSE 3 || d.flag SYS_HOLDCAUSE 4 then 5
  else if demand || !d.hrnLink then 6
  else 0

/-- A mode request at an edge, from the mode in force before it (R115). `cause` is the code of a Hold cause that arose at the
same edge (R116), 0 without one. -/
def modeRequest (from_ : Mode) (demand : Bool) (cause req : Nat) (d : Dev) : Dev :=
  match req, from_ with
  | 0, _ => d
  | 1, .commission => d
  | 1, .hold => setMode .commission d
  | 1, .trim => if trimRunning d then modeRefuse 7 d else setMode .commission d
  | 2, .run => if d.mode = .run then d else modeRefuse cause d
  | 2, .commission | 2, .hold =>
    let code := if cause ≠ 0 then cause else runCode demand d
    if code = 0 then setMode .run d
    else modeRefuse code (if code = 3 then raiseIf (!d.flag TCK_STAT 5) 7 (Dev.setFlag TCK_STAT 5 true d) else d)
  | 3, .run => setMode .hold (Dev.setFlag SYS_HOLDCAUSE 0 true d)
  | 3, .hold => d
  | 3, .trim => if trimRunning d then modeRefuse 7 d else setMode .hold (Dev.setFlag SYS_HOLDCAUSE 0 true d)
  | 4, .commission | 4, .hold => setMode .trim d
  | 4, .trim => d
  | 4, .run => raise 234 (modeRefuse 8 (Dev.setFlag SYS_MSTAT 9 true d))
  | _, _ => modeRefuse 1 d

/-- The modes at an edge: new Hold causes set their bits and, in Run, enter Hold; then the host's request is evaluated
(R116). `demand` is the Harness status latched in Capture of the ending tick. -/
def modeEdge (demand : Bool) (req : Nat) (d : Dev) : Dev :=
  let was := d.mode
  let newDemand := demand && !d.flag SYS_HOLDCAUSE 2
  let lost := d.out linkLostMark ≠ 0
  let prog := decide (was = .run) && !runOk d
  let fault := d.holdReq
  let cause := if prog then 4 else if fault || lost then 5 else if newDemand || (decide (was = .run) && demand) then 6 else 0
  let d := { d.setOut linkLostMark 0 with holdReq := false }
  let d := if prog then Dev.setFlag SYS_HOLDCAUSE 1 true d else d
  let d := if demand then Dev.setFlag SYS_HOLDCAUSE 2 true d else d
  let d := if lost then Dev.setFlag SYS_HOLDCAUSE 3 true d else d
  let d := if fault then Dev.setFlag SYS_HOLDCAUSE 4 true d else d
  let d := if was = .run ∧ (prog || fault || lost || demand) then setMode .hold d else d
  modeRequest was demand cause req d

/-- MODE_REQUEST: the request as at an edge at which it commits; while no edge commits it waits with the other staged writes. -/
def execModeRequest (req : BitVec 3) (s : State) : Out := atEdge (modeEdge (hrnDemand s.snap) req.toNat) s

/-- HARNESS_LINK_LOSS: no valid status frame for 1 ms (R24), be it since READY. It acts at the next edge; HRNLINK shows it at
once. A loss that stands recorded is no new one. -/
def harnessLinkLoss (d : Dev) : Dev :=
  if !d.hrnLink && d.flag SYS_HOLDCAUSE 3 then d
  else hrnWake (Dev.setFlag SYS_HOLDCAUSE 3 true (hrnLinkSet false (d.setOut linkLostMark 1)))

def execHarnessLinkLoss (s : State) : Out := onReady harnessLinkLoss s

/-! ## The power state (R129, R130) -/

/-- The deepest state that HST_LTR admits. -/
def ltrLimit (ltr : Nat) : Nat := if ltr < 8 then 1 else if ltr < 180 then 2 else if ltr < 6000 then 3 else 4

/-- The deepest state that the mode permits. -/
def modeLimit (d : Dev) : Nat :=
  match d.mode with
  | .run => if (List.finRange 16).any (fun n => axEn d n) then 1 else 2
  | .hold => 3
  | .commission => 4
  | _ => 1

/-- The wake causes that are enabled: FLD, HRN, TDL and TMR by SYS_WAKEEN, the host ports always. -/
def wakeEnabled (d : Dev) : BitVec 6 := BitVec.ofNat 6 (d.fld SYS_WAKEEN 3 0 + 48)

/-- What defers the entry to S3 or S4 (R130). -/
def sleepDeferred (d : Dev) : Bool :=
  !d.carts.isEmpty || celBusy d || visBusy d ||
    decide (d.reg (HST_CMDHEAD 0) ≠ d.reg (HST_CMDTAIL 0)) || decide (d.reg (HST_CMDHEAD 1) ≠ d.reg (HST_CMDTAIL 1)) ||
    decide (d.pw.wakeReq &&& wakeEnabled d ≠ 0) ||
    (match d.pw.awake with
      | some n => decide (n < d.fld SYS_PWRCFG 15 0)
      | none => false)

/-- The power state chosen at an edge; S3 and S4 stop the tick. -/
def powerChoose (d : Dev) : Dev :=
  let ltr := ltrLimit (d.fld HST_LTR 15 0)
  let lim := modeLimit d
  let want := if monOpen d || monHeld d then 1 else min ltr lim
  let defer := decide (3 ≤ want) && sleepDeferred d
  let st := if defer then 2 else want
  let d := Dev.setFld SYS_PWRSTAT 10 8 ltr (Dev.setFld SYS_PWRSTAT 6 4 lim
    (Dev.setFlag SYS_PWRSTAT 3 defer (Dev.setFld SYS_PWRSTAT 2 0 st d)))
  let d := { d with pw := { d.pw with wakeReq := 0, awake := d.pw.awake.map (· + 1), stopped := decide (3 ≤ st) } }
  if 3 ≤ st then visSleep d else d

/-! ## The monitor at an edge -/

/-- Cycles from the start of Compute to TEND, as a trace entry shows them. -/
def traceCycles (c : Core) : Word :=
  match c.run with
  | .ended => word c.cyc
  | .idle => 0
  | _ => 0xFFFFFFFF

/-- One trace entry (R393); `causes` are the slip causes of the ended tick. -/
def traceEntry (abandoned : Bool) (causes : Nat) (cycles : List Word) (d : Dev) : Dev :=
  let post := d.fld MON_TRCFG 23 16
  let hit := decide (d.mon.trigHit.toNat &&& d.fld MON_TRCFG 11 8 ≠ 0)
  let d := if hit && d.mon.post.isNone && decide (post ≠ 0) then { d with mon := { d.mon with post := some post } } else d
  if d.flag MON_TRCFG 0 && !d.flag MON_TRCFG 1 then
    let h := d.fld MON_TRHEAD 7 0
    let w1 := b2n abandoned + 2 * causes + 256 * d.mode.num + 4096 * d.fu.stack.length
    let ws := loWord d.tick.count :: word w1 :: cycles
    let d := forAll 8 (fun i d => d.setReg (MON_TRBUF (8 * h + i)) (ws.getD i 0)) d
    let d := d.setReg MON_TRHEAD (word ((h + 1) % 256))
    match d.mon.post with
    | none => d
    | some n =>
      let d := { d with mon := { d.mon with post := some (n - 1) } }
      if n ≤ 1 then Dev.setFlag MON_TRCFG 1 true { d with mon := { d.mon with post := none } } else d
  else d

/-- The monitor holds the tick at this edge: on HOLD, on a trigger (R392), or when STEP has run its ticks. `ran`: a tick
ended here. -/
def monEdge (ran : Bool) (d : Dev) : Dev :=
  let d := if d.mon.stepping && ran then d.setReg MON_STEPS (d.reg MON_STEPS - 1) else d
  let stop := d.mon.holdReq || (d.mon.stepping && decide (d.reg MON_STEPS = 0)) ||
    (decide (d.mode = .commission) && decide (d.mon.trigHit.toNat &&& d.fld MON_TRIGSTOP 3 0 ≠ 0))
  let d' := { d with mon := { d.mon with trigHit := 0 } }
  if monOpen d && stop then
    (Dev.setFlag MON_STAT 1 true d').setReg MON_STEPS 0 |> fun d => { d with mon := { d.mon with holdReq := false, stepping := false } }
  else d'

end Sys2Proof.Machine
end

