-- ==== Sys2Proof/Machine/HostRead.lean ====
section
/-! DEFINITION. Reads of the device address space (01_architecture.md, R13 to R18, R22; 05_host.md): the regions, the value
of every register as it reads, and the reads of the host ports and of the monitor. -/
namespace Sys2Proof.Machine

open Sys2Proof (Reader AccSize)

/-! ## The address map (R13 to R15) -/

/-- The memory regions of the device address space. A local window counts as two: its instruction and its data memory. -/
inductive Area where
  | sram
  | imem (k : Fin 6)
  | dmem (k : Fin 6)
  | regs
  | cellar
  | spill
  | none
  deriving DecidableEq, Repr

/-- The region of a device address. The node store is reserved to the host (R15). -/
def regionOf (a : Nat) : Area :=
  if a < 0x400000 then .sram
  else if a < 0x580000 then
    let o := a % 0x40000
    let k : Fin 6 := Fin.ofNat 6 ((a - 0x400000) / 0x40000)
    if o < 0x10000 then .imem k else if o < 0x20000 then .none else .dmem k
  else if 0x1000000 ≤ a ∧ a < 0x1140000 then .regs
  else if 0x2000000 ≤ a ∧ a < 0x2080000 then .cellar
  else if 0x2080000 ≤ a ∧ a < 0x2081000 then .spill
  else .none

/-- The device address of a BAR0 access of n bytes (R14); an operand above BAR0 is a device address itself. The Cellar window
and the reserved offsets below it stand in BAR0 as the Cellar and the reserved addresses below it do in the device address
space, so an access over that border is taken there. -/
def barAddr (a n : Nat) : Nat :=
  if a + n ≤ 0x1800000 then a
  else if a < 0x1881000 then a + 0x800000
  else if a < 0x2000000 then 0xFFFFFFFF
  else a

def accBytes : AccSize → Nat
  | .b1 => 1
  | .b2 => 2
  | .b4 => 4
  | .b8 => 8

/-- What R17 and R18 make of an access: its region, reserved throughout (none), or an access error (no value). -/
def accessRegion (a n : Nat) : Option Area :=
  let rs := (List.range n).map (fun i => regionOf (a + i))
  match rs.head? with
  | Option.none => some .none
  | some r =>
    if !rs.all (fun q => decide (q = r)) then Option.none
    else if r = .regs ∧ (n ≠ 4 ∨ a % 4 ≠ 0) then Option.none
    else some r

/-! ## Registers as they read -/

def readSys (d : Dev) (a : Nat) : Word :=
  if a = SYS_CAPS then
    word (d.dramSz + 8 * b2n d.pa.pcie + 16 * b2n d.pb.pcie + 256 * b2n d.fldLink + 512 * b2n d.tdlLink + 1024 * b2n d.hrnLink)
  else if a = SYS_MODE then
    word (d.mode.num + (if d.mode = .trim then 16 * d.origin.num else 0) + 256 * b2n d.halted)
  else d.reg a

/-- The Reader's latched upper halves: of TCK_COUNT, TCK_EDGETS and TCK_TS. -/
def hiOf (d : Dev) (r : Reader) : Word × Word × Word :=
  match r with
  | .host p => ((d.port p).hiCount, (d.port p).hiEdge, (d.port p).hiTs)
  | .monitor => (d.mon.hiCount, d.mon.hiEdge, d.mon.hiTs)

/-- The timestamp of the most recent edge (R48). -/
def edgeStamp (d : Dev) : DWord := d.stampAt d.tick.edgeAt

/-- TCK_STAT: PHASE and STOPPED are computed. -/
def tckStat (d : Dev) : Word :=
  let ph := match d.tick.phase with
    | .compute => 1
    | .stage => 2
    | _ => 0
  setBit (setBits (d.reg TCK_STAT) 1 0 (if d.pw.stopped then 0 else ph)) 7 d.pw.stopped

def readTck (d : Dev) (r : Reader) (a : Nat) : Word :=
  if a = TCK_COUNT_LO then loWord d.tick.count
  else if a = TCK_COUNT_HI then (hiOf d r).1
  else if a = TCK_EDGETS_LO then loWord (edgeStamp d)
  else if a = TCK_EDGETS_HI then (hiOf d r).2.1
  else if a = TCK_TS_LO then loWord d.stamp
  else if a = TCK_TS_HI then (hiOf d r).2.2
  else if a = TCK_STAT then tckStat d
  else d.reg a

/-- HST_REINS: HOLDER, LASTWIN and HBLATE. -/
def reinsWord (d : Dev) : Word :=
  let h := match d.reins.holder with
    | none => 0
    | some .a => 1
    | some .b => 2
  word (h + 65536 * d.reins.lastWin.num + 131072 * b2n d.reins.hbLate)

/-- HSTx_STAT: HOLDS is computed; LINK of a quad-SPI port reads 1. -/
def hstStat (d : Dev) (p : Sys2Proof.HostPort) : Word :=
  let w := setBit (d.reg (HST_STAT p.num)) 0 (decide (d.reins.holder = some p))
  if (d.port p).pcie then w else setBit w 8 true

def readHst (d : Dev) (a : Nat) : Word :=
  if a = HST_REINS then reinsWord d
  else if a = HST_STAT 0 then hstStat d .a
  else if a = HST_STAT 1 then hstStat d .b
  else if a = HST_PENDING 0 then word d.pa.timed.length
  else if a = HST_PENDING 1 then word d.pb.timed.length
  else d.reg a

/-- LIMk_CST is as committed; LIMk_EXC shows a CODE only while VALID. -/
def readLim (d snap : Dev) (a : Nat) : Word :=
  let o := a % 0x10000
  let k : Fin 6 := Fin.ofNat 6 ((o - 0x800) / 0x40)
  if a = LIM_CST k then (snap.core k).cst
  else if a = LIM_EXC k then (if d.flag a 31 then d.reg a else 0)
  else d.reg a

/-- The read-only registers of an axis and of a group. -/
def readAx (d : Dev) (a : Nat) : Word :=
  let o := a % 0x10000
  if o < 0x4000 then
    let n : Fin 16 := Fin.ofNat 16 (o / 0x400)
    match o % 0x400 with
    | 0x54 => axPort d n 0x00
    | 0x58 => axPort d n 0x04
    | 0x5C => axPort d n 0x08
    | 0x60 => axPort d n 0x0C
    | 0x64 => axPort d n 0x1C
    | _ => d.reg a
  else if o % 0x10 = 4 then word (32 - (d.group (Fin.ofNat 4 ((o - 0x4000) / 0x10))).queue.length)
  else d.reg a

/-- FBc_POS and FBc_SPD are those latched in the most recent Capture. -/
def readFb (d snap : Dev) (a : Nat) : Word :=
  let o := a % 0x10000
  let c : Fin 16 := Fin.ofNat 16 (o / 0x100)
  if a = FB_POS c then (snap.ch c).pos else if a = FB_SPD c then (snap.ch c).spd else d.reg a

def readFlt (d : Dev) (a : Nat) : Word :=
  if a = FLT_STAT then fltStat d
  else if a = FLT_DEPTH then fltDepth d
  else if FLT_REC 0 0 ≤ a then fltRec d ((a - FLT_REC 0 0) / 0x20) ((a - FLT_REC 0 0) % 0x20 / 4)
  else d.reg a

/-- EVT_SUMMARY: bit w where EVT_STICKYw is not 0. A route of a reserved event reads 0. -/
def readEvt (d : Dev) (a : Nat) : Word :=
  if a = EVT_SUMMARY then word (sumList ((List.range 8).map (fun w => if d.reg (EVT_STICKY w) = 0 then 0 else 2 ^ w)))
  else if EVT_ROUTE 0 ≤ a ∧ evReserved ((a - EVT_ROUTE 0) / 4) then 0
  else d.reg a

def readTdl (d : Dev) (a : Nat) : Word :=
  if a = TDL_STAT then tdlStat d else if a = TDL_NVCRC then nvCrc d else d.reg a

def readTrm (d : Dev) (a : Nat) : Word :=
  if TRM_AOSEG 0 ≤ a ∧ a < TRM_AOSEG 4 then aoSegWord d (Fin.ofNat 4 ((a - TRM_AOSEG 0) / 4)) else d.reg a

/-- CTLn_STAT shows RUN and STRONG as they stand. -/
def readCtl (d : Dev) (a : Nat) : Word :=
  let n : Fin 16 := Fin.ofNat 16 (a % 0x10000 / 0x1000)
  if a = CTL_STAT n then laneStatus d n else d.reg a

/-- A register as it reads; a reserved offset reads 0 (R3). CEL_CKSTATk is the status at edge n (R337). -/
def readReg (d snap : Dev) (r : Reader) (a : Nat) : Word :=
  if (row? a).isNone then 0
  else match a / 0x10000 with
    | 0x100 => readSys d a
    | 0x101 => readTck d r a
    | 0x102 => readHst d a
    | 0x103 => readLim d snap a
    | 0x104 => readAx d a
    | 0x105 => readCtl d a
    | 0x106 => readFb d snap a
    | 0x10B => readTdl d a
    | 0x10D =>
      if a = CEL_STAT then celStat d
      else if CEL_CKSTAT 0 ≤ a ∧ a < CEL_CKSTAT 6 then snap.reg a
      else d.reg a
    | 0x10E => readFlt d a
    | 0x10F => readEvt d a
    | 0x110 => readTrm d a
    | _ => d.reg a

/-- A read of the low half of a 64-bit register latches the upper half for its reader (R47, R48). -/
def latchHi (r : Reader) (a : Nat) (d : Dev) : Dev :=
  let put := fun (f : Port → Port) (g : Mon → Mon) =>
    match r with
    | .host p => d.setPort p (f (d.port p))
    | .monitor => { d with mon := g d.mon }
  if a = TCK_COUNT_LO then let w := hiWord d.tick.count; put (fun x => { x with hiCount := w }) (fun m => { m with hiCount := w })
  else if a = TCK_EDGETS_LO then let w := hiWord (edgeStamp d); put (fun x => { x with hiEdge := w }) (fun m => { m with hiEdge := w })
  else if a = TCK_TS_LO then let w := hiWord d.stamp; put (fun x => { x with hiTs := w }) (fun m => { m with hiTs := w })
  else d

/-! ## Reads -/

/-- One byte of a core's instruction memory. -/
def imemByte (c : Core) (o : Nat) : Byte := BitVec.ofNat 8 ((c.imem.get (o / 4)).toNat / 256 ^ (o % 4))

/-- A byte of a memory region as committed at the most recent edge (R22); `snap` holds the cores as committed. -/
def memByte (d snap : Dev) (r : Area) (a : Nat) : Byte :=
  match r with
  | .sram => d.sram.byte a
  | .imem k => imemByte (d.core k) (a % 0x40000)
  | .dmem k => (snap.core k).dmem.byte (a % 0x40000 - 0x20000)
  | .cellar | .spill => celByte d (a - 0x2000000)
  | _ => 0

def memBytes (d snap : Dev) (r : Area) (a n : Nat) : List Byte := (List.range n).map (fun i => memByte d snap r (a + i))

/-- A read of n bytes from a device address: the bytes, whether the access is good (R17), and the device after it. -/
def devRead (rd : Reader) (a n : Nat) (snap d : Dev) : List Byte × Bool × Dev :=
  match accessRegion a n with
  | none => (List.replicate n 0, false, match rd with
      | .host p => setAccErr p d
      | .monitor => d)
  | some .regs => (leBytes (readReg d snap rd a).toNat 4, true, latchHi rd a d)
  | some r => (memBytes d snap r a n, true, d)

/-- The Cellar's ECC on a host read: an uncorrectable word reads 0 (R334). Events 212 and 213 are Note faults with the
array offset as their DETAIL (R367). -/
def celEcc (e : Sys2Proof.Ecc) (a : Nat) (bs : List Byte) (d : Dev) : List Byte × Dev :=
  if regionOf a = .cellar ∨ regionOf a = .spill then
    match e with
    | .uncorrectable =>
      let o := word (a - 0x2000000)
      (List.replicate bs.length 0, fault 213 .note o (Dev.setFlag CEL_STAT 2 true (d.setReg CEL_UEADDR o)))
    | .corrected => (bs, fault 212 .note (word (a - 0x2000000)) (Dev.setFlag CEL_STAT 3 true d))
    | .ok => (bs, d)
  else (bs, d)

end Sys2Proof.Machine
end

