-- ==== Sys2Proof/Machine/Rings.lean ====
section
/-! DEFINITION. What host ports stage (R7, R38, R101), completions (R110, R112) and timed commands (R106 to R109). -/
namespace Sys2Proof.Machine

open Sys2Proof (HostPort)

/-! ## Refusals (R7, R100, R389) -/

/-- The refusal sticky bit of whoever wrote: a monitor write acts as one of the reins holder. -/
def Writer.refuse (w : Writer) (d : Dev) : Dev :=
  match w with
  | .host p | .timed p => setRefuse p d
  | .monitor => match d.reins.holder with
    | some p => setRefuse p d
    | none => d
  | _ => d

/-! ## Staged writes -/

/-- WC registers whose chapter gives the write an effect when it completes: trim selections and the sin/cos corrections
(R379), and DRM_CFG, which acts at the next reset (R415). -/
def wcNow (a : Nat) : Bool :=
  a = TRM_PWMSEL || (TRM_SDSEL 0 ≤ a && a < TRM_SDSEL 3) || (TRM_SCSEL 0 ≤ a && a < TRM_SCSEL 8) || a = TRM_CELSEL ||
    a = DRM_CFG || (a / 0x10000 = 0x106 && a % 0x10000 < 0x1000 && (a % 0x100 = 0x20 || a % 0x100 = 0x24))

/-- A register whose host write is staged, in the mode given; where none is given, in Commission (R107). -/
def stagedReg (commission : Bool) (a : Nat) : Bool :=
  match row? a with
  | some r => r.wt ≠ 0 || (r.wc ≠ 0 && commission && !wcNow a)
  | none => false

/-- An address that a WRAT may name (R107). -/
def timedTarget (commission : Bool) (a : Nat) : Bool :=
  match accessRegion a 4 with
  | some .sram | some (.dmem _) => true
  | some .regs => decide (a = TCK_CMD) || stagedReg commission a
  | _ => false

/-- A register of an axis that cannot be written while the axis is enabled (R162). -/
def axisLocked (a : Nat) (d : Dev) : Bool :=
  decide (a / 0x10000 = 0x104) && decide (a % 0x10000 < 0x4000) &&
    (a % 0x400 = 0 || a % 0x400 = 4 || a % 0x400 = 0xC) && d.flag (AX_CTRL (a % 0x10000 / 0x400)) 0

/-- A write of TCK_PERIOD that R29 or R30 turns away: PERR, and event 6. -/
def periodError (d : Dev) : Dev := raise 6 (Dev.setFlag TCK_STAT 4 true d)

/-- A write of a staged register by a port or the monitor: refused by mode (status 4), ignored, or staged. -/
def stageReg (w : Writer) (a : Nat) (v : Word) (d : Dev) : Nat × Dev :=
  match row? a with
  | none => (0, d)
  | some r =>
    if r.wc ≠ 0 ∧ d.mode ≠ .commission then
      (4, w.refuse (if a = TCK_PERIOD then periodError d else d))
    else if a = TCK_PERIOD ∧ (v.toNat < 46875 ∨ 750000 < v.toNat) then (0, periodError d)
    else if axisLocked a d then (4, w.refuse d)
    else (0, stageHost w (.reg a v) d)

/-- PKCLR: the peak counters clear at once. -/
def peakClear (d : Dev) : Dev := forAll 6 (fun k d => d.setReg (TCK_PEAK k) 0) d

/-- A write of TCK_CMD: bit 1 PKCLR, bit 0 SLIP (R38). -/
def tckCmd (v : Word) (d : Dev) : Dev :=
  let d := if bit v 1 then peakClear d else d
  if bit v 0 then commandSlip d else d

/-- A staged write to tick SRAM or data memory. -/
def stageMem (w : Writer) (r : Area) (a n v : Nat) (d : Dev) : Dev :=
  match r with
  | .sram => stageHost w (.sram a n v) d
  | .dmem k => stageHost w (.dmem k (a % 0x40000 - 0x20000) n v) d
  | _ => d

/-! ## Completions (R110, R111) -/

/-- Entries of a ring between two indices. -/
def ringUsed (head tail : Nat) : Nat := (tail + 512 - head) % 512

/-- A completion is written: word 0 TAG, STATUS, OPC and PHASE; DATA; TICK; INDEX and NOCOMMIT. Vector 0 is requested. -/
def complete (p : HostPort) (opc tag idx status : Nat) (data : Word) (tick : Nat) (nocommit : Bool) (d : Dev) : Dev :=
  let x := d.port p
  let t := d.fld (HST_CPLTAIL p.num) 8 0
  let w0 := tag % 65536 + 65536 * status + 0x1000000 * (opc % 128) + 0x80000000 * b2n x.cplPhase
  let data := if status = 0 ∧ (opc = 1 ∨ opc = 4) then data else 0
  let ws := [word w0, data, word tick, word (idx + 65536 * b2n nocommit)]
  let d := forAll 4 (fun i d => d.setReg (HST_CPRING p.num (4 * t + i)) (ws.getD i 0)) d
  let d := d.setReg (HST_CPLTAIL p.num) (word ((t + 1) % 512))
  let d := if t = 511 then d.setPort p { x with cplPhase := !x.cplPhase } else d
  vecSet p 0 d

/-- Free slots of the completion ring. -/
def cplFree (p : HostPort) (d : Dev) : Nat :=
  511 - ringUsed (d.fld (HST_CPLHEAD p.num) 8 0) (d.fld (HST_CPLTAIL p.num) 8 0)

/-! ## Timed commands (R106 to R109) -/

/-- The edge that EDGE names: the value with its low bits nearest to the count at consumption (R106). Of two values 2^31 away
the lower one is taken (DESIGN CHOICE, assumption 114): the command is late. -/
def targetEdge (count : DWord) (edge : Word) : Int := (count.toNat : Int) + (edge - loWord count).toInt

/-- A waiting timed command ends. -/
def timedEnd (p : HostPort) (t : Timed) (status : Nat) (data : Word) (nocommit : Bool) (d : Dev) : Dev :=
  let x := d.port p
  complete p (if t.write then 3 else 4) t.tag.toNat t.idx status data t.edge nocommit
    (d.setPort p { x with timed := x.timed.erase t })

/-- The acceptance instant of the tick in progress has passed (R107). -/
def acceptPassed (d : Dev) : Bool := decide (d.tick.phase = .stage)

/-- A WRAT or RDAT is consumed: it waits, or it completes with BADTGT, LATE, FAR or FULL (R106, R107). -/
def timedNew (p : HostPort) (write : Bool) (c : Command) (d : Dev) : Dev :=
  let e := targetEdge c.count c.edge
  let n : Int := c.count.toNat
  let done := fun (st : Nat) => complete p (if write then 3 else 4) c.tag.toNat c.idx st 0 (e % 2 ^ 32).toNat false d
  let x := d.port p
  if write && !timedTarget true c.addr then done 9
  else if e ≤ n ∨ e ≤ d.tick.count.toNat ∨ (e = d.tick.count.toNat + 1 ∧ acceptPassed d) then done 5
  else if n + 65536 < e then done 6
  else if 64 ≤ x.timed.length then done 7
  else
    let t : Timed := { write := write, tag := c.tag, idx := c.idx, addr := c.addr, data := c.data, edge := e.toNat, acc := false,
                       got := none }
    d.setPort p { x with timed := x.timed ++ [t] }

/-- A WRAT at its acceptance instant: it is checked for the reins and staged (R99, R107). -/
def acceptOne (p : HostPort) (t : Timed) (d : Dev) : Dev :=
  if d.reins.holder ≠ some p then setRefuse p (timedEnd p t 1 0 false d)
  else if !timedTarget (decide (d.mode = .commission)) t.addr then timedEnd p t 9 0 false d
  else
    let (st, d) := match accessRegion t.addr 4 with
      | some .regs => if t.addr = TCK_CMD then (0, tckCmd t.data d) else stageReg (.timed p) t.addr t.data d
      | some r => (0, stageMem (.timed p) r t.addr 4 t.data.toNat d)
      | none => (3, d)
    if st ≠ 0 then timedEnd p t st 0 false d
    else
      let x := d.port p
      d.setPort p { x with timed := x.timed.map (fun u => if u = t then { u with acc := true } else u) }

/-- The last core cycle of Compute: every WRAT for the coming edge is accepted, in ring order (R102). -/
def acceptAll (p : HostPort) (d : Dev) : Dev :=
  ((d.port p).timed.filter (fun t => t.write && !t.acc && decide (t.edge = d.tick.count.toNat + 1))).foldl
    (fun d t => acceptOne p t d) d

/-- At edge E the words that the RDATs of edge E return are those committed there (R108). -/
def rdatLatch (p : HostPort) (d : Dev) : Dev :=
  let x := d.port p
  d.setPort p { x with timed := x.timed.map (fun t =>
    if !t.write && decide (t.edge = d.tick.count.toNat) then
      { t with got := some (word (leNat (devRead (.host p) t.addr 4 d d).1)) }
    else t) }

/-- The RDATs of the tick in progress complete with the words of its edge; an access error shows at the port (R17, R108). -/
def performAll (p : HostPort) (snap d : Dev) : Dev :=
  ((d.port p).timed.filter (fun t => !t.write && decide (t.edge = d.tick.count.toNat))).foldl (fun d t =>
    let (bs, ok, d) := devRead (.host p) t.addr 4 snap d
    timedEnd p t (if ok then 0 else 3) (t.got.getD (word (leNat bs))) d.tick.abandoned d) d

/-- An edge: the WRATs it commits or discards complete; one never accepted is late (R107, R109). -/
def timedEdge (commits : Bool) (p : HostPort) (d : Dev) : Dev :=
  ((d.port p).timed.filter (fun t => t.write && decide (t.edge ≤ d.tick.count.toNat))).foldl (fun d t =>
    timedEnd p t (if !t.acc then 5 else if commits then 0 else 8) 0 false d) d

/-- A wake passes over the edges of timed commands: they complete with LATE (R109). -/
def timedWake (p : HostPort) (d : Dev) : Dev :=
  ((d.port p).timed.filter (fun t => decide (t.edge ≤ d.tick.count.toNat))).foldl (fun d t => timedEnd p t 5 0 false d) d

/-! ## The wake (R49, R131, R132, R160) -/

/-- A channel's counting gap. -/
def fbGap (c : Fin 16) (d : Dev) : Dev :=
  let ty := d.fbType c
  if ty = 1 ∨ ty = 2 ∨ ty = 5 then fbUnref c (Dev.setFlag (FB_STAT c) 15 true d)
  else if ty = 3 ∨ ty = 4 then Dev.setFlag (FB_STAT c) 1 false (Dev.setFlag (FB_STAT c) 15 true d)
  else d

/-- The device wakes after a stop of a duration in tick units; `causes` as in SYS_WAKECAUSE. -/
def wakeUp (causes : BitVec 6) (stopTu : Nat) (d : Dev) : Dev :=
  if !d.pw.stopped then d
  else
    let stop := max stopTu (d.now - d.tick.edgeAt)
    let gap := stop / d.period
    let now := max d.now (d.tick.edgeAt + 2 * (stop / 2))
    let d := { d with now := now,
                      tick := { d.tick with count := d.tick.count + BitVec.ofNat 64 gap, due := now + d.period },
                      pw := { d.pw with stopped := false, awake := some 0, lastWake := causes, wakeReq := 0 } }
    let d := ((d.setReg TCK_GAP (word gap)).setReg SYS_WAKECAUSE (causes.setWidth 32))
    let d := Dev.setFld SYS_PWRSTAT 2 0 1 (Dev.setFlag SYS_PWRSTAT 16 true d)
    let d := visWake ((List.finRange 16).foldl (fun (d : Dev) (c : Fin 16) => fbGap c d) d)
    let late := d.ev.deferred
    let d := late.foldl (fun d e => raiseNow e d) { d with ev := { d.ev with deferred := [] } }
    timedWake .b (timedWake .a (raise 8 d))

/-- A host access wakes the device before it is carried out; how long the stop lasted is open (assumption 62). -/
def hostWakes (p : HostPort) (d : Dev) : Dev :=
  if d.pw.stopped then
    wakeUp ((d.pw.wakeReq &&& wakeEnabled d) ||| BitVec.ofNat 6 (2 ^ (4 + p.num)))
      (d.now - d.tick.edgeAt + (Config.freeWord d.freeCtr).toNat) d.tickFree
  else d

end Sys2Proof.Machine
end

