-- ==== Sys2Proof/Machine/Reset.lean ====
section
/-! DEFINITION. Reset of the main die (06_modes.md, R123): every main-die block returns to its reset state; the field, Tendril
and Harness dies, the Cellar's cells and the DRAM keep theirs. -/
namespace Sys2Proof.Machine

/-- Sources of a reset, as SYS_RSTCAUSE records them. -/
def rstPower : Nat := 1
def rstPin : Nat := 2
def rstSoft : Nat := 4

/-- The Tendril die without what the main die holds of it. -/
def Tendril.mainReset (t : Tendril) : Tendril := { t with job := none, reqIn := false, reply := none, seen := 0, age := 0, trim := none }

/-- The Harness die without what the main die holds of it. -/
def Harness.mainReset (h : Harness) : Harness := { h with line := none, events := 0, frame := none, seen := none, echo := 0 }

/-- The Cellar at a reset: unapplied records of the fault unit are lost; the journal waits for replay. -/
def Cellar.mainReset (c : Cellar) : Cellar := { c with recs := [], used := 0 }

/-- The main die enters reset and is released from it, with the straps as sampled. DRM_CFG keeps what was written, which
takes effect now (R415). -/
def mainReset (cause : Nat) (boot : BitVec 2) (hostA hostB : Bool) (d : Dev) : Dev :=
  let r : Dev := { Dev.reset with
    now := d.now, born := d.now, boot := boot, freeCtr := d.freeCtr, pa := Port.reset hostA, pb := Port.reset hostB,
    field := { Field.reset with isl := d.field.isl }, tdl := d.tdl.mainReset, hrn := d.hrn.mainReset,
    cel := d.cel.mainReset, trim := { Trim.reset with seg := d.trim.seg }, dram := d.dram, areas := d.areas, regs := [] }
  ((r.setReg SYS_RSTCAUSE (word cause)).setReg SYS_BOOTSTAT (boot.setWidth 32)).setReg DRM_CFG (d.reg DRM_CFG)

/-- A software reset acts as RST_N without sampling the straps (R123). -/
def softReset (d : Dev) : Dev := mainReset rstSoft d.boot d.pa.pcie d.pb.pcie d

end Sys2Proof.Machine
end

