-- ==== Sys2Proof/Machine/HostWrite.lean ====
section
/-! DEFINITION. Host writes (05_host.md, R7, R17, R23, R38 to R40, R96, R99 to R102, R333): rights, the registers with a
behaviour of their own, memories, and writes held at a port. -/
namespace Sys2Proof.Machine

open Sys2Proof (HostPort AccSize)

/-! ## The reins (R103 to R105) -/

/-- The holder changes: vector 1 on both ports; a monitor session closes (R388). -/
def setHolder (h : Option HostPort) (d : Dev) : Dev :=
  let d := if d.reins.holder = h then d else monSessionEnd d
  vecBoth 1 { d with reins := { d.reins with holder := h, hbLate := false } }

/-- Both ports ask for the free reins in one cycle: the port that did not win last time wins. -/
def reinsContest (d : Dev) : Dev :=
  let w := d.reins.lastWin.other
  let d := setDenied w.other { d with reins := { d.reins with lastWin := w } }
  setHolder (some w) d

def reinsReq (p : HostPort) (contested : Bool) (d : Dev) : Dev :=
  match d.reins.holder with
  | none => if contested then reinsContest d else setHolder (some p) d
  | some q => if q = p then d else setDenied p d

/-- A release; one by a port that does not hold the reins is denied. -/
def reinsRel (p : HostPort) (d : Dev) : Dev := if d.reins.holder = some p then setHolder none d else setDenied p d

/-- A forced take discards the old holder's waiting commands (R105). -/
def reinsTakeFrom (x y : HostPort) (d : Dev) : Dev :=
  let head := d.fld (HST_CMDHEAD x.num) 8 0
  let tail := d.fld (HST_CMDTAIL x.num) 8 0
  let d := (d.setReg (HST_CMDHEAD x.num) (word tail)).setReg (HST_DISCARD x.num) (word (ringUsed head tail))
  let d := Dev.count1 HST_TAKES (setLost x (setDisc x d))
  setHolder (some y) d

def reinsTake (p : HostPort) (contested : Bool) (d : Dev) : Dev :=
  match d.reins.holder with
  | none => if contested then reinsContest d else setHolder (some p) d
  | some q => if q = p then d else if d.reins.hbLate then reinsTakeFrom q p d else setDenied p d

/-- A write of HST_HB by the holder restarts the timer. -/
def heartbeat (p : HostPort) (d : Dev) : Dev :=
  if d.reins.holder = some p then { d with reins := { d.reins with hbLate := false } } else setRefuse p d

/-- A write of HST_REINS: exactly one of REQ, REL and TAKE acts. -/
def writeReins (p : HostPort) (v : Word) (d : Dev) : Dev :=
  match b2n (bit v 8) + b2n (bit v 9) + b2n (bit v 10) with
  | 0 => d
  | 1 => if bit v 8 then reinsReq p false d else if bit v 9 then reinsRel p d else reinsTake p false d
  | _ => setDenied p d

/-! ## Port-own registers (R99, R111, R112) -/

/-- A ring index above 511 is ignored with BADDB. -/
def writeIndex (p : HostPort) (a : Nat) (v : Word) (d : Dev) : Dev := if 511 < v.toNat then setBadDb p d else d.setReg a v

/-- VECACK clears pending bits on a quad-SPI port. -/
def writeVecAck (p : HostPort) (v : Word) (d : Dev) : Dev :=
  if (d.port p).pcie then d else d.setReg (HST_VECPEND p.num) (d.reg (HST_VECPEND p.num) &&& ~~~ v)

/-- The port whose own register an address is; HST_REINS is of both. -/
def ownerOf (a : Nat) : Option HostPort :=
  let own := fun (x : Nat) => a = HST_CMDTAIL x || a = HST_CPLHEAD x || a = HST_VECACK x || a = HST_SPIWIN x ||
    (HST_MSIX x 0 ≤ a && a < HST_MSIX x 128) || (HST_CRING x 0 ≤ a && a < HST_CRING x 2048)
  if own 0 then some .a else if own 1 then some .b else none

/-- A port's write of one of its own registers. -/
def writeOwn (p : HostPort) (a : Nat) (v : Word) (d : Dev) : Dev :=
  if a = HST_CMDTAIL p.num ∨ a = HST_CPLHEAD p.num then writeIndex p a v d
  else if a = HST_VECACK p.num then writeVecAck p v d
  else if a = HST_SPIWIN p.num then d.setReg a (v &&& 0x800001FF)
  else d.setReg a v

/-! ## Registers with a behaviour of their own -/

/-- The read/write and write-1-to-clear bits of a register (R7, R346). -/
def plainWrite (a : Nat) (v : Word) (d : Dev) : Dev :=
  match row? a with
  | none => d
  | some r => d.setReg a (((d.reg a &&& ~~~ r.rw) ||| (v &&& r.rw)) &&& ~~~ (v &&& r.w1c))

/-- SYS_HOLDCAUSE: bits whose cause stands do not clear (R118). -/
def clearHoldCause (demand : Bool) (v : Word) (d : Dev) : Dev :=
  let m := v &&& 0x1F
  let m := if demand then setBit m 2 false else m
  let m := if d.hrnLink then m else setBit m 3 false
  let m := if holdStands d then setBit m 4 false else m
  d.setReg SYS_HOLDCAUSE (d.reg SYS_HOLDCAUSE &&& ~~~ m)

/-- MON_CFG: ALLOW written as 0 closes the session (R388). -/
def writeMonCfg (v : Word) (d : Dev) : Dev :=
  let d := plainWrite MON_CFG v d
  if bit v 1 then d else monSessionEnd d

/-- MON_CODE: the unlock code; BADCODE becomes 0 (R388). -/
def writeMonCode (v : Word) (d : Dev) : Dev := Dev.setFld MON_STAT 9 8 0 { d with mon := { d.mon with code := v } }

/-- MON_TRCFG: EN written as 1 clears FROZEN (R393). -/
def writeTrcfg (v : Word) (d : Dev) : Dev :=
  let d := plainWrite MON_TRCFG v d
  if bit v 0 then Dev.setFlag MON_TRCFG 1 false { d with mon := { d.mon with post := none } } else d

/-- CEL_CMD: KEY 0x5C, in Commission (R343). -/
def writeCelCmd (w : Writer) (v : Word) (d : Dev) : Nat × Dev :=
  if bits v 31 24 ≠ 0x5C then (0, d)
  else if d.mode ≠ .commission then (4, w.refuse d)
  else (0, if bit v 0 then spillClear d else d)

/-- HRN_SEALCMD.SEND, in Commission (R315). -/
def writeSealCmd (w : Writer) (v : Word) (d : Dev) : Nat × Dev :=
  if d.mode ≠ .commission then (4, w.refuse d) else (0, if bit v 0 then sealSend d else d)

/-- FLD_CFGCMD.SEND, in Commission (R255). -/
def writeCfgCmd (v : Word) (d : Dev) : Dev := if bit v 0 && decide (d.mode = .commission) then fieldCfgSend d else d

/-- A WC register that takes effect when the write completes. -/
def writeNow (w : Writer) (a : Nat) (v : Word) (d : Dev) : Nat × Dev :=
  if d.mode ≠ .commission then (4, w.refuse d)
  else if a = DRM_CFG then (0, if bits v 2 0 ≤ 4 then d.setReg a (v &&& 7) else d)
  else (0, trimRestore a v d)

/-- A write of a register, other than the port-own ones, with the rights of the holder. `demand`: the Harness status as
latched in Capture. -/
def writeReg (w : Writer) (demand : Bool) (a : Nat) (v : Word) (d : Dev) : Nat × Dev :=
  if a = TCK_CMD then (0, tckCmd v d)
  else if a = TCK_CFG then (0, if bits v 7 0 = 0 then d else plainWrite a v d)
  else if a = SYS_CMD then (0, if bits v 31 24 = 0xA5 ∧ bit v 0 then softReset d else d)
  else if a = SYS_PWRCFG then (0, if bits v 15 0 = 0 then d else plainWrite a v d)
  else if a = SYS_HOLDCAUSE then (0, clearHoldCause demand v d)
  else if a = HST_HBTO then
    if bits v 9 0 < 10 ∨ 1000 < bits v 9 0 then (4, w.refuse d) else (0, plainWrite a v d)
  else if a = FLT_CFG then (0, plainWrite a (if bits v 7 0 = 0 then setBits v 7 0 (d.fld FLT_CFG 7 0) else v) d)
  else if a = FLT_STAT then (0, clearFltStat v d)
  else if a = EVT_STICKY4 then (0, plainWrite a v d)
  else if EVT_ROUTE 0 ≤ a ∧ a < EVT_ROUTE 256 ∧ evReserved ((a - EVT_ROUTE 0) / 4) then (0, d)
  else if a = CEL_STAT then
    let d := if bit v 0 then logResume d else d
    (0, plainWrite a v d)
  else if a = CEL_CMD then writeCelCmd w v d
  else if a = FLD_CFGCMD then (0, writeCfgCmd v d)
  else if a = HRN_SEALCMD then writeSealCmd w v d
  else if a = TDL_NVCMD then (0, nvCommand v d)
  else if a = LIM_LOADCMD then (0, loadCommand v d)
  else if a = VIS_HOFFRD then (0, setHoffRd v d)
  else if a = MON_CFG then (0, writeMonCfg v d)
  else if a = MON_CODE then (0, writeMonCode v d)
  else if a = MON_BAUD then (0, if bits v 15 0 < 16 then d else plainWrite a v d)
  else if a = MON_TRCFG then (0, writeTrcfg v d)
  else if a / 0x10000 = 0x106 ∧ a % 0x10000 < 0x1000 ∧ a % 0x100 = 4 then (0, if bits v 15 0 = 0 then d else plainWrite a v d)
  else if a / 0x10000 = 0x106 ∧ a % 0x10000 < 0x1000 ∧ a % 0x100 = 0x1C then
    (0, if d.flag (FB_SER (a % 0x10000 / 0x100)) 10 then d else plainWrite a v d)
  else if wcNow a then writeNow w a v d
  else
    match row? a with
    | none => (0, d)
    | some r => if r.wt ≠ 0 ∨ r.wc ≠ 0 then stageReg w a v d else (0, plainWrite a v d)

/-- A host port's write of a register: its own, or one that needs the reins (R99); CEL_CMD with another KEY than 0x5C sets no
sticky bit (R343). The holder's write of the other port's own
registers is ignored. -/
def hostWriteReg (p : HostPort) (demand : Bool) (a : Nat) (v : Word) (d : Dev) : Nat × Dev :=
  if a = HST_REINS then (0, writeReins p v d)
  else match ownerOf a with
    | some q =>
      if q = p then (0, writeOwn p a v d)
      else if d.reins.holder ≠ some p then (1, setRefuse p d)
      else (0, d)
    | none =>
      if d.reins.holder ≠ some p then
        (1, if a = CEL_CMD ∧ bits v 31 24 ≠ 0x5C then d else setRefuse p (if a = TDL_NVCMD then nvIgnore d else d))
      else if a = HST_HB then (0, heartbeat p d)
      else writeReg (.host p) demand a v d

/-! ## Memories -/

/-- The words of a core's instruction memory after a write of n bytes at an offset. -/
def imemWrite (m : Words) (o n v : Nat) : Words :=
  (List.range n).foldl (fun (m : Words) i =>
    let a := o + i
    let lo := 8 * (a % 4)
    m.set (a / 4) (setBits (m.get (a / 4)) (lo + 7) lo (v / 256 ^ i % 256))) m

/-- A write to a memory region, with the rights of the holder. -/
def writeMem (w : Writer) (vf : Sys2Proof.VerifyEnv) (r : Area) (a n v : Nat) (d : Dev) : Nat × Dev :=
  match r with
  | .imem k =>
    if d.mode ≠ .commission then (4, w.refuse d)
    else
      let c := d.core k
      (0, d.setCore k { c with imem := imemWrite c.imem (a % 0x40000) n v })
  | .cellar | .spill =>
    if r = .cellar ∧ a - 0x2000000 + n ≤ 0x40000 ∧ d.mode = .commission then
      (0, loadWatch d (bootWrite vf (a - 0x2000000) n v d))
    else (4, w.refuse d)
  | .none | .regs => (0, d)
  | _ => (0, stageMem w r a n v d)

/-- Every try of a boot-region write verifies. -/
def verifyGood : Sys2Proof.VerifyEnv := { fails := [], spillFail := false }

/-- Whether a write needs a place in the staging area (R40). -/
def needsStage (a n : Nat) (d : Dev) : Bool :=
  match accessRegion a n with
  | some .sram | some (.dmem _) => true
  | some .regs => stagedReg (decide (d.mode = .commission)) a
  | _ => false

/-- A direct write of a port completes (R17, R99): status 0 OK, 1 NOTHOLDER, 3 ACCESS, 4 REFUSED. -/
def hostWrite (p : HostPort) (vf : Sys2Proof.VerifyEnv) (demand : Bool) (a n v : Nat) (d : Dev) : Nat × Dev :=
  match accessRegion a n with
  | none => (3, setAccErr p d)
  | some .regs => hostWriteReg p demand a (word v) d
  | some r =>
    if d.reins.holder ≠ some p then (1, setRefuse p d) else writeMem (.host p) vf r a n v d

/-- The staging area of a port is full for a write to a device address (R40). -/
def mustHold (p : HostPort) (a n : Nat) (d : Dev) : Bool :=
  needsStage a n d && decide (d.reins.holder = some p) && decide (256 ≤ stagedBy p d)

/-! ## The writes of a port, in the order of their arrival (R96) -/

/-- A write of DRAM byte a of the usable capacity, by the holder (R16, R99). -/
def dramWrite (p : HostPort) (a n v : Nat) (d : Dev) : Dev :=
  if d.reins.holder ≠ some p then setRefuse p d else setDramBytes a (leBytes v n) d

/-- The address that a quad-SPI transaction reaches at an offset: DRAM, or a BAR0 offset; PAGE above 1 reaches reserved
space. -/
def spiAddr (win : Word) (ofs : Nat) : Bool × Nat :=
  let o := ofs % 0x1000000
  let pg := bits win 8 0
  if bit win 31 then (true, pg * 0x1000000 + o) else (false, if 1 < pg then 0xFFFFFF00 else barAddr (pg * 0x1000000 + o) 4)

/-- A write to the reins arbiter. -/
def reinsAct (p : HostPort) (a : ReinsAct) (d : Dev) : Dev :=
  match a with
  | .req c => reinsReq p c d
  | .rel => reinsRel p d
  | .take c => reinsTake p c d
  | .beat => heartbeat p d

/-- The device address and size of a write that reaches device addresses. -/
def PortWrite.target (p : HostPort) (x : PortWrite) (d : Dev) : Option (Nat × Nat) :=
  match x with
  | .dev a n _ => some (a, n)
  | .spi ofs _ => match spiAddr (d.reg (HST_SPIWIN p.num)) ofs with
    | (true, _) => none
    | (false, a) => some (a, 4)
  | _ => none

/-- One write of a port completes. -/
def portWrite (p : HostPort) (vf : Sys2Proof.VerifyEnv) (demand : Bool) (x : PortWrite) (d : Dev) : Dev :=
  match x with
  | .dev a n v => (hostWrite p vf demand a n v.toNat d).2
  | .dram a n v => dramWrite p a n v.toNat d
  | .spi ofs v =>
    let (dram, a) := spiAddr (d.reg (HST_SPIWIN p.num)) ofs
    if dram then dramWrite p a 4 v.toNat d else (hostWrite p vf demand a 4 v.toNat d).2
  | .reins a => reinsAct p a d
  | .win v => writeOwn p (HST_SPIWIN p.num) v d

/-- A write that waits for room in the staging area of its port. -/
def PortWrite.waits (p : HostPort) (x : PortWrite) (d : Dev) : Bool :=
  match x.target p d with
  | some (a, n) => mustHold p a n d
  | none => false

/-- A write arrives. One that finds the staging area full is held, and later ones of the port wait behind it (R40, R96). -/
def hostArrive (p : HostPort) (vf : Sys2Proof.VerifyEnv) (demand : Bool) (x : PortWrite) (d : Dev) : Dev :=
  if !(d.port p).held.isEmpty || x.waits p d then d.setPort p { d.port p with held := (d.port p).held ++ [x] }
  else portWrite p vf demand x d

/-- Held writes of a port complete in order while there is room. -/
def heldRun (p : HostPort) (demand : Bool) : Nat → Dev → Dev
  | 0, d => d
  | fuel + 1, d =>
    match (d.port p).held with
    | [] => d
    | x :: rest =>
      if x.waits p d then d
      else heldRun p demand fuel (portWrite p verifyGood demand x (d.setPort p { d.port p with held := rest }))

/-- HELD_WT_WRITE_COMPLETE: an edge has freed the area. -/
def heldComplete (p : HostPort) (demand : Bool) (d : Dev) : Dev := heldRun p demand (d.port p).held.length d

/-- A port's accesses are carried out: READY (R125), and not in D3hot (R95). -/
def portServes (p : HostPort) (d : Dev) : Bool := d.ready && !((d.port p).pcie && (d.port p).d3hot)

/-- A write arrives at a port that serves; it wakes a stopped device (R131). -/
def hostRow (p : HostPort) (vf : Sys2Proof.VerifyEnv) (x : PortWrite) (s : State) : State :=
  if !portServes p s.dev then s
  else { s with dev := hostArrive p vf (hrnDemand s.snap) x (hostWakes p s.dev) }

/-- A direct write through BAR0 or the quad-SPI window. -/
def hostBarWrite (p : HostPort) (vf : Sys2Proof.VerifyEnv) (a n v : Nat) (s : State) : State :=
  hostRow p vf (.dev (barAddr a n) n (BitVec.ofNat 64 v)) s

end Sys2Proof.Machine
end

