-- ==== Sys2Proof/Machine/Tick.lean ====
section
/-! DEFINITION. The tick (02_tick.md): the edge, the end of Capture, the fractional edges, the start of Stage, slips and
their limit. -/
namespace Sys2Proof.Machine

abbrev forAxes (f : Fin 16 → Dev → Dev) (d : Dev) : Dev := (List.finRange 16).foldl (fun (d : Dev) (n : Fin 16) => f n d) d

/-- The acceptance instant of the running tick is reached (R102, R107). -/
def acceptInstant (d : Dev) : Dev := d.reach d.lastCycle

/-! ## The end of Capture (R52, R351) -/

/-- A core at the start of Compute: cycle 0, no stall outstanding. -/
def Core.begin (c : Core) (r : Run) (entry : Nat) : Core :=
  { (c.start r entry) with cyc := 0, ready := [], lastMac := none, cask := none, bad := c.nested }

/-- The fault program runs in the tick that begins at edge n: records stood at the edge, FPDIS 0, an image in force. -/
def faultRuns (atEdge d : Dev) : Bool :=
  !atEdge.fu.stack.isEmpty && !d.flag FLT_STAT 5 && d.loader.image.isSome && !d.halted

/-- The core that runs the fault program, and its entry. -/
def faultStart (atEdge d : Dev) : Option (Nat × Nat) :=
  if faultRuns atEdge d && decide ((d.reg LIM_FAULTCORE).toNat < 6) then
    d.loader.image.map (fun i => ((d.reg LIM_FAULTCORE).toNat, i.faultEntry))
  else none

/-- Every core with a program starts it. -/
def startCores (atEdge d : Dev) : Dev :=
  let fp := faultStart atEdge d
  let d := forAll 6 (fun k d =>
    let n : Fin 6 := Fin.ofNat 6 k
    match (match fp with
      | some (f, e) => if f = k then some (Run.fault, e) else (tickEntry d k).map (fun e => (Run.tick, e))
      | none => (tickEntry d k).map (fun e => (Run.tick, e))) with
    | some (r, e) => d.setCore n ((d.core n).begin r e)
    | none => d) d
  { d with fu := { d.fu with ran := fp.isSome } }

/-- COMPUTE_START: Capture ends; the latches are closed and the device as it stands is what programs see, the lanes as they
stood at the edge. -/
def computeStart (s : State) : State :=
  let d := s.dev
  if !(ticking d && decide (d.tick.phase = .capture)) then s
  else
    let d := d.reachTick 4500
    let d := forAxes fbCaptureEnd d
    let d := forAll 8 (fun j d => latchCapture (Fin.ofNat 8 j) d) d
    let d := visCapture (tdlCapture (fieldCapture (cartCapture d)))
    let d := { d with tick := { d.tick with phase := .compute }, trees := { d.trees with runs := [] } }
    let snap := { d with lanes := laneLatch s.snap.lanes d.lanes }
    { s with dev := if d.tick.stopWork then d else visAdmit (startCores s.snap d), snap := snap }

def execComputeStart (s : State) : Out := .next (computeStart s)

/-! ## Fractional edges (R188) -/

/-- FRACTIONAL_EDGE i + 1 of the tick, at floor((i + 1) P / 4): compares of the passes before it apply, and the passes that
start there sample. -/
def fractionalEdge (i : Fin 3) (d : Dev) : Dev :=
  if !(ticking d && decide (d.tick.phase = .compute) && decide (d.tick.fracDone = i.val)) then d
  else
    let d := d.reachTick ((i + 1) * d.tickLen / 4)
    let d := { d with tick := { d.tick with fracDone := i + 1 } }
    if d.tick.stopWork then d
    else forAxes (fun n d => if usesFrac d n i && laneRuns d n then laneFrac n (applyCompares n d) else d) d

/-- A fractional edge follows the end of Capture. -/
def execFractionalEdge (i : Fin 3) (s : State) : Out :=
  let s := computeStart s
  .next { s with dev := fractionalEdge i s.dev }

/-! ## The guard and Stage (R33, R165) -/

/-- A core still runs its program. -/
def Core.runs (c : Core) : Bool := decide (c.run = .tick) || decide (c.run = .fault)

/-- The guard: cores that have not executed TEND, nor been stopped by an exception, are stopped, bit 6 showing a tree
invocation still running; an overrun of the fault program escalates (R353). -/
def guardCheck (d : Dev) : Dev :=
  let late := (List.range 6).filter (fun k => (d.core (Fin.ofNat 6 k)).runs)
  let m := sumList (late.map (fun k => 2 ^ k)) + 64 * b2n (d.trees.runs.any (fun r => decide (d.tickBudget < r.ends)))
  if m = 0 then d
  else
    let d := d.setReg TCK_GUARD (word m)
    let inFault := late.any (fun k => decide ((d.core (Fin.ofNat 6 k)).run = .fault))
    let plain := late.any (fun k => decide ((d.core (Fin.ofNat 6 k)).run = .tick))
    let d := late.foldl (fun d k => d.setCore (Fin.ofNat 6 k) { d.core (Fin.ofNat 6 k) with run := .stopped }) d
    let d := if inFault then escalate 3 true d else d
    if plain || !inFault then fault 3 .slip (word m) d else d

/-- The device as it would stand at the coming edge if the tick commits: what the planner and the field image use. -/
def edgePreview (d : Dev) : Dev :=
  let d := axesEnd true d
  let d := { d with tick := { d.tick with count := d.tick.count + 1 } }
  axesCommit (commitWrites (inOrder d.tick.staged) d)

/-- The planner's intervals for the coming edge, and the field output image (R165, R253). Cam entries are read as committed
(R181). -/
def stagePlan (d : Dev) : Dev :=
  let v := planAll { edgePreview d with sram := d.sram }
  let d := forAxes (fun n d => d.setAxis n { d.axis n with plan := (v.axis n).plan }) d
  sendImage (fieldImage v) { d with freeCtr := v.freeCtr }

/-- Host writes held from an earlier tick complete, and the timed writes of both ports are accepted, port A first (R102). -/
def stageClose (demand : Bool) (d : Dev) : Dev :=
  acceptAll .b (acceptAll .a (acceptInstant (heldComplete .b demand (heldComplete .a demand d))))

/-- STAGE_START: Compute ends. -/
def stageStart (demand : Bool) (d : Dev) : Dev :=
  if !(ticking d && decide (d.tick.phase = .compute)) then d
  else
    let d := (stageClose demand d).reachTick (d.tickLen - 6000)
    let d := if d.tick.stopWork then d else guardCheck d
    let d := { d with tick := { d.tick with phase := .stage } }
    if d.tick.abandoning then d else stagePlan d

def execStageStart (s : State) : Out :=
  let s := computeStart s
  .next { s with dev := stageStart (hrnDemand s.snap) s.dev }

/-- ENGINE_OVERRUN: a pass of a lane has not ended 375 cycles before its apply instant (R189), or an item of a graph is still
running at the end of Compute (R235). -/
def engineOverrun (src : Sys2Proof.Overrun) (d : Dev) : Dev :=
  let works := match src with
    | .lane n => laneRuns d n
    | .item g => (d.vg g).active.isSome
  if ticking d && works && decide (d.tick.phase ≠ .idle) && !d.tick.stopWork then
    fault 3 .slip 64 (d.setReg TCK_GUARD 64)
  else d

def execEngineOverrun (src : Sys2Proof.Overrun) (s : State) : Out := .next { s with dev := engineOverrun src s.dev }

/-! ## The edge -/

/-- What a core loses with an abandoned tick (R42, R51, R67). -/
def Core.revert (old c : Core) : Core :=
  { c with g := old.g, f := old.f, a := old.a, p := old.p, cst := old.cst, dmem := old.dmem, busy := old.busy,
           bad := old.nested }

/-- The slip causes of the running tick: CMD, GUARD, FAULT (R42). -/
def Tick.causes (t : Tick) : Nat := b2n t.slipCmd + 2 * b2n t.slipGuard + 4 * b2n t.slipFault

/-- An abandoned tick: nothing commits, state goes back to that of edge n, and the slip is counted (R42, R43). -/
def edgeAbandon (causes : Nat) (snap d : Dev) : Dev :=
  let d := forAll 6 (fun k d =>
    let n : Fin 6 := Fin.ofNat 6 k
    (d.setCore n ((snap.core n).revert (d.core n))).setReg (CEL_CKSTAT k) (snap.reg (CEL_CKSTAT k))) d
  let d := forAxes (fun n d => d.setLane n (laneRevert (snap.lane n) (d.lane n))) d
  let d := journalTick 0 (visRevert snap (groupsHold d))
  let d := Dev.count1 TCK_CONSEC (Dev.count1 TCK_SLIPS d)
  let d := d.setReg TCK_SLIPCAUSE (d.reg TCK_SLIPCAUSE ||| word causes)
  let d := { d with tick := { d.tick with abandoned := true }, ev := { d.ev with folded := d.ev.folded + 1 } }
  raise 0 d

/-- What follows a new period: the budget and the running graphs (R233). -/
def periodChange (old : Nat) (d : Dev) : Dev :=
  if d.period = old then d else visBudgetStop (d.setReg TCK_BUDGET (word (budget d.period)))

/-- The commit of a tick: its staged writes, the axes, the casks, and what landed or ended since the last commit, of which cart
data come first, then the HART record, then identity records (DESIGN CHOICE for one line of tick SRAM, assumption 117); carts
issued in the tick follow. -/
def edgeCommit (ran : Bool) (l : List Staged) (d : Dev) : Dev :=
  let old := d
  let d := commitCasks l (axesCommit (commitWrites l d))
  let d := carrierRecheck old (periodChange old.period d)
  let d := visPublishAll (modelPlace d)
  let d := idLandAll (hartLand (cartsLand d))
  let d := trimApply (commitCarts l d)
  let d := if ran then (d.setReg TCK_CONSEC 0) else d
  { d with tick := { d.tick with abandoned := false, limitDone := if ran then false else d.tick.limitDone } }

/-- The landing line of a committing edge (R370). -/
def landingLine (d : Dev) : Dev :=
  let a := d.fld EVT_LANDADDR 21 6 * 64
  let w := d.ev.landTrig.toNat + 65536 * min 0xFFFF (d.ev.folded + 1)
  let bs := leBytes d.ev.land.toNat 32 ++ leBytes d.tick.count.toNat 8 ++ leBytes w 4 ++ List.replicate 20 0
  let d := if d.flag EVT_LANDCFG 0 then { d with sram := d.sram.setBytes a bs } else d
  { d with ev := { d.ev with land := 0, landTrig := 0, folded := 0 } }

/-- Vector 3: an edge at which TCK_COUNT modulo TICKDIV is 0 (R112). -/
def tickVector (p : HostPort) (d : Dev) : Dev :=
  let n := d.fld (HST_TICKDIV p.num) 15 0
  if n ≠ 0 ∧ d.tick.count.toNat % n = 0 then vecSet p 3 d else d

/-- Capture of every input latch. -/
def captureAll (d : Dev) : Dev :=
  let d := forAxes masterSpeed d
  let ts := d.stampAt d.tick.edgeAt
  let d := forAxes (fun c d => fbCapture ts c d) d
  let d := forAxes axisCapture d
  let d := forAxes laneCapture d
  visTick d

/-- The tick unit's own state when a tick begins, or when none does (stop, hold): staged writes that belong to the next tick
move up with its commanded slip, or keep waiting. -/
def beginTick (begins : Bool) (d : Dev) : Dev :=
  let t := d.tick
  let t := { t with stopWork := false, stopAt := 0, slipGuard := false, slipFault := false, fracDone := 0,
                    due := t.edgeAt + d.period }
  let t := if begins then { t with phase := .capture, staged := t.stagedNext, stagedNext := [], slipCmd := t.slipNext,
                                   slipNext := false }
    else { t with phase := .idle, staged := [], slipCmd := false }
  { d with tick := t }

/-- The fault unit's own state at an edge: FPRUN reads 1 after a tick in which the fault program ran. -/
def fpEdge (d : Dev) : Dev :=
  let d := Dev.setFlag FLT_STAT 6 d.fu.ran d
  { d with fu := { d.fu with ran := false } }

/-- A core between ticks. -/
def Core.rest (c : Core) : Core := { c with run := .idle, cask := none, bad := c.nested }

/-- The edge after its commit or its slip: modes, log, power state, monitor, starts, Capture, intervals and landing. -/
def edgeRest (ran commits : Bool) (causes : Nat) (cycles : List Word) (demand : Bool) (d : Dev) : Dev :=
  let req := d.fld SYS_MODEREQ 2 0
  let d := modeEdge demand req (d.setReg SYS_MODEREQ 0)
  let d := logEdge (fpEdge { d with cores := d.cores.map Core.rest })
  let d := if d.mode = .run then axesStart (captureAll d) else d
  let d := powerChoose d
  let d := monEdge ran (traceEntry (!commits) causes cycles d)
  let begins := !d.pw.stopped && !monHeld d
  let d := if begins && decide (d.mode ≠ .run) then captureAll d else d
  let d := sysPortLatch d
  let d := axesRun commits d
  let d := if commits then forAxes applyCompares d else d
  let d := fieldBeat ran commits d
  let d := tickVector .b (tickVector .a d)
  beginTick begins (if commits then cartSources (landingLine d) else d)

/-- The vote over the commit logic (R37): whether the edge commits, and the fault it raises. -/
def voteEdge (vote : Sys2Proof.CommitVote) (d : Dev) : Dev :=
  match vote with
  | .agree => d
  | .minority c => fault 1 .note (word (2 ^ c.val)) (Dev.setFlag TCK_STAT 6 true d)
  | .noMajority => fault 2 .halt 7 d

/-- The edge at its instant: TCK_COUNT advances, the ending tick commits or is abandoned, and the next one begins. -/
def edgeAt (vote : Sys2Proof.CommitVote) (snap old : Dev) : Dev :=
  let d := old.reach old.tick.due
  let ran := decide (d.tick.phase ≠ .idle)
  let commits := !(ran && d.tick.abandoning)
  let demand := hrnDemand snap
  let cycles := (List.range 6).map (fun k => traceCycles (d.core (Fin.ofNat 6 k)))
  let causes := d.tick.causes
  let lim := b2n (!commits && d.tick.limitDone) * 8
  let d := if commits then voteEdge vote d else d
  if d.halted then d
  else
    let d := axesEnd commits d
    let d := { d with tick := { d.tick with edgeAt := d.now, count := d.tick.count + 1 } }
    let (l, d) := imageDiscard (inOrder d.tick.staged) d
    let d := imageTake (if commits then edgeCommit ran l d else edgeAbandon causes snap d)
    let d := edgeRest ran commits (causes + lim) cycles demand d
    let d := timedEdge commits .b (timedEdge commits .a (loadWatch old d))
    rdatLatch .b (rdatLatch .a d)

/-- TICK_EDGE. A tick whose Compute and Stage have not been commanded reaches them first, and timed
reads that have not been commanded are performed. -/
def tickEdge (vote : Sys2Proof.CommitVote) (s : State) : State :=
  if !ticking s.dev then s
  else
    let s := computeStart s
    let d := stageStart (hrnDemand s.snap) s.dev
    let d := performAll .b s.snap (performAll .a s.snap d)
    if !ticking d then { s with dev := d }
    else
      let d := edgeAt vote s.snap d
      { s with dev := d, snap := if d.halted then s.snap else d }

def execTickEdge (vote : Sys2Proof.CommitVote) (s : State) : Out := .next (tickEdge vote s)

/-! ## The slip limit (R44) -/

/-- SLIP_LIMIT: in the tick after SLIPMAX abandoned ones, once in a run of them. -/
def slipLimit (d : Dev) : Dev :=
  let m := d.fld TCK_CFG 7 0
  if ticking d && decide (d.tick.phase ≠ .idle) && decide (m ≤ (d.reg TCK_CONSEC).toNat) && !d.tick.limitDone then
    fault 4 .hold (word m) (Dev.setFlag TCK_SLIPCAUSE 3 true { d with tick := { d.tick with limitDone := true } })
  else d

def execSlipLimit (s : State) : Out := .next { s with dev := slipLimit s.dev }

end Sys2Proof.Machine
end

