-- ==== Sys2Proof/Machine/HostRows.lean ====
section
/-! DEFINITION. The rows of the host ports (05_host.md): accesses, the reins, the rings, the quad-SPI target and the
interrupt vectors. -/
namespace Sys2Proof.Machine

open Sys2Proof (HostPort AccSize Reader)

/-- The machine with a device; after a reset of the main die nothing of the earlier latches stands. -/
def State.putDev (s : State) (d : Dev) : State :=
  { s with dev := d, snap := if s.dev.ready && !d.ready then d else s.snap }

/-- A direct write of a port at an address, 4 bytes. -/
def regRow (p : HostPort) (a : Nat) (v : Word) (s : State) : State :=
  s.putDev (hostBarWrite p verifyGood a 4 v.toNat s).dev

/-- A direct write of a port, of any size. -/
def memRow (p : HostPort) (a : Nat) (sz : AccSize) (v : DWord) (vf : Sys2Proof.VerifyEnv) (s : State) : State :=
  s.putDev (hostBarWrite p vf a (accBytes sz) v.toNat s).dev

/-! ## The tick unit's commands -/

def execSlip (p : HostPort) (s : State) : Out := .next (regRow p TCK_CMD 1 s)
def execPkclr (p : HostPort) (s : State) : Out := .next (regRow p TCK_CMD 2 s)
def execTckPeriodWrite (p : HostPort) (v : Word) (s : State) : Out := .next (regRow p TCK_PERIOD v s)

/-! ## Writes -/

def execHeldWtWriteComplete (p : HostPort) (s : State) : Out :=
  .next (s.putDev (heldComplete p (hrnDemand s.snap) s.dev))
def execRegisterWrite (p : HostPort) (a : Nat) (sz : AccSize) (v : DWord) (s : State) : Out :=
  .next (memRow p a sz v verifyGood s)
def execStickyClear (p : HostPort) (a : Nat) (v : Word) (s : State) : Out := .next (regRow p a v s)
def execHostMemoryWrite (p : HostPort) (a : Nat) (sz : AccSize) (v : DWord) (s : State) : Out :=
  .next (memRow p a sz v verifyGood s)
def execHostInstructionWrite (p : HostPort) (a : Nat) (sz : AccSize) (v : DWord) (s : State) : Out :=
  .next (memRow p a sz v verifyGood s)
def execHostCellarWrite (p : HostPort) (a : Nat) (sz : AccSize) (v : DWord) (vf : Sys2Proof.VerifyEnv) (s : State) : Out :=
  .next (memRow p a sz v vf s)
def execLoadCommand (p : HostPort) (v : Word) (s : State) : Out := .next (regRow p LIM_LOADCMD v s)
def execSoftwareReset (p : HostPort) (v : Word) (s : State) : Out := .next (regRow p SYS_CMD v s)
def execFbTypeChange (p : HostPort) (c : Fin 16) (v : Word) (s : State) : Out := .next (regRow p (FB_CFG c) v s)
def execRatioWrite (port : HostPort) (p : Fin 2) (v : Word) (s : State) : Out := .next (regRow port (PRT_RATIO p) v s)
def execHoffrdWrite (p : HostPort) (v : Word) (s : State) : Out := .next (regRow p VIS_HOFFRD v s)
def execConfigSend (p : HostPort) (v : Word) (s : State) : Out := .next (regRow p FLD_CFGCMD v s)
def execNvWrite (p : HostPort) (s : State) : Out := .next (regRow p TDL_NVCMD 1 s)
def execNvRead (p : HostPort) (s : State) : Out := .next (regRow p TDL_NVCMD 2 s)
def execSealSend (p : HostPort) (v : Word) (s : State) : Out := .next (regRow p HRN_SEALCMD v s)
def execLogResume (p : HostPort) (s : State) : Out := .next (regRow p CEL_STAT 1 s)
def execSpillclr (p : HostPort) (v : Word) (s : State) : Out := .next (regRow p CEL_CMD v s)
def execHoldfClear (p : HostPort) (s : State) : Out := .next (regRow p FLT_STAT 0x10 s)
def execFpdisClear (p : HostPort) (s : State) : Out := .next (regRow p FLT_STAT 0x20 s)
def execTrimRestoreWrite (p : HostPort) (a : Nat) (v : Word) (s : State) : Out := .next (regRow p a v s)
def execMonCodeWrite (p : HostPort) (v : Word) (s : State) : Out := .next (regRow p MON_CODE v s)

/-- A write through BAR2 (R16). -/
def execHostDramWrite (p : HostPort) (a : Nat) (sz : AccSize) (v : DWord) (s : State) : Out :=
  .next (s.putDev (hostRow p verifyGood (.dram a (accBytes sz) v) s).dev)

/-! ## Reads -/

/-- The words of a read's bytes. -/
def respWords (bs : List Byte) : List Word := wordsOf (bs ++ List.replicate ((4 - bs.length % 4) % 4) 0)

/-- A read through BAR0 or BAR2: before READY it returns 0; in D3hot it does not complete. -/
def hostRead (p : HostPort) (bar2 : Bool) (a n : Nat) (ecc : Sys2Proof.Ecc) (snap d : Dev) : Dev :=
  let put := fun (bs : List Byte) (d : Dev) => d.setPort p { d.port p with resp := respWords bs }
  if (d.port p).pcie && (d.port p).d3hot then d
  else if !d.ready then put (List.replicate n 0) d
  else
    let d := hostWakes p d
    if bar2 then put (d.dramBytes a n) d
    else
      let (bs, _, d) := devRead (.host p) (barAddr a n) n snap d
      let (bs, d) := celEcc ecc (barAddr a n) bs d
      put bs d

def execHostRead (p : HostPort) (bar2 : Bool) (a : Nat) (sz : AccSize) (ecc : Sys2Proof.Ecc) (s : State) : Out :=
  .next (s.putDev (hostRead p bar2 a (accBytes sz) ecc s.snap s.dev))

/-- A read of the low half of a 64-bit register by a port or, while it is enabled, by the monitor. -/
def loRead (r : Reader) (a : Nat) (s : State) : State :=
  s.putDev (match r with
    | .host p => hostRead p false a 4 .ok s.snap s.dev
    | .monitor => if s.dev.ready && s.dev.flag MON_CFG 0 then latchHi .monitor a s.dev else s.dev)

def execTckCountLoRead (r : Reader) (s : State) : Out := .next (loRead r TCK_COUNT_LO s)
def execTckEdgetsLoRead (r : Reader) (s : State) : Out := .next (loRead r TCK_EDGETS_LO s)
def execTckTsLoRead (r : Reader) (s : State) : Out := .next (loRead r TCK_TS_LO s)

/-! ## The reins (R103, R125) -/

/-- A write of a port to the reins arbiter. -/
def reinsRow (p : HostPort) (a : ReinsAct) (s : State) : State := s.putDev (hostRow p verifyGood (.reins a) s).dev

def execReinsReq (p : HostPort) (contested : Bool) (s : State) : Out := .next (reinsRow p (.req contested) s)
def execReinsRel (p : HostPort) (s : State) : Out := .next (reinsRow p .rel s)
def execReinsTake (p : HostPort) (contested : Bool) (s : State) : Out := .next (reinsRow p (.take contested) s)
def execHeartbeat (p : HostPort) (s : State) : Out := .next (reinsRow p .beat s)

/-- HB_TIMEOUT: the timer reaches HST_HBTO. -/
def hbTimeout (d : Dev) : Dev :=
  if d.reins.holder.isSome && !d.reins.hbLate then vecBoth 1 { d with reins := { d.reins with hbLate := true } } else d

def execHbTimeout (s : State) : Out := .next { s with dev := hbTimeout s.dev }

/-! ## Rings (R105 to R111) -/

def execDoorbell (p : HostPort) (v : Word) (s : State) : Out := .next (regRow p (HST_CMDTAIL p.num) v s)
def execCplheadWrite (p : HostPort) (v : Word) (s : State) : Out := .next (regRow p (HST_CPLHEAD p.num) v s)

/-- A command entry breaks the form: unknown opcode, a field that must be 0, or ADDR not a multiple of 4. -/
def badEntry (c : Command) (w0 : Word) : Bool :=
  let o := c.opc.toNat
  decide (4 < o) || decide (bits w0 15 8 ≠ 0) || (decide (o ≠ 0) && decide (c.addr % 4 ≠ 0)) ||
    (decide (o < 3) && decide (c.edge ≠ 0)) || ((decide (o = 1) || decide (o = 4)) && decide (c.data ≠ 0))

/-- An untimed command completes. -/
def cmdEnd (p : HostPort) (c : Command) (status : Nat) (data : Word) (d : Dev) : Dev :=
  complete p c.opc.toNat c.tag.toNat c.idx status data (loWord d.tick.count).toNat false
    (d.setPort p { d.port p with inFlight := none })

/-- COMMAND_CONSUME: the entry at HEAD is taken while enough completion slots are free (R110); an entry that breaks the
form completes at once with BADOP. -/
def consume (p : HostPort) (d : Dev) : Dev :=
  let x := d.port p
  let h := d.fld (HST_CMDHEAD p.num) 8 0
  if !d.ready || d.pw.stopped || x.inFlight.isSome || decide (h = d.fld (HST_CMDTAIL p.num) 8 0) ||
      decide (cplFree p d < 1 + x.timed.length) then d
  else
    let w := fun (i : Nat) => d.reg (HST_CRING p.num (4 * h + i))
    let c : Command := { idx := h, opc := BitVec.ofNat 8 (w 0).toNat, tag := BitVec.ofNat 16 (bits (w 0) 31 16),
                         addr := (w 1).toNat, data := w 2, edge := w 3, count := d.tick.count }
    let d := d.setReg (HST_CMDHEAD p.num) (word ((h + 1) % 512))
    if badEntry c (w 0) then cmdEnd p c 2 0 d else d.setPort p { x with inFlight := some c }

def execCommandConsume (p : HostPort) (s : State) : Out := .next { s with dev := consume p s.dev }

/-- The command in flight, if it has an opcode. -/
def onCommand (p : HostPort) (opc : Nat) (f : Command → Dev → Dev) (d : Dev) : Dev :=
  match (d.port p).inFlight with
  | some c => if c.opc.toNat = opc then f c d else d
  | none => d

def execCmdNop (p : HostPort) (s : State) : Out := .next { s with dev := onCommand p 0 (fun c d => cmdEnd p c 0 0 d) s.dev }

/-- RD32 reads a device address as the port's direct read does. -/
def cmdRead (p : HostPort) (snap : Dev) (c : Command) (d : Dev) : Dev :=
  let (bs, ok, d) := devRead (.host p) c.addr 4 snap d
  cmdEnd p c (if ok then 0 else 3) (word (leNat bs)) d

def execRd32 (p : HostPort) (s : State) : Out := .next { s with dev := onCommand p 1 (cmdRead p s.snap) s.dev }

/-- WR32 acts as a direct write; it waits while the port's staging area is full (R40). -/
def cmdWrite (p : HostPort) (demand : Bool) (c : Command) (d : Dev) : Dev :=
  if !(d.port p).held.isEmpty || mustHold p c.addr 4 d then d
  else
    let (st, d') := hostWrite p verifyGood demand c.addr 4 c.data.toNat d
    if d'.ready then cmdEnd p c st 0 d' else d'

def execWr32 (p : HostPort) (s : State) : Out :=
  .next (s.putDev (onCommand p 2 (cmdWrite p (hrnDemand s.snap)) s.dev))

/-- WRAT and RDAT wait for their edge, or complete at once (R106, R107). -/
def cmdTimed (p : HostPort) (write : Bool) (c : Command) (d : Dev) : Dev :=
  timedNew p write c (d.setPort p { d.port p with inFlight := none })

def execWrat (p : HostPort) (s : State) : Out := .next { s with dev := onCommand p 3 (cmdTimed p true) s.dev }
def execRdat (p : HostPort) (s : State) : Out := .next { s with dev := onCommand p 4 (cmdTimed p false) s.dev }

/-- WRAT_ACCEPT: the last core cycle of Compute. -/
def wratAccept (p : HostPort) (s : State) : State :=
  let s := computeStart s
  { s with dev := if ticking s.dev && decide (s.dev.tick.phase = .compute) then acceptAll p (acceptInstant s.dev) else s.dev }

def execWratAccept (p : HostPort) (s : State) : Out := .next (wratAccept p s)

/-- RDAT_PERFORM: in the tick that begins at the target edge. -/
def execRdatPerform (p : HostPort) (s : State) : Out :=
  .next { s with dev := if ticking s.dev && decide (s.dev.tick.phase ≠ .idle) then performAll p s.snap s.dev else s.dev }

/-! ## Quad-SPI (R97) -/

def spiServes (p : HostPort) (d : Dev) : Bool := d.ready && !(d.port p).pcie

/-- One word of a WRITE; a software reset by an earlier word ends the transaction. -/
def spiWord (p : HostPort) (demand : Bool) (ofs i : Nat) (v : Word) (d : Dev) : Dev :=
  if d.ready then hostArrive p verifyGood demand (.spi (ofs + 4 * i) v) d else d

/-- QSPI_WRITE: each full word is one write; a misaligned offset ignores the transaction. -/
def qspiWrite (p : HostPort) (ofs : Nat) (ws : List Word) (s : State) : Dev :=
  let d := s.dev
  if !spiServes p d then d
  else
    let d := hostWakes p d
    if ofs % 4 ≠ 0 then setAccErr p d
    else (ws.zipIdx).foldl (fun (d : Dev) (x : Word × Nat) => spiWord p (hrnDemand s.snap) ofs x.2 x.1 d) d

def execQspiWrite (p : HostPort) (ofs : BitVec 24) (ws : List Word) (s : State) : Out :=
  .next (s.putDev (qspiWrite p ofs.toNat ws s))

/-- The words of a READ, in order. -/
def spiRead (p : HostPort) (ofs : Nat) (snap : Dev) : Nat → Nat → Dev → List Word × Dev
  | 0, _, d => ([], d)
  | n + 1, i, d =>
    let (dram, a) := spiAddr (d.reg (HST_SPIWIN p.num)) (ofs + 4 * i)
    let (w, d) := if dram then (word (leNat (d.dramBytes a 4)), d)
      else let (bs, _, d) := devRead (.host p) a 4 snap d
           (word (leNat bs), d)
    let (ws, d) := spiRead p ofs snap n (i + 1) d
    (w :: ws, d)

/-- QSPI_READ: the marker 0xA5 and the words; before READY the words are 0. -/
def qspiRead (p : HostPort) (ofs n : Nat) (s : State) : Dev :=
  let d := s.dev
  let put := fun (m : Option Byte) (ws : List Word) (d : Dev) => d.setPort p { d.port p with marker := m, resp := ws }
  if (d.port p).pcie then d
  else if !d.ready then put (some 0xA5) (List.replicate n 0) d
  else
    let d := hostWakes p d
    if ofs % 4 ≠ 0 then setAccErr p (put none [] d)
    else
      let (ws, d) := spiRead p ofs s.snap n 0 d
      put (some 0xA5) ws d

def execQspiRead (p : HostPort) (ofs : BitVec 24) (n : Nat) (s : State) : Out := .next (s.putDev (qspiRead p ofs.toNat n s))

/-- QSPI_READ_TIMEOUT: the marker 0x5A, SPITO; the access still wakes a stopped device, later. -/
def qspiTimeout (p : HostPort) (d : Dev) : Dev :=
  if !spiServes p d then d
  else
    let d := if d.pw.stopped then
        { d with pw := { d.pw with wakeReq := d.pw.wakeReq ||| BitVec.ofNat 6 (2 ^ (4 + p.num)) } }
      else d
    setSpiTo p (d.setPort p { d.port p with marker := some 0x5A, resp := [] })

def execQspiReadTimeout (p : HostPort) (s : State) : Out := .next { s with dev := qspiTimeout p s.dev }

/-- SETWIN reaches HSTx_SPIWIN whatever it holds. -/
def setWin (p : HostPort) (v : Word) (s : State) : State := if spiServes p s.dev then hostRow p verifyGood (.win v) s else s

def execSetwin (p : HostPort) (v : Word) (s : State) : Out := .next (setWin p v s)

/-! ## Vectors (R112, R369) -/

def execVecackWrite (p : HostPort) (v : Word) (s : State) : Out := .next (regRow p (HST_VECACK p.num) v s)

/-- A message of a vector can go out: MSI-X enabled, function and vector unmasked, pending, link up, D0, and for vector 0
outside its moderation (R95, R112). -/
def msixReady (p : HostPort) (v : Nat) (d : Dev) : Bool :=
  let x := d.port p
  x.pcie && !x.d3hot && x.msixOn && !x.msixMask && d.flag (HST_STAT p.num) 8 && d.flag (HST_PBA p.num 0) v && !d.flag (HST_MSIX p.num (4 * v + 3)) 0 &&
    !(decide (v = 0) && x.modBusy)

/-- What an unlisted vector has sent. -/
def noMsgs (_ : Nat) : Nat := 0

/-- MSIX_SEND: the message goes out and the pending bit clears; vector 0 begins its moderation interval. -/
def msixSend (p : HostPort) (v : Nat) (d : Dev) : Dev :=
  if msixReady p v d then
    let d := Dev.setFlag (HST_PBA p.num 0) v false d
    let x := d.port p
    d.setPort p { x with msgs := smSet noMsgs x.msgs v (smGet noMsgs x.msgs v + 1),
                         modBusy := x.modBusy || (decide (v = 0) && decide (d.fld (HST_CPLMOD p.num) 7 0 ≠ 0)) }
  else d

def execMsixSend (p : HostPort) (v : Fin 32) (s : State) : Out := .next { s with dev := msixSend p v s.dev }

/-- CPL_MODERATION_END: CPLMOD µs have passed since the last vector 0 message; one that waits is sent. -/
def execCplModerationEnd (p : HostPort) (s : State) : Out :=
  .next { s with dev := msixSend p 0 (s.dev.setPort p { s.dev.port p with modBusy := false }) }

/-! ## The PCIe link (R95, R104, R399) -/

/-- LINK of a PCIe port changes: event 39 + 8x. -/
def linkSet (p : HostPort) (up : Bool) (d : Dev) : Dev :=
  if !(d.port p).pcie || (d.flag (HST_STAT p.num) 8 == up) then d
  else raise (39 + 8 * p.num) (Dev.setFlag (HST_STAT p.num) 8 up d)

def execPcieLinkChange (p : HostPort) (up : Bool) (s : State) : Out := .next { s with dev := linkSet p up s.dev }

/-- PERST: the PCIe core of a port is reset: its link falls, it stands in D0, and its configuration space is reset. -/
def execPerst (p : HostPort) (s : State) : Out :=
  .next { s with dev := let d := linkSet p false s.dev
                        d.setPort p { d.port p with d3hot := false, msixOn := false, msixMask := false, bar0 := 0, bar3 := 0 } }

/-- A word of the configuration space (R95): one function with a Type 0 header; BAR0 of 32 MiB, BAR2/BAR3 64-bit, prefetchable,
of 8 GiB, the other BARs 0; 32 MSI-X vectors; AER present. The places of the bits are those of the PCI header (assumption 93). -/
def cfgWord (x : Port) (d : Dev) (f : Sys2Proof.CfgField) : Word :=
  match f with
  | .ids | .subsystem => d.reg HST_PCIID
  | .classRev => word (0x118000 * 256 + d.fld SYS_STEP 7 0)
  | .header => 0
  | .bar i => if i = 0 then x.bar0 else if i = 2 then 0xC else if i = 3 then x.bar3 else 0
  | .power => if x.d3hot then 3 else 0
  | .msix => word (31 + 0x4000 * b2n x.msixMask + 0x8000 * b2n x.msixOn)
  | .aer => 1

/-- PCIE_CONFIG_REQUEST: configuration space is read, the D-state or the MSI-X control changes, or a BAR is written. -/
def cfgRequest (p : HostPort) (req : Sys2Proof.CfgRequest) (d : Dev) : Dev :=
  let x := d.port p
  if !x.pcie then d
  else d.setPort p (match req with
    | .read f => { x with resp := [cfgWord x d f] }
    | .power d3hot => { x with d3hot := d3hot }
    | .msix enable functionMask => { x with msixOn := enable, msixMask := functionMask }
    | .bar i v => if i = 0 then { x with bar0 := v &&& 0xFE000000 } else if i = 3 then { x with bar3 := v &&& 0xFFFFFFFE } else x)

def execPcieConfigRequest (p : HostPort) (req : Sys2Proof.CfgRequest) (s : State) : Out :=
  .next { s with dev := cfgRequest p req s.dev }

end Sys2Proof.Machine
end

