-- ==== Sys2Proof/Machine/System.lean ====
section
/-! DEFINITION. Reset, start-up and wake (06_modes.md, R123 to R125, R131; 20_trim.md, R417; 23_electrical.md, R414). -/
namespace Sys2Proof.Machine

/-! ## Resets (R123) -/

/-- RST_N_PULSE: a low pulse of at least 1 µs is recognised; the straps are sampled at its rising edge. -/
def rstPulse (ns : Nat) (x : Sys2Proof.Straps) (d : Dev) : Dev :=
  if 1000 ≤ ns then mainReset rstPin x.boot x.hostA x.hostB d else d

/-- The machine right after a reset of its device. -/
def State.restart (s : State) (d : Dev) : State := { s with dev := d, snap := d }

def execRstNPulse (ns : Nat) (x : Sys2Proof.Straps) (s : State) : Out :=
  .next (if 1000 ≤ ns then s.restart (rstPulse ns x s.dev) else s)

/-- PGOOD_FALL: reset at once; the straps are those of the rising edge of RST_N that follows. -/
def execPgoodFall (x : Sys2Proof.Straps) (s : State) : Out :=
  .next (s.restart (mainReset rstPower x.boot x.hostA x.hostB s.dev))

/-! ## Start-up (R124) -/

/-- The cells in use of the PWM delay line: all but the four left out (R417). -/
def pwmFactory : Word :=
  let l := (List.range 20).eraseIdx Config.pwmLeftOut0.val
  let l := l.eraseIdx Config.pwmLeftOut1.val
  let l := l.eraseIdx Config.pwmLeftOut2.val
  let l := l.eraseIdx Config.pwmLeftOut3.val
  word (sumList (l.map (fun i => 2 ^ i)))

/-- The cells of a group of sigma-delta inputs. -/
def sdFactory (g : Nat) : Word := word (sumList ((List.range 8).map (fun i => (Config.sdSel g i).toNat * 8 ^ i)))

/-- Step 2: the fuse bank: the boot key hash and the factory trims. -/
def fuseRead (d : Dev) : Dev :=
  let d := forAll 8 (fun i d => d.setReg (SYS_KEYHASH i) (Config.keyHash i)) d
  let d := d.setReg TRM_PWMSEL pwmFactory
  let d := forAll 3 (fun g d => d.setReg (TRM_SDSEL g) (sdFactory g)) d
  let d := forAll 8 (fun c d => d.setReg (TRM_SCSEL c) ((Config.scSel c).setWidth 32)) d
  let d := forAll 16 (fun c d => (d.setReg (FB_SCOFS c) (Config.scOfs c)).setReg (FB_SCCOR c) (Config.scCor c)) d
  d.setReg TRM_CELSEL (Config.celSel.setWidth 32)

/-- Step 3: the journal's replay, recorded in SYS_BOOTSTAT. -/
def replayStep (bad : Option Nat) (d : Dev) : Dev :=
  let (code, d) := celReplay bad d
  Dev.setFld SYS_BOOTSTAT 9 8 code d

/-- The rate at which training succeeds: DRM_CFG.RATE or the next lower one that trains (R414). -/
def trainRate (trains : List (Fin 5)) : Nat → Option Nat
  | 0 => if trains.any (fun r => decide (r.val = 0)) then some 0 else none
  | n + 1 => if trains.any (fun r => decide (r.val = n + 1)) then some (n + 1) else trainRate trains n

/-- Step 4: DRAM training where DRAM is fitted. -/
def dramStep (sz : Nat) (trains : List (Fin 5)) (d : Dev) : Dev :=
  if sz = 0 ∨ 4 < sz then d
  else match trainRate trains (d.fld DRM_CFG 2 0) with
    | some r => { d.setReg DRM_STAT (word (r + 8)) with dramSz := sz }
    | none => raise 223 d

/-- Step 5: READY, Commission, and edge 0: TCK_COUNT reads 0 and Capture of tick 0 begins. -/
def readyStep (d : Dev) : Dev :=
  let d := { Dev.setFlag SYS_BOOTSTAT 16 true d with ready := true, mode := .commission,
                                                     tick := { d.tick with edgeAt := d.now, due := d.now + d.period } }
  idReady (edgeRest false true 0 (List.replicate 6 0) false d)

/-- START_UP: the steps of R124 up to the start of the image boot. From READY on the clock monitor sees CLK32K. -/
def startUp (env : Sys2Proof.StartEnv) (d : Dev) : Dev :=
  if d.ready ∨ d.halted then d
  else
    let d := readyStep (dramStep env.dramSz.toNat env.trains (replayStep env.journalBad (fuseRead d)))
    let d := if env.clk32k then d else fault 11 .degrade 0 d
    if bit d.boot 0 then d else loadStart true d

def execStartUp (env : Sys2Proof.StartEnv) (s : State) : Out :=
  .next (if s.dev.ready ∨ s.dev.halted then s else s.restart (startUp env s.dev))

/-! ## Wake (R131) -/

/-- The causes as bits of SYS_WAKECAUSE. -/
def wakeBits (w : Sys2Proof.WakeSet) : BitVec 6 :=
  BitVec.ofNat 6 (b2n w.fld + 2 * b2n w.hrn + 4 * b2n w.tdl + 8 * b2n w.tmr + 16 * b2n w.hostA + 32 * b2n w.hostB)

/-- WAKE: an enabled cause, one that has arisen since the stop, or a Hold or Halt fault wakes a stopped device. -/
def wake (w : Sys2Proof.WakeSet) (stopTu : Nat) (d : Dev) : Dev :=
  let c := (wakeBits w ||| d.pw.wakeReq) &&& wakeEnabled d
  if c ≠ 0 ∨ d.holdReq ∨ d.halted then wakeUp c stopTu d else d

def execWake (w : Sys2Proof.WakeSet) (stopTu : Nat) (s : State) : Out := .next { s with dev := wake w stopTu s.dev }

/-- WAKE_TIMER_EXPIRY: WAKETMR periods of 32.768 kHz after the entry the wake begins. -/
def wakeTimer (d : Dev) : Dev :=
  let n := d.fld SYS_WAKETMR 23 0
  if d.pw.stopped && decide (n ≠ 0) && d.flag SYS_WAKEEN 3 then
    let d := d.reach (d.tick.edgeAt + n * 3000000000 / 32768)
    { d with pw := { d.pw with wakeReq := d.pw.wakeReq ||| 8 } }
  else d

def execWakeTimerExpiry (s : State) : Out := .next { s with dev := wakeTimer s.dev }

end Sys2Proof.Machine
end

