-- ==== Sys2Proof/Machine/Monitor.lean ====
section
/-! DEFINITION. The Vuile monitor (21_identity_monitor.md, R386 to R393): its frames, sessions, reads and writes, tick hold
and stepping, trace. -/
namespace Sys2Proof.Machine

open Sys2Proof (MonFrame)

/-- The UART receives frames: READY, EN 1, and its clock runs (it stops in S4). -/
def monServes (d : Dev) : Bool := d.ready && d.flag MON_CFG 0 && !(d.pw.stopped && decide (d.pstate = 4))

/-- A response frame (R386). -/
def monFrame (cmd : Nat) (seq : Byte) (status : Nat) (payload : List Byte) : List Byte :=
  let body := [BitVec.ofNat 8 payload.length, BitVec.ofNat 8 cmd, seq, BitVec.ofNat 8 status] ++ payload
  [0x5A] ++ body ++ leBytes (crcCcitt body).toNat 2

/-- The response to a request: a status, and a payload with status 0. -/
def monAnswer (cmd : Nat) (f : MonFrame) (status : Nat) (payload : List Byte) (d : Dev) : Dev :=
  { d with mon := { d.mon with resp := monFrame cmd f.seq status (if status = 0 then payload else []) } }

/-- A request is served: its meaning gives a status, a payload and the device. -/
def monRow (cmd : Nat) (f : MonFrame) (g : State → Nat × List Byte × Dev) (s : State) : State :=
  if !monServes s.dev then s
  else
    let (st, pl, d) := g s
    s.putDev (monAnswer cmd f st pl d)

/-- Payload fields, little-endian. -/
def MonFrame.num (f : MonFrame) (o n : Nat) : Nat := leNat ((f.payload.drop o).take n)
def MonFrame.len (f : MonFrame) : Nat := f.payload.length

def wordBytes (ws : List Word) : List Byte := ws.flatMap (fun w => leBytes w.toNat 4)

/-- A request that needs a session. -/
def inSession (s : State) (ok : Bool) (g : State → Nat × List Byte × Dev) : Nat × List Byte × Dev :=
  if !ok then (1, [], s.dev) else if monOpen s.dev then g s else (2, [], s.dev)

/-! ## Reads (R387) -/

def monInfo (f : MonFrame) (s : State) : Nat × List Byte × Dev :=
  let rd := fun (a : Nat) => readReg s.dev s.snap .monitor a
  (if MonFrame.len f = 0 then 0 else 1, wordBytes [rd SYS_ID, rd SYS_STEP, rd SYS_MODE, rd MON_STAT], s.dev)

/-- Words from an address on; no value where an access breaks R17. -/
def monWords (snap : Dev) : Nat → Nat → Dev → Option (List Byte × Dev)
  | 0, _, d => some ([], d)
  | n + 1, a, d =>
    let (bs, ok, d) := devRead .monitor a 4 snap d
    if ok then (monWords snap n (a + 4) d).map (fun x => (bs ++ x.1, x.2)) else none

def monRead (f : MonFrame) (s : State) : Nat × List Byte × Dev :=
  let n := MonFrame.num f 4 1
  if MonFrame.len f ≠ 5 ∨ n = 0 ∨ 16 < n then (1, [], s.dev)
  else match monWords s.snap n (MonFrame.num f 0 4) s.dev with
    | some (bs, d) => (0, bs, d)
    | none => (4, [], s.dev)

/-- The registers of a file of a core, as words; none where the selection is out of range. -/
def coreWords (c : Core) (file first count : Nat) : Option (List Word) :=
  let sel := fun (n : Nat) (g : Nat → List Word) =>
    if count = 0 ∨ n < first + count then none else some ((List.range count).flatMap (fun i => g (first + i)))
  match file with
  | 0 => sel 32 (fun i => [c.gr (Fin.ofNat 32 i)])
  | 1 => sel 16 (fun i => [c.fr (Fin.ofNat 16 i)])
  | 2 => sel 4 (fun i => [loWord c.a[Fin.ofNat 4 i], hiWord c.a[Fin.ofNat 4 i]])
  | 3 => sel 1 (fun _ => [c.p.setWidth 32])
  | _ => none

def monCore (f : MonFrame) (s : State) : Nat × List Byte × Dev :=
  let k := MonFrame.num f 0 1
  if MonFrame.len f ≠ 4 ∨ 5 < k then (1, [], s.dev)
  else match coreWords (s.snap.core (Fin.ofNat 6 k)) (MonFrame.num f 1 1) (MonFrame.num f 2 1) (MonFrame.num f 3 1) with
    | some ws => if 16 < ws.length then (1, [], s.dev) else (0, wordBytes ws, s.dev)
    | none => (1, [], s.dev)

def monTrace (f : MonFrame) (s : State) : Nat × List Byte × Dev :=
  let e := MonFrame.num f 0 2
  let n := MonFrame.num f 2 1
  if MonFrame.len f ≠ 3 ∨ 255 < e ∨ n = 0 ∨ 2 < n then (1, [], s.dev)
  else (0, wordBytes ((List.range (8 * n)).map (fun i => s.dev.reg (MON_TRBUF ((8 * e + i) % 2048)))), s.dev)

def execMonInfo (f : MonFrame) (s : State) : Out := .next (monRow 1 f (monInfo f) s)
def execMonRead (f : MonFrame) (s : State) : Out := .next (monRow 2 f (monRead f) s)
def execMonCore (f : MonFrame) (s : State) : Out := .next (monRow 4 f (monCore f) s)
def execMonTrace (f : MonFrame) (s : State) : Out := .next (monRow 10 f (monTrace f) s)

/-! ## Writes (R389) -/

/-- Targets that refuse a monitor write. -/
def monRefused (a : Nat) : Bool :=
  decide (a / 0x10000 = 0x102) || decide (a / 0x10000 = 0x112) || decide (regionOf a = .cellar) || decide (regionOf a = .spill) ||
    (decide (HRN_PROP 0 ≤ a) && decide (a < HRN_PROP 64)) ||
    [SYS_CMD, SYS_MODEREQ, LIM_LOADCMD, HRN_SEALCMD, TDL_NVCMD, CEL_CMD, FLT_STAT, SYS_HOLDCAUSE].contains a

/-- One word of a monitor write, as a direct write of the reins holder; whether it was refused. -/
def monWord (demand : Bool) (a : Nat) (v : Word) (d : Dev) : Bool × Dev :=
  let (st, d) := match accessRegion a 4 with
    | some .regs => writeReg .monitor demand a v d
    | some r => writeMem .monitor verifyGood r a 4 v.toNat d
    | none => (3, d)
  (decide (st ≠ 0), d)

/-- The words of a monitor write in order, and whether any was refused. -/
def monWriteAll (demand : Bool) : List (Nat × Word) → Dev → Bool × Dev
  | [], d => (false, d)
  | (a, v) :: t, d =>
    let (bad, d) := monWord demand a v d
    let (bad', d) := monWriteAll demand t d
    (bad || bad', d)

def monWrite (f : MonFrame) (s : State) : Nat × List Byte × Dev :=
  let ws := wordsOf (f.payload.drop 4)
  let ok := decide (MonFrame.len f % 4 = 0) && decide (1 ≤ ws.length) && decide (ws.length ≤ 15)
  inSession s ok (fun s =>
    let targets := ws.zipIdx.map (fun (x : Word × Nat) => (MonFrame.num f 0 4 + 4 * x.2, x.1))
    if targets.any (fun x => (accessRegion x.1 4).isNone) then (4, [], s.dev)
    else if targets.any (fun x => monRefused x.1) then (3, [], s.dev)
    else
      let (bad, d) := monWriteAll (hrnDemand s.snap) targets s.dev
      (if bad then 3 else 0, [], raise 245 d))

def execMonWrite (f : MonFrame) (s : State) : Out := .next (monRow 3 f (monWrite f) s)

/-! ## Sessions (R388) -/

def badCodes (d : Dev) : Nat := d.fld MON_STAT 9 8

/-- UNLOCK: the right code in Commission with ALLOW 1 opens a session; a wrong one counts. -/
def monUnlock (f : MonFrame) (s : State) : Nat × List Byte × Dev :=
  let d := s.dev
  if MonFrame.len f ≠ 4 then (1, [], d)
  else if d.mode ≠ .commission then (5, [], d)
  else if !d.flag MON_CFG 1 || decide (3 ≤ badCodes d) then (3, [], d)
  else if MonFrame.num f 0 4 ≠ d.mon.code.toNat then (3, [], Dev.setFld MON_STAT 9 8 (badCodes d + 1) d)
  else if monOpen d then (0, [], d)
  else (0, [], raise 244 (Dev.setFlag MON_STAT 0 true d))

def monClose (f : MonFrame) (s : State) : Nat × List Byte × Dev :=
  if MonFrame.len f ≠ 0 then (1, [], s.dev) else (0, [], monSessionEnd s.dev)

def execMonUnlock (f : MonFrame) (s : State) : Out := .next (monRow 5 f (monUnlock f) s)
def execMonClose (f : MonFrame) (s : State) : Out := .next (monRow 6 f (monClose f) s)

/-- MON_IDLE_TIMEOUT: IDLE seconds without a valid frame. -/
def execMonIdleTimeout (s : State) : Out := .next { s with dev := monSessionEnd s.dev }

/-! ## Hold and stepping (R391) -/

def monHold (f : MonFrame) (s : State) : Nat × List Byte × Dev :=
  inSession s (decide (MonFrame.len f = 0)) (fun s =>
    (0, [], if monHeld s.dev then s.dev else { s.dev with mon := { s.dev.mon with holdReq := true } }))

/-- STEP n: the held tick runs on for n ticks, the first edge one period from now. -/
def monStep (f : MonFrame) (s : State) : Nat × List Byte × Dev :=
  let n := MonFrame.num f 0 2
  inSession s (decide (MonFrame.len f = 2) && decide (n ≠ 0)) (fun s =>
    let d := s.dev
    if !monHeld d then (3, [], d)
    else
      let d := (monRelease d).setReg MON_STEPS (word n)
      (0, [], { d with mon := { d.mon with stepping := true } }))

def monFree (f : MonFrame) (s : State) : Nat × List Byte × Dev :=
  inSession s (decide (MonFrame.len f = 0)) (fun s => (0, [], monRelease s.dev))

def execMonHold (f : MonFrame) (s : State) : Out := .next (monRow 7 f (monHold f) s)
def execMonStep (f : MonFrame) (s : State) : Out := .next (monRow 8 f (monStep f) s)
def execMonFree (f : MonFrame) (s : State) : Out := .next (monRow 9 f (monFree f) s)

/-- MON_STEP_END: the edge that ends the last stepped tick; it commits and the tick holds. -/
def execMonStepEnd (s : State) : Out :=
  .next (if s.dev.mon.stepping && decide (s.dev.reg MON_STEPS = 1) && decide (s.dev.tick.phase ≠ .idle) then tickEdge .agree s
    else s)

/-! ## The line (R386, R387) -/

/-- BAUD: the new divisor holds once the response is sent, at the old one. -/
def monBaud (f : MonFrame) (s : State) : Nat × List Byte × Dev :=
  let n := MonFrame.num f 0 2
  inSession s (decide (MonFrame.len f = 2) && decide (16 ≤ n)) (fun s => (0, [], s.dev.setReg MON_BAUD (word n)))

def execMonBaud (f : MonFrame) (s : State) : Out := .next (monRow 11 f (monBaud f) s)

/-- MON_FRAME_GAP: the bytes so far are discarded; no request has been taken. -/
def execMonFrameGap (s : State) : Out := .next s

/-- MON_FRAME_ERROR: the frame is discarded, with event 246. -/
def execMonFrameError (s : State) : Out :=
  .next { s with dev := if monServes s.dev then raise 246 s.dev else s.dev }

end Sys2Proof.Machine
end

