-- ==== Sys2Proof/Machine/Dispatch.lean ====
section
/-! DEFINITION. The meaning of each command: one arm per constructor. -/
namespace Sys2Proof.Machine

def exec (i : Instr) (s : State) : Host.Outcome State Fault Refusal :=
  match i with
  | .tickEdge vote => Sys2Proof.Machine.execTickEdge vote s
  | .fractionalEdge idx => Sys2Proof.Machine.execFractionalEdge idx s
  | .slip p => Sys2Proof.Machine.execSlip p s
  | .pkclr p => Sys2Proof.Machine.execPkclr p s
  | .tckPeriodWrite p v => Sys2Proof.Machine.execTckPeriodWrite p v s
  | .tckCountLoRead r => Sys2Proof.Machine.execTckCountLoRead r s
  | .tckEdgetsLoRead r => Sys2Proof.Machine.execTckEdgetsLoRead r s
  | .tckTsLoRead r => Sys2Proof.Machine.execTckTsLoRead r s
  | .heldWtWriteComplete p => Sys2Proof.Machine.execHeldWtWriteComplete p s
  | .registerWrite p addr size v => Sys2Proof.Machine.execRegisterWrite p addr size v s
  | .stickyClear p addr v => Sys2Proof.Machine.execStickyClear p addr v s
  | .hostMemoryWrite p addr size v => Sys2Proof.Machine.execHostMemoryWrite p addr size v s
  | .hostInstructionWrite p addr size v => Sys2Proof.Machine.execHostInstructionWrite p addr size v s
  | .hostCellarWrite p addr size v verify => Sys2Proof.Machine.execHostCellarWrite p addr size v verify s
  | .nop o => Sys2Proof.Machine.execNop o s
  | .add o => Sys2Proof.Machine.execAdd o s
  | .addi o => Sys2Proof.Machine.execAddi o s
  | .sub o => Sys2Proof.Machine.execSub o s
  | .adds o => Sys2Proof.Machine.execAdds o s
  | .subs o => Sys2Proof.Machine.execSubs o s
  | .mul o => Sys2Proof.Machine.execMul o s
  | .mulh o => Sys2Proof.Machine.execMulh o s
  | .div o => Sys2Proof.Machine.execDiv o s
  | .rem o => Sys2Proof.Machine.execRem o s
  | .and o => Sys2Proof.Machine.execAnd o s
  | .or o => Sys2Proof.Machine.execOr o s
  | .xor o => Sys2Proof.Machine.execXor o s
  | .andi o => Sys2Proof.Machine.execAndi o s
  | .ori o => Sys2Proof.Machine.execOri o s
  | .xori o => Sys2Proof.Machine.execXori o s
  | .shl o => Sys2Proof.Machine.execShl o s
  | .shr o => Sys2Proof.Machine.execShr o s
  | .sar o => Sys2Proof.Machine.execSar o s
  | .shi o => Sys2Proof.Machine.execShi o s
  | .rot o => Sys2Proof.Machine.execRot o s
  | .min o => Sys2Proof.Machine.execMin o s
  | .max o => Sys2Proof.Machine.execMax o s
  | .abs o => Sys2Proof.Machine.execAbs o s
  | .clz o => Sys2Proof.Machine.execClz o s
  | .popc o => Sys2Proof.Machine.execPopc o s
  | .bfx o => Sys2Proof.Machine.execBfx o s
  | .bfi o => Sys2Proof.Machine.execBfi o s
  | .clamp o => Sys2Proof.Machine.execClamp o s
  | .sel o => Sys2Proof.Machine.execSel o s
  | .movi o => Sys2Proof.Machine.execMovi o s
  | .ldc o => Sys2Proof.Machine.execLdc o s
  | .cmp o => Sys2Proof.Machine.execCmp o s
  | .cmpi o => Sys2Proof.Machine.execCmpi o s
  | .fcmp o => Sys2Proof.Machine.execFcmp o s
  | .plog o => Sys2Proof.Machine.execPlog o s
  | .pmov o => Sys2Proof.Machine.execPmov o s
  | .tst o => Sys2Proof.Machine.execTst o s
  | .mac o => Sys2Proof.Machine.execMac o s
  | .mach o => Sys2Proof.Machine.execMach o s
  | .aclr o => Sys2Proof.Machine.execAclr o s
  | .aset o => Sys2Proof.Machine.execAset o s
  | .aext o => Sys2Proof.Machine.execAext o s
  | .aadd o => Sys2Proof.Machine.execAadd o s
  | .ashl o => Sys2Proof.Machine.execAshl o s
  | .amov o => Sys2Proof.Machine.execAmov o s
  | .fadd o => Sys2Proof.Machine.execFadd o s
  | .fsub o => Sys2Proof.Machine.execFsub o s
  | .fmul o => Sys2Proof.Machine.execFmul o s
  | .fma o => Sys2Proof.Machine.execFma o s
  | .fdiv o => Sys2Proof.Machine.execFdiv o s
  | .fsqrt o => Sys2Proof.Machine.execFsqrt o s
  | .fmin o => Sys2Proof.Machine.execFmin o s
  | .fmax o => Sys2Proof.Machine.execFmax o s
  | .fabs o => Sys2Proof.Machine.execFabs o s
  | .fcvt o => Sys2Proof.Machine.execFcvt o s
  | .fmov o => Sys2Proof.Machine.execFmov o s
  | .fclamp o => Sys2Proof.Machine.execFclamp o s
  | .fldc o => Sys2Proof.Machine.execFldc o s
  | .frsq o => Sys2Proof.Machine.execFrsq o s
  | .fsc o => Sys2Proof.Machine.execFsc o s
  | .ldw o => Sys2Proof.Machine.execLdw o s
  | .ldh o => Sys2Proof.Machine.execLdh o s
  | .ldhu o => Sys2Proof.Machine.execLdhu o s
  | .ldb o => Sys2Proof.Machine.execLdb o s
  | .ldbu o => Sys2Proof.Machine.execLdbu o s
  | .ldd o => Sys2Proof.Machine.execLdd o s
  | .stw o => Sys2Proof.Machine.execStw o s
  | .sth o => Sys2Proof.Machine.execSth o s
  | .stb o => Sys2Proof.Machine.execStb o s
  | .std o => Sys2Proof.Machine.execStd o s
  | .fld o => Sys2Proof.Machine.execFld o s
  | .fst o => Sys2Proof.Machine.execFst o s
  | .ldsw o => Sys2Proof.Machine.execLdsw o s
  | .ldsd o => Sys2Proof.Machine.execLdsd o s
  | .stsw o => Sys2Proof.Machine.execStsw o s
  | .stsd o => Sys2Proof.Machine.execStsd o s
  | .flds o => Sys2Proof.Machine.execFlds o s
  | .fsts o => Sys2Proof.Machine.execFsts o s
  | .pin o => Sys2Proof.Machine.execPin o s
  | .pout o => Sys2Proof.Machine.execPout o s
  | .mbw o => Sys2Proof.Machine.execMbw o s
  | .mbr o => Sys2Proof.Machine.execMbr o s
  | .mbs o => Sys2Proof.Machine.execMbs o s
  | .cart o => Sys2Proof.Machine.execCart o s
  | .ctst o => Sys2Proof.Machine.execCtst o s
  | .treeRun o => Sys2Proof.Machine.execTreeRun o s
  | .cld o => Sys2Proof.Machine.execCld o s
  | .ckb o => Sys2Proof.Machine.execCkb o s
  | .ckw o => Sys2Proof.Machine.execCkw o s
  | .ckc o => Sys2Proof.Machine.execCkc o s
  | .jmp o => Sys2Proof.Machine.execJmp o s
  | .call o => Sys2Proof.Machine.execCall o s
  | .ret o => Sys2Proof.Machine.execRet o s
  | .loop o => Sys2Proof.Machine.execLoop o s
  | .loopr o => Sys2Proof.Machine.execLoopr o s
  | .endl o => Sys2Proof.Machine.execEndl o s
  | .btab o => Sys2Proof.Machine.execBtab o s
  | .tend o => Sys2Proof.Machine.execTend o s
  | .rds o => Sys2Proof.Machine.execRds o s
  | .wrs o => Sys2Proof.Machine.execWrs o s
  | .evs o => Sys2Proof.Machine.execEvs o s
  | .loadCommand p v => Sys2Proof.Machine.execLoadCommand p v s
  | .cartDone core idx err => Sys2Proof.Machine.execCartDone core idx err s
  | .cartLanding core idx => Sys2Proof.Machine.execCartLanding core idx s
  | .reinsReq p contested => Sys2Proof.Machine.execReinsReq p contested s
  | .reinsRel p => Sys2Proof.Machine.execReinsRel p s
  | .reinsTake p contested => Sys2Proof.Machine.execReinsTake p contested s
  | .heartbeat p => Sys2Proof.Machine.execHeartbeat p s
  | .doorbell p v => Sys2Proof.Machine.execDoorbell p v s
  | .cplheadWrite p v => Sys2Proof.Machine.execCplheadWrite p v s
  | .commandConsume p => Sys2Proof.Machine.execCommandConsume p s
  | .cmdNop p => Sys2Proof.Machine.execCmdNop p s
  | .rd32 p => Sys2Proof.Machine.execRd32 p s
  | .wr32 p => Sys2Proof.Machine.execWr32 p s
  | .wrat p => Sys2Proof.Machine.execWrat p s
  | .rdat p => Sys2Proof.Machine.execRdat p s
  | .wratAccept p => Sys2Proof.Machine.execWratAccept p s
  | .rdatPerform p => Sys2Proof.Machine.execRdatPerform p s
  | .qspiWrite p offset words => Sys2Proof.Machine.execQspiWrite p offset words s
  | .qspiRead p offset n => Sys2Proof.Machine.execQspiRead p offset n s
  | .qspiReadTimeout p => Sys2Proof.Machine.execQspiReadTimeout p s
  | .setwin p v => Sys2Proof.Machine.execSetwin p v s
  | .vecackWrite p v => Sys2Proof.Machine.execVecackWrite p v s
  | .cplModerationEnd p => Sys2Proof.Machine.execCplModerationEnd p s
  | .msixSend p v => Sys2Proof.Machine.execMsixSend p v s
  | .perst p => Sys2Proof.Machine.execPerst p s
  | .modeRequest req => Sys2Proof.Machine.execModeRequest req s
  | .halt event detail => Sys2Proof.Machine.execHalt event detail s
  | .softwareReset p v => Sys2Proof.Machine.execSoftwareReset p v s
  | .rstNPulse ns straps => Sys2Proof.Machine.execRstNPulse ns straps s
  | .pgoodFall straps => Sys2Proof.Machine.execPgoodFall straps s
  | .startUp env => Sys2Proof.Machine.execStartUp env s
  | .wake causes stopTu => Sys2Proof.Machine.execWake causes stopTu s
  | .axisEnable n => Sys2Proof.Machine.execAxisEnable n s
  | .axisDisable n => Sys2Proof.Machine.execAxisDisable n s
  | .qstop n => Sys2Proof.Machine.execQstop n s
  | .gearMode n => Sys2Proof.Machine.execGearMode n s
  | .camArm n => Sys2Proof.Machine.execCamArm n s
  | .segpush n => Sys2Proof.Machine.execSegpush n s
  | .flush n => Sys2Proof.Machine.execFlush n s
  | .segmentEnd g => Sys2Proof.Machine.execSegmentEnd g s
  | .limitInput n limP limN home => Sys2Proof.Machine.execLimitInput n limP limN home s
  | .stepPulse n ofs => Sys2Proof.Machine.execStepPulse n ofs s
  | .blindHoldEnd n => Sys2Proof.Machine.execBlindHoldEnd n s
  | .islandEdgeFrame f => Sys2Proof.Machine.execIslandEdgeFrame f s
  | .stoppedHeartbeat crcOk => Sys2Proof.Machine.execStoppedHeartbeat crcOk s
  | .configSend p v => Sys2Proof.Machine.execConfigSend p v s
  | .dioSample idx level => Sys2Proof.Machine.execDioSample idx level s
  | .fieldReport r => Sys2Proof.Machine.execFieldReport r s
  | .dioOverload idx => Sys2Proof.Machine.execDioOverload idx s
  | .dfclr mask => Sys2Proof.Machine.execDfclr mask s
  | .aoCompliance j => Sys2Proof.Machine.execAoCompliance j s
  | .aoThermalShutdown j => Sys2Proof.Machine.execAoThermalShutdown j s
  | .fclr j tempC => Sys2Proof.Machine.execFclr j tempC s
  | .aiSample k reading burnHot => Sys2Proof.Machine.execAiSample k reading burnHot s
  | .aiProtEnd k => Sys2Proof.Machine.execAiProtEnd k s
  | .fieldUndervoltage lost => Sys2Proof.Machine.execFieldUndervoltage lost s
  | .foldBack acts => Sys2Proof.Machine.execFoldBack acts s
  | .conversion v cin exOpen refDiff => Sys2Proof.Machine.execConversion v cin exOpen refDiff s
  | .tendrilSlot downOk => Sys2Proof.Machine.execTendrilSlot downOk s
  | .uplinkReceive ok mv temp => Sys2Proof.Machine.execUplinkReceive ok mv temp s
  | .setptWrite v => Sys2Proof.Machine.execSetptWrite v s
  | .nvWrite p => Sys2Proof.Machine.execNvWrite p s
  | .nvRead p => Sys2Proof.Machine.execNvRead p s
  | .nvTransferEnd e => Sys2Proof.Machine.execNvTransferEnd e s
  | .hartRequest preambles parityOk frame => Sys2Proof.Machine.execHartRequest preambles parityOk frame s
  | .hartReplySend elapsedMs => Sys2Proof.Machine.execHartReplySend elapsedMs s
  | .harnessCycle sa sb trouble => Sys2Proof.Machine.execHarnessCycle sa sb trouble s
  | .testPulse x two => Sys2Proof.Machine.execTestPulse x two s
  | .outputDip x low => Sys2Proof.Machine.execOutputDip x low s
  | .discrepancyTimeout f => Sys2Proof.Machine.execDiscrepancyTimeout f s
  | .synchronismTimeout f => Sys2Proof.Machine.execSynchronismTimeout f s
  | .harnessReset r => Sys2Proof.Machine.execHarnessReset r s
  | .statusFrameReceive crcOk => Sys2Proof.Machine.execStatusFrameReceive crcOk s
  | .sealSend p v => Sys2Proof.Machine.execSealSend p v s
  | .proposalReceive transferOk => Sys2Proof.Machine.execProposalReceive transferOk s
  | .configActivate heldMs seenByBoth => Sys2Proof.Machine.execConfigActivate heldMs seenByBoth s
  | .configWriteEnd agree => Sys2Proof.Machine.execConfigWriteEnd agree s
  | .vsafePowerUp e => Sys2Proof.Machine.execVsafePowerUp e s
  | .hqCount q a ph => Sys2Proof.Machine.execHqCount q a ph s
  | .coilFault b => Sys2Proof.Machine.execCoilFault b s
  | .brakeDue b => Sys2Proof.Machine.execBrakeDue b s
  | .brakeOverdue b => Sys2Proof.Machine.execBrakeOverdue b s
  | .brakeTestStart b => Sys2Proof.Machine.execBrakeTestStart b s
  | .caskApply verify => Sys2Proof.Machine.execCaskApply verify s
  | .logResume p => Sys2Proof.Machine.execLogResume p s
  | .spillclr p v => Sys2Proof.Machine.execSpillclr p v s
  | .pop v => Sys2Proof.Machine.execPop v s
  | .holdfClear p => Sys2Proof.Machine.execHoldfClear p s
  | .fpdisClear p => Sys2Proof.Machine.execFpdisClear p s
  | .swset v => Sys2Proof.Machine.execSwset v s
  | .tempWarning tempC => Sys2Proof.Machine.execTempWarning tempC s
  | .tempCritical tempC => Sys2Proof.Machine.execTempCritical tempC s
  | .clockLoss which => Sys2Proof.Machine.execClockLoss which s
  | .dramEccRead addr uncorrectable => Sys2Proof.Machine.execDramEccRead addr uncorrectable s
  | .hostRead p bar2 addr size ecc => Sys2Proof.Machine.execHostRead p bar2 addr size ecc s
  | .hostDramWrite p addr size v => Sys2Proof.Machine.execHostDramWrite p addr size v s
  | .pcieLinkChange p up => Sys2Proof.Machine.execPcieLinkChange p up s
  | .pcieConfigRequest p req => Sys2Proof.Machine.execPcieConfigRequest p req s
  | .quadEdge c a b l => Sys2Proof.Machine.execQuadEdge c a b l s
  | .hallStep c uvw l => Sys2Proof.Machine.execHallStep c uvw l s
  | .zEdge z => Sys2Proof.Machine.execZEdge z s
  | .zeroSpeedTimeout c => Sys2Proof.Machine.execZeroSpeedTimeout c s
  | .ssiFrameStart c => Sys2Proof.Machine.execSsiFrameStart c s
  | .serialFrameEnd c frame => Sys2Proof.Machine.execSerialFrameEnd c frame s
  | .rs485Request c => Sys2Proof.Machine.execRs485Request c s
  | .rs485Timeout c => Sys2Proof.Machine.execRs485Timeout c s
  | .serialStaleTimeout c => Sys2Proof.Machine.execSerialStaleTimeout c s
  | .sincosSample c sn cs quadrants fast ts => Sys2Proof.Machine.execSincosSample c sn cs quadrants fast ts s
  | .capEdge j rising l => Sys2Proof.Machine.execCapEdge j rising l s
  | .latchTimeout j => Sys2Proof.Machine.execLatchTimeout j s
  | .setpos c => Sys2Proof.Machine.execSetpos c s
  | .refset c => Sys2Proof.Machine.execRefset c s
  | .zarm c => Sys2Proof.Machine.execZarm c s
  | .rearm j => Sys2Proof.Machine.execRearm j s
  | .fbTypeChange p c v => Sys2Proof.Machine.execFbTypeChange p c v s
  | .controlPass n bits => Sys2Proof.Machine.execControlPass n bits s
  | .chopperPass n bits => Sys2Proof.Machine.execChopperPass n bits s
  | .chopperModeTimeout n => Sys2Proof.Machine.execChopperModeTimeout n s
  | .engineOverrun src => Sys2Proof.Machine.execEngineOverrun src s
  | .carrierValley n => Sys2Proof.Machine.execCarrierValley n s
  | .overcurrentTrip ch amps => Sys2Proof.Machine.execOvercurrentTrip ch amps s
  | .sdError ch => Sys2Proof.Machine.execSdError ch s
  | .frset n => Sys2Proof.Machine.execFrset n s
  | .frclr n => Sys2Proof.Machine.execFrclr n s
  | .cgset n => Sys2Proof.Machine.execCgset n s
  | .cgclr n => Sys2Proof.Machine.execCgclr n s
  | .tableWrite n v => Sys2Proof.Machine.execTableWrite n v s
  | .gainWrite n offset v => Sys2Proof.Machine.execGainWrite n offset v s
  | .jobGo p => Sys2Proof.Machine.execJobGo p s
  | .jobAbort p => Sys2Proof.Machine.execJobAbort p s
  | .rowFetch p err => Sys2Proof.Machine.execRowFetch p err s
  | .indexDue p => Sys2Proof.Machine.execIndexDue p s
  | .delayedFiring p => Sys2Proof.Machine.execDelayedFiring p s
  | .firingEnd p => Sys2Proof.Machine.execFiringEnd p s
  | .headFault p low => Sys2Proof.Machine.execHeadFault p low s
  | .densityWrite p v => Sys2Proof.Machine.execDensityWrite p v s
  | .sliceWidthWrite p v => Sys2Proof.Machine.execSliceWidthWrite p v s
  | .ratioWrite port p v => Sys2Proof.Machine.execRatioWrite port p v s
  | .frameStart p f => Sys2Proof.Machine.execFrameStart p f s
  | .frameEnd p f => Sys2Proof.Machine.execFrameEnd p f s
  | .frameReady p => Sys2Proof.Machine.execFrameReady p s
  | .graphRun g => Sys2Proof.Machine.execGraphRun g s
  | .graphStop g => Sys2Proof.Machine.execGraphStop g s
  | .qcycWrite g v => Sys2Proof.Machine.execQcycWrite g v s
  | .confminWrite g v => Sys2Proof.Machine.execConfminWrite g v s
  | .missingTimeout g => Sys2Proof.Machine.execMissingTimeout g s
  | .handoffWrite g => Sys2Proof.Machine.execHandoffWrite g s
  | .handoffExpiry entry => Sys2Proof.Machine.execHandoffExpiry entry s
  | .hoffrdWrite p v => Sys2Proof.Machine.execHoffrdWrite p v s
  | .treeLoadEnd sourceUe => Sys2Proof.Machine.execTreeLoadEnd sourceUe s
  | .trimGo v => Sys2Proof.Machine.execTrimGo v s
  | .trimStepEnd code result => Sys2Proof.Machine.execTrimStepEnd code result s
  | .trimRestoreWrite p addr v => Sys2Proof.Machine.execTrimRestoreWrite p addr v s
  | .idRead mask => Sys2Proof.Machine.execIdRead mask s
  | .idReadEnd b wire => Sys2Proof.Machine.execIdReadEnd b wire s
  | .idLanding b => Sys2Proof.Machine.execIdLanding b s
  | .monInfo f => Sys2Proof.Machine.execMonInfo f s
  | .monRead f => Sys2Proof.Machine.execMonRead f s
  | .monWrite f => Sys2Proof.Machine.execMonWrite f s
  | .monCore f => Sys2Proof.Machine.execMonCore f s
  | .monUnlock f => Sys2Proof.Machine.execMonUnlock f s
  | .monClose f => Sys2Proof.Machine.execMonClose f s
  | .monHold f => Sys2Proof.Machine.execMonHold f s
  | .monStep f => Sys2Proof.Machine.execMonStep f s
  | .monFree f => Sys2Proof.Machine.execMonFree f s
  | .monTrace f => Sys2Proof.Machine.execMonTrace f s
  | .monBaud f => Sys2Proof.Machine.execMonBaud f s
  | .monCodeWrite p v => Sys2Proof.Machine.execMonCodeWrite p v s
  | .slipLimit => Sys2Proof.Machine.execSlipLimit s
  | .computeStart => Sys2Proof.Machine.execComputeStart s
  | .stageStart => Sys2Proof.Machine.execStageStart s
  | .loadVerifyEnd => Sys2Proof.Machine.execLoadVerifyEnd s
  | .hbTimeout => Sys2Proof.Machine.execHbTimeout s
  | .wakeTimerExpiry => Sys2Proof.Machine.execWakeTimerExpiry s
  | .harnessLinkLoss => Sys2Proof.Machine.execHarnessLinkLoss s
  | .treeLoad => Sys2Proof.Machine.execTreeLoad s
  | .heartbeatAck => Sys2Proof.Machine.execHeartbeatAck s
  | .configResend => Sys2Proof.Machine.execConfigResend s
  | .totalOverload => Sys2Proof.Machine.execTotalOverload s
  | .resume => Sys2Proof.Machine.execResume s
  | .silenceTimeout => Sys2Proof.Machine.execSilenceTimeout s
  | .immediateSafeMarker => Sys2Proof.Machine.execImmediateSafeMarker s
  | .islandPowerUp => Sys2Proof.Machine.execIslandPowerUp s
  | .tendrilStart => Sys2Proof.Machine.execTendrilStart s
  | .brownOut => Sys2Proof.Machine.execBrownOut s
  | .sourceSelect => Sys2Proof.Machine.execSourceSelect s
  | .tendrilLinkLoss => Sys2Proof.Machine.execTendrilLinkLoss s
  | .hartRecordLanding => Sys2Proof.Machine.execHartRecordLanding s
  | .hartReplyGo => Sys2Proof.Machine.execHartReplyGo s
  | .hrstTooLong => Sys2Proof.Machine.execHrstTooLong s
  | .statusFrame => Sys2Proof.Machine.execStatusFrame s
  | .pendingExpiry => Sys2Proof.Machine.execPendingExpiry s
  | .vsafeLow => Sys2Proof.Machine.execVsafeLow s
  | .testHoldEnd => Sys2Proof.Machine.execTestHoldEnd s
  | .testAckTimeout => Sys2Proof.Machine.execTestAckTimeout s
  | .commitWordWrite => Sys2Proof.Machine.execCommitWordWrite s
  | .faultPulseEnd => Sys2Proof.Machine.execFaultPulseEnd s
  | .dramStall => Sys2Proof.Machine.execDramStall s
  | .supplyFault => Sys2Proof.Machine.execSupplyFault s
  | .trimNext => Sys2Proof.Machine.execTrimNext s
  | .trimAbort => Sys2Proof.Machine.execTrimAbort s
  | .trimPointReached => Sys2Proof.Machine.execTrimPointReached s
  | .trimPointTimeout => Sys2Proof.Machine.execTrimPointTimeout s
  | .monStepEnd => Sys2Proof.Machine.execMonStepEnd s
  | .monFrameGap => Sys2Proof.Machine.execMonFrameGap s
  | .monFrameError => Sys2Proof.Machine.execMonFrameError s
  | .monIdleTimeout => Sys2Proof.Machine.execMonIdleTimeout s
  | .vfieldRecovery => Sys2Proof.Machine.execVfieldRecovery s
  | .vsafeRecovery => Sys2Proof.Machine.execVsafeRecovery s

end Sys2Proof.Machine
end

