-- ==== Sys2Proof/Machine/Idle.lean ====
section
/-! DEFINITION. What the block does on an empty command queue. -/
namespace Sys2Proof.Machine

/-- With no command waiting, one core cycle of 2 tick units passes while the timestamp runs; nothing else changes: every
time-driven effect is a command of its own (assumption 2). -/
def idleCycle (s : State) : State :=
  if s.dev.pw.stopped then s else { s with dev := { s.dev with now := s.dev.now + 2 } }

end Sys2Proof.Machine
end

