-- ==== Sys2Proof/Safety.lean ====
section
/-! DEFINITION. What counts as a safe run of the block, in the terms that statements use: no step stops, and every state
is sound: its stores are in canonical form and its fault stack is in order. -/
namespace Sys2Proof.Machine

/-- The fault stack as R349 leaves it: at most two records, the top one of a class at least as high as the other. -/
def stackInOrder : List FRec → Bool
  | [] => true
  | [_] => true
  | [t, w] => decide (w.cls.num ≤ t.cls.num)
  | _ => false

/-- A device whose register file, output ports, tick SRAM, DRAM and Cellar memories are in canonical form, and whose fault
stack is in order. -/
structure Dev.Sound (d : Dev) : Prop where
  regs    : smWf regReset d.regs = true
  outs    : smWf word0 d.outs = true
  sram    : d.sram.wf = true
  dram    : dramWf d = true
  array   : d.cel.array.wf = true
  durable : d.cel.durable.wf = true
  spill   : d.cel.spill.wf = true
  stack   : stackInOrder d.fu.stack = true

/-- A machine whose device is sound now and was sound at the end of the most recent Capture. -/
structure State.Sound (s : State) : Prop where
  dev  : s.dev.Sound
  snap : s.snap.Sound

/-- A command runs safely: it answers a next state. -/
def runsSafely (c : Instr) (s : State) : Prop := ∃ t, exec c s = .next t

end Sys2Proof.Machine
end

