-- ==== Sys2Proof/Certificates/Slice0/Obligations.lean ====
section
/-! DEFINITION. The statements for the provers, and the terms they use. -/

/-! ## The terms of the statements: Limath -/

namespace Sys2Proof.Claims
open Sys2Proof
open Sys2Proof.Machine

/-- The device once the fetch of an instruction has been answered: a corrected error has set CST.CEC and raised its Note
(03_limath.md, *Exceptions*). -/
def fetched (o : Lim) (s : State) : Dev := if o.fetch = .corrected then limCec o.core 0 s.dev else s.dev

/-- The core from which the instruction reads its operands. -/
def from_ (o : Lim) (s : State) : Core := (fetched o s).core o.core

/-- The core issues the instruction in Compute, its fetch has no uncorrectable error and its predicate field is listed. -/
structure Issued (o : Lim) (s : State) : Prop where
  issues : issuing s.dev o.core = true
  fetch  : o.fetch ≠ .uncorrectable
  listed : okPred o = true

/-- It is issued and executes: p[PN] XOR PI equals 1 (R53). -/
structure Executes (o : Lim) (s : State) : Prop extends Issued o s where
  pred : ((from_ o s).pr o.pn.toNat != o.inv) = true

/-- The machine after the instruction, when it changes its core alone. -/
def withCore (o : Lim) (s : State) (c : Core) : State := { s with dev := (fetched o s).setCore o.core c }

/-- What no instruction on registers changes: return stack, loops, program memories, data memory, cask and carts. -/
structure Untouched (c c' : Core) : Prop where
  stack  : c'.stack = c.stack
  lc     : c'.lc = c.lc
  body   : c'.body = c.body
  run    : c'.run = c.run
  cask   : c'.cask = c.cask
  bad    : c'.bad = c.bad
  imem   : c'.imem = c.imem
  consts : c'.consts = c.consts
  dmem   : c'.dmem = c.dmem
  busy   : c'.busy = c.busy
  done   : c'.done = c.done
  err    : c'.err = c.err

/-- The core goes on to the next word after the stall for the registers read (R56) and the listed cost. -/
def Retires (c c' : Core) (reads : List Nat) (cost : Nat) : Prop :=
  c'.pc = c.pc + 1 ∧ c'.cyc = c.cyc + stallOf c reads + cost

/-- g[rd] takes a value; no other g register changes, and none does for rd = 0 (R50). -/
def WritesG (c c' : Core) (rd : Nat) (v : Word) : Prop :=
  ∀ i, i < 32 → c'.gr i = if i = rd ∧ i ≠ 0 then v else c.gr i

def WritesF (c c' : Core) (rd : Nat) (v : Word) : Prop := ∀ i, i < 16 → c'.fr i = if i = rd then v else c.fr i
def WritesA (c c' : Core) (rd : Nat) (v : DWord) : Prop := ∀ i, i < 4 → c'.ac i = if i = rd then v else c.ac i
def WritesP (c c' : Core) (pd : Nat) (v : Bool) : Prop := ∀ i, i < 8 → c'.pr i = if i = pd ∧ i ≠ 0 then v else c.pr i

/-- CST gains bits and loses none. -/
def Sticks (c c' : Core) (m : Nat) : Prop := c'.cst = c.cst ||| word m

/-- Only g[rd] and CST change, of the registers. -/
def OnlyG (c c' : Core) (rd : Nat) (v : Word) (m : Nat) : Prop :=
  WritesG c c' rd v ∧ Sticks c c' m ∧ c'.f = c.f ∧ c'.a = c.a ∧ c'.p = c.p ∧ Untouched c c'
def OnlyF (c c' : Core) (rd : Nat) (v : Word) (m : Nat) : Prop :=
  WritesF c c' rd v ∧ Sticks c c' m ∧ c'.g = c.g ∧ c'.a = c.a ∧ c'.p = c.p ∧ Untouched c c'
def OnlyA (c c' : Core) (rd : Nat) (v : DWord) (m : Nat) : Prop :=
  WritesA c c' rd v ∧ Sticks c c' m ∧ c'.g = c.g ∧ c'.f = c.f ∧ c'.p = c.p ∧ Untouched c c'
def OnlyP (c c' : Core) (pd : Nat) (v : Bool) : Prop :=
  WritesP c c' pd v ∧ c'.cst = c.cst ∧ c'.g = c.g ∧ c'.f = c.f ∧ c'.a = c.a ∧ Untouched c c'

/-- An exact result clamped to a range, with CST.SAT (bit 0) when it clamps. -/
def clampTo (lo hi x : Int) : Int × Nat := if x < lo then (lo, 1) else if hi < x then (hi, 1) else (x, 0)
def clampS (x : Int) : Word × Nat := (wordI (clampTo (-0x80000000) 0x7FFFFFFF x).1, (clampTo (-0x80000000) 0x7FFFFFFF x).2)
def clampU (x : Int) : Word × Nat := (wordI (clampTo 0 0xFFFFFFFF x).1, (clampTo 0 0xFFFFFFFF x).2)
def clampA (x : Int) : DWord × Nat :=
  (BitVec.ofInt 64 (clampTo (-0x8000000000000000) 0x7FFFFFFFFFFFFFFF x).1, (clampTo (-0x8000000000000000) 0x7FFFFFFFFFFFFFFF x).2)

/-- An operand as fn says: 0 signed, 1 unsigned. -/
def numOf (fn : Nat) (w : Word) : Int := if fn = 1 then (w.toNat : Int) else w.toInt

/-- DIV, with R58 for its corners: rounded toward zero; CST.DZ is bit 1. -/
def divOf (fn : Nat) (a b : Word) : Word × Nat :=
  if b = 0 then ((if fn = 1 then 0xFFFFFFFF else if 0 ≤ a.toInt then 0x7FFFFFFF else 0x80000000), 2)
  else if fn = 1 then (word (a.toNat / b.toNat), 0)
  else clampS (a.toInt.tdiv b.toInt)

def remOf (fn : Nat) (a b : Word) : Word × Nat :=
  if b = 0 then (a, 2) else (wordI (numOf fn a - (numOf fn a).tdiv (numOf fn b) * numOf fn b), 0)

/-- A two-operand integer instruction: its constructor, the highest fn listed, its cost, and result and CST bits. -/
structure IntRow where
  instr : Lim → Instr
  maxFn : Nat
  cost  : Nat
  res   : Nat → Word → Word → Word × Nat

/-- 03_limath.md, *Integer arithmetic and logic*, format R with two operands. -/
def intRows : List IntRow :=
  [⟨.add, 0, 1, fun _ a b => (a + b, 0)⟩,
   ⟨.sub, 0, 1, fun _ a b => (a - b, 0)⟩,
   ⟨.adds, 1, 1, fun fn a b => if fn = 0 then clampS (a.toInt + b.toInt) else clampU (a.toNat + b.toNat)⟩,
   ⟨.subs, 1, 1, fun fn a b => if fn = 0 then clampS (a.toInt - b.toInt) else clampU (a.toNat - b.toNat)⟩,
   ⟨.mul, 0, 1, fun _ a b => (word (a.toNat * b.toNat), 0)⟩,
   ⟨.mulh, 1, 1, fun fn a b => (wordI (numOf fn a * numOf fn b / 0x100000000), 0)⟩,
   ⟨.div, 1, 18, divOf⟩,
   ⟨.rem, 1, 18, remOf⟩,
   ⟨.and, 0, 1, fun _ a b => (a &&& b, 0)⟩,
   ⟨.or, 0, 1, fun _ a b => (a ||| b, 0)⟩,
   ⟨.xor, 0, 1, fun _ a b => (a ^^^ b, 0)⟩,
   ⟨.shl, 0, 1, fun _ a b => (if b.toNat % 256 < 32 then a <<< (b.toNat % 256) else 0, 0)⟩,
   ⟨.shr, 0, 1, fun _ a b => (if b.toNat % 256 < 32 then a >>> (b.toNat % 256) else 0, 0)⟩,
   ⟨.sar, 0, 1, fun _ a b => (wordI (a.toInt / 2 ^ (b.toNat % 256)), 0)⟩,
   ⟨.rot, 0, 1, fun _ a b => (a.rotateRight (b.toNat % 32), 0)⟩,
   ⟨.min, 1, 1, fun fn a b => (if numOf fn a ≤ numOf fn b then a else b, 0)⟩,
   ⟨.max, 1, 1, fun fn a b => (if numOf fn b ≤ numOf fn a then a else b, 0)⟩]

/-- A one-operand integer instruction, listed when a condition on its fields holds. -/
structure UnRow where
  instr : Lim → Instr
  ok   : Lim → Prop
  res  : Lim → Word → Word × Nat

/-- The shift that SHI's imm10[6:5] selects. -/
def shiftBy (mode n : Nat) (a : Word) : Word :=
  match mode with
  | 0 => a <<< n
  | 1 => a >>> n
  | 2 => wordI (a.toInt / 2 ^ n)
  | _ => a.rotateRight n

/-- 03_limath.md, *Integer arithmetic and logic*, with one g operand. -/
def unRows : List UnRow :=
  [⟨.addi, fun _ => True, fun o a => (a + wordI (imm10 o), 0)⟩,
   ⟨.andi, fun _ => True, fun o a => (a &&& word (uimm10 o), 0)⟩,
   ⟨.ori, fun _ => True, fun o a => (a ||| word (uimm10 o), 0)⟩,
   ⟨.xori, fun _ => True, fun o a => (a ^^^ word (uimm10 o), 0)⟩,
   ⟨.shi, fun o => uimm10 o / 128 = 0, fun o a => (shiftBy (uimm10 o / 32 % 4) (uimm10 o % 32) a, 0)⟩,
   ⟨.abs, fun o => rbOf o = 0 ∧ fnOf o = 0, fun _ a => clampS a.toInt.natAbs⟩,
   ⟨.clz, fun o => rbOf o = 0 ∧ fnOf o = 0,
     fun _ a => (word (((List.range 32).find? (fun i => a.getLsbD (31 - i))).getD 32), 0)⟩,
   ⟨.popc, fun o => rbOf o = 0 ∧ fnOf o = 0, fun _ a => (word ((List.range 32).countP (fun i => a.getLsbD i)), 0)⟩,
   ⟨.bfx, fun _ => True,
     fun o a => (word (a.toNat / 2 ^ (uimm10 o % 32) % 2 ^ (uimm10 o / 32 + 1)), 0)⟩]

/-- BFI: bits lsb + w − 1 .. lsb of rd are bits w − 1 .. 0 of ra; bits above bit 31 are dropped. -/
def insertBits (d a : Word) (lsb w : Nat) : Word :=
  word (((List.range 32).map (fun i =>
    if lsb ≤ i ∧ i < lsb + w then (if a.getLsbD (i - lsb) then 2 ^ i else 0) else if d.getLsbD i then 2 ^ i else 0)).foldl (· + ·) 0)

end Sys2Proof.Claims

/-! ## Limath: results -/

open Sys2Proof Sys2Proof.Machine Sys2Proof.Claims in
/-- ADD, SUB, ADDS, SUBS, MUL, MULH, DIV, REM, AND, OR, XOR, SHL, SHR, SAR, ROT, MIN and MAX write their result to g[rd] and
set the CST bits of their row; nothing else of the machine changes but PC and the cycle count.
ADDI, ANDI, ORI, XORI, SHI, ABS, CLZ, POPC and BFX. -/
def Obligations.IntegerResults : Prop :=
  (∀ r ∈ intRows, ∀ (o : Lim) (s : State), Executes o s → fnOf o ≤ r.maxFn →
     ∃ c', exec (r.instr o) s = .next (withCore o s c') ∧
       OnlyG (from_ o s) c' (rdOf o) (r.res (fnOf o) ((from_ o s).gr (raOf o)) ((from_ o s).gr (rbOf o))).1
         (r.res (fnOf o) ((from_ o s).gr (raOf o)) ((from_ o s).gr (rbOf o))).2 ∧
       Retires (from_ o s) c' [kg (raOf o), kg (rbOf o)] r.cost) ∧
  (∀ r ∈ unRows, ∀ (o : Lim) (s : State), Executes o s → r.ok o →
     ∃ c', exec (r.instr o) s = .next (withCore o s c') ∧
       OnlyG (from_ o s) c' (rdOf o) (r.res o ((from_ o s).gr (raOf o))).1 (r.res o ((from_ o s).gr (raOf o))).2 ∧
       Retires (from_ o s) c' [kg (raOf o)] 1)

namespace Sys2Proof.Claims
open Sys2Proof
open Sys2Proof.Machine

/-- An instruction whose result is one register: its constructor, when its fields are listed, the registers it reads, its
cost, the register it writes, and the value with the CST bits it sets. The machine is an argument for what PIN, CTST and RDS
read beside the core. -/
structure RegRow (α : Type) where
  instr : Lim → Instr
  ok    : Lim → Prop
  reads : Lim → List Nat
  cost  : Nat
  rd    : Lim → Nat
  val   : Lim → State → Core → α × Nat

/-- Every instruction of a table answers the next state in which its register, its CST bits, PC and the cycle count have
changed, and nothing else. -/
def GHold (l : List (RegRow Word)) : Prop :=
  ∀ r ∈ l, ∀ (o : Lim) (s : State), Executes o s → r.ok o →
    ∃ c', exec (r.instr o) s = .next (withCore o s c') ∧
      OnlyG (from_ o s) c' (r.rd o) (r.val o s (from_ o s)).1 (r.val o s (from_ o s)).2 ∧
      Retires (from_ o s) c' (r.reads o) r.cost
def FHold (l : List (RegRow Word)) : Prop :=
  ∀ r ∈ l, ∀ (o : Lim) (s : State), Executes o s → r.ok o →
    ∃ c', exec (r.instr o) s = .next (withCore o s c') ∧
      OnlyF (from_ o s) c' (r.rd o) (r.val o s (from_ o s)).1 (r.val o s (from_ o s)).2 ∧
      Retires (from_ o s) c' (r.reads o) r.cost
def AHold (l : List (RegRow DWord)) : Prop :=
  ∀ r ∈ l, ∀ (o : Lim) (s : State), Executes o s → r.ok o →
    ∃ c', exec (r.instr o) s = .next (withCore o s c') ∧
      OnlyA (from_ o s) c' (r.rd o) (r.val o s (from_ o s)).1 (r.val o s (from_ o s)).2 ∧
      c'.pc = (from_ o s).pc + 1
def PHold (l : List (RegRow Bool)) : Prop :=
  ∀ r ∈ l, ∀ (o : Lim) (s : State), Executes o s → r.ok o →
    ∃ c', exec (r.instr o) s = .next (withCore o s c') ∧
      OnlyP (from_ o s) c' (r.rd o) (r.val o s (from_ o s)).1 ∧ Retires (from_ o s) c' (r.reads o) r.cost

/-- The register operands of formats R and C as the register files hold them. -/
def xa (o : Lim) (c : Core) : Word := c.gr (raOf o)
def xb (o : Lim) (c : Core) : Word := c.gr (rbOf o)
def ya (o : Lim) (c : Core) : Nat := (c.fr (raOf o)).toNat
def yb (o : Lim) (c : Core) : Nat := (c.fr (rbOf o)).toNat
def yd (o : Lim) (c : Core) : Nat := (c.fr (rdOf o)).toNat

/-- 03_limath.md, *Integer arithmetic and logic*: the rows with further operands, and the constants. -/
def wideRows : List (RegRow Word) :=
  [⟨.bfi, fun _ => True, fun o => [kg (rdOf o), kg (raOf o)], 1, rdOf,
     fun o _ c => (insertBits (c.gr (rdOf o)) (xa o c) (uimm10 o % 32) (uimm10 o / 32 + 1), 0)⟩,
   ⟨.clamp, fun o => fnOf o = 0, fun o => [kg (rdOf o), kg (raOf o), kg (rbOf o)], 1, rdOf,
     fun o _ c => (wordI (min (max (c.gr (rdOf o)).toInt (xa o c).toInt) (xb o c).toInt), 0)⟩,
   ⟨.sel, fun o => fnOf o < 8, fun o => [kg (raOf o), kg (rbOf o), kp (fnOf o)], 1, rdOf,
     fun o _ c => (if c.pr (fnOf o) then xa o c else xb o c, 0)⟩,
   ⟨.movi, fun _ => True, fun _ => [], 1, rdOf, fun o _ _ => (wordI (imm15 o), 0)⟩,
   ⟨.ldc, fun o => idx15 o < 4096, fun _ => [], 2, rdOf, fun o _ c => (c.consts.get (idx15 o), 0)⟩]

/-- CMP's conditions, signed and unsigned. -/
def holds (fn : Nat) (a b : Word) : Bool :=
  match fn with
  | 0 => a == b
  | 1 => a != b
  | 2 => decide (a.toInt < b.toInt)
  | 3 => decide (a.toInt ≥ b.toInt)
  | 4 => decide (a.toNat < b.toNat)
  | 5 => decide (a.toNat ≥ b.toNat)
  | 6 => decide (a.toInt ≤ b.toInt)
  | 7 => decide (a.toInt > b.toInt)
  | 8 => decide (a.toNat ≤ b.toNat)
  | _ => decide (a.toNat > b.toNat)

/-- 03_limath.md, *Compare and predicate*; CTST reads descriptor flags as latched in Capture. -/
def predRows : List (RegRow Bool) :=
  [⟨.cmp, fun o => fnOf o ≤ 9 ∧ rdOf o < 8, fun o => [kg (raOf o), kg (rbOf o)], 1, rdOf,
     fun o _ c => (holds (fnOf o) (xa o c) (xb o c), 0)⟩,
   ⟨.cmpi, fun _ => True, fun o => [kg (raOf o)], 1, pdOf, fun o _ c => (holds (ccOf o) (xa o c) (wordI (imm10 o)), 0)⟩,
   ⟨.fcmp, fun o => fnOf o ≤ 6 ∧ rdOf o < 8 ∧ raOf o < 16 ∧ rbOf o < 16, fun o => [kf (raOf o), kf (rbOf o)], 1, rdOf,
     fun o _ c => (condF (fnOf o) (c.fr (raOf o)) (c.fr (rbOf o)), 0)⟩,
   ⟨.plog, fun o => fnOf o ≤ 4 ∧ rdOf o < 8 ∧ raOf o < 8 ∧ rbOf o < 8 ∧ (fnOf o = 4 → rbOf o = 0),
     fun o => [kp (raOf o), kp (rbOf o)], 1, rdOf,
     fun o _ c => (match fnOf o with
       | 0 => c.pr (raOf o) && c.pr (rbOf o)
       | 1 => c.pr (raOf o) || c.pr (rbOf o)
       | 2 => c.pr (raOf o) ^^ c.pr (rbOf o)
       | 3 => c.pr (raOf o) && !c.pr (rbOf o)
       | _ => !c.pr (raOf o), 0)⟩,
   ⟨.tst, fun o => ccOf o < 2, fun o => [kg (raOf o)], 1, pdOf,
     fun o _ c => (if ccOf o = 0 then xa o c &&& word (uimm10 o) != 0 else xa o c &&& word (uimm10 o) == 0, 0)⟩,
   ⟨.ctst, fun o => ccOf o < 2 ∧ lf o 14 6 = 0, fun _ => [], 1, pdOf,
     fun o s _ => (if ccOf o = 0 then (s.snap.core o.core).done.getLsbD (dIdx o) else (s.snap.core o.core).err.getLsbD (dIdx o),
       0)⟩]

/-- Signed halves of a word. -/
def lowHalf (w : Word) : Int := (w.setWidth 16 : BitVec 16).toInt
def highHalf (w : Word) : Int := ((w >>> 16).setWidth 16 : BitVec 16).toInt

/-- The product of a MAC: fn[0] unsigned, fn[1] subtracts. -/
def macTerm (o : Lim) (c : Core) : Int :=
  (if fnOf o < 2 then 1 else -1) * (numOf (fnOf o % 2) (xa o c) * numOf (fnOf o % 2) (xb o c))

/-- 03_limath.md, *Accumulators*: the rows that write one. -/
def accRows : List (RegRow DWord) :=
  [⟨.mac, fun o => fnOf o ≤ 3 ∧ rdOf o < 4, fun _ => [], 1, rdOf,
     fun o _ c => clampA ((c.ac (rdOf o)).toInt + macTerm o c)⟩,
   ⟨.mach, fun o => fnOf o = 0 ∧ rdOf o < 4, fun _ => [], 1, rdOf,
     fun o _ c => clampA ((c.ac (rdOf o)).toInt + lowHalf (xa o c) * lowHalf (xb o c) + highHalf (xa o c) * highHalf (xb o c))⟩,
   ⟨.aclr, fun o => rdOf o < 4 ∧ rbOf o = 0, fun _ => [], 1, rdOf,
     fun o _ c => (((xa o c).signExtend 64 : DWord) <<< fnOf o, 0)⟩,
   ⟨.aset, fun o => fnOf o = 0 ∧ rdOf o < 4, fun _ => [], 1, rdOf, fun o _ c => (xa o c ++ xb o c, 0)⟩,
   ⟨.aadd, fun o => fnOf o ≤ 1 ∧ rdOf o < 4 ∧ raOf o < 4 ∧ rbOf o = 0, fun _ => [], 1, rdOf,
     fun o _ c => clampA (if fnOf o = 0 then (c.ac (rdOf o)).toInt + (c.ac (raOf o)).toInt
       else (c.ac (rdOf o)).toInt - (c.ac (raOf o)).toInt)⟩,
   ⟨.ashl, fun o => rdOf o = 0 ∧ lf o 14 12 = 0 ∧ lf o 2 0 = 0, fun _ => [], 1, kOf,
     fun o _ c => if rndOf o = 1 then (BitVec.ofInt 64 ((c.ac (kOf o)).toInt / 2 ^ shOf o), 0)
       else clampA ((c.ac (kOf o)).toInt * 2 ^ shOf o)⟩]

/-- The rows that read an accumulator into a g register. -/
def accReadRows : List (RegRow Word) :=
  [⟨.aext, fun o => lf o 14 12 = 0 ∧ lf o 2 0 = 0, fun o => [ka (kOf o)], 1, rdOf,
     fun o _ c => clampS (((c.ac (kOf o)).toInt + (if shOf o = 0 then 0 else (rndOf o : Int) * 2 ^ (shOf o - 1))) / 2 ^ shOf o)⟩,
   ⟨.amov, fun o => fnOf o ≤ 1 ∧ raOf o < 4 ∧ rbOf o = 0, fun o => [ka (raOf o)], 1, rdOf,
     fun o _ c => (if fnOf o = 0 then (c.ac (raOf o)).extractLsb' 0 32 else (c.ac (raOf o)).extractLsb' 32 32, 0)⟩]

def F3 (o : Lim) : Prop := fnOf o = 0 ∧ rdOf o < 16 ∧ raOf o < 16 ∧ rbOf o < 16
def F2 (o : Lim) (m : Nat) : Prop := fnOf o ≤ m ∧ rdOf o < 16 ∧ raOf o < 16 ∧ rbOf o = 0
def res (r : FRes) : Word × Nat := (word r.w, r.cst)

/-- 03_limath.md, *Floating point*: the rows that write one f register, with R61 and R62. -/
def floatRows : List (RegRow Word) :=
  [⟨.fadd, F3, fun o => [kf (raOf o), kf (rbOf o)], 1, rdOf, fun o _ c => res (addF b32 (ya o c) (yb o c))⟩,
   ⟨.fsub, F3, fun o => [kf (raOf o), kf (rbOf o)], 1, rdOf, fun o _ c => res (subF b32 (ya o c) (yb o c))⟩,
   ⟨.fmul, F3, fun o => [kf (raOf o), kf (rbOf o)], 1, rdOf, fun o _ c => res (mulF b32 (ya o c) (yb o c))⟩,
   ⟨.fma, F3, fun o => [kf (rdOf o), kf (raOf o), kf (rbOf o)], 1, rdOf,
     fun o _ c => res (fmaF b32 (yd o c) (ya o c) (yb o c))⟩,
   ⟨.fdiv, F3, fun o => [kf (raOf o), kf (rbOf o)], 12, rdOf, fun o _ c => res (divF b32 (ya o c) (yb o c))⟩,
   ⟨.fsqrt, fun o => F2 o 0, fun o => [kf (raOf o)], 12, rdOf, fun o _ c => res (sqrtF b32 (ya o c))⟩,
   ⟨.fmin, F3, fun o => [kf (raOf o), kf (rbOf o)], 1, rdOf, fun o _ c => res (minF b32 (ya o c) (yb o c))⟩,
   ⟨.fmax, F3, fun o => [kf (raOf o), kf (rbOf o)], 1, rdOf, fun o _ c => res (maxF b32 (ya o c) (yb o c))⟩,
   ⟨.fabs, fun o => F2 o 1, fun o => [kf (raOf o)], 1, rdOf,
     fun o _ c => res (if fnOf o = 0 then absF b32 (ya o c) else negF b32 (ya o c))⟩,
   ⟨.fcvt, fun o => 2 ≤ fnOf o ∧ fnOf o ≤ 3 ∧ rdOf o < 16 ∧ rbOf o = 0, fun o => [kg (raOf o)], 1, rdOf,
     fun o _ c => res (ofIntF b32 (numOf (fnOf o - 2) (xa o c)))⟩,
   ⟨.fmov, fun o => fnOf o = 0 ∧ rdOf o < 16 ∧ raOf o < 16 ∧ rbOf o = 0, fun o => [kf (raOf o)], 1, rdOf,
     fun o _ c => (c.fr (raOf o), 0)⟩,
   ⟨.fmov, fun o => fnOf o = 1 ∧ rdOf o < 16 ∧ rbOf o = 0, fun o => [kg (raOf o)], 1, rdOf, fun o _ c => (xa o c, 0)⟩,
   ⟨.fclamp, F3, fun o => [kf (rdOf o), kf (raOf o), kf (rbOf o)], 1, rdOf,
     fun o _ c => res (minF b32 (maxF b32 (yd o c) (ya o c)).w (yb o c))⟩,
   ⟨.fldc, fun o => idx15 o < 4096 ∧ rdOf o < 16, fun _ => [], 2, rdOf, fun o _ c => (c.consts.get (idx15 o), 0)⟩,
   ⟨.frsq, fun o => F2 o 0, fun o => [kf (raOf o)], 6, rdOf, fun o _ c => res (rsqF (c.fr (raOf o)))⟩,
   ⟨.pin, fun o => fSel o = true ∧ rdOf o < 16, fun _ => [], 2, rdOf, fun o s _ => (pinValue s.snap (portOf o), 0)⟩]

/-- The rows that write a g register from an f register, a port or a special register. -/
def moveRows : List (RegRow Word) :=
  [⟨.fcvt, fun o => fnOf o = 0 ∧ raOf o < 16 ∧ rbOf o = 0, fun o => [kf (raOf o)], 1, rdOf,
     fun o _ c => (wordI (toIntF b32 (-0x80000000) 0x7FFFFFFF (ya o c)).1, (toIntF b32 (-0x80000000) 0x7FFFFFFF (ya o c)).2)⟩,
   ⟨.fcvt, fun o => fnOf o = 1 ∧ raOf o < 16 ∧ rbOf o = 0, fun o => [kf (raOf o)], 1, rdOf,
     fun o _ c => (wordI (toIntF b32 0 0xFFFFFFFF (ya o c)).1, (toIntF b32 0 0xFFFFFFFF (ya o c)).2)⟩,
   ⟨.fmov, fun o => fnOf o = 2 ∧ raOf o < 16 ∧ rbOf o = 0, fun o => [kf (raOf o)], 1, rdOf, fun o _ c => (c.fr (raOf o), 0)⟩,
   ⟨.pin, fun o => fSel o = false, fun _ => [], 2, rdOf, fun o s _ => (pinValue s.snap (portOf o), 0)⟩,
   ⟨.rds, fun o => idx15 o < 16384, fun _ => [], 1, rdOf, fun o s c => (specialReg s o.core c (idx15 o), 0)⟩,
   ⟨.pmov, fun o => fnOf o = 0 ∧ raOf o = 0 ∧ rbOf o = 0, fun _ => (List.range 8).map kp, 1, rdOf,
     fun _ _ c => (word (((List.range 8).map (fun i => if c.pr i then 2 ^ i else 0)).foldl (· + ·) 0), 0)⟩]

end Sys2Proof.Claims

open Sys2Proof Sys2Proof.Machine Sys2Proof.Claims in
/-- BFI, CLAMP, SEL, MOVI and LDC. -/
def Obligations.FieldAndConstantResults : Prop :=
GHold wideRows

open Sys2Proof Sys2Proof.Machine Sys2Proof.Claims in
/-- MAC, MACH, ACLR, ASET, AADD and ASHL write one accumulator, saturated to 64 bits; AEXT and AMOV read one. -/
def Obligations.AccumulatorResults : Prop :=
AHold accRows ∧ GHold accReadRows

open Sys2Proof Sys2Proof.Machine Sys2Proof.Claims in
/-- CMP, CMPI, FCMP, PLOG, TST and CTST write one predicate; PMOV with fn 1 writes p1 to p7.
FCVT to an integer, FMOV to g, PIN with F = 0, RDS and PMOV with fn 0 write one g register. -/
def Obligations.PredicateAndMoveResults : Prop :=
  (PHold predRows ∧
   ∀ (o : Sys2Proof.Lim) (s : State), Executes o s → fnOf o = 1 → rdOf o = 0 → rbOf o = 0 →
     ∃ c', exec (.pmov o) s = .next (withCore o s c') ∧
       (∀ i, i < 8 → c'.pr i = if i = 0 then true else (xa o (from_ o s)).getLsbD i) ∧
       c'.cst = (from_ o s).cst ∧ c'.g = (from_ o s).g ∧ c'.f = (from_ o s).f ∧ c'.a = (from_ o s).a ∧
       Untouched (from_ o s) c' ∧ Retires (from_ o s) c' [kg (raOf o)] 1) ∧
  (GHold moveRows)

open Sys2Proof Sys2Proof.Machine Sys2Proof.Claims in
/-- FADD, FSUB, FMUL, FMA, FDIV, FSQRT, FMIN, FMAX, FABS, FCVT, FMOV, FCLAMP, FLDC, FRSQ and PIN with F = 1 write one f
register.
FSC writes the sine to f[rd] and the cosine to f[rd + 1], rd even. -/
def Obligations.FloatResults : Prop :=
  (FHold floatRows) ∧
  (∀ (o : Sys2Proof.Lim) (s : State), Executes o s → fnOf o = 0 → rbOf o = 0 → rdOf o < 16 → rdOf o % 2 = 0 →
     ∃ c', exec (.fsc o) s = .next (withCore o s c') ∧
       (∀ i, i < 16 → c'.fr i = if i = rdOf o then sinW (xa o (from_ o s)) else if i = rdOf o + 1 then cosW (xa o (from_ o s))
         else (from_ o s).fr i) ∧
       c'.cst = (from_ o s).cst ∧ c'.g = (from_ o s).g ∧ c'.a = (from_ o s).a ∧ c'.p = (from_ o s).p ∧
       Untouched (from_ o s) c' ∧ Retires (from_ o s) c' [kg (raOf o)] 4)

namespace Sys2Proof.Claims
open Sys2Proof
open Sys2Proof.Machine

/-- The effective address ra + imm10 × n, and the same rounded down to a multiple of n (R63). -/
def ea (o : Lim) (c : Core) (n : Nat) : Nat := (((c.gr (raOf o)).toNat + imm10 o * n : Int) % 0x100000000).toNat
def eaDown (o : Lim) (c : Core) (n : Nat) : Nat := ea o c n / n * n

/-- A corrected data error of a memory of the core sets CST.CEC and raises event 22 as a Note. -/
def noted (o : Lim) (memory : Nat) (d : Dev) : Dev := if o.data = .corrected then limCec o.core memory d else d

/-- A load: its constructor, its size and the register value. -/
structure LoadRow where
  instr : Lim → Instr
  n     : Nat
  val   : Nat → Word

/-- 03_limath.md, *Local data memory*: loads of one g register. -/
def loadRows : List LoadRow :=
  [⟨.ldw, 4, fun v => word v⟩, ⟨.ldh, 2, fun v => (BitVec.ofNat 16 v).signExtend 32⟩, ⟨.ldhu, 2, fun v => word v⟩,
   ⟨.ldb, 1, fun v => (BitVec.ofNat 8 v).signExtend 32⟩, ⟨.ldbu, 1, fun v => word v⟩]

/-- The number of n bytes at the address of a load, in local data memory and in tick SRAM as committed. -/
def localAt (o : Lim) (s : State) (n : Nat) : Nat := leNat ((from_ o s).dmem.bytes (eaDown o (from_ o s) n) n)
def sramAt (o : Lim) (s : State) (n : Nat) : Nat := leNat (s.dev.sram.bytes (eaDown o (from_ o s) n) n)

/-- Two g registers of a pair, rd even. -/
def WritesPair (c c' : Core) (rd v : Nat) : Prop :=
  (∀ i, i < 32 → c'.gr i = if i = 0 then 0 else if i = rd then word v else if i = rd + 1 then word (v / 0x100000000)
    else c.gr i) ∧ c'.cst = c.cst ∧ c'.f = c.f ∧ c'.a = c.a ∧ c'.p = c.p ∧ Untouched c c'

/-- A store: its constructor, when it is listed, its size and the number stored. -/
structure StoreRow where
  instr : Lim → Instr
  ok    : Lim → Prop
  n     : Nat
  val   : Lim → Core → Nat

def pairOf (o : Lim) (c : Core) : Nat := (c.gr (rdOf o)).toNat + 0x100000000 * (c.gr (rdOf o + 1)).toNat

def storeRows : List StoreRow :=
  [⟨.stw, fun _ => True, 4, fun o c => (c.gr (rdOf o)).toNat⟩, ⟨.sth, fun _ => True, 2, fun o c => (c.gr (rdOf o)).toNat⟩,
   ⟨.stb, fun _ => True, 1, fun o c => (c.gr (rdOf o)).toNat⟩, ⟨.std, fun o => rdOf o % 2 = 0, 8, pairOf⟩,
   ⟨.fst, fun o => rdOf o < 16, 4, fun o c => (c.fr (rdOf o)).toNat⟩]

def sramStoreRows : List StoreRow :=
  [⟨.stsw, fun _ => True, 4, fun o c => (c.gr (rdOf o)).toNat⟩, ⟨.stsd, fun o => rdOf o % 2 = 0, 8, pairOf⟩,
   ⟨.fsts, fun o => rdOf o < 16, 4, fun o c => (c.fr (rdOf o)).toNat⟩]

/-- Every register file and CST stand. -/
def SameRegs (c c' : Core) : Prop := c'.g = c.g ∧ c'.f = c.f ∧ c'.a = c.a ∧ c'.p = c.p ∧ c'.cst = c.cst

/-- The rest of the core beside registers and data memory. -/
def SameRest (c c' : Core) : Prop :=
  c'.stack = c.stack ∧ c'.lc = c.lc ∧ c'.body = c.body ∧ c'.run = c.run ∧ c'.cask = c.cask ∧ c'.bad = c.bad ∧
  c'.imem = c.imem ∧ c'.consts = c.consts ∧ c'.busy = c.busy ∧ c'.done = c.done ∧ c'.err = c.err

/-- A tick SRAM load of data with a corrected error: CST.CEC, and event 224 as a Note with the address. -/
def sramNoted (o : Lim) (a : Nat) (d : Dev) : Dev :=
  if o.data = .corrected then fault 224 .note (word a) (d.setCore o.core ((d.core o.core).sticky 128)) else d

/-- PC goes on, in at least one cycle and at most 8 beyond the stall: a load may win arbitration early (R57). -/
def RetiresEarly (o : Lim) (c c' : Core) : Prop :=
  c'.pc = c.pc + 1 ∧ c.cyc + stallOf c [kg (raOf o)] + 1 ≤ c'.cyc ∧ c'.cyc ≤ c.cyc + stallOf c [kg (raOf o)] + 8

/-- The device after a load from tick SRAM, which has used one free value (assumption 25). -/
def afterSram (o : Lim) (s : State) (n : Nat) (c' : Core) : State :=
  { s with dev := sramNoted o (eaDown o (from_ o s) n) ((fetched o s).tickFree.setCore o.core c') }

end Sys2Proof.Claims

open Sys2Proof Sys2Proof.Machine Sys2Proof.Claims in
/-- LDW, LDH, LDHU, LDB, LDBU, LDD and FLD read the bytes at their rounded address and leave the memory.
LDSW, LDSD and FLDS read tick SRAM as committed, whatever the running tick has staged. -/
def Obligations.Loads : Prop :=
  ((∀ r ∈ loadRows, ∀ (o : Sys2Proof.Lim) (s : State), Executes o s → ea o (from_ o s) r.n < 0x20000 → o.data ≠ .uncorrectable →
     ∃ c', exec (r.instr o) s = .next { s with dev := noted o 1 ((fetched o s).setCore o.core c') } ∧
       OnlyG (from_ o s) c' (rdOf o) (r.val (localAt o s r.n)) 0 ∧ Retires (from_ o s) c' [kg (raOf o)] 2) ∧
   (∀ (o : Sys2Proof.Lim) (s : State), Executes o s → ea o (from_ o s) 8 < 0x20000 → o.data ≠ .uncorrectable → rdOf o % 2 = 0 →
     ∃ c', exec (.ldd o) s = .next { s with dev := noted o 1 ((fetched o s).setCore o.core c') } ∧
       WritesPair (from_ o s) c' (rdOf o) (localAt o s 8) ∧ Retires (from_ o s) c' [kg (raOf o)] 2) ∧
   (∀ (o : Sys2Proof.Lim) (s : State), Executes o s → ea o (from_ o s) 4 < 0x20000 → o.data ≠ .uncorrectable → rdOf o < 16 →
     ∃ c', exec (.fld o) s = .next { s with dev := noted o 1 ((fetched o s).setCore o.core c') } ∧
       OnlyF (from_ o s) c' (rdOf o) (word (localAt o s 4)) 0 ∧ Retires (from_ o s) c' [kg (raOf o)] 2)) ∧
  ((∀ (o : Sys2Proof.Lim) (s : State), Executes o s → ea o (from_ o s) 4 < 0x400000 → o.data ≠ .uncorrectable →
     ∃ c', exec (.ldsw o) s = .next (afterSram o s 4 c') ∧ OnlyG (from_ o s) c' (rdOf o) (word (sramAt o s 4)) 0 ∧
       RetiresEarly o (from_ o s) c') ∧
   (∀ (o : Sys2Proof.Lim) (s : State), Executes o s → ea o (from_ o s) 8 < 0x400000 → o.data ≠ .uncorrectable → rdOf o % 2 = 0 →
     ∃ c', exec (.ldsd o) s = .next (afterSram o s 8 c') ∧ WritesPair (from_ o s) c' (rdOf o) (sramAt o s 8) ∧
       RetiresEarly o (from_ o s) c') ∧
   (∀ (o : Sys2Proof.Lim) (s : State), Executes o s → ea o (from_ o s) 4 < 0x400000 → o.data ≠ .uncorrectable → rdOf o < 16 →
     ∃ c', exec (.flds o) s = .next (afterSram o s 4 c') ∧ OnlyF (from_ o s) c' (rdOf o) (word (sramAt o s 4)) 0 ∧
       RetiresEarly o (from_ o s) c'))

open Sys2Proof Sys2Proof.Machine Sys2Proof.Claims in
/-- STW, STH, STB, STD and FST write the bytes at their rounded address; every other byte of local data memory, every register
and the rest of the machine stand.
STSW, STSD and FSTS stage their bytes; tick SRAM stands. The 8,193rd distinct line of a tick is a Slip fault (R35). -/
def Obligations.Stores : Prop :=
  (∀ r ∈ storeRows, ∀ (o : Sys2Proof.Lim) (s : State), Executes o s → r.ok o → ea o (from_ o s) r.n < 0x20000 →
     ∃ c', exec (r.instr o) s = .next (withCore o s c') ∧
       (∀ x, c'.dmem.byte x = if eaDown o (from_ o s) r.n ≤ x ∧ x < eaDown o (from_ o s) r.n + r.n
         then BitVec.ofNat 8 (r.val o (from_ o s) / 256 ^ (x - eaDown o (from_ o s) r.n)) else (from_ o s).dmem.byte x) ∧
       SameRegs (from_ o s) c' ∧ SameRest (from_ o s) c' ∧ c'.pc = (from_ o s).pc + 1) ∧
  (∀ r ∈ sramStoreRows, ∀ (o : Sys2Proof.Lim) (s : State), Executes o s → r.ok o → ea o (from_ o s) r.n < 0x400000 →
     ∃ c' d, d = stage o.core (.sram (eaDown o (from_ o s) r.n) r.n (r.val o (from_ o s)))
         ((fetched o s).setCore o.core c') ∧ d.sram = s.dev.sram ∧
       exec (r.instr o) s = .next { s with dev :=
         if 8192 < (stagedLines d).length then fault 5 .slip (word (stagedLines d).length) d else d } ∧
       SameRegs (from_ o s) c' ∧ SameRest (from_ o s) c' ∧ c'.dmem = (from_ o s).dmem ∧ c'.pc = (from_ o s).pc + 1)

open Sys2Proof Sys2Proof.Machine Sys2Proof.Claims in
/-- A load or store beyond its memory raises ADDR (code 4) and makes no access (R64). -/
def Obligations.AddressBound : Prop :=
∀ (o : Sys2Proof.Lim) (s : State), Executes o s →
    (∀ r ∈ loadRows, 0x20000 ≤ ea o (from_ o s) r.n → exec (r.instr o) s = .next { s with dev := limExc o.core 4 (fetched o s) }) ∧
    (∀ r ∈ storeRows, r.ok o → 0x20000 ≤ ea o (from_ o s) r.n →
      exec (r.instr o) s = .next { s with dev := limExc o.core 4 (fetched o s) }) ∧
    (∀ r ∈ sramStoreRows, r.ok o → 0x400000 ≤ ea o (from_ o s) r.n →
      exec (r.instr o) s = .next { s with dev := limExc o.core 4 (fetched o s) }) ∧
    (0x20000 ≤ ea o (from_ o s) 8 → rdOf o % 2 = 0 → exec (.ldd o) s = .next { s with dev := limExc o.core 4 (fetched o s) }) ∧
    (0x20000 ≤ ea o (from_ o s) 4 → rdOf o < 16 → exec (.fld o) s = .next { s with dev := limExc o.core 4 (fetched o s) }) ∧
    (0x400000 ≤ ea o (from_ o s) 4 → exec (.ldsw o) s = .next { s with dev := limExc o.core 4 (fetched o s) }) ∧
    (0x400000 ≤ ea o (from_ o s) 8 → rdOf o % 2 = 0 → exec (.ldsd o) s = .next { s with dev := limExc o.core 4 (fetched o s) }) ∧
    (0x400000 ≤ ea o (from_ o s) 4 → rdOf o < 16 → exec (.flds o) s = .next { s with dev := limExc o.core 4 (fetched o s) })

namespace Sys2Proof.Claims
open Sys2Proof
open Sys2Proof.Machine

/-- The machine when the core has gone on and a device change follows. -/
def coreThen (o : Lim) (s : State) (c : Core) (f : Dev → Dev) : State := { s with dev := f ((fetched o s).setCore o.core c) }

/-- Only PC, the cycle count and what the scoreboard holds have changed. -/
def OnlyOn (c c' : Core) : Prop := SameRegs c c' ∧ SameRest c c' ∧ c'.dmem = c.dmem ∧ c'.pc = c.pc + 1

/-- The loop level of an instruction as an index. -/
def lvl (o : Lim) : Fin 4 := Fin.ofNat 4 (lvlOf o)

/-- As `OnlyOn`, but PC, the return stack or the loop state may change too. -/
def OnlyFlow (c c' : Core) : Prop :=
  SameRegs c c' ∧ c'.run = c.run ∧ c'.cask = c.cask ∧ c'.bad = c.bad ∧ c'.imem = c.imem ∧ c'.consts = c.consts ∧
  c'.dmem = c.dmem ∧ c'.busy = c.busy ∧ c'.done = c.done ∧ c'.err = c.err

/-- The word address after the first ENDL of a level above PC (R54). -/
def afterEndl (c : Core) (l : Nat) : Option (BitVec 14) :=
  (((List.range 16384).filter (fun a => decide (c.pc.toNat < a) && isEndl (c.imem.get a) l)).head?).map
    (fun a => BitVec.ofNat 14 (a + 1))

end Sys2Proof.Claims

open Sys2Proof Sys2Proof.Machine Sys2Proof.Claims in
/-- JMP, CALL, RET, LOOP, LOOPR, ENDL and BTAB set PC, the return stack and the loop state as their rows say; nothing else
changes. A predicated-off LOOP or LOOPR goes on after its matching ENDL, or raises LPX (R54).
TEND ends a tick program: the core idles until the next Compute, and with no cask open TCK_PEAKk holds its largest cycle
count (R73). TEND of the fault program starts the core's tick program, or idles where it has none (R351). -/
def Obligations.ControlFlow : Prop :=
  (∀ (o : Sys2Proof.Lim) (s : State), Executes o s →
     (lf o 19 14 = 0 → ∃ c', exec (.jmp o) s = .next (withCore o s c') ∧ OnlyFlow (from_ o s) c' ∧ c'.pc = targetOf o ∧
       c'.stack = (from_ o s).stack ∧ c'.lc = (from_ o s).lc) ∧
     (lf o 19 14 = 0 → (from_ o s).stack.length < 8 → ∃ c', exec (.call o) s = .next (withCore o s c') ∧
       OnlyFlow (from_ o s) c' ∧ c'.pc = targetOf o ∧ c'.stack = ((from_ o s).pc + 1) :: (from_ o s).stack) ∧
     (∀ a t, lf o 19 14 = 0 → lf o 13 0 = 0 → (from_ o s).stack = a :: t → ∃ c', exec (.ret o) s = .next (withCore o s c') ∧
       OnlyFlow (from_ o s) c' ∧ c'.pc = a ∧ c'.stack = t) ∧
     (lf o 17 16 = 0 → countOf o ≠ 0 → ∃ c', exec (.loop o) s = .next (withCore o s c') ∧ OnlyFlow (from_ o s) c' ∧
       c'.pc = (from_ o s).pc + 1 ∧ c'.lc[lvl o] = BitVec.ofNat 16 (countOf o) ∧ c'.body[lvl o] = some ((from_ o s).pc + 1)) ∧
     (boundOf o ≠ 0 → 0 < ((from_ o s).gr (lraOf o)).toInt → ∃ c', exec (.loopr o) s = .next (withCore o s c') ∧
       c'.pc = (from_ o s).pc + 1 ∧ c'.lc[lvl o] = BitVec.ofNat 16 (min ((from_ o s).gr (lraOf o)).toInt.toNat (boundOf o)) ∧
       c'.body[lvl o] = some ((from_ o s).pc + 1) ∧
       c'.cst = (from_ o s).cst ||| (if boundOf o < ((from_ o s).gr (lraOf o)).toInt then 32 else 0)) ∧
     (∀ a, boundOf o ≠ 0 → ((from_ o s).gr (lraOf o)).toInt ≤ 0 → afterEndl (from_ o s) (lvlOf o) = some a →
       ∃ c', exec (.loopr o) s = .next (withCore o s c') ∧ OnlyFlow (from_ o s) c' ∧ c'.pc = a ∧ c'.lc = (from_ o s).lc) ∧
     (∀ a, lf o 17 16 = 0 → countOf o = 0 → (from_ o s).body[lvl o] = some a → ∃ c', exec (.endl o) s = .next (withCore o s c') ∧
       OnlyFlow (from_ o s) c' ∧ c'.lc[lvl o] = (from_ o s).lc[lvl o] - 1 ∧
       c'.pc = if (from_ o s).lc[lvl o] = 1 then (from_ o s).pc + 1 else a) ∧
     (rdOf o = 0 → rbOf o = 0 → ∃ c', exec (.btab o) s = .next (withCore o s c') ∧ OnlyFlow (from_ o s) c' ∧
       c'.pc = (from_ o s).pc + BitVec.ofInt 14 (if 0 ≤ ((from_ o s).gr (raOf o)).toInt ∧ ((from_ o s).gr (raOf o)).toInt < fnOf o + 1
         then 1 + ((from_ o s).gr (raOf o)).toInt else 2 + fnOf o))) ∧
  (∀ (o : Lim) (s : State), Executes o s → lf o 19 14 = 0 → lf o 13 0 = 0 →
     ((from_ o s).run = .tick → ∃ t, exec (.tend o) s = .next t ∧ (t.dev.core o.core).run = .ended ∧
       SameRegs (from_ o s) (t.dev.core o.core) ∧ (t.dev.core o.core).cask = none ∧
       (∀ m, m ≠ o.core → t.dev.core m = (fetched o s).core m) ∧
       ((from_ o s).cask = none → (from_ o s).cyc + 1 < 0x100000000 → t.dev.tick = (fetched o s).tick ∧
         (t.dev.reg (TCK_PEAK o.core)).toNat = max ((fetched o s).reg (TCK_PEAK o.core)).toNat ((from_ o s).cyc + 1))) ∧
     (∀ e, (from_ o s).run = .fault → (from_ o s).cask = none → tickEntry s.dev o.core = some e →
       ∃ t, exec (.tend o) s = .next t ∧ (t.dev.core o.core).run = .tick ∧ (t.dev.core o.core).pc = BitVec.ofNat 14 e ∧
         (t.dev.core o.core).stack = [] ∧ SameRegs (from_ o s) (t.dev.core o.core)))

namespace Sys2Proof.Claims
open Sys2Proof
open Sys2Proof.Machine

/-- The Cellar word that CLD reads below byte 0x8_1000, with the free value of the journal region (R332). -/
def cellarWord (d : Dev) (a : Nat) : Word := word (leNat ((List.range 4).map (fun i => celByte d (a + i))))

/-- The core after a Cellar instruction: only its cask state, PC and cycle count have changed. -/
def OnlyCask (c c' : Core) (cost : Nat) : Prop :=
  SameRegs c c' ∧ c'.dmem = c.dmem ∧ c'.pc = c.pc + 1 ∧ c'.run = c.run ∧ c'.stack = c.stack ∧ c'.lc = c.lc ∧
  c.cyc + cost ≤ c'.cyc

end Sys2Proof.Claims

open Sys2Proof Sys2Proof.Machine Sys2Proof.Claims in
/-- NOP only goes on; MBW stages a mailbox write, POUT a port write, EVS a software event, CART an issue; MBR and MBS read the
core's own mailbox as committed; WRS clears CST bits.
CART stages the issue of a free descriptor and makes it busy; on a busy one it is ignored and sets CST.CBSY (R67).
CLD reads the Cellar as committed, or Cellar status as latched in Capture; CKB opens a cask, CKW adds an entry to it and
CKC closes it for commit, which stages it. -/
def Obligations.PortsCartsAndCasks : Prop :=
  (∀ (o : Sys2Proof.Lim) (s : State), Executes o s →
     (o.w = 0 → ∃ c', exec (.nop o) s = .next (withCore o s c') ∧ OnlyOn (from_ o s) c' ∧ c'.cyc = (from_ o s).cyc + 1) ∧
     (coreOf o < 6 → lf o 5 0 = 0 → ∃ c', exec (.mbw o) s = .next (coreThen o s c'
       (stage o.core (.mbox (coreOf o) (boxOf o) ((from_ o s).gr (rdOf o))))) ∧ OnlyOn (from_ o s) c') ∧
     (coreOf o = 0 → lf o 5 0 = 0 → o.data ≠ .uncorrectable →
       (∃ c', exec (.mbr o) s = .next { s with dev := noted o 2 ((fetched o s).setCore o.core c') } ∧
         OnlyG (from_ o s) c' (rdOf o) ((fetched o s).reg (LIM_MB o.core (boxOf o))) 0 ∧ c'.cyc = (from_ o s).cyc + 4) ∧
       ∃ c', exec (.mbs o) s = .next { s with dev := noted o 2 ((fetched o s).setCore o.core c') } ∧
         OnlyG (from_ o s) c' (rdOf o) ((fetched o s).reg (LIM_MBC o.core (boxOf o))) 0 ∧ c'.cyc = (from_ o s).cyc + 4) ∧
     ((fSel o = true → rdOf o < 16) → ∃ c', exec (.pout o) s = .next (coreThen o s c' (fun d =>
         if portOut (portOf o) then stage o.core
           (.port (portOf o) (if fSel o then (from_ o s).fr (rdOf o) else (from_ o s).gr (rdOf o))) d else d)) ∧
       OnlyOn (from_ o s) c') ∧
     (rdOf o = 0 → idx15 o < 8 → ∃ c', exec (.evs o) s = .next (coreThen o s c'
       (stage o.core (.softEv (2 ^ idx15 o)))) ∧ OnlyOn (from_ o s) c') ∧
     (idx15 o = 8 → ∃ c', exec (.wrs o) s = .next (withCore o s c') ∧
       c'.cst = (from_ o s).cst &&& ~~~ (from_ o s).gr (rdOf o) ∧ c'.g = (from_ o s).g ∧ c'.f = (from_ o s).f ∧
       c'.a = (from_ o s).a ∧ c'.p = (from_ o s).p ∧ Untouched (from_ o s) c' ∧ Retires (from_ o s) c' [kg (rdOf o)] 1)) ∧
  (∀ (o : Sys2Proof.Lim) (s : State), Executes o s → lf o 19 6 = 0 →
     ((from_ o s).busy.getLsbD (dIdx o) = false → ∃ c', exec (.cart o) s = .next (coreThen o s c'
         (stage o.core (.cart o.core (dIdx o)))) ∧ SameRegs (from_ o s) c' ∧ c'.dmem = (from_ o s).dmem ∧
       (∀ i, i < 64 → c'.busy.getLsbD i = (decide (i = dIdx o) || (from_ o s).busy.getLsbD i)) ∧ c'.done = (from_ o s).done) ∧
     ((from_ o s).busy.getLsbD (dIdx o) = true → ∃ c', exec (.cart o) s = .next (withCore o s c') ∧
       c'.cst = (from_ o s).cst ||| 64 ∧ c'.busy = (from_ o s).busy ∧ c'.g = (from_ o s).g ∧ Untouched (from_ o s) c')) ∧
  (∀ (o : Lim) (s : State), Executes o s →
     (eaDown o (from_ o s) 4 < 0x7C000 → o.data = .ok → ∃ c', exec (.cld o) s = .next (withCore o s c') ∧
       OnlyG (from_ o s) c' (rdOf o) (s.dev.cel.array.word (eaDown o (from_ o s) 4)) 0 ∧
       Retires (from_ o s) c' [kg (raOf o)] 6) ∧
     (∀ j, j < 6 → eaDown o (from_ o s) 4 = 0x81000 + 4 * j → ∃ c', exec (.cld o) s = .next (withCore o s c') ∧
       OnlyG (from_ o s) c' (rdOf o) (s.snap.reg (CEL_CKSTAT j)) 0 ∧ Retires (from_ o s) c' [kg (raOf o)] 6) ∧
     (rdOf o = 0 → idx15 o < 256 → (from_ o s).cask = none → ∃ t, exec (.ckb o) s = .next t ∧
       (t.dev.core o.core).cask = some ⟨BitVec.ofNat 8 (idx15 o), []⟩ ∧ t.dev.cel.used = (fetched o s).cel.used + 2 ∧
       t.dev.cel.array = (fetched o s).cel.array ∧ OnlyCask (from_ o s) (t.dev.core o.core) 2) ∧
     (∀ k, rdOf o = 0 → fnOf o = 0 → (from_ o s).cask = some k → ∃ t, exec (.ckw o) s = .next t ∧
       (t.dev.core o.core).cask =
         some ⟨k.tag, k.entries ++ [(((from_ o s).gr (rbOf o)).toNat / 4 * 4, (from_ o s).gr (raOf o))]⟩ ∧
       t.dev.cel.used = (fetched o s).cel.used + 1 ∧ t.dev.cel.array = (fetched o s).cel.array ∧
       OnlyCask (from_ o s) (t.dev.core o.core) 4) ∧
     (∀ k, o.w = 0 → (from_ o s).cask = some k → (from_ o s).bad = 0 → ∃ t, exec (.ckc o) s = .next t ∧
       (t.dev.core o.core).cask = none ∧ t.dev.tick = (stage o.core (.cask o.core k) ((fetched o s).setCore o.core (t.dev.core o.core))).tick ∧
       t.dev.cel = (fetched o s).cel ∧ OnlyCask (from_ o s) (t.dev.core o.core) 2))

namespace Sys2Proof.Claims
open Sys2Proof
open Sys2Proof.Machine

/-- The integer instructions with the condition under which their fields are a listed encoding (R55). -/
def rowsInt : List ((Lim → Instr) × (Lim → Prop)) :=
  [(.nop, fun o => o.w = 0), (.add, fun o => fnOf o = 0), (.addi, fun _ => True), (.sub, fun o => fnOf o = 0),
   (.adds, fun o => fnOf o ≤ 1), (.subs, fun o => fnOf o ≤ 1), (.mul, fun o => fnOf o = 0), (.mulh, fun o => fnOf o ≤ 1),
   (.div, fun o => fnOf o ≤ 1), (.rem, fun o => fnOf o ≤ 1), (.and, fun o => fnOf o = 0), (.or, fun o => fnOf o = 0),
   (.xor, fun o => fnOf o = 0), (.andi, fun _ => True), (.ori, fun _ => True), (.xori, fun _ => True),
   (.shl, fun o => fnOf o = 0), (.shr, fun o => fnOf o = 0), (.sar, fun o => fnOf o = 0),
   (.shi, fun o => uimm10 o / 128 = 0), (.rot, fun o => fnOf o = 0), (.min, fun o => fnOf o ≤ 1),
   (.max, fun o => fnOf o ≤ 1), (.abs, fun o => rbOf o = 0 ∧ fnOf o = 0), (.clz, fun o => rbOf o = 0 ∧ fnOf o = 0),
   (.popc, fun o => rbOf o = 0 ∧ fnOf o = 0), (.bfx, fun _ => True), (.bfi, fun _ => True), (.clamp, fun o => fnOf o = 0),
   (.sel, fun o => fnOf o < 8), (.movi, fun _ => True), (.ldc, fun o => idx15 o < 4096)]

/-- The predicate and accumulator instructions with the condition under which their fields are a listed encoding (R55). -/
def rowsPred : List ((Lim → Instr) × (Lim → Prop)) :=
  [(.cmp, fun o => fnOf o ≤ 9 ∧ rdOf o < 8), (.cmpi, fun _ => True),
   (.fcmp, fun o => fnOf o ≤ 6 ∧ rdOf o < 8 ∧ raOf o < 16 ∧ rbOf o < 16),
   (.plog, fun o => fnOf o ≤ 4 ∧ rdOf o < 8 ∧ raOf o < 8 ∧ rbOf o < 8 ∧ (fnOf o = 4 → rbOf o = 0)),
   (.pmov, fun o => rbOf o = 0 ∧ (fnOf o = 0 ∧ raOf o = 0 ∨ fnOf o = 1 ∧ rdOf o = 0)), (.tst, fun o => ccOf o < 2),
   (.mac, fun o => fnOf o ≤ 3 ∧ rdOf o < 4), (.mach, fun o => fnOf o = 0 ∧ rdOf o < 4),
   (.aclr, fun o => rdOf o < 4 ∧ rbOf o = 0), (.aset, fun o => fnOf o = 0 ∧ rdOf o < 4),
   (.aext, fun o => lf o 14 12 = 0 ∧ lf o 2 0 = 0),
   (.aadd, fun o => fnOf o ≤ 1 ∧ rdOf o < 4 ∧ raOf o < 4 ∧ rbOf o = 0),
   (.ashl, fun o => rdOf o = 0 ∧ lf o 14 12 = 0 ∧ lf o 2 0 = 0), (.amov, fun o => fnOf o ≤ 1 ∧ raOf o < 4 ∧ rbOf o = 0)]

/-- The floating-point instructions with the condition under which their fields are a listed encoding (R55). -/
def rowsFloat : List ((Lim → Instr) × (Lim → Prop)) :=
  [(.fadd, F3), (.fsub, F3), (.fmul, F3), (.fma, F3), (.fdiv, F3), (.fsqrt, fun o => F2 o 0), (.fmin, F3), (.fmax, F3),
   (.fabs, fun o => F2 o 1),
   (.fcvt, fun o => rbOf o = 0 ∧ (fnOf o ≤ 1 ∧ raOf o < 16 ∨ 2 ≤ fnOf o ∧ fnOf o ≤ 3 ∧ rdOf o < 16)),
   (.fmov, fun o => rbOf o = 0 ∧ (fnOf o = 0 ∧ rdOf o < 16 ∧ raOf o < 16 ∨ fnOf o = 1 ∧ rdOf o < 16 ∨ fnOf o = 2 ∧ raOf o < 16)),
   (.fclamp, F3), (.fldc, fun o => idx15 o < 4096 ∧ rdOf o < 16), (.frsq, fun o => F2 o 0),
   (.fsc, fun o => fnOf o = 0 ∧ rbOf o = 0 ∧ rdOf o < 16 ∧ rdOf o % 2 = 0)]

/-- The load and store instructions with the condition under which their fields are a listed encoding (R55). -/
def rowsMem : List ((Lim → Instr) × (Lim → Prop)) :=
  [(.ldw, fun _ => True), (.ldh, fun _ => True), (.ldhu, fun _ => True), (.ldb, fun _ => True), (.ldbu, fun _ => True),
   (.ldd, fun o => rdOf o % 2 = 0), (.stw, fun _ => True), (.sth, fun _ => True), (.stb, fun _ => True),
   (.std, fun o => rdOf o % 2 = 0), (.fld, fun o => rdOf o < 16), (.fst, fun o => rdOf o < 16), (.ldsw, fun _ => True),
   (.ldsd, fun o => rdOf o % 2 = 0), (.stsw, fun _ => True), (.stsd, fun o => rdOf o % 2 = 0), (.flds, fun o => rdOf o < 16),
   (.fsts, fun o => rdOf o < 16)]

/-- The port, mailbox, cart, cask, flow and system instructions with the condition under which their fields are a listed encoding (R55). -/
def rowsSys : List ((Lim → Instr) × (Lim → Prop)) :=
  [(.pin, fun o => fSel o = true → rdOf o < 16), (.pout, fun o => fSel o = true → rdOf o < 16),
   (.mbw, fun o => coreOf o < 6 ∧ lf o 5 0 = 0), (.mbr, fun o => coreOf o = 0 ∧ lf o 5 0 = 0),
   (.mbs, fun o => coreOf o = 0 ∧ lf o 5 0 = 0), (.cart, fun o => lf o 19 6 = 0),
   (.ctst, fun o => ccOf o < 2 ∧ lf o 14 6 = 0), (.treeRun, fun o => rdOf o = 0), (.cld, fun _ => True),
   (.ckb, fun o => rdOf o = 0 ∧ idx15 o < 256), (.ckw, fun o => rdOf o = 0 ∧ fnOf o = 0), (.ckc, fun o => o.w = 0),
   (.jmp, fun o => lf o 19 14 = 0), (.call, fun o => lf o 19 14 = 0), (.ret, fun o => lf o 19 14 = 0 ∧ lf o 13 0 = 0),
   (.endl, fun o => lf o 17 16 = 0 ∧ countOf o = 0), (.btab, fun o => rdOf o = 0 ∧ rbOf o = 0),
   (.tend, fun o => lf o 19 14 = 0 ∧ lf o 13 0 = 0), (.rds, fun o => idx15 o < 16384), (.wrs, fun o => idx15 o = 8),
   (.evs, fun o => rdOf o = 0 ∧ idx15 o < 8)]

/-- Every Limath instruction with the condition under which its fields are a listed encoding (R55). -/
def limRows : List ((Lim → Instr) × (Lim → Prop)) :=
  rowsInt ++ rowsPred ++ rowsFloat ++ rowsMem ++ rowsSys

/-- LOOP and LOOPR, which act when they are predicated off. -/
def loopRows : List ((Lim → Instr) × (Lim → Prop)) :=
  [(.loop, fun o => lf o 17 16 = 0 ∧ countOf o ≠ 0), (.loopr, fun o => boundOf o ≠ 0)]

end Sys2Proof.Claims

open Sys2Proof Sys2Proof.Machine Sys2Proof.Claims in
/-- A predicated-off instruction retires in 1 cycle with no effect on any state and no stall; a predicated-off LOOP or LOOPR
goes on after its matching ENDL, in 1 cycle, or raises LPX where there is none (R53, R54).
An encoding that is not listed, PI = 1 with PN = 0 among them, raises ILL (code 5); an uncorrectable fetch error raises IECC
(code 1), which comes before it (R53, R55, R74).
An exception stops its core, with no register changed, and leaves its code in LIMk_EXC and its PC in LIMk_EXCPC; codes 1 to 4
abandon the tick as a Slip fault, 5 to 7 do so as a Hold fault (R348). -/
def Obligations.ExceptionsAndNonExecution : Prop :=
  (∀ (o : Lim) (s : State), Issued o s → (from_ o s).pr o.pn.toNat = o.inv →
     (∀ r ∈ limRows, r.2 o → exec (r.1 o) s =
       .next (withCore o s { from_ o s with cyc := (from_ o s).cyc + 1, lastMac := none, pc := (from_ o s).pc + 1 })) ∧
     (∀ r ∈ loopRows, r.2 o →
       (∀ a, afterEndl (from_ o s) (lvlOf o) = some a → ∃ c', exec (r.1 o) s = .next (withCore o s c') ∧
         OnlyFlow (from_ o s) c' ∧ c'.pc = a ∧ c'.stack = (from_ o s).stack ∧ c'.lc = (from_ o s).lc ∧
         c'.body = (from_ o s).body ∧ c'.cyc = (from_ o s).cyc + 1) ∧
       (afterEndl (from_ o s) (lvlOf o) = none → exec (r.1 o) s = .next { s with dev := limExc o.core 7 (fetched o s) }))) ∧
  (∀ (o : Lim) (s : State), issuing s.dev o.core = true → ∀ r ∈ limRows ++ loopRows,
     (o.fetch ≠ .uncorrectable → (¬ r.2 o ∨ (o.inv = true ∧ o.pn = 0)) →
       exec (r.1 o) s = .next { s with dev := limExc o.core 5 (fetched o s) }) ∧
     (o.fetch = .uncorrectable → exec (r.1 o) s = .next { s with dev := limExc o.core 1 s.dev })) ∧
  (∀ (k : Fin 6) (code : Nat) (d : Dev), 1 ≤ code → code ≤ 7 → (d.core k).run = .tick →
     let e := limExc k code d
     (e.core k).run = .stopped ∧ SameRegs (d.core k) (e.core k) ∧ (e.core k).dmem = (d.core k).dmem ∧
     (∀ m, m ≠ k → e.core m = d.core m) ∧ e.sram = d.sram ∧
     e.reg (LIM_EXC k) = word (0x80000000 + code) ∧ e.reg (LIM_EXCPC k) = (d.core k).pc.setWidth 32 ∧
     (d.tick.phase ≠ .idle → e.tick.stopWork = true ∧ e.tick.slipFault = true) ∧
     e.fu.total = d.fu.total + 1 ∧
     (d.fu.stack = [] → ∃ r, e.fu.stack = [r] ∧ r.ev = 16 + k ∧ r.cls = (if code ≤ 4 then .slip else .hold) ∧
       r.detail = word (code + 16 * k + 65536 * (d.core k).pc.toNat)))

namespace Sys2Proof.Claims
open Sys2Proof
open Sys2Proof.Machine

/-- The accesses of a port are carried out at once: READY (R125), not in D3hot (R95), the device not stopped (R131), and no write
held at the port (R96). -/
structure Serves (p : HostPort) (s : State) : Prop where
  ready : s.dev.ready = true
  d0    : (s.dev.port p).pcie = true → (s.dev.port p).d3hot = false
  awake : s.dev.pw.stopped = false
  free  : (s.dev.port p).held = []

/-- It also holds the reins, and its staging area has room (R40, R99). -/
structure Holds (p : HostPort) (s : State) : Prop extends Serves p s where
  holder : s.dev.reins.holder = some p
  room   : stagedBy p s.dev < 256

/-- Only the register file of the device changes, and there only the registers of a set. -/
def OnlyRegs (d e : Dev) (l : List Nat) : Prop := e = { d with regs := e.regs } ∧ ∀ a, a ∉ l → e.reg a = d.reg a

/-- One register takes a value, and nothing else changes. -/
def SetsReg (d e : Dev) (a : Nat) (v : Word) : Prop := OnlyRegs d e [a] ∧ e.reg a = v

/-- A register is written over the bits of a mask. -/
def overlay (old v mask : Word) : Word := (old &&& ~~~ mask) ||| (v &&& mask)

end Sys2Proof.Claims

open Sys2Proof Sys2Proof.Machine Sys2Proof.Claims in
/-- SLIP takes effect in the tick that R38 assigns; PKCLR clears the six peak counters; a write of TCK_PERIOD in Commission is
staged from 46,875 to 750,000, and is ignored with PERR outside that range. -/
def Obligations.TickUnitCommands : Prop :=
∀ (p : HostPort) (s : State), Holds p s →
    ((s.dev.tick.phase = .capture ∨ s.dev.tick.phase = .compute) →
      exec (.slip p) s = .next { s with dev := { s.dev with tick := { s.dev.tick with slipCmd := true } } }) ∧
    ((s.dev.tick.phase = .stage ∨ s.dev.tick.phase = .idle) →
      exec (.slip p) s = .next { s with dev := { s.dev with tick := { s.dev.tick with slipNext := true } } }) ∧
    (∃ e, exec (.pkclr p) s = .next { s with dev := e } ∧ (∀ k, k < 6 → e.reg (TCK_PEAK k) = 0) ∧
      OnlyRegs s.dev e ((List.range 6).map TCK_PEAK)) ∧
    (∀ v : Word, s.dev.mode = .commission → 46875 ≤ v.toNat → v.toNat ≤ 750000 →
      exec (.tckPeriodWrite p v) s = .next { s with dev := stageHost (.host p) (.reg TCK_PERIOD v) s.dev }) ∧
    (∀ v : Word, s.dev.mode = .commission → (v.toNat < 46875 ∨ 750000 < v.toNat) →
      ∃ t, exec (.tckPeriodWrite p v) s = .next t ∧ t.dev.flag TCK_STAT 4 = true ∧ t.dev.tick = s.dev.tick ∧
        t.dev.reg TCK_PERIOD = s.dev.reg TCK_PERIOD)

namespace Sys2Proof.Claims
open Sys2Proof
open Sys2Proof.Machine

/-- The registers whose write follows a rule of its own beside its rights: commands, bounded fields, records and port-own
registers. -/
def ownRule (a : Nat) : Bool :=
  ([TCK_CMD, TCK_CFG, TCK_PERIOD, SYS_CMD, SYS_PWRCFG, SYS_HOLDCAUSE, HST_HBTO, HST_HB, HST_REINS, FLT_CFG, FLT_STAT, CEL_STAT,
    CEL_CMD, FLD_CFGCMD, HRN_SEALCMD, TDL_NVCMD, LIM_LOADCMD, VIS_HOFFRD, MON_CFG, MON_CODE, MON_BAUD, MON_TRCFG] : List Nat).contains a ||
  wcNow a || (ownerOf a).isSome ||
  (decide (0x010F0400 ≤ a) && decide (a < 0x010F0800) && evReserved ((a - 0x010F0400) / 4)) ||
  (decide (a / 0x10000 = 0x106) && decide (a % 0x10000 < 0x1000) && (decide (a % 0x100 = 4) || decide (a % 0x100 = 0x1C)))

/-- An aligned address of the register region. -/
def RegAddr (a : Nat) : Prop := 0x1000000 ≤ a ∧ a < 0x1140000 ∧ a % 4 = 0

/-- An access whose bytes do not all lie in one region, or one of the register region that is not an aligned word (R17). -/
def badAccess (a : Nat) (sz : AccSize) : Prop :=
  a + accBytes sz ≤ 0x1800000 ∧
  ((∃ i, i < accBytes sz ∧ regionOf (a + i) ≠ regionOf a) ∨ (regionOf a = .regs ∧ (sz ≠ .b4 ∨ a % 4 ≠ 0)))

/-- An access every byte of which lies at reserved addresses below the Cellar's window (R18). -/
def deadAccess (a : Nat) (sz : AccSize) : Prop :=
  a + accBytes sz ≤ 0x1800000 ∧ ∀ i, i < accBytes sz → regionOf (a + i) = .none

/-- A write of a port changes nothing but its sticky bit. -/
def Refused (p : HostPort) (i : Instr) (s : State) : Prop := exec i s = .next { s with dev := setRefuse p s.dev }

end Sys2Proof.Claims

open Sys2Proof Sys2Proof.Machine Sys2Proof.Claims in
/-- A direct write of a register by the reins holder (REGISTER_WRITE, STICKY_CLEAR). A register without WT or WC bits takes the
value over its RW bits and clears the W1C bits written as 1, at once. A WT register is staged, and so is a WC register in
Commission; outside Commission a write of a WC register is refused, and so is that of AXn_CFG, AXn_GRP or AXn_GSRC of an enabled
axis. A reserved offset ignores it. An event route is written over its three fields, and a sticky word of events clears the bits
written as 1, but not bits 15..0 of EVT_STICKY4. HST_HBTO takes 10 to 1,000 and refuses another value.
Tick SRAM and local data memory are staged, for every size and alignment; instruction memory and the Cellar's boot region are
written at once in Commission, and refused outside it; DRAM through BAR2 is written at once.
An access that R17 excludes sets HSTx_STAT.ACCERR and writes nothing; one at reserved addresses is ignored.
A port without the reins is refused with HSTx_STAT.REFUSE everywhere but in its own registers (R7, R17, R18, R99, R100). -/
def Obligations.HostWrites : Prop :=
  (∀ (p : HostPort) (s : State), Holds p s →
     (∀ a r (v : DWord), RegAddr a → row? a = some r → ownRule a = false →
       (r.wt = 0 → r.wc = 0 →
         (∃ d, exec (.registerWrite p a .b4 v) s = .next { s with dev := d } ∧
           SetsReg s.dev d a (overlay (s.dev.reg a) (loWord v) r.rw &&& ~~~ (loWord v &&& r.w1c))) ∧
         ∃ d, exec (.stickyClear p a (loWord v)) s = .next { s with dev := d } ∧
           SetsReg s.dev d a (overlay (s.dev.reg a) (loWord v) r.rw &&& ~~~ (loWord v &&& r.w1c))) ∧
       ((r.wt ≠ 0 ∨ r.wc ≠ 0) → (r.wc ≠ 0 → s.dev.mode = .commission) → axisLocked a s.dev = false →
         exec (.registerWrite p a .b4 v) s = .next { s with dev := stageHost (.host p) (.reg a (loWord v)) s.dev }) ∧
       (r.wc ≠ 0 → s.dev.mode ≠ .commission → Refused p (.registerWrite p a .b4 v) s) ∧
       ((r.wt ≠ 0 ∨ r.wc ≠ 0) → axisLocked a s.dev = true → Refused p (.registerWrite p a .b4 v) s)) ∧
     (∀ a (v : DWord), RegAddr a → row? a = none → ownRule a = false → exec (.registerWrite p a .b4 v) s = .next s) ∧
     (∀ e (v : DWord), e < 256 → evReserved e = false → ∃ d, exec (.registerWrite p (EVT_ROUTE e) .b4 v) s = .next { s with dev := d } ∧
       SetsReg s.dev d (EVT_ROUTE e) (overlay (s.dev.reg (EVT_ROUTE e)) (loWord v) 0x01001F1F)) ∧
     (∀ w (v : Word), w < 8 → ∃ d, exec (.stickyClear p (EVT_STICKY w) v) s = .next { s with dev := d } ∧
       SetsReg s.dev d (EVT_STICKY w) (s.dev.reg (EVT_STICKY w) &&& ~~~ (v &&& if w = 4 then 0xFFFF0000 else 0xFFFFFFFF))) ∧
     (∀ v : DWord,
       (10 ≤ bits (loWord v) 9 0 → bits (loWord v) 9 0 ≤ 1000 → ∃ d,
         exec (.registerWrite p HST_HBTO .b4 v) s = .next { s with dev := d } ∧
         SetsReg s.dev d HST_HBTO (overlay (s.dev.reg HST_HBTO) (loWord v) 0x3FF)) ∧
       ((bits (loWord v) 9 0 < 10 ∨ 1000 < bits (loWord v) 9 0) → Refused p (.registerWrite p HST_HBTO .b4 v) s))) ∧
  (∀ (p : HostPort) (s : State), Holds p s →
     (∀ a (sz : AccSize) (v : DWord), a + accBytes sz ≤ 0x400000 →
       exec (.hostMemoryWrite p a sz v) s = .next { s with dev := stageHost (.host p) (.sram a (accBytes sz) v.toNat) s.dev }) ∧
     (∀ (k : Fin 6) o (sz : AccSize) (v : DWord), o + accBytes sz ≤ 0x20000 →
       exec (.hostMemoryWrite p (0x420000 + 0x40000 * k + o) sz v) s =
         .next { s with dev := stageHost (.host p) (.dmem k o (accBytes sz) v.toNat) s.dev }) ∧
     (∀ (k : Fin 6) o (sz : AccSize) (v : DWord), o + accBytes sz ≤ 0x10000 →
       (s.dev.mode = .commission → ∃ c,
         exec (.hostInstructionWrite p (0x400000 + 0x40000 * k + o) sz v) s = .next { s with dev := s.dev.setCore k c } ∧
         c = { s.dev.core k with imem := c.imem } ∧
         ∀ x, imemByte c x = if o ≤ x ∧ x < o + accBytes sz then BitVec.ofNat 8 (v.toNat / 256 ^ (x - o))
           else imemByte (s.dev.core k) x) ∧
       (s.dev.mode ≠ .commission → Refused p (.hostInstructionWrite p (0x400000 + 0x40000 * k + o) sz v) s)) ∧
     (∀ o (sz : AccSize) (v : DWord),
       (o + accBytes sz ≤ 0x40000 → s.dev.mode = .commission → ∃ t,
         exec (.hostCellarWrite p (0x1800000 + o) sz v verifyGood) s = .next t ∧
         t.dev.cel = { s.dev.cel with array := s.dev.cel.array.write o (accBytes sz) v.toNat,
                                      durable := s.dev.cel.durable.write o (accBytes sz) v.toNat } ∧
         t.dev.regs = s.dev.regs ∧ t.dev.sram = s.dev.sram ∧ t.dev.tick = s.dev.tick ∧ t.dev.cores = s.dev.cores) ∧
       (o + accBytes sz ≤ 0x80000 → (s.dev.mode ≠ .commission ∨ 0x40000 < o + accBytes sz) →
         Refused p (.hostCellarWrite p (0x1800000 + o) sz v verifyGood) s)) ∧
     (∀ a (sz : AccSize) (v : DWord), exec (.hostDramWrite p a sz v) s =
       .next { s with dev := setDramBytes a (leBytes v.toNat (accBytes sz)) s.dev })) ∧
  (∀ (p : HostPort) (s : State), Serves p s →
     (∀ a (sz : AccSize) (v : DWord), badAccess a sz →
       exec (.registerWrite p a sz v) s = .next { s with dev := setAccErr p s.dev } ∧
       exec (.hostMemoryWrite p a sz v) s = .next { s with dev := setAccErr p s.dev }) ∧
     (∀ a (sz : AccSize) (v : DWord), s.dev.reins.holder = some p → deadAccess a sz →
       exec (.registerWrite p a sz v) s = .next s ∧ exec (.hostMemoryWrite p a sz v) s = .next s) ∧
     (∀ i (v : DWord), (i < 128 → ∃ d, exec (.registerWrite p (HST_MSIX p.num i) .b4 v) s = .next { s with dev := d } ∧
         SetsReg s.dev d (HST_MSIX p.num i) (loWord v)) ∧
       (i < 2048 → ∃ d, exec (.registerWrite p (HST_CRING p.num i) .b4 v) s = .next { s with dev := d } ∧
         SetsReg s.dev d (HST_CRING p.num i) (loWord v))) ∧
     (setAccErr p s.dev).flag (HST_STAT p.num) 1 = true ∧ (setRefuse p s.dev).flag (HST_STAT p.num) 2 = true) ∧
  (∀ (p : HostPort) (s : State), Serves p s → s.dev.reins.holder ≠ some p →
     (∀ a (v : DWord), RegAddr a → ownerOf a = none → a ≠ HST_REINS → a ≠ CEL_CMD → a ≠ TDL_NVCMD →
       Refused p (.registerWrite p a .b4 v) s ∧ Refused p (.stickyClear p a (loWord v)) s) ∧
     (∀ v, Refused p (.tckPeriodWrite p v) s ∧ Refused p (.loadCommand p v) s) ∧
     (∀ a (sz : AccSize) v, a + accBytes sz ≤ 0x400000 → Refused p (.hostMemoryWrite p a sz v) s) ∧
     (∀ (k : Fin 6) o (sz : AccSize) v, o + accBytes sz ≤ 0x20000 →
       Refused p (.hostMemoryWrite p (0x420000 + 0x40000 * k + o) sz v) s) ∧
     (∀ (k : Fin 6) o (sz : AccSize) v, o + accBytes sz ≤ 0x10000 →
       Refused p (.hostInstructionWrite p (0x400000 + 0x40000 * k + o) sz v) s) ∧
     (∀ o (sz : AccSize) v, o + accBytes sz ≤ 0x80000 → Refused p (.hostCellarWrite p (0x1800000 + o) sz v verifyGood) s) ∧
     (∀ a (sz : AccSize) v, Refused p (.hostDramWrite p a sz v) s))

namespace Sys2Proof.Claims
open Sys2Proof
open Sys2Proof.Machine

/-- A read has answered its words at a port. -/
def Answers (p : HostPort) (ws : List Word) (s : State) : State :=
  { s with dev := s.dev.setPort p { s.dev.port p with resp := ws } }

end Sys2Proof.Claims

open Sys2Proof Sys2Proof.Machine Sys2Proof.Claims in
/-- Host reads. A read of the low half of TCK_COUNT, TCK_EDGETS or TCK_TS returns it and latches the upper half for its reader,
which a read of the upper half returns; the monitor latches its own, while it is enabled. Another register returns its word. A
read of any size and alignment returns the bytes of tick SRAM, of local data memory and of the Cellar as committed, of
instruction memory, or of DRAM through BAR2. A Cellar word that ECC corrects is returned with event 212 as a Note; one that it cannot
correct reads 0, with event 213 as a Note and its offset in CEL_UEADDR. An access that R17 excludes reads 0 and sets HSTx_STAT.ACCERR; one
at reserved addresses reads 0. Before READY every read returns 0 (R17, R18, R22, R47, R48, R125, R334). -/
def Obligations.HostReads : Prop :=
  (∀ (p : HostPort) (s : State), Serves p s →
    exec (.tckCountLoRead (.host p)) s = .next { s with dev := (s.dev.setPort p
      { s.dev.port p with resp := [loWord s.dev.tick.count], hiCount := hiWord s.dev.tick.count }) } ∧
    exec (.tckEdgetsLoRead (.host p)) s = .next { s with dev := (s.dev.setPort p
      { s.dev.port p with resp := [loWord (edgeStamp s.dev)], hiEdge := hiWord (edgeStamp s.dev) }) } ∧
    exec (.tckTsLoRead (.host p)) s = .next { s with dev := (s.dev.setPort p
      { s.dev.port p with resp := [loWord s.dev.stamp], hiTs := hiWord s.dev.stamp }) } ∧
    exec (.hostRead p false TCK_COUNT_HI .b4 .ok) s = .next (Answers p [(s.dev.port p).hiCount] s) ∧
    exec (.hostRead p false TCK_EDGETS_HI .b4 .ok) s = .next (Answers p [(s.dev.port p).hiEdge] s) ∧
    exec (.hostRead p false TCK_TS_HI .b4 .ok) s = .next (Answers p [(s.dev.port p).hiTs] s) ∧
    (∀ a e, RegAddr a → a ≠ TCK_COUNT_LO → a ≠ TCK_EDGETS_LO → a ≠ TCK_TS_LO →
      exec (.hostRead p false a .b4 e) s = .next (Answers p [readReg s.dev s.snap (.host p) a] s)) ∧
    (∀ a (sz : AccSize) e, a + accBytes sz ≤ 0x400000 →
      exec (.hostRead p false a sz e) s = .next (Answers p (respWords (s.dev.sram.bytes a (accBytes sz))) s)) ∧
    (∀ (k : Fin 6) o (sz : AccSize) e,
      (o + accBytes sz ≤ 0x20000 → exec (.hostRead p false (0x420000 + 0x40000 * k + o) sz e) s =
        .next (Answers p (respWords ((s.snap.core k).dmem.bytes o (accBytes sz))) s)) ∧
      (o + accBytes sz ≤ 0x10000 → exec (.hostRead p false (0x400000 + 0x40000 * k + o) sz e) s =
        .next (Answers p (respWords ((List.range (accBytes sz)).map (fun i => imemByte (s.dev.core k) (o + i)))) s))) ∧
    (∀ o (sz : AccSize), o + accBytes sz ≤ 0x7C000 →
      exec (.hostRead p false (0x1800000 + o) sz .ok) s =
        .next (Answers p (respWords (s.dev.cel.array.bytes o (accBytes sz))) s) ∧
      (∃ t, exec (.hostRead p false (0x1800000 + o) sz .corrected) s = .next t ∧
        (t.dev.port p).resp = respWords (s.dev.cel.array.bytes o (accBytes sz)) ∧
        t.dev.reg FLT_NOTES = s.dev.reg FLT_NOTES + 1 ∧ t.dev.cel = s.dev.cel) ∧
      ∃ t, exec (.hostRead p false (0x1800000 + o) sz .uncorrectable) s = .next t ∧
        (t.dev.port p).resp = respWords (List.replicate (accBytes sz) 0) ∧ t.dev.reg CEL_UEADDR = word o ∧
        t.dev.reg FLT_NOTES = s.dev.reg FLT_NOTES + 1 ∧ t.dev.cel = s.dev.cel) ∧
    (∀ a (sz : AccSize) e, exec (.hostRead p true a sz e) s =
      .next (Answers p (respWords (s.dev.dramBytes a (accBytes sz))) s)) ∧
    (∀ a (sz : AccSize) e, badAccess a sz → exec (.hostRead p false a sz e) s =
      .next (Answers p (respWords (List.replicate (accBytes sz) 0)) { s with dev := setAccErr p s.dev })) ∧
    (∀ a (sz : AccSize) e, deadAccess a sz → exec (.hostRead p false a sz e) s =
      .next (Answers p (respWords (List.replicate (accBytes sz) 0)) s))) ∧
  (∀ (p : HostPort) (s : State), s.dev.ready = false → ((s.dev.port p).pcie = true → (s.dev.port p).d3hot = false) →
    ∀ bar2 a (sz : AccSize) e, exec (.hostRead p bar2 a sz e) s =
      .next (Answers p (respWords (List.replicate (accBytes sz) 0)) s)) ∧
  (∀ s : State, s.dev.ready = true → s.dev.flag MON_CFG 0 = true →
    exec (.tckCountLoRead .monitor) s =
      .next { s with dev := { s.dev with mon := { s.dev.mon with hiCount := hiWord s.dev.tick.count } } } ∧
    exec (.tckEdgetsLoRead .monitor) s =
      .next { s with dev := { s.dev with mon := { s.dev.mon with hiEdge := hiWord (edgeStamp s.dev) } } } ∧
    exec (.tckTsLoRead .monitor) s =
      .next { s with dev := { s.dev with mon := { s.dev.mon with hiTs := hiWord s.dev.stamp } } })

open Sys2Proof Sys2Proof.Machine Sys2Proof.Claims in
/-- The reins arbiter: REQ of free reins grants them, to the port that did not win the previous contested grant when both ask in
one cycle; REL frees them; HEARTBEAT of the holder keeps them; HB_TIMEOUT marks them late; TAKE from a late holder moves them,
discards its waiting commands and counts; a TAKE from a holder in time is denied (R103, R104, R105). -/
def Obligations.Reins : Prop :=
(∀ (p : HostPort) (s : State), Serves p s → s.dev.reins.holder = none →
    (∃ t, exec (.reinsReq p false) s = .next t ∧ t.dev.reins.holder = some p ∧ t.dev.reins.hbLate = false) ∧
    (∃ t, exec (.reinsReq p true) s = .next t ∧ t.dev.reins.holder = some s.dev.reins.lastWin.other ∧
      t.dev.reins.lastWin = s.dev.reins.lastWin.other) ∧
    (∃ t, exec (.reinsTake p false) s = .next t ∧ t.dev.reins.holder = some p)) ∧
  (∀ (p : HostPort) (s : State), Serves p s → s.dev.reins.holder = some p →
    (∃ t, exec (.reinsRel p) s = .next t ∧ t.dev.reins.holder = none) ∧
    (∃ t, exec (.heartbeat p) s = .next t ∧ t.dev.reins.holder = some p ∧ t.dev.reins.hbLate = false) ∧
    (s.dev.reins.hbLate = false → ∃ t, exec .hbTimeout s = .next t ∧ t.dev.reins.hbLate = true ∧
      t.dev.reins.holder = some p)) ∧
  (∀ (p : HostPort) (s : State) (c : Bool), Serves p s → s.dev.reins.holder = some p.other →
    (s.dev.reins.hbLate = true → ∃ t, exec (.reinsTake p c) s = .next t ∧ t.dev.reins.holder = some p ∧
      t.dev.reins.hbLate = false ∧ t.dev.reg (HST_CMDHEAD p.other.num) = word (s.dev.fld (HST_CMDTAIL p.other.num) 8 0) ∧
      t.dev.reg HST_TAKES = s.dev.reg HST_TAKES + 1 ∧ t.dev.flag (HST_STAT p.other.num) 5 = true) ∧
    (s.dev.reins.hbLate = false → ∃ t, exec (.reinsTake p c) s = .next t ∧ t.dev.reins = s.dev.reins ∧
      t.dev.flag (HST_STAT p.num) 3 = true))

namespace Sys2Proof.Claims
open Sys2Proof
open Sys2Proof.Machine

/-- The entry of a command ring at an index, as COMMAND_CONSUME takes it. -/
def entryAt (p : HostPort) (h : Nat) (d : Dev) : Command :=
  { idx := h, opc := BitVec.ofNat 8 (d.reg (HST_CRING p.num (4 * h))).toNat,
    tag := BitVec.ofNat 16 ((d.reg (HST_CRING p.num (4 * h))).toNat / 65536),
    addr := (d.reg (HST_CRING p.num (4 * h + 1))).toNat, data := d.reg (HST_CRING p.num (4 * h + 2)),
    edge := d.reg (HST_CRING p.num (4 * h + 3)), count := d.tick.count }

/-- An entry keeps the form of its opcode: bits 15..8 of word 0 are 0, an untimed entry has EDGE 0, a read has DATA 0, and ADDR
of all but NOP is a multiple of 4. -/
def goodEntry (p : HostPort) (h : Nat) (d : Dev) : Prop :=
  (d.reg (HST_CRING p.num (4 * h))).toNat / 256 % 256 = 0 ∧ (entryAt p h d).opc.toNat ≤ 4 ∧
  ((entryAt p h d).opc ≠ 0 → (entryAt p h d).addr % 4 = 0) ∧ ((entryAt p h d).opc.toNat < 3 → (entryAt p h d).edge = 0) ∧
  ((entryAt p h d).opc = 1 ∨ (entryAt p h d).opc = 4 → (entryAt p h d).data = 0)

/-- A completion has been written at the tail: word 0, the data, and one entry more; nothing is in flight. -/
def Completed (p : HostPort) (c : Command) (status : Nat) (data : Word) (d e : Dev) : Prop :=
  e.reg (HST_CPLTAIL p.num) = word ((d.fld (HST_CPLTAIL p.num) 8 0 + 1) % 512) ∧
  e.reg (HST_CPRING p.num (4 * d.fld (HST_CPLTAIL p.num) 8 0)) =
    word (c.tag.toNat + 65536 * status + 0x1000000 * (c.opc.toNat % 128) + 0x80000000 * b2n (d.port p).cplPhase) ∧
  e.reg (HST_CPRING p.num (4 * d.fld (HST_CPLTAIL p.num) 8 0 + 1)) = data ∧
  (e.port p).inFlight = none

/-- A WRAT of tick SRAM or an RDAT in flight completes at once with a status, and no timed command waits more than before. -/
def TimedEnds (p : HostPort) (c : Command) (status : Nat) (s : State) : Prop :=
  (c.opc = 3 → c.addr + 4 ≤ 0x400000 → ∃ t, exec (.wrat p) s = .next t ∧ Completed p c status 0 s.dev t.dev ∧
    (t.dev.port p).timed = (s.dev.port p).timed) ∧
  (c.opc = 4 → ∃ t, exec (.rdat p) s = .next t ∧ Completed p c status 0 s.dev t.dev ∧
    (t.dev.port p).timed = (s.dev.port p).timed)

end Sys2Proof.Claims

open Sys2Proof Sys2Proof.Machine Sys2Proof.Claims in
/-- DOORBELL and CPLHEAD_WRITE set an index up to 511, and a larger one is ignored with BADDB. COMMAND_CONSUME takes the entry at
HEAD; CMD_NOP completes it, RD32 with the word of tick SRAM read, WR32 after its write of tick SRAM; WRAT and RDAT wait for an
edge 1 to 65,536 after the count at which they were consumed. They complete at once with LATE (status 5) where that edge is not
after the count at consumption, has come, or is the next one and Stage has begun; with FAR (6) beyond 65,536; with FULL (7)
behind 64 others; and a WRAT with BADTGT (9) where its address takes no timed write (R105 to R107, R110).
WRAT_ACCEPT stages the holder's WRAT of tick SRAM whose edge comes next, in the last core cycle of Compute; RDAT_PERFORM completes
an RDAT of the running tick with the word of tick SRAM that its edge latched, or, where its edge latched none, as committed
(R102, R107, R108). -/
def Obligations.CommandRings : Prop :=
  (∀ (p : HostPort) (s : State), Serves p s →
     (∀ v : Word, v.toNat ≤ 511 →
       (∃ e, exec (.doorbell p v) s = .next { s with dev := e } ∧ SetsReg s.dev e (HST_CMDTAIL p.num) v) ∧
       ∃ e, exec (.cplheadWrite p v) s = .next { s with dev := e } ∧ SetsReg s.dev e (HST_CPLHEAD p.num) v) ∧
     (∀ v : Word, 511 < v.toNat → exec (.doorbell p v) s = .next { s with dev := setBadDb p s.dev } ∧
       exec (.cplheadWrite p v) s = .next { s with dev := setBadDb p s.dev }) ∧
     (∀ h, h = s.dev.fld (HST_CMDHEAD p.num) 8 0 → h ≠ s.dev.fld (HST_CMDTAIL p.num) 8 0 → (s.dev.port p).inFlight = none →
       1 + (s.dev.port p).timed.length ≤ cplFree p s.dev → goodEntry p h s.dev →
       ∃ t, exec (.commandConsume p) s = .next t ∧ (t.dev.port p).inFlight = some (entryAt p h s.dev) ∧
         t.dev.reg (HST_CMDHEAD p.num) = word ((h + 1) % 512) ∧ t.dev.port p.other = s.dev.port p.other) ∧
     (∀ c, (s.dev.port p).inFlight = some c →
       (c.opc = 0 → ∃ t, exec (.cmdNop p) s = .next t ∧ Completed p c 0 0 s.dev t.dev ∧ t.dev.tick = s.dev.tick) ∧
       (c.opc = 1 → c.addr + 4 ≤ 0x400000 → ∃ t, exec (.rd32 p) s = .next t ∧
         Completed p c 0 (s.dev.sram.word c.addr) s.dev t.dev ∧ t.dev.sram = s.dev.sram) ∧
       (c.opc = 2 → s.dev.reins.holder = some p → stagedBy p s.dev < 256 → c.addr + 4 ≤ 0x400000 → ∃ t, exec (.wr32 p) s = .next t ∧
         Completed p c 0 0 s.dev t.dev ∧ t.dev.tick = (stageHost (.host p) (.sram c.addr 4 c.data.toNat) s.dev).tick) ∧
       (c.opc = 3 → timedTarget true c.addr = false → ∃ t, exec (.wrat p) s = .next t ∧ Completed p c 9 0 s.dev t.dev) ∧
       (∀ n : Nat, n < 2 ^ 31 →
         (c.edge = loWord (c.count + BitVec.ofNat 64 n) → s.dev.tick.count.toNat < c.count.toNat + n →
           (c.count.toNat + n = s.dev.tick.count.toNat + 1 → s.dev.tick.phase ≠ .stage) → 0 < n →
           (n ≤ 65536 → (s.dev.port p).timed.length < 64 →
             (c.opc = 3 → c.addr + 4 ≤ 0x400000 → ∃ t, exec (.wrat p) s = .next t ∧ (t.dev.port p).inFlight = none ∧
               (t.dev.port p).timed = (s.dev.port p).timed ++
                 [⟨true, c.tag, c.idx, c.addr, c.data, c.count.toNat + n, false, none⟩] ∧ t.dev.regs = s.dev.regs) ∧
             (c.opc = 4 → ∃ t, exec (.rdat p) s = .next t ∧ (t.dev.port p).inFlight = none ∧
               (t.dev.port p).timed = (s.dev.port p).timed ++
                 [⟨false, c.tag, c.idx, c.addr, c.data, c.count.toNat + n, false, none⟩] ∧ t.dev.regs = s.dev.regs)) ∧
           (65536 < n → TimedEnds p c 6 s) ∧
           (n ≤ 65536 → 64 ≤ (s.dev.port p).timed.length → TimedEnds p c 7 s)) ∧
         (c.edge = loWord (c.count - BitVec.ofNat 64 n) → TimedEnds p c 5 s) ∧
         (c.edge = loWord (c.count + BitVec.ofNat 64 n) → (c.count.toNat + n ≤ s.dev.tick.count.toNat ∨
           (c.count.toNat + n = s.dev.tick.count.toNat + 1 ∧ s.dev.tick.phase = .stage)) → TimedEnds p c 5 s)))) ∧
  (∀ (p : HostPort) (s : State) (t : Timed), ticking s.dev = true → (s.dev.port p).timed = [t] → t.addr + 4 ≤ 0x400000 →
     (t.write = true → t.acc = false → t.edge = s.dev.tick.count.toNat + 1 → s.dev.tick.phase = .compute →
       s.dev.reins.holder = some p →
       ∃ u, exec (.wratAccept p) s = .next u ∧ (u.dev.port p).timed = [{ t with acc := true }] ∧
         u.dev.tick = (stageHost (.timed p) (.sram t.addr 4 t.data.toNat) (acceptInstant s.dev)).tick ∧
         u.dev.regs = s.dev.regs ∧ u.dev.sram = s.dev.sram) ∧
     (t.write = false → t.edge = s.dev.tick.count.toNat → s.dev.tick.phase ≠ .idle →
       ∃ u, exec (.rdatPerform p) s = .next u ∧ (u.dev.port p).timed = [] ∧
         u.dev.reg (HST_CPRING p.num (4 * s.dev.fld (HST_CPLTAIL p.num) 8 0 + 1)) = t.got.getD (s.dev.sram.word t.addr) ∧
         u.dev.reg (HST_CPLTAIL p.num) = word ((s.dev.fld (HST_CPLTAIL p.num) 8 0 + 1) % 512) ∧ u.dev.tick = s.dev.tick)) ∧
  (∀ (p : HostPort) (d : Dev) (t : Timed), t ∈ (d.port p).timed → t.write = false → t.edge = d.tick.count.toNat →
     t.addr + 4 ≤ 0x400000 → { t with got := some (d.sram.word t.addr) } ∈ ((rdatLatch p d).port p).timed)

open Sys2Proof Sys2Proof.Machine Sys2Proof.Claims in
/-- The quad-SPI target of a port: a WRITE through the DRAM window or of tick SRAM by the holder, a READ of tick SRAM with the marker
0xA5, the marker 0x5A with SPITO after a time-out, SETWIN, and VECACK, which clears pending vectors (R97, R112).
A PCIe port: with MSI-X enabled and the function not masked, an unmasked pending vector is sent and its pending bit clears; the
end of the moderation interval sends a vector 0 that waits; LINK follows the link, with its event; PERST takes it down, leaves
D3hot and resets the configuration space; a configuration request reads it, changes the D-state or the MSI-X control, or writes
the address bits of BAR0 and BAR3 (R95, R104, R112). -/
def Obligations.HostLinks : Prop :=
  (∀ (p : HostPort) (s : State), Serves p s → (s.dev.port p).pcie = false →
     (∀ v : Word, ∃ e, exec (.setwin p v) s = .next { s with dev := e } ∧
       SetsReg s.dev e (HST_SPIWIN p.num) (v &&& 0x800001FF)) ∧
     (∀ v : Word, ∃ e, exec (.vecackWrite p v) s = .next { s with dev := e } ∧
       SetsReg s.dev e (HST_VECPEND p.num) (s.dev.reg (HST_VECPEND p.num) &&& ~~~ v)) ∧
     (∀ (ofs : BitVec 24) (v : Word), ofs.toNat % 4 = 0 → s.dev.reins.holder = some p →
       s.dev.flag (HST_SPIWIN p.num) 31 = true →
       exec (.qspiWrite p ofs [v]) s = .next { s with dev := (setDramBytes
         (s.dev.fld (HST_SPIWIN p.num) 8 0 * 0x1000000 + ofs.toNat) (leBytes v.toNat 4) s.dev) }) ∧
     (∀ (ofs : BitVec 24) (v : Word), ofs.toNat % 4 = 0 → ofs.toNat + 4 ≤ 0x400000 → s.dev.reins.holder = some p →
       stagedBy p s.dev < 256 → s.dev.reg (HST_SPIWIN p.num) = 0 →
       exec (.qspiWrite p ofs [v]) s = .next { s with dev := stageHost (.host p) (.sram ofs.toNat 4 v.toNat) s.dev }) ∧
     (∀ ofs : BitVec 24, ofs.toNat % 4 = 0 → ofs.toNat + 4 ≤ 0x400000 → s.dev.reg (HST_SPIWIN p.num) = 0 →
       ∃ t, exec (.qspiRead p ofs 1) s = .next t ∧ (t.dev.port p).marker = some 0xA5 ∧
         (t.dev.port p).resp = [s.dev.sram.word ofs.toNat] ∧ t.dev.regs = s.dev.regs) ∧
     (∃ t, exec (.qspiReadTimeout p) s = .next t ∧ (t.dev.port p).marker = some 0x5A ∧ (t.dev.port p).resp = [] ∧
       t.dev.flag (HST_STAT p.num) 7 = true)) ∧
  (∀ (p : HostPort) (s : State), (s.dev.port p).pcie = true →
     (∀ d3, exec (.pcieConfigRequest p (.power d3)) s =
       .next { s with dev := s.dev.setPort p { s.dev.port p with d3hot := d3 } }) ∧
     (∀ en mask, exec (.pcieConfigRequest p (.msix en mask)) s =
       .next { s with dev := s.dev.setPort p { s.dev.port p with msixOn := en, msixMask := mask } }) ∧
     (∀ v, exec (.pcieConfigRequest p (.bar 0 v)) s =
         .next { s with dev := s.dev.setPort p { s.dev.port p with bar0 := v &&& 0xFE000000 } } ∧
       exec (.pcieConfigRequest p (.bar 3 v)) s =
         .next { s with dev := s.dev.setPort p { s.dev.port p with bar3 := v &&& 0xFFFFFFFE } }) ∧
     (∀ i v, i ≠ 0 → i ≠ 3 → exec (.pcieConfigRequest p (.bar i v)) s = .next s) ∧
     (∀ f, exec (.pcieConfigRequest p (.read f)) s = .next (Answers p [match f with
       | .ids | .subsystem => s.dev.reg HST_PCIID
       | .classRev => word (0x11800000 + s.dev.fld SYS_STEP 7 0)
       | .header => 0
       | .bar i => if i = 0 then (s.dev.port p).bar0 else if i = 2 then 0xC else if i = 3 then (s.dev.port p).bar3 else 0
       | .power => if (s.dev.port p).d3hot then 3 else 0
       | .msix => word (31 + 0x4000 * b2n (s.dev.port p).msixMask + 0x8000 * b2n (s.dev.port p).msixOn)
       | .aer => 1] s)) ∧
     (∀ up, s.dev.flag (HST_STAT p.num) 8 ≠ up → ∃ t, exec (.pcieLinkChange p up) s = .next t ∧
       t.dev.flag (HST_STAT p.num) 8 = up ∧
       (s.dev.pw.stopped = false → t.dev.flag (EVT_STICKY 1) (7 + 8 * p.num) = true)) ∧
     (∃ t, exec (.perst p) s = .next t ∧ t.dev.port p =
         { s.dev.port p with d3hot := false, msixOn := false, msixMask := false, bar0 := 0, bar3 := 0 } ∧ t.dev.flag (HST_STAT p.num) 8 = false) ∧
     (∀ v : Fin 32, (s.dev.port p).d3hot = false → (s.dev.port p).msixOn = true → (s.dev.port p).msixMask = false →
       s.dev.flag (HST_STAT p.num) 8 = true → s.dev.flag (HST_PBA p.num 0) v = true →
       s.dev.flag (HST_MSIX p.num (4 * v + 3)) 0 = false →
       ((v.val = 0 → (s.dev.port p).modBusy = false) → ∃ t, exec (.msixSend p v) s = .next t ∧
         t.dev.flag (HST_PBA p.num 0) v = false ∧
         smGet noMsgs (t.dev.port p).msgs v = smGet noMsgs (s.dev.port p).msgs v + 1) ∧
       (v.val = 0 → ∃ t, exec (.cplModerationEnd p) s = .next t ∧ t.dev.flag (HST_PBA p.num 0) 0 = false ∧
         smGet noMsgs (t.dev.port p).msgs 0 = smGet noMsgs (s.dev.port p).msgs 0 + 1)))

namespace Sys2Proof.Claims
open Sys2Proof
open Sys2Proof.Machine

/-- Outside the units of a command nothing moves: Limath, memories, loader, host ports, reins, trees, the tick, the mode. -/
structure Elsewhere (d e : Dev) : Prop where
  cores  : e.cores = d.cores
  sram   : e.sram = d.sram
  dram   : e.dram = d.dram
  loader : e.loader = d.loader
  ports  : e.pa = d.pa ∧ e.pb = d.pb
  reins  : e.reins = d.reins
  trees  : e.trees = d.trees
  tick   : e.tick = d.tick
  mode   : e.mode = d.mode

/-- Of the feedback channels only channel c changes. -/
def OnlyCh (c : Fin 16) (d e : Dev) : Prop := Elsewhere d e ∧ ∀ k, k ≠ c → e.ch k = d.ch k

/-- The six Hall states U, UV, V, VW, W, WU in this order. -/
def hallSeq (i : Fin 6) : BitVec 3 := ([1, 3, 2, 6, 4, 5].getD i.val 0 : BitVec 3)

/-- One count up, or down on a channel with DIR = 1. -/
def counted (inv up : Bool) (w : Word) : Word := if inv = up then w - 1 else w + 1

end Sys2Proof.Claims

open Sys2Proof Sys2Proof.Machine Sys2Proof.Claims in
/-- A level that has held for FILT + 1 core cycles is accepted, a shorter one is nothing. Quadrature counts up with A leading B
(00, 10, 11, 01), down in the other sense, and DIR inverts both; both levels at once set QERR and count nothing. Hall steps
count along U, UV, V, VW, W, WU; any other state sets HERR and counts nothing. -/
def Obligations.QuadratureAndHall : Prop :=
∀ (c : Fin 16) (s : State) (ts : DWord) (inv : Bool) (held : Nat), s.dev.pw.stopped = false →
    s.dev.flag (FB_CFG c) 11 = inv →
    (held ≤ s.dev.fld (FB_CFG c) 21 16 →
      (∀ a b, exec (.quadEdge c a b ⟨held, ts⟩) s = .next s) ∧ ∀ w, exec (.hallStep c w ⟨held, ts⟩) s = .next s) ∧
    (s.dev.fld (FB_CFG c) 21 16 < held →
     (s.dev.fbType c = 1 → ∀ a b : Bool, (s.dev.ch c).lvl = BitVec.ofNat 3 (b2n a + 2 * b2n b) →
      (∃ d, exec (.quadEdge c (!b) a ⟨held, ts⟩) s = .next { s with dev := d } ∧ (d.ch c).cnt = counted inv true (s.dev.ch c).cnt ∧
        (d.ch c).lastTs = ts ∧ OnlyCh c s.dev d) ∧
      (∃ d, exec (.quadEdge c b (!a) ⟨held, ts⟩) s = .next { s with dev := d } ∧ (d.ch c).cnt = counted inv false (s.dev.ch c).cnt ∧
        (d.ch c).lastTs = ts ∧ OnlyCh c s.dev d) ∧
      (∃ d, exec (.quadEdge c (!a) (!b) ⟨held, ts⟩) s = .next { s with dev := d } ∧ (d.ch c).cnt = (s.dev.ch c).cnt ∧
        d.flag (FB_STAT c) 9 = true ∧ d.flag (FB_STAT c) 0 = false ∧ d.flag (FB_STAT c) 1 = false ∧ OnlyCh c s.dev d)) ∧
     (s.dev.fbType c = 2 → ∀ i j : Fin 6, (s.dev.ch c).lvl = hallSeq i →
      (j = i + 1 → ∃ d, exec (.hallStep c (hallSeq j) ⟨held, ts⟩) s = .next { s with dev := d } ∧
        (d.ch c).cnt = counted inv true (s.dev.ch c).cnt ∧ (d.ch c).lastTs = ts ∧ OnlyCh c s.dev d) ∧
      (i = j + 1 → ∃ d, exec (.hallStep c (hallSeq j) ⟨held, ts⟩) s = .next { s with dev := d } ∧
        (d.ch c).cnt = counted inv false (s.dev.ch c).cnt ∧ (d.ch c).lastTs = ts ∧ OnlyCh c s.dev d) ∧
      (j ≠ i → j ≠ i + 1 → i ≠ j + 1 → ∃ d, exec (.hallStep c (hallSeq j) ⟨held, ts⟩) s = .next { s with dev := d } ∧
        (d.ch c).cnt = (s.dev.ch c).cnt ∧ d.flag (FB_STAT c) 10 = true ∧ OnlyCh c s.dev d) ∧
      ∀ w : BitVec 3, w = 0 ∨ w = 7 → ∃ d, exec (.hallStep c w ⟨held, ts⟩) s = .next { s with dev := d } ∧
        (d.ch c).cnt = (s.dev.ch c).cnt ∧ d.flag (FB_STAT c) 10 = true ∧ OnlyCh c s.dev d))

namespace Sys2Proof.Claims
open Sys2Proof
open Sys2Proof.Machine

/-- The MONO time of the last frame is over when the next frame of a serial channel would start (R141). -/
def recovered (d : Dev) (c : Fin 16) : Prop := (d.ch c).recover ≤ max d.now (serialInstant d c)

/-- A received frame passes: its field is v, of n bits; with AUTODLY its measured delay is at most 3,000 cycles (R142, R144). -/
def goodField (d : Dev) (c : Fin 16) (f : SerialFrame) (v n : Nat) : Prop :=
  (d.fbType c = 3 ∧ (d.flag (FB_SER c) 10 = true → f.delay ≤ 3000) ∧ ssiField d c f = some (v, n)) ∨
  (d.fbType c = 4 ∧ rsField d c f = some (v, n))

/-- A received frame fails. -/
def badField (d : Dev) (c : Fin 16) (f : SerialFrame) : Prop :=
  (d.fbType c = 3 ∧ (ssiField d c f = none ∨ (d.flag (FB_SER c) 10 = true ∧ 3000 < f.delay))) ∨
  (d.fbType c = 4 ∧ rsField d c f = none)

end Sys2Proof.Claims

open Sys2Proof Sys2Proof.Machine Sys2Proof.Claims in
/-- Serial channels: a frame starts unless one is in progress or the MONO time of the last one still runs, an RS-485 one with its
TXLEN request bytes; a good frame moves the counter by the shortest difference of the position field modulo 2^POSLEN; with
AUTODLY an SSI frame reports its delay, and one above 3,000 cycles fails it; a frame that fails, or a response that does not begin
in time, leaves the counter and sets SERR; no good frame for 4 ms clears SPDV and REF. The field of a plain SSI frame is its
POSLEN bits from POSMSB on, most significant first.
A sin/cos sample whose amplitude lies in its limits gives the position that joins its angle to the quadrant count, turned round
by INV (the model's choice, log entry 123), and the one taken at the edge is latched in Capture (R136); one outside them, or above
500 kHz, sets SCERR and counts nothing. -/
def Obligations.SerialAndSinCos : Prop :=
  ((∀ (c : Fin 16) (s : State), s.dev.pw.stopped = false →
     (s.dev.fbType c = 3 → (s.dev.ch c).inFrame = false →
       (recovered s.dev c → exec (.ssiFrameStart c) s =
         .next { s with dev := (s.dev.reach (serialInstant s.dev c)).setCh c { s.dev.ch c with inFrame := true } }) ∧
       (¬ recovered s.dev c → exec (.ssiFrameStart c) s = .next s)) ∧
     (s.dev.fbType c = 4 → (s.dev.ch c).inFrame = false →
       (recovered s.dev c → ∃ d, exec (.rs485Request c) s = .next { s with dev := d } ∧ (d.ch c).inFrame = true ∧
         (d.ch c).cnt = (s.dev.ch c).cnt ∧ d.regs = s.dev.regs ∧ OnlyCh c s.dev d ∧
         ∀ n, s.dev.fld (FB_RSFMT c) 4 0 = n → 1 ≤ n → n ≤ 16 →
           (d.ch c).req = ((List.range 4).flatMap (fun k => leBytes (s.dev.reg (FB_RSTX c k)).toNat 4)).take n) ∧
       (¬ recovered s.dev c → exec (.rs485Request c) s = .next s)) ∧
     ((s.dev.ch c).inFrame = true → exec (.ssiFrameStart c) s = .next s ∧ exec (.rs485Request c) s = .next s) ∧
     (∀ f v n, (s.dev.ch c).inFrame = true → goodField s.dev c f v n → (s.dev.ch c).fieldOk = true →
       ∃ d, exec (.serialFrameEnd c f) s = .next { s with dev := d } ∧
         (d.ch c).cnt = (s.dev.ch c).cnt + wordI (signed n (v + 2 ^ n - (s.dev.ch c).field.toNat % 2 ^ n)) ∧
         (d.ch c).field = word v ∧ (d.ch c).lastTs = f.ts ∧ (d.ch c).inFrame = false ∧ OnlyCh c s.dev d ∧
         (s.dev.fbType c = 3 → s.dev.flag (FB_SER c) 10 = true → d.reg (FB_SERDLY c) = word f.delay) ∧
         ∀ len dv, s.dev.fbType c = 3 → s.dev.fld (FB_SER c) 17 12 = len → s.dev.fld (FB_SER c) 9 0 = dv →
           1 ≤ len → len ≤ 48 → 10 ≤ dv → dv ≤ 1000 →
           (d.ch c).recover = s.dev.born + 2 * f.ts.toNat + len * (30 * dv) + 3000 * max 1 (s.dev.fld (FB_SER c) 23 18)) ∧
     (∀ f, (s.dev.ch c).inFrame = true → badField s.dev c f →
       ∃ d, exec (.serialFrameEnd c f) s = .next { s with dev := d } ∧ (d.ch c).cnt = (s.dev.ch c).cnt ∧
         d.flag (FB_STAT c) 11 = true ∧ (d.ch c).inFrame = false ∧ OnlyCh c s.dev d) ∧
     (s.dev.fbType c = 4 → (s.dev.ch c).inFrame = true → ∃ d, exec (.rs485Timeout c) s = .next { s with dev := d } ∧
       d.ch c = { s.dev.ch c with inFrame := false } ∧ d.flag (FB_STAT c) 11 = true ∧ OnlyCh c s.dev d) ∧
     ((s.dev.fbType c = 3 ∨ s.dev.fbType c = 4) → ∃ d, exec (.serialStaleTimeout c) s = .next { s with dev := d } ∧
       d.flag (FB_STAT c) 0 = false ∧ d.flag (FB_STAT c) 1 = false ∧ (d.ch c).cnt = (s.dev.ch c).cnt ∧ OnlyCh c s.dev d)) ∧
   (∀ (d : Dev) (c : Fin 16) (f : SerialFrame) (len msb n : Nat), f.framing = false → len ≤ 48 → 1 ≤ msb → 1 ≤ n → n ≤ 32 →
     msb + n ≤ len + 1 → bits (d.reg (FB_SER c)) 17 12 = len → bit (d.reg (FB_SER c)) 11 = false →
     d.reg (FB_SERFLD c) = word (msb + 4096 * n) → ssiField d c f = some (f.raw.toNat / 2 ^ (len + 1 - msb - n) % 2 ^ n, n))) ∧
  (∀ (c : Fin 16) (s : State) (sn cs : BitVec 14) (q : BitVec 32) (fast : Bool) (ts : DWord) (y x cp : Int),
     s.dev.pw.stopped = false → s.dev.fbType c = 5 → scCorrected s.dev c sn cs = (y, x, cp) →
     (fast = false → (s.dev.fld (FB_SCAMP c) 15 0 ^ 2 : Int) * (cp * cp * 2 ^ 30) ≤ y * y + x * x →
       y * y + x * x ≤ (s.dev.fld (FB_SCAMP c) 31 16 ^ 2 : Int) * (cp * cp * 2 ^ 30) →
       ∃ d, exec (.sincosSample c sn cs q fast ts) s = .next { s with dev := d } ∧
         (d.ch c).cnt = wordI ((if s.dev.flag (FB_CFG c) 11 then -1 else 1) *
           ((q.toInt - ((angle12 y x / 1024 : Nat) : Int) + 2).fdiv 4 * 4096 + angle12 y x)) + (s.dev.ch c).ofs ∧
         (d.ch c).lastTs = ts ∧ OnlyCh c s.dev d ∧
         (s.dev.tick.phase = .capture → takenAt s.dev s.dev.tick.edgeAt ts = true → (s.dev.ch c).taken = false →
           (d.ch c).pos = (d.ch c).cnt ∧ (d.ch c).ts = ts)) ∧
     ((fast = true ∨ y * y + x * x < (s.dev.fld (FB_SCAMP c) 15 0 ^ 2 : Int) * (cp * cp * 2 ^ 30) ∨
         (s.dev.fld (FB_SCAMP c) 31 16 ^ 2 : Int) * (cp * cp * 2 ^ 30) < y * y + x * x) →
       ∃ d, exec (.sincosSample c sn cs q fast ts) s = .next { s with dev := d } ∧ (d.ch c).cnt = (s.dev.ch c).cnt ∧
         d.flag (FB_STAT c) 12 = true ∧ d.flag (FB_STAT c) 0 = false ∧ OnlyCh c s.dev d))

open Sys2Proof Sys2Proof.Machine Sys2Proof.Claims in
/-- The commands of a channel: Z, once its level has held, records ZPOS, and under ZMODE 3, or 2 when armed, sets the counter to 0;
no edge for ZSTO µs gives SPD 0 and ZERO; at a committing edge SETPOS makes the counter SETVAL plus what it moved since Capture,
unless Z re-zeroed it in the same tick, REFSET sets REF and ZARM arms. A commanded change of TYPE is staged, and its commit resets
the channel.
A CAP edge of the chosen sense, once its level has held, takes the counter of a counting channel, and waits for the next frame or
sample of another; it takes the place of a result not yet latched, with LOVR (R158); CONT keeps the latch armed. No later frame of
a serial channel within 4 ms records an error; REARM readies the latch at a committing edge. -/
def Obligations.ChannelCommandsAndLatches : Prop :=
  (∀ (c : Fin 16) (s : State), s.dev.pw.stopped = false →
     (∀ held, (s.dev.fbType c = 1 ∨ s.dev.fbType c = 5) →
       (held ≤ s.dev.fld (FB_CFG c) 21 16 ∨ s.dev.fld (FB_CFG c) 13 12 = 0 → exec (.zEdge ⟨c, held⟩) s = .next s) ∧
       (s.dev.fld (FB_CFG c) 21 16 < held →
        (s.dev.fld (FB_CFG c) 13 12 = 1 ∨ (s.dev.fld (FB_CFG c) 13 12 = 2 ∧ (s.dev.ch c).zarm = false) →
          exec (.zEdge ⟨c, held⟩) s = .next { s with dev := s.dev.setCh c { s.dev.ch c with zpos := (s.dev.ch c).cnt } }) ∧
        (s.dev.fld (FB_CFG c) 13 12 = 3 ∨ (s.dev.fld (FB_CFG c) 13 12 = 2 ∧ (s.dev.ch c).zarm = true) →
          ∃ d, exec (.zEdge ⟨c, held⟩) s = .next { s with dev := d } ∧ (d.ch c).zpos = (s.dev.ch c).cnt ∧ (d.ch c).cnt = 0 ∧
            (d.ch c).rezero = true ∧ d.regs = s.dev.regs ∧ OnlyCh c s.dev d))) ∧
     ((s.dev.fbType c = 1 ∨ s.dev.fbType c = 2) → ∃ d, exec (.zeroSpeedTimeout c) s = .next { s with dev := d } ∧
       d.flag (FB_STAT c) 3 = true ∧ d.ch c = { s.dev.ch c with spd := 0 } ∧ OnlyCh c s.dev d) ∧
     (ticking s.dev = true →
       ((s.dev.ch c).rezero = false → ∃ d, exec (.setpos c) s = .next { s with dev := d } ∧
         (d.ch c).cnt = setVal s.dev c + ((s.dev.ch c).cnt - (s.dev.ch c).pos) ∧ d.regs = s.dev.regs ∧ OnlyCh c s.dev d) ∧
       ((s.dev.ch c).rezero = true → exec (.setpos c) s = .next s) ∧
       (∃ d, exec (.refset c) s = .next { s with dev := d } ∧
         SetsReg s.dev d (FB_STAT c) (setBit (s.dev.reg (FB_STAT c)) 1 true)) ∧
       exec (.zarm c) s = .next { s with dev := s.dev.setCh c { s.dev.ch c with zarm := true } }) ∧
     (∀ (p : HostPort) (v : Word), Holds p s → s.dev.mode = .commission →
       exec (.fbTypeChange p c v) s = .next { s with dev := stageHost (.host p) (.reg (FB_CFG c) v) s.dev }) ∧
     (∀ v : Word, bits v 2 0 ≤ 4 → bits v 2 0 ≠ s.dev.fbType c →
       (commitFbCfg c v s.dev).ch c = { FbCh.reset with zpos := (s.dev.ch c).zpos } ∧
       (commitFbCfg c v s.dev).fbType c = bits v 2 0)) ∧
  (∀ (j : Fin 8) (s : State) (ts : DWord) (c : Fin 16), s.dev.pw.stopped = false → s.dev.fld (FB_CAP j) 3 0 = c →
     (∀ (up : Bool) (held : Nat), (s.dev.latch j).armed = true →
       (s.dev.fld (FB_CAP j) 9 8 = 3 ∨ s.dev.fld (FB_CAP j) 9 8 = if up then 1 else 2) →
       (held ≤ s.dev.fld (FB_CAP j) 15 10 → exec (.capEdge j up ⟨held, ts⟩) s = .next s) ∧
       (s.dev.fld (FB_CAP j) 15 10 < held →
        ((s.dev.fbType c = 1 ∨ s.dev.fbType c = 2) → (s.dev.ch c).lastTs ≠ ts →
          ∃ d, exec (.capEdge j up ⟨held, ts⟩) s = .next { s with dev := d } ∧
            (d.latch j).result = some ((s.dev.ch c).cnt, ts, false) ∧
            (d.latch j).lovr = ((s.dev.latch j).lovr || (s.dev.latch j).result.isSome) ∧
            (d.latch j).armed = s.dev.flag (FB_CAP j) 7 ∧ d.regs = s.dev.regs ∧ Elsewhere s.dev d ∧
            ∀ k, k ≠ j → d.latch k = s.dev.latch k) ∧
        ((s.dev.fbType c = 3 ∨ s.dev.fbType c = 4 ∨ s.dev.fbType c = 5) →
          ∃ d, exec (.capEdge j up ⟨held, ts⟩) s = .next { s with dev := d } ∧ (d.latch j).waiting = some ts ∧
            (d.latch j).result = none ∧
            (d.latch j).lovr = ((s.dev.latch j).lovr || (s.dev.latch j).waiting.isSome || (s.dev.latch j).result.isSome) ∧
            (d.latch j).armed = s.dev.flag (FB_CAP j) 7 ∧ d.regs = s.dev.regs ∧ Elsewhere s.dev d ∧
            ∀ k, k ≠ j → d.latch k = s.dev.latch k))) ∧
     ((s.dev.latch j).waiting = some ts → (s.dev.fbType c = 3 ∨ s.dev.fbType c = 4) →
       exec (.latchTimeout j) s = .next { s with dev := (s.dev.setLatch j
         { s.dev.latch j with waiting := none, result := some (0, ts, true) }) }) ∧
     (ticking s.dev = true → exec (.rearm j) s = .next { s with dev := (s.dev.setLatch j
       { s.dev.latch j with armed := true, lvalid := false, lovr := false, lerr := false, result := none, waiting := none }) }))

namespace Sys2Proof.Claims
open Sys2Proof
open Sys2Proof.Machine

/-- Of the axes only axis n changes. -/
def OnlyAxis (n : Fin 16) (d e : Dev) : Prop := Elsewhere d e ∧ ∀ k, k ≠ n → e.axis k = d.axis k

/-- AX_ALERT stands on axis n with a cause, counted once more. -/
def Alerted (n : Fin 16) (cause : Nat) (d e : Dev) : Prop :=
  e.flag (AX_STAT n) 13 = true ∧ e.fld (AX_STAT n) 31 24 = cause ∧ (e.axis n).alerts = (d.axis n).alerts + 1

/-- The integer part of the commanded position at an offset into the running interval (R165, R174). -/
def commandedAt (d : Dev) (n : Fin 16) (ofs : Nat) : Word :=
  posInt (trajU d (d.axis n) (mkRat (min ofs d.tickLen) d.tickLen)).p

end Sys2Proof.Claims

open Sys2Proof Sys2Proof.Machine Sys2Proof.Claims in
/-- At a committing edge: EN = 1 in Run starts a servo axis at its channel's position and speed, and a step/direction axis without
feedback where it stands, as a blind start; a servo axis without feedback is refused with NOFB. EN = 0 stops the axis where it
stands, with v = 0 and a = 0, and its lane drives no more. QSTOP sets its control; modes 3 and 4 begin a gear or arm a cam, and are
refused with cause 10 where the master is not there. SEGPUSH on the lead of a group queues its members' segment where every path
keeps their limits and the queue has room, and is refused with cause 6 at 32; FLUSH empties the queue. At the end of a segment
the next one starts; without one the group is done where every end velocity is 0, its lead at rest at the segment's end or about to
come to rest there, and starves otherwise.
Filtered limit and home levels are taken for the next Capture; a step event brings the generator one step nearer to the
commanded position, and pulses on a step/direction axis, at least 2 STPHI cycles after the pulse before it (R174); the blind hold
ends. -/
def Obligations.Axes : Prop :=
  (∀ (n : Fin 16) (s : State),
     ticking s.dev = true →
     (s.dev.mode = .run → (s.dev.axis n).on = false →
       (s.dev.kind n = 1 → s.dev.flag (AX_CFG n) 27 = true → s.dev.fbType (axisCh s.dev n) ≠ 0 →
         (s.dev.lane n).badCar = false → laneEquipped s.dev n = true →
         ∃ d, exec (.axisEnable n) s = .next { s with dev := d } ∧ (d.axis n).on = true ∧
           (d.axis n).cur = ⟨posOfInt (s.dev.ch (axisCh s.dev n)).pos, startSpeed s.dev n 1, 0⟩ ∧
           d.flag (AX_CTRL n) 0 = true ∧ d.flag (CTL_STAT n) 9 = false ∧ OnlyAxis n s.dev d) ∧
       (s.dev.kind n = 3 → s.dev.flag (AX_CFG n) 27 = false → s.dev.flag (AX_CFG n) 7 = true →
         ∃ d, exec (.axisEnable n) s = .next { s with dev := d } ∧ (d.axis n).on = true ∧ (d.axis n).blind = true ∧
           (d.axis n).cur = (s.dev.axis n).cur.stopped ∧ d.flag (AX_CTRL n) 0 = true ∧ OnlyAxis n s.dev d) ∧
       (s.dev.kind n = 1 → s.dev.flag (AX_CFG n) 27 = false → axMode s.dev n ≠ 2 →
         ∃ d, exec (.axisEnable n) s = .next { s with dev := d } ∧ (d.axis n).on = false ∧ d.flag (AX_CTRL n) 0 = false ∧
           Alerted n 2 s.dev d ∧ OnlyAxis n s.dev d)) ∧
     (axMode s.dev n ≠ 2 → (axEn s.dev n = true ∨ (s.dev.axis n).on = true) →
       ∃ d, exec (.axisDisable n) s = .next { s with dev := d } ∧ (d.axis n).on = false ∧
         (d.axis n).cur = { (s.dev.axis n).cur with v := 0, a := 0 } ∧ (d.lane n).drive = false ∧
         d.reg (AX_CTRL n) = setBit (s.dev.reg (AX_CTRL n)) 0 false ∧ (∀ a, a ≠ AX_CTRL n → d.reg a = s.dev.reg a) ∧
         OnlyAxis n s.dev d)) ∧
  (∀ (n : Fin 16) (s : State),
     (ticking s.dev = true → ∃ d, exec (.qstop n) s = .next { s with dev := d } ∧
       SetsReg s.dev d (AX_CTRL n) (setBit (s.dev.reg (AX_CTRL n)) 4 true)) ∧
     (ticking s.dev = true → axMode s.dev n ≠ 2 → masterBad s.dev n = false →
       (axMode s.dev n ≠ 3 → ∃ d, exec (.gearMode n) s = .next { s with dev := d } ∧ axMode d n = 3 ∧
         (d.axis n).locked = false ∧ (d.axis n).armed = false ∧ (d.axis n).cur = (s.dev.axis n).cur ∧ OnlyAxis n s.dev d) ∧
       (axMode s.dev n ≠ 4 → ∃ d, exec (.camArm n) s = .next { s with dev := d } ∧ axMode d n = 4 ∧
         (d.axis n).locked = false ∧ (d.axis n).armed = true ∧ (d.axis n).cur = (s.dev.axis n).cur ∧ OnlyAxis n s.dev d)) ∧
     (ticking s.dev = true → masterBad s.dev n = true → axMode s.dev n ≠ 3 → axMode s.dev n ≠ 4 →
       (∃ d, exec (.gearMode n) s = .next { s with dev := d } ∧ axMode d n = axMode s.dev n ∧ Alerted n 10 s.dev d) ∧
       (∃ d, exec (.camArm n) s = .next { s with dev := d } ∧ axMode d n = axMode s.dev n ∧ Alerted n 10 s.dev d)) ∧
     (∀ p m h : Bool, s.dev.ready = true → exec (.limitInput n p m h) s =
       .next { s with dev := (s.dev.setAxis n { s.dev.axis n with limP := p, limN := m, home := h }) }) ∧
     (∀ ofs, (s.dev.axis n).on = true → s.dev.mode = .run → s.dev.halted = false →
       (commandedAt s.dev n ofs ≠ (s.dev.axis n).stepPos →
         ∃ d, exec (.stepPulse n ofs) s = .next { s with dev := d } ∧
           (d.axis n).stepPos = (if 0 < (commandedAt s.dev n ofs - (s.dev.axis n).stepPos).toInt
             then (s.dev.axis n).stepPos + 1 else (s.dev.axis n).stepPos - 1) ∧
           (d.axis n).pulses = (s.dev.axis n).pulses + (if s.dev.kind n = 3 then 1 else 0) ∧ OnlyAxis n s.dev d ∧
           (s.dev.kind n = 3 → ∃ t, (d.axis n).stepAt = some t ∧ s.dev.tick.edgeAt + min ofs s.dev.tickLen ≤ t ∧
             ∀ t0, (s.dev.axis n).stepAt = some t0 → t0 + 2 * stepHigh s.dev n ≤ t)) ∧
       (commandedAt s.dev n ofs = (s.dev.axis n).stepPos → exec (.stepPulse n ofs) s = .next s)) ∧
     exec (.blindHoldEnd n) s = .next { s with dev := (s.dev.setAxis n { s.dev.axis n with blind := false }) }) ∧
  ((∀ (n : Fin 16) (g : Fin 4) (s : State), ticking s.dev = true → ledBy s.dev n = some g →
     (∀ e, e = (members s.dev g).map (fun (m : Fin 16) => (m.val, s.dev.reg (AX_SEGPOS m), s.dev.reg (AX_SEGVEL m))) →
       (s.dev.group g).queue.length < 32 → 1 ≤ (s.dev.reg (AX_SEGDUR n)).toNat → (s.dev.reg (AX_SEGDUR n)).toNat ≤ 65535 →
       (∀ m, m ∈ members s.dev g → hermiteOk s.dev m (hermiteOf s.dev (s.dev.reg (AX_SEGDUR n)).toNat
         (pushStart s.dev (s.dev.group g) m) (s.dev.reg (AX_SEGPOS m), s.dev.reg (AX_SEGVEL m))) (s.dev.reg (AX_SEGVEL m)) = true) →
       exec (.segpush n) s = .next { s with dev := (s.dev.setGroup g { s.dev.group g with
         queue := (s.dev.group g).queue ++ [⟨(s.dev.reg (AX_SEGDUR n)).toNat, e⟩] }) }) ∧
     (32 ≤ (s.dev.group g).queue.length → ∃ d, exec (.segpush n) s = .next { s with dev := d } ∧ Alerted n 6 s.dev d ∧
       d.groups = s.dev.groups ∧ OnlyAxis n s.dev d) ∧
     exec (.flush n) s = .next { s with dev := (s.dev.setGroup g { s.dev.group g with queue := [] }) }) ∧
   (∀ (g : Fin 4) (s : State) sg c0 st, ticking s.dev = true → (s.dev.group g).running = some (sg, c0, st) → sg.dur ≤ (s.dev.tick.count - c0).toNat →
     (∀ nx t, (s.dev.group g).queue = nx :: t → ∃ d st', exec (.segmentEnd g) s = .next { s with dev := d } ∧
       d.group g = ⟨t, some (nx, s.dev.tick.count, st'), false⟩ ∧ d.regs = s.dev.regs ∧ Elsewhere s.dev d) ∧
     (∀ m, (s.dev.group g).queue = [] → leadOf s.dev g = some m →
       ((∀ e, e ∈ sg.ends → iSign e.2.2 = 0) → ∃ d, exec (.segmentEnd g) s = .next { s with dev := d } ∧
         (d.group g).running = none ∧ d.flag (AX_STAT m) 7 = true ∧ Elsewhere s.dev d ∧
         if (s.dev.axis m).cur.p = posOfInt (sg.endOf m).1 then (d.axis m).cur = (s.dev.axis m).cur.stopped
         else (d.axis m).settle = some (posOfInt (sg.endOf m).1)) ∧
       ((∃ e, e ∈ sg.ends ∧ iSign e.2.2 ≠ 0) → ∃ d, exec (.segmentEnd g) s = .next { s with dev := d } ∧
         (d.group g).running = none ∧ (d.group g).starved = true ∧ (d.axis m).halting = true ∧
         d.flag (AX_STAT m) 10 = true ∧ Alerted m 4 s.dev d ∧ Elsewhere s.dev d))))

namespace Sys2Proof.Claims
open Sys2Proof
open Sys2Proof.Machine

/-- Of the lanes only lane n changes. -/
def OnlyLane (n : Fin 16) (d e : Dev) : Prop := Elsewhere d e ∧ e.axes = d.axes ∧ ∀ k, k ≠ n → e.lane k = d.lane k

end Sys2Proof.Claims

open Sys2Proof Sys2Proof.Machine Sys2Proof.Claims in
/-- A pass of a servo lane in torque mode without law snippets: its current set-point is TQREQ clamped to ILIM, its velocity the
channel's, its position that of the sample instant; its duties wait for their apply instant. A pass of a chopper lane: its coil
angle follows the commanded position.
Between passes: a wanted chopper mode is forced after its 50 ms; compares that wait take effect at the carrier's valley while the
lane runs; an overrun of a pass or of a Trellis item abandons the tick with GUARD bit 6; over-current and a silent modulator trip every lane that maps the
channel. -/
def Obligations.ControlEngine : Prop :=
  (∀ (n : Fin 16) (b : PassBits) (s : State), passReady s.dev n = true → (∀ h, snippetOf s.dev n h = none) →
     (s.dev.kind n = 1 → lmode s.dev n 0 = true → (s.dev.lane n).spdvS = true → fSign (s.dev.reg (CTL_GAIN n 5)) = 0 →
       ∃ d, exec (.controlPass n b) s = .next { s with dev := d } ∧ (d.lane n).passes = (s.dev.lane n).passes + 1 ∧
         (d.lane n).vf = (s.dev.lane n).spdS ∧ (d.lane n).prevPm = (s.dev.lane n).pmS ∧ (d.lane n).next.isSome = true ∧
         (d.lane n).iqRef = (let l := s.dev.reg (CTL_GAIN n 6)
           fClamp (fClamp (lanePort s.dev n 0x58) (fNeg l) l) (fNeg l) l) ∧
         ((s.dev.lane n).passes = 0 → (d.lane n).ia = phaseCurrent s.dev n 0 b.ia ∧ (d.lane n).ib = phaseCurrent s.dev n 1 b.ib) ∧
         OnlyLane n s.dev d) ∧
     (s.dev.kind n = 2 → ∃ d, exec (.chopperPass n b) s = .next { s with dev := d } ∧
       (d.lane n).passes = (s.dev.lane n).passes + 1 ∧ (d.lane n).next.isSome = true ∧
       (d.lane n).prevPc = (trajAt s.dev (s.dev.axis n) (sampleQuarter s.dev n (s.dev.lane n).passes)).p ∧
       (d.lane n).theta = (((s.dev.lane n).theta + posDiff (d.lane n).prevPc (s.dev.lane n).prevPc).emod
         (coilTurn s.dev n)).toNat ∧ OnlyLane n s.dev d)) ∧
  ((∀ (n : Fin 16) (s : State),
     ((s.dev.lane n).wanted = true →
       exec (.chopperModeTimeout n) s = .next { s with dev := (s.dev.setLane n { s.dev.lane n with forced := true }) }) ∧
     (∀ v, (s.dev.lane n).wait = some v →
       (laneRuns s.dev n = true → exec (.carrierValley n) s =
         .next { s with dev := (s.dev.setLane n { s.dev.lane n with wait := none, load := v, drive := true }) }) ∧
       (laneRuns s.dev n = false → exec (.carrierValley n) s =
         .next { s with dev := (s.dev.setLane n { s.dev.lane n with wait := none, drive := false }) })) ∧
     (∀ src, ticking s.dev = true → (src = .lane n ∧ laneRuns s.dev n = true ∨
         ∃ g, src = .item g ∧ (s.dev.vg g).active.isSome = true) → s.dev.tick.phase ≠ .idle → s.dev.tick.stopWork = false →
       ∃ d, exec (.engineOverrun src) s = .next { s with dev := d } ∧ d.reg TCK_GUARD = 64 ∧
         d.tick = { s.dev.tick with stopWork := true, stopAt := s.dev.now, slipGuard := true } ∧ d.flag (EVT_STICKY 0) 3 = true)) ∧
   (∀ (c : Fin 24) (n : Fin 16) (s : State), mapsCh s.dev n c = true → s.dev.flag (CTL_STAT n) 9 = false →
     (∀ i : Word, fSign (s.dev.reg (CTL_OCLIM n)) ≠ 0 → fLt (s.dev.reg (CTL_OCLIM n)) (fAbs i) = true →
       ∃ d, exec (.overcurrentTrip c i) s = .next { s with dev := d } ∧ d.flag (CTL_STAT n) 4 = true ∧
         d.flag (CTL_STAT n) 9 = true ∧ (d.lane n).drive = false ∧ (d.lane n).tripped = true ∧ d.axes = s.dev.axes ∧
         Elsewhere s.dev d) ∧
     (∃ d, exec (.sdError c) s = .next { s with dev := d } ∧ d.flag (CTL_STAT n) 5 = true ∧ d.flag (CTL_STAT n) 9 = true ∧
       (d.lane n).drive = false ∧ d.flag CTL_SDSTAT c = true ∧ d.axes = s.dev.axes ∧ Elsewhere s.dev d)))

open Sys2Proof Sys2Proof.Machine Sys2Proof.Claims in
/-- The lane's tables and gains at a committing edge: FRSET, FRCLR, CGSET and CGCLR set and clear the learned flags; a table word writes its entry and
clears the table's learned flag; a gain is written, or ignored with CFGERR where R193 refuses it. -/
def Obligations.LaneTables : Prop :=
∀ (n : Fin 16) (s : State), ticking s.dev = true →
    (∃ d, exec (.frset n) s = .next { s with dev := d } ∧ SetsReg s.dev d (CTL_STAT n) (setBit (s.dev.reg (CTL_STAT n)) 10 true)) ∧
    (∃ d, exec (.frclr n) s = .next { s with dev := d } ∧ SetsReg s.dev d (CTL_STAT n) (setBit (s.dev.reg (CTL_STAT n)) 10 false)) ∧
    (∃ d, exec (.cgset n) s = .next { s with dev := d } ∧ SetsReg s.dev d (CTL_STAT n) (setBit (s.dev.reg (CTL_STAT n)) 11 true)) ∧
    (∃ d, exec (.cgclr n) s = .next { s with dev := d } ∧ SetsReg s.dev d (CTL_STAT n) (setBit (s.dev.reg (CTL_STAT n)) 11 false)) ∧
    (∀ v : Word, bit v 11 = true → bit v 10 = false → ∃ d, exec (.tableWrite n v) s = .next { s with dev := d } ∧
      frEntry d n (bits v 9 0) = bits v 23 16 ∧ d.flag (CTL_STAT n) 10 = false ∧
      (∀ i, i < 1024 → i ≠ bits v 9 0 → frEntry d n i = frEntry s.dev n i) ∧
      OnlyRegs s.dev d [CTL_FRTAB n (bits v 9 0 / 4), CTL_STAT n]) ∧
    (∀ v : Word, bit v 11 = true → bit v 10 = true → ∃ d, exec (.tableWrite n v) s = .next { s with dev := d } ∧
      cgEntry d n (bits v 9 0) = signed 16 (bits v 31 16) ∧ d.flag (CTL_STAT n) 11 = false ∧
      (∀ i, i < 1024 → i ≠ bits v 9 0 → cgEntry d n i = cgEntry s.dev n i) ∧
      OnlyRegs s.dev d [CTL_CGTAB n (bits v 9 0 / 2), CTL_STAT n]) ∧
    (∀ o (v : Word), isGain o = true → gainBad o v = false → ∃ d, exec (.gainWrite n o v) s = .next { s with dev := d } ∧
      SetsReg s.dev d (CTL_CFG n + o) v) ∧
    (∀ o (v : Word), isGain o = true → gainBad o v = true → ∃ d, exec (.gainWrite n o v) s = .next { s with dev := d } ∧
      d.flag (CTL_STAT n) 8 = true ∧ d.reg (CTL_CFG n + o) = s.dev.reg (CTL_CFG n + o))

namespace Sys2Proof.Claims
open Sys2Proof
open Sys2Proof.Machine

/-- Of the print ports only port p changes. -/
def OnlyPrt (p : Fin 2) (d e : Dev) : Prop := Elsewhere d e ∧ ∀ k, k ≠ p → e.prtp k = d.prtp k

/-- A job of a port as GO starts it with no index due. -/
def freshJob (d : Dev) (p : Nat) : Job := Machine.newJob (d.reg (PRT_JOBSTART p)) (d.fld (PRT_JOBROWS p) 15 0) (d.fld (PRT_RDIDX p) 15 0)

/-- Index r of a port fires: PHp_LAT rises within 2 print clocks and 16 core cycles (R219); a blank firing raises no strobe. -/
def Fires (d : Dev) (p : Fin 2) (r : Nat) (blank : Bool) (f : Firing) : Prop :=
  f.index = r ∧ f.blank = blank ∧ f.strobe = !blank ∧ f.own = true ∧ d.now ≤ f.at_ ∧
  f.at_ ≤ d.now + 2 * printClock (d.reg (PRT_CFG p)) + 32

/-- A job's next index is due in Run at a port, and no index waits there. -/
structure IndexReady (d : Dev) (p : Fin 2) (j : Job) : Prop where
  ready : d.ready = true
  active : (d.prtp p).active = some j
  more : j.next < jobTotal d p j
  due : dueAt d p j.next ≤ jobDist (d.prtp p) j
  run : d.mode = .run
  on_ : d.halted = false

end Sys2Proof.Claims

open Sys2Proof Sys2Proof.Machine Sys2Proof.Claims in
/-- At a committing edge GO starts a job on an idle port, queues one behind it, and refuses a third, or one without a feed, with
JOBERR; ABORT ends the active job and drops the queued one, with RDIDX past the job. DENWR and SLWWR write one entry of their
tables when their valid bit is 1, which leaves a shift that has begun as it is (R220), and nothing otherwise; a ratio is staged.
A row is copied into the FIFO, and one that was late is discarded (R221). In Run a due index with its rows fires once its slice 0
has been shifted, with the words of that shift (R219, R220), and otherwise waits with DELAYED; behind one that waits it is skipped
(R222); without its rows it fires blank, or ends the job under LATEACT = 1, and is counted (R221); with the head's fault level low
it is blank (R213). The waiting index fires when the firing before it and its shift are done; the end of a firing moves RDIDX on,
and with the last index the job is done; a low level of the head's fault pin ends its strobes.
An ECC error in a row's bytes raises event 224, or 225 as a Slip fault; that the row is fetched all the same is the model's
choice (log entry 112). -/
def Obligations.Printing : Prop :=
  (∀ (p : Fin 2) (s : State), ticking s.dev = true →
     (prtRingRows s.dev p ≠ 0 → s.dev.fld (PRT_JOBROWS p) 15 0 ≠ 0 → feedReady s.dev p = true → s.dev.flag (PRT_CFG p) 0 = true →
       (s.dev.prtp p).queued = none → shortest (s.dev.prtp p).pos (s.dev.reg (PRT_JOBSTART p)) < 0 →
       ((s.dev.prtp p).active = none →
         ∃ d, exec (.jobGo p) s = .next { s with dev := d } ∧
           d.prtp p = { s.dev.prtp p with active := some (freshJob s.dev p), shift := (d.prtp p).shift } ∧
           d.flag (PRT_STAT p) 2 = true ∧ d.flag (PRT_STAT p) 4 = true ∧ OnlyPrt p s.dev d) ∧
       ((s.dev.prtp p).active.isSome = true →
         ∃ d, exec (.jobGo p) s = .next { s with dev := d } ∧ d.prtp p = { s.dev.prtp p with
           queued := some { freshJob s.dev p with first := 0 }, shift := (d.prtp p).shift } ∧ d.flag (PRT_STAT p) 3 = true ∧
           OnlyPrt p s.dev d)) ∧
     (((s.dev.prtp p).queued.isSome = true ∨ feedReady s.dev p = false) →
       ∃ d, exec (.jobGo p) s = .next { s with dev := d } ∧ d.prt = s.dev.prt ∧ d.flag (PRT_STAT p) 11 = true ∧
         Elsewhere s.dev d) ∧
     (∀ j, (s.dev.prtp p).active = some j → ∃ d, exec (.jobAbort p) s = .next { s with dev := d } ∧
       (d.prtp p).active = none ∧ (d.prtp p).queued = none ∧ (d.prtp p).waiting = none ∧
       (d.prtp p).firing = (s.dev.prtp p).firing.map (fun f => { f with own := false }) ∧
       d.reg (PRT_RDIDX p) = word ((j.first + j.rows) % 65536) ∧ d.flag (PRT_STAT p) 2 = false ∧ OnlyPrt p s.dev d)) ∧
  (∀ (p : Fin 2) (s : State), rowAvailable s.dev p = true → (s.dev.prtp p).fifo.length < 16 →
     ((s.dev.prtp p).late.contains (s.dev.prtp p).fetch = true → ∀ err, ∃ d, exec (.rowFetch p err) s = .next { s with dev := d } ∧
       d.prtp p = { s.dev.prtp p with fetch := ((s.dev.prtp p).fetch + 1) % 65536, shift := (d.prtp p).shift } ∧
       d.regs = s.dev.regs ∧ OnlyPrt p s.dev d) ∧
     ((s.dev.prtp p).late.contains (s.dev.prtp p).fetch = false →
       (∃ d, exec (.rowFetch p none) s = .next { s with dev := d } ∧ d.prtp p = { s.dev.prtp p with
         fetch := ((s.dev.prtp p).fetch + 1) % 65536, shift := (d.prtp p).shift,
         fifo := (s.dev.prtp p).fifo ++ [((s.dev.prtp p).fetch, s.dev.sram.bytes
           ((s.dev.reg (PRT_RINGBASE p)).toNat + (s.dev.prtp p).fetch % prtRingRows s.dev p * rowBytes s.dev p)
           (rowBytes s.dev p))] } ∧ d.regs = s.dev.regs ∧ OnlyPrt p s.dev d) ∧
       (∀ err, ∃ d,
         exec (.rowFetch p err) s = .next { s with dev := d } ∧ (d.prtp p).fetch = ((s.dev.prtp p).fetch + 1) % 65536 ∧
         (d.prtp p).fifo.map Prod.fst = (s.dev.prtp p).fifo.map Prod.fst ++ [(s.dev.prtp p).fetch] ∧ d.sram = s.dev.sram ∧
         (∀ e : Sys2Proof.SramError, err = some e → s.dev.pw.stopped = false →
           (s.dev.reg (PRT_RINGBASE p)).toNat + (s.dev.prtp p).fetch % prtRingRows s.dev p * rowBytes s.dev p ≤ e.addr →
           e.addr < (s.dev.reg (PRT_RINGBASE p)).toNat + (s.dev.prtp p).fetch % prtRingRows s.dev p * rowBytes s.dev p +
             rowBytes s.dev p →
           d.flag (EVT_STICKY 7) (if e.uncorrectable then 1 else 0) = true ∧
           (e.uncorrectable = true → s.dev.tick.phase ≠ .idle → d.tick.stopWork = true ∧ d.tick.slipFault = true))))) ∧
  (∀ (p : Fin 2) (s : State),
     (∀ j, IndexReady s.dev p j →
       (headLow s.dev p = false → missingRows s.dev p j j.next = [] → (s.dev.prtp p).waiting = none →
         (∀ h, (s.dev.prtp p).firing = none → (s.dev.prtp p).shift = some h → h.done ≤ s.dev.now →
           ∃ d f, exec (.indexDue p) s = .next { s with dev := d } ∧ (d.prtp p).firing = some f ∧ Fires s.dev p j.next false f ∧
             f.den = h.den ∧ f.slw = h.slw ∧ f.rows = h.rows ∧
             (d.prtp p).active = some { j with next := j.next + 1, fired := j.fired + 1, last := some j.next } ∧
             (d.prtp p).lastDue = s.dev.stamp ∧ OnlyPrt p s.dev d) ∧
         (((s.dev.prtp p).firing.isSome = true ∨ shifted s.dev p false = false) →
           ∃ d, exec (.indexDue p) s = .next { s with dev := d } ∧ (d.prtp p).waiting = some (j.next, false) ∧
             (d.prtp p).firing = (s.dev.prtp p).firing ∧ d.flag (PRT_STAT p) 7 = true ∧ OnlyPrt p s.dev d)) ∧
       (∀ w, headLow s.dev p = false → missingRows s.dev p j j.next = [] → (s.dev.prtp p).waiting = some w →
         ∃ d, exec (.indexDue p) s = .next { s with dev := d } ∧ (d.prtp p).waiting = some w ∧
           d.reg (PRT_SKIPCNT p) = s.dev.reg (PRT_SKIPCNT p) + 1 ∧ d.flag (PRT_STAT p) 9 = true ∧ OnlyPrt p s.dev d) ∧
       ((headLow s.dev p = true ∨ missingRows s.dev p j j.next ≠ []) →
         (s.dev.flag (PRT_CFG p) 28 = false → (s.dev.prtp p).waiting = none → (s.dev.prtp p).firing = none →
           ∃ d f, exec (.indexDue p) s = .next { s with dev := d } ∧ (d.prtp p).firing = some f ∧ Fires s.dev p j.next true f ∧
             d.reg (PRT_LATECNT p) = s.dev.reg (PRT_LATECNT p) + 1 ∧ d.flag (PRT_STAT p) 8 = true ∧ OnlyPrt p s.dev d) ∧
         (s.dev.flag (PRT_CFG p) 28 = true → ∃ d, exec (.indexDue p) s = .next { s with dev := d } ∧ (d.prtp p).active = none ∧
           d.reg (PRT_LATECNT p) = s.dev.reg (PRT_LATECNT p) + 1 ∧ d.flag (PRT_STAT p) 8 = true ∧ OnlyPrt p s.dev d))) ∧
     (∀ r b, s.dev.ready = true → (s.dev.prtp p).waiting = some (r, b) → (s.dev.prtp p).firing = none → s.dev.mode = .run →
       s.dev.halted = false → headLow s.dev p = false →
       ∃ d f, exec (.delayedFiring p) s = .next { s with dev := d } ∧ (d.prtp p).waiting = none ∧
         (d.prtp p).firing = some f ∧ f.index = r ∧ f.blank = b ∧ f.strobe = !b ∧ f.own = true ∧
         f.at_ = max s.dev.now (shiftDone s.dev p b) ∧ OnlyPrt p s.dev d) ∧
     (∀ f j, s.dev.ready = true → (s.dev.prtp p).firing = some f → f.own = true → (s.dev.prtp p).active = some j →
       (s.dev.prtp p).waiting = none →
       (j.next < jobTotal s.dev p j → ∃ d, exec (.firingEnd p) s = .next { s with dev := d } ∧ (d.prtp p).firing = none ∧
         (d.prtp p).active = some j ∧
         d.reg (PRT_RDIDX p) = word ((j.first + min j.rows (j.next - maxOfs s.dev p)) % 65536) ∧ OnlyPrt p s.dev d) ∧
       (jobTotal s.dev p j ≤ j.next → (s.dev.prtp p).queued = none →
         ∃ d, exec (.firingEnd p) s = .next { s with dev := d } ∧ (d.prtp p).firing = none ∧ (d.prtp p).active = none ∧
           d.reg (PRT_RDIDX p) = word ((j.first + j.rows) % 65536) ∧ d.flag (PRT_STAT p) 13 = true ∧ OnlyPrt p s.dev d)) ∧
     (s.dev.ready = true → exec (.headFault p false) s =
       .next { s with dev := (s.dev.setPrt p { s.dev.prtp p with fltLow := false }) }) ∧
     (s.dev.ready = true → s.dev.flag (PRT_CFG p) 29 = true → (s.dev.prtp p).fltLow = false → ∃ d,
       exec (.headFault p true) s = .next { s with dev := d } ∧ d.flag (PRT_STAT p) 10 = true ∧
       d.prtp p = { s.dev.prtp p with
         fltLow := true, firing := (s.dev.prtp p).firing.map (fun f => { f with strobe := false }) } ∧ OnlyPrt p s.dev d)) ∧
  (∀ (p : Fin 2) (v : Word) (s : State), ticking s.dev = true →
     (bit v 31 = true → ∃ d, exec (.densityWrite p v) s = .next { s with dev := d } ∧
       d.fld (PRT_DEN p (4 * bits v 1 0 + bits v 5 2 / 4)) (8 * (bits v 5 2 % 4) + 7) (8 * (bits v 5 2 % 4)) = bits v 15 8 ∧
       (∀ a, a ≠ PRT_DEN p (4 * bits v 1 0 + bits v 5 2 / 4) → d.reg a = s.dev.reg a) ∧ OnlyPrt p s.dev d ∧
       (d.prtp p).firing = (s.dev.prtp p).firing ∧
       ∀ h, (s.dev.prtp p).shift = some h → h.start ≤ s.dev.now → (d.prtp p).shift = some h) ∧
     (bit v 31 = false → exec (.densityWrite p v) s = .next s) ∧
     (bit v 15 = true → ∃ d, exec (.sliceWidthWrite p v) s = .next { s with dev := d } ∧
       d.fld (PRT_SLW p (4 * bits v 1 0 + bits v 4 2 / 2)) (16 * (bits v 4 2 % 2) + 15) (16 * (bits v 4 2 % 2)) = bits v 31 16 ∧
       (∀ a, a ≠ PRT_SLW p (4 * bits v 1 0 + bits v 4 2 / 2) → d.reg a = s.dev.reg a) ∧ OnlyPrt p s.dev d ∧
       (d.prtp p).firing = (s.dev.prtp p).firing ∧
       ∀ h, (s.dev.prtp p).shift = some h → h.start ≤ s.dev.now → (d.prtp p).shift = some h) ∧
     (bit v 15 = false → exec (.sliceWidthWrite p v) s = .next s) ∧
     (∀ q : HostPort, Holds q s → s.dev.mode = .commission →
       exec (.ratioWrite q p v) s = .next { s with dev := stageHost (.host q) (.reg (PRT_RATIO p) v) s.dev }))

namespace Sys2Proof.Claims
open Sys2Proof
open Sys2Proof.Machine

/-- The pixel lines among the packets of a frame: those of the port's virtual channel and data type whose header can be read. -/
def frameLines (d : Dev) (p : Fin 2) (pk : List CsiPacket) : List CsiPacket :=
  pk.filter (fun k => !k.ecc && decide (d.fld (VIS_CSI_CFG p) 4 3 = k.vc.val) &&
    decide (d.fld (VIS_CSI_CFG p) 13 8 = k.dt.toNat))

/-- The lines are those of VIS_CSIp_SIZE. -/
def frameSized (d : Dev) (p : Fin 2) (pk : List CsiPacket) : Prop :=
  (frameLines d p pk).length = d.fld (VIS_CSI_SIZE p) 28 16 ∧
    ∀ k, k ∈ frameLines d p pk → k.width = d.fld (VIS_CSI_SIZE p) 12 0

end Sys2Proof.Claims

open Sys2Proof Sys2Proof.Machine Sys2Proof.Claims in
/-- Packets of a virtual channel that is not the port's, and all of a disabled port, are ignored. A camera frame takes the lowest
free buffer, which then holds the camera's pixels, or is dropped without one (NOBUF, DROPS); a whole frame waits for the DRAM
controller, a damaged one frees its buffer and is dropped with its causes (ECC, CRC, line length or count) and event 152 + p; the
controller's last line makes it ready, counted in FRAMES, with its Frame Start's timestamp. -/
def Obligations.CameraFrames : Prop :=
∀ (p : Fin 2) (s : State), s.dev.ready = true → s.dev.pw.stopped = false →
    (∀ (vc : Fin 4) (ts : DWord),
      ((s.dev.flag (VIS_CSI_CFG p) 0 = false ∨ s.dev.fld (VIS_CSI_CFG p) 4 3 ≠ vc.val) →
        exec (.frameStart p ⟨vc, ts⟩) s = .next { s with dev := s.dev.reachTs ts } ∧
        ∀ pk, exec (.frameEnd p ⟨vc, pk⟩) s = .next s) ∧
      (s.dev.flag (VIS_CSI_CFG p) 0 = true → s.dev.fld (VIS_CSI_CFG p) 4 3 = vc.val → (s.dev.rx p).recv = none →
        (∀ b, (List.range (s.dev.fld (VIS_CSI_CFG p) 19 16)).find? (fun b => !(heldBufs s.dev p).contains b) = some b →
          ∃ d, exec (.frameStart p ⟨vc, ts⟩) s = .next { s with dev := d } ∧ d.rx p = { s.dev.rx p with recv := some (ts, b) } ∧
            d.flag (VIS_CSI_STAT p) 6 = true ∧ d.dram = (openArea (csiPixels s.dev p b) s.dev).dram ∧
            d.areas = (openArea (csiPixels s.dev p b) s.dev).areas ∧
            d.sram = s.dev.sram ∧ d.cores = s.dev.cores ∧ d.tick = s.dev.tick) ∧
        ((∀ b, b < s.dev.fld (VIS_CSI_CFG p) 19 16 → (heldBufs s.dev p).contains b = true) →
          ∃ d, exec (.frameStart p ⟨vc, ts⟩) s = .next { s with dev := d } ∧ d.vis = s.dev.vis ∧
            d.flag (VIS_CSI_STAT p) 4 = true ∧ d.flag (EVT_STICKY 4) (24 + p) = true ∧
            d.reg (VIS_CSI_DROPS p) = s.dev.reg (VIS_CSI_DROPS p) + 1 ∧ Elsewhere s.dev d))) ∧
    (∀ (vc : Fin 4) pk f, s.dev.flag (VIS_CSI_CFG p) 0 = true → s.dev.fld (VIS_CSI_CFG p) 4 3 = vc.val →
      (s.dev.rx p).recv = some f →
      ((∀ k, k ∈ pk → k.ecc = false) → (∀ k, k ∈ frameLines s.dev p pk → k.crc = false) → frameSized s.dev p pk →
        ∃ d, exec (.frameEnd p ⟨vc, pk⟩) s = .next { s with dev := d } ∧
          d.rx p = { s.dev.rx p with recv := none, ended := (s.dev.rx p).ended ++ [f] } ∧ d.flag (VIS_CSI_STAT p) 6 = false ∧
          Elsewhere s.dev d) ∧
      ((∃ k, k ∈ pk ∧ k.ecc = true) ∨ (∃ k, k ∈ frameLines s.dev p pk ∧ k.crc = true) ∨ ¬ frameSized s.dev p pk →
        ∃ d, exec (.frameEnd p ⟨vc, pk⟩) s = .next { s with dev := d } ∧
          d.rx p = { s.dev.rx p with recv := none } ∧ d.reg (VIS_CSI_DROPS p) = s.dev.reg (VIS_CSI_DROPS p) + 1 ∧
          ((∃ k, k ∈ pk ∧ k.ecc = true) → d.flag (VIS_CSI_STAT p) 1 = true) ∧
          ((∃ k, k ∈ frameLines s.dev p pk ∧ k.crc = true) → d.flag (VIS_CSI_STAT p) 2 = true) ∧
          (¬ frameSized s.dev p pk → d.flag (VIS_CSI_STAT p) 3 = true) ∧ d.flag (EVT_STICKY 4) (24 + p) = true ∧
          Elsewhere s.dev d)) ∧
    (∀ ts b t, (s.dev.rx p).ended = (ts, b) :: t → ∃ d, exec (.frameReady p) s = .next { s with dev := d } ∧
      d.reg (VIS_CSI_FRAMES p) = s.dev.reg (VIS_CSI_FRAMES p) + 1 ∧
      d.rx p = { s.dev.rx p with ended := t, ready := (s.dev.rx p).ready ++ [⟨p, d.reg (VIS_CSI_FRAMES p), ts, b⟩] } ∧
      Elsewhere s.dev d)

open Sys2Proof Sys2Proof.Machine Sys2Proof.Claims in
/-- RUN = 1 starts a graph whose ports match its declaration and whose largest item the budget holds, and is refused with GERR
otherwise; RUN = 0 stops it without a result; QCYC 0 selects the header's value, a value below the largest item cost is refused;
CONFMIN is taken; FRTO ticks without a frame stage a header and close a missing result.
The hand-off ring: a published result gets its entry at HOFFWR, which moves on, unless the ring is full, which counts in
HOFFSKIP; an entry expires after HOFFHOLD ticks, with STATE 2 and event 155; a write of HOFFRD releases what was passed. -/
def Obligations.FrameGraphs : Prop :=
  (∀ (g : Fin 4) (gr : Graph) (s : State), ticking s.dev = true → graphOf s.dev g = some gr →
     ((s.dev.vg g).run = false →
       (gr.ports.all (portMatches s.dev gr) = true → gr.maxCost ≤ visBudget s.dev.period →
         ∃ d, exec (.graphRun g) s = .next { s with dev := d } ∧ (d.vg g).run = true ∧ (d.vg g).active = none ∧
           (d.vg g).fresh = true ∧ d.out (visPortAddr g 0x40) = 1 ∧ d.flag (VIS_G_STAT g) 0 = true ∧ Elsewhere s.dev d) ∧
       (visBudget s.dev.period < gr.maxCost → ∃ d, exec (.graphRun g) s = .next { s with dev := d } ∧ d.vis = s.dev.vis ∧
         d.flag (VIS_G_STAT g) 8 = true ∧ d.out (visPortAddr g 0x40) = 0 ∧ Elsewhere s.dev d)) ∧
     (∃ d, exec (.graphStop g) s = .next { s with dev := d } ∧
       d.vg g = { s.dev.vg g with run := false, slot := none, waitL := none, waitR := none, active := none } ∧
       d.flag (VIS_G_STAT g) 0 = false ∧ Elsewhere s.dev d) ∧
     (∃ d, exec (.qcycWrite g 0) s = .next { s with dev := d } ∧ d.reg (VIS_G_QCYC g) = word (gr.rd 0x24 4) ∧
       d.vis = s.dev.vis ∧ Elsewhere s.dev d) ∧
     (∀ v : Word, v ≠ 0 → gr.maxCost ≤ v.toNat → ∃ d, exec (.qcycWrite g v) s = .next { s with dev := d } ∧
       d.reg (VIS_G_QCYC g) = v ∧ d.vis = s.dev.vis ∧ Elsewhere s.dev d) ∧
     (∀ v : Word, v ≠ 0 → v.toNat < gr.maxCost → ∃ d, exec (.qcycWrite g v) s = .next { s with dev := d } ∧
       d.reg (VIS_G_QCYC g) = s.dev.reg (VIS_G_QCYC g) ∧ d.flag (VIS_G_STAT g) 8 = true ∧ Elsewhere s.dev d) ∧
     (∀ v : Word, exec (.confminWrite g v) s = .next { s with dev := s.dev.setOut (visPortAddr g 0x48) (v &&& 0x1FF) }) ∧
     ((s.dev.vg g).run = true → gr.frto ≠ 0 → gr.frto ≤ (s.dev.vg g).quiet → s.dev.tick.phase ≠ .idle → ∀ b,
       b = (match (s.dev.vg g).shown with | some b => (b + 1) % 2 | none => 0) →
       ∃ d, exec (.missingTimeout g) s = .next { s with dev := d } ∧ d.vg g = { s.dev.vg g with
           quiet := 0, closing := (s.dev.vg g).closing ++ [⟨true, (s.dev.vg g).lastSeq, 0, b, 0, none⟩] } ∧
         d.tick = (stageAt (s.dev.cycleAt s.dev.instant) .engine
             (.sram (gr.bankAddr b) 256 (leNat (bankHeader (s.dev.vg g).lastSeq 0 1 0 0 0 []))) s.dev).tick ∧
         d.regs = s.dev.regs ∧ d.sram = s.dev.sram)) ∧
  (∀ s : State,
     (∀ (g : Fin 4) (gr : Graph) h, ticking s.dev = true → graphOf s.dev g = some gr →
       s.dev.vis.todo.find? (fun x => decide (x.graph = g.val)) = some h →
       ((s.dev.fld VIS_HOFFWR 7 0 + 1) % hoffLen s.dev ≠ s.dev.fld VIS_HOFFRD 7 0 % hoffLen s.dev →
         ∃ d, exec (.handoffWrite g) s = .next { s with dev := d } ∧
           d.reg VIS_HOFFWR = word ((s.dev.fld VIS_HOFFWR 7 0 + 1) % hoffLen s.dev) ∧
           d.vis = { s.dev.vis with
             todo := s.dev.vis.todo.erase h,
             held := s.dev.vis.held ++ [⟨s.dev.fld VIS_HOFFWR 7 0, h.frame.port, h.frame.buf, s.dev.tick.count⟩] } ∧
           d.dram = (setDramBytes (hoffAddr s.dev (s.dev.fld VIS_HOFFWR 7 0)) (hoffEntry s.dev gr h) s.dev).dram ∧
           d.sram = s.dev.sram ∧ d.cores = s.dev.cores) ∧
       ((s.dev.fld VIS_HOFFWR 7 0 + 1) % hoffLen s.dev = s.dev.fld VIS_HOFFRD 7 0 % hoffLen s.dev →
         ∃ d, exec (.handoffWrite g) s = .next { s with dev := d } ∧ d.reg VIS_HOFFSKIP = s.dev.reg VIS_HOFFSKIP + 1 ∧
           d.vis = { s.dev.vis with todo := s.dev.vis.todo.erase h } ∧ d.reg VIS_HOFFWR = s.dev.reg VIS_HOFFWR ∧ Elsewhere s.dev d)) ∧
     (∀ i e, s.dev.vis.held.find? (fun x => decide (x.idx = i)) = some e → s.dev.pw.stopped = false →
       s.dev.fld VIS_HOFFCFG 31 16 ≤ (s.dev.tick.count - e.count).toNat →
       ∃ d, exec (.handoffExpiry i) s = .next { s with dev := d } ∧ d.vis = { s.dev.vis with held := s.dev.vis.held.erase e } ∧
         d.dram = (setDramBytes (hoffAddr s.dev i + 5) [2] s.dev).dram ∧ d.flag (EVT_STICKY 4) 27 = true) ∧
     (∀ (p : HostPort) (v : Word), Holds p s → ∃ d, exec (.hoffrdWrite p v) s = .next { s with dev := d } ∧
       d.reg VIS_HOFFRD = v &&& 0xFF ∧ d.vis.todo = s.dev.vis.todo ∧ (∀ e, e ∈ d.vis.held → e ∈ s.dev.vis.held) ∧
       (d.fld VIS_HOFFRD 7 0 % hoffLen d = d.fld VIS_HOFFWR 7 0 % hoffLen d → d.fld VIS_HOFFWR 7 0 < hoffLen d →
         d.vis.held = [])))

open Sys2Proof Sys2Proof.Machine Sys2Proof.Claims in
/-- TREE.RUN on a loaded slot, with its vectors inside local data memory and its node data good, writes the model's result
words from g[rb] and goes on; every other byte and every register stands (R66). On an empty slot it writes the status word 4,
sets bit 1 of TRE_STAT and raises event 161.
The engine works for the lowest-numbered core: an invocation begins at its issue where no invocation of the tick is of a
lower-numbered core, and takes 1 to 2 + C cycles; behind one of a lower-numbered core still running it begins at that one's end.
A tree model load starts with the committed LOADCMD, or shows BUSY31 while one runs; its end shows the lowest code that
refuses the model, or leaves the accepted model for the next committing edge, which fills its slot. -/
def Obligations.Trees : Prop :=
  (∀ (o : Lim) (s : State), Executes o s → rdOf o = 0 →
     (∀ m, (fetched o s).trees.slots[Fin.ofNat 32 (fnOf o)] = some m → o.data = .ok →
       ((from_ o s).gr (raOf o)).toNat / 4 * 4 + 4 * m.nin ≤ 0x20000 →
       ((from_ o s).gr (rbOf o)).toNat / 4 * 4 + 4 * (1 + m.nout) ≤ 0x20000 →
       ∃ t ws nan, exec (.treeRun o) s = .next t ∧
         (ws, nan) = treeResult m (Config.freeWord (fetched o s).freeCtr).toNat
           (fun i => (smGet dword0 s.dev.trees.store (m.base + i)).toNat)
           (fun i => (from_ o s).dmem.word (((from_ o s).gr (raOf o)).toNat / 4 * 4 + 4 * i)) ∧
         (t.dev.core o.core).dmem = putWords (from_ o s).dmem (((from_ o s).gr (rbOf o)).toNat / 4 * 4) ws ∧
         SameRegs (from_ o s) (t.dev.core o.core) ∧ (t.dev.core o.core).pc = (from_ o s).pc + 1 ∧
         (from_ o s).cyc + 1 ≤ (t.dev.core o.core).cyc ∧
         ((∀ r ∈ s.dev.trees.runs, o.core.val < r.core) → ∃ n, 1 ≤ n ∧ n ≤ 2 + m.cost ∧
           (t.dev.core o.core).cyc = (from_ o s).cyc + stallOf (from_ o s) [kg (raOf o), kg (rbOf o)] + n) ∧
         (∀ r, s.dev.trees.runs = [r] → r.core < o.core.val → r.ends = r.at_ + r.work →
           r.at_ ≤ (from_ o s).cyc + stallOf (from_ o s) [kg (raOf o), kg (rbOf o)] →
           (from_ o s).cyc + stallOf (from_ o s) [kg (raOf o), kg (rbOf o)] < r.ends →
           ∃ n, 1 ≤ n ∧ n ≤ 2 + m.cost ∧ (t.dev.core o.core).cyc = r.ends + n)) ∧
     ((fetched o s).trees.slots[Fin.ofNat 32 (fnOf o)] = none →
       ((from_ o s).gr (rbOf o)).toNat / 4 * 4 + 4 ≤ 0x20000 → ((from_ o s).gr (raOf o)).toNat / 4 * 4 ≤ 0x20000 →
       ∃ t, exec (.treeRun o) s = .next t ∧
         (t.dev.core o.core).dmem = (from_ o s).dmem.setWord (((from_ o s).gr (rbOf o)).toNat / 4 * 4) 4 ∧
         t.dev.flag TRE_STAT 1 = true ∧ (s.dev.pw.stopped = false → t.dev.flag (EVT_STICKY 5) 1 = true) ∧
         SameRegs (from_ o s) (t.dev.core o.core) ∧ (t.dev.core o.core).pc = (from_ o s).pc + 1)) ∧
  (∀ s : State,
     (ticking s.dev = true → s.dev.trees.loading = none → ∃ d, exec .treeLoad s = .next { s with dev := d } ∧
       d.trees = { s.dev.trees with
         loading := some ⟨bits (s.dev.out 0x218C) 8 4, bit (s.dev.out 0x218C) 1, (s.dev.reg TRE_LDADDR).toNat, (s.dev.reg TRE_LDLEN).toNat,
          s.dev.fld TRE_LDBASE 17 0⟩ } ∧ d.fld TRE_LDSTAT 1 0 = 1 ∧ d.fld TRE_LDSTAT 15 8 = 0 ∧ d.sram = s.dev.sram) ∧
     (ticking s.dev = true → s.dev.trees.loading.isSome = true → ∃ d, exec .treeLoad s = .next { s with dev := d } ∧
       SetsReg s.dev d TRE_LDSTAT (setBit (s.dev.reg TRE_LDSTAT) 31 true)) ∧
     (∀ ld ue code, s.dev.trees.loading = some ld → s.dev.trees.accepted = none → loadCheck s.dev ld ue = .inl code →
       ∃ d, exec (.treeLoadEnd ue) s = .next { s with dev := d } ∧ d.trees = { s.dev.trees with loading := none } ∧
         d.fld TRE_LDSTAT 1 0 = 3 ∧ d.fld TRE_LDSTAT 15 8 = code ∧ d.sram = s.dev.sram) ∧
     (∀ ld ue m, s.dev.trees.loading = some ld → s.dev.trees.accepted = none → loadCheck s.dev ld ue = .inr m →
       ∃ d, exec (.treeLoadEnd ue) s = .next { s with dev := d } ∧ d.trees.accepted = some (ld.slot, m) ∧
         d.trees.slots = s.dev.trees.slots ∧ d.regs = s.dev.regs) ∧
     (∀ (i : Fin 32) m, s.dev.trees.accepted = some (i.val, m) → (modelPlace s.dev).trees.slots = s.dev.trees.slots.set i (some m) ∧
       (modelPlace s.dev).trees.loading = none ∧ (modelPlace s.dev).fld TRE_LDSTAT 1 0 = 2 ∧
       (modelPlace s.dev).flag TRE_LOADED i = true ∧ (modelPlace s.dev).reg (TRE_S_ID i) = m.id))

open Sys2Proof Sys2Proof.Machine Sys2Proof.Claims in
/-- LIM_LOADCMD by the holder in Commission starts a verification of the image it names, and is refused with bit 31 and event 25
outside Commission; the end of a verification accepts the image for the next edge, or shows its code, with events 23 and 24.
A cart to DRAM ends with its lines written and its done flag; one in error writes nothing and sets the error flag too; the
lines of a cart from DRAM wait, once arrived, for the next committing edge, which writes them into tick SRAM.
An ECC error in the source lines raises event 224, or 225 as a Slip fault; that the cart is done all the same is the model's
choice (log entry 112). -/
def Obligations.ImagesAndCarts : Prop :=
  ((∀ (p : HostPort) (v : Word) (s : State), Holds p s →
     (s.dev.mode = .commission → loading s.dev = false → bit v 0 = true →
       ∃ d, exec (.loadCommand p v) s = .next { s with dev := d } ∧ d.fld LIM_LDSTAT 1 0 = 1 ∧ d.fld LIM_LDSTAT 15 8 = 0 ∧
         d.loader = { s.dev.loader with
           fromCel := bit v 1, addr := (s.dev.reg LIM_IMGADDR).toNat, len := (s.dev.reg LIM_IMGLEN).toNat, changed := false } ∧
         OnlyRegs { s.dev with loader := d.loader } d [LIM_LDSTAT]) ∧
     (s.dev.mode ≠ .commission → ∃ d, exec (.loadCommand p v) s = .next { s with dev := d } ∧ d.flag LIM_LDSTAT 31 = true ∧
       d.flag (EVT_STICKY 0) 25 = true ∧ d.loader = s.dev.loader ∧ Elsewhere s.dev d)) ∧
   (∀ (s : State) bs, loading s.dev = true → s.dev.pw.stopped = false → s.dev.loader.changed = false → loadSource s.dev = some bs →
     (RawImage.code_ ⟨bs⟩ (decide (s.dev.dramSz ≠ 0)) = 0 → ∃ d, exec .loadVerifyEnd s = .next { s with dev := d } ∧
       d.loader = { s.dev.loader with next := some (RawImage.image ⟨bs⟩) } ∧ d.fld LIM_LDSTAT 1 0 = 2 ∧
       d.fld LIM_LDSTAT 15 8 = 0 ∧ d.flag (EVT_STICKY 0) 23 = true) ∧
     (∀ c, RawImage.code_ ⟨bs⟩ (decide (s.dev.dramSz ≠ 0)) = c → c ≠ 0 → c < 256 →
       ∃ d, exec .loadVerifyEnd s = .next { s with dev := d } ∧ d.loader = s.dev.loader ∧ d.fld LIM_LDSTAT 1 0 = 3 ∧
         d.fld LIM_LDSTAT 15 8 = c ∧ d.flag (EVT_STICKY 0) 24 = true)) ∧
   (∀ (d : Dev) (im : Image), d.loader.next = some im → (imageTake d).loader.image = some im ∧ (imageTake d).loader.next = none ∧
     ∀ k : Fin 6, (imageTake d).core k = coreOfImage im k)) ∧
  (∀ (k : Fin 6) (i : Fin 64) (s : State) x rest,
     (takeCart (fun x => x.of k i && (x.toDram || x.bad)) s.dev.carts = some (x, rest) →
       (x.bad = false → ∃ d, exec (.cartDone k i none) s = .next { s with dev := d } ∧ d.carts = rest ∧
         d.dram = (setDramBytes x.dAddr x.data s.dev).dram ∧
         d.core k = { s.dev.core k with done := (s.dev.core k).done ||| BitVec.ofNat 64 (2 ^ i.val) } ∧
         (∀ j, j ≠ k → d.core j = s.dev.core j) ∧ d.sram = s.dev.sram ∧ d.regs = s.dev.regs ∧ d.tick = s.dev.tick) ∧
       (x.bad = false → ∀ err, ∃ d, exec (.cartDone k i err) s = .next { s with dev := d } ∧ d.carts = rest ∧
         d.sram = s.dev.sram ∧
         d.core k = { s.dev.core k with done := (s.dev.core k).done ||| BitVec.ofNat 64 (2 ^ i.val) } ∧
         (∀ e : Sys2Proof.SramError, err = some e → x.sAddr ≤ e.addr → e.addr < x.sAddr + 64 * x.lines →
           s.dev.pw.stopped = false → d.flag (EVT_STICKY 7) (if e.uncorrectable then 1 else 0) = true ∧
             (e.uncorrectable = true → s.dev.tick.phase ≠ .idle → d.tick.stopWork = true ∧ d.tick.slipFault = true) ∧
             (e.uncorrectable = false → d.dram = (setDramBytes x.dAddr x.data s.dev).dram ∧ d.tick = s.dev.tick))) ∧
       (x.bad = true → ∀ err, ∃ d, exec (.cartDone k i err) s = .next { s with dev := d } ∧ d.carts = rest ∧ d.dram = s.dev.dram ∧
         d.core k = { s.dev.core k with
           done := (s.dev.core k).done ||| BitVec.ofNat 64 (2 ^ i.val), err := (s.dev.core k).err ||| BitVec.ofNat 64 (2 ^ i.val) } ∧
         (∀ j, j ≠ k → d.core j = s.dev.core j) ∧ d.sram = s.dev.sram ∧ d.regs = s.dev.regs ∧ d.tick = s.dev.tick)) ∧
     (takeCart (fun x => x.of k i && !x.toDram && !x.bad && !x.arrived) s.dev.carts = some (x, rest) →
       exec (.cartLanding k i) s = .next { s with dev := { s.dev with carts :=
         rest ++ [{ x with arrived := true, data := s.dev.dramBytes x.dAddr (64 * x.lines) }] } }) ∧
     (∀ d : Dev, d.carts = [x] → x.arrived = true → (cartsLand d).carts = [] ∧
       (cartsLand d).sram = d.sram.setBytes x.sAddr x.data))

namespace Sys2Proof.Claims
open Sys2Proof
open Sys2Proof.Machine

/-- Nothing but a request can change the mode at this edge: the tick runs, no Hold cause has arisen, RUNOK stands. -/
structure Calm (s : State) : Prop where
  ticks  : ticking s.dev = true
  fault  : s.dev.holdReq = false
  link   : s.dev.out linkLostMark = 0
  demand : hrnDemand s.snap = false
  runOk  : runOk s.dev = true

end Sys2Proof.Claims

open Sys2Proof Sys2Proof.Machine Sys2Proof.Claims in
/-- Mode requests where no Hold cause has arisen: Run from Commission or Hold when an image is in force, its period fits, no
HOLDCAUSE of the Harness or of a fault stands and the Harness link is up; without an image refused with code 2; Hold from Run;
Commission from Hold, which clears TDL_STAT.SETV (R282); Trim from Commission or Hold with its ORIGIN; Trim from Run is refused with code 8. -/
def Obligations.ModeRequests : Prop :=
∀ s : State, Calm s →
    ((s.dev.mode = .commission ∨ s.dev.mode = .hold) →
      (s.dev.loader.image.isSome = true → (s.dev.reg LIM_MINPER).toNat ≤ s.dev.period → s.dev.flag SYS_HOLDCAUSE 2 = false →
        s.dev.flag SYS_HOLDCAUSE 3 = false → s.dev.flag SYS_HOLDCAUSE 4 = false → s.dev.hrnLink = true →
        ∃ d, exec (.modeRequest 2) s = .next { s with dev := d } ∧ d.mode = .run ∧ d.cores = s.dev.cores ∧ d.sram = s.dev.sram ∧
          d.axes = s.dev.axes) ∧
      (s.dev.loader.image = none → ∃ d, exec (.modeRequest 2) s = .next { s with dev := d } ∧ d.mode = s.dev.mode ∧
        d.flag SYS_MSTAT 8 = true ∧ d.fld SYS_MSTAT 3 0 = 2) ∧
      (∃ d, exec (.modeRequest 4) s = .next { s with dev := d } ∧ d.mode = .trim ∧ d.origin = s.dev.mode)) ∧
    (s.dev.mode = .hold → ∃ d, exec (.modeRequest 1) s = .next { s with dev := d } ∧ d.mode = .commission ∧
      d.flag TDL_STAT 2 = false ∧ (∀ a, a ≠ TDL_STAT → d.reg a = s.dev.reg a) ∧ d.cores = s.dev.cores) ∧
    (s.dev.mode = .run →
      (∃ d, exec (.modeRequest 3) s = .next { s with dev := d } ∧ d.mode = .hold ∧ d.flag SYS_HOLDCAUSE 0 = true ∧
        ∀ n : Fin 16, (d.axis n).on = false ∧ (d.axis n).cur = (s.dev.axis n).cur ∧ (d.lane n).drive = false) ∧
      (∃ d, exec (.modeRequest 4) s = .next { s with dev := d } ∧ d.mode = .run ∧ d.flag SYS_MSTAT 8 = true ∧
        d.fld SYS_MSTAT 3 0 = 8 ∧ d.flag (EVT_STICKY 7) 10 = true))

open Sys2Proof Sys2Proof.Machine Sys2Proof.Claims in
/-- A reset of the main die: a low pulse of RST_N of 1 µs or more, a fall of PGOOD, and a software reset by the holder. Registers
and memories of the die return to their reset state; DRAM, the Cellar's cells and the three other dies keep theirs; RSTCAUSE
names the source.
START_UP runs the steps of R124 in their order: the fuse bank, the journal's replay, DRAM training at RATE or the next lower
rate that trains, READY with Commission, and the image boot unless BOOT0 forbids it. -/
def Obligations.ResetsAndStartUp : Prop :=
  ((∀ (s : State) (x : Straps) (ns : Nat), 1000 ≤ ns → exec (.rstNPulse ns x) s =
     .next { s with dev := mainReset rstPin x.boot x.hostA x.hostB s.dev, snap := mainReset rstPin x.boot x.hostA x.hostB s.dev }) ∧
   (∀ (s : State) (x : Straps), exec (.pgoodFall x) s = .next { s with
     dev := mainReset rstPower x.boot x.hostA x.hostB s.dev, snap := mainReset rstPower x.boot x.hostA x.hostB s.dev }) ∧
   (∀ (p : HostPort) (v : Word) (s : State), Holds p s → bits v 31 24 = 0xA5 → bit v 0 = true →
     exec (.softwareReset p v) s = .next { s with
       dev := mainReset rstSoft s.dev.boot s.dev.pa.pcie s.dev.pb.pcie s.dev,
       snap := mainReset rstSoft s.dev.boot s.dev.pa.pcie s.dev.pb.pcie s.dev }) ∧
   (∀ (cause : Nat) (b : BitVec 2) (ha hb : Bool) (d e : Dev), e = mainReset cause b ha hb d →
     e.sram = [] ∧ e.cores = Dev.reset.cores ∧ e.tick = Tick.reset ∧ e.ready = false ∧ e.mode = .startUp ∧ e.halted = false ∧
     e.fu = FaultUnit.reset ∧ e.reins.holder = none ∧ e.loader = Dev.reset.loader ∧
     e.dram = d.dram ∧ e.cel.array = d.cel.array ∧ e.cel.durable = d.cel.durable ∧ e.field.isl = d.field.isl ∧
     e.reg SYS_RSTCAUSE = word cause ∧ e.reg SYS_BOOTSTAT = b.setWidth 32 ∧ e.reg DRM_CFG = d.reg DRM_CFG ∧
     ∀ a, a ≠ SYS_RSTCAUSE → a ≠ SYS_BOOTSTAT → a ≠ DRM_CFG → e.reg a = regReset a)) ∧
  ((∀ (env : StartEnv) (s : State), s.dev.ready = false → s.dev.halted = false → ∃ t, exec (.startUp env) s = .next t ∧
     t.snap = t.dev ∧ t.dev = (
       let d := readyStep (dramStep env.dramSz.toNat env.trains (replayStep env.journalBad (fuseRead s.dev)))
       let d := if env.clk32k then d else fault 11 .degrade 0 d
       if bit d.boot 0 then d else loadStart true d)) ∧
   (∀ (d : Dev) i, i < 8 → (fuseRead d).reg (SYS_KEYHASH i) = Config.keyHash i) ∧
   (∀ (d : Dev) (sz : Nat) (tr : List (Fin 5)) (r : Nat), 1 ≤ sz → sz ≤ 4 → r ≤ d.fld DRM_CFG 2 0 → (∃ x ∈ tr, x.val = r) →
     (∀ x ∈ tr, x.val ≤ d.fld DRM_CFG 2 0 → x.val ≤ r) → (dramStep sz tr d).dramSz = sz ∧ (dramStep sz tr d).reg DRM_STAT = word (r + 8)) ∧
   (∀ (d : Dev) (tr : List (Fin 5)), dramStep 0 tr d = d))

open Sys2Proof Sys2Proof.Machine Sys2Proof.Claims in
/-- A stopped device wakes on an enabled cause: the stop ends, SYS_WAKECAUSE shows it, TCK_COUNT moves on by the periods that
passed, and event 8 is raised; the wake timer asks for it after WAKETMR periods of 32.768 kHz. A Harness link loss, also of a link
that never stood, sets HRNLINK and asks the next edge for Hold; the fall of a link that stood raises event 140, and a loss that
stands recorded changes nothing. -/
def Obligations.WakeAndLinkLoss : Prop :=
(∀ (w : WakeSet) (n : Nat) (s : State) (c : BitVec 6), s.dev.pw.stopped = true →
    c = (wakeBits w ||| s.dev.pw.wakeReq) &&& wakeEnabled s.dev → c ≠ 0 →
    ∃ d, exec (.wake w n) s = .next { s with dev := d } ∧ d.pw.stopped = false ∧ d.pw.lastWake = c ∧ d.pw.awake = some 0 ∧
      d.reg SYS_WAKECAUSE = c.setWidth 32 ∧ d.flag (EVT_STICKY 0) 8 = true ∧
      d.tick.count = s.dev.tick.count + BitVec.ofNat 64 (max n (s.dev.now - s.dev.tick.edgeAt) / s.dev.period) ∧
      d.now = max s.dev.now (s.dev.tick.edgeAt + 2 * (max n (s.dev.now - s.dev.tick.edgeAt) / 2)) ∧ d.sram = s.dev.sram) ∧
  (∀ s : State, s.dev.pw.stopped = true → s.dev.fld SYS_WAKETMR 23 0 ≠ 0 → s.dev.flag SYS_WAKEEN 3 = true →
    exec .wakeTimerExpiry s = .next { s with dev := { s.dev with
      now := max s.dev.now (s.dev.tick.edgeAt + s.dev.fld SYS_WAKETMR 23 0 * 3000000000 / 32768),
      pw := { s.dev.pw with wakeReq := s.dev.pw.wakeReq ||| 8 } } }) ∧
  (∀ s : State, s.dev.ready = true →
    ((s.dev.hrnLink = true ∨ s.dev.flag SYS_HOLDCAUSE 3 = false) →
      ∃ d, exec .harnessLinkLoss s = .next { s with dev := d } ∧
        d.hrnLink = false ∧ d.flag SYS_HOLDCAUSE 3 = true ∧ d.out linkLostMark = 1 ∧
        (s.dev.hrnLink = true → d.flag HRN_STAT 31 = false) ∧
        (s.dev.hrnLink = true → s.dev.pw.stopped = false → d.flag (EVT_STICKY 4) 12 = true) ∧ Elsewhere s.dev d) ∧
    (s.dev.hrnLink = false → s.dev.flag SYS_HOLDCAUSE 3 = true → exec .harnessLinkLoss s = .next s))

namespace Sys2Proof.Claims
open Sys2Proof
open Sys2Proof.Machine

/-- The island is powered, above its undervoltage threshold, and holds a configuration. -/
structure IslandUp (x : Island) : Prop where
  powered : x.powered = true
  uv      : x.uv = false
  cfg     : x.cfg.isSome = true

end Sys2Proof.Claims

open Sys2Proof Sys2Proof.Machine Sys2Proof.Claims in
/-- The edge frame: COMMIT applies the buffered image in the mode it names, with the configuration that arrived whole, ABANDON
discards the image, and both are acknowledged; a corrupt frame, and one to an island without power, discards it and counts. The
acknowledgement sets LINK; a heartbeat of a stopped tick keeps the island from silence and changes nothing else.
The configuration: SEND by the holder in Commission gives the island the mirror's words for its next COMMIT; the mirror
resends them when a linked island reports none. A committed DFCLR releases latched-off channels and RESUME ends SAFE. -/
def Obligations.FieldFramesAndConfiguration : Prop :=
  (∀ s : State, s.dev.isl.powered = true →
     (∀ m ok, s.dev.field.frame = some (true, m) → ∃ d, exec (.islandEdgeFrame ⟨true, ok⟩) s = .next { s with dev := d } ∧
       d.field.frame = none ∧ d.field.ackDue = true ∧ d.isl.beat = s.dev.now ∧ d.isl.mode = m ∧ d.isl.image = none ∧
       (∀ im, s.dev.isl.image = some im → d.isl.dout = im.dout ∧
         (m = .run → ∀ j : Fin 4, d.isl.ao[j].word = im.ao[j])) ∧
       d.isl.cfg = (if ok = true ∧ s.dev.isl.newCfg.isSome = true then s.dev.isl.newCfg else s.dev.isl.cfg) ∧
       Elsewhere s.dev d) ∧
     (∀ m ok, s.dev.field.frame = some (false, m) → ∃ d, exec (.islandEdgeFrame ⟨true, ok⟩) s = .next { s with dev := d } ∧
       d.field.frame = none ∧ d.field.ackDue = true ∧
       d.isl = { s.dev.isl with beat := s.dev.now, newCfg := if ok then s.dev.isl.newCfg else none, image := none } ∧
       d.regs = s.dev.regs ∧ Elsewhere s.dev d)) ∧
  (∀ s : State,
     (∀ f ok crcOk, s.dev.field.frame = some f → (crcOk = false ∨ s.dev.isl.powered = false) →
       ∃ d, exec (.islandEdgeFrame ⟨crcOk, ok⟩) s = .next { s with dev := d } ∧
       d.field.frame = none ∧ d.field.ackDue = s.dev.field.ackDue ∧ d.isl = { s.dev.isl with image := none } ∧
       SetsReg { s.dev with field := d.field } d FLD_FRERR (s.dev.reg FLD_FRERR + 1)) ∧
     (s.dev.field.ackDue = true → ∃ d, exec .heartbeatAck s = .next { s with dev := d } ∧ d.fldLink = true ∧
       d.flag FLD_STAT 0 = true ∧ d.field.ackDue = false ∧ d.field.acked = true ∧ d.isl = s.dev.isl ∧ Elsewhere s.dev d) ∧
     (s.dev.isl.powered = true → s.dev.halted = false → s.dev.tick.phase = .idle → exec (.stoppedHeartbeat true) s =
       .next { s with dev := s.dev.setIsl { s.dev.isl with beat := s.dev.now } })) ∧
  ((∀ (p : HostPort) (v : Word) (s : State), Holds p s → s.dev.mode = .commission → bit v 0 = true → s.dev.isl.powered = true →
     exec (.configSend p v) s = .next { s with dev := { s.dev with field := { s.dev.field with
       sent := some (mirrorCfg s.dev), isl := { s.dev.isl with newCfg := some (mirrorCfg s.dev) } } } }) ∧
   (∀ s : State, s.dev.isl.powered = true →
     (s.dev.flag FLD_STAT 0 = true → s.dev.flag FLD_STAT 1 = false → s.dev.field.sent = some (mirrorCfg s.dev) →
       ∃ d, exec .configResend s = .next { s with dev := d } ∧ d.isl = { s.dev.isl with newCfg := some (mirrorCfg s.dev) } ∧
         d.flag FLD_STAT 6 = true ∧ Elsewhere s.dev d) ∧
     (∀ m : BitVec 16, ticking s.dev = true → ∃ d, exec (.dfclr m) s = .next { s with dev := d } ∧ d.isl.off = s.dev.isl.off &&& ~~~ m ∧
       d.isl.cfg = s.dev.isl.cfg ∧ d.isl.safe = s.dev.isl.safe ∧ d.regs = s.dev.regs ∧ Elsewhere s.dev d) ∧
     (ticking s.dev = true → ∃ d, exec .resume s = .next { s with dev := d } ∧ d.isl.safe = false ∧ d.isl.cold = false ∧
       d.isl.off = s.dev.isl.off ∧ (s.dev.flag FLD_STAT 0 = true → d.flag FLD_STAT 2 = false) ∧ Elsewhere s.dev d)))

open Sys2Proof Sys2Proof.Machine Sys2Proof.Claims in
/-- Inputs: a state is accepted after FILT agreeing samples and reaches the mirror, with its event in the selected direction; an
AI sample is limited to the range of its mode, with OVR above it, counts its SEQ, and disconnects the burden above 30 mA; the
burden returns. A report of the island reaches the mirror. All of it reaches the mirror while the link is up.
Outputs: an overload latches a driven channel off, a total overload sheds the highest that is on; a thermal shutdown turns an
AO off until FCLR below 140 °C; compliance is reported. -/
def Obligations.FieldChannels : Prop :=
  (∀ s : State, IslandUp s.dev.isl → s.dev.flag FLD_STAT 0 = true → s.dev.pw.stopped = false →
     (∀ (i : Fin 16) (l : Bool), s.dev.isl.dioMode i = 1 ∨ s.dev.isl.dioMode i = 2 → bit s.dev.isl.din i ≠ l →
       (s.dev.isl.agree[i] + 1 < bits (s.dev.isl.dioCfg i) 11 8 → ∃ d, exec (.dioSample i l) s = .next { s with dev := d } ∧
         d.isl.agree[i] = s.dev.isl.agree[i] + 1 ∧ d.isl.din = s.dev.isl.din ∧ d.regs = s.dev.regs ∧ Elsewhere s.dev d) ∧
       (max 1 (bits (s.dev.isl.dioCfg i) 11 8) ≤ s.dev.isl.agree[i] + 1 → s.dev.flag FLD_DIN i ≠ l →
         ∃ d, exec (.dioSample i l) s = .next { s with dev := d } ∧ d.isl.din = put16 s.dev.isl.din i l ∧
           d.isl.agree[i] = 0 ∧ d.flag FLD_DIN i = l ∧
           ((s.dev.fld (FLD_DIO_CFG i) 1 0 = 1 ∨ s.dev.fld (FLD_DIO_CFG i) 1 0 = 2) →
             s.dev.fld (FLD_DIO_CFG i) 13 12 = 3 → d.flag (EVT_STICKY 5) (16 + i) = true ∧ bit d.pw.wakeReq 0 = true) ∧
           Elsewhere s.dev d)) ∧
     (∀ (k : Fin 4) (x : Nat) (hot : Bool), s.dev.isl.aiMode k = 1 → s.dev.fld TRM_STAT 1 0 ≠ 1 → x < 65536 →
       ∃ d, exec (.aiSample k x hot) s = .next { s with dev := d } ∧ d.fld (FLD_AI k) 15 0 = min x 52000 ∧
         d.fld (FLD_AI k) 23 16 = (s.dev.isl.seq[k] + 1).toNat ∧ d.flag (FLD_AI k) 24 = decide (52000 < x) ∧
         d.flag (FLD_AI k) 25 = (s.dev.isl.prot[k] || hot) ∧ d.flag (FLD_AI k) 26 = true ∧
         d.isl.prot[k] = (s.dev.isl.prot[k] || hot) ∧ Elsewhere s.dev d) ∧
     (∀ k : Fin 4, s.dev.isl.prot[k] = true → ∃ d, exec (.aiProtEnd k) s = .next { s with dev := d } ∧
       d.isl.prot[k] = false ∧ d.reg (FLD_AI k) = setBit (s.dev.reg (FLD_AI k)) 25 false ∧ Elsewhere s.dev d) ∧
     (∀ (k : Fin 4) (w : Word), s.dev.ready = true → ∃ d, exec (.fieldReport (.ai k w)) s = .next { s with dev := d } ∧
       d.reg (FLD_AI k) = w &&& 0x7FFFFFF ∧ d.isl = s.dev.isl ∧ Elsewhere s.dev d) ∧
     (∀ v t : BitVec 16, s.dev.ready = true → ∃ d, exec (.fieldReport (.env v t)) s = .next { s with dev := d } ∧
       SetsReg s.dev d FLD_ENV (word (v.toNat + 65536 * t.toNat))) ∧
     (∀ i : Fin 16, s.dev.ready = true → ∃ d, exec (.fieldReport (.dioFault i)) s = .next { s with dev := d } ∧ d.flag FLD_DFLT i = true ∧
       d.flag (EVT_STICKY 5) (16 + i) = true ∧ d.isl = s.dev.isl ∧ Elsewhere s.dev d)) ∧
  (∀ s : State, s.dev.isl.powered = true → s.dev.flag FLD_STAT 0 = true → s.dev.pw.stopped = false →
     (∀ i : Fin 16, bit s.dev.isl.dio i = true → ∃ d, exec (.dioOverload i) s = .next { s with dev := d } ∧
       bit d.isl.off i = true ∧ bit d.isl.dio i = false ∧ d.flag FLD_DFLT i = true ∧ d.flag (EVT_STICKY 5) (16 + i) = true ∧
       Elsewhere s.dev d) ∧
     (∀ i : Fin 16, bit s.dev.isl.dio i = true → (∀ j : Fin 16, i < j → bit s.dev.isl.dio j = false) →
       ∃ d, exec .totalOverload s = .next { s with dev := d } ∧ bit d.isl.off i = true ∧ bit d.isl.dio i = false ∧
         d.flag FLD_DFLT i = true ∧ d.flag FLD_STAT 4 = true ∧ Elsewhere s.dev d) ∧
     (∀ j : Fin 4, ∃ d, exec (.aoCompliance j) s = .next { s with dev := d } ∧ d.flag (FLD_AO_STAT j) 1 = true ∧
       d.flag (EVT_STICKY 6) j = true ∧ d.isl = s.dev.isl ∧ Elsewhere s.dev d) ∧
     (∀ j : Fin 4, s.dev.isl.ao[j].point = none → ∃ d, exec (.aoThermalShutdown j) s = .next { s with dev := d } ∧
       d.isl.ao[j].shut = true ∧ d.isl.ao[j].drive = false ∧ d.isl.ao[j].target = 0 ∧ d.flag (FLD_AO_STAT j) 0 = true ∧
       d.flag (FLD_AO_STAT j) 2 = true ∧ Elsewhere s.dev d) ∧
     (∀ (j : Fin 4) (t : Int), ticking s.dev = true → t < 140 → s.dev.isl.ao[j].shut = true → ∃ d, exec (.fclr j t) s = .next { s with dev := d } ∧
       d.isl.ao[j].shut = false ∧ d.isl.ao[j].word = s.dev.isl.ao[j].word ∧ d.flag (FLD_AO_STAT j) 2 = false ∧ Elsewhere s.dev d))

open Sys2Proof Sys2Proof.Machine Sys2Proof.Claims in
/-- Silence for FLD_TIMEOUT and the marker of a Halt latch SAFE; undervoltage turns every output off and, while the link is up,
sets UV and reads the inputs as 0 in the mirror until VFIELD recovers; where the supply is lost as well the island is without
power, and starts again in its power-up state with SAFE latched, no configuration and the factory's segment choices. -/
def Obligations.FieldSafety : Prop :=
∀ s : State, s.dev.isl.powered = true →
    (s.dev.isl.safe = false → ∃ d, exec .silenceTimeout s = .next { s with dev := d } ∧ d.isl.safe = true ∧
      d.isl.silent = true ∧ d.isl.imm = false ∧ d.isl.atSafe = s.dev.isl.dio ∧
      d.now = max s.dev.now (s.dev.isl.beat + s.dev.isl.timeout) ∧ d.regs = s.dev.regs ∧ Elsewhere s.dev d) ∧
    (s.dev.isl.safe = false → s.dev.halted = true → ∃ d, exec .immediateSafeMarker s = .next { s with dev := d } ∧
      d.isl.safe = true ∧ d.isl.imm = true ∧ d.isl.silent = false ∧ d.isl.atSafe = s.dev.isl.dio ∧ d.regs = s.dev.regs ∧
      Elsewhere s.dev d) ∧
    (∃ d, exec (.fieldUndervoltage false) s = .next { s with dev := d } ∧ d.isl.uv = true ∧ d.isl.dio = 0 ∧ d.isl.din = 0 ∧
      d.isl.cfg = s.dev.isl.cfg ∧ (s.dev.flag FLD_STAT 0 = false → d.regs = s.dev.regs) ∧ Elsewhere s.dev d) ∧
    (∃ d, exec (.fieldUndervoltage true) s = .next { s with dev := d } ∧ d.isl = { Island.reset with powered := false } ∧
      Elsewhere s.dev d) ∧
    (s.dev.flag FLD_STAT 0 = true → ∀ b, ∃ d, exec (.fieldUndervoltage b) s = .next { s with dev := d } ∧
      d.reg FLD_DIN = 0 ∧ d.flag FLD_STAT 3 = true ∧ (∀ k : Fin 4, d.fld (FLD_AI k) 15 0 = 0) ∧
      (s.dev.flag FLD_STAT 3 = false → s.dev.pw.stopped = false → d.flag (EVT_STICKY 6) 6 = true)) ∧
    (s.dev.isl.uv = true → ∃ d, exec .vfieldRecovery s = .next { s with dev := d } ∧ d.isl.uv = false ∧
      (s.dev.flag FLD_STAT 0 = true → d.flag FLD_STAT 3 = false) ∧ d.isl.cfg = s.dev.isl.cfg ∧
      d.isl.safe = s.dev.isl.safe ∧ Elsewhere s.dev d) ∧
    (∃ d, exec .islandPowerUp s = .next { s with dev := d } ∧ d.isl = { Island.reset with beat := s.dev.now } ∧
      d.isl.safe = true ∧ d.isl.cold = true ∧ d.isl.cfg = none ∧ d.trim.seg = Vector.replicate 4 none ∧
      d.reg TRM_FOSC = 0 ∧ d.fld TRM_SRC 11 8 = 0 ∧ Elsewhere s.dev d)

namespace Sys2Proof.Claims
open Sys2Proof
open Sys2Proof.Machine

/-- The gain of TDL_SCFG.GAIN, and the reference that VMODE selects: the external one, or 1.2 V (R276), in nV. -/
def tdlGain (t : Tendril) : Int := [1, 8, 32, 128].getD (bits t.scfg 4 2) 1
def tdlRef (t : Tendril) (vref : Int) : Int := if bits t.scfg 1 0 = 1 then vref else 1200000000

/-- v is the one nearest code of an input difference of `vdiff` nV (R276). -/
def nearestCode (t : Tendril) (vdiff vref v : Int) : Prop :=
  0 < tdlRef t vref ∧ 2 * (v * tdlRef t vref - vdiff * tdlGain t * 8388608).natAbs < (tdlRef t vref).toNat

/-- The Tendril has its first value and neither holds its current nor is being programmed. -/
structure Driving (t : Tendril) (a : Nat) : Prop where
  slot    : t.slot = some a
  started : t.started = true
  hold    : t.hold = false
  idle    : ∀ j, t.job = some j → j.stage ≠ .program

/-- Its memory and its reference are good, and no trim step drives it. -/
structure Sound (t : Tendril) (a : Nat) : Prop extends Driving t a where
  nvGood  : t.nvBad = false
  refGood : t.refErr = false
  trim    : t.trim = none

/-- SOURCE_SELECT takes a source and a code, and changes only the Tendril and the time. -/
def Selects (s : State) (src code : Nat) : Prop :=
  ∃ d, exec .sourceSelect s = .next { s with dev := d } ∧ d.tdl.src = src ∧ d.tdl.code = code ∧ d.tdl.nv = s.dev.tdl.nv ∧
    d.regs = s.dev.regs ∧ Elsewhere s.dev d

/-- A memory command ends with STATE and CODE, and event 206. -/
def NvEnds (s : State) (e : NvEnd) (state code : Nat) (t : Tendril) : Prop :=
  ∃ d, exec (.nvTransferEnd e) s = .next { s with dev := d } ∧ d.tdl = t ∧ d.fld TDL_NVSTAT 1 0 = state ∧
    d.fld TDL_NVSTAT 15 8 = code ∧ (s.dev.pw.stopped = false → d.flag (EVT_STICKY 6) 14 = true) ∧ Elsewhere s.dev d

end Sys2Proof.Claims

open Sys2Proof Sys2Proof.Machine Sys2Proof.Claims in
/-- The Tendril starts with its memory kept and loses its power in a brown-out, which leaves a memory that was being programmed
with a failing CRC. The first two conversions after a start are discarded; a later one gives each enabled channel its clamped code,
with the gain and the reference of the memory, and counts its sequence; two successive ones out of range, or with an open
excitation, set SFAULT. Fold-back is recorded. A slot's downlink is taken, and one that does not arrive counts. The loop's source:
3.0 mA to 3.4 mA until the first value; alarm low with a bad memory; a good set-point in Run or Hold, clamped to 7,000 to 46,000;
the table, or the alarm that the memory names, without one; the current holds while an image is programmed.
The mirror, once READY is set: a valid uplink brings the sensor results, the loop's source and code and sets LINK, a corrupt one
counts; 3 ms without one clears LINK; a committed set-point sets SETV, and CLAMP outside 7,000 to 46,000. WRITE and READ of the
memory start in Commission with the link up; a transfer that failed ends with code 5, a READ with the registers loaded; a refused
image ends with its code, an accepted one is programmed, and takes effect with the conversions restarted. -/
def Obligations.TendrilAndMirror : Prop :=
  (∀ s : State,
     (∃ d, exec .tendrilStart s = .next { s with dev := d } ∧ d.tdl.powered = true ∧ d.tdl.started = false ∧
       d.tdl.restart = true ∧ d.tdl.nv = s.dev.tdl.nv ∧ d.tdl.begun = s.dev.now ∧ d.tdl.settle = 0 ∧
       d.tdl.nvBad = s.dev.tdl.nvFail ∧ d = { s.dev with tdl := d.tdl }) ∧
     (∃ d, exec .brownOut s = .next { s with dev := d } ∧ d.tdl.powered = false ∧ d.tdl.started = false ∧ d.tdl.code = 0 ∧
       d.tdl.src = 0 ∧ d.tdl.nv = s.dev.tdl.nv ∧ d = { s.dev with tdl := d.tdl } ∧
       (∀ j, s.dev.tdl.job = some j → j.stage = .program → d.tdl.nvFail = true) ∧
       ((∀ j, s.dev.tdl.job = some j → j.stage ≠ .program) → d.tdl.nvFail = s.dev.tdl.nvFail)) ∧
     (∀ b, exec (.foldBack b) s = .next { s with dev := { s.dev with tdl := { s.dev.tdl with foldB := b } } }) ∧
     (s.dev.tdl.powered = true →
       (∀ (vd vr c : Int) (o : Bool), (s.dev.tdl.vOn = true ∨ s.dev.tdl.cOn = true) → tdlTrimming s.dev = false →
         ∃ d, exec (.conversion ⟨vd, vr⟩ c o false) s = .next { s with dev := d } ∧
           d = { s.dev with tdl := d.tdl, freeCtr := s.dev.freeCtr + 1 } ∧ d.tdl.settle = s.dev.tdl.settle + 1 ∧
           (s.dev.tdl.settle < 2 → d.tdl.vin = s.dev.tdl.vin ∧ d.tdl.cin = s.dev.tdl.cin ∧ d.tdl.vseq = s.dev.tdl.vseq ∧
             d.tdl.cseq = s.dev.tdl.cseq) ∧
           (2 ≤ s.dev.tdl.settle →
             (s.dev.tdl.cOn = true → d.tdl.cin = wordI (max 0 (min 26214400 c)) ∧ d.tdl.cseq = s.dev.tdl.cseq + 1) ∧
             (∀ v, s.dev.tdl.vOn = true → nearestCode s.dev.tdl vd vr v →
               d.tdl.vseq = s.dev.tdl.vseq + 1 ∧
               (o = false → d.tdl.vin = wordI (max (-8388607) (min 8388607 v)) ∧
                 (-8388607 ≤ v → v ≤ 8388607 → d.tdl.sfV = false)) ∧
               ((v < -8388607 ∨ 8388607 < v) → 1 ≤ s.dev.tdl.vbad → d.tdl.sfV = true) ∧
               (o = true → 1 ≤ s.dev.tdl.ebad → d.tdl.sfV = true ∧
                 (-8388607 ≤ v → v ≤ 8388607 → d.tdl.vin = s.dev.tdl.vgood))))) ∧
       (s.dev.ready = true → ∃ d, exec (.tendrilSlot true) s = .next { s with dev := d } ∧ d.tdl.misses = 0 ∧
         d.tdl.silent = false ∧ d.tdl.down = some ⟨s.dev.fld TDL_SETPT 15 0, s.dev.flag TDL_STAT 2, s.dev.mode, s.dev.origin,
           s.dev.halted⟩ ∧ d.tdl.slot = some d.now ∧ d.regs = s.dev.regs ∧ Elsewhere s.dev d) ∧
       (∃ d, exec (.tendrilSlot false) s = .next { s with dev := d } ∧ d.tdl.misses = s.dev.tdl.misses + 1 ∧
         d.tdl.down = s.dev.tdl.down ∧ d.regs = s.dev.regs ∧ Elsewhere s.dev d)) ∧
     (∀ a, s.dev.tdl.slot = some a → s.dev.tdl.started = false → (s.dev.tdl.vOn = true ∨ s.dev.tdl.cOn = true) →
       s.dev.tdl.settle < 3 → ∃ c, 6000 ≤ c ∧ c ≤ 6800 ∧ Selects s 0 c) ∧
     (∀ a j, s.dev.tdl.slot = some a → s.dev.tdl.started = true → s.dev.tdl.job = some j → j.stage = .program →
       Selects s s.dev.tdl.src s.dev.tdl.code) ∧
     (∀ a, Driving s.dev.tdl a → s.dev.tdl.nvBad = true → Selects s 3 7200) ∧
     (∀ a l, Sound s.dev.tdl a → s.dev.tdl.down = some l →
       s.dev.tdl.misses < bits s.dev.tdl.sil 7 0 → l.halt = false → l.setv = true → (l.mode = .run ∨ l.mode = .hold) →
       Selects s 1 (min 46000 (max 7000 l.set))) ∧
     (∀ a, Sound s.dev.tdl a → (s.dev.tdl.down = none ∨ bits s.dev.tdl.sil 7 0 ≤ s.dev.tdl.misses) →
       (bits s.dev.tdl.sil 9 8 = 0 → s.dev.tdl.sfV = false → s.dev.tdl.sfC = false → Selects s 2 s.dev.tdl.tableOut) ∧
       (bits s.dev.tdl.sil 9 8 = 1 → Selects s 3 7200) ∧ (bits s.dev.tdl.sil 9 8 = 2 → Selects s 4 43500))) ∧
  (∀ s : State, s.dev.ready = true →
     (s.dev.tdl.powered = true → ∀ mv t : BitVec 16, ∃ d, exec (.uplinkReceive true mv t) s = .next { s with dev := d } ∧
       d.reg TDL_VIN = s.dev.tdl.vin ∧ d.reg TDL_CIN = s.dev.tdl.cin ∧ d.flag TDL_STAT 0 = true ∧ d.tdlLink = true ∧
       d.reg TDL_LOOP = word (s.dev.tdl.code + 65536 * s.dev.tdl.src) ∧ d.reg TDL_ENV = word (mv.toNat + 65536 * t.toNat) ∧
       d.reg TDL_FRERR = s.dev.reg TDL_FRERR ∧ Elsewhere s.dev d) ∧
     (∀ mv t : BitVec 16, ∃ d, exec (.uplinkReceive false mv t) s = .next { s with dev := d } ∧
       SetsReg s.dev d TDL_FRERR (s.dev.reg TDL_FRERR + 1)) ∧
     (∃ d, exec .tendrilLinkLoss s = .next { s with dev := d } ∧ d.tdlLink = false ∧ d.flag TDL_STAT 0 = false ∧
       d.reg TDL_VIN = s.dev.reg TDL_VIN ∧ d.tdl = s.dev.tdl ∧ Elsewhere s.dev d) ∧
     (∀ v : Word, ticking s.dev = true → ∃ d, exec (.setptWrite v) s = .next { s with dev := d } ∧
       d.reg TDL_SETPT = v &&& 0xFFFF ∧ d.flag TDL_STAT 2 = true ∧
       (d.flag TDL_STAT 17 = true ↔ s.dev.flag TDL_STAT 17 = true ∨ bits v 15 0 < 7000 ∨ 46000 < bits v 15 0) ∧
       OnlyRegs s.dev d [TDL_SETPT, TDL_STAT]) ∧
     (∀ p : HostPort, Holds p s → s.dev.tdl.job = none → s.dev.flag TDL_STAT 0 = true → s.dev.mode = .commission →
       (∃ d, exec (.nvWrite p) s = .next { s with dev := d } ∧
         d.tdl = { s.dev.tdl with job := some ⟨some (nvImage s.dev), .transfer⟩ } ∧
         d.fld TDL_NVSTAT 1 0 = 1 ∧ d.fld TDL_NVSTAT 15 8 = 0 ∧ Elsewhere s.dev d) ∧
       (∃ d, exec (.nvRead p) s = .next { s with dev := d } ∧ d.tdl = { s.dev.tdl with job := some ⟨none, .transfer⟩ } ∧
         d.fld TDL_NVSTAT 1 0 = 1 ∧ d.fld TDL_NVSTAT 15 8 = 0 ∧ Elsewhere s.dev d))) ∧
  (∀ s : State,
     (∀ im, s.dev.tdl.job = some ⟨im, .transfer⟩ → NvEnds s .failed 3 5 { s.dev.tdl with job := none }) ∧
     (∀ im e, s.dev.tdl.job = some ⟨im, .lost⟩ → NvEnds s e 3 5 { s.dev.tdl with job := none }) ∧
     (∀ im, s.dev.tdl.job = some ⟨some im, .transfer⟩ →
       (nvCheck im = 0 → exec (.nvTransferEnd .sent) s = .next { s with dev := { s.dev with
         tdl := { s.dev.tdl with job := some ⟨some im, .program⟩ } } }) ∧
       (nvCheck im ≠ 0 → NvEnds s .sent 3 (nvCheck im) { s.dev.tdl with job := none })) ∧
     (∀ im, s.dev.tdl.job = some ⟨some im, .program⟩ → NvEnds s .programmed 2 0 { s.dev.tdl with
       nv := nvStore im, nvFail := false, nvBad := false, settle := 0, hold := true, begun := s.dev.now, vbad := 0, ebad := 0,
       cbad := 0, sfV := false, sfC := false, job := none }) ∧
     (s.dev.tdl.job = some ⟨none, .transfer⟩ → NvEnds s .sent 2 0 { s.dev.tdl with job := none } ∧
       ∃ d, exec (.nvTransferEnd .sent) s = .next { s with dev := d } ∧
         ∀ i, i < 512 → d.reg (TDL_SCFG + 4 * i) = smGet tdlShip s.dev.tdl.nv i))

open Sys2Proof Sys2Proof.Machine Sys2Proof.Claims in
/-- HART: a good request addressed to the Tendril is forwarded, and lands at the next committing edge after its last byte; GO
reads the committed reply record; a reply with the present RXSEQ in time is transmitted and counted, a late one is dropped. -/
def Obligations.HartExchange : Prop :=
∀ s : State,
    (∀ n f r, s.dev.tdl.powered = true → (f.headD 0 = 0x02 ∨ f.headD 0 = 0x82) → hartParse f = some r → 2 ≤ n →
      xorBytes f = 0 → s.dev.tdl.isMine r = true → s.dev.tdl.silent = false → s.dev.tdl.down.isSome = true →
      s.dev.tdl.nvBad = false → loopTrimming s.dev = false →
      exec (.hartRequest n true f) s = .next { s with dev := { s.dev with tdl :=
        { s.dev.tdl with req := some r, reqNew := true, reqIn := false } } }) ∧
    (∀ n f r, s.dev.tdl.powered = true → (f.headD 0 = 0x02 ∨ f.headD 0 = 0x82) → hartParse f = some r → xorBytes f ≠ 0 →
      exec (.hartRequest n true f) s = .next { s with dev := { s.dev with tdl :=
        { s.dev.tdl with rxErr := s.dev.tdl.rxErr + 1 } } }) ∧
    (s.dev.ready = true → s.dev.tdl.reqNew = true → exec .hartRecordLanding s = .next { s with dev := { s.dev with
      tdl := { s.dev.tdl with reqNew := false, reqIn := true }, pw := { s.dev.pw with wakeReq := s.dev.pw.wakeReq ||| 4 } } }) ∧
    (ticking s.dev = true → ∃ d, exec .hartReplyGo s = .next { s with dev := d } ∧ d = { s.dev with tdl := d.tdl } ∧ ∃ r, d.tdl.reply = some r ∧
      r.cmd = s.dev.sram.byte (s.dev.reg TDL_HTXADDR).toNat ∧ r.count = (s.dev.sram.byte ((s.dev.reg TDL_HTXADDR).toNat + 1)).toNat ∧
      r.seq = s.dev.sram.byte ((s.dev.reg TDL_HTXADDR).toNat + 3) ∧
      r.data = s.dev.sram.bytes ((s.dev.reg TDL_HTXADDR).toNat + 4) r.count) ∧
    (∀ r q n, s.dev.tdl.reply = some r → s.dev.tdl.req = some q → s.dev.tdl.job = none →
      (r.seq = s.dev.tdl.rxSeq → n ≤ bits s.dev.tdl.hcfg 23 16 → s.dev.tdl.silent = false → s.dev.tdl.down.isSome = true →
        s.dev.tdl.powered = true → s.dev.tdl.started = true → 2 ≤ r.count → ∃ d, exec (.hartReplySend n) s = .next { s with dev := d } ∧
          d.tdl = { s.dev.tdl with reply := none, sent := hartFrame s.dev.tdl q r, txSeq := s.dev.tdl.txSeq + 1 } ∧
          d.fld TDL_SEQ 31 24 = (s.dev.tdl.txSeq + 1).toNat ∧ OnlyRegs { s.dev with tdl := d.tdl } d [TDL_SEQ]) ∧
      (bits s.dev.tdl.hcfg 23 16 < n → ∃ d, exec (.hartReplySend n) s = .next { s with dev := d } ∧
        d.tdl = { s.dev.tdl with reply := none } ∧ d.flag TDL_STAT 19 = true ∧
        d.fld TDL_HCNT 31 16 = (s.dev.fld TDL_HCNT 31 16 + 1) % 65536 ∧ Elsewhere s.dev d)) ∧
    (∀ d : Dev, ∀ q, d.tdl.reqIn = true → d.tdl.req = some q →
      (hartLand d).sram = d.sram.setBytes (d.reg TDL_HRXADDR).toNat (hartRecord q (d.tdl.rxSeq + 1)) ∧
      (hartLand d).tdl.rxSeq = d.tdl.rxSeq + 1 ∧ (hartLand d).tdl.reqIn = false)

namespace Sys2Proof.Claims
open Sys2Proof
open Sys2Proof.Machine

/-- The Harness has VSAFE and is not in FAULT. -/
def HarnessRuns (s : State) : Prop := s.dev.hrn.powered = true ∧ s.dev.hrn.state ≠ 2

/-- Of the device only the Harness die changes. -/
def OnlyHrn (d e : Dev) : Prop := e = { d with hrn := e.hrn }

/-- FAULT with a code: every pin de-energised, every slot 0, event 133 waits (R303). -/
def Faulted (code : Nat) (h : Harness) : Prop :=
  h.state = 2 ∧ h.fcode = code ∧ h.pairs = 0 ∧ (∀ f : Fin 8, h.func f = 0) ∧ (∀ b : Fin 2, (h.brake b).on = false) ∧
  bit h.events 5 = true

end Sys2Proof.Claims

open Sys2Proof Sys2Proof.Machine Sys2Proof.Claims in
/-- A Harness cycle: an input whose sample differs from its level for FILT + 1 cycles takes it, in each channel; HRST and HACK
are taken at once; a pair is energised exactly when its conditions hold; and what is wrong between the channels is FAULT with
its code: levels that differ for more than 8 cycles, a lost exchange, a clock ratio, a configuration, a self-test (R299, R302,
R303, R308). -/
def Obligations.HarnessCycle : Prop :=
∀ (s : State) (sa sb : HarnessSample) (t : HarnessTrouble), HarnessRuns s →
    (∃ d, exec (.harnessCycle sa sb t) s = .next { s with dev := d } ∧
      OnlyHrn { s.dev with freeCtr := s.dev.freeCtr + 1 } d ∧
      bit d.hrn.a.lvl 16 = sa.hrst ∧ bit d.hrn.b.lvl 16 = sb.hrst ∧ bit d.hrn.a.lvl 17 = sa.hack ∧
      (∀ i : Fin 16, s.dev.hrn.masked i = false → bit sa.hi i ≠ bit s.dev.hrn.a.lvl i →
        (s.dev.hrn.a.agree[i] < inFilt s.dev.hrn.cfg i → bit d.hrn.a.lvl i = bit s.dev.hrn.a.lvl i ∧
          d.hrn.a.agree[i] = s.dev.hrn.a.agree[i] + 1) ∧
        (inFilt s.dev.hrn.cfg i ≤ s.dev.hrn.a.agree[i] → bit d.hrn.a.lvl i = bit sa.hi i ∧ d.hrn.a.agree[i] = 0)) ∧
      (∀ i : Fin 16, s.dev.hrn.masked i = true → bit d.hrn.a.lvl i = bit s.dev.hrn.a.lvl i ∧
        bit d.hrn.b.lvl i = bit s.dev.hrn.b.lvl i) ∧
      (∀ x, x < 4 → bit d.hrn.pairs x = d.hrn.wantPair x) ∧
      ∀ i : Fin 16, bit d.hrn.a.lvl i ≠ bit d.hrn.b.lvl i → 8 ≤ s.dev.hrn.differ[i] → Faulted 1 d.hrn) ∧
    (s.dev.hrn.a = s.dev.hrn.b → sa = sb →
      (3 ≤ s.dev.hrn.noEx → t.exchangeLost = true → ∃ d, exec (.harnessCycle sa sb t) s = .next { s with dev := d } ∧
        Faulted 2 d.hrn) ∧
      (t.exchangeLost = false →
        (t.ratioBad = true → ∃ d, exec (.harnessCycle sa sb t) s = .next { s with dev := d } ∧ Faulted 3 d.hrn) ∧
        (t.ratioBad = false → t.configBad = true → ∃ d, exec (.harnessCycle sa sb t) s = .next { s with dev := d } ∧
          Faulted 4 d.hrn) ∧
        (t.ratioBad = false → t.configBad = false → t.selfTestBad = true →
          ∃ d, exec (.harnessCycle sa sb t) s = .next { s with dev := d } ∧ Faulted 5 d.hrn)))

open Sys2Proof Sys2Proof.Machine Sys2Proof.Claims in
/-- HRST that falls after a hold of 100 ms to 3,000 ms resets the Harness in that cycle, after the transitions that inputs cause:
READY slots go to OK, and the reset counts; after any other hold the cycle is one like any other. A status frame carries the
state, and its reception brings it to the mirror with LINK, a bad one counts; one that shows an accepted reset clears the Harness
events whose cause is over (which those are is log entry 115). -/
def Obligations.HarnessResetAndFrames : Prop :=
∀ s : State,
    (∀ n sa, HarnessRuns s → 100 ≤ n → n ≤ 3000 → s.dev.hrn.a = s.dev.hrn.b → bit s.dev.hrn.a.lvl 16 = true →
      sa.hrst = false → ∃ d, exec (.harnessReset ⟨n, sa, sa, ⟨false, false, false, false⟩⟩) s = .next { s with dev := d } ∧
      OnlyHrn { s.dev with freeCtr := s.dev.freeCtr + 1 } d ∧
      d.hrn.rstCnt = s.dev.hrn.rstCnt + 1 ∧ bit d.hrn.events 7 = true ∧
      ∀ f : Fin 8, (d.hrn.a.slots[f]).st ≠ 3 ∧ (d.hrn.b.slots[f]).st ≠ 3) ∧
    (∀ n (was h : Harness), 100 ≤ n → n ≤ 3000 → hrstFell was h = true →
      (harnessReset n was h).rstCnt = h.rstCnt + 1 ∧ ∀ f : Fin 8,
        ((h.a.slots[f]).st = 3 → ((harnessReset n was h).a.slots[f]).st = 1) ∧
        ((h.a.slots[f]).st = 2 → ((harnessReset n was h).a.slots[f]).st = 2) ∧
        ((h.a.slots[f]).st = 6 → ((harnessReset n was h).a.slots[f]).st = 6)) ∧
    (∀ n sa sb t, n < 100 ∨ 3000 < n → exec (.harnessReset ⟨n, sa, sb, t⟩) s = exec (.harnessCycle sa sb t) s) ∧
    (s.dev.hrn.powered = true → ∃ d f, exec .statusFrame s = .next { s with dev := d } ∧ OnlyHrn s.dev d ∧
      d.hrn.frame = some f ∧ f.seq = s.dev.hrn.seq + 1 ∧ f.part = s.dev.hrn.part ∧ f.events = s.dev.hrn.events ∧
      (HRN_STAT, hrnStatWord s.dev.hrn) ∈ f.vals ∧ (HRN_STICKY, s.dev.hrn.sticky) ∈ f.vals ∧
      (HRN_OUT, hrnOutWord s.dev.hrn) ∈ f.vals ∧ d.hrn.seq = s.dev.hrn.seq + 1 ∧ d.hrn.part = (s.dev.hrn.part + 1) % 32) ∧
    (∀ f, s.dev.ready = true → s.dev.hrn.frame = some f → (f.vals.map (·.1)).Nodup → (∀ e ∈ f.vals, e.1 / 0x10000 = 0x10C) →
      ∃ d, exec (.statusFrameReceive true) s = .next { s with dev := d } ∧ d.hrnLink = true ∧ d.hrn.seen = some f.seq ∧
        d.hrn.frame = none ∧ d.flag HRN_STAT 31 = true ∧ d.reg HRN_SEQ = f.seq.setWidth 32 ∧
        (∀ a v, (a, v) ∈ f.vals → a ≠ HRN_STAT → a ≠ HRN_SEQ → (a = HRN_SEALSTAT → s.dev.hrn.line = none) → d.reg a = v) ∧
        (bit f.events 7 = true → ∀ e, e ∈ [0, 1, 6, 8, 9, 10] → bit f.events e = false → d.flag (EVT_STICKY 4) e = false) ∧
        Elsewhere s.dev d) ∧
    (∀ f, s.dev.ready = true → s.dev.hrn.frame = some f → ∃ d, exec (.statusFrameReceive false) s = .next { s with dev := d } ∧
      d.reg HRN_FRERR = s.dev.reg HRN_FRERR + 1 ∧ d.hrn.frame = none ∧ OnlyRegs { s.dev with hrn := d.hrn } d [HRN_FRERR])

open Sys2Proof Sys2Proof.Machine Sys2Proof.Claims in
/-- The sealed configuration: SEND puts the proposal on the line in Commission; a good proposal becomes pending, a bad one shows
its code; it expires; HACK held for 2 s to 5 s with no pair energised begins the write over the older copy, any other hold is
noted; the written configuration becomes active and every slot restarts, and channels that disagree are FAULT 4. -/
def Obligations.SealedConfiguration : Prop :=
(∀ (p : HostPort) (v : Word) (s : State), Holds p s → s.dev.mode = .commission → bit v 0 = true →
    ∃ d, exec (.sealSend p v) s = .next { s with dev := d } ∧ d.reg HRN_SEALSTAT = 1 ∧ d.hrn = { s.dev.hrn with
      line := some ((List.range 64).flatMap (fun i => leBytes (s.dev.reg (HRN_PROP i)).toNat 4)) } ∧
      OnlyRegs { s.dev with hrn := d.hrn } d [HRN_SEALSTAT]) ∧
  (∀ s : State, HarnessRuns s →
    (∀ c, s.dev.hrn.line = some c →
      (hRefuse c = 0 → ∃ d, exec (.proposalReceive true) s = .next { s with dev := d } ∧ OnlyHrn s.dev d ∧
        d.hrn.pend = some c ∧ d.hrn.sealW = 2 ∧ d.hrn.line = none ∧ bit d.hrn.events 8 = true) ∧
      (hRefuse c ≠ 0 → ∃ d, exec (.proposalReceive true) s = .next { s with dev := d } ∧ OnlyHrn s.dev d ∧
        d.hrn.pend = s.dev.hrn.pend ∧ d.hrn.sealW = word (3 + 256 * hRefuse c) ∧ bit d.hrn.events 9 = true) ∧
      (hRefuse c = 0 → ∃ d, exec (.proposalReceive false) s = .next { s with dev := d } ∧ OnlyHrn s.dev d ∧
        d.hrn.pend = s.dev.hrn.pend ∧ d.hrn.sealW = word (3 + 256 * 4))) ∧
    (s.dev.hrn.pend.isSome = true → s.dev.hrn.writing = none → ∃ d, exec .pendingExpiry s = .next { s with dev := d } ∧ OnlyHrn s.dev d ∧
      d.hrn.pend = none ∧ d.hrn.active = s.dev.hrn.active ∧ bit d.hrn.events 14 = true) ∧
    (∀ c n, s.dev.hrn.pend = some c → s.dev.hrn.pairs = 0 → s.dev.hrn.hackOk = true → 2000 ≤ n → n ≤ 5000 →
      ∃ d, exec (.configActivate n true) s = .next { s with dev := d } ∧ OnlyHrn s.dev d ∧ d.hrn.writing = some c ∧
        d.hrn.pairs = 0 ∧ d.hrn.active = s.dev.hrn.active ∧ d.hrn.prev = none) ∧
    (∀ n b, n < 2000 ∨ 5000 < n ∨ s.dev.hrn.pend = none → ∃ d, exec (.configActivate n b) s = .next { s with dev := d } ∧
      OnlyHrn s.dev d ∧ d.hrn.writing = s.dev.hrn.writing ∧ bit d.hrn.sticky2 1 = true ∧ d.hrn.hackOk = false) ∧
    (∀ c, s.dev.hrn.writing = some c →
      (∃ d, exec (.configWriteEnd true) s = .next { s with dev := d } ∧ OnlyHrn s.dev d ∧ d.hrn.active = some c ∧
        d.hrn.prev = s.dev.hrn.active ∧ d.hrn.pend = none ∧ d.hrn.writing = none ∧ d.hrn.state = 1 ∧ d.hrn.pairs = 0 ∧ bit d.hrn.events 10 = true ∧
        ∀ f : Fin 8, (d.hrn.a.slots[f]).st = (if hType c f = 0 then 0 else if hType c f = 3 then 5 else 2)) ∧
      (∃ d, exec (.configWriteEnd false) s = .next { s with dev := d } ∧ OnlyHrn s.dev d ∧ Faulted 4 d.hrn)))

open Sys2Proof Sys2Proof.Machine Sys2Proof.Claims in
/-- Test pulses and time-outs of the Harness: a pulse masks the inputs of its output for four samples, of which two lie
within it, or for three, of which one does; an input that either channel did not read low within it is a test-pulse fault of every
slot that uses it; an input of another output that read low within the pulse only is one too; a dipped pin that does not read low
is an output fault; inputs that disagree beyond DISC put their slot in DISCF; an ARMED two-hand slot locks after its window; HRST held too long is noted.
VSAFE: at power-up STATE reads 3 until the self-test and the check of the active configuration decide between a start, with the
newer copy that is good, and FAULT; below its threshold every pin is de-energised and every slot in use is in DEMAND, until it
recovers. -/
def Obligations.HarnessTests : Prop :=
  (∀ s : State, HarnessRuns s →
     (∀ (x : Fin 8) (two : Bool), ∃ d, exec (.testPulse x two) s = .next { s with dev := d } ∧ OnlyHrn s.dev d ∧
       d.hrn.mask[x] = (if two then 4 else 3) ∧
       d.hrn.a.lowSeen = 0 ∧ d.hrn.b.lowSeen = 0 ∧ d.hrn.a.before = s.dev.hrn.a.raw ∧ d.hrn.b.before = s.dev.hrn.b.raw ∧
       d.hrn.a.slots = s.dev.hrn.a.slots) ∧
     (∀ (sa sb : HarnessSample) (t : HarnessTrouble), ∃ d, exec (.harnessCycle sa sb t) s = .next { s with dev := d } ∧
       (∀ x : Fin 8, d.hrn.mask[x] = s.dev.hrn.mask[x] - 1) ∧
       (∀ (x : Fin 8) (i : Fin 16), s.dev.hrn.mask[x] = 3 → hTpen s.dev.hrn.cfg i = true → hSrc s.dev.hrn.cfg i = x →
         ((bit s.dev.hrn.a.lowSeen i || !bit sa.hi i) = true → (bit s.dev.hrn.b.lowSeen i || !bit sb.hi i) = true →
           bit d.hrn.tpBad i = false) ∧
         ((bit s.dev.hrn.a.lowSeen i || !bit sa.hi i) = false ∨ (bit s.dev.hrn.b.lowSeen i || !bit sb.hi i) = false →
           bit d.hrn.tpBad i = true ∧ bit d.hrn.sticky i = true ∧
           ∀ f : Fin 8, (hInputs s.dev.hrn.cfg f).contains i.val = true → (s.dev.hrn.a.slots[f]).st ≠ 0 →
             (d.hrn.a.slots[f]).st = 7 ∨ d.hrn.state = 2)) ∧
       (∀ (x : Fin 8) (i : Fin 16), s.dev.hrn.mask[x] = 2 → hTpen s.dev.hrn.cfg i = true → hSrc s.dev.hrn.cfg i ≠ x →
         bit s.dev.hrn.a.before i = true → bit s.dev.hrn.a.lowSeen i = true → bit sa.hi i = true →
         bit d.hrn.sticky i = true ∧ bit d.hrn.cross[x] i = true)) ∧
     (∀ x : Fin 4, bit s.dev.hrn.pairs x = true → hcfg s.dev.hrn.cfg 12 4 / 2 ^ x.val % 2 = 1 →
       (∃ d, exec (.outputDip x false) s = .next { s with dev := d } ∧ OnlyHrn s.dev d ∧ bit d.hrn.pairs x = false ∧
         bit d.hrn.ofault x = true ∧ bit d.hrn.sticky (24 + x) = true ∧ bit d.hrn.events 4 = true) ∧
       exec (.outputDip x true) s = .next s) ∧
     (∀ f : Fin 8, s.dev.hrn.low = false → (disagrees s.dev.hrn f s.dev.hrn.a = true ∨ disagrees s.dev.hrn f s.dev.hrn.b = true) →
       ∃ d, exec (.discrepancyTimeout f) s = .next { s with dev := d } ∧ OnlyHrn s.dev d ∧ (d.hrn.a.slots[f]).st = 6 ∧
         (d.hrn.b.slots[f]).st = 6 ∧ bit d.hrn.sticky (16 + f) = true ∧ bit d.hrn.events 2 = true) ∧
     (∀ f : Fin 8, (s.dev.hrn.a.slots[f]).st = 4 → ∃ d, exec (.synchronismTimeout f) s = .next { s with dev := d } ∧
       OnlyHrn s.dev d ∧ (d.hrn.a.slots[f]).st = 5 ∧ ∀ g, g ≠ f → d.hrn.a.slots[g] = s.dev.hrn.a.slots[g]) ∧
     (∃ d, exec .hrstTooLong s = .next { s with dev := d } ∧ OnlyHrn s.dev d ∧ bit d.hrn.sticky2 0 = true ∧
       bit d.hrn.events 13 = true)) ∧
  (∀ s : State,
     (∃ d, exec (.vsafePowerUp .begin) s = .next { s with dev := d } ∧ OnlyHrn s.dev d ∧ d.hrn.powered = true ∧
       d.hrn.state = 3 ∧ d.hrn.active = s.dev.hrn.active ∧ d.hrn.prev = s.dev.hrn.prev ∧ d.hrn.pend = none ∧
       d.hrn.writing = none ∧ d.hrn.pairs = 0 ∧ d.hrn.sticky = 0) ∧
     (s.dev.hrn.powered = true → s.dev.hrn.state = 3 →
       (∀ c newer, (if newer then s.dev.hrn.active else s.dev.hrn.prev) = some c → hCheckOk c = true →
         ∃ d, exec (.vsafePowerUp (.tested true newer)) s = .next { s with dev := d } ∧ OnlyHrn s.dev d ∧
         d.hrn.state = 1 ∧ d.hrn.active = some c ∧ d.hrn.pairs = 0 ∧
         ∀ f : Fin 8, (d.hrn.a.slots[f]).st = (if hType c f = 0 then 0 else if hType c f = 3 then 5 else 2)) ∧
       (s.dev.hrn.active = none → ∃ d, exec (.vsafePowerUp (.tested true true)) s = .next { s with dev := d } ∧
         OnlyHrn s.dev d ∧ d.hrn.state = 0) ∧
       (s.dev.hrn.active.isSome = true → s.dev.hrn.prev = none → ∃ d, exec (.vsafePowerUp (.tested true false)) s =
         .next { s with dev := d } ∧ OnlyHrn s.dev d ∧ Faulted 4 d.hrn) ∧
       (∀ newer, ∃ d, exec (.vsafePowerUp (.tested false newer)) s = .next { s with dev := d } ∧ OnlyHrn s.dev d ∧
         Faulted 5 d.hrn)) ∧
     (HarnessRuns s → ∃ d, exec .vsafeLow s = .next { s with dev := d } ∧ OnlyHrn s.dev d ∧ d.hrn.low = true ∧
       d.hrn.pairs = 0 ∧ bit d.hrn.sticky2 2 = true ∧ (∀ b : Fin 2, (d.hrn.brake b).on = false) ∧
       ∀ f : Fin 8, (d.hrn.a.slots[f]).st = (if (s.dev.hrn.a.slots[f]).st = 0 then 0 else 2)) ∧
     (HarnessRuns s → ∃ d, exec .vsafeRecovery s = .next { s with dev := d } ∧ OnlyHrn s.dev d ∧ d.hrn.low = false ∧
       d.hrn.pairs = s.dev.hrn.pairs ∧ d.hrn.a = s.dev.hrn.a))

open Sys2Proof Sys2Proof.Machine Sys2Proof.Claims in
/-- Brakes: each channel's HQ counts one for a change of one signal, and HQERR is noted for a change of both during a test; a hold
step records the largest difference from the count at its start; a coil fault takes the brake off; DUE and OVERDUE are set once; a
test starts under its conditions, its holds end in the next step, and a missing acknowledgement aborts it with cause 2. -/
def Obligations.Brakes : Prop :=
∀ (s : State) (b : Fin 2), HarnessRuns s →
    (∀ (ch : Fin 2) (qa qb : Bool), (s.dev.hrn.brake b).hq[ch].lvl = BitVec.ofNat 2 (b2n qa + 2 * b2n qb) →
      (∃ d, exec (.hqCount ⟨b, ch⟩ (!qb) qa) s = .next { s with dev := d } ∧ OnlyHrn s.dev d ∧
        (d.hrn.brake b).hq[ch].n = (s.dev.hrn.brake b).hq[ch].n + 1 ∧
        (d.hrn.brake b).hq[1 - ch] = (s.dev.hrn.brake b).hq[1 - ch] ∧
        ((s.dev.hrn.brake b).step = 2 → (d.hrn.brake b).move2 = max (s.dev.hrn.brake b).move2
          ((s.dev.hrn.brake b).hq[ch].n + 1 - (s.dev.hrn.brake b).hq[ch].start).natAbs)) ∧
      (∃ d, exec (.hqCount ⟨b, ch⟩ qb (!qa)) s = .next { s with dev := d } ∧ OnlyHrn s.dev d ∧
        (d.hrn.brake b).hq[ch].n = (s.dev.hrn.brake b).hq[ch].n - 1) ∧
      (∃ d, exec (.hqCount ⟨b, ch⟩ (!qa) (!qb)) s = .next { s with dev := d } ∧ OnlyHrn s.dev d ∧
        (d.hrn.brake b).hq[ch].n = (s.dev.hrn.brake b).hq[ch].n ∧
        (d.hrn.brake b).hqErr = ((s.dev.hrn.brake b).hqErr || decide ((s.dev.hrn.brake b).step ≠ 0)))) ∧
    (bkUsed s.dev.hrn.cfg b = true →
      ((s.dev.hrn.brake b).fault = false → ∃ d, exec (.coilFault b) s = .next { s with dev := d } ∧
        OnlyHrn { s.dev with freeCtr := s.dev.freeCtr + 1 } d ∧ (d.hrn.brake b).fault = true ∧ (d.hrn.brake b).on = false ∧
        (d.hrn.brake b).step = 0 ∧ bit d.hrn.bsticky b = true ∧ bit d.hrn.events 3 = true) ∧
      ((s.dev.hrn.brake b).due = false → ∃ d, exec (.brakeDue b) s = .next { s with dev := d } ∧ OnlyHrn s.dev d ∧
        (d.hrn.brake b).due = true ∧ (d.hrn.brake b).overdue = (s.dev.hrn.brake b).overdue ∧ bit d.hrn.events 11 = true) ∧
      ((s.dev.hrn.brake b).overdue = false → ∃ d, exec (.brakeOverdue b) s = .next { s with dev := d } ∧ OnlyHrn s.dev d ∧
        (d.hrn.brake b).due = true ∧ (d.hrn.brake b).overdue = true ∧ bit d.hrn.bsticky (4 + b) = true ∧ bit d.hrn.events 11 = true)) ∧
    (testReady b s.dev.hrn = true → (s.dev.hrn.brake (1 - b)).step = 0 → (b = 1 → testReady 0 s.dev.hrn = false) →
      ∃ d, exec (.brakeTestStart b) s = .next { s with dev := d } ∧ OnlyHrn s.dev d ∧ (d.hrn.brake b).step = 1 ∧
        (d.hrn.brake b).move2 = 0 ∧ (d.hrn.brake b).move5 = 0 ∧ (d.hrn.brake b).hqErr = false) ∧
    ((s.dev.hrn.brake b).step = 2 ∨ (s.dev.hrn.brake b).step = 5 → ∃ d, exec .testHoldEnd s = .next { s with dev := d } ∧
      OnlyHrn s.dev d ∧ (d.hrn.brake b).step = (s.dev.hrn.brake b).step + 1) ∧
    ((s.dev.hrn.brake b).step = 1 ∨ (s.dev.hrn.brake b).step = 3 ∨ (s.dev.hrn.brake b).step = 4 ∨ (s.dev.hrn.brake b).step = 6 →
      ∃ d, exec .testAckTimeout s = .next { s with dev := d } ∧ OnlyHrn s.dev d ∧ (d.hrn.brake b).step = 0 ∧
        (d.hrn.brake b).last = 3 ∧ (d.hrn.brake b).cause = 2 ∧ (d.hrn.brake b).count = (s.dev.hrn.brake b).count + 1)

namespace Sys2Proof.Claims
open Sys2Proof
open Sys2Proof.Machine

/-- The event fabric raises events at once: the tick is not stopped in S4. -/
def Raises (d : Dev) : Prop := (d.pw.stopped && decide (d.pstate = 4)) = false

/-- An event stands in its sticky word. -/
def Stuck (e : Nat) (d : Dev) : Prop := d.flag (EVT_STICKY (e / 32)) (e % 32) = true

/-- The stack record of a fault that a device detects now. -/
def recordOf (ev : Nat) (c : Cls) (detail : Word) (infp : Bool) (d : Dev) : FRec :=
  { ev := ev, cls := c, pre := false, infp := infp, id := d.fu.total + 1, detail := detail, ts := d.stamp, count := d.tick.count }

/-- A fault has entered the stack: its record has its place, it took an ID, its event and event 216 stand. -/
def Entered (ev : Nat) (c : Cls) (detail : Word) (d e : Dev) : Prop :=
  e.fu.stack = (stackPush (recordOf ev c detail false d) d.fu.stack).1 ∧ e.fu.total = d.fu.total + 1 ∧ Stuck ev e ∧ Stuck 216 e

/-- A fault of class Note: it is counted, its event stands, the stack and FLT_STAT are untouched. -/
def Noted (ev : Nat) (d e : Dev) : Prop :=
  e.fu.stack = d.fu.stack ∧ e.fu.total = d.fu.total ∧ e.reg FLT_NOTES = d.reg FLT_NOTES + 1 ∧ Stuck ev e ∧
  e.reg FLT_STAT = d.reg FLT_STAT

/-- What a Halt leaves: HALTED, no tick, no lane drives, event 219. -/
def HaltStands (e : Dev) : Prop :=
  e.halted = true ∧ e.tick.phase = .idle ∧ (∀ n : Fin 16, (e.lane n).drive = false) ∧ Stuck 219 e

/-- What a Hold fault leaves: HOLDF, and the request for Hold at the next edge. -/
def HoldAsked (e : Dev) : Prop := e.flag FLT_STAT 4 = true ∧ e.holdReq = true

end Sys2Proof.Claims

open Sys2Proof Sys2Proof.Machine Sys2Proof.Claims in
/-- Each monitor's fault has its class: above 150 °C a Note, above 160 °C a Hold; the main PLL, the crystal and a supply a Halt,
CLK32K a Degrade, the DRAM PLL a Hold; a Halt of any source with that class stops the device (R121, R347, R367, R413). -/
def Obligations.FaultClasses : Prop :=
∀ s : State, s.dev.ready = true → Raises s.dev →
    (∀ t : Int, (150 < t → ∃ d, exec (.tempWarning t) s = .next { s with dev := d } ∧ Noted 13 s.dev d ∧ Elsewhere s.dev d) ∧
      (t ≤ 150 → exec (.tempWarning t) s = .next s)) ∧
    (∀ t : Int, (160 < t → ∃ d, exec (.tempCritical t) s = .next { s with dev := d } ∧
        Entered 14 .hold (BitVec.ofInt 32 t) s.dev d ∧ HoldAsked d ∧ Elsewhere s.dev d) ∧
      (t ≤ 160 → exec (.tempCritical t) s = .next s)) ∧
    (∃ d, exec (.clockLoss .dramPll) s = .next { s with dev := d } ∧ Entered 12 .hold 0 s.dev d ∧ HoldAsked d ∧
      Elsewhere s.dev d) ∧
    (∃ d, exec (.clockLoss .clk32k) s = .next { s with dev := d } ∧ Entered 11 .degrade 0 s.dev d ∧ d.flag FLT_STAT 2 = true ∧
      d.fu.pulse = true ∧ d.reg FLT_PULSECNT = s.dev.reg FLT_PULSECNT + 1 ∧ Elsewhere s.dev d) ∧
    (∃ d, exec (.clockLoss .pll) s = .next { s with dev := d } ∧ Entered 9 .halt 0 s.dev d ∧ HaltStands d) ∧
    (∃ d, exec (.clockLoss .xtal) s = .next { s with dev := d } ∧ Entered 10 .halt 0 s.dev d ∧ HaltStands d) ∧
    (∃ d, exec .supplyFault s = .next { s with dev := d } ∧ Entered 15 .halt 0 s.dev d ∧ HaltStands d) ∧
    (∀ (ev : Fin 256) (w : Word), (ev = 2 ∨ ev = 9 ∨ ev = 10 ∨ ev = 15 → ∃ d, exec (.halt ev w) s = .next { s with dev := d } ∧
        Entered ev .halt w s.dev d ∧ HaltStands d) ∧
      (ev ≠ 2 → ev ≠ 9 → ev ≠ 10 → ev ≠ 15 → exec (.halt ev w) s = .next s))

open Sys2Proof Sys2Proof.Machine Sys2Proof.Claims in
/-- R349: every fault of class Degrade or higher takes an ID, raises event 216, has a log record waiting (unless it is a Halt,
whose records are written at once), and takes its place: on top of an empty stack; by class against one record; and of three
records the lowest class, and of equal ones the newest, is dropped, counted in FLT_OVF, with FLT_STAT.OVF and event 217. Its class has its effects, dropped
or not (R347). -/
def Obligations.FaultStack : Prop :=
∀ (d : Dev) (ev : Nat) (c : Cls) (detail : Word) (infp abandon guard : Bool), c ≠ .note → Raises d → evReserved ev = false →
    stackInOrder d.fu.stack = true →
    ∃ e n, e = faultAt ev c detail infp abandon guard d ∧ n = recordOf ev c detail infp d ∧
      e.fu.total = d.fu.total + 1 ∧ Stuck ev e ∧ Stuck 216 e ∧
      (c ≠ .halt → ∃ l old, e.fu.logs = old ++ [l] ∧ ((∀ r ∈ d.fu.stack, r.id ≠ n.id) → l.rec_ = n) ∧ l.rec_.id = n.id ∧
        old.map (·.rec_.id) = d.fu.logs.map (·.rec_.id)) ∧
      (c = .halt → e.fu.logs = []) ∧
      (c = .degrade → e.flag FLT_STAT 2 = true ∧ e.fu.pulse = true) ∧ (c = .slip → e.flag FLT_STAT 1 = true ∧ e.fu.pulse = true) ∧
      (c = .hold → HoldAsked e) ∧ (c = .halt → HaltStands e) ∧
      (d.fu.stack = [] → e.fu.stack = [n] ∧ e.reg FLT_OVF = d.reg FLT_OVF) ∧
      (∀ t, d.fu.stack = [t] →
        (t.cls.num < c.num → e.fu.stack = [n, { t with pre := true }]) ∧ (c.num ≤ t.cls.num → e.fu.stack = [t, n]) ∧
        e.reg FLT_OVF = d.reg FLT_OVF) ∧
      (∀ t w, d.fu.stack = [t, w] →
        e.reg FLT_OVF = d.reg FLT_OVF + 1 ∧ e.flag FLT_STAT 3 = true ∧ Stuck 217 e ∧
        (c.num ≤ w.cls.num → e.fu.stack = [t, w]) ∧
        (w.cls.num < c.num → c.num ≤ t.cls.num → e.fu.stack = [t, n]) ∧
        (w.cls.num < t.cls.num → t.cls.num < c.num → e.fu.stack = [n, { t with pre := true }]) ∧
        (w.cls.num = t.cls.num → t.cls.num < c.num → t.id.toNat < w.id.toNat → e.fu.stack = [n, { t with pre := true }]) ∧
        (w.cls.num = t.cls.num → t.cls.num < c.num → w.id.toNat < t.id.toNat → e.fu.stack = [n, w]))

open Sys2Proof Sys2Proof.Machine Sys2Proof.Claims in
/-- A committed POP removes the record with its ID, top or waiting, and a miss sets POPMISS; HOLDF clears once no Hold record
stands; FPDIS clears; the FAULT_N pulse ends at its instant; the software events of a committed mask are raised (R352, R353, R357,
R358, R372). A DRAM read that ECC corrects, or cannot correct, is noted and counted; a DRAM write buffer that stalls ends the
carts to DRAM in error, with a Hold fault (R363, R416). -/
def Obligations.FaultUnitAndDram : Prop :=
(∀ (s : State) (v : Word),
    (bit v 31 = false → exec (.pop v) s = .next s) ∧
    (ticking s.dev = true → bit v 31 = true →
      (∀ t rest, s.dev.fu.stack = t :: rest → t.id.toNat % 65536 = bits v 15 0 →
        exec (.pop v) s = .next { s with dev := { s.dev with fu := { s.dev.fu with stack := rest } } }) ∧
      (∀ t w, s.dev.fu.stack = [t, w] → t.id.toNat % 65536 ≠ bits v 15 0 → w.id.toNat % 65536 = bits v 15 0 →
        exec (.pop v) s = .next { s with dev := { s.dev with fu := { s.dev.fu with stack := [t] } } }) ∧
      (stackInOrder s.dev.fu.stack = true → (∀ r ∈ s.dev.fu.stack, r.id.toNat % 65536 ≠ bits v 15 0) →
        ∃ d, exec (.pop v) s = .next { s with dev := d } ∧ OnlyRegs s.dev d [FLT_STAT] ∧ d.flag FLT_STAT 8 = true))) ∧
  (∀ (p : HostPort) (s : State), Holds p s →
    ((∀ r ∈ s.dev.fu.stack, r.cls ≠ .hold) → ∃ d, exec (.holdfClear p) s = .next { s with dev := d } ∧
      SetsReg s.dev d FLT_STAT (s.dev.reg FLT_STAT &&& ~~~ 0x10)) ∧
    ((∃ r ∈ s.dev.fu.stack, r.cls = .hold) → ∃ d, exec (.holdfClear p) s = .next { s with dev := d } ∧
      SetsReg s.dev d FLT_STAT (s.dev.reg FLT_STAT)) ∧
    (∃ d, exec (.fpdisClear p) s = .next { s with dev := d } ∧
      SetsReg s.dev d FLT_STAT (s.dev.reg FLT_STAT &&& ~~~ 0x20))) ∧
  (∀ s : State, s.dev.fu.pulse = true → exec .faultPulseEnd s = .next { s with dev := { s.dev with
    now := max s.dev.now s.dev.fu.pulseEnd, fu := { s.dev.fu with pulse := false } } }) ∧
  (∀ (s : State) (v : Word), ticking s.dev = true → ∃ d, exec (.swset v) s = .next { s with dev := d } ∧ Elsewhere s.dev d ∧
    d.fu = s.dev.fu ∧ (∀ w, w < 7 → d.reg (EVT_STICKY w) = s.dev.reg (EVT_STICKY w)) ∧
    ∀ i, i < 32 → d.flag (EVT_STICKY 7) i = (s.dev.flag (EVT_STICKY 7) i || (decide (24 ≤ i) && bit v (i - 24)))) ∧
  (∀ (s : State) (a : Nat), s.dev.dramSz ≠ 0 → Raises s.dev →
    (∃ d, exec (.dramEccRead a false) s = .next { s with dev := d } ∧ Noted 222 s.dev d ∧ d.flag DRM_STAT 4 = true ∧
      d.reg DRM_CECNT = s.dev.reg DRM_CECNT + 1 ∧ d.carts = s.dev.carts ∧ Elsewhere s.dev d) ∧
    (∃ d, exec (.dramEccRead a true) s = .next { s with dev := d } ∧ Noted 221 s.dev d ∧ d.flag DRM_STAT 5 = true ∧
      d.reg DRM_UECNT = s.dev.reg DRM_UECNT + 1 ∧ (d.reg DRM_UEADDR).toNat = a / 64 % 2 ^ 27 ∧ Elsewhere s.dev d ∧
      d.carts = s.dev.carts.map (fun x => if x.toDram = false ∧ x.arrived = false ∧ x.dAddr ≤ a ∧ a < x.dAddr + 64 * x.lines
        then { x with bad := true } else x))) ∧
  (∀ s : State, dramHolds s.dev = true → Raises s.dev → ∃ d, exec .dramStall s = .next { s with dev := d } ∧ Entered 220 .hold 0 s.dev d ∧ HoldAsked d ∧
    d.carts = s.dev.carts.filter (fun x => !x.toDram) ∧ d.sram = s.dev.sram ∧ d.dram = s.dev.dram ∧
    ∀ x ∈ s.dev.carts, x.toDram = true → ∀ k : Fin 6, k.val = x.core % 6 → x.idx < 64 →
      (d.core k).done.getLsbD x.idx = true ∧ (d.core k).err.getLsbD x.idx = true)

open Sys2Proof Sys2Proof.Machine Sys2Proof.Claims in
/-- After an edge the commit words make its casks durable; application writes their entries in order, then the fault unit's
records; a parameters word whose second write fails is a Hold fault with WERR, one that fails once is not; a log write that fails
is a Degrade fault with FAIL, LOGON cleared and a spill record, and the next record takes the slot and number after it; with LOGON
0 a record is dropped and counted. FAIL written as 1 sets LOGON again; SPILLCLR empties the spill block (R338, R339, R342 to
R344). -/
def Obligations.CellarApplication : Prop :=
(∀ s : State,
    exec .commitWordWrite s = .next { s with dev := { s.dev with cel := { s.dev.cel with
      journal := s.dev.cel.journal.map (fun j => { j with word := true }) } } } ∧
    (∀ v : VerifyEnv, v.fails = [] → (∀ j ∈ s.dev.cel.journal, j.slot = none) → s.dev.cel.recs = [] →
      exec (.caskApply v) s = .next { s with dev := { s.dev with cel := { s.dev.cel with
        durable := (((s.dev.cel.journal.filter (·.word)).filter (fun j => decide (j.cask.tag ≠ 255))).flatMap
          (fun j => j.cask.entries)).foldl (fun m e => m.setWord e.1 e.2) s.dev.cel.durable,
        journal := s.dev.cel.journal.filter (fun j => !j.word),
        dead := if s.dev.cel.journal.filter (·.word) = [] then s.dev.cel.dead else 0 } } }) ∧
    (∀ (j : JCask) (a : Nat) (w : Word) (v : VerifyEnv), s.dev.cel.journal = [j] → j.word = true → j.slot = none →
      j.cask.tag ≠ 255 → j.cask.entries = [(a, w)] → s.dev.cel.recs = [] → 0x40000 ≤ a → a < 0x64000 →
      (v.fails = [a] → ∃ d, exec (.caskApply v) s = .next { s with dev := d } ∧
        d.cel.durable = s.dev.cel.durable.setWord a w ∧ d.fu = s.dev.fu ∧ d.regs = s.dev.regs) ∧
      (v.fails = [a, a] → Raises s.dev → ∃ d, exec (.caskApply v) s = .next { s with dev := d } ∧
        Entered 214 .hold (word (a / 8 * 8)) s.dev d ∧ HoldAsked d ∧ d.flag CEL_STAT 5 = true ∧
        d.reg CEL_WEADDR = word (a / 8 * 8) ∧ Elsewhere s.dev d)) ∧
    (∀ (r : LogRec) (v : VerifyEnv), s.dev.cel.journal = [] → s.dev.cel.recs = [r] → r.slot < 1536 →
      (s.dev.flag CEL_STAT 8 = true → v.fails = [] → exec (.caskApply v) s = .next { s with dev := { s.dev with
        cel := { s.dev.cel with durable := s.dev.cel.durable.setBytes (logOfs r.slot) r.bytes, recs := [] } } }) ∧
      (s.dev.flag CEL_STAT 8 = false → ∃ d, exec (.caskApply v) s = .next { s with dev := d } ∧
        d.reg CEL_DROPPED = s.dev.reg CEL_DROPPED + 1 ∧ d.cel.durable = s.dev.cel.durable ∧ d.cel.recs = [] ∧
        OnlyRegs { s.dev with cel := d.cel } d [CEL_DROPPED]) ∧
      (∀ w, w < 8 → s.dev.flag CEL_STAT 8 = true → v.fails = [logOfs r.slot + 8 * w] → Raises s.dev →
        ∃ d, exec (.caskApply v) s = .next { s with dev := d } ∧ Entered 208 .degrade (word (logOfs r.slot + 8 * w)) s.dev d ∧
          d.flag CEL_STAT 0 = true ∧ d.flag CEL_STAT 8 = false ∧ d.reg CEL_LOGHEAD = word ((r.slot + 1) % 1536) ∧
          d.reg CEL_LOGSEQ = r.seq + 1 ∧ Elsewhere s.dev d ∧
          (v.spillFail = false → s.dev.fld CEL_SPILLCNT 6 0 < 64 →
            d.reg CEL_SPILLCNT = word (s.dev.fld CEL_SPILLCNT 6 0 + 1) ∧ Stuck 209 d ∧
            d.cel.spill.word (64 * s.dev.fld CEL_SPILLCNT 6 0) = 0x4C4C5053 ∧
            d.cel.spill.word (64 * s.dev.fld CEL_SPILLCNT 6 0 + 4) = word (logOfs r.slot + 8 * w)) ∧
          (64 ≤ s.dev.fld CEL_SPILLCNT 6 0 ∨ v.spillFail = true → d.flag CEL_STAT 1 = true ∧ Stuck 210 d ∧
            d.cel.spill = s.dev.cel.spill)))) ∧
  (∀ (p : HostPort) (s : State), Holds p s →
    (s.dev.flag CEL_STAT 0 = true → ∃ d, exec (.logResume p) s = .next { s with dev := d } ∧ OnlyRegs s.dev d [CEL_STAT] ∧
      d.flag CEL_STAT 0 = false ∧ d.flag CEL_STAT 8 = true) ∧
    (s.dev.flag CEL_STAT 0 = false → ∃ d, exec (.logResume p) s = .next { s with dev := d } ∧
      SetsReg s.dev d CEL_STAT (s.dev.reg CEL_STAT)) ∧
    (∀ v : Word, bits v 31 24 ≠ 0x5C → exec (.spillclr p v) s = .next s) ∧
    (∀ v : Word, bits v 31 24 = 0x5C → bit v 0 = true → s.dev.mode = .commission →
      ∃ d, exec (.spillclr p v) s = .next { s with dev := d } ∧ d.cel = { s.dev.cel with spill := [] } ∧
        SetsReg { s.dev with cel := d.cel } d CEL_SPILLCNT 0))

open Sys2Proof Sys2Proof.Machine Sys2Proof.Claims in
/-- Trim steps: GO in Trim with no step running starts the step, or is refused with code 1 or 2 and event 233; otherwise it sets
IGN; a two-point step waits at its points and NEXT moves it on, driving 4 mA and 20 mA or codes 8,000 and 40,000; ABORT fails it
with code 7; the time-out ends it with code 5; a step ends with its result, with code 4 where no element fits, or, where it is the
one that can, with code 5 or 6; the end waits for a committing edge, which applies the result (R374 to R378). A
restore in Commission takes effect at once, and one of TRM_PWMSEL that does not name 16 of 20 cells sets CFGERR (R379). -/
def Obligations.TrimSteps : Prop :=
(∀ s : State,
    (∀ v : Word, ticking s.dev = true → s.dev.mode = .trim → s.dev.fld TRM_STAT 1 0 ≠ 1 → bit v 17 = false → bit v 18 = false →
      (bits v 10 8 < stepIndices (bits v 3 0) → stepNeeds s.dev (bits v 3 0) (bits v 10 8) = true →
        ∃ d, exec (.trimGo v) s = .next { s with dev := d } ∧ d.fld TRM_STAT 1 0 = 1 ∧ d.fld TRM_STAT 7 4 = bits v 3 0 ∧
          d.fld TRM_STAT 10 8 = bits v 10 8 ∧ d.fld TRM_STAT 13 12 = 0 ∧ OnlyRegs { s.dev with trim := d.trim } d [TRM_STAT]) ∧
      (stepIndices (bits v 3 0) ≤ bits v 10 8 → ∃ d, exec (.trimGo v) s = .next { s with dev := d } ∧
        d.fld TRM_STAT 1 0 = 3 ∧ d.fld TRM_STAT 19 16 = 1 ∧ Stuck 233 d ∧ Elsewhere s.dev d) ∧
      (bits v 10 8 < stepIndices (bits v 3 0) → stepNeeds s.dev (bits v 3 0) (bits v 10 8) = false →
        ∃ d, exec (.trimGo v) s = .next { s with dev := d } ∧ d.fld TRM_STAT 1 0 = 3 ∧ d.fld TRM_STAT 19 16 = 2 ∧
          Stuck 233 d ∧ Elsewhere s.dev d)) ∧
    (∀ v : Word, ticking s.dev = true → (s.dev.mode ≠ .trim ∨ s.dev.fld TRM_STAT 1 0 = 1) → bit v 17 = false → bit v 18 = false →
      ∃ d, exec (.trimGo v) s = .next { s with dev := d } ∧ SetsReg s.dev d TRM_STAT (setBit (s.dev.reg TRM_STAT) 24 true)) ∧
    (∀ v : Word, ticking s.dev = true → s.dev.fld TRM_STAT 1 0 ≠ 1 → (bit v 17 = true ∨ bit v 18 = true) →
      ∃ d, exec (.trimGo v) s = .next { s with dev := d } ∧ OnlyRegs s.dev d [TRM_STAT] ∧ d.flag TRM_STAT 24 = true ∧
        d.fld TRM_STAT 1 0 = s.dev.fld TRM_STAT 1 0) ∧
    (s.dev.fld TRM_STAT 1 0 = 1 →
      (ticking s.dev = true → s.dev.fld TRM_STAT 13 12 = 1 → ∃ d, exec .trimNext s = .next { s with dev := d } ∧ d.fld TRM_STAT 13 12 = 2 ∧
        d.trim.points = 2 ∧ Elsewhere s.dev d ∧ (s.dev.fld TRM_STAT 7 4 = 4 → d.tdl.trim = some 40000) ∧
        (s.dev.fld TRM_STAT 7 4 = 3 → ∀ j : Fin 4, j.val = s.dev.fld TRM_STAT 10 8 →
          (d.field.isl.ao[j]).point = some (131070000 * 20))) ∧
      (ticking s.dev = true → s.dev.fld TRM_STAT 13 12 = 2 → ∃ d, exec .trimNext s = .next { s with dev := d } ∧ d.fld TRM_STAT 13 12 = 0 ∧
        d.trim.points = 3 ∧ Elsewhere s.dev d ∧ (s.dev.fld TRM_STAT 7 4 = 4 → d.tdl.trim = none)) ∧
      (ticking s.dev = true → ∃ d, exec .trimAbort s = .next { s with dev := d } ∧ d.fld TRM_STAT 1 0 = 3 ∧ d.fld TRM_STAT 19 16 = 7 ∧
        d.fld TRM_STAT 13 12 = 0 ∧ Stuck 233 d ∧ d.trim.ended = none ∧ d.tdl.trim = none ∧ Elsewhere s.dev d) ∧
      (s.dev.trim.ended = none → s.dev.trim.points = 0 → s.dev.fld TRM_STAT 13 12 = 0 →
        (s.dev.fld TRM_STAT 7 4 = 3 ∨ s.dev.fld TRM_STAT 7 4 = 4) →
        ∃ d, exec .trimPointReached s = .next { s with dev := d } ∧ d.fld TRM_STAT 13 12 = 1 ∧ d.trim.points = 1 ∧
          (s.dev.fld TRM_STAT 7 4 = 4 → d.tdl.trim = some 8000) ∧ Elsewhere s.dev d) ∧
      (s.dev.fld TRM_STAT 13 12 ≠ 0 → ∃ d, exec .trimPointTimeout s = .next { s with dev := d } ∧
        d.trim.ended = some (5, []) ∧ d.fld TRM_STAT 13 12 = 0 ∧ Elsewhere s.dev d) ∧
      (∀ r, s.dev.trim.ended = none → trimResultOk (s.dev.fld TRM_STAT 7 4) r = true →
        ((s.dev.fld TRM_STAT 7 4 = 3 ∨ s.dev.fld TRM_STAT 7 4 = 4) → s.dev.trim.points = 3) →
        ∃ d, exec (.trimStepEnd 0 r) s = .next { s with dev := d } ∧ d.trim.ended = some (0, r) ∧ Elsewhere s.dev d) ∧
      (∀ (c : BitVec 4) r, s.dev.trim.ended = none →
        (c = 4 ∨ (c = 5 ∧ s.dev.fld TRM_STAT 7 4 = 2) ∨ (c = 6 ∧ s.dev.fld TRM_STAT 7 4 = 5 ∧
          ((s.dev.fld TRM_STAT 10 8 = 0 ∧ s.dev.fldLink = false) ∨ (s.dev.fld TRM_STAT 10 8 ≠ 0 ∧ s.dev.tdlLink = false)))) →
        ∃ d, exec (.trimStepEnd c r) s = .next { s with dev := d } ∧ d.trim.ended = some (c.toNat, []) ∧ Elsewhere s.dev d)) ∧
    (s.dev.fld TRM_STAT 1 0 ≠ 1 → exec .trimAbort s = .next s ∧
      (ticking s.dev = true → ∃ d, exec .trimNext s = .next { s with dev := d } ∧ SetsReg s.dev d TRM_STAT (setBit (s.dev.reg TRM_STAT) 24 true)))) ∧
  (∀ (d : Dev) (c : Nat) (r : List Word), d.trim.ended = some (c, r) → d.fld TRM_STAT 1 0 = 1 → Raises d →
    (c = 0 → (trimApply d).fld TRM_STAT 1 0 = 2 ∧ Stuck 232 (trimApply d) ∧
      (d.fld TRM_STAT 7 4 = 0 → (trimApply d).reg TRM_PWMSEL = r.getD 0 0 ∧ (trimApply d).flag TRM_SRC 0 = true) ∧
      (d.fld TRM_STAT 7 4 = 1 → d.fld TRM_STAT 10 8 < 3 → (trimApply d).reg (TRM_SDSEL (d.fld TRM_STAT 10 8)) = r.getD 0 0) ∧
      (d.fld TRM_STAT 7 4 = 2 → (trimApply d).reg (FB_SCOFS (d.fld TRM_STAT 10 8)) = r.getD 1 0) ∧
      (d.fld TRM_STAT 7 4 = 6 → (trimApply d).reg TRM_CELSEL = r.getD 0 0)) ∧
    (c ≠ 0 → c < 16 → (trimApply d).fld TRM_STAT 1 0 = 3 ∧ (trimApply d).fld TRM_STAT 19 16 = c ∧ Stuck 233 (trimApply d) ∧
      (trimApply d).reg TRM_SRC = d.reg TRM_SRC)) ∧
  (∀ (p : HostPort) (s : State) (v : Word), Holds p s → s.dev.mode = .commission →
    (v.toNat < 2 ^ 20 → popCount v.toNat 20 = 16 → ∃ d, exec (.trimRestoreWrite p TRM_PWMSEL v) s = .next { s with dev := d } ∧
      SetsReg s.dev d TRM_PWMSEL v) ∧
    ((2 ^ 20 ≤ v.toNat ∨ popCount v.toNat 20 ≠ 16) → ∃ d, exec (.trimRestoreWrite p TRM_PWMSEL v) s = .next { s with dev := d } ∧
      SetsReg s.dev d TRM_STAT (setBit (s.dev.reg TRM_STAT) 25 true)) ∧
    ∀ a r, wcNow a = true → a ≠ TRM_PWMSEL → a ≠ DRM_CFG → row? a = some r →
      ∃ d, exec (.trimRestoreWrite p a v) s = .next { s with dev := d } ∧ SetsReg s.dev d a (v &&& (r.rw ||| r.wt ||| r.wc)))

open Sys2Proof Sys2Proof.Machine Sys2Proof.Claims in
/-- A committed READ starts each named bus that is enabled and not reading, and sets IGN of the others; a read that ends raises
event 240 + b and takes the first outcome of R382 that applies; its landing at a committing edge shows STATE, COUNT, MATCH,
CHANGED, PART and SERIAL, and the record with LAND = 1 in tick SRAM (R382 to R385). -/
def Obligations.IdentityReads : Prop :=
(∀ (s : State) (m : BitVec 4), ticking s.dev = true → ∃ d, exec (.idRead m) s = .next { s with dev := d } ∧ Elsewhere s.dev d ∧
    ∀ b : Fin 4,
      (m.getLsbD b = false → d.bus b = s.dev.bus b ∧ d.reg (IDN_STAT b) = s.dev.reg (IDN_STAT b)) ∧
      (m.getLsbD b = true → (s.dev.bus b).busy = false → s.dev.flag (IDN_CFG b) 12 = true →
        d.bus b = { s.dev.bus b with busy := true, sent := idSent (s.dev.reg (IDN_CFG b)) } ∧ d.fld (IDN_STAT b) 2 0 = 1 ∧
          d.flag (IDN_STAT b) 16 = s.dev.flag (IDN_STAT b) 16) ∧
      (m.getLsbD b = true → ((s.dev.bus b).busy = true ∨ s.dev.flag (IDN_CFG b) 12 = false) →
        d.bus b = s.dev.bus b ∧ d.flag (IDN_STAT b) 16 = true)) ∧
  (∀ (s : State) (b : Fin 4) (w : IdWire),
    ((s.dev.bus b).busy = false → exec (.idReadEnd b w) s = .next s) ∧
    ((s.dev.bus b).busy = true → Raises s.dev → ∃ d, exec (.idReadEnd b w) s = .next { s with dev := d } ∧ Elsewhere s.dev d ∧
      Stuck (240 + b) d ∧ (∀ k, k ≠ b → d.bus k = s.dev.bus k) ∧ (d.bus b).busy = false ∧
      (w = .busErr → (d.bus b).ended = some (5, [])) ∧ (w = .absent → (d.bus b).ended = some (3, [])) ∧
      (∀ bs, w = .data bs → bs.length = 128 →
        (leBytes (crcCcitt (bs.take 126)).toNat 2 ≠ bs.drop 126 → (d.bus b).ended = some (4, bs)) ∧
        (leBytes (crcCcitt (bs.take 126)).toNat 2 = bs.drop 126 →
          (bs.take 3 = [0x50, 0x4E, 1] → (d.bus b).ended = some (2, bs)) ∧
          (bs.take 3 ≠ [0x50, 0x4E, 1] → (d.bus b).ended = some (6, bs)))))) ∧
  (∀ (s : State) (b : Fin 4),
    ((s.dev.bus b).ended = none → exec (.idLanding b) s = .next s) ∧
    (∀ st bs, ticking s.dev = true → (s.dev.bus b).ended = some (st, bs) → st < 8 → bs.length = 128 → ∃ d, exec (.idLanding b) s = .next { s with dev := d } ∧
      (d.bus b).ended = none ∧ (∀ k, k ≠ b → d.bus k = s.dev.bus k) ∧ d.cores = s.dev.cores ∧ d.tick = s.dev.tick ∧
      ((s.dev.bus b).busy = false → d.fld (IDN_STAT b) 2 0 = st) ∧
      d.fld (IDN_STAT b) 15 8 = (s.dev.fld (IDN_STAT b) 15 8 + 1) % 256 ∧
      (∀ i, i < 32 → leBytes (d.reg (IDN_REC b i)).toNat 4 = (bs.drop (4 * i)).take 4) ∧
      (st ≠ 2 → d.flag (IDN_STAT b) 3 = false ∧ (d.bus b).part = (s.dev.bus b).part ∧ (d.bus b).serial = (s.dev.bus b).serial) ∧
      (st = 2 →
        (d.bus b).part = d.reg (IDN_REC b 2) ∧ (d.bus b).serial = d.reg (IDN_REC b 3) ∧ (d.bus b).good = true ∧
        (d.flag (IDN_STAT b) 3 = true ↔
          (s.dev.fld (IDN_EXPKIND b) 7 0 = 0 ∨ s.dev.fld (IDN_EXPKIND b) 7 0 = bits (d.reg (IDN_REC b 0)) 31 24) ∧
          (s.dev.reg (IDN_EXPMAKER b) = 0 ∨ s.dev.reg (IDN_EXPMAKER b) = d.reg (IDN_REC b 1)) ∧
          (s.dev.reg (IDN_EXPPART b) = 0 ∨ s.dev.reg (IDN_EXPPART b) = d.reg (IDN_REC b 2))) ∧
        (d.flag (IDN_STAT b) 4 = true ↔ (s.dev.bus b).good = true ∧
          ((s.dev.bus b).part ≠ d.reg (IDN_REC b 2) ∨ (s.dev.bus b).serial ≠ d.reg (IDN_REC b 3)))) ∧
      (s.dev.flag (IDN_CFG b) 10 = false → d.sram = s.dev.sram) ∧
      (s.dev.flag (IDN_CFG b) 10 = true → s.dev.fld (IDN_DEST b) 21 6 < 65535 →
        d.sram = s.dev.sram.setBytes (s.dev.fld (IDN_DEST b) 21 6 * 64) bs)))

namespace Sys2Proof.Claims
open Sys2Proof
open Sys2Proof.Machine

/-- The monitor receives frames: READY, MON_CFG.EN, and its clock runs. -/
def Listens (d : Dev) : Prop := d.ready = true ∧ d.flag MON_CFG 0 = true ∧ Raises d

/-- The response of R386: 0x5A, LEN, CMD, SEQ, STATUS, the payload, and the CRC from LEN to the end of the payload. -/
def respFrame (cmd seq status : Byte) (pl : List Byte) : List Byte :=
  [0x5A] ++ ([BitVec.ofNat 8 pl.length, cmd, seq, status] ++ pl) ++
    leBytes (crcCcitt ([BitVec.ofNat 8 pl.length, cmd, seq, status] ++ pl)).toNat 2

/-- A device whose monitor has sent a response, and that is otherwise the given one. -/
def replied (cmd : Byte) (f : MonFrame) (status : Byte) (pl : List Byte) (d : Dev) : Dev :=
  { d with mon := { d.mon with resp := respFrame cmd f.seq status pl } }

/-- A session is open; the tick is held. -/
def Session (d : Dev) : Prop := d.flag MON_STAT 0 = true
def Held (d : Dev) : Prop := d.flag MON_STAT 1 = true

/-- The tick runs on from a hold: HELD and MON_STEPS read 0 and the next edge falls one period from now (R391). -/
def RunsOn (d e : Dev) : Prop :=
  e.flag MON_STAT 1 = false ∧ e.tick = { d.tick with due := d.now + d.period } ∧ e.mon.holdReq = false

end Sys2Proof.Claims

open Sys2Proof Sys2Proof.Machine Sys2Proof.Claims in
/-- Requests of the monitor that need no session: INFO answers four registers, READ committed words, CORE the registers of a core as
committed at the most recent edge, TRACE entries of the trace ring; a malformed request answers BADCMD and an access that breaks
R17 ACCESS. A gap discards a frame; a framing error also raises event 246 (R386, R387). -/
def Obligations.MonitorReads : Prop :=
∀ (s : State) (f : MonFrame),
    (Listens s.dev →
      (f.payload = [] → exec (.monInfo f) s = .next { s with dev := replied 1 f 0 (([SYS_ID, SYS_STEP, SYS_MODE, MON_STAT].flatMap
        (fun a => leBytes (readReg s.dev s.snap .monitor a).toNat 4))) s.dev }) ∧
      (f.payload ≠ [] → exec (.monInfo f) s = .next { s with dev := replied 1 f 1 [] s.dev }) ∧
      (∀ a n, 1 ≤ n → n ≤ 16 → a % 4 = 0 → a + 4 * n ≤ 0x400000 → f.payload = leBytes a 4 ++ [BitVec.ofNat 8 n] →
        exec (.monRead f) s = .next { s with dev := replied 2 f 0 (s.dev.sram.bytes a (4 * n)) s.dev }) ∧
      (∀ a, a < 2 ^ 32 → accessRegion a 4 = some .regs → a ≠ TCK_COUNT_LO → a ≠ TCK_EDGETS_LO → a ≠ TCK_TS_LO →
        f.payload = leBytes a 4 ++ [1] →
        exec (.monRead f) s = .next { s with dev := replied 2 f 0 (leBytes (readReg s.dev s.snap .monitor a).toNat 4) s.dev }) ∧
      (f.payload = leBytes TCK_COUNT_LO 4 ++ [1] →
        ∃ d, exec (.monRead f) s = .next { s with dev := d } ∧ d = replied 2 f 0 (leBytes (s.dev.tick.count.toNat % 2 ^ 32) 4)
          { s.dev with mon := { s.dev.mon with hiCount := hiWord s.dev.tick.count } }) ∧
      (∀ a (n : Byte), a < 2 ^ 32 → 1 ≤ n.toNat → n.toNat ≤ 16 → accessRegion a 4 = none → f.payload = leBytes a 4 ++ [n] →
        exec (.monRead f) s = .next { s with dev := replied 2 f 4 [] s.dev }) ∧
      (∀ (k file first count : Byte), f.payload = [k, file, first, count] →
        (k.toNat ≤ 5 → file = 0 → 1 ≤ count.toNat → count.toNat ≤ 16 → first.toNat + count.toNat ≤ 32 →
          exec (.monCore f) s = .next { s with dev := replied 4 f 0 ((List.range count.toNat).flatMap (fun i =>
            leBytes ((s.snap.core (Fin.ofNat 6 k.toNat)).gr (Fin.ofNat 32 (first.toNat + i))).toNat 4)) s.dev }) ∧
        (k.toNat ≤ 5 → file = 2 → 1 ≤ count.toNat → first.toNat + count.toNat ≤ 4 →
          exec (.monCore f) s = .next { s with dev := replied 4 f 0 ((List.range count.toNat).flatMap (fun i =>
            leBytes ((s.snap.core (Fin.ofNat 6 k.toNat)).a[Fin.ofNat 4 (first.toNat + i)]).toNat 8)) s.dev }) ∧
        (5 < k.toNat ∨ 3 < file.toNat ∨ count = 0 → exec (.monCore f) s = .next { s with dev := replied 4 f 1 [] s.dev })) ∧
      (∀ e n, e < 256 → 1 ≤ n → n ≤ 2 → f.payload = leBytes e 2 ++ [BitVec.ofNat 8 n] →
        exec (.monTrace f) s = .next { s with dev := replied 10 f 0 ((List.range (8 * n)).flatMap (fun i =>
          leBytes (s.dev.reg (MON_TRBUF ((8 * e + i) % 2048))).toNat 4)) s.dev }) ∧
      (f.payload.length ≠ 3 → exec (.monTrace f) s = .next { s with dev := replied 10 f 1 [] s.dev }) ∧
      (∃ d, exec .monFrameError s = .next { s with dev := d } ∧ Stuck 246 d ∧ d.mon.resp = s.dev.mon.resp ∧ Elsewhere s.dev d)) ∧
    ((s.dev.ready = false ∨ s.dev.flag MON_CFG 0 = false) → exec (.monInfo f) s = .next s ∧ exec (.monRead f) s = .next s) ∧
    exec .monFrameGap s = .next s

open Sys2Proof Sys2Proof.Machine Sys2Proof.Claims in
/-- Sessions: the right code in Commission with ALLOW opens one with event 244, a wrong one counts, at 3 UNLOCK is refused until
MON_CODE is written; CLOSE and the idle time-out close it; with one, HOLD asks for a hold, STEP and FREE let a held tick run on,
BAUD sets the divisor, and WRITE is staged as the holder's write with event 245, refused whole where one target refuses (R388,
R389, R391). The edge that ends the last stepped tick holds it again. -/
def Obligations.MonitorSessions : Prop :=
(∀ (s : State) (f : MonFrame), Listens s.dev →
    (∀ c, c < 2 ^ 32 → f.payload = leBytes c 4 →
      (s.dev.mode = .commission → s.dev.flag MON_CFG 1 = true → s.dev.fld MON_STAT 9 8 < 3 →
        (s.dev.mon.code.toNat = c → ¬ Session s.dev → ∃ d, exec (.monUnlock f) s = .next { s with dev := d } ∧ Session d ∧
          Stuck 244 d ∧ d.mon.resp = respFrame 5 f.seq 0 [] ∧ Elsewhere s.dev d) ∧
        (s.dev.mon.code.toNat ≠ c → ∃ d, exec (.monUnlock f) s = .next { s with dev := d } ∧
          d.fld MON_STAT 9 8 = s.dev.fld MON_STAT 9 8 + 1 ∧ d.flag MON_STAT 0 = s.dev.flag MON_STAT 0 ∧
          d.mon.resp = respFrame 5 f.seq 3 [] ∧ Elsewhere s.dev d)) ∧
      (s.dev.mode = .commission → (s.dev.flag MON_CFG 1 = false ∨ s.dev.fld MON_STAT 9 8 = 3) →
        exec (.monUnlock f) s = .next { s with dev := replied 5 f 3 [] s.dev }) ∧
      (s.dev.mode ≠ .commission → exec (.monUnlock f) s = .next { s with dev := replied 5 f 5 [] s.dev })) ∧
    (f.payload = [] →
      (Session s.dev → ∃ d, exec (.monClose f) s = .next { s with dev := d } ∧ ¬ Session d ∧ ¬ Held d ∧
        d.mon.resp = respFrame 6 f.seq 0 [] ∧ (Held s.dev → RunsOn s.dev d) ∧ (¬ Held s.dev → d.tick = s.dev.tick)) ∧
      (Session s.dev → ¬ Held s.dev → ∃ d, exec (.monHold f) s = .next { s with dev := d } ∧
        d = replied 7 f 0 [] { s.dev with mon := { s.dev.mon with holdReq := true } }) ∧
      (Session s.dev → Held s.dev → ∃ d, exec (.monFree f) s = .next { s with dev := d } ∧ Session d ∧ RunsOn s.dev d ∧
        d.mon.resp = respFrame 9 f.seq 0 []) ∧
      (¬ Session s.dev → exec (.monHold f) s = .next { s with dev := replied 7 f 2 [] s.dev } ∧
        exec (.monFree f) s = .next { s with dev := replied 9 f 2 [] s.dev })) ∧
    (∀ n, n < 65536 → f.payload = leBytes n 2 → Session s.dev →
      (1 ≤ n → Held s.dev → ∃ d, exec (.monStep f) s = .next { s with dev := d } ∧ RunsOn s.dev d ∧ d.mon.stepping = true ∧
        d.reg MON_STEPS = word n ∧ d.mon.resp = respFrame 8 f.seq 0 []) ∧
      (1 ≤ n → ¬ Held s.dev → exec (.monStep f) s = .next { s with dev := replied 8 f 3 [] s.dev }) ∧
      (16 ≤ n → exec (.monBaud f) s = .next { s with dev := replied 11 f 0 [] (s.dev.setReg MON_BAUD (word n)) }) ∧
      (n < 16 → exec (.monBaud f) s = .next { s with dev := replied 11 f 1 [] s.dev })) ∧
    (∀ a (w : Word), Session s.dev → f.payload = leBytes a 4 ++ leBytes w.toNat 4 →
      (a % 4 = 0 → a + 4 ≤ 0x400000 → ∃ d, exec (.monWrite f) s = .next { s with dev := d } ∧
        d.tick = (stageHost .monitor (.sram a 4 w.toNat) s.dev).tick ∧ Stuck 245 d ∧ d.mon.resp = respFrame 3 f.seq 0 [] ∧
        d.sram = s.dev.sram ∧ d.cores = s.dev.cores ∧ d.mode = s.dev.mode) ∧
      (a ∈ [SYS_CMD, SYS_MODEREQ, LIM_LOADCMD, HRN_SEALCMD, HRN_PROP 0, TDL_NVCMD, CEL_CMD, FLT_STAT, SYS_HOLDCAUSE, HST_HB, MON_CFG,
          MON_CODE, 0x2000000] → exec (.monWrite f) s = .next { s with dev := replied 3 f 3 [] s.dev })) ∧
    (∀ w : List Byte, f.payload = w → ¬ Session s.dev → w.length % 4 = 0 → 8 ≤ w.length → w.length ≤ 64 →
      exec (.monWrite f) s = .next { s with dev := replied 3 f 2 [] s.dev })) ∧
  (∀ s : State,
    (Session s.dev → ∃ d, exec .monIdleTimeout s = .next { s with dev := d } ∧ ¬ Session d ∧ ¬ Held d ∧
      (Held s.dev → RunsOn s.dev d)) ∧
    (¬ Session s.dev → exec .monIdleTimeout s = .next s) ∧
    (s.dev.mon.stepping = true → s.dev.reg MON_STEPS = 1 → s.dev.tick.phase ≠ .idle →
      exec .monStepEnd s = .next (tickEdge .agree s))) ∧
  (∀ d : Dev, d.mon.stepping = true → d.reg MON_STEPS = 1 → Session d → Held (monEdge true d) ∧ (monEdge true d).reg MON_STEPS = 0) ∧
  (∀ (p : HostPort) (s : State) (v : Word), Holds p s → ∃ d, exec (.monCodeWrite p v) s = .next { s with dev := d } ∧
    d.mon.code = v ∧ d.fld MON_STAT 9 8 = 0 ∧ d.flag MON_STAT 0 = s.dev.flag MON_STAT 0 ∧
    OnlyRegs { s.dev with mon := d.mon } d [MON_STAT])

namespace Sys2Proof.Claims
open Sys2Proof
open Sys2Proof.Machine

/-- The tick runs: READY, no Halt, not stopped, not held. -/
def Running (d : Dev) : Prop := d.ready = true ∧ d.halted = false ∧ d.pw.stopped = false ∧ d.flag MON_STAT 1 = false

/-- No timed command waits at either port. -/
def NoTimed (d : Dev) : Prop := d.pa.timed = [] ∧ d.pb.timed = []

/-- A core at the start of a program: what R51 keeps is kept, and PC, return stack and loop counters are those of R52. -/
def Started (entry : Nat) (c e : Core) : Prop :=
  e.run = .tick ∧ e.pc = BitVec.ofNat 14 entry ∧ e.stack = [] ∧ e.lc = Vector.replicate 4 0 ∧ e.g = c.g ∧ e.f = c.f ∧ e.a = c.a ∧
  e.p = c.p ∧ e.cst = c.cst ∧ e.dmem = c.dmem ∧ e.imem = c.imem

end Sys2Proof.Claims

open Sys2Proof Sys2Proof.Machine Sys2Proof.Claims in
/-- The parts of a tick: COMPUTE_START ends Capture 4,500 tick units after the edge and starts every core with a program (R51, R52);
a fractional edge applies the waiting compares of the lanes that use it and samples (R188), unless the tick's work has stopped
(R43); STAGE_START ends Compute, and its guard stops a core that still runs and marks a tree invocation that is not over (R33); a
host write held while the staging area was full
completes once there is room (R40, R96). -/
def Obligations.TickParts : Prop :=
(∀ s : State, Running s.dev →
    (s.dev.tick.phase = .capture → ∃ d e, exec .computeStart s = .next { s with dev := d, snap := e } ∧
      e.tick = { s.dev.tick with phase := .compute } ∧ d.tick = { e.tick with staged := d.tick.staged } ∧
      e.now = max s.dev.now (s.dev.tick.edgeAt + 4500) ∧ d.now = e.now ∧
      d.sram = s.dev.sram ∧ e.sram = s.dev.sram ∧
      e.lanes = laneLatch s.snap.lanes s.dev.lanes ∧ e.trees.runs = [] ∧
      (s.dev.tick.stopWork = false → s.snap.fu.stack = [] → ∀ k : Fin 6,
        (∀ n, tickEntry s.dev k = some n → Started n (s.dev.core k) (d.core k)) ∧
        (tickEntry s.dev k = none → (d.core k).run = (s.dev.core k).run ∧ (d.core k).g = (s.dev.core k).g)) ∧
      (s.dev.tick.stopWork = true → d = { e with lanes := d.lanes })) ∧
    (s.dev.tick.phase ≠ .capture → exec .computeStart s = .next s) ∧
    (∀ i : Fin 3, s.dev.tick.phase = .compute → s.dev.tick.fracDone = i.val →
      ∃ d, exec (.fractionalEdge i) s = .next { s with dev := d } ∧ d.tick = { s.dev.tick with fracDone := i + 1 } ∧
        d.now = max s.dev.now (s.dev.tick.edgeAt + (i + 1) * (s.dev.tick.due - s.dev.tick.edgeAt) / 4) ∧
        d.regs = s.dev.regs ∧ Elsewhere { s.dev with tick := d.tick } d ∧
        (s.dev.tick.stopWork = true → d.lanes = s.dev.lanes) ∧
        (s.dev.tick.stopWork = false → ∀ n : Fin 16,
          (usesFrac s.dev n i = true → laneRuns s.dev n = true →
            (d.lane n).next = none ∧ (d.lane n).pmS = (s.dev.ch (axisCh s.dev n)).cnt ∧
            ∀ v, (s.dev.lane n).next = some v →
              (s.dev.flag (CTL_CARRIER n) 31 = true → (d.lane n).load = v ∧ (d.lane n).drive = true) ∧
              (s.dev.flag (CTL_CARRIER n) 31 = false → (d.lane n).wait = some v ∧ (d.lane n).load = (s.dev.lane n).load)) ∧
          ((usesFrac s.dev n i = false ∨ laneRuns s.dev n = false) → d.lane n = s.dev.lane n))) ∧
    (s.dev.tick.phase = .compute → s.dev.pa.held = [] → s.dev.pb.held = [] → NoTimed s.dev →
      (∀ k : Fin 6, (s.dev.core k).run ≠ .tick ∧ (s.dev.core k).run ≠ .fault) → s.dev.tick.abandoning = true →
      s.dev.trees.runs.any (fun r => decide (s.dev.tickBudget < r.ends)) = false →
      ∃ d, exec .stageStart s = .next { s with dev := d } ∧ d = { s.dev with tick := { s.dev.tick with phase := .stage }, now := d.now } ∧
        d.now = max (max s.dev.now s.dev.lastCycle) (s.dev.tick.edgeAt + (s.dev.tick.due - s.dev.tick.edgeAt - 6000))) ∧
    (s.dev.tick.phase = .compute → s.dev.pa.held = [] → s.dev.pb.held = [] → ∃ d, exec .stageStart s = .next { s with dev := d } ∧ d.tick.phase = .stage ∧
      d.sram = s.dev.sram ∧ d.tick.count = s.dev.tick.count)) ∧
  (∀ (d : Dev) (k : Fin 6), Raises d → d.tick.phase ≠ .idle → (d.core k).run = .tick →
    (∀ j : Fin 6, j ≠ k → (d.core j).run ≠ .tick ∧ (d.core j).run ≠ .fault) →
    d.trees.runs.any (fun r => decide (d.tickBudget < r.ends)) = false →
    (guardCheck d).reg TCK_GUARD = word (2 ^ k.val) ∧ ((guardCheck d).core k).run = .stopped ∧
    (guardCheck d).tick.slipGuard = true ∧ (guardCheck d).tick.stopWork = true ∧
    Entered 3 .slip (word (2 ^ k.val)) d (guardCheck d)) ∧
  (∀ d : Dev, Raises d → d.tick.phase ≠ .idle → (∀ k : Fin 6, (d.core k).run ≠ .fault) →
    d.trees.runs.any (fun r => decide (d.tickBudget < r.ends)) = true →
    (guardCheck d).flag TCK_GUARD 6 = true ∧ (guardCheck d).tick.stopWork = true ∧
    (∀ k : Fin 6, (guardCheck d).flag TCK_GUARD k.val = decide ((d.core k).run = .tick))) ∧
  (∀ (p : HostPort) (s : State) (a : Nat) (sz : AccSize) (v : DWord), s.dev.ready = true → (s.dev.port p).held = [.dev a (accBytes sz) v] →
    s.dev.reins.holder = some p → a + accBytes sz ≤ 0x400000 →
    (stagedBy p s.dev < 256 → ∃ d, exec (.heldWtWriteComplete p) s = .next { s with dev := d } ∧
      d = stageHost (.host p) (.sram a (accBytes sz) v.toNat) (s.dev.setPort p { s.dev.port p with held := [] })) ∧
    (256 ≤ stagedBy p s.dev → exec (.heldWtWriteComplete p) s = .next s))

open Sys2Proof Sys2Proof.Machine Sys2Proof.Claims in
/-- The edge: where the parts of the tick have been commanded and no timed command waits, TICK_EDGE is the edge at its instant, and,
unless it halts, it is what programs and ports see from then on; while the tick does not run it is nothing. Staged writes of tick SRAM commit in
order (R39). Where no two copies of the commit logic agree nothing commits and the device halts (R37). An abandoned tick leaves
tick SRAM as it was, reverts the cores, counts its slip and raises event 0 (R42, R43, R51). The tick after SLIPMAX abandoned ones
is a Hold fault with TCK_SLIPCAUSE.LIMIT (R44). -/
def Obligations.TickEdges : Prop :=
(∀ (s : State) (v : CommitVote),
    (Running s.dev → s.dev.tick.phase = .stage → NoTimed s.dev → exec (.tickEdge v) s =
      .next { s with dev := edgeAt v s.snap s.dev, snap := if (edgeAt v s.snap s.dev).halted then s.snap else edgeAt v s.snap s.dev }) ∧
    (¬ Running s.dev → exec (.tickEdge v) s = .next s) ∧
    (Running s.dev → s.dev.tick.phase = .stage → NoTimed s.dev → s.dev.tick.abandoning = false → Raises s.dev → v = .noMajority →
      ∃ d, exec (.tickEdge v) s = .next { s with dev := d } ∧ HaltStands d ∧ d.sram = s.dev.sram ∧
        d.cores = s.dev.cores ∧ d.tick.count = s.dev.tick.count ∧ d.now = max s.dev.now s.dev.tick.due ∧
        Entered 2 .halt 7 { s.dev with now := d.now } d) ∧
    (Running s.dev → s.dev.tick.phase = .stage → NoTimed s.dev → s.dev.tick.abandoning = true →
      ∃ d, exec (.tickEdge v) s = .next { s with dev := d, snap := d } ∧ d.sram = s.dev.sram)) ∧
  (∀ (d : Dev) (l : List Staged), (∀ x ∈ l, ∃ a n v, x.w = .sram a n v) →
    (commitWrites l d).sram = l.foldl (fun m x => match x.w with
      | .sram a n v => m.write a n v
      | _ => m) d.sram) ∧
  (∀ (c : Nat) (snap d : Dev), Raises d →
    (edgeAbandon c snap d).sram = d.sram ∧ (edgeAbandon c snap d).reg TCK_SLIPS = d.reg TCK_SLIPS + 1 ∧
    (edgeAbandon c snap d).reg TCK_CONSEC = d.reg TCK_CONSEC + 1 ∧
    (edgeAbandon c snap d).reg TCK_SLIPCAUSE = d.reg TCK_SLIPCAUSE ||| word c ∧ Stuck 0 (edgeAbandon c snap d) ∧
    (edgeAbandon c snap d).tick.abandoned = true ∧ (edgeAbandon c snap d).ev.folded = d.ev.folded + 1 ∧
    ∀ k : Fin 6, ((edgeAbandon c snap d).core k).g = (snap.core k).g ∧ ((edgeAbandon c snap d).core k).f = (snap.core k).f ∧
      ((edgeAbandon c snap d).core k).a = (snap.core k).a ∧ ((edgeAbandon c snap d).core k).p = (snap.core k).p ∧
      ((edgeAbandon c snap d).core k).cst = (snap.core k).cst ∧ ((edgeAbandon c snap d).core k).dmem = (snap.core k).dmem ∧
      ((edgeAbandon c snap d).core k).busy = (snap.core k).busy ∧ ((edgeAbandon c snap d).core k).imem = (d.core k).imem) ∧
  (∀ s : State,
    (Running s.dev → Raises s.dev → s.dev.tick.phase ≠ .idle → s.dev.fld TCK_CFG 7 0 ≤ (s.dev.reg TCK_CONSEC).toNat →
      s.dev.tick.limitDone = false → ∃ d, exec .slipLimit s = .next { s with dev := d } ∧ HoldAsked d ∧
        Entered 4 .hold (word (s.dev.fld TCK_CFG 7 0)) s.dev d ∧ d.flag TCK_SLIPCAUSE 3 = true ∧
        d.tick = { s.dev.tick with limitDone := true }) ∧
    ((s.dev.reg TCK_CONSEC).toNat < s.dev.fld TCK_CFG 7 0 ∨ s.dev.tick.limitDone = true → exec .slipLimit s = .next s))

open Sys2Proof Sys2Proof.Machine Sys2Proof.Claims in
/-- At every edge at which the commit logic has a majority, committed or abandoned, TCK_COUNT increments by one, whatever else the
edge does (R42); the edge stands at its due instant, and what it leaves is what programs and ports read from then on. -/
def Obligations.EdgeCounts : Prop :=
∀ (s : State) (v : CommitVote), Running s.dev → s.dev.tick.phase = .stage → NoTimed s.dev → v ≠ .noMajority →
    ∃ d, exec (.tickEdge v) s = .next { s with dev := d, snap := d } ∧ d.tick.count = s.dev.tick.count + 1 ∧
      d.tick.edgeAt = max s.dev.now s.dev.tick.due ∧ d.halted = false

open Sys2Proof Sys2Proof.Machine Sys2Proof.Claims in
/-- R58: DIV and REM with rb = 0, and signed DIV and REM of 0x8000_0000 by 0xFFFF_FFFF, with CST.DZ (bit 1) and CST.SAT (bit 0). -/
def Obligations.DivisionCorners : Prop :=
∀ (o : Lim) (s : State), Executes o s →
    ((from_ o s).gr (rbOf o) = 0 →
      (fnOf o = 0 → 0 ≤ ((from_ o s).gr (raOf o)).toInt →
        ∃ c, exec (.div o) s = .next (withCore o s c) ∧ OnlyG (from_ o s) c (rdOf o) 0x7FFFFFFF 2) ∧
      (fnOf o = 0 → ((from_ o s).gr (raOf o)).toInt < 0 →
        ∃ c, exec (.div o) s = .next (withCore o s c) ∧ OnlyG (from_ o s) c (rdOf o) 0x80000000 2) ∧
      (fnOf o = 1 → ∃ c, exec (.div o) s = .next (withCore o s c) ∧ OnlyG (from_ o s) c (rdOf o) 0xFFFFFFFF 2) ∧
      (fnOf o ≤ 1 → ∃ c, exec (.rem o) s = .next (withCore o s c) ∧
        OnlyG (from_ o s) c (rdOf o) ((from_ o s).gr (raOf o)) 2)) ∧
    ((from_ o s).gr (raOf o) = 0x80000000 → (from_ o s).gr (rbOf o) = 0xFFFFFFFF → fnOf o = 0 →
      (∃ c, exec (.div o) s = .next (withCore o s c) ∧ OnlyG (from_ o s) c (rdOf o) 0x7FFFFFFF 1) ∧
      (∃ c, exec (.rem o) s = .next (withCore o s c) ∧ OnlyG (from_ o s) c (rdOf o) 0 0))

open Sys2Proof Sys2Proof.Machine Sys2Proof.Claims in
/-- R50: g0 reads 0 and p0 reads 1 in every core, and a write to either is ignored: an instruction with rd = 0 leaves every g
register, and a compare with pd = 0 every predicate, as it was, while PC goes on. -/
def Obligations.ZeroRegister : Prop :=
(∀ (c : Core) (v : Word) (b : Bool), c.gr 0 = 0 ∧ c.pr 0 = true ∧ c.setG 0 v = c ∧ c.setP 0 b = c) ∧
  (∀ r ∈ intRows, ∀ (o : Lim) (s : State), Executes o s → fnOf o ≤ r.maxFn → rdOf o = 0 →
    ∃ c, exec (r.instr o) s = .next (withCore o s c) ∧ (∀ i, i < 32 → c.gr i = (from_ o s).gr i) ∧ c.gr 0 = 0 ∧
      c.pc = (from_ o s).pc + 1) ∧
  (∀ (o : Lim) (s : State), Executes o s → fnOf o ≤ 9 → rdOf o = 0 →
    ∃ c, exec (.cmp o) s = .next (withCore o s c) ∧ (∀ i, i < 8 → c.pr i = (from_ o s).pr i) ∧ c.pr 0 = true ∧
      c.pc = (from_ o s).pc + 1)

open Sys2Proof Sys2Proof.Machine in
/-- A step with a command at the front of the queue is that command's effect on the machine with the queue's rest. -/
def Obligations.StepRunsFront : Prop :=
∀ (c : Instr) (rest : List Instr) (s : State), s.pending = c :: rest → step s = exec c { s with pending := rest }

open Sys2Proof Sys2Proof.Machine in
/-- The model's choice for an empty queue (assumption 2): a step is one core cycle of 2 tick units while the timestamp runs, and
nothing else changes; while the tick is stopped nothing changes. No word of the operation table spells a command, so none is put in
front. -/
def Obligations.EmptyQueue : Prop :=
(∀ s : State, s.pending = [] →
    (s.dev.pw.stopped = false → step s = .next { s with dev := { s.dev with now := s.dev.now + 2 } }) ∧
    (s.dev.pw.stopped = true → step s = .next s)) ∧
  (∀ (s : State) (n w : Nat), decodeTableWord n w = none ∧ s.withFetchWord n w = s)

open Sys2Proof Sys2Proof.Machine in
/-- The machine right after reset, by the reset columns of the register tables: START-UP, no edge yet, SLIPMAX 4, LOGON 1, the
monitor's divisor and idle time, the free reins, empty stack and stores. -/
def Obligations.ResetState : Prop :=
State.reset.dev.mode = .startUp ∧ State.reset.dev.halted = false ∧ State.reset.dev.ready = false ∧
  State.reset.dev.tick.count = 0 ∧ State.reset.dev.fld TCK_CFG 7 0 = 4 ∧ State.reset.dev.flag CEL_STAT 8 = true ∧
  State.reset.dev.reg MON_CFG = 0x3C01 ∧ State.reset.dev.reg MON_BAUD = 0x1A1 ∧ State.reset.dev.reg FLT_STAT = 0 ∧
  State.reset.dev.reins.holder = none ∧ State.reset.dev.fu.stack = [] ∧ State.reset.dev.sram = [] ∧ State.reset.dev.reg SYS_RSTCAUSE = 1 ∧
  State.reset.pending = [] ∧ (∀ b : Fin 4, State.reset.dev.reg (IDN_CFG b) = 0x1050) ∧
  (∀ (k : Fin 6) i, (State.reset.dev.core k).gr i = 0)

open Sys2Proof Sys2Proof.Machine in
/-- The machine right after reset is sound: its stores are in canonical form and its fault stack is in order. -/
def Obligations.SoundAtReset : Prop :=
State.reset.Sound

open Sys2Proof Sys2Proof.Machine in
/-- Every step keeps the machine sound: whatever the command and its operands, from every sound state the next one has its register
file, ports, tick SRAM, DRAM and Cellar memories in canonical form, and at most two fault records, the top one of a class at least
as high (R349). -/
def Obligations.EveryStepKeepsSound : Prop :=
∀ s t : State, s.Sound → step s = .next t → t.Sound

open Sys2Proof Sys2Proof.Machine in
/-- No command stops the machine: each of the 325 commands answers a next state from every state and on every operand, in which the
timestamp has not run back and the rest of the queue waits as before. -/
def Obligations.EveryCommandAnswers : Prop :=
∀ (c : Instr) (s : State), ∃ t, exec c s = .next t ∧ s.dev.now ≤ t.dev.now ∧ t.pending = s.pending
end

