-- ==== Sys2Proof/Laws/Store.lean ====
section
/-! SUPPORT. The laws of the sparse stores: a read after a write, and the canonical form that every write keeps. -/
namespace Sys2Proof.Machine

variable {β : Type}

theorem smGet_smInsert (d : Nat → β) (m : SMap β) (a b : Nat) (v : β) :
    smGet d (smInsert a v m) b = if b = a then v else smGet d m b := by
  induction m with
  | nil =>
    by_cases h : b = a
    · simp [smInsert, smGet, h]
    · simp [smInsert, smGet, h, Ne.symm h]
  | cons e t ih =>
    obtain ⟨k, w⟩ := e
    simp only [smInsert]
    split
    · by_cases h : b = a
      · simp [smGet, h]
      · simp [smGet, h, Ne.symm h]
    · split
      · subst_vars
        by_cases h : b = k
        · simp [smGet, h]
        · simp [smGet, h, Ne.symm h]
      · simp only [smGet, ih]
        by_cases hk : k = b <;> by_cases h : b = a <;> simp_all

/-- Every key of a store is above a bound. -/
def smAbove (n : Nat) (m : SMap β) : Prop := ∀ e ∈ m, n < e.1

theorem smSorted_cons {k : Nat} {w : β} {t : SMap β} :
    smSorted ((k, w) :: t) = true ↔ smAbove k t ∧ smSorted t = true := by
  induction t generalizing k w with
  | nil => simp [smSorted, smAbove]
  | cons e t ih =>
    obtain ⟨k', w'⟩ := e
    simp only [smSorted, Bool.and_eq_true, decide_eq_true_eq, smAbove, List.mem_cons, forall_eq_or_imp]
    constructor
    · rintro ⟨h, hs⟩
      exact ⟨⟨h, fun e he => Nat.lt_trans h ((ih.mp hs).1 e he)⟩, hs⟩
    · rintro ⟨⟨h, _⟩, hs⟩
      exact ⟨h, hs⟩

theorem smGet_above {d : Nat → β} {m : SMap β} {n a : Nat} (h : smAbove n m) (ha : a ≤ n) : smGet d m a = d a := by
  induction m with
  | nil => rfl
  | cons e t ih =>
    obtain ⟨k, w⟩ := e
    have hk : n < k := h (k, w) (List.mem_cons_self ..)
    have : k ≠ a := by omega
    simp only [smGet, this, if_false]
    exact ih (fun e he => h e (List.mem_cons_of_mem _ he))

theorem smErase_above {m : SMap β} {n : Nat} (a : Nat) (h : smAbove n m) : smAbove n (smErase a m) :=
  fun e he => h e (List.mem_filter.mp he).1

theorem smInsert_above {m : SMap β} {n a : Nat} {v : β} (ha : n < a) (h : smAbove n m) : smAbove n (smInsert a v m) := by
  induction m with
  | nil => simpa [smInsert, smAbove] using ha
  | cons e t ih =>
    obtain ⟨k, w⟩ := e
    have hk : n < k := h (k, w) (List.mem_cons_self ..)
    have ht : smAbove n t := fun e he => h e (List.mem_cons_of_mem _ he)
    simp only [smInsert]
    split
    · intro e he
      rcases List.mem_cons.mp he with rfl | he
      · exact ha
      · exact h e he
    · split
      · intro e he
        rcases List.mem_cons.mp he with rfl | he
        · exact ha
        · exact ht e he
      · intro e he
        rcases List.mem_cons.mp he with rfl | he
        · exact hk
        · exact ih ht e he

theorem smSorted_smErase {m : SMap β} (a : Nat) (h : smSorted m = true) : smSorted (smErase a m) = true := by
  induction m with
  | nil => rfl
  | cons e t ih =>
    obtain ⟨k, w⟩ := e
    obtain ⟨hb, hs⟩ := smSorted_cons.mp h
    by_cases hk : k = a
    · simpa [smErase, hk] using ih hs
    · have : smErase a ((k, w) :: t) = (k, w) :: smErase a t := by simp [smErase, hk]
      rw [this]
      exact smSorted_cons.mpr ⟨smErase_above a hb, ih hs⟩

theorem smSorted_smInsert {m : SMap β} (a : Nat) (v : β) (h : smSorted m = true) : smSorted (smInsert a v m) = true := by
  induction m with
  | nil => rfl
  | cons e t ih =>
    obtain ⟨k, w⟩ := e
    obtain ⟨hb, hs⟩ := smSorted_cons.mp h
    simp only [smInsert]
    split
    · rename_i hak
      refine smSorted_cons.mpr ⟨?_, h⟩
      intro e he
      rcases List.mem_cons.mp he with rfl | he
      · exact hak
      · exact Nat.lt_trans hak (hb e he)
    · split
      · rename_i h1 h2
        subst h2
        exact smSorted_cons.mpr ⟨hb, hs⟩
      · rename_i h1 h2
        exact smSorted_cons.mpr ⟨smInsert_above (by omega) hb, ih hs⟩

theorem smGet_smErase (d : Nat → β) (m : SMap β) (a b : Nat) :
    smGet d (smErase a m) b = if b = a then d a else smGet d m b := by
  induction m with
  | nil => by_cases h : b = a <;> simp [smErase, smGet, h]
  | cons e t ih =>
    obtain ⟨k, w⟩ := e
    by_cases hk : k = a
    · have : smErase a ((k, w) :: t) = smErase a t := by simp [smErase, hk]
      rw [this, ih]
      by_cases h : b = a
      · simp [h]
      · simp [smGet, h, hk, Ne.symm h]
    · have : smErase a ((k, w) :: t) = (k, w) :: smErase a t := by simp [smErase, hk]
      rw [this]
      simp only [smGet, ih]
      by_cases hb : k = b <;> by_cases h : b = a <;> simp_all

theorem mem_smInsert {m : SMap β} {a : Nat} {v : β} {e : Nat × β} (h : e ∈ smInsert a v m) : e = (a, v) ∨ e ∈ m := by
  induction m with
  | nil => simpa [smInsert] using h
  | cons x t ih =>
    obtain ⟨k, w⟩ := x
    simp only [smInsert] at h
    split at h
    · simpa using h
    · split at h
      · rcases List.mem_cons.mp h with h | h
        · exact .inl h
        · exact .inr (List.mem_cons_of_mem _ h)
      · rcases List.mem_cons.mp h with h | h
        · exact .inr (h ▸ List.mem_cons_self ..)
        · rcases ih h with h | h
          · exact .inl h
          · exact .inr (List.mem_cons_of_mem _ h)

variable [DecidableEq β]

/-- A read after a write: the key written reads the value written, every other key reads as before. -/
theorem smGet_smSet (d : Nat → β) (m : SMap β) (a b : Nat) (v : β) :
    smGet d (smSet d m a v) b = if b = a then v else smGet d m b := by
  unfold smSet
  split
  · subst_vars
    exact smGet_smErase d m a b
  · exact smGet_smInsert d m a b v

theorem smWf_iff {d : Nat → β} {m : SMap β} :
    smWf d m = true ↔ smSorted m = true ∧ ∀ e ∈ m, e.2 ≠ d e.1 := by
  simp [smWf, List.all_eq_true]

/-- Every write keeps the canonical form. -/
theorem smWf_smSet {d : Nat → β} {m : SMap β} (a : Nat) (v : β) (h : smWf d m = true) : smWf d (smSet d m a v) = true := by
  obtain ⟨hs, hv⟩ := smWf_iff.mp h
  unfold smSet
  split
  · exact smWf_iff.mpr ⟨smSorted_smErase a hs, fun e he => hv e (List.mem_filter.mp he).1⟩
  · rename_i hne
    refine smWf_iff.mpr ⟨smSorted_smInsert a v hs, fun e he => ?_⟩
    rcases mem_smInsert he with rfl | he
    · exact hne
    · exact hv e he

/-! ## Byte memories and word stores -/

/-- A byte memory after a byte write. -/
theorem Memory.byte_setByte (m : Memory) (a b : Nat) (v : Byte) :
    (m.setByte a v).byte b = if b = a then v else m.byte b := smGet_smSet ..

theorem Memory.wf_setByte {m : Memory} (a : Nat) (v : Byte) (h : m.wf = true) : (m.setByte a v).wf = true :=
  smWf_smSet a v h

/-- A byte memory after a write of several bytes: the bytes written, and every other byte as before. -/
theorem Memory.byte_setBytes (m : Memory) (a b : Nat) (bs : List Byte) :
    (m.setBytes a bs).byte b = if h : a ≤ b ∧ b - a < bs.length then bs[b - a] else m.byte b := by
  induction bs generalizing m a with
  | nil => simp [Memory.setBytes]
  | cons x t ih =>
    simp only [Memory.setBytes, ih, Memory.byte_setByte]
    by_cases h1 : b = a
    · subst h1
      rw [dif_neg (by omega), if_pos rfl, dif_pos (by simp)]
      simp
    · by_cases h2 : a + 1 ≤ b ∧ b - (a + 1) < t.length
      · have h3 : a ≤ b ∧ b - a < (x :: t).length := by simp only [List.length_cons]; omega
        have h4 : b - a = (b - (a + 1)) + 1 := by omega
        rw [dif_pos h2, dif_pos h3]
        simp only [h4, List.getElem_cons_succ]
      · have h3 : ¬ (a ≤ b ∧ b - a < (x :: t).length) := by simp only [List.length_cons]; omega
        rw [dif_neg h2, dif_neg h3, if_neg h1]

theorem Memory.wf_setBytes {m : Memory} (a : Nat) (bs : List Byte) (h : m.wf = true) : (m.setBytes a bs).wf = true := by
  induction bs generalizing m a with
  | nil => exact h
  | cons x t ih => exact ih _ (Memory.wf_setByte a x h)

theorem Memory.wf_write {m : Memory} (a n v : Nat) (h : m.wf = true) : (m.write a n v).wf = true :=
  Memory.wf_setBytes a _ h

theorem Memory.wf_setWord {m : Memory} (a : Nat) (v : Word) (h : m.wf = true) : (m.setWord a v).wf = true :=
  Memory.wf_write a 4 _ h

theorem leBytes_length (v n : Nat) : (leBytes v n).length = n := by
  induction n generalizing v with
  | zero => rfl
  | succ n ih => simp [leBytes, ih]

/-- A write of n bytes leaves every byte outside them as it was. -/
theorem Memory.byte_write_other {m : Memory} {a n v b : Nat} (h : b < a ∨ a + n ≤ b) :
    (m.write a n v).byte b = m.byte b := by
  have : ¬ (a ≤ b ∧ b - a < (leBytes v n).length) := by rw [leBytes_length]; omega
  rw [Memory.write, Memory.byte_setBytes, dif_neg this]

/-- A word store after a write. -/
theorem Words.get_set (m : Words) (a b : Nat) (v : Word) :
    Words.get (Words.set m a v) b = if b = a then v else Words.get m b := smGet_smSet ..

theorem Words.wf_set {m : Words} (a : Nat) (v : Word) (h : smWf word0 m = true) :
    smWf word0 (Words.set m a v) = true := smWf_smSet a v h

end Sys2Proof.Machine
end

