-- ==== Sys2Proof/Laws/State.lean ====
section
/-! SUPPORT. What each named update of the device leaves as it was, and what it writes: one lemma a field, so that no proof unfolds
a record update. -/
namespace Sys2Proof.Machine

@[simp] theorem Dev.setReg_now (d : Dev) (a : Nat) (v : Word) : (d.setReg a v).now = d.now := rfl
@[simp] theorem Dev.setReg_born (d : Dev) (a : Nat) (v : Word) : (d.setReg a v).born = d.born := rfl
@[simp] theorem Dev.setReg_mode (d : Dev) (a : Nat) (v : Word) : (d.setReg a v).mode = d.mode := rfl
@[simp] theorem Dev.setReg_origin (d : Dev) (a : Nat) (v : Word) : (d.setReg a v).origin = d.origin := rfl
@[simp] theorem Dev.setReg_halted (d : Dev) (a : Nat) (v : Word) : (d.setReg a v).halted = d.halted := rfl
@[simp] theorem Dev.setReg_ready (d : Dev) (a : Nat) (v : Word) : (d.setReg a v).ready = d.ready := rfl
@[simp] theorem Dev.setReg_boot (d : Dev) (a : Nat) (v : Word) : (d.setReg a v).boot = d.boot := rfl
@[simp] theorem Dev.setReg_holdReq (d : Dev) (a : Nat) (v : Word) : (d.setReg a v).holdReq = d.holdReq := rfl
@[simp] theorem Dev.setReg_dramSz (d : Dev) (a : Nat) (v : Word) : (d.setReg a v).dramSz = d.dramSz := rfl
@[simp] theorem Dev.setReg_fldLink (d : Dev) (a : Nat) (v : Word) : (d.setReg a v).fldLink = d.fldLink := rfl
@[simp] theorem Dev.setReg_tdlLink (d : Dev) (a : Nat) (v : Word) : (d.setReg a v).tdlLink = d.tdlLink := rfl
@[simp] theorem Dev.setReg_hrnLink (d : Dev) (a : Nat) (v : Word) : (d.setReg a v).hrnLink = d.hrnLink := rfl
@[simp] theorem Dev.setReg_freeCtr (d : Dev) (a : Nat) (v : Word) : (d.setReg a v).freeCtr = d.freeCtr := rfl
@[simp] theorem Dev.setReg_tick (d : Dev) (a : Nat) (v : Word) : (d.setReg a v).tick = d.tick := rfl
@[simp] theorem Dev.setReg_fu (d : Dev) (a : Nat) (v : Word) : (d.setReg a v).fu = d.fu := rfl
@[simp] theorem Dev.setReg_ev (d : Dev) (a : Nat) (v : Word) : (d.setReg a v).ev = d.ev := rfl
@[simp] theorem Dev.setReg_pw (d : Dev) (a : Nat) (v : Word) : (d.setReg a v).pw = d.pw := rfl
@[simp] theorem Dev.setReg_reins (d : Dev) (a : Nat) (v : Word) : (d.setReg a v).reins = d.reins := rfl
@[simp] theorem Dev.setReg_pa (d : Dev) (a : Nat) (v : Word) : (d.setReg a v).pa = d.pa := rfl
@[simp] theorem Dev.setReg_pb (d : Dev) (a : Nat) (v : Word) : (d.setReg a v).pb = d.pb := rfl
@[simp] theorem Dev.setReg_cores (d : Dev) (a : Nat) (v : Word) : (d.setReg a v).cores = d.cores := rfl
@[simp] theorem Dev.setReg_loader (d : Dev) (a : Nat) (v : Word) : (d.setReg a v).loader = d.loader := rfl
@[simp] theorem Dev.setReg_carts (d : Dev) (a : Nat) (v : Word) : (d.setReg a v).carts = d.carts := rfl
@[simp] theorem Dev.setReg_fb (d : Dev) (a : Nat) (v : Word) : (d.setReg a v).fb = d.fb := rfl
@[simp] theorem Dev.setReg_latches (d : Dev) (a : Nat) (v : Word) : (d.setReg a v).latches = d.latches := rfl
@[simp] theorem Dev.setReg_axes (d : Dev) (a : Nat) (v : Word) : (d.setReg a v).axes = d.axes := rfl
@[simp] theorem Dev.setReg_groups (d : Dev) (a : Nat) (v : Word) : (d.setReg a v).groups = d.groups := rfl
@[simp] theorem Dev.setReg_lanes (d : Dev) (a : Nat) (v : Word) : (d.setReg a v).lanes = d.lanes := rfl
@[simp] theorem Dev.setReg_prt (d : Dev) (a : Nat) (v : Word) : (d.setReg a v).prt = d.prt := rfl
@[simp] theorem Dev.setReg_vis (d : Dev) (a : Nat) (v : Word) : (d.setReg a v).vis = d.vis := rfl
@[simp] theorem Dev.setReg_trees (d : Dev) (a : Nat) (v : Word) : (d.setReg a v).trees = d.trees := rfl
@[simp] theorem Dev.setReg_field (d : Dev) (a : Nat) (v : Word) : (d.setReg a v).field = d.field := rfl
@[simp] theorem Dev.setReg_tdl (d : Dev) (a : Nat) (v : Word) : (d.setReg a v).tdl = d.tdl := rfl
@[simp] theorem Dev.setReg_hrn (d : Dev) (a : Nat) (v : Word) : (d.setReg a v).hrn = d.hrn := rfl
@[simp] theorem Dev.setReg_cel (d : Dev) (a : Nat) (v : Word) : (d.setReg a v).cel = d.cel := rfl
@[simp] theorem Dev.setReg_outs (d : Dev) (a : Nat) (v : Word) : (d.setReg a v).outs = d.outs := rfl
@[simp] theorem Dev.setReg_mon (d : Dev) (a : Nat) (v : Word) : (d.setReg a v).mon = d.mon := rfl
@[simp] theorem Dev.setReg_idn (d : Dev) (a : Nat) (v : Word) : (d.setReg a v).idn = d.idn := rfl
@[simp] theorem Dev.setReg_trim (d : Dev) (a : Nat) (v : Word) : (d.setReg a v).trim = d.trim := rfl
@[simp] theorem Dev.setReg_sram (d : Dev) (a : Nat) (v : Word) : (d.setReg a v).sram = d.sram := rfl
@[simp] theorem Dev.setReg_dram (d : Dev) (a : Nat) (v : Word) : (d.setReg a v).dram = d.dram := rfl
@[simp] theorem Dev.setReg_areas (d : Dev) (a : Nat) (v : Word) : (d.setReg a v).areas = d.areas := rfl

@[simp] theorem Dev.setFld_now (d : Dev) (a hi lo v : Nat) : (Dev.setFld a hi lo v d).now = d.now := rfl
@[simp] theorem Dev.setFld_born (d : Dev) (a hi lo v : Nat) : (Dev.setFld a hi lo v d).born = d.born := rfl
@[simp] theorem Dev.setFld_mode (d : Dev) (a hi lo v : Nat) : (Dev.setFld a hi lo v d).mode = d.mode := rfl
@[simp] theorem Dev.setFld_origin (d : Dev) (a hi lo v : Nat) : (Dev.setFld a hi lo v d).origin = d.origin := rfl
@[simp] theorem Dev.setFld_halted (d : Dev) (a hi lo v : Nat) : (Dev.setFld a hi lo v d).halted = d.halted := rfl
@[simp] theorem Dev.setFld_ready (d : Dev) (a hi lo v : Nat) : (Dev.setFld a hi lo v d).ready = d.ready := rfl
@[simp] theorem Dev.setFld_boot (d : Dev) (a hi lo v : Nat) : (Dev.setFld a hi lo v d).boot = d.boot := rfl
@[simp] theorem Dev.setFld_holdReq (d : Dev) (a hi lo v : Nat) : (Dev.setFld a hi lo v d).holdReq = d.holdReq := rfl
@[simp] theorem Dev.setFld_dramSz (d : Dev) (a hi lo v : Nat) : (Dev.setFld a hi lo v d).dramSz = d.dramSz := rfl
@[simp] theorem Dev.setFld_fldLink (d : Dev) (a hi lo v : Nat) : (Dev.setFld a hi lo v d).fldLink = d.fldLink := rfl
@[simp] theorem Dev.setFld_tdlLink (d : Dev) (a hi lo v : Nat) : (Dev.setFld a hi lo v d).tdlLink = d.tdlLink := rfl
@[simp] theorem Dev.setFld_hrnLink (d : Dev) (a hi lo v : Nat) : (Dev.setFld a hi lo v d).hrnLink = d.hrnLink := rfl
@[simp] theorem Dev.setFld_freeCtr (d : Dev) (a hi lo v : Nat) : (Dev.setFld a hi lo v d).freeCtr = d.freeCtr := rfl
@[simp] theorem Dev.setFld_tick (d : Dev) (a hi lo v : Nat) : (Dev.setFld a hi lo v d).tick = d.tick := rfl
@[simp] theorem Dev.setFld_fu (d : Dev) (a hi lo v : Nat) : (Dev.setFld a hi lo v d).fu = d.fu := rfl
@[simp] theorem Dev.setFld_ev (d : Dev) (a hi lo v : Nat) : (Dev.setFld a hi lo v d).ev = d.ev := rfl
@[simp] theorem Dev.setFld_pw (d : Dev) (a hi lo v : Nat) : (Dev.setFld a hi lo v d).pw = d.pw := rfl
@[simp] theorem Dev.setFld_reins (d : Dev) (a hi lo v : Nat) : (Dev.setFld a hi lo v d).reins = d.reins := rfl
@[simp] theorem Dev.setFld_pa (d : Dev) (a hi lo v : Nat) : (Dev.setFld a hi lo v d).pa = d.pa := rfl
@[simp] theorem Dev.setFld_pb (d : Dev) (a hi lo v : Nat) : (Dev.setFld a hi lo v d).pb = d.pb := rfl
@[simp] theorem Dev.setFld_cores (d : Dev) (a hi lo v : Nat) : (Dev.setFld a hi lo v d).cores = d.cores := rfl
@[simp] theorem Dev.setFld_loader (d : Dev) (a hi lo v : Nat) : (Dev.setFld a hi lo v d).loader = d.loader := rfl
@[simp] theorem Dev.setFld_carts (d : Dev) (a hi lo v : Nat) : (Dev.setFld a hi lo v d).carts = d.carts := rfl
@[simp] theorem Dev.setFld_fb (d : Dev) (a hi lo v : Nat) : (Dev.setFld a hi lo v d).fb = d.fb := rfl
@[simp] theorem Dev.setFld_latches (d : Dev) (a hi lo v : Nat) : (Dev.setFld a hi lo v d).latches = d.latches := rfl
@[simp] theorem Dev.setFld_axes (d : Dev) (a hi lo v : Nat) : (Dev.setFld a hi lo v d).axes = d.axes := rfl
@[simp] theorem Dev.setFld_groups (d : Dev) (a hi lo v : Nat) : (Dev.setFld a hi lo v d).groups = d.groups := rfl
@[simp] theorem Dev.setFld_lanes (d : Dev) (a hi lo v : Nat) : (Dev.setFld a hi lo v d).lanes = d.lanes := rfl
@[simp] theorem Dev.setFld_prt (d : Dev) (a hi lo v : Nat) : (Dev.setFld a hi lo v d).prt = d.prt := rfl
@[simp] theorem Dev.setFld_vis (d : Dev) (a hi lo v : Nat) : (Dev.setFld a hi lo v d).vis = d.vis := rfl
@[simp] theorem Dev.setFld_trees (d : Dev) (a hi lo v : Nat) : (Dev.setFld a hi lo v d).trees = d.trees := rfl
@[simp] theorem Dev.setFld_field (d : Dev) (a hi lo v : Nat) : (Dev.setFld a hi lo v d).field = d.field := rfl
@[simp] theorem Dev.setFld_tdl (d : Dev) (a hi lo v : Nat) : (Dev.setFld a hi lo v d).tdl = d.tdl := rfl
@[simp] theorem Dev.setFld_hrn (d : Dev) (a hi lo v : Nat) : (Dev.setFld a hi lo v d).hrn = d.hrn := rfl
@[simp] theorem Dev.setFld_cel (d : Dev) (a hi lo v : Nat) : (Dev.setFld a hi lo v d).cel = d.cel := rfl
@[simp] theorem Dev.setFld_outs (d : Dev) (a hi lo v : Nat) : (Dev.setFld a hi lo v d).outs = d.outs := rfl
@[simp] theorem Dev.setFld_mon (d : Dev) (a hi lo v : Nat) : (Dev.setFld a hi lo v d).mon = d.mon := rfl
@[simp] theorem Dev.setFld_idn (d : Dev) (a hi lo v : Nat) : (Dev.setFld a hi lo v d).idn = d.idn := rfl
@[simp] theorem Dev.setFld_trim (d : Dev) (a hi lo v : Nat) : (Dev.setFld a hi lo v d).trim = d.trim := rfl
@[simp] theorem Dev.setFld_sram (d : Dev) (a hi lo v : Nat) : (Dev.setFld a hi lo v d).sram = d.sram := rfl
@[simp] theorem Dev.setFld_dram (d : Dev) (a hi lo v : Nat) : (Dev.setFld a hi lo v d).dram = d.dram := rfl
@[simp] theorem Dev.setFld_areas (d : Dev) (a hi lo v : Nat) : (Dev.setFld a hi lo v d).areas = d.areas := rfl

@[simp] theorem Dev.setFlag_now (d : Dev) (a i : Nat) (b : Bool) : (Dev.setFlag a i b d).now = d.now := rfl
@[simp] theorem Dev.setFlag_born (d : Dev) (a i : Nat) (b : Bool) : (Dev.setFlag a i b d).born = d.born := rfl
@[simp] theorem Dev.setFlag_mode (d : Dev) (a i : Nat) (b : Bool) : (Dev.setFlag a i b d).mode = d.mode := rfl
@[simp] theorem Dev.setFlag_origin (d : Dev) (a i : Nat) (b : Bool) : (Dev.setFlag a i b d).origin = d.origin := rfl
@[simp] theorem Dev.setFlag_halted (d : Dev) (a i : Nat) (b : Bool) : (Dev.setFlag a i b d).halted = d.halted := rfl
@[simp] theorem Dev.setFlag_ready (d : Dev) (a i : Nat) (b : Bool) : (Dev.setFlag a i b d).ready = d.ready := rfl
@[simp] theorem Dev.setFlag_boot (d : Dev) (a i : Nat) (b : Bool) : (Dev.setFlag a i b d).boot = d.boot := rfl
@[simp] theorem Dev.setFlag_holdReq (d : Dev) (a i : Nat) (b : Bool) : (Dev.setFlag a i b d).holdReq = d.holdReq := rfl
@[simp] theorem Dev.setFlag_dramSz (d : Dev) (a i : Nat) (b : Bool) : (Dev.setFlag a i b d).dramSz = d.dramSz := rfl
@[simp] theorem Dev.setFlag_fldLink (d : Dev) (a i : Nat) (b : Bool) : (Dev.setFlag a i b d).fldLink = d.fldLink := rfl
@[simp] theorem Dev.setFlag_tdlLink (d : Dev) (a i : Nat) (b : Bool) : (Dev.setFlag a i b d).tdlLink = d.tdlLink := rfl
@[simp] theorem Dev.setFlag_hrnLink (d : Dev) (a i : Nat) (b : Bool) : (Dev.setFlag a i b d).hrnLink = d.hrnLink := rfl
@[simp] theorem Dev.setFlag_freeCtr (d : Dev) (a i : Nat) (b : Bool) : (Dev.setFlag a i b d).freeCtr = d.freeCtr := rfl
@[simp] theorem Dev.setFlag_tick (d : Dev) (a i : Nat) (b : Bool) : (Dev.setFlag a i b d).tick = d.tick := rfl
@[simp] theorem Dev.setFlag_fu (d : Dev) (a i : Nat) (b : Bool) : (Dev.setFlag a i b d).fu = d.fu := rfl
@[simp] theorem Dev.setFlag_ev (d : Dev) (a i : Nat) (b : Bool) : (Dev.setFlag a i b d).ev = d.ev := rfl
@[simp] theorem Dev.setFlag_pw (d : Dev) (a i : Nat) (b : Bool) : (Dev.setFlag a i b d).pw = d.pw := rfl
@[simp] theorem Dev.setFlag_reins (d : Dev) (a i : Nat) (b : Bool) : (Dev.setFlag a i b d).reins = d.reins := rfl
@[simp] theorem Dev.setFlag_pa (d : Dev) (a i : Nat) (b : Bool) : (Dev.setFlag a i b d).pa = d.pa := rfl
@[simp] theorem Dev.setFlag_pb (d : Dev) (a i : Nat) (b : Bool) : (Dev.setFlag a i b d).pb = d.pb := rfl
@[simp] theorem Dev.setFlag_cores (d : Dev) (a i : Nat) (b : Bool) : (Dev.setFlag a i b d).cores = d.cores := rfl
@[simp] theorem Dev.setFlag_loader (d : Dev) (a i : Nat) (b : Bool) : (Dev.setFlag a i b d).loader = d.loader := rfl
@[simp] theorem Dev.setFlag_carts (d : Dev) (a i : Nat) (b : Bool) : (Dev.setFlag a i b d).carts = d.carts := rfl
@[simp] theorem Dev.setFlag_fb (d : Dev) (a i : Nat) (b : Bool) : (Dev.setFlag a i b d).fb = d.fb := rfl
@[simp] theorem Dev.setFlag_latches (d : Dev) (a i : Nat) (b : Bool) : (Dev.setFlag a i b d).latches = d.latches := rfl
@[simp] theorem Dev.setFlag_axes (d : Dev) (a i : Nat) (b : Bool) : (Dev.setFlag a i b d).axes = d.axes := rfl
@[simp] theorem Dev.setFlag_groups (d : Dev) (a i : Nat) (b : Bool) : (Dev.setFlag a i b d).groups = d.groups := rfl
@[simp] theorem Dev.setFlag_lanes (d : Dev) (a i : Nat) (b : Bool) : (Dev.setFlag a i b d).lanes = d.lanes := rfl
@[simp] theorem Dev.setFlag_prt (d : Dev) (a i : Nat) (b : Bool) : (Dev.setFlag a i b d).prt = d.prt := rfl
@[simp] theorem Dev.setFlag_vis (d : Dev) (a i : Nat) (b : Bool) : (Dev.setFlag a i b d).vis = d.vis := rfl
@[simp] theorem Dev.setFlag_trees (d : Dev) (a i : Nat) (b : Bool) : (Dev.setFlag a i b d).trees = d.trees := rfl
@[simp] theorem Dev.setFlag_field (d : Dev) (a i : Nat) (b : Bool) : (Dev.setFlag a i b d).field = d.field := rfl
@[simp] theorem Dev.setFlag_tdl (d : Dev) (a i : Nat) (b : Bool) : (Dev.setFlag a i b d).tdl = d.tdl := rfl
@[simp] theorem Dev.setFlag_hrn (d : Dev) (a i : Nat) (b : Bool) : (Dev.setFlag a i b d).hrn = d.hrn := rfl
@[simp] theorem Dev.setFlag_cel (d : Dev) (a i : Nat) (b : Bool) : (Dev.setFlag a i b d).cel = d.cel := rfl
@[simp] theorem Dev.setFlag_outs (d : Dev) (a i : Nat) (b : Bool) : (Dev.setFlag a i b d).outs = d.outs := rfl
@[simp] theorem Dev.setFlag_mon (d : Dev) (a i : Nat) (b : Bool) : (Dev.setFlag a i b d).mon = d.mon := rfl
@[simp] theorem Dev.setFlag_idn (d : Dev) (a i : Nat) (b : Bool) : (Dev.setFlag a i b d).idn = d.idn := rfl
@[simp] theorem Dev.setFlag_trim (d : Dev) (a i : Nat) (b : Bool) : (Dev.setFlag a i b d).trim = d.trim := rfl
@[simp] theorem Dev.setFlag_sram (d : Dev) (a i : Nat) (b : Bool) : (Dev.setFlag a i b d).sram = d.sram := rfl
@[simp] theorem Dev.setFlag_dram (d : Dev) (a i : Nat) (b : Bool) : (Dev.setFlag a i b d).dram = d.dram := rfl
@[simp] theorem Dev.setFlag_areas (d : Dev) (a i : Nat) (b : Bool) : (Dev.setFlag a i b d).areas = d.areas := rfl

@[simp] theorem Dev.count1_now (d : Dev) (a : Nat) : (Dev.count1 a d).now = d.now := rfl
@[simp] theorem Dev.count1_born (d : Dev) (a : Nat) : (Dev.count1 a d).born = d.born := rfl
@[simp] theorem Dev.count1_mode (d : Dev) (a : Nat) : (Dev.count1 a d).mode = d.mode := rfl
@[simp] theorem Dev.count1_origin (d : Dev) (a : Nat) : (Dev.count1 a d).origin = d.origin := rfl
@[simp] theorem Dev.count1_halted (d : Dev) (a : Nat) : (Dev.count1 a d).halted = d.halted := rfl
@[simp] theorem Dev.count1_ready (d : Dev) (a : Nat) : (Dev.count1 a d).ready = d.ready := rfl
@[simp] theorem Dev.count1_boot (d : Dev) (a : Nat) : (Dev.count1 a d).boot = d.boot := rfl
@[simp] theorem Dev.count1_holdReq (d : Dev) (a : Nat) : (Dev.count1 a d).holdReq = d.holdReq := rfl
@[simp] theorem Dev.count1_dramSz (d : Dev) (a : Nat) : (Dev.count1 a d).dramSz = d.dramSz := rfl
@[simp] theorem Dev.count1_fldLink (d : Dev) (a : Nat) : (Dev.count1 a d).fldLink = d.fldLink := rfl
@[simp] theorem Dev.count1_tdlLink (d : Dev) (a : Nat) : (Dev.count1 a d).tdlLink = d.tdlLink := rfl
@[simp] theorem Dev.count1_hrnLink (d : Dev) (a : Nat) : (Dev.count1 a d).hrnLink = d.hrnLink := rfl
@[simp] theorem Dev.count1_freeCtr (d : Dev) (a : Nat) : (Dev.count1 a d).freeCtr = d.freeCtr := rfl
@[simp] theorem Dev.count1_tick (d : Dev) (a : Nat) : (Dev.count1 a d).tick = d.tick := rfl
@[simp] theorem Dev.count1_fu (d : Dev) (a : Nat) : (Dev.count1 a d).fu = d.fu := rfl
@[simp] theorem Dev.count1_ev (d : Dev) (a : Nat) : (Dev.count1 a d).ev = d.ev := rfl
@[simp] theorem Dev.count1_pw (d : Dev) (a : Nat) : (Dev.count1 a d).pw = d.pw := rfl
@[simp] theorem Dev.count1_reins (d : Dev) (a : Nat) : (Dev.count1 a d).reins = d.reins := rfl
@[simp] theorem Dev.count1_pa (d : Dev) (a : Nat) : (Dev.count1 a d).pa = d.pa := rfl
@[simp] theorem Dev.count1_pb (d : Dev) (a : Nat) : (Dev.count1 a d).pb = d.pb := rfl
@[simp] theorem Dev.count1_cores (d : Dev) (a : Nat) : (Dev.count1 a d).cores = d.cores := rfl
@[simp] theorem Dev.count1_loader (d : Dev) (a : Nat) : (Dev.count1 a d).loader = d.loader := rfl
@[simp] theorem Dev.count1_carts (d : Dev) (a : Nat) : (Dev.count1 a d).carts = d.carts := rfl
@[simp] theorem Dev.count1_fb (d : Dev) (a : Nat) : (Dev.count1 a d).fb = d.fb := rfl
@[simp] theorem Dev.count1_latches (d : Dev) (a : Nat) : (Dev.count1 a d).latches = d.latches := rfl
@[simp] theorem Dev.count1_axes (d : Dev) (a : Nat) : (Dev.count1 a d).axes = d.axes := rfl
@[simp] theorem Dev.count1_groups (d : Dev) (a : Nat) : (Dev.count1 a d).groups = d.groups := rfl
@[simp] theorem Dev.count1_lanes (d : Dev) (a : Nat) : (Dev.count1 a d).lanes = d.lanes := rfl
@[simp] theorem Dev.count1_prt (d : Dev) (a : Nat) : (Dev.count1 a d).prt = d.prt := rfl
@[simp] theorem Dev.count1_vis (d : Dev) (a : Nat) : (Dev.count1 a d).vis = d.vis := rfl
@[simp] theorem Dev.count1_trees (d : Dev) (a : Nat) : (Dev.count1 a d).trees = d.trees := rfl
@[simp] theorem Dev.count1_field (d : Dev) (a : Nat) : (Dev.count1 a d).field = d.field := rfl
@[simp] theorem Dev.count1_tdl (d : Dev) (a : Nat) : (Dev.count1 a d).tdl = d.tdl := rfl
@[simp] theorem Dev.count1_hrn (d : Dev) (a : Nat) : (Dev.count1 a d).hrn = d.hrn := rfl
@[simp] theorem Dev.count1_cel (d : Dev) (a : Nat) : (Dev.count1 a d).cel = d.cel := rfl
@[simp] theorem Dev.count1_outs (d : Dev) (a : Nat) : (Dev.count1 a d).outs = d.outs := rfl
@[simp] theorem Dev.count1_mon (d : Dev) (a : Nat) : (Dev.count1 a d).mon = d.mon := rfl
@[simp] theorem Dev.count1_idn (d : Dev) (a : Nat) : (Dev.count1 a d).idn = d.idn := rfl
@[simp] theorem Dev.count1_trim (d : Dev) (a : Nat) : (Dev.count1 a d).trim = d.trim := rfl
@[simp] theorem Dev.count1_sram (d : Dev) (a : Nat) : (Dev.count1 a d).sram = d.sram := rfl
@[simp] theorem Dev.count1_dram (d : Dev) (a : Nat) : (Dev.count1 a d).dram = d.dram := rfl
@[simp] theorem Dev.count1_areas (d : Dev) (a : Nat) : (Dev.count1 a d).areas = d.areas := rfl

@[simp] theorem Dev.setOut_now (d : Dev) (p : Nat) (v : Word) : (d.setOut p v).now = d.now := rfl
@[simp] theorem Dev.setOut_born (d : Dev) (p : Nat) (v : Word) : (d.setOut p v).born = d.born := rfl
@[simp] theorem Dev.setOut_mode (d : Dev) (p : Nat) (v : Word) : (d.setOut p v).mode = d.mode := rfl
@[simp] theorem Dev.setOut_origin (d : Dev) (p : Nat) (v : Word) : (d.setOut p v).origin = d.origin := rfl
@[simp] theorem Dev.setOut_halted (d : Dev) (p : Nat) (v : Word) : (d.setOut p v).halted = d.halted := rfl
@[simp] theorem Dev.setOut_ready (d : Dev) (p : Nat) (v : Word) : (d.setOut p v).ready = d.ready := rfl
@[simp] theorem Dev.setOut_boot (d : Dev) (p : Nat) (v : Word) : (d.setOut p v).boot = d.boot := rfl
@[simp] theorem Dev.setOut_holdReq (d : Dev) (p : Nat) (v : Word) : (d.setOut p v).holdReq = d.holdReq := rfl
@[simp] theorem Dev.setOut_dramSz (d : Dev) (p : Nat) (v : Word) : (d.setOut p v).dramSz = d.dramSz := rfl
@[simp] theorem Dev.setOut_fldLink (d : Dev) (p : Nat) (v : Word) : (d.setOut p v).fldLink = d.fldLink := rfl
@[simp] theorem Dev.setOut_tdlLink (d : Dev) (p : Nat) (v : Word) : (d.setOut p v).tdlLink = d.tdlLink := rfl
@[simp] theorem Dev.setOut_hrnLink (d : Dev) (p : Nat) (v : Word) : (d.setOut p v).hrnLink = d.hrnLink := rfl
@[simp] theorem Dev.setOut_freeCtr (d : Dev) (p : Nat) (v : Word) : (d.setOut p v).freeCtr = d.freeCtr := rfl
@[simp] theorem Dev.setOut_tick (d : Dev) (p : Nat) (v : Word) : (d.setOut p v).tick = d.tick := rfl
@[simp] theorem Dev.setOut_fu (d : Dev) (p : Nat) (v : Word) : (d.setOut p v).fu = d.fu := rfl
@[simp] theorem Dev.setOut_ev (d : Dev) (p : Nat) (v : Word) : (d.setOut p v).ev = d.ev := rfl
@[simp] theorem Dev.setOut_pw (d : Dev) (p : Nat) (v : Word) : (d.setOut p v).pw = d.pw := rfl
@[simp] theorem Dev.setOut_reins (d : Dev) (p : Nat) (v : Word) : (d.setOut p v).reins = d.reins := rfl
@[simp] theorem Dev.setOut_pa (d : Dev) (p : Nat) (v : Word) : (d.setOut p v).pa = d.pa := rfl
@[simp] theorem Dev.setOut_pb (d : Dev) (p : Nat) (v : Word) : (d.setOut p v).pb = d.pb := rfl
@[simp] theorem Dev.setOut_cores (d : Dev) (p : Nat) (v : Word) : (d.setOut p v).cores = d.cores := rfl
@[simp] theorem Dev.setOut_loader (d : Dev) (p : Nat) (v : Word) : (d.setOut p v).loader = d.loader := rfl
@[simp] theorem Dev.setOut_carts (d : Dev) (p : Nat) (v : Word) : (d.setOut p v).carts = d.carts := rfl
@[simp] theorem Dev.setOut_fb (d : Dev) (p : Nat) (v : Word) : (d.setOut p v).fb = d.fb := rfl
@[simp] theorem Dev.setOut_latches (d : Dev) (p : Nat) (v : Word) : (d.setOut p v).latches = d.latches := rfl
@[simp] theorem Dev.setOut_axes (d : Dev) (p : Nat) (v : Word) : (d.setOut p v).axes = d.axes := rfl
@[simp] theorem Dev.setOut_groups (d : Dev) (p : Nat) (v : Word) : (d.setOut p v).groups = d.groups := rfl
@[simp] theorem Dev.setOut_lanes (d : Dev) (p : Nat) (v : Word) : (d.setOut p v).lanes = d.lanes := rfl
@[simp] theorem Dev.setOut_prt (d : Dev) (p : Nat) (v : Word) : (d.setOut p v).prt = d.prt := rfl
@[simp] theorem Dev.setOut_vis (d : Dev) (p : Nat) (v : Word) : (d.setOut p v).vis = d.vis := rfl
@[simp] theorem Dev.setOut_trees (d : Dev) (p : Nat) (v : Word) : (d.setOut p v).trees = d.trees := rfl
@[simp] theorem Dev.setOut_field (d : Dev) (p : Nat) (v : Word) : (d.setOut p v).field = d.field := rfl
@[simp] theorem Dev.setOut_tdl (d : Dev) (p : Nat) (v : Word) : (d.setOut p v).tdl = d.tdl := rfl
@[simp] theorem Dev.setOut_hrn (d : Dev) (p : Nat) (v : Word) : (d.setOut p v).hrn = d.hrn := rfl
@[simp] theorem Dev.setOut_cel (d : Dev) (p : Nat) (v : Word) : (d.setOut p v).cel = d.cel := rfl
@[simp] theorem Dev.setOut_regs (d : Dev) (p : Nat) (v : Word) : (d.setOut p v).regs = d.regs := rfl
@[simp] theorem Dev.setOut_mon (d : Dev) (p : Nat) (v : Word) : (d.setOut p v).mon = d.mon := rfl
@[simp] theorem Dev.setOut_idn (d : Dev) (p : Nat) (v : Word) : (d.setOut p v).idn = d.idn := rfl
@[simp] theorem Dev.setOut_trim (d : Dev) (p : Nat) (v : Word) : (d.setOut p v).trim = d.trim := rfl
@[simp] theorem Dev.setOut_sram (d : Dev) (p : Nat) (v : Word) : (d.setOut p v).sram = d.sram := rfl
@[simp] theorem Dev.setOut_dram (d : Dev) (p : Nat) (v : Word) : (d.setOut p v).dram = d.dram := rfl
@[simp] theorem Dev.setOut_areas (d : Dev) (p : Nat) (v : Word) : (d.setOut p v).areas = d.areas := rfl

@[simp] theorem Dev.setCore_now (d : Dev) (k : Fin 6) (c : Core) : (d.setCore k c).now = d.now := rfl
@[simp] theorem Dev.setCore_born (d : Dev) (k : Fin 6) (c : Core) : (d.setCore k c).born = d.born := rfl
@[simp] theorem Dev.setCore_mode (d : Dev) (k : Fin 6) (c : Core) : (d.setCore k c).mode = d.mode := rfl
@[simp] theorem Dev.setCore_origin (d : Dev) (k : Fin 6) (c : Core) : (d.setCore k c).origin = d.origin := rfl
@[simp] theorem Dev.setCore_halted (d : Dev) (k : Fin 6) (c : Core) : (d.setCore k c).halted = d.halted := rfl
@[simp] theorem Dev.setCore_ready (d : Dev) (k : Fin 6) (c : Core) : (d.setCore k c).ready = d.ready := rfl
@[simp] theorem Dev.setCore_boot (d : Dev) (k : Fin 6) (c : Core) : (d.setCore k c).boot = d.boot := rfl
@[simp] theorem Dev.setCore_holdReq (d : Dev) (k : Fin 6) (c : Core) : (d.setCore k c).holdReq = d.holdReq := rfl
@[simp] theorem Dev.setCore_dramSz (d : Dev) (k : Fin 6) (c : Core) : (d.setCore k c).dramSz = d.dramSz := rfl
@[simp] theorem Dev.setCore_fldLink (d : Dev) (k : Fin 6) (c : Core) : (d.setCore k c).fldLink = d.fldLink := rfl
@[simp] theorem Dev.setCore_tdlLink (d : Dev) (k : Fin 6) (c : Core) : (d.setCore k c).tdlLink = d.tdlLink := rfl
@[simp] theorem Dev.setCore_hrnLink (d : Dev) (k : Fin 6) (c : Core) : (d.setCore k c).hrnLink = d.hrnLink := rfl
@[simp] theorem Dev.setCore_freeCtr (d : Dev) (k : Fin 6) (c : Core) : (d.setCore k c).freeCtr = d.freeCtr := rfl
@[simp] theorem Dev.setCore_tick (d : Dev) (k : Fin 6) (c : Core) : (d.setCore k c).tick = d.tick := rfl
@[simp] theorem Dev.setCore_fu (d : Dev) (k : Fin 6) (c : Core) : (d.setCore k c).fu = d.fu := rfl
@[simp] theorem Dev.setCore_ev (d : Dev) (k : Fin 6) (c : Core) : (d.setCore k c).ev = d.ev := rfl
@[simp] theorem Dev.setCore_pw (d : Dev) (k : Fin 6) (c : Core) : (d.setCore k c).pw = d.pw := rfl
@[simp] theorem Dev.setCore_reins (d : Dev) (k : Fin 6) (c : Core) : (d.setCore k c).reins = d.reins := rfl
@[simp] theorem Dev.setCore_pa (d : Dev) (k : Fin 6) (c : Core) : (d.setCore k c).pa = d.pa := rfl
@[simp] theorem Dev.setCore_pb (d : Dev) (k : Fin 6) (c : Core) : (d.setCore k c).pb = d.pb := rfl
@[simp] theorem Dev.setCore_loader (d : Dev) (k : Fin 6) (c : Core) : (d.setCore k c).loader = d.loader := rfl
@[simp] theorem Dev.setCore_carts (d : Dev) (k : Fin 6) (c : Core) : (d.setCore k c).carts = d.carts := rfl
@[simp] theorem Dev.setCore_fb (d : Dev) (k : Fin 6) (c : Core) : (d.setCore k c).fb = d.fb := rfl
@[simp] theorem Dev.setCore_latches (d : Dev) (k : Fin 6) (c : Core) : (d.setCore k c).latches = d.latches := rfl
@[simp] theorem Dev.setCore_axes (d : Dev) (k : Fin 6) (c : Core) : (d.setCore k c).axes = d.axes := rfl
@[simp] theorem Dev.setCore_groups (d : Dev) (k : Fin 6) (c : Core) : (d.setCore k c).groups = d.groups := rfl
@[simp] theorem Dev.setCore_lanes (d : Dev) (k : Fin 6) (c : Core) : (d.setCore k c).lanes = d.lanes := rfl
@[simp] theorem Dev.setCore_prt (d : Dev) (k : Fin 6) (c : Core) : (d.setCore k c).prt = d.prt := rfl
@[simp] theorem Dev.setCore_vis (d : Dev) (k : Fin 6) (c : Core) : (d.setCore k c).vis = d.vis := rfl
@[simp] theorem Dev.setCore_trees (d : Dev) (k : Fin 6) (c : Core) : (d.setCore k c).trees = d.trees := rfl
@[simp] theorem Dev.setCore_field (d : Dev) (k : Fin 6) (c : Core) : (d.setCore k c).field = d.field := rfl
@[simp] theorem Dev.setCore_tdl (d : Dev) (k : Fin 6) (c : Core) : (d.setCore k c).tdl = d.tdl := rfl
@[simp] theorem Dev.setCore_hrn (d : Dev) (k : Fin 6) (c : Core) : (d.setCore k c).hrn = d.hrn := rfl
@[simp] theorem Dev.setCore_cel (d : Dev) (k : Fin 6) (c : Core) : (d.setCore k c).cel = d.cel := rfl
@[simp] theorem Dev.setCore_regs (d : Dev) (k : Fin 6) (c : Core) : (d.setCore k c).regs = d.regs := rfl
@[simp] theorem Dev.setCore_outs (d : Dev) (k : Fin 6) (c : Core) : (d.setCore k c).outs = d.outs := rfl
@[simp] theorem Dev.setCore_mon (d : Dev) (k : Fin 6) (c : Core) : (d.setCore k c).mon = d.mon := rfl
@[simp] theorem Dev.setCore_idn (d : Dev) (k : Fin 6) (c : Core) : (d.setCore k c).idn = d.idn := rfl
@[simp] theorem Dev.setCore_trim (d : Dev) (k : Fin 6) (c : Core) : (d.setCore k c).trim = d.trim := rfl
@[simp] theorem Dev.setCore_sram (d : Dev) (k : Fin 6) (c : Core) : (d.setCore k c).sram = d.sram := rfl
@[simp] theorem Dev.setCore_dram (d : Dev) (k : Fin 6) (c : Core) : (d.setCore k c).dram = d.dram := rfl
@[simp] theorem Dev.setCore_areas (d : Dev) (k : Fin 6) (c : Core) : (d.setCore k c).areas = d.areas := rfl

@[simp] theorem Dev.setCh_now (d : Dev) (k : Fin 16) (x : FbCh) : (d.setCh k x).now = d.now := rfl
@[simp] theorem Dev.setCh_born (d : Dev) (k : Fin 16) (x : FbCh) : (d.setCh k x).born = d.born := rfl
@[simp] theorem Dev.setCh_mode (d : Dev) (k : Fin 16) (x : FbCh) : (d.setCh k x).mode = d.mode := rfl
@[simp] theorem Dev.setCh_origin (d : Dev) (k : Fin 16) (x : FbCh) : (d.setCh k x).origin = d.origin := rfl
@[simp] theorem Dev.setCh_halted (d : Dev) (k : Fin 16) (x : FbCh) : (d.setCh k x).halted = d.halted := rfl
@[simp] theorem Dev.setCh_ready (d : Dev) (k : Fin 16) (x : FbCh) : (d.setCh k x).ready = d.ready := rfl
@[simp] theorem Dev.setCh_boot (d : Dev) (k : Fin 16) (x : FbCh) : (d.setCh k x).boot = d.boot := rfl
@[simp] theorem Dev.setCh_holdReq (d : Dev) (k : Fin 16) (x : FbCh) : (d.setCh k x).holdReq = d.holdReq := rfl
@[simp] theorem Dev.setCh_dramSz (d : Dev) (k : Fin 16) (x : FbCh) : (d.setCh k x).dramSz = d.dramSz := rfl
@[simp] theorem Dev.setCh_fldLink (d : Dev) (k : Fin 16) (x : FbCh) : (d.setCh k x).fldLink = d.fldLink := rfl
@[simp] theorem Dev.setCh_tdlLink (d : Dev) (k : Fin 16) (x : FbCh) : (d.setCh k x).tdlLink = d.tdlLink := rfl
@[simp] theorem Dev.setCh_hrnLink (d : Dev) (k : Fin 16) (x : FbCh) : (d.setCh k x).hrnLink = d.hrnLink := rfl
@[simp] theorem Dev.setCh_freeCtr (d : Dev) (k : Fin 16) (x : FbCh) : (d.setCh k x).freeCtr = d.freeCtr := rfl
@[simp] theorem Dev.setCh_tick (d : Dev) (k : Fin 16) (x : FbCh) : (d.setCh k x).tick = d.tick := rfl
@[simp] theorem Dev.setCh_fu (d : Dev) (k : Fin 16) (x : FbCh) : (d.setCh k x).fu = d.fu := rfl
@[simp] theorem Dev.setCh_ev (d : Dev) (k : Fin 16) (x : FbCh) : (d.setCh k x).ev = d.ev := rfl
@[simp] theorem Dev.setCh_pw (d : Dev) (k : Fin 16) (x : FbCh) : (d.setCh k x).pw = d.pw := rfl
@[simp] theorem Dev.setCh_reins (d : Dev) (k : Fin 16) (x : FbCh) : (d.setCh k x).reins = d.reins := rfl
@[simp] theorem Dev.setCh_pa (d : Dev) (k : Fin 16) (x : FbCh) : (d.setCh k x).pa = d.pa := rfl
@[simp] theorem Dev.setCh_pb (d : Dev) (k : Fin 16) (x : FbCh) : (d.setCh k x).pb = d.pb := rfl
@[simp] theorem Dev.setCh_cores (d : Dev) (k : Fin 16) (x : FbCh) : (d.setCh k x).cores = d.cores := rfl
@[simp] theorem Dev.setCh_loader (d : Dev) (k : Fin 16) (x : FbCh) : (d.setCh k x).loader = d.loader := rfl
@[simp] theorem Dev.setCh_carts (d : Dev) (k : Fin 16) (x : FbCh) : (d.setCh k x).carts = d.carts := rfl
@[simp] theorem Dev.setCh_latches (d : Dev) (k : Fin 16) (x : FbCh) : (d.setCh k x).latches = d.latches := rfl
@[simp] theorem Dev.setCh_axes (d : Dev) (k : Fin 16) (x : FbCh) : (d.setCh k x).axes = d.axes := rfl
@[simp] theorem Dev.setCh_groups (d : Dev) (k : Fin 16) (x : FbCh) : (d.setCh k x).groups = d.groups := rfl
@[simp] theorem Dev.setCh_lanes (d : Dev) (k : Fin 16) (x : FbCh) : (d.setCh k x).lanes = d.lanes := rfl
@[simp] theorem Dev.setCh_prt (d : Dev) (k : Fin 16) (x : FbCh) : (d.setCh k x).prt = d.prt := rfl
@[simp] theorem Dev.setCh_vis (d : Dev) (k : Fin 16) (x : FbCh) : (d.setCh k x).vis = d.vis := rfl
@[simp] theorem Dev.setCh_trees (d : Dev) (k : Fin 16) (x : FbCh) : (d.setCh k x).trees = d.trees := rfl
@[simp] theorem Dev.setCh_field (d : Dev) (k : Fin 16) (x : FbCh) : (d.setCh k x).field = d.field := rfl
@[simp] theorem Dev.setCh_tdl (d : Dev) (k : Fin 16) (x : FbCh) : (d.setCh k x).tdl = d.tdl := rfl
@[simp] theorem Dev.setCh_hrn (d : Dev) (k : Fin 16) (x : FbCh) : (d.setCh k x).hrn = d.hrn := rfl
@[simp] theorem Dev.setCh_cel (d : Dev) (k : Fin 16) (x : FbCh) : (d.setCh k x).cel = d.cel := rfl
@[simp] theorem Dev.setCh_regs (d : Dev) (k : Fin 16) (x : FbCh) : (d.setCh k x).regs = d.regs := rfl
@[simp] theorem Dev.setCh_outs (d : Dev) (k : Fin 16) (x : FbCh) : (d.setCh k x).outs = d.outs := rfl
@[simp] theorem Dev.setCh_mon (d : Dev) (k : Fin 16) (x : FbCh) : (d.setCh k x).mon = d.mon := rfl
@[simp] theorem Dev.setCh_idn (d : Dev) (k : Fin 16) (x : FbCh) : (d.setCh k x).idn = d.idn := rfl
@[simp] theorem Dev.setCh_trim (d : Dev) (k : Fin 16) (x : FbCh) : (d.setCh k x).trim = d.trim := rfl
@[simp] theorem Dev.setCh_sram (d : Dev) (k : Fin 16) (x : FbCh) : (d.setCh k x).sram = d.sram := rfl
@[simp] theorem Dev.setCh_dram (d : Dev) (k : Fin 16) (x : FbCh) : (d.setCh k x).dram = d.dram := rfl
@[simp] theorem Dev.setCh_areas (d : Dev) (k : Fin 16) (x : FbCh) : (d.setCh k x).areas = d.areas := rfl

@[simp] theorem Dev.setLatch_now (d : Dev) (j : Fin 8) (x : Latch) : (d.setLatch j x).now = d.now := rfl
@[simp] theorem Dev.setLatch_born (d : Dev) (j : Fin 8) (x : Latch) : (d.setLatch j x).born = d.born := rfl
@[simp] theorem Dev.setLatch_mode (d : Dev) (j : Fin 8) (x : Latch) : (d.setLatch j x).mode = d.mode := rfl
@[simp] theorem Dev.setLatch_origin (d : Dev) (j : Fin 8) (x : Latch) : (d.setLatch j x).origin = d.origin := rfl
@[simp] theorem Dev.setLatch_halted (d : Dev) (j : Fin 8) (x : Latch) : (d.setLatch j x).halted = d.halted := rfl
@[simp] theorem Dev.setLatch_ready (d : Dev) (j : Fin 8) (x : Latch) : (d.setLatch j x).ready = d.ready := rfl
@[simp] theorem Dev.setLatch_boot (d : Dev) (j : Fin 8) (x : Latch) : (d.setLatch j x).boot = d.boot := rfl
@[simp] theorem Dev.setLatch_holdReq (d : Dev) (j : Fin 8) (x : Latch) : (d.setLatch j x).holdReq = d.holdReq := rfl
@[simp] theorem Dev.setLatch_dramSz (d : Dev) (j : Fin 8) (x : Latch) : (d.setLatch j x).dramSz = d.dramSz := rfl
@[simp] theorem Dev.setLatch_fldLink (d : Dev) (j : Fin 8) (x : Latch) : (d.setLatch j x).fldLink = d.fldLink := rfl
@[simp] theorem Dev.setLatch_tdlLink (d : Dev) (j : Fin 8) (x : Latch) : (d.setLatch j x).tdlLink = d.tdlLink := rfl
@[simp] theorem Dev.setLatch_hrnLink (d : Dev) (j : Fin 8) (x : Latch) : (d.setLatch j x).hrnLink = d.hrnLink := rfl
@[simp] theorem Dev.setLatch_freeCtr (d : Dev) (j : Fin 8) (x : Latch) : (d.setLatch j x).freeCtr = d.freeCtr := rfl
@[simp] theorem Dev.setLatch_tick (d : Dev) (j : Fin 8) (x : Latch) : (d.setLatch j x).tick = d.tick := rfl
@[simp] theorem Dev.setLatch_fu (d : Dev) (j : Fin 8) (x : Latch) : (d.setLatch j x).fu = d.fu := rfl
@[simp] theorem Dev.setLatch_ev (d : Dev) (j : Fin 8) (x : Latch) : (d.setLatch j x).ev = d.ev := rfl
@[simp] theorem Dev.setLatch_pw (d : Dev) (j : Fin 8) (x : Latch) : (d.setLatch j x).pw = d.pw := rfl
@[simp] theorem Dev.setLatch_reins (d : Dev) (j : Fin 8) (x : Latch) : (d.setLatch j x).reins = d.reins := rfl
@[simp] theorem Dev.setLatch_pa (d : Dev) (j : Fin 8) (x : Latch) : (d.setLatch j x).pa = d.pa := rfl
@[simp] theorem Dev.setLatch_pb (d : Dev) (j : Fin 8) (x : Latch) : (d.setLatch j x).pb = d.pb := rfl
@[simp] theorem Dev.setLatch_cores (d : Dev) (j : Fin 8) (x : Latch) : (d.setLatch j x).cores = d.cores := rfl
@[simp] theorem Dev.setLatch_loader (d : Dev) (j : Fin 8) (x : Latch) : (d.setLatch j x).loader = d.loader := rfl
@[simp] theorem Dev.setLatch_carts (d : Dev) (j : Fin 8) (x : Latch) : (d.setLatch j x).carts = d.carts := rfl
@[simp] theorem Dev.setLatch_fb (d : Dev) (j : Fin 8) (x : Latch) : (d.setLatch j x).fb = d.fb := rfl
@[simp] theorem Dev.setLatch_axes (d : Dev) (j : Fin 8) (x : Latch) : (d.setLatch j x).axes = d.axes := rfl
@[simp] theorem Dev.setLatch_groups (d : Dev) (j : Fin 8) (x : Latch) : (d.setLatch j x).groups = d.groups := rfl
@[simp] theorem Dev.setLatch_lanes (d : Dev) (j : Fin 8) (x : Latch) : (d.setLatch j x).lanes = d.lanes := rfl
@[simp] theorem Dev.setLatch_prt (d : Dev) (j : Fin 8) (x : Latch) : (d.setLatch j x).prt = d.prt := rfl
@[simp] theorem Dev.setLatch_vis (d : Dev) (j : Fin 8) (x : Latch) : (d.setLatch j x).vis = d.vis := rfl
@[simp] theorem Dev.setLatch_trees (d : Dev) (j : Fin 8) (x : Latch) : (d.setLatch j x).trees = d.trees := rfl
@[simp] theorem Dev.setLatch_field (d : Dev) (j : Fin 8) (x : Latch) : (d.setLatch j x).field = d.field := rfl
@[simp] theorem Dev.setLatch_tdl (d : Dev) (j : Fin 8) (x : Latch) : (d.setLatch j x).tdl = d.tdl := rfl
@[simp] theorem Dev.setLatch_hrn (d : Dev) (j : Fin 8) (x : Latch) : (d.setLatch j x).hrn = d.hrn := rfl
@[simp] theorem Dev.setLatch_cel (d : Dev) (j : Fin 8) (x : Latch) : (d.setLatch j x).cel = d.cel := rfl
@[simp] theorem Dev.setLatch_regs (d : Dev) (j : Fin 8) (x : Latch) : (d.setLatch j x).regs = d.regs := rfl
@[simp] theorem Dev.setLatch_outs (d : Dev) (j : Fin 8) (x : Latch) : (d.setLatch j x).outs = d.outs := rfl
@[simp] theorem Dev.setLatch_mon (d : Dev) (j : Fin 8) (x : Latch) : (d.setLatch j x).mon = d.mon := rfl
@[simp] theorem Dev.setLatch_idn (d : Dev) (j : Fin 8) (x : Latch) : (d.setLatch j x).idn = d.idn := rfl
@[simp] theorem Dev.setLatch_trim (d : Dev) (j : Fin 8) (x : Latch) : (d.setLatch j x).trim = d.trim := rfl
@[simp] theorem Dev.setLatch_sram (d : Dev) (j : Fin 8) (x : Latch) : (d.setLatch j x).sram = d.sram := rfl
@[simp] theorem Dev.setLatch_dram (d : Dev) (j : Fin 8) (x : Latch) : (d.setLatch j x).dram = d.dram := rfl
@[simp] theorem Dev.setLatch_areas (d : Dev) (j : Fin 8) (x : Latch) : (d.setLatch j x).areas = d.areas := rfl

@[simp] theorem Dev.setAxis_now (d : Dev) (n : Fin 16) (x : Axis) : (d.setAxis n x).now = d.now := rfl
@[simp] theorem Dev.setAxis_born (d : Dev) (n : Fin 16) (x : Axis) : (d.setAxis n x).born = d.born := rfl
@[simp] theorem Dev.setAxis_mode (d : Dev) (n : Fin 16) (x : Axis) : (d.setAxis n x).mode = d.mode := rfl
@[simp] theorem Dev.setAxis_origin (d : Dev) (n : Fin 16) (x : Axis) : (d.setAxis n x).origin = d.origin := rfl
@[simp] theorem Dev.setAxis_halted (d : Dev) (n : Fin 16) (x : Axis) : (d.setAxis n x).halted = d.halted := rfl
@[simp] theorem Dev.setAxis_ready (d : Dev) (n : Fin 16) (x : Axis) : (d.setAxis n x).ready = d.ready := rfl
@[simp] theorem Dev.setAxis_boot (d : Dev) (n : Fin 16) (x : Axis) : (d.setAxis n x).boot = d.boot := rfl
@[simp] theorem Dev.setAxis_holdReq (d : Dev) (n : Fin 16) (x : Axis) : (d.setAxis n x).holdReq = d.holdReq := rfl
@[simp] theorem Dev.setAxis_dramSz (d : Dev) (n : Fin 16) (x : Axis) : (d.setAxis n x).dramSz = d.dramSz := rfl
@[simp] theorem Dev.setAxis_fldLink (d : Dev) (n : Fin 16) (x : Axis) : (d.setAxis n x).fldLink = d.fldLink := rfl
@[simp] theorem Dev.setAxis_tdlLink (d : Dev) (n : Fin 16) (x : Axis) : (d.setAxis n x).tdlLink = d.tdlLink := rfl
@[simp] theorem Dev.setAxis_hrnLink (d : Dev) (n : Fin 16) (x : Axis) : (d.setAxis n x).hrnLink = d.hrnLink := rfl
@[simp] theorem Dev.setAxis_freeCtr (d : Dev) (n : Fin 16) (x : Axis) : (d.setAxis n x).freeCtr = d.freeCtr := rfl
@[simp] theorem Dev.setAxis_tick (d : Dev) (n : Fin 16) (x : Axis) : (d.setAxis n x).tick = d.tick := rfl
@[simp] theorem Dev.setAxis_fu (d : Dev) (n : Fin 16) (x : Axis) : (d.setAxis n x).fu = d.fu := rfl
@[simp] theorem Dev.setAxis_ev (d : Dev) (n : Fin 16) (x : Axis) : (d.setAxis n x).ev = d.ev := rfl
@[simp] theorem Dev.setAxis_pw (d : Dev) (n : Fin 16) (x : Axis) : (d.setAxis n x).pw = d.pw := rfl
@[simp] theorem Dev.setAxis_reins (d : Dev) (n : Fin 16) (x : Axis) : (d.setAxis n x).reins = d.reins := rfl
@[simp] theorem Dev.setAxis_pa (d : Dev) (n : Fin 16) (x : Axis) : (d.setAxis n x).pa = d.pa := rfl
@[simp] theorem Dev.setAxis_pb (d : Dev) (n : Fin 16) (x : Axis) : (d.setAxis n x).pb = d.pb := rfl
@[simp] theorem Dev.setAxis_cores (d : Dev) (n : Fin 16) (x : Axis) : (d.setAxis n x).cores = d.cores := rfl
@[simp] theorem Dev.setAxis_loader (d : Dev) (n : Fin 16) (x : Axis) : (d.setAxis n x).loader = d.loader := rfl
@[simp] theorem Dev.setAxis_carts (d : Dev) (n : Fin 16) (x : Axis) : (d.setAxis n x).carts = d.carts := rfl
@[simp] theorem Dev.setAxis_fb (d : Dev) (n : Fin 16) (x : Axis) : (d.setAxis n x).fb = d.fb := rfl
@[simp] theorem Dev.setAxis_latches (d : Dev) (n : Fin 16) (x : Axis) : (d.setAxis n x).latches = d.latches := rfl
@[simp] theorem Dev.setAxis_groups (d : Dev) (n : Fin 16) (x : Axis) : (d.setAxis n x).groups = d.groups := rfl
@[simp] theorem Dev.setAxis_lanes (d : Dev) (n : Fin 16) (x : Axis) : (d.setAxis n x).lanes = d.lanes := rfl
@[simp] theorem Dev.setAxis_prt (d : Dev) (n : Fin 16) (x : Axis) : (d.setAxis n x).prt = d.prt := rfl
@[simp] theorem Dev.setAxis_vis (d : Dev) (n : Fin 16) (x : Axis) : (d.setAxis n x).vis = d.vis := rfl
@[simp] theorem Dev.setAxis_trees (d : Dev) (n : Fin 16) (x : Axis) : (d.setAxis n x).trees = d.trees := rfl
@[simp] theorem Dev.setAxis_field (d : Dev) (n : Fin 16) (x : Axis) : (d.setAxis n x).field = d.field := rfl
@[simp] theorem Dev.setAxis_tdl (d : Dev) (n : Fin 16) (x : Axis) : (d.setAxis n x).tdl = d.tdl := rfl
@[simp] theorem Dev.setAxis_hrn (d : Dev) (n : Fin 16) (x : Axis) : (d.setAxis n x).hrn = d.hrn := rfl
@[simp] theorem Dev.setAxis_cel (d : Dev) (n : Fin 16) (x : Axis) : (d.setAxis n x).cel = d.cel := rfl
@[simp] theorem Dev.setAxis_regs (d : Dev) (n : Fin 16) (x : Axis) : (d.setAxis n x).regs = d.regs := rfl
@[simp] theorem Dev.setAxis_outs (d : Dev) (n : Fin 16) (x : Axis) : (d.setAxis n x).outs = d.outs := rfl
@[simp] theorem Dev.setAxis_mon (d : Dev) (n : Fin 16) (x : Axis) : (d.setAxis n x).mon = d.mon := rfl
@[simp] theorem Dev.setAxis_idn (d : Dev) (n : Fin 16) (x : Axis) : (d.setAxis n x).idn = d.idn := rfl
@[simp] theorem Dev.setAxis_trim (d : Dev) (n : Fin 16) (x : Axis) : (d.setAxis n x).trim = d.trim := rfl
@[simp] theorem Dev.setAxis_sram (d : Dev) (n : Fin 16) (x : Axis) : (d.setAxis n x).sram = d.sram := rfl
@[simp] theorem Dev.setAxis_dram (d : Dev) (n : Fin 16) (x : Axis) : (d.setAxis n x).dram = d.dram := rfl
@[simp] theorem Dev.setAxis_areas (d : Dev) (n : Fin 16) (x : Axis) : (d.setAxis n x).areas = d.areas := rfl

@[simp] theorem Dev.setGroup_now (d : Dev) (g : Fin 4) (x : Group) : (d.setGroup g x).now = d.now := rfl
@[simp] theorem Dev.setGroup_born (d : Dev) (g : Fin 4) (x : Group) : (d.setGroup g x).born = d.born := rfl
@[simp] theorem Dev.setGroup_mode (d : Dev) (g : Fin 4) (x : Group) : (d.setGroup g x).mode = d.mode := rfl
@[simp] theorem Dev.setGroup_origin (d : Dev) (g : Fin 4) (x : Group) : (d.setGroup g x).origin = d.origin := rfl
@[simp] theorem Dev.setGroup_halted (d : Dev) (g : Fin 4) (x : Group) : (d.setGroup g x).halted = d.halted := rfl
@[simp] theorem Dev.setGroup_ready (d : Dev) (g : Fin 4) (x : Group) : (d.setGroup g x).ready = d.ready := rfl
@[simp] theorem Dev.setGroup_boot (d : Dev) (g : Fin 4) (x : Group) : (d.setGroup g x).boot = d.boot := rfl
@[simp] theorem Dev.setGroup_holdReq (d : Dev) (g : Fin 4) (x : Group) : (d.setGroup g x).holdReq = d.holdReq := rfl
@[simp] theorem Dev.setGroup_dramSz (d : Dev) (g : Fin 4) (x : Group) : (d.setGroup g x).dramSz = d.dramSz := rfl
@[simp] theorem Dev.setGroup_fldLink (d : Dev) (g : Fin 4) (x : Group) : (d.setGroup g x).fldLink = d.fldLink := rfl
@[simp] theorem Dev.setGroup_tdlLink (d : Dev) (g : Fin 4) (x : Group) : (d.setGroup g x).tdlLink = d.tdlLink := rfl
@[simp] theorem Dev.setGroup_hrnLink (d : Dev) (g : Fin 4) (x : Group) : (d.setGroup g x).hrnLink = d.hrnLink := rfl
@[simp] theorem Dev.setGroup_freeCtr (d : Dev) (g : Fin 4) (x : Group) : (d.setGroup g x).freeCtr = d.freeCtr := rfl
@[simp] theorem Dev.setGroup_tick (d : Dev) (g : Fin 4) (x : Group) : (d.setGroup g x).tick = d.tick := rfl
@[simp] theorem Dev.setGroup_fu (d : Dev) (g : Fin 4) (x : Group) : (d.setGroup g x).fu = d.fu := rfl
@[simp] theorem Dev.setGroup_ev (d : Dev) (g : Fin 4) (x : Group) : (d.setGroup g x).ev = d.ev := rfl
@[simp] theorem Dev.setGroup_pw (d : Dev) (g : Fin 4) (x : Group) : (d.setGroup g x).pw = d.pw := rfl
@[simp] theorem Dev.setGroup_reins (d : Dev) (g : Fin 4) (x : Group) : (d.setGroup g x).reins = d.reins := rfl
@[simp] theorem Dev.setGroup_pa (d : Dev) (g : Fin 4) (x : Group) : (d.setGroup g x).pa = d.pa := rfl
@[simp] theorem Dev.setGroup_pb (d : Dev) (g : Fin 4) (x : Group) : (d.setGroup g x).pb = d.pb := rfl
@[simp] theorem Dev.setGroup_cores (d : Dev) (g : Fin 4) (x : Group) : (d.setGroup g x).cores = d.cores := rfl
@[simp] theorem Dev.setGroup_loader (d : Dev) (g : Fin 4) (x : Group) : (d.setGroup g x).loader = d.loader := rfl
@[simp] theorem Dev.setGroup_carts (d : Dev) (g : Fin 4) (x : Group) : (d.setGroup g x).carts = d.carts := rfl
@[simp] theorem Dev.setGroup_fb (d : Dev) (g : Fin 4) (x : Group) : (d.setGroup g x).fb = d.fb := rfl
@[simp] theorem Dev.setGroup_latches (d : Dev) (g : Fin 4) (x : Group) : (d.setGroup g x).latches = d.latches := rfl
@[simp] theorem Dev.setGroup_axes (d : Dev) (g : Fin 4) (x : Group) : (d.setGroup g x).axes = d.axes := rfl
@[simp] theorem Dev.setGroup_lanes (d : Dev) (g : Fin 4) (x : Group) : (d.setGroup g x).lanes = d.lanes := rfl
@[simp] theorem Dev.setGroup_prt (d : Dev) (g : Fin 4) (x : Group) : (d.setGroup g x).prt = d.prt := rfl
@[simp] theorem Dev.setGroup_vis (d : Dev) (g : Fin 4) (x : Group) : (d.setGroup g x).vis = d.vis := rfl
@[simp] theorem Dev.setGroup_trees (d : Dev) (g : Fin 4) (x : Group) : (d.setGroup g x).trees = d.trees := rfl
@[simp] theorem Dev.setGroup_field (d : Dev) (g : Fin 4) (x : Group) : (d.setGroup g x).field = d.field := rfl
@[simp] theorem Dev.setGroup_tdl (d : Dev) (g : Fin 4) (x : Group) : (d.setGroup g x).tdl = d.tdl := rfl
@[simp] theorem Dev.setGroup_hrn (d : Dev) (g : Fin 4) (x : Group) : (d.setGroup g x).hrn = d.hrn := rfl
@[simp] theorem Dev.setGroup_cel (d : Dev) (g : Fin 4) (x : Group) : (d.setGroup g x).cel = d.cel := rfl
@[simp] theorem Dev.setGroup_regs (d : Dev) (g : Fin 4) (x : Group) : (d.setGroup g x).regs = d.regs := rfl
@[simp] theorem Dev.setGroup_outs (d : Dev) (g : Fin 4) (x : Group) : (d.setGroup g x).outs = d.outs := rfl
@[simp] theorem Dev.setGroup_mon (d : Dev) (g : Fin 4) (x : Group) : (d.setGroup g x).mon = d.mon := rfl
@[simp] theorem Dev.setGroup_idn (d : Dev) (g : Fin 4) (x : Group) : (d.setGroup g x).idn = d.idn := rfl
@[simp] theorem Dev.setGroup_trim (d : Dev) (g : Fin 4) (x : Group) : (d.setGroup g x).trim = d.trim := rfl
@[simp] theorem Dev.setGroup_sram (d : Dev) (g : Fin 4) (x : Group) : (d.setGroup g x).sram = d.sram := rfl
@[simp] theorem Dev.setGroup_dram (d : Dev) (g : Fin 4) (x : Group) : (d.setGroup g x).dram = d.dram := rfl
@[simp] theorem Dev.setGroup_areas (d : Dev) (g : Fin 4) (x : Group) : (d.setGroup g x).areas = d.areas := rfl

@[simp] theorem Dev.setLane_now (d : Dev) (n : Fin 16) (x : Lane) : (d.setLane n x).now = d.now := rfl
@[simp] theorem Dev.setLane_born (d : Dev) (n : Fin 16) (x : Lane) : (d.setLane n x).born = d.born := rfl
@[simp] theorem Dev.setLane_mode (d : Dev) (n : Fin 16) (x : Lane) : (d.setLane n x).mode = d.mode := rfl
@[simp] theorem Dev.setLane_origin (d : Dev) (n : Fin 16) (x : Lane) : (d.setLane n x).origin = d.origin := rfl
@[simp] theorem Dev.setLane_halted (d : Dev) (n : Fin 16) (x : Lane) : (d.setLane n x).halted = d.halted := rfl
@[simp] theorem Dev.setLane_ready (d : Dev) (n : Fin 16) (x : Lane) : (d.setLane n x).ready = d.ready := rfl
@[simp] theorem Dev.setLane_boot (d : Dev) (n : Fin 16) (x : Lane) : (d.setLane n x).boot = d.boot := rfl
@[simp] theorem Dev.setLane_holdReq (d : Dev) (n : Fin 16) (x : Lane) : (d.setLane n x).holdReq = d.holdReq := rfl
@[simp] theorem Dev.setLane_dramSz (d : Dev) (n : Fin 16) (x : Lane) : (d.setLane n x).dramSz = d.dramSz := rfl
@[simp] theorem Dev.setLane_fldLink (d : Dev) (n : Fin 16) (x : Lane) : (d.setLane n x).fldLink = d.fldLink := rfl
@[simp] theorem Dev.setLane_tdlLink (d : Dev) (n : Fin 16) (x : Lane) : (d.setLane n x).tdlLink = d.tdlLink := rfl
@[simp] theorem Dev.setLane_hrnLink (d : Dev) (n : Fin 16) (x : Lane) : (d.setLane n x).hrnLink = d.hrnLink := rfl
@[simp] theorem Dev.setLane_freeCtr (d : Dev) (n : Fin 16) (x : Lane) : (d.setLane n x).freeCtr = d.freeCtr := rfl
@[simp] theorem Dev.setLane_tick (d : Dev) (n : Fin 16) (x : Lane) : (d.setLane n x).tick = d.tick := rfl
@[simp] theorem Dev.setLane_fu (d : Dev) (n : Fin 16) (x : Lane) : (d.setLane n x).fu = d.fu := rfl
@[simp] theorem Dev.setLane_ev (d : Dev) (n : Fin 16) (x : Lane) : (d.setLane n x).ev = d.ev := rfl
@[simp] theorem Dev.setLane_pw (d : Dev) (n : Fin 16) (x : Lane) : (d.setLane n x).pw = d.pw := rfl
@[simp] theorem Dev.setLane_reins (d : Dev) (n : Fin 16) (x : Lane) : (d.setLane n x).reins = d.reins := rfl
@[simp] theorem Dev.setLane_pa (d : Dev) (n : Fin 16) (x : Lane) : (d.setLane n x).pa = d.pa := rfl
@[simp] theorem Dev.setLane_pb (d : Dev) (n : Fin 16) (x : Lane) : (d.setLane n x).pb = d.pb := rfl
@[simp] theorem Dev.setLane_cores (d : Dev) (n : Fin 16) (x : Lane) : (d.setLane n x).cores = d.cores := rfl
@[simp] theorem Dev.setLane_loader (d : Dev) (n : Fin 16) (x : Lane) : (d.setLane n x).loader = d.loader := rfl
@[simp] theorem Dev.setLane_carts (d : Dev) (n : Fin 16) (x : Lane) : (d.setLane n x).carts = d.carts := rfl
@[simp] theorem Dev.setLane_fb (d : Dev) (n : Fin 16) (x : Lane) : (d.setLane n x).fb = d.fb := rfl
@[simp] theorem Dev.setLane_latches (d : Dev) (n : Fin 16) (x : Lane) : (d.setLane n x).latches = d.latches := rfl
@[simp] theorem Dev.setLane_axes (d : Dev) (n : Fin 16) (x : Lane) : (d.setLane n x).axes = d.axes := rfl
@[simp] theorem Dev.setLane_groups (d : Dev) (n : Fin 16) (x : Lane) : (d.setLane n x).groups = d.groups := rfl
@[simp] theorem Dev.setLane_prt (d : Dev) (n : Fin 16) (x : Lane) : (d.setLane n x).prt = d.prt := rfl
@[simp] theorem Dev.setLane_vis (d : Dev) (n : Fin 16) (x : Lane) : (d.setLane n x).vis = d.vis := rfl
@[simp] theorem Dev.setLane_trees (d : Dev) (n : Fin 16) (x : Lane) : (d.setLane n x).trees = d.trees := rfl
@[simp] theorem Dev.setLane_field (d : Dev) (n : Fin 16) (x : Lane) : (d.setLane n x).field = d.field := rfl
@[simp] theorem Dev.setLane_tdl (d : Dev) (n : Fin 16) (x : Lane) : (d.setLane n x).tdl = d.tdl := rfl
@[simp] theorem Dev.setLane_hrn (d : Dev) (n : Fin 16) (x : Lane) : (d.setLane n x).hrn = d.hrn := rfl
@[simp] theorem Dev.setLane_cel (d : Dev) (n : Fin 16) (x : Lane) : (d.setLane n x).cel = d.cel := rfl
@[simp] theorem Dev.setLane_regs (d : Dev) (n : Fin 16) (x : Lane) : (d.setLane n x).regs = d.regs := rfl
@[simp] theorem Dev.setLane_outs (d : Dev) (n : Fin 16) (x : Lane) : (d.setLane n x).outs = d.outs := rfl
@[simp] theorem Dev.setLane_mon (d : Dev) (n : Fin 16) (x : Lane) : (d.setLane n x).mon = d.mon := rfl
@[simp] theorem Dev.setLane_idn (d : Dev) (n : Fin 16) (x : Lane) : (d.setLane n x).idn = d.idn := rfl
@[simp] theorem Dev.setLane_trim (d : Dev) (n : Fin 16) (x : Lane) : (d.setLane n x).trim = d.trim := rfl
@[simp] theorem Dev.setLane_sram (d : Dev) (n : Fin 16) (x : Lane) : (d.setLane n x).sram = d.sram := rfl
@[simp] theorem Dev.setLane_dram (d : Dev) (n : Fin 16) (x : Lane) : (d.setLane n x).dram = d.dram := rfl
@[simp] theorem Dev.setLane_areas (d : Dev) (n : Fin 16) (x : Lane) : (d.setLane n x).areas = d.areas := rfl

@[simp] theorem Dev.setBus_now (d : Dev) (b : Fin 4) (x : IdBus) : (d.setBus b x).now = d.now := rfl
@[simp] theorem Dev.setBus_born (d : Dev) (b : Fin 4) (x : IdBus) : (d.setBus b x).born = d.born := rfl
@[simp] theorem Dev.setBus_mode (d : Dev) (b : Fin 4) (x : IdBus) : (d.setBus b x).mode = d.mode := rfl
@[simp] theorem Dev.setBus_origin (d : Dev) (b : Fin 4) (x : IdBus) : (d.setBus b x).origin = d.origin := rfl
@[simp] theorem Dev.setBus_halted (d : Dev) (b : Fin 4) (x : IdBus) : (d.setBus b x).halted = d.halted := rfl
@[simp] theorem Dev.setBus_ready (d : Dev) (b : Fin 4) (x : IdBus) : (d.setBus b x).ready = d.ready := rfl
@[simp] theorem Dev.setBus_boot (d : Dev) (b : Fin 4) (x : IdBus) : (d.setBus b x).boot = d.boot := rfl
@[simp] theorem Dev.setBus_holdReq (d : Dev) (b : Fin 4) (x : IdBus) : (d.setBus b x).holdReq = d.holdReq := rfl
@[simp] theorem Dev.setBus_dramSz (d : Dev) (b : Fin 4) (x : IdBus) : (d.setBus b x).dramSz = d.dramSz := rfl
@[simp] theorem Dev.setBus_fldLink (d : Dev) (b : Fin 4) (x : IdBus) : (d.setBus b x).fldLink = d.fldLink := rfl
@[simp] theorem Dev.setBus_tdlLink (d : Dev) (b : Fin 4) (x : IdBus) : (d.setBus b x).tdlLink = d.tdlLink := rfl
@[simp] theorem Dev.setBus_hrnLink (d : Dev) (b : Fin 4) (x : IdBus) : (d.setBus b x).hrnLink = d.hrnLink := rfl
@[simp] theorem Dev.setBus_freeCtr (d : Dev) (b : Fin 4) (x : IdBus) : (d.setBus b x).freeCtr = d.freeCtr := rfl
@[simp] theorem Dev.setBus_tick (d : Dev) (b : Fin 4) (x : IdBus) : (d.setBus b x).tick = d.tick := rfl
@[simp] theorem Dev.setBus_fu (d : Dev) (b : Fin 4) (x : IdBus) : (d.setBus b x).fu = d.fu := rfl
@[simp] theorem Dev.setBus_ev (d : Dev) (b : Fin 4) (x : IdBus) : (d.setBus b x).ev = d.ev := rfl
@[simp] theorem Dev.setBus_pw (d : Dev) (b : Fin 4) (x : IdBus) : (d.setBus b x).pw = d.pw := rfl
@[simp] theorem Dev.setBus_reins (d : Dev) (b : Fin 4) (x : IdBus) : (d.setBus b x).reins = d.reins := rfl
@[simp] theorem Dev.setBus_pa (d : Dev) (b : Fin 4) (x : IdBus) : (d.setBus b x).pa = d.pa := rfl
@[simp] theorem Dev.setBus_pb (d : Dev) (b : Fin 4) (x : IdBus) : (d.setBus b x).pb = d.pb := rfl
@[simp] theorem Dev.setBus_cores (d : Dev) (b : Fin 4) (x : IdBus) : (d.setBus b x).cores = d.cores := rfl
@[simp] theorem Dev.setBus_loader (d : Dev) (b : Fin 4) (x : IdBus) : (d.setBus b x).loader = d.loader := rfl
@[simp] theorem Dev.setBus_carts (d : Dev) (b : Fin 4) (x : IdBus) : (d.setBus b x).carts = d.carts := rfl
@[simp] theorem Dev.setBus_fb (d : Dev) (b : Fin 4) (x : IdBus) : (d.setBus b x).fb = d.fb := rfl
@[simp] theorem Dev.setBus_latches (d : Dev) (b : Fin 4) (x : IdBus) : (d.setBus b x).latches = d.latches := rfl
@[simp] theorem Dev.setBus_axes (d : Dev) (b : Fin 4) (x : IdBus) : (d.setBus b x).axes = d.axes := rfl
@[simp] theorem Dev.setBus_groups (d : Dev) (b : Fin 4) (x : IdBus) : (d.setBus b x).groups = d.groups := rfl
@[simp] theorem Dev.setBus_lanes (d : Dev) (b : Fin 4) (x : IdBus) : (d.setBus b x).lanes = d.lanes := rfl
@[simp] theorem Dev.setBus_prt (d : Dev) (b : Fin 4) (x : IdBus) : (d.setBus b x).prt = d.prt := rfl
@[simp] theorem Dev.setBus_vis (d : Dev) (b : Fin 4) (x : IdBus) : (d.setBus b x).vis = d.vis := rfl
@[simp] theorem Dev.setBus_trees (d : Dev) (b : Fin 4) (x : IdBus) : (d.setBus b x).trees = d.trees := rfl
@[simp] theorem Dev.setBus_field (d : Dev) (b : Fin 4) (x : IdBus) : (d.setBus b x).field = d.field := rfl
@[simp] theorem Dev.setBus_tdl (d : Dev) (b : Fin 4) (x : IdBus) : (d.setBus b x).tdl = d.tdl := rfl
@[simp] theorem Dev.setBus_hrn (d : Dev) (b : Fin 4) (x : IdBus) : (d.setBus b x).hrn = d.hrn := rfl
@[simp] theorem Dev.setBus_cel (d : Dev) (b : Fin 4) (x : IdBus) : (d.setBus b x).cel = d.cel := rfl
@[simp] theorem Dev.setBus_regs (d : Dev) (b : Fin 4) (x : IdBus) : (d.setBus b x).regs = d.regs := rfl
@[simp] theorem Dev.setBus_outs (d : Dev) (b : Fin 4) (x : IdBus) : (d.setBus b x).outs = d.outs := rfl
@[simp] theorem Dev.setBus_mon (d : Dev) (b : Fin 4) (x : IdBus) : (d.setBus b x).mon = d.mon := rfl
@[simp] theorem Dev.setBus_trim (d : Dev) (b : Fin 4) (x : IdBus) : (d.setBus b x).trim = d.trim := rfl
@[simp] theorem Dev.setBus_sram (d : Dev) (b : Fin 4) (x : IdBus) : (d.setBus b x).sram = d.sram := rfl
@[simp] theorem Dev.setBus_dram (d : Dev) (b : Fin 4) (x : IdBus) : (d.setBus b x).dram = d.dram := rfl
@[simp] theorem Dev.setBus_areas (d : Dev) (b : Fin 4) (x : IdBus) : (d.setBus b x).areas = d.areas := rfl

@[simp] theorem Dev.setCel_now (d : Dev) (c : Cellar) : (d.setCel c).now = d.now := rfl
@[simp] theorem Dev.setCel_born (d : Dev) (c : Cellar) : (d.setCel c).born = d.born := rfl
@[simp] theorem Dev.setCel_mode (d : Dev) (c : Cellar) : (d.setCel c).mode = d.mode := rfl
@[simp] theorem Dev.setCel_origin (d : Dev) (c : Cellar) : (d.setCel c).origin = d.origin := rfl
@[simp] theorem Dev.setCel_halted (d : Dev) (c : Cellar) : (d.setCel c).halted = d.halted := rfl
@[simp] theorem Dev.setCel_ready (d : Dev) (c : Cellar) : (d.setCel c).ready = d.ready := rfl
@[simp] theorem Dev.setCel_boot (d : Dev) (c : Cellar) : (d.setCel c).boot = d.boot := rfl
@[simp] theorem Dev.setCel_holdReq (d : Dev) (c : Cellar) : (d.setCel c).holdReq = d.holdReq := rfl
@[simp] theorem Dev.setCel_dramSz (d : Dev) (c : Cellar) : (d.setCel c).dramSz = d.dramSz := rfl
@[simp] theorem Dev.setCel_fldLink (d : Dev) (c : Cellar) : (d.setCel c).fldLink = d.fldLink := rfl
@[simp] theorem Dev.setCel_tdlLink (d : Dev) (c : Cellar) : (d.setCel c).tdlLink = d.tdlLink := rfl
@[simp] theorem Dev.setCel_hrnLink (d : Dev) (c : Cellar) : (d.setCel c).hrnLink = d.hrnLink := rfl
@[simp] theorem Dev.setCel_freeCtr (d : Dev) (c : Cellar) : (d.setCel c).freeCtr = d.freeCtr := rfl
@[simp] theorem Dev.setCel_tick (d : Dev) (c : Cellar) : (d.setCel c).tick = d.tick := rfl
@[simp] theorem Dev.setCel_fu (d : Dev) (c : Cellar) : (d.setCel c).fu = d.fu := rfl
@[simp] theorem Dev.setCel_ev (d : Dev) (c : Cellar) : (d.setCel c).ev = d.ev := rfl
@[simp] theorem Dev.setCel_pw (d : Dev) (c : Cellar) : (d.setCel c).pw = d.pw := rfl
@[simp] theorem Dev.setCel_reins (d : Dev) (c : Cellar) : (d.setCel c).reins = d.reins := rfl
@[simp] theorem Dev.setCel_pa (d : Dev) (c : Cellar) : (d.setCel c).pa = d.pa := rfl
@[simp] theorem Dev.setCel_pb (d : Dev) (c : Cellar) : (d.setCel c).pb = d.pb := rfl
@[simp] theorem Dev.setCel_cores (d : Dev) (c : Cellar) : (d.setCel c).cores = d.cores := rfl
@[simp] theorem Dev.setCel_loader (d : Dev) (c : Cellar) : (d.setCel c).loader = d.loader := rfl
@[simp] theorem Dev.setCel_carts (d : Dev) (c : Cellar) : (d.setCel c).carts = d.carts := rfl
@[simp] theorem Dev.setCel_fb (d : Dev) (c : Cellar) : (d.setCel c).fb = d.fb := rfl
@[simp] theorem Dev.setCel_latches (d : Dev) (c : Cellar) : (d.setCel c).latches = d.latches := rfl
@[simp] theorem Dev.setCel_axes (d : Dev) (c : Cellar) : (d.setCel c).axes = d.axes := rfl
@[simp] theorem Dev.setCel_groups (d : Dev) (c : Cellar) : (d.setCel c).groups = d.groups := rfl
@[simp] theorem Dev.setCel_lanes (d : Dev) (c : Cellar) : (d.setCel c).lanes = d.lanes := rfl
@[simp] theorem Dev.setCel_prt (d : Dev) (c : Cellar) : (d.setCel c).prt = d.prt := rfl
@[simp] theorem Dev.setCel_vis (d : Dev) (c : Cellar) : (d.setCel c).vis = d.vis := rfl
@[simp] theorem Dev.setCel_trees (d : Dev) (c : Cellar) : (d.setCel c).trees = d.trees := rfl
@[simp] theorem Dev.setCel_field (d : Dev) (c : Cellar) : (d.setCel c).field = d.field := rfl
@[simp] theorem Dev.setCel_tdl (d : Dev) (c : Cellar) : (d.setCel c).tdl = d.tdl := rfl
@[simp] theorem Dev.setCel_hrn (d : Dev) (c : Cellar) : (d.setCel c).hrn = d.hrn := rfl
@[simp] theorem Dev.setCel_regs (d : Dev) (c : Cellar) : (d.setCel c).regs = d.regs := rfl
@[simp] theorem Dev.setCel_outs (d : Dev) (c : Cellar) : (d.setCel c).outs = d.outs := rfl
@[simp] theorem Dev.setCel_mon (d : Dev) (c : Cellar) : (d.setCel c).mon = d.mon := rfl
@[simp] theorem Dev.setCel_idn (d : Dev) (c : Cellar) : (d.setCel c).idn = d.idn := rfl
@[simp] theorem Dev.setCel_trim (d : Dev) (c : Cellar) : (d.setCel c).trim = d.trim := rfl
@[simp] theorem Dev.setCel_sram (d : Dev) (c : Cellar) : (d.setCel c).sram = d.sram := rfl
@[simp] theorem Dev.setCel_dram (d : Dev) (c : Cellar) : (d.setCel c).dram = d.dram := rfl
@[simp] theorem Dev.setCel_areas (d : Dev) (c : Cellar) : (d.setCel c).areas = d.areas := rfl

@[simp] theorem Dev.reach_born (d : Dev) (t : Nat) : (d.reach t).born = d.born := rfl
@[simp] theorem Dev.reach_mode (d : Dev) (t : Nat) : (d.reach t).mode = d.mode := rfl
@[simp] theorem Dev.reach_origin (d : Dev) (t : Nat) : (d.reach t).origin = d.origin := rfl
@[simp] theorem Dev.reach_halted (d : Dev) (t : Nat) : (d.reach t).halted = d.halted := rfl
@[simp] theorem Dev.reach_ready (d : Dev) (t : Nat) : (d.reach t).ready = d.ready := rfl
@[simp] theorem Dev.reach_boot (d : Dev) (t : Nat) : (d.reach t).boot = d.boot := rfl
@[simp] theorem Dev.reach_holdReq (d : Dev) (t : Nat) : (d.reach t).holdReq = d.holdReq := rfl
@[simp] theorem Dev.reach_dramSz (d : Dev) (t : Nat) : (d.reach t).dramSz = d.dramSz := rfl
@[simp] theorem Dev.reach_fldLink (d : Dev) (t : Nat) : (d.reach t).fldLink = d.fldLink := rfl
@[simp] theorem Dev.reach_tdlLink (d : Dev) (t : Nat) : (d.reach t).tdlLink = d.tdlLink := rfl
@[simp] theorem Dev.reach_hrnLink (d : Dev) (t : Nat) : (d.reach t).hrnLink = d.hrnLink := rfl
@[simp] theorem Dev.reach_freeCtr (d : Dev) (t : Nat) : (d.reach t).freeCtr = d.freeCtr := rfl
@[simp] theorem Dev.reach_tick (d : Dev) (t : Nat) : (d.reach t).tick = d.tick := rfl
@[simp] theorem Dev.reach_fu (d : Dev) (t : Nat) : (d.reach t).fu = d.fu := rfl
@[simp] theorem Dev.reach_ev (d : Dev) (t : Nat) : (d.reach t).ev = d.ev := rfl
@[simp] theorem Dev.reach_pw (d : Dev) (t : Nat) : (d.reach t).pw = d.pw := rfl
@[simp] theorem Dev.reach_reins (d : Dev) (t : Nat) : (d.reach t).reins = d.reins := rfl
@[simp] theorem Dev.reach_pa (d : Dev) (t : Nat) : (d.reach t).pa = d.pa := rfl
@[simp] theorem Dev.reach_pb (d : Dev) (t : Nat) : (d.reach t).pb = d.pb := rfl
@[simp] theorem Dev.reach_cores (d : Dev) (t : Nat) : (d.reach t).cores = d.cores := rfl
@[simp] theorem Dev.reach_loader (d : Dev) (t : Nat) : (d.reach t).loader = d.loader := rfl
@[simp] theorem Dev.reach_carts (d : Dev) (t : Nat) : (d.reach t).carts = d.carts := rfl
@[simp] theorem Dev.reach_fb (d : Dev) (t : Nat) : (d.reach t).fb = d.fb := rfl
@[simp] theorem Dev.reach_latches (d : Dev) (t : Nat) : (d.reach t).latches = d.latches := rfl
@[simp] theorem Dev.reach_axes (d : Dev) (t : Nat) : (d.reach t).axes = d.axes := rfl
@[simp] theorem Dev.reach_groups (d : Dev) (t : Nat) : (d.reach t).groups = d.groups := rfl
@[simp] theorem Dev.reach_lanes (d : Dev) (t : Nat) : (d.reach t).lanes = d.lanes := rfl
@[simp] theorem Dev.reach_prt (d : Dev) (t : Nat) : (d.reach t).prt = d.prt := rfl
@[simp] theorem Dev.reach_vis (d : Dev) (t : Nat) : (d.reach t).vis = d.vis := rfl
@[simp] theorem Dev.reach_trees (d : Dev) (t : Nat) : (d.reach t).trees = d.trees := rfl
@[simp] theorem Dev.reach_field (d : Dev) (t : Nat) : (d.reach t).field = d.field := rfl
@[simp] theorem Dev.reach_tdl (d : Dev) (t : Nat) : (d.reach t).tdl = d.tdl := rfl
@[simp] theorem Dev.reach_hrn (d : Dev) (t : Nat) : (d.reach t).hrn = d.hrn := rfl
@[simp] theorem Dev.reach_cel (d : Dev) (t : Nat) : (d.reach t).cel = d.cel := rfl
@[simp] theorem Dev.reach_regs (d : Dev) (t : Nat) : (d.reach t).regs = d.regs := rfl
@[simp] theorem Dev.reach_outs (d : Dev) (t : Nat) : (d.reach t).outs = d.outs := rfl
@[simp] theorem Dev.reach_mon (d : Dev) (t : Nat) : (d.reach t).mon = d.mon := rfl
@[simp] theorem Dev.reach_idn (d : Dev) (t : Nat) : (d.reach t).idn = d.idn := rfl
@[simp] theorem Dev.reach_trim (d : Dev) (t : Nat) : (d.reach t).trim = d.trim := rfl
@[simp] theorem Dev.reach_sram (d : Dev) (t : Nat) : (d.reach t).sram = d.sram := rfl
@[simp] theorem Dev.reach_dram (d : Dev) (t : Nat) : (d.reach t).dram = d.dram := rfl
@[simp] theorem Dev.reach_areas (d : Dev) (t : Nat) : (d.reach t).areas = d.areas := rfl

@[simp] theorem Dev.tickFree_now (d : Dev) : (d.tickFree).now = d.now := rfl
@[simp] theorem Dev.tickFree_born (d : Dev) : (d.tickFree).born = d.born := rfl
@[simp] theorem Dev.tickFree_mode (d : Dev) : (d.tickFree).mode = d.mode := rfl
@[simp] theorem Dev.tickFree_origin (d : Dev) : (d.tickFree).origin = d.origin := rfl
@[simp] theorem Dev.tickFree_halted (d : Dev) : (d.tickFree).halted = d.halted := rfl
@[simp] theorem Dev.tickFree_ready (d : Dev) : (d.tickFree).ready = d.ready := rfl
@[simp] theorem Dev.tickFree_boot (d : Dev) : (d.tickFree).boot = d.boot := rfl
@[simp] theorem Dev.tickFree_holdReq (d : Dev) : (d.tickFree).holdReq = d.holdReq := rfl
@[simp] theorem Dev.tickFree_dramSz (d : Dev) : (d.tickFree).dramSz = d.dramSz := rfl
@[simp] theorem Dev.tickFree_fldLink (d : Dev) : (d.tickFree).fldLink = d.fldLink := rfl
@[simp] theorem Dev.tickFree_tdlLink (d : Dev) : (d.tickFree).tdlLink = d.tdlLink := rfl
@[simp] theorem Dev.tickFree_hrnLink (d : Dev) : (d.tickFree).hrnLink = d.hrnLink := rfl
@[simp] theorem Dev.tickFree_tick (d : Dev) : (d.tickFree).tick = d.tick := rfl
@[simp] theorem Dev.tickFree_fu (d : Dev) : (d.tickFree).fu = d.fu := rfl
@[simp] theorem Dev.tickFree_ev (d : Dev) : (d.tickFree).ev = d.ev := rfl
@[simp] theorem Dev.tickFree_pw (d : Dev) : (d.tickFree).pw = d.pw := rfl
@[simp] theorem Dev.tickFree_reins (d : Dev) : (d.tickFree).reins = d.reins := rfl
@[simp] theorem Dev.tickFree_pa (d : Dev) : (d.tickFree).pa = d.pa := rfl
@[simp] theorem Dev.tickFree_pb (d : Dev) : (d.tickFree).pb = d.pb := rfl
@[simp] theorem Dev.tickFree_cores (d : Dev) : (d.tickFree).cores = d.cores := rfl
@[simp] theorem Dev.tickFree_loader (d : Dev) : (d.tickFree).loader = d.loader := rfl
@[simp] theorem Dev.tickFree_carts (d : Dev) : (d.tickFree).carts = d.carts := rfl
@[simp] theorem Dev.tickFree_fb (d : Dev) : (d.tickFree).fb = d.fb := rfl
@[simp] theorem Dev.tickFree_latches (d : Dev) : (d.tickFree).latches = d.latches := rfl
@[simp] theorem Dev.tickFree_axes (d : Dev) : (d.tickFree).axes = d.axes := rfl
@[simp] theorem Dev.tickFree_groups (d : Dev) : (d.tickFree).groups = d.groups := rfl
@[simp] theorem Dev.tickFree_lanes (d : Dev) : (d.tickFree).lanes = d.lanes := rfl
@[simp] theorem Dev.tickFree_prt (d : Dev) : (d.tickFree).prt = d.prt := rfl
@[simp] theorem Dev.tickFree_vis (d : Dev) : (d.tickFree).vis = d.vis := rfl
@[simp] theorem Dev.tickFree_trees (d : Dev) : (d.tickFree).trees = d.trees := rfl
@[simp] theorem Dev.tickFree_field (d : Dev) : (d.tickFree).field = d.field := rfl
@[simp] theorem Dev.tickFree_tdl (d : Dev) : (d.tickFree).tdl = d.tdl := rfl
@[simp] theorem Dev.tickFree_hrn (d : Dev) : (d.tickFree).hrn = d.hrn := rfl
@[simp] theorem Dev.tickFree_cel (d : Dev) : (d.tickFree).cel = d.cel := rfl
@[simp] theorem Dev.tickFree_regs (d : Dev) : (d.tickFree).regs = d.regs := rfl
@[simp] theorem Dev.tickFree_outs (d : Dev) : (d.tickFree).outs = d.outs := rfl
@[simp] theorem Dev.tickFree_mon (d : Dev) : (d.tickFree).mon = d.mon := rfl
@[simp] theorem Dev.tickFree_idn (d : Dev) : (d.tickFree).idn = d.idn := rfl
@[simp] theorem Dev.tickFree_trim (d : Dev) : (d.tickFree).trim = d.trim := rfl
@[simp] theorem Dev.tickFree_sram (d : Dev) : (d.tickFree).sram = d.sram := rfl
@[simp] theorem Dev.tickFree_dram (d : Dev) : (d.tickFree).dram = d.dram := rfl
@[simp] theorem Dev.tickFree_areas (d : Dev) : (d.tickFree).areas = d.areas := rfl

@[simp] theorem Dev.setPort_now (d : Dev) (p : HostPort) (x : Port) : (d.setPort p x).now = d.now := by cases p <;> rfl
@[simp] theorem Dev.setPort_born (d : Dev) (p : HostPort) (x : Port) : (d.setPort p x).born = d.born := by cases p <;> rfl
@[simp] theorem Dev.setPort_mode (d : Dev) (p : HostPort) (x : Port) : (d.setPort p x).mode = d.mode := by cases p <;> rfl
@[simp] theorem Dev.setPort_origin (d : Dev) (p : HostPort) (x : Port) : (d.setPort p x).origin = d.origin := by cases p <;> rfl
@[simp] theorem Dev.setPort_halted (d : Dev) (p : HostPort) (x : Port) : (d.setPort p x).halted = d.halted := by cases p <;> rfl
@[simp] theorem Dev.setPort_ready (d : Dev) (p : HostPort) (x : Port) : (d.setPort p x).ready = d.ready := by cases p <;> rfl
@[simp] theorem Dev.setPort_boot (d : Dev) (p : HostPort) (x : Port) : (d.setPort p x).boot = d.boot := by cases p <;> rfl
@[simp] theorem Dev.setPort_holdReq (d : Dev) (p : HostPort) (x : Port) : (d.setPort p x).holdReq = d.holdReq := by cases p <;> rfl
@[simp] theorem Dev.setPort_dramSz (d : Dev) (p : HostPort) (x : Port) : (d.setPort p x).dramSz = d.dramSz := by cases p <;> rfl
@[simp] theorem Dev.setPort_fldLink (d : Dev) (p : HostPort) (x : Port) : (d.setPort p x).fldLink = d.fldLink := by cases p <;> rfl
@[simp] theorem Dev.setPort_tdlLink (d : Dev) (p : HostPort) (x : Port) : (d.setPort p x).tdlLink = d.tdlLink := by cases p <;> rfl
@[simp] theorem Dev.setPort_hrnLink (d : Dev) (p : HostPort) (x : Port) : (d.setPort p x).hrnLink = d.hrnLink := by cases p <;> rfl
@[simp] theorem Dev.setPort_freeCtr (d : Dev) (p : HostPort) (x : Port) : (d.setPort p x).freeCtr = d.freeCtr := by cases p <;> rfl
@[simp] theorem Dev.setPort_tick (d : Dev) (p : HostPort) (x : Port) : (d.setPort p x).tick = d.tick := by cases p <;> rfl
@[simp] theorem Dev.setPort_fu (d : Dev) (p : HostPort) (x : Port) : (d.setPort p x).fu = d.fu := by cases p <;> rfl
@[simp] theorem Dev.setPort_ev (d : Dev) (p : HostPort) (x : Port) : (d.setPort p x).ev = d.ev := by cases p <;> rfl
@[simp] theorem Dev.setPort_pw (d : Dev) (p : HostPort) (x : Port) : (d.setPort p x).pw = d.pw := by cases p <;> rfl
@[simp] theorem Dev.setPort_reins (d : Dev) (p : HostPort) (x : Port) : (d.setPort p x).reins = d.reins := by cases p <;> rfl
@[simp] theorem Dev.setPort_cores (d : Dev) (p : HostPort) (x : Port) : (d.setPort p x).cores = d.cores := by cases p <;> rfl
@[simp] theorem Dev.setPort_loader (d : Dev) (p : HostPort) (x : Port) : (d.setPort p x).loader = d.loader := by cases p <;> rfl
@[simp] theorem Dev.setPort_carts (d : Dev) (p : HostPort) (x : Port) : (d.setPort p x).carts = d.carts := by cases p <;> rfl
@[simp] theorem Dev.setPort_fb (d : Dev) (p : HostPort) (x : Port) : (d.setPort p x).fb = d.fb := by cases p <;> rfl
@[simp] theorem Dev.setPort_latches (d : Dev) (p : HostPort) (x : Port) : (d.setPort p x).latches = d.latches := by cases p <;> rfl
@[simp] theorem Dev.setPort_axes (d : Dev) (p : HostPort) (x : Port) : (d.setPort p x).axes = d.axes := by cases p <;> rfl
@[simp] theorem Dev.setPort_groups (d : Dev) (p : HostPort) (x : Port) : (d.setPort p x).groups = d.groups := by cases p <;> rfl
@[simp] theorem Dev.setPort_lanes (d : Dev) (p : HostPort) (x : Port) : (d.setPort p x).lanes = d.lanes := by cases p <;> rfl
@[simp] theorem Dev.setPort_prt (d : Dev) (p : HostPort) (x : Port) : (d.setPort p x).prt = d.prt := by cases p <;> rfl
@[simp] theorem Dev.setPort_vis (d : Dev) (p : HostPort) (x : Port) : (d.setPort p x).vis = d.vis := by cases p <;> rfl
@[simp] theorem Dev.setPort_trees (d : Dev) (p : HostPort) (x : Port) : (d.setPort p x).trees = d.trees := by cases p <;> rfl
@[simp] theorem Dev.setPort_field (d : Dev) (p : HostPort) (x : Port) : (d.setPort p x).field = d.field := by cases p <;> rfl
@[simp] theorem Dev.setPort_tdl (d : Dev) (p : HostPort) (x : Port) : (d.setPort p x).tdl = d.tdl := by cases p <;> rfl
@[simp] theorem Dev.setPort_hrn (d : Dev) (p : HostPort) (x : Port) : (d.setPort p x).hrn = d.hrn := by cases p <;> rfl
@[simp] theorem Dev.setPort_cel (d : Dev) (p : HostPort) (x : Port) : (d.setPort p x).cel = d.cel := by cases p <;> rfl
@[simp] theorem Dev.setPort_regs (d : Dev) (p : HostPort) (x : Port) : (d.setPort p x).regs = d.regs := by cases p <;> rfl
@[simp] theorem Dev.setPort_outs (d : Dev) (p : HostPort) (x : Port) : (d.setPort p x).outs = d.outs := by cases p <;> rfl
@[simp] theorem Dev.setPort_mon (d : Dev) (p : HostPort) (x : Port) : (d.setPort p x).mon = d.mon := by cases p <;> rfl
@[simp] theorem Dev.setPort_idn (d : Dev) (p : HostPort) (x : Port) : (d.setPort p x).idn = d.idn := by cases p <;> rfl
@[simp] theorem Dev.setPort_trim (d : Dev) (p : HostPort) (x : Port) : (d.setPort p x).trim = d.trim := by cases p <;> rfl
@[simp] theorem Dev.setPort_sram (d : Dev) (p : HostPort) (x : Port) : (d.setPort p x).sram = d.sram := by cases p <;> rfl
@[simp] theorem Dev.setPort_dram (d : Dev) (p : HostPort) (x : Port) : (d.setPort p x).dram = d.dram := by cases p <;> rfl
@[simp] theorem Dev.setPort_areas (d : Dev) (p : HostPort) (x : Port) : (d.setPort p x).areas = d.areas := by cases p <;> rfl

/-! What an update writes -/

@[simp] theorem Dev.reg_setReg (d : Dev) (a b : Nat) (v : Word) : (d.setReg a v).reg b = if b = a then v else d.reg b :=
  smGet_smSet regReset d.regs a b v

@[simp] theorem Dev.out_setOut (d : Dev) (a b : Nat) (v : Word) : (d.setOut a v).out b = if b = a then v else d.out b :=
  smGet_smSet word0 d.outs a b v

theorem Dev.flag_setFlag (d : Dev) (a i : Nat) (b : Bool) : (Dev.setFlag a i b d).reg a = setBit (d.reg a) i b := by
  simp [Dev.setFlag]

theorem Dev.reg_setFlag_other (d : Dev) (a c i : Nat) (b : Bool) (h : c ≠ a) : (Dev.setFlag a i b d).reg c = d.reg c := by
  simp [Dev.setFlag, h]

theorem Dev.reg_setFld (d : Dev) (a hi lo v : Nat) : (Dev.setFld a hi lo v d).reg a = setBits (d.reg a) hi lo v := by
  simp [Dev.setFld]

theorem Dev.reg_setFld_other (d : Dev) (a c hi lo v : Nat) (h : c ≠ a) : (Dev.setFld a hi lo v d).reg c = d.reg c := by
  simp [Dev.setFld, h]

theorem Dev.reg_count1 (d : Dev) (a : Nat) : (Dev.count1 a d).reg a = d.reg a + 1 := by
  simp [Dev.count1]

theorem Dev.reg_count1_other (d : Dev) (a c : Nat) (h : c ≠ a) : (Dev.count1 a d).reg c = d.reg c := by
  simp [Dev.count1, h]

/-- A register read sees only the register file. -/
theorem Dev.reg_congr {d e : Dev} (h : e.regs = d.regs) (a : Nat) : e.reg a = d.reg a := by
  simp [Dev.reg, h]

@[simp] theorem Dev.core_setCore (d : Dev) (k : Fin 6) (c : Core) : (d.setCore k c).core k = c := by
  simp [Dev.core, Dev.setCore]

theorem Dev.core_setCore_other (d : Dev) (j k : Fin 6) (c : Core) (h : j ≠ k) : (d.setCore k c).core j = d.core j := by
  have : k.val ≠ j.val := fun e => h (Fin.ext e.symm)
  simp [Dev.core, Dev.setCore, this]

@[simp] theorem Dev.ch_setCh (d : Dev) (k : Fin 16) (x : FbCh) : (d.setCh k x).ch k = x := by
  simp [Dev.ch, Dev.setCh]

theorem Dev.ch_setCh_other (d : Dev) (j k : Fin 16) (x : FbCh) (h : j ≠ k) : (d.setCh k x).ch j = d.ch j := by
  have : k.val ≠ j.val := fun e => h (Fin.ext e.symm)
  simp [Dev.ch, Dev.setCh, this]

@[simp] theorem Dev.latch_setLatch (d : Dev) (k : Fin 8) (x : Latch) : (d.setLatch k x).latch k = x := by
  simp [Dev.latch, Dev.setLatch]

@[simp] theorem Dev.axis_setAxis (d : Dev) (k : Fin 16) (x : Axis) : (d.setAxis k x).axis k = x := by
  simp [Dev.axis, Dev.setAxis]

theorem Dev.axis_setAxis_other (d : Dev) (j k : Fin 16) (x : Axis) (h : j ≠ k) : (d.setAxis k x).axis j = d.axis j := by
  have : k.val ≠ j.val := fun e => h (Fin.ext e.symm)
  simp [Dev.axis, Dev.setAxis, this]

@[simp] theorem Dev.lane_setLane (d : Dev) (k : Fin 16) (x : Lane) : (d.setLane k x).lane k = x := by
  simp [Dev.lane, Dev.setLane]

theorem Dev.lane_setLane_other (d : Dev) (j k : Fin 16) (x : Lane) (h : j ≠ k) : (d.setLane k x).lane j = d.lane j := by
  have : k.val ≠ j.val := fun e => h (Fin.ext e.symm)
  simp [Dev.lane, Dev.setLane, this]

@[simp] theorem Dev.bus_setBus (d : Dev) (k : Fin 4) (x : IdBus) : (d.setBus k x).bus k = x := by
  simp [Dev.bus, Dev.setBus]

theorem Dev.bus_setBus_other (d : Dev) (j k : Fin 4) (x : IdBus) (h : j ≠ k) : (d.setBus k x).bus j = d.bus j := by
  have : k.val ≠ j.val := fun e => h (Fin.ext e.symm)
  simp [Dev.bus, Dev.setBus, this]

@[simp] theorem Dev.port_setPort (d : Dev) (p : HostPort) (x : Port) : (d.setPort p x).port p = x := by cases p <;> rfl

@[simp] theorem Dev.port_setPort_other (d : Dev) (p : HostPort) (x : Port) : (d.setPort p x).port p.other = d.port p.other := by
  cases p <;> rfl

@[simp] theorem Dev.now_reach (d : Dev) (t : Nat) : (d.reach t).now = max d.now t := rfl

end Sys2Proof.Machine
end

