-- ==== Sys2Proof/Laws/Frames.lean ====
section
/-! SUPPORT. What each shared operation can do, said once: the only fields of the device it touches, and what the gates of the
commands let through. -/
namespace Sys2Proof.Machine

open Sys2Proof (HostPort Lim)

/-! ## Events -/

/-- A device that differs in its register file, its event fabric and the monitor alone. -/
def EventsOnly (d e : Dev) : Prop := ∃ r v m, e = { d with regs := r, ev := v, mon := m }

theorem EventsOnly.refl (d : Dev) : EventsOnly d d := ⟨d.regs, d.ev, d.mon, rfl⟩

theorem EventsOnly.trans {d e f : Dev} (h : EventsOnly d e) (k : EventsOnly e f) : EventsOnly d f := by
  obtain ⟨r, v, m, rfl⟩ := h
  obtain ⟨r', v', m', rfl⟩ := k
  exact ⟨r', v', m', rfl⟩

theorem EventsOnly.setReg {d e : Dev} (h : EventsOnly d e) (a : Nat) (v : Word) : EventsOnly d (e.setReg a v) :=
  h.trans ⟨_, e.ev, e.mon, rfl⟩

theorem EventsOnly.setFlag {d e : Dev} (h : EventsOnly d e) (a i : Nat) (b : Bool) : EventsOnly d (Dev.setFlag a i b e) :=
  h.setReg _ _

theorem EventsOnly.evMon {d e : Dev} (h : EventsOnly d e) (v : Events) (m : Mon) : EventsOnly d { e with ev := v, mon := m } :=
  h.trans ⟨e.regs, v, m, rfl⟩

/-- A trigger unit writes registers, the landing's trigger bits and the monitor's hits. -/
theorem trigOne_frame (e k : Nat) (d : Dev) : EventsOnly d (trigOne e k d) := by
  unfold trigOne
  dsimp only
  split
  · exact ((((((EventsOnly.refl d).setReg _ _).setReg _ _).setReg _ _).setFlag _ _ _).setFlag _ _ _).evMon _ _
  · exact EventsOnly.refl d

theorem vecSet_frame (p : HostPort) (v : Nat) (d : Dev) : EventsOnly d (vecSet p v d) := (EventsOnly.refl d).setFlag _ _ _

theorem vecBoth_frame (v : Nat) (d : Dev) : EventsOnly d (vecBoth v d) := (vecSet_frame .a v d).trans (vecSet_frame .b v _)

theorem routeTo_frame (p : HostPort) (v : Nat) (d : Dev) : EventsOnly d (routeTo p v d) := by
  unfold routeTo
  split
  · exact EventsOnly.refl d
  · split
    · exact (EventsOnly.refl d).setFlag _ _ _
    · exact vecSet_frame p v d

theorem forTrig_frame (e : Nat) (l : List Nat) (d : Dev) :
    EventsOnly d (l.foldl (fun d k => trigOne e k d) d) := by
  induction l generalizing d with
  | nil => exact EventsOnly.refl d
  | cons k t ih => exact (trigOne_frame e k d).trans (ih (trigOne e k d))

theorem raiseNow_frame (e : Nat) (d : Dev) : EventsOnly d (raiseNow e d) := by
  unfold raiseNow
  split
  · exact EventsOnly.refl d
  · dsimp only
    have h1 : ∀ (w : Word) (x : Dev), EventsOnly d x →
        EventsOnly d (forAll 4 (trigOne e) (routeTo .b (bits w 12 8) (routeTo .a (bits w 4 0) x))) := fun w x h =>
      ((h.trans (routeTo_frame .a _ x)).trans (routeTo_frame .b _ _)).trans (forTrig_frame e (List.range 4) _)
    split
    · exact h1 _ _ (((EventsOnly.refl d).setFlag _ _ _).evMon _ _)
    · exact h1 _ _ ((EventsOnly.refl d).setFlag _ _ _)

/-- Raising an event touches registers, the event fabric and the monitor's hits alone. -/
theorem raise_frame (e : Nat) (d : Dev) : EventsOnly d (raise e d) := by
  unfold raise
  split
  · exact (EventsOnly.refl d).evMon _ d.mon
  · exact raiseNow_frame e d

theorem raiseIf_frame (b : Bool) (e : Nat) (d : Dev) : EventsOnly d (raiseIf b e d) := by
  unfold raiseIf
  split
  · exact raise_frame e d
  · exact EventsOnly.refl d

/-- A sticky bit of HSTx_STAT with its event. -/
theorem statBit_frame (p : HostPort) (i ev : Nat) (d : Dev) : EventsOnly d (statBit p i ev d) :=
  ((EventsOnly.refl d).setFlag _ _ _).trans (raise_frame _ _)

theorem laneNote_frame (n : Fin 16) (i : Nat) (d : Dev) : EventsOnly d (laneNote n i d) := by
  unfold laneNote
  split
  · exact EventsOnly.refl d
  · exact ((EventsOnly.refl d).setFlag _ _ _).trans (raise_frame _ _)

/-! ## The fault stack -/

/-- A POP changes the stack, or sets POPMISS. -/
theorem popFault_frame (id : Nat) (d : Dev) :
    (∃ l, popFault id d = { d with fu := { d.fu with stack := l } }) ∨ popFault id d = Dev.setFlag FLT_STAT 8 true d := by
  unfold popFault
  dsimp only
  split
  · exact .inr rfl
  · split
    · exact .inl ⟨_, rfl⟩
    · split
      · exact .inr rfl
      · split
        · exact .inl ⟨_, rfl⟩
        · exact .inr rfl

/-- The stack never holds more than two records. -/
theorem stackPush_length (n : FRec) (l : List FRec) : (stackPush n l).1.length ≤ 2 := by
  unfold stackPush
  split
  · simp
  · split <;> simp
  · dsimp only
    repeat' split
    all_goals simp

/-- A fault abandons the tick in the tick unit's own state alone. -/
theorem abandonBy_frame (g : Bool) (d : Dev) : ∃ t, abandonBy g d = { d with tick := t } := by
  unfold abandonBy
  split
  · exact ⟨d.tick, rfl⟩
  · exact ⟨_, rfl⟩

/-- A fault in the stack: its place and its log record; else registers and events alone. -/
theorem enterStack_frame (r : FRec) (a : Bool) (d : Dev) : ∃ f, EventsOnly { d with fu := f } (enterStack r a d) := by
  unfold enterStack
  dsimp only
  generalize stackPush r d.fu.stack = p
  obtain ⟨st, drop⟩ := p
  cases drop with
  | none => exact ⟨_, raise_frame _ _⟩
  | some q => exact ⟨_, (((raise_frame _ _).setReg _ _).setFlag _ _ _).trans (raise_frame _ _)⟩

/-! ## Staging -/

theorem stage_frame (k : Fin 6) (x : Write) (d : Dev) : ∃ t, stage k x d = { d with tick := t } := ⟨_, rfl⟩

/-- A staged host write is in the tick unit's lists alone. -/
theorem stageHost_frame (w : Writer) (x : Write) (d : Dev) : ∃ t, stageHost w x d = { d with tick := t } := by
  unfold stageHost
  split <;> exact ⟨_, rfl⟩

theorem commandSlip_frame (d : Dev) : ∃ t, commandSlip d = { d with tick := t } := by
  unfold commandSlip
  split <;> exact ⟨_, rfl⟩

/-! ## The gates of the commands -/

/-- An instruction that its core does not issue does nothing. -/
theorem limGate_idle (o : Lim) (legal : Bool) (off on_ : Dev → Dev) (d : Dev) (h : issuing d o.core = false) :
    limGate o legal off on_ d = d := by
  simp [limGate, h]

/-- An issued, listed instruction whose predicate holds performs its operation after its fetch. -/
theorem limGate_on (o : Lim) (legal : Bool) (off on_ : Dev → Dev) (d : Dev) (hi : issuing d o.core = true)
    (hf : o.fetch ≠ .uncorrectable) (hl : legal = true) (hp : okPred o = true)
    (hq : predOn o ((if o.fetch = .corrected then limCec o.core 0 d else d).core o.core) = true) :
    limGate o legal off on_ d = on_ (if o.fetch = .corrected then limCec o.core 0 d else d) := by
  simp only [limGate, hi, hf, hl, hp, hq, Bool.not_true, Bool.and_true, Bool.false_eq_true, if_false, if_true]

/-- An issued, listed instruction that is predicated off. -/
theorem limGate_off (o : Lim) (legal : Bool) (off on_ : Dev → Dev) (d : Dev) (hi : issuing d o.core = true)
    (hf : o.fetch ≠ .uncorrectable) (hl : legal = true) (hp : okPred o = true)
    (hq : predOn o ((if o.fetch = .corrected then limCec o.core 0 d else d).core o.core) = false) :
    limGate o legal off on_ d = off (if o.fetch = .corrected then limCec o.core 0 d else d) := by
  simp only [limGate, hi, hf, hl, hp, hq, Bool.not_true, Bool.and_true, Bool.false_eq_true, if_false]

/-- An issued instruction of an encoding that is not listed is an illegal encoding. -/
theorem limGate_illegal (o : Lim) (legal : Bool) (off on_ : Dev → Dev) (d : Dev) (hi : issuing d o.core = true)
    (hf : o.fetch ≠ .uncorrectable) (hl : (legal && okPred o) = false) :
    limGate o legal off on_ d = limExc o.core 5 (if o.fetch = .corrected then limCec o.core 0 d else d) := by
  simp only [limGate, hi, hf, hl, Bool.not_true, Bool.not_false, Bool.false_eq_true, if_false, if_true]

/-- Whose fetch cannot be corrected is an IECC exception, whatever its encoding. -/
theorem limGate_iecc (o : Lim) (legal : Bool) (off on_ : Dev → Dev) (d : Dev) (hi : issuing d o.core = true)
    (hf : o.fetch = .uncorrectable) : limGate o legal off on_ d = limExc o.core 1 d := by
  simp only [limGate, hi, hf, Bool.not_true, Bool.false_eq_true, if_false, if_true]

/-- Where no write is held and the area has room, an arriving write completes at once. -/
theorem hostArrive_now (p : HostPort) (vf : Sys2Proof.VerifyEnv) (demand : Bool) (x : PortWrite) (d : Dev)
    (hh : (d.port p).held = []) (hr : stagedBy p d < 256) : hostArrive p vf demand x d = portWrite p vf demand x d := by
  have hm : ∀ a n, mustHold p a n d = false := by
    intro a n
    simp only [mustHold, Bool.and_eq_false_iff, decide_eq_false_iff_not, Nat.not_le]
    exact .inr hr
  have hw : x.waits p d = false := by
    unfold PortWrite.waits
    split
    · exact hm _ _
    · rfl
  simp [hostArrive, hh, hw]

/-- A write that finds a port which serves, of a device that is not stopped, nothing held and room completes at once. -/
theorem hostRow_serves (p : HostPort) (vf : Sys2Proof.VerifyEnv) (x : PortWrite) (s : State) (hr : s.dev.ready = true)
    (hd : (s.dev.port p).pcie = true → (s.dev.port p).d3hot = false) (hw : s.dev.pw.stopped = false)
    (hh : (s.dev.port p).held = []) (hs : stagedBy p s.dev < 256) :
    hostRow p vf x s = { s with dev := portWrite p vf (hrnDemand s.snap) x s.dev } := by
  have hp : portServes p s.dev = true := by
    cases hq : (s.dev.port p).pcie
    · simp [portServes, hr, hq]
    · simp [portServes, hr, hq, hd hq]
  simp only [hostRow, hp, hostWakes, hw, Bool.not_true, Bool.false_eq_true, if_false]
  rw [hostArrive_now p vf _ _ _ hh hs]

/-- A direct write of a register by a port that serves, of a device that is not stopped. -/
theorem regRow_serves (p : HostPort) (a : Nat) (v : Word) (s : State) (hr : s.dev.ready = true)
    (hd : (s.dev.port p).pcie = true → (s.dev.port p).d3hot = false) (hw : s.dev.pw.stopped = false)
    (hh : (s.dev.port p).held = []) (hs : stagedBy p s.dev < 256) :
    regRow p a v s = s.putDev (hostWrite p verifyGood (hrnDemand s.snap) (barAddr a 4) 4 v.toNat s.dev).2 := by
  unfold regRow hostBarWrite
  rw [hostRow_serves p _ _ s hr hd hw hh hs]
  have : (BitVec.ofNat 64 v.toNat).toNat = v.toNat := by
    rw [BitVec.toNat_ofNat, Nat.mod_eq_of_lt (Nat.lt_of_lt_of_le v.isLt (by decide))]
  simp only [portWrite, this]

/-- Where READY does not fall, the latches stand. -/
theorem State.putDev_keep (s : State) (d : Dev) (h : s.dev.ready = true → d.ready = true) : s.putDev d = { s with dev := d } := by
  unfold State.putDev
  cases hs : s.dev.ready
  · simp
  · simp [h hs]

end Sys2Proof.Machine
end

