-- ==== Sys2Proof/Laws/Keeps.lean ====
section
/-! SUPPORT. What every operation of the device keeps: a sound device stays sound, and time does not run backwards. -/
namespace Sys2Proof.Machine

/-- From device d an operation goes to device e: soundness is kept and time does not go back. -/
structure Keeps (d e : Dev) : Prop where
  sound : d.Sound → e.Sound
  time  : d.now ≤ e.now

theorem Keeps.refl (d : Dev) : Keeps d d := ⟨id, Nat.le_refl _⟩

theorem Keeps.trans {d e f : Dev} (h : Keeps d e) (k : Keeps e f) : Keeps d f :=
  ⟨fun x => k.sound (h.sound x), Nat.le_trans h.time k.time⟩

/-- Two devices that agree on what soundness reads. -/
theorem Keeps.ofEq {d e : Dev} (hr : d.regs = e.regs) (ho : d.outs = e.outs) (hs : d.sram = e.sram) (hd : d.dram = e.dram)
    (hf : d.areas = e.areas) (ha : d.cel.array = e.cel.array) (hu : d.cel.durable = e.cel.durable) (hp : d.cel.spill = e.cel.spill)
    (hk : d.fu.stack = e.fu.stack) (hn : d.now ≤ e.now) : Keeps d e :=
  ⟨fun x => ⟨hr ▸ x.regs, ho ▸ x.outs, hs ▸ x.sram, (by have := x.dram; unfold dramWf at this ⊢; rwa [hd, hf] at this), ha ▸ x.array, hu ▸ x.durable, hp ▸ x.spill, hk ▸ x.stack⟩,
    hn⟩

/-! One field of the device replaced: none but the seven that soundness reads matters. -/

theorem upd_born (d : Dev) (x : Nat) {e : Dev} (h : Keeps e d) : Keeps e { d with born := x } :=
  h.trans (Keeps.ofEq rfl rfl rfl rfl rfl rfl rfl rfl rfl (Nat.le_refl _))
theorem upd_mode (d : Dev) (x : Mode) {e : Dev} (h : Keeps e d) : Keeps e { d with mode := x } :=
  h.trans (Keeps.ofEq rfl rfl rfl rfl rfl rfl rfl rfl rfl (Nat.le_refl _))
theorem upd_origin (d : Dev) (x : Mode) {e : Dev} (h : Keeps e d) : Keeps e { d with origin := x } :=
  h.trans (Keeps.ofEq rfl rfl rfl rfl rfl rfl rfl rfl rfl (Nat.le_refl _))
theorem upd_halted (d : Dev) (x : Bool) {e : Dev} (h : Keeps e d) : Keeps e { d with halted := x } :=
  h.trans (Keeps.ofEq rfl rfl rfl rfl rfl rfl rfl rfl rfl (Nat.le_refl _))
theorem upd_ready (d : Dev) (x : Bool) {e : Dev} (h : Keeps e d) : Keeps e { d with ready := x } :=
  h.trans (Keeps.ofEq rfl rfl rfl rfl rfl rfl rfl rfl rfl (Nat.le_refl _))
theorem upd_boot (d : Dev) (x : BitVec 2) {e : Dev} (h : Keeps e d) : Keeps e { d with boot := x } :=
  h.trans (Keeps.ofEq rfl rfl rfl rfl rfl rfl rfl rfl rfl (Nat.le_refl _))
theorem upd_holdReq (d : Dev) (x : Bool) {e : Dev} (h : Keeps e d) : Keeps e { d with holdReq := x } :=
  h.trans (Keeps.ofEq rfl rfl rfl rfl rfl rfl rfl rfl rfl (Nat.le_refl _))
theorem upd_dramSz (d : Dev) (x : Nat) {e : Dev} (h : Keeps e d) : Keeps e { d with dramSz := x } :=
  h.trans (Keeps.ofEq rfl rfl rfl rfl rfl rfl rfl rfl rfl (Nat.le_refl _))
theorem upd_fldLink (d : Dev) (x : Bool) {e : Dev} (h : Keeps e d) : Keeps e { d with fldLink := x } :=
  h.trans (Keeps.ofEq rfl rfl rfl rfl rfl rfl rfl rfl rfl (Nat.le_refl _))
theorem upd_tdlLink (d : Dev) (x : Bool) {e : Dev} (h : Keeps e d) : Keeps e { d with tdlLink := x } :=
  h.trans (Keeps.ofEq rfl rfl rfl rfl rfl rfl rfl rfl rfl (Nat.le_refl _))
theorem upd_hrnLink (d : Dev) (x : Bool) {e : Dev} (h : Keeps e d) : Keeps e { d with hrnLink := x } :=
  h.trans (Keeps.ofEq rfl rfl rfl rfl rfl rfl rfl rfl rfl (Nat.le_refl _))
theorem upd_freeCtr (d : Dev) (x : Nat) {e : Dev} (h : Keeps e d) : Keeps e { d with freeCtr := x } :=
  h.trans (Keeps.ofEq rfl rfl rfl rfl rfl rfl rfl rfl rfl (Nat.le_refl _))
theorem upd_tick (d : Dev) (x : Tick) {e : Dev} (h : Keeps e d) : Keeps e { d with tick := x } :=
  h.trans (Keeps.ofEq rfl rfl rfl rfl rfl rfl rfl rfl rfl (Nat.le_refl _))
theorem upd_ev (d : Dev) (x : Events) {e : Dev} (h : Keeps e d) : Keeps e { d with ev := x } :=
  h.trans (Keeps.ofEq rfl rfl rfl rfl rfl rfl rfl rfl rfl (Nat.le_refl _))
theorem upd_pw (d : Dev) (x : Power) {e : Dev} (h : Keeps e d) : Keeps e { d with pw := x } :=
  h.trans (Keeps.ofEq rfl rfl rfl rfl rfl rfl rfl rfl rfl (Nat.le_refl _))
theorem upd_reins (d : Dev) (x : Reins) {e : Dev} (h : Keeps e d) : Keeps e { d with reins := x } :=
  h.trans (Keeps.ofEq rfl rfl rfl rfl rfl rfl rfl rfl rfl (Nat.le_refl _))
theorem upd_pa (d : Dev) (x : Port) {e : Dev} (h : Keeps e d) : Keeps e { d with pa := x } :=
  h.trans (Keeps.ofEq rfl rfl rfl rfl rfl rfl rfl rfl rfl (Nat.le_refl _))
theorem upd_pb (d : Dev) (x : Port) {e : Dev} (h : Keeps e d) : Keeps e { d with pb := x } :=
  h.trans (Keeps.ofEq rfl rfl rfl rfl rfl rfl rfl rfl rfl (Nat.le_refl _))
theorem upd_cores (d : Dev) (x : Vector Core 6) {e : Dev} (h : Keeps e d) : Keeps e { d with cores := x } :=
  h.trans (Keeps.ofEq rfl rfl rfl rfl rfl rfl rfl rfl rfl (Nat.le_refl _))
theorem upd_loader (d : Dev) (x : Loader) {e : Dev} (h : Keeps e d) : Keeps e { d with loader := x } :=
  h.trans (Keeps.ofEq rfl rfl rfl rfl rfl rfl rfl rfl rfl (Nat.le_refl _))
theorem upd_carts (d : Dev) (x : List Cart) {e : Dev} (h : Keeps e d) : Keeps e { d with carts := x } :=
  h.trans (Keeps.ofEq rfl rfl rfl rfl rfl rfl rfl rfl rfl (Nat.le_refl _))
theorem upd_fb (d : Dev) (x : Vector FbCh 16) {e : Dev} (h : Keeps e d) : Keeps e { d with fb := x } :=
  h.trans (Keeps.ofEq rfl rfl rfl rfl rfl rfl rfl rfl rfl (Nat.le_refl _))
theorem upd_latches (d : Dev) (x : Vector Latch 8) {e : Dev} (h : Keeps e d) : Keeps e { d with latches := x } :=
  h.trans (Keeps.ofEq rfl rfl rfl rfl rfl rfl rfl rfl rfl (Nat.le_refl _))
theorem upd_axes (d : Dev) (x : Vector Axis 16) {e : Dev} (h : Keeps e d) : Keeps e { d with axes := x } :=
  h.trans (Keeps.ofEq rfl rfl rfl rfl rfl rfl rfl rfl rfl (Nat.le_refl _))
theorem upd_groups (d : Dev) (x : Vector Group 4) {e : Dev} (h : Keeps e d) : Keeps e { d with groups := x } :=
  h.trans (Keeps.ofEq rfl rfl rfl rfl rfl rfl rfl rfl rfl (Nat.le_refl _))
theorem upd_lanes (d : Dev) (x : Vector Lane 16) {e : Dev} (h : Keeps e d) : Keeps e { d with lanes := x } :=
  h.trans (Keeps.ofEq rfl rfl rfl rfl rfl rfl rfl rfl rfl (Nat.le_refl _))
theorem upd_prt (d : Dev) (x : Vector Prt 2) {e : Dev} (h : Keeps e d) : Keeps e { d with prt := x } :=
  h.trans (Keeps.ofEq rfl rfl rfl rfl rfl rfl rfl rfl rfl (Nat.le_refl _))
theorem upd_vis (d : Dev) (x : Vis) {e : Dev} (h : Keeps e d) : Keeps e { d with vis := x } :=
  h.trans (Keeps.ofEq rfl rfl rfl rfl rfl rfl rfl rfl rfl (Nat.le_refl _))
theorem upd_trees (d : Dev) (x : Trees) {e : Dev} (h : Keeps e d) : Keeps e { d with trees := x } :=
  h.trans (Keeps.ofEq rfl rfl rfl rfl rfl rfl rfl rfl rfl (Nat.le_refl _))
theorem upd_field (d : Dev) (x : Field) {e : Dev} (h : Keeps e d) : Keeps e { d with field := x } :=
  h.trans (Keeps.ofEq rfl rfl rfl rfl rfl rfl rfl rfl rfl (Nat.le_refl _))
theorem upd_tdl (d : Dev) (x : Tendril) {e : Dev} (h : Keeps e d) : Keeps e { d with tdl := x } :=
  h.trans (Keeps.ofEq rfl rfl rfl rfl rfl rfl rfl rfl rfl (Nat.le_refl _))
theorem upd_hrn (d : Dev) (x : Harness) {e : Dev} (h : Keeps e d) : Keeps e { d with hrn := x } :=
  h.trans (Keeps.ofEq rfl rfl rfl rfl rfl rfl rfl rfl rfl (Nat.le_refl _))
theorem upd_mon (d : Dev) (x : Mon) {e : Dev} (h : Keeps e d) : Keeps e { d with mon := x } :=
  h.trans (Keeps.ofEq rfl rfl rfl rfl rfl rfl rfl rfl rfl (Nat.le_refl _))
theorem upd_idn (d : Dev) (x : Vector IdBus 4) {e : Dev} (h : Keeps e d) : Keeps e { d with idn := x } :=
  h.trans (Keeps.ofEq rfl rfl rfl rfl rfl rfl rfl rfl rfl (Nat.le_refl _))
theorem upd_trim (d : Dev) (x : Trim) {e : Dev} (h : Keeps e d) : Keeps e { d with trim := x } :=
  h.trans (Keeps.ofEq rfl rfl rfl rfl rfl rfl rfl rfl rfl (Nat.le_refl _))
theorem upd_fu (d : Dev) (x : FaultUnit) (h : stackInOrder d.fu.stack = true → stackInOrder x.stack = true)
    {e : Dev} (k : Keeps e d) : Keeps e { d with fu := x } := k.trans ⟨fun s => { s with stack := h s.stack }, Nat.le_refl _⟩
theorem upd_cel (d : Dev) (x : Cellar) (ha : d.cel.array.wf = true → x.array.wf = true)
    (hd : d.cel.durable.wf = true → x.durable.wf = true) (hs : d.cel.spill.wf = true → x.spill.wf = true)
    {e : Dev} (k : Keeps e d) : Keeps e { d with cel := x } :=
  k.trans ⟨fun s => { s with array := ha s.array, durable := hd s.durable, spill := hs s.spill }, Nat.le_refl _⟩

theorem upd_array (d : Dev) (m : Memory) (r : List LogRec) (h : d.cel.array.wf = true → m.wf = true) {e : Dev}
    (k : Keeps e d) : Keeps e { d with cel := { d.cel with array := m, recs := r } } :=
  upd_cel d { d.cel with array := m, recs := r } h id id k

/-- The Cellar's three memories are in canonical form. -/
abbrev Cellar.Wf (c : Cellar) : Prop := c.array.wf = true ∧ c.durable.wf = true ∧ c.spill.wf = true

theorem cel_keeps (d : Dev) (c : Cellar) (h : d.cel.Wf → c.Wf) {e : Dev} (k : Keeps e d) : Keeps e { d with cel := c } :=
  k.trans ⟨fun s =>
    have w := h ⟨s.array, s.durable, s.spill⟩
    { s with array := w.1, durable := w.2.1, spill := w.2.2 }, Nat.le_refl _⟩

/-- A device built from another with what soundness reads unchanged. -/
theorem frame_keeps {e x : Dev} (h : Keeps e x)
    {now : Nat} {born : Nat} {mode : Mode} {origin : Mode} {halted : Bool} {ready : Bool}
    {boot : BitVec 2} {holdReq : Bool} {dramSz : Nat} {fldLink : Bool} {tdlLink : Bool} {hrnLink : Bool}
    {freeCtr : Nat} {tick : Tick} {fu : FaultUnit} {ev : Events} {pw : Power} {reins : Reins}
    {pa : Port} {pb : Port} {cores : Vector Core 6} {loader : Loader} {carts : List Cart} {fb : Vector FbCh 16}
    {latches : Vector Latch 8} {axes : Vector Axis 16} {groups : Vector Group 4} {lanes : Vector Lane 16} {prt : Vector Prt 2} {vis : Vis}
    {trees : Trees} {field : Field} {tdl : Tendril} {hrn : Harness} {cel : Cellar} {regs : SMap Word}
    {outs : SMap Word} {mon : Mon} {idn : Vector IdBus 4} {trim : Trim} {sram : Memory} {dram : Memory}
    {areas : List FreeArea}
    (hr : x.regs = regs) (ho : x.outs = outs) (hs : x.sram = sram) (hd : x.dram = dram)
    (hf : x.areas = areas) (ha : x.cel.array = cel.array)
    (hu : x.cel.durable = cel.durable) (hp : x.cel.spill = cel.spill) (hk : x.fu.stack = fu.stack) (hn : x.now ≤ now) :
    Keeps e (Dev.mk now born mode origin halted ready boot holdReq dramSz fldLink tdlLink hrnLink freeCtr tick fu ev pw reins pa pb cores loader carts fb latches axes groups lanes prt vis trees field tdl hrn cel regs outs mon idn trim sram dram areas) :=
  h.trans (Keeps.ofEq hr ho hs hd hf ha hu hp hk hn)

/-- The second part of an answer that an equation names. -/
theorem Keeps.ofSnd {α : Type} {d e : Dev} {p : α × Dev} {a : α} (h : p = (a, e)) (k : Keeps d p.2) : Keeps d e := by
  subst h; exact k

theorem Keeps.ofSnd3 {α β : Type} {d e : Dev} {p : α × β × Dev} {a : α} {b : β} (h : p = (a, b, e)) (k : Keeps d p.2.2) :
    Keeps d e := by
  subst h; exact k

/-- Folding an operation over a list. -/
theorem Keeps.foldl {α : Type} {f : Dev → α → Dev} (hf : ∀ d x, Keeps d (f d x)) (l : List α) {e d : Dev} (h : Keeps e d) :
    Keeps e (l.foldl f d) := by
  induction l generalizing d with
  | nil => exact h
  | cons x t ih => exact ih (h.trans (hf d x))

/-- Folding an operation that also carries a value. -/
theorem Keeps.foldlSnd {α β : Type} {f : α × Dev → β → α × Dev}
    (hf : ∀ s x e, Keeps e s.2 → Keeps e (f s x).2) (l : List β) (s : α × Dev) {e : Dev} (h : Keeps e s.2) :
    Keeps e (l.foldl f s).2 := by
  induction l generalizing s with
  | nil => exact h
  | cons x t ih => exact ih _ (hf s x e h)

theorem Keeps.forAll {f : Nat → Dev → Dev} (hf : ∀ i d, Keeps d (f i d)) (n : Nat) {e d : Dev} (h : Keeps e d) :
    Keeps e (forAll n f d) :=
  Keeps.foldl (fun d i => hf i d) _ h

theorem Dev.setReg_keeps (d : Dev) (a : Nat) (v : Word) {e : Dev} (h : Keeps e d) : Keeps e (d.setReg a v) :=
  h.trans ⟨fun x => { x with regs := smWf_smSet a v x.regs }, Nat.le_refl _⟩

theorem Dev.setOut_keeps (d : Dev) (p : Nat) (v : Word) {e : Dev} (h : Keeps e d) : Keeps e (d.setOut p v) :=
  h.trans ⟨fun x => { x with outs := smWf_smSet p v x.outs }, Nat.le_refl _⟩

/-- A new tick SRAM in canonical form. -/
theorem Keeps.sram {d : Dev} {m : Memory} (h : d.sram.wf = true → m.wf = true) {e : Dev} (k : Keeps e d) :
    Keeps e { d with sram := m } :=
  k.trans ⟨fun x => { x with sram := h x.sram }, Nat.le_refl _⟩

theorem Keeps.dram {d : Dev} {m : Memory} (h : dramWf d = true → smWf (dramDefault d.areas) m = true) {e : Dev} (k : Keeps e d) :
    Keeps e { d with dram := m } :=
  k.trans ⟨fun x => { x with dram := h x.dram }, Nat.le_refl _⟩

/-- A later instant. -/
theorem Keeps.now {d : Dev} {t : Nat} (h : d.now ≤ t) {e : Dev} (k : Keeps e d) : Keeps e { d with now := t } :=
  k.trans ⟨fun x => ⟨x.regs, x.outs, x.sram, x.dram, x.array, x.durable, x.spill, x.stack⟩, h⟩

end Sys2Proof.Machine
end

