-- ==== Sys2Proof/Laws/KeepsOps.lean ====
section
/-! SUPPORT. What the operations of Machine/Ops.lean, Machine/LimathOps.lean, Machine/LimathSys.lean keep (Laws/Keeps.lean). -/
set_option linter.unusedTactic false
set_option linter.unreachableTactic false
namespace Sys2Proof.Machine

theorem Dev.setFld_keeps (a hi lo v : Nat) (d : Dev) {e0 : Dev} (h_ : Keeps e0 d) :
    Keeps e0 (Dev.setFld a hi lo v d) := by
  refine h_.trans ?_
  unfold Dev.setFld
  repeat' (first
    | with_reducible exact Keeps.refl _
    | with_reducible assumption
    | with_reducible apply Dev.setReg_keeps
    | with_reducible apply Dev.setOut_keeps
    | extract_lets
    | (intro _; try beta_reduce)
    | split
    | with_reducible refine frame_keeps ?_ rfl rfl rfl rfl rfl rfl rfl rfl rfl (Nat.le_refl _))

theorem Dev.setFlag_keeps (a i : Nat) (b : Bool) (d : Dev) {e0 : Dev} (h_ : Keeps e0 d) :
    Keeps e0 (Dev.setFlag a i b d) := by
  refine h_.trans ?_
  unfold Dev.setFlag
  repeat' (first
    | with_reducible exact Keeps.refl _
    | with_reducible assumption
    | with_reducible apply Dev.setReg_keeps
    | with_reducible apply Dev.setOut_keeps
    | extract_lets
    | (intro _; try beta_reduce)
    | split
    | with_reducible refine frame_keeps ?_ rfl rfl rfl rfl rfl rfl rfl rfl rfl (Nat.le_refl _))

theorem Dev.count1_keeps (a : Nat) (d : Dev) {e0 : Dev} (h_ : Keeps e0 d) :
    Keeps e0 (Dev.count1 a d) := by
  refine h_.trans ?_
  unfold Dev.count1
  repeat' (first
    | with_reducible exact Keeps.refl _
    | with_reducible assumption
    | with_reducible apply Dev.setReg_keeps
    | with_reducible apply Dev.setOut_keeps
    | extract_lets
    | (intro _; try beta_reduce)
    | split
    | with_reducible refine frame_keeps ?_ rfl rfl rfl rfl rfl rfl rfl rfl rfl (Nat.le_refl _))

theorem Dev.tickFree_keeps (d : Dev) {e0 : Dev} (h_ : Keeps e0 d) :
    Keeps e0 (Dev.tickFree d) := by
  refine h_.trans ?_
  unfold Dev.tickFree
  repeat' (first
    | with_reducible exact Keeps.refl _
    | with_reducible assumption
    | with_reducible apply Dev.setReg_keeps
    | with_reducible apply Dev.setOut_keeps
    | extract_lets
    | (intro _; try beta_reduce)
    | split
    | with_reducible apply upd_freeCtr
    | with_reducible refine frame_keeps ?_ rfl rfl rfl rfl rfl rfl rfl rfl rfl (Nat.le_refl _))

theorem Dev.setPort_keeps (d : Dev) (p : HostPort) (x : Port) {e0 : Dev} (h_ : Keeps e0 d) :
    Keeps e0 (Dev.setPort d p x) := by
  refine h_.trans ?_
  unfold Dev.setPort
  repeat' (first
    | with_reducible exact Keeps.refl _
    | with_reducible assumption
    | with_reducible apply Dev.setReg_keeps
    | with_reducible apply Dev.setOut_keeps
    | extract_lets
    | (intro _; try beta_reduce)
    | split
    | with_reducible apply upd_pa
    | with_reducible apply upd_pb
    | with_reducible refine frame_keeps ?_ rfl rfl rfl rfl rfl rfl rfl rfl rfl (Nat.le_refl _))

theorem Dev.setCore_keeps (d : Dev) (k : Fin 6) (c : Core) {e0 : Dev} (h_ : Keeps e0 d) :
    Keeps e0 (Dev.setCore d k c) := by
  refine h_.trans ?_
  unfold Dev.setCore
  repeat' (first
    | with_reducible exact Keeps.refl _
    | with_reducible assumption
    | with_reducible apply Dev.setReg_keeps
    | with_reducible apply Dev.setOut_keeps
    | extract_lets
    | (intro _; try beta_reduce)
    | split
    | with_reducible apply upd_cores
    | with_reducible refine frame_keeps ?_ rfl rfl rfl rfl rfl rfl rfl rfl rfl (Nat.le_refl _))

theorem Dev.setCh_keeps (d : Dev) (c : Fin 16) (x : FbCh) {e0 : Dev} (h_ : Keeps e0 d) :
    Keeps e0 (Dev.setCh d c x) := by
  refine h_.trans ?_
  unfold Dev.setCh
  repeat' (first
    | with_reducible exact Keeps.refl _
    | with_reducible assumption
    | with_reducible apply Dev.setReg_keeps
    | with_reducible apply Dev.setOut_keeps
    | extract_lets
    | (intro _; try beta_reduce)
    | split
    | with_reducible apply upd_fb
    | with_reducible refine frame_keeps ?_ rfl rfl rfl rfl rfl rfl rfl rfl rfl (Nat.le_refl _))

theorem Dev.setLatch_keeps (d : Dev) (j : Fin 8) (x : Latch) {e0 : Dev} (h_ : Keeps e0 d) :
    Keeps e0 (Dev.setLatch d j x) := by
  refine h_.trans ?_
  unfold Dev.setLatch
  repeat' (first
    | with_reducible exact Keeps.refl _
    | with_reducible assumption
    | with_reducible apply Dev.setReg_keeps
    | with_reducible apply Dev.setOut_keeps
    | extract_lets
    | (intro _; try beta_reduce)
    | split
    | with_reducible apply upd_latches
    | with_reducible refine frame_keeps ?_ rfl rfl rfl rfl rfl rfl rfl rfl rfl (Nat.le_refl _))

theorem Dev.reach_keeps (d : Dev) (t : Nat) {e0 : Dev} (h_ : Keeps e0 d) : Keeps e0 (d.reach t) :=
  Keeps.now (Nat.le_max_left ..) h_

theorem Dev.reachTick_keeps (d : Dev) (ofs : Nat) {e0 : Dev} (h_ : Keeps e0 d) : Keeps e0 (d.reachTick ofs) :=
  Dev.reach_keeps _ _ h_

theorem Dev.reachTs_keeps (d : Dev) (ts : DWord) {e0 : Dev} (h_ : Keeps e0 d) :
    Keeps e0 (Dev.reachTs d ts) := by
  refine h_.trans ?_
  unfold Dev.reachTs
  repeat' (first
    | with_reducible exact Keeps.refl _
    | with_reducible assumption
    | with_reducible apply Dev.setReg_keeps
    | with_reducible apply Dev.setOut_keeps
    | with_reducible apply Dev.reach_keeps
    | extract_lets
    | (intro _; try beta_reduce)
    | split
    | with_reducible refine frame_keeps ?_ rfl rfl rfl rfl rfl rfl rfl rfl rfl (Nat.le_refl _))

theorem vecSet_keeps (p : HostPort) (v : Nat) (d : Dev) {e0 : Dev} (h_ : Keeps e0 d) :
    Keeps e0 (vecSet p v d) := by
  refine h_.trans ?_
  unfold vecSet
  repeat' (first
    | with_reducible exact Keeps.refl _
    | with_reducible assumption
    | with_reducible apply Dev.setReg_keeps
    | with_reducible apply Dev.setOut_keeps
    | with_reducible apply Dev.setFlag_keeps
    | extract_lets
    | (intro _; try beta_reduce)
    | split
    | with_reducible refine frame_keeps ?_ rfl rfl rfl rfl rfl rfl rfl rfl rfl (Nat.le_refl _))

theorem vecBoth_keeps (v : Nat) (d : Dev) {e0 : Dev} (h_ : Keeps e0 d) :
    Keeps e0 (vecBoth v d) := by
  refine h_.trans ?_
  unfold vecBoth
  repeat' (first
    | with_reducible exact Keeps.refl _
    | with_reducible assumption
    | with_reducible apply Dev.setReg_keeps
    | with_reducible apply Dev.setOut_keeps
    | with_reducible apply vecSet_keeps
    | extract_lets
    | (intro _; try beta_reduce)
    | split
    | with_reducible refine frame_keeps ?_ rfl rfl rfl rfl rfl rfl rfl rfl rfl (Nat.le_refl _))

theorem routeTo_keeps (p : HostPort) (v : Nat) (d : Dev) {e0 : Dev} (h_ : Keeps e0 d) :
    Keeps e0 (routeTo p v d) := by
  refine h_.trans ?_
  unfold routeTo
  repeat' (first
    | with_reducible exact Keeps.refl _
    | with_reducible assumption
    | with_reducible apply Dev.setReg_keeps
    | with_reducible apply Dev.setOut_keeps
    | with_reducible apply Dev.setFlag_keeps
    | with_reducible apply vecSet_keeps
    | extract_lets
    | (intro _; try beta_reduce)
    | split
    | with_reducible refine frame_keeps ?_ rfl rfl rfl rfl rfl rfl rfl rfl rfl (Nat.le_refl _))

theorem trigOne_keeps (e k : Nat) (d : Dev) {e0 : Dev} (h_ : Keeps e0 d) :
    Keeps e0 (trigOne e k d) := by
  refine h_.trans ?_
  unfold trigOne
  repeat' (first
    | with_reducible exact Keeps.refl _
    | with_reducible assumption
    | with_reducible apply Dev.setReg_keeps
    | with_reducible apply Dev.setOut_keeps
    | with_reducible apply Dev.setFlag_keeps
    | extract_lets
    | (intro _; try beta_reduce)
    | split
    | with_reducible apply upd_ev
    | with_reducible apply upd_mon
    | with_reducible refine frame_keeps ?_ rfl rfl rfl rfl rfl rfl rfl rfl rfl (Nat.le_refl _))

theorem raiseNow_keeps (e : Nat) (d : Dev) {e0 : Dev} (h_ : Keeps e0 d) :
    Keeps e0 (raiseNow e d) := by
  refine h_.trans ?_
  unfold raiseNow
  repeat' (first
    | with_reducible exact Keeps.refl _
    | with_reducible assumption
    | with_reducible apply Dev.setReg_keeps
    | with_reducible apply Dev.setOut_keeps
    | with_reducible apply Dev.setFlag_keeps
    | with_reducible apply routeTo_keeps
    | with_reducible apply trigOne_keeps
    | with_reducible apply Keeps.forAll
    | extract_lets
    | (intro _; try beta_reduce)
    | split
    | with_reducible apply upd_ev
    | with_reducible refine frame_keeps ?_ rfl rfl rfl rfl rfl rfl rfl rfl rfl (Nat.le_refl _))

theorem raise_keeps (e : Nat) (d : Dev) {e0 : Dev} (h_ : Keeps e0 d) :
    Keeps e0 (raise e d) := by
  refine h_.trans ?_
  unfold raise
  repeat' (first
    | with_reducible exact Keeps.refl _
    | with_reducible assumption
    | with_reducible apply Dev.setReg_keeps
    | with_reducible apply Dev.setOut_keeps
    | with_reducible apply raiseNow_keeps
    | extract_lets
    | (intro _; try beta_reduce)
    | split
    | with_reducible apply upd_ev
    | with_reducible refine frame_keeps ?_ rfl rfl rfl rfl rfl rfl rfl rfl rfl (Nat.le_refl _))

theorem raiseIf_keeps (b : Bool) (e : Nat) (d : Dev) {e0 : Dev} (h_ : Keeps e0 d) :
    Keeps e0 (raiseIf b e d) := by
  refine h_.trans ?_
  unfold raiseIf
  repeat' (first
    | with_reducible exact Keeps.refl _
    | with_reducible assumption
    | with_reducible apply Dev.setReg_keeps
    | with_reducible apply Dev.setOut_keeps
    | with_reducible apply raise_keeps
    | extract_lets
    | (intro _; try beta_reduce)
    | split
    | with_reducible refine frame_keeps ?_ rfl rfl rfl rfl rfl rfl rfl rfl rfl (Nat.le_refl _))

theorem statBit_keeps (p : HostPort) (i ev : Nat) (d : Dev) {e0 : Dev} (h_ : Keeps e0 d) :
    Keeps e0 (statBit p i ev d) := by
  refine h_.trans ?_
  unfold statBit
  repeat' (first
    | with_reducible exact Keeps.refl _
    | with_reducible assumption
    | with_reducible apply Dev.setReg_keeps
    | with_reducible apply Dev.setOut_keeps
    | with_reducible apply Dev.setFlag_keeps
    | with_reducible apply raise_keeps
    | extract_lets
    | (intro _; try beta_reduce)
    | split
    | with_reducible refine frame_keeps ?_ rfl rfl rfl rfl rfl rfl rfl rfl rfl (Nat.le_refl _))

theorem setRefuse_keeps (p : HostPort) (d : Dev) {e0 : Dev} (h_ : Keeps e0 d) :
    Keeps e0 (setRefuse p d) := by
  refine h_.trans ?_
  unfold setRefuse
  repeat' (first
    | with_reducible exact Keeps.refl _
    | with_reducible assumption
    | with_reducible apply Dev.setReg_keeps
    | with_reducible apply Dev.setOut_keeps
    | with_reducible apply statBit_keeps
    | extract_lets
    | (intro _; try beta_reduce)
    | split
    | with_reducible refine frame_keeps ?_ rfl rfl rfl rfl rfl rfl rfl rfl rfl (Nat.le_refl _))

theorem setAccErr_keeps (p : HostPort) (d : Dev) {e0 : Dev} (h_ : Keeps e0 d) :
    Keeps e0 (setAccErr p d) := by
  refine h_.trans ?_
  unfold setAccErr
  repeat' (first
    | with_reducible exact Keeps.refl _
    | with_reducible assumption
    | with_reducible apply Dev.setReg_keeps
    | with_reducible apply Dev.setOut_keeps
    | with_reducible apply statBit_keeps
    | extract_lets
    | (intro _; try beta_reduce)
    | split
    | with_reducible refine frame_keeps ?_ rfl rfl rfl rfl rfl rfl rfl rfl rfl (Nat.le_refl _))

theorem setDenied_keeps (p : HostPort) (d : Dev) {e0 : Dev} (h_ : Keeps e0 d) :
    Keeps e0 (setDenied p d) := by
  refine h_.trans ?_
  unfold setDenied
  repeat' (first
    | with_reducible exact Keeps.refl _
    | with_reducible assumption
    | with_reducible apply Dev.setReg_keeps
    | with_reducible apply Dev.setOut_keeps
    | with_reducible apply statBit_keeps
    | extract_lets
    | (intro _; try beta_reduce)
    | split
    | with_reducible refine frame_keeps ?_ rfl rfl rfl rfl rfl rfl rfl rfl rfl (Nat.le_refl _))

theorem setLost_keeps (p : HostPort) (d : Dev) {e0 : Dev} (h_ : Keeps e0 d) :
    Keeps e0 (setLost p d) := by
  refine h_.trans ?_
  unfold setLost
  repeat' (first
    | with_reducible exact Keeps.refl _
    | with_reducible assumption
    | with_reducible apply Dev.setReg_keeps
    | with_reducible apply Dev.setOut_keeps
    | with_reducible apply statBit_keeps
    | extract_lets
    | (intro _; try beta_reduce)
    | split
    | with_reducible refine frame_keeps ?_ rfl rfl rfl rfl rfl rfl rfl rfl rfl (Nat.le_refl _))

theorem setDisc_keeps (p : HostPort) (d : Dev) {e0 : Dev} (h_ : Keeps e0 d) :
    Keeps e0 (setDisc p d) := by
  refine h_.trans ?_
  unfold setDisc
  repeat' (first
    | with_reducible exact Keeps.refl _
    | with_reducible assumption
    | with_reducible apply Dev.setReg_keeps
    | with_reducible apply Dev.setOut_keeps
    | with_reducible apply statBit_keeps
    | extract_lets
    | (intro _; try beta_reduce)
    | split
    | with_reducible refine frame_keeps ?_ rfl rfl rfl rfl rfl rfl rfl rfl rfl (Nat.le_refl _))

theorem setBadDb_keeps (p : HostPort) (d : Dev) {e0 : Dev} (h_ : Keeps e0 d) :
    Keeps e0 (setBadDb p d) := by
  refine h_.trans ?_
  unfold setBadDb
  repeat' (first
    | with_reducible exact Keeps.refl _
    | with_reducible assumption
    | with_reducible apply Dev.setReg_keeps
    | with_reducible apply Dev.setOut_keeps
    | with_reducible apply statBit_keeps
    | extract_lets
    | (intro _; try beta_reduce)
    | split
    | with_reducible refine frame_keeps ?_ rfl rfl rfl rfl rfl rfl rfl rfl rfl (Nat.le_refl _))

theorem setSpiTo_keeps (p : HostPort) (d : Dev) {e0 : Dev} (h_ : Keeps e0 d) :
    Keeps e0 (setSpiTo p d) := by
  refine h_.trans ?_
  unfold setSpiTo
  repeat' (first
    | with_reducible exact Keeps.refl _
    | with_reducible assumption
    | with_reducible apply Dev.setReg_keeps
    | with_reducible apply Dev.setOut_keeps
    | with_reducible apply statBit_keeps
    | extract_lets
    | (intro _; try beta_reduce)
    | split
    | with_reducible refine frame_keeps ?_ rfl rfl rfl rfl rfl rfl rfl rfl rfl (Nat.le_refl _))

theorem logAssign_keeps (d : Dev) {e0 : Dev} (h_ : Keeps e0 d) :
    Keeps e0 (logAssign d).2 := by
  refine h_.trans ?_
  unfold logAssign
  repeat' (first
    | with_reducible exact Keeps.refl _
    | with_reducible assumption
    | with_reducible apply Dev.setReg_keeps
    | with_reducible apply Dev.setOut_keeps
    | with_reducible apply Dev.count1_keeps
    | extract_lets
    | (intro _; try beta_reduce)
    | split
    | with_reducible refine frame_keeps ?_ rfl rfl rfl rfl rfl rfl rfl rfl rfl (Nat.le_refl _))

theorem logFault_keeps (l : FLog) (d : Dev) {e0 : Dev} (h_ : Keeps e0 d) : Keeps e0 (logFault l d) := by
  refine h_.trans ?_
  unfold logFault
  have k := logAssign_keeps d (Keeps.refl d)
  split
  · rename_i heq
    exact Keeps.ofSnd heq k
  · rename_i heq
    extract_lets bs
    exact upd_array _ _ _ (Memory.wf_setBytes _ _) (Keeps.ofSnd heq k)

theorem logEdge_keeps (d : Dev) {e0 : Dev} (h_ : Keeps e0 d) :
    Keeps e0 (logEdge d) := by
  refine h_.trans ?_
  unfold logEdge
  repeat' (first
    | with_reducible exact Keeps.refl _
    | with_reducible assumption
    | with_reducible apply Dev.setReg_keeps
    | with_reducible apply Dev.setOut_keeps
    | with_reducible apply logFault_keeps
    | with_reducible apply Keeps.foldl
    | extract_lets
    | (intro _; try beta_reduce)
    | split
    | with_reducible refine upd_fu _ _ (fun h => h) ?_
    | with_reducible refine frame_keeps ?_ rfl rfl rfl rfl rfl rfl rfl rfl rfl (Nat.le_refl _))

theorem logFlush_keeps (d : Dev) {e0 : Dev} (h_ : Keeps e0 d) :
    Keeps e0 (logFlush d) := by
  refine h_.trans ?_
  unfold logFlush
  repeat' (first
    | with_reducible exact Keeps.refl _
    | with_reducible assumption
    | with_reducible apply Dev.setReg_keeps
    | with_reducible apply Dev.setOut_keeps
    | with_reducible apply logFault_keeps
    | with_reducible apply Keeps.foldl
    | extract_lets
    | (intro _; try beta_reduce)
    | split
    | with_reducible refine upd_fu _ _ (fun h => h) ?_
    | with_reducible refine frame_keeps ?_ rfl rfl rfl rfl rfl rfl rfl rfl rfl (Nat.le_refl _))

theorem watchFaultN_keeps (f : Dev → Dev) (d : Dev) (hf : ∀  e d, Keeps e d → Keeps e (f  d)) {e0 : Dev} (h_ : Keeps e0 d) :
    Keeps e0 (watchFaultN f d) := by
  refine h_.trans ?_
  unfold watchFaultN
  repeat' (first
    | with_reducible exact Keeps.refl _
    | with_reducible assumption
    | with_reducible apply hf
    | with_reducible apply Dev.setReg_keeps
    | with_reducible apply Dev.setOut_keeps
    | with_reducible apply vecBoth_keeps
    | extract_lets
    | (intro _; try beta_reduce)
    | split
    | with_reducible refine frame_keeps ?_ rfl rfl rfl rfl rfl rfl rfl rfl rfl (Nat.le_refl _))

theorem pulseDue_keeps (d : Dev) {e0 : Dev} (h_ : Keeps e0 d) :
    Keeps e0 (pulseDue d) := by
  refine h_.trans ?_
  unfold pulseDue
  repeat' (first
    | with_reducible exact Keeps.refl _
    | with_reducible assumption
    | with_reducible apply Dev.setReg_keeps
    | with_reducible apply Dev.setOut_keeps
    | with_reducible apply Dev.count1_keeps
    | extract_lets
    | (intro _; try beta_reduce)
    | split
    | with_reducible refine upd_fu _ _ (fun h => h) ?_
    | with_reducible refine frame_keeps ?_ rfl rfl rfl rfl rfl rfl rfl rfl rfl (Nat.le_refl _))

theorem abandonBy_keeps (guard : Bool) (d : Dev) {e0 : Dev} (h_ : Keeps e0 d) :
    Keeps e0 (abandonBy guard d) := by
  refine h_.trans ?_
  unfold abandonBy
  repeat' (first
    | with_reducible exact Keeps.refl _
    | with_reducible assumption
    | with_reducible apply Dev.setReg_keeps
    | with_reducible apply Dev.setOut_keeps
    | extract_lets
    | (intro _; try beta_reduce)
    | split
    | with_reducible apply upd_tick
    | with_reducible refine frame_keeps ?_ rfl rfl rfl rfl rfl rfl rfl rfl rfl (Nat.le_refl _))

/-- A push keeps the stack in order (R349). -/
theorem stackPush_order (n : FRec) {l : List FRec} (h : stackInOrder l = true) : stackInOrder (stackPush n l).1 = true := by
  match l with
  | [] => rfl
  | [t] =>
    simp only [stackPush]
    split
    · exact decide_eq_true (show t.cls.num ≤ n.cls.num by omega)
    · simp only [stackInOrder, decide_eq_true_eq]; omega
  | [t, w] =>
    simp only [stackInOrder, decide_eq_true_eq] at h
    simp only [stackPush]
    split
    · simpa [stackInOrder] using h
    · split
      · split
        · exact decide_eq_true (show t.cls.num ≤ n.cls.num by omega)
        · exact decide_eq_true (show n.cls.num ≤ t.cls.num by omega)
      · split <;> simp only [stackInOrder, decide_eq_true_eq] <;> omega
  | _ :: _ :: _ :: _ => simp [stackInOrder] at h

theorem enterStack_keeps (r : FRec) (abandon : Bool) (d : Dev) {e0 : Dev} (h_ : Keeps e0 d) :
    Keeps e0 (enterStack r abandon d) := by
  refine h_.trans ?_
  unfold enterStack
  have k := fun (h : stackInOrder d.fu.stack = true) => stackPush_order r h
  generalize stackPush r d.fu.stack = p at k
  obtain ⟨st, drop⟩ := p
  dsimp only
  have base := fun logs => upd_fu d { d.fu with stack := st, logs := logs } k (Keeps.refl d)
  split
  · exact raise_keeps _ _ (base _)
  · exact raise_keeps _ _ (Dev.setFlag_keeps _ _ _ _ (Dev.count1_keeps _ _ (raise_keeps _ _ (base _))))

theorem trimFail_keeps (code : Nat) (d : Dev) {e0 : Dev} (h_ : Keeps e0 d) :
    Keeps e0 (trimFail code d) := by
  refine h_.trans ?_
  unfold trimFail
  repeat' (first
    | with_reducible exact Keeps.refl _
    | with_reducible assumption
    | with_reducible apply Dev.setReg_keeps
    | with_reducible apply Dev.setOut_keeps
    | with_reducible apply Dev.setFld_keeps
    | with_reducible apply Dev.count1_keeps
    | with_reducible apply raise_keeps
    | extract_lets
    | (intro _; try beta_reduce)
    | split
    | with_reducible apply upd_field
    | with_reducible apply upd_tdl
    | with_reducible apply upd_trim
    | with_reducible refine frame_keeps ?_ rfl rfl rfl rfl rfl rfl rfl rfl rfl (Nat.le_refl _))

theorem trimLinkLost_keeps (step : Nat) (d : Dev) {e0 : Dev} (h_ : Keeps e0 d) :
    Keeps e0 (trimLinkLost step d) := by
  refine h_.trans ?_
  unfold trimLinkLost
  repeat' (first
    | with_reducible exact Keeps.refl _
    | with_reducible assumption
    | with_reducible apply Dev.setReg_keeps
    | with_reducible apply Dev.setOut_keeps
    | with_reducible apply Dev.setFld_keeps
    | extract_lets
    | (intro _; try beta_reduce)
    | split
    | with_reducible refine frame_keeps ?_ rfl rfl rfl rfl rfl rfl rfl rfl rfl (Nat.le_refl _))

theorem haltOutputs_keeps (d : Dev) {e0 : Dev} (h_ : Keeps e0 d) :
    Keeps e0 (haltOutputs d) := by
  refine h_.trans ?_
  unfold haltOutputs
  repeat' (first
    | with_reducible exact Keeps.refl _
    | with_reducible assumption
    | with_reducible apply Dev.setReg_keeps
    | with_reducible apply Dev.setOut_keeps
    | extract_lets
    | (intro _; try beta_reduce)
    | split
    | with_reducible apply upd_lanes
    | with_reducible apply upd_prt
    | with_reducible refine frame_keeps ?_ rfl rfl rfl rfl rfl rfl rfl rfl rfl (Nat.le_refl _))

theorem applyClass_keeps (c : Cls) (d : Dev) {e0 : Dev} (h_ : Keeps e0 d) :
    Keeps e0 (applyClass c d) := by
  refine h_.trans ?_
  unfold applyClass
  repeat' (first
    | with_reducible exact Keeps.refl _
    | with_reducible assumption
    | with_reducible apply Dev.setReg_keeps
    | with_reducible apply Dev.setOut_keeps
    | with_reducible apply Dev.setFlag_keeps
    | with_reducible apply raise_keeps
    | with_reducible apply logFlush_keeps
    | with_reducible apply pulseDue_keeps
    | with_reducible apply trimFail_keeps
    | with_reducible apply haltOutputs_keeps
    | extract_lets
    | (intro _; try beta_reduce)
    | split
    | with_reducible apply upd_halted
    | with_reducible apply upd_holdReq
    | with_reducible apply upd_tick
    | with_reducible refine frame_keeps ?_ rfl rfl rfl rfl rfl rfl rfl rfl rfl (Nat.le_refl _))

theorem faultAt_keeps (ev : Nat) (c : Cls) (detail : Word) (infp abandon guard : Bool) (d : Dev) {e0 : Dev} (h_ : Keeps e0 d) :
    Keeps e0 (faultAt ev c detail infp abandon guard d) := by
  refine h_.trans ?_
  unfold faultAt
  repeat' (first
    | with_reducible exact Keeps.refl _
    | with_reducible assumption
    | with_reducible apply Dev.setReg_keeps
    | with_reducible apply Dev.setOut_keeps
    | with_reducible apply Dev.count1_keeps
    | with_reducible apply raise_keeps
    | with_reducible apply watchFaultN_keeps
    | with_reducible apply abandonBy_keeps
    | with_reducible apply enterStack_keeps
    | with_reducible apply applyClass_keeps
    | extract_lets
    | (intro _; try beta_reduce)
    | split
    | with_reducible apply upd_ev
    | with_reducible refine upd_fu _ _ (fun h => h) ?_
    | with_reducible refine frame_keeps ?_ rfl rfl rfl rfl rfl rfl rfl rfl rfl (Nat.le_refl _))

theorem fault_keeps (ev : Nat) (c : Cls) (detail : Word) (d : Dev) {e0 : Dev} (h_ : Keeps e0 d) :
    Keeps e0 (fault ev c detail d) := by
  refine h_.trans ?_
  unfold fault
  repeat' (first
    | with_reducible exact Keeps.refl _
    | with_reducible assumption
    | with_reducible apply Dev.setReg_keeps
    | with_reducible apply Dev.setOut_keeps
    | with_reducible apply faultAt_keeps
    | extract_lets
    | (intro _; try beta_reduce)
    | split
    | with_reducible refine frame_keeps ?_ rfl rfl rfl rfl rfl rfl rfl rfl rfl (Nat.le_refl _))

theorem sramErr_keeps (err : Option Sys2Proof.SramError) (a n : Nat) (d : Dev) {e0 : Dev} (h_ : Keeps e0 d) :
    Keeps e0 (sramErr err a n d) := by
  refine h_.trans ?_
  unfold sramErr
  repeat' (first
    | with_reducible exact Keeps.refl _
    | with_reducible assumption
    | with_reducible apply Dev.setReg_keeps
    | with_reducible apply Dev.setOut_keeps
    | with_reducible apply Dev.tickFree_keeps
    | with_reducible apply fault_keeps
    | extract_lets
    | (intro _; try beta_reduce)
    | split
    | split
    | with_reducible refine frame_keeps ?_ rfl rfl rfl rfl rfl rfl rfl rfl rfl (Nat.le_refl _))

theorem popFault_keeps (id : Nat) (d : Dev) {e0 : Dev} (h_ : Keeps e0 d) : Keeps e0 (popFault id d) := by
  refine h_.trans ?_
  unfold popFault
  extract_lets hit
  split
  · exact Dev.setFlag_keeps _ _ _ _ (Keeps.refl _)
  · rename_i t rest heq
    split
    · refine upd_fu _ _ (fun h => ?_) (Keeps.refl _)
      rw [heq] at h
      match rest, h with
      | [], _ => rfl
      | [_], _ => rfl
    · split
      · exact Dev.setFlag_keeps _ _ _ _ (Keeps.refl _)
      · split
        · exact upd_fu _ _ (fun _ => rfl) (Keeps.refl _)
        · exact Dev.setFlag_keeps _ _ _ _ (Keeps.refl _)

theorem commandSlip_keeps (d : Dev) {e0 : Dev} (h_ : Keeps e0 d) :
    Keeps e0 (commandSlip d) := by
  refine h_.trans ?_
  unfold commandSlip
  repeat' (first
    | with_reducible exact Keeps.refl _
    | with_reducible assumption
    | with_reducible apply Dev.setReg_keeps
    | with_reducible apply Dev.setOut_keeps
    | extract_lets
    | (intro _; try beta_reduce)
    | split
    | with_reducible apply upd_tick
    | with_reducible refine frame_keeps ?_ rfl rfl rfl rfl rfl rfl rfl rfl rfl (Nat.le_refl _))

theorem Dev.setAxis_keeps (d : Dev) (n : Fin 16) (x : Axis) {e0 : Dev} (h_ : Keeps e0 d) :
    Keeps e0 (Dev.setAxis d n x) := by
  refine h_.trans ?_
  unfold Dev.setAxis
  repeat' (first
    | with_reducible exact Keeps.refl _
    | with_reducible assumption
    | with_reducible apply Dev.setReg_keeps
    | with_reducible apply Dev.setOut_keeps
    | extract_lets
    | (intro _; try beta_reduce)
    | split
    | with_reducible apply upd_axes
    | with_reducible refine frame_keeps ?_ rfl rfl rfl rfl rfl rfl rfl rfl rfl (Nat.le_refl _))

theorem Dev.setGroup_keeps (d : Dev) (g : Fin 4) (x : Group) {e0 : Dev} (h_ : Keeps e0 d) :
    Keeps e0 (Dev.setGroup d g x) := by
  refine h_.trans ?_
  unfold Dev.setGroup
  repeat' (first
    | with_reducible exact Keeps.refl _
    | with_reducible assumption
    | with_reducible apply Dev.setReg_keeps
    | with_reducible apply Dev.setOut_keeps
    | extract_lets
    | (intro _; try beta_reduce)
    | split
    | with_reducible apply upd_groups
    | with_reducible refine frame_keeps ?_ rfl rfl rfl rfl rfl rfl rfl rfl rfl (Nat.le_refl _))

theorem Dev.setLane_keeps (d : Dev) (n : Fin 16) (x : Lane) {e0 : Dev} (h_ : Keeps e0 d) :
    Keeps e0 (Dev.setLane d n x) := by
  refine h_.trans ?_
  unfold Dev.setLane
  repeat' (first
    | with_reducible exact Keeps.refl _
    | with_reducible assumption
    | with_reducible apply Dev.setReg_keeps
    | with_reducible apply Dev.setOut_keeps
    | extract_lets
    | (intro _; try beta_reduce)
    | split
    | with_reducible apply upd_lanes
    | with_reducible refine frame_keeps ?_ rfl rfl rfl rfl rfl rfl rfl rfl rfl (Nat.le_refl _))

theorem laneTrip_keeps (n : Fin 16) (cause : Nat) (d : Dev) {e0 : Dev} (h_ : Keeps e0 d) :
    Keeps e0 (laneTrip n cause d) := by
  refine h_.trans ?_
  unfold laneTrip
  repeat' (first
    | with_reducible exact Keeps.refl _
    | with_reducible assumption
    | with_reducible apply Dev.setReg_keeps
    | with_reducible apply Dev.setOut_keeps
    | with_reducible apply Dev.setFlag_keeps
    | with_reducible apply fault_keeps
    | with_reducible apply Dev.setLane_keeps
    | extract_lets
    | (intro _; try beta_reduce)
    | split
    | with_reducible refine frame_keeps ?_ rfl rfl rfl rfl rfl rfl rfl rfl rfl (Nat.le_refl _))

theorem laneNote_keeps (n : Fin 16) (i : Nat) (d : Dev) {e0 : Dev} (h_ : Keeps e0 d) :
    Keeps e0 (laneNote n i d) := by
  refine h_.trans ?_
  unfold laneNote
  repeat' (first
    | with_reducible exact Keeps.refl _
    | with_reducible assumption
    | with_reducible apply Dev.setReg_keeps
    | with_reducible apply Dev.setOut_keeps
    | with_reducible apply Dev.setFlag_keeps
    | with_reducible apply raise_keeps
    | extract_lets
    | (intro _; try beta_reduce)
    | split
    | with_reducible refine frame_keeps ?_ rfl rfl rfl rfl rfl rfl rfl rfl rfl (Nat.le_refl _))

theorem stageAt_keeps (cycle : Nat) (by_ : Writer) (w : Write) (d : Dev) {e0 : Dev} (h_ : Keeps e0 d) :
    Keeps e0 (stageAt cycle by_ w d) := by
  refine h_.trans ?_
  unfold stageAt
  repeat' (first
    | with_reducible exact Keeps.refl _
    | with_reducible assumption
    | with_reducible apply Dev.setReg_keeps
    | with_reducible apply Dev.setOut_keeps
    | extract_lets
    | (intro _; try beta_reduce)
    | split
    | with_reducible refine frame_keeps ?_ rfl rfl rfl rfl rfl rfl rfl rfl rfl (Nat.le_refl _))

theorem stage_keeps (k : Fin 6) (w : Write) (d : Dev) {e0 : Dev} (h_ : Keeps e0 d) :
    Keeps e0 (stage k w d) := by
  refine h_.trans ?_
  unfold stage
  repeat' (first
    | with_reducible exact Keeps.refl _
    | with_reducible assumption
    | with_reducible apply Dev.setReg_keeps
    | with_reducible apply Dev.setOut_keeps
    | with_reducible apply stageAt_keeps
    | extract_lets
    | (intro _; try beta_reduce)
    | split
    | with_reducible apply upd_tick
    | with_reducible refine frame_keeps ?_ rfl rfl rfl rfl rfl rfl rfl rfl rfl (Nat.le_refl _))

theorem stageHost_keeps (by_ : Writer) (w : Write) (d : Dev) {e0 : Dev} (h_ : Keeps e0 d) :
    Keeps e0 (stageHost by_ w d) := by
  refine h_.trans ?_
  unfold stageHost
  repeat' (first
    | with_reducible exact Keeps.refl _
    | with_reducible assumption
    | with_reducible apply Dev.setReg_keeps
    | with_reducible apply Dev.setOut_keeps
    | with_reducible apply stageAt_keeps
    | with_reducible apply stage_keeps
    | extract_lets
    | (intro _; try beta_reduce)
    | split
    | with_reducible apply upd_tick
    | with_reducible refine frame_keeps ?_ rfl rfl rfl rfl rfl rfl rfl rfl rfl (Nat.le_refl _))

theorem escalate_keeps (ev : Nat) (guard : Bool) (d : Dev) {e0 : Dev} (h_ : Keeps e0 d) :
    Keeps e0 (escalate ev guard d) := by
  refine h_.trans ?_
  unfold escalate
  repeat' (first
    | with_reducible exact Keeps.refl _
    | with_reducible assumption
    | with_reducible apply Dev.setReg_keeps
    | with_reducible apply Dev.setOut_keeps
    | with_reducible apply Dev.setFlag_keeps
    | with_reducible apply raise_keeps
    | with_reducible apply watchFaultN_keeps
    | with_reducible apply faultAt_keeps
    | extract_lets
    | (intro _; try beta_reduce)
    | split
    | with_reducible refine frame_keeps ?_ rfl rfl rfl rfl rfl rfl rfl rfl rfl (Nat.le_refl _))

theorem limExc_keeps (k : Fin 6) (code : Nat) (d : Dev) {e0 : Dev} (h_ : Keeps e0 d) :
    Keeps e0 (limExc k code d) := by
  refine h_.trans ?_
  unfold limExc
  repeat' (first
    | with_reducible exact Keeps.refl _
    | with_reducible assumption
    | with_reducible apply Dev.setReg_keeps
    | with_reducible apply Dev.setOut_keeps
    | with_reducible apply Dev.setCore_keeps
    | with_reducible apply faultAt_keeps
    | with_reducible apply fault_keeps
    | with_reducible apply escalate_keeps
    | with_reducible apply Dev.reach_keeps
    | extract_lets
    | (intro _; try beta_reduce)
    | split
    | with_reducible refine frame_keeps ?_ rfl rfl rfl rfl rfl rfl rfl rfl rfl (Nat.le_refl _))

theorem limCec_keeps (k : Fin 6) (memory : Nat) (d : Dev) {e0 : Dev} (h_ : Keeps e0 d) :
    Keeps e0 (limCec k memory d) := by
  refine h_.trans ?_
  unfold limCec
  repeat' (first
    | with_reducible exact Keeps.refl _
    | with_reducible assumption
    | with_reducible apply Dev.setReg_keeps
    | with_reducible apply Dev.setOut_keeps
    | with_reducible apply Dev.setCore_keeps
    | with_reducible apply fault_keeps
    | extract_lets
    | (intro _; try beta_reduce)
    | split
    | with_reducible refine frame_keeps ?_ rfl rfl rfl rfl rfl rfl rfl rfl rfl (Nat.le_refl _))

theorem skipOff_keeps (k : Fin 6) (d : Dev) {e0 : Dev} (h_ : Keeps e0 d) :
    Keeps e0 (skipOff k d) := by
  refine h_.trans ?_
  unfold skipOff
  repeat' (first
    | with_reducible exact Keeps.refl _
    | with_reducible assumption
    | with_reducible apply Dev.setReg_keeps
    | with_reducible apply Dev.setOut_keeps
    | with_reducible apply Dev.setCore_keeps
    | extract_lets
    | (intro _; try beta_reduce)
    | split
    | with_reducible refine frame_keeps ?_ rfl rfl rfl rfl rfl rfl rfl rfl rfl (Nat.le_refl _))

theorem limGate_keeps (o : Sys2Proof.Lim) (legal : Bool) (off on_ : Dev → Dev) (d : Dev) (hoff : ∀  e d, Keeps e d → Keeps e (off  d)) (hon_ : ∀  e d, Keeps e d → Keeps e (on_  d)) {e0 : Dev} (h_ : Keeps e0 d) :
    Keeps e0 (limGate o legal off on_ d) := by
  refine h_.trans ?_
  unfold limGate
  repeat' (first
    | with_reducible exact Keeps.refl _
    | with_reducible assumption
    | with_reducible apply hoff
    | with_reducible apply hon_
    | with_reducible apply Dev.setReg_keeps
    | with_reducible apply Dev.setOut_keeps
    | with_reducible apply limExc_keeps
    | with_reducible apply limCec_keeps
    | extract_lets
    | (intro _; try beta_reduce)
    | split
    | with_reducible refine frame_keeps ?_ rfl rfl rfl rfl rfl rfl rfl rfl rfl (Nat.le_refl _))

theorem caskRefused_keeps (k : Fin 6) (tag : Byte) (outcome cause : Nat) (d : Dev) {e0 : Dev} (h_ : Keeps e0 d) :
    Keeps e0 (caskRefused k tag outcome cause d) := by
  refine h_.trans ?_
  unfold caskRefused
  repeat' (first
    | with_reducible exact Keeps.refl _
    | with_reducible assumption
    | with_reducible apply Dev.setReg_keeps
    | with_reducible apply Dev.setOut_keeps
    | with_reducible apply Dev.setFlag_keeps
    | with_reducible apply raise_keeps
    | extract_lets
    | (intro _; try beta_reduce)
    | split
    | with_reducible refine frame_keeps ?_ rfl rfl rfl rfl rfl rfl rfl rfl rfl (Nat.le_refl _))

theorem noCask_keeps (k : Fin 6) (c : Core) (d : Dev) {e0 : Dev} (h_ : Keeps e0 d) :
    Keeps e0 (noCask k c d) := by
  refine h_.trans ?_
  unfold noCask
  repeat' (first
    | with_reducible exact Keeps.refl _
    | with_reducible assumption
    | with_reducible apply Dev.setReg_keeps
    | with_reducible apply Dev.setOut_keeps
    | with_reducible apply Dev.setFld_keeps
    | extract_lets
    | (intro _; try beta_reduce)
    | split
    | with_reducible refine frame_keeps ?_ rfl rfl rfl rfl rfl rfl rfl rfl rfl (Nat.le_refl _))

theorem skipLoop_keeps (o : Lim) (issue : Nat) (flags : Nat) (d : Dev) {e0 : Dev} (h_ : Keeps e0 d) :
    Keeps e0 (skipLoop o issue flags d) := by
  refine h_.trans ?_
  unfold skipLoop
  repeat' (first
    | with_reducible exact Keeps.refl _
    | with_reducible assumption
    | with_reducible apply Dev.setReg_keeps
    | with_reducible apply Dev.setOut_keeps
    | with_reducible apply Dev.setCore_keeps
    | with_reducible apply limExc_keeps
    | extract_lets
    | (intro _; try beta_reduce)
    | split
    | with_reducible refine frame_keeps ?_ rfl rfl rfl rfl rfl rfl rfl rfl rfl (Nat.le_refl _))

theorem dropCask_keeps (k : Fin 6) (d : Dev) {e0 : Dev} (h_ : Keeps e0 d) :
    Keeps e0 (dropCask k d) := by
  refine h_.trans ?_
  unfold dropCask
  repeat' (first
    | with_reducible exact Keeps.refl _
    | with_reducible assumption
    | with_reducible apply Dev.setReg_keeps
    | with_reducible apply Dev.setOut_keeps
    | with_reducible apply Dev.setCore_keeps
    | with_reducible apply caskRefused_keeps
    | extract_lets
    | (intro _; try beta_reduce)
    | split
    | with_reducible refine frame_keeps ?_ rfl rfl rfl rfl rfl rfl rfl rfl rfl (Nat.le_refl _))

end Sys2Proof.Machine
end

