-- ==== Sys2Proof/Laws/KeepsControl.lean ====
section
/-! SUPPORT. What the operations of Machine/Control.lean keep (Laws/Keeps.lean). -/
set_option linter.unusedTactic false
set_option linter.unreachableTactic false
namespace Sys2Proof.Machine

theorem carrierRecheck_keeps (old d : Dev) {e0 : Dev} (h_ : Keeps e0 d) :
    Keeps e0 (carrierRecheck old d) := by
  refine h_.trans ?_
  unfold carrierRecheck
  repeat' (first
    | with_reducible exact Keeps.refl _
    | with_reducible assumption
    | with_reducible apply Dev.setReg_keeps
    | with_reducible apply Dev.setOut_keeps
    | with_reducible apply Dev.setLane_keeps
    | with_reducible apply laneNote_keeps
    | with_reducible apply Keeps.forAll
    | extract_lets
    | (intro _; try beta_reduce)
    | split
    | with_reducible refine frame_keeps ?_ rfl rfl rfl rfl rfl rfl rfl rfl rfl (Nat.le_refl _))

theorem commitGain_keeps (n : Fin 16) (offset : Nat) (v : Word) (d : Dev) {e0 : Dev} (h_ : Keeps e0 d) :
    Keeps e0 (commitGain n offset v d) := by
  refine h_.trans ?_
  unfold commitGain
  repeat' (first
    | with_reducible exact Keeps.refl _
    | with_reducible assumption
    | with_reducible apply Dev.setReg_keeps
    | with_reducible apply Dev.setOut_keeps
    | with_reducible apply laneNote_keeps
    | extract_lets
    | (intro _; try beta_reduce)
    | split
    | with_reducible refine frame_keeps ?_ rfl rfl rfl rfl rfl rfl rfl rfl rfl (Nat.le_refl _))

theorem commitLaneCfg_keeps (n : Fin 16) (v : Word) (d : Dev) {e0 : Dev} (h_ : Keeps e0 d) :
    Keeps e0 (commitLaneCfg n v d) := by
  refine h_.trans ?_
  unfold commitLaneCfg
  repeat' (first
    | with_reducible exact Keeps.refl _
    | with_reducible assumption
    | with_reducible apply Dev.setReg_keeps
    | with_reducible apply Dev.setOut_keeps
    | with_reducible apply laneNote_keeps
    | extract_lets
    | (intro _; try beta_reduce)
    | split
    | with_reducible refine frame_keeps ?_ rfl rfl rfl rfl rfl rfl rfl rfl rfl (Nat.le_refl _))

theorem commitPmap_keeps (n : Fin 16) (v : Word) (d : Dev) {e0 : Dev} (h_ : Keeps e0 d) :
    Keeps e0 (commitPmap n v d) := by
  refine h_.trans ?_
  unfold commitPmap
  repeat' (first
    | with_reducible exact Keeps.refl _
    | with_reducible assumption
    | with_reducible apply Dev.setReg_keeps
    | with_reducible apply Dev.setOut_keeps
    | with_reducible apply laneNote_keeps
    | extract_lets
    | (intro _; try beta_reduce)
    | split
    | with_reducible refine frame_keeps ?_ rfl rfl rfl rfl rfl rfl rfl rfl rfl (Nat.le_refl _))

theorem commitCarrier_keeps (n : Fin 16) (v : Word) (d : Dev) {e0 : Dev} (h_ : Keeps e0 d) :
    Keeps e0 (commitCarrier n v d) := by
  refine h_.trans ?_
  unfold commitCarrier
  repeat' (first
    | with_reducible exact Keeps.refl _
    | with_reducible assumption
    | with_reducible apply Dev.setReg_keeps
    | with_reducible apply Dev.setOut_keeps
    | with_reducible apply Dev.setLane_keeps
    | with_reducible apply laneNote_keeps
    | extract_lets
    | (intro _; try beta_reduce)
    | split
    | with_reducible refine frame_keeps ?_ rfl rfl rfl rfl rfl rfl rfl rfl rfl (Nat.le_refl _))

theorem tableWrite_keeps (n : Fin 16) (v : Word) (d : Dev) {e0 : Dev} (h_ : Keeps e0 d) :
    Keeps e0 (tableWrite n v d) := by
  refine h_.trans ?_
  unfold tableWrite
  repeat' (first
    | with_reducible exact Keeps.refl _
    | with_reducible assumption
    | with_reducible apply Dev.setReg_keeps
    | with_reducible apply Dev.setOut_keeps
    | with_reducible apply Dev.setFld_keeps
    | with_reducible apply Dev.setFlag_keeps
    | extract_lets
    | (intro _; try beta_reduce)
    | split
    | with_reducible refine frame_keeps ?_ rfl rfl rfl rfl rfl rfl rfl rfl rfl (Nat.le_refl _))

theorem frSet_keeps (n : Fin 16) (d : Dev) {e0 : Dev} (h_ : Keeps e0 d) :
    Keeps e0 (frSet n d) := by
  refine h_.trans ?_
  unfold frSet
  repeat' (first
    | with_reducible exact Keeps.refl _
    | with_reducible assumption
    | with_reducible apply Dev.setReg_keeps
    | with_reducible apply Dev.setOut_keeps
    | with_reducible apply Dev.setFlag_keeps
    | extract_lets
    | (intro _; try beta_reduce)
    | split
    | with_reducible refine frame_keeps ?_ rfl rfl rfl rfl rfl rfl rfl rfl rfl (Nat.le_refl _))

theorem frClr_keeps (n : Fin 16) (d : Dev) {e0 : Dev} (h_ : Keeps e0 d) :
    Keeps e0 (frClr n d) := by
  refine h_.trans ?_
  unfold frClr
  repeat' (first
    | with_reducible exact Keeps.refl _
    | with_reducible assumption
    | with_reducible apply Dev.setReg_keeps
    | with_reducible apply Dev.setOut_keeps
    | with_reducible apply Dev.setFlag_keeps
    | extract_lets
    | (intro _; try beta_reduce)
    | split
    | with_reducible refine frame_keeps ?_ rfl rfl rfl rfl rfl rfl rfl rfl rfl (Nat.le_refl _))

theorem cgSet_keeps (n : Fin 16) (d : Dev) {e0 : Dev} (h_ : Keeps e0 d) :
    Keeps e0 (cgSet n d) := by
  refine h_.trans ?_
  unfold cgSet
  repeat' (first
    | with_reducible exact Keeps.refl _
    | with_reducible assumption
    | with_reducible apply Dev.setReg_keeps
    | with_reducible apply Dev.setOut_keeps
    | with_reducible apply Dev.setFlag_keeps
    | extract_lets
    | (intro _; try beta_reduce)
    | split
    | with_reducible refine frame_keeps ?_ rfl rfl rfl rfl rfl rfl rfl rfl rfl (Nat.le_refl _))

theorem cgClr_keeps (n : Fin 16) (d : Dev) {e0 : Dev} (h_ : Keeps e0 d) :
    Keeps e0 (cgClr n d) := by
  refine h_.trans ?_
  unfold cgClr
  repeat' (first
    | with_reducible exact Keeps.refl _
    | with_reducible assumption
    | with_reducible apply Dev.setReg_keeps
    | with_reducible apply Dev.setOut_keeps
    | with_reducible apply Dev.setFlag_keeps
    | extract_lets
    | (intro _; try beta_reduce)
    | split
    | with_reducible refine frame_keeps ?_ rfl rfl rfl rfl rfl rfl rfl rfl rfl (Nat.le_refl _))

theorem laneAct_keeps (n : Fin 16) (v : Word) (d : Dev) {e0 : Dev} (h_ : Keeps e0 d) :
    Keeps e0 (laneAct n v d) := by
  refine h_.trans ?_
  unfold laneAct
  repeat' (first
    | with_reducible exact Keeps.refl _
    | with_reducible assumption
    | with_reducible apply Dev.setReg_keeps
    | with_reducible apply Dev.setOut_keeps
    | with_reducible apply frSet_keeps
    | with_reducible apply frClr_keeps
    | with_reducible apply cgSet_keeps
    | with_reducible apply cgClr_keeps
    | extract_lets
    | (intro _; try beta_reduce)
    | split
    | with_reducible refine frame_keeps ?_ rfl rfl rfl rfl rfl rfl rfl rfl rfl (Nat.le_refl _))

theorem lanePhase_keeps (n : Fin 16) (d : Dev) {e0 : Dev} (h_ : Keeps e0 d) :
    Keeps e0 (lanePhase n d) := by
  refine h_.trans ?_
  unfold lanePhase
  repeat' (first
    | with_reducible exact Keeps.refl _
    | with_reducible assumption
    | with_reducible apply Dev.setReg_keeps
    | with_reducible apply Dev.setOut_keeps
    | with_reducible apply Dev.setLane_keeps
    | extract_lets
    | (intro _; try beta_reduce)
    | split
    | with_reducible refine frame_keeps ?_ rfl rfl rfl rfl rfl rfl rfl rfl rfl (Nat.le_refl _))

theorem laneStart_keeps (n : Fin 16) (blind : Bool) (d : Dev) {e0 : Dev} (h_ : Keeps e0 d) :
    Keeps e0 (laneStart n blind d) := by
  refine h_.trans ?_
  unfold laneStart
  repeat' (first
    | with_reducible exact Keeps.refl _
    | with_reducible assumption
    | with_reducible apply Dev.setReg_keeps
    | with_reducible apply Dev.setOut_keeps
    | with_reducible apply Dev.setFlag_keeps
    | with_reducible apply Dev.setLane_keeps
    | with_reducible apply laneTrip_keeps
    | extract_lets
    | (intro _; try beta_reduce)
    | split
    | with_reducible refine frame_keeps ?_ rfl rfl rfl rfl rfl rfl rfl rfl rfl (Nat.le_refl _))

theorem laneStop_keeps (n : Fin 16) (d : Dev) {e0 : Dev} (h_ : Keeps e0 d) :
    Keeps e0 (laneStop n d) := by
  refine h_.trans ?_
  unfold laneStop
  repeat' (first
    | with_reducible exact Keeps.refl _
    | with_reducible assumption
    | with_reducible apply Dev.setReg_keeps
    | with_reducible apply Dev.setOut_keeps
    | with_reducible apply Dev.setLane_keeps
    | extract_lets
    | (intro _; try beta_reduce)
    | split
    | with_reducible refine frame_keeps ?_ rfl rfl rfl rfl rfl rfl rfl rfl rfl (Nat.le_refl _))

theorem laneCapture_keeps (n : Fin 16) (d : Dev) {e0 : Dev} (h_ : Keeps e0 d) :
    Keeps e0 (laneCapture n d) := by
  refine h_.trans ?_
  unfold laneCapture
  repeat' (first
    | with_reducible exact Keeps.refl _
    | with_reducible assumption
    | with_reducible apply Dev.setReg_keeps
    | with_reducible apply Dev.setOut_keeps
    | with_reducible apply Dev.setLane_keeps
    | with_reducible apply laneTrip_keeps
    | extract_lets
    | (intro _; try beta_reduce)
    | split
    | with_reducible refine frame_keeps ?_ rfl rfl rfl rfl rfl rfl rfl rfl rfl (Nat.le_refl _))

theorem laneFrac_keeps (n : Fin 16) (d : Dev) {e0 : Dev} (h_ : Keeps e0 d) :
    Keeps e0 (laneFrac n d) := by
  refine h_.trans ?_
  unfold laneFrac
  repeat' (first
    | with_reducible exact Keeps.refl _
    | with_reducible assumption
    | with_reducible apply Dev.setReg_keeps
    | with_reducible apply Dev.setOut_keeps
    | with_reducible apply Dev.setLane_keeps
    | extract_lets
    | (intro _; try beta_reduce)
    | split
    | with_reducible refine frame_keeps ?_ rfl rfl rfl rfl rfl rfl rfl rfl rfl (Nat.le_refl _))

theorem lawOut_keeps (n : Fin 16) (w : Word) (d : Dev) {e0 : Dev} (h_ : Keeps e0 d) :
    Keeps e0 (lawOut n w d).2 := by
  refine h_.trans ?_
  unfold lawOut
  repeat' (first
    | with_reducible exact Keeps.refl _
    | with_reducible assumption
    | with_reducible apply Dev.setReg_keeps
    | with_reducible apply Dev.setOut_keeps
    | with_reducible apply laneNote_keeps
    | extract_lets
    | (intro _; try beta_reduce)
    | split
    | with_reducible refine frame_keeps ?_ rfl rfl rfl rfl rfl rfl rfl rfl rfl (Nat.le_refl _))

theorem runHook_keeps (n : Fin 16) (hook : Nat) (h : HookIn) (fin : List Word) (d : Dev) {e0 : Dev} (h_ : Keeps e0 d) :
    Keeps e0 (runHook n hook h fin d).2.2 := by
  refine h_.trans ?_
  unfold runHook
  extract_lets f0 f1
  split
  · exact Keeps.refl _
  · extract_lets t c d1
    have k1 : Keeps d d1 := Dev.setLane_keeps _ _ _ (Keeps.refl _)
    have k2 := lawOut_keeps n (c.fr 0) d1 k1
    clear_value d1
    generalize lawOut n (c.fr 0) d1 = q at k2
    obtain ⟨o0, d2⟩ := q
    dsimp only at k2 ⊢
    split
    · exact k2
    · have k3 := lawOut_keeps n (c.fr 1) d2 k2
      generalize lawOut n (c.fr 1) d2 = q at k3
      obtain ⟨o1, d3⟩ := q
      exact k3

theorem laneFlag_keeps (n : Fin 16) (i : Nat) (b : Bool) (d : Dev) {e0 : Dev} (h_ : Keeps e0 d) :
    Keeps e0 (laneFlag n i b d) := by
  refine h_.trans ?_
  unfold laneFlag
  repeat' (first
    | with_reducible exact Keeps.refl _
    | with_reducible assumption
    | with_reducible apply Dev.setReg_keeps
    | with_reducible apply Dev.setOut_keeps
    | with_reducible apply Dev.setFlag_keeps
    | extract_lets
    | (intro _; try beta_reduce)
    | split
    | with_reducible refine frame_keeps ?_ rfl rfl rfl rfl rfl rfl rfl rfl rfl (Nat.le_refl _))

theorem servoOuter_keeps (n : Fin 16) (h : HookIn) (x : Traj) (d : Dev) {e0 : Dev} (h_ : Keeps e0 d) :
    Keeps e0 (servoOuter n h x d).2 := by
  refine h_.trans ?_
  unfold servoOuter
  repeat' (first
    | with_reducible exact Keeps.refl _
    | with_reducible assumption
    | with_reducible apply Dev.setReg_keeps
    | with_reducible apply Dev.setOut_keeps
    | with_reducible apply Dev.setLane_keeps
    | with_reducible apply runHook_keeps
    | extract_lets
    | (intro _; try beta_reduce)
    | split
    | with_reducible apply upd_ev
    | with_reducible refine frame_keeps ?_ rfl rfl rfl rfl rfl rfl rfl rfl rfl (Nat.le_refl _)
    | with_reducible refine Keeps.ofSnd3 (by with_reducible assumption) ?_)

theorem servoInner_keeps (n : Fin 16) (h : HookIn) (iq0 ia ib ic : Word) (first : Bool) (d : Dev) {e0 : Dev} (h_ : Keeps e0 d) :
    Keeps e0 (servoInner n h iq0 ia ib ic first d) := by
  refine h_.trans ?_
  unfold servoInner
  repeat' (first
    | with_reducible exact Keeps.refl _
    | with_reducible assumption
    | with_reducible apply Dev.setReg_keeps
    | with_reducible apply Dev.setOut_keeps
    | with_reducible apply Dev.setLane_keeps
    | with_reducible apply laneNote_keeps
    | with_reducible apply runHook_keeps
    | with_reducible apply laneFlag_keeps
    | extract_lets
    | (intro _; try beta_reduce)
    | split
    | with_reducible refine frame_keeps ?_ rfl rfl rfl rfl rfl rfl rfl rfl rfl (Nat.le_refl _)
    | with_reducible refine Keeps.ofSnd3 (by with_reducible assumption) ?_)

theorem servoPass_keeps (n : Fin 16) (b : PassBits) (d : Dev) {e0 : Dev} (h_ : Keeps e0 d) :
    Keeps e0 (servoPass n b d) := by
  refine h_.trans ?_
  unfold servoPass
  repeat' (first
    | with_reducible exact Keeps.refl _
    | with_reducible assumption
    | with_reducible apply Dev.setReg_keeps
    | with_reducible apply Dev.setOut_keeps
    | with_reducible apply Dev.setLane_keeps
    | with_reducible apply servoOuter_keeps
    | with_reducible apply servoInner_keeps
    | extract_lets
    | (intro _; try beta_reduce)
    | split
    | with_reducible refine frame_keeps ?_ rfl rfl rfl rfl rfl rfl rfl rfl rfl (Nat.le_refl _)
    | with_reducible refine Keeps.ofSnd (by with_reducible assumption) ?_)

theorem chopperMode_keeps (n : Fin 16) (vc cosA : Word) (d : Dev) {e0 : Dev} (h_ : Keeps e0 d) :
    Keeps e0 (chopperMode n vc cosA d).2 := by
  refine h_.trans ?_
  unfold chopperMode
  repeat' (first
    | with_reducible exact Keeps.refl _
    | with_reducible assumption
    | with_reducible apply Dev.setReg_keeps
    | with_reducible apply Dev.setOut_keeps
    | with_reducible apply Dev.setLane_keeps
    | extract_lets
    | (intro _; try beta_reduce)
    | split
    | with_reducible refine frame_keeps ?_ rfl rfl rfl rfl rfl rfl rfl rfl rfl (Nat.le_refl _))

theorem chopperPass_keeps (n : Fin 16) (b : PassBits) (d : Dev) {e0 : Dev} (h_ : Keeps e0 d) :
    Keeps e0 (chopperPass n b d) := by
  refine h_.trans ?_
  unfold chopperPass
  repeat' (first
    | with_reducible exact Keeps.refl _
    | with_reducible assumption
    | with_reducible apply Dev.setReg_keeps
    | with_reducible apply Dev.setOut_keeps
    | with_reducible apply Dev.setLane_keeps
    | with_reducible apply runHook_keeps
    | with_reducible apply laneFlag_keeps
    | with_reducible apply chopperMode_keeps
    | extract_lets
    | (intro _; try beta_reduce)
    | split
    | with_reducible refine frame_keeps ?_ rfl rfl rfl rfl rfl rfl rfl rfl rfl (Nat.le_refl _)
    | with_reducible refine Keeps.ofSnd (by with_reducible assumption) ?_
    | with_reducible refine Keeps.ofSnd3 (by with_reducible assumption) ?_)

theorem applyCompares_keeps (n : Fin 16) (d : Dev) {e0 : Dev} (h_ : Keeps e0 d) :
    Keeps e0 (applyCompares n d) := by
  refine h_.trans ?_
  unfold applyCompares
  repeat' (first
    | with_reducible exact Keeps.refl _
    | with_reducible assumption
    | with_reducible apply Dev.setReg_keeps
    | with_reducible apply Dev.setOut_keeps
    | with_reducible apply Dev.setLane_keeps
    | extract_lets
    | (intro _; try beta_reduce)
    | split
    | with_reducible refine frame_keeps ?_ rfl rfl rfl rfl rfl rfl rfl rfl rfl (Nat.le_refl _))

theorem carrierValley_keeps (n : Fin 16) (d : Dev) {e0 : Dev} (h_ : Keeps e0 d) :
    Keeps e0 (carrierValley n d) := by
  refine h_.trans ?_
  unfold carrierValley
  repeat' (first
    | with_reducible exact Keeps.refl _
    | with_reducible assumption
    | with_reducible apply Dev.setReg_keeps
    | with_reducible apply Dev.setOut_keeps
    | with_reducible apply Dev.setLane_keeps
    | extract_lets
    | (intro _; try beta_reduce)
    | split
    | with_reducible refine frame_keeps ?_ rfl rfl rfl rfl rfl rfl rfl rfl rfl (Nat.le_refl _))

theorem overcurrent_keeps (ch : Fin 24) (amps : Word) (d : Dev) {e0 : Dev} (h_ : Keeps e0 d) :
    Keeps e0 (overcurrent ch amps d) := by
  refine h_.trans ?_
  unfold overcurrent
  repeat' (first
    | with_reducible exact Keeps.refl _
    | with_reducible assumption
    | with_reducible apply Dev.setReg_keeps
    | with_reducible apply Dev.setOut_keeps
    | with_reducible apply laneTrip_keeps
    | with_reducible apply Keeps.forAll
    | extract_lets
    | (intro _; try beta_reduce)
    | split
    | with_reducible refine frame_keeps ?_ rfl rfl rfl rfl rfl rfl rfl rfl rfl (Nat.le_refl _))

theorem sdError_keeps (ch : Fin 24) (d : Dev) {e0 : Dev} (h_ : Keeps e0 d) :
    Keeps e0 (sdError ch d) := by
  refine h_.trans ?_
  unfold sdError
  repeat' (first
    | with_reducible exact Keeps.refl _
    | with_reducible assumption
    | with_reducible apply Dev.setReg_keeps
    | with_reducible apply Dev.setOut_keeps
    | with_reducible apply Dev.setFlag_keeps
    | with_reducible apply laneTrip_keeps
    | with_reducible apply Keeps.forAll
    | extract_lets
    | (intro _; try beta_reduce)
    | split
    | with_reducible refine frame_keeps ?_ rfl rfl rfl rfl rfl rfl rfl rfl rfl (Nat.le_refl _))

end Sys2Proof.Machine
end

