-- ==== Sys2Proof/Laws/KeepsInputs.lean ====
section
/-! SUPPORT. What the operations of Machine/Print.lean, Machine/Feedback.lean keep (Laws/Keeps.lean). -/
set_option linter.unusedTactic false
set_option linter.unreachableTactic false
namespace Sys2Proof.Machine

theorem Dev.setPrt_keeps (d : Dev) (p : Fin 2) (x : Prt) {e0 : Dev} (h_ : Keeps e0 d) :
    Keeps e0 (Dev.setPrt d p x) := by
  refine h_.trans ?_
  unfold Dev.setPrt
  repeat' (first
    | with_reducible exact Keeps.refl _
    | with_reducible assumption
    | with_reducible apply Dev.setReg_keeps
    | with_reducible apply Dev.setOut_keeps
    | extract_lets
    | (intro _; try beta_reduce)
    | split
    | with_reducible apply upd_prt
    | with_reducible refine frame_keeps ?_ rfl rfl rfl rfl rfl rfl rfl rfl rfl (Nat.le_refl _))

theorem prtStatus_keeps (p : Fin 2) (d : Dev) {e0 : Dev} (h_ : Keeps e0 d) :
    Keeps e0 (prtStatus p d) := by
  refine h_.trans ?_
  unfold prtStatus
  repeat' (first
    | with_reducible exact Keeps.refl _
    | with_reducible assumption
    | with_reducible apply Dev.setReg_keeps
    | with_reducible apply Dev.setOut_keeps
    | with_reducible apply Dev.setFlag_keeps
    | extract_lets
    | (intro _; try beta_reduce)
    | split
    | with_reducible refine frame_keeps ?_ rfl rfl rfl rfl rfl rfl rfl rfl rfl (Nat.le_refl _))

theorem setRdIdx_keeps (p : Fin 2) (i : Nat) (d : Dev) {e0 : Dev} (h_ : Keeps e0 d) :
    Keeps e0 (setRdIdx p i d) := by
  refine h_.trans ?_
  unfold setRdIdx
  repeat' (first
    | with_reducible exact Keeps.refl _
    | with_reducible assumption
    | with_reducible apply Dev.setReg_keeps
    | with_reducible apply Dev.setOut_keeps
    | with_reducible apply Dev.setPrt_keeps
    | extract_lets
    | (intro _; try beta_reduce)
    | split
    | with_reducible refine frame_keeps ?_ rfl rfl rfl rfl rfl rfl rfl rfl rfl (Nat.le_refl _))

theorem shiftNext_keeps (p : Fin 2) (d : Dev) {e0 : Dev} (h_ : Keeps e0 d) :
    Keeps e0 (shiftNext p d) := by
  refine h_.trans ?_
  unfold shiftNext
  repeat' (first
    | with_reducible exact Keeps.refl _
    | with_reducible assumption
    | with_reducible apply Dev.setReg_keeps
    | with_reducible apply Dev.setOut_keeps
    | with_reducible apply Dev.setPrt_keeps
    | extract_lets
    | (intro _; try beta_reduce)
    | split
    | with_reducible refine frame_keeps ?_ rfl rfl rfl rfl rfl rfl rfl rfl rfl (Nat.le_refl _))

theorem retable_keeps (p : Fin 2) (d : Dev) {e0 : Dev} (h_ : Keeps e0 d) :
    Keeps e0 (retable p d) := by
  refine h_.trans ?_
  unfold retable
  repeat' (first
    | with_reducible exact Keeps.refl _
    | with_reducible assumption
    | with_reducible apply Dev.setReg_keeps
    | with_reducible apply Dev.setOut_keeps
    | with_reducible apply Dev.setPrt_keeps
    | extract_lets
    | (intro _; try beta_reduce)
    | split
    | with_reducible refine frame_keeps ?_ rfl rfl rfl rfl rfl rfl rfl rfl rfl (Nat.le_refl _))

theorem advanceRd_keeps (p : Fin 2) (d : Dev) {e0 : Dev} (h_ : Keeps e0 d) :
    Keeps e0 (advanceRd p d) := by
  refine h_.trans ?_
  unfold advanceRd
  repeat' (first
    | with_reducible exact Keeps.refl _
    | with_reducible assumption
    | with_reducible apply Dev.setReg_keeps
    | with_reducible apply Dev.setOut_keeps
    | with_reducible apply setRdIdx_keeps
    | extract_lets
    | (intro _; try beta_reduce)
    | split
    | with_reducible refine frame_keeps ?_ rfl rfl rfl rfl rfl rfl rfl rfl rfl (Nat.le_refl _))

theorem skipCount_keeps (p : Fin 2) (n : Nat) (d : Dev) {e0 : Dev} (h_ : Keeps e0 d) :
    Keeps e0 (skipCount p n d) := by
  refine h_.trans ?_
  unfold skipCount
  repeat' (first
    | with_reducible exact Keeps.refl _
    | with_reducible assumption
    | with_reducible apply Dev.setReg_keeps
    | with_reducible apply Dev.setOut_keeps
    | extract_lets
    | (intro _; try beta_reduce)
    | split
    | with_reducible refine frame_keeps ?_ rfl rfl rfl rfl rfl rfl rfl rfl rfl (Nat.le_refl _))

theorem jobDone_keeps (p : Fin 2) (j : Job) (d : Dev) {e0 : Dev} (h_ : Keeps e0 d) :
    Keeps e0 (jobDone p j d) := by
  refine h_.trans ?_
  unfold jobDone
  repeat' (first
    | with_reducible exact Keeps.refl _
    | with_reducible assumption
    | with_reducible apply Dev.setReg_keeps
    | with_reducible apply Dev.setOut_keeps
    | with_reducible apply Dev.setFlag_keeps
    | with_reducible apply raise_keeps
    | with_reducible apply Dev.setPrt_keeps
    | with_reducible apply setRdIdx_keeps
    | extract_lets
    | (intro _; try beta_reduce)
    | split
    | with_reducible refine frame_keeps ?_ rfl rfl rfl rfl rfl rfl rfl rfl rfl (Nat.le_refl _))

theorem jobFinish_keeps (p : Fin 2) (d : Dev) {e0 : Dev} (h_ : Keeps e0 d) :
    Keeps e0 (jobFinish p d) := by
  refine h_.trans ?_
  unfold jobFinish
  repeat' (first
    | with_reducible exact Keeps.refl _
    | with_reducible assumption
    | with_reducible apply Dev.setReg_keeps
    | with_reducible apply Dev.setOut_keeps
    | with_reducible apply Dev.setPrt_keeps
    | with_reducible apply jobDone_keeps
    | extract_lets
    | (intro _; try beta_reduce)
    | split
    | with_reducible refine frame_keeps ?_ rfl rfl rfl rfl rfl rfl rfl rfl rfl (Nat.le_refl _))

theorem jobStart_keeps (p : Fin 2) (start : Word) (rows : Nat) (d : Dev) {e0 : Dev} (h_ : Keeps e0 d) :
    Keeps e0 (jobStart p start rows d) := by
  refine h_.trans ?_
  unfold jobStart
  repeat' (first
    | with_reducible exact Keeps.refl _
    | with_reducible assumption
    | with_reducible apply Dev.setReg_keeps
    | with_reducible apply Dev.setOut_keeps
    | with_reducible apply Dev.setPrt_keeps
    | with_reducible apply advanceRd_keeps
    | with_reducible apply skipCount_keeps
    | with_reducible apply jobFinish_keeps
    | extract_lets
    | (intro _; try beta_reduce)
    | split
    | with_reducible refine frame_keeps ?_ rfl rfl rfl rfl rfl rfl rfl rfl rfl (Nat.le_refl _))

theorem queuePass_keeps (p : Fin 2) (d : Dev) {e0 : Dev} (h_ : Keeps e0 d) :
    Keeps e0 (queuePass p d) := by
  refine h_.trans ?_
  unfold queuePass
  repeat' (first
    | with_reducible exact Keeps.refl _
    | with_reducible assumption
    | with_reducible apply Dev.setReg_keeps
    | with_reducible apply Dev.setOut_keeps
    | with_reducible apply Dev.setPrt_keeps
    | with_reducible apply skipCount_keeps
    | extract_lets
    | (intro _; try beta_reduce)
    | split
    | with_reducible refine frame_keeps ?_ rfl rfl rfl rfl rfl rfl rfl rfl rfl (Nat.le_refl _))

theorem jobError_keeps (p : Fin 2) (d : Dev) {e0 : Dev} (h_ : Keeps e0 d) :
    Keeps e0 (jobError p d) := by
  refine h_.trans ?_
  unfold jobError
  repeat' (first
    | with_reducible exact Keeps.refl _
    | with_reducible assumption
    | with_reducible apply Dev.setReg_keeps
    | with_reducible apply Dev.setOut_keeps
    | with_reducible apply Dev.setFlag_keeps
    | with_reducible apply raise_keeps
    | extract_lets
    | (intro _; try beta_reduce)
    | split
    | with_reducible refine frame_keeps ?_ rfl rfl rfl rfl rfl rfl rfl rfl rfl (Nat.le_refl _))

theorem jobGo_keeps (p : Fin 2) (d : Dev) {e0 : Dev} (h_ : Keeps e0 d) :
    Keeps e0 (jobGo p d) := by
  refine h_.trans ?_
  unfold jobGo
  repeat' (first
    | with_reducible exact Keeps.refl _
    | with_reducible assumption
    | with_reducible apply Dev.setReg_keeps
    | with_reducible apply Dev.setOut_keeps
    | with_reducible apply Dev.setPrt_keeps
    | with_reducible apply prtStatus_keeps
    | with_reducible apply shiftNext_keeps
    | with_reducible apply jobStart_keeps
    | with_reducible apply queuePass_keeps
    | with_reducible apply jobError_keeps
    | extract_lets
    | (intro _; try beta_reduce)
    | split
    | with_reducible refine frame_keeps ?_ rfl rfl rfl rfl rfl rfl rfl rfl rfl (Nat.le_refl _))

theorem jobAbort_keeps (p : Fin 2) (d : Dev) {e0 : Dev} (h_ : Keeps e0 d) :
    Keeps e0 (jobAbort p d) := by
  refine h_.trans ?_
  unfold jobAbort
  repeat' (first
    | with_reducible exact Keeps.refl _
    | with_reducible assumption
    | with_reducible apply Dev.setReg_keeps
    | with_reducible apply Dev.setOut_keeps
    | with_reducible apply Dev.setPrt_keeps
    | with_reducible apply prtStatus_keeps
    | extract_lets
    | (intro _; try beta_reduce)
    | split
    | with_reducible refine frame_keeps ?_ rfl rfl rfl rfl rfl rfl rfl rfl rfl (Nat.le_refl _))

theorem jobCmd_keeps (p : Fin 2) (v : Word) (d : Dev) {e0 : Dev} (h_ : Keeps e0 d) :
    Keeps e0 (jobCmd p v d) := by
  refine h_.trans ?_
  unfold jobCmd
  repeat' (first
    | with_reducible exact Keeps.refl _
    | with_reducible assumption
    | with_reducible apply Dev.setReg_keeps
    | with_reducible apply Dev.setOut_keeps
    | with_reducible apply jobGo_keeps
    | with_reducible apply jobAbort_keeps
    | extract_lets
    | (intro _; try beta_reduce)
    | split
    | with_reducible refine frame_keeps ?_ rfl rfl rfl rfl rfl rfl rfl rfl rfl (Nat.le_refl _))

theorem rowFetch_keeps (p : Fin 2) (err : Option Sys2Proof.SramError) (d : Dev) {e0 : Dev} (h_ : Keeps e0 d) :
    Keeps e0 (rowFetch p err d) := by
  refine h_.trans ?_
  unfold rowFetch
  repeat' (first
    | with_reducible exact Keeps.refl _
    | with_reducible assumption
    | with_reducible apply Dev.setReg_keeps
    | with_reducible apply Dev.setOut_keeps
    | with_reducible apply sramErr_keeps
    | with_reducible apply Dev.setPrt_keeps
    | with_reducible apply shiftNext_keeps
    | extract_lets
    | (intro _; try beta_reduce)
    | split
    | with_reducible refine frame_keeps ?_ rfl rfl rfl rfl rfl rfl rfl rfl rfl (Nat.le_refl _))

theorem fireIndex_keeps (p : Fin 2) (r : Nat) (blank : Bool) (at_ : Nat) (d : Dev) {e0 : Dev} (h_ : Keeps e0 d) :
    Keeps e0 (fireIndex p r blank at_ d) := by
  refine h_.trans ?_
  unfold fireIndex
  repeat' (first
    | with_reducible exact Keeps.refl _
    | with_reducible assumption
    | with_reducible apply Dev.setReg_keeps
    | with_reducible apply Dev.setOut_keeps
    | with_reducible apply Dev.setPrt_keeps
    | extract_lets
    | (intro _; try beta_reduce)
    | split
    | with_reducible refine frame_keeps ?_ rfl rfl rfl rfl rfl rfl rfl rfl rfl (Nat.le_refl _))

theorem lateIndex_keeps (p : Fin 2) (d : Dev) {e0 : Dev} (h_ : Keeps e0 d) :
    Keeps e0 (lateIndex p d) := by
  refine h_.trans ?_
  unfold lateIndex
  repeat' (first
    | with_reducible exact Keeps.refl _
    | with_reducible assumption
    | with_reducible apply Dev.setReg_keeps
    | with_reducible apply Dev.setOut_keeps
    | with_reducible apply Dev.setFlag_keeps
    | with_reducible apply Dev.count1_keeps
    | with_reducible apply raise_keeps
    | extract_lets
    | (intro _; try beta_reduce)
    | split
    | with_reducible refine frame_keeps ?_ rfl rfl rfl rfl rfl rfl rfl rfl rfl (Nat.le_refl _))

theorem queueIndex_keeps (p : Fin 2) (r : Nat) (blank : Bool) (d : Dev) {e0 : Dev} (h_ : Keeps e0 d) :
    Keeps e0 (queueIndex p r blank d) := by
  refine h_.trans ?_
  unfold queueIndex
  repeat' (first
    | with_reducible exact Keeps.refl _
    | with_reducible assumption
    | with_reducible apply Dev.setReg_keeps
    | with_reducible apply Dev.setOut_keeps
    | with_reducible apply Dev.setFlag_keeps
    | with_reducible apply Dev.tickFree_keeps
    | with_reducible apply raise_keeps
    | with_reducible apply Dev.setPrt_keeps
    | with_reducible apply shiftNext_keeps
    | with_reducible apply skipCount_keeps
    | with_reducible apply fireIndex_keeps
    | extract_lets
    | (intro _; try beta_reduce)
    | split
    | with_reducible refine frame_keeps ?_ rfl rfl rfl rfl rfl rfl rfl rfl rfl (Nat.le_refl _))

theorem fireLate_keeps (p : Fin 2) (fire : Dev → Dev) (d : Dev) (hf : ∀ d, Keeps d (fire d)) {e0 : Dev} (h_ : Keeps e0 d) :
    Keeps e0 (fireLate p fire d) := by
  unfold fireLate
  split
  · exact jobAbort_keeps _ _ (lateIndex_keeps _ _ h_)
  · exact (lateIndex_keeps _ _ h_).trans (hf _)

theorem indexDue_keeps (p : Fin 2) (d : Dev) {e0 : Dev} (h_ : Keeps e0 d) :
    Keeps e0 (indexDue p d) := by
  refine h_.trans ?_
  unfold indexDue
  repeat' (first
    | with_reducible exact Keeps.refl _
    | with_reducible assumption
    | with_reducible apply Dev.setReg_keeps
    | with_reducible apply Dev.setOut_keeps
    | with_reducible apply Dev.setPrt_keeps
    | with_reducible apply prtStatus_keeps
    | with_reducible apply shiftNext_keeps
    | with_reducible apply advanceRd_keeps
    | with_reducible apply skipCount_keeps
    | with_reducible apply jobFinish_keeps
    | with_reducible apply queueIndex_keeps
    | with_reducible apply fireLate_keeps
    | extract_lets
    | (intro _; try beta_reduce)
    | split
    | with_reducible refine frame_keeps ?_ rfl rfl rfl rfl rfl rfl rfl rfl rfl (Nat.le_refl _))

theorem delayedFiring_keeps (p : Fin 2) (d : Dev) {e0 : Dev} (h_ : Keeps e0 d) :
    Keeps e0 (delayedFiring p d) := by
  refine h_.trans ?_
  unfold delayedFiring
  repeat' (first
    | with_reducible exact Keeps.refl _
    | with_reducible assumption
    | with_reducible apply Dev.setReg_keeps
    | with_reducible apply Dev.setOut_keeps
    | with_reducible apply Dev.reach_keeps
    | with_reducible apply Dev.setPrt_keeps
    | with_reducible apply prtStatus_keeps
    | with_reducible apply shiftNext_keeps
    | with_reducible apply advanceRd_keeps
    | with_reducible apply skipCount_keeps
    | with_reducible apply jobFinish_keeps
    | with_reducible apply fireIndex_keeps
    | with_reducible apply fireLate_keeps
    | extract_lets
    | (intro _; try beta_reduce)
    | split
    | with_reducible refine frame_keeps ?_ rfl rfl rfl rfl rfl rfl rfl rfl rfl (Nat.le_refl _))

theorem firingEnd_keeps (p : Fin 2) (d : Dev) {e0 : Dev} (h_ : Keeps e0 d) :
    Keeps e0 (firingEnd p d) := by
  refine h_.trans ?_
  unfold firingEnd
  repeat' (first
    | with_reducible exact Keeps.refl _
    | with_reducible assumption
    | with_reducible apply Dev.setReg_keeps
    | with_reducible apply Dev.setOut_keeps
    | with_reducible apply Dev.reach_keeps
    | with_reducible apply Dev.setPrt_keeps
    | with_reducible apply prtStatus_keeps
    | with_reducible apply shiftNext_keeps
    | with_reducible apply advanceRd_keeps
    | with_reducible apply jobFinish_keeps
    | extract_lets
    | (intro _; try beta_reduce)
    | split
    | with_reducible refine frame_keeps ?_ rfl rfl rfl rfl rfl rfl rfl rfl rfl (Nat.le_refl _))

theorem endStrobes_keeps (p : Fin 2) (d : Dev) {e0 : Dev} (h_ : Keeps e0 d) :
    Keeps e0 (endStrobes p d) := by
  refine h_.trans ?_
  unfold endStrobes
  repeat' (first
    | with_reducible exact Keeps.refl _
    | with_reducible assumption
    | with_reducible apply Dev.setReg_keeps
    | with_reducible apply Dev.setOut_keeps
    | with_reducible apply Dev.setPrt_keeps
    | extract_lets
    | (intro _; try beta_reduce)
    | split
    | with_reducible refine frame_keeps ?_ rfl rfl rfl rfl rfl rfl rfl rfl rfl (Nat.le_refl _))

theorem headFaulted_keeps (p : Fin 2) (d : Dev) {e0 : Dev} (h_ : Keeps e0 d) :
    Keeps e0 (headFaulted p d) := by
  refine h_.trans ?_
  unfold headFaulted
  repeat' (first
    | with_reducible exact Keeps.refl _
    | with_reducible assumption
    | with_reducible apply Dev.setReg_keeps
    | with_reducible apply Dev.setOut_keeps
    | with_reducible apply Dev.setFlag_keeps
    | with_reducible apply raise_keeps
    | with_reducible apply endStrobes_keeps
    | extract_lets
    | (intro _; try beta_reduce)
    | split
    | with_reducible refine frame_keeps ?_ rfl rfl rfl rfl rfl rfl rfl rfl rfl (Nat.le_refl _))

theorem headFault_keeps (p : Fin 2) (low : Bool) (d : Dev) {e0 : Dev} (h_ : Keeps e0 d) :
    Keeps e0 (headFault p low d) := by
  refine h_.trans ?_
  unfold headFault
  repeat' (first
    | with_reducible exact Keeps.refl _
    | with_reducible assumption
    | with_reducible apply Dev.setReg_keeps
    | with_reducible apply Dev.setOut_keeps
    | with_reducible apply Dev.setPrt_keeps
    | with_reducible apply headFaulted_keeps
    | extract_lets
    | (intro _; try beta_reduce)
    | split
    | with_reducible refine frame_keeps ?_ rfl rfl rfl rfl rfl rfl rfl rfl rfl (Nat.le_refl _))

theorem printLeaveRun_keeps (d : Dev) {e0 : Dev} (h_ : Keeps e0 d) :
    Keeps e0 (printLeaveRun d) := by
  refine h_.trans ?_
  unfold printLeaveRun
  repeat' (first
    | with_reducible exact Keeps.refl _
    | with_reducible assumption
    | with_reducible apply Dev.setReg_keeps
    | with_reducible apply Dev.setOut_keeps
    | with_reducible apply endStrobes_keeps
    | with_reducible apply Keeps.forAll
    | extract_lets
    | (intro _; try beta_reduce)
    | split
    | with_reducible refine frame_keeps ?_ rfl rfl rfl rfl rfl rfl rfl rfl rfl (Nat.le_refl _))

theorem feedStep_keeps (src i : Nat) (up : Bool) (d : Dev) {e0 : Dev} (h_ : Keeps e0 d) :
    Keeps e0 (feedStep src i up d) := by
  refine h_.trans ?_
  unfold feedStep
  repeat' (first
    | with_reducible exact Keeps.refl _
    | with_reducible assumption
    | with_reducible apply Dev.setReg_keeps
    | with_reducible apply Dev.setOut_keeps
    | with_reducible apply Dev.setPrt_keeps
    | with_reducible apply prtStatus_keeps
    | with_reducible apply queuePass_keeps
    | with_reducible apply Keeps.forAll
    | extract_lets
    | (intro _; try beta_reduce)
    | split
    | with_reducible refine frame_keeps ?_ rfl rfl rfl rfl rfl rfl rfl rfl rfl (Nat.le_refl _))

theorem densityWrite_keeps (p : Fin 2) (v : Word) (d : Dev) {e0 : Dev} (h_ : Keeps e0 d) :
    Keeps e0 (densityWrite p v d) := by
  refine h_.trans ?_
  unfold densityWrite
  repeat' (first
    | with_reducible exact Keeps.refl _
    | with_reducible assumption
    | with_reducible apply Dev.setReg_keeps
    | with_reducible apply Dev.setOut_keeps
    | with_reducible apply Dev.setFld_keeps
    | with_reducible apply retable_keeps
    | extract_lets
    | (intro _; try beta_reduce)
    | split
    | with_reducible refine frame_keeps ?_ rfl rfl rfl rfl rfl rfl rfl rfl rfl (Nat.le_refl _))

theorem sliceWrite_keeps (p : Fin 2) (v : Word) (d : Dev) {e0 : Dev} (h_ : Keeps e0 d) :
    Keeps e0 (sliceWrite p v d) := by
  refine h_.trans ?_
  unfold sliceWrite
  repeat' (first
    | with_reducible exact Keeps.refl _
    | with_reducible assumption
    | with_reducible apply Dev.setReg_keeps
    | with_reducible apply Dev.setOut_keeps
    | with_reducible apply Dev.setFld_keeps
    | with_reducible apply retable_keeps
    | extract_lets
    | (intro _; try beta_reduce)
    | split
    | with_reducible refine frame_keeps ?_ rfl rfl rfl rfl rfl rfl rfl rfl rfl (Nat.le_refl _))

theorem commitPrtCfg_keeps (p : Fin 2) (v : Word) (d : Dev) {e0 : Dev} (h_ : Keeps e0 d) :
    Keeps e0 (commitPrtCfg p v d) := by
  refine h_.trans ?_
  unfold commitPrtCfg
  repeat' (first
    | with_reducible exact Keeps.refl _
    | with_reducible assumption
    | with_reducible apply Dev.setReg_keeps
    | with_reducible apply Dev.setOut_keeps
    | with_reducible apply Dev.setFlag_keeps
    | with_reducible apply headFaulted_keeps
    | extract_lets
    | (intro _; try beta_reduce)
    | split
    | with_reducible refine frame_keeps ?_ rfl rfl rfl rfl rfl rfl rfl rfl rfl (Nat.le_refl _))

theorem commitRatio_keeps (p : Fin 2) (v : Word) (d : Dev) {e0 : Dev} (h_ : Keeps e0 d) :
    Keeps e0 (commitRatio p v d) := by
  refine h_.trans ?_
  unfold commitRatio
  repeat' (first
    | with_reducible exact Keeps.refl _
    | with_reducible assumption
    | with_reducible apply Dev.setReg_keeps
    | with_reducible apply Dev.setOut_keeps
    | with_reducible apply Dev.setFlag_keeps
    | extract_lets
    | (intro _; try beta_reduce)
    | split
    | with_reducible refine frame_keeps ?_ rfl rfl rfl rfl rfl rfl rfl rfl rfl (Nat.le_refl _))

theorem fbLoss_keeps (c : Nat) (d : Dev) {e0 : Dev} (h_ : Keeps e0 d) :
    Keeps e0 (fbLoss c d) := by
  refine h_.trans ?_
  unfold fbLoss
  repeat' (first
    | with_reducible exact Keeps.refl _
    | with_reducible assumption
    | with_reducible apply Dev.setReg_keeps
    | with_reducible apply Dev.setOut_keeps
    | with_reducible apply laneTrip_keeps
    | with_reducible apply Keeps.forAll
    | extract_lets
    | (intro _; try beta_reduce)
    | split
    | with_reducible refine frame_keeps ?_ rfl rfl rfl rfl rfl rfl rfl rfl rfl (Nat.le_refl _))

theorem fbErr_keeps (c : Fin 16) (i : Nat) (d : Dev) {e0 : Dev} (h_ : Keeps e0 d) :
    Keeps e0 (fbErr c i d) := by
  refine h_.trans ?_
  unfold fbErr
  repeat' (first
    | with_reducible exact Keeps.refl _
    | with_reducible assumption
    | with_reducible apply Dev.setReg_keeps
    | with_reducible apply Dev.setOut_keeps
    | with_reducible apply Dev.setFlag_keeps
    | with_reducible apply raise_keeps
    | with_reducible apply fbLoss_keeps
    | extract_lets
    | (intro _; try beta_reduce)
    | split
    | with_reducible refine frame_keeps ?_ rfl rfl rfl rfl rfl rfl rfl rfl rfl (Nat.le_refl _))

theorem fbUnref_keeps (c : Fin 16) (d : Dev) {e0 : Dev} (h_ : Keeps e0 d) :
    Keeps e0 (fbUnref c d) := by
  refine h_.trans ?_
  unfold fbUnref
  repeat' (first
    | with_reducible exact Keeps.refl _
    | with_reducible assumption
    | with_reducible apply Dev.setReg_keeps
    | with_reducible apply Dev.setOut_keeps
    | with_reducible apply Dev.setFlag_keeps
    | with_reducible apply Dev.setCh_keeps
    | extract_lets
    | (intro _; try beta_reduce)
    | split
    | with_reducible refine frame_keeps ?_ rfl rfl rfl rfl rfl rfl rfl rfl rfl (Nat.le_refl _))

theorem countEdge_keeps (c : Fin 16) (dn : Bool) (ts : DWord) (d : Dev) {e0 : Dev} (h_ : Keeps e0 d) :
    Keeps e0 (countEdge c dn ts d) := by
  refine h_.trans ?_
  unfold countEdge
  repeat' (first
    | with_reducible exact Keeps.refl _
    | with_reducible assumption
    | with_reducible apply Dev.setReg_keeps
    | with_reducible apply Dev.setOut_keeps
    | with_reducible apply Dev.setFlag_keeps
    | with_reducible apply Dev.setCh_keeps
    | with_reducible apply raise_keeps
    | with_reducible apply feedStep_keeps
    | extract_lets
    | (intro _; try beta_reduce)
    | split
    | with_reducible refine frame_keeps ?_ rfl rfl rfl rfl rfl rfl rfl rfl rfl (Nat.le_refl _))

theorem quadStep_keeps (c : Fin 16) (a b : Bool) (held : Nat) (ts : DWord) (d : Dev) {e0 : Dev} (h_ : Keeps e0 d) :
    Keeps e0 (quadStep c a b held ts d) := by
  refine h_.trans ?_
  unfold quadStep
  repeat' (first
    | with_reducible exact Keeps.refl _
    | with_reducible assumption
    | with_reducible apply Dev.setReg_keeps
    | with_reducible apply Dev.setOut_keeps
    | with_reducible apply Dev.setCh_keeps
    | with_reducible apply Dev.reachTs_keeps
    | with_reducible apply fbErr_keeps
    | with_reducible apply fbUnref_keeps
    | with_reducible apply countEdge_keeps
    | extract_lets
    | (intro _; try beta_reduce)
    | split
    | with_reducible refine frame_keeps ?_ rfl rfl rfl rfl rfl rfl rfl rfl rfl (Nat.le_refl _))

theorem hallTo_keeps (c : Fin 16) (uvw : BitVec 3) (held : Nat) (ts : DWord) (d : Dev) {e0 : Dev} (h_ : Keeps e0 d) :
    Keeps e0 (hallTo c uvw held ts d) := by
  refine h_.trans ?_
  unfold hallTo
  repeat' (first
    | with_reducible exact Keeps.refl _
    | with_reducible assumption
    | with_reducible apply Dev.setReg_keeps
    | with_reducible apply Dev.setOut_keeps
    | with_reducible apply Dev.setCh_keeps
    | with_reducible apply Dev.reachTs_keeps
    | with_reducible apply fbErr_keeps
    | with_reducible apply fbUnref_keeps
    | with_reducible apply countEdge_keeps
    | extract_lets
    | (intro _; try beta_reduce)
    | split
    | with_reducible refine frame_keeps ?_ rfl rfl rfl rfl rfl rfl rfl rfl rfl (Nat.le_refl _))

theorem laneShift_keeps (c : Nat) (by_ : Word) (d : Dev) {e0 : Dev} (h_ : Keeps e0 d) :
    Keeps e0 (laneShift c by_ d) := by
  refine h_.trans ?_
  unfold laneShift
  repeat' (first
    | with_reducible exact Keeps.refl _
    | with_reducible assumption
    | with_reducible apply Dev.setReg_keeps
    | with_reducible apply Dev.setOut_keeps
    | with_reducible apply Dev.setLane_keeps
    | with_reducible apply Keeps.forAll
    | extract_lets
    | (intro _; try beta_reduce)
    | split
    | with_reducible refine frame_keeps ?_ rfl rfl rfl rfl rfl rfl rfl rfl rfl (Nat.le_refl _))

theorem moveCount_keeps (c : Fin 16) (by_ : Word) (d : Dev) {e0 : Dev} (h_ : Keeps e0 d) :
    Keeps e0 (moveCount c by_ d) := by
  refine h_.trans ?_
  unfold moveCount
  repeat' (first
    | with_reducible exact Keeps.refl _
    | with_reducible assumption
    | with_reducible apply Dev.setReg_keeps
    | with_reducible apply Dev.setOut_keeps
    | with_reducible apply Dev.setCh_keeps
    | with_reducible apply laneShift_keeps
    | extract_lets
    | (intro _; try beta_reduce)
    | split
    | with_reducible refine frame_keeps ?_ rfl rfl rfl rfl rfl rfl rfl rfl rfl (Nat.le_refl _))

theorem zStep_keeps (c : Fin 16) (held : Nat) (d : Dev) {e0 : Dev} (h_ : Keeps e0 d) :
    Keeps e0 (zStep c held d) := by
  refine h_.trans ?_
  unfold zStep
  repeat' (first
    | with_reducible exact Keeps.refl _
    | with_reducible assumption
    | with_reducible apply Dev.setReg_keeps
    | with_reducible apply Dev.setOut_keeps
    | with_reducible apply Dev.setCh_keeps
    | with_reducible apply moveCount_keeps
    | extract_lets
    | (intro _; try beta_reduce)
    | split
    | with_reducible apply upd_mode
    | with_reducible refine frame_keeps ?_ rfl rfl rfl rfl rfl rfl rfl rfl rfl (Nat.le_refl _))

theorem zeroSpeed_keeps (c : Fin 16) (d : Dev) {e0 : Dev} (h_ : Keeps e0 d) :
    Keeps e0 (zeroSpeed c d) := by
  refine h_.trans ?_
  unfold zeroSpeed
  repeat' (first
    | with_reducible exact Keeps.refl _
    | with_reducible assumption
    | with_reducible apply Dev.setReg_keeps
    | with_reducible apply Dev.setOut_keeps
    | with_reducible apply Dev.setFlag_keeps
    | with_reducible apply Dev.setCh_keeps
    | extract_lets
    | (intro _; try beta_reduce)
    | split
    | with_reducible refine frame_keeps ?_ rfl rfl rfl rfl rfl rfl rfl rfl rfl (Nat.le_refl _))

theorem ssiStart_keeps (c : Fin 16) (d : Dev) {e0 : Dev} (h_ : Keeps e0 d) :
    Keeps e0 (ssiStart c d) := by
  refine h_.trans ?_
  unfold ssiStart
  repeat' (first
    | with_reducible exact Keeps.refl _
    | with_reducible assumption
    | with_reducible apply Dev.setReg_keeps
    | with_reducible apply Dev.setOut_keeps
    | with_reducible apply Dev.setCh_keeps
    | with_reducible apply Dev.reach_keeps
    | extract_lets
    | (intro _; try beta_reduce)
    | split
    | with_reducible refine frame_keeps ?_ rfl rfl rfl rfl rfl rfl rfl rfl rfl (Nat.le_refl _))

theorem rsStart_keeps (c : Fin 16) (d : Dev) {e0 : Dev} (h_ : Keeps e0 d) :
    Keeps e0 (rsStart c d) := by
  refine h_.trans ?_
  unfold rsStart
  repeat' (first
    | with_reducible exact Keeps.refl _
    | with_reducible assumption
    | with_reducible apply Dev.setReg_keeps
    | with_reducible apply Dev.setOut_keeps
    | with_reducible apply Dev.tickFree_keeps
    | with_reducible apply Dev.setCh_keeps
    | with_reducible apply Dev.reach_keeps
    | extract_lets
    | (intro _; try beta_reduce)
    | split
    | with_reducible refine frame_keeps ?_ rfl rfl rfl rfl rfl rfl rfl rfl rfl (Nat.le_refl _))

theorem finishLatches_keeps (c : Fin 16) (p1 : Word) (t1 : DWord) (d : Dev) {e0 : Dev} (h_ : Keeps e0 d) :
    Keeps e0 (finishLatches c p1 t1 d) := by
  refine h_.trans ?_
  unfold finishLatches
  repeat' (first
    | with_reducible exact Keeps.refl _
    | with_reducible assumption
    | with_reducible apply Dev.setReg_keeps
    | with_reducible apply Dev.setOut_keeps
    | with_reducible apply Dev.tickFree_keeps
    | with_reducible apply Dev.setLatch_keeps
    | with_reducible apply Keeps.forAll
    | extract_lets
    | (intro _; try beta_reduce)
    | split
    | with_reducible refine frame_keeps ?_ rfl rfl rfl rfl rfl rfl rfl rfl rfl (Nat.le_refl _))

theorem goodFrame_keeps (c : Fin 16) (f : SerialFrame) (v plen : Nat) (d : Dev) {e0 : Dev} (h_ : Keeps e0 d) :
    Keeps e0 (goodFrame c f v plen d) := by
  refine h_.trans ?_
  unfold goodFrame
  repeat' (first
    | with_reducible exact Keeps.refl _
    | with_reducible assumption
    | with_reducible apply Dev.setReg_keeps
    | with_reducible apply Dev.setOut_keeps
    | with_reducible apply Dev.setFlag_keeps
    | with_reducible apply Dev.tickFree_keeps
    | with_reducible apply Dev.setCh_keeps
    | with_reducible apply finishLatches_keeps
    | extract_lets
    | (intro _; try beta_reduce)
    | split
    | with_reducible apply upd_field
    | with_reducible refine frame_keeps ?_ rfl rfl rfl rfl rfl rfl rfl rfl rfl (Nat.le_refl _))

theorem badFrame_keeps (c : Fin 16) (d : Dev) {e0 : Dev} (h_ : Keeps e0 d) :
    Keeps e0 (badFrame c d) := by
  refine h_.trans ?_
  unfold badFrame
  repeat' (first
    | with_reducible exact Keeps.refl _
    | with_reducible assumption
    | with_reducible apply Dev.setReg_keeps
    | with_reducible apply Dev.setOut_keeps
    | with_reducible apply Dev.setCh_keeps
    | with_reducible apply fbErr_keeps
    | extract_lets
    | (intro _; try beta_reduce)
    | split
    | with_reducible refine frame_keeps ?_ rfl rfl rfl rfl rfl rfl rfl rfl rfl (Nat.le_refl _))

theorem reportDelay_keeps (c : Fin 16) (delay : Nat) (d : Dev) {e0 : Dev} (h_ : Keeps e0 d) :
    Keeps e0 (reportDelay c delay d) := by
  refine h_.trans ?_
  unfold reportDelay
  repeat' (first
    | with_reducible exact Keeps.refl _
    | with_reducible assumption
    | with_reducible apply Dev.setReg_keeps
    | with_reducible apply Dev.setOut_keeps
    | extract_lets
    | (intro _; try beta_reduce)
    | split
    | with_reducible refine frame_keeps ?_ rfl rfl rfl rfl rfl rfl rfl rfl rfl (Nat.le_refl _))

theorem ssiDone_keeps (c : Fin 16) (ts : DWord) (d : Dev) {e0 : Dev} (h_ : Keeps e0 d) :
    Keeps e0 (ssiDone c ts d) := by
  refine h_.trans ?_
  unfold ssiDone
  repeat' (first
    | with_reducible exact Keeps.refl _
    | with_reducible assumption
    | with_reducible apply Dev.setReg_keeps
    | with_reducible apply Dev.setOut_keeps
    | with_reducible apply Dev.setCh_keeps
    | with_reducible apply Dev.reach_keeps
    | extract_lets
    | (intro _; try beta_reduce)
    | split
    | with_reducible refine frame_keeps ?_ rfl rfl rfl rfl rfl rfl rfl rfl rfl (Nat.le_refl _))

theorem serialEnd_keeps (c : Fin 16) (f : SerialFrame) (d : Dev) {e0 : Dev} (h_ : Keeps e0 d) :
    Keeps e0 (serialEnd c f d) := by
  refine h_.trans ?_
  unfold serialEnd
  extract_lets ty d1 auto late r d2 d3
  have k1 : Keeps d d1 := Dev.reachTs_keeps _ _ (Keeps.refl _)
  have k2 : Keeps d d2 := by
    show Keeps d (if ty = 3 then ssiDone c f.ts d1 else d1)
    split
    · exact ssiDone_keeps _ _ _ k1
    · exact k1
  have k3 : Keeps d d3 := by
    show Keeps d (if auto = true then reportDelay c f.delay d2 else d2).tickFree
    apply Dev.tickFree_keeps
    split
    · exact reportDelay_keeps _ _ _ k2
    · exact k2
  clear_value r d3
  split
  · exact Keeps.refl _
  · split
    · exact badFrame_keeps _ _ k3
    · exact goodFrame_keeps _ _ _ _ _ k3

theorem laneAlign_keeps (c : Fin 16) (ts : DWord) (d : Dev) {e0 : Dev} (h_ : Keeps e0 d) :
    Keeps e0 (laneAlign c ts d) := by
  refine h_.trans ?_
  unfold laneAlign
  repeat' (first
    | with_reducible exact Keeps.refl _
    | with_reducible assumption
    | with_reducible apply Dev.setReg_keeps
    | with_reducible apply Dev.setOut_keeps
    | with_reducible apply Dev.setLane_keeps
    | with_reducible apply Keeps.forAll
    | extract_lets
    | (intro _; try beta_reduce)
    | split
    | with_reducible refine frame_keeps ?_ rfl rfl rfl rfl rfl rfl rfl rfl rfl (Nat.le_refl _))

theorem edgeSample_keeps (c : Fin 16) (d : Dev) {e0 : Dev} (h_ : Keeps e0 d) :
    Keeps e0 (edgeSample c d) := by
  refine h_.trans ?_
  unfold edgeSample
  repeat' (first
    | with_reducible exact Keeps.refl _
    | with_reducible assumption
    | with_reducible apply Dev.setReg_keeps
    | with_reducible apply Dev.setOut_keeps
    | with_reducible apply Dev.setFlag_keeps
    | with_reducible apply Dev.setCh_keeps
    | with_reducible apply Dev.setLane_keeps
    | with_reducible apply Keeps.forAll
    | extract_lets
    | (intro _; try beta_reduce)
    | split
    | with_reducible refine frame_keeps ?_ rfl rfl rfl rfl rfl rfl rfl rfl rfl (Nat.le_refl _))

theorem sincosStep_keeps (c : Fin 16) (sn cs : BitVec 14) (quadrants : BitVec 32) (fast : Bool) (ts : DWord) (d : Dev) {e0 : Dev} (h_ : Keeps e0 d) :
    Keeps e0 (sincosStep c sn cs quadrants fast ts d) := by
  refine h_.trans ?_
  unfold sincosStep
  repeat' (first
    | with_reducible exact Keeps.refl _
    | with_reducible assumption
    | with_reducible apply Dev.setReg_keeps
    | with_reducible apply Dev.setOut_keeps
    | with_reducible apply Dev.setFlag_keeps
    | with_reducible apply Dev.tickFree_keeps
    | with_reducible apply Dev.setCh_keeps
    | with_reducible apply Dev.reachTs_keeps
    | with_reducible apply fbErr_keeps
    | with_reducible apply fbUnref_keeps
    | with_reducible apply finishLatches_keeps
    | with_reducible apply laneAlign_keeps
    | with_reducible apply edgeSample_keeps
    | extract_lets
    | (intro _; try beta_reduce)
    | split
    | with_reducible refine frame_keeps ?_ rfl rfl rfl rfl rfl rfl rfl rfl rfl (Nat.le_refl _))

theorem capStep_keeps (j : Fin 8) (rising : Bool) (held : Nat) (ts : DWord) (d : Dev) {e0 : Dev} (h_ : Keeps e0 d) :
    Keeps e0 (capStep j rising held ts d) := by
  refine h_.trans ?_
  unfold capStep
  repeat' (first
    | with_reducible exact Keeps.refl _
    | with_reducible assumption
    | with_reducible apply Dev.setReg_keeps
    | with_reducible apply Dev.setOut_keeps
    | with_reducible apply Dev.setLatch_keeps
    | with_reducible apply Dev.reachTs_keeps
    | extract_lets
    | (intro _; try beta_reduce)
    | split
    | with_reducible refine frame_keeps ?_ rfl rfl rfl rfl rfl rfl rfl rfl rfl (Nat.le_refl _))

theorem latchTimeout_keeps (j : Fin 8) (d : Dev) {e0 : Dev} (h_ : Keeps e0 d) :
    Keeps e0 (latchTimeout j d) := by
  refine h_.trans ?_
  unfold latchTimeout
  repeat' (first
    | with_reducible exact Keeps.refl _
    | with_reducible assumption
    | with_reducible apply Dev.setReg_keeps
    | with_reducible apply Dev.setOut_keeps
    | with_reducible apply Dev.setLatch_keeps
    | extract_lets
    | (intro _; try beta_reduce)
    | split
    | with_reducible refine frame_keeps ?_ rfl rfl rfl rfl rfl rfl rfl rfl rfl (Nat.le_refl _))

theorem setPos_keeps (c : Fin 16) (setval : Word) (d : Dev) {e0 : Dev} (h_ : Keeps e0 d) :
    Keeps e0 (setPos c setval d) := by
  refine h_.trans ?_
  unfold setPos
  repeat' (first
    | with_reducible exact Keeps.refl _
    | with_reducible assumption
    | with_reducible apply Dev.setReg_keeps
    | with_reducible apply Dev.setOut_keeps
    | with_reducible apply moveCount_keeps
    | extract_lets
    | (intro _; try beta_reduce)
    | split
    | with_reducible refine frame_keeps ?_ rfl rfl rfl rfl rfl rfl rfl rfl rfl (Nat.le_refl _))

theorem refSet_keeps (c : Fin 16) (d : Dev) {e0 : Dev} (h_ : Keeps e0 d) :
    Keeps e0 (refSet c d) := by
  refine h_.trans ?_
  unfold refSet
  repeat' (first
    | with_reducible exact Keeps.refl _
    | with_reducible assumption
    | with_reducible apply Dev.setReg_keeps
    | with_reducible apply Dev.setOut_keeps
    | with_reducible apply Dev.setFlag_keeps
    | extract_lets
    | (intro _; try beta_reduce)
    | split
    | with_reducible refine frame_keeps ?_ rfl rfl rfl rfl rfl rfl rfl rfl rfl (Nat.le_refl _))

theorem zArm_keeps (c : Fin 16) (d : Dev) {e0 : Dev} (h_ : Keeps e0 d) :
    Keeps e0 (zArm c d) := by
  refine h_.trans ?_
  unfold zArm
  repeat' (first
    | with_reducible exact Keeps.refl _
    | with_reducible assumption
    | with_reducible apply Dev.setReg_keeps
    | with_reducible apply Dev.setOut_keeps
    | with_reducible apply Dev.setCh_keeps
    | extract_lets
    | (intro _; try beta_reduce)
    | split
    | with_reducible refine frame_keeps ?_ rfl rfl rfl rfl rfl rfl rfl rfl rfl (Nat.le_refl _))

theorem reArm_keeps (j : Fin 8) (d : Dev) {e0 : Dev} (h_ : Keeps e0 d) :
    Keeps e0 (reArm j d) := by
  refine h_.trans ?_
  unfold reArm
  repeat' (first
    | with_reducible exact Keeps.refl _
    | with_reducible assumption
    | with_reducible apply Dev.setReg_keeps
    | with_reducible apply Dev.setOut_keeps
    | with_reducible apply Dev.setLatch_keeps
    | extract_lets
    | (intro _; try beta_reduce)
    | split
    | with_reducible refine frame_keeps ?_ rfl rfl rfl rfl rfl rfl rfl rfl rfl (Nat.le_refl _))

theorem commitFbCfg_keeps (c : Fin 16) (v : Word) (d : Dev) {e0 : Dev} (h_ : Keeps e0 d) :
    Keeps e0 (commitFbCfg c v d) := by
  refine h_.trans ?_
  unfold commitFbCfg
  repeat' (first
    | with_reducible exact Keeps.refl _
    | with_reducible assumption
    | with_reducible apply Dev.setReg_keeps
    | with_reducible apply Dev.setOut_keeps
    | with_reducible apply Dev.setFlag_keeps
    | with_reducible apply Dev.setCh_keeps
    | with_reducible apply Dev.setLatch_keeps
    | with_reducible apply fbErr_keeps
    | with_reducible apply Keeps.forAll
    | extract_lets
    | (intro _; try beta_reduce)
    | split
    | with_reducible refine frame_keeps ?_ rfl rfl rfl rfl rfl rfl rfl rfl rfl (Nat.le_refl _))

theorem speedQuad_keeps (edge : DWord) (c : Fin 16) (d : Dev) {e0 : Dev} (h_ : Keeps e0 d) :
    Keeps e0 (speedQuad edge c d) := by
  refine h_.trans ?_
  unfold speedQuad
  repeat' (first
    | with_reducible exact Keeps.refl _
    | with_reducible assumption
    | with_reducible apply Dev.setReg_keeps
    | with_reducible apply Dev.setOut_keeps
    | with_reducible apply Dev.setFlag_keeps
    | with_reducible apply Dev.setCh_keeps
    | extract_lets
    | (intro _; try beta_reduce)
    | split
    | with_reducible refine frame_keeps ?_ rfl rfl rfl rfl rfl rfl rfl rfl rfl (Nat.le_refl _))

theorem speedSerial_keeps (c : Fin 16) (d : Dev) {e0 : Dev} (h_ : Keeps e0 d) :
    Keeps e0 (speedSerial c d) := by
  refine h_.trans ?_
  unfold speedSerial
  repeat' (first
    | with_reducible exact Keeps.refl _
    | with_reducible assumption
    | with_reducible apply Dev.setReg_keeps
    | with_reducible apply Dev.setOut_keeps
    | with_reducible apply Dev.setFlag_keeps
    | with_reducible apply Dev.setCh_keeps
    | extract_lets
    | (intro _; try beta_reduce)
    | split
    | with_reducible refine frame_keeps ?_ rfl rfl rfl rfl rfl rfl rfl rfl rfl (Nat.le_refl _))

theorem fbCapture_keeps (edge : DWord) (c : Fin 16) (d : Dev) {e0 : Dev} (h_ : Keeps e0 d) :
    Keeps e0 (fbCapture edge c d) := by
  refine h_.trans ?_
  unfold fbCapture
  repeat' (first
    | with_reducible exact Keeps.refl _
    | with_reducible assumption
    | with_reducible apply Dev.setReg_keeps
    | with_reducible apply Dev.setOut_keeps
    | with_reducible apply Dev.setCh_keeps
    | with_reducible apply speedQuad_keeps
    | with_reducible apply speedSerial_keeps
    | extract_lets
    | (intro _; try beta_reduce)
    | split
    | with_reducible refine frame_keeps ?_ rfl rfl rfl rfl rfl rfl rfl rfl rfl (Nat.le_refl _))

theorem fbCaptureEnd_keeps (c : Fin 16) (d : Dev) {e0 : Dev} (h_ : Keeps e0 d) :
    Keeps e0 (fbCaptureEnd c d) := by
  refine h_.trans ?_
  unfold fbCaptureEnd
  repeat' (first
    | with_reducible exact Keeps.refl _
    | with_reducible assumption
    | with_reducible apply Dev.setReg_keeps
    | with_reducible apply Dev.setOut_keeps
    | with_reducible apply Dev.setFlag_keeps
    | with_reducible apply Dev.setCh_keeps
    | extract_lets
    | (intro _; try beta_reduce)
    | split
    | with_reducible refine frame_keeps ?_ rfl rfl rfl rfl rfl rfl rfl rfl rfl (Nat.le_refl _))

theorem latchCapture_keeps (j : Fin 8) (d : Dev) {e0 : Dev} (h_ : Keeps e0 d) :
    Keeps e0 (latchCapture j d) := by
  refine h_.trans ?_
  unfold latchCapture
  repeat' (first
    | with_reducible exact Keeps.refl _
    | with_reducible assumption
    | with_reducible apply Dev.setReg_keeps
    | with_reducible apply Dev.setOut_keeps
    | with_reducible apply Dev.setLatch_keeps
    | extract_lets
    | (intro _; try beta_reduce)
    | split
    | with_reducible refine frame_keeps ?_ rfl rfl rfl rfl rfl rfl rfl rfl rfl (Nat.le_refl _))

end Sys2Proof.Machine
end

