-- ==== Sys2Proof/Laws/KeepsAxes.lean ====
section
/-! SUPPORT. What the operations of Machine/Axes.lean keep (Laws/Keeps.lean). -/
set_option linter.unusedTactic false
set_option linter.unreachableTactic false
namespace Sys2Proof.Machine

theorem axAlert_keeps (n : Fin 16) (cause : Nat) (d : Dev) {e0 : Dev} (h_ : Keeps e0 d) :
    Keeps e0 (axAlert n cause d) := by
  refine h_.trans ?_
  unfold axAlert
  repeat' (first
    | with_reducible exact Keeps.refl _
    | with_reducible assumption
    | with_reducible apply Dev.setReg_keeps
    | with_reducible apply Dev.setOut_keeps
    | with_reducible apply Dev.setFld_keeps
    | with_reducible apply Dev.setFlag_keeps
    | with_reducible apply raise_keeps
    | with_reducible apply Dev.setAxis_keeps
    | extract_lets
    | (intro _; try beta_reduce)
    | split
    | with_reducible refine frame_keeps ?_ rfl rfl rfl rfl rfl rfl rfl rfl rfl (Nat.le_refl _))

theorem axDone_keeps (n : Fin 16) (d : Dev) {e0 : Dev} (h_ : Keeps e0 d) :
    Keeps e0 (axDone n d) := by
  refine h_.trans ?_
  unfold axDone
  repeat' (first
    | with_reducible exact Keeps.refl _
    | with_reducible assumption
    | with_reducible apply Dev.setReg_keeps
    | with_reducible apply Dev.setOut_keeps
    | with_reducible apply Dev.setFlag_keeps
    | with_reducible apply raise_keeps
    | extract_lets
    | (intro _; try beta_reduce)
    | split
    | with_reducible refine frame_keeps ?_ rfl rfl rfl rfl rfl rfl rfl rfl rfl (Nat.le_refl _))

theorem commitGroup_keeps (g : Fin 4) (v : Word) (d : Dev) {e0 : Dev} (h_ : Keeps e0 d) :
    Keeps e0 (commitGroup g v d) := by
  refine h_.trans ?_
  unfold commitGroup
  repeat' (first
    | with_reducible exact Keeps.refl _
    | with_reducible assumption
    | with_reducible apply Dev.setReg_keeps
    | with_reducible apply Dev.setOut_keeps
    | extract_lets
    | (intro _; try beta_reduce)
    | split
    | with_reducible refine frame_keeps ?_ rfl rfl rfl rfl rfl rfl rfl rfl rfl (Nat.le_refl _))

theorem segPush_keeps (n : Fin 16) (d : Dev) {e0 : Dev} (h_ : Keeps e0 d) :
    Keeps e0 (segPush n d) := by
  refine h_.trans ?_
  unfold segPush
  repeat' (first
    | with_reducible exact Keeps.refl _
    | with_reducible assumption
    | with_reducible apply Dev.setReg_keeps
    | with_reducible apply Dev.setOut_keeps
    | with_reducible apply Dev.setGroup_keeps
    | with_reducible apply axAlert_keeps
    | extract_lets
    | (intro _; try beta_reduce)
    | split
    | with_reducible refine frame_keeps ?_ rfl rfl rfl rfl rfl rfl rfl rfl rfl (Nat.le_refl _))

theorem segFlush_keeps (n : Fin 16) (d : Dev) {e0 : Dev} (h_ : Keeps e0 d) :
    Keeps e0 (segFlush n d) := by
  refine h_.trans ?_
  unfold segFlush
  repeat' (first
    | with_reducible exact Keeps.refl _
    | with_reducible assumption
    | with_reducible apply Dev.setReg_keeps
    | with_reducible apply Dev.setOut_keeps
    | with_reducible apply Dev.setGroup_keeps
    | extract_lets
    | (intro _; try beta_reduce)
    | split
    | with_reducible refine frame_keeps ?_ rfl rfl rfl rfl rfl rfl rfl rfl rfl (Nat.le_refl _))

theorem groupBreak_keeps (n : Fin 16) (d : Dev) {e0 : Dev} (h_ : Keeps e0 d) :
    Keeps e0 (groupBreak n d) := by
  refine h_.trans ?_
  unfold groupBreak
  repeat' (first
    | with_reducible exact Keeps.refl _
    | with_reducible assumption
    | with_reducible apply Dev.setReg_keeps
    | with_reducible apply Dev.setOut_keeps
    | with_reducible apply Dev.setAxis_keeps
    | with_reducible apply Dev.setGroup_keeps
    | with_reducible apply axAlert_keeps
    | with_reducible apply Keeps.foldl
    | extract_lets
    | (intro _; try beta_reduce)
    | split
    | with_reducible refine frame_keeps ?_ rfl rfl rfl rfl rfl rfl rfl rfl rfl (Nat.le_refl _))

theorem segStart_keeps (g : Fin 4) (d : Dev) {e0 : Dev} (h_ : Keeps e0 d) :
    Keeps e0 (segStart g d) := by
  refine h_.trans ?_
  unfold segStart
  repeat' (first
    | with_reducible exact Keeps.refl _
    | with_reducible assumption
    | with_reducible apply Dev.setReg_keeps
    | with_reducible apply Dev.setOut_keeps
    | with_reducible apply Dev.setAxis_keeps
    | with_reducible apply Dev.setGroup_keeps
    | with_reducible apply Keeps.foldl
    | extract_lets
    | (intro _; try beta_reduce)
    | split
    | with_reducible refine frame_keeps ?_ rfl rfl rfl rfl rfl rfl rfl rfl rfl (Nat.le_refl _))

theorem segRest_keeps (s : Seg) (m : Fin 16) (d : Dev) {e0 : Dev} (h_ : Keeps e0 d) :
    Keeps e0 (segRest s m d) := by
  refine h_.trans ?_
  unfold segRest
  repeat' (first
    | with_reducible exact Keeps.refl _
    | with_reducible assumption
    | with_reducible apply Dev.setReg_keeps
    | with_reducible apply Dev.setOut_keeps
    | with_reducible apply Dev.setAxis_keeps
    | extract_lets
    | (intro _; try beta_reduce)
    | split
    | with_reducible refine frame_keeps ?_ rfl rfl rfl rfl rfl rfl rfl rfl rfl (Nat.le_refl _))

theorem segEnd_keeps (commits : Bool) (g : Fin 4) (d : Dev) {e0 : Dev} (h_ : Keeps e0 d) :
    Keeps e0 (segEnd commits g d) := by
  refine h_.trans ?_
  unfold segEnd
  repeat' (first
    | with_reducible exact Keeps.refl _
    | with_reducible assumption
    | with_reducible apply Dev.setReg_keeps
    | with_reducible apply Dev.setOut_keeps
    | with_reducible apply Dev.setFlag_keeps
    | with_reducible apply Dev.setAxis_keeps
    | with_reducible apply Dev.setGroup_keeps
    | with_reducible apply axAlert_keeps
    | with_reducible apply axDone_keeps
    | with_reducible apply segStart_keeps
    | with_reducible apply segRest_keeps
    | with_reducible apply Keeps.foldl
    | extract_lets
    | (intro _; try beta_reduce)
    | split
    | with_reducible refine frame_keeps ?_ rfl rfl rfl rfl rfl rfl rfl rfl rfl (Nat.le_refl _))

theorem groupEdge_keeps (commits : Bool) (g : Fin 4) (d : Dev) {e0 : Dev} (h_ : Keeps e0 d) :
    Keeps e0 (groupEdge commits g d) := by
  refine h_.trans ?_
  unfold groupEdge
  repeat' (first
    | with_reducible exact Keeps.refl _
    | with_reducible assumption
    | with_reducible apply Dev.setReg_keeps
    | with_reducible apply Dev.setOut_keeps
    | with_reducible apply segStart_keeps
    | with_reducible apply segEnd_keeps
    | extract_lets
    | (intro _; try beta_reduce)
    | split
    | with_reducible refine frame_keeps ?_ rfl rfl rfl rfl rfl rfl rfl rfl rfl (Nat.le_refl _))

theorem groupsHold_keeps (d : Dev) {e0 : Dev} (h_ : Keeps e0 d) :
    Keeps e0 (groupsHold d) := by
  refine h_.trans ?_
  unfold groupsHold
  repeat' (first
    | with_reducible exact Keeps.refl _
    | with_reducible assumption
    | with_reducible apply Dev.setReg_keeps
    | with_reducible apply Dev.setOut_keeps
    | with_reducible apply groupEdge_keeps
    | with_reducible apply Keeps.foldl
    | extract_lets
    | (intro _; try beta_reduce)
    | split
    | with_reducible refine frame_keeps ?_ rfl rfl rfl rfl rfl rfl rfl rfl rfl (Nat.le_refl _))

theorem gearEdge_keeps (n : Fin 16) (d : Dev) {e0 : Dev} (h_ : Keeps e0 d) :
    Keeps e0 (gearEdge n d) := by
  refine h_.trans ?_
  unfold gearEdge
  repeat' (first
    | with_reducible exact Keeps.refl _
    | with_reducible assumption
    | with_reducible apply Dev.setReg_keeps
    | with_reducible apply Dev.setOut_keeps
    | with_reducible apply Dev.setAxis_keeps
    | extract_lets
    | (intro _; try beta_reduce)
    | split
    | with_reducible refine frame_keeps ?_ rfl rfl rfl rfl rfl rfl rfl rfl rfl (Nat.le_refl _))

theorem planAll_keeps (d : Dev) {e0 : Dev} (h_ : Keeps e0 d) :
    Keeps e0 (planAll d) := by
  refine h_.trans ?_
  unfold planAll
  repeat' (first
    | with_reducible exact Keeps.refl _
    | with_reducible assumption
    | with_reducible apply Dev.setReg_keeps
    | with_reducible apply Dev.setOut_keeps
    | with_reducible apply Dev.tickFree_keeps
    | with_reducible apply Dev.setAxis_keeps
    | with_reducible apply Keeps.foldl
    | extract_lets
    | (intro _; try beta_reduce)
    | split
    | with_reducible refine frame_keeps ?_ rfl rfl rfl rfl rfl rfl rfl rfl rfl (Nat.le_refl _))

theorem axisStart_keeps (n : Fin 16) (d : Dev) {e0 : Dev} (h_ : Keeps e0 d) :
    Keeps e0 (axisStart n d) := by
  refine h_.trans ?_
  unfold axisStart
  repeat' (first
    | with_reducible exact Keeps.refl _
    | with_reducible assumption
    | with_reducible apply Dev.setReg_keeps
    | with_reducible apply Dev.setOut_keeps
    | with_reducible apply Dev.setFlag_keeps
    | with_reducible apply Dev.setAxis_keeps
    | with_reducible apply laneStart_keeps
    | with_reducible apply laneStop_keeps
    | with_reducible apply axAlert_keeps
    | with_reducible apply groupBreak_keeps
    | extract_lets
    | (intro _; try beta_reduce)
    | split
    | with_reducible apply upd_fb
    | with_reducible refine frame_keeps ?_ rfl rfl rfl rfl rfl rfl rfl rfl rfl (Nat.le_refl _))

theorem startSample_keeps (c : Fin 16) (d : Dev) {e0 : Dev} (h_ : Keeps e0 d) :
    Keeps e0 (startSample c d) := by
  refine h_.trans ?_
  unfold startSample
  repeat' (first
    | with_reducible exact Keeps.refl _
    | with_reducible assumption
    | with_reducible apply Dev.setReg_keeps
    | with_reducible apply Dev.setOut_keeps
    | with_reducible apply Dev.setAxis_keeps
    | with_reducible apply lanePhase_keeps
    | with_reducible apply Keeps.forAll
    | extract_lets
    | (intro _; try beta_reduce)
    | split
    | with_reducible refine frame_keeps ?_ rfl rfl rfl rfl rfl rfl rfl rfl rfl (Nat.le_refl _))

theorem axisStop_keeps (n : Fin 16) (d : Dev) {e0 : Dev} (h_ : Keeps e0 d) :
    Keeps e0 (axisStop n d) := by
  refine h_.trans ?_
  unfold axisStop
  repeat' (first
    | with_reducible exact Keeps.refl _
    | with_reducible assumption
    | with_reducible apply Dev.setReg_keeps
    | with_reducible apply Dev.setOut_keeps
    | with_reducible apply Dev.setFlag_keeps
    | with_reducible apply Dev.setAxis_keeps
    | with_reducible apply laneStop_keeps
    | with_reducible apply groupBreak_keeps
    | extract_lets
    | (intro _; try beta_reduce)
    | split
    | with_reducible refine frame_keeps ?_ rfl rfl rfl rfl rfl rfl rfl rfl rfl (Nat.le_refl _))

theorem axisMode_keeps (n : Fin 16) (mode : Nat) (d : Dev) {e0 : Dev} (h_ : Keeps e0 d) :
    Keeps e0 (axisMode n mode d) := by
  refine h_.trans ?_
  unfold axisMode
  repeat' (first
    | with_reducible exact Keeps.refl _
    | with_reducible assumption
    | with_reducible apply Dev.setReg_keeps
    | with_reducible apply Dev.setOut_keeps
    | with_reducible apply Dev.setFld_keeps
    | with_reducible apply Dev.setAxis_keeps
    | with_reducible apply axAlert_keeps
    | with_reducible apply groupBreak_keeps
    | extract_lets
    | (intro _; try beta_reduce)
    | split
    | with_reducible refine frame_keeps ?_ rfl rfl rfl rfl rfl rfl rfl rfl rfl (Nat.le_refl _))

theorem axisEn_keeps (n : Fin 16) (en : Bool) (d : Dev) {e0 : Dev} (h_ : Keeps e0 d) :
    Keeps e0 (axisEn n en d) := by
  refine h_.trans ?_
  unfold axisEn
  repeat' (first
    | with_reducible exact Keeps.refl _
    | with_reducible assumption
    | with_reducible apply Dev.setReg_keeps
    | with_reducible apply Dev.setOut_keeps
    | with_reducible apply Dev.setFlag_keeps
    | with_reducible apply laneStop_keeps
    | with_reducible apply axisStart_keeps
    | with_reducible apply axisStop_keeps
    | extract_lets
    | (intro _; try beta_reduce)
    | split
    | with_reducible refine frame_keeps ?_ rfl rfl rfl rfl rfl rfl rfl rfl rfl (Nat.le_refl _))

theorem commitAxis_keeps (n : Fin 16) (ofs : Nat) (v : Word) (d : Dev) {e0 : Dev} (h_ : Keeps e0 d) :
    Keeps e0 (commitAxis n ofs v d) := by
  refine h_.trans ?_
  unfold commitAxis
  repeat' (first
    | with_reducible exact Keeps.refl _
    | with_reducible assumption
    | with_reducible apply Dev.setReg_keeps
    | with_reducible apply Dev.setOut_keeps
    | with_reducible apply axAlert_keeps
    | extract_lets
    | (intro _; try beta_reduce)
    | split
    | with_reducible refine frame_keeps ?_ rfl rfl rfl rfl rfl rfl rfl rfl rfl (Nat.le_refl _))

theorem axisLimit_keeps (n : Fin 16) (d : Dev) {e0 : Dev} (h_ : Keeps e0 d) :
    Keeps e0 (axisLimit n d) := by
  refine h_.trans ?_
  unfold axisLimit
  repeat' (first
    | with_reducible exact Keeps.refl _
    | with_reducible assumption
    | with_reducible apply Dev.setReg_keeps
    | with_reducible apply Dev.setOut_keeps
    | with_reducible apply Dev.setFld_keeps
    | with_reducible apply Dev.setFlag_keeps
    | with_reducible apply Dev.setAxis_keeps
    | with_reducible apply axAlert_keeps
    | with_reducible apply groupBreak_keeps
    | extract_lets
    | (intro _; try beta_reduce)
    | split
    | with_reducible refine frame_keeps ?_ rfl rfl rfl rfl rfl rfl rfl rfl rfl (Nat.le_refl _))

theorem axesCommit_keeps (d : Dev) {e0 : Dev} (h_ : Keeps e0 d) :
    Keeps e0 (axesCommit d) := by
  refine h_.trans ?_
  unfold axesCommit
  repeat' (first
    | with_reducible exact Keeps.refl _
    | with_reducible assumption
    | with_reducible apply Dev.setReg_keeps
    | with_reducible apply Dev.setOut_keeps
    | with_reducible apply Dev.setFlag_keeps
    | with_reducible apply segPush_keeps
    | with_reducible apply segFlush_keeps
    | with_reducible apply groupEdge_keeps
    | with_reducible apply axisMode_keeps
    | with_reducible apply axisEn_keeps
    | with_reducible apply axisLimit_keeps
    | with_reducible apply Keeps.foldl
    | extract_lets
    | (intro _; try beta_reduce)
    | split
    | with_reducible refine frame_keeps ?_ rfl rfl rfl rfl rfl rfl rfl rfl rfl (Nat.le_refl _))

theorem dirTo_keeps (n : Fin 16) (ofs : Nat) (d : Dev) {e0 : Dev} (h_ : Keeps e0 d) :
    Keeps e0 (dirTo n ofs d) := by
  refine h_.trans ?_
  unfold dirTo
  repeat' (first
    | with_reducible exact Keeps.refl _
    | with_reducible assumption
    | with_reducible apply Dev.setReg_keeps
    | with_reducible apply Dev.setOut_keeps
    | with_reducible apply Dev.setAxis_keeps
    | extract_lets
    | (intro _; try beta_reduce)
    | split
    | with_reducible refine frame_keeps ?_ rfl rfl rfl rfl rfl rfl rfl rfl rfl (Nat.le_refl _))

theorem dirEdge_keeps (n : Fin 16) (d : Dev) {e0 : Dev} (h_ : Keeps e0 d) :
    Keeps e0 (dirEdge n d) := by
  refine h_.trans ?_
  unfold dirEdge
  repeat' (first
    | with_reducible exact Keeps.refl _
    | with_reducible assumption
    | with_reducible apply Dev.setReg_keeps
    | with_reducible apply Dev.setOut_keeps
    | with_reducible apply Dev.setAxis_keeps
    | extract_lets
    | (intro _; try beta_reduce)
    | split
    | with_reducible refine frame_keeps ?_ rfl rfl rfl rfl rfl rfl rfl rfl rfl (Nat.le_refl _))

theorem axisEnd_keeps (commits : Bool) (n : Fin 16) (d : Dev) {e0 : Dev} (h_ : Keeps e0 d) :
    Keeps e0 (axisEnd commits n d) := by
  refine h_.trans ?_
  unfold axisEnd
  repeat' (first
    | with_reducible exact Keeps.refl _
    | with_reducible assumption
    | with_reducible apply Dev.setReg_keeps
    | with_reducible apply Dev.setOut_keeps
    | with_reducible apply Dev.setFlag_keeps
    | with_reducible apply Dev.setAxis_keeps
    | with_reducible apply axAlert_keeps
    | with_reducible apply axDone_keeps
    | with_reducible apply dirTo_keeps
    | extract_lets
    | (intro _; try beta_reduce)
    | split
    | with_reducible refine frame_keeps ?_ rfl rfl rfl rfl rfl rfl rfl rfl rfl (Nat.le_refl _))

theorem axesEnd_keeps (commits : Bool) (d : Dev) {e0 : Dev} (h_ : Keeps e0 d) :
    Keeps e0 (axesEnd commits d) := by
  refine h_.trans ?_
  unfold axesEnd
  repeat' (first
    | with_reducible exact Keeps.refl _
    | with_reducible assumption
    | with_reducible apply Dev.setReg_keeps
    | with_reducible apply Dev.setOut_keeps
    | with_reducible apply axisEnd_keeps
    | with_reducible apply Keeps.foldl
    | extract_lets
    | (intro _; try beta_reduce)
    | split
    | with_reducible refine frame_keeps ?_ rfl rfl rfl rfl rfl rfl rfl rfl rfl (Nat.le_refl _))

theorem axisRun_keeps (commits : Bool) (n : Fin 16) (d : Dev) {e0 : Dev} (h_ : Keeps e0 d) :
    Keeps e0 (axisRun commits n d) := by
  refine h_.trans ?_
  unfold axisRun
  repeat' (first
    | with_reducible exact Keeps.refl _
    | with_reducible assumption
    | with_reducible apply Dev.setReg_keeps
    | with_reducible apply Dev.setOut_keeps
    | with_reducible apply Dev.setAxis_keeps
    | extract_lets
    | (intro _; try beta_reduce)
    | split
    | with_reducible refine frame_keeps ?_ rfl rfl rfl rfl rfl rfl rfl rfl rfl (Nat.le_refl _))

theorem axisStatus_keeps (n : Fin 16) (d : Dev) {e0 : Dev} (h_ : Keeps e0 d) :
    Keeps e0 (axisStatus n d) := by
  refine h_.trans ?_
  unfold axisStatus
  repeat' (first
    | with_reducible exact Keeps.refl _
    | with_reducible assumption
    | with_reducible apply Dev.setReg_keeps
    | with_reducible apply Dev.setOut_keeps
    | with_reducible apply Dev.setFlag_keeps
    | extract_lets
    | (intro _; try beta_reduce)
    | split
    | with_reducible refine frame_keeps ?_ rfl rfl rfl rfl rfl rfl rfl rfl rfl (Nat.le_refl _))

theorem axesRun_keeps (commits : Bool) (d : Dev) {e0 : Dev} (h_ : Keeps e0 d) :
    Keeps e0 (axesRun commits d) := by
  refine h_.trans ?_
  unfold axesRun
  repeat' (first
    | with_reducible exact Keeps.refl _
    | with_reducible assumption
    | with_reducible apply Dev.setReg_keeps
    | with_reducible apply Dev.setOut_keeps
    | with_reducible apply gearEdge_keeps
    | with_reducible apply dirEdge_keeps
    | with_reducible apply axisRun_keeps
    | with_reducible apply axisStatus_keeps
    | with_reducible apply Keeps.foldl
    | extract_lets
    | (intro _; try beta_reduce)
    | split
    | with_reducible refine frame_keeps ?_ rfl rfl rfl rfl rfl rfl rfl rfl rfl (Nat.le_refl _))

theorem axesStart_keeps (d : Dev) {e0 : Dev} (h_ : Keeps e0 d) :
    Keeps e0 (axesStart d) := by
  refine h_.trans ?_
  unfold axesStart
  repeat' (first
    | with_reducible exact Keeps.refl _
    | with_reducible assumption
    | with_reducible apply Dev.setReg_keeps
    | with_reducible apply Dev.setOut_keeps
    | with_reducible apply axisStart_keeps
    | with_reducible apply Keeps.foldl
    | extract_lets
    | (intro _; try beta_reduce)
    | split
    | with_reducible refine frame_keeps ?_ rfl rfl rfl rfl rfl rfl rfl rfl rfl (Nat.le_refl _))

theorem axesLeaveRun_keeps (d : Dev) {e0 : Dev} (h_ : Keeps e0 d) :
    Keeps e0 (axesLeaveRun d) := by
  refine h_.trans ?_
  unfold axesLeaveRun
  repeat' (first
    | with_reducible exact Keeps.refl _
    | with_reducible assumption
    | with_reducible apply Dev.setReg_keeps
    | with_reducible apply Dev.setOut_keeps
    | with_reducible apply Dev.setAxis_keeps
    | with_reducible apply Dev.setGroup_keeps
    | with_reducible apply Dev.setLane_keeps
    | with_reducible apply Keeps.foldl
    | extract_lets
    | (intro _; try beta_reduce)
    | split
    | with_reducible refine frame_keeps ?_ rfl rfl rfl rfl rfl rfl rfl rfl rfl (Nat.le_refl _))

theorem axisCapture_keeps (n : Fin 16) (d : Dev) {e0 : Dev} (h_ : Keeps e0 d) :
    Keeps e0 (axisCapture n d) := by
  refine h_.trans ?_
  unfold axisCapture
  repeat' (first
    | with_reducible exact Keeps.refl _
    | with_reducible assumption
    | with_reducible apply Dev.setReg_keeps
    | with_reducible apply Dev.setOut_keeps
    | with_reducible apply Dev.setAxis_keeps
    | extract_lets
    | (intro _; try beta_reduce)
    | split
    | with_reducible refine frame_keeps ?_ rfl rfl rfl rfl rfl rfl rfl rfl rfl (Nat.le_refl _))

theorem masterSpeed_keeps (n : Fin 16) (d : Dev) {e0 : Dev} (h_ : Keeps e0 d) :
    Keeps e0 (masterSpeed n d) := by
  refine h_.trans ?_
  unfold masterSpeed
  repeat' (first
    | with_reducible exact Keeps.refl _
    | with_reducible assumption
    | with_reducible apply Dev.setReg_keeps
    | with_reducible apply Dev.setOut_keeps
    | with_reducible apply Dev.setAxis_keeps
    | extract_lets
    | (intro _; try beta_reduce)
    | split
    | with_reducible refine frame_keeps ?_ rfl rfl rfl rfl rfl rfl rfl rfl rfl (Nat.le_refl _))

theorem stepPulse_keeps (n : Fin 16) (ofs : Nat) (d : Dev) {e0 : Dev} (h_ : Keeps e0 d) :
    Keeps e0 (stepPulse n ofs d) := by
  refine h_.trans ?_
  unfold stepPulse
  extract_lets ofs' p diff back d1 x stp
  have k1 : Keeps d d1 := dirTo_keeps _ _ _ (Dev.reachTick_keeps _ _ (Keeps.refl _))
  clear_value d1 diff
  split
  · exact Keeps.refl _
  · generalize stepStart d1 n (d1.tick.edgeAt + ofs') = q
    obtain ⟨t, late⟩ := q
    dsimp -zeta only
    extract_lets d2 d3
    have k3 : Keeps d d3 := feedStep_keeps _ _ _ _ (Dev.setAxis_keeps _ _ _ k1)
    clear_value d3
    split
    · exact axAlert_keeps _ _ _ (Dev.setFlag_keeps _ _ _ _ k3)
    · exact k3

end Sys2Proof.Machine
end

