-- ==== Sys2Proof/Laws/KeepsVision.lean ====
section
/-! SUPPORT. What the operations of Machine/Harness.lean, Machine/Dram.lean, Machine/Vision.lean keep (Laws/Keeps.lean). -/
set_option linter.unusedTactic false
set_option linter.unreachableTactic false
namespace Sys2Proof.Machine

theorem Dev.setHrn_keeps (d : Dev) (h : Harness) {e0 : Dev} (h_ : Keeps e0 d) :
    Keeps e0 (Dev.setHrn d h) := by
  refine h_.trans ?_
  unfold Dev.setHrn
  repeat' (first
    | with_reducible exact Keeps.refl _
    | with_reducible assumption
    | with_reducible apply Dev.setReg_keeps
    | with_reducible apply Dev.setOut_keeps
    | extract_lets
    | (intro _; try beta_reduce)
    | split
    | with_reducible apply upd_hrn
    | with_reducible refine frame_keeps ?_ rfl rfl rfl rfl rfl rfl rfl rfl rfl (Nat.le_refl _))

theorem Dev.setDramByte_keeps (d : Dev) (a : Nat) (v : Byte) {e0 : Dev} (h_ : Keeps e0 d) :
    Keeps e0 (d.setDramByte a v) := by
  unfold Dev.setDramByte
  split
  · exact Keeps.dram (fun h => smWf_smSet a v h) h_
  · exact h_

theorem setDramBytes_keeps (a : Nat) (bs : List Byte) (d : Dev) {e0 : Dev} (h_ : Keeps e0 d) :
    Keeps e0 (setDramBytes a bs d) := by
  induction bs generalizing a d with
  | nil => exact h_
  | cons b t ih => exact ih _ _ (Dev.setDramByte_keeps _ _ _ h_)

theorem smSorted_filter {β : Type} {m : SMap β} (f : Nat × β → Bool) (h : smSorted m = true) :
    smSorted (m.filter f) = true := by
  induction m with
  | nil => rfl
  | cons e t ih =>
    obtain ⟨k, w⟩ := e
    obtain ⟨hb, hs⟩ := smSorted_cons.mp h
    simp only [List.filter_cons]
    split
    · exact smSorted_cons.mpr ⟨fun e he => hb e (List.mem_filter.mp he).1, ih hs⟩
    · exact ih hs

/-- What the rows of an area do not hold is in no area that its rows replace. -/
theorem FreeArea.hit_under {r x : FreeArea} {a : Nat}
    (h : (decide (x.base = r.base) && decide (x.pitch = r.pitch) && decide (x.len ≤ r.len) && decide (x.rows ≤ r.rows)) = true)
    (hr : r.hit a = false) : x.hit a = false := by
  simp only [Bool.and_eq_true, decide_eq_true_eq] at h
  obtain ⟨⟨⟨hb, hp⟩, hl⟩, hn⟩ := h
  simp only [FreeArea.hit, Bool.and_eq_false_iff, decide_eq_false_iff_not] at hr ⊢
  rw [hb, hp]
  omega

/-- Outside a new open area, bytes read by default as before. -/
theorem dramDefault_filter (r : FreeArea) (a : Nat) (hr : r.hit a = false) (l : List FreeArea) :
    dramDefault (l.filter (fun x => !(decide (x.base = r.base) && decide (x.pitch = r.pitch) && decide (x.len ≤ r.len) &&
      decide (x.rows ≤ r.rows)))) a = dramDefault l a := by
  induction l with
  | nil => rfl
  | cons x t ih =>
    simp only [List.filter_cons]
    split
    · simp only [dramDefault, ih]
    · rename_i hx
      rw [ih, dramDefault, if_neg (by rw [FreeArea.hit_under (by simpa using hx) hr]; exact Bool.false_ne_true)]

theorem openArea_keeps (r : FreeArea) (d : Dev) {e0 : Dev} (h_ : Keeps e0 d) : Keeps e0 (openArea r d) := by
  refine h_.trans ⟨fun x => ⟨x.regs, x.outs, x.sram, ?_, x.array, x.durable, x.spill, x.stack⟩, Nat.le_refl _⟩
  obtain ⟨hs, hv⟩ := smWf_iff.mp x.dram
  refine smWf_iff.mpr ⟨smSorted_filter _ hs, fun e he => ?_⟩
  obtain ⟨he, hh⟩ := List.mem_filter.mp he
  have hh : r.hit e.1 = false := by simpa using hh
  show e.2 ≠ dramDefault (_ :: _) e.1
  rw [dramDefault, if_neg (by rw [hh]; exact Bool.false_ne_true), dramDefault_filter _ _ hh]
  exact hv e he

theorem Dev.setRx_keeps (d : Dev) (p : Fin 2) (x : Rx) {e0 : Dev} (h_ : Keeps e0 d) :
    Keeps e0 (Dev.setRx d p x) := by
  refine h_.trans ?_
  unfold Dev.setRx
  repeat' (first
    | with_reducible exact Keeps.refl _
    | with_reducible assumption
    | with_reducible apply Dev.setReg_keeps
    | with_reducible apply Dev.setOut_keeps
    | extract_lets
    | (intro _; try beta_reduce)
    | split
    | with_reducible apply upd_vis
    | with_reducible refine frame_keeps ?_ rfl rfl rfl rfl rfl rfl rfl rfl rfl (Nat.le_refl _))

theorem Dev.setVg_keeps (d : Dev) (g : Fin 4) (x : VGraph) {e0 : Dev} (h_ : Keeps e0 d) :
    Keeps e0 (Dev.setVg d g x) := by
  refine h_.trans ?_
  unfold Dev.setVg
  repeat' (first
    | with_reducible exact Keeps.refl _
    | with_reducible assumption
    | with_reducible apply Dev.setReg_keeps
    | with_reducible apply Dev.setOut_keeps
    | extract_lets
    | (intro _; try beta_reduce)
    | split
    | with_reducible apply upd_vis
    | with_reducible refine frame_keeps ?_ rfl rfl rfl rfl rfl rfl rfl rfl rfl (Nat.le_refl _))

theorem visGerr_keeps (g : Fin 4) (d : Dev) {e0 : Dev} (h_ : Keeps e0 d) :
    Keeps e0 (visGerr g d) := by
  refine h_.trans ?_
  unfold visGerr
  repeat' (first
    | with_reducible exact Keeps.refl _
    | with_reducible assumption
    | with_reducible apply Dev.setReg_keeps
    | with_reducible apply Dev.setOut_keeps
    | with_reducible apply Dev.setFlag_keeps
    | with_reducible apply raise_keeps
    | extract_lets
    | (intro _; try beta_reduce)
    | split
    | with_reducible refine frame_keeps ?_ rfl rfl rfl rfl rfl rfl rfl rfl rfl (Nat.le_refl _))

theorem visStatus_keeps (g : Fin 4) (d : Dev) {e0 : Dev} (h_ : Keeps e0 d) :
    Keeps e0 (visStatus g d) := by
  refine h_.trans ?_
  unfold visStatus
  repeat' (first
    | with_reducible exact Keeps.refl _
    | with_reducible assumption
    | with_reducible apply Dev.setReg_keeps
    | with_reducible apply Dev.setOut_keeps
    | with_reducible apply Dev.setFld_keeps
    | extract_lets
    | (intro _; try beta_reduce)
    | split
    | with_reducible refine frame_keeps ?_ rfl rfl rfl rfl rfl rfl rfl rfl rfl (Nat.le_refl _))

theorem visSkip_keeps (g : Fin 4) (d : Dev) {e0 : Dev} (h_ : Keeps e0 d) :
    Keeps e0 (visSkip g d) := by
  refine h_.trans ?_
  unfold visSkip
  repeat' (first
    | with_reducible exact Keeps.refl _
    | with_reducible assumption
    | with_reducible apply Dev.setReg_keeps
    | with_reducible apply Dev.setOut_keeps
    | with_reducible apply Dev.setFlag_keeps
    | with_reducible apply Dev.count1_keeps
    | with_reducible apply raise_keeps
    | extract_lets
    | (intro _; try beta_reduce)
    | split
    | with_reducible refine frame_keeps ?_ rfl rfl rfl rfl rfl rfl rfl rfl rfl (Nat.le_refl _))

theorem visStart_keeps (g : Fin 4) (d : Dev) {e0 : Dev} (h_ : Keeps e0 d) :
    Keeps e0 (visStart g d) := by
  refine h_.trans ?_
  unfold visStart
  repeat' (first
    | with_reducible exact Keeps.refl _
    | with_reducible assumption
    | with_reducible apply Dev.setReg_keeps
    | with_reducible apply Dev.setOut_keeps
    | with_reducible apply Dev.setVg_keeps
    | with_reducible apply visGerr_keeps
    | with_reducible apply visStatus_keeps
    | extract_lets
    | (intro _; try beta_reduce)
    | split
    | with_reducible refine frame_keeps ?_ rfl rfl rfl rfl rfl rfl rfl rfl rfl (Nat.le_refl _))

theorem visStop_keeps (g : Fin 4) (d : Dev) {e0 : Dev} (h_ : Keeps e0 d) :
    Keeps e0 (visStop g d) := by
  refine h_.trans ?_
  unfold visStop
  repeat' (first
    | with_reducible exact Keeps.refl _
    | with_reducible assumption
    | with_reducible apply Dev.setReg_keeps
    | with_reducible apply Dev.setOut_keeps
    | with_reducible apply Dev.setVg_keeps
    | with_reducible apply visStatus_keeps
    | extract_lets
    | (intro _; try beta_reduce)
    | split
    | with_reducible refine frame_keeps ?_ rfl rfl rfl rfl rfl rfl rfl rfl rfl (Nat.le_refl _))

theorem visRunPort_keeps (g : Fin 4) (v : Word) (d : Dev) {e0 : Dev} (h_ : Keeps e0 d) :
    Keeps e0 (visRunPort g v d) := by
  refine h_.trans ?_
  unfold visRunPort
  repeat' (first
    | with_reducible exact Keeps.refl _
    | with_reducible assumption
    | with_reducible apply Dev.setReg_keeps
    | with_reducible apply Dev.setOut_keeps
    | with_reducible apply visStart_keeps
    | with_reducible apply visStop_keeps
    | extract_lets
    | (intro _; try beta_reduce)
    | split
    | with_reducible refine frame_keeps ?_ rfl rfl rfl rfl rfl rfl rfl rfl rfl (Nat.le_refl _))

theorem visQcyc_keeps (g : Fin 4) (v : Word) (d : Dev) {e0 : Dev} (h_ : Keeps e0 d) :
    Keeps e0 (visQcyc g v d) := by
  refine h_.trans ?_
  unfold visQcyc
  repeat' (first
    | with_reducible exact Keeps.refl _
    | with_reducible assumption
    | with_reducible apply Dev.setReg_keeps
    | with_reducible apply Dev.setOut_keeps
    | with_reducible apply visGerr_keeps
    | extract_lets
    | (intro _; try beta_reduce)
    | split
    | with_reducible refine frame_keeps ?_ rfl rfl rfl rfl rfl rfl rfl rfl rfl (Nat.le_refl _))

theorem visConfmin_keeps (g : Fin 4) (v : Word) (d : Dev) {e0 : Dev} (h_ : Keeps e0 d) :
    Keeps e0 (visConfmin g v d) := by
  refine h_.trans ?_
  unfold visConfmin
  repeat' (first
    | with_reducible exact Keeps.refl _
    | with_reducible assumption
    | with_reducible apply Dev.setReg_keeps
    | with_reducible apply Dev.setOut_keeps
    | extract_lets
    | (intro _; try beta_reduce)
    | split
    | with_reducible refine frame_keeps ?_ rfl rfl rfl rfl rfl rfl rfl rfl rfl (Nat.le_refl _))

theorem visBudgetStop_keeps (d : Dev) {e0 : Dev} (h_ : Keeps e0 d) :
    Keeps e0 (visBudgetStop d) := by
  refine h_.trans ?_
  unfold visBudgetStop
  repeat' (first
    | with_reducible exact Keeps.refl _
    | with_reducible assumption
    | with_reducible apply Dev.setReg_keeps
    | with_reducible apply Dev.setOut_keeps
    | with_reducible apply visGerr_keeps
    | with_reducible apply visStop_keeps
    | with_reducible apply Keeps.forAll
    | extract_lets
    | (intro _; try beta_reduce)
    | split
    | with_reducible refine frame_keeps ?_ rfl rfl rfl rfl rfl rfl rfl rfl rfl (Nat.le_refl _))

theorem visImage_keeps (d : Dev) {e0 : Dev} (h_ : Keeps e0 d) :
    Keeps e0 (visImage d) := by
  refine h_.trans ?_
  unfold visImage
  repeat' (first
    | with_reducible exact Keeps.refl _
    | with_reducible assumption
    | with_reducible apply Dev.setReg_keeps
    | with_reducible apply Dev.setOut_keeps
    | with_reducible apply Dev.setVg_keeps
    | with_reducible apply visStop_keeps
    | with_reducible apply Keeps.forAll
    | extract_lets
    | (intro _; try beta_reduce)
    | split
    | with_reducible refine frame_keeps ?_ rfl rfl rfl rfl rfl rfl rfl rfl rfl (Nat.le_refl _))

theorem visWake_keeps (d : Dev) {e0 : Dev} (h_ : Keeps e0 d) :
    Keeps e0 (visWake d) := by
  refine h_.trans ?_
  unfold visWake
  repeat' (first
    | with_reducible exact Keeps.refl _
    | with_reducible assumption
    | with_reducible apply Dev.setReg_keeps
    | with_reducible apply Dev.setOut_keeps
    | extract_lets
    | (intro _; try beta_reduce)
    | split
    | with_reducible apply upd_vis
    | with_reducible refine frame_keeps ?_ rfl rfl rfl rfl rfl rfl rfl rfl rfl (Nat.le_refl _))

theorem rxBusy_keeps (p : Fin 2) (d : Dev) {e0 : Dev} (h_ : Keeps e0 d) :
    Keeps e0 (rxBusy p d) := by
  refine h_.trans ?_
  unfold rxBusy
  repeat' (first
    | with_reducible exact Keeps.refl _
    | with_reducible assumption
    | with_reducible apply Dev.setReg_keeps
    | with_reducible apply Dev.setOut_keeps
    | with_reducible apply Dev.setFlag_keeps
    | extract_lets
    | (intro _; try beta_reduce)
    | split
    | with_reducible refine frame_keeps ?_ rfl rfl rfl rfl rfl rfl rfl rfl rfl (Nat.le_refl _))

theorem rxDrop_keeps (p : Fin 2) (causes : List Nat) (d : Dev) {e0 : Dev} (h_ : Keeps e0 d) :
    Keeps e0 (rxDrop p causes d) := by
  refine h_.trans ?_
  unfold rxDrop
  repeat' (first
    | with_reducible exact Keeps.refl _
    | with_reducible assumption
    | with_reducible apply Dev.setReg_keeps
    | with_reducible apply Dev.setOut_keeps
    | with_reducible apply Dev.setFlag_keeps
    | with_reducible apply Dev.count1_keeps
    | with_reducible apply raise_keeps
    | with_reducible apply Keeps.foldl
    | extract_lets
    | (intro _; try beta_reduce)
    | split
    | with_reducible refine frame_keeps ?_ rfl rfl rfl rfl rfl rfl rfl rfl rfl (Nat.le_refl _))

theorem frameStart_keeps (p : Fin 2) (vc : Fin 4) (ts : DWord) (d : Dev) {e0 : Dev} (h_ : Keeps e0 d) :
    Keeps e0 (frameStart p vc ts d) := by
  refine h_.trans ?_
  unfold frameStart
  repeat' (first
    | with_reducible exact Keeps.refl _
    | with_reducible assumption
    | with_reducible apply Dev.setReg_keeps
    | with_reducible apply Dev.setOut_keeps
    | with_reducible apply Dev.tickFree_keeps
    | with_reducible apply openArea_keeps
    | with_reducible apply Dev.setRx_keeps
    | with_reducible apply rxBusy_keeps
    | with_reducible apply rxDrop_keeps
    | extract_lets
    | (intro _; try beta_reduce)
    | split
    | with_reducible refine frame_keeps ?_ rfl rfl rfl rfl rfl rfl rfl rfl rfl (Nat.le_refl _))

theorem frameEnd_keeps (p : Fin 2) (vc : Fin 4) (packets : List CsiPacket) (d : Dev) {e0 : Dev} (h_ : Keeps e0 d) :
    Keeps e0 (frameEnd p vc packets d) := by
  refine h_.trans ?_
  unfold frameEnd
  repeat' (first
    | with_reducible exact Keeps.refl _
    | with_reducible assumption
    | with_reducible apply Dev.setReg_keeps
    | with_reducible apply Dev.setOut_keeps
    | with_reducible apply Dev.setRx_keeps
    | with_reducible apply rxBusy_keeps
    | with_reducible apply rxDrop_keeps
    | extract_lets
    | (intro _; try beta_reduce)
    | split
    | with_reducible refine frame_keeps ?_ rfl rfl rfl rfl rfl rfl rfl rfl rfl (Nat.le_refl _))

theorem frameReady_keeps (p : Fin 2) (d : Dev) {e0 : Dev} (h_ : Keeps e0 d) :
    Keeps e0 (frameReady p d) := by
  refine h_.trans ?_
  unfold frameReady
  repeat' (first
    | with_reducible exact Keeps.refl _
    | with_reducible assumption
    | with_reducible apply Dev.setReg_keeps
    | with_reducible apply Dev.setOut_keeps
    | with_reducible apply Dev.count1_keeps
    | with_reducible apply Dev.setRx_keeps
    | extract_lets
    | (intro _; try beta_reduce)
    | split
    | with_reducible apply upd_ready
    | with_reducible refine frame_keeps ?_ rfl rfl rfl rfl rfl rfl rfl rfl rfl (Nat.le_refl _))

theorem visSleep_keeps (d : Dev) {e0 : Dev} (h_ : Keeps e0 d) :
    Keeps e0 (visSleep d) := by
  refine h_.trans ?_
  unfold visSleep
  repeat' (first
    | with_reducible exact Keeps.refl _
    | with_reducible assumption
    | with_reducible apply Dev.setReg_keeps
    | with_reducible apply Dev.setOut_keeps
    | with_reducible apply Dev.setRx_keeps
    | with_reducible apply rxBusy_keeps
    | with_reducible apply Keeps.forAll
    | extract_lets
    | (intro _; try beta_reduce)
    | split
    | with_reducible refine frame_keeps ?_ rfl rfl rfl rfl rfl rfl rfl rfl rfl (Nat.le_refl _))

theorem commitCsiCfg_keeps (p : Fin 2) (v : Word) (d : Dev) {e0 : Dev} (h_ : Keeps e0 d) :
    Keeps e0 (commitCsiCfg p v d) := by
  refine h_.trans ?_
  unfold commitCsiCfg
  repeat' (first
    | with_reducible exact Keeps.refl _
    | with_reducible assumption
    | with_reducible apply Dev.setReg_keeps
    | with_reducible apply Dev.setOut_keeps
    | with_reducible apply Dev.setFlag_keeps
    | with_reducible apply raise_keeps
    | with_reducible apply Dev.setRx_keeps
    | with_reducible apply rxBusy_keeps
    | extract_lets
    | (intro _; try beta_reduce)
    | split
    | with_reducible refine frame_keeps ?_ rfl rfl rfl rfl rfl rfl rfl rfl rfl (Nat.le_refl _))

theorem commitCsiSize_keeps (p : Fin 2) (v : Word) (d : Dev) {e0 : Dev} (h_ : Keeps e0 d) :
    Keeps e0 (commitCsiSize p v d) := by
  refine h_.trans ?_
  unfold commitCsiSize
  repeat' (first
    | with_reducible exact Keeps.refl _
    | with_reducible assumption
    | with_reducible apply Dev.setReg_keeps
    | with_reducible apply Dev.setOut_keeps
    | with_reducible apply Dev.tickFree_keeps
    | extract_lets
    | (intro _; try beta_reduce)
    | split
    | with_reducible refine frame_keeps ?_ rfl rfl rfl rfl rfl rfl rfl rfl rfl (Nat.le_refl _))

theorem commitHoffCfg_keeps (v : Word) (d : Dev) {e0 : Dev} (h_ : Keeps e0 d) :
    Keeps e0 (commitHoffCfg v d) := by
  refine h_.trans ?_
  unfold commitHoffCfg
  repeat' (first
    | with_reducible exact Keeps.refl _
    | with_reducible assumption
    | with_reducible apply Dev.setReg_keeps
    | with_reducible apply Dev.setOut_keeps
    | with_reducible apply Dev.tickFree_keeps
    | extract_lets
    | (intro _; try beta_reduce)
    | split
    | with_reducible refine frame_keeps ?_ rfl rfl rfl rfl rfl rfl rfl rfl rfl (Nat.le_refl _))

theorem visSlot_keeps (g : Fin 4) (gr : Graph) (l : Frame) (r : Option Frame) (d : Dev) {e0 : Dev} (h_ : Keeps e0 d) :
    Keeps e0 (visSlot g gr l r d) := by
  refine h_.trans ?_
  unfold visSlot
  repeat' (first
    | with_reducible exact Keeps.refl _
    | with_reducible assumption
    | with_reducible apply Dev.setReg_keeps
    | with_reducible apply Dev.setOut_keeps
    | with_reducible apply Dev.setVg_keeps
    | with_reducible apply visSkip_keeps
    | extract_lets
    | (intro _; try beta_reduce)
    | split
    | with_reducible refine frame_keeps ?_ rfl rfl rfl rfl rfl rfl rfl rfl rfl (Nat.le_refl _))

theorem visPair_keeps (g : Fin 4) (gr : Graph) (f : Frame) (d : Dev) {e0 : Dev} (h_ : Keeps e0 d) :
    Keeps e0 (visPair g gr f d) := by
  refine h_.trans ?_
  unfold visPair
  repeat' (first
    | with_reducible exact Keeps.refl _
    | with_reducible assumption
    | with_reducible apply Dev.setReg_keeps
    | with_reducible apply Dev.setOut_keeps
    | with_reducible apply Dev.setVg_keeps
    | with_reducible apply visSkip_keeps
    | with_reducible apply visSlot_keeps
    | extract_lets
    | (intro _; try beta_reduce)
    | split
    | with_reducible refine frame_keeps ?_ rfl rfl rfl rfl rfl rfl rfl rfl rfl (Nat.le_refl _))

theorem visOffer_keeps (f : Frame) (d : Dev) {e0 : Dev} (h_ : Keeps e0 d) :
    Keeps e0 (visOffer f d) := by
  refine h_.trans ?_
  unfold visOffer
  repeat' (first
    | with_reducible exact Keeps.refl _
    | with_reducible assumption
    | with_reducible apply Dev.setReg_keeps
    | with_reducible apply Dev.setOut_keeps
    | with_reducible apply visSlot_keeps
    | with_reducible apply visPair_keeps
    | with_reducible apply Keeps.forAll
    | extract_lets
    | (intro _; try beta_reduce)
    | split
    | with_reducible refine frame_keeps ?_ rfl rfl rfl rfl rfl rfl rfl rfl rfl (Nat.le_refl _))

theorem visAccept_keeps (g : Fin 4) (d : Dev) {e0 : Dev} (h_ : Keeps e0 d) :
    Keeps e0 (visAccept g d) := by
  refine h_.trans ?_
  unfold visAccept
  repeat' (first
    | with_reducible exact Keeps.refl _
    | with_reducible assumption
    | with_reducible apply Dev.setReg_keeps
    | with_reducible apply Dev.setOut_keeps
    | with_reducible apply Dev.setVg_keeps
    | with_reducible apply visStatus_keeps
    | extract_lets
    | (intro _; try beta_reduce)
    | split
    | with_reducible refine frame_keeps ?_ rfl rfl rfl rfl rfl rfl rfl rfl rfl (Nat.le_refl _))

theorem visTick_keeps (d : Dev) {e0 : Dev} (h_ : Keeps e0 d) :
    Keeps e0 (visTick d) := by
  refine h_.trans ?_
  unfold visTick
  repeat' (first
    | with_reducible exact Keeps.refl _
    | with_reducible assumption
    | with_reducible apply Dev.setReg_keeps
    | with_reducible apply Dev.setOut_keeps
    | with_reducible apply Dev.setVg_keeps
    | with_reducible apply Keeps.forAll
    | extract_lets
    | (intro _; try beta_reduce)
    | split
    | with_reducible refine frame_keeps ?_ rfl rfl rfl rfl rfl rfl rfl rfl rfl (Nat.le_refl _))

theorem visCapture_keeps (d : Dev) {e0 : Dev} (h_ : Keeps e0 d) :
    Keeps e0 (visCapture d) := by
  refine h_.trans ?_
  unfold visCapture
  repeat' (first
    | with_reducible exact Keeps.refl _
    | with_reducible assumption
    | with_reducible apply Dev.setReg_keeps
    | with_reducible apply Dev.setOut_keeps
    | with_reducible apply Dev.setRx_keeps
    | with_reducible apply visOffer_keeps
    | with_reducible apply visAccept_keeps
    | with_reducible apply Keeps.forAll
    | with_reducible apply Keeps.foldl
    | extract_lets
    | (intro _; try beta_reduce)
    | split
    | with_reducible apply upd_ready
    | with_reducible refine frame_keeps ?_ rfl rfl rfl rfl rfl rfl rfl rfl rfl (Nat.le_refl _))

theorem putOut_keeps (dram : Bool) (cyc a : Nat) (bs : List Byte) (d : Dev) {e0 : Dev} (h_ : Keeps e0 d) :
    Keeps e0 (putOut dram cyc a bs d) := by
  refine h_.trans ?_
  unfold putOut
  repeat' (first
    | with_reducible exact Keeps.refl _
    | with_reducible assumption
    | with_reducible apply Dev.setReg_keeps
    | with_reducible apply Dev.setOut_keeps
    | with_reducible apply stageAt_keeps
    | with_reducible apply setDramBytes_keeps
    | extract_lets
    | (intro _; try beta_reduce)
    | split
    | with_reducible refine frame_keeps ?_ rfl rfl rfl rfl rfl rfl rfl rfl rfl (Nat.le_refl _))

theorem openTile_keeps (gr : Graph) (i : Picture) (l t c : Nat) (d : Dev) {e0 : Dev} (h_ : Keeps e0 d) :
    Keeps e0 (openTile gr i l t c d) := by
  refine h_.trans ?_
  unfold openTile
  repeat' (first
    | with_reducible exact Keeps.refl _
    | with_reducible assumption
    | with_reducible apply Dev.setReg_keeps
    | with_reducible apply Dev.setOut_keeps
    | with_reducible apply openArea_keeps
    | extract_lets
    | (intro _; try beta_reduce)
    | split
    | with_reducible refine frame_keeps ?_ rfl rfl rfl rfl rfl rfl rfl rfl rfl (Nat.le_refl _))

theorem fullField_keeps (gr : Graph) (k t c : Nat) (d : Dev) {e0 : Dev} (h_ : Keeps e0 d) :
    Keeps e0 (fullField gr k t c d) := by
  refine h_.trans ?_
  unfold fullField
  repeat' (first
    | with_reducible exact Keeps.refl _
    | with_reducible assumption
    | with_reducible apply Dev.setReg_keeps
    | with_reducible apply Dev.setOut_keeps
    | with_reducible apply openArea_keeps
    | extract_lets
    | (intro _; try beta_reduce)
    | split
    | with_reducible refine frame_keeps ?_ rfl rfl rfl rfl rfl rfl rfl rfl rfl (Nat.le_refl _))

theorem runCoarse_keeps (gr : Graph) (cmin cyc k t : Nat) (a : VActive) (d : Dev) {e0 : Dev} (h_ : Keeps e0 d) :
    Keeps e0 (runCoarse gr cmin cyc k t a d).2 := by
  refine h_.trans ?_
  unfold runCoarse
  extract_lets c base put last conf a'
  have hp : ∀ n bs d e, Keeps e d → Keeps e (put n bs d) := fun _ _ _ _ h => putOut_keeps _ _ _ _ _ h
  clear_value put a'
  split
  · exact Keeps.foldl (fun d i => openTile_keeps _ _ _ _ _ _ (Keeps.refl _)) _ (Keeps.refl _)
  · exact openTile_keeps _ _ _ _ _ _ (Keeps.refl _)
  · exact hp _ _ _ _ (Keeps.refl _)
  · exact fullField_keeps _ _ _ _ _ (hp _ _ _ _ (hp _ _ _ _ (Keeps.refl _)))
  · exact fullField_keeps _ _ _ _ _ (hp _ _ _ _ (hp _ _ _ _ (Keeps.refl _)))
  · dsimp only
    split
    · exact hp _ _ _ _ (Keeps.refl _)
    · exact Keeps.refl _
  · dsimp only
    split
    · exact hp _ _ _ _ (Keeps.refl _)
    · exact Keeps.refl _
  · split
    · exact hp _ _ _ _ (Keeps.refl _)
    · exact hp _ _ _ _ (hp _ _ _ _ (Keeps.refl _))

theorem runRefine_keeps (gr : Graph) (cyc k t : Nat) (a : VActive) (d : Dev) {e0 : Dev} (h_ : Keeps e0 d) :
    Keeps e0 (runRefine gr cyc k t a d).2 := by
  refine h_.trans ?_
  unfold runRefine
  extract_lets c base put a1 a2
  split <;> exact putOut_keeps _ _ _ _ _ (Keeps.refl _)

theorem admitCoarse_keeps (gr : Graph) (cmin start : Nat) (l : List (Nat × Nat)) (a : VActive) (q : Quantum) (d : Dev)
    {e0 : Dev} (h_ : Keeps e0 d) : Keeps e0 (admitCoarse gr cmin start l a q d).2.2 := by
  induction l generalizing a q d with
  | nil => exact h_
  | cons x t ih =>
    obtain ⟨k, i⟩ := x
    unfold admitCoarse
    extract_lets cost
    split
    · exact h_
    · rename_i q1 _ _
      have k1 := runCoarse_keeps gr cmin (itemCycle d q1.spent) k i a d h_
      generalize runCoarse gr cmin (itemCycle d q1.spent) k i a d = r at k1
      obtain ⟨b, d1⟩ := r
      exact ih _ _ _ k1

theorem admitRefine_keeps (gr : Graph) (start : Nat) (l : List (Nat × Nat)) (a : VActive) (q : Quantum) (d : Dev)
    {e0 : Dev} (h_ : Keeps e0 d) : Keeps e0 (admitRefine gr start l a q d).2.2 := by
  induction l generalizing a q d with
  | nil => exact h_
  | cons x t ih =>
    obtain ⟨k, i⟩ := x
    unfold admitRefine
    split
    · exact h_
    · rename_i q1 _ _
      have k1 := runRefine_keeps gr (itemCycle d q1.spent) k i a d h_
      generalize runRefine gr (itemCycle d q1.spent) k i a d = r at k1
      obtain ⟨b, d1⟩ := r
      exact ih _ _ _ k1

theorem visClose_keeps (g : Fin 4) (gr : Graph) (cyc : Nat) (a : VActive) (d : Dev) {e0 : Dev} (h_ : Keeps e0 d) :
    Keeps e0 (visClose g gr cyc a d) := by
  refine h_.trans ?_
  unfold visClose
  repeat' (first
    | with_reducible exact Keeps.refl _
    | with_reducible assumption
    | with_reducible apply Dev.setReg_keeps
    | with_reducible apply Dev.setOut_keeps
    | with_reducible apply stageAt_keeps
    | with_reducible apply Dev.setVg_keeps
    | with_reducible apply visStatus_keeps
    | extract_lets
    | (intro _; try beta_reduce)
    | split
    | with_reducible refine frame_keeps ?_ rfl rfl rfl rfl rfl rfl rfl rfl rfl (Nat.le_refl _))

theorem admitGraph_keeps (g : Fin 4) (spent : Nat) (d : Dev) {e0 : Dev} (h_ : Keeps e0 d) :
    Keeps e0 (admitGraph g spent d).2 := by
  refine h_.trans ?_
  unfold admitGraph
  split
  · exact Keeps.refl _
  · rename_i gr _
    extract_lets n d1
    have k1 : Keeps d d1 := by
      dsimp only [d1]
      split
      · split
        · exact visAccept_keeps _ _ (visClose_keeps _ _ _ _ _ (Keeps.refl _))
        · exact Keeps.refl _
      · exact Keeps.refl _
    clear_value d1
    split
    · exact k1
    · rename_i q _ a _
      extract_lets start
      have k2 := admitCoarse_keeps gr (confMin d1 g gr) start (gr.coarse.drop start) a q d1.tickFree
        (Dev.tickFree_keeps _ k1)
      generalize admitCoarse gr (confMin d1 g gr) start (gr.coarse.drop start) a q d1.tickFree = r at k2
      obtain ⟨a1, q1, d2⟩ := r
      dsimp only at k2 ⊢
      have k3 : Keeps d (if a1.pos < n then (a1, q1, d2)
          else admitRefine gr start ((refineList gr a1).drop a1.refs) a1 q1 d2).2.2 := by
        split
        · exact k2
        · exact admitRefine_keeps _ _ _ _ _ _ k2
      generalize (if a1.pos < n then (a1, q1, d2)
          else admitRefine gr start ((refineList gr a1).drop a1.refs) a1 q1 d2) = r at k3
      obtain ⟨a2, q2, d3⟩ := r
      dsimp only at k3 ⊢
      have k4 := visStatus_keeps g _ (Dev.setVg_keeps d3 g { d3.vg g with active := some a2 } k3)
      repeat' (first
        | with_reducible assumption
        | with_reducible apply visClose_keeps
        | with_reducible apply raise_keeps
        | with_reducible apply Dev.setFlag_keeps
        | split)

theorem visAdmit_keeps (d : Dev) {e0 : Dev} (h_ : Keeps e0 d) : Keeps e0 (visAdmit d) :=
  Keeps.foldlSnd (fun s k _ h => admitGraph_keeps (Fin.ofNat 4 k) s.1 s.2 h) (List.range 4) (0, d) h_

theorem visRevert_keeps (old : Dev) (d : Dev) {e0 : Dev} (h_ : Keeps e0 d) :
    Keeps e0 (visRevert old d) := by
  refine h_.trans ?_
  unfold visRevert
  repeat' (first
    | with_reducible exact Keeps.refl _
    | with_reducible assumption
    | with_reducible apply Dev.setReg_keeps
    | with_reducible apply Dev.setOut_keeps
    | with_reducible apply Dev.setVg_keeps
    | with_reducible apply visStatus_keeps
    | with_reducible apply Keeps.forAll
    | extract_lets
    | (intro _; try beta_reduce)
    | split
    | with_reducible refine frame_keeps ?_ rfl rfl rfl rfl rfl rfl rfl rfl rfl (Nat.le_refl _))

theorem visPublish_keeps (g : Fin 4) (gr : Graph) (r : VResult) (d : Dev) {e0 : Dev} (h_ : Keeps e0 d) :
    Keeps e0 (visPublish g gr r d) := by
  refine h_.trans ?_
  unfold visPublish
  repeat' (first
    | with_reducible exact Keeps.refl _
    | with_reducible assumption
    | with_reducible apply Dev.setReg_keeps
    | with_reducible apply Dev.setOut_keeps
    | with_reducible apply Dev.setFlag_keeps
    | with_reducible apply raise_keeps
    | with_reducible apply Dev.setVg_keeps
    | extract_lets
    | (intro _; try beta_reduce)
    | split
    | with_reducible apply upd_vis
    | with_reducible refine frame_keeps ?_ rfl rfl rfl rfl rfl rfl rfl rfl rfl (Nat.le_refl _))

theorem visPublishAll_keeps (d : Dev) {e0 : Dev} (h_ : Keeps e0 d) :
    Keeps e0 (visPublishAll d) := by
  refine h_.trans ?_
  unfold visPublishAll
  repeat' (first
    | with_reducible exact Keeps.refl _
    | with_reducible assumption
    | with_reducible apply Dev.setReg_keeps
    | with_reducible apply Dev.setOut_keeps
    | with_reducible apply Dev.setVg_keeps
    | with_reducible apply visPublish_keeps
    | with_reducible apply Keeps.foldl
    | with_reducible apply Keeps.forAll
    | extract_lets
    | (intro _; try beta_reduce)
    | split
    | with_reducible refine frame_keeps ?_ rfl rfl rfl rfl rfl rfl rfl rfl rfl (Nat.le_refl _))

theorem visMissing_keeps (g : Fin 4) (d : Dev) {e0 : Dev} (h_ : Keeps e0 d) :
    Keeps e0 (visMissing g d) := by
  refine h_.trans ?_
  unfold visMissing
  repeat' (first
    | with_reducible exact Keeps.refl _
    | with_reducible assumption
    | with_reducible apply Dev.setReg_keeps
    | with_reducible apply Dev.setOut_keeps
    | with_reducible apply stageAt_keeps
    | with_reducible apply Dev.setVg_keeps
    | extract_lets
    | (intro _; try beta_reduce)
    | split
    | with_reducible refine frame_keeps ?_ rfl rfl rfl rfl rfl rfl rfl rfl rfl (Nat.le_refl _))

theorem visHandoff_keeps (g : Fin 4) (d : Dev) {e0 : Dev} (h_ : Keeps e0 d) :
    Keeps e0 (visHandoff g d) := by
  refine h_.trans ?_
  unfold visHandoff
  repeat' (first
    | with_reducible exact Keeps.refl _
    | with_reducible assumption
    | with_reducible apply Dev.setReg_keeps
    | with_reducible apply Dev.setOut_keeps
    | with_reducible apply Dev.count1_keeps
    | with_reducible apply raise_keeps
    | with_reducible apply setDramBytes_keeps
    | extract_lets
    | (intro _; try beta_reduce)
    | split
    | with_reducible apply upd_vis
    | with_reducible refine frame_keeps ?_ rfl rfl rfl rfl rfl rfl rfl rfl rfl (Nat.le_refl _))

theorem visExpire_keeps (i : Nat) (d : Dev) {e0 : Dev} (h_ : Keeps e0 d) :
    Keeps e0 (visExpire i d) := by
  refine h_.trans ?_
  unfold visExpire
  repeat' (first
    | with_reducible exact Keeps.refl _
    | with_reducible assumption
    | with_reducible apply Dev.setReg_keeps
    | with_reducible apply Dev.setOut_keeps
    | with_reducible apply raise_keeps
    | with_reducible apply setDramBytes_keeps
    | extract_lets
    | (intro _; try beta_reduce)
    | split
    | with_reducible apply upd_vis
    | with_reducible refine frame_keeps ?_ rfl rfl rfl rfl rfl rfl rfl rfl rfl (Nat.le_refl _))

theorem setHoffRd_keeps (v : Word) (d : Dev) {e0 : Dev} (h_ : Keeps e0 d) :
    Keeps e0 (setHoffRd v d) := by
  refine h_.trans ?_
  unfold setHoffRd
  repeat' (first
    | with_reducible exact Keeps.refl _
    | with_reducible assumption
    | with_reducible apply Dev.setReg_keeps
    | with_reducible apply Dev.setOut_keeps
    | extract_lets
    | (intro _; try beta_reduce)
    | split
    | with_reducible apply upd_vis
    | with_reducible refine frame_keeps ?_ rfl rfl rfl rfl rfl rfl rfl rfl rfl (Nat.le_refl _))

end Sys2Proof.Machine
end

