-- ==== Sys2Proof/Laws/KeepsStores.lean ====
section
/-! SUPPORT. What the operations of Machine/Trouble.lean, Machine/Carts.lean, Machine/Cellar.lean, Machine/Trees.lean keep (Laws/Keeps.lean). -/
set_option linter.unusedTactic false
set_option linter.unreachableTactic false
namespace Sys2Proof.Machine

theorem popCommit_keeps (v : Word) (d : Dev) {e0 : Dev} (h_ : Keeps e0 d) :
    Keeps e0 (popCommit v d) := by
  refine h_.trans ?_
  unfold popCommit
  repeat' (first
    | with_reducible exact Keeps.refl _
    | with_reducible assumption
    | with_reducible apply Dev.setReg_keeps
    | with_reducible apply Dev.setOut_keeps
    | with_reducible apply popFault_keeps
    | extract_lets
    | (intro _; try beta_reduce)
    | split
    | with_reducible refine frame_keeps ?_ rfl rfl rfl rfl rfl rfl rfl rfl rfl (Nat.le_refl _))

theorem clearFltStat_keeps (v : Word) (d : Dev) {e0 : Dev} (h_ : Keeps e0 d) :
    Keeps e0 (clearFltStat v d) := by
  refine h_.trans ?_
  unfold clearFltStat
  repeat' (first
    | with_reducible exact Keeps.refl _
    | with_reducible assumption
    | with_reducible apply Dev.setReg_keeps
    | with_reducible apply Dev.setOut_keeps
    | extract_lets
    | (intro _; try beta_reduce)
    | split
    | with_reducible refine frame_keeps ?_ rfl rfl rfl rfl rfl rfl rfl rfl rfl (Nat.le_refl _))

theorem pulseOver_keeps (d : Dev) {e0 : Dev} (h_ : Keeps e0 d) :
    Keeps e0 (pulseOver d) := by
  refine h_.trans ?_
  unfold pulseOver
  repeat' (first
    | with_reducible exact Keeps.refl _
    | with_reducible assumption
    | with_reducible apply Dev.setReg_keeps
    | with_reducible apply Dev.setOut_keeps
    | with_reducible apply Dev.reach_keeps
    | extract_lets
    | (intro _; try beta_reduce)
    | split
    | with_reducible refine upd_fu _ _ (fun h => h) ?_
    | with_reducible refine frame_keeps ?_ rfl rfl rfl rfl rfl rfl rfl rfl rfl (Nat.le_refl _))

theorem cartFlags_keeps (k : Fin 6) (i : Nat) (bad : Bool) (d : Dev) {e0 : Dev} (h_ : Keeps e0 d) :
    Keeps e0 (cartFlags k i bad d) := by
  refine h_.trans ?_
  unfold cartFlags
  repeat' (first
    | with_reducible exact Keeps.refl _
    | with_reducible assumption
    | with_reducible apply Dev.setReg_keeps
    | with_reducible apply Dev.setOut_keeps
    | with_reducible apply Dev.setCore_keeps
    | extract_lets
    | (intro _; try beta_reduce)
    | split
    | with_reducible refine frame_keeps ?_ rfl rfl rfl rfl rfl rfl rfl rfl rfl (Nat.le_refl _))

theorem dramStall_keeps (d : Dev) {e0 : Dev} (h_ : Keeps e0 d) :
    Keeps e0 (dramStall d) := by
  refine h_.trans ?_
  unfold dramStall
  repeat' (first
    | with_reducible exact Keeps.refl _
    | with_reducible assumption
    | with_reducible apply Dev.setReg_keeps
    | with_reducible apply Dev.setOut_keeps
    | with_reducible apply fault_keeps
    | with_reducible apply visGerr_keeps
    | with_reducible apply visStop_keeps
    | with_reducible apply cartFlags_keeps
    | with_reducible apply Keeps.forAll
    | with_reducible apply Keeps.foldl
    | extract_lets
    | (intro _; try beta_reduce)
    | split
    | with_reducible apply upd_carts
    | with_reducible refine frame_keeps ?_ rfl rfl rfl rfl rfl rfl rfl rfl rfl (Nat.le_refl _))

theorem softEvents_keeps (v : Nat) (d : Dev) {e0 : Dev} (h_ : Keeps e0 d) :
    Keeps e0 (softEvents v d) := by
  refine h_.trans ?_
  unfold softEvents
  repeat' (first
    | with_reducible exact Keeps.refl _
    | with_reducible assumption
    | with_reducible apply Dev.setReg_keeps
    | with_reducible apply Dev.setOut_keeps
    | with_reducible apply raiseIf_keeps
    | with_reducible apply Keeps.forAll
    | extract_lets
    | (intro _; try beta_reduce)
    | split
    | with_reducible refine frame_keeps ?_ rfl rfl rfl rfl rfl rfl rfl rfl rfl (Nat.le_refl _))

theorem monitorFault_keeps (ev : Nat) (c : Cls) (detail : Word) (d : Dev) {e0 : Dev} (h_ : Keeps e0 d) :
    Keeps e0 (monitorFault ev c detail d) := by
  refine h_.trans ?_
  unfold monitorFault
  repeat' (first
    | with_reducible exact Keeps.refl _
    | with_reducible assumption
    | with_reducible apply Dev.setReg_keeps
    | with_reducible apply Dev.setOut_keeps
    | with_reducible apply fault_keeps
    | extract_lets
    | (intro _; try beta_reduce)
    | split
    | with_reducible refine frame_keeps ?_ rfl rfl rfl rfl rfl rfl rfl rfl rfl (Nat.le_refl _))

theorem dramEcc_keeps (addr : Nat) (uncorrectable : Bool) (d : Dev) {e0 : Dev} (h_ : Keeps e0 d) :
    Keeps e0 (dramEcc addr uncorrectable d) := by
  refine h_.trans ?_
  unfold dramEcc
  repeat' (first
    | with_reducible exact Keeps.refl _
    | with_reducible assumption
    | with_reducible apply Dev.setReg_keeps
    | with_reducible apply Dev.setOut_keeps
    | with_reducible apply Dev.setFlag_keeps
    | with_reducible apply Dev.count1_keeps
    | with_reducible apply fault_keeps
    | extract_lets
    | (intro _; try beta_reduce)
    | split
    | with_reducible apply upd_carts
    | with_reducible refine frame_keeps ?_ rfl rfl rfl rfl rfl rfl rfl rfl rfl (Nat.le_refl _))

theorem cartEnqueue_keeps (k : Fin 6) (i : Nat) (d : Dev) {e0 : Dev} (h_ : Keeps e0 d) :
    Keeps e0 (cartEnqueue k i d) := by
  refine h_.trans ?_
  unfold cartEnqueue
  repeat' (first
    | with_reducible exact Keeps.refl _
    | with_reducible assumption
    | with_reducible apply Dev.setReg_keeps
    | with_reducible apply Dev.setOut_keeps
    | with_reducible apply Dev.setCore_keeps
    | extract_lets
    | (intro _; try beta_reduce)
    | split
    | with_reducible apply upd_carts
    | with_reducible refine frame_keeps ?_ rfl rfl rfl rfl rfl rfl rfl rfl rfl (Nat.le_refl _))

theorem cartSources_keeps (d : Dev) {e0 : Dev} (h_ : Keeps e0 d) :
    Keeps e0 (cartSources d) := by
  refine h_.trans ?_
  unfold cartSources
  repeat' (first
    | with_reducible exact Keeps.refl _
    | with_reducible assumption
    | with_reducible apply Dev.setReg_keeps
    | with_reducible apply Dev.setOut_keeps
    | extract_lets
    | (intro _; try beta_reduce)
    | split
    | with_reducible refine frame_keeps ?_ rfl rfl rfl rfl rfl rfl rfl rfl rfl (Nat.le_refl _))

theorem cartDone_keeps (k : Fin 6) (i : Fin 64) (err : Option Sys2Proof.SramError) (d : Dev) {e0 : Dev} (h_ : Keeps e0 d) :
    Keeps e0 (cartDone k i err d) := by
  refine h_.trans ?_
  unfold cartDone
  repeat' (first
    | with_reducible exact Keeps.refl _
    | with_reducible assumption
    | with_reducible apply Dev.setReg_keeps
    | with_reducible apply Dev.setOut_keeps
    | with_reducible apply setDramBytes_keeps
    | with_reducible apply cartFlags_keeps
    | with_reducible apply sramErr_keeps
    | extract_lets
    | (intro _; try beta_reduce)
    | split
    | with_reducible apply upd_carts
    | with_reducible refine frame_keeps ?_ rfl rfl rfl rfl rfl rfl rfl rfl rfl (Nat.le_refl _))

theorem cartArrive_keeps (k : Fin 6) (i : Fin 64) (d : Dev) {e0 : Dev} (h_ : Keeps e0 d) :
    Keeps e0 (cartArrive k i d) := by
  refine h_.trans ?_
  unfold cartArrive
  repeat' (first
    | with_reducible exact Keeps.refl _
    | with_reducible assumption
    | with_reducible apply Dev.setReg_keeps
    | with_reducible apply Dev.setOut_keeps
    | extract_lets
    | (intro _; try beta_reduce)
    | split
    | with_reducible apply upd_carts
    | with_reducible refine frame_keeps ?_ rfl rfl rfl rfl rfl rfl rfl rfl rfl (Nat.le_refl _))

theorem cartsLand_keeps (d : Dev) {e0 : Dev} (h_ : Keeps e0 d) : Keeps e0 (cartsLand d) := by
  refine h_.trans ?_
  unfold cartsLand
  exact upd_carts _ _ (Keeps.foldl
    (fun d x => cartFlags_keeps _ _ _ _ (Keeps.sram (Memory.wf_setBytes _ _) (Keeps.refl _))) _ (Keeps.refl _))

theorem cartCapture_keeps (d : Dev) {e0 : Dev} (h_ : Keeps e0 d) :
    Keeps e0 (cartCapture d) := by
  refine h_.trans ?_
  unfold cartCapture
  repeat' (first
    | with_reducible exact Keeps.refl _
    | with_reducible assumption
    | with_reducible apply Dev.setReg_keeps
    | with_reducible apply Dev.setOut_keeps
    | extract_lets
    | (intro _; try beta_reduce)
    | split
    | with_reducible apply upd_cores
    | with_reducible refine frame_keeps ?_ rfl rfl rfl rfl rfl rfl rfl rfl rfl (Nat.le_refl _))

theorem Dev.setCel_keeps (d : Dev) (c : Cellar) (h : d.cel.Wf → c.Wf) {e0 : Dev} (h_ : Keeps e0 d) :
    Keeps e0 (d.setCel c) := cel_keeps d c h h_

theorem putEntries_wf (es : List (Nat × Word)) {m : Memory} (h : m.wf = true) : (putEntries es m).wf = true := by
  unfold putEntries
  induction es generalizing m with
  | nil => exact h
  | cons x t ih => exact ih (Memory.wf_setWord _ _ h)

theorem caskCommit_keeps (k : Fin 6) (c : Cask) (d : Dev) {e0 : Dev} (h_ : Keeps e0 d) : Keeps e0 (caskCommit k c d) := by
  refine h_.trans ?_
  unfold caskCommit
  extract_lets st d1 d2
  have k2 : Keeps d d2 := Dev.count1_keeps _ _ (Dev.setReg_keeps _ _ _ (Keeps.refl _))
  clear_value d2
  split
  · have k3 := logAssign_keeps d2 k2
    generalize logAssign d2 = q at k3
    obtain ⟨slot, d3⟩ := q
    dsimp only at k3 ⊢
    refine Dev.setCel_keeps _ _ ?_ k3
    refine fun h => ⟨?_, h.2.1, h.2.2⟩
    dsimp only
    split
    · exact Memory.wf_setBytes _ _ h.1
    · exact h.1
  · refine Dev.setCel_keeps _ _ ?_ k2
    exact fun h => ⟨putEntries_wf _ h.1, h.2.1, h.2.2⟩

theorem journalTick_keeps (committed : Nat) (d : Dev) {e0 : Dev} (h_ : Keeps e0 d) :
    Keeps e0 (journalTick committed d) := by
  refine h_.trans ?_
  unfold journalTick
  repeat' (first
    | (with_reducible refine fun (h : Cellar.Wf _) => ⟨?_, ?_, ?_⟩ <;>
        with_reducible first | exact h.1 | exact h.2.1 | exact h.2.2 | exact Memory.wf_setBytes _ _ h.1 |
          exact Memory.wf_setBytes _ _ h.2.1 | exact Memory.wf_setBytes _ _ h.2.2 | exact putEntries_wf _ h.1 |
          exact putEntries_wf _ h.2.1 | exact Memory.wf_write _ _ _ h.1 | exact Memory.wf_write _ _ _ h.2.1 | exact rfl)
    | with_reducible exact Keeps.refl _
    | with_reducible assumption
    | with_reducible apply Dev.setReg_keeps
    | with_reducible apply Dev.setOut_keeps
    | with_reducible apply Dev.setCel_keeps
    | extract_lets
    | (intro _; try beta_reduce)
    | split
    | with_reducible refine frame_keeps ?_ rfl rfl rfl rfl rfl rfl rfl rfl rfl (Nat.le_refl _))

theorem commitWords_keeps (d : Dev) {e0 : Dev} (h_ : Keeps e0 d) :
    Keeps e0 (commitWords d) := by
  refine h_.trans ?_
  unfold commitWords
  repeat' (first
    | (with_reducible refine fun (h : Cellar.Wf _) => ⟨?_, ?_, ?_⟩ <;>
        with_reducible first | exact h.1 | exact h.2.1 | exact h.2.2 | exact Memory.wf_setBytes _ _ h.1 |
          exact Memory.wf_setBytes _ _ h.2.1 | exact Memory.wf_setBytes _ _ h.2.2 | exact putEntries_wf _ h.1 |
          exact putEntries_wf _ h.2.1 | exact Memory.wf_write _ _ _ h.1 | exact Memory.wf_write _ _ _ h.2.1 | exact rfl)
    | with_reducible exact Keeps.refl _
    | with_reducible assumption
    | with_reducible apply Dev.setReg_keeps
    | with_reducible apply Dev.setOut_keeps
    | with_reducible apply Dev.setCel_keeps
    | extract_lets
    | (intro _; try beta_reduce)
    | split
    | with_reducible refine frame_keeps ?_ rfl rfl rfl rfl rfl rfl rfl rfl rfl (Nat.le_refl _))

theorem freeWord8_keeps (a : Nat) (d : Dev) {e0 : Dev} (h_ : Keeps e0 d) : Keeps e0 (freeWord8 a d) := by
  refine h_.trans ?_
  unfold freeWord8
  extract_lets bs a d1 c
  have k : Keeps d d1 := Dev.tickFree_keeps _ (Keeps.refl _)
  refine cel_keeps d1 { d1.cel with array := d.cel.array.setBytes a bs, durable := d.cel.durable.setBytes a bs }
    (fun h => ⟨Memory.wf_setBytes _ _ h.1, Memory.wf_setBytes _ _ h.2.1, h.2.2⟩) k

theorem writeError_keeps (a : Nat) (d : Dev) {e0 : Dev} (h_ : Keeps e0 d) :
    Keeps e0 (writeError a d) := by
  refine h_.trans ?_
  unfold writeError
  repeat' (first
    | with_reducible exact Keeps.refl _
    | with_reducible assumption
    | with_reducible apply Dev.setReg_keeps
    | with_reducible apply Dev.setOut_keeps
    | with_reducible apply Dev.setFlag_keeps
    | with_reducible apply raise_keeps
    | with_reducible apply fault_keeps
    | with_reducible apply freeWord8_keeps
    | extract_lets
    | (intro _; try beta_reduce)
    | split
    | with_reducible refine frame_keeps ?_ rfl rfl rfl rfl rfl rfl rfl rfl rfl (Nat.le_refl _))

theorem applyEntries_keeps (v : Sys2Proof.VerifyEnv) (es : List (Nat × Word)) (d : Dev) {e0 : Dev} (h_ : Keeps e0 d) :
    Keeps e0 (applyEntries v es d) := by
  refine h_.trans ?_
  unfold applyEntries
  repeat' (first
    | (with_reducible refine fun (h : Cellar.Wf _) => ⟨?_, ?_, ?_⟩ <;>
        with_reducible first | exact h.1 | exact h.2.1 | exact h.2.2 | exact Memory.wf_setBytes _ _ h.1 |
          exact Memory.wf_setBytes _ _ h.2.1 | exact Memory.wf_setBytes _ _ h.2.2 | exact putEntries_wf _ h.1 |
          exact putEntries_wf _ h.2.1 | exact Memory.wf_write _ _ _ h.1 | exact Memory.wf_write _ _ _ h.2.1 | exact rfl)
    | with_reducible exact Keeps.refl _
    | with_reducible assumption
    | with_reducible apply Dev.setReg_keeps
    | with_reducible apply Dev.setOut_keeps
    | with_reducible apply Dev.setCel_keeps
    | with_reducible apply writeError_keeps
    | with_reducible apply Keeps.foldl
    | extract_lets
    | (intro _; try beta_reduce)
    | split
    | with_reducible refine frame_keeps ?_ rfl rfl rfl rfl rfl rfl rfl rfl rfl (Nat.le_refl _))

theorem spillFull_keeps (d : Dev) {e0 : Dev} (h_ : Keeps e0 d) :
    Keeps e0 (spillFull d) := by
  refine h_.trans ?_
  unfold spillFull
  repeat' (first
    | with_reducible exact Keeps.refl _
    | with_reducible assumption
    | with_reducible apply Dev.setReg_keeps
    | with_reducible apply Dev.setOut_keeps
    | with_reducible apply Dev.setFlag_keeps
    | with_reducible apply fault_keeps
    | extract_lets
    | (intro _; try beta_reduce)
    | split
    | with_reducible refine frame_keeps ?_ rfl rfl rfl rfl rfl rfl rfl rfl rfl (Nat.le_refl _))

theorem spillRecord_keeps (v : Sys2Proof.VerifyEnv) (a : Nat) (rec_ : List Byte) (d : Dev) {e0 : Dev} (h_ : Keeps e0 d) :
    Keeps e0 (spillRecord v a rec_ d) := by
  refine h_.trans ?_
  unfold spillRecord
  repeat' (first
    | (with_reducible refine fun (h : Cellar.Wf _) => ⟨?_, ?_, ?_⟩ <;>
        with_reducible first | exact h.1 | exact h.2.1 | exact h.2.2 | exact Memory.wf_setBytes _ _ h.1 |
          exact Memory.wf_setBytes _ _ h.2.1 | exact Memory.wf_setBytes _ _ h.2.2 | exact putEntries_wf _ h.1 |
          exact putEntries_wf _ h.2.1 | exact Memory.wf_write _ _ _ h.1 | exact Memory.wf_write _ _ _ h.2.1 | exact rfl)
    | with_reducible exact Keeps.refl _
    | with_reducible assumption
    | with_reducible apply Dev.setReg_keeps
    | with_reducible apply Dev.setOut_keeps
    | with_reducible apply raise_keeps
    | with_reducible apply Dev.setCel_keeps
    | with_reducible apply spillFull_keeps
    | extract_lets
    | (intro _; try beta_reduce)
    | split
    | with_reducible refine frame_keeps ?_ rfl rfl rfl rfl rfl rfl rfl rfl rfl (Nat.le_refl _))

theorem foldl_setBytes_wf {α : Type} (f : α → Nat) (g : α → List Byte) (l : List α) {m : Memory} (h : m.wf = true) :
    (l.foldl (fun m i => m.setBytes (f i) (g i)) m).wf = true := by
  induction l generalizing m with
  | nil => exact h
  | cons x t ih => exact ih (Memory.wf_setBytes _ _ h)

theorem logFail_keeps (v : Sys2Proof.VerifyEnv) (slot : Nat) (seq : Word) (bs : List Byte) (w : Nat) (d : Dev) {e0 : Dev}
    (h_ : Keeps e0 d) : Keeps e0 (logFail v slot seq bs w d) := by
  refine h_.trans ?_
  unfold logFail
  extract_lets a done dur c1 d1 c2 d2 d3 d4 d5
  have k1 : Keeps d d1 := by
    refine freeWord8_keeps _ _ (Dev.setCel_keeps _ _ ?_ (Keeps.refl _))
    exact fun h => ⟨h.1, foldl_setBytes_wf _ _ _ h.2.1, h.2.2⟩
  have k2 : Keeps d d2 := by
    refine Dev.setCel_keeps _ _ ?_ k1
    exact fun h => ⟨Memory.wf_setBytes _ _ h.1, h.2.1, h.2.2⟩
  exact Dev.setReg_keeps _ _ _ (Dev.setReg_keeps _ _ _ (Dev.setFlag_keeps _ _ _ _ (spillRecord_keeps _ _ _ _
    (fault_keeps _ _ _ _ (Dev.setFlag_keeps _ _ _ _ k2)))))

theorem logWrite_keeps (v : Sys2Proof.VerifyEnv) (slot : Nat) (seq : Word) (bs : List Byte) (d : Dev) {e0 : Dev} (h_ : Keeps e0 d) :
    Keeps e0 (logWrite v slot seq bs d) := by
  refine h_.trans ?_
  unfold logWrite
  repeat' (first
    | (with_reducible refine fun (h : Cellar.Wf _) => ⟨?_, ?_, ?_⟩ <;>
        with_reducible first | exact h.1 | exact h.2.1 | exact h.2.2 | exact Memory.wf_setBytes _ _ h.1 |
          exact Memory.wf_setBytes _ _ h.2.1 | exact Memory.wf_setBytes _ _ h.2.2 | exact putEntries_wf _ h.1 |
          exact putEntries_wf _ h.2.1 | exact Memory.wf_write _ _ _ h.1 | exact Memory.wf_write _ _ _ h.2.1 | exact rfl)
    | with_reducible exact Keeps.refl _
    | with_reducible assumption
    | with_reducible apply Dev.setReg_keeps
    | with_reducible apply Dev.setOut_keeps
    | with_reducible apply Dev.count1_keeps
    | with_reducible apply Dev.setCel_keeps
    | with_reducible apply logFail_keeps
    | extract_lets
    | (intro _; try beta_reduce)
    | split
    | with_reducible refine frame_keeps ?_ rfl rfl rfl rfl rfl rfl rfl rfl rfl (Nat.le_refl _))

theorem caskApply_keeps (v : Sys2Proof.VerifyEnv) (d : Dev) {e0 : Dev} (h_ : Keeps e0 d) :
    Keeps e0 (caskApply v d) := by
  refine h_.trans ?_
  unfold caskApply
  repeat' (first
    | (with_reducible refine fun (h : Cellar.Wf _) => ⟨?_, ?_, ?_⟩ <;>
        with_reducible first | exact h.1 | exact h.2.1 | exact h.2.2 | exact Memory.wf_setBytes _ _ h.1 |
          exact Memory.wf_setBytes _ _ h.2.1 | exact Memory.wf_setBytes _ _ h.2.2 | exact putEntries_wf _ h.1 |
          exact putEntries_wf _ h.2.1 | exact Memory.wf_write _ _ _ h.1 | exact Memory.wf_write _ _ _ h.2.1 | exact rfl)
    | with_reducible exact Keeps.refl _
    | with_reducible assumption
    | with_reducible apply Dev.setReg_keeps
    | with_reducible apply Dev.setOut_keeps
    | with_reducible apply Dev.setCel_keeps
    | with_reducible apply applyEntries_keeps
    | with_reducible apply logWrite_keeps
    | with_reducible apply Keeps.foldl
    | extract_lets
    | (intro _; try beta_reduce)
    | split
    | with_reducible refine frame_keeps ?_ rfl rfl rfl rfl rfl rfl rfl rfl rfl (Nat.le_refl _))

theorem logResume_keeps (d : Dev) {e0 : Dev} (h_ : Keeps e0 d) :
    Keeps e0 (logResume d) := by
  refine h_.trans ?_
  unfold logResume
  repeat' (first
    | with_reducible exact Keeps.refl _
    | with_reducible assumption
    | with_reducible apply Dev.setReg_keeps
    | with_reducible apply Dev.setOut_keeps
    | with_reducible apply Dev.setFlag_keeps
    | extract_lets
    | (intro _; try beta_reduce)
    | split
    | with_reducible refine frame_keeps ?_ rfl rfl rfl rfl rfl rfl rfl rfl rfl (Nat.le_refl _))

theorem spillClear_keeps (d : Dev) {e0 : Dev} (h_ : Keeps e0 d) : Keeps e0 (spillClear d) :=
  Dev.setReg_keeps _ _ _ (by
    refine Dev.setCel_keeps _ _ ?_ h_
    exact fun h => ⟨h.1, h.2.1, rfl⟩)

theorem bootWrite_keeps (v : Sys2Proof.VerifyEnv) (a n val : Nat) (d : Dev) {e0 : Dev} (h_ : Keeps e0 d) :
    Keeps e0 (bootWrite v a n val d) := by
  refine h_.trans ?_
  unfold bootWrite
  repeat' (first
    | (with_reducible refine fun (h : Cellar.Wf _) => ⟨?_, ?_, ?_⟩ <;>
        with_reducible first | exact h.1 | exact h.2.1 | exact h.2.2 | exact Memory.wf_setBytes _ _ h.1 |
          exact Memory.wf_setBytes _ _ h.2.1 | exact Memory.wf_setBytes _ _ h.2.2 | exact putEntries_wf _ h.1 |
          exact putEntries_wf _ h.2.1 | exact Memory.wf_write _ _ _ h.1 | exact Memory.wf_write _ _ _ h.2.1 | exact rfl)
    | with_reducible exact Keeps.refl _
    | with_reducible assumption
    | with_reducible apply Dev.setReg_keeps
    | with_reducible apply Dev.setOut_keeps
    | with_reducible apply Dev.setCel_keeps
    | with_reducible apply writeError_keeps
    | with_reducible apply Keeps.foldl
    | extract_lets
    | (intro _; try beta_reduce)
    | split
    | with_reducible refine frame_keeps ?_ rfl rfl rfl rfl rfl rfl rfl rfl rfl (Nat.le_refl _))

theorem replayCask_keeps (j : JCask) (d : Dev) {e0 : Dev} (h_ : Keeps e0 d) :
    Keeps e0 (replayCask j d) := by
  refine h_.trans ?_
  unfold replayCask
  repeat' (first
    | (with_reducible refine fun (h : Cellar.Wf _) => ⟨?_, ?_, ?_⟩ <;>
        with_reducible first | exact h.1 | exact h.2.1 | exact h.2.2 | exact Memory.wf_setBytes _ _ h.1 |
          exact Memory.wf_setBytes _ _ h.2.1 | exact Memory.wf_setBytes _ _ h.2.2 | exact putEntries_wf _ h.1 |
          exact putEntries_wf _ h.2.1 | exact Memory.wf_write _ _ _ h.1 | exact Memory.wf_write _ _ _ h.2.1 | exact rfl)
    | with_reducible exact Keeps.refl _
    | with_reducible assumption
    | with_reducible apply Dev.setReg_keeps
    | with_reducible apply Dev.setOut_keeps
    | with_reducible apply Dev.setCel_keeps
    | extract_lets
    | (intro _; try beta_reduce)
    | split
    | with_reducible refine frame_keeps ?_ rfl rfl rfl rfl rfl rfl rfl rfl rfl (Nat.le_refl _))

theorem celReplay_keeps (bad : Option Nat) (d : Dev) {e0 : Dev} (h_ : Keeps e0 d) :
    Keeps e0 (celReplay bad d).2 := by
  refine h_.trans ?_
  unfold celReplay
  repeat' (first
    | (with_reducible refine fun (h : Cellar.Wf _) => ⟨?_, ?_, ?_⟩ <;>
        with_reducible first | exact h.1 | exact h.2.1 | exact h.2.2 | exact Memory.wf_setBytes _ _ h.1 |
          exact Memory.wf_setBytes _ _ h.2.1 | exact Memory.wf_setBytes _ _ h.2.2 | exact putEntries_wf _ h.1 |
          exact putEntries_wf _ h.2.1 | exact Memory.wf_write _ _ _ h.1 | exact Memory.wf_write _ _ _ h.2.1 | exact rfl)
    | with_reducible exact Keeps.refl _
    | with_reducible assumption
    | with_reducible apply Dev.setReg_keeps
    | with_reducible apply Dev.setOut_keeps
    | with_reducible apply Dev.setFlag_keeps
    | with_reducible apply fault_keeps
    | with_reducible apply Dev.setCel_keeps
    | with_reducible apply replayCask_keeps
    | with_reducible apply Keeps.foldl
    | extract_lets
    | (intro _; try beta_reduce)
    | split
    | with_reducible refine frame_keeps ?_ rfl rfl rfl rfl rfl rfl rfl rfl rfl (Nat.le_refl _))

theorem treeLoad_keeps (d : Dev) {e0 : Dev} (h_ : Keeps e0 d) :
    Keeps e0 (treeLoad d) := by
  refine h_.trans ?_
  unfold treeLoad
  repeat' (first
    | with_reducible exact Keeps.refl _
    | with_reducible assumption
    | with_reducible apply Dev.setReg_keeps
    | with_reducible apply Dev.setOut_keeps
    | with_reducible apply Dev.setFlag_keeps
    | extract_lets
    | (intro _; try beta_reduce)
    | split
    | with_reducible apply upd_trees
    | with_reducible refine upd_cel _ _ (fun h => h) (fun h => h) (fun h => h) ?_
    | with_reducible refine frame_keeps ?_ rfl rfl rfl rfl rfl rfl rfl rfl rfl (Nat.le_refl _))

theorem treeLoadEnd_keeps (ue : Bool) (d : Dev) {e0 : Dev} (h_ : Keeps e0 d) :
    Keeps e0 (treeLoadEnd ue d) := by
  refine h_.trans ?_
  unfold treeLoadEnd
  repeat' (first
    | with_reducible exact Keeps.refl _
    | with_reducible assumption
    | with_reducible apply Dev.setReg_keeps
    | with_reducible apply Dev.setOut_keeps
    | with_reducible apply raise_keeps
    | extract_lets
    | (intro _; try beta_reduce)
    | split
    | with_reducible apply upd_trees
    | with_reducible refine frame_keeps ?_ rfl rfl rfl rfl rfl rfl rfl rfl rfl (Nat.le_refl _))

theorem slotRegs_keeps (i : Fin 32) (d : Dev) {e0 : Dev} (h_ : Keeps e0 d) :
    Keeps e0 (slotRegs i d) := by
  refine h_.trans ?_
  unfold slotRegs
  repeat' (first
    | with_reducible exact Keeps.refl _
    | with_reducible assumption
    | with_reducible apply Dev.setReg_keeps
    | with_reducible apply Dev.setOut_keeps
    | with_reducible apply Dev.setFlag_keeps
    | extract_lets
    | (intro _; try beta_reduce)
    | split
    | with_reducible refine frame_keeps ?_ rfl rfl rfl rfl rfl rfl rfl rfl rfl (Nat.le_refl _))

theorem setSlot_keeps (i : Fin 32) (o : Option TModel) (d : Dev) {e0 : Dev} (h_ : Keeps e0 d) :
    Keeps e0 (setSlot i o d) := by
  refine h_.trans ?_
  unfold setSlot
  repeat' (first
    | with_reducible exact Keeps.refl _
    | with_reducible assumption
    | with_reducible apply Dev.setReg_keeps
    | with_reducible apply Dev.setOut_keeps
    | with_reducible apply slotRegs_keeps
    | extract_lets
    | (intro _; try beta_reduce)
    | split
    | with_reducible apply upd_trees
    | with_reducible refine frame_keeps ?_ rfl rfl rfl rfl rfl rfl rfl rfl rfl (Nat.le_refl _))

theorem modelPlace_keeps (d : Dev) {e0 : Dev} (h_ : Keeps e0 d) :
    Keeps e0 (modelPlace d) := by
  refine h_.trans ?_
  unfold modelPlace
  repeat' (first
    | with_reducible exact Keeps.refl _
    | with_reducible assumption
    | with_reducible apply Dev.setReg_keeps
    | with_reducible apply Dev.setOut_keeps
    | with_reducible apply raise_keeps
    | with_reducible apply setSlot_keeps
    | extract_lets
    | (intro _; try beta_reduce)
    | split
    | with_reducible apply upd_trees
    | with_reducible refine frame_keeps ?_ rfl rfl rfl rfl rfl rfl rfl rfl rfl (Nat.le_refl _))

theorem treeEvict_keeps (d : Dev) {e0 : Dev} (h_ : Keeps e0 d) :
    Keeps e0 (treeEvict d) := by
  refine h_.trans ?_
  unfold treeEvict
  repeat' (first
    | with_reducible exact Keeps.refl _
    | with_reducible assumption
    | with_reducible apply Dev.setReg_keeps
    | with_reducible apply Dev.setOut_keeps
    | with_reducible apply Dev.setFlag_keeps
    | with_reducible apply raise_keeps
    | with_reducible apply setSlot_keeps
    | with_reducible apply Keeps.forAll
    | extract_lets
    | (intro _; try beta_reduce)
    | split
    | with_reducible refine frame_keeps ?_ rfl rfl rfl rfl rfl rfl rfl rfl rfl (Nat.le_refl _))

theorem engineTake_keeps (k : Fin 6) (issue work : Nat) (d : Dev) {e0 : Dev} (h_ : Keeps e0 d) :
    Keeps e0 (engineTake k issue work d) := by
  refine h_.trans ?_
  unfold engineTake
  repeat' (first
    | with_reducible exact Keeps.refl _
    | with_reducible assumption
    | with_reducible apply Dev.setReg_keeps
    | with_reducible apply Dev.setOut_keeps
    | with_reducible apply Dev.setCore_keeps
    | with_reducible apply Keeps.forAll
    | extract_lets
    | (intro _; try beta_reduce)
    | split
    | with_reducible refine frame_keeps ?_ rfl rfl rfl rfl rfl rfl rfl rfl rfl (Nat.le_refl _))

end Sys2Proof.Machine
end

