-- ==== Sys2Proof/Laws/KeepsCommit.lean ====
section
/-! SUPPORT. What the operations of Machine/Ports.lean, Machine/Commit.lean, Machine/Loader.lean, Machine/Modes.lean keep (Laws/Keeps.lean). -/
set_option linter.unusedTactic false
set_option linter.unreachableTactic false
namespace Sys2Proof.Machine

theorem sysPortLatch_keeps (d : Dev) {e0 : Dev} (h_ : Keeps e0 d) :
    Keeps e0 (sysPortLatch d) := by
  refine h_.trans ?_
  unfold sysPortLatch
  repeat' (first
    | with_reducible exact Keeps.refl _
    | with_reducible assumption
    | with_reducible apply Dev.setReg_keeps
    | with_reducible apply Dev.setOut_keeps
    | extract_lets
    | (intro _; try beta_reduce)
    | split
    | with_reducible apply upd_pw
    | with_reducible refine frame_keeps ?_ rfl rfl rfl rfl rfl rfl rfl rfl rfl (Nat.le_refl _))

theorem hold_keeps (p : Nat) (v : Word) (d : Dev) {e0 : Dev} (h_ : Keeps e0 d) :
    Keeps e0 (hold p v d) := by
  refine h_.trans ?_
  unfold hold
  repeat' (first
    | with_reducible exact Keeps.refl _
    | with_reducible assumption
    | with_reducible apply Dev.setReg_keeps
    | with_reducible apply Dev.setOut_keeps
    | extract_lets
    | (intro _; try beta_reduce)
    | split
    | with_reducible refine frame_keeps ?_ rfl rfl rfl rfl rfl rfl rfl rfl rfl (Nat.le_refl _))

theorem dropHeld_keeps (p : Nat) (d : Dev) {e0 : Dev} (h_ : Keeps e0 d) :
    Keeps e0 (dropHeld p d) := by
  refine h_.trans ?_
  unfold dropHeld
  repeat' (first
    | with_reducible exact Keeps.refl _
    | with_reducible assumption
    | with_reducible apply Dev.setReg_keeps
    | with_reducible apply Dev.setOut_keeps
    | extract_lets
    | (intro _; try beta_reduce)
    | split
    | with_reducible refine frame_keeps ?_ rfl rfl rfl rfl rfl rfl rfl rfl rfl (Nat.le_refl _))

theorem act_keeps (p : Nat) (f : Word → Dev → Dev) (d : Dev) (hf : ∀ x0 e d, Keeps e d → Keeps e (f x0 d)) {e0 : Dev} (h_ : Keeps e0 d) :
    Keeps e0 (act p f d) := by
  refine h_.trans ?_
  unfold act
  repeat' (first
    | with_reducible exact Keeps.refl _
    | with_reducible assumption
    | with_reducible apply hf
    | with_reducible apply Dev.setReg_keeps
    | with_reducible apply Dev.setOut_keeps
    | with_reducible apply dropHeld_keeps
    | extract_lets
    | (intro _; try beta_reduce)
    | split
    | with_reducible refine frame_keeps ?_ rfl rfl rfl rfl rfl rfl rfl rfl rfl (Nat.le_refl _))

theorem supersede_keeps (p : Nat) (f : Word → Bool) (d : Dev) {e0 : Dev} (h_ : Keeps e0 d) :
    Keeps e0 (supersede p f d) := by
  refine h_.trans ?_
  unfold supersede
  repeat' (first
    | with_reducible exact Keeps.refl _
    | with_reducible assumption
    | with_reducible apply Dev.setReg_keeps
    | with_reducible apply Dev.setOut_keeps
    | with_reducible apply dropHeld_keeps
    | extract_lets
    | (intro _; try beta_reduce)
    | split
    | with_reducible refine frame_keeps ?_ rfl rfl rfl rfl rfl rfl rfl rfl rfl (Nat.le_refl _))

theorem commitTable_keeps (n : Fin 16) (cog : Bool) (w : Nat) (a : Nat) (v : Word) (d : Dev) {e0 : Dev} (h_ : Keeps e0 d) :
    Keeps e0 (commitTable n cog w a v d) := by
  refine h_.trans ?_
  unfold commitTable
  repeat' (first
    | with_reducible exact Keeps.refl _
    | with_reducible assumption
    | with_reducible apply Dev.setReg_keeps
    | with_reducible apply Dev.setOut_keeps
    | with_reducible apply Dev.setFlag_keeps
    | with_reducible apply supersede_keeps
    | with_reducible apply Keeps.forAll
    | extract_lets
    | (intro _; try beta_reduce)
    | split
    | with_reducible refine frame_keeps ?_ rfl rfl rfl rfl rfl rfl rfl rfl rfl (Nat.le_refl _))

theorem commitLane_keeps (n : Fin 16) (ofs a : Nat) (v : Word) (d : Dev) {e0 : Dev} (h_ : Keeps e0 d) :
    Keeps e0 (commitLane n ofs a v d) := by
  refine h_.trans ?_
  unfold commitLane
  repeat' (first
    | with_reducible exact Keeps.refl _
    | with_reducible assumption
    | with_reducible apply Dev.setReg_keeps
    | with_reducible apply Dev.setOut_keeps
    | with_reducible apply commitGain_keeps
    | with_reducible apply commitLaneCfg_keeps
    | with_reducible apply commitPmap_keeps
    | with_reducible apply commitCarrier_keeps
    | with_reducible apply hold_keeps
    | with_reducible apply commitTable_keeps
    | extract_lets
    | (intro _; try beta_reduce)
    | split
    | with_reducible refine frame_keeps ?_ rfl rfl rfl rfl rfl rfl rfl rfl rfl (Nat.le_refl _))

theorem commitPrint_keeps (p : Fin 2) (ofs a : Nat) (v : Word) (d : Dev) {e0 : Dev} (h_ : Keeps e0 d) :
    Keeps e0 (commitPrint p ofs a v d) := by
  refine h_.trans ?_
  unfold commitPrint
  repeat' (first
    | with_reducible exact Keeps.refl _
    | with_reducible assumption
    | with_reducible apply Dev.setReg_keeps
    | with_reducible apply Dev.setOut_keeps
    | with_reducible apply retable_keeps
    | with_reducible apply commitPrtCfg_keeps
    | with_reducible apply commitRatio_keeps
    | with_reducible apply hold_keeps
    | with_reducible apply supersede_keeps
    | extract_lets
    | (intro _; try beta_reduce)
    | split
    | with_reducible refine frame_keeps ?_ rfl rfl rfl rfl rfl rfl rfl rfl rfl (Nat.le_refl _))

theorem commitVision_keeps (a : Nat) (v : Word) (d : Dev) {e0 : Dev} (h_ : Keeps e0 d) :
    Keeps e0 (commitVision a v d) := by
  refine h_.trans ?_
  unfold commitVision
  repeat' (first
    | with_reducible exact Keeps.refl _
    | with_reducible assumption
    | with_reducible apply Dev.setReg_keeps
    | with_reducible apply Dev.setOut_keeps
    | with_reducible apply commitCsiCfg_keeps
    | with_reducible apply commitCsiSize_keeps
    | with_reducible apply commitHoffCfg_keeps
    | extract_lets
    | (intro _; try beta_reduce)
    | split
    | with_reducible refine frame_keeps ?_ rfl rfl rfl rfl rfl rfl rfl rfl rfl (Nat.le_refl _))

theorem commitReg_keeps (a : Nat) (v : Word) (d : Dev) {e0 : Dev} (h_ : Keeps e0 d) :
    Keeps e0 (commitReg a v d) := by
  refine h_.trans ?_
  unfold commitReg
  repeat' (first
    | with_reducible exact Keeps.refl _
    | with_reducible assumption
    | with_reducible apply Dev.setReg_keeps
    | with_reducible apply Dev.setOut_keeps
    | with_reducible apply commitFbCfg_keeps
    | with_reducible apply commitGroup_keeps
    | with_reducible apply commitAxis_keeps
    | with_reducible apply commitFldCfg_keeps
    | with_reducible apply hold_keeps
    | with_reducible apply commitLane_keeps
    | with_reducible apply commitPrint_keeps
    | with_reducible apply commitVision_keeps
    | extract_lets
    | (intro _; try beta_reduce)
    | split
    | with_reducible refine frame_keeps ?_ rfl rfl rfl rfl rfl rfl rfl rfl rfl (Nat.le_refl _))

theorem commitPort_keeps (p : Nat) (v : Word) (d : Dev) {e0 : Dev} (h_ : Keeps e0 d) :
    Keeps e0 (commitPort p v d) := by
  refine h_.trans ?_
  unfold commitPort
  repeat' (first
    | with_reducible exact Keeps.refl _
    | with_reducible assumption
    | with_reducible apply Dev.setReg_keeps
    | with_reducible apply Dev.setOut_keeps
    | with_reducible apply visQcyc_keeps
    | with_reducible apply visConfmin_keeps
    | with_reducible apply hold_keeps
    | with_reducible apply commitReg_keeps
    | extract_lets
    | (intro _; try beta_reduce)
    | split
    | with_reducible refine frame_keeps ?_ rfl rfl rfl rfl rfl rfl rfl rfl rfl (Nat.le_refl _))

theorem fbAct_keeps (c : Fin 16) (v : Word) (d : Dev) {e0 : Dev} (h_ : Keeps e0 d) :
    Keeps e0 (fbAct c v d) := by
  refine h_.trans ?_
  unfold fbAct
  repeat' (first
    | with_reducible exact Keeps.refl _
    | with_reducible assumption
    | with_reducible apply Dev.setReg_keeps
    | with_reducible apply Dev.setOut_keeps
    | with_reducible apply setPos_keeps
    | with_reducible apply refSet_keeps
    | with_reducible apply zArm_keeps
    | with_reducible apply reArm_keeps
    | extract_lets
    | (intro _; try beta_reduce)
    | split
    | with_reducible refine frame_keeps ?_ rfl rfl rfl rfl rfl rfl rfl rfl rfl (Nat.le_refl _))

theorem commitActs_keeps (d : Dev) {e0 : Dev} (h_ : Keeps e0 d) :
    Keeps e0 (commitActs d) := by
  refine h_.trans ?_
  unfold commitActs
  repeat' (first
    | with_reducible exact Keeps.refl _
    | with_reducible assumption
    | with_reducible apply Dev.setReg_keeps
    | with_reducible apply Dev.setOut_keeps
    | with_reducible apply tableWrite_keeps
    | with_reducible apply laneAct_keeps
    | with_reducible apply jobCmd_keeps
    | with_reducible apply densityWrite_keeps
    | with_reducible apply sliceWrite_keeps
    | with_reducible apply visRunPort_keeps
    | with_reducible apply popCommit_keeps
    | with_reducible apply softEvents_keeps
    | with_reducible apply treeLoad_keeps
    | with_reducible apply setptWrite_keeps
    | with_reducible apply hartReplyGo_keeps
    | with_reducible apply trimCmd_keeps
    | with_reducible apply idRead_keeps
    | with_reducible apply act_keeps
    | with_reducible apply fbAct_keeps
    | with_reducible apply Keeps.forAll
    | extract_lets
    | (intro _; try beta_reduce)
    | split
    | with_reducible refine frame_keeps ?_ rfl rfl rfl rfl rfl rfl rfl rfl rfl (Nat.le_refl _))

theorem commitOne_keeps (d : Dev) (s : Staged) {e0 : Dev} (h_ : Keeps e0 d) :
    Keeps e0 (commitOne d s) := by
  refine h_.trans ?_
  unfold commitOne
  repeat' (first
    | with_reducible exact Keeps.refl _
    | with_reducible assumption
    | with_reducible apply Dev.setReg_keeps
    | with_reducible apply Dev.setOut_keeps
    | with_reducible apply Dev.setCore_keeps
    | with_reducible apply commitReg_keeps
    | with_reducible apply commitPort_keeps
    | extract_lets
    | (intro _; try beta_reduce)
    | split
    | with_reducible refine frame_keeps ?_ rfl rfl rfl rfl rfl rfl rfl rfl rfl (Nat.le_refl _)
    | with_reducible refine Keeps.sram (Memory.wf_setBytes _ _) ?_
    | with_reducible refine Keeps.sram (Memory.wf_setWord _ _) ?_
    | with_reducible refine Keeps.sram (Memory.wf_write _ _ _) ?_)

theorem commitWrites_keeps (l : List Staged) (d : Dev) {e0 : Dev} (h_ : Keeps e0 d) :
    Keeps e0 (commitWrites l d) := by
  unfold commitWrites
  exact Keeps.foldl (fun _ _ => Dev.count1_keeps _ _ (Keeps.refl _)) _
    (commitActs_keeps _ (Keeps.foldl (fun _ _ => commitOne_keeps _ _ (Keeps.refl _)) _
      (Keeps.forAll (fun _ _ => Dev.setOut_keeps _ _ _ (Keeps.refl _)) _
        (Dev.setOut_keeps _ _ _ (Dev.setOut_keeps _ _ _ h_)))))

theorem commitCasks_keeps (l : List Staged) (d : Dev) {e0 : Dev} (h_ : Keeps e0 d) :
    Keeps e0 (commitCasks l d) := by
  refine h_.trans ?_
  unfold commitCasks
  repeat' (first
    | with_reducible exact Keeps.refl _
    | with_reducible assumption
    | with_reducible apply Dev.setReg_keeps
    | with_reducible apply Dev.setOut_keeps
    | with_reducible apply caskCommit_keeps
    | with_reducible apply journalTick_keeps
    | with_reducible apply Keeps.foldl
    | extract_lets
    | (intro _; try beta_reduce)
    | split
    | with_reducible refine frame_keeps ?_ rfl rfl rfl rfl rfl rfl rfl rfl rfl (Nat.le_refl _))

theorem commitCarts_keeps (l : List Staged) (d : Dev) {e0 : Dev} (h_ : Keeps e0 d) :
    Keeps e0 (commitCarts l d) := by
  refine h_.trans ?_
  unfold commitCarts
  repeat' (first
    | with_reducible exact Keeps.refl _
    | with_reducible assumption
    | with_reducible apply Dev.setReg_keeps
    | with_reducible apply Dev.setOut_keeps
    | with_reducible apply cartEnqueue_keeps
    | with_reducible apply Keeps.foldl
    | extract_lets
    | (intro _; try beta_reduce)
    | split
    | with_reducible refine frame_keeps ?_ rfl rfl rfl rfl rfl rfl rfl rfl rfl (Nat.le_refl _))

theorem printFeed_keeps (im : Image) (p : Nat) (d : Dev) {e0 : Dev} (h_ : Keeps e0 d) :
    Keeps e0 (printFeed im p d) := by
  refine h_.trans ?_
  unfold printFeed
  repeat' (first
    | with_reducible exact Keeps.refl _
    | with_reducible assumption
    | with_reducible apply Dev.setReg_keeps
    | with_reducible apply Dev.setOut_keeps
    | extract_lets
    | (intro _; try beta_reduce)
    | split
    | with_reducible refine frame_keeps ?_ rfl rfl rfl rfl rfl rfl rfl rfl rfl (Nat.le_refl _))

theorem imageTake_keeps (d : Dev) {e0 : Dev} (h_ : Keeps e0 d) :
    Keeps e0 (imageTake d) := by
  refine h_.trans ?_
  unfold imageTake
  repeat' (first
    | with_reducible exact Keeps.refl _
    | with_reducible assumption
    | with_reducible apply Dev.setReg_keeps
    | with_reducible apply Dev.setOut_keeps
    | with_reducible apply visImage_keeps
    | with_reducible apply treeEvict_keeps
    | with_reducible apply printFeed_keeps
    | with_reducible apply Keeps.forAll
    | extract_lets
    | (intro _; try beta_reduce)
    | split
    | with_reducible apply upd_cores
    | with_reducible apply upd_loader
    | with_reducible apply upd_lanes
    | with_reducible refine frame_keeps ?_ rfl rfl rfl rfl rfl rfl rfl rfl rfl (Nat.le_refl _))

theorem imageDiscard_keeps (l : List Staged) (d : Dev) {e0 : Dev} (h_ : Keeps e0 d) :
    Keeps e0 (imageDiscard l d).2 := by
  refine h_.trans ?_
  unfold imageDiscard
  repeat' (first
    | with_reducible exact Keeps.refl _
    | with_reducible assumption
    | with_reducible apply Dev.setReg_keeps
    | with_reducible apply Dev.setOut_keeps
    | with_reducible apply setRefuse_keeps
    | extract_lets
    | (intro _; try beta_reduce)
    | split
    | with_reducible refine frame_keeps ?_ rfl rfl rfl rfl rfl rfl rfl rfl rfl (Nat.le_refl _))

theorem loadWatch_keeps (old : Dev) (d : Dev) {e0 : Dev} (h_ : Keeps e0 d) :
    Keeps e0 (loadWatch old d) := by
  refine h_.trans ?_
  unfold loadWatch
  repeat' (first
    | with_reducible exact Keeps.refl _
    | with_reducible assumption
    | with_reducible apply Dev.setReg_keeps
    | with_reducible apply Dev.setOut_keeps
    | extract_lets
    | (intro _; try beta_reduce)
    | split
    | with_reducible apply upd_loader
    | with_reducible refine frame_keeps ?_ rfl rfl rfl rfl rfl rfl rfl rfl rfl (Nat.le_refl _))

theorem loadStart_keeps (cel : Bool) (d : Dev) {e0 : Dev} (h_ : Keeps e0 d) :
    Keeps e0 (loadStart cel d) := by
  refine h_.trans ?_
  unfold loadStart
  repeat' (first
    | with_reducible exact Keeps.refl _
    | with_reducible assumption
    | with_reducible apply Dev.setReg_keeps
    | with_reducible apply Dev.setOut_keeps
    | extract_lets
    | (intro _; try beta_reduce)
    | split
    | with_reducible apply upd_loader
    | with_reducible refine frame_keeps ?_ rfl rfl rfl rfl rfl rfl rfl rfl rfl (Nat.le_refl _))

theorem loadCommand_keeps (v : Word) (d : Dev) {e0 : Dev} (h_ : Keeps e0 d) :
    Keeps e0 (loadCommand v d) := by
  refine h_.trans ?_
  unfold loadCommand
  repeat' (first
    | with_reducible exact Keeps.refl _
    | with_reducible assumption
    | with_reducible apply Dev.setReg_keeps
    | with_reducible apply Dev.setOut_keeps
    | with_reducible apply Dev.setFlag_keeps
    | with_reducible apply raise_keeps
    | with_reducible apply loadStart_keeps
    | extract_lets
    | (intro _; try beta_reduce)
    | split
    | with_reducible refine frame_keeps ?_ rfl rfl rfl rfl rfl rfl rfl rfl rfl (Nat.le_refl _))

theorem loadVerifyEnd_keeps (d : Dev) {e0 : Dev} (h_ : Keeps e0 d) :
    Keeps e0 (loadVerifyEnd d) := by
  refine h_.trans ?_
  unfold loadVerifyEnd
  repeat' (first
    | with_reducible exact Keeps.refl _
    | with_reducible assumption
    | with_reducible apply Dev.setReg_keeps
    | with_reducible apply Dev.setOut_keeps
    | with_reducible apply Dev.tickFree_keeps
    | with_reducible apply raise_keeps
    | extract_lets
    | (intro _; try beta_reduce)
    | split
    | with_reducible apply upd_loader
    | with_reducible refine frame_keeps ?_ rfl rfl rfl rfl rfl rfl rfl rfl rfl (Nat.le_refl _))

theorem monRelease_keeps (d : Dev) {e0 : Dev} (h_ : Keeps e0 d) :
    Keeps e0 (monRelease d) := by
  refine h_.trans ?_
  unfold monRelease
  repeat' (first
    | with_reducible exact Keeps.refl _
    | with_reducible assumption
    | with_reducible apply Dev.setReg_keeps
    | with_reducible apply Dev.setOut_keeps
    | with_reducible apply Dev.setFlag_keeps
    | extract_lets
    | (intro _; try beta_reduce)
    | split
    | with_reducible apply upd_holdReq
    | with_reducible apply upd_tick
    | with_reducible apply upd_mon
    | with_reducible refine frame_keeps ?_ rfl rfl rfl rfl rfl rfl rfl rfl rfl (Nat.le_refl _))

theorem monSessionEnd_keeps (d : Dev) {e0 : Dev} (h_ : Keeps e0 d) :
    Keeps e0 (monSessionEnd d) := by
  refine h_.trans ?_
  unfold monSessionEnd
  repeat' (first
    | with_reducible exact Keeps.refl _
    | with_reducible assumption
    | with_reducible apply Dev.setReg_keeps
    | with_reducible apply Dev.setOut_keeps
    | with_reducible apply Dev.setFlag_keeps
    | with_reducible apply monRelease_keeps
    | extract_lets
    | (intro _; try beta_reduce)
    | split
    | with_reducible refine frame_keeps ?_ rfl rfl rfl rfl rfl rfl rfl rfl rfl (Nat.le_refl _))

theorem setMode_keeps (m : Mode) (d : Dev) {e0 : Dev} (h_ : Keeps e0 d) :
    Keeps e0 (setMode m d) := by
  refine h_.trans ?_
  unfold setMode
  repeat' (first
    | with_reducible exact Keeps.refl _
    | with_reducible assumption
    | with_reducible apply Dev.setReg_keeps
    | with_reducible apply Dev.setOut_keeps
    | with_reducible apply Dev.setFlag_keeps
    | with_reducible apply printLeaveRun_keeps
    | with_reducible apply axesLeaveRun_keeps
    | with_reducible apply monSessionEnd_keeps
    | extract_lets
    | (intro _; try beta_reduce)
    | split
    | with_reducible apply upd_mode
    | with_reducible apply upd_origin
    | with_reducible refine frame_keeps ?_ rfl rfl rfl rfl rfl rfl rfl rfl rfl (Nat.le_refl _))

theorem modeRefuse_keeps (code : Nat) (d : Dev) {e0 : Dev} (h_ : Keeps e0 d) :
    Keeps e0 (modeRefuse code d) := by
  refine h_.trans ?_
  unfold modeRefuse
  repeat' (first
    | with_reducible exact Keeps.refl _
    | with_reducible assumption
    | with_reducible apply Dev.setReg_keeps
    | with_reducible apply Dev.setOut_keeps
    | with_reducible apply Dev.setFld_keeps
    | with_reducible apply Dev.setFlag_keeps
    | extract_lets
    | (intro _; try beta_reduce)
    | split
    | with_reducible refine frame_keeps ?_ rfl rfl rfl rfl rfl rfl rfl rfl rfl (Nat.le_refl _))

theorem modeRequest_keeps (from_ : Mode) (demand : Bool) (cause req : Nat) (d : Dev) {e0 : Dev} (h_ : Keeps e0 d) :
    Keeps e0 (modeRequest from_ demand cause req d) := by
  refine h_.trans ?_
  unfold modeRequest
  repeat' (first
    | with_reducible exact Keeps.refl _
    | with_reducible assumption
    | with_reducible apply Dev.setReg_keeps
    | with_reducible apply Dev.setOut_keeps
    | with_reducible apply Dev.setFlag_keeps
    | with_reducible apply raise_keeps
    | with_reducible apply raiseIf_keeps
    | with_reducible apply hold_keeps
    | with_reducible apply setMode_keeps
    | with_reducible apply modeRefuse_keeps
    | extract_lets
    | (intro _; try beta_reduce)
    | split
    | with_reducible refine frame_keeps ?_ rfl rfl rfl rfl rfl rfl rfl rfl rfl (Nat.le_refl _))

theorem modeEdge_keeps (demand : Bool) (req : Nat) (d : Dev) {e0 : Dev} (h_ : Keeps e0 d) :
    Keeps e0 (modeEdge demand req d) := by
  refine h_.trans ?_
  unfold modeEdge
  repeat' (first
    | with_reducible exact Keeps.refl _
    | with_reducible assumption
    | with_reducible apply Dev.setReg_keeps
    | with_reducible apply Dev.setOut_keeps
    | with_reducible apply Dev.setFlag_keeps
    | with_reducible apply fault_keeps
    | with_reducible apply hold_keeps
    | with_reducible apply setMode_keeps
    | with_reducible apply modeRequest_keeps
    | extract_lets
    | (intro _; try beta_reduce)
    | split
    | with_reducible apply upd_holdReq
    | with_reducible refine frame_keeps ?_ rfl rfl rfl rfl rfl rfl rfl rfl rfl (Nat.le_refl _))

theorem harnessLinkLoss_keeps (d : Dev) {e0 : Dev} (h_ : Keeps e0 d) :
    Keeps e0 (harnessLinkLoss d) := by
  refine h_.trans ?_
  unfold harnessLinkLoss
  repeat' (first
    | with_reducible exact Keeps.refl _
    | with_reducible assumption
    | with_reducible apply Dev.setReg_keeps
    | with_reducible apply Dev.setOut_keeps
    | with_reducible apply Dev.setFlag_keeps
    | with_reducible apply hrnLinkSet_keeps
    | with_reducible apply hrnWake_keeps
    | extract_lets
    | (intro _; try beta_reduce)
    | split
    | with_reducible refine frame_keeps ?_ rfl rfl rfl rfl rfl rfl rfl rfl rfl (Nat.le_refl _))

theorem powerChoose_keeps (d : Dev) {e0 : Dev} (h_ : Keeps e0 d) :
    Keeps e0 (powerChoose d) := by
  refine h_.trans ?_
  unfold powerChoose
  repeat' (first
    | with_reducible exact Keeps.refl _
    | with_reducible assumption
    | with_reducible apply Dev.setReg_keeps
    | with_reducible apply Dev.setOut_keeps
    | with_reducible apply Dev.setFld_keeps
    | with_reducible apply Dev.setFlag_keeps
    | with_reducible apply visSleep_keeps
    | extract_lets
    | (intro _; try beta_reduce)
    | split
    | with_reducible apply upd_pw
    | with_reducible refine frame_keeps ?_ rfl rfl rfl rfl rfl rfl rfl rfl rfl (Nat.le_refl _))

theorem traceEntry_keeps (abandoned : Bool) (causes : Nat) (cycles : List Word) (d : Dev) {e0 : Dev} (h_ : Keeps e0 d) :
    Keeps e0 (traceEntry abandoned causes cycles d) := by
  refine h_.trans ?_
  unfold traceEntry
  repeat' (first
    | with_reducible exact Keeps.refl _
    | with_reducible assumption
    | with_reducible apply Dev.setReg_keeps
    | with_reducible apply Dev.setOut_keeps
    | with_reducible apply Dev.setFlag_keeps
    | with_reducible apply Keeps.forAll
    | extract_lets
    | (intro _; try beta_reduce)
    | split
    | with_reducible apply upd_mon
    | with_reducible refine frame_keeps ?_ rfl rfl rfl rfl rfl rfl rfl rfl rfl (Nat.le_refl _))

theorem monEdge_keeps (ran : Bool) (d : Dev) {e0 : Dev} (h_ : Keeps e0 d) :
    Keeps e0 (monEdge ran d) := by
  refine h_.trans ?_
  unfold monEdge
  repeat' (first
    | with_reducible exact Keeps.refl _
    | with_reducible assumption
    | with_reducible apply Dev.setReg_keeps
    | with_reducible apply Dev.setOut_keeps
    | with_reducible apply Dev.setFlag_keeps
    | extract_lets
    | (intro _; try beta_reduce)
    | split
    | with_reducible apply upd_holdReq
    | with_reducible apply upd_mon
    | with_reducible refine frame_keeps ?_ rfl rfl rfl rfl rfl rfl rfl rfl rfl (Nat.le_refl _))

end Sys2Proof.Machine
end

