-- ==== Sys2Proof/Laws/KeepsHost.lean ====
section
/-! SUPPORT. What the operations of Machine/HostRead.lean, Machine/Rings.lean, Machine/Reset.lean, Machine/HostWrite.lean keep (Laws/Keeps.lean). -/
set_option linter.unusedTactic false
set_option linter.unreachableTactic false
namespace Sys2Proof.Machine

theorem latchHi_keeps (r : Reader) (a : Nat) (d : Dev) {e0 : Dev} (h_ : Keeps e0 d) :
    Keeps e0 (latchHi r a d) := by
  refine h_.trans ?_
  unfold latchHi
  repeat' (first
    | with_reducible exact Keeps.refl _
    | with_reducible assumption
    | with_reducible apply Dev.setReg_keeps
    | with_reducible apply Dev.setOut_keeps
    | with_reducible apply Dev.setPort_keeps
    | extract_lets
    | (intro _; try beta_reduce)
    | split
    | with_reducible apply upd_mon
    | with_reducible refine frame_keeps ?_ rfl rfl rfl rfl rfl rfl rfl rfl rfl (Nat.le_refl _))

theorem devRead_keeps (rd : Reader) (a n : Nat) (snap d : Dev) {e0 : Dev} (h_ : Keeps e0 d) :
    Keeps e0 (devRead rd a n snap d).2.2 := by
  refine h_.trans ?_
  unfold devRead
  repeat' (first
    | with_reducible exact Keeps.refl _
    | with_reducible assumption
    | with_reducible apply Dev.setReg_keeps
    | with_reducible apply Dev.setOut_keeps
    | with_reducible apply setAccErr_keeps
    | with_reducible apply latchHi_keeps
    | extract_lets
    | (intro _; try beta_reduce)
    | split
    | with_reducible refine frame_keeps ?_ rfl rfl rfl rfl rfl rfl rfl rfl rfl (Nat.le_refl _))

theorem celEcc_keeps (e : Sys2Proof.Ecc) (a : Nat) (bs : List Byte) (d : Dev) {e0 : Dev} (h_ : Keeps e0 d) :
    Keeps e0 (celEcc e a bs d).2 := by
  refine h_.trans ?_
  unfold celEcc
  repeat' (first
    | with_reducible exact Keeps.refl _
    | with_reducible assumption
    | with_reducible apply Dev.setReg_keeps
    | with_reducible apply Dev.setOut_keeps
    | with_reducible apply Dev.setFlag_keeps
    | with_reducible apply fault_keeps
    | extract_lets
    | (intro _; try beta_reduce)
    | split
    | with_reducible refine frame_keeps ?_ rfl rfl rfl rfl rfl rfl rfl rfl rfl (Nat.le_refl _))

theorem Writer.refuse_keeps (w : Writer) (d : Dev) {e0 : Dev} (h_ : Keeps e0 d) :
    Keeps e0 (Writer.refuse w d) := by
  refine h_.trans ?_
  unfold Writer.refuse
  repeat' (first
    | with_reducible exact Keeps.refl _
    | with_reducible assumption
    | with_reducible apply Dev.setReg_keeps
    | with_reducible apply Dev.setOut_keeps
    | with_reducible apply setRefuse_keeps
    | extract_lets
    | (intro _; try beta_reduce)
    | split
    | with_reducible refine frame_keeps ?_ rfl rfl rfl rfl rfl rfl rfl rfl rfl (Nat.le_refl _))

theorem periodError_keeps (d : Dev) {e0 : Dev} (h_ : Keeps e0 d) :
    Keeps e0 (periodError d) := by
  refine h_.trans ?_
  unfold periodError
  repeat' (first
    | with_reducible exact Keeps.refl _
    | with_reducible assumption
    | with_reducible apply Dev.setReg_keeps
    | with_reducible apply Dev.setOut_keeps
    | with_reducible apply Dev.setFlag_keeps
    | with_reducible apply raise_keeps
    | extract_lets
    | (intro _; try beta_reduce)
    | split
    | with_reducible refine frame_keeps ?_ rfl rfl rfl rfl rfl rfl rfl rfl rfl (Nat.le_refl _))

theorem stageReg_keeps (w : Writer) (a : Nat) (v : Word) (d : Dev) {e0 : Dev} (h_ : Keeps e0 d) :
    Keeps e0 (stageReg w a v d).2 := by
  refine h_.trans ?_
  unfold stageReg
  repeat' (first
    | with_reducible exact Keeps.refl _
    | with_reducible assumption
    | with_reducible apply Dev.setReg_keeps
    | with_reducible apply Dev.setOut_keeps
    | with_reducible apply stageHost_keeps
    | with_reducible apply periodError_keeps
    | with_reducible apply Writer.refuse_keeps
    | extract_lets
    | (intro _; try beta_reduce)
    | split
    | with_reducible refine frame_keeps ?_ rfl rfl rfl rfl rfl rfl rfl rfl rfl (Nat.le_refl _))

theorem peakClear_keeps (d : Dev) {e0 : Dev} (h_ : Keeps e0 d) :
    Keeps e0 (peakClear d) := by
  refine h_.trans ?_
  unfold peakClear
  repeat' (first
    | with_reducible exact Keeps.refl _
    | with_reducible assumption
    | with_reducible apply Dev.setReg_keeps
    | with_reducible apply Dev.setOut_keeps
    | with_reducible apply Keeps.forAll
    | extract_lets
    | (intro _; try beta_reduce)
    | split
    | with_reducible refine frame_keeps ?_ rfl rfl rfl rfl rfl rfl rfl rfl rfl (Nat.le_refl _))

theorem tckCmd_keeps (v : Word) (d : Dev) {e0 : Dev} (h_ : Keeps e0 d) :
    Keeps e0 (tckCmd v d) := by
  refine h_.trans ?_
  unfold tckCmd
  repeat' (first
    | with_reducible exact Keeps.refl _
    | with_reducible assumption
    | with_reducible apply Dev.setReg_keeps
    | with_reducible apply Dev.setOut_keeps
    | with_reducible apply commandSlip_keeps
    | with_reducible apply peakClear_keeps
    | extract_lets
    | (intro _; try beta_reduce)
    | split
    | with_reducible refine frame_keeps ?_ rfl rfl rfl rfl rfl rfl rfl rfl rfl (Nat.le_refl _))

theorem stageMem_keeps (w : Writer) (r : Area) (a n v : Nat) (d : Dev) {e0 : Dev} (h_ : Keeps e0 d) :
    Keeps e0 (stageMem w r a n v d) := by
  refine h_.trans ?_
  unfold stageMem
  repeat' (first
    | with_reducible exact Keeps.refl _
    | with_reducible assumption
    | with_reducible apply Dev.setReg_keeps
    | with_reducible apply Dev.setOut_keeps
    | with_reducible apply stageHost_keeps
    | extract_lets
    | (intro _; try beta_reduce)
    | split
    | with_reducible refine frame_keeps ?_ rfl rfl rfl rfl rfl rfl rfl rfl rfl (Nat.le_refl _))

theorem complete_keeps (p : HostPort) (opc tag idx status : Nat) (data : Word) (tick : Nat) (nocommit : Bool) (d : Dev) {e0 : Dev} (h_ : Keeps e0 d) :
    Keeps e0 (complete p opc tag idx status data tick nocommit d) := by
  refine h_.trans ?_
  unfold complete
  repeat' (first
    | with_reducible exact Keeps.refl _
    | with_reducible assumption
    | with_reducible apply Dev.setReg_keeps
    | with_reducible apply Dev.setOut_keeps
    | with_reducible apply Dev.setPort_keeps
    | with_reducible apply vecSet_keeps
    | with_reducible apply Keeps.forAll
    | extract_lets
    | (intro _; try beta_reduce)
    | split
    | with_reducible refine frame_keeps ?_ rfl rfl rfl rfl rfl rfl rfl rfl rfl (Nat.le_refl _))

theorem timedEnd_keeps (p : HostPort) (t : Timed) (status : Nat) (data : Word) (nocommit : Bool) (d : Dev) {e0 : Dev} (h_ : Keeps e0 d) :
    Keeps e0 (timedEnd p t status data nocommit d) := by
  refine h_.trans ?_
  unfold timedEnd
  repeat' (first
    | with_reducible exact Keeps.refl _
    | with_reducible assumption
    | with_reducible apply Dev.setReg_keeps
    | with_reducible apply Dev.setOut_keeps
    | with_reducible apply Dev.setPort_keeps
    | with_reducible apply complete_keeps
    | extract_lets
    | (intro _; try beta_reduce)
    | split
    | with_reducible refine frame_keeps ?_ rfl rfl rfl rfl rfl rfl rfl rfl rfl (Nat.le_refl _))

theorem timedNew_keeps (p : HostPort) (write : Bool) (c : Command) (d : Dev) {e0 : Dev} (h_ : Keeps e0 d) :
    Keeps e0 (timedNew p write c d) := by
  refine h_.trans ?_
  unfold timedNew
  repeat' (first
    | with_reducible exact Keeps.refl _
    | with_reducible assumption
    | with_reducible apply Dev.setReg_keeps
    | with_reducible apply Dev.setOut_keeps
    | with_reducible apply Dev.setPort_keeps
    | with_reducible apply complete_keeps
    | extract_lets
    | (intro _; try beta_reduce)
    | split
    | with_reducible refine frame_keeps ?_ rfl rfl rfl rfl rfl rfl rfl rfl rfl (Nat.le_refl _))

theorem acceptOne_keeps (p : HostPort) (t : Timed) (d : Dev) {e0 : Dev} (h_ : Keeps e0 d) :
    Keeps e0 (acceptOne p t d) := by
  refine h_.trans ?_
  unfold acceptOne
  have base := Keeps.refl d
  split
  · exact setRefuse_keeps _ _ (timedEnd_keeps _ _ _ _ _ _ base)
  · split
    · exact timedEnd_keeps _ _ _ _ _ _ base
    · have k1 : Keeps d (match accessRegion t.addr 4 with
        | some .regs => if t.addr = TCK_CMD then (0, tckCmd t.data d) else stageReg (.timed p) t.addr t.data d
        | some r => (0, stageMem (.timed p) r t.addr 4 t.data.toNat d)
        | none => (3, d)).2 := by
        split
        · split
          · exact tckCmd_keeps _ _ base
          · exact stageReg_keeps _ _ _ _ base
        · exact stageMem_keeps _ _ _ _ _ _ base
        · exact base
      split
      rename_i st d1 heq
      have k2 : Keeps d d1 := Keeps.ofSnd heq k1
      split
      · exact timedEnd_keeps _ _ _ _ _ _ k2
      · exact Dev.setPort_keeps _ _ _ k2

theorem acceptAll_keeps (p : HostPort) (d : Dev) {e0 : Dev} (h_ : Keeps e0 d) :
    Keeps e0 (acceptAll p d) := by
  refine h_.trans ?_
  unfold acceptAll
  repeat' (first
    | with_reducible exact Keeps.refl _
    | with_reducible assumption
    | with_reducible apply Dev.setReg_keeps
    | with_reducible apply Dev.setOut_keeps
    | with_reducible apply acceptOne_keeps
    | with_reducible apply Keeps.foldl
    | extract_lets
    | (intro _; try beta_reduce)
    | split
    | with_reducible refine frame_keeps ?_ rfl rfl rfl rfl rfl rfl rfl rfl rfl (Nat.le_refl _))

theorem rdatLatch_keeps (p : HostPort) (d : Dev) {e0 : Dev} (h_ : Keeps e0 d) :
    Keeps e0 (rdatLatch p d) := by
  refine h_.trans ?_
  unfold rdatLatch
  repeat' (first
    | with_reducible exact Keeps.refl _
    | with_reducible assumption
    | with_reducible apply Dev.setReg_keeps
    | with_reducible apply Dev.setOut_keeps
    | with_reducible apply Dev.setPort_keeps
    | with_reducible apply devRead_keeps
    | extract_lets
    | (intro _; try beta_reduce)
    | split
    | with_reducible refine frame_keeps ?_ rfl rfl rfl rfl rfl rfl rfl rfl rfl (Nat.le_refl _))

theorem performAll_keeps (p : HostPort) (snap d : Dev) {e0 : Dev} (h_ : Keeps e0 d) :
    Keeps e0 (performAll p snap d) := by
  refine h_.trans ?_
  unfold performAll
  repeat' (first
    | with_reducible exact Keeps.refl _
    | with_reducible assumption
    | with_reducible apply Dev.setReg_keeps
    | with_reducible apply Dev.setOut_keeps
    | with_reducible apply devRead_keeps
    | with_reducible apply timedEnd_keeps
    | with_reducible apply Keeps.foldl
    | extract_lets
    | (intro _; try beta_reduce)
    | split
    | with_reducible refine frame_keeps ?_ rfl rfl rfl rfl rfl rfl rfl rfl rfl (Nat.le_refl _)
    | with_reducible refine Keeps.ofSnd3 (by with_reducible assumption) ?_)

theorem timedEdge_keeps (commits : Bool) (p : HostPort) (d : Dev) {e0 : Dev} (h_ : Keeps e0 d) :
    Keeps e0 (timedEdge commits p d) := by
  refine h_.trans ?_
  unfold timedEdge
  repeat' (first
    | with_reducible exact Keeps.refl _
    | with_reducible assumption
    | with_reducible apply Dev.setReg_keeps
    | with_reducible apply Dev.setOut_keeps
    | with_reducible apply timedEnd_keeps
    | with_reducible apply Keeps.foldl
    | extract_lets
    | (intro _; try beta_reduce)
    | split
    | with_reducible refine frame_keeps ?_ rfl rfl rfl rfl rfl rfl rfl rfl rfl (Nat.le_refl _))

theorem timedWake_keeps (p : HostPort) (d : Dev) {e0 : Dev} (h_ : Keeps e0 d) :
    Keeps e0 (timedWake p d) := by
  refine h_.trans ?_
  unfold timedWake
  repeat' (first
    | with_reducible exact Keeps.refl _
    | with_reducible assumption
    | with_reducible apply Dev.setReg_keeps
    | with_reducible apply Dev.setOut_keeps
    | with_reducible apply timedEnd_keeps
    | with_reducible apply Keeps.foldl
    | extract_lets
    | (intro _; try beta_reduce)
    | split
    | with_reducible refine frame_keeps ?_ rfl rfl rfl rfl rfl rfl rfl rfl rfl (Nat.le_refl _))

theorem fbGap_keeps (c : Fin 16) (d : Dev) {e0 : Dev} (h_ : Keeps e0 d) :
    Keeps e0 (fbGap c d) := by
  refine h_.trans ?_
  unfold fbGap
  repeat' (first
    | with_reducible exact Keeps.refl _
    | with_reducible assumption
    | with_reducible apply Dev.setReg_keeps
    | with_reducible apply Dev.setOut_keeps
    | with_reducible apply Dev.setFlag_keeps
    | with_reducible apply fbUnref_keeps
    | extract_lets
    | (intro _; try beta_reduce)
    | split
    | with_reducible refine frame_keeps ?_ rfl rfl rfl rfl rfl rfl rfl rfl rfl (Nat.le_refl _))

theorem wakeUp_keeps (causes : BitVec 6) (stopTu : Nat) (d : Dev) {e0 : Dev} (h_ : Keeps e0 d) :
    Keeps e0 (wakeUp causes stopTu d) := by
  refine h_.trans ?_
  unfold wakeUp
  split
  · exact Keeps.refl _
  · extract_lets stop gap now t p d1 d2 d3 d4 late v d5
    have k1 : Keeps d d1 := Keeps.trans (Keeps.now (t := now) (Nat.le_max_left ..) (Keeps.refl d))
      (Keeps.ofEq rfl rfl rfl rfl rfl rfl rfl rfl rfl (Nat.le_refl _))
    clear_value d1
    have k3 : Keeps d d3 := Dev.setFld_keeps _ _ _ _ _ (Dev.setFlag_keeps _ _ _ _ (Dev.setReg_keeps _ _ _
      (Dev.setReg_keeps _ _ _ k1)))
    clear_value d3
    have k4 : Keeps d d4 := visWake_keeps _ (Keeps.foldl (fun d c => fbGap_keeps _ _ (Keeps.refl _)) _ k3)
    clear_value d4
    have k5 : Keeps d d5 := Keeps.foldl (fun d c => raiseNow_keeps _ _ (Keeps.refl _)) _ (upd_ev _ _ k4)
    exact timedWake_keeps _ _ (timedWake_keeps _ _ (raise_keeps _ _ k5))

theorem hostWakes_keeps (p : HostPort) (d : Dev) {e0 : Dev} (h_ : Keeps e0 d) :
    Keeps e0 (hostWakes p d) := by
  refine h_.trans ?_
  unfold hostWakes
  repeat' (first
    | with_reducible exact Keeps.refl _
    | with_reducible assumption
    | with_reducible apply Dev.setReg_keeps
    | with_reducible apply Dev.setOut_keeps
    | with_reducible apply Dev.tickFree_keeps
    | with_reducible apply wakeUp_keeps
    | extract_lets
    | (intro _; try beta_reduce)
    | split
    | with_reducible refine frame_keeps ?_ rfl rfl rfl rfl rfl rfl rfl rfl rfl (Nat.le_refl _))

theorem mainReset_keeps (cause : Nat) (boot : BitVec 2) (hostA hostB : Bool) (d : Dev) {e0 : Dev} (h_ : Keeps e0 d) :
    Keeps e0 (mainReset cause boot hostA hostB d) := by
  refine h_.trans ?_
  unfold mainReset
  extract_lets f t i r
  have k : Keeps d r := ⟨fun s => ⟨rfl, rfl, rfl, s.dram, s.array, s.durable, s.spill, rfl⟩, Nat.le_refl _⟩
  exact Dev.setReg_keeps _ _ _ (Dev.setReg_keeps _ _ _ (Dev.setReg_keeps _ _ _ k))

theorem softReset_keeps (d : Dev) {e0 : Dev} (h_ : Keeps e0 d) :
    Keeps e0 (softReset d) := by
  refine h_.trans ?_
  unfold softReset
  repeat' (first
    | with_reducible exact Keeps.refl _
    | with_reducible assumption
    | with_reducible apply Dev.setReg_keeps
    | with_reducible apply Dev.setOut_keeps
    | with_reducible apply mainReset_keeps
    | extract_lets
    | (intro _; try beta_reduce)
    | split
    | with_reducible refine frame_keeps ?_ rfl rfl rfl rfl rfl rfl rfl rfl rfl (Nat.le_refl _))

theorem setHolder_keeps (h : Option HostPort) (d : Dev) {e0 : Dev} (h_ : Keeps e0 d) :
    Keeps e0 (setHolder h d) := by
  refine h_.trans ?_
  unfold setHolder
  repeat' (first
    | with_reducible exact Keeps.refl _
    | with_reducible assumption
    | with_reducible apply Dev.setReg_keeps
    | with_reducible apply Dev.setOut_keeps
    | with_reducible apply vecBoth_keeps
    | with_reducible apply monSessionEnd_keeps
    | extract_lets
    | (intro _; try beta_reduce)
    | split
    | with_reducible apply upd_reins
    | with_reducible refine frame_keeps ?_ rfl rfl rfl rfl rfl rfl rfl rfl rfl (Nat.le_refl _))

theorem reinsContest_keeps (d : Dev) {e0 : Dev} (h_ : Keeps e0 d) :
    Keeps e0 (reinsContest d) := by
  refine h_.trans ?_
  unfold reinsContest
  repeat' (first
    | with_reducible exact Keeps.refl _
    | with_reducible assumption
    | with_reducible apply Dev.setReg_keeps
    | with_reducible apply Dev.setOut_keeps
    | with_reducible apply setDenied_keeps
    | with_reducible apply setHolder_keeps
    | extract_lets
    | (intro _; try beta_reduce)
    | split
    | with_reducible apply upd_reins
    | with_reducible refine frame_keeps ?_ rfl rfl rfl rfl rfl rfl rfl rfl rfl (Nat.le_refl _))

theorem reinsReq_keeps (p : HostPort) (contested : Bool) (d : Dev) {e0 : Dev} (h_ : Keeps e0 d) :
    Keeps e0 (reinsReq p contested d) := by
  refine h_.trans ?_
  unfold reinsReq
  repeat' (first
    | with_reducible exact Keeps.refl _
    | with_reducible assumption
    | with_reducible apply Dev.setReg_keeps
    | with_reducible apply Dev.setOut_keeps
    | with_reducible apply setDenied_keeps
    | with_reducible apply setHolder_keeps
    | with_reducible apply reinsContest_keeps
    | extract_lets
    | (intro _; try beta_reduce)
    | split
    | with_reducible refine frame_keeps ?_ rfl rfl rfl rfl rfl rfl rfl rfl rfl (Nat.le_refl _))

theorem reinsRel_keeps (p : HostPort) (d : Dev) {e0 : Dev} (h_ : Keeps e0 d) :
    Keeps e0 (reinsRel p d) := by
  refine h_.trans ?_
  unfold reinsRel
  repeat' (first
    | with_reducible exact Keeps.refl _
    | with_reducible assumption
    | with_reducible apply Dev.setReg_keeps
    | with_reducible apply Dev.setOut_keeps
    | with_reducible apply setDenied_keeps
    | with_reducible apply setHolder_keeps
    | extract_lets
    | (intro _; try beta_reduce)
    | split
    | with_reducible refine frame_keeps ?_ rfl rfl rfl rfl rfl rfl rfl rfl rfl (Nat.le_refl _))

theorem reinsTakeFrom_keeps (x y : HostPort) (d : Dev) {e0 : Dev} (h_ : Keeps e0 d) :
    Keeps e0 (reinsTakeFrom x y d) := by
  refine h_.trans ?_
  unfold reinsTakeFrom
  repeat' (first
    | with_reducible exact Keeps.refl _
    | with_reducible assumption
    | with_reducible apply Dev.setReg_keeps
    | with_reducible apply Dev.setOut_keeps
    | with_reducible apply Dev.count1_keeps
    | with_reducible apply setLost_keeps
    | with_reducible apply setDisc_keeps
    | with_reducible apply setHolder_keeps
    | extract_lets
    | (intro _; try beta_reduce)
    | split
    | with_reducible refine frame_keeps ?_ rfl rfl rfl rfl rfl rfl rfl rfl rfl (Nat.le_refl _))

theorem reinsTake_keeps (p : HostPort) (contested : Bool) (d : Dev) {e0 : Dev} (h_ : Keeps e0 d) :
    Keeps e0 (reinsTake p contested d) := by
  refine h_.trans ?_
  unfold reinsTake
  repeat' (first
    | with_reducible exact Keeps.refl _
    | with_reducible assumption
    | with_reducible apply Dev.setReg_keeps
    | with_reducible apply Dev.setOut_keeps
    | with_reducible apply setDenied_keeps
    | with_reducible apply setHolder_keeps
    | with_reducible apply reinsContest_keeps
    | with_reducible apply reinsTakeFrom_keeps
    | extract_lets
    | (intro _; try beta_reduce)
    | split
    | with_reducible refine frame_keeps ?_ rfl rfl rfl rfl rfl rfl rfl rfl rfl (Nat.le_refl _))

theorem heartbeat_keeps (p : HostPort) (d : Dev) {e0 : Dev} (h_ : Keeps e0 d) :
    Keeps e0 (heartbeat p d) := by
  refine h_.trans ?_
  unfold heartbeat
  repeat' (first
    | with_reducible exact Keeps.refl _
    | with_reducible assumption
    | with_reducible apply Dev.setReg_keeps
    | with_reducible apply Dev.setOut_keeps
    | with_reducible apply setRefuse_keeps
    | extract_lets
    | (intro _; try beta_reduce)
    | split
    | with_reducible apply upd_reins
    | with_reducible refine frame_keeps ?_ rfl rfl rfl rfl rfl rfl rfl rfl rfl (Nat.le_refl _))

theorem writeReins_keeps (p : HostPort) (v : Word) (d : Dev) {e0 : Dev} (h_ : Keeps e0 d) :
    Keeps e0 (writeReins p v d) := by
  refine h_.trans ?_
  unfold writeReins
  repeat' (first
    | with_reducible exact Keeps.refl _
    | with_reducible assumption
    | with_reducible apply Dev.setReg_keeps
    | with_reducible apply Dev.setOut_keeps
    | with_reducible apply setDenied_keeps
    | with_reducible apply reinsReq_keeps
    | with_reducible apply reinsRel_keeps
    | with_reducible apply reinsTake_keeps
    | extract_lets
    | (intro _; try beta_reduce)
    | split
    | with_reducible refine frame_keeps ?_ rfl rfl rfl rfl rfl rfl rfl rfl rfl (Nat.le_refl _))

theorem writeIndex_keeps (p : HostPort) (a : Nat) (v : Word) (d : Dev) {e0 : Dev} (h_ : Keeps e0 d) :
    Keeps e0 (writeIndex p a v d) := by
  refine h_.trans ?_
  unfold writeIndex
  repeat' (first
    | with_reducible exact Keeps.refl _
    | with_reducible assumption
    | with_reducible apply Dev.setReg_keeps
    | with_reducible apply Dev.setOut_keeps
    | with_reducible apply setBadDb_keeps
    | extract_lets
    | (intro _; try beta_reduce)
    | split
    | with_reducible refine frame_keeps ?_ rfl rfl rfl rfl rfl rfl rfl rfl rfl (Nat.le_refl _))

theorem writeVecAck_keeps (p : HostPort) (v : Word) (d : Dev) {e0 : Dev} (h_ : Keeps e0 d) :
    Keeps e0 (writeVecAck p v d) := by
  refine h_.trans ?_
  unfold writeVecAck
  repeat' (first
    | with_reducible exact Keeps.refl _
    | with_reducible assumption
    | with_reducible apply Dev.setReg_keeps
    | with_reducible apply Dev.setOut_keeps
    | extract_lets
    | (intro _; try beta_reduce)
    | split
    | with_reducible refine frame_keeps ?_ rfl rfl rfl rfl rfl rfl rfl rfl rfl (Nat.le_refl _))

theorem writeOwn_keeps (p : HostPort) (a : Nat) (v : Word) (d : Dev) {e0 : Dev} (h_ : Keeps e0 d) :
    Keeps e0 (writeOwn p a v d) := by
  refine h_.trans ?_
  unfold writeOwn
  repeat' (first
    | with_reducible exact Keeps.refl _
    | with_reducible assumption
    | with_reducible apply Dev.setReg_keeps
    | with_reducible apply Dev.setOut_keeps
    | with_reducible apply writeIndex_keeps
    | with_reducible apply writeVecAck_keeps
    | extract_lets
    | (intro _; try beta_reduce)
    | split
    | with_reducible refine frame_keeps ?_ rfl rfl rfl rfl rfl rfl rfl rfl rfl (Nat.le_refl _))

theorem plainWrite_keeps (a : Nat) (v : Word) (d : Dev) {e0 : Dev} (h_ : Keeps e0 d) :
    Keeps e0 (plainWrite a v d) := by
  refine h_.trans ?_
  unfold plainWrite
  repeat' (first
    | with_reducible exact Keeps.refl _
    | with_reducible assumption
    | with_reducible apply Dev.setReg_keeps
    | with_reducible apply Dev.setOut_keeps
    | extract_lets
    | (intro _; try beta_reduce)
    | split
    | with_reducible refine frame_keeps ?_ rfl rfl rfl rfl rfl rfl rfl rfl rfl (Nat.le_refl _))

theorem clearHoldCause_keeps (demand : Bool) (v : Word) (d : Dev) {e0 : Dev} (h_ : Keeps e0 d) :
    Keeps e0 (clearHoldCause demand v d) := by
  refine h_.trans ?_
  unfold clearHoldCause
  repeat' (first
    | with_reducible exact Keeps.refl _
    | with_reducible assumption
    | with_reducible apply Dev.setReg_keeps
    | with_reducible apply Dev.setOut_keeps
    | extract_lets
    | (intro _; try beta_reduce)
    | split
    | with_reducible refine frame_keeps ?_ rfl rfl rfl rfl rfl rfl rfl rfl rfl (Nat.le_refl _))

theorem writeMonCfg_keeps (v : Word) (d : Dev) {e0 : Dev} (h_ : Keeps e0 d) :
    Keeps e0 (writeMonCfg v d) := by
  refine h_.trans ?_
  unfold writeMonCfg
  repeat' (first
    | with_reducible exact Keeps.refl _
    | with_reducible assumption
    | with_reducible apply Dev.setReg_keeps
    | with_reducible apply Dev.setOut_keeps
    | with_reducible apply monSessionEnd_keeps
    | with_reducible apply plainWrite_keeps
    | extract_lets
    | (intro _; try beta_reduce)
    | split
    | with_reducible refine frame_keeps ?_ rfl rfl rfl rfl rfl rfl rfl rfl rfl (Nat.le_refl _))

theorem writeMonCode_keeps (v : Word) (d : Dev) {e0 : Dev} (h_ : Keeps e0 d) :
    Keeps e0 (writeMonCode v d) := by
  refine h_.trans ?_
  unfold writeMonCode
  repeat' (first
    | with_reducible exact Keeps.refl _
    | with_reducible assumption
    | with_reducible apply Dev.setReg_keeps
    | with_reducible apply Dev.setOut_keeps
    | with_reducible apply Dev.setFld_keeps
    | extract_lets
    | (intro _; try beta_reduce)
    | split
    | with_reducible apply upd_mon
    | with_reducible refine frame_keeps ?_ rfl rfl rfl rfl rfl rfl rfl rfl rfl (Nat.le_refl _))

theorem writeTrcfg_keeps (v : Word) (d : Dev) {e0 : Dev} (h_ : Keeps e0 d) :
    Keeps e0 (writeTrcfg v d) := by
  refine h_.trans ?_
  unfold writeTrcfg
  repeat' (first
    | with_reducible exact Keeps.refl _
    | with_reducible assumption
    | with_reducible apply Dev.setReg_keeps
    | with_reducible apply Dev.setOut_keeps
    | with_reducible apply Dev.setFlag_keeps
    | with_reducible apply plainWrite_keeps
    | extract_lets
    | (intro _; try beta_reduce)
    | split
    | with_reducible apply upd_mon
    | with_reducible refine frame_keeps ?_ rfl rfl rfl rfl rfl rfl rfl rfl rfl (Nat.le_refl _))

theorem writeCelCmd_keeps (w : Writer) (v : Word) (d : Dev) {e0 : Dev} (h_ : Keeps e0 d) :
    Keeps e0 (writeCelCmd w v d).2 := by
  refine h_.trans ?_
  unfold writeCelCmd
  repeat' (first
    | with_reducible exact Keeps.refl _
    | with_reducible assumption
    | with_reducible apply Dev.setReg_keeps
    | with_reducible apply Dev.setOut_keeps
    | with_reducible apply spillClear_keeps
    | with_reducible apply Writer.refuse_keeps
    | extract_lets
    | (intro _; try beta_reduce)
    | split
    | with_reducible refine frame_keeps ?_ rfl rfl rfl rfl rfl rfl rfl rfl rfl (Nat.le_refl _))

theorem writeSealCmd_keeps (w : Writer) (v : Word) (d : Dev) {e0 : Dev} (h_ : Keeps e0 d) :
    Keeps e0 (writeSealCmd w v d).2 := by
  refine h_.trans ?_
  unfold writeSealCmd
  repeat' (first
    | with_reducible exact Keeps.refl _
    | with_reducible assumption
    | with_reducible apply Dev.setReg_keeps
    | with_reducible apply Dev.setOut_keeps
    | with_reducible apply sealSend_keeps
    | with_reducible apply Writer.refuse_keeps
    | extract_lets
    | (intro _; try beta_reduce)
    | split
    | with_reducible refine frame_keeps ?_ rfl rfl rfl rfl rfl rfl rfl rfl rfl (Nat.le_refl _))

theorem writeCfgCmd_keeps (v : Word) (d : Dev) {e0 : Dev} (h_ : Keeps e0 d) :
    Keeps e0 (writeCfgCmd v d) := by
  refine h_.trans ?_
  unfold writeCfgCmd
  repeat' (first
    | with_reducible exact Keeps.refl _
    | with_reducible assumption
    | with_reducible apply Dev.setReg_keeps
    | with_reducible apply Dev.setOut_keeps
    | with_reducible apply fieldCfgSend_keeps
    | extract_lets
    | (intro _; try beta_reduce)
    | split
    | with_reducible refine frame_keeps ?_ rfl rfl rfl rfl rfl rfl rfl rfl rfl (Nat.le_refl _))

theorem writeNow_keeps (w : Writer) (a : Nat) (v : Word) (d : Dev) {e0 : Dev} (h_ : Keeps e0 d) :
    Keeps e0 (writeNow w a v d).2 := by
  refine h_.trans ?_
  unfold writeNow
  repeat' (first
    | with_reducible exact Keeps.refl _
    | with_reducible assumption
    | with_reducible apply Dev.setReg_keeps
    | with_reducible apply Dev.setOut_keeps
    | with_reducible apply trimRestore_keeps
    | with_reducible apply Writer.refuse_keeps
    | extract_lets
    | (intro _; try beta_reduce)
    | split
    | with_reducible refine frame_keeps ?_ rfl rfl rfl rfl rfl rfl rfl rfl rfl (Nat.le_refl _))

theorem ite_snd_keeps {α : Type} {c : Prop} [Decidable c] {e : Dev} {a b : α × Dev} (ha : Keeps e a.2) (hb : Keeps e b.2) :
    Keeps e (if c then a else b).2 := by
  split
  · exact ha
  · exact hb

theorem ite_keeps {c : Prop} [Decidable c] {e a b : Dev} (ha : Keeps e a) (hb : Keeps e b) :
    Keeps e (if c then a else b) := by
  split
  · exact ha
  · exact hb

theorem writeReg_keeps (w : Writer) (demand : Bool) (a : Nat) (v : Word) (d : Dev) {e0 : Dev} (h_ : Keeps e0 d) :
    Keeps e0 (writeReg w demand a v d).2 := by
  refine h_.trans ?_
  have base := Keeps.refl d
  have hp := fun v => plainWrite_keeps a v d base
  unfold writeReg
  refine ite_snd_keeps (tckCmd_keeps _ _ base) ?_
  refine ite_snd_keeps (ite_keeps base (hp _)) ?_
  refine ite_snd_keeps (ite_keeps (softReset_keeps _ base) base) ?_
  refine ite_snd_keeps (ite_keeps base (hp _)) ?_
  refine ite_snd_keeps (clearHoldCause_keeps _ _ _ base) ?_
  refine ite_snd_keeps (ite_snd_keeps (Writer.refuse_keeps _ _ base) (hp _)) ?_
  refine ite_snd_keeps (hp _) ?_
  refine ite_snd_keeps (clearFltStat_keeps _ _ base) ?_
  refine ite_snd_keeps (hp _) ?_
  refine ite_snd_keeps base ?_
  refine ite_snd_keeps (plainWrite_keeps _ _ _ (ite_keeps (logResume_keeps _ base) base)) ?_
  refine ite_snd_keeps (writeCelCmd_keeps _ _ _ base) ?_
  refine ite_snd_keeps (writeCfgCmd_keeps _ _ base) ?_
  refine ite_snd_keeps (writeSealCmd_keeps _ _ _ base) ?_
  refine ite_snd_keeps (nvCommand_keeps _ _ base) ?_
  refine ite_snd_keeps (loadCommand_keeps _ _ base) ?_
  refine ite_snd_keeps (setHoffRd_keeps _ _ base) ?_
  refine ite_snd_keeps (writeMonCfg_keeps _ _ base) ?_
  refine ite_snd_keeps (writeMonCode_keeps _ _ base) ?_
  refine ite_snd_keeps (ite_keeps base (hp _)) ?_
  refine ite_snd_keeps (writeTrcfg_keeps _ _ base) ?_
  refine ite_snd_keeps (ite_keeps base (hp _)) ?_
  refine ite_snd_keeps (ite_keeps base (hp _)) ?_
  refine ite_snd_keeps (writeNow_keeps _ _ _ _ base) ?_
  split
  · exact base
  · exact ite_snd_keeps (stageReg_keeps _ _ _ _ base) (hp _)

theorem hostWriteReg_keeps (p : HostPort) (demand : Bool) (a : Nat) (v : Word) (d : Dev) {e0 : Dev} (h_ : Keeps e0 d) :
    Keeps e0 (hostWriteReg p demand a v d).2 := by
  refine h_.trans ?_
  unfold hostWriteReg
  repeat' (first
    | with_reducible exact Keeps.refl _
    | with_reducible assumption
    | with_reducible apply Dev.setReg_keeps
    | with_reducible apply Dev.setOut_keeps
    | with_reducible apply setRefuse_keeps
    | with_reducible apply nvIgnore_keeps
    | with_reducible apply heartbeat_keeps
    | with_reducible apply writeReins_keeps
    | with_reducible apply writeOwn_keeps
    | with_reducible apply writeReg_keeps
    | extract_lets
    | (intro _; try beta_reduce)
    | split
    | with_reducible refine Keeps.ofSnd (by with_reducible assumption) ?_
    | with_reducible refine frame_keeps ?_ rfl rfl rfl rfl rfl rfl rfl rfl rfl (Nat.le_refl _))

theorem writeMem_keeps (w : Writer) (vf : Sys2Proof.VerifyEnv) (r : Area) (a n v : Nat) (d : Dev) {e0 : Dev} (h_ : Keeps e0 d) :
    Keeps e0 (writeMem w vf r a n v d).2 := by
  refine h_.trans ?_
  unfold writeMem
  repeat' (first
    | with_reducible exact Keeps.refl _
    | with_reducible assumption
    | with_reducible apply Dev.setReg_keeps
    | with_reducible apply Dev.setOut_keeps
    | with_reducible apply Dev.setCore_keeps
    | with_reducible apply bootWrite_keeps
    | with_reducible apply loadWatch_keeps
    | with_reducible apply stageMem_keeps
    | with_reducible apply Writer.refuse_keeps
    | extract_lets
    | (intro _; try beta_reduce)
    | split
    | with_reducible refine frame_keeps ?_ rfl rfl rfl rfl rfl rfl rfl rfl rfl (Nat.le_refl _))

theorem hostWrite_keeps (p : HostPort) (vf : Sys2Proof.VerifyEnv) (demand : Bool) (a n v : Nat) (d : Dev) {e0 : Dev} (h_ : Keeps e0 d) :
    Keeps e0 (hostWrite p vf demand a n v d).2 := by
  refine h_.trans ?_
  unfold hostWrite
  repeat' (first
    | with_reducible exact Keeps.refl _
    | with_reducible assumption
    | with_reducible apply Dev.setReg_keeps
    | with_reducible apply Dev.setOut_keeps
    | with_reducible apply setRefuse_keeps
    | with_reducible apply setAccErr_keeps
    | with_reducible apply hostWriteReg_keeps
    | with_reducible apply writeMem_keeps
    | extract_lets
    | (intro _; try beta_reduce)
    | split
    | with_reducible refine frame_keeps ?_ rfl rfl rfl rfl rfl rfl rfl rfl rfl (Nat.le_refl _)
    | with_reducible refine Keeps.ofSnd (by with_reducible assumption) ?_)

theorem dramWrite_keeps (p : HostPort) (a n v : Nat) (d : Dev) {e0 : Dev} (h_ : Keeps e0 d) :
    Keeps e0 (dramWrite p a n v d) := by
  refine h_.trans ?_
  unfold dramWrite
  repeat' (first
    | with_reducible exact Keeps.refl _
    | with_reducible assumption
    | with_reducible apply Dev.setReg_keeps
    | with_reducible apply Dev.setOut_keeps
    | with_reducible apply setRefuse_keeps
    | with_reducible apply setDramBytes_keeps
    | extract_lets
    | (intro _; try beta_reduce)
    | split
    | with_reducible refine frame_keeps ?_ rfl rfl rfl rfl rfl rfl rfl rfl rfl (Nat.le_refl _))

theorem reinsAct_keeps (p : HostPort) (a : ReinsAct) (d : Dev) {e0 : Dev} (h_ : Keeps e0 d) :
    Keeps e0 (reinsAct p a d) := by
  refine h_.trans ?_
  unfold reinsAct
  repeat' (first
    | with_reducible exact Keeps.refl _
    | with_reducible assumption
    | with_reducible apply Dev.setReg_keeps
    | with_reducible apply Dev.setOut_keeps
    | with_reducible apply reinsReq_keeps
    | with_reducible apply reinsRel_keeps
    | with_reducible apply reinsTake_keeps
    | with_reducible apply heartbeat_keeps
    | extract_lets
    | (intro _; try beta_reduce)
    | split
    | with_reducible refine frame_keeps ?_ rfl rfl rfl rfl rfl rfl rfl rfl rfl (Nat.le_refl _))

theorem portWrite_keeps (p : HostPort) (vf : Sys2Proof.VerifyEnv) (demand : Bool) (x : PortWrite) (d : Dev) {e0 : Dev} (h_ : Keeps e0 d) :
    Keeps e0 (portWrite p vf demand x d) := by
  refine h_.trans ?_
  unfold portWrite
  repeat' (first
    | with_reducible exact Keeps.refl _
    | with_reducible assumption
    | with_reducible apply Dev.setReg_keeps
    | with_reducible apply Dev.setOut_keeps
    | with_reducible apply writeOwn_keeps
    | with_reducible apply hostWrite_keeps
    | with_reducible apply dramWrite_keeps
    | with_reducible apply reinsAct_keeps
    | extract_lets
    | (intro _; try beta_reduce)
    | split
    | with_reducible refine frame_keeps ?_ rfl rfl rfl rfl rfl rfl rfl rfl rfl (Nat.le_refl _))

theorem hostArrive_keeps (p : HostPort) (vf : Sys2Proof.VerifyEnv) (demand : Bool) (x : PortWrite) (d : Dev) {e0 : Dev} (h_ : Keeps e0 d) :
    Keeps e0 (hostArrive p vf demand x d) := by
  refine h_.trans ?_
  unfold hostArrive
  repeat' (first
    | with_reducible exact Keeps.refl _
    | with_reducible assumption
    | with_reducible apply Dev.setReg_keeps
    | with_reducible apply Dev.setOut_keeps
    | with_reducible apply Dev.setPort_keeps
    | with_reducible apply portWrite_keeps
    | extract_lets
    | (intro _; try beta_reduce)
    | split
    | with_reducible refine Keeps.ofSnd (by with_reducible assumption) ?_
    | with_reducible refine frame_keeps ?_ rfl rfl rfl rfl rfl rfl rfl rfl rfl (Nat.le_refl _))

theorem heldComplete_keeps (p : HostPort) (demand : Bool) (d : Dev) {e0 : Dev} (h_ : Keeps e0 d) :
    Keeps e0 (heldComplete p demand d) := by
  have run : ∀ (n : Nat) (d : Dev), Keeps e0 d → Keeps e0 (heldRun p demand n d) := by
    intro n
    induction n with
    | zero => exact fun d h => h
    | succ n ih =>
      intro d h
      unfold heldRun
      split
      · exact h
      · split
        · exact h
        · exact ih _ (portWrite_keeps _ _ _ _ _ (Dev.setPort_keeps _ _ _ h))
  exact run _ _ h_

end Sys2Proof.Machine
end

