-- ==== Sys2Proof/Laws/KeepsTick.lean ====
section
/-! SUPPORT. What the operations of Machine/Tick.lean, Machine/HostRows.lean, Machine/System.lean, Machine/Monitor.lean keep (Laws/Keeps.lean). -/
set_option linter.unusedTactic false
set_option linter.unreachableTactic false
namespace Sys2Proof.Machine

theorem forAxes_keeps (f : Fin 16 → Dev → Dev) (d : Dev) (hf : ∀ x0 e d, Keeps e d → Keeps e (f x0 d)) {e0 : Dev} (h_ : Keeps e0 d) :
    Keeps e0 (forAxes f d) := by
  refine h_.trans ?_
  unfold forAxes
  repeat' (first
    | with_reducible exact Keeps.refl _
    | with_reducible assumption
    | with_reducible apply hf
    | with_reducible apply Dev.setReg_keeps
    | with_reducible apply Dev.setOut_keeps
    | with_reducible apply Keeps.foldl
    | extract_lets
    | (intro _; try beta_reduce)
    | split
    | with_reducible refine frame_keeps ?_ rfl rfl rfl rfl rfl rfl rfl rfl rfl (Nat.le_refl _))

theorem acceptInstant_keeps (d : Dev) {e0 : Dev} (h_ : Keeps e0 d) :
    Keeps e0 (acceptInstant d) := by
  refine h_.trans ?_
  unfold acceptInstant
  repeat' (first
    | with_reducible exact Keeps.refl _
    | with_reducible assumption
    | with_reducible apply Dev.setReg_keeps
    | with_reducible apply Dev.setOut_keeps
    | with_reducible apply Dev.reach_keeps
    | extract_lets
    | (intro _; try beta_reduce)
    | split
    | with_reducible refine frame_keeps ?_ rfl rfl rfl rfl rfl rfl rfl rfl rfl (Nat.le_refl _))

theorem startCores_keeps (atEdge d : Dev) {e0 : Dev} (h_ : Keeps e0 d) :
    Keeps e0 (startCores atEdge d) := by
  refine h_.trans ?_
  unfold startCores
  repeat' (first
    | with_reducible exact Keeps.refl _
    | with_reducible assumption
    | with_reducible apply Dev.setReg_keeps
    | with_reducible apply Dev.setOut_keeps
    | with_reducible apply Dev.setCore_keeps
    | with_reducible apply fault_keeps
    | with_reducible apply Keeps.forAll
    | extract_lets
    | (intro _; try beta_reduce)
    | split
    | with_reducible refine upd_fu _ _ (fun h => h) ?_
    | with_reducible refine frame_keeps ?_ rfl rfl rfl rfl rfl rfl rfl rfl rfl (Nat.le_refl _))

theorem fractionalEdge_keeps (i : Fin 3) (d : Dev) {e0 : Dev} (h_ : Keeps e0 d) :
    Keeps e0 (fractionalEdge i d) := by
  refine h_.trans ?_
  unfold fractionalEdge
  repeat' (first
    | with_reducible exact Keeps.refl _
    | with_reducible assumption
    | with_reducible apply Dev.setReg_keeps
    | with_reducible apply Dev.setOut_keeps
    | with_reducible apply laneFrac_keeps
    | with_reducible apply applyCompares_keeps
    | with_reducible apply forAxes_keeps
    | with_reducible apply Dev.reachTick_keeps
    | extract_lets
    | (intro _; try beta_reduce)
    | split
    | with_reducible apply upd_tick
    | with_reducible refine frame_keeps ?_ rfl rfl rfl rfl rfl rfl rfl rfl rfl (Nat.le_refl _))

theorem guardCheck_keeps (d : Dev) {e0 : Dev} (h_ : Keeps e0 d) :
    Keeps e0 (guardCheck d) := by
  refine h_.trans ?_
  unfold guardCheck
  repeat' (first
    | with_reducible exact Keeps.refl _
    | with_reducible assumption
    | with_reducible apply Dev.setReg_keeps
    | with_reducible apply Dev.setOut_keeps
    | with_reducible apply Dev.setCore_keeps
    | with_reducible apply fault_keeps
    | with_reducible apply escalate_keeps
    | with_reducible apply Keeps.foldl
    | extract_lets
    | (intro _; try beta_reduce)
    | split
    | with_reducible refine frame_keeps ?_ rfl rfl rfl rfl rfl rfl rfl rfl rfl (Nat.le_refl _))

theorem edgePreview_keeps (d : Dev) {e0 : Dev} (h_ : Keeps e0 d) :
    Keeps e0 (edgePreview d) := by
  refine h_.trans ?_
  unfold edgePreview
  repeat' (first
    | with_reducible exact Keeps.refl _
    | with_reducible assumption
    | with_reducible apply Dev.setReg_keeps
    | with_reducible apply Dev.setOut_keeps
    | with_reducible apply axesCommit_keeps
    | with_reducible apply axesEnd_keeps
    | with_reducible apply commitWrites_keeps
    | extract_lets
    | (intro _; try beta_reduce)
    | split
    | with_reducible apply upd_tick
    | with_reducible refine frame_keeps ?_ rfl rfl rfl rfl rfl rfl rfl rfl rfl (Nat.le_refl _))

theorem stagePlan_keeps (d : Dev) {e0 : Dev} (h_ : Keeps e0 d) :
    Keeps e0 (stagePlan d) := by
  refine h_.trans ?_
  unfold stagePlan
  repeat' (first
    | with_reducible exact Keeps.refl _
    | with_reducible assumption
    | with_reducible apply Dev.setReg_keeps
    | with_reducible apply Dev.setOut_keeps
    | with_reducible apply Dev.setAxis_keeps
    | with_reducible apply planAll_keeps
    | with_reducible apply sendImage_keeps
    | with_reducible apply forAxes_keeps
    | with_reducible apply edgePreview_keeps
    | extract_lets
    | (intro _; try beta_reduce)
    | split
    | with_reducible apply upd_freeCtr
    | with_reducible refine frame_keeps ?_ rfl rfl rfl rfl rfl rfl rfl rfl rfl (Nat.le_refl _))

theorem stageClose_keeps (demand : Bool) (d : Dev) {e0 : Dev} (h_ : Keeps e0 d) :
    Keeps e0 (stageClose demand d) := by
  refine h_.trans ?_
  unfold stageClose
  repeat' (first
    | with_reducible exact Keeps.refl _
    | with_reducible assumption
    | with_reducible apply Dev.setReg_keeps
    | with_reducible apply Dev.setOut_keeps
    | with_reducible apply acceptAll_keeps
    | with_reducible apply heldComplete_keeps
    | with_reducible apply acceptInstant_keeps
    | extract_lets
    | (intro _; try beta_reduce)
    | split
    | with_reducible refine frame_keeps ?_ rfl rfl rfl rfl rfl rfl rfl rfl rfl (Nat.le_refl _))

theorem stageStart_keeps (demand : Bool) (d : Dev) {e0 : Dev} (h_ : Keeps e0 d) :
    Keeps e0 (stageStart demand d) := by
  refine h_.trans ?_
  unfold stageStart
  repeat' (first
    | with_reducible exact Keeps.refl _
    | with_reducible assumption
    | with_reducible apply Dev.setReg_keeps
    | with_reducible apply Dev.setOut_keeps
    | with_reducible apply stage_keeps
    | with_reducible apply Dev.reachTick_keeps
    | with_reducible apply guardCheck_keeps
    | with_reducible apply stagePlan_keeps
    | with_reducible apply stageClose_keeps
    | extract_lets
    | (intro _; try beta_reduce)
    | split
    | with_reducible apply upd_tick
    | with_reducible refine frame_keeps ?_ rfl rfl rfl rfl rfl rfl rfl rfl rfl (Nat.le_refl _))

theorem engineOverrun_keeps (src : Sys2Proof.Overrun) (d : Dev) {e0 : Dev} (h_ : Keeps e0 d) :
    Keeps e0 (engineOverrun src d) := by
  refine h_.trans ?_
  unfold engineOverrun
  repeat' (first
    | with_reducible exact Keeps.refl _
    | with_reducible assumption
    | with_reducible apply Dev.setReg_keeps
    | with_reducible apply Dev.setOut_keeps
    | with_reducible apply fault_keeps
    | extract_lets
    | (intro _; try beta_reduce)
    | split
    | with_reducible refine frame_keeps ?_ rfl rfl rfl rfl rfl rfl rfl rfl rfl (Nat.le_refl _))

theorem edgeAbandon_keeps (causes : Nat) (snap d : Dev) {e0 : Dev} (h_ : Keeps e0 d) :
    Keeps e0 (edgeAbandon causes snap d) := by
  refine h_.trans ?_
  unfold edgeAbandon
  repeat' (first
    | with_reducible exact Keeps.refl _
    | with_reducible assumption
    | with_reducible apply Dev.setReg_keeps
    | with_reducible apply Dev.setOut_keeps
    | with_reducible apply Dev.count1_keeps
    | with_reducible apply Dev.setCore_keeps
    | with_reducible apply raise_keeps
    | with_reducible apply Dev.setLane_keeps
    | with_reducible apply groupsHold_keeps
    | with_reducible apply visRevert_keeps
    | with_reducible apply journalTick_keeps
    | with_reducible apply forAxes_keeps
    | with_reducible apply Keeps.forAll
    | extract_lets
    | (intro _; try beta_reduce)
    | split
    | with_reducible apply upd_tick
    | with_reducible apply upd_ev
    | with_reducible refine frame_keeps ?_ rfl rfl rfl rfl rfl rfl rfl rfl rfl (Nat.le_refl _))

theorem periodChange_keeps (old : Nat) (d : Dev) {e0 : Dev} (h_ : Keeps e0 d) :
    Keeps e0 (periodChange old d) := by
  refine h_.trans ?_
  unfold periodChange
  repeat' (first
    | with_reducible exact Keeps.refl _
    | with_reducible assumption
    | with_reducible apply Dev.setReg_keeps
    | with_reducible apply Dev.setOut_keeps
    | with_reducible apply visBudgetStop_keeps
    | extract_lets
    | (intro _; try beta_reduce)
    | split
    | with_reducible refine frame_keeps ?_ rfl rfl rfl rfl rfl rfl rfl rfl rfl (Nat.le_refl _))

theorem edgeCommit_keeps (ran : Bool) (l : List Staged) (d : Dev) {e0 : Dev} (h_ : Keeps e0 d) :
    Keeps e0 (edgeCommit ran l d) := by
  refine h_.trans ?_
  unfold edgeCommit
  repeat' (first
    | with_reducible exact Keeps.refl _
    | with_reducible assumption
    | with_reducible apply Dev.setReg_keeps
    | with_reducible apply Dev.setOut_keeps
    | with_reducible apply carrierRecheck_keeps
    | with_reducible apply axesCommit_keeps
    | with_reducible apply visPublishAll_keeps
    | with_reducible apply cartsLand_keeps
    | with_reducible apply modelPlace_keeps
    | with_reducible apply hartLand_keeps
    | with_reducible apply trimApply_keeps
    | with_reducible apply idLandAll_keeps
    | with_reducible apply commitWrites_keeps
    | with_reducible apply commitCasks_keeps
    | with_reducible apply commitCarts_keeps
    | with_reducible apply periodChange_keeps
    | extract_lets
    | (intro _; try beta_reduce)
    | split
    | with_reducible apply upd_tick
    | with_reducible refine frame_keeps ?_ rfl rfl rfl rfl rfl rfl rfl rfl rfl (Nat.le_refl _))

theorem landingLine_keeps (d : Dev) {e0 : Dev} (h_ : Keeps e0 d) : Keeps e0 (landingLine d) := by
  refine h_.trans ?_
  unfold landingLine
  extract_lets a w bs d1
  have k1 : Keeps d d1 := ite_keeps (Keeps.sram (Memory.wf_setBytes _ _) (Keeps.refl _)) (Keeps.refl _)
  exact upd_ev _ _ k1

theorem tickVector_keeps (p : HostPort) (d : Dev) {e0 : Dev} (h_ : Keeps e0 d) :
    Keeps e0 (tickVector p d) := by
  refine h_.trans ?_
  unfold tickVector
  repeat' (first
    | with_reducible exact Keeps.refl _
    | with_reducible assumption
    | with_reducible apply Dev.setReg_keeps
    | with_reducible apply Dev.setOut_keeps
    | with_reducible apply vecSet_keeps
    | extract_lets
    | (intro _; try beta_reduce)
    | split
    | with_reducible refine frame_keeps ?_ rfl rfl rfl rfl rfl rfl rfl rfl rfl (Nat.le_refl _))

theorem captureAll_keeps (d : Dev) {e0 : Dev} (h_ : Keeps e0 d) :
    Keeps e0 (captureAll d) := by
  refine h_.trans ?_
  unfold captureAll
  repeat' (first
    | with_reducible exact Keeps.refl _
    | with_reducible assumption
    | with_reducible apply Dev.setReg_keeps
    | with_reducible apply Dev.setOut_keeps
    | with_reducible apply laneCapture_keeps
    | with_reducible apply fbCapture_keeps
    | with_reducible apply axisCapture_keeps
    | with_reducible apply masterSpeed_keeps
    | with_reducible apply visTick_keeps
    | with_reducible apply forAxes_keeps
    | extract_lets
    | (intro _; try beta_reduce)
    | split
    | with_reducible refine frame_keeps ?_ rfl rfl rfl rfl rfl rfl rfl rfl rfl (Nat.le_refl _))

theorem beginTick_keeps (begins : Bool) (d : Dev) {e0 : Dev} (h_ : Keeps e0 d) :
    Keeps e0 (beginTick begins d) := by
  refine h_.trans ?_
  unfold beginTick
  repeat' (first
    | with_reducible exact Keeps.refl _
    | with_reducible assumption
    | with_reducible apply Dev.setReg_keeps
    | with_reducible apply Dev.setOut_keeps
    | extract_lets
    | (intro _; try beta_reduce)
    | split
    | with_reducible apply upd_tick
    | with_reducible refine frame_keeps ?_ rfl rfl rfl rfl rfl rfl rfl rfl rfl (Nat.le_refl _))

theorem fpEdge_keeps (d : Dev) {e0 : Dev} (h_ : Keeps e0 d) :
    Keeps e0 (fpEdge d) := by
  refine h_.trans ?_
  unfold fpEdge
  repeat' (first
    | with_reducible exact Keeps.refl _
    | with_reducible assumption
    | with_reducible apply Dev.setReg_keeps
    | with_reducible apply Dev.setOut_keeps
    | with_reducible apply Dev.setFlag_keeps
    | extract_lets
    | (intro _; try beta_reduce)
    | split
    | with_reducible refine upd_fu _ _ (fun h => h) ?_
    | with_reducible refine frame_keeps ?_ rfl rfl rfl rfl rfl rfl rfl rfl rfl (Nat.le_refl _))

theorem edgeRest_keeps (ran commits : Bool) (causes : Nat) (cycles : List Word) (demand : Bool) (d : Dev) {e0 : Dev} (h_ : Keeps e0 d) :
    Keeps e0 (edgeRest ran commits causes cycles demand d) := by
  refine h_.trans ?_
  unfold edgeRest
  repeat' (first
    | with_reducible exact Keeps.refl _
    | with_reducible assumption
    | with_reducible apply Dev.setReg_keeps
    | with_reducible apply Dev.setOut_keeps
    | with_reducible apply logEdge_keeps
    | with_reducible apply applyCompares_keeps
    | with_reducible apply axesRun_keeps
    | with_reducible apply axesStart_keeps
    | with_reducible apply cartSources_keeps
    | with_reducible apply fieldBeat_keeps
    | with_reducible apply sysPortLatch_keeps
    | with_reducible apply modeEdge_keeps
    | with_reducible apply powerChoose_keeps
    | with_reducible apply traceEntry_keeps
    | with_reducible apply monEdge_keeps
    | with_reducible apply forAxes_keeps
    | with_reducible apply landingLine_keeps
    | with_reducible apply tickVector_keeps
    | with_reducible apply captureAll_keeps
    | with_reducible apply beginTick_keeps
    | with_reducible apply fpEdge_keeps
    | extract_lets
    | (intro _; try beta_reduce)
    | split
    | with_reducible apply upd_cores
    | with_reducible refine frame_keeps ?_ rfl rfl rfl rfl rfl rfl rfl rfl rfl (Nat.le_refl _))

theorem voteEdge_keeps (vote : Sys2Proof.CommitVote) (d : Dev) {e0 : Dev} (h_ : Keeps e0 d) :
    Keeps e0 (voteEdge vote d) := by
  refine h_.trans ?_
  unfold voteEdge
  repeat' (first
    | with_reducible exact Keeps.refl _
    | with_reducible assumption
    | with_reducible apply Dev.setReg_keeps
    | with_reducible apply Dev.setOut_keeps
    | with_reducible apply Dev.setFlag_keeps
    | with_reducible apply fault_keeps
    | extract_lets
    | (intro _; try beta_reduce)
    | split
    | with_reducible refine frame_keeps ?_ rfl rfl rfl rfl rfl rfl rfl rfl rfl (Nat.le_refl _))

theorem slipLimit_keeps (d : Dev) {e0 : Dev} (h_ : Keeps e0 d) :
    Keeps e0 (slipLimit d) := by
  refine h_.trans ?_
  unfold slipLimit
  repeat' (first
    | with_reducible exact Keeps.refl _
    | with_reducible assumption
    | with_reducible apply Dev.setReg_keeps
    | with_reducible apply Dev.setOut_keeps
    | with_reducible apply Dev.setFlag_keeps
    | with_reducible apply fault_keeps
    | with_reducible apply hold_keeps
    | extract_lets
    | (intro _; try beta_reduce)
    | split
    | with_reducible apply upd_tick
    | with_reducible refine frame_keeps ?_ rfl rfl rfl rfl rfl rfl rfl rfl rfl (Nat.le_refl _))

theorem hostRead_keeps (p : HostPort) (bar2 : Bool) (a n : Nat) (ecc : Sys2Proof.Ecc) (snap d : Dev) {e0 : Dev} (h_ : Keeps e0 d) :
    Keeps e0 (hostRead p bar2 a n ecc snap d) := by
  refine h_.trans ?_
  unfold hostRead
  repeat' (first
    | with_reducible exact Keeps.refl _
    | with_reducible assumption
    | with_reducible apply Dev.setReg_keeps
    | with_reducible apply Dev.setOut_keeps
    | with_reducible apply Dev.setPort_keeps
    | with_reducible apply devRead_keeps
    | with_reducible apply celEcc_keeps
    | with_reducible apply hostWakes_keeps
    | extract_lets
    | (intro _; try beta_reduce)
    | split
    | with_reducible refine frame_keeps ?_ rfl rfl rfl rfl rfl rfl rfl rfl rfl (Nat.le_refl _)
    | with_reducible refine Keeps.ofSnd (by with_reducible assumption) ?_
    | with_reducible refine Keeps.ofSnd3 (by with_reducible assumption) ?_)

theorem hbTimeout_keeps (d : Dev) {e0 : Dev} (h_ : Keeps e0 d) :
    Keeps e0 (hbTimeout d) := by
  refine h_.trans ?_
  unfold hbTimeout
  repeat' (first
    | with_reducible exact Keeps.refl _
    | with_reducible assumption
    | with_reducible apply Dev.setReg_keeps
    | with_reducible apply Dev.setOut_keeps
    | with_reducible apply vecBoth_keeps
    | extract_lets
    | (intro _; try beta_reduce)
    | split
    | with_reducible apply upd_reins
    | with_reducible refine frame_keeps ?_ rfl rfl rfl rfl rfl rfl rfl rfl rfl (Nat.le_refl _))

theorem cmdEnd_keeps (p : HostPort) (c : Command) (status : Nat) (data : Word) (d : Dev) {e0 : Dev} (h_ : Keeps e0 d) :
    Keeps e0 (cmdEnd p c status data d) := by
  refine h_.trans ?_
  unfold cmdEnd
  repeat' (first
    | with_reducible exact Keeps.refl _
    | with_reducible assumption
    | with_reducible apply Dev.setReg_keeps
    | with_reducible apply Dev.setOut_keeps
    | with_reducible apply Dev.setPort_keeps
    | with_reducible apply complete_keeps
    | extract_lets
    | (intro _; try beta_reduce)
    | split
    | with_reducible refine frame_keeps ?_ rfl rfl rfl rfl rfl rfl rfl rfl rfl (Nat.le_refl _))

theorem consume_keeps (p : HostPort) (d : Dev) {e0 : Dev} (h_ : Keeps e0 d) :
    Keeps e0 (consume p d) := by
  refine h_.trans ?_
  unfold consume
  repeat' (first
    | with_reducible exact Keeps.refl _
    | with_reducible assumption
    | with_reducible apply Dev.setReg_keeps
    | with_reducible apply Dev.setOut_keeps
    | with_reducible apply Dev.setPort_keeps
    | with_reducible apply cmdEnd_keeps
    | extract_lets
    | (intro _; try beta_reduce)
    | split
    | with_reducible refine frame_keeps ?_ rfl rfl rfl rfl rfl rfl rfl rfl rfl (Nat.le_refl _))

theorem onCommand_keeps (p : HostPort) (opc : Nat) (f : Command → Dev → Dev) (d : Dev) (hf : ∀ x0 e d, Keeps e d → Keeps e (f x0 d)) {e0 : Dev} (h_ : Keeps e0 d) :
    Keeps e0 (onCommand p opc f d) := by
  refine h_.trans ?_
  unfold onCommand
  repeat' (first
    | with_reducible exact Keeps.refl _
    | with_reducible assumption
    | with_reducible apply hf
    | with_reducible apply Dev.setReg_keeps
    | with_reducible apply Dev.setOut_keeps
    | extract_lets
    | (intro _; try beta_reduce)
    | split
    | with_reducible refine frame_keeps ?_ rfl rfl rfl rfl rfl rfl rfl rfl rfl (Nat.le_refl _))

theorem cmdRead_keeps (p : HostPort) (snap : Dev) (c : Command) (d : Dev) {e0 : Dev} (h_ : Keeps e0 d) :
    Keeps e0 (cmdRead p snap c d) := by
  refine h_.trans ?_
  unfold cmdRead
  repeat' (first
    | with_reducible exact Keeps.refl _
    | with_reducible assumption
    | with_reducible apply Dev.setReg_keeps
    | with_reducible apply Dev.setOut_keeps
    | with_reducible apply devRead_keeps
    | with_reducible apply cmdEnd_keeps
    | extract_lets
    | (intro _; try beta_reduce)
    | split
    | with_reducible refine frame_keeps ?_ rfl rfl rfl rfl rfl rfl rfl rfl rfl (Nat.le_refl _)
    | with_reducible refine Keeps.ofSnd3 (by with_reducible assumption) ?_)

theorem cmdWrite_keeps (p : HostPort) (demand : Bool) (c : Command) (d : Dev) {e0 : Dev} (h_ : Keeps e0 d) :
    Keeps e0 (cmdWrite p demand c d) := by
  refine h_.trans ?_
  unfold cmdWrite
  split
  · exact Keeps.refl _
  · have k := hostWrite_keeps p verifyGood demand c.addr 4 c.data.toNat d (Keeps.refl d)
    generalize hostWrite p verifyGood demand c.addr 4 c.data.toNat d = q at k
    obtain ⟨st, d1⟩ := q
    exact ite_keeps (cmdEnd_keeps _ _ _ _ _ k) k

theorem cmdTimed_keeps (p : HostPort) (write : Bool) (c : Command) (d : Dev) {e0 : Dev} (h_ : Keeps e0 d) :
    Keeps e0 (cmdTimed p write c d) := by
  refine h_.trans ?_
  unfold cmdTimed
  repeat' (first
    | with_reducible exact Keeps.refl _
    | with_reducible assumption
    | with_reducible apply Dev.setReg_keeps
    | with_reducible apply Dev.setOut_keeps
    | with_reducible apply Dev.setPort_keeps
    | with_reducible apply timedNew_keeps
    | extract_lets
    | (intro _; try beta_reduce)
    | split
    | with_reducible refine frame_keeps ?_ rfl rfl rfl rfl rfl rfl rfl rfl rfl (Nat.le_refl _))

theorem spiWord_keeps (p : HostPort) (demand : Bool) (ofs i : Nat) (v : Word) (d : Dev) {e0 : Dev} (h_ : Keeps e0 d) :
    Keeps e0 (spiWord p demand ofs i v d) := by
  refine h_.trans ?_
  unfold spiWord
  repeat' (first
    | with_reducible exact Keeps.refl _
    | with_reducible assumption
    | with_reducible apply Dev.setReg_keeps
    | with_reducible apply Dev.setOut_keeps
    | with_reducible apply hostArrive_keeps
    | extract_lets
    | (intro _; try beta_reduce)
    | split
    | with_reducible refine frame_keeps ?_ rfl rfl rfl rfl rfl rfl rfl rfl rfl (Nat.le_refl _))

theorem qspiTimeout_keeps (p : HostPort) (d : Dev) {e0 : Dev} (h_ : Keeps e0 d) :
    Keeps e0 (qspiTimeout p d) := by
  refine h_.trans ?_
  unfold qspiTimeout
  repeat' (first
    | with_reducible exact Keeps.refl _
    | with_reducible assumption
    | with_reducible apply Dev.setReg_keeps
    | with_reducible apply Dev.setOut_keeps
    | with_reducible apply Dev.setPort_keeps
    | with_reducible apply setSpiTo_keeps
    | extract_lets
    | (intro _; try beta_reduce)
    | split
    | with_reducible apply upd_pw
    | with_reducible refine frame_keeps ?_ rfl rfl rfl rfl rfl rfl rfl rfl rfl (Nat.le_refl _))

theorem msixSend_keeps (p : HostPort) (v : Nat) (d : Dev) {e0 : Dev} (h_ : Keeps e0 d) :
    Keeps e0 (msixSend p v d) := by
  refine h_.trans ?_
  unfold msixSend
  repeat' (first
    | with_reducible exact Keeps.refl _
    | with_reducible assumption
    | with_reducible apply Dev.setReg_keeps
    | with_reducible apply Dev.setOut_keeps
    | with_reducible apply Dev.setFlag_keeps
    | with_reducible apply Dev.setPort_keeps
    | extract_lets
    | (intro _; try beta_reduce)
    | split
    | with_reducible refine frame_keeps ?_ rfl rfl rfl rfl rfl rfl rfl rfl rfl (Nat.le_refl _))

theorem linkSet_keeps (p : HostPort) (up : Bool) (d : Dev) {e0 : Dev} (h_ : Keeps e0 d) :
    Keeps e0 (linkSet p up d) := by
  refine h_.trans ?_
  unfold linkSet
  repeat' (first
    | with_reducible exact Keeps.refl _
    | with_reducible assumption
    | with_reducible apply Dev.setReg_keeps
    | with_reducible apply Dev.setOut_keeps
    | with_reducible apply Dev.setFlag_keeps
    | with_reducible apply raise_keeps
    | extract_lets
    | (intro _; try beta_reduce)
    | split
    | with_reducible refine frame_keeps ?_ rfl rfl rfl rfl rfl rfl rfl rfl rfl (Nat.le_refl _))

theorem cfgRequest_keeps (p : HostPort) (req : Sys2Proof.CfgRequest) (d : Dev) {e0 : Dev} (h_ : Keeps e0 d) :
    Keeps e0 (cfgRequest p req d) := by
  refine h_.trans ?_
  unfold cfgRequest
  repeat' (first
    | with_reducible exact Keeps.refl _
    | with_reducible assumption
    | with_reducible apply Dev.setReg_keeps
    | with_reducible apply Dev.setOut_keeps
    | with_reducible apply Dev.setPort_keeps
    | extract_lets
    | (intro _; try beta_reduce)
    | split
    | with_reducible refine frame_keeps ?_ rfl rfl rfl rfl rfl rfl rfl rfl rfl (Nat.le_refl _))

theorem rstPulse_keeps (ns : Nat) (x : Sys2Proof.Straps) (d : Dev) {e0 : Dev} (h_ : Keeps e0 d) :
    Keeps e0 (rstPulse ns x d) := by
  refine h_.trans ?_
  unfold rstPulse
  repeat' (first
    | with_reducible exact Keeps.refl _
    | with_reducible assumption
    | with_reducible apply Dev.setReg_keeps
    | with_reducible apply Dev.setOut_keeps
    | with_reducible apply mainReset_keeps
    | extract_lets
    | (intro _; try beta_reduce)
    | split
    | with_reducible refine frame_keeps ?_ rfl rfl rfl rfl rfl rfl rfl rfl rfl (Nat.le_refl _))

theorem fuseRead_keeps (d : Dev) {e0 : Dev} (h_ : Keeps e0 d) :
    Keeps e0 (fuseRead d) := by
  refine h_.trans ?_
  unfold fuseRead
  repeat' (first
    | with_reducible exact Keeps.refl _
    | with_reducible assumption
    | with_reducible apply Dev.setReg_keeps
    | with_reducible apply Dev.setOut_keeps
    | with_reducible apply Keeps.forAll
    | extract_lets
    | (intro _; try beta_reduce)
    | split
    | with_reducible refine frame_keeps ?_ rfl rfl rfl rfl rfl rfl rfl rfl rfl (Nat.le_refl _))

theorem replayStep_keeps (bad : Option Nat) (d : Dev) {e0 : Dev} (h_ : Keeps e0 d) :
    Keeps e0 (replayStep bad d) := by
  refine h_.trans ?_
  unfold replayStep
  repeat' (first
    | with_reducible exact Keeps.refl _
    | with_reducible assumption
    | with_reducible apply Dev.setReg_keeps
    | with_reducible apply Dev.setOut_keeps
    | with_reducible apply Dev.setFld_keeps
    | with_reducible apply celReplay_keeps
    | extract_lets
    | (intro _; try beta_reduce)
    | split
    | with_reducible refine frame_keeps ?_ rfl rfl rfl rfl rfl rfl rfl rfl rfl (Nat.le_refl _)
    | with_reducible refine Keeps.ofSnd (by with_reducible assumption) ?_)

theorem dramStep_keeps (sz : Nat) (trains : List (Fin 5)) (d : Dev) {e0 : Dev} (h_ : Keeps e0 d) :
    Keeps e0 (dramStep sz trains d) := by
  refine h_.trans ?_
  unfold dramStep
  repeat' (first
    | with_reducible exact Keeps.refl _
    | with_reducible assumption
    | with_reducible apply Dev.setReg_keeps
    | with_reducible apply Dev.setOut_keeps
    | with_reducible apply raise_keeps
    | extract_lets
    | (intro _; try beta_reduce)
    | split
    | with_reducible apply upd_dramSz
    | with_reducible refine frame_keeps ?_ rfl rfl rfl rfl rfl rfl rfl rfl rfl (Nat.le_refl _))

theorem readyStep_keeps (d : Dev) {e0 : Dev} (h_ : Keeps e0 d) :
    Keeps e0 (readyStep d) := by
  refine h_.trans ?_
  unfold readyStep
  repeat' (first
    | with_reducible exact Keeps.refl _
    | with_reducible assumption
    | with_reducible apply Dev.setReg_keeps
    | with_reducible apply Dev.setOut_keeps
    | with_reducible apply Dev.setFlag_keeps
    | with_reducible apply idReady_keeps
    | with_reducible apply edgeRest_keeps
    | extract_lets
    | (intro _; try beta_reduce)
    | split
    | with_reducible apply upd_mode
    | with_reducible apply upd_ready
    | with_reducible apply upd_tick
    | with_reducible refine frame_keeps ?_ rfl rfl rfl rfl rfl rfl rfl rfl rfl (Nat.le_refl _))

theorem startUp_keeps (env : Sys2Proof.StartEnv) (d : Dev) {e0 : Dev} (h_ : Keeps e0 d) :
    Keeps e0 (startUp env d) := by
  refine h_.trans ?_
  unfold startUp
  repeat' (first
    | with_reducible exact Keeps.refl _
    | with_reducible assumption
    | with_reducible apply Dev.setReg_keeps
    | with_reducible apply Dev.setOut_keeps
    | with_reducible apply fault_keeps
    | with_reducible apply loadStart_keeps
    | with_reducible apply fuseRead_keeps
    | with_reducible apply replayStep_keeps
    | with_reducible apply dramStep_keeps
    | with_reducible apply readyStep_keeps
    | extract_lets
    | (intro _; try beta_reduce)
    | split
    | with_reducible refine frame_keeps ?_ rfl rfl rfl rfl rfl rfl rfl rfl rfl (Nat.le_refl _))

theorem wake_keeps (w : Sys2Proof.WakeSet) (stopTu : Nat) (d : Dev) {e0 : Dev} (h_ : Keeps e0 d) :
    Keeps e0 (wake w stopTu d) := by
  refine h_.trans ?_
  unfold wake
  repeat' (first
    | with_reducible exact Keeps.refl _
    | with_reducible assumption
    | with_reducible apply Dev.setReg_keeps
    | with_reducible apply Dev.setOut_keeps
    | with_reducible apply wakeUp_keeps
    | extract_lets
    | (intro _; try beta_reduce)
    | split
    | with_reducible refine frame_keeps ?_ rfl rfl rfl rfl rfl rfl rfl rfl rfl (Nat.le_refl _))

theorem wakeTimer_keeps (d : Dev) {e0 : Dev} (h_ : Keeps e0 d) :
    Keeps e0 (wakeTimer d) := by
  refine h_.trans ?_
  unfold wakeTimer
  repeat' (first
    | with_reducible exact Keeps.refl _
    | with_reducible assumption
    | with_reducible apply Dev.setReg_keeps
    | with_reducible apply Dev.setOut_keeps
    | with_reducible apply Dev.reach_keeps
    | extract_lets
    | (intro _; try beta_reduce)
    | split
    | with_reducible apply upd_pw
    | with_reducible refine frame_keeps ?_ rfl rfl rfl rfl rfl rfl rfl rfl rfl (Nat.le_refl _))

theorem monAnswer_keeps (cmd : Nat) (f : MonFrame) (status : Nat) (payload : List Byte) (d : Dev) {e0 : Dev} (h_ : Keeps e0 d) :
    Keeps e0 (monAnswer cmd f status payload d) := by
  refine h_.trans ?_
  unfold monAnswer
  repeat' (first
    | with_reducible exact Keeps.refl _
    | with_reducible assumption
    | with_reducible apply Dev.setReg_keeps
    | with_reducible apply Dev.setOut_keeps
    | extract_lets
    | (intro _; try beta_reduce)
    | split
    | with_reducible apply upd_mon
    | with_reducible refine frame_keeps ?_ rfl rfl rfl rfl rfl rfl rfl rfl rfl (Nat.le_refl _))

theorem monWord_keeps (demand : Bool) (a : Nat) (v : Word) (d : Dev) {e0 : Dev} (h_ : Keeps e0 d) :
    Keeps e0 (monWord demand a v d).2 := by
  refine h_.trans ?_
  have base := Keeps.refl d
  unfold monWord
  have k : Keeps d (match accessRegion a 4 with
      | some .regs => writeReg .monitor demand a v d
      | some r => writeMem .monitor verifyGood r a 4 v.toNat d
      | none => (3, d)).2 := by
    split
    · exact writeReg_keeps _ _ _ _ _ base
    · exact writeMem_keeps _ _ _ _ _ _ _ base
    · exact base
  split
  rename_i heq
  exact Keeps.ofSnd heq k

end Sys2Proof.Machine
end

