-- ==== Sys2Proof/Laws/KeepsRows.lean ====
section
/-! SUPPORT. What every command keeps: it answers a next state, the device stays sound, time does not run backwards, and
the queue is left alone. -/
set_option linter.unusedTactic false
set_option linter.unreachableTactic false
namespace Sys2Proof.Machine
open Sys2Proof (HostPort AccSize Reader Lim MonFrame)

/-- From state s a command goes to state t. -/
structure Advances (s t : State) : Prop where
  dev     : Keeps s.dev t.dev
  snap    : s.Sound → t.snap.Sound
  pending : t.pending = s.pending

theorem Advances.refl (s : State) : Advances s s := ⟨Keeps.refl _, fun h => h.snap, rfl⟩

theorem Advances.trans {s t u : State} (h : Advances s t) (k : Advances t u) : Advances s u :=
  ⟨h.dev.trans k.dev, fun x => k.snap ⟨h.dev.sound x.dev, h.snap x⟩, k.pending.trans h.pending⟩

theorem Advances.ofDev {s : State} {d : Dev} (k : Keeps s.dev d) : Advances s { s with dev := d } :=
  ⟨k, fun h => h.snap, rfl⟩

theorem Advances.both {s : State} {d : Dev} (k : Keeps s.dev d) : Advances s { s with dev := d, snap := d } :=
  ⟨k, fun h => k.sound h.dev, rfl⟩

theorem State.putDev_adv {s : State} {d : Dev} (k : Keeps s.dev d) : Advances s (s.putDev d) := by
  refine ⟨k, fun h => ?_, rfl⟩
  unfold State.putDev
  dsimp only
  split
  · exact k.sound h.dev
  · exact h.snap

theorem State.restart_adv {s : State} {d : Dev} (k : Keeps s.dev d) : Advances s (s.restart d) := Advances.both k

theorem ite_adv {c : Prop} [Decidable c] {s a b : State} (ha : Advances s a) (hb : Advances s b) :
    Advances s (if c then a else b) := by
  split
  · exact ha
  · exact hb

/-! ## Limath -/

theorem limDev_adv (o : Sys2Proof.Lim) (legal : Bool) (off on_ : Dev → Dev) (s : State)
    (hoff : ∀ e d, Keeps e d → Keeps e (off d)) (hon : ∀ e d, Keeps e d → Keeps e (on_ d)) :
    Advances s (limDev o legal off on_ s) :=
  Advances.ofDev (limGate_keeps o legal off on_ s.dev hoff hon (Keeps.refl _))

theorem skipOff_mono (k : Fin 6) (e d : Dev) (h : Keeps e d) : Keeps e (skipOff k d) := skipOff_keeps _ _ h

theorem limReg_adv (o : Sys2Proof.Lim) (legal : Bool) (reads : List Nat) (cost lat : Nat) (dsts : List Nat)
    (op : Core → Core) (s : State) : Advances s (limReg o legal reads cost lat dsts op s) :=
  limDev_adv _ _ _ _ _ (skipOff_mono _) (fun _ _ h => Dev.setCore_keeps _ _ _ h)

theorem intR_adv (o : Sys2Proof.Lim) (legal : Bool) (cost lat : Nat) (op : Word → Word → Word × Nat) (s : State) :
    Advances s (intR o legal cost lat op s) := limReg_adv ..

theorem intI_adv (o : Sys2Proof.Lim) (legal : Bool) (op : Word → Word × Nat) (s : State) :
    Advances s (intI o legal op s) := limReg_adv ..

theorem fltR_adv (o : Sys2Proof.Lim) (cost lat : Nat) (op : Nat → Nat → FRes) (s : State) :
    Advances s (fltR o cost lat op s) := limReg_adv ..

theorem fltU_adv (o : Sys2Proof.Lim) (maxFn cost : Nat) (op : Word → FRes) (s : State) :
    Advances s (fltU o maxFn cost op s) := limReg_adv ..

theorem macDone_adv (o : Sys2Proof.Lim) (b : State) {s t : State} (h : Advances s t) : Advances s (macDone o b t) := by
  unfold macDone
  extract_lets c b
  split
  · exact h
  · split
    · exact h.trans (Advances.ofDev (Dev.setCore_keeps _ _ _ (Keeps.refl _)))
    · exact h

theorem loadLocal_adv (o : Lim) (legal : Bool) (n : Nat) (dsts : List Nat) (put : Core → Nat → Core) (s : State) :
    Advances s (loadLocal o legal n dsts put s) := by
  unfold loadLocal
  repeat' (first
    | with_reducible exact Advances.refl _
    | with_reducible refine limDev_adv _ _ _ _ _ ?_ ?_
    | with_reducible exact skipOff_mono _
    | with_reducible refine Advances.ofDev ?_
    | with_reducible exact Keeps.refl _
    | with_reducible assumption
    | with_reducible apply Dev.setReg_keeps
    | with_reducible apply Dev.setOut_keeps
    | with_reducible apply Dev.setCore_keeps
    | with_reducible apply limExc_keeps
    | with_reducible apply limCec_keeps
    | with_reducible apply skipOff_keeps
    | extract_lets
    | (intro _; try beta_reduce)
    | split
    | with_reducible refine frame_keeps ?_ rfl rfl rfl rfl rfl rfl rfl rfl rfl (Nat.le_refl _))

theorem storeLocal_adv (o : Lim) (legal : Bool) (n : Nat) (reads : List Nat) (val : Core → Nat) (s : State) :
    Advances s (storeLocal o legal n reads val s) := by
  unfold storeLocal
  repeat' (first
    | with_reducible exact Advances.refl _
    | with_reducible refine limDev_adv _ _ _ _ _ ?_ ?_
    | with_reducible exact skipOff_mono _
    | with_reducible refine Advances.ofDev ?_
    | with_reducible exact Keeps.refl _
    | with_reducible assumption
    | with_reducible apply Dev.setReg_keeps
    | with_reducible apply Dev.setOut_keeps
    | with_reducible apply Dev.setCore_keeps
    | with_reducible apply limExc_keeps
    | with_reducible apply skipOff_keeps
    | extract_lets
    | (intro _; try beta_reduce)
    | split
    | with_reducible refine frame_keeps ?_ rfl rfl rfl rfl rfl rfl rfl rfl rfl (Nat.le_refl _))

theorem loadSram_adv (o : Lim) (legal : Bool) (n : Nat) (dsts : List Nat) (put : Core → Nat → Core) (s : State) :
    Advances s (loadSram o legal n dsts put s) := by
  unfold loadSram
  repeat' (first
    | with_reducible exact Advances.refl _
    | with_reducible refine limDev_adv _ _ _ _ _ ?_ ?_
    | with_reducible exact skipOff_mono _
    | with_reducible refine Advances.ofDev ?_
    | with_reducible exact Keeps.refl _
    | with_reducible assumption
    | with_reducible apply Dev.setReg_keeps
    | with_reducible apply Dev.setOut_keeps
    | with_reducible apply Dev.tickFree_keeps
    | with_reducible apply Dev.setCore_keeps
    | with_reducible apply fault_keeps
    | with_reducible apply limExc_keeps
    | with_reducible apply skipOff_keeps
    | extract_lets
    | (intro _; try beta_reduce)
    | split
    | with_reducible refine frame_keeps ?_ rfl rfl rfl rfl rfl rfl rfl rfl rfl (Nat.le_refl _))

theorem storeSram_adv (o : Lim) (legal : Bool) (n : Nat) (reads : List Nat) (val : Core → Nat) (s : State) :
    Advances s (storeSram o legal n reads val s) := by
  unfold storeSram
  repeat' (first
    | with_reducible exact Advances.refl _
    | with_reducible refine limDev_adv _ _ _ _ _ ?_ ?_
    | with_reducible exact skipOff_mono _
    | with_reducible refine Advances.ofDev ?_
    | with_reducible exact Keeps.refl _
    | with_reducible assumption
    | with_reducible apply Dev.setReg_keeps
    | with_reducible apply Dev.setOut_keeps
    | with_reducible apply Dev.setCore_keeps
    | with_reducible apply fault_keeps
    | with_reducible apply stage_keeps
    | with_reducible apply limExc_keeps
    | with_reducible apply skipOff_keeps
    | extract_lets
    | (intro _; try beta_reduce)
    | split
    | with_reducible refine frame_keeps ?_ rfl rfl rfl rfl rfl rfl rfl rfl rfl (Nat.le_refl _))

theorem readMbox_adv (o : Lim) (addr : Nat) (s : State) :
    Advances s (readMbox o addr s) := by
  unfold readMbox
  repeat' (first
    | with_reducible exact Advances.refl _
    | with_reducible refine limDev_adv _ _ _ _ _ ?_ ?_
    | with_reducible exact skipOff_mono _
    | with_reducible refine Advances.ofDev ?_
    | with_reducible exact Keeps.refl _
    | with_reducible assumption
    | with_reducible apply Dev.setReg_keeps
    | with_reducible apply Dev.setOut_keeps
    | with_reducible apply Dev.setCore_keeps
    | with_reducible apply limExc_keeps
    | with_reducible apply limCec_keeps
    | with_reducible apply skipOff_keeps
    | extract_lets
    | (intro _; try beta_reduce)
    | split
    | with_reducible refine frame_keeps ?_ rfl rfl rfl rfl rfl rfl rfl rfl rfl (Nat.le_refl _))


theorem atEdge_adv (f : Dev → Dev) (s : State) (hf : Keeps s.dev (f s.dev)) : ∃ t, atEdge f s = .next t ∧ Advances s t :=
  ⟨_, rfl, Advances.ofDev (ite_keeps hf (Keeps.refl _))⟩

theorem onReady_adv (f : Dev → Dev) (s : State) (hf : Keeps s.dev (f s.dev)) : ∃ t, onReady f s = .next t ∧ Advances s t :=
  ⟨_, rfl, Advances.ofDev (ite_keeps hf (Keeps.refl _))⟩

theorem hrnStep_adv (f : Harness → Harness) (s : State) : ∃ t, hrnStep f s = .next t ∧ Advances s t :=
  ⟨_, rfl, Advances.ofDev (ite_keeps (Dev.setHrn_keeps _ _ (Keeps.refl _)) (Keeps.refl _))⟩

/-! ## Host accesses -/

theorem hostRow_adv (p : HostPort) (vf : Sys2Proof.VerifyEnv) (x : PortWrite) (s : State) : Advances s (hostRow p vf x s) := by
  unfold hostRow
  exact ite_adv (Advances.refl _) (Advances.ofDev (hostArrive_keeps _ _ _ _ _ (hostWakes_keeps _ _ (Keeps.refl _))))

theorem hostBarWrite_adv (p : HostPort) (vf : Sys2Proof.VerifyEnv) (a n v : Nat) (s : State) :
    Advances s (hostBarWrite p vf a n v s) := hostRow_adv ..

theorem regRow_adv (p : HostPort) (a : Nat) (v : Word) (s : State) : Advances s (regRow p a v s) :=
  State.putDev_adv (hostBarWrite_adv ..).dev

theorem memRow_adv (p : HostPort) (a : Nat) (sz : AccSize) (v : DWord) (vf : Sys2Proof.VerifyEnv) (s : State) :
    Advances s (memRow p a sz v vf s) := State.putDev_adv (hostBarWrite_adv ..).dev

theorem loRead_adv (r : Reader) (a : Nat) (s : State) : Advances s (loRead r a s) := by
  unfold loRead
  refine State.putDev_adv ?_
  split
  · exact hostRead_keeps _ _ _ _ _ _ _ (Keeps.refl _)
  · exact ite_keeps (latchHi_keeps _ _ _ (Keeps.refl _)) (Keeps.refl _)

theorem reinsRow_adv (p : HostPort) (a : ReinsAct) (s : State) : Advances s (reinsRow p a s) :=
  State.putDev_adv (hostRow_adv ..).dev

/-! ## The tick -/

theorem computeStart_adv (s : State) : Advances s (computeStart s) := by
  unfold computeStart
  extract_lets d d1 d2 d3 d4 x5 x6 d5 snap
  have k1 : Keeps s.dev d1 := Dev.reachTick_keeps _ _ (Keeps.refl _)
  have k2 : Keeps s.dev d2 := forAxes_keeps _ _ (fun _ _ _ h => fbCaptureEnd_keeps _ _ h) k1
  have k3 : Keeps s.dev d3 := Keeps.forAll (fun j d => latchCapture_keeps _ _ (Keeps.refl _)) _ k2
  have k4 : Keeps s.dev d4 := visCapture_keeps _ (tdlCapture_keeps _ (fieldCapture_keeps _ (cartCapture_keeps _ k3)))
  clear_value d4
  have k5 : Keeps s.dev d5 := frame_keeps k4 rfl rfl rfl rfl rfl rfl rfl rfl rfl (Nat.le_refl _)
  clear_value x5 x6 d5
  have ks : Keeps s.dev snap := upd_lanes _ _ k5
  clear_value snap
  refine ite_adv (Advances.refl _) ⟨?_, fun h => ks.sound h.dev, rfl⟩
  exact ite_keeps k5 (visAdmit_keeps _ (startCores_keeps _ _ k5))

theorem wratAccept_adv (p : HostPort) (s : State) : Advances s (wratAccept p s) :=
  (computeStart_adv s).trans
    (Advances.ofDev (ite_keeps (acceptAll_keeps _ _ (acceptInstant_keeps _ (Keeps.refl _))) (Keeps.refl _)))

/-! ## The rows -/

theorem edgeAt_keeps (vote : Sys2Proof.CommitVote) (snap d : Dev) {e0 : Dev} (h_ : Keeps e0 d) :
    Keeps e0 (edgeAt vote snap d) := by
  unfold edgeAt
  extract_lets d0 ran commits demand cycles causes lim d1 d2 x3 d3
  have k1 : Keeps e0 d1 := ite_keeps (voteEdge_keeps _ _ (Dev.reach_keeps _ _ h_)) (Dev.reach_keeps _ _ h_)
  clear_value d1 lim causes cycles demand commits ran
  refine ite_keeps k1 ?_
  have k3 : Keeps e0 d3 := upd_tick _ _ (axesEnd_keeps _ _ k1)
  clear_value x3 d3
  have k4 := imageDiscard_keeps (inOrder d3.tick.staged) d3 k3
  generalize imageDiscard (inOrder d3.tick.staged) d3 = q at k4
  obtain ⟨l, d4⟩ := q
  dsimp -zeta only at k4 ⊢
  extract_lets d5 d6 d7
  have k5 : Keeps e0 d5 := imageTake_keeps _ (ite_keeps (edgeCommit_keeps _ _ _ k4) (edgeAbandon_keeps _ _ _ k4))
  clear_value d5
  have k6 : Keeps e0 d6 := edgeRest_keeps _ _ _ _ _ _ k5
  clear_value d6
  have k7 : Keeps e0 d7 := timedEdge_keeps _ _ _ (timedEdge_keeps _ _ _ (loadWatch_keeps _ _ k6))
  clear_value d7
  exact rdatLatch_keeps _ _ (rdatLatch_keeps _ _ k7)

theorem tickEdge_adv (vote : Sys2Proof.CommitVote) (s : State) : Advances s (tickEdge vote s) := by
  unfold tickEdge
  have k := computeStart_adv s
  refine ite_adv (Advances.refl _) (k.trans ?_)
  clear k
  generalize computeStart s = u
  extract_lets _ d1 d2 d3
  have k2 : Keeps u.dev d2 := performAll_keeps _ _ _ (performAll_keeps _ _ _ (stageStart_keeps _ _ (Keeps.refl _)))
  have k3 : Keeps u.dev d3 := edgeAt_keeps _ _ _ k2
  clear_value d3 d2
  refine ite_adv (Advances.ofDev k2) ⟨k3, fun h => ?_, rfl⟩
  dsimp only
  split
  · exact h.snap
  · exact k3.sound h.dev


/-! ## The quad-SPI -/

theorem qspiWrite_keeps (p : HostPort) (ofs : Nat) (ws : List Word) (s : State) : Keeps s.dev (qspiWrite p ofs ws s) := by
  unfold qspiWrite
  extract_lets d d1
  have k1 : Keeps s.dev d1 := hostWakes_keeps _ _ (Keeps.refl _)
  clear_value d1
  exact ite_keeps (Keeps.refl _) (ite_keeps (setAccErr_keeps _ _ k1)
    (Keeps.foldl (fun d _ => spiWord_keeps _ _ _ _ _ d (Keeps.refl d)) _ k1))

theorem spiRead_keeps (p : HostPort) (ofs : Nat) (snap : Dev) (n i : Nat) (d : Dev) {e0 : Dev} (h_ : Keeps e0 d) :
    Keeps e0 (spiRead p ofs snap n i d).2 := by
  induction n generalizing i d with
  | zero => exact h_
  | succ n ih =>
    unfold spiRead
    generalize spiAddr _ _ = q
    obtain ⟨dram, a⟩ := q
    dsimp only
    generalize hx : (if dram = true then _ else _ : Word × Dev) = x
    have k : Keeps e0 x.2 := by
      subst hx
      split
      · exact h_
      · exact devRead_keeps _ _ _ _ _ h_
    obtain ⟨w, d1⟩ := x
    exact ih _ _ k

theorem qspiRead_keeps (p : HostPort) (ofs n : Nat) (s : State) : Keeps s.dev (qspiRead p ofs n s) := by
  unfold qspiRead
  extract_lets d put d1
  have kp : ∀ m ws e, Keeps s.dev e → Keeps s.dev (put m ws e) := fun m ws e h => Dev.setPort_keeps _ _ _ h
  have k1 : Keeps s.dev d1 := hostWakes_keeps _ _ (Keeps.refl _)
  clear_value d1 put
  refine ite_keeps (Keeps.refl _) (ite_keeps (kp _ _ _ (Keeps.refl _)) (ite_keeps (setAccErr_keeps _ _ (kp _ _ _ k1)) ?_))
  have k2 := spiRead_keeps p ofs s.snap n 0 d1 k1
  generalize spiRead p ofs s.snap n 0 d1 = q at k2
  obtain ⟨ws, d2⟩ := q
  exact kp _ _ _ k2

/-! ## The monitor -/

theorem monRow_adv (cmd : Nat) (f : MonFrame) (g : State → Nat × List Byte × Dev) (s : State)
    (hg : Keeps s.dev (g s).2.2) : Advances s (monRow cmd f g s) := by
  unfold monRow
  refine ite_adv (Advances.refl _) ?_
  generalize g s = q at hg
  obtain ⟨st, pl, d⟩ := q
  exact State.putDev_adv (upd_mon _ _ hg)

theorem inSession_keeps (s : State) (ok : Bool) (g : State → Nat × List Byte × Dev) (hg : Keeps s.dev (g s).2.2) :
    Keeps s.dev (inSession s ok g).2.2 := by
  unfold inSession
  split
  · exact Keeps.refl _
  · split
    · exact hg
    · exact Keeps.refl _

theorem monWords_keeps (snap : Dev) (n a : Nat) (d : Dev) (x : List Byte × Dev) (h : monWords snap n a d = some x) :
    Keeps d x.2 := by
  induction n generalizing a d x with
  | zero => cases h; exact Keeps.refl _
  | succ n ih =>
    unfold monWords at h
    have k := devRead_keeps .monitor a 4 snap d (Keeps.refl d)
    generalize devRead .monitor a 4 snap d = q at h k
    obtain ⟨bs, ok, d1⟩ := q
    dsimp only at h k
    cases ok with
    | false => cases h
    | true =>
      obtain ⟨y, hy, rfl⟩ := Option.map_eq_some_iff.1 h
      exact k.trans (ih _ _ y hy)

theorem monWriteAll_keeps (demand : Bool) (l : List (Nat × Word)) (d : Dev) : Keeps d (monWriteAll demand l d).2 := by
  induction l generalizing d with
  | nil => exact Keeps.refl _
  | cons x t ih => exact (monWord_keeps demand x.1 x.2 d (Keeps.refl _)).trans (ih _)

theorem monInfo_keeps (f : MonFrame) (s : State) : Keeps s.dev (monInfo f s).2.2 := Keeps.refl _

theorem monCore_keeps (f : MonFrame) (s : State) : Keeps s.dev (monCore f s).2.2 := by
  unfold monCore
  extract_lets k
  split
  · exact Keeps.refl _
  · split
    · split <;> exact Keeps.refl _
    · exact Keeps.refl _

theorem monTrace_keeps (f : MonFrame) (s : State) : Keeps s.dev (monTrace f s).2.2 := by
  unfold monTrace
  extract_lets e n
  split <;> exact Keeps.refl _

theorem monRead_keeps (f : MonFrame) (s : State) : Keeps s.dev (monRead f s).2.2 := by
  unfold monRead
  extract_lets n
  split
  · exact Keeps.refl _
  · split
    · rename_i h
      exact monWords_keeps _ _ _ _ _ h
    · exact Keeps.refl _

theorem monWrite_keeps (f : MonFrame) (s : State) : Keeps s.dev (monWrite f s).2.2 := by
  unfold monWrite
  extract_lets ws ok
  refine inSession_keeps _ _ _ ?_
  dsimp only
  split
  · exact Keeps.refl _
  · split
    · exact Keeps.refl _
    · exact raise_keeps _ _ (monWriteAll_keeps _ _ _)

theorem monUnlock_keeps (f : MonFrame) (s : State) : Keeps s.dev (monUnlock f s).2.2 := by
  unfold monUnlock
  extract_lets d
  split
  · exact Keeps.refl _
  · split
    · exact Keeps.refl _
    · split
      · exact Keeps.refl _
      · split
        · exact Dev.setFld_keeps _ _ _ _ _ (Keeps.refl _)
        · split
          · exact Keeps.refl _
          · exact raise_keeps _ _ (Dev.setFlag_keeps _ _ _ _ (Keeps.refl _))

theorem monClose_keeps (f : MonFrame) (s : State) : Keeps s.dev (monClose f s).2.2 := by
  unfold monClose
  split
  · exact Keeps.refl _
  · exact monSessionEnd_keeps _ (Keeps.refl _)

theorem monHold_keeps (f : MonFrame) (s : State) : Keeps s.dev (monHold f s).2.2 := by
  unfold monHold
  refine inSession_keeps _ _ _ (ite_keeps (Keeps.refl _) (upd_mon _ _ (Keeps.refl _)))

theorem monStep_keeps (f : MonFrame) (s : State) : Keeps s.dev (monStep f s).2.2 := by
  unfold monStep
  extract_lets n
  refine inSession_keeps _ _ _ ?_
  dsimp only
  split
  · exact Keeps.refl _
  · exact upd_mon _ _ (Dev.setReg_keeps _ _ _ (monRelease_keeps _ (Keeps.refl _)))

theorem monFree_keeps (f : MonFrame) (s : State) : Keeps s.dev (monFree f s).2.2 := by
  unfold monFree
  exact inSession_keeps _ _ _ (monRelease_keeps _ (Keeps.refl _))

theorem monBaud_keeps (f : MonFrame) (s : State) : Keeps s.dev (monBaud f s).2.2 := by
  unfold monBaud
  extract_lets n
  exact inSession_keeps _ _ _ (Dev.setReg_keeps _ _ _ (Keeps.refl _))

theorem execGainWrite_adv (n : Fin 16) (offset : Nat) (v : Word) (s : State) :
    ∃ t₁, execGainWrite n offset v s = .next t₁ ∧ Advances s t₁ := by
  refine ⟨_, rfl, ?_⟩
  repeat' (first
    | with_reducible exact Advances.refl _
    | with_reducible refine Advances.ofDev ?_
    | with_reducible exact Keeps.refl _
    | with_reducible assumption
    | with_reducible apply Dev.setReg_keeps
    | with_reducible apply Dev.setOut_keeps
    | with_reducible apply commitGain_keeps
    | extract_lets
    | (intro _; try beta_reduce)
    | split
    | with_reducible refine frame_keeps ?_ rfl rfl rfl rfl rfl rfl rfl rfl rfl (Nat.le_refl _))

theorem execTableWrite_adv (n : Fin 16) (v : Word) (s : State) :
    ∃ t₁, execTableWrite n v s = .next t₁ ∧ Advances s t₁ :=
  atEdge_adv _ _ (tableWrite_keeps _ _ _ (Keeps.refl _))

theorem execFrset_adv (n : Fin 16) (s : State) :
    ∃ t₁, execFrset n s = .next t₁ ∧ Advances s t₁ :=
  atEdge_adv _ _ (frSet_keeps _ _ (Keeps.refl _))

theorem execFrclr_adv (n : Fin 16) (s : State) :
    ∃ t₁, execFrclr n s = .next t₁ ∧ Advances s t₁ :=
  atEdge_adv _ _ (frClr_keeps _ _ (Keeps.refl _))

theorem execCgset_adv (n : Fin 16) (s : State) :
    ∃ t₁, execCgset n s = .next t₁ ∧ Advances s t₁ :=
  atEdge_adv _ _ (cgSet_keeps _ _ (Keeps.refl _))

theorem execCgclr_adv (n : Fin 16) (s : State) :
    ∃ t₁, execCgclr n s = .next t₁ ∧ Advances s t₁ :=
  atEdge_adv _ _ (cgClr_keeps _ _ (Keeps.refl _))

theorem execControlPass_adv (n : Fin 16) (b : PassBits) (s : State) :
    ∃ t₁, execControlPass n b s = .next t₁ ∧ Advances s t₁ := by
  refine ⟨_, rfl, ?_⟩
  repeat' (first
    | with_reducible exact Advances.refl _
    | with_reducible refine Advances.ofDev ?_
    | with_reducible exact Keeps.refl _
    | with_reducible assumption
    | with_reducible apply Dev.setReg_keeps
    | with_reducible apply Dev.setOut_keeps
    | with_reducible apply servoPass_keeps
    | extract_lets
    | (intro _; try beta_reduce)
    | split
    | with_reducible refine frame_keeps ?_ rfl rfl rfl rfl rfl rfl rfl rfl rfl (Nat.le_refl _))

theorem execChopperPass_adv (n : Fin 16) (b : PassBits) (s : State) :
    ∃ t₁, execChopperPass n b s = .next t₁ ∧ Advances s t₁ := by
  refine ⟨_, rfl, ?_⟩
  repeat' (first
    | with_reducible exact Advances.refl _
    | with_reducible refine Advances.ofDev ?_
    | with_reducible exact Keeps.refl _
    | with_reducible assumption
    | with_reducible apply Dev.setReg_keeps
    | with_reducible apply Dev.setOut_keeps
    | with_reducible apply chopperPass_keeps
    | extract_lets
    | (intro _; try beta_reduce)
    | split
    | with_reducible refine frame_keeps ?_ rfl rfl rfl rfl rfl rfl rfl rfl rfl (Nat.le_refl _))

theorem execChopperModeTimeout_adv (n : Fin 16) (s : State) :
    ∃ t₁, execChopperModeTimeout n s = .next t₁ ∧ Advances s t₁ := by
  refine ⟨_, rfl, ?_⟩
  repeat' (first
    | with_reducible exact Advances.refl _
    | with_reducible refine Advances.ofDev ?_
    | with_reducible exact Keeps.refl _
    | with_reducible assumption
    | with_reducible apply Dev.setReg_keeps
    | with_reducible apply Dev.setOut_keeps
    | with_reducible apply Dev.setLane_keeps
    | extract_lets
    | (intro _; try beta_reduce)
    | split
    | with_reducible refine frame_keeps ?_ rfl rfl rfl rfl rfl rfl rfl rfl rfl (Nat.le_refl _))

theorem execCarrierValley_adv (n : Fin 16) (s : State) :
    ∃ t₁, execCarrierValley n s = .next t₁ ∧ Advances s t₁ := by
  refine ⟨_, rfl, ?_⟩
  repeat' (first
    | with_reducible exact Advances.refl _
    | with_reducible refine Advances.ofDev ?_
    | with_reducible exact Keeps.refl _
    | with_reducible assumption
    | with_reducible apply Dev.setReg_keeps
    | with_reducible apply Dev.setOut_keeps
    | with_reducible apply carrierValley_keeps
    | extract_lets
    | (intro _; try beta_reduce)
    | split
    | with_reducible refine frame_keeps ?_ rfl rfl rfl rfl rfl rfl rfl rfl rfl (Nat.le_refl _))

theorem execOvercurrentTrip_adv (ch : Fin 24) (amps : Word) (s : State) :
    ∃ t₁, execOvercurrentTrip ch amps s = .next t₁ ∧ Advances s t₁ := by
  refine ⟨_, rfl, ?_⟩
  repeat' (first
    | with_reducible exact Advances.refl _
    | with_reducible refine Advances.ofDev ?_
    | with_reducible exact Keeps.refl _
    | with_reducible assumption
    | with_reducible apply Dev.setReg_keeps
    | with_reducible apply Dev.setOut_keeps
    | with_reducible apply overcurrent_keeps
    | extract_lets
    | (intro _; try beta_reduce)
    | split
    | with_reducible refine frame_keeps ?_ rfl rfl rfl rfl rfl rfl rfl rfl rfl (Nat.le_refl _))

theorem execSdError_adv (ch : Fin 24) (s : State) :
    ∃ t₁, execSdError ch s = .next t₁ ∧ Advances s t₁ := by
  refine ⟨_, rfl, ?_⟩
  repeat' (first
    | with_reducible exact Advances.refl _
    | with_reducible refine Advances.ofDev ?_
    | with_reducible exact Keeps.refl _
    | with_reducible assumption
    | with_reducible apply Dev.setReg_keeps
    | with_reducible apply Dev.setOut_keeps
    | with_reducible apply sdError_keeps
    | extract_lets
    | (intro _; try beta_reduce)
    | split
    | with_reducible refine frame_keeps ?_ rfl rfl rfl rfl rfl rfl rfl rfl rfl (Nat.le_refl _))

theorem execJobGo_adv (p : Fin 2) (s : State) :
    ∃ t₁, execJobGo p s = .next t₁ ∧ Advances s t₁ :=
  atEdge_adv _ _ (jobGo_keeps _ _ (Keeps.refl _))

theorem execJobAbort_adv (p : Fin 2) (s : State) :
    ∃ t₁, execJobAbort p s = .next t₁ ∧ Advances s t₁ :=
  atEdge_adv _ _ (jobAbort_keeps _ _ (Keeps.refl _))

theorem execRowFetch_adv (p : Fin 2) (err : Option Sys2Proof.SramError) (s : State) :
    ∃ t₁, execRowFetch p err s = .next t₁ ∧ Advances s t₁ := by
  refine ⟨_, rfl, ?_⟩
  repeat' (first
    | with_reducible exact Advances.refl _
    | with_reducible refine Advances.ofDev ?_
    | with_reducible exact Keeps.refl _
    | with_reducible assumption
    | with_reducible apply Dev.setReg_keeps
    | with_reducible apply Dev.setOut_keeps
    | with_reducible apply rowFetch_keeps
    | extract_lets
    | (intro _; try beta_reduce)
    | split
    | with_reducible refine frame_keeps ?_ rfl rfl rfl rfl rfl rfl rfl rfl rfl (Nat.le_refl _))

theorem execIndexDue_adv (p : Fin 2) (s : State) :
    ∃ t₁, execIndexDue p s = .next t₁ ∧ Advances s t₁ :=
  onReady_adv _ _ (indexDue_keeps _ _ (Keeps.refl _))

theorem execDelayedFiring_adv (p : Fin 2) (s : State) :
    ∃ t₁, execDelayedFiring p s = .next t₁ ∧ Advances s t₁ :=
  onReady_adv _ _ (delayedFiring_keeps _ _ (Keeps.refl _))

theorem execFiringEnd_adv (p : Fin 2) (s : State) :
    ∃ t₁, execFiringEnd p s = .next t₁ ∧ Advances s t₁ :=
  onReady_adv _ _ (firingEnd_keeps _ _ (Keeps.refl _))

theorem execHeadFault_adv (p : Fin 2) (low : Bool) (s : State) :
    ∃ t₁, execHeadFault p low s = .next t₁ ∧ Advances s t₁ :=
  onReady_adv _ _ (headFault_keeps _ _ _ (Keeps.refl _))

theorem execDensityWrite_adv (p : Fin 2) (v : Word) (s : State) :
    ∃ t₁, execDensityWrite p v s = .next t₁ ∧ Advances s t₁ :=
  atEdge_adv _ _ (densityWrite_keeps _ _ _ (Keeps.refl _))

theorem execSliceWidthWrite_adv (p : Fin 2) (v : Word) (s : State) :
    ∃ t₁, execSliceWidthWrite p v s = .next t₁ ∧ Advances s t₁ :=
  atEdge_adv _ _ (sliceWrite_keeps _ _ _ (Keeps.refl _))

theorem execQuadEdge_adv (c : Fin 16) (a b : Bool) (l : HeldLevel) (s : State) :
    ∃ t₁, execQuadEdge c a b l s = .next t₁ ∧ Advances s t₁ := by
  refine ⟨_, rfl, ?_⟩
  repeat' (first
    | with_reducible exact Advances.refl _
    | with_reducible refine Advances.ofDev ?_
    | with_reducible exact Keeps.refl _
    | with_reducible assumption
    | with_reducible apply Dev.setReg_keeps
    | with_reducible apply Dev.setOut_keeps
    | with_reducible apply quadStep_keeps
    | extract_lets
    | (intro _; try beta_reduce)
    | split
    | with_reducible refine frame_keeps ?_ rfl rfl rfl rfl rfl rfl rfl rfl rfl (Nat.le_refl _))

theorem execHallStep_adv (c : Fin 16) (uvw : BitVec 3) (l : HeldLevel) (s : State) :
    ∃ t₁, execHallStep c uvw l s = .next t₁ ∧ Advances s t₁ := by
  refine ⟨_, rfl, ?_⟩
  repeat' (first
    | with_reducible exact Advances.refl _
    | with_reducible refine Advances.ofDev ?_
    | with_reducible exact Keeps.refl _
    | with_reducible assumption
    | with_reducible apply Dev.setReg_keeps
    | with_reducible apply Dev.setOut_keeps
    | with_reducible apply hallTo_keeps
    | extract_lets
    | (intro _; try beta_reduce)
    | split
    | with_reducible refine frame_keeps ?_ rfl rfl rfl rfl rfl rfl rfl rfl rfl (Nat.le_refl _))

theorem execZEdge_adv (z : ZRise) (s : State) :
    ∃ t₁, execZEdge z s = .next t₁ ∧ Advances s t₁ := by
  refine ⟨_, rfl, ?_⟩
  repeat' (first
    | with_reducible exact Advances.refl _
    | with_reducible refine Advances.ofDev ?_
    | with_reducible exact Keeps.refl _
    | with_reducible assumption
    | with_reducible apply Dev.setReg_keeps
    | with_reducible apply Dev.setOut_keeps
    | with_reducible apply zStep_keeps
    | extract_lets
    | (intro _; try beta_reduce)
    | split
    | with_reducible refine frame_keeps ?_ rfl rfl rfl rfl rfl rfl rfl rfl rfl (Nat.le_refl _))

theorem execZeroSpeedTimeout_adv (c : Fin 16) (s : State) :
    ∃ t₁, execZeroSpeedTimeout c s = .next t₁ ∧ Advances s t₁ := by
  refine ⟨_, rfl, ?_⟩
  repeat' (first
    | with_reducible exact Advances.refl _
    | with_reducible refine Advances.ofDev ?_
    | with_reducible exact Keeps.refl _
    | with_reducible assumption
    | with_reducible apply Dev.setReg_keeps
    | with_reducible apply Dev.setOut_keeps
    | with_reducible apply zeroSpeed_keeps
    | extract_lets
    | (intro _; try beta_reduce)
    | split
    | with_reducible refine frame_keeps ?_ rfl rfl rfl rfl rfl rfl rfl rfl rfl (Nat.le_refl _))

theorem execSsiFrameStart_adv (c : Fin 16) (s : State) :
    ∃ t₁, execSsiFrameStart c s = .next t₁ ∧ Advances s t₁ := by
  refine ⟨_, rfl, ?_⟩
  repeat' (first
    | with_reducible exact Advances.refl _
    | with_reducible refine Advances.ofDev ?_
    | with_reducible exact Keeps.refl _
    | with_reducible assumption
    | with_reducible apply Dev.setReg_keeps
    | with_reducible apply Dev.setOut_keeps
    | with_reducible apply ssiStart_keeps
    | extract_lets
    | (intro _; try beta_reduce)
    | split
    | with_reducible refine frame_keeps ?_ rfl rfl rfl rfl rfl rfl rfl rfl rfl (Nat.le_refl _))

theorem execRs485Request_adv (c : Fin 16) (s : State) :
    ∃ t₁, execRs485Request c s = .next t₁ ∧ Advances s t₁ := by
  refine ⟨_, rfl, ?_⟩
  repeat' (first
    | with_reducible exact Advances.refl _
    | with_reducible refine Advances.ofDev ?_
    | with_reducible exact Keeps.refl _
    | with_reducible assumption
    | with_reducible apply Dev.setReg_keeps
    | with_reducible apply Dev.setOut_keeps
    | with_reducible apply rsStart_keeps
    | extract_lets
    | (intro _; try beta_reduce)
    | split
    | with_reducible refine frame_keeps ?_ rfl rfl rfl rfl rfl rfl rfl rfl rfl (Nat.le_refl _))

theorem execSerialFrameEnd_adv (c : Fin 16) (f : SerialFrame) (s : State) :
    ∃ t₁, execSerialFrameEnd c f s = .next t₁ ∧ Advances s t₁ := by
  refine ⟨_, rfl, ?_⟩
  repeat' (first
    | with_reducible exact Advances.refl _
    | with_reducible refine Advances.ofDev ?_
    | with_reducible exact Keeps.refl _
    | with_reducible assumption
    | with_reducible apply Dev.setReg_keeps
    | with_reducible apply Dev.setOut_keeps
    | with_reducible apply serialEnd_keeps
    | extract_lets
    | (intro _; try beta_reduce)
    | split
    | with_reducible refine frame_keeps ?_ rfl rfl rfl rfl rfl rfl rfl rfl rfl (Nat.le_refl _))

theorem execRs485Timeout_adv (c : Fin 16) (s : State) :
    ∃ t₁, execRs485Timeout c s = .next t₁ ∧ Advances s t₁ := by
  refine ⟨_, rfl, ?_⟩
  repeat' (first
    | with_reducible exact Advances.refl _
    | with_reducible refine Advances.ofDev ?_
    | with_reducible exact Keeps.refl _
    | with_reducible assumption
    | with_reducible apply Dev.setReg_keeps
    | with_reducible apply Dev.setOut_keeps
    | with_reducible apply badFrame_keeps
    | extract_lets
    | (intro _; try beta_reduce)
    | split
    | with_reducible refine frame_keeps ?_ rfl rfl rfl rfl rfl rfl rfl rfl rfl (Nat.le_refl _))

theorem execSerialStaleTimeout_adv (c : Fin 16) (s : State) :
    ∃ t₁, execSerialStaleTimeout c s = .next t₁ ∧ Advances s t₁ := by
  refine ⟨_, rfl, ?_⟩
  repeat' (first
    | with_reducible exact Advances.refl _
    | with_reducible refine Advances.ofDev ?_
    | with_reducible exact Keeps.refl _
    | with_reducible assumption
    | with_reducible apply Dev.setReg_keeps
    | with_reducible apply Dev.setOut_keeps
    | with_reducible apply fbUnref_keeps
    | extract_lets
    | (intro _; try beta_reduce)
    | split
    | with_reducible refine frame_keeps ?_ rfl rfl rfl rfl rfl rfl rfl rfl rfl (Nat.le_refl _))

theorem execSincosSample_adv (c : Fin 16) (sn cs : BitVec 14) (quadrants : BitVec 32) (fast : Bool) (ts : DWord) (s : State) :
    ∃ t₁, execSincosSample c sn cs quadrants fast ts s = .next t₁ ∧ Advances s t₁ := by
  refine ⟨_, rfl, ?_⟩
  repeat' (first
    | with_reducible exact Advances.refl _
    | with_reducible refine Advances.ofDev ?_
    | with_reducible exact Keeps.refl _
    | with_reducible assumption
    | with_reducible apply Dev.setReg_keeps
    | with_reducible apply Dev.setOut_keeps
    | with_reducible apply sincosStep_keeps
    | with_reducible apply startSample_keeps
    | extract_lets
    | (intro _; try beta_reduce)
    | split
    | with_reducible refine frame_keeps ?_ rfl rfl rfl rfl rfl rfl rfl rfl rfl (Nat.le_refl _))

theorem execCapEdge_adv (j : Fin 8) (rising : Bool) (l : HeldLevel) (s : State) :
    ∃ t₁, execCapEdge j rising l s = .next t₁ ∧ Advances s t₁ := by
  refine ⟨_, rfl, ?_⟩
  repeat' (first
    | with_reducible exact Advances.refl _
    | with_reducible refine Advances.ofDev ?_
    | with_reducible exact Keeps.refl _
    | with_reducible assumption
    | with_reducible apply Dev.setReg_keeps
    | with_reducible apply Dev.setOut_keeps
    | with_reducible apply capStep_keeps
    | extract_lets
    | (intro _; try beta_reduce)
    | split
    | with_reducible refine frame_keeps ?_ rfl rfl rfl rfl rfl rfl rfl rfl rfl (Nat.le_refl _))

theorem execLatchTimeout_adv (j : Fin 8) (s : State) :
    ∃ t₁, execLatchTimeout j s = .next t₁ ∧ Advances s t₁ := by
  refine ⟨_, rfl, ?_⟩
  repeat' (first
    | with_reducible exact Advances.refl _
    | with_reducible refine Advances.ofDev ?_
    | with_reducible exact Keeps.refl _
    | with_reducible assumption
    | with_reducible apply Dev.setReg_keeps
    | with_reducible apply Dev.setOut_keeps
    | with_reducible apply latchTimeout_keeps
    | extract_lets
    | (intro _; try beta_reduce)
    | split
    | with_reducible refine frame_keeps ?_ rfl rfl rfl rfl rfl rfl rfl rfl rfl (Nat.le_refl _))

theorem execSetpos_adv (c : Fin 16) (s : State) :
    ∃ t₁, execSetpos c s = .next t₁ ∧ Advances s t₁ := by
  refine ⟨_, rfl, ?_⟩
  repeat' (first
    | with_reducible exact Advances.refl _
    | with_reducible refine Advances.ofDev ?_
    | with_reducible exact Keeps.refl _
    | with_reducible assumption
    | with_reducible apply Dev.setReg_keeps
    | with_reducible apply Dev.setOut_keeps
    | with_reducible apply setPos_keeps
    | extract_lets
    | (intro _; try beta_reduce)
    | split
    | with_reducible refine frame_keeps ?_ rfl rfl rfl rfl rfl rfl rfl rfl rfl (Nat.le_refl _))

theorem execRefset_adv (c : Fin 16) (s : State) :
    ∃ t₁, execRefset c s = .next t₁ ∧ Advances s t₁ :=
  atEdge_adv _ _ (refSet_keeps _ _ (Keeps.refl _))

theorem execZarm_adv (c : Fin 16) (s : State) :
    ∃ t₁, execZarm c s = .next t₁ ∧ Advances s t₁ :=
  atEdge_adv _ _ (zArm_keeps _ _ (Keeps.refl _))

theorem execRearm_adv (j : Fin 8) (s : State) :
    ∃ t₁, execRearm j s = .next t₁ ∧ Advances s t₁ :=
  atEdge_adv _ _ (reArm_keeps _ _ (Keeps.refl _))

theorem execSegpush_adv (n : Fin 16) (s : State) :
    ∃ t₁, execSegpush n s = .next t₁ ∧ Advances s t₁ :=
  atEdge_adv _ _ (segPush_keeps _ _ (Keeps.refl _))

theorem execFlush_adv (n : Fin 16) (s : State) :
    ∃ t₁, execFlush n s = .next t₁ ∧ Advances s t₁ :=
  atEdge_adv _ _ (segFlush_keeps _ _ (Keeps.refl _))

theorem execSegmentEnd_adv (g : Fin 4) (s : State) :
    ∃ t₁, execSegmentEnd g s = .next t₁ ∧ Advances s t₁ :=
  atEdge_adv _ _ (segEnd_keeps _ _ _ (Keeps.refl _))

theorem execAxisEnable_adv (n : Fin 16) (s : State) :
    ∃ t₁, execAxisEnable n s = .next t₁ ∧ Advances s t₁ :=
  atEdge_adv _ _ (axisEn_keeps _ _ _ (Keeps.refl _))

theorem execAxisDisable_adv (n : Fin 16) (s : State) :
    ∃ t₁, execAxisDisable n s = .next t₁ ∧ Advances s t₁ :=
  atEdge_adv _ _ (axisEn_keeps _ _ _ (Keeps.refl _))

theorem execQstop_adv (n : Fin 16) (s : State) :
    ∃ t₁, execQstop n s = .next t₁ ∧ Advances s t₁ :=
  atEdge_adv _ _ (Dev.setFlag_keeps _ _ _ _ (Keeps.refl _))

theorem execGearMode_adv (n : Fin 16) (s : State) :
    ∃ t₁, execGearMode n s = .next t₁ ∧ Advances s t₁ :=
  atEdge_adv _ _ (axisMode_keeps _ _ _ (Keeps.refl _))

theorem execCamArm_adv (n : Fin 16) (s : State) :
    ∃ t₁, execCamArm n s = .next t₁ ∧ Advances s t₁ :=
  atEdge_adv _ _ (axisMode_keeps _ _ _ (Keeps.refl _))

theorem execBlindHoldEnd_adv (n : Fin 16) (s : State) :
    ∃ t₁, execBlindHoldEnd n s = .next t₁ ∧ Advances s t₁ := by
  refine ⟨_, rfl, ?_⟩
  repeat' (first
    | with_reducible exact Advances.refl _
    | with_reducible refine Advances.ofDev ?_
    | with_reducible exact Keeps.refl _
    | with_reducible assumption
    | with_reducible apply Dev.setReg_keeps
    | with_reducible apply Dev.setOut_keeps
    | with_reducible apply Dev.setAxis_keeps
    | extract_lets
    | (intro _; try beta_reduce)
    | split
    | with_reducible refine frame_keeps ?_ rfl rfl rfl rfl rfl rfl rfl rfl rfl (Nat.le_refl _))

theorem execLimitInput_adv (n : Fin 16) (limP limN home : Bool) (s : State) :
    ∃ t₁, execLimitInput n limP limN home s = .next t₁ ∧ Advances s t₁ := by
  refine ⟨_, rfl, ?_⟩
  repeat' (first
    | with_reducible exact Advances.refl _
    | with_reducible refine Advances.ofDev ?_
    | with_reducible exact Keeps.refl _
    | with_reducible assumption
    | with_reducible apply Dev.setReg_keeps
    | with_reducible apply Dev.setOut_keeps
    | with_reducible apply Dev.setAxis_keeps
    | extract_lets
    | (intro _; try beta_reduce)
    | split
    | with_reducible refine frame_keeps ?_ rfl rfl rfl rfl rfl rfl rfl rfl rfl (Nat.le_refl _))

theorem execStepPulse_adv (n : Fin 16) (ofs : Nat) (s : State) :
    ∃ t₁, execStepPulse n ofs s = .next t₁ ∧ Advances s t₁ := by
  refine ⟨_, rfl, ?_⟩
  repeat' (first
    | with_reducible exact Advances.refl _
    | with_reducible refine Advances.ofDev ?_
    | with_reducible exact Keeps.refl _
    | with_reducible assumption
    | with_reducible apply Dev.setReg_keeps
    | with_reducible apply Dev.setOut_keeps
    | with_reducible apply stepPulse_keeps
    | extract_lets
    | (intro _; try beta_reduce)
    | split
    | with_reducible refine frame_keeps ?_ rfl rfl rfl rfl rfl rfl rfl rfl rfl (Nat.le_refl _))

theorem execGraphRun_adv (g : Fin 4) (s : State) :
    ∃ t₁, execGraphRun g s = .next t₁ ∧ Advances s t₁ :=
  atEdge_adv _ _ (visStart_keeps _ _ (Keeps.refl _))

theorem execGraphStop_adv (g : Fin 4) (s : State) :
    ∃ t₁, execGraphStop g s = .next t₁ ∧ Advances s t₁ :=
  atEdge_adv _ _ (visStop_keeps _ _ (Keeps.refl _))

theorem execQcycWrite_adv (g : Fin 4) (v : Word) (s : State) :
    ∃ t₁, execQcycWrite g v s = .next t₁ ∧ Advances s t₁ :=
  atEdge_adv _ _ (visQcyc_keeps _ _ _ (Keeps.refl _))

theorem execConfminWrite_adv (g : Fin 4) (v : Word) (s : State) :
    ∃ t₁, execConfminWrite g v s = .next t₁ ∧ Advances s t₁ :=
  atEdge_adv _ _ (visConfmin_keeps _ _ _ (Keeps.refl _))

theorem execFrameStart_adv (p : Fin 2) (f : CsiStart) (s : State) :
    ∃ t₁, execFrameStart p f s = .next t₁ ∧ Advances s t₁ := by
  refine ⟨_, rfl, ?_⟩
  repeat' (first
    | with_reducible exact Advances.refl _
    | with_reducible refine Advances.ofDev ?_
    | with_reducible exact Keeps.refl _
    | with_reducible assumption
    | with_reducible apply Dev.setReg_keeps
    | with_reducible apply Dev.setOut_keeps
    | with_reducible apply Dev.reachTs_keeps
    | with_reducible apply frameStart_keeps
    | extract_lets
    | (intro _; try beta_reduce)
    | split
    | with_reducible refine frame_keeps ?_ rfl rfl rfl rfl rfl rfl rfl rfl rfl (Nat.le_refl _))

theorem execFrameEnd_adv (p : Fin 2) (f : CsiEnd) (s : State) :
    ∃ t₁, execFrameEnd p f s = .next t₁ ∧ Advances s t₁ :=
  onReady_adv _ _ (frameEnd_keeps _ _ _ _ (Keeps.refl _))

theorem execFrameReady_adv (p : Fin 2) (s : State) :
    ∃ t₁, execFrameReady p s = .next t₁ ∧ Advances s t₁ :=
  onReady_adv _ _ (frameReady_keeps _ _ (Keeps.refl _))

theorem execMissingTimeout_adv (g : Fin 4) (s : State) :
    ∃ t₁, execMissingTimeout g s = .next t₁ ∧ Advances s t₁ := by
  refine ⟨_, rfl, ?_⟩
  repeat' (first
    | with_reducible exact Advances.refl _
    | with_reducible refine Advances.ofDev ?_
    | with_reducible exact Keeps.refl _
    | with_reducible assumption
    | with_reducible apply Dev.setReg_keeps
    | with_reducible apply Dev.setOut_keeps
    | with_reducible apply visMissing_keeps
    | extract_lets
    | (intro _; try beta_reduce)
    | split
    | with_reducible refine frame_keeps ?_ rfl rfl rfl rfl rfl rfl rfl rfl rfl (Nat.le_refl _))

theorem execHandoffWrite_adv (g : Fin 4) (s : State) :
    ∃ t₁, execHandoffWrite g s = .next t₁ ∧ Advances s t₁ :=
  atEdge_adv _ _ (visHandoff_keeps _ _ (Keeps.refl _))

theorem execHandoffExpiry_adv (i : Nat) (s : State) :
    ∃ t₁, execHandoffExpiry i s = .next t₁ ∧ Advances s t₁ := by
  refine ⟨_, rfl, ?_⟩
  repeat' (first
    | with_reducible exact Advances.refl _
    | with_reducible refine Advances.ofDev ?_
    | with_reducible exact Keeps.refl _
    | with_reducible assumption
    | with_reducible apply Dev.setReg_keeps
    | with_reducible apply Dev.setOut_keeps
    | with_reducible apply visExpire_keeps
    | extract_lets
    | (intro _; try beta_reduce)
    | split
    | with_reducible refine frame_keeps ?_ rfl rfl rfl rfl rfl rfl rfl rfl rfl (Nat.le_refl _))

theorem execPop_adv (v : Word) (s : State) :
    ∃ t₁, execPop v s = .next t₁ ∧ Advances s t₁ :=
  atEdge_adv _ _ (popCommit_keeps _ _ (Keeps.refl _))

theorem execFaultPulseEnd_adv (s : State) :
    ∃ t₁, execFaultPulseEnd s = .next t₁ ∧ Advances s t₁ := by
  refine ⟨_, rfl, ?_⟩
  repeat' (first
    | with_reducible exact Advances.refl _
    | with_reducible refine Advances.ofDev ?_
    | with_reducible exact Keeps.refl _
    | with_reducible assumption
    | with_reducible apply Dev.setReg_keeps
    | with_reducible apply Dev.setOut_keeps
    | with_reducible apply pulseOver_keeps
    | extract_lets
    | (intro _; try beta_reduce)
    | split
    | with_reducible refine frame_keeps ?_ rfl rfl rfl rfl rfl rfl rfl rfl rfl (Nat.le_refl _))

theorem execDramStall_adv (s : State) :
    ∃ t₁, execDramStall s = .next t₁ ∧ Advances s t₁ := by
  refine ⟨_, rfl, ?_⟩
  repeat' (first
    | with_reducible exact Advances.refl _
    | with_reducible refine Advances.ofDev ?_
    | with_reducible exact Keeps.refl _
    | with_reducible assumption
    | with_reducible apply Dev.setReg_keeps
    | with_reducible apply Dev.setOut_keeps
    | with_reducible apply dramStall_keeps
    | extract_lets
    | (intro _; try beta_reduce)
    | split
    | with_reducible refine frame_keeps ?_ rfl rfl rfl rfl rfl rfl rfl rfl rfl (Nat.le_refl _))

theorem execSwset_adv (v : Word) (s : State) :
    ∃ t₁, execSwset v s = .next t₁ ∧ Advances s t₁ :=
  atEdge_adv _ _ (softEvents_keeps _ _ (Keeps.refl _))

theorem execTempWarning_adv (t : Int) (s : State) :
    ∃ t₁, execTempWarning t s = .next t₁ ∧ Advances s t₁ := by
  refine ⟨_, rfl, ?_⟩
  repeat' (first
    | with_reducible exact Advances.refl _
    | with_reducible refine Advances.ofDev ?_
    | with_reducible exact Keeps.refl _
    | with_reducible assumption
    | with_reducible apply Dev.setReg_keeps
    | with_reducible apply Dev.setOut_keeps
    | with_reducible apply monitorFault_keeps
    | extract_lets
    | (intro _; try beta_reduce)
    | split
    | with_reducible refine frame_keeps ?_ rfl rfl rfl rfl rfl rfl rfl rfl rfl (Nat.le_refl _))

theorem execTempCritical_adv (t : Int) (s : State) :
    ∃ t₁, execTempCritical t s = .next t₁ ∧ Advances s t₁ := by
  refine ⟨_, rfl, ?_⟩
  repeat' (first
    | with_reducible exact Advances.refl _
    | with_reducible refine Advances.ofDev ?_
    | with_reducible exact Keeps.refl _
    | with_reducible assumption
    | with_reducible apply Dev.setReg_keeps
    | with_reducible apply Dev.setOut_keeps
    | with_reducible apply monitorFault_keeps
    | with_reducible apply hold_keeps
    | extract_lets
    | (intro _; try beta_reduce)
    | split
    | with_reducible refine frame_keeps ?_ rfl rfl rfl rfl rfl rfl rfl rfl rfl (Nat.le_refl _))

theorem execClockLoss_adv (w : Sys2Proof.ClockLoss) (s : State) :
    ∃ t₁, execClockLoss w s = .next t₁ ∧ Advances s t₁ := by
  refine ⟨_, rfl, ?_⟩
  repeat' (first
    | with_reducible exact Advances.refl _
    | with_reducible refine Advances.ofDev ?_
    | with_reducible exact Keeps.refl _
    | with_reducible assumption
    | with_reducible apply Dev.setReg_keeps
    | with_reducible apply Dev.setOut_keeps
    | with_reducible apply monitorFault_keeps
    | extract_lets
    | (intro _; try beta_reduce)
    | split
    | with_reducible refine frame_keeps ?_ rfl rfl rfl rfl rfl rfl rfl rfl rfl (Nat.le_refl _))

theorem execSupplyFault_adv (s : State) :
    ∃ t₁, execSupplyFault s = .next t₁ ∧ Advances s t₁ := by
  refine ⟨_, rfl, ?_⟩
  repeat' (first
    | with_reducible exact Advances.refl _
    | with_reducible refine Advances.ofDev ?_
    | with_reducible exact Keeps.refl _
    | with_reducible assumption
    | with_reducible apply Dev.setReg_keeps
    | with_reducible apply Dev.setOut_keeps
    | with_reducible apply monitorFault_keeps
    | extract_lets
    | (intro _; try beta_reduce)
    | split
    | with_reducible refine frame_keeps ?_ rfl rfl rfl rfl rfl rfl rfl rfl rfl (Nat.le_refl _))

theorem execHalt_adv (event : Fin 256) (detail : Word) (s : State) :
    ∃ t₁, execHalt event detail s = .next t₁ ∧ Advances s t₁ := by
  refine ⟨_, rfl, ?_⟩
  repeat' (first
    | with_reducible exact Advances.refl _
    | with_reducible refine Advances.ofDev ?_
    | with_reducible exact Keeps.refl _
    | with_reducible assumption
    | with_reducible apply Dev.setReg_keeps
    | with_reducible apply Dev.setOut_keeps
    | with_reducible apply monitorFault_keeps
    | extract_lets
    | (intro _; try beta_reduce)
    | split
    | with_reducible refine frame_keeps ?_ rfl rfl rfl rfl rfl rfl rfl rfl rfl (Nat.le_refl _))

theorem execDramEccRead_adv (addr : Nat) (uncorrectable : Bool) (s : State) :
    ∃ t₁, execDramEccRead addr uncorrectable s = .next t₁ ∧ Advances s t₁ := by
  refine ⟨_, rfl, ?_⟩
  repeat' (first
    | with_reducible exact Advances.refl _
    | with_reducible refine Advances.ofDev ?_
    | with_reducible exact Keeps.refl _
    | with_reducible assumption
    | with_reducible apply Dev.setReg_keeps
    | with_reducible apply Dev.setOut_keeps
    | with_reducible apply dramEcc_keeps
    | extract_lets
    | (intro _; try beta_reduce)
    | split
    | with_reducible refine frame_keeps ?_ rfl rfl rfl rfl rfl rfl rfl rfl rfl (Nat.le_refl _))

theorem execCartDone_adv (k : Fin 6) (i : Fin 64) (err : Option Sys2Proof.SramError) (s : State) :
    ∃ t₁, execCartDone k i err s = .next t₁ ∧ Advances s t₁ := by
  refine ⟨_, rfl, ?_⟩
  repeat' (first
    | with_reducible exact Advances.refl _
    | with_reducible refine Advances.ofDev ?_
    | with_reducible exact Keeps.refl _
    | with_reducible assumption
    | with_reducible apply Dev.setReg_keeps
    | with_reducible apply Dev.setOut_keeps
    | with_reducible apply cartDone_keeps
    | extract_lets
    | (intro _; try beta_reduce)
    | split
    | with_reducible refine frame_keeps ?_ rfl rfl rfl rfl rfl rfl rfl rfl rfl (Nat.le_refl _))

theorem execCartLanding_adv (k : Fin 6) (i : Fin 64) (s : State) :
    ∃ t₁, execCartLanding k i s = .next t₁ ∧ Advances s t₁ := by
  refine ⟨_, rfl, ?_⟩
  repeat' (first
    | with_reducible exact Advances.refl _
    | with_reducible refine Advances.ofDev ?_
    | with_reducible exact Keeps.refl _
    | with_reducible assumption
    | with_reducible apply Dev.setReg_keeps
    | with_reducible apply Dev.setOut_keeps
    | with_reducible apply cartArrive_keeps
    | extract_lets
    | (intro _; try beta_reduce)
    | split
    | with_reducible refine frame_keeps ?_ rfl rfl rfl rfl rfl rfl rfl rfl rfl (Nat.le_refl _))

theorem execCommitWordWrite_adv (s : State) :
    ∃ t₁, execCommitWordWrite s = .next t₁ ∧ Advances s t₁ := by
  refine ⟨_, rfl, ?_⟩
  repeat' (first
    | with_reducible exact Advances.refl _
    | with_reducible refine Advances.ofDev ?_
    | with_reducible exact Keeps.refl _
    | with_reducible assumption
    | with_reducible apply Dev.setReg_keeps
    | with_reducible apply Dev.setOut_keeps
    | with_reducible apply commitWords_keeps
    | extract_lets
    | (intro _; try beta_reduce)
    | split
    | with_reducible refine frame_keeps ?_ rfl rfl rfl rfl rfl rfl rfl rfl rfl (Nat.le_refl _))

theorem execCaskApply_adv (v : Sys2Proof.VerifyEnv) (s : State) :
    ∃ t₁, execCaskApply v s = .next t₁ ∧ Advances s t₁ := by
  refine ⟨_, rfl, ?_⟩
  repeat' (first
    | with_reducible exact Advances.refl _
    | with_reducible refine Advances.ofDev ?_
    | with_reducible exact Keeps.refl _
    | with_reducible assumption
    | with_reducible apply Dev.setReg_keeps
    | with_reducible apply Dev.setOut_keeps
    | with_reducible apply caskApply_keeps
    | extract_lets
    | (intro _; try beta_reduce)
    | split
    | with_reducible refine frame_keeps ?_ rfl rfl rfl rfl rfl rfl rfl rfl rfl (Nat.le_refl _))

theorem execTreeLoad_adv (s : State) :
    ∃ t₁, execTreeLoad s = .next t₁ ∧ Advances s t₁ :=
  atEdge_adv _ _ (treeLoad_keeps _ (Keeps.refl _))

theorem execTreeLoadEnd_adv (ue : Bool) (s : State) :
    ∃ t₁, execTreeLoadEnd ue s = .next t₁ ∧ Advances s t₁ := by
  refine ⟨_, rfl, ?_⟩
  repeat' (first
    | with_reducible exact Advances.refl _
    | with_reducible refine Advances.ofDev ?_
    | with_reducible exact Keeps.refl _
    | with_reducible assumption
    | with_reducible apply Dev.setReg_keeps
    | with_reducible apply Dev.setOut_keeps
    | with_reducible apply treeLoadEnd_keeps
    | extract_lets
    | (intro _; try beta_reduce)
    | split
    | with_reducible refine frame_keeps ?_ rfl rfl rfl rfl rfl rfl rfl rfl rfl (Nat.le_refl _))

theorem execTreeRun_adv (o : Lim) (s : State) : ∃ t₁, execTreeRun o s = .next t₁ ∧ Advances s t₁ := by
  refine ⟨_, rfl, limDev_adv _ _ _ _ _ (skipOff_mono _) (fun e d k => ?_)⟩
  have kt : Keeps e d.tickFree := Dev.tickFree_keeps _ k
  have ke : ∀ issue n c', Keeps e (engineTake o.core issue n (d.tickFree.setCore o.core c')) :=
    fun _ _ _ => engineTake_keeps _ _ _ _ (Dev.setCore_keeps _ _ _ kt)
  have ke2 : ∀ issue n c', Keeps e (engineTake o.core issue n (d.tickFree.tickFree.setCore o.core c')) :=
    fun _ _ _ => engineTake_keeps _ _ _ _ (Dev.setCore_keeps _ _ _ (Dev.tickFree_keeps _ kt))
  extract_lets c issue a b slot nin nout n x c'
  clear_value slot x c' n issue
  refine ite_keeps (limExc_keeps _ _ _ k) ?_
  cases slot with
  | none => exact raise_keeps _ _ (Dev.setFlag_keeps _ _ _ _ (ke _ _ _))
  | some m =>
    dsimp -zeta only
    refine ite_keeps (fault_keeps _ _ _ _ (Dev.tickFree_keeps _ (Dev.reach_keeps _ _ k))) ?_
    extract_lets node rd y c1 c2 d2 d3
    have k2 : Keeps e d2 := ke2 _ _ _
    clear_value d2
    have k3 : Keeps e d3 := ite_keeps (raise_keeps _ _ (Dev.setFlag_keeps _ _ _ _ k2)) k2
    clear_value d3
    exact ite_keeps (fault_keeps _ _ _ _ (Dev.setFlag_keeps _ _ _ _ k3)) k3


theorem execFieldReport_adv (r : Sys2Proof.FieldReport) (s : State) :
    ∃ t₁, execFieldReport r s = .next t₁ ∧ Advances s t₁ :=
  onReady_adv _ _ (fieldReport_keeps _ _ (Keeps.refl _))

theorem execIslandEdgeFrame_adv (f : FrameArrival) (s : State) :
    ∃ t₁, execIslandEdgeFrame f s = .next t₁ ∧ Advances s t₁ := by
  refine ⟨_, rfl, ?_⟩
  repeat' (first
    | with_reducible exact Advances.refl _
    | with_reducible refine Advances.ofDev ?_
    | with_reducible exact Keeps.refl _
    | with_reducible assumption
    | with_reducible apply Dev.setReg_keeps
    | with_reducible apply Dev.setOut_keeps
    | with_reducible apply islandEdgeFrame_keeps
    | extract_lets
    | (intro _; try beta_reduce)
    | split
    | with_reducible refine frame_keeps ?_ rfl rfl rfl rfl rfl rfl rfl rfl rfl (Nat.le_refl _))

theorem execHeartbeatAck_adv (s : State) :
    ∃ t₁, execHeartbeatAck s = .next t₁ ∧ Advances s t₁ := by
  refine ⟨_, rfl, ?_⟩
  repeat' (first
    | with_reducible exact Advances.refl _
    | with_reducible refine Advances.ofDev ?_
    | with_reducible exact Keeps.refl _
    | with_reducible assumption
    | with_reducible apply Dev.setReg_keeps
    | with_reducible apply Dev.setOut_keeps
    | with_reducible apply heartbeatAck_keeps
    | extract_lets
    | (intro _; try beta_reduce)
    | split
    | with_reducible refine frame_keeps ?_ rfl rfl rfl rfl rfl rfl rfl rfl rfl (Nat.le_refl _))

theorem execStoppedHeartbeat_adv (crcOk : Bool) (s : State) :
    ∃ t₁, execStoppedHeartbeat crcOk s = .next t₁ ∧ Advances s t₁ := by
  refine ⟨_, rfl, ?_⟩
  repeat' (first
    | with_reducible exact Advances.refl _
    | with_reducible refine Advances.ofDev ?_
    | with_reducible exact Keeps.refl _
    | with_reducible assumption
    | with_reducible apply Dev.setReg_keeps
    | with_reducible apply Dev.setOut_keeps
    | with_reducible apply stoppedHeartbeat_keeps
    | extract_lets
    | (intro _; try beta_reduce)
    | split
    | with_reducible refine frame_keeps ?_ rfl rfl rfl rfl rfl rfl rfl rfl rfl (Nat.le_refl _))

theorem execConfigResend_adv (s : State) :
    ∃ t₁, execConfigResend s = .next t₁ ∧ Advances s t₁ := by
  refine ⟨_, rfl, ?_⟩
  repeat' (first
    | with_reducible exact Advances.refl _
    | with_reducible refine Advances.ofDev ?_
    | with_reducible exact Keeps.refl _
    | with_reducible assumption
    | with_reducible apply Dev.setReg_keeps
    | with_reducible apply Dev.setOut_keeps
    | with_reducible apply configResend_keeps
    | extract_lets
    | (intro _; try beta_reduce)
    | split
    | with_reducible refine frame_keeps ?_ rfl rfl rfl rfl rfl rfl rfl rfl rfl (Nat.le_refl _))

theorem execDioSample_adv (i : Fin 16) (level : Bool) (s : State) :
    ∃ t₁, execDioSample i level s = .next t₁ ∧ Advances s t₁ := by
  refine ⟨_, rfl, ?_⟩
  repeat' (first
    | with_reducible exact Advances.refl _
    | with_reducible refine Advances.ofDev ?_
    | with_reducible exact Keeps.refl _
    | with_reducible assumption
    | with_reducible apply Dev.setReg_keeps
    | with_reducible apply Dev.setOut_keeps
    | with_reducible apply dioSample_keeps
    | extract_lets
    | (intro _; try beta_reduce)
    | split
    | with_reducible refine frame_keeps ?_ rfl rfl rfl rfl rfl rfl rfl rfl rfl (Nat.le_refl _))

theorem execAiSample_adv (k : Fin 4) (reading : Nat) (hot : Bool) (s : State) :
    ∃ t₁, execAiSample k reading hot s = .next t₁ ∧ Advances s t₁ := by
  refine ⟨_, rfl, ?_⟩
  repeat' (first
    | with_reducible exact Advances.refl _
    | with_reducible refine Advances.ofDev ?_
    | with_reducible exact Keeps.refl _
    | with_reducible assumption
    | with_reducible apply Dev.setReg_keeps
    | with_reducible apply Dev.setOut_keeps
    | with_reducible apply aiSample_keeps
    | extract_lets
    | (intro _; try beta_reduce)
    | split
    | with_reducible refine frame_keeps ?_ rfl rfl rfl rfl rfl rfl rfl rfl rfl (Nat.le_refl _))

theorem execAiProtEnd_adv (k : Fin 4) (s : State) :
    ∃ t₁, execAiProtEnd k s = .next t₁ ∧ Advances s t₁ := by
  refine ⟨_, rfl, ?_⟩
  repeat' (first
    | with_reducible exact Advances.refl _
    | with_reducible refine Advances.ofDev ?_
    | with_reducible exact Keeps.refl _
    | with_reducible assumption
    | with_reducible apply Dev.setReg_keeps
    | with_reducible apply Dev.setOut_keeps
    | with_reducible apply aiProtEnd_keeps
    | extract_lets
    | (intro _; try beta_reduce)
    | split
    | with_reducible refine frame_keeps ?_ rfl rfl rfl rfl rfl rfl rfl rfl rfl (Nat.le_refl _))

theorem execDioOverload_adv (i : Fin 16) (s : State) :
    ∃ t₁, execDioOverload i s = .next t₁ ∧ Advances s t₁ := by
  refine ⟨_, rfl, ?_⟩
  repeat' (first
    | with_reducible exact Advances.refl _
    | with_reducible refine Advances.ofDev ?_
    | with_reducible exact Keeps.refl _
    | with_reducible assumption
    | with_reducible apply Dev.setReg_keeps
    | with_reducible apply Dev.setOut_keeps
    | with_reducible apply dioOverload_keeps
    | extract_lets
    | (intro _; try beta_reduce)
    | split
    | with_reducible refine frame_keeps ?_ rfl rfl rfl rfl rfl rfl rfl rfl rfl (Nat.le_refl _))

theorem execTotalOverload_adv (s : State) :
    ∃ t₁, execTotalOverload s = .next t₁ ∧ Advances s t₁ := by
  refine ⟨_, rfl, ?_⟩
  repeat' (first
    | with_reducible exact Advances.refl _
    | with_reducible refine Advances.ofDev ?_
    | with_reducible exact Keeps.refl _
    | with_reducible assumption
    | with_reducible apply Dev.setReg_keeps
    | with_reducible apply Dev.setOut_keeps
    | with_reducible apply totalOverload_keeps
    | extract_lets
    | (intro _; try beta_reduce)
    | split
    | with_reducible refine frame_keeps ?_ rfl rfl rfl rfl rfl rfl rfl rfl rfl (Nat.le_refl _))

theorem execDfclr_adv (m : BitVec 16) (s : State) :
    ∃ t₁, execDfclr m s = .next t₁ ∧ Advances s t₁ :=
  atEdge_adv _ _ (fieldDfclr_keeps _ _ (Keeps.refl _))

theorem execResume_adv (s : State) :
    ∃ t₁, execResume s = .next t₁ ∧ Advances s t₁ :=
  atEdge_adv _ _ (fieldResume_keeps _ (Keeps.refl _))

theorem execAoCompliance_adv (j : Fin 4) (s : State) :
    ∃ t₁, execAoCompliance j s = .next t₁ ∧ Advances s t₁ := by
  refine ⟨_, rfl, ?_⟩
  repeat' (first
    | with_reducible exact Advances.refl _
    | with_reducible refine Advances.ofDev ?_
    | with_reducible exact Keeps.refl _
    | with_reducible assumption
    | with_reducible apply Dev.setReg_keeps
    | with_reducible apply Dev.setOut_keeps
    | with_reducible apply mirrorAo_keeps
    | extract_lets
    | (intro _; try beta_reduce)
    | split
    | with_reducible refine frame_keeps ?_ rfl rfl rfl rfl rfl rfl rfl rfl rfl (Nat.le_refl _))

theorem execAoThermalShutdown_adv (j : Fin 4) (s : State) :
    ∃ t₁, execAoThermalShutdown j s = .next t₁ ∧ Advances s t₁ := by
  refine ⟨_, rfl, ?_⟩
  repeat' (first
    | with_reducible exact Advances.refl _
    | with_reducible refine Advances.ofDev ?_
    | with_reducible exact Keeps.refl _
    | with_reducible assumption
    | with_reducible apply Dev.setReg_keeps
    | with_reducible apply Dev.setOut_keeps
    | with_reducible apply aoThermal_keeps
    | extract_lets
    | (intro _; try beta_reduce)
    | split
    | with_reducible refine frame_keeps ?_ rfl rfl rfl rfl rfl rfl rfl rfl rfl (Nat.le_refl _))

theorem execFclr_adv (j : Fin 4) (temp : Int) (s : State) :
    ∃ t₁, execFclr j temp s = .next t₁ ∧ Advances s t₁ :=
  atEdge_adv _ _ (fieldFclr_keeps _ _ _ (Keeps.refl _))

theorem execSilenceTimeout_adv (s : State) :
    ∃ t₁, execSilenceTimeout s = .next t₁ ∧ Advances s t₁ := by
  refine ⟨_, rfl, ?_⟩
  repeat' (first
    | with_reducible exact Advances.refl _
    | with_reducible refine Advances.ofDev ?_
    | with_reducible exact Keeps.refl _
    | with_reducible assumption
    | with_reducible apply Dev.setReg_keeps
    | with_reducible apply Dev.setOut_keeps
    | with_reducible apply silenceTimeout_keeps
    | extract_lets
    | (intro _; try beta_reduce)
    | split
    | with_reducible refine frame_keeps ?_ rfl rfl rfl rfl rfl rfl rfl rfl rfl (Nat.le_refl _))

theorem execImmediateSafeMarker_adv (s : State) :
    ∃ t₁, execImmediateSafeMarker s = .next t₁ ∧ Advances s t₁ := by
  refine ⟨_, rfl, ?_⟩
  repeat' (first
    | with_reducible exact Advances.refl _
    | with_reducible refine Advances.ofDev ?_
    | with_reducible exact Keeps.refl _
    | with_reducible assumption
    | with_reducible apply Dev.setReg_keeps
    | with_reducible apply Dev.setOut_keeps
    | with_reducible apply Dev.setIsl_keeps
    | extract_lets
    | (intro _; try beta_reduce)
    | split
    | with_reducible refine frame_keeps ?_ rfl rfl rfl rfl rfl rfl rfl rfl rfl (Nat.le_refl _))

theorem execFieldUndervoltage_adv (lost : Bool) (s : State) :
    ∃ t₁, execFieldUndervoltage lost s = .next t₁ ∧ Advances s t₁ := by
  refine ⟨_, rfl, ?_⟩
  repeat' (first
    | with_reducible exact Advances.refl _
    | with_reducible refine Advances.ofDev ?_
    | with_reducible exact Keeps.refl _
    | with_reducible assumption
    | with_reducible apply Dev.setReg_keeps
    | with_reducible apply Dev.setOut_keeps
    | with_reducible apply fieldUndervoltage_keeps
    | extract_lets
    | (intro _; try beta_reduce)
    | split
    | with_reducible refine frame_keeps ?_ rfl rfl rfl rfl rfl rfl rfl rfl rfl (Nat.le_refl _))

theorem execVfieldRecovery_adv (s : State) :
    ∃ t₁, execVfieldRecovery s = .next t₁ ∧ Advances s t₁ := by
  refine ⟨_, rfl, ?_⟩
  repeat' (first
    | with_reducible exact Advances.refl _
    | with_reducible refine Advances.ofDev ?_
    | with_reducible exact Keeps.refl _
    | with_reducible assumption
    | with_reducible apply Dev.setReg_keeps
    | with_reducible apply Dev.setOut_keeps
    | with_reducible apply fieldRecovery_keeps
    | extract_lets
    | (intro _; try beta_reduce)
    | split
    | with_reducible refine frame_keeps ?_ rfl rfl rfl rfl rfl rfl rfl rfl rfl (Nat.le_refl _))

theorem execIslandPowerUp_adv (s : State) :
    ∃ t₁, execIslandPowerUp s = .next t₁ ∧ Advances s t₁ := by
  refine ⟨_, rfl, ?_⟩
  repeat' (first
    | with_reducible exact Advances.refl _
    | with_reducible refine Advances.ofDev ?_
    | with_reducible exact Keeps.refl _
    | with_reducible assumption
    | with_reducible apply Dev.setReg_keeps
    | with_reducible apply Dev.setOut_keeps
    | with_reducible apply islandPowerUp_keeps
    | extract_lets
    | (intro _; try beta_reduce)
    | split
    | with_reducible apply upd_trim
    | with_reducible refine frame_keeps ?_ rfl rfl rfl rfl rfl rfl rfl rfl rfl (Nat.le_refl _))

theorem execTendrilStart_adv (s : State) :
    ∃ t₁, execTendrilStart s = .next t₁ ∧ Advances s t₁ := by
  refine ⟨_, rfl, ?_⟩
  repeat' (first
    | with_reducible exact Advances.refl _
    | with_reducible refine Advances.ofDev ?_
    | with_reducible exact Keeps.refl _
    | with_reducible assumption
    | with_reducible apply Dev.setReg_keeps
    | with_reducible apply Dev.setOut_keeps
    | with_reducible apply tendrilStart_keeps
    | extract_lets
    | (intro _; try beta_reduce)
    | split
    | with_reducible refine frame_keeps ?_ rfl rfl rfl rfl rfl rfl rfl rfl rfl (Nat.le_refl _))

theorem execBrownOut_adv (s : State) :
    ∃ t₁, execBrownOut s = .next t₁ ∧ Advances s t₁ := by
  refine ⟨_, rfl, ?_⟩
  repeat' (first
    | with_reducible exact Advances.refl _
    | with_reducible refine Advances.ofDev ?_
    | with_reducible exact Keeps.refl _
    | with_reducible assumption
    | with_reducible apply Dev.setReg_keeps
    | with_reducible apply Dev.setOut_keeps
    | with_reducible apply brownOut_keeps
    | extract_lets
    | (intro _; try beta_reduce)
    | split
    | with_reducible refine frame_keeps ?_ rfl rfl rfl rfl rfl rfl rfl rfl rfl (Nat.le_refl _))

theorem execFoldBack_adv (acts : Bool) (s : State) :
    ∃ t₁, execFoldBack acts s = .next t₁ ∧ Advances s t₁ := by
  refine ⟨_, rfl, ?_⟩
  repeat' (first
    | with_reducible exact Advances.refl _
    | with_reducible refine Advances.ofDev ?_
    | with_reducible exact Keeps.refl _
    | with_reducible assumption
    | with_reducible apply Dev.setReg_keeps
    | with_reducible apply Dev.setOut_keeps
    | with_reducible apply Dev.setTdl_keeps
    | extract_lets
    | (intro _; try beta_reduce)
    | split
    | with_reducible refine frame_keeps ?_ rfl rfl rfl rfl rfl rfl rfl rfl rfl (Nat.le_refl _))

theorem execConversion_adv (v : TsVolts) (cin : Int) (exOpen refDiff : Bool) (s : State) :
    ∃ t₁, execConversion v cin exOpen refDiff s = .next t₁ ∧ Advances s t₁ := by
  refine ⟨_, rfl, ?_⟩
  repeat' (first
    | with_reducible exact Advances.refl _
    | with_reducible refine Advances.ofDev ?_
    | with_reducible exact Keeps.refl _
    | with_reducible assumption
    | with_reducible apply Dev.setReg_keeps
    | with_reducible apply Dev.setOut_keeps
    | with_reducible apply conversion_keeps
    | extract_lets
    | (intro _; try beta_reduce)
    | split
    | with_reducible refine frame_keeps ?_ rfl rfl rfl rfl rfl rfl rfl rfl rfl (Nat.le_refl _))

theorem execTendrilSlot_adv (downOk : Bool) (s : State) :
    ∃ t₁, execTendrilSlot downOk s = .next t₁ ∧ Advances s t₁ := by
  refine ⟨_, rfl, ?_⟩
  repeat' (first
    | with_reducible exact Advances.refl _
    | with_reducible refine Advances.ofDev ?_
    | with_reducible exact Keeps.refl _
    | with_reducible assumption
    | with_reducible apply Dev.setReg_keeps
    | with_reducible apply Dev.setOut_keeps
    | with_reducible apply tendrilSlot_keeps
    | extract_lets
    | (intro _; try beta_reduce)
    | split
    | with_reducible refine frame_keeps ?_ rfl rfl rfl rfl rfl rfl rfl rfl rfl (Nat.le_refl _))

theorem execSourceSelect_adv (s : State) :
    ∃ t₁, execSourceSelect s = .next t₁ ∧ Advances s t₁ := by
  refine ⟨_, rfl, ?_⟩
  repeat' (first
    | with_reducible exact Advances.refl _
    | with_reducible refine Advances.ofDev ?_
    | with_reducible exact Keeps.refl _
    | with_reducible assumption
    | with_reducible apply Dev.setReg_keeps
    | with_reducible apply Dev.setOut_keeps
    | with_reducible apply sourceSelect_keeps
    | extract_lets
    | (intro _; try beta_reduce)
    | split
    | with_reducible refine frame_keeps ?_ rfl rfl rfl rfl rfl rfl rfl rfl rfl (Nat.le_refl _))

theorem execUplinkReceive_adv (ok : Bool) (mv temp : BitVec 16) (s : State) :
    ∃ t₁, execUplinkReceive ok mv temp s = .next t₁ ∧ Advances s t₁ := by
  refine ⟨_, rfl, ?_⟩
  repeat' (first
    | with_reducible exact Advances.refl _
    | with_reducible refine Advances.ofDev ?_
    | with_reducible exact Keeps.refl _
    | with_reducible assumption
    | with_reducible apply Dev.setReg_keeps
    | with_reducible apply Dev.setOut_keeps
    | with_reducible apply uplinkReceive_keeps
    | extract_lets
    | (intro _; try beta_reduce)
    | split
    | with_reducible refine frame_keeps ?_ rfl rfl rfl rfl rfl rfl rfl rfl rfl (Nat.le_refl _))

theorem execTendrilLinkLoss_adv (s : State) :
    ∃ t₁, execTendrilLinkLoss s = .next t₁ ∧ Advances s t₁ := by
  refine ⟨_, rfl, ?_⟩
  repeat' (first
    | with_reducible exact Advances.refl _
    | with_reducible refine Advances.ofDev ?_
    | with_reducible exact Keeps.refl _
    | with_reducible assumption
    | with_reducible apply Dev.setReg_keeps
    | with_reducible apply Dev.setOut_keeps
    | with_reducible apply Dev.setFlag_keeps
    | with_reducible apply tdlLinkSet_keeps
    | extract_lets
    | (intro _; try beta_reduce)
    | split
    | with_reducible refine frame_keeps ?_ rfl rfl rfl rfl rfl rfl rfl rfl rfl (Nat.le_refl _))

theorem execSetptWrite_adv (v : Word) (s : State) :
    ∃ t₁, execSetptWrite v s = .next t₁ ∧ Advances s t₁ :=
  atEdge_adv _ _ (setptWrite_keeps _ _ (Keeps.refl _))

theorem execNvTransferEnd_adv (e : Sys2Proof.NvEnd) (s : State) :
    ∃ t₁, execNvTransferEnd e s = .next t₁ ∧ Advances s t₁ := by
  refine ⟨_, rfl, ?_⟩
  repeat' (first
    | with_reducible exact Advances.refl _
    | with_reducible refine Advances.ofDev ?_
    | with_reducible exact Keeps.refl _
    | with_reducible assumption
    | with_reducible apply Dev.setReg_keeps
    | with_reducible apply Dev.setOut_keeps
    | with_reducible apply nvTransferEnd_keeps
    | extract_lets
    | (intro _; try beta_reduce)
    | split
    | with_reducible refine frame_keeps ?_ rfl rfl rfl rfl rfl rfl rfl rfl rfl (Nat.le_refl _))

theorem execHartRequest_adv (preambles : Nat) (parityOk : Bool) (f : List Byte) (s : State) :
    ∃ t₁, execHartRequest preambles parityOk f s = .next t₁ ∧ Advances s t₁ := by
  refine ⟨_, rfl, ?_⟩
  repeat' (first
    | with_reducible exact Advances.refl _
    | with_reducible refine Advances.ofDev ?_
    | with_reducible exact Keeps.refl _
    | with_reducible assumption
    | with_reducible apply Dev.setReg_keeps
    | with_reducible apply Dev.setOut_keeps
    | with_reducible apply hartRequest_keeps
    | extract_lets
    | (intro _; try beta_reduce)
    | split
    | with_reducible refine frame_keeps ?_ rfl rfl rfl rfl rfl rfl rfl rfl rfl (Nat.le_refl _))

theorem execHartRecordLanding_adv (s : State) :
    ∃ t₁, execHartRecordLanding s = .next t₁ ∧ Advances s t₁ :=
  onReady_adv _ _ (hartArrive_keeps _ (Keeps.refl _))

theorem execHartReplyGo_adv (s : State) :
    ∃ t₁, execHartReplyGo s = .next t₁ ∧ Advances s t₁ :=
  atEdge_adv _ _ (hartReplyGo_keeps _ (Keeps.refl _))

theorem execHartReplySend_adv (ms : Nat) (s : State) :
    ∃ t₁, execHartReplySend ms s = .next t₁ ∧ Advances s t₁ := by
  refine ⟨_, rfl, ?_⟩
  repeat' (first
    | with_reducible exact Advances.refl _
    | with_reducible refine Advances.ofDev ?_
    | with_reducible exact Keeps.refl _
    | with_reducible assumption
    | with_reducible apply Dev.setReg_keeps
    | with_reducible apply Dev.setOut_keeps
    | with_reducible apply hartReplySend_keeps
    | extract_lets
    | (intro _; try beta_reduce)
    | split
    | with_reducible refine frame_keeps ?_ rfl rfl rfl rfl rfl rfl rfl rfl rfl (Nat.le_refl _))

theorem execTrimGo_adv (v : Word) (s : State) :
    ∃ t₁, execTrimGo v s = .next t₁ ∧ Advances s t₁ :=
  atEdge_adv _ _ (trimCmd_keeps _ _ (Keeps.refl _))

theorem execTrimNext_adv (s : State) :
    ∃ t₁, execTrimNext s = .next t₁ ∧ Advances s t₁ :=
  atEdge_adv _ _ (trimCmd_keeps _ _ (Keeps.refl _))

theorem execTrimAbort_adv (s : State) :
    ∃ t₁, execTrimAbort s = .next t₁ ∧ Advances s t₁ :=
  atEdge_adv _ _ (trimCmd_keeps _ _ (Keeps.refl _))

theorem execTrimPointReached_adv (s : State) :
    ∃ t₁, execTrimPointReached s = .next t₁ ∧ Advances s t₁ := by
  refine ⟨_, rfl, ?_⟩
  repeat' (first
    | with_reducible exact Advances.refl _
    | with_reducible refine Advances.ofDev ?_
    | with_reducible exact Keeps.refl _
    | with_reducible assumption
    | with_reducible apply Dev.setReg_keeps
    | with_reducible apply Dev.setOut_keeps
    | with_reducible apply trimReached_keeps
    | extract_lets
    | (intro _; try beta_reduce)
    | split
    | with_reducible refine frame_keeps ?_ rfl rfl rfl rfl rfl rfl rfl rfl rfl (Nat.le_refl _))

theorem execTrimPointTimeout_adv (s : State) :
    ∃ t₁, execTrimPointTimeout s = .next t₁ ∧ Advances s t₁ := by
  refine ⟨_, rfl, ?_⟩
  repeat' (first
    | with_reducible exact Advances.refl _
    | with_reducible refine Advances.ofDev ?_
    | with_reducible exact Keeps.refl _
    | with_reducible assumption
    | with_reducible apply Dev.setReg_keeps
    | with_reducible apply Dev.setOut_keeps
    | with_reducible apply trimTimeout_keeps
    | extract_lets
    | (intro _; try beta_reduce)
    | split
    | with_reducible refine frame_keeps ?_ rfl rfl rfl rfl rfl rfl rfl rfl rfl (Nat.le_refl _))

theorem execTrimStepEnd_adv (code : BitVec 4) (r : List Word) (s : State) :
    ∃ t₁, execTrimStepEnd code r s = .next t₁ ∧ Advances s t₁ := by
  refine ⟨_, rfl, ?_⟩
  repeat' (first
    | with_reducible exact Advances.refl _
    | with_reducible refine Advances.ofDev ?_
    | with_reducible exact Keeps.refl _
    | with_reducible assumption
    | with_reducible apply Dev.setReg_keeps
    | with_reducible apply Dev.setOut_keeps
    | with_reducible apply trimStepEnd_keeps
    | extract_lets
    | (intro _; try beta_reduce)
    | split
    | with_reducible refine frame_keeps ?_ rfl rfl rfl rfl rfl rfl rfl rfl rfl (Nat.le_refl _))

theorem execHarnessCycle_adv (sa sb : Sys2Proof.HarnessSample) (t : Sys2Proof.HarnessTrouble) (s : State) :
    ∃ t₁, execHarnessCycle sa sb t s = .next t₁ ∧ Advances s t₁ := by
  obtain ⟨t₁, h, k⟩ := hrnStep_adv _ { s with dev := s.dev.tickFree }
  exact ⟨t₁, h, (Advances.ofDev (Dev.tickFree_keeps _ (Keeps.refl _))).trans k⟩

theorem execTestPulse_adv (x : Fin 8) (two : Bool) (s : State) :
    ∃ t₁, execTestPulse x two s = .next t₁ ∧ Advances s t₁ := hrnStep_adv ..

theorem execOutputDip_adv (x : Fin 4) (low : Bool) (s : State) :
    ∃ t₁, execOutputDip x low s = .next t₁ ∧ Advances s t₁ := hrnStep_adv ..

theorem execDiscrepancyTimeout_adv (f : Fin 8) (s : State) :
    ∃ t₁, execDiscrepancyTimeout f s = .next t₁ ∧ Advances s t₁ := hrnStep_adv ..

theorem execSynchronismTimeout_adv (f : Fin 8) (s : State) :
    ∃ t₁, execSynchronismTimeout f s = .next t₁ ∧ Advances s t₁ := hrnStep_adv ..

theorem execHarnessReset_adv (r : ResetCycle) (s : State) :
    ∃ t₁, execHarnessReset r s = .next t₁ ∧ Advances s t₁ := by
  obtain ⟨t₁, h, k⟩ := hrnStep_adv _ { s with dev := s.dev.tickFree }
  exact ⟨t₁, h, (Advances.ofDev (Dev.tickFree_keeps _ (Keeps.refl _))).trans k⟩

theorem execHrstTooLong_adv (s : State) :
    ∃ t₁, execHrstTooLong s = .next t₁ ∧ Advances s t₁ := hrnStep_adv ..

theorem execStatusFrame_adv (s : State) :
    ∃ t₁, execStatusFrame s = .next t₁ ∧ Advances s t₁ := by
  refine ⟨_, rfl, ?_⟩
  repeat' (first
    | with_reducible exact Advances.refl _
    | with_reducible refine Advances.ofDev ?_
    | with_reducible exact Keeps.refl _
    | with_reducible assumption
    | with_reducible apply Dev.setReg_keeps
    | with_reducible apply Dev.setOut_keeps
    | with_reducible apply Dev.setHrn_keeps
    | extract_lets
    | (intro _; try beta_reduce)
    | split
    | with_reducible refine frame_keeps ?_ rfl rfl rfl rfl rfl rfl rfl rfl rfl (Nat.le_refl _))

theorem execStatusFrameReceive_adv (crcOk : Bool) (s : State) :
    ∃ t₁, execStatusFrameReceive crcOk s = .next t₁ ∧ Advances s t₁ :=
  onReady_adv _ _ (frameReceive_keeps _ _ (Keeps.refl _))

theorem execProposalReceive_adv (transferOk : Bool) (s : State) :
    ∃ t₁, execProposalReceive transferOk s = .next t₁ ∧ Advances s t₁ := by
  unfold execProposalReceive
  extract_lets h
  split
  · exact hrnStep_adv ..
  · exact ⟨_, rfl, Advances.ofDev (Dev.setHrn_keeps _ _ (Keeps.refl _))⟩

theorem execPendingExpiry_adv (s : State) :
    ∃ t₁, execPendingExpiry s = .next t₁ ∧ Advances s t₁ := hrnStep_adv ..

theorem execConfigActivate_adv (ms : Nat) (both : Bool) (s : State) :
    ∃ t₁, execConfigActivate ms both s = .next t₁ ∧ Advances s t₁ := hrnStep_adv ..

theorem execConfigWriteEnd_adv (agree : Bool) (s : State) :
    ∃ t₁, execConfigWriteEnd agree s = .next t₁ ∧ Advances s t₁ := hrnStep_adv ..

theorem execVsafePowerUp_adv (e : Sys2Proof.VsafeUp) (s : State) :
    ∃ t₁, execVsafePowerUp e s = .next t₁ ∧ Advances s t₁ := by
  cases e with
  | begin => exact ⟨_, rfl, Advances.ofDev (Dev.setHrn_keeps _ _ (Keeps.refl _))⟩
  | tested ok newerOk => exact hrnStep_adv ..

theorem execVsafeLow_adv (s : State) :
    ∃ t₁, execVsafeLow s = .next t₁ ∧ Advances s t₁ := hrnStep_adv ..

theorem execVsafeRecovery_adv (s : State) :
    ∃ t₁, execVsafeRecovery s = .next t₁ ∧ Advances s t₁ := hrnStep_adv ..

theorem execHqCount_adv (q : HqInput) (qa qb : Bool) (s : State) :
    ∃ t₁, execHqCount q qa qb s = .next t₁ ∧ Advances s t₁ := hrnStep_adv ..

theorem execCoilFault_adv (b : Fin 2) (s : State) :
    ∃ t₁, execCoilFault b s = .next t₁ ∧ Advances s t₁ := by
  obtain ⟨t₁, h, k⟩ := hrnStep_adv _ { s with dev := s.dev.tickFree }
  exact ⟨t₁, h, (Advances.ofDev (Dev.tickFree_keeps _ (Keeps.refl _))).trans k⟩

theorem execBrakeDue_adv (b : Fin 2) (s : State) :
    ∃ t₁, execBrakeDue b s = .next t₁ ∧ Advances s t₁ := hrnStep_adv ..

theorem execBrakeOverdue_adv (b : Fin 2) (s : State) :
    ∃ t₁, execBrakeOverdue b s = .next t₁ ∧ Advances s t₁ := hrnStep_adv ..

theorem execBrakeTestStart_adv (b : Fin 2) (s : State) :
    ∃ t₁, execBrakeTestStart b s = .next t₁ ∧ Advances s t₁ := hrnStep_adv ..

theorem execTestHoldEnd_adv (s : State) :
    ∃ t₁, execTestHoldEnd s = .next t₁ ∧ Advances s t₁ := hrnStep_adv ..

theorem execTestAckTimeout_adv (s : State) :
    ∃ t₁, execTestAckTimeout s = .next t₁ ∧ Advances s t₁ := hrnStep_adv ..

theorem execIdRead_adv (m : BitVec 4) (s : State) :
    ∃ t₁, execIdRead m s = .next t₁ ∧ Advances s t₁ :=
  atEdge_adv _ _ (idRead_keeps _ _ (Keeps.refl _))

theorem execIdReadEnd_adv (b : Fin 4) (w : Sys2Proof.IdWire) (s : State) :
    ∃ t₁, execIdReadEnd b w s = .next t₁ ∧ Advances s t₁ := by
  refine ⟨_, rfl, ?_⟩
  repeat' (first
    | with_reducible exact Advances.refl _
    | with_reducible refine Advances.ofDev ?_
    | with_reducible exact Keeps.refl _
    | with_reducible assumption
    | with_reducible apply Dev.setReg_keeps
    | with_reducible apply Dev.setOut_keeps
    | with_reducible apply idEnd_keeps
    | extract_lets
    | (intro _; try beta_reduce)
    | split
    | with_reducible refine frame_keeps ?_ rfl rfl rfl rfl rfl rfl rfl rfl rfl (Nat.le_refl _))

theorem execIdLanding_adv (b : Fin 4) (s : State) :
    ∃ t₁, execIdLanding b s = .next t₁ ∧ Advances s t₁ :=
  atEdge_adv _ _ (idLand_keeps _ _ (Keeps.refl _))

theorem execPin_adv (o : Lim) (s : State) :
    ∃ t₁, execPin o s = .next t₁ ∧ Advances s t₁ := by
  refine ⟨_, rfl, ?_⟩
  repeat' (first
    | with_reducible exact Advances.refl _
    | with_reducible refine Advances.ofDev ?_
    | with_reducible exact Keeps.refl _
    | with_reducible assumption
    | with_reducible apply Dev.setReg_keeps
    | with_reducible apply Dev.setOut_keeps
    | extract_lets
    | (intro _; try beta_reduce)
    | split
    | with_reducible exact limReg_adv ..
    | with_reducible refine frame_keeps ?_ rfl rfl rfl rfl rfl rfl rfl rfl rfl (Nat.le_refl _))

theorem execPout_adv (o : Lim) (s : State) :
    ∃ t₁, execPout o s = .next t₁ ∧ Advances s t₁ := by
  refine ⟨_, rfl, ?_⟩
  repeat' (first
    | with_reducible exact Advances.refl _
    | with_reducible refine Advances.ofDev ?_
    | with_reducible exact Keeps.refl _
    | with_reducible assumption
    | with_reducible apply Dev.setReg_keeps
    | with_reducible apply Dev.setOut_keeps
    | with_reducible apply Dev.setCore_keeps
    | with_reducible apply stage_keeps
    | with_reducible apply skipOff_keeps
    | extract_lets
    | (intro _; try beta_reduce)
    | split
    | with_reducible refine limDev_adv _ _ _ _ _ ?_ ?_
    | with_reducible exact skipOff_mono _
    | with_reducible refine frame_keeps ?_ rfl rfl rfl rfl rfl rfl rfl rfl rfl (Nat.le_refl _))

theorem execLoadVerifyEnd_adv (s : State) :
    ∃ t₁, execLoadVerifyEnd s = .next t₁ ∧ Advances s t₁ := by
  refine ⟨_, rfl, ?_⟩
  repeat' (first
    | with_reducible exact Advances.refl _
    | with_reducible refine Advances.ofDev ?_
    | with_reducible exact Keeps.refl _
    | with_reducible assumption
    | with_reducible apply Dev.setReg_keeps
    | with_reducible apply Dev.setOut_keeps
    | with_reducible apply loadVerifyEnd_keeps
    | extract_lets
    | (intro _; try beta_reduce)
    | split
    | with_reducible refine frame_keeps ?_ rfl rfl rfl rfl rfl rfl rfl rfl rfl (Nat.le_refl _))

theorem execModeRequest_adv (req : BitVec 3) (s : State) :
    ∃ t₁, execModeRequest req s = .next t₁ ∧ Advances s t₁ :=
  atEdge_adv _ _ (modeEdge_keeps _ _ _ (Keeps.refl _))

theorem execHarnessLinkLoss_adv (s : State) :
    ∃ t₁, execHarnessLinkLoss s = .next t₁ ∧ Advances s t₁ :=
  onReady_adv _ _ (harnessLinkLoss_keeps _ (Keeps.refl _))

theorem execComputeStart_adv (s : State) :
    ∃ t₁, execComputeStart s = .next t₁ ∧ Advances s t₁ := by
  refine ⟨_, rfl, ?_⟩
  repeat' (first
    | with_reducible exact Advances.refl _
    | with_reducible refine Advances.ofDev ?_
    | with_reducible exact Keeps.refl _
    | with_reducible assumption
    | with_reducible apply Dev.setReg_keeps
    | with_reducible apply Dev.setOut_keeps
    | extract_lets
    | (intro _; try beta_reduce)
    | split
    | with_reducible exact computeStart_adv ..
    | with_reducible refine frame_keeps ?_ rfl rfl rfl rfl rfl rfl rfl rfl rfl (Nat.le_refl _))

theorem execFractionalEdge_adv (i : Fin 3) (s : State) :
    ∃ t₁, execFractionalEdge i s = .next t₁ ∧ Advances s t₁ :=
  ⟨_, rfl, (computeStart_adv s).trans (Advances.ofDev (fractionalEdge_keeps _ _ (Keeps.refl _)))⟩

theorem execStageStart_adv (s : State) :
    ∃ t₁, execStageStart s = .next t₁ ∧ Advances s t₁ :=
  ⟨_, rfl, (computeStart_adv s).trans (Advances.ofDev (stageStart_keeps _ _ (Keeps.refl _)))⟩

theorem execEngineOverrun_adv (src : Sys2Proof.Overrun) (s : State) :
    ∃ t₁, execEngineOverrun src s = .next t₁ ∧ Advances s t₁ := by
  refine ⟨_, rfl, ?_⟩
  repeat' (first
    | with_reducible exact Advances.refl _
    | with_reducible refine Advances.ofDev ?_
    | with_reducible exact Keeps.refl _
    | with_reducible assumption
    | with_reducible apply Dev.setReg_keeps
    | with_reducible apply Dev.setOut_keeps
    | with_reducible apply engineOverrun_keeps
    | extract_lets
    | (intro _; try beta_reduce)
    | split
    | with_reducible refine frame_keeps ?_ rfl rfl rfl rfl rfl rfl rfl rfl rfl (Nat.le_refl _))

theorem execTickEdge_adv (vote : Sys2Proof.CommitVote) (s : State) :
    ∃ t₁, execTickEdge vote s = .next t₁ ∧ Advances s t₁ :=
  ⟨_, rfl, tickEdge_adv _ _⟩

theorem execSlipLimit_adv (s : State) :
    ∃ t₁, execSlipLimit s = .next t₁ ∧ Advances s t₁ := by
  refine ⟨_, rfl, ?_⟩
  repeat' (first
    | with_reducible exact Advances.refl _
    | with_reducible refine Advances.ofDev ?_
    | with_reducible exact Keeps.refl _
    | with_reducible assumption
    | with_reducible apply Dev.setReg_keeps
    | with_reducible apply Dev.setOut_keeps
    | with_reducible apply slipLimit_keeps
    | extract_lets
    | (intro _; try beta_reduce)
    | split
    | with_reducible refine frame_keeps ?_ rfl rfl rfl rfl rfl rfl rfl rfl rfl (Nat.le_refl _))

theorem execSlip_adv (p : HostPort) (s : State) :
    ∃ t₁, execSlip p s = .next t₁ ∧ Advances s t₁ := by
  refine ⟨_, rfl, ?_⟩
  repeat' (first
    | with_reducible exact Advances.refl _
    | with_reducible refine Advances.ofDev ?_
    | with_reducible exact Keeps.refl _
    | with_reducible assumption
    | with_reducible apply Dev.setReg_keeps
    | with_reducible apply Dev.setOut_keeps
    | extract_lets
    | (intro _; try beta_reduce)
    | split
    | with_reducible exact regRow_adv ..
    | with_reducible refine frame_keeps ?_ rfl rfl rfl rfl rfl rfl rfl rfl rfl (Nat.le_refl _))

theorem execPkclr_adv (p : HostPort) (s : State) :
    ∃ t₁, execPkclr p s = .next t₁ ∧ Advances s t₁ := by
  refine ⟨_, rfl, ?_⟩
  repeat' (first
    | with_reducible exact Advances.refl _
    | with_reducible refine Advances.ofDev ?_
    | with_reducible exact Keeps.refl _
    | with_reducible assumption
    | with_reducible apply Dev.setReg_keeps
    | with_reducible apply Dev.setOut_keeps
    | extract_lets
    | (intro _; try beta_reduce)
    | split
    | with_reducible exact regRow_adv ..
    | with_reducible refine frame_keeps ?_ rfl rfl rfl rfl rfl rfl rfl rfl rfl (Nat.le_refl _))

theorem execTckPeriodWrite_adv (p : HostPort) (v : Word) (s : State) :
    ∃ t₁, execTckPeriodWrite p v s = .next t₁ ∧ Advances s t₁ := by
  refine ⟨_, rfl, ?_⟩
  repeat' (first
    | with_reducible exact Advances.refl _
    | with_reducible refine Advances.ofDev ?_
    | with_reducible exact Keeps.refl _
    | with_reducible assumption
    | with_reducible apply Dev.setReg_keeps
    | with_reducible apply Dev.setOut_keeps
    | extract_lets
    | (intro _; try beta_reduce)
    | split
    | with_reducible exact regRow_adv ..
    | with_reducible refine frame_keeps ?_ rfl rfl rfl rfl rfl rfl rfl rfl rfl (Nat.le_refl _))

theorem execHeldWtWriteComplete_adv (p : HostPort) (s : State) :
    ∃ t₁, execHeldWtWriteComplete p s = .next t₁ ∧ Advances s t₁ := by
  refine ⟨_, rfl, ?_⟩
  repeat' (first
    | with_reducible exact Advances.refl _
    | with_reducible refine Advances.ofDev ?_
    | with_reducible exact Keeps.refl _
    | with_reducible assumption
    | with_reducible apply Dev.setReg_keeps
    | with_reducible apply Dev.setOut_keeps
    | with_reducible apply heldComplete_keeps
    | extract_lets
    | (intro _; try beta_reduce)
    | split
    | with_reducible refine State.putDev_adv ?_
    | with_reducible refine frame_keeps ?_ rfl rfl rfl rfl rfl rfl rfl rfl rfl (Nat.le_refl _))

theorem execRegisterWrite_adv (p : HostPort) (a : Nat) (sz : AccSize) (v : DWord) (s : State) :
    ∃ t₁, execRegisterWrite p a sz v s = .next t₁ ∧ Advances s t₁ := by
  refine ⟨_, rfl, ?_⟩
  repeat' (first
    | with_reducible exact Advances.refl _
    | with_reducible refine Advances.ofDev ?_
    | with_reducible exact Keeps.refl _
    | with_reducible assumption
    | with_reducible apply Dev.setReg_keeps
    | with_reducible apply Dev.setOut_keeps
    | extract_lets
    | (intro _; try beta_reduce)
    | split
    | with_reducible exact memRow_adv ..
    | with_reducible refine frame_keeps ?_ rfl rfl rfl rfl rfl rfl rfl rfl rfl (Nat.le_refl _))

theorem execStickyClear_adv (p : HostPort) (a : Nat) (v : Word) (s : State) :
    ∃ t₁, execStickyClear p a v s = .next t₁ ∧ Advances s t₁ := by
  refine ⟨_, rfl, ?_⟩
  repeat' (first
    | with_reducible exact Advances.refl _
    | with_reducible refine Advances.ofDev ?_
    | with_reducible exact Keeps.refl _
    | with_reducible assumption
    | with_reducible apply Dev.setReg_keeps
    | with_reducible apply Dev.setOut_keeps
    | extract_lets
    | (intro _; try beta_reduce)
    | split
    | with_reducible exact regRow_adv ..
    | with_reducible refine frame_keeps ?_ rfl rfl rfl rfl rfl rfl rfl rfl rfl (Nat.le_refl _))

theorem execHostMemoryWrite_adv (p : HostPort) (a : Nat) (sz : AccSize) (v : DWord) (s : State) :
    ∃ t₁, execHostMemoryWrite p a sz v s = .next t₁ ∧ Advances s t₁ := by
  refine ⟨_, rfl, ?_⟩
  repeat' (first
    | with_reducible exact Advances.refl _
    | with_reducible refine Advances.ofDev ?_
    | with_reducible exact Keeps.refl _
    | with_reducible assumption
    | with_reducible apply Dev.setReg_keeps
    | with_reducible apply Dev.setOut_keeps
    | extract_lets
    | (intro _; try beta_reduce)
    | split
    | with_reducible exact memRow_adv ..
    | with_reducible refine frame_keeps ?_ rfl rfl rfl rfl rfl rfl rfl rfl rfl (Nat.le_refl _))

theorem execHostInstructionWrite_adv (p : HostPort) (a : Nat) (sz : AccSize) (v : DWord) (s : State) :
    ∃ t₁, execHostInstructionWrite p a sz v s = .next t₁ ∧ Advances s t₁ := by
  refine ⟨_, rfl, ?_⟩
  repeat' (first
    | with_reducible exact Advances.refl _
    | with_reducible refine Advances.ofDev ?_
    | with_reducible exact Keeps.refl _
    | with_reducible assumption
    | with_reducible apply Dev.setReg_keeps
    | with_reducible apply Dev.setOut_keeps
    | extract_lets
    | (intro _; try beta_reduce)
    | split
    | with_reducible exact memRow_adv ..
    | with_reducible refine frame_keeps ?_ rfl rfl rfl rfl rfl rfl rfl rfl rfl (Nat.le_refl _))

theorem execHostCellarWrite_adv (p : HostPort) (a : Nat) (sz : AccSize) (v : DWord) (vf : Sys2Proof.VerifyEnv) (s : State) :
    ∃ t₁, execHostCellarWrite p a sz v vf s = .next t₁ ∧ Advances s t₁ := by
  refine ⟨_, rfl, ?_⟩
  repeat' (first
    | with_reducible exact Advances.refl _
    | with_reducible refine Advances.ofDev ?_
    | with_reducible exact Keeps.refl _
    | with_reducible assumption
    | with_reducible apply Dev.setReg_keeps
    | with_reducible apply Dev.setOut_keeps
    | extract_lets
    | (intro _; try beta_reduce)
    | split
    | with_reducible exact memRow_adv ..
    | with_reducible refine frame_keeps ?_ rfl rfl rfl rfl rfl rfl rfl rfl rfl (Nat.le_refl _))

theorem execLoadCommand_adv (p : HostPort) (v : Word) (s : State) :
    ∃ t₁, execLoadCommand p v s = .next t₁ ∧ Advances s t₁ := by
  refine ⟨_, rfl, ?_⟩
  repeat' (first
    | with_reducible exact Advances.refl _
    | with_reducible refine Advances.ofDev ?_
    | with_reducible exact Keeps.refl _
    | with_reducible assumption
    | with_reducible apply Dev.setReg_keeps
    | with_reducible apply Dev.setOut_keeps
    | extract_lets
    | (intro _; try beta_reduce)
    | split
    | with_reducible exact regRow_adv ..
    | with_reducible refine frame_keeps ?_ rfl rfl rfl rfl rfl rfl rfl rfl rfl (Nat.le_refl _))

theorem execSoftwareReset_adv (p : HostPort) (v : Word) (s : State) :
    ∃ t₁, execSoftwareReset p v s = .next t₁ ∧ Advances s t₁ := by
  refine ⟨_, rfl, ?_⟩
  repeat' (first
    | with_reducible exact Advances.refl _
    | with_reducible refine Advances.ofDev ?_
    | with_reducible exact Keeps.refl _
    | with_reducible assumption
    | with_reducible apply Dev.setReg_keeps
    | with_reducible apply Dev.setOut_keeps
    | extract_lets
    | (intro _; try beta_reduce)
    | split
    | with_reducible exact regRow_adv ..
    | with_reducible refine frame_keeps ?_ rfl rfl rfl rfl rfl rfl rfl rfl rfl (Nat.le_refl _))

theorem execFbTypeChange_adv (p : HostPort) (c : Fin 16) (v : Word) (s : State) :
    ∃ t₁, execFbTypeChange p c v s = .next t₁ ∧ Advances s t₁ := by
  refine ⟨_, rfl, ?_⟩
  repeat' (first
    | with_reducible exact Advances.refl _
    | with_reducible refine Advances.ofDev ?_
    | with_reducible exact Keeps.refl _
    | with_reducible assumption
    | with_reducible apply Dev.setReg_keeps
    | with_reducible apply Dev.setOut_keeps
    | extract_lets
    | (intro _; try beta_reduce)
    | split
    | with_reducible exact regRow_adv ..
    | with_reducible refine frame_keeps ?_ rfl rfl rfl rfl rfl rfl rfl rfl rfl (Nat.le_refl _))

theorem execRatioWrite_adv (port : HostPort) (p : Fin 2) (v : Word) (s : State) :
    ∃ t₁, execRatioWrite port p v s = .next t₁ ∧ Advances s t₁ := by
  refine ⟨_, rfl, ?_⟩
  repeat' (first
    | with_reducible exact Advances.refl _
    | with_reducible refine Advances.ofDev ?_
    | with_reducible exact Keeps.refl _
    | with_reducible assumption
    | with_reducible apply Dev.setReg_keeps
    | with_reducible apply Dev.setOut_keeps
    | extract_lets
    | (intro _; try beta_reduce)
    | split
    | with_reducible exact regRow_adv ..
    | with_reducible refine frame_keeps ?_ rfl rfl rfl rfl rfl rfl rfl rfl rfl (Nat.le_refl _))

theorem execHoffrdWrite_adv (p : HostPort) (v : Word) (s : State) :
    ∃ t₁, execHoffrdWrite p v s = .next t₁ ∧ Advances s t₁ := by
  refine ⟨_, rfl, ?_⟩
  repeat' (first
    | with_reducible exact Advances.refl _
    | with_reducible refine Advances.ofDev ?_
    | with_reducible exact Keeps.refl _
    | with_reducible assumption
    | with_reducible apply Dev.setReg_keeps
    | with_reducible apply Dev.setOut_keeps
    | extract_lets
    | (intro _; try beta_reduce)
    | split
    | with_reducible exact regRow_adv ..
    | with_reducible refine frame_keeps ?_ rfl rfl rfl rfl rfl rfl rfl rfl rfl (Nat.le_refl _))

theorem execConfigSend_adv (p : HostPort) (v : Word) (s : State) :
    ∃ t₁, execConfigSend p v s = .next t₁ ∧ Advances s t₁ := by
  refine ⟨_, rfl, ?_⟩
  repeat' (first
    | with_reducible exact Advances.refl _
    | with_reducible refine Advances.ofDev ?_
    | with_reducible exact Keeps.refl _
    | with_reducible assumption
    | with_reducible apply Dev.setReg_keeps
    | with_reducible apply Dev.setOut_keeps
    | extract_lets
    | (intro _; try beta_reduce)
    | split
    | with_reducible exact regRow_adv ..
    | with_reducible refine frame_keeps ?_ rfl rfl rfl rfl rfl rfl rfl rfl rfl (Nat.le_refl _))

theorem execNvWrite_adv (p : HostPort) (s : State) :
    ∃ t₁, execNvWrite p s = .next t₁ ∧ Advances s t₁ := by
  refine ⟨_, rfl, ?_⟩
  repeat' (first
    | with_reducible exact Advances.refl _
    | with_reducible refine Advances.ofDev ?_
    | with_reducible exact Keeps.refl _
    | with_reducible assumption
    | with_reducible apply Dev.setReg_keeps
    | with_reducible apply Dev.setOut_keeps
    | extract_lets
    | (intro _; try beta_reduce)
    | split
    | with_reducible exact regRow_adv ..
    | with_reducible refine frame_keeps ?_ rfl rfl rfl rfl rfl rfl rfl rfl rfl (Nat.le_refl _))

theorem execNvRead_adv (p : HostPort) (s : State) :
    ∃ t₁, execNvRead p s = .next t₁ ∧ Advances s t₁ := by
  refine ⟨_, rfl, ?_⟩
  repeat' (first
    | with_reducible exact Advances.refl _
    | with_reducible refine Advances.ofDev ?_
    | with_reducible exact Keeps.refl _
    | with_reducible assumption
    | with_reducible apply Dev.setReg_keeps
    | with_reducible apply Dev.setOut_keeps
    | extract_lets
    | (intro _; try beta_reduce)
    | split
    | with_reducible exact regRow_adv ..
    | with_reducible refine frame_keeps ?_ rfl rfl rfl rfl rfl rfl rfl rfl rfl (Nat.le_refl _))

theorem execSealSend_adv (p : HostPort) (v : Word) (s : State) :
    ∃ t₁, execSealSend p v s = .next t₁ ∧ Advances s t₁ := by
  refine ⟨_, rfl, ?_⟩
  repeat' (first
    | with_reducible exact Advances.refl _
    | with_reducible refine Advances.ofDev ?_
    | with_reducible exact Keeps.refl _
    | with_reducible assumption
    | with_reducible apply Dev.setReg_keeps
    | with_reducible apply Dev.setOut_keeps
    | extract_lets
    | (intro _; try beta_reduce)
    | split
    | with_reducible exact regRow_adv ..
    | with_reducible refine frame_keeps ?_ rfl rfl rfl rfl rfl rfl rfl rfl rfl (Nat.le_refl _))

theorem execLogResume_adv (p : HostPort) (s : State) :
    ∃ t₁, execLogResume p s = .next t₁ ∧ Advances s t₁ := by
  refine ⟨_, rfl, ?_⟩
  repeat' (first
    | with_reducible exact Advances.refl _
    | with_reducible refine Advances.ofDev ?_
    | with_reducible exact Keeps.refl _
    | with_reducible assumption
    | with_reducible apply Dev.setReg_keeps
    | with_reducible apply Dev.setOut_keeps
    | extract_lets
    | (intro _; try beta_reduce)
    | split
    | with_reducible exact regRow_adv ..
    | with_reducible refine frame_keeps ?_ rfl rfl rfl rfl rfl rfl rfl rfl rfl (Nat.le_refl _))

theorem execSpillclr_adv (p : HostPort) (v : Word) (s : State) :
    ∃ t₁, execSpillclr p v s = .next t₁ ∧ Advances s t₁ := by
  refine ⟨_, rfl, ?_⟩
  repeat' (first
    | with_reducible exact Advances.refl _
    | with_reducible refine Advances.ofDev ?_
    | with_reducible exact Keeps.refl _
    | with_reducible assumption
    | with_reducible apply Dev.setReg_keeps
    | with_reducible apply Dev.setOut_keeps
    | extract_lets
    | (intro _; try beta_reduce)
    | split
    | with_reducible exact regRow_adv ..
    | with_reducible refine frame_keeps ?_ rfl rfl rfl rfl rfl rfl rfl rfl rfl (Nat.le_refl _))

theorem execHoldfClear_adv (p : HostPort) (s : State) :
    ∃ t₁, execHoldfClear p s = .next t₁ ∧ Advances s t₁ := by
  refine ⟨_, rfl, ?_⟩
  repeat' (first
    | with_reducible exact Advances.refl _
    | with_reducible refine Advances.ofDev ?_
    | with_reducible exact Keeps.refl _
    | with_reducible assumption
    | with_reducible apply Dev.setReg_keeps
    | with_reducible apply Dev.setOut_keeps
    | extract_lets
    | (intro _; try beta_reduce)
    | split
    | with_reducible exact regRow_adv ..
    | with_reducible refine frame_keeps ?_ rfl rfl rfl rfl rfl rfl rfl rfl rfl (Nat.le_refl _))

theorem execFpdisClear_adv (p : HostPort) (s : State) :
    ∃ t₁, execFpdisClear p s = .next t₁ ∧ Advances s t₁ := by
  refine ⟨_, rfl, ?_⟩
  repeat' (first
    | with_reducible exact Advances.refl _
    | with_reducible refine Advances.ofDev ?_
    | with_reducible exact Keeps.refl _
    | with_reducible assumption
    | with_reducible apply Dev.setReg_keeps
    | with_reducible apply Dev.setOut_keeps
    | extract_lets
    | (intro _; try beta_reduce)
    | split
    | with_reducible exact regRow_adv ..
    | with_reducible refine frame_keeps ?_ rfl rfl rfl rfl rfl rfl rfl rfl rfl (Nat.le_refl _))

theorem execTrimRestoreWrite_adv (p : HostPort) (a : Nat) (v : Word) (s : State) :
    ∃ t₁, execTrimRestoreWrite p a v s = .next t₁ ∧ Advances s t₁ := by
  refine ⟨_, rfl, ?_⟩
  repeat' (first
    | with_reducible exact Advances.refl _
    | with_reducible refine Advances.ofDev ?_
    | with_reducible exact Keeps.refl _
    | with_reducible assumption
    | with_reducible apply Dev.setReg_keeps
    | with_reducible apply Dev.setOut_keeps
    | extract_lets
    | (intro _; try beta_reduce)
    | split
    | with_reducible exact regRow_adv ..
    | with_reducible refine frame_keeps ?_ rfl rfl rfl rfl rfl rfl rfl rfl rfl (Nat.le_refl _))

theorem execMonCodeWrite_adv (p : HostPort) (v : Word) (s : State) :
    ∃ t₁, execMonCodeWrite p v s = .next t₁ ∧ Advances s t₁ := by
  refine ⟨_, rfl, ?_⟩
  repeat' (first
    | with_reducible exact Advances.refl _
    | with_reducible refine Advances.ofDev ?_
    | with_reducible exact Keeps.refl _
    | with_reducible assumption
    | with_reducible apply Dev.setReg_keeps
    | with_reducible apply Dev.setOut_keeps
    | extract_lets
    | (intro _; try beta_reduce)
    | split
    | with_reducible exact regRow_adv ..
    | with_reducible refine frame_keeps ?_ rfl rfl rfl rfl rfl rfl rfl rfl rfl (Nat.le_refl _))

theorem execHostDramWrite_adv (p : HostPort) (a : Nat) (sz : AccSize) (v : DWord) (s : State) :
    ∃ t₁, execHostDramWrite p a sz v s = .next t₁ ∧ Advances s t₁ := ⟨_, rfl, State.putDev_adv (hostRow_adv ..).dev⟩

theorem execHostRead_adv (p : HostPort) (bar2 : Bool) (a : Nat) (sz : AccSize) (ecc : Sys2Proof.Ecc) (s : State) :
    ∃ t₁, execHostRead p bar2 a sz ecc s = .next t₁ ∧ Advances s t₁ := by
  refine ⟨_, rfl, ?_⟩
  repeat' (first
    | with_reducible exact Advances.refl _
    | with_reducible refine Advances.ofDev ?_
    | with_reducible exact Keeps.refl _
    | with_reducible assumption
    | with_reducible apply Dev.setReg_keeps
    | with_reducible apply Dev.setOut_keeps
    | with_reducible apply hostRead_keeps
    | extract_lets
    | (intro _; try beta_reduce)
    | split
    | with_reducible refine State.putDev_adv ?_
    | with_reducible refine frame_keeps ?_ rfl rfl rfl rfl rfl rfl rfl rfl rfl (Nat.le_refl _))

theorem execTckCountLoRead_adv (r : Reader) (s : State) :
    ∃ t₁, execTckCountLoRead r s = .next t₁ ∧ Advances s t₁ := by
  refine ⟨_, rfl, ?_⟩
  repeat' (first
    | with_reducible exact Advances.refl _
    | with_reducible refine Advances.ofDev ?_
    | with_reducible exact Keeps.refl _
    | with_reducible assumption
    | with_reducible apply Dev.setReg_keeps
    | with_reducible apply Dev.setOut_keeps
    | extract_lets
    | (intro _; try beta_reduce)
    | split
    | with_reducible exact loRead_adv ..
    | with_reducible refine frame_keeps ?_ rfl rfl rfl rfl rfl rfl rfl rfl rfl (Nat.le_refl _))

theorem execTckEdgetsLoRead_adv (r : Reader) (s : State) :
    ∃ t₁, execTckEdgetsLoRead r s = .next t₁ ∧ Advances s t₁ := by
  refine ⟨_, rfl, ?_⟩
  repeat' (first
    | with_reducible exact Advances.refl _
    | with_reducible refine Advances.ofDev ?_
    | with_reducible exact Keeps.refl _
    | with_reducible assumption
    | with_reducible apply Dev.setReg_keeps
    | with_reducible apply Dev.setOut_keeps
    | extract_lets
    | (intro _; try beta_reduce)
    | split
    | with_reducible exact loRead_adv ..
    | with_reducible refine frame_keeps ?_ rfl rfl rfl rfl rfl rfl rfl rfl rfl (Nat.le_refl _))

theorem execTckTsLoRead_adv (r : Reader) (s : State) :
    ∃ t₁, execTckTsLoRead r s = .next t₁ ∧ Advances s t₁ := by
  refine ⟨_, rfl, ?_⟩
  repeat' (first
    | with_reducible exact Advances.refl _
    | with_reducible refine Advances.ofDev ?_
    | with_reducible exact Keeps.refl _
    | with_reducible assumption
    | with_reducible apply Dev.setReg_keeps
    | with_reducible apply Dev.setOut_keeps
    | extract_lets
    | (intro _; try beta_reduce)
    | split
    | with_reducible exact loRead_adv ..
    | with_reducible refine frame_keeps ?_ rfl rfl rfl rfl rfl rfl rfl rfl rfl (Nat.le_refl _))

theorem execReinsReq_adv (p : HostPort) (contested : Bool) (s : State) :
    ∃ t₁, execReinsReq p contested s = .next t₁ ∧ Advances s t₁ := ⟨_, rfl, reinsRow_adv ..⟩

theorem execReinsRel_adv (p : HostPort) (s : State) :
    ∃ t₁, execReinsRel p s = .next t₁ ∧ Advances s t₁ := ⟨_, rfl, reinsRow_adv ..⟩

theorem execReinsTake_adv (p : HostPort) (contested : Bool) (s : State) :
    ∃ t₁, execReinsTake p contested s = .next t₁ ∧ Advances s t₁ := ⟨_, rfl, reinsRow_adv ..⟩

theorem execHeartbeat_adv (p : HostPort) (s : State) :
    ∃ t₁, execHeartbeat p s = .next t₁ ∧ Advances s t₁ := ⟨_, rfl, reinsRow_adv ..⟩

theorem execHbTimeout_adv (s : State) :
    ∃ t₁, execHbTimeout s = .next t₁ ∧ Advances s t₁ := by
  refine ⟨_, rfl, ?_⟩
  repeat' (first
    | with_reducible exact Advances.refl _
    | with_reducible refine Advances.ofDev ?_
    | with_reducible exact Keeps.refl _
    | with_reducible assumption
    | with_reducible apply Dev.setReg_keeps
    | with_reducible apply Dev.setOut_keeps
    | with_reducible apply hbTimeout_keeps
    | extract_lets
    | (intro _; try beta_reduce)
    | split
    | with_reducible refine frame_keeps ?_ rfl rfl rfl rfl rfl rfl rfl rfl rfl (Nat.le_refl _))

theorem execDoorbell_adv (p : HostPort) (v : Word) (s : State) :
    ∃ t₁, execDoorbell p v s = .next t₁ ∧ Advances s t₁ := by
  refine ⟨_, rfl, ?_⟩
  repeat' (first
    | with_reducible exact Advances.refl _
    | with_reducible refine Advances.ofDev ?_
    | with_reducible exact Keeps.refl _
    | with_reducible assumption
    | with_reducible apply Dev.setReg_keeps
    | with_reducible apply Dev.setOut_keeps
    | extract_lets
    | (intro _; try beta_reduce)
    | split
    | with_reducible exact regRow_adv ..
    | with_reducible refine frame_keeps ?_ rfl rfl rfl rfl rfl rfl rfl rfl rfl (Nat.le_refl _))

theorem execCplheadWrite_adv (p : HostPort) (v : Word) (s : State) :
    ∃ t₁, execCplheadWrite p v s = .next t₁ ∧ Advances s t₁ := by
  refine ⟨_, rfl, ?_⟩
  repeat' (first
    | with_reducible exact Advances.refl _
    | with_reducible refine Advances.ofDev ?_
    | with_reducible exact Keeps.refl _
    | with_reducible assumption
    | with_reducible apply Dev.setReg_keeps
    | with_reducible apply Dev.setOut_keeps
    | extract_lets
    | (intro _; try beta_reduce)
    | split
    | with_reducible exact regRow_adv ..
    | with_reducible refine frame_keeps ?_ rfl rfl rfl rfl rfl rfl rfl rfl rfl (Nat.le_refl _))

theorem execCommandConsume_adv (p : HostPort) (s : State) :
    ∃ t₁, execCommandConsume p s = .next t₁ ∧ Advances s t₁ := by
  refine ⟨_, rfl, ?_⟩
  repeat' (first
    | with_reducible exact Advances.refl _
    | with_reducible refine Advances.ofDev ?_
    | with_reducible exact Keeps.refl _
    | with_reducible assumption
    | with_reducible apply Dev.setReg_keeps
    | with_reducible apply Dev.setOut_keeps
    | with_reducible apply consume_keeps
    | extract_lets
    | (intro _; try beta_reduce)
    | split
    | with_reducible refine frame_keeps ?_ rfl rfl rfl rfl rfl rfl rfl rfl rfl (Nat.le_refl _))

theorem execCmdNop_adv (p : HostPort) (s : State) :
    ∃ t₁, execCmdNop p s = .next t₁ ∧ Advances s t₁ := by
  refine ⟨_, rfl, ?_⟩
  repeat' (first
    | with_reducible exact Advances.refl _
    | with_reducible refine Advances.ofDev ?_
    | with_reducible exact Keeps.refl _
    | with_reducible assumption
    | with_reducible apply Dev.setReg_keeps
    | with_reducible apply Dev.setOut_keeps
    | with_reducible apply cmdEnd_keeps
    | with_reducible apply onCommand_keeps
    | extract_lets
    | (intro _; try beta_reduce)
    | split
    | with_reducible refine frame_keeps ?_ rfl rfl rfl rfl rfl rfl rfl rfl rfl (Nat.le_refl _))

theorem execRd32_adv (p : HostPort) (s : State) :
    ∃ t₁, execRd32 p s = .next t₁ ∧ Advances s t₁ := by
  refine ⟨_, rfl, ?_⟩
  repeat' (first
    | with_reducible exact Advances.refl _
    | with_reducible refine Advances.ofDev ?_
    | with_reducible exact Keeps.refl _
    | with_reducible assumption
    | with_reducible apply Dev.setReg_keeps
    | with_reducible apply Dev.setOut_keeps
    | with_reducible apply onCommand_keeps
    | with_reducible apply cmdRead_keeps
    | extract_lets
    | (intro _; try beta_reduce)
    | split
    | with_reducible refine frame_keeps ?_ rfl rfl rfl rfl rfl rfl rfl rfl rfl (Nat.le_refl _))

theorem execWr32_adv (p : HostPort) (s : State) :
    ∃ t₁, execWr32 p s = .next t₁ ∧ Advances s t₁ := by
  refine ⟨_, rfl, ?_⟩
  repeat' (first
    | with_reducible exact Advances.refl _
    | with_reducible refine Advances.ofDev ?_
    | with_reducible exact Keeps.refl _
    | with_reducible assumption
    | with_reducible apply Dev.setReg_keeps
    | with_reducible apply Dev.setOut_keeps
    | with_reducible apply onCommand_keeps
    | with_reducible apply cmdWrite_keeps
    | extract_lets
    | (intro _; try beta_reduce)
    | split
    | with_reducible refine State.putDev_adv ?_
    | with_reducible refine frame_keeps ?_ rfl rfl rfl rfl rfl rfl rfl rfl rfl (Nat.le_refl _))

theorem execWrat_adv (p : HostPort) (s : State) :
    ∃ t₁, execWrat p s = .next t₁ ∧ Advances s t₁ := by
  refine ⟨_, rfl, ?_⟩
  repeat' (first
    | with_reducible exact Advances.refl _
    | with_reducible refine Advances.ofDev ?_
    | with_reducible exact Keeps.refl _
    | with_reducible assumption
    | with_reducible apply Dev.setReg_keeps
    | with_reducible apply Dev.setOut_keeps
    | with_reducible apply onCommand_keeps
    | with_reducible apply cmdTimed_keeps
    | extract_lets
    | (intro _; try beta_reduce)
    | split
    | with_reducible refine frame_keeps ?_ rfl rfl rfl rfl rfl rfl rfl rfl rfl (Nat.le_refl _))

theorem execRdat_adv (p : HostPort) (s : State) :
    ∃ t₁, execRdat p s = .next t₁ ∧ Advances s t₁ := by
  refine ⟨_, rfl, ?_⟩
  repeat' (first
    | with_reducible exact Advances.refl _
    | with_reducible refine Advances.ofDev ?_
    | with_reducible exact Keeps.refl _
    | with_reducible assumption
    | with_reducible apply Dev.setReg_keeps
    | with_reducible apply Dev.setOut_keeps
    | with_reducible apply onCommand_keeps
    | with_reducible apply cmdTimed_keeps
    | extract_lets
    | (intro _; try beta_reduce)
    | split
    | with_reducible refine frame_keeps ?_ rfl rfl rfl rfl rfl rfl rfl rfl rfl (Nat.le_refl _))

theorem execWratAccept_adv (p : HostPort) (s : State) :
    ∃ t₁, execWratAccept p s = .next t₁ ∧ Advances s t₁ := by
  refine ⟨_, rfl, ?_⟩
  repeat' (first
    | with_reducible exact Advances.refl _
    | with_reducible refine Advances.ofDev ?_
    | with_reducible exact Keeps.refl _
    | with_reducible assumption
    | with_reducible apply Dev.setReg_keeps
    | with_reducible apply Dev.setOut_keeps
    | extract_lets
    | (intro _; try beta_reduce)
    | split
    | with_reducible exact wratAccept_adv ..
    | with_reducible refine frame_keeps ?_ rfl rfl rfl rfl rfl rfl rfl rfl rfl (Nat.le_refl _))

theorem execRdatPerform_adv (p : HostPort) (s : State) :
    ∃ t₁, execRdatPerform p s = .next t₁ ∧ Advances s t₁ := by
  refine ⟨_, rfl, ?_⟩
  repeat' (first
    | with_reducible exact Advances.refl _
    | with_reducible refine Advances.ofDev ?_
    | with_reducible exact Keeps.refl _
    | with_reducible assumption
    | with_reducible apply Dev.setReg_keeps
    | with_reducible apply Dev.setOut_keeps
    | with_reducible apply performAll_keeps
    | extract_lets
    | (intro _; try beta_reduce)
    | split
    | with_reducible refine frame_keeps ?_ rfl rfl rfl rfl rfl rfl rfl rfl rfl (Nat.le_refl _))

theorem execQspiWrite_adv (p : HostPort) (ofs : BitVec 24) (ws : List Word) (s : State) :
    ∃ t₁, execQspiWrite p ofs ws s = .next t₁ ∧ Advances s t₁ :=
  ⟨_, rfl, State.putDev_adv (qspiWrite_keeps _ _ _ _)⟩

theorem execQspiRead_adv (p : HostPort) (ofs : BitVec 24) (n : Nat) (s : State) :
    ∃ t₁, execQspiRead p ofs n s = .next t₁ ∧ Advances s t₁ :=
  ⟨_, rfl, State.putDev_adv (qspiRead_keeps _ _ _ _)⟩

theorem execQspiReadTimeout_adv (p : HostPort) (s : State) :
    ∃ t₁, execQspiReadTimeout p s = .next t₁ ∧ Advances s t₁ := by
  refine ⟨_, rfl, ?_⟩
  repeat' (first
    | with_reducible exact Advances.refl _
    | with_reducible refine Advances.ofDev ?_
    | with_reducible exact Keeps.refl _
    | with_reducible assumption
    | with_reducible apply Dev.setReg_keeps
    | with_reducible apply Dev.setOut_keeps
    | with_reducible apply qspiTimeout_keeps
    | extract_lets
    | (intro _; try beta_reduce)
    | split
    | with_reducible refine frame_keeps ?_ rfl rfl rfl rfl rfl rfl rfl rfl rfl (Nat.le_refl _))

theorem execSetwin_adv (p : HostPort) (v : Word) (s : State) :
    ∃ t₁, execSetwin p v s = .next t₁ ∧ Advances s t₁ := ⟨_, rfl, ite_adv (hostRow_adv ..) (Advances.refl _)⟩

theorem execVecackWrite_adv (p : HostPort) (v : Word) (s : State) :
    ∃ t₁, execVecackWrite p v s = .next t₁ ∧ Advances s t₁ := by
  refine ⟨_, rfl, ?_⟩
  repeat' (first
    | with_reducible exact Advances.refl _
    | with_reducible refine Advances.ofDev ?_
    | with_reducible exact Keeps.refl _
    | with_reducible assumption
    | with_reducible apply Dev.setReg_keeps
    | with_reducible apply Dev.setOut_keeps
    | extract_lets
    | (intro _; try beta_reduce)
    | split
    | with_reducible exact regRow_adv ..
    | with_reducible refine frame_keeps ?_ rfl rfl rfl rfl rfl rfl rfl rfl rfl (Nat.le_refl _))

theorem execMsixSend_adv (p : HostPort) (v : Fin 32) (s : State) :
    ∃ t₁, execMsixSend p v s = .next t₁ ∧ Advances s t₁ := by
  refine ⟨_, rfl, ?_⟩
  repeat' (first
    | with_reducible exact Advances.refl _
    | with_reducible refine Advances.ofDev ?_
    | with_reducible exact Keeps.refl _
    | with_reducible assumption
    | with_reducible apply Dev.setReg_keeps
    | with_reducible apply Dev.setOut_keeps
    | with_reducible apply msixSend_keeps
    | extract_lets
    | (intro _; try beta_reduce)
    | split
    | with_reducible refine frame_keeps ?_ rfl rfl rfl rfl rfl rfl rfl rfl rfl (Nat.le_refl _))

theorem execCplModerationEnd_adv (p : HostPort) (s : State) :
    ∃ t₁, execCplModerationEnd p s = .next t₁ ∧ Advances s t₁ := by
  refine ⟨_, rfl, ?_⟩
  repeat' (first
    | with_reducible exact Advances.refl _
    | with_reducible refine Advances.ofDev ?_
    | with_reducible exact Keeps.refl _
    | with_reducible assumption
    | with_reducible apply Dev.setReg_keeps
    | with_reducible apply Dev.setOut_keeps
    | with_reducible apply Dev.setPort_keeps
    | with_reducible apply msixSend_keeps
    | extract_lets
    | (intro _; try beta_reduce)
    | split
    | with_reducible refine frame_keeps ?_ rfl rfl rfl rfl rfl rfl rfl rfl rfl (Nat.le_refl _))

theorem execPcieLinkChange_adv (p : HostPort) (up : Bool) (s : State) :
    ∃ t₁, execPcieLinkChange p up s = .next t₁ ∧ Advances s t₁ := by
  refine ⟨_, rfl, ?_⟩
  repeat' (first
    | with_reducible exact Advances.refl _
    | with_reducible refine Advances.ofDev ?_
    | with_reducible exact Keeps.refl _
    | with_reducible assumption
    | with_reducible apply Dev.setReg_keeps
    | with_reducible apply Dev.setOut_keeps
    | with_reducible apply linkSet_keeps
    | extract_lets
    | (intro _; try beta_reduce)
    | split
    | with_reducible refine frame_keeps ?_ rfl rfl rfl rfl rfl rfl rfl rfl rfl (Nat.le_refl _))

theorem execPerst_adv (p : HostPort) (s : State) :
    ∃ t₁, execPerst p s = .next t₁ ∧ Advances s t₁ := by
  refine ⟨_, rfl, ?_⟩
  repeat' (first
    | with_reducible exact Advances.refl _
    | with_reducible refine Advances.ofDev ?_
    | with_reducible exact Keeps.refl _
    | with_reducible assumption
    | with_reducible apply Dev.setReg_keeps
    | with_reducible apply Dev.setOut_keeps
    | with_reducible apply Dev.setPort_keeps
    | with_reducible apply linkSet_keeps
    | extract_lets
    | (intro _; try beta_reduce)
    | split
    | with_reducible refine frame_keeps ?_ rfl rfl rfl rfl rfl rfl rfl rfl rfl (Nat.le_refl _))

theorem execPcieConfigRequest_adv (p : HostPort) (req : Sys2Proof.CfgRequest) (s : State) :
    ∃ t₁, execPcieConfigRequest p req s = .next t₁ ∧ Advances s t₁ := by
  refine ⟨_, rfl, ?_⟩
  repeat' (first
    | with_reducible exact Advances.refl _
    | with_reducible refine Advances.ofDev ?_
    | with_reducible exact Keeps.refl _
    | with_reducible assumption
    | with_reducible apply Dev.setReg_keeps
    | with_reducible apply Dev.setOut_keeps
    | with_reducible apply cfgRequest_keeps
    | extract_lets
    | (intro _; try beta_reduce)
    | split
    | with_reducible refine frame_keeps ?_ rfl rfl rfl rfl rfl rfl rfl rfl rfl (Nat.le_refl _))

theorem execRstNPulse_adv (ns : Nat) (x : Sys2Proof.Straps) (s : State) :
    ∃ t₁, execRstNPulse ns x s = .next t₁ ∧ Advances s t₁ := by
  refine ⟨_, rfl, ?_⟩
  repeat' (first
    | with_reducible exact Advances.refl _
    | with_reducible refine Advances.ofDev ?_
    | with_reducible exact Keeps.refl _
    | with_reducible assumption
    | with_reducible apply Dev.setReg_keeps
    | with_reducible apply Dev.setOut_keeps
    | with_reducible apply rstPulse_keeps
    | extract_lets
    | (intro _; try beta_reduce)
    | split
    | with_reducible refine State.restart_adv ?_
    | with_reducible refine frame_keeps ?_ rfl rfl rfl rfl rfl rfl rfl rfl rfl (Nat.le_refl _))

theorem execPgoodFall_adv (x : Sys2Proof.Straps) (s : State) :
    ∃ t₁, execPgoodFall x s = .next t₁ ∧ Advances s t₁ := by
  refine ⟨_, rfl, ?_⟩
  repeat' (first
    | with_reducible exact Advances.refl _
    | with_reducible refine Advances.ofDev ?_
    | with_reducible exact Keeps.refl _
    | with_reducible assumption
    | with_reducible apply Dev.setReg_keeps
    | with_reducible apply Dev.setOut_keeps
    | with_reducible apply mainReset_keeps
    | extract_lets
    | (intro _; try beta_reduce)
    | split
    | with_reducible refine State.restart_adv ?_
    | with_reducible refine frame_keeps ?_ rfl rfl rfl rfl rfl rfl rfl rfl rfl (Nat.le_refl _))

theorem execStartUp_adv (env : Sys2Proof.StartEnv) (s : State) :
    ∃ t₁, execStartUp env s = .next t₁ ∧ Advances s t₁ := by
  refine ⟨_, rfl, ?_⟩
  repeat' (first
    | with_reducible exact Advances.refl _
    | with_reducible refine Advances.ofDev ?_
    | with_reducible exact Keeps.refl _
    | with_reducible assumption
    | with_reducible apply Dev.setReg_keeps
    | with_reducible apply Dev.setOut_keeps
    | with_reducible apply startUp_keeps
    | extract_lets
    | (intro _; try beta_reduce)
    | split
    | with_reducible refine State.restart_adv ?_
    | with_reducible refine frame_keeps ?_ rfl rfl rfl rfl rfl rfl rfl rfl rfl (Nat.le_refl _))

theorem execWake_adv (w : Sys2Proof.WakeSet) (stopTu : Nat) (s : State) :
    ∃ t₁, execWake w stopTu s = .next t₁ ∧ Advances s t₁ := by
  refine ⟨_, rfl, ?_⟩
  repeat' (first
    | with_reducible exact Advances.refl _
    | with_reducible refine Advances.ofDev ?_
    | with_reducible exact Keeps.refl _
    | with_reducible assumption
    | with_reducible apply Dev.setReg_keeps
    | with_reducible apply Dev.setOut_keeps
    | with_reducible apply wake_keeps
    | extract_lets
    | (intro _; try beta_reduce)
    | split
    | with_reducible refine frame_keeps ?_ rfl rfl rfl rfl rfl rfl rfl rfl rfl (Nat.le_refl _))

theorem execWakeTimerExpiry_adv (s : State) :
    ∃ t₁, execWakeTimerExpiry s = .next t₁ ∧ Advances s t₁ := by
  refine ⟨_, rfl, ?_⟩
  repeat' (first
    | with_reducible exact Advances.refl _
    | with_reducible refine Advances.ofDev ?_
    | with_reducible exact Keeps.refl _
    | with_reducible assumption
    | with_reducible apply Dev.setReg_keeps
    | with_reducible apply Dev.setOut_keeps
    | with_reducible apply wakeTimer_keeps
    | extract_lets
    | (intro _; try beta_reduce)
    | split
    | with_reducible refine frame_keeps ?_ rfl rfl rfl rfl rfl rfl rfl rfl rfl (Nat.le_refl _))

theorem execMonInfo_adv (f : MonFrame) (s : State) :
    ∃ t₁, execMonInfo f s = .next t₁ ∧ Advances s t₁ :=
  ⟨_, rfl, monRow_adv _ _ _ _ (monInfo_keeps f s)⟩

theorem execMonRead_adv (f : MonFrame) (s : State) :
    ∃ t₁, execMonRead f s = .next t₁ ∧ Advances s t₁ :=
  ⟨_, rfl, monRow_adv _ _ _ _ (monRead_keeps f s)⟩

theorem execMonCore_adv (f : MonFrame) (s : State) :
    ∃ t₁, execMonCore f s = .next t₁ ∧ Advances s t₁ :=
  ⟨_, rfl, monRow_adv _ _ _ _ (monCore_keeps f s)⟩

theorem execMonTrace_adv (f : MonFrame) (s : State) :
    ∃ t₁, execMonTrace f s = .next t₁ ∧ Advances s t₁ :=
  ⟨_, rfl, monRow_adv _ _ _ _ (monTrace_keeps f s)⟩

theorem execMonWrite_adv (f : MonFrame) (s : State) :
    ∃ t₁, execMonWrite f s = .next t₁ ∧ Advances s t₁ :=
  ⟨_, rfl, monRow_adv _ _ _ _ (monWrite_keeps f s)⟩

theorem execMonUnlock_adv (f : MonFrame) (s : State) :
    ∃ t₁, execMonUnlock f s = .next t₁ ∧ Advances s t₁ :=
  ⟨_, rfl, monRow_adv _ _ _ _ (monUnlock_keeps f s)⟩

theorem execMonClose_adv (f : MonFrame) (s : State) :
    ∃ t₁, execMonClose f s = .next t₁ ∧ Advances s t₁ :=
  ⟨_, rfl, monRow_adv _ _ _ _ (monClose_keeps f s)⟩

theorem execMonIdleTimeout_adv (s : State) :
    ∃ t₁, execMonIdleTimeout s = .next t₁ ∧ Advances s t₁ := by
  refine ⟨_, rfl, ?_⟩
  repeat' (first
    | with_reducible exact Advances.refl _
    | with_reducible refine Advances.ofDev ?_
    | with_reducible exact Keeps.refl _
    | with_reducible assumption
    | with_reducible apply Dev.setReg_keeps
    | with_reducible apply Dev.setOut_keeps
    | with_reducible apply monSessionEnd_keeps
    | extract_lets
    | (intro _; try beta_reduce)
    | split
    | with_reducible refine frame_keeps ?_ rfl rfl rfl rfl rfl rfl rfl rfl rfl (Nat.le_refl _))

theorem execMonHold_adv (f : MonFrame) (s : State) :
    ∃ t₁, execMonHold f s = .next t₁ ∧ Advances s t₁ :=
  ⟨_, rfl, monRow_adv _ _ _ _ (monHold_keeps f s)⟩

theorem execMonStep_adv (f : MonFrame) (s : State) :
    ∃ t₁, execMonStep f s = .next t₁ ∧ Advances s t₁ :=
  ⟨_, rfl, monRow_adv _ _ _ _ (monStep_keeps f s)⟩

theorem execMonFree_adv (f : MonFrame) (s : State) :
    ∃ t₁, execMonFree f s = .next t₁ ∧ Advances s t₁ :=
  ⟨_, rfl, monRow_adv _ _ _ _ (monFree_keeps f s)⟩

theorem execMonStepEnd_adv (s : State) :
    ∃ t₁, execMonStepEnd s = .next t₁ ∧ Advances s t₁ :=
  ⟨_, rfl, ite_adv (tickEdge_adv _ _) (Advances.refl _)⟩

theorem execMonBaud_adv (f : MonFrame) (s : State) :
    ∃ t₁, execMonBaud f s = .next t₁ ∧ Advances s t₁ :=
  ⟨_, rfl, monRow_adv _ _ _ _ (monBaud_keeps f s)⟩

theorem execMonFrameGap_adv (s : State) :
    ∃ t₁, execMonFrameGap s = .next t₁ ∧ Advances s t₁ := by
  refine ⟨_, rfl, ?_⟩
  repeat' (first
    | with_reducible exact Advances.refl _
    | with_reducible refine Advances.ofDev ?_
    | with_reducible exact Keeps.refl _
    | with_reducible assumption
    | with_reducible apply Dev.setReg_keeps
    | with_reducible apply Dev.setOut_keeps
    | extract_lets
    | (intro _; try beta_reduce)
    | split
    | with_reducible refine frame_keeps ?_ rfl rfl rfl rfl rfl rfl rfl rfl rfl (Nat.le_refl _))

theorem execMonFrameError_adv (s : State) :
    ∃ t₁, execMonFrameError s = .next t₁ ∧ Advances s t₁ := by
  refine ⟨_, rfl, ?_⟩
  repeat' (first
    | with_reducible exact Advances.refl _
    | with_reducible refine Advances.ofDev ?_
    | with_reducible exact Keeps.refl _
    | with_reducible assumption
    | with_reducible apply Dev.setReg_keeps
    | with_reducible apply Dev.setOut_keeps
    | with_reducible apply raise_keeps
    | extract_lets
    | (intro _; try beta_reduce)
    | split
    | with_reducible refine frame_keeps ?_ rfl rfl rfl rfl rfl rfl rfl rfl rfl (Nat.le_refl _))

end Sys2Proof.Machine
end

