-- ==== Sys2Proof/Laws/KeepsLimath.lean ====
section
/-! SUPPORT. What every Limath instruction keeps. -/
set_option linter.unusedTactic false
set_option linter.unreachableTactic false
namespace Sys2Proof.Machine
open Sys2Proof (HostPort AccSize Reader Lim MonFrame)

theorem execNop_adv (o : Lim) (s : State) :
    ∃ t₁, execNop o s = .next t₁ ∧ Advances s t₁ := by
  refine ⟨_, rfl, ?_⟩
  repeat' (first
    | with_reducible exact Advances.refl _
    | with_reducible exact limReg_adv ..
    | with_reducible refine Advances.ofDev ?_
    | with_reducible exact Keeps.refl _
    | with_reducible assumption
    | with_reducible apply Dev.setReg_keeps
    | with_reducible apply Dev.setOut_keeps
    | extract_lets
    | (intro _; try beta_reduce)
    | split
    | with_reducible refine frame_keeps ?_ rfl rfl rfl rfl rfl rfl rfl rfl rfl (Nat.le_refl _))

theorem execAdd_adv (o : Lim) (s : State) :
    ∃ t₁, execAdd o s = .next t₁ ∧ Advances s t₁ := by
  refine ⟨_, rfl, ?_⟩
  repeat' (first
    | with_reducible exact Advances.refl _
    | with_reducible exact intR_adv ..
    | with_reducible refine Advances.ofDev ?_
    | with_reducible exact Keeps.refl _
    | with_reducible assumption
    | with_reducible apply Dev.setReg_keeps
    | with_reducible apply Dev.setOut_keeps
    | extract_lets
    | (intro _; try beta_reduce)
    | split
    | with_reducible refine frame_keeps ?_ rfl rfl rfl rfl rfl rfl rfl rfl rfl (Nat.le_refl _))

theorem execAddi_adv (o : Lim) (s : State) :
    ∃ t₁, execAddi o s = .next t₁ ∧ Advances s t₁ := by
  refine ⟨_, rfl, ?_⟩
  repeat' (first
    | with_reducible exact Advances.refl _
    | with_reducible exact intI_adv ..
    | with_reducible refine Advances.ofDev ?_
    | with_reducible exact Keeps.refl _
    | with_reducible assumption
    | with_reducible apply Dev.setReg_keeps
    | with_reducible apply Dev.setOut_keeps
    | extract_lets
    | (intro _; try beta_reduce)
    | split
    | with_reducible refine frame_keeps ?_ rfl rfl rfl rfl rfl rfl rfl rfl rfl (Nat.le_refl _))

theorem execSub_adv (o : Lim) (s : State) :
    ∃ t₁, execSub o s = .next t₁ ∧ Advances s t₁ := by
  refine ⟨_, rfl, ?_⟩
  repeat' (first
    | with_reducible exact Advances.refl _
    | with_reducible exact intR_adv ..
    | with_reducible refine Advances.ofDev ?_
    | with_reducible exact Keeps.refl _
    | with_reducible assumption
    | with_reducible apply Dev.setReg_keeps
    | with_reducible apply Dev.setOut_keeps
    | extract_lets
    | (intro _; try beta_reduce)
    | split
    | with_reducible refine frame_keeps ?_ rfl rfl rfl rfl rfl rfl rfl rfl rfl (Nat.le_refl _))

theorem execAdds_adv (o : Lim) (s : State) :
    ∃ t₁, execAdds o s = .next t₁ ∧ Advances s t₁ := by
  refine ⟨_, rfl, ?_⟩
  repeat' (first
    | with_reducible exact Advances.refl _
    | with_reducible exact intR_adv ..
    | with_reducible refine Advances.ofDev ?_
    | with_reducible exact Keeps.refl _
    | with_reducible assumption
    | with_reducible apply Dev.setReg_keeps
    | with_reducible apply Dev.setOut_keeps
    | extract_lets
    | (intro _; try beta_reduce)
    | split
    | with_reducible refine frame_keeps ?_ rfl rfl rfl rfl rfl rfl rfl rfl rfl (Nat.le_refl _))

theorem execSubs_adv (o : Lim) (s : State) :
    ∃ t₁, execSubs o s = .next t₁ ∧ Advances s t₁ := by
  refine ⟨_, rfl, ?_⟩
  repeat' (first
    | with_reducible exact Advances.refl _
    | with_reducible exact intR_adv ..
    | with_reducible refine Advances.ofDev ?_
    | with_reducible exact Keeps.refl _
    | with_reducible assumption
    | with_reducible apply Dev.setReg_keeps
    | with_reducible apply Dev.setOut_keeps
    | extract_lets
    | (intro _; try beta_reduce)
    | split
    | with_reducible refine frame_keeps ?_ rfl rfl rfl rfl rfl rfl rfl rfl rfl (Nat.le_refl _))

theorem execMul_adv (o : Lim) (s : State) :
    ∃ t₁, execMul o s = .next t₁ ∧ Advances s t₁ := by
  refine ⟨_, rfl, ?_⟩
  repeat' (first
    | with_reducible exact Advances.refl _
    | with_reducible exact intR_adv ..
    | with_reducible refine Advances.ofDev ?_
    | with_reducible exact Keeps.refl _
    | with_reducible assumption
    | with_reducible apply Dev.setReg_keeps
    | with_reducible apply Dev.setOut_keeps
    | extract_lets
    | (intro _; try beta_reduce)
    | split
    | with_reducible refine frame_keeps ?_ rfl rfl rfl rfl rfl rfl rfl rfl rfl (Nat.le_refl _))

theorem execMulh_adv (o : Lim) (s : State) :
    ∃ t₁, execMulh o s = .next t₁ ∧ Advances s t₁ := by
  refine ⟨_, rfl, ?_⟩
  repeat' (first
    | with_reducible exact Advances.refl _
    | with_reducible exact intR_adv ..
    | with_reducible refine Advances.ofDev ?_
    | with_reducible exact Keeps.refl _
    | with_reducible assumption
    | with_reducible apply Dev.setReg_keeps
    | with_reducible apply Dev.setOut_keeps
    | extract_lets
    | (intro _; try beta_reduce)
    | split
    | with_reducible refine frame_keeps ?_ rfl rfl rfl rfl rfl rfl rfl rfl rfl (Nat.le_refl _))

theorem execDiv_adv (o : Lim) (s : State) :
    ∃ t₁, execDiv o s = .next t₁ ∧ Advances s t₁ := by
  refine ⟨_, rfl, ?_⟩
  repeat' (first
    | with_reducible exact Advances.refl _
    | with_reducible exact intR_adv ..
    | with_reducible refine Advances.ofDev ?_
    | with_reducible exact Keeps.refl _
    | with_reducible assumption
    | with_reducible apply Dev.setReg_keeps
    | with_reducible apply Dev.setOut_keeps
    | extract_lets
    | (intro _; try beta_reduce)
    | split
    | with_reducible refine frame_keeps ?_ rfl rfl rfl rfl rfl rfl rfl rfl rfl (Nat.le_refl _))

theorem execRem_adv (o : Lim) (s : State) :
    ∃ t₁, execRem o s = .next t₁ ∧ Advances s t₁ := by
  refine ⟨_, rfl, ?_⟩
  repeat' (first
    | with_reducible exact Advances.refl _
    | with_reducible exact intR_adv ..
    | with_reducible refine Advances.ofDev ?_
    | with_reducible exact Keeps.refl _
    | with_reducible assumption
    | with_reducible apply Dev.setReg_keeps
    | with_reducible apply Dev.setOut_keeps
    | extract_lets
    | (intro _; try beta_reduce)
    | split
    | with_reducible refine frame_keeps ?_ rfl rfl rfl rfl rfl rfl rfl rfl rfl (Nat.le_refl _))

theorem execAnd_adv (o : Lim) (s : State) :
    ∃ t₁, execAnd o s = .next t₁ ∧ Advances s t₁ := by
  refine ⟨_, rfl, ?_⟩
  repeat' (first
    | with_reducible exact Advances.refl _
    | with_reducible exact intR_adv ..
    | with_reducible refine Advances.ofDev ?_
    | with_reducible exact Keeps.refl _
    | with_reducible assumption
    | with_reducible apply Dev.setReg_keeps
    | with_reducible apply Dev.setOut_keeps
    | extract_lets
    | (intro _; try beta_reduce)
    | split
    | with_reducible refine frame_keeps ?_ rfl rfl rfl rfl rfl rfl rfl rfl rfl (Nat.le_refl _))

theorem execOr_adv (o : Lim) (s : State) :
    ∃ t₁, execOr o s = .next t₁ ∧ Advances s t₁ := by
  refine ⟨_, rfl, ?_⟩
  repeat' (first
    | with_reducible exact Advances.refl _
    | with_reducible exact intR_adv ..
    | with_reducible refine Advances.ofDev ?_
    | with_reducible exact Keeps.refl _
    | with_reducible assumption
    | with_reducible apply Dev.setReg_keeps
    | with_reducible apply Dev.setOut_keeps
    | extract_lets
    | (intro _; try beta_reduce)
    | split
    | with_reducible refine frame_keeps ?_ rfl rfl rfl rfl rfl rfl rfl rfl rfl (Nat.le_refl _))

theorem execXor_adv (o : Lim) (s : State) :
    ∃ t₁, execXor o s = .next t₁ ∧ Advances s t₁ := by
  refine ⟨_, rfl, ?_⟩
  repeat' (first
    | with_reducible exact Advances.refl _
    | with_reducible exact intR_adv ..
    | with_reducible refine Advances.ofDev ?_
    | with_reducible exact Keeps.refl _
    | with_reducible assumption
    | with_reducible apply Dev.setReg_keeps
    | with_reducible apply Dev.setOut_keeps
    | extract_lets
    | (intro _; try beta_reduce)
    | split
    | with_reducible refine frame_keeps ?_ rfl rfl rfl rfl rfl rfl rfl rfl rfl (Nat.le_refl _))

theorem execAndi_adv (o : Lim) (s : State) :
    ∃ t₁, execAndi o s = .next t₁ ∧ Advances s t₁ := by
  refine ⟨_, rfl, ?_⟩
  repeat' (first
    | with_reducible exact Advances.refl _
    | with_reducible exact intI_adv ..
    | with_reducible refine Advances.ofDev ?_
    | with_reducible exact Keeps.refl _
    | with_reducible assumption
    | with_reducible apply Dev.setReg_keeps
    | with_reducible apply Dev.setOut_keeps
    | extract_lets
    | (intro _; try beta_reduce)
    | split
    | with_reducible refine frame_keeps ?_ rfl rfl rfl rfl rfl rfl rfl rfl rfl (Nat.le_refl _))

theorem execOri_adv (o : Lim) (s : State) :
    ∃ t₁, execOri o s = .next t₁ ∧ Advances s t₁ := by
  refine ⟨_, rfl, ?_⟩
  repeat' (first
    | with_reducible exact Advances.refl _
    | with_reducible exact intI_adv ..
    | with_reducible refine Advances.ofDev ?_
    | with_reducible exact Keeps.refl _
    | with_reducible assumption
    | with_reducible apply Dev.setReg_keeps
    | with_reducible apply Dev.setOut_keeps
    | extract_lets
    | (intro _; try beta_reduce)
    | split
    | with_reducible refine frame_keeps ?_ rfl rfl rfl rfl rfl rfl rfl rfl rfl (Nat.le_refl _))

theorem execXori_adv (o : Lim) (s : State) :
    ∃ t₁, execXori o s = .next t₁ ∧ Advances s t₁ := by
  refine ⟨_, rfl, ?_⟩
  repeat' (first
    | with_reducible exact Advances.refl _
    | with_reducible exact intI_adv ..
    | with_reducible refine Advances.ofDev ?_
    | with_reducible exact Keeps.refl _
    | with_reducible assumption
    | with_reducible apply Dev.setReg_keeps
    | with_reducible apply Dev.setOut_keeps
    | extract_lets
    | (intro _; try beta_reduce)
    | split
    | with_reducible refine frame_keeps ?_ rfl rfl rfl rfl rfl rfl rfl rfl rfl (Nat.le_refl _))

theorem execShl_adv (o : Lim) (s : State) :
    ∃ t₁, execShl o s = .next t₁ ∧ Advances s t₁ := by
  refine ⟨_, rfl, ?_⟩
  repeat' (first
    | with_reducible exact Advances.refl _
    | with_reducible exact intR_adv ..
    | with_reducible refine Advances.ofDev ?_
    | with_reducible exact Keeps.refl _
    | with_reducible assumption
    | with_reducible apply Dev.setReg_keeps
    | with_reducible apply Dev.setOut_keeps
    | extract_lets
    | (intro _; try beta_reduce)
    | split
    | with_reducible refine frame_keeps ?_ rfl rfl rfl rfl rfl rfl rfl rfl rfl (Nat.le_refl _))

theorem execShr_adv (o : Lim) (s : State) :
    ∃ t₁, execShr o s = .next t₁ ∧ Advances s t₁ := by
  refine ⟨_, rfl, ?_⟩
  repeat' (first
    | with_reducible exact Advances.refl _
    | with_reducible exact intR_adv ..
    | with_reducible refine Advances.ofDev ?_
    | with_reducible exact Keeps.refl _
    | with_reducible assumption
    | with_reducible apply Dev.setReg_keeps
    | with_reducible apply Dev.setOut_keeps
    | extract_lets
    | (intro _; try beta_reduce)
    | split
    | with_reducible refine frame_keeps ?_ rfl rfl rfl rfl rfl rfl rfl rfl rfl (Nat.le_refl _))

theorem execSar_adv (o : Lim) (s : State) :
    ∃ t₁, execSar o s = .next t₁ ∧ Advances s t₁ := by
  refine ⟨_, rfl, ?_⟩
  repeat' (first
    | with_reducible exact Advances.refl _
    | with_reducible exact intR_adv ..
    | with_reducible refine Advances.ofDev ?_
    | with_reducible exact Keeps.refl _
    | with_reducible assumption
    | with_reducible apply Dev.setReg_keeps
    | with_reducible apply Dev.setOut_keeps
    | extract_lets
    | (intro _; try beta_reduce)
    | split
    | with_reducible refine frame_keeps ?_ rfl rfl rfl rfl rfl rfl rfl rfl rfl (Nat.le_refl _))

theorem execShi_adv (o : Lim) (s : State) :
    ∃ t₁, execShi o s = .next t₁ ∧ Advances s t₁ := by
  refine ⟨_, rfl, ?_⟩
  repeat' (first
    | with_reducible exact Advances.refl _
    | with_reducible exact intI_adv ..
    | with_reducible refine Advances.ofDev ?_
    | with_reducible exact Keeps.refl _
    | with_reducible assumption
    | with_reducible apply Dev.setReg_keeps
    | with_reducible apply Dev.setOut_keeps
    | extract_lets
    | (intro _; try beta_reduce)
    | split
    | with_reducible refine frame_keeps ?_ rfl rfl rfl rfl rfl rfl rfl rfl rfl (Nat.le_refl _))

theorem execRot_adv (o : Lim) (s : State) :
    ∃ t₁, execRot o s = .next t₁ ∧ Advances s t₁ := by
  refine ⟨_, rfl, ?_⟩
  repeat' (first
    | with_reducible exact Advances.refl _
    | with_reducible exact intR_adv ..
    | with_reducible refine Advances.ofDev ?_
    | with_reducible exact Keeps.refl _
    | with_reducible assumption
    | with_reducible apply Dev.setReg_keeps
    | with_reducible apply Dev.setOut_keeps
    | extract_lets
    | (intro _; try beta_reduce)
    | split
    | with_reducible refine frame_keeps ?_ rfl rfl rfl rfl rfl rfl rfl rfl rfl (Nat.le_refl _))

theorem execMin_adv (o : Lim) (s : State) :
    ∃ t₁, execMin o s = .next t₁ ∧ Advances s t₁ := by
  refine ⟨_, rfl, ?_⟩
  repeat' (first
    | with_reducible exact Advances.refl _
    | with_reducible exact intR_adv ..
    | with_reducible refine Advances.ofDev ?_
    | with_reducible exact Keeps.refl _
    | with_reducible assumption
    | with_reducible apply Dev.setReg_keeps
    | with_reducible apply Dev.setOut_keeps
    | extract_lets
    | (intro _; try beta_reduce)
    | split
    | with_reducible refine frame_keeps ?_ rfl rfl rfl rfl rfl rfl rfl rfl rfl (Nat.le_refl _))

theorem execMax_adv (o : Lim) (s : State) :
    ∃ t₁, execMax o s = .next t₁ ∧ Advances s t₁ := by
  refine ⟨_, rfl, ?_⟩
  repeat' (first
    | with_reducible exact Advances.refl _
    | with_reducible exact intR_adv ..
    | with_reducible refine Advances.ofDev ?_
    | with_reducible exact Keeps.refl _
    | with_reducible assumption
    | with_reducible apply Dev.setReg_keeps
    | with_reducible apply Dev.setOut_keeps
    | extract_lets
    | (intro _; try beta_reduce)
    | split
    | with_reducible refine frame_keeps ?_ rfl rfl rfl rfl rfl rfl rfl rfl rfl (Nat.le_refl _))

theorem execAbs_adv (o : Lim) (s : State) :
    ∃ t₁, execAbs o s = .next t₁ ∧ Advances s t₁ := by
  refine ⟨_, rfl, ?_⟩
  repeat' (first
    | with_reducible exact Advances.refl _
    | with_reducible exact intI_adv ..
    | with_reducible refine Advances.ofDev ?_
    | with_reducible exact Keeps.refl _
    | with_reducible assumption
    | with_reducible apply Dev.setReg_keeps
    | with_reducible apply Dev.setOut_keeps
    | extract_lets
    | (intro _; try beta_reduce)
    | split
    | with_reducible refine frame_keeps ?_ rfl rfl rfl rfl rfl rfl rfl rfl rfl (Nat.le_refl _))

theorem execClz_adv (o : Lim) (s : State) :
    ∃ t₁, execClz o s = .next t₁ ∧ Advances s t₁ := by
  refine ⟨_, rfl, ?_⟩
  repeat' (first
    | with_reducible exact Advances.refl _
    | with_reducible exact intI_adv ..
    | with_reducible refine Advances.ofDev ?_
    | with_reducible exact Keeps.refl _
    | with_reducible assumption
    | with_reducible apply Dev.setReg_keeps
    | with_reducible apply Dev.setOut_keeps
    | extract_lets
    | (intro _; try beta_reduce)
    | split
    | with_reducible refine frame_keeps ?_ rfl rfl rfl rfl rfl rfl rfl rfl rfl (Nat.le_refl _))

theorem execPopc_adv (o : Lim) (s : State) :
    ∃ t₁, execPopc o s = .next t₁ ∧ Advances s t₁ := by
  refine ⟨_, rfl, ?_⟩
  repeat' (first
    | with_reducible exact Advances.refl _
    | with_reducible exact intI_adv ..
    | with_reducible refine Advances.ofDev ?_
    | with_reducible exact Keeps.refl _
    | with_reducible assumption
    | with_reducible apply Dev.setReg_keeps
    | with_reducible apply Dev.setOut_keeps
    | extract_lets
    | (intro _; try beta_reduce)
    | split
    | with_reducible refine frame_keeps ?_ rfl rfl rfl rfl rfl rfl rfl rfl rfl (Nat.le_refl _))

theorem execBfx_adv (o : Lim) (s : State) :
    ∃ t₁, execBfx o s = .next t₁ ∧ Advances s t₁ := by
  refine ⟨_, rfl, ?_⟩
  repeat' (first
    | with_reducible exact Advances.refl _
    | with_reducible exact intI_adv ..
    | with_reducible refine Advances.ofDev ?_
    | with_reducible exact Keeps.refl _
    | with_reducible assumption
    | with_reducible apply Dev.setReg_keeps
    | with_reducible apply Dev.setOut_keeps
    | extract_lets
    | (intro _; try beta_reduce)
    | split
    | with_reducible refine frame_keeps ?_ rfl rfl rfl rfl rfl rfl rfl rfl rfl (Nat.le_refl _))

theorem execBfi_adv (o : Lim) (s : State) :
    ∃ t₁, execBfi o s = .next t₁ ∧ Advances s t₁ := by
  refine ⟨_, rfl, ?_⟩
  repeat' (first
    | with_reducible exact Advances.refl _
    | with_reducible exact limReg_adv ..
    | with_reducible refine Advances.ofDev ?_
    | with_reducible exact Keeps.refl _
    | with_reducible assumption
    | with_reducible apply Dev.setReg_keeps
    | with_reducible apply Dev.setOut_keeps
    | extract_lets
    | (intro _; try beta_reduce)
    | split
    | with_reducible refine frame_keeps ?_ rfl rfl rfl rfl rfl rfl rfl rfl rfl (Nat.le_refl _))

theorem execClamp_adv (o : Lim) (s : State) :
    ∃ t₁, execClamp o s = .next t₁ ∧ Advances s t₁ := by
  refine ⟨_, rfl, ?_⟩
  repeat' (first
    | with_reducible exact Advances.refl _
    | with_reducible exact limReg_adv ..
    | with_reducible refine Advances.ofDev ?_
    | with_reducible exact Keeps.refl _
    | with_reducible assumption
    | with_reducible apply Dev.setReg_keeps
    | with_reducible apply Dev.setOut_keeps
    | extract_lets
    | (intro _; try beta_reduce)
    | split
    | with_reducible refine frame_keeps ?_ rfl rfl rfl rfl rfl rfl rfl rfl rfl (Nat.le_refl _))

theorem execSel_adv (o : Lim) (s : State) :
    ∃ t₁, execSel o s = .next t₁ ∧ Advances s t₁ := by
  refine ⟨_, rfl, ?_⟩
  repeat' (first
    | with_reducible exact Advances.refl _
    | with_reducible exact limReg_adv ..
    | with_reducible refine Advances.ofDev ?_
    | with_reducible exact Keeps.refl _
    | with_reducible assumption
    | with_reducible apply Dev.setReg_keeps
    | with_reducible apply Dev.setOut_keeps
    | extract_lets
    | (intro _; try beta_reduce)
    | split
    | with_reducible refine frame_keeps ?_ rfl rfl rfl rfl rfl rfl rfl rfl rfl (Nat.le_refl _))

theorem execMovi_adv (o : Lim) (s : State) :
    ∃ t₁, execMovi o s = .next t₁ ∧ Advances s t₁ := by
  refine ⟨_, rfl, ?_⟩
  repeat' (first
    | with_reducible exact Advances.refl _
    | with_reducible exact limReg_adv ..
    | with_reducible refine Advances.ofDev ?_
    | with_reducible exact Keeps.refl _
    | with_reducible assumption
    | with_reducible apply Dev.setReg_keeps
    | with_reducible apply Dev.setOut_keeps
    | extract_lets
    | (intro _; try beta_reduce)
    | split
    | with_reducible refine frame_keeps ?_ rfl rfl rfl rfl rfl rfl rfl rfl rfl (Nat.le_refl _))

theorem execLdc_adv (o : Lim) (s : State) :
    ∃ t₁, execLdc o s = .next t₁ ∧ Advances s t₁ := by
  refine ⟨_, rfl, ?_⟩
  repeat' (first
    | with_reducible exact Advances.refl _
    | with_reducible exact limReg_adv ..
    | with_reducible refine Advances.ofDev ?_
    | with_reducible exact Keeps.refl _
    | with_reducible assumption
    | with_reducible apply Dev.setReg_keeps
    | with_reducible apply Dev.setOut_keeps
    | extract_lets
    | (intro _; try beta_reduce)
    | split
    | with_reducible refine frame_keeps ?_ rfl rfl rfl rfl rfl rfl rfl rfl rfl (Nat.le_refl _))

theorem execCmp_adv (o : Lim) (s : State) :
    ∃ t₁, execCmp o s = .next t₁ ∧ Advances s t₁ := by
  refine ⟨_, rfl, ?_⟩
  repeat' (first
    | with_reducible exact Advances.refl _
    | with_reducible exact limReg_adv ..
    | with_reducible refine Advances.ofDev ?_
    | with_reducible exact Keeps.refl _
    | with_reducible assumption
    | with_reducible apply Dev.setReg_keeps
    | with_reducible apply Dev.setOut_keeps
    | extract_lets
    | (intro _; try beta_reduce)
    | split
    | with_reducible refine frame_keeps ?_ rfl rfl rfl rfl rfl rfl rfl rfl rfl (Nat.le_refl _))

theorem execCmpi_adv (o : Lim) (s : State) :
    ∃ t₁, execCmpi o s = .next t₁ ∧ Advances s t₁ := by
  refine ⟨_, rfl, ?_⟩
  repeat' (first
    | with_reducible exact Advances.refl _
    | with_reducible exact limReg_adv ..
    | with_reducible refine Advances.ofDev ?_
    | with_reducible exact Keeps.refl _
    | with_reducible assumption
    | with_reducible apply Dev.setReg_keeps
    | with_reducible apply Dev.setOut_keeps
    | extract_lets
    | (intro _; try beta_reduce)
    | split
    | with_reducible refine frame_keeps ?_ rfl rfl rfl rfl rfl rfl rfl rfl rfl (Nat.le_refl _))

theorem execFcmp_adv (o : Lim) (s : State) :
    ∃ t₁, execFcmp o s = .next t₁ ∧ Advances s t₁ := by
  refine ⟨_, rfl, ?_⟩
  repeat' (first
    | with_reducible exact Advances.refl _
    | with_reducible exact limReg_adv ..
    | with_reducible refine Advances.ofDev ?_
    | with_reducible exact Keeps.refl _
    | with_reducible assumption
    | with_reducible apply Dev.setReg_keeps
    | with_reducible apply Dev.setOut_keeps
    | extract_lets
    | (intro _; try beta_reduce)
    | split
    | with_reducible refine frame_keeps ?_ rfl rfl rfl rfl rfl rfl rfl rfl rfl (Nat.le_refl _))

theorem execPlog_adv (o : Lim) (s : State) :
    ∃ t₁, execPlog o s = .next t₁ ∧ Advances s t₁ := by
  refine ⟨_, rfl, ?_⟩
  repeat' (first
    | with_reducible exact Advances.refl _
    | with_reducible exact limReg_adv ..
    | with_reducible refine Advances.ofDev ?_
    | with_reducible exact Keeps.refl _
    | with_reducible assumption
    | with_reducible apply Dev.setReg_keeps
    | with_reducible apply Dev.setOut_keeps
    | extract_lets
    | (intro _; try beta_reduce)
    | split
    | with_reducible refine frame_keeps ?_ rfl rfl rfl rfl rfl rfl rfl rfl rfl (Nat.le_refl _))

theorem execPmov_adv (o : Lim) (s : State) :
    ∃ t₁, execPmov o s = .next t₁ ∧ Advances s t₁ := by
  refine ⟨_, rfl, ?_⟩
  repeat' (first
    | with_reducible exact Advances.refl _
    | with_reducible exact limReg_adv ..
    | with_reducible refine Advances.ofDev ?_
    | with_reducible exact Keeps.refl _
    | with_reducible assumption
    | with_reducible apply Dev.setReg_keeps
    | with_reducible apply Dev.setOut_keeps
    | extract_lets
    | (intro _; try beta_reduce)
    | split
    | with_reducible refine frame_keeps ?_ rfl rfl rfl rfl rfl rfl rfl rfl rfl (Nat.le_refl _))

theorem execTst_adv (o : Lim) (s : State) :
    ∃ t₁, execTst o s = .next t₁ ∧ Advances s t₁ := by
  refine ⟨_, rfl, ?_⟩
  repeat' (first
    | with_reducible exact Advances.refl _
    | with_reducible exact limReg_adv ..
    | with_reducible refine Advances.ofDev ?_
    | with_reducible exact Keeps.refl _
    | with_reducible assumption
    | with_reducible apply Dev.setReg_keeps
    | with_reducible apply Dev.setOut_keeps
    | extract_lets
    | (intro _; try beta_reduce)
    | split
    | with_reducible refine frame_keeps ?_ rfl rfl rfl rfl rfl rfl rfl rfl rfl (Nat.le_refl _))

theorem execMac_adv (o : Lim) (s : State) :
    ∃ t₁, execMac o s = .next t₁ ∧ Advances s t₁ := by
  refine ⟨_, rfl, ?_⟩
  repeat' (first
    | with_reducible exact Advances.refl _
    | with_reducible exact limReg_adv ..
    | with_reducible refine macDone_adv _ _ ?_
    | with_reducible refine Advances.ofDev ?_
    | with_reducible exact Keeps.refl _
    | with_reducible assumption
    | with_reducible apply Dev.setReg_keeps
    | with_reducible apply Dev.setOut_keeps
    | extract_lets
    | (intro _; try beta_reduce)
    | split
    | with_reducible refine frame_keeps ?_ rfl rfl rfl rfl rfl rfl rfl rfl rfl (Nat.le_refl _))

theorem execMach_adv (o : Lim) (s : State) :
    ∃ t₁, execMach o s = .next t₁ ∧ Advances s t₁ := by
  refine ⟨_, rfl, ?_⟩
  repeat' (first
    | with_reducible exact Advances.refl _
    | with_reducible exact limReg_adv ..
    | with_reducible refine macDone_adv _ _ ?_
    | with_reducible refine Advances.ofDev ?_
    | with_reducible exact Keeps.refl _
    | with_reducible assumption
    | with_reducible apply Dev.setReg_keeps
    | with_reducible apply Dev.setOut_keeps
    | extract_lets
    | (intro _; try beta_reduce)
    | split
    | with_reducible refine frame_keeps ?_ rfl rfl rfl rfl rfl rfl rfl rfl rfl (Nat.le_refl _))

theorem execAclr_adv (o : Lim) (s : State) :
    ∃ t₁, execAclr o s = .next t₁ ∧ Advances s t₁ := by
  refine ⟨_, rfl, ?_⟩
  repeat' (first
    | with_reducible exact Advances.refl _
    | with_reducible exact limReg_adv ..
    | with_reducible refine Advances.ofDev ?_
    | with_reducible exact Keeps.refl _
    | with_reducible assumption
    | with_reducible apply Dev.setReg_keeps
    | with_reducible apply Dev.setOut_keeps
    | extract_lets
    | (intro _; try beta_reduce)
    | split
    | with_reducible refine frame_keeps ?_ rfl rfl rfl rfl rfl rfl rfl rfl rfl (Nat.le_refl _))

theorem execAset_adv (o : Lim) (s : State) :
    ∃ t₁, execAset o s = .next t₁ ∧ Advances s t₁ := by
  refine ⟨_, rfl, ?_⟩
  repeat' (first
    | with_reducible exact Advances.refl _
    | with_reducible exact limReg_adv ..
    | with_reducible refine Advances.ofDev ?_
    | with_reducible exact Keeps.refl _
    | with_reducible assumption
    | with_reducible apply Dev.setReg_keeps
    | with_reducible apply Dev.setOut_keeps
    | extract_lets
    | (intro _; try beta_reduce)
    | split
    | with_reducible refine frame_keeps ?_ rfl rfl rfl rfl rfl rfl rfl rfl rfl (Nat.le_refl _))

theorem execAext_adv (o : Lim) (s : State) :
    ∃ t₁, execAext o s = .next t₁ ∧ Advances s t₁ := by
  refine ⟨_, rfl, ?_⟩
  repeat' (first
    | with_reducible exact Advances.refl _
    | with_reducible exact limReg_adv ..
    | with_reducible refine Advances.ofDev ?_
    | with_reducible exact Keeps.refl _
    | with_reducible assumption
    | with_reducible apply Dev.setReg_keeps
    | with_reducible apply Dev.setOut_keeps
    | extract_lets
    | (intro _; try beta_reduce)
    | split
    | with_reducible refine frame_keeps ?_ rfl rfl rfl rfl rfl rfl rfl rfl rfl (Nat.le_refl _))

theorem execAadd_adv (o : Lim) (s : State) :
    ∃ t₁, execAadd o s = .next t₁ ∧ Advances s t₁ := by
  refine ⟨_, rfl, ?_⟩
  repeat' (first
    | with_reducible exact Advances.refl _
    | with_reducible exact limReg_adv ..
    | with_reducible refine Advances.ofDev ?_
    | with_reducible exact Keeps.refl _
    | with_reducible assumption
    | with_reducible apply Dev.setReg_keeps
    | with_reducible apply Dev.setOut_keeps
    | extract_lets
    | (intro _; try beta_reduce)
    | split
    | with_reducible refine frame_keeps ?_ rfl rfl rfl rfl rfl rfl rfl rfl rfl (Nat.le_refl _))

theorem execAshl_adv (o : Lim) (s : State) :
    ∃ t₁, execAshl o s = .next t₁ ∧ Advances s t₁ := by
  refine ⟨_, rfl, ?_⟩
  repeat' (first
    | with_reducible exact Advances.refl _
    | with_reducible exact limReg_adv ..
    | with_reducible refine Advances.ofDev ?_
    | with_reducible exact Keeps.refl _
    | with_reducible assumption
    | with_reducible apply Dev.setReg_keeps
    | with_reducible apply Dev.setOut_keeps
    | extract_lets
    | (intro _; try beta_reduce)
    | split
    | with_reducible refine frame_keeps ?_ rfl rfl rfl rfl rfl rfl rfl rfl rfl (Nat.le_refl _))

theorem execAmov_adv (o : Lim) (s : State) :
    ∃ t₁, execAmov o s = .next t₁ ∧ Advances s t₁ := by
  refine ⟨_, rfl, ?_⟩
  repeat' (first
    | with_reducible exact Advances.refl _
    | with_reducible exact limReg_adv ..
    | with_reducible refine Advances.ofDev ?_
    | with_reducible exact Keeps.refl _
    | with_reducible assumption
    | with_reducible apply Dev.setReg_keeps
    | with_reducible apply Dev.setOut_keeps
    | extract_lets
    | (intro _; try beta_reduce)
    | split
    | with_reducible refine frame_keeps ?_ rfl rfl rfl rfl rfl rfl rfl rfl rfl (Nat.le_refl _))

theorem execFadd_adv (o : Lim) (s : State) :
    ∃ t₁, execFadd o s = .next t₁ ∧ Advances s t₁ := by
  refine ⟨_, rfl, ?_⟩
  repeat' (first
    | with_reducible exact Advances.refl _
    | with_reducible exact fltR_adv ..
    | with_reducible refine Advances.ofDev ?_
    | with_reducible exact Keeps.refl _
    | with_reducible assumption
    | with_reducible apply Dev.setReg_keeps
    | with_reducible apply Dev.setOut_keeps
    | extract_lets
    | (intro _; try beta_reduce)
    | split
    | with_reducible refine frame_keeps ?_ rfl rfl rfl rfl rfl rfl rfl rfl rfl (Nat.le_refl _))

theorem execFsub_adv (o : Lim) (s : State) :
    ∃ t₁, execFsub o s = .next t₁ ∧ Advances s t₁ := by
  refine ⟨_, rfl, ?_⟩
  repeat' (first
    | with_reducible exact Advances.refl _
    | with_reducible exact fltR_adv ..
    | with_reducible refine Advances.ofDev ?_
    | with_reducible exact Keeps.refl _
    | with_reducible assumption
    | with_reducible apply Dev.setReg_keeps
    | with_reducible apply Dev.setOut_keeps
    | extract_lets
    | (intro _; try beta_reduce)
    | split
    | with_reducible refine frame_keeps ?_ rfl rfl rfl rfl rfl rfl rfl rfl rfl (Nat.le_refl _))

theorem execFmul_adv (o : Lim) (s : State) :
    ∃ t₁, execFmul o s = .next t₁ ∧ Advances s t₁ := by
  refine ⟨_, rfl, ?_⟩
  repeat' (first
    | with_reducible exact Advances.refl _
    | with_reducible exact fltR_adv ..
    | with_reducible refine Advances.ofDev ?_
    | with_reducible exact Keeps.refl _
    | with_reducible assumption
    | with_reducible apply Dev.setReg_keeps
    | with_reducible apply Dev.setOut_keeps
    | extract_lets
    | (intro _; try beta_reduce)
    | split
    | with_reducible refine frame_keeps ?_ rfl rfl rfl rfl rfl rfl rfl rfl rfl (Nat.le_refl _))

theorem execFma_adv (o : Lim) (s : State) :
    ∃ t₁, execFma o s = .next t₁ ∧ Advances s t₁ := by
  refine ⟨_, rfl, ?_⟩
  repeat' (first
    | with_reducible exact Advances.refl _
    | with_reducible exact limReg_adv ..
    | with_reducible refine Advances.ofDev ?_
    | with_reducible exact Keeps.refl _
    | with_reducible assumption
    | with_reducible apply Dev.setReg_keeps
    | with_reducible apply Dev.setOut_keeps
    | extract_lets
    | (intro _; try beta_reduce)
    | split
    | with_reducible refine frame_keeps ?_ rfl rfl rfl rfl rfl rfl rfl rfl rfl (Nat.le_refl _))

theorem execFdiv_adv (o : Lim) (s : State) :
    ∃ t₁, execFdiv o s = .next t₁ ∧ Advances s t₁ := by
  refine ⟨_, rfl, ?_⟩
  repeat' (first
    | with_reducible exact Advances.refl _
    | with_reducible exact fltR_adv ..
    | with_reducible refine Advances.ofDev ?_
    | with_reducible exact Keeps.refl _
    | with_reducible assumption
    | with_reducible apply Dev.setReg_keeps
    | with_reducible apply Dev.setOut_keeps
    | extract_lets
    | (intro _; try beta_reduce)
    | split
    | with_reducible refine frame_keeps ?_ rfl rfl rfl rfl rfl rfl rfl rfl rfl (Nat.le_refl _))

theorem execFsqrt_adv (o : Lim) (s : State) :
    ∃ t₁, execFsqrt o s = .next t₁ ∧ Advances s t₁ := by
  refine ⟨_, rfl, ?_⟩
  repeat' (first
    | with_reducible exact Advances.refl _
    | with_reducible exact fltU_adv ..
    | with_reducible refine Advances.ofDev ?_
    | with_reducible exact Keeps.refl _
    | with_reducible assumption
    | with_reducible apply Dev.setReg_keeps
    | with_reducible apply Dev.setOut_keeps
    | extract_lets
    | (intro _; try beta_reduce)
    | split
    | with_reducible refine frame_keeps ?_ rfl rfl rfl rfl rfl rfl rfl rfl rfl (Nat.le_refl _))

theorem execFmin_adv (o : Lim) (s : State) :
    ∃ t₁, execFmin o s = .next t₁ ∧ Advances s t₁ := by
  refine ⟨_, rfl, ?_⟩
  repeat' (first
    | with_reducible exact Advances.refl _
    | with_reducible exact fltR_adv ..
    | with_reducible refine Advances.ofDev ?_
    | with_reducible exact Keeps.refl _
    | with_reducible assumption
    | with_reducible apply Dev.setReg_keeps
    | with_reducible apply Dev.setOut_keeps
    | extract_lets
    | (intro _; try beta_reduce)
    | split
    | with_reducible refine frame_keeps ?_ rfl rfl rfl rfl rfl rfl rfl rfl rfl (Nat.le_refl _))

theorem execFmax_adv (o : Lim) (s : State) :
    ∃ t₁, execFmax o s = .next t₁ ∧ Advances s t₁ := by
  refine ⟨_, rfl, ?_⟩
  repeat' (first
    | with_reducible exact Advances.refl _
    | with_reducible exact fltR_adv ..
    | with_reducible refine Advances.ofDev ?_
    | with_reducible exact Keeps.refl _
    | with_reducible assumption
    | with_reducible apply Dev.setReg_keeps
    | with_reducible apply Dev.setOut_keeps
    | extract_lets
    | (intro _; try beta_reduce)
    | split
    | with_reducible refine frame_keeps ?_ rfl rfl rfl rfl rfl rfl rfl rfl rfl (Nat.le_refl _))

theorem execFabs_adv (o : Lim) (s : State) :
    ∃ t₁, execFabs o s = .next t₁ ∧ Advances s t₁ := by
  refine ⟨_, rfl, ?_⟩
  repeat' (first
    | with_reducible exact Advances.refl _
    | with_reducible exact fltU_adv ..
    | with_reducible refine Advances.ofDev ?_
    | with_reducible exact Keeps.refl _
    | with_reducible assumption
    | with_reducible apply Dev.setReg_keeps
    | with_reducible apply Dev.setOut_keeps
    | extract_lets
    | (intro _; try beta_reduce)
    | split
    | with_reducible refine frame_keeps ?_ rfl rfl rfl rfl rfl rfl rfl rfl rfl (Nat.le_refl _))

theorem execFcvt_adv (o : Lim) (s : State) :
    ∃ t₁, execFcvt o s = .next t₁ ∧ Advances s t₁ := by
  refine ⟨_, rfl, ?_⟩
  repeat' (first
    | with_reducible exact Advances.refl _
    | with_reducible exact limReg_adv ..
    | with_reducible refine Advances.ofDev ?_
    | with_reducible exact Keeps.refl _
    | with_reducible assumption
    | with_reducible apply Dev.setReg_keeps
    | with_reducible apply Dev.setOut_keeps
    | extract_lets
    | (intro _; try beta_reduce)
    | split
    | with_reducible refine frame_keeps ?_ rfl rfl rfl rfl rfl rfl rfl rfl rfl (Nat.le_refl _))

theorem execFmov_adv (o : Lim) (s : State) :
    ∃ t₁, execFmov o s = .next t₁ ∧ Advances s t₁ := by
  refine ⟨_, rfl, ?_⟩
  repeat' (first
    | with_reducible exact Advances.refl _
    | with_reducible exact limReg_adv ..
    | with_reducible refine Advances.ofDev ?_
    | with_reducible exact Keeps.refl _
    | with_reducible assumption
    | with_reducible apply Dev.setReg_keeps
    | with_reducible apply Dev.setOut_keeps
    | extract_lets
    | (intro _; try beta_reduce)
    | split
    | with_reducible refine frame_keeps ?_ rfl rfl rfl rfl rfl rfl rfl rfl rfl (Nat.le_refl _))

theorem execFclamp_adv (o : Lim) (s : State) :
    ∃ t₁, execFclamp o s = .next t₁ ∧ Advances s t₁ := by
  refine ⟨_, rfl, ?_⟩
  repeat' (first
    | with_reducible exact Advances.refl _
    | with_reducible exact limReg_adv ..
    | with_reducible refine Advances.ofDev ?_
    | with_reducible exact Keeps.refl _
    | with_reducible assumption
    | with_reducible apply Dev.setReg_keeps
    | with_reducible apply Dev.setOut_keeps
    | extract_lets
    | (intro _; try beta_reduce)
    | split
    | with_reducible refine frame_keeps ?_ rfl rfl rfl rfl rfl rfl rfl rfl rfl (Nat.le_refl _))

theorem execFldc_adv (o : Lim) (s : State) :
    ∃ t₁, execFldc o s = .next t₁ ∧ Advances s t₁ := by
  refine ⟨_, rfl, ?_⟩
  repeat' (first
    | with_reducible exact Advances.refl _
    | with_reducible exact limReg_adv ..
    | with_reducible refine Advances.ofDev ?_
    | with_reducible exact Keeps.refl _
    | with_reducible assumption
    | with_reducible apply Dev.setReg_keeps
    | with_reducible apply Dev.setOut_keeps
    | extract_lets
    | (intro _; try beta_reduce)
    | split
    | with_reducible refine frame_keeps ?_ rfl rfl rfl rfl rfl rfl rfl rfl rfl (Nat.le_refl _))

theorem execFrsq_adv (o : Lim) (s : State) :
    ∃ t₁, execFrsq o s = .next t₁ ∧ Advances s t₁ := by
  refine ⟨_, rfl, ?_⟩
  repeat' (first
    | with_reducible exact Advances.refl _
    | with_reducible exact fltU_adv ..
    | with_reducible refine Advances.ofDev ?_
    | with_reducible exact Keeps.refl _
    | with_reducible assumption
    | with_reducible apply Dev.setReg_keeps
    | with_reducible apply Dev.setOut_keeps
    | extract_lets
    | (intro _; try beta_reduce)
    | split
    | with_reducible refine frame_keeps ?_ rfl rfl rfl rfl rfl rfl rfl rfl rfl (Nat.le_refl _))

theorem execFsc_adv (o : Lim) (s : State) :
    ∃ t₁, execFsc o s = .next t₁ ∧ Advances s t₁ := by
  refine ⟨_, rfl, ?_⟩
  repeat' (first
    | with_reducible exact Advances.refl _
    | with_reducible exact limReg_adv ..
    | with_reducible refine Advances.ofDev ?_
    | with_reducible exact Keeps.refl _
    | with_reducible assumption
    | with_reducible apply Dev.setReg_keeps
    | with_reducible apply Dev.setOut_keeps
    | extract_lets
    | (intro _; try beta_reduce)
    | split
    | with_reducible refine frame_keeps ?_ rfl rfl rfl rfl rfl rfl rfl rfl rfl (Nat.le_refl _))

theorem execLdw_adv (o : Lim) (s : State) :
    ∃ t₁, execLdw o s = .next t₁ ∧ Advances s t₁ := by
  refine ⟨_, rfl, ?_⟩
  repeat' (first
    | with_reducible exact Advances.refl _
    | with_reducible exact loadLocal_adv ..
    | with_reducible refine Advances.ofDev ?_
    | with_reducible exact Keeps.refl _
    | with_reducible assumption
    | with_reducible apply Dev.setReg_keeps
    | with_reducible apply Dev.setOut_keeps
    | extract_lets
    | (intro _; try beta_reduce)
    | split
    | with_reducible refine frame_keeps ?_ rfl rfl rfl rfl rfl rfl rfl rfl rfl (Nat.le_refl _))

theorem execLdh_adv (o : Lim) (s : State) :
    ∃ t₁, execLdh o s = .next t₁ ∧ Advances s t₁ := by
  refine ⟨_, rfl, ?_⟩
  repeat' (first
    | with_reducible exact Advances.refl _
    | with_reducible exact loadLocal_adv ..
    | with_reducible refine Advances.ofDev ?_
    | with_reducible exact Keeps.refl _
    | with_reducible assumption
    | with_reducible apply Dev.setReg_keeps
    | with_reducible apply Dev.setOut_keeps
    | extract_lets
    | (intro _; try beta_reduce)
    | split
    | with_reducible refine frame_keeps ?_ rfl rfl rfl rfl rfl rfl rfl rfl rfl (Nat.le_refl _))

theorem execLdhu_adv (o : Lim) (s : State) :
    ∃ t₁, execLdhu o s = .next t₁ ∧ Advances s t₁ := by
  refine ⟨_, rfl, ?_⟩
  repeat' (first
    | with_reducible exact Advances.refl _
    | with_reducible exact loadLocal_adv ..
    | with_reducible refine Advances.ofDev ?_
    | with_reducible exact Keeps.refl _
    | with_reducible assumption
    | with_reducible apply Dev.setReg_keeps
    | with_reducible apply Dev.setOut_keeps
    | extract_lets
    | (intro _; try beta_reduce)
    | split
    | with_reducible refine frame_keeps ?_ rfl rfl rfl rfl rfl rfl rfl rfl rfl (Nat.le_refl _))

theorem execLdb_adv (o : Lim) (s : State) :
    ∃ t₁, execLdb o s = .next t₁ ∧ Advances s t₁ := by
  refine ⟨_, rfl, ?_⟩
  repeat' (first
    | with_reducible exact Advances.refl _
    | with_reducible exact loadLocal_adv ..
    | with_reducible refine Advances.ofDev ?_
    | with_reducible exact Keeps.refl _
    | with_reducible assumption
    | with_reducible apply Dev.setReg_keeps
    | with_reducible apply Dev.setOut_keeps
    | extract_lets
    | (intro _; try beta_reduce)
    | split
    | with_reducible refine frame_keeps ?_ rfl rfl rfl rfl rfl rfl rfl rfl rfl (Nat.le_refl _))

theorem execLdbu_adv (o : Lim) (s : State) :
    ∃ t₁, execLdbu o s = .next t₁ ∧ Advances s t₁ := by
  refine ⟨_, rfl, ?_⟩
  repeat' (first
    | with_reducible exact Advances.refl _
    | with_reducible exact loadLocal_adv ..
    | with_reducible refine Advances.ofDev ?_
    | with_reducible exact Keeps.refl _
    | with_reducible assumption
    | with_reducible apply Dev.setReg_keeps
    | with_reducible apply Dev.setOut_keeps
    | extract_lets
    | (intro _; try beta_reduce)
    | split
    | with_reducible refine frame_keeps ?_ rfl rfl rfl rfl rfl rfl rfl rfl rfl (Nat.le_refl _))

theorem execLdd_adv (o : Lim) (s : State) :
    ∃ t₁, execLdd o s = .next t₁ ∧ Advances s t₁ := by
  refine ⟨_, rfl, ?_⟩
  repeat' (first
    | with_reducible exact Advances.refl _
    | with_reducible exact loadLocal_adv ..
    | with_reducible refine Advances.ofDev ?_
    | with_reducible exact Keeps.refl _
    | with_reducible assumption
    | with_reducible apply Dev.setReg_keeps
    | with_reducible apply Dev.setOut_keeps
    | extract_lets
    | (intro _; try beta_reduce)
    | split
    | with_reducible refine frame_keeps ?_ rfl rfl rfl rfl rfl rfl rfl rfl rfl (Nat.le_refl _))

theorem execStw_adv (o : Lim) (s : State) :
    ∃ t₁, execStw o s = .next t₁ ∧ Advances s t₁ := by
  refine ⟨_, rfl, ?_⟩
  repeat' (first
    | with_reducible exact Advances.refl _
    | with_reducible exact storeLocal_adv ..
    | with_reducible refine Advances.ofDev ?_
    | with_reducible exact Keeps.refl _
    | with_reducible assumption
    | with_reducible apply Dev.setReg_keeps
    | with_reducible apply Dev.setOut_keeps
    | extract_lets
    | (intro _; try beta_reduce)
    | split
    | with_reducible refine frame_keeps ?_ rfl rfl rfl rfl rfl rfl rfl rfl rfl (Nat.le_refl _))

theorem execSth_adv (o : Lim) (s : State) :
    ∃ t₁, execSth o s = .next t₁ ∧ Advances s t₁ := by
  refine ⟨_, rfl, ?_⟩
  repeat' (first
    | with_reducible exact Advances.refl _
    | with_reducible exact storeLocal_adv ..
    | with_reducible refine Advances.ofDev ?_
    | with_reducible exact Keeps.refl _
    | with_reducible assumption
    | with_reducible apply Dev.setReg_keeps
    | with_reducible apply Dev.setOut_keeps
    | extract_lets
    | (intro _; try beta_reduce)
    | split
    | with_reducible refine frame_keeps ?_ rfl rfl rfl rfl rfl rfl rfl rfl rfl (Nat.le_refl _))

theorem execStb_adv (o : Lim) (s : State) :
    ∃ t₁, execStb o s = .next t₁ ∧ Advances s t₁ := by
  refine ⟨_, rfl, ?_⟩
  repeat' (first
    | with_reducible exact Advances.refl _
    | with_reducible exact storeLocal_adv ..
    | with_reducible refine Advances.ofDev ?_
    | with_reducible exact Keeps.refl _
    | with_reducible assumption
    | with_reducible apply Dev.setReg_keeps
    | with_reducible apply Dev.setOut_keeps
    | extract_lets
    | (intro _; try beta_reduce)
    | split
    | with_reducible refine frame_keeps ?_ rfl rfl rfl rfl rfl rfl rfl rfl rfl (Nat.le_refl _))

theorem execStd_adv (o : Lim) (s : State) :
    ∃ t₁, execStd o s = .next t₁ ∧ Advances s t₁ := by
  refine ⟨_, rfl, ?_⟩
  repeat' (first
    | with_reducible exact Advances.refl _
    | with_reducible exact storeLocal_adv ..
    | with_reducible refine Advances.ofDev ?_
    | with_reducible exact Keeps.refl _
    | with_reducible assumption
    | with_reducible apply Dev.setReg_keeps
    | with_reducible apply Dev.setOut_keeps
    | extract_lets
    | (intro _; try beta_reduce)
    | split
    | with_reducible refine frame_keeps ?_ rfl rfl rfl rfl rfl rfl rfl rfl rfl (Nat.le_refl _))

theorem execFld_adv (o : Lim) (s : State) :
    ∃ t₁, execFld o s = .next t₁ ∧ Advances s t₁ := by
  refine ⟨_, rfl, ?_⟩
  repeat' (first
    | with_reducible exact Advances.refl _
    | with_reducible exact loadLocal_adv ..
    | with_reducible refine Advances.ofDev ?_
    | with_reducible exact Keeps.refl _
    | with_reducible assumption
    | with_reducible apply Dev.setReg_keeps
    | with_reducible apply Dev.setOut_keeps
    | extract_lets
    | (intro _; try beta_reduce)
    | split
    | with_reducible refine frame_keeps ?_ rfl rfl rfl rfl rfl rfl rfl rfl rfl (Nat.le_refl _))

theorem execFst_adv (o : Lim) (s : State) :
    ∃ t₁, execFst o s = .next t₁ ∧ Advances s t₁ := by
  refine ⟨_, rfl, ?_⟩
  repeat' (first
    | with_reducible exact Advances.refl _
    | with_reducible exact storeLocal_adv ..
    | with_reducible refine Advances.ofDev ?_
    | with_reducible exact Keeps.refl _
    | with_reducible assumption
    | with_reducible apply Dev.setReg_keeps
    | with_reducible apply Dev.setOut_keeps
    | extract_lets
    | (intro _; try beta_reduce)
    | split
    | with_reducible refine frame_keeps ?_ rfl rfl rfl rfl rfl rfl rfl rfl rfl (Nat.le_refl _))

theorem execLdsw_adv (o : Lim) (s : State) :
    ∃ t₁, execLdsw o s = .next t₁ ∧ Advances s t₁ := by
  refine ⟨_, rfl, ?_⟩
  repeat' (first
    | with_reducible exact Advances.refl _
    | with_reducible exact loadSram_adv ..
    | with_reducible refine Advances.ofDev ?_
    | with_reducible exact Keeps.refl _
    | with_reducible assumption
    | with_reducible apply Dev.setReg_keeps
    | with_reducible apply Dev.setOut_keeps
    | extract_lets
    | (intro _; try beta_reduce)
    | split
    | with_reducible refine frame_keeps ?_ rfl rfl rfl rfl rfl rfl rfl rfl rfl (Nat.le_refl _))

theorem execLdsd_adv (o : Lim) (s : State) :
    ∃ t₁, execLdsd o s = .next t₁ ∧ Advances s t₁ := by
  refine ⟨_, rfl, ?_⟩
  repeat' (first
    | with_reducible exact Advances.refl _
    | with_reducible exact loadSram_adv ..
    | with_reducible refine Advances.ofDev ?_
    | with_reducible exact Keeps.refl _
    | with_reducible assumption
    | with_reducible apply Dev.setReg_keeps
    | with_reducible apply Dev.setOut_keeps
    | extract_lets
    | (intro _; try beta_reduce)
    | split
    | with_reducible refine frame_keeps ?_ rfl rfl rfl rfl rfl rfl rfl rfl rfl (Nat.le_refl _))

theorem execStsw_adv (o : Lim) (s : State) :
    ∃ t₁, execStsw o s = .next t₁ ∧ Advances s t₁ := by
  refine ⟨_, rfl, ?_⟩
  repeat' (first
    | with_reducible exact Advances.refl _
    | with_reducible exact storeSram_adv ..
    | with_reducible refine Advances.ofDev ?_
    | with_reducible exact Keeps.refl _
    | with_reducible assumption
    | with_reducible apply Dev.setReg_keeps
    | with_reducible apply Dev.setOut_keeps
    | extract_lets
    | (intro _; try beta_reduce)
    | split
    | with_reducible refine frame_keeps ?_ rfl rfl rfl rfl rfl rfl rfl rfl rfl (Nat.le_refl _))

theorem execStsd_adv (o : Lim) (s : State) :
    ∃ t₁, execStsd o s = .next t₁ ∧ Advances s t₁ := by
  refine ⟨_, rfl, ?_⟩
  repeat' (first
    | with_reducible exact Advances.refl _
    | with_reducible exact storeSram_adv ..
    | with_reducible refine Advances.ofDev ?_
    | with_reducible exact Keeps.refl _
    | with_reducible assumption
    | with_reducible apply Dev.setReg_keeps
    | with_reducible apply Dev.setOut_keeps
    | extract_lets
    | (intro _; try beta_reduce)
    | split
    | with_reducible refine frame_keeps ?_ rfl rfl rfl rfl rfl rfl rfl rfl rfl (Nat.le_refl _))

theorem execFlds_adv (o : Lim) (s : State) :
    ∃ t₁, execFlds o s = .next t₁ ∧ Advances s t₁ := by
  refine ⟨_, rfl, ?_⟩
  repeat' (first
    | with_reducible exact Advances.refl _
    | with_reducible exact loadSram_adv ..
    | with_reducible refine Advances.ofDev ?_
    | with_reducible exact Keeps.refl _
    | with_reducible assumption
    | with_reducible apply Dev.setReg_keeps
    | with_reducible apply Dev.setOut_keeps
    | extract_lets
    | (intro _; try beta_reduce)
    | split
    | with_reducible refine frame_keeps ?_ rfl rfl rfl rfl rfl rfl rfl rfl rfl (Nat.le_refl _))

theorem execFsts_adv (o : Lim) (s : State) :
    ∃ t₁, execFsts o s = .next t₁ ∧ Advances s t₁ := by
  refine ⟨_, rfl, ?_⟩
  repeat' (first
    | with_reducible exact Advances.refl _
    | with_reducible exact storeSram_adv ..
    | with_reducible refine Advances.ofDev ?_
    | with_reducible exact Keeps.refl _
    | with_reducible assumption
    | with_reducible apply Dev.setReg_keeps
    | with_reducible apply Dev.setOut_keeps
    | extract_lets
    | (intro _; try beta_reduce)
    | split
    | with_reducible refine frame_keeps ?_ rfl rfl rfl rfl rfl rfl rfl rfl rfl (Nat.le_refl _))

theorem execMbw_adv (o : Lim) (s : State) :
    ∃ t₁, execMbw o s = .next t₁ ∧ Advances s t₁ := by
  refine ⟨_, rfl, ?_⟩
  repeat' (first
    | with_reducible exact Advances.refl _
    | with_reducible refine limDev_adv _ _ _ _ _ ?_ ?_
    | with_reducible exact skipOff_mono _
    | with_reducible refine Advances.ofDev ?_
    | with_reducible exact Keeps.refl _
    | with_reducible assumption
    | with_reducible apply Dev.setReg_keeps
    | with_reducible apply Dev.setOut_keeps
    | with_reducible apply Dev.setCore_keeps
    | with_reducible apply stage_keeps
    | with_reducible apply skipOff_keeps
    | extract_lets
    | (intro _; try beta_reduce)
    | split
    | with_reducible refine frame_keeps ?_ rfl rfl rfl rfl rfl rfl rfl rfl rfl (Nat.le_refl _))

theorem execMbr_adv (o : Lim) (s : State) :
    ∃ t₁, execMbr o s = .next t₁ ∧ Advances s t₁ := by
  refine ⟨_, rfl, ?_⟩
  repeat' (first
    | with_reducible exact Advances.refl _
    | with_reducible exact readMbox_adv ..
    | with_reducible refine Advances.ofDev ?_
    | with_reducible exact Keeps.refl _
    | with_reducible assumption
    | with_reducible apply Dev.setReg_keeps
    | with_reducible apply Dev.setOut_keeps
    | extract_lets
    | (intro _; try beta_reduce)
    | split
    | with_reducible refine frame_keeps ?_ rfl rfl rfl rfl rfl rfl rfl rfl rfl (Nat.le_refl _))

theorem execMbs_adv (o : Lim) (s : State) :
    ∃ t₁, execMbs o s = .next t₁ ∧ Advances s t₁ := by
  refine ⟨_, rfl, ?_⟩
  repeat' (first
    | with_reducible exact Advances.refl _
    | with_reducible exact readMbox_adv ..
    | with_reducible refine Advances.ofDev ?_
    | with_reducible exact Keeps.refl _
    | with_reducible assumption
    | with_reducible apply Dev.setReg_keeps
    | with_reducible apply Dev.setOut_keeps
    | extract_lets
    | (intro _; try beta_reduce)
    | split
    | with_reducible refine frame_keeps ?_ rfl rfl rfl rfl rfl rfl rfl rfl rfl (Nat.le_refl _))

theorem execCart_adv (o : Lim) (s : State) :
    ∃ t₁, execCart o s = .next t₁ ∧ Advances s t₁ := by
  refine ⟨_, rfl, ?_⟩
  repeat' (first
    | with_reducible exact Advances.refl _
    | with_reducible refine limDev_adv _ _ _ _ _ ?_ ?_
    | with_reducible exact skipOff_mono _
    | with_reducible refine Advances.ofDev ?_
    | with_reducible exact Keeps.refl _
    | with_reducible assumption
    | with_reducible apply Dev.setReg_keeps
    | with_reducible apply Dev.setOut_keeps
    | with_reducible apply Dev.setCore_keeps
    | with_reducible apply stage_keeps
    | with_reducible apply skipOff_keeps
    | extract_lets
    | (intro _; try beta_reduce)
    | split
    | with_reducible refine frame_keeps ?_ rfl rfl rfl rfl rfl rfl rfl rfl rfl (Nat.le_refl _))

theorem execCtst_adv (o : Lim) (s : State) :
    ∃ t₁, execCtst o s = .next t₁ ∧ Advances s t₁ := by
  refine ⟨_, rfl, ?_⟩
  repeat' (first
    | with_reducible exact Advances.refl _
    | with_reducible exact limReg_adv ..
    | with_reducible refine Advances.ofDev ?_
    | with_reducible exact Keeps.refl _
    | with_reducible assumption
    | with_reducible apply Dev.setReg_keeps
    | with_reducible apply Dev.setOut_keeps
    | extract_lets
    | (intro _; try beta_reduce)
    | split
    | with_reducible refine frame_keeps ?_ rfl rfl rfl rfl rfl rfl rfl rfl rfl (Nat.le_refl _))

theorem execCld_adv (o : Lim) (s : State) :
    ∃ t₁, execCld o s = .next t₁ ∧ Advances s t₁ := by
  refine ⟨_, rfl, ?_⟩
  repeat' (first
    | with_reducible exact Advances.refl _
    | with_reducible refine limDev_adv _ _ _ _ _ ?_ ?_
    | with_reducible exact skipOff_mono _
    | with_reducible refine Advances.ofDev ?_
    | with_reducible exact Keeps.refl _
    | with_reducible assumption
    | with_reducible apply Dev.setReg_keeps
    | with_reducible apply Dev.setOut_keeps
    | with_reducible apply Dev.setFlag_keeps
    | with_reducible apply Dev.setCore_keeps
    | with_reducible apply fault_keeps
    | with_reducible apply limExc_keeps
    | with_reducible apply skipOff_keeps
    | extract_lets
    | (intro _; try beta_reduce)
    | split
    | with_reducible refine frame_keeps ?_ rfl rfl rfl rfl rfl rfl rfl rfl rfl (Nat.le_refl _))

theorem execCkb_adv (o : Lim) (s : State) :
    ∃ t₁, execCkb o s = .next t₁ ∧ Advances s t₁ := by
  refine ⟨_, rfl, ?_⟩
  repeat' (first
    | with_reducible exact Advances.refl _
    | with_reducible refine limDev_adv _ _ _ _ _ ?_ ?_
    | with_reducible exact skipOff_mono _
    | with_reducible refine Advances.ofDev ?_
    | with_reducible exact Keeps.refl _
    | with_reducible assumption
    | with_reducible apply Dev.setReg_keeps
    | with_reducible apply Dev.setOut_keeps
    | with_reducible apply Dev.tickFree_keeps
    | with_reducible apply Dev.setCore_keeps
    | with_reducible apply skipOff_keeps
    | with_reducible apply caskRefused_keeps
    | extract_lets
    | (intro _; try beta_reduce)
    | split
    | with_reducible refine upd_cel _ _ (fun h => h) (fun h => h) (fun h => h) ?_
    | with_reducible refine frame_keeps ?_ rfl rfl rfl rfl rfl rfl rfl rfl rfl (Nat.le_refl _))

theorem execCkw_adv (o : Lim) (s : State) :
    ∃ t₁, execCkw o s = .next t₁ ∧ Advances s t₁ := by
  refine ⟨_, rfl, ?_⟩
  repeat' (first
    | with_reducible exact Advances.refl _
    | with_reducible refine limDev_adv _ _ _ _ _ ?_ ?_
    | with_reducible exact skipOff_mono _
    | with_reducible refine Advances.ofDev ?_
    | with_reducible exact Keeps.refl _
    | with_reducible assumption
    | with_reducible apply Dev.setReg_keeps
    | with_reducible apply Dev.setOut_keeps
    | with_reducible apply Dev.tickFree_keeps
    | with_reducible apply Dev.setCore_keeps
    | with_reducible apply skipOff_keeps
    | with_reducible apply noCask_keeps
    | extract_lets
    | (intro _; try beta_reduce)
    | split
    | with_reducible refine upd_cel _ _ (fun h => h) (fun h => h) (fun h => h) ?_
    | with_reducible refine frame_keeps ?_ rfl rfl rfl rfl rfl rfl rfl rfl rfl (Nat.le_refl _))

theorem caskClosed_keeps (k : Fin 6) (tag : Byte) (d : Dev) {e0 : Dev} (h_ : Keeps e0 d) :
    Keeps e0 (caskClosed k tag d) := Dev.setReg_keeps _ _ _ h_

theorem execCkc_adv (o : Lim) (s : State) :
    ∃ t₁, execCkc o s = .next t₁ ∧ Advances s t₁ := by
  refine ⟨_, rfl, ?_⟩
  repeat' (first
    | with_reducible exact Advances.refl _
    | with_reducible refine limDev_adv _ _ _ _ _ ?_ ?_
    | with_reducible exact skipOff_mono _
    | with_reducible refine Advances.ofDev ?_
    | with_reducible exact Keeps.refl _
    | with_reducible assumption
    | with_reducible apply Dev.setReg_keeps
    | with_reducible apply Dev.setOut_keeps
    | with_reducible apply Dev.setCore_keeps
    | with_reducible apply stage_keeps
    | with_reducible apply skipOff_keeps
    | with_reducible apply caskRefused_keeps
    | with_reducible apply caskClosed_keeps
    | with_reducible apply noCask_keeps
    | extract_lets
    | (intro _; try beta_reduce)
    | split
    | with_reducible refine frame_keeps ?_ rfl rfl rfl rfl rfl rfl rfl rfl rfl (Nat.le_refl _))

theorem execJmp_adv (o : Lim) (s : State) :
    ∃ t₁, execJmp o s = .next t₁ ∧ Advances s t₁ := by
  refine ⟨_, rfl, ?_⟩
  repeat' (first
    | with_reducible exact Advances.refl _
    | with_reducible refine limDev_adv _ _ _ _ _ ?_ ?_
    | with_reducible exact skipOff_mono _
    | with_reducible refine Advances.ofDev ?_
    | with_reducible exact Keeps.refl _
    | with_reducible assumption
    | with_reducible apply Dev.setReg_keeps
    | with_reducible apply Dev.setOut_keeps
    | with_reducible apply Dev.setCore_keeps
    | with_reducible apply skipOff_keeps
    | extract_lets
    | (intro _; try beta_reduce)
    | split
    | with_reducible refine frame_keeps ?_ rfl rfl rfl rfl rfl rfl rfl rfl rfl (Nat.le_refl _))

theorem execCall_adv (o : Lim) (s : State) :
    ∃ t₁, execCall o s = .next t₁ ∧ Advances s t₁ := by
  refine ⟨_, rfl, ?_⟩
  repeat' (first
    | with_reducible exact Advances.refl _
    | with_reducible refine limDev_adv _ _ _ _ _ ?_ ?_
    | with_reducible exact skipOff_mono _
    | with_reducible refine Advances.ofDev ?_
    | with_reducible exact Keeps.refl _
    | with_reducible assumption
    | with_reducible apply Dev.setReg_keeps
    | with_reducible apply Dev.setOut_keeps
    | with_reducible apply Dev.setCore_keeps
    | with_reducible apply limExc_keeps
    | with_reducible apply skipOff_keeps
    | extract_lets
    | (intro _; try beta_reduce)
    | split
    | with_reducible refine frame_keeps ?_ rfl rfl rfl rfl rfl rfl rfl rfl rfl (Nat.le_refl _))

theorem execRet_adv (o : Lim) (s : State) :
    ∃ t₁, execRet o s = .next t₁ ∧ Advances s t₁ := by
  refine ⟨_, rfl, ?_⟩
  repeat' (first
    | with_reducible exact Advances.refl _
    | with_reducible refine limDev_adv _ _ _ _ _ ?_ ?_
    | with_reducible exact skipOff_mono _
    | with_reducible refine Advances.ofDev ?_
    | with_reducible exact Keeps.refl _
    | with_reducible assumption
    | with_reducible apply Dev.setReg_keeps
    | with_reducible apply Dev.setOut_keeps
    | with_reducible apply Dev.setCore_keeps
    | with_reducible apply limExc_keeps
    | with_reducible apply skipOff_keeps
    | extract_lets
    | (intro _; try beta_reduce)
    | split
    | with_reducible refine frame_keeps ?_ rfl rfl rfl rfl rfl rfl rfl rfl rfl (Nat.le_refl _))

theorem execLoop_adv (o : Lim) (s : State) :
    ∃ t₁, execLoop o s = .next t₁ ∧ Advances s t₁ := by
  refine ⟨_, rfl, ?_⟩
  repeat' (first
    | with_reducible exact Advances.refl _
    | with_reducible refine limDev_adv _ _ _ _ _ ?_ ?_
    | with_reducible exact skipOff_mono _
    | with_reducible refine Advances.ofDev ?_
    | with_reducible exact Keeps.refl _
    | with_reducible assumption
    | with_reducible apply Dev.setReg_keeps
    | with_reducible apply Dev.setOut_keeps
    | with_reducible apply Dev.setCore_keeps
    | with_reducible apply skipLoop_keeps
    | extract_lets
    | (intro _; try beta_reduce)
    | split
    | with_reducible refine frame_keeps ?_ rfl rfl rfl rfl rfl rfl rfl rfl rfl (Nat.le_refl _))

theorem execLoopr_adv (o : Lim) (s : State) :
    ∃ t₁, execLoopr o s = .next t₁ ∧ Advances s t₁ := by
  refine ⟨_, rfl, ?_⟩
  repeat' (first
    | with_reducible exact Advances.refl _
    | with_reducible refine limDev_adv _ _ _ _ _ ?_ ?_
    | with_reducible exact skipOff_mono _
    | with_reducible refine Advances.ofDev ?_
    | with_reducible exact Keeps.refl _
    | with_reducible assumption
    | with_reducible apply Dev.setReg_keeps
    | with_reducible apply Dev.setOut_keeps
    | with_reducible apply Dev.setCore_keeps
    | with_reducible apply skipLoop_keeps
    | extract_lets
    | (intro _; try beta_reduce)
    | split
    | with_reducible refine frame_keeps ?_ rfl rfl rfl rfl rfl rfl rfl rfl rfl (Nat.le_refl _))

theorem execEndl_adv (o : Lim) (s : State) :
    ∃ t₁, execEndl o s = .next t₁ ∧ Advances s t₁ := by
  refine ⟨_, rfl, ?_⟩
  repeat' (first
    | with_reducible exact Advances.refl _
    | with_reducible refine limDev_adv _ _ _ _ _ ?_ ?_
    | with_reducible exact skipOff_mono _
    | with_reducible refine Advances.ofDev ?_
    | with_reducible exact Keeps.refl _
    | with_reducible assumption
    | with_reducible apply Dev.setReg_keeps
    | with_reducible apply Dev.setOut_keeps
    | with_reducible apply Dev.setCore_keeps
    | with_reducible apply limExc_keeps
    | with_reducible apply skipOff_keeps
    | extract_lets
    | (intro _; try beta_reduce)
    | split
    | with_reducible refine frame_keeps ?_ rfl rfl rfl rfl rfl rfl rfl rfl rfl (Nat.le_refl _))

theorem execBtab_adv (o : Lim) (s : State) :
    ∃ t₁, execBtab o s = .next t₁ ∧ Advances s t₁ := by
  refine ⟨_, rfl, ?_⟩
  repeat' (first
    | with_reducible exact Advances.refl _
    | with_reducible refine limDev_adv _ _ _ _ _ ?_ ?_
    | with_reducible exact skipOff_mono _
    | with_reducible refine Advances.ofDev ?_
    | with_reducible exact Keeps.refl _
    | with_reducible assumption
    | with_reducible apply Dev.setReg_keeps
    | with_reducible apply Dev.setOut_keeps
    | with_reducible apply Dev.setCore_keeps
    | with_reducible apply skipOff_keeps
    | extract_lets
    | (intro _; try beta_reduce)
    | split
    | with_reducible refine frame_keeps ?_ rfl rfl rfl rfl rfl rfl rfl rfl rfl (Nat.le_refl _))

theorem execTend_adv (o : Lim) (s : State) :
    ∃ t₁, execTend o s = .next t₁ ∧ Advances s t₁ := by
  refine ⟨_, rfl, ?_⟩
  repeat' (first
    | with_reducible exact Advances.refl _
    | with_reducible refine limDev_adv _ _ _ _ _ ?_ ?_
    | with_reducible exact skipOff_mono _
    | with_reducible refine Advances.ofDev ?_
    | with_reducible exact Keeps.refl _
    | with_reducible assumption
    | with_reducible apply Dev.setReg_keeps
    | with_reducible apply Dev.setOut_keeps
    | with_reducible apply Dev.setCore_keeps
    | with_reducible apply fault_keeps
    | with_reducible apply skipOff_keeps
    | with_reducible apply dropCask_keeps
    | extract_lets
    | (intro _; try beta_reduce)
    | split
    | with_reducible refine frame_keeps ?_ rfl rfl rfl rfl rfl rfl rfl rfl rfl (Nat.le_refl _))

theorem execRds_adv (o : Lim) (s : State) :
    ∃ t₁, execRds o s = .next t₁ ∧ Advances s t₁ := by
  refine ⟨_, rfl, ?_⟩
  repeat' (first
    | with_reducible exact Advances.refl _
    | with_reducible exact limReg_adv ..
    | with_reducible refine Advances.ofDev ?_
    | with_reducible exact Keeps.refl _
    | with_reducible assumption
    | with_reducible apply Dev.setReg_keeps
    | with_reducible apply Dev.setOut_keeps
    | extract_lets
    | (intro _; try beta_reduce)
    | split
    | with_reducible refine frame_keeps ?_ rfl rfl rfl rfl rfl rfl rfl rfl rfl (Nat.le_refl _))

theorem execWrs_adv (o : Lim) (s : State) :
    ∃ t₁, execWrs o s = .next t₁ ∧ Advances s t₁ := by
  refine ⟨_, rfl, ?_⟩
  repeat' (first
    | with_reducible exact Advances.refl _
    | with_reducible exact limReg_adv ..
    | with_reducible refine Advances.ofDev ?_
    | with_reducible exact Keeps.refl _
    | with_reducible assumption
    | with_reducible apply Dev.setReg_keeps
    | with_reducible apply Dev.setOut_keeps
    | extract_lets
    | (intro _; try beta_reduce)
    | split
    | with_reducible refine frame_keeps ?_ rfl rfl rfl rfl rfl rfl rfl rfl rfl (Nat.le_refl _))

theorem execEvs_adv (o : Lim) (s : State) :
    ∃ t₁, execEvs o s = .next t₁ ∧ Advances s t₁ := by
  refine ⟨_, rfl, ?_⟩
  repeat' (first
    | with_reducible exact Advances.refl _
    | with_reducible refine limDev_adv _ _ _ _ _ ?_ ?_
    | with_reducible exact skipOff_mono _
    | with_reducible refine Advances.ofDev ?_
    | with_reducible exact Keeps.refl _
    | with_reducible assumption
    | with_reducible apply Dev.setReg_keeps
    | with_reducible apply Dev.setOut_keeps
    | with_reducible apply Dev.setCore_keeps
    | with_reducible apply stage_keeps
    | with_reducible apply skipOff_keeps
    | extract_lets
    | (intro _; try beta_reduce)
    | split
    | with_reducible refine frame_keeps ?_ rfl rfl rfl rfl rfl rfl rfl rfl rfl (Nat.le_refl _))

end Sys2Proof.Machine
end

