-- ==== Sys2Proof/WellFormed.lean ====
section
/-! DEFINITION. Which operands a command's row can carry: an address lies in the space that the row reaches and a value fits the
access, a list has the length that the wire gives it. What an operand means, a wrong one included, is the command's meaning. -/
namespace Sys2Proof

/-- Bytes of an access size. -/
def AccSize.bytes : AccSize → Nat
  | .b1 => 1
  | .b2 => 2
  | .b4 => 4
  | .b8 => 8

/-- A value fits an access. -/
def fits (sz : AccSize) (v : DWord) : Bool := decide (v.toNat < 2 ^ (8 * sz.bytes))

/-- A BAR0 access: a 32-bit address and a value that fits (R13, R14, R17). -/
def accessOk (a : Nat) (sz : AccSize) (v : DWord) : Bool := decide (a < 2 ^ 32) && fits sz v

/-- A register's address (R3, R17): a word of the register space. -/
def regOk (a : Nat) : Bool := decide (0x1000000 ≤ a) && decide (a < 0x1140000) && decide (a % 4 = 0)

/-- A Cellar address: a BAR0 offset of the array or the spill block, or their device address (R14, R332). -/
def cellarOk (a : Nat) : Bool :=
  (decide (0x1800000 ≤ a) && decide (a < 0x1881000)) || (decide (0x2000000 ≤ a) && decide (a < 0x2081000))

/-- The failing tries of a verify lie in the array. -/
def verifyOk (v : VerifyEnv) : Bool := v.fails.all (fun o => decide (o < 0x80000))

/-- The three current channels of a pass end at one instant: equally many bits (R205). -/
def passOk (b : PassBits) : Bool := decide (b.ia.length = b.ib.length) && decide (b.ia.length = b.ic.length)

/-- The offset of a gain register of a lane (09_control.md). -/
def gainOk (o : Nat) : Bool :=
  decide (o % 4 = 0) && ((decide (0x1C ≤ o) && decide (o ≤ 0x78)) || (decide (0x88 ≤ o) && decide (o ≤ 0x94)))

/-- A trim step ends with a result of one to three words, or with code 4, 5 or 6 (R375, R378). -/
def trimEndOk (code n : Nat) : Bool :=
  (decide (code = 0) && decide (1 ≤ n) && decide (n ≤ 3)) || (decide (4 ≤ code) && decide (code ≤ 6))

/-- A completed read of an identity bus carries 128 bytes (R381). -/
def wireOk : IdWire → Bool
  | .busErr => true
  | .absent => true
  | .data bs => decide (bs.length = 128)

/-- A request frame's payload has 0 to 64 bytes (R386). -/
def frameOk (f : MonFrame) : Bool := decide (f.payload.length ≤ 64)

/-- The command's operands are those its row can carry. -/
def Instr.wf (i : Instr) : Bool :=
  match i with
  | .tickEdge _ => true
  | .fractionalEdge _ => true
  | .slip _ => true
  | .pkclr _ => true
  | .tckPeriodWrite _ _ => true
  | .tckCountLoRead _ => true
  | .tckEdgetsLoRead _ => true
  | .tckTsLoRead _ => true
  | .heldWtWriteComplete _ => true
  | .registerWrite _ a sz v => accessOk a sz v
  | .stickyClear _ a _ => regOk a
  | .hostMemoryWrite _ a sz v => accessOk a sz v
  | .hostInstructionWrite _ a sz v => accessOk a sz v && decide (0x400000 ≤ a) && decide (a < 0x580000)
  | .hostCellarWrite _ a sz v vf => accessOk a sz v && cellarOk a && verifyOk vf
  | .nop _ => true
  | .add _ => true
  | .addi _ => true
  | .sub _ => true
  | .adds _ => true
  | .subs _ => true
  | .mul _ => true
  | .mulh _ => true
  | .div _ => true
  | .rem _ => true
  | .and _ => true
  | .or _ => true
  | .xor _ => true
  | .andi _ => true
  | .ori _ => true
  | .xori _ => true
  | .shl _ => true
  | .shr _ => true
  | .sar _ => true
  | .shi _ => true
  | .rot _ => true
  | .min _ => true
  | .max _ => true
  | .abs _ => true
  | .clz _ => true
  | .popc _ => true
  | .bfx _ => true
  | .bfi _ => true
  | .clamp _ => true
  | .sel _ => true
  | .movi _ => true
  | .ldc _ => true
  | .cmp _ => true
  | .cmpi _ => true
  | .fcmp _ => true
  | .plog _ => true
  | .pmov _ => true
  | .tst _ => true
  | .mac _ => true
  | .mach _ => true
  | .aclr _ => true
  | .aset _ => true
  | .aext _ => true
  | .aadd _ => true
  | .ashl _ => true
  | .amov _ => true
  | .fadd _ => true
  | .fsub _ => true
  | .fmul _ => true
  | .fma _ => true
  | .fdiv _ => true
  | .fsqrt _ => true
  | .fmin _ => true
  | .fmax _ => true
  | .fabs _ => true
  | .fcvt _ => true
  | .fmov _ => true
  | .fclamp _ => true
  | .fldc _ => true
  | .frsq _ => true
  | .fsc _ => true
  | .ldw _ => true
  | .ldh _ => true
  | .ldhu _ => true
  | .ldb _ => true
  | .ldbu _ => true
  | .ldd _ => true
  | .stw _ => true
  | .sth _ => true
  | .stb _ => true
  | .std _ => true
  | .fld _ => true
  | .fst _ => true
  | .ldsw _ => true
  | .ldsd _ => true
  | .stsw _ => true
  | .stsd _ => true
  | .flds _ => true
  | .fsts _ => true
  | .pin _ => true
  | .pout _ => true
  | .mbw _ => true
  | .mbr _ => true
  | .mbs _ => true
  | .cart _ => true
  | .ctst _ => true
  | .treeRun _ => true
  | .cld _ => true
  | .ckb _ => true
  | .ckw _ => true
  | .ckc _ => true
  | .jmp _ => true
  | .call _ => true
  | .ret _ => true
  | .loop _ => true
  | .loopr _ => true
  | .endl _ => true
  | .btab _ => true
  | .tend _ => true
  | .rds _ => true
  | .wrs _ => true
  | .evs _ => true
  | .loadCommand _ _ => true
  | .cartDone _ _ _ => true
  | .cartLanding _ _ => true
  | .reinsReq _ _ => true
  | .reinsRel _ => true
  | .reinsTake _ _ => true
  | .heartbeat _ => true
  | .doorbell _ _ => true
  | .cplheadWrite _ _ => true
  | .commandConsume _ => true
  | .cmdNop _ => true
  | .rd32 _ => true
  | .wr32 _ => true
  | .wrat _ => true
  | .rdat _ => true
  | .wratAccept _ => true
  | .rdatPerform _ => true
  | .qspiWrite _ _ ws => !ws.isEmpty
  | .qspiRead _ _ n => decide (0 < n)
  | .qspiReadTimeout _ => true
  | .setwin _ _ => true
  | .vecackWrite _ _ => true
  | .cplModerationEnd _ => true
  | .msixSend _ _ => true
  | .perst _ => true
  | .modeRequest _ => true
  | .halt _ _ => true
  | .softwareReset _ _ => true
  | .rstNPulse _ _ => true
  | .pgoodFall _ => true
  | .startUp env => decide (env.dramSz.toNat ≤ 4)
  | .wake _ _ => true
  | .axisEnable _ => true
  | .axisDisable _ => true
  | .qstop _ => true
  | .gearMode _ => true
  | .camArm _ => true
  | .segpush _ => true
  | .flush _ => true
  | .segmentEnd _ => true
  | .limitInput _ _ _ _ => true
  | .stepPulse _ _ => true
  | .blindHoldEnd _ => true
  | .islandEdgeFrame _ => true
  | .stoppedHeartbeat _ => true
  | .configSend _ _ => true
  | .dioSample _ _ => true
  | .fieldReport _ => true
  | .dioOverload _ => true
  | .dfclr _ => true
  | .aoCompliance _ => true
  | .aoThermalShutdown _ => true
  | .fclr _ _ => true
  | .aiSample _ _ _ => true
  | .aiProtEnd _ => true
  | .fieldUndervoltage _ => true
  | .foldBack _ => true
  | .conversion _ _ _ _ => true
  | .tendrilSlot _ => true
  | .uplinkReceive _ _ _ => true
  | .setptWrite _ => true
  | .nvWrite _ => true
  | .nvRead _ => true
  | .nvTransferEnd _ => true
  | .hartRequest _ _ frame => !frame.isEmpty
  | .hartReplySend _ => true
  | .harnessCycle _ _ _ => true
  | .testPulse _ _ => true
  | .outputDip _ _ => true
  | .discrepancyTimeout _ => true
  | .synchronismTimeout _ => true
  | .harnessReset _ => true
  | .statusFrameReceive _ => true
  | .sealSend _ _ => true
  | .proposalReceive _ => true
  | .configActivate _ _ => true
  | .configWriteEnd _ => true
  | .vsafePowerUp _ => true
  | .hqCount _ _ _ => true
  | .coilFault _ => true
  | .brakeDue _ => true
  | .brakeOverdue _ => true
  | .brakeTestStart _ => true
  | .caskApply vf => verifyOk vf
  | .logResume _ => true
  | .spillclr _ _ => true
  | .pop _ => true
  | .holdfClear _ => true
  | .fpdisClear _ => true
  | .swset _ => true
  | .tempWarning _ => true
  | .tempCritical _ => true
  | .clockLoss _ => true
  | .dramEccRead a _ => decide (a < 2 ^ 33)
  | .hostRead _ bar2 a _ _ => decide (a < if bar2 then 2 ^ 33 else 2 ^ 32)
  | .hostDramWrite _ a sz v => decide (a < 2 ^ 33) && fits sz v
  | .pcieLinkChange _ _ => true
  | .pcieConfigRequest _ _ => true
  | .quadEdge _ _ _ _ => true
  | .hallStep _ _ _ => true
  | .zEdge _ => true
  | .zeroSpeedTimeout _ => true
  | .ssiFrameStart _ => true
  | .serialFrameEnd _ _ => true
  | .rs485Request _ => true
  | .rs485Timeout _ => true
  | .serialStaleTimeout _ => true
  | .sincosSample _ _ _ _ _ _ => true
  | .capEdge _ _ _ => true
  | .latchTimeout _ => true
  | .setpos _ => true
  | .refset _ => true
  | .zarm _ => true
  | .rearm _ => true
  | .fbTypeChange _ _ _ => true
  | .controlPass _ b => passOk b
  | .chopperPass _ b => passOk b
  | .chopperModeTimeout _ => true
  | .engineOverrun _ => true
  | .carrierValley _ => true
  | .overcurrentTrip _ _ => true
  | .sdError _ => true
  | .frset _ => true
  | .frclr _ => true
  | .cgset _ => true
  | .cgclr _ => true
  | .tableWrite _ _ => true
  | .gainWrite _ o _ => gainOk o
  | .jobGo _ => true
  | .jobAbort _ => true
  | .rowFetch _ _ => true
  | .indexDue _ => true
  | .delayedFiring _ => true
  | .firingEnd _ => true
  | .headFault _ _ => true
  | .densityWrite _ _ => true
  | .sliceWidthWrite _ _ => true
  | .ratioWrite _ _ _ => true
  | .frameStart _ _ => true
  | .frameEnd _ _ => true
  | .frameReady _ => true
  | .graphRun _ => true
  | .graphStop _ => true
  | .qcycWrite _ _ => true
  | .confminWrite _ _ => true
  | .missingTimeout _ => true
  | .handoffWrite _ => true
  | .handoffExpiry i => decide (i < 256)
  | .hoffrdWrite _ _ => true
  | .treeLoadEnd _ => true
  | .trimGo _ => true
  | .trimStepEnd c r => trimEndOk c.toNat r.length
  | .trimRestoreWrite _ a _ => regOk a
  | .idRead _ => true
  | .idReadEnd _ w => wireOk w
  | .idLanding _ => true
  | .monInfo f => frameOk f
  | .monRead f => frameOk f
  | .monWrite f => frameOk f
  | .monCore f => frameOk f
  | .monUnlock f => frameOk f
  | .monClose f => frameOk f
  | .monHold f => frameOk f
  | .monStep f => frameOk f
  | .monFree f => frameOk f
  | .monTrace f => frameOk f
  | .monBaud f => frameOk f
  | .monCodeWrite _ _ => true
  | .slipLimit => true
  | .computeStart => true
  | .stageStart => true
  | .loadVerifyEnd => true
  | .hbTimeout => true
  | .wakeTimerExpiry => true
  | .harnessLinkLoss => true
  | .treeLoad => true
  | .heartbeatAck => true
  | .configResend => true
  | .totalOverload => true
  | .resume => true
  | .silenceTimeout => true
  | .immediateSafeMarker => true
  | .islandPowerUp => true
  | .tendrilStart => true
  | .brownOut => true
  | .sourceSelect => true
  | .tendrilLinkLoss => true
  | .hartRecordLanding => true
  | .hartReplyGo => true
  | .hrstTooLong => true
  | .statusFrame => true
  | .pendingExpiry => true
  | .vsafeLow => true
  | .testHoldEnd => true
  | .testAckTimeout => true
  | .commitWordWrite => true
  | .faultPulseEnd => true
  | .dramStall => true
  | .supplyFault => true
  | .trimNext => true
  | .trimAbort => true
  | .trimPointReached => true
  | .trimPointTimeout => true
  | .monStepEnd => true
  | .monFrameGap => true
  | .monFrameError => true
  | .monIdleTimeout => true
  | .vfieldRecovery => true
  | .vsafeRecovery => true

/-- The address that a command names, if it names one. -/
def Instr.addr (i : Instr) : Option Nat :=
  match i with
  | .tickEdge _ => none
  | .fractionalEdge _ => none
  | .slip _ => none
  | .pkclr _ => none
  | .tckPeriodWrite _ _ => none
  | .tckCountLoRead _ => none
  | .tckEdgetsLoRead _ => none
  | .tckTsLoRead _ => none
  | .heldWtWriteComplete _ => none
  | .registerWrite _ a _ _ => some a
  | .stickyClear _ a _ => some a
  | .hostMemoryWrite _ a _ _ => some a
  | .hostInstructionWrite _ a _ _ => some a
  | .hostCellarWrite _ a _ _ _ => some a
  | .nop _ => none
  | .add _ => none
  | .addi _ => none
  | .sub _ => none
  | .adds _ => none
  | .subs _ => none
  | .mul _ => none
  | .mulh _ => none
  | .div _ => none
  | .rem _ => none
  | .and _ => none
  | .or _ => none
  | .xor _ => none
  | .andi _ => none
  | .ori _ => none
  | .xori _ => none
  | .shl _ => none
  | .shr _ => none
  | .sar _ => none
  | .shi _ => none
  | .rot _ => none
  | .min _ => none
  | .max _ => none
  | .abs _ => none
  | .clz _ => none
  | .popc _ => none
  | .bfx _ => none
  | .bfi _ => none
  | .clamp _ => none
  | .sel _ => none
  | .movi _ => none
  | .ldc _ => none
  | .cmp _ => none
  | .cmpi _ => none
  | .fcmp _ => none
  | .plog _ => none
  | .pmov _ => none
  | .tst _ => none
  | .mac _ => none
  | .mach _ => none
  | .aclr _ => none
  | .aset _ => none
  | .aext _ => none
  | .aadd _ => none
  | .ashl _ => none
  | .amov _ => none
  | .fadd _ => none
  | .fsub _ => none
  | .fmul _ => none
  | .fma _ => none
  | .fdiv _ => none
  | .fsqrt _ => none
  | .fmin _ => none
  | .fmax _ => none
  | .fabs _ => none
  | .fcvt _ => none
  | .fmov _ => none
  | .fclamp _ => none
  | .fldc _ => none
  | .frsq _ => none
  | .fsc _ => none
  | .ldw _ => none
  | .ldh _ => none
  | .ldhu _ => none
  | .ldb _ => none
  | .ldbu _ => none
  | .ldd _ => none
  | .stw _ => none
  | .sth _ => none
  | .stb _ => none
  | .std _ => none
  | .fld _ => none
  | .fst _ => none
  | .ldsw _ => none
  | .ldsd _ => none
  | .stsw _ => none
  | .stsd _ => none
  | .flds _ => none
  | .fsts _ => none
  | .pin _ => none
  | .pout _ => none
  | .mbw _ => none
  | .mbr _ => none
  | .mbs _ => none
  | .cart _ => none
  | .ctst _ => none
  | .treeRun _ => none
  | .cld _ => none
  | .ckb _ => none
  | .ckw _ => none
  | .ckc _ => none
  | .jmp _ => none
  | .call _ => none
  | .ret _ => none
  | .loop _ => none
  | .loopr _ => none
  | .endl _ => none
  | .btab _ => none
  | .tend _ => none
  | .rds _ => none
  | .wrs _ => none
  | .evs _ => none
  | .loadCommand _ _ => none
  | .cartDone _ _ _ => none
  | .cartLanding _ _ => none
  | .reinsReq _ _ => none
  | .reinsRel _ => none
  | .reinsTake _ _ => none
  | .heartbeat _ => none
  | .doorbell _ _ => none
  | .cplheadWrite _ _ => none
  | .commandConsume _ => none
  | .cmdNop _ => none
  | .rd32 _ => none
  | .wr32 _ => none
  | .wrat _ => none
  | .rdat _ => none
  | .wratAccept _ => none
  | .rdatPerform _ => none
  | .qspiWrite _ _ _ => none
  | .qspiRead _ _ _ => none
  | .qspiReadTimeout _ => none
  | .setwin _ _ => none
  | .vecackWrite _ _ => none
  | .cplModerationEnd _ => none
  | .msixSend _ _ => none
  | .perst _ => none
  | .modeRequest _ => none
  | .halt _ _ => none
  | .softwareReset _ _ => none
  | .rstNPulse _ _ => none
  | .pgoodFall _ => none
  | .startUp _ => none
  | .wake _ _ => none
  | .axisEnable _ => none
  | .axisDisable _ => none
  | .qstop _ => none
  | .gearMode _ => none
  | .camArm _ => none
  | .segpush _ => none
  | .flush _ => none
  | .segmentEnd _ => none
  | .limitInput _ _ _ _ => none
  | .stepPulse _ _ => none
  | .blindHoldEnd _ => none
  | .islandEdgeFrame _ => none
  | .stoppedHeartbeat _ => none
  | .configSend _ _ => none
  | .dioSample _ _ => none
  | .fieldReport _ => none
  | .dioOverload _ => none
  | .dfclr _ => none
  | .aoCompliance _ => none
  | .aoThermalShutdown _ => none
  | .fclr _ _ => none
  | .aiSample _ _ _ => none
  | .aiProtEnd _ => none
  | .fieldUndervoltage _ => none
  | .foldBack _ => none
  | .conversion _ _ _ _ => none
  | .tendrilSlot _ => none
  | .uplinkReceive _ _ _ => none
  | .setptWrite _ => none
  | .nvWrite _ => none
  | .nvRead _ => none
  | .nvTransferEnd _ => none
  | .hartRequest _ _ _ => none
  | .hartReplySend _ => none
  | .harnessCycle _ _ _ => none
  | .testPulse _ _ => none
  | .outputDip _ _ => none
  | .discrepancyTimeout _ => none
  | .synchronismTimeout _ => none
  | .harnessReset _ => none
  | .statusFrameReceive _ => none
  | .sealSend _ _ => none
  | .proposalReceive _ => none
  | .configActivate _ _ => none
  | .configWriteEnd _ => none
  | .vsafePowerUp _ => none
  | .hqCount _ _ _ => none
  | .coilFault _ => none
  | .brakeDue _ => none
  | .brakeOverdue _ => none
  | .brakeTestStart _ => none
  | .caskApply _ => none
  | .logResume _ => none
  | .spillclr _ _ => none
  | .pop _ => none
  | .holdfClear _ => none
  | .fpdisClear _ => none
  | .swset _ => none
  | .tempWarning _ => none
  | .tempCritical _ => none
  | .clockLoss _ => none
  | .dramEccRead a _ => some a
  | .hostRead _ _ a _ _ => some a
  | .hostDramWrite _ a _ _ => some a
  | .pcieLinkChange _ _ => none
  | .pcieConfigRequest _ _ => none
  | .quadEdge _ _ _ _ => none
  | .hallStep _ _ _ => none
  | .zEdge _ => none
  | .zeroSpeedTimeout _ => none
  | .ssiFrameStart _ => none
  | .serialFrameEnd _ _ => none
  | .rs485Request _ => none
  | .rs485Timeout _ => none
  | .serialStaleTimeout _ => none
  | .sincosSample _ _ _ _ _ _ => none
  | .capEdge _ _ _ => none
  | .latchTimeout _ => none
  | .setpos _ => none
  | .refset _ => none
  | .zarm _ => none
  | .rearm _ => none
  | .fbTypeChange _ _ _ => none
  | .controlPass _ _ => none
  | .chopperPass _ _ => none
  | .chopperModeTimeout _ => none
  | .engineOverrun _ => none
  | .carrierValley _ => none
  | .overcurrentTrip _ _ => none
  | .sdError _ => none
  | .frset _ => none
  | .frclr _ => none
  | .cgset _ => none
  | .cgclr _ => none
  | .tableWrite _ _ => none
  | .gainWrite _ _ _ => none
  | .jobGo _ => none
  | .jobAbort _ => none
  | .rowFetch _ _ => none
  | .indexDue _ => none
  | .delayedFiring _ => none
  | .firingEnd _ => none
  | .headFault _ _ => none
  | .densityWrite _ _ => none
  | .sliceWidthWrite _ _ => none
  | .ratioWrite _ _ _ => none
  | .frameStart _ _ => none
  | .frameEnd _ _ => none
  | .frameReady _ => none
  | .graphRun _ => none
  | .graphStop _ => none
  | .qcycWrite _ _ => none
  | .confminWrite _ _ => none
  | .missingTimeout _ => none
  | .handoffWrite _ => none
  | .handoffExpiry _ => none
  | .hoffrdWrite _ _ => none
  | .treeLoadEnd _ => none
  | .trimGo _ => none
  | .trimStepEnd _ _ => none
  | .trimRestoreWrite _ a _ => some a
  | .idRead _ => none
  | .idReadEnd _ _ => none
  | .idLanding _ => none
  | .monInfo _ => none
  | .monRead _ => none
  | .monWrite _ => none
  | .monCore _ => none
  | .monUnlock _ => none
  | .monClose _ => none
  | .monHold _ => none
  | .monStep _ => none
  | .monFree _ => none
  | .monTrace _ => none
  | .monBaud _ => none
  | .monCodeWrite _ _ => none
  | .slipLimit => none
  | .computeStart => none
  | .stageStart => none
  | .loadVerifyEnd => none
  | .hbTimeout => none
  | .wakeTimerExpiry => none
  | .harnessLinkLoss => none
  | .treeLoad => none
  | .heartbeatAck => none
  | .configResend => none
  | .totalOverload => none
  | .resume => none
  | .silenceTimeout => none
  | .immediateSafeMarker => none
  | .islandPowerUp => none
  | .tendrilStart => none
  | .brownOut => none
  | .sourceSelect => none
  | .tendrilLinkLoss => none
  | .hartRecordLanding => none
  | .hartReplyGo => none
  | .hrstTooLong => none
  | .statusFrame => none
  | .pendingExpiry => none
  | .vsafeLow => none
  | .testHoldEnd => none
  | .testAckTimeout => none
  | .commitWordWrite => none
  | .faultPulseEnd => none
  | .dramStall => none
  | .supplyFault => none
  | .trimNext => none
  | .trimAbort => none
  | .trimPointReached => none
  | .trimPointTimeout => none
  | .monStepEnd => none
  | .monFrameGap => none
  | .monFrameError => none
  | .monIdleTimeout => none
  | .vfieldRecovery => none
  | .vsafeRecovery => none

end Sys2Proof
end

