-- ==== Sys2Proof/Laws/PerInstr.lean ====
section
/-! SUPPORT. One lemma per command: the address that a well-formed command names lies in the device's address space or in DRAM. -/
namespace Sys2Proof.Laws.addrBound

/-- The address of a well-formed command lies below 2^33. -/
def Statement (i : Instr) : Prop := i.wf = true → ∀ a, i.addr = some a → a < 2 ^ 33

theorem ofNone {i : Instr} (h : i.addr = none) : Statement i := fun _ a e => by rw [h] at e; cases e

theorem tickEdge (x0 : CommitVote) : Statement (.tickEdge x0) := ofNone rfl
theorem fractionalEdge (x0 : Fin 3) : Statement (.fractionalEdge x0) := ofNone rfl
theorem slip (x0 : HostPort) : Statement (.slip x0) := ofNone rfl
theorem pkclr (x0 : HostPort) : Statement (.pkclr x0) := ofNone rfl
theorem tckPeriodWrite (x0 : HostPort) (x1 : Word) : Statement (.tckPeriodWrite x0 x1) := ofNone rfl
theorem tckCountLoRead (x0 : Reader) : Statement (.tckCountLoRead x0) := ofNone rfl
theorem tckEdgetsLoRead (x0 : Reader) : Statement (.tckEdgetsLoRead x0) := ofNone rfl
theorem tckTsLoRead (x0 : Reader) : Statement (.tckTsLoRead x0) := ofNone rfl
theorem heldWtWriteComplete (x0 : HostPort) : Statement (.heldWtWriteComplete x0) := ofNone rfl
theorem registerWrite (x0 : HostPort) (x1 : Nat) (x2 : AccSize) (x3 : DWord) : Statement (.registerWrite x0 x1 x2 x3) := by
  intro h a e
  simp only [Instr.addr, Option.some.injEq] at e
  simp only [Instr.wf, accessOk, regOk, fits, Bool.and_eq_true, decide_eq_true_eq] at h
  first | omega | (split at h <;> omega)
theorem stickyClear (x0 : HostPort) (x1 : Nat) (x2 : Word) : Statement (.stickyClear x0 x1 x2) := by
  intro h a e
  simp only [Instr.addr, Option.some.injEq] at e
  simp only [Instr.wf, accessOk, regOk, fits, Bool.and_eq_true, decide_eq_true_eq] at h
  first | omega | (split at h <;> omega)
theorem hostMemoryWrite (x0 : HostPort) (x1 : Nat) (x2 : AccSize) (x3 : DWord) : Statement (.hostMemoryWrite x0 x1 x2 x3) := by
  intro h a e
  simp only [Instr.addr, Option.some.injEq] at e
  simp only [Instr.wf, accessOk, regOk, fits, Bool.and_eq_true, decide_eq_true_eq] at h
  first | omega | (split at h <;> omega)
theorem hostInstructionWrite (x0 : HostPort) (x1 : Nat) (x2 : AccSize) (x3 : DWord) : Statement (.hostInstructionWrite x0 x1 x2 x3) := by
  intro h a e
  simp only [Instr.addr, Option.some.injEq] at e
  simp only [Instr.wf, accessOk, regOk, fits, Bool.and_eq_true, decide_eq_true_eq] at h
  first | omega | (split at h <;> omega)
theorem hostCellarWrite (x0 : HostPort) (x1 : Nat) (x2 : AccSize) (x3 : DWord) (x4 : VerifyEnv) : Statement (.hostCellarWrite x0 x1 x2 x3 x4) := by
  intro h a e
  simp only [Instr.addr, Option.some.injEq] at e
  simp only [Instr.wf, accessOk, regOk, fits, Bool.and_eq_true, decide_eq_true_eq] at h
  first | omega | (split at h <;> omega)
theorem nop (x0 : Lim) : Statement (.nop x0) := ofNone rfl
theorem add (x0 : Lim) : Statement (.add x0) := ofNone rfl
theorem addi (x0 : Lim) : Statement (.addi x0) := ofNone rfl
theorem sub (x0 : Lim) : Statement (.sub x0) := ofNone rfl
theorem adds (x0 : Lim) : Statement (.adds x0) := ofNone rfl
theorem subs (x0 : Lim) : Statement (.subs x0) := ofNone rfl
theorem mul (x0 : Lim) : Statement (.mul x0) := ofNone rfl
theorem mulh (x0 : Lim) : Statement (.mulh x0) := ofNone rfl
theorem div (x0 : Lim) : Statement (.div x0) := ofNone rfl
theorem rem (x0 : Lim) : Statement (.rem x0) := ofNone rfl
theorem and (x0 : Lim) : Statement (.and x0) := ofNone rfl
theorem or (x0 : Lim) : Statement (.or x0) := ofNone rfl
theorem xor (x0 : Lim) : Statement (.xor x0) := ofNone rfl
theorem andi (x0 : Lim) : Statement (.andi x0) := ofNone rfl
theorem ori (x0 : Lim) : Statement (.ori x0) := ofNone rfl
theorem xori (x0 : Lim) : Statement (.xori x0) := ofNone rfl
theorem shl (x0 : Lim) : Statement (.shl x0) := ofNone rfl
theorem shr (x0 : Lim) : Statement (.shr x0) := ofNone rfl
theorem sar (x0 : Lim) : Statement (.sar x0) := ofNone rfl
theorem shi (x0 : Lim) : Statement (.shi x0) := ofNone rfl
theorem rot (x0 : Lim) : Statement (.rot x0) := ofNone rfl
theorem min (x0 : Lim) : Statement (.min x0) := ofNone rfl
theorem max (x0 : Lim) : Statement (.max x0) := ofNone rfl
theorem abs (x0 : Lim) : Statement (.abs x0) := ofNone rfl
theorem clz (x0 : Lim) : Statement (.clz x0) := ofNone rfl
theorem popc (x0 : Lim) : Statement (.popc x0) := ofNone rfl
theorem bfx (x0 : Lim) : Statement (.bfx x0) := ofNone rfl
theorem bfi (x0 : Lim) : Statement (.bfi x0) := ofNone rfl
theorem clamp (x0 : Lim) : Statement (.clamp x0) := ofNone rfl
theorem sel (x0 : Lim) : Statement (.sel x0) := ofNone rfl
theorem movi (x0 : Lim) : Statement (.movi x0) := ofNone rfl
theorem ldc (x0 : Lim) : Statement (.ldc x0) := ofNone rfl
theorem cmp (x0 : Lim) : Statement (.cmp x0) := ofNone rfl
theorem cmpi (x0 : Lim) : Statement (.cmpi x0) := ofNone rfl
theorem fcmp (x0 : Lim) : Statement (.fcmp x0) := ofNone rfl
theorem plog (x0 : Lim) : Statement (.plog x0) := ofNone rfl
theorem pmov (x0 : Lim) : Statement (.pmov x0) := ofNone rfl
theorem tst (x0 : Lim) : Statement (.tst x0) := ofNone rfl
theorem mac (x0 : Lim) : Statement (.mac x0) := ofNone rfl
theorem mach (x0 : Lim) : Statement (.mach x0) := ofNone rfl
theorem aclr (x0 : Lim) : Statement (.aclr x0) := ofNone rfl
theorem aset (x0 : Lim) : Statement (.aset x0) := ofNone rfl
theorem aext (x0 : Lim) : Statement (.aext x0) := ofNone rfl
theorem aadd (x0 : Lim) : Statement (.aadd x0) := ofNone rfl
theorem ashl (x0 : Lim) : Statement (.ashl x0) := ofNone rfl
theorem amov (x0 : Lim) : Statement (.amov x0) := ofNone rfl
theorem fadd (x0 : Lim) : Statement (.fadd x0) := ofNone rfl
theorem fsub (x0 : Lim) : Statement (.fsub x0) := ofNone rfl
theorem fmul (x0 : Lim) : Statement (.fmul x0) := ofNone rfl
theorem fma (x0 : Lim) : Statement (.fma x0) := ofNone rfl
theorem fdiv (x0 : Lim) : Statement (.fdiv x0) := ofNone rfl
theorem fsqrt (x0 : Lim) : Statement (.fsqrt x0) := ofNone rfl
theorem fmin (x0 : Lim) : Statement (.fmin x0) := ofNone rfl
theorem fmax (x0 : Lim) : Statement (.fmax x0) := ofNone rfl
theorem fabs (x0 : Lim) : Statement (.fabs x0) := ofNone rfl
theorem fcvt (x0 : Lim) : Statement (.fcvt x0) := ofNone rfl
theorem fmov (x0 : Lim) : Statement (.fmov x0) := ofNone rfl
theorem fclamp (x0 : Lim) : Statement (.fclamp x0) := ofNone rfl
theorem fldc (x0 : Lim) : Statement (.fldc x0) := ofNone rfl
theorem frsq (x0 : Lim) : Statement (.frsq x0) := ofNone rfl
theorem fsc (x0 : Lim) : Statement (.fsc x0) := ofNone rfl
theorem ldw (x0 : Lim) : Statement (.ldw x0) := ofNone rfl
theorem ldh (x0 : Lim) : Statement (.ldh x0) := ofNone rfl
theorem ldhu (x0 : Lim) : Statement (.ldhu x0) := ofNone rfl
theorem ldb (x0 : Lim) : Statement (.ldb x0) := ofNone rfl
theorem ldbu (x0 : Lim) : Statement (.ldbu x0) := ofNone rfl
theorem ldd (x0 : Lim) : Statement (.ldd x0) := ofNone rfl
theorem stw (x0 : Lim) : Statement (.stw x0) := ofNone rfl
theorem sth (x0 : Lim) : Statement (.sth x0) := ofNone rfl
theorem stb (x0 : Lim) : Statement (.stb x0) := ofNone rfl
theorem std (x0 : Lim) : Statement (.std x0) := ofNone rfl
theorem fld (x0 : Lim) : Statement (.fld x0) := ofNone rfl
theorem fst (x0 : Lim) : Statement (.fst x0) := ofNone rfl
theorem ldsw (x0 : Lim) : Statement (.ldsw x0) := ofNone rfl
theorem ldsd (x0 : Lim) : Statement (.ldsd x0) := ofNone rfl
theorem stsw (x0 : Lim) : Statement (.stsw x0) := ofNone rfl
theorem stsd (x0 : Lim) : Statement (.stsd x0) := ofNone rfl
theorem flds (x0 : Lim) : Statement (.flds x0) := ofNone rfl
theorem fsts (x0 : Lim) : Statement (.fsts x0) := ofNone rfl
theorem pin (x0 : Lim) : Statement (.pin x0) := ofNone rfl
theorem pout (x0 : Lim) : Statement (.pout x0) := ofNone rfl
theorem mbw (x0 : Lim) : Statement (.mbw x0) := ofNone rfl
theorem mbr (x0 : Lim) : Statement (.mbr x0) := ofNone rfl
theorem mbs (x0 : Lim) : Statement (.mbs x0) := ofNone rfl
theorem cart (x0 : Lim) : Statement (.cart x0) := ofNone rfl
theorem ctst (x0 : Lim) : Statement (.ctst x0) := ofNone rfl
theorem treeRun (x0 : Lim) : Statement (.treeRun x0) := ofNone rfl
theorem cld (x0 : Lim) : Statement (.cld x0) := ofNone rfl
theorem ckb (x0 : Lim) : Statement (.ckb x0) := ofNone rfl
theorem ckw (x0 : Lim) : Statement (.ckw x0) := ofNone rfl
theorem ckc (x0 : Lim) : Statement (.ckc x0) := ofNone rfl
theorem jmp (x0 : Lim) : Statement (.jmp x0) := ofNone rfl
theorem call (x0 : Lim) : Statement (.call x0) := ofNone rfl
theorem ret (x0 : Lim) : Statement (.ret x0) := ofNone rfl
theorem loop (x0 : Lim) : Statement (.loop x0) := ofNone rfl
theorem loopr (x0 : Lim) : Statement (.loopr x0) := ofNone rfl
theorem endl (x0 : Lim) : Statement (.endl x0) := ofNone rfl
theorem btab (x0 : Lim) : Statement (.btab x0) := ofNone rfl
theorem tend (x0 : Lim) : Statement (.tend x0) := ofNone rfl
theorem rds (x0 : Lim) : Statement (.rds x0) := ofNone rfl
theorem wrs (x0 : Lim) : Statement (.wrs x0) := ofNone rfl
theorem evs (x0 : Lim) : Statement (.evs x0) := ofNone rfl
theorem loadCommand (x0 : HostPort) (x1 : Word) : Statement (.loadCommand x0 x1) := ofNone rfl
theorem cartDone (x0 : Fin 6) (x1 : Fin 64) (x2 : Option SramError) : Statement (.cartDone x0 x1 x2) := ofNone rfl
theorem cartLanding (x0 : Fin 6) (x1 : Fin 64) : Statement (.cartLanding x0 x1) := ofNone rfl
theorem reinsReq (x0 : HostPort) (x1 : Bool) : Statement (.reinsReq x0 x1) := ofNone rfl
theorem reinsRel (x0 : HostPort) : Statement (.reinsRel x0) := ofNone rfl
theorem reinsTake (x0 : HostPort) (x1 : Bool) : Statement (.reinsTake x0 x1) := ofNone rfl
theorem heartbeat (x0 : HostPort) : Statement (.heartbeat x0) := ofNone rfl
theorem doorbell (x0 : HostPort) (x1 : Word) : Statement (.doorbell x0 x1) := ofNone rfl
theorem cplheadWrite (x0 : HostPort) (x1 : Word) : Statement (.cplheadWrite x0 x1) := ofNone rfl
theorem commandConsume (x0 : HostPort) : Statement (.commandConsume x0) := ofNone rfl
theorem cmdNop (x0 : HostPort) : Statement (.cmdNop x0) := ofNone rfl
theorem rd32 (x0 : HostPort) : Statement (.rd32 x0) := ofNone rfl
theorem wr32 (x0 : HostPort) : Statement (.wr32 x0) := ofNone rfl
theorem wrat (x0 : HostPort) : Statement (.wrat x0) := ofNone rfl
theorem rdat (x0 : HostPort) : Statement (.rdat x0) := ofNone rfl
theorem wratAccept (x0 : HostPort) : Statement (.wratAccept x0) := ofNone rfl
theorem rdatPerform (x0 : HostPort) : Statement (.rdatPerform x0) := ofNone rfl
theorem qspiWrite (x0 : HostPort) (x1 : BitVec 24) (x2 : List Word) : Statement (.qspiWrite x0 x1 x2) := ofNone rfl
theorem qspiRead (x0 : HostPort) (x1 : BitVec 24) (x2 : Nat) : Statement (.qspiRead x0 x1 x2) := ofNone rfl
theorem qspiReadTimeout (x0 : HostPort) : Statement (.qspiReadTimeout x0) := ofNone rfl
theorem setwin (x0 : HostPort) (x1 : Word) : Statement (.setwin x0 x1) := ofNone rfl
theorem vecackWrite (x0 : HostPort) (x1 : Word) : Statement (.vecackWrite x0 x1) := ofNone rfl
theorem cplModerationEnd (x0 : HostPort) : Statement (.cplModerationEnd x0) := ofNone rfl
theorem msixSend (x0 : HostPort) (x1 : Fin 32) : Statement (.msixSend x0 x1) := ofNone rfl
theorem perst (x0 : HostPort) : Statement (.perst x0) := ofNone rfl
theorem modeRequest (x0 : BitVec 3) : Statement (.modeRequest x0) := ofNone rfl
theorem halt (x0 : Fin 256) (x1 : Word) : Statement (.halt x0 x1) := ofNone rfl
theorem softwareReset (x0 : HostPort) (x1 : Word) : Statement (.softwareReset x0 x1) := ofNone rfl
theorem rstNPulse (x0 : Nat) (x1 : Straps) : Statement (.rstNPulse x0 x1) := ofNone rfl
theorem pgoodFall (x0 : Straps) : Statement (.pgoodFall x0) := ofNone rfl
theorem startUp (x0 : StartEnv) : Statement (.startUp x0) := ofNone rfl
theorem wake (x0 : WakeSet) (x1 : Nat) : Statement (.wake x0 x1) := ofNone rfl
theorem axisEnable (x0 : Fin 16) : Statement (.axisEnable x0) := ofNone rfl
theorem axisDisable (x0 : Fin 16) : Statement (.axisDisable x0) := ofNone rfl
theorem qstop (x0 : Fin 16) : Statement (.qstop x0) := ofNone rfl
theorem gearMode (x0 : Fin 16) : Statement (.gearMode x0) := ofNone rfl
theorem camArm (x0 : Fin 16) : Statement (.camArm x0) := ofNone rfl
theorem segpush (x0 : Fin 16) : Statement (.segpush x0) := ofNone rfl
theorem flush (x0 : Fin 16) : Statement (.flush x0) := ofNone rfl
theorem segmentEnd (x0 : Fin 4) : Statement (.segmentEnd x0) := ofNone rfl
theorem limitInput (x0 : Fin 16) (x1 : Bool) (x2 : Bool) (x3 : Bool) : Statement (.limitInput x0 x1 x2 x3) := ofNone rfl
theorem stepPulse (x0 : Fin 16) (x1 : Nat) : Statement (.stepPulse x0 x1) := ofNone rfl
theorem blindHoldEnd (x0 : Fin 16) : Statement (.blindHoldEnd x0) := ofNone rfl
theorem islandEdgeFrame (x0 : FrameArrival) : Statement (.islandEdgeFrame x0) := ofNone rfl
theorem stoppedHeartbeat (x0 : Bool) : Statement (.stoppedHeartbeat x0) := ofNone rfl
theorem configSend (x0 : HostPort) (x1 : Word) : Statement (.configSend x0 x1) := ofNone rfl
theorem dioSample (x0 : Fin 16) (x1 : Bool) : Statement (.dioSample x0 x1) := ofNone rfl
theorem fieldReport (x0 : FieldReport) : Statement (.fieldReport x0) := ofNone rfl
theorem dioOverload (x0 : Fin 16) : Statement (.dioOverload x0) := ofNone rfl
theorem dfclr (x0 : BitVec 16) : Statement (.dfclr x0) := ofNone rfl
theorem aoCompliance (x0 : Fin 4) : Statement (.aoCompliance x0) := ofNone rfl
theorem aoThermalShutdown (x0 : Fin 4) : Statement (.aoThermalShutdown x0) := ofNone rfl
theorem fclr (x0 : Fin 4) (x1 : Int) : Statement (.fclr x0 x1) := ofNone rfl
theorem aiSample (x0 : Fin 4) (x1 : Nat) (x2 : Bool) : Statement (.aiSample x0 x1 x2) := ofNone rfl
theorem aiProtEnd (x0 : Fin 4) : Statement (.aiProtEnd x0) := ofNone rfl
theorem fieldUndervoltage (x0 : Bool) : Statement (.fieldUndervoltage x0) := ofNone rfl
theorem foldBack (x0 : Bool) : Statement (.foldBack x0) := ofNone rfl
theorem conversion (x0 : TsVolts) (x1 : Int) (x2 : Bool) (x3 : Bool) : Statement (.conversion x0 x1 x2 x3) := ofNone rfl
theorem tendrilSlot (x0 : Bool) : Statement (.tendrilSlot x0) := ofNone rfl
theorem uplinkReceive (x0 : Bool) (x1 : BitVec 16) (x2 : BitVec 16) : Statement (.uplinkReceive x0 x1 x2) := ofNone rfl
theorem setptWrite (x0 : Word) : Statement (.setptWrite x0) := ofNone rfl
theorem nvWrite (x0 : HostPort) : Statement (.nvWrite x0) := ofNone rfl
theorem nvRead (x0 : HostPort) : Statement (.nvRead x0) := ofNone rfl
theorem nvTransferEnd (x0 : NvEnd) : Statement (.nvTransferEnd x0) := ofNone rfl
theorem hartRequest (x0 : Nat) (x1 : Bool) (x2 : List Byte) : Statement (.hartRequest x0 x1 x2) := ofNone rfl
theorem hartReplySend (x0 : Nat) : Statement (.hartReplySend x0) := ofNone rfl
theorem harnessCycle (x0 : HarnessSample) (x1 : HarnessSample) (x2 : HarnessTrouble) : Statement (.harnessCycle x0 x1 x2) := ofNone rfl
theorem testPulse (x0 : Fin 8) (x1 : Bool) : Statement (.testPulse x0 x1) := ofNone rfl
theorem outputDip (x0 : Fin 4) (x1 : Bool) : Statement (.outputDip x0 x1) := ofNone rfl
theorem discrepancyTimeout (x0 : Fin 8) : Statement (.discrepancyTimeout x0) := ofNone rfl
theorem synchronismTimeout (x0 : Fin 8) : Statement (.synchronismTimeout x0) := ofNone rfl
theorem harnessReset (x0 : ResetCycle) : Statement (.harnessReset x0) := ofNone rfl
theorem statusFrameReceive (x0 : Bool) : Statement (.statusFrameReceive x0) := ofNone rfl
theorem sealSend (x0 : HostPort) (x1 : Word) : Statement (.sealSend x0 x1) := ofNone rfl
theorem proposalReceive (x0 : Bool) : Statement (.proposalReceive x0) := ofNone rfl
theorem configActivate (x0 : Nat) (x1 : Bool) : Statement (.configActivate x0 x1) := ofNone rfl
theorem configWriteEnd (x0 : Bool) : Statement (.configWriteEnd x0) := ofNone rfl
theorem vsafePowerUp (x0 : VsafeUp) : Statement (.vsafePowerUp x0) := ofNone rfl
theorem hqCount (x0 : HqInput) (x1 : Bool) (x2 : Bool) : Statement (.hqCount x0 x1 x2) := ofNone rfl
theorem coilFault (x0 : Fin 2) : Statement (.coilFault x0) := ofNone rfl
theorem brakeDue (x0 : Fin 2) : Statement (.brakeDue x0) := ofNone rfl
theorem brakeOverdue (x0 : Fin 2) : Statement (.brakeOverdue x0) := ofNone rfl
theorem brakeTestStart (x0 : Fin 2) : Statement (.brakeTestStart x0) := ofNone rfl
theorem caskApply (x0 : VerifyEnv) : Statement (.caskApply x0) := ofNone rfl
theorem logResume (x0 : HostPort) : Statement (.logResume x0) := ofNone rfl
theorem spillclr (x0 : HostPort) (x1 : Word) : Statement (.spillclr x0 x1) := ofNone rfl
theorem pop (x0 : Word) : Statement (.pop x0) := ofNone rfl
theorem holdfClear (x0 : HostPort) : Statement (.holdfClear x0) := ofNone rfl
theorem fpdisClear (x0 : HostPort) : Statement (.fpdisClear x0) := ofNone rfl
theorem swset (x0 : Word) : Statement (.swset x0) := ofNone rfl
theorem tempWarning (x0 : Int) : Statement (.tempWarning x0) := ofNone rfl
theorem tempCritical (x0 : Int) : Statement (.tempCritical x0) := ofNone rfl
theorem clockLoss (x0 : ClockLoss) : Statement (.clockLoss x0) := ofNone rfl
theorem dramEccRead (x0 : Nat) (x1 : Bool) : Statement (.dramEccRead x0 x1) := by
  intro h a e
  simp only [Instr.addr, Option.some.injEq] at e
  simp only [Instr.wf, accessOk, regOk, fits, Bool.and_eq_true, decide_eq_true_eq] at h
  first | omega | (split at h <;> omega)
theorem hostRead (x0 : HostPort) (x1 : Bool) (x2 : Nat) (x3 : AccSize) (x4 : Ecc) : Statement (.hostRead x0 x1 x2 x3 x4) := by
  intro h a e
  simp only [Instr.addr, Option.some.injEq] at e
  simp only [Instr.wf, accessOk, regOk, fits, Bool.and_eq_true, decide_eq_true_eq] at h
  first | omega | (split at h <;> omega)
theorem hostDramWrite (x0 : HostPort) (x1 : Nat) (x2 : AccSize) (x3 : DWord) : Statement (.hostDramWrite x0 x1 x2 x3) := by
  intro h a e
  simp only [Instr.addr, Option.some.injEq] at e
  simp only [Instr.wf, accessOk, regOk, fits, Bool.and_eq_true, decide_eq_true_eq] at h
  first | omega | (split at h <;> omega)
theorem pcieLinkChange (x0 : HostPort) (x1 : Bool) : Statement (.pcieLinkChange x0 x1) := ofNone rfl
theorem pcieConfigRequest (x0 : HostPort) (x1 : CfgRequest) : Statement (.pcieConfigRequest x0 x1) := ofNone rfl
theorem quadEdge (x0 : Fin 16) (x1 : Bool) (x2 : Bool) (x3 : HeldLevel) : Statement (.quadEdge x0 x1 x2 x3) := ofNone rfl
theorem hallStep (x0 : Fin 16) (x1 : BitVec 3) (x2 : HeldLevel) : Statement (.hallStep x0 x1 x2) := ofNone rfl
theorem zEdge (x0 : ZRise) : Statement (.zEdge x0) := ofNone rfl
theorem zeroSpeedTimeout (x0 : Fin 16) : Statement (.zeroSpeedTimeout x0) := ofNone rfl
theorem ssiFrameStart (x0 : Fin 16) : Statement (.ssiFrameStart x0) := ofNone rfl
theorem serialFrameEnd (x0 : Fin 16) (x1 : SerialFrame) : Statement (.serialFrameEnd x0 x1) := ofNone rfl
theorem rs485Request (x0 : Fin 16) : Statement (.rs485Request x0) := ofNone rfl
theorem rs485Timeout (x0 : Fin 16) : Statement (.rs485Timeout x0) := ofNone rfl
theorem serialStaleTimeout (x0 : Fin 16) : Statement (.serialStaleTimeout x0) := ofNone rfl
theorem sincosSample (x0 : Fin 16) (x1 : BitVec 14) (x2 : BitVec 14) (x3 : BitVec 32) (x4 : Bool) (x5 : DWord) : Statement (.sincosSample x0 x1 x2 x3 x4 x5) := ofNone rfl
theorem capEdge (x0 : Fin 8) (x1 : Bool) (x2 : HeldLevel) : Statement (.capEdge x0 x1 x2) := ofNone rfl
theorem latchTimeout (x0 : Fin 8) : Statement (.latchTimeout x0) := ofNone rfl
theorem setpos (x0 : Fin 16) : Statement (.setpos x0) := ofNone rfl
theorem refset (x0 : Fin 16) : Statement (.refset x0) := ofNone rfl
theorem zarm (x0 : Fin 16) : Statement (.zarm x0) := ofNone rfl
theorem rearm (x0 : Fin 8) : Statement (.rearm x0) := ofNone rfl
theorem fbTypeChange (x0 : HostPort) (x1 : Fin 16) (x2 : Word) : Statement (.fbTypeChange x0 x1 x2) := ofNone rfl
theorem controlPass (x0 : Fin 16) (x1 : PassBits) : Statement (.controlPass x0 x1) := ofNone rfl
theorem chopperPass (x0 : Fin 16) (x1 : PassBits) : Statement (.chopperPass x0 x1) := ofNone rfl
theorem chopperModeTimeout (x0 : Fin 16) : Statement (.chopperModeTimeout x0) := ofNone rfl
theorem engineOverrun (x0 : Overrun) : Statement (.engineOverrun x0) := ofNone rfl
theorem carrierValley (x0 : Fin 16) : Statement (.carrierValley x0) := ofNone rfl
theorem overcurrentTrip (x0 : Fin 24) (x1 : Word) : Statement (.overcurrentTrip x0 x1) := ofNone rfl
theorem sdError (x0 : Fin 24) : Statement (.sdError x0) := ofNone rfl
theorem frset (x0 : Fin 16) : Statement (.frset x0) := ofNone rfl
theorem frclr (x0 : Fin 16) : Statement (.frclr x0) := ofNone rfl
theorem cgset (x0 : Fin 16) : Statement (.cgset x0) := ofNone rfl
theorem cgclr (x0 : Fin 16) : Statement (.cgclr x0) := ofNone rfl
theorem tableWrite (x0 : Fin 16) (x1 : Word) : Statement (.tableWrite x0 x1) := ofNone rfl
theorem gainWrite (x0 : Fin 16) (x1 : Nat) (x2 : Word) : Statement (.gainWrite x0 x1 x2) := ofNone rfl
theorem jobGo (x0 : Fin 2) : Statement (.jobGo x0) := ofNone rfl
theorem jobAbort (x0 : Fin 2) : Statement (.jobAbort x0) := ofNone rfl
theorem rowFetch (x0 : Fin 2) (x1 : Option SramError) : Statement (.rowFetch x0 x1) := ofNone rfl
theorem indexDue (x0 : Fin 2) : Statement (.indexDue x0) := ofNone rfl
theorem delayedFiring (x0 : Fin 2) : Statement (.delayedFiring x0) := ofNone rfl
theorem firingEnd (x0 : Fin 2) : Statement (.firingEnd x0) := ofNone rfl
theorem headFault (x0 : Fin 2) (x1 : Bool) : Statement (.headFault x0 x1) := ofNone rfl
theorem densityWrite (x0 : Fin 2) (x1 : Word) : Statement (.densityWrite x0 x1) := ofNone rfl
theorem sliceWidthWrite (x0 : Fin 2) (x1 : Word) : Statement (.sliceWidthWrite x0 x1) := ofNone rfl
theorem ratioWrite (x0 : HostPort) (x1 : Fin 2) (x2 : Word) : Statement (.ratioWrite x0 x1 x2) := ofNone rfl
theorem frameStart (x0 : Fin 2) (x1 : CsiStart) : Statement (.frameStart x0 x1) := ofNone rfl
theorem frameEnd (x0 : Fin 2) (x1 : CsiEnd) : Statement (.frameEnd x0 x1) := ofNone rfl
theorem frameReady (x0 : Fin 2) : Statement (.frameReady x0) := ofNone rfl
theorem graphRun (x0 : Fin 4) : Statement (.graphRun x0) := ofNone rfl
theorem graphStop (x0 : Fin 4) : Statement (.graphStop x0) := ofNone rfl
theorem qcycWrite (x0 : Fin 4) (x1 : Word) : Statement (.qcycWrite x0 x1) := ofNone rfl
theorem confminWrite (x0 : Fin 4) (x1 : Word) : Statement (.confminWrite x0 x1) := ofNone rfl
theorem missingTimeout (x0 : Fin 4) : Statement (.missingTimeout x0) := ofNone rfl
theorem handoffWrite (x0 : Fin 4) : Statement (.handoffWrite x0) := ofNone rfl
theorem handoffExpiry (x0 : Nat) : Statement (.handoffExpiry x0) := ofNone rfl
theorem hoffrdWrite (x0 : HostPort) (x1 : Word) : Statement (.hoffrdWrite x0 x1) := ofNone rfl
theorem treeLoadEnd (x0 : Bool) : Statement (.treeLoadEnd x0) := ofNone rfl
theorem trimGo (x0 : Word) : Statement (.trimGo x0) := ofNone rfl
theorem trimStepEnd (x0 : BitVec 4) (x1 : List Word) : Statement (.trimStepEnd x0 x1) := ofNone rfl
theorem trimRestoreWrite (x0 : HostPort) (x1 : Nat) (x2 : Word) : Statement (.trimRestoreWrite x0 x1 x2) := by
  intro h a e
  simp only [Instr.addr, Option.some.injEq] at e
  simp only [Instr.wf, accessOk, regOk, fits, Bool.and_eq_true, decide_eq_true_eq] at h
  first | omega | (split at h <;> omega)
theorem idRead (x0 : BitVec 4) : Statement (.idRead x0) := ofNone rfl
theorem idReadEnd (x0 : Fin 4) (x1 : IdWire) : Statement (.idReadEnd x0 x1) := ofNone rfl
theorem idLanding (x0 : Fin 4) : Statement (.idLanding x0) := ofNone rfl
theorem monInfo (x0 : MonFrame) : Statement (.monInfo x0) := ofNone rfl
theorem monRead (x0 : MonFrame) : Statement (.monRead x0) := ofNone rfl
theorem monWrite (x0 : MonFrame) : Statement (.monWrite x0) := ofNone rfl
theorem monCore (x0 : MonFrame) : Statement (.monCore x0) := ofNone rfl
theorem monUnlock (x0 : MonFrame) : Statement (.monUnlock x0) := ofNone rfl
theorem monClose (x0 : MonFrame) : Statement (.monClose x0) := ofNone rfl
theorem monHold (x0 : MonFrame) : Statement (.monHold x0) := ofNone rfl
theorem monStep (x0 : MonFrame) : Statement (.monStep x0) := ofNone rfl
theorem monFree (x0 : MonFrame) : Statement (.monFree x0) := ofNone rfl
theorem monTrace (x0 : MonFrame) : Statement (.monTrace x0) := ofNone rfl
theorem monBaud (x0 : MonFrame) : Statement (.monBaud x0) := ofNone rfl
theorem monCodeWrite (x0 : HostPort) (x1 : Word) : Statement (.monCodeWrite x0 x1) := ofNone rfl
theorem slipLimit : Statement .slipLimit := ofNone rfl
theorem computeStart : Statement .computeStart := ofNone rfl
theorem stageStart : Statement .stageStart := ofNone rfl
theorem loadVerifyEnd : Statement .loadVerifyEnd := ofNone rfl
theorem hbTimeout : Statement .hbTimeout := ofNone rfl
theorem wakeTimerExpiry : Statement .wakeTimerExpiry := ofNone rfl
theorem harnessLinkLoss : Statement .harnessLinkLoss := ofNone rfl
theorem treeLoad : Statement .treeLoad := ofNone rfl
theorem heartbeatAck : Statement .heartbeatAck := ofNone rfl
theorem configResend : Statement .configResend := ofNone rfl
theorem totalOverload : Statement .totalOverload := ofNone rfl
theorem resume : Statement .resume := ofNone rfl
theorem silenceTimeout : Statement .silenceTimeout := ofNone rfl
theorem immediateSafeMarker : Statement .immediateSafeMarker := ofNone rfl
theorem islandPowerUp : Statement .islandPowerUp := ofNone rfl
theorem tendrilStart : Statement .tendrilStart := ofNone rfl
theorem brownOut : Statement .brownOut := ofNone rfl
theorem sourceSelect : Statement .sourceSelect := ofNone rfl
theorem tendrilLinkLoss : Statement .tendrilLinkLoss := ofNone rfl
theorem hartRecordLanding : Statement .hartRecordLanding := ofNone rfl
theorem hartReplyGo : Statement .hartReplyGo := ofNone rfl
theorem hrstTooLong : Statement .hrstTooLong := ofNone rfl
theorem statusFrame : Statement .statusFrame := ofNone rfl
theorem pendingExpiry : Statement .pendingExpiry := ofNone rfl
theorem vsafeLow : Statement .vsafeLow := ofNone rfl
theorem testHoldEnd : Statement .testHoldEnd := ofNone rfl
theorem testAckTimeout : Statement .testAckTimeout := ofNone rfl
theorem commitWordWrite : Statement .commitWordWrite := ofNone rfl
theorem faultPulseEnd : Statement .faultPulseEnd := ofNone rfl
theorem dramStall : Statement .dramStall := ofNone rfl
theorem supplyFault : Statement .supplyFault := ofNone rfl
theorem trimNext : Statement .trimNext := ofNone rfl
theorem trimAbort : Statement .trimAbort := ofNone rfl
theorem trimPointReached : Statement .trimPointReached := ofNone rfl
theorem trimPointTimeout : Statement .trimPointTimeout := ofNone rfl
theorem monStepEnd : Statement .monStepEnd := ofNone rfl
theorem monFrameGap : Statement .monFrameGap := ofNone rfl
theorem monFrameError : Statement .monFrameError := ofNone rfl
theorem monIdleTimeout : Statement .monIdleTimeout := ofNone rfl
theorem vfieldRecovery : Statement .vfieldRecovery := ofNone rfl
theorem vsafeRecovery : Statement .vsafeRecovery := ofNone rfl

end Sys2Proof.Laws.addrBound
end

