-- ==== Sys2Proof/Machine/Pins.lean ====
section
/-! DEFINITION. The levels of the logic island's output pins (R120, R121, R126, R128, R162, R164, R174, R202, R203, R212, R219,
R220): what the state drives on each, at an instant in tick units. -/
namespace Sys2Proof.Machine

inductive Level where
  | highZ
  | low
  | high
  deriving DecidableEq, Repr

def Level.ofBool (b : Bool) : Level := if b then .high else .low

/-- A pin before READY is in high impedance, and after it at the given level (R126). -/
def padLevel (d : Dev) (b : Bool) : Level := if d.ready then .ofBool b else .highZ

/-- The mode whose outputs apply: Trim keeps those of the mode it was entered from (R120). -/
def outMode (d : Dev) : Mode := if d.mode = .trim then d.origin else d.mode

/-! ## PWM outputs (R201 to R204) -/

/-- The lane and phase that drive output i (R204). -/
def pwmOwner (d : Dev) (i : Nat) : Option (Fin 16 × Fin 4) :=
  ((List.finRange 16).flatMap (fun (n : Fin 16) => (List.finRange 4).map (fun (p : Fin 4) => (n, p)))).find?
    (fun o => laneKind d o.1 && decide (phaseOut d o.1 o.2 = i) && (decide (d.kind o.1 = 2) || decide (o.2.val < 3)))

/-- The period of lane n's carrier in 1/16 core cycles (R200). -/
def carrierPeriod (d : Dev) (n : Fin 16) : Nat :=
  let c := d.reg (CTL_CARRIER n)
  if bit c 31 then 8 * d.tickLen / bits c 30 24 else 16 * bits c 20 0

/-- Output pair k is complementary (R202). -/
def pairMode (d : Dev) (k : Nat) : Bool := bit (d.reg CTL_PAIRMODE) k

/-- The switch of output i is on, u sixteenths of a cycle after a valley: the high side for d × T centred on the peak, its
complement for the rest; in complementary mode each turn-on comes DTIME later, and one no longer than that never comes. -/
def switchOn (d : Dev) (i u : Nat) : Bool :=
  let odd := decide (i % 2 = 1) && pairMode d (i / 2)
  match pwmOwner d (if odd then i - 1 else i) with
  | none => false
  | some (n, p) =>
    let t := carrierPeriod d n
    let on := min t (onTime d n p)
    let rise := (t - on) / 2
    let dead := if pairMode d (i / 2) then d.fld (CTL_DTIME n) 15 0 else 0
    if !(d.lane n).drive then false
    else if odd then
      decide (on < t) && (decide (on = 0) || (decide (dead < t - on) &&
        decide (dead ≤ (u + t - (rise + on)) % t) && decide ((u + t - (rise + on)) % t < t - on)))
    else decide (0 < on) && (decide (on = t) || (decide (dead < on) && decide (rise + dead ≤ u) && decide (u < rise + on)))

/-- Output i is active low (R203). -/
def activeLow (d : Dev) (i : Nat) : Bool :=
  if i < 32 then bit (d.reg CTL_POL0) i else bit (d.reg CTL_POL1) (i - 32)

/-- PWMi, u sixteenths of a cycle after a valley of its carrier. -/
def pwmPin (d : Dev) (i u : Nat) : Level :=
  padLevel d ((decide (outMode d = .run) && !d.halted && switchOn d i u) != activeLow d i)

/-- GENx (R164). -/
def genPin (d : Dev) (x : Nat) : Level := padLevel d (genHigh d x)

/-! ## Step and direction (R174) -/

/-- The pulse that step generator n issued last is in progress. -/
def pulsing (d : Dev) (n : Fin 16) (t : Nat) : Bool :=
  match (d.axis n).stepAt with
  | some s => decide (s ≤ t) && decide (t < s + stepHigh d n)
  | none => false

/-- STPn: low for a slot that is not of kind 3, in Commission and in a Halt; in Hold low once the pulse in progress is complete. -/
def stpPin (d : Dev) (n : Fin 16) (t : Nat) : Level :=
  let pol := d.flag (AX_STEP n) 24
  padLevel d (decide (d.kind n = 3) && !d.halted && (match outMode d with
    | .run => pulsing d n t != pol
    | .hold => pulsing d n t && !pol
    | _ => false))

/-- DIRn: low is the positive direction with INVDIR = 0 (DESIGN CHOICE, assumption 128); low in Commission and for a slot that is
not of kind 3; held in Hold and in a Halt. -/
def dirPin (d : Dev) (n : Fin 16) : Level :=
  padLevel d (decide (d.kind n = 3) && (match outMode d with
    | .run | .hold => (d.axis n).back != d.flag (AX_CFG n) 6
    | _ => false))

/-! ## Print ports (R212, R219, R220) -/

/-- The bits of a slice that are on the wire at an instant: the tables and rows, the slice and when its shift began. -/
structure Shifting where
  start : Nat
  slice : Nat
  den   : List Word
  rows  : List (Option (List Byte))
  deriving DecidableEq, Repr

/-- What port p shifts at an instant: slice 0 of its next index, or slice s + 1 of the firing while the strobes of s run. -/
def shifting (d : Dev) (p : Fin 2) (t : Nat) : Option Shifting :=
  let x := d.prtp p
  let fromFiring := x.firing.bind (fun f =>
    ((List.range (f.slices - 1)).find? (fun s => decide (f.strobeRise s ≤ t) &&
        decide (t < f.strobeRise s + printClock f.cfg * f.dots))).map
      (fun s => (⟨f.strobeRise s, s + 1, f.den, f.rows⟩ : Shifting)))
  let fromNext := x.shift.bind (fun h => if h.start ≤ t ∧ t < h.done then some ⟨h.start, 0, h.den, h.rows⟩ else none)
  fromFiring.or fromNext

/-- The outputs of a port may be active: it is enabled and the device is not halted (R120, R212). -/
def printOn (d : Dev) (p : Fin 2) : Bool := d.flag (PRT_CFG p) 0 && !d.halted

/-- PHp_CLK: only while bits are shifted; low in the first half of a period and high in the second (assumption 131). -/
def phClk (d : Dev) (p : Fin 2) (t : Nat) : Level :=
  let c := printClock (d.reg (PRT_CFG p))
  padLevel d (printOn d p && (match shifting d p t with
    | some h => decide (c / 2 ≤ (t - h.start) % c)
    | none => false))

/-- PHp_Dc: dot k of the slice for the whole of clock k of its shift, dot 0 first. -/
def phData (d : Dev) (p : Fin 2) (c : Fin 4) (t : Nat) : Level :=
  padLevel d (printOn d p && decide (c.val < prtColours d p) && (match shifting d p t with
    | some h => dotBit h.den h.rows (prtDots d p) c h.slice ((t - h.start) / printClock (d.reg (PRT_CFG p)))
    | none => false))

/-- PHp_LAT: high for LATW clocks at the start of each slice. -/
def phLat (d : Dev) (p : Fin 2) (t : Nat) : Level :=
  padLevel d (printOn d p && (match (d.prtp p).firing with
    | some f => (List.range f.slices).any (fun s =>
        decide (f.sliceStart s ≤ t) && decide (t < f.sliceStart s + printClock f.cfg * f.latW))
    | none => false))

/-- PHp_STBc: high for the width of colour c in each slice, after LATW + LATSU clocks, while strobes may rise. -/
def phStb (d : Dev) (p : Fin 2) (c : Fin 4) (t : Nat) : Level :=
  padLevel d (printOn d p && (match (d.prtp p).firing with
    | some f => f.strobe && decide (c.val < f.colours) && (List.range f.slices).any (fun s =>
        decide (f.strobeRise s ≤ t) && decide (t < f.strobeRise s + printClock f.cfg * f.width c s))
    | none => false))

/-! ## FAULT_N, MON_TX and the sigma-delta clocks -/

/-- FAULT_N: low while a fault holds it asserted, high otherwise; in high impedance in reset (R126, R128). -/
def faultNPin (d : Dev) : Level := padLevel d (!faultLow d)

/-- MON_TX while no byte is sent: idle high (R126). -/
def monTxIdle (d : Dev) : Level := padLevel d true

/-- SDCKg while its group is not enabled: low from READY (R396). -/
def sdckIdle (d : Dev) : Level := padLevel d false

/-! ## The Harness outputs (R297, R300, R303, R308, R319) -/

/-- HTx: low for the two samples of its pulse, in FAULT and without VSAFE; high at all other times. -/
def htPin (h : Harness) (x : Fin 8) : Level := .ofBool (h.powered && decide (h.state ≠ 2) && decide (h.mask[x] < 3))

/-- HOxA and HOxB, dips apart: the pair switches VSAFE through while it is energised. -/
def hoPin (h : Harness) (x : Fin 4) : Level := .ofBool (h.powered && bit h.pairs x)

/-- The coil of HBb is switched on: the brake is released. -/
def hbOn (h : Harness) (b : Fin 2) : Bool := h.powered && h.brakes[b].on

end Sys2Proof.Machine
end

