-- ==== Sys2Proof/Tests/Slice0.lean ====
section
/-! SUPPORT. Tests: ill-formed operands that `Instr.wf` refuses, single commands with results worked out by hand from the spec,
and for every obligation a concrete state that meets its hypotheses. -/
namespace Sys2Proof.Tests
open Sys2Proof
open Sys2Proof.Machine
open Sys2Proof.Claims

set_option maxRecDepth 4000
set_option Elab.async false

/-! ## Small states -/

/-- READY in Commission, with the reins at port A. -/
def up : Dev :=
  { State.reset.dev with ready := true, mode := .commission, reins := { State.reset.dev.reins with holder := some .a } }

/-- A machine whose programs see the device as it stands. -/
def st (d : Dev) : State := { dev := d, snap := d, pending := [] }

/-- The device after a command. -/
def out (o : Host.Outcome State Fault Refusal) : Dev :=
  match o with
  | .next t => t.dev
  | _ => State.reset.dev

/-- `up` in Compute, with core 0 running a tick program from a given state. -/
def comp (c : Core) : State :=
  st { up with tick := { up.tick with phase := .compute, due := 1000000 }, cores := up.cores.set 0 { c with run := .tick } }

/-- An instruction of core 0 with predicate p0 and good ECC, from its format bits; and from the fields of format R. -/
def lim (w : BitVec 20) : Lim := { core := 0, inv := false, pn := 0, w := w, fetch := .ok, data := .ok }
def limR (rd ra rb fn : Nat) : Lim := lim (BitVec.ofNat 20 (rd * 32768 + ra * 1024 + rb * 32 + fn))

/-- g1 and g2 with given values. -/
def regs (a b : Word) : State := comp { Core.reset with g := (Core.reset.g.set 1 a).set 2 b }

/-- Core 0 after an instruction. -/
def core0 (o : Host.Outcome State Fault Refusal) : Core := (out o).core 0

/-- The hypotheses of `Executes` are decidable. -/
theorem exe (o : Lim) (s : State)
    (h : issuing s.dev o.core = true ∧ o.fetch ≠ .uncorrectable ∧ okPred o = true ∧
      ((from_ o s).pr o.pn.toNat != o.inv) = true) : Executes o s :=
  ⟨⟨h.1, h.2.1, h.2.2.1⟩, h.2.2.2⟩

theorem serves (p : HostPort) (s : State)
    (h : s.dev.ready = true ∧ ((s.dev.port p).pcie = true → (s.dev.port p).d3hot = false) ∧ s.dev.pw.stopped = false ∧
      (s.dev.port p).held = []) : Serves p s :=
  ⟨h.1, h.2.1, h.2.2.1, h.2.2.2⟩

theorem holdsPort (p : HostPort) (s : State)
    (h : (s.dev.ready = true ∧ ((s.dev.port p).pcie = true → (s.dev.port p).d3hot = false) ∧ s.dev.pw.stopped = false ∧
      (s.dev.port p).held = []) ∧ s.dev.reins.holder = some p ∧ stagedBy p s.dev < 256) : Holds p s :=
  ⟨serves p s h.1, h.2.1, h.2.2⟩

/-- The operands of `up`, where port A holds the reins. -/
theorem wit_Holds : Holds .a (st up) := holdsPort _ _ (by decide)
theorem wit_Serves : Serves .a (st up) := serves _ _ (by decide)

/-! ## Limath: results (03_limath.md) -/

theorem test_add_wraps : (core0 (exec (.add (limR 3 1 2 0)) (regs 0xFFFFFFFF 1))).gr 3 = 0 := by decide
theorem test_addi_negative : (core0 (exec (.addi (limR 3 1 31 31)) (regs 5 0))).gr 3 = 4 := by decide
theorem test_sub_wraps : (core0 (exec (.sub (limR 3 1 2 0)) (regs 0 1))).gr 3 = 0xFFFFFFFF := by decide
theorem test_adds_signed : (core0 (exec (.adds (limR 3 1 2 0)) (regs 0x7FFFFFFF 1))).gr 3 = 0x7FFFFFFF := by decide
theorem test_adds_sat : (core0 (exec (.adds (limR 3 1 2 1)) (regs 0xFFFFFFFF 1))).cst = 1 := by decide
theorem test_subs_unsigned : (core0 (exec (.subs (limR 3 1 2 1)) (regs 1 2))).gr 3 = 0 := by decide
theorem test_mul_low : (core0 (exec (.mul (limR 3 1 2 0)) (regs 0x10001 0x10001))).gr 3 = 0x20001 := by decide
theorem test_mulh_signed : (core0 (exec (.mulh (limR 3 1 2 0)) (regs 0xFFFFFFFF 2))).gr 3 = 0xFFFFFFFF := by decide
theorem test_mulh_unsigned : (core0 (exec (.mulh (limR 3 1 2 1)) (regs 0xFFFFFFFF 2))).gr 3 = 1 := by decide
theorem test_div_toward_zero : (core0 (exec (.div (limR 3 1 2 0)) (regs 0xFFFFFFF9 2))).gr 3 = 0xFFFFFFFD := by decide
theorem test_div_zero : (core0 (exec (.div (limR 3 1 2 0)) (regs 0xFFFFFFF9 0))).gr 3 = 0x80000000 := by decide
theorem test_rem_sign : (core0 (exec (.rem (limR 3 1 2 0)) (regs 0xFFFFFFF9 2))).gr 3 = 0xFFFFFFFF := by decide
theorem test_and : (core0 (exec (.and (limR 3 1 2 0)) (regs 12 10))).gr 3 = 8 := by decide
theorem test_or : (core0 (exec (.or (limR 3 1 2 0)) (regs 12 10))).gr 3 = 14 := by decide
theorem test_xor : (core0 (exec (.xor (limR 3 1 2 0)) (regs 12 10))).gr 3 = 6 := by decide
theorem test_andi_zero_extends : (core0 (exec (.andi (limR 3 1 31 31)) (regs 0xFFFFFFFF 0))).gr 3 = 0x3FF := by decide
theorem test_shl_32 : (core0 (exec (.shl (limR 3 1 2 0)) (regs 1 32))).gr 3 = 0 := by decide
theorem test_shr : (core0 (exec (.shr (limR 3 1 2 0)) (regs 0x80000000 31))).gr 3 = 1 := by decide
theorem test_sar_40 : (core0 (exec (.sar (limR 3 1 2 0)) (regs 0x80000000 40))).gr 3 = 0xFFFFFFFF := by decide
theorem test_rot_right : (core0 (exec (.rot (limR 3 1 2 0)) (regs 1 33))).gr 3 = 0x80000000 := by decide
theorem test_min_signed : (core0 (exec (.min (limR 3 1 2 0)) (regs 0xFFFFFFFF 1))).gr 3 = 0xFFFFFFFF := by decide
theorem test_max_unsigned : (core0 (exec (.max (limR 3 1 2 1)) (regs 0xFFFFFFFF 1))).gr 3 = 0xFFFFFFFF := by decide
theorem test_abs_saturates : (core0 (exec (.abs (limR 3 1 0 0)) (regs 0x80000000 0))).gr 3 = 0x7FFFFFFF := by decide
theorem test_clz_zero : (core0 (exec (.clz (limR 3 1 0 0)) (regs 0 0))).gr 3 = 32 := by decide
theorem test_popc : (core0 (exec (.popc (limR 3 1 0 0)) (regs 0xF00F 0))).gr 3 = 8 := by decide
theorem test_movi_negative : (core0 (exec (.movi (limR 3 31 31 31)) (regs 0 0))).gr 3 = 0xFFFFFFFF := by decide
theorem test_clamp : (core0 (exec (.clamp (limR 2 1 1 0)) (regs 5 9))).gr 2 = 5 := by decide
theorem test_cmp_unsigned : (core0 (exec (.cmp (limR 1 1 2 4)) (regs 1 0xFFFFFFFF))).pr 1 = true := by decide
theorem test_fadd : (core0 (exec (.fadd (limR 3 1 2 0))
    (comp { Core.reset with f := (Core.reset.f.set 1 0x3F800000).set 2 0x40000000 }))).fr 3 = 0x40400000 := by decide
theorem test_fdiv_by_zero : (core0 (exec (.fdiv (limR 3 1 2 0))
    (comp { Core.reset with f := Core.reset.f.set 1 0x3F800000 }))).fr 3 = 0x7F800000 := by decide
theorem test_fmul_flushes : (core0 (exec (.fmul (limR 3 1 2 0))
    (comp { Core.reset with f := (Core.reset.f.set 1 0x00800000).set 2 0x3F000000 }))).fr 3 = 0 := by decide
theorem test_mac_saturates : (core0 (exec (.mac (limR 0 1 2 0))
    (comp { Core.reset with g := (Core.reset.g.set 1 1).set 2 1, a := Core.reset.a.set 0 0x7FFFFFFFFFFFFFFF }))).ac 0 =
    0x7FFFFFFFFFFFFFFF := by decide
theorem test_call : (core0 (exec (.call (lim 0x123)) (comp { Core.reset with pc := 7 }))).stack = [8] := by decide
theorem test_ret_empty : (out (exec (.ret (lim 0)) (comp Core.reset))).reg (LIM_EXC 0) = 0x80000006 := by decide
theorem test_loop_count : (core0 (exec (.loop (lim 0x45)) (comp Core.reset))).lc[0] = 0x45 := by decide
theorem test_store_load : (core0 (exec (.ldw (limR 3 1 0 0))
    (comp { Core.reset with dmem := Memory.setWord [] 0x20 0x12345678, g := Core.reset.g.set 1 0x22 }))).gr 3 = 0x12345678 := by decide
theorem test_ldb_sign : (core0 (exec (.ldb (limR 3 1 0 1))
    (comp { Core.reset with dmem := Memory.setWord [] 0x20 0x1280, g := Core.reset.g.set 1 0x1F }))).gr 3 = 0xFFFFFF80 := by decide
theorem test_stw_big_endianless : ((core0 (exec (.stw (limR 2 1 0 0)) (regs 0x10 0x11223344))).dmem.byte 0x10) = 0x44 := by decide

/-! ### Witnesses -/

theorem wit_IntegerResults : Executes (limR 3 1 2 0) (regs 5 6) ∧ fnOf (limR 3 1 2 0) ≤ 0 := ⟨exe _ _ (by decide), by decide⟩
theorem wit_IntegerResults_fn1 : Executes (limR 31 1 2 1) (regs 5 6) ∧ fnOf (limR 31 1 2 1) ≤ 1 :=
  ⟨exe _ _ (by decide), by decide⟩
theorem wit_IntegerResults_one_operand : Executes (limR 3 1 0 0) (regs 5 6) ∧ ∀ r ∈ unRows, r.ok (limR 3 1 0 0) :=
  ⟨exe _ _ (by decide), by simp [unRows]; decide⟩
theorem wit_FieldAndConstantResults : Executes (limR 3 1 2 0) (regs 5 6) ∧ ∀ r ∈ wideRows, r.ok (limR 3 1 2 0) :=
  ⟨exe _ _ (by decide), by simp [wideRows]; decide⟩
theorem wit_PredicateAndMoveResults :
    Executes (limR 3 1 2 0) (regs 5 6) ∧ ∀ r ∈ predRows.take 4, r.ok (limR 3 1 2 0) :=
  ⟨exe _ _ (by decide), by simp [predRows]; decide⟩
theorem wit_PredicateAndMoveResults_pmov :
    Executes (limR 0 1 0 1) (regs 5 6) ∧ fnOf (limR 0 1 0 1) = 1 ∧ rdOf (limR 0 1 0 1) = 0 ∧ rbOf (limR 0 1 0 1) = 0 :=
  ⟨exe _ _ (by decide), by decide⟩
theorem wit_AccumulatorResults : Executes (limR 3 1 0 0) (regs 5 6) ∧ ∀ r ∈ accRows.take 5, r.ok (limR 3 1 0 0) :=
  ⟨exe _ _ (by decide), by simp [accRows]; decide⟩
theorem wit_FloatResults : Executes (limR 15 14 13 0) (regs 5 6) ∧ F3 (limR 15 14 13 0) ∧ F2 (limR 15 14 0 0) 0 :=
  ⟨exe _ _ (by decide), ⟨by decide, by decide, by decide, by decide⟩, ⟨by decide, by decide, by decide, by decide⟩⟩
theorem wit_FloatResults_fsc : Executes (limR 14 1 0 0) (regs 5 6) ∧ fnOf (limR 14 1 0 0) = 0 ∧ rbOf (limR 14 1 0 0) = 0 ∧
    rdOf (limR 14 1 0 0) < 16 ∧ rdOf (limR 14 1 0 0) % 2 = 0 := ⟨exe _ _ (by decide), by decide⟩
theorem wit_DivisionCorners_zero : Executes (limR 3 1 2 1) (regs 5 0) ∧ (from_ (limR 3 1 2 1) (regs 5 0)).gr 2 = 0 :=
  ⟨exe _ _ (by decide), by decide⟩
theorem wit_DivisionCorners_over : Executes (limR 3 1 2 0) (regs 0x80000000 0xFFFFFFFF) ∧
    (from_ (limR 3 1 2 0) (regs 0x80000000 0xFFFFFFFF)).gr 1 = 0x80000000 ∧
    (from_ (limR 3 1 2 0) (regs 0x80000000 0xFFFFFFFF)).gr 2 = 0xFFFFFFFF ∧ fnOf (limR 3 1 2 0) = 0 :=
  ⟨exe _ _ (by decide), by decide⟩
theorem wit_ZeroRegister : Executes (limR 0 1 2 0) (regs 5 6) ∧ rdOf (limR 0 1 2 0) = 0 := ⟨exe _ _ (by decide), by decide⟩

/-- A core with its address register g1 at the last word of its data memory, and at the first byte beyond it. -/
def lastWord : State := regs 0x1FFFC 0
def beyond : State := regs 0x20000 0
theorem wit_Loads : Executes (limR 2 1 0 0) lastWord ∧ ea (limR 2 1 0 0) (from_ (limR 2 1 0 0) lastWord) 4 < 0x20000 ∧
    (limR 2 1 0 0).data ≠ .uncorrectable ∧ rdOf (limR 2 1 0 0) % 2 = 0 := ⟨exe _ _ (by decide), by decide⟩
theorem wit_Stores : Executes (limR 2 1 0 0) lastWord ∧ (∀ r ∈ storeRows, r.ok (limR 2 1 0 0)) ∧
    ∀ r ∈ storeRows, ea (limR 2 1 0 0) (from_ (limR 2 1 0 0) lastWord) r.n < 0x20000 :=
  ⟨exe _ _ (by decide), by simp [storeRows]; decide, by simp [storeRows]; decide⟩
theorem wit_AddressBound : Executes (limR 2 1 0 0) beyond ∧ 0x20000 ≤ ea (limR 2 1 0 0) (from_ (limR 2 1 0 0) beyond) 4 :=
  ⟨exe _ _ (by decide), by decide⟩
theorem wit_AddressBound_sram : Executes (limR 2 1 0 0) (regs 0x400000 0) ∧
    0x400000 ≤ ea (limR 2 1 0 0) (from_ (limR 2 1 0 0) (regs 0x400000 0)) 4 := ⟨exe _ _ (by decide), by decide⟩

/-- Core 0 in a subroutine and in a loop, with a cask open. -/
def inLoop : State :=
  comp { Core.reset with pc := 9, stack := [5, 6], lc := Core.reset.lc.set 0 1, body := Core.reset.body.set 0 (some 3),
                         cask := some ⟨7, []⟩, busy := 1, g := Core.reset.g.set 1 3 }
theorem wit_ControlFlow : Executes (lim 0) inLoop ∧ lf (lim 0) 19 14 = 0 ∧ lf (lim 0) 13 0 = 0 ∧
    (from_ (lim 0) inLoop).stack = [5, 6] ∧ (from_ (lim 0) inLoop).stack.length < 8 ∧
    (from_ (lim 0) inLoop).body[lvl (lim 0)] = some 3 ∧ countOf (lim 0) = 0 ∧ rdOf (lim 0) = 0 ∧ rbOf (lim 0) = 0 ∧
    (from_ (lim 0) inLoop).run = .tick := ⟨exe _ _ (by decide), by decide⟩
theorem wit_ControlFlow_loop : Executes (lim 1) inLoop ∧ lf (lim 1) 17 16 = 0 ∧ countOf (lim 1) ≠ 0 :=
  ⟨exe _ _ (by decide), by decide⟩
theorem wit_ControlFlow_loopr : Executes (lim 0x2005) inLoop ∧ boundOf (lim 0x2005) ≠ 0 ∧
    0 < ((from_ (lim 0x2005) inLoop).gr (lraOf (lim 0x2005))).toInt := ⟨exe _ _ (by decide), by decide⟩
theorem wit_PortsCartsAndCasks : Executes (lim 0) inLoop ∧ (lim 0).w = 0 ∧ coreOf (lim 0) < 6 ∧ lf (lim 0) 5 0 = 0 ∧
    coreOf (lim 0) = 0 ∧ (lim 0).data = .ok ∧ rdOf (lim 0) = 0 ∧ idx15 (lim 0) < 8 ∧ lf (lim 0) 19 6 = 0 ∧
    (from_ (lim 0) inLoop).busy.getLsbD (dIdx (lim 0)) = true ∧ fnOf (lim 0) = 0 ∧
    (from_ (lim 0) inLoop).cask = some ⟨7, []⟩ ∧ (from_ (lim 0) inLoop).bad = 0 := ⟨exe _ _ (by decide), by decide⟩
theorem wit_PortsCartsAndCasks_free : Executes (lim 0) (regs 0x20 0) ∧ (from_ (lim 0) (regs 0x20 0)).cask = none ∧
    (from_ (lim 0) (regs 0x20 0)).busy.getLsbD (dIdx (lim 0)) = false := ⟨exe _ _ (by decide), by decide⟩
theorem wit_PortsCartsAndCasks_cld : Executes (limR 2 1 0 0) (regs 0x81014 0) ∧
    eaDown (limR 2 1 0 0) (from_ (limR 2 1 0 0) (regs 0x81014 0)) 4 = 0x81000 + 4 * 5 := ⟨exe _ _ (by decide), by decide⟩

/-- An instruction on p2 = 0. -/
def offP2 : Lim := { lim 0 with pn := 2 }
theorem wit_ExceptionsAndNonExecution : Issued offP2 (regs 5 6) ∧ (from_ offP2 (regs 5 6)).pr 2 = offP2.inv ∧ offP2.w = 0 :=
  ⟨⟨by decide, by decide, by decide⟩, by decide⟩
theorem wit_ExceptionsAndNonExecution_ill : issuing (regs 5 6).dev 0 = true ∧ (lim 0xFFFFF).fetch ≠ .uncorrectable ∧
    (lim 0xFFFFF).w ≠ 0 := by decide
theorem wit_ExceptionsAndNonExecution_code : ((regs 5 6).dev.core 0).run = .tick ∧ (regs 5 6).dev.tick.phase ≠ .idle ∧
    (regs 5 6).dev.fu.stack = [] := by decide

/-! ## Host ports, reins and rings (02_tick.md, 05_host.md) -/

theorem test_period_range : (out (exec (.tckPeriodWrite .a 750001) (st up))).flag TCK_STAT 4 = true := by decide
theorem test_refuse : (out (exec (.tckPeriodWrite .b 300000) (st up))).flag (HST_STAT 1) 2 = true := by decide
theorem test_imem_write :
    ((out (exec (.hostInstructionWrite .a 0x440004 .b4 0xDEADBEEF) (st up))).core 1).imem.get 1 = 0xDEADBEEF := by decide
theorem test_route_mask :
    (out (exec (.registerWrite .a (EVT_ROUTE 13) .b4 0xFFFFFFFF) (st up))).reg (EVT_ROUTE 13) = 0x01001F1F := by decide

/-- The tick in Capture, and in Compute. -/
def inCapture : Dev := { up with tick := { up.tick with phase := .capture } }
def inCompute : Dev := { up with tick := { up.tick with phase := .compute } }

theorem wit_TickUnitCommands : Holds .a (st inCapture) ∧ (st inCapture).dev.tick.phase = .capture ∧
    (st inCapture).dev.mode = .commission ∧ (46875 : Word).toNat = 46875 ∧ (46874 : Word).toNat < 46875 ∧
    750000 < (750001 : Word).toNat := ⟨holdsPort _ _ (by decide), by decide⟩
theorem wit_TickUnitCommands_next : Holds .a (st up) ∧ (st up).dev.tick.phase = .idle := ⟨holdsPort _ _ (by decide), by decide⟩
theorem wit_HostWrites : Holds .a (st up) ∧ (∃ r, row? (AX_TPOS 15) = some r ∧ r.wt ≠ 0 ∧ r.wc = 0) ∧
    AX_TPOS 15 / 0x10000 = 0x104 ∧ AX_TPOS 15 % 4 = 0 ∧ axisLocked (AX_TPOS 15) up = false ∧ evReserved 255 = false ∧
    0x3FFFF8 + accBytes .b8 ≤ 0x400000 ∧ 0x1FFFE + accBytes .b2 ≤ 0x20000 ∧ 0x3FFFF + accBytes .b1 ≤ 0x40000 ∧
    (st up).dev.mode = .commission := ⟨holdsPort _ _ (by decide), ⟨_, rfl, by decide, by decide⟩, by decide⟩
theorem wit_HostWrites_rw : RegAddr (0x10B0800) ∧ ownRule (0x10B0800) = false ∧
    (∃ r, row? 0x10B0800 = some r ∧ r.wt = 0 ∧ r.wc = 0) ∧ RegAddr (FB_CFG 15) ∧ ownRule (FB_CFG 15) = false ∧
    (∃ r, row? (FB_CFG 15) = some r ∧ r.wc ≠ 0) ∧ ({ up with mode := .run } : Dev).mode ≠ .commission ∧
    RegAddr 0x113FFFC ∧ row? 0x113FFFC = none ∧ ownRule 0x113FFFC = false := by
  refine ⟨by unfold RegAddr; decide, by decide, ⟨_, rfl, by decide⟩, by unfold RegAddr; decide, by decide,
    ⟨_, rfl, by decide⟩, by decide, by unfold RegAddr; decide, by decide, by decide⟩
theorem wit_HostWrites_locked : axisLocked (AX_CFG 3) (up.setReg (AX_CTRL 3) 1) = true ∧ ownRule (AX_CFG 3) = false ∧
    RegAddr (AX_CFG 3) ∧ (∃ r, row? (AX_CFG 3) = some r ∧ r.wc ≠ 0) :=
  ⟨by decide, by decide, by unfold RegAddr; decide, ⟨_, rfl, by decide⟩⟩
theorem wit_HostWrites_hbto : bits (10 : Word) 9 0 = 10 ∧ bits (1000 : Word) 9 0 = 1000 ∧ bits (9 : Word) 9 0 < 10 ∧
    1000 < bits (1001 : Word) 9 0 := by decide
theorem wit_HostWrites_code : 0xFFFC + accBytes .b4 ≤ 0x10000 ∧ 0x3FFF8 + accBytes .b8 ≤ 0x40000 ∧ 0x40000 < 0x3FFFC + accBytes .b8 ∧
    (0x7FFFE : Nat) + accBytes .b2 ≤ 0x80000 := by decide
/-- Accesses over two regions, in the register region but no aligned word, and at reserved addresses only (R17, R18). -/
theorem wit_HostWrites_access : badAccess 0x3FFFFF .b2 ∧ badAccess 0x1000002 .b4 ∧ badAccess 0x1000000 .b8 ∧ deadAccess 0x17FFFF8 .b8 ∧
    deadAccess 0x580000 .b1 := by
  refine ⟨⟨by decide, .inl ⟨1, by decide, by decide⟩⟩, ⟨by decide, .inr ⟨by decide, by decide⟩⟩,
    ⟨by decide, .inr ⟨by decide, by decide⟩⟩, ⟨by decide, by decide⟩, ⟨by decide, by decide⟩⟩
theorem wit_HostWrites_own : ownerOf (HST_MSIX 1 127) = some .b ∧ ownerOf (0x10B0800) = none ∧ RegAddr (0x10B0800) ∧
    0x10B0800 ≠ HST_REINS ∧ 0x10B0800 ≠ CEL_CMD ∧ 0x10B0800 ≠ TDL_NVCMD :=
  ⟨by decide, by decide, by unfold RegAddr; decide, by decide⟩
theorem wit_HostWrites_refused : Serves .b (st up) ∧ (st up).dev.reins.holder ≠ some .b := ⟨serves _ _ (by decide), by decide⟩
theorem wit_HostReads : Serves .b (st up) ∧ (st up).dev.ready = true ∧ (st up).dev.flag MON_CFG 0 = true :=
  ⟨serves _ _ (by decide), by decide⟩
theorem wit_HostReads_bytes : RegAddr SYS_ID ∧ SYS_ID ≠ TCK_COUNT_LO ∧ SYS_ID ≠ TCK_EDGETS_LO ∧ SYS_ID ≠ TCK_TS_LO ∧
    0x3FFFF8 + accBytes .b8 ≤ 0x400000 ∧ 0x1FFFF + accBytes .b1 ≤ 0x20000 ∧ 0xFFFE + accBytes .b2 ≤ 0x10000 ∧
    0x7BFFC + accBytes .b4 ≤ 0x7C000 ∧ badAccess 0x57FFFE .b4 ∧ deadAccess 0x580000 .b8 := by
  refine ⟨by unfold RegAddr; decide, by decide, by decide, by decide, by decide, by decide, by decide, by decide,
    ⟨by decide, .inl ⟨2, by decide, by decide⟩⟩, ⟨by decide, by decide⟩⟩
theorem wit_HostReads_early : ({ up with ready := false } : Dev).ready = false ∧
    ((({ up with ready := false } : Dev).port .b).pcie = true → (({ up with ready := false } : Dev).port .b).d3hot = false) := by decide

/-- Free reins, and reins at port B, late. -/
def freeReins : Dev := { up with reins := { up.reins with holder := none } }
def lateB : Dev := { up with reins := { holder := some .b, hbLate := true, lastWin := .b } }
theorem test_contested : (out (exec (.reinsReq .b true) (st freeReins))).reins.holder = some .a := by decide
theorem test_take_late : (out (exec (.reinsTake .a false) (st lateB))).reins.holder = some .a := by decide
theorem wit_Reins_free : Serves .b (st freeReins) ∧ (st freeReins).dev.reins.holder = none := ⟨serves _ _ (by decide), by decide⟩
theorem wit_Reins_holder : Serves .a (st up) ∧ (st up).dev.reins.holder = some .a ∧ (st up).dev.reins.hbLate = false :=
  ⟨serves _ _ (by decide), by decide⟩
theorem wit_Reins_take : Serves .a (st lateB) ∧ (st lateB).dev.reins.holder = some (HostPort.a).other ∧
    (st lateB).dev.reins.hbLate = true := ⟨serves _ _ (by decide), by decide⟩
theorem wit_Reins_denied : Serves .b (st up) ∧ (st up).dev.reins.holder = some (HostPort.b).other ∧
    (st up).dev.reins.hbLate = false := ⟨serves _ _ (by decide), by decide⟩

/-- A WR32 of 0x40 with data 9 at the last index of port A's ring; and a command in flight. -/
def ringOf (opc data edge : Word) : Dev :=
  (((((up.setReg (HST_CMDHEAD 0) 511).setReg (HST_CRING 0 2044) opc).setReg (HST_CRING 0 2045) 0x40).setReg (HST_CRING 0 2046)
    data).setReg (HST_CRING 0 2047) edge)
def flying (opc : Byte) (edge : Word) : Dev :=
  { up with pa := { up.pa with inFlight := some ⟨511, opc, 0x55, 0x3FFFFC, 9, edge, 0⟩ },
            sram := Memory.setWord [] 0x3FFFFC 0x1234, tick := { up.tick with phase := .compute } }
theorem wit_CommandRings_consume : Serves .a (st (ringOf 0xABCD0002 9 0)) ∧
    (ringOf 0xABCD0002 9 0).fld (HST_CMDHEAD 0) 8 0 = 511 ∧ (ringOf 0xABCD0002 9 0).fld (HST_CMDTAIL 0) 8 0 = 0 ∧
    (ringOf 0xABCD0002 9 0).pa.inFlight = none ∧ 1 ≤ cplFree .a (ringOf 0xABCD0002 9 0) ∧ goodEntry .a 511 (ringOf 0xABCD0002 9 0) :=
  ⟨serves _ _ (by decide), by decide, by decide, by decide, by decide, by decide, by decide, by decide, by decide, by decide⟩
theorem wit_CommandRings_wr32 : Serves .a (st (flying 2 0)) ∧ (st (flying 2 0)).dev.reins.holder = some .a ∧
    stagedBy .a (flying 2 0) < 256 ∧ 0x3FFFFC + 4 ≤ 0x400000 := ⟨serves _ _ (by decide), by decide⟩
theorem wit_CommandRings_wrat : Serves .a (st (flying 3 65536)) ∧ (flying 3 65536).tick.count.toNat + 65536 < 2 ^ 64 ∧
    (65536 : Word) = loWord ((flying 3 65536).tick.count + BitVec.ofNat 64 65536) ∧ (flying 3 65536).pa.timed.length < 64 :=
  ⟨serves _ _ (by decide), by decide⟩
theorem wit_CommandRings_next_edge : Serves .a (st (flying 3 1)) ∧ (1 : Word) = loWord ((flying 3 1).tick.count + BitVec.ofNat 64 1) ∧
    (flying 3 1).tick.phase ≠ .stage := ⟨serves _ _ (by decide), by decide⟩
def timedOne (write : Bool) (edge : Nat) : Dev :=
  { up with pa := { up.pa with timed := [⟨write, 0x77, 3, 0x3FFFFC, 9, edge, false, none⟩] },
            sram := Memory.setWord [] 0x3FFFFC 0x1234, tick := { up.tick with phase := .compute } }
theorem wit_CommandRings_accept : ticking (timedOne true 1) = true ∧ (timedOne true 1).tick.count.toNat + 1 = 1 ∧
    (timedOne true 1).tick.phase = .compute ∧ (timedOne true 1).reins.holder = some .a := by decide
theorem wit_CommandRings_perform : ticking (timedOne false 0) = true ∧ (timedOne false 0).tick.count.toNat = 0 ∧
    (timedOne false 0).tick.phase ≠ .idle := by decide

/-- One timed command waits at each place where it completes at once. -/
theorem wit_CommandRings_late : (flying 3 0).pa.inFlight.map (·.edge) = some (loWord ((0 : DWord) - BitVec.ofNat 64 0)) ∧
    (flying 4 (loWord ((0 : DWord) - BitVec.ofNat 64 (2 ^ 31 - 1)))).pa.inFlight.map (·.edge) = some 0x80000001 ∧
    (flying 3 1).tick.count.toNat + 1 = 0 + 1 ∧ ({ flying 3 1 with tick := { up.tick with phase := .stage } } : Dev).tick.phase = .stage ∧
    ({ flying 3 5 with tick := { up.tick with phase := .stage, count := 5 } } : Dev).tick.count.toNat = 0 + 5 := by decide
theorem wit_CommandRings_far : (flying 3 65537).pa.inFlight.map (·.edge) = some (loWord ((0 : DWord) + BitVec.ofNat 64 65537)) ∧
    (flying 3 65537).tick.count.toNat < 0 + 65537 ∧ 65536 < 65537 ∧ 65537 < 2 ^ 31 := by decide
def full64 : Dev :=
  { flying 3 9 with pa := { (flying 3 9).pa with timed := List.replicate 64 ⟨true, 0, 0, 0, 0, 9, false, none⟩ } }
theorem wit_CommandRings_full : full64.pa.inFlight.map (·.edge) = some (loWord ((0 : DWord) + BitVec.ofNat 64 9)) ∧
    64 ≤ full64.pa.timed.length ∧ full64.tick.count.toNat < 0 + 9 := by decide
theorem wit_CommandRings_target : timedTarget true SYS_ID = false ∧ timedTarget true 0x3FFFFC = true := by decide
theorem wit_CommandRings_doorbell : (511 : Word).toNat ≤ 511 ∧ 511 < (512 : Word).toNat := by decide
theorem wit_CommandRings_latch : (⟨false, 0x77, 3, 0x3FFFFC, 9, 0, false, none⟩ : Timed) ∈ ((timedOne false 0).port .a).timed ∧
    (timedOne false 0).tick.count.toNat = 0 ∧ 0x3FFFFC + 4 ≤ 0x400000 := by decide
theorem test_rdat_latched : (rdatLatch .a (timedOne false 0)).pa.timed.map (·.got) = [some 0x1234] := by decide

/-- Port A as a quad-SPI target with its window open; as a PCIe endpoint with a pending vector. -/
def spiWin : Dev := up.setReg (HST_SPIWIN 0) 0x80000001
def pcieUp : Dev :=
  { ((up.setReg (HST_STAT 0) 0x100).setReg (HST_PBA 0 0) 0x80000001) with pa := { Port.reset true with d3hot := false, msixOn := true } }
theorem wit_HostLinks_spi : Serves .a (st spiWin) ∧ spiWin.pa.pcie = false ∧ spiWin.reins.holder = some .a ∧
    spiWin.flag (HST_SPIWIN 0) 31 = true ∧ (0xFFFFFC : BitVec 24).toNat % 4 = 0 := ⟨serves _ _ (by decide), by decide⟩
theorem wit_HostLinks_read : Serves .a (st up) ∧ up.pa.pcie = false ∧ (0x3FFFFC : BitVec 24).toNat % 4 = 0 ∧
    (0x3FFFFC : BitVec 24).toNat + 4 ≤ 0x400000 ∧ up.reg (HST_SPIWIN 0) = 0 := ⟨serves _ _ (by decide), by decide⟩
theorem wit_HostLinks_pcie : pcieUp.pa.pcie = true ∧ pcieUp.pa.d3hot = false ∧ pcieUp.flag (HST_STAT 0) 8 = true ∧
    pcieUp.flag (HST_PBA 0 0) 31 = true ∧ pcieUp.flag (HST_MSIX 0 (4 * 31 + 3)) 0 = false ∧
    pcieUp.flag (HST_PBA 0 0) 0 = true ∧ pcieUp.flag (HST_MSIX 0 3) 0 = false ∧ pcieUp.pa.modBusy = false ∧
    pcieUp.pa.msixOn = true ∧ pcieUp.pa.msixMask = false ∧ (1 : Nat) ≠ 0 ∧ (1 : Nat) ≠ 3 ∧ pcieUp.flag (HST_STAT 0) 8 ≠ false := by decide

/-! ## Feedback (07_feedback.md) -/

/-- Channel 3 with a type and further FBc_CFG bits. -/
def fb3 (cfg : Word) (x : FbCh) : Dev := { (up.setReg (FB_CFG 3) cfg).setCh 3 x with pw := up.pw }

theorem test_quad_up : ((out (exec (.quadEdge 3 true false ⟨1, 9⟩) (st (fb3 1 { FbCh.reset with cnt := 7 })))).ch 3).cnt = 8 := by decide
theorem test_hall_skip :
    (out (exec (.hallStep 3 2 ⟨1, 9⟩) (st (fb3 2 { FbCh.reset with lvl := 1 })))).flag (FB_STAT 3) 10 = true := by decide
theorem test_hall_down :
    ((out (exec (.hallStep 3 5 ⟨1, 9⟩) (st (fb3 2 { FbCh.reset with lvl := 1, cnt := 4 })))).ch 3).cnt = 3 := by decide

theorem wit_QuadratureAndHall_quad : (fb3 0x801 { FbCh.reset with lvl := 3 }).pw.stopped = false ∧
    (fb3 0x801 { FbCh.reset with lvl := 3 }).flag (FB_CFG 3) 11 = true ∧ (fb3 0x801 { FbCh.reset with lvl := 3 }).fbType 3 = 1 ∧
    ((fb3 0x801 { FbCh.reset with lvl := 3 }).ch 3).lvl = BitVec.ofNat 3 (b2n true + 2 * b2n true) := by decide
theorem wit_QuadratureAndHall_hall : (fb3 2 { FbCh.reset with lvl := 5 }).pw.stopped = false ∧
    (fb3 2 { FbCh.reset with lvl := 5 }).flag (FB_CFG 3) 11 = false ∧ (fb3 2 { FbCh.reset with lvl := 5 }).fbType 3 = 2 ∧
    ((fb3 2 { FbCh.reset with lvl := 5 }).ch 3).lvl = hallSeq 5 ∧ (5 : Fin 6) + 1 = 0 := by decide

theorem wit_QuadratureAndHall_filter : (fb3 0x3F0001 FbCh.reset).fld (FB_CFG 3) 21 16 = 63 ∧ (63 : Nat) ≤ 63 ∧ (63 : Nat) < 64 := by
  decide
theorem test_quad_filtered :
    ((out (exec (.quadEdge 3 true false ⟨63, 9⟩) (st (fb3 0x3F0001 { FbCh.reset with cnt := 7 })))).ch 3).cnt = 7 := by decide

/-- A plain SSI channel of 24 bits with a field of 12 from the first bit, within a frame; the frame 0xABC000. -/
def ssi3 : Dev :=
  ((fb3 3 { FbCh.reset with inFrame := true, fieldOk := true, field := 0xABB, cnt := 100 }).setReg (FB_SER 3) (24 * 4096)).setReg
    (FB_SERFLD 3) (1 + 12 * 4096)
def ssiFrame : SerialFrame := { raw := 0xABC000, bytes := [], framing := false, delay := 0, ts := 5 }
theorem test_ssi_counts : ((out (exec (.serialFrameEnd 3 ssiFrame) (st ssi3))).ch 3).cnt = 101 := by decide
/-- The same channel with AUTODLY and a CLK divisor of 10. -/
def ssiAuto : Dev := ssi3.setReg (FB_SER 3) (24 * 4096 + 1024 + 10)
theorem test_ssi_delay : (out (exec (.serialFrameEnd 3 { ssiFrame with delay := 3000 }) (st ssiAuto))).reg (FB_SERDLY 3) = 3000 := by
  decide
theorem test_ssi_slow : (out (exec (.serialFrameEnd 3 { ssiFrame with delay := 3001 }) (st ssiAuto))).flag (FB_STAT 3) 11 = true := by
  decide
theorem wit_SerialAndSinCos_good : ssi3.pw.stopped = false ∧ (ssi3.ch 3).inFrame = true ∧ goodField ssi3 3 ssiFrame 0xABC 12 ∧
    (ssi3.ch 3).fieldOk = true ∧ goodField ssiAuto 3 { ssiFrame with delay := 3000 } 0xABC 12 ∧
    ssiAuto.flag (FB_SER 3) 10 = true ∧ ssiAuto.fld (FB_SER 3) 17 12 = 24 ∧ ssiAuto.fld (FB_SER 3) 9 0 = 10 :=
  ⟨by decide, by decide, .inl ⟨by decide, by decide, by decide⟩, by decide, .inl ⟨by decide, by decide, by decide⟩, by decide⟩
theorem wit_SerialAndSinCos_bad : (ssi3.ch 3).inFrame = true ∧ badField ssi3 3 { ssiFrame with framing := true } ∧
    badField ssiAuto 3 { ssiFrame with delay := 3001 } :=
  ⟨by decide, .inl ⟨by decide, .inl (by decide)⟩, .inl ⟨by decide, .inr (by decide)⟩⟩
/-- An RS-485 channel with 16 request bytes; a channel whose MONO time still runs. -/
def rs3 : Dev := (fb3 4 FbCh.reset).setReg (FB_RSFMT 3) 16
theorem wit_SerialAndSinCos_recovery : recovered (fb3 3 FbCh.reset) 3 ∧ ¬ recovered (fb3 3 { FbCh.reset with recover := 10 ^ 6 }) 3 ∧
    recovered rs3 3 ∧ rs3.fld (FB_RSFMT 3) 4 0 = 16 := by unfold recovered; decide
theorem wit_SerialAndSinCos_start : (fb3 3 FbCh.reset).fbType 3 = 3 ∧ ((fb3 3 FbCh.reset).ch 3).inFrame = false ∧
    (fb3 4 FbCh.reset).fbType 3 = 4 ∧ ((fb3 4 FbCh.reset).ch 3).inFrame = false ∧
    ((fb3 4 { FbCh.reset with inFrame := true }).ch 3).inFrame = true := by decide
theorem wit_SerialAndSinCos_field : ssiFrame.framing = false ∧ 24 ≤ 48 ∧ 1 ≤ 13 ∧ 13 + 12 ≤ 24 + 1 ∧
    bits (((fb3 3 FbCh.reset).setReg (FB_SER 3) (24 * 4096)).reg (FB_SER 3)) 17 12 = 24 := by decide

/-- A sin/cos channel with gain 1 of cos and its reset amplitude limits 0x0800 and 0x1F40. -/
def sc3 : Dev := (fb3 5 FbCh.reset).setReg (FB_SCCOR 3) 0x8000
theorem wit_SerialAndSinCos_sincos : sc3.pw.stopped = false ∧ sc3.fbType 3 = 5 ∧
    (∃ y x cp, scCorrected sc3 3 0 4000 = (y, x, cp) ∧
      (sc3.fld (FB_SCAMP 3) 15 0 ^ 2 : Int) * (cp * cp * 2 ^ 30) ≤ y * y + x * x ∧
      y * y + x * x ≤ (sc3.fld (FB_SCAMP 3) 31 16 ^ 2 : Int) * (cp * cp * 2 ^ 30)) ∧
    ∃ y x cp, scCorrected sc3 3 0 100 = (y, x, cp) ∧
      y * y + x * x < (sc3.fld (FB_SCAMP 3) 15 0 ^ 2 : Int) * (cp * cp * 2 ^ 30) :=
  ⟨by decide, by decide, ⟨_, _, _, rfl, by decide, by decide⟩, ⟨_, _, _, rfl, by decide⟩⟩

/-- ZMODE 1 to 3, armed or not; a latch on channel 3. -/
def z3 (mode : Nat) (arm : Bool) : Dev :=
  fb3 (word (1 + 4096 * mode)) { FbCh.reset with cnt := 40, pos := 30, zarm := arm }
def lat5 (cap : Word) (l : Latch) (cfg : Word) : Dev := ((fb3 cfg { FbCh.reset with cnt := 8 }).setReg (FB_CAP 5) cap).setLatch 5 l
theorem wit_ChannelCommandsAndLatches_z : (z3 2 false).fbType 3 = 1 ∧ (z3 2 false).fld (FB_CFG 3) 13 12 = 2 ∧
    ((z3 2 false).ch 3).zarm = false ∧ (z3 1 true).fld (FB_CFG 3) 13 12 = 1 ∧ (z3 3 false).fld (FB_CFG 3) 13 12 = 3 ∧
    (z3 2 true).fld (FB_CFG 3) 13 12 = 2 ∧ ((z3 2 true).ch 3).zarm = true ∧ ((z3 2 true).ch 3).rezero = false ∧
    (z3 2 true).pw.stopped = false := by decide
theorem wit_ChannelCommandsAndLatches_held : (z3 2 true).fld (FB_CFG 3) 21 16 < 1 ∧ (0 : Nat) ≤ (z3 2 true).fld (FB_CFG 3) 21 16 ∧
    (z3 0 false).fld (FB_CFG 3) 13 12 = 0 ∧ ((z3 2 false).ch 3).rezero = false ∧
    ((fb3 1 { FbCh.reset with rezero := true }).ch 3).rezero = true := by decide
def tickingZ : Dev := { z3 2 false with tick := { up.tick with phase := .stage, due := 1000000 } }
theorem wit_ChannelCommandsAndLatches_edge : ticking tickingZ = true ∧ tickingZ.pw.stopped = false := by decide
theorem wit_ChannelCommandsAndLatches_type : Holds .a (st (z3 2 false)) ∧ (z3 2 false).mode = .commission ∧
    bits (4 : Word) 2 0 ≤ 4 ∧ bits (4 : Word) 2 0 ≠ (z3 2 false).fbType 3 := ⟨holdsPort _ _ (by decide), by decide⟩
theorem wit_ChannelCommandsAndLatches_cap : (lat5 0x103 { Latch.reset with armed := true } 1).fld (FB_CAP 5) 3 0 = 3 ∧
    ((lat5 0x103 { Latch.reset with armed := true } 1).latch 5).armed = true ∧
    (lat5 0x103 { Latch.reset with armed := true } 1).fld (FB_CAP 5) 9 8 = 1 ∧
    (lat5 0x303 { Latch.reset with armed := true } 1).fld (FB_CAP 5) 9 8 = 3 ∧
    ((lat5 0x103 { Latch.reset with armed := true } 1).ch 3).lastTs ≠ 7 ∧
    (lat5 0x203 { Latch.reset with armed := true } 4).fbType 3 = 4 ∧
    (lat5 0x203 { Latch.reset with armed := true } 4).fld (FB_CAP 5) 9 8 = 2 ∧
    ((lat5 0x103 { Latch.reset with waiting := some 7 } 4).latch 5).waiting = some 7 ∧
    (lat5 0xFD03 { Latch.reset with armed := true } 1).fld (FB_CAP 5) 15 10 = 63 ∧ (63 : Nat) ≤ 63 ∧ (63 : Nat) < 64 := by decide

/-! ## Axes and lanes (08_motion.md, 09_control.md) -/

/-- Run, with axis 3 a servo axis on quadrature channel 3, its lane equipped. -/
def servo3 : Dev :=
  (((({ up with mode := .run } : Dev).setReg (AX_CFG 3) 0x38000001).setReg (FB_CFG 3) 1).setReg (CTL_PMAP 3) 0).setReg
    (CTL_SDGRP 0) 0x4B0401 |>.setReg (CTL_SMAP 3) 0
theorem test_axis_enable : ((out (exec (.axisEnable 3) (st servo3))).axis 3).on = true := by decide
/-- Axis 3 step/direction with BLIND and no feedback, and a servo axis without feedback. -/
def step3 : Dev := ({ up with mode := .run } : Dev).setReg (AX_CFG 3) 0x83
def noFb3 : Dev := ({ up with mode := .run } : Dev).setReg (AX_CFG 3) 1
theorem test_axis_nofb : (out (exec (.axisEnable 3) (st noFb3))).fld (AX_STAT 3) 31 24 = 2 := by decide
theorem wit_Axes_servo : servo3.mode = .run ∧ servo3.halted = false ∧ (servo3.axis 3).on = false ∧ servo3.kind 3 = 1 ∧
    servo3.flag (AX_CFG 3) 27 = true ∧ servo3.fbType (axisCh servo3 3) ≠ 0 ∧ (servo3.lane 3).badCar = false ∧
    laneEquipped servo3 3 = true := by decide
theorem wit_Axes_blind : step3.mode = .run ∧ step3.halted = false ∧ (step3.axis 3).on = false ∧ step3.kind 3 = 3 ∧
    step3.flag (AX_CFG 3) 27 = false ∧ step3.flag (AX_CFG 3) 7 = true := by decide
theorem wit_Axes_nofb : noFb3.mode = .run ∧ noFb3.halted = false ∧ (noFb3.axis 3).on = false ∧ noFb3.kind 3 = 1 ∧
    noFb3.flag (AX_CFG 3) 27 = false := by decide

/-- Axis 3 on, in jog mode, at integer 5 with its generator at 4; the gear source is axis 1, which is enabled, or not. -/
def moving3 (master : Bool) (sp : Word) : Dev :=
  let d := ((servo3.setReg (AX_CTRL 3) 3).setReg (AX_GSRC 3) 1).setReg (AX_CTRL 1) (if master then 1 else 0)
  d.setAxis 3 { d.axis 3 with on := true, stepPos := sp, cur := ⟨posOfInt 5, fOne, 0⟩, fin := ⟨posOfInt 5, fOne, 0⟩ }
theorem test_step : ((out (exec (.stepPulse 3 0) (st (moving3 true 6)))).axis 3).stepPos = 5 := by decide +kernel
theorem wit_Axes_disable : axMode (moving3 true 4) 3 ≠ 2 ∧ axEn (moving3 true 4) 3 = true ∧ ticking (moving3 true 4) = true ∧
    axMode noFb3 3 ≠ 2 := by decide
theorem wit_Axes_gear : axMode (moving3 true 4) 3 ≠ 2 ∧ axMode (moving3 true 4) 3 ≠ 3 ∧ axMode (moving3 true 4) 3 ≠ 4 ∧
    masterBad (moving3 true 4) 3 = false ∧ masterBad (moving3 false 4) 3 = true := by decide
theorem wit_Axes_step : ((moving3 true 4).axis 3).on = true ∧ (moving3 true 4).mode = .run ∧ (moving3 true 4).halted = false ∧
    0 < (commandedAt (moving3 true 4) 3 9 - ((moving3 true 4).axis 3).stepPos).toInt ∧
    (commandedAt (moving3 true 6) 3 9 - ((moving3 true 6).axis 3).stepPos).toInt < 0 ∧
    commandedAt (moving3 true 5) 3 0 = ((moving3 true 5).axis 3).stepPos := by decide +kernel
/-- A step/direction axis whose last pulse rose at 100. -/
def pulsed3 : Dev :=
  let d := (moving3 true 4).setReg (AX_CFG 3) 0x83
  d.setAxis 3 { d.axis 3 with stepAt := some 100 }
theorem wit_Axes_pulse : pulsed3.kind 3 = 3 ∧ (pulsed3.axis 3).stepAt = some 100 ∧ (pulsed3.axis 3).on = true ∧
    commandedAt pulsed3 3 0 ≠ (pulsed3.axis 3).stepPos := by decide +kernel

/-- Group 2 of axes 3 and 4, led by 3; a segment of 10 ticks to where both stand; queues of k segments. -/
def grp (k : Nat) (x : Group) : Dev :=
  let d := ((servo3.setReg (AX_GRP 2) 0x18).setReg (AX_SEGDUR 3) 10)
  d.setGroup 2 { x with queue := List.replicate k ⟨10, [(3, 0, 0), (4, 0, 0)]⟩ }
def doneSeg (endVel : Word) (k : Nat) : Dev :=
  let d := grp k { Group.reset with running := some (⟨10, [(3, 0, endVel), (4, 0, 0)]⟩, 0, []) }
  { d with tick := { d.tick with count := 10 } }
theorem test_segpush : ((out (exec (.segpush 3) (st (grp 31 Group.reset)))).group 2).queue.length = 32 := by
  decide +kernel
theorem wit_Axes_push : ledBy (grp 31 Group.reset) 3 = some 2 ∧ ((grp 31 Group.reset).group 2).queue.length < 32 ∧
    1 ≤ ((grp 31 Group.reset).reg (AX_SEGDUR 3)).toNat ∧
    (members (grp 31 Group.reset) 2).all (fun m => hermiteOk (grp 31 Group.reset) m
      (hermiteOf (grp 31 Group.reset) 10 (pushStart (grp 31 Group.reset) ((grp 31 Group.reset).group 2) m)
        ((grp 31 Group.reset).reg (AX_SEGPOS m), (grp 31 Group.reset).reg (AX_SEGVEL m))) ((grp 31 Group.reset).reg (AX_SEGVEL m))) =
      true ∧ 32 ≤ ((grp 32 Group.reset).group 2).queue.length := by decide +kernel
theorem wit_Axes_end : ((doneSeg 0 0).group 2).running = some (⟨10, [(3, 0, 0), (4, 0, 0)]⟩, 0, []) ∧
    10 ≤ ((doneSeg 0 0).tick.count - 0).toNat ∧ ((doneSeg 0 0).group 2).queue = [] ∧ leadOf (doneSeg 0 0) 2 = some 3 ∧
    iSign 0 = 0 ∧ iSign fOne ≠ 0 ∧ iSign 1 ≠ 0 ∧ ticking (doneSeg 0 0) = true ∧ ((doneSeg 0 1).group 2).queue = [⟨10, [(3, 0, 0), (4, 0, 0)]⟩] := by decide

/-- Lane 3 running in torque mode, its channel speed valid, in Compute before the first fractional edge; a chopper lane. -/
def torque3 : Dev :=
  let d := moving3 true 5
  let d := ((d.setOut (0x1000 + 0x80 * 3 + 0x5C) 1).setOut (0x1000 + 0x80 * 3 + 0x58) 0x40000000).setReg (CTL_GAIN 3 6) fOne
  { d with tick := { d.tick with phase := .compute } }.setLane 3 { d.lane 3 with spdvS := true, spdS := fOne, pmS := 9 }
def chop3 : Dev := torque3.setReg (AX_CFG 3) 0x38000002
theorem wit_ControlEngine_servo : passReady torque3 3 = true ∧ torque3.loader.image = none ∧ torque3.kind 3 = 1 ∧
    lmode torque3 3 0 = true ∧ (torque3.lane 3).spdvS = true ∧ fSign (torque3.reg (CTL_GAIN 3 5)) = 0 ∧
    (torque3.lane 3).passes = 0 := by decide
theorem wit_ControlEngine_image (h : Nat) : snippetOf torque3 3 h = none := rfl
theorem wit_ControlEngine_chopper : passReady chop3 3 = true ∧ chop3.kind 3 = 2 := by decide
theorem wit_ControlEngine_rest : ticking torque3 = true ∧ laneRuns torque3 3 = true ∧ torque3.tick.phase ≠ .idle ∧
    torque3.tick.stopWork = false ∧ mapsCh torque3 3 0 = true ∧ torque3.flag (CTL_STAT 3) 9 = false ∧
    fSign ((torque3.setReg (CTL_OCLIM 3) fOne).reg (CTL_OCLIM 3)) ≠ 0 ∧
    fLt ((torque3.setReg (CTL_OCLIM 3) fOne).reg (CTL_OCLIM 3)) (fAbs 0xC0000000) = true := by decide
def wanted3 : Dev := torque3.setLane 3 { torque3.lane 3 with wanted := true, wait := some (Vector.replicate 4 7) }
theorem wit_ControlEngine_between : (wanted3.lane 3).wanted = true ∧ (wanted3.lane 3).wait = some (Vector.replicate 4 7) := by
  decide
theorem wit_ControlEngine_valley : laneRuns wanted3 3 = true ∧
    laneRuns ({ wanted3 with mode := .hold } : Dev) 3 = false ∧ (({ wanted3 with mode := .hold } : Dev).lane 3).wait.isSome = true := by
  decide
theorem test_learned : (out (exec (.frset 3) (st up))).flag (CTL_STAT 3) 10 = true := by decide
theorem test_table : frEntry (out (exec (.tableWrite 3 0x00AB0BFF) (st up))) 3 1023 = 0xAB := by decide
theorem wit_LaneTables : bit (0x00AB0BFF : Word) 11 = true ∧ bit (0x00AB0BFF : Word) 10 = false ∧
    bit (0x80000FFF : Word) 11 = true ∧ bit (0x80000FFF : Word) 10 = true ∧ isGain 0x24 = true ∧
    gainBad 0x24 0x40000000 = false ∧ gainBad 0x24 0x40000001 = true := by decide

/-! ## Print, vision, trees and the loader (04_programs.md, 10_print.md, 11_vision.md, 12_trees.md) -/

/-- Print port 0 on with a feed of 64 rows, paced by axis 3 which is enabled, in Run; its job of 4 rows starts at 100. -/
def print0 (x : Prt) : Dev :=
  let d := ((((({ up with mode := .run } : Dev).setReg (PRT_CFG 0) 0x20000001).setReg (PRT_GEOM 0) 0x400000).setReg (PRT_PACE 0)
    0x31).setReg (AX_CTRL 3) 1).setReg (PRT_JOBROWS 0) 4
  (d.setReg (PRT_JOBSTART 0) 100).setPrt 0 x
def job0 (next : Nat) : Job := { start := 100, rows := 4, first := 0, next := next, fired := 0, last := none }
theorem test_go : (out (exec (.jobGo 0) (st (print0 Prt.reset)))).flag (PRT_STAT 0) 2 = true := by decide
theorem wit_Printing_ticks : ticking (print0 Prt.reset) = true := by decide
theorem test_go_full : (out (exec (.jobGo 0) (st (print0 { Prt.reset with active := some (job0 0), queued := some (job0 0) })))).flag
    (PRT_STAT 0) 11 = true := by decide
theorem wit_Printing_go : prtRingRows (print0 Prt.reset) 0 ≠ 0 ∧ (print0 Prt.reset).fld (PRT_JOBROWS 0) 15 0 ≠ 0 ∧
    feedReady (print0 Prt.reset) 0 = true ∧ (print0 Prt.reset).flag (PRT_CFG 0) 0 = true ∧
    ((print0 Prt.reset).prtp 0).active = none ∧
    shortest ((print0 Prt.reset).prtp 0).pos ((print0 Prt.reset).reg (PRT_JOBSTART 0)) < 0 ∧ feedReady up 0 = false := by decide
theorem wit_Printing_queue : (((print0 { Prt.reset with active := some (job0 0) }).prtp 0).active.isSome = true ∧
    ((print0 { Prt.reset with active := some (job0 0) }).prtp 0).queued = none ∧
    ((print0 { Prt.reset with active := some (job0 0), queued := some (job0 0) }).prtp 0).queued.isSome = true) := by decide

/-- Row 0 of the job due at the head of the port, its rows in the FIFO, with FLTEN clear; firing, or with a firing that waits. -/
def due0 (fi : Option Firing) (w : Option (Nat × Bool)) : Dev :=
  (print0 { Prt.reset with pos := 200, active := some (job0 0), firing := fi, waiting := w,
                           shift := some ⟨0, 0, 0, 0, [], [], []⟩, fifo := [(0, []), (1, [])] }).setReg (PRT_CFG 0) 1
def oneFiring : Firing := ⟨0, false, true, true, 1, 0, 1, 0, [], [], []⟩
theorem test_due : ((out (exec (.indexDue 0) (st (due0 none none)))).prtp 0).firing.isSome = true := by decide
theorem wit_Printing_due : ((due0 none none).prtp 0).active = some (job0 0) ∧ 0 < jobTotal (due0 none none) 0 (job0 0) ∧
    dueAt (due0 none none) 0 0 ≤ jobDist ((due0 none none).prtp 0) (job0 0) ∧ (due0 none none).mode = .run ∧
    (due0 none none).halted = false ∧ (due0 none none).flag (PRT_CFG 0) 29 = false ∧
    missingRows (due0 none none) 0 (job0 0) 0 = [] ∧ ((due0 none none).prtp 0).waiting = none ∧
    ((due0 (some oneFiring) none).prtp 0).firing.isSome = true ∧ headLow (due0 none none) 0 = false ∧
    ((due0 none none).prtp 0).shift = some ⟨0, 0, 0, 0, [], [], []⟩ ∧ (0 : Nat) ≤ (due0 none none).now := by decide
theorem wit_Printing_ready : IndexReady (due0 none none) 0 (job0 0) :=
  ⟨by decide, by decide, by decide, by decide, by decide, by decide⟩
theorem wit_Printing_unshifted : shifted ((due0 none none).setPrt 0 { (due0 none none).prtp 0 with shift := none }) 0 false = false := by
  decide
/-- Index 0 without its row under LATEACT 0 and 1; with the head's fault level low. -/
def lateRow (cfg : Word) (low : Bool) : Dev :=
  let d := (due0 none none).setReg (PRT_CFG 0) cfg
  d.setPrt 0 { d.prtp 0 with fifo := if low then [(0, [])] else [], fltLow := low }
theorem wit_Printing_late : missingRows ((lateRow 1 false).setReg (PRT_GEOM 0) 0x401080) 0 (job0 0) 0 ≠ [] ∧
    (lateRow 1 false).flag (PRT_CFG 0) 28 = false ∧ (lateRow 0x10000001 false).flag (PRT_CFG 0) 28 = true ∧
    headLow (lateRow 0x20000001 true) 0 = true := by decide
theorem wit_Printing_ends : oneFiring.own = true ∧ (0 : Nat) < jobTotal (due0 none none) 0 (job0 0) ∧
    jobTotal (due0 none none) 0 (job0 4) ≤ (job0 4).next := by decide
theorem wit_Printing_waiting : ((due0 none (some (0, false))).prtp 0).waiting = some (0, false) ∧
    ((due0 none (some (0, false))).prtp 0).firing = none ∧ ((due0 (some oneFiring) none).prtp 0).firing = some oneFiring := by decide
theorem wit_Printing_fetch : rowAvailable ((print0 Prt.reset).setReg (PRT_WRIDX 0) 5) 0 = true ∧
    ((print0 Prt.reset).prtp 0).fifo.length < 16 ∧
    ((print0 Prt.reset).prtp 0).late.contains ((print0 Prt.reset).prtp 0).fetch = false ∧
    ((print0 { Prt.reset with late := [0] }).prtp 0).late.contains 0 = true ∧ (print0 Prt.reset).ready = true ∧
    (print0 Prt.reset).flag (PRT_CFG 0) 29 = true ∧ ((print0 Prt.reset).prtp 0).fltLow = false := by decide
/-- A row of 128 dots and one colour is available in Compute. -/
def row128 : Dev :=
  let d := ((print0 Prt.reset).setReg (PRT_WRIDX 0) 5).setReg (PRT_GEOM 0) 0x401080
  { d with tick := { d.tick with phase := .compute } }
theorem wit_Printing_fetch_error : rowAvailable row128 0 = true ∧ rowBytes row128 0 = 64 ∧ (row128.prtp 0).fifo.length < 16 ∧
    (row128.prtp 0).late.contains (row128.prtp 0).fetch = false ∧ row128.pw.stopped = false ∧ row128.tick.phase ≠ .idle ∧
    (row128.reg (PRT_RINGBASE 0)).toNat + (row128.prtp 0).fetch % prtRingRows row128 0 * rowBytes row128 0 = 0 ∧
    (⟨63, true⟩ : SramError).addr < 0 + rowBytes row128 0 := by decide
theorem wit_Printing_tables : bit (0x8000AB07 : Word) 31 = true ∧ bit (0x0000AB07 : Word) 31 = false ∧
    bit (0xABCD8007 : Word) 15 = true ∧ bit (0xABCD0007 : Word) 15 = false ∧ Holds .a (st up) ∧ (st up).dev.mode = .commission :=
  ⟨by decide, by decide, by decide, by decide, holdsPort _ _ (by decide), rfl⟩

/-- Camera port 0 on with two buffers, the first one held. -/
def cam0 (x : Rx) : Dev := { up.setReg (VIS_CSI_CFG 0) 0x22A01 with vis := { Vis.reset with rx := Vis.reset.rx.set 0 x } }
theorem test_frame_start : ((out (exec (.frameStart 0 ⟨0, 9⟩) (st (cam0 Rx.reset)))).rx 0).recv = some (9, 0) := by decide
theorem wit_CameraFrames_start : (cam0 Rx.reset).pw.stopped = false ∧ (cam0 Rx.reset).flag (VIS_CSI_CFG 0) 0 = true ∧
    ((cam0 Rx.reset).rx 0).recv = none ∧ ((cam0 { Rx.reset with ended := [(1, 0)] }).rx 0).recv = none ∧
    (List.range ((cam0 { Rx.reset with ended := [(1, 0)] }).fld (VIS_CSI_CFG 0) 19 16)).find?
      (fun b => !(heldBufs (cam0 { Rx.reset with ended := [(1, 0)] }) 0).contains b) = some 1 := by decide
/-- Lines of 16 RAW8 pixels of virtual channel 0 in a port of 16 by 8. -/
def camSize : Dev := (cam0 { Rx.reset with recv := some (9, 1) }).setReg (VIS_CSI_SIZE 0) 0x80010
def line16 : CsiPacket := ⟨0, 0x2A, false, false, 16⟩
theorem test_frame_end : ((out (exec (.frameEnd 0 ⟨0, List.replicate 8 line16⟩) (st camSize))).rx 0).ended = [(9, 1)] := by decide
theorem test_frame_short : (out (exec (.frameEnd 0 ⟨0, List.replicate 7 line16⟩) (st camSize))).flag (VIS_CSI_STAT 0) 3 = true := by
  decide
theorem wit_CameraFrames_lines : frameSized camSize 0 (List.replicate 8 line16) ∧ ¬ frameSized camSize 0 (List.replicate 7 line16) ∧
    (∀ k, k ∈ List.replicate 8 line16 → k.ecc = false) ∧
    (∀ k, k ∈ frameLines camSize 0 (List.replicate 8 line16) → k.crc = false) ∧
    (∃ k, k ∈ [{ line16 with ecc := true }] ∧ k.ecc = true) ∧ (camSize.rx 0).recv = some (9, 1) ∧
    (∃ k, k ∈ frameLines camSize 0 [{ line16 with crc := true }] ∧ k.crc = true) := by
  refine ⟨⟨by decide, by decide⟩, fun h => absurd h.1 (by decide), by decide, by decide, ⟨_, .head _, rfl⟩, by decide, ⟨{ line16 with crc := true }, by decide, rfl⟩⟩
theorem wit_CameraFrames_other : (cam0 Rx.reset).fld (VIS_CSI_CFG 0) 4 3 ≠ (1 : Fin 4).val ∧ up.flag (VIS_CSI_CFG 0) 0 = false ∧
    (cam0 Rx.reset).fld (VIS_CSI_CFG 0) 4 3 = (0 : Fin 4).val ∧ (cam0 Rx.reset).ready = true := by decide
theorem wit_CameraFrames_full : (∀ b, b < (cam0 { Rx.reset with ended := [(1, 0), (2, 1)] }).fld (VIS_CSI_CFG 0) 19 16 →
    (heldBufs (cam0 { Rx.reset with ended := [(1, 0), (2, 1)] }) 0).contains b = true) := by decide
theorem wit_CameraFrames_end : ((cam0 { Rx.reset with recv := some (9, 1) }).rx 0).recv = some (9, 1) ∧
    ((cam0 { Rx.reset with ended := [(1, 0)] }).rx 0).ended = (1, 0) :: [] := by decide

/-- Graph 2: one Pyramid node of one level over frames of 16 by 8 pixels of RAW8 on port 0, FRTO 3. -/
def graph2 : Graph :=
  { no := 2, body := [0x47, 0x4C, 0x52, 0x54, 1, 0, 0, 0, 16, 0, 8, 0, 0x2A, 0, 0, 0, 0, 16, 0, 0, 0, 1, 0, 0] ++
      List.replicate 12 0 ++ [0x40, 0x10, 0, 0, 3, 0, 1, 0] ++ List.replicate 20 0 ++ [0, 2, 255, 253] ++ List.replicate 12 0 ++ [1] ++
      List.replicate 15 0 }
def imageOf (gs : List Graph) : Image :=
  { id := 1, ver := 1, cores := 1, faultCore := 0, faultEntry := 9, progs := [⟨0, 4, [], [], []⟩], costs := [], snippets := [],
    graphs := gs, feeds := [], certs := [], dpCerts := [], minPer := 46875, lines := 0 }
def vis2 (x : VGraph) : Dev :=
  { ((cam0 Rx.reset).setReg (VIS_CSI_CFG 0) 0x22A01).setReg (VIS_CSI_SIZE 0) 0x80010 with
    loader := { Loader.reset with image := some (imageOf [graph2]) },
    vis := { Vis.reset with gr := Vis.reset.gr.set 2 x } }
theorem test_run_graph : ((out (exec (.graphRun 2) (st (vis2 VGraph.reset)))).vg 2).run = true := by decide
theorem wit_FrameGraphs_run : graphOf (vis2 VGraph.reset) 2 = some graph2 ∧ ((vis2 VGraph.reset).vg 2).run = false ∧
    graph2.ports.all (portMatches (vis2 VGraph.reset) graph2) = true ∧ graph2.maxCost ≤ visBudget (vis2 VGraph.reset).period ∧
    visBudget ((vis2 VGraph.reset).setReg TCK_PERIOD 10500).period < graph2.maxCost := by decide
theorem wit_FrameGraphs_qcyc : (4160 : Word) ≠ 0 ∧ graph2.maxCost ≤ (4160 : Word).toNat ∧ (4159 : Word) ≠ 0 ∧
    (4159 : Word).toNat < graph2.maxCost := by decide
theorem wit_FrameGraphs_missing : ((vis2 { VGraph.reset with run := true, quiet := 3 }).vg 2).run = true ∧ graph2.frto ≠ 0 ∧
    graph2.frto ≤ ((vis2 { VGraph.reset with run := true, quiet := 3 }).vg 2).quiet ∧ inCompute.tick.phase ≠ .idle ∧
    ticking (vis2 VGraph.reset) = true := by decide
/-- A published result whose frame waits for its hand-off entry; and an entry held since tick 0. -/
def hand2 (hs : List Handoff) (es : List HandEntry) (cnt : DWord) : Dev :=
  let d := vis2 VGraph.reset
  { d with vis := { d.vis with todo := hs, held := es }, tick := { d.tick with count := cnt } }
def oneHand : Handoff := ⟨2, 5, 6, ⟨0, 5, 6, 1⟩, 0⟩
theorem wit_FrameGraphs_handoff : graphOf (hand2 [oneHand] [] 0) 2 = some graph2 ∧
    (hand2 [oneHand] [] 0).vis.todo.find? (fun x => decide (x.graph = 2)) = some oneHand ∧
    ((hand2 [oneHand] [] 0).fld VIS_HOFFWR 7 0 + 1) % hoffLen (hand2 [oneHand] [] 0) ≠
      (hand2 [oneHand] [] 0).fld VIS_HOFFRD 7 0 % hoffLen (hand2 [oneHand] [] 0) ∧
    (((hand2 [oneHand] [] 0).setReg VIS_HOFFRD 1).fld VIS_HOFFWR 7 0 + 1) % hoffLen ((hand2 [oneHand] [] 0).setReg VIS_HOFFRD 1) =
      ((hand2 [oneHand] [] 0).setReg VIS_HOFFRD 1).fld VIS_HOFFRD 7 0 % hoffLen ((hand2 [oneHand] [] 0).setReg VIS_HOFFRD 1) := by
  decide
theorem wit_FrameGraphs_expiry : (hand2 [] [⟨0, 0, 1, 0⟩] 0x400).vis.held.find? (fun x => decide (x.idx = 0)) = some ⟨0, 0, 1, 0⟩ ∧
    (hand2 [] [⟨0, 0, 1, 0⟩] 0x400).pw.stopped = false ∧
    (hand2 [] [⟨0, 0, 1, 0⟩] 0x400).fld VIS_HOFFCFG 31 16 ≤ ((hand2 [] [⟨0, 0, 1, 0⟩] 0x400).tick.count - 0).toNat := by decide

/-- A tree model of one CAT entry and one tree: input below 5 gives 1.0, and 2.0 otherwise; at tick SRAM address 0. It
costs 2 (256 + 1 + 1 + 12 + 4) = 548 cycles (R245), which slot 9 declares. -/
def modelBytes : List Byte :=
  [84, 77, 68, 76, 1, 0, 0, 0, 176, 0, 0, 0, 119, 0, 0, 0, 1, 0, 1, 0, 1, 0, 1, 0, 2, 0, 0, 0, 0, 0, 0, 0, 0, 0, 0, 0, 0,
   0, 0, 0, 0, 0, 0, 0, 0, 0, 0, 0, 0, 0, 0, 0, 0, 0, 0, 0, 0, 0, 0, 0, 0, 0, 0, 0, 0, 0, 0, 0, 0, 0, 0, 0, 0, 0, 0, 0,
   0, 0, 0, 0, 0, 0, 0, 0, 0, 0, 0, 0, 0, 0, 0, 0, 0, 0, 0, 0, 130, 17, 92, 26, 78, 248, 214, 86, 186, 90, 123, 133, 130,
   249, 235, 6, 42, 228, 189, 249, 154, 115, 18, 80, 249, 198, 71, 160, 146, 159, 97, 190, 2, 0, 0, 0, 0, 0, 0, 0, 0, 0,
   0, 0, 0, 0, 0, 0, 3, 0, 0, 0, 0, 0, 0, 0, 5, 0, 0, 0, 5, 0, 0, 0, 0, 0, 128, 63, 0, 0, 0, 128, 0, 0, 0, 64, 0, 0, 0,
   128].map (BitVec.ofNat 8)
def treeDev (ld : Option TLoad) (acc : Option (Nat × TModel)) : Dev :=
  { up.setReg (TRE_DECL 9) 548 with sram := Memory.setBytes [] 0 modelBytes, trees := { Trees.reset with loading := ld, accepted := acc } }
def load9 (len : Nat) : TLoad := ⟨9, false, 0, len, 100⟩
theorem test_model_refused : (out (exec (.treeLoadEnd false) (st (treeDev (some (load9 160)) none)))).fld TRE_LDSTAT 15 8 = 1 := by
  decide +kernel
theorem wit_Trees_load : (treeDev none none).trees.loading = none ∧ (treeDev (some (load9 176)) none).trees.loading.isSome = true := by
  decide
theorem wit_Trees_end : (loadCheck (treeDev (some (load9 176)) none) (load9 176) false).isRight = true ∧
    loadCheck (treeDev (some (load9 160)) none) (load9 160) false = .inl 1 ∧
    (treeDev (some (load9 176)) none).trees.accepted = none := by decide +kernel

/-- The model in slot 0 of the device, its nodes in the store at 100; the core's g1 names its input word 7. -/
def walk (v : Word) : State :=
  let s := comp { Core.reset with dmem := Memory.setWord [] 0 v, g := Core.reset.g.set 1 0x100 }
  let d := { s.dev with trees := { Trees.reset with
      slots := Trees.reset.slots.set 0 (some { modelOf modelBytes 100 with cost := 548 }),
      store := (List.range 6).map (fun i => (100 + i, BitVec.ofNat 64 (leNat ((modelBytes.drop (128 + 8 * i)).take 8)))) } }
  { s with dev := d, snap := d }
/-- TREE.RUN of slot 0 from g0 to g1. -/
def runTree : Lim := limR 0 0 1 0
theorem test_tree_low : (core0 (exec (.treeRun runTree) (walk 4))).dmem.word 0x104 = 0x3F800000 := by decide +kernel
theorem test_tree_high : (core0 (exec (.treeRun runTree) (walk 5))).dmem.word 0x104 = 0x40000000 := by decide +kernel
theorem wit_Trees_run : Executes runTree (walk 4) ∧ rdOf runTree = 0 ∧ runTree.data = .ok ∧
    ((fetched runTree (walk 4)).trees.slots[Fin.ofNat 32 (fnOf runTree)]).isSome = true :=
  ⟨exe _ _ (by decide), by decide, by decide, by decide +kernel⟩
/-- Core 1 behind an invocation of core 0 that runs to cycle 900. -/
def behind : State :=
  let s := walk 4
  let d := { s.dev with cores := (s.dev.cores.set 1 (s.dev.core 0)).set 0 Core.reset,
                        trees := { s.dev.trees with runs := [⟨0, 0, 900, 900⟩] } }
  st d
def runTree1 : Lim := { runTree with core := 1 }
theorem wit_Trees_waits : Executes runTree1 behind ∧ behind.dev.trees.runs = [⟨0, 0, 900, 900⟩] ∧ (0 : Nat) < runTree1.core.val ∧
    (from_ runTree1 behind).cyc + stallOf (from_ runTree1 behind) [kg (raOf runTree1), kg (rbOf runTree1)] < 900 ∧
    ∀ r ∈ (walk 4).dev.trees.runs, runTree.core.val < r.core :=
  ⟨exe _ _ (by decide), by decide, by decide, by decide, fun r h => by cases h⟩
theorem wit_Trees_empty : Executes runTree (regs 0 0) ∧ rdOf runTree = 0 ∧
    (fetched runTree (regs 0 0)).trees.slots[Fin.ofNat 32 (fnOf runTree)] = none ∧
    ((from_ runTree (regs 0 0)).gr (rbOf runTree)).toNat / 4 * 4 + 4 ≤ 0x20000 := ⟨exe _ _ (by decide), by decide⟩

/-- Carts of core 2, index 63: to DRAM, in error, and from DRAM with its lines on the way. -/
def oneCart (toDram bad arrived : Bool) : Cart := ⟨2, 63, 0x1000, 0x80, 1, toDram, bad, arrived, false, List.replicate 64 7⟩
def carts (x : Cart) : Dev := { up with carts := [x], dramSz := 1 }
theorem test_cart_done : ((out (exec (.cartDone 2 63 none) (st (carts (oneCart true false false))))).core 2).done =
    0x8000000000000000 := by decide
/-- An uncorrectable error in the last byte of a cart's source is event 225 (19_events.md, event map). -/
theorem test_cart_sram_error : (out (exec (.cartDone 2 63 (some ⟨0xBF, true⟩)) (st (carts (oneCart true false false))))).flag
    (EVT_STICKY 7) 1 = true := by decide
theorem wit_ImagesAndCarts_err : (oneCart true false false).sAddr ≤ (⟨0xBF, true⟩ : SramError).addr ∧
    (⟨0xBF, true⟩ : SramError).addr < (oneCart true false false).sAddr + 64 * (oneCart true false false).lines ∧
    (st (carts (oneCart true false false))).dev.pw.stopped = false := by decide
theorem wit_ImagesAndCarts_cart : takeCart (fun x => x.of 2 63 && (x.toDram || x.bad)) (carts (oneCart true false false)).carts =
      some (oneCart true false false, []) ∧ (oneCart true false false).bad = false ∧
    takeCart (fun x => x.of 2 63 && (x.toDram || x.bad)) (carts (oneCart true true false)).carts =
      some (oneCart true true false, []) ∧
    takeCart (fun x => x.of 2 63 && !x.toDram && !x.bad && !x.arrived) (carts (oneCart false false false)).carts =
      some (oneCart false false false, []) ∧ (oneCart false false true).arrived = true := by decide
theorem wit_ImagesAndCarts_load : Holds .a (st up) ∧ (st up).dev.mode = .commission ∧ loading up = false ∧ bit (1 : Word) 0 = true ∧
    Holds .a (st servo3) ∧ servo3.mode ≠ .commission := ⟨holdsPort _ _ (by decide), by decide, by decide, by decide,
      holdsPort _ _ (by decide), by decide⟩
/-- A load of 128 zero bytes from tick SRAM: code 1, FORM. -/
def badLoad : Dev := { up.setReg LIM_LDSTAT 1 with loader := { Loader.reset with len := 128 } }
theorem wit_ImagesAndCarts_end : loading badLoad = true ∧ badLoad.pw.stopped = false ∧ badLoad.loader.changed = false ∧
    loadSource badLoad = some (List.replicate 128 0) ∧ RawImage.code_ ⟨List.replicate 128 0⟩ false = 1 := by decide +kernel
theorem wit_ImagesAndCarts_take : (vis2 VGraph.reset).loader.image.isSome = true ∧
    ({ up with loader := { Loader.reset with next := some (imageOf []) } } : Dev).loader.next = some (imageOf []) := by decide

/-! ## Modes, reset and power (06_modes.md) -/

/-- RUNOK high, an image in force, the Harness link up; in a mode. -/
def ready (m : Mode) (im : Option Image) : Dev :=
  { up.setOut 0x80 1 with mode := m, hrnLink := true, loader := { Loader.reset with image := im } }
theorem calm (m : Mode) (im : Option Image) (h : ticking (ready m im) = true ∧ (ready m im).out linkLostMark = 0 ∧ hrnDemand (ready m im) = false ∧
    runOk (ready m im) = true) : Calm (st (ready m im)) :=
  ⟨h.1, rfl, h.2.1, h.2.2.1, h.2.2.2⟩
theorem test_run : (out (exec (.modeRequest 2) (st (ready .commission (some (imageOf [])))))).mode = .run := by decide
theorem test_run_refused : (out (exec (.modeRequest 2) (st (ready .commission none)))).fld SYS_MSTAT 3 0 = 2 := by decide
theorem wit_ModeRequests : Calm (st (ready .commission (some (imageOf [])))) ∧
    (ready .commission (some (imageOf []))).loader.image.isSome = true ∧
    ((ready .commission (some (imageOf []))).reg LIM_MINPER).toNat ≤ (ready .commission (some (imageOf []))).period ∧
    (ready .commission (some (imageOf []))).flag SYS_HOLDCAUSE 2 = false ∧
    (ready .commission (some (imageOf []))).flag SYS_HOLDCAUSE 3 = false ∧
    (ready .commission (some (imageOf []))).flag SYS_HOLDCAUSE 4 = false := ⟨calm _ _ (by decide), by decide⟩
theorem wit_ModeRequests_hold : Calm (st (ready .hold none)) ∧ (ready .hold none).mode = .hold ∧
    (ready .hold none).loader.image = none := ⟨calm _ _ (by decide), by decide⟩
theorem wit_ModeRequests_run : Calm (st (ready .run (some (imageOf [])))) ∧ (ready .run (some (imageOf []))).mode = .run ∧
    (ready .run (some (imageOf []))).pw.stopped = false := ⟨calm _ _ (by decide), by decide⟩
theorem test_reset_clears : (out (exec (.rstNPulse 1000 ⟨1, true, false⟩) (st up))).reg SYS_BOOTSTAT = 1 := by decide
theorem test_reset_short : (out (exec (.rstNPulse 999 ⟨1, true, false⟩) (st up))).ready = true := by decide
theorem wit_ResetsAndStartUp : Holds .a (st up) ∧ bits (0xA5000001 : Word) 31 24 = 0xA5 ∧ bit (0xA5000001 : Word) 0 = true ∧
    State.reset.dev.ready = false ∧ State.reset.dev.halted = false ∧ State.reset.dev.fld DRM_CFG 2 0 = 4 :=
  ⟨holdsPort _ _ (by decide), by decide⟩
theorem wit_ResetsAndStartUp_train : (2 : Nat) ≤ up.fld DRM_CFG 2 0 ∧ (∃ x ∈ ([0, 2] : List (Fin 5)), x.val = 2) ∧
    ∀ x ∈ ([0, 2] : List (Fin 5)), x.val ≤ up.fld DRM_CFG 2 0 → x.val ≤ 2 := by decide

/-- Stopped since the edge at 0, with the wake timer enabled. -/
def asleep : Dev :=
  { (up.setReg SYS_WAKEEN 8).setReg SYS_WAKETMR 1 with pw := { up.pw with stopped := true } }
def wakes (tmr fld : Bool) : WakeSet := ⟨false, false, tmr, false, false, fld⟩
theorem test_wake : (out (exec (.wake (wakes true true) 600000) (st asleep))).reg SYS_WAKECAUSE = 8 := by decide
theorem wit_WakeAndLinkLoss_wake : asleep.pw.stopped = true ∧
    (8 : BitVec 6) = (wakeBits (wakes true true) ||| asleep.pw.wakeReq) &&& wakeEnabled asleep := by decide
theorem wit_WakeAndLinkLoss_timer : asleep.pw.stopped = true ∧ asleep.fld SYS_WAKETMR 23 0 ≠ 0 ∧
    asleep.flag SYS_WAKEEN 3 = true := by decide
theorem test_link_never : (out (exec .harnessLinkLoss (st up))).flag SYS_HOLDCAUSE 3 = true := by decide
theorem wit_WakeAndLinkLoss_loss : (ready .run none).hrnLink = true ∧ (ready .run none).pw.stopped = false ∧ up.ready = true ∧
    up.flag SYS_HOLDCAUSE 3 = false ∧ (up.setReg SYS_HOLDCAUSE 8).flag SYS_HOLDCAUSE 3 = true ∧ up.hrnLink = false := by decide

/-! ## Field island and Tendril (13_field.md, 14_tendril.md) -/

/-- An island with its link up and a configuration of 29 words: DIO 5 an input with 3 samples and both directions reported, AI 1 in mode 1. -/
def cfgWords : List Word := (10 :: List.replicate 28 0).set 6 0x301 |>.set 26 1
def isl (x : Island) : Dev := { (up.setReg (FLD_DIO_CFG 5) 0x3301).setReg FLD_STAT 1 with field := { Field.reset with isl := x } }
def cfgd : Island := { Island.reset with cfg := some cfgWords, safe := false, cold := false }
theorem islandUp (x : Island) (h : x.powered = true ∧ x.uv = false ∧ x.cfg.isSome = true) : IslandUp x := ⟨h.1, h.2.1, h.2.2⟩
theorem test_filter : bit (out (exec (.dioSample 5 true) (st (isl { cfgd with agree := cfgd.agree.set 5 1 })))).isl.din 5 = false := by
  decide
theorem test_filter_done :
    bit (out (exec (.dioSample 5 true) (st (isl { cfgd with agree := cfgd.agree.set 5 2 })))).isl.din 5 = true := by decide
theorem test_ai_limit : (out (exec (.aiSample 1 52001 false) (st (isl cfgd)))).fld (FLD_AI 1) 15 0 = 52000 := by decide
theorem wit_FieldChannels_dio : IslandUp (isl cfgd).isl ∧ (isl cfgd).flag FLD_STAT 0 = true ∧ (isl cfgd).ready = true ∧ (isl cfgd).pw.stopped = false ∧ (isl cfgd).isl.dioMode 5 = 1 ∧
    bit (isl cfgd).isl.din 5 ≠ true ∧ (isl cfgd).isl.agree[5] + 1 < bits ((isl cfgd).isl.dioCfg 5) 11 8 ∧
    max 1 (bits ((isl cfgd).isl.dioCfg 5) 11 8) ≤ (isl { cfgd with agree := cfgd.agree.set 5 2 }).isl.agree[5] + 1 ∧
    (isl cfgd).flag FLD_DIN 5 ≠ true ∧ (isl cfgd).fld (FLD_DIO_CFG 5) 13 12 = 3 := ⟨islandUp _ (by decide), by decide⟩
theorem wit_FieldChannels_ai : IslandUp (isl cfgd).isl ∧ (isl cfgd).isl.aiMode 1 = 1 ∧ (isl cfgd).fld TRM_STAT 1 0 ≠ 1 ∧
    52001 < 65536 ∧ (isl { cfgd with prot := cfgd.prot.set 1 true }).isl.prot[1] = true := ⟨islandUp _ (by decide), by decide⟩
def outs : Island := { cfgd with dio := 0x8020, ao := cfgd.ao.set 2 { AoPin.reset with shut := true } }
theorem wit_FieldChannels_out : (isl outs).isl.powered = true ∧ (isl outs).pw.stopped = false ∧ bit (isl outs).isl.dio 15 = true ∧
    (∀ j : Fin 16, 15 < j → bit (isl outs).isl.dio j = false) ∧ ((isl outs).isl.ao[2]).point = none ∧
    ((isl outs).isl.ao[2]).shut = true ∧ (139 : Int) < 140 ∧ ticking (isl outs) = true := by decide
theorem wit_FieldFramesAndConfiguration : (isl cfgd).isl.powered = true ∧
    ({ isl cfgd with field := { (isl cfgd).field with frame := some (true, .run), ackDue := true } } : Dev).field.frame =
      some (true, .run) ∧
    ({ isl cfgd with field := { (isl cfgd).field with frame := some (false, .run) } } : Dev).field.frame = some (false, .run) ∧
    (isl cfgd).halted = false ∧ (isl cfgd).tick.phase = .idle ∧ Holds .a (st (isl cfgd)) ∧ (isl cfgd).mode = .commission :=
  ⟨by decide, by decide, by decide, by decide, by decide, holdsPort _ _ (by decide), by decide⟩
theorem wit_FieldFramesAndConfiguration_dead : (isl { cfgd with powered := false }).isl.powered = false ∧
    ticking (isl cfgd) = true ∧ (isl { cfgd with newCfg := some cfgWords }).isl.newCfg.isSome = true := by decide
def resend : Dev :=
  let d := (isl cfgd).setReg FLD_STAT 1
  { d with field := { d.field with sent := some (mirrorCfg d) } }
theorem wit_FieldFramesAndConfiguration_resend : resend.isl.powered = true ∧ resend.flag FLD_STAT 0 = true ∧
    resend.flag FLD_STAT 1 = false ∧ resend.field.sent = some (mirrorCfg resend) := by decide
theorem wit_FieldSafety : (isl cfgd).isl.powered = true ∧ (isl cfgd).isl.safe = false ∧
    ({ isl cfgd with halted := true } : Dev).halted = true ∧ (isl { cfgd with uv := true }).isl.uv = true ∧
    (isl cfgd).flag FLD_STAT 3 = false ∧ up.flag FLD_STAT 0 = false := by decide

/-- A powered Tendril whose memory enables its current input, in the middle of its work; the last downlink set 50,000 in Run. -/
def tdl (t : Tendril) : Dev := { up with tdl := t }
def awakeT : Tendril :=
  { Tendril.reset with powered := true, started := true, settle := 2, slot := some 5, nv := [(0, 0x101), (2, 0x2010)],
                       down := some ⟨50000, true, .run, .commission, false⟩ }
theorem test_loop_clamps : (out (exec .sourceSelect (st (tdl awakeT)))).tdl.code = 46000 := by decide
theorem wit_TendrilAndMirror : (tdl awakeT).tdl.powered = true ∧ (tdl awakeT).tdl.vOn = true ∧ (tdl awakeT).tdl.cOn = true ∧
    tdlTrimming (tdl awakeT) = false ∧ 2 ≤ (tdl awakeT).tdl.settle ∧ (tdl awakeT).ready = true ∧ ticking (tdl awakeT) = true ∧
    (tdl { awakeT with settle := 1 }).tdl.settle < 2 := by decide
/-- R276 at a gain of 8 and an external reference of 1 V: 0.1 mV x 8 / 1 V x 2^23 = 6,710.9, code 6,711. -/
theorem wit_TendrilAndMirror_code : nearestCode { awakeT with nv := [(0, 0x105), (2, 0x2010)] } 100000 1000000000 6711 ∧
    ¬ nearestCode { awakeT with nv := [(0, 0x105), (2, 0x2010)] } 100000 1000000000 6710 := by unfold nearestCode; decide
theorem test_conversion : (out (exec (.conversion ⟨100000, 1000000000⟩ 0 false false)
    (st (tdl { awakeT with nv := [(0, 0x105), (2, 0x2010)] })))).tdl.vin = 6711 := by decide +kernel
theorem wit_TendrilAndMirror_drives : Driving awakeT 5 ∧ Sound awakeT 5 ∧ Driving { awakeT with nvBad := true } 5 :=
  ⟨⟨rfl, rfl, rfl, fun _ h => by cases h⟩, ⟨⟨rfl, rfl, rfl, fun _ h => by cases h⟩, by decide, by decide, by decide⟩,
    ⟨rfl, rfl, rfl, fun _ h => by cases h⟩⟩
theorem wit_TendrilAndMirror_start : ({ awakeT with started := false } : Tendril).started = false ∧ awakeT.settle < 3 ∧
    awakeT.vOn = true := by decide
theorem wit_TendrilAndMirror_silent : ({ awakeT with down := none } : Tendril).down = none ∧
    bits ({ awakeT with misses := 300 } : Tendril).sil 7 0 ≤ ({ awakeT with misses := 300 } : Tendril).misses ∧
    ∀ m : Fin 3, bits ({ awakeT with nv := [(2, word (256 * m.val))] } : Tendril).sil 9 8 = m.val := by decide
theorem wit_TendrilAndMirror_loop : awakeT.slot = some 5 ∧ awakeT.down = some ⟨50000, true, .run, .commission, false⟩ ∧
    awakeT.started = true ∧ awakeT.hold = false ∧ awakeT.nvBad = false ∧ awakeT.refErr = false ∧ awakeT.trim = none ∧
    awakeT.misses < bits awakeT.sil 7 0 := by decide
theorem wit_TendrilAndMirror_bad : ({ awakeT with nvBad := true } : Tendril).slot = some 5 ∧
    ({ awakeT with nvBad := true } : Tendril).nvBad = true := by decide
def tdlLinked (j : Option NvJob) : Dev := (tdl { awakeT with job := j }).setReg TDL_STAT 1
/-- An image of 512 words that R290 accepts, and one it refuses. -/
def goodImage : List Word := nvImage up
theorem wit_TendrilAndMirror_nv : Holds .a (st (tdlLinked none)) ∧ (tdlLinked none).tdl.job = none ∧
    (tdlLinked none).flag TDL_STAT 0 = true ∧ (tdlLinked none).mode = .commission := ⟨holdsPort _ _ (by decide), by decide⟩
theorem wit_TendrilAndMirror_end : (tdlLinked (some ⟨some goodImage, .transfer⟩)).tdl.job = some ⟨some goodImage, .transfer⟩ ∧
    nvCheck goodImage = 0 ∧ nvCheck (goodImage.set 7 200) ≠ 0 ∧
    (tdlLinked (some ⟨some goodImage, .program⟩)).tdl.job = some ⟨some goodImage, .program⟩ ∧
    (tdlLinked (some ⟨none, .lost⟩)).tdl.job = some ⟨none, .lost⟩ ∧
    (tdlLinked (some ⟨none, .transfer⟩)).tdl.job = some ⟨none, .transfer⟩ := by decide +kernel

/-- HART command 0 to short address 0, and a reply of 2 bytes. -/
def hartFrame0 : List Byte := [0x02, 0x80, 0, 0, 0x82]
theorem test_hart : (out (exec (.hartRequest 5 true hartFrame0) (st (tdl awakeT)))).tdl.reqNew = true := by decide
theorem wit_HartExchange : (tdl awakeT).tdl.powered = true ∧ hartFrame0.headD 0 = 0x02 ∧
    hartParse hartFrame0 = some ⟨0x02, [0x80], 0, []⟩ ∧ xorBytes hartFrame0 = 0 ∧
    (tdl awakeT).tdl.isMine ⟨0x02, [0x80], 0, []⟩ = true ∧ (tdl awakeT).tdl.silent = false ∧
    (tdl awakeT).tdl.down.isSome = true ∧ (tdl awakeT).tdl.nvBad = false ∧ tdlTrimming (tdl awakeT) = false ∧
    ticking (tdl awakeT) = true ∧ loopTrimming (tdl awakeT) = false ∧ hartParse [0x02, 0x80, 0, 0, 0x83] = some ⟨0x02, [0x80], 0, []⟩ ∧ xorBytes [0x02, 0x80, 0, 0, 0x83] ≠ 0 := by decide
def hartReply0 : Tendril :=
  { awakeT with reply := some ⟨0, 2, 9, [1, 2]⟩, req := some ⟨0x02, [0x80], 0, []⟩, rxSeq := 9, reqIn := true, reqNew := true,
                nv := [(0, 0x101), (2, 0x2010), (4, 0x1E0500)] }
theorem wit_HartExchange_send : hartReply0.silent = false ∧ hartReply0.down.isSome = true ∧ hartReply0.powered = true ∧
    hartReply0.started = true ∧ 2 ≤ (2 : Nat) ∧ (tdl hartReply0).ready = true := by decide
theorem wit_HartExchange_reply : hartReply0.reply = some ⟨0, 2, 9, [1, 2]⟩ ∧ hartReply0.req = some ⟨0x02, [0x80], 0, []⟩ ∧
    hartReply0.job = none ∧ hartReply0.rxSeq = 9 ∧ 30 ≤ bits hartReply0.hcfg 23 16 ∧ bits hartReply0.hcfg 23 16 < 31 ∧
    hartReply0.reqIn = true ∧ hartReply0.reqNew = true := by decide

/-! ## Harness and brakes (15_harness.md, 16_brake.md) -/

/-- Bytes at an offset. -/
def putAt (l : List Byte) (o : Nat) (b : List Byte) : List Byte := l.take o ++ b ++ l.drop (o + b.length)
/-- A configuration but for its CHECK: slot 0 of type 1 on inputs 0 and 1 (0 tested by HT1, FILT 3) enabling pair 0 with DEMEN;
slot 1 a two-hand slot on inputs 2 to 5; output dips of pair 0; brake 0 with a test, request 6, acknowledgement 7. -/
def hBody : List Byte :=
  putAt (putAt (putAt (putAt (putAt (putAt (putAt (List.replicate 252 0) 0 [0x48, 0x41, 0x52, 0x4E]) 8 [100, 0]) 12 [1])
    0x10 [0x83, 1, 3]) 0x30 [1, 0x11, 0, 1, 0xFF, 0xFF, 100]) 0x40 [3, 1, 2, 3, 4, 5, 100])
    0xB0 [3, 0, 6, 7, 1, 0, 100, 0, 10, 0, 200, 0, 0x90, 1, 20, 0]
def hConf : List Byte := hBody ++ leBytes (crc32 hBody).toNat 4
/-- A proposal whose magic word is wrong. -/
def hBad : List Byte := hConf.set 0 0

/-- A Harness with that configuration in force, after its start. -/
def hUp : Harness := hStart { Harness.reset with powered := true, active := some (hBody ++ [0, 0, 0, 0]) }
def hd (h : Harness) : Dev := { up with hrn := h }
def smp (hi : BitVec 16) (r a : Bool) : HarnessSample :=
  { hi := hi, hrst := r, hack := a, hoRead := 0, hoLimit := 0, hbRead := 0, coil0 := 0, coil1 := 0 }
def noTrouble : HarnessTrouble := ⟨false, false, false, false⟩
/-- Both channels alike, input 1 about to be accepted high. -/
def hMid : Harness :=
  let ch := { hUp.a with agree := hUp.a.agree.set 1 3 }
  { hUp with a := ch, b := ch, noEx := 3 }

theorem wit_HarnessCycle : HarnessRuns (st (hd hMid)) := ⟨by decide, by decide⟩
theorem wit_HarnessCycle_filter : (hd hMid).hrn.masked 0 = false ∧ bit (smp 3 false false).hi 0 ≠ bit hMid.a.lvl 0 ∧
    hMid.a.agree[(0 : Fin 16)] < inFilt hMid.cfg 0 ∧ bit (smp 3 false false).hi 1 ≠ bit hMid.a.lvl 1 ∧
    inFilt hMid.cfg 1 ≤ hMid.a.agree[(1 : Fin 16)] ∧
    ({ hMid with mask := hMid.mask.set 1 2 } : Harness).masked 0 = true := by decide
theorem wit_HarnessCycle_differ : bit (2 : BitVec 18) 1 ≠ bit (0 : BitVec 18) 1 ∧ 8 ≤ (Vector.replicate 16 8 : Vector Nat 16)[1] := by
  decide
theorem wit_HarnessCycle_faults : hMid.a = hMid.b ∧ 3 ≤ hMid.noEx ∧
    ({ noTrouble with exchangeLost := true } : HarnessTrouble).exchangeLost = true ∧ noTrouble.exchangeLost = false ∧
    ({ noTrouble with ratioBad := true } : HarnessTrouble).ratioBad = true ∧
    ({ noTrouble with configBad := true } : HarnessTrouble).ratioBad = false ∧
    ({ noTrouble with configBad := true } : HarnessTrouble).configBad = true ∧
    ({ noTrouble with selfTestBad := true } : HarnessTrouble).configBad = false ∧
    ({ noTrouble with selfTestBad := true } : HarnessTrouble).selfTestBad = true := ⟨rfl, by decide⟩
theorem test_filter_accepts : bit (out (exec (.harnessCycle (smp 3 false false) (smp 3 false false) noTrouble) (st (hd hMid)))).hrn.a.lvl 1 =
    true := by decide +kernel
theorem test_exchange_fault : (out (exec (.harnessCycle (smp 3 false false) (smp 3 false false)
    { noTrouble with exchangeLost := true }) (st (hd hMid)))).hrn.fcode = 2 := by decide

/-- Slot 0 READY on input 0, with HRST high until now; a frame of the Harness on its way. -/
def hReady : Harness :=
  let ch := { hUp.a with lvl := 0x10003, raw := 3, slots := hUp.a.slots.set 0 { HSlot.reset with st := 3 } }
  { hUp with a := ch, b := ch }
def hFramed : Harness := statusFrame hReady
theorem test_harness_reset : ((out (exec (.harnessReset ⟨100, smp 3 false false, smp 3 false false, noTrouble⟩)
    (st (hd hReady)))).hrn.a.slots[0]).st = 1 := by decide +kernel
theorem test_harness_reset_short : ((out (exec (.harnessReset ⟨99, smp 3 false false, smp 3 false false, noTrouble⟩)
    (st (hd hReady)))).hrn.a.slots[0]).st = 3 := by decide +kernel
theorem wit_HarnessResetAndFrames : HarnessRuns (st (hd hReady)) ∧ (100 : Nat) ≤ 3000 ∧ (hReady.a.slots[0]).st = 3 ∧
    (99 : Nat) < 100 ∧ (3000 : Nat) < 3001 ∧ (hd hReady).hrn.powered = true ∧
    bit hReady.a.lvl 16 = true ∧ (smp 3 false false).hrst = false ∧ up.ready = true := ⟨⟨by decide, by decide⟩, by decide⟩
/-- The cycle after which both channels see HRST low. -/
def hFell : Harness := { hReady with a := { hReady.a with lvl := 3 }, b := { hReady.b with lvl := 3 } }
theorem wit_HarnessResetAndFrames_fell : hReady.a = hReady.b ∧ hrstFell hReady hFell = true ∧ (hFell.a.slots[0]).st = 3 :=
  ⟨rfl, by decide⟩
def hResetFrame : HFrame := ⟨[], 0x80, 1, 0⟩
theorem wit_HarnessResetAndFrames_clear : bit hResetFrame.events 7 = true ∧ 0 ∈ [0, 1, 6, 8, 9, 10] ∧
    bit hResetFrame.events 0 = false := by decide
theorem wit_HarnessResetAndFrames_receive : ∃ f, (hd hFramed).hrn.frame = some f ∧ (f.vals.map (·.1)).Nodup ∧
    ∀ e ∈ f.vals, e.1 / 0x10000 = 0x10C := ⟨_, rfl, by decide, by decide⟩

theorem test_proposal : hRefuse hConf = 0 := by decide +kernel
theorem wit_SealedConfiguration : Holds .a (st (hd hUp)) ∧ (hd hUp).mode = .commission ∧ bit (1 : Word) 0 = true :=
  ⟨holdsPort _ _ (by decide), by decide +kernel⟩
/-- A proposal on the line; one pending and HACK held since, and one being written. -/
def hLine (c : List Byte) : Harness := { hUp with line := some c }
def hPend : Harness := { hUp with pend := some hConf, hackOk := true }
theorem wit_SealedConfiguration_receive : HarnessRuns (st (hd (hLine hConf))) ∧ (hLine hConf).line = some hConf ∧
    hRefuse hConf = 0 ∧ (hLine hBad).line = some hBad ∧ hRefuse hBad ≠ 0 :=
  ⟨⟨by decide, by decide⟩, by decide +kernel, by decide +kernel, by decide +kernel, by decide +kernel⟩
theorem wit_SealedConfiguration_activate : HarnessRuns (st (hd hPend)) ∧ hPend.pend = some hConf ∧ hPend.pairs = 0 ∧
    hPend.hackOk = true ∧ (2000 : Nat) ≤ 5000 ∧ (1999 : Nat) < 2000 ∧ (5000 : Nat) < 5001 ∧ hUp.pend = none :=
  ⟨⟨by decide, by decide⟩, by decide +kernel⟩
theorem wit_SealedConfiguration_write : HarnessRuns (st (hd { hPend with writing := some hConf })) ∧
    ({ hPend with writing := some hConf } : Harness).writing = some hConf := ⟨⟨by decide, by decide⟩, by decide +kernel⟩

/-- Pair 0 energised; slot 0 in DEMAND with one input closed; slot 1 ARMED; brake 0 in a test step. -/
def hBusy (step : Nat) : Harness :=
  let ch := { hUp.a with lvl := 1, slots := (hUp.a.slots.set 0 { HSlot.reset with st := 2, fromOk := true }).set 1 { HSlot.reset with st := 4 } }
  { hUp with a := ch, b := ch, pairs := 1, brakes := hUp.brakes.set 0 { hUp.brakes[0] with step := step, coilA := 0, offFor := 1000 } }
/-- A test pulse of HT1 at a later sample, input 0 high at all the samples before it. -/
def hPulse (mask : Nat) (low : BitVec 16) : Harness :=
  let h := hBusy 0
  let ch := { h.a with raw := 1, before := 1, lowSeen := low }
  { h with a := ch, b := ch, mask := h.mask.set 1 mask }
theorem test_test_pulse : ((out (exec (.testPulse 1 true) (st (hd (hBusy 0))))).hrn.mask)[1] = 4 := by decide
theorem test_test_pulse_one : ((out (exec (.testPulse 1 false) (st (hd (hBusy 0))))).hrn.mask)[1] = 3 := by decide
theorem test_test_pulse_stuck : bit (out (exec (.harnessCycle (smp 1 false false) (smp 1 false false) noTrouble)
    (st (hd (hPulse 3 0))))).hrn.tpBad 0 = true := by decide +kernel
theorem test_test_pulse_good : bit (out (exec (.harnessCycle (smp 1 false false) (smp 1 false false) noTrouble)
    (st (hd (hPulse 3 1))))).hrn.tpBad 0 = false := by decide +kernel
theorem wit_HarnessTests_pulse : (hPulse 3 0).mask[1] = 3 ∧ (hPulse 2 1).mask[1] = 2 ∧ hTpen (hPulse 3 0).cfg 0 = true ∧
    hSrc (hPulse 3 0).cfg 0 = 1 ∧ hSrc (hPulse 2 1).cfg 0 ≠ 2 ∧ bit (hPulse 2 1).a.before 0 = true ∧
    bit (hPulse 2 1).a.lowSeen 0 = true ∧ bit (smp 1 false false).hi 0 = true ∧ (hBusy 0).low = false ∧
    (bit (hPulse 3 1).a.lowSeen 0 || !bit (smp 1 false false).hi 0) = true ∧
    (bit (hPulse 3 0).a.lowSeen 0 || !bit (smp 1 false false).hi 0) = false := by decide +kernel
theorem wit_HarnessTests : HarnessRuns (st (hd (hBusy 0))) ∧ hTpen (hBusy 0).cfg 0 = true ∧ hSrc (hBusy 0).cfg 0 = 1 ∧
    bit (1 : BitVec 16) 0 = true ∧ bit (0 : BitVec 16) 0 = false ∧ (hInputs (hBusy 0).cfg 0).contains 0 = true ∧
    ((hBusy 0).a.slots[0]).st ≠ 0 ∧ bit (hBusy 0).pairs 0 = true ∧ hcfg (hBusy 0).cfg 12 4 / 2 ^ 0 % 2 = 1 ∧
    disagrees (hBusy 0) 0 (hBusy 0).a = true ∧ ((hBusy 0).a.slots[1]).st = 4 := ⟨⟨by decide, by decide⟩, by decide +kernel⟩
theorem wit_HarnessTests_up : (hd { Harness.reset with active := some hConf }).hrn.active = some hConf ∧ hCheckOk hConf = true ∧
    (hd Harness.reset).hrn.active = none := ⟨rfl, by decide +kernel, rfl⟩
/-- The self-test runs; the newer copy, and no older one, is there. -/
def hSelf : Harness := { Harness.reset with powered := true, state := 3, active := some hConf, prev := none }
theorem wit_HarnessTests_self : hSelf.powered = true ∧ hSelf.state = 3 ∧ hSelf.active = some hConf ∧ hCheckOk hConf = true ∧
    hSelf.prev = none ∧ ({ hSelf with prev := some hConf } : Harness).prev = some hConf ∧
    ({ hSelf with active := none } : Harness).active = none := ⟨rfl, rfl, rfl, by decide +kernel, rfl, rfl, rfl⟩

/-- Brake 0 due for a test with its conditions met: pair 0 energised, request and acknowledgement low, coil cold. -/
theorem wit_Brakes : HarnessRuns (st (hd (hBusy 0))) ∧ (hUp.brake 0).hq[1].lvl = BitVec.ofNat 2 (b2n false + 2 * b2n false) ∧
    bkUsed hUp.cfg 0 = true ∧ (hUp.brake 0).fault = false ∧ (hUp.brake 0).overdue = false ∧
    ({ hUp with brakes := hUp.brakes.set 0 Brake.reset } : Harness).cfg = hUp.cfg ∧
    (({ hUp with brakes := hUp.brakes.set 0 Brake.reset } : Harness).brake 0).due = false :=
  ⟨⟨by decide, by decide⟩, by decide +kernel⟩
theorem wit_Brakes_test : testReady 0 (hBusy 0) = true ∧ ((hBusy 0).brake (1 - 0)).step = 0 ∧ ((hBusy 2).brake 0).step = 2 ∧
    ((hBusy 5).brake 0).step = 5 ∧ ((hBusy 1).brake 0).step = 1 ∧ ((hBusy 6).brake 0).step = 6 := by decide +kernel
theorem test_brake_test : ((out (exec (.brakeTestStart 0) (st (hd (hBusy 0))))).hrn.brake 0).step = 1 := by decide +kernel
theorem test_hq_down : (((out (exec (.hqCount ⟨0, 1⟩ false true) (st (hd (hBusy 0))))).hrn.brake 0).hq[1]).n = -1 := by decide +kernel

/-! ## Faults, Cellar (16_brake.md to 18_trouble.md) -/

def rec (c : Cls) (id : Word) : FRec :=
  { ev := 14, cls := c, pre := false, infp := false, id := id, detail := 0, ts := 0, count := 0 }
def stacked (l : List FRec) : Dev := { up with fu := { up.fu with stack := l, total := 2 } }
theorem test_temp : (out (exec (.tempCritical 161) (st up))).reg FLT_STAT &&& 0x10 = 0x10 := by decide
theorem wit_FaultClasses : up.ready = true ∧ Raises up ∧ (150 : Int) < 151 ∧ (150 : Int) ≤ 150 ∧ (160 : Int) < 161 ∧
    ((9 : Fin 256) = 2 ∨ (9 : Fin 256) = 9 ∨ (9 : Fin 256) = 10 ∨ (9 : Fin 256) = 15) ∧ (3 : Fin 256) ≠ 2 ∧ (3 : Fin 256) ≠ 15 :=
  ⟨rfl, rfl, by decide⟩
theorem wit_FaultStack : Cls.hold ≠ .note ∧ Raises (stacked []) ∧ evReserved 14 = false ∧ stackInOrder (stacked []).fu.stack = true ∧
    stackInOrder (stacked [rec .slip 1]).fu.stack = true ∧ Cls.slip.num < Cls.hold.num ∧ Cls.hold.num ≤ Cls.hold.num := by
  exact ⟨by decide, rfl, by decide⟩
theorem wit_FaultStack_full : stackInOrder (stacked [rec .hold 2, rec .slip 1]).fu.stack = true ∧ Cls.slip.num ≤ Cls.slip.num ∧
    Cls.slip.num < Cls.hold.num ∧ Cls.hold.num < Cls.halt.num ∧ stackInOrder (stacked [rec .hold 2, rec .hold 1]).fu.stack = true ∧
    (rec .hold 1).id.toNat < (rec .hold 2).id.toNat := by decide
theorem test_stack_newest_dropped : ((faultAt 9 .halt 0 false false false (stacked [rec .hold 1, rec .hold 2])).fu.stack.map (·.id)) =
    [3, 1] := by decide
theorem test_stack_equal_dropped : ((faultAt 14 .hold 0 false false false (stacked [rec .hold 1, rec .degrade 2])).fu.stack.map (·.id)) =
    [1, 3] := by decide
theorem wit_FaultUnitAndDram : bit (0x80000001 : Word) 31 = true ∧ bit (1 : Word) 31 = false ∧
    (rec .hold 1).id.toNat % 65536 = bits (0x80000001 : Word) 15 0 ∧ (rec .slip 2).id.toNat % 65536 ≠ bits (0x80000001 : Word) 15 0 ∧
    stackInOrder (stacked [rec .slip 2]).fu.stack = true ∧ (∀ r ∈ (stacked [rec .slip 2]).fu.stack, r.cls ≠ .hold) ∧
    (∃ r ∈ (stacked [rec .hold 1, rec .slip 2]).fu.stack, r.cls = .hold) := by decide
theorem wit_FaultUnitAndDram_holds : Holds .a (st (stacked [rec .hold 1])) := holdsPort _ _ (by decide)
def dramUp : Dev := { up with dramSz := 2 }
theorem wit_FaultUnitAndDram_dram : ({ up with fu := { up.fu with pulse := true } } : Dev).fu.pulse = true ∧ Raises dramUp ∧
    dramUp.dramSz ≠ 0 ∧ dramHolds (carts (oneCart true false false)) = true ∧ Raises (carts (oneCart true false false)) ∧
    ticking (stacked []) = true := by exact ⟨rfl, rfl, by decide, by decide, rfl, by decide⟩

/-- A Cellar with one durable cask of one word, with one record of the fault unit, and with its log failed. -/
def cel (c : Cellar) : Dev := { up with cel := c }
def celJ (tag : Byte) : Cellar := { up.cel with journal := [⟨0, ⟨tag, [(0x40000, 0x1234)]⟩, true, none, 1⟩] }
def celR : Cellar := { up.cel with recs := [⟨5, 9, List.replicate 64 1⟩] }
theorem test_apply : (out (exec (.caskApply ⟨[], false⟩) (st (cel (celJ 1))))).cel.durable.word 0x40000 = 0x1234 := by decide
theorem wit_CellarApplication : (∀ j ∈ (celJ 1).journal, j.slot = none) ∧ (celJ 1).recs = [] := by decide
theorem wit_CellarApplication_word : ∃ j, (celJ 1).journal = [j] ∧ j.word = true ∧ j.slot = none ∧ j.cask.tag ≠ 255 ∧
    j.cask.entries = [(0x40000, 0x1234)] ∧ (0x40000 : Nat) < 0x64000 ∧ (⟨[0x40000, 0x40000], false⟩ : VerifyEnv).fails = [0x40000, 0x40000] ∧
    Raises (cel (celJ 1)) := ⟨_, rfl, rfl, rfl, by decide, rfl, by decide, rfl, rfl⟩
theorem wit_CellarApplication_log : celR.journal = [] ∧ celR.recs = [⟨5, 9, List.replicate 64 1⟩] ∧ (5 : Nat) < 1536 ∧
    (cel celR).flag CEL_STAT 8 = true ∧ ((cel celR).setReg CEL_STAT 0).flag CEL_STAT 8 = false ∧
    (⟨[logOfs 5 + 8], false⟩ : VerifyEnv).fails = [logOfs 5 + 8 * 1] ∧ (cel celR).fld CEL_SPILLCNT 6 0 < 64 ∧
    64 ≤ ((cel celR).setReg CEL_SPILLCNT 64).fld CEL_SPILLCNT 6 0 := by decide
theorem wit_CellarApplication_host : Holds .a (st (up.setReg CEL_STAT 1)) ∧ (up.setReg CEL_STAT 1).flag CEL_STAT 0 = true ∧
    Holds .a (st up) ∧ up.flag CEL_STAT 0 = false ∧ bits (0x5C000001 : Word) 31 24 = 0x5C ∧ bit (0x5C000001 : Word) 0 = true ∧
    up.mode = .commission ∧ bits (0x5B000001 : Word) 31 24 ≠ 0x5C :=
  ⟨holdsPort _ _ (by decide), by decide, holdsPort _ _ (by decide), by decide⟩

/-! ## Trim steps, identity buses (20_trim.md, 21_identity_monitor.md) -/

/-- Trim with a step and a point in TRM_STAT, and with the needs of the AO step or of the loop step met. -/
def trimD (stat : Word) (points : Nat) : Dev :=
  let d := ((isl outs).setReg TRM_STAT stat).setReg FLD_STAT 3
  { d with mode := .trim, trim := { d.trim with points := points }, tdl := awakeT, tdlLink := true }
theorem test_trim_needs : (out (exec (.trimGo 0x10002) (st (trimD 0 0)))).fld TRM_STAT 19 16 = 2 := by decide
theorem wit_TrimSteps_go : (trimD 0 0).mode = .trim ∧ (trimD 0 0).fld TRM_STAT 1 0 ≠ 1 ∧ bit (0x10000 : Word) 17 = false ∧
    bit (0x10000 : Word) 18 = false ∧ bits (0x10000 : Word) 10 8 < stepIndices (bits (0x10000 : Word) 3 0) ∧
    stepNeeds (trimD 0 0) (bits (0x10000 : Word) 3 0) (bits (0x10000 : Word) 10 8) = true ∧
    stepIndices (bits (0x10100 : Word) 3 0) ≤ bits (0x10100 : Word) 10 8 ∧ Raises (trimD 0 0) ∧
    bits (0x10002 : Word) 10 8 < stepIndices (bits (0x10002 : Word) 3 0) ∧
    stepNeeds (trimD 0 0) (bits (0x10002 : Word) 3 0) (bits (0x10002 : Word) 10 8) = false := by
  exact ⟨by decide, by decide, by decide, by decide, by decide, by decide, by decide, rfl, by decide⟩
theorem wit_TrimSteps_ignored : (trimD 0x31 0).fld TRM_STAT 1 0 = 1 ∧ bit (0x20000 : Word) 17 = true ∧ up.mode ≠ .trim := by decide
/-- Codes 4 of any step, 5 of step 2 and 6 of step 5 with its link down, for the island and for the Tendril. -/
theorem wit_TrimSteps_codes : ticking (trimD 0 0) = true ∧ (trimD 0x21 0).fld TRM_STAT 7 4 = 2 ∧ (trimD 0x51 0).fld TRM_STAT 7 4 = 5 ∧
    (trimD 0x51 0).fld TRM_STAT 10 8 = 0 ∧ (trimD 0x51 0).fldLink = false ∧ (trimD 0x151 0).fld TRM_STAT 10 8 ≠ 0 ∧
    ({ trimD 0x151 0 with tdlLink := false } : Dev).tdlLink = false ∧ (trimD 0x51 0).trim.ended = none := by decide
theorem wit_TrimSteps_points : (trimD 0x1231 1).fld TRM_STAT 1 0 = 1 ∧ (trimD 0x1231 1).fld TRM_STAT 13 12 = 1 ∧
    (trimD 0x1231 1).fld TRM_STAT 7 4 = 3 ∧ (trimD 0x1231 1).fld TRM_STAT 10 8 = 2 ∧ (trimD 0x2041 2).fld TRM_STAT 13 12 = 2 ∧
    (trimD 0x2041 2).fld TRM_STAT 7 4 = 4 ∧ (trimD 0x41 0).trim.ended = none ∧ (trimD 0x41 0).trim.points = 0 ∧
    (trimD 0x41 0).fld TRM_STAT 13 12 = 0 ∧ (trimD 0x41 3).trim.points = 3 ∧ trimResultOk 4 [6] = true ∧
    (4 : BitVec 4).toNat ≤ 6 ∧ Raises (trimD 0x41 3) := by
  exact ⟨by decide, by decide, by decide, by decide, by decide, by decide, by decide, by decide, by decide, by decide, by decide,
    by decide, rfl⟩
def trimEnded (stat : Word) (c : Nat) (r : List Word) : Dev := { trimD stat 0 with trim := { (trimD stat 0).trim with ended := some (c, r) } }
theorem test_trim_result : (trimApply (trimEnded 0x61 0 [2])).reg TRM_CELSEL = 2 := by decide
theorem wit_TrimSteps_apply : (trimEnded 0x61 0 [2]).trim.ended = some (0, [2]) ∧ (trimEnded 0x61 0 [2]).fld TRM_STAT 1 0 = 1 ∧
    Raises (trimEnded 0x61 0 [2]) ∧ (trimEnded 0x61 0 [2]).fld TRM_STAT 7 4 = 6 ∧ (trimEnded 0x111 5 []).fld TRM_STAT 10 8 < 3 ∧
    (trimEnded 0x61 5 []).trim.ended = some (5, []) := by exact ⟨rfl, by decide, rfl, by decide⟩
theorem wit_TrimSteps_restore : Holds .a (st up) ∧ up.mode = .commission ∧ (0xFFFF : Word).toNat < 2 ^ 20 ∧
    popCount (0xFFFF : Word).toNat 20 = 16 ∧ popCount (0x1FFFF : Word).toNat 20 ≠ 16 ∧ wcNow TRM_CELSEL = true ∧
    TRM_CELSEL ≠ TRM_PWMSEL ∧ (row? TRM_CELSEL).isSome = true := ⟨holdsPort _ _ (by decide), by decide⟩

/-- A record of an identity module: kind 3, maker 7, part 5, serial 9; its bus reading, and its read ended. -/
def idBody : List Byte := putAt (List.replicate 126 0) 0 [0x50, 0x4E, 1, 3, 7, 0, 0, 0, 5, 0, 0, 0, 9]
def idBytes : List Byte := idBody ++ leBytes (crcCcitt idBody).toNat 2
def idBus (x : IdBus) : Dev := { up with idn := up.idn.set 1 x }
def reading : IdBus := { busy := true, ended := none, part := 0, serial := 0, good := false, sent := ([], []) }
def ended (s : Nat) : IdBus := { reading with busy := false, ended := some (s, idBytes), good := true }
theorem test_id_read : ((out (exec (.idReadEnd 1 (.data idBytes)) (st (idBus reading)))).bus 1).ended.map (·.1) = some 2 := by decide +kernel
theorem wit_IdentityReads_ticks : ticking (idBus (ended 2)) = true ∧ idBytes.length = 128 ∧ (5 : Nat) < 8 := by decide +kernel
theorem wit_IdentityReads : (1 : BitVec 4).getLsbD 0 = true ∧ (2 : BitVec 4).getLsbD 0 = false ∧ (up.bus 0).busy = false ∧
    up.flag (IDN_CFG 0) 12 = true ∧ (up.setReg (IDN_CFG 0) 0).flag (IDN_CFG 0) 12 = false ∧ ((idBus reading).bus 1).busy = true ∧
    Raises (idBus reading) ∧ idBytes.length = 128 ∧ leBytes (crcCcitt (idBytes.take 126)).toNat 2 = idBytes.drop 126 ∧
    idBytes.take 3 = [0x50, 0x4E, 1] ∧ leBytes (crcCcitt ((idBytes.set 9 1).take 126)).toNat 2 ≠ (idBytes.set 9 1).drop 126 := by
  exact ⟨by decide, by decide, by decide, by decide, by decide, by decide, rfl, by decide +kernel⟩
theorem wit_IdentityReads_landing : ((idBus (ended 2)).bus 1).ended = some (2, idBytes) ∧ ((idBus (ended 5)).bus 1).ended = some (5, idBytes) ∧
    ((idBus (ended 2)).bus 1).busy = false ∧ (idBus (ended 2)).flag (IDN_CFG 1) 10 = false ∧
    ((idBus (ended 2)).setReg (IDN_CFG 1) 0x400).flag (IDN_CFG 1) 10 = true ∧
    ((idBus (ended 2)).setReg (IDN_DEST 1) 0x40).fld (IDN_DEST 1) 21 6 < 65535 ∧ (up.bus 0).ended = none :=
  ⟨rfl, rfl, by decide, by decide, by decide, by decide, by decide⟩

/-! ## The monitor (21_identity_monitor.md) -/

def req (l : List Byte) : MonFrame := { seq := 9, payload := l }
/-- READY in Commission with MON_CFG 0x3C03 (EN, ALLOW) and a code; with a session; with a held tick. -/
def mon (stat : Word) : Dev := { (up.setReg MON_CFG 0x3C03).setReg MON_STAT stat with mon := { up.mon with code := 0x1234 } }
/-- The commands of this section, as outcomes at a small state. -/
theorem test_mon_info : (out (exec (.monInfo (req [])) (st (mon 0)))).mon.resp.take 5 = [0x5A, 16, 1, 9, 0] := by decide
theorem test_mon_code : (out (exec (.monUnlock (req [0x35, 0x12, 0, 0])) (st (mon 0)))).fld MON_STAT 9 8 = 1 := by decide
theorem wit_MonitorReads : Listens (mon 0) ∧ (req []).payload = [] ∧ (1 : Nat) ≤ 16 ∧ (0x3FFFFC + 4 * 1 : Nat) ≤ 0x400000 ∧
    (req (leBytes 0x3FFFFC 4 ++ [1])).payload = leBytes 0x3FFFFC 4 ++ [BitVec.ofNat 8 1] ∧ accessRegion SYS_ID 4 = some .regs ∧
    SYS_ID ≠ TCK_COUNT_LO ∧ accessRegion 0x1000002 4 = none ∧ (req [0, 0, 16, 16]).payload = [0, 0, 16, 16] ∧
    (16 : Byte).toNat + (16 : Byte).toNat ≤ 32 ∧ (2 : Byte).toNat + (2 : Byte).toNat ≤ 4 ∧ 5 < (6 : Byte).toNat ∧
    (req (leBytes 255 2 ++ [2])).payload = leBytes 255 2 ++ [BitVec.ofNat 8 2] ∧ (req [0]).payload.length ≠ 3 ∧
    (up.setReg MON_CFG 0).flag MON_CFG 0 = false := by
  exact ⟨⟨by decide, by decide, rfl⟩, by decide⟩
theorem wit_MonitorSessions : Listens (mon 0) ∧ (req (leBytes 0x1234 4)).payload = leBytes 0x1234 4 ∧ (mon 0).mode = .commission ∧
    (mon 0).flag MON_CFG 1 = true ∧ (mon 0).fld MON_STAT 9 8 < 3 ∧ (mon 0).mon.code.toNat = 0x1234 ∧ ¬ Session (mon 0) ∧
    (mon 0x300).fld MON_STAT 9 8 = 3 ∧ (ready .run none).mode ≠ .commission := by
  exact ⟨⟨by decide, by decide, rfl⟩, by decide, rfl, by decide, by decide, by decide, (by decide : ¬ (mon 0).flag MON_STAT 0 = true),
    by decide, by decide⟩
theorem wit_MonitorSessions_open : Listens (mon 3) ∧ Session (mon 3) ∧ Held (mon 3) ∧ Session (mon 1) ∧ ¬ Held (mon 1) ∧
    (req (leBytes 16 2)).payload = leBytes 16 2 ∧ (16 : Nat) < 65536 ∧ (15 : Nat) < 16 ∧
    (req (leBytes 0x100 4 ++ leBytes 7 4)).payload = leBytes 0x100 4 ++ leBytes (7 : Word).toNat 4 ∧ (0x100 : Nat) % 4 = 0 ∧
    (0x100 + 4 : Nat) ≤ 0x400000 ∧ SYS_CMD ∈ [SYS_CMD, SYS_MODEREQ] := by
  exact ⟨⟨by decide, by decide, rfl⟩, (by decide : (mon 3).flag MON_STAT 0 = true), (by decide : (mon 3).flag MON_STAT 1 = true),
    (by decide : (mon 1).flag MON_STAT 0 = true), (by decide : ¬ (mon 1).flag MON_STAT 1 = true), by decide⟩
def stepped : Dev := { (mon 1).setReg MON_STEPS 1 with mon := { (mon 1).mon with stepping := true }, tick := { up.tick with phase := .stage } }
theorem wit_MonitorSessions_steps : stepped.mon.stepping = true ∧ stepped.reg MON_STEPS = 1 ∧ stepped.tick.phase ≠ .idle ∧
    Holds .a (st (mon 0x300)) := ⟨by decide, by decide, by decide, holdsPort _ _ (by decide)⟩

/-! ## The tick (02_tick.md) -/

/-- A tick of 1,000,000 tick units that began at 0, in a part; it may be about to be abandoned for a commanded slip. -/
def tk (p : Phase) (slip : Bool) : Dev :=
  { up with tick := { up.tick with phase := p, due := 1000000, slipCmd := slip, count := 7 } }
theorem running (d : Dev) (h : d.ready = true ∧ d.halted = false ∧ d.pw.stopped = false ∧ d.flag MON_STAT 1 = false) : Running d := h
theorem test_edge_counts : (out (exec (.tickEdge .agree) (st (tk .stage false)))).tick.count = 8 := by decide +kernel
theorem test_edge_slip : (out (exec (.tickEdge .agree) (st (tk .stage true)))).reg TCK_SLIPS = 1 := by decide +kernel
theorem wit_TickParts : Running (tk .capture false) ∧ (tk .capture false).tick.phase = .capture ∧
    (tk .capture false).tick.stopWork = false ∧ (tk .capture false).fu.stack = [] ∧ (tk .compute false).tick.phase = .compute ∧
    (tk .compute false).tick.fracDone = (0 : Fin 3).val ∧ (tk .compute false).pa.held = [] ∧ (tk .compute false).pb.held = [] ∧
    NoTimed (tk .compute false) ∧ (∀ k : Fin 6, ((tk .compute false).core k).run ≠ .tick ∧ ((tk .compute false).core k).run ≠ .fault) ∧
    (tk .compute true).tick.abandoning = true ∧
    (tk .compute true).trees.runs.any (fun r => decide ((tk .compute true).tickBudget < r.ends)) = false :=
  ⟨running _ (by decide), by decide, by decide, by decide, by decide, by decide, by decide, by decide, ⟨rfl, rfl⟩, by decide, by decide⟩
def late : Dev := { tk .compute false with cores := up.cores.set 2 { Core.reset with run := .tick } }
theorem wit_TickParts_guard : Raises late ∧ late.tick.phase ≠ .idle ∧ (late.core 2).run = .tick ∧
    ∀ j : Fin 6, j ≠ 2 → (late.core j).run ≠ .tick ∧ (late.core j).run ≠ .fault := ⟨rfl, by decide⟩
theorem wit_TickParts_tree : Raises late ∧ (∀ k : Fin 6, (late.core k).run ≠ .fault) ∧
    late.trees.runs.any (fun r => decide (late.tickBudget < r.ends)) = false ∧
    ({ late with trees := { late.trees with runs := [⟨2, 0, 10 ^ 6, 10 ^ 6⟩] } } : Dev).trees.runs.any
      (fun r => decide (late.tickBudget < r.ends)) = true := ⟨rfl, by decide⟩
theorem test_guard : ((guardCheck late).core 2).run = .stopped := by decide
def heldD : Dev := up.setPort .a { up.pa with held := [.dev 0x40 4 7] }
theorem wit_TickParts_held : heldD.ready = true ∧ (heldD.port .a).held = [.dev 0x40 (accBytes .b4) 7] ∧
    heldD.reins.holder = some .a ∧ 0x40 + accBytes .b4 ≤ 0x400000 ∧ stagedBy .a heldD < 256 := by decide
theorem wit_TickEdges : Running (tk .stage false) ∧ (tk .stage false).tick.phase = .stage ∧ NoTimed (tk .stage false) ∧
    ¬ Running (mon 3) ∧ (tk .stage false).tick.abandoning = false ∧ Raises (tk .stage false) ∧ (tk .stage true).tick.abandoning = true :=
  ⟨running _ (by decide), by decide, ⟨rfl, rfl⟩, fun h => absurd h.2.2.2 (by decide), by decide, rfl, by decide⟩
theorem wit_TickEdges_writes : ∀ x ∈ [(⟨.core 0, .sram 0x40 4 7, 0⟩ : Staged)], ∃ a n v, x.w = .sram a n v := by
  intro x h; cases h with
  | head => exact ⟨_, _, _, rfl⟩
  | tail _ h => cases h
theorem wit_TickEdges_limit : Running ((tk .compute false).setReg TCK_CONSEC 4) ∧ Raises ((tk .compute false).setReg TCK_CONSEC 4) ∧
    ((tk .compute false).setReg TCK_CONSEC 4).fld TCK_CFG 7 0 ≤ (((tk .compute false).setReg TCK_CONSEC 4).reg TCK_CONSEC).toNat ∧
    ((tk .compute false).setReg TCK_CONSEC 4).tick.limitDone = false ∧ ((tk .compute false).reg TCK_CONSEC).toNat < 4 :=
  ⟨running _ (by decide), rfl, by decide⟩
theorem wit_EdgeCounts : Running (tk .stage true) ∧ (tk .stage true).tick.phase = .stage ∧ NoTimed (tk .stage true) ∧
    CommitVote.agree ≠ .noMajority := ⟨running _ (by decide), by decide, ⟨rfl, rfl⟩, by decide⟩

/-! ## The queue, and every command -/

def queued : State := { st up with pending := [.pop 1, .swset 1] }
theorem wit_StepRunsFront : queued.pending = .pop 1 :: [.swset 1] := rfl
theorem wit_EmptyQueue : (st up).pending = [] ∧ up.pw.stopped = false ∧ asleep.pw.stopped = true := ⟨rfl, by decide⟩
theorem wit_EveryStepKeepsSound : State.reset.Sound ∧ ∃ t, step State.reset = .next t := by
  refine ⟨⟨?_, ?_⟩, _, rfl⟩ <;> constructor <;> decide

/-! ## Operands that a row can carry, and one ill-formed term for each check -/

theorem test_wf_access : (Instr.registerWrite .a 0x1000000 .b4 0xFFFFFFFF).wf = true ∧
    (Instr.registerWrite .a 0x1000000 .b4 0x100000000).wf = false ∧ (Instr.registerWrite .a 0x100000000 .b4 0).wf = false ∧
    (Instr.hostMemoryWrite .a 0x40 .b1 0x100).wf = false := by decide
theorem test_wf_sticky : (Instr.stickyClear .a 0x1000000 1).wf = true ∧ (Instr.stickyClear .a 0x1000002 1).wf = false ∧
    (Instr.stickyClear .a 0x1140000 1).wf = false := by decide
theorem test_wf_code : (Instr.hostInstructionWrite .a 0x400000 .b4 1).wf = true ∧
    (Instr.hostInstructionWrite .a 0x580000 .b4 1).wf = false := by decide
theorem test_wf_cellar : (Instr.hostCellarWrite .a 0x1800000 .b4 1 ⟨[], false⟩).wf = true ∧
    (Instr.hostCellarWrite .a 0x17FFFFC .b4 1 ⟨[], false⟩).wf = false ∧
    (Instr.hostCellarWrite .a 0x1800000 .b4 1 ⟨[0x80000], false⟩).wf = false ∧ (Instr.caskApply ⟨[0x80000], false⟩).wf = false := by
  decide
theorem test_wf_qspi : (Instr.qspiWrite .a 0 []).wf = false ∧ (Instr.qspiWrite .a 0 [1]).wf = true ∧
    (Instr.qspiRead .a 0 0).wf = false ∧ (Instr.qspiRead .a 0 1).wf = true := by decide
theorem test_wf_start : (Instr.startUp ⟨5, [], true, none⟩).wf = false ∧ (Instr.startUp ⟨4, [], true, none⟩).wf = true := by decide
theorem test_wf_hart : (Instr.hartRequest 5 true []).wf = false ∧ (Instr.hartRequest 5 true hartFrame0).wf = true := by decide
theorem test_wf_dram : (Instr.dramEccRead (2 ^ 33) true).wf = false ∧ (Instr.dramEccRead (2 ^ 33 - 1) true).wf = true ∧
    (Instr.hostRead .a false (2 ^ 32) .b4 .ok).wf = false ∧ (Instr.hostRead .a true (2 ^ 32) .b4 .ok).wf = true ∧
    (Instr.hostRead .a true (2 ^ 33) .b4 .ok).wf = false ∧ (Instr.hostDramWrite .a (2 ^ 33) .b4 0).wf = false ∧
    (Instr.hostDramWrite .a 0 .b2 0x10000).wf = false ∧ (Instr.hostDramWrite .a 0 .b2 0xFFFF).wf = true := by decide
theorem test_wf_pass : (Instr.controlPass 0 ⟨[true], [true], []⟩).wf = false ∧
    (Instr.controlPass 0 ⟨[true], [true], [false]⟩).wf = true ∧ (Instr.chopperPass 0 ⟨[], [true], []⟩).wf = false := by decide
theorem test_wf_gain : (Instr.gainWrite 0 0x1C 0).wf = true ∧ (Instr.gainWrite 0 0x18 0).wf = false ∧
    (Instr.gainWrite 0 0x1E 0).wf = false ∧ (Instr.gainWrite 0 0x94 0).wf = true ∧ (Instr.gainWrite 0 0x80 0).wf = false := by decide
theorem test_wf_handoff : (Instr.handoffExpiry 255).wf = true ∧ (Instr.handoffExpiry 256).wf = false := by decide
theorem test_wf_trim : (Instr.trimStepEnd 0 []).wf = false ∧ (Instr.trimStepEnd 0 [1]).wf = true ∧ (Instr.trimStepEnd 7 []).wf = false ∧
    (Instr.trimStepEnd 4 []).wf = true ∧ (Instr.trimRestoreWrite .a 0x40 0).wf = false := by decide
theorem test_wf_identity : (Instr.idReadEnd 1 (.data [])).wf = false ∧ (Instr.idReadEnd 1 (.data idBytes)).wf = true := by decide
theorem test_wf_frame : (Instr.monWrite (req (List.replicate 65 0))).wf = false ∧ (Instr.monWrite (req (List.replicate 64 0))).wf = true := by
  decide

end Sys2Proof.Tests
end

section
/-! PROOFS. Direct host writes (05_host.md): where an access goes (R14, R17, R18), when its write completes (R40, R96), what a register
takes by its rights (R7), what a memory takes (R16, R38, R333), and what a port without the reins may write (R99, R100). -/
namespace Sys2Proof.Proofs
open Sys2Proof Sys2Proof.Machine Sys2Proof.Claims

/-! ## The address map (R14, R17, R18) -/

theorem accBytes_pos (sz : AccSize) : 0 < accBytes sz := by cases sz <;> decide

theorem barAddr_below_cellar {a n : Nat} (h : a + n ≤ 0x1800000) : barAddr a n = a := if_pos h

theorem barAddr_cellar {o n : Nat} (hn : 0 < n) (h : o + n ≤ 0x80000) : barAddr (0x1800000 + o) n = 0x2000000 + o := by
  have h1 : ¬ 0x1800000 + o + n ≤ 0x1800000 := by omega
  have h2 : 0x1800000 + o < 0x1881000 := by omega
  rw [barAddr, if_neg h1, if_pos h2]
  omega

theorem regionOf_sram {a : Nat} (h : a < 0x400000) : regionOf a = .sram := if_pos h

/-- The window of core k is found from an offset in it. -/
theorem window_of_offset (k : Fin 6) {o : Nat} (h : o < 0x40000) :
    Fin.ofNat 6 ((0x400000 + 0x40000 * k.val + o - 0x400000) / 0x40000) = k ∧ (0x400000 + 0x40000 * k.val + o) % 0x40000 = o := by
  have hq : (0x400000 + 0x40000 * k.val + o - 0x400000) / 0x40000 = k.val := by omega
  refine ⟨?_, by omega⟩
  rw [hq]
  exact Fin.ext (Nat.mod_eq_of_lt k.isLt)

theorem regionOf_window (k : Fin 6) {o : Nat} (h : o < 0x40000) :
    regionOf (0x400000 + 0x40000 * k.val + o) = if o < 0x10000 then .imem k else if o < 0x20000 then .none else .dmem k := by
  obtain ⟨hk, ho⟩ := window_of_offset k h
  have h1 : ¬ 0x400000 + 0x40000 * k.val + o < 0x400000 := by omega
  have h2 : 0x400000 + 0x40000 * k.val + o < 0x580000 := by have := k.isLt; omega
  simp only [regionOf, if_neg h1, if_pos h2, hk, ho]

theorem regionOf_imem (k : Fin 6) {o : Nat} (h : o < 0x10000) : regionOf (0x400000 + 0x40000 * k.val + o) = .imem k := by
  rw [regionOf_window k (by omega), if_pos h]

theorem regionOf_dmem (k : Fin 6) {o : Nat} (h : o < 0x20000) : regionOf (0x420000 + 0x40000 * k.val + o) = .dmem k := by
  have he : 0x420000 + 0x40000 * k.val + o = 0x400000 + 0x40000 * k.val + (0x20000 + o) := by omega
  rw [he, regionOf_window k (by omega), if_neg (by omega), if_neg (by omega)]

theorem regionOf_cellar {o : Nat} (h : o < 0x80000) : regionOf (0x2000000 + o) = .cellar := by
  have h1 : ¬ 0x2000000 + o < 0x400000 := by omega
  have h2 : ¬ 0x2000000 + o < 0x580000 := by omega
  have h3 : ¬ (0x1000000 ≤ 0x2000000 + o ∧ 0x2000000 + o < 0x1140000) := by omega
  have h4 : 0x2000000 ≤ 0x2000000 + o ∧ 0x2000000 + o < 0x2080000 := by omega
  rw [regionOf, if_neg h1, if_neg h2, if_neg h3, if_pos h4]

theorem regionOf_regs {a : Nat} (h0 : 0x1000000 ≤ a) (h1 : a < 0x1140000) : regionOf a = .regs := by
  have h2 : ¬ a < 0x400000 := by omega
  have h3 : ¬ a < 0x580000 := by omega
  rw [regionOf, if_neg h2, if_neg h3, if_pos ⟨h0, h1⟩]

/-- An access is split over regions, or lies in the one of its first byte. -/
theorem accessRegion_eq {a n : Nat} (hn : 0 < n) :
    accessRegion a n = if ∃ i, i < n ∧ regionOf (a + i) ≠ regionOf a then none
      else if regionOf a = .regs ∧ (n ≠ 4 ∨ a % 4 ≠ 0) then none else some (regionOf a) := by
  obtain ⟨m, rfl⟩ : ∃ m, n = m + 1 := ⟨n - 1, by omega⟩
  have hh : ((List.range (m + 1)).map (fun i => regionOf (a + i))).head? = some (regionOf a) := by
    simp [List.range_succ_eq_map]
  have hall : (!((List.range (m + 1)).map (fun i => regionOf (a + i))).all (fun q => decide (q = regionOf a))) = true ↔
      ∃ i, i < m + 1 ∧ regionOf (a + i) ≠ regionOf a := by
    simp
  unfold accessRegion
  simp only [hh, hall]

theorem accessRegion_uniform {a n : Nat} {r : Area} (hn : 0 < n) (hr : ∀ i, i < n → regionOf (a + i) = r) (h : r ≠ .regs) :
    accessRegion a n = some r := by
  have h0 : regionOf a = r := hr 0 hn
  rw [accessRegion_eq hn, h0, if_neg (fun ⟨i, hi, hd⟩ => hd (hr i hi)), if_neg (fun hc => h hc.1)]

theorem accessRegion_sram {a n : Nat} (hn : 0 < n) (h : a + n ≤ 0x400000) : accessRegion a n = some .sram :=
  accessRegion_uniform hn (fun _ _ => regionOf_sram (by omega)) (by decide)

theorem accessRegion_imem (k : Fin 6) {o n : Nat} (hn : 0 < n) (h : o + n ≤ 0x10000) :
    accessRegion (0x400000 + 0x40000 * k.val + o) n = some (.imem k) :=
  accessRegion_uniform hn (fun i _ => by rw [Nat.add_assoc _ o i, regionOf_imem k (by omega)]) (by simp)

theorem accessRegion_dmem (k : Fin 6) {o n : Nat} (hn : 0 < n) (h : o + n ≤ 0x20000) :
    accessRegion (0x420000 + 0x40000 * k.val + o) n = some (.dmem k) :=
  accessRegion_uniform hn (fun i _ => by rw [Nat.add_assoc _ o i, regionOf_dmem k (by omega)]) (by simp)

theorem accessRegion_cellar {o n : Nat} (hn : 0 < n) (h : o + n ≤ 0x80000) : accessRegion (0x2000000 + o) n = some .cellar :=
  accessRegion_uniform hn (fun i _ => by rw [Nat.add_assoc, regionOf_cellar (by omega)]) (by decide)

theorem accessRegion_reg {a : Nat} (h : RegAddr a) : accessRegion a 4 = some .regs := by
  obtain ⟨h0, h1, h4⟩ := h
  have hr : ∀ i, i < 4 → regionOf (a + i) = .regs := fun i hi => regionOf_regs (by omega) (by omega)
  have hb : regionOf a = .regs := hr 0 (by decide)
  rw [accessRegion_eq (by decide), hb, if_neg (fun ⟨i, hi, hd⟩ => hd (hr i hi)), if_neg (by simp [h4])]

theorem accessRegion_bad {a : Nat} {sz : AccSize} (h : badAccess a sz) : accessRegion a (accBytes sz) = none := by
  obtain ⟨_, hs | ⟨hr, hw⟩⟩ := h
  · rw [accessRegion_eq (accBytes_pos sz), if_pos hs]
  · have hn : accBytes sz ≠ 4 ∨ a % 4 ≠ 0 := hw.imp_left (fun hb hc => hb (by cases sz <;> simp_all [accBytes]))
    rw [accessRegion_eq (accBytes_pos sz), if_pos (c := regionOf a = .regs ∧ _) ⟨hr, hn⟩, ite_self]

theorem accessRegion_dead {a : Nat} {sz : AccSize} (h : deadAccess a sz) : accessRegion a (accBytes sz) = some .none :=
  accessRegion_uniform (accBytes_pos sz) h.2 (by decide)

/-! ## What a command that carries a direct write does (R40, R96) -/

section Completion
variable {p : HostPort} {s : State}

theorem ready_of_eventsOnly {d e : Dev} (h : EventsOnly d e) : e.ready = d.ready := by
  obtain ⟨r, v, m, rfl⟩ := h
  rfl

theorem mustHold_of_room {a n : Nat} {d : Dev} (h : stagedBy p d < 256) : mustHold p a n d = false := by
  simp [mustHold, Nat.not_le.mpr h]

theorem mustHold_of_not_holder {a n : Nat} {d : Dev} (h : d.reins.holder ≠ some p) : mustHold p a n d = false := by
  simp [mustHold, h]

theorem mustHold_of_unstaged {a n : Nat} {d : Dev} (h : needsStage a n d = false) : mustHold p a n d = false := by
  simp [mustHold, h]

/-- A write that does not wait for room completes at once, at a port whose accesses are carried out. -/
theorem hostRow_completes (hs : Serves p s) {vf : VerifyEnv} {x : PortWrite} (hw : x.waits p s.dev = false) :
    hostRow p vf x s = { s with dev := portWrite p vf (hrnDemand s.snap) x s.dev } := by
  obtain ⟨hr, hd, ha, hf⟩ := hs
  have hp : portServes p s.dev = true := by
    cases hq : (s.dev.port p).pcie
    · simp [portServes, hr, hq]
    · simp [portServes, hr, hd hq]
  simp [hostRow, hp, hostWakes, ha, hostArrive, hf, hw]

/-- The device after a direct write of any size that does not wait for room. -/
theorem memRow_completes (hs : Serves p s) {a : Nat} {sz : AccSize} {v : DWord} {vf : VerifyEnv} {b : Nat} {e : Dev}
    (hb : barAddr a (accBytes sz) = b) (hm : mustHold p b (accBytes sz) s.dev = false)
    (hw : (hostWrite p vf (hrnDemand s.snap) b (accBytes sz) v.toNat s.dev).2 = e) (hr : e.ready = true) :
    memRow p a sz v vf s = { s with dev := e } := by
  have hx : (PortWrite.dev b (accBytes sz) v).waits p s.dev = false := hm
  rw [memRow, hostBarWrite, hb, BitVec.ofNat_toNat, BitVec.setWidth_eq, hostRow_completes hs hx]
  simp only [portWrite, hw]
  exact State.putDev_keep s e (fun _ => hr)

/-- A write to a memory needs the reins. -/
theorem hostWrite_memory {a n : Nat} {r : Area} (hr : accessRegion a n = some r) (hne : r ≠ .regs) (vf : VerifyEnv) (demand : Bool)
    (v : Nat) (d : Dev) : hostWrite p vf demand a n v d =
      if d.reins.holder ≠ some p then (1, setRefuse p d) else writeMem (.host p) vf r a n v d := by
  cases r
  case regs => exact absurd rfl hne
  all_goals simp only [hostWrite, hr]

theorem exec_registerWrite (a : Nat) (sz : AccSize) (v : DWord) :
    exec (.registerWrite p a sz v) s = .next (memRow p a sz v verifyGood s) := rfl

theorem exec_hostMemoryWrite (a : Nat) (sz : AccSize) (v : DWord) :
    exec (.hostMemoryWrite p a sz v) s = .next (memRow p a sz v verifyGood s) := rfl

theorem exec_hostInstructionWrite (a : Nat) (sz : AccSize) (v : DWord) :
    exec (.hostInstructionWrite p a sz v) s = .next (memRow p a sz v verifyGood s) := rfl

theorem exec_hostCellarWrite (a : Nat) (sz : AccSize) (v : DWord) (vf : VerifyEnv) :
    exec (.hostCellarWrite p a sz v vf) s = .next (memRow p a sz v vf s) := rfl

/-- A command that writes one register writes its word there, as REGISTER_WRITE does. -/
theorem regRow_eq_memRow (a : Nat) (v : Word) : regRow p a v s = memRow p a .b4 (v.setWidth 64) verifyGood s := by
  have h : (v.setWidth 64 : DWord).toNat = v.toNat := BitVec.toNat_setWidth_of_le (by decide)
  rw [regRow, memRow, h]
  rfl

theorem loWord_setWidth (v : Word) : loWord (v.setWidth 64) = v := by
  simp [loWord]

theorem exec_stickyClear (a : Nat) (v : Word) :
    exec (.stickyClear p a v) s = exec (.registerWrite p a .b4 (v.setWidth 64)) s :=
  congrArg Host.Outcome.next (regRow_eq_memRow a v)

theorem exec_tckPeriodWrite (v : Word) :
    exec (.tckPeriodWrite p v) s = exec (.registerWrite p TCK_PERIOD .b4 (v.setWidth 64)) s :=
  congrArg Host.Outcome.next (regRow_eq_memRow TCK_PERIOD v)

theorem exec_loadCommand (v : Word) :
    exec (.loadCommand p v) s = exec (.registerWrite p LIM_LOADCMD .b4 (v.setWidth 64)) s :=
  congrArg Host.Outcome.next (regRow_eq_memRow LIM_LOADCMD v)

end Completion

/-! ## Which registers the HST and EVT blocks hold -/

/-- A register of a block is one of its rows. -/
theorem row?_mem {a b : Nat} {r : RegRow} (hb : a / 0x10000 = b) (h : row? a = some r) : r ∈ blockRows b :=
  hb ▸ List.mem_of_find?_eq_some h

theorem row?_holds {a : Nat} {r : RegRow} (h : row? a = some r) : r.holds a = true := by
  have hp := List.find?_some h
  exact hp

/-- The addresses of a row lie between its base and the end of its last group. -/
theorem bounds_of_holds {r : RegRow} {a : Nat} (hs : 0 < r.s) (h : r.holds a = true) : r.base ≤ a ∧ a < r.base + r.n * r.s := by
  simp only [RegRow.holds, Bool.and_eq_true, decide_eq_true_eq] at h
  obtain ⟨⟨hb, hn⟩, _⟩ := h
  have hd : a - r.base < r.n * r.s := (Nat.div_lt_iff_lt_mul hs).mp hn
  omega

/-- No register of the host block is staged. -/
theorem hst_unstaged {a : Nat} {r : RegRow} (hb : a / 0x10000 = 0x102) (h : row? a = some r) : r.wt = 0 ∧ r.wc = 0 := by
  have hall : ∀ r ∈ blockRows 0x102, r.wt = 0 ∧ r.wc = 0 := by decide
  exact hall r (row?_mem hb h)

/-- An event route is a row of three read/write fields (R368). -/
theorem row?_route {e : Nat} (he : e < 256) :
    ∃ r, row? (EVT_ROUTE e) = some r ∧ r.rw = 0x01001F1F ∧ r.w1c = 0 ∧ r.wt = 0 ∧ r.wc = 0 := by
  have hblock : EVT_ROUTE e / 0x10000 = 0x10F := by
    unfold EVT_ROUTE
    omega
  have hlast : (⟨0x010F0400, 256, 0x4, 1, 0x1, 0x1000000, 0x1001F1F, 0x0, 0x0, 0x0⟩ : RegRow).holds (EVT_ROUTE e) = true := by
    simp [RegRow.holds, he]
  have hsome : (row? (EVT_ROUTE e)).isSome = true := by
    rw [row?, hblock, List.find?_isSome]
    exact ⟨_, by decide, hlast⟩
  obtain ⟨r, hr⟩ := Option.isSome_iff_exists.mp hsome
  have hrows : ∀ r ∈ blockRows 0x10F, 0 < r.s ∧
      (r.base + r.n * r.s ≤ EVT_ROUTE 0 ∨ (r.rw = 0x01001F1F ∧ r.w1c = 0 ∧ r.wt = 0 ∧ r.wc = 0)) := by decide
  obtain ⟨hs, hlow | hmask⟩ := hrows r (row?_mem hblock hr)
  · have hlt : EVT_ROUTE e < EVT_ROUTE 0 := Nat.lt_of_lt_of_le (bounds_of_holds hs (row?_holds hr)).2 hlow
    unfold EVT_ROUTE at hlt
    omega
  · exact ⟨r, hr, hmask⟩

/-! ## A write of a register by its rights (R7) -/

theorem plainWrite_reserved {a : Nat} (h : row? a = none) (v : Word) (d : Dev) : plainWrite a v d = d := by
  simp only [plainWrite, h]

theorem plainWrite_row {a : Nat} {r : RegRow} (h : row? a = some r) (v : Word) (d : Dev) :
    plainWrite a v d = d.setReg a (overlay (d.reg a) v r.rw &&& ~~~ (v &&& r.w1c)) := by
  simp only [plainWrite, h, overlay]

theorem setReg_setsReg (d : Dev) (a : Nat) (v : Word) : SetsReg d (d.setReg a v) a v := by
  refine ⟨⟨rfl, fun b hb => ?_⟩, by simp⟩
  simp [List.mem_singleton.not.mp hb]

/-- The single registers that `ownRule` names. -/
def ruledRegs : List Nat :=
  [TCK_CMD, TCK_CFG, TCK_PERIOD, SYS_CMD, SYS_PWRCFG, SYS_HOLDCAUSE, HST_HBTO, HST_HB, HST_REINS, FLT_CFG, FLT_STAT, CEL_STAT,
    CEL_CMD, FLD_CFGCMD, HRN_SEALCMD, TDL_NVCMD, LIM_LOADCMD, VIS_HOFFRD, MON_CFG, MON_CODE, MON_BAUD, MON_TRCFG]

/-- The addresses whose write follows the rights of the register alone. -/
theorem ownRule_eq_false_iff {a : Nat} : ownRule a = false ↔
    a ∉ ruledRegs ∧ wcNow a = false ∧ ownerOf a = none ∧
    ¬ (EVT_ROUTE 0 ≤ a ∧ a < EVT_ROUTE 256 ∧ evReserved ((a - EVT_ROUTE 0) / 4) = true) ∧
    ¬ (a / 0x10000 = 0x106 ∧ a % 0x10000 < 0x1000 ∧ (a % 0x100 = 4 ∨ a % 0x100 = 0x1C)) := by
  have he : ownRule a = (ruledRegs.contains a || wcNow a || (ownerOf a).isSome ||
    (decide (EVT_ROUTE 0 ≤ a) && decide (a < EVT_ROUTE 256) && evReserved ((a - EVT_ROUTE 0) / 4)) ||
    (decide (a / 0x10000 = 0x106) && decide (a % 0x10000 < 0x1000) && (decide (a % 0x100 = 4) || decide (a % 0x100 = 0x1C)))) := rfl
  rw [he, Bool.eq_false_iff, Ne]
  simp only [Bool.or_eq_true, Bool.and_eq_true, decide_eq_true_eq, List.contains_iff_mem, not_or, and_assoc,
    Bool.not_eq_true, Option.isSome_eq_false_iff, Option.isNone_iff_eq_none]

theorem ne_of_ownRule_false {a x : Nat} (h : ownRule a = false) (hx : x ∈ ruledRegs) : a ≠ x :=
  fun hax => (ownRule_eq_false_iff.mp h).1 (hax ▸ hx)

/-- What becomes of the holder's write of a register that follows its rights alone. -/
theorem writeReg_by_rights {a : Nat} (h : ownRule a = false) (w : Writer) (demand : Bool) (v : Word) (d : Dev) :
    (∀ r, row? a = some r → r.wt ≠ 0 ∨ r.wc ≠ 0 → writeReg w demand a v d = stageReg w a v d) ∧
    ((∀ r, row? a = some r → r.wt = 0 ∧ r.wc = 0) → writeReg w demand a v d = (0, plainWrite a v d)) := by
  obtain ⟨hl, hw, -, he, hf⟩ := ownRule_eq_false_iff.mp h
  simp only [ruledRegs, List.mem_cons, List.not_mem_nil, or_false, not_or] at hl
  have hf1 : ¬ (a / 0x10000 = 0x106 ∧ a % 0x10000 < 0x1000 ∧ a % 0x100 = 4) := fun ⟨h1, h2, h3⟩ => hf ⟨h1, h2, .inl h3⟩
  have hf2 : ¬ (a / 0x10000 = 0x106 ∧ a % 0x10000 < 0x1000 ∧ a % 0x100 = 0x1C) := fun ⟨h1, h2, h3⟩ => hf ⟨h1, h2, .inr h3⟩
  by_cases hs : a = EVT_STICKY4
  · subst hs
    refine ⟨fun r hr hst => ?_, fun _ => rfl⟩
    have hplain : (row? EVT_STICKY4).all (fun r => decide (r.wt = 0 ∧ r.wc = 0)) = true := by decide
    simp only [hr, Option.all_some, decide_eq_true_eq] at hplain
    simp [hplain] at hst
  · refine ⟨fun r hr hst => ?_, fun hpl => ?_⟩
    · simp only [writeReg, hl, hw, he, hf1, hf2, hs, if_false, hr, hst, if_true, Bool.false_eq_true]
    · simp only [writeReg, hl, hw, he, hf1, hf2, hs, if_false, Bool.false_eq_true]
      cases hr : row? a with
      | none => simp only [plainWrite_reserved hr]
      | some r => simp [hpl r hr]

/-- A write of a staged register is refused in the wrong mode or while its axis is enabled, and is staged otherwise. -/
theorem stageReg_eq {a : Nat} {r : RegRow} (h : row? a = some r) (hp : a ≠ TCK_PERIOD) (w : Writer) (v : Word) (d : Dev) :
    stageReg w a v d = if (r.wc ≠ 0 ∧ d.mode ≠ .commission) ∨ axisLocked a d = true then (4, w.refuse d)
      else (0, stageHost w (.reg a v) d) := by
  have hper : ¬ (a = TCK_PERIOD ∧ (v.toNat < 46875 ∨ 750000 < v.toNat)) := fun hc => hp hc.1
  simp only [stageReg, h, if_neg hp, if_neg hper]
  by_cases hm : r.wc ≠ 0 ∧ d.mode ≠ .commission
  · rw [if_pos hm, if_pos (.inl hm)]
  · simp only [hm, if_false, false_or]

/-! ## What a port's write of a register does (R99) -/

section Register
variable {p : HostPort} {s : State} {a : Nat}

@[simp] theorem setRefuse_ready (p : HostPort) (d : Dev) : (setRefuse p d).ready = d.ready :=
  ready_of_eventsOnly (statBit_frame p 2 0 d)

@[simp] theorem setAccErr_ready (p : HostPort) (d : Dev) : (setAccErr p d).ready = d.ready :=
  ready_of_eventsOnly (statBit_frame p 1 1 d)

@[simp] theorem stageHost_ready (w : Writer) (x : Write) (d : Dev) : (stageHost w x d).ready = d.ready := by
  obtain ⟨t, ht⟩ := stageHost_frame w x d
  rw [ht]

theorem barAddr_reg (h : RegAddr a) : barAddr a 4 = a := barAddr_below_cellar (by have := h.2.1; omega)

/-- The device after a REGISTER_WRITE of a register that does not wait for room. -/
theorem registerWrite_completes (hs : Serves p s) (ha : RegAddr a) {v : DWord} (hm : mustHold p a 4 s.dev = false) {c : Nat}
    {e : Dev} (hw : hostWriteReg p (hrnDemand s.snap) a (loWord v) s.dev = (c, e)) (hr : e.ready = s.dev.ready) :
    exec (.registerWrite p a .b4 v) s = .next { s with dev := e } := by
  have hv : word v.toNat = loWord v := rfl
  have hc : (hostWrite p verifyGood (hrnDemand s.snap) a 4 v.toNat s.dev).2 = e := by
    simp only [hostWrite, accessRegion_reg ha, hv, hw]
  rw [exec_registerWrite, memRow_completes hs (sz := .b4) (barAddr_reg ha) hm hc (hr.trans hs.ready)]

/-- The holder's write of a register that is no port's own and no part of the arbiter. -/
theorem hostWriteReg_holder {d : Dev} (hh : d.reins.holder = some p) (ho : ownerOf a = none) (h1 : a ≠ HST_REINS) (h2 : a ≠ HST_HB)
    (demand : Bool) (v : Word) : hostWriteReg p demand a v d = writeReg (.host p) demand a v d := by
  have h3 : ¬ d.reins.holder ≠ some p := fun hc => hc hh
  simp only [hostWriteReg, if_neg h1, ho, if_neg h2, if_neg h3]

/-- The holder writes a register without a rule of its own as its rights say. -/
theorem hostWriteReg_by_rights {d : Dev} (hh : d.reins.holder = some p) (h : ownRule a = false) (demand : Bool) (v : Word) :
    hostWriteReg p demand a v d = writeReg (.host p) demand a v d := by
  obtain ⟨-, -, ho, -, -⟩ := ownRule_eq_false_iff.mp h
  exact hostWriteReg_holder hh ho (ne_of_ownRule_false h (by decide)) (ne_of_ownRule_false h (by decide)) demand v

/-! ## The holder's direct write of a register (R7, R17, R18, R38) -/

/-- A register without staged bits takes its read/write bits and clears its written W1C bits at once. -/
theorem registerWrite_plain (hs : Holds p s) (ha : RegAddr a) {r : RegRow} (hrow : row? a = some r) (ho : ownRule a = false)
    (hr : r.wt = 0 ∧ r.wc = 0) (v : DWord) : ∃ d, exec (.registerWrite p a .b4 v) s = .next { s with dev := d } ∧
      SetsReg s.dev d a (overlay (s.dev.reg a) (loWord v) r.rw &&& ~~~ (loWord v &&& r.w1c)) := by
  have hplain : ∀ q, row? a = some q → q.wt = 0 ∧ q.wc = 0 := fun q hq => Option.some.inj (hrow.symm.trans hq) ▸ hr
  have hw := (hostWriteReg_by_rights hs.holder ho (hrnDemand s.snap) (loWord v)).trans
    ((writeReg_by_rights ho (.host p) (hrnDemand s.snap) (loWord v) s.dev).2 hplain)
  rw [plainWrite_row hrow] at hw
  exact ⟨_, registerWrite_completes hs.toServes ha (mustHold_of_room hs.room) hw rfl, setReg_setsReg _ _ _⟩

theorem stickyClear_plain (hs : Holds p s) (ha : RegAddr a) {r : RegRow} (hrow : row? a = some r) (ho : ownRule a = false)
    (hr : r.wt = 0 ∧ r.wc = 0) (v : Word) : ∃ d, exec (.stickyClear p a v) s = .next { s with dev := d } ∧
      SetsReg s.dev d a (overlay (s.dev.reg a) v r.rw &&& ~~~ (v &&& r.w1c)) := by
  have h := registerWrite_plain hs ha hrow ho hr (v.setWidth 64)
  rwa [loWord_setWidth, ← exec_stickyClear] at h

theorem registerWrite_reserved (hs : Holds p s) (ha : RegAddr a) (hrow : row? a = none) (ho : ownRule a = false) (v : DWord) :
    exec (.registerWrite p a .b4 v) s = .next s := by
  have hplain : ∀ q, row? a = some q → q.wt = 0 ∧ q.wc = 0 := fun q hq => by simp [hrow] at hq
  have hw := (hostWriteReg_by_rights hs.holder ho (hrnDemand s.snap) (loWord v)).trans
    ((writeReg_by_rights ho (.host p) (hrnDemand s.snap) (loWord v) s.dev).2 hplain)
  rw [plainWrite_reserved hrow] at hw
  exact registerWrite_completes hs.toServes ha (mustHold_of_room hs.room) hw rfl

/-- A staged register is refused in the wrong mode or while its axis is enabled, and is staged otherwise. -/
theorem registerWrite_stagedReg (hs : Holds p s) (ha : RegAddr a) {r : RegRow} (hrow : row? a = some r) (ho : ownRule a = false)
    (hr : r.wt ≠ 0 ∨ r.wc ≠ 0) (v : DWord) : exec (.registerWrite p a .b4 v) s =
      .next { s with dev := (if (r.wc ≠ 0 ∧ s.dev.mode ≠ .commission) ∨ axisLocked a s.dev = true then setRefuse p s.dev
        else stageHost (.host p) (.reg a (loWord v)) s.dev) } := by
  have hp : a ≠ TCK_PERIOD := ne_of_ownRule_false ho (by decide)
  have hw := ((hostWriteReg_by_rights hs.holder ho (hrnDemand s.snap) (loWord v)).trans
    ((writeReg_by_rights ho (.host p) (hrnDemand s.snap) (loWord v) s.dev).1 r hrow hr)).trans
    (stageReg_eq hrow hp (.host p) (loWord v) s.dev)
  have hm := mustHold_of_room (a := a) (n := 4) hs.room
  split at hw
  · next hc => rw [if_pos hc, registerWrite_completes hs.toServes ha hm hw (setRefuse_ready p s.dev)]; rfl
  · next hc => rw [if_neg hc, registerWrite_completes hs.toServes ha hm hw (stageHost_ready _ _ s.dev)]

theorem registerWrite_staged (hs : Holds p s) (ha : RegAddr a) {r : RegRow} (hrow : row? a = some r) (ho : ownRule a = false)
    (hr : r.wt ≠ 0 ∨ r.wc ≠ 0) (hmode : r.wc ≠ 0 → s.dev.mode = .commission) (hlock : axisLocked a s.dev = false) (v : DWord) :
    exec (.registerWrite p a .b4 v) s = .next { s with dev := stageHost (.host p) (.reg a (loWord v)) s.dev } := by
  have hc : ¬ ((r.wc ≠ 0 ∧ s.dev.mode ≠ .commission) ∨ axisLocked a s.dev = true) := by
    rintro (⟨h1, h2⟩ | h)
    · exact h2 (hmode h1)
    · simp [hlock] at h
  rw [registerWrite_stagedReg hs ha hrow ho hr, if_neg hc]

theorem registerWrite_refused (hs : Holds p s) (ha : RegAddr a) {r : RegRow} (hrow : row? a = some r) (ho : ownRule a = false)
    (hr : r.wt ≠ 0 ∨ r.wc ≠ 0) (hc : (r.wc ≠ 0 ∧ s.dev.mode ≠ .commission) ∨ axisLocked a s.dev = true) (v : DWord) :
    Refused p (.registerWrite p a .b4 v) s := by
  rw [Refused, registerWrite_stagedReg hs ha hrow ho hr, if_pos hc]

/-! ## Event routes and sticky words (R366, R368), the heartbeat's timeout (R104) -/

theorem and_not_and_zero (x v : Word) : x &&& ~~~ (v &&& 0) = x := by
  rw [show v &&& 0 = 0 from BitVec.and_zero, show ~~~ (0 : Word) = BitVec.allOnes 32 from BitVec.not_zero, BitVec.and_allOnes]

theorem overlay_no_rw (old v : Word) : overlay old v 0 = old := by
  rw [overlay, show v &&& 0 = 0 from BitVec.and_zero, show ~~~ (0 : Word) = BitVec.allOnes 32 from BitVec.not_zero,
    BitVec.and_allOnes]
  exact BitVec.or_zero

theorem wcNow_block (h : wcNow a = true) : a / 0x10000 ∈ [0x106, 0x110, 0x113] := by
  simp only [wcNow, Bool.or_eq_true, Bool.and_eq_true, decide_eq_true_eq] at h
  simp only [List.mem_cons, List.not_mem_nil, or_false]
  unfold TRM_PWMSEL TRM_SDSEL TRM_SCSEL TRM_CELSEL DRM_CFG at h
  omega

theorem ownerOf_block {q : HostPort} (h : ownerOf a = some q) : a / 0x10000 = 0x102 := by
  simp only [ownerOf, Bool.or_eq_true, Bool.and_eq_true, decide_eq_true_eq] at h
  unfold HST_CMDTAIL HST_CPLHEAD HST_VECACK HST_SPIWIN HST_MSIX HST_CRING at h
  split at h
  · omega
  · split at h
    · omega
    · simp at h

/-- In the event block only the routes of reserved events have a rule of their own. -/
theorem ownRule_event (hb : a / 0x10000 = 0x10F)
    (hres : ¬ (EVT_ROUTE 0 ≤ a ∧ a < EVT_ROUTE 256 ∧ evReserved ((a - EVT_ROUTE 0) / 4) = true)) : ownRule a = false := by
  have hl : ∀ x ∈ ruledRegs, x / 0x10000 ≠ 0x10F := by decide
  refine ownRule_eq_false_iff.mpr ⟨fun hm => hl a hm hb, Bool.eq_false_iff.mpr (fun hc => ?_),
    Option.eq_none_iff_forall_ne_some.mpr (fun q hq => ?_), hres, fun hf => ?_⟩
  · have hw := wcNow_block hc
    simp [hb] at hw
  · have ho := ownerOf_block hq
    omega
  · omega

/-- An event route takes its three fields. -/
theorem registerWrite_route (hs : Holds p s) {e : Nat} (he : e < 256) (hres : evReserved e = false) (v : DWord) :
    ∃ d, exec (.registerWrite p (EVT_ROUTE e) .b4 v) s = .next { s with dev := d } ∧
      SetsReg s.dev d (EVT_ROUTE e) (overlay (s.dev.reg (EVT_ROUTE e)) (loWord v) 0x01001F1F) := by
  obtain ⟨r, hrow, hrw, hw1c, hst⟩ := row?_route he
  have hi : (EVT_ROUTE e - EVT_ROUTE 0) / 4 = e := by unfold EVT_ROUTE; omega
  have ho : ownRule (EVT_ROUTE e) = false :=
    ownRule_event (by unfold EVT_ROUTE; omega) (fun hc => by rw [hi, hres] at hc; exact Bool.false_ne_true hc.2.2)
  have ha : RegAddr (EVT_ROUTE e) := by unfold RegAddr EVT_ROUTE; omega
  have h := registerWrite_plain hs ha hrow ho hst v
  rwa [hrw, hw1c, and_not_and_zero] at h

/-- A sticky word of events clears the bits written as 1. -/
theorem stickyClear_events (hs : Holds p s) {w : Nat} (hw : w < 8) (v : Word) :
    ∃ d, exec (.stickyClear p (EVT_STICKY w) v) s = .next { s with dev := d } ∧
      SetsReg s.dev d (EVT_STICKY w) (s.dev.reg (EVT_STICKY w) &&& ~~~ (v &&& if w = 4 then 0xFFFF0000 else 0xFFFFFFFF)) := by
  have hrow : ∃ r, row? (EVT_STICKY w) = some r ∧ r.rw = 0 ∧ r.w1c = (if w = 4 then 0xFFFF0000 else 0xFFFFFFFF) ∧
      r.wt = 0 ∧ r.wc = 0 := by
    have hall : ∀ w < 8, (row? (EVT_STICKY w)).any (fun r => decide (r.rw = 0 ∧ r.w1c = (if w = 4 then 0xFFFF0000 else 0xFFFFFFFF) ∧
      r.wt = 0 ∧ r.wc = 0)) = true := by decide
    have h := hall w hw
    rw [Option.any_eq_true] at h
    simpa using h
  obtain ⟨r, hrow, hrw, hw1c, hst⟩ := hrow
  have ho : ownRule (EVT_STICKY w) = false := ownRule_event (by unfold EVT_STICKY; omega) (by unfold EVT_STICKY EVT_ROUTE; omega)
  have ha : RegAddr (EVT_STICKY w) := by unfold RegAddr EVT_STICKY; omega
  have h := stickyClear_plain hs ha hrow ho hst v
  rwa [hrw, hw1c, overlay_no_rw] at h

/-- HST_HBTO takes its field from 10 to 1,000, and refuses another value. -/
theorem registerWrite_hbto (hs : Holds p s) (v : DWord) :
    (10 ≤ bits (loWord v) 9 0 → bits (loWord v) 9 0 ≤ 1000 → ∃ d,
      exec (.registerWrite p HST_HBTO .b4 v) s = .next { s with dev := d } ∧
      SetsReg s.dev d HST_HBTO (overlay (s.dev.reg HST_HBTO) (loWord v) 0x3FF)) ∧
    ((bits (loWord v) 9 0 < 10 ∨ 1000 < bits (loWord v) 9 0) → Refused p (.registerWrite p HST_HBTO .b4 v) s) := by
  have ha : RegAddr HST_HBTO := by unfold RegAddr HST_HBTO; omega
  have ho : ownerOf HST_HBTO = none := by decide
  have hm := mustHold_of_room (a := HST_HBTO) (n := 4) hs.room
  have hw : hostWriteReg p (hrnDemand s.snap) HST_HBTO (loWord v) s.dev =
      if bits (loWord v) 9 0 < 10 ∨ 1000 < bits (loWord v) 9 0 then (4, setRefuse p s.dev)
      else (0, plainWrite HST_HBTO (loWord v) s.dev) :=
    hostWriteReg_holder hs.holder ho (by decide) (by decide) (hrnDemand s.snap) (loWord v)
  refine ⟨fun h10 h1000 => ?_, fun hout => ?_⟩
  · have hplain : plainWrite HST_HBTO (loWord v) s.dev =
        s.dev.setReg HST_HBTO (overlay (s.dev.reg HST_HBTO) (loWord v) 0x3FF) := by
      rw [plainWrite_row (r := ⟨0x01020008, 1, 0x1, 1, 0x1, 0x64, 0x3FF, 0x0, 0x0, 0x0⟩) (by decide), and_not_and_zero]
    rw [if_neg (by omega), hplain] at hw
    exact ⟨_, registerWrite_completes hs.toServes ha hm hw rfl, setReg_setsReg _ _ _⟩
  · rw [if_pos hout] at hw
    exact registerWrite_completes hs.toServes ha hm hw (setRefuse_ready p s.dev)

end Register

/-! ## Registers that no event writes (R366 to R371) -/

/-- Below the event block, and no port's pending bits. -/
def OffEvents (a : Nat) : Prop := a < 0x010F0000 ∧ ∀ d p, a ≠ pendAddr d p

theorem hstStat_offEvents (p : HostPort) : OffEvents (HST_STAT p.num) := by
  refine ⟨by cases p <;> decide, fun d q => ?_⟩
  unfold pendAddr
  split <;> cases p <;> cases q <;> decide

section Events
variable {a : Nat}

/-- The event fabric and the monitor hold no register. -/
theorem reg_evMon (d : Dev) (v : Events) (m : Mon) : ({ d with ev := v, mon := m } : Dev).reg a = d.reg a := rfl

theorem trigOne_reg (h : OffEvents a) (e k : Nat) (d : Dev) : (trigOne e k d).reg a = d.reg a := by
  have hlt := h.1
  have hne : ∀ b, 0x010F0000 ≤ b → a ≠ b := fun b hb => by omega
  unfold trigOne
  dsimp only
  split
  · rw [reg_evMon, Dev.reg_setFlag_other _ _ _ _ _ (hne _ (by decide)), Dev.reg_setFlag_other _ _ _ _ _ (hne _ (by unfold EVT_TRIG_CFG; omega))]
    simp [hne (EVT_TRIG_TICK k) (by unfold EVT_TRIG_TICK; omega), hne (EVT_TRIG_TSLO k) (by unfold EVT_TRIG_TSLO; omega),
      hne (EVT_TRIG_TSHI k) (by unfold EVT_TRIG_TSHI; omega)]
  · rfl

theorem forTrig_reg (h : OffEvents a) (e : Nat) (l : List Nat) (d : Dev) :
    (l.foldl (fun d k => trigOne e k d) d).reg a = d.reg a := by
  induction l generalizing d with
  | nil => rfl
  | cons k t ih => exact (ih (trigOne e k d)).trans (trigOne_reg h e k d)

theorem routeTo_reg (h : OffEvents a) (p : HostPort) (v : Nat) (d : Dev) : (routeTo p v d).reg a = d.reg a := by
  have hovf : a ≠ ovfAddr p := by
    have := h.1
    unfold ovfAddr EVT_OVF
    omega
  unfold routeTo vecSet
  split
  · rfl
  · split
    · exact Dev.reg_setFlag_other _ _ _ _ _ hovf
    · exact Dev.reg_setFlag_other _ _ _ _ _ (h.2 d p)

theorem raiseNow_reg (h : OffEvents a) (e : Nat) (d : Dev) : (raiseNow e d).reg a = d.reg a := by
  have hsticky : a ≠ EVT_STICKY (e / 32) := by
    have := h.1
    unfold EVT_STICKY
    omega
  have hrest : ∀ (w : Word) (x : Dev), x.reg a = d.reg a →
      (forAll 4 (trigOne e) (routeTo .b (bits w 12 8) (routeTo .a (bits w 4 0) x))).reg a = d.reg a := fun w x hx =>
    (forTrig_reg h e (List.range 4) _).trans ((routeTo_reg h .b _ _).trans ((routeTo_reg h .a _ x).trans hx))
  unfold raiseNow
  split
  · rfl
  · dsimp only
    split
    · exact hrest _ _ (Dev.reg_setFlag_other _ _ _ _ _ hsticky)
    · exact hrest _ _ (Dev.reg_setFlag_other _ _ _ _ _ hsticky)

theorem raise_reg (h : OffEvents a) (e : Nat) (d : Dev) : (raise e d).reg a = d.reg a := by
  unfold raise
  split
  · rfl
  · exact raiseNow_reg h e d

end Events

theorem bit_setBit_same {i : Nat} (hi : i < 32) (w : Word) : bit (setBit w i true) i = true := by
  rw [bit, setBit, if_pos rfl, BitVec.getLsbD_or, BitVec.getLsbD_ofNat, Nat.testBit_two_pow_self]
  simp [hi]

/-- A sticky bit of HSTx_STAT stands once it is set. -/
theorem statBit_flag (p : HostPort) {i : Nat} (hi : i < 32) (ev : Nat) (d : Dev) :
    (statBit p i ev d).flag (HST_STAT p.num) i = true := by
  rw [Dev.flag, statBit, raise_reg (hstStat_offEvents p), Dev.flag_setFlag, bit_setBit_same hi]

section Ports
variable {p : HostPort} {s : State} {a : Nat}

/-! ## Accesses that R17 and R18 turn away -/

/-- An access that R17 excludes shows at the port and writes nothing. -/
theorem memRow_bad (hs : Serves p s) {sz : AccSize} (h : badAccess a sz) (v : DWord) :
    memRow p a sz v verifyGood s = { s with dev := setAccErr p s.dev } := by
  have hreg := accessRegion_bad h
  have hm : mustHold p a (accBytes sz) s.dev = false := mustHold_of_unstaged (by simp only [needsStage, hreg])
  exact memRow_completes hs (barAddr_below_cellar h.1) hm (by simp only [hostWrite, hreg])
    ((setAccErr_ready p s.dev).trans hs.ready)

/-- The holder's access at reserved addresses only is ignored. -/
theorem memRow_dead (hs : Serves p s) (hh : s.dev.reins.holder = some p) {sz : AccSize} (h : deadAccess a sz) (v : DWord) :
    memRow p a sz v verifyGood s = s := by
  have hreg := accessRegion_dead h
  have hm : mustHold p a (accBytes sz) s.dev = false := mustHold_of_unstaged (by simp only [needsStage, hreg])
  exact memRow_completes hs (barAddr_below_cellar h.1) hm
    (by rw [hostWrite_memory hreg (by decide), if_neg (fun hc => hc hh)]; rfl) hs.ready

/-! ## A port's own registers (R99) -/

/-- The MSI-X table and the command ring of a port. -/
def InOwnTable (p : HostPort) (a : Nat) : Prop :=
  (HST_MSIX p.num 0 ≤ a ∧ a < HST_MSIX p.num 128) ∨ (HST_CRING p.num 0 ≤ a ∧ a < HST_CRING p.num 2048)

theorem ownerOf_ownTable (h : InOwnTable p a) : ownerOf a = some p := by
  unfold InOwnTable HST_MSIX HST_CRING at h
  simp only [ownerOf, HST_CMDTAIL, HST_CPLHEAD, HST_VECACK, HST_SPIWIN, HST_MSIX, HST_CRING, Bool.or_eq_true, Bool.and_eq_true,
    decide_eq_true_eq]
  cases p
  · exact if_pos (by simp only [HostPort.num] at h; omega)
  · simp only [HostPort.num] at h
    rw [if_neg (by omega), if_pos (by omega)]

theorem writeOwn_ownTable (h : InOwnTable p a) (v : Word) (d : Dev) : writeOwn p a v d = d.setReg a v := by
  unfold InOwnTable HST_MSIX HST_CRING at h
  have hn : p.num < 2 := by cases p <;> decide
  have h1 : ¬ (a = HST_CMDTAIL p.num ∨ a = HST_CPLHEAD p.num) := by unfold HST_CMDTAIL HST_CPLHEAD; omega
  have h2 : a ≠ HST_VECACK p.num := by unfold HST_VECACK; omega
  have h3 : a ≠ HST_SPIWIN p.num := by unfold HST_SPIWIN; omega
  rw [writeOwn, if_neg h1, if_neg h2, if_neg h3]

/-- A word of a port's own tables is written at once, whoever holds the reins. -/
theorem registerWrite_ownTable (hs : Serves p s) (h : InOwnTable p a) (h4 : a % 4 = 0) (v : DWord) :
    ∃ d, exec (.registerWrite p a .b4 v) s = .next { s with dev := d } ∧ SetsReg s.dev d a (loWord v) := by
  have ho := ownerOf_ownTable h
  have hb := ownerOf_block ho
  have ha : RegAddr a := by unfold RegAddr; omega
  have hne : a ≠ HST_REINS := fun hc => by simp [hc, show ownerOf HST_REINS = none by decide] at ho
  have hst : stagedReg (decide (s.dev.mode = .commission)) a = false := by
    unfold stagedReg
    split
    · next r hr =>
      obtain ⟨hwt, hwc⟩ := hst_unstaged hb hr
      simp [hwt, hwc]
    · rfl
  have hm : mustHold p a 4 s.dev = false := mustHold_of_unstaged (by simp only [needsStage, accessRegion_reg ha, hst])
  have hw : hostWriteReg p (hrnDemand s.snap) a (loWord v) s.dev = (0, s.dev.setReg a (loWord v)) := by
    simp only [hostWriteReg, if_neg hne, ho, if_true, writeOwn_ownTable h]
  exact ⟨_, registerWrite_completes hs ha hm hw rfl, setReg_setsReg _ _ _⟩

theorem registerWrite_msix (hs : Serves p s) {i : Nat} (hi : i < 128) (v : DWord) :
    ∃ d, exec (.registerWrite p (HST_MSIX p.num i) .b4 v) s = .next { s with dev := d } ∧
      SetsReg s.dev d (HST_MSIX p.num i) (loWord v) :=
  registerWrite_ownTable hs (.inl (by unfold HST_MSIX; omega)) (by unfold HST_MSIX; omega) v

theorem registerWrite_cring (hs : Serves p s) {i : Nat} (hi : i < 2048) (v : DWord) :
    ∃ d, exec (.registerWrite p (HST_CRING p.num i) .b4 v) s = .next { s with dev := d } ∧
      SetsReg s.dev d (HST_CRING p.num i) (loWord v) :=
  registerWrite_ownTable hs (.inr (by unfold HST_CRING; omega)) (by unfold HST_CRING; omega) v

/-! ## A port without the reins (R99, R100) -/

/-- A register that is no port's own, no part of the arbiter and no command that sets further bits. -/
theorem registerWrite_notHolder (hs : Serves p s) (hh : s.dev.reins.holder ≠ some p) (ha : RegAddr a) (ho : ownerOf a = none)
    (h1 : a ≠ HST_REINS) (h2 : a ≠ CEL_CMD) (h3 : a ≠ TDL_NVCMD) (v : DWord) : Refused p (.registerWrite p a .b4 v) s := by
  have hw : hostWriteReg p (hrnDemand s.snap) a (loWord v) s.dev = (1, setRefuse p s.dev) := by
    have hc : ¬ (a = CEL_CMD ∧ bits (loWord v) 31 24 ≠ 0x5C) := fun hc => h2 hc.1
    simp only [hostWriteReg, if_neg h1, ho, if_pos hh, if_neg hc, if_neg h3]
  exact registerWrite_completes hs ha (mustHold_of_not_holder hh) hw (setRefuse_ready p s.dev)

theorem stickyClear_notHolder (hs : Serves p s) (hh : s.dev.reins.holder ≠ some p) (ha : RegAddr a) (ho : ownerOf a = none)
    (h1 : a ≠ HST_REINS) (h2 : a ≠ CEL_CMD) (h3 : a ≠ TDL_NVCMD) (v : Word) : Refused p (.stickyClear p a v) s :=
  (exec_stickyClear a v).trans (registerWrite_notHolder hs hh ha ho h1 h2 h3 (v.setWidth 64))

theorem tckPeriodWrite_notHolder (hs : Serves p s) (hh : s.dev.reins.holder ≠ some p) (v : Word) :
    Refused p (.tckPeriodWrite p v) s :=
  (exec_tckPeriodWrite v).trans (registerWrite_notHolder hs hh (by unfold RegAddr; decide) (by decide) (by decide) (by decide)
    (by decide) (v.setWidth 64))

theorem loadCommand_notHolder (hs : Serves p s) (hh : s.dev.reins.holder ≠ some p) (v : Word) :
    Refused p (.loadCommand p v) s :=
  (exec_loadCommand v).trans (registerWrite_notHolder hs hh (by unfold RegAddr; decide) (by decide) (by decide) (by decide)
    (by decide) (v.setWidth 64))

/-- A write to a memory. -/
theorem memRow_notHolder (hs : Serves p s) (hh : s.dev.reins.holder ≠ some p) {b : Nat} {sz : AccSize} {r : Area}
    (hb : barAddr a (accBytes sz) = b) (hr : accessRegion b (accBytes sz) = some r) (hne : r ≠ .regs) (v : DWord)
    (vf : VerifyEnv) : memRow p a sz v vf s = { s with dev := setRefuse p s.dev } := by
  have hw : (hostWrite p vf (hrnDemand s.snap) b (accBytes sz) v.toNat s.dev).2 = setRefuse p s.dev := by
    rw [hostWrite_memory hr hne, if_pos hh]
  exact memRow_completes hs hb (mustHold_of_not_holder hh) hw ((setRefuse_ready p s.dev).trans hs.ready)

end Ports

/-! ## Bytes of instruction memory -/

theorem getLsbD_mask (hi lo i : Nat) : (mask hi lo).getLsbD i = decide (i < 32 ∧ lo ≤ i ∧ i - lo < hi + 1 - lo) := by
  rw [mask, BitVec.getLsbD_ofNat, Nat.testBit_mul_two_pow, Nat.testBit_two_pow_sub_one]
  simp

/-- A bit of a word after one of its fields is replaced. -/
theorem getLsbD_setBits (w : Word) (hi lo v i : Nat) : (setBits w hi lo v).getLsbD i =
    if lo ≤ i ∧ i - lo < hi + 1 - lo then decide (i < 32) && v.testBit (i - lo) else w.getLsbD i := by
  simp only [setBits, BitVec.getLsbD_or, BitVec.getLsbD_and, BitVec.getLsbD_not, getLsbD_mask, BitVec.getLsbD_ofNat,
    Nat.testBit_mul_two_pow]
  by_cases h32 : i < 32
  · by_cases hf : lo ≤ i ∧ i - lo < hi + 1 - lo
    · simp [h32, hf]
    · simp [h32, hf]
  · simp [h32, BitVec.getLsbD_of_ge w i (by omega)]

/-- Byte j of a word. -/
theorem getLsbD_byte (w : Word) (j i : Nat) :
    (BitVec.ofNat 8 (w.toNat / 256 ^ j)).getLsbD i = (decide (i < 8) && w.getLsbD (8 * j + i)) := by
  have h : (256 : Nat) ^ j = 2 ^ (8 * j) := by rw [Nat.pow_mul]
  rw [BitVec.getLsbD_ofNat, h, Nat.testBit_div_two_pow, BitVec.testBit_toNat, Nat.add_comm]

/-- A byte of a word after one of its bytes is replaced. -/
theorem byte_setBits (w : Word) {j : Nat} (hj : j < 4) (b k : Nat) :
    BitVec.ofNat 8 ((setBits w (8 * k + 7) (8 * k) b).toNat / 256 ^ j) =
      if j = k then BitVec.ofNat 8 b else BitVec.ofNat 8 (w.toNat / 256 ^ j) := by
  apply BitVec.eq_of_getLsbD_eq
  intro i hi
  rw [getLsbD_byte, getLsbD_setBits]
  by_cases hjk : j = k
  · subst hjk
    have hf : 8 * j ≤ 8 * j + i ∧ 8 * j + i - 8 * j < 8 * j + 7 + 1 - 8 * j := by omega
    have h32 : 8 * j + i < 32 := by omega
    rw [if_pos hf, if_pos rfl, BitVec.getLsbD_ofNat, Nat.add_sub_cancel_left]
    simp [h32]
  · have hf : ¬ (8 * k ≤ 8 * j + i ∧ 8 * j + i - 8 * k < 8 * k + 7 + 1 - 8 * k) := by omega
    rw [if_neg hf, if_neg hjk, getLsbD_byte]

/-- Byte x of the words of an instruction memory. -/
def wordsByte (m : Words) (x : Nat) : Byte := BitVec.ofNat 8 ((m.get (x / 4)).toNat / 256 ^ (x % 4))

theorem imemByte_eq (c : Core) (x : Nat) : imemByte c x = wordsByte c.imem x := rfl

/-- One byte more of a write to instruction memory. -/
theorem imemWrite_succ (m : Words) (o n v : Nat) : imemWrite m o (n + 1) v =
    (imemWrite m o n v).set ((o + n) / 4) (setBits ((imemWrite m o n v).get ((o + n) / 4)) (8 * ((o + n) % 4) + 7)
      (8 * ((o + n) % 4)) (v / 256 ^ n % 256)) := by
  simp only [imemWrite, List.range_succ, List.foldl_append, List.foldl_cons, List.foldl_nil]

theorem wordsByte_set (m : Words) (y b x : Nat) :
    wordsByte (m.set (y / 4) (setBits (m.get (y / 4)) (8 * (y % 4) + 7) (8 * (y % 4)) b)) x =
      if x = y then BitVec.ofNat 8 b else wordsByte m x := by
  rw [wordsByte, Words.get_set]
  by_cases hq : x / 4 = y / 4
  · rw [if_pos hq, byte_setBits _ (Nat.mod_lt x (by decide)), wordsByte, hq]
    by_cases hxy : x = y
    · rw [if_pos (by rw [hxy]), if_pos hxy]
    · rw [if_neg (by omega), if_neg hxy]
  · have hxy : x ≠ y := fun h => hq (by rw [h])
    rw [if_neg hq, if_neg hxy, wordsByte]

/-- A write of n bytes to instruction memory changes those bytes alone. -/
theorem wordsByte_imemWrite (m : Words) (o n v x : Nat) : wordsByte (imemWrite m o n v) x =
    if o ≤ x ∧ x < o + n then BitVec.ofNat 8 (v / 256 ^ (x - o)) else wordsByte m x := by
  induction n with
  | zero => rw [if_neg (by omega)]; rfl
  | succ n ih =>
    rw [imemWrite_succ, wordsByte_set, ih]
    by_cases hx : x = o + n
    · have hmod : BitVec.ofNat 8 (v / 256 ^ n % 256) = BitVec.ofNat 8 (v / 256 ^ n) :=
        BitVec.eq_of_toNat_eq (by simp)
      rw [if_pos hx, if_pos (by omega), hmod, hx, Nat.add_sub_cancel_left]
    · rw [if_neg hx]
      by_cases hin : o ≤ x ∧ x < o + n
      · rw [if_pos hin, if_pos (by omega)]
      · rw [if_neg hin, if_neg (by omega)]

/-! ## The Cellar's boot region and DRAM -/

/-- Where every try verifies, a write into the boot region is one of both arrays. -/
theorem bootWrite_verified (o n v : Nat) (d : Dev) : bootWrite verifyGood o n v d =
    d.setCel { d.cel with array := d.cel.array.write o n v, durable := d.cel.durable.write o n v } := by
  have hf : ∀ w, ¬ 2 ≤ wordFails verifyGood w := fun w => by simp [wordFails, verifyGood]
  simp only [bootWrite, hf, if_false]
  split <;> rfl

theorem loadWatch_frame (old d : Dev) : ∃ l, loadWatch old d = { d with loader := l } := by
  unfold loadWatch
  split <;> exact ⟨_, rfl⟩

@[simp] theorem setDramByte_ready (d : Dev) (a : Nat) (v : Byte) : (d.setDramByte a v).ready = d.ready := by
  unfold Dev.setDramByte
  split <;> rfl

@[simp] theorem setDramBytes_ready (a : Nat) (bs : List Byte) (d : Dev) : (setDramBytes a bs d).ready = d.ready := by
  induction bs generalizing a d with
  | nil => rfl
  | cons b bs ih => exact (ih (a + 1) (d.setDramByte a b)).trans (setDramByte_ready d a b)

/-! ## The holder's direct write of a memory (R16, R38, R99, R333) -/

section Memories
variable {p : HostPort} {s : State}

/-- The device after the holder's write to a memory. -/
theorem memRow_holder (hs : Holds p s) {a b : Nat} {sz : AccSize} {r : Area} {v : DWord} {vf : VerifyEnv} {c : Nat} {e : Dev}
    (hb : barAddr a (accBytes sz) = b) (hr : accessRegion b (accBytes sz) = some r) (hne : r ≠ .regs)
    (hw : writeMem (.host p) vf r b (accBytes sz) v.toNat s.dev = (c, e)) (he : e.ready = s.dev.ready) :
    memRow p a sz v vf s = { s with dev := e } := by
  have hc : (hostWrite p vf (hrnDemand s.snap) b (accBytes sz) v.toNat s.dev).2 = e := by
    rw [hostWrite_memory hr hne, if_neg (fun hc => hc hs.holder), hw]
  exact memRow_completes hs.toServes hb (mustHold_of_room hs.room) hc (he.trans hs.ready)

theorem barAddr_window (k : Fin 6) {b o n : Nat} (hb : b ≤ 0x420000) (h : o + n ≤ 0x20000) :
    barAddr (b + 0x40000 * k.val + o) n = b + 0x40000 * k.val + o :=
  barAddr_below_cellar (by have := k.isLt; omega)

theorem memRow_sram (hs : Holds p s) {a : Nat} {sz : AccSize} (h : a + accBytes sz ≤ 0x400000) (v : DWord) :
    memRow p a sz v verifyGood s = { s with dev := stageHost (.host p) (.sram a (accBytes sz) v.toNat) s.dev } :=
  memRow_holder hs (barAddr_below_cellar (by omega)) (accessRegion_sram (accBytes_pos sz) h) (by decide) rfl
    (stageHost_ready _ _ s.dev)

theorem memRow_dmem (hs : Holds p s) (k : Fin 6) {o : Nat} {sz : AccSize} (h : o + accBytes sz ≤ 0x20000) (v : DWord) :
    memRow p (0x420000 + 0x40000 * k.val + o) sz v verifyGood s =
      { s with dev := stageHost (.host p) (.dmem k o (accBytes sz) v.toNat) s.dev } := by
  have ho : (0x420000 + 0x40000 * k.val + o) % 0x40000 - 0x20000 = o := by
    have := accBytes_pos sz
    omega
  refine memRow_holder hs (barAddr_window k (by decide) h) (accessRegion_dmem k (accBytes_pos sz) h) (by simp) (c := 0) ?_
    (stageHost_ready _ _ s.dev)
  simp only [writeMem, stageMem, ho]

/-- Instruction memory in Commission: the bytes written, and nothing else. -/
theorem memRow_imem (hs : Holds p s) (k : Fin 6) {o : Nat} {sz : AccSize} (h : o + accBytes sz ≤ 0x10000)
    (hm : s.dev.mode = .commission) (v : DWord) :
    memRow p (0x400000 + 0x40000 * k.val + o) sz v verifyGood s =
      { s with dev := (s.dev.setCore k { s.dev.core k with imem := imemWrite (s.dev.core k).imem o (accBytes sz) v.toNat }) } := by
  have ho : (0x400000 + 0x40000 * k.val + o) % 0x40000 = o := by
    have := accBytes_pos sz
    omega
  refine memRow_holder hs (barAddr_window k (by decide) (by omega)) (accessRegion_imem k (accBytes_pos sz) h) (by simp) (c := 0)
    ?_ rfl
  simp [writeMem, hm, ho]

theorem memRow_imem_refused (hs : Holds p s) (k : Fin 6) {o : Nat} {sz : AccSize} (h : o + accBytes sz ≤ 0x10000)
    (hm : s.dev.mode ≠ .commission) (v : DWord) :
    memRow p (0x400000 + 0x40000 * k.val + o) sz v verifyGood s = { s with dev := setRefuse p s.dev } := by
  refine memRow_holder hs (barAddr_window k (by decide) (by omega)) (accessRegion_imem k (accBytes_pos sz) h) (by simp) (c := 4)
    ?_ (setRefuse_ready p s.dev)
  simp [writeMem, hm, Writer.refuse]

/-- The Cellar takes a write of its boot region in Commission and refuses every other. -/
theorem writeMem_cellar (p : HostPort) (vf : VerifyEnv) (o n v : Nat) (d : Dev) :
    writeMem (.host p) vf .cellar (0x2000000 + o) n v d =
      if o + n ≤ 0x40000 ∧ d.mode = .commission then (0, loadWatch d (bootWrite vf o n v d)) else (4, setRefuse p d) := by
  have ho : 0x2000000 + o - 0x2000000 = o := by omega
  simp only [writeMem, ho, Writer.refuse, true_and]

/-- The boot region in Commission: both arrays take the bytes, and a running load may see them change. -/
theorem memRow_boot (hs : Holds p s) {o : Nat} {sz : AccSize} (h : o + accBytes sz ≤ 0x40000) (hm : s.dev.mode = .commission)
    (v : DWord) : ∃ l, memRow p (0x1800000 + o) sz v verifyGood s = { s with dev :=
      { (s.dev.setCel { s.dev.cel with array := s.dev.cel.array.write o (accBytes sz) v.toNat,
                                       durable := s.dev.cel.durable.write o (accBytes sz) v.toNat }) with loader := l } } := by
  obtain ⟨l, hl⟩ := loadWatch_frame s.dev (bootWrite verifyGood o (accBytes sz) v.toNat s.dev)
  have hw := writeMem_cellar p verifyGood o (accBytes sz) v.toNat s.dev
  rw [if_pos ⟨h, hm⟩, hl, bootWrite_verified] at hw
  have hn := accBytes_pos sz
  exact ⟨l, memRow_holder hs (barAddr_cellar hn (by omega)) (accessRegion_cellar hn (by omega)) (by decide) hw rfl⟩

theorem memRow_cellar_refused (hs : Holds p s) {o : Nat} {sz : AccSize} (h : o + accBytes sz ≤ 0x80000)
    (hc : s.dev.mode ≠ .commission ∨ 0x40000 < o + accBytes sz) (v : DWord) :
    memRow p (0x1800000 + o) sz v verifyGood s = { s with dev := setRefuse p s.dev } := by
  have hn := accBytes_pos sz
  have hno : ¬ (o + accBytes sz ≤ 0x40000 ∧ s.dev.mode = .commission) := by
    rintro ⟨h1, h2⟩
    exact hc.elim (fun hc => hc h2) (fun hc => by omega)
  have hw := writeMem_cellar p verifyGood o (accBytes sz) v.toNat s.dev
  rw [if_neg hno] at hw
  exact memRow_holder hs (barAddr_cellar hn h) (accessRegion_cellar hn h) (by decide) hw (setRefuse_ready p s.dev)

/-- A write through BAR2 needs no room; it is the holder's, or refused. -/
theorem exec_hostDramWrite (hs : Serves p s) (a : Nat) (sz : AccSize) (v : DWord) :
    exec (.hostDramWrite p a sz v) s = .next { s with dev :=
      (if s.dev.reins.holder ≠ some p then setRefuse p s.dev else setDramBytes a (leBytes v.toNat (accBytes sz)) s.dev) } := by
  have hr : (dramWrite p a (accBytes sz) v.toNat s.dev).ready = s.dev.ready := by
    unfold dramWrite
    split
    · exact setRefuse_ready p s.dev
    · exact setDramBytes_ready _ _ _
  have he : exec (.hostDramWrite p a sz v) s = .next (s.putDev (hostRow p verifyGood (.dram a (accBytes sz) v) s).dev) := rfl
  rw [he, hostRow_completes hs rfl]
  exact congrArg Host.Outcome.next (State.putDev_keep s _ (fun h => hr.trans h))

end Memories

/-- Settles O13: every write completes at once where its port's accesses are carried out and it need not wait for room, and its
effect is that of the region and of the rights of the register it reaches. -/
theorem hostWrites : Obligations.HostWrites := by
  unfold Obligations.HostWrites
  refine ⟨fun p s hs => ⟨fun a r v ha hrow ho => ⟨fun hwt hwc => ?_, fun hst hmode hlock => ?_, fun hwc hmode => ?_,
      fun hst hlock => ?_⟩, fun a v ha hrow ho => ?_, fun e v he hres => ?_, fun w v hw => ?_, fun v => ?_⟩,
    fun p s hs => ⟨fun a sz v h => ?_, fun k o sz v h => ?_, fun k o sz v h => ⟨fun hm => ?_, fun hm => ?_⟩,
      fun o sz v => ⟨fun h hm => ?_, fun h hc => ?_⟩, fun a sz v => ?_⟩,
    fun p s hs => ⟨fun a sz v h => ?_, fun a sz v hh h => ?_, fun i v => ⟨fun hi => ?_, fun hi => ?_⟩, ?_, ?_⟩,
    fun p s hs hh => ⟨fun a v ha ho h1 h2 h3 => ?_, fun v => ?_, fun a sz v h => ?_, fun k o sz v h => ?_,
      fun k o sz v h => ?_, fun o sz v h => ?_, fun a sz v => ?_⟩⟩
  -- the holder's writes of registers
  · exact ⟨registerWrite_plain hs ha hrow ho ⟨hwt, hwc⟩ v, stickyClear_plain hs ha hrow ho ⟨hwt, hwc⟩ (loWord v)⟩
  · exact registerWrite_staged hs ha hrow ho hst hmode hlock v
  · exact registerWrite_refused hs ha hrow ho (.inr hwc) (.inl ⟨hwc, hmode⟩) v
  · exact registerWrite_refused hs ha hrow ho hst (.inr hlock) v
  · exact registerWrite_reserved hs ha hrow ho v
  · exact registerWrite_route hs he hres v
  · exact stickyClear_events hs hw v
  · exact registerWrite_hbto hs v
  -- the holder's writes of memories
  · rw [exec_hostMemoryWrite, memRow_sram hs h]
  · rw [exec_hostMemoryWrite, memRow_dmem hs k h]
  · refine ⟨_, by rw [exec_hostInstructionWrite, memRow_imem hs k h hm], rfl, fun x => ?_⟩
    rw [imemByte_eq, imemByte_eq, wordsByte_imemWrite]
  · rw [Refused, exec_hostInstructionWrite, memRow_imem_refused hs k h hm]
  · obtain ⟨l, hl⟩ := memRow_boot hs h hm v
    exact ⟨_, congrArg Host.Outcome.next hl, rfl, rfl, rfl, rfl, rfl⟩
  · rw [Refused, exec_hostCellarWrite, memRow_cellar_refused hs h hc]
  · rw [exec_hostDramWrite hs.toServes, if_neg (fun hc => hc hs.holder)]
  -- accesses that R17 and R18 turn away, and a port's own registers
  · rw [exec_registerWrite, exec_hostMemoryWrite, memRow_bad hs h]
    exact ⟨rfl, rfl⟩
  · rw [exec_registerWrite, exec_hostMemoryWrite, memRow_dead hs hh h]
    exact ⟨rfl, rfl⟩
  · exact registerWrite_msix hs hi v
  · exact registerWrite_cring hs hi v
  · exact statBit_flag p (by decide) 1 s.dev
  · exact statBit_flag p (by decide) 0 s.dev
  -- a port without the reins
  · exact ⟨registerWrite_notHolder hs hh ha ho h1 h2 h3 v, stickyClear_notHolder hs hh ha ho h1 h2 h3 (loWord v)⟩
  · exact ⟨tckPeriodWrite_notHolder hs hh v, loadCommand_notHolder hs hh v⟩
  · rw [Refused, exec_hostMemoryWrite, memRow_notHolder hs hh (barAddr_below_cellar (by omega))
      (accessRegion_sram (accBytes_pos sz) h) (by decide)]
  · rw [Refused, exec_hostMemoryWrite, memRow_notHolder hs hh (barAddr_window k (by decide) h)
      (accessRegion_dmem k (accBytes_pos sz) h) (by simp)]
  · rw [Refused, exec_hostInstructionWrite, memRow_notHolder hs hh (barAddr_window k (by decide) (by omega))
      (accessRegion_imem k (accBytes_pos sz) h) (by simp)]
  · rw [Refused, exec_hostCellarWrite, memRow_notHolder hs hh (barAddr_cellar (accBytes_pos sz) h)
      (accessRegion_cellar (accBytes_pos sz) h) (by decide)]
  · rw [Refused, exec_hostDramWrite hs, if_pos hh]

end Sys2Proof.Proofs
end

section
/-! PROOFS. Host reads (05_host.md): the words that a read answers (R17, R18, R22), the latched upper halves of the 64-bit
registers (R47, R48), the Cellar's ECC (R334), and reads before READY (R125). -/
namespace Sys2Proof.Proofs
open Sys2Proof Sys2Proof.Machine Sys2Proof.Claims

/-! ## Ports and stores -/

@[simp] theorem setPort_setPort (d : Dev) (p : HostPort) (x y : Port) : (d.setPort p x).setPort p y = d.setPort p y := by
  cases p <;> rfl

theorem pendAddr_block (d : Dev) (p : HostPort) : pendAddr d p / 0x10000 = 0x102 := by
  unfold pendAddr
  split <;> cases p <;> decide

/-- Below the event block an event writes registers of the host block alone. -/
theorem offEvents_of_block {a : Nat} (h : a < 0x010F0000) (hb : a / 0x10000 ≠ 0x102) : OffEvents a :=
  ⟨h, fun d p hc => hb (hc ▸ pendAddr_block d p)⟩

theorem leNat_leBytes (v n : Nat) : leNat (leBytes v n) = v % 256 ^ n := by
  induction n generalizing v with
  | zero => simp [leBytes, leNat, Nat.mod_one]
  | succ n ih =>
    have hb : (BitVec.ofNat 8 v).toNat = v % 256 := BitVec.toNat_ofNat v 8
    rw [leBytes, leNat, ih, hb, Nat.pow_succ', Nat.mod_mul]

/-- The answer to a read of a register is its word. -/
theorem respWords_leBytes (w : Word) : respWords (leBytes w.toNat 4) = [w] := by
  have hw : BitVec.ofNat 32 (leNat (leBytes w.toNat 4)) = w := by
    rw [leNat_leBytes, Nat.mod_eq_of_lt (show w.toNat < 256 ^ 4 from w.isLt), BitVec.ofNat_toNat, BitVec.setWidth_eq]
  have he : respWords (leBytes w.toNat 4) = [BitVec.ofNat 32 (leNat (leBytes w.toNat 4))] := by
    simp [respWords, leBytes, wordsOf]
  rw [he, hw]

theorem bytes_eq_map (m : Memory) (a n : Nat) : m.bytes a n = (List.range n).map (fun i => m.byte (a + i)) := by
  induction n generalizing a with
  | zero => rfl
  | succ n ih =>
    rw [Memory.bytes, ih, List.range_succ_eq_map, List.map_cons, List.map_map]
    simp [Function.comp_def, Nat.add_assoc, Nat.add_comm 1]

/-! ## A fault of class Note (R347, R359) -/

theorem watchFaultN_cases (f : Dev → Dev) (d : Dev) : watchFaultN f d = f d ∨ watchFaultN f d = vecBoth 2 (f d) := by
  unfold watchFaultN
  dsimp only
  split
  · exact .inr rfl
  · exact .inl rfl

theorem watchFaultN_congr {f g : Dev → Dev} {d : Dev} (h : f d = g d) : watchFaultN f d = watchFaultN g d := by
  simp only [watchFaultN, h]

/-- A Note raises its event, counts in FLT_NOTES and may leave a log record. -/
theorem fault_note_eq (ev : Nat) (detail : Word) (d : Dev) :
    ∃ f, fault ev .note detail d = watchFaultN (fun _ => { Dev.count1 FLT_NOTES (raise ev d) with fu := f }) d := by
  unfold fault faultAt
  by_cases hlog : (Dev.count1 FLT_NOTES (raise ev d)).flag FLT_CFG 8 = true
  · apply Exists.intro
    apply watchFaultN_congr
    exact (if_pos rfl).trans (if_pos hlog)
  · refine ⟨(raise ev d).fu, watchFaultN_congr ?_⟩
    exact (if_pos rfl).trans (if_neg hlog)

/-- A Note touches registers, the event fabric, the monitor's hits and the fault unit alone. -/
theorem fault_note_frame (ev : Nat) (detail : Word) (d : Dev) : ∃ f, EventsOnly { d with fu := f } (fault ev .note detail d) := by
  obtain ⟨f, hf⟩ := fault_note_eq ev detail d
  have hx : EventsOnly { d with fu := f } { Dev.count1 FLT_NOTES (raise ev d) with fu := f } := by
    obtain ⟨r, v, m, he⟩ := (raise_frame ev d).setReg FLT_NOTES ((raise ev d).reg FLT_NOTES + 1)
    exact ⟨r, v, m, by rw [Dev.count1, he]⟩
  refine ⟨f, ?_⟩
  rw [hf]
  rcases watchFaultN_cases (fun _ => { Dev.count1 FLT_NOTES (raise ev d) with fu := f }) d with h | h
  · rw [h]
    exact hx
  · rw [h]
    exact hx.trans (vecBoth_frame 2 _)

theorem vecBoth_reg {a : Nat} (h : OffEvents a) (v : Nat) (d : Dev) : (vecBoth v d).reg a = d.reg a :=
  (Dev.reg_setFlag_other _ _ _ _ _ (h.2 _ .b)).trans (Dev.reg_setFlag_other _ _ _ _ _ (h.2 d .a))

theorem fault_note_reg {a : Nat} (h : OffEvents a) (ev : Nat) (detail : Word) (d : Dev) :
    (fault ev .note detail d).reg a = if a = FLT_NOTES then d.reg a + 1 else d.reg a := by
  obtain ⟨f, hf⟩ := fault_note_eq ev detail d
  have hx : ({ Dev.count1 FLT_NOTES (raise ev d) with fu := f } : Dev).reg a =
      if a = FLT_NOTES then d.reg a + 1 else d.reg a := by
    have hc : ({ Dev.count1 FLT_NOTES (raise ev d) with fu := f } : Dev).reg a = (Dev.count1 FLT_NOTES (raise ev d)).reg a := rfl
    rw [hc, Dev.count1, Dev.reg_setReg]
    split
    · next hn => rw [hn, raise_reg (hn ▸ h)]
    · exact raise_reg h ev d
  rw [hf]
  rcases watchFaultN_cases (fun _ => { Dev.count1 FLT_NOTES (raise ev d) with fu := f }) d with hw | hw
  · rw [hw, hx]
  · rw [hw, vecBoth_reg h, hx]

/-! ## What a read of device addresses gives -/

section Reading
variable {rd : Reader} {snap d : Dev} {a n : Nat}

theorem regionOf_of_accessRegion {r : Area} (hn : 0 < n) (h : accessRegion a n = some r) : regionOf a = r := by
  rw [accessRegion_eq hn] at h
  split at h
  · simp at h
  · split at h
    · simp at h
    · exact Option.some.inj h

/-- The Cellar lies above BAR0's window of it. -/
theorem regionOf_below_cellar (h : a < 0x1800000) : regionOf a ≠ .cellar ∧ regionOf a ≠ .spill := by
  have h1 : ¬ (0x2000000 ≤ a ∧ a < 0x2080000) := by omega
  have h2 : ¬ (0x2080000 ≤ a ∧ a < 0x2081000) := by omega
  simp only [regionOf, if_neg h1, if_neg h2]
  repeat' split
  all_goals exact ⟨by simp, by simp⟩

theorem devRead_memory {r : Area} (h : accessRegion a n = some r) (hr : r ≠ .regs) :
    devRead rd a n snap d = (memBytes d snap r a n, true, d) := by
  cases r
  case regs => exact absurd rfl hr
  all_goals simp only [devRead, h]

theorem devRead_reg (h : RegAddr a) :
    devRead rd a 4 snap d = (leBytes (readReg d snap rd a).toNat 4, true, latchHi rd a d) := by
  simp only [devRead, accessRegion_reg h]

theorem devRead_bad {p : HostPort} {sz : AccSize} (h : badAccess a sz) :
    devRead (.host p) a (accBytes sz) snap d = (List.replicate (accBytes sz) 0, false, setAccErr p d) := by
  simp only [devRead, accessRegion_bad h]

/-- The ECC outcome concerns the Cellar alone. -/
theorem celEcc_other {e : Ecc} {bs : List Byte} (hc : regionOf a ≠ .cellar) (hs : regionOf a ≠ .spill) :
    celEcc e a bs d = (bs, d) := by
  simp [celEcc, hc, hs]

theorem memBytes_sram : memBytes d snap .sram a n = d.sram.bytes a n := (bytes_eq_map _ _ _).symm

theorem memBytes_dmem (k : Fin 6) {o : Nat} (h : o + n ≤ 0x20000) :
    memBytes d snap (.dmem k) (0x420000 + 0x40000 * k.val + o) n = (snap.core k).dmem.bytes o n := by
  rw [bytes_eq_map]
  refine List.map_congr_left (fun i hi => ?_)
  have hi' : i < n := List.mem_range.mp hi
  have ho : (0x420000 + 0x40000 * k.val + o + i) % 0x40000 - 0x20000 = o + i := by omega
  simp only [memByte, ho]

theorem memBytes_imem (k : Fin 6) {o : Nat} (h : o + n ≤ 0x10000) :
    memBytes d snap (.imem k) (0x400000 + 0x40000 * k.val + o) n = (List.range n).map (fun i => imemByte (d.core k) (o + i)) := by
  refine List.map_congr_left (fun i hi => ?_)
  have hi' : i < n := List.mem_range.mp hi
  have ho : (0x400000 + 0x40000 * k.val + o + i) % 0x40000 = o + i := by omega
  simp only [memByte, ho]

/-- Below the journal's spare records the Cellar reads its array. -/
theorem memBytes_cellar {o : Nat} (h : o + n ≤ 0x7C000) :
    memBytes d snap .cellar (0x2000000 + o) n = d.cel.array.bytes o n := by
  rw [bytes_eq_map]
  refine List.map_congr_left (fun i hi => ?_)
  have hi' : i < n := List.mem_range.mp hi
  have ho : 0x2000000 + o + i - 0x2000000 = o + i := by omega
  simp only [memByte, ho, celByte, if_neg (show ¬ 0x80000 ≤ o + i by omega), if_neg (show ¬ 0x7C000 ≤ o + i by omega)]

theorem memBytes_none : memBytes d snap .none a n = List.replicate n 0 := by
  simp [memBytes, memByte, List.map_const']

@[simp] theorem memBytes_length (r : Area) : (memBytes d snap r a n).length = n := by simp [memBytes]

end Reading

/-! ## The command HOST_READ -/

section HostRead
variable {p : HostPort} {s : State} {a b : Nat} {sz : AccSize} {e : Ecc}

theorem exec_hostRead (bar2 : Bool) (a : Nat) (sz : AccSize) (e : Ecc) :
    exec (.hostRead p bar2 a sz e) s = .next (s.putDev (hostRead p bar2 a (accBytes sz) e s.snap s.dev)) := rfl

/-- Where READY stands and does not fall, the machine after a read is the one that its device gives. -/
theorem putDev_answers {d : Dev} (ws : List Word) (h : d.ready = s.dev.ready) :
    s.putDev (d.setPort p { d.port p with resp := ws }) = Answers p ws { s with dev := d } :=
  State.putDev_keep s _ (fun hr => (Dev.setPort_ready d p _).trans (h.trans hr))

theorem not_d3hot {x : Port} (h : x.pcie = true → x.d3hot = false) : (x.pcie && x.d3hot) = false := by
  cases hq : x.pcie
  · rfl
  · exact h hq

/-- A read through BAR0 by a port whose accesses are carried out. -/
theorem hostRead_serves (hs : Serves p s) {n : Nat} {bs bs' : List Byte} {good : Bool} {d d' : Dev} (hb : barAddr a n = b)
    (hr : devRead (.host p) b n s.snap s.dev = (bs, good, d)) (he : celEcc e b bs d = (bs', d')) :
    hostRead p false a n e s.snap s.dev = d'.setPort p { d'.port p with resp := respWords bs' } := by
  obtain ⟨hready, hd, hawake, -⟩ := hs
  have hp := not_d3hot hd
  simp [hostRead, hp, hready, hostWakes, hawake, hb, hr, he]

theorem exec_hostRead_serves (hs : Serves p s) {bs bs' : List Byte} {good : Bool} {d d' : Dev} (hb : barAddr a (accBytes sz) = b)
    (hr : devRead (.host p) b (accBytes sz) s.snap s.dev = (bs, good, d)) (he : celEcc e b bs d = (bs', d'))
    (hd : d'.ready = s.dev.ready) : exec (.hostRead p false a sz e) s = .next (Answers p (respWords bs') { s with dev := d' }) := by
  rw [exec_hostRead, hostRead_serves hs hb hr he, putDev_answers _ hd]

/-- A read of a memory other than the Cellar. -/
theorem exec_hostRead_memory (hs : Serves p s) {r : Area} (hb : barAddr a (accBytes sz) = b)
    (hr : accessRegion b (accBytes sz) = some r) (hreg : r ≠ .regs) (hcel : r ≠ .cellar) (hsp : r ≠ .spill) :
    exec (.hostRead p false a sz e) s = .next (Answers p (respWords (memBytes s.dev s.snap r b (accBytes sz))) s) := by
  have hb0 := regionOf_of_accessRegion (accBytes_pos sz) hr
  exact exec_hostRead_serves hs hb (devRead_memory hr hreg) (celEcc_other (hb0 ▸ hcel) (hb0 ▸ hsp)) rfl

/-! ### Registers (R3, R47, R48) -/

theorem latchHi_port (p : HostPort) (a : Nat) (d : Dev) : ∃ x, latchHi (.host p) a d = d.setPort p x := by
  unfold latchHi
  dsimp only
  split
  · exact ⟨_, rfl⟩
  · split
    · exact ⟨_, rfl⟩
    · split
      · exact ⟨_, rfl⟩
      · exact ⟨d.port p, by cases p <;> rfl⟩

theorem latchHi_other (rd : Reader) {d : Dev} (h1 : a ≠ TCK_COUNT_LO) (h2 : a ≠ TCK_EDGETS_LO) (h3 : a ≠ TCK_TS_LO) :
    latchHi rd a d = d := by
  simp only [latchHi, if_neg h1, if_neg h2, if_neg h3]

/-- A read of a register answers its word and latches the upper half of a 64-bit one. -/
theorem exec_hostRead_reg (hs : Serves p s) (ha : RegAddr a) (e : Ecc) : exec (.hostRead p false a .b4 e) s =
    .next (Answers p [readReg s.dev s.snap (.host p) a] { s with dev := latchHi (.host p) a s.dev }) := by
  have hreg : regionOf a = .regs := regionOf_of_accessRegion (by decide) (accessRegion_reg ha)
  have hready : (latchHi (.host p) a s.dev).ready = s.dev.ready := by
    obtain ⟨x, hx⟩ := latchHi_port p a s.dev
    rw [hx, Dev.setPort_ready]
  have h := exec_hostRead_serves (sz := .b4) (e := e) hs (barAddr_reg ha) (devRead_reg ha)
    (celEcc_other (by rw [hreg]; decide) (by rw [hreg]; decide)) hready
  rwa [respWords_leBytes] at h

theorem exec_hostRead_plainReg (hs : Serves p s) (ha : RegAddr a) (h1 : a ≠ TCK_COUNT_LO) (h2 : a ≠ TCK_EDGETS_LO)
    (h3 : a ≠ TCK_TS_LO) (e : Ecc) :
    exec (.hostRead p false a .b4 e) s = .next (Answers p [readReg s.dev s.snap (.host p) a] s) := by
  rw [exec_hostRead_reg hs ha, latchHi_other (.host p) h1 h2 h3]

/-- The command that reads a low half answers it and latches the upper half. -/
theorem loRead_host (hs : Serves p s) (ha : RegAddr a) {w : Word} {x : Port} (hw : readReg s.dev s.snap (.host p) a = w)
    (hl : latchHi (.host p) a s.dev = s.dev.setPort p x) :
    (Host.Outcome.next (loRead (.host p) a s) : Out) = .next { s with dev := s.dev.setPort p { x with resp := [w] } } := by
  have h : (Host.Outcome.next (loRead (.host p) a s) : Out) = exec (.hostRead p false a .b4 .ok) s := rfl
  rw [h, exec_hostRead_reg hs ha, hw, hl, Answers, Dev.port_setPort, setPort_setPort]

theorem exec_tckCountLoRead (hs : Serves p s) : exec (.tckCountLoRead (.host p)) s = .next { s with dev := (s.dev.setPort p
    { s.dev.port p with resp := [loWord s.dev.tick.count], hiCount := hiWord s.dev.tick.count }) } :=
  loRead_host (a := TCK_COUNT_LO) hs (by unfold RegAddr; decide) rfl rfl

theorem exec_tckEdgetsLoRead (hs : Serves p s) : exec (.tckEdgetsLoRead (.host p)) s = .next { s with dev := (s.dev.setPort p
    { s.dev.port p with resp := [loWord (edgeStamp s.dev)], hiEdge := hiWord (edgeStamp s.dev) }) } :=
  loRead_host (a := TCK_EDGETS_LO) hs (by unfold RegAddr; decide) rfl rfl

theorem exec_tckTsLoRead (hs : Serves p s) : exec (.tckTsLoRead (.host p)) s = .next { s with dev := (s.dev.setPort p
    { s.dev.port p with resp := [loWord s.dev.stamp], hiTs := hiWord s.dev.stamp }) } :=
  loRead_host (a := TCK_TS_LO) hs (by unfold RegAddr; decide) rfl rfl

/-- A read of an upper half answers what the port's last read of the low half latched. -/
theorem exec_hostRead_hi (hs : Serves p s) :
    exec (.hostRead p false TCK_COUNT_HI .b4 .ok) s = .next (Answers p [(s.dev.port p).hiCount] s) ∧
    exec (.hostRead p false TCK_EDGETS_HI .b4 .ok) s = .next (Answers p [(s.dev.port p).hiEdge] s) ∧
    exec (.hostRead p false TCK_TS_HI .b4 .ok) s = .next (Answers p [(s.dev.port p).hiTs] s) :=
  ⟨exec_hostRead_plainReg hs (by unfold RegAddr; decide) (by decide) (by decide) (by decide) .ok,
    exec_hostRead_plainReg hs (by unfold RegAddr; decide) (by decide) (by decide) (by decide) .ok,
    exec_hostRead_plainReg hs (by unfold RegAddr; decide) (by decide) (by decide) (by decide) .ok⟩

/-- The monitor latches an upper half of its own while it is enabled. -/
theorem loRead_monitor (hr : s.dev.ready = true) (hm : s.dev.flag MON_CFG 0 = true) {d : Dev}
    (h : latchHi .monitor a s.dev = d) (hd : d.ready = s.dev.ready) : loRead .monitor a s = { s with dev := d } := by
  simp only [loRead, hr, hm, Bool.and_self, if_true, h]
  exact State.putDev_keep s d (fun h => hd.trans h)

/-! ### Memories (R16, R22) -/

theorem exec_hostRead_sram (hs : Serves p s) (h : a + accBytes sz ≤ 0x400000) (e : Ecc) :
    exec (.hostRead p false a sz e) s = .next (Answers p (respWords (s.dev.sram.bytes a (accBytes sz))) s) := by
  rw [exec_hostRead_memory hs (barAddr_below_cellar (by omega)) (accessRegion_sram (accBytes_pos sz) h) (by decide) (by decide)
    (by decide), memBytes_sram]

theorem exec_hostRead_dmem (hs : Serves p s) (k : Fin 6) {o : Nat} (h : o + accBytes sz ≤ 0x20000) (e : Ecc) :
    exec (.hostRead p false (0x420000 + 0x40000 * k + o) sz e) s =
      .next (Answers p (respWords ((s.snap.core k).dmem.bytes o (accBytes sz))) s) := by
  rw [exec_hostRead_memory hs (barAddr_window k (by decide) h) (accessRegion_dmem k (accBytes_pos sz) h) (by simp) (by simp)
    (by simp), memBytes_dmem k h]

theorem exec_hostRead_imem (hs : Serves p s) (k : Fin 6) {o : Nat} (h : o + accBytes sz ≤ 0x10000) (e : Ecc) :
    exec (.hostRead p false (0x400000 + 0x40000 * k + o) sz e) s =
      .next (Answers p (respWords ((List.range (accBytes sz)).map (fun i => imemByte (s.dev.core k) (o + i)))) s) := by
  rw [exec_hostRead_memory hs (barAddr_window k (by decide) (by omega)) (accessRegion_imem k (accBytes_pos sz) h) (by simp)
    (by simp) (by simp), memBytes_imem k h]

/-- A read through BAR2. -/
theorem exec_hostRead_dram (hs : Serves p s) (a : Nat) (sz : AccSize) (e : Ecc) :
    exec (.hostRead p true a sz e) s = .next (Answers p (respWords (s.dev.dramBytes a (accBytes sz))) s) := by
  obtain ⟨hready, hd, hawake, -⟩ := hs
  have hp := not_d3hot hd
  have h : hostRead p true a (accBytes sz) e s.snap s.dev =
      s.dev.setPort p { s.dev.port p with resp := respWords (s.dev.dramBytes a (accBytes sz)) } := by
    simp [hostRead, hp, hready, hostWakes, hawake]
  rw [exec_hostRead, h, putDev_answers _ rfl]

/-! ### The Cellar and its ECC (R334) -/

/-- A read of the Cellar answers and leaves what its ECC gives. -/
theorem exec_hostRead_cellar (hs : Serves p s) {o : Nat} (h : o + accBytes sz ≤ 0x7C000) {bs : List Byte} {d : Dev}
    (he : celEcc e (0x2000000 + o) (s.dev.cel.array.bytes o (accBytes sz)) s.dev = (bs, d)) (hd : d.ready = s.dev.ready) :
    exec (.hostRead p false (0x1800000 + o) sz e) s = .next (Answers p (respWords bs) { s with dev := d }) := by
  have hn := accBytes_pos sz
  refine exec_hostRead_serves hs (barAddr_cellar hn (by omega)) (devRead_memory (accessRegion_cellar hn (by omega)) (by decide))
    ?_ hd
  rw [memBytes_cellar h, he]

theorem celEcc_cellar {o : Nat} (h : o < 0x80000) (bs : List Byte) (d : Dev) :
    celEcc .ok (0x2000000 + o) bs d = (bs, d) ∧
    celEcc .corrected (0x2000000 + o) bs d = (bs, fault 212 .note (word o) (Dev.setFlag CEL_STAT 3 true d)) ∧
    celEcc .uncorrectable (0x2000000 + o) bs d =
      (List.replicate bs.length 0, fault 213 .note (word o) (Dev.setFlag CEL_STAT 2 true (d.setReg CEL_UEADDR (word o)))) := by
  have ho : 0x2000000 + o - 0x2000000 = o := by omega
  simp [celEcc, regionOf_cellar h, ho]

theorem fault_note_ready (ev : Nat) (detail : Word) (d : Dev) : (fault ev .note detail d).ready = d.ready := by
  obtain ⟨f, r, v, m, hf⟩ := fault_note_frame ev detail d
  rw [hf]

theorem fault_note_cel (ev : Nat) (detail : Word) (d : Dev) : (fault ev .note detail d).cel = d.cel := by
  obtain ⟨f, r, v, m, hf⟩ := fault_note_frame ev detail d
  rw [hf]

theorem answers_resp (ws : List Word) (t : State) : ((Answers p ws t).dev.port p).resp = ws :=
  congrArg Port.resp (Dev.port_setPort t.dev p _)

theorem answers_reg (ws : List Word) (t : State) (a : Nat) : (Answers p ws t).dev.reg a = t.dev.reg a :=
  Dev.reg_congr (Dev.setPort_regs t.dev p _) a

theorem answers_cel (ws : List Word) (t : State) : (Answers p ws t).dev.cel = t.dev.cel := Dev.setPort_cel t.dev p _

theorem offEvents_notes : OffEvents FLT_NOTES := offEvents_of_block (by decide) (by decide)

/-- A corrected word is answered, with its Note. -/
theorem exec_hostRead_corrected (hs : Serves p s) {o : Nat} (h : o + accBytes sz ≤ 0x7C000) :
    ∃ t, exec (.hostRead p false (0x1800000 + o) sz .corrected) s = .next t ∧
      (t.dev.port p).resp = respWords (s.dev.cel.array.bytes o (accBytes sz)) ∧
      t.dev.reg FLT_NOTES = s.dev.reg FLT_NOTES + 1 ∧ t.dev.cel = s.dev.cel := by
  have hn := accBytes_pos sz
  have he := (celEcc_cellar (show o < 0x80000 by omega) (s.dev.cel.array.bytes o (accBytes sz)) s.dev).2.1
  refine ⟨_, exec_hostRead_cellar hs h he (fault_note_ready _ _ _), answers_resp _ _, ?_, ?_⟩
  · rw [answers_reg, fault_note_reg offEvents_notes, if_pos rfl, Dev.reg_setFlag_other _ _ _ _ _ (by decide)]
  · rw [answers_cel, fault_note_cel, Dev.setFlag_cel]

/-- An uncorrectable word reads 0, with its Note and its offset in CEL_UEADDR. -/
theorem exec_hostRead_uncorrectable (hs : Serves p s) {o : Nat} (h : o + accBytes sz ≤ 0x7C000) :
    ∃ t, exec (.hostRead p false (0x1800000 + o) sz .uncorrectable) s = .next t ∧
      (t.dev.port p).resp = respWords (List.replicate (accBytes sz) 0) ∧ t.dev.reg CEL_UEADDR = word o ∧
      t.dev.reg FLT_NOTES = s.dev.reg FLT_NOTES + 1 ∧ t.dev.cel = s.dev.cel := by
  have hn := accBytes_pos sz
  have hlen : (s.dev.cel.array.bytes o (accBytes sz)).length = accBytes sz := by simp [bytes_eq_map]
  have he := (celEcc_cellar (show o < 0x80000 by omega) (s.dev.cel.array.bytes o (accBytes sz)) s.dev).2.2
  rw [hlen] at he
  refine ⟨_, exec_hostRead_cellar hs h he (fault_note_ready _ _ _), answers_resp _ _, ?_, ?_, ?_⟩
  · rw [answers_reg, fault_note_reg (offEvents_of_block (by decide) (by decide)), if_neg (by decide),
      Dev.reg_setFlag_other _ _ _ _ _ (by decide), Dev.reg_setReg, if_pos rfl]
  · rw [answers_reg, fault_note_reg offEvents_notes, if_pos rfl, Dev.reg_setFlag_other _ _ _ _ _ (by decide), Dev.reg_setReg,
      if_neg (by decide)]
  · rw [answers_cel, fault_note_cel, Dev.setFlag_cel, Dev.setReg_cel]

/-! ### Accesses that R17 and R18 turn away, and reads before READY (R125) -/

theorem exec_hostRead_bad (hs : Serves p s) (h : badAccess a sz) (e : Ecc) : exec (.hostRead p false a sz e) s =
    .next (Answers p (respWords (List.replicate (accBytes sz) 0)) { s with dev := setAccErr p s.dev }) := by
  have hlt : a < 0x1800000 := by
    have := accBytes_pos sz
    have := h.1
    omega
  have hc := regionOf_below_cellar hlt
  exact exec_hostRead_serves hs (barAddr_below_cellar h.1) (devRead_bad h) (celEcc_other hc.1 hc.2) (setAccErr_ready p s.dev)

theorem exec_hostRead_dead (hs : Serves p s) (h : deadAccess a sz) (e : Ecc) : exec (.hostRead p false a sz e) s =
    .next (Answers p (respWords (List.replicate (accBytes sz) 0)) s) := by
  rw [exec_hostRead_memory hs (barAddr_below_cellar h.1) (accessRegion_dead h) (by decide) (by decide) (by decide), memBytes_none]

theorem exec_hostRead_early (hr : s.dev.ready = false) (hd : (s.dev.port p).pcie = true → (s.dev.port p).d3hot = false)
    (bar2 : Bool) (a : Nat) (sz : AccSize) (e : Ecc) : exec (.hostRead p bar2 a sz e) s =
      .next (Answers p (respWords (List.replicate (accBytes sz) 0)) s) := by
  have hp := not_d3hot hd
  have h : hostRead p bar2 a (accBytes sz) e s.snap s.dev =
      s.dev.setPort p { s.dev.port p with resp := respWords (List.replicate (accBytes sz) 0) } := by
    simp [hostRead, hp, hr]
  rw [exec_hostRead, h, putDev_answers _ rfl]

end HostRead

/-- Settles O14: a read of a port that serves answers the words of the region it reaches and changes the device only where a
64-bit register latches, the Cellar's ECC speaks or R17 excludes the access. -/
theorem hostReads : Obligations.HostReads := by
  unfold Obligations.HostReads
  refine ⟨fun p s hs => ?_, fun p s hr hd bar2 a sz e => exec_hostRead_early hr hd bar2 a sz e, fun s hr hm => ?_⟩
  · obtain ⟨hcount, hedge, hts⟩ := exec_hostRead_hi hs
    exact ⟨exec_tckCountLoRead hs, exec_tckEdgetsLoRead hs, exec_tckTsLoRead hs, hcount, hedge, hts,
      fun a e ha h1 h2 h3 => exec_hostRead_plainReg hs ha h1 h2 h3 e,
      fun a sz e h => exec_hostRead_sram hs h e,
      fun k o sz e => ⟨fun h => exec_hostRead_dmem hs k h e, fun h => exec_hostRead_imem hs k h e⟩,
      fun o sz h => ⟨exec_hostRead_cellar hs h (celEcc_cellar (by have := accBytes_pos sz; omega) _ _).1 rfl,
        exec_hostRead_corrected hs h, exec_hostRead_uncorrectable hs h⟩,
      fun a sz e => exec_hostRead_dram hs a sz e,
      fun a sz e h => exec_hostRead_bad hs h e,
      fun a sz e h => exec_hostRead_dead hs h e⟩
  · exact ⟨congrArg Host.Outcome.next (loRead_monitor hr hm rfl rfl), congrArg Host.Outcome.next (loRead_monitor hr hm rfl rfl),
      congrArg Host.Outcome.next (loRead_monitor hr hm rfl rfl)⟩

end Sys2Proof.Proofs
end

section
/-! PROOFS. The sticky bit of an event (R366), the wake from a stop (R131) and the loss of the Harness link (R24, R117). -/
namespace Sys2Proof.Proofs
open Sys2Proof Sys2Proof.Machine Sys2Proof.Claims

/-! ## The sticky bit that an event sets (R366) -/

section Sticky
variable {w : Nat}

theorem trigOne_sticky (hw : w < 8) (e k : Nat) (d : Dev) : (trigOne e k d).reg (EVT_STICKY w) = d.reg (EVT_STICKY w) := by
  have hne : ∀ b, 0x010F0020 ≤ b → EVT_STICKY w ≠ b := fun b hb => by unfold EVT_STICKY; omega
  unfold trigOne
  dsimp only
  split
  · rw [reg_evMon, Dev.reg_setFlag_other _ _ _ _ _ (hne _ (by decide)),
      Dev.reg_setFlag_other _ _ _ _ _ (hne _ (by unfold EVT_TRIG_CFG; omega)), Dev.reg_setReg,
      if_neg (hne _ (by unfold EVT_TRIG_TSHI; omega)), Dev.reg_setReg, if_neg (hne _ (by unfold EVT_TRIG_TSLO; omega)),
      Dev.reg_setReg, if_neg (hne _ (by unfold EVT_TRIG_TICK; omega))]
  · rfl

theorem forTrig_sticky (hw : w < 8) (e : Nat) (l : List Nat) (d : Dev) :
    (l.foldl (fun d k => trigOne e k d) d).reg (EVT_STICKY w) = d.reg (EVT_STICKY w) := by
  induction l generalizing d with
  | nil => rfl
  | cons k t ih => exact (ih (trigOne e k d)).trans (trigOne_sticky hw e k d)

theorem routeTo_sticky (hw : w < 8) (p : HostPort) (v : Nat) (d : Dev) :
    (routeTo p v d).reg (EVT_STICKY w) = d.reg (EVT_STICKY w) := by
  have hovf : EVT_STICKY w ≠ ovfAddr p := by unfold ovfAddr EVT_OVF EVT_STICKY; omega
  have hpend : EVT_STICKY w ≠ pendAddr d p := fun hc => by
    have := pendAddr_block d p
    rw [← hc] at this
    unfold EVT_STICKY at this
    omega
  unfold routeTo vecSet
  split
  · rfl
  · split
    · exact Dev.reg_setFlag_other _ _ _ _ _ hovf
    · exact Dev.reg_setFlag_other _ _ _ _ _ hpend

/-- An event of the list sets its sticky bit. -/
theorem raiseNow_flag {e : Nat} (he : evReserved e = false) (d : Dev) :
    (raiseNow e d).flag (EVT_STICKY (e / 32)) (e % 32) = true := by
  have h256 : e < 256 := by
    simp only [evReserved, Bool.or_eq_false_iff, decide_eq_false_iff_not] at he
    omega
  have hrest : ∀ (r : Word) (x : Dev), x.reg (EVT_STICKY (e / 32)) = setBit (d.reg (EVT_STICKY (e / 32))) (e % 32) true →
      (forAll 4 (trigOne e) (routeTo .b (bits r 12 8) (routeTo .a (bits r 4 0) x))).flag (EVT_STICKY (e / 32)) (e % 32) = true :=
    fun r x hx => by
      have hw : e / 32 < 8 := by omega
      rw [Dev.flag, forAll, forTrig_sticky hw, routeTo_sticky hw, routeTo_sticky hw, hx,
        bit_setBit_same (Nat.mod_lt e (by decide))]
  unfold raiseNow
  rw [if_neg (by simp [he])]
  dsimp only
  split
  · exact hrest _ _ (Dev.flag_setFlag d _ _ _)
  · exact hrest _ _ (Dev.flag_setFlag d _ _ _)

theorem raise_awake {d : Dev} (h : d.pw.stopped = false) (e : Nat) : raise e d = raiseNow e d := by
  simp [raise, h]

theorem raise_flag {e : Nat} (he : evReserved e = false) {d : Dev} (h : d.pw.stopped = false) :
    (raise e d).flag (EVT_STICKY (e / 32)) (e % 32) = true := by
  rw [raise_awake h, raiseNow_flag he]

end Sticky

theorem bit_setBit_clear {i : Nat} (hi : i < 32) (w : Word) : bit (setBit w i false) i = false := by
  rw [bit, setBit, if_neg (by decide), BitVec.getLsbD_and, BitVec.getLsbD_not, BitVec.getLsbD_ofNat, Nat.testBit_two_pow_self]
  simp [hi]

/-! ## What the steps after the end of a stop leave (R49, R131) -/

/-- The power state, the tick, the time, tick SRAM and the register at an address stand. -/
structure WakeKeeps (a : Nat) (d e : Dev) : Prop where
  pw   : e.pw = d.pw
  tick : e.tick = d.tick
  now  : e.now = d.now
  sram : e.sram = d.sram
  reg  : e.reg a = d.reg a

section Wake
variable {a : Nat}

theorem WakeKeeps.refl (d : Dev) : WakeKeeps a d d := ⟨rfl, rfl, rfl, rfl, rfl⟩

theorem WakeKeeps.trans {d e f : Dev} (h : WakeKeeps a d e) (k : WakeKeeps a e f) : WakeKeeps a d f :=
  ⟨k.pw.trans h.pw, k.tick.trans h.tick, k.now.trans h.now, k.sram.trans h.sram, k.reg.trans h.reg⟩

theorem WakeKeeps.foldl {α : Type} {f : Dev → α → Dev} (hf : ∀ d x, WakeKeeps a d (f d x)) (l : List α) (d : Dev) :
    WakeKeeps a d (l.foldl f d) := by
  induction l generalizing d with
  | nil => exact WakeKeeps.refl d
  | cons x t ih => exact (hf d x).trans (ih (f d x))

theorem wakeKeeps_setReg {b : Nat} (h : a ≠ b) (v : Word) (d : Dev) : WakeKeeps a d (d.setReg b v) :=
  ⟨rfl, rfl, rfl, rfl, by rw [Dev.reg_setReg, if_neg h]⟩

theorem wakeKeeps_setFlag {b : Nat} (h : a ≠ b) (i : Nat) (v : Bool) (d : Dev) : WakeKeeps a d (Dev.setFlag b i v d) :=
  wakeKeeps_setReg h _ d

theorem wakeKeeps_setPort (p : HostPort) (x : Port) (d : Dev) : WakeKeeps a d (d.setPort p x) :=
  ⟨Dev.setPort_pw d p x, Dev.setPort_tick d p x, Dev.setPort_now d p x, Dev.setPort_sram d p x,
    Dev.reg_congr (Dev.setPort_regs d p x) a⟩

theorem wakeKeeps_raiseNow (h : OffEvents a) (e : Nat) (d : Dev) : WakeKeeps a d (raiseNow e d) := by
  have hreg := raiseNow_reg h e d
  obtain ⟨r, v, m, he⟩ := raiseNow_frame e d
  rw [he] at hreg ⊢
  exact ⟨rfl, rfl, rfl, rfl, hreg⟩

theorem wakeKeeps_fbGap (h : ∀ c : Fin 16, a ≠ FB_STAT c) (c : Fin 16) (d : Dev) : WakeKeeps a d (fbGap c d) := by
  have hgap : WakeKeeps a d (Dev.setFlag (FB_STAT c) 15 true d) := wakeKeeps_setFlag (h c) 15 true d
  have hunref : ∀ x : Dev, WakeKeeps a x (fbUnref c x) := fun x =>
    ((wakeKeeps_setFlag (h c) 1 false x).trans (wakeKeeps_setFlag (h c) 0 false _)).trans ⟨rfl, rfl, rfl, rfl, rfl⟩
  unfold fbGap
  dsimp only
  split
  · exact hgap.trans (hunref _)
  · split
    · exact hgap.trans (wakeKeeps_setFlag (h c) 1 false _)
    · exact WakeKeeps.refl d

/-- A completion writes registers of the host block and its port's phase. -/
theorem wakeKeeps_complete (h : a / 0x10000 ≠ 0x102) (p : HostPort) (opc tag idx status : Nat) (data : Word) (tick : Nat)
    (nocommit : Bool) (d : Dev) : WakeKeeps a d (complete p opc tag idx status data tick nocommit d) := by
  have ht : d.fld (HST_CPLTAIL p.num) 8 0 < 512 := Nat.mod_lt _ (by decide)
  have hp : p.num < 2 := by cases p <;> decide
  have hring : ∀ (ws : Nat → Word) (x : Dev),
      WakeKeeps a x (forAll 4 (fun i d' => d'.setReg (HST_CPRING p.num (4 * d.fld (HST_CPLTAIL p.num) 8 0 + i)) (ws i)) x) := by
    intro ws x
    have hne : ∀ i < 4, a ≠ HST_CPRING p.num (4 * d.fld (HST_CPLTAIL p.num) 8 0 + i) := fun i hi hc =>
      h (by rw [hc]; unfold HST_CPRING; omega)
    exact (((wakeKeeps_setReg (hne 0 (by decide)) _ x).trans (wakeKeeps_setReg (hne 1 (by decide)) _ _)).trans
      (wakeKeeps_setReg (hne 2 (by decide)) _ _)).trans (wakeKeeps_setReg (hne 3 (by decide)) _ _)
  have htail : a ≠ HST_CPLTAIL p.num := fun hc => h (by rw [hc]; unfold HST_CPLTAIL; omega)
  have hpend : ∀ x : Dev, a ≠ pendAddr x p := fun x hc => h (hc ▸ pendAddr_block x p)
  unfold complete
  dsimp only
  refine WakeKeeps.trans ?_ (wakeKeeps_setFlag (hpend _) 0 true _)
  split
  · exact ((hring _ d).trans (wakeKeeps_setReg htail _ _)).trans (wakeKeeps_setPort p _ _)
  · exact (hring _ d).trans (wakeKeeps_setReg htail _ _)

theorem wakeKeeps_timedWake (h : a / 0x10000 ≠ 0x102) (p : HostPort) (d : Dev) : WakeKeeps a d (timedWake p d) :=
  WakeKeeps.foldl (fun d _ => (wakeKeeps_setPort p _ d).trans (wakeKeeps_complete h p _ _ _ _ _ _ _ _)) _ d

end Wake

/-! ## The wake (R131) -/

/-- The device at the end of a stop, before its channels and events: the tick count and the time have moved on, and the registers
show the wake. -/
def stopEnded (causes : BitVec 6) (stopTu : Nat) (d : Dev) : Dev :=
  let stop := max stopTu (d.now - d.tick.edgeAt)
  let now := max d.now (d.tick.edgeAt + 2 * (stop / 2))
  let d' := { d with
    now := now
    tick := { d.tick with count := d.tick.count + BitVec.ofNat 64 (stop / d.period), due := now + d.period }
    pw := { d.pw with stopped := false, awake := some 0, lastWake := causes, wakeReq := 0 } }
  Dev.setFld SYS_PWRSTAT 2 0 1 (Dev.setFlag SYS_PWRSTAT 16 true
    ((d'.setReg TCK_GAP (word (stop / d.period))).setReg SYS_WAKECAUSE (causes.setWidth 32)))

/-- Then every channel shows its gap, and the events of the stop are raised. -/
def gapsShown (d : Dev) : Dev := visWake ((List.finRange 16).foldl (fun (d : Dev) (c : Fin 16) => fbGap c d) d)

def deferredRaised (d : Dev) : Dev :=
  d.ev.deferred.foldl (fun d e => raiseNow e d) { d with ev := { d.ev with deferred := [] } }

theorem wakeUp_eq {d : Dev} (h : d.pw.stopped = true) (causes : BitVec 6) (stopTu : Nat) : wakeUp causes stopTu d =
    timedWake .b (timedWake .a (raise 8 (deferredRaised (gapsShown (stopEnded causes stopTu d))))) := by
  unfold wakeUp
  rw [if_neg (by simp [h])]
  rfl

theorem stopEnded_cause (causes : BitVec 6) (stopTu : Nat) (d : Dev) :
    (stopEnded causes stopTu d).reg SYS_WAKECAUSE = causes.setWidth 32 := by
  rw [stopEnded, Dev.reg_setFld_other _ _ _ _ _ _ (by decide), Dev.reg_setFlag_other _ _ _ _ _ (by decide), Dev.reg_setReg,
    if_pos rfl]

theorem wakeKeeps_gapsShown {a : Nat} (h : a / 0x10000 ≠ 0x106) (d : Dev) : WakeKeeps a d (gapsShown d) := by
  have hfb : ∀ c : Fin 16, a ≠ FB_STAT c := fun c hc => h (by rw [hc]; unfold FB_STAT; omega)
  exact (WakeKeeps.foldl (fun d c => wakeKeeps_fbGap hfb c d) _ d).trans ⟨rfl, rfl, rfl, rfl, rfl⟩

theorem wakeKeeps_deferredRaised {a : Nat} (h : OffEvents a) (d : Dev) : WakeKeeps a d (deferredRaised d) := by
  have h0 : WakeKeeps a d { d with ev := { d.ev with deferred := [] } } := ⟨rfl, rfl, rfl, rfl, rfl⟩
  exact h0.trans (WakeKeeps.foldl (fun d e => wakeKeeps_raiseNow h e d) d.ev.deferred _)

/-- After the end of the stop the wake leaves the power state, the tick, the time, tick SRAM and the cause, and event 8 stands. -/
theorem wakeUp_spec {d : Dev} (h : d.pw.stopped = true) (causes : BitVec 6) (stopTu : Nat) :
    WakeKeeps SYS_WAKECAUSE (stopEnded causes stopTu d) (wakeUp causes stopTu d) ∧
      (wakeUp causes stopTu d).flag (EVT_STICKY 0) 8 = true := by
  have hoff : OffEvents SYS_WAKECAUSE := offEvents_of_block (by decide) (by decide)
  have hshown := (wakeKeeps_gapsShown (a := SYS_WAKECAUSE) (by decide) (stopEnded causes stopTu d)).trans
    (wakeKeeps_deferredRaised hoff _)
  have hawake : (deferredRaised (gapsShown (stopEnded causes stopTu d))).pw.stopped = false := by rw [hshown.pw]; rfl
  rw [wakeUp_eq h]
  refine ⟨((hshown.trans ?_).trans (wakeKeeps_timedWake (by decide) .a _)).trans (wakeKeeps_timedWake (by decide) .b _), ?_⟩
  · rw [raise_awake hawake]
    exact wakeKeeps_raiseNow hoff 8 _
  · rw [Dev.flag, (wakeKeeps_timedWake (by decide) .b _).reg, (wakeKeeps_timedWake (by decide) .a _).reg]
    exact raise_flag (e := 8) (by decide) hawake

theorem exec_wake {s : State} {w : WakeSet} {n : Nat} {c : BitVec 6} (hc : c = (wakeBits w ||| s.dev.pw.wakeReq) &&& wakeEnabled s.dev)
    (h0 : c ≠ 0) : exec (.wake w n) s = .next { s with dev := wakeUp c n s.dev } := by
  have h : wake w n s.dev = wakeUp c n s.dev := by
    simp only [wake, ← hc]
    rw [if_pos (.inl h0)]
  exact congrArg (fun d => Host.Outcome.next { s with dev := d }) h

theorem exec_wakeTimerExpiry {s : State} (hs : s.dev.pw.stopped = true) (hn : s.dev.fld SYS_WAKETMR 23 0 ≠ 0)
    (he : s.dev.flag SYS_WAKEEN 3 = true) : exec .wakeTimerExpiry s = .next { s with dev := { s.dev with
      now := max s.dev.now (s.dev.tick.edgeAt + s.dev.fld SYS_WAKETMR 23 0 * 3000000000 / 32768),
      pw := { s.dev.pw with wakeReq := s.dev.pw.wakeReq ||| 8 } } } := by
  have h : wakeTimer s.dev = { s.dev with
      now := max s.dev.now (s.dev.tick.edgeAt + s.dev.fld SYS_WAKETMR 23 0 * 3000000000 / 32768),
      pw := { s.dev.pw with wakeReq := s.dev.pw.wakeReq ||| 8 } } :=
    if_pos (by simp [hs, hn, he])
  exact congrArg (fun d => Host.Outcome.next { s with dev := d }) h

/-! ## The loss of the Harness link (R24, R117) -/

/-- The link falls: what stood raises event 140, and nothing else moves. -/
theorem hrnLinkSet_down (d : Dev) : EventsOnly { d with hrnLink := false } (hrnLinkSet false d) := by
  unfold hrnLinkSet
  split
  · next h => exact ⟨d.regs, d.ev, d.mon, by rw [← h]⟩
  · obtain ⟨r, v, m, he⟩ := raise_frame 140 (Dev.setFlag HRN_STAT 31 false { d with hrnLink := false })
    exact ⟨r, v, m, he⟩

theorem hrnLinkSet_stood {d : Dev} (h : d.hrnLink = true) : (hrnLinkSet false d).flag HRN_STAT 31 = false ∧
    (d.pw.stopped = false → (hrnLinkSet false d).flag (EVT_STICKY 4) 12 = true) := by
  have hoff : OffEvents HRN_STAT := offEvents_of_block (by decide) (by decide)
  have he : hrnLinkSet false d = raise 140 (Dev.setFlag HRN_STAT 31 false { d with hrnLink := false }) := by simp [hrnLinkSet, h]
  rw [he]
  refine ⟨?_, fun hs => raise_flag (e := 140) (by decide) hs⟩
  rw [Dev.flag, raise_reg hoff, Dev.flag_setFlag, bit_setBit_clear (by decide)]

/-- A loss that no register records yet, or of a link that stood. -/
theorem harnessLinkLoss_eq {d : Dev} (h : d.hrnLink = true ∨ d.flag SYS_HOLDCAUSE 3 = false) :
    harnessLinkLoss d = hrnWake (Dev.setFlag SYS_HOLDCAUSE 3 true (hrnLinkSet false (d.setOut linkLostMark 1))) := by
  have hc : (!d.hrnLink && d.flag SYS_HOLDCAUSE 3) = false := by rcases h with h | h <;> simp [h]
  simp only [harnessLinkLoss, hc, Bool.false_eq_true, if_false]

/-- A new loss takes the link down, marks it for the next edge and wakes the device; outside the link's units nothing moves. -/
theorem harnessLinkLoss_frame {d : Dev} (h : d.hrnLink = true ∨ d.flag SYS_HOLDCAUSE 3 = false) :
    (harnessLinkLoss d).hrnLink = false ∧ (harnessLinkLoss d).outs = (d.setOut linkLostMark 1).outs ∧
      Elsewhere d (harnessLinkLoss d) := by
  obtain ⟨r, v, m, he⟩ := (hrnLinkSet_down (d.setOut linkLostMark 1)).setFlag SYS_HOLDCAUSE 3 true
  rw [harnessLinkLoss_eq h, he]
  exact ⟨rfl, rfl, ⟨rfl, rfl, rfl, rfl, ⟨rfl, rfl⟩, rfl, rfl, rfl, rfl⟩⟩

/-- Of the registers it sets HARNESS in SYS_HOLDCAUSE over those that the fall of the link writes. -/
theorem harnessLinkLoss_reg {d : Dev} (h : d.hrnLink = true ∨ d.flag SYS_HOLDCAUSE 3 = false) (a : Nat) :
    (harnessLinkLoss d).reg a =
      (Dev.setFlag SYS_HOLDCAUSE 3 true (hrnLinkSet false (d.setOut linkLostMark 1))).reg a := by
  rw [harnessLinkLoss_eq h]
  rfl

theorem exec_harnessLinkLoss {s : State} (hr : s.dev.ready = true) :
    exec .harnessLinkLoss s = .next { s with dev := harnessLinkLoss s.dev } := by
  have h : exec .harnessLinkLoss s = onReady harnessLinkLoss s := rfl
  rw [h, onReady, if_pos hr]

/-- Settles O31: the steps of a wake after the end of the stop leave what it set; a link loss is recorded once. -/
theorem wakeAndLinkLoss : Obligations.WakeAndLinkLoss := by
  unfold Obligations.WakeAndLinkLoss
  refine ⟨fun w n s c hs hc h0 => ?_, fun s hs hn he => exec_wakeTimerExpiry hs hn he, fun s hr => ⟨fun h => ?_, fun hl hf => ?_⟩⟩
  · obtain ⟨hk, hflag⟩ := wakeUp_spec hs c n
    obtain ⟨hpw, htick, hnow, hsram, hcause⟩ := hk
    exact ⟨_, exec_wake hc h0, by rw [hpw]; rfl, by rw [hpw]; rfl, by rw [hpw]; rfl, hcause.trans (stopEnded_cause c n s.dev),
      hflag, by rw [htick]; rfl, hnow, hsram⟩
  · obtain ⟨hlink, houts, helse⟩ := harnessLinkLoss_frame h
    have hreg := harnessLinkLoss_reg h
    have hout : (harnessLinkLoss s.dev).out linkLostMark = (s.dev.setOut linkLostMark 1).out linkLostMark :=
      congrArg (fun o => smGet word0 o linkLostMark) houts
    refine ⟨_, exec_harnessLinkLoss hr, hlink, ?_, ?_, fun hl => ?_, fun hl hs => ?_, helse⟩
    · rw [Dev.flag, hreg, Dev.flag_setFlag, bit_setBit_same (by decide)]
    · rw [hout, Dev.out_setOut, if_pos rfl]
    · rw [Dev.flag, hreg, Dev.reg_setFlag_other _ _ _ _ _ (by decide)]
      exact (hrnLinkSet_stood (d := s.dev.setOut linkLostMark 1) hl).1
    · rw [Dev.flag, hreg, Dev.reg_setFlag_other _ _ _ _ _ (by decide)]
      exact (hrnLinkSet_stood (d := s.dev.setOut linkLostMark 1) hl).2 hs
  · have h : harnessLinkLoss s.dev = s.dev := by simp [harnessLinkLoss, hl, hf]
    rw [exec_harnessLinkLoss hr, h]

end Sys2Proof.Proofs
end

section
/-! PROOFS. Fields of registers, the engine's order of invocations (R28, R246), TREE.RUN (R66, R250) and the load of tree models
(R247 to R249). -/
namespace Sys2Proof.Proofs
open Sys2Proof Sys2Proof.Machine Sys2Proof.Claims

/-! ## Fields of a word -/

section Fields
variable {w : Word} {hi lo hi' lo' v : Nat}

theorem testBit_bits (w : Word) (hi lo i : Nat) :
    (bits w hi lo).testBit i = (decide (i < hi + 1 - lo) && w.getLsbD (lo + i)) := by
  rw [bits, Nat.testBit_mod_two_pow, Nat.testBit_div_two_pow, BitVec.testBit_toNat, Nat.add_comm i]

theorem bits_setBits_same (h : hi < 32) : bits (setBits w hi lo v) hi lo = v % 2 ^ (hi + 1 - lo) := by
  refine Nat.eq_of_testBit_eq (fun i => ?_)
  rw [testBit_bits, getLsbD_setBits, Nat.testBit_mod_two_pow, Nat.add_sub_cancel_left]
  by_cases hi' : i < hi + 1 - lo
  · have h32 : lo + i < 32 := by omega
    simp [hi', h32]
  · simp [hi']

theorem bits_setBits_other (h : hi < lo' ∨ hi' < lo) : bits (setBits w hi' lo' v) hi lo = bits w hi lo := by
  refine Nat.eq_of_testBit_eq (fun i => ?_)
  rw [testBit_bits, testBit_bits, getLsbD_setBits]
  by_cases hi : i < hi + 1 - lo
  · rw [if_neg (by omega)]
  · simp [hi]

end Fields

/-! ## Steps for each index -/

section ForAll
variable {σ α : Type} {f : Nat → σ → σ}

theorem forAll_succ (n : Nat) (s : σ) : forAll (n + 1) f s = f n (forAll n f s) := by
  simp only [forAll, List.range_succ, List.foldl_append, List.foldl_cons, List.foldl_nil]

/-- What no step changes stands. -/
theorem forAll_keeps {π : σ → α} (h : ∀ j s, π (f j s) = π s) (n : Nat) (s : σ) : π (forAll n f s) = π s := by
  induction n with
  | zero => rfl
  | succ n ih => rw [forAll_succ, h, ih]

/-- What one step alone changes is changed by it once. -/
theorem forAll_at {π : σ → α} {g : α → α} {k n : Nat} (hother : ∀ j < n, j ≠ k → ∀ s, π (f j s) = π s)
    (hat : ∀ s, π (f k s) = g (π s)) (s : σ) : π (forAll n f s) = if k < n then g (π s) else π s := by
  induction n with
  | zero => rfl
  | succ n ih =>
    have hn := ih (fun j hj => hother j (Nat.lt_succ_of_lt hj))
    rw [forAll_succ]
    by_cases hk : n = k
    · subst hk
      rw [hat, hn, if_neg (Nat.lt_irrefl n), if_pos (Nat.lt_succ_self n)]
    · rw [hother n (Nat.lt_succ_self n) hk, hn]
      have hiff : k < n + 1 ↔ k < n := by omega
      simp only [hiff]

end ForAll

/-! ## The engine's order (R28, R246) -/

theorem le_maxList {l : List Nat} {x : Nat} (h : x ∈ l) : x ≤ maxList l := by
  have hm : maxList l = l.foldr max ⊥ := List.foldl_eq_foldr (f := max)
  rw [hm]
  exact List.le_max_of_le h (Nat.le_refl x)

/-- The engine gives an invocation at least one cycle after its issue. -/
theorem lt_engineEnd (l : List TRun) {now left : Nat} (h : 0 < left) : now < engineEnd now left l := by
  induction l generalizing now left with
  | nil => exact Nat.lt_add_of_pos_right h
  | cons r l ih =>
    unfold engineEnd
    split
    · exact ih h
    · split
      · exact Nat.lt_add_of_pos_right h
      · have hend := ih (now := r.ends) (left := left - (r.at_ - now)) (by omega)
        omega

/-- The invocations of one core. -/
def runsOf (k : Nat) (l : List TRun) : List TRun := l.filter (fun r => decide (r.core = k))

/-- The invocations that come before those of core k. -/
def runsBelow (k : Nat) (l : List TRun) : List TRun := l.filter (fun q => decide (q.core < k))

/-- An invocation with its end, where these take the engine first. -/
def endedAfter (l : List TRun) (r : TRun) : TRun := { r with ends := engineEnd r.at_ r.work l }

theorem scheduleCore_eq (l : List TRun) (k : Nat) :
    scheduleCore l k = l.map (fun r => if r.core = k then endedAfter (runsBelow k l) r else r) := rfl

theorem lastEnd_eq (l : List TRun) (k : Nat) : lastEnd l k = maxList ((runsOf k l).map (·.ends)) := rfl

theorem mem_runsOf {k : Nat} {l : List TRun} {r : TRun} : r ∈ runsOf k l ↔ r ∈ l ∧ r.core = k := by
  simp [runsOf]

/-- Scheduling a core leaves every invocation its core. -/
theorem filter_scheduleCore (P : Nat → Bool) (l : List TRun) (j : Nat) : (scheduleCore l j).filter (fun r => P r.core) =
    (l.filter (fun r => P r.core)).map (fun r => if r.core = j then endedAfter (runsBelow j l) r else r) := by
  rw [scheduleCore_eq, List.filter_map]
  congr 1
  refine List.filter_congr (fun r _ => ?_)
  simp only [Function.comp_apply]
  split <;> rfl

theorem runsOf_scheduleCore_other {j k : Nat} (h : j ≠ k) (l : List TRun) : runsOf k (scheduleCore l j) = runsOf k l := by
  have hm : runsOf k (scheduleCore l j) = (runsOf k l).map (fun r => if r.core = j then endedAfter (runsBelow j l) r else r) :=
    filter_scheduleCore (fun c => decide (c = k)) l j
  rw [hm]
  refine (List.map_congr_left (fun r hr => ?_)).trans (List.map_id _)
  rw [if_neg (fun hc => h (hc.symm.trans (mem_runsOf.mp hr).2))]
  rfl

theorem runsOf_scheduleCore_same (l : List TRun) (k : Nat) :
    runsOf k (scheduleCore l k) = (runsOf k l).map (endedAfter (runsBelow k l)) := by
  have hm : runsOf k (scheduleCore l k) = (runsOf k l).map (fun r => if r.core = k then endedAfter (runsBelow k l) r else r) :=
    filter_scheduleCore (fun c => decide (c = k)) l k
  rw [hm]
  exact List.map_congr_left (fun r hr => if_pos (mem_runsOf.mp hr).2)

/-- The invocations with the ends of the cores below n. -/
def scheduledBelow (n : Nat) (l : List TRun) : List TRun := (List.range n).foldl scheduleCore l

theorem scheduledBelow_succ (n : Nat) (l : List TRun) :
    scheduledBelow (n + 1) l = scheduleCore (scheduledBelow n l) n := by
  simp only [scheduledBelow, List.range_succ, List.foldl_append, List.foldl_cons, List.foldl_nil]

/-- The invocations of a core get their ends once, when those of the lower-numbered cores have theirs. -/
theorem runsOf_scheduledBelow (k n : Nat) (l : List TRun) : runsOf k (scheduledBelow n l) =
    if k < n then (runsOf k l).map (endedAfter (runsBelow k (scheduledBelow k l))) else runsOf k l := by
  induction n with
  | zero => rfl
  | succ n ih =>
    rw [scheduledBelow_succ]
    by_cases hk : n = k
    · subst hk
      rw [runsOf_scheduleCore_same, ih, if_neg (Nat.lt_irrefl n), if_pos (Nat.lt_succ_self n)]
    · rw [runsOf_scheduleCore_other hk, ih]
      have hiff : k < n + 1 ↔ k < n := by omega
      simp only [hiff]

theorem lastEnd_scheduleRuns (l : List TRun) (k : Fin 6) : lastEnd (scheduleRuns l) k =
    maxList ((runsOf k l).map (fun r => engineEnd r.at_ r.work (runsBelow k (scheduledBelow k l)))) := by
  have h : runsOf k (scheduleRuns l) = (runsOf k l).map (endedAfter (runsBelow k (scheduledBelow k l))) :=
    (runsOf_scheduledBelow k 6 l).trans (if_pos k.isLt)
  rw [lastEnd_eq, h, List.map_map]
  rfl

theorem mem_insertRun {x y : TRun} {l : List TRun} : y ∈ insertRun x l ↔ y = x ∨ y ∈ l := by
  induction l with
  | nil => simp [insertRun]
  | cons z l ih =>
    unfold insertRun
    split
    · simp only [List.mem_cons, ih]
      tauto
    · simp only [List.mem_cons]

/-- An invocation that has just been issued retires after its issue. -/
theorem lt_lastEnd_insertRun (k : Fin 6) {issue work : Nat} (h : 0 < work) (l : List TRun) :
    issue < lastEnd (scheduleRuns (insertRun ⟨k, issue, work, issue⟩ l)) k := by
  rw [lastEnd_scheduleRuns]
  refine Nat.lt_of_lt_of_le (lt_engineEnd _ h) (le_maxList (List.mem_map.mpr ⟨⟨k, issue, work, issue⟩, ?_, rfl⟩))
  exact mem_runsOf.mpr ⟨mem_insertRun.mpr (.inl rfl), rfl⟩

theorem runsOf_insertRun_fresh {k : Nat} {x : TRun} (hx : x.core = k) {l : List TRun} (h : ∀ r ∈ l, r.core ≠ k) :
    runsOf k (insertRun x l) = [x] := by
  induction l with
  | nil => simp [insertRun, runsOf, hx]
  | cons r l ih =>
    have hr : r.core ≠ k := h r (List.mem_cons_self ..)
    have hl : ∀ r ∈ l, r.core ≠ k := fun q hq => h q (List.mem_cons_of_mem _ hq)
    unfold insertRun
    split
    · rw [runsOf, List.filter_cons_of_neg (by simpa using hr)]
      exact ih hl
    · have hnil : runsOf k (r :: l) = [] := List.filter_eq_nil_iff.mpr (fun q hq => by simpa using h q hq)
      rw [runsOf, List.filter_cons_of_pos (by simpa using hx)]
      exact congrArg (x :: ·) hnil

theorem runsBelow_scheduledBelow_nil {k : Nat} {l : List TRun} (h : ∀ r ∈ l, k ≤ r.core) (n : Nat) :
    runsBelow k (scheduledBelow n l) = [] := by
  induction n with
  | zero => exact List.filter_eq_nil_iff.mpr (fun r hr => by simpa using h r hr)
  | succ n ih =>
    have hm : runsBelow k (scheduleCore (scheduledBelow n l) n) = (runsBelow k (scheduledBelow n l)).map _ :=
      filter_scheduleCore (fun c => decide (c < k)) (scheduledBelow n l) n
    rw [scheduledBelow_succ, hm, ih, List.map_nil]

/-- With no invocation of a core with its number or a lower one, a new invocation begins at its issue. -/
theorem lastEnd_insertRun_first (k : Fin 6) (issue work : Nat) {l : List TRun} (h : ∀ r ∈ l, k.val < r.core) :
    lastEnd (scheduleRuns (insertRun ⟨k, issue, work, issue⟩ l)) k = issue + work := by
  have hb : ∀ r ∈ insertRun ⟨k, issue, work, issue⟩ l, k.val ≤ r.core := fun r hr =>
    (mem_insertRun.mp hr).elim (fun he => he ▸ Nat.le_refl _) (fun hr => Nat.le_of_lt (h r hr))
  rw [lastEnd_scheduleRuns, runsOf_insertRun_fresh (x := ⟨k, issue, work, issue⟩) rfl (fun r hr => Nat.ne_of_gt (h r hr)), runsBelow_scheduledBelow_nil hb]
  simp [maxList, engineEnd]

/-- Behind one running invocation of a lower-numbered core a new invocation begins at that one's end. -/
theorem lastEnd_insertRun_behind (k : Fin 6) {issue work : Nat} (hw : 0 < work) {r : TRun} (hr : r.core < k.val)
    (he : r.ends = r.at_ + r.work) (h0 : r.at_ ≤ issue) (h1 : issue < r.ends) :
    lastEnd (scheduleRuns (insertRun ⟨k, issue, work, issue⟩ [r])) k = r.ends + work := by
  have hl : insertRun ⟨k, issue, work, issue⟩ [r] = [r, ⟨k, issue, work, issue⟩] := if_pos h0
  have hstep : ∀ j, j < k.val → scheduleCore [r, ⟨k, issue, work, issue⟩] j = [r, ⟨k, issue, work, issue⟩] := by
    intro j hj
    have hnew : ¬ k.val = j := by omega
    simp only [scheduleCore_eq, List.map_cons, List.map_nil, if_neg hnew]
    split
    · next hc =>
      have hnil : runsBelow j [r, ⟨k, issue, work, issue⟩] = [] := by
        have h2 : ¬ k.val < j := by omega
        simp [runsBelow, hc, h2]
      have hsame : endedAfter [] r = r := by rw [endedAfter, engineEnd, ← he]
      rw [hnil, hsame]
    · rfl
  have hfix : ∀ n, n ≤ k.val → scheduledBelow n [r, ⟨k, issue, work, issue⟩] = [r, ⟨k, issue, work, issue⟩] := by
    intro n hn
    induction n with
    | zero => rfl
    | succ n ih => rw [scheduledBelow_succ, ih (by omega), hstep n (by omega)]
  have hof : runsOf k [r, ⟨k, issue, work, issue⟩] = [⟨k, issue, work, issue⟩] := by
    simp [runsOf, Nat.ne_of_lt hr]
  have hbelow : runsBelow k [r, ⟨k, issue, work, issue⟩] = [r] := by simp [runsBelow, hr]
  have hend : engineEnd issue work [r] = r.ends + work := by
    have h2 : ¬ r.ends ≤ issue := by omega
    have h3 : ¬ issue + work ≤ r.at_ := by omega
    have h4 : r.at_ - issue = 0 := by omega
    simp only [engineEnd, if_neg h2, if_neg h3, h4, Nat.sub_zero]
  rw [hl, lastEnd_scheduleRuns, hof, hfix k.val (Nat.le_refl _), hbelow]
  simp [maxList, hend]

/-! ## Issuing an invocation -/

section Invocation
variable {k : Fin 6} {issue work : Nat} {d : Dev}

/-- The core that issues waits until its invocation ends. -/
theorem engineTake_core : (engineTake k issue work d).core k =
    { d.core k with cyc := lastEnd (scheduleRuns (insertRun ⟨k, issue, work, issue⟩ d.trees.runs)) k } := by
  have hk : Fin.ofNat 6 k.val = k := Fin.ext (Nat.mod_eq_of_lt k.isLt)
  unfold engineTake
  refine (forAll_at (π := fun x : Dev => x.core k) (k := k.val)
    (g := fun c => { c with cyc := lastEnd (scheduleRuns (insertRun ⟨k, issue, work, issue⟩ d.trees.runs)) k })
    (fun j hj hne x => ?_) (fun x => ?_) d).trans (if_pos k.isLt)
  · have hjk : k ≠ Fin.ofNat 6 j := fun hc => hne ((Nat.mod_eq_of_lt hj).symm.trans (congrArg Fin.val hc.symm))
    dsimp only
    split
    · exact Dev.core_setCore_other _ _ _ _ hjk
    · rfl
  · simp only [hk, true_or, if_true, Dev.core_setCore]

theorem engineTake_pw : (engineTake k issue work d).pw = d.pw := by
  unfold engineTake
  refine forAll_keeps (π := fun x : Dev => x.pw) (fun j x => ?_) 6 d
  dsimp only
  split <;> rfl

/-- An invocation takes from 1 cycle to its bound. -/
theorem treeCycles_bounds (d : Dev) {b : Nat} (h : 0 < b) : 1 ≤ treeCycles d b ∧ treeCycles d b ≤ b := by
  have := Nat.mod_lt (Config.freeWord d.freeCtr).toNat h
  unfold treeCycles
  omega

/-- A core after its TREE.RUN: the results are in memory, and it goes on when the invocation has ended. -/
structure Invoked (c c' : Core) (mem : Memory) (ends : Nat) : Prop where
  dmem : c'.dmem = mem
  regs : SameRegs c c'
  pc   : c'.pc = c.pc + 1
  cyc  : c'.cyc = ends

/-- The core of an invocation, of which `n` cycles are the engine's. -/
theorem engineTake_invoked (c : Core) (mem : Memory) (n : Nat) (d : Dev) :
    Invoked c ((engineTake k issue n (d.setCore k { c.retire issue n n [] with dmem := mem })).core k) mem
      (lastEnd (scheduleRuns (insertRun ⟨k, issue, n, issue⟩ d.trees.runs)) k) := by
  rw [engineTake_core, Dev.core_setCore]
  exact ⟨rfl, ⟨rfl, rfl, rfl, rfl, rfl⟩, rfl, rfl⟩

end Invocation

theorem raise_core (e : Nat) (d : Dev) (k : Fin 6) : (raise e d).core k = d.core k := by
  obtain ⟨r, v, m, he⟩ := raise_frame e d
  rw [he]
  rfl

/-! ## TREE.RUN -/

section TreeRun
variable {o : Lim} {s : State}

/-- The fetch leaves the tree engine and the power state. -/
theorem fetched_frame : (fetched o s).trees = s.dev.trees ∧ (fetched o s).pw = s.dev.pw := by
  unfold fetched limCec
  split
  · obtain ⟨f, r, v, m, he⟩ := fault_note_frame 22 (word (16 * o.core + 0)) (s.dev.setCore o.core ((s.dev.core o.core).sticky 128))
    rw [he]
    exact ⟨rfl, rfl⟩
  · exact ⟨rfl, rfl⟩

/-- An instruction that executes performs its operation on the device that its fetch leaves. -/
theorem limDev_on (h : Executes o s) {legal : Bool} (hlegal : legal = true) (off on_ : Dev → Dev) :
    limDev o legal off on_ s = { s with dev := on_ (fetched o s) } := by
  obtain ⟨⟨hissues, hfetch, hlisted⟩, hpred⟩ := h
  rw [limDev, limGate_on o legal off on_ s.dev hissues hfetch hlegal hlisted hpred]
  rfl

theorem alignTo_four (a : Nat) : alignTo 4 a = a / 4 * 4 := by
  unfold alignTo
  omega

/-- The cycle in which a TREE.RUN issues. -/
def treeIssue (o : Lim) (s : State) : Nat := (from_ o s).cyc + stallOf (from_ o s) [kg (raOf o), kg (rbOf o)]

/-- How many of the engine's cycles the model of a slot takes, and its result words with whether it met a NaN. -/
def runCycles (o : Lim) (s : State) (m : TModel) : Nat := treeCycles (fetched o s).tickFree (2 + m.cost)

def runResult (o : Lim) (s : State) (m : TModel) : List Word × Bool :=
  treeResult m (Config.freeWord (fetched o s).freeCtr).toNat
    (fun i => (smGet dword0 (fetched o s).trees.store (m.base + i)).toNat)
    (fun i => (from_ o s).dmem.word (((from_ o s).gr (raOf o)).toNat / 4 * 4 + 4 * i))

/-- The device when an invocation of n cycles has its place in the engine's order and its results are written. -/
def invoked (o : Lim) (s : State) (n : Nat) (mem : Memory) (d : Dev) : Dev :=
  engineTake o.core (treeIssue o s) n (d.setCore o.core { (from_ o s).retire (treeIssue o s) n n [] with dmem := mem })

/-- An executed TREE.RUN on a loaded slot invokes its model; NaN inputs show in TRE_STAT. -/
theorem exec_treeRun_loaded (h : Executes o s) (hrd : rdOf o = 0) {m : TModel}
    (hm : (fetched o s).trees.slots[Fin.ofNat 32 (fnOf o)] = some m) (hd : o.data = .ok)
    (ha : ((from_ o s).gr (raOf o)).toNat / 4 * 4 + 4 * m.nin ≤ 0x20000)
    (hb : ((from_ o s).gr (rbOf o)).toNat / 4 * 4 + 4 * (1 + m.nout) ≤ 0x20000) {d : Dev}
    (he : d = invoked o s (runCycles o s m)
      (putWords (from_ o s).dmem (((from_ o s).gr (rbOf o)).toNat / 4 * 4) (runResult o s m).1) (fetched o s).tickFree.tickFree) :
    exec (.treeRun o) s =
      .next { s with dev := if (runResult o s m).2 then raise 160 (Dev.setFlag TRE_STAT 0 true d) else d } := by
  have hno : ¬ (0x20000 < ((from_ o s).gr (raOf o)).toNat / 4 * 4 + 4 * m.nin ∨
      0x20000 < ((from_ o s).gr (rbOf o)).toNat / 4 * 4 + 4 * (1 + m.nout)) := by omega
  have hexec : exec (.treeRun o) s = execTreeRun o s := rfl
  have hfr : (fetched o s).core o.core = from_ o s := rfl
  rw [hexec, execTreeRun, limDev_on h (by simp [hrd]), he]
  simp only [hfr, alignTo_four, hm, Option.map_some, Option.getD_some, if_neg hno, hd, reduceCtorEq, if_false]
  rfl

/-- An executed TREE.RUN on an empty slot writes the status word 4 and shows in TRE_STAT with event 161. -/
theorem exec_treeRun_empty (h : Executes o s) (hrd : rdOf o = 0)
    (hm : (fetched o s).trees.slots[Fin.ofNat 32 (fnOf o)] = none)
    (hb : ((from_ o s).gr (rbOf o)).toNat / 4 * 4 + 4 ≤ 0x20000) (ha : ((from_ o s).gr (raOf o)).toNat / 4 * 4 ≤ 0x20000) :
    exec (.treeRun o) s = .next { s with dev := raise 161 (Dev.setFlag TRE_STAT 1 true
      (invoked o s (treeCycles (fetched o s) (2 + 512))
        ((from_ o s).dmem.setWord (((from_ o s).gr (rbOf o)).toNat / 4 * 4) 4) (fetched o s).tickFree)) } := by
  have hno : ¬ (0x20000 < ((from_ o s).gr (raOf o)).toNat / 4 * 4 + 4 * 0 ∨
      0x20000 < ((from_ o s).gr (rbOf o)).toNat / 4 * 4 + 4 * (1 + 0)) := by omega
  have hexec : exec (.treeRun o) s = execTreeRun o s := rfl
  have hfr : (fetched o s).core o.core = from_ o s := rfl
  rw [hexec, execTreeRun, limDev_on h (by simp [hrd])]
  simp only [hfr, alignTo_four, hm, Option.map_none, Option.getD_none, if_neg hno]
  rfl

/-- The core after an invocation, and the runs that order it. -/
theorem invoked_core (n : Nat) (mem : Memory) {d : Dev} (h : d.trees = (fetched o s).trees) :
    Invoked (from_ o s) ((invoked o s n mem d).core o.core) mem
      (lastEnd (scheduleRuns (insertRun ⟨o.core, treeIssue o s, n, treeIssue o s⟩ s.dev.trees.runs)) o.core) := by
  have hk := engineTake_invoked (k := o.core) (issue := treeIssue o s) (from_ o s) mem n d
  rwa [h, fetched_frame.1] at hk

theorem treeRun_loaded (h : Executes o s) (hrd : rdOf o = 0) {m : TModel}
    (hm : (fetched o s).trees.slots[Fin.ofNat 32 (fnOf o)] = some m) (hd : o.data = .ok)
    (ha : ((from_ o s).gr (raOf o)).toNat / 4 * 4 + 4 * m.nin ≤ 0x20000)
    (hb : ((from_ o s).gr (rbOf o)).toNat / 4 * 4 + 4 * (1 + m.nout) ≤ 0x20000) :
    ∃ t, exec (.treeRun o) s = .next t ∧ Invoked (from_ o s) (t.dev.core o.core)
      (putWords (from_ o s).dmem (((from_ o s).gr (rbOf o)).toNat / 4 * 4) (runResult o s m).1)
      (lastEnd (scheduleRuns (insertRun ⟨o.core, treeIssue o s, runCycles o s m, treeIssue o s⟩ s.dev.trees.runs)) o.core) := by
  refine ⟨_, exec_treeRun_loaded h hrd hm hd ha hb rfl, ?_⟩
  have hk := invoked_core (o := o) (s := s) (runCycles o s m)
    (putWords (from_ o s).dmem (((from_ o s).gr (rbOf o)).toNat / 4 * 4) (runResult o s m).1)
    (d := (fetched o s).tickFree.tickFree) rfl
  dsimp only
  split
  · rw [raise_core]
    exact hk
  · exact hk

theorem treeRun_empty (h : Executes o s) (hrd : rdOf o = 0) (hm : (fetched o s).trees.slots[Fin.ofNat 32 (fnOf o)] = none)
    (hb : ((from_ o s).gr (rbOf o)).toNat / 4 * 4 + 4 ≤ 0x20000) (ha : ((from_ o s).gr (raOf o)).toNat / 4 * 4 ≤ 0x20000) :
    ∃ t, exec (.treeRun o) s = .next t ∧
      (t.dev.core o.core).dmem = (from_ o s).dmem.setWord (((from_ o s).gr (rbOf o)).toNat / 4 * 4) 4 ∧
      t.dev.flag TRE_STAT 1 = true ∧ (s.dev.pw.stopped = false → t.dev.flag (EVT_STICKY 5) 1 = true) ∧
      SameRegs (from_ o s) (t.dev.core o.core) ∧ (t.dev.core o.core).pc = (from_ o s).pc + 1 := by
  obtain ⟨hmem, hregs, hpc, -⟩ := invoked_core (o := o) (s := s) (treeCycles (fetched o s) (2 + 512))
    ((from_ o s).dmem.setWord (((from_ o s).gr (rbOf o)).toNat / 4 * 4) 4) (d := (fetched o s).tickFree) rfl
  refine ⟨_, exec_treeRun_empty h hrd hm hb ha, ?_, ?_, fun hs => raise_flag (e := 161) (by decide) ?_, ?_, ?_⟩
  · rw [raise_core]
    exact hmem
  · rw [Dev.flag, raise_reg (offEvents_of_block (by decide) (by decide)), Dev.flag_setFlag, bit_setBit_same (by decide)]
  · rw [Dev.setFlag_pw, invoked, engineTake_pw, Dev.setCore_pw, Dev.tickFree_pw, fetched_frame.2, hs]
  · rw [raise_core]
    exact hregs
  · rw [raise_core]
    exact hpc

end TreeRun

/-! ## The load of tree models (R247 to R249) -/

section TreeLoad
variable {s : State}

theorem exec_treeLoad (h : ticking s.dev = true) : exec .treeLoad s = .next { s with dev := treeLoad s.dev } := by
  have he : exec .treeLoad s = atEdge treeLoad s := rfl
  rw [he, atEdge, if_pos h]

theorem treeLoad_busy {d : Dev} (h : d.trees.loading.isSome = true) : treeLoad d = Dev.setFlag TRE_LDSTAT 31 true d := by
  simp only [treeLoad, h, if_true]

/-- TRE_LDSTAT as a load begins: SLOT, no code, STATE 1. -/
theorem treeLoad_start {d : Dev} (h : d.trees.loading = none) :
    (treeLoad d).trees = { d.trees with loading := some ⟨bits (d.out 0x218C) 8 4, bit (d.out 0x218C) 1,
      (d.reg TRE_LDADDR).toNat, (d.reg TRE_LDLEN).toNat, d.fld TRE_LDBASE 17 0⟩ } ∧
    (treeLoad d).fld TRE_LDSTAT 1 0 = 1 ∧ (treeLoad d).fld TRE_LDSTAT 15 8 = 0 ∧ (treeLoad d).sram = d.sram := by
  have hreg : (treeLoad d).reg TRE_LDSTAT =
      setBits (setBits (setBits (d.reg TRE_LDSTAT) 20 16 (bits (d.out 0x218C) 8 4)) 15 8 0) 1 0 1 := by
    simp only [treeLoad, h, Option.isSome_none, Bool.false_eq_true, if_false]
    exact (Dev.reg_setReg d _ _ _).trans (if_pos rfl)
  refine ⟨?_, ?_, ?_, ?_⟩
  · simp only [treeLoad, h, Option.isSome_none, Bool.false_eq_true, if_false]
  · rw [Dev.fld, hreg, bits_setBits_same (by decide)]
    decide
  · rw [Dev.fld, hreg, bits_setBits_other (by decide), bits_setBits_same (by decide)]
    decide
  · simp only [treeLoad, h, Option.isSome_none, Bool.false_eq_true, if_false]
    rfl

/-- The codes of a refused load are those of R248. -/
theorem loadCheck_code {d : Dev} {ld : TLoad} {ue : Bool} {code : Nat} (h : loadCheck d ld ue = .inl code) : code ≤ 6 := by
  unfold loadCheck at h
  dsimp only at h
  repeat' split at h
  all_goals cases h
  all_goals decide

theorem exec_treeLoadEnd (ue : Bool) (h : s.dev.trees.accepted = none) :
    exec (.treeLoadEnd ue) s = .next { s with dev := treeLoadEnd ue s.dev } := by
  have he : exec (.treeLoadEnd ue) s = execTreeLoadEnd ue s := rfl
  rw [he, execTreeLoadEnd, if_neg (by simp [h])]

/-- The end of a refused load shows its code. -/
theorem treeLoadEnd_refused {d : Dev} {ld : TLoad} {ue : Bool} {code : Nat} (hl : d.trees.loading = some ld)
    (hc : loadCheck d ld ue = .inl code) : (treeLoadEnd ue d).trees = { d.trees with loading := none } ∧
      (treeLoadEnd ue d).fld TRE_LDSTAT 1 0 = 3 ∧ (treeLoadEnd ue d).fld TRE_LDSTAT 15 8 = code ∧
      (treeLoadEnd ue d).sram = d.sram := by
  have he : treeLoadEnd ue d = raise 163 (({ d with trees := { d.trees with loading := none } } : Dev).setReg TRE_LDSTAT
      (setBits (setBits (d.reg TRE_LDSTAT) 15 8 code) 1 0 3)) := by
    simp only [treeLoadEnd, hl, hc]
    rfl
  have hreg : (treeLoadEnd ue d).reg TRE_LDSTAT = setBits (setBits (d.reg TRE_LDSTAT) 15 8 code) 1 0 3 := by
    rw [he, raise_reg (offEvents_of_block (by decide) (by decide)), Dev.reg_setReg, if_pos rfl]
  have hlt : code < 2 ^ (15 + 1 - 8) := by
    have := loadCheck_code hc
    omega
  have hframe : (treeLoadEnd ue d).trees = { d.trees with loading := none } ∧ (treeLoadEnd ue d).sram = d.sram := by
    obtain ⟨r, v, m, hr⟩ := raise_frame 163 (({ d with trees := { d.trees with loading := none } } : Dev).setReg TRE_LDSTAT
      (setBits (setBits (d.reg TRE_LDSTAT) 15 8 code) 1 0 3))
    rw [he, hr]
    exact ⟨rfl, rfl⟩
  refine ⟨hframe.1, ?_, ?_, hframe.2⟩
  · rw [Dev.fld, hreg, bits_setBits_same (by decide)]
    decide
  · rw [Dev.fld, hreg, bits_setBits_other (by decide), bits_setBits_same (by decide), Nat.mod_eq_of_lt hlt]

/-- The end of a load that passes leaves the model for the next committing edge. -/
theorem treeLoadEnd_accepted {d : Dev} {ld : TLoad} {ue : Bool} {m : TModel} (hl : d.trees.loading = some ld)
    (hc : loadCheck d ld ue = .inr m) : (treeLoadEnd ue d).trees.accepted = some (ld.slot, m) ∧
      (treeLoadEnd ue d).trees.slots = d.trees.slots ∧ (treeLoadEnd ue d).regs = d.regs := by
  simp only [treeLoadEnd, hl, hc, and_self]

/-- The registers of a loaded slot. -/
theorem slotRegs_some {d : Dev} {i : Fin 32} {m : TModel} (h : d.trees.slots[i] = some m) :
    slotRegs i d = Dev.setFlag TRE_LOADED i true ((((d.setReg (TRE_S_BASE i)
      (word (m.base + (m.nout - 1) * 2 ^ 20 + m.link * 2 ^ 24))).setReg (TRE_S_SIZE i) (word m.words)).setReg
      (TRE_S_COST i) (word m.cost)).setReg (TRE_S_ID i) m.id) := by
  simp only [slotRegs, h]

theorem slotRegs_loaded {d : Dev} {i : Fin 32} {m : TModel} (h : d.trees.slots[i] = some m) :
    (slotRegs i d).flag TRE_LOADED i = true := by
  rw [slotRegs_some h, Dev.flag, Dev.flag_setFlag, bit_setBit_same i.isLt]

theorem slotRegs_id {d : Dev} {i : Fin 32} {m : TModel} (h : d.trees.slots[i] = some m) :
    (slotRegs i d).reg (TRE_S_ID i) = m.id := by
  have hne : TRE_S_ID i ≠ TRE_LOADED := by unfold TRE_S_ID TRE_LOADED; omega
  rw [slotRegs_some h, Dev.reg_setFlag_other _ _ _ _ _ hne, Dev.reg_setReg]
  exact if_pos (Eq.refl (TRE_S_ID i))

theorem slotRegs_trees {d : Dev} {i : Fin 32} {m : TModel} (h : d.trees.slots[i] = some m) :
    (slotRegs i d).trees = d.trees := by
  rw [slotRegs_some h, Dev.setFlag_trees, Dev.setReg_trees, Dev.setReg_trees, Dev.setReg_trees, Dev.setReg_trees]

/-- A model in its slot, which the slot's registers show. -/
theorem setSlot_show (i : Fin 32) (m : TModel) (d : Dev) :
    (setSlot i (some m) d).flag TRE_LOADED i = true ∧ (setSlot i (some m) d).reg (TRE_S_ID i) = m.id ∧
      (setSlot i (some m) d).trees = { d.trees with slots := d.trees.slots.set i (some m) } := by
  have h : ({ d with trees := { d.trees with slots := d.trees.slots.set i (some m) } } : Dev).trees.slots[i] = some m :=
    Vector.getElem_set_self i.isLt
  exact ⟨slotRegs_loaded h, slotRegs_id h, slotRegs_trees h⟩

theorem raise_trees (e : Nat) (d : Dev) : (raise e d).trees = d.trees := by
  obtain ⟨r, v, m, he⟩ := raise_frame e d
  rw [he]

/-- At the edge the load ends, once the slot of the accepted model is filled. -/
def loadPlaced (id : Word) (d : Dev) : Dev :=
  let d := { d with trees := { d.trees with loading := none, accepted := none } }
  raise 162 ((d.setReg TRE_LDSTAT (setBits (d.reg TRE_LDSTAT) 1 0 2)).setOut 0x210C id)

theorem modelPlace_eq {d : Dev} {i : Fin 32} {m : TModel} (h : d.trees.accepted = some (i.val, m)) :
    modelPlace d = loadPlaced m.id (setSlot i (some m) d) := by
  have hi : Fin.ofNat 32 i.val = i := Fin.ext (Nat.mod_eq_of_lt i.isLt)
  simp only [modelPlace, h, hi]
  rfl

theorem loadPlaced_trees (id : Word) (d : Dev) :
    (loadPlaced id d).trees = { d.trees with loading := none, accepted := none } := by
  rw [loadPlaced, raise_trees]
  rfl

theorem loadPlaced_reg {a : Nat} (h : OffEvents a) (id : Word) (d : Dev) :
    (loadPlaced id d).reg a = if a = TRE_LDSTAT then setBits (d.reg TRE_LDSTAT) 1 0 2 else d.reg a := by
  rw [loadPlaced, raise_reg h, Dev.reg_congr (Dev.setOut_regs _ _ _), Dev.reg_setReg]
  rfl

/-- The accepted model fills its slot at the edge. -/
theorem modelPlace_show {d : Dev} {i : Fin 32} {m : TModel} (h : d.trees.accepted = some (i.val, m)) :
    (modelPlace d).trees.slots = d.trees.slots.set i (some m) ∧ (modelPlace d).trees.loading = none ∧
      (modelPlace d).fld TRE_LDSTAT 1 0 = 2 ∧ (modelPlace d).flag TRE_LOADED i = true ∧ (modelPlace d).reg (TRE_S_ID i) = m.id := by
  obtain ⟨hflag, hid, htrees⟩ := setSlot_show i m d
  have hoff : OffEvents (TRE_S_ID i) := offEvents_of_block (by unfold TRE_S_ID; omega) (by unfold TRE_S_ID; omega)
  have hne : TRE_S_ID i ≠ TRE_LDSTAT := by unfold TRE_S_ID TRE_LDSTAT; omega
  rw [modelPlace_eq h, loadPlaced_trees, htrees]
  refine ⟨rfl, rfl, ?_, ?_, ?_⟩
  · rw [Dev.fld, loadPlaced_reg (offEvents_of_block (by decide) (by decide)), if_pos rfl, bits_setBits_same (by decide)]
    decide
  · rw [Dev.flag, loadPlaced_reg (offEvents_of_block (by decide) (by decide)), if_neg (by decide)]
    exact hflag
  · rw [loadPlaced_reg hoff, if_neg hne, hid]

end TreeLoad

/-- Settles O27: the engine's order gives the end of the newest invocation of a core, and a load's state goes by its check. -/
theorem trees : Obligations.Trees := by
  unfold Obligations.Trees
  refine ⟨fun o s h hrd => ⟨fun m hm hd ha hb => ?_, fun hm hb ha => treeRun_empty h hrd hm hb ha⟩,
    fun s => ⟨fun ht hl => ?_, fun ht hl => ?_, fun ld ue code hl ha hc => ?_, fun ld ue m hl ha hc => ?_,
      fun i m ha => modelPlace_show ha⟩⟩
  · obtain ⟨t, ht, hmem, hregs, hpc, hcyc⟩ := treeRun_loaded h hrd hm hd ha hb
    obtain ⟨hn1, hn2⟩ : 1 ≤ runCycles o s m ∧ runCycles o s m ≤ 2 + m.cost := treeCycles_bounds _ (by omega)
    refine ⟨t, (runResult o s m).1, (runResult o s m).2, ht, ?_, hmem, hregs, hpc, ?_, fun hfirst => ?_,
      fun r hr hlow he h0 h1 => ?_⟩
    · rw [runResult, fetched_frame.1]
    · have hlt := lt_lastEnd_insertRun o.core (issue := treeIssue o s) hn1 s.dev.trees.runs
      rw [hcyc]
      unfold treeIssue at hlt ⊢
      omega
    · exact ⟨runCycles o s m, hn1, hn2, hcyc.trans (lastEnd_insertRun_first o.core (treeIssue o s) _ hfirst)⟩
    · rw [hr] at hcyc
      exact ⟨runCycles o s m, hn1, hn2, hcyc.trans (lastEnd_insertRun_behind o.core hn1 hlow he h0 h1)⟩
  · exact ⟨_, exec_treeLoad ht, treeLoad_start hl⟩
  · exact ⟨_, exec_treeLoad ht, by rw [treeLoad_busy hl]; exact setReg_setsReg _ _ _⟩
  · exact ⟨_, exec_treeLoadEnd ue ha, treeLoadEnd_refused hl hc⟩
  · exact ⟨_, exec_treeLoadEnd ue ha, treeLoadEnd_accepted hl hc⟩

end Sys2Proof.Proofs
end

section
/-! PROOFS. Every command answers a next state, and time never runs back (R48). -/
namespace Sys2Proof.Proofs
open Sys2Proof Sys2Proof.Machine Sys2Proof.Claims

/-- Every command answers a next state, to which its row advances the machine. -/
theorem exec_advances (c : Instr) (s : State) : ∃ t, exec c s = .next t ∧ Advances s t :=
  match c with
  | .tickEdge vote => execTickEdge_adv vote s
  | .fractionalEdge idx => execFractionalEdge_adv idx s
  | .slip p => execSlip_adv p s
  | .pkclr p => execPkclr_adv p s
  | .tckPeriodWrite p v => execTckPeriodWrite_adv p v s
  | .tckCountLoRead r => execTckCountLoRead_adv r s
  | .tckEdgetsLoRead r => execTckEdgetsLoRead_adv r s
  | .tckTsLoRead r => execTckTsLoRead_adv r s
  | .heldWtWriteComplete p => execHeldWtWriteComplete_adv p s
  | .registerWrite p addr size v => execRegisterWrite_adv p addr size v s
  | .stickyClear p addr v => execStickyClear_adv p addr v s
  | .hostMemoryWrite p addr size v => execHostMemoryWrite_adv p addr size v s
  | .hostInstructionWrite p addr size v => execHostInstructionWrite_adv p addr size v s
  | .hostCellarWrite p addr size v verify => execHostCellarWrite_adv p addr size v verify s
  | .nop o => execNop_adv o s
  | .add o => execAdd_adv o s
  | .addi o => execAddi_adv o s
  | .sub o => execSub_adv o s
  | .adds o => execAdds_adv o s
  | .subs o => execSubs_adv o s
  | .mul o => execMul_adv o s
  | .mulh o => execMulh_adv o s
  | .div o => execDiv_adv o s
  | .rem o => execRem_adv o s
  | .and o => execAnd_adv o s
  | .or o => execOr_adv o s
  | .xor o => execXor_adv o s
  | .andi o => execAndi_adv o s
  | .ori o => execOri_adv o s
  | .xori o => execXori_adv o s
  | .shl o => execShl_adv o s
  | .shr o => execShr_adv o s
  | .sar o => execSar_adv o s
  | .shi o => execShi_adv o s
  | .rot o => execRot_adv o s
  | .min o => execMin_adv o s
  | .max o => execMax_adv o s
  | .abs o => execAbs_adv o s
  | .clz o => execClz_adv o s
  | .popc o => execPopc_adv o s
  | .bfx o => execBfx_adv o s
  | .bfi o => execBfi_adv o s
  | .clamp o => execClamp_adv o s
  | .sel o => execSel_adv o s
  | .movi o => execMovi_adv o s
  | .ldc o => execLdc_adv o s
  | .cmp o => execCmp_adv o s
  | .cmpi o => execCmpi_adv o s
  | .fcmp o => execFcmp_adv o s
  | .plog o => execPlog_adv o s
  | .pmov o => execPmov_adv o s
  | .tst o => execTst_adv o s
  | .mac o => execMac_adv o s
  | .mach o => execMach_adv o s
  | .aclr o => execAclr_adv o s
  | .aset o => execAset_adv o s
  | .aext o => execAext_adv o s
  | .aadd o => execAadd_adv o s
  | .ashl o => execAshl_adv o s
  | .amov o => execAmov_adv o s
  | .fadd o => execFadd_adv o s
  | .fsub o => execFsub_adv o s
  | .fmul o => execFmul_adv o s
  | .fma o => execFma_adv o s
  | .fdiv o => execFdiv_adv o s
  | .fsqrt o => execFsqrt_adv o s
  | .fmin o => execFmin_adv o s
  | .fmax o => execFmax_adv o s
  | .fabs o => execFabs_adv o s
  | .fcvt o => execFcvt_adv o s
  | .fmov o => execFmov_adv o s
  | .fclamp o => execFclamp_adv o s
  | .fldc o => execFldc_adv o s
  | .frsq o => execFrsq_adv o s
  | .fsc o => execFsc_adv o s
  | .ldw o => execLdw_adv o s
  | .ldh o => execLdh_adv o s
  | .ldhu o => execLdhu_adv o s
  | .ldb o => execLdb_adv o s
  | .ldbu o => execLdbu_adv o s
  | .ldd o => execLdd_adv o s
  | .stw o => execStw_adv o s
  | .sth o => execSth_adv o s
  | .stb o => execStb_adv o s
  | .std o => execStd_adv o s
  | .fld o => execFld_adv o s
  | .fst o => execFst_adv o s
  | .ldsw o => execLdsw_adv o s
  | .ldsd o => execLdsd_adv o s
  | .stsw o => execStsw_adv o s
  | .stsd o => execStsd_adv o s
  | .flds o => execFlds_adv o s
  | .fsts o => execFsts_adv o s
  | .pin o => execPin_adv o s
  | .pout o => execPout_adv o s
  | .mbw o => execMbw_adv o s
  | .mbr o => execMbr_adv o s
  | .mbs o => execMbs_adv o s
  | .cart o => execCart_adv o s
  | .ctst o => execCtst_adv o s
  | .treeRun o => execTreeRun_adv o s
  | .cld o => execCld_adv o s
  | .ckb o => execCkb_adv o s
  | .ckw o => execCkw_adv o s
  | .ckc o => execCkc_adv o s
  | .jmp o => execJmp_adv o s
  | .call o => execCall_adv o s
  | .ret o => execRet_adv o s
  | .loop o => execLoop_adv o s
  | .loopr o => execLoopr_adv o s
  | .endl o => execEndl_adv o s
  | .btab o => execBtab_adv o s
  | .tend o => execTend_adv o s
  | .rds o => execRds_adv o s
  | .wrs o => execWrs_adv o s
  | .evs o => execEvs_adv o s
  | .loadCommand p v => execLoadCommand_adv p v s
  | .cartDone core idx err => execCartDone_adv core idx err s
  | .cartLanding core idx => execCartLanding_adv core idx s
  | .reinsReq p contested => execReinsReq_adv p contested s
  | .reinsRel p => execReinsRel_adv p s
  | .reinsTake p contested => execReinsTake_adv p contested s
  | .heartbeat p => execHeartbeat_adv p s
  | .doorbell p v => execDoorbell_adv p v s
  | .cplheadWrite p v => execCplheadWrite_adv p v s
  | .commandConsume p => execCommandConsume_adv p s
  | .cmdNop p => execCmdNop_adv p s
  | .rd32 p => execRd32_adv p s
  | .wr32 p => execWr32_adv p s
  | .wrat p => execWrat_adv p s
  | .rdat p => execRdat_adv p s
  | .wratAccept p => execWratAccept_adv p s
  | .rdatPerform p => execRdatPerform_adv p s
  | .qspiWrite p offset words => execQspiWrite_adv p offset words s
  | .qspiRead p offset n => execQspiRead_adv p offset n s
  | .qspiReadTimeout p => execQspiReadTimeout_adv p s
  | .setwin p v => execSetwin_adv p v s
  | .vecackWrite p v => execVecackWrite_adv p v s
  | .cplModerationEnd p => execCplModerationEnd_adv p s
  | .msixSend p v => execMsixSend_adv p v s
  | .perst p => execPerst_adv p s
  | .modeRequest req => execModeRequest_adv req s
  | .halt event detail => execHalt_adv event detail s
  | .softwareReset p v => execSoftwareReset_adv p v s
  | .rstNPulse ns straps => execRstNPulse_adv ns straps s
  | .pgoodFall straps => execPgoodFall_adv straps s
  | .startUp env => execStartUp_adv env s
  | .wake causes stopTu => execWake_adv causes stopTu s
  | .axisEnable n => execAxisEnable_adv n s
  | .axisDisable n => execAxisDisable_adv n s
  | .qstop n => execQstop_adv n s
  | .gearMode n => execGearMode_adv n s
  | .camArm n => execCamArm_adv n s
  | .segpush n => execSegpush_adv n s
  | .flush n => execFlush_adv n s
  | .segmentEnd g => execSegmentEnd_adv g s
  | .limitInput n limP limN home => execLimitInput_adv n limP limN home s
  | .stepPulse n ofs => execStepPulse_adv n ofs s
  | .blindHoldEnd n => execBlindHoldEnd_adv n s
  | .islandEdgeFrame f => execIslandEdgeFrame_adv f s
  | .stoppedHeartbeat crcOk => execStoppedHeartbeat_adv crcOk s
  | .configSend p v => execConfigSend_adv p v s
  | .dioSample idx level => execDioSample_adv idx level s
  | .fieldReport r => execFieldReport_adv r s
  | .dioOverload idx => execDioOverload_adv idx s
  | .dfclr mask => execDfclr_adv mask s
  | .aoCompliance j => execAoCompliance_adv j s
  | .aoThermalShutdown j => execAoThermalShutdown_adv j s
  | .fclr j tempC => execFclr_adv j tempC s
  | .aiSample k reading burnHot => execAiSample_adv k reading burnHot s
  | .aiProtEnd k => execAiProtEnd_adv k s
  | .fieldUndervoltage lost => execFieldUndervoltage_adv lost s
  | .foldBack acts => execFoldBack_adv acts s
  | .conversion v cin exOpen refDiff => execConversion_adv v cin exOpen refDiff s
  | .tendrilSlot downOk => execTendrilSlot_adv downOk s
  | .uplinkReceive ok mv temp => execUplinkReceive_adv ok mv temp s
  | .setptWrite v => execSetptWrite_adv v s
  | .nvWrite p => execNvWrite_adv p s
  | .nvRead p => execNvRead_adv p s
  | .nvTransferEnd e => execNvTransferEnd_adv e s
  | .hartRequest preambles parityOk frame => execHartRequest_adv preambles parityOk frame s
  | .hartReplySend elapsedMs => execHartReplySend_adv elapsedMs s
  | .harnessCycle sa sb trouble => execHarnessCycle_adv sa sb trouble s
  | .testPulse x two => execTestPulse_adv x two s
  | .outputDip x low => execOutputDip_adv x low s
  | .discrepancyTimeout f => execDiscrepancyTimeout_adv f s
  | .synchronismTimeout f => execSynchronismTimeout_adv f s
  | .harnessReset r => execHarnessReset_adv r s
  | .statusFrameReceive crcOk => execStatusFrameReceive_adv crcOk s
  | .sealSend p v => execSealSend_adv p v s
  | .proposalReceive transferOk => execProposalReceive_adv transferOk s
  | .configActivate heldMs seenByBoth => execConfigActivate_adv heldMs seenByBoth s
  | .configWriteEnd agree => execConfigWriteEnd_adv agree s
  | .vsafePowerUp e => execVsafePowerUp_adv e s
  | .hqCount q a ph => execHqCount_adv q a ph s
  | .coilFault b => execCoilFault_adv b s
  | .brakeDue b => execBrakeDue_adv b s
  | .brakeOverdue b => execBrakeOverdue_adv b s
  | .brakeTestStart b => execBrakeTestStart_adv b s
  | .caskApply verify => execCaskApply_adv verify s
  | .logResume p => execLogResume_adv p s
  | .spillclr p v => execSpillclr_adv p v s
  | .pop v => execPop_adv v s
  | .holdfClear p => execHoldfClear_adv p s
  | .fpdisClear p => execFpdisClear_adv p s
  | .swset v => execSwset_adv v s
  | .tempWarning tempC => execTempWarning_adv tempC s
  | .tempCritical tempC => execTempCritical_adv tempC s
  | .clockLoss which => execClockLoss_adv which s
  | .dramEccRead addr uncorrectable => execDramEccRead_adv addr uncorrectable s
  | .hostRead p bar2 addr size ecc => execHostRead_adv p bar2 addr size ecc s
  | .hostDramWrite p addr size v => execHostDramWrite_adv p addr size v s
  | .pcieLinkChange p up => execPcieLinkChange_adv p up s
  | .pcieConfigRequest p req => execPcieConfigRequest_adv p req s
  | .quadEdge c a b l => execQuadEdge_adv c a b l s
  | .hallStep c uvw l => execHallStep_adv c uvw l s
  | .zEdge z => execZEdge_adv z s
  | .zeroSpeedTimeout c => execZeroSpeedTimeout_adv c s
  | .ssiFrameStart c => execSsiFrameStart_adv c s
  | .serialFrameEnd c frame => execSerialFrameEnd_adv c frame s
  | .rs485Request c => execRs485Request_adv c s
  | .rs485Timeout c => execRs485Timeout_adv c s
  | .serialStaleTimeout c => execSerialStaleTimeout_adv c s
  | .sincosSample c sn cs quadrants fast ts => execSincosSample_adv c sn cs quadrants fast ts s
  | .capEdge j rising l => execCapEdge_adv j rising l s
  | .latchTimeout j => execLatchTimeout_adv j s
  | .setpos c => execSetpos_adv c s
  | .refset c => execRefset_adv c s
  | .zarm c => execZarm_adv c s
  | .rearm j => execRearm_adv j s
  | .fbTypeChange p c v => execFbTypeChange_adv p c v s
  | .controlPass n bits => execControlPass_adv n bits s
  | .chopperPass n bits => execChopperPass_adv n bits s
  | .chopperModeTimeout n => execChopperModeTimeout_adv n s
  | .engineOverrun src => execEngineOverrun_adv src s
  | .carrierValley n => execCarrierValley_adv n s
  | .overcurrentTrip ch amps => execOvercurrentTrip_adv ch amps s
  | .sdError ch => execSdError_adv ch s
  | .frset n => execFrset_adv n s
  | .frclr n => execFrclr_adv n s
  | .cgset n => execCgset_adv n s
  | .cgclr n => execCgclr_adv n s
  | .tableWrite n v => execTableWrite_adv n v s
  | .gainWrite n offset v => execGainWrite_adv n offset v s
  | .jobGo p => execJobGo_adv p s
  | .jobAbort p => execJobAbort_adv p s
  | .rowFetch p err => execRowFetch_adv p err s
  | .indexDue p => execIndexDue_adv p s
  | .delayedFiring p => execDelayedFiring_adv p s
  | .firingEnd p => execFiringEnd_adv p s
  | .headFault p low => execHeadFault_adv p low s
  | .densityWrite p v => execDensityWrite_adv p v s
  | .sliceWidthWrite p v => execSliceWidthWrite_adv p v s
  | .ratioWrite port p v => execRatioWrite_adv port p v s
  | .frameStart p f => execFrameStart_adv p f s
  | .frameEnd p f => execFrameEnd_adv p f s
  | .frameReady p => execFrameReady_adv p s
  | .graphRun g => execGraphRun_adv g s
  | .graphStop g => execGraphStop_adv g s
  | .qcycWrite g v => execQcycWrite_adv g v s
  | .confminWrite g v => execConfminWrite_adv g v s
  | .missingTimeout g => execMissingTimeout_adv g s
  | .handoffWrite g => execHandoffWrite_adv g s
  | .handoffExpiry entry => execHandoffExpiry_adv entry s
  | .hoffrdWrite p v => execHoffrdWrite_adv p v s
  | .treeLoadEnd sourceUe => execTreeLoadEnd_adv sourceUe s
  | .trimGo v => execTrimGo_adv v s
  | .trimStepEnd code result => execTrimStepEnd_adv code result s
  | .trimRestoreWrite p addr v => execTrimRestoreWrite_adv p addr v s
  | .idRead mask => execIdRead_adv mask s
  | .idReadEnd b wire => execIdReadEnd_adv b wire s
  | .idLanding b => execIdLanding_adv b s
  | .monInfo f => execMonInfo_adv f s
  | .monRead f => execMonRead_adv f s
  | .monWrite f => execMonWrite_adv f s
  | .monCore f => execMonCore_adv f s
  | .monUnlock f => execMonUnlock_adv f s
  | .monClose f => execMonClose_adv f s
  | .monHold f => execMonHold_adv f s
  | .monStep f => execMonStep_adv f s
  | .monFree f => execMonFree_adv f s
  | .monTrace f => execMonTrace_adv f s
  | .monBaud f => execMonBaud_adv f s
  | .monCodeWrite p v => execMonCodeWrite_adv p v s
  | .slipLimit => execSlipLimit_adv s
  | .computeStart => execComputeStart_adv s
  | .stageStart => execStageStart_adv s
  | .loadVerifyEnd => execLoadVerifyEnd_adv s
  | .hbTimeout => execHbTimeout_adv s
  | .wakeTimerExpiry => execWakeTimerExpiry_adv s
  | .harnessLinkLoss => execHarnessLinkLoss_adv s
  | .treeLoad => execTreeLoad_adv s
  | .heartbeatAck => execHeartbeatAck_adv s
  | .configResend => execConfigResend_adv s
  | .totalOverload => execTotalOverload_adv s
  | .resume => execResume_adv s
  | .silenceTimeout => execSilenceTimeout_adv s
  | .immediateSafeMarker => execImmediateSafeMarker_adv s
  | .islandPowerUp => execIslandPowerUp_adv s
  | .tendrilStart => execTendrilStart_adv s
  | .brownOut => execBrownOut_adv s
  | .sourceSelect => execSourceSelect_adv s
  | .tendrilLinkLoss => execTendrilLinkLoss_adv s
  | .hartRecordLanding => execHartRecordLanding_adv s
  | .hartReplyGo => execHartReplyGo_adv s
  | .hrstTooLong => execHrstTooLong_adv s
  | .statusFrame => execStatusFrame_adv s
  | .pendingExpiry => execPendingExpiry_adv s
  | .vsafeLow => execVsafeLow_adv s
  | .testHoldEnd => execTestHoldEnd_adv s
  | .testAckTimeout => execTestAckTimeout_adv s
  | .commitWordWrite => execCommitWordWrite_adv s
  | .faultPulseEnd => execFaultPulseEnd_adv s
  | .dramStall => execDramStall_adv s
  | .supplyFault => execSupplyFault_adv s
  | .trimNext => execTrimNext_adv s
  | .trimAbort => execTrimAbort_adv s
  | .trimPointReached => execTrimPointReached_adv s
  | .trimPointTimeout => execTrimPointTimeout_adv s
  | .monStepEnd => execMonStepEnd_adv s
  | .monFrameGap => execMonFrameGap_adv s
  | .monFrameError => execMonFrameError_adv s
  | .monIdleTimeout => execMonIdleTimeout_adv s
  | .vfieldRecovery => execVfieldRecovery_adv s
  | .vsafeRecovery => execVsafeRecovery_adv s

/-- Settles O60: the row of each command advances the machine. -/
theorem everyCommandAnswers : Obligations.EveryCommandAnswers := by
  unfold Obligations.EveryCommandAnswers
  intro c s
  obtain ⟨t, hexec, hadv⟩ := exec_advances c s
  exact ⟨t, hexec, hadv.dev.time, hadv.pending⟩

end Sys2Proof.Proofs
end

section
/-! PROOFS. The commands of the tick unit (02_tick.md): SLIP and PKCLR as writes of TCK_CMD (R38), and TCK_PERIOD (R29, R30). -/
namespace Sys2Proof.Proofs
open Sys2Proof Sys2Proof.Machine Sys2Proof.Claims

/-! ## The holder's write of a register of the tick unit -/

section TickUnit
variable {p : HostPort} {s : State}

theorem exec_slip : exec (.slip p) s = exec (.registerWrite p TCK_CMD .b4 ((1 : Word).setWidth 64)) s :=
  congrArg Host.Outcome.next (regRow_eq_memRow TCK_CMD 1)

theorem exec_pkclr : exec (.pkclr p) s = exec (.registerWrite p TCK_CMD .b4 ((2 : Word).setWidth 64)) s :=
  congrArg Host.Outcome.next (regRow_eq_memRow TCK_CMD 2)

theorem regAddr_tckCmd : RegAddr TCK_CMD := by unfold RegAddr TCK_CMD; omega

theorem regAddr_tckPeriod : RegAddr TCK_PERIOD := by unfold RegAddr TCK_PERIOD; omega

/-- The holder's write of a register that no port owns and that is no part of the arbiter does what the register's rule says. -/
theorem registerWrite_ruled (hs : Holds p s) {a : Nat} (ha : RegAddr a) (ho : ownerOf a = none) (h1 : a ≠ HST_REINS)
    (h2 : a ≠ HST_HB) {v : Word} {c : Nat} {e : Dev} (hw : writeReg (.host p) (hrnDemand s.snap) a v s.dev = (c, e))
    (hr : e.ready = s.dev.ready) : exec (.registerWrite p a .b4 (v.setWidth 64)) s = .next { s with dev := e } := by
  refine registerWrite_completes hs.toServes ha (mustHold_of_room hs.room) (c := c) ?_ hr
  rw [loWord_setWidth, hostWriteReg_holder hs.holder ho h1 h2, hw]

/-- A write of TCK_CMD carries out its bits at once. -/
theorem registerWrite_tckCmd (hs : Holds p s) (v : Word) (hr : (tckCmd v s.dev).ready = s.dev.ready) :
    exec (.registerWrite p TCK_CMD .b4 (v.setWidth 64)) s = .next { s with dev := tckCmd v s.dev } :=
  registerWrite_ruled hs regAddr_tckCmd (by decide) (by decide) (by decide) (if_pos rfl) hr

/-! ## SLIP (R38) -/

theorem tckCmd_slip (d : Dev) : tckCmd 1 d = commandSlip d := rfl

/-- A slip commanded before Stage is of the running tick. -/
theorem commandSlip_running {d : Dev} (h : d.tick.phase = .capture ∨ d.tick.phase = .compute) :
    commandSlip d = { d with tick := { d.tick with slipCmd := true } } := by
  rcases h with h | h <;> simp only [commandSlip, h]

/-- A slip commanded later is of the next tick. -/
theorem commandSlip_next {d : Dev} (h : d.tick.phase = .stage ∨ d.tick.phase = .idle) :
    commandSlip d = { d with tick := { d.tick with slipNext := true } } := by
  rcases h with h | h <;> simp only [commandSlip, h]

theorem slip_commands (hs : Holds p s) : exec (.slip p) s = .next { s with dev := commandSlip s.dev } := by
  obtain ⟨t, ht⟩ := commandSlip_frame s.dev
  rw [exec_slip, registerWrite_tckCmd hs 1 (by rw [tckCmd_slip, ht]), tckCmd_slip]

/-! ## PKCLR -/

theorem tckCmd_pkclr (d : Dev) : tckCmd 2 d = peakClear d := rfl

theorem forAll_setReg_regs (n : Nat) (a : Nat → Nat) (v : Word) (d : Dev) :
    ∃ r, forAll n (fun k d => d.setReg (a k) v) d = { d with regs := r } := by
  induction n with
  | zero => exact ⟨d.regs, rfl⟩
  | succ n ih =>
    obtain ⟨r, hr⟩ := ih
    rw [forAll_succ, hr]
    exact ⟨_, rfl⟩

theorem peakClear_regs (d : Dev) : peakClear d = { d with regs := (peakClear d).regs } := by
  obtain ⟨r, hr⟩ := forAll_setReg_regs 6 TCK_PEAK 0 d
  rw [peakClear, hr]

theorem peakClear_reg (d : Dev) (a : Nat) : (peakClear d).reg a = if a ∈ (List.range 6).map TCK_PEAK then 0 else d.reg a := by
  have hr : List.range 6 = [0, 1, 2, 3, 4, 5] := by decide
  simp only [peakClear, forAll, hr, List.foldl_cons, List.foldl_nil, Dev.reg_setReg, List.map_cons, List.map_nil, List.mem_cons,
    List.not_mem_nil, or_false]
  grind

theorem pkclr_clears (hs : Holds p s) : exec (.pkclr p) s = .next { s with dev := peakClear s.dev } := by
  rw [exec_pkclr, registerWrite_tckCmd hs 2 (by rw [tckCmd_pkclr, peakClear_regs]), tckCmd_pkclr]

/-! ## TCK_PERIOD (R29, R30) -/

/-- In Commission the period is staged from 46,875 to 750,000, and is an error outside that range. -/
theorem writeReg_tckPeriod {d : Dev} (h : d.mode = .commission) (demand : Bool) (v : Word) :
    writeReg (.host p) demand TCK_PERIOD v d =
      if v.toNat < 46875 ∨ 750000 < v.toNat then (0, periodError d) else (0, stageHost (.host p) (.reg TCK_PERIOD v) d) := by
  have hrow : row? TCK_PERIOD = some ⟨0x01010000, 1, 0x1, 1, 0x1, 0x2DC6C, 0x0, 0x0, 0x0, 0xFFFFFFFF⟩ := by decide
  have hw : writeReg (.host p) demand TCK_PERIOD v d = stageReg (.host p) TCK_PERIOD v d := rfl
  have hl : axisLocked TCK_PERIOD d = false := rfl
  rw [hw, stageReg, hrow]
  simp [h, hl]

theorem tckPeriodWrite_completes (hs : Holds p s) {v : Word} {c : Nat} {e : Dev}
    (hw : writeReg (.host p) (hrnDemand s.snap) TCK_PERIOD v s.dev = (c, e)) (hr : e.ready = s.dev.ready) :
    exec (.tckPeriodWrite p v) s = .next { s with dev := e } := by
  rw [exec_tckPeriodWrite, registerWrite_ruled hs regAddr_tckPeriod (by decide) (by decide) (by decide) hw hr]

theorem tckStat_offEvents : OffEvents TCK_STAT := offEvents_of_block (by decide) (by decide)

/-- PERR stands, and nothing of the tick unit but TCK_STAT has changed. -/
theorem periodError_shows (d : Dev) : (periodError d).flag TCK_STAT 4 = true ∧ (periodError d).tick = d.tick ∧
    (periodError d).reg TCK_PERIOD = d.reg TCK_PERIOD ∧ (periodError d).ready = d.ready := by
  have hper : OffEvents TCK_PERIOD := offEvents_of_block (by decide) (by decide)
  obtain ⟨r, v, m, he⟩ := raise_frame 6 (Dev.setFlag TCK_STAT 4 true d)
  refine ⟨?_, by rw [periodError, he]; rfl, ?_, by rw [periodError, he]; rfl⟩
  · rw [Dev.flag, periodError, raise_reg tckStat_offEvents, Dev.flag_setFlag, bit_setBit_same (by decide)]
  · rw [periodError, raise_reg hper, Dev.reg_setFlag_other _ _ _ _ _ (by decide)]

end TickUnit

/-- Settles O12: each command is the holder's write of TCK_CMD or TCK_PERIOD, whose rule decides what it does. -/
theorem tickUnitCommands : Obligations.TickUnitCommands := by
  unfold Obligations.TickUnitCommands
  intro p s hs
  refine ⟨fun hph => ?_, fun hph => ?_, ⟨_, pkclr_clears hs, fun k hk => ?_, peakClear_regs s.dev, fun a ha => ?_⟩,
    fun v hm hlo hhi => ?_, fun v hm hout => ?_⟩
  · rw [slip_commands hs, commandSlip_running hph]
  · rw [slip_commands hs, commandSlip_next hph]
  · rw [peakClear_reg, if_pos (List.mem_map_of_mem (List.mem_range.mpr hk))]
  · rw [peakClear_reg, if_neg ha]
  · have hw := writeReg_tckPeriod (p := p) hm (hrnDemand s.snap) v
    rw [if_neg (by omega)] at hw
    exact tckPeriodWrite_completes hs hw (stageHost_ready _ _ _)
  · have hw := writeReg_tckPeriod (p := p) hm (hrnDemand s.snap) v
    rw [if_pos hout] at hw
    obtain ⟨hflag, htick, hper, hready⟩ := periodError_shows s.dev
    exact ⟨_, tckPeriodWrite_completes hs hw hready, hflag, htick, hper⟩

end Sys2Proof.Proofs
end

section
/-! PROOFS. Loads and stores of a core (03_limath.md): the address of an access (R63), what a register write leaves, local data
memory, and tick SRAM as committed and as staged (R34, R35). -/
namespace Sys2Proof.Proofs
open Sys2Proof Sys2Proof.Machine Sys2Proof.Claims

/-! ## Writes of the registers of a core (R50) -/

section Registers
variable {c : Core} {i rd : Nat}

theorem rdOf_lt (o : Lim) : rdOf o < 32 := Nat.mod_lt _ (by decide)

theorem fin_val_eq (n : Nat) [NeZero n] (h : i < n) : (Fin.ofNat n i).val = i := Nat.mod_eq_of_lt h

theorem gr_setG (hi : i < 32) (hrd : rd < 32) (v : Word) : (c.setG rd v).gr i = if i = rd ∧ i ≠ 0 then v else c.gr i := by
  by_cases h0 : rd = 0
  · have hn : ¬ (i = 0 ∧ i ≠ 0) := fun h => h.2 h.1
    simp only [Core.setG, h0, if_true, if_neg hn]
  · by_cases hz : i = 0
    · simp [Core.gr, hz]
    · simp only [Core.gr, Core.setG, h0, hz, if_false, Fin.getElem_fin, fin_val_eq 32 hi, fin_val_eq 32 hrd, ne_eq,
        not_false_eq_true, and_true, Vector.getElem_set, eq_comm (a := rd)]

theorem fr_setF (hi : i < 16) (hrd : rd < 16) (v : Word) : (c.setF rd v).fr i = if i = rd then v else c.fr i := by
  simp only [Core.fr, Core.setF, Fin.getElem_fin, fin_val_eq 16 hi, fin_val_eq 16 hrd, Vector.getElem_set, eq_comm (a := rd)]

/-- A write of a g register reaches that file alone. -/
theorem setG_frame (rd : Nat) (v : Word) (c : Core) : ∃ g, c.setG rd v = { c with g := g } := by
  unfold Core.setG
  split
  · exact ⟨c.g, rfl⟩
  · exact ⟨_, rfl⟩

variable (issue cost lat : Nat) (dsts : List Nat)

theorem or_word_zero (w : Word) : w = w ||| word 0 := BitVec.or_zero.symm

/-- An instruction that writes one g register and retires. -/
theorem onlyG_setG (hrd : rd < 32) (v : Word) : OnlyG c ((c.setG rd v).retire issue cost lat dsts) rd v 0 := by
  have hw : WritesG c ((c.setG rd v).retire issue cost lat dsts) rd v := fun i hi => gr_setG hi hrd v
  obtain ⟨g, hg⟩ := setG_frame rd v c
  rw [hg] at hw ⊢
  exact ⟨hw, or_word_zero c.cst, rfl, rfl, rfl, rfl, rfl, rfl, rfl, rfl, rfl, rfl, rfl, rfl, rfl, rfl, rfl⟩

/-- An instruction that writes one f register and retires. -/
theorem onlyF_setF (hrd : rd < 16) (v : Word) : OnlyF c ((c.setF rd v).retire issue cost lat dsts) rd v 0 :=
  ⟨fun _ hi => fr_setF hi hrd v, or_word_zero c.cst, rfl, rfl, rfl, rfl, rfl, rfl, rfl, rfl, rfl, rfl, rfl, rfl, rfl, rfl, rfl⟩

/-- An instruction that writes a pair of g registers and retires. -/
theorem writesPair_setG (hrd : rd < 32) (heven : rd % 2 = 0) (v : Nat) :
    WritesPair c (((c.setG rd (word v)).setG (rd + 1) (word (v / 0x100000000))).retire issue cost lat dsts) rd v := by
  have hw : ∀ i, i < 32 → ((c.setG rd (word v)).setG (rd + 1) (word (v / 0x100000000))).gr i =
      if i = 0 then 0 else if i = rd then word v else if i = rd + 1 then word (v / 0x100000000) else c.gr i := fun i hi => by
    rw [gr_setG hi (by omega), gr_setG hi hrd]
    by_cases hz : i = 0
    · simp [hz, Core.gr]
    · by_cases h1 : i = rd
      · simp [h1, h1 ▸ hz]
      · simp [hz, h1]
  obtain ⟨g, hg⟩ := setG_frame rd (word v) c
  rw [hg] at hw ⊢
  obtain ⟨g', hg'⟩ := setG_frame (rd + 1) (word (v / 0x100000000)) { c with g := g }
  rw [hg'] at hw ⊢
  exact ⟨hw, rfl, rfl, rfl, rfl, rfl, rfl, rfl, rfl, rfl, rfl, rfl, rfl, rfl, rfl, rfl, rfl⟩

/-- The program counter and the cycle of an instruction that writes a g or an f register and retires. -/
theorem retire_setG_next (v : Word) : ((c.setG rd v).retire issue cost lat dsts).pc = c.pc + 1 ∧
    ((c.setG rd v).retire issue cost lat dsts).cyc = issue + cost := by
  obtain ⟨g, hg⟩ := setG_frame rd v c
  rw [hg]
  exact ⟨rfl, rfl⟩

theorem retire_setF_next (v : Word) : ((c.setF rd v).retire issue cost lat dsts).pc = c.pc + 1 ∧
    ((c.setF rd v).retire issue cost lat dsts).cyc = issue + cost := ⟨rfl, rfl⟩

theorem retire_pair_next (v w : Word) (rd' : Nat) : (((c.setG rd v).setG rd' w).retire issue cost lat dsts).pc = c.pc + 1 ∧
    (((c.setG rd v).setG rd' w).retire issue cost lat dsts).cyc = issue + cost := by
  obtain ⟨g, hg⟩ := setG_frame rd v c
  rw [hg]
  exact retire_setG_next issue cost lat dsts w

end Registers

/-! ## Addresses and values of an access (R63) -/

section Address
variable (o : Lim) (c : Core) (n : Nat)

theorem effAddr_eq : effAddr o c n = ea o c n := by
  unfold effAddr ea wordI
  rw [BitVec.toNat_add, BitVec.toNat_ofInt]
  omega

theorem alignTo_eq (a : Nat) : alignTo n a = a / n * n := by
  have := Nat.div_add_mod' a n
  unfold alignTo
  omega

theorem alignTo_effAddr : alignTo n (effAddr o c n) = eaDown o c n := by
  rw [effAddr_eq, alignTo_eq, eaDown]

theorem wordI_signed (n v : Nat) : wordI (signed n v) = (BitVec.ofNat n v).signExtend 32 := by
  unfold wordI signed BitVec.signExtend
  rw [BitVec.toInt_eq_toNat_cond, BitVec.toNat_ofNat]

theorem dword_toNat (hi lo : Word) : (dword hi lo).toNat = lo.toNat + 0x100000000 * hi.toNat := by
  have hh := hi.isLt
  have hl := lo.isLt
  have hs : (hi.setWidth 64 <<< 32).toNat = hi.toNat <<< 32 := by
    rw [BitVec.toNat_shiftLeft, BitVec.toNat_setWidth, Nat.mod_eq_of_lt (a := hi.toNat) (by omega), Nat.shiftLeft_eq]
    omega
  have hw : (lo.setWidth 64).toNat = lo.toNat := by
    rw [BitVec.toNat_setWidth]
    omega
  rw [dword, BitVec.toNat_or, hs, hw, ← Nat.shiftLeft_add_eq_or_of_lt hl, Nat.shiftLeft_eq]
  omega

theorem pairVal_eq : pairVal o c = Claims.pairOf o c := dword_toNat _ _

theorem leBytes_getElem (v : Nat) {i : Nat} (h : i < (leBytes v n).length) : (leBytes v n)[i] = BitVec.ofNat 8 (v / 256 ^ i) := by
  induction n generalizing v i with
  | zero => simp [leBytes] at h
  | succ n ih =>
    cases i with
    | zero => simp [leBytes]
    | succ i =>
      rw [leBytes] at h
      simp only [leBytes, List.getElem_cons_succ]
      rw [ih (v / 256) (by simpa using h), Nat.div_div_eq_div_mul, ← Nat.pow_succ']

/-- A byte after a write of n bytes. -/
theorem byte_write (m : Memory) (a n v x : Nat) :
    (m.write a n v).byte x = if a ≤ x ∧ x < a + n then BitVec.ofNat 8 (v / 256 ^ (x - a)) else m.byte x := by
  have hiff : (a ≤ x ∧ x - a < (leBytes v n).length) ↔ (a ≤ x ∧ x < a + n) := by
    rw [leBytes_length]
    omega
  rw [Memory.write, Memory.byte_setBytes]
  split
  · next h => rw [if_pos (hiff.mp h), leBytes_getElem]
  · next h => rw [if_neg (fun hc => h (hiff.mpr hc))]

end Address

/-! ## Listed register fields (R55) -/

theorem okPair_of {o : Lim} (h : rdOf o % 2 = 0) : okPair o = true := decide_eq_true h

theorem okFrd_of {o : Lim} (h : rdOf o < 16) : okFrd o = true := decide_eq_true h

/-! ## What the fetch leaves -/

theorem fetched_sram (o : Lim) (s : State) : (fetched o s).sram = s.dev.sram := by
  unfold fetched limCec
  split
  · obtain ⟨f, r, v, m, he⟩ := fault_note_frame 22 (word (16 * o.core + 0)) (s.dev.setCore o.core ((s.dev.core o.core).sticky 128))
    rw [he]
    rfl
  · rfl

/-! ## Loads -/

section Load
variable {o : Lim} {s : State} {legal : Bool} {n : Nat}

/-- The cycle in which an instruction that reads g[ra] alone issues. -/
def loadIssue (o : Lim) (s : State) : Nat := (from_ o s).cyc + stallOf (from_ o s) [kg (raOf o)]

/-- The cycles that a load from tick SRAM takes. -/
def sramCost (o : Lim) (s : State) : Nat := 8 - (Config.sramEarly (fetched o s).freeCtr).val

theorem sramCost_bounds (o : Lim) (s : State) : 1 ≤ sramCost o s ∧ sramCost o s ≤ 8 := by
  have := (Config.sramEarly (fetched o s).freeCtr).isLt
  unfold sramCost
  omega

theorem dataExc_none {limit addr ecc : Nat} (ha : addr < limit) (hd : o.data ≠ .uncorrectable) : dataExc o limit addr ecc = 0 := by
  rw [dataExc, if_neg (Nat.not_le.mpr ha), if_neg hd]

/-- A load within local data memory reads its bytes and retires after 2 cycles. -/
theorem loadLocal_reads (h : Executes o s) (hl : legal = true) (ha : ea o (from_ o s) n < 0x20000) (hd : o.data ≠ .uncorrectable)
    (dsts : List Nat) (put : Core → Nat → Core) : loadLocal o legal n dsts put s = { s with dev := noted o 1 ((fetched o s).setCore
      o.core ((put (from_ o s) (localAt o s n)).retire (loadIssue o s) 2 2 dsts)) } := by
  have hfr : (fetched o s).core o.core = from_ o s := rfl
  have ha' : effAddr o (from_ o s) n < 0x20000 := by rwa [effAddr_eq]
  rw [loadLocal, limDev_on h hl]
  simp only [hfr, dataExc_none ha' hd, ne_eq, not_true_eq_false, if_false, alignTo_effAddr]
  rfl

/-- A load within tick SRAM reads its bytes as committed and retires after at most 8 cycles. -/
theorem loadSram_reads (h : Executes o s) (hl : legal = true) (ha : ea o (from_ o s) n < 0x400000) (hd : o.data ≠ .uncorrectable)
    (dsts : List Nat) (put : Core → Nat → Core) : loadSram o legal n dsts put s =
      afterSram o s n ((put (from_ o s) (sramAt o s n)).retire (loadIssue o s) (sramCost o s) (sramCost o s) dsts) := by
  have hfr : (fetched o s).core o.core = from_ o s := rfl
  have ha' : effAddr o (from_ o s) n < 0x400000 := by rwa [effAddr_eq]
  rw [loadSram, limDev_on h hl]
  simp only [hfr, dataExc_none ha' hd, ne_eq, not_true_eq_false, if_false, alignTo_effAddr, fetched_sram]
  rfl

/-- A load of one g register from local data memory. -/
theorem loadLocal_onlyG (h : Executes o s) (ha : ea o (from_ o s) n < 0x20000) (hd : o.data ≠ .uncorrectable) (val : Nat → Word)
    {i : Instr} (hi : exec i s = .next (loadLocal o true n [kg (rdOf o)] (fun c v => c.setG (rdOf o) (val v)) s)) :
    ∃ c', exec i s = .next { s with dev := noted o 1 ((fetched o s).setCore o.core c') } ∧
      OnlyG (from_ o s) c' (rdOf o) (val (localAt o s n)) 0 ∧ Retires (from_ o s) c' [kg (raOf o)] 2 := by
  rw [loadLocal_reads h rfl ha hd] at hi
  exact ⟨_, hi, onlyG_setG _ _ _ _ (rdOf_lt o) _, retire_setG_next _ _ _ _ _⟩

/-- The cycle after a load from tick SRAM. -/
theorem retiresEarly_of {c' : Core} (hpc : c'.pc = (from_ o s).pc + 1) (hcyc : c'.cyc = loadIssue o s + sramCost o s) :
    RetiresEarly o (from_ o s) c' := by
  obtain ⟨hlo, hhi⟩ := sramCost_bounds o s
  unfold loadIssue at hcyc
  exact ⟨hpc, by omega, by omega⟩

end Load

/-- Each load of one g register from local data memory puts its value into g[rd]. -/
theorem exec_loadRow {r : LoadRow} (hr : r ∈ loadRows) (o : Lim) (s : State) : exec (r.instr o) s =
    .next (loadLocal o true r.n [kg (rdOf o)] (fun c v => c.setG (rdOf o) (r.val v)) s) := by
  simp only [loadRows, List.mem_cons, List.not_mem_nil, or_false] at hr
  rcases hr with rfl | rfl | rfl | rfl | rfl
  · rfl
  · simp only [← wordI_signed]
    rfl
  · rfl
  · simp only [← wordI_signed]
    rfl
  · rfl

/-- Settles O6: a load within its memory puts the bytes at its rounded address into its register, and retires. -/
theorem loads : Obligations.Loads := by
  unfold Obligations.Loads
  refine ⟨⟨fun r hr o s h ha hd => loadLocal_onlyG h ha hd r.val (exec_loadRow hr o s), fun o s h ha hd he => ?_,
    fun o s h ha hd hf => ?_⟩, fun o s h ha hd => ?_, fun o s h ha hd he => ?_, fun o s h ha hd hf => ?_⟩
  · have hi : exec (.ldd o) s = .next (loadLocal o (okPair o) 8 [kg (rdOf o), kg (rdOf o + 1)] (putPair o) s) := rfl
    rw [loadLocal_reads h (okPair_of he) ha hd] at hi
    exact ⟨_, hi, writesPair_setG _ _ _ _ (rdOf_lt o) he _, retire_pair_next _ _ _ _ _ _ _⟩
  · have hi : exec (.fld o) s = .next (loadLocal o (okFrd o) 4 [kf (rdOf o)] (putF o) s) := rfl
    rw [loadLocal_reads h (okFrd_of hf) ha hd] at hi
    exact ⟨_, hi, onlyF_setF _ _ _ _ hf _, retire_setF_next _ _ _ _ _⟩
  · have hi : exec (.ldsw o) s = .next (loadSram o true 4 [kg (rdOf o)] (putG o) s) := rfl
    rw [loadSram_reads h rfl ha hd] at hi
    obtain ⟨hpc, hcyc⟩ := retire_setG_next (c := from_ o s) (rd := rdOf o) (loadIssue o s) (sramCost o s) (sramCost o s)
      [kg (rdOf o)] (word (sramAt o s 4))
    exact ⟨_, hi, onlyG_setG _ _ _ _ (rdOf_lt o) _, retiresEarly_of hpc hcyc⟩
  · have hi : exec (.ldsd o) s = .next (loadSram o (okPair o) 8 [kg (rdOf o), kg (rdOf o + 1)] (putPair o) s) := rfl
    rw [loadSram_reads h (okPair_of he) ha hd] at hi
    obtain ⟨hpc, hcyc⟩ := retire_pair_next (c := from_ o s) (rd := rdOf o) (loadIssue o s) (sramCost o s) (sramCost o s)
      [kg (rdOf o), kg (rdOf o + 1)] (word (sramAt o s 8)) (word (sramAt o s 8 / 2 ^ 32)) (rdOf o + 1)
    exact ⟨_, hi, writesPair_setG _ _ _ _ (rdOf_lt o) he _, retiresEarly_of hpc hcyc⟩
  · have hi : exec (.flds o) s = .next (loadSram o (okFrd o) 4 [kf (rdOf o)] (putF o) s) := rfl
    rw [loadSram_reads h (okFrd_of hf) ha hd] at hi
    exact ⟨_, hi, onlyF_setF _ _ _ _ hf _, retiresEarly_of rfl rfl⟩

/-! ## Stores -/

section Store
variable {o : Lim} {s : State} {legal : Bool} {n : Nat}

/-- The cycle in which an instruction that reads g[ra] and the registers of a store issues. -/
def storeIssue (o : Lim) (s : State) (reads : List Nat) : Nat := (from_ o s).cyc + stallOf (from_ o s) (kg (raOf o) :: reads)

/-- A store within local data memory writes its bytes at once. -/
theorem storeLocal_writes (h : Executes o s) (hl : legal = true) (ha : ea o (from_ o s) n < 0x20000) (reads : List Nat)
    (val : Core → Nat) : storeLocal o legal n reads val s = withCore o s ({ from_ o s with
      dmem := (from_ o s).dmem.write (eaDown o (from_ o s) n) n (val (from_ o s)) }.retire (storeIssue o s reads) 1 1 []) := by
  have hfr : (fetched o s).core o.core = from_ o s := rfl
  have ha' : ¬ 0x20000 ≤ effAddr o (from_ o s) n := by
    rw [effAddr_eq]
    omega
  rw [storeLocal, limDev_on h hl]
  simp only [hfr, if_neg ha', alignTo_effAddr]
  rfl

/-- A store within tick SRAM stages its bytes; a line beyond the 8,192nd of a tick is a Slip fault. -/
theorem storeSram_stages (h : Executes o s) (hl : legal = true) (ha : ea o (from_ o s) n < 0x400000) (reads : List Nat)
    (val : Core → Nat) {d : Dev} (hd : d = stage o.core (.sram (eaDown o (from_ o s) n) n (val (from_ o s)))
      ((fetched o s).setCore o.core ((from_ o s).retire (storeIssue o s reads) 2 2 []))) :
    storeSram o legal n reads val s = { s with dev :=
      if 8192 < (stagedLines d).length then fault 5 .slip (word (stagedLines d).length) d else d } := by
  have hfr : (fetched o s).core o.core = from_ o s := rfl
  have ha' : ¬ 0x400000 ≤ effAddr o (from_ o s) n := by
    rw [effAddr_eq]
    omega
  rw [storeSram, limDev_on h hl, hd]
  simp only [hfr, if_neg ha', alignTo_effAddr]
  rfl

end Store

/-- Each store to local data memory writes its row's number. -/
theorem exec_storeRow {r : StoreRow} (hr : r ∈ storeRows) {o : Lim} (hok : r.ok o) (s : State) : ∃ legal reads,
    legal = true ∧ exec (r.instr o) s = .next (storeLocal o legal r.n reads (r.val o) s) := by
  simp only [storeRows, List.mem_cons, List.not_mem_nil, or_false] at hr
  rcases hr with rfl | rfl | rfl | rfl | rfl
  · exact ⟨true, _, rfl, rfl⟩
  · exact ⟨true, _, rfl, rfl⟩
  · exact ⟨true, _, rfl, rfl⟩
  · have hv : pairVal o = Claims.pairOf o := funext (pairVal_eq o)
    exact ⟨okPair o, [kg (rdOf o), kg (rdOf o + 1)], okPair_of hok,
      congrArg (fun f => Host.Outcome.next (storeLocal o (okPair o) 8 [kg (rdOf o), kg (rdOf o + 1)] f s)) hv⟩
  · exact ⟨okFrd o, _, okFrd_of hok, rfl⟩

/-- Each store to tick SRAM stages its row's number. -/
theorem exec_sramStoreRow {r : StoreRow} (hr : r ∈ sramStoreRows) {o : Lim} (hok : r.ok o) (s : State) : ∃ legal reads,
    legal = true ∧ exec (r.instr o) s = .next (storeSram o legal r.n reads (r.val o) s) := by
  simp only [sramStoreRows, List.mem_cons, List.not_mem_nil, or_false] at hr
  rcases hr with rfl | rfl | rfl
  · exact ⟨true, _, rfl, rfl⟩
  · have hv : pairVal o = Claims.pairOf o := funext (pairVal_eq o)
    exact ⟨okPair o, [kg (rdOf o), kg (rdOf o + 1)], okPair_of hok,
      congrArg (fun f => Host.Outcome.next (storeSram o (okPair o) 8 [kg (rdOf o), kg (rdOf o + 1)] f s)) hv⟩
  · exact ⟨okFrd o, _, okFrd_of hok, rfl⟩

/-- Settles O7: a store to local data memory writes its bytes, and one to tick SRAM stages them. -/
theorem stores : Obligations.Stores := by
  unfold Obligations.Stores
  refine ⟨fun r hr o s h hok ha => ?_, fun r hr o s h hok ha => ?_⟩
  · obtain ⟨legal, reads, hl, hi⟩ := exec_storeRow hr hok s
    rw [storeLocal_writes h hl ha] at hi
    exact ⟨_, hi, fun x => byte_write _ _ _ _ x, ⟨rfl, rfl, rfl, rfl, rfl⟩, ⟨rfl, rfl, rfl, rfl, rfl, rfl, rfl, rfl, rfl, rfl, rfl⟩, rfl⟩
  · obtain ⟨legal, reads, hl, hi⟩ := exec_sramStoreRow hr hok s
    rw [storeSram_stages h hl ha reads (r.val o) rfl] at hi
    exact ⟨_, _, rfl, fetched_sram o s, hi, ⟨rfl, rfl, rfl, rfl, rfl⟩, ⟨rfl, rfl, rfl, rfl, rfl, rfl, rfl, rfl, rfl, rfl, rfl⟩, rfl, rfl⟩

end Sys2Proof.Proofs
end

section
/-! PROOFS. What the parts of an edge leave as it was: the instant, the halt, TCK_COUNT, the instant of the edge and, but for the
parts that write it, tick SRAM (R36, R39, R42). One lemma a function, in the order of the model. -/
namespace Sys2Proof.Proofs
open Sys2Proof Sys2Proof.Machine Sys2Proof.Claims

/-- What only the head of an edge sets: the instant, the halt, TCK_COUNT and the instant of the edge. -/
structure EdgeClock where
  now : Nat
  halted : Bool
  count : DWord
  edgeAt : Nat

/-- What the parts of an edge leave as it was, but for the parts that write tick SRAM. -/
structure EdgeView where
  clock : EdgeClock
  sram : Memory

def edgeView (d : Dev) : EdgeView := ⟨⟨d.now, d.halted, d.tick.count, d.tick.edgeAt⟩, d.sram⟩

@[simp] theorem view_ite {c : Prop} [Decidable c] (a b : Dev) :
    edgeView (if c then a else b) = if c then edgeView a else edgeView b := apply_ite ..

@[simp] theorem EdgeView.clock_ite {c : Prop} [Decidable c] (a b : EdgeView) :
    (if c then a else b).clock = if c then a.clock else b.clock := apply_ite ..

section
variable (x : Dev) (t : Tick) {born : Nat} {mode : Mode} {origin : Mode} {ready : Bool} {boot : BitVec 2} {holdReq : Bool}
  {dramSz : Nat} {fldLink tdlLink hrnLink : Bool} {freeCtr : Nat} {fu : FaultUnit} {ev : Events} {pw : Power} {reins : Reins}
  {pa pb : Port} {cores : Vector Core 6} {loader : Loader} {carts : List Cart} {fb : Vector FbCh 16} {latches : Vector Latch 8}
  {axes : Vector Axis 16} {groups : Vector Group 4} {lanes : Vector Lane 16} {prt : Vector Prt 2} {vis : Vis} {trees : Trees}
  {field : Field} {tdl : Tendril} {hrn : Harness} {cel : Cellar} {regs outs : SMap Word} {mon : Mon} {idn : Vector IdBus 4}
  {trim : Trim} {sram dram : Memory} {areas : List FreeArea}

/-- A record update that keeps the instant, the halt, tick SRAM and the two fields of the tick keeps the view. -/
@[simp] theorem view_mk (ht : t.count = x.tick.count) (he : t.edgeAt = x.tick.edgeAt) :
    edgeView (Dev.mk x.now born mode origin x.halted ready boot holdReq dramSz fldLink tdlLink hrnLink freeCtr t fu ev pw reins
      pa pb cores loader carts fb latches axes groups lanes prt vis trees field tdl hrn cel regs outs mon idn trim x.sram dram
      areas) = edgeView x := by
  simp [edgeView, ht, he]

@[simp] theorem clock_mk (ht : t.count = x.tick.count) (he : t.edgeAt = x.tick.edgeAt) :
    (edgeView (Dev.mk x.now born mode origin x.halted ready boot holdReq dramSz fldLink tdlLink hrnLink freeCtr t fu ev pw reins
      pa pb cores loader carts fb latches axes groups lanes prt vis trees field tdl hrn cel regs outs mon idn trim sram dram
      areas)).clock = (edgeView x).clock := by
  simp [edgeView, ht, he]

end

@[simp] theorem foldl_view {α : Type} {f : Dev → α → Dev} (h : ∀ d x, edgeView (f d x) = edgeView d) (l : List α) (d : Dev) :
    edgeView (l.foldl f d) = edgeView d := by
  induction l generalizing d with
  | nil => rfl
  | cons x t ih => exact (ih _).trans (h d x)

@[simp] theorem forAll_view {f : Nat → Dev → Dev} (h : ∀ i d, edgeView (f i d) = edgeView d) (n : Nat) (d : Dev) :
    edgeView (forAll n f d) = edgeView d := foldl_view (fun d x => h x d) _ _

@[simp] theorem forAxes_view {f : Fin 16 → Dev → Dev} (h : ∀ i d, edgeView (f i d) = edgeView d) (d : Dev) :
    edgeView (forAxes f d) = edgeView d := foldl_view (fun d x => h x d) _ _

theorem foldl_clock {α : Type} {f : Dev → α → Dev} (h : ∀ d x, (edgeView (f d x)).clock = (edgeView d).clock) (l : List α)
    (d : Dev) : (edgeView (l.foldl f d)).clock = (edgeView d).clock := by
  induction l generalizing d with
  | nil => rfl
  | cons x t ih => exact (ih _).trans (h d x)

/-! ## Registers, ports and events -/

@[simp] theorem setReg_view (d : Dev) (a : Nat) (v : Word) : edgeView (Dev.setReg d a v) = edgeView d := by rfl

@[simp] theorem setFld_view (a hi lo v : Nat) (d : Dev) : edgeView (Dev.setFld a hi lo v d) = edgeView d := by rfl

@[simp] theorem setFlag_view (a i : Nat) (b : Bool) (d : Dev) : edgeView (Dev.setFlag a i b d) = edgeView d := by rfl

@[simp] theorem count1_view (a : Nat) (d : Dev) : edgeView (Dev.count1 a d) = edgeView d := by rfl

@[simp] theorem setOut_view (d : Dev) (p : Nat) (v : Word) : edgeView (Dev.setOut d p v) = edgeView d := by rfl

@[simp] theorem tickFree_view (d : Dev) : edgeView (Dev.tickFree d) = edgeView d := by rfl

@[simp] theorem setPort_view (d : Dev) (p : HostPort) (x : Port) : edgeView (Dev.setPort d p x) = edgeView d := by
  unfold Dev.setPort
  split <;> simp

@[simp] theorem setCore_view (d : Dev) (k : Fin 6) (c : Core) : edgeView (Dev.setCore d k c) = edgeView d := by rfl

@[simp] theorem setCh_view (d : Dev) (c : Fin 16) (x : FbCh) : edgeView (Dev.setCh d c x) = edgeView d := by rfl

@[simp] theorem setLatch_view (d : Dev) (j : Fin 8) (x : Latch) : edgeView (Dev.setLatch d j x) = edgeView d := by rfl

@[simp] theorem vecSet_view (p : HostPort) (v : Nat) (d : Dev) : edgeView (vecSet p v d) = edgeView d := by rfl

@[simp] theorem vecBoth_view (v : Nat) (d : Dev) : edgeView (vecBoth v d) = edgeView d := by rfl

@[simp] theorem routeTo_view (p : HostPort) (v : Nat) (d : Dev) : edgeView (routeTo p v d) = edgeView d := by simp [routeTo]

@[simp] theorem trigOne_view (e k : Nat) (d : Dev) : edgeView (trigOne e k d) = edgeView d := by simp [trigOne]

@[simp] theorem raiseNow_view (e : Nat) (d : Dev) : edgeView (raiseNow e d) = edgeView d := by simp [raiseNow]

@[simp] theorem raise_view (e : Nat) (d : Dev) :
    edgeView (raise e d) = edgeView d := by
  obtain ⟨r, v, m, h⟩ := raise_frame e d
  rw [h]
  rfl

@[simp] theorem raiseIf_view (b : Bool) (e : Nat) (d : Dev) : edgeView (raiseIf b e d) = edgeView d := by simp [raiseIf]

@[simp] theorem statBit_view (p : HostPort) (i ev : Nat) (d : Dev) : edgeView (statBit p i ev d) = edgeView d := by
  simp [statBit]

@[simp] theorem setRefuse_view (p : HostPort) (d : Dev) : edgeView (setRefuse p d) = edgeView d := by simp [setRefuse]

@[simp] theorem setAccErr_view (p : HostPort) (d : Dev) : edgeView (setAccErr p d) = edgeView d := by simp [setAccErr]

/-! ## The log and the fault unit -/

@[simp] theorem logAssign_view (d : Dev) : edgeView (logAssign d).2 = edgeView d := by
  unfold logAssign
  split <;> simp

@[simp] theorem logFault_view (l : FLog) (d : Dev) : edgeView (logFault l d) = edgeView d := by
  have h := logAssign_view d
  unfold logFault
  split <;> simp_all

@[simp] theorem logEdge_view (d : Dev) : edgeView (logEdge d) = edgeView d := by simp [logEdge]

@[simp] theorem logFlush_view (d : Dev) : edgeView (logFlush d) = edgeView d := by simp [logFlush]

theorem watchFaultN_view {f : Dev → Dev} {d : Dev} (h : edgeView (f d) = edgeView d) : edgeView (watchFaultN f d) = edgeView d := by
  simp [watchFaultN, h]

@[simp] theorem pulseDue_view (d : Dev) : edgeView (pulseDue d) = edgeView d := by rfl

@[simp] theorem abandonBy_view (guard : Bool) (d : Dev) : edgeView (abandonBy guard d) = edgeView d := by simp [abandonBy]

@[simp] theorem enterStack_view (r : FRec) (abandon : Bool) (d : Dev) : edgeView (enterStack r abandon d) = edgeView d := by
  simp only [enterStack]
  split <;> simp

@[simp] theorem trimFail_view (code : Nat) (d : Dev) : edgeView (trimFail code d) = edgeView d := by simp [trimFail]

@[simp] theorem trimLinkLost_view (step : Nat) (d : Dev) : edgeView (trimLinkLost step d) = edgeView d := by
  simp [trimLinkLost]

@[simp] theorem applyClass_view {c : Cls} (h : c ≠ .halt) (d : Dev) : edgeView (applyClass c d) = edgeView d := by
  cases c <;> simp_all [applyClass]

@[simp] theorem faultAt_view {c : Cls} (h : c ≠ .halt) (ev : Nat) (detail : Word) (infp abandon guard : Bool) (d : Dev) :
    edgeView (faultAt ev c detail infp abandon guard d) = edgeView d := by
  apply watchFaultN_view
  simp [h]

@[simp] theorem fault_view {c : Cls} (h : c ≠ .halt) (ev : Nat) (detail : Word) (d : Dev) :
    edgeView (fault ev c detail d) = edgeView d := by simp [fault, h]

@[simp] theorem popFault_view (id : Nat) (d : Dev) : edgeView (popFault id d) = edgeView d := by
  unfold popFault
  dsimp only
  (repeat' split) <;> simp

/-! ## Lanes -/

@[simp] theorem setAxis_view (d : Dev) (n : Fin 16) (x : Axis) : edgeView (Dev.setAxis d n x) = edgeView d := by rfl

@[simp] theorem setGroup_view (d : Dev) (g : Fin 4) (x : Group) : edgeView (Dev.setGroup d g x) = edgeView d := by rfl

@[simp] theorem setLane_view (d : Dev) (n : Fin 16) (x : Lane) : edgeView (Dev.setLane d n x) = edgeView d := by rfl

@[simp] theorem laneTrip_view (n : Fin 16) (cause : Nat) (d : Dev) : edgeView (laneTrip n cause d) = edgeView d := by
  simp [laneTrip]

@[simp] theorem laneNote_view (n : Fin 16) (i : Nat) (d : Dev) : edgeView (laneNote n i d) = edgeView d := by simp [laneNote]

@[simp] theorem carrierRecheck_view (old d : Dev) : edgeView (carrierRecheck old d) = edgeView d := by simp [carrierRecheck]

@[simp] theorem commitGain_view (n : Fin 16) (offset : Nat) (v : Word) (d : Dev) :
    edgeView (commitGain n offset v d) = edgeView d := by simp [commitGain]

@[simp] theorem commitLaneCfg_view (n : Fin 16) (v : Word) (d : Dev) : edgeView (commitLaneCfg n v d) = edgeView d := by
  simp [commitLaneCfg]

@[simp] theorem commitPmap_view (n : Fin 16) (v : Word) (d : Dev) : edgeView (commitPmap n v d) = edgeView d := by
  simp [commitPmap]

@[simp] theorem commitCarrier_view (n : Fin 16) (v : Word) (d : Dev) : edgeView (commitCarrier n v d) = edgeView d := by
  simp [commitCarrier]

@[simp] theorem tableWrite_view (n : Fin 16) (v : Word) (d : Dev) : edgeView (tableWrite n v d) = edgeView d := by
  simp [tableWrite]

@[simp] theorem frSet_view (n : Fin 16) (d : Dev) : edgeView (frSet n d) = edgeView d := by rfl

@[simp] theorem frClr_view (n : Fin 16) (d : Dev) : edgeView (frClr n d) = edgeView d := by rfl

@[simp] theorem cgSet_view (n : Fin 16) (d : Dev) : edgeView (cgSet n d) = edgeView d := by rfl

@[simp] theorem cgClr_view (n : Fin 16) (d : Dev) : edgeView (cgClr n d) = edgeView d := by rfl

@[simp] theorem laneAct_view (n : Fin 16) (v : Word) (d : Dev) : edgeView (laneAct n v d) = edgeView d := by simp [laneAct]

@[simp] theorem laneStart_view (n : Fin 16) (blind : Bool) (d : Dev) : edgeView (laneStart n blind d) = edgeView d := by
  simp [laneStart]

@[simp] theorem laneStop_view (n : Fin 16) (d : Dev) : edgeView (laneStop n d) = edgeView d := by rfl

@[simp] theorem laneCapture_view (n : Fin 16) (d : Dev) : edgeView (laneCapture n d) = edgeView d := by simp [laneCapture]

@[simp] theorem applyCompares_view (n : Fin 16) (d : Dev) : edgeView (applyCompares n d) = edgeView d := by
  simp only [applyCompares]
  split <;> simp

/-! ## Printing -/

@[simp] theorem setPrt_view (d : Dev) (p : Fin 2) (x : Prt) : edgeView (Dev.setPrt d p x) = edgeView d := by rfl

@[simp] theorem prtStatus_view (p : Fin 2) (d : Dev) : edgeView (prtStatus p d) = edgeView d := by simp [prtStatus]

@[simp] theorem setRdIdx_view (p : Fin 2) (i : Nat) (d : Dev) : edgeView (setRdIdx p i d) = edgeView d := by rfl

@[simp] theorem shiftNext_view (p : Fin 2) (d : Dev) : edgeView (shiftNext p d) = edgeView d := by
  unfold shiftNext
  split <;> simp

@[simp] theorem retable_view (p : Fin 2) (d : Dev) : edgeView (retable p d) = edgeView d := by rfl

@[simp] theorem advanceRd_view (p : Fin 2) (d : Dev) : edgeView (advanceRd p d) = edgeView d := by
  simp only [advanceRd]
  split <;> simp

@[simp] theorem skipCount_view (p : Fin 2) (n : Nat) (d : Dev) : edgeView (skipCount p n d) = edgeView d := by rfl

@[simp] theorem jobDone_view (p : Fin 2) (j : Job) (d : Dev) : edgeView (jobDone p j d) = edgeView d := by simp [jobDone]

@[simp] theorem jobFinish_view (p : Fin 2) (d : Dev) : edgeView (jobFinish p d) = edgeView d := by
  unfold jobFinish
  dsimp only
  (repeat' split) <;> simp

@[simp] theorem jobStart_view (p : Fin 2) (start : Word) (rows : Nat) (d : Dev) :
    edgeView (jobStart p start rows d) = edgeView d := by simp [jobStart]

@[simp] theorem queuePass_view (p : Fin 2) (d : Dev) : edgeView (queuePass p d) = edgeView d := by
  simp only [queuePass]
  split <;> simp

@[simp] theorem jobError_view (p : Fin 2) (d : Dev) : edgeView (jobError p d) = edgeView d := by simp [jobError]

@[simp] theorem jobGo_view (p : Fin 2) (d : Dev) : edgeView (jobGo p d) = edgeView d := by simp [jobGo]

@[simp] theorem jobAbort_view (p : Fin 2) (d : Dev) : edgeView (jobAbort p d) = edgeView d := by
  simp only [jobAbort]
  split <;> simp

@[simp] theorem jobCmd_view (p : Fin 2) (v : Word) (d : Dev) : edgeView (jobCmd p v d) = edgeView d := by simp [jobCmd]

@[simp] theorem endStrobes_view (p : Fin 2) (d : Dev) : edgeView (endStrobes p d) = edgeView d := by rfl

@[simp] theorem headFaulted_view (p : Fin 2) (d : Dev) : edgeView (headFaulted p d) = edgeView d := by simp [headFaulted]

@[simp] theorem printLeaveRun_view (d : Dev) : edgeView (printLeaveRun d) = edgeView d := by rfl

@[simp] theorem densityWrite_view (p : Fin 2) (v : Word) (d : Dev) : edgeView (densityWrite p v d) = edgeView d := by
  simp [densityWrite]

@[simp] theorem sliceWrite_view (p : Fin 2) (v : Word) (d : Dev) : edgeView (sliceWrite p v d) = edgeView d := by
  simp [sliceWrite]

@[simp] theorem commitPrtCfg_view (p : Fin 2) (v : Word) (d : Dev) : edgeView (commitPrtCfg p v d) = edgeView d := by
  simp [commitPrtCfg]

@[simp] theorem commitRatio_view (p : Fin 2) (v : Word) (d : Dev) : edgeView (commitRatio p v d) = edgeView d := by
  simp [commitRatio]

/-! ## Feedback -/

@[simp] theorem fbLoss_view (c : Nat) (d : Dev) : edgeView (fbLoss c d) = edgeView d := by simp [fbLoss]

@[simp] theorem fbErr_view (c : Fin 16) (i : Nat) (d : Dev) : edgeView (fbErr c i d) = edgeView d := by simp [fbErr]

@[simp] theorem laneShift_view (c : Nat) (by_ : Word) (d : Dev) : edgeView (laneShift c by_ d) = edgeView d := by
  simp [laneShift]

@[simp] theorem moveCount_view (c : Fin 16) (by_ : Word) (d : Dev) : edgeView (moveCount c by_ d) = edgeView d := by
  simp [moveCount]

@[simp] theorem setPos_view (c : Fin 16) (setval : Word) (d : Dev) : edgeView (setPos c setval d) = edgeView d := by
  simp [setPos]

@[simp] theorem refSet_view (c : Fin 16) (d : Dev) : edgeView (refSet c d) = edgeView d := by rfl

@[simp] theorem zArm_view (c : Fin 16) (d : Dev) : edgeView (zArm c d) = edgeView d := by rfl

@[simp] theorem reArm_view (j : Fin 8) (d : Dev) : edgeView (reArm j d) = edgeView d := by rfl

@[simp] theorem commitFbCfg_view (c : Fin 16) (v : Word) (d : Dev) : edgeView (commitFbCfg c v d) = edgeView d := by
  simp [commitFbCfg]

@[simp] theorem speedQuad_view (edge : DWord) (c : Fin 16) (d : Dev) : edgeView (speedQuad edge c d) = edgeView d := by
  simp [speedQuad]

@[simp] theorem speedSerial_view (c : Fin 16) (d : Dev) : edgeView (speedSerial c d) = edgeView d := by simp [speedSerial]

@[simp] theorem fbCapture_view (edge : DWord) (c : Fin 16) (d : Dev) : edgeView (fbCapture edge c d) = edgeView d := by
  simp [fbCapture]

/-! ## Axes, groups and segments -/

@[simp] theorem axAlert_view (n : Fin 16) (cause : Nat) (d : Dev) : edgeView (axAlert n cause d) = edgeView d := by
  simp [axAlert]

@[simp] theorem axDone_view (n : Fin 16) (d : Dev) : edgeView (axDone n d) = edgeView d := by simp [axDone]

@[simp] theorem commitGroup_view (g : Fin 4) (v : Word) (d : Dev) : edgeView (commitGroup g v d) = edgeView d := by
  simp [commitGroup]

@[simp] theorem segPush_view (n : Fin 16) (d : Dev) : edgeView (segPush n d) = edgeView d := by
  unfold segPush
  split <;> simp

@[simp] theorem segFlush_view (n : Fin 16) (d : Dev) : edgeView (segFlush n d) = edgeView d := by
  unfold segFlush
  split <;> simp

@[simp] theorem groupBreak_view (n : Fin 16) (d : Dev) : edgeView (groupBreak n d) = edgeView d := by
  unfold groupBreak
  dsimp only
  (repeat' split) <;> simp

@[simp] theorem segStart_view (g : Fin 4) (d : Dev) : edgeView (segStart g d) = edgeView d := by
  simp only [segStart]
  split <;> simp

@[simp] theorem segRest_view (s : Seg) (m : Fin 16) (d : Dev) : edgeView (segRest s m d) = edgeView d := by rfl

@[simp] theorem segEnd_view (commits : Bool) (g : Fin 4) (d : Dev) : edgeView (segEnd commits g d) = edgeView d := by
  unfold segEnd
  dsimp only
  (repeat' split) <;> simp

@[simp] theorem groupEdge_view (commits : Bool) (g : Fin 4) (d : Dev) : edgeView (groupEdge commits g d) = edgeView d := by
  simp [groupEdge]

@[simp] theorem groupsHold_view (d : Dev) : edgeView (groupsHold d) = edgeView d := by simp [groupsHold]

@[simp] theorem gearEdge_view (n : Fin 16) (d : Dev) : edgeView (gearEdge n d) = edgeView d := by rfl

@[simp] theorem axisStart_view (n : Fin 16) (d : Dev) : edgeView (axisStart n d) = edgeView d := by
  unfold axisStart
  split <;> simp

@[simp] theorem axisStop_view (n : Fin 16) (d : Dev) : edgeView (axisStop n d) = edgeView d := by simp [axisStop]

@[simp] theorem axisMode_view (n : Fin 16) (mode : Nat) (d : Dev) : edgeView (axisMode n mode d) = edgeView d := by
  simp [axisMode]

@[simp] theorem axisEn_view (n : Fin 16) (en : Bool) (d : Dev) : edgeView (axisEn n en d) = edgeView d := by
  unfold axisEn
  dsimp only
  (repeat' split) <;> simp

@[simp] theorem commitAxis_view (n : Fin 16) (ofs : Nat) (v : Word) (d : Dev) :
    edgeView (commitAxis n ofs v d) = edgeView d := by simp [commitAxis]

@[simp] theorem axisLimit_view (n : Fin 16) (d : Dev) : edgeView (axisLimit n d) = edgeView d := by simp [axisLimit]

@[simp] theorem axesCommit_view (d : Dev) : edgeView (axesCommit d) = edgeView d := by simp [axesCommit]

@[simp] theorem dirTo_view (n : Fin 16) (ofs : Nat) (d : Dev) : edgeView (dirTo n ofs d) = edgeView d := by simp [dirTo]

@[simp] theorem dirEdge_view (n : Fin 16) (d : Dev) : edgeView (dirEdge n d) = edgeView d := by simp [dirEdge]

@[simp] theorem axisEnd_view (commits : Bool) (n : Fin 16) (d : Dev) : edgeView (axisEnd commits n d) = edgeView d := by
  simp [axisEnd]

@[simp] theorem axesEnd_view (commits : Bool) (d : Dev) : edgeView (axesEnd commits d) = edgeView d := by simp [axesEnd]

@[simp] theorem axisRun_view (commits : Bool) (n : Fin 16) (d : Dev) : edgeView (axisRun commits n d) = edgeView d := by
  unfold axisRun
  dsimp only
  (repeat' split) <;> simp

@[simp] theorem axisStatus_view (n : Fin 16) (d : Dev) : edgeView (axisStatus n d) = edgeView d := by simp [axisStatus]

@[simp] theorem axesRun_view (commits : Bool) (d : Dev) : edgeView (axesRun commits d) = edgeView d := by simp [axesRun]

@[simp] theorem axesStart_view (d : Dev) : edgeView (axesStart d) = edgeView d := by simp [axesStart]

@[simp] theorem axesLeaveRun_view (d : Dev) : edgeView (axesLeaveRun d) = edgeView d := by simp [axesLeaveRun]

@[simp] theorem axisCapture_view (n : Fin 16) (d : Dev) : edgeView (axisCapture n d) = edgeView d := by rfl

@[simp] theorem masterSpeed_view (n : Fin 16) (d : Dev) : edgeView (masterSpeed n d) = edgeView d := by simp [masterSpeed]

/-! ## Vision -/

@[simp] theorem setRx_view (d : Dev) (p : Fin 2) (x : Rx) : edgeView (Dev.setRx d p x) = edgeView d := by rfl

@[simp] theorem setVg_view (d : Dev) (g : Fin 4) (x : VGraph) : edgeView (Dev.setVg d g x) = edgeView d := by rfl

@[simp] theorem visGerr_view (g : Fin 4) (d : Dev) : edgeView (visGerr g d) = edgeView d := by simp [visGerr]

@[simp] theorem visStatus_view (g : Fin 4) (d : Dev) : edgeView (visStatus g d) = edgeView d := by rfl

@[simp] theorem visStart_view (g : Fin 4) (d : Dev) : edgeView (visStart g d) = edgeView d := by
  unfold visStart
  split <;> simp

@[simp] theorem visStop_view (g : Fin 4) (d : Dev) : edgeView (visStop g d) = edgeView d := by rfl

@[simp] theorem visRunPort_view (g : Fin 4) (v : Word) (d : Dev) : edgeView (visRunPort g v d) = edgeView d := by
  simp [visRunPort]

@[simp] theorem visQcyc_view (g : Fin 4) (v : Word) (d : Dev) : edgeView (visQcyc g v d) = edgeView d := by
  unfold visQcyc
  split <;> simp

@[simp] theorem visConfmin_view (g : Fin 4) (v : Word) (d : Dev) : edgeView (visConfmin g v d) = edgeView d := by rfl

@[simp] theorem visBudgetStop_view (d : Dev) : edgeView (visBudgetStop d) = edgeView d :=
  forAll_view (fun k d => by dsimp only; split <;> simp) 4 _ |>.trans (setReg_view ..)

@[simp] theorem visImage_view (d : Dev) : edgeView (visImage d) = edgeView d := by simp [visImage]

@[simp] theorem rxBusy_view (p : Fin 2) (d : Dev) : edgeView (rxBusy p d) = edgeView d := by rfl

@[simp] theorem visSleep_view (d : Dev) : edgeView (visSleep d) = edgeView d := by simp [visSleep]

@[simp] theorem commitCsiCfg_view (p : Fin 2) (v : Word) (d : Dev) : edgeView (commitCsiCfg p v d) = edgeView d := by
  simp [commitCsiCfg]

@[simp] theorem commitCsiSize_view (p : Fin 2) (v : Word) (d : Dev) : edgeView (commitCsiSize p v d) = edgeView d := by rfl

@[simp] theorem commitHoffCfg_view (v : Word) (d : Dev) : edgeView (commitHoffCfg v d) = edgeView d := by rfl

@[simp] theorem visTick_view (d : Dev) : edgeView (visTick d) = edgeView d := by simp [visTick]

@[simp] theorem visRevert_view (old : Dev) (d : Dev) : edgeView (visRevert old d) = edgeView d := by simp [visRevert]

@[simp] theorem visPublish_view (g : Fin 4) (gr : Graph) (r : VResult) (d : Dev) :
    edgeView (visPublish g gr r d) = edgeView d := by
  unfold visPublish
  dsimp only
  (repeat' split) <;> simp

@[simp] theorem visPublishAll_view (d : Dev) : edgeView (visPublishAll d) = edgeView d :=
  forAll_view (fun k d => by dsimp only; split <;> simp) 4 d

/-! ## Events, carts, casks, buses, trees, tendril and trim -/

@[simp] theorem popCommit_view (v : Word) (d : Dev) : edgeView (popCommit v d) = edgeView d := by simp [popCommit]

@[simp] theorem cartFlags_view (k : Fin 6) (i : Nat) (bad : Bool) (d : Dev) :
    edgeView (cartFlags k i bad d) = edgeView d := by rfl

@[simp] theorem softEvents_view (v : Nat) (d : Dev) : edgeView (softEvents v d) = edgeView d := by simp [softEvents]

@[simp] theorem cartEnqueue_view (k : Fin 6) (i : Nat) (d : Dev) : edgeView (cartEnqueue k i d) = edgeView d := by rfl

@[simp] theorem cartSources_view (d : Dev) : edgeView (cartSources d) = edgeView d := by rfl

@[simp] theorem cartsLand_clock (d : Dev) : (edgeView (cartsLand d)).clock = (edgeView d).clock :=
  (clock_mk _ _ rfl rfl).trans (foldl_clock (fun d x => by simp) _ d)

@[simp] theorem setCel_view (d : Dev) (c : Cellar) : edgeView (Dev.setCel d c) = edgeView d := by rfl

@[simp] theorem caskCommit_view (k : Fin 6) (c : Cask) (d : Dev) : edgeView (caskCommit k c d) = edgeView d := by
  simp [caskCommit]

@[simp] theorem journalTick_view (committed : Nat) (d : Dev) : edgeView (journalTick committed d) = edgeView d := by rfl

@[simp] theorem setIsl_view (d : Dev) (x : Island) : edgeView (Dev.setIsl d x) = edgeView d := by rfl

@[simp] theorem commitFldCfg_view (v : Word) (d : Dev) : edgeView (commitFldCfg v d) = edgeView d := by simp [commitFldCfg]

@[simp] theorem fieldBeat_view (ran commit : Bool) (d : Dev) : edgeView (fieldBeat ran commit d) = edgeView d := by
  simp [fieldBeat]

@[simp] theorem setBus_view (d : Dev) (b : Fin 4) (x : IdBus) : edgeView (Dev.setBus d b x) = edgeView d := by rfl

@[simp] theorem idStart_view (b : Fin 4) (d : Dev) : edgeView (idStart b d) = edgeView d := by rfl

@[simp] theorem idRead_view (mask : Nat) (d : Dev) : edgeView (idRead mask d) = edgeView d := by simp [idRead]

@[simp] theorem idLand_clock (b : Fin 4) (d : Dev) : (edgeView (idLand b d)).clock = (edgeView d).clock := by
  unfold idLand
  dsimp only
  split
  · rfl
  · split <;> simp

@[simp] theorem idLandAll_clock (d : Dev) : (edgeView (idLandAll d)).clock = (edgeView d).clock :=
  foldl_clock (fun d b => by simp) _ d

@[simp] theorem treeLoad_view (d : Dev) : edgeView (treeLoad d) = edgeView d := by simp [treeLoad]

@[simp] theorem slotRegs_view (i : Fin 32) (d : Dev) : edgeView (slotRegs i d) = edgeView d := by
  unfold slotRegs
  split <;> simp

@[simp] theorem setSlot_view (i : Fin 32) (o : Option TModel) (d : Dev) : edgeView (setSlot i o d) = edgeView d := by
  simp [setSlot]

@[simp] theorem modelPlace_view (d : Dev) : edgeView (modelPlace d) = edgeView d := by
  unfold modelPlace
  split <;> simp

@[simp] theorem treeEvict_view (d : Dev) : edgeView (treeEvict d) = edgeView d :=
  forAll_view (fun k d => by dsimp only; split <;> simp) 32 d

@[simp] theorem setTdl_view (d : Dev) (t : Tendril) : edgeView (Dev.setTdl d t) = edgeView d := by rfl

@[simp] theorem setptWrite_view (v : Word) (d : Dev) : edgeView (setptWrite v d) = edgeView d := by simp [setptWrite]

@[simp] theorem hartLand_clock (d : Dev) : (edgeView (hartLand d)).clock = (edgeView d).clock := by
  unfold hartLand
  dsimp only
  split <;> simp

@[simp] theorem hartReplyGo_view (d : Dev) : edgeView (hartReplyGo d) = edgeView d := by rfl

@[simp] theorem trimDrive_view (d : Dev) : edgeView (trimDrive d) = edgeView d := by
  unfold trimDrive
  split <;> simp

@[simp] theorem trimGo_view (step i : Nat) (d : Dev) : edgeView (trimGo step i d) = edgeView d := by simp [trimGo]

@[simp] theorem trimNext_view (d : Dev) : edgeView (trimNext d) = edgeView d := by simp [trimNext]

@[simp] theorem trimCmd_view (v : Word) (d : Dev) : edgeView (trimCmd v d) = edgeView d := by simp [trimCmd]

@[simp] theorem trimResult_view (step i : Nat) (r : List Word) (d : Dev) :
    edgeView (trimResult step i r d) = edgeView d := by
  unfold trimResult
  split <;> simp

@[simp] theorem trimApply_view (d : Dev) : edgeView (trimApply d) = edgeView d := by
  unfold trimApply
  split <;> simp

/-! ## The commit of staged writes and of an image -/

@[simp] theorem sysPortLatch_view (d : Dev) : edgeView (sysPortLatch d) = edgeView d := by rfl

@[simp] theorem hold_view (p : Nat) (v : Word) (d : Dev) : edgeView (hold p v d) = edgeView d := by rfl

@[simp] theorem dropHeld_view (p : Nat) (d : Dev) : edgeView (dropHeld p d) = edgeView d := by rfl

@[simp] theorem act_view {f : Word → Dev → Dev} (h : ∀ v d, edgeView (f v d) = edgeView d) (p : Nat) (d : Dev) :
    edgeView (act p f d) = edgeView d := by simp [act, h]

@[simp] theorem supersede_view (p : Nat) (f : Word → Bool) (d : Dev) : edgeView (supersede p f d) = edgeView d := by
  simp [supersede]

@[simp] theorem commitTable_view (n : Fin 16) (cog : Bool) (w : Nat) (a : Nat) (v : Word) (d : Dev) :
    edgeView (commitTable n cog w a v d) = edgeView d := by simp [commitTable]

@[simp] theorem commitLane_view (n : Fin 16) (ofs a : Nat) (v : Word) (d : Dev) :
    edgeView (commitLane n ofs a v d) = edgeView d := by simp [commitLane]

@[simp] theorem commitPrint_view (p : Fin 2) (ofs a : Nat) (v : Word) (d : Dev) :
    edgeView (commitPrint p ofs a v d) = edgeView d := by simp [commitPrint]

@[simp] theorem commitVision_view (a : Nat) (v : Word) (d : Dev) : edgeView (commitVision a v d) = edgeView d := by
  simp [commitVision]

@[simp] theorem commitReg_view (a : Nat) (v : Word) (d : Dev) : edgeView (commitReg a v d) = edgeView d := by
  unfold commitReg
  dsimp only
  (repeat' split) <;> simp

@[simp] theorem commitPort_view (p : Nat) (v : Word) (d : Dev) : edgeView (commitPort p v d) = edgeView d := by
  unfold commitPort
  split <;> simp

@[simp] theorem fbAct_view (c : Fin 16) (v : Word) (d : Dev) : edgeView (fbAct c v d) = edgeView d := by simp [fbAct]

theorem tableActs_view (d : Dev) :
    edgeView (forAll 16 (fun k d => forAll 4 (fun i d => act (twrPort k i) (tableWrite (Fin.ofNat 16 k)) d) d) d) = edgeView d :=
  forAll_view (fun k d => by simp) 16 d

@[simp] theorem commitActs_view (d : Dev) : edgeView (commitActs d) = edgeView d := by
  simp [commitActs, tableActs_view, -Fin.ofNat_eq_cast]

@[simp] theorem commitOne_clock (d : Dev) (s : Staged) : (edgeView (commitOne d s)).clock = (edgeView d).clock := by
  unfold commitOne
  split <;> simp

/-- After the staged writes of the tick, tick SRAM is what they leave: what acts once, and the mailbox counts, do not touch it. -/
theorem commitWrites_view (l : List Staged) (d : Dev) : edgeView (commitWrites l d) =
    edgeView (l.foldl commitOne (forAll 4 (fun j d => d.setOut (aoKey j) 0) ((d.setOut 0x2504 0).setOut 0x2508 0))) := by
  simp [commitWrites]

@[simp] theorem commitWrites_clock (l : List Staged) (d : Dev) : (edgeView (commitWrites l d)).clock = (edgeView d).clock := by
  rw [commitWrites_view, foldl_clock commitOne_clock]
  simp

@[simp] theorem commitCasks_view (l : List Staged) (d : Dev) : edgeView (commitCasks l d) = edgeView d := by
  simp [commitCasks]

@[simp] theorem commitCarts_view (l : List Staged) (d : Dev) : edgeView (commitCarts l d) = edgeView d :=
  foldl_view (fun d s => by split <;> simp) l d

@[simp] theorem printFeed_view (im : Image) (p : Nat) (d : Dev) : edgeView (printFeed im p d) = edgeView d := by
  unfold printFeed
  split <;> simp

@[simp] theorem imageTake_view (d : Dev) : edgeView (imageTake d) = edgeView d := by
  unfold imageTake
  split <;> simp

@[simp] theorem imageDiscard_view (l : List Staged) (d : Dev) : edgeView (imageDiscard l d).2 = edgeView d := by
  unfold imageDiscard
  split <;> simp

/-! ## Modes, power and the monitor -/

@[simp] theorem loadWatch_view (old : Dev) (d : Dev) : edgeView (loadWatch old d) = edgeView d := by simp [loadWatch]

@[simp] theorem monRelease_view (d : Dev) : edgeView (monRelease d) = edgeView d := by simp [monRelease]

@[simp] theorem monSessionEnd_view (d : Dev) : edgeView (monSessionEnd d) = edgeView d := by simp [monSessionEnd]

@[simp] theorem setMode_view (m : Mode) (d : Dev) : edgeView (setMode m d) = edgeView d := by simp [setMode]

@[simp] theorem modeRefuse_view (code : Nat) (d : Dev) : edgeView (modeRefuse code d) = edgeView d := by rfl

@[simp] theorem modeRequest_view (from_ : Mode) (demand : Bool) (cause req : Nat) (d : Dev) :
    edgeView (modeRequest from_ demand cause req d) = edgeView d := by
  unfold modeRequest
  split <;> simp

@[simp] theorem modeEdge_view (demand : Bool) (req : Nat) (d : Dev) : edgeView (modeEdge demand req d) = edgeView d := by
  simp [modeEdge]

@[simp] theorem powerChoose_view (d : Dev) : edgeView (powerChoose d) = edgeView d := by simp [powerChoose]

@[simp] theorem traceEntry_view (abandoned : Bool) (causes : Nat) (cycles : List Word) (d : Dev) :
    edgeView (traceEntry abandoned causes cycles d) = edgeView d := by
  unfold traceEntry
  dsimp only
  (repeat' split) <;> simp

@[simp] theorem monEdge_view (ran : Bool) (d : Dev) : edgeView (monEdge ran d) = edgeView d := by simp [monEdge]

/-! ## Timed commands and the edge -/

@[simp] theorem latchHi_view (r : Reader) (a : Nat) (d : Dev) : edgeView (latchHi r a d) = edgeView d := by
  unfold latchHi
  split <;> simp

@[simp] theorem complete_view (p : HostPort) (opc tag idx status : Nat) (data : Word) (tick : Nat) (nocommit : Bool) (d : Dev) :
    edgeView (complete p opc tag idx status data tick nocommit d) = edgeView d := by simp [complete]

@[simp] theorem timedEnd_view (p : HostPort) (t : Timed) (status : Nat) (data : Word) (nocommit : Bool) (d : Dev) :
    edgeView (timedEnd p t status data nocommit d) = edgeView d := by simp [timedEnd]

@[simp] theorem rdatLatch_view (p : HostPort) (d : Dev) : edgeView (rdatLatch p d) = edgeView d := by simp [rdatLatch]

@[simp] theorem timedEdge_view (commits : Bool) (p : HostPort) (d : Dev) :
    edgeView (timedEdge commits p d) = edgeView d := by simp [timedEdge]

@[simp] theorem edgeAbandon_view (causes : Nat) (snap d : Dev) : edgeView (edgeAbandon causes snap d) = edgeView d := by
  simp [edgeAbandon]

@[simp] theorem periodChange_view (old : Nat) (d : Dev) : edgeView (periodChange old d) = edgeView d := by
  simp [periodChange]

@[simp] theorem edgeCommit_clock (ran : Bool) (l : List Staged) (d : Dev) :
    (edgeView (edgeCommit ran l d)).clock = (edgeView d).clock := by
  simp [edgeCommit]

@[simp] theorem landingLine_clock (d : Dev) : (edgeView (landingLine d)).clock = (edgeView d).clock := by
  unfold landingLine
  dsimp only
  split <;> simp

@[simp] theorem tickVector_view (p : HostPort) (d : Dev) : edgeView (tickVector p d) = edgeView d := by simp [tickVector]

@[simp] theorem captureAll_view (d : Dev) : edgeView (captureAll d) = edgeView d := by simp [captureAll]

@[simp] theorem beginTick_view (begins : Bool) (d : Dev) : edgeView (beginTick begins d) = edgeView d := by
  cases begins <;> rfl

@[simp] theorem fpEdge_view (d : Dev) : edgeView (fpEdge d) = edgeView d := by rfl

@[simp] theorem edgeRest_clock (ran commits : Bool) (causes : Nat) (cycles : List Word) (demand : Bool) (d : Dev) :
    (edgeView (edgeRest ran commits causes cycles demand d)).clock = (edgeView d).clock := by
  simp [edgeRest]

/-- Without a commit the rest of the edge leaves tick SRAM too. -/
@[simp] theorem edgeRest_view (ran : Bool) (causes : Nat) (cycles : List Word) (demand : Bool) (d : Dev) :
    edgeView (edgeRest ran false causes cycles demand d) = edgeView d := by
  simp [edgeRest]

end Sys2Proof.Proofs
end

section
/-! PROOFS. TCK_COUNT increments at every edge (R42). -/
namespace Sys2Proof.Proofs
open Sys2Proof Sys2Proof.Machine Sys2Proof.Claims

/-! ## The command TICK_EDGE -/

theorem ticking_of_running {d : Dev} (h : Running d) : ticking d = true := by
  obtain ⟨hready, hhalt, hstop, hheld⟩ := h
  simp [ticking, monHeld, hready, hhalt, hstop, hheld]

/-- Where the parts of the tick have been commanded and no timed command waits, TICK_EDGE is the edge. -/
theorem exec_tickEdge_stage {s : State} (v : CommitVote) (hr : Running s.dev) (hp : s.dev.tick.phase = .stage)
    (ht : NoTimed s.dev) : exec (.tickEdge v) s = .next { s with
      dev := edgeAt v s.snap s.dev, snap := if (edgeAt v s.snap s.dev).halted then s.snap else edgeAt v s.snap s.dev } := by
  obtain ⟨hta, htb⟩ := ht
  simp [exec, execTickEdge, tickEdge, computeStart, stageStart, performAll, Dev.port, ticking_of_running hr, hp, hta, htb]

/-! ## The head of the edge -/

@[simp] theorem reach_view (d : Dev) (t : Nat) :
    edgeView (d.reach t) = { edgeView d with clock := { (edgeView d).clock with now := max d.now t } } := by rfl

theorem voteEdge_view {v : CommitVote} (hv : v ≠ .noMajority) (d : Dev) : edgeView (voteEdge v d) = edgeView d := by
  cases v <;> simp_all [voteEdge]

/-- Whether the ending tick commits, but for the vote. -/
def mayCommit (old : Dev) : Bool := !(decide (old.tick.phase ≠ .idle) && old.tick.abandoning)

/-- The device at the instant of the edge, the vote taken where the tick may commit. -/
def voted (v : CommitVote) (old : Dev) : Dev :=
  if mayCommit old then voteEdge v (old.reach old.tick.due) else old.reach old.tick.due

/-- The vote neither halts nor counts, but where no two copies agree on a tick that may commit. -/
theorem voted_view {v : CommitVote} {old : Dev} (h : v ≠ .noMajority ∨ mayCommit old = false) :
    edgeView (voted v old) = edgeView (old.reach old.tick.due) := by
  unfold voted
  split
  · next hc => exact voteEdge_view (h.resolve_right (by simp [hc])) _
  · rfl

/-- After the vote an edge that it does not halt has its count and its instant; where nothing commits tick SRAM stands. -/
theorem edgeAt_view {v : CommitVote} (snap old : Dev) (hh : (voted v old).halted = false) :
    (edgeView (edgeAt v snap old)).clock =
      ⟨(voted v old).now, false, (voted v old).tick.count + 1, (voted v old).now⟩ ∧
    (mayCommit old = false → (edgeAt v snap old).sram = (voted v old).sram) := by
  unfold edgeAt
  extract_lets d ran commits demand cycles causes lim d0 d1 _ d2
  have h0 : d0 = voted v old := rfl
  have h2 : edgeView d2 = ⟨⟨d0.now, false, d0.tick.count + 1, d0.now⟩, d0.sram⟩ := by
    have h1 := axesEnd_view commits d0
    simp_all [edgeView, d2, d1]
  rw [if_neg (by simp [h0, hh])]
  have h3 := imageDiscard_view (inOrder d2.tick.staged) d2
  generalize imageDiscard (inOrder d2.tick.staged) d2 = p at h3 ⊢
  obtain ⟨l, d3⟩ := p
  constructor
  · cases commits <;> simp [h3, h2, h0]
  · intro hc
    have hc : commits = false := hc
    refine congrArg EdgeView.sram (?_ : edgeView _ = edgeView d2) |>.trans (congrArg EdgeView.sram h2)
    simp [hc, h3]

/-- An edge that the vote does not halt is counted and stands at its due instant; where nothing commits tick SRAM stands. -/
theorem edgeAt_counts {v : CommitVote} {old : Dev} (snap : Dev) (hh : old.halted = false)
    (h : v ≠ .noMajority ∨ mayCommit old = false) :
    (edgeView (edgeAt v snap old)).clock =
      ⟨max old.now old.tick.due, false, old.tick.count + 1, max old.now old.tick.due⟩ ∧
    (mayCommit old = false → (edgeAt v snap old).sram = old.sram) := by
  have hv := voted_view h
  simp only [edgeView, EdgeView.mk.injEq, EdgeClock.mk.injEq] at hv
  obtain ⟨⟨hnow, hhalt, hcount, -⟩, hsram⟩ := hv
  obtain ⟨hclock, hstands⟩ := edgeAt_view snap old (hhalt.trans hh)
  exact ⟨by rw [hclock, hnow, hcount]; rfl, fun hc => (hstands hc).trans hsram⟩

/-- Settles O52: of an edge that has a majority only the head sets the count, the instant and the halt. -/
theorem edgeCounts : Obligations.EdgeCounts := by
  unfold Obligations.EdgeCounts
  intro s v hr hp ht hv
  obtain ⟨-, hrun, -, -⟩ := id hr
  obtain ⟨hc, -⟩ := edgeAt_counts s.snap hrun (.inl hv)
  simp only [edgeView, EdgeClock.mk.injEq] at hc
  obtain ⟨-, hhalt, hcount, hedge⟩ := hc
  exact ⟨edgeAt v s.snap s.dev, by simp [exec_tickEdge_stage v hr hp ht, hhalt], hcount, hedge, hhalt⟩

end Sys2Proof.Proofs
end

section
/-! PROOFS. The events that stand after an operation (R366), and what a fault of class Slip, Hold or Halt leaves (R347 to R349). -/
namespace Sys2Proof.Proofs
open Sys2Proof Sys2Proof.Machine Sys2Proof.Claims

/-! ## Events that stand -/

/-- From d to e no event is lost, and the fabric goes on raising events at once. -/
def EventsStand (d e : Dev) : Prop := (Raises d → Raises e) ∧ ∀ ev, ev < 256 → Stuck ev d → Stuck ev e

theorem EventsStand.refl (d : Dev) : EventsStand d d := ⟨id, fun _ _ => id⟩

theorem EventsStand.trans {d e f : Dev} (h : EventsStand d e) (k : EventsStand e f) : EventsStand d f :=
  ⟨fun x => k.1 (h.1 x), fun ev hev x => k.2 ev hev (h.2 ev hev x)⟩

/-- Events and the power state are in the registers and the power unit alone. -/
theorem EventsStand.upd {d e f : Dev} (h : EventsStand d e) (hr : f.regs = e.regs) (hp : f.pw = e.pw) : EventsStand d f := by
  refine h.trans ⟨fun hf => ?_, fun ev _ hst => ?_⟩
  · rwa [Raises, Dev.pstate, Dev.fld, Dev.reg_congr hr, hp]
  · rwa [Stuck, Dev.flag, Dev.reg_congr hr]

section
variable {a : Nat} {d e : Dev} (h : EventsStand d e) (hn : a / 0x10000 ≠ 0x10F) (h0 : a / 0x10000 ≠ 0x100)
include h hn h0

/-- Neither a sticky word nor the power state is written. -/
theorem EventsStand.setReg (v : Word) : EventsStand d (e.setReg a v) := by
  have hp : SYS_PWRSTAT ≠ a := fun hc => h0 (by subst hc; decide)
  refine h.trans ⟨fun hr => ?_, fun ev hev hst => ?_⟩
  · rwa [Raises, Dev.pstate, Dev.fld, Dev.reg_setReg, if_neg hp]
  · have hs : EVT_STICKY (ev / 32) ≠ a := fun hc => hn (by subst hc; unfold EVT_STICKY; omega)
    rwa [Stuck, Dev.flag, Dev.reg_setReg, if_neg hs]

theorem EventsStand.setFlag (i : Nat) (b : Bool) : EventsStand d (Dev.setFlag a i b e) := h.setReg hn h0 _

theorem EventsStand.setFld (hi lo v : Nat) : EventsStand d (Dev.setFld a hi lo v e) := h.setReg hn h0 _

theorem EventsStand.count1 : EventsStand d (Dev.count1 a e) := h.setReg hn h0 _

end

theorem EventsStand.vecSet {d e : Dev} (h : EventsStand d e) (p : HostPort) (v : Nat) : EventsStand d (vecSet p v e) :=
  have hb := pendAddr_block e p
  h.setFlag (by omega) (by omega) v true

theorem bit_setBit_true {w : Word} {i : Nat} (j : Nat) (h : bit w i = true) : bit (setBit w j true) i = true := by
  rw [bit] at h
  rw [bit, setBit, if_pos rfl, BitVec.getLsbD_or, h, Bool.true_or]

/-- An event raised at once leaves the sticky bits that stand. -/
theorem raiseNow_sticky {w : Nat} (hw : w < 8) {i : Nat} (e : Nat) {d : Dev} (h : bit (d.reg (EVT_STICKY w)) i = true) :
    bit ((raiseNow e d).reg (EVT_STICKY w)) i = true := by
  have hflag : bit ((Dev.setFlag (EVT_STICKY (e / 32)) (e % 32) true d).reg (EVT_STICKY w)) i = true := by
    by_cases ha : EVT_STICKY w = EVT_STICKY (e / 32)
    · rw [ha, Dev.flag_setFlag, ← ha]
      exact bit_setBit_true _ h
    · rwa [Dev.reg_setFlag_other _ _ _ _ _ ha]
  unfold raiseNow
  split
  · exact h
  · dsimp only
    rw [forAll, forTrig_sticky hw, routeTo_sticky hw, routeTo_sticky hw]
    split <;> exact hflag

theorem EventsStand.raise {d f : Dev} (h : EventsStand d f) (e : Nat) : EventsStand d (raise e f) := by
  unfold Machine.raise
  split
  · exact h.upd rfl rfl
  · refine h.trans ⟨fun hr => ?_, fun ev hev hst => raiseNow_sticky (by omega) e hst⟩
    have hreg := raiseNow_reg (offEvents_of_block (a := SYS_PWRSTAT) (by decide) (by decide)) e f
    obtain ⟨r, v, m, he⟩ := raiseNow_frame e f
    have hpw : (raiseNow e f).pw = f.pw := by rw [he]
    rwa [Raises, Dev.pstate, Dev.fld, hreg, hpw]

theorem raise_stuck {e : Nat} (he : evReserved e = false) {d : Dev} (h : Raises d) : Stuck e (raise e d) := by
  have hn : raise e d = raiseNow e d := by
    rw [Raises] at h
    rw [raise, h]
    rfl
  rw [hn]
  exact raiseNow_flag he d

/-- The tick that a fault abandons. -/
def abandonedTick (guard : Bool) (now : Nat) (t : Tick) : Tick :=
  if t.phase = .idle then t
  else { t with stopWork := true, stopAt := if t.stopWork then t.stopAt else now, slipGuard := t.slipGuard || guard,
                slipFault := t.slipFault || !guard }

theorem abandonBy_eq (guard : Bool) (d : Dev) : abandonBy guard d = { d with tick := abandonedTick guard d.now d.tick } := by
  unfold abandonBy abandonedTick
  split <;> rfl

/-! ## What a fault leaves of the device -/

/-- What a fault of class Degrade or higher sets, and what it leaves. -/
structure FaultView where
  now : Nat
  halted : Bool
  holdReq : Bool
  tick : Tick
  lanes : Vector Lane 16
  sram : Memory
  cores : Vector Core 6
  stack : List FRec
  total : Word

def faultView (d : Dev) : FaultView := ⟨d.now, d.halted, d.holdReq, d.tick, d.lanes, d.sram, d.cores, d.fu.stack, d.fu.total⟩

theorem setReg_faultView (d : Dev) (a : Nat) (v : Word) : faultView (d.setReg a v) = faultView d := rfl

theorem raise_faultView (e : Nat) (d : Dev) : faultView (raise e d) = faultView d := by
  obtain ⟨r, v, m, he⟩ := raise_frame e d
  rw [he]
  rfl

theorem abandonBy_faultView (guard : Bool) (d : Dev) :
    faultView (abandonBy guard d) = { faultView d with tick := abandonedTick guard d.now d.tick } := by
  rw [abandonBy_eq]
  rfl

theorem trimFail_faultView (code : Nat) (d : Dev) : faultView (trimFail code d) = faultView d := by
  unfold trimFail
  split
  · rw [raise_faultView]
    simp [faultView]
  · rfl

theorem logFault_faultView (l : FLog) (d : Dev) : faultView (logFault l d) = faultView d := by
  have h : faultView (logAssign d).2 = faultView d := by
    unfold logAssign
    split <;> simp [faultView]
  unfold logFault
  generalize logAssign d = p at h ⊢
  obtain ⟨_ | ⟨slot, seq⟩, e⟩ := p
  · exact h
  · simpa [faultView] using h

theorem logFlush_faultView (d : Dev) : faultView (logFlush d) = faultView d := by
  unfold logFlush
  generalize d.fu.logs = l
  induction l generalizing d with
  | nil => rfl
  | cons x t ih => exact (ih _).trans (logFault_faultView x d)

/-- The stack of a device in which a record has arrived. -/
def stackedUnit (r : FRec) (abandon : Bool) (f : FaultUnit) : FaultUnit :=
  { f with
    stack := (stackPush r f.stack).1
    logs := (f.logs ++ [(⟨r, abandon, false⟩ : FLog)]).map (FLog.arrived (stackPush r f.stack).1 (stackPush r f.stack).2) }

theorem enterStack_eq (r : FRec) (abandon : Bool) (d : Dev) : enterStack r abandon d =
    let e := raise 216 { d with fu := stackedUnit r abandon d.fu }
    if (stackPush r d.fu.stack).2.isSome then raise 217 (Dev.setFlag FLT_STAT 3 true (Dev.count1 FLT_OVF e)) else e := by
  simp only [enterStack, stackedUnit]
  cases (stackPush r d.fu.stack).2 <;> rfl

theorem enterStack_faultView (r : FRec) (abandon : Bool) (d : Dev) :
    faultView (enterStack r abandon d) = { faultView d with stack := (stackPush r d.fu.stack).1 } := by
  rw [enterStack_eq]
  dsimp only
  split
  · rw [raise_faultView, Dev.setFlag, setReg_faultView, Dev.count1, setReg_faultView, raise_faultView]
    rfl
  · rw [raise_faultView]
    rfl

/-- The effects of a class on what a fault sets. -/
def classView (c : Cls) (v : FaultView) : FaultView :=
  match c with
  | .hold => { v with holdReq := true }
  | .halt =>
    { v with halted := true, tick := { v.tick with phase := .idle, stopWork := true },
             lanes := v.lanes.map (fun l => { l with drive := false, next := none, wait := none }) }
  | _ => v

theorem applyClass_faultView (c : Cls) (d : Dev) : faultView (applyClass c d) = classView c (faultView d) := by
  cases c with
  | halt =>
    rw [applyClass, raise_faultView, logFlush_faultView, trimFail_faultView]
    rfl
  | degrade => simp [applyClass, pulseDue, classView, faultView]
  | slip => simp [applyClass, pulseDue, classView, faultView]
  | hold => simp [applyClass, classView, faultView]
  | note => rfl

/-! ## The events that stand after the parts of a fault -/

theorem EventsStand.abandonBy {d e : Dev} (h : EventsStand d e) (guard : Bool) : EventsStand d (abandonBy guard e) := by
  rw [abandonBy_eq]
  exact h.upd rfl rfl

theorem EventsStand.trimFail {d e : Dev} (h : EventsStand d e) (code : Nat) : EventsStand d (trimFail code e) := by
  unfold Machine.trimFail
  split
  · have hset := ((h.setFld (a := TRM_STAT) (by decide) (by decide) 1 0 3).setFld (a := TRM_STAT) (by decide) (by decide) 13 12 0).setFld
      (a := TRM_STAT) (by decide) (by decide) 19 16 code
    refine EventsStand.raise (EventsStand.count1 (a := TRM_COUNT) ?_ (by decide) (by decide)) 233
    exact hset.upd rfl rfl
  · exact h

theorem EventsStand.logFault {d e : Dev} (h : EventsStand d e) (l : FLog) : EventsStand d (logFault l e) := by
  have hassign : EventsStand d (logAssign e).2 := by
    unfold logAssign
    split
    · exact (h.setReg (by decide) (by decide) _).setReg (by decide) (by decide) _
    · exact h.count1 (by decide) (by decide)
  unfold Machine.logFault
  generalize logAssign e = p at hassign ⊢
  obtain ⟨_ | ⟨slot, seq⟩, f⟩ := p
  · exact hassign
  · exact hassign.upd rfl rfl

theorem EventsStand.logFlush {d e : Dev} (h : EventsStand d e) : EventsStand d (logFlush e) := by
  have hall : ∀ (l : List FLog) (e : Dev), EventsStand d e → EventsStand d (l.foldl (fun d l => Machine.logFault l d) e) := by
    intro l
    induction l with
    | nil => exact fun _ => id
    | cons x t ih => exact fun e he => ih _ (he.logFault x)
  exact (hall e.fu.logs e h).upd rfl rfl

theorem EventsStand.pulseDue {d e : Dev} (h : EventsStand d e) : EventsStand d (pulseDue e) :=
  (h.count1 (a := FLT_PULSECNT) (by decide) (by decide)).upd rfl rfl

theorem EventsStand.applyClass {d e : Dev} (h : EventsStand d e) (c : Cls) : EventsStand d (applyClass c e) := by
  cases c with
  | note => exact h
  | degrade => exact (h.setFlag (by decide) (by decide) 2 true).pulseDue
  | slip => exact (h.setFlag (by decide) (by decide) 1 true).pulseDue
  | hold => exact (h.setFlag (a := FLT_STAT) (by decide) (by decide) 4 true).upd rfl rfl
  | halt => refine EventsStand.raise (EventsStand.logFlush (EventsStand.trimFail (h.upd ?_ ?_) 7)) 219 <;> rfl

theorem EventsStand.enterStack {d e : Dev} (h : EventsStand d e) (r : FRec) (abandon : Bool) :
    EventsStand d (enterStack r abandon e) := by
  rw [enterStack_eq]
  have hraise := (h.upd (f := { e with fu := stackedUnit r abandon e.fu }) rfl rfl).raise 216
  dsimp only
  split
  · exact ((hraise.count1 (by decide) (by decide)).setFlag (by decide) (by decide) 3 true).raise 217
  · exact hraise

theorem enterStack_stuck (r : FRec) (abandon : Bool) {d : Dev} (h : Raises d) : Stuck 216 (enterStack r abandon d) := by
  have h216 := raise_stuck (e := 216) (by decide) (d := { d with fu := stackedUnit r abandon d.fu }) h
  rw [enterStack_eq]
  dsimp only
  split
  · exact ((((EventsStand.refl _).count1 (by decide) (by decide)).setFlag (by decide) (by decide) 3 true).raise 217).2 216
      (by decide) h216
  · exact h216

/-! ## A fault of class Degrade or higher -/

section
variable (ev : Nat) (c : Cls) (detail : Word) (infp abandon guard : Bool) (d : Dev)

/-- Before the stack: the event, the ID that the fault takes, and the tick that it abandons. -/
def faultBegun : Dev :=
  let e := { raise ev d with fu := { d.fu with total := d.fu.total + 1 } }
  if abandon then abandonBy guard e else e

/-- The device with the record in its stack. -/
def faultStacked : Dev := enterStack (recordOf ev c detail infp d) abandon (faultBegun ev abandon guard d)

theorem faultAt_eq (hc : c ≠ .note) : faultAt ev c detail infp abandon guard d =
    watchFaultN (fun d => applyClass c (faultStacked ev c detail infp abandon guard d)) d := by
  obtain ⟨r, v, m, he⟩ := raise_frame ev d
  refine watchFaultN_congr ?_
  simp only [if_neg hc, faultStacked, faultBegun, recordOf, he, Dev.stamp, Dev.stampAt]

theorem faultStacked_faultView : faultView (faultStacked ev c detail infp abandon guard d) =
    { faultView d with
      stack := (stackPush (recordOf ev c detail infp d) d.fu.stack).1
      total := d.fu.total + 1
      tick := if abandon then abandonedTick guard d.now d.tick else d.tick } := by
  obtain ⟨r, v, m, he⟩ := raise_frame ev d
  have hbegun : faultView (faultBegun ev abandon guard d) =
      { faultView d with
        total := d.fu.total + 1, tick := if abandon then abandonedTick guard d.now d.tick else d.tick } := by
    cases abandon
    · simp [faultBegun, faultView, he]
    · simp [faultBegun, abandonBy_faultView, he]
      simp [faultView]
  have hstack : (faultBegun ev abandon guard d).fu.stack = d.fu.stack := congrArg FaultView.stack hbegun
  rw [faultStacked, enterStack_faultView, hbegun, hstack]

theorem watchFaultN_events (f : Dev → Dev) (d : Dev) : EventsStand (f d) (watchFaultN f d) := by
  rcases watchFaultN_cases f d with hw | hw
  · rw [hw]
    exact .refl _
  · rw [hw]
    exact ((EventsStand.refl _).vecSet .a 2).vecSet .b 2

theorem faultBegun_events : EventsStand (raise ev d) (faultBegun ev abandon guard d) := by
  have h := (EventsStand.refl (raise ev d)).upd (f := { raise ev d with fu := { d.fu with total := d.fu.total + 1 } }) rfl rfl
  cases abandon
  · exact h
  · exact h.abandonBy guard

variable (hc : c ≠ .note)
include hc

/-- What a fault of class Degrade or higher leaves. -/
theorem faultAt_faultView : faultView (faultAt ev c detail infp abandon guard d) = classView c
    { faultView d with
      stack := (stackPush (recordOf ev c detail infp d) d.fu.stack).1
      total := d.fu.total + 1
      tick := if abandon then abandonedTick guard d.now d.tick else d.tick } := by
  have h := (applyClass_faultView c (faultStacked ev c detail infp abandon guard d)).trans
    (congrArg (classView c) (faultStacked_faultView ev c detail infp abandon guard d))
  rw [faultAt_eq _ _ _ _ _ _ _ hc]
  rcases watchFaultN_cases (fun d => applyClass c (faultStacked ev c detail infp abandon guard d)) d with hw | hw
  · rw [hw]
    exact h
  · rw [hw]
    exact h

/-- The effects of the class come last: what stands before them stands. -/
theorem faultAt_events : EventsStand (applyClass c (faultStacked ev c detail infp abandon guard d))
    (faultAt ev c detail infp abandon guard d) := by
  rw [faultAt_eq _ _ _ _ _ _ _ hc]
  exact watchFaultN_events (fun d => applyClass c (faultStacked ev c detail infp abandon guard d)) d

theorem EventsStand.faultAt {e : Dev} (h : EventsStand e d) : EventsStand e (faultAt ev c detail infp abandon guard d) :=
  (((h.raise ev).trans (faultBegun_events ev abandon guard d)).enterStack _ abandon |>.applyClass c).trans
    (faultAt_events ev c detail infp abandon guard d hc)

/-- The source event of a fault and event 216 stand. -/
theorem faultAt_stuck (he : evReserved ev = false) (hr : Raises d) :
    Stuck ev (faultAt ev c detail infp abandon guard d) ∧ Stuck 216 (faultAt ev c detail infp abandon guard d) := by
  have h256 : ev < 256 := by
    simp only [evReserved, Bool.or_eq_false_iff, decide_eq_false_iff_not] at he
    omega
  have hbegun := faultBegun_events ev abandon guard d
  have hend := ((EventsStand.refl (faultStacked ev c detail infp abandon guard d)).applyClass c).trans
    (faultAt_events ev c detail infp abandon guard d hc)
  have hstacked := (EventsStand.refl _).enterStack (d := faultBegun ev abandon guard d) (recordOf ev c detail infp d) abandon
  exact ⟨((hbegun.trans hstacked).trans hend).2 ev h256 (raise_stuck he hr),
    hend.2 216 (by decide) (enterStack_stuck _ _ (hbegun.1 (((EventsStand.refl d).raise ev).1 hr)))⟩

/-- A fault of class Degrade or higher enters the stack (R349). -/
theorem fault_entered (he : evReserved ev = false) (hr : Raises d) : Entered ev c detail d (fault ev c detail d) := by
  have hview := faultAt_faultView ev c detail false (decide (c = .slip)) (decide (ev = 3)) d hc
  obtain ⟨hsource, h216⟩ := faultAt_stuck ev c detail false (decide (c = .slip)) (decide (ev = 3)) d hc he hr
  refine ⟨(congrArg FaultView.stack hview).trans ?_, (congrArg FaultView.total hview).trans ?_, hsource, h216⟩
  · cases c <;> rfl
  · cases c <;> rfl

end

/-- A Halt raises event 219. -/
theorem fault_halt_stuck (ev : Nat) (detail : Word) {d : Dev} (hr : Raises d) : Stuck 219 (fault ev .halt detail d) := by
  have hall : EventsStand d (logFlush (trimFail 7 (haltOutputs { faultStacked ev .halt detail false false (decide (ev = 3)) d with
      halted := true
      tick := { (faultStacked ev .halt detail false false (decide (ev = 3)) d).tick with phase := .idle, stopWork := true } }))) := by
    refine (EventsStand.trimFail (EventsStand.upd (e := faultStacked ev .halt detail false false (decide (ev = 3)) d) ?_ ?_ ?_) 7).logFlush
    · exact (((EventsStand.refl d).raise ev).trans (faultBegun_events ev _ _ d)).enterStack _ _
    · rfl
    · rfl
  exact (faultAt_events ev .halt detail false false (decide (ev = 3)) d (by decide)).2 219 (by decide)
    (raise_stuck (by decide) (hall.1 hr))

end Sys2Proof.Proofs
end

section
/-! PROOFS. The registers that a fault leaves (R347, R349). -/
namespace Sys2Proof.Proofs
open Sys2Proof Sys2Proof.Machine Sys2Proof.Claims

section
variable {a : Nat} (h : OffEvents a) (hb : a / 0x10000 ≠ 0x10E)
include h hb

theorem enterStack_reg (r : FRec) (abandon : Bool) (d : Dev) : (enterStack r abandon d).reg a = d.reg a := by
  have hovf : a ≠ FLT_OVF := fun hc => hb (by subst hc; decide)
  have hstat : a ≠ FLT_STAT := fun hc => hb (by subst hc; decide)
  have h216 := raise_reg h 216 { d with fu := stackedUnit r abandon d.fu }
  rw [enterStack_eq]
  dsimp only
  split
  · rw [raise_reg h, Dev.reg_setFlag_other _ _ _ _ _ hstat, Dev.reg_count1_other _ _ _ hovf]
    exact h216
  · exact h216

theorem applyClass_reg {c : Cls} (hh : c ≠ .halt) (d : Dev) : (applyClass c d).reg a = d.reg a := by
  have hstat : a ≠ FLT_STAT := fun hc => hb (by subst hc; decide)
  have hpulse : a ≠ FLT_PULSECNT := fun hc => hb (by subst hc; decide)
  have hdue (i : Nat) : (pulseDue (Dev.setFlag FLT_STAT i true d)).reg a = d.reg a :=
    (Dev.reg_count1_other _ _ _ hpulse).trans (Dev.reg_setFlag_other _ _ _ _ _ hstat)
  cases c with
  | note => rfl
  | degrade => exact hdue 2
  | slip => exact hdue 1
  | hold => exact Dev.reg_setFlag_other _ _ _ _ _ hstat
  | halt => exact absurd rfl hh

/-- Outside its own block and the events a fault that is not a Halt leaves the registers. -/
theorem faultAt_reg {c : Cls} (hc : c ≠ .note) (hh : c ≠ .halt) (ev : Nat) (detail : Word) (infp abandon guard : Bool) (d : Dev) :
    (faultAt ev c detail infp abandon guard d).reg a = d.reg a := by
  have hbegun : (faultBegun ev abandon guard d).reg a = d.reg a := by
    cases abandon
    · exact raise_reg h ev d
    · exact (Dev.reg_congr (by simp [faultBegun, abandonBy_eq]) a).trans (raise_reg h ev d)
  have hall : (applyClass c (faultStacked ev c detail infp abandon guard d)).reg a = d.reg a :=
    (applyClass_reg h hb hh _).trans ((enterStack_reg h hb _ _ _).trans hbegun)
  rw [faultAt_eq _ _ _ _ _ _ _ hc]
  rcases watchFaultN_cases (fun d => applyClass c (faultStacked ev c detail infp abandon guard d)) d with hw | hw
  · rw [hw]
    exact hall
  · rw [hw, vecBoth_reg h]
    exact hall

end

/-- A Hold fault asks for Hold: HOLDF stands. -/
theorem fault_hold_asked (ev : Nat) (detail : Word) (d : Dev) : HoldAsked (fault ev .hold detail d) := by
  have hview := faultAt_faultView ev .hold detail false false (decide (ev = 3)) d (by decide)
  refine ⟨?_, (congrArg FaultView.holdReq hview :)⟩
  have hstat : (applyClass .hold (faultStacked ev .hold detail false false (decide (ev = 3)) d)).flag FLT_STAT 4 = true := by
    rw [Dev.flag]
    exact (congrArg (bit · 4) (Dev.flag_setFlag _ FLT_STAT 4 true)).trans (bit_setBit_same (by decide) _)
  change (faultAt ev .hold detail false false (decide (ev = 3)) d).flag FLT_STAT 4 = true
  rw [faultAt_eq _ _ _ _ _ _ _ (by decide)]
  rcases watchFaultN_cases (fun d => applyClass .hold (faultStacked ev .hold detail false false (decide (ev = 3)) d)) d with hw | hw
  · rw [hw]
    exact hstat
  · rw [hw, Dev.flag, vecBoth_reg (offEvents_of_block (by decide) (by decide))]
    exact hstat

end Sys2Proof.Proofs
end

section
/-! PROOFS. The edge (R36 to R43, R51) and the slip limit (R44). -/
namespace Sys2Proof.Proofs
open Sys2Proof Sys2Proof.Machine Sys2Proof.Claims

/-! ## No two copies of the commit logic agree (R37) -/

theorem edgeAt_halted {v : CommitVote} (snap : Dev) {old : Dev} (hh : (voted v old).halted = true) :
    edgeAt v snap old = voted v old := by
  unfold edgeAt
  extract_lets d ran commits demand cycles causes lim d0 d1 _ d2
  exact if_pos hh

/-- What a Halt leaves (R121). -/
theorem fault_halt_faultView (ev : Nat) (detail : Word) (d : Dev) : faultView (fault ev .halt detail d) = classView .halt
    { faultView d with stack := (stackPush (recordOf ev .halt detail false d) d.fu.stack).1, total := d.fu.total + 1 } :=
  faultAt_faultView ev .halt detail false false (decide (ev = 3)) d (by decide)

theorem fault_halt_stands (ev : Nat) (detail : Word) {d : Dev} (hr : Raises d) : HaltStands (fault ev .halt detail d) := by
  have hview := fault_halt_faultView ev detail d
  refine ⟨congrArg FaultView.halted hview, congrArg (·.tick.phase) hview, fun n => ?_, fault_halt_stuck ev detail hr⟩
  have hlanes := congrArg FaultView.lanes hview
  simp only [faultView, classView] at hlanes
  simp [Dev.lane, hlanes]

/-- A tick that may commit and has no majority halts the device at the instant of the edge. -/
theorem edgeAt_noMajority {old : Dev} (snap : Dev) (hm : mayCommit old = true) :
    edgeAt .noMajority snap old = fault 2 .halt 7 (old.reach old.tick.due) := by
  have hv : voted .noMajority old = fault 2 .halt 7 (old.reach old.tick.due) := if_pos hm
  rw [edgeAt_halted snap (by rw [hv]; exact congrArg FaultView.halted (fault_halt_faultView 2 7 _)), hv]

theorem exec_tickEdge_noMajority {s : State} (hrun : Running s.dev) (hp : s.dev.tick.phase = .stage) (ht : NoTimed s.dev)
    (ha : s.dev.tick.abandoning = false) (hr : Raises s.dev) :
    ∃ d, exec (.tickEdge .noMajority) s = .next { s with dev := d } ∧ HaltStands d ∧ d.sram = s.dev.sram ∧
      d.cores = s.dev.cores ∧ d.tick.count = s.dev.tick.count ∧ d.now = max s.dev.now s.dev.tick.due ∧
      Entered 2 .halt 7 { s.dev with now := d.now } d := by
  have hview := fault_halt_faultView 2 7 (s.dev.reach s.dev.tick.due)
  have hnow : (fault 2 .halt 7 (s.dev.reach s.dev.tick.due)).now = max s.dev.now s.dev.tick.due := congrArg FaultView.now hview
  have hh : (fault 2 .halt 7 (s.dev.reach s.dev.tick.due)).halted = true := congrArg FaultView.halted hview
  have hr' : Raises (s.dev.reach s.dev.tick.due) := hr
  have hex := exec_tickEdge_stage .noMajority hrun hp ht
  rw [edgeAt_noMajority s.snap (by simp [mayCommit, ha]), if_pos hh] at hex
  refine ⟨_, hex, fault_halt_stands 2 7 hr', congrArg FaultView.sram hview, congrArg FaultView.cores hview,
    congrArg (·.tick.count) hview, hnow, ?_⟩
  rw [hnow]
  exact fault_entered 2 .halt 7 (s.dev.reach s.dev.tick.due) (by decide) (by decide) hr'

/-! ## An abandoned tick (R42, R43, R51) -/

theorem exec_tickEdge_abandoned {s : State} (v : CommitVote) (hrun : Running s.dev) (hp : s.dev.tick.phase = .stage)
    (ht : NoTimed s.dev) (ha : s.dev.tick.abandoning = true) :
    ∃ d, exec (.tickEdge v) s = .next { s with dev := d, snap := d } ∧ d.sram = s.dev.sram := by
  obtain ⟨-, hhalt, -, -⟩ := id hrun
  have hm : mayCommit s.dev = false := by simp [mayCommit, ha, hp]
  obtain ⟨hclock, hsram⟩ := edgeAt_counts (v := v) s.snap hhalt (.inr hm)
  have hh : (edgeAt v s.snap s.dev).halted = false := congrArg EdgeClock.halted hclock
  exact ⟨_, by rw [exec_tickEdge_stage v hrun hp ht, hh]; rfl, hsram hm⟩

theorem ticking_of_not_running {d : Dev} (h : ¬ Running d) : ticking d = false := by
  simp only [Running, ticking, monHeld] at h ⊢
  grind

/-! ## Staged writes of tick SRAM (R39) -/

/-- Tick SRAM after one staged write of it. -/
def sramAfter (m : Memory) (x : Staged) : Memory :=
  match x.w with
  | .sram a n v => m.write a n v
  | _ => m

theorem foldl_commitOne_sram (l : List Staged) (hl : ∀ x ∈ l, ∃ a n v, x.w = .sram a n v) (d : Dev) :
    (l.foldl commitOne d).sram = l.foldl sramAfter d.sram := by
  induction l generalizing d with
  | nil => rfl
  | cons x t ih =>
    obtain ⟨a, n, v, hx⟩ := hl x (List.mem_cons_self ..)
    have hone : (commitOne d x).sram = sramAfter d.sram x := by simp [commitOne, sramAfter, hx]
    rw [List.foldl_cons, List.foldl_cons, ih (fun y hy => hl y (List.mem_cons_of_mem _ hy)), hone]

/-- Staged writes of tick SRAM alone commit in order. -/
theorem commitWrites_sram (l : List Staged) (d : Dev) (hl : ∀ x ∈ l, ∃ a n v, x.w = .sram a n v) :
    (commitWrites l d).sram = l.foldl sramAfter d.sram := by
  have hview := congrArg EdgeView.sram (commitWrites_view l d)
  have hports := congrArg EdgeView.sram
    (forAll_view (fun j d => setOut_view d (aoKey j) 0) 4 ((d.setOut 0x2504 0).setOut 0x2508 0))
  exact hview.trans ((foldl_commitOne_sram l hl _).trans (congrArg (l.foldl sramAfter) hports))

end Sys2Proof.Proofs
end

section
/-! PROOFS. The edge of an abandoned tick (R42, R43, R51), the slip limit (R44), and O51. -/
namespace Sys2Proof.Proofs
open Sys2Proof Sys2Proof.Machine Sys2Proof.Claims

/-! ## What the axes, the engine's status and the journal leave at an abandoned edge -/

/-- The cores, the power unit, the folded slips, and the registers below the host block. -/
structure SlipView where
  cores : Vector Core 6
  pw : Power
  folded : Nat
  low : Nat → Word

def slipView (d : Dev) : SlipView := ⟨d.cores, d.pw, d.ev.folded, fun a => if a < 0x01020000 then d.reg a else 0⟩

@[simp] theorem setAxis_slip (d : Dev) (n : Fin 16) (x : Axis) : slipView (d.setAxis n x) = slipView d := by rfl
@[simp] theorem setGroup_slip (d : Dev) (g : Fin 4) (x : Group) : slipView (d.setGroup g x) = slipView d := by rfl
@[simp] theorem setVg_slip (d : Dev) (g : Fin 4) (x : VGraph) : slipView (d.setVg g x) = slipView d := by rfl
@[simp] theorem setCel_slip (d : Dev) (c : Cellar) : slipView (d.setCel c) = slipView d := by rfl
@[simp] theorem setLane_slip (d : Dev) (n : Fin 16) (x : Lane) : slipView (d.setLane n x) = slipView d := by rfl

theorem setReg_slip {a : Nat} (h : 0x01020000 ≤ a) (v : Word) (d : Dev) : slipView (d.setReg a v) = slipView d := by
  refine congrArg (SlipView.mk d.cores d.pw d.ev.folded) (funext fun b => ?_)
  split
  · rw [Dev.reg_setReg, if_neg (by omega)]
  · rfl

theorem trigOne_folded (e k : Nat) (d : Dev) : (trigOne e k d).ev.folded = d.ev.folded := by
  unfold trigOne
  dsimp only
  split <;> simp

theorem routeTo_folded (p : HostPort) (v : Nat) (d : Dev) : (routeTo p v d).ev.folded = d.ev.folded := by
  unfold routeTo vecSet
  (repeat' split) <;> simp

theorem raise_tick (e : Nat) (d : Dev) : (raise e d).tick = d.tick := by
  obtain ⟨r, v, m, he⟩ := raise_frame e d
  rw [he]

/-- An event folds no slip. -/
theorem raise_folded (e : Nat) (d : Dev) : (raise e d).ev.folded = d.ev.folded := by
  have hrest : ∀ (r : Word) (x : Dev), x.ev.folded = d.ev.folded →
      (forAll 4 (trigOne e) (routeTo .b (bits r 12 8) (routeTo .a (bits r 4 0) x))).ev.folded = d.ev.folded := fun r x hx => by
    rw [forAll_keeps (π := fun d : Dev => d.ev.folded) (fun k d => trigOne_folded e k d), routeTo_folded, routeTo_folded, hx]
  unfold raise raiseNow
  split
  · rfl
  · split
    · rfl
    · dsimp only
      split <;> exact hrest _ _ rfl

theorem raise_slip (e : Nat) (d : Dev) : slipView (raise e d) = slipView d := by
  have hreg : (fun a => if a < 0x01020000 then (raise e d).reg a else 0) = fun a => if a < 0x01020000 then d.reg a else 0 :=
    funext fun a => by
      split
      · rw [raise_reg (offEvents_of_block (by omega) (by omega))]
      · rfl
  have hfolded := raise_folded e d
  obtain ⟨r, v, m, he⟩ := raise_frame e d
  rw [slipView, hreg, hfolded, he]
  rfl

@[simp] theorem foldl_slip {α : Type} {f : Dev → α → Dev} (h : ∀ d x, slipView (f d x) = slipView d) (l : List α) (d : Dev) :
    slipView (l.foldl f d) = slipView d := by
  induction l generalizing d with
  | nil => rfl
  | cons x t ih => exact (ih _).trans (h d x)

@[simp] theorem axStat_slip (n : Fin 16) (i : Nat) (b : Bool) (d : Dev) :
    slipView (Dev.setFlag (AX_STAT n) i b d) = slipView d := setReg_slip (by unfold AX_STAT; omega) _ d

@[simp] theorem axAlert_slip (n : Fin 16) (cause : Nat) (d : Dev) : slipView (axAlert n cause d) = slipView d := by
  rw [axAlert, raise_slip, setAxis_slip, axStat_slip]
  exact setReg_slip (by unfold AX_STAT; omega) _ d

@[simp] theorem segStart_slip (g : Fin 4) (d : Dev) : slipView (segStart g d) = slipView d := by
  simp only [segStart]
  split <;> simp

@[simp] theorem segRest_slip (s : Seg) (m : Fin 16) (d : Dev) : slipView (segRest s m d) = slipView d := by rfl

@[simp] theorem axDone_slip (n : Fin 16) (d : Dev) : slipView (axDone n d) = slipView d :=
  (raise_slip _ _).trans (axStat_slip ..)

@[simp] theorem segEnd_slip (commits : Bool) (g : Fin 4) (d : Dev) : slipView (segEnd commits g d) = slipView d := by
  unfold segEnd
  dsimp only
  (repeat' split) <;> simp

@[simp] theorem groupsHold_slip (d : Dev) : slipView (groupsHold d) = slipView d := by
  simp [groupsHold, groupEdge, apply_ite slipView]

@[simp] theorem visRevert_slip (old d : Dev) : slipView (visRevert old d) = slipView d :=
  foldl_slip (fun d k => (setReg_slip (by unfold VIS_G_STAT; omega) _ _).trans (setVg_slip ..)) _ d

@[simp] theorem journalTick_slip (committed : Nat) (d : Dev) : slipView (journalTick committed d) = slipView d := setCel_slip ..

/-! ## An abandoned tick -/

/-- The cores as they revert, with their check states. -/
def coresReverted (snap d : Dev) : Dev :=
  forAll 6 (fun k d =>
    (d.setCore (Fin.ofNat 6 k) ((snap.core (Fin.ofNat 6 k)).revert (d.core (Fin.ofNat 6 k)))).setReg (CEL_CKSTAT k)
      (snap.reg (CEL_CKSTAT k))) d

/-- What an abandoned tick takes back. -/
def tickReverted (snap d : Dev) : Dev :=
  journalTick 0 (visRevert snap (groupsHold
    (forAxes (fun n d => d.setLane n (laneRevert (snap.lane n) (d.lane n))) (coresReverted snap d))))

/-- The slip counted, with its causes. -/
def slipCounted (causes : Nat) (d : Dev) : Dev :=
  let d := Dev.count1 TCK_CONSEC (Dev.count1 TCK_SLIPS d)
  let d := d.setReg TCK_SLIPCAUSE (d.reg TCK_SLIPCAUSE ||| word causes)
  { d with tick := { d.tick with abandoned := true }, ev := { d.ev with folded := d.ev.folded + 1 } }

theorem edgeAbandon_eq (causes : Nat) (snap d : Dev) :
    edgeAbandon causes snap d = raise 0 (slipCounted causes (tickReverted snap d)) := by
  simp only [edgeAbandon, tickReverted, slipCounted, coresReverted]

theorem coresReverted_core (snap d : Dev) (k : Fin 6) :
    (coresReverted snap d).core k = (snap.core k).revert (d.core k) := by
  have hat := forAll_at (π := fun d : Dev => d.core k) (g := (snap.core k).revert) (k := k.val) (n := 6)
    (f := fun j d => (d.setCore (Fin.ofNat 6 j) ((snap.core (Fin.ofNat 6 j)).revert (d.core (Fin.ofNat 6 j)))).setReg (CEL_CKSTAT j)
      (snap.reg (CEL_CKSTAT j)))
    (fun j hj hne s => Dev.core_setCore_other s k (Fin.ofNat 6 j) _ (fun hc => hne (by rw [hc]; exact (Nat.mod_eq_of_lt hj).symm)))
    (fun s => by
      have hk : Fin.ofNat 6 k.val = k := Fin.ext (Nat.mod_eq_of_lt k.isLt)
      rw [hk]
      exact Dev.core_setCore s k _) d
  rwa [if_pos k.isLt] at hat

theorem coresReverted_slip (snap d : Dev) :
    slipView (coresReverted snap d) = { slipView d with cores := (coresReverted snap d).cores } := by
  have hkeeps {α : Type} {π : SlipView → α} (hc : ∀ x c, π { x with cores := c } = π x) :
      π (slipView (coresReverted snap d)) = π (slipView d) :=
    forAll_keeps (π := fun d => π (slipView d)) (fun j d => by
      rw [setReg_slip (by unfold CEL_CKSTAT; omega)]
      exact hc (slipView d) _) 6 d
  have hpw := hkeeps (π := SlipView.pw) (fun _ _ => rfl)
  have hfolded := hkeeps (π := SlipView.folded) (fun _ _ => rfl)
  have hlow := hkeeps (π := SlipView.low) (fun _ _ => rfl)
  calc slipView (coresReverted snap d)
      = ⟨(coresReverted snap d).cores, (slipView (coresReverted snap d)).pw, (slipView (coresReverted snap d)).folded,
          (slipView (coresReverted snap d)).low⟩ := rfl
    _ = _ := by rw [hpw, hfolded, hlow]

theorem tickReverted_slip (snap d : Dev) :
    slipView (tickReverted snap d) = { slipView d with cores := (coresReverted snap d).cores } := by
  simp [tickReverted, coresReverted_slip]

/-- The cores are as they revert; the power unit, the folded slips and the registers below the host block stand. -/
theorem tickReverted_leaves (snap d : Dev) : (tickReverted snap d).cores = (coresReverted snap d).cores ∧
    (tickReverted snap d).pw = d.pw ∧ (tickReverted snap d).ev.folded = d.ev.folded ∧
    ∀ a, a < 0x01020000 → (tickReverted snap d).reg a = d.reg a := by
  have h := tickReverted_slip snap d
  simp only [slipView, SlipView.mk.injEq] at h
  obtain ⟨hcores, hpw, hfolded, hlow⟩ := h
  exact ⟨hcores, hpw, hfolded, fun a ha => by simpa only [if_pos ha] using congrFun hlow a⟩

theorem slipCounted_reg (c : Nat) (d : Dev) (a : Nat) : (slipCounted c d).reg a =
    if a = TCK_SLIPS ∨ a = TCK_CONSEC then d.reg a + 1 else if a = TCK_SLIPCAUSE then d.reg a ||| word c else d.reg a := by
  have h : (slipCounted c d).reg a = ((Dev.count1 TCK_CONSEC (Dev.count1 TCK_SLIPS d)).setReg TCK_SLIPCAUSE
      ((Dev.count1 TCK_CONSEC (Dev.count1 TCK_SLIPS d)).reg TCK_SLIPCAUSE ||| word c)).reg a := Dev.reg_congr rfl a
  rw [h]
  simp only [Dev.count1, Dev.reg_setReg]
  grind

theorem slipCounted_tick (c : Nat) (d : Dev) : (slipCounted c d).tick.abandoned = true := by simp [slipCounted]

theorem slipCounted_folded (c : Nat) (d : Dev) : (slipCounted c d).ev.folded = d.ev.folded + 1 := by
  simp [slipCounted]

theorem slipCounted_core (c : Nat) (d : Dev) (k : Fin 6) : (slipCounted c d).core k = d.core k := by
  simp [slipCounted, Dev.core]

theorem slipCounted_events (c : Nat) (d : Dev) : EventsStand d (slipCounted c d) := by
  have h := (((EventsStand.refl d).count1 (a := TCK_SLIPS) (by decide) (by decide)).count1 (a := TCK_CONSEC) (by decide)
    (by decide)).setReg (a := TCK_SLIPCAUSE) (by decide) (by decide)
    ((Dev.count1 TCK_CONSEC (Dev.count1 TCK_SLIPS d)).reg TCK_SLIPCAUSE ||| word c)
  exact h.upd (by simp only [slipCounted]) (by simp [slipCounted])

theorem edgeAbandon_reg (c : Nat) (snap d : Dev) {a : Nat} (ha : a < 0x01020000) : (edgeAbandon c snap d).reg a =
    if a = TCK_SLIPS ∨ a = TCK_CONSEC then d.reg a + 1 else if a = TCK_SLIPCAUSE then d.reg a ||| word c else d.reg a := by
  obtain ⟨-, -, -, hreg⟩ := tickReverted_leaves snap d
  rw [edgeAbandon_eq, raise_reg (offEvents_of_block (by omega) (by omega)), slipCounted_reg, hreg a ha]

/-- Event 0 stands after an abandoned tick. -/
theorem edgeAbandon_stuck (c : Nat) (snap : Dev) {d : Dev} (hr : Raises d) : Stuck 0 (edgeAbandon c snap d) := by
  obtain ⟨-, hpw, -, hreg⟩ := tickReverted_leaves snap d
  have hraises : Raises (tickReverted snap d) := by
    rw [Raises, Dev.pstate, Dev.fld, hreg SYS_PWRSTAT (by decide), hpw]
    exact hr
  rw [edgeAbandon_eq]
  exact raise_stuck (by decide) ((slipCounted_events c _).1 hraises)

theorem edgeAbandon_tick (c : Nat) (snap d : Dev) : (edgeAbandon c snap d).tick.abandoned = true := by
  rw [edgeAbandon_eq, raise_tick, slipCounted_tick]

theorem edgeAbandon_folded (c : Nat) (snap d : Dev) : (edgeAbandon c snap d).ev.folded = d.ev.folded + 1 := by
  obtain ⟨-, -, hfolded, -⟩ := tickReverted_leaves snap d
  rw [edgeAbandon_eq, raise_folded, slipCounted_folded, hfolded]

theorem edgeAbandon_core (c : Nat) (snap d : Dev) (k : Fin 6) :
    (edgeAbandon c snap d).core k = (snap.core k).revert (d.core k) := by
  obtain ⟨hcores, -, -, -⟩ := tickReverted_leaves snap d
  rw [edgeAbandon_eq, raise_core, slipCounted_core, ← coresReverted_core, Dev.core, hcores, Dev.core]

theorem edgeAbandon_sram (c : Nat) (snap d : Dev) : (edgeAbandon c snap d).sram = d.sram := by
  have h := edgeAbandon_view c snap d
  simp only [edgeView, EdgeView.mk.injEq] at h
  exact h.2

/-! ## The slip limit (R44) -/

/-- The device whose slip limit is reached, before the fault. -/
def limitNoted (d : Dev) : Dev := Dev.setFlag TCK_SLIPCAUSE 3 true { d with tick := { d.tick with limitDone := true } }

theorem exec_slipLimit_reached {s : State} (hrun : Running s.dev) (hr : Raises s.dev) (hp : s.dev.tick.phase ≠ .idle)
    (hm : s.dev.fld TCK_CFG 7 0 ≤ (s.dev.reg TCK_CONSEC).toNat) (hl : s.dev.tick.limitDone = false) :
    ∃ d, exec .slipLimit s = .next { s with dev := d } ∧ HoldAsked d ∧
      Entered 4 .hold (word (s.dev.fld TCK_CFG 7 0)) s.dev d ∧ d.flag TCK_SLIPCAUSE 3 = true ∧
      d.tick = { s.dev.tick with limitDone := true } := by
  let w := word (s.dev.fld TCK_CFG 7 0)
  have hview := faultAt_faultView 4 .hold w false false false (limitNoted s.dev) (by decide)
  have hraises : Raises (limitNoted s.dev) :=
    (((EventsStand.refl s.dev).upd rfl rfl).setFlag (a := TCK_SLIPCAUSE) (by decide) (by decide) 3 true).1 hr
  refine ⟨fault 4 .hold w (limitNoted s.dev), ?_, fault_hold_asked 4 w _,
    fault_entered 4 .hold w (limitNoted s.dev) (by decide) (by decide) hraises, ?_, congrArg FaultView.tick hview⟩
  · simp [exec, execSlipLimit, slipLimit, ticking_of_running hrun, hp, hm, hl, w, limitNoted]
  · have hreg := faultAt_reg (a := TCK_SLIPCAUSE) (offEvents_of_block (by decide) (by decide)) (by decide) (c := .hold) (by decide)
      (by decide) 4 w false false false (limitNoted s.dev)
    have hflag : (limitNoted s.dev).flag TCK_SLIPCAUSE 3 = true :=
      (congrArg (bit · 3) (Dev.flag_setFlag _ TCK_SLIPCAUSE 3 true)).trans (bit_setBit_same (by decide) _)
    exact (congrArg (bit · 3) hreg).trans hflag

theorem exec_slipLimit_not {s : State}
    (h : (s.dev.reg TCK_CONSEC).toNat < s.dev.fld TCK_CFG 7 0 ∨ s.dev.tick.limitDone = true) : exec .slipLimit s = .next s := by
  have hd : slipLimit s.dev = s.dev := by
    refine if_neg fun hc => ?_
    simp only [Bool.and_eq_true, decide_eq_true_eq, Bool.not_eq_true'] at hc
    obtain ⟨⟨-, hm⟩, hl⟩ := hc
    rcases h with h | h
    · omega
    · simp [hl] at h
  rw [exec, execSlipLimit, hd]

/-- Settles O51: the parts of an edge, each by what it leaves. -/
theorem tickEdges : Obligations.TickEdges := by
  unfold Obligations.TickEdges
  refine ⟨fun s v => ⟨fun hrun hp ht => exec_tickEdge_stage v hrun hp ht, fun hrun => ?_, fun hrun hp ht ha hr hv => ?_,
    fun hrun hp ht ha => exec_tickEdge_abandoned v hrun hp ht ha⟩, fun d l hl => commitWrites_sram l d hl, fun c snap d hr => ?_,
    fun s => ⟨exec_slipLimit_reached, exec_slipLimit_not⟩⟩
  · simp [exec, execTickEdge, tickEdge, ticking_of_not_running hrun]
  · subst hv
    exact exec_tickEdge_noMajority hrun hp ht ha hr
  · refine ⟨edgeAbandon_sram c snap d, edgeAbandon_reg c snap d (by decide), edgeAbandon_reg c snap d (by decide),
      edgeAbandon_reg c snap d (by decide), edgeAbandon_stuck c snap hr, edgeAbandon_tick c snap d, edgeAbandon_folded c snap d,
      fun k => ?_⟩
    rw [edgeAbandon_core]
    exact ⟨rfl, rfl, rfl, rfl, rfl, rfl, rfl, rfl⟩

end Sys2Proof.Proofs
end

section
/-! PROOFS. The end of Capture and the start of Compute (R51, R52, R234). -/
namespace Sys2Proof.Proofs
open Sys2Proof Sys2Proof.Machine Sys2Proof.Claims

/-! ## What the end of Capture and the admission of items leave -/

/-- What neither sets: of the tick all but its staged writes. -/
structure AdmitView where
  now : Nat
  tick : Tick
  sram : Memory
  lanes : Vector Lane 16
  loader : Loader
  cores : Vector Core 6

/-- What the end of Capture leaves, but for the flags of the carts. -/
structure CaptureView where
  admitted : AdmitView
  staged : List Staged

def captureView (d : Dev) : CaptureView :=
  ⟨⟨d.now, { d.tick with staged := [] }, d.sram, d.lanes, d.loader, d.cores⟩, d.tick.staged⟩

@[simp] theorem captureView_ite {c : Prop} [Decidable c] (a b : Dev) :
    captureView (if c then a else b) = if c then captureView a else captureView b := apply_ite ..

@[simp] theorem CaptureView.admitted_ite {c : Prop} [Decidable c] (a b : CaptureView) :
    (if c then a else b).admitted = if c then a.admitted else b.admitted := apply_ite ..

@[simp] theorem foldl_capture {α : Type} {f : Dev → α → Dev} (h : ∀ d x, captureView (f d x) = captureView d) (l : List α)
    (d : Dev) : captureView (l.foldl f d) = captureView d := by
  induction l generalizing d with
  | nil => rfl
  | cons x t ih => exact (ih _).trans (h d x)

@[simp] theorem forAll_capture {f : Nat → Dev → Dev} (h : ∀ i d, captureView (f i d) = captureView d) (n : Nat) (d : Dev) :
    captureView (forAll n f d) = captureView d := foldl_capture (fun d x => h x d) _ _

@[simp] theorem setReg_capture (d : Dev) (a : Nat) (v : Word) : captureView (d.setReg a v) = captureView d := by rfl
@[simp] theorem setFld_capture (a hi lo v : Nat) (d : Dev) : captureView (Dev.setFld a hi lo v d) = captureView d := by rfl
@[simp] theorem setFlag_capture (a i : Nat) (b : Bool) (d : Dev) : captureView (Dev.setFlag a i b d) = captureView d := by rfl
@[simp] theorem count1_capture (a : Nat) (d : Dev) : captureView (Dev.count1 a d) = captureView d := by rfl
@[simp] theorem setRx_capture (d : Dev) (p : Fin 2) (x : Rx) : captureView (d.setRx p x) = captureView d := by rfl
@[simp] theorem setVg_capture (d : Dev) (g : Fin 4) (x : VGraph) : captureView (d.setVg g x) = captureView d := by rfl
@[simp] theorem setCh_capture (d : Dev) (c : Fin 16) (x : FbCh) : captureView (d.setCh c x) = captureView d := by rfl
@[simp] theorem setLatch_capture (d : Dev) (j : Fin 8) (x : Latch) : captureView (d.setLatch j x) = captureView d := by rfl
@[simp] theorem setTdl_capture (d : Dev) (x : Tendril) : captureView (d.setTdl x) = captureView d := by rfl
@[simp] theorem freeCtr_capture (d : Dev) (n : Nat) : captureView { d with freeCtr := n } = captureView d := by rfl
@[simp] theorem tickFree_capture (d : Dev) : captureView d.tickFree = captureView d := by rfl

@[simp] theorem raise_capture (e : Nat) (d : Dev) : captureView (raise e d) = captureView d := by
  obtain ⟨r, v, m, he⟩ := raise_frame e d
  rw [he]
  rfl

@[simp] theorem visStatus_capture (g : Fin 4) (d : Dev) : captureView (visStatus g d) = captureView d := by rfl

@[simp] theorem visSkip_capture (g : Fin 4) (d : Dev) : captureView (visSkip g d) = captureView d := by simp [visSkip]

@[simp] theorem visSlot_capture (g : Fin 4) (gr : Graph) (l : Frame) (r : Option Frame) (d : Dev) :
    captureView (visSlot g gr l r d) = captureView d := by
  simp [visSlot]

@[simp] theorem visPair_capture (g : Fin 4) (gr : Graph) (f : Frame) (d : Dev) :
    captureView (visPair g gr f d) = captureView d := by
  unfold visPair
  dsimp only
  (repeat' split) <;> simp

@[simp] theorem visOffer_capture (f : Frame) (d : Dev) : captureView (visOffer f d) = captureView d :=
  forAll_capture (fun k d => by dsimp only; split <;> simp) 4 d

@[simp] theorem visAccept_capture (g : Fin 4) (d : Dev) : captureView (visAccept g d) = captureView d := by
  unfold visAccept
  dsimp only
  split <;> simp

@[simp] theorem visCapture_capture (d : Dev) : captureView (visCapture d) = captureView d := by simp [visCapture]

@[simp] theorem fbCaptureEnd_capture (c : Fin 16) (d : Dev) : captureView (fbCaptureEnd c d) = captureView d := by
  simp [fbCaptureEnd]

@[simp] theorem latchCapture_capture (j : Fin 8) (d : Dev) : captureView (latchCapture j d) = captureView d := by
  unfold latchCapture
  dsimp only
  split <;> simp

@[simp] theorem fieldCapture_capture (d : Dev) : captureView (fieldCapture d) = captureView d := by rfl

@[simp] theorem tdlCapture_capture (d : Dev) : captureView (tdlCapture d) = captureView d := by rfl

/-! ## Admission -/

@[simp] theorem stageAt_admitted (cycle : Nat) (w : Writer) (x : Write) (d : Dev) :
    (captureView (stageAt cycle w x d)).admitted = (captureView d).admitted := by rfl

@[simp] theorem setDramBytes_capture (a : Nat) (bs : List Byte) (d : Dev) : captureView (setDramBytes a bs d) = captureView d := by
  induction bs generalizing a d with
  | nil => rfl
  | cons b t ih =>
    rw [setDramBytes, ih, Dev.setDramByte]
    split <;> rfl

@[simp] theorem openArea_capture (r : FreeArea) (d : Dev) : captureView (openArea r d) = captureView d := by rfl

@[simp] theorem fullField_capture (gr : Graph) (k t c : Nat) (d : Dev) : captureView (fullField gr k t c d) = captureView d := by
  simp [fullField]

@[simp] theorem putOut_admitted (dram : Bool) (cyc a : Nat) (bs : List Byte) (d : Dev) :
    (captureView (putOut dram cyc a bs d)).admitted = (captureView d).admitted := by
  simp [putOut]

@[simp] theorem runCoarse_admitted (gr : Graph) (cmin cyc k t : Nat) (a : VActive) (d : Dev) :
    (captureView (runCoarse gr cmin cyc k t a d).2).admitted = (captureView d).admitted := by
  unfold runCoarse
  dsimp only
  split <;> simp [openTile, apply_ite Prod.snd]

@[simp] theorem runRefine_admitted (gr : Graph) (cyc k t : Nat) (a : VActive) (d : Dev) :
    (captureView (runRefine gr cyc k t a d).2).admitted = (captureView d).admitted := by
  unfold runRefine
  dsimp only
  split <;> simp

@[simp] theorem admitCoarse_admitted (gr : Graph) (cmin start : Nat) (l : List (Nat × Nat)) (a : VActive) (q : Quantum) (d : Dev) :
    (captureView (admitCoarse gr cmin start l a q d).2.2).admitted = (captureView d).admitted := by
  induction l generalizing a q d with
  | nil => rfl
  | cons x t ih =>
    unfold admitCoarse
    dsimp only
    split
    · rfl
    · exact (ih ..).trans (runCoarse_admitted ..)

@[simp] theorem admitRefine_admitted (gr : Graph) (start : Nat) (l : List (Nat × Nat)) (a : VActive) (q : Quantum) (d : Dev) :
    (captureView (admitRefine gr start l a q d).2.2).admitted = (captureView d).admitted := by
  induction l generalizing a q d with
  | nil => rfl
  | cons x t ih =>
    unfold admitRefine
    dsimp only
    split
    · rfl
    · exact (ih ..).trans (runRefine_admitted ..)

@[simp] theorem visClose_admitted (g : Fin 4) (gr : Graph) (cyc : Nat) (a : VActive) (d : Dev) :
    (captureView (visClose g gr cyc a d)).admitted = (captureView d).admitted := by
  simp [visClose]

theorem admitGraph_admitted (g : Fin 4) (spent : Nat) (d : Dev) :
    (captureView (admitGraph g spent d).2).admitted = (captureView d).admitted := by
  unfold admitGraph
  split
  · rfl
  · next gr _ =>
    extract_lets n d1 q
    have h1 : (captureView d1).admitted = (captureView d).admitted := by
      simp only [d1]
      split <;> simp
    clear_value d1
    split
    · exact h1
    · next a _ =>
      extract_lets start
      have h2 := admitCoarse_admitted gr (confMin d1 g gr) start (gr.coarse.drop start) a q d1.tickFree
      generalize admitCoarse gr (confMin d1 g gr) start (gr.coarse.drop start) a q d1.tickFree = p at h2 ⊢
      obtain ⟨a2, q2, d2⟩ := p
      have h3 : (captureView (if a2.pos < n then (a2, q2, d2)
          else admitRefine gr start ((refineList gr a2).drop a2.refs) a2 q2 d2).2.2).admitted = (captureView d2).admitted := by
        split <;> simp
      dsimp only
      generalize (if a2.pos < n then (a2, q2, d2)
          else admitRefine gr start ((refineList gr a2).drop a2.refs) a2 q2 d2) = p at h3 ⊢
      obtain ⟨a3, q3, d3⟩ := p
      simp_all

theorem visAdmit_admitted (d : Dev) : (captureView (visAdmit d)).admitted = (captureView d).admitted := by
  have h (l : List Nat) (s : Nat × Dev) :
      (captureView (l.foldl (fun (s : Nat × Dev) k => admitGraph (Fin.ofNat 4 k) s.1 s.2) s).2).admitted =
        (captureView s.2).admitted := by
    induction l generalizing s with
    | nil => rfl
    | cons k t ih => exact (ih _).trans (admitGraph_admitted ..)
  exact h (List.range 4) (0, d)

end Sys2Proof.Proofs
end

section
/-! PROOFS. COMPUTE_START (R51, R52). -/
namespace Sys2Proof.Proofs
open Sys2Proof Sys2Proof.Machine Sys2Proof.Claims

/-! ## The end of Capture -/

/-- A core whose finished carts no longer show as busy. -/
def cartsShown (c : Core) : Core := { c with busy := c.busy &&& ~~~ c.done }

/-- The device at the end of Capture. -/
def captured (d : Dev) : Dev :=
  visCapture (tdlCapture (fieldCapture (cartCapture
    (forAll 8 (fun j d => latchCapture (Fin.ofNat 8 j) d) (forAxes fbCaptureEnd (d.reachTick 4500))))))

/-- The device at the start of Compute. -/
def computeBegun (d : Dev) : Dev :=
  { captured d with
    tick := { (captured d).tick with phase := .compute }, trees := { (captured d).trees with runs := [] } }

theorem cartCapture_capture (d : Dev) : captureView (cartCapture d) =
    { captureView d with
      admitted := { (captureView d).admitted with cores := (captureView d).admitted.cores.map cartsShown } } := rfl

theorem reachTick_capture (d : Dev) (ofs : Nat) : captureView (d.reachTick ofs) =
    { captureView d with admitted := { (captureView d).admitted with now := max d.now (d.tick.edgeAt + ofs) } } := rfl

theorem captured_capture (d : Dev) : captureView (captured d) =
    { captureView d with
      admitted := { (captureView d).admitted with
        now := max d.now (d.tick.edgeAt + 4500), cores := d.cores.map cartsShown } } := by
  rw [captured, visCapture_capture, tdlCapture_capture, fieldCapture_capture, cartCapture_capture,
    forAll_capture (fun j d => latchCapture_capture (Fin.ofNat 8 j) d),
    foldl_capture (fun d c => fbCaptureEnd_capture c d), reachTick_capture]
  rfl

theorem tick_eq_of_staged {t u : Tick} (h : { t with staged := [] } = { u with staged := [] }) :
    t = { u with staged := t.staged } := by
  cases t
  cases u
  simp_all

/-- What Compute begins with. -/
theorem computeBegun_leaves (d : Dev) : (computeBegun d).tick = { d.tick with phase := .compute } ∧
    (computeBegun d).now = max d.now (d.tick.edgeAt + 4500) ∧ (computeBegun d).sram = d.sram ∧
    (computeBegun d).lanes = d.lanes ∧ (computeBegun d).loader = d.loader ∧ (computeBegun d).cores = d.cores.map cartsShown := by
  have h := captured_capture d
  simp only [captureView, CaptureView.mk.injEq, AdmitView.mk.injEq] at h
  obtain ⟨⟨hnow, htick, hsram, hlanes, hloader, hcores⟩, hstaged⟩ := h
  have ht : (captured d).tick = d.tick := by rw [tick_eq_of_staged htick, hstaged]
  simp only [computeBegun, ht]
  exact ⟨trivial, hnow, hsram, hlanes, hloader, hcores⟩

/-! ## The programs start (R52) -/

theorem faultStart_empty {snap : Dev} (h : snap.fu.stack = []) (d : Dev) : faultStart snap d = none := by
  simp [faultStart, faultRuns, h]

/-- The program that core k starts, where `fp` names the core of the fault program and its entry. -/
def programOf (fp : Option (Nat × Nat)) (d : Dev) (k : Nat) : Option (Run × Nat) :=
  match fp with
  | some (f, e) => if f = k then some (.fault, e) else (tickEntry d k).map (fun e => (.tick, e))
  | none => (tickEntry d k).map (fun e => (.tick, e))

theorem programOf_congr (fp : Option (Nat × Nat)) {d e : Dev} (h : e.loader = d.loader) : programOf fp e = programOf fp d := by
  funext k
  simp [programOf, tickEntry, h]

/-- One core starts its program, if it has one. -/
def startStep (fp : Option (Nat × Nat)) (k : Nat) (d : Dev) : Dev :=
  match programOf fp d k with
  | some (r, e) => d.setCore (Fin.ofNat 6 k) ((d.core (Fin.ofNat 6 k)).begin r e)
  | none => d

theorem startCores_eq (snap d : Dev) : startCores snap d =
    { forAll 6 (startStep (faultStart snap d)) d with
      fu := { (forAll 6 (startStep (faultStart snap d)) d).fu with ran := (faultStart snap d).isSome } } := rfl

section
variable (fp : Option (Nat × Nat))

theorem startStep_loader (k : Nat) (d : Dev) : (startStep fp k d).loader = d.loader := by
  unfold startStep
  split <;> rfl

/-- A core at the start of Compute. -/
def coreStarted (d : Dev) (k : Nat) (c : Core) : Core :=
  match programOf fp d k with
  | some (r, e) => c.begin r e
  | none => c

theorem startStep_core (k : Fin 6) (d : Dev) : (startStep fp k d).core k = coreStarted fp d k (d.core k) := by
  have hk : Fin.ofNat 6 k.val = k := Fin.ext (Nat.mod_eq_of_lt k.isLt)
  unfold startStep coreStarted
  rw [hk]
  split <;> simp

theorem startStep_other {j : Nat} {k : Fin 6} (hj : j < 6) (hne : j ≠ k) (d : Dev) : (startStep fp j d).core k = d.core k := by
  unfold startStep
  split
  · exact Dev.core_setCore_other _ _ _ _ (fun hc => hne (by rw [hc]; exact (Nat.mod_eq_of_lt hj).symm))
  · rfl

theorem startStep_capture (k : Nat) (d : Dev) : captureView (startStep fp k d) =
    { captureView d with admitted := { (captureView d).admitted with cores := (startStep fp k d).cores } } := by
  unfold startStep
  split <;> rfl

end

/-- A core with a program starts it, and another stands. -/
theorem startCores_core (snap d : Dev) (k : Fin 6) :
    (startCores snap d).core k = coreStarted (faultStart snap d) d k (d.core k) := by
  have hat := forAll_at (π := fun e : Dev => (e.loader, e.core k))
    (g := fun p => (p.1, coreStarted (faultStart snap d) { d with loader := p.1 } k p.2)) (k := k.val) (n := 6)
    (f := startStep (faultStart snap d))
    (fun j hj hne e => by rw [startStep_loader, startStep_other _ hj hne])
    (fun e => by
      have hprog := programOf_congr (faultStart snap d) (d := { d with loader := e.loader }) (e := e) rfl
      rw [startStep_loader, startStep_core, coreStarted, hprog]
      rfl) d
  rw [if_pos k.isLt] at hat
  rw [startCores_eq]
  exact congrArg Prod.snd hat

/-- The start of the programs changes the cores alone. -/
theorem startCores_leaves (snap d : Dev) : (startCores snap d).tick = d.tick ∧ (startCores snap d).now = d.now ∧
    (startCores snap d).sram = d.sram := by
  have hkeeps {α : Type} {π : CaptureView → α} (hc : ∀ x c, π { x with admitted := { x.admitted with cores := c } } = π x) :
      π (captureView (forAll 6 (startStep (faultStart snap d)) d)) = π (captureView d) :=
    forAll_keeps (π := fun d => π (captureView d)) (fun j d => by rw [startStep_capture]; exact hc _ _) 6 d
  have ht := tick_eq_of_staged (hkeeps (π := fun x => x.admitted.tick) (fun _ _ => rfl))
  have hs : (forAll 6 (startStep (faultStart snap d)) d).tick.staged = d.tick.staged :=
    hkeeps (π := CaptureView.staged) (fun _ _ => rfl)
  rw [startCores_eq]
  exact ⟨by rw [ht, hs], hkeeps (π := fun x => x.admitted.now) (fun _ _ => rfl),
    hkeeps (π := fun x => x.admitted.sram) (fun _ _ => rfl)⟩

/-! ## The command -/

/-- What the programs see from the start of Compute on. -/
def computeSnap (s : State) : Dev := { computeBegun s.dev with lanes := laneLatch s.snap.lanes (computeBegun s.dev).lanes }

/-- The device after COMPUTE_START. -/
def computeDev (s : State) : Dev :=
  if (computeBegun s.dev).tick.stopWork then computeBegun s.dev else visAdmit (startCores s.snap (computeBegun s.dev))

theorem exec_computeStart_capture {s : State} (hrun : Running s.dev) (hp : s.dev.tick.phase = .capture) :
    exec .computeStart s = .next { s with dev := computeDev s, snap := computeSnap s } := by
  have h : computeStart s = { s with dev := computeDev s, snap := computeSnap s } := by
    unfold computeStart
    extract_lets d d1 d2 d3 d4 t trees d5 snap
    have hcaptured : d4 = captured s.dev := rfl
    rw [if_neg (by simp [d, ticking_of_running hrun, hp])]
    unfold computeDev computeSnap computeBegun
    rw [← hcaptured]
  exact congrArg Host.Outcome.next h

theorem computeDev_leaves (s : State) :
    (computeDev s).tick = { (computeBegun s.dev).tick with staged := (computeDev s).tick.staged } ∧
    (computeDev s).now = (computeBegun s.dev).now ∧ (computeDev s).sram = s.dev.sram := by
  obtain ⟨-, -, hsram, -⟩ := computeBegun_leaves s.dev
  unfold computeDev
  generalize computeBegun s.dev = d at hsram ⊢
  split
  · exact ⟨rfl, rfl, hsram⟩
  · have h := visAdmit_admitted (startCores s.snap d)
    obtain ⟨htick, hnow, hsr⟩ := startCores_leaves s.snap d
    simp only [captureView, AdmitView.mk.injEq] at h
    obtain ⟨hn, ht, hs, -⟩ := h
    exact ⟨by rw [tick_eq_of_staged ht, htick], by rw [hn, hnow], by rw [hs, hsr, hsram]⟩

/-- A core after COMPUTE_START where the tick's work goes on and no fault program runs. -/
theorem computeDev_core {s : State} (hw : s.dev.tick.stopWork = false) (hf : s.snap.fu.stack = []) (k : Fin 6) :
    (computeDev s).core k = coreStarted none s.dev k (cartsShown (s.dev.core k)) := by
  obtain ⟨htick, -, -, -, hloader, hcores⟩ := computeBegun_leaves s.dev
  have h := visAdmit_admitted (startCores s.snap (computeBegun s.dev))
  simp only [captureView, AdmitView.mk.injEq] at h
  obtain ⟨-, -, -, -, -, hc⟩ := h
  have hcore : (computeBegun s.dev).core k = cartsShown (s.dev.core k) := by simp [Dev.core, hcores]
  rw [computeDev, htick, if_neg (by simp [hw]), Dev.core, hc]
  exact (startCores_core s.snap (computeBegun s.dev) k).trans (by
    rw [faultStart_empty hf, hcore, coreStarted, programOf_congr none hloader]
    rfl)

theorem exec_computeStart_not {s : State} (hp : s.dev.tick.phase ≠ .capture) : exec .computeStart s = .next s := by
  simp [exec, execComputeStart, computeStart, hp]

/-- Where the work is stopped, programs see what Compute begins with, the lanes as they stood at the edge. -/
theorem computeDev_stopped {s : State} (hw : s.dev.tick.stopWork = true) :
    computeDev s = { computeSnap s with lanes := (computeDev s).lanes } := by
  obtain ⟨htick, -⟩ := computeBegun_leaves s.dev
  unfold computeDev computeSnap
  generalize computeBegun s.dev = d at htick ⊢
  rw [htick, if_pos hw]

theorem computeBegun_runs (d : Dev) : (computeBegun d).trees.runs = [] := by
  unfold computeBegun
  generalize captured d = e
  rfl

theorem computeSnap_leaves (s : State) : (computeSnap s).tick = { s.dev.tick with phase := .compute } ∧
    (computeSnap s).now = max s.dev.now (s.dev.tick.edgeAt + 4500) ∧ (computeSnap s).sram = s.dev.sram ∧
    (computeSnap s).lanes = laneLatch s.snap.lanes s.dev.lanes ∧ (computeSnap s).trees.runs = [] := by
  obtain ⟨htick, hnow, hsram, hlanes, -, -⟩ := computeBegun_leaves s.dev
  have hruns := computeBegun_runs s.dev
  unfold computeSnap
  generalize computeBegun s.dev = d at htick hnow hsram hlanes hruns ⊢
  exact ⟨htick, hnow, hsram, congrArg (laneLatch s.snap.lanes) hlanes, hruns⟩

/-- A core that starts keeps what R51 keeps. -/
theorem begin_started (n : Nat) (c : Core) : Started n c ((cartsShown c).begin .tick n) :=
  ⟨rfl, rfl, rfl, rfl, rfl, rfl, rfl, rfl, rfl, rfl, rfl⟩

theorem coreStarted_some {d : Dev} {k n : Nat} (h : tickEntry d k = some n) (c : Core) :
    Started n c (coreStarted none d k (cartsShown c)) := by
  simpa [coreStarted, programOf, h] using begin_started n c

theorem coreStarted_none {d : Dev} {k : Nat} (h : tickEntry d k = none) (c : Core) :
    (coreStarted none d k (cartsShown c)).run = c.run ∧ (coreStarted none d k (cartsShown c)).g = c.g := by
  simp [coreStarted, programOf, h, cartsShown]

theorem computeStart_parts {s : State} (hrun : Running s.dev) (hp : s.dev.tick.phase = .capture) :
    ∃ d e, exec .computeStart s = .next { s with dev := d, snap := e } ∧
      e.tick = { s.dev.tick with phase := .compute } ∧ d.tick = { e.tick with staged := d.tick.staged } ∧
      e.now = max s.dev.now (s.dev.tick.edgeAt + 4500) ∧ d.now = e.now ∧
      d.sram = s.dev.sram ∧ e.sram = s.dev.sram ∧
      e.lanes = laneLatch s.snap.lanes s.dev.lanes ∧ e.trees.runs = [] ∧
      (s.dev.tick.stopWork = false → s.snap.fu.stack = [] → ∀ k : Fin 6,
        (∀ n, tickEntry s.dev k = some n → Started n (s.dev.core k) (d.core k)) ∧
        (tickEntry s.dev k = none → (d.core k).run = (s.dev.core k).run ∧ (d.core k).g = (s.dev.core k).g)) ∧
      (s.dev.tick.stopWork = true → d = { e with lanes := d.lanes }) := by
  obtain ⟨htick, hnow, hsram, hlanes, hruns⟩ := computeSnap_leaves s
  obtain ⟨hbtick, hbnow, -⟩ := computeBegun_leaves s.dev
  obtain ⟨hdtick, hdnow, hdsram⟩ := computeDev_leaves s
  refine ⟨computeDev s, computeSnap s, exec_computeStart_capture hrun hp, htick, by rw [htick, ← hbtick, ← hdtick], hnow,
    by rw [hdnow, hbnow, hnow], hdsram, hsram, hlanes, hruns, fun hw hf k => ?_, computeDev_stopped⟩
  rw [computeDev_core hw hf]
  exact ⟨fun n hn => coreStarted_some hn _, fun hn => coreStarted_none hn _⟩

end Sys2Proof.Proofs
end

section
/-! PROOFS. Fractional edges (R43, R188). -/
namespace Sys2Proof.Proofs
open Sys2Proof Sys2Proof.Machine Sys2Proof.Claims

/-! ## One lane at a fractional edge -/

/-- A lane whose waiting compares apply: at once under a carrier, else at its next valley. -/
def comparesApplied (d : Dev) (n : Fin 16) (l : Lane) : Lane :=
  match l.next with
  | none => l
  | some v => if d.flag (CTL_CARRIER n) 31 then { l with next := none, load := v, drive := true }
      else { l with next := none, wait := some v }

/-- A lane after a fractional edge: a lane that uses it applies its compares and samples. -/
def fracLane (i : Nat) (d : Dev) (n : Fin 16) (l : Lane) : Lane :=
  if usesFrac d n i && laneRuns d n then
    { comparesApplied d n l with pmS := (d.ch (axisCh d n)).cnt, shiftS := (comparesApplied d n l).shift }
  else l

/-- The step of a lane at a fractional edge. -/
def fracStep (i : Nat) (n : Fin 16) (d : Dev) : Dev :=
  if usesFrac d n i && laneRuns d n then laneFrac n (applyCompares n d) else d

theorem setLane_setLane (d : Dev) (n : Fin 16) (x y : Lane) : (d.setLane n x).setLane n y = d.setLane n y := by
  simp [Dev.setLane]

theorem setLane_self (d : Dev) (n : Fin 16) : d.setLane n (d.lane n) = d := by
  simp [Dev.setLane, Dev.lane]

/-- A lane that runs has its waiting compares applied. -/
theorem applyCompares_eq {n : Fin 16} {d : Dev} (h : laneRuns d n = true) :
    applyCompares n d = d.setLane n (comparesApplied d n (d.lane n)) := by
  have hstop : ¬ (!laneRuns d n) = true := by simp [h]
  cases hx : (d.lane n).next with
  | none =>
    have hl : comparesApplied d n (d.lane n) = d.lane n := by simp [comparesApplied, hx]
    rw [hl, setLane_self]
    simp [applyCompares, hx]
  | some v =>
    simp only [applyCompares, comparesApplied, hx]
    rw [if_neg hstop]
    split <;> rfl

theorem laneFrac_setLane (n : Fin 16) (d : Dev) (x : Lane) : laneFrac n (d.setLane n x) =
    d.setLane n { x with pmS := (d.ch (axisCh d n)).cnt, shiftS := x.shift } := by
  rw [laneFrac, Dev.lane_setLane, setLane_setLane]
  rfl

theorem fracStep_setLane (i : Nat) (n : Fin 16) (d : Dev) : fracStep i n d = d.setLane n (fracLane i d n (d.lane n)) := by
  unfold fracStep fracLane
  split
  · next h =>
    have hrun : laneRuns d n = true := by simp_all
    rw [applyCompares_eq hrun, laneFrac_setLane]
  · exact (setLane_self d n).symm

/-- What a lane becomes depends on no other lane. -/
theorem fracLane_lanes (i : Nat) (d : Dev) (l : Vector Lane 16) : fracLane i { d with lanes := l } = fracLane i d := rfl

theorem fracStep_lanes (i : Nat) (n : Fin 16) (d : Dev) (l : Vector Lane 16) :
    fracStep i n { d with lanes := l } = { d with lanes := l.set n (fracLane i d n l[n]) } := by
  rw [fracStep_setLane, fracLane_lanes]
  rfl

/-! ## All lanes -/

/-- The lanes after the steps of those listed. -/
def fracLanes (i : Nat) (d : Dev) (ns : List (Fin 16)) (l : Vector Lane 16) : Vector Lane 16 :=
  ns.foldl (fun (l : Vector Lane 16) (n : Fin 16) => l.set n (fracLane i d n l[n])) l

theorem foldl_fracStep (i : Nat) (ns : List (Fin 16)) (d : Dev) (l : Vector Lane 16) :
    ns.foldl (fun d n => fracStep i n d) { d with lanes := l } = { d with lanes := fracLanes i d ns l } := by
  induction ns generalizing l with
  | nil => rfl
  | cons n t ih => exact (congrArg (t.foldl (fun d n => fracStep i n d)) (fracStep_lanes i n d l)).trans (ih _)

theorem fracLanes_get (i : Nat) (d : Dev) {ns : List (Fin 16)} (hn : ns.Nodup) (l : Vector Lane 16) (m : Fin 16) :
    (fracLanes i d ns l)[m] = if m ∈ ns then fracLane i d m l[m] else l[m] := by
  induction ns generalizing l with
  | nil => rfl
  | cons n t ih =>
    obtain ⟨hnt, ht⟩ := List.nodup_cons.mp hn
    have hset : (l.set n (fracLane i d n l[n]))[m] = if m = n then fracLane i d n l[n] else l[m] := by
      have hv : n.val = m.val ↔ m = n := ⟨fun h => Fin.ext h.symm, fun h => by rw [h]⟩
      simp [Fin.getElem_fin, Vector.getElem_set, hv]
    refine (ih ht _).trans ?_
    rw [hset]
    by_cases hm : m = n
    · subst hm
      simp [hnt]
    · simp [hm]

/-! ## The command -/

/-- The device after a fractional edge. -/
def fracDev (i : Nat) (d : Dev) : Dev :=
  { d with
    tick := { d.tick with fracDone := i + 1 }
    now := max d.now (d.tick.edgeAt + (i + 1) * (d.tick.due - d.tick.edgeAt) / 4)
    lanes := if d.tick.stopWork then d.lanes else fracLanes i d (List.finRange 16) d.lanes }

theorem fractionalEdge_eq {i : Fin 3} {d : Dev} (hrun : Running d) (hp : d.tick.phase = .compute) (hf : d.tick.fracDone = i.val) :
    fractionalEdge i d = fracDev i d := by
  have ht : ticking d = true := ticking_of_running hrun
  unfold fractionalEdge
  rw [if_neg (by simp [ht, hp, hf])]
  extract_lets e1 t e2
  have hstop : e2.tick.stopWork = d.tick.stopWork := rfl
  have hfrac : fracDev i d =
      { e2 with lanes := if d.tick.stopWork then d.lanes else fracLanes i e2 (List.finRange 16) d.lanes } := rfl
  rw [hstop, hfrac]
  split
  · rfl
  · exact foldl_fracStep i (List.finRange 16) e2 d.lanes

theorem exec_fractionalEdge {s : State} (hrun : Running s.dev) {i : Fin 3} (hp : s.dev.tick.phase = .compute)
    (hf : s.dev.tick.fracDone = i.val) : exec (.fractionalEdge i) s = .next { s with dev := fracDev i s.dev } := by
  have hstart : computeStart s = s := by simp [computeStart, hp]
  rw [← fractionalEdge_eq hrun hp hf]
  simp [exec, execFractionalEdge, hstart]

theorem fracDev_lane {i : Nat} {d : Dev} (hw : d.tick.stopWork = false) (n : Fin 16) :
    (fracDev i d).lane n = fracLane i d n (d.lane n) := by
  have h := fracLanes_get i d (List.nodup_finRange 16) d.lanes n
  rw [if_pos (List.mem_finRange n)] at h
  simpa [fracDev, hw, Dev.lane] using h

theorem fracLane_idle {i : Nat} {d : Dev} {n : Fin 16} (h : usesFrac d n i = false ∨ laneRuns d n = false) (l : Lane) :
    fracLane i d n l = l := by
  rw [fracLane, if_neg (by rcases h with hu | hr <;> simp [*])]

/-- A lane that uses the edge: no compares wait, and it samples its channel's count. -/
theorem fracLane_used {i : Nat} {d : Dev} {n : Fin 16} (hu : usesFrac d n i = true) (hr : laneRuns d n = true) (l : Lane) :
    (fracLane i d n l).next = none ∧ (fracLane i d n l).pmS = (d.ch (axisCh d n)).cnt ∧
      ∀ v, l.next = some v →
        (d.flag (CTL_CARRIER n) 31 = true → (fracLane i d n l).load = v ∧ (fracLane i d n l).drive = true) ∧
        (d.flag (CTL_CARRIER n) 31 = false → (fracLane i d n l).wait = some v ∧ (fracLane i d n l).load = l.load) := by
  rw [fracLane, if_pos (by simp [hu, hr])]
  cases hx : l.next with
  | none => simp [comparesApplied, hx]
  | some v =>
    cases hc : d.flag (CTL_CARRIER n) 31 with
    | true => simp [comparesApplied, hx, hc]
    | false => simp [comparesApplied, hx, hc]

theorem fractionalEdge_parts {s : State} (hrun : Running s.dev) (i : Fin 3) (hp : s.dev.tick.phase = .compute)
    (hf : s.dev.tick.fracDone = i.val) :
    ∃ d, exec (.fractionalEdge i) s = .next { s with dev := d } ∧ d.tick = { s.dev.tick with fracDone := i + 1 } ∧
      d.now = max s.dev.now (s.dev.tick.edgeAt + (i + 1) * (s.dev.tick.due - s.dev.tick.edgeAt) / 4) ∧
      d.regs = s.dev.regs ∧ Elsewhere { s.dev with tick := d.tick } d ∧
      (s.dev.tick.stopWork = true → d.lanes = s.dev.lanes) ∧
      (s.dev.tick.stopWork = false → ∀ n : Fin 16,
        (usesFrac s.dev n i = true → laneRuns s.dev n = true →
          (d.lane n).next = none ∧ (d.lane n).pmS = (s.dev.ch (axisCh s.dev n)).cnt ∧
          ∀ v, (s.dev.lane n).next = some v →
            (s.dev.flag (CTL_CARRIER n) 31 = true → (d.lane n).load = v ∧ (d.lane n).drive = true) ∧
            (s.dev.flag (CTL_CARRIER n) 31 = false → (d.lane n).wait = some v ∧ (d.lane n).load = (s.dev.lane n).load)) ∧
        ((usesFrac s.dev n i = false ∨ laneRuns s.dev n = false) → d.lane n = s.dev.lane n)) := by
  refine ⟨fracDev i s.dev, exec_fractionalEdge hrun hp hf, rfl, rfl, rfl, ⟨rfl, rfl, rfl, rfl, ⟨rfl, rfl⟩, rfl, rfl, rfl, rfl⟩,
    fun hw => if_pos hw, fun hw n => ?_⟩
  rw [fracDev_lane hw n]
  exact ⟨fun hu hr => fracLane_used hu hr _, fun h => fracLane_idle h _⟩

end Sys2Proof.Proofs
end

section
/-! PROOFS. STAGE_START (R33, R102, R165). -/
namespace Sys2Proof.Proofs
open Sys2Proof Sys2Proof.Machine Sys2Proof.Claims

/-! ## Where no write is held and no timed write waits -/

theorem heldComplete_empty {p : HostPort} {d : Dev} (h : (d.port p).held = []) (demand : Bool) : heldComplete p demand d = d := by
  simp [heldComplete, h, heldRun]

theorem heldBoth_empty {d : Dev} (ha : d.pa.held = []) (hb : d.pb.held = []) (demand : Bool) :
    heldComplete .b demand (heldComplete .a demand d) = d := by
  rw [heldComplete_empty (p := .a) ha, heldComplete_empty (p := .b) hb]

theorem acceptAll_empty {p : HostPort} {d : Dev} (h : (d.port p).timed = []) : acceptAll p d = d := by
  simp [acceptAll, h]

/-- With nothing held and nothing timed the end of Compute only waits for its last cycle. -/
theorem stageClose_empty {d : Dev} (ha : d.pa.held = []) (hb : d.pb.held = []) (ht : NoTimed d) (demand : Bool) :
    stageClose demand d = d.reach d.lastCycle := by
  obtain ⟨hta, htb⟩ := ht
  have hA : ((d.reach d.lastCycle).port .a).timed = [] := hta
  have hB : ((d.reach d.lastCycle).port .b).timed = [] := htb
  rw [stageClose, heldBoth_empty ha hb, acceptInstant, acceptAll_empty hA, acceptAll_empty hB]

/-! ## What the acceptance of timed writes leaves -/

@[simp] theorem stageHost_view (by_ : Writer) (w : Write) (d : Dev) : edgeView (stageHost by_ w d) = edgeView d := by
  unfold stageHost
  split <;> simp [stageAt]

@[simp] theorem stageMem_view (w : Writer) (r : Area) (a n v : Nat) (d : Dev) : edgeView (stageMem w r a n v d) = edgeView d := by
  unfold stageMem
  split <;> simp

@[simp] theorem refuse_view (w : Writer) (d : Dev) : edgeView (w.refuse d) = edgeView d := by
  cases w with
  | monitor =>
    unfold Writer.refuse
    dsimp only
    split <;> simp
  | host p => exact setRefuse_view p d
  | timed p => exact setRefuse_view p d
  | core k => rfl
  | engine => rfl

@[simp] theorem periodError_view (d : Dev) : edgeView (periodError d) = edgeView d := by simp [periodError]

@[simp] theorem stageReg_view (w : Writer) (a : Nat) (v : Word) (d : Dev) : edgeView (stageReg w a v d).2 = edgeView d := by
  unfold stageReg
  split
  · rfl
  · (repeat' split) <;> simp

@[simp] theorem peakClear_view (d : Dev) : edgeView (peakClear d) = edgeView d := by
  simp [peakClear]

@[simp] theorem commandSlip_view (d : Dev) : edgeView (commandSlip d) = edgeView d := by
  unfold commandSlip
  split <;> simp

@[simp] theorem tckCmd_view (v : Word) (d : Dev) : edgeView (tckCmd v d) = edgeView d := by simp [tckCmd]

@[simp] theorem acceptOne_view (p : HostPort) (t : Timed) (d : Dev) : edgeView (acceptOne p t d) = edgeView d := by
  have hstaged : ∀ x : Option Area, edgeView (match x with
      | some .regs => if t.addr = TCK_CMD then (0, tckCmd t.data d) else stageReg (.timed p) t.addr t.data d
      | some r => (0, stageMem (.timed p) r t.addr 4 t.data.toNat d)
      | none => (3, d)).2 = edgeView d := by
    intro x
    split
    · split <;> simp
    · simp
    · rfl
  have h := hstaged (accessRegion t.addr 4)
  unfold acceptOne
  split
  · simp
  · split
    · simp
    · split
      next st e he =>
        have hd : edgeView e = edgeView d := by
          rw [← h]
          exact congrArg (fun p : Nat × Dev => edgeView p.2) he.symm
        split <;> simp [hd]

@[simp] theorem acceptAll_view (p : HostPort) (d : Dev) : edgeView (acceptAll p d) = edgeView d :=
  foldl_view (fun d t => acceptOne_view p t d) _ _

/-! ## What Stage leaves -/

theorem sendImage_leaves (im : IslImage) (d : Dev) : (sendImage im d).tick = d.tick ∧ (sendImage im d).sram = d.sram := by
  unfold sendImage
  dsimp only
  split <;> exact ⟨rfl, rfl⟩

theorem stagePlan_leaves (d : Dev) : (stagePlan d).tick = d.tick ∧ (stagePlan d).sram = d.sram := by
  unfold stagePlan
  generalize planAll { edgePreview d with sram := d.sram } = v
  extract_lets v' e
  obtain ⟨ht, hs⟩ : e.tick = d.tick ∧ e.sram = d.sram :=
    List.foldlRecOn (motive := fun e : Dev => e.tick = d.tick ∧ e.sram = d.sram) _ _ ⟨rfl, rfl⟩ (fun _ h _ _ => h)
  clear_value e
  obtain ⟨hti, hsi⟩ := sendImage_leaves (fieldImage v') { e with freeCtr := v'.freeCtr }
  exact ⟨hti.trans ht, hsi.trans hs⟩

/-! ## The guard -/

/-- The cores that still run a program. -/
def lateCores (d : Dev) : List Nat := (List.range 6).filter (fun k => (d.core (Fin.ofNat 6 k)).runs)

/-- A tree invocation of the tick is not over at the end of Compute. -/
def treesLate (d : Dev) : Bool := d.trees.runs.any (fun r => decide (d.tickBudget < r.ends))

/-- TCK_GUARD as the guard sets it. -/
def guardBits (d : Dev) : Nat := sumList ((lateCores d).map (fun k => 2 ^ k)) + 64 * b2n (treesLate d)

/-- The device with the guard's bits set and the listed cores stopped. -/
def guardStopped (d : Dev) : Dev :=
  (lateCores d).foldl (fun d k => d.setCore (Fin.ofNat 6 k) { d.core (Fin.ofNat 6 k) with run := .stopped })
    (d.setReg TCK_GUARD (word (guardBits d)))

/-- The fault program is among the programs that still run. -/
def lateFault (d : Dev) : Bool := (lateCores d).any (fun k => decide ((d.core (Fin.ofNat 6 k)).run = .fault))

/-- A tick program is among the programs that still run. -/
def latePlain (d : Dev) : Bool := (lateCores d).any (fun k => decide ((d.core (Fin.ofNat 6 k)).run = .tick))

theorem guardCheck_idle {d : Dev} (h : guardBits d = 0) : guardCheck d = d := if_pos h

theorem guardCheck_late {d : Dev} (h : guardBits d ≠ 0) : guardCheck d =
    let e := if lateFault d then escalate 3 true (guardStopped d) else guardStopped d
    if latePlain d || !lateFault d then fault 3 .slip (word (guardBits d)) e else e := if_neg h

@[simp] theorem guardStopped_view (d : Dev) : edgeView (guardStopped d) = edgeView d := by
  rw [guardStopped, foldl_view (fun d k => setCore_view _ _ _), setReg_view]

@[simp] theorem escalate_view (ev : Nat) (guard : Bool) (d : Dev) : edgeView (escalate ev guard d) = edgeView d := by
  apply watchFaultN_view
  simp

@[simp] theorem guardCheck_view (d : Dev) : edgeView (guardCheck d) = edgeView d := by
  by_cases h : guardBits d = 0
  · rw [guardCheck_idle h]
  · rw [guardCheck_late h]
    simp

/-! ## The command -/

/-- The device at the end of Compute, the guard's check done. -/
def stageGuarded (demand : Bool) (d : Dev) : Dev :=
  let e := (stageClose demand d).reachTick (d.tickLen - 6000)
  if e.tick.stopWork then e else guardCheck e

theorem stageStart_eq {d : Dev} (hrun : Running d) (hp : d.tick.phase = .compute) (demand : Bool) : stageStart demand d =
    let e := { stageGuarded demand d with tick := { (stageGuarded demand d).tick with phase := .stage } }
    if e.tick.abandoning then e else stagePlan e := by
  rw [stageStart, if_neg (by simp [ticking_of_running hrun, hp])]
  rfl

theorem exec_stageStart {s : State} (hp : s.dev.tick.phase = .compute) :
    exec .stageStart s = .next { s with dev := stageStart (hrnDemand s.snap) s.dev } := by
  have hstart : computeStart s = s := by simp [computeStart, hp]
  simp [exec, execStageStart, hstart]

theorem stageClose_leaves {d : Dev} (ha : d.pa.held = []) (hb : d.pb.held = []) (demand : Bool) :
    edgeView (stageClose demand d) = edgeView (d.reach d.lastCycle) := by
  rw [stageClose, heldBoth_empty ha hb, acceptAll_view, acceptAll_view, acceptInstant]

theorem stageGuarded_leaves {d : Dev} (ha : d.pa.held = []) (hb : d.pb.held = []) (demand : Bool) :
    (stageGuarded demand d).sram = d.sram ∧ (stageGuarded demand d).tick.count = d.tick.count := by
  have hclose := stageClose_leaves ha hb demand
  have hguard : edgeView (stageGuarded demand d) =
      edgeView ((stageClose demand d).reachTick (d.tickLen - 6000)) := by simp [stageGuarded]
  simp only [edgeView, EdgeView.mk.injEq, EdgeClock.mk.injEq] at hclose hguard
  obtain ⟨⟨-, -, hcount, -⟩, hsram⟩ := hclose
  obtain ⟨⟨-, -, hcount', -⟩, hsram'⟩ := hguard
  exact ⟨hsram'.trans hsram, hcount'.trans hcount⟩

/-- STAGE_START leaves tick SRAM and TCK_COUNT. -/
theorem stageStart_leaves {s : State} (hrun : Running s.dev) (hp : s.dev.tick.phase = .compute) (ha : s.dev.pa.held = [])
    (hb : s.dev.pb.held = []) : ∃ d, exec .stageStart s = .next { s with dev := d } ∧ d.tick.phase = .stage ∧
      d.sram = s.dev.sram ∧ d.tick.count = s.dev.tick.count := by
  refine ⟨_, exec_stageStart hp, ?_⟩
  rw [stageStart_eq hrun hp]
  obtain ⟨hsram, hcount⟩ := stageGuarded_leaves ha hb (hrnDemand s.snap)
  generalize stageGuarded (hrnDemand s.snap) s.dev = e at hsram hcount
  dsimp only
  split
  · exact ⟨rfl, hsram, hcount⟩
  · obtain ⟨htick, hs⟩ := stagePlan_leaves { e with tick := { e.tick with phase := .stage } }
    rw [htick, hs]
    exact ⟨rfl, hsram, hcount⟩

/-! ## An abandoned tick with no program running -/

theorem guardBits_none {d : Dev} (hc : ∀ k : Fin 6, (d.core k).run ≠ .tick ∧ (d.core k).run ≠ .fault) (ht : treesLate d = false) :
    guardBits d = 0 := by
  have hlate : lateCores d = [] := by
    refine List.filter_eq_nil_iff.mpr (fun k _ => ?_)
    obtain ⟨htick, hfault⟩ := hc (Fin.ofNat 6 k)
    rw [Core.runs, decide_eq_false htick, decide_eq_false hfault]
    decide
  simp [guardBits, hlate, ht, sumList, b2n]

/-- The last cycle of Compute, then the start of Stage. -/
def stageReached (d : Dev) : Dev :=
  { d with now := max (max d.now d.lastCycle) (d.tick.edgeAt + (d.tick.due - d.tick.edgeAt - 6000)) }

theorem stageGuarded_idle {d : Dev} (ha : d.pa.held = []) (hb : d.pb.held = []) (ht : NoTimed d)
    (hc : ∀ k : Fin 6, (d.core k).run ≠ .tick ∧ (d.core k).run ≠ .fault) (hl : treesLate d = false) (demand : Bool) :
    stageGuarded demand d = stageReached d := by
  have hbits : guardBits (stageReached d) = 0 := guardBits_none (d := stageReached d) hc hl
  have hreached : (d.reach d.lastCycle).reachTick (d.tickLen - 6000) = stageReached d := rfl
  rw [stageGuarded, stageClose_empty ha hb ht, hreached, guardCheck_idle hbits]
  exact ite_self _

theorem stageStart_abandoned {s : State} (hrun : Running s.dev) (hp : s.dev.tick.phase = .compute) (ha : s.dev.pa.held = [])
    (hb : s.dev.pb.held = []) (ht : NoTimed s.dev)
    (hc : ∀ k : Fin 6, (s.dev.core k).run ≠ .tick ∧ (s.dev.core k).run ≠ .fault) (hab : s.dev.tick.abandoning = true)
    (hl : treesLate s.dev = false) :
    ∃ d, exec .stageStart s = .next { s with dev := d } ∧
      d = { s.dev with tick := { s.dev.tick with phase := .stage }, now := d.now } ∧
      d.now = max (max s.dev.now s.dev.lastCycle) (s.dev.tick.edgeAt + (s.dev.tick.due - s.dev.tick.edgeAt - 6000)) := by
  refine ⟨{ stageReached s.dev with tick := { s.dev.tick with phase := .stage } }, ?_, rfl, rfl⟩
  rw [exec_stageStart hp, stageStart_eq hrun hp, stageGuarded_idle ha hb ht hc hl]
  exact congrArg (fun d => Host.Outcome.next { s with dev := d }) (if_pos hab)

end Sys2Proof.Proofs
end

section
/-! PROOFS. The guard (R33): TCK_GUARD, and the tick that it abandons. -/
namespace Sys2Proof.Proofs
open Sys2Proof Sys2Proof.Machine Sys2Proof.Claims

/-! ## The bits of TCK_GUARD -/

/-- The sum of the powers of two at the places that p names has those bits. -/
theorem sum_two_pow_filter (n : Nat) (p : Nat → Bool) :
    (((List.range n).filter p).map (2 ^ ·)).sum = Nat.ofBits (fun k : Fin n => p k) := by
  induction n generalizing p with
  | zero => rfl
  | succ n ih =>
    have hrest : (((List.range n).map Nat.succ).filter p).map (2 ^ ·) =
        ((List.range n).filter (p ∘ Nat.succ)).map (fun k => 2 * 2 ^ k) := by
      rw [List.filter_map, List.map_map]
      exact List.map_congr_left (fun k _ => pow_succ' 2 k)
    have hsum : ((((List.range n).map Nat.succ).filter p).map (2 ^ ·)).sum = 2 * Nat.ofBits (fun k : Fin n => p (k + 1)) := by
      rw [hrest, List.sum_map_mul_left, ih]
      rfl
    rw [List.range_succ_eq_map, Nat.ofBits_succ]
    cases h0 : p 0 with
    | true =>
      rw [List.filter_cons_of_pos h0, List.map_cons, List.sum_cons, hsum]
      exact (Nat.add_comm _ _).trans (congrArg _ (congrArg Bool.toNat h0).symm)
    | false =>
      rw [List.filter_cons_of_neg (by simp [h0]), hsum]
      exact congrArg (_ + ·) (congrArg Bool.toNat h0).symm

theorem guardBits_eq (d : Dev) : guardBits d =
    2 ^ 6 * b2n (treesLate d) + Nat.ofBits (fun k : Fin 6 => (d.core (Fin.ofNat 6 k)).runs) := by
  rw [guardBits, sumList, ← List.sum_eq_foldl, lateCores, sum_two_pow_filter, Nat.add_comm]
  rfl

/-- Bit k of TCK_GUARD: core k still ran. -/
theorem bit_guardBits (d : Dev) (k : Fin 6) : bit (word (guardBits d)) k.val = (d.core k).runs := by
  have hk : Fin.ofNat 6 k.val = k := Fin.ext (Nat.mod_eq_of_lt k.isLt)
  rw [guardBits_eq, bit, word, BitVec.getLsbD_ofNat, Nat.testBit_two_pow_mul_add _ (Nat.ofBits_lt_two_pow _), if_pos k.isLt,
    Nat.testBit_ofBits_lt _ _ k.isLt, hk, decide_eq_true (by omega), Bool.true_and]

/-- Bit 6 of TCK_GUARD: a tree invocation was not over. -/
theorem bit_guardBits_trees (d : Dev) : bit (word (guardBits d)) 6 = treesLate d := by
  rw [guardBits_eq, bit, word, BitVec.getLsbD_ofNat, Nat.testBit_two_pow_mul_add _ (Nat.ofBits_lt_two_pow _), if_neg (by decide)]
  cases treesLate d <;> rfl

theorem guardBits_pos {d : Dev} (h : treesLate d = true) : guardBits d ≠ 0 := by
  rw [guardBits, h, b2n]
  simp

/-! ## The cores are stopped -/

theorem guardStopped_eq (d : Dev) :
    guardStopped d = { d.setReg TCK_GUARD (word (guardBits d)) with cores := (guardStopped d).cores } :=
  List.foldlRecOn (motive := fun e : Dev => e = { d.setReg TCK_GUARD (word (guardBits d)) with cores := e.cores }) _ _ rfl
    (fun e h k _ => congrArg (fun x : Dev => { x with cores := (e.setCore (Fin.ofNat 6 k)
      { e.core (Fin.ofNat 6 k) with run := .stopped }).cores }) h)

theorem guardStopped_faultView (d : Dev) : faultView (guardStopped d) = { faultView d with cores := (guardStopped d).cores } := by
  rw [guardStopped_eq]
  rfl

theorem guardStopped_reg (d : Dev) : (guardStopped d).reg TCK_GUARD = word (guardBits d) := by
  rw [guardStopped_eq]
  exact (Dev.reg_setReg _ _ _ _).trans (if_pos rfl)

theorem guardStopped_raises {d : Dev} (hr : Raises d) : Raises (guardStopped d) := by
  rw [guardStopped_eq]
  exact ((EventsStand.refl d).setReg (a := TCK_GUARD) (by decide) (by decide) _).1 hr

theorem guardStopped_record (ev : Nat) (c : Cls) (detail : Word) (infp : Bool) (d : Dev) :
    recordOf ev c detail infp (guardStopped d) = recordOf ev c detail infp d := by
  rw [guardStopped_eq]
  rfl

/-! ## A Slip fault follows (R33, R42) -/

/-- The tick that the guard abandons. -/
theorem abandonedTick_guard {now : Nat} {t : Tick} (h : t.phase ≠ .idle) :
    (abandonedTick true now t).slipGuard = true ∧ (abandonedTick true now t).stopWork = true := by
  rw [abandonedTick, if_neg h]
  exact ⟨Bool.or_true _, rfl⟩

theorem guardCheck_slip {d : Dev} (hf : ∀ k : Fin 6, (d.core k).run ≠ .fault) (hb : guardBits d ≠ 0) :
    guardCheck d = fault 3 .slip (word (guardBits d)) (guardStopped d) := by
  have hlate : lateFault d = false := List.any_eq_false.mpr (fun k _ => by simpa using hf (Fin.ofNat 6 k))
  rw [guardCheck_late hb, hlate]
  simp

section
variable {d : Dev} (hf : ∀ k : Fin 6, (d.core k).run ≠ .fault) (hb : guardBits d ≠ 0)
include hf hb

theorem guardCheck_reg : (guardCheck d).reg TCK_GUARD = word (guardBits d) := by
  rw [guardCheck_slip hf hb, fault, faultAt_reg (offEvents_of_block (by decide) (by decide)) (by decide) (by decide) (by decide),
    guardStopped_reg]

theorem guardCheck_faultView : faultView (guardCheck d) = { faultView (guardStopped d) with
    stack := (stackPush (recordOf 3 .slip (word (guardBits d)) false d) d.fu.stack).1
    total := d.fu.total + 1
    tick := abandonedTick true d.now d.tick } := by
  have hview := guardStopped_faultView d
  have h := faultAt_faultView 3 .slip (word (guardBits d)) false true true (guardStopped d) (by decide)
  rw [guardStopped_record] at h
  simp only [faultView, FaultView.mk.injEq] at hview
  obtain ⟨hnow, -, -, htick, -, -, -, hstack, htotal⟩ := hview
  rw [hnow, htick, hstack, htotal] at h
  rw [guardCheck_slip hf hb]
  exact h

theorem guardCheck_entered (hr : Raises d) : Entered 3 .slip (word (guardBits d)) d (guardCheck d) := by
  have hview := guardCheck_faultView hf hb
  obtain ⟨-, -, hev, h216⟩ := fault_entered 3 .slip (word (guardBits d)) (guardStopped d) (by decide) (by decide)
    (guardStopped_raises hr)
  rw [← guardCheck_slip hf hb] at hev h216
  exact ⟨congrArg FaultView.stack hview, congrArg FaultView.total hview, hev, h216⟩

theorem guardCheck_abandons (hp : d.tick.phase ≠ .idle) :
    (guardCheck d).tick.slipGuard = true ∧ (guardCheck d).tick.stopWork = true := by
  have htick : (guardCheck d).tick = abandonedTick true d.now d.tick := congrArg FaultView.tick (guardCheck_faultView hf hb)
  rw [htick]
  exact abandonedTick_guard hp

end

/-! ## One core still runs -/

/-- A tick program, and no other, still runs. -/
def OnlyLate (k : Fin 6) (d : Dev) : Prop :=
  (d.core k).run = .tick ∧ ∀ j : Fin 6, j ≠ k → (d.core j).run ≠ .tick ∧ (d.core j).run ≠ .fault

section
variable {d : Dev} {k : Fin 6} (h : OnlyLate k d)
include h

theorem OnlyLate.no_fault (j : Fin 6) : (d.core j).run ≠ .fault := by
  obtain ⟨hk, hother⟩ := h
  by_cases hj : j = k
  · rw [hj, hk]
    decide
  · exact (hother j hj).2

theorem OnlyLate.runs (j : Fin 6) : (d.core j).runs = decide (j = k) := by
  obtain ⟨hk, hother⟩ := h
  by_cases hj : j = k
  · rw [hj, Core.runs, hk]
    simp
  · obtain ⟨htick, hfault⟩ := hother j hj
    simp [Core.runs, htick, hfault, hj]

theorem OnlyLate.lateCores_single : lateCores d = [k.val] := by
  have hone : ∀ k : Fin 6, (List.range 6).filter (fun j => decide (Fin.ofNat 6 j = k)) = [k.val] := by decide
  rw [← hone k, lateCores]
  exact List.filter_congr (fun j _ => h.runs (Fin.ofNat 6 j))

theorem OnlyLate.guardBits_single (ht : treesLate d = false) : guardBits d = 2 ^ k.val := by
  rw [guardBits, h.lateCores_single, ht]
  simp [sumList, b2n]

theorem OnlyLate.core_stopped : ((guardStopped d).core k).run = .stopped := by
  have hk : Fin.ofNat 6 k.val = k := Fin.ext (Nat.mod_eq_of_lt k.isLt)
  rw [guardStopped, h.lateCores_single, List.foldl_cons, List.foldl_nil, hk, Dev.core_setCore]

/-- The guard stops the core and abandons the tick. -/
theorem OnlyLate.guardCheck_single (hr : Raises d) (hp : d.tick.phase ≠ .idle) (ht : treesLate d = false) :
    (guardCheck d).reg TCK_GUARD = word (2 ^ k.val) ∧ ((guardCheck d).core k).run = .stopped ∧
    (guardCheck d).tick.slipGuard = true ∧ (guardCheck d).tick.stopWork = true ∧
    Entered 3 .slip (word (2 ^ k.val)) d (guardCheck d) := by
  have hbits := h.guardBits_single ht
  have hb : guardBits d ≠ 0 := by
    rw [hbits]
    exact (Nat.two_pow_pos _).ne'
  have hcores : (guardCheck d).cores = (guardStopped d).cores :=
    congrArg FaultView.cores (guardCheck_faultView h.no_fault hb)
  obtain ⟨hguard, hstop⟩ := guardCheck_abandons h.no_fault hb hp
  rw [← hbits, Dev.core, hcores]
  exact ⟨guardCheck_reg h.no_fault hb, h.core_stopped, hguard, hstop, guardCheck_entered h.no_fault hb hr⟩

end

/-! ## A tree invocation still runs -/

theorem guardCheck_trees {d : Dev} (hp : d.tick.phase ≠ .idle) (hf : ∀ k : Fin 6, (d.core k).run ≠ .fault)
    (ht : treesLate d = true) : (guardCheck d).flag TCK_GUARD 6 = true ∧ (guardCheck d).tick.stopWork = true ∧
      ∀ k : Fin 6, (guardCheck d).flag TCK_GUARD k.val = decide ((d.core k).run = .tick) := by
  have hb := guardBits_pos ht
  obtain ⟨-, hstop⟩ := guardCheck_abandons hf hb hp
  refine ⟨?_, hstop, fun k => ?_⟩
  · rw [Dev.flag, guardCheck_reg hf hb, bit_guardBits_trees, ht]
  · rw [Dev.flag, guardCheck_reg hf hb, bit_guardBits, Core.runs, decide_eq_false (hf k), Bool.or_false]

end Sys2Proof.Proofs
end

section
/-! PROOFS. HELD_WT_WRITE_COMPLETE (R40, R96), and O50. -/
namespace Sys2Proof.Proofs
open Sys2Proof Sys2Proof.Machine Sys2Proof.Claims

/-! ## A held write of tick SRAM -/

/-- One held write: it completes unless it still waits for room. -/
theorem heldComplete_one {p : HostPort} {d : Dev} {x : PortWrite} (h : (d.port p).held = [x]) (demand : Bool) :
    heldComplete p demand d = if x.waits p d then d
      else portWrite p verifyGood demand x (d.setPort p { d.port p with held := [] }) := by
  simp only [heldComplete, h, List.length_singleton, heldRun]

section
variable {p : HostPort} {d : Dev} {a n : Nat} (hn : 0 < n) (hh : d.reins.holder = some p) (ha : a + n ≤ 0x400000)
include hn hh ha

/-- It waits while the staging area of its port is full. -/
theorem waits_sram (v : DWord) : (PortWrite.dev a n v).waits p d = decide (256 ≤ stagedBy p d) := by
  have hs : needsStage a n d = true := by rw [needsStage, accessRegion_sram hn ha]
  have hw : (PortWrite.dev a n v).waits p d = mustHold p a n d := rfl
  rw [hw, mustHold, hs, decide_eq_true hh, Bool.true_and, Bool.true_and]

theorem portWrite_sram (demand : Bool) (v : DWord) :
    portWrite p verifyGood demand (.dev a n v) d = stageHost (.host p) (.sram a n v.toNat) d := by
  have hw : portWrite p verifyGood demand (.dev a n v) d = (hostWrite p verifyGood demand a n v.toNat d).2 := rfl
  rw [hw, hostWrite_memory (accessRegion_sram hn ha) (by decide), if_neg (not_not_intro hh)]
  rfl

end

theorem exec_heldWtWriteComplete {p : HostPort} {s : State} {d : Dev} (h : heldComplete p (hrnDemand s.snap) s.dev = d)
    (hr : s.dev.ready = true → d.ready = true) : exec (.heldWtWriteComplete p) s = .next { s with dev := d } := by
  have he : exec (.heldWtWriteComplete p) s = .next (s.putDev (heldComplete p (hrnDemand s.snap) s.dev)) := rfl
  rw [he, h, State.putDev_keep s d hr]

/-- It is staged once there is room, and waits on while there is none. -/
theorem heldWrite_completes {p : HostPort} {s : State} {a : Nat} {sz : AccSize} {v : DWord}
    (hw : (s.dev.port p).held = [.dev a (accBytes sz) v]) (hh : s.dev.reins.holder = some p) (ha : a + accBytes sz ≤ 0x400000) :
    (stagedBy p s.dev < 256 → ∃ d, exec (.heldWtWriteComplete p) s = .next { s with dev := d } ∧
      d = stageHost (.host p) (.sram a (accBytes sz) v.toNat) (s.dev.setPort p { s.dev.port p with held := [] })) ∧
    (256 ≤ stagedBy p s.dev → exec (.heldWtWriteComplete p) s = .next s) := by
  have hone := heldComplete_one hw (hrnDemand s.snap)
  rw [waits_sram (accBytes_pos sz) hh ha] at hone
  refine ⟨fun hroom => ⟨_, exec_heldWtWriteComplete ?_ ?_, rfl⟩, fun hfull => exec_heldWtWriteComplete (d := s.dev) ?_ id⟩
  · rw [hone, decide_eq_false (by omega), if_neg (by decide),
      portWrite_sram (accBytes_pos sz) ((congrArg Reins.holder (Dev.setPort_reins _ _ _)).trans hh) ha]
  · intro hr
    rw [stageHost_ready, Dev.setPort_ready, hr]
  · rw [hone, decide_eq_true hfull, if_pos rfl]

/-! ## O50 -/

/-- Settles O50: COMPUTE_START, the fractional edges, STAGE_START, the guard's check and held writes, each by its own lemma. -/
theorem tickParts : Obligations.TickParts := by
  unfold Obligations.TickParts
  refine ⟨fun s hrun => ⟨computeStart_parts hrun, exec_computeStart_not, fun i => fractionalEdge_parts hrun i,
    fun hp ha hb ht hc hab hl => stageStart_abandoned hrun hp ha hb ht hc hab hl,
    fun hp ha hb => stageStart_leaves hrun hp ha hb⟩, ?_, ?_, ?_⟩
  · exact fun d k hr hp hk hother ht => OnlyLate.guardCheck_single ⟨hk, hother⟩ hr hp ht
  · exact fun d _ hp hf ht => guardCheck_trees hp hf ht
  · exact fun p s a sz v _ hw hh ha => heldWrite_completes hw hh ha

end Sys2Proof.Proofs
end

section
/-! PROOFS. Instructions on the registers of a core (03_limath.md, *Instruction list*): what one that executes leaves, and the
results of the integer instructions (R53, R56, R58, R59). -/
namespace Sys2Proof.Proofs
open Sys2Proof Sys2Proof.Machine Sys2Proof.Claims

/-! ## What an instruction that executes leaves -/

section OneRegister
variable {o : Lim} {s : State} {legal : Bool} {reads dsts : List Nat} {cost lat : Nat}

/-- The cycle in which an instruction that reads some registers issues (R56). -/
def issueAt (o : Lim) (s : State) (reads : List Nat) : Nat := (from_ o s).cyc + stallOf (from_ o s) reads

/-- An instruction on registers that executes performs its operation and retires. -/
theorem limReg_on (h : Executes o s) (hl : legal = true) (op : Core → Core) : limReg o legal reads cost lat dsts op s =
    withCore o s ((op (from_ o s)).retire (issueAt o s reads) cost lat dsts) := by
  rw [limReg, limDev_on h hl]
  rfl

end OneRegister

section Writes
variable {c c' : Core} {rd : Nat}

/-- CST bits that are set afterwards stick, and nothing else changes. -/
theorem Untouched.sticky (h : Untouched c c') (m : Nat) : Untouched c (c'.sticky m) :=
  ⟨h.stack, h.lc, h.body, h.run, h.cask, h.bad, h.imem, h.consts, h.dmem, h.busy, h.done, h.err⟩

theorem Sticks.sticky (h : Sticks c c' 0) (m : Nat) : Sticks c (c'.sticky m) m := by
  rw [Sticks, Core.sticky, h, word, BitVec.or_zero]

theorem OnlyG.sticky {v : Word} (h : OnlyG c c' rd v 0) (m : Nat) : OnlyG c (c'.sticky m) rd v m := by
  obtain ⟨hw, hs, hf, ha, hp, hu⟩ := h
  exact ⟨hw, Sticks.sticky hs m, hf, ha, hp, Untouched.sticky hu m⟩

theorem OnlyF.sticky {v : Word} (h : OnlyF c c' rd v 0) (m : Nat) : OnlyF c (c'.sticky m) rd v m := by
  obtain ⟨hw, hs, hg, ha, hp, hu⟩ := h
  exact ⟨hw, Sticks.sticky hs m, hg, ha, hp, Untouched.sticky hu m⟩

theorem sticky_zero (c : Core) : c.sticky 0 = c := by
  rw [Core.sticky, word, BitVec.or_zero]

/-- The result of an f register with its CST bits. -/
def fPut (rd : Nat) (c : Core) (r : Word × Nat) : Core := (c.setF rd r.1).sticky r.2

/-- The result of a predicate; a compare sets no CST bit. -/
def pPut (rd : Nat) (c : Core) (r : Bool × Nat) : Core := c.setP rd r.1

/-- A result that sets no CST bit. -/
theorem setG_eq_gResult (rd : Nat) (c : Core) (v : Word) : c.setG rd v = gResult rd c (v, 0) := (sticky_zero _).symm

theorem setF_eq_fPut (rd : Nat) (c : Core) (v : Word) : c.setF rd v = fPut rd c (v, 0) := (sticky_zero _).symm

variable (issue cost lat : Nat) (dsts : List Nat)

theorem onlyG_gResult (hrd : rd < 32) (r : Word × Nat) : OnlyG c ((gResult rd c r).retire issue cost lat dsts) rd r.1 r.2 :=
  OnlyG.sticky (onlyG_setG issue cost lat dsts hrd r.1) r.2

theorem onlyF_fPut (hrd : rd < 16) (r : Word × Nat) : OnlyF c ((fPut rd c r).retire issue cost lat dsts) rd r.1 r.2 :=
  OnlyF.sticky (onlyF_setF issue cost lat dsts hrd r.1) r.2

theorem gResult_next (r : Word × Nat) : ((gResult rd c r).retire issue cost lat dsts).pc = c.pc + 1 ∧
    ((gResult rd c r).retire issue cost lat dsts).cyc = issue + cost := retire_setG_next issue cost lat dsts r.1

theorem pr_of_ne {i : Nat} (h : i ≠ 0) (c : Core) : c.pr i = c.p.getLsbD i := by
  rw [Core.pr, decide_eq_false h, Bool.false_or, bit]

/-- A predicate after a write of one (R50). -/
theorem pr_setP {i : Nat} (hi : i < 8) (b : Bool) : (c.setP rd b).pr i = if i = rd ∧ i ≠ 0 then b else c.pr i := by
  by_cases hrd : rd = 0
  · have hn : ¬ (i = rd ∧ i ≠ 0) := fun h => h.2 (h.1.trans hrd)
    rw [if_neg hn, Core.setP, if_pos hrd]
  · by_cases hz : i = 0
    · simp [Core.pr, hz]
    · have hbit : (BitVec.ofNat 8 (2 ^ rd)).getLsbD i = decide (i = rd) := by
        rw [BitVec.getLsbD_ofNat, Nat.testBit_two_pow, decide_eq_true hi, Bool.true_and, decide_eq_decide, eq_comm]
      have hclear : (c.p &&& ~~~ BitVec.ofNat 8 (2 ^ rd)).getLsbD i = if i = rd then false else c.p.getLsbD i := by
        rw [BitVec.getLsbD_and, BitVec.getLsbD_not, hbit, decide_eq_true hi]
        split <;> simp [*]
      have hset : (c.p ||| BitVec.ofNat 8 (2 ^ rd)).getLsbD i = if i = rd then true else c.p.getLsbD i := by
        rw [BitVec.getLsbD_or, hbit]
        split <;> simp [*]
      rw [pr_of_ne hz, pr_of_ne hz, Core.setP, if_neg hrd, if_congr (and_iff_left hz) rfl rfl]
      cases b
      · exact hclear
      · exact hset

/-- A write of a predicate reaches that file alone. -/
theorem setP_frame (rd : Nat) (b : Bool) (c : Core) : ∃ p, c.setP rd b = { c with p := p } := by
  unfold Core.setP
  split
  · exact ⟨c.p, rfl⟩
  · exact ⟨_, rfl⟩

theorem onlyP_pPut (r : Bool × Nat) : OnlyP c ((pPut rd c r).retire issue cost lat dsts) rd r.1 := by
  have hw : WritesP c ((pPut rd c r).retire issue cost lat dsts) rd r.1 := fun i hi => pr_setP hi r.1
  obtain ⟨p, hp⟩ := setP_frame rd r.1 c
  rw [pPut, hp] at hw ⊢
  exact ⟨hw, rfl, rfl, rfl, rfl, rfl, rfl, rfl, rfl, rfl, rfl, rfl, rfl, rfl, rfl, rfl, rfl⟩

theorem pPut_next (r : Bool × Nat) : ((pPut rd c r).retire issue cost lat dsts).pc = c.pc + 1 ∧
    ((pPut rd c r).retire issue cost lat dsts).cyc = issue + cost := by
  obtain ⟨p, hp⟩ := setP_frame rd r.1 c
  rw [pPut, hp]
  exact ⟨rfl, rfl⟩

end Writes

/-! ## Listed encodings (R55) -/

section Listed
variable {o : Lim} {n : Nat}

theorem okR_iff : okR o n = true ↔ fnOf o ≤ n := decide_eq_true_iff

theorem okR_zero_iff : okR o 0 = true ↔ fnOf o = 0 := okR_iff.trans Nat.le_zero

theorem okRa_iff : okRa o n = true ↔ fnOf o ≤ n ∧ rbOf o = 0 := by
  rw [okRa, Bool.and_eq_true, okR_iff, decide_eq_true_iff]

theorem okRa_of (hfn : fnOf o ≤ n) (hrb : rbOf o = 0) : okRa o n = true := okRa_iff.mpr ⟨hfn, hrb⟩

theorem okRa_zero_iff : okRa o 0 = true ↔ rbOf o = 0 ∧ fnOf o = 0 := by
  rw [okRa_iff, Nat.le_zero, and_comm]

theorem okF_iff {i : Nat} : okF i = true ↔ i < 16 := decide_eq_true_iff
theorem okA_iff {i : Nat} : okA i = true ↔ i < 4 := decide_eq_true_iff
theorem okP_iff {i : Nat} : okP i = true ↔ i < 8 := decide_eq_true_iff
theorem even_iff {i : Nat} : even i = true ↔ i % 2 = 0 := decide_eq_true_iff

theorem okA3_iff : okA3 o = true ↔ lf o 14 12 = 0 ∧ lf o 2 0 = 0 := by
  rw [okA3, Bool.and_eq_true, decide_eq_true_iff, decide_eq_true_iff]

theorem okF3_iff : okF3 o 0 = true ↔ F3 o := by
  rw [okF3, Bool.and_eq_true, Bool.and_eq_true, Bool.and_eq_true, okR_zero_iff, okF_iff, okF_iff, okF_iff, F3, and_assoc, and_assoc]

theorem okF2_iff : okF2 o n = true ↔ F2 o n := by
  rw [okF2, Bool.and_eq_true, Bool.and_eq_true, okRa_iff, okF_iff, okF_iff, F2]
  tauto

theorem and_decide_iff {p q : Prop} [Decidable p] [Decidable q] : (decide p && decide q) = true ↔ p ∧ q := by
  rw [Bool.and_eq_true, decide_eq_true_iff, decide_eq_true_iff]

theorem portFile_iff : (!fSel o || okF (rdOf o)) = true ↔ (fSel o = true → rdOf o < 16) := by
  rw [Bool.or_eq_true, okF_iff, Bool.not_eq_true', ← Bool.not_eq_true, ← imp_iff_not_or]

theorem fnOf_lt (o : Lim) : fnOf o < 32 := Nat.mod_lt _ (by decide)

end Listed

/-! ## The rows of a table -/

/-- A row runs as an instruction on registers that puts its value into its register, one of the first n of its file. -/
def RowRuns {α : Type} (n : Nat) (put : Nat → Core → α × Nat → Core) (r : RegRow α) : Prop :=
  ∀ (o : Lim) (s : State), r.ok o → r.rd o < n ∧ ∃ legal lat dsts, legal = true ∧
    exec (r.instr o) s = .next (limReg o legal (r.reads o) r.cost lat dsts (fun c => put (r.rd o) c (r.val o s c)) s)

/-- A row whose instruction the model runs with the operation `op`. -/
theorem RowRuns.of {α : Type} {n : Nat} {put : Nat → Core → α × Nat → Core} {r : RegRow α} {legal : Lim → Bool} {lat : Nat}
    {dsts : Lim → List Nat} {op : Lim → State → Core → Core}
    (he : ∀ o s, r.ok o → exec (r.instr o) s = .next (limReg o (legal o) (r.reads o) r.cost lat (dsts o) (op o s) s))
    (hrd : ∀ o, r.ok o → r.rd o < n) (hl : ∀ o, r.ok o → legal o = true)
    (hv : ∀ o s c, r.ok o → op o s c = put (r.rd o) c (r.val o s c)) : RowRuns n put r := by
  intro o s hok
  have hop : op o s = fun c => put (r.rd o) c (r.val o s c) := funext (fun c => hv o s c hok)
  exact ⟨hrd o hok, _, _, _, hl o hok, hop ▸ he o s hok⟩

theorem gHold_of_runs {l : List (RegRow Word)} (hl : ∀ r ∈ l, RowRuns 32 gResult r) : GHold l := by
  intro r hr o s h hok
  obtain ⟨hrd, legal, lat, dsts, hlegal, hi⟩ := hl r hr o s hok
  rw [limReg_on h hlegal] at hi
  exact ⟨_, hi, onlyG_gResult _ _ _ _ hrd _, gResult_next _ _ _ _ _⟩

theorem fHold_of_runs {l : List (RegRow Word)} (hl : ∀ r ∈ l, RowRuns 16 fPut r) : FHold l := by
  intro r hr o s h hok
  obtain ⟨hrd, legal, lat, dsts, hlegal, hi⟩ := hl r hr o s hok
  rw [limReg_on h hlegal] at hi
  exact ⟨_, hi, onlyF_fPut _ _ _ _ hrd _, rfl, rfl⟩

theorem pHold_of_runs {l : List (RegRow Bool)} (hl : ∀ r ∈ l, RowRuns 8 pPut r) : PHold l := by
  intro r hr o s h hok
  obtain ⟨hrd, legal, lat, dsts, hlegal, hi⟩ := hl r hr o s hok
  rw [limReg_on h hlegal] at hi
  exact ⟨_, hi, onlyP_pPut _ _ _ _ _, pPut_next _ _ _ _ _⟩

/-- A row of `intRows` and one of `unRows` as rows with their operands written out. -/
def intRow (r : IntRow) : RegRow Word :=
  ⟨r.instr, fun o => fnOf o ≤ r.maxFn, fun o => [kg (raOf o), kg (rbOf o)], r.cost, rdOf,
    fun o _ c => r.res (fnOf o) (c.gr (raOf o)) (c.gr (rbOf o))⟩

def unRow (r : UnRow) : RegRow Word :=
  ⟨r.instr, r.ok, fun o => [kg (raOf o)], 1, rdOf, fun o _ c => r.res o (c.gr (raOf o))⟩

/-- A two-operand row whose operation the model computes as `op`. -/
theorem intRow_runs {r : IntRow} {lat : Nat} {op : Lim → Word → Word → Word × Nat}
    (he : ∀ o s, exec (r.instr o) s = .next (intR o (okR o r.maxFn) r.cost lat (op o) s))
    (hv : ∀ o a b, fnOf o ≤ r.maxFn → op o a b = r.res (fnOf o) a b) : RowRuns 32 gResult (intRow r) := by
  intro o s hok
  have hop : op o = r.res (fnOf o) := funext₂ (fun a b => hv o a b hok)
  have hi := he o s
  rw [hop] at hi
  exact ⟨rdOf_lt o, _, _, _, okR_iff.mpr hok, hi⟩

/-- A one-operand row whose operation the model computes as `op`. -/
theorem unRow_runs {r : UnRow} {legal : Lim → Bool} {op : Lim → Word → Word × Nat}
    (he : ∀ o s, exec (r.instr o) s = .next (intI o (legal o) (op o) s)) (hl : ∀ o, r.ok o → legal o = true)
    (hv : ∀ o a, op o a = r.res o a) : RowRuns 32 gResult (unRow r) := by
  intro o s hok
  have hop : op o = r.res o := funext (hv o)
  have hi := he o s
  rw [hop] at hi
  exact ⟨rdOf_lt o, _, _, _, hl o hok, hi⟩

/-! ## Values of the integer instructions -/

section Values
variable (a b : Word) (n fn : Nat)

theorem valOf_eq_numOf : valOf (decide (fn = 1)) a = numOf fn a := by
  simp only [valOf, numOf, decide_eq_true_eq]

theorem satS32_eq (x : Int) : satS32 x = clampS x := rfl

theorem mul_eq_word : a * b = word (a.toNat * b.toNat) := by
  rw [word, BitVec.ofNat_mul, BitVec.ofNat_toNat, BitVec.ofNat_toNat, BitVec.setWidth_eq, BitVec.setWidth_eq]

theorem mulhOp_eq : wordI (valOf (decide (fn = 1)) a * valOf (decide (fn = 1)) b / 2 ^ 32) =
    wordI (numOf fn a * numOf fn b / 0x100000000) :=
  congrArg₂ (fun x y => wordI (x * y / 0x100000000)) (valOf_eq_numOf a fn) (valOf_eq_numOf b fn)

theorem divOp_eq : divOp (decide (fn = 1)) a b = divOf fn a b := by
  by_cases hb : b = 0 <;> by_cases hfn : fn = 1 <;> simp [divOp, divOf, hb, hfn, satS32_eq]

theorem wordI_natCast : wordI (n : Int) = word n := BitVec.ofInt_natCast 32 n

/-- The remainder has the sign of the dividend: it is a - (a / b) × b, rounded toward zero. -/
theorem remOp_eq : remOp (decide (fn = 1)) a b = remOf fn a b := by
  by_cases hb : b = 0
  · simp [remOp, remOf, hb]
  · by_cases hfn : fn = 1
    · have hr : (a.toNat : Int) - (a.toNat : Int).tdiv b.toNat * b.toNat = ((a.toNat % b.toNat : Nat) : Int) := by
        rw [mul_comm, ← Int.tmod_def]
        rfl
      simp only [remOp, remOf, numOf, hb, hfn, decide_true, if_true, if_false, hr, wordI_natCast]
    · simp [remOp, remOf, numOf, hfn, Int.tmod_def, mul_comm]

theorem shlW_eq : shlW a n = if n < 32 then a <<< n else 0 := by
  simp only [shlW, ← Nat.not_lt, ite_not]

theorem shrW_eq : shrW a n = if n < 32 then a >>> n else 0 := by
  simp only [shrW, ← Nat.not_lt, ite_not]

/-- A shift by more than 31 gives the sign, as one by 31 does. -/
theorem sarW_eq : sarW a n = wordI (a.toInt / 2 ^ n) := by
  have hlo : -2 ^ 31 ≤ a.toInt := a.le_toInt
  have hhi : a.toInt < 2 ^ 31 := a.toInt_lt
  have hsign (m : Nat) (hm : 31 ≤ m) : a.toInt / 2 ^ m = if a.toInt < 0 then -1 else 0 := by
    have hpow : (2 : Int) ^ 31 ≤ 2 ^ m := pow_le_pow_right₀ (by decide) hm
    split
    · next h => exact Int.ediv_eq_neg_one_of_neg_of_le h (by omega)
    · next h => exact Int.ediv_eq_zero_of_lt (by omega) (by omega)
  have hdiv : a.toInt / 2 ^ min n 31 = a.toInt / 2 ^ n := by
    rcases Nat.le_total n 31 with h | h
    · rw [Nat.min_eq_left h]
    · rw [Nat.min_eq_right h, hsign 31 (Nat.le_refl 31), hsign n h]
  rw [sarW, BitVec.sshiftRight, Int.shiftRight_eq_div_pow, Int.natCast_pow, Nat.cast_ofNat, hdiv, wordI]

theorem rorW_eq : rorW a n = a.rotateRight (n % 32) := rfl

theorem shiOp_eq {n : Nat} (h : n < 32) (mode : Nat) (a : Word) : shiOp mode a n = shiftBy mode n a := by
  rcases mode with _ | _ | _ | mode
  · exact (shlW_eq a n).trans (if_pos h)
  · exact (shrW_eq a n).trans (if_pos h)
  · exact sarW_eq a n
  · exact (rorW_eq a n).trans (by rw [Nat.mod_eq_of_lt h]; rfl)

theorem minOp_eq : (if valOf (decide (fn = 1)) b < valOf (decide (fn = 1)) a then b else a) =
    if numOf fn a ≤ numOf fn b then a else b := by
  simp only [valOf_eq_numOf, ← Int.not_le, ite_not]

theorem maxOp_eq : (if valOf (decide (fn = 1)) a < valOf (decide (fn = 1)) b then b else a) =
    if numOf fn b ≤ numOf fn a then a else b := by
  simp only [valOf_eq_numOf, ← Int.not_le, ite_not]

theorem leadingZeros_eq (v : Nat) (n : Nat) :
    leadingZeros v n = ((List.range n).find? (fun i => v.testBit (n - 1 - i))).getD n := by
  induction n with
  | zero => rfl
  | succ n ih =>
    have hstep (i : Nat) : n - 1 - i = n - (i + 1) := by omega
    rw [leadingZeros, List.range_succ_eq_map, List.find?_cons, List.find?_map, Nat.testBit_eq_decide_div_mod_eq]
    split
    · next h => simp [h]
    · next h => simp only [h, ih, Function.comp_def, hstep, Option.getD_map, Nat.add_sub_cancel, Nat.add_comm 1, decide_false,
        Nat.sub_zero]

theorem popCount_eq (v : Nat) (n : Nat) : popCount v n = (List.range n).countP (fun i => v.testBit i) := by
  induction n with
  | zero => rfl
  | succ n ih =>
    rw [popCount, ih, List.range_succ, List.countP_append, List.countP_singleton, Nat.testBit_eq_decide_div_mod_eq]
    rcases Nat.mod_two_eq_zero_or_one (v / 2 ^ n) with h | h <;> simp [h]

end Values

/-! ## Fields of an instruction -/

section Fields
variable (o : Lim)

theorem lf_low5 : lf o 4 0 = uimm10 o % 32 := by
  simp only [uimm10, lf, bits]
  omega

theorem lf_9_5 : lf o 9 5 = uimm10 o / 32 := by
  simp only [uimm10, lf, bits]
  omega

theorem lf_6_5 : lf o 6 5 = uimm10 o / 32 % 4 := by
  simp only [uimm10, lf, bits]
  omega

theorem lf_9_7 : lf o 9 7 = uimm10 o / 128 := by
  simp only [uimm10, lf, bits]
  omega

theorem bits_low (w : Word) (n : Nat) : bits w n 0 = w.toNat % 2 ^ (n + 1) := by
  rw [bits, Nat.pow_zero, Nat.div_one, Nat.sub_zero]

end Fields

/-! ## Shifts by the low bits of a register -/

section Shifts
variable (a b : Word)

theorem shlW_bits : shlW a (bits b 7 0) = if b.toNat % 256 < 32 then a <<< (b.toNat % 256) else 0 := by
  rw [bits_low]
  exact shlW_eq a _

theorem shrW_bits : shrW a (bits b 7 0) = if b.toNat % 256 < 32 then a >>> (b.toNat % 256) else 0 := by
  rw [bits_low]
  exact shrW_eq a _

theorem sarW_bits : sarW a (bits b 7 0) = wordI (a.toInt / 2 ^ (b.toNat % 256)) := by
  rw [bits_low]
  exact sarW_eq a _

theorem rorW_bits : rorW a (bits b 4 0) = a.rotateRight (b.toNat % 32) := by
  rw [rorW_eq, bits_low]
  exact congrArg a.rotateRight (Nat.mod_mod _ 32)

end Shifts

/-! ## The integer instructions -/

/-- Each row of the two-operand integer instructions. -/
theorem intRows_run : ∀ r ∈ intRows, RowRuns 32 gResult (intRow r) := by
  simp only [intRows, List.forall_mem_cons]
  refine ⟨?add, ?sub, ?adds, ?subs, ?mul, ?mulh, ?div, ?rem, ?and, ?or, ?xor, ?shl, ?shr, ?sar, ?rot, ?min, ?max,
    List.forall_mem_nil _⟩
  case add | sub | adds | subs | and | or | xor => exact intRow_runs (fun _ _ => rfl) (fun _ _ _ _ => rfl)
  case mul => exact intRow_runs (fun _ _ => rfl) (fun _ a b _ => congrArg plain (mul_eq_word a b))
  case mulh => exact intRow_runs (fun _ _ => rfl) (fun o a b _ => congrArg plain (mulhOp_eq a b (fnOf o)))
  case div => exact intRow_runs (fun _ _ => rfl) (fun o a b _ => divOp_eq a b (fnOf o))
  case rem => exact intRow_runs (fun _ _ => rfl) (fun o a b _ => remOp_eq a b (fnOf o))
  case shl => exact intRow_runs (fun _ _ => rfl) (fun _ a b _ => congrArg plain (shlW_bits a b))
  case shr => exact intRow_runs (fun _ _ => rfl) (fun _ a b _ => congrArg plain (shrW_bits a b))
  case sar => exact intRow_runs (fun _ _ => rfl) (fun _ a b _ => congrArg plain (sarW_bits a b))
  case rot => exact intRow_runs (fun _ _ => rfl) (fun _ a b _ => congrArg plain (rorW_bits a b))
  case min => exact intRow_runs (fun _ _ => rfl) (fun o a b _ => congrArg plain (minOp_eq a b (fnOf o)))
  case max => exact intRow_runs (fun _ _ => rfl) (fun o a b _ => congrArg plain (maxOp_eq a b (fnOf o)))

/-- Each row of the integer instructions with one g operand. -/
theorem unRows_run : ∀ r ∈ unRows, RowRuns 32 gResult (unRow r) := by
  simp only [unRows, List.forall_mem_cons]
  refine ⟨?addi, ?andi, ?ori, ?xori, ?shi, ?abs, ?clz, ?popc, ?bfx, List.forall_mem_nil _⟩
  case addi | andi | ori | xori => exact unRow_runs (fun _ _ => rfl) (fun _ _ => rfl) (fun _ _ => rfl)
  case shi =>
    refine unRow_runs (fun _ _ => rfl) (fun o h => decide_eq_true ((lf_9_7 o).trans h)) (fun o a => ?_)
    rw [lf_6_5, lf_low5, shiOp_eq (Nat.mod_lt _ (by decide)), plain]
  case abs => exact unRow_runs (fun _ _ => rfl) (fun _ => okRa_zero_iff.mpr) (fun _ _ => rfl)
  case clz =>
    exact unRow_runs (fun _ _ => rfl) (fun _ => okRa_zero_iff.mpr)
      (fun _ a => congrArg (fun n => plain (word n)) (leadingZeros_eq a.toNat 32))
  case popc =>
    exact unRow_runs (fun _ _ => rfl) (fun _ => okRa_zero_iff.mpr)
      (fun _ a => congrArg (fun n => plain (word n)) (popCount_eq a.toNat 32))
  case bfx => exact unRow_runs (fun _ _ => rfl) (fun _ _ => rfl) (fun o a => by simp only [lf_low5, lf_9_5, bfxOp, plain])

/-- Settles O1: each row runs as an instruction on registers with its row's result. -/
theorem integerResults : Obligations.IntegerResults := by
  unfold Obligations.IntegerResults
  have hint : GHold (intRows.map intRow) := gHold_of_runs (List.forall_mem_map.mpr intRows_run)
  have hun : GHold (unRows.map unRow) := gHold_of_runs (List.forall_mem_map.mpr unRows_run)
  exact ⟨fun r hr o s h hfn => hint _ (List.mem_map_of_mem hr) o s h hfn,
    fun r hr o s h hok => hun _ (List.mem_map_of_mem hr) o s h hok⟩


/-! ## Division by zero and the signed overflow (R58) -/

section Division
variable {o : Lim} {s : State}

/-- DIV and REM with their results as R58 gives them. -/
theorem div_result (h : Executes o s) (hfn : fnOf o ≤ 1) {r : Word × Nat}
    (hr : divOf (fnOf o) ((from_ o s).gr (raOf o)) ((from_ o s).gr (rbOf o)) = r) :
    ∃ c, exec (.div o) s = .next (withCore o s c) ∧ OnlyG (from_ o s) c (rdOf o) r.1 r.2 := by
  obtain ⟨c, hi, hg, -⟩ := integerResults.1 ⟨.div, 1, 18, divOf⟩ (by simp [intRows]) o s h hfn
  exact ⟨c, hi, hr ▸ hg⟩

theorem rem_result (h : Executes o s) (hfn : fnOf o ≤ 1) {r : Word × Nat}
    (hr : remOf (fnOf o) ((from_ o s).gr (raOf o)) ((from_ o s).gr (rbOf o)) = r) :
    ∃ c, exec (.rem o) s = .next (withCore o s c) ∧ OnlyG (from_ o s) c (rdOf o) r.1 r.2 := by
  obtain ⟨c, hi, hg, -⟩ := integerResults.1 ⟨.rem, 1, 18, remOf⟩ (by simp [intRows]) o s h hfn
  exact ⟨c, hi, hr ▸ hg⟩

end Division

theorem divOf_zero (fn : Nat) (a : Word) :
    divOf fn a 0 = (if fn = 1 then 0xFFFFFFFF else if 0 ≤ a.toInt then 0x7FFFFFFF else 0x80000000, 2) := if_pos rfl

theorem remOf_zero (fn : Nat) (a : Word) : remOf fn a 0 = (a, 2) := if_pos rfl

/-- Settles O53: the corners are cases of the results of DIV and REM. -/
theorem divisionCorners : Obligations.DivisionCorners := by
  unfold Obligations.DivisionCorners
  refine fun o s h => ⟨fun hb => ⟨fun hfn hpos => ?_, fun hfn hneg => ?_, fun hfn => ?_, fun hfn => ?_⟩,
    fun ha hb hfn => ⟨?_, ?_⟩⟩
  · exact div_result h (by omega) (r := (0x7FFFFFFF, 2)) (by rw [hb, hfn, divOf_zero, if_neg (by decide), if_pos hpos])
  · exact div_result h (by omega) (r := (0x80000000, 2)) (by rw [hb, hfn, divOf_zero, if_neg (by decide), if_neg (by omega)])
  · exact div_result h (by omega) (r := (0xFFFFFFFF, 2)) (by rw [hb, hfn, divOf_zero, if_pos rfl])
  · exact rem_result h hfn (by rw [hb, remOf_zero])
  · exact div_result h (by omega) (r := (0x7FFFFFFF, 1)) (by rw [ha, hb, hfn]; decide)
  · exact rem_result h (by omega) (r := (0, 0)) (by rw [ha, hb, hfn]; decide)

end Sys2Proof.Proofs
end

section
/-! PROOFS. The other instructions whose result is one register of a core (03_limath.md): bit fields and constants (R59), compares,
predicates and moves (R60), and floating point (R61, R62). -/
namespace Sys2Proof.Proofs
open Sys2Proof Sys2Proof.Machine Sys2Proof.Claims

/-! ## Words spelled by their bits -/

/-- The number whose bits below n are those of p. -/
def bitSum (p : Nat → Bool) (n : Nat) : Nat := ((List.range n).map (fun i => if p i then 2 ^ i else 0)).foldl (· + ·) 0

theorem bitSum_succ (p : Nat → Bool) (n : Nat) : bitSum p (n + 1) = (if p n then 2 ^ n else 0) + bitSum p n := by
  rw [bitSum, List.range_succ, List.map_append, List.foldl_append, List.map_singleton, List.foldl_cons, List.foldl_nil,
    Nat.add_comm]
  rfl

theorem bitSum_lt (p : Nat → Bool) (n : Nat) : bitSum p n < 2 ^ n := by
  induction n with
  | zero => exact Nat.one_pos
  | succ n ih =>
    rw [bitSum_succ, Nat.pow_succ]
    split <;> omega

theorem testBit_bitSum (p : Nat → Bool) (n i : Nat) : (bitSum p n).testBit i = (decide (i < n) && p i) := by
  induction n with
  | zero => simp [bitSum]
  | succ n ih =>
    have hlt := bitSum_lt p n
    rw [bitSum_succ]
    rcases Nat.lt_trichotomy i n with h | h | h
    · have hlt' : i < n + 1 := Nat.lt_succ_of_lt h
      split
      · rw [Nat.testBit_two_pow_add_gt h, ih, decide_eq_true h, decide_eq_true hlt']
      · rw [Nat.zero_add, ih, decide_eq_true h, decide_eq_true hlt']
    · subst h
      have hz : (bitSum p i).testBit i = false := Nat.testBit_lt_two_pow hlt
      split
      · next hp => rw [Nat.testBit_two_pow_add_eq, hz, decide_eq_true (Nat.lt_succ_self i), hp]; rfl
      · next hp => rw [Nat.zero_add, hz, Bool.eq_false_of_not_eq_true hp, Bool.and_false]
    · have hbig : (if p n then 2 ^ n else 0) + bitSum p n < 2 ^ i := by
        have hpow : 2 ^ (n + 1) ≤ 2 ^ i := Nat.pow_le_pow_right (by decide) h
        rw [Nat.pow_succ] at hpow
        split <;> omega
      rw [Nat.testBit_lt_two_pow hbig, decide_eq_false (by omega), Bool.false_and]

theorem getLsbD_word_bitSum (p : Nat → Bool) {n i : Nat} (h : i < 32) :
    (word (bitSum p n)).getLsbD i = (decide (i < n) && p i) := by
  rw [word, BitVec.getLsbD_ofNat, decide_eq_true h, Bool.true_and, testBit_bitSum]

/-! ## BFI, CLAMP, SEL, MOVI and LDC -/

/-- Bit i after an insertion. -/
def insertedBit (d a : Word) (lsb w i : Nat) : Bool := if lsb ≤ i ∧ i < lsb + w then a.getLsbD (i - lsb) else d.getLsbD i

theorem insertBits_eq (d a : Word) (lsb w : Nat) : insertBits d a lsb w = word (bitSum (insertedBit d a lsb w) 32) := by
  have hbits : (fun i => if lsb ≤ i ∧ i < lsb + w then (if a.getLsbD (i - lsb) then 2 ^ i else 0)
      else if d.getLsbD i then 2 ^ i else 0) = (fun i => if insertedBit d a lsb w i then 2 ^ i else 0) := by
    funext i
    unfold insertedBit
    split <;> rfl
  rw [insertBits, bitSum, ← hbits]

/-- BFI's mask has ones in the field. -/
theorem getLsbD_fieldMask {lsb w i : Nat} (hi : i < 32) :
    (word ((2 ^ w - 1) * 2 ^ lsb)).getLsbD i = decide (lsb ≤ i ∧ i < lsb + w) := by
  rw [word, BitVec.getLsbD_ofNat, decide_eq_true hi, Bool.true_and, Nat.testBit_mul_two_pow, Nat.testBit_two_pow_sub_one,
    ← Bool.decide_and, decide_eq_decide]
  omega

theorem bfiOp_eq (d a : Word) (lsb w : Nat) : bfiOp d a lsb w = insertBits d a lsb w := by
  rw [insertBits_eq]
  refine BitVec.eq_of_getLsbD_eq (fun i hi => ?_)
  rw [getLsbD_word_bitSum _ hi, decide_eq_true hi, Bool.true_and, insertedBit, bfiOp]
  simp only [BitVec.getLsbD_or, BitVec.getLsbD_and, BitVec.getLsbD_not, getLsbD_fieldMask hi, decide_eq_true hi, Bool.true_and]
  split
  · next h =>
    have ha : (word (a.toNat * 2 ^ lsb)).getLsbD i = a.getLsbD (i - lsb) := by
      rw [word, BitVec.getLsbD_ofNat, Nat.testBit_mul_two_pow, decide_eq_true hi, decide_eq_true h.1]
      rfl
    simp [h, ha]
  · next h => simp [h]

theorem wordI_toInt (w : Word) : wordI w.toInt = w := BitVec.ofInt_toInt

/-- CLAMP (R59). -/
theorem clampW_eq (d a b : Word) : clampW d a b = wordI (min (max d.toInt a.toInt) b.toInt) := by
  have hmax : (if d.toInt < a.toInt then a else d).toInt = max d.toInt a.toInt := by
    split <;> omega
  unfold clampW
  rw [← hmax]
  generalize (if d.toInt < a.toInt then a else d) = t
  dsimp only
  split
  · next h => rw [Int.min_eq_right (Int.le_of_lt h), wordI_toInt]
  · next h => rw [Int.min_eq_left (Int.not_lt.mp h), wordI_toInt]

theorem wideRows_run : ∀ r ∈ wideRows, RowRuns 32 gResult r := by
  simp only [wideRows, List.forall_mem_cons]
  refine ⟨?bfi, ?clamp, ?sel, ?movi, ?ldc, List.forall_mem_nil _⟩
  case bfi =>
    refine .of (fun _ _ _ => rfl) (fun o _ => rdOf_lt o) (fun _ _ => rfl) (fun o _ c _ => ?_)
    rw [bfiOp_eq, lf_low5, lf_9_5, setG_eq_gResult]
    rfl
  case clamp =>
    refine .of (fun _ _ _ => rfl) (fun o _ => rdOf_lt o) (fun _ h => okR_iff.mpr (Nat.le_of_eq h)) (fun o _ c _ => ?_)
    rw [clampW_eq, setG_eq_gResult]
    rfl
  case sel =>
    exact .of (fun _ _ _ => rfl) (fun o _ => rdOf_lt o) (fun _ h => okR_iff.mpr (Nat.le_of_lt_succ h))
      (fun _ _ _ _ => setG_eq_gResult _ _ _)
  case movi => exact .of (fun _ _ _ => rfl) (fun o _ => rdOf_lt o) (fun _ _ => rfl) (fun _ _ _ _ => setG_eq_gResult _ _ _)
  case ldc =>
    exact .of (fun _ _ _ => rfl) (fun o _ => rdOf_lt o) (fun _ h => decide_eq_true h) (fun _ _ _ _ => setG_eq_gResult _ _ _)

/-- Settles O2: each row runs as an instruction on registers with its row's result. -/
theorem fieldAndConstantResults : Obligations.FieldAndConstantResults := gHold_of_runs wideRows_run

/-! ## Compares and predicate logic -/

theorem pdOf_lt (o : Lim) : pdOf o < 8 := Nat.mod_lt _ (by decide)

theorem condI_eq (fn : Nat) (a b : Word) : condI fn a b = holds fn a b := by
  rcases fn with _ | _ | fn
  · exact (beq_eq_decide a b).symm
  · simp [condI, holds, bne, beq_eq_decide]
  · rcases fn with _ | _ | _ | _ | _ | _ | _ | fn
    all_goals rfl

theorem plogOp_eq (fn : Nat) (a b : Bool) : plogOp fn a b = match fn with
    | 0 => a && b
    | 1 => a || b
    | 2 => a ^^ b
    | 3 => a && !b
    | _ => !a := by
  rcases fn with _ | _ | _ | _ | fn
  case succ.succ.zero => cases a <;> cases b <;> rfl
  all_goals rfl

/-- TST tests for a bit that is set, or for none. -/
theorem tst_eq {cc : Nat} (h : cc < 2) (w : Word) :
    (decide (w ≠ 0) != decide (cc = 1)) = if cc = 0 then w != 0 else w == 0 := by
  obtain rfl | rfl : cc = 0 ∨ cc = 1 := by omega
  · simp [bne, beq_eq_decide]
  · simp [beq_eq_decide]

theorem predRows_run : ∀ r ∈ predRows, RowRuns 8 pPut r := by
  simp only [predRows, List.forall_mem_cons]
  refine ⟨?cmp, ?cmpi, ?fcmp, ?plog, ?tst, ?ctst, List.forall_mem_nil _⟩
  case cmp =>
    refine .of (fun _ _ _ => rfl) (fun _ h => h.2) (fun o ⟨hfn, hrd⟩ => ?_) (fun o _ c _ => ?_)
    · rw [okR_iff.mpr hfn, okP_iff.mpr hrd, Bool.and_self]
    · rw [condI_eq]
      rfl
  case cmpi =>
    refine .of (fun _ _ _ => rfl) (fun o _ => pdOf_lt o) (fun _ _ => rfl) (fun o _ c _ => ?_)
    rw [condI_eq]
    rfl
  case fcmp =>
    refine .of (fun _ _ _ => rfl) (fun _ ⟨_, hrd, _⟩ => hrd) (fun o ⟨hfn, hrd, hra, hrb⟩ => ?_) (fun _ _ _ _ => rfl)
    simp only [okR_iff.mpr hfn, okP_iff.mpr hrd, okF_iff.mpr hra, okF_iff.mpr hrb, Bool.and_self]
  case plog =>
    refine .of (fun _ _ _ => rfl) (fun _ ⟨_, hrd, _⟩ => hrd) (fun o ⟨hfn, hrd, hra, hrb, hrb4⟩ => ?_) (fun o _ c _ => ?_)
    · have hnot : (decide (fnOf o ≠ 4) || decide (rbOf o = 0)) = true := by simpa [imp_iff_not_or] using hrb4
      simp only [okR_iff.mpr hfn, okP_iff.mpr hrd, okP_iff.mpr hra, okP_iff.mpr hrb, hnot, Bool.and_self]
    · exact congrArg (c.setP (rdOf o)) (plogOp_eq (fnOf o) _ _)
  case tst =>
    refine .of (fun _ _ _ => rfl) (fun o _ => pdOf_lt o) (fun _ h => decide_eq_true h) (fun o _ c h => ?_)
    rw [tst_eq h]
    rfl
  case ctst =>
    refine .of (fun _ _ _ => rfl) (fun o _ => pdOf_lt o) (fun o ⟨hcc, hw⟩ => ?_) (fun o s c _ => ?_)
    · rw [decide_eq_true hcc, decide_eq_true hw, Bool.and_self]
    · dsimp only [pPut]
      rw [bit, apply_ite (BitVec.getLsbD · (dIdx o))]

/-! ## Moves into g -/

/-- The predicates as a word, p0 being 1 (R50). -/
theorem predWord_eq (c : Core) : (c.p ||| 1).setWidth 32 = word (bitSum c.pr 8) := by
  have hone (i : Nat) : (1#8).getLsbD i = decide (i = 0) := by
    rw [BitVec.getLsbD_one]
    simp
  refine BitVec.eq_of_getLsbD_eq (fun i hi => ?_)
  rw [getLsbD_word_bitSum _ hi, BitVec.getLsbD_setWidth, decide_eq_true hi, Bool.true_and, Core.pr, bit]
  by_cases h8 : i < 8
  · rw [BitVec.getLsbD_or, decide_eq_true h8, Bool.true_and, Bool.or_comm]
    exact congrArg (· || _) (hone i)
  · rw [BitVec.getLsbD_of_ge _ _ (Nat.not_lt.mp h8), decide_eq_false h8, Bool.false_and]

section Forms
variable {o : Lim} (s : State)

/-- FCVT to an integer, and from one (R62). -/
theorem exec_fcvt_int (h : fnOf o < 2) : exec (.fcvt o) s =
    .next (limReg o (okRa o 3 && okF (raOf o)) [kf (raOf o)] 1 3 [kg (rdOf o)] (fun c =>
      gResult (rdOf o) c (wordI (if fnOf o = 0 then toIntF b32 (-(2 ^ 31)) (2 ^ 31 - 1) (c.fr (raOf o)).toNat
        else toIntF b32 0 (2 ^ 32 - 1) (c.fr (raOf o)).toNat).1,
        (if fnOf o = 0 then toIntF b32 (-(2 ^ 31)) (2 ^ 31 - 1) (c.fr (raOf o)).toNat
        else toIntF b32 0 (2 ^ 32 - 1) (c.fr (raOf o)).toNat).2)) s) := congrArg Host.Outcome.next (if_pos h)

theorem exec_fcvt_float (h : 2 ≤ fnOf o) : exec (.fcvt o) s =
    .next (limReg o (okRa o 3 && okF (rdOf o)) [kg (raOf o)] 1 3 [kf (rdOf o)] (fun c =>
      fResult (rdOf o) c (ofIntF b32 (valOf (decide (fnOf o = 3)) (c.gr (raOf o))))) s) :=
  congrArg Host.Outcome.next (if_neg (Nat.not_lt.mpr h))

/-- FMOV by fn. -/
theorem exec_fmov_ff (h : fnOf o = 0) : exec (.fmov o) s = .next (limReg o (okF2 o 2) [kf (raOf o)] 1 1 [kf (rdOf o)]
    (fun c => c.setF (rdOf o) (c.fr (raOf o))) s) := congrArg Host.Outcome.next (if_pos h)

theorem exec_fmov_fg (h : fnOf o = 1) : exec (.fmov o) s =
    .next (limReg o (okRa o 2 && okF (rdOf o)) [kg (raOf o)] 1 1 [kf (rdOf o)] (fun c => c.setF (rdOf o) (c.gr (raOf o))) s) :=
  congrArg Host.Outcome.next ((if_neg (by omega)).trans (if_pos h))

theorem exec_fmov_gf (h : 2 ≤ fnOf o) : exec (.fmov o) s =
    .next (limReg o (okRa o 2 && okF (raOf o)) [kf (raOf o)] 1 1 [kg (rdOf o)] (fun c => c.setG (rdOf o) (c.fr (raOf o))) s) :=
  congrArg Host.Outcome.next ((if_neg (show ¬ fnOf o = 0 by omega)).trans (if_neg (show ¬ fnOf o = 1 by omega)))

/-- PMOV to g[rd], and from g[ra]. -/
theorem exec_pmov_g (h : fnOf o = 0) : exec (.pmov o) s =
    .next (limReg o (okRa o 1 && decide (raOf o = 0)) ((List.range 8).map kp) 1 1 [kg (rdOf o)]
      (fun c => c.setG (rdOf o) ((c.p ||| 1).setWidth 32)) s) := congrArg Host.Outcome.next (if_pos h)

theorem exec_pmov_p (h : fnOf o ≠ 0) : exec (.pmov o) s =
    .next (limReg o (okRa o 1 && decide (rdOf o = 0)) [kg (raOf o)] 1 1 ((List.range 8).map kp)
      (fun c => { c with p := (c.gr (raOf o)).setWidth 8 ||| 1 }) s) := congrArg Host.Outcome.next (if_neg h)

end Forms

theorem moveRows_run : ∀ r ∈ moveRows, RowRuns 32 gResult r := by
  simp only [moveRows, List.forall_mem_cons]
  refine ⟨?toSigned, ?toUnsigned, ?fmov, ?pin, ?rds, ?pmov, List.forall_mem_nil _⟩
  case toSigned =>
    refine .of (fun _ s ⟨hfn, _⟩ => exec_fcvt_int s (by omega)) (fun o _ => rdOf_lt o) (fun o ⟨hfn, hra, hrb⟩ => ?_)
      (fun o _ c ⟨hfn, _⟩ => ?_)
    · rw [okRa_of (by omega) hrb, okF_iff.mpr hra, Bool.and_self]
    · rw [if_pos hfn]
      rfl
  case toUnsigned =>
    refine .of (fun _ s ⟨hfn, _⟩ => exec_fcvt_int s (by omega)) (fun o _ => rdOf_lt o) (fun o ⟨hfn, hra, hrb⟩ => ?_)
      (fun o _ c ⟨hfn, _⟩ => ?_)
    · rw [okRa_of (by omega) hrb, okF_iff.mpr hra, Bool.and_self]
    · rw [if_neg (by omega)]
      rfl
  case fmov =>
    refine .of (fun _ s ⟨hfn, _⟩ => exec_fmov_gf s (Nat.le_of_eq hfn.symm)) (fun o _ => rdOf_lt o) (fun o ⟨hfn, hra, hrb⟩ => ?_)
      (fun _ _ _ _ => setG_eq_gResult _ _ _)
    rw [okRa_of (by omega) hrb, okF_iff.mpr hra, Bool.and_self]
  case pin =>
    refine .of (fun _ _ _ => rfl) (fun o _ => rdOf_lt o) (fun o (h : fSel o = false) => ?_)
      (fun o _ c (h : fSel o = false) => ?_)
    · rw [h, Bool.not_false, Bool.true_or]
    · rw [if_neg (ne_true_of_eq_false h), setG_eq_gResult]
  case rds =>
    exact .of (fun _ _ _ => rfl) (fun o _ => rdOf_lt o) (fun _ h => decide_eq_true h) (fun _ _ _ _ => setG_eq_gResult _ _ _)
  case pmov =>
    refine .of (fun _ s ⟨hfn, _⟩ => exec_pmov_g s hfn) (fun o _ => rdOf_lt o) (fun o ⟨hfn, hra, hrb⟩ => ?_) (fun o _ c _ => ?_)
    · rw [okRa_of (by omega) hrb, decide_eq_true hra, Bool.and_self]
    · rw [predWord_eq, setG_eq_gResult]
      rfl

/-- Bits 1 to 7 of g[ra] become p1 to p7; p0 stays 1 (R50). -/
theorem pr_pmov (c : Core) (w : Word) (issue cost lat : Nat) (dsts : List Nat) {i : Nat} (hi : i < 8) :
    ({ c with p := w.setWidth 8 ||| 1 }.retire issue cost lat dsts).pr i = if i = 0 then true else w.getLsbD i := by
  by_cases hz : i = 0
  · rw [hz]
    rfl
  · have hone : (1#8).getLsbD i = false := by
      rw [BitVec.getLsbD_one, decide_eq_false hz, Bool.and_false]
    rw [pr_of_ne hz, if_neg hz, Core.retire, BitVec.getLsbD_or, BitVec.getLsbD_setWidth, decide_eq_true hi, Bool.true_and]
    exact (congrArg (_ || ·) hone).trans (Bool.or_false _)

theorem untouched_pmov (c : Core) (p : BitVec 8) (issue cost lat : Nat) (dsts : List Nat) :
    Untouched c ({ c with p := p }.retire issue cost lat dsts) := ⟨rfl, rfl, rfl, rfl, rfl, rfl, rfl, rfl, rfl, rfl, rfl, rfl⟩

/-- Settles O4: each row runs as an instruction on registers with its row's result, and PMOV writes the predicates. -/
theorem predicateAndMoveResults : Obligations.PredicateAndMoveResults := by
  unfold Obligations.PredicateAndMoveResults
  refine ⟨⟨pHold_of_runs predRows_run, fun o s h hfn hrd hrb => ?_⟩, gHold_of_runs moveRows_run⟩
  have hlegal : (okRa o 1 && decide (rdOf o = 0)) = true := by
    rw [okRa_of (by omega) hrb, decide_eq_true hrd, Bool.and_self]
  have hi := exec_pmov_p (o := o) s (by omega)
  rw [limReg_on h hlegal] at hi
  exact ⟨_, hi, fun _ => pr_pmov _ _ _ _ _ _, rfl, rfl, rfl, rfl, untouched_pmov _ _ _ _ _ _, rfl, rfl⟩

/-! ## Floating point -/

/-- The value of FCVT from an integer: fn 2 signed, 3 unsigned. -/
theorem valOf_fcvt {fn : Nat} (h : 2 ≤ fn) (w : Word) : valOf (decide (fn = 3)) w = numOf (fn - 2) w := by
  rw [← valOf_eq_numOf]
  congr 1
  rw [decide_eq_decide]
  omega

theorem floatRows_run : ∀ r ∈ floatRows, RowRuns 16 fPut r := by
  have hrd3 : ∀ o, F3 o → rdOf o < 16 := fun _ ⟨_, hrd, _⟩ => hrd
  have hrd2 : ∀ n o, F2 o n → rdOf o < 16 := fun _ _ ⟨_, hrd, _⟩ => hrd
  simp only [floatRows, List.forall_mem_cons]
  refine ⟨?fadd, ?fsub, ?fmul, ?fma, ?fdiv, ?fsqrt, ?fmin, ?fmax, ?fabs, ?fcvt, ?fmovF, ?fmovG,
    ?fclamp, ?fldc, ?frsq, ?pin, List.forall_mem_nil _⟩
  case fadd | fsub | fmul | fma | fdiv | fmin | fmax | fclamp =>
    exact .of (fun _ _ _ => rfl) hrd3 (fun _ => okF3_iff.mpr) (fun _ _ _ _ => rfl)
  case fsqrt | frsq => exact .of (fun _ _ _ => rfl) (hrd2 0) (fun _ => okF2_iff.mpr) (fun _ _ _ _ => rfl)
  case fabs => exact .of (fun _ _ _ => rfl) (hrd2 1) (fun _ => okF2_iff.mpr) (fun _ _ _ _ => rfl)
  case fcvt =>
    refine .of (fun _ s ⟨hfn, _⟩ => exec_fcvt_float s hfn) (fun _ ⟨_, _, hrd, _⟩ => hrd) (fun o ⟨_, hfn, hrd, hrb⟩ => ?_)
      (fun o _ c ⟨hfn, _⟩ => ?_)
    · rw [okRa_of hfn hrb, okF_iff.mpr hrd, Bool.and_self]
    · rw [valOf_fcvt hfn]
      rfl
  case fmovF =>
    refine .of (fun _ s ⟨hfn, _⟩ => exec_fmov_ff s hfn) (fun _ ⟨_, hrd, _⟩ => hrd) (fun o ⟨hfn, hrd, hra, hrb⟩ => ?_)
      (fun _ _ _ _ => setF_eq_fPut _ _ _)
    exact okF2_iff.mpr ⟨by omega, hrd, hra, hrb⟩
  case fmovG =>
    refine .of (fun _ s ⟨hfn, _⟩ => exec_fmov_fg s hfn) (fun _ ⟨_, hrd, _⟩ => hrd) (fun o ⟨hfn, hrd, hrb⟩ => ?_)
      (fun _ _ _ _ => setF_eq_fPut _ _ _)
    rw [okRa_of (by omega) hrb, okF_iff.mpr hrd, Bool.and_self]
  case fldc =>
    refine .of (fun _ _ _ => rfl) (fun _ ⟨_, hrd⟩ => hrd) (fun o ⟨hidx, hrd⟩ => ?_) (fun _ _ _ _ => setF_eq_fPut _ _ _)
    rw [decide_eq_true hidx, okF_iff.mpr hrd, Bool.and_self]
  case pin =>
    refine .of (fun _ _ _ => rfl) (fun _ ⟨_, hrd⟩ => hrd) (fun o ⟨_, hrd⟩ => ?_) (fun o _ c ⟨hsel, _⟩ => ?_)
    · rw [okF_iff.mpr hrd, Bool.or_true]
    · rw [if_pos hsel, setF_eq_fPut]

section Pair
variable (c : Core) (rd : Nat) (x y : Word) (issue cost lat : Nat) (dsts : List Nat)

/-- A pair of f registers, rd being even. -/
theorem fr_pair (hrd : rd < 16) (heven : rd % 2 = 0) : ∀ i, i < 16 →
    (((c.setF rd x).setF (rd + 1) y).retire issue cost lat dsts).fr i =
      if i = rd then x else if i = rd + 1 then y else c.fr i := by
  intro i hi
  have hf : (((c.setF rd x).setF (rd + 1) y).retire issue cost lat dsts).fr i = ((c.setF rd x).setF (rd + 1) y).fr i := rfl
  rw [hf, fr_setF hi (by omega), fr_setF hi hrd]
  by_cases h : i = rd
  · rw [if_neg (by omega), if_pos h, if_pos h]
  · rw [if_neg h, if_neg h]

theorem untouched_pair : Untouched c (((c.setF rd x).setF (rd + 1) y).retire issue cost lat dsts) :=
  ⟨rfl, rfl, rfl, rfl, rfl, rfl, rfl, rfl, rfl, rfl, rfl, rfl⟩

end Pair

/-- FSC writes a pair of f registers. -/
theorem exec_fsc (o : Lim) (s : State) : exec (.fsc o) s =
    .next (limReg o (okRa o 0 && okF (rdOf o) && even (rdOf o)) [kg (raOf o)] 4 4 [kf (rdOf o), kf (rdOf o + 1)]
      (fun c => (c.setF (rdOf o) (sinW (xa o c))).setF (rdOf o + 1) (cosW (xa o c))) s) := rfl

/-- Settles O5: each row runs as an instruction on registers with its row's result, and FSC writes a pair of f registers. -/
theorem floatResults : Obligations.FloatResults := by
  unfold Obligations.FloatResults
  refine ⟨fHold_of_runs floatRows_run, fun o s h hfn hrb hrd heven => ?_⟩
  have hlegal : (okRa o 0 && okF (rdOf o) && even (rdOf o)) = true := by
    rw [okRa_of (by omega) hrb, okF_iff.mpr hrd, even, decide_eq_true heven]
    rfl
  have hi := exec_fsc o s
  rw [limReg_on h hlegal] at hi
  exact ⟨_, hi, fr_pair _ _ _ _ _ _ _ _ hrd heven, rfl, rfl, rfl, rfl, untouched_pair _ _ _ _ _ _ _ _, rfl, rfl⟩

/-! ## g0 and p0 (R50) -/

/-- Settles O54: g0 and p0 by their accessors, and the instructions by what a write leaves. -/
theorem zeroRegister : Obligations.ZeroRegister := by
  unfold Obligations.ZeroRegister
  refine ⟨fun c v b => ⟨rfl, rfl, rfl, rfl⟩, fun r hr o s h hfn hrd => ?_, fun o s h hfn hrd => ?_⟩
  · obtain ⟨c, hi, ⟨hg, -⟩, hpc, -⟩ := integerResults.1 r hr o s h hfn
    refine ⟨c, hi, fun i hi32 => ?_, rfl, hpc⟩
    rw [hg i hi32, if_neg (fun hc => hc.2 (hc.1.trans hrd))]
  · obtain ⟨c, hi, ⟨hp, -⟩, hpc, -⟩ := predicateAndMoveResults.1.1 _ (List.mem_cons_self ..) o s h ⟨hfn, by simp [hrd]⟩
    refine ⟨c, hi, fun i hi8 => ?_, rfl, hpc⟩
    rw [hp i hi8, if_neg (fun hc => hc.2 (hc.1.trans hrd))]

end Sys2Proof.Proofs
end


section
/-! PROOFS. Accesses beyond a memory (R64), and the instructions for ports, mailboxes, carts and the Cellar (R65, R67, R82, R334,
R335). -/
namespace Sys2Proof.Proofs
open Sys2Proof Sys2Proof.Machine Sys2Proof.Claims

/-! ## Accesses beyond a memory (R64) -/

section Beyond
variable {o : Lim} {s : State} {legal : Bool} {n : Nat} (h : Executes o s) (hl : legal = true)
include h hl

/-- The address comes before an uncorrectable error of the data. -/
theorem loadLocal_addr (ha : 0x20000 ≤ ea o (from_ o s) n) (dsts : List Nat) (put : Core → Nat → Core) :
    loadLocal o legal n dsts put s = { s with dev := limExc o.core 4 (fetched o s) } := by
  have he : dataExc o 0x20000 (effAddr o ((fetched o s).core o.core) n) 2 = 4 := if_pos (by rwa [effAddr_eq])
  rw [loadLocal, limDev_on h hl]
  simp only [he, ne_eq, OfNat.ofNat_ne_zero, not_false_eq_true, if_true]

theorem loadSram_addr (ha : 0x400000 ≤ ea o (from_ o s) n) (dsts : List Nat) (put : Core → Nat → Core) :
    loadSram o legal n dsts put s = { s with dev := limExc o.core 4 (fetched o s) } := by
  have he : dataExc o 0x400000 (effAddr o ((fetched o s).core o.core) n) 3 = 4 := if_pos (by rwa [effAddr_eq])
  rw [loadSram, limDev_on h hl]
  simp only [he, ne_eq, OfNat.ofNat_ne_zero, not_false_eq_true, if_true]

theorem storeLocal_addr (ha : 0x20000 ≤ ea o (from_ o s) n) (reads : List Nat) (val : Core → Nat) :
    storeLocal o legal n reads val s = { s with dev := limExc o.core 4 (fetched o s) } := by
  have he : 0x20000 ≤ effAddr o ((fetched o s).core o.core) n := by rwa [effAddr_eq]
  rw [storeLocal, limDev_on h hl]
  simp only [he, if_true]

theorem storeSram_addr (ha : 0x400000 ≤ ea o (from_ o s) n) (reads : List Nat) (val : Core → Nat) :
    storeSram o legal n reads val s = { s with dev := limExc o.core 4 (fetched o s) } := by
  have he : 0x400000 ≤ effAddr o ((fetched o s).core o.core) n := by rwa [effAddr_eq]
  rw [storeSram, limDev_on h hl]
  simp only [he, if_true]

end Beyond

/-- Settles O8: each load and store checks its address before its access. -/
theorem addressBound : Obligations.AddressBound := by
  unfold Obligations.AddressBound
  refine fun o s h => ⟨fun r hr ha => ?_, fun r hr hok ha => ?_, fun r hr hok ha => ?_, fun ha he => ?_, fun ha hf => ?_, fun ha => ?_,
    fun ha he => ?_, fun ha hf => ?_⟩
  · rw [exec_loadRow hr, loadLocal_addr h rfl ha]
  · obtain ⟨legal, reads, hl, hi⟩ := exec_storeRow hr hok s
    rw [hi, storeLocal_addr h hl ha]
  · obtain ⟨legal, reads, hl, hi⟩ := exec_sramStoreRow hr hok s
    rw [hi, storeSram_addr h hl ha]
  · exact congrArg Host.Outcome.next (loadLocal_addr h (okPair_of he) ha _ _)
  · exact congrArg Host.Outcome.next (loadLocal_addr h (okFrd_of hf) ha _ _)
  · exact congrArg Host.Outcome.next (loadSram_addr h rfl ha _ _)
  · exact congrArg Host.Outcome.next (loadSram_addr h (okPair_of he) ha _ _)
  · exact congrArg Host.Outcome.next (loadSram_addr h (okFrd_of hf) ha _ _)

/-! ## What a core that goes on leaves -/

section Retire
variable (c : Core) (issue cost lat : Nat) (dsts : List Nat)

theorem sameRegs_retire : SameRegs c (c.retire issue cost lat dsts) := ⟨rfl, rfl, rfl, rfl, rfl⟩

theorem onlyOn_retire : OnlyOn c (c.retire issue cost lat dsts) :=
  ⟨sameRegs_retire c issue cost lat dsts, ⟨rfl, rfl, rfl, rfl, rfl, rfl, rfl, rfl, rfl, rfl, rfl⟩, rfl, rfl⟩

theorem untouched_retire (cst : Word) : Untouched c ({ c with cst := cst }.retire issue cost lat dsts) :=
  ⟨rfl, rfl, rfl, rfl, rfl, rfl, rfl, rfl, rfl, rfl, rfl, rfl⟩

theorem onlyCask_retire (cask : Option Cask) (bad : Nat) (h : c.cyc ≤ issue) :
    OnlyCask c { c.retire issue cost lat dsts with cask := cask, bad := bad } cost :=
  ⟨⟨rfl, rfl, rfl, rfl, rfl⟩, rfl, rfl, rfl, rfl, rfl, Nat.add_le_add_right h cost⟩

end Retire

/-! ## Ports, mailboxes, software events and CST -/

section Ports
variable {o : Lim} {s : State} (h : Executes o s)
include h

theorem exec_nop (hw : o.w = 0) : exec (.nop o) s = .next (withCore o s ((from_ o s).retire (from_ o s).cyc 1 1 [])) :=
  congrArg Host.Outcome.next (limReg_on h (decide_eq_true hw) id)

theorem exec_mbw (hc : coreOf o < 6) (hw : lf o 5 0 = 0) : exec (.mbw o) s =
    .next (coreThen o s ((from_ o s).retire (issueAt o s [kg (rdOf o)]) 1 1 [])
      (stage o.core (.mbox (coreOf o) (boxOf o) ((from_ o s).gr (rdOf o))))) :=
  congrArg Host.Outcome.next (limDev_on h (by rw [decide_eq_true hc, decide_eq_true hw, Bool.and_self]) _ _)

/-- MBR and MBS read a register of the core's own mailbox. -/
theorem readMbox_reads (hc : coreOf o = 0) (hw : lf o 5 0 = 0) (hd : o.data ≠ .uncorrectable) (addr : Nat) : readMbox o addr s =
    { s with dev := noted o 2 ((fetched o s).setCore o.core
      (((from_ o s).setG (rdOf o) ((fetched o s).reg addr)).retire (from_ o s).cyc 4 4 [kg (rdOf o)])) } := by
  rw [readMbox, limDev_on h (by rw [decide_eq_true hc, decide_eq_true hw, Bool.and_self])]
  simp only [if_neg hd]
  rfl

theorem readMbox_onlyG (hc : coreOf o = 0) (hw : lf o 5 0 = 0) (hd : o.data ≠ .uncorrectable) {i : Instr} {addr : Nat}
    (hi : exec i s = .next (readMbox o addr s)) :
    ∃ c', exec i s = .next { s with dev := noted o 2 ((fetched o s).setCore o.core c') } ∧
      OnlyG (from_ o s) c' (rdOf o) ((fetched o s).reg addr) 0 ∧ c'.cyc = (from_ o s).cyc + 4 := by
  rw [readMbox_reads h hc hw hd] at hi
  exact ⟨_, hi, onlyG_setG _ _ _ _ (rdOf_lt o) _, (retire_setG_next _ _ _ _ _).2⟩

theorem exec_pout (hf : fSel o = true → rdOf o < 16) : exec (.pout o) s =
    .next (coreThen o s ((from_ o s).retire (issueAt o s [if fSel o then kf (rdOf o) else kg (rdOf o)]) 1 1 [])
      (fun d => if portOut (portOf o) then
        stage o.core (.port (portOf o) (if fSel o then (from_ o s).fr (rdOf o) else (from_ o s).gr (rdOf o))) d else d)) := by
  refine congrArg Host.Outcome.next (limDev_on h ?_ _ _)
  cases hsel : fSel o
  · rfl
  · exact okF_iff.mpr (hf hsel)

theorem exec_evs (hrd : rdOf o = 0) (hidx : idx15 o < 8) : exec (.evs o) s =
    .next (coreThen o s ((from_ o s).retire (from_ o s).cyc 1 1 []) (stage o.core (.softEv (2 ^ idx15 o)))) :=
  congrArg Host.Outcome.next (limDev_on h (by rw [decide_eq_true hrd, decide_eq_true hidx, Bool.and_self]) _ _)

theorem exec_wrs (hidx : idx15 o = 8) : exec (.wrs o) s =
    .next (withCore o s ({ from_ o s with cst := (from_ o s).cst &&& ~~~ (from_ o s).gr (rdOf o) }.retire
      (issueAt o s [kg (rdOf o)]) 1 1 [])) :=
  congrArg Host.Outcome.next (limReg_on h (decide_eq_true hidx) _)

/-! ## CART (R67) -/

theorem exec_cart_free (hw : lf o 19 6 = 0) (hb : (from_ o s).busy.getLsbD (dIdx o) = false) : exec (.cart o) s =
    .next (coreThen o s { (from_ o s).retire (from_ o s).cyc 1 1 [] with
      busy := (from_ o s).busy ||| BitVec.ofNat 64 (2 ^ dIdx o) } (stage o.core (.cart o.core (dIdx o)))) := by
  have hi : exec (.cart o) s = execCart o s := rfl
  have hb' : bit ((fetched o s).core o.core).busy (dIdx o) = false := hb
  rw [hi, execCart, limDev_on h (decide_eq_true hw)]
  simp only [hb', Bool.false_eq_true, if_false]
  rfl

theorem exec_cart_busy (hw : lf o 19 6 = 0) (hb : (from_ o s).busy.getLsbD (dIdx o) = true) : exec (.cart o) s =
    .next (withCore o s (((from_ o s).retire (from_ o s).cyc 1 1 []).sticky 64)) := by
  have hi : exec (.cart o) s = execCart o s := rfl
  have hb' : bit ((fetched o s).core o.core).busy (dIdx o) = true := hb
  rw [hi, execCart, limDev_on h (decide_eq_true hw)]
  simp only [hb', if_true]
  rfl

end Ports

/-- The busy flags when one more is set. -/
theorem getLsbD_or_bit (b : BitVec 64) {i j : Nat} (hi : i < 64) :
    (b ||| BitVec.ofNat 64 (2 ^ j)).getLsbD i = (decide (i = j) || b.getLsbD i) := by
  have hbit : (BitVec.ofNat 64 (2 ^ j)).getLsbD i = decide (i = j) := by
    rw [BitVec.getLsbD_ofNat, Nat.testBit_two_pow, decide_eq_true hi, Bool.true_and, decide_eq_decide, eq_comm]
  rw [BitVec.getLsbD_or, hbit, Bool.or_comm]

/-! ## The Cellar (R334 to R336) -/

section Cellar
variable {o : Lim} {s : State} (h : Executes o s)

theorem cldValue_array {a : Nat} (ha : a < 0x7C000) : cldValue s a = some (s.dev.cel.array.word a) := by
  rw [cldValue, if_pos (by omega), celWord, if_neg (by omega), if_neg (by omega)]

theorem cldValue_status {j : Nat} (hj : j < 6) : cldValue s (0x81000 + 4 * j) = some (s.snap.reg (CEL_CKSTAT j)) := by
  have hdiv : (0x81000 + 4 * j - 0x81000) / 4 = j := by omega
  rw [cldValue, if_neg (by omega), if_pos (by omega), hdiv]

include h

/-- A read of the array without an error, or of status, which has none. -/
theorem exec_cld {v : Word} (hv : cldValue s (eaDown o (from_ o s) 4) = some v) (hd : o.data = .ok ∨ 0x81000 ≤ eaDown o (from_ o s) 4) :
    exec (.cld o) s =
      .next (withCore o s (((from_ o s).setG (rdOf o) v).retire (issueAt o s [kg (raOf o)]) 6 6 [kg (rdOf o)])) := by
  have hi : exec (.cld o) s = execCld o s := rfl
  have hfr : (fetched o s).core o.core = from_ o s := rfl
  have hno (e : Ecc) (he : e ≠ .ok) : ¬ (eaDown o (from_ o s) 4 < 0x81000 ∧ o.data = e) := fun hc =>
    hd.elim (fun hok => he (hc.2.symm.trans hok)) (fun hge => Nat.not_lt.mpr hge hc.1)
  rw [hi, execCld, limDev_on h rfl]
  simp only [hfr, alignTo_effAddr, hv, if_neg (hno .uncorrectable (by decide)), if_neg (hno .corrected (by decide))]
  rfl

theorem exec_cld_onlyG {v : Word} (hv : cldValue s (eaDown o (from_ o s) 4) = some v)
    (hd : o.data = .ok ∨ 0x81000 ≤ eaDown o (from_ o s) 4) : ∃ c', exec (.cld o) s = .next (withCore o s c') ∧
      OnlyG (from_ o s) c' (rdOf o) v 0 ∧ Retires (from_ o s) c' [kg (raOf o)] 6 :=
  ⟨_, exec_cld h hv hd, onlyG_setG _ _ _ _ (rdOf_lt o) _, retire_setG_next _ _ _ _ _⟩

/-- CKB opens a cask, which takes two places of the staging of casks. -/
theorem ckb_opens (hrd : rdOf o = 0) (hidx : idx15 o < 256) (hk : (from_ o s).cask = none) : ∃ t, exec (.ckb o) s = .next t ∧
    (t.dev.core o.core).cask = some ⟨BitVec.ofNat 8 (idx15 o), []⟩ ∧ t.dev.cel.used = (fetched o s).cel.used + 2 ∧
    t.dev.cel.array = (fetched o s).cel.array ∧ OnlyCask (from_ o s) (t.dev.core o.core) 2 := by
  have hi : exec (.ckb o) s = execCkb o s := rfl
  have hfr : (fetched o s).core o.core = from_ o s := rfl
  rw [hi, execCkb, limDev_on h (by rw [decide_eq_true hrd, decide_eq_true hidx, Bool.and_self])]
  simp only [hfr, hk]
  refine ⟨_, rfl, ?_, rfl, rfl, ?_⟩
  · rw [Dev.core_setCore]
  · rw [Dev.core_setCore]
    exact onlyCask_retire _ _ _ _ _ _ _ (Nat.le_refl _)

/-- CKW adds an entry to the open cask. -/
theorem ckw_adds {k : Cask} (hrd : rdOf o = 0) (hfn : fnOf o = 0) (hk : (from_ o s).cask = some k) : ∃ t, exec (.ckw o) s = .next t ∧
    (t.dev.core o.core).cask = some ⟨k.tag, k.entries ++ [(((from_ o s).gr (rbOf o)).toNat / 4 * 4, (from_ o s).gr (raOf o))]⟩ ∧
    t.dev.cel.used = (fetched o s).cel.used + 1 ∧ t.dev.cel.array = (fetched o s).cel.array ∧
    OnlyCask (from_ o s) (t.dev.core o.core) 4 := by
  have hi : exec (.ckw o) s = execCkw o s := rfl
  have hfr : (fetched o s).core o.core = from_ o s := rfl
  rw [hi, execCkw, limDev_on h (by rw [decide_eq_true hrd, okR_iff.mpr (Nat.le_of_eq hfn), Bool.and_self])]
  simp only [hfr, hk, alignTo_four]
  refine ⟨_, rfl, ?_, rfl, rfl, ?_⟩
  · rw [Dev.core_setCore]
  · rw [Dev.core_setCore]
    exact onlyCask_retire _ _ _ _ _ _ _ (Nat.le_add_right _ _)

/-- CKC closes the open cask, which breaks no rule, and stages it. -/
theorem ckc_closes {k : Cask} (hw : o.w = 0) (hk : (from_ o s).cask = some k) (hbad : (from_ o s).bad = 0) :
    ∃ t, exec (.ckc o) s = .next t ∧ (t.dev.core o.core).cask = none ∧
      t.dev.tick = (stage o.core (.cask o.core k) ((fetched o s).setCore o.core (t.dev.core o.core))).tick ∧
      t.dev.cel = (fetched o s).cel ∧ OnlyCask (from_ o s) (t.dev.core o.core) 2 := by
  have hi : exec (.ckc o) s = execCkc o s := rfl
  have hfr : (fetched o s).core o.core = from_ o s := rfl
  have hcore (d : Dev) : (stage o.core (.cask o.core k) (caskClosed o.core k.tag d)).core o.core = d.core o.core := rfl
  have hcel (d : Dev) : (stage o.core (.cask o.core k) (caskClosed o.core k.tag d)).cel = d.cel := rfl
  have htick (d : Dev) : (stage o.core (.cask o.core k) (caskClosed o.core k.tag d)).tick = (stage o.core (.cask o.core k) d).tick := rfl
  rw [hi, execCkc, limDev_on h (decide_eq_true hw)]
  simp only [hfr, hk, hbad, ne_eq, not_true_eq_false, if_false]
  refine ⟨_, rfl, ?_, ?_, ?_, ?_⟩
  · rw [hcore, Dev.core_setCore]
  · rw [hcore, Dev.core_setCore, htick]
  · rw [hcel, Dev.setCore_cel]
  · rw [hcore, Dev.core_setCore]
    exact onlyCask_retire _ _ _ _ _ _ _ (Nat.le_refl _)

end Cellar

/-- Settles O10: each instruction by its own lemma. -/
theorem portsCartsAndCasks : Obligations.PortsCartsAndCasks := by
  unfold Obligations.PortsCartsAndCasks
  refine ⟨fun o s h => ⟨fun hw => ?_, fun hc hw => ?_, fun hc hw hd => ?_, fun hf => ?_, fun hrd hidx => ?_, fun hidx => ?_⟩,
    fun o s h hw => ⟨fun hb => ?_, fun hb => ?_⟩,
    fun o s h => ⟨fun ha hd => ?_, fun j hj ha => ?_, fun hrd hidx hk => ckb_opens h hrd hidx hk,
      fun k hrd hfn hk => ckw_adds h hrd hfn hk, fun k hw hk hbad => ckc_closes h hw hk hbad⟩⟩
  · exact ⟨_, exec_nop h hw, onlyOn_retire _ _ _ _ _, rfl⟩
  · exact ⟨_, exec_mbw h hc hw, onlyOn_retire _ _ _ _ _⟩
  · exact ⟨readMbox_onlyG h hc hw hd rfl, readMbox_onlyG h hc hw hd rfl⟩
  · exact ⟨_, exec_pout h hf, onlyOn_retire _ _ _ _ _⟩
  · exact ⟨_, exec_evs h hrd hidx, onlyOn_retire _ _ _ _ _⟩
  · exact ⟨_, exec_wrs h hidx, rfl, rfl, rfl, rfl, rfl, untouched_retire _ _ _ _ _ _, rfl, rfl⟩
  · exact ⟨_, exec_cart_free h hw hb, ⟨rfl, rfl, rfl, rfl, rfl⟩, rfl, fun i hi => getLsbD_or_bit _ hi, rfl⟩
  · exact ⟨_, exec_cart_busy h hw hb, rfl, rfl, rfl,
      untouched_retire _ (from_ o s).cyc 1 1 [] ((from_ o s).cst ||| word 64)⟩
  · exact exec_cld_onlyG h (cldValue_array ha) (.inl hd)
  · exact exec_cld_onlyG h (ha ▸ cldValue_status hj) (.inr (by omega))

end Sys2Proof.Proofs
end


section
/-! PROOFS. What comes before the operation of an instruction (R53 to R55, R74), and what an exception leaves (R348). -/
namespace Sys2Proof.Proofs
open Sys2Proof Sys2Proof.Machine Sys2Proof.Claims

/-! ## An exception (R348) -/

section Exception
variable (k : Fin 6) (code : Nat) (d : Dev)

theorem excClass_class : excClass code = .slip ∨ excClass code = .hold := by
  unfold excClass
  split
  · exact .inl rfl
  · exact .inr rfl

theorem excClass_ne_note : excClass code ≠ .note := by
  rcases excClass_class code with h | h <;> rw [h] <;> decide

theorem excClass_ne_halt : excClass code ≠ .halt := by
  rcases excClass_class code with h | h <;> rw [h] <;> decide

/-- The core that an exception stops. -/
def stoppedCore (c : Core) : Core := { c with run := .stopped }

/-- The device when an exception has stopped its core and left its code and its PC. -/
def excBegun : Dev :=
  (((d.reach (d.coreTime k)).setCore k (stoppedCore (d.core k))).setReg (LIM_EXC k) (word (0x80000000 + code))).setReg (LIM_EXCPC k)
    ((d.core k).pc.setWidth 32)

theorem limExc_eq : limExc k code d = if (d.core k).run = .fault then escalate (16 + k) false (excBegun k code d)
    else faultAt (16 + k) (excClass code) (word (code + 16 * k + 65536 * (d.core k).pc.toNat)) (fpRunning (excBegun k code d)) true false
      (excBegun k code d) := rfl

theorem faultAt_cores {c : Cls} (hc : c ≠ .note) (ev : Nat) (detail : Word) (infp abandon guard : Bool) (d : Dev) :
    (faultAt ev c detail infp abandon guard d).cores = d.cores := by
  have hview := congrArg FaultView.cores (faultAt_faultView ev c detail infp abandon guard d hc)
  cases c <;> exact hview

theorem watchFaultN_cores (f : Dev → Dev) (d : Dev) : (watchFaultN f d).cores = (f d).cores := by
  rcases watchFaultN_cases f d with hw | hw
  · rw [hw]
  · obtain ⟨r, v, m, he⟩ := vecBoth_frame 2 (f d)
    rw [hw, he]

theorem escalate_cores (ev : Nat) (guard : Bool) (d : Dev) : (escalate ev guard d).cores = d.cores := by
  rw [escalate, watchFaultN_cores, Dev.setFlag_cores, faultAt_cores (by decide)]
  exact congrArg FaultView.cores (raise_faultView ev d)

/-- An exception stops its core and leaves the others. -/
theorem limExc_cores : (limExc k code d).cores = (d.setCore k (stoppedCore (d.core k))).cores := by
  rw [limExc_eq]
  split
  · rw [escalate_cores]
    rfl
  · rw [faultAt_cores (excClass_ne_note code)]
    rfl

theorem limExc_core : (limExc k code d).core k = stoppedCore (d.core k) := by
  have h := congrArg (·[k]) (limExc_cores k code d)
  exact h.trans (Dev.core_setCore d k _)

theorem limExc_core_other {m : Fin 6} (hm : m ≠ k) : (limExc k code d).core m = d.core m := by
  have h := congrArg (·[m]) (limExc_cores k code d)
  exact h.trans (Dev.core_setCore_other d m k _ hm)

/-- The registers of an exception lie outside the blocks that a fault writes. -/
theorem limBlock_offEvents {a : Nat} (h : a / 0x10000 = 0x103) : OffEvents a ∧ a / 0x10000 ≠ 0x10E :=
  ⟨offEvents_of_block (by omega) (by omega), by omega⟩

/-- What an exception of a tick program leaves. -/
theorem limExc_reg (hrun : (d.core k).run = .tick) {a : Nat} (h : a / 0x10000 = 0x103) :
    (limExc k code d).reg a = (excBegun k code d).reg a := by
  obtain ⟨hoff, hblock⟩ := limBlock_offEvents h
  rw [limExc_eq, if_neg (by rw [hrun]; decide)]
  exact faultAt_reg hoff hblock (excClass_ne_note code) (excClass_ne_halt code) _ _ _ _ _ _

/-- The code and the PC that an exception leaves. -/
theorem limExc_codeAndPc (hrun : (d.core k).run = .tick) : (limExc k code d).reg (LIM_EXC k) = word (0x80000000 + code) ∧
    (limExc k code d).reg (LIM_EXCPC k) = (d.core k).pc.setWidth 32 := by
  have hne : LIM_EXC k ≠ LIM_EXCPC k := by unfold LIM_EXC LIM_EXCPC; omega
  constructor
  · rw [limExc_reg k code d hrun (by unfold LIM_EXC; omega), excBegun, Dev.reg_setReg, if_neg hne, Dev.reg_setReg, if_pos rfl]
  · rw [limExc_reg k code d hrun (by unfold LIM_EXCPC; omega), excBegun, Dev.reg_setReg, if_pos rfl]

/-- The record of an exception. -/
def excRecord : FRec :=
  recordOf (16 + k) (excClass code) (word (code + 16 * k + 65536 * (d.core k).pc.toNat)) (fpRunning (excBegun k code d)) (excBegun k code d)

/-- The effects of Slip and Hold leave the stack, the count, the tick and tick SRAM. -/
theorem classView_exc (v : FaultView) : (classView (excClass code) v).stack = v.stack ∧
    (classView (excClass code) v).total = v.total ∧ (classView (excClass code) v).tick = v.tick ∧
    (classView (excClass code) v).sram = v.sram := by
  rcases excClass_class code with h | h <;> rw [h] <;> exact ⟨rfl, rfl, rfl, rfl⟩

/-- What the fault of an exception leaves: its record, its ID, the tick that it abandons, and tick SRAM. -/
theorem limExc_fault (hrun : (d.core k).run = .tick) : (limExc k code d).fu.stack = (stackPush (excRecord k code d) d.fu.stack).1 ∧
    (limExc k code d).fu.total = d.fu.total + 1 ∧
    (limExc k code d).tick = abandonedTick false (excBegun k code d).now d.tick ∧ (limExc k code d).sram = d.sram := by
  have hview : faultView (limExc k code d) = classView (excClass code) { faultView (excBegun k code d) with
      stack := (stackPush (excRecord k code d) d.fu.stack).1
      total := d.fu.total + 1
      tick := abandonedTick false (excBegun k code d).now d.tick } := by
    rw [limExc_eq, if_neg (by rw [hrun]; decide)]
    exact faultAt_faultView _ _ _ _ _ _ _ (excClass_ne_note code)
  have hclass := classView_exc code { faultView (excBegun k code d) with
      stack := (stackPush (excRecord k code d) d.fu.stack).1
      total := d.fu.total + 1
      tick := abandonedTick false (excBegun k code d).now d.tick }
  rw [← hview] at hclass
  exact hclass

theorem abandonedTick_fault {t : Tick} (h : t.phase ≠ .idle) (now : Nat) :
    (abandonedTick false now t).stopWork = true ∧ (abandonedTick false now t).slipFault = true := by
  rw [abandonedTick, if_neg h]
  exact ⟨rfl, Bool.or_true _⟩

end Exception

/-! ## The gate of an instruction (R53, R55, R74) -/

/-- An instruction of which `ok` lists the encodings and `off` is what it does when it is predicated off: an encoding that is
not listed is an illegal encoding, and a fetch error comes before both. -/
structure Gated (off : Lim → Dev → Dev) (i : Lim → Instr) (ok : Lim → Prop) : Prop where
  skips : ∀ (o : Lim) (s : State), Issued o s → (from_ o s).pr o.pn.toNat = o.inv → ok o →
    exec (i o) s = .next { s with dev := off o (fetched o s) }
  illegal : ∀ (o : Lim) (s : State), issuing s.dev o.core = true → o.fetch ≠ .uncorrectable →
    (¬ ok o ∨ (o.inv = true ∧ o.pn = 0)) → exec (i o) s = .next { s with dev := limExc o.core 5 (fetched o s) }
  iecc : ∀ (o : Lim) (s : State), issuing s.dev o.core = true → o.fetch = .uncorrectable →
    exec (i o) s = .next { s with dev := limExc o.core 1 s.dev }

section Gate
variable {o : Lim} {s : State} {legal : Bool} {off on_ : Dev → Dev}

theorem limDev_off (h : Issued o s) (hp : (from_ o s).pr o.pn.toNat = o.inv) (hl : legal = true) :
    limDev o legal off on_ s = { s with dev := off (fetched o s) } := by
  obtain ⟨hissues, hfetch, hlisted⟩ := h
  have hq : predOn o (from_ o s) = false := by
    rw [predOn, hp, bne_self_eq_false]
  rw [limDev, limGate_off o legal off on_ s.dev hissues hfetch hl hlisted hq]
  rfl

theorem limDev_illegal (h : issuing s.dev o.core = true) (hf : o.fetch ≠ .uncorrectable) (hl : legal = false ∨ (o.inv = true ∧ o.pn = 0)) :
    limDev o legal off on_ s = { s with dev := limExc o.core 5 (fetched o s) } := by
  have hno : (legal && okPred o) = false := by
    rcases hl with hl | ⟨hinv, hpn⟩
    · rw [hl, Bool.false_and]
    · rw [okPred, hinv, decide_eq_true hpn, Bool.and_self, Bool.not_true, Bool.and_false]
  rw [limDev, limGate_illegal o legal off on_ s.dev h hf hno]
  rfl

theorem limDev_iecc (h : issuing s.dev o.core = true) (hf : o.fetch = .uncorrectable) :
    limDev o legal off on_ s = { s with dev := limExc o.core 1 s.dev } := by
  rw [limDev, limGate_iecc o legal off on_ s.dev h hf]

end Gate

section Rows
variable {off : Lim → Dev → Dev} {i : Lim → Instr} {ok : Lim → Prop} {legal : Lim → Bool}

theorem not_listed (hl : ∀ o, legal o = true ↔ ok o) {o : Lim} (h : ¬ ok o ∨ (o.inv = true ∧ o.pn = 0)) :
    legal o = false ∨ (o.inv = true ∧ o.pn = 0) := h.imp_left (fun hn => Bool.eq_false_of_not_eq_true (fun ht => hn ((hl o).mp ht)))

/-- An instruction that goes through the gate. -/
theorem Gated.ofDev (hl : ∀ o, legal o = true ↔ ok o)
    (he : ∀ o s, ∃ on_, exec (i o) s = .next (limDev o (legal o) (off o) on_ s)) : Gated off i ok where
  skips o s h hp hok := by
    obtain ⟨on_, hi⟩ := he o s
    rw [hi, limDev_off h hp ((hl o).mpr hok)]
  illegal o s h hf hno := by
    obtain ⟨on_, hi⟩ := he o s
    rw [hi, limDev_illegal h hf (not_listed hl hno)]
  iecc o s h hf := by
    obtain ⟨on_, hi⟩ := he o s
    rw [hi, limDev_iecc h hf]

/-- A fetch leaves what the gate reads of the core: its predicates and its PC. -/
theorem fetched_core (o : Lim) (s : State) : (from_ o s).p = (s.dev.core o.core).p ∧ (from_ o s).pc = (s.dev.core o.core).pc := by
  unfold from_ fetched limCec
  split
  · obtain ⟨f, r, v, m, he⟩ := fault_note_frame 22 (word (16 * o.core + 0)) (s.dev.setCore o.core ((s.dev.core o.core).sticky 128))
    have hc : (fault 22 .note (word (16 * o.core + 0)) (s.dev.setCore o.core ((s.dev.core o.core).sticky 128))).core o.core =
        (s.dev.core o.core).sticky 128 := by
      rw [he]
      exact Dev.core_setCore _ _ _
    rw [hc]
    exact ⟨rfl, rfl⟩
  · exact ⟨rfl, rfl⟩

/-- A MAC or MACH whose PC has not gone on leaves no accumulator for the next one. -/
theorem macDone_stands {o : Lim} {before s : State} (h : (s.dev.core o.core).pc = (before.dev.core o.core).pc) :
    macDone o before s = s := if_pos h

theorem macDone_off {o : Lim} {before s : State} (h : predOn o (before.dev.core o.core) = false) : macDone o before s = s := by
  simp only [macDone, h, Bool.false_eq_true, if_false, ite_self]

/-- MAC and MACH, which note their accumulator when they execute. -/
theorem Gated.ofMac (hl : ∀ o, legal o = true ↔ ok o)
    (he : ∀ o s, ∃ on_, exec (i o) s = .next (macDone o s (limDev o (legal o) (off o) on_ s))) : Gated off i ok where
  skips o s h hp hok := by
    obtain ⟨on_, hi⟩ := he o s
    have hpr : (s.dev.core o.core).pr o.pn.toNat = o.inv := by
      rw [← hp, Core.pr, Core.pr, (fetched_core o s).1]
    rw [hi, macDone_off (by rw [predOn, hpr, bne_self_eq_false]), limDev_off h hp ((hl o).mpr hok)]
  illegal o s h hf hno := by
    obtain ⟨on_, hi⟩ := he o s
    rw [hi, limDev_illegal h hf (not_listed hl hno), macDone_stands]
    exact (congrArg Core.pc (limExc_core o.core 5 (fetched o s))).trans (fetched_core o s).2
  iecc o s h hf := by
    obtain ⟨on_, hi⟩ := he o s
    rw [hi, limDev_iecc h hf, macDone_stands]
    exact (congrArg Core.pc (limExc_core o.core 1 s.dev)).trans rfl

end Rows

end Sys2Proof.Proofs
end


section
/-! PROOFS. Each instruction of the list goes through the gate with its listed encodings (R55), and LOOP and LOOPR that do not run
their bodies (R54). -/
namespace Sys2Proof.Proofs
open Sys2Proof Sys2Proof.Machine Sys2Proof.Claims

/-! ## The rows -/

/-- A predicated-off instruction goes on. -/
abbrev offStep (o : Lim) : Dev → Dev := skipOff o.core

/-- An instruction that always has the same form. -/
theorem Gated.row {i : Lim → Instr} {ok : Lim → Prop} {legal : Lim → Bool} {on_ : Lim → State → Dev → Dev}
    (hl : ∀ o, legal o = true ↔ ok o) (he : ∀ o s, exec (i o) s = .next (limDev o (legal o) (skipOff o.core) (on_ o s) s)) :
    Gated offStep i ok := .ofDev hl (fun o s => ⟨_, he o s⟩)

theorem rowsInt_gated : ∀ r ∈ rowsInt, Gated offStep r.1 r.2 := by
  simp only [rowsInt, List.forall_mem_cons]
  refine ⟨?nop, ?add, ?addi, ?sub, ?adds, ?subs, ?mul, ?mulh, ?div, ?rem, ?and, ?or, ?xor, ?andi, ?ori, ?xori, ?shl, ?shr, ?sar,
    ?shi, ?rot, ?min, ?max, ?abs, ?clz, ?popc, ?bfx, ?bfi, ?clamp, ?sel, ?movi, ?ldc, List.forall_mem_nil _⟩
  case nop => exact .row (fun _ => decide_eq_true_iff) (fun _ _ => rfl)
  case shi => exact .row (fun o => by rw [decide_eq_true_iff, lf_9_7]) (fun _ _ => rfl)
  case ldc => exact .row (fun _ => decide_eq_true_iff) (fun _ _ => rfl)
  case sel => exact .row (fun _ => okR_iff.trans Nat.le_iff_lt_add_one) (fun _ _ => rfl)
  case adds | subs | mulh | div | rem | min | max => exact .row (fun _ => okR_iff) (fun _ _ => rfl)
  case abs | clz | popc => exact .row (fun _ => okRa_zero_iff) (fun _ _ => rfl)
  case addi | andi | ori | xori | bfx | bfi | movi => exact .row (fun _ => iff_of_true rfl trivial) (fun _ _ => rfl)
  all_goals exact .row (fun _ => okR_zero_iff) (fun _ _ => rfl)

theorem pmov_gated : Gated offStep .pmov
    (fun o => rbOf o = 0 ∧ (fnOf o = 0 ∧ raOf o = 0 ∨ fnOf o = 1 ∧ rdOf o = 0)) := by
  refine .ofDev (legal := fun o => if fnOf o = 0 then okRa o 1 && decide (raOf o = 0) else okRa o 1 && decide (rdOf o = 0))
    (fun o => ?_) (fun o s => ?_)
  · split <;> simp only [Bool.and_eq_true, okRa_iff, decide_eq_true_iff] <;> omega
  · split
    · next h => exact ⟨_, exec_pmov_g s h⟩
    · next h => exact ⟨_, exec_pmov_p s h⟩

theorem rowsPred_gated : ∀ r ∈ rowsPred, Gated offStep r.1 r.2 := by
  simp only [rowsPred, List.forall_mem_cons]
  refine ⟨?cmp, ?cmpi, ?fcmp, ?plog, pmov_gated, ?tst, ?mac, ?mach, ?aclr, ?aset, ?aext, ?aadd, ?ashl, ?amov, List.forall_mem_nil _⟩
  case cmp => exact .row (fun _ => by rw [Bool.and_eq_true, okR_iff, okP_iff]) (fun _ _ => rfl)
  case cmpi => exact .row (fun _ => iff_of_true rfl trivial) (fun _ _ => rfl)
  case fcmp =>
    refine .row (fun _ => ?_) (fun _ _ => rfl)
    simp only [Bool.and_eq_true, okR_iff, okP_iff, okF_iff, and_assoc]
  case plog =>
    refine .row (fun _ => ?_) (fun _ _ => rfl)
    simp only [Bool.and_eq_true, Bool.or_eq_true, okR_iff, okP_iff, decide_eq_true_iff]
    omega
  case tst => exact .row (fun _ => decide_eq_true_iff) (fun _ _ => rfl)
  case mac => exact .ofMac (fun _ => by rw [Bool.and_eq_true, okR_iff, okA_iff]) (fun _ _ => ⟨_, rfl⟩)
  case mach => exact .ofMac (fun _ => by rw [Bool.and_eq_true, okR_zero_iff, okA_iff]) (fun _ _ => ⟨_, rfl⟩)
  case aclr =>
    refine .row (fun o => ?_) (fun _ _ => rfl)
    have := fnOf_lt o
    simp only [Bool.and_eq_true, okRa_iff, okA_iff]
    omega
  case aset => exact .row (fun _ => by rw [Bool.and_eq_true, okR_zero_iff, okA_iff]) (fun _ _ => rfl)
  case aext => exact .row (fun _ => okA3_iff) (fun _ _ => rfl)
  case aadd =>
    refine .row (fun _ => ?_) (fun _ _ => rfl)
    simp only [Bool.and_eq_true, okRa_iff, okA_iff]
    omega
  case ashl => exact .row (fun _ => by rw [Bool.and_eq_true, okA3_iff, decide_eq_true_iff, and_comm]) (fun _ _ => rfl)
  case amov =>
    refine .row (fun _ => ?_) (fun _ _ => rfl)
    simp only [Bool.and_eq_true, okRa_iff, okA_iff]
    omega

theorem fcvt_gated : Gated offStep .fcvt
    (fun o => rbOf o = 0 ∧ (fnOf o ≤ 1 ∧ raOf o < 16 ∨ 2 ≤ fnOf o ∧ fnOf o ≤ 3 ∧ rdOf o < 16)) := by
  refine .ofDev (legal := fun o => if fnOf o < 2 then okRa o 3 && okF (raOf o) else okRa o 3 && okF (rdOf o))
    (fun o => ?_) (fun o s => ?_)
  · split <;> simp only [Bool.and_eq_true, okRa_iff, okF_iff] <;> omega
  · split
    · next h => exact ⟨_, exec_fcvt_int s h⟩
    · next h => exact ⟨_, exec_fcvt_float s (Nat.not_lt.mp h)⟩

theorem fmov_gated : Gated offStep .fmov
    (fun o => rbOf o = 0 ∧ (fnOf o = 0 ∧ rdOf o < 16 ∧ raOf o < 16 ∨ fnOf o = 1 ∧ rdOf o < 16 ∨ fnOf o = 2 ∧ raOf o < 16)) := by
  refine .ofDev (legal := fun o => if fnOf o = 0 then okF2 o 2 else if fnOf o = 1 then okRa o 2 && okF (rdOf o)
    else okRa o 2 && okF (raOf o)) (fun o => ?_) (fun o s => ?_)
  · split
    · rw [okF2_iff, F2]
      omega
    · split <;> simp only [Bool.and_eq_true, okRa_iff, okF_iff] <;> omega
  · split
    · next h => exact ⟨_, exec_fmov_ff s h⟩
    · split
      · next h => exact ⟨_, exec_fmov_fg s h⟩
      · exact ⟨_, exec_fmov_gf s (by omega)⟩

theorem rowsFloat_gated : ∀ r ∈ rowsFloat, Gated offStep r.1 r.2 := by
  simp only [rowsFloat, List.forall_mem_cons]
  refine ⟨?fadd, ?fsub, ?fmul, ?fma, ?fdiv, ?fsqrt, ?fmin, ?fmax, ?fabs, fcvt_gated, fmov_gated, ?fclamp, ?fldc, ?frsq, ?fsc,
    List.forall_mem_nil _⟩
  case fsqrt | fabs | frsq => exact .row (fun _ => okF2_iff) (fun _ _ => rfl)
  case fldc => exact .row (fun _ => by rw [Bool.and_eq_true, decide_eq_true_iff, okF_iff]) (fun _ _ => rfl)
  case fsc =>
    refine .row (fun _ => ?_) (fun _ _ => rfl)
    simp only [Bool.and_eq_true, okRa_iff, okF_iff, even_iff]
    omega
  all_goals exact .row (fun _ => okF3_iff) (fun _ _ => rfl)

theorem rowsMem_gated : ∀ r ∈ rowsMem, Gated offStep r.1 r.2 := by
  simp only [rowsMem, List.forall_mem_cons]
  refine ⟨?ldw, ?ldh, ?ldhu, ?ldb, ?ldbu, ?ldd, ?stw, ?sth, ?stb, ?std, ?fld, ?fst, ?ldsw, ?ldsd, ?stsw, ?stsd, ?flds, ?fsts,
    List.forall_mem_nil _⟩
  case ldd | std | ldsd | stsd => exact .row (fun _ => even_iff) (fun _ _ => rfl)
  case fld | fst | flds | fsts => exact .row (fun _ => okF_iff) (fun _ _ => rfl)
  all_goals exact .row (fun _ => iff_of_true rfl trivial) (fun _ _ => rfl)

theorem rowsSys_gated : ∀ r ∈ rowsSys, Gated offStep r.1 r.2 := by
  simp only [rowsSys, List.forall_mem_cons]
  refine ⟨?pin, ?pout, ?mbw, ?mbr, ?mbs, ?cart, ?ctst, ?treeRun, ?cld, ?ckb, ?ckw, ?ckc, ?jmp, ?call, ?ret, ?endl, ?btab, ?tend,
    ?rds, ?wrs, ?evs, List.forall_mem_nil _⟩
  case pin | pout => exact .row (fun _ => portFile_iff) (fun _ _ => rfl)
  case mbw | mbr | mbs | ctst | ckb | ret | endl | btab | tend | evs => exact .row (fun _ => and_decide_iff) (fun _ _ => rfl)
  case cld => exact .row (fun _ => iff_of_true rfl trivial) (fun _ _ => rfl)
  case ckw => exact .row (fun _ => by rw [Bool.and_eq_true, decide_eq_true_iff, okR_zero_iff]) (fun _ _ => rfl)
  all_goals exact .row (fun _ => decide_eq_true_iff) (fun _ _ => rfl)

theorem limRows_gated : ∀ r ∈ limRows, Gated offStep r.1 r.2 := by
  simp only [limRows, List.forall_mem_append]
  exact ⟨⟨⟨⟨rowsInt_gated, rowsPred_gated⟩, rowsFloat_gated⟩, rowsMem_gated⟩, rowsSys_gated⟩

/-! ## LOOP and LOOPR that do not run their bodies (R54) -/

/-- What LOOP and LOOPR do when they are predicated off. -/
def offLoop (o : Lim) (d : Dev) : Dev := skipLoop o (d.core o.core).cyc 0 d

theorem loopRows_gated : ∀ r ∈ loopRows, Gated offLoop r.1 r.2 := by
  simp only [loopRows, List.forall_mem_cons]
  refine ⟨?loop, ?loopr, List.forall_mem_nil _⟩
  case loop => exact .ofDev (fun _ => and_decide_iff) (fun _ _ => ⟨_, rfl⟩)
  case loopr => exact .ofDev (fun _ => decide_eq_true_iff) (fun _ _ => ⟨_, rfl⟩)

/-- The search for an ENDL looks at the next n words in their order. -/
theorem findEndl_eq (m : Words) (l a n : Nat) : findEndl m l a n = ((List.range' a n).filter (fun x => isEndl (m.get x) l)).head? := by
  induction n generalizing a with
  | zero => rfl
  | succ n ih =>
    rw [findEndl, List.range'_succ, List.filter_cons]
    split
    · rfl
    · exact ih (a + 1)

/-- The matching ENDL is the first of its level above PC. -/
theorem afterEndl_eq (c : Core) (l : Nat) : afterEndl c l = (matchEndl c l).map (fun a => BitVec.ofNat 14 (a + 1)) := by
  have hpc : c.pc.toNat + 1 + (16383 - c.pc.toNat) = 16384 := by
    have := c.pc.isLt
    omega
  have hsplit : List.range 16384 = List.range' 0 (c.pc.toNat + 1) ++ List.range' (c.pc.toNat + 1) (16383 - c.pc.toNat) := by
    rw [List.range_eq_range', ← hpc, ← List.range'_append_1, Nat.zero_add]
  have hlow : (List.range' 0 (c.pc.toNat + 1)).filter (fun a => decide (c.pc.toNat < a) && isEndl (c.imem.get a) l) = [] := by
    simp only [List.filter_eq_nil_iff, List.mem_range'_1, Bool.and_eq_true, decide_eq_true_iff]
    omega
  have hhigh : (List.range' (c.pc.toNat + 1) (16383 - c.pc.toNat)).filter
      (fun a => decide (c.pc.toNat < a) && isEndl (c.imem.get a) l) =
      (List.range' (c.pc.toNat + 1) (16383 - c.pc.toNat)).filter (fun a => isEndl (c.imem.get a) l) := by
    refine List.filter_congr (fun a ha => ?_)
    rw [decide_eq_true (by rw [List.mem_range'_1] at ha; omega), Bool.true_and]
  rw [afterEndl, matchEndl, findEndl_eq, hsplit, List.filter_append, hlow, hhigh, List.nil_append]

/-- A loop that is skipped goes on after its ENDL, in one cycle. -/
theorem skipLoop_goes {o : Lim} {d : Dev} {a : BitVec 14} (ha : afterEndl (d.core o.core) (lvlOf o) = some a) (issue : Nat) :
    skipLoop o issue 0 d = d.setCore o.core { ((d.core o.core).retire issue 1 1 []).sticky 0 with pc := a } := by
  rw [afterEndl_eq, Option.map_eq_some_iff] at ha
  obtain ⟨x, hx, rfl⟩ := ha
  simp only [skipLoop, hx]

theorem skipLoop_none {o : Lim} {d : Dev} (ha : afterEndl (d.core o.core) (lvlOf o) = none) (issue : Nat) :
    skipLoop o issue 0 d = limExc o.core 7 d := by
  rw [afterEndl_eq, Option.map_eq_none_iff] at ha
  simp only [skipLoop, ha]

/-- What a core that goes on elsewhere leaves. -/
theorem onlyFlow_retire (c : Core) (issue cost lat : Nat) (dsts : List Nat) (a : BitVec 14) :
    OnlyFlow c { (c.retire issue cost lat dsts).sticky 0 with pc := a } := by
  rw [sticky_zero]
  exact ⟨⟨rfl, rfl, rfl, rfl, rfl⟩, rfl, rfl, rfl, rfl, rfl, rfl, rfl, rfl, rfl⟩

/-! ## O11 -/

/-- Settles O11: every instruction goes through the gate, LOOP and LOOPR with what they do when they do not run; an exception by
what its fault leaves. -/
theorem exceptionsAndNonExecution : Obligations.ExceptionsAndNonExecution := by
  unfold Obligations.ExceptionsAndNonExecution
  refine ⟨fun o s h hp => ⟨fun r hr hok => ?_, fun r hr hok => ⟨fun a ha => ?_, fun ha => ?_⟩⟩, fun o s h r hr => ?_,
    fun k code d _ _ hrun => ?_⟩
  · exact (limRows_gated r hr).skips o s h hp hok
  · have hi := (loopRows_gated r hr).skips o s h hp hok
    rw [offLoop, skipLoop_goes ha] at hi
    exact ⟨_, hi, onlyFlow_retire _ _ _ _ _ _, rfl, rfl, rfl, rfl, rfl⟩
  · have hi := (loopRows_gated r hr).skips o s h hp hok
    rwa [offLoop, skipLoop_none ha] at hi
  · rcases List.mem_append.mp hr with hr | hr
    · exact ⟨(limRows_gated r hr).illegal o s h, (limRows_gated r hr).iecc o s h⟩
    · exact ⟨(loopRows_gated r hr).illegal o s h, (loopRows_gated r hr).iecc o s h⟩
  · obtain ⟨hcode, hpc⟩ := limExc_codeAndPc k code d hrun
    obtain ⟨hstack, htotal, htick, hsram⟩ := limExc_fault k code d hrun
    dsimp only
    rw [limExc_core]
    refine ⟨rfl, ⟨rfl, rfl, rfl, rfl, rfl⟩, rfl, fun m hm => limExc_core_other k code d hm, hsram, hcode, hpc, fun hph => ?_, htotal,
      fun hempty => ⟨excRecord k code d, ?_, rfl, rfl, rfl⟩⟩
    · rw [htick]
      exact abandonedTick_fault hph _
    · rw [hstack, hempty]
      rfl

end Sys2Proof.Proofs
end

section
/-! PROOFS. Loads of an image (R79, R93), the image that takes effect (R78), and the end of carts (R84 to R86). -/
namespace Sys2Proof.Proofs
open Sys2Proof Sys2Proof.Machine Sys2Proof.Claims

/-! ## The state and the code that LIM_LDSTAT shows (R79) -/

/-- LIM_LDSTAT with the state and the code of a load. -/
def loadStat (st code : Nat) (w : Word) : Word := setBits (setBits w 15 8 code) 1 0 st

theorem loadStat_state {st : Nat} (h : st < 4) (code : Nat) (w : Word) : bits (loadStat st code w) 1 0 = st :=
  (bits_setBits_same (by decide)).trans (Nat.mod_eq_of_lt h)

theorem loadStat_code {code : Nat} (h : code < 256) (st : Nat) (w : Word) : bits (loadStat st code w) 15 8 = code :=
  (bits_setBits_other (by decide)).trans ((bits_setBits_same (by decide)).trans (Nat.mod_eq_of_lt h))

theorem ldstat_offEvents : OffEvents LIM_LDSTAT := offEvents_of_block (by decide) (by decide)

/-! ## LIM_LOADCMD (R79) -/

section LoadCommand
variable {v : Word} {d : Dev}

theorem loadCommand_starts (hm : d.mode = .commission) (hl : loading d = false) (hv : bit v 0 = true) :
    loadCommand v d = loadStart (bit v 1) d := by
  simp [loadCommand, hm, hl, hv]

theorem loadCommand_refused (h : d.mode ≠ .commission ∨ loading d = true) :
    loadCommand v d = raise 25 (Dev.setFlag LIM_LDSTAT 31 true d) := if_pos h

theorem loadCommand_ready (v : Word) (d : Dev) : (loadCommand v d).ready = d.ready := by
  by_cases hr : d.mode ≠ .commission ∨ loading d = true
  · rw [loadCommand_refused hr]
    exact ready_of_eventsOnly (((EventsOnly.refl d).setFlag LIM_LDSTAT 31 true).trans (raise_frame 25 _))
  · rw [loadCommand, if_neg hr]
    split <;> rfl

theorem exec_loadCommand_holder {p : HostPort} {s : State} (hs : Holds p s) (v : Word) :
    exec (.loadCommand p v) s = .next { s with dev := loadCommand v s.dev } := by
  have ha : RegAddr LIM_LOADCMD := by unfold RegAddr LIM_LOADCMD; omega
  rw [exec_loadCommand, registerWrite_ruled hs ha (by decide) (by decide) (by decide) rfl (loadCommand_ready v s.dev)]

/-- A load that starts is shown as running, without a code, and reads the place that the registers name. -/
theorem loadStart_shows (cel : Bool) (d : Dev) :
    (loadStart cel d).fld LIM_LDSTAT 1 0 = 1 ∧ (loadStart cel d).fld LIM_LDSTAT 15 8 = 0 ∧
    (loadStart cel d).loader = { d.loader with
      fromCel := cel, addr := (d.reg LIM_IMGADDR).toNat, len := (d.reg LIM_IMGLEN).toNat, changed := false } ∧
    OnlyRegs { d with loader := (loadStart cel d).loader } (loadStart cel d) [LIM_LDSTAT] := by
  have hreg (a : Nat) : (loadStart cel d).reg a = if a = LIM_LDSTAT then loadStat 1 0 (d.reg LIM_LDSTAT) else d.reg a :=
    Dev.reg_setReg d LIM_LDSTAT a _
  have hkept {a : Nat} (h : a ≠ LIM_LDSTAT) : (d.setReg LIM_LDSTAT (loadStat 1 0 (d.reg LIM_LDSTAT))).reg a = d.reg a := by
    rw [Dev.reg_setReg, if_neg h]
  refine ⟨?_, ?_, ?_, rfl, fun a ha => ?_⟩
  · rw [Dev.fld, hreg, if_pos rfl, loadStat_state (by decide)]
  · rw [Dev.fld, hreg, if_pos rfl, loadStat_code (by decide)]
  · rw [← hkept (a := LIM_IMGADDR) (by decide), ← hkept (a := LIM_IMGLEN) (by decide)]
    rfl
  · rw [hreg, if_neg (List.ne_of_not_mem_cons ha)]
    rfl

/-- What differs in registers and events alone is the same elsewhere. -/
theorem elsewhere_of_eventsOnly {d e : Dev} (h : EventsOnly d e) : Elsewhere d e := by
  obtain ⟨r, v, m, rfl⟩ := h
  exact ⟨rfl, rfl, rfl, rfl, ⟨rfl, rfl⟩, rfl, rfl, rfl, rfl⟩

/-- A refused load shows bit 31 and event 25, and starts nothing. -/
theorem loadRefused_shows (hs : d.pw.stopped = false) :
    (raise 25 (Dev.setFlag LIM_LDSTAT 31 true d)).flag LIM_LDSTAT 31 = true ∧
      (raise 25 (Dev.setFlag LIM_LDSTAT 31 true d)).flag (EVT_STICKY 0) 25 = true ∧
      Elsewhere d (raise 25 (Dev.setFlag LIM_LDSTAT 31 true d)) := by
  refine ⟨?_, raise_flag (e := 25) (by decide) hs,
    elsewhere_of_eventsOnly (((EventsOnly.refl d).setFlag LIM_LDSTAT 31 true).trans (raise_frame 25 _))⟩
  rw [Dev.flag, raise_reg ldstat_offEvents, Dev.flag_setFlag, bit_setBit_same (by decide)]

end LoadCommand

/-! ## The end of a verification (R79, R93) -/

section Verification
variable {d : Dev} {bs : List Byte}

/-- The device after a verification: its loader, the state and the code it shows, and its event. -/
def verified (l : Loader) (st code ev : Nat) (d : Dev) : Dev :=
  raise ev (({ d.tickFree with loader := l } : Dev).setReg LIM_LDSTAT (loadStat st code (d.reg LIM_LDSTAT)))

theorem verified_shows {st code ev : Nat} (hst : st < 4) (hcode : code < 256) (hev : evReserved ev = false)
    (hs : d.pw.stopped = false) (l : Loader) : (verified l st code ev d).loader = l ∧
      (verified l st code ev d).fld LIM_LDSTAT 1 0 = st ∧ (verified l st code ev d).fld LIM_LDSTAT 15 8 = code ∧
      (verified l st code ev d).flag (EVT_STICKY (ev / 32)) (ev % 32) = true := by
  have hreg : (verified l st code ev d).reg LIM_LDSTAT = loadStat st code (d.reg LIM_LDSTAT) := by
    rw [verified, raise_reg ldstat_offEvents, Dev.reg_setReg, if_pos rfl]
  refine ⟨?_, ?_, ?_, raise_flag hev hs⟩
  · exact (elsewhere_of_eventsOnly (raise_frame ev _)).loader
  · rw [Dev.fld, hreg, loadStat_state hst]
  · rw [Dev.fld, hreg, loadStat_code hcode]

theorem exec_loadVerifyEnd (s : State) : exec .loadVerifyEnd s = .next { s with dev := loadVerifyEnd s.dev } := rfl

variable (hl : loading d = true) (hch : d.loader.changed = false) (hsrc : loadSource d = some bs)
include hl hch hsrc

theorem loadVerifyEnd_accepts (hc : RawImage.code_ ⟨bs⟩ (decide (d.dramSz ≠ 0)) = 0) :
    loadVerifyEnd d = verified { d.loader with next := some (RawImage.image ⟨bs⟩) } 2 0 23 d := by
  have hc' : RawImage.code_ ⟨bs⟩ (decide (d.tickFree.dramSz ≠ 0)) = 0 := hc
  simp only [loadVerifyEnd, hl, hch, hsrc, hc', Dev.tickFree_loader, Bool.not_true, Bool.false_eq_true, if_false, if_true]
  rfl

theorem loadVerifyEnd_refuses {c : Nat} (hc : RawImage.code_ ⟨bs⟩ (decide (d.dramSz ≠ 0)) = c) (h0 : c ≠ 0) :
    loadVerifyEnd d = verified d.loader 3 c 24 d := by
  have hc' : RawImage.code_ ⟨bs⟩ (decide (d.tickFree.dramSz ≠ 0)) = c := hc
  simp only [loadVerifyEnd, hl, hch, hsrc, hc', if_neg h0, Bool.not_true, Bool.false_eq_true, if_false]
  rfl

end Verification

/-! ## An image takes effect (R78) -/

@[simp] theorem setOut_capture (d : Dev) (a : Nat) (v : Word) : captureView (d.setOut a v) = captureView d := rfl

@[simp] theorem slotRegs_capture (i : Fin 32) (d : Dev) : captureView (slotRegs i d) = captureView d := by
  unfold slotRegs
  split <;> simp

@[simp] theorem setSlot_capture (i : Fin 32) (o : Option TModel) (d : Dev) : captureView (setSlot i o d) = captureView d :=
  slotRegs_capture i _

@[simp] theorem printFeed_capture (im : Image) (p : Nat) (d : Dev) : captureView (printFeed im p d) = captureView d := by
  unfold printFeed
  split <;> simp

@[simp] theorem visStop_capture (g : Fin 4) (d : Dev) : captureView (visStop g d) = captureView d := by simp [visStop]

@[simp] theorem visImage_capture (d : Dev) : captureView (visImage d) = captureView d := by simp [visImage]

@[simp] theorem treeEvict_capture (d : Dev) : captureView (treeEvict d) = captureView d := by
  refine forAll_capture (fun k d => ?_) 32 d
  dsimp only
  split
  · split
    · rw [raise_capture, setFlag_capture, setSlot_capture]
    · rfl
  · rfl

/-- The image in force, with the cores that it gives. -/
def imageInForce (im : Image) (d : Dev) : Dev :=
  { d with
    loader := { d.loader with image := some im, next := none }
    cores := Vector.ofFn (fun (k : Fin 6) => coreOfImage im k)
    lanes := d.lanes.map (fun (l : Lane) => { l with sg := Vector.replicate 8 0, sf := Vector.replicate 8 0, sa := 0 }) }

/-- Of what the rest of the step writes, the loader and the cores see nothing. -/
theorem imageTake_capture {d : Dev} {im : Image} (h : d.loader.next = some im) :
    captureView (imageTake d) = captureView (imageInForce im d) := by
  simp [imageTake, h, imageInForce]

theorem imageTake_inForce {d : Dev} {im : Image} (h : d.loader.next = some im) :
    (imageTake d).loader = { d.loader with image := some im, next := none } ∧
      ∀ k : Fin 6, (imageTake d).core k = coreOfImage im k := by
  have hview := congrArg CaptureView.admitted (imageTake_capture h)
  have hcores : (imageTake d).cores = Vector.ofFn (fun (k : Fin 6) => coreOfImage im k) := congrArg AdmitView.cores hview
  refine ⟨congrArg AdmitView.loader hview, fun k => ?_⟩
  have hk : (imageTake d).core k = (Vector.ofFn (fun (k : Fin 6) => coreOfImage im k))[k] := congrArg (·[k]) hcores
  rw [hk]
  exact Vector.getElem_ofFn k.isLt

/-! ## Writes to DRAM -/

theorem setDramBytes_frame (a : Nat) (bs : List Byte) (d : Dev) : ∃ m, setDramBytes a bs d = { d with dram := m } := by
  induction bs generalizing a d with
  | nil => exact ⟨d.dram, rfl⟩
  | cons b bs ih =>
    obtain ⟨m, hm⟩ := ih (a + 1) (d.setDramByte a b)
    rw [setDramBytes, hm, Dev.setDramByte]
    split
    · exact ⟨m, rfl⟩
    · exact ⟨m, rfl⟩

theorem setDramBytes_carts (a : Nat) (bs : List Byte) (l : List Cart) (d : Dev) :
    setDramBytes a bs { d with carts := l } = { setDramBytes a bs d with carts := l } := by
  induction bs generalizing a d with
  | nil => rfl
  | cons b bs ih =>
    have hb : ({ d with carts := l } : Dev).setDramByte a b = { d.setDramByte a b with carts := l } := by
      by_cases ha : a < dramSize d
      · exact (if_pos ha).trans (by rw [Dev.setDramByte, if_pos ha])
      · exact (if_neg ha).trans (by rw [Dev.setDramByte, if_neg ha])
    rw [setDramBytes, hb, ih, setDramBytes]

/-! ## What a fault of class Note or Slip leaves (R347, R348) -/

section Faults
variable {ev : Nat} {d : Dev} (detail : Word)

theorem fault_note_stuck (he : evReserved ev = false) (hr : Raises d) : Stuck ev (fault ev .note detail d) := by
  have h256 : ev < 256 := by
    simp only [evReserved, Bool.or_eq_false_iff, decide_eq_false_iff_not] at he
    omega
  obtain ⟨f, hf⟩ := fault_note_eq ev detail d
  have hcount : EventsStand (raise ev d) { Dev.count1 FLT_NOTES (raise ev d) with fu := f } :=
    ((EventsStand.refl _).count1 (by decide) (by decide)).upd rfl rfl
  rw [hf]
  have hwatch := watchFaultN_events (fun _ => { Dev.count1 FLT_NOTES (raise ev d) with fu := f }) d
  exact (hcount.trans hwatch).2 ev h256 (raise_stuck he hr)

/-- What a fault of class Note or Slip touches: registers, the event fabric, the monitor's hits, the fault unit, the tick and the
count of free values. -/
def FaultOnly (d e : Dev) : Prop := ∃ r v m f t c, e = { d with regs := r, ev := v, mon := m, fu := f, tick := t, freeCtr := c }

theorem FaultOnly.refl (d : Dev) : FaultOnly d d := ⟨d.regs, d.ev, d.mon, d.fu, d.tick, d.freeCtr, rfl⟩

theorem FaultOnly.trans {d e f : Dev} (h : FaultOnly d e) (k : FaultOnly e f) : FaultOnly d f := by
  obtain ⟨r, v, m, f, t, c, rfl⟩ := h
  obtain ⟨r', v', m', f', t', c', rfl⟩ := k
  exact ⟨r', v', m', f', t', c', rfl⟩

theorem FaultOnly.events {d e f : Dev} (h : FaultOnly d e) (k : EventsOnly e f) : FaultOnly d f := by
  obtain ⟨r, v, m, rfl⟩ := k
  exact h.trans ⟨r, v, m, e.fu, e.tick, e.freeCtr, rfl⟩

theorem FaultOnly.unit {d e : Dev} (h : FaultOnly d e) (f : FaultUnit) : FaultOnly d { e with fu := f } :=
  h.trans ⟨e.regs, e.ev, e.mon, f, e.tick, e.freeCtr, rfl⟩

theorem FaultOnly.setTick {d e : Dev} (h : FaultOnly d e) (t : Tick) : FaultOnly d { e with tick := t } :=
  h.trans ⟨e.regs, e.ev, e.mon, e.fu, t, e.freeCtr, rfl⟩

theorem FaultOnly.pulseDue {d e : Dev} (h : FaultOnly d e) : FaultOnly d (pulseDue e) :=
  (h.events ((EventsOnly.refl e).setReg FLT_PULSECNT (e.reg FLT_PULSECNT + 1))).unit _

theorem fault_note_only (ev : Nat) : FaultOnly d (fault ev .note detail d) := by
  obtain ⟨f, hf⟩ := fault_note_frame ev detail d
  exact ((FaultOnly.refl d).unit f).events hf

theorem fault_slip_only (ev : Nat) : FaultOnly d (fault ev .slip detail d) := by
  have hbegun : FaultOnly d (faultBegun ev true (decide (ev = 3)) d) := by
    have hraise := ((FaultOnly.refl d).events (raise_frame ev d)).unit { d.fu with total := d.fu.total + 1 }
    simp only [faultBegun, if_true, abandonBy_eq]
    exact hraise.setTick _
  have hstacked : FaultOnly d (faultStacked ev .slip detail false true (decide (ev = 3)) d) := by
    obtain ⟨f, hf⟩ := enterStack_frame (recordOf ev .slip detail false d) true (faultBegun ev true (decide (ev = 3)) d)
    exact (hbegun.unit f).events hf
  have hclass : FaultOnly d (applyClass .slip (faultStacked ev .slip detail false true (decide (ev = 3)) d)) :=
    (hstacked.events ((EventsOnly.refl _).setFlag FLT_STAT 1 true)).pulseDue
  have hw : fault ev .slip detail d = _ := faultAt_eq ev .slip detail false true (decide (ev = 3)) d (by decide)
  rw [hw]
  rcases watchFaultN_cases (fun d => applyClass .slip (faultStacked ev .slip detail false true (decide (ev = 3)) d)) d with hc | hc
  · rw [hc]
    exact hclass
  · rw [hc]
    exact hclass.events (vecBoth_frame 2 _)

/-- A Slip fault other than the guard's ends the work of the tick. -/
theorem fault_slip_tick (hev : ev ≠ 3) : (fault ev .slip detail d).tick = abandonedTick false d.now d.tick := by
  have hview := faultAt_faultView ev .slip detail false true (decide (ev = 3)) d (by decide)
  rw [decide_eq_false hev] at hview
  have htick := congrArg FaultView.tick hview
  rw [fault, decide_eq_false hev]
  exact htick

end Faults

/-! ## An error in the source lines of a cart (R367) -/

section SramErr
variable {a n : Nat} {e : Sys2Proof.SramError} {d : Dev}

theorem sramErr_uncorrectable (h : a ≤ e.addr ∧ e.addr < a + n) (he : e.uncorrectable = true) (d : Dev) :
    sramErr (some e) a n d = fault 225 .slip (word e.addr) d.tickFree := by
  simp only [sramErr, if_pos h, he, if_true]

theorem sramErr_corrected (h : a ≤ e.addr ∧ e.addr < a + n) (he : e.uncorrectable = false) (d : Dev) :
    sramErr (some e) a n d = fault 224 .note (word e.addr) d := by
  simp only [sramErr, if_pos h, he, Bool.false_eq_true, if_false]

theorem sramErr_outside (h : ¬ (a ≤ e.addr ∧ e.addr < a + n)) (d : Dev) : sramErr (some e) a n d = d := if_neg h

theorem sramErr_only (err : Option Sys2Proof.SramError) (a n : Nat) (d : Dev) : FaultOnly d (sramErr err a n d) := by
  rcases err with _ | e
  · exact .refl d
  · by_cases h : a ≤ e.addr ∧ e.addr < a + n
    · cases he : e.uncorrectable
      · rw [sramErr_corrected h he]
        exact fault_note_only _ 224
      · rw [sramErr_uncorrectable h he]
        have hfree : FaultOnly d d.tickFree := ⟨d.regs, d.ev, d.mon, d.fu, d.tick, d.freeCtr + 1, rfl⟩
        exact hfree.trans (fault_slip_only _ 225)
    · rw [sramErr_outside h]
      exact .refl d

theorem raises_awake (hs : d.pw.stopped = false) : Raises d := by
  simp [Raises, hs]

/-- An uncorrectable error in the lines raises event 225 and is a Slip fault of a running tick. -/
theorem sramErr_uncorrectable_shows (h : a ≤ e.addr ∧ e.addr < a + n) (he : e.uncorrectable = true) (hs : d.pw.stopped = false) :
    (sramErr (some e) a n d).flag (EVT_STICKY 7) 1 = true ∧ (d.tick.phase ≠ .idle →
      (sramErr (some e) a n d).tick.stopWork = true ∧ (sramErr (some e) a n d).tick.slipFault = true) := by
  rw [sramErr_uncorrectable h he]
  refine ⟨(faultAt_stuck 225 .slip _ false _ _ d.tickFree (by decide) (by decide) (raises_awake hs)).1, fun hp => ?_⟩
  rw [fault_slip_tick _ (by decide)]
  exact abandonedTick_fault hp _

/-- A corrected error in the lines raises event 224, and neither DRAM nor the tick see it. -/
theorem sramErr_corrected_shows (h : a ≤ e.addr ∧ e.addr < a + n) (he : e.uncorrectable = false) (hs : d.pw.stopped = false) :
    (sramErr (some e) a n d).flag (EVT_STICKY 7) 0 = true ∧ (sramErr (some e) a n d).dram = d.dram ∧
      (sramErr (some e) a n d).tick = d.tick := by
  rw [sramErr_corrected h he]
  obtain ⟨f, r, v, m, hf⟩ := fault_note_frame 224 (word e.addr) d
  refine ⟨fault_note_stuck (ev := 224) _ (by decide) (raises_awake hs), ?_, ?_⟩
  · rw [hf]
  · rw [hf]

theorem sramData_corrected (he : e.uncorrectable = false) (a : Nat) (bs : List Byte) (d : Dev) : sramData (some e) a bs d = bs := by
  simp only [sramData, he, Bool.false_eq_true, if_false]

end SramErr

/-! ## The end of a cart (R84, R86) -/

section CartEnd
variable {k : Fin 6} {i : Fin 64} {x : Cart} {rest : List Cart} {d : Dev}

/-- The flags of a core's descriptor that a cart's end latches. -/
def flagged (i : Nat) (bad : Bool) (c : Core) : Core :=
  { c with done := c.done ||| BitVec.ofNat 64 (2 ^ i), err := if bad then c.err ||| BitVec.ofNat 64 (2 ^ i) else c.err }

theorem cartFlags_eq (k : Fin 6) (i : Nat) (bad : Bool) (d : Dev) : cartFlags k i bad d = d.setCore k (flagged i bad (d.core k)) := rfl

theorem cartFlags_core (k : Fin 6) (i : Nat) (bad : Bool) (d : Dev) : (cartFlags k i bad d).core k = flagged i bad (d.core k) :=
  Dev.core_setCore d k _

theorem cartFlags_core_other {j k : Fin 6} (h : j ≠ k) (i : Nat) (bad : Bool) (d : Dev) : (cartFlags k i bad d).core j = d.core j :=
  Dev.core_setCore_other d j k _ h

/-- The device when the lines of a cart have been written to DRAM. -/
def cartWritten (k : Fin 6) (i : Fin 64) (x : Cart) (bs : List Byte) (rest : List Cart) (d : Dev) : Dev :=
  cartFlags k i false { setDramBytes x.dAddr bs d with carts := rest }

/-- DRAM has the lines, the queue has not the cart, the done flag is set, and nothing else moves. -/
theorem cartWritten_eq (k : Fin 6) (i : Fin 64) (x : Cart) (bs : List Byte) (rest : List Cart) (d : Dev) :
    cartWritten k i x bs rest d = ({ d with dram := (setDramBytes x.dAddr bs d).dram, carts := rest } : Dev).setCore k
      (flagged i false (d.core k)) := by
  obtain ⟨m, hm⟩ := setDramBytes_frame x.dAddr bs d
  rw [cartWritten, hm, cartFlags_eq]
  rfl

theorem cartWritten_tick (bs : List Byte) : (cartWritten k i x bs rest d).tick = d.tick := by
  rw [cartWritten_eq]
  rfl

theorem cartWritten_pw (bs : List Byte) : (cartWritten k i x bs rest d).pw = d.pw := by
  rw [cartWritten_eq]
  rfl

section Written
variable (ht : takeCart (fun x => x.of k i && (x.toDram || x.bad)) d.carts = some (x, rest)) (hb : x.bad = false)
include ht hb

theorem cartDone_written (err : Option Sys2Proof.SramError) : cartDone k i err d = sramErr err x.sAddr (64 * x.lines)
    (cartWritten k i x (sramData err x.sAddr x.data { d with carts := rest }) rest d) := by
  simp only [cartDone, ht, hb, Bool.false_eq_true, if_false, setDramBytes_carts, cartWritten]

/-- Whatever the error in its lines, a cart to DRAM leaves the queue with its done flag, and tick SRAM stands. -/
theorem cartDone_leaves (err : Option Sys2Proof.SramError) : (cartDone k i err d).carts = rest ∧
    (cartDone k i err d).sram = d.sram ∧ (cartDone k i err d).core k = flagged i false (d.core k) := by
  obtain ⟨r, v, m, f, t, c, he⟩ := sramErr_only err x.sAddr (64 * x.lines)
    (cartWritten k i x (sramData err x.sAddr x.data { d with carts := rest }) rest d)
  rw [cartDone_written ht hb, he, cartWritten_eq]
  exact ⟨rfl, rfl, Dev.core_setCore _ k _⟩

/-- An error in its lines raises its event; an uncorrectable one is a Slip fault, a corrected one leaves the lines as they were. -/
theorem cartDone_err {e : Sys2Proof.SramError} (h : x.sAddr ≤ e.addr ∧ e.addr < x.sAddr + 64 * x.lines)
    (hs : d.pw.stopped = false) : (cartDone k i (some e) d).flag (EVT_STICKY 7) (if e.uncorrectable then 1 else 0) = true ∧
      (e.uncorrectable = true → d.tick.phase ≠ .idle →
        (cartDone k i (some e) d).tick.stopWork = true ∧ (cartDone k i (some e) d).tick.slipFault = true) ∧
      (e.uncorrectable = false →
        (cartDone k i (some e) d).dram = (setDramBytes x.dAddr x.data d).dram ∧ (cartDone k i (some e) d).tick = d.tick) := by
  rw [cartDone_written ht hb]
  have hawake : (cartWritten k i x (sramData (some e) x.sAddr x.data { d with carts := rest }) rest d).pw.stopped = false := by
    rw [cartWritten_pw, hs]
  cases he : e.uncorrectable
  · obtain ⟨hflag, hdram, htick⟩ := sramErr_corrected_shows h he hawake
    refine ⟨hflag, nofun, fun _ => ⟨hdram.trans ?_, htick.trans (cartWritten_tick _)⟩⟩
    rw [sramData_corrected he, cartWritten_eq]
    rfl
  · obtain ⟨hflag, hslip⟩ := sramErr_uncorrectable_shows h he hawake
    exact ⟨hflag, fun _ hp => hslip (by rwa [cartWritten_tick]), nofun⟩

end Written

theorem cartDone_inError (ht : takeCart (fun x => x.of k i && (x.toDram || x.bad)) d.carts = some (x, rest)) (hb : x.bad = true)
    (err : Option Sys2Proof.SramError) : cartDone k i err d = cartFlags k i true { d with carts := rest } := by
  simp only [cartDone, ht, hb, if_true]

theorem exec_cartDone (k : Fin 6) (i : Fin 64) (err : Option Sys2Proof.SramError) (s : State) :
    exec (.cartDone k i err) s = .next { s with dev := cartDone k i err s.dev } := rfl

/-- A cart from DRAM whose last line has arrived waits with its lines for the edge. -/
theorem cartArrive_waits (ht : takeCart (fun x => x.of k i && !x.toDram && !x.bad && !x.arrived) d.carts = some (x, rest)) :
    cartArrive k i d =
      { d with carts := rest ++ [{ x with arrived := true, data := d.dramBytes x.dAddr (64 * x.lines) }] } := by
  simp only [cartArrive, ht]

/-- At the edge an arrived cart leaves the queue and writes its lines. -/
theorem cartsLand_single (hc : d.carts = [x]) (ha : x.arrived = true) :
    (cartsLand d).carts = [] ∧ (cartsLand d).sram = d.sram.setBytes x.sAddr x.data := by
  have hl : d.carts.filter (·.arrived) = [x] := by rw [hc, List.filter_singleton, ha, cond_true]
  have hn (y : Dev) (h : y.carts = d.carts) : y.carts.filter (fun x => !x.arrived) = [] := by
    rw [h, hc, List.filter_singleton, ha, Bool.not_true, cond_false]
  simp only [cartsLand, hl, List.foldl_cons, List.foldl_nil]
  exact ⟨hn _ rfl, rfl⟩

end CartEnd

/-- Settles O28: the load command is the holder's write of LIM_LOADCMD; a verification ends by its code; a cart ends by its
flags, and an error in its lines is a fault on top. -/
theorem imagesAndCarts : Obligations.ImagesAndCarts := by
  unfold Obligations.ImagesAndCarts
  refine ⟨⟨fun p v s hs => ⟨fun hm hl hv => ?_, fun hm => ?_⟩,
    fun s bs hl hs hch hsrc => ⟨fun hc => ?_, fun c hc h0 h256 => ?_⟩, fun d im h => ?_⟩,
    fun k i s x rest => ⟨fun ht => ⟨fun hb => ?_, fun hb err => ?_, fun hb err => ?_⟩, fun ht => ?_,
      fun d hc ha => cartsLand_single hc ha⟩⟩
  · refine ⟨_, exec_loadCommand_holder hs v, ?_⟩
    rw [loadCommand_starts hm hl hv]
    exact loadStart_shows (bit v 1) s.dev
  · refine ⟨_, exec_loadCommand_holder hs v, ?_⟩
    obtain ⟨hflag, hevent, helse⟩ := loadRefused_shows (d := s.dev) hs.awake
    rw [loadCommand_refused (.inl hm)]
    exact ⟨hflag, hevent, helse.loader, helse⟩
  · refine ⟨_, exec_loadVerifyEnd s, ?_⟩
    rw [loadVerifyEnd_accepts hl hch hsrc hc]
    exact verified_shows (by decide) (by decide) (by decide) hs _
  · refine ⟨_, exec_loadVerifyEnd s, ?_⟩
    rw [loadVerifyEnd_refuses hl hch hsrc hc h0]
    exact verified_shows (by decide) h256 (by decide) hs _
  · obtain ⟨hloader, hcores⟩ := imageTake_inForce h
    exact ⟨by rw [hloader], by rw [hloader], hcores⟩
  · have hend : cartDone k i none s.dev = cartWritten k i x x.data rest s.dev := cartDone_written ht hb none
    refine ⟨_, exec_cartDone k i none s, ?_⟩
    rw [hend, cartWritten_eq]
    exact ⟨rfl, rfl, Dev.core_setCore _ k _, fun j hj => Dev.core_setCore_other _ j k _ hj, rfl, rfl, rfl⟩
  · obtain ⟨hcarts, hsram, hcore⟩ := cartDone_leaves ht hb err
    refine ⟨_, exec_cartDone k i err s, hcarts, hsram, hcore, fun e herr hlo hhi hs => ?_⟩
    subst herr
    exact cartDone_err ht hb ⟨hlo, hhi⟩ hs
  · refine ⟨_, exec_cartDone k i err s, ?_⟩
    rw [cartDone_inError ht hb]
    exact ⟨rfl, rfl, cartFlags_core k i true _, fun j hj => cartFlags_core_other hj i true _, rfl, rfl, rfl⟩
  · exact congrArg (fun d => Host.Outcome.next { s with dev := d }) (cartArrive_waits ht)

end Sys2Proof.Proofs
end

section
/-! PROOFS. The reins arbiter (R103 to R105): what a change of holder leaves, and what REQ, REL, TAKE and the heartbeat do. -/
namespace Sys2Proof.Proofs
open Sys2Proof Sys2Proof.Machine Sys2Proof.Claims

/-! ## What a change of holder leaves -/

theorem reins_of_eventsOnly {d e : Dev} (h : EventsOnly d e) : e.reins = d.reins := by
  obtain ⟨r, v, m, rfl⟩ := h
  rfl

/-- The registers after a release of the tick by the monitor. -/
def releasedRegs (d : Dev) : SMap Word := ((Dev.setFlag MON_STAT 1 false d).setReg MON_STEPS 0).regs

theorem releasedRegs_get {a : Nat} (h1 : a ≠ MON_STAT) (h2 : a ≠ MON_STEPS) (d : Dev) :
    smGet regReset (releasedRegs d) a = d.reg a := by
  have h : smGet regReset (releasedRegs d) a = ((Dev.setFlag MON_STAT 1 false d).setReg MON_STEPS 0).reg a := rfl
  rw [h, Dev.reg_setReg, if_neg h2, Dev.reg_setFlag_other _ _ _ _ _ h1]

/-- A release moves the hold's registers, the monitor and the tick's due time alone. -/
theorem monRelease_frame (d : Dev) : ∃ m t, monRelease d = { d with regs := releasedRegs d, mon := m, tick := t } := by
  unfold monRelease
  by_cases h : monHeld d = true
  · rw [if_pos h]
    exact ⟨_, _, rfl⟩
  · rw [if_neg h]
    exact ⟨_, d.tick, rfl⟩

/-- So does the end of a session, which leaves the registers of the host block. -/
theorem monSessionEnd_frame (d : Dev) : ∃ r m t, monSessionEnd d = { d with regs := r, mon := m, tick := t } ∧
    ∀ a, a / 0x10000 = 0x102 → smGet regReset r a = d.reg a := by
  unfold monSessionEnd
  split
  · obtain ⟨m, t, h⟩ := monRelease_frame (Dev.setFlag MON_STAT 0 false d)
    refine ⟨releasedRegs (Dev.setFlag MON_STAT 0 false d), m, t, h, fun a hb => ?_⟩
    have h1 : a ≠ MON_STAT := fun hc => absurd (hc ▸ hb) (by decide)
    have h2 : a ≠ MON_STEPS := fun hc => absurd (hc ▸ hb) (by decide)
    rw [releasedRegs_get h1 h2, Dev.reg_setFlag_other _ _ _ _ _ h1]
  · exact ⟨d.regs, d.mon, d.tick, rfl, fun _ _ => rfl⟩

section Holder
variable (h : Option HostPort) (d : Dev)

/-- The session of a monitor ends where the holder changes. -/
def sessionChecked : Dev := if d.reins.holder = h then d else monSessionEnd d

theorem setHolder_eq : setHolder h d = vecBoth 1 { sessionChecked h d with
    reins := { (sessionChecked h d).reins with holder := h, hbLate := false } } := rfl

theorem sessionChecked_frame : ∃ r m t, sessionChecked h d = { d with regs := r, mon := m, tick := t } ∧
    ∀ a, a / 0x10000 = 0x102 → smGet regReset r a = d.reg a := by
  unfold sessionChecked
  split
  · exact ⟨d.regs, d.mon, d.tick, rfl, fun _ _ => rfl⟩
  · exact monSessionEnd_frame d

theorem setHolder_reins : (setHolder h d).reins = { d.reins with holder := h, hbLate := false } := by
  obtain ⟨r, m, t, he, -⟩ := sessionChecked_frame h d
  rw [setHolder_eq, reins_of_eventsOnly (vecBoth_frame 1 _), he]

theorem setHolder_ready : (setHolder h d).ready = d.ready := by
  obtain ⟨r, m, t, he, -⟩ := sessionChecked_frame h d
  rw [setHolder_eq, ready_of_eventsOnly (vecBoth_frame 1 _), he]

/-- Registers of the host block that hold no vectors stand. -/
theorem setHolder_reg {a : Nat} (ho : OffEvents a) (hb : a / 0x10000 = 0x102) : (setHolder h d).reg a = d.reg a := by
  obtain ⟨r, m, t, he, hr⟩ := sessionChecked_frame h d
  rw [setHolder_eq, vecBoth_reg ho, he]
  exact hr a hb

end Holder

/-! ## Grants, denials and takes (R103, R105) -/

section Arbiter
variable (p : HostPort) (d : Dev)

theorem setDenied_reins : (setDenied p d).reins = d.reins := reins_of_eventsOnly (statBit_frame p 3 2 d)

theorem setDenied_ready : (setDenied p d).ready = d.ready := ready_of_eventsOnly (statBit_frame p 3 2 d)

/-- Of two requests in one cycle the port wins that did not win the contested grant before. -/
theorem reinsContest_reins : (reinsContest d).reins =
    { holder := some d.reins.lastWin.other, hbLate := false, lastWin := d.reins.lastWin.other } := by
  rw [reinsContest, setHolder_reins, setDenied_reins]

theorem reinsContest_ready : (reinsContest d).ready = d.ready := by
  rw [reinsContest, setHolder_ready, setDenied_ready]

/-- The old holder's waiting commands are discarded, and the take is counted and shown at its port. -/
def takeMarked (x : HostPort) : Dev :=
  Dev.count1 HST_TAKES (setLost x (setDisc x
    ((d.setReg (HST_CMDHEAD x.num) (word (d.fld (HST_CMDTAIL x.num) 8 0))).setReg (HST_DISCARD x.num)
      (word (ringUsed (d.fld (HST_CMDHEAD x.num) 8 0) (d.fld (HST_CMDTAIL x.num) 8 0))))))

theorem reinsTakeFrom_eq (x : HostPort) : reinsTakeFrom x p d = setHolder (some p) (takeMarked d x) := rfl

theorem takeMarked_frame (x : HostPort) : EventsOnly d (takeMarked d x) :=
  (((((EventsOnly.refl d).setReg _ _).setReg _ _).trans (statBit_frame x 4 4 _)).trans (statBit_frame x 5 3 _)).setReg _ _

/-- A sticky bit and its event leave every register but HSTx_STAT and those of the event fabric. -/
theorem statBit_reg {a : Nat} (ho : OffEvents a) (hs : a ≠ HST_STAT p.num) (i ev : Nat) : (statBit p i ev d).reg a = d.reg a := by
  rw [statBit, raise_reg ho, Dev.reg_setFlag_other _ _ _ _ _ hs]

theorem offEvents_takes : OffEvents HST_TAKES := by
  refine ⟨by decide, fun d q => ?_⟩
  unfold pendAddr
  split <;> cases q <;> decide

theorem offEvents_cmdHead : OffEvents (HST_CMDHEAD p.num) := by
  refine ⟨by cases p <;> decide, fun d q => ?_⟩
  unfold pendAddr
  split <;> cases p <;> cases q <;> decide

theorem takeMarked_takes (x : HostPort) : (takeMarked d x).reg HST_TAKES = d.reg HST_TAKES + 1 := by
  have hs : HST_TAKES ≠ HST_STAT x.num := by cases x <;> decide
  have hh : HST_TAKES ≠ HST_CMDHEAD x.num := by cases x <;> decide
  have hd : HST_TAKES ≠ HST_DISCARD x.num := by cases x <;> decide
  rw [takeMarked, Dev.reg_count1, setLost, statBit_reg x _ offEvents_takes hs, setDisc, statBit_reg x _ offEvents_takes hs,
    Dev.reg_setReg, if_neg hd, Dev.reg_setReg, if_neg hh]

theorem takeMarked_head (x : HostPort) :
    (takeMarked d x).reg (HST_CMDHEAD x.num) = word (d.fld (HST_CMDTAIL x.num) 8 0) := by
  have ht : HST_CMDHEAD x.num ≠ HST_TAKES := by cases x <;> decide
  have hs : HST_CMDHEAD x.num ≠ HST_STAT x.num := by cases x <;> decide
  have hd : HST_CMDHEAD x.num ≠ HST_DISCARD x.num := by cases x <;> decide
  rw [takeMarked, Dev.reg_count1_other _ _ _ ht, setLost, statBit_reg x _ (offEvents_cmdHead x) hs, setDisc,
    statBit_reg x _ (offEvents_cmdHead x) hs, Dev.reg_setReg, if_neg hd, Dev.reg_setReg, if_pos rfl]

theorem takeMarked_lost (x : HostPort) : (takeMarked d x).flag (HST_STAT x.num) 5 = true := by
  have ht : HST_STAT x.num ≠ HST_TAKES := by cases x <;> decide
  rw [Dev.flag, takeMarked, Dev.reg_count1_other _ _ _ ht]
  exact statBit_flag x (by decide) 3 _

/-- A forced take moves the reins, discards the old holder's waiting commands and counts. -/
theorem reinsTakeFrom_shows (x : HostPort) : (reinsTakeFrom x p d).reins.holder = some p ∧
    (reinsTakeFrom x p d).reins.hbLate = false ∧
    (reinsTakeFrom x p d).reg (HST_CMDHEAD x.num) = word (d.fld (HST_CMDTAIL x.num) 8 0) ∧
    (reinsTakeFrom x p d).reg HST_TAKES = d.reg HST_TAKES + 1 ∧ (reinsTakeFrom x p d).flag (HST_STAT x.num) 5 = true := by
  have hhead : HST_CMDHEAD x.num / 0x10000 = 0x102 := by cases x <;> decide
  have hstat : HST_STAT x.num / 0x10000 = 0x102 := by cases x <;> decide
  rw [reinsTakeFrom_eq, setHolder_reins, Dev.flag, setHolder_reg _ _ (offEvents_cmdHead x) hhead,
    setHolder_reg _ _ offEvents_takes (by decide), setHolder_reg _ _ (hstStat_offEvents x) hstat]
  exact ⟨rfl, rfl, takeMarked_head d x, takeMarked_takes d x, takeMarked_lost d x⟩

theorem reinsTakeFrom_ready (x : HostPort) : (reinsTakeFrom x p d).ready = d.ready := by
  rw [reinsTakeFrom_eq, setHolder_ready, ready_of_eventsOnly (takeMarked_frame d x)]

/-! ## What an act does by who holds the reins -/

theorem reinsReq_free (c : Bool) (h : d.reins.holder = none) :
    reinsReq p c d = if c then reinsContest d else setHolder (some p) d := by
  simp only [reinsReq, h]

theorem reinsTake_free (c : Bool) (h : d.reins.holder = none) :
    reinsTake p c d = if c then reinsContest d else setHolder (some p) d := by
  simp only [reinsTake, h]

theorem reinsTake_other (c : Bool) (h : d.reins.holder = some p.other) :
    reinsTake p c d = if d.reins.hbLate then reinsTakeFrom p.other p d else setDenied p d := by
  have hne : p.other ≠ p := by cases p <;> decide
  simp only [reinsTake, h, if_neg hne]

theorem reinsReq_ready (c : Bool) : (reinsReq p c d).ready = d.ready := by
  unfold reinsReq
  split
  · split
    · exact reinsContest_ready d
    · exact setHolder_ready _ d
  · split
    · rfl
    · exact setDenied_ready p d

theorem reinsRel_ready : (reinsRel p d).ready = d.ready := by
  unfold reinsRel
  split
  · exact setHolder_ready _ d
  · exact setDenied_ready p d

theorem reinsTake_ready (c : Bool) : (reinsTake p c d).ready = d.ready := by
  unfold reinsTake
  split
  · split
    · exact reinsContest_ready d
    · exact setHolder_ready _ d
  · split
    · rfl
    · split
      · exact reinsTakeFrom_ready p d _
      · exact setDenied_ready p d

theorem heartbeat_ready : (heartbeat p d).ready = d.ready := by
  unfold heartbeat
  split
  · rfl
  · exact setRefuse_ready p d

theorem reinsAct_ready (a : ReinsAct) : (reinsAct p a d).ready = d.ready := by
  cases a with
  | req c => exact reinsReq_ready p d c
  | rel => exact reinsRel_ready p d
  | take c => exact reinsTake_ready p d c
  | beat => exact heartbeat_ready p d

end Arbiter

/-! ## The commands -/

section Commands
variable {p : HostPort} {s : State}

/-- A write of a port that serves reaches the arbiter at once: it needs no room. -/
theorem reinsRow_serves (hs : Serves p s) (a : ReinsAct) : reinsRow p a s = { s with dev := reinsAct p a s.dev } := by
  rw [reinsRow, hostRow_completes hs rfl]
  exact State.putDev_keep s _ (fun h => (reinsAct_ready p s.dev a).trans h)

theorem exec_reinsReq (hs : Serves p s) (c : Bool) : exec (.reinsReq p c) s = .next { s with dev := reinsReq p c s.dev } :=
  congrArg Host.Outcome.next (reinsRow_serves hs (.req c))

theorem exec_reinsRel (hs : Serves p s) : exec (.reinsRel p) s = .next { s with dev := reinsRel p s.dev } :=
  congrArg Host.Outcome.next (reinsRow_serves hs .rel)

theorem exec_reinsTake (hs : Serves p s) (c : Bool) : exec (.reinsTake p c) s = .next { s with dev := reinsTake p c s.dev } :=
  congrArg Host.Outcome.next (reinsRow_serves hs (.take c))

theorem exec_heartbeat (hs : Serves p s) : exec (.heartbeat p) s = .next { s with dev := heartbeat p s.dev } :=
  congrArg Host.Outcome.next (reinsRow_serves hs .beat)

/-- The timeout marks a holder in time as late. -/
theorem hbTimeout_reins {d : Dev} (hh : d.reins.holder = some p) (hl : d.reins.hbLate = false) :
    (hbTimeout d).reins = { d.reins with hbLate := true } := by
  have h : hbTimeout d = vecBoth 1 { d with reins := { d.reins with hbLate := true } } := by simp [hbTimeout, hh, hl]
  rw [h, reins_of_eventsOnly (vecBoth_frame 1 _)]

end Commands

/-- Settles O15: each command is its act on the arbiter, which goes by who holds the reins and whether the holder is late. -/
theorem reins : Obligations.Reins := by
  unfold Obligations.Reins
  refine ⟨fun p s hs hfree => ⟨⟨_, exec_reinsReq hs false, ?_⟩, ⟨_, exec_reinsReq hs true, ?_⟩, ⟨_, exec_reinsTake hs false, ?_⟩⟩,
    fun p s hs hh => ⟨⟨_, exec_reinsRel hs, ?_⟩, ⟨_, exec_heartbeat hs, ?_⟩, fun hl => ⟨_, rfl, ?_⟩⟩,
    fun p s c hs hh => ⟨fun hl => ⟨_, exec_reinsTake hs c, ?_⟩, fun hl => ⟨_, exec_reinsTake hs c, ?_⟩⟩⟩
  -- free reins
  · rw [reinsReq_free p _ _ hfree, if_neg (by decide), setHolder_reins]
    exact ⟨rfl, rfl⟩
  · rw [reinsReq_free p _ _ hfree, if_pos rfl, reinsContest_reins]
    exact ⟨rfl, rfl⟩
  · rw [reinsTake_free p _ _ hfree, if_neg (by decide), setHolder_reins]
  -- the holder's own commands
  · rw [reinsRel, if_pos hh, setHolder_reins]
  · rw [heartbeat, if_pos hh]
    exact ⟨hh, rfl⟩
  · rw [hbTimeout_reins hh hl]
    exact ⟨rfl, hh⟩
  -- a take from the other port
  · rw [reinsTake_other p _ _ hh, if_pos hl]
    exact reinsTakeFrom_shows p s.dev p.other
  · rw [reinsTake_other p _ _ hh, if_neg (by simp [hl])]
    exact ⟨setDenied_reins p s.dev, statBit_flag p (by decide) 2 s.dev⟩

end Sys2Proof.Proofs
end

section
/-! PROOFS. The command rings (R105 to R110): indices, the entry that is consumed, what a completion leaves, and timed commands from
their consumption to their edge. -/
namespace Sys2Proof.Proofs
open Sys2Proof Sys2Proof.Machine Sys2Proof.Claims

/-! ## A port's writes of its own registers (R99) -/

theorem port_of_eventsOnly {d e : Dev} (h : EventsOnly d e) (p : HostPort) : e.port p = d.port p := by
  obtain ⟨r, v, m, rfl⟩ := h
  cases p <;> rfl

theorem tick_of_eventsOnly {d e : Dev} (h : EventsOnly d e) : e.tick = d.tick := by
  obtain ⟨r, v, m, rfl⟩ := h
  rfl

theorem sram_of_eventsOnly {d e : Dev} (h : EventsOnly d e) : e.sram = d.sram := by
  obtain ⟨r, v, m, rfl⟩ := h
  rfl

section Own
variable {p : HostPort} {s : State} {a : Nat}

/-- A port's own register takes its write at once, whoever holds the reins. -/
theorem registerWrite_own (hs : Serves p s) (ho : ownerOf a = some p) (h4 : a % 4 = 0) {v : Word} {e : Dev}
    (hw : writeOwn p a v s.dev = e) (hr : e.ready = s.dev.ready) :
    exec (.registerWrite p a .b4 (v.setWidth 64)) s = .next { s with dev := e } := by
  have hb := ownerOf_block ho
  have ha : RegAddr a := by unfold RegAddr; omega
  have hne : a ≠ HST_REINS := fun hc => absurd (hc ▸ ho) (by cases p <;> decide)
  have hst : stagedReg (decide (s.dev.mode = .commission)) a = false := by
    unfold stagedReg
    split
    · next r hrow =>
      obtain ⟨hwt, hwc⟩ := hst_unstaged hb hrow
      simp [hwt, hwc]
    · rfl
  refine registerWrite_completes hs ha (mustHold_of_unstaged (by simp only [needsStage, accessRegion_reg ha, hst])) (c := 0) ?_ hr
  simp only [hostWriteReg, if_neg hne, ho, if_true, loWord_setWidth, hw]

theorem exec_doorbell (v : Word) :
    exec (.doorbell p v) s = exec (.registerWrite p (HST_CMDTAIL p.num) .b4 (v.setWidth 64)) s :=
  congrArg Host.Outcome.next (regRow_eq_memRow _ v)

theorem exec_cplheadWrite (v : Word) :
    exec (.cplheadWrite p v) s = exec (.registerWrite p (HST_CPLHEAD p.num) .b4 (v.setWidth 64)) s :=
  congrArg Host.Outcome.next (regRow_eq_memRow _ v)

/-- A write of a ring index sets it up to 511, and is ignored with BADDB beyond. -/
theorem registerWrite_index (hs : Serves p s) (ha : a = HST_CMDTAIL p.num ∨ a = HST_CPLHEAD p.num) (v : Word) :
    exec (.registerWrite p a .b4 (v.setWidth 64)) s =
      .next { s with dev := if 511 < v.toNat then setBadDb p s.dev else s.dev.setReg a v } := by
  have ho : ownerOf a = some p := by rcases ha with rfl | rfl <;> cases p <;> decide
  have h4 : a % 4 = 0 := by rcases ha with rfl | rfl <;> cases p <;> decide
  refine registerWrite_own hs ho h4 ?_ ?_
  · rw [writeOwn, if_pos ha, writeIndex]
  · split
    · exact ready_of_eventsOnly (statBit_frame p 6 5 s.dev)
    · rfl

theorem registerWrite_index_sets (hs : Serves p s) (ha : a = HST_CMDTAIL p.num ∨ a = HST_CPLHEAD p.num) {v : Word}
    (hv : v.toNat ≤ 511) : ∃ e, exec (.registerWrite p a .b4 (v.setWidth 64)) s = .next { s with dev := e } ∧
      SetsReg s.dev e a v := by
  refine ⟨_, registerWrite_index hs ha v, ?_⟩
  rw [if_neg (by omega)]
  exact setReg_setsReg _ _ _

theorem registerWrite_index_bad (hs : Serves p s) (ha : a = HST_CMDTAIL p.num ∨ a = HST_CPLHEAD p.num) {v : Word}
    (hv : 511 < v.toNat) : exec (.registerWrite p a .b4 (v.setWidth 64)) s = .next { s with dev := setBadDb p s.dev } := by
  rw [registerWrite_index hs ha, if_pos hv]

end Own

/-! ## COMMAND_CONSUME (R106, R110) -/

section Consume
variable {p : HostPort} {d : Dev} {h : Nat}

/-- An entry that keeps the form of its opcode is no bad entry. -/
theorem badEntry_good (hg : goodEntry p h d) : badEntry (entryAt p h d) (d.reg (HST_CRING p.num (4 * h))) = false := by
  obtain ⟨hzero, hopc, haddr, hedge, hdata⟩ := hg
  have hb : bits (d.reg (HST_CRING p.num (4 * h))) 15 8 = 0 := hzero
  have h0 : (entryAt p h d).opc.toNat ≠ 0 → (entryAt p h d).opc ≠ 0 := fun hn hc => hn (by rw [hc]; rfl)
  have hr : (entryAt p h d).opc.toNat = 1 ∨ (entryAt p h d).opc.toNat = 4 → (entryAt p h d).data = 0 := fun hn =>
    hdata (hn.imp (fun hc => BitVec.eq_of_toNat_eq hc) (fun hc => BitVec.eq_of_toNat_eq hc))
  rw [Bool.eq_false_iff]
  intro hbad
  simp only [badEntry, hb, Bool.or_eq_true, Bool.and_eq_true, decide_eq_true_eq] at hbad
  rcases hbad with (((hc | hc) | ⟨hn, hc⟩) | ⟨hn, hc⟩) | ⟨hn, hc⟩
  · omega
  · exact hc rfl
  · exact hc (haddr (h0 hn))
  · exact hc (hedge hn)
  · exact hc (hr hn)

/-- The entry as the model reads its fields. -/
def takenEntry (p : HostPort) (h : Nat) (d : Dev) : Command :=
  { idx := h, opc := BitVec.ofNat 8 (d.reg (HST_CRING p.num (4 * h))).toNat,
    tag := BitVec.ofNat 16 (bits (d.reg (HST_CRING p.num (4 * h))) 31 16),
    addr := (d.reg (HST_CRING p.num (4 * h + 1))).toNat, data := d.reg (HST_CRING p.num (4 * h + 2)),
    edge := d.reg (HST_CRING p.num (4 * h + 3)), count := d.tick.count }

theorem takenEntry_eq : takenEntry p h d = entryAt p h d := by
  have ht : ∀ w : Word, BitVec.ofNat 16 (bits w 31 16) = BitVec.ofNat 16 (w.toNat / 65536) := fun w =>
    BitVec.eq_of_toNat_eq (by simp [bits])
  rw [takenEntry, ht, entryAt]

/-- The entry at HEAD is taken: it is in flight, and HEAD is one further. -/
theorem consume_takes (hr : d.ready = true) (hw : d.pw.stopped = false) (hh : h = d.fld (HST_CMDHEAD p.num) 8 0)
    (hne : h ≠ d.fld (HST_CMDTAIL p.num) 8 0) (hf : (d.port p).inFlight = none)
    (hc : 1 + (d.port p).timed.length ≤ cplFree p d) (hg : goodEntry p h d) :
    consume p d = (d.setReg (HST_CMDHEAD p.num) (word ((h + 1) % 512))).setPort p
      { d.port p with inFlight := some (entryAt p h d) } := by
  have hbad := badEntry_good hg
  rw [← takenEntry_eq] at hbad ⊢
  subst hh
  unfold consume
  rw [if_neg (by simp [hr, hw, hf, hne]; omega)]
  exact if_neg (ne_true_of_eq_false hbad)

end Consume
/-! ## Completions (R110, R111) -/

/-- The word of DATA that a completion returns: only RD32 and RDAT that succeed return one. -/
def returned (opc status : Nat) (data : Word) : Word := if status = 0 ∧ (opc = 1 ∨ opc = 4) then data else 0

theorem returned_zero (opc status : Nat) : returned opc status 0 = 0 := ite_self 0

section Completion
variable (p : HostPort) (opc tag idx status : Nat) (data : Word) (tick : Nat) (nocommit : Bool) (d : Dev)

/-- The four words of a completion. -/
def cplWords (x : Port) : List Word :=
  [word (tag % 65536 + 65536 * status + 0x1000000 * (opc % 128) + 0x80000000 * b2n x.cplPhase), returned opc status data,
    word tick, word (idx + 65536 * b2n nocommit)]

/-- The device once a completion stands in the ring and the tail is one further. -/
def cplStored (ws : List Word) : Dev :=
  (forAll 4 (fun i e => e.setReg (HST_CPRING p.num (4 * d.fld (HST_CPLTAIL p.num) 8 0 + i)) (ws.getD i 0)) d).setReg
    (HST_CPLTAIL p.num) (word ((d.fld (HST_CPLTAIL p.num) 8 0 + 1) % 512))

/-- The port after a completion at a place of the ring: its phase turns after the last place. -/
def cplPort (t : Nat) (x : Port) : Port := if t = 511 then { x with cplPhase := !x.cplPhase } else x

theorem setPort_port (d : Dev) (p : HostPort) : d.setPort p (d.port p) = d := by cases p <;> rfl

theorem eventsOnly_setPort {d e : Dev} (h : EventsOnly d e) (p : HostPort) (x : Port) :
    EventsOnly (d.setPort p x) (e.setPort p x) := by
  obtain ⟨r, v, m, rfl⟩ := h
  cases p <;> exact ⟨r, v, m, rfl⟩

theorem eventsOnly_forAll {f : Nat → Dev → Dev} (hf : ∀ i e, EventsOnly e (f i e)) (n : Nat) (d : Dev) :
    EventsOnly d (forAll n f d) := by
  induction n with
  | zero => exact EventsOnly.refl d
  | succ n ih =>
    rw [forAll_succ]
    exact ih.trans (hf n _)

theorem cplStored_frame (ws : List Word) : EventsOnly d (cplStored p d ws) :=
  (eventsOnly_forAll (fun _ e => (EventsOnly.refl e).setReg _ _) 4 d).setReg _ _

theorem complete_eq : complete p opc tag idx status data tick nocommit d =
    vecSet p 0 ((cplStored p d (cplWords opc tag idx status data tick nocommit (d.port p))).setPort p
      (cplPort (d.fld (HST_CPLTAIL p.num) 8 0) (d.port p))) := by
  have h : complete p opc tag idx status data tick nocommit d = vecSet p 0 (if d.fld (HST_CPLTAIL p.num) 8 0 = 511
      then (cplStored p d (cplWords opc tag idx status data tick nocommit (d.port p))).setPort p
        { d.port p with cplPhase := !(d.port p).cplPhase }
      else cplStored p d (cplWords opc tag idx status data tick nocommit (d.port p))) := rfl
  rw [h, cplPort]
  generalize hs : cplStored p d (cplWords opc tag idx status data tick nocommit (d.port p)) = e
  have hp : e.port p = d.port p := port_of_eventsOnly (hs ▸ cplStored_frame p d _) p
  split
  · rfl
  · rw [← hp, setPort_port]

/-- A completion moves registers and the port's phase alone. -/
theorem complete_frame : EventsOnly (d.setPort p (cplPort (d.fld (HST_CPLTAIL p.num) 8 0) (d.port p)))
    (complete p opc tag idx status data tick nocommit d) := by
  rw [complete_eq]
  exact (eventsOnly_setPort (cplStored_frame p d _) p _).trans (vecSet_frame p 0 _)

theorem complete_port : (complete p opc tag idx status data tick nocommit d).port p =
    cplPort (d.fld (HST_CPLTAIL p.num) 8 0) (d.port p) :=
  (port_of_eventsOnly (complete_frame p opc tag idx status data tick nocommit d) p).trans (Dev.port_setPort d p _)

theorem complete_tick : (complete p opc tag idx status data tick nocommit d).tick = d.tick :=
  (tick_of_eventsOnly (complete_frame p opc tag idx status data tick nocommit d)).trans (Dev.setPort_tick d p _)

theorem complete_sram : (complete p opc tag idx status data tick nocommit d).sram = d.sram :=
  (sram_of_eventsOnly (complete_frame p opc tag idx status data tick nocommit d)).trans (Dev.setPort_sram d p _)

@[simp] theorem cplPort_inFlight (t : Nat) (x : Port) : (cplPort t x).inFlight = x.inFlight := by
  unfold cplPort
  split <;> rfl

@[simp] theorem cplPort_timed (t : Nat) (x : Port) : (cplPort t x).timed = x.timed := by
  unfold cplPort
  split <;> rfl

/-- A register that holds no pending vectors is as the completion stored leaves it. -/
theorem complete_reg {a : Nat} (h : ∀ e, a ≠ pendAddr e p) : (complete p opc tag idx status data tick nocommit d).reg a =
    (cplStored p d (cplWords opc tag idx status data tick nocommit (d.port p))).reg a := by
  rw [complete_eq, vecSet, Dev.reg_setFlag_other _ _ _ _ _ (h _)]
  exact Dev.reg_congr (Dev.setPort_regs _ p _) a

theorem cplTail_ne_pend (e : Dev) : HST_CPLTAIL p.num ≠ pendAddr e p := by
  unfold pendAddr
  split <;> cases p <;> decide

theorem cpring_ne_pend (i : Nat) (e : Dev) : HST_CPRING p.num i ≠ pendAddr e p := by
  have hp : p.num < 2 := by cases p <;> decide
  unfold pendAddr HST_CPRING HST_PBA HST_VECPEND
  split <;> omega

theorem cpring_ne_tail (i : Nat) : HST_CPRING p.num i ≠ HST_CPLTAIL p.num := by
  have hp : p.num < 2 := by cases p <;> decide
  unfold HST_CPRING HST_CPLTAIL
  omega

/-- TAIL is one further. -/
theorem complete_tail : (complete p opc tag idx status data tick nocommit d).reg (HST_CPLTAIL p.num) =
    word ((d.fld (HST_CPLTAIL p.num) 8 0 + 1) % 512) := by
  rw [complete_reg _ _ _ _ _ _ _ _ _ (cplTail_ne_pend p), cplStored, Dev.reg_setReg, if_pos rfl]

/-- The words of the completion stand at the tail as it was. -/
theorem complete_word {i : Nat} (hi : i < 4) : (complete p opc tag idx status data tick nocommit d).reg
      (HST_CPRING p.num (4 * d.fld (HST_CPLTAIL p.num) 8 0 + i)) =
    (cplWords opc tag idx status data tick nocommit (d.port p)).getD i 0 := by
  have hinj : ∀ j, HST_CPRING p.num (4 * d.fld (HST_CPLTAIL p.num) 8 0 + i) =
      HST_CPRING p.num (4 * d.fld (HST_CPLTAIL p.num) 8 0 + j) ↔ i = j := fun j => by
    unfold HST_CPRING
    omega
  rw [complete_reg _ _ _ _ _ _ _ _ _ (cpring_ne_pend p _), cplStored, Dev.reg_setReg, if_neg (cpring_ne_tail p _)]
  simp only [forAll_succ, Dev.reg_setReg, hinj]
  obtain rfl | rfl | rfl | rfl : i = 0 ∨ i = 1 ∨ i = 2 ∨ i = 3 := by omega
  all_goals rfl

end Completion

theorem fld_setPort (d : Dev) (p : HostPort) (x : Port) (a hi lo : Nat) : (d.setPort p x).fld a hi lo = d.fld a hi lo := by
  rw [Dev.fld, Dev.reg_congr (Dev.setPort_regs d p x), Dev.fld]

/-- The command in flight has been taken out of its port. -/
def landed (p : HostPort) (d : Dev) : Dev := d.setPort p { d.port p with inFlight := none }

/-- A completion of the command in flight is written at the tail. -/
theorem complete_landed {p : HostPort} {c : Command} {opc : Nat} (ho : c.opc.toNat = opc) (status : Nat) (data : Word)
    (tick : Nat) (d : Dev) :
    Completed p c status (returned opc status data) d (complete p opc c.tag.toNat c.idx status data tick false (landed p d)) ∧
    ((complete p opc c.tag.toNat c.idx status data tick false (landed p d)).port p).timed = (d.port p).timed ∧
    (complete p opc c.tag.toNat c.idx status data tick false (landed p d)).tick = d.tick ∧
    (complete p opc c.tag.toNat c.idx status data tick false (landed p d)).sram = d.sram := by
  have hfld : (landed p d).fld (HST_CPLTAIL p.num) 8 0 = d.fld (HST_CPLTAIL p.num) 8 0 :=
    fld_setPort d p _ _ 8 0
  have hport : (landed p d).port p = { d.port p with inFlight := none } := Dev.port_setPort d p _
  have hword : ∀ i, i < 4 → _ := fun i => complete_word p opc c.tag.toNat c.idx status data tick false (landed p d) (i := i)
  have htag : c.tag.toNat % 65536 = c.tag.toNat := Nat.mod_eq_of_lt c.tag.isLt
  have h0 := hword 0 (by decide)
  have h1 := hword 1 (by decide)
  simp only [hfld, hport, cplWords, htag, ← ho] at h0 h1
  subst ho
  refine ⟨⟨?_, h0, h1, ?_⟩, ?_, ?_, ?_⟩
  · rw [complete_tail, hfld]
  · rw [complete_port, cplPort_inFlight, hport]
  · rw [complete_port, cplPort_timed, hport]
  · rw [complete_tick]
    exact Dev.setPort_tick d p _
  · rw [complete_sram]
    exact Dev.setPort_sram d p _

/-! ## A command in flight (R106) -/

section InFlight
variable {p : HostPort} {s : State} {c : Command}

theorem onCommand_opc {d : Dev} (hf : (d.port p).inFlight = some c) {opc : Nat} (ho : c.opc.toNat = opc)
    (f : Command → Dev → Dev) : onCommand p opc f d = f c d := by
  simp only [onCommand, hf, ho, if_true]

theorem cmdEnd_eq (p : HostPort) (c : Command) (status : Nat) (data : Word) (d : Dev) : cmdEnd p c status data d =
    complete p c.opc.toNat c.tag.toNat c.idx status data (loWord d.tick.count).toNat false (landed p d) := rfl

theorem cmdTimed_eq (p : HostPort) (write : Bool) (c : Command) (d : Dev) :
    cmdTimed p write c d = timedNew p write c (landed p d) := rfl

theorem exec_cmdNop (hf : (s.dev.port p).inFlight = some c) (ho : c.opc = 0) :
    exec (.cmdNop p) s = .next { s with dev := cmdEnd p c 0 0 s.dev } := by
  have h := onCommand_opc hf (congrArg BitVec.toNat ho) (fun c d => cmdEnd p c 0 0 d)
  exact congrArg (fun d => Host.Outcome.next { s with dev := d }) h

/-- A read of tick SRAM gives its four bytes as committed. -/
theorem devRead_sram {rd : Reader} {snap d : Dev} {a : Nat} (h : a + 4 ≤ 0x400000) :
    devRead rd a 4 snap d = (d.sram.bytes a 4, true, d) := by
  rw [devRead_memory (accessRegion_sram (by decide) h) (by decide), memBytes_sram]

theorem word_bytes (m : Memory) (a : Nat) : word (leNat (m.bytes a 4)) = m.word a := rfl

theorem exec_rd32 (hf : (s.dev.port p).inFlight = some c) (ho : c.opc = 1) (ha : c.addr + 4 ≤ 0x400000) :
    exec (.rd32 p) s = .next { s with dev := cmdEnd p c 0 (s.dev.sram.word c.addr) s.dev } := by
  have h : onCommand p 1 (cmdRead p s.snap) s.dev = cmdEnd p c 0 (s.dev.sram.word c.addr) s.dev := by
    rw [onCommand_opc hf (opc := 1) (congrArg BitVec.toNat ho)]
    simp only [cmdRead, devRead_sram ha, word_bytes, if_true]
  exact congrArg (fun d => Host.Outcome.next { s with dev := d }) h

/-- The holder's write of tick SRAM is staged. -/
theorem hostWrite_sram {d : Dev} (hh : d.reins.holder = some p) {a n : Nat} (hn : 0 < n) (ha : a + n ≤ 0x400000)
    (vf : VerifyEnv) (demand : Bool) (v : Nat) :
    hostWrite p vf demand a n v d = (0, stageHost (.host p) (.sram a n v) d) := by
  rw [hostWrite_memory (accessRegion_sram hn ha) (by decide), if_neg (fun hc => hc hh)]
  rfl

theorem cmdEnd_ready (status : Nat) (data : Word) (d : Dev) : (cmdEnd p c status data d).ready = d.ready := by
  rw [cmdEnd_eq, ready_of_eventsOnly (complete_frame _ _ _ _ _ _ _ _ _), Dev.setPort_ready, landed, Dev.setPort_ready]

theorem exec_wr32 (hs : Serves p s) (hf : (s.dev.port p).inFlight = some c) (ho : c.opc = 2) (hh : s.dev.reins.holder = some p)
    (hroom : stagedBy p s.dev < 256) (ha : c.addr + 4 ≤ 0x400000) : exec (.wr32 p) s =
      .next { s with dev := cmdEnd p c 0 0 (stageHost (.host p) (.sram c.addr 4 c.data.toNat) s.dev) } := by
  have hw := hostWrite_sram hh (by decide) ha verifyGood (hrnDemand s.snap) c.data.toNat
  have hr := (stageHost_ready (.host p) (.sram c.addr 4 c.data.toNat) s.dev).trans hs.ready
  have h : onCommand p 2 (cmdWrite p (hrnDemand s.snap)) s.dev =
      cmdEnd p c 0 0 (stageHost (.host p) (.sram c.addr 4 c.data.toNat) s.dev) := by
    rw [onCommand_opc hf (opc := 2) (congrArg BitVec.toNat ho), cmdWrite, if_neg (by simp [hs.free, mustHold_of_room hroom]), hw]
    exact if_pos hr
  have he : exec (.wr32 p) s = .next (s.putDev (onCommand p 2 (cmdWrite p (hrnDemand s.snap)) s.dev)) := rfl
  rw [he, h, State.putDev_keep s _ (fun _ => (cmdEnd_ready 0 0 _).trans hr)]

end InFlight

/-! ## The edge that EDGE names (R106) -/

section Target
variable (count : DWord) {n : Nat}

theorem toInt_ofNat_small (h : n < 2 ^ 31) : (BitVec.ofNat 32 n).toInt = n := by
  have hn : (BitVec.ofNat 32 n).toNat = n := by rw [BitVec.toNat_ofNat, Nat.mod_eq_of_lt (by omega)]
  rw [BitVec.toInt_eq_toNat_of_lt (by omega), hn]

theorem targetEdge_add (h : n < 2 ^ 31) : targetEdge count (loWord (count + BitVec.ofNat 64 n)) = count.toNat + n := by
  have hd : loWord (count + BitVec.ofNat 64 n) - loWord count = BitVec.ofNat 32 n := by
    rw [loWord, loWord, BitVec.setWidth_add _ _ (by decide), BitVec.add_comm, BitVec.add_sub_cancel,
      BitVec.setWidth_ofNat_of_le (by decide)]
  rw [targetEdge, hd, toInt_ofNat_small h]

theorem targetEdge_sub (h : n < 2 ^ 31) : targetEdge count (loWord (count - BitVec.ofNat 64 n)) = count.toNat - n := by
  have hd : loWord (count - BitVec.ofNat 64 n) - loWord count = - BitVec.ofNat 32 n := by
    rw [loWord, loWord, BitVec.sub_eq_add_neg count, BitVec.setWidth_add _ _ (by decide), BitVec.add_comm,
      BitVec.add_sub_cancel, BitVec.setWidth_neg_of_le (by decide), BitVec.setWidth_ofNat_of_le (by decide)]
  rw [targetEdge, hd, BitVec.toInt_neg, toInt_ofNat_small h, Int.bmod_eq_of_le (by omega) (by omega), Int.sub_eq_add_neg]

end Target

/-! ## What becomes of a timed command at its consumption (R106, R107) -/

section Timed
variable {p : HostPort} {write : Bool} {c : Command} {d : Dev}

/-- A timed command that completes at once. -/
def timedDone (p : HostPort) (write : Bool) (c : Command) (status : Nat) (d : Dev) : Dev :=
  complete p (if write then 3 else 4) c.tag.toNat c.idx status 0 (targetEdge c.count c.edge % 2 ^ 32).toNat false d

/-- A timed command that waits. -/
def waiting (write : Bool) (c : Command) : Timed :=
  { write := write, tag := c.tag, idx := c.idx, addr := c.addr, data := c.data, edge := (targetEdge c.count c.edge).toNat,
    acc := false, got := none }

/-- The edge is not after the count at consumption, has come, or is the next one and Stage has begun. -/
abbrev TooLate (e : Int) (c : Command) (d : Dev) : Prop :=
  e ≤ c.count.toNat ∨ e ≤ d.tick.count.toNat ∨ (e = d.tick.count.toNat + 1 ∧ d.tick.phase = .stage)

/-- A WRAT whose address takes no timed write. -/
theorem timedNew_target (h : timedTarget true c.addr = false) : timedNew p true c d = timedDone p true c 9 d := by
  rw [timedNew]
  exact if_pos (by simp [h])

/-- Any other waits, unless it is late, too far ahead, or behind 64 others. -/
theorem timedNew_eq (ht : (write && !timedTarget true c.addr) = false) : timedNew p write c d =
    if TooLate (targetEdge c.count c.edge) c d then timedDone p write c 5 d
    else if (c.count.toNat : Int) + 65536 < targetEdge c.count c.edge then timedDone p write c 6 d
    else if 64 ≤ (d.port p).timed.length then timedDone p write c 7 d
    else d.setPort p { d.port p with timed := (d.port p).timed ++ [waiting write c] } := by
  have hp : acceptPassed d = true ↔ d.tick.phase = .stage := by simp [acceptPassed]
  unfold timedNew
  rw [if_neg (by simp [ht])]
  simp only [TooLate, hp]
  rfl

theorem timedTarget_sram {a : Nat} (h : a + 4 ≤ 0x400000) (commission : Bool) : timedTarget commission a = true := by
  simp only [timedTarget, accessRegion_sram (by decide) h]

/-- A timed command that completes at once leaves the waiting ones. -/
theorem timedDone_landed (ho : c.opc.toNat = if write then 3 else 4) (status : Nat) :
    Completed p c status 0 d (timedDone p write c status (landed p d)) ∧
      ((timedDone p write c status (landed p d)).port p).timed = (d.port p).timed := by
  obtain ⟨hdone, htimed, -⟩ := complete_landed ho status 0 (targetEdge c.count c.edge % 2 ^ 32).toNat (p := p) d
  rw [returned_zero] at hdone
  exact ⟨hdone, htimed⟩

end Timed

section Consumed
variable {p : HostPort} {s : State} {c : Command}

theorem exec_wrat (hf : (s.dev.port p).inFlight = some c) (ho : c.opc = 3) :
    exec (.wrat p) s = .next { s with dev := timedNew p true c (landed p s.dev) } := by
  have h := onCommand_opc hf (opc := 3) (congrArg BitVec.toNat ho) (cmdTimed p true)
  exact congrArg (fun d => Host.Outcome.next { s with dev := d }) h

theorem exec_rdat (hf : (s.dev.port p).inFlight = some c) (ho : c.opc = 4) :
    exec (.rdat p) s = .next { s with dev := timedNew p false c (landed p s.dev) } := by
  have h := onCommand_opc hf (opc := 4) (congrArg BitVec.toNat ho) (cmdTimed p false)
  exact congrArg (fun d => Host.Outcome.next { s with dev := d }) h

/-- A WRAT of tick SRAM and an RDAT complete with a status where every timed command in flight does. -/
theorem timedEnds_of (hf : (s.dev.port p).inFlight = some c) {status : Nat}
    (h : ∀ write, (write && !timedTarget true c.addr) = false →
      timedNew p write c (landed p s.dev) = timedDone p write c status (landed p s.dev)) : TimedEnds p c status s := by
  refine ⟨fun ho ha => ⟨_, exec_wrat hf ho, ?_⟩, fun ho => ⟨_, exec_rdat hf ho, ?_⟩⟩
  · rw [h true (by simp [timedTarget_sram ha])]
    exact timedDone_landed (congrArg BitVec.toNat ho) status
  · rw [h false rfl]
    exact timedDone_landed (congrArg BitVec.toNat ho) status

theorem landed_tick (p : HostPort) (d : Dev) : (landed p d).tick = d.tick := Dev.setPort_tick d p _

theorem landed_port (p : HostPort) (d : Dev) : (landed p d).port p = { d.port p with inFlight := none } := Dev.port_setPort d p _

theorem timedEnds_late (hf : (s.dev.port p).inFlight = some c) (hl : TooLate (targetEdge c.count c.edge) c s.dev) :
    TimedEnds p c 5 s := by
  have hl' : TooLate (targetEdge c.count c.edge) c (landed p s.dev) := by
    rw [TooLate, landed_tick]
    exact hl
  exact timedEnds_of hf fun write ht => by rw [timedNew_eq ht, if_pos hl']

variable {n : Nat}

/-- An edge after the count at consumption that has not come, and for which Stage has not begun. -/
theorem not_tooLate (he : targetEdge c.count c.edge = c.count.toNat + n) (hc : s.dev.tick.count.toNat < c.count.toNat + n)
    (hp : c.count.toNat + n = s.dev.tick.count.toNat + 1 → s.dev.tick.phase ≠ .stage) (h0 : 0 < n) :
    ¬ TooLate (targetEdge c.count c.edge) c (landed p s.dev) := by
  rw [TooLate, landed_tick, he]
  rintro (h | h | ⟨h, hs⟩)
  · omega
  · omega
  · exact hp (by omega) hs

section Ahead
variable (hf : (s.dev.port p).inFlight = some c) (he : targetEdge c.count c.edge = c.count.toNat + n)
  (hl : ¬ TooLate (targetEdge c.count c.edge) c (landed p s.dev))
include he hl

theorem timedNew_waits (hn : n ≤ 65536) (hr : (s.dev.port p).timed.length < 64) {write : Bool}
    (ht : (write && !timedTarget true c.addr) = false) : timedNew p write c (landed p s.dev) =
      s.dev.setPort p { s.dev.port p with inFlight := none, timed := (s.dev.port p).timed ++
        [⟨write, c.tag, c.idx, c.addr, c.data, c.count.toNat + n, false, none⟩] } := by
  have hw : waiting write c = ⟨write, c.tag, c.idx, c.addr, c.data, c.count.toNat + n, false, none⟩ := by
    rw [waiting, he]
    rfl
  have hlen : ¬ 64 ≤ ((landed p s.dev).port p).timed.length := by
    rw [landed_port]
    exact Nat.not_le.mpr hr
  rw [timedNew_eq ht, if_neg hl, if_neg (by omega), if_neg hlen, landed_port, hw, landed, setPort_setPort]

include hf

theorem wrat_waits (hn : n ≤ 65536) (hr : (s.dev.port p).timed.length < 64) (ho : c.opc = 3) (ha : c.addr + 4 ≤ 0x400000) :
    ∃ t, exec (.wrat p) s = .next t ∧ (t.dev.port p).inFlight = none ∧ (t.dev.port p).timed = (s.dev.port p).timed ++
      [⟨true, c.tag, c.idx, c.addr, c.data, c.count.toNat + n, false, none⟩] ∧ t.dev.regs = s.dev.regs := by
  refine ⟨_, exec_wrat hf ho, ?_⟩
  rw [timedNew_waits he hl hn hr (by simp [timedTarget_sram ha]), Dev.port_setPort]
  exact ⟨rfl, rfl, Dev.setPort_regs _ p _⟩

theorem rdat_waits (hn : n ≤ 65536) (hr : (s.dev.port p).timed.length < 64) (ho : c.opc = 4) :
    ∃ t, exec (.rdat p) s = .next t ∧ (t.dev.port p).inFlight = none ∧ (t.dev.port p).timed = (s.dev.port p).timed ++
      [⟨false, c.tag, c.idx, c.addr, c.data, c.count.toNat + n, false, none⟩] ∧ t.dev.regs = s.dev.regs := by
  refine ⟨_, exec_rdat hf ho, ?_⟩
  rw [timedNew_waits he hl hn hr rfl, Dev.port_setPort]
  exact ⟨rfl, rfl, Dev.setPort_regs _ p _⟩

theorem timedEnds_far (hn : 65536 < n) : TimedEnds p c 6 s :=
  timedEnds_of hf fun write ht => by rw [timedNew_eq ht, if_neg hl, if_pos (by omega)]

theorem timedEnds_full (hn : n ≤ 65536) (hr : 64 ≤ (s.dev.port p).timed.length) : TimedEnds p c 7 s :=
  timedEnds_of hf fun write ht => by
    have hlen : 64 ≤ ((landed p s.dev).port p).timed.length := by rw [landed_port]; exact hr
    rw [timedNew_eq ht, if_neg hl, if_neg (by omega), if_pos hlen]

end Ahead
end Consumed

/-! ## Timed commands at their edge (R102, R107, R108) -/

section AtEdge
variable {p : HostPort} {t : Timed} {d : Dev}

/-- The only waiting command of a port, of a kind that an instant looks for. -/
theorem filter_only (ht : (d.port p).timed = [t]) {f : Timed → Bool} (hf : f t = true) : (d.port p).timed.filter f = [t] := by
  rw [ht, List.filter_singleton, hf, cond_true]

/-- The device once a WRAT has been accepted: what it writes is staged, and it waits for its edge. -/
def accepted (p : HostPort) (t : Timed) (e : Dev) : Dev :=
  e.setPort p { e.port p with timed := (e.port p).timed.map (fun u => if u = t then { u with acc := true } else u) }

theorem acceptOne_sram (hh : d.reins.holder = some p) (ha : t.addr + 4 ≤ 0x400000) :
    acceptOne p t d = accepted p t (stageHost (.timed p) (.sram t.addr 4 t.data.toNat) d) := by
  have hr : accessRegion t.addr 4 = some .sram := accessRegion_sram (by decide) ha
  rw [acceptOne, if_neg (fun hc => hc hh), if_neg (by simp [timedTarget_sram ha]), hr]
  rfl

/-- At the acceptance instant the holder's WRAT of tick SRAM for the coming edge is accepted. -/
theorem acceptAll_only (ht : (d.port p).timed = [t]) (hw : t.write = true) (hacc : t.acc = false)
    (he : t.edge = d.tick.count.toNat + 1) (hh : d.reins.holder = some p) (ha : t.addr + 4 ≤ 0x400000) :
    acceptAll p d = accepted p t (stageHost (.timed p) (.sram t.addr 4 t.data.toNat) d) := by
  rw [acceptAll, filter_only ht (by simp [hw, hacc, he])]
  exact acceptOne_sram hh ha

theorem stageHost_port (w : Writer) (x : Write) (d : Dev) (p : HostPort) : (stageHost w x d).port p = d.port p := by
  obtain ⟨u, hu⟩ := stageHost_frame w x d
  rw [hu]
  cases p <;> rfl

/-- Of an accepted WRAT the staged write is in the tick unit, and the port marks it. -/
theorem accepted_shows (ht : (d.port p).timed = [t]) (w : Writer) (x : Write) :
    ((accepted p t (stageHost w x d)).port p).timed = [{ t with acc := true }] ∧
    (accepted p t (stageHost w x d)).tick = (stageHost w x d).tick ∧
    (accepted p t (stageHost w x d)).regs = d.regs ∧ (accepted p t (stageHost w x d)).sram = d.sram := by
  obtain ⟨u, hu⟩ := stageHost_frame w x d
  refine ⟨?_, Dev.setPort_tick _ p _, (Dev.setPort_regs _ p _).trans (by rw [hu]), (Dev.setPort_sram _ p _).trans (by rw [hu])⟩
  rw [accepted, Dev.port_setPort, stageHost_port, ht]
  simp

theorem exec_wratAccept {s : State} (hk : ticking s.dev = true) (hp : s.dev.tick.phase = .compute) :
    exec (.wratAccept p) s = .next { s with dev := acceptAll p (acceptInstant s.dev) } := by
  have h : wratAccept p s = { s with dev := acceptAll p (acceptInstant s.dev) } := by
    have hc : computeStart s = s := by simp [computeStart, hp]
    simp [wratAccept, hc, hk, hp]
  exact congrArg Host.Outcome.next h

/-- An RDAT of the running tick ends with the word that its edge latched, or the one committed. -/
theorem performAll_only (ht : (d.port p).timed = [t]) (hw : t.write = false) (he : t.edge = d.tick.count.toNat)
    (ha : t.addr + 4 ≤ 0x400000) (snap : Dev) :
    performAll p snap d = timedEnd p t 0 (t.got.getD (d.sram.word t.addr)) d.tick.abandoned d := by
  rw [performAll, filter_only ht (by simp [hw, he])]
  simp only [List.foldl_cons, List.foldl_nil, devRead_sram ha, word_bytes, if_true]

/-- The end of an RDAT: it waits no longer, and its completion returns the word. -/
theorem timedEnd_read (ht : (d.port p).timed = [t]) (hw : t.write = false) (data : Word) (nocommit : Bool) :
    ((timedEnd p t 0 data nocommit d).port p).timed = [] ∧
    (timedEnd p t 0 data nocommit d).reg (HST_CPRING p.num (4 * d.fld (HST_CPLTAIL p.num) 8 0 + 1)) = data ∧
    (timedEnd p t 0 data nocommit d).reg (HST_CPLTAIL p.num) = word ((d.fld (HST_CPLTAIL p.num) 8 0 + 1) % 512) ∧
    (timedEnd p t 0 data nocommit d).tick = d.tick := by
  have heq : timedEnd p t 0 data nocommit d = complete p 4 t.tag.toNat t.idx 0 data t.edge nocommit
      (d.setPort p { d.port p with timed := (d.port p).timed.erase t }) := by simp [timedEnd, hw]
  have hfld := fld_setPort d p { d.port p with timed := (d.port p).timed.erase t } (HST_CPLTAIL p.num) 8 0
  have hword := complete_word p 4 t.tag.toNat t.idx 0 data t.edge nocommit
    (d.setPort p { d.port p with timed := (d.port p).timed.erase t }) (i := 1) (by decide)
  rw [hfld] at hword
  rw [heq]
  refine ⟨?_, hword, ?_, ?_⟩
  · rw [complete_port, cplPort_timed, Dev.port_setPort, ht]
    simp
  · rw [complete_tail, hfld]
  · rw [complete_tick, Dev.setPort_tick]

theorem exec_rdatPerform {s : State} (hk : ticking s.dev = true) (hp : s.dev.tick.phase ≠ .idle) :
    exec (.rdatPerform p) s = .next { s with dev := performAll p s.snap s.dev } := by
  have h : (if ticking s.dev && decide (s.dev.tick.phase ≠ .idle) then performAll p s.snap s.dev else s.dev) =
      performAll p s.snap s.dev := if_pos (by simp [hk, hp])
  exact congrArg (fun d => Host.Outcome.next { s with dev := d }) h

/-- An RDAT of the edge latches the word committed there. -/
theorem rdatLatch_mem (ht : t ∈ (d.port p).timed) (hw : t.write = false) (he : t.edge = d.tick.count.toNat)
    (ha : t.addr + 4 ≤ 0x400000) : { t with got := some (d.sram.word t.addr) } ∈ ((rdatLatch p d).port p).timed := by
  rw [rdatLatch, Dev.port_setPort]
  refine List.mem_map.mpr ⟨t, ht, ?_⟩
  rw [if_pos (by simp [hw, he]), devRead_sram ha, word_bytes]

end AtEdge

/-- Settles O16: an index by its bound, a command in flight by its opcode, a timed command by the edge it names, and those that
wait by what their edge does. -/
theorem commandRings : Obligations.CommandRings := by
  unfold Obligations.CommandRings
  refine ⟨fun p s hs => ⟨fun v hv => ?_, fun v hv => ?_, fun h hh hne hf hc hg => ?_, fun c hf =>
      ⟨fun ho => ?_, fun ho ha => ?_, fun ho hh hroom ha => ?_, fun ho ht => ?_, fun n hn => ⟨fun he hc hp h0 => ?_, fun he => ?_,
        fun he hc => ?_⟩⟩⟩,
    fun p s t hk ht ha => ⟨fun hw hacc he hp hh => ?_, fun hw he hp => ?_⟩,
    fun p d t ht hw he ha => rdatLatch_mem ht hw he ha⟩
  -- indices and the entry at HEAD
  · rw [exec_doorbell, exec_cplheadWrite]
    exact ⟨registerWrite_index_sets hs (.inl rfl) hv, registerWrite_index_sets hs (.inr rfl) hv⟩
  · rw [exec_doorbell, exec_cplheadWrite]
    exact ⟨registerWrite_index_bad hs (.inl rfl) hv, registerWrite_index_bad hs (.inr rfl) hv⟩
  · refine ⟨_, rfl, ?_⟩
    rw [consume_takes hs.ready hs.awake hh hne hf hc hg, Dev.port_setPort, Dev.port_setPort_other,
      Dev.reg_congr (Dev.setPort_regs _ p _), Dev.reg_setReg, if_pos rfl]
    exact ⟨rfl, rfl, by cases p <;> rfl⟩
  -- the command in flight
  · obtain ⟨hdone, -, htick, -⟩ := complete_landed (p := p) (c := c) rfl 0 0 (loWord s.dev.tick.count).toNat s.dev
    rw [returned_zero] at hdone
    exact ⟨_, exec_cmdNop hf ho, hdone, htick⟩
  · obtain ⟨hdone, -, -, hsram⟩ :=
      complete_landed (p := p) (c := c) rfl 0 (s.dev.sram.word c.addr) (loWord s.dev.tick.count).toNat s.dev
    have h1 : returned c.opc.toNat 0 (s.dev.sram.word c.addr) = s.dev.sram.word c.addr := by rw [ho]; rfl
    rw [h1] at hdone
    exact ⟨_, exec_rd32 hf ho ha, hdone, hsram⟩
  · refine ⟨_, exec_wr32 hs hf ho hh hroom ha, ?_⟩
    obtain ⟨u, hu⟩ := stageHost_frame (.host p) (.sram c.addr 4 c.data.toNat) s.dev
    rw [hu]
    obtain ⟨hdone, -, htick, -⟩ := complete_landed (p := p) (c := c) rfl 0 0 (loWord u.count).toNat { s.dev with tick := u }
    rw [returned_zero] at hdone
    exact ⟨by cases p <;> exact hdone, htick⟩
  · refine ⟨_, exec_wrat hf ho, ?_⟩
    rw [timedNew_target ht]
    exact (timedDone_landed (congrArg BitVec.toNat ho) 9).1
  -- a timed command by its edge
  · have hte := he ▸ targetEdge_add c.count hn
    have hl := not_tooLate (p := p) hte hc hp h0
    exact ⟨fun h1 hr => ⟨wrat_waits hf hte hl h1 hr, rdat_waits hf hte hl h1 hr⟩, timedEnds_far hf hte hl,
      timedEnds_full hf hte hl⟩
  · have hte := he ▸ targetEdge_sub c.count hn
    exact timedEnds_late hf (.inl (by omega))
  · have hte := he ▸ targetEdge_add c.count hn
    exact timedEnds_late hf (.inr (hc.imp (fun h => by omega) (fun ⟨h, hp⟩ => ⟨by omega, hp⟩)))
  -- at the edge
  · refine ⟨_, exec_wratAccept hk hp, ?_⟩
    have hport : (acceptInstant s.dev).port p = s.dev.port p := by cases p <;> rfl
    have htimed : ((acceptInstant s.dev).port p).timed = [t] := hport ▸ ht
    rw [acceptAll_only (d := acceptInstant s.dev) htimed hw hacc he hh ha]
    exact accepted_shows htimed _ _
  · refine ⟨_, exec_rdatPerform hk hp, ?_⟩
    rw [performAll_only ht hw he ha]
    exact timedEnd_read ht hw _ _

end Sys2Proof.Proofs
end

section
/-! PROOFS. The quad-SPI target of a port (R97, R112), and its PCIe port: configuration space, link and messages (R95, R104, R112). -/
namespace Sys2Proof.Proofs
open Sys2Proof Sys2Proof.Machine Sys2Proof.Claims

/-! ## The quad-SPI target (R97) -/

section Spi
variable {p : HostPort} {s : State}

theorem spiServes_of (hs : Serves p s) (hq : (s.dev.port p).pcie = false) : spiServes p s.dev = true := by
  simp [spiServes, hs.ready, hq]

theorem hostWakes_awake (hs : Serves p s) : hostWakes p s.dev = s.dev := if_neg (by simp [hs.awake])

/-- The window takes its page and its select bit. -/
theorem exec_setwin (hs : Serves p s) (hq : (s.dev.port p).pcie = false) (v : Word) :
    exec (.setwin p v) s = .next { s with dev := s.dev.setReg (HST_SPIWIN p.num) (v &&& 0x800001FF) } := by
  have hw : writeOwn p (HST_SPIWIN p.num) v s.dev = s.dev.setReg (HST_SPIWIN p.num) (v &&& 0x800001FF) := by
    have h1 : ¬ (HST_SPIWIN p.num = HST_CMDTAIL p.num ∨ HST_SPIWIN p.num = HST_CPLHEAD p.num) := by cases p <;> decide
    have h2 : HST_SPIWIN p.num ≠ HST_VECACK p.num := by cases p <;> decide
    rw [writeOwn, if_neg h1, if_neg h2, if_pos rfl]
  have h : setWin p v s = { s with dev := s.dev.setReg (HST_SPIWIN p.num) (v &&& 0x800001FF) } := by
    rw [setWin, if_pos (spiServes_of hs hq), hostRow_completes hs rfl, portWrite, hw]
  exact congrArg Host.Outcome.next h

/-- VECACK clears the pending bits written as 1. -/
theorem exec_vecackWrite (hs : Serves p s) (hq : (s.dev.port p).pcie = false) (v : Word) : exec (.vecackWrite p v) s =
    .next { s with dev := s.dev.setReg (HST_VECPEND p.num) (s.dev.reg (HST_VECPEND p.num) &&& ~~~ v) } := by
  have ho : ownerOf (HST_VECACK p.num) = some p := by cases p <;> decide
  have h4 : HST_VECACK p.num % 4 = 0 := by cases p <;> decide
  have h1 : ¬ (HST_VECACK p.num = HST_CMDTAIL p.num ∨ HST_VECACK p.num = HST_CPLHEAD p.num) := by cases p <;> decide
  have hw : writeOwn p (HST_VECACK p.num) v s.dev =
      s.dev.setReg (HST_VECPEND p.num) (s.dev.reg (HST_VECPEND p.num) &&& ~~~ v) := by
    rw [writeOwn, if_neg h1, if_pos rfl, writeVecAck, if_neg (by simp [hq])]
  have he : exec (.vecackWrite p v) s = exec (.registerWrite p (HST_VECACK p.num) .b4 (v.setWidth 64)) s :=
    congrArg Host.Outcome.next (regRow_eq_memRow _ v)
  rw [he, registerWrite_own hs ho h4 hw rfl]

/-! ### Where a transaction goes -/

theorem spiAddr_dram {win : Word} (h : bit win 31 = true) {ofs : Nat} (ho : ofs < 0x1000000) :
    spiAddr win ofs = (true, bits win 8 0 * 0x1000000 + ofs) := by
  rw [spiAddr, Nat.mod_eq_of_lt ho]
  exact if_pos h

/-- Page 0 of the window is tick SRAM from its start. -/
theorem spiAddr_sram {ofs : Nat} (h : ofs + 4 ≤ 0x400000) : spiAddr 0 ofs = (false, ofs) := by
  have hb : bit (0 : Word) 31 = false := by decide
  have hp : bits (0 : Word) 8 0 = 0 := by decide
  simp only [spiAddr, hb, hp, Bool.false_eq_true, if_false, Nat.not_lt_zero, Nat.zero_mul, Nat.zero_add,
    Nat.mod_eq_of_lt (show ofs < 0x1000000 by omega), barAddr_below_cellar (show ofs + 4 ≤ 0x1800000 by omega)]

/-- A WRITE of one word that need not wait for room. -/
theorem exec_qspiWrite_one (hs : Serves p s) (hq : (s.dev.port p).pcie = false) {ofs : BitVec 24} (h4 : ofs.toNat % 4 = 0)
    {v : Word} {e : Dev} (hw : (PortWrite.spi ofs.toNat v).waits p s.dev = false)
    (he : portWrite p verifyGood (hrnDemand s.snap) (.spi ofs.toNat v) s.dev = e) (hr : e.ready = s.dev.ready) :
    exec (.qspiWrite p ofs [v]) s = .next { s with dev := e } := by
  have hone : qspiWrite p ofs.toNat [v] s = spiWord p (hrnDemand s.snap) ofs.toNat 0 v s.dev := by
    rw [qspiWrite, if_neg (by simp [spiServes_of hs hq]), hostWakes_awake hs, if_neg (by simp [h4])]
    rfl
  have hword : spiWord p (hrnDemand s.snap) ofs.toNat 0 v s.dev = e := by
    rw [spiWord, if_pos hs.ready, Nat.mul_zero, Nat.add_zero, hostArrive, if_neg (by simp [hs.free, hw]), he]
  have hx : exec (.qspiWrite p ofs [v]) s = .next (s.putDev (qspiWrite p ofs.toNat [v] s)) := rfl
  rw [hx, hone, hword, State.putDev_keep s e (fun h => hr.trans h)]

theorem qspiWrite_dram (hs : Serves p s) (hq : (s.dev.port p).pcie = false) {ofs : BitVec 24} (h4 : ofs.toNat % 4 = 0)
    (hh : s.dev.reins.holder = some p) (hd : s.dev.flag (HST_SPIWIN p.num) 31 = true) (v : Word) :
    exec (.qspiWrite p ofs [v]) s = .next { s with dev := (setDramBytes
      (s.dev.fld (HST_SPIWIN p.num) 8 0 * 0x1000000 + ofs.toNat) (leBytes v.toNat 4) s.dev) } := by
  have ha := spiAddr_dram hd ofs.isLt
  refine exec_qspiWrite_one hs hq h4 ?_ ?_ (setDramBytes_ready _ _ _)
  · simp only [PortWrite.waits, PortWrite.target, ha]
  · simp only [portWrite, ha, if_true, dramWrite, if_neg (fun hc : s.dev.reins.holder ≠ some p => hc hh), Dev.fld]

theorem qspiWrite_sram (hs : Serves p s) (hq : (s.dev.port p).pcie = false) {ofs : BitVec 24} (h4 : ofs.toNat % 4 = 0)
    (ho : ofs.toNat + 4 ≤ 0x400000) (hh : s.dev.reins.holder = some p) (hroom : stagedBy p s.dev < 256)
    (hw : s.dev.reg (HST_SPIWIN p.num) = 0) (v : Word) : exec (.qspiWrite p ofs [v]) s =
      .next { s with dev := stageHost (.host p) (.sram ofs.toNat 4 v.toNat) s.dev } := by
  have ha := spiAddr_sram ho
  refine exec_qspiWrite_one hs hq h4 ?_ ?_ (stageHost_ready _ _ _)
  · simp only [PortWrite.waits, PortWrite.target, hw, ha, mustHold_of_room hroom]
  · simp only [portWrite, hw, ha, hostWrite_sram hh (show 0 < 4 by decide) ho, Bool.false_eq_true, if_false]

/-- A READ of a word of tick SRAM answers the marker and the word as committed. -/
theorem exec_qspiRead_sram (hs : Serves p s) (hq : (s.dev.port p).pcie = false) {ofs : BitVec 24} (h4 : ofs.toNat % 4 = 0)
    (ho : ofs.toNat + 4 ≤ 0x400000) (hw : s.dev.reg (HST_SPIWIN p.num) = 0) : exec (.qspiRead p ofs 1) s =
      .next { s with dev := (s.dev.setPort p
        { s.dev.port p with marker := some 0xA5, resp := [s.dev.sram.word ofs.toNat] }) } := by
  have hread : spiRead p ofs.toNat s.snap 1 0 s.dev = ([s.dev.sram.word ofs.toNat], s.dev) := by
    simp only [spiRead, Nat.mul_zero, Nat.add_zero, hw, spiAddr_sram ho, Bool.false_eq_true, if_false, devRead_sram ho, word_bytes]
  have h : qspiRead p ofs.toNat 1 s = s.dev.setPort p
      { s.dev.port p with marker := some 0xA5, resp := [s.dev.sram.word ofs.toNat] } := by
    unfold qspiRead
    simp only [hq, hs.ready, hostWakes_awake hs, h4, hread, Bool.not_true, Bool.false_eq_true, if_false, ne_eq,
      not_true_eq_false]
  have hx : exec (.qspiRead p ofs 1) s = .next (s.putDev (qspiRead p ofs.toNat 1 s)) := rfl
  rw [hx, h, State.putDev_keep s _ (fun hr => (Dev.setPort_ready _ p _).trans hr)]

/-- After the time-out a READ answers the marker 0x5A alone, and SPITO stands. -/
theorem exec_qspiReadTimeout (hs : Serves p s) (hq : (s.dev.port p).pcie = false) : exec (.qspiReadTimeout p) s =
    .next { s with dev := setSpiTo p (s.dev.setPort p { s.dev.port p with marker := some 0x5A, resp := [] }) } := by
  have h : qspiTimeout p s.dev = setSpiTo p (s.dev.setPort p { s.dev.port p with marker := some 0x5A, resp := [] }) := by
    simp [qspiTimeout, spiServes_of hs hq, hs.awake]
  exact congrArg (fun d => Host.Outcome.next { s with dev := d }) h

end Spi

/-! ## The PCIe port (R95, R104) -/

section Pcie
variable {p : HostPort} {s : State}

/-- What a configuration request makes of its port. -/
def cfgPort (x : Port) (d : Dev) : CfgRequest → Port
  | .read f => { x with resp := [cfgWord x d f] }
  | .power d3hot => { x with d3hot := d3hot }
  | .msix enable functionMask => { x with msixOn := enable, msixMask := functionMask }
  | .bar i v => if i = 0 then { x with bar0 := v &&& 0xFE000000 } else if i = 3 then { x with bar3 := v &&& 0xFFFFFFFE } else x

theorem exec_pcieConfigRequest (hq : (s.dev.port p).pcie = true) (req : CfgRequest) :
    exec (.pcieConfigRequest p req) s = .next { s with dev := s.dev.setPort p (cfgPort (s.dev.port p) s.dev req) } := by
  have h : cfgRequest p req s.dev = s.dev.setPort p (cfgPort (s.dev.port p) s.dev req) := by
    have hp : ¬ (!(s.dev.port p).pcie) = true := by simp [hq]
    cases req <;> exact if_neg hp
  exact congrArg (fun d => Host.Outcome.next { s with dev := d }) h

/-- The BARs other than BAR0 and BAR3 take no write. -/
theorem exec_pcieConfigRequest_fixedBar (hq : (s.dev.port p).pcie = true) {i : Fin 6} (h0 : i ≠ 0) (h3 : i ≠ 3) (v : Word) :
    exec (.pcieConfigRequest p (.bar i v)) s = .next s := by
  rw [exec_pcieConfigRequest hq, cfgPort, if_neg h0, if_neg h3, setPort_port]

/-- A change of LINK raises its event. -/
theorem linkSet_changes {d : Dev} (hq : (d.port p).pcie = true) {up : Bool} (h : d.flag (HST_STAT p.num) 8 ≠ up) :
    linkSet p up d = raise (39 + 8 * p.num) (Dev.setFlag (HST_STAT p.num) 8 up d) := by
  rw [linkSet, if_neg (by simp [hq, h])]

theorem bit_setBit {i : Nat} (hi : i < 32) (w : Word) (b : Bool) : bit (setBit w i b) i = b := by
  cases b
  · exact bit_setBit_clear hi w
  · exact bit_setBit_same hi w

theorem linkSet_flag {d : Dev} (hq : (d.port p).pcie = true) (up : Bool) : (linkSet p up d).flag (HST_STAT p.num) 8 = up := by
  by_cases h : d.flag (HST_STAT p.num) 8 = up
  · rw [linkSet, if_pos (by simp [h]), h]
  · rw [linkSet_changes hq h, Dev.flag, raise_reg (hstStat_offEvents p), Dev.flag_setFlag, bit_setBit (by decide)]

theorem linkSet_event {d : Dev} (hq : (d.port p).pcie = true) {up : Bool} (h : d.flag (HST_STAT p.num) 8 ≠ up)
    (hs : d.pw.stopped = false) : (linkSet p up d).flag (EVT_STICKY 1) (7 + 8 * p.num) = true := by
  have hres : evReserved (39 + 8 * p.num) = false := by cases p <;> decide
  have hword : (39 + 8 * p.num) / 32 = 1 := by cases p <;> decide
  have hbit : (39 + 8 * p.num) % 32 = 7 + 8 * p.num := by cases p <;> decide
  have hf := raise_flag hres (d := Dev.setFlag (HST_STAT p.num) 8 up d) hs
  rw [hword, hbit] at hf
  rw [linkSet_changes hq h]
  exact hf

theorem linkSet_port (up : Bool) (d : Dev) : (linkSet p up d).port p = d.port p := by
  unfold linkSet
  split
  · rfl
  · exact port_of_eventsOnly (((EventsOnly.refl d).setFlag _ _ _).trans (raise_frame _ _)) p

/-! ## Messages (R112) -/

/-- The port after a message of a vector. -/
def messageSent (v modulation : Nat) (x : Port) : Port :=
  { x with msgs := smSet noMsgs x.msgs v (smGet noMsgs x.msgs v + 1),
           modBusy := x.modBusy || (decide (v = 0) && decide (modulation ≠ 0)) }

/-- A message that can go out clears its pending bit and is counted. -/
theorem msixSend_ready {v : Nat} {d : Dev} (h : msixReady p v d = true) (hv : v < 32) :
    (msixSend p v d).flag (HST_PBA p.num 0) v = false ∧
      smGet noMsgs ((msixSend p v d).port p).msgs v = smGet noMsgs (d.port p).msgs v + 1 := by
  have hp : (Dev.setFlag (HST_PBA p.num 0) v false d).port p = d.port p :=
    port_of_eventsOnly ((EventsOnly.refl d).setFlag _ _ _) p
  have he : msixSend p v d = (Dev.setFlag (HST_PBA p.num 0) v false d).setPort p
      (messageSent v ((Dev.setFlag (HST_PBA p.num 0) v false d).fld (HST_CPLMOD p.num) 7 0) (d.port p)) := by
    rw [← hp]
    exact if_pos h
  rw [he]
  constructor
  · rw [Dev.flag, Dev.reg_congr (Dev.setPort_regs _ p _), Dev.flag_setFlag, bit_setBit_clear hv]
  · rw [Dev.port_setPort, messageSent]
    simp only [smGet_smSet, if_true]

/-- MSI-X is enabled and nothing masks a pending vector of a port whose link is up. -/
structure Sendable (p : HostPort) (v : Nat) (d : Dev) : Prop where
  pcie    : (d.port p).pcie = true
  d0      : (d.port p).d3hot = false
  enabled : (d.port p).msixOn = true
  open_   : (d.port p).msixMask = false
  link    : d.flag (HST_STAT p.num) 8 = true
  pending : d.flag (HST_PBA p.num 0) v = true
  allowed : d.flag (HST_MSIX p.num (4 * v + 3)) 0 = false

theorem Sendable.ready {v : Nat} {d : Dev} (h : Sendable p v d) (hb : v = 0 → (d.port p).modBusy = false) :
    msixReady p v d = true := by
  obtain ⟨hq, hd, hon, hopen, hlink, hpend, hmask⟩ := h
  have hmod : (decide (v = 0) && (d.port p).modBusy) = false := by
    by_cases hv : v = 0
    · simp [hb hv]
    · simp [hv]
  simp [msixReady, hq, hd, hon, hopen, hlink, hpend, hmask, hmod]

/-- Its moderation interval has ended. -/
def unmoderated (p : HostPort) (d : Dev) : Dev := d.setPort p { d.port p with modBusy := false }

theorem flag_setPort (d : Dev) (p : HostPort) (x : Port) (a i : Nat) : (d.setPort p x).flag a i = d.flag a i := by
  rw [Dev.flag, Dev.reg_congr (Dev.setPort_regs d p x), Dev.flag]

theorem Sendable.unmoderated {v : Nat} {d : Dev} (h : Sendable p v d) : Sendable p v (unmoderated p d) := by
  obtain ⟨hq, hd, hon, hopen, hlink, hpend, hmask⟩ := h
  constructor <;> simpa only [Proofs.unmoderated, flag_setPort, Dev.port_setPort]

end Pcie

/-- Settles O17: a transaction by where its window leads, a configuration request by what it names (the places of its bits are
the model's choice, assumption 93), the link by LINK, and a message by whether it can go out. -/
theorem hostLinks : Obligations.HostLinks := by
  unfold Obligations.HostLinks
  refine ⟨fun p s hs hq => ⟨fun v => ⟨_, exec_setwin hs hq v, setReg_setsReg _ _ _⟩,
      fun v => ⟨_, exec_vecackWrite hs hq v, setReg_setsReg _ _ _⟩,
      fun ofs v h4 hh hd => qspiWrite_dram hs hq h4 hh hd v,
      fun ofs v h4 ho hh hroom hw => qspiWrite_sram hs hq h4 ho hh hroom hw v,
      fun ofs h4 ho hw => ⟨_, exec_qspiRead_sram hs hq h4 ho hw, ?_⟩, ⟨_, exec_qspiReadTimeout hs hq, ?_⟩⟩,
    fun p s hq => ⟨fun d3 => exec_pcieConfigRequest hq _, fun en mask => exec_pcieConfigRequest hq _,
      fun v => ⟨exec_pcieConfigRequest hq _, exec_pcieConfigRequest hq _⟩,
      fun i v h0 h3 => exec_pcieConfigRequest_fixedBar hq h0 h3 v, fun f => ?_,
      fun up h => ⟨_, rfl, linkSet_flag hq up, linkSet_event hq h⟩, ⟨_, rfl, ?_, ?_⟩,
      fun v hd hon hopen hlink hpend hmask => ⟨fun hb => ⟨_, rfl, ?_⟩, fun hv => ⟨_, rfl, ?_⟩⟩⟩⟩
  -- the quad-SPI target
  · rw [Dev.port_setPort]
    exact ⟨rfl, rfl, Dev.setPort_regs _ p _⟩
  · rw [setSpiTo, port_of_eventsOnly (statBit_frame p 7 6 _), Dev.port_setPort]
    exact ⟨rfl, rfl, statBit_flag p (by decide) 6 _⟩
  -- the PCIe port
  · rw [exec_pcieConfigRequest hq, cfgPort, Answers]
    cases f <;> rfl
  · rw [Dev.port_setPort, linkSet_port]
  · rw [flag_setPort, linkSet_flag hq]
  -- messages
  · exact msixSend_ready (Sendable.ready ⟨hq, hd, hon, hopen, hlink, hpend, hmask⟩ (fun h => hb h)) v.isLt
  · have hsend : Sendable p 0 s.dev := ⟨hq, hd, hon, hopen, hlink, hv ▸ hpend, hv ▸ hmask⟩
    have h := msixSend_ready (hsend.unmoderated.ready fun _ => by rw [unmoderated, Dev.port_setPort]) (by decide)
    rwa [unmoderated, Dev.port_setPort] at h

end Sys2Proof.Proofs
end

section
/-! PROOFS. Mode requests (R114 to R117): what leaving Run stops (R120, R166, R223), what a change of mode and a refusal leave, and
what each request comes to at an edge at which no Hold cause arises. -/
namespace Sys2Proof.Proofs
open Sys2Proof Sys2Proof.Machine Sys2Proof.Claims

/-! ## Leaving Run (R120, R166, R223) -/

section Steps
variable {σ ι α : Type} {f : σ → ι → σ} {π : σ → α}

/-- What no step of a list changes stands. -/
theorem foldl_keeps (h : ∀ s i, π (f s i) = π s) (l : List ι) (s : σ) : π (l.foldl f s) = π s :=
  List.foldlRecOn (motive := fun e => π e = π s) l f rfl (fun e he i _ => (h e i).trans he)

/-- What one step of a list alone changes is changed by it once. -/
theorem foldl_at {g : α → α} {k : ι} (hother : ∀ i, i ≠ k → ∀ s, π (f s i) = π s) (hat : ∀ s, π (f s k) = g (π s))
    {l : List ι} (hl : l.Nodup) (hk : k ∈ l) (s : σ) : π (l.foldl f s) = g (π s) := by
  induction l generalizing s with
  | nil => cases hk
  | cons i t ih =>
    obtain ⟨hit, ht⟩ := List.nodup_cons.mp hl
    rw [List.foldl_cons]
    obtain rfl | hkt := List.mem_cons.mp hk
    · have hrest : π (t.foldl f (f s k)) = π (f s k) :=
        List.foldlRecOn (motive := fun e => π e = π (f s k)) t f rfl
          (fun e he i hi => (hother i (fun hc => hit (hc ▸ hi)) e).trans he)
      rw [hrest, hat]
    · rw [ih ht hkt, hother i (fun hc => hit (hc ▸ hkt))]

end Steps

/-- An axis whose planner stops, its state standing. -/
def axisStopped (x : Axis) : Axis :=
  { x with fin := x.cur, plan := none, on := false, fresh := false, halting := false, locked := false, ramp := false, hard := false,
           settle := none }

/-- A lane whose outputs go inactive. -/
def laneStopped (x : Lane) : Lane := { x with drive := false, next := none, wait := none }

/-- Axis n and its lane leave Run. -/
def axisLeaves (d : Dev) (n : Fin 16) : Dev := (d.setAxis n (axisStopped (d.axis n))).setLane n (laneStopped (d.lane n))

/-- All axes and their lanes leave Run. -/
def axesLeft (d : Dev) : Dev := (List.finRange 16).foldl axisLeaves d

/-- Then the running segments are dropped. -/
theorem axesLeaveRun_eq (d : Dev) : axesLeaveRun d =
    (List.finRange 4).foldl (fun (d : Dev) (g : Fin 4) => d.setGroup g { d.group g with running := none }) (axesLeft d) := rfl

theorem axisLeaves_axis (d : Dev) (n : Fin 16) : (axisLeaves d n).axis n = axisStopped (d.axis n) := Dev.axis_setAxis d n _

theorem axisLeaves_axis_other (d : Dev) {n i : Fin 16} (h : i ≠ n) : (axisLeaves d i).axis n = d.axis n :=
  Dev.axis_setAxis_other d n i _ h.symm

theorem axisLeaves_lane (d : Dev) (n : Fin 16) : (axisLeaves d n).lane n = laneStopped (d.lane n) := Dev.lane_setLane _ n _

theorem axisLeaves_lane_other (d : Dev) {n i : Fin 16} (h : i ≠ n) : (axisLeaves d i).lane n = d.lane n :=
  Dev.lane_setLane_other _ n i _ h.symm

/-- What the groups' segments do not touch is as the axes left it. -/
theorem axesLeaveRun_keeps {α : Type} {π : Dev → α} (hg : ∀ d g x, π (Dev.setGroup d g x) = π d) (d : Dev) :
    π (axesLeaveRun d) = π (axesLeft d) := by
  rw [axesLeaveRun_eq]
  exact foldl_keeps (fun d g => hg d g _) _ _

theorem axesLeaveRun_axis (d : Dev) (n : Fin 16) : (axesLeaveRun d).axis n = axisStopped (d.axis n) :=
  (axesLeaveRun_keeps (π := fun d => d.axis n) (fun _ _ _ => rfl) d).trans
    (foldl_at (π := fun d : Dev => d.axis n) (fun _ hi d => axisLeaves_axis_other d hi) (fun d => axisLeaves_axis d n)
      (List.nodup_finRange 16) (List.mem_finRange n) d)

theorem axesLeaveRun_lane (d : Dev) (n : Fin 16) : (axesLeaveRun d).lane n = laneStopped (d.lane n) :=
  (axesLeaveRun_keeps (π := fun d => d.lane n) (fun _ _ _ => rfl) d).trans
    (foldl_at (π := fun d : Dev => d.lane n) (fun _ hi d => axisLeaves_lane_other d hi) (fun d => axisLeaves_lane d n)
      (List.nodup_finRange 16) (List.mem_finRange n) d)

/-- What no axis and no lane holds stands. -/
theorem axesLeft_keeps {α : Type} {π : Dev → α} (hx : ∀ d n x, π (Dev.setAxis d n x) = π d)
    (hl : ∀ d n x, π (Dev.setLane d n x) = π d) (d : Dev) : π (axesLeft d) = π d := by
  unfold axesLeft
  exact foldl_keeps (fun d n => (hl _ n _).trans (hx d n _)) _ d

theorem axesLeaveRun_mode (d : Dev) : (axesLeaveRun d).mode = d.mode :=
  (axesLeaveRun_keeps (π := Dev.mode) (fun _ _ _ => rfl) d).trans
    (axesLeft_keeps (π := Dev.mode) (fun _ _ _ => rfl) (fun _ _ _ => rfl) d)

theorem axesLeaveRun_regs (d : Dev) : (axesLeaveRun d).regs = d.regs :=
  (axesLeaveRun_keeps (π := Dev.regs) (fun _ _ _ => rfl) d).trans
    (axesLeft_keeps (π := Dev.regs) (fun _ _ _ => rfl) (fun _ _ _ => rfl) d)

/-- The print ports alone end their strobes. -/
theorem printLeaveRun_frame (d : Dev) : ∃ x, printLeaveRun d = { d with prt := x } := ⟨_, rfl⟩

/-! ## A change of mode (R114) -/

/-- The device in its new mode; in Trim it keeps the mode from which it came. -/
def enterMode (m : Mode) (d : Dev) : Dev := { d with mode := m, origin := if m = .trim then d.mode else .startUp }

section Change
variable {d : Dev}

/-- From Run the planner, the lanes and the print ports stop. -/
theorem setMode_hold_of_run (h : d.mode = .run) : setMode .hold d = printLeaveRun (axesLeaveRun (enterMode .hold d)) := by
  simp [setMode, enterMode, h]

/-- Commission, entered from Hold, clears SETV (R282). -/
theorem setMode_commission_of_hold (h : d.mode = .hold) :
    setMode .commission d = Dev.setFlag TDL_STAT 2 false (enterMode .commission d) := by
  simp [setMode, enterMode, h]

/-- From Commission the session of a monitor ends; from Hold nothing else moves. -/
theorem setMode_frame {m : Mode} (h : d.mode = .commission ∨ d.mode = .hold) (hm : m = .run ∨ m = .trim) :
    ∃ r mo t, setMode m d = { enterMode m d with regs := r, mon := mo, tick := t } := by
  obtain h | h := h
  · have he : setMode m d = monSessionEnd (enterMode m d) := by
      obtain rfl | rfl := hm <;> simp [setMode, enterMode, h]
    obtain ⟨r, mo, t, hs, -⟩ := monSessionEnd_frame (enterMode m d)
    exact ⟨r, mo, t, he.trans hs⟩
  · have he : setMode m d = enterMode m d := by
      obtain rfl | rfl := hm <;> simp [setMode, enterMode, h]
    exact ⟨d.regs, d.mon, d.tick, he⟩

/-- Hold, entered from Run: the cause stands in the registers, each axis keeps its state and no lane drives. -/
theorem setMode_hold_leaves (h : d.mode = .run) : (setMode .hold d).mode = .hold ∧ (setMode .hold d).regs = d.regs ∧
    ∀ n : Fin 16, (setMode .hold d).axis n = axisStopped (d.axis n) ∧ (setMode .hold d).lane n = laneStopped (d.lane n) := by
  have hmode := axesLeaveRun_mode (enterMode .hold d)
  have hregs := axesLeaveRun_regs (enterMode .hold d)
  have haxis := axesLeaveRun_axis (enterMode .hold d)
  have hlane := axesLeaveRun_lane (enterMode .hold d)
  obtain ⟨x, hprt⟩ := printLeaveRun_frame (axesLeaveRun (enterMode .hold d))
  rw [setMode_hold_of_run h, hprt]
  generalize axesLeaveRun (enterMode .hold d) = e at hmode hregs haxis hlane
  exact ⟨hmode, hregs, fun n => ⟨haxis n, hlane n⟩⟩

end Change

/-! ## Refusals (R115) -/

theorem mode_of_eventsOnly {d e : Dev} (h : EventsOnly d e) : e.mode = d.mode := by
  obtain ⟨r, v, m, rfl⟩ := h
  rfl

theorem modeRefuse_frame (c : Nat) (d : Dev) : EventsOnly d (modeRefuse c d) := ((EventsOnly.refl d).setFlag _ _ _).setReg _ _

theorem modeRefuse_shows {c : Nat} (hc : c < 16) (d : Dev) :
    (modeRefuse c d).flag SYS_MSTAT 8 = true ∧ (modeRefuse c d).fld SYS_MSTAT 3 0 = c := by
  have hreg : (modeRefuse c d).reg SYS_MSTAT = setBits (setBit (d.reg SYS_MSTAT) 8 true) 3 0 c := by
    rw [modeRefuse, Dev.reg_setFld, Dev.flag_setFlag]
  constructor
  · rw [Dev.flag, hreg, bit, getLsbD_setBits, if_neg (by decide)]
    exact bit_setBit_same (by decide) _
  · rw [Dev.fld, hreg, bits_setBits_same (by decide)]
    exact Nat.mod_eq_of_lt hc

/-! ## Run (R117) -/

/-- The conditions of R117 that the device's registers and units show, but for RUNOK. -/
structure RunReady (d : Dev) : Prop where
  image   : d.loader.image.isSome = true
  period  : (d.reg LIM_MINPER).toNat ≤ d.period
  harness : d.flag SYS_HOLDCAUSE 2 = false
  link    : d.flag SYS_HOLDCAUSE 3 = false
  fault   : d.flag SYS_HOLDCAUSE 4 = false
  up      : d.hrnLink = true

theorem runCode_ready {d : Dev} (h : RunReady d) (hok : runOk d = true) : runCode false d = 0 := by
  obtain ⟨himage, hperiod, hharness, hlink, hfault, hup⟩ := h
  have hsome : d.loader.image.isNone = false := by rw [← Option.not_isSome, himage]; rfl
  simp [runCode, hsome, Nat.not_lt.mpr hperiod, hok, hharness, hlink, hfault, hup]

theorem runCode_noImage {d : Dev} (h : d.loader.image = none) : runCode false d = 2 := by simp [runCode, h]

section Requests
variable {d : Dev} {m : Mode} (hm : m = .commission ∨ m = .hold)
include hm

theorem modeRequest_run (h : runCode false d = 0) : modeRequest m false 0 2 d = setMode .run d := by
  obtain rfl | rfl := hm <;> simp [modeRequest, h]

theorem modeRequest_run_noImage (h : d.loader.image = none) : modeRequest m false 0 2 d = modeRefuse 2 d := by
  obtain rfl | rfl := hm <;> simp [modeRequest, runCode_noImage h]

theorem modeRequest_trim : modeRequest m false 0 4 d = setMode .trim d := by
  obtain rfl | rfl := hm <;> rfl

end Requests

/-! ## The edge at which no Hold cause arises (R116) -/

/-- The device whose mode the edge judges: what asked for Hold has been seen. -/
def judged (d : Dev) : Dev := { d.setOut linkLostMark 0 with holdReq := false }

theorem judged_mode (d : Dev) : (judged d).mode = d.mode := rfl

theorem judged_runOk (d : Dev) : runOk (judged d) = runOk d := by
  have h : (judged d).out 0x80 = d.out 0x80 := (Dev.out_setOut d linkLostMark 0x80 0).trans (if_neg (by decide))
  rw [runOk, h, runOk]

section Calm
variable {s : State} (h : Calm s)
include h

/-- The edge leaves the mode to the request. -/
theorem modeEdge_calm (req : Nat) : modeEdge (hrnDemand s.snap) req s.dev = modeRequest s.dev.mode false 0 req (judged s.dev) := by
  obtain ⟨-, hfault, hlink, hdemand, hok⟩ := h
  simp [modeEdge, hfault, hlink, hdemand, hok, judged]

theorem exec_modeRequest_calm {req : BitVec 3} {e : Dev} (he : modeRequest s.dev.mode false 0 req.toNat (judged s.dev) = e) :
    exec (.modeRequest req) s = .next { s with dev := e } := by
  have hedge : exec (.modeRequest req) s = atEdge (modeEdge (hrnDemand s.snap) req.toNat) s := rfl
  rw [hedge, atEdge, if_pos h.ticks, modeEdge_calm h, he]

theorem awake_calm : s.dev.pw.stopped = false := by
  have ht := h.ticks
  simp only [ticking, Bool.and_eq_true, Bool.not_eq_true'] at ht
  exact ht.1.2

/-! ## What the requests come to -/

theorem run_entered (hm : s.dev.mode = .commission ∨ s.dev.mode = .hold) (hr : RunReady s.dev) :
    ∃ d, exec (.modeRequest 2) s = .next { s with dev := d } ∧ d.mode = .run ∧ d.cores = s.dev.cores ∧ d.sram = s.dev.sram ∧
      d.axes = s.dev.axes := by
  have hcode : runCode false (judged s.dev) = 0 := runCode_ready
    { image := hr.image, period := hr.period, harness := hr.harness, link := hr.link, fault := hr.fault, up := hr.up }
    ((judged_runOk s.dev).trans h.runOk)
  obtain ⟨r, mo, t, he⟩ := setMode_frame (d := judged s.dev) hm (.inl rfl)
  exact ⟨_, exec_modeRequest_calm h ((modeRequest_run hm hcode).trans he), rfl, rfl, rfl, rfl⟩

theorem run_refused (hm : s.dev.mode = .commission ∨ s.dev.mode = .hold) (hi : s.dev.loader.image = none) :
    ∃ d, exec (.modeRequest 2) s = .next { s with dev := d } ∧ d.mode = s.dev.mode ∧ d.flag SYS_MSTAT 8 = true ∧
      d.fld SYS_MSTAT 3 0 = 2 :=
  ⟨_, exec_modeRequest_calm h (modeRequest_run_noImage (d := judged s.dev) hm hi),
    (mode_of_eventsOnly (modeRefuse_frame 2 _)).trans (judged_mode s.dev), modeRefuse_shows (by decide) _⟩

theorem trim_entered (hm : s.dev.mode = .commission ∨ s.dev.mode = .hold) :
    ∃ d, exec (.modeRequest 4) s = .next { s with dev := d } ∧ d.mode = .trim ∧ d.origin = s.dev.mode := by
  obtain ⟨r, mo, t, he⟩ := setMode_frame (d := judged s.dev) hm (.inr rfl)
  exact ⟨_, exec_modeRequest_calm h ((modeRequest_trim hm).trans he), rfl, rfl⟩

theorem commission_entered (hm : s.dev.mode = .hold) :
    ∃ d, exec (.modeRequest 1) s = .next { s with dev := d } ∧ d.mode = .commission ∧ d.flag TDL_STAT 2 = false ∧
      (∀ a, a ≠ TDL_STAT → d.reg a = s.dev.reg a) ∧ d.cores = s.dev.cores := by
  have he : modeRequest s.dev.mode false 0 1 (judged s.dev) = Dev.setFlag TDL_STAT 2 false (enterMode .commission (judged s.dev)) := by
    rw [hm]
    exact setMode_commission_of_hold (d := judged s.dev) hm
  refine ⟨_, exec_modeRequest_calm h he, rfl, ?_, fun a ha => Dev.reg_setFlag_other _ _ _ _ _ ha, rfl⟩
  rw [Dev.flag, Dev.flag_setFlag, bit_setBit_clear (by decide)]

theorem hold_entered (hm : s.dev.mode = .run) :
    ∃ d, exec (.modeRequest 3) s = .next { s with dev := d } ∧ d.mode = .hold ∧ d.flag SYS_HOLDCAUSE 0 = true ∧
      ∀ n : Fin 16, (d.axis n).on = false ∧ (d.axis n).cur = (s.dev.axis n).cur ∧ (d.lane n).drive = false := by
  have he : modeRequest s.dev.mode false 0 3 (judged s.dev) = setMode .hold (Dev.setFlag SYS_HOLDCAUSE 0 true (judged s.dev)) := by
    rw [hm]
    rfl
  obtain ⟨hmode, hregs, hstop⟩ := setMode_hold_leaves (d := Dev.setFlag SYS_HOLDCAUSE 0 true (judged s.dev)) hm
  refine ⟨_, exec_modeRequest_calm h he, hmode, ?_, fun n => ?_⟩
  · rw [Dev.flag, Dev.reg_congr hregs, Dev.flag_setFlag, bit_setBit_same (by decide)]
  · obtain ⟨haxis, hlane⟩ := hstop n
    rw [haxis, hlane]
    exact ⟨rfl, rfl, rfl⟩

theorem trim_refused (hm : s.dev.mode = .run) :
    ∃ d, exec (.modeRequest 4) s = .next { s with dev := d } ∧ d.mode = .run ∧ d.flag SYS_MSTAT 8 = true ∧
      d.fld SYS_MSTAT 3 0 = 8 ∧ d.flag (EVT_STICKY 7) 10 = true := by
  have he : modeRequest s.dev.mode false 0 4 (judged s.dev) =
      raise 234 (modeRefuse 8 (Dev.setFlag SYS_MSTAT 9 true (judged s.dev))) := by
    rw [hm]
    rfl
  have hoff : OffEvents SYS_MSTAT := offEvents_of_block (by decide) (by decide)
  obtain ⟨hflag, hcode⟩ := modeRefuse_shows (c := 8) (by decide) (Dev.setFlag SYS_MSTAT 9 true (judged s.dev))
  refine ⟨_, exec_modeRequest_calm h he, ?_, ?_, ?_, raise_flag (e := 234) (by decide) (awake_calm h)⟩
  · rw [mode_of_eventsOnly ((modeRefuse_frame 8 _).trans (raise_frame 234 _))]
    exact hm
  · rwa [Dev.flag, raise_reg hoff]
  · rwa [Dev.fld, raise_reg hoff]

end Calm

/-- Settles O29: at an edge at which no Hold cause arises the request alone is judged, by the mode before the edge
(assumption 76). -/
theorem modeRequests : Obligations.ModeRequests := by
  unfold Obligations.ModeRequests
  refine fun s h => ⟨fun hm => ⟨fun himage hperiod hharness hlink hfault hup => ?_, run_refused h hm, trim_entered h hm⟩,
    commission_entered h, fun hm => ⟨hold_entered h hm, trim_refused h hm⟩⟩
  exact run_entered h hm
    { image := himage, period := hperiod, harness := hharness, link := hlink, fault := hfault, up := hup }

end Sys2Proof.Proofs
end

section
/-! PROOFS. The machine right after reset (R124). -/
namespace Sys2Proof.Proofs
open Sys2Proof Sys2Proof.Machine

/-- Every register but SYS_RSTCAUSE reads as the reset column of its table has it. -/
theorem reset_reg {a : Nat} (h : a ≠ SYS_RSTCAUSE) : State.reset.dev.reg a = regReset a := by
  have hs : State.reset.dev.reg a = if SYS_RSTCAUSE = a then 1 else regReset a := rfl
  rw [hs, if_neg h.symm]

theorem reset_core (k : Fin 6) : State.reset.dev.core k = Core.reset := Vector.getElem_replicate k.isLt

theorem coreReset_gr (i : Nat) : Core.reset.gr i = 0 := by
  unfold Core.gr
  split
  · rfl
  · exact Vector.getElem_replicate (Fin.ofNat 32 i).isLt

/-- Settles O57: the units' fields by the reset state, the registers by the reset columns, each core by its own reset; that
SYS_RSTCAUSE names power as the source is the model's choice (assumption 5). -/
theorem resetState : Obligations.ResetState := by
  unfold Obligations.ResetState
  refine ⟨rfl, rfl, rfl, rfl, ?_, ?_, (reset_reg (by decide)).trans (by decide), (reset_reg (by decide)).trans (by decide),
    (reset_reg (by decide)).trans (by decide), rfl, rfl, rfl, rfl, rfl, fun b => ?_, fun k i => ?_⟩
  · rw [Dev.fld, reset_reg (by decide)]
    decide
  · rw [Dev.flag, reset_reg (by decide)]
    decide
  · have hb : IDN_CFG b ≠ SYS_RSTCAUSE := by
      unfold IDN_CFG SYS_RSTCAUSE
      omega
    rw [reset_reg hb]
    decide +revert
  · rw [reset_core, coreReset_gr]

end Sys2Proof.Proofs
end

section
/-! PROOFS. The state of a feedback channel (07_feedback.md): what stands beside it when events are raised, lanes trip, the feed steps
and latches finish, and what a step of one channel leaves of the others. -/
namespace Sys2Proof.Proofs
open Sys2Proof Sys2Proof.Machine Sys2Proof.Claims

/-! ## Flags of a register -/

theorem bit_setBit_other {i j : Nat} (h : i ≠ j) (w : Word) (b : Bool) : bit (setBit w j b) i = bit w i := by
  by_cases hi : i < 32
  · have hbit : (word (2 ^ j)).getLsbD i = false := by
      rw [BitVec.getLsbD_ofNat, Nat.testBit_two_pow_of_ne h.symm, Bool.and_false]
    cases b
    · rw [bit, setBit, if_neg (by decide), BitVec.getLsbD_and, BitVec.getLsbD_not, hbit, bit]
      simp [hi]
    · rw [bit, setBit, if_pos rfl, BitVec.getLsbD_or, hbit, Bool.or_false, bit]
  · simp only [bit]
    rw [BitVec.getLsbD_of_ge _ i (by omega), BitVec.getLsbD_of_ge _ i (by omega)]

theorem flag_setFlag_same {i : Nat} (hi : i < 32) (d : Dev) (a : Nat) (b : Bool) : (Dev.setFlag a i b d).flag a i = b := by
  rw [Dev.flag, Dev.flag_setFlag, bit_setBit hi]

theorem flag_setFlag_other {i j : Nat} (h : i ≠ j) (d : Dev) (a : Nat) (b : Bool) :
    (Dev.setFlag a j b d).flag a i = d.flag a i := by
  rw [Dev.flag, Dev.flag_setFlag, bit_setBit_other h, ← Dev.flag]

/-! ## What no channel holds -/

section Beside

/-- From device d an operation goes to device e beside the feedback channels: it moves the instant, registers of other blocks, the
events, the fault unit, axes, lanes, print ports, position latches and the count of free values, and nothing else. -/
structure BesideFb (d e : Dev) : Prop where
  only : ∃ t r v m f x l p q n, e = { d with now := t, regs := r, ev := v, mon := m, fu := f, axes := x, lanes := l, prt := p,
                                             latches := q, freeCtr := n }
  regs : ∀ a, a / 0x10000 = 0x106 → e.reg a = d.reg a

variable {d e f : Dev} {c k : Fin 16} {a : Nat}

theorem BesideFb.refl (d : Dev) : BesideFb d d := ⟨⟨_, _, _, _, _, _, _, _, _, _, rfl⟩, fun _ _ => rfl⟩

theorem BesideFb.trans (h : BesideFb d e) (h' : BesideFb e f) : BesideFb d f := by
  obtain ⟨⟨_, _, _, _, _, _, _, _, _, _, rfl⟩, hr⟩ := h
  obtain ⟨⟨_, _, _, _, _, _, _, _, _, _, rfl⟩, hr'⟩ := h'
  exact ⟨⟨_, _, _, _, _, _, _, _, _, _, rfl⟩, fun a ha => (hr' a ha).trans (hr a ha)⟩

theorem BesideFb.ch (h : BesideFb d e) : e.ch k = d.ch k := by
  obtain ⟨⟨_, _, _, _, _, _, _, _, _, _, rfl⟩, _⟩ := h
  rfl

theorem BesideFb.fld (h : BesideFb d e) (ha : a / 0x10000 = 0x106) (hi lo : Nat) : e.fld a hi lo = d.fld a hi lo := by
  rw [Dev.fld, h.regs a ha, ← Dev.fld]

theorem BesideFb.flag (h : BesideFb d e) (ha : a / 0x10000 = 0x106) (i : Nat) : e.flag a i = d.flag a i := by
  rw [Dev.flag, h.regs a ha, ← Dev.flag]

theorem BesideFb.elsewhere (h : BesideFb d e) : Elsewhere d e := by
  obtain ⟨⟨_, _, _, _, _, _, _, _, _, _, rfl⟩, _⟩ := h
  exact ⟨rfl, rfl, rfl, rfl, ⟨rfl, rfl⟩, rfl, rfl, rfl, rfl⟩

theorem BesideFb.forAll {g : Nat → Dev → Dev} (hg : ∀ i e, BesideFb e (g i e)) (n : Nat) (d : Dev) :
    BesideFb d (forAll n g d) := by
  induction n with
  | zero => exact .refl d
  | succ n ih =>
    rw [forAll_succ]
    exact ih.trans (hg n _)

/-! ## Operations beside the channels -/

theorem besideFb_reach (d : Dev) (t : Nat) : BesideFb d (d.reach t) := ⟨⟨_, _, _, _, _, _, _, _, _, _, rfl⟩, fun _ _ => rfl⟩
theorem besideFb_tickFree (d : Dev) : BesideFb d d.tickFree := ⟨⟨_, _, _, _, _, _, _, _, _, _, rfl⟩, fun _ _ => rfl⟩
theorem besideFb_setLane (d : Dev) (n : Fin 16) (x : Lane) : BesideFb d (d.setLane n x) :=
  ⟨⟨_, _, _, _, _, _, _, _, _, _, rfl⟩, fun _ _ => rfl⟩
theorem besideFb_setAxis (d : Dev) (n : Fin 16) (x : Axis) : BesideFb d (d.setAxis n x) :=
  ⟨⟨_, _, _, _, _, _, _, _, _, _, rfl⟩, fun _ _ => rfl⟩
theorem besideFb_setLatch (d : Dev) (j : Fin 8) (x : Latch) : BesideFb d (d.setLatch j x) :=
  ⟨⟨_, _, _, _, _, _, _, _, _, _, rfl⟩, fun _ _ => rfl⟩
theorem besideFb_setPrt (d : Dev) (p : Fin 2) (x : Prt) : BesideFb d (d.setPrt p x) :=
  ⟨⟨_, _, _, _, _, _, _, _, _, _, rfl⟩, fun _ _ => rfl⟩

theorem besideFb_setReg (ha : a / 0x10000 ≠ 0x106) (d : Dev) (v : Word) : BesideFb d (d.setReg a v) :=
  ⟨⟨_, _, _, _, _, _, _, _, _, _, rfl⟩, fun b hb => by rw [Dev.reg_setReg, if_neg (by rintro rfl; exact ha hb)]⟩

theorem besideFb_setFlag (ha : a / 0x10000 ≠ 0x106) (d : Dev) (i : Nat) (b : Bool) : BesideFb d (Dev.setFlag a i b d) :=
  besideFb_setReg ha d _

theorem offEvents_fb (ha : a / 0x10000 = 0x106) : OffEvents a := offEvents_of_block (by omega) (by omega)

theorem besideFb_raise (ev : Nat) (d : Dev) : BesideFb d (raise ev d) := by
  obtain ⟨r, v, m, he⟩ := raise_frame ev d
  refine ⟨?_, fun a ha => raise_reg (offEvents_fb ha) ev d⟩
  rw [he]
  exact ⟨_, _, _, _, _, _, _, _, _, _, rfl⟩

/-- A Degrade fault touches what a Slip fault does. -/
theorem fault_degrade_only (ev : Nat) (detail : Word) (d : Dev) : FaultOnly d (fault ev .degrade detail d) := by
  have hbegun : FaultOnly d (faultBegun ev false (decide (ev = 3)) d) := ((FaultOnly.refl d).events (raise_frame ev d)).unit _
  have hstacked : FaultOnly d (faultStacked ev .degrade detail false false (decide (ev = 3)) d) := by
    obtain ⟨f, hf⟩ := enterStack_frame (recordOf ev .degrade detail false d) false (faultBegun ev false (decide (ev = 3)) d)
    exact (hbegun.unit f).events hf
  have hclass : FaultOnly d (applyClass .degrade (faultStacked ev .degrade detail false false (decide (ev = 3)) d)) :=
    (hstacked.events ((EventsOnly.refl _).setFlag FLT_STAT 2 true)).pulseDue
  rw [show fault ev .degrade detail d = _ from faultAt_eq ev .degrade detail false false (decide (ev = 3)) d (by decide)]
  rcases watchFaultN_cases (fun d => applyClass .degrade (faultStacked ev .degrade detail false false (decide (ev = 3)) d)) d
    with hc | hc
  · rw [hc]
    exact hclass
  · rw [hc]
    exact hclass.events (vecBoth_frame 2 _)

/-- It abandons no tick. -/
theorem fault_degrade_tick (ev : Nat) (detail : Word) (d : Dev) : (fault ev .degrade detail d).tick = d.tick :=
  congrArg FaultView.tick (faultAt_faultView ev .degrade detail false false (decide (ev = 3)) d (by decide))

theorem besideFb_degrade (ev : Nat) (detail : Word) (d : Dev) : BesideFb d (fault ev .degrade detail d) := by
  refine ⟨?_, fun a ha => faultAt_reg (offEvents_fb ha) (by omega) (by decide) (by decide) ev detail _ _ _ d⟩
  obtain ⟨r, v, m, f, t, n, he⟩ := fault_degrade_only ev detail d
  have ht := fault_degrade_tick ev detail d
  rw [he] at ht ⊢
  obtain rfl : t = d.tick := ht
  exact ⟨_, _, _, _, _, _, _, _, _, _, rfl⟩

/-- A lane that trips is beside the channels (R210). -/
theorem besideFb_laneTrip (n : Fin 16) (cause : Nat) (d : Dev) : BesideFb d (laneTrip n cause d) := by
  have hb : CTL_STAT n.val / 0x10000 ≠ 0x106 := by unfold CTL_STAT; omega
  have hflags := (besideFb_setFlag hb d cause true).trans (besideFb_setFlag hb _ 9 true)
  unfold laneTrip
  dsimp only
  split
  · exact hflags
  · exact (hflags.trans (besideFb_setLane _ n _)).trans (besideFb_degrade _ _ _)

theorem besideFb_fbLoss (c : Nat) (d : Dev) : BesideFb d (fbLoss c d) := by
  unfold fbLoss
  refine .forAll (fun i e => ?_) 16 d
  split
  · exact besideFb_laneTrip _ _ e
  · exact .refl e

theorem besideFb_laneShift (c : Nat) (x : Word) (d : Dev) : BesideFb d (laneShift c x d) := by
  unfold laneShift
  refine .forAll (fun i e => ?_) 16 d
  split
  · exact besideFb_setLane e _ _
  · exact .refl e

theorem laneShift_regs (c : Nat) (x : Word) (d : Dev) : (laneShift c x d).regs = d.regs := by
  unfold laneShift
  refine forAll_keeps (π := Dev.regs) (fun i e => ?_) 16 d
  split <;> rfl

theorem besideFb_prtStatus (p : Fin 2) (d : Dev) : BesideFb d (prtStatus p d) := by
  have hb : PRT_STAT p.val / 0x10000 ≠ 0x106 := by unfold PRT_STAT; omega
  unfold prtStatus
  exact ((((besideFb_setFlag hb d 6 _).trans (besideFb_setFlag hb _ 5 _)).trans (besideFb_setFlag hb _ 4 _)).trans
    (besideFb_setFlag hb _ 3 _)).trans (besideFb_setFlag hb _ 2 _)

theorem besideFb_queuePass (p : Fin 2) (d : Dev) : BesideFb d (queuePass p d) := by
  have hb : PRT_SKIPCNT p.val / 0x10000 ≠ 0x106 := by unfold PRT_SKIPCNT; omega
  unfold queuePass
  dsimp only
  split
  · split
    · exact .refl d
    · exact (besideFb_setPrt d p _).trans (besideFb_setReg hb _ _)
  · exact .refl d

/-- A step of the feed is beside the channels. -/
theorem besideFb_feedStep (src i : Nat) (up : Bool) (d : Dev) : BesideFb d (feedStep src i up d) := by
  unfold feedStep
  refine .forAll (fun k e => ?_) 2 d
  dsimp only
  split
  · exact ((besideFb_setPrt e _ _).trans (besideFb_queuePass _ _)).trans (besideFb_prtStatus _ _)
  · exact .refl e

theorem besideFb_finishLatches (c : Fin 16) (p : Word) (t : DWord) (d : Dev) : BesideFb d (finishLatches c p t d) := by
  unfold finishLatches
  refine .forAll (fun j e => ?_) 8 d
  dsimp only
  split
  · split
    · exact (besideFb_tickFree e).trans (besideFb_setLatch _ _ _)
    · exact .refl e
  · exact .refl e

theorem besideFb_laneAlign (c : Fin 16) (ts : DWord) (d : Dev) : BesideFb d (laneAlign c ts d) := by
  unfold laneAlign
  dsimp only
  split
  · refine .forAll (fun n e => ?_) 16 d
    split
    · exact besideFb_setLane e _ _
    · exact .refl e
  · exact .refl d

/-- The axes that start on a sin/cos sample (R171). -/
theorem besideFb_startSample (c : Fin 16) (d : Dev) : BesideFb d (startSample c d) := by
  unfold startSample
  refine .forAll (fun k e => ?_) 16 d
  dsimp only
  split
  · exact (besideFb_setAxis e _ _).trans (besideFb_setLane _ _ _)
  · exact .refl e

end Beside

/-! ## What a step of one channel leaves -/

section Channel

/-- No feedback channel changes, nor what no command of feedback reaches. -/
structure SameCh (d e : Dev) : Prop where
  elsewhere : Elsewhere d e
  ch        : ∀ k, e.ch k = d.ch k
  born      : e.born = d.born

/-- Channel c becomes y, and of the channels no other changes. -/
structure SetsCh (c : Fin 16) (y : FbCh) (d e : Dev) : Prop where
  ch   : e.ch c = y
  only : OnlyCh c d e
  born : e.born = d.born

variable {c : Fin 16} {x y : FbCh} {d e f : Dev}

theorem elsewhere_trans (h : Elsewhere d e) (k : Elsewhere e f) : Elsewhere d f :=
  ⟨k.cores.trans h.cores, k.sram.trans h.sram, k.dram.trans h.dram, k.loader.trans h.loader,
    ⟨k.ports.1.trans h.ports.1, k.ports.2.trans h.ports.2⟩, k.reins.trans h.reins, k.trees.trans h.trees, k.tick.trans h.tick,
    k.mode.trans h.mode⟩

theorem elsewhere_setCh (d : Dev) (c : Fin 16) (x : FbCh) : Elsewhere d (d.setCh c x) :=
  ⟨rfl, rfl, rfl, rfl, ⟨rfl, rfl⟩, rfl, rfl, rfl, rfl⟩

theorem BesideFb.same (h : BesideFb d e) : SameCh d e := by
  refine ⟨h.elsewhere, fun _ => h.ch, ?_⟩
  obtain ⟨⟨_, _, _, _, _, _, _, _, _, _, rfl⟩, _⟩ := h
  rfl

theorem sameCh_setReg (d : Dev) (a : Nat) (v : Word) : SameCh d (d.setReg a v) :=
  ⟨⟨rfl, rfl, rfl, rfl, ⟨rfl, rfl⟩, rfl, rfl, rfl, rfl⟩, fun _ => rfl, rfl⟩

theorem sameCh_setFlag (d : Dev) (a i : Nat) (b : Bool) : SameCh d (Dev.setFlag a i b d) := sameCh_setReg d a _

theorem SameCh.refl (d : Dev) : SameCh d d := (BesideFb.refl d).same

theorem SameCh.trans (h : SameCh d e) (k : SameCh e f) : SameCh d f :=
  ⟨elsewhere_trans h.elsewhere k.elsewhere, fun n => (k.ch n).trans (h.ch n), k.born.trans h.born⟩

theorem SameCh.onlyCh (h : SameCh d e) (c : Fin 16) : OnlyCh c d e := ⟨h.elsewhere, fun k _ => h.ch k⟩

theorem setsCh_setCh (c : Fin 16) (y : FbCh) (d : Dev) : SetsCh c y d (d.setCh c y) :=
  ⟨Dev.ch_setCh d c y, ⟨elsewhere_setCh d c y, fun k hk => Dev.ch_setCh_other d k c y hk⟩, rfl⟩

theorem onlyCh_trans (h : OnlyCh c d e) (k : OnlyCh c e f) : OnlyCh c d f :=
  ⟨elsewhere_trans h.1 k.1, fun n hn => (k.2 n hn).trans (h.2 n hn)⟩

theorem SetsCh.trans (h : SetsCh c x d e) (k : SetsCh c y e f) : SetsCh c y d f :=
  ⟨k.ch, onlyCh_trans h.only k.only, k.born.trans h.born⟩

theorem SetsCh.thenSame (h : SetsCh c y d e) (k : SameCh e f) : SetsCh c y d f :=
  ⟨(k.ch c).trans h.ch, onlyCh_trans h.only (k.onlyCh c), k.born.trans h.born⟩

theorem SameCh.thenSets (h : SameCh d e) (k : SetsCh c y e f) : SetsCh c y d f :=
  ⟨k.ch, onlyCh_trans (h.onlyCh c) k.only, k.born.trans h.born⟩

end Channel

/-! ## Errors of a channel (R153, R155, R161) -/

section Errors
variable {c : Fin 16} {i : Nat} {d e : Dev}

theorem fbStat_block (c : Fin 16) : FB_STAT c.val / 0x10000 = 0x106 := by unfold FB_STAT; omega

/-- An error bit stands already, or it is set and the rest is beside the channels. -/
theorem fbErr_cases (c : Fin 16) (i : Nat) (d : Dev) :
    (d.flag (FB_STAT c) i = true ∧ fbErr c i d = d) ∨ BesideFb (Dev.setFlag (FB_STAT c) i true d) (fbErr c i d) := by
  unfold fbErr
  dsimp only
  split
  · next h => exact .inl ⟨h, rfl⟩
  · refine .inr ?_
    split
    · exact (besideFb_raise _ _).trans (besideFb_fbLoss _ _)
    · exact besideFb_raise _ _

theorem fbErr_flag (hi : i < 32) (d : Dev) : (fbErr c i d).flag (FB_STAT c) i = true := by
  rcases fbErr_cases c i d with ⟨h, he⟩ | h
  · rw [he, h]
  · rw [h.flag (fbStat_block c), flag_setFlag_same hi]

theorem fbErr_same (c : Fin 16) (i : Nat) (d : Dev) : SameCh d (fbErr c i d) := by
  rcases fbErr_cases c i d with ⟨_, he⟩ | h
  · rw [he]
    exact .refl d
  · exact (sameCh_setFlag d _ _ _).trans h.same

/-- The channel with no speed and no reference. -/
def unreferenced (x : FbCh) : FbCh := { x with since := 0, spd := 0, dcnt := 0, dt := 0 }

theorem fbUnref_sets (c : Fin 16) (d : Dev) : SetsCh c (unreferenced (d.ch c)) d (fbUnref c d) := by
  have hflags := (sameCh_setFlag d (FB_STAT c) 1 false).trans (sameCh_setFlag _ (FB_STAT c) 0 false)
  rw [← hflags.ch c]
  exact hflags.thenSets (setsCh_setCh c _ _)

/-- In the registers the two flags alone change. -/
theorem fbUnref_flag (c : Fin 16) (d : Dev) (i : Nat) : (fbUnref c d).flag (FB_STAT c) i =
    (Dev.setFlag (FB_STAT c) 0 false (Dev.setFlag (FB_STAT c) 1 false d)).flag (FB_STAT c) i := rfl

theorem fbUnref_spdv (c : Fin 16) (d : Dev) : (fbUnref c d).flag (FB_STAT c) 0 = false := by
  rw [fbUnref_flag, flag_setFlag_same (by decide)]

theorem fbUnref_ref (c : Fin 16) (d : Dev) : (fbUnref c d).flag (FB_STAT c) 1 = false := by
  rw [fbUnref_flag, flag_setFlag_other (by decide), flag_setFlag_same (by decide)]

theorem fbUnref_flag_other (h : 2 ≤ i) (d : Dev) : (fbUnref c d).flag (FB_STAT c) i = d.flag (FB_STAT c) i := by
  rw [fbUnref_flag, flag_setFlag_other (by omega), flag_setFlag_other (by omega)]

/-- Channel c shows error bit i, without speed and reference; its counter stands. -/
structure ChFails (c : Fin 16) (i : Nat) (d e : Dev) : Prop where
  err  : e.flag (FB_STAT c) i = true
  spdv : e.flag (FB_STAT c) 0 = false
  ref  : e.flag (FB_STAT c) 1 = false
  cnt  : (e.ch c).cnt = (d.ch c).cnt
  only : OnlyCh c d e

theorem fbUnref_fbErr (h2 : 2 ≤ i) (hi : i < 32) (d : Dev) : ChFails c i d (fbUnref c (fbErr c i d)) := by
  have hsame := fbErr_same c i d
  have hsets := hsame.thenSets (fbUnref_sets c (fbErr c i d))
  refine ⟨(fbUnref_flag_other h2 _).trans (fbErr_flag hi d), fbUnref_spdv c _, fbUnref_ref c _, ?_, hsets.only⟩
  rw [hsets.ch, unreferenced, hsame.ch]

theorem ChFails.after {x : FbCh} (h : SetsCh c x d e) (hx : x.cnt = (d.ch c).cnt) {f : Dev} (k : ChFails c i e f) :
    ChFails c i d f :=
  ⟨k.err, k.spdv, k.ref, by rw [k.cnt, h.ch, hx], onlyCh_trans h.only k.only⟩

end Errors

end Sys2Proof.Proofs
end

section
/-! PROOFS. Quadrature and Hall counting (R137, R140): a level that has been held, and what it counts. -/
namespace Sys2Proof.Proofs
open Sys2Proof Sys2Proof.Machine Sys2Proof.Claims

/-! ## Counting (R137, R140) -/

section Counting
variable {c : Fin 16} {d : Dev} {held : Nat} {ts : DWord}

/-- The counter goes one up or down, and the edge's timestamp stands. -/
structure Counts (c : Fin 16) (dn : Bool) (ts : DWord) (d e : Dev) : Prop where
  cnt  : (e.ch c).cnt = if dn then (d.ch c).cnt - 1 else (d.ch c).cnt + 1
  last : (e.ch c).lastTs = ts
  only : OnlyCh c d e

theorem countEdge_counts (c : Fin 16) (dn : Bool) (ts : DWord) (d : Dev) : Counts c dn ts d (countEdge c dn ts d) := by
  unfold countEdge
  extract_lets x cnt rev discard y e₁ e₂
  have hstep : SetsCh c y d e₂ :=
    (setsCh_setCh c y d).thenSame
      (((sameCh_setFlag _ _ 3 false).trans (sameCh_setFlag _ _ 2 dn)).trans (besideFb_feedStep 2 c (!dn) _).same)
  have hrev : SameCh e₂ (if rev = true then
      if discard = true then Dev.setFlag (FB_STAT c) 8 true e₂ else raise (96 + 2 * c.val) (Dev.setFlag (FB_STAT c) 8 true e₂)
      else e₂) := by
    split
    · split
      · exact sameCh_setFlag _ _ _ _
      · exact (sameCh_setFlag _ _ _ _).trans (besideFb_raise _ _).same
    · exact .refl _
  obtain ⟨hch, honly, -⟩ := hstep.thenSame hrev
  exact ⟨congrArg FbCh.cnt hch, congrArg FbCh.lastTs hch, honly⟩

theorem Counts.after {x : FbCh} {dn : Bool} {e f : Dev} (h : SetsCh c x d e) (hx : x.cnt = (d.ch c).cnt) (k : Counts c dn ts e f) :
    Counts c dn ts d f :=
  ⟨by rw [k.cnt, h.ch, hx], k.last, onlyCh_trans h.only k.only⟩

theorem counted_up (inv : Bool) (w : Word) : (if inv then w - 1 else w + 1) = counted inv true w := rfl

theorem counted_down (inv : Bool) (w : Word) : (if !inv then w - 1 else w + 1) = counted inv false w := by cases inv <;> rfl

theorem pinHeld_short {filt : Nat} (h : held ≤ filt) : pinHeld filt held = false := decide_eq_false (by omega)
theorem pinHeld_long {filt : Nat} (h : filt < held) : pinHeld filt held = true := decide_eq_true h

theorem fbLive_of_type {ty : Nat} (hs : d.pw.stopped = false) (ht : d.fbType c = ty) : fbLive d c ty = true := by
  simp [fbLive, hs, ht]

theorem exec_quadEdge (c : Fin 16) (a b : Bool) (l : HeldLevel) (s : State) :
    exec (.quadEdge c a b l) s = .next { s with dev := quadStep c a b l.held l.ts s.dev } := rfl

theorem exec_hallStep (c : Fin 16) (w : BitVec 3) (l : HeldLevel) (s : State) :
    exec (.hallStep c w l) s = .next { s with dev := hallTo c w l.held l.ts s.dev } := rfl

theorem quadStep_short (h : held ≤ fbFilt d c) (a b : Bool) : quadStep c a b held ts d = d := by
  simp [quadStep, pinHeld_short h]

theorem hallTo_short (h : held ≤ fbFilt d c) (w : BitVec 3) : hallTo c w held ts d = d := by
  simp [hallTo, pinHeld_short h]

/-- An accepted level stands from its timestamp on. -/
def levelTaken (c : Fin 16) (w : BitVec 3) (ts : DWord) (d : Dev) : Dev := (d.reachTs ts).setCh c { d.ch c with lvl := w }

theorem levelTaken_sets (c : Fin 16) (w : BitVec 3) (ts : DWord) (d : Dev) :
    SetsCh c { d.ch c with lvl := w } d (levelTaken c w ts d) := (besideFb_reach d _).same.thenSets (setsCh_setCh c _ _)

theorem levelTaken_counts (c : Fin 16) (w : BitVec 3) (dn : Bool) (ts : DWord) (d : Dev) :
    Counts c dn ts d (countEdge c dn ts (levelTaken c w ts d)) :=
  Counts.after (levelTaken_sets c w ts d) rfl (countEdge_counts c dn ts _)

theorem levelTaken_fails (c : Fin 16) (w : BitVec 3) (ts : DWord) (d : Dev) {i : Nat} (h2 : 2 ≤ i) (hi : i < 32) :
    ChFails c i d (fbUnref c (fbErr c i (levelTaken c w ts d))) :=
  ChFails.after (levelTaken_sets c w ts d) rfl (fbUnref_fbErr h2 hi _)

/-- The levels A and B as one state of the channel. -/
def quadLevel (a b : Bool) : BitVec 3 := BitVec.ofNat 3 (b2n a + 2 * b2n b)

theorem quadLevel_a (a b : Bool) : bit (quadLevel a b) 0 = a := by decide +revert
theorem quadLevel_b (a b : Bool) : bit (quadLevel a b) 1 = b := by decide +revert

section Quadrature
variable (hs : d.pw.stopped = false) (ht : d.fbType c = 1) (hf : fbFilt d c < held)
include hs ht hf

/-- A level of A or B that has been held: both levels new is an error, one counts, and none does nothing. -/
theorem quadStep_held {a b : Bool} (hl : (d.ch c).lvl = quadLevel a b) (a' b' : Bool) :
    quadStep c a' b' held ts d =
      if (a' != a) && (b' != b) then fbUnref c (fbErr c 9 (levelTaken c (quadLevel a' b') ts d))
      else if (a' == a) && (b' == b) then levelTaken c (quadLevel a' b') ts d
      else countEdge c ((if a' != a then a' != b' else a' == b') == d.flag (FB_CFG c) 11) ts (levelTaken c (quadLevel a' b') ts d) := by
  have hch : (d.reachTs ts).ch c = d.ch c := rfl
  simp only [quadStep, fbLive_of_type hs ht, pinHeld_long hf, hch, hl, quadLevel_a, quadLevel_b, Bool.and_self, Bool.not_true,
    Bool.false_eq_true, if_false]
  rfl

theorem quadStep_up {a b : Bool} (hl : (d.ch c).lvl = quadLevel a b) :
    Counts c (d.flag (FB_CFG c) 11) ts d (quadStep c (!b) a held ts d) := by
  have h : quadStep c (!b) a held ts d = countEdge c (d.flag (FB_CFG c) 11) ts (levelTaken c (quadLevel (!b) a) ts d) := by
    rw [quadStep_held hs ht hf hl]
    cases a <;> cases b <;> simp
  rw [h]
  exact levelTaken_counts c _ _ ts d

theorem quadStep_down {a b : Bool} (hl : (d.ch c).lvl = quadLevel a b) :
    Counts c (!d.flag (FB_CFG c) 11) ts d (quadStep c b (!a) held ts d) := by
  have h : quadStep c b (!a) held ts d = countEdge c (!d.flag (FB_CFG c) 11) ts (levelTaken c (quadLevel b (!a)) ts d) := by
    rw [quadStep_held hs ht hf hl]
    cases a <;> cases b <;> simp
  rw [h]
  exact levelTaken_counts c _ _ ts d

theorem quadStep_both {a b : Bool} (hl : (d.ch c).lvl = quadLevel a b) : ChFails c 9 d (quadStep c (!a) (!b) held ts d) := by
  have h : quadStep c (!a) (!b) held ts d = fbUnref c (fbErr c 9 (levelTaken c (quadLevel (!a) (!b)) ts d)) := by
    rw [quadStep_held hs ht hf hl]
    cases a <;> cases b <;> simp
  rw [h]
  exact levelTaken_fails c _ ts d (by decide) (by decide)

end Quadrature

theorem hallPos_hallSeq (i : Fin 6) : hallPos (hallSeq i).toNat = some i.val := by decide +revert

section Hall
variable (hs : d.pw.stopped = false) (ht : d.fbType c = 2) (hf : fbFilt d c < held)
include hs ht hf

/-- A Hall state that has been held counts one step of the sequence, or is an error. -/
theorem hallTo_held {i : Fin 6} (hl : (d.ch c).lvl = hallSeq i) (w : BitVec 3) :
    hallTo c w held ts d = match hallPos w.toNat with
      | none => fbUnref c (fbErr c 10 (levelTaken c w ts d))
      | some j =>
        if i.val = j then levelTaken c w ts d
        else if j = (i.val + 1) % 6 then countEdge c (d.flag (FB_CFG c) 11) ts (levelTaken c w ts d)
        else if i.val = (j + 1) % 6 then countEdge c (!d.flag (FB_CFG c) 11) ts (levelTaken c w ts d)
        else fbUnref c (fbErr c 10 (levelTaken c w ts d)) := by
  have hch : (d.reachTs ts).ch c = d.ch c := rfl
  simp only [hallTo, fbLive_of_type hs ht, pinHeld_long hf, hch, hl, hallPos_hallSeq, Bool.and_self, Bool.not_true,
    Bool.false_eq_true, if_false]
  cases hallPos w.toNat <;> rfl

theorem hallTo_up {i : Fin 6} (hl : (d.ch c).lvl = hallSeq i) :
    Counts c (d.flag (FB_CFG c) 11) ts d (hallTo c (hallSeq (i + 1)) held ts d) := by
  have h : hallTo c (hallSeq (i + 1)) held ts d =
      countEdge c (d.flag (FB_CFG c) 11) ts (levelTaken c (hallSeq (i + 1)) ts d) := by
    rw [hallTo_held hs ht hf hl]
    simp only [hallPos_hallSeq, Fin.val_add]
    rw [if_neg (by omega), if_pos (by omega)]
  rw [h]
  exact levelTaken_counts c _ _ ts d

theorem hallTo_down {j : Fin 6} (hl : (d.ch c).lvl = hallSeq (j + 1)) :
    Counts c (!d.flag (FB_CFG c) 11) ts d (hallTo c (hallSeq j) held ts d) := by
  have h : hallTo c (hallSeq j) held ts d = countEdge c (!d.flag (FB_CFG c) 11) ts (levelTaken c (hallSeq j) ts d) := by
    rw [hallTo_held hs ht hf hl]
    simp only [hallPos_hallSeq, Fin.val_add]
    rw [if_neg (by omega), if_neg (by omega), if_pos (by omega)]
  rw [h]
  exact levelTaken_counts c _ _ ts d

theorem hallTo_skip {i j : Fin 6} (hl : (d.ch c).lvl = hallSeq i) (h0 : j ≠ i) (h1 : j ≠ i + 1) (h2 : i ≠ j + 1) :
    ChFails c 10 d (hallTo c (hallSeq j) held ts d) := by
  have h : hallTo c (hallSeq j) held ts d = fbUnref c (fbErr c 10 (levelTaken c (hallSeq j) ts d)) := by
    rw [hallTo_held hs ht hf hl]
    simp only [hallPos_hallSeq]
    have h1 : j.val ≠ (i.val + 1) % 6 := fun hc => h1 (Fin.ext hc)
    have h2 : i.val ≠ (j.val + 1) % 6 := fun hc => h2 (Fin.ext hc)
    rw [if_neg (by omega), if_neg h1, if_neg h2]
  rw [h]
  exact levelTaken_fails c _ ts d (by decide) (by decide)

theorem hallTo_invalid {i : Fin 6} (hl : (d.ch c).lvl = hallSeq i) {w : BitVec 3} (hw : w = 0 ∨ w = 7) :
    ChFails c 10 d (hallTo c w held ts d) := by
  have hnone : hallPos w.toNat = none := by rcases hw with rfl | rfl <;> rfl
  have h : hallTo c w held ts d = fbUnref c (fbErr c 10 (levelTaken c w ts d)) := by
    rw [hallTo_held hs ht hf hl]
    simp only [hnone]
  rw [h]
  exact levelTaken_fails c _ ts d (by decide) (by decide)

end Hall

end Counting

/-- Settles O18: a level that has been held counts, or is an error of the channel, by its place beside the level before it. -/
theorem quadratureAndHall : Obligations.QuadratureAndHall := by
  unfold Obligations.QuadratureAndHall
  intro c s ts inv held hs hinv
  refine ⟨fun hf => ⟨fun a b => ?_, fun w => ?_⟩, fun hf => ⟨fun ht a b hl => ⟨?_, ?_, ?_⟩, fun ht i j hl => ⟨?_, ?_, ?_, ?_⟩⟩⟩
  · rw [exec_quadEdge, quadStep_short hf]
  · rw [exec_hallStep, hallTo_short hf]
  · obtain ⟨hcnt, hlast, honly⟩ := quadStep_up (ts := ts) hs ht hf hl
    exact ⟨_, exec_quadEdge .., by rw [hcnt, hinv, counted_up], hlast, honly⟩
  · obtain ⟨hcnt, hlast, honly⟩ := quadStep_down (ts := ts) hs ht hf hl
    exact ⟨_, exec_quadEdge .., by rw [hcnt, hinv, counted_down], hlast, honly⟩
  · obtain ⟨herr, hspdv, href, hcnt, honly⟩ := quadStep_both (ts := ts) hs ht hf hl
    exact ⟨_, exec_quadEdge .., hcnt, herr, hspdv, href, honly⟩
  · rintro rfl
    obtain ⟨hcnt, hlast, honly⟩ := hallTo_up (ts := ts) hs ht hf hl
    exact ⟨_, exec_hallStep .., by rw [hcnt, hinv, counted_up], hlast, honly⟩
  · rintro rfl
    obtain ⟨hcnt, hlast, honly⟩ := hallTo_down (ts := ts) hs ht hf hl
    exact ⟨_, exec_hallStep .., by rw [hcnt, hinv, counted_down], hlast, honly⟩
  · intro h0 h1 h2
    obtain ⟨herr, -, -, hcnt, honly⟩ := hallTo_skip (ts := ts) hs ht hf hl h0 h1 h2
    exact ⟨_, exec_hallStep .., hcnt, herr, honly⟩
  · intro w hw
    obtain ⟨herr, -, -, hcnt, honly⟩ := hallTo_invalid (ts := ts) hs ht hf hl hw
    exact ⟨_, exec_hallStep .., hcnt, herr, honly⟩

end Sys2Proof.Proofs
end

section
/-! PROOFS. Serial channels (R141 to R145): the start of a frame, what its end leaves, and the field of a plain SSI frame. -/
namespace Sys2Proof.Proofs
open Sys2Proof Sys2Proof.Machine Sys2Proof.Claims

theorem exec_ssiFrameStart (c : Fin 16) (s : State) : exec (.ssiFrameStart c) s = .next { s with dev := ssiStart c s.dev } := rfl

theorem exec_rs485Request (c : Fin 16) (s : State) : exec (.rs485Request c) s = .next { s with dev := rsStart c s.dev } := rfl

theorem exec_serialFrameEnd (c : Fin 16) (f : SerialFrame) (s : State) :
    exec (.serialFrameEnd c f) s = .next { s with dev := serialEnd c f s.dev } := rfl

theorem legalAt_of_legal {lo hi v : Nat} (hlo : lo ≤ v) (hhi : v ≤ hi) (d : Dev) (i : Nat) : legalAt d i lo hi v = v :=
  if_pos ⟨hlo, hhi⟩

section Serial
variable {c : Fin 16} {d : Dev} {f : SerialFrame}

theorem fbLive_serial (hs : d.pw.stopped = false) (ht : d.fbType c = 3 ∨ d.fbType c = 4) :
    (fbLive d c 3 || fbLive d c 4) = true := by
  rcases ht with ht | ht
  · rw [fbLive_of_type hs ht, Bool.true_or]
  · rw [fbLive_of_type hs ht, Bool.or_true]

/-! ## The start of a frame (R141, R143) -/

theorem serialFree_of_recovered {ty : Nat} (hs : d.pw.stopped = false) (ht : d.fbType c = ty) (hin : (d.ch c).inFrame = false)
    (hr : recovered d c) : serialFree ty c d = true := by
  unfold recovered at hr
  rw [serialFree, fbLive_of_type hs ht, hin, decide_eq_true hr]
  rfl

theorem serialFree_of_running {ty : Nat} (hr : ¬ recovered d c) : serialFree ty c d = false := by
  unfold recovered at hr
  rw [serialFree, decide_eq_false hr, Bool.and_false]

theorem serialFree_of_inFrame {ty : Nat} (hin : (d.ch c).inFrame = true) : serialFree ty c d = false := by
  rw [serialFree, hin, Bool.not_true, Bool.and_false, Bool.false_and]

theorem ssiStart_free (h : serialFree 3 c d = true) :
    ssiStart c d = (d.reach (serialInstant d c)).setCh c { d.ch c with inFrame := true } := if_pos h

theorem ssiStart_busy (h : serialFree 3 c d = false) : ssiStart c d = d := if_neg (by simp [h])

theorem rsStart_busy (h : serialFree 4 c d = false) : rsStart c d = d := if_neg (by simp [h])

/-- A request stands in the channel until its response ends. -/
theorem rsStart_free (h : serialFree 4 c d = true) :
    SetsCh c { d.ch c with inFrame := true, req := rsRequest d c } d (rsStart c d) ∧ (rsStart c d).regs = d.regs := by
  rw [rsStart, if_pos h]
  exact ⟨(((besideFb_reach d _).trans (besideFb_tickFree _)).trans (besideFb_tickFree _)).same.thenSets (setsCh_setCh c _ _), rfl⟩

theorem rsRequest_legal {n : Nat} (hn : d.fld (FB_RSFMT c) 4 0 = n) (h1 : 1 ≤ n) (h16 : n ≤ 16) :
    rsRequest d c = ((List.range 4).flatMap (fun k => leBytes (d.reg (FB_RSTX c k)).toNat 4)).take n := by
  rw [rsRequest, hn, legalAt_of_legal h1 h16]

/-! ## The end of a frame (R141 to R144) -/

/-- With AUTODLY an SSI frame reports its delay. -/
def autoDelay (d : Dev) (c : Fin 16) : Bool := decide (d.fbType c = 3) && d.flag (FB_SER c) 10

/-- The device at the end of a frame, before the frame is judged. -/
def frameEnded (c : Fin 16) (f : SerialFrame) (d : Dev) : Dev :=
  let e := if d.fbType c = 3 then ssiDone c f.ts (d.reachTs f.ts) else d.reachTs f.ts
  (if autoDelay d c then reportDelay c f.delay e else e).tickFree

/-- At the end of an SSI frame its MONO time begins. -/
def frameRecover (c : Fin 16) (f : SerialFrame) (d : Dev) : Nat :=
  if d.fbType c = 3 then
    d.born + 2 * f.ts.toNat + legalAt d 0 1 48 (d.fld (FB_SER c) 17 12) * serialBit d c + serialMono d c
  else (d.ch c).recover

theorem ssiDone_sets (ht : d.fbType c = 3) :
    SetsCh c { d.ch c with recover := frameRecover c f d } d (ssiDone c f.ts (d.reachTs f.ts)) := by
  have h : ssiDone c f.ts (d.reachTs f.ts) = ((d.reachTs f.ts).reach _).setCh c { d.ch c with recover := _ } := rfl
  rw [frameRecover, if_pos ht, h]
  exact ((besideFb_reach d _).trans (besideFb_reach _ _)).same.thenSets (setsCh_setCh c _ _)

theorem frameEnded_sets (c : Fin 16) (f : SerialFrame) (d : Dev) :
    SetsCh c { d.ch c with recover := frameRecover c f d } d (frameEnded c f d) := by
  have hdone : SetsCh c { d.ch c with recover := frameRecover c f d } d
      (if d.fbType c = 3 then ssiDone c f.ts (d.reachTs f.ts) else d.reachTs f.ts) := by
    split
    · next ht => exact ssiDone_sets ht
    · next ht =>
      rw [frameRecover, if_neg ht]
      exact ⟨rfl, (besideFb_reach d _).same.onlyCh c, rfl⟩
  have hreport : ∀ e : Dev, SameCh e (if autoDelay d c then reportDelay c f.delay e else e) := fun e => by
    split
    · exact sameCh_setReg e _ _
    · exact .refl e
  exact (hdone.thenSame (hreport _)).thenSame (besideFb_tickFree _).same

theorem frameEnded_delay (ha : autoDelay d c = true) (hd : f.delay ≤ 3000) :
    (frameEnded c f d).reg (FB_SERDLY c) = word f.delay := by
  have h4096 : f.delay < 4096 := by omega
  have h : frameEnded c f d = (reportDelay c f.delay _).tickFree := congrArg Dev.tickFree (if_pos ha)
  rw [h, Dev.reg_congr (Dev.tickFree_regs _), reportDelay, Dev.reg_setReg, if_pos rfl, if_pos h4096]

/-- A frame of a serial channel that is running, as its field reads. -/
theorem serialEnd_framed (hs : d.pw.stopped = false) (ht : d.fbType c = 3 ∨ d.fbType c = 4) (hin : (d.ch c).inFrame = true) :
    serialEnd c f d = match (if autoDelay d c && decide (3000 < f.delay) then none
        else if d.fbType c = 3 then ssiField d c f else rsField d c f) with
      | none => badFrame c (frameEnded c f d)
      | some (v, n) => goodFrame c { f with raw := rawOf (d.fbType c) f } v n (frameEnded c f d) := by
  unfold serialEnd
  rw [fbLive_serial hs ht, hin]
  rfl

theorem serialEnd_good (hs : d.pw.stopped = false) (hin : (d.ch c).inFrame = true) {v n : Nat} (h : goodField d c f v n) :
    serialEnd c f d = goodFrame c { f with raw := rawOf (d.fbType c) f } v n (frameEnded c f d) := by
  rcases h with ⟨ht, hdelay, hfield⟩ | ⟨ht, hfield⟩
  · have hlate : (autoDelay d c && decide (3000 < f.delay)) = false := by
      cases ha : d.flag (FB_SER c) 10
      · simp [autoDelay, ha]
      · simp [hdelay ha]
    rw [serialEnd_framed hs (.inl ht) hin, hlate, if_pos ht, hfield]
    rfl
  · have hauto : autoDelay d c = false := by simp [autoDelay, ht]
    rw [serialEnd_framed hs (.inr ht) hin, hauto, if_neg (by omega : ¬ d.fbType c = 3), hfield]
    rfl

theorem serialEnd_bad (hs : d.pw.stopped = false) (hin : (d.ch c).inFrame = true) (h : badField d c f) :
    serialEnd c f d = badFrame c (frameEnded c f d) := by
  rcases h with ⟨ht, hfield⟩ | ⟨ht, hfield⟩
  · rw [serialEnd_framed hs (.inl ht) hin, if_pos ht]
    rcases hfield with hfield | ⟨ha, hdelay⟩
    · rw [hfield, ite_self]
    · rw [if_pos (by simp [autoDelay, ht, ha, hdelay])]
  · have hauto : autoDelay d c = false := by simp [autoDelay, ht]
    rw [serialEnd_framed hs (.inr ht) hin, hauto, if_neg (by omega : ¬ d.fbType c = 3), hfield]
    rfl

/-- A failed frame ends and sets SERR. -/
theorem badFrame_sets (c : Fin 16) (d : Dev) : SetsCh c { d.ch c with inFrame := false } d (badFrame c d) ∧
    (badFrame c d).flag (FB_STAT c) 11 = true :=
  ⟨(setsCh_setCh c _ d).thenSame (fbErr_same c 11 _), fbErr_flag (by decide) _⟩

/-- What a good frame leaves of its channel. -/
structure GoodFrame (c : Fin 16) (ts : DWord) (v n : Nat) (d e : Dev) : Prop where
  cnt     : (e.ch c).cnt = (d.ch c).cnt + wordI (signed n (v + 2 ^ n - (d.ch c).field.toNat % 2 ^ n))
  field   : (e.ch c).field = word v
  last    : (e.ch c).lastTs = ts
  ended   : (e.ch c).inFrame = false
  recover : (e.ch c).recover = (d.ch c).recover
  only    : OnlyCh c d e
  regs    : ∀ a, a / 0x10000 = 0x106 → a ≠ FB_STAT c → e.reg a = d.reg a

theorem goodFrame_leaves (hok : (d.ch c).fieldOk = true) (v n : Nat) : GoodFrame c f.ts v n d (goodFrame c f v n d) := by
  unfold goodFrame
  extract_lets x diff cnt e₁ y dn e₂
  have hcnt : cnt = x.cnt + wordI diff := if_pos hok
  have hlatch : BesideFb d e₁ := (besideFb_tickFree d).trans (besideFb_finishLatches c cnt f.ts _)
  have hy : y = x := hlatch.ch
  clear_value e₁
  have hset : SetsCh c _ d e₂ := hlatch.same.thenSets (setsCh_setCh c _ e₁)
  obtain ⟨hch, honly, -⟩ := hset.thenSame (sameCh_setFlag e₂ (FB_STAT c) 2 dn)
  refine ⟨?_, congrArg FbCh.field hch, congrArg FbCh.lastTs hch, congrArg FbCh.inFrame hch, ?_, honly, fun a ha hstat => ?_⟩
  · exact (congrArg FbCh.cnt hch).trans hcnt
  · exact (congrArg FbCh.recover hch).trans (show y.recover = x.recover by rw [hy])
  · rw [Dev.reg_setFlag_other _ _ _ _ _ hstat]
    exact hlatch.regs a ha

theorem frameRecover_ssi (ht : d.fbType c = 3) {len dv : Nat} (hlen : d.fld (FB_SER c) 17 12 = len) (hdv : d.fld (FB_SER c) 9 0 = dv)
    (h1 : 1 ≤ len) (h48 : len ≤ 48) (h10 : 10 ≤ dv) (h1000 : dv ≤ 1000) :
    frameRecover c f d = d.born + 2 * f.ts.toNat + len * (30 * dv) + 3000 * max 1 (d.fld (FB_SER c) 23 18) := by
  rw [frameRecover, if_pos ht, hlen, serialBit, ht, if_pos rfl, hdv, legalAt_of_legal h1 h48, legalAt_of_legal h10 h1000, serialMono]

end Serial

/-! ## The field of a plain SSI frame (R144) -/

section Field
variable {c : Fin 16} {d : Dev} {f : SerialFrame} {len msb n : Nat}

/-- The low n + 1 bits of a number above place k are those above place k + 1, then bit k. -/
theorem div_mod_succ (x k n : Nat) : x / 2 ^ k % 2 ^ (n + 1) = 2 * (x / 2 ^ (k + 1) % 2 ^ n) + x / 2 ^ k % 2 := by
  have h : x / 2 ^ (k + 1) = x / 2 ^ k / 2 := by rw [Nat.pow_succ, Nat.div_div_eq_div_mul]
  rw [h, Nat.pow_succ', Nat.mod_mul, Nat.add_comm]

theorem b2n_bit (w : BitVec 48) (i : Nat) : b2n (bit w i) = w.toNat / 2 ^ i % 2 := by
  rw [bit, ← BitVec.testBit_toNat, b2n, Nat.testBit_eq_decide_div_mod_eq]
  have : w.toNat / 2 ^ i % 2 < 2 := Nat.mod_lt _ (by decide)
  by_cases h : w.toNat / 2 ^ i % 2 = 1
  · simp [h]
  · have : w.toNat / 2 ^ i % 2 = 0 := by omega
    simp [this]

/-- The bits of a frame from place msb on, most significant first. -/
theorem ssiBits_eq (raw : BitVec 48) (hmsb : 1 ≤ msb) (h : msb + n ≤ len + 1) :
    (List.range n).foldl (fun v i => 2 * v + b2n (ssiBit raw len (msb + i))) 0 = raw.toNat / 2 ^ (len + 1 - msb - n) % 2 ^ n := by
  induction n with
  | zero => rw [Nat.pow_zero, Nat.mod_one]; rfl
  | succ n ih =>
    have hk : len + 1 - msb - n = len + 1 - msb - (n + 1) + 1 := by omega
    have hbit : ssiBit raw len (msb + n) = bit raw (len + 1 - msb - (n + 1)) := by
      rw [ssiBit, decide_eq_true (by omega : 1 ≤ msb + n), decide_eq_true (by omega : msb + n ≤ len), Bool.true_and, Bool.true_and,
        show len - (msb + n) = len + 1 - msb - (n + 1) by omega]
    rw [List.range_succ, List.foldl_append, List.foldl_cons, List.foldl_nil, ih (by omega), hbit, b2n_bit, hk, ← div_mod_succ]

theorem ssiField_plain (hframing : f.framing = false) (h48 : len ≤ 48) (hmsb : 1 ≤ msb) (hn : 1 ≤ n) (h32 : n ≤ 32)
    (hfit : msb + n ≤ len + 1) (hlen : bits (d.reg (FB_SER c)) 17 12 = len) (hgray : bit (d.reg (FB_SER c)) 11 = false)
    (hfld : d.reg (FB_SERFLD c) = word (msb + 4096 * n)) :
    ssiField d c f = some (f.raw.toNat / 2 ^ (len + 1 - msb - n) % 2 ^ n, n) := by
  have hword : (d.reg (FB_SERFLD c)).toNat = msb + 4096 * n := by
    rw [hfld]
    exact Nat.mod_eq_of_lt (by omega)
  have hplen : bits (d.reg (FB_SERFLD c)) 17 12 = n := by rw [bits, hword]; omega
  have hplace : bits (d.reg (FB_SERFLD c)) 5 0 = msb := by rw [bits, hword]; omega
  have hpar : bits (d.reg (FB_SERFLD c)) 19 18 = 0 := by rw [bits, hword]; omega
  have herr : bits (d.reg (FB_SERFLD c)) 25 20 = 0 := by rw [bits, hword]; omega
  have hno : ssiBit f.raw len 0 = false := rfl
  simp only [ssiField, hlen, hplen, hplace, hpar, herr, hgray, hframing, legalAt_of_legal (show 1 ≤ len by omega) h48,
    legalAt_of_legal hn h32, legalAt_of_legal hmsb (show msb ≤ 48 by omega), legalAt_of_legal (Nat.zero_le 0) (Nat.zero_le 48), hno,
    ssiBits_eq f.raw hmsb hfit, if_pos hfit, Bool.not_true, Bool.or_false, Bool.false_eq_true, if_false]

end Field

end Sys2Proof.Proofs
end

section
/-! PROOFS. Sin/cos channels (R146, R147): a sample within its limits and one outside them, and the sample of an edge (R136). -/
namespace Sys2Proof.Proofs
open Sys2Proof Sys2Proof.Machine Sys2Proof.Claims

/-! ## The limits of the amplitude -/

section Amplitude
variable (a : Nat) (y x cp : Int)

theorem limit_cast : ((a * a * ((cp * cp).toNat * 2 ^ 30) : Nat) : Int) = (a ^ 2 : Int) * (cp * cp * 2 ^ 30) := by
  rw [Nat.cast_mul, Nat.cast_mul, Nat.cast_mul, Int.toNat_of_nonneg (mul_self_nonneg cp), sq]
  rfl

theorem power_cast : (((y * y + x * x).toNat : Nat) : Int) = y * y + x * x :=
  Int.toNat_of_nonneg (add_nonneg (mul_self_nonneg y) (mul_self_nonneg x))

theorem below_limit_iff : (y * y + x * x).toNat < a * a * ((cp * cp).toNat * 2 ^ 30) ↔
    y * y + x * x < (a ^ 2 : Int) * (cp * cp * 2 ^ 30) := by
  rw [← limit_cast, ← Int.ofNat_lt, power_cast]

theorem above_limit_iff : a * a * ((cp * cp).toNat * 2 ^ 30) < (y * y + x * x).toNat ↔
    (a ^ 2 : Int) * (cp * cp * 2 ^ 30) < y * y + x * x := by
  rw [← limit_cast, ← Int.ofNat_lt, power_cast]

end Amplitude

/-! ## The sample of an edge (R136, R152) -/

section Edge
variable {c : Fin 16} {d e f : Dev}

/-- The sample latched at the edge shows as position and timestamp; the counter stands. -/
structure EdgeLatched (c : Fin 16) (d e : Dev) : Prop where
  cnt  : (e.ch c).cnt = (d.ch c).cnt
  last : (e.ch c).lastTs = (d.ch c).lastTs
  pos  : (e.ch c).pos = (d.ch c).cnt
  ts   : (e.ch c).ts = (d.ch c).lastTs
  only : OnlyCh c d e

theorem EdgeLatched.ofSets {y : FbCh} (h : SetsCh c y d e) (hcnt : y.cnt = (d.ch c).cnt) (hlast : y.lastTs = (d.ch c).lastTs)
    (hpos : y.pos = (d.ch c).cnt) (hts : y.ts = (d.ch c).lastTs) : EdgeLatched c d e := by
  obtain ⟨rfl, honly, -⟩ := h
  exact ⟨hcnt, hlast, hpos, hts, honly⟩

theorem EdgeLatched.thenSame (h : EdgeLatched c d e) (k : SameCh e f) : EdgeLatched c d f := by
  obtain ⟨hcnt, hlast, hpos, hts, honly⟩ := h
  rw [← k.ch c] at hcnt hlast hpos hts
  exact ⟨hcnt, hlast, hpos, hts, onlyCh_trans honly (k.onlyCh c)⟩

theorem edgeSample_latches (c : Fin 16) (d : Dev) : EdgeLatched c d (edgeSample c d) := by
  have hlanes (e : Dev) : SameCh e (forAll 16 (fun n d =>
      if d.kind n = 1 ∧ axisCh d n = c then
        d.setLane (Fin.ofNat 16 n) { d.lane (Fin.ofNat 16 n) with spdS := (d.ch c).spd, spdvS := d.flag (FB_STAT c) 0 }
      else d) e) :=
    (BesideFb.forAll (fun i e => by
      split
      · exact besideFb_setLane e _ _
      · exact .refl e) 16 e).same
  refine EdgeLatched.thenSame ?_ (hlanes _)
  dsimp only
  split
  · exact .ofSets (setsCh_setCh c _ d) rfl rfl rfl rfl
  · exact .ofSets ((setsCh_setCh c _ d).thenSame (sameCh_setFlag _ (FB_STAT c) 0 true)) rfl rfl rfl rfl

end Edge

/-! ## The sample -/

section Sample
variable {c : Fin 16} {d e : Dev} {sn cs : BitVec 14} {q : BitVec 32} {fast : Bool} {ts : DWord} {y x cp : Int}

theorem takenAt_congr (hborn : e.born = d.born) (t : Nat) (ts : DWord) : takenAt e t ts = takenAt d t ts := by
  rw [takenAt, takenAt, Dev.stampAt, Dev.stampAt, hborn]

/-- The position of a sample: its angle joined to the quadrant count, turned round by INV (R146, assumption 123). -/
def samplePos (d : Dev) (c : Fin 16) (q : BitVec 32) (y x : Int) : Word :=
  wordI ((if d.flag (FB_CFG c) 11 then -1 else 1) *
    ((q.toInt - ((angle12 y x / 1024 : Nat) : Int) + 2).fdiv 4 * 4096 + angle12 y x)) + (d.ch c).ofs

/-- A sample that counts: its position and timestamp, and where it is the first of its edge in Capture, what Capture latches. -/
structure SampleTaken (c : Fin 16) (pos : Word) (ts : DWord) (d e : Dev) : Prop where
  cnt  : (e.ch c).cnt = pos
  last : (e.ch c).lastTs = ts
  only : OnlyCh c d e
  edge : d.tick.phase = .capture → takenAt d d.tick.edgeAt ts = true → (d.ch c).taken = false →
    (e.ch c).pos = (e.ch c).cnt ∧ (e.ch c).ts = ts

/-- A sample outside its limits, or above 500 kHz. -/
def sampleBad (d : Dev) (c : Fin 16) (fast : Bool) (y x cp : Int) : Bool :=
  decide ((y * y + x * x).toNat < d.fld (FB_SCAMP c) 15 0 * d.fld (FB_SCAMP c) 15 0 * ((cp * cp).toNat * 2 ^ 30)) ||
  decide (d.fld (FB_SCAMP c) 31 16 * d.fld (FB_SCAMP c) 31 16 * ((cp * cp).toNat * 2 ^ 30) < (y * y + x * x).toNat) || fast

/-- A bad sample sets SCERR and counts nothing; any other counts. -/
structure SampleJudged (c : Fin 16) (bad : Bool) (pos : Word) (ts : DWord) (d e : Dev) : Prop where
  fails  : bad = true → ChFails c 12 d e
  counts : bad = false → SampleTaken c pos ts d e

theorem sincosStep_judged (hs : d.pw.stopped = false) (ht : d.fbType c = 5) (hcor : scCorrected d c sn cs = (y, x, cp)) :
    SampleJudged c (sampleBad d c fast y x cp) (samplePos d c q y x) ts d (sincosStep c sn cs q fast ts d) := by
  unfold sincosStep
  rw [fbLive_of_type hs ht, Bool.not_true, if_neg Bool.false_ne_true]
  extract_lets d₁ amin amax z _
  split
  next y' x' cp' hcor' =>
  obtain ⟨rfl, rfl, rfl⟩ : y' = y ∧ x' = x ∧ cp' = cp := by
    have h := hcor'.symm.trans hcor
    simpa using h
  extract_lets num den amp low high up d₂ a per pos d₃ z₁ dn z₂ d₄
  have hnoted : SetsCh c { z with raw := sn.setWidth 48, rawC := cs, amp := word (amp + up) } d d₂ :=
    ((besideFb_reach d _).trans (besideFb_tickFree _)).same.thenSets (setsCh_setCh c _ _)
  have hbad : (low || high || fast) = sampleBad d c fast y' x' cp' := rfl
  rw [hbad]
  cases sampleBad d c fast y' x' cp'
  case true => exact ⟨fun _ => ChFails.after hnoted rfl (fbUnref_fbErr (by decide) (by decide) d₂), nofun⟩
  refine ⟨nofun, fun _ => ?_⟩
  rw [if_neg Bool.false_ne_true]
  have hofs : (d₂.ch c).ofs = (d.ch c).ofs := by rw [hnoted.ch]; rfl
  have hpos : pos = samplePos d c q y' x' := congrArg (wordI _ + ·) hofs
  have hlatch : BesideFb d₂ d₃ := besideFb_finishLatches c pos ts d₂
  clear_value d₃
  have htaken : (d₃.ch c).taken = (d.ch c).taken := by rw [hlatch.ch, hnoted.ch]; rfl
  have hcount : SetsCh c z₂ d d₄ := (hnoted.thenSame hlatch.same).trans
    ((setsCh_setCh c z₂ d₃).thenSame ((sameCh_setFlag _ (FB_STAT c) 2 dn).trans (besideFb_laneAlign c ts _).same))
  have hcnt : (d₄.ch c).cnt = samplePos d c q y' x' := (congrArg FbCh.cnt hcount.ch).trans hpos
  have hlast : (d₄.ch c).lastTs = ts := congrArg FbCh.lastTs hcount.ch
  clear_value d₄
  split
  · obtain ⟨ecnt, elast, epos, ets, eonly⟩ := edgeSample_latches c d₄
    exact ⟨by rw [ecnt, hcnt], by rw [elast, hlast], onlyCh_trans hcount.only eonly, fun _ _ _ => ⟨by rw [epos, ecnt], by rw [ets, hlast]⟩⟩
  · next hedge =>
    refine ⟨hcnt, hlast, hcount.only, fun hphase hat hfirst => absurd ?_ hedge⟩
    have hz : z₂.taken = false := htaken.trans hfirst
    rw [hcount.only.1.tick, takenAt_congr hcount.born, hphase, hat, hz]
    rfl

theorem sincosStep_fails (hs : d.pw.stopped = false) (ht : d.fbType c = 5) (hcor : scCorrected d c sn cs = (y, x, cp))
    (h : fast = true ∨ y * y + x * x < (d.fld (FB_SCAMP c) 15 0 ^ 2 : Int) * (cp * cp * 2 ^ 30) ∨
      (d.fld (FB_SCAMP c) 31 16 ^ 2 : Int) * (cp * cp * 2 ^ 30) < y * y + x * x) :
    ChFails c 12 d (sincosStep c sn cs q fast ts d) := by
  have hbad : sampleBad d c fast y x cp = true := by
    rw [sampleBad, Bool.or_eq_true, Bool.or_eq_true, decide_eq_true_iff, decide_eq_true_iff, below_limit_iff, above_limit_iff]
    tauto
  exact (sincosStep_judged hs ht hcor).fails hbad

theorem sincosStep_counts (hs : d.pw.stopped = false) (ht : d.fbType c = 5) (hcor : scCorrected d c sn cs = (y, x, cp))
    (hlow : (d.fld (FB_SCAMP c) 15 0 ^ 2 : Int) * (cp * cp * 2 ^ 30) ≤ y * y + x * x)
    (hhigh : y * y + x * x ≤ (d.fld (FB_SCAMP c) 31 16 ^ 2 : Int) * (cp * cp * 2 ^ 30)) :
    SampleTaken c (samplePos d c q y x) ts d (sincosStep c sn cs q false ts d) := by
  have hgood : sampleBad d c false y x cp = false := by
    rw [sampleBad, decide_eq_false (mt (below_limit_iff ..).mp (not_lt.mpr hlow)),
      decide_eq_false (mt (above_limit_iff ..).mp (not_lt.mpr hhigh))]
    rfl
  exact (sincosStep_judged hs ht hcor).counts hgood

/-- The axes that start on the sample are beside the channels. -/
theorem exec_sincosSample (c : Fin 16) (sn cs : BitVec 14) (q : BitVec 32) (fast : Bool) (ts : DWord) (s : State) :
    ∃ e, exec (.sincosSample c sn cs q fast ts) s = .next { s with dev := e } ∧ BesideFb (sincosStep c sn cs q fast ts s.dev) e := by
  refine ⟨_, rfl, ?_⟩
  split
  · exact besideFb_startSample c _
  · exact .refl _

end Sample

/-! ## The obligation -/

section Settled
variable {c : Fin 16} {s : State}

theorem rs485Timeout_fails (hs : s.dev.pw.stopped = false) (ht : s.dev.fbType c = 4) (hin : (s.dev.ch c).inFrame = true) :
    exec (.rs485Timeout c) s = .next { s with dev := badFrame c s.dev } := by
  have h : exec (.rs485Timeout c) s =
    .next { s with dev := if fbLive s.dev c 4 && (s.dev.ch c).inFrame then badFrame c s.dev else s.dev } := rfl
  rw [h, fbLive_of_type hs ht, hin]
  rfl

theorem serialStaleTimeout_unrefs (hs : s.dev.pw.stopped = false) (ht : s.dev.fbType c = 3 ∨ s.dev.fbType c = 4) :
    exec (.serialStaleTimeout c) s = .next { s with dev := fbUnref c s.dev } := by
  have h : exec (.serialStaleTimeout c) s =
    .next { s with dev := if fbLive s.dev c 3 || fbLive s.dev c 4 then fbUnref c s.dev else s.dev } := rfl
  rw [h, fbLive_serial hs ht]
  rfl

/-- A good frame, with its delay and its MONO time. -/
theorem serialFrameEnd_good {f : SerialFrame} {v n : Nat} (hs : s.dev.pw.stopped = false) (hin : (s.dev.ch c).inFrame = true)
    (hgood : goodField s.dev c f v n) (hok : (s.dev.ch c).fieldOk = true) :
    ∃ d, exec (.serialFrameEnd c f) s = .next { s with dev := d } ∧
      (d.ch c).cnt = (s.dev.ch c).cnt + wordI (signed n (v + 2 ^ n - (s.dev.ch c).field.toNat % 2 ^ n)) ∧
      (d.ch c).field = word v ∧ (d.ch c).lastTs = f.ts ∧ (d.ch c).inFrame = false ∧ OnlyCh c s.dev d ∧
      (s.dev.fbType c = 3 → s.dev.flag (FB_SER c) 10 = true → d.reg (FB_SERDLY c) = word f.delay) ∧
      (d.ch c).recover = frameRecover c f s.dev := by
  have hended := frameEnded_sets c f s.dev
  have hok' : ((frameEnded c f s.dev).ch c).fieldOk = true := by rw [hended.ch, hok]
  obtain ⟨hcnt, hfield, hlast, hin', hrec, honly, hregs⟩ :=
    goodFrame_leaves (f := { f with raw := rawOf (s.dev.fbType c) f }) hok' v n
  rw [hended.ch] at hcnt hrec
  refine ⟨_, (exec_serialFrameEnd c f s).trans (by rw [serialEnd_good hs hin hgood]), hcnt, hfield, hlast, hin',
    onlyCh_trans hended.only honly, fun ht hauto => ?_, hrec⟩
  have hdelay : f.delay ≤ 3000 := by
    rcases hgood with ⟨-, hdelay, -⟩ | ⟨ht4, -⟩
    · exact hdelay hauto
    · omega
  rw [hregs _ (by unfold FB_SERDLY; omega) (by unfold FB_SERDLY FB_STAT; omega)]
  exact frameEnded_delay (by simp [autoDelay, ht, hauto]) hdelay

theorem serialFrameEnd_bad {f : SerialFrame} (hs : s.dev.pw.stopped = false) (hin : (s.dev.ch c).inFrame = true)
    (hbad : badField s.dev c f) :
    ∃ d, exec (.serialFrameEnd c f) s = .next { s with dev := d } ∧ (d.ch c).cnt = (s.dev.ch c).cnt ∧
      d.flag (FB_STAT c) 11 = true ∧ (d.ch c).inFrame = false ∧ OnlyCh c s.dev d := by
  have hended := frameEnded_sets c f s.dev
  obtain ⟨hsets, herr⟩ := badFrame_sets c (frameEnded c f s.dev)
  refine ⟨_, (exec_serialFrameEnd c f s).trans (by rw [serialEnd_bad hs hin hbad]), ?_, herr, congrArg FbCh.inFrame hsets.ch,
    onlyCh_trans hended.only hsets.only⟩
  rw [hsets.ch, hended.ch]

end Settled

/-- Settles O19: a frame by whether its channel is free at its start and whether its field passes at its end, a sample by the limits
of its amplitude. The sample of an edge and the correction are the model's reading (assumptions 122, 33). -/
theorem serialAndSinCos : Obligations.SerialAndSinCos := by
  unfold Obligations.SerialAndSinCos
  refine ⟨⟨fun c s hs => ⟨fun ht hin => ⟨fun hr => ?_, fun hr => ?_⟩, fun ht hin => ⟨fun hr => ?_, fun hr => ?_⟩, fun hin => ?_,
      fun f v n hin hgood hok => ?_, fun f hin hbad => serialFrameEnd_bad hs hin hbad, fun ht hin => ?_, fun ht => ?_⟩,
    fun d c f len msb n => ssiField_plain⟩, fun c s sn cs q fast ts y x cp hs ht hcor => ⟨fun hfast hlow hhigh => ?_, fun hbad => ?_⟩⟩
  · rw [exec_ssiFrameStart, ssiStart_free (serialFree_of_recovered hs ht hin hr)]
  · rw [exec_ssiFrameStart, ssiStart_busy (serialFree_of_running hr)]
  · obtain ⟨hsets, hregs⟩ := rsStart_free (serialFree_of_recovered hs ht hin hr)
    refine ⟨_, exec_rs485Request c s, congrArg FbCh.inFrame hsets.ch, by rw [hsets.ch], hregs, hsets.only,
      fun n hn h1 h16 => ?_⟩
    exact (congrArg FbCh.req hsets.ch).trans (rsRequest_legal hn h1 h16)
  · rw [exec_rs485Request, rsStart_busy (serialFree_of_running hr)]
  · rw [exec_ssiFrameStart, exec_rs485Request, ssiStart_busy (serialFree_of_inFrame hin), rsStart_busy (serialFree_of_inFrame hin)]
    exact ⟨rfl, rfl⟩
  · obtain ⟨d, hexec, hcnt, hfield, hlast, hin', honly, hdelay, hrec⟩ := serialFrameEnd_good hs hin hgood hok
    refine ⟨d, hexec, hcnt, hfield, hlast, hin', honly, hdelay, fun len dv ht hlen hdv h1 h48 h10 h1000 => ?_⟩
    rw [hrec, frameRecover_ssi ht hlen hdv h1 h48 h10 h1000]
  · obtain ⟨hsets, herr⟩ := badFrame_sets c s.dev
    exact ⟨_, rs485Timeout_fails hs ht hin, hsets.ch, herr, hsets.only⟩
  · have hsets := fbUnref_sets c s.dev
    exact ⟨_, serialStaleTimeout_unrefs hs ht, fbUnref_spdv c _, fbUnref_ref c _, by rw [hsets.ch, unreferenced], hsets.only⟩
  · subst hfast
    obtain ⟨e, hexec, hstart⟩ := exec_sincosSample c sn cs q false ts s
    obtain ⟨hcnt, hlast, honly, hedge⟩ := sincosStep_counts (q := q) (ts := ts) hs ht hcor hlow hhigh
    rw [← hstart.ch] at hcnt hlast hedge
    exact ⟨e, hexec, hcnt, hlast, onlyCh_trans honly (hstart.same.onlyCh c), hedge⟩
  · obtain ⟨e, hexec, hstart⟩ := exec_sincosSample c sn cs q fast ts s
    obtain ⟨herr, hspdv, -, hcnt, honly⟩ := sincosStep_fails (q := q) (ts := ts) hs ht hcor hbad
    rw [← hstart.ch] at hcnt
    rw [← hstart.flag (fbStat_block c)] at herr hspdv
    exact ⟨e, hexec, hcnt, herr, hspdv, onlyCh_trans honly (hstart.same.onlyCh c)⟩

end Sys2Proof.Proofs
end

section
/-! PROOFS. The commands of a channel (R139, R151, R155, R156), a change of TYPE (R135), and the position latches (R157, R158). -/
namespace Sys2Proof.Proofs
open Sys2Proof Sys2Proof.Machine Sys2Proof.Claims

theorem atEdge_ticking {s : State} (h : ticking s.dev = true) (f : Dev → Dev) : atEdge f s = .next { s with dev := f s.dev } := by
  rw [atEdge, if_pos h]

/-! ## Moving the counter (R139, R156) -/

section Channel
variable {c : Fin 16} {d : Dev} {held : Nat}

/-- The counter, and everything counted in it, moved by an amount. -/
def countMoved (x : FbCh) (w : Word) : FbCh :=
  { x with cnt := x.cnt + w, refCnt := x.refCnt + w, prevCnt := x.prevCnt + w, edgePos := x.edgePos + w, ofs := x.ofs + w }

theorem moveCount_sets (c : Fin 16) (w : Word) (d : Dev) : SetsCh c (countMoved (d.ch c) w) d (moveCount c w d) :=
  (setsCh_setCh c _ d).thenSame (besideFb_laneShift c w _).same

theorem moveCount_regs (c : Fin 16) (w : Word) (d : Dev) : (moveCount c w d).regs = d.regs := laneShift_regs c w _

/-! ## Z (R139) -/

theorem exec_zEdge (c : Fin 16) (held : Nat) (s : State) :
    exec (.zEdge ⟨c, held⟩) s = .next { s with dev := zStep c held s.dev } := rfl

theorem fbLive_z (hs : d.pw.stopped = false) (ht : d.fbType c = 1 ∨ d.fbType c = 5) : (fbLive d c 1 || fbLive d c 5) = true := by
  rcases ht with ht | ht
  · rw [fbLive_of_type hs ht, Bool.true_or]
  · rw [fbLive_of_type hs ht, Bool.or_true]

theorem zStep_ignored (h : held ≤ fbFilt d c ∨ d.fld (FB_CFG c) 13 12 = 0) : zStep c held d = d := by
  rcases h with h | h
  · exact if_pos (.inr (by rw [pinHeld_short h, Bool.and_false]; rfl))
  · exact if_pos (.inl h)

section Held
variable (hs : d.pw.stopped = false) (ht : d.fbType c = 1 ∨ d.fbType c = 5) (hf : fbFilt d c < held)
include hs ht hf

/-- The device with ZPOS recorded. -/
def zRecorded (c : Fin 16) (d : Dev) : Dev := d.setCh c { d.ch c with zpos := (d.ch c).cnt }

theorem zStep_held (h0 : d.fld (FB_CFG c) 13 12 ≠ 0) : zStep c held d =
    if d.fld (FB_CFG c) 13 12 = 3 ∨ (d.fld (FB_CFG c) 13 12 = 2 ∧ (d.ch c).zarm = true) then
      (moveCount c (-(d.ch c).cnt) (zRecorded c d)).setCh c { (moveCount c (-(d.ch c).cnt) (zRecorded c d)).ch c with
        rezero := true, zarm := if d.fld (FB_CFG c) 13 12 = 2 then false else (d.ch c).zarm }
    else zRecorded c d := by
  unfold zStep
  rw [fbLive_z hs ht, pinHeld_long hf, if_neg (by simpa using h0)]
  rfl

theorem zStep_records (h : d.fld (FB_CFG c) 13 12 = 1 ∨ (d.fld (FB_CFG c) 13 12 = 2 ∧ (d.ch c).zarm = false)) :
    zStep c held d = zRecorded c d := by
  rw [zStep_held hs ht hf (by omega), if_neg]
  rintro (h3 | ⟨h2, ha⟩)
  · omega
  · rcases h with h1 | ⟨-, ha'⟩
    · omega
    · exact Bool.noConfusion (ha.symm.trans ha')

theorem zStep_rezeroes (h : d.fld (FB_CFG c) 13 12 = 3 ∨ (d.fld (FB_CFG c) 13 12 = 2 ∧ (d.ch c).zarm = true)) :
    ∃ y, y.zpos = (d.ch c).cnt ∧ y.cnt = 0 ∧ y.rezero = true ∧ SetsCh c y d (zStep c held d) ∧ (zStep c held d).regs = d.regs := by
  have hmove := moveCount_sets c (-(d.ch c).cnt) (zRecorded c d)
  have hch : (zRecorded c d).ch c = { d.ch c with zpos := (d.ch c).cnt } := Dev.ch_setCh d c _
  rw [zStep_held hs ht hf (by omega), if_pos h, hmove.ch, hch]
  refine ⟨_, ?_, ?_, ?_, ((setsCh_setCh c _ d).trans hmove).trans (setsCh_setCh c _ _), moveCount_regs c _ (zRecorded c d)⟩
  · rfl
  · exact add_neg_cancel _
  · rfl

end Held

/-! ## A commit of FBc_CFG that changes TYPE (R134, R135) -/

theorem typeOf_committed (v : Word) : bits (v &&& 0x003F3C07) 2 0 = bits v 2 0 := by
  refine Nat.eq_of_testBit_eq (fun i => ?_)
  rw [testBit_bits, testBit_bits, BitVec.getLsbD_and]
  by_cases hi : i < 3
  · interval_cases i <;> simp
  · simp [hi]

theorem commitFbCfg_changes {v : Word} (h4 : bits v 2 0 ≤ 4) (h : bits v 2 0 ≠ d.fbType c) :
    (commitFbCfg c v d).ch c = { FbCh.reset with zpos := (d.ch c).zpos } ∧ (commitFbCfg c v d).fbType c = bits v 2 0 := by
  have hcfg : FB_CFG c.val ≠ FB_STAT c.val := by unfold FB_CFG FB_STAT; omega
  unfold commitFbCfg
  rw [if_neg (by omega), if_neg h]
  extract_lets e₁ e₂ e₃ e₄
  have hflags : SameCh e₂ e₄ := ((((sameCh_setFlag _ (FB_STAT c) 4 true).trans (sameCh_setFlag _ (FB_STAT c) 1 false)).trans
    (sameCh_setFlag _ (FB_STAT c) 0 false)).trans (sameCh_setFlag _ (FB_STAT c) 2 false)).trans (sameCh_setFlag _ (FB_STAT c) 3 false)
  have hreg : e₄.reg (FB_CFG c) = v &&& 0x003F3C07 := by
    simp only [e₄, e₃, Dev.reg_setFlag_other _ _ _ _ _ hcfg]
    exact (Dev.reg_setReg d _ _ _).trans (if_pos rfl)
  have hlatches : BesideFb e₄ (forAll 8 (fun j d => if j = c.val ∨ d.fld (FB_CAP j) 3 0 = c then
      d.setLatch (Fin.ofNat 8 j) Latch.reset else d) e₄) := BesideFb.forAll (fun i e => by
    split
    · exact besideFb_setLatch e _ _
    · exact .refl e) 8 e₄
  refine ⟨?_, ?_⟩
  · rw [hlatches.ch, hflags.ch]
    exact Dev.ch_setCh _ c _
  · rw [Dev.fbType, hlatches.fld (by unfold FB_CFG; omega), Dev.fld, hreg, typeOf_committed]

end Channel

/-! ## A host's write of FBc_CFG (R38, R134) -/

theorem exec_fbTypeChange (p : HostPort) (c : Fin 16) (v : Word) (s : State) :
    exec (.fbTypeChange p c v) s = exec (.registerWrite p (FB_CFG c) .b4 (v.setWidth 64)) s :=
  congrArg Host.Outcome.next (regRow_eq_memRow (FB_CFG c) v)

theorem fbCfg_row (c : Fin 16) :
    row? (FB_CFG c) = some ⟨0x01060000, 16, 0x100, 1, 0x1, 0x0, 0x0, 0x0, 0x0, 0x3F3C07⟩ := by decide +revert

theorem fbCfg_ownRule (c : Fin 16) : ownRule (FB_CFG c) = false := by decide +revert

theorem fbTypeChange_staged {p : HostPort} {s : State} (hs : Holds p s) (hm : s.dev.mode = .commission) (c : Fin 16) (v : Word) :
    exec (.fbTypeChange p c v) s = .next { s with dev := stageHost (.host p) (.reg (FB_CFG c) v) s.dev } := by
  have ha : RegAddr (FB_CFG c) := by unfold RegAddr FB_CFG; omega
  have hlock : axisLocked (FB_CFG c) s.dev = false := by
    have hb : FB_CFG c.val / 0x10000 ≠ 0x104 := by unfold FB_CFG; omega
    rw [axisLocked, decide_eq_false hb]
    rfl
  rw [exec_fbTypeChange, registerWrite_staged hs ha (fbCfg_row c) (fbCfg_ownRule c) (.inr (by decide)) (fun _ => hm) hlock,
    loWord_setWidth]

/-! ## Position latches (R157, R158) -/

section Latches
variable {j : Fin 8} {d : Dev} {c : Fin 16} {up : Bool} {held : Nat} {ts : DWord}

theorem latch_setLatch_other (d : Dev) {j k : Fin 8} (x : Latch) (h : k ≠ j) : (d.setLatch j x).latch k = d.latch k := by
  have : j.val ≠ k.val := fun e => h (Fin.ext e.symm)
  simp [Dev.latch, Dev.setLatch, this]

theorem exec_capEdge (j : Fin 8) (up : Bool) (l : HeldLevel) (s : State) :
    exec (.capEdge j up l) s = .next { s with dev := capStep j up l.held l.ts s.dev } := rfl

theorem capStep_short (h : held ≤ d.fld (FB_CAP j) 15 10) : capStep j up held ts d = d := by
  have hp : pinHeld (bits (d.reg (FB_CAP j)) 15 10) held = false := pinHeld_short h
  exact if_pos (by rw [hp, Bool.not_false, Bool.or_true])

/-- The latch with the counter of a counting channel, in the place of a result not yet latched. -/
def capCounted (d : Dev) (j : Fin 8) (c : Fin 16) (ts : DWord) : Latch :=
  { d.latch j with armed := d.flag (FB_CAP j) 7, lovr := (d.latch j).lovr || (d.latch j).result.isSome,
                   result := some ((d.ch c).cnt, ts, false) }

/-- The latch that waits for the next frame or sample, in the place of an edge or a result not yet latched. -/
def capWaiting (d : Dev) (j : Fin 8) (ts : DWord) : Latch :=
  { d.latch j with armed := d.flag (FB_CAP j) 7,
                   lovr := (d.latch j).lovr || (d.latch j).waiting.isSome || (d.latch j).result.isSome,
                   waiting := some ts, result := none }

section Taken
variable (hs : d.pw.stopped = false) (hc : d.fld (FB_CAP j) 3 0 = c) (ha : (d.latch j).armed = true)
  (he : d.fld (FB_CAP j) 9 8 = 3 ∨ d.fld (FB_CAP j) 9 8 = if up then 1 else 2) (hf : d.fld (FB_CAP j) 15 10 < held)

include he in
theorem capEdge_wanted : (if up then decide (bits (d.reg (FB_CAP j)) 9 8 = 1 ∨ bits (d.reg (FB_CAP j)) 9 8 = 3)
    else decide (bits (d.reg (FB_CAP j)) 9 8 = 2 ∨ bits (d.reg (FB_CAP j)) 9 8 = 3)) = true := by
  rw [Dev.fld] at he
  cases up
  · exact decide_eq_true he.symm
  · exact decide_eq_true he.symm

include hs ha he hf in
/-- An armed latch takes an edge of its sense that has been held, from its timestamp on. -/
theorem capEdge_accepted : (!(if up then decide (bits (d.reg (FB_CAP j)) 9 8 = 1 ∨ bits (d.reg (FB_CAP j)) 9 8 = 3)
    else decide (bits (d.reg (FB_CAP j)) 9 8 = 2 ∨ bits (d.reg (FB_CAP j)) 9 8 = 3)) || !(d.latch j).armed || d.pw.stopped ||
      !pinHeld (bits (d.reg (FB_CAP j)) 15 10) held) = false := by
  have hp : pinHeld (bits (d.reg (FB_CAP j)) 15 10) held = true := pinHeld_long hf
  rw [capEdge_wanted he, ha, hs, hp]
  rfl

include hc in
theorem capChannel : Fin.ofNat 16 (bits (d.reg (FB_CAP j)) 3 0) = c := by
  rw [show bits (d.reg (FB_CAP j)) 3 0 = c from hc]
  exact Fin.ofNat_val_eq_self c

include hs hc ha he hf

theorem capStep_counting (ht : d.fbType c = 1 ∨ d.fbType c = 2) (hts : (d.ch c).lastTs ≠ ts) :
    capStep j up held ts d = (d.reachTs ts).setLatch j (capCounted d j c ts) := by
  have hch : (d.reachTs ts).ch c = d.ch c := rfl
  have hty : (d.reachTs ts).fbType c = d.fbType c := rfl
  unfold capStep
  dsimp only
  rw [capEdge_accepted hs ha he hf, if_neg Bool.false_ne_true]
  simp only [capChannel hc, hch, hty, decide_eq_false hts, Bool.and_false, if_neg Bool.false_ne_true]
  rcases ht with ht | ht <;> rw [ht] <;> rfl

theorem capStep_waiting (ht : d.fbType c = 3 ∨ d.fbType c = 4 ∨ d.fbType c = 5) :
    capStep j up held ts d = (d.reachTs ts).setLatch j (capWaiting d j ts) := by
  have hty : (d.reachTs ts).fbType c = d.fbType c := rfl
  unfold capStep
  dsimp only
  rw [capEdge_accepted hs ha he hf, if_neg Bool.false_ne_true]
  simp only [capChannel hc, hty]
  rcases ht with ht | ht | ht <;> rw [ht] <;> rfl

end Taken

/-- A latch that takes an edge changes alone. -/
theorem latchTaken_leaves (ts : DWord) (x : Latch) (d : Dev) :
    ((d.reachTs ts).setLatch j x).latch j = x ∧ ((d.reachTs ts).setLatch j x).regs = d.regs ∧
      Elsewhere d ((d.reachTs ts).setLatch j x) ∧ ∀ k, k ≠ j → ((d.reachTs ts).setLatch j x).latch k = d.latch k :=
  ⟨Dev.latch_setLatch _ j x, rfl, ((besideFb_reach d _).trans (besideFb_setLatch _ j x)).elsewhere,
    fun _ hk => latch_setLatch_other _ x hk⟩

theorem latchTimeout_errs (hc : d.fld (FB_CAP j) 3 0 = c) (hw : (d.latch j).waiting = some ts)
    (ht : d.fbType c = 3 ∨ d.fbType c = 4) :
    latchTimeout j d = d.setLatch j { d.latch j with waiting := none, result := some (0, ts, true) } := by
  simp only [latchTimeout, hw, hc, if_pos ht]

end Latches

/-! ## The obligation -/

section Commands
variable {c : Fin 16} {s : State}

theorem zeroSpeedTimeout_clears (hs : s.dev.pw.stopped = false) (ht : s.dev.fbType c = 1 ∨ s.dev.fbType c = 2) :
    ∃ d, exec (.zeroSpeedTimeout c) s = .next { s with dev := d } ∧ d.flag (FB_STAT c) 3 = true ∧
      d.ch c = { s.dev.ch c with spd := 0 } ∧ OnlyCh c s.dev d := by
  have hlive : (fbLive s.dev c 1 || fbLive s.dev c 2) = true := by
    rcases ht with ht | ht
    · rw [fbLive_of_type hs ht, Bool.true_or]
    · rw [fbLive_of_type hs ht, Bool.or_true]
  have hexec : exec (.zeroSpeedTimeout c) s = .next { s with dev := zeroSpeed c s.dev } := rfl
  obtain ⟨hch, honly, -⟩ := (setsCh_setCh c { s.dev.ch c with spd := 0 } s.dev).thenSame (sameCh_setFlag _ (FB_STAT c) 3 true)
  rw [zeroSpeed, if_pos hlive] at hexec
  exact ⟨_, hexec, flag_setFlag_same (by decide) _ _ _, hch, honly⟩

theorem setPos_moves (h : (s.dev.ch c).rezero = false) (v : Word) :
    ((setPos c v s.dev).ch c).cnt = v + ((s.dev.ch c).cnt - (s.dev.ch c).pos) ∧ (setPos c v s.dev).regs = s.dev.regs ∧
      OnlyCh c s.dev (setPos c v s.dev) := by
  have hmove := moveCount_sets c (v - (s.dev.ch c).pos) s.dev
  rw [setPos, if_neg (by simp [h]), hmove.ch]
  refine ⟨?_, moveCount_regs c _ s.dev, hmove.only⟩
  rw [countMoved]
  ring

theorem setPos_rezeroed (h : (s.dev.ch c).rezero = true) (v : Word) : setPos c v s.dev = s.dev := if_pos h

theorem exec_setpos (h : ticking s.dev = true) :
    exec (.setpos c) s = .next { s with dev := setPos c (setVal s.dev c) s.dev } := by
  have hexec : exec (.setpos c) s = atEdge (fun d => setPos c (setVal d c) d) s := rfl
  rw [hexec, atEdge_ticking h]

theorem exec_refset (h : ticking s.dev = true) : exec (.refset c) s = .next { s with dev := refSet c s.dev } := atEdge_ticking h _

theorem exec_zarm (h : ticking s.dev = true) : exec (.zarm c) s = .next { s with dev := zArm c s.dev } := atEdge_ticking h _

theorem exec_rearm (h : ticking s.dev = true) (j : Fin 8) : exec (.rearm j) s = .next { s with dev := reArm j s.dev } :=
  atEdge_ticking h _

end Commands

/-- Settles O20: each command by its own lemma, a CAP edge by whether its channel counts. That REARM clears LOVR and LERR and drops
the result is the model's choice (assumption 124). -/
theorem channelCommandsAndLatches : Obligations.ChannelCommandsAndLatches := by
  unfold Obligations.ChannelCommandsAndLatches
  refine ⟨fun c s hs => ⟨fun held ht => ⟨fun hf => ?_, fun hf => ⟨fun hm => ?_, fun hm => ?_⟩⟩, zeroSpeedTimeout_clears hs,
      fun hk => ⟨fun hz => ?_, fun hz => ?_, ?_, exec_zarm hk⟩, fun p v hp hm => fbTypeChange_staged hp hm c v,
      fun v => commitFbCfg_changes⟩,
    fun j s ts c hs hc => ⟨fun up held ha he => ⟨fun hf => ?_, fun hf => ⟨fun ht hts => ?_, fun ht => ?_⟩⟩, fun hw ht => ?_,
      fun hk => exec_rearm hk j⟩⟩
  · rw [exec_zEdge, zStep_ignored hf]
  · rw [exec_zEdge, zStep_records hs ht hf hm, zRecorded]
  · obtain ⟨y, hzpos, hcnt, hrez, hsets, hregs⟩ := zStep_rezeroes hs ht hf hm
    exact ⟨_, exec_zEdge c held s, by rw [hsets.ch, hzpos], by rw [hsets.ch, hcnt], by rw [hsets.ch, hrez], hregs, hsets.only⟩
  · obtain ⟨hcnt, hregs, honly⟩ := setPos_moves hz (setVal s.dev c)
    exact ⟨_, exec_setpos hk, hcnt, hregs, honly⟩
  · rw [exec_setpos hk, setPos_rezeroed hz]
  · exact ⟨_, exec_refset hk, setReg_setsReg _ _ _⟩
  · rw [exec_capEdge, capStep_short hf]
  · obtain ⟨hlatch, hregs, helse, hother⟩ := latchTaken_leaves (j := j) ts (capCounted s.dev j c ts) s.dev
    refine ⟨_, (exec_capEdge j up ⟨held, ts⟩ s).trans (by rw [capStep_counting hs hc ha he hf ht hts]), ?_, ?_, ?_, hregs, helse,
      hother⟩
    all_goals rw [hlatch, capCounted]
  · obtain ⟨hlatch, hregs, helse, hother⟩ := latchTaken_leaves (j := j) ts (capWaiting s.dev j ts) s.dev
    refine ⟨_, (exec_capEdge j up ⟨held, ts⟩ s).trans (by rw [capStep_waiting hs hc ha he hf ht]), ?_, ?_, ?_, ?_, hregs, helse,
      hother⟩
    all_goals rw [hlatch, capWaiting]
  · have hexec : exec (.latchTimeout j) s = .next { s with dev := latchTimeout j s.dev } := rfl
    rw [hexec, latchTimeout_errs hc hw ht]

end Sys2Proof.Proofs
end

section
/-! PROOFS. The axes' frame (08_motion.md): what stands beside one axis, and what an alert and a DONE do to their axis. -/
namespace Sys2Proof.Proofs
open Sys2Proof Sys2Proof.Machine Sys2Proof.Claims

/-! ## Flags and fields of one register -/

theorem bits_setBit_other {i hi lo : Nat} (h : i < lo ∨ hi < i) (w : Word) (b : Bool) :
    bits (setBit w i b) hi lo = bits w hi lo := by
  refine Nat.eq_of_testBit_eq (fun j => ?_)
  rw [testBit_bits, testBit_bits]
  by_cases hj : j < hi + 1 - lo
  · have hbit : (setBit w i b).getLsbD (lo + j) = w.getLsbD (lo + j) := bit_setBit_other (by omega) w b
    rw [hbit]
  · simp [hj]

theorem bit_setBits_other {i hi lo : Nat} (h : i < lo ∨ hi < i) (w : Word) (v : Nat) : bit (setBits w hi lo v) i = bit w i := by
  rw [bit, getLsbD_setBits, if_neg (by omega), ← bit]

/-! ## Of the axes one alone changes -/

section OneAxis
variable {n : Fin 16} {d e f : Dev}

theorem onlyAxis_trans (h : OnlyAxis n d e) (k : OnlyAxis n e f) : OnlyAxis n d f :=
  ⟨elsewhere_trans h.1 k.1, fun i hi => (k.2 i hi).trans (h.2 i hi)⟩

theorem onlyAxis_of_axes (h : Elsewhere d e) (ha : e.axes = d.axes) : OnlyAxis n d e :=
  ⟨h, fun k _ => congrArg (fun v : Vector Axis 16 => v[k]) ha⟩

theorem onlyAxis_setReg (n : Fin 16) (d : Dev) (a : Nat) (v : Word) : OnlyAxis n d (d.setReg a v) :=
  onlyAxis_of_axes (sameCh_setReg d a v).elsewhere rfl

theorem onlyAxis_setFlag (n : Fin 16) (d : Dev) (a i : Nat) (b : Bool) : OnlyAxis n d (Dev.setFlag a i b d) :=
  onlyAxis_setReg n d a _

theorem onlyAxis_setLane (n : Fin 16) (d : Dev) (k : Fin 16) (x : Lane) : OnlyAxis n d (d.setLane k x) :=
  onlyAxis_of_axes (besideFb_setLane d k x).elsewhere rfl

theorem onlyAxis_setAxis (n : Fin 16) (d : Dev) (x : Axis) : OnlyAxis n d (d.setAxis n x) :=
  ⟨(besideFb_setAxis d n x).elsewhere, fun k hk => Dev.axis_setAxis_other d k n x hk⟩

theorem raise_axes (ev : Nat) (d : Dev) : (raise ev d).axes = d.axes := by
  obtain ⟨r, v, m, h⟩ := raise_frame ev d
  rw [h]

theorem raise_groups (ev : Nat) (d : Dev) : (raise ev d).groups = d.groups := by
  obtain ⟨r, v, m, h⟩ := raise_frame ev d
  rw [h]

theorem onlyAxis_raise (n : Fin 16) (ev : Nat) (d : Dev) : OnlyAxis n d (raise ev d) :=
  onlyAxis_of_axes (besideFb_raise ev d).elsewhere (raise_axes ev d)

theorem reg_setAxis (d : Dev) (k : Fin 16) (x : Axis) (a : Nat) : (d.setAxis k x).reg a = d.reg a := rfl

theorem setAxis_self (d : Dev) (n : Fin 16) : d.setAxis n (d.axis n) = d := by
  simp [Dev.setAxis, Dev.axis]

end OneAxis

/-! ## Alerts -/

section Alert
variable {n : Fin 16} {d e : Dev} {cause a i : Nat}

theorem axBlock_offEvents (h : a / 0x10000 = 0x104) : OffEvents a := offEvents_of_block (by omega) (by omega)

theorem axStat_block (n : Fin 16) : AX_STAT n.val / 0x10000 = 0x104 := by unfold AX_STAT; omega

theorem axStat_ne {k : Fin 16} (h : k ≠ n) : AX_STAT k.val ≠ AX_STAT n.val := by
  have hval : k.val ≠ n.val := fun hc => h (Fin.ext hc)
  unfold AX_STAT
  omega

theorem axAlert_axis (n : Fin 16) (cause : Nat) (d : Dev) :
    (axAlert n cause d).axis n = { d.axis n with alerts := (d.axis n).alerts + 1 } := by
  unfold axAlert
  dsimp only
  rw [Dev.axis, raise_axes, ← Dev.axis, Dev.axis_setAxis]
  simp only [Dev.axis, Dev.setFlag_axes, Dev.setFld_axes]

theorem axAlert_stat (n : Fin 16) (cause : Nat) (d : Dev) :
    (axAlert n cause d).reg (AX_STAT n) = setBit (setBits (d.reg (AX_STAT n)) 31 24 cause) 13 true := by
  unfold axAlert
  dsimp only
  rw [raise_reg (axBlock_offEvents (axStat_block n)), reg_setAxis, Dev.flag_setFlag, Dev.reg_setFld]

theorem axAlert_reg (hb : a / 0x10000 = 0x104) (h : a ≠ AX_STAT n) (cause : Nat) (d : Dev) :
    (axAlert n cause d).reg a = d.reg a := by
  unfold axAlert
  dsimp only
  rw [raise_reg (axBlock_offEvents hb), reg_setAxis, Dev.reg_setFlag_other _ _ _ _ _ h, Dev.reg_setFld_other _ _ _ _ _ _ h]

theorem axAlert_flag (h : i < 24) (h13 : i ≠ 13) (n : Fin 16) (cause : Nat) (d : Dev) :
    (axAlert n cause d).flag (AX_STAT n) i = d.flag (AX_STAT n) i := by
  rw [Dev.flag, axAlert_stat, bit_setBit_other h13, bit_setBits_other (.inl h), ← Dev.flag]

theorem axAlert_groups (n : Fin 16) (cause : Nat) (d : Dev) : (axAlert n cause d).groups = d.groups := by
  unfold axAlert
  simp only [raise_groups, Dev.setAxis_groups, Dev.setFlag_groups, Dev.setFld_groups]

theorem axAlert_onlyAxis (n : Fin 16) (cause : Nat) (d : Dev) : OnlyAxis n d (axAlert n cause d) := by
  have hstat : OnlyAxis n d (Dev.setFlag (AX_STAT n) 13 true (Dev.setFld (AX_STAT n) 31 24 cause d)) :=
    onlyAxis_trans (onlyAxis_setReg n d (AX_STAT n) _) (onlyAxis_setFlag n _ (AX_STAT n) 13 true)
  unfold axAlert
  exact onlyAxis_trans hstat (onlyAxis_trans (onlyAxis_setAxis n _ _) (onlyAxis_raise n _ _))

/-- An alert counts from a device whose axis n stands at the same count. -/
theorem axAlert_alerted (hc : cause < 256) (h : (e.axis n).alerts = (d.axis n).alerts) : Alerted n cause d (axAlert n cause e) := by
  refine ⟨?_, ?_, ?_⟩
  · rw [Dev.flag, axAlert_stat, bit_setBit (by decide)]
  · rw [Dev.fld, axAlert_stat, bits_setBit_other (.inl (by decide)), bits_setBits_same (by decide)]
    exact Nat.mod_eq_of_lt hc
  · rw [axAlert_axis, h]

theorem alerted_setLane (h : Alerted n cause d e) (k : Fin 16) (l : Lane) : Alerted n cause d (e.setLane k l) := h

end Alert

/-! ## DONE -/

theorem axDone_flag (m : Fin 16) (d : Dev) : (axDone m d).flag (AX_STAT m) 7 = true := by
  rw [axDone, Dev.flag, raise_reg (axBlock_offEvents (axStat_block m)), ← Dev.flag, flag_setFlag_same (by decide)]

theorem axDone_onlyAxis (m : Fin 16) (d : Dev) : OnlyAxis m d (axDone m d) :=
  onlyAxis_trans (onlyAxis_setFlag m d _ _ _) (onlyAxis_raise m _ _)

theorem axDone_axes (m : Fin 16) (d : Dev) : (axDone m d).axes = d.axes := raise_axes _ _

theorem axDone_groups (m : Fin 16) (d : Dev) : (axDone m d).groups = d.groups := raise_groups _ _

end Sys2Proof.Proofs
end

section
/-! PROOFS. Axis enable and modes at a committing edge (R162, R170 to R173, R179): a start with its lane, a refused start, a stop, and a
mode that begins. -/
namespace Sys2Proof.Proofs
open Sys2Proof Sys2Proof.Machine Sys2Proof.Claims

/-! ## What a start reads -/

section Setup
variable {n : Fin 16} {d e f : Dev}

/-- From device d to device e the feedback channels stand, and so does every register beside AXn_CTRL and CTLn_STAT. -/
structure SameSetup (n : Fin 16) (d e : Dev) : Prop where
  fb   : e.fb = d.fb
  regs : ∀ a, a ≠ AX_CTRL n → a ≠ CTL_STAT n → e.reg a = d.reg a

theorem SameSetup.trans (h : SameSetup n d e) (k : SameSetup n e f) : SameSetup n d f :=
  ⟨k.fb.trans h.fb, fun a h1 h2 => (k.regs a h1 h2).trans (h.regs a h1 h2)⟩

theorem SameSetup.cfg (h : SameSetup n d e) : e.reg (AX_CFG n) = d.reg (AX_CFG n) :=
  h.regs _ (by unfold AX_CFG AX_CTRL; omega) (by unfold AX_CFG CTL_STAT; omega)

theorem SameSetup.fbReg (h : SameSetup n d e) {a : Nat} (ha : a / 0x10000 = 0x106) : e.reg a = d.reg a :=
  h.regs a (by unfold AX_CTRL; omega) (by unfold CTL_STAT; omega)

theorem SameSetup.kind (h : SameSetup n d e) : e.kind n = d.kind n := by
  rw [Dev.kind, Dev.fld, h.cfg, ← Dev.fld, ← Dev.kind]

theorem SameSetup.cfgFlag (h : SameSetup n d e) (i : Nat) : e.flag (AX_CFG n) i = d.flag (AX_CFG n) i := by
  rw [Dev.flag, h.cfg, ← Dev.flag]

theorem SameSetup.laneKind (h : SameSetup n d e) : laneKind e n = laneKind d n := by
  rw [Machine.laneKind, h.kind, ← Machine.laneKind]

theorem SameSetup.axisCh (h : SameSetup n d e) : axisCh e n = axisCh d n := by
  rw [Machine.axisCh, Dev.fld, h.cfg, ← Dev.fld, ← Machine.axisCh]

theorem SameSetup.ch (h : SameSetup n d e) (c : Fin 16) : e.ch c = d.ch c := by rw [Dev.ch, h.fb, ← Dev.ch]

theorem SameSetup.fbType (h : SameSetup n d e) (c : Fin 16) : e.fbType c = d.fbType c := by
  rw [Dev.fbType, Dev.fld, h.fbReg (by unfold FB_CFG; omega), ← Dev.fld, ← Dev.fbType]

theorem SameSetup.startRefusal (h : SameSetup n d e) : startRefusal e n = startRefusal d n := by
  simp only [Machine.startRefusal, h.cfgFlag, h.kind, h.axisCh, h.fbType]

theorem SameSetup.startSpeed (h : SameSetup n d e) (scale : Rat) : startSpeed e n scale = startSpeed d n scale := by
  have hstat (c : Fin 16) : e.flag (FB_STAT c) 0 = d.flag (FB_STAT c) 0 := by
    rw [Dev.flag, h.fbReg (fbStat_block c), ← Dev.flag]
  have hperiod : e.period = d.period :=
    congrArg BitVec.toNat (h.regs _ (by unfold TCK_PERIOD AX_CTRL; omega) (by unfold TCK_PERIOD CTL_STAT; omega))
  have hrat : periodRat e = periodRat d := by rw [periodRat, hperiod, ← periodRat]
  unfold Machine.startSpeed
  dsimp only
  rw [h.axisCh, h.ch, hstat, hperiod, hrat]

theorem SameSetup.laneEquipped (h : SameSetup n d e) : laneEquipped e n = laneEquipped d n := by
  have hcfg : e.reg (CTL_CFG n) = d.reg (CTL_CFG n) :=
    h.regs _ (by unfold CTL_CFG AX_CTRL; omega) (by unfold CTL_CFG CTL_STAT; omega)
  have hpmap : e.reg (CTL_PMAP n) = d.reg (CTL_PMAP n) :=
    h.regs _ (by unfold CTL_PMAP AX_CTRL; omega) (by unfold CTL_PMAP CTL_STAT; omega)
  have hsmap : e.reg (CTL_SMAP n) = d.reg (CTL_SMAP n) :=
    h.regs _ (by unfold CTL_SMAP AX_CTRL; omega) (by unfold CTL_SMAP CTL_STAT; omega)
  have houts : phaseOut e n = phaseOut d n := by
    unfold phaseOut Dev.fld
    rw [hpmap]
  have hchs : phaseCh e n = phaseCh d n := by
    unfold phaseCh Dev.fld
    rw [hsmap]
  have hthird : e.flag (CTL_CFG n) 2 = d.flag (CTL_CFG n) 2 := by rw [Dev.flag, hcfg, ← Dev.flag]
  have hready : sdReady e = sdReady d := by
    funext ch
    by_cases hch : ch < 24
    · have hgrp : e.reg (CTL_SDGRP (ch / 8)) = d.reg (CTL_SDGRP (ch / 8)) :=
        h.regs _ (by unfold CTL_SDGRP AX_CTRL; omega) (by unfold CTL_SDGRP CTL_STAT; omega)
      rw [sdReady, Dev.flag, hgrp, ← Dev.flag, ← sdReady]
    · rw [sdReady, sdReady, decide_eq_false hch, Bool.false_and, Bool.false_and]
  unfold Machine.laneEquipped
  rw [h.kind, houts, hchs, hthird, hready]

theorem sameSetup_ctrl (n : Fin 16) (d : Dev) (v : Word) : SameSetup n d (d.setReg (AX_CTRL n) v) :=
  ⟨rfl, fun a h _ => by rw [Dev.reg_setReg, if_neg h]⟩

theorem sameSetup_laneStat (n : Fin 16) (d : Dev) (v : Word) : SameSetup n d (d.setReg (CTL_STAT n) v) :=
  ⟨rfl, fun a _ h => by rw [Dev.reg_setReg, if_neg h]⟩

theorem sameSetup_setAxis (n : Fin 16) (d : Dev) (x : Axis) : SameSetup n d (d.setAxis n x) := ⟨rfl, fun _ _ _ => rfl⟩

end Setup

/-! ## Starts (R170 to R172) -/

section Start
variable {n : Fin 16} {d e : Dev}

theorem axCtrl_ne_laneStat (n : Fin 16) : AX_CTRL n.val ≠ CTL_STAT n.val := by
  unfold AX_CTRL CTL_STAT
  omega

/-- EN = 1 as it commits, before the start: TRIP is cleared (R210). -/
def enCommitted (n : Fin 16) (d : Dev) : Dev := Dev.setFlag (CTL_STAT n) 9 false (Dev.setFlag (AX_CTRL n) 0 true d)

theorem enCommitted_setup (n : Fin 16) (d : Dev) : SameSetup n d (enCommitted n d) :=
  (sameSetup_ctrl n d _).trans (sameSetup_laneStat n _ _)

theorem enCommitted_en (n : Fin 16) (d : Dev) : (enCommitted n d).flag (AX_CTRL n) 0 = true := by
  rw [enCommitted, Dev.flag, Dev.reg_setFlag_other _ _ _ _ _ (axCtrl_ne_laneStat n), ← Dev.flag, flag_setFlag_same (by decide)]

theorem enCommitted_onlyAxis (n : Fin 16) (d : Dev) : OnlyAxis n d (enCommitted n d) :=
  onlyAxis_trans (onlyAxis_setFlag n d _ _ _) (onlyAxis_setFlag n _ _ _ _)

theorem enCommitted_axis (n k : Fin 16) (d : Dev) : (enCommitted n d).axis k = d.axis k := by
  simp only [Dev.axis, enCommitted, Dev.setFlag_axes]

theorem enCommitted_lane (n k : Fin 16) (d : Dev) : (enCommitted n d).lane k = d.lane k := by
  simp only [Dev.lane, enCommitted, Dev.setFlag_lanes]

/-- In Run an axis that does not run starts where EN = 1 commits. -/
theorem axisEn_starts (hm : d.mode = .run) (hh : d.halted = false) (ho : (d.axis n).on = false) :
    axisEn n true d = axisStart n (enCommitted n d) := by
  have hgo : (enCommitted n d).mode = .run ∧ (enCommitted n d).halted = false ∧ ((enCommitted n d).axis n).on = false := by
    rw [enCommitted_axis, enCommitted, Dev.setFlag_mode, Dev.setFlag_mode, Dev.setFlag_halted, Dev.setFlag_halted]
    exact ⟨hm, hh, ho⟩
  exact if_pos hgo

/-- A start of axis n in a state: its axis runs from there, and its lane starts. -/
theorem axisStart_accepted (h : startRefusal d n = none) :
    ∃ x, axisStart n d = laneStart n x.blind (d.setAxis n x) ∧ x.on = true ∧
      x.blind = (decide (d.kind n = 2 ∨ d.kind n = 3) && !d.flag (AX_CFG n) 27) ∧
      (d.kind n = 1 → x.cur = ⟨posOfInt (d.ch (axisCh d n)).pos, startSpeed d n 1, 0⟩) ∧
      (d.kind n ≠ 1 → d.flag (AX_CFG n) 27 = false → x.cur = (d.axis n).cur.stopped) := by
  unfold axisStart
  rw [h]
  refine ⟨_, rfl, rfl, rfl, fun hk => if_pos hk, fun hk hf => ?_⟩
  simp only [if_neg hk, hf, Bool.false_and, Bool.false_eq_true, if_false]

/-- A lane that axis n does not drive does not start. -/
theorem laneStart_unlaned (h : laneKind d n = false) (blind : Bool) : laneStart n blind d = Dev.setFlag (CTL_STAT n) 9 false d := by
  have hk : laneKind (Dev.setFlag (CTL_STAT n) 9 false d) n = false := (sameSetup_laneStat n d _).laneKind.trans h
  unfold laneStart
  dsimp only
  rw [hk]
  rfl

/-- A lane that has what it needs starts. -/
theorem laneStart_equipped (hk : laneKind d n = true) (hc : (d.lane n).badCar = false) (he : laneEquipped d n = true)
    (blind : Bool) : ∃ l, laneStart n blind d = (Dev.setFlag (CTL_STAT n) 9 false d).setLane n l := by
  have hset := sameSetup_laneStat n d (setBit (d.reg (CTL_STAT n)) 9 false)
  have hk' : laneKind (Dev.setFlag (CTL_STAT n) 9 false d) n = true := hset.laneKind.trans hk
  have he' (l : Lane) : laneEquipped ((Dev.setFlag (CTL_STAT n) 9 false d).setLane n l) n = true := hset.laneEquipped.trans he
  have hc' : ((Dev.setFlag (CTL_STAT n) 9 false d).lane n).badCar = false := hc
  unfold laneStart
  simp only [hk', hc', he', Bool.not_true, Bool.or_false, Bool.false_eq_true, if_false]
  exact ⟨_, rfl⟩

/-- What every start that is not refused leaves: the axis as it starts, EN = 1, TRIP clear, the other axes as they were. -/
structure Started (n : Fin 16) (x : Axis) (d e : Dev) : Prop where
  axis : e.axis n = x
  en   : e.flag (AX_CTRL n) 0 = true
  trip : e.flag (CTL_STAT n) 9 = false
  only : OnlyAxis n d e

/-- The axis as it starts, with EN = 1 committed and TRIP clear. -/
theorem started_of_setAxis (x : Axis) (d : Dev) :
    Started n x d (Dev.setFlag (CTL_STAT n) 9 false ((enCommitted n d).setAxis n x)) := by
  refine ⟨?_, ?_, flag_setFlag_same (by decide) _ _ _, ?_⟩
  · rw [Dev.axis, Dev.setFlag_axes, ← Dev.axis, Dev.axis_setAxis]
  · rw [Dev.flag, Dev.reg_setFlag_other _ _ _ _ _ (axCtrl_ne_laneStat n), reg_setAxis, ← Dev.flag, enCommitted_en]
  · exact onlyAxis_trans (enCommitted_onlyAxis n d)
      (onlyAxis_trans (onlyAxis_setAxis n _ x) (onlyAxis_setFlag n _ _ _ _))

theorem Started.setLane {x : Axis} (h : Started n x d e) (l : Lane) : Started n x d (e.setLane n l) :=
  ⟨h.axis, h.en, h.trip, onlyAxis_trans h.only (onlyAxis_setLane n e n l)⟩

section Run
variable (hm : d.mode = .run) (hh : d.halted = false) (ho : (d.axis n).on = false)
include hm hh ho

/-- A servo axis starts at its channel's position and speed (R171). -/
theorem servo_starts (hk : d.kind n = 1) (hf : d.flag (AX_CFG n) 27 = true) (ht : d.fbType (axisCh d n) ≠ 0)
    (hc : (d.lane n).badCar = false) (he : laneEquipped d n = true) :
    ∃ x, Started n x d (axisEn n true d) ∧ x.on = true ∧
      x.cur = ⟨posOfInt (d.ch (axisCh d n)).pos, startSpeed d n 1, 0⟩ := by
  have hset := enCommitted_setup n d
  have href : startRefusal (enCommitted n d) n = none := by
    rw [hset.startRefusal]
    simp [startRefusal, hk, hf, ht]
  obtain ⟨x, hx, hon, -, hcur, -⟩ := axisStart_accepted href
  have hset' : SameSetup n d ((enCommitted n d).setAxis n x) := hset.trans (sameSetup_setAxis n _ x)
  have hlane : laneKind ((enCommitted n d).setAxis n x) n = true := by
    rw [hset'.laneKind, laneKind, hk]
    rfl
  have hcar : (((enCommitted n d).setAxis n x).lane n).badCar = false := by
    rw [Dev.lane, Dev.setAxis_lanes, ← Dev.lane, enCommitted_lane, hc]
  obtain ⟨l, hl⟩ := laneStart_equipped hlane hcar (hset'.laneEquipped.trans he) x.blind
  refine ⟨x, ?_, hon, ?_⟩
  · rw [axisEn_starts hm hh ho, hx, hl]
    exact (started_of_setAxis x d).setLane l
  · rw [hcur (hset.kind.trans hk), hset.axisCh, hset.ch, hset.startSpeed]

/-- A step/direction axis with BLIND and no feedback starts where it stands (R172). -/
theorem stepDirection_starts (hk : d.kind n = 3) (hf : d.flag (AX_CFG n) 27 = false) (hb : d.flag (AX_CFG n) 7 = true) :
    ∃ x, Started n x d (axisEn n true d) ∧ x.on = true ∧ x.blind = true ∧ x.cur = (d.axis n).cur.stopped := by
  have hset := enCommitted_setup n d
  have href : startRefusal (enCommitted n d) n = none := by
    rw [hset.startRefusal]
    simp [startRefusal, hk, hf, hb]
  have hk' : (enCommitted n d).kind n = 3 := hset.kind.trans hk
  obtain ⟨x, hx, hon, hblind, -, hcur⟩ := axisStart_accepted href
  have hlane : laneKind ((enCommitted n d).setAxis n x) n = false := by
    rw [(hset.trans (sameSetup_setAxis n _ x)).laneKind, laneKind, hk]
    rfl
  refine ⟨x, ?_, hon, ?_, hcur (by rw [hk']; decide) ((hset.cfgFlag 27).trans hf)⟩
  · rw [axisEn_starts hm hh ho, hx, laneStart_unlaned hlane]
    exact started_of_setAxis x d
  · rw [hblind, hk', hset.cfgFlag, hf]
    rfl

/-- A servo axis without feedback is refused with NOFB, and EN = 0 commits (R170). -/
theorem servo_refused (hk : d.kind n = 1) (hf : d.flag (AX_CFG n) 27 = false) (h2 : axMode d n ≠ 2) :
    ((axisEn n true d).axis n).on = false ∧ (axisEn n true d).flag (AX_CTRL n) 0 = false ∧ Alerted n 2 d (axisEn n true d) ∧
      OnlyAxis n d (axisEn n true d) := by
  have hset := enCommitted_setup n d
  have href : startRefusal (enCommitted n d) n = some 2 := by
    rw [hset.startRefusal]
    simp [startRefusal, hk, hf]
  have hmode : axMode (enCommitted n d) n ≠ 2 := by
    rw [axMode, Dev.fld, enCommitted, Dev.reg_setFlag_other _ _ _ _ _ (axCtrl_ne_laneStat n), Dev.flag_setFlag,
      bits_setBit_other (.inl (by decide))]
    exact h2
  have hstart : axisEn n true d = laneStop n (axAlert n 2 (Dev.setFlag (AX_CTRL n) 0 false (enCommitted n d))) := by
    rw [axisEn_starts hm hh ho, axisStart, href]
    simp only [if_neg hmode]
  have haxis : (Dev.setFlag (AX_CTRL n) 0 false (enCommitted n d)).axis n = d.axis n := by
    rw [Dev.axis, Dev.setFlag_axes, ← Dev.axis, enCommitted_axis]
  have hon : ((axAlert n 2 (Dev.setFlag (AX_CTRL n) 0 false (enCommitted n d))).axis n).on = false := by
    rw [axAlert_axis, haxis, ho]
  have hctrl : (axAlert n 2 (Dev.setFlag (AX_CTRL n) 0 false (enCommitted n d))).flag (AX_CTRL n) 0 = false := by
    rw [Dev.flag, axAlert_reg (by unfold AX_CTRL; omega) (by unfold AX_CTRL AX_STAT; omega), ← Dev.flag,
      flag_setFlag_same (by decide)]
  have honly := onlyAxis_trans (enCommitted_onlyAxis n d) (onlyAxis_trans (onlyAxis_setFlag n _ (AX_CTRL n) 0 false)
    (axAlert_onlyAxis n 2 _))
  rw [hstart, laneStop]
  exact ⟨hon, hctrl, alerted_setLane (axAlert_alerted (by decide) (by rw [haxis])) n _, onlyAxis_trans honly (onlyAxis_setLane n _ n _)⟩

end Run

/-! ## Stops (R173) -/

/-- EN = 0 outside a group: the axis stops where it stands, and its lane with it. -/
theorem axisEn_stops (h2 : axMode d n ≠ 2) (h : axEn d n = true ∨ (d.axis n).on = true) :
    ∃ x l, axisEn n false d = (Dev.setFlag (AX_CTRL n) 0 false (d.setAxis n x)).setLane n l ∧ x.on = false ∧
      x.cur = (d.axis n).cur.stopped ∧ l.drive = false := by
  have hrun : (axEn d n || (d.axis n).on) = true := by simpa using h
  unfold axisEn
  rw [if_neg Bool.false_ne_true, if_pos hrun, axisStop, if_neg h2]
  exact ⟨_, _, rfl, rfl, rfl, rfl⟩

end Start

/-! ## Gears and cams begin (R179, R182) -/

section Modes
variable {n : Fin 16} {d : Dev} {mode : Nat}

/-- Mode 3 or 4 begins where its master is there, on an axis that is in another mode and in no group. -/
theorem axisMode_begins (hm : mode = 3 ∨ mode = 4) (h2 : axMode d n ≠ 2) (hb : masterBad d n = false)
    (h : axMode d n ≠ mode) :
    axMode (axisMode n mode d) n = mode ∧ ((axisMode n mode d).axis n).locked = false ∧
      ((axisMode n mode d).axis n).armed = decide (mode = 4) ∧ ((axisMode n mode d).axis n).cur = (d.axis n).cur ∧
      OnlyAxis n d (axisMode n mode d) := by
  have heq : ∃ x : Axis, axisMode n mode d = (Dev.setFld (AX_CTRL n) 3 1 mode d).setAxis n x ∧ x.locked = false ∧
      x.armed = decide (mode = 4) ∧ x.cur = (d.axis n).cur := by
    unfold axisMode
    rw [if_neg (Ne.symm h), if_neg (by omega), if_neg (by simp [hb]), if_neg (fun hc => h2 hc.1)]
    exact ⟨_, rfl, rfl, rfl, rfl⟩
  obtain ⟨x, hx, hlocked, harmed, hcur⟩ := heq
  rw [hx]
  refine ⟨?_, ?_, ?_, ?_, onlyAxis_trans (onlyAxis_setReg n d (AX_CTRL n) _) (onlyAxis_setAxis n _ x)⟩
  · rw [axMode, Dev.fld, reg_setAxis, Dev.reg_setFld, bits_setBits_same (by decide)]
    omega
  · rw [Dev.axis_setAxis, hlocked]
  · rw [Dev.axis_setAxis, harmed]
  · rw [Dev.axis_setAxis, hcur]

/-- Where the master is not there they are refused with cause 10. -/
theorem axisMode_refused (hm : mode = 3 ∨ mode = 4) (hb : masterBad d n = true) (h : axMode d n ≠ mode) :
    axMode (axisMode n mode d) n = axMode d n ∧ Alerted n 10 d (axisMode n mode d) := by
  have heq : axisMode n mode d = axAlert n 10 d := by
    rw [axisMode, if_neg (Ne.symm h), if_neg (by omega), if_pos ⟨hm, hb⟩]
  rw [heq]
  refine ⟨?_, axAlert_alerted (by decide) rfl⟩
  rw [axMode, Dev.fld, axAlert_reg (by unfold AX_CTRL; omega) (by unfold AX_CTRL AX_STAT; omega), ← Dev.fld, ← axMode]

end Modes

end Sys2Proof.Proofs
end

section
/-! PROOFS. Step events (R174): the generator takes one step toward the commanded position. -/
namespace Sys2Proof.Proofs
open Sys2Proof Sys2Proof.Machine Sys2Proof.Claims

theorem feedStep_axes (src i : Nat) (up : Bool) (d : Dev) : (feedStep src i up d).axes = d.axes := by
  have hpass (p : Fin 2) (e : Dev) : (queuePass p e).axes = e.axes := by
    unfold queuePass
    dsimp only
    (repeat' split) <;> rfl
  have hstat (p : Fin 2) (e : Dev) : (prtStatus p e).axes = e.axes := by simp only [prtStatus, Dev.setFlag_axes]
  have hport (p : Fin 2) (e : Dev) (x : Prt) : (e.setPrt p x).axes = e.axes := rfl
  unfold feedStep
  refine forAll_keeps (π := Dev.axes) (fun k e => ?_) 2 d
  dsimp only
  split
  · rw [hstat, hpass, hport]
  · rfl

section Steps
variable {n : Fin 16} {d : Dev} {ofs : Nat}

theorem toInt_sub_eq_zero {a b : Word} : (a - b).toInt = 0 ↔ a = b := by
  rw [← BitVec.toInt_zero (w := 32), BitVec.toInt_inj]
  exact sub_eq_zero

/-- A step generator's direction is all that a step sets up before it. -/
theorem dirTo_sets (n : Fin 16) (ofs : Nat) (d : Dev) :
    ∃ back t, dirTo n ofs d = d.setAxis n { d.axis n with back := back, dirAt := t } := by
  unfold dirTo
  dsimp only
  split
  · exact ⟨(d.axis n).back, (d.axis n).dirAt, (setAxis_self d n).symm⟩
  · exact ⟨_, _, rfl⟩

/-- A step starts when it is due or later, and 2 STPHI cycles after the step before it. -/
theorem le_stepStart (d : Dev) (n : Fin 16) (due : Nat) : due ≤ (stepStart d n due).1 ∧
    ∀ t, (d.axis n).stepAt = some t → t + 2 * stepHigh d n ≤ (stepStart d n due).1 := by
  unfold stepStart
  refine ⟨le_max_left _ _, fun t ht => ?_⟩
  dsimp only
  rw [ht]
  exact le_max_of_le_right (le_max_left _ _)

/-- The generator after one step, whose pulse, on a step/direction axis, starts at t. -/
def stepTaken (x : Axis) (stp back : Bool) (t : Nat) : Axis :=
  { x with pulses := if stp then x.pulses + 1 else x.pulses, stepAt := if stp then some t else x.stepAt,
           stepPos := if back then x.stepPos - 1 else x.stepPos + 1 }

/-- The device as a step falls due. -/
def stepDue (n : Fin 16) (ofs : Nat) (d : Dev) : Dev := dirTo n (min ofs d.tickLen) (d.reachTick (min ofs d.tickLen))

/-- What is left of the way to the commanded position. -/
def stepsLeft (d : Dev) (n : Fin 16) (ofs : Nat) : Int :=
  (posInt (trajU d (d.axis n) (mkRat (min ofs d.tickLen : Nat) d.tickLen)).p - (d.axis n).stepPos).toInt

theorem stepsLeft_eq (d : Dev) (n : Fin 16) (ofs : Nat) : stepsLeft d n ofs = (commandedAt d n ofs - (d.axis n).stepPos).toInt := by
  rw [stepsLeft, commandedAt, Nat.cast_min]

theorem stepsLeft_eq_zero {d : Dev} {n : Fin 16} {ofs : Nat} :
    stepsLeft d n ofs = 0 ↔ commandedAt d n ofs = (d.axis n).stepPos := by
  rw [stepsLeft_eq, toInt_sub_eq_zero]

/-- The instant of a step and whether it is late. -/
def stepInstant (n : Fin 16) (ofs : Nat) (d : Dev) : Nat × Bool :=
  stepStart (stepDue n ofs d) n ((stepDue n ofs d).tick.edgeAt + min ofs d.tickLen)

/-- The device after a step, before the alert of a late one. -/
def stepFed (n : Fin 16) (ofs : Nat) (d : Dev) : Dev :=
  feedStep 1 n (!decide (stepsLeft d n ofs < 0)) ((stepDue n ofs d).setAxis n (stepTaken ((stepDue n ofs d).axis n)
    (decide ((stepDue n ofs d).kind n = 3)) (decide (stepsLeft d n ofs < 0)) (stepInstant n ofs d).1))

theorem stepPulse_idle (h : commandedAt d n ofs = (d.axis n).stepPos) : stepPulse n ofs d = d := by
  exact if_pos ((Bool.or_eq_true _ _).mpr (.inr (decide_eq_true (stepsLeft_eq_zero.mpr h))))

theorem stepPulse_steps (ho : (d.axis n).on = true) (hm : d.mode = .run) (hh : d.halted = false)
    (h : commandedAt d n ofs ≠ (d.axis n).stepPos) : stepPulse n ofs d =
      if ((stepInstant n ofs d).2 && decide ((stepDue n ofs d).kind n = 3)) = true then
        axAlert n 8 (Dev.setFlag (AX_STAT n) 11 true (stepFed n ofs d))
      else stepFed n ofs d := by
  have hne : stepsLeft d n ofs ≠ 0 := fun hc => h (stepsLeft_eq_zero.mp hc)
  have hgo : ¬ (!((d.axis n).on && decide (d.mode = .run) && !d.halted) || decide (stepsLeft d n ofs = 0)) = true := by
    simp [ho, hm, hh, hne]
  exact if_neg hgo

/-- A late step alerts beside what it does. -/
theorem stepPulse_leaves (ho : (d.axis n).on = true) (hm : d.mode = .run) (hh : d.halted = false)
    (h : commandedAt d n ofs ≠ (d.axis n).stepPos) :
    OnlyAxis n (stepFed n ofs d) (stepPulse n ofs d) ∧
      ∃ k, (stepPulse n ofs d).axis n = { (stepFed n ofs d).axis n with alerts := k } := by
  rw [stepPulse_steps ho hm hh h]
  split
  · exact ⟨onlyAxis_trans (onlyAxis_setFlag n _ _ _ _) (axAlert_onlyAxis n 8 _), _, axAlert_axis n 8 _⟩
  · exact ⟨onlyAxis_of_axes (BesideFb.refl _).elsewhere rfl, _, rfl⟩

theorem stepFed_onlyAxis (n : Fin 16) (ofs : Nat) (d : Dev) : OnlyAxis n d (stepFed n ofs d) := by
  have hdue : OnlyAxis n d (stepDue n ofs d) := by
    obtain ⟨back, t, hdir⟩ := dirTo_sets n (min ofs d.tickLen) (d.reachTick (min ofs d.tickLen))
    rw [stepDue, hdir]
    exact onlyAxis_trans (onlyAxis_of_axes (besideFb_reach d _).elsewhere rfl) (onlyAxis_setAxis n _ _)
  exact onlyAxis_trans hdue (onlyAxis_trans (onlyAxis_setAxis n _ _)
    (onlyAxis_of_axes (besideFb_feedStep 1 n _ _).elsewhere (feedStep_axes _ _ _ _)))

/-- The setup of a step leaves the generator's count, its pulses and the last of them. -/
theorem stepDue_axis (n : Fin 16) (ofs : Nat) (d : Dev) :
    ∃ back t, (stepDue n ofs d).axis n = { d.axis n with back := back, dirAt := t } := by
  obtain ⟨back, t, hdir⟩ := dirTo_sets n (min ofs d.tickLen) (d.reachTick (min ofs d.tickLen))
  rw [stepDue, hdir]
  exact ⟨back, t, Dev.axis_setAxis _ n _⟩

theorem stepDue_regs (n : Fin 16) (ofs : Nat) (d : Dev) : (stepDue n ofs d).regs = d.regs := by
  obtain ⟨back, t, hdir⟩ := dirTo_sets n (min ofs d.tickLen) (d.reachTick (min ofs d.tickLen))
  rw [stepDue, hdir]
  rfl

theorem stepDue_tick (n : Fin 16) (ofs : Nat) (d : Dev) : (stepDue n ofs d).tick = d.tick := by
  obtain ⟨back, t, hdir⟩ := dirTo_sets n (min ofs d.tickLen) (d.reachTick (min ofs d.tickLen))
  rw [stepDue, hdir]
  rfl

theorem stepDue_kind (n : Fin 16) (ofs : Nat) (d : Dev) : (stepDue n ofs d).kind n = d.kind n := by
  rw [Dev.kind, Dev.fld, Dev.reg_congr (stepDue_regs n ofs d), ← Dev.fld, ← Dev.kind]

theorem stepFed_axis (n : Fin 16) (ofs : Nat) (d : Dev) : ∃ back t, (stepFed n ofs d).axis n =
    stepTaken { d.axis n with back := back, dirAt := t } (decide (d.kind n = 3)) (decide (stepsLeft d n ofs < 0))
      (stepInstant n ofs d).1 := by
  obtain ⟨back, t, hx⟩ := stepDue_axis n ofs d
  refine ⟨back, t, ?_⟩
  rw [stepFed, Dev.axis, feedStep_axes, ← Dev.axis, Dev.axis_setAxis, hx, stepDue_kind]

/-- The pulse of a step starts when the step is due or later, and 2 STPHI cycles after the pulse before it (R174). -/
theorem le_stepInstant (n : Fin 16) (ofs : Nat) (d : Dev) :
    d.tick.edgeAt + min ofs d.tickLen ≤ (stepInstant n ofs d).1 ∧
      ∀ t, (d.axis n).stepAt = some t → t + 2 * stepHigh d n ≤ (stepInstant n ofs d).1 := by
  have hstart := le_stepStart (stepDue n ofs d) n ((stepDue n ofs d).tick.edgeAt + min ofs d.tickLen)
  have hhigh : stepHigh (stepDue n ofs d) n = stepHigh d n := by
    rw [stepHigh, Dev.fld, Dev.reg_congr (stepDue_regs n ofs d), ← Dev.fld, ← stepHigh]
  have hlast : ((stepDue n ofs d).axis n).stepAt = (d.axis n).stepAt := by
    obtain ⟨back, t, hx⟩ := stepDue_axis n ofs d
    rw [hx]
  rw [hhigh, hlast] at hstart
  rw [← stepDue_tick n ofs d]
  exact hstart

/-- A step event: one step nearer, a pulse on a step/direction axis alone. -/
theorem stepPulse_nearer (ho : (d.axis n).on = true) (hm : d.mode = .run) (hh : d.halted = false)
    (h : commandedAt d n ofs ≠ (d.axis n).stepPos) :
    ((stepPulse n ofs d).axis n).stepPos =
        (if 0 < stepsLeft d n ofs then (d.axis n).stepPos + 1 else (d.axis n).stepPos - 1) ∧
      ((stepPulse n ofs d).axis n).pulses = (d.axis n).pulses + (if d.kind n = 3 then 1 else 0) ∧
      OnlyAxis n d (stepPulse n ofs d) ∧
      (d.kind n = 3 → ((stepPulse n ofs d).axis n).stepAt = some (stepInstant n ofs d).1) := by
  have hne : stepsLeft d n ofs ≠ 0 := fun hc => h (stepsLeft_eq_zero.mp hc)
  obtain ⟨honly, k, hlate⟩ := stepPulse_leaves ho hm hh h
  obtain ⟨back, t, hfed⟩ := stepFed_axis n ofs d
  rw [hlate, hfed]
  refine ⟨?_, ?_, onlyAxis_trans (stepFed_onlyAxis n ofs d) honly, fun hk => ?_⟩
  · by_cases hpos : 0 < stepsLeft d n ofs
    · simp [stepTaken, hpos, not_lt_of_gt hpos]
    · have hneg : stepsLeft d n ofs < 0 := by omega
      simp [stepTaken, hpos, hneg]
  · by_cases hk : d.kind n = 3 <;> simp [stepTaken, hk]
  · simp [stepTaken, hk]

end Steps

end Sys2Proof.Proofs
end

section
/-! PROOFS. Groups and segments (R175 to R178): SEGPUSH and FLUSH, and the end of a running segment. -/
namespace Sys2Proof.Proofs
open Sys2Proof Sys2Proof.Machine Sys2Proof.Claims

section Members
variable {d e : Dev} {g : Nat} {n m : Fin 16}

theorem members_congr (h : e.reg (AX_GRP g) = d.reg (AX_GRP g)) : members e g = members d g := by
  simp only [members, Dev.flag, h]

theorem leadOf_congr (h : e.reg (AX_GRP g) = d.reg (AX_GRP g)) : leadOf e g = leadOf d g := by
  rw [leadOf, members_congr h, ← leadOf]

theorem members_nodup (d : Dev) (g : Nat) : (members d g).Nodup := (List.nodup_finRange 16).filter _

theorem mem_members_of_lead (h : leadOf d g = some m) : m ∈ members d g := List.mem_of_head? h

/-- A segment that names each of a list of axes once ends each where its own entry says. -/
theorem endOf_named {ms : List (Fin 16)} (hm : m ∈ ms) (dur : Nat) (p v : Fin 16 → Word) :
    (Seg.mk dur (ms.map (fun k => (k.val, p k, v k)))).endOf m = (p m, v m) := by
  have hfind : (ms.map (fun k => (k.val, p k, v k))).find? (fun e => decide (e.1 = m.val)) = some (m.val, p m, v m) := by
    induction ms with
    | nil => cases hm
    | cons k t ih =>
      by_cases hk : k = m
      · subst hk
        exact List.find?_cons_of_pos (decide_eq_true rfl)
      · have hval : ¬ (fun e : Nat × Word × Word => decide (e.1 = m.val)) (k.val, p k, v k) = true := by
          simpa using fun hc => hk (Fin.ext hc)
        rw [List.map_cons, List.find?_cons_of_neg (p := fun e : Nat × Word × Word => decide (e.1 = m.val)) hval]
        exact ih ((List.mem_cons.mp hm).resolve_left (Ne.symm hk))
  unfold Seg.endOf
  rw [hfind]

end Members

/-! ## SEGPUSH and FLUSH (R176) -/

section Push
variable {d : Dev} {n : Fin 16} {g : Fin 4}

theorem legalOr_of_legal {lo hi v : Nat} (h1 : lo ≤ v) (h2 : v ≤ hi) : legalOr d lo hi v = v := if_pos ⟨h1, h2⟩

theorem segPush_full (hl : ledBy d n = some g) (h : 32 ≤ (d.group g).queue.length) : segPush n d = axAlert n 6 d := by
  unfold segPush
  rw [hl]
  exact if_pos h

/-- Where every member's path keeps its limits the segment joins the queue. -/
theorem segPush_queues (hl : ledBy d n = some g) (hq : (d.group g).queue.length < 32) (h1 : 1 ≤ (d.reg (AX_SEGDUR n)).toNat)
    (h2 : (d.reg (AX_SEGDUR n)).toNat ≤ 65535)
    (hok : ∀ m, m ∈ members d g → hermiteOk d m (hermiteOf d (d.reg (AX_SEGDUR n)).toNat (pushStart d (d.group g) m)
      (d.reg (AX_SEGPOS m), d.reg (AX_SEGVEL m))) (d.reg (AX_SEGVEL m)) = true) :
    segPush n d = d.setGroup g { d.group g with queue := (d.group g).queue ++ [⟨(d.reg (AX_SEGDUR n)).toNat,
      (members d g).map (fun (m : Fin 16) => (m.val, d.reg (AX_SEGPOS m), d.reg (AX_SEGVEL m)))⟩] } := by
  unfold segPush
  rw [hl]
  dsimp only
  rw [if_neg (Nat.not_le.mpr hq), legalOr_of_legal h1 h2, if_pos]
  refine List.all_eq_true.mpr (fun m hm => ?_)
  rw [endOf_named hm _ (fun k : Fin 16 => d.reg (AX_SEGPOS k)) (fun k : Fin 16 => d.reg (AX_SEGVEL k))]
  exact hok m hm

theorem segFlush_empties (hl : ledBy d n = some g) : segFlush n d = d.setGroup g { d.group g with queue := [] } := by
  unfold segFlush
  rw [hl]

end Push

/-! ## The end of a segment (R177, R178) -/

section End
variable {d e : Dev} {n m : Fin 16} {g : Fin 4} {sg nx : Seg} {t : List Seg}

theorem group_setGroup (d : Dev) (g : Fin 4) (x : Group) : (d.setGroup g x).group g = x := by
  simp [Dev.group, Dev.setGroup]

theorem elsewhere_refl (d : Dev) : Elsewhere d d := (BesideFb.refl d).elsewhere

theorem elsewhere_setGroup (d : Dev) (g : Fin 4) (x : Group) : Elsewhere d (d.setGroup g x) :=
  ⟨rfl, rfl, rfl, rfl, ⟨rfl, rfl⟩, rfl, rfl, rfl, rfl⟩

theorem elsewhere_foldl {ι : Type} {f : Dev → ι → Dev} (h : ∀ e i, Elsewhere e (f e i)) (l : List ι) (d : Dev) :
    Elsewhere d (l.foldl f d) :=
  List.foldlRecOn (motive := Elsewhere d) l f (elsewhere_refl d) (fun e he i _ => elsewhere_trans he (h e i))

/-- A member of the group that starts a segment: its acceleration is the path's at its start. -/
def memberStarts (s : Seg) (d : Dev) (m : Fin 16) : Dev :=
  d.setAxis m { d.axis m with settle := none, cur := { (d.axis m).cur with
    a := i32OfRat ((hermiteOf d s.dur (d.axis m).cur (s.endOf m)).acc 0) } }

/-- The next segment of the queue runs from where its members start it. -/
theorem segStart_eq (h : (d.group g).queue = nx :: t) : ∃ st, segStart g d = ((members d g).foldl (memberStarts nx) d).setGroup g
    ⟨t, some (nx, ((members d g).foldl (memberStarts nx) d).tick.count, st), false⟩ := by
  unfold segStart
  dsimp only
  rw [h]
  exact ⟨_, rfl⟩

theorem segStart_starts (h : (d.group g).queue = nx :: t) :
    ∃ st, (segStart g d).group g = ⟨t, some (nx, d.tick.count, st), false⟩ ∧ (segStart g d).regs = d.regs ∧
      Elsewhere d (segStart g d) := by
  have hregs : ((members d g).foldl (memberStarts nx) d).regs = d.regs :=
    foldl_keeps (π := Dev.regs) (f := memberStarts nx) (fun _ _ => rfl) _ _
  have helse : Elsewhere d ((members d g).foldl (memberStarts nx) d) :=
    elsewhere_foldl (fun e m => (besideFb_setAxis e m _).elsewhere) _ _
  obtain ⟨st, hst⟩ := segStart_eq h
  rw [hst]
  refine ⟨st, ?_, hregs, elsewhere_trans helse (elsewhere_setGroup _ g _)⟩
  rw [group_setGroup, helse.tick]

/-- Group g with nothing that runs. -/
def segOver (g : Fin 4) (d : Dev) : Dev := d.setGroup g { d.group g with running := none }

theorem segOver_group (g : Fin 4) (d : Dev) : (segOver g d).group g = { d.group g with running := none } := group_setGroup d g _

theorem segOver_elsewhere (g : Fin 4) (d : Dev) : Elsewhere d (segOver g d) := elsewhere_setGroup d g _

/-- The members of group g at the end of a segment that ends at rest. -/
def segRested (sg : Seg) (g : Fin 4) (d : Dev) : Dev :=
  (members d g).foldl (fun (e : Dev) (k : Fin 16) => segRest sg k e) (segOver g d)

/-- A member of a group that starves. -/
def memberHalts (d : Dev) (m : Fin 16) : Dev :=
  Dev.setFlag (AX_STAT m) 10 true (d.setAxis m { d.axis m with halting := true })

/-- The members of group g at the end of its last segment, which does not end at rest. -/
def segStarved (g : Fin 4) (d : Dev) : Dev :=
  (members d g).foldl memberHalts ((segOver g d).setGroup g { (segOver g d).group g with starved := true })

/-- What a member that comes to rest becomes: at rest at the end of its path, or about to come to rest there. -/
def restAt (p : BitVec 48) (x : Axis) : Axis := if x.cur.p = p then { x with cur := x.cur.stopped } else { x with settle := some p }

theorem segRested_regs (sg : Seg) (g : Fin 4) (d : Dev) : (segRested sg g d).regs = d.regs :=
  foldl_keeps (π := Dev.regs) (f := fun e k => segRest sg k e) (fun _ _ => rfl) _ (segOver g d)

theorem segRested_group (sg : Seg) (g : Fin 4) (d : Dev) : (segRested sg g d).group g = { d.group g with running := none } :=
  (foldl_keeps (π := fun e : Dev => e.group g) (f := fun e k => segRest sg k e) (fun _ _ => rfl) _ (segOver g d)).trans
    (segOver_group g d)

theorem segRested_elsewhere (sg : Seg) (g : Fin 4) (d : Dev) : Elsewhere d (segRested sg g d) :=
  elsewhere_trans (segOver_elsewhere g d) (elsewhere_foldl (fun e k => (besideFb_setAxis e k _).elsewhere) _ _)

theorem segRested_axis (hm : m ∈ members d g) (sg : Seg) :
    (segRested sg g d).axis m = restAt (posOfInt (sg.endOf m).1) (d.axis m) :=
  foldl_at (π := fun e : Dev => e.axis m) (f := fun e k => segRest sg k e) (g := restAt (posOfInt (sg.endOf m).1))
    (fun _ hi e => Dev.axis_setAxis_other e m _ _ (Ne.symm hi)) (fun e => Dev.axis_setAxis e m _) (members_nodup d g) hm
    (segOver g d)

theorem memberHalts_reg {a : Nat} {k : Fin 16} (h : a ≠ AX_STAT k) (d : Dev) : (memberHalts d k).reg a = d.reg a := by
  rw [memberHalts, Dev.reg_setFlag_other _ _ _ _ _ h, reg_setAxis]

theorem segStarved_group (g : Fin 4) (d : Dev) :
    (segStarved g d).group g = { d.group g with running := none, starved := true } := by
  have hkeeps := foldl_keeps (π := fun e : Dev => e.group g) (f := memberHalts) (fun _ _ => rfl) (members d g)
    ((segOver g d).setGroup g { (segOver g d).group g with starved := true })
  exact hkeeps.trans ((group_setGroup _ g _).trans (by rw [segOver_group]))

theorem segStarved_elsewhere (g : Fin 4) (d : Dev) : Elsewhere d (segStarved g d) :=
  elsewhere_trans (segOver_elsewhere g d) (elsewhere_trans (elsewhere_setGroup _ g _)
    (elsewhere_foldl (fun e k => elsewhere_trans (besideFb_setAxis e k _).elsewhere (sameCh_setFlag _ _ 10 true).elsewhere) _ _))

theorem segStarved_grp (g : Fin 4) (d : Dev) : (segStarved g d).reg (AX_GRP g) = d.reg (AX_GRP g) :=
  foldl_keeps (π := fun e : Dev => e.reg (AX_GRP g)) (f := memberHalts)
    (fun e k => memberHalts_reg (by unfold AX_GRP AX_STAT; omega) e) _
    ((segOver g d).setGroup g { (segOver g d).group g with starved := true })

theorem segStarved_axis (hm : m ∈ members d g) : (segStarved g d).axis m = { d.axis m with halting := true } :=
  foldl_at (π := fun e : Dev => e.axis m) (f := memberHalts) (g := fun x => { x with halting := true })
    (fun _ hi e => Dev.axis_setAxis_other e m _ _ (Ne.symm hi)) (fun e => Dev.axis_setAxis e m _) (members_nodup d g) hm
    ((segOver g d).setGroup g { (segOver g d).group g with starved := true })

theorem segStarved_flag (hm : m ∈ members d g) : (segStarved g d).flag (AX_STAT m) 10 = true := by
  have hother (i : Fin 16) (hi : i ≠ m) (e : Dev) : (memberHalts e i).flag (AX_STAT m) 10 = e.flag (AX_STAT m) 10 := by
    rw [Dev.flag, memberHalts_reg (axStat_ne (Ne.symm hi)), ← Dev.flag]
  exact foldl_at (π := fun e : Dev => e.flag (AX_STAT m) 10) (f := memberHalts) (g := fun _ => true) hother
    (fun e => flag_setFlag_same (by decide) _ _ _) (members_nodup d g) hm
    ((segOver g d).setGroup g { (segOver g d).group g with starved := true })

section Over
variable {c0 : DWord} {st : List (Nat × Traj)} (hr : (d.group g).running = some (sg, c0, st))
  (hdur : sg.dur ≤ (d.tick.count - c0).toNat)
include hr hdur

theorem segEnd_next (hq : (d.group g).queue = nx :: t) : segEnd true g d = segStart g (segOver g d) := by
  have hsome : (!(d.group g).queue.isEmpty) = true := by rw [hq]; rfl
  unfold segEnd
  dsimp only
  rw [hr]
  dsimp only
  rw [if_neg (Nat.not_lt.mpr hdur), if_pos hsome]
  rfl

/-- At the end of the last segment it turns on whether the segment ends at rest; the group's lead reports. -/
theorem segEnd_last (hq : (d.group g).queue = []) (hm : leadOf d g = some m) : segEnd true g d =
    if sg.ends.all (fun e => decide (iSign e.2.2 = 0)) then axDone m (segRested sg g d) else axAlert m 4 (segStarved g d) := by
  have hnone : ¬ (!(d.group g).queue.isEmpty) = true := by rw [hq]; decide
  have hrest : leadOf (segRested sg g d) g = some m := (leadOf_congr (Dev.reg_congr (segRested_regs sg g d) _)).trans hm
  have hstarve : leadOf (segStarved g d) g = some m := (leadOf_congr (segStarved_grp g d)).trans hm
  have heq : segEnd true g d = if sg.ends.all (fun e => decide (iSign e.2.2 = 0)) then
      (match leadOf (segRested sg g d) g with
        | some k => axDone k (segRested sg g d)
        | none => segRested sg g d)
      else match leadOf (segStarved g d) g with
        | some k => axAlert k 4 (segStarved g d)
        | none => segStarved g d := by
    unfold segEnd
    dsimp only
    rw [hr]
    dsimp only
    rw [if_neg (Nat.not_lt.mpr hdur), if_neg hnone]
    rfl
  rw [heq, hrest, hstarve]

end Over

end End

end Sys2Proof.Proofs
end

section
/-! PROOFS. Axis enable, controls, step events and segments (08_motion.md), said of the commands. -/
namespace Sys2Proof.Proofs
open Sys2Proof Sys2Proof.Machine Sys2Proof.Claims

/-! ## The commands at a committing edge -/

section Commands
variable {n : Fin 16} {g : Fin 4} {s : State} (h : ticking s.dev = true)
include h

theorem exec_axisEnable : exec (.axisEnable n) s = .next { s with dev := axisEn n true s.dev } := atEdge_ticking h _

theorem exec_axisDisable : exec (.axisDisable n) s = .next { s with dev := axisEn n false s.dev } := atEdge_ticking h _

theorem exec_qstop : exec (.qstop n) s = .next { s with dev := Dev.setFlag (AX_CTRL n) 4 true s.dev } := atEdge_ticking h _

theorem exec_gearMode : exec (.gearMode n) s = .next { s with dev := axisMode n 3 s.dev } := atEdge_ticking h _

theorem exec_camArm : exec (.camArm n) s = .next { s with dev := axisMode n 4 s.dev } := atEdge_ticking h _

theorem exec_segpush : exec (.segpush n) s = .next { s with dev := segPush n s.dev } := atEdge_ticking h _

theorem exec_flush : exec (.flush n) s = .next { s with dev := segFlush n s.dev } := atEdge_ticking h _

theorem exec_segmentEnd : exec (.segmentEnd g) s = .next { s with dev := segEnd true g s.dev } := atEdge_ticking h _

theorem not_halted_of_ticking : s.dev.halted = false := by
  obtain ⟨⟨⟨-, hhalted⟩, -⟩, -⟩ : ((s.dev.ready = true ∧ s.dev.halted = false) ∧ s.dev.pw.stopped = false) ∧
      monHeld s.dev = false := by
    simpa [ticking] using h
  exact hhalted

end Commands

/-! ## A stop leaves (R173) -/

theorem axisDisable_stops {n : Fin 16} {s : State} (h : ticking s.dev = true) (h2 : axMode s.dev n ≠ 2)
    (he : axEn s.dev n = true ∨ (s.dev.axis n).on = true) :
    ∃ d, exec (.axisDisable n) s = .next { s with dev := d } ∧ (d.axis n).on = false ∧
      (d.axis n).cur = { (s.dev.axis n).cur with v := 0, a := 0 } ∧ (d.lane n).drive = false ∧
      d.reg (AX_CTRL n) = setBit (s.dev.reg (AX_CTRL n)) 0 false ∧ (∀ a, a ≠ AX_CTRL n → d.reg a = s.dev.reg a) ∧
      OnlyAxis n s.dev d := by
  obtain ⟨x, l, hstop, hon, hcur, hdrive⟩ := axisEn_stops h2 he
  have haxis : ((Dev.setFlag (AX_CTRL n) 0 false (s.dev.setAxis n x)).setLane n l).axis n = x := Dev.axis_setAxis s.dev n x
  refine ⟨_, exec_axisDisable h, ?_⟩
  rw [hstop, haxis, Dev.lane_setLane]
  refine ⟨hon, hcur, hdrive, ?_, fun a ha => ?_, ?_⟩
  · exact Dev.flag_setFlag (s.dev.setAxis n x) (AX_CTRL n) 0 false
  · exact Dev.reg_setFlag_other (s.dev.setAxis n x) (AX_CTRL n) a 0 false ha
  · exact onlyAxis_trans (onlyAxis_setAxis n _ x) (onlyAxis_trans (onlyAxis_setFlag n _ (AX_CTRL n) 0 false)
      (onlyAxis_setLane n _ n l))

/-! ## Starts, said of the command -/

section Enable
variable {n : Fin 16} {s : State} (h : ticking s.dev = true) (hm : s.dev.mode = .run) (ho : (s.dev.axis n).on = false)
include h hm ho

theorem axisEnable_servo (hk : s.dev.kind n = 1) (hf : s.dev.flag (AX_CFG n) 27 = true) (ht : s.dev.fbType (axisCh s.dev n) ≠ 0)
    (hc : (s.dev.lane n).badCar = false) (he : laneEquipped s.dev n = true) :
    ∃ d, exec (.axisEnable n) s = .next { s with dev := d } ∧ (d.axis n).on = true ∧
      (d.axis n).cur = ⟨posOfInt (s.dev.ch (axisCh s.dev n)).pos, startSpeed s.dev n 1, 0⟩ ∧
      d.flag (AX_CTRL n) 0 = true ∧ d.flag (CTL_STAT n) 9 = false ∧ OnlyAxis n s.dev d := by
  obtain ⟨x, hstart, hon, hcur⟩ := servo_starts hm (not_halted_of_ticking h) ho hk hf ht hc he
  exact ⟨_, exec_axisEnable h, by rw [hstart.axis, hon], by rw [hstart.axis, hcur], hstart.en, hstart.trip, hstart.only⟩

theorem axisEnable_blind (hk : s.dev.kind n = 3) (hf : s.dev.flag (AX_CFG n) 27 = false) (hb : s.dev.flag (AX_CFG n) 7 = true) :
    ∃ d, exec (.axisEnable n) s = .next { s with dev := d } ∧ (d.axis n).on = true ∧ (d.axis n).blind = true ∧
      (d.axis n).cur = (s.dev.axis n).cur.stopped ∧ d.flag (AX_CTRL n) 0 = true ∧ OnlyAxis n s.dev d := by
  obtain ⟨x, hstart, hon, hblind, hcur⟩ := stepDirection_starts hm (not_halted_of_ticking h) ho hk hf hb
  exact ⟨_, exec_axisEnable h, by rw [hstart.axis, hon], by rw [hstart.axis, hblind], by rw [hstart.axis, hcur], hstart.en,
    hstart.only⟩

end Enable

/-! ## Step events, said of the command -/

section StepEvent
variable {n : Fin 16} {s : State} {ofs : Nat}

theorem exec_stepPulse (n : Fin 16) (ofs : Nat) (s : State) :
    exec (.stepPulse n ofs) s = .next { s with dev := stepPulse n ofs s.dev } := rfl

theorem stepEvent_nearer (ho : (s.dev.axis n).on = true) (hm : s.dev.mode = .run) (hh : s.dev.halted = false)
    (hne : commandedAt s.dev n ofs ≠ (s.dev.axis n).stepPos) :
    ∃ d, exec (.stepPulse n ofs) s = .next { s with dev := d } ∧
      (d.axis n).stepPos = (if 0 < (commandedAt s.dev n ofs - (s.dev.axis n).stepPos).toInt
        then (s.dev.axis n).stepPos + 1 else (s.dev.axis n).stepPos - 1) ∧
      (d.axis n).pulses = (s.dev.axis n).pulses + (if s.dev.kind n = 3 then 1 else 0) ∧ OnlyAxis n s.dev d ∧
      (s.dev.kind n = 3 → ∃ t, (d.axis n).stepAt = some t ∧ s.dev.tick.edgeAt + min ofs s.dev.tickLen ≤ t ∧
        ∀ t0, (s.dev.axis n).stepAt = some t0 → t0 + 2 * stepHigh s.dev n ≤ t) := by
  obtain ⟨hpos, hpulses, honly, hat⟩ := stepPulse_nearer ho hm hh hne
  rw [stepsLeft_eq] at hpos
  exact ⟨_, exec_stepPulse n ofs s, hpos, hpulses, honly, fun hk => ⟨_, hat hk, le_stepInstant n ofs s.dev⟩⟩

end StepEvent

/-! ## Segments, said of the commands -/

section SegmentEnd
variable {n m : Fin 16} {g : Fin 4} {s : State} {sg nx : Seg} {t : List Seg} {c0 : DWord} {st : List (Nat × Traj)}

theorem segpush_refused (h : ticking s.dev = true) (hl : ledBy s.dev n = some g) (hq : 32 ≤ (s.dev.group g).queue.length) :
    ∃ d, exec (.segpush n) s = .next { s with dev := d } ∧ Alerted n 6 s.dev d ∧ d.groups = s.dev.groups ∧
      OnlyAxis n s.dev d := by
  refine ⟨_, exec_segpush h, ?_⟩
  rw [segPush_full hl hq]
  exact ⟨axAlert_alerted (by decide) rfl, axAlert_groups n 6 _, axAlert_onlyAxis n 6 _⟩

variable (h : ticking s.dev = true) (hr : (s.dev.group g).running = some (sg, c0, st))
  (hdur : sg.dur ≤ (s.dev.tick.count - c0).toNat)
include h hr hdur

theorem segmentEnd_next (hq : (s.dev.group g).queue = nx :: t) : ∃ d st', exec (.segmentEnd g) s = .next { s with dev := d } ∧
    d.group g = ⟨t, some (nx, s.dev.tick.count, st'), false⟩ ∧ d.regs = s.dev.regs ∧ Elsewhere s.dev d := by
  have hqueue : ((segOver g s.dev).group g).queue = nx :: t := by rw [segOver_group, hq]
  obtain ⟨st', hgroup, hregs, helse⟩ := segStart_starts hqueue
  refine ⟨_, st', exec_segmentEnd h, ?_⟩
  rw [segEnd_next hr hdur hq]
  exact ⟨hgroup, hregs, elsewhere_trans (segOver_elsewhere g _) helse⟩

/-- A segment that ends at rest: its group is done. -/
theorem segmentEnd_done (hq : (s.dev.group g).queue = []) (hm : leadOf s.dev g = some m)
    (hv : ∀ e, e ∈ sg.ends → iSign e.2.2 = 0) : ∃ d, exec (.segmentEnd g) s = .next { s with dev := d } ∧
      (d.group g).running = none ∧ d.flag (AX_STAT m) 7 = true ∧ Elsewhere s.dev d ∧
      if (s.dev.axis m).cur.p = posOfInt (sg.endOf m).1 then (d.axis m).cur = (s.dev.axis m).cur.stopped
      else (d.axis m).settle = some (posOfInt (sg.endOf m).1) := by
  have hall : sg.ends.all (fun e => decide (iSign e.2.2 = 0)) = true := by simpa using hv
  have hgroup : (axDone m (segRested sg g s.dev)).group g = { s.dev.group g with running := none } := by
    rw [Dev.group, axDone_groups, ← Dev.group, segRested_group]
  have haxis : (axDone m (segRested sg g s.dev)).axis m = restAt (posOfInt (sg.endOf m).1) (s.dev.axis m) := by
    rw [Dev.axis, axDone_axes, ← Dev.axis, segRested_axis (mem_members_of_lead hm)]
  refine ⟨_, exec_segmentEnd h, ?_⟩
  rw [segEnd_last hr hdur hq hm, if_pos hall, hgroup, haxis, restAt]
  refine ⟨rfl, axDone_flag m _, elsewhere_trans (segRested_elsewhere sg g _) (axDone_onlyAxis m _).1, ?_⟩
  split
  · rfl
  · rfl

/-- A segment that does not end at rest: its group starves (R178). -/
theorem segmentEnd_starves (hq : (s.dev.group g).queue = []) (hm : leadOf s.dev g = some m)
    (hv : ∃ e, e ∈ sg.ends ∧ iSign e.2.2 ≠ 0) : ∃ d, exec (.segmentEnd g) s = .next { s with dev := d } ∧
      (d.group g).running = none ∧ (d.group g).starved = true ∧ (d.axis m).halting = true ∧
      d.flag (AX_STAT m) 10 = true ∧ Alerted m 4 s.dev d ∧ Elsewhere s.dev d := by
  have hall : ¬ sg.ends.all (fun e => decide (iSign e.2.2 = 0)) = true := by simpa using hv
  have hmem := mem_members_of_lead hm
  have hgroup : (axAlert m 4 (segStarved g s.dev)).group g = { s.dev.group g with running := none, starved := true } := by
    rw [Dev.group, axAlert_groups, ← Dev.group, segStarved_group]
  refine ⟨_, exec_segmentEnd h, ?_⟩
  rw [segEnd_last hr hdur hq hm, if_neg hall, hgroup]
  refine ⟨rfl, rfl, ?_, ?_, axAlert_alerted (by decide) (by rw [segStarved_axis hmem]),
    elsewhere_trans (segStarved_elsewhere g _) (axAlert_onlyAxis m 4 _).1⟩
  · rw [axAlert_axis, segStarved_axis hmem]
  · rw [axAlert_flag (by decide) (by decide), segStarved_flag hmem]

end SegmentEnd

/-! ## The obligation -/

/-- Settles O21: a start by the axis's kind and feedback, a stop, QSTOP and the modes by what they write, a step event by which side
of the generator the commanded position lies, and the end of a segment by the queue and the velocities at its end. -/
theorem axes : Obligations.Axes := by
  unfold Obligations.Axes
  refine ⟨fun n s h => ⟨fun hm ho => ⟨axisEnable_servo h hm ho, axisEnable_blind h hm ho, fun hk hf h2 => ?_⟩,
      axisDisable_stops h⟩,
    fun n s => ⟨fun h => ?_, fun h h2 hb => ⟨fun h3 => ?_, fun h4 => ?_⟩, fun h hb h3 h4 => ⟨?_, ?_⟩, fun p m w hr => ?_,
      fun ofs ho hm hh => ⟨stepEvent_nearer ho hm hh, fun he => ?_⟩, rfl⟩,
    fun n g s h hl => ⟨fun e he hq h1 h2 hok => ?_, segpush_refused h hl, ?_⟩,
    fun g s sg c0 st h hr hdur => ⟨fun nx t hq => segmentEnd_next h hr hdur hq,
      fun m hq hm => ⟨segmentEnd_done h hr hdur hq hm, segmentEnd_starves h hr hdur hq hm⟩⟩⟩
  · exact ⟨_, exec_axisEnable h, servo_refused hm (not_halted_of_ticking h) ho hk hf h2⟩
  · exact ⟨_, exec_qstop h, setReg_setsReg _ _ _⟩
  · exact ⟨_, exec_gearMode h, axisMode_begins (.inl rfl) h2 hb h3⟩
  · exact ⟨_, exec_camArm h, axisMode_begins (.inr rfl) h2 hb h4⟩
  · exact ⟨_, exec_gearMode h, axisMode_refused (.inl rfl) hb h3⟩
  · exact ⟨_, exec_camArm h, axisMode_refused (.inr rfl) hb h4⟩
  · have hexec : exec (.limitInput n p m w) s =
        onReady (fun d => d.setAxis n { d.axis n with limP := p, limN := m, home := w }) s := rfl
    rw [hexec, onReady, if_pos hr]
  · rw [exec_stepPulse, stepPulse_idle he]
  · rw [exec_segpush h, segPush_queues hl hq h1 h2 hok, he]
  · rw [exec_flush h, segFlush_empties hl]

end Sys2Proof.Proofs
end

section
/-! PROOFS. The tables, learned flags and gains of a lane at a committing edge (R193, R196). -/
namespace Sys2Proof.Proofs
open Sys2Proof Sys2Proof.Machine Sys2Proof.Claims

/-! ## Learned flags and table entries (R196) -/

section Tables
variable {n : Fin 16} {a b f hi lo hi' lo' v : Nat} {d : Dev}

theorem setFlag_setsReg (d : Dev) (a i : Nat) (b : Bool) : SetsReg d (Dev.setFlag a i b d) a (setBit (d.reg a) i b) :=
  setReg_setsReg d a _

theorem laneStat_offEvents (n : Fin 16) : OffEvents (CTL_STAT n) :=
  offEvents_of_block (by unfold CTL_STAT; omega) (by unfold CTL_STAT; omega)

/-- One field of a table's register takes a value, and the table's learned flag clears. -/
def entryWritten (n : Fin 16) (f a hi lo v : Nat) (d : Dev) : Dev :=
  Dev.setFlag (CTL_STAT n) f false (Dev.setFld a hi lo v d)

theorem entryWritten_fld (ha : a ≠ CTL_STAT n) (hhi : hi < 32) :
    (entryWritten n f a hi lo v d).fld a hi lo = v % 2 ^ (hi + 1 - lo) := by
  rw [Dev.fld, entryWritten, Dev.reg_setFlag_other _ _ _ _ _ ha, Dev.reg_setFld, bits_setBits_same hhi]

theorem entryWritten_fld_other (hb : b ≠ CTL_STAT n) (h : b = a → hi' < lo ∨ hi < lo') :
    (entryWritten n f a hi lo v d).fld b hi' lo' = d.fld b hi' lo' := by
  rw [Dev.fld, entryWritten, Dev.reg_setFlag_other _ _ _ _ _ hb]
  by_cases hab : b = a
  · subst hab
    rw [Dev.reg_setFld, bits_setBits_other (h rfl), ← Dev.fld]
  · rw [Dev.reg_setFld_other _ _ _ _ _ _ hab, ← Dev.fld]

theorem entryWritten_flag (hf : f < 32) : (entryWritten n f a hi lo v d).flag (CTL_STAT n) f = false :=
  flag_setFlag_same hf _ _ _

theorem entryWritten_onlyRegs : OnlyRegs d (entryWritten n f a hi lo v d) [a, CTL_STAT n] := by
  refine ⟨rfl, fun b hb => ?_⟩
  obtain ⟨hba, hbs⟩ : b ≠ a ∧ b ≠ CTL_STAT n := by simpa using hb
  rw [entryWritten, Dev.reg_setFlag_other _ _ _ _ _ hbs, Dev.reg_setFld_other _ _ _ _ _ _ hba]

/-- A TWR word of the friction table, and one of the cogging table. -/
theorem tableWrite_friction {w : Word} (h : bit w 11 = true) (hf : bit w 10 = false) (d : Dev) : tableWrite n w d =
    entryWritten n 10 (CTL_FRTAB n (bits w 9 0 / 4)) (8 * (bits w 9 0 % 4) + 7) (8 * (bits w 9 0 % 4)) (bits w 23 16) d := by
  simp [tableWrite, entryWritten, h, hf]

theorem tableWrite_cogging {w : Word} (h : bit w 11 = true) (hc : bit w 10 = true) (d : Dev) : tableWrite n w d =
    entryWritten n 11 (CTL_CGTAB n (bits w 9 0 / 2)) (16 * (bits w 9 0 % 2) + 15) (16 * (bits w 9 0 % 2)) (bits w 31 16) d := by
  simp [tableWrite, entryWritten, h, hc]

/-- Four friction entries share a register. -/
theorem frEntry_written {i : Nat} (hv : v < 2 ^ 8) :
    frEntry (entryWritten n 10 (CTL_FRTAB n (i / 4)) (8 * (i % 4) + 7) (8 * (i % 4)) v d) n i = v := by
  have hwidth : 8 * (i % 4) + 7 + 1 - 8 * (i % 4) = 8 := by omega
  rw [frEntry, entryWritten_fld (by unfold CTL_FRTAB CTL_STAT; omega) (by omega), hwidth]
  exact Nat.mod_eq_of_lt hv

theorem frEntry_written_other {i j : Nat} (hj : j ≠ i) :
    frEntry (entryWritten n 10 (CTL_FRTAB n (i / 4)) (8 * (i % 4) + 7) (8 * (i % 4)) v d) n j = frEntry d n j := by
  rw [frEntry, entryWritten_fld_other (by unfold CTL_FRTAB CTL_STAT; omega) (by unfold CTL_FRTAB; omega), ← frEntry]

/-- Two cogging entries share a register. -/
theorem cgEntry_written {i : Nat} (hv : v < 2 ^ 16) :
    cgEntry (entryWritten n 11 (CTL_CGTAB n (i / 2)) (16 * (i % 2) + 15) (16 * (i % 2)) v d) n i = signed 16 v := by
  have hwidth : 16 * (i % 2) + 15 + 1 - 16 * (i % 2) = 16 := by omega
  rw [cgEntry, entryWritten_fld (by unfold CTL_CGTAB CTL_STAT; omega) (by omega), hwidth, Nat.mod_eq_of_lt hv]

theorem cgEntry_written_other {i j : Nat} (hj : j ≠ i) :
    cgEntry (entryWritten n 11 (CTL_CGTAB n (i / 2)) (16 * (i % 2) + 15) (16 * (i % 2)) v d) n j = cgEntry d n j := by
  rw [cgEntry, entryWritten_fld_other (by unfold CTL_CGTAB CTL_STAT; omega) (by unfold CTL_CGTAB; omega), ← cgEntry]

end Tables

/-! ## Notes and gains (R193) -/

section Gains
variable {n : Fin 16} {i o : Nat} {w : Word} {d : Dev}

/-- A bit of CTLn_STAT that stands is noted no second time (R210). -/
theorem laneNote_flag (hi : i < 32) (d : Dev) : (laneNote n i d).flag (CTL_STAT n) i = true := by
  unfold laneNote
  split
  · assumption
  · rw [Dev.flag, raise_reg (laneStat_offEvents n), ← Dev.flag, flag_setFlag_same hi]

theorem laneNote_reg {a : Nat} (h : OffEvents a) (hs : a ≠ CTL_STAT n) (i : Nat) (d : Dev) : (laneNote n i d).reg a = d.reg a := by
  unfold laneNote
  split
  · rfl
  · rw [raise_reg h, Dev.reg_setFlag_other _ _ _ _ _ hs]

/-- The gains lie below CTLn_STAT in the lane's window. -/
theorem isGain_below_stat (h : isGain o = true) : o < 0x98 := by
  simp only [isGain, Bool.and_eq_true, Bool.or_eq_true, decide_eq_true_eq] at h
  omega

theorem commitGain_accepted (h : gainBad o w = false) (n : Fin 16) (d : Dev) : commitGain n o w d = d.setReg (CTL_CFG n + o) w := by
  rw [commitGain, h, if_neg Bool.false_ne_true]

theorem commitGain_refused (h : gainBad o w = true) (n : Fin 16) (d : Dev) : commitGain n o w d = laneNote n 8 d := by
  rw [commitGain, if_pos h]

end Gains

/-! ## The obligation -/

section Commands
variable {n : Fin 16} {s : State} (h : ticking s.dev = true)
include h

theorem exec_tableWrite (v : Word) : exec (.tableWrite n v) s = .next { s with dev := tableWrite n v s.dev } := atEdge_ticking h _

theorem exec_gainWrite {o : Nat} (ho : isGain o = true) (v : Word) :
    exec (.gainWrite n o v) s = .next { s with dev := commitGain n o v s.dev } := by
  have hexec : exec (.gainWrite n o v) s = atEdge (fun d => if isGain o then commitGain n o v d else d) s := rfl
  rw [hexec, atEdge_ticking h, if_pos ho]

theorem tableWrite_frictionEntry {v : Word} (h11 : bit v 11 = true) (h10 : bit v 10 = false) :
    ∃ d, exec (.tableWrite n v) s = .next { s with dev := d } ∧
      frEntry d n (bits v 9 0) = bits v 23 16 ∧ d.flag (CTL_STAT n) 10 = false ∧
      (∀ i, i < 1024 → i ≠ bits v 9 0 → frEntry d n i = frEntry s.dev n i) ∧
      OnlyRegs s.dev d [CTL_FRTAB n (bits v 9 0 / 4), CTL_STAT n] := by
  refine ⟨_, exec_tableWrite h v, ?_⟩
  rw [tableWrite_friction h11 h10]
  exact ⟨frEntry_written (Nat.mod_lt _ (by decide)), entryWritten_flag (by decide), fun i _ hi => frEntry_written_other hi,
    entryWritten_onlyRegs⟩

theorem tableWrite_coggingEntry {v : Word} (h11 : bit v 11 = true) (h10 : bit v 10 = true) :
    ∃ d, exec (.tableWrite n v) s = .next { s with dev := d } ∧
      cgEntry d n (bits v 9 0) = signed 16 (bits v 31 16) ∧ d.flag (CTL_STAT n) 11 = false ∧
      (∀ i, i < 1024 → i ≠ bits v 9 0 → cgEntry d n i = cgEntry s.dev n i) ∧
      OnlyRegs s.dev d [CTL_CGTAB n (bits v 9 0 / 2), CTL_STAT n] := by
  refine ⟨_, exec_tableWrite h v, ?_⟩
  rw [tableWrite_cogging h11 h10]
  exact ⟨cgEntry_written (Nat.mod_lt _ (by decide)), entryWritten_flag (by decide), fun i _ hi => cgEntry_written_other hi,
    entryWritten_onlyRegs⟩

theorem gainWrite_accepted {o : Nat} (ho : isGain o = true) {v : Word} (hv : gainBad o v = false) :
    ∃ d, exec (.gainWrite n o v) s = .next { s with dev := d } ∧ SetsReg s.dev d (CTL_CFG n + o) v := by
  refine ⟨_, exec_gainWrite h ho v, ?_⟩
  rw [commitGain_accepted hv]
  exact setReg_setsReg _ _ _

theorem gainWrite_refused {o : Nat} (ho : isGain o = true) {v : Word} (hv : gainBad o v = true) :
    ∃ d, exec (.gainWrite n o v) s = .next { s with dev := d } ∧
      d.flag (CTL_STAT n) 8 = true ∧ d.reg (CTL_CFG n + o) = s.dev.reg (CTL_CFG n + o) := by
  have hlow := isGain_below_stat ho
  have hoff : OffEvents (CTL_CFG n + o) := offEvents_of_block (by unfold CTL_CFG; omega) (by unfold CTL_CFG; omega)
  refine ⟨_, exec_gainWrite h ho v, ?_⟩
  rw [commitGain_refused hv]
  exact ⟨laneNote_flag (by decide) _, laneNote_reg hoff (by unfold CTL_CFG CTL_STAT; omega) 8 _⟩

end Commands

/-- Settles O23: the learned flags are bits of CTLn_STAT, a table word replaces one field of one register, and a gain is written or
noted. -/
theorem laneTables : Obligations.LaneTables := by
  unfold Obligations.LaneTables
  intro n s h
  exact ⟨⟨_, atEdge_ticking h _, setFlag_setsReg _ _ _ _⟩, ⟨_, atEdge_ticking h _, setFlag_setsReg _ _ _ _⟩,
    ⟨_, atEdge_ticking h _, setFlag_setsReg _ _ _ _⟩, ⟨_, atEdge_ticking h _, setFlag_setsReg _ _ _ _⟩,
    fun v h11 h10 => tableWrite_frictionEntry h h11 h10, fun v h11 h10 => tableWrite_coggingEntry h h11 h10,
    fun o v ho hv => gainWrite_accepted h ho hv, fun o v ho hv => gainWrite_refused h ho hv⟩

end Sys2Proof.Proofs
end

section
/-! PROOFS. Passes of the control engine (R191, R207): of the lanes only the pass's own changes, and what a servo pass in torque mode
and a chopper pass leave in it where no law snippet runs. -/
namespace Sys2Proof.Proofs
open Sys2Proof Sys2Proof.Machine Sys2Proof.Claims

/-! ## Of the lanes one alone changes -/

section OneLane
variable {n : Fin 16} {d e f : Dev}

theorem onlyLane_trans (h : OnlyLane n d e) (k : OnlyLane n e f) : OnlyLane n d f := by
  obtain ⟨helse, haxes, hlane⟩ := h
  obtain ⟨helse', haxes', hlane'⟩ := k
  exact ⟨elsewhere_trans helse helse', haxes'.trans haxes, fun i hi => (hlane' i hi).trans (hlane i hi)⟩

theorem onlyLane_setLane (n : Fin 16) (d : Dev) (x : Lane) : OnlyLane n d (d.setLane n x) :=
  ⟨(besideFb_setLane d n x).elsewhere, rfl, fun k hk => Dev.lane_setLane_other d k n x hk⟩

theorem onlyLane_events (h : EventsOnly d e) : OnlyLane n d e := by
  obtain ⟨r, v, m, rfl⟩ := h
  exact ⟨⟨rfl, rfl, rfl, rfl, ⟨rfl, rfl⟩, rfl, rfl, rfl, rfl⟩, rfl, fun _ _ => rfl⟩

theorem lane_events (h : EventsOnly d e) (n : Fin 16) : e.lane n = d.lane n := by
  obtain ⟨r, v, m, rfl⟩ := h
  rfl

theorem snippetOf_events (h : EventsOnly d e) (n k : Nat) : snippetOf e n k = snippetOf d n k := by
  obtain ⟨r, v, m, rfl⟩ := h
  rfl

theorem laneFlag_frame (n : Fin 16) (i : Nat) (b : Bool) (d : Dev) : EventsOnly d (laneFlag n i b d) := by
  unfold laneFlag
  split
  · exact (EventsOnly.refl d).setFlag _ _ _
  · exact .refl d

/-- Without a snippet the values of a hook pass unchanged (R197). -/
theorem runHook_none {k : Nat} (h : snippetOf d n k = none) (x : HookIn) (l : List Word) :
    runHook n k x l d = (l.getD 0 0, l.getD 1 0, d) := by
  simp only [runHook, h]

end OneLane

/-! ## A servo pass in torque mode (R191) -/

section Servo
variable {n : Fin 16} {b : PassBits} {d : Dev}

/-- A current set-point within ILIM. -/
abbrev limited (d : Dev) (n : Fin 16) (w : Word) : Word := fClamp w (fNeg (gain d n 6)) (gain d n 6)

/-- A set-point that ILIM cuts, before hook 2 or after it, is noted with ISAT. -/
def clampNoted (n : Fin 16) (w : Word) (d : Dev) : Dev :=
  if limited d n w ≠ w ∨ limited d n (limited d n w) ≠ limited d n w then laneNote n 2 d else d

theorem clampNoted_frame (n : Fin 16) (w : Word) (d : Dev) : EventsOnly d (clampNoted n w d) := by
  unfold clampNoted
  split
  · exact laneNote_frame n 2 d
  · exact .refl d

/-- What the current part of a servo pass makes of a lane: the set-point, the currents that the first pass of a tick
sampled, and duties that wait for their apply instant. -/
structure CurrentsRun (iqr ia ib : Word) (first : Bool) (l l' : Lane) : Prop where
  vf     : l'.vf = l.vf
  pmS    : l'.pmS = l.pmS
  passes : l'.passes = l.passes
  iqRef  : l'.iqRef = iqr
  next   : l'.next.isSome = true
  ia     : first = true → l'.ia = ia
  ib     : first = true → l'.ib = ib

/-- Without snippets the current part limits the set-point before hook 2 and after it. -/
theorem servoInner_runs (hs : ∀ k, snippetOf d n k = none) (h : HookIn) (iq0 ia ib ic : Word) (first : Bool) :
    ∃ e l, servoInner n h iq0 ia ib ic first d = e.setLane n l ∧ EventsOnly d e ∧
      CurrentsRun (limited d n (limited d n iq0)) ia ib first (d.lane n) l := by
  have hnoted := clampNoted_frame n iq0 d
  unfold servoInner
  simp only [runHook_none (hs 2), List.getD_cons_zero, List.getD_cons_succ]
  rw [← clampNoted]
  generalize clampNoted n iq0 d = d2 at hnoted ⊢
  simp only [runHook_none ((snippetOf_events hnoted n 3).trans (hs 3)), List.getD_cons_zero, List.getD_cons_succ]
  generalize hflag : laneFlag n 3 _ d2 = e
  have hevents : EventsOnly d e := hnoted.trans (hflag ▸ laneFlag_frame n 3 _ d2)
  rw [lane_events hevents n]
  exact ⟨e, _, rfl, hevents, rfl, rfl, rfl, rfl, rfl, fun hf => if_pos hf, fun hf => if_pos hf⟩

/-- The velocity that a pass uses: the channel's, or the motion since the previous pass, filtered over VFILT. -/
def passVelocity (d : Dev) (n : Fin 16) : Word :=
  let l := d.lane n
  let vm := if l.spdvS then l.spdS else fDiv (fOfInt (shortest l.pmS l.prevPm)) (passDt d n)
  let vt := d.reg (CTL_GAIN n 5)
  if fSign vt = 0 then vm else fAdd l.vf (fMul (fSub vm l.vf) (fMin fOne (fDiv (passDt d n) vt)))

theorem passVelocity_channel (hv : (d.lane n).spdvS = true) (hf : fSign (d.reg (CTL_GAIN n 5)) = 0) :
    passVelocity d n = (d.lane n).spdS := by
  rw [passVelocity, if_pos hf, if_pos hv]

/-- A lane as a pass begins, at velocity v and mechanical phase m. -/
def passBegun (v : Word) (m : Nat) (l : Lane) : Lane := { l with vf := v, m := m, passes := l.passes + 1 }

/-- A lane at the end of a pass: the position that it sampled becomes the previous one. -/
def passEnded (l : Lane) : Lane := { l with prevPm := l.pmS, prevShift := l.shiftS }

/-- The current part of a pass that begins, and its end. -/
def currentPass (n : Fin 16) (h : HookIn) (b : PassBits) (ic : Word) (d : Dev) (r : Word × Dev) : Dev :=
  let e := servoInner n h r.1 (phaseCurrent d n 0 b.ia) (phaseCurrent d n 1 b.ib) ic (decide ((d.lane n).passes = 0)) r.2
  e.setLane n (passEnded (e.lane n))

theorem servoPass_ready (hp : passReady d n = true) (hk : d.kind n = 1) : ∃ h x m ic, servoPass n b d =
    currentPass n h b ic d (servoOuter n h x (d.setLane n (passBegun (passVelocity d n) m (d.lane n)))) := by
  have hstart : ¬ (!(passReady d n && decide (d.kind n = 1))) = true := by simp [hp, hk]
  exact ⟨_, _, _, _, if_neg hstart⟩

/-- In torque mode the set-point before its limits is TQREQ. -/
theorem servoOuter_torque (h : HookIn) (x : Traj) (l : Lane) (ht : lmode d n 0 = true) :
    servoOuter n h x (d.setLane n l) = (lanePort d n 0x58, d.setLane n l) :=
  if_pos ht

/-- What a servo pass in torque mode leaves. -/
theorem servoPass_torque (hp : passReady d n = true) (hs : ∀ k, snippetOf d n k = none) (hk : d.kind n = 1)
    (ht : lmode d n 0 = true) : ∃ m l, (servoPass n b d).lane n = passEnded l ∧
      CurrentsRun (limited d n (limited d n (lanePort d n 0x58))) (phaseCurrent d n 0 b.ia) (phaseCurrent d n 1 b.ib)
        (decide ((d.lane n).passes = 0)) (passBegun (passVelocity d n) m (d.lane n)) l ∧ OnlyLane n d (servoPass n b d) := by
  obtain ⟨h, x, m, ic, hpass⟩ := servoPass_ready (b := b) hp hk
  rw [servoOuter_torque h x _ ht] at hpass
  obtain ⟨e, l, hinner, hevents, hrun⟩ := servoInner_runs (n := n)
    (d := d.setLane n (passBegun (passVelocity d n) m (d.lane n))) hs h (lanePort d n 0x58) (phaseCurrent d n 0 b.ia)
    (phaseCurrent d n 1 b.ib) ic (decide ((d.lane n).passes = 0))
  rw [Dev.lane_setLane] at hrun
  simp only [hpass, currentPass, hinner, Dev.lane_setLane, setLane_setLane]
  exact ⟨m, l, rfl, hrun,
    onlyLane_trans (onlyLane_setLane n d _) (onlyLane_trans (onlyLane_events hevents) (onlyLane_setLane n e _))⟩

end Servo

/-! ## A chopper pass (R207) -/

section Chopper
variable {n : Fin 16} {b : PassBits} {d : Dev}

/-- The coil angle, the commanded position that it refers to and the count of passes stand. -/
structure SameCoil (l l' : Lane) : Prop where
  theta  : l'.theta = l.theta
  prevPc : l'.prevPc = l.prevPc
  passes : l'.passes = l.passes

/-- A mode and its amplitude are found with no coil of lane n moved. -/
def CoilStands (n : Fin 16) (d : Dev) (r : Word × Dev) : Prop := ∃ l, r.2 = d.setLane n l ∧ SameCoil (d.lane n) l

/-- Forced, at a change of sign, or as it is (R208). -/
theorem chopperMode_coil (n : Fin 16) (vc c : Word) (d : Dev) : CoilStands n d (chopperMode n vc c d) :=
  iteInduction (motive := CoilStands n d) (fun _forced => ⟨_, rfl, rfl, rfl, rfl⟩) (fun _ =>
    iteInduction (motive := CoilStands n d) (fun _crossed => ⟨_, rfl, rfl, rfl, rfl⟩) (fun _kept => ⟨_, rfl, rfl, rfl, rfl⟩))

/-- The lane as a chopper pass begins: its coil follows the commanded position. -/
def coilMoved (d : Dev) (n : Fin 16) (p : BitVec 48) : Lane :=
  { d.lane n with
    theta := (((d.lane n).theta + posDiff p (d.lane n).prevPc).emod (coilTurn d n)).toNat
    prevPc := p
    passes := (d.lane n).passes + 1 }

theorem SameCoil.trans {l l' l'' : Lane} (h : SameCoil l l') (k : SameCoil l' l'') : SameCoil l l'' :=
  ⟨k.theta.trans h.theta, k.prevPc.trans h.prevPc, k.passes.trans h.passes⟩

/-- Without snippets a chopper pass moves its coil, finds its mode, and computes duties. -/
theorem chopperPass_runs (hp : passReady d n = true) (hs : ∀ k, snippetOf d n k = none) (hk : d.kind n = 2) :
    ∃ l e l', chopperPass n b d = e.setLane n l' ∧ EventsOnly (d.setLane n l) e ∧ l'.next.isSome = true ∧
      SameCoil (coilMoved d n (trajAt d (d.axis n) (sampleQuarter d n (d.lane n).passes)).p) l' := by
  have hstart : ¬ (!(passReady d n && decide (d.kind n = 2))) = true := by simp [hp, hk]
  have hhook (l : Lane) (k : Nat) := runHook_none (d := d.setLane n l) (n := n) (k := k) (hs k)
  have hflag (l : Lane) (v : Bool) : SameCoil l ((laneFlag n 3 v (d.setLane n l)).lane n) := by
    rw [lane_events (laneFlag_frame n 3 v _) n, Dev.lane_setLane]
    exact ⟨rfl, rfl, rfl⟩
  unfold chopperPass
  rw [if_neg hstart]
  dsimp only
  generalize hmode : chopperMode n _ _ _ = r
  obtain ⟨l, hl, hcoil⟩ := hmode ▸ chopperMode_coil n _ _ _
  rw [Dev.lane_setLane] at hcoil
  rw [setLane_setLane] at hl
  simp only [hl, hhook, List.getD_cons_zero, List.getD_cons_succ]
  exact ⟨l, _, _, rfl, laneFlag_frame n 3 _ _, rfl, hcoil.trans ⟨(hflag l _).theta, (hflag l _).prevPc, (hflag l _).passes⟩⟩

/-- What a chopper pass leaves: the coil as it moved, and duties that wait for their apply instant. -/
theorem chopperPass_leaves (hp : passReady d n = true) (hs : ∀ k, snippetOf d n k = none) (hk : d.kind n = 2) :
    ((chopperPass n b d).lane n).next.isSome = true ∧
    SameCoil (coilMoved d n (trajAt d (d.axis n) (sampleQuarter d n (d.lane n).passes)).p) ((chopperPass n b d).lane n) ∧
    OnlyLane n d (chopperPass n b d) := by
  obtain ⟨l, e, l', hpass, hevents, hnext, hcoil⟩ := chopperPass_runs (b := b) hp hs hk
  rw [hpass, Dev.lane_setLane]
  exact ⟨hnext, hcoil,
    onlyLane_trans (onlyLane_setLane n d l) (onlyLane_trans (onlyLane_events hevents) (onlyLane_setLane n e l'))⟩

end Chopper

end Sys2Proof.Proofs
end

section
/-! PROOFS. Trips of lanes (R206, R209, R210): what a trip leaves of its lane and of the others, and the lanes that one cause trips. -/
namespace Sys2Proof.Proofs
open Sys2Proof Sys2Proof.Machine Sys2Proof.Claims

/-! ## The trip of one lane (R210) -/

section Trip
variable {n k : Fin 16} {cause a : Nat} {d : Dev}

/-- CTLn_STAT with a cause bit and TRIP set. -/
def trippedStat (cause : Nat) (w : Word) : Word := setBit (setBit w cause true) 9 true

theorem trippedStat_trip (cause : Nat) (w : Word) : bit (trippedStat cause w) 9 = true := bit_setBit_same (by decide) _

theorem trippedStat_cause (hc : cause < 32) (w : Word) : bit (trippedStat cause w) cause = true :=
  bit_setBit_true 9 (bit_setBit_same hc w)

/-- A lane that trips: its outputs are inactive. -/
def trippedLane (l : Lane) : Lane := { l with drive := false, next := none, wait := none, tripped := true }

/-- The device with the cause and TRIP shown. -/
def causeShown (n : Fin 16) (cause : Nat) (d : Dev) : Dev :=
  Dev.setFlag (CTL_STAT n) 9 true (Dev.setFlag (CTL_STAT n) cause true d)

theorem causeShown_stat (n : Fin 16) (cause : Nat) (d : Dev) :
    (causeShown n cause d).reg (CTL_STAT n) = trippedStat cause (d.reg (CTL_STAT n)) := by
  rw [causeShown, Dev.flag_setFlag, Dev.flag_setFlag, trippedStat]

theorem causeShown_reg (h : a ≠ CTL_STAT n) (cause : Nat) (d : Dev) : (causeShown n cause d).reg a = d.reg a := by
  rw [causeShown, Dev.reg_setFlag_other _ _ _ _ _ h, Dev.reg_setFlag_other _ _ _ _ _ h]

theorem causeShown_axes (n : Fin 16) (cause : Nat) (d : Dev) : (causeShown n cause d).axes = d.axes := by
  simp only [causeShown, Dev.setFlag_axes]

theorem causeShown_lane (n k : Fin 16) (cause : Nat) (d : Dev) : (causeShown k cause d).lane n = d.lane n := by
  simp only [Dev.lane, causeShown, Dev.setFlag_lanes]

/-- A lane that stands tripped shows a further cause (assumption 34); another stops, with a Degrade fault. -/
theorem laneTrip_cases (n : Fin 16) (cause : Nat) (d : Dev) :
    (d.flag (CTL_STAT n) 9 = true ∧ laneTrip n cause d = causeShown n cause d) ∨
    (d.flag (CTL_STAT n) 9 = false ∧ ∃ w, laneTrip n cause d =
      fault (80 + n) .degrade w ((causeShown n cause d).setLane n (trippedLane ((causeShown n cause d).lane n)))) := by
  unfold laneTrip
  dsimp only
  cases d.flag (CTL_STAT n) 9 with
  | true => exact .inl ⟨rfl, rfl⟩
  | false =>
    rw [if_neg Bool.false_ne_true]
    exact .inr ⟨rfl, _, rfl⟩

theorem reg_setLane (d : Dev) (k : Fin 16) (x : Lane) (a : Nat) : (d.setLane k x).reg a = d.reg a := rfl

theorem fault_degrade_reg (h : OffEvents a) (hb : a / 0x10000 ≠ 0x10E) (ev : Nat) (w : Word) (d : Dev) :
    (fault ev .degrade w d).reg a = d.reg a :=
  faultAt_reg h hb (by decide) (by decide) ev w _ _ _ d

theorem fault_degrade_lanes (ev : Nat) (w : Word) (d : Dev) : (fault ev .degrade w d).lanes = d.lanes :=
  congrArg FaultView.lanes (faultAt_faultView ev .degrade w false false (decide (ev = 3)) d (by decide))

theorem fault_degrade_axes (ev : Nat) (w : Word) (d : Dev) : (fault ev .degrade w d).axes = d.axes := by
  obtain ⟨r, v, m, f, t, c, he⟩ := fault_degrade_only ev w d
  rw [he]

theorem laneTrip_axes (n : Fin 16) (cause : Nat) (d : Dev) : (laneTrip n cause d).axes = d.axes := by
  rcases laneTrip_cases n cause d with ⟨-, he⟩ | ⟨-, w, he⟩
  · rw [he, causeShown_axes]
  · rw [he, fault_degrade_axes, Dev.setLane_axes, causeShown_axes]

theorem laneTrip_stat (n : Fin 16) (cause : Nat) (d : Dev) :
    (laneTrip n cause d).reg (CTL_STAT n) = trippedStat cause (d.reg (CTL_STAT n)) := by
  rcases laneTrip_cases n cause d with ⟨-, he⟩ | ⟨-, w, he⟩
  · rw [he, causeShown_stat]
  · rw [he, fault_degrade_reg (laneStat_offEvents n) (by unfold CTL_STAT; omega), reg_setLane, causeShown_stat]

/-- Of the registers of the control engine CTLn_STAT alone changes, and of the axes' none. -/
theorem laneTrip_reg (ha : a / 0x10000 = 0x104 ∨ a / 0x10000 = 0x105) (h : a ≠ CTL_STAT n) (cause : Nat) (d : Dev) :
    (laneTrip n cause d).reg a = d.reg a := by
  rcases laneTrip_cases n cause d with ⟨-, he⟩ | ⟨-, w, he⟩
  · rw [he, causeShown_reg h]
  · rw [he, fault_degrade_reg (offEvents_of_block (by omega) (by omega)) (by omega), reg_setLane, causeShown_reg h]

theorem laneTrip_lane (n : Fin 16) (cause : Nat) (d : Dev) :
    (laneTrip n cause d).lane n = if d.flag (CTL_STAT n) 9 then d.lane n else trippedLane (d.lane n) := by
  rcases laneTrip_cases n cause d with ⟨h, he⟩ | ⟨h, w, he⟩
  · rw [he, if_pos h, causeShown_lane]
  · rw [he, Dev.lane, fault_degrade_lanes, ← Dev.lane, Dev.lane_setLane, causeShown_lane, if_neg (by simp [h])]

theorem laneTrip_lane_other (h : n ≠ k) (cause : Nat) (d : Dev) : (laneTrip k cause d).lane n = d.lane n := by
  rcases laneTrip_cases k cause d with ⟨-, he⟩ | ⟨-, w, he⟩
  · rw [he, causeShown_lane]
  · rw [he, Dev.lane, fault_degrade_lanes, ← Dev.lane, Dev.lane_setLane_other _ _ _ _ h, causeShown_lane]

end Trip

/-! ## The lanes that a cause trips (R206, R209) -/

section Trips
variable {n : Fin 16} {cause : Nat} {p : Dev → Nat → Bool} {d : Dev}

/-- The lanes at which p holds trip, in their order. -/
def tripWhere (p : Dev → Nat → Bool) (cause : Nat) (d : Dev) : Dev :=
  forAll 16 (fun k d => if p d k then laneTrip (Fin.ofNat 16 k) cause d else d) d

theorem besideFb_tripWhere (p : Dev → Nat → Bool) (cause : Nat) (d : Dev) : BesideFb d (tripWhere p cause d) := by
  refine .forAll (fun k e => ?_) 16 d
  split
  · exact besideFb_laneTrip _ _ e
  · exact .refl e

theorem tripWhere_axes (p : Dev → Nat → Bool) (cause : Nat) (d : Dev) : (tripWhere p cause d).axes = d.axes := by
  refine forAll_keeps (π := Dev.axes) (fun k e => ?_) 16 d
  split
  · exact laneTrip_axes _ _ e
  · rfl

/-- A register of the control engine that is no lane's CTLn_STAT stands. -/
theorem tripWhere_reg {a : Nat} (ha : a / 0x10000 = 0x105) (hs : ∀ k : Fin 16, a ≠ CTL_STAT k) (p : Dev → Nat → Bool)
    (cause : Nat) (d : Dev) : (tripWhere p cause d).reg a = d.reg a := by
  refine forAll_keeps (π := (Dev.reg · a)) (fun k e => ?_) 16 d
  split
  · exact laneTrip_reg (.inr ha) (hs _) _ e
  · rfl

/-- Lane n as its trip sees it: whether it is to trip, its state, and its CTLn_STAT. -/
structure TripView where
  due  : Bool
  lane : Lane
  stat : Word

def tripView (p : Dev → Nat → Bool) (n : Fin 16) (d : Dev) : TripView := ⟨p d n, d.lane n, d.reg (CTL_STAT n)⟩

def TripView.done (cause : Nat) (v : TripView) : TripView :=
  if v.due then ⟨true, if bit v.stat 9 then v.lane else trippedLane v.lane, trippedStat cause v.stat⟩ else v

/-- No trip changes whether lane n is to trip. -/
def TripsKeep (p : Dev → Nat → Bool) (n : Fin 16) : Prop := ∀ k cause d, p (laneTrip k cause d) n = p d n

theorem tripView_laneTrip_other (hp : TripsKeep p n) {k : Fin 16} (h : k ≠ n) (cause : Nat)
    (d : Dev) : tripView p n (laneTrip k cause d) = tripView p n d := by
  have hk : n.val ≠ k.val := fun hc => h (Fin.ext hc.symm)
  rw [tripView, hp, laneTrip_lane_other h.symm,
    laneTrip_reg (.inr (by unfold CTL_STAT; omega)) (by unfold CTL_STAT; omega), ← tripView]

theorem tripView_laneTrip (hp : TripsKeep p n) (h : p d n = true) (cause : Nat) :
    tripView p n (laneTrip n cause d) = (tripView p n d).done cause := by
  rw [tripView, hp, laneTrip_lane, laneTrip_stat, TripView.done, tripView, h, if_pos rfl, Dev.flag]

/-- Every other lane leaves lane n as it was: it trips once where it is to trip. -/
theorem tripView_tripWhere (hp : TripsKeep p n) (cause : Nat) (d : Dev) :
    tripView p n (tripWhere p cause d) = (tripView p n d).done cause := by
  refine (forAll_at (π := tripView p n) (g := TripView.done cause) (k := n) (fun j hj hne e => ?_) (fun e => ?_) d).trans
    (if_pos n.isLt)
  · split
    · have hk : Fin.ofNat 16 j ≠ n := fun hc => hne (by rw [← hc]; exact (Nat.mod_eq_of_lt hj).symm)
      exact tripView_laneTrip_other hp hk cause e
    · rfl
  · have hk : Fin.ofNat 16 n.val = n := Fin.ext (Nat.mod_eq_of_lt n.isLt)
    rw [hk]
    split
    · next h => exact tripView_laneTrip hp h cause
    · next h => exact (if_neg h).symm

/-- Lane n trips with a cause: what stands of the lane, and beside the lanes. -/
structure LaneTripped (n : Fin 16) (cause : Nat) (d e : Dev) : Prop where
  cause : e.flag (CTL_STAT n) cause = true
  trip  : e.flag (CTL_STAT n) 9 = true
  lane  : e.lane n = trippedLane (d.lane n)
  axes  : e.axes = d.axes
  other : Elsewhere d e

theorem tripWhere_trips (hp : TripsKeep p n) (hc : cause < 32) (h : p d n = true)
    (h9 : d.flag (CTL_STAT n) 9 = false) : LaneTripped n cause d (tripWhere p cause d) := by
  have hview := tripView_tripWhere hp cause d
  have h9' : ¬ bit (d.reg (CTL_STAT n)) 9 = true := by simpa [Dev.flag] using h9
  simp only [tripView, TripView.done, h, if_true, if_neg h9', TripView.mk.injEq] at hview
  obtain ⟨-, hlane, hstat⟩ := hview
  refine ⟨?_, ?_, hlane, tripWhere_axes p cause d, (besideFb_tripWhere p cause d).elsewhere⟩
  · rw [Dev.flag, hstat, trippedStat_cause hc]
  · rw [Dev.flag, hstat, trippedStat_trip]

end Trips

/-! ## Over-current and silent modulators -/

section Protection
variable {n : Fin 16} {c : Fin 24} {d e : Dev}

theorem mapsCh_congr (hcfg : e.reg (AX_CFG n) = d.reg (AX_CFG n)) (hmap : e.reg (CTL_SMAP n) = d.reg (CTL_SMAP n)) (ch : Nat) :
    mapsCh e n ch = mapsCh d n ch := by
  unfold mapsCh laneKind Dev.kind phaseCh Dev.fld
  rw [hcfg, hmap]

theorem mapsCh_laneTrip (n k : Fin 16) (cause ch : Nat) (d : Dev) : mapsCh (laneTrip k cause d) n ch = mapsCh d n ch :=
  mapsCh_congr (laneTrip_reg (.inl (by unfold AX_CFG; omega)) (by unfold AX_CFG CTL_STAT; omega) cause d)
    (laneTrip_reg (.inr (by unfold CTL_SMAP; omega)) (by unfold CTL_SMAP CTL_STAT; omega) cause d) ch

/-- OVERCURRENT_TRIP concerns a lane that maps the channel and whose limit the current exceeds. -/
def overLimit (ch : Nat) (amps : Word) (d : Dev) (n : Nat) : Bool :=
  mapsCh d n ch && decide (fSign (d.reg (CTL_OCLIM n)) ≠ 0) && fLt (d.reg (CTL_OCLIM n)) (fAbs amps)

theorem overcurrent_eq (amps : Word) (d : Dev) : overcurrent c amps d = tripWhere (overLimit c amps) 4 d := rfl

theorem sdError_eq (d : Dev) : sdError c d = tripWhere (fun d k => mapsCh d k c) 5 (Dev.setFlag CTL_SDSTAT c true d) := rfl

theorem overcurrent_trips {amps : Word} (hm : mapsCh d n c = true) (h9 : d.flag (CTL_STAT n) 9 = false)
    (hs : fSign (d.reg (CTL_OCLIM n)) ≠ 0) (hl : fLt (d.reg (CTL_OCLIM n)) (fAbs amps) = true) :
    LaneTripped n 4 d (overcurrent c amps d) := by
  have hkeep : TripsKeep (overLimit c amps) n := fun k cause e => by
    have hlim : (laneTrip k cause e).reg (CTL_OCLIM n) = e.reg (CTL_OCLIM n) :=
      laneTrip_reg (.inr (by unfold CTL_OCLIM; omega)) (by unfold CTL_OCLIM CTL_STAT; omega) cause e
    rw [overLimit, mapsCh_laneTrip, hlim, ← overLimit]
  rw [overcurrent_eq]
  exact tripWhere_trips hkeep (by decide) (by simp [overLimit, hm, hs, hl]) h9

theorem sdError_trips (hm : mapsCh d n c = true) (h9 : d.flag (CTL_STAT n) 9 = false) :
    LaneTripped n 5 d (sdError c d) ∧ (sdError c d).flag CTL_SDSTAT c = true := by
  have hset (a : Nat) (h : a ≠ CTL_SDSTAT) : (Dev.setFlag CTL_SDSTAT c true d).reg a = d.reg a :=
    Dev.reg_setFlag_other _ _ _ _ _ h
  have hm' : mapsCh (Dev.setFlag CTL_SDSTAT c true d) n c = true :=
    (mapsCh_congr (hset _ (by unfold AX_CFG CTL_SDSTAT; omega)) (hset _ (by unfold CTL_SMAP CTL_SDSTAT; omega)) c).trans hm
  have h9' : (Dev.setFlag CTL_SDSTAT c true d).flag (CTL_STAT n) 9 = false := by
    rw [Dev.flag, hset _ (by unfold CTL_STAT CTL_SDSTAT; omega), ← Dev.flag, h9]
  obtain ⟨hcause, htrip, hlane, haxes, helse⟩ := tripWhere_trips (p := fun d k => mapsCh d k c)
    (fun k cause e => mapsCh_laneTrip n k cause c e) (cause := 5) (by decide) hm' h9'
  refine ⟨⟨hcause, htrip, hlane, haxes, elsewhere_trans (sameCh_setFlag d CTL_SDSTAT c true).elsewhere helse⟩, ?_⟩
  rw [sdError_eq, Dev.flag, tripWhere_reg (by decide) (fun k => by unfold CTL_STAT CTL_SDSTAT; omega), ← Dev.flag,
    flag_setFlag_same (by omega)]

end Protection

end Sys2Proof.Proofs
end

section
/-! PROOFS. The control engine (09_control.md), said of its commands: passes, what comes between them, overruns and trips. -/
namespace Sys2Proof.Proofs
open Sys2Proof Sys2Proof.Machine Sys2Proof.Claims

/-! ## Passes (R189, R191, R207) -/

section Passes
variable {n : Fin 16} {s : State} (hp : passReady s.dev n = true) (hs : ∀ h, snippetOf s.dev n h = none) (b : PassBits)
include hp hs

theorem controlPass_torque (hk : s.dev.kind n = 1) (ht : lmode s.dev n 0 = true) (hv : (s.dev.lane n).spdvS = true)
    (hf : fSign (s.dev.reg (CTL_GAIN n 5)) = 0) :
    ∃ d, exec (.controlPass n b) s = .next { s with dev := d } ∧ (d.lane n).passes = (s.dev.lane n).passes + 1 ∧
      (d.lane n).vf = (s.dev.lane n).spdS ∧ (d.lane n).prevPm = (s.dev.lane n).pmS ∧ (d.lane n).next.isSome = true ∧
      (d.lane n).iqRef = limited s.dev n (limited s.dev n (lanePort s.dev n 0x58)) ∧
      ((s.dev.lane n).passes = 0 → (d.lane n).ia = phaseCurrent s.dev n 0 b.ia ∧ (d.lane n).ib = phaseCurrent s.dev n 1 b.ib) ∧
      OnlyLane n s.dev d := by
  obtain ⟨m, l, hlane, hrun, honly⟩ := servoPass_torque (b := b) hp hs hk ht
  rw [passVelocity_channel hv hf] at hrun
  refine ⟨_, rfl, ?_⟩
  rw [hlane]
  exact ⟨hrun.passes, hrun.vf, hrun.pmS, hrun.next, hrun.iqRef,
    fun h0 => ⟨hrun.ia (decide_eq_true h0), hrun.ib (decide_eq_true h0)⟩, honly⟩

theorem chopperPass_coil (hk : s.dev.kind n = 2) : ∃ d, exec (.chopperPass n b) s = .next { s with dev := d } ∧
    (d.lane n).passes = (s.dev.lane n).passes + 1 ∧ (d.lane n).next.isSome = true ∧
    (d.lane n).prevPc = (trajAt s.dev (s.dev.axis n) (sampleQuarter s.dev n (s.dev.lane n).passes)).p ∧
    (d.lane n).theta = (((s.dev.lane n).theta + posDiff (d.lane n).prevPc (s.dev.lane n).prevPc).emod
      (coilTurn s.dev n)).toNat ∧ OnlyLane n s.dev d := by
  obtain ⟨hnext, hcoil, honly⟩ := chopperPass_leaves (b := b) hp hs hk
  refine ⟨_, rfl, hcoil.passes, hnext, hcoil.prevPc, ?_, honly⟩
  rw [hcoil.theta, hcoil.prevPc]
  rfl

end Passes

/-! ## Between passes (R201, R208) -/

section Between
variable {n : Fin 16} {s : State} {d : Dev} {v : Vector Word 4}

theorem exec_chopperModeTimeout (n : Fin 16) (s : State) : exec (.chopperModeTimeout n) s = .next { s with
    dev := (if (s.dev.lane n).wanted then s.dev.setLane n { s.dev.lane n with forced := true } else s.dev) } := rfl

theorem chopperModeTimeout_forces (h : (s.dev.lane n).wanted = true) : exec (.chopperModeTimeout n) s =
    .next { s with dev := (s.dev.setLane n { s.dev.lane n with forced := true }) } := by
  rw [exec_chopperModeTimeout, if_pos h]

/-- Compares that wait are loaded at the valley, or dropped where the lane no longer runs. -/
theorem carrierValley_waiting (hw : (d.lane n).wait = some v) : carrierValley n d =
    if laneRuns d n then d.setLane n { d.lane n with wait := none, load := v, drive := true }
    else d.setLane n { d.lane n with wait := none, drive := false } := by
  simp only [carrierValley, hw]

theorem exec_carrierValley (n : Fin 16) (s : State) :
    exec (.carrierValley n) s = .next { s with dev := carrierValley n s.dev } := rfl

theorem carrierValley_loads (hw : (s.dev.lane n).wait = some v) (h : laneRuns s.dev n = true) : exec (.carrierValley n) s =
    .next { s with dev := (s.dev.setLane n { s.dev.lane n with wait := none, load := v, drive := true }) } := by
  rw [exec_carrierValley, carrierValley_waiting hw, if_pos h]

theorem carrierValley_drops (hw : (s.dev.lane n).wait = some v) (h : laneRuns s.dev n = false) : exec (.carrierValley n) s =
    .next { s with dev := (s.dev.setLane n { s.dev.lane n with wait := none, drive := false }) } := by
  rw [exec_carrierValley, carrierValley_waiting hw, if_neg (by simp [h])]

end Between

/-! ## Overruns (R189, R235) -/

section Overrun
variable {n : Fin 16} {s : State} {d : Dev} {src : Overrun}

theorem raises_of_ticking (h : ticking d = true) : Raises d := by
  simp only [ticking, Bool.and_eq_true, Bool.not_eq_true'] at h
  obtain ⟨⟨-, hstopped⟩, -⟩ := h
  exact raises_awake hstopped

/-- The tick that an overrun abandons: its work stops now, and the guard abandons it. -/
theorem abandonedTick_working {now : Nat} {t : Tick} (hp : t.phase ≠ .idle) (hw : t.stopWork = false) :
    abandonedTick true now t = { t with stopWork := true, stopAt := now, slipGuard := true } := by
  simp [abandonedTick, hp, hw]

/-- A pass of a lane that runs, or an item of a graph that is active, overruns in a tick whose work goes on. -/
theorem engineOverrun_slips (ht : ticking d = true)
    (hsrc : src = .lane n ∧ laneRuns d n = true ∨ ∃ g, src = .item g ∧ (d.vg g).active.isSome = true)
    (hp : d.tick.phase ≠ .idle) (hw : d.tick.stopWork = false) :
    engineOverrun src d = fault 3 .slip 64 (d.setReg TCK_GUARD 64) := by
  rcases hsrc with ⟨rfl, hrun⟩ | ⟨g, rfl, hact⟩
  · simp [engineOverrun, ht, hrun, hp, hw]
  · simp [engineOverrun, ht, hact, hp, hw]

theorem overrun_abandons (ht : ticking s.dev = true)
    (hsrc : src = .lane n ∧ laneRuns s.dev n = true ∨ ∃ g, src = .item g ∧ (s.dev.vg g).active.isSome = true)
    (hp : s.dev.tick.phase ≠ .idle) (hw : s.dev.tick.stopWork = false) :
    ∃ d, exec (.engineOverrun src) s = .next { s with dev := d } ∧ d.reg TCK_GUARD = 64 ∧
      d.tick = { s.dev.tick with stopWork := true, stopAt := s.dev.now, slipGuard := true } ∧ d.flag (EVT_STICKY 0) 3 = true := by
  have hexec : exec (.engineOverrun src) s = .next { s with dev := engineOverrun src s.dev } := rfl
  rw [engineOverrun_slips ht hsrc hp hw] at hexec
  have hraises : Raises (s.dev.setReg TCK_GUARD 64) :=
    ((EventsStand.refl s.dev).setReg (a := TCK_GUARD) (by decide) (by decide) 64).1 (raises_of_ticking ht)
  obtain ⟨hsticky, -⟩ := faultAt_stuck 3 .slip 64 false true true (s.dev.setReg TCK_GUARD 64) (by decide) (by decide) hraises
  have hview := faultAt_faultView 3 .slip 64 false true true (s.dev.setReg TCK_GUARD 64) (by decide)
  refine ⟨_, hexec, ?_, ?_, hsticky⟩
  · rw [fault, faultAt_reg (offEvents_of_block (by decide) (by decide)) (by decide) (by decide) (by decide), Dev.reg_setReg,
      if_pos rfl]
  · exact (congrArg FaultView.tick hview).trans (abandonedTick_working hp hw)

end Overrun

/-! ## The obligation -/

/-- Settles O22: a pass by the parts of its law where no hook runs, a trip by what every other lane's trip leaves of the lane. -/
theorem controlEngine : Obligations.ControlEngine := by
  unfold Obligations.ControlEngine
  refine ⟨fun n b s hp hs => ⟨controlPass_torque hp hs b, chopperPass_coil hp hs b⟩,
    fun n s => ⟨chopperModeTimeout_forces, fun v hw => ⟨carrierValley_loads hw, carrierValley_drops hw⟩,
      fun src => overrun_abandons⟩,
    fun c n s hm h9 => ⟨fun i hlim hover => ?_, ?_⟩⟩
  · obtain ⟨hcause, htrip, hlane, haxes, helse⟩ := overcurrent_trips hm h9 hlim hover
    exact ⟨_, rfl, hcause, htrip, by rw [hlane, trippedLane], by rw [hlane, trippedLane], haxes, helse⟩
  · obtain ⟨⟨hcause, htrip, hlane, haxes, helse⟩, hshown⟩ := sdError_trips hm h9
    exact ⟨_, rfl, hcause, htrip, by rw [hlane, trippedLane], hshown, haxes, helse⟩

end Sys2Proof.Proofs
end

section
/-! PROOFS. The frame of a print port (10_print.md): its state, and what its operations leave of the other port and of the rest of the
device. -/
namespace Sys2Proof.Proofs
open Sys2Proof Sys2Proof.Machine Sys2Proof.Claims

/-! ## The state of a port -/

section PortState
variable (d : Dev) (p k : Fin 2) (x y : Prt) (a i n : Nat) (b : Bool) (v : Word)

@[simp] theorem prtp_setPrt : (d.setPrt p x).prtp p = x := by simp [Dev.prtp, Dev.setPrt]

theorem prtp_setPrt_other (h : k ≠ p) : (d.setPrt p x).prtp k = d.prtp k := by
  have hval : p.val ≠ k.val := fun e => h (Fin.ext e.symm)
  simp [Dev.prtp, Dev.setPrt, hval]

@[simp] theorem setPrt_setPrt : (d.setPrt p x).setPrt p y = d.setPrt p y := by simp [Dev.setPrt]

theorem setPrt_self : d.setPrt p (d.prtp p) = d := by simp [Dev.setPrt, Dev.prtp]

@[simp] theorem setPrt_regs : (d.setPrt p x).regs = d.regs := rfl
@[simp] theorem setPrt_now : (d.setPrt p x).now = d.now := rfl
@[simp] theorem reg_setPrt : (d.setPrt p x).reg a = d.reg a := rfl
@[simp] theorem reg_tickFree : d.tickFree.reg a = d.reg a := rfl
@[simp] theorem flag_setPrt : (d.setPrt p x).flag a i = d.flag a i := rfl

@[simp] theorem prtp_setReg : (d.setReg a v).prtp k = d.prtp k := rfl
@[simp] theorem prtp_setFlag : (Dev.setFlag a i b d).prtp k = d.prtp k := rfl
@[simp] theorem prtp_reach : (d.reach n).prtp k = d.prtp k := rfl
@[simp] theorem prtp_tickFree : d.tickFree.prtp k = d.prtp k := rfl

theorem raise_prt : (raise n d).prt = d.prt := by
  obtain ⟨r, v, m, h⟩ := raise_frame n d
  rw [h]

@[simp] theorem prtp_raise : (raise n d).prtp k = d.prtp k := congrArg (·[k]) (raise_prt d n)

@[simp] theorem raise_now : (raise n d).now = d.now := congrArg FaultView.now (raise_faultView n d)

end PortState

/-! ## What a step of one port touches -/

section PortStep

/-- From device d a step of port p goes to device e: it moves the instant, registers, the events, the count of free values and the
port, and nothing else. -/
def PortStep (p : Fin 2) (d e : Dev) : Prop :=
  ∃ t r v m n x, e = ({ d with now := t, regs := r, ev := v, mon := m, freeCtr := n } : Dev).setPrt p x

variable {p : Fin 2} {d e f : Dev}

theorem PortStep.refl (p : Fin 2) (d : Dev) : PortStep p d d := ⟨d.now, d.regs, d.ev, d.mon, d.freeCtr, d.prtp p, (setPrt_self d p).symm⟩

theorem PortStep.trans (h : PortStep p d e) (k : PortStep p e f) : PortStep p d f := by
  obtain ⟨t, r, v, m, n, x, rfl⟩ := h
  obtain ⟨t', r', v', m', n', y, rfl⟩ := k
  exact ⟨t', r', v', m', n', y, setPrt_setPrt ({ d with now := t', regs := r', ev := v', mon := m', freeCtr := n' } : Dev) p x y⟩

/-- What holds for every device holds after a step. -/
theorem PortStep.andThen {g : Dev → Dev} (h : PortStep p d e) (hg : ∀ c, PortStep p c (g c)) : PortStep p d (g e) := h.trans (hg e)

theorem PortStep.setPrt (h : PortStep p d e) (x : Prt) : PortStep p d (e.setPrt p x) :=
  h.trans ⟨e.now, e.regs, e.ev, e.mon, e.freeCtr, x, rfl⟩

theorem PortStep.beside (h : PortStep p d e) (t : Nat) (r : SMap Word) (v : Events) (m : Mon) (n : Nat) :
    PortStep p d { e with now := t, regs := r, ev := v, mon := m, freeCtr := n } := by
  obtain ⟨_, _, _, _, _, x, rfl⟩ := h
  exact ⟨t, r, v, m, n, x, rfl⟩

theorem PortStep.setReg (h : PortStep p d e) (a : Nat) (v : Word) : PortStep p d (e.setReg a v) := h.beside _ _ _ _ _

theorem PortStep.setFlag (h : PortStep p d e) (a i : Nat) (b : Bool) : PortStep p d (Dev.setFlag a i b e) := h.setReg a _

theorem PortStep.raise (h : PortStep p d e) (ev : Nat) : PortStep p d (raise ev e) := by
  obtain ⟨r, v, m, hr⟩ := raise_frame ev e
  rw [hr]
  exact h.beside e.now r v m e.freeCtr

theorem PortStep.reach (h : PortStep p d e) (t : Nat) : PortStep p d (e.reach t) := h.beside _ _ _ _ _

theorem PortStep.tickFree (h : PortStep p d e) : PortStep p d e.tickFree := h.beside _ _ _ _ _

theorem PortStep.only (h : PortStep p d e) : OnlyPrt p d e := by
  obtain ⟨t, r, v, m, n, x, rfl⟩ := h
  exact ⟨⟨rfl, rfl, rfl, rfl, ⟨rfl, rfl⟩, rfl, rfl, rfl, rfl⟩, fun k hk => prtp_setPrt_other _ p k x hk⟩

end PortStep

/-! ## The operations of a port -/

section Operations
variable (p : Fin 2) (d : Dev)

/-- Shifting ahead changes the port's shift alone. -/
theorem shiftNext_eq : ∃ h, shiftNext p d = d.setPrt p { d.prtp p with shift := h } := by
  unfold shiftNext
  split
  · exact ⟨(d.prtp p).shift, (setPrt_self d p).symm⟩
  · next j r hnext =>
    extract_lets x have_ start
    by_cases hkept : (have_ || !(missingRows d p j r).isEmpty) = true
    · rw [if_pos hkept]
      exact ⟨(d.prtp p).shift, (setPrt_self d p).symm⟩
    · rw [if_neg hkept]
      exact ⟨_, rfl⟩

theorem shiftNext_step : PortStep p d (shiftNext p d) := by
  obtain ⟨h, hs⟩ := shiftNext_eq p d
  rw [hs]
  exact (PortStep.refl p d).setPrt _

theorem prtStatus_step : PortStep p d (prtStatus p d) := by
  unfold prtStatus
  exact (((((PortStep.refl p d).setFlag _ _ _).setFlag _ _ _).setFlag _ _ _).setFlag _ _ _).setFlag _ _ _

theorem setRdIdx_step (i : Nat) : PortStep p d (setRdIdx p i d) := ((PortStep.refl p d).setReg _ _).setPrt _

theorem advanceRd_step : PortStep p d (advanceRd p d) := by
  unfold advanceRd
  extract_lets x
  split
  · exact .refl p d
  · exact setRdIdx_step p d _

theorem skipCount_step (n : Nat) : PortStep p d (skipCount p n d) := (PortStep.refl p d).setReg _ _

theorem jobDone_step (j : Job) : PortStep p d (jobDone p j d) := (((setRdIdx_step p d _).setPrt _).setFlag _ _ _).raise _

theorem jobFinish_step : PortStep p d (jobFinish p d) := by
  unfold jobFinish
  extract_lets x
  split
  · exact .refl p d
  · next j _ =>
    extract_lets e y
    have hdone : PortStep p d e := jobDone_step p d j
    split
    · exact .refl p d
    · split
      · split
        · exact (hdone.setPrt _).andThen (jobDone_step p · _)
        · exact hdone
      · exact hdone

theorem jobStart_step (start : Word) (rows : Nat) : PortStep p d (jobStart p start rows d) := by
  unfold jobStart
  extract_lets j n y e
  have he : PortStep p d e := (PortStep.refl p d).setPrt _
  split
  · exact he
  · exact ((he.andThen (skipCount_step p · n)).andThen (advanceRd_step p)).andThen (jobFinish_step p)

theorem queuePass_step : PortStep p d (queuePass p d) := by
  unfold queuePass
  extract_lets x
  split
  · extract_lets n
    split
    · exact .refl p d
    · exact ((PortStep.refl p d).setPrt _).andThen (skipCount_step p · n)
  · exact .refl p d

theorem jobGo_step : PortStep p d (jobGo p d) := by
  unfold jobGo
  extract_lets x start rows
  refine PortStep.andThen ?_ (prtStatus_step p)
  split
  · exact ((PortStep.refl p d).setFlag _ _ _).raise _
  · split
    · exact (jobStart_step p d start rows).andThen (shiftNext_step p)
    · exact (((PortStep.refl p d).setPrt _).andThen (queuePass_step p)).andThen (shiftNext_step p)

theorem jobAbort_step : PortStep p d (jobAbort p d) := by
  unfold jobAbort
  extract_lets x
  refine PortStep.andThen ?_ (prtStatus_step p)
  split
  · exact (PortStep.refl p d).setPrt _
  · exact ((PortStep.refl p d).setReg _ _).setPrt _

theorem fireIndex_step (r : Nat) (blank : Bool) (t : Nat) : PortStep p d (fireIndex p r blank t d) := (PortStep.refl p d).setPrt _

theorem lateIndex_step : PortStep p d (lateIndex p d) := (((PortStep.refl p d).setReg _ _).setFlag _ _ _).raise _

theorem queueIndex_step (r : Nat) (blank : Bool) : PortStep p d (queueIndex p r blank d) := by
  unfold queueIndex
  extract_lets x
  split
  · exact ((skipCount_step p d 1).setFlag _ _ _).raise _
  · split
    · exact ((fireIndex_step p d r blank _).tickFree).andThen (shiftNext_step p)
    · exact (((PortStep.refl p d).setPrt _).setFlag _ _ _).andThen (shiftNext_step p)

theorem fireLate_step {fire : Dev → Dev} (hfire : ∀ e, PortStep p e (fire e)) : PortStep p d (fireLate p fire d) := by
  unfold fireLate
  split
  · exact (lateIndex_step p d).andThen (jobAbort_step p)
  · exact (lateIndex_step p d).andThen hfire

theorem indexDue_step : PortStep p d (indexDue p d) := by
  unfold indexDue
  extract_lets x
  split
  · exact .refl p d
  · split
    · exact .refl p d
    · extract_lets r e miss
      have he : PortStep p d e := (PortStep.refl p d).setPrt _
      refine PortStep.andThen (PortStep.andThen ?_ (jobFinish_step p)) (prtStatus_step p)
      split
      · exact ((he.andThen (skipCount_step p · 1)).andThen (advanceRd_step p)).andThen (shiftNext_step p)
      · split
        · exact he.andThen (fireLate_step p · (fun c => ((PortStep.refl p c).setPrt _).andThen (queueIndex_step p · r true)))
        · exact he.andThen (queueIndex_step p · r false)

theorem delayedFiring_step : PortStep p d (delayedFiring p d) := by
  unfold delayedFiring
  split
  · next r blank _ _ =>
    extract_lets e y e'
    have he : PortStep p d e' := ((PortStep.refl p d).reach _).setPrt _
    have hfire (b : Bool) (c : Dev) : PortStep p c (shiftNext p (fireIndex p r b c.now c)) :=
      (fireIndex_step p c r b _).andThen (shiftNext_step p)
    refine PortStep.andThen ?_ (prtStatus_step p)
    split
    · exact ((he.andThen (skipCount_step p · 1)).andThen (advanceRd_step p)).andThen (jobFinish_step p) |>.andThen (shiftNext_step p)
    · split
      · exact he.andThen (fireLate_step p · (hfire true))
      · exact he.andThen (hfire blank)
  · exact .refl p d

theorem firingEnd_step : PortStep p d (firingEnd p d) := by
  unfold firingEnd
  split
  · exact .refl p d
  · next f _ =>
    extract_lets e y e' e'' done
    have he : PortStep p d e' := ((PortStep.refl p d).reach _).setPrt _
    have he' : PortStep p d e'' := by
      by_cases hown : f.own = true
      · rw [show e'' = jobFinish p (advanceRd p e') from if_pos hown]
        exact (he.andThen (advanceRd_step p)).andThen (jobFinish_step p)
      · rw [show e'' = e' from if_neg hown]
        exact he
    exact ((he'.reach done).andThen (shiftNext_step p)).andThen (prtStatus_step p)

theorem headFault_step (low : Bool) : PortStep p d (headFault p low d) := by
  unfold headFault
  extract_lets x e
  have he : PortStep p d e := (PortStep.refl p d).setPrt _
  split
  · exact ((he.setPrt _).setFlag _ _ _).raise _
  · exact he

theorem retable_step : PortStep p d (retable p d) := (PortStep.refl p d).setPrt _

end Operations

end Sys2Proof.Proofs
end

section
/-! PROOFS. The registers and the status of a print port, its jobs (R216 to R218), the rows that it fetches (R215, R221) and its
tables (R220). -/
namespace Sys2Proof.Proofs
open Sys2Proof Sys2Proof.Machine Sys2Proof.Claims

/-! ## Registers of a port -/

section Registers
variable (p k : Fin 2) (d : Dev) {a i : Nat}

theorem prtBlock_offEvents (h : a / 0x10000 = 0x107) : OffEvents a := offEvents_of_block (by omega) (by omega)

theorem prtStat_offEvents : OffEvents (PRT_STAT p) := prtBlock_offEvents (by unfold PRT_STAT; omega)

theorem prtRdidx_ne_stat : PRT_RDIDX p ≠ PRT_STAT p := by unfold PRT_RDIDX PRT_STAT; omega

theorem prtLatecnt_ne_stat : PRT_LATECNT p ≠ PRT_STAT p := by unfold PRT_LATECNT PRT_STAT; omega

/-- A flag of PRTp_STAT stands when its event has been raised. -/
theorem raise_stat (ev : Nat) : (raise ev d).flag (PRT_STAT p) i = d.flag (PRT_STAT p) i := by
  rw [Dev.flag, raise_reg (prtStat_offEvents p), ← Dev.flag]

theorem flagged_stat (hi : i < 32) (ev : Nat) : (raise ev (Dev.setFlag (PRT_STAT p) i true d)).flag (PRT_STAT p) i = true := by
  rw [raise_stat, flag_setFlag_same hi]

theorem flagged_reg (h : a / 0x10000 = 0x107) (hs : a ≠ PRT_STAT p) (ev i : Nat) :
    (raise ev (Dev.setFlag (PRT_STAT p) i true d)).reg a = d.reg a := by
  rw [raise_reg (prtBlock_offEvents h), Dev.reg_setFlag_other _ _ _ _ _ hs]

/-! ## The status bits that follow the port -/

@[simp] theorem prtStatus_prtp : (prtStatus p d).prtp k = d.prtp k := by
  unfold prtStatus
  simp only [prtp_setFlag]

theorem prtStatus_prt : (prtStatus p d).prt = d.prt := by
  unfold prtStatus
  simp only [Dev.setFlag_prt]

theorem prtStatus_reg (h : a ≠ PRT_STAT p) : (prtStatus p d).reg a = d.reg a := by
  unfold prtStatus
  simp only [Dev.reg_setFlag_other _ _ _ _ _ h]

theorem prtStatus_flag (h : 6 < i) : (prtStatus p d).flag (PRT_STAT p) i = d.flag (PRT_STAT p) i := by
  unfold prtStatus
  rw [flag_setFlag_other (by omega), flag_setFlag_other (by omega), flag_setFlag_other (by omega), flag_setFlag_other (by omega),
    flag_setFlag_other (by omega)]

theorem prtStatus_active : (prtStatus p d).flag (PRT_STAT p) 2 = (d.prtp p).active.isSome := by
  unfold prtStatus
  exact flag_setFlag_same (by decide) _ _ _

theorem prtStatus_queued : (prtStatus p d).flag (PRT_STAT p) 3 = (d.prtp p).queued.isSome := by
  unfold prtStatus
  rw [flag_setFlag_other (by decide), flag_setFlag_same (by decide)]

theorem prtStatus_armed {j : Job} (h : (d.prtp p).active = some j) :
    (prtStatus p d).flag (PRT_STAT p) 4 = decide (j.next = 0) := by
  unfold prtStatus
  rw [flag_setFlag_other (by decide), flag_setFlag_other (by decide), flag_setFlag_same (by decide), h]

/-! ## Shifting ahead leaves the rest of the port -/

theorem shiftNext_prtp : (shiftNext p d).prtp p = { d.prtp p with shift := ((shiftNext p d).prtp p).shift } := by
  obtain ⟨h, hs⟩ := shiftNext_eq p d
  simp only [hs, prtp_setPrt]

@[simp] theorem shiftNext_regs : (shiftNext p d).regs = d.regs := by
  obtain ⟨h, hs⟩ := shiftNext_eq p d
  rw [hs, setPrt_regs]

@[simp] theorem shiftNext_reg : (shiftNext p d).reg a = d.reg a := Dev.reg_congr (shiftNext_regs p d) a

@[simp] theorem shiftNext_flag : (shiftNext p d).flag a i = d.flag a i := by rw [Dev.flag, shiftNext_reg, ← Dev.flag]

@[simp] theorem shiftNext_active : ((shiftNext p d).prtp p).active = (d.prtp p).active := (congrArg Prt.active (shiftNext_prtp p d) :)
@[simp] theorem shiftNext_queued : ((shiftNext p d).prtp p).queued = (d.prtp p).queued := (congrArg Prt.queued (shiftNext_prtp p d) :)
@[simp] theorem shiftNext_firing : ((shiftNext p d).prtp p).firing = (d.prtp p).firing := (congrArg Prt.firing (shiftNext_prtp p d) :)
@[simp] theorem shiftNext_waiting : ((shiftNext p d).prtp p).waiting = (d.prtp p).waiting :=
  (congrArg Prt.waiting (shiftNext_prtp p d) :)
@[simp] theorem shiftNext_lastDue : ((shiftNext p d).prtp p).lastDue = (d.prtp p).lastDue :=
  (congrArg Prt.lastDue (shiftNext_prtp p d) :)

/-- The port whose next shift begins, with its status shown. -/
theorem shown_prtp {x : Prt} : (prtStatus p (shiftNext p (d.setPrt p x))).prtp p =
    { x with shift := ((prtStatus p (shiftNext p (d.setPrt p x))).prtp p).shift } := by
  rw [prtStatus_prtp, shiftNext_prtp]
  simp only [prtp_setPrt]

end Registers

/-! ## GO (R216, R217) -/

section Go
variable {p : Fin 2} {d : Dev} {j : Job}

/-- GO is accepted by a port with a ring, rows, a feed, EN and no queued job, and its job starts ahead of the source. -/
structure GoAccepted (p : Fin 2) (d : Dev) : Prop where
  ring   : prtRingRows d p ≠ 0
  rows   : d.fld (PRT_JOBROWS p) 15 0 ≠ 0
  feed   : feedReady d p = true
  on_    : d.flag (PRT_CFG p) 0 = true
  free   : (d.prtp p).queued = none
  before : shortest (d.prtp p).pos (d.reg (PRT_JOBSTART p)) < 0

/-- Index 0 falls due at JOBSTART. -/
theorem dueAt_zero (d : Dev) (p : Nat) : dueAt d p 0 = 0 := by
  unfold dueAt
  extract_lets num den
  split
  · rfl
  · rw [Nat.zero_mul, Nat.zero_add, Nat.div_eq_of_lt (by omega)]
    rfl

/-- Before JOBSTART no index of a job is due. -/
theorem dueNow_before (hn : j.next = 0) (h : jobDist (d.prtp p) j < 0) : dueNow d p j = 0 := by
  unfold dueNow
  rw [hn]
  cases jobTotal d p j - 0 with
  | zero => rfl
  | succ n => rw [dueCount, dueAt_zero, if_neg (by omega)]

/-- No index of the queued job passes while none is due. -/
theorem queuePass_before (hq : (d.prtp p).queued = some j) (h : dueNow d p j = 0) : queuePass p d = d := by
  unfold queuePass
  extract_lets x
  split
  · next i q _ hx =>
    obtain rfl : j = q := Option.some.inj (hq.symm.trans hx)
    exact if_pos h
  · rfl

theorem jobGo_refused (h : (d.prtp p).queued.isSome = true ∨ feedReady d p = false) :
    jobGo p d = prtStatus p (jobError p d) := by
  unfold jobGo
  extract_lets x start rows
  rw [if_pos (by tauto)]

section
variable (h : GoAccepted p d)
include h

theorem jobGo_accepted : jobGo p d = prtStatus p (shiftNext p (
    if (d.prtp p).active.isNone then jobStart p (d.reg (PRT_JOBSTART p)) (d.fld (PRT_JOBROWS p) 15 0) d
    else queuePass p (d.setPrt p { d.prtp p with queued := some { freshJob d p with first := 0 } }))) := by
  obtain ⟨hring, hrows, hfeed, hon, hfree, -⟩ := h
  unfold jobGo
  extract_lets x start rows
  rw [if_neg (by simp [x, rows, hring, hrows, hfeed, hon, hfree]), apply_ite (shiftNext p)]
  rfl

theorem jobGo_starts (ha : (d.prtp p).active = none) :
    jobGo p d = prtStatus p (shiftNext p (d.setPrt p { d.prtp p with active := some (freshJob d p) })) := by
  have hdue : dueNow d p (freshJob d p) = 0 := dueNow_before rfl h.before
  have hstart : jobStart p (d.reg (PRT_JOBSTART p)) (d.fld (PRT_JOBROWS p) 15 0) d =
      d.setPrt p { d.prtp p with active := some { freshJob d p with next := dueNow d p (freshJob d p) } } := if_pos hdue
  rw [jobGo_accepted h, ha, Option.isNone_none, if_pos rfl, hstart, hdue]
  rfl

theorem jobGo_queues (ha : (d.prtp p).active.isSome = true) :
    jobGo p d = prtStatus p (shiftNext p (d.setPrt p { d.prtp p with queued := some { freshJob d p with first := 0 } })) := by
  have hdue : dueNow (d.setPrt p { d.prtp p with queued := some { freshJob d p with first := 0 } }) p
      { freshJob d p with first := 0 } = 0 := dueNow_before rfl (by rw [prtp_setPrt]; exact h.before)
  have hqueued : ((d.setPrt p { d.prtp p with queued := some { freshJob d p with first := 0 } }).prtp p).queued =
      some { freshJob d p with first := 0 } := congrArg Prt.queued (prtp_setPrt d p _)
  rw [jobGo_accepted h, if_neg (by simpa [Option.isSome_iff_ne_none] using ha), queuePass_before hqueued hdue]

end

/-! ## ABORT (R218) -/

/-- The port after ABORT of its active job: the row that is firing completes, and the next row to fetch is past the job. -/
def abortedPort (j : Job) (x : Prt) : Prt :=
  { x with active := none, queued := none, shift := none, waiting := none, fifo := [], late := [],
           fetch := (j.first + j.rows) % 65536, firing := x.firing.map (fun f => { f with own := false }) }

theorem jobAbort_active (h : (d.prtp p).active = some j) : jobAbort p d = prtStatus p
    ((d.setReg (PRT_RDIDX p) (word ((j.first + j.rows) % 65536))).setPrt p (abortedPort j (d.prtp p))) := by
  unfold jobAbort
  simp only [h]
  rfl

/-- What ABORT of an active job leaves. -/
structure Aborted (p : Fin 2) (j : Job) (d e : Dev) : Prop where
  active  : (e.prtp p).active = none
  queued  : (e.prtp p).queued = none
  waiting : (e.prtp p).waiting = none
  firing  : (e.prtp p).firing = (d.prtp p).firing.map (fun f => { f with own := false })
  rdidx   : e.reg (PRT_RDIDX p) = word ((j.first + j.rows) % 65536)
  regs    : ∀ a, a ≠ PRT_RDIDX p → a ≠ PRT_STAT p → e.reg a = d.reg a
  stat    : ∀ i, 6 < i → e.flag (PRT_STAT p) i = d.flag (PRT_STAT p) i

theorem jobAbort_leaves (h : (d.prtp p).active = some j) : Aborted p j d (jobAbort p d) := by
  have hport : (jobAbort p d).prtp p = abortedPort j (d.prtp p) := by rw [jobAbort_active h, prtStatus_prtp, prtp_setPrt]
  have hne : PRT_STAT p ≠ PRT_RDIDX p := (prtRdidx_ne_stat p).symm
  refine ⟨by rw [hport, abortedPort], by rw [hport, abortedPort], by rw [hport, abortedPort], by rw [hport, abortedPort], ?_,
    fun a ha hs => ?_, fun i hi => ?_⟩
  · rw [jobAbort_active h, prtStatus_reg _ _ (prtRdidx_ne_stat p), reg_setPrt, Dev.reg_setReg, if_pos rfl]
  · rw [jobAbort_active h, prtStatus_reg _ _ hs, reg_setPrt, Dev.reg_setReg, if_neg ha]
  · rw [jobAbort_active h, prtStatus_flag _ _ hi, flag_setPrt, Dev.flag, Dev.reg_setReg, if_neg hne, ← Dev.flag]

theorem jobAbort_shows (p : Fin 2) (d : Dev) : (jobAbort p d).flag (PRT_STAT p) 2 = ((jobAbort p d).prtp p).active.isSome := by
  rw [jobAbort, prtStatus_active, prtStatus_prtp]

end Go

/-! ## Rows (R215, R221) -/

section Rows
variable {p : Fin 2} {d : Dev} {err : Option SramError}

/-- Where the next row to fetch lies in tick SRAM. -/
def rowAddr (d : Dev) (p : Fin 2) : Nat :=
  (d.reg (PRT_RINGBASE p)).toNat + (d.prtp p).fetch % prtRingRows d p * rowBytes d p

/-- The device with the next row in the FIFO, its bytes as the read gave them. -/
def rowTaken (p : Fin 2) (err : Option SramError) (d : Dev) : Dev :=
  d.setPrt p { d.prtp p with
    fetch := ((d.prtp p).fetch + 1) % 65536
    fifo := (d.prtp p).fifo ++ [((d.prtp p).fetch, sramData err (rowAddr d p) (d.sram.bytes (rowAddr d p) (rowBytes d p)) d)] }

theorem sramErr_prtp (err : Option SramError) (a n : Nat) (d : Dev) : (sramErr err a n d).prtp p = d.prtp p := by
  obtain ⟨r, v, m, f, t, c, he⟩ := sramErr_only err a n d
  rw [he]
  rfl

theorem sramErr_sram (err : Option SramError) (a n : Nat) (d : Dev) : (sramErr err a n d).sram = d.sram := by
  obtain ⟨r, v, m, f, t, c, he⟩ := sramErr_only err a n d
  rw [he]

theorem sramErr_raises {e : SramError} {a n : Nat} (h1 : a ≤ e.addr) (h2 : e.addr < a + n) (hs : d.pw.stopped = false) :
    (sramErr (some e) a n d).flag (EVT_STICKY 7) (if e.uncorrectable then 1 else 0) = true ∧
      (e.uncorrectable = true → d.tick.phase ≠ .idle →
        (sramErr (some e) a n d).tick.stopWork = true ∧ (sramErr (some e) a n d).tick.slipFault = true) := by
  cases he : e.uncorrectable
  · exact ⟨(sramErr_corrected_shows ⟨h1, h2⟩ he hs).1, fun hc => absurd hc Bool.false_ne_true⟩
  · obtain ⟨hflag, htick⟩ := sramErr_uncorrectable_shows ⟨h1, h2⟩ he hs
    exact ⟨hflag, fun _ => htick⟩

variable (ha : rowAvailable d p = true) (hroom : (d.prtp p).fifo.length < 16)
include ha hroom

theorem rowFetch_late (hlate : (d.prtp p).late.contains (d.prtp p).fetch = true) (err : Option SramError) :
    rowFetch p err d = shiftNext p (d.setPrt p { d.prtp p with fetch := ((d.prtp p).fetch + 1) % 65536 }) := by
  unfold rowFetch
  extract_lets x i a next bs
  rw [if_neg (by simp [x, ha, hroom])]
  exact congrArg (shiftNext p) (if_pos hlate)

theorem rowFetch_copies (hlate : (d.prtp p).late.contains (d.prtp p).fetch = false) (err : Option SramError) :
    rowFetch p err d = shiftNext p (sramErr err (rowAddr d p) (rowBytes d p) (rowTaken p err d)) := by
  unfold rowFetch
  extract_lets x i a next bs
  rw [if_neg (by simp [x, ha, hroom])]
  exact congrArg (shiftNext p) (if_neg (Bool.eq_false_iff.mp hlate))

end Rows

/-! ## Tables (R220) -/

section Tables
variable {p : Fin 2} {v : Word} {d : Dev}

/-- One field of a table's register takes a value; a shift that has yet to begin takes the new words. -/
def tableWritten (p : Fin 2) (a hi lo v : Nat) (d : Dev) : Dev := retable p (Dev.setFld a hi lo v d)

theorem densityWrite_valid (h : bit v 31 = true) (d : Dev) : densityWrite p v d =
    tableWritten p (PRT_DEN p (4 * bits v 1 0 + bits v 5 2 / 4)) (8 * (bits v 5 2 % 4) + 7) (8 * (bits v 5 2 % 4)) (bits v 15 8) d := by
  simp [densityWrite, tableWritten, h]

theorem densityWrite_invalid (h : bit v 31 = false) (d : Dev) : densityWrite p v d = d := by simp [densityWrite, h]

theorem sliceWrite_valid (h : bit v 15 = true) (d : Dev) : sliceWrite p v d =
    tableWritten p (PRT_SLW p (4 * bits v 1 0 + bits v 4 2 / 2)) (16 * (bits v 4 2 % 2) + 15) (16 * (bits v 4 2 % 2))
      (bits v 31 16) d := by
  simp [sliceWrite, tableWritten, h]

theorem sliceWrite_invalid (h : bit v 15 = false) (d : Dev) : sliceWrite p v d = d := by simp [sliceWrite, h]

variable {a hi lo n : Nat}

theorem tableWritten_reg (p : Fin 2) (a hi lo n b : Nat) (d : Dev) :
    (tableWritten p a hi lo n d).reg b = (Dev.setFld a hi lo n d).reg b := rfl

theorem tableWritten_fld (hhi : hi < 32) (hn : n < 2 ^ (hi + 1 - lo)) : (tableWritten p a hi lo n d).fld a hi lo = n := by
  rw [Dev.fld, tableWritten_reg, Dev.reg_setFld, bits_setBits_same hhi, Nat.mod_eq_of_lt hn]

theorem tableWritten_reg_other {b : Nat} (hb : b ≠ a) : (tableWritten p a hi lo n d).reg b = d.reg b := by
  rw [tableWritten_reg, Dev.reg_setFld_other _ _ _ _ _ _ hb]

theorem tableWritten_only : OnlyPrt p d (tableWritten p a hi lo n d) :=
  (((PortStep.refl p d).setReg a _).andThen (retable_step p)).only

theorem tableWritten_firing : ((tableWritten p a hi lo n d).prtp p).firing = (d.prtp p).firing := by
  rw [tableWritten, retable, prtp_setPrt]
  rfl

/-- A shift that has begun keeps its words. -/
theorem tableWritten_shift {h : Shift} (hs : (d.prtp p).shift = some h) (hstart : h.start ≤ d.now) :
    ((tableWritten p a hi lo n d).prtp p).shift = some h := by
  have hkept : ¬ d.now < h.start := Nat.not_lt.mpr hstart
  have hshift : ((Dev.setFld a hi lo n d).prtp p).shift = some h := hs
  rw [tableWritten, retable]
  simp only [prtp_setPrt, hshift, Option.map_some]
  exact congrArg some (if_neg hkept)

end Tables

end Sys2Proof.Proofs
end

section
/-! PROOFS. The firing of a print port (R213, R217 to R222): an index that fires, waits or is skipped, one that falls due without its
rows, and the end of a firing. -/
namespace Sys2Proof.Proofs
open Sys2Proof Sys2Proof.Machine Sys2Proof.Claims

/-! ## An index fires (R219, R220) -/

section Fire
variable (p : Fin 2) (r t : Nat) (blank : Bool) (d : Dev)

/-- The words and the rows that a firing takes: those of its shift, none where it is blank. -/
def shiftWords : List Word × List Word × List (Option (List Byte)) :=
  match (d.prtp p).shift.filter (fun _ => !blank) with
  | some h => (h.den, h.slw, h.rows)
  | none => (denWords d p, slwWords d p, [])

/-- The firing of index r whose PHp_LAT rises at t; that a blank one raises no strobe is the model's choice (log entry 131). -/
def firingOf : Firing :=
  ⟨r, blank, !blank, true, d.reg (PRT_CFG p), prtDots d p, prtColours d p, t, (shiftWords p blank d).1, (shiftWords p blank d).2.1,
    (shiftWords p blank d).2.2⟩

theorem shiftWords_shifted {h : Shift} (hs : (d.prtp p).shift = some h) : shiftWords p false d = (h.den, h.slw, h.rows) := by
  rw [shiftWords, hs]
  rfl

theorem fireIndex_eq : fireIndex p r blank t d = d.setPrt p { d.prtp p with
    active := (d.prtp p).active.map (fun j => { j with fired := j.fired + 1, last := some r })
    shift := if blank then (d.prtp p).shift else none
    firing := some (firingOf p r t blank d) } := rfl

theorem fireIndex_firing : ((fireIndex p r blank t d).prtp p).firing = some (firingOf p r t blank d) := by
  rw [fireIndex_eq, prtp_setPrt]

theorem fireIndex_waiting : ((fireIndex p r blank t d).prtp p).waiting = (d.prtp p).waiting := by rw [fireIndex_eq, prtp_setPrt]

theorem fireIndex_lastDue : ((fireIndex p r blank t d).prtp p).lastDue = (d.prtp p).lastDue := by rw [fireIndex_eq, prtp_setPrt]

theorem fireIndex_active : ((fireIndex p r blank t d).prtp p).active =
    (d.prtp p).active.map (fun j => { j with fired := j.fired + 1, last := some r }) := by rw [fireIndex_eq, prtp_setPrt]

theorem fireIndex_reg (a : Nat) : (fireIndex p r blank t d).reg a = d.reg a := by rw [fireIndex_eq, reg_setPrt]

/-- PHp_LAT rises within 2 print clocks and 16 core cycles (R219). -/
theorem latchAt_bounds : d.now ≤ latchAt d p ∧ latchAt d p ≤ d.now + 2 * printClock (d.reg (PRT_CFG p)) + 32 := by
  have hmod := Nat.mod_lt (Config.freeWord d.freeCtr).toNat (show 0 < 2 * printClock (d.reg (PRT_CFG p)) + 33 by omega)
  unfold latchAt
  omega

/-- A firing at the instant that R219 allows, seen from a device with the same instant and PRTp_CFG. -/
theorem firingOf_fires {d e : Dev} (hnow : e.now = d.now) (hcfg : e.reg (PRT_CFG p) = d.reg (PRT_CFG p)) :
    Fires d p r blank (firingOf p r (latchAt e p) blank e) := by
  obtain ⟨hlo, hhi⟩ := latchAt_bounds p e
  rw [hnow] at hlo hhi
  rw [hcfg] at hhi
  exact ⟨rfl, rfl, rfl, rfl, hlo, hhi⟩

end Fire

/-! ## An index that may fire (R222) -/

section Queue
variable {p : Fin 2} {r : Nat} {blank : Bool} {d : Dev}

theorem queueIndex_fires (hw : (d.prtp p).waiting = none) (hf : (d.prtp p).firing = none) (hs : shifted d p blank = true) :
    queueIndex p r blank d = shiftNext p (fireIndex p r blank (latchAt d p) d).tickFree := by
  simp [queueIndex, hw, hf, hs]

theorem queueIndex_waits (hw : (d.prtp p).waiting = none) (h : (d.prtp p).firing.isSome = true ∨ shifted d p blank = false) :
    queueIndex p r blank d =
      shiftNext p (Dev.setFlag (PRT_STAT p) 7 true (d.setPrt p { d.prtp p with waiting := some (r, blank) })) := by
  have hbusy : ((d.prtp p).firing.isNone && shifted d p blank) = false := by
    rcases h with h | h
    · simp [Option.isSome_iff_ne_none.mp h]
    · simp [h]
  simp [queueIndex, hw, hbusy]

theorem queueIndex_skips (hw : (d.prtp p).waiting.isSome = true) :
    queueIndex p r blank d = raise (170 + 4 * p) (Dev.setFlag (PRT_STAT p) 9 true (skipCount p 1 d)) := by
  simp [queueIndex, hw]

end Queue

/-! ## The end of a job (R218) -/

section Finish
variable {p : Fin 2} {j : Job} {d : Dev}

/-- A job goes on while an index is left, its own firing lasts or an index waits. -/
theorem jobFinish_goes (h : ∀ j, (d.prtp p).active = some j →
    j.next < jobTotal d p j ∨ (d.prtp p).firing.any (·.own) = true ∨ (d.prtp p).waiting.isSome = true) : jobFinish p d = d := by
  unfold jobFinish
  extract_lets x
  split
  · rfl
  · next j hj =>
    refine if_pos ?_
    rcases h j hj with h | h | h
    · simp [h]
    · simp [x, h]
    · simp [x, h]

theorem jobFinish_done (ha : (d.prtp p).active = some j) (hnext : jobTotal d p j ≤ j.next) (hf : (d.prtp p).firing = none)
    (hw : (d.prtp p).waiting = none) (hq : (d.prtp p).queued = none) : jobFinish p d = jobDone p j d := by
  have hqueued : queuedJob (jobDone p j d) p = none := by
    simp [queuedJob, jobDone, setRdIdx, hq]
  unfold jobFinish
  simp only [ha, hf, hw, hqueued]
  exact if_neg (by simp [hnext])

end Finish

/-! ## A late index is counted (R221) -/

section Late
variable (p : Fin 2) (d : Dev)

@[simp] theorem lateIndex_prtp (k : Fin 2) : (lateIndex p d).prtp k = d.prtp k := prtp_raise (Dev.setFlag _ _ _ _) k _

@[simp] theorem lateIndex_now : (lateIndex p d).now = d.now := raise_now (Dev.setFlag _ _ _ _) _

theorem lateIndex_flag : (lateIndex p d).flag (PRT_STAT p) 8 = true := flagged_stat p _ (by decide) _

theorem lateIndex_count : (lateIndex p d).reg (PRT_LATECNT p) = d.reg (PRT_LATECNT p) + 1 := by
  rw [lateIndex, flagged_reg p _ (by unfold PRT_LATECNT; omega) (by unfold PRT_LATECNT PRT_STAT; omega), Dev.reg_count1]

theorem lateIndex_cfg : (lateIndex p d).reg (PRT_CFG p) = d.reg (PRT_CFG p) := by
  rw [lateIndex, flagged_reg p _ (by unfold PRT_CFG; omega) (by unfold PRT_CFG PRT_STAT; omega),
    Dev.reg_count1_other _ _ _ (by unfold PRT_CFG PRT_LATECNT; omega)]

end Late

/-! ## An index falls due (R217, R221, R222) -/

section Due
variable {p : Fin 2} {j : Job} {d : Dev}

/-- The device once the next index of job j has fallen due. -/
def dueTaken (p : Fin 2) (j : Job) (d : Dev) : Dev :=
  d.setPrt p { d.prtp p with active := some { j with next := j.next + 1 }, lastDue := d.stamp }

/-- The same where the index fires blank: it is counted as late and its missing rows are given up. -/
def lateTaken (p : Fin 2) (j : Job) (d : Dev) : Dev :=
  (lateIndex p (dueTaken p j d)).setPrt p { (lateIndex p (dueTaken p j d)).prtp p with
    late := ((lateIndex p (dueTaken p j d)).prtp p).late ++ missingRows d p j j.next }

theorem dueTaken_prtp : (dueTaken p j d).prtp p =
    { d.prtp p with active := some { j with next := j.next + 1 }, lastDue := d.stamp } := prtp_setPrt d p _

theorem lateTaken_prtp : (lateTaken p j d).prtp p =
    { d.prtp p with active := some { j with next := j.next + 1 }, lastDue := d.stamp
                    late := (d.prtp p).late ++ missingRows d p j j.next } := by
  rw [lateTaken, prtp_setPrt, lateIndex_prtp, dueTaken_prtp]

theorem lateTaken_now : (lateTaken p j d).now = d.now := by
  rw [lateTaken, setPrt_now, lateIndex_now, dueTaken, setPrt_now]

theorem lateTaken_cfg : (lateTaken p j d).reg (PRT_CFG p) = d.reg (PRT_CFG p) := by
  rw [lateTaken, reg_setPrt, lateIndex_cfg, dueTaken, reg_setPrt]

theorem lateTaken_count : (lateTaken p j d).reg (PRT_LATECNT p) = d.reg (PRT_LATECNT p) + 1 := by
  rw [lateTaken, reg_setPrt, lateIndex_count, dueTaken, reg_setPrt]

theorem lateTaken_flag : (lateTaken p j d).flag (PRT_STAT p) 8 = true := by rw [lateTaken, flag_setPrt, lateIndex_flag]

theorem dueTaken_shifted (blank : Bool) : shifted (dueTaken p j d) p blank = shifted d p blank := by
  rw [shifted, dueTaken_prtp]
  rfl

theorem dueTaken_headLow : headLow (dueTaken p j d) p = headLow d p := by
  rw [headLow, dueTaken_prtp]
  rfl

theorem dueTaken_missing (i : Job) (r : Nat) : missingRows (dueTaken p j d) p i r = missingRows d p i r := by
  rw [missingRows, dueTaken_prtp]
  rfl

/-- In Run an index that falls due fires with its rows, or is late. -/
theorem indexDue_ready (h : IndexReady d p j) : indexDue p d = prtStatus p (jobFinish p (
    if headLow d p || !(missingRows d p j j.next).isEmpty then
      fireLate p (fun e => queueIndex p j.next true (e.setPrt p { e.prtp p with
        late := (e.prtp p).late ++ missingRows d p j j.next })) (dueTaken p j d)
    else queueIndex p j.next false (dueTaken p j d))) := by
  obtain ⟨-, hactive, hmore, hdue, hrun, hon⟩ := h
  have hjob : dueJob d p = some j := by simp [dueJob, hactive]
  have htaken : d.setPrt p { d.prtp p with
      active := some { j with next := j.next + 1 }
      lastDue := d.stamp
      queued := if (d.prtp p).active.isSome then (d.prtp p).queued else none } = dueTaken p j d := by
    rw [hactive]
    rfl
  have hgoes : (decide ((dueTaken p j d).mode ≠ .run) || (dueTaken p j d).halted) = false := by
    simp [dueTaken, Dev.setPrt, hrun, hon]
  rw [indexDue, hjob]
  dsimp only
  rw [if_neg (by simp [hmore, hdue]), htaken, hgoes, dueTaken_headLow, dueTaken_missing, if_neg Bool.false_ne_true]

theorem indexDue_inTime (h : IndexReady d p j) (hlow : headLow d p = false) (hmiss : missingRows d p j j.next = []) :
    indexDue p d = prtStatus p (jobFinish p (queueIndex p j.next false (dueTaken p j d))) := by
  rw [indexDue_ready h, hlow, hmiss]
  rfl

section Late
variable (h : IndexReady d p j) (hlate : headLow d p = true ∨ missingRows d p j j.next ≠ [])
include h hlate

theorem indexDue_late : indexDue p d = prtStatus p (jobFinish p (
    fireLate p (fun e => queueIndex p j.next true (e.setPrt p { e.prtp p with
      late := (e.prtp p).late ++ missingRows d p j j.next })) (dueTaken p j d))) := by
  rw [indexDue_ready h, if_pos (by simpa using hlate)]

theorem indexDue_blank (h28 : d.flag (PRT_CFG p) 28 = false) :
    indexDue p d = prtStatus p (jobFinish p (queueIndex p j.next true (lateTaken p j d))) := by
  have hact : (dueTaken p j d).flag (PRT_CFG p) 28 = false := h28
  rw [indexDue_late h hlate, fireLate, hact, if_neg Bool.false_ne_true, lateTaken]

theorem indexDue_ends (h28 : d.flag (PRT_CFG p) 28 = true) :
    indexDue p d = prtStatus p (jobFinish p (jobAbort p (lateIndex p (dueTaken p j d)))) := by
  have hact : (dueTaken p j d).flag (PRT_CFG p) 28 = true := h28
  rw [indexDue_late h hlate, fireLate, if_pos hact]

end Late

end Due

end Sys2Proof.Proofs
end

section
/-! PROOFS. The end of a firing and of a wait (R215, R218, R222), and the head's fault pin (R213). -/
namespace Sys2Proof.Proofs
open Sys2Proof Sys2Proof.Machine Sys2Proof.Claims

/-! ## RDIDX (R215, R218) -/

section ReadIndex
variable {p : Fin 2} {j : Job} {d e : Dev} {a : Nat}

theorem jobTotal_congr (hg : e.reg (PRT_GEOM p) = d.reg (PRT_GEOM p)) (ho : e.reg (PRT_ROWOFS p) = d.reg (PRT_ROWOFS p)) (j : Job) :
    jobTotal e p j = jobTotal d p j := by
  have hofs : rowOfs e p = rowOfs d p := funext (fun c => by simp only [rowOfs, Dev.fld, ho])
  simp only [jobTotal, maxOfs, prtColours, Dev.fld, hg, hofs]

theorem setRdIdx_reg (p : Fin 2) (i : Nat) (d : Dev) : (setRdIdx p i d).reg (PRT_RDIDX p) = word (i % 65536) := by
  simp [setRdIdx]

theorem setRdIdx_reg_other (h : a ≠ PRT_RDIDX p) (i : Nat) (d : Dev) : (setRdIdx p i d).reg a = d.reg a := by
  simp [setRdIdx, h]

theorem setRdIdx_active (p : Fin 2) (i : Nat) (d : Dev) : ((setRdIdx p i d).prtp p).active = (d.prtp p).active := by simp [setRdIdx]
theorem setRdIdx_queued (p : Fin 2) (i : Nat) (d : Dev) : ((setRdIdx p i d).prtp p).queued = (d.prtp p).queued := by simp [setRdIdx]
theorem setRdIdx_firing (p : Fin 2) (i : Nat) (d : Dev) : ((setRdIdx p i d).prtp p).firing = (d.prtp p).firing := by simp [setRdIdx]
theorem setRdIdx_waiting (p : Fin 2) (i : Nat) (d : Dev) : ((setRdIdx p i d).prtp p).waiting = (d.prtp p).waiting := by
  simp [setRdIdx]

theorem setRdIdx_total (i : Nat) : jobTotal (setRdIdx p i d) p j = jobTotal d p j :=
  jobTotal_congr (setRdIdx_reg_other (by unfold PRT_GEOM PRT_RDIDX; omega) i d)
    (setRdIdx_reg_other (by unfold PRT_ROWOFS PRT_RDIDX; omega) i d) j

/-- With no index under way RDIDX is past the rows that every colour has fired. -/
theorem advanceRd_idle (ha : (d.prtp p).active = some j) (hf : (d.prtp p).firing = none) (hw : (d.prtp p).waiting = none) :
    advanceRd p d = setRdIdx p (j.first + min j.rows (j.next - maxOfs d p)) d := by
  simp [advanceRd, ha, hf, hw]

/-- What the end of a job leaves (R218). -/
structure JobDone (p : Fin 2) (j : Job) (d e : Dev) : Prop where
  active : (e.prtp p).active = none
  firing : (e.prtp p).firing = (d.prtp p).firing
  rdidx  : e.reg (PRT_RDIDX p) = word ((j.first + j.rows) % 65536)
  done   : e.flag (PRT_STAT p) 13 = true

theorem jobDone_leaves (p : Fin 2) (j : Job) (d : Dev) : JobDone p j d (jobDone p j d) := by
  refine ⟨?_, ?_, ?_, flagged_stat p _ (by decide) _⟩
  · simp [jobDone]
  · simp [jobDone, setRdIdx_firing]
  · rw [jobDone, flagged_reg p _ (by unfold PRT_RDIDX; omega) (prtRdidx_ne_stat p), reg_setPrt, setRdIdx_reg]

end ReadIndex

/-! ## The end of a firing (R215, R218) -/

section FiringEnd
variable {p : Fin 2} {f : Firing} {j : Job} {d : Dev}

/-- The device at the end of the last strobe of a firing. -/
def strobesEnded (p : Fin 2) (f : Firing) (d : Dev) : Dev :=
  (d.reach f.lastStrobe).setPrt p { d.prtp p with firing := none }

theorem strobesEnded_prtp : (strobesEnded p f d).prtp p = { d.prtp p with firing := none } := prtp_setPrt _ p _

/-- The device once RDIDX has followed a firing of the active job. -/
def firedPast (p : Fin 2) (f : Firing) (j : Job) (d : Dev) : Dev :=
  setRdIdx p (j.first + min j.rows (j.next - maxOfs d p)) (strobesEnded p f d)

/-- Of the job under way nothing but RDIDX moves. -/
theorem firedPast_port (ha : (d.prtp p).active = some j) (hw : (d.prtp p).waiting = none) :
    ((firedPast p f j d).prtp p).active = some j ∧ ((firedPast p f j d).prtp p).firing = none ∧
    ((firedPast p f j d).prtp p).waiting = none ∧ ((firedPast p f j d).prtp p).queued = (d.prtp p).queued ∧
    jobTotal (firedPast p f j d) p j = jobTotal d p j := by
  rw [firedPast, setRdIdx_active, setRdIdx_firing, setRdIdx_waiting, setRdIdx_queued, strobesEnded_prtp, setRdIdx_total]
  exact ⟨ha, rfl, hw, rfl, rfl⟩

variable (hf : (d.prtp p).firing = some f) (hown : f.own = true) (ha : (d.prtp p).active = some j)
  (hw : (d.prtp p).waiting = none)
include hf hown ha hw

theorem firingEnd_own : ∃ t, firingEnd p d = prtStatus p (shiftNext p ((jobFinish p (firedPast p f j d)).reach t)) := by
  have hpast : advanceRd p (strobesEnded p f d) = firedPast p f j d :=
    advanceRd_idle (by rw [strobesEnded_prtp, ha]) (by rw [strobesEnded_prtp]) (by rw [strobesEnded_prtp, hw])
  unfold firingEnd
  rw [hf, ← hpast]
  dsimp only
  rw [if_pos hown]
  exact ⟨_, rfl⟩

theorem firingEnd_goesOn (hmore : j.next < jobTotal d p j) : ((firingEnd p d).prtp p).firing = none ∧
    ((firingEnd p d).prtp p).active = some j ∧
    (firingEnd p d).reg (PRT_RDIDX p) = word ((j.first + min j.rows (j.next - maxOfs d p)) % 65536) := by
  obtain ⟨hactive, hfiring, -, -, htotal⟩ := firedPast_port (f := f) ha hw
  have hgoes : jobFinish p (firedPast p f j d) = firedPast p f j d := jobFinish_goes (fun i hi => by
    obtain rfl : j = i := Option.some.inj (hactive.symm.trans hi)
    exact .inl (htotal.symm ▸ hmore))
  obtain ⟨t, hend⟩ := firingEnd_own hf hown ha hw
  rw [hend, hgoes, prtStatus_prtp, shiftNext_firing, shiftNext_active, prtp_reach, prtStatus_reg _ _ (prtRdidx_ne_stat p),
    shiftNext_reg]
  exact ⟨hfiring, hactive, setRdIdx_reg p _ _⟩

theorem firingEnd_ends (hlast : jobTotal d p j ≤ j.next) (hq : (d.prtp p).queued = none) :
    ((firingEnd p d).prtp p).firing = none ∧ ((firingEnd p d).prtp p).active = none ∧
    (firingEnd p d).reg (PRT_RDIDX p) = word ((j.first + j.rows) % 65536) ∧ (firingEnd p d).flag (PRT_STAT p) 13 = true := by
  obtain ⟨hactive, hfiring, hwaiting, hqueued, htotal⟩ := firedPast_port (f := f) ha hw
  have hdone := jobFinish_done hactive (htotal.le.trans hlast) hfiring hwaiting (hqueued.trans hq)
  obtain ⟨hnone, hkept, hrdidx, hflag⟩ := jobDone_leaves p j (firedPast p f j d)
  obtain ⟨t, hend⟩ := firingEnd_own hf hown ha hw
  rw [hend, hdone, prtStatus_prtp, shiftNext_firing, shiftNext_active, prtp_reach, prtStatus_reg _ _ (prtRdidx_ne_stat p),
    prtStatus_flag _ _ (by decide), shiftNext_reg, shiftNext_flag]
  exact ⟨hkept.trans hfiring, hnone, hrdidx, hflag⟩

end FiringEnd

/-! ## The waiting index fires (R222) -/

section Waiting
variable {p : Fin 2} {r : Nat} {b : Bool} {d : Dev}

/-- The device when the shift of the waiting index is done. -/
def waitOver (p : Fin 2) (b : Bool) (d : Dev) : Dev := (d.reach (shiftDone d p b)).setPrt p { d.prtp p with waiting := none }

theorem delayedFiring_fires (hw : (d.prtp p).waiting = some (r, b)) (hf : (d.prtp p).firing = none) (hm : d.mode = .run)
    (hh : d.halted = false) (hlow : headLow d p = false) :
    delayedFiring p d = prtStatus p (shiftNext p (fireIndex p r b (max d.now (shiftDone d p b)) (waitOver p b d))) := by
  have hgoes : (decide ((waitOver p b d).mode ≠ .run) || (waitOver p b d).halted) = false := by
    simp [waitOver, Dev.setPrt, Dev.reach, hm, hh]
  have hhigh : headLow (waitOver p b d) p = false := by
    have hlevel : headLow (waitOver p b d) p = headLow d p := by
      rw [headLow, waitOver, prtp_setPrt]
      rfl
    rw [hlevel, hlow]
  have hover : (d.reach (shiftDone d p b)).setPrt p { (d.reach (shiftDone d p b)).prtp p with waiting := none } = waitOver p b d := rfl
  unfold delayedFiring
  rw [hw, hf]
  dsimp only
  rw [hover, hgoes, hhigh, if_neg Bool.false_ne_true, Bool.false_and, if_neg Bool.false_ne_true]
  rfl

end Waiting

/-! ## The head's fault pin (R213) -/

section HeadFault
variable {p : Fin 2} {d : Dev}

theorem headFault_high : headFault p false d = d.setPrt p { d.prtp p with fltLow := false } := rfl

/-- A low level ends the strobes, sets HEADFLT and raises event 171 + 4p. -/
theorem headFault_falls (h29 : d.flag (PRT_CFG p) 29 = true) (hlevel : (d.prtp p).fltLow = false) : headFault p true d =
    raise (171 + 4 * p) (Dev.setFlag (PRT_STAT p) 10 true (d.setPrt p { d.prtp p with
      fltLow := true
      firing := (d.prtp p).firing.map (fun f => { f with strobe := false }) })) := by
  simp [headFault, headFaulted, endStrobes, h29, hlevel]

end HeadFault

end Sys2Proof.Proofs
end

section
/-! PROOFS. Jobs, firings, rows and tables of a print port (10_print.md), said of its commands. -/
namespace Sys2Proof.Proofs
open Sys2Proof Sys2Proof.Machine Sys2Proof.Claims

theorem onReady_ready {s : State} (h : s.dev.ready = true) (f : Dev → Dev) : onReady f s = .next { s with dev := f s.dev } := by
  rw [onReady, if_pos h]

/-! ## GO and ABORT (R216, R218) -/

section Jobs
variable {p : Fin 2} {j : Job} {s : State} (h : ticking s.dev = true)
include h

theorem exec_jobGo : exec (.jobGo p) s = .next { s with dev := jobGo p s.dev } := atEdge_ticking h _

theorem exec_jobAbort : exec (.jobAbort p) s = .next { s with dev := jobAbort p s.dev } := atEdge_ticking h _

theorem go_starts (hg : GoAccepted p s.dev) (ha : (s.dev.prtp p).active = none) :
    ∃ d, exec (.jobGo p) s = .next { s with dev := d } ∧
      d.prtp p = { s.dev.prtp p with active := some (freshJob s.dev p), shift := (d.prtp p).shift } ∧
      d.flag (PRT_STAT p) 2 = true ∧ d.flag (PRT_STAT p) 4 = true ∧ OnlyPrt p s.dev d := by
  have honly := (jobGo_step p s.dev).only
  refine ⟨_, exec_jobGo h, ?_⟩
  rw [jobGo_starts hg ha] at honly ⊢
  refine ⟨shown_prtp p _, ?_, ?_, honly⟩
  · rw [prtStatus_active, shiftNext_active, prtp_setPrt, Option.isSome_some]
  · rw [prtStatus_armed p _ (j := freshJob s.dev p) (by rw [shiftNext_active, prtp_setPrt])]
    rfl

theorem go_queues (hg : GoAccepted p s.dev) (ha : (s.dev.prtp p).active.isSome = true) :
    ∃ d, exec (.jobGo p) s = .next { s with dev := d } ∧ d.prtp p = { s.dev.prtp p with
      queued := some { freshJob s.dev p with first := 0 }, shift := (d.prtp p).shift } ∧ d.flag (PRT_STAT p) 3 = true ∧
      OnlyPrt p s.dev d := by
  have honly := (jobGo_step p s.dev).only
  refine ⟨_, exec_jobGo h, ?_⟩
  rw [jobGo_queues hg ha] at honly ⊢
  refine ⟨shown_prtp p _, ?_, honly⟩
  rw [prtStatus_queued, shiftNext_queued, prtp_setPrt, Option.isSome_some]

theorem go_refused (hr : (s.dev.prtp p).queued.isSome = true ∨ feedReady s.dev p = false) :
    ∃ d, exec (.jobGo p) s = .next { s with dev := d } ∧ d.prt = s.dev.prt ∧ d.flag (PRT_STAT p) 11 = true ∧
      Elsewhere s.dev d := by
  have honly := (jobGo_step p s.dev).only
  refine ⟨_, exec_jobGo h, ?_⟩
  rw [jobGo_refused hr] at honly ⊢
  refine ⟨?_, ?_, honly.1⟩
  · rw [prtStatus_prt, jobError, raise_prt, Dev.setFlag_prt]
  · rw [prtStatus_flag _ _ (by decide), jobError, flagged_stat p _ (by decide)]

theorem abort_ends (ha : (s.dev.prtp p).active = some j) : ∃ d, exec (.jobAbort p) s = .next { s with dev := d } ∧
    (d.prtp p).active = none ∧ (d.prtp p).queued = none ∧ (d.prtp p).waiting = none ∧
    (d.prtp p).firing = (s.dev.prtp p).firing.map (fun f => { f with own := false }) ∧
    d.reg (PRT_RDIDX p) = word ((j.first + j.rows) % 65536) ∧ d.flag (PRT_STAT p) 2 = false ∧ OnlyPrt p s.dev d := by
  obtain ⟨hactive, hqueued, hwaiting, hfiring, hrdidx, -, -⟩ := jobAbort_leaves ha
  refine ⟨_, exec_jobAbort h, hactive, hqueued, hwaiting, hfiring, hrdidx, ?_, (jobAbort_step p s.dev).only⟩
  rw [jobAbort_shows, hactive, Option.isSome_none]

end Jobs

/-! ## Rows (R215, R221) -/

section Rows
variable {p : Fin 2} {s : State}

theorem exec_rowFetch {err : Option SramError} {d : Dev} (h : rowFetch p err s.dev = d) :
    exec (.rowFetch p err) s = .next { s with dev := d } := by
  rw [← h]
  rfl

variable (ha : rowAvailable s.dev p = true) (hroom : (s.dev.prtp p).fifo.length < 16)
include ha hroom

theorem rowFetch_discards (hlate : (s.dev.prtp p).late.contains (s.dev.prtp p).fetch = true) (err : Option SramError) :
    ∃ d, exec (.rowFetch p err) s = .next { s with dev := d } ∧
      d.prtp p = { s.dev.prtp p with fetch := ((s.dev.prtp p).fetch + 1) % 65536, shift := (d.prtp p).shift } ∧
      d.regs = s.dev.regs ∧ OnlyPrt p s.dev d := by
  refine ⟨_, exec_rowFetch (rowFetch_late ha hroom hlate err), ?_, ?_, ?_⟩
  · rw [shiftNext_prtp]
    simp only [prtp_setPrt]
  · rw [shiftNext_regs, setPrt_regs]
  · exact (((PortStep.refl p s.dev).setPrt _).andThen (shiftNext_step p)).only

variable (hlate : (s.dev.prtp p).late.contains (s.dev.prtp p).fetch = false)
include hlate

theorem rowFetch_stores : ∃ d, exec (.rowFetch p none) s = .next { s with dev := d } ∧ d.prtp p = { s.dev.prtp p with
    fetch := ((s.dev.prtp p).fetch + 1) % 65536, shift := (d.prtp p).shift,
    fifo := (s.dev.prtp p).fifo ++ [((s.dev.prtp p).fetch, s.dev.sram.bytes (rowAddr s.dev p) (rowBytes s.dev p))] } ∧
    d.regs = s.dev.regs ∧ OnlyPrt p s.dev d := by
  refine ⟨_, exec_rowFetch (rowFetch_copies ha hroom hlate none), ?_, ?_, ?_⟩
  · rw [shiftNext_prtp, sramErr_prtp]
    simp only [rowTaken, prtp_setPrt, sramData]
  · exact shiftNext_regs p _
  · exact (((PortStep.refl p s.dev).setPrt _).andThen (shiftNext_step p)).only

/-- With an error in its bytes the row is fetched all the same; the error raises its event. -/
theorem rowFetch_withError (err : Option SramError) :
    ∃ d, exec (.rowFetch p err) s = .next { s with dev := d } ∧ (d.prtp p).fetch = ((s.dev.prtp p).fetch + 1) % 65536 ∧
      (d.prtp p).fifo.map Prod.fst = (s.dev.prtp p).fifo.map Prod.fst ++ [(s.dev.prtp p).fetch] ∧ d.sram = s.dev.sram ∧
      (∀ e : SramError, err = some e → s.dev.pw.stopped = false → rowAddr s.dev p ≤ e.addr →
        e.addr < rowAddr s.dev p + rowBytes s.dev p →
        d.flag (EVT_STICKY 7) (if e.uncorrectable then 1 else 0) = true ∧
        (e.uncorrectable = true → s.dev.tick.phase ≠ .idle → d.tick.stopWork = true ∧ d.tick.slipFault = true)) := by
  have hshift := (shiftNext_step p (sramErr err (rowAddr s.dev p) (rowBytes s.dev p) (rowTaken p err s.dev))).only.1
  refine ⟨_, exec_rowFetch (rowFetch_copies ha hroom hlate err), ?_, ?_, ?_, ?_⟩
  · rw [shiftNext_prtp, sramErr_prtp]
    simp only [rowTaken, prtp_setPrt]
  · rw [shiftNext_prtp, sramErr_prtp]
    simp only [rowTaken, prtp_setPrt, List.map_append, List.map_cons, List.map_nil]
  · rw [hshift.sram, sramErr_sram]
    rfl
  · rintro e rfl hs h1 h2
    rw [shiftNext_flag, hshift.tick]
    exact sramErr_raises h1 h2 hs

end Rows

/-! ## An index falls due (R213, R217, R219, R221, R222) -/

section Due
variable {p : Fin 2} {j : Job} {s : State} (h : IndexReady s.dev p j)
include h

theorem exec_indexDue : exec (.indexDue p) s = .next { s with dev := indexDue p s.dev } := onReady_ready h.ready _

section InTime
variable (hlow : headLow s.dev p = false) (hmiss : missingRows s.dev p j j.next = [])
include hlow hmiss

theorem due_fires (hw : (s.dev.prtp p).waiting = none) (hf : (s.dev.prtp p).firing = none) {x : Shift}
    (hx : (s.dev.prtp p).shift = some x) (hdone : x.done ≤ s.dev.now) :
    ∃ d f, exec (.indexDue p) s = .next { s with dev := d } ∧ (d.prtp p).firing = some f ∧ Fires s.dev p j.next false f ∧
      f.den = x.den ∧ f.slw = x.slw ∧ f.rows = x.rows ∧
      (d.prtp p).active = some { j with next := j.next + 1, fired := j.fired + 1, last := some j.next } ∧
      (d.prtp p).lastDue = s.dev.stamp ∧ OnlyPrt p s.dev d := by
  have hshifted : shifted (dueTaken p j s.dev) p false = true := by
    rw [dueTaken_shifted, shifted, hx]
    simpa using hdone
  have hwords : shiftWords p false (dueTaken p j s.dev) = (x.den, x.slw, x.rows) :=
    shiftWords_shifted p _ (by rw [dueTaken_prtp, hx])
  have hdev : indexDue p s.dev = prtStatus p (shiftNext p
      (fireIndex p j.next false (latchAt (dueTaken p j s.dev) p) (dueTaken p j s.dev)).tickFree) := by
    rw [indexDue_inTime h hlow hmiss, queueIndex_fires (by rw [dueTaken_prtp, hw]) (by rw [dueTaken_prtp, hf]) hshifted,
      jobFinish_goes (fun _ _ => .inr (.inl (by rw [shiftNext_firing, prtp_tickFree, fireIndex_firing]; rfl)))]
  refine ⟨indexDue p s.dev, firingOf p j.next (latchAt (dueTaken p j s.dev) p) false (dueTaken p j s.dev), exec_indexDue h, ?_,
    firingOf_fires p j.next false rfl rfl, ?_, ?_, ?_, ?_, ?_, (indexDue_step p s.dev).only⟩
  · rw [hdev, prtStatus_prtp, shiftNext_firing, prtp_tickFree, fireIndex_firing]
  · rw [firingOf, hwords]
  · rw [firingOf, hwords]
  · rw [firingOf, hwords]
  · rw [hdev, prtStatus_prtp, shiftNext_active, prtp_tickFree, fireIndex_active, dueTaken_prtp, Option.map_some]
  · rw [hdev, prtStatus_prtp, shiftNext_lastDue, prtp_tickFree, fireIndex_lastDue, dueTaken_prtp]

theorem due_waits (hw : (s.dev.prtp p).waiting = none)
    (hbusy : (s.dev.prtp p).firing.isSome = true ∨ shifted s.dev p false = false) :
    ∃ d, exec (.indexDue p) s = .next { s with dev := d } ∧ (d.prtp p).waiting = some (j.next, false) ∧
      (d.prtp p).firing = (s.dev.prtp p).firing ∧ d.flag (PRT_STAT p) 7 = true ∧ OnlyPrt p s.dev d := by
  have hdev : indexDue p s.dev = prtStatus p (shiftNext p (Dev.setFlag (PRT_STAT p) 7 true ((dueTaken p j s.dev).setPrt p
      { (dueTaken p j s.dev).prtp p with waiting := some (j.next, false) }))) := by
    rw [indexDue_inTime h hlow hmiss, queueIndex_waits (by rw [dueTaken_prtp, hw]) (by rwa [dueTaken_prtp, dueTaken_shifted]),
      jobFinish_goes (fun _ _ => .inr (.inr (by rw [shiftNext_waiting, prtp_setFlag, prtp_setPrt, Option.isSome_some])))]
  refine ⟨indexDue p s.dev, exec_indexDue h, ?_, ?_, ?_, (indexDue_step p s.dev).only⟩
  · rw [hdev, prtStatus_prtp, shiftNext_waiting, prtp_setFlag, prtp_setPrt]
  · rw [hdev, prtStatus_prtp, shiftNext_firing, prtp_setFlag, prtp_setPrt, dueTaken_prtp]
  · rw [hdev, prtStatus_flag _ _ (by decide), shiftNext_flag, flag_setFlag_same (by decide)]

theorem due_skipped {w : Nat × Bool} (hw : (s.dev.prtp p).waiting = some w) :
    ∃ d, exec (.indexDue p) s = .next { s with dev := d } ∧ (d.prtp p).waiting = some w ∧
      d.reg (PRT_SKIPCNT p) = s.dev.reg (PRT_SKIPCNT p) + 1 ∧ d.flag (PRT_STAT p) 9 = true ∧ OnlyPrt p s.dev d := by
  have hskip : PRT_SKIPCNT p ≠ PRT_STAT p := by unfold PRT_SKIPCNT PRT_STAT; omega
  have hwaits : ((raise (170 + 4 * p) (Dev.setFlag (PRT_STAT p) 9 true (skipCount p 1 (dueTaken p j s.dev)))).prtp p).waiting =
      some w := by
    rw [prtp_raise, prtp_setFlag, skipCount, prtp_setReg, dueTaken_prtp, hw]
  have hdev : indexDue p s.dev = prtStatus p (raise (170 + 4 * p) (Dev.setFlag (PRT_STAT p) 9 true
      (skipCount p 1 (dueTaken p j s.dev)))) := by
    rw [indexDue_inTime h hlow hmiss, queueIndex_skips (by rw [dueTaken_prtp, hw, Option.isSome_some]),
      jobFinish_goes (fun _ _ => .inr (.inr (by rw [hwaits, Option.isSome_some])))]
  refine ⟨indexDue p s.dev, exec_indexDue h, ?_, ?_, ?_, (indexDue_step p s.dev).only⟩
  · rw [hdev, prtStatus_prtp, hwaits]
  · rw [hdev, prtStatus_reg _ _ hskip, flagged_reg p _ (by unfold PRT_SKIPCNT; omega) hskip, skipCount, Dev.reg_setReg, if_pos rfl]
    rfl
  · rw [hdev, prtStatus_flag _ _ (by decide), flagged_stat p _ (by decide)]

end InTime

section Late
variable (hlate : headLow s.dev p = true ∨ missingRows s.dev p j j.next ≠ [])
include hlate

theorem due_blank (h28 : s.dev.flag (PRT_CFG p) 28 = false) (hw : (s.dev.prtp p).waiting = none)
    (hf : (s.dev.prtp p).firing = none) :
    ∃ d f, exec (.indexDue p) s = .next { s with dev := d } ∧ (d.prtp p).firing = some f ∧ Fires s.dev p j.next true f ∧
      d.reg (PRT_LATECNT p) = s.dev.reg (PRT_LATECNT p) + 1 ∧ d.flag (PRT_STAT p) 8 = true ∧ OnlyPrt p s.dev d := by
  have hdev : indexDue p s.dev = prtStatus p (shiftNext p
      (fireIndex p j.next true (latchAt (lateTaken p j s.dev) p) (lateTaken p j s.dev)).tickFree) := by
    rw [indexDue_blank h hlate h28, queueIndex_fires (by rw [lateTaken_prtp, hw]) (by rw [lateTaken_prtp, hf]) rfl,
      jobFinish_goes (fun _ _ => .inr (.inl (by rw [shiftNext_firing, prtp_tickFree, fireIndex_firing]; rfl)))]
  refine ⟨indexDue p s.dev, firingOf p j.next (latchAt (lateTaken p j s.dev) p) true (lateTaken p j s.dev), exec_indexDue h, ?_,
    firingOf_fires p j.next true lateTaken_now lateTaken_cfg, ?_, ?_, (indexDue_step p s.dev).only⟩
  · rw [hdev, prtStatus_prtp, shiftNext_firing, prtp_tickFree, fireIndex_firing]
  · rw [hdev, prtStatus_reg _ _ (prtLatecnt_ne_stat p), shiftNext_reg, reg_tickFree, fireIndex_reg, lateTaken_count]
  · rw [hdev, prtStatus_flag _ _ (by decide), shiftNext_flag, Dev.flag, reg_tickFree, fireIndex_reg, ← Dev.flag, lateTaken_flag]

theorem due_aborts (h28 : s.dev.flag (PRT_CFG p) 28 = true) :
    ∃ d, exec (.indexDue p) s = .next { s with dev := d } ∧ (d.prtp p).active = none ∧
      d.reg (PRT_LATECNT p) = s.dev.reg (PRT_LATECNT p) + 1 ∧ d.flag (PRT_STAT p) 8 = true ∧ OnlyPrt p s.dev d := by
  have hactive : ((lateIndex p (dueTaken p j s.dev)).prtp p).active = some { j with next := j.next + 1 } := by
    rw [lateIndex_prtp, dueTaken_prtp]
  have hdev : indexDue p s.dev = prtStatus p (jobAbort p (lateIndex p (dueTaken p j s.dev))) := by
    rw [indexDue_ends h hlate h28, jobFinish_goes (fun i hi => absurd hi (by rw [(jobAbort_leaves hactive).active]; simp))]
  obtain ⟨hnone, -, -, -, -, hkept, hflag⟩ := jobAbort_leaves hactive
  refine ⟨indexDue p s.dev, exec_indexDue h, ?_, ?_, ?_, (indexDue_step p s.dev).only⟩
  · rw [hdev, prtStatus_prtp, hnone]
  · rw [hdev, prtStatus_reg _ _ (prtLatecnt_ne_stat p), hkept _ (by unfold PRT_LATECNT PRT_RDIDX; omega) (prtLatecnt_ne_stat p),
      lateIndex_count]
    rfl
  · rw [hdev, prtStatus_flag _ _ (by decide), hflag _ (by decide), lateIndex_flag]

end Late

end Due

/-! ## A wait and a firing end; the head's fault pin (R213, R215, R218, R222) -/

section Pins
variable {p : Fin 2} {s : State} (h : s.dev.ready = true)
include h

theorem exec_delayedFiring : exec (.delayedFiring p) s = .next { s with dev := delayedFiring p s.dev } := onReady_ready h _

theorem exec_firingEnd : exec (.firingEnd p) s = .next { s with dev := firingEnd p s.dev } := onReady_ready h _

theorem exec_headFault (low : Bool) : exec (.headFault p low) s = .next { s with dev := headFault p low s.dev } := onReady_ready h _

theorem waiting_fires {r : Nat} {b : Bool} (hw : (s.dev.prtp p).waiting = some (r, b)) (hf : (s.dev.prtp p).firing = none)
    (hm : s.dev.mode = .run) (hh : s.dev.halted = false) (hlow : headLow s.dev p = false) :
    ∃ d f, exec (.delayedFiring p) s = .next { s with dev := d } ∧ (d.prtp p).waiting = none ∧
      (d.prtp p).firing = some f ∧ f.index = r ∧ f.blank = b ∧ f.strobe = !b ∧ f.own = true ∧
      f.at_ = max s.dev.now (shiftDone s.dev p b) ∧ OnlyPrt p s.dev d := by
  have hdev := delayedFiring_fires hw hf hm hh hlow
  refine ⟨delayedFiring p s.dev, firingOf p r (max s.dev.now (shiftDone s.dev p b)) b (waitOver p b s.dev), exec_delayedFiring h,
    ?_, ?_, rfl, rfl, rfl, rfl, rfl, (delayedFiring_step p s.dev).only⟩
  · rw [hdev, prtStatus_prtp, shiftNext_waiting, fireIndex_waiting, waitOver, prtp_setPrt]
  · rw [hdev, prtStatus_prtp, shiftNext_firing, fireIndex_firing]

theorem firing_ends {f : Firing} {j : Job} (hf : (s.dev.prtp p).firing = some f) (hown : f.own = true)
    (ha : (s.dev.prtp p).active = some j) (hw : (s.dev.prtp p).waiting = none) :
    (j.next < jobTotal s.dev p j → ∃ d, exec (.firingEnd p) s = .next { s with dev := d } ∧ (d.prtp p).firing = none ∧
      (d.prtp p).active = some j ∧
      d.reg (PRT_RDIDX p) = word ((j.first + min j.rows (j.next - maxOfs s.dev p)) % 65536) ∧ OnlyPrt p s.dev d) ∧
    (jobTotal s.dev p j ≤ j.next → (s.dev.prtp p).queued = none →
      ∃ d, exec (.firingEnd p) s = .next { s with dev := d } ∧ (d.prtp p).firing = none ∧ (d.prtp p).active = none ∧
        d.reg (PRT_RDIDX p) = word ((j.first + j.rows) % 65536) ∧ d.flag (PRT_STAT p) 13 = true ∧ OnlyPrt p s.dev d) := by
  have honly := (firingEnd_step p s.dev).only
  refine ⟨fun hmore => ?_, fun hlast hq => ?_⟩
  · obtain ⟨hfiring, hactive, hrdidx⟩ := firingEnd_goesOn hf hown ha hw hmore
    exact ⟨_, exec_firingEnd h, hfiring, hactive, hrdidx, honly⟩
  · obtain ⟨hfiring, hactive, hrdidx, hdone⟩ := firingEnd_ends hf hown ha hw hlast hq
    exact ⟨_, exec_firingEnd h, hfiring, hactive, hrdidx, hdone, honly⟩

theorem head_falls (h29 : s.dev.flag (PRT_CFG p) 29 = true) (hlevel : (s.dev.prtp p).fltLow = false) : ∃ d,
    exec (.headFault p true) s = .next { s with dev := d } ∧ d.flag (PRT_STAT p) 10 = true ∧
    d.prtp p = { s.dev.prtp p with
      fltLow := true, firing := (s.dev.prtp p).firing.map (fun f => { f with strobe := false }) } ∧ OnlyPrt p s.dev d := by
  refine ⟨headFault p true s.dev, exec_headFault h true, ?_, ?_, (headFault_step p s.dev true).only⟩
  · rw [headFault_falls h29 hlevel, flagged_stat p _ (by decide)]
  · rw [headFault_falls h29 hlevel, prtp_raise, prtp_setFlag, prtp_setPrt]

end Pins

/-! ## Tables and the ratio (R218, R220) -/

section Tables
variable {p : Fin 2} {v : Word} {s : State}

section Commands
variable (h : ticking s.dev = true)
include h

theorem exec_densityWrite : exec (.densityWrite p v) s = .next { s with dev := densityWrite p v s.dev } := atEdge_ticking h _

theorem exec_sliceWidthWrite : exec (.sliceWidthWrite p v) s = .next { s with dev := sliceWrite p v s.dev } := atEdge_ticking h _

theorem density_written (h31 : bit v 31 = true) : ∃ d, exec (.densityWrite p v) s = .next { s with dev := d } ∧
    d.fld (PRT_DEN p (4 * bits v 1 0 + bits v 5 2 / 4)) (8 * (bits v 5 2 % 4) + 7) (8 * (bits v 5 2 % 4)) = bits v 15 8 ∧
    (∀ a, a ≠ PRT_DEN p (4 * bits v 1 0 + bits v 5 2 / 4) → d.reg a = s.dev.reg a) ∧ OnlyPrt p s.dev d ∧
    (d.prtp p).firing = (s.dev.prtp p).firing ∧
    ∀ h, (s.dev.prtp p).shift = some h → h.start ≤ s.dev.now → (d.prtp p).shift = some h := by
  have hwidth : 8 * (bits v 5 2 % 4) + 7 + 1 - 8 * (bits v 5 2 % 4) = 8 := by omega
  have hmask : bits v 15 8 < 2 ^ 8 := Nat.mod_lt _ (by decide)
  refine ⟨_, exec_densityWrite h, ?_⟩
  rw [densityWrite_valid h31]
  exact ⟨tableWritten_fld (by omega) (by rwa [hwidth]), fun a ha => tableWritten_reg_other ha, tableWritten_only,
    tableWritten_firing, fun x hx hstart => tableWritten_shift hx hstart⟩

theorem sliceWidth_written (h15 : bit v 15 = true) : ∃ d, exec (.sliceWidthWrite p v) s = .next { s with dev := d } ∧
    d.fld (PRT_SLW p (4 * bits v 1 0 + bits v 4 2 / 2)) (16 * (bits v 4 2 % 2) + 15) (16 * (bits v 4 2 % 2)) = bits v 31 16 ∧
    (∀ a, a ≠ PRT_SLW p (4 * bits v 1 0 + bits v 4 2 / 2) → d.reg a = s.dev.reg a) ∧ OnlyPrt p s.dev d ∧
    (d.prtp p).firing = (s.dev.prtp p).firing ∧
    ∀ h, (s.dev.prtp p).shift = some h → h.start ≤ s.dev.now → (d.prtp p).shift = some h := by
  have hwidth : 16 * (bits v 4 2 % 2) + 15 + 1 - 16 * (bits v 4 2 % 2) = 16 := by omega
  have hclocks : bits v 31 16 < 2 ^ 16 := Nat.mod_lt _ (by decide)
  refine ⟨_, exec_sliceWidthWrite h, ?_⟩
  rw [sliceWrite_valid h15]
  exact ⟨tableWritten_fld (by omega) (by rwa [hwidth]), fun a ha => tableWritten_reg_other ha, tableWritten_only,
    tableWritten_firing, fun x hx hstart => tableWritten_shift hx hstart⟩

end Commands

theorem exec_ratioWrite (q : HostPort) (p : Fin 2) (v : Word) (s : State) :
    exec (.ratioWrite q p v) s = exec (.registerWrite q (PRT_RATIO p) .b4 (v.setWidth 64)) s :=
  congrArg Host.Outcome.next (regRow_eq_memRow (PRT_RATIO p) v)

theorem ratio_row (p : Fin 2) :
    row? (PRT_RATIO p) = some ⟨0x01070008, 2, 0x100, 1, 0x1, 0x10001, 0x0, 0x0, 0x0, 0xFFFFFFFF⟩ := by decide +revert

theorem ratio_ownRule (p : Fin 2) : ownRule (PRT_RATIO p) = false := by decide +revert

theorem ratioWrite_staged {q : HostPort} (hs : Holds q s) (hm : s.dev.mode = .commission) (p : Fin 2) (v : Word) :
    exec (.ratioWrite q p v) s = .next { s with dev := stageHost (.host q) (.reg (PRT_RATIO p) v) s.dev } := by
  have ha : RegAddr (PRT_RATIO p) := by unfold RegAddr PRT_RATIO; omega
  have hlock : axisLocked (PRT_RATIO p) s.dev = false := by
    have hb : PRT_RATIO p.val / 0x10000 ≠ 0x104 := by unfold PRT_RATIO; omega
    rw [axisLocked, decide_eq_false hb]
    rfl
  rw [exec_ratioWrite, registerWrite_staged hs ha (ratio_row p) (ratio_ownRule p) (.inr (by decide)) (fun _ => hm) hlock,
    loWord_setWidth]

end Tables

/-! ## The obligation -/

/-- Settles O24: GO by the port's active job, a row by whether it was late, an index that falls due by its rows, the firing in progress
and its shift, and the end of a firing by the indices left; a step of one port leaves the other and the units elsewhere. -/
theorem printing : Obligations.Printing := by
  unfold Obligations.Printing
  refine ⟨fun p s h => ⟨fun hring hrows hfeed hon hfree hbefore => ?_, go_refused h, fun j => abort_ends h⟩,
    fun p s ha hroom => ⟨rowFetch_discards ha hroom, fun hlate => ⟨rowFetch_stores ha hroom hlate,
      rowFetch_withError ha hroom hlate⟩⟩,
    fun p s => ⟨fun j hj => ⟨fun hlow hmiss hw => ⟨fun x hf => due_fires hj hlow hmiss hw hf, due_waits hj hlow hmiss hw⟩,
        fun w hlow hmiss => due_skipped hj hlow hmiss, fun hlate => ⟨due_blank hj hlate, due_aborts hj hlate⟩⟩,
      fun r b hr => waiting_fires hr, fun f j hr => firing_ends hr, fun hr => ?_, head_falls⟩,
    fun p v s h => ⟨density_written h, fun h31 => ?_, sliceWidth_written h, fun h15 => ?_, fun q hs hm => ratioWrite_staged hs hm p v⟩⟩
  · have hgo : GoAccepted p s.dev := ⟨hring, hrows, hfeed, hon, hfree, hbefore⟩
    exact ⟨go_starts h hgo, go_queues h hgo⟩
  · rw [exec_headFault hr, headFault_high]
  · rw [exec_densityWrite h, densityWrite_invalid h31]
  · rw [exec_sliceWidthWrite h, sliceWrite_invalid h15]

end Sys2Proof.Proofs
end

section
/-! PROOFS. The queue of commands: a step runs the front (00_scope.md), an empty queue idles, and what every step keeps from reset on
(06_modes.md, R349). -/
namespace Sys2Proof.Proofs
open Sys2Proof Sys2Proof.Machine Sys2Proof.Claims

section Queue
variable {s : State}

theorem step_cons {c : Instr} {rest : List Instr} (h : s.pending = c :: rest) : step s = exec c { s with pending := rest } := by
  rw [step, h]

theorem step_nil (h : s.pending = []) : step s = .next (idleCycle s) := by
  rw [step, h]

theorem withFetchWord_eq (s : State) (n w : Nat) : s.withFetchWord n w = s := rfl

theorem idleCycle_advances (s : State) : Advances s (idleCycle s) :=
  ite_adv (Advances.refl s) (Advances.ofDev (Keeps.now (Nat.le_add_right _ 2) (Keeps.refl s.dev)))

/-- What advances from a sound machine is sound. -/
theorem Advances.sound {t : State} (h : Advances s t) (hs : s.Sound) : t.Sound := ⟨h.dev.sound hs.dev, h.snap hs⟩

end Queue

/-- Settles O55. -/
theorem stepRunsFront : Obligations.StepRunsFront := fun _ _ _ h => step_cons h

/-- Settles O56: the idle cycle by whether the device is stopped. -/
theorem emptyQueue : Obligations.EmptyQueue := by
  unfold Obligations.EmptyQueue
  refine ⟨fun s h => ⟨fun hrun => ?_, fun hstop => ?_⟩, fun s n w => ⟨rfl, withFetchWord_eq s n w⟩⟩
  · rw [step_nil h, idleCycle, if_neg (ne_true_of_eq_false hrun)]
  · rw [step_nil h, idleCycle, if_pos hstop]

/-- A device with no store written and no fault is sound. -/
theorem reset_dev_sound : State.reset.dev.Sound := ⟨rfl, rfl, rfl, rfl, rfl, rfl, rfl, rfl⟩

/-- Settles O58: every store is empty at reset. -/
theorem soundAtReset : Obligations.SoundAtReset := ⟨reset_dev_sound, reset_dev_sound⟩

/-- Settles O59: an idle cycle and each command advance the machine, and what advances stays sound. -/
theorem everyStepKeepsSound : Obligations.EveryStepKeepsSound := by
  unfold Obligations.EveryStepKeepsSound
  intro s t hs hstep
  cases hq : s.pending with
  | nil =>
    rw [step_nil hq] at hstep
    cases hstep
    exact Advances.sound (idleCycle_advances s) hs
  | cons c rest =>
    obtain ⟨u, hu, hadv⟩ := exec_advances c { s with pending := rest }
    rw [step_cons hq, hu] at hstep
    cases hstep
    exact Advances.sound hadv ⟨hs.dev, hs.snap⟩

end Sys2Proof.Proofs
end

section
/-! PROOFS. The accumulator instructions (03_limath.md, *Accumulators*; R56, R59). -/
namespace Sys2Proof.Proofs
open Sys2Proof Sys2Proof.Machine Sys2Proof.Claims

/-! ## What a write of an accumulator leaves -/

section Writes
variable {c c' : Core} {k : Nat}

theorem ac_setA {i : Nat} (hi : i < 4) (hk : k < 4) (v : DWord) : (c.setA k v).ac i = if i = k then v else c.ac i := by
  simp only [Core.ac, Core.setA, Fin.getElem_fin, Fin.val_ofNat, Nat.mod_eq_of_lt hi, Nat.mod_eq_of_lt hk, Vector.getElem_set,
    eq_comm (a := k)]

theorem OnlyA.sticky {v : DWord} (h : OnlyA c c' k v 0) (m : Nat) : OnlyA c (c'.sticky m) k v m := by
  obtain ⟨hw, hs, hg, hf, hp, hu⟩ := h
  exact ⟨hw, Sticks.sticky hs m, hg, hf, hp, Untouched.sticky hu m⟩

/-- Which instruction came last, for the next MAC (R56), is no part of what an instruction writes. -/
theorem OnlyA.lastMac {v : DWord} {m : Nat} (h : OnlyA c c' k v m) (x : Option Nat) : OnlyA c { c' with lastMac := x } k v m := by
  obtain ⟨hw, hs, hg, hf, hp, hu⟩ := h
  exact ⟨hw, hs, hg, hf, hp, hu.stack, hu.lc, hu.body, hu.run, hu.cask, hu.bad, hu.imem, hu.consts, hu.dmem, hu.busy, hu.done, hu.err⟩

variable (issue cost lat : Nat) (dsts : List Nat)

theorem onlyA_setA (hk : k < 4) (v : DWord) : OnlyA c ((c.setA k v).retire issue cost lat dsts) k v 0 :=
  ⟨fun _ hi => ac_setA hi hk v, (BitVec.or_zero (x := c.cst)).symm, rfl, rfl, rfl,
    rfl, rfl, rfl, rfl, rfl, rfl, rfl, rfl, rfl, rfl, rfl, rfl⟩

theorem onlyA_aResult (hk : k < 4) (r : DWord × Nat) : OnlyA c ((aResult k c r).retire issue cost lat dsts) k r.1 r.2 :=
  OnlyA.sticky (onlyA_setA issue cost lat dsts hk r.1) r.2

theorem setA_eq_aResult (k : Nat) (c : Core) (v : DWord) : c.setA k v = aResult k c (v, 0) := (sticky_zero _).symm

end Writes

/-! ## Rows that write an accumulator -/

/-- A row runs as an instruction on registers that puts its value into its accumulator; MAC and MACH mark it for the next one (R56),
which is no part of what an instruction writes. -/
def AccRowRuns (r : RegRow DWord) : Prop :=
  ∀ (o : Lim) (s : State), r.ok o → r.rd o < 4 ∧ ∃ legal reads cost lat dsts, ∃ mark : State → State, legal = true ∧
    exec (r.instr o) s = .next (mark (limReg o legal reads cost lat dsts (fun c => aResult (r.rd o) c (r.val o s c)) s)) ∧
    ∀ c', ∃ x, mark (withCore o s c') = withCore o s { c' with lastMac := x }

/-- The mark that a MAC leaves is the core's own. -/
theorem macDone_withCore (o : Lim) (s : State) (c' : Core) :
    ∃ x, macDone o s (withCore o s c') = withCore o s { c' with lastMac := x } := by
  have hcore : (withCore o s c').dev.core o.core = c' := Dev.core_setCore _ _ _
  have hset (c : Core) : (withCore o s c').dev.setCore o.core c = (withCore o s c).dev := by
    simp [withCore, Dev.setCore]
  unfold macDone
  simp only [hcore, hset]
  split
  · exact ⟨c'.lastMac, rfl⟩
  · split
    · exact ⟨some (rdOf o), rfl⟩
    · exact ⟨c'.lastMac, rfl⟩

section Rows
variable {r : RegRow DWord} {legal : Lim → Bool} {reads : Lim → State → List Nat} {lat : Nat} {dsts : Lim → List Nat}
  {op : Lim → Core → Core}

theorem AccRowRuns.of
    (he : ∀ o s, exec (r.instr o) s = .next (limReg o (legal o) (reads o s) r.cost lat (dsts o) (op o) s))
    (hrd : ∀ o, r.ok o → r.rd o < 4) (hl : ∀ o, r.ok o → legal o = true)
    (hv : ∀ o s c, r.ok o → op o c = aResult (r.rd o) c (r.val o s c)) : AccRowRuns r := by
  intro o s hok
  have hop : op o = fun c => aResult (r.rd o) c (r.val o s c) := funext (fun c => hv o s c hok)
  exact ⟨hrd o hok, _, _, _, _, _, id, hl o hok, hop ▸ he o s, fun c' => ⟨c'.lastMac, rfl⟩⟩

theorem AccRowRuns.mac
    (he : ∀ o s, exec (r.instr o) s = .next (macDone o s (limReg o (legal o) (reads o s) r.cost lat (dsts o) (op o) s)))
    (hrd : ∀ o, r.ok o → r.rd o < 4) (hl : ∀ o, r.ok o → legal o = true)
    (hv : ∀ o s c, r.ok o → op o c = aResult (r.rd o) c (r.val o s c)) : AccRowRuns r := by
  intro o s hok
  have hop : op o = fun c => aResult (r.rd o) c (r.val o s c) := funext (fun c => hv o s c hok)
  exact ⟨hrd o hok, _, _, _, _, _, macDone o s, hl o hok, hop ▸ he o s, macDone_withCore o s⟩

end Rows

theorem aHold_of_runs {l : List (RegRow DWord)} (hl : ∀ r ∈ l, AccRowRuns r) : AHold l := by
  intro r hr o s h hok
  obtain ⟨hrd, legal, reads, cost, lat, dsts, mark, hlegal, hi, hmark⟩ := hl r hr o s hok
  rw [limReg_on h hlegal] at hi
  obtain ⟨x, hx⟩ := hmark ((aResult (r.rd o) (from_ o s) (r.val o s (from_ o s))).retire (issueAt o s reads) cost lat dsts)
  rw [hx] at hi
  exact ⟨_, hi, OnlyA.lastMac (onlyA_aResult _ _ _ _ hrd _) x, rfl⟩

/-! ## Values -/

section Values
variable (a b : Word) (d : DWord) (n : Nat)

theorem kOf_lt (o : Lim) : kOf o < 4 := Nat.mod_lt _ (by decide)

theorem satS64_eq (x : Int) : satS64 x = clampA x := rfl

/-- A halfword read as signed. -/
theorem signed16_eq : signed 16 n = (BitVec.ofNat 16 n).toInt := by
  rw [signed, BitVec.toInt_eq_toNat_cond, BitVec.toNat_ofNat]

theorem loS_eq : loS a = lowHalf a := by
  rw [loS, lowHalf, signed16_eq, BitVec.ofNat_toNat]

theorem hiS_eq : hiS a = highHalf a := by
  have hdiv : a.toNat / 65536 = (a >>> 16).toNat := by rw [BitVec.toNat_ushiftRight, Nat.shiftRight_eq_div_pow]
  rw [hiS, highHalf, signed16_eq, hdiv, BitVec.ofNat_toNat]

/-- The product that a MAC adds: fn[0] unsigned, fn[1] subtracts. -/
theorem macOp_eq (o : Lim) (c : Core) :
    (if 2 ≤ fnOf o then -(valOf (decide (fnOf o % 2 = 1)) (c.gr (raOf o)) * valOf (decide (fnOf o % 2 = 1)) (c.gr (rbOf o)))
      else valOf (decide (fnOf o % 2 = 1)) (c.gr (raOf o)) * valOf (decide (fnOf o % 2 = 1)) (c.gr (rbOf o))) = macTerm o c := by
  rw [macTerm, valOf_eq_numOf, valOf_eq_numOf]
  split
  · next h => rw [if_neg (by omega), neg_one_mul]; rfl
  · next h => rw [if_pos (by omega), one_mul]; rfl

theorem aclrOp_eq : BitVec.ofInt 64 (a.toInt * 2 ^ n) = (a.signExtend 64 : DWord) <<< n := by
  have hpow : BitVec.ofInt 64 (2 ^ n) = BitVec.twoPow 64 n := by
    have hcast : (2 : Int) ^ n = ((2 ^ n : Nat) : Int) := by push_cast; rfl
    rw [hcast, BitVec.ofInt_natCast]
    exact BitVec.eq_of_toNat_eq (by rw [BitVec.toNat_ofNat, BitVec.toNat_twoPow])
  rw [BitVec.shiftLeft_eq_mul_twoPow, BitVec.ofInt_mul, BitVec.signExtend, hpow]

theorem dword_eq : dword a b = a ++ b := by
  refine BitVec.eq_of_getLsbD_eq (fun i hi => ?_)
  have happ : (a ++ b : DWord).getLsbD i = if i < 32 then b.getLsbD i else a.getLsbD (i - 32) := BitVec.getLsbD_append
  rw [happ]
  split
  · next h => simp [dword, h, hi]
  · next h => simp [dword, h, hi, BitVec.getLsbD_of_ge b i (Nat.le_of_not_lt h)]

theorem sshiftRight_eq : d.sshiftRight n = BitVec.ofInt 64 (d.toInt / 2 ^ n) := by
  rw [BitVec.sshiftRight, Int.shiftRight_eq_div_pow, Int.natCast_pow, Nat.cast_ofNat]

theorem aextOp_eq (sh rnd : Nat) : aextOp d sh rnd =
    clampS ((d.toInt + (if sh = 0 then 0 else (rnd : Int) * 2 ^ (sh - 1))) / 2 ^ sh) := by
  rw [aextOp, satS32_eq]
  push_cast
  rfl

theorem loWord_eq : loWord d = d.extractLsb' 0 32 := by
  refine BitVec.eq_of_getLsbD_eq (fun i hi => ?_)
  simp [loWord, hi]

theorem hiWord_eq : hiWord d = d.extractLsb' 32 32 := by
  refine BitVec.eq_of_getLsbD_eq (fun i hi => ?_)
  simp [hiWord, hi]

end Values

/-! ## The rows -/

theorem accRows_run : ∀ r ∈ accRows, AccRowRuns r := by
  simp only [accRows, List.forall_mem_cons]
  refine ⟨?mac, ?mach, ?aclr, ?aset, ?aadd, ?ashl, List.forall_mem_nil _⟩
  case mac =>
    refine .mac (fun _ _ => rfl) (fun _ h => h.2) (fun o ⟨hfn, hrd⟩ => ?_) (fun o _ c _ => ?_)
    · rw [okR_iff.mpr hfn, okA_iff.mpr hrd, Bool.and_self]
    · exact congrArg (fun x => aResult (rdOf o) c (clampA ((c.ac (rdOf o)).toInt + x))) (macOp_eq o c)
  case mach =>
    refine .mac (fun _ _ => rfl) (fun _ h => h.2) (fun o ⟨hfn, hrd⟩ => ?_) (fun o _ c _ => ?_)
    · rw [okR_zero_iff.mpr hfn, okA_iff.mpr hrd, Bool.and_self]
    · simp only [loS_eq, hiS_eq, satS64_eq, xa, xb]
  case aclr =>
    refine .of (fun _ _ => rfl) (fun _ h => h.1) (fun o ⟨hrd, hrb⟩ => ?_) (fun o _ c _ => ?_)
    · rw [okRa_of (Nat.le_of_lt_succ (fnOf_lt o)) hrb, okA_iff.mpr hrd, Bool.and_self]
    · rw [aclrOp_eq, setA_eq_aResult]; rfl
  case aset =>
    refine .of (fun _ _ => rfl) (fun _ h => h.2) (fun o ⟨hfn, hrd⟩ => ?_) (fun o _ c _ => ?_)
    · rw [okR_zero_iff.mpr hfn, okA_iff.mpr hrd, Bool.and_self]
    · rw [dword_eq, setA_eq_aResult]; rfl
  case aadd =>
    refine .of (fun _ _ => rfl) (fun _ h => h.2.1) (fun o ⟨hfn, hrd, hra, hrb⟩ => ?_) (fun o _ c ⟨hfn, _⟩ => ?_)
    · rw [okRa_of hfn hrb, okA_iff.mpr hrd, okA_iff.mpr hra, Bool.and_self, Bool.and_self]
    · have hiff : (fnOf o = 1) ↔ ¬ fnOf o = 0 := by omega
      simp only [satS64_eq, hiff, ite_not]
  case ashl =>
    refine .of (fun _ _ => rfl) (fun o _ => kOf_lt o) (fun o ⟨hrd, h3⟩ => ?_) (fun o _ c _ => ?_)
    · rw [okA3_iff.mpr h3, decide_eq_true hrd, Bool.and_self]
    · simp only [ashlOp, decide_eq_true_eq, sshiftRight_eq, satS64_eq]

theorem accReadRows_run : ∀ r ∈ accReadRows, RowRuns 32 gResult r := by
  simp only [accReadRows, List.forall_mem_cons]
  refine ⟨?aext, ?amov, List.forall_mem_nil _⟩
  case aext =>
    refine .of (fun _ _ _ => rfl) (fun o _ => rdOf_lt o) (fun _ => okA3_iff.mpr) (fun o _ c _ => ?_)
    rw [aextOp_eq]
  case amov =>
    refine .of (fun _ _ _ => rfl) (fun o _ => rdOf_lt o) (fun o ⟨hfn, hra, hrb⟩ => ?_) (fun o _ c _ => ?_)
    · rw [okRa_of hfn hrb, okA_iff.mpr hra, Bool.and_self]
    · rw [loWord_eq, hiWord_eq, setG_eq_gResult]

/-- Settles O3: each row runs as an instruction on registers with its row's result. -/
theorem accumulatorResults : Obligations.AccumulatorResults := ⟨aHold_of_runs accRows_run, gHold_of_runs accReadRows_run⟩

end Sys2Proof.Proofs
end

section
/-! PROOFS. What a fault leaves in the fault unit and in its registers (R347, R349, R358, R359), and the monitors' faults by class
(R121, R367, R413). -/
namespace Sys2Proof.Proofs
open Sys2Proof Sys2Proof.Machine Sys2Proof.Claims

/-! ## A change of FAULT_N (R358) -/

theorem watchFaultN_frame (f : Dev → Dev) (d : Dev) : EventsOnly (f d) (watchFaultN f d) := by
  rcases watchFaultN_cases f d with hw | hw
  · rw [hw]
    exact .refl _
  · rw [hw]
    exact vecBoth_frame 2 _

theorem watchFaultN_reg {a : Nat} (h : OffEvents a) (f : Dev → Dev) (d : Dev) : (watchFaultN f d).reg a = (f d).reg a := by
  rcases watchFaultN_cases f d with hw | hw
  · rw [hw]
  · rw [hw, vecBoth_reg h]

theorem watchFaultN_flag {a i : Nat} (h : OffEvents a) (f : Dev → Dev) (d : Dev) :
    (watchFaultN f d).flag a i = (f d).flag a i := by
  rw [Dev.flag, watchFaultN_reg h, Dev.flag]

theorem eventsOnly_fu {d e : Dev} (h : EventsOnly d e) : e.fu = d.fu := by
  obtain ⟨r, v, m, rfl⟩ := h
  rfl

theorem offEvents_flt {a : Nat} (h : a / 0x10000 = 0x10E) : OffEvents a := offEvents_of_block (by omega) (by omega)

/-! ## A Note (R347, R359) -/

/-- A Note leaves the stack; it may leave a log record. -/
theorem fault_note_unit (ev : Nat) (w : Word) (d : Dev) :
    (fault ev .note w d).fu.stack = d.fu.stack ∧ (fault ev .note w d).fu.total = d.fu.total := by
  have hraise := eventsOnly_fu (raise_frame ev d)
  rw [fault, faultAt, eventsOnly_fu (watchFaultN_frame _ d)]
  simp only [if_true]
  split <;> simp [hraise]

theorem fault_noted {ev : Nat} (he : evReserved ev = false) (w : Word) {d : Dev} (hr : Raises d) : Noted ev d (fault ev .note w d) := by
  obtain ⟨hstack, htotal⟩ := fault_note_unit ev w d
  refine ⟨hstack, htotal, ?_, fault_note_stuck w he hr, ?_⟩
  · rw [fault_note_reg offEvents_notes, if_pos rfl]
  · rw [fault_note_reg (offEvents_flt rfl), if_neg (by decide)]

theorem fault_note_elsewhere (ev : Nat) (w : Word) (d : Dev) : Elsewhere d (fault ev .note w d) := by
  obtain ⟨f, r, v, m, he⟩ := fault_note_frame ev w d
  rw [he]
  exact ⟨rfl, rfl, rfl, rfl, ⟨rfl, rfl⟩, rfl, rfl, rfl, rfl⟩

/-! ## What the parts of a fault touch -/

section Frames
variable (ev : Nat) (c : Cls) (w : Word) (infp guard : Bool) (d : Dev)

/-- Up to the stack a fault that abandons no tick touches registers, events, the monitor's hits and the fault unit alone. -/
theorem faultStacked_frame : ∃ f, EventsOnly { d with fu := f } (faultStacked ev c w infp false guard d) := by
  obtain ⟨r, v, m, he⟩ := raise_frame ev d
  obtain ⟨f, hf⟩ := enterStack_frame (recordOf ev c w infp d) false (faultBegun ev false guard d)
  refine ⟨f, EventsOnly.trans ⟨r, v, m, ?_⟩ hf⟩
  simp only [faultBegun, Bool.false_eq_true, if_false, he]

/-- A Degrade fault touches registers, events, the monitor's hits and the fault unit alone. -/
theorem fault_degrade_frame : ∃ f, EventsOnly { d with fu := f } (fault ev .degrade w d) := by
  obtain ⟨f, r, v, m, hf⟩ := faultStacked_frame ev .degrade w false (decide (ev = 3)) d
  have hclass : ∃ f, EventsOnly { d with fu := f } (applyClass .degrade (faultStacked ev .degrade w false false (decide (ev = 3)) d)) := by
    rw [hf]
    exact ⟨_, _, _, _, rfl⟩
  obtain ⟨g, hg⟩ := hclass
  have hfault : fault ev .degrade w d = _ := faultAt_eq ev .degrade w false false (decide (ev = 3)) d (by decide)
  rw [hfault]
  exact ⟨g, hg.trans (watchFaultN_frame (fun d => applyClass .degrade (faultStacked ev .degrade w false false (decide (ev = 3)) d)) d)⟩

/-- A Hold fault also asks for Hold. -/
theorem fault_hold_frame : ∃ f, EventsOnly { d with fu := f, holdReq := true } (fault ev .hold w d) := by
  obtain ⟨f, r, v, m, hf⟩ := faultStacked_frame ev .hold w false (decide (ev = 3)) d
  have hclass : ∃ f, EventsOnly { d with fu := f, holdReq := true }
      (applyClass .hold (faultStacked ev .hold w false false (decide (ev = 3)) d)) := by
    rw [hf]
    exact ⟨_, _, _, _, rfl⟩
  obtain ⟨g, hg⟩ := hclass
  have hfault : fault ev .hold w d = _ := faultAt_eq ev .hold w false false (decide (ev = 3)) d (by decide)
  rw [hfault]
  exact ⟨g, hg.trans (watchFaultN_frame (fun d => applyClass .hold (faultStacked ev .hold w false false (decide (ev = 3)) d)) d)⟩

theorem fault_degrade_elsewhere : Elsewhere d (fault ev .degrade w d) := by
  obtain ⟨f, r, v, m, he⟩ := fault_degrade_frame ev w d
  rw [he]
  exact ⟨rfl, rfl, rfl, rfl, ⟨rfl, rfl⟩, rfl, rfl, rfl, rfl⟩

theorem fault_hold_elsewhere : Elsewhere d (fault ev .hold w d) := by
  obtain ⟨f, r, v, m, he⟩ := fault_hold_frame ev w d
  rw [he]
  exact ⟨rfl, rfl, rfl, rfl, ⟨rfl, rfl⟩, rfl, rfl, rfl, rfl⟩

end Frames

/-! ## The fault unit's registers (R347, R349) -/

section Registers
variable {a : Nat}

/-- The stack counts a dropped record in FLT_OVF and shows it in FLT_STAT.OVF. -/
theorem enterStack_fltReg (h : a / 0x10000 = 0x10E) (r : FRec) (ab : Bool) (d : Dev) : (enterStack r ab d).reg a =
    if (stackPush r d.fu.stack).2.isSome then
      (if a = FLT_STAT then setBit (d.reg a) 3 true else if a = FLT_OVF then d.reg a + 1 else d.reg a)
    else d.reg a := by
  have hraise := raise_reg (offEvents_flt h) 216 { d with fu := stackedUnit r ab d.fu }
  have hd : ({ d with fu := stackedUnit r ab d.fu } : Dev).reg a = d.reg a := rfl
  rw [enterStack_eq]
  dsimp only
  split
  · rw [raise_reg (offEvents_flt h)]
    by_cases hs : a = FLT_STAT
    · subst hs
      rw [if_pos rfl, Dev.flag_setFlag, Dev.reg_count1_other _ _ _ (by decide), hraise, hd]
    · rw [if_neg hs, Dev.reg_setFlag_other _ _ _ _ _ hs]
      by_cases ho : a = FLT_OVF
      · subst ho
        rw [if_pos rfl, Dev.reg_count1, hraise, hd]
      · rw [if_neg ho, Dev.reg_count1_other _ _ _ ho, hraise, hd]
  · rw [hraise, hd]

theorem faultBegun_reg (h : OffEvents a) (ev : Nat) (ab guard : Bool) (d : Dev) : (faultBegun ev ab guard d).reg a = d.reg a := by
  cases ab
  · exact raise_reg h ev d
  · exact (Dev.reg_congr (by simp [faultBegun, abandonBy_eq]) a).trans (raise_reg h ev d)

theorem trimFail_reg (h : OffEvents a) (hb : a / 0x10000 ≠ TRM_STAT / 0x10000) (code : Nat) (d : Dev) :
    (trimFail code d).reg a = d.reg a := by
  have hs : a ≠ TRM_STAT := by rintro rfl; exact hb rfl
  have hc : a ≠ TRM_COUNT := by rintro rfl; exact hb rfl
  unfold trimFail
  split
  · rw [raise_reg h, Dev.reg_count1_other _ _ _ hc]
    have hflds : (Dev.setFld TRM_STAT 19 16 code (Dev.setFld TRM_STAT 13 12 0 (Dev.setFld TRM_STAT 1 0 3 d))).reg a = d.reg a := by
      rw [Dev.reg_setFld_other _ _ _ _ _ _ hs, Dev.reg_setFld_other _ _ _ _ _ _ hs, Dev.reg_setFld_other _ _ _ _ _ _ hs]
    rw [← hflds]
    exact Dev.reg_congr rfl a
  · rfl

theorem logFault_reg (hb : a / 0x10000 ≠ CEL_LOGHEAD / 0x10000) (l : FLog) (d : Dev) : (logFault l d).reg a = d.reg a := by
  have h1 : a ≠ CEL_LOGHEAD := by rintro rfl; exact hb rfl
  have h2 : a ≠ CEL_LOGSEQ := by rintro rfl; exact hb rfl
  have h3 : a ≠ CEL_DROPPED := by rintro rfl; exact hb rfl
  have hassign : (logAssign d).2.reg a = d.reg a := by
    unfold logAssign
    split
    · rw [Dev.reg_setReg, if_neg h2, Dev.reg_setReg, if_neg h1]
    · exact Dev.reg_count1_other _ _ _ h3
  unfold logFault
  generalize logAssign d = p at hassign ⊢
  obtain ⟨_ | ⟨slot, seq⟩, e⟩ := p
  · exact hassign
  · rw [← hassign]
    refine Dev.reg_congr ?_ a
    rfl

theorem logFlush_reg (hb : a / 0x10000 ≠ CEL_LOGHEAD / 0x10000) (d : Dev) : (logFlush d).reg a = d.reg a :=
  List.foldlRecOn (motive := fun e => e.reg a = d.reg a) d.fu.logs _ rfl (fun e he l _ => (logFault_reg hb l e).trans he)

/-- The bit of FLT_STAT that a class sets. -/
def classBit : Cls → Option Nat
  | .degrade => some 2
  | .slip => some 1
  | .hold => some 4
  | _ => none

theorem applyClass_stat (c : Cls) (d : Dev) : (applyClass c d).reg FLT_STAT =
    match classBit c with
    | some i => setBit (d.reg FLT_STAT) i true
    | none => d.reg FLT_STAT := by
  have hoff : OffEvents FLT_STAT := offEvents_flt rfl
  have hdue (i : Nat) : (pulseDue (Dev.setFlag FLT_STAT i true d)).reg FLT_STAT = setBit (d.reg FLT_STAT) i true :=
    (Dev.reg_count1_other _ _ _ (by decide)).trans (Dev.flag_setFlag _ _ _ _)
  cases c with
  | note => rfl
  | degrade => exact hdue 2
  | slip => exact hdue 1
  | hold => exact Dev.flag_setFlag _ _ _ _
  | halt =>
    rw [applyClass, raise_reg hoff, logFlush_reg (by decide), trimFail_reg hoff (by decide)]
    rfl

theorem applyClass_ovf (c : Cls) (d : Dev) : (applyClass c d).reg FLT_OVF = d.reg FLT_OVF := by
  have hoff : OffEvents FLT_OVF := offEvents_flt rfl
  have hdue (i : Nat) : (pulseDue (Dev.setFlag FLT_STAT i true d)).reg FLT_OVF = d.reg FLT_OVF :=
    (Dev.reg_count1_other _ _ _ (by decide)).trans (Dev.reg_setFlag_other _ _ _ _ _ (by decide))
  cases c with
  | note => rfl
  | degrade => exact hdue 2
  | slip => exact hdue 1
  | hold => exact Dev.reg_setFlag_other _ _ _ _ _ (by decide)
  | halt =>
    rw [applyClass, raise_reg hoff, logFlush_reg (by decide), trimFail_reg hoff (by decide)]
    rfl

variable (ev : Nat) {c : Cls} (w : Word) (infp ab guard : Bool) (d : Dev)

theorem faultStacked_fltReg (h : a / 0x10000 = 0x10E) : (faultStacked ev c w infp ab guard d).reg a =
    if (stackPush (recordOf ev c w infp d) d.fu.stack).2.isSome then
      (if a = FLT_STAT then setBit (d.reg a) 3 true else if a = FLT_OVF then d.reg a + 1 else d.reg a)
    else d.reg a := by
  have hfu : (faultBegun ev ab guard d).fu = { d.fu with total := d.fu.total + 1 } := by
    cases ab <;> simp [faultBegun, abandonBy_eq]
  rw [faultStacked, enterStack_fltReg h, faultBegun_reg (offEvents_flt h), hfu]

variable (hc : c ≠ .note)
include hc

theorem faultAt_fltReg (h : a / 0x10000 = 0x10E) :
    (faultAt ev c w infp ab guard d).reg a = (applyClass c (faultStacked ev c w infp ab guard d)).reg a := by
  rw [faultAt_eq _ _ _ _ _ _ _ hc, watchFaultN_reg (offEvents_flt h)]

theorem faultAt_fu : (faultAt ev c w infp ab guard d).fu = (applyClass c (faultStacked ev c w infp ab guard d)).fu := by
  rw [faultAt_eq _ _ _ _ _ _ _ hc, eventsOnly_fu (watchFaultN_frame _ d)]

/-- FLT_OVF counts a dropped record. -/
theorem faultAt_ovf : (faultAt ev c w infp ab guard d).reg FLT_OVF =
    if (stackPush (recordOf ev c w infp d) d.fu.stack).2.isSome then d.reg FLT_OVF + 1 else d.reg FLT_OVF := by
  rw [faultAt_fltReg _ _ _ _ _ _ hc rfl, applyClass_ovf, faultStacked_fltReg _ _ _ _ _ _ rfl]
  rfl

/-- FLT_STAT shows the class and, with a dropped record, OVF. -/
theorem faultAt_stat_class {i : Nat} (hi : classBit c = some i) : (faultAt ev c w infp ab guard d).flag FLT_STAT i = true := by
  have h32 : i < 32 := by cases c <;> simp_all [classBit] <;> omega
  rw [Dev.flag, faultAt_fltReg _ _ _ _ _ _ hc rfl, applyClass_stat, hi]
  exact bit_setBit_same h32 _

theorem faultAt_stat_ovf (hdrop : (stackPush (recordOf ev c w infp d) d.fu.stack).2.isSome = true) :
    (faultAt ev c w infp ab guard d).flag FLT_STAT 3 = true := by
  have hst : bit ((faultStacked ev c w infp ab guard d).reg FLT_STAT) 3 = true := by
    rw [faultStacked_fltReg _ _ _ _ _ _ rfl, if_pos hdrop, if_pos rfl]
    exact bit_setBit_same (by decide) _
  rw [Dev.flag, faultAt_fltReg _ _ _ _ _ _ hc rfl, applyClass_stat]
  split
  · exact bit_setBit_true _ hst
  · exact hst

end Registers

/-! ## A Degrade fault pulses FAULT_N (R358) -/

theorem applyClass_pulse {c : Cls} (h : c = .degrade ∨ c = .slip) (d : Dev) :
    (applyClass c d).fu.pulse = true ∧ (applyClass c d).reg FLT_PULSECNT = d.reg FLT_PULSECNT + 1 := by
  have hdue (i : Nat) : (pulseDue (Dev.setFlag FLT_STAT i true d)).reg FLT_PULSECNT = d.reg FLT_PULSECNT + 1 :=
    (Dev.reg_count1 _ _).trans (congrArg (· + 1) (Dev.reg_setFlag_other _ _ _ _ _ (by decide)))
  rcases h with rfl | rfl
  · exact ⟨rfl, hdue 2⟩
  · exact ⟨rfl, hdue 1⟩

theorem faultAt_pulse (ev : Nat) {c : Cls} (h : c = .degrade ∨ c = .slip) (w : Word) (infp ab guard : Bool) (d : Dev) :
    (faultAt ev c w infp ab guard d).fu.pulse = true ∧
      (faultAt ev c w infp ab guard d).reg FLT_PULSECNT = d.reg FLT_PULSECNT + 1 := by
  have hc : c ≠ .note := by rcases h with rfl | rfl <;> decide
  obtain ⟨hpulse, hcount⟩ := applyClass_pulse h (faultStacked ev c w infp ab guard d)
  rw [faultAt_fu _ _ _ _ _ _ hc, faultAt_fltReg _ _ _ _ _ _ hc rfl, hcount, faultStacked_fltReg _ _ _ _ _ _ rfl]
  refine ⟨hpulse, congrArg (· + 1) ?_⟩
  split <;> rfl

/-! ## The monitors' faults (R121, R367, R413) -/

section Monitors
variable {s : State}

theorem monitorFault_ready (h : s.dev.ready = true) (ev : Nat) (c : Cls) (w : Word) :
    monitorFault ev c w s.dev = fault ev c w s.dev := if_pos h

theorem exec_tempWarning (h : s.dev.ready = true) {t : Int} (ht : 150 < t) :
    exec (.tempWarning t) s = .next { s with dev := fault 13 .note (wordI t) s.dev } := by
  rw [← monitorFault_ready h]
  exact congrArg (fun d => Host.Outcome.next { s with dev := d }) (if_pos ht)

theorem exec_tempCritical (h : s.dev.ready = true) {t : Int} (ht : 160 < t) :
    exec (.tempCritical t) s = .next { s with dev := fault 14 .hold (wordI t) s.dev } := by
  rw [← monitorFault_ready h]
  exact congrArg (fun d => Host.Outcome.next { s with dev := d }) (if_pos ht)

theorem exec_clockLoss (h : s.dev.ready = true) (x : ClockLoss) :
    exec (.clockLoss x) s = .next { s with dev := fault (clockEvent x).1 (clockEvent x).2 0 s.dev } := by
  rw [← monitorFault_ready h]
  rfl

theorem exec_supplyFault (h : s.dev.ready = true) : exec .supplyFault s = .next { s with dev := fault 15 .halt 0 s.dev } := by
  rw [← monitorFault_ready h]
  rfl

theorem exec_halt (ev : Fin 256) (w : Word) : exec (.halt ev w) s =
    .next { s with dev := if [2, 9, 10, 15].contains ev.val then monitorFault ev .halt w s.dev else s.dev } := rfl

/-- A Halt enters the stack and stops the device. -/
theorem fault_halt_entered {ev : Nat} (he : evReserved ev = false) (w : Word) {d : Dev} (hr : Raises d) :
    Entered ev .halt w d (fault ev .halt w d) ∧ HaltStands (fault ev .halt w d) :=
  ⟨fault_entered ev .halt w d (by decide) he hr, fault_halt_stands ev w hr⟩

/-- A Hold fault enters the stack and asks for Hold. -/
theorem fault_hold_entered {ev : Nat} (he : evReserved ev = false) (w : Word) {d : Dev} (hr : Raises d) :
    Entered ev .hold w d (fault ev .hold w d) ∧ HoldAsked (fault ev .hold w d) ∧ Elsewhere d (fault ev .hold w d) :=
  ⟨fault_entered ev .hold w d (by decide) he hr, fault_hold_asked ev w d, fault_hold_elsewhere ev w d⟩

end Monitors

/-- Settles O42: each command is its monitor's fault, and a fault leaves what its class does. -/
theorem faultClasses : Obligations.FaultClasses := by
  unfold Obligations.FaultClasses
  intro s hready hr
  refine ⟨fun t => ⟨fun ht => ⟨_, exec_tempWarning hready ht, fault_noted (by decide) _ hr, fault_note_elsewhere _ _ _⟩, fun ht => ?_⟩,
    fun t => ⟨fun ht => ⟨_, exec_tempCritical hready ht, fault_hold_entered (by decide) _ hr⟩, fun ht => ?_⟩,
    ⟨_, exec_clockLoss hready .dramPll, fault_hold_entered (by decide) _ hr⟩, ?_,
    ⟨_, exec_clockLoss hready .pll, fault_halt_entered (by decide) _ hr⟩,
    ⟨_, exec_clockLoss hready .xtal, fault_halt_entered (by decide) _ hr⟩,
    ⟨_, exec_supplyFault hready, fault_halt_entered (by decide) _ hr⟩, fun ev w => ⟨fun hev => ?_, fun h2 h9 h10 h15 => ?_⟩⟩
  · exact congrArg (fun d => Host.Outcome.next { s with dev := d }) (if_neg (not_lt.mpr ht))
  · exact congrArg (fun d => Host.Outcome.next { s with dev := d }) (if_neg (not_lt.mpr ht))
  · obtain ⟨hpulse, hcount⟩ := faultAt_pulse 11 (c := .degrade) (.inl rfl) 0 false false false s.dev
    exact ⟨_, exec_clockLoss hready .clk32k, fault_entered 11 .degrade 0 s.dev (by decide) (by decide) hr,
      faultAt_stat_class 11 0 false false false s.dev (by decide) rfl, hpulse, hcount, fault_degrade_elsewhere _ _ _⟩
  · have hmem : [2, 9, 10, 15].contains ev.val = true := by
      rcases hev with rfl | rfl | rfl | rfl <;> decide
    have hres : evReserved ev = false := by
      rcases hev with rfl | rfl | rfl | rfl <;> decide
    rw [exec_halt, if_pos hmem, monitorFault_ready hready]
    exact ⟨_, rfl, fault_halt_entered hres w hr⟩
  · have hmem : [2, 9, 10, 15].contains ev.val = false := by
      simp only [List.contains_eq_mem, decide_eq_false_iff_not, List.mem_cons, List.not_mem_nil, or_false]
      have hne {n : Nat} (hn : n < 256) (h : ev ≠ ⟨n, hn⟩) : ev.val ≠ n := fun hv => h (Fin.ext hv)
      exact fun h => by
        rcases h with h | h | h | h
        · exact hne (by decide) h2 h
        · exact hne (by decide) h9 h
        · exact hne (by decide) h10 h
        · exact hne (by decide) h15 h
    rw [exec_halt, hmem]
    rfl

/-! ## The place of a record in the stack (R349) -/

section Stack
variable {n t w : FRec}

theorem stackPush_one_higher (h : t.cls.num < n.cls.num) : stackPush n [t] = ([n, { t with pre := true }], none) := if_pos h

theorem stackPush_one_lower (h : n.cls.num ≤ t.cls.num) : stackPush n [t] = ([t, n], none) := if_neg (Nat.not_lt.mpr h)

theorem stackPush_one_keeps (n t : FRec) : (stackPush n [t]).2 = none := by
  rcases Nat.lt_or_ge t.cls.num n.cls.num with h | h
  · rw [stackPush_one_higher h]
  · rw [stackPush_one_lower h]

/-- Of three records one is always dropped. -/
theorem stackPush_two_drops (n t w : FRec) : (stackPush n [t, w]).2.isSome = true := by
  simp only [stackPush]
  split
  · rfl
  · split
    · split <;> rfl
    · split <;> rfl

variable (ho : w.cls.num ≤ t.cls.num)
include ho

theorem stackPush_new_lowest (h : n.cls.num ≤ w.cls.num) : (stackPush n [t, w]).1 = [t, w] := by
  have hlow : n.cls.num = min n.cls.num (min t.cls.num w.cls.num) := by omega
  simp only [stackPush]
  rw [if_pos hlow]

/-- The waiting record is the one that goes: it is of the lowest class, and of equal ones the newest. -/
theorem stackPush_waiting_lowest (h : w.cls.num < n.cls.num) (hw : w.cls.num < t.cls.num ∨ t.id.toNat < w.id.toNat) :
    (stackPush n [t, w]).1 = if t.cls.num < n.cls.num then [n, { t with pre := true }] else [t, n] := by
  have hlow : min n.cls.num (min t.cls.num w.cls.num) = w.cls.num := by omega
  have hcond : True ∧ (t.cls.num ≠ w.cls.num ∨ t.id.toNat < w.id.toNat) := ⟨trivial, by omega⟩
  simp only [stackPush, hlow]
  rw [if_neg (by omega), if_pos hcond]
  split <;> rfl

omit ho in
/-- The top record goes: it is of the waiting one's class, and newer. -/
theorem stackPush_top_newest (h : w.cls.num < n.cls.num) (ht : w.cls.num = t.cls.num) (hid : w.id.toNat < t.id.toNat) :
    (stackPush n [t, w]).1 = [n, w] := by
  have hlow : min n.cls.num (min t.cls.num w.cls.num) = w.cls.num := by omega
  have hcond : ¬ (True ∧ (t.cls.num ≠ w.cls.num ∨ t.id.toNat < w.id.toNat)) := by omega
  simp only [stackPush, hlow]
  rw [if_neg (by omega), if_neg hcond, if_pos h]

end Stack

/-- A new record is in the stack, or is the one that is dropped; every other record there was in the stack before. -/
theorem mem_stackPush {n r : FRec} {l : List FRec} (h : r ∈ (stackPush n l).2.toList ++ (stackPush n l).1) :
    r = n ∨ ∃ q ∈ l, q.id = r.id := by
  rcases l with _ | ⟨t, _ | ⟨w, l⟩⟩
  · simp only [stackPush, Option.toList_none, List.nil_append, List.mem_singleton] at h
    exact .inl h
  · rcases Nat.lt_or_ge t.cls.num n.cls.num with hc | hc
    · simp only [stackPush_one_higher hc, Option.toList_none, List.nil_append, List.mem_cons, List.not_mem_nil, or_false] at h
      rcases h with rfl | rfl
      · exact .inl rfl
      · exact .inr ⟨t, by simp, rfl⟩
    · simp only [stackPush_one_lower hc, Option.toList_none, List.nil_append, List.mem_cons, List.not_mem_nil, or_false] at h
      rcases h with rfl | rfl
      · exact .inr ⟨r, by simp, rfl⟩
      · exact .inl rfl
  · have hall : r = n ∨ r = t ∨ r = w ∨ r = t.preempted := by
      simp only [stackPush] at h
      repeat' split at h
      all_goals simp only [Option.toList_some, List.cons_append, List.nil_append, List.mem_cons, List.not_mem_nil, or_false] at h
      all_goals tauto
    rcases hall with rfl | rfl | rfl | rfl
    · exact .inl rfl
    · exact .inr ⟨r, by simp, rfl⟩
    · exact .inr ⟨r, by simp, rfl⟩
    · exact .inr ⟨t, by simp, rfl⟩

/-! ## The log records that wait (R359) -/

/-- An arrival changes no waiting record's ID. -/
theorem arrived_id (st : List FRec) (drop : Option FRec) (l : FLog) : (FLog.arrived st drop l).rec_.id = l.rec_.id := by
  simp only [FLog.arrived]
  cases hf : (drop.toList ++ st).find? (fun r => decide (r.id = l.rec_.id)) with
  | none => rfl
  | some r => simpa using List.find?_some hf

/-- The new record itself, where no other has its ID. -/
theorem arrived_new {n : FRec} {l : List FRec} (ab : Bool) (h : ∀ r ∈ l, r.id ≠ n.id) :
    (FLog.arrived (stackPush n l).1 (stackPush n l).2 ⟨n, ab, false⟩).rec_ = n := by
  simp only [FLog.arrived]
  cases hf : ((stackPush n l).2.toList ++ (stackPush n l).1).find? (fun r => decide (r.id = n.id)) with
  | none => rfl
  | some r =>
    have hr : r.id = n.id := by simpa using List.find?_some hf
    rcases mem_stackPush (List.mem_of_find?_eq_some hf) with rfl | ⟨q, hq, hid⟩
    · rfl
    · exact absurd (hid.trans hr) (h q hq)

section Logs
variable (ev : Nat) {c : Cls} (w : Word) (infp ab guard : Bool) (d : Dev)

theorem enterStack_fu (r : FRec) : (enterStack r ab d).fu = stackedUnit r ab d.fu := by
  rw [enterStack_eq]
  dsimp only
  split
  · rw [eventsOnly_fu (raise_frame 217 _)]
    exact eventsOnly_fu (raise_frame 216 _)
  · exact eventsOnly_fu (raise_frame 216 _)

theorem faultStacked_logs : (faultStacked ev c w infp ab guard d).fu.logs =
    (d.fu.logs ++ [(⟨recordOf ev c w infp d, ab, false⟩ : FLog)]).map
      (FLog.arrived (stackPush (recordOf ev c w infp d) d.fu.stack).1 (stackPush (recordOf ev c w infp d) d.fu.stack).2) := by
  have hfu : (faultBegun ev ab guard d).fu = { d.fu with total := d.fu.total + 1 } := by
    cases ab <;> simp [faultBegun, abandonBy_eq]
  rw [faultStacked, enterStack_fu, hfu]
  rfl

theorem applyClass_logs (h : c ≠ .halt) : (applyClass c d).fu.logs = d.fu.logs := by
  cases c with
  | halt => exact absurd rfl h
  | note | degrade | slip | hold => rfl

theorem applyClass_halt_logs : (applyClass .halt d).fu.logs = [] := by
  rw [applyClass, eventsOnly_fu (raise_frame 219 _)]
  rfl

end Logs

/-! ## The events of the stack (R349) -/

theorem enterStack_drop_stuck {r : FRec} {d : Dev} (ab : Bool) (hr : Raises d) (hdrop : (stackPush r d.fu.stack).2.isSome = true) :
    Stuck 217 (enterStack r ab d) := by
  have hstand := (((EventsStand.refl d).upd (f := { d with fu := stackedUnit r ab d.fu }) rfl rfl).raise 216).count1
    (a := FLT_OVF) (by decide) (by decide) |>.setFlag (a := FLT_STAT) (by decide) (by decide) 3 true
  rw [enterStack_eq]
  dsimp only
  rw [if_pos hdrop]
  exact raise_stuck (by decide) (hstand.1 hr)

section Events
variable (ev : Nat) {c : Cls} (w : Word) (infp ab guard : Bool) {d : Dev} (hr : Raises d)
include hr

theorem faultBegun_raises : Raises (faultBegun ev ab guard d) :=
  (((EventsStand.refl d).raise ev).trans (faultBegun_events ev ab guard d)).1 hr

/-- A dropped record raises event 217. -/
theorem faultAt_drop_stuck (hc : c ≠ .note) (hdrop : (stackPush (recordOf ev c w infp d) d.fu.stack).2.isSome = true) :
    Stuck 217 (faultAt ev c w infp ab guard d) := by
  have hfu : (faultBegun ev ab guard d).fu.stack = d.fu.stack := by
    cases ab <;> simp [faultBegun, abandonBy_eq]
  have hstacked : Stuck 217 (faultStacked ev c w infp ab guard d) :=
    enterStack_drop_stuck ab (faultBegun_raises ev ab guard hr) (by rw [hfu]; exact hdrop)
  exact (((EventsStand.refl _).applyClass c).trans (faultAt_events ev c w infp ab guard d hc)).2 217 (by decide) hstacked

/-- A Halt stops the device (R121). -/
theorem faultAt_halt_stands : HaltStands (faultAt ev .halt w infp ab guard d) := by
  have hview := faultAt_faultView ev .halt w infp ab guard d (by decide)
  refine ⟨congrArg FaultView.halted hview, congrArg (·.tick.phase) hview, fun n => ?_, ?_⟩
  · have hlanes := congrArg FaultView.lanes hview
    simp only [faultView, classView] at hlanes
    simp [Dev.lane, hlanes]
  · have hstacked : Raises (faultStacked ev .halt w infp ab guard d) :=
      ((EventsStand.refl _).enterStack _ ab).1 (faultBegun_raises ev ab guard hr)
    have hstopped : Raises (logFlush (trimFail 7 (haltOutputs { faultStacked ev .halt w infp ab guard d with
        halted := true
        tick := { (faultStacked ev .halt w infp ab guard d).tick with phase := .idle, stopWork := true } }))) := by
      refine ((((EventsStand.refl (faultStacked ev .halt w infp ab guard d)).upd ?_ ?_).trimFail 7).logFlush).1 hstacked <;> rfl
    exact (faultAt_events ev .halt w infp ab guard d (by decide)).2 219 (by decide) (raise_stuck (by decide) hstopped)

end Events

/-- Settles O43: the record's place by the classes of the stack, its effects by its own. -/
theorem faultStack : Obligations.FaultStack := by
  unfold Obligations.FaultStack
  intro d ev c w infp ab guard hc hr hres horder
  obtain ⟨hsource, h216⟩ := faultAt_stuck ev c w infp ab guard d hc hres hr
  have hview := faultAt_faultView ev c w infp ab guard d hc
  have hstack : (faultAt ev c w infp ab guard d).fu.stack = (stackPush (recordOf ev c w infp d) d.fu.stack).1 := by
    refine (congrArg FaultView.stack hview).trans ?_
    cases c <;> rfl
  have htotal : (faultAt ev c w infp ab guard d).fu.total = d.fu.total + 1 := by
    refine (congrArg FaultView.total hview).trans ?_
    cases c <;> rfl
  have hlogs := faultAt_fu ev w infp ab guard d hc
  have hovf := faultAt_ovf ev w infp ab guard d hc
  refine ⟨_, _, rfl, rfl, htotal, hsource, h216, fun hh => ?_, fun hh => ?_, fun hk => ?_, fun hk => ?_, fun hk => ?_,
    fun hk => ?_, fun h0 => ?_, fun t h1 => ?_, fun t q h2 => ?_⟩
  · rw [hlogs, applyClass_logs _ hh, faultStacked_logs, List.map_append]
    refine ⟨_, _, rfl, arrived_new ab, arrived_id _ _ _, ?_⟩
    rw [List.map_map]
    exact List.map_congr_left (fun l _ => arrived_id _ _ l)
  · subst hh
    rw [hlogs, applyClass_halt_logs]
  · exact ⟨faultAt_stat_class ev w infp ab guard d hc (hk ▸ rfl), (faultAt_pulse ev (.inl hk) w infp ab guard d).1⟩
  · exact ⟨faultAt_stat_class ev w infp ab guard d hc (hk ▸ rfl), (faultAt_pulse ev (.inr hk) w infp ab guard d).1⟩
  · subst hk
    exact ⟨faultAt_stat_class ev w infp ab guard d hc rfl, congrArg FaultView.holdReq hview⟩
  · subst hk
    exact faultAt_halt_stands ev w infp ab guard hr
  · rw [hstack, hovf, h0]
    exact ⟨rfl, rfl⟩
  · rw [hstack, hovf, h1, stackPush_one_keeps]
    refine ⟨fun hlt => ?_, fun hle => ?_, rfl⟩
    · rw [stackPush_one_higher hlt]
    · rw [stackPush_one_lower hle]
  · have hdrop := stackPush_two_drops (recordOf ev c w infp d) t q
    have ho : q.cls.num ≤ t.cls.num := by
      rw [h2] at horder
      exact of_decide_eq_true horder
    rw [← h2] at hdrop
    rw [hstack, hovf, if_pos hdrop, h2]
    refine ⟨rfl, faultAt_stat_ovf ev w infp ab guard d hc hdrop, faultAt_drop_stuck ev w infp ab guard hr hc hdrop,
      fun hq => stackPush_new_lowest (n := recordOf ev c w infp d) ho hq, fun hq ht => ?_, fun hq ht => ?_, fun hq ht hid => ?_, fun hq ht hid => ?_⟩
    · exact (stackPush_waiting_lowest (n := recordOf ev c w infp d) ho hq (.inl (Nat.lt_of_lt_of_le hq ht))).trans (if_neg (Nat.not_lt.mpr ht))
    · exact (stackPush_waiting_lowest (n := recordOf ev c w infp d) ho (Nat.lt_trans hq ht) (.inl hq)).trans (if_pos ht)
    · exact (stackPush_waiting_lowest (n := recordOf ev c w infp d) ho (Nat.lt_of_le_of_lt (Nat.le_of_eq hq) ht) (.inr hid)).trans (if_pos ht)
    · exact stackPush_top_newest (n := recordOf ev c w infp d) (Nat.lt_of_le_of_lt (Nat.le_of_eq hq) ht) hq hid

end Sys2Proof.Proofs
end

section
/-! PROOFS. The fault unit's commands (R352, R353, R357, R358), the software events (R372), and DRAM errors (R363, R416). -/
namespace Sys2Proof.Proofs
open Sys2Proof Sys2Proof.Machine Sys2Proof.Claims

/-! ## Registers outside the blocks of the events and the host ports -/

/-- A register outside the blocks that raising an event writes: the event fabric's and the host ports'. -/
def BesideEvents (a : Nat) : Prop := a / 0x10000 ≠ 0x10F ∧ a / 0x10000 ≠ 0x102

section Beside
variable {a : Nat} (h : BesideEvents a)
include h

theorem trigOne_reg_beside (e : Nat) {k : Nat} (hk : k < 4) (d : Dev) : (trigOne e k d).reg a = d.reg a := by
  have hne {b : Nat} (hb : b / 0x10000 = 0x10F) : a ≠ b := fun hc => h.1 (hc ▸ hb)
  unfold trigOne
  dsimp only
  split
  · rw [reg_evMon, Dev.reg_setFlag_other _ _ _ _ _ (hne (by decide)),
      Dev.reg_setFlag_other _ _ _ _ _ (hne (by unfold EVT_TRIG_CFG; omega)), Dev.reg_setReg,
      if_neg (hne (by unfold EVT_TRIG_TSHI; omega)), Dev.reg_setReg, if_neg (hne (by unfold EVT_TRIG_TSLO; omega)),
      Dev.reg_setReg, if_neg (hne (by unfold EVT_TRIG_TICK; omega))]
  · rfl

theorem vecSet_reg_beside (p : HostPort) (v : Nat) (d : Dev) : (vecSet p v d).reg a = d.reg a :=
  Dev.reg_setFlag_other _ _ _ _ _ (fun hc => h.2 (hc ▸ pendAddr_block d p))

theorem routeTo_reg_beside (p : HostPort) (v : Nat) (d : Dev) : (routeTo p v d).reg a = d.reg a := by
  have hovf : a ≠ ovfAddr p := fun hc => h.1 (by rw [hc]; cases p <;> decide)
  unfold routeTo
  split
  · rfl
  · split
    · exact Dev.reg_setFlag_other _ _ _ _ _ hovf
    · exact vecSet_reg_beside h p v d

theorem raiseNow_reg_beside (e : Nat) (d : Dev) : (raiseNow e d).reg a = d.reg a := by
  have htrig (x : Dev) : (forAll 4 (trigOne e) x).reg a = x.reg a :=
    List.foldlRecOn (motive := fun y => y.reg a = x.reg a) _ _ rfl
      (fun y hy k hk => (trigOne_reg_beside h e (List.mem_range.mp hk) y).trans hy)
  unfold raiseNow
  split
  · rfl
  · next hres =>
    have hsticky : a ≠ EVT_STICKY (e / 32) := fun hc => h.1 (by
      simp only [evReserved, Bool.or_eq_true, decide_eq_true_eq, not_or] at hres
      rw [hc]
      unfold EVT_STICKY
      omega)
    dsimp only
    rw [htrig, routeTo_reg_beside h, routeTo_reg_beside h]
    split
    · exact Dev.reg_setFlag_other _ _ _ _ _ hsticky
    · exact Dev.reg_setFlag_other _ _ _ _ _ hsticky

theorem raise_reg_beside (e : Nat) (d : Dev) : (raise e d).reg a = d.reg a := by
  unfold raise
  split
  · rfl
  · exact raiseNow_reg_beside h e d

theorem watchFaultN_reg_beside (f : Dev → Dev) (d : Dev) : (watchFaultN f d).reg a = (f d).reg a := by
  rcases watchFaultN_cases f d with hw | hw
  · rw [hw]
  · rw [hw]
    exact (vecSet_reg_beside h _ _ _).trans (vecSet_reg_beside h _ _ _)

/-- A Note leaves the registers outside the fault unit's block. -/
theorem fault_note_reg_beside (hb : a / 0x10000 ≠ 0x10E) (ev : Nat) (w : Word) (d : Dev) :
    (fault ev .note w d).reg a = d.reg a := by
  have hn : a ≠ FLT_NOTES := by rintro rfl; exact hb rfl
  obtain ⟨f, hf⟩ := fault_note_eq ev w d
  rw [hf, watchFaultN_reg_beside h]
  exact (Dev.reg_count1_other _ _ _ hn).trans (raise_reg_beside h ev d)

end Beside

/-! ## POP (R352) -/

section Pop
variable {s : State} {v : Word}

theorem exec_pop_idle (h : bit v 31 = false) : exec (.pop v) s = .next s := by
  have hpop : popCommit v s.dev = s.dev := by rw [popCommit, h]; rfl
  refine congrArg (fun d => Host.Outcome.next { s with dev := d }) ?_
  rw [hpop, ite_self]

theorem exec_pop (hrun : ticking s.dev = true) (h : bit v 31 = true) :
    exec (.pop v) s = .next { s with dev := popFault (bits v 15 0) s.dev } := by
  have hpop : popCommit v s.dev = popFault (bits v 15 0) s.dev := if_pos h
  rw [← hpop]
  exact atEdge_ticking hrun (popCommit v)

variable {id : Nat} {d : Dev} {t w : FRec} {rest : List FRec}

theorem popFault_top (h : d.fu.stack = t :: rest) (ht : t.id.toNat % 65536 = id) :
    popFault id d = { d with fu := { d.fu with stack := rest } } := by
  simp only [popFault, h, ht, decide_true, if_true]

theorem popFault_waiting (h : d.fu.stack = [t, w]) (ht : t.id.toNat % 65536 ≠ id) (hw : w.id.toNat % 65536 = id) :
    popFault id d = { d with fu := { d.fu with stack := [t] } } := by
  simp only [popFault, h, ht, hw, decide_true, decide_false, Bool.false_eq_true, if_false, if_true]

/-- No record of the stack has the ID. -/
theorem popFault_misses (ho : stackInOrder d.fu.stack = true) (hno : ∀ r ∈ d.fu.stack, r.id.toNat % 65536 ≠ id) :
    popFault id d = Dev.setFlag FLT_STAT 8 true d := by
  match hl : d.fu.stack with
  | [] => simp only [popFault, hl]
  | [t] =>
    have ht := hno t (by simp [hl])
    simp only [popFault, hl, ht, decide_false, Bool.false_eq_true, if_false]
  | [t, w] =>
    have ht := hno t (by simp [hl])
    have hw := hno w (by simp [hl])
    simp only [popFault, hl, ht, hw, decide_false, Bool.false_eq_true, if_false]
  | _ :: _ :: _ :: _ =>
    rw [hl] at ho
    exact absurd ho (by simp [stackInOrder])

end Pop

/-! ## A holder's write whose register has a rule of its own (R7, R99) -/

section Ruled
variable {p : HostPort} {s : State}

theorem regRow_ruled (hs : Holds p s) {a : Nat} (ha : RegAddr a) (ho : ownerOf a = none) (h1 : a ≠ HST_REINS) (h2 : a ≠ HST_HB)
    {v : Word} {c : Nat} {e : Dev} (hw : writeReg (.host p) (hrnDemand s.snap) a v s.dev = (c, e)) (hr : e.ready = s.dev.ready) :
    regRow p a v s = { s with dev := e } := by
  have h := registerWrite_ruled hs ha ho h1 h2 hw hr
  rw [exec_registerWrite] at h
  rw [regRow_eq_memRow]
  exact Host.Outcome.next.inj h

end Ruled

/-! ## FLT_STAT (R353, R357) -/

section Stat
variable {p : HostPort} {s : State}

theorem regAddr_fltStat : RegAddr FLT_STAT := by unfold RegAddr FLT_STAT; omega

theorem regRow_fltStat (hs : Holds p s) (v : Word) : regRow p FLT_STAT v s = { s with dev := clearFltStat v s.dev } :=
  regRow_ruled hs regAddr_fltStat rfl (by decide) (by decide) rfl rfl

theorem exec_holdfClear (hs : Holds p s) : exec (.holdfClear p) s = .next { s with dev := clearFltStat 0x10 s.dev } :=
  congrArg Host.Outcome.next (regRow_fltStat hs 0x10)

theorem exec_fpdisClear (hs : Holds p s) : exec (.fpdisClear p) s = .next { s with dev := clearFltStat 0x20 s.dev } :=
  congrArg Host.Outcome.next (regRow_fltStat hs 0x20)

theorem holdStands_iff {d : Dev} : holdStands d = true ↔ ∃ r ∈ d.fu.stack, r.cls = .hold := by
  simp [holdStands]

theorem clearFltStat_sets (v : Word) (d : Dev) : SetsReg d (clearFltStat v d) FLT_STAT
    (d.reg FLT_STAT &&& ~~~ (if holdStands d then setBit (v &&& 0x13E) 4 false else v &&& 0x13E)) :=
  setReg_setsReg d FLT_STAT _

/-- HOLDF is not to be cleared while a Hold record stands. -/
theorem clearHoldf_stands {d : Dev} (h : holdStands d = true) : SetsReg d (clearFltStat 0x10 d) FLT_STAT (d.reg FLT_STAT) := by
  have hsets := clearFltStat_sets 0x10 d
  rw [if_pos h] at hsets
  have hmask : ~~~ setBit ((0x10 : Word) &&& 0x13E) 4 false = BitVec.allOnes 32 := by decide
  rwa [hmask, BitVec.and_allOnes] at hsets

theorem clearHoldf_free {d : Dev} (h : ¬ holdStands d = true) :
    SetsReg d (clearFltStat 0x10 d) FLT_STAT (d.reg FLT_STAT &&& ~~~ 0x10) := by
  have hsets := clearFltStat_sets 0x10 d
  rwa [if_neg h] at hsets

theorem clearFpdis_sets (d : Dev) : SetsReg d (clearFltStat 0x20 d) FLT_STAT (d.reg FLT_STAT &&& ~~~ 0x20) := by
  have hsets := clearFltStat_sets 0x20 d
  have hmask : (if holdStands d then setBit ((0x20 : Word) &&& 0x13E) 4 false else (0x20 : Word) &&& 0x13E) = 0x20 := by
    split <;> decide
  rwa [hmask] at hsets

end Stat

/-! ## The pulse on FAULT_N (R358) -/

theorem exec_faultPulseEnd {s : State} (h : s.dev.fu.pulse = true) : exec .faultPulseEnd s = .next { s with dev := { s.dev with
    now := max s.dev.now s.dev.fu.pulseEnd, fu := { s.dev.fu with pulse := false } } } :=
  congrArg (fun d => (Host.Outcome.next { s with dev := d } : Out)) (if_pos h)

/-! ## Software events (R372) -/

section Soft
variable {d : Dev} {i : Nat}

/-- Of the sticky words an event writes its own. -/
theorem raiseNow_stickyReg {e w : Nat} (he : evReserved e = false) (hw : w < 8) (d : Dev) : (raiseNow e d).reg (EVT_STICKY w) =
    if w = e / 32 then setBit (d.reg (EVT_STICKY w)) (e % 32) true else d.reg (EVT_STICKY w) := by
  have hset : (Dev.setFlag (EVT_STICKY (e / 32)) (e % 32) true d).reg (EVT_STICKY w) =
      if w = e / 32 then setBit (d.reg (EVT_STICKY w)) (e % 32) true else d.reg (EVT_STICKY w) := by
    by_cases h : w = e / 32
    · rw [if_pos h, h, Dev.flag_setFlag]
    · rw [if_neg h, Dev.reg_setFlag_other _ _ _ _ _ (by unfold EVT_STICKY; omega)]
  rw [← hset]
  unfold raiseNow
  rw [if_neg (by simp [he])]
  dsimp only
  rw [forAll, forTrig_sticky hw, routeTo_sticky hw, routeTo_sticky hw]
  split <;> rfl

/-- The first n of the software events of a mask. -/
def softBelow (v n : Nat) (d : Dev) : Dev := forAll n (fun i d => raiseIf (decide (v / 2 ^ i % 2 = 1)) (248 + i) d) d

theorem softBelow_succ (v n : Nat) (d : Dev) :
    softBelow v (n + 1) d = raiseIf (decide (v / 2 ^ n % 2 = 1)) (248 + n) (softBelow v n d) := forAll_succ _ _

theorem softBelow_frame (v n : Nat) (d : Dev) : EventsOnly d (softBelow v n d) := by
  induction n with
  | zero => exact .refl d
  | succ n ih =>
    rw [softBelow_succ]
    exact ih.trans (raiseIf_frame _ _ _)

theorem softBelow_sticky (hs : d.pw.stopped = false) (v : Nat) {n : Nat} (hn : n ≤ 8) :
    (∀ w, w < 7 → (softBelow v n d).reg (EVT_STICKY w) = d.reg (EVT_STICKY w)) ∧
    ∀ i, i < 32 → (softBelow v n d).flag (EVT_STICKY 7) i =
      (d.flag (EVT_STICKY 7) i || (decide (24 ≤ i ∧ i < 24 + n) && decide (v / 2 ^ (i - 24) % 2 = 1))) := by
  induction n with
  | zero =>
    refine ⟨fun _ _ => rfl, fun i _ => ?_⟩
    rw [decide_eq_false (by omega), Bool.false_and, Bool.or_false]
    rfl
  | succ n ih =>
    obtain ⟨hother, hflag⟩ := ih (by omega)
    have hstop : (softBelow v n d).pw.stopped = false := by
      obtain ⟨r, x, m, he⟩ := softBelow_frame v n d
      rw [he]
      exact hs
    rw [softBelow_succ, raiseIf]
    split
    · next hv =>
      have hres : evReserved (248 + n) = false := by simp [evReserved]; omega
      have hreg {w : Nat} (hw : w < 8) := raiseNow_stickyReg hres hw (softBelow v n d)
      rw [raise_awake hstop]
      refine ⟨fun w hw => ?_, fun i hi => ?_⟩
      · rw [hreg (by omega), if_neg (by omega), hother w hw]
      · rw [Dev.flag, hreg (by omega), if_pos (by omega)]
        by_cases hin : i = 24 + n
        · have hmod : (248 + n) % 32 = i := by omega
          have hsub : i - 24 = n := by omega
          rw [hmod, bit_setBit_same hi, hsub, hv, decide_eq_true (by omega), Bool.and_self, Bool.or_true]
        · have hmod : i ≠ (248 + n) % 32 := by omega
          have hrange : (24 ≤ i ∧ i < 24 + (n + 1)) ↔ (24 ≤ i ∧ i < 24 + n) := by omega
          rw [bit_setBit_other hmod, decide_eq_decide.mpr hrange]
          exact hflag i hi
    · next hv =>
      refine ⟨hother, fun i hi => ?_⟩
      rw [hflag i hi]
      by_cases hin : i = 24 + n
      · have hsub : i - 24 = n := by omega
        rw [hsub, Bool.eq_false_of_not_eq_true hv, Bool.and_false, Bool.and_false]
      · have hrange : (24 ≤ i ∧ i < 24 + (n + 1)) ↔ (24 ≤ i ∧ i < 24 + n) := by omega
        rw [decide_eq_decide.mpr hrange]

theorem exec_swset {s : State} (h : ticking s.dev = true) (v : Word) :
    exec (.swset v) s = .next { s with dev := softBelow v.toNat 8 s.dev } := atEdge_ticking h _

theorem stopped_of_ticking (h : ticking d = true) : d.pw.stopped = false := by
  simp only [ticking, Bool.and_eq_true, Bool.not_eq_true'] at h
  exact h.1.2

theorem bit_eq_div (v : Word) {i : Nat} : bit v i = decide (v.toNat / 2 ^ i % 2 = 1) := by
  rw [bit, BitVec.getLsbD, Nat.testBit_eq_decide_div_mod_eq]

end Soft

/-! ## DRAM reads that ECC reports (R416) -/

section Ecc
variable {s : State} {a : Nat}

/-- What a Note leaves, said of the device before registers that are not the event fabric's or the fault unit's were written. -/
theorem noted_of {ev : Nat} {d e f : Dev} (h : Noted ev e f) (hfu : e.fu = d.fu) (hnotes : e.reg FLT_NOTES = d.reg FLT_NOTES)
    (hstat : e.reg FLT_STAT = d.reg FLT_STAT) : Noted ev d f := by
  obtain ⟨hstack, htotal, hn, hst, hs⟩ := h
  exact ⟨hstack.trans (by rw [hfu]), htotal.trans (by rw [hfu]), hn.trans (by rw [hnotes]), hst, hs.trans hstat⟩

/-- A corrected read: CEC and its count. -/
def eccCorrected (d : Dev) : Dev := Dev.count1 DRM_CECNT (Dev.setFlag DRM_STAT 4 true d)

/-- The carts whose source lines hold the address end in error (R86). -/
def eccCarts (a : Nat) (l : List Cart) : List Cart :=
  l.map (fun x => if x.toDram = false ∧ x.arrived = false ∧ x.dAddr ≤ a ∧ a < x.dAddr + 64 * x.lines then { x with bad := true } else x)

/-- An uncorrectable read: UE, its count and its address. -/
def eccUncorrectable (a : Nat) (d : Dev) : Dev :=
  (Dev.count1 DRM_UECNT (Dev.setFlag DRM_STAT 5 true { d with carts := eccCarts a d.carts })).setReg DRM_UEADDR (word (a / 64 % 2 ^ 27))

theorem dramEcc_corrected (a : Nat) (d : Dev) : dramEcc a false d = fault 222 .note (word (a / 64 % 2 ^ 27)) (eccCorrected d) := rfl

theorem dramEcc_uncorrectable (a : Nat) (d : Dev) :
    dramEcc a true d = fault 221 .note (word (a / 64 % 2 ^ 27)) (eccUncorrectable a d) := by
  have hcarts : eccCarts a d.carts = d.carts.map (fun x =>
      if (!x.toDram && !x.arrived && decide (x.dAddr ≤ a) && decide (a < x.dAddr + 64 * x.lines)) = true then { x with bad := true }
      else x) := by
    simp only [eccCarts, Bool.and_eq_true, Bool.not_eq_true', decide_eq_true_eq, and_assoc]
  rw [eccUncorrectable, hcarts]
  rfl

theorem exec_dramEccRead (h : s.dev.dramSz ≠ 0) (a : Nat) (u : Bool) :
    exec (.dramEccRead a u) s = .next { s with dev := dramEcc a u s.dev } :=
  congrArg (fun d => (Host.Outcome.next { s with dev := d } : Out)) (if_neg h)

/-- A Note leaves the registers of DRAM. -/
theorem fault_note_drm {b : Nat} (h : b / 0x10000 = 0x113) (ev : Nat) (w : Word) (d : Dev) :
    (fault ev .note w d).reg b = d.reg b := fault_note_reg_beside ⟨by omega, by omega⟩ (by omega) ev w d

theorem fault_note_carts (ev : Nat) (w : Word) (d : Dev) : (fault ev .note w d).carts = d.carts := by
  obtain ⟨f, r, v, m, he⟩ := fault_note_frame ev w d
  rw [he]

theorem eccCorrected_reg {b : Nat} (h : b / 0x10000 ≠ 0x113) (d : Dev) : (eccCorrected d).reg b = d.reg b := by
  have h1 : b ≠ DRM_CECNT := by rintro rfl; exact h rfl
  have h2 : b ≠ DRM_STAT := by rintro rfl; exact h rfl
  rw [eccCorrected, Dev.reg_count1_other _ _ _ h1, Dev.reg_setFlag_other _ _ _ _ _ h2]

theorem eccUncorrectable_reg {b : Nat} (h : b / 0x10000 ≠ 0x113) (d : Dev) : (eccUncorrectable a d).reg b = d.reg b := by
  have h1 : b ≠ DRM_UECNT := by rintro rfl; exact h rfl
  have h2 : b ≠ DRM_STAT := by rintro rfl; exact h rfl
  have h3 : b ≠ DRM_UEADDR := by rintro rfl; exact h rfl
  rw [eccUncorrectable, Dev.reg_setReg, if_neg h3, Dev.reg_count1_other _ _ _ h1, Dev.reg_setFlag_other _ _ _ _ _ h2]
  rfl

theorem raises_of_regs {d e : Dev} (h : Raises d) (hpw : e.pw = d.pw) (hreg : e.reg SYS_PWRSTAT = d.reg SYS_PWRSTAT) : Raises e := by
  rwa [Raises, Dev.pstate, Dev.fld, hreg, hpw]

theorem dramEcc_corrected_shows {d : Dev} (hr : Raises d) : Noted 222 d (dramEcc a false d) ∧
    (dramEcc a false d).flag DRM_STAT 4 = true ∧ (dramEcc a false d).reg DRM_CECNT = d.reg DRM_CECNT + 1 ∧
    (dramEcc a false d).carts = d.carts ∧ Elsewhere d (dramEcc a false d) := by
  have hr' : Raises (eccCorrected d) := raises_of_regs hr rfl (eccCorrected_reg (by decide) d)
  have hnote := fault_noted (ev := 222) (by decide) (word (a / 64 % 2 ^ 27)) hr'
  rw [dramEcc_corrected]
  refine ⟨noted_of hnote rfl (eccCorrected_reg (by decide) d) (eccCorrected_reg (by decide) d), ?_, ?_, fault_note_carts _ _ _, ?_⟩
  · rw [Dev.flag, fault_note_drm rfl, eccCorrected, Dev.reg_count1_other _ _ _ (by decide), ← Dev.flag, flag_setFlag_same (by decide)]
  · rw [fault_note_drm (by decide), eccCorrected, Dev.reg_count1, Dev.reg_setFlag_other _ _ _ _ _ (by decide)]
  · exact elsewhere_trans (e := eccCorrected d) ⟨rfl, rfl, rfl, rfl, ⟨rfl, rfl⟩, rfl, rfl, rfl, rfl⟩ (fault_note_elsewhere _ _ _)

theorem dramEcc_uncorrectable_shows {d : Dev} (hr : Raises d) : Noted 221 d (dramEcc a true d) ∧
    (dramEcc a true d).flag DRM_STAT 5 = true ∧ (dramEcc a true d).reg DRM_UECNT = d.reg DRM_UECNT + 1 ∧
    ((dramEcc a true d).reg DRM_UEADDR).toNat = a / 64 % 2 ^ 27 ∧ Elsewhere d (dramEcc a true d) ∧
    (dramEcc a true d).carts = eccCarts a d.carts := by
  have hr' : Raises (eccUncorrectable a d) := raises_of_regs hr rfl (eccUncorrectable_reg (by decide) d)
  have hnote := fault_noted (ev := 221) (by decide) (word (a / 64 % 2 ^ 27)) hr'
  rw [dramEcc_uncorrectable]
  refine ⟨noted_of hnote rfl (eccUncorrectable_reg (by decide) d) (eccUncorrectable_reg (by decide) d), ?_, ?_, ?_, ?_,
    fault_note_carts _ _ _⟩
  · rw [Dev.flag, fault_note_drm rfl, eccUncorrectable, Dev.reg_setReg, if_neg (by decide), Dev.reg_count1_other _ _ _ (by decide),
      ← Dev.flag, flag_setFlag_same (by decide)]
  · rw [fault_note_drm (by decide), eccUncorrectable, Dev.reg_setReg, if_neg (by decide), Dev.reg_count1,
      Dev.reg_setFlag_other _ _ _ _ _ (by decide)]
    rfl
  · have hlt : a / 64 % 2 ^ 27 < 2 ^ 32 := Nat.lt_trans (Nat.mod_lt _ (by decide)) (by decide)
    rw [fault_note_drm (by decide), eccUncorrectable, Dev.reg_setReg, if_pos rfl, word, BitVec.toNat_ofNat, Nat.mod_eq_of_lt hlt]
  · exact elsewhere_trans (e := eccUncorrectable a d) ⟨rfl, rfl, rfl, rfl, ⟨rfl, rfl⟩, rfl, rfl, rfl, rfl⟩ (fault_note_elsewhere _ _ _)

end Ecc

/-! ## DRAM_STALL (R363) -/

section Stall

/-- The cores once the carts of a list have ended in error. -/
def cartsFailed (l : List Cart) (d : Dev) : Dev := l.foldl (fun d x => cartFlags (Fin.ofNat 6 x.core) x.idx true d) d

theorem cartsFailed_frame (l : List Cart) (d : Dev) : ∃ c, cartsFailed l d = { d with cores := c } := by
  induction l generalizing d with
  | nil => exact ⟨d.cores, rfl⟩
  | cons x l ih =>
    obtain ⟨c, hc⟩ := ih (cartFlags (Fin.ofNat 6 x.core) x.idx true d)
    exact ⟨c, hc⟩

/-- Core k's descriptor i is done, in error. -/
def CartFailed (k : Fin 6) (i : Nat) (d : Dev) : Prop := (d.core k).done.getLsbD i = true ∧ (d.core k).err.getLsbD i = true

theorem cartFlags_fails (k : Fin 6) {i : Nat} (hi : i < 64) (d : Dev) : CartFailed k i (cartFlags k i true d) := by
  have hbit : (BitVec.ofNat 64 (2 ^ i)).getLsbD i = true := by
    rw [BitVec.getLsbD_ofNat, Nat.testBit_two_pow_self, decide_eq_true hi]
    rfl
  rw [CartFailed, cartFlags_core, flagged]
  simp only [if_true, BitVec.getLsbD_or, hbit, Bool.or_true, and_self]

theorem cartFlags_keeps_failed {k : Fin 6} {i : Nat} {d : Dev} (h : CartFailed k i d) (j : Fin 6) (n : Nat) :
    CartFailed k i (cartFlags j n true d) := by
  obtain ⟨hdone, herr⟩ := h
  by_cases hj : k = j
  · subst hj
    rw [CartFailed, cartFlags_core, flagged]
    simp only [if_true, BitVec.getLsbD_or, hdone, herr, Bool.true_or, and_self]
  · rw [CartFailed, cartFlags_core_other hj]
    exact ⟨hdone, herr⟩

theorem cartsFailed_fails {l : List Cart} {x : Cart} (hx : x ∈ l) {k : Fin 6} (hk : k = Fin.ofNat 6 x.core) (hi : x.idx < 64)
    (d : Dev) : CartFailed k x.idx (cartsFailed l d) := by
  have hkeep (l : List Cart) (d : Dev) (h : CartFailed k x.idx d) : CartFailed k x.idx (cartsFailed l d) :=
    List.foldlRecOn (motive := CartFailed k x.idx) l _ h (fun _ he y _ => cartFlags_keeps_failed he _ _)
  induction l generalizing d with
  | nil => exact absurd hx List.not_mem_nil
  | cons y l ih =>
    rcases List.mem_cons.mp hx with rfl | hx
    · exact hkeep l _ (hk ▸ cartFlags_fails _ hi d)
    · exact ih hx _

/-- What graphs that stop with GERR touch. -/
def VisOnly (d e : Dev) : Prop := (∃ r v m o x, e = { d with regs := r, ev := v, mon := m, outs := o, vis := x }) ∧ EventsStand d e

theorem VisOnly.refl (d : Dev) : VisOnly d d := ⟨⟨_, _, _, _, _, rfl⟩, .refl d⟩

theorem VisOnly.trans {d e f : Dev} (h : VisOnly d e) (k : VisOnly e f) : VisOnly d f := by
  obtain ⟨⟨_, _, _, _, _, rfl⟩, hs⟩ := h
  obtain ⟨⟨_, _, _, _, _, rfl⟩, ks⟩ := k
  exact ⟨⟨_, _, _, _, _, rfl⟩, hs.trans ks⟩

theorem visStop_only (g : Fin 4) (d : Dev) : VisOnly d (visStop g d) := by
  have hn : VIS_G_STAT g.val / 0x10000 ≠ 0x10F := by unfold VIS_G_STAT; omega
  have h0 : VIS_G_STAT g.val / 0x10000 ≠ 0x100 := by unfold VIS_G_STAT; omega
  refine ⟨⟨_, _, _, _, _, rfl⟩, ?_⟩
  unfold visStop visStatus
  exact (EventsStand.upd (EventsStand.refl d) rfl rfl).setFld hn h0 _ _ _

theorem visGerr_only (g : Fin 4) (d : Dev) : VisOnly d (visGerr g d) := by
  have hn : VIS_G_STAT g.val / 0x10000 ≠ 0x10F := by unfold VIS_G_STAT; omega
  have h0 : VIS_G_STAT g.val / 0x10000 ≠ 0x100 := by unfold VIS_G_STAT; omega
  refine ⟨?_, ((EventsStand.refl d).setFlag hn h0 8 true).raise 157⟩
  obtain ⟨r, v, m, he⟩ := ((EventsOnly.refl d).setFlag (VIS_G_STAT g) 8 true).trans (raise_frame 157 _)
  rw [visGerr, he]
  exact ⟨_, _, _, _, _, rfl⟩

/-- The graphs in progress that write to DRAM stop with GERR. -/
def graphsFailed (d : Dev) : Dev := forAll 4 (fun g d =>
  if dramGraph d g && (d.vg (Fin.ofNat 4 g)).active.isSome then visGerr (Fin.ofNat 4 g) (visStop (Fin.ofNat 4 g) d) else d) d

theorem graphsFailed_only (d : Dev) : VisOnly d (graphsFailed d) := by
  refine List.foldlRecOn (motive := VisOnly d) _ _ (VisOnly.refl d) (fun e he g _ => he.trans ?_)
  dsimp only
  split
  · exact (visStop_only _ e).trans (visGerr_only _ _)
  · exact .refl e

theorem dramStall_eq {d : Dev} (h : dramHolds d = true) : dramStall d = fault 220 .hold 0
    (graphsFailed { cartsFailed (d.carts.filter (·.toDram)) d with carts := d.carts.filter (fun x => !x.toDram) }) := by
  obtain ⟨c, hc⟩ := cartsFailed_frame (d.carts.filter (·.toDram)) d
  have hcarts : (cartsFailed (d.carts.filter (·.toDram)) d).carts = d.carts := by rw [hc]
  unfold dramStall
  simp only [h, Bool.not_true, Bool.false_eq_true, if_false]
  rw [← cartsFailed, hcarts, ← graphsFailed]

/-- What a fault leaves in the stack, said of an earlier device that detects it as the later one does. -/
theorem entered_of {ev : Nat} {c : Cls} {w : Word} {d e f : Dev} (h : Entered ev c w e f) (hfu : e.fu = d.fu)
    (hstamp : e.stamp = d.stamp) (hcount : e.tick.count = d.tick.count) : Entered ev c w d f := by
  rw [Entered, recordOf] at h ⊢
  rwa [hfu, hstamp, hcount] at h

theorem exec_dramStall (s : State) : exec .dramStall s = .next { s with dev := dramStall s.dev } := rfl

theorem dramStall_shows {d : Dev} (h : dramHolds d = true) (hr : Raises d) : Entered 220 .hold 0 d (dramStall d) ∧
    HoldAsked (dramStall d) ∧ (dramStall d).carts = d.carts.filter (fun x => !x.toDram) ∧ (dramStall d).sram = d.sram ∧
    (dramStall d).dram = d.dram ∧ (dramStall d).cores = (cartsFailed (d.carts.filter (·.toDram)) d).cores := by
  obtain ⟨c, hc⟩ := cartsFailed_frame (d.carts.filter (·.toDram)) d
  rw [dramStall_eq h]
  obtain ⟨⟨r, v, m, o, x, hg⟩, hstand⟩ :=
    graphsFailed_only { cartsFailed (d.carts.filter (·.toDram)) d with carts := d.carts.filter (fun x => !x.toDram) }
  obtain ⟨f, r', v', m', hf⟩ := fault_hold_frame 220 0
    (graphsFailed { cartsFailed (d.carts.filter (·.toDram)) d with carts := d.carts.filter (fun x => !x.toDram) })
  have hr' := hstand.1 (raises_of_regs hr (by rw [hc]) (by rw [hc]; rfl))
  refine ⟨entered_of (fault_entered 220 .hold 0 _ (by decide) (by decide) hr') ?_ ?_ ?_, fault_hold_asked _ _ _, ?_, ?_, ?_, ?_⟩
  · rw [hg, hc]
  · rw [hg, hc]; rfl
  · rw [hg, hc]
  · rw [hf, hg]
  · rw [hf, hg, hc]
  · rw [hf, hg, hc]
  · rw [hf, hg]

end Stall

/-- Settles O44: each command by its own lemma. -/
theorem faultUnitAndDram : Obligations.FaultUnitAndDram := by
  unfold Obligations.FaultUnitAndDram
  refine ⟨fun s v => ⟨exec_pop_idle, fun hrun hv => ⟨fun t rest hs ht => ?_, fun t w hs ht hw => ?_, fun ho hno => ?_⟩⟩,
    fun p s hs => ⟨fun hno => ⟨_, exec_holdfClear hs, clearHoldf_free fun hst => ?_⟩,
      fun hst => ⟨_, exec_holdfClear hs, clearHoldf_stands (holdStands_iff.mpr hst)⟩, _, exec_fpdisClear hs, clearFpdis_sets _⟩,
    fun s => exec_faultPulseEnd, fun s v hrun => ⟨_, exec_swset hrun v, elsewhere_of_eventsOnly (softBelow_frame _ _ _),
      eventsOnly_fu (softBelow_frame _ _ _), ?_⟩,
    fun s a hsz hr => ⟨⟨_, exec_dramEccRead hsz a false, dramEcc_corrected_shows hr⟩,
      _, exec_dramEccRead hsz a true, dramEcc_uncorrectable_shows hr⟩, fun s hd hr => ?_⟩
  · rw [exec_pop hrun hv, popFault_top hs ht]
  · rw [exec_pop hrun hv, popFault_waiting hs ht hw]
  · rw [exec_pop hrun hv, popFault_misses ho hno]
    obtain ⟨honly, hset⟩ := setFlag_setsReg s.dev FLT_STAT 8 true
    exact ⟨_, rfl, honly, flag_setFlag_same (by decide) _ _ _⟩
  · obtain ⟨r, hmem, hcls⟩ := holdStands_iff.mp hst
    exact hno r hmem hcls
  · obtain ⟨hother, hflag⟩ := softBelow_sticky (stopped_of_ticking hrun) v.toNat (Nat.le_refl 8)
    refine ⟨hother, fun i hi => ?_⟩
    have hrange : (24 ≤ i ∧ i < 24 + 8) ↔ 24 ≤ i := by omega
    rw [hflag i hi, bit_eq_div, decide_eq_decide.mpr hrange]
  · obtain ⟨hentered, hasked, hcarts, hsram, hdram, hcores⟩ := dramStall_shows hd hr
    refine ⟨_, exec_dramStall s, hentered, hasked, hcarts, hsram, hdram, fun x hx hto k hk hi => ?_⟩
    have hmem : x ∈ s.dev.carts.filter (·.toDram) := List.mem_filter.mpr ⟨hx, hto⟩
    obtain ⟨hdone, herr⟩ := cartsFailed_fails hmem (k := k) (Fin.ext hk) hi s.dev
    rw [Dev.core, hcores]
    exact ⟨hdone, herr⟩

end Sys2Proof.Proofs
end

section
/-! PROOFS. The Cellar (17_cellar.md): commit words, application of casks (R338, R339, R344), the log and the spill block (R342, R343). -/
namespace Sys2Proof.Proofs
open Sys2Proof Sys2Proof.Machine Sys2Proof.Claims

/-! ## Bytes and bits -/

theorem setBit_of_bit {w : Word} {i : Nat} {b : Bool} (h : bit w i = b) : setBit w i b = w := by
  refine BitVec.eq_of_getLsbD_eq (fun j hj => ?_)
  by_cases hji : j = i
  · subst hji
    exact (bit_setBit hj w b).trans h.symm
  · exact bit_setBit_other hji w b

/-- A part of the bytes that a memory was just given. -/
theorem bytes_setBytes (m : Memory) (a : Nat) {o n : Nat} {bs : List Byte} (h : o + n ≤ bs.length) :
    (m.setBytes a bs).bytes (a + o) n = (bs.drop o).take n := by
  rw [bytes_eq_map]
  refine List.ext_getElem (by simp; omega) (fun i h1 h2 => ?_)
  have hi : i < n := by simpa using h1
  have hin : a ≤ a + o + i ∧ a + o + i - a < bs.length := by omega
  have hidx : a + o + i - a = o + i := by omega
  rw [List.getElem_map, List.getElem_range, Memory.byte_setBytes, dif_pos hin, List.getElem_take, List.getElem_drop]
  simp only [hidx]

theorem word_of_bytes {m : Memory} {a v : Nat} (h : m.bytes a 4 = leBytes v 4) : m.word a = word v := by
  rw [← word_bytes, h, leNat_leBytes]
  exact BitVec.eq_of_toNat_eq (by simp [word])

/-! ## A Note leaves the events that stand -/

theorem fault_note_events (ev : Nat) (w : Word) (d : Dev) : EventsStand d (fault ev .note w d) := by
  obtain ⟨f, hf⟩ := fault_note_eq ev w d
  have hcount : EventsStand d ({ Dev.count1 FLT_NOTES (raise ev d) with fu := f } : Dev) :=
    (((EventsStand.refl d).raise ev).count1 (a := FLT_NOTES) (by decide) (by decide)).upd rfl rfl
  rw [hf]
  exact hcount.trans (watchFaultN_events (fun _ => { Dev.count1 FLT_NOTES (raise ev d) with fu := f }) d)

/-! ## Application of casks (R338, R339) -/

section Apply
variable {v : VerifyEnv} {d : Dev}

theorem exec_commitWordWrite (s : State) : exec .commitWordWrite s = .next { s with dev := { s.dev with cel := { s.dev.cel with
    journal := s.dev.cel.journal.map (fun j => { j with word := true }) } } } := rfl

theorem exec_caskApply (v : VerifyEnv) (s : State) : exec (.caskApply v) s = .next { s with dev := caskApply v s.dev } := rfl

theorem wordFails_none (h : v.fails = []) (a : Nat) : wordFails v a = 0 := by
  rw [wordFails, h]
  rfl

/-- Entries are written in their order. -/
def entriesPut (es : List (Nat × Word)) (d : Dev) : Dev :=
  { d with cel := { d.cel with durable := es.foldl (fun m e => m.setWord e.1 e.2) d.cel.durable } }

theorem applyEntries_verified (h : v.fails = []) (es : List (Nat × Word)) (d : Dev) : applyEntries v es d = entriesPut es d := by
  have hnone (l : List Nat) (e : Dev) : l.foldl (fun d a => if 2 ≤ wordFails v a then writeError a d else d) e = e := by
    refine List.foldlRecOn (motive := fun x => x = e) l _ rfl (fun x hx a _ => ?_)
    rw [wordFails_none h, if_neg (by decide), hx]
  exact hnone _ _

/-- The casks of the journal that hold a log record. -/
theorem slots_none {l : List JCask} (h : ∀ j ∈ l, j.slot = none) :
    l.filterMap (fun j => j.slot.map (fun s => (s.1, s.2, logRecord s.2 j.core j.count (logCaskData j.cask)))) = [] := by
  refine List.filterMap_eq_nil_iff.mpr (fun j hj => ?_)
  rw [h j hj]
  rfl

/-- With no log record to write, the casks' entries are applied, and their journal entries leave. -/
theorem caskApply_entries (hs : ∀ j ∈ d.cel.journal, j.slot = none) (hr : d.cel.recs = []) : caskApply v d =
    applyEntries v (((d.cel.journal.filter (·.word)).filter (fun j => decide (j.cask.tag ≠ 255))).flatMap (fun j => j.cask.entries))
      { d with cel := { d.cel with
        journal := d.cel.journal.filter (fun j => !j.word)
        dead := if d.cel.journal.filter (·.word) = [] then d.cel.dead else 0 } } := by
  have hslots := slots_none (l := d.cel.journal.filter (·.word)) (fun j hj => hs j (List.mem_filter.mp hj).1)
  unfold caskApply
  simp only [hslots, hr, List.map_nil, List.append_nil, List.foldl_nil, List.isEmpty_iff, Dev.setCel]

/-- With an empty journal a record of the fault unit is written. -/
theorem caskApply_record {r : LogRec} (hj : d.cel.journal = []) (hr : d.cel.recs = [r]) :
    caskApply v d = logWrite v r.slot r.seq r.bytes { d with cel := { d.cel with recs := [] } } := by
  have hcel : { d with cel := { d.cel with journal := [], recs := [], dead := d.cel.dead } } =
      ({ d with cel := { d.cel with recs := [] } } : Dev) := by rw [← hj]
  unfold caskApply
  simp only [hj, hr, List.filter_nil, List.filterMap_nil, List.flatMap_nil, List.map_cons, List.map_nil, List.nil_append,
    List.isEmpty_nil, if_true, List.foldl_cons, List.foldl_nil, Dev.setCel, hcel]
  rfl

end Apply

/-! ## A word whose write fails (R344) -/

section WordError
variable {v : VerifyEnv} {d : Dev} {a : Nat} {w : Word}

/-- One cask with one entry, of a journal that holds nothing else. -/
theorem caskApply_one {j : JCask} (hj : d.cel.journal = [j]) (hw : j.word = true) (hs : j.slot = none) (ht : j.cask.tag ≠ 255)
    (he : j.cask.entries = [(a, w)]) (hr : d.cel.recs = []) : ∃ c : Cellar, c.durable = d.cel.durable.setWord a w ∧
      caskApply v d = if 2 ≤ wordFails v (a / 8 * 8) then writeError (a / 8 * 8) { d with cel := c } else { d with cel := c } := by
  have hslots : ∀ k ∈ d.cel.journal, k.slot = none := by
    rw [hj]
    exact fun k hk => (List.mem_singleton.mp hk) ▸ hs
  refine ⟨{ d.cel with journal := [], dead := 0, durable := d.cel.durable.setWord a w }, rfl, ?_⟩
  rw [caskApply_entries hslots hr]
  simp only [hj, hw, ht, he, List.filter_cons, List.filter_nil, Bool.not_true, decide_not, decide_false, Bool.not_false,
    if_true, if_false, Bool.false_eq_true, List.flatMap_cons, List.flatMap_nil, List.append_nil, reduceCtorEq]
  rfl

theorem wordFails_once (h : v.fails = [a]) : wordFails v (a / 8 * 8) = 1 := by
  have h8 : a / 8 = a / 8 * 8 / 8 := by omega
  rw [wordFails, h, List.filter_cons, if_pos (decide_eq_true h8)]
  rfl

theorem wordFails_twice (h : v.fails = [a, a]) : wordFails v (a / 8 * 8) = 2 := by
  have h8 : a / 8 = a / 8 * 8 / 8 := by omega
  rw [wordFails, h, List.filter_cons, if_pos (decide_eq_true h8), List.filter_cons, if_pos (decide_eq_true h8)]
  rfl

theorem offEvents_cel {b : Nat} (h : b / 0x10000 = 0x10D) : OffEvents b := offEvents_of_block (by omega) (by omega)

/-- Beyond the boot region a write that failed twice is a Hold fault, with WERR and its address. -/
theorem writeError_shows (ha : 0x40000 ≤ a) (hr : Raises d) : Entered 214 .hold (word a) d (writeError a d) ∧
    HoldAsked (writeError a d) ∧ (writeError a d).flag CEL_STAT 5 = true ∧ (writeError a d).reg CEL_WEADDR = word a ∧
    Elsewhere d (writeError a d) := by
  have hraise : Raises (Dev.setFlag CEL_STAT 5 true ((freeWord8 a d).setReg CEL_WEADDR (word a))) :=
    (((EventsStand.upd (f := freeWord8 a d) (.refl d) rfl rfl).setReg (a := CEL_WEADDR) (by decide) (by decide) (word a)).setFlag
      (a := CEL_STAT) (by decide) (by decide) 5 true).1 hr
  have hreg {b : Nat} (hb : b / 0x10000 = 0x10D) (e : Dev) : (fault 214 .hold (word a) e).reg b = e.reg b :=
    faultAt_reg (offEvents_cel hb) (by omega) (by decide) (by decide) 214 (word a) _ _ _ e
  obtain ⟨hentered, hasked, helse⟩ := fault_hold_entered (ev := 214) (by decide) (word a) hraise
  have hwrite : writeError a d = fault 214 .hold (word a)
      (Dev.setFlag CEL_STAT 5 true ((freeWord8 a d).setReg CEL_WEADDR (word a))) := if_neg (Nat.not_lt.mpr ha)
  rw [hwrite]
  refine ⟨entered_of hentered rfl rfl rfl, hasked, ?_, ?_, elsewhere_trans (e := Dev.setFlag CEL_STAT 5 true
    ((freeWord8 a d).setReg CEL_WEADDR (word a))) ⟨rfl, rfl, rfl, rfl, ⟨rfl, rfl⟩, rfl, rfl, rfl, rfl⟩ helse⟩
  · rw [Dev.flag, hreg rfl, ← Dev.flag, flag_setFlag_same (by decide)]
  · rw [hreg rfl, Dev.reg_setFlag_other _ _ _ _ _ (by decide), Dev.reg_setReg, if_pos rfl]

end WordError

/-! ## The log (R342) -/

section Log
variable {v : VerifyEnv} {d : Dev} {slot : Nat} {seq : Word} {bs : List Byte}

theorem logWrite_dropped (h : d.flag CEL_STAT 8 = false) : logWrite v slot seq bs d = Dev.count1 CEL_DROPPED
    { d with cel := { d.cel with array := d.cel.array.setBytes (logOfs slot) (d.cel.durable.bytes (logOfs slot) 64) } } := by
  simp only [logWrite, h, Bool.not_false, if_true, Dev.setCel]

theorem failedWord_none (h : v.fails = []) (slot : Nat) : failedWord v slot = none := by
  refine List.find?_eq_none.mpr (fun w _ => ?_)
  rw [wordFails_none h]
  decide

/-- The word of a record that fails is the one that its address names. -/
theorem failedWord_eq {w : Nat} (hw : w < 8) (h : v.fails = [logOfs slot + 8 * w]) : failedWord v slot = some w := by
  have hfail (x : Nat) : decide (1 ≤ wordFails v (logOfs slot + 8 * x)) = decide (x = w) := by
    by_cases hx : x = w
    · subst hx
      simp [wordFails, h]
    · have h8 : ¬ ((logOfs slot + 8 * w) / 8 = (logOfs slot + 8 * x) / 8) := by omega
      simp [wordFails, h, h8, hx]
  simp only [failedWord, hfail]
  interval_cases w <;> rfl

theorem logWrite_good (h : d.flag CEL_STAT 8 = true) (hf : v.fails = []) : logWrite v slot seq bs d =
    { d with cel := { d.cel with durable := d.cel.durable.setBytes (logOfs slot) bs } } := by
  simp only [logWrite, h, failedWord_none hf, Bool.not_true, Bool.false_eq_true, if_false, Dev.setCel]

theorem logWrite_fails {w : Nat} (h : d.flag CEL_STAT 8 = true) (hw : w < 8) (hf : v.fails = [logOfs slot + 8 * w]) :
    logWrite v slot seq bs d = logFail v slot seq bs w d := by
  simp only [logWrite, h, failedWord_eq hw hf, Bool.not_true, Bool.false_eq_true, if_false]

end Log

/-! ## The spill block (R343) -/

section Spill
variable {v : VerifyEnv} {d e f : Dev} {a : Nat} {rec_ : List Byte}

/-- What a spill record leaves: the stack, events that stand, FAIL of CEL_STAT, and all outside the Cellar. -/
structure SpillOnly (d e : Dev) : Prop where
  stack  : e.fu.stack = d.fu.stack
  total  : e.fu.total = d.fu.total
  events : EventsStand d e
  failed : e.flag CEL_STAT 0 = d.flag CEL_STAT 0
  else_  : Elsewhere d e

/-- The bytes of a spill record. -/
def spillBytes (a : Nat) (rec_ : List Byte) (d : Dev) : List Byte :=
  leBytes 0x4C4C5053 4 ++ leBytes a 4 ++ leBytes d.stamp.toNat 8 ++ leBytes (loWord d.tick.count).toNat 4 ++
    leBytes (d.reg CEL_DROPPED).toNat 4 ++ leBytes 0 8 ++ rec_.take 32

/-- The device with its next spill record. -/
def spilled (a : Nat) (rec_ : List Byte) (d : Dev) : Dev :=
  ({ d with cel := { d.cel with spill := d.cel.spill.setBytes (64 * d.fld CEL_SPILLCNT 6 0) (spillBytes a rec_ d) } } : Dev).setReg
    CEL_SPILLCNT (word (d.fld CEL_SPILLCNT 6 0 + 1))

theorem spillRecord_room (h : ¬ (64 ≤ d.fld CEL_SPILLCNT 6 0 ∨ v.spillFail = true)) :
    spillRecord v a rec_ d = raise 209 (spilled a rec_ d) := if_neg h

theorem spillRecord_full (h : 64 ≤ d.fld CEL_SPILLCNT 6 0 ∨ v.spillFail = true) : spillRecord v a rec_ d = spillFull d := if_pos h

theorem spilled_only (a : Nat) (rec_ : List Byte) (d : Dev) : SpillOnly d (raise 209 (spilled a rec_ d)) := by
  obtain ⟨r, x, m, he⟩ := raise_frame 209 (spilled a rec_ d)
  refine ⟨by rw [he]; rfl, by rw [he]; rfl, ?_, ?_, by rw [he]; exact ⟨rfl, rfl, rfl, rfl, ⟨rfl, rfl⟩, rfl, rfl, rfl, rfl⟩⟩
  · refine EventsStand.raise (EventsStand.setReg (a := CEL_SPILLCNT) ?_ (by decide) (by decide) _) 209
    exact EventsStand.upd (.refl d) rfl rfl
  · rw [Dev.flag, raise_reg (offEvents_cel rfl), spilled, Dev.reg_setReg, if_neg (by decide)]
    rfl

theorem spillFull_only (d : Dev) : SpillOnly d (spillFull d) := by
  obtain ⟨hstack, htotal⟩ := fault_note_unit 210 (d.reg CEL_SPILLCNT) (Dev.setFlag CEL_STAT 1 true d)
  refine ⟨hstack, htotal, ((EventsStand.refl d).setFlag (a := CEL_STAT) (by decide) (by decide) 1 true).trans
    (fault_note_events _ _ _), ?_, elsewhere_trans (e := Dev.setFlag CEL_STAT 1 true d)
    ⟨rfl, rfl, rfl, rfl, ⟨rfl, rfl⟩, rfl, rfl, rfl, rfl⟩ (fault_note_elsewhere _ _ _)⟩
  rw [Dev.flag, spillFull, fault_note_reg (offEvents_cel rfl), if_neg (by decide), ← Dev.flag, flag_setFlag_other (by decide)]

theorem spillRecord_only (v : VerifyEnv) (a : Nat) (rec_ : List Byte) (d : Dev) : SpillOnly d (spillRecord v a rec_ d) := by
  by_cases h : 64 ≤ d.fld CEL_SPILLCNT 6 0 ∨ v.spillFail = true
  · rw [spillRecord_full h]
    exact spillFull_only d
  · rw [spillRecord_room h]
    exact spilled_only a rec_ d

/-- The mark of a spill record. -/
def spillMark : Nat := 0x4C4C5053

theorem spillBytes_mark (a : Nat) (rec_ : List Byte) (d : Dev) : (spillBytes a rec_ d).take 4 = leBytes spillMark 4 := by
  simp [spillBytes, spillMark, List.append_assoc, leBytes_length]

theorem spillBytes_addr (a : Nat) (rec_ : List Byte) (d : Dev) : ((spillBytes a rec_ d).drop 4).take 4 = leBytes a 4 := by
  simp [spillBytes, List.append_assoc, leBytes_length]

theorem spillBytes_length (a : Nat) (rec_ : List Byte) (d : Dev) : 8 ≤ (spillBytes a rec_ d).length := by
  simp [spillBytes, leBytes_length]
  omega

/-- The spill record begins with its mark and the address of the failed word. -/
theorem spilled_words (a : Nat) (rec_ : List Byte) (d : Dev) :
    (spilled a rec_ d).cel.spill.word (64 * d.fld CEL_SPILLCNT 6 0) = word spillMark ∧
      (spilled a rec_ d).cel.spill.word (64 * d.fld CEL_SPILLCNT 6 0 + 4) = word a := by
  have hlen := spillBytes_length a rec_ d
  have hspill : (spilled a rec_ d).cel.spill = d.cel.spill.setBytes (64 * d.fld CEL_SPILLCNT 6 0) (spillBytes a rec_ d) := by
    rw [spilled, Dev.setReg_cel]
  generalize 64 * d.fld CEL_SPILLCNT 6 0 = n at hspill ⊢
  rw [hspill]
  refine ⟨word_of_bytes ?_, word_of_bytes ?_⟩
  · have h := bytes_setBytes d.cel.spill n (o := 0) (n := 4) (bs := spillBytes a rec_ d) (by omega)
    rwa [Nat.add_zero, List.drop_zero, spillBytes_mark] at h
  · rw [bytes_setBytes _ _ (by omega), spillBytes_addr]

end Spill

/-! ## A log write that fails (R342) -/

section LogFail
variable {v : VerifyEnv} {d : Dev} {slot w : Nat} {seq : Word} {bs : List Byte}

/-- The device with the words of a record that were written before the failed one, and FAIL set. -/
def logCut (slot : Nat) (bs : List Byte) (w : Nat) (d : Dev) : Dev :=
  let dur := (if w = 0 then [1, 2, 3, 4, 5, 6, 7] else (List.range w).drop 1).foldl
    (fun m i => m.setBytes (logOfs slot + 8 * i) ((bs.drop (8 * i)).take 8)) d.cel.durable
  let e := freeWord8 (logOfs slot + 8 * w) { d with cel := { d.cel with durable := dur } }
  Dev.setFlag CEL_STAT 0 true { e with cel := { e.cel with array := e.cel.array.setBytes (logOfs slot) (e.cel.durable.bytes (logOfs slot) 64) } }

/-- The device whose next record takes the slot and number after a failed one; LOGON is 0. -/
def logAfter (slot : Nat) (seq : Word) (d : Dev) : Dev :=
  ((Dev.setFlag CEL_STAT 8 false d).setReg CEL_LOGHEAD (word ((slot + 1) % 1536))).setReg CEL_LOGSEQ (seq + 1)

theorem logFail_eq : logFail v slot seq bs w d = logAfter slot seq (spillRecord v (logOfs slot + 8 * w) bs
    (fault 208 .degrade (word (logOfs slot + 8 * w)) (logCut slot bs w d))) := by
  unfold logFail logAfter logCut Dev.setCel
  rfl

/-- A record that is cut writes CEL_STAT.FAIL, and neither the fault unit nor anything outside the Cellar. -/
theorem logCut_shows (slot : Nat) (bs : List Byte) (w : Nat) (d : Dev) : (logCut slot bs w d).fu = d.fu ∧
    (logCut slot bs w d).stamp = d.stamp ∧ (logCut slot bs w d).cel.spill = d.cel.spill ∧ Elsewhere d (logCut slot bs w d) ∧
    EventsStand d (logCut slot bs w d) ∧ (logCut slot bs w d).flag CEL_STAT 0 = true ∧
    ∀ a, a ≠ CEL_STAT → (logCut slot bs w d).reg a = d.reg a := by
  refine ⟨rfl, rfl, rfl, ⟨rfl, rfl, rfl, rfl, ⟨rfl, rfl⟩, rfl, rfl, rfl, rfl⟩, ?_, flag_setFlag_same (by decide) _ _ _,
    fun a ha => Dev.reg_setFlag_other _ _ _ _ _ ha⟩
  refine EventsStand.setFlag (a := CEL_STAT) ?_ (by decide) (by decide) 0 true
  exact EventsStand.upd (.refl d) rfl rfl

/-- Where the next record goes is no matter of the stack, the events or the spill block. -/
theorem logAfter_shows (slot : Nat) (seq : Word) (d : Dev) : (logAfter slot seq d).fu = d.fu ∧
    (logAfter slot seq d).cel = d.cel ∧ Elsewhere d (logAfter slot seq d) ∧ EventsStand d (logAfter slot seq d) ∧
    (logAfter slot seq d).flag CEL_STAT 8 = false ∧ (logAfter slot seq d).reg CEL_LOGHEAD = word ((slot + 1) % 1536) ∧
    (logAfter slot seq d).reg CEL_LOGSEQ = seq + 1 ∧ (logAfter slot seq d).reg CEL_SPILLCNT = d.reg CEL_SPILLCNT ∧
    ∀ i, i ≠ 8 → (logAfter slot seq d).flag CEL_STAT i = d.flag CEL_STAT i := by
  have hstat : (logAfter slot seq d).reg CEL_STAT = setBit (d.reg CEL_STAT) 8 false := by
    rw [logAfter, Dev.reg_setReg, if_neg (by decide), Dev.reg_setReg, if_neg (by decide), Dev.flag_setFlag]
  have hmap : ∃ m, logAfter slot seq d = { d with regs := m } := by
    unfold logAfter Dev.setReg Dev.setFlag
    exact ⟨_, rfl⟩
  refine ⟨?_, ?_, ?_, ?_, ?_, ?_, ?_, ?_, fun i hi => ?_⟩
  · obtain ⟨m, hm⟩ := hmap
    rw [hm]
  · obtain ⟨m, hm⟩ := hmap
    rw [hm]
  · obtain ⟨m, hm⟩ := hmap
    rw [hm]
    exact ⟨rfl, rfl, rfl, rfl, ⟨rfl, rfl⟩, rfl, rfl, rfl, rfl⟩
  · have hflag := (EventsStand.refl d).setFlag (a := CEL_STAT) (by decide) (by decide) 8 false
    have hhead := hflag.setReg (a := CEL_LOGHEAD) (by decide) (by decide) (word ((slot + 1) % 1536))
    exact hhead.setReg (a := CEL_LOGSEQ) (by decide) (by decide) (seq + 1)
  · rw [Dev.flag, hstat, bit_setBit (by decide)]
  · rw [logAfter, Dev.reg_setReg, if_neg (by decide), Dev.reg_setReg, if_pos rfl]
  · rw [logAfter, Dev.reg_setReg, if_pos rfl]
  · rw [logAfter, Dev.reg_setReg, if_neg (by decide), Dev.reg_setReg, if_neg (by decide),
      Dev.reg_setFlag_other _ _ _ _ _ (by decide)]
  · rw [Dev.flag, hstat, bit_setBit_other hi, ← Dev.flag]

theorem fault_degrade_cel (ev : Nat) (x : Word) (d : Dev) : (fault ev .degrade x d).cel = d.cel := by
  obtain ⟨f, r, y, m, he⟩ := fault_degrade_frame ev x d
  rw [he]

theorem fault_degrade_events (ev : Nat) (x : Word) (d : Dev) : EventsStand d (fault ev .degrade x d) :=
  EventsStand.faultAt ev .degrade x false false (decide (ev = 3)) d (by decide) (.refl d)

variable (v) (seq) (bs)

/-- A log write that fails is a Degrade fault with FAIL, LOGON cleared, and the next record's slot and number. -/
theorem logFail_shows (hr : Raises d) : Entered 208 .degrade (word (logOfs slot + 8 * w)) d (logFail v slot seq bs w d) ∧
    (logFail v slot seq bs w d).flag CEL_STAT 0 = true ∧ (logFail v slot seq bs w d).flag CEL_STAT 8 = false ∧
    (logFail v slot seq bs w d).reg CEL_LOGHEAD = word ((slot + 1) % 1536) ∧ (logFail v slot seq bs w d).reg CEL_LOGSEQ = seq + 1 ∧
    Elsewhere d (logFail v slot seq bs w d) := by
  obtain ⟨hfu, hstamp, -, hcutElse, hcutEvents, hfail, -⟩ := logCut_shows slot bs w d
  have hentered := fault_entered 208 .degrade (word (logOfs slot + 8 * w)) (logCut slot bs w d) (by decide) (by decide) (hcutEvents.1 hr)
  have hfault : (fault 208 .degrade (word (logOfs slot + 8 * w)) (logCut slot bs w d)).flag CEL_STAT 0 = true := by
    rw [Dev.flag, fault_degrade_reg (offEvents_cel rfl) (by decide), ← Dev.flag, hfail]
  have hspill := spillRecord_only v (logOfs slot + 8 * w) bs (fault 208 .degrade (word (logOfs slot + 8 * w)) (logCut slot bs w d))
  obtain ⟨hafterFu, -, hafterElse, hafterEvents, hon, hhead, hseq, -, hstat⟩ := logAfter_shows slot seq
    (spillRecord v (logOfs slot + 8 * w) bs (fault 208 .degrade (word (logOfs slot + 8 * w)) (logCut slot bs w d)))
  obtain ⟨hstack, htotal, h208, h216⟩ := entered_of hentered hfu hstamp rfl
  rw [logFail_eq]
  refine ⟨⟨?_, ?_, ?_, ?_⟩, ?_, hon, hhead, hseq,
    elsewhere_trans (elsewhere_trans hcutElse (fault_degrade_elsewhere _ _ _)) (elsewhere_trans hspill.else_ hafterElse)⟩
  · rw [hafterFu, hspill.stack, hstack]
  · rw [hafterFu, hspill.total, htotal]
  · exact (hspill.events.trans hafterEvents).2 208 (by decide) h208
  · exact (hspill.events.trans hafterEvents).2 216 (by decide) h216
  · rw [hstat 0 (by decide), hspill.failed, hfault]

/-- Up to its spill record a failed log write leaves the count of spill records, the spill block and the events. -/
theorem logFail_spillCount : (fault 208 .degrade (word (logOfs slot + 8 * w)) (logCut slot bs w d)).fld CEL_SPILLCNT 6 0 =
      d.fld CEL_SPILLCNT 6 0 ∧ (fault 208 .degrade (word (logOfs slot + 8 * w)) (logCut slot bs w d)).cel.spill = d.cel.spill ∧
    EventsStand d (fault 208 .degrade (word (logOfs slot + 8 * w)) (logCut slot bs w d)) := by
  obtain ⟨-, -, hspill, -, hevents, -, hreg⟩ := logCut_shows slot bs w d
  refine ⟨?_, by rw [fault_degrade_cel, hspill], hevents.trans (fault_degrade_events _ _ _)⟩
  rw [Dev.fld, fault_degrade_reg (offEvents_cel rfl) (by decide), hreg _ (by decide), ← Dev.fld]

/-- With room in the spill block the failed write leaves a spill record. -/
theorem logFail_spills (hr : Raises d) (hfail : v.spillFail = false) (hroom : d.fld CEL_SPILLCNT 6 0 < 64) :
    (logFail v slot seq bs w d).reg CEL_SPILLCNT = word (d.fld CEL_SPILLCNT 6 0 + 1) ∧ Stuck 209 (logFail v slot seq bs w d) ∧
    (logFail v slot seq bs w d).cel.spill.word (64 * d.fld CEL_SPILLCNT 6 0) = word spillMark ∧
    (logFail v slot seq bs w d).cel.spill.word (64 * d.fld CEL_SPILLCNT 6 0 + 4) = word (logOfs slot + 8 * w) := by
  obtain ⟨hcount, -, hevents⟩ := logFail_spillCount (d := d) (slot := slot) (w := w) bs
  rw [logFail_eq]
  generalize fault 208 .degrade (word (logOfs slot + 8 * w)) (logCut slot bs w d) = e at hcount hevents ⊢
  have hrec : spillRecord v (logOfs slot + 8 * w) bs e = raise 209 (spilled (logOfs slot + 8 * w) bs e) :=
    spillRecord_room (by rw [hcount, hfail]; simp [hroom])
  have hspilled : Raises (spilled (logOfs slot + 8 * w) bs e) := by
    refine raises_of_regs (hevents.1 hr) rfl ?_
    rw [spilled, Dev.reg_setReg, if_neg (by decide)]
    rfl
  have hcel : (raise 209 (spilled (logOfs slot + 8 * w) bs e)).cel = (spilled (logOfs slot + 8 * w) bs e).cel := by
    obtain ⟨r, x, m, he⟩ := raise_frame 209 (spilled (logOfs slot + 8 * w) bs e)
    rw [he]
  obtain ⟨-, hafterCel, -, hafterEvents, -, -, -, hafterCount, -⟩ := logAfter_shows slot seq (raise 209 (spilled (logOfs slot + 8 * w) bs e))
  obtain ⟨hmark, haddr⟩ := spilled_words (logOfs slot + 8 * w) bs e
  rw [hrec, hafterCount, hafterCel, hcel, ← hcount]
  refine ⟨?_, hafterEvents.2 209 (by decide) (raise_stuck (by decide) hspilled), hmark, haddr⟩
  rw [raise_reg (offEvents_cel rfl), spilled, Dev.reg_setReg, if_pos rfl]

/-- Without room, or where the spill write fails, SPFAIL is set. -/
theorem logFail_full (hr : Raises d) (hfull : 64 ≤ d.fld CEL_SPILLCNT 6 0 ∨ v.spillFail = true) :
    (logFail v slot seq bs w d).flag CEL_STAT 1 = true ∧ Stuck 210 (logFail v slot seq bs w d) ∧
    (logFail v slot seq bs w d).cel.spill = d.cel.spill := by
  obtain ⟨hcount, hspill, hevents⟩ := logFail_spillCount (d := d) (slot := slot) (w := w) bs
  rw [logFail_eq]
  generalize fault 208 .degrade (word (logOfs slot + 8 * w)) (logCut slot bs w d) = e at hcount hspill hevents ⊢
  have hrec : spillRecord v (logOfs slot + 8 * w) bs e = spillFull e := spillRecord_full (by rwa [hcount])
  have hset : Raises (Dev.setFlag CEL_STAT 1 true e) :=
    (hevents.setFlag (a := CEL_STAT) (by decide) (by decide) 1 true).1 hr
  obtain ⟨-, hafterCel, -, hafterEvents, -, -, -, -, hafterStat⟩ := logAfter_shows slot seq (spillFull e)
  rw [hrec, hafterCel, hafterStat 1 (by decide), ← hspill]
  refine ⟨?_, hafterEvents.2 210 (by decide) (fault_note_stuck _ (by decide) hset), ?_⟩
  · rw [Dev.flag, spillFull, fault_note_reg (offEvents_cel rfl), if_neg (by decide), ← Dev.flag, flag_setFlag_same (by decide)]
  · rw [spillFull, fault_note_cel, Dev.setFlag_cel]

end LogFail

/-! ## FAIL and the spill block (R342, R343) -/

section Commands
variable {p : HostPort} {s : State}

theorem regAddr_celStat : RegAddr CEL_STAT := by unfold RegAddr CEL_STAT; omega

theorem regAddr_celCmd : RegAddr CEL_CMD := by unfold RegAddr CEL_CMD; omega

/-- A 1 written to CEL_STAT clears FAIL. -/
theorem plainWrite_celStat (d : Dev) : plainWrite CEL_STAT 1 d = Dev.setFlag CEL_STAT 0 false d := by
  have hrow : row? CEL_STAT = some ⟨0x010D0000, 1, 1, 1, 1, 0x100, 0, 0x7F, 0, 0⟩ := by decide
  rw [plainWrite_row hrow, Dev.setFlag]
  refine congrArg (d.setReg CEL_STAT) ?_
  rw [overlay_no_rw, setBit, if_neg (by decide)]
  rfl

theorem logResume_ready (d : Dev) : (logResume d).ready = d.ready := by
  unfold logResume
  split <;> rfl

theorem exec_logResume (hs : Holds p s) :
    exec (.logResume p) s = .next { s with dev := Dev.setFlag CEL_STAT 0 false (logResume s.dev) } := by
  rw [← plainWrite_celStat]
  refine congrArg Host.Outcome.next (regRow_ruled (c := 0) hs regAddr_celStat (by decide) (by decide) (by decide) rfl ?_)
  rw [plainWrite_celStat]
  exact logResume_ready s.dev

theorem logResume_failed {d : Dev} (h : d.flag CEL_STAT 0 = true) : OnlyRegs d (Dev.setFlag CEL_STAT 0 false (logResume d)) [CEL_STAT] ∧
    (Dev.setFlag CEL_STAT 0 false (logResume d)).flag CEL_STAT 0 = false ∧
    (Dev.setFlag CEL_STAT 0 false (logResume d)).flag CEL_STAT 8 = true := by
  rw [logResume, if_pos h]
  refine ⟨⟨rfl, fun a ha => ?_⟩, flag_setFlag_same (by decide) _ _ _, ?_⟩
  · have hne : a ≠ CEL_STAT := fun hc => ha (List.mem_singleton.mpr hc)
    rw [Dev.reg_setFlag_other _ _ _ _ _ hne, Dev.reg_setFlag_other _ _ _ _ _ hne, Dev.reg_setFlag_other _ _ _ _ _ hne]
  · rw [flag_setFlag_other (by decide), flag_setFlag_same (by decide)]

theorem logResume_free {d : Dev} (h : d.flag CEL_STAT 0 = false) :
    SetsReg d (Dev.setFlag CEL_STAT 0 false (logResume d)) CEL_STAT (d.reg CEL_STAT) := by
  have hsets := setFlag_setsReg d CEL_STAT 0 false
  have hres : logResume d = d := if_neg (by rw [h]; decide)
  rw [hres]
  rwa [setBit_of_bit h] at hsets

theorem exec_spillclr_noKey (hs : Holds p s) {v : Word} (hk : bits v 31 24 ≠ 0x5C) : exec (.spillclr p v) s = .next s := by
  refine congrArg Host.Outcome.next (regRow_ruled (c := 0) (e := s.dev) hs regAddr_celCmd (by decide) (by decide) (by decide) ?_ rfl)
  exact if_pos hk

theorem exec_spillclr (hs : Holds p s) {v : Word} (hk : bits v 31 24 = 0x5C) (hv : bit v 0 = true) (hm : s.dev.mode = .commission) :
    exec (.spillclr p v) s = .next { s with dev := spillClear s.dev } := by
  refine congrArg Host.Outcome.next (regRow_ruled (c := 0) hs regAddr_celCmd (by decide) (by decide) (by decide) ?_ rfl)
  have hcmd : writeCelCmd (.host p) v s.dev = (0, spillClear s.dev) := by
    simp [writeCelCmd, hk, hv, hm]
  exact hcmd

theorem spillClear_shows (d : Dev) : (spillClear d).cel = { d.cel with spill := [] } ∧
    SetsReg { d with cel := (spillClear d).cel } (spillClear d) CEL_SPILLCNT 0 :=
  ⟨rfl, setReg_setsReg { d with cel := { d.cel with spill := [] } } CEL_SPILLCNT 0⟩

end Commands

/-- Settles O45: the journal's entries, the words that fail, the log's records, and the commands, each by its own lemma. -/
theorem cellarApplication : Obligations.CellarApplication := by
  unfold Obligations.CellarApplication
  refine ⟨fun s => ⟨exec_commitWordWrite s, fun v hv hs hr => ?_, fun j a w v hj hw hs ht he hr ha _ => ⟨fun hf => ?_, fun hf hr' => ?_⟩,
      fun r v hj hr _ => ⟨fun hon hf => ?_, fun hoff => ?_, fun w hw hon hf hr' => ?_⟩⟩,
    fun p s hs => ⟨fun hfail => ⟨_, exec_logResume hs, logResume_failed hfail⟩, fun hfree => ⟨_, exec_logResume hs, logResume_free hfree⟩,
      fun v hk => exec_spillclr_noKey hs hk, fun v hk hv hm => ⟨_, exec_spillclr hs hk hv hm, spillClear_shows _⟩⟩⟩
  · rw [exec_caskApply, caskApply_entries hs hr, applyEntries_verified hv]
    rfl
  · obtain ⟨c, hc, happly⟩ := caskApply_one (v := v) hj hw hs ht he hr
    rw [wordFails_once hf, if_neg (by decide)] at happly
    rw [exec_caskApply, happly]
    exact ⟨_, rfl, hc, rfl, rfl⟩
  · obtain ⟨c, hc, happly⟩ := caskApply_one (v := v) hj hw hs ht he hr
    rw [wordFails_twice hf, if_pos (by decide)] at happly
    obtain ⟨hentered, hasked, hflag, haddr, helse⟩ :=
      writeError_shows (d := { s.dev with cel := c }) (a := a / 8 * 8) (by omega) hr'
    rw [exec_caskApply, happly]
    exact ⟨_, rfl, entered_of hentered rfl rfl rfl, hasked, hflag, haddr,
      elsewhere_trans (e := { s.dev with cel := c }) ⟨rfl, rfl, rfl, rfl, ⟨rfl, rfl⟩, rfl, rfl, rfl, rfl⟩ helse⟩
  · rw [exec_caskApply, caskApply_record hj hr, logWrite_good (d := { s.dev with cel := { s.dev.cel with recs := [] } }) hon hf]
  · rw [exec_caskApply, caskApply_record hj hr, logWrite_dropped (d := { s.dev with cel := { s.dev.cel with recs := [] } }) hoff]
    refine ⟨_, rfl, Dev.reg_count1 _ _, rfl, rfl, rfl, fun a ha => ?_⟩
    exact Dev.reg_count1_other _ _ _ (fun hc => ha (List.mem_singleton.mpr hc))
  · rw [exec_caskApply, caskApply_record hj hr, logWrite_fails (d := { s.dev with cel := { s.dev.cel with recs := [] } }) hon hw hf]
    obtain ⟨hentered, hfail, hlog, hhead, hseq, helse⟩ :=
      logFail_shows (d := { s.dev with cel := { s.dev.cel with recs := [] } }) (slot := r.slot) (w := w) v r.seq r.bytes hr'
    refine ⟨_, rfl, entered_of hentered rfl rfl rfl, hfail, hlog, hhead, hseq,
      elsewhere_trans (e := { s.dev with cel := { s.dev.cel with recs := [] } }) ⟨rfl, rfl, rfl, rfl, ⟨rfl, rfl⟩, rfl, rfl, rfl, rfl⟩ helse, fun hsp hroom => ?_, fun hfull => ?_⟩
    · exact logFail_spills (d := { s.dev with cel := { s.dev.cel with recs := [] } }) v r.seq r.bytes hr' hsp hroom
    · exact logFail_full (d := { s.dev with cel := { s.dev.cel with recs := [] } }) v r.seq r.bytes hr' hfull

end Sys2Proof.Proofs
end

section
/-! PROOFS. Trim steps (20_trim.md): commands, points, ends and results (R374 to R378), restores (R379). -/
namespace Sys2Proof.Proofs
open Sys2Proof Sys2Proof.Machine Sys2Proof.Claims

/-! ## Fields of a register -/

section Fields
variable {d : Dev} {a : Nat}

theorem fld_setFld {hi lo v : Nat} (h : hi < 32) (hv : v < 2 ^ (hi + 1 - lo)) : (Dev.setFld a hi lo v d).fld a hi lo = v := by
  rw [Dev.fld, Dev.reg_setFld, bits_setBits_same h, Nat.mod_eq_of_lt hv]

theorem fld_setFld_beside {hi lo hi' lo' : Nat} (h : hi < lo' ∨ hi' < lo) (v : Nat) :
    (Dev.setFld a hi' lo' v d).fld a hi lo = d.fld a hi lo := by
  rw [Dev.fld, Dev.reg_setFld, bits_setBits_other h, ← Dev.fld]

theorem fld_setFlag_beside {hi lo i : Nat} (h : i < lo ∨ hi < i) (b : Bool) :
    (Dev.setFlag a i b d).fld a hi lo = d.fld a hi lo := by
  rw [Dev.fld, Dev.flag_setFlag, bits_setBit_other h, ← Dev.fld]

theorem bits_lt_pow (w : Word) (hi lo : Nat) : bits w hi lo < 2 ^ (hi + 1 - lo) := Nat.mod_lt _ (Nat.two_pow_pos _)

end Fields

theorem elsewhere_raise {d e : Dev} (h : Elsewhere d e) (ev : Nat) : Elsewhere d (raise ev e) :=
  elsewhere_trans h (elsewhere_of_eventsOnly (raise_frame ev e))

theorem besideEvents_trm {a : Nat} (h : a / 0x10000 = 0x110) : BesideEvents a := by
  unfold BesideEvents
  omega

/-! ## The drive of a two-point step -/

section Drive
variable {d : Dev}

/-- An output that moves changes how it moves alone. -/
theorem aoMove_cases (t : Nat) (slews : Bool) (j : Fin 4) (x : Island) : aoMove t slews j x = x ∨
    ∃ (on_ : Bool) (a b c : Nat) (q : Rat), aoMove t slews j x =
      { x with ao := x.ao.set j { x.ao[j] with drive := on_, start := a, since := b, target := c, dac := q } } := by
  unfold aoMove
  dsimp only
  generalize hdac : (if (!(x.aoWants j).1) = true then (0 : Rat) else _) = q
  by_cases h : (x.ao[j]).target = (x.aoWants j).2 ∧ (x.ao[j]).drive = (x.aoWants j).1 ∧ (x.ao[j]).dac = q
  · exact .inl (if_pos h)
  · exact .inr ⟨_, _, _, _, _, if_neg h⟩

theorem aoMove_point (t : Nat) (slews : Bool) (j k : Fin 4) (x : Island) :
    ((aoMove t slews j x).ao[k]).point = (x.ao[k]).point := by
  rcases aoMove_cases t slews j x with h | ⟨on_, a, b, c, q, h⟩
  · rw [h]
  · rw [h]
    by_cases hk : j = k
    · subst hk
      simp
    · simp [Vector.getElem_set_ne _ _ (fun hc => hk (Fin.ext hc))]

/-- A drive changes the island's outputs and the Tendril, and nothing else. -/
theorem trimDrive_frame (d : Dev) : ∃ (f : Field) (t : Tendril), trimDrive d = { d with field := f, tdl := t } := by
  unfold trimDrive
  split
  · exact ⟨_, d.tdl, rfl⟩
  · exact ⟨d.field, _, rfl⟩
  · exact ⟨d.field, d.tdl, rfl⟩

theorem trimDrive_reg (a : Nat) (d : Dev) : (trimDrive d).reg a = d.reg a := by
  obtain ⟨f, t, h⟩ := trimDrive_frame d
  rw [h]
  rfl

theorem trimDrive_fld (a hi lo : Nat) (d : Dev) : (trimDrive d).fld a hi lo = d.fld a hi lo := by
  rw [Dev.fld, trimDrive_reg, ← Dev.fld]

theorem trimDrive_trim (d : Dev) : (trimDrive d).trim = d.trim := by
  obtain ⟨f, t, h⟩ := trimDrive_frame d
  rw [h]

theorem trimDrive_raises (h : Raises d) : Raises (trimDrive d) := by
  obtain ⟨f, t, he⟩ := trimDrive_frame d
  rw [he]
  exact raises_of_regs h rfl rfl

theorem trimDrive_elsewhere (d : Dev) : Elsewhere d (trimDrive d) := by
  obtain ⟨f, t, h⟩ := trimDrive_frame d
  rw [h]
  exact ⟨rfl, rfl, rfl, rfl, ⟨rfl, rfl⟩, rfl, rfl, rfl, rfl⟩

/-- Step 4 drives the loop at its point's code. -/
theorem trimDrive_loop (h : trimStep d = 4) :
    (trimDrive d).tdl.trim = if trimPoint d = 0 then none else some (if trimPoint d = 1 then 8000 else 40000) := by
  simp only [trimDrive, h]
  rfl

/-- Step 3 drives its output at its point's current. -/
theorem trimDrive_output (h : trimStep d = 3) (hp : trimPoint d = 2) {j : Fin 4} (hj : j.val = trimIndex d) :
    ((trimDrive d).field.isl.ao[j]).point = some (131070000 * 20) := by
  have hjn : Fin.ofNat 4 (trimIndex d) = j := Fin.ext (by rw [← hj]; exact Nat.mod_eq_of_lt j.isLt)
  simp only [trimDrive, h, hjn, Dev.setIsl, aoMove_point, hp]
  simp

end Drive

/-! ## The points of a step -/

section Points
variable {d : Dev} {p n : Nat}

/-- A step stands at a point, having reached n of them. -/
def atPoint (p n : Nat) (d : Dev) : Dev :=
  trimDrive (Dev.setFld TRM_STAT 13 12 p { d with trim := { d.trim with points := n } })

theorem marked_fld {hi lo : Nat} (h : hi < 12 ∨ 13 < lo) :
    (Dev.setFld TRM_STAT 13 12 p { d with trim := { d.trim with points := n } }).fld TRM_STAT hi lo = d.fld TRM_STAT hi lo :=
  (fld_setFld_beside h p).trans rfl

theorem atPoint_shows (hp : p < 4) : (atPoint p n d).fld TRM_STAT 13 12 = p ∧ (atPoint p n d).trim.points = n ∧
    Elsewhere d (atPoint p n d) ∧
    (d.fld TRM_STAT 7 4 = 4 → (atPoint p n d).tdl.trim = if p = 0 then none else some (if p = 1 then 8000 else 40000)) := by
  have hpoint : (Dev.setFld TRM_STAT 13 12 p { d with trim := { d.trim with points := n } }).fld TRM_STAT 13 12 = p :=
    fld_setFld (by decide) hp
  refine ⟨by rw [atPoint, trimDrive_fld, hpoint], by rw [atPoint, trimDrive_trim]; rfl,
    elsewhere_trans (e := Dev.setFld TRM_STAT 13 12 p { d with trim := { d.trim with points := n } })
      ⟨rfl, rfl, rfl, rfl, ⟨rfl, rfl⟩, rfl, rfl, rfl, rfl⟩ (trimDrive_elsewhere _), fun h => ?_⟩
  have hloop := trimDrive_loop (d := Dev.setFld TRM_STAT 13 12 p { d with trim := { d.trim with points := n } })
    ((marked_fld (by decide)).trans h)
  rwa [trimPoint, hpoint] at hloop

theorem atPoint_output (h : d.fld TRM_STAT 7 4 = 3) {j : Fin 4} (hj : j.val = d.fld TRM_STAT 10 8) :
    ((atPoint 2 n d).field.isl.ao[j]).point = some (131070000 * 20) :=
  trimDrive_output ((marked_fld (by decide)).trans h) (fld_setFld (by decide) (by decide)) (hj.trans (marked_fld (by decide)).symm)

theorem running_of_fld (h : d.fld TRM_STAT 1 0 = 1) : trimRunning d = true := decide_eq_true h

theorem notRunning_of_fld (h : d.fld TRM_STAT 1 0 ≠ 1) : trimRunning d = false := decide_eq_false h

theorem trimNext_idle (h : d.fld TRM_STAT 1 0 ≠ 1) : trimNext d = Dev.setFlag TRM_STAT 24 true d := by
  simp [trimNext, notRunning_of_fld h]

theorem trimNext_low (h : d.fld TRM_STAT 1 0 = 1) (hp : d.fld TRM_STAT 13 12 = 1) : trimNext d = atPoint 2 2 d := by
  simp only [trimNext, running_of_fld h, trimPoint, hp]
  rfl

theorem trimNext_high (h : d.fld TRM_STAT 1 0 = 1) (hp : d.fld TRM_STAT 13 12 = 2) : trimNext d = atPoint 0 3 d := by
  simp only [trimNext, running_of_fld h, trimPoint, hp]
  rfl

theorem trimReached_eq (h : d.fld TRM_STAT 1 0 = 1) (he : d.trim.ended = none) (hn : d.trim.points = 0)
    (hp : d.fld TRM_STAT 13 12 = 0) (hs : d.fld TRM_STAT 7 4 = 3 ∨ d.fld TRM_STAT 7 4 = 4) : trimReached d = atPoint 1 1 d := by
  have hstep : (decide (trimStep d = 3) || decide (trimStep d = 4)) = true := by
    rw [Bool.or_eq_true, decide_eq_true_eq, decide_eq_true_eq]
    exact hs
  refine if_pos ?_
  rw [running_of_fld h, he, hn, trimPoint, hp, hstep]
  rfl

end Points

/-! ## GO (R374, R375) -/

section Go
variable {d : Dev} {v : Word}

theorem exec_trimGo {s : State} (h : ticking s.dev = true) (v : Word) :
    exec (.trimGo v) s = .next { s with dev := trimCmd (v ||| 0x10000) s.dev } := atEdge_ticking h _

theorem go_bit (v : Word) : bit (v ||| 0x10000) 16 = true := by
  rw [bit, BitVec.getLsbD_or]
  simp

theorem go_bit_other (v : Word) {i : Nat} (h : i = 17 ∨ i = 18) : bit (v ||| 0x10000) i = bit v i := by
  rw [bit, BitVec.getLsbD_or]
  rcases h with rfl | rfl <;> simp [bit]

theorem go_bits (v : Word) {hi lo : Nat} (h : hi < 16) : bits (v ||| 0x10000) hi lo = bits v hi lo := by
  refine Nat.eq_of_testBit_eq (fun i => ?_)
  rw [testBit_bits, testBit_bits]
  by_cases hi' : i < hi + 1 - lo
  · have hmask : (0x10000 : Word).getLsbD (lo + i) = false := by
      have : lo + i < 16 := by omega
      interval_cases lo + i <;> rfl
    rw [BitVec.getLsbD_or, hmask, Bool.or_false]
  · rw [decide_eq_false hi', Bool.false_and, Bool.false_and]

theorem trimCmd_go (h17 : bit v 17 = false) (h18 : bit v 18 = false) (d : Dev) :
    trimCmd (v ||| 0x10000) d = trimGo (bits v 3 0) (bits v 10 8) d := by
  simp only [trimCmd, go_bit, go_bit_other v (.inl rfl), go_bit_other v (.inr rfl), h17, h18,
    go_bits v (show 3 < 16 by decide), go_bits v (show 10 < 16 by decide)]
  rfl

/-- GO with NEXT or ABORT is ignored, and without a running step both others have nothing to do. -/
theorem trimCmd_ignored (h : bit v 17 = true ∨ bit v 18 = true) (hr : d.fld TRM_STAT 1 0 ≠ 1) :
    trimCmd (v ||| 0x10000) d = (if bit v 17 then Dev.setFlag TRM_STAT 24 true (Dev.setFlag TRM_STAT 24 true d)
      else Dev.setFlag TRM_STAT 24 true d) := by
  have hidle : (Dev.setFlag TRM_STAT 24 true d).fld TRM_STAT 1 0 ≠ 1 := by rwa [fld_setFlag_beside (.inr (by decide))]
  have hidle2 : (Dev.setFlag TRM_STAT 24 true (Dev.setFlag TRM_STAT 24 true d)).fld TRM_STAT 1 0 ≠ 1 := by
    rwa [fld_setFlag_beside (.inr (by decide))]
  have hmany : b2n true + b2n (bit v 17) + b2n (bit v 18) ≠ 1 := by
    rcases h with h | h
    · rw [h]; cases bit v 18 <;> decide
    · rw [h]; cases bit v 17 <;> decide
  simp only [trimCmd, go_bit, go_bit_other v (.inl rfl), go_bit_other v (.inr rfl), if_true, if_neg hmany, trimNext_idle hidle]
  cases bit v 17
  · simp [notRunning_of_fld hidle, trimFail, hidle]
  · simp [notRunning_of_fld hidle2, trimFail, hidle2]

theorem trimGo_ignored (h : d.mode ≠ .trim ∨ d.fld TRM_STAT 1 0 = 1) (step i : Nat) :
    trimGo step i d = Dev.setFlag TRM_STAT 24 true d :=
  if_pos (h.imp_right running_of_fld)

/-- TRM_STAT with a step and its index. -/
def goWord (d : Dev) (step i : Nat) : Word := setBits (setBits (d.reg TRM_STAT &&& 0x3000000) 7 4 step) 10 8 i

/-- The code that a GO is refused with. -/
def goCode (step i : Nat) (d : Dev) : Nat := if stepIndices step ≤ i then 1 else if stepNeeds d step i then 0 else 2

theorem trimGo_eq (hm : d.mode = .trim) (hr : d.fld TRM_STAT 1 0 ≠ 1) (step i : Nat) : trimGo step i d =
    if goCode step i d = 0 then ({ d with trim := { d.trim with points := 0, ended := none } } : Dev).setReg TRM_STAT
      (setBits (goWord d step i) 1 0 1)
    else raise 233 (({ d with trim := { d.trim with points := 0, ended := none } } : Dev).setReg TRM_STAT
      (setBits (setBits (goWord d step i) 1 0 3) 19 16 (goCode step i d))) := by
  rw [trimGo, if_neg (by simp [hm, notRunning_of_fld hr])]
  rfl

theorem trimGo_starts (hm : d.mode = .trim) (hr : d.fld TRM_STAT 1 0 ≠ 1) {step i : Nat} (hs : step < 16) (hi : i < 8)
    (hlt : i < stepIndices step) (hneeds : stepNeeds d step i = true) : (trimGo step i d).fld TRM_STAT 1 0 = 1 ∧
    (trimGo step i d).fld TRM_STAT 7 4 = step ∧ (trimGo step i d).fld TRM_STAT 10 8 = i ∧ (trimGo step i d).fld TRM_STAT 13 12 = 0 ∧
    OnlyRegs { d with trim := (trimGo step i d).trim } (trimGo step i d) [TRM_STAT] := by
  have hcode : goCode step i d = 0 := by rw [goCode, if_neg (by omega), if_pos hneeds]
  have h13 : bits (d.reg TRM_STAT &&& 0x3000000) 13 12 = 0 := by
    refine Nat.eq_of_testBit_eq (fun k => ?_)
    rw [testBit_bits, Nat.zero_testBit]
    by_cases hk : k < 13 + 1 - 12
    · have hmask : (0x3000000 : Word).getLsbD (12 + k) = false := by interval_cases k <;> rfl
      rw [BitVec.getLsbD_and, hmask, Bool.and_false, Bool.and_false]
    · rw [decide_eq_false hk, Bool.false_and]
  rw [trimGo_eq hm hr, if_pos hcode]
  refine ⟨?_, ?_, ?_, ?_, rfl, fun a ha => ?_⟩
  · rw [Dev.fld, Dev.reg_setReg, if_pos rfl, bits_setBits_same (by decide)]
    rfl
  · rw [Dev.fld, Dev.reg_setReg, if_pos rfl, bits_setBits_other (by decide), goWord, bits_setBits_other (by decide),
      bits_setBits_same (by decide)]
    exact Nat.mod_eq_of_lt hs
  · rw [Dev.fld, Dev.reg_setReg, if_pos rfl, bits_setBits_other (by decide), goWord, bits_setBits_same (by decide)]
    exact Nat.mod_eq_of_lt hi
  · rw [Dev.fld, Dev.reg_setReg, if_pos rfl, bits_setBits_other (by decide), goWord, bits_setBits_other (by decide),
      bits_setBits_other (by decide), h13]
  · exact (Dev.reg_setReg _ _ _ _).trans (if_neg (fun hc => ha (List.mem_singleton.mpr hc)))

theorem trimGo_refused (hm : d.mode = .trim) (hr : d.fld TRM_STAT 1 0 ≠ 1) (hx : Raises d) {step i c : Nat}
    (hc : goCode step i d = c) (h0 : 0 < c) (h16 : c < 16) : (trimGo step i d).fld TRM_STAT 1 0 = 3 ∧
    (trimGo step i d).fld TRM_STAT 19 16 = c ∧ Stuck 233 (trimGo step i d) ∧ Elsewhere d (trimGo step i d) := by
  rw [trimGo_eq hm hr, hc, if_neg (by omega)]
  refine ⟨?_, ?_, raise_stuck (by decide) (raises_of_regs hx rfl ?_), elsewhere_raise ?_ 233⟩
  · rw [Dev.fld, raise_reg_beside (besideEvents_trm rfl), Dev.reg_setReg, if_pos rfl, bits_setBits_other (by decide),
      bits_setBits_same (by decide)]
    rfl
  · rw [Dev.fld, raise_reg_beside (besideEvents_trm rfl), Dev.reg_setReg, if_pos rfl, bits_setBits_same (by decide)]
    exact Nat.mod_eq_of_lt h16
  · exact (Dev.reg_setReg _ _ _ _).trans (if_neg (by decide))
  · exact ⟨rfl, rfl, rfl, rfl, ⟨rfl, rfl⟩, rfl, rfl, rfl, rfl⟩

end Go

/-! ## The end of a step (R375, R376, R378) -/

section End
variable {d : Dev}

/-- A running step's failure as it stands before its event. -/
def failed (code : Nat) (d : Dev) : Dev :=
  let e := Dev.setFld TRM_STAT 19 16 code (Dev.setFld TRM_STAT 13 12 0 (Dev.setFld TRM_STAT 1 0 3 d))
  Dev.count1 TRM_COUNT { e with
    trim := { e.trim with points := 0, ended := none }
    tdl := { e.tdl with trim := none }
    field := { e.field with isl := { e.field.isl with ao := e.field.isl.ao.map (fun a => { a with point := none }) } } }

theorem trimFail_idle (h : d.fld TRM_STAT 1 0 ≠ 1) (code : Nat) : trimFail code d = d := if_neg h

theorem trimFail_running (h : d.fld TRM_STAT 1 0 = 1) (code : Nat) : trimFail code d = raise 233 (failed code d) := if_pos h

/-- A failure clears the points, the end that waits and the drives. -/
theorem failed_frame (code : Nat) (d : Dev) : ∃ (m : SMap Word) (f : Field), failed code d = { d with
    regs := m, field := f, trim := { d.trim with points := 0, ended := none }, tdl := { d.tdl with trim := none } } := by
  unfold failed Dev.count1 Dev.setFld Dev.setReg
  exact ⟨_, _, rfl⟩

theorem failed_stat (code : Nat) (d : Dev) :
    (failed code d).reg TRM_STAT = setBits (setBits (setBits (d.reg TRM_STAT) 1 0 3) 13 12 0) 19 16 code := by
  have hcount : (failed code d).reg TRM_STAT =
      (Dev.setFld TRM_STAT 19 16 code (Dev.setFld TRM_STAT 13 12 0 (Dev.setFld TRM_STAT 1 0 3 d))).reg TRM_STAT :=
    Dev.reg_count1_other _ _ _ (by decide)
  rw [hcount, Dev.reg_setFld, Dev.reg_setFld, Dev.reg_setFld]

theorem failed_reg {a : Nat} (h : a ≠ TRM_STAT) (hc : a ≠ TRM_COUNT) (code : Nat) (d : Dev) : (failed code d).reg a = d.reg a := by
  have hcount : (failed code d).reg a =
      (Dev.setFld TRM_STAT 19 16 code (Dev.setFld TRM_STAT 13 12 0 (Dev.setFld TRM_STAT 1 0 3 d))).reg a :=
    Dev.reg_count1_other _ _ _ hc
  rw [hcount, Dev.reg_setFld_other _ _ _ _ _ _ h, Dev.reg_setFld_other _ _ _ _ _ _ h, Dev.reg_setFld_other _ _ _ _ _ _ h]

theorem trimFail_shows (h : d.fld TRM_STAT 1 0 = 1) (hr : Raises d) {code : Nat} (hc : code < 16) :
    (trimFail code d).fld TRM_STAT 1 0 = 3 ∧ (trimFail code d).fld TRM_STAT 19 16 = code ∧
    (trimFail code d).fld TRM_STAT 13 12 = 0 ∧ Stuck 233 (trimFail code d) ∧ (trimFail code d).trim.ended = none ∧
    (trimFail code d).tdl.trim = none ∧ Elsewhere d (trimFail code d) := by
  have hstat : (raise 233 (failed code d)).reg TRM_STAT = (failed code d).reg TRM_STAT := raise_reg_beside (besideEvents_trm rfl) 233 _
  obtain ⟨m, f, hfailed⟩ := failed_frame code d
  have hpw : (failed code d).pw = d.pw := by rw [hfailed]
  obtain ⟨r, v, x, hraise⟩ := raise_frame 233 (failed code d)
  rw [trimFail_running h]
  refine ⟨?_, ?_, ?_, raise_stuck (by decide) (raises_of_regs hr hpw (failed_reg (by decide) (by decide) code d)),
    by rw [hraise, hfailed], by rw [hraise, hfailed], elsewhere_raise ?_ 233⟩
  · rw [Dev.fld, hstat, failed_stat, bits_setBits_other (by decide), bits_setBits_other (by decide), bits_setBits_same (by decide)]
    rfl
  · rw [Dev.fld, hstat, failed_stat, bits_setBits_same (by decide)]
    exact Nat.mod_eq_of_lt hc
  · rw [Dev.fld, hstat, failed_stat, bits_setBits_other (by decide), bits_setBits_same (by decide)]
    rfl
  · rw [hfailed]
    exact ⟨rfl, rfl, rfl, rfl, ⟨rfl, rfl⟩, rfl, rfl, rfl, rfl⟩

theorem trimCmd_abort (d : Dev) :
    trimCmd 0x40000 d = trimFail 7 (if trimRunning d then trimDrive (Dev.setFld TRM_STAT 13 12 0 d) else d) := rfl

theorem trimCmd_next (d : Dev) : trimCmd 0x20000 d = trimNext d := rfl

theorem exec_trimNext {s : State} (h : ticking s.dev = true) : exec .trimNext s = .next { s with dev := trimNext s.dev } :=
  atEdge_ticking h _

theorem exec_trimAbort {s : State} (h : ticking s.dev = true) (hr : s.dev.fld TRM_STAT 1 0 = 1) :
    exec .trimAbort s = .next { s with dev := trimFail 7 (trimDrive (Dev.setFld TRM_STAT 13 12 0 s.dev)) } := by
  have hcmd := atEdge_ticking h (trimCmd 0x40000)
  rwa [trimCmd_abort, if_pos (running_of_fld hr)] at hcmd

theorem exec_trimAbort_idle {s : State} (hr : s.dev.fld TRM_STAT 1 0 ≠ 1) : exec .trimAbort s = .next s := by
  have hcmd : trimCmd 0x40000 s.dev = s.dev := by
    rw [trimCmd_abort, notRunning_of_fld hr]
    exact trimFail_idle hr 7
  refine congrArg (fun d => (Host.Outcome.next { s with dev := d } : Out)) ?_
  rw [hcmd, ite_self]

theorem abort_shows (h : d.fld TRM_STAT 1 0 = 1) (hr : Raises d) :
    let e := trimFail 7 (trimDrive (Dev.setFld TRM_STAT 13 12 0 d))
    e.fld TRM_STAT 1 0 = 3 ∧ e.fld TRM_STAT 19 16 = 7 ∧ e.fld TRM_STAT 13 12 = 0 ∧ Stuck 233 e ∧ e.trim.ended = none ∧
      e.tdl.trim = none ∧ Elsewhere d e := by
  have hrun : (trimDrive (Dev.setFld TRM_STAT 13 12 0 d)).fld TRM_STAT 1 0 = 1 := by
    rw [trimDrive_fld, fld_setFld_beside (by decide), h]
  have hraises : Raises (trimDrive (Dev.setFld TRM_STAT 13 12 0 d)) :=
    trimDrive_raises (raises_of_regs hr rfl (Dev.reg_setFld_other _ _ _ _ _ _ (by decide)))
  obtain ⟨hstate, hcode, hpoint, hstuck, hended, hloop, helse⟩ := trimFail_shows hrun hraises (code := 7) (by decide)
  refine ⟨hstate, hcode, hpoint, hstuck, hended, hloop, elsewhere_trans (elsewhere_trans (e := Dev.setFld TRM_STAT 13 12 0 d)
    ⟨rfl, rfl, rfl, rfl, ⟨rfl, rfl⟩, rfl, rfl, rfl, rfl⟩ (trimDrive_elsewhere _)) helse⟩

theorem trimEnd_shows (code : Nat) (r : List Word) (d : Dev) : (trimEnd code r d).trim.ended = some (code, r) ∧
    (trimEnd code r d).fld TRM_STAT 13 12 = 0 ∧ Elsewhere d (trimEnd code r d) := by
  refine ⟨rfl, ?_, elsewhere_trans (elsewhere_trans (e := Dev.setFld TRM_STAT 13 12 0 d)
    ⟨rfl, rfl, rfl, rfl, ⟨rfl, rfl⟩, rfl, rfl, rfl, rfl⟩ (trimDrive_elsewhere _)) ⟨rfl, rfl, rfl, rfl, ⟨rfl, rfl⟩, rfl, rfl, rfl, rfl⟩⟩
  have hfld : (trimEnd code r d).fld TRM_STAT 13 12 = (trimDrive (Dev.setFld TRM_STAT 13 12 0 d)).fld TRM_STAT 13 12 := rfl
  rw [hfld, trimDrive_fld, fld_setFld (by decide) (by decide)]

theorem trimTimeout_eq (h : d.fld TRM_STAT 1 0 = 1) (hp : d.fld TRM_STAT 13 12 ≠ 0) : trimTimeout d = trimEnd 5 [] d := by
  refine if_pos ?_
  rw [running_of_fld h, Bool.true_and]
  exact decide_eq_true hp

theorem trimStepEnd_eq (h : d.fld TRM_STAT 1 0 = 1) (he : d.trim.ended = none) {code : Nat} {r : List Word}
    (hc : trimCodeOk d code r = true) : trimStepEnd code r d = trimEnd code (if code = 0 then r else []) d := by
  refine if_pos ?_
  rw [running_of_fld h, he, hc]
  rfl

theorem trimCodeOk_result {r : List Word} (hr : trimResultOk (d.fld TRM_STAT 7 4) r = true)
    (hp : (d.fld TRM_STAT 7 4 = 3 ∨ d.fld TRM_STAT 7 4 = 4) → d.trim.points = 3) : trimCodeOk d 0 r = true := by
  by_cases hs : d.fld TRM_STAT 7 4 = 3 ∨ d.fld TRM_STAT 7 4 = 4
  · simp [trimCodeOk, trimStep, hr, hp hs]
  · have hs3 := not_or.mp hs
    simp [trimCodeOk, trimStep, hr, hs3]

/-- The codes with which a step may fail (R376, R378). -/
theorem trimCodeOk_fails {c : BitVec 4} {r : List Word} (h : c = 4 ∨ (c = 5 ∧ d.fld TRM_STAT 7 4 = 2) ∨
    (c = 6 ∧ d.fld TRM_STAT 7 4 = 5 ∧ ((d.fld TRM_STAT 10 8 = 0 ∧ d.fldLink = false) ∨ (d.fld TRM_STAT 10 8 ≠ 0 ∧ d.tdlLink = false)))) :
    trimCodeOk d c.toNat r = true ∧ c.toNat ≠ 0 := by
  rcases h with rfl | ⟨rfl, hs⟩ | ⟨rfl, hs, ⟨hi, hl⟩ | ⟨hi, hl⟩⟩
  · exact ⟨rfl, by decide⟩
  · exact ⟨decide_eq_true hs, by decide⟩
  · exact ⟨by simp [trimCodeOk, trimStep, trimIndex, hs, hi, hl], by decide⟩
  · exact ⟨by simp [trimCodeOk, trimStep, trimIndex, hs, hi, hl], by decide⟩

end End

/-! ## A result at its committing edge (R378) -/

section Apply
variable {d : Dev} {r : List Word}

/-- The device whose step's end no longer waits. -/
def endTaken (d : Dev) : Dev := { d with trim := { d.trim with ended := none, points := 0 } }

/-- A step's results, its source bit, its state and its count. -/
def resultApplied (step i : Nat) (r : List Word) (d : Dev) : Dev :=
  Dev.count1 TRM_COUNT (Dev.setFld TRM_STAT 1 0 2 (Dev.setFlag TRM_SRC step true (trimResult step i r d)))

theorem trimApply_result (h : d.trim.ended = some (0, r)) :
    trimApply d = raise 232 (resultApplied (d.fld TRM_STAT 7 4) (d.fld TRM_STAT 10 8) r (endTaken d)) := by
  simp only [trimApply, h]
  rfl

theorem trimApply_fails {c : Nat} (h : d.trim.ended = some (c, r)) (hc : c ≠ 0) : trimApply d = trimFail c (endTaken d) := by
  simp only [trimApply, h, if_neg hc]
  rfl

/-- Beside TRM_COUNT, TRM_STAT and TRM_SRC the results alone are written. -/
theorem resultApplied_reg {a : Nat} (h : a ∉ [TRM_COUNT, TRM_STAT, TRM_SRC]) (step i : Nat) (r : List Word) (d : Dev) :
    (resultApplied step i r d).reg a = (trimResult step i r d).reg a := by
  simp only [List.mem_cons, List.not_mem_nil, or_false, not_or] at h
  obtain ⟨hcount, hstat, hsrc⟩ := h
  rw [resultApplied, Dev.reg_count1_other _ _ _ hcount, Dev.reg_setFld_other _ _ _ _ _ _ hstat,
    Dev.reg_setFlag_other _ _ _ _ _ hsrc]

theorem resultApplied_state (step i : Nat) (r : List Word) (d : Dev) : (resultApplied step i r d).fld TRM_STAT 1 0 = 2 := by
  rw [Dev.fld, resultApplied, Dev.reg_count1_other _ _ _ (by decide), ← Dev.fld]
  exact fld_setFld (by decide) (by decide)

theorem resultApplied_source {step : Nat} (hs : step < 32) (i : Nat) (r : List Word) (d : Dev) :
    (resultApplied step i r d).flag TRM_SRC step = true := by
  rw [Dev.flag, resultApplied, Dev.reg_count1_other _ _ _ (by decide), Dev.reg_setFld_other _ _ _ _ _ _ (by decide), ← Dev.flag]
  exact flag_setFlag_same hs _ _ _

/-- Results are registers, the segments of an output or the Tendril's restart. -/
theorem trimResult_frame (step i : Nat) (r : List Word) (d : Dev) : ∃ (m : SMap Word) (x : Trim) (t : Tendril),
    trimResult step i r d = { d with regs := m, trim := x, tdl := t } := by
  unfold trimResult
  split
  · exact ⟨_, d.trim, d.tdl, rfl⟩
  · exact ⟨_, d.trim, d.tdl, rfl⟩
  · exact ⟨_, d.trim, d.tdl, rfl⟩
  · exact ⟨_, _, d.tdl, rfl⟩
  · exact ⟨_, d.trim, d.tdl, rfl⟩
  · split
    · exact ⟨_, d.trim, d.tdl, rfl⟩
    · exact ⟨_, d.trim, _, rfl⟩
  · exact ⟨_, d.trim, d.tdl, rfl⟩

theorem resultApplied_pw (step i : Nat) (r : List Word) (d : Dev) : (resultApplied step i r d).pw = d.pw := by
  obtain ⟨m, x, t, h⟩ := trimResult_frame step i r d
  rw [resultApplied, h]
  rfl

theorem trimResult_power (step i : Nat) (r : List Word) (d : Dev) (hi : i < 8) :
    (trimResult step i r d).reg SYS_PWRSTAT = d.reg SYS_PWRSTAT := by
  have hne {a : Nat} (h : 0x1060000 ≤ a) : SYS_PWRSTAT ≠ a := fun hc => absurd h (by rw [← hc]; decide)
  unfold trimResult
  split
  · exact (Dev.reg_setReg _ _ _ _).trans (if_neg (by decide))
  · exact (Dev.reg_setReg _ _ _ _).trans (if_neg (hne (by unfold TRM_SDSEL; omega)))
  · dsimp only
    rw [Dev.reg_setReg, if_neg (hne (by unfold FB_SCCOR; omega)), Dev.reg_setReg, if_neg (hne (by unfold FB_SCOFS; omega)),
      Dev.reg_setReg, if_neg (hne (by unfold TRM_SCSEL; omega))]
  · exact Dev.reg_setFlag_other _ _ _ _ _ (by decide)
  · exact (Dev.reg_setReg _ _ _ _).trans (if_neg (by decide))
  · split
    · exact (Dev.reg_setReg _ _ _ _).trans (if_neg (by decide))
    · exact (Dev.reg_setReg _ _ _ _).trans (if_neg (by decide))
  · exact (Dev.reg_setReg _ _ _ _).trans (if_neg (by decide))

/-- An end with code 0 applies the step's results. -/
theorem trimApply_result_shows (h : d.trim.ended = some (0, r)) (hx : Raises d) :
    (trimApply d).fld TRM_STAT 1 0 = 2 ∧ Stuck 232 (trimApply d) ∧
    (trimApply d).flag TRM_SRC (d.fld TRM_STAT 7 4) = true ∧
    ∀ a, BesideEvents a → a ∉ [TRM_COUNT, TRM_STAT, TRM_SRC] →
      (trimApply d).reg a = (trimResult (d.fld TRM_STAT 7 4) (d.fld TRM_STAT 10 8) r (endTaken d)).reg a := by
  have hraises : Raises (resultApplied (d.fld TRM_STAT 7 4) (d.fld TRM_STAT 10 8) r (endTaken d)) :=
    raises_of_regs hx (resultApplied_pw _ _ _ _) ((resultApplied_reg (by decide) _ _ _ _).trans
      (trimResult_power _ _ _ _ (bits_lt_pow (d.reg TRM_STAT) 10 8)))
  rw [trimApply_result h]
  refine ⟨?_, raise_stuck (by decide) hraises, ?_, fun a hb ha => ?_⟩
  · rw [Dev.fld, raise_reg_beside (besideEvents_trm rfl), ← Dev.fld, resultApplied_state]
  · have hlt : d.fld TRM_STAT 7 4 < 16 := bits_lt_pow (d.reg TRM_STAT) 7 4
    rw [Dev.flag, raise_reg_beside (besideEvents_trm rfl), ← Dev.flag, resultApplied_source (by omega)]
  · rw [raise_reg_beside hb, resultApplied_reg ha]

theorem trimApply_fails_shows {c : Nat} (h : d.trim.ended = some (c, r)) (hr : d.fld TRM_STAT 1 0 = 1) (hx : Raises d)
    (h0 : c ≠ 0) (hc : c < 16) : (trimApply d).fld TRM_STAT 1 0 = 3 ∧ (trimApply d).fld TRM_STAT 19 16 = c ∧
    Stuck 233 (trimApply d) ∧ (trimApply d).reg TRM_SRC = d.reg TRM_SRC := by
  rw [trimApply_fails h h0]
  obtain ⟨hstate, hcode, -, hstuck, -⟩ := trimFail_shows (d := endTaken d) hr (raises_of_regs hx rfl rfl) hc
  refine ⟨hstate, hcode, hstuck, ?_⟩
  rw [trimFail_running (d := endTaken d) hr, raise_reg_beside (besideEvents_trm rfl), failed_reg (by decide) (by decide)]
  rfl

end Apply

/-! ## Restores (R379) -/

section Restore
variable {p : HostPort} {s : State} {a : Nat} {v : Word}

/-- The addresses of an aligned row are aligned. -/
theorem aligned_of_holds {r : RegRow} (hb : r.base % 4 = 0) (hs : (r.s = 1 ∧ r.n = 1) ∨ r.s % 4 = 0) (h2 : r.n2 = 1 ∨ r.s2 % 4 = 0)
    (h : r.holds a = true) : a % 4 = 0 := by
  simp only [RegRow.holds, Bool.and_eq_true, decide_eq_true_eq] at h
  obtain ⟨⟨hle, hn⟩, hk⟩ := h
  have hd : (a - r.base) % 4 = 0 := by
    rcases hs with ⟨hs, hn1⟩ | hs
    · rw [hs, hn1, Nat.div_one] at hn
      omega
    · have hk4 : (a - r.base) % r.s % 4 = 0 := by
        rcases h2 with h2 | h2
        · rw [if_pos h2, decide_eq_true_eq] at hk
          rw [hk]
        · split at hk
          · rw [decide_eq_true_eq] at hk
            rw [hk]
          · simp only [Bool.and_eq_true, decide_eq_true_eq] at hk
            rw [← Nat.mod_mod_of_dvd _ (Nat.dvd_of_mod_eq_zero h2), hk.1]
      rwa [Nat.mod_mod_of_dvd _ (Nat.dvd_of_mod_eq_zero hs)] at hk4
  omega

theorem regAddr_of_wcNow (h : wcNow a = true) {r : RegRow} (hr : row? a = some r) : RegAddr a := by
  have hrows : ∀ b ∈ [0x106, 0x110, 0x113], ∀ r ∈ blockRows b,
      r.base % 4 = 0 ∧ ((r.s = 1 ∧ r.n = 1) ∨ r.s % 4 = 0) ∧ (r.n2 = 1 ∨ r.s2 % 4 = 0) := by decide
  have hb := wcNow_block h
  obtain ⟨hbase, hs, h2⟩ := hrows _ hb r (row?_mem rfl hr)
  have ha := aligned_of_holds hbase hs h2 (row?_holds hr)
  simp only [List.mem_cons, List.not_mem_nil, or_false] at hb
  unfold RegAddr
  omega

/-- A register whose write takes effect when it completes has no other rule. -/
theorem writeReg_wcNow (h : wcNow a = true) (w : Writer) (demand : Bool) (v : Word) (d : Dev) :
    writeReg w demand a v d = writeNow w a v d := by
  have hb := wcNow_block h
  have hl : ∀ x ∈ EVT_STICKY4 :: ruledRegs, a ≠ x := by
    have hblocks : ∀ x ∈ EVT_STICKY4 :: ruledRegs, x / 0x10000 ∉ [0x106, 0x110, 0x113] := by decide
    exact fun x hx hc => hblocks x hx (hc ▸ hb)
  have he : ¬ (EVT_ROUTE 0 ≤ a ∧ a < EVT_ROUTE 256 ∧ evReserved ((a - EVT_ROUTE 0) / 4) = true) := by
    simp only [List.mem_cons, List.not_mem_nil, or_false] at hb
    unfold EVT_ROUTE
    omega
  have hfb : a / 0x10000 = 0x106 → a % 0x10000 < 0x1000 → a % 0x100 ≠ 4 ∧ a % 0x100 ≠ 0x1C := by
    simp only [wcNow, Bool.or_eq_true, Bool.and_eq_true, decide_eq_true_eq] at h
    unfold TRM_PWMSEL TRM_SDSEL TRM_SCSEL TRM_CELSEL DRM_CFG at h
    omega
  have hf1 : ¬ (a / 0x10000 = 0x106 ∧ a % 0x10000 < 0x1000 ∧ a % 0x100 = 4) := fun ⟨h1, h2, h3⟩ => (hfb h1 h2).1 h3
  have hf2 : ¬ (a / 0x10000 = 0x106 ∧ a % 0x10000 < 0x1000 ∧ a % 0x100 = 0x1C) := fun ⟨h1, h2, h3⟩ => (hfb h1 h2).2 h3
  simp only [ruledRegs, List.forall_mem_cons, List.not_mem_nil, false_implies, implies_true, and_true] at hl
  simp only [writeReg, hl, he, hf1, hf2, h, if_false, if_true]

theorem exec_trimRestoreWrite (hs : Holds p s) (hm : s.dev.mode = .commission) (h : wcNow a = true) (hd : a ≠ DRM_CFG)
    {r : RegRow} (hr : row? a = some r) (v : Word) :
    exec (.trimRestoreWrite p a v) s = .next { s with dev := trimRestore a v s.dev } := by
  have hb := wcNow_block h
  have howner : ownerOf a = none := Option.eq_none_iff_forall_ne_some.mpr (fun q hq => by
    rw [ownerOf_block hq] at hb
    exact absurd hb (by decide))
  have hne {x : Nat} (hx : x / 0x10000 = 0x102) : a ≠ x := fun hc => by
    rw [hc, hx] at hb
    exact absurd hb (by decide)
  have hwrite : writeReg (.host p) (hrnDemand s.snap) a v s.dev = (0, trimRestore a v s.dev) := by
    rw [writeReg_wcNow h, writeNow, if_neg (not_not.mpr hm), if_neg hd]
  refine congrArg Host.Outcome.next (regRow_ruled hs (regAddr_of_wcNow h hr) howner (hne rfl) (hne rfl) hwrite ?_)
  unfold trimRestore
  split
  · split <;> rfl
  · split <;> rfl

theorem trimRestore_pwmsel (h : v.toNat < 2 ^ 20) (hc : popCount v.toNat 20 = 16) (d : Dev) :
    SetsReg d (trimRestore TRM_PWMSEL v d) TRM_PWMSEL v := by
  rw [trimRestore, if_pos rfl, if_pos ⟨h, hc⟩]
  exact setReg_setsReg _ _ _

theorem trimRestore_cfgerr (h : 2 ^ 20 ≤ v.toNat ∨ popCount v.toNat 20 ≠ 16) (d : Dev) :
    SetsReg d (trimRestore TRM_PWMSEL v d) TRM_STAT (setBit (d.reg TRM_STAT) 25 true) := by
  rw [trimRestore, if_pos rfl, if_neg (fun hc => h.elim (fun hv => absurd hc.1 (by omega)) (fun hp => hp hc.2))]
  exact setFlag_setsReg _ _ _ _

theorem trimRestore_other (h : a ≠ TRM_PWMSEL) {r : RegRow} (hr : row? a = some r) (v : Word) (d : Dev) :
    SetsReg d (trimRestore a v d) a (v &&& (r.rw ||| r.wt ||| r.wc)) := by
  simp only [trimRestore, if_neg h, hr]
  exact setReg_setsReg _ _ _

end Restore

/-- Settles O46: GO's branches, the points of a two-point step, its ends, the committing edge, and the restores. -/
theorem trimSteps : Obligations.TrimSteps := by
  unfold Obligations.TrimSteps
  refine ⟨fun s => ⟨fun v ht hm hr h17 h18 => ?_, fun v ht hm h17 h18 => ?_, fun v ht hr hb => ?_, fun hr => ?_, fun hr => ?_⟩,
    fun d c r he hr hx => ⟨?_, fun h0 hc => trimApply_fails_shows he hr hx h0 hc⟩, fun p s v hs hm => ⟨fun h hc => ?_, fun h => ?_, fun a r hw hp hd hrow => ?_⟩⟩
  · have hx : Raises s.dev := raises_of_ticking ht
    rw [exec_trimGo ht, trimCmd_go h17 h18]
    refine ⟨fun hlt hneeds => ⟨_, rfl, trimGo_starts hm hr (bits_lt_pow v 3 0) (bits_lt_pow v 10 8) hlt hneeds⟩,
      fun hge => ⟨_, rfl, trimGo_refused hm hr hx (if_pos hge) (by decide) (by decide)⟩,
      fun hlt hneeds => ⟨_, rfl, trimGo_refused hm hr hx ?_ (by decide) (by decide)⟩⟩
    rw [goCode, if_neg (by omega), hneeds]
    rfl
  · rw [exec_trimGo ht, trimCmd_go h17 h18, trimGo_ignored hm]
    exact ⟨_, rfl, setFlag_setsReg _ _ _ _⟩
  · rw [exec_trimGo ht, trimCmd_ignored hb hr]
    refine ⟨_, rfl, ?_⟩
    split
    · refine ⟨⟨rfl, fun a ha => ?_⟩, flag_setFlag_same (by decide) _ _ _, ?_⟩
      · have hne : a ≠ TRM_STAT := fun hc => ha (List.mem_singleton.mpr hc)
        rw [Dev.reg_setFlag_other _ _ _ _ _ hne, Dev.reg_setFlag_other _ _ _ _ _ hne]
      · rw [fld_setFlag_beside (.inr (by decide)), fld_setFlag_beside (.inr (by decide))]
    · exact ⟨(setFlag_setsReg _ _ _ _).1, flag_setFlag_same (by decide) _ _ _, fld_setFlag_beside (.inr (by decide)) _⟩
  · refine ⟨fun ht hp => ?_, fun ht hp => ?_, fun ht => ?_, fun he hn hp hstep => ?_, fun hp => ?_, fun r he hok hp => ?_, fun c r he hc => ?_⟩
    · obtain ⟨hpoint, hpoints, helse, hloop⟩ := atPoint_shows (d := s.dev) (p := 2) (n := 2) (by decide)
      rw [exec_trimNext ht, trimNext_low hr hp]
      exact ⟨_, rfl, hpoint, hpoints, helse, hloop, fun h3 j hj => atPoint_output h3 hj⟩
    · obtain ⟨hpoint, hpoints, helse, hloop⟩ := atPoint_shows (d := s.dev) (p := 0) (n := 3) (by decide)
      rw [exec_trimNext ht, trimNext_high hr hp]
      exact ⟨_, rfl, hpoint, hpoints, helse, hloop⟩
    · rw [exec_trimAbort ht hr]
      exact ⟨_, rfl, abort_shows hr (raises_of_ticking ht)⟩
    · obtain ⟨hpoint, hpoints, helse, hloop⟩ := atPoint_shows (d := s.dev) (p := 1) (n := 1) (by decide)
      exact ⟨atPoint 1 1 s.dev, congrArg (fun d => (Host.Outcome.next { s with dev := d } : Out)) (trimReached_eq hr he hn hp hstep),
        hpoint, hpoints, hloop, helse⟩
    · exact ⟨trimEnd 5 [] s.dev, congrArg (fun d => (Host.Outcome.next { s with dev := d } : Out)) (trimTimeout_eq hr hp),
        trimEnd_shows _ _ _⟩
    · obtain ⟨hended, -, helse⟩ := trimEnd_shows 0 r s.dev
      exact ⟨trimEnd 0 r s.dev, congrArg (fun d => (Host.Outcome.next { s with dev := d } : Out))
        (trimStepEnd_eq hr he (trimCodeOk_result hok hp)), hended, helse⟩
    · obtain ⟨hok, h0⟩ := trimCodeOk_fails (d := s.dev) (r := r) hc
      obtain ⟨hended, -, helse⟩ := trimEnd_shows c.toNat [] s.dev
      have hend := trimStepEnd_eq hr he hok
      rw [if_neg h0] at hend
      exact ⟨trimEnd c.toNat [] s.dev, congrArg (fun d => (Host.Outcome.next { s with dev := d } : Out)) hend, hended, helse⟩
  · refine ⟨exec_trimAbort_idle hr, fun ht => ?_⟩
    rw [exec_trimNext ht, trimNext_idle hr]
    exact ⟨_, rfl, setFlag_setsReg _ _ _ _⟩
  · rintro rfl
    obtain ⟨hstate, hstuck, hsource, hreg⟩ := trimApply_result_shows he hx
    have hi : d.fld TRM_STAT 10 8 < 8 := bits_lt_pow (d.reg TRM_STAT) 10 8
    refine ⟨hstate, hstuck, fun hs => ⟨?_, hs ▸ hsource⟩, fun hs h3 => ?_, fun hs => ?_, fun hs => ?_⟩
    · rw [hreg _ (besideEvents_trm rfl) (by decide), hs]
      exact (Dev.reg_setReg _ _ _ _).trans (if_pos rfl)
    · rw [hreg _ (besideEvents_trm (by unfold TRM_SDSEL; omega)) (by
        simp only [List.mem_cons, List.not_mem_nil, or_false, not_or]; unfold TRM_SDSEL TRM_COUNT TRM_STAT TRM_SRC; omega), hs]
      exact (Dev.reg_setReg _ _ _ _).trans (if_pos rfl)
    · rw [hreg _ (by unfold BesideEvents FB_SCOFS; omega) (by
        simp only [List.mem_cons, List.not_mem_nil, or_false, not_or]; unfold FB_SCOFS TRM_COUNT TRM_STAT TRM_SRC; omega), hs]
      exact ((Dev.reg_setReg _ _ _ _).trans (if_neg (by unfold FB_SCOFS FB_SCCOR; omega))).trans
        ((Dev.reg_setReg _ _ _ _).trans (if_pos rfl))
    · rw [hreg _ (besideEvents_trm rfl) (by decide), hs]
      exact (Dev.reg_setReg _ _ _ _).trans (if_pos rfl)
  · have hrow : (row? TRM_PWMSEL).isSome = true := by decide
    obtain ⟨r, hr⟩ := Option.isSome_iff_exists.mp hrow
    exact ⟨_, exec_trimRestoreWrite hs hm rfl (by decide) hr v, trimRestore_pwmsel h hc s.dev⟩
  · have hrow : (row? TRM_PWMSEL).isSome = true := by decide
    obtain ⟨r, hr⟩ := Option.isSome_iff_exists.mp hrow
    exact ⟨_, exec_trimRestoreWrite hs hm rfl (by decide) hr v, trimRestore_cfgerr h s.dev⟩
  · exact ⟨_, exec_trimRestoreWrite hs hm hw hd hrow v, trimRestore_other hp hrow v s.dev⟩

end Sys2Proof.Proofs
end

section
/-! PROOFS. The identity buses (21_identity_monitor.md): reads (R383), their outcomes (R382), their landing (R384, R385). -/
namespace Sys2Proof.Proofs
open Sys2Proof Sys2Proof.Machine Sys2Proof.Claims

/-! ## Bytes and numbers -/

theorem leBytes_leNat (l : List Byte) : leBytes (leNat l) l.length = l := by
  induction l with
  | nil => rfl
  | cons b t ih =>
    have hb : b.toNat < 256 := b.isLt
    have hhead : BitVec.ofNat 8 (b.toNat + 256 * leNat t) = b := BitVec.eq_of_toNat_eq (by
      rw [BitVec.toNat_ofNat]
      omega)
    have htail : (b.toNat + 256 * leNat t) / 256 = leNat t := by omega
    simp only [leNat, List.length_cons, leBytes, hhead, htail, ih]

theorem leNat_lt (l : List Byte) : leNat l < 256 ^ l.length := by
  induction l with
  | nil => exact Nat.one_pos
  | cons b t ih =>
    have hb : b.toNat < 256 := b.isLt
    have hpow : 256 ^ (b :: t).length = 256 * 256 ^ t.length := by rw [List.length_cons, Nat.pow_succ, Nat.mul_comm]
    rw [hpow]
    simp only [leNat]
    omega

/-- Bytes are those of a number exactly when they spell it. -/
theorem leNat_eq_iff {l : List Byte} {v : Nat} (h : v < 256 ^ l.length) : leNat l = v ↔ leBytes v l.length = l := by
  constructor
  · rintro rfl
    exact leBytes_leNat l
  · intro hl
    have hv := leNat_leBytes v l.length
    rwa [hl, Nat.mod_eq_of_lt h] at hv

theorem leBytes_word {l : List Byte} (h : l.length = 4) : leBytes (word (leNat l)).toNat 4 = l := by
  have hlt := leNat_lt l
  rw [h] at hlt
  have hw : (word (leNat l)).toNat = leNat l := BitVec.toNat_ofNat .. ▸ Nat.mod_eq_of_lt hlt
  have hl := leBytes_leNat l
  rw [h] at hl
  rw [hw, hl]

theorem word_eq_iff {m n : Nat} (hm : m < 2 ^ 32) (hn : n < 2 ^ 32) : word m = word n ↔ m = n := by
  refine ⟨fun h => ?_, fun h => h ▸ rfl⟩
  have ht := congrArg BitVec.toNat h
  rwa [word, word, BitVec.toNat_ofNat, BitVec.toNat_ofNat, Nat.mod_eq_of_lt hm, Nat.mod_eq_of_lt hn] at ht

/-! ## A device of which registers alone change -/

/-- Of the device registers alone change. -/
def RegsOnly (d e : Dev) : Prop := ∃ m : SMap Word, e = { d with regs := m }

section RegsOnly
variable {d e : Dev} (h : RegsOnly d e)

theorem regsOnly_refl (d : Dev) : RegsOnly d d := ⟨d.regs, rfl⟩

include h

theorem regsOnly_setReg (a : Nat) (v : Word) : RegsOnly d (e.setReg a v) := by
  obtain ⟨m, rfl⟩ := h
  exact ⟨_, rfl⟩

theorem regsOnly_setFld (a hi lo v : Nat) : RegsOnly d (Dev.setFld a hi lo v e) := regsOnly_setReg h a _

theorem regsOnly_setFlag (a i : Nat) (b : Bool) : RegsOnly d (Dev.setFlag a i b e) := regsOnly_setReg h a _

theorem regsOnly_count1 (a : Nat) : RegsOnly d (Dev.count1 a e) := regsOnly_setReg h a _

theorem regsOnly_elsewhere : Elsewhere d e := by
  obtain ⟨m, rfl⟩ := h
  exact ⟨rfl, rfl, rfl, rfl, ⟨rfl, rfl⟩, rfl, rfl, rfl, rfl⟩

end RegsOnly

/-! ## One bus -/

section Bus
variable {b k : Fin 4} {d : Dev}

theorem bus_setBus (d : Dev) (b k : Fin 4) (x : IdBus) : (d.setBus b x).bus k = if k = b then x else d.bus k := by
  unfold Dev.bus Dev.setBus
  by_cases h : k = b
  · subst h
    simp
  · have hne : b.val ≠ k.val := fun hc => h (Fin.ext hc.symm)
    simp [h, Vector.getElem_set_ne _ _ hne]

theorem reg_setBus (d : Dev) (b : Fin 4) (x : IdBus) (a : Nat) : (d.setBus b x).reg a = d.reg a := rfl

theorem besideEvents_idn {a : Nat} (h : a / 0x10000 = 0x111) : BesideEvents a := by
  unfold BesideEvents
  omega

end Bus

/-! ## A committed READ (R383) -/

section Read
variable {b : Fin 4} {d : Dev}

/-- What a committed READ concerns of a bus. -/
def busView (b : Fin 4) (d : Dev) : IdBus × Word × Word := (d.bus b, d.reg (IDN_STAT b), d.reg (IDN_CFG b))

/-- A bus that the READ names starts, or has IGN set. -/
def busRead (named : Bool) (x : IdBus × Word × Word) : IdBus × Word × Word :=
  if !named then x
  else if x.1.busy || !bit x.2.2 12 then (x.1, setBit x.2.1 16 true, x.2.2)
  else ({ x.1 with busy := true, sent := idSent x.2.2 }, setBits x.2.1 2 0 1, x.2.2)

theorem busRead_unnamed (x : IdBus × Word × Word) : busRead false x = x := rfl

theorem busRead_ignored {x : IdBus × Word × Word} (h : (x.1.busy || !bit x.2.2 12) = true) :
    busRead true x = (x.1, setBit x.2.1 16 true, x.2.2) := by
  simp only [busRead, Bool.not_true, Bool.false_eq_true, if_false, h, if_true]

theorem busRead_starts {x : IdBus × Word × Word} (h : (x.1.busy || !bit x.2.2 12) = false) :
    busRead true x = ({ x.1 with busy := true, sent := idSent x.2.2 }, setBits x.2.1 2 0 1, x.2.2) := by
  simp only [busRead, Bool.not_true, Bool.false_eq_true, if_false, h]

/-- The READ of the bus with a number. -/
def busStep (mask k : Nat) (d : Dev) : Dev :=
  let b := Fin.ofNat 4 k
  if mask / 2 ^ k % 2 = 0 then d
  else if (d.bus b).busy || !d.flag (IDN_CFG b) 12 then Dev.setFlag (IDN_STAT b) 16 true d
  else idStart b d

theorem idRead_eq (mask : Nat) (d : Dev) : idRead mask d = forAll 4 (busStep mask) d := rfl

theorem busStep_elsewhere (mask k : Nat) (d : Dev) : Elsewhere d (busStep mask k d) := by
  unfold busStep
  dsimp only
  split
  · exact elsewhere_refl d
  · split
    · exact ⟨rfl, rfl, rfl, rfl, ⟨rfl, rfl⟩, rfl, rfl, rfl, rfl⟩
    · exact ⟨rfl, rfl, rfl, rfl, ⟨rfl, rfl⟩, rfl, rfl, rfl, rfl⟩

theorem busStep_other {k : Nat} (hk : k < 4) (h : k ≠ b.val) (mask : Nat) (d : Dev) : busView b (busStep mask k d) = busView b d := by
  have hkv : (Fin.ofNat 4 k).val = k := Nat.mod_eq_of_lt hk
  have hne : b ≠ Fin.ofNat 4 k := fun hc => h (by rw [hc, hkv])
  have hstat : IDN_STAT b ≠ IDN_STAT (Fin.ofNat 4 k) := by rw [hkv]; unfold IDN_STAT; omega
  have hcfg : IDN_CFG b ≠ IDN_STAT (Fin.ofNat 4 k) := by rw [hkv]; unfold IDN_STAT IDN_CFG; omega
  unfold busStep busView
  dsimp only
  split
  · rfl
  · split
    · rw [Dev.reg_setFlag_other _ _ _ _ _ hstat, Dev.reg_setFlag_other _ _ _ _ _ hcfg]
      rfl
    · rw [idStart, Dev.reg_setFld_other _ _ _ _ _ _ hstat, Dev.reg_setFld_other _ _ _ _ _ _ hcfg]
      exact Prod.ext ((bus_setBus _ _ _ _).trans (if_neg hne)) rfl

theorem busStep_same (mask : Nat) (b : Fin 4) (d : Dev) :
    busView b (busStep mask b d) = busRead (decide (mask / 2 ^ b.val % 2 ≠ 0)) (busView b d) := by
  have hb : Fin.ofNat 4 b.val = b := Fin.ext (Nat.mod_eq_of_lt b.isLt)
  have hcfg : IDN_CFG b ≠ IDN_STAT b := by unfold IDN_STAT IDN_CFG; omega
  unfold busStep
  simp only [hb]
  by_cases hm : mask / 2 ^ b.val % 2 = 0
  · rw [if_pos hm, decide_eq_false (not_not.mpr hm), busRead_unnamed]
  · rw [if_neg hm, decide_eq_true hm]
    by_cases hbusy : ((d.bus b).busy || !d.flag (IDN_CFG b) 12) = true
    · rw [if_pos hbusy, busRead_ignored hbusy, busView, Dev.flag_setFlag, Dev.reg_setFlag_other _ _ _ _ _ hcfg]
      rfl
    · rw [if_neg hbusy, busRead_starts (Bool.eq_false_iff.mpr hbusy), busView, idStart, Dev.reg_setFld,
        Dev.reg_setFld_other _ _ _ _ _ _ hcfg]
      exact Prod.ext ((bus_setBus _ _ _ _).trans (if_pos rfl)) rfl

theorem idRead_busView (mask : Nat) (b : Fin 4) (d : Dev) :
    busView b (idRead mask d) = busRead (decide (mask / 2 ^ b.val % 2 ≠ 0)) (busView b d) := by
  have h := forAll_at (π := busView b) (f := busStep mask) (n := 4) (fun j hj hne s => busStep_other hj hne mask s)
    (busStep_same mask b) d
  rwa [if_pos b.isLt] at h

theorem idRead_elsewhere (mask : Nat) (d : Dev) : Elsewhere d (idRead mask d) :=
  elsewhere_foldl (fun d k => busStep_elsewhere mask k d) _ d

theorem exec_idRead {s : State} (h : ticking s.dev = true) (m : BitVec 4) :
    exec (.idRead m) s = .next { s with dev := idRead m.toNat s.dev } := atEdge_ticking h _

theorem named_eq (m : BitVec 4) (i : Nat) : decide (m.toNat / 2 ^ i % 2 ≠ 0) = m.getLsbD i := by
  have hmod : m.toNat / 2 ^ i % 2 ≠ 0 ↔ m.toNat / 2 ^ i % 2 = 1 := by omega
  rw [BitVec.getLsbD, Nat.testBit_eq_decide_div_mod_eq]
  simp only [hmod]

end Read

/-! ## A read that ends (R382) -/

section Outcome
variable {bs : List Byte}

theorem take_padded (h : bs.length = 128) : (bs ++ List.replicate 128 0).take 128 = bs := by
  rw [List.take_append_of_le_length (by omega), List.take_of_length_le (by omega)]

/-- The outcome of a full record by its CRC and its first bytes. -/
theorem idOutcome_data (h : bs.length = 128) : idOutcome (.data bs) =
    if (crcCcitt (bs.take 126)).toNat ≠ leNat (bs.drop 126) then (4, bs)
    else if leNat (bs.take 2) ≠ 0x4E50 ∨ leNat ((bs.drop 2).take 1) ≠ 1 then (6, bs) else (2, bs) := by
  have hcrc : (bs.drop 126).take 2 = bs.drop 126 := List.take_of_length_le (by rw [List.length_drop]; omega)
  simp only [idOutcome, take_padded h, List.drop_zero, hcrc]

theorem crc_spells (h : bs.length = 128) : (crcCcitt (bs.take 126)).toNat = leNat (bs.drop 126) ↔
    leBytes (crcCcitt (bs.take 126)).toNat 2 = bs.drop 126 := by
  have hlen : (bs.drop 126).length = 2 := by rw [List.length_drop]; omega
  have hlt : (crcCcitt (bs.take 126)).toNat < 256 ^ (bs.drop 126).length := by
    rw [hlen]
    exact (crcCcitt (bs.take 126)).isLt
  have h := leNat_eq_iff hlt
  rw [hlen] at h
  rw [← h]
  exact eq_comm

/-- The record's magic number and version are its first three bytes. -/
theorem magic_spells (h : bs.length = 128) : (leNat (bs.take 2) = 0x4E50 ∧ leNat ((bs.drop 2).take 1) = 1) ↔
    bs.take 3 = [0x50, 0x4E, 1] := by
  have h2 : (bs.take 2).length = 2 := by rw [List.length_take]; omega
  have h1 : ((bs.drop 2).take 1).length = 1 := by rw [List.length_take, List.length_drop]; omega
  have h3 : bs.take 3 = bs.take 2 ++ (bs.drop 2).take 1 := List.take_add (i := 2) (j := 1)
  rw [leNat_eq_iff (by rw [h2]; decide), leNat_eq_iff (by rw [h1]; decide), h2, h1, h3]
  constructor
  · rintro ⟨ha, hb⟩
    rw [← ha, ← hb]
    rfl
  · intro hc
    have hsplit := List.append_inj (s₂ := [0x50, 0x4E]) (t₂ := [1]) hc h2
    exact ⟨hsplit.1.symm, hsplit.2.symm⟩

variable {b : Fin 4} {w : IdWire} {d : Dev}

theorem idEnd_idle (h : (d.bus b).busy = false) : idEnd b w d = d := if_neg (by rw [h]; decide)

/-- A bus whose read has ended. -/
def busEnded (b : Fin 4) (w : IdWire) (d : Dev) : Dev := d.setBus b { d.bus b with busy := false, ended := some (idOutcome w) }

theorem idEnd_busy (h : (d.bus b).busy = true) : idEnd b w d = raise (240 + b) (busEnded b w d) := if_pos h

theorem idEnd_shows (h : (d.bus b).busy = true) (hr : Raises d) : Elsewhere d (idEnd b w d) ∧ Stuck (240 + b) (idEnd b w d) ∧
    (∀ k, k ≠ b → (idEnd b w d).bus k = d.bus k) ∧ ((idEnd b w d).bus b).busy = false ∧
    ((idEnd b w d).bus b).ended = some (idOutcome w) := by
  have hres : evReserved (240 + b) = false := by
    have hall : ∀ k : Fin 4, evReserved (240 + k) = false := by decide
    exact hall b
  obtain ⟨r, v, m, he⟩ := raise_frame (240 + b) (busEnded b w d)
  have hbus (k : Fin 4) : (raise (240 + b) (busEnded b w d)).bus k = (busEnded b w d).bus k := by
    rw [he]
    rfl
  rw [idEnd_busy h]
  refine ⟨elsewhere_raise ?_ _, raise_stuck hres (raises_of_regs hr rfl rfl), fun k hk => ?_, ?_, ?_⟩
  · exact ⟨rfl, rfl, rfl, rfl, ⟨rfl, rfl⟩, rfl, rfl, rfl, rfl⟩
  · rw [hbus, busEnded, bus_setBus, if_neg hk]
  · rw [hbus, busEnded, bus_setBus, if_pos rfl]
  · rw [hbus, busEnded, bus_setBus, if_pos rfl]

end Outcome

/-! ## The landing of a record (R384, R385) -/

section Landing
variable {b : Fin 4} {d : Dev} {st : Nat} {bs : List Byte}

/-- A word of a record. -/
def recWord (bs : List Byte) (i : Nat) : Word := word (leNat ((bs.drop (4 * i)).take 4))

/-- A record in its registers. -/
def recPut (b : Fin 4) (bs : List Byte) (d : Dev) : Dev := forAll 32 (fun i d => d.setReg (IDN_REC b i) (recWord bs i)) d

theorem recPut_regs (b : Fin 4) (bs : List Byte) (d : Dev) : RegsOnly d (recPut b bs d) :=
  List.foldlRecOn (motive := RegsOnly d) _ _ (regsOnly_refl d) (fun _ he _ _ => regsOnly_setReg he _ _)

theorem recPut_reg_rec (b : Fin 4) (bs : List Byte) (d : Dev) {i : Nat} (h : i < 32) :
    (recPut b bs d).reg (IDN_REC b i) = recWord bs i := by
  have hat := forAll_at (π := fun e : Dev => e.reg (IDN_REC b i)) (f := fun i d => d.setReg (IDN_REC b i) (recWord bs i))
    (g := fun _ => recWord bs i) (k := i) (n := 32)
    (fun j _ hne e => (Dev.reg_setReg _ _ _ _).trans (if_neg (by unfold IDN_REC; omega)))
    (fun e => (Dev.reg_setReg _ _ _ _).trans (if_pos rfl)) d
  rwa [if_pos h] at hat

/-- Below the record a bus's registers stay. -/
theorem recPut_reg {a : Nat} (h : a < IDN_REC b 0) (bs : List Byte) (d : Dev) : (recPut b bs d).reg a = d.reg a :=
  forAll_keeps (π := fun e : Dev => e.reg a)
    (fun j e => (Dev.reg_setReg _ _ _ _).trans (if_neg (by unfold IDN_REC at h ⊢; omega))) 32 d

/-- A field of 0, or one that a record has. -/
def anyOr (e v : Word) : Bool := decide (e = 0) || decide (e = v)

/-- The module that a good record names is the expected one. -/
def isExpected (b : Fin 4) (st : Nat) (bs : List Byte) (d : Dev) : Bool :=
  decide (st = 2) && anyOr (word (d.fld (IDN_EXPKIND b) 7 0)) (word (bits (recWord bs 0) 31 24)) &&
    anyOr (d.reg (IDN_EXPMAKER b)) (recWord bs 1) && anyOr (d.reg (IDN_EXPPART b)) (recWord bs 2)

/-- The module is another than the one of the good read before. -/
def isChanged (b : Fin 4) (st : Nat) (bs : List Byte) (x : IdBus) (d : Dev) : Bool :=
  if decide (st = 2) then x.good && (decide (x.part ≠ recWord bs 2) || decide (x.serial ≠ recWord bs 3))
  else d.flag (IDN_STAT b) 4

/-- IDNb_STAT after a landing: COUNT, MATCH, CHANGED and STATE. -/
def statLanded (b : Fin 4) (st : Nat) (isMatch changed busy : Bool) (d : Dev) : Dev :=
  Dev.setFld (IDN_STAT b) 2 0 (if busy then 1 else st) (Dev.setFlag (IDN_STAT b) 4 changed
    (Dev.setFlag (IDN_STAT b) 3 isMatch (Dev.setFld (IDN_STAT b) 15 8 (d.fld (IDN_STAT b) 15 8 + 1) d)))

/-- The bus after a landing: what the most recent good record names. -/
def busLanded (st : Nat) (bs : List Byte) (x : IdBus) : IdBus :=
  let y := { x with ended := none }
  if decide (st = 2) then { y with part := recWord bs 2, serial := recWord bs 3, good := true } else y

/-- The device after a landing, but for the record in tick SRAM. -/
def busShown (b : Fin 4) (st : Nat) (bs : List Byte) (d : Dev) : Dev :=
  (statLanded b st (isExpected b st bs (recPut b bs d)) (isChanged b st bs (d.bus b) (recPut b bs d)) (d.bus b).busy
    (recPut b bs d)).setBus b (busLanded st bs (d.bus b))

/-- A record in tick SRAM. -/
def recordInSram (b : Fin 4) (bs : List Byte) (d : Dev) : Dev :=
  { d with sram := d.sram.setBytes (d.fld (IDN_DEST b) 21 6 * 64) (bs.take (0x400000 - d.fld (IDN_DEST b) 21 6 * 64)) }

theorem idLand_none (h : (d.bus b).ended = none) : idLand b d = d := by
  simp only [idLand, h]

theorem idLand_eq (h : (d.bus b).ended = some (st, bs)) (hl : bs.length = 128) : idLand b d =
    if (busShown b st bs d).flag (IDN_CFG b) 10 then recordInSram b bs (busShown b st bs d) else busShown b st bs d := by
  simp only [idLand, h, take_padded hl]
  rfl

/-- A landing writes registers and its bus. -/
theorem busShown_frame (b : Fin 4) (st : Nat) (bs : List Byte) (d : Dev) : ∃ m : SMap Word,
    busShown b st bs d = ({ d with regs := m } : Dev).setBus b (busLanded st bs (d.bus b)) := by
  obtain ⟨m, hm⟩ := regsOnly_setFld (regsOnly_setFlag (regsOnly_setFlag (regsOnly_setFld (recPut_regs b bs d) (IDN_STAT b) 15 8
    ((recPut b bs d).fld (IDN_STAT b) 15 8 + 1)) (IDN_STAT b) 3 (isExpected b st bs (recPut b bs d))) (IDN_STAT b) 4
    (isChanged b st bs (d.bus b) (recPut b bs d))) (IDN_STAT b) 2 0 (if (d.bus b).busy then 1 else st)
  exact ⟨m, by rw [busShown, statLanded, hm]⟩

theorem busShown_reg {a : Nat} (h : a ≠ IDN_STAT b) (st : Nat) (bs : List Byte) (d : Dev) :
    (busShown b st bs d).reg a = (recPut b bs d).reg a := by
  rw [busShown, reg_setBus, statLanded, Dev.reg_setFld_other _ _ _ _ _ _ h, Dev.reg_setFlag_other _ _ _ _ _ h, Dev.reg_setFlag_other _ _ _ _ _ h,
    Dev.reg_setFld_other _ _ _ _ _ _ h]

/-- The registers of a bus that its landing leaves. -/
theorem busShown_reg_config {a : Nat} (h : a ≠ IDN_STAT b) (hlt : a < IDN_REC b 0) (st : Nat) (bs : List Byte) (d : Dev) :
    (busShown b st bs d).reg a = d.reg a := (busShown_reg h st bs d).trans (recPut_reg hlt bs d)

theorem busShown_rec {i : Nat} (h : i < 32) (b : Fin 4) (st : Nat) (bs : List Byte) (d : Dev) :
    (busShown b st bs d).reg (IDN_REC b i) = recWord bs i :=
  (busShown_reg (by unfold IDN_REC IDN_STAT; omega) st bs d).trans (recPut_reg_rec b bs d h)

theorem stat_below_rec (b : Fin 4) : IDN_STAT b < IDN_REC b 0 := by unfold IDN_STAT IDN_REC; omega

/-- IDNb_STAT as a landing leaves it. -/
theorem statLanded_reg (b : Fin 4) (st : Nat) (isMatch changed busy : Bool) (d : Dev) :
    (statLanded b st isMatch changed busy d).reg (IDN_STAT b) = setBits (setBit (setBit (setBits (d.reg (IDN_STAT b)) 15 8
      (d.fld (IDN_STAT b) 15 8 + 1)) 3 isMatch) 4 changed) 2 0 (if busy then 1 else st) := by
  rw [statLanded, Dev.reg_setFld, Dev.flag_setFlag, Dev.flag_setFlag, Dev.reg_setFld]

theorem busShown_stat (b : Fin 4) (st : Nat) (bs : List Byte) (d : Dev) :
    (busShown b st bs d).reg (IDN_STAT b) = setBits (setBit (setBit (setBits (d.reg (IDN_STAT b)) 15 8
      (d.fld (IDN_STAT b) 15 8 + 1)) 3 (isExpected b st bs (recPut b bs d))) 4 (isChanged b st bs (d.bus b) (recPut b bs d))) 2 0
      (if (d.bus b).busy then 1 else st) := by
  rw [busShown, reg_setBus, statLanded_reg, Dev.fld, recPut_reg (stat_below_rec b), ← Dev.fld]

theorem busShown_state (h : (d.bus b).busy = false) (hst : st < 8) (bs : List Byte) :
    (busShown b st bs d).fld (IDN_STAT b) 2 0 = st := by
  rw [Dev.fld, busShown_stat, bits_setBits_same (by decide), h]
  exact Nat.mod_eq_of_lt hst

theorem busShown_count (b : Fin 4) (st : Nat) (bs : List Byte) (d : Dev) :
    (busShown b st bs d).fld (IDN_STAT b) 15 8 = (d.fld (IDN_STAT b) 15 8 + 1) % 256 := by
  rw [Dev.fld, busShown_stat, bits_setBits_other (by decide), bits_setBit_other (by decide), bits_setBit_other (by decide),
    bits_setBits_same (by decide)]
  rfl

theorem busShown_match (b : Fin 4) (st : Nat) (bs : List Byte) (d : Dev) :
    (busShown b st bs d).flag (IDN_STAT b) 3 = isExpected b st bs d := by
  have hcfg {a : Nat} (h : a < IDN_REC b 0) : (recPut b bs d).reg a = d.reg a := recPut_reg h bs d
  rw [Dev.flag, busShown_stat, bit_setBits_other (by decide), bit_setBit_other (by decide), bit_setBit (by decide)]
  simp only [isExpected, Dev.fld]
  rw [hcfg (by unfold IDN_EXPKIND IDN_REC; omega), hcfg (by unfold IDN_EXPMAKER IDN_REC; omega),
    hcfg (by unfold IDN_EXPPART IDN_REC; omega)]

theorem busShown_changed (b : Fin 4) (bs : List Byte) (d : Dev) : (busShown b 2 bs d).flag (IDN_STAT b) 4 =
    ((d.bus b).good && (decide ((d.bus b).part ≠ recWord bs 2) || decide ((d.bus b).serial ≠ recWord bs 3))) := by
  rw [Dev.flag, busShown_stat, bit_setBits_other (by decide), bit_setBit (by decide)]
  rfl

theorem busShown_bus (b : Fin 4) (st : Nat) (bs : List Byte) (d : Dev) :
    (busShown b st bs d).bus b = busLanded st bs (d.bus b) := by
  rw [busShown, bus_setBus, if_pos rfl]

theorem busShown_bus_other {k : Fin 4} (h : k ≠ b) (st : Nat) (bs : List Byte) (d : Dev) :
    (busShown b st bs d).bus k = d.bus k := by
  obtain ⟨m, hm⟩ := busShown_frame b st bs d
  rw [hm, bus_setBus, if_neg h]
  rfl

theorem anyOr_iff {e v : Word} : anyOr e v = true ↔ e = 0 ∨ e = v := by
  rw [anyOr, Bool.or_eq_true, decide_eq_true_eq, decide_eq_true_eq]

/-- MATCH: each expected field is 0 or the record's (R384). -/
theorem isExpected_iff (b : Fin 4) (bs : List Byte) (d : Dev) : isExpected b 2 bs d = true ↔
    (d.fld (IDN_EXPKIND b) 7 0 = 0 ∨ d.fld (IDN_EXPKIND b) 7 0 = bits (recWord bs 0) 31 24) ∧
      (d.reg (IDN_EXPMAKER b) = 0 ∨ d.reg (IDN_EXPMAKER b) = recWord bs 1) ∧
      (d.reg (IDN_EXPPART b) = 0 ∨ d.reg (IDN_EXPPART b) = recWord bs 2) := by
  have hkind : d.fld (IDN_EXPKIND b) 7 0 < 256 := bits_lt_pow (d.reg (IDN_EXPKIND b)) 7 0
  have hrec : bits (recWord bs 0) 31 24 < 256 := bits_lt_pow (recWord bs 0) 31 24
  have hzero : word (d.fld (IDN_EXPKIND b) 7 0) = 0 ↔ d.fld (IDN_EXPKIND b) 7 0 = 0 :=
    word_eq_iff (by omega) (n := 0) (by decide)
  simp only [isExpected, decide_true, Bool.true_and, Bool.and_eq_true, anyOr_iff, hzero,
    word_eq_iff (show d.fld (IDN_EXPKIND b) 7 0 < 2 ^ 32 by omega) (show bits (recWord bs 0) 31 24 < 2 ^ 32 by omega), and_assoc]

theorem recWord_bytes (hl : bs.length = 128) {i : Nat} (h : i < 32) : leBytes (recWord bs i).toNat 4 = (bs.drop (4 * i)).take 4 :=
  leBytes_word (by rw [List.length_take, List.length_drop]; omega)

/-- What a landing shows, whether or not the record goes to tick SRAM. -/
theorem idLand_sram (h : (d.bus b).ended = some (st, bs)) (hl : bs.length = 128) : ∃ m : Memory,
    idLand b d = { busShown b st bs d with sram := m } ∧ (d.flag (IDN_CFG b) 10 = false → m = d.sram) ∧
    (d.flag (IDN_CFG b) 10 = true → d.fld (IDN_DEST b) 21 6 < 65535 → m = d.sram.setBytes (d.fld (IDN_DEST b) 21 6 * 64) bs) := by
  have hcfg : (busShown b st bs d).flag (IDN_CFG b) 10 = d.flag (IDN_CFG b) 10 := by
    rw [Dev.flag, busShown_reg_config (by unfold IDN_CFG IDN_STAT; omega) (by unfold IDN_CFG IDN_REC; omega), ← Dev.flag]
  have hdest : (busShown b st bs d).fld (IDN_DEST b) 21 6 = d.fld (IDN_DEST b) 21 6 := by
    rw [Dev.fld, busShown_reg_config (by unfold IDN_DEST IDN_STAT; omega) (by unfold IDN_DEST IDN_REC; omega), ← Dev.fld]
  have hsram : (busShown b st bs d).sram = d.sram := by
    obtain ⟨m, hm⟩ := busShown_frame b st bs d
    rw [hm]
    rfl
  rw [idLand_eq h hl, hcfg]
  generalize busShown b st bs d = e at hdest hsram ⊢
  by_cases hland : d.flag (IDN_CFG b) 10 = true
  · rw [if_pos hland]
    refine ⟨_, rfl, fun hc => absurd hland (by rw [hc]; decide), fun _ hd => ?_⟩
    rw [hdest, hsram, List.take_of_length_le (by omega)]
  · rw [if_neg hland]
    exact ⟨e.sram, rfl, fun _ => hsram, fun hc => absurd hc hland⟩

end Landing

/-- Settles O47: the buses that a READ names, the outcome of a read by its bytes, and the landing, each by its own lemmas. -/
theorem identityReads : Obligations.IdentityReads := by
  unfold Obligations.IdentityReads
  refine ⟨fun s m ht => ⟨_, exec_idRead ht m, idRead_elsewhere _ _, fun b => ?_⟩, fun s b w => ⟨fun h => ?_, fun h hr => ?_⟩,
    fun s b => ⟨fun h => ?_, fun st bs ht h hst hl => ?_⟩⟩
  · have hview := idRead_busView m.toNat b s.dev
    rw [named_eq] at hview
    refine ⟨fun hm => ?_, fun hm hbusy hen => ?_, fun hm hbusy => ?_⟩
    · rw [hm, busRead_unnamed] at hview
      exact ⟨congrArg (·.1) hview, congrArg (·.2.1) hview⟩
    · have hstart : ((busView b s.dev).1.busy || !bit (busView b s.dev).2.2 12) = false := by
        rw [Bool.or_eq_false_iff, Bool.not_eq_false']
        exact ⟨hbusy, hen⟩
      rw [hm, busRead_starts hstart] at hview
      have hstat : (idRead m.toNat s.dev).reg (IDN_STAT b) = setBits (s.dev.reg (IDN_STAT b)) 2 0 1 := congrArg (·.2.1) hview
      refine ⟨congrArg (·.1) hview, ?_, ?_⟩
      · rw [Dev.fld, hstat, bits_setBits_same (by decide)]
        rfl
      · rw [Dev.flag, hstat, bit_setBits_other (by decide), ← Dev.flag]
    · have hignored : ((busView b s.dev).1.busy || !bit (busView b s.dev).2.2 12) = true := by
        rw [Bool.or_eq_true, Bool.not_eq_true']
        exact hbusy
      rw [hm, busRead_ignored hignored] at hview
      have hstat : (idRead m.toNat s.dev).reg (IDN_STAT b) = setBit (s.dev.reg (IDN_STAT b)) 16 true := congrArg (·.2.1) hview
      exact ⟨congrArg (·.1) hview, by rw [Dev.flag, hstat, bit_setBit (by decide)]⟩
  · exact congrArg (fun d => (Host.Outcome.next { s with dev := d } : Out)) (idEnd_idle h)
  · obtain ⟨helse, hstuck, hother, hbusy, hended⟩ := idEnd_shows (w := w) h hr
    refine ⟨_, rfl, helse, hstuck, hother, hbusy, fun hw => ?_, fun hw => ?_, fun bs hw hl => ⟨fun hcrc => ?_, fun hcrc => ⟨fun hm => ?_, fun hm => ?_⟩⟩⟩
    · exact hended.trans (congrArg some (congrArg idOutcome hw))
    · exact hended.trans (congrArg some (congrArg idOutcome hw))
    · rw [hended, hw, idOutcome_data hl, if_pos (fun hc => hcrc ((crc_spells hl).mp hc))]
    · rw [hended, hw, idOutcome_data hl, if_neg (not_not.mpr ((crc_spells hl).mpr hcrc)),
        if_neg (fun hc => not_and_or.mpr hc ((magic_spells hl).mpr hm))]
    · rw [hended, hw, idOutcome_data hl, if_neg (not_not.mpr ((crc_spells hl).mpr hcrc)),
        if_pos (not_and_or.mp (fun hc => hm ((magic_spells hl).mp hc)))]
  · refine congrArg (fun d => (Host.Outcome.next { s with dev := d } : Out)) ?_
    rw [idLand_none h, ite_self]
  · obtain ⟨m, hland, hkept, hwritten⟩ := idLand_sram h hl
    obtain ⟨r, hframe⟩ := busShown_frame b st bs s.dev
    have hcores : (busShown b st bs s.dev).cores = s.dev.cores := by rw [hframe]; rfl
    have htick : (busShown b st bs s.dev).tick = s.dev.tick := by rw [hframe]; rfl
    have hbus := busShown_bus b st bs s.dev
    have hother (k : Fin 4) (hk : k ≠ b) := busShown_bus_other hk st bs s.dev
    have hstate (hbusy : (s.dev.bus b).busy = false) := busShown_state hbusy hst bs
    have hcount := busShown_count b st bs s.dev
    have hmatch := busShown_match b st bs s.dev
    have hchanged (h2 : st = 2) := h2 ▸ busShown_changed b bs s.dev
    have hrec {i : Nat} (hi : i < 32) := busShown_rec hi b st bs s.dev
    have hexec : exec (.idLanding b) s = .next { s with dev := idLand b s.dev } := atEdge_ticking ht _
    rw [hexec, hland]
    generalize busShown b st bs s.dev = e at *
    have hbus' : ({ e with sram := m } : Dev).bus b = busLanded st bs (s.dev.bus b) := hbus
    have hrec' {i : Nat} (hi : i < 32) : ({ e with sram := m } : Dev).reg (IDN_REC b i) = recWord bs i := hrec hi
    refine ⟨_, rfl, ?_, hother, hcores, htick, hstate, hcount, fun i hi => ?_, fun hne => ⟨hmatch.trans ?_, ?_, ?_⟩, fun h2 => ?_, hkept, hwritten⟩
    · rw [hbus', busLanded]
      split <;> rfl
    · rw [hrec' hi, recWord_bytes hl hi]
    · rw [isExpected, decide_eq_false hne]
      rfl
    · rw [hbus', busLanded, decide_eq_false hne]
      rfl
    · rw [hbus', busLanded, decide_eq_false hne]
      rfl
    · subst h2
      rw [hbus', hrec' (by decide), hrec' (by decide), hrec' (by decide), hrec' (by decide)]
      refine ⟨rfl, rfl, rfl, ?_, ?_⟩
      · rw [← isExpected_iff, ← hmatch]
        rfl
      · have hflag : ({ e with sram := m } : Dev).flag (IDN_STAT b) 4 = _ := hchanged rfl
        rw [hflag, Bool.and_eq_true, Bool.or_eq_true, decide_eq_true_eq, decide_eq_true_eq]

end Sys2Proof.Proofs
end

section
/-! PROOFS. The monitor (21_identity_monitor.md): requests that need no session (R386, R387). -/
namespace Sys2Proof.Proofs
open Sys2Proof Sys2Proof.Machine Sys2Proof.Claims

/-! ## Requests and responses (R386) -/

section Frame
variable {s : State} {f : MonFrame}

theorem monServes_of_listens (h : Listens s.dev) : monServes s.dev = true := by
  obtain ⟨hready, hen, hraises⟩ := h
  rw [monServes, hready, hen, hraises]
  rfl

theorem monAnswer_eq (cmd : Nat) (f : MonFrame) (st : Nat) (pl : List Byte) (d : Dev) :
    monAnswer cmd f st pl d = replied (BitVec.ofNat 8 cmd) f (BitVec.ofNat 8 st) (if st = 0 then pl else []) d := rfl

theorem monRow_listens (h : Listens s.dev) (cmd : Nat) {g : State → Nat × List Byte × Dev} {st : Nat} {pl : List Byte} {d : Dev}
    (hg : g s = (st, pl, d)) (hr : d.ready = s.dev.ready) : monRow cmd f g s = { s with dev := monAnswer cmd f st pl d } := by
  have hready : (s.dev.ready && !(monAnswer cmd f st pl d).ready) = false := by
    have hd : (monAnswer cmd f st pl d).ready = d.ready := rfl
    rw [hd, hr, Bool.and_not_self]
  have hrow : monRow cmd f g s = s.putDev (monAnswer cmd f (g s).1 (g s).2.1 (g s).2.2) := by
    rw [monRow, monServes_of_listens h]
    rfl
  rw [hrow, hg, State.putDev, hready]
  rfl

/-- A request that is done, and leaves READY as it is, ends with its response. -/
theorem monRow_done (h : Listens s.dev) (cmd : Nat) {g : State → Nat × List Byte × Dev} {pl : List Byte} {d : Dev}
    (hg : g s = (0, pl, d)) (hr : d.ready = s.dev.ready) :
    monRow cmd f g s = { s with dev := replied (BitVec.ofNat 8 cmd) f 0 pl d } := monRow_listens h cmd hg hr

/-- A request that is not done ends with its status. -/
theorem monRow_status (h : Listens s.dev) (cmd : Nat) {g : State → Nat × List Byte × Dev} {st : Nat} {pl : List Byte}
    {d : Dev} (hg : g s = (st, pl, d)) (h0 : st ≠ 0) (hr : d.ready = s.dev.ready) :
    monRow cmd f g s = { s with dev := replied (BitVec.ofNat 8 cmd) f (BitVec.ofNat 8 st) [] d } := by
  rw [monRow_listens h cmd hg hr, monAnswer_eq, if_neg h0]

/-- Before READY, and with EN 0, no request is taken. -/
theorem monRow_deaf (h : s.dev.ready = false ∨ s.dev.flag MON_CFG 0 = false) (cmd : Nat) (g : State → Nat × List Byte × Dev) :
    monRow cmd f g s = s := by
  have hdeaf : monServes s.dev = false := by
    rcases h with h | h
    · rw [monServes, h]
      rfl
    · rw [monServes, h, Bool.and_false]
      rfl
  rw [monRow, hdeaf]
  rfl

end Frame

/-! ## The fields of a payload -/

section Payload
variable {f : MonFrame}

theorem len_eq {l : List Byte} (h : f.payload = l) : MonFrame.len f = l.length := by rw [MonFrame.len, h]

/-- A number of n bytes that begins the payload. -/
theorem num_head {a n : Nat} {l : List Byte} (h : f.payload = leBytes a n ++ l) : MonFrame.num f 0 n = a % 256 ^ n := by
  rw [MonFrame.num, h, List.drop_zero, List.take_append_of_le_length (by rw [leBytes_length]),
    List.take_of_length_le (by rw [leBytes_length]), leNat_leBytes]

/-- The byte after a number of n bytes. -/
theorem num_byte {a n : Nat} {b : Byte} (h : f.payload = leBytes a n ++ [b]) : MonFrame.num f n 1 = b.toNat := by
  have hlen : (leBytes a n).length = n := leBytes_length a n
  have hdrop : (leBytes a n ++ [b]).drop n = [b] := by
    rw [List.drop_append_of_le_length (by omega), List.drop_of_length_le (by omega), List.nil_append]
  rw [MonFrame.num, h, hdrop]
  simp [leNat]

theorem byte_toNat {n : Nat} (h : n < 256) : (BitVec.ofNat 8 n).toNat = n := by
  rw [BitVec.toNat_ofNat, Nat.mod_eq_of_lt h]

end Payload

/-! ## Raising an event leaves the monitor's response -/

theorem trigOne_resp (e k : Nat) (d : Dev) : (trigOne e k d).mon.resp = d.mon.resp := by
  unfold trigOne
  dsimp only
  split
  · rfl
  · rfl

theorem routeTo_resp (p : HostPort) (v : Nat) (d : Dev) : (routeTo p v d).mon.resp = d.mon.resp := by
  unfold routeTo vecSet
  split
  · rfl
  · split
    · rfl
    · rfl

theorem raise_resp (e : Nat) (d : Dev) : (raise e d).mon.resp = d.mon.resp := by
  have htrig (x : Dev) : (forAll 4 (trigOne e) x).mon.resp = x.mon.resp :=
    forAll_keeps (π := fun y : Dev => y.mon.resp) (fun k y => trigOne_resp e k y) 4 x
  unfold raise raiseNow
  dsimp only
  split
  · rfl
  · split
    · rfl
    · rw [htrig, routeTo_resp, routeTo_resp]
      split
      · rfl
      · rfl

/-! ## READ (R387) -/

section Read
variable {snap d : Dev} {a n : Nat}

theorem bytes_add (m : Memory) (a k n : Nat) : m.bytes a (k + n) = m.bytes a k ++ m.bytes (a + k) n := by
  induction k generalizing a with
  | zero => rw [Nat.zero_add]; rfl
  | succ k ih =>
    have hk : k + 1 + n = (k + n) + 1 := by omega
    have ha : a + (k + 1) = a + 1 + k := by omega
    rw [hk, ha, Memory.bytes, Memory.bytes, ih, List.cons_append]

theorem devRead_monitor_bad (h : accessRegion a 4 = none) : devRead .monitor a 4 snap d = (List.replicate 4 0, false, d) := by
  rw [devRead, h]

/-- Words of the tick SRAM. -/
theorem monWords_sram (h : a + 4 * n ≤ 0x400000) : monWords snap n a d = some (d.sram.bytes a (4 * n), d) := by
  induction n generalizing a with
  | zero => rfl
  | succ n ih =>
    have h4 : 4 * (n + 1) = 4 + 4 * n := by omega
    rw [monWords, devRead_sram (by omega), h4, bytes_add]
    simp only [if_true, ih (show a + 4 + 4 * n ≤ 0x400000 by omega), Option.map_some]

/-- One word of the registers, whose read may latch an upper half. -/
theorem monWords_reg (h : accessRegion a 4 = some .regs) :
    monWords snap 1 a d = some (leBytes (readReg d snap .monitor a).toNat 4, latchHi .monitor a d) := by
  have hread : devRead .monitor a 4 snap d = (leBytes (readReg d snap .monitor a).toNat 4, true, latchHi .monitor a d) := by
    rw [devRead, h]
  rw [monWords, hread]
  simp only [if_true, monWords, Option.map_some, List.append_nil]

theorem monWords_bad (h : accessRegion a 4 = none) (n : Nat) : monWords snap (n + 1) a d = none := by
  rw [monWords, devRead_monitor_bad h]
  rfl

variable {s : State} {f : MonFrame}

/-- A well-formed READ, by what its words are. -/
theorem monRead_eq {b : Byte} (ha : a < 2 ^ 32) (h : f.payload = leBytes a 4 ++ [b]) (h1 : 1 ≤ b.toNat) (h16 : b.toNat ≤ 16) :
    monRead f s = match monWords s.snap b.toNat a s.dev with
      | some (bs, d) => (0, bs, d)
      | none => (4, [], s.dev) := by
  have hnum : MonFrame.num f 0 4 = a := (num_head h).trans (Nat.mod_eq_of_lt ha)
  have hlen : MonFrame.len f = 5 := by rw [len_eq h, List.length_append, leBytes_length]; rfl
  rw [monRead, num_byte h, hnum, hlen, if_neg (by omega)] <;> rfl

end Read

/-! ## CORE and TRACE (R387) -/

section Core
variable {s : State} {f : MonFrame} {k file first count : Byte}

theorem monCore_fields (h : f.payload = [k, file, first, count]) : MonFrame.len f = 4 ∧ MonFrame.num f 0 1 = k.toNat ∧
    MonFrame.num f 1 1 = file.toNat ∧ MonFrame.num f 2 1 = first.toNat ∧ MonFrame.num f 3 1 = count.toNat := by
  refine ⟨len_eq h, ?_, ?_, ?_, ?_⟩
  all_goals
    rw [MonFrame.num, h]
    simp [leNat]

/-- A CORE request whose selection is in range and fits. -/
theorem monCore_words (h : f.payload = [k, file, first, count]) (hk : k.toNat ≤ 5) {ws : List Word}
    (hw : coreWords (s.snap.core (Fin.ofNat 6 k.toNat)) file.toNat first.toNat count.toNat = some ws) (hlen : ws.length ≤ 16) :
    monCore f s = (0, wordBytes ws, s.dev) := by
  obtain ⟨h4, h0, h1, h2, h3⟩ := monCore_fields h
  rw [monCore, h4, h0, h1, h2, h3, if_neg (by omega), hw]
  exact if_neg (by omega)

theorem monCore_bad (h : f.payload = [k, file, first, count])
    (hw : 5 < k.toNat ∨ coreWords (s.snap.core (Fin.ofNat 6 k.toNat)) file.toNat first.toNat count.toNat = none) :
    monCore f s = (1, [], s.dev) := by
  obtain ⟨h4, h0, h1, h2, h3⟩ := monCore_fields h
  rw [monCore, h4, h0, h1, h2, h3]
  by_cases hk : 5 < k.toNat
  · exact if_pos (.inr hk)
  · rw [if_neg (by omega), hw.resolve_left hk]

/-- A selection of a file of n registers. -/
theorem coreWords_general {c : Core} {first count : Nat} (h1 : 1 ≤ count) (h : first + count ≤ 32) :
    coreWords c 0 first count = some ((List.range count).flatMap (fun i => [c.gr (Fin.ofNat 32 (first + i))])) :=
  if_neg (by omega)

theorem coreWords_accumulators {c : Core} {first count : Nat} (h1 : 1 ≤ count) (h : first + count ≤ 4) :
    coreWords c 2 first count = some ((List.range count).flatMap
      (fun i => [loWord c.a[Fin.ofNat 4 (first + i)], hiWord c.a[Fin.ofNat 4 (first + i)]])) :=
  if_neg (by omega)

theorem coreWords_none {c : Core} {file first count : Nat} (h : 3 < file ∨ count = 0) : coreWords c file first count = none := by
  unfold coreWords
  dsimp only
  split
  · exact if_pos (.inl (h.resolve_left (by decide)))
  · exact if_pos (.inl (h.resolve_left (by decide)))
  · exact if_pos (.inl (h.resolve_left (by decide)))
  · exact if_pos (.inl (h.resolve_left (by decide)))
  · rfl

theorem wordBytes_flatMap {ι : Type} (l : List ι) (g : ι → List Word) : wordBytes (l.flatMap g) = l.flatMap (fun i => wordBytes (g i)) :=
  List.flatMap_assoc

theorem wordBytes_map {ι : Type} (l : List ι) (g : ι → Word) : wordBytes (l.map g) = l.flatMap (fun i => leBytes (g i).toNat 4) :=
  List.flatMap_map ..

theorem leBytes_add (v m n : Nat) : leBytes v (m + n) = leBytes v m ++ leBytes (v / 256 ^ m) n := by
  induction m generalizing v with
  | zero => rw [Nat.zero_add, Nat.pow_zero, Nat.div_one]; rfl
  | succ m ih =>
    have hlen : m + 1 + n = (m + n) + 1 := by omega
    have hdiv : v / 256 ^ (m + 1) = v / 256 / 256 ^ m := by rw [Nat.div_div_eq_div_mul, Nat.pow_succ, Nat.mul_comm]
    rw [hlen, leBytes, leBytes, ih, hdiv, List.cons_append]

theorem leBytes_mod (v n : Nat) : leBytes (v % 256 ^ n) n = leBytes v n := by
  have h := leBytes_leNat (leBytes v n)
  rwa [leNat_leBytes, leBytes_length] at h

/-- The bytes of a doubleword are those of its low and its high word. -/
theorem wordBytes_halves (x : DWord) : wordBytes [loWord x, hiWord x] = leBytes x.toNat 8 := by
  have hlo : (loWord x).toNat = x.toNat % 2 ^ 32 := BitVec.toNat_setWidth 32 x
  have hhi : (hiWord x).toNat = x.toNat / 2 ^ 32 := by
    have hx : x.toNat < 2 ^ 64 := x.isLt
    rw [hiWord, BitVec.toNat_setWidth, BitVec.toNat_ushiftRight, Nat.shiftRight_eq_div_pow]
    omega
  have hsplit : leBytes x.toNat (4 + 4) = leBytes x.toNat 4 ++ leBytes (x.toNat / 256 ^ 4) 4 := leBytes_add _ 4 4
  rw [hsplit, ← leBytes_mod x.toNat 4, wordBytes, List.flatMap_cons, List.flatMap_cons, List.flatMap_nil, List.append_nil, hlo, hhi]
  rfl

/-- A TRACE request. -/
theorem monTrace_eq {e n : Nat} (he : e < 256) (h1 : 1 ≤ n) (h2 : n ≤ 2) (h : f.payload = leBytes e 2 ++ [BitVec.ofNat 8 n]) :
    monTrace f s = (0, wordBytes ((List.range (8 * n)).map (fun i => s.dev.reg (MON_TRBUF ((8 * e + i) % 2048)))), s.dev) := by
  have hlen : MonFrame.len f = 3 := by rw [len_eq h, List.length_append, leBytes_length]; rfl
  have hnum : MonFrame.num f 0 2 = e := (num_head h).trans (Nat.mod_eq_of_lt (by omega))
  have hbyte : MonFrame.num f 2 1 = n := (num_byte h).trans (byte_toNat (by omega))
  rw [monTrace, hlen, hnum, hbyte]
  exact if_neg (by omega)

end Core

/-- Settles O48: each request by its own lemma, and the response by `monRow_done` and `monRow_status`. -/
theorem monitorReads : Obligations.MonitorReads := by
  unfold Obligations.MonitorReads
  refine fun s f => ⟨fun hl => ⟨fun h => ?_, fun h => ?_, fun a n h1 h16 h4 ha h => ?_, fun a ha hreg hc he ht h => ?_, fun h => ?_,
      fun a n ha h1 h16 hbad h => ?_, fun k file first count h => ⟨fun hk hf h1 h16 h32 => ?_, fun hk hf h1 h4 => ?_, fun hbad => ?_⟩,
      fun e n he h1 h2 h => ?_, fun h => ?_, ?_⟩, fun h => ⟨?_, ?_⟩, rfl⟩
  · refine congrArg Host.Outcome.next (monRow_done hl 1 (g := monInfo f) (d := s.dev) ?_ rfl)
    rw [monInfo, len_eq h]
    rfl
  · refine congrArg Host.Outcome.next (monRow_status hl 1 (g := monInfo f) (pl := (monInfo f s).2.1) (d := s.dev) ?_ Nat.one_ne_zero rfl)
    have hlen : ¬ MonFrame.len f = 0 := fun hc => h (List.eq_nil_of_length_eq_zero hc)
    rw [monInfo, if_neg hlen]
  · have hn : (BitVec.ofNat 8 n).toNat = n := byte_toNat (by omega)
    refine congrArg Host.Outcome.next (monRow_done hl 2 (g := monRead f) (d := s.dev) ?_ rfl)
    rw [monRead_eq (by omega) h (by omega) (by omega), hn, monWords_sram ha]
  · refine congrArg Host.Outcome.next (monRow_done hl 2 (g := monRead f) (d := s.dev) ?_ rfl)
    rw [monRead_eq ha h (by decide) (by decide)]
    simp only [show (1 : Byte).toNat = 1 from rfl, monWords_reg hreg, latchHi_other .monitor hc he ht]
  · refine ⟨_, congrArg Host.Outcome.next (monRow_done hl 2 (g := monRead f)
      (d := { s.dev with mon := { s.dev.mon with hiCount := hiWord s.dev.tick.count } }) ?_ rfl), rfl⟩
    have hreg : accessRegion TCK_COUNT_LO 4 = some .regs := by decide
    rw [monRead_eq (by decide) h (by decide) (by decide)]
    simp only [show (1 : Byte).toNat = 1 from rfl, monWords_reg hreg]
    rfl
  · refine congrArg Host.Outcome.next (monRow_status hl 2 (g := monRead f) (pl := []) (d := s.dev) ?_ (by decide) rfl)
    obtain ⟨m, hm⟩ : ∃ m, n.toNat = m + 1 := ⟨n.toNat - 1, by omega⟩
    rw [monRead_eq ha h h1 h16, hm, monWords_bad hbad]
  · have hf0 : file.toNat = 0 := by rw [hf]; rfl
    refine congrArg Host.Outcome.next (monRow_done hl 4 (g := monCore f) (d := s.dev)
      ((monCore_words h hk (hf0 ▸ coreWords_general h1 h32) ?_).trans ?_) rfl)
    · simpa using h16
    · rw [wordBytes_flatMap]
      simp only [wordBytes, List.flatMap_cons, List.flatMap_nil, List.append_nil]
  · have hf2 : file.toNat = 2 := by rw [hf]; rfl
    refine congrArg Host.Outcome.next (monRow_done hl 4 (g := monCore f) (d := s.dev)
      ((monCore_words h hk (hf2 ▸ coreWords_accumulators h1 h4) ?_).trans ?_) rfl)
    · simp
      omega
    · rw [wordBytes_flatMap]
      simp only [wordBytes_halves]
  · refine congrArg Host.Outcome.next (monRow_status hl 4 (g := monCore f) (d := s.dev) (monCore_bad h ?_) Nat.one_ne_zero rfl)
    rcases hbad with hk | hf | hc
    · exact .inl hk
    · exact .inr (coreWords_none (.inl hf))
    · exact .inr (coreWords_none (.inr (by rw [hc]; rfl)))
  · refine congrArg Host.Outcome.next (monRow_done hl 10 (g := monTrace f) (d := s.dev) ((monTrace_eq he h1 h2 h).trans ?_) rfl)
    rw [wordBytes_map]
  · refine congrArg Host.Outcome.next (monRow_status hl 10 (g := monTrace f) (d := s.dev) (if_pos (.inl h)) Nat.one_ne_zero rfl)
  · have hraise : exec .monFrameError s = .next { s with dev := raise 246 s.dev } :=
      congrArg (fun d => (Host.Outcome.next { s with dev := d } : Out)) (if_pos (monServes_of_listens hl))
    refine ⟨_, hraise, raise_stuck (by decide) hl.2.2, raise_resp 246 s.dev, elsewhere_raise (elsewhere_refl _) 246⟩
  · exact congrArg Host.Outcome.next (monRow_deaf h 1 _)
  · exact congrArg Host.Outcome.next (monRow_deaf h 2 _)

end Sys2Proof.Proofs
end

section
/-! PROOFS. Sessions of the monitor (21_identity_monitor.md): UNLOCK and CLOSE (R388), writes (R389), tick hold and stepping (R391). -/
namespace Sys2Proof.Proofs
open Sys2Proof Sys2Proof.Machine Sys2Proof.Claims

theorem besideEvents_mon {a : Nat} (h : a / 0x10000 = 0x112) : BesideEvents a := by
  unfold BesideEvents
  omega

/-! ## A response changes the monitor alone -/

section Replied
variable {cmd st : Byte} {f : MonFrame} {pl : List Byte} {d e : Dev}

theorem replied_reg (cmd : Byte) (f : MonFrame) (st : Byte) (pl : List Byte) (d : Dev) (a : Nat) :
    (replied cmd f st pl d).reg a = d.reg a := rfl

theorem replied_flag (cmd : Byte) (f : MonFrame) (st : Byte) (pl : List Byte) (d : Dev) (a i : Nat) :
    (replied cmd f st pl d).flag a i = d.flag a i := rfl

theorem replied_elsewhere (h : Elsewhere d e) : Elsewhere d (replied cmd f st pl e) :=
  elsewhere_trans h ⟨rfl, rfl, rfl, rfl, ⟨rfl, rfl⟩, rfl, rfl, rfl, rfl⟩

end Replied

/-! ## UNLOCK (R388) -/

section Unlock
variable {s : State} {f : MonFrame} {c : Nat}

theorem monUnlock_eq (hc : c < 2 ^ 32) (h : f.payload = leBytes c 4) : monUnlock f s =
    if s.dev.mode ≠ .commission then (5, [], s.dev)
    else if !s.dev.flag MON_CFG 1 || decide (3 ≤ badCodes s.dev) then (3, [], s.dev)
    else if c ≠ s.dev.mon.code.toNat then (3, [], Dev.setFld MON_STAT 9 8 (badCodes s.dev + 1) s.dev)
    else if monOpen s.dev then (0, [], s.dev)
    else (0, [], raise 244 (Dev.setFlag MON_STAT 0 true s.dev)) := by
  have hlen : MonFrame.len f = 4 := by rw [len_eq h, leBytes_length]
  have hnum : MonFrame.num f 0 4 = c :=
    (num_head (l := []) (by rw [h, List.append_nil])).trans (Nat.mod_eq_of_lt hc)
  simp only [monUnlock, hlen, hnum]
  rfl

theorem unlock_open {d : Dev} (h : d.flag MON_CFG 1 = true) (h3 : d.fld MON_STAT 9 8 < 3) :
    (!d.flag MON_CFG 1 || decide (3 ≤ badCodes d)) = false := by
  rw [h, Bool.not_true, Bool.false_or]
  exact decide_eq_false (Nat.not_le.mpr h3)

theorem unlock_barred {d : Dev} (h : d.flag MON_CFG 1 = false ∨ d.fld MON_STAT 9 8 = 3) :
    (!d.flag MON_CFG 1 || decide (3 ≤ badCodes d)) = true := by
  rcases h with h | h
  · rw [h]
    rfl
  · rw [badCodes, h, Bool.or_eq_true]
    exact .inr rfl

end Unlock

/-! ## The tick runs on (R391) -/

section Release
variable {d : Dev}

/-- A release clears HELD and MON_STEPS, and lets a held tick run on. -/
theorem monRelease_parts (d : Dev) : ∃ m : SMap Word, monRelease d = { d with
    regs := m, tick := if monHeld d then { d.tick with due := d.now + d.period } else d.tick
    mon := { d.mon with holdReq := false, stepping := false } } := by
  unfold monRelease
  by_cases h : monHeld d = true
  · rw [if_pos h, if_pos h]
    exact ⟨_, rfl⟩
  · rw [if_neg h, if_neg h]
    exact ⟨_, rfl⟩

theorem monRelease_reg (d : Dev) (a : Nat) :
    (monRelease d).reg a = if a = MON_STEPS then 0 else (Dev.setFlag MON_STAT 1 false d).reg a := by
  have htick (x : Dev) (t : Tick) : (Dev.setFlag MON_STAT 1 false { x with tick := t }).reg a = (Dev.setFlag MON_STAT 1 false x).reg a := rfl
  have hrel : (monRelease d).reg a = ((Dev.setFlag MON_STAT 1 false
      (if monHeld d then { d with tick := { d.tick with due := d.now + d.period } } else d)).setReg MON_STEPS 0).reg a := rfl
  rw [hrel, Dev.reg_setReg]
  split
  · rfl
  · split
    · exact htick d _
    · rfl

theorem monRelease_held (d : Dev) : ¬ Held (monRelease d) := by
  rw [Held, Dev.flag, monRelease_reg, if_neg (by decide), ← Dev.flag, flag_setFlag_same (by decide)]
  decide

theorem monRelease_flag {i : Nat} (h : i ≠ 1) (d : Dev) : (monRelease d).flag MON_STAT i = d.flag MON_STAT i := by
  rw [Dev.flag, monRelease_reg, if_neg (by decide), ← Dev.flag, flag_setFlag_other h]

theorem monRelease_runsOn (h : Held d) : RunsOn d (monRelease d) := by
  obtain ⟨m, hm⟩ := monRelease_parts d
  refine ⟨Bool.eq_false_iff.mpr (monRelease_held d), ?_, ?_⟩
  · rw [hm]
    exact if_pos h
  · rw [hm]

theorem monRelease_tick (h : ¬ Held d) : (monRelease d).tick = d.tick := by
  obtain ⟨m, hm⟩ := monRelease_parts d
  rw [hm]
  exact if_neg h

theorem monRelease_ready (d : Dev) : (monRelease d).ready = d.ready := by
  obtain ⟨m, hm⟩ := monRelease_parts d
  rw [hm]

/-- A session's end closes it, and lets a held tick run on. -/
theorem monSessionEnd_shows (h : Session d) : ¬ Session (monSessionEnd d) ∧ ¬ Held (monSessionEnd d) ∧
    (Held d → RunsOn d (monSessionEnd d)) ∧ (¬ Held d → (monSessionEnd d).tick = d.tick) ∧ (monSessionEnd d).ready = d.ready := by
  have hend : monSessionEnd d = monRelease (Dev.setFlag MON_STAT 0 false d) := if_pos h
  have hheld : (Dev.setFlag MON_STAT 0 false d).flag MON_STAT 1 = d.flag MON_STAT 1 := flag_setFlag_other (by decide) _ _ _
  have hperiod : (Dev.setFlag MON_STAT 0 false d).period = d.period := by
    rw [Dev.period, Dev.reg_setFlag_other _ _ _ _ _ (by decide), ← Dev.period]
  rw [hend]
  refine ⟨?_, monRelease_held _, fun hh => ?_, fun hh => ?_, monRelease_ready _⟩
  · rw [Session, monRelease_flag (by decide), flag_setFlag_same (by decide)]
    decide
  · obtain ⟨hflag, htick, hreq⟩ := monRelease_runsOn (d := Dev.setFlag MON_STAT 0 false d) (hheld.trans hh)
    rw [hperiod] at htick
    exact ⟨hflag, htick, hreq⟩
  · exact monRelease_tick (fun hc => hh (hheld.symm.trans hc))

theorem monSessionEnd_closed (h : ¬ Session d) : monSessionEnd d = d := if_neg h

end Release

/-! ## Requests in a session (R388, R391) -/

section InSession
variable {s : State} {g : State → Nat × List Byte × Dev}

theorem inSession_open (h : Session s.dev) : inSession s true g = g s := if_pos h

theorem inSession_closed (h : ¬ Session s.dev) : inSession s true g = (2, [], s.dev) := if_neg h

theorem inSession_bad : inSession s false g = (1, [], s.dev) := rfl

end InSession

/-! ## STEP and BAUD (R387, R391) -/

section Step
variable {s : State} {f : MonFrame} {n : Nat}

theorem step_fields (hn : n < 65536) (h : f.payload = leBytes n 2) : MonFrame.len f = 2 ∧ MonFrame.num f 0 2 = n :=
  ⟨by rw [len_eq h, leBytes_length], (num_head (l := []) (by rw [h, List.append_nil])).trans (Nat.mod_eq_of_lt hn)⟩

/-- The device whose tick runs on for n ticks. -/
def stepping (n : Nat) (d : Dev) : Dev :=
  let e := (monRelease d).setReg MON_STEPS (word n)
  { e with mon := { e.mon with stepping := true } }

theorem monStep_held (hn : n < 65536) (h : f.payload = leBytes n 2) (hs : Session s.dev) (h1 : 1 ≤ n) (hh : Held s.dev) :
    monStep f s = (0, [], stepping n s.dev) := by
  obtain ⟨hlen, hnum⟩ := step_fields hn h
  have hok : (decide (2 = 2) && decide (n ≠ 0)) = true := by rw [decide_eq_true (show n ≠ 0 by omega)]; rfl
  have hnot : ¬ (!monHeld s.dev) = true := by rw [monHeld, hh]; decide
  rw [monStep, hlen, hnum, hok]
  exact (inSession_open hs).trans (if_neg hnot)

theorem monStep_free (hn : n < 65536) (h : f.payload = leBytes n 2) (hs : Session s.dev) (h1 : 1 ≤ n) (hh : ¬ Held s.dev) :
    monStep f s = (3, [], s.dev) := by
  obtain ⟨hlen, hnum⟩ := step_fields hn h
  have hok : (decide (2 = 2) && decide (n ≠ 0)) = true := by rw [decide_eq_true (show n ≠ 0 by omega)]; rfl
  have hnot : (!monHeld s.dev) = true := by rw [monHeld, Bool.eq_false_iff.mpr hh]; rfl
  rw [monStep, hlen, hnum, hok]
  exact (inSession_open hs).trans (if_pos hnot)

theorem stepping_shows (n : Nat) {d : Dev} (h : Held d) : RunsOn d (stepping n d) ∧ (stepping n d).mon.stepping = true ∧
    (stepping n d).reg MON_STEPS = word n ∧ (stepping n d).ready = d.ready := by
  obtain ⟨hflag, htick, hreq⟩ := monRelease_runsOn h
  have hready := monRelease_ready d
  unfold stepping
  generalize monRelease d = e at hflag htick hreq hready ⊢
  have hreg (a : Nat) (v : Word) (m : Mon) : ({ e.setReg MON_STEPS v with mon := m } : Dev).reg a = (e.setReg MON_STEPS v).reg a := rfl
  refine ⟨⟨?_, htick, hreq⟩, rfl, ?_, hready⟩
  · rw [Dev.flag, hreg, Dev.reg_setReg, if_neg (by decide), ← Dev.flag, hflag]
  · rw [hreg, Dev.reg_setReg, if_pos rfl]

theorem monBaud_sets (hn : n < 65536) (h : f.payload = leBytes n 2) (hs : Session s.dev) (h16 : 16 ≤ n) :
    monBaud f s = (0, [], s.dev.setReg MON_BAUD (word n)) := by
  obtain ⟨hlen, hnum⟩ := step_fields hn h
  have hok : (decide (2 = 2) && decide (16 ≤ n)) = true := by rw [decide_eq_true h16]; rfl
  rw [monBaud, hlen, hnum, hok]
  exact inSession_open hs

theorem monBaud_bad (hn : n < 65536) (h : f.payload = leBytes n 2) (h16 : n < 16) : monBaud f s = (1, [], s.dev) := by
  obtain ⟨hlen, hnum⟩ := step_fields hn h
  have hok : (decide (2 = 2) && decide (16 ≤ n)) = false := by rw [decide_eq_false (Nat.not_le.mpr h16)]; rfl
  rw [monBaud, hlen, hnum, hok]
  exact inSession_bad

end Step

/-! ## Words of a monitor write (R389) -/

section Write
variable {s : State} {f : MonFrame} {a : Nat} {w : Word}

theorem wordsOf_leBytes (w : Word) : wordsOf (leBytes w.toNat 4) = [w] := by
  have hnum : leNat (leBytes w.toNat 4) = w.toNat := (leNat_leBytes _ _).trans (Nat.mod_eq_of_lt w.isLt)
  have hwords : wordsOf (leBytes w.toNat 4) = [BitVec.ofNat 32 (leNat (leBytes w.toNat 4))] := rfl
  rw [hwords, hnum, BitVec.ofNat_toNat, BitVec.setWidth_eq]

theorem wordsOf_length (l : List Byte) : (wordsOf l).length = l.length / 4 := by
  induction l using wordsOf.induct with
  | case1 b0 b1 b2 b3 t ih =>
    rw [wordsOf, List.length_cons, ih]
    simp only [List.length_cons]
    omega
  | case2 l h =>
    have hshort : l.length < 4 := by
      match l, h with
      | [], _ => simp
      | [_], _ => simp
      | [_, _], _ => simp
      | [_, _, _], _ => simp
      | b0 :: b1 :: b2 :: b3 :: t, h => exact absurd rfl (h b0 b1 b2 b3 t)
    rw [wordsOf, Nat.div_eq_of_lt hshort]
    · rfl
    · exact h

/-- A write of one word in a session. -/
theorem monWrite_word (ha : a < 2 ^ 32) (hs : Session s.dev) (h : f.payload = leBytes a 4 ++ leBytes w.toNat 4) : monWrite f s =
    if (accessRegion a 4).isNone then (4, [], s.dev)
    else if monRefused a then (3, [], s.dev)
    else (if (monWord (hrnDemand s.snap) a w s.dev).1 then 3 else 0, [], raise 245 (monWord (hrnDemand s.snap) a w s.dev).2) := by
  have hlen : MonFrame.len f = 8 := by rw [len_eq h, List.length_append, leBytes_length, leBytes_length]
  have hnum : MonFrame.num f 0 4 = a := (num_head h).trans (Nat.mod_eq_of_lt ha)
  have hwords : wordsOf (f.payload.drop 4) = [w] := by
    rw [h, List.drop_append_of_le_length (by rw [leBytes_length]), List.drop_of_length_le (by rw [leBytes_length]), List.nil_append,
      wordsOf_leBytes]
  simp only [monWrite, hlen, hnum, hwords, List.zipIdx_cons, List.zipIdx_nil, List.map_cons, List.map_nil, List.any_cons,
    List.any_nil, Bool.or_false, monWriteAll, Nat.mul_zero, Nat.add_zero]
  exact inSession_open hs

theorem monWord_sram (h : a + 4 ≤ 0x400000) (demand : Bool) (w : Word) (d : Dev) :
    monWord demand a w d = (false, stageHost .monitor (.sram a 4 w.toNat) d) := by
  rw [monWord, accessRegion_sram (by decide) h]
  rfl

theorem monRefused_sram (h : a + 4 ≤ 0x400000) : monRefused a = false := by
  have hlist : ∀ x ∈ [SYS_CMD, SYS_MODEREQ, LIM_LOADCMD, HRN_SEALCMD, TDL_NVCMD, CEL_CMD, FLT_STAT, SYS_HOLDCAUSE], 0x400000 ≤ x := by
    decide
  have hmem : a ∉ [SYS_CMD, SYS_MODEREQ, LIM_LOADCMD, HRN_SEALCMD, TDL_NVCMD, CEL_CMD, FLT_STAT, SYS_HOLDCAUSE] :=
    fun hc => absurd (hlist a hc) (by omega)
  have hcontains : [SYS_CMD, SYS_MODEREQ, LIM_LOADCMD, HRN_SEALCMD, TDL_NVCMD, CEL_CMD, FLT_STAT, SYS_HOLDCAUSE].contains a = false := by
    rw [Bool.eq_false_iff, Ne, List.contains_iff_mem]
    exact hmem
  have hprop : decide (HRN_PROP 0 ≤ a) = false := decide_eq_false (by unfold HRN_PROP; omega)
  rw [monRefused, regionOf_sram (by omega), hcontains, hprop, decide_eq_false (show a / 0x10000 ≠ 0x102 by omega),
    decide_eq_false (show a / 0x10000 ≠ 0x112 by omega)]
  rfl

/-- A write without a session that is well formed. -/
theorem monWrite_closed (hs : ¬ Session s.dev) (h4 : f.payload.length % 4 = 0) (h8 : 8 ≤ f.payload.length) (h64 : f.payload.length ≤ 64) :
    monWrite f s = (2, [], s.dev) := by
  have hok : (decide (MonFrame.len f % 4 = 0) && decide (1 ≤ (wordsOf (f.payload.drop 4)).length) &&
      decide ((wordsOf (f.payload.drop 4)).length ≤ 15)) = true := by
    rw [wordsOf_length, List.length_drop, MonFrame.len]
    simp only [Bool.and_eq_true, decide_eq_true_eq]
    omega
  simp only [monWrite, hok, inSession_closed hs]

end Write

/-! ## The edge that ends the last stepped tick (R391) -/

theorem monEdge_lastStep {d : Dev} (hstep : d.mon.stepping = true) (h1 : d.reg MON_STEPS = 1) (hs : Session d) :
    Held (monEdge true d) ∧ (monEdge true d).reg MON_STEPS = 0 := by
  have hsteps : (d.setReg MON_STEPS (d.reg MON_STEPS - 1)).reg MON_STEPS = 0 := by
    rw [Dev.reg_setReg, if_pos rfl, h1]
    rfl
  have hopen : monOpen (d.setReg MON_STEPS (d.reg MON_STEPS - 1)) = true := by
    rw [monOpen, Dev.flag, Dev.reg_setReg, if_neg (by decide)]
    exact hs
  have hstop : (d.setReg MON_STEPS (d.reg MON_STEPS - 1)).mon.stepping = true := hstep
  have hedge : ∃ (m m' : Mon), monEdge true d = { (Dev.setFlag MON_STAT 1 true
      { d.setReg MON_STEPS (d.reg MON_STEPS - 1) with mon := m }).setReg MON_STEPS 0 with mon := m' } := by
    unfold monEdge
    rw [hstep, Bool.and_true, if_pos rfl]
    generalize d.setReg MON_STEPS (d.reg MON_STEPS - 1) = e at hsteps hopen hstop
    dsimp only
    rw [hopen, hstop, hsteps, decide_eq_true rfl, Bool.and_true, Bool.or_true, Bool.true_or, Bool.and_true, if_pos rfl]
    exact ⟨_, _, rfl⟩
  obtain ⟨m, m', he⟩ := hedge
  generalize d.setReg MON_STEPS (d.reg MON_STEPS - 1) = e at he
  have hreg (a : Nat) : (monEdge true d).reg a = ((Dev.setFlag MON_STAT 1 true { e with mon := m }).setReg MON_STEPS 0).reg a := by
    rw [he]
    rfl
  refine ⟨?_, ?_⟩
  · rw [Held, Dev.flag, hreg, Dev.reg_setReg, if_neg (by decide), ← Dev.flag, flag_setFlag_same (by decide)]
  · rw [hreg, Dev.reg_setReg, if_pos rfl]

/-! ## MON_CODE (R388) -/

theorem exec_monCodeWrite {p : HostPort} {s : State} (hs : Holds p s) (v : Word) :
    exec (.monCodeWrite p v) s = .next { s with dev := writeMonCode v s.dev } :=
  congrArg Host.Outcome.next (regRow_ruled (c := 0) hs (by unfold RegAddr MON_CODE; omega) (by decide) (by decide) (by decide) rfl rfl)

/-- The targets that a monitor write may not name. -/
theorem monRefused_targets : ∀ a ∈ [SYS_CMD, SYS_MODEREQ, LIM_LOADCMD, HRN_SEALCMD, HRN_PROP 0, TDL_NVCMD, CEL_CMD, FLT_STAT, SYS_HOLDCAUSE,
    HST_HB, MON_CFG, MON_CODE, 0x2000000], a < 2 ^ 32 ∧ (accessRegion a 4).isNone = false ∧ monRefused a = true := by decide

/-- Settles O49: each request by its own lemma, the response by `monRow_done` and `monRow_status`. -/
theorem monitorSessions : Obligations.MonitorSessions := by
  unfold Obligations.MonitorSessions
  refine ⟨fun s f hl => ⟨fun c hc h => ⟨fun hm ha h3 => ⟨fun hcode hs => ?_, fun hcode => ?_⟩, fun hm hbar => ?_, fun hm => ?_⟩,
      fun h => ⟨fun hs => ?_, fun hs hh => ?_, fun hs hh => ?_, fun hs => ⟨?_, ?_⟩⟩,
      fun n hn h hs => ⟨fun h1 hh => ?_, fun h1 hh => ?_, fun h16 => ?_, fun h16 => ?_⟩,
      fun a w hs h => ⟨fun h4 ha => ?_, fun ha => ?_⟩, fun w hw hs h4 h8 h64 => ?_⟩,
    fun s => ⟨fun hs => ?_, fun hs => ?_, fun hstep h1 hphase => ?_⟩, fun d hstep h1 hs => monEdge_lastStep hstep h1 hs,
    fun p s v hs => ⟨_, exec_monCodeWrite hs v, rfl, ?_, ?_, rfl, fun a ha => ?_⟩⟩
  · have hx : Raises (Dev.setFlag MON_STAT 0 true s.dev) :=
      raises_of_regs hl.2.2 rfl (Dev.reg_setFlag_other _ _ _ _ _ (by decide))
    have hready : (raise 244 (Dev.setFlag MON_STAT 0 true s.dev)).ready = s.dev.ready := ready_of_eventsOnly (raise_frame 244 _)
    have hopen : monUnlock f s = (0, [], raise 244 (Dev.setFlag MON_STAT 0 true s.dev)) := by
      rw [monUnlock_eq hc h, if_neg (not_not.mpr hm), unlock_open ha h3, if_neg (by decide), if_neg (not_not.mpr hcode.symm)]
      exact if_neg hs
    refine ⟨_, congrArg Host.Outcome.next (monRow_done hl 5 hopen hready), ?_, raise_stuck (by decide) hx, rfl,
      replied_elsewhere (elsewhere_raise ?_ 244)⟩
    · rw [Session, replied_flag, Dev.flag, raise_reg_beside (besideEvents_mon rfl), ← Dev.flag, flag_setFlag_same (by decide)]
    · exact ⟨rfl, rfl, rfl, rfl, ⟨rfl, rfl⟩, rfl, rfl, rfl, rfl⟩
  · have hcount : monUnlock f s = (3, [], Dev.setFld MON_STAT 9 8 (badCodes s.dev + 1) s.dev) := by
      rw [monUnlock_eq hc h, if_neg (not_not.mpr hm), unlock_open ha h3, if_neg (by decide), if_pos (fun hc => hcode hc.symm)]
    refine ⟨_, congrArg Host.Outcome.next (monRow_status hl 5 hcount (by decide) rfl), ?_, ?_, rfl, ?_⟩
    · exact fld_setFld (by decide) (show badCodes s.dev + 1 < 4 from Nat.succ_lt_succ h3)
    · rw [replied_flag, Dev.flag, Dev.reg_setFld, bit_setBits_other (by decide), ← Dev.flag]
    · exact ⟨rfl, rfl, rfl, rfl, ⟨rfl, rfl⟩, rfl, rfl, rfl, rfl⟩
  · refine congrArg Host.Outcome.next (monRow_status hl 5 (g := monUnlock f) (st := 3) (pl := []) (d := s.dev) ?_ (by decide) rfl)
    rw [monUnlock_eq hc h, if_neg (not_not.mpr hm), if_pos (unlock_barred hbar)]
  · refine congrArg Host.Outcome.next (monRow_status hl 5 (g := monUnlock f) (st := 5) (pl := []) (d := s.dev) ?_ (by decide) rfl)
    rw [monUnlock_eq hc h, if_pos hm]
  · obtain ⟨hclosed, hfree, hruns, htick, hready⟩ := monSessionEnd_shows hs
    have hclose : monClose f s = (0, [], monSessionEnd s.dev) := if_neg (not_not.mpr (len_eq h))
    exact ⟨_, congrArg Host.Outcome.next (monRow_done hl 6 hclose hready), hclosed, hfree, rfl, hruns, htick⟩
  · have hhold : monHold f s = (0, [], { s.dev with mon := { s.dev.mon with holdReq := true } }) := by
      rw [monHold, len_eq h]
      refine (inSession_open hs).trans ?_
      exact congrArg (fun d => (0, [], d)) (if_neg hh)
    exact ⟨_, congrArg Host.Outcome.next (monRow_done hl 7 hhold rfl), rfl⟩
  · have hfree : monFree f s = (0, [], monRelease s.dev) := by
      rw [monFree, len_eq h]
      exact inSession_open hs
    refine ⟨_, congrArg Host.Outcome.next (monRow_done hl 9 hfree (monRelease_ready _)), ?_, monRelease_runsOn hh, rfl⟩
    exact (monRelease_flag (by decide) s.dev).trans hs
  · refine congrArg Host.Outcome.next (monRow_status hl 7 (g := monHold f) (st := 2) (pl := []) (d := s.dev) ?_ (by decide) rfl)
    rw [monHold, len_eq h]
    exact inSession_closed hs
  · refine congrArg Host.Outcome.next (monRow_status hl 9 (g := monFree f) (st := 2) (pl := []) (d := s.dev) ?_ (by decide) rfl)
    rw [monFree, len_eq h]
    exact inSession_closed hs
  · obtain ⟨hruns, hstepping, hsteps, hready⟩ := stepping_shows n hh
    exact ⟨_, congrArg Host.Outcome.next (monRow_done hl 8 (monStep_held hn h hs h1 hh) hready), hruns, hstepping, hsteps, rfl⟩
  · exact congrArg Host.Outcome.next (monRow_status hl 8 (monStep_free hn h hs h1 hh) (by decide) rfl)
  · exact congrArg Host.Outcome.next (monRow_done hl 11 (monBaud_sets hn h hs h16) rfl)
  · exact congrArg Host.Outcome.next (monRow_status hl 11 (monBaud_bad hn h h16) (by decide) rfl)
  · have hword := monWrite_word (by omega) hs h
    rw [accessRegion_sram (by decide) ha, monRefused_sram ha, monWord_sram ha] at hword
    obtain ⟨t, ht⟩ := stageHost_frame .monitor (.sram a 4 w.toNat) s.dev
    have hx : Raises (stageHost .monitor (.sram a 4 w.toNat) s.dev) := by
      rw [ht]
      exact raises_of_regs hl.2.2 rfl rfl
    have hstuck : Stuck 245 (raise 245 (stageHost .monitor (.sram a 4 w.toNat) s.dev)) := raise_stuck (by decide) hx
    obtain ⟨r, v, m, hr⟩ := raise_frame 245 (stageHost .monitor (.sram a 4 w.toNat) s.dev)
    have hkept : (raise 245 (stageHost .monitor (.sram a 4 w.toNat) s.dev)).ready = s.dev.ready ∧
        (raise 245 (stageHost .monitor (.sram a 4 w.toNat) s.dev)).tick = (stageHost .monitor (.sram a 4 w.toNat) s.dev).tick ∧
        (raise 245 (stageHost .monitor (.sram a 4 w.toNat) s.dev)).sram = s.dev.sram ∧
        (raise 245 (stageHost .monitor (.sram a 4 w.toNat) s.dev)).cores = s.dev.cores ∧
        (raise 245 (stageHost .monitor (.sram a 4 w.toNat) s.dev)).mode = s.dev.mode := by
      rw [hr, ht]
      exact ⟨rfl, rfl, rfl, rfl, rfl⟩
    obtain ⟨hready, htick, hsram, hcores, hmode⟩ := hkept
    have hdone : monWrite f s = (0, [], raise 245 (stageHost .monitor (.sram a 4 w.toNat) s.dev)) := hword
    exact ⟨_, congrArg Host.Outcome.next (monRow_done hl 3 hdone hready), htick, hstuck, rfl, hsram, hcores, hmode⟩
  · obtain ⟨hlt, hregion, hrefused⟩ := monRefused_targets a ha
    refine congrArg Host.Outcome.next (monRow_status hl 3 (g := monWrite f) (st := 3) (pl := []) (d := s.dev) ?_ (by decide) rfl)
    rw [monWrite_word hlt hs h, hregion, hrefused]
    rfl
  · subst hw
    exact congrArg Host.Outcome.next (monRow_status hl 3 (g := monWrite f) (st := 2) (pl := []) (d := s.dev)
      (monWrite_closed hs h4 h8 h64) (by decide) rfl)
  · obtain ⟨hclosed, hfree, hruns, -, -⟩ := monSessionEnd_shows hs
    exact ⟨_, rfl, hclosed, hfree, hruns⟩
  · exact congrArg (fun d => (Host.Outcome.next { s with dev := d } : Out)) (monSessionEnd_closed hs)
  · refine congrArg Host.Outcome.next (if_pos ?_)
    rw [hstep, decide_eq_true h1, decide_eq_true hphase]
    rfl
  · exact fld_setFld (by decide) (by decide)
  · rw [writeMonCode, Dev.flag, Dev.reg_setFld, bit_setBits_other (by decide)]
    rfl
  · exact Dev.reg_setFld_other _ _ _ _ _ _ (fun hc => ha (List.mem_singleton.mpr hc))

end Sys2Proof.Proofs
end

section
/-! PROOFS. Camera receivers (11_vision.md): frames and their buffers (R224 to R227). -/
namespace Sys2Proof.Proofs
open Sys2Proof Sys2Proof.Machine Sys2Proof.Claims

/-! ## A receiver's state -/

section Rx
variable {p : Fin 2} {d e : Dev}

theorem rx_setRx (d : Dev) (p : Fin 2) (x : Rx) : (d.setRx p x).rx p = x := by simp [Dev.rx, Dev.setRx]

theorem setRx_rx (d : Dev) (p : Fin 2) : d.setRx p (d.rx p) = d := by
  simp [Dev.rx, Dev.setRx]

theorem setRx_setRx (d : Dev) (p : Fin 2) (x y : Rx) : (d.setRx p x).setRx p y = d.setRx p y := by
  simp [Dev.setRx]

theorem offEvents_vis {a : Nat} (h : a / 0x10000 = 0x108) : OffEvents a := offEvents_of_block (by omega) (by omega)

theorem offEvents_csiStat (p : Fin 2) : OffEvents (VIS_CSI_STAT p) := offEvents_vis (by unfold VIS_CSI_STAT; omega)

theorem offEvents_csiDrops (p : Fin 2) : OffEvents (VIS_CSI_DROPS p) := offEvents_vis (by unfold VIS_CSI_DROPS; omega)

theorem drops_ne_stat (p : Fin 2) : VIS_CSI_DROPS p ≠ VIS_CSI_STAT p := by unfold VIS_CSI_DROPS VIS_CSI_STAT; omega

/-- Marks of causes in STAT. -/
def causesMarked (p : Fin 2) (causes : List Nat) (d : Dev) : Dev :=
  causes.foldl (fun d i => Dev.setFlag (VIS_CSI_STAT p) i true d) d

theorem causesMarked_regs (p : Fin 2) (causes : List Nat) (d : Dev) : RegsOnly d (causesMarked p causes d) :=
  List.foldlRecOn (motive := RegsOnly d) _ _ (regsOnly_refl d) (fun _ he _ _ => regsOnly_setFlag he _ _ _)

theorem causesMarked_reg {a : Nat} (h : a ≠ VIS_CSI_STAT p) (causes : List Nat) (d : Dev) :
    (causesMarked p causes d).reg a = d.reg a :=
  List.foldlRecOn (motive := fun e : Dev => e.reg a = d.reg a) _ _ rfl
    (fun _ he _ _ => (Dev.reg_setFlag_other _ _ _ _ _ h).trans he)

/-- A mark that stands stays. -/
theorem causesMarked_keeps {i : Nat} (hi : i < 32) (causes : List Nat) (h : d.flag (VIS_CSI_STAT p) i = true) :
    (causesMarked p causes d).flag (VIS_CSI_STAT p) i = true := by
  refine List.foldlRecOn (motive := fun e : Dev => e.flag (VIS_CSI_STAT p) i = true) _ _ h (fun e he j _ => ?_)
  by_cases hj : j = i
  · subst hj
    exact flag_setFlag_same hi _ _ _
  · exact (flag_setFlag_other (Ne.symm hj) _ _ _).trans he

theorem causesMarked_flag {i : Nat} (hi : i < 32) {causes : List Nat} (h : i ∈ causes) (d : Dev) :
    (causesMarked p causes d).flag (VIS_CSI_STAT p) i = true := by
  induction causes generalizing d with
  | nil => exact absurd h List.not_mem_nil
  | cons j l ih =>
    rcases List.mem_cons.mp h with rfl | hl
    · exact causesMarked_keeps hi l (flag_setFlag_same hi _ _ _)
    · exact ih hl _

theorem rxDrop_eq (p : Fin 2) (causes : List Nat) (d : Dev) :
    rxDrop p causes d = raise (152 + p) (causesMarked p causes (Dev.count1 (VIS_CSI_DROPS p) d)) := rfl

theorem evReserved_drop (p : Fin 2) : evReserved (152 + p) = false := by
  have hall : ∀ p : Fin 2, evReserved (152 + p) = false := by decide
  exact hall p

/-- A dropped frame is counted, its causes stand in STAT, and event 152 + p stands. -/
theorem rxDrop_shows (hr : Raises d) (p : Fin 2) (causes : List Nat) : EventsOnly d (rxDrop p causes d) ∧
    (rxDrop p causes d).reg (VIS_CSI_DROPS p) = d.reg (VIS_CSI_DROPS p) + 1 ∧
    (∀ i, i < 32 → i ∈ causes → (rxDrop p causes d).flag (VIS_CSI_STAT p) i = true) ∧ Stuck (152 + p) (rxDrop p causes d) := by
  have hne : SYS_PWRSTAT ≠ VIS_CSI_STAT p ∧ SYS_PWRSTAT ≠ VIS_CSI_DROPS p := by
    unfold VIS_CSI_STAT VIS_CSI_DROPS SYS_PWRSTAT
    omega
  obtain ⟨m, hm⟩ := causesMarked_regs p causes (Dev.count1 (VIS_CSI_DROPS p) d)
  have hpw : (causesMarked p causes (Dev.count1 (VIS_CSI_DROPS p) d)).pw = d.pw := by rw [hm]; rfl
  rw [rxDrop_eq]
  refine ⟨?_, ?_, fun i hi hmem => ?_, raise_stuck (evReserved_drop p) (raises_of_regs hr hpw ?_)⟩
  · refine EventsOnly.trans ?_ (raise_frame _ _)
    exact ⟨m, d.ev, d.mon, hm⟩
  · rw [raise_reg (offEvents_csiDrops p), causesMarked_reg (drops_ne_stat p), Dev.reg_count1]
  · rw [Dev.flag, raise_reg (offEvents_csiStat p), ← Dev.flag, causesMarked_flag hi hmem]
  · rw [causesMarked_reg hne.1, Dev.reg_count1_other _ _ _ hne.2]

theorem rxBusy_regs (p : Fin 2) (d : Dev) : RegsOnly d (rxBusy p d) := regsOnly_setFlag (regsOnly_refl d) _ _ _

theorem rxBusy_rx (p : Fin 2) (d : Dev) : (rxBusy p d).rx p = d.rx p := rfl

theorem rxBusy_flag (p : Fin 2) (d : Dev) : (rxBusy p d).flag (VIS_CSI_STAT p) 6 = (d.rx p).recv.isSome :=
  flag_setFlag_same (by decide) _ _ _

theorem rxBusy_flag_other {i : Nat} (h : i ≠ 6) (p : Fin 2) (d : Dev) :
    (rxBusy p d).flag (VIS_CSI_STAT p) i = d.flag (VIS_CSI_STAT p) i := flag_setFlag_other h _ _ _

theorem rxBusy_reg {a : Nat} (h : a ≠ VIS_CSI_STAT p) (d : Dev) : (rxBusy p d).reg a = d.reg a :=
  Dev.reg_setFlag_other _ _ _ _ _ h

/-- BUSY is no event. -/
theorem rxBusy_stuck {e : Nat} (p : Fin 2) (d : Dev) : Stuck e (rxBusy p d) ↔ Stuck e d := by
  have hne : EVT_STICKY (e / 32) ≠ VIS_CSI_STAT p := by unfold EVT_STICKY VIS_CSI_STAT; omega
  rw [Stuck, Stuck, Dev.flag, rxBusy_reg hne, ← Dev.flag]

theorem elsewhere_setRx (d : Dev) (p : Fin 2) (x : Rx) : Elsewhere d (d.setRx p x) :=
  ⟨rfl, rfl, rfl, rfl, ⟨rfl, rfl⟩, rfl, rfl, rfl, rfl⟩

end Rx

/-! ## Frame Start (R224, R226) -/

section Start
variable {p : Fin 2} {s : State} {vc : Fin 4} {ts : DWord} {d : Dev}

theorem exec_frameStart (h : s.dev.ready = true) (p : Fin 2) (vc : Fin 4) (ts : DWord) :
    exec (.frameStart p ⟨vc, ts⟩) s = .next { s with dev := frameStart p vc ts (s.dev.reachTs ts) } :=
  onReady_ready h (fun d => frameStart p vc ts (d.reachTs ts))

theorem csiTakes_own (h0 : d.flag (VIS_CSI_CFG p) 0 = true) (hs : d.pw.stopped = false) (hv : d.fld (VIS_CSI_CFG p) 4 3 = vc.val) :
    csiTakes d p vc = true := by
  rw [csiTakes, h0, hs, decide_eq_true hv]
  rfl

theorem csiTakes_other (h : d.flag (VIS_CSI_CFG p) 0 = false ∨ d.fld (VIS_CSI_CFG p) 4 3 ≠ vc.val) : csiTakes d p vc = false := by
  rcases h with h | h
  · rw [csiTakes, h]
    rfl
  · rw [csiTakes, decide_eq_false h, Bool.and_false]

theorem frameStart_ignored (h : csiTakes d p vc = false) : frameStart p vc ts d = d := by
  rw [frameStart, h]
  rfl

/-- The buffer that a Frame Start finds. -/
def freeBuf (p : Fin 2) (d : Dev) : Option Nat :=
  (List.range (d.fld (VIS_CSI_CFG p) 19 16)).find? (fun b => !(heldBufs d p).contains b)

theorem frameStart_full (h : csiTakes d p vc = true) (hr : (d.rx p).recv = none) (hb : freeBuf p d = none) :
    frameStart p vc ts d = rxBusy p (rxDrop p [4] d) := by
  unfold freeBuf at hb
  simp only [frameStart, h, hr, Option.isSome_none, Bool.not_true, Bool.false_eq_true, if_false, hb]

/-- A frame in its buffer, which holds the camera's pixels. -/
def bufTaken (p : Fin 2) (ts : DWord) (b : Nat) (d : Dev) : Dev :=
  (openArea (csiPixels d p b) d).tickFree.setRx p { d.rx p with recv := some (ts, b) }

theorem frameStart_taken {b : Nat} (h : csiTakes d p vc = true) (hr : (d.rx p).recv = none) (hb : freeBuf p d = some b) :
    frameStart p vc ts d = rxBusy p (bufTaken p ts b d) := by
  unfold freeBuf at hb
  simp only [frameStart, h, hr, Option.isSome_none, Bool.not_true, Bool.false_eq_true, if_false, hb]
  rfl

theorem freeBuf_none (h : ∀ b, b < d.fld (VIS_CSI_CFG p) 19 16 → (heldBufs d p).contains b = true) : freeBuf p d = none := by
  refine List.find?_eq_none.mpr (fun b hb => ?_)
  rw [h b (List.mem_range.mp hb)]
  decide

end Start

/-! ## Frame End (R225) -/

section End
variable {p : Fin 2} {vc : Fin 4} {pk : List CsiPacket} {f : DWord × Nat} {d : Dev}

theorem frameEnd_ignored (h : csiTakes d p vc = false) : frameEnd p vc pk d = d := by
  unfold frameEnd
  dsimp only
  split
  · rfl
  · rw [h]
    rfl

theorem frameEnd_eq (h : csiTakes d p vc = true) (hr : (d.rx p).recv = some f) : frameEnd p vc pk d = rxBusy p
    (if (csiDamage d p pk).isEmpty then d.setRx p { d.rx p with recv := none, ended := (d.rx p).ended ++ [f] }
     else rxDrop p (csiDamage d p pk) (d.setRx p { d.rx p with recv := none })) := by
  simp only [frameEnd, hr, h, Bool.not_true, Bool.false_eq_true, if_false, rx_setRx, setRx_setRx]

/-- The size of the frame's lines, as the receiver checks it. -/
def sizeWrong (d : Dev) (p : Fin 2) (pk : List CsiPacket) : Bool :=
  (frameLines d p pk).any (fun k => decide (k.width ≠ d.fld (VIS_CSI_SIZE p) 12 0)) ||
    decide ((frameLines d p pk).length ≠ d.fld (VIS_CSI_SIZE p) 28 16)

theorem csiDamage_eq (d : Dev) (p : Fin 2) (pk : List CsiPacket) : csiDamage d p pk =
    (if pk.any (·.ecc) then [1] else []) ++ (if (frameLines d p pk).any (·.crc) then [2] else []) ++
      (if sizeWrong d p pk then [3] else []) := rfl

theorem sizeWrong_iff : sizeWrong d p pk = true ↔ ¬ frameSized d p pk := by
  rw [sizeWrong, frameSized, Bool.or_eq_true, List.any_eq_true, decide_eq_true_eq, not_and_or, or_comm]
  simp only [decide_eq_true_eq, not_forall, exists_prop, ne_eq]

theorem anyEcc_iff : pk.any (·.ecc) = true ↔ ∃ k, k ∈ pk ∧ k.ecc = true := List.any_eq_true

theorem anyCrc_iff : (frameLines d p pk).any (·.crc) = true ↔ ∃ k, k ∈ frameLines d p pk ∧ k.crc = true := List.any_eq_true

/-- The causes of damage, each by its bit. -/
theorem mem_csiDamage : (1 ∈ csiDamage d p pk ↔ ∃ k, k ∈ pk ∧ k.ecc = true) ∧
    (2 ∈ csiDamage d p pk ↔ ∃ k, k ∈ frameLines d p pk ∧ k.crc = true) ∧ (3 ∈ csiDamage d p pk ↔ ¬ frameSized d p pk) := by
  rw [← anyEcc_iff, ← anyCrc_iff, ← sizeWrong_iff, csiDamage_eq]
  cases pk.any (·.ecc) <;> cases (frameLines d p pk).any (·.crc) <;> cases sizeWrong d p pk <;> decide

theorem csiDamage_empty : (csiDamage d p pk).isEmpty = true ↔
    (∀ k, k ∈ pk → k.ecc = false) ∧ (∀ k, k ∈ frameLines d p pk → k.crc = false) ∧ frameSized d p pk := by
  have hempty : (csiDamage d p pk).isEmpty = (!pk.any (·.ecc) && !(frameLines d p pk).any (·.crc) && !sizeWrong d p pk) := by
    rw [csiDamage_eq]
    cases pk.any (·.ecc) <;> cases (frameLines d p pk).any (·.crc) <;> cases sizeWrong d p pk <;> rfl
  have hsize : (!sizeWrong d p pk) = true ↔ frameSized d p pk := by
    rw [Bool.not_eq_true', Bool.eq_false_iff, Ne, sizeWrong_iff, not_not]
  rw [hempty, Bool.and_eq_true, Bool.and_eq_true, hsize, and_assoc]
  simp only [Bool.not_eq_true', List.any_eq_false, Bool.not_eq_true]

end End

theorem exec_frameEnd {s : State} (h : s.dev.ready = true) (p : Fin 2) (vc : Fin 4) (pk : List CsiPacket) :
    exec (.frameEnd p ⟨vc, pk⟩) s = .next { s with dev := frameEnd p vc pk s.dev } := onReady_ready h (frameEnd p vc pk)

/-- Event 152 + p in its sticky word. -/
theorem stuck_drop {p : Fin 2} {d : Dev} (h : Stuck (152 + p) d) : d.flag (EVT_STICKY 4) (24 + p) = true := by
  have hword : (152 + p.val) / 32 = 4 := by omega
  have hbit : (152 + p.val) % 32 = 24 + p.val := by omega
  rw [Stuck, hword, hbit] at h
  exact h

/-- Settles O25: Frame Start, Frame End and the controller's last line, each by the lemma of its case. -/
theorem cameraFrames : Obligations.CameraFrames := by
  unfold Obligations.CameraFrames
  refine fun p s hready hstop => ⟨fun vc ts => ⟨fun h => ⟨?_, fun pk => ?_⟩, fun h0 hv hr => ⟨fun b hb => ?_, fun hfull => ?_⟩⟩,
    fun vc pk f h0 hv hr => ⟨fun hecc hcrc hsize => ?_, fun hbad => ?_⟩, fun ts b t he => ?_⟩
  · have hother : csiTakes (s.dev.reachTs ts) p vc = false := csiTakes_other h
    rw [exec_frameStart hready, frameStart_ignored hother]
  · have hother : csiTakes s.dev p vc = false := csiTakes_other h
    rw [exec_frameEnd hready, frameEnd_ignored hother]
  · have htakes : csiTakes (s.dev.reachTs ts) p vc = true := csiTakes_own h0 hstop hv
    have hbuf : freeBuf p (s.dev.reachTs ts) = some b := hb
    rw [exec_frameStart hready, frameStart_taken htakes hr hbuf]
    refine ⟨_, rfl, ?_, ?_, rfl, rfl, rfl, rfl, rfl⟩
    · rw [rxBusy_rx, bufTaken, rx_setRx]
      rfl
    · rw [rxBusy_flag, bufTaken, rx_setRx]
      rfl
  · have htakes : csiTakes (s.dev.reachTs ts) p vc = true := csiTakes_own h0 hstop hv
    have hbuf : freeBuf p (s.dev.reachTs ts) = none := freeBuf_none hfull
    have hreach : Elsewhere s.dev (s.dev.reachTs ts) := ⟨rfl, rfl, rfl, rfl, ⟨rfl, rfl⟩, rfl, rfl, rfl, rfl⟩
    obtain ⟨hevents, hdrops, hcause, hstuck⟩ := rxDrop_shows (d := s.dev.reachTs ts) (raises_awake hstop) p [4]
    have hvis : (rxBusy p (rxDrop p [4] (s.dev.reachTs ts))).vis = s.dev.vis := by
      obtain ⟨r, v, m, hd⟩ := hevents
      obtain ⟨m', hb⟩ := rxBusy_regs p (rxDrop p [4] (s.dev.reachTs ts))
      rw [hb, hd]
      rfl
    rw [exec_frameStart hready, frameStart_full htakes hr hbuf]
    refine ⟨_, rfl, hvis, ?_, stuck_drop ((rxBusy_stuck p _).mpr hstuck), ?_,
      elsewhere_trans (elsewhere_trans hreach (elsewhere_of_eventsOnly hevents)) (regsOnly_elsewhere (rxBusy_regs p _))⟩
    · rw [rxBusy_flag_other (by decide), hcause 4 (by decide) (by decide)]
    · rw [rxBusy_reg (drops_ne_stat p), hdrops]
      rfl
  · have htakes : csiTakes s.dev p vc = true := csiTakes_own h0 hstop hv
    rw [exec_frameEnd hready, frameEnd_eq htakes hr, if_pos (csiDamage_empty.mpr ⟨hecc, hcrc, hsize⟩)]
    refine ⟨_, rfl, ?_, ?_, elsewhere_trans (elsewhere_setRx s.dev p _) (regsOnly_elsewhere (rxBusy_regs p _))⟩
    · rw [rxBusy_rx, rx_setRx]
    · rw [rxBusy_flag, rx_setRx]
      rfl
  · have htakes : csiTakes s.dev p vc = true := csiTakes_own h0 hstop hv
    have hdamaged : ¬ (csiDamage s.dev p pk).isEmpty = true := by
      rw [csiDamage_empty]
      rintro ⟨hecc, hcrc, hsize⟩
      rcases hbad with ⟨k, hk, hb⟩ | ⟨k, hk, hb⟩ | hs
      · exact absurd hb (by rw [hecc k hk]; decide)
      · exact absurd hb (by rw [hcrc k hk]; decide)
      · exact hs hsize
    obtain ⟨hc1, hc2, hc3⟩ := mem_csiDamage (d := s.dev) (p := p) (pk := pk)
    obtain ⟨hevents, hdrops, hcause, hstuck⟩ := rxDrop_shows (d := s.dev.setRx p { s.dev.rx p with recv := none })
      (raises_awake hstop) p (csiDamage s.dev p pk)
    have hrx : (rxDrop p (csiDamage s.dev p pk) (s.dev.setRx p { s.dev.rx p with recv := none })).rx p =
        { s.dev.rx p with recv := none } := by
      obtain ⟨r, v, m, hd⟩ := hevents
      rw [hd]
      exact rx_setRx _ _ _
    rw [exec_frameEnd hready, frameEnd_eq htakes hr, if_neg hdamaged]
    generalize rxDrop p (csiDamage s.dev p pk) (s.dev.setRx p { s.dev.rx p with recv := none }) = e at hevents hdrops hcause hstuck hrx ⊢
    have hflag (i : Nat) (h6 : i < 6) (hmem : i ∈ csiDamage s.dev p pk) : (rxBusy p e).flag (VIS_CSI_STAT p) i = true := by
      rw [rxBusy_flag_other (by omega), hcause i (by omega) hmem]
    refine ⟨_, rfl, hrx, ?_, fun h => hflag 1 (by decide) (hc1.mpr h), fun h => hflag 2 (by decide) (hc2.mpr h),
      fun h => hflag 3 (by decide) (hc3.mpr h), stuck_drop ((rxBusy_stuck p _).mpr hstuck),
      elsewhere_trans (elsewhere_trans (elsewhere_setRx s.dev p _) (elsewhere_of_eventsOnly hevents)) (regsOnly_elsewhere (rxBusy_regs p _))⟩
    rw [rxBusy_reg (drops_ne_stat p), hdrops]
    rfl
  · have hexec : exec (.frameReady p) s = .next { s with dev := frameReady p s.dev } := onReady_ready hready (frameReady p)
    rw [hexec]
    simp only [frameReady, he]
    refine ⟨_, rfl, Dev.reg_count1 s.dev _, rx_setRx _ _ _, ?_⟩
    exact ⟨rfl, rfl, rfl, rfl, ⟨rfl, rfl⟩, rfl, rfl, rfl, rfl⟩

end Sys2Proof.Proofs
end

section
/-! PROOFS. The field island's own rules (13_field.md): its outputs, its configuration, SAFE; and what reaches the mirror (R254). -/
namespace Sys2Proof.Proofs
open Sys2Proof Sys2Proof.Machine Sys2Proof.Claims

/-! ## Sixteen channels in a word -/

section Word16
variable {w : BitVec 16} {i j : Nat}

theorem bit_put16 (h : i < 16) (w : BitVec 16) (b : Bool) (j : Nat) : bit (put16 w i b) j = if j = i then b else bit w j := by
  have hmask : (bit16 i).getLsbD j = decide (j = i) := by
    rw [bit16, BitVec.getLsbD_ofNat, Nat.testBit_two_pow]
    by_cases hj : j = i
    · subst hj
      simp [h]
    · simp [hj, Ne.symm hj]
  unfold put16 bit
  cases b
  · rw [if_neg (by decide), BitVec.getLsbD_and, BitVec.getLsbD_not, hmask]
    by_cases hj : j = i
    · simp [hj]
    · by_cases hlt : j < 16
      · simp [hj, hlt]
      · simp [hj, BitVec.getLsbD_of_ge w j (by omega)]
  · rw [if_pos rfl, BitVec.getLsbD_or, hmask]
    by_cases hj : j = i
    · simp [hj]
    · simp [hj]

end Word16

/-! ## Outputs of the island -/

section Drive
variable {x : Island} {j k : Fin 4}

/-- How an output moves is no matter of its word, its shutdown or its trim point. -/
structure SamePin (a b : AoPin) : Prop where
  word  : b.word = a.word
  got   : b.got = a.got
  shut  : b.shut = a.shut
  point : b.point = a.point

theorem SamePin.refl (a : AoPin) : SamePin a a := ⟨rfl, rfl, rfl, rfl⟩

theorem SamePin.trans {a b c : AoPin} (h : SamePin a b) (g : SamePin b c) : SamePin a c :=
  ⟨g.word.trans h.word, g.got.trans h.got, g.shut.trans h.shut, g.point.trans h.point⟩

theorem aoMove_frame (t : Nat) (slews : Bool) (j : Fin 4) (x : Island) :
    ∃ v : Vector AoPin 4, aoMove t slews j x = { x with ao := v } ∧ ∀ k : Fin 4, SamePin (x.ao[k]) (v[k]) := by
  rcases aoMove_cases t slews j x with h | ⟨on_, a, b, c, q, h⟩
  · exact ⟨x.ao, h, fun k => .refl _⟩
  · refine ⟨_, h, fun k => ?_⟩
    by_cases hk : j = k
    · subst hk
      simp only [Fin.getElem_fin, Vector.getElem_set_self]
      exact ⟨rfl, rfl, rfl, rfl⟩
    · have hne : j.val ≠ k.val := fun hc => hk (Fin.ext hc)
      simp only [Fin.getElem_fin, Vector.getElem_set_ne _ _ hne]
      exact .refl _

theorem dioDriven (n : Nat) (hn : n ≤ 16) (x : Island) : ∃ w : BitVec 16,
    forAll n (fun i (x : Island) => { x with dio := put16 x.dio i (x.dioLevel i) }) x = { x with dio := w } ∧
      ∀ i, i < n → bit w i = x.dioLevel i := by
  induction n with
  | zero => exact ⟨x.dio, rfl, fun i hi => absurd hi (Nat.not_lt_zero i)⟩
  | succ n ih =>
    obtain ⟨w, hw, hbits⟩ := ih (by omega)
    have hlevel : ({ x with dio := w } : Island).dioLevel n = x.dioLevel n := rfl
    refine ⟨put16 w n (x.dioLevel n), by rw [forAll_succ, hw, hlevel], fun i hi => ?_⟩
    rw [bit_put16 (by omega)]
    by_cases h : i = n
    · rw [if_pos h, h]
    · rw [if_neg h, hbits i (by omega)]

theorem aoDriven (t : Nat) (slews : Bool) (n : Nat) (x : Island) : ∃ v : Vector AoPin 4,
    forAll n (fun j x => aoMove t slews (Fin.ofNat 4 j) x) x = { x with ao := v } ∧ ∀ k : Fin 4, SamePin (x.ao[k]) (v[k]) := by
  induction n with
  | zero => exact ⟨x.ao, rfl, fun k => .refl _⟩
  | succ n ih =>
    obtain ⟨v, hv, hpins⟩ := ih
    obtain ⟨v', hv', hpins'⟩ := aoMove_frame t slews (Fin.ofNat 4 n) { x with ao := v }
    exact ⟨v', by rw [forAll_succ, hv, hv'], fun k => (hpins k).trans (hpins' k)⟩

/-- Driving the outputs sets the levels of the channels and moves the outputs. -/
theorem drive_frame (t : Nat) (slews : Bool) (x : Island) : ∃ (w : BitVec 16) (v : Vector AoPin 4),
    x.drive t slews = { x with dio := w, ao := v } ∧ (∀ i, i < 16 → bit w i = x.dioLevel i) ∧ ∀ k : Fin 4, SamePin (x.ao[k]) (v[k]) := by
  obtain ⟨w, hw, hbits⟩ := dioDriven 16 (Nat.le_refl 16) x
  obtain ⟨v, hv, hpins⟩ := aoDriven t slews 4 { x with dio := w }
  refine ⟨w, v, ?_, hbits, hpins⟩
  rw [Island.drive, hw, hv]

end Drive

/-! ## What reaches the mirror changes the mirror alone -/

/-- Of the device the mirror changes: registers, events that stand or come up, the wake request, and the mirror's own marks. -/
def MirrorOnly (d e : Dev) : Prop :=
  (∃ r v m q a b c, e = { d with regs := r, ev := v, mon := m, pw := { d.pw with wakeReq := q }
                                 field := { d.field with dchgs := a, aiAt := b, valid := c } }) ∧ EventsStand d e

section Mirror
variable {d e f : Dev}

theorem mirror_refl (d : Dev) : MirrorOnly d d :=
  ⟨⟨d.regs, d.ev, d.mon, d.pw.wakeReq, d.field.dchgs, d.field.aiAt, d.field.valid, rfl⟩, .refl d⟩

theorem mirror_trans (h : MirrorOnly d e) (k : MirrorOnly e f) : MirrorOnly d f := by
  obtain ⟨⟨r, v, m, q, a, b, c, rfl⟩, hs⟩ := h
  obtain ⟨⟨r', v', m', q', a', b', c', rfl⟩, ks⟩ := k
  exact ⟨⟨r', v', m', q', a', b', c', rfl⟩, hs.trans ks⟩

theorem mirror_isl (h : MirrorOnly d e) : e.isl = d.isl := by
  obtain ⟨⟨r, v, m, q, a, b, c, rfl⟩, -⟩ := h
  rfl

theorem mirror_field (h : MirrorOnly d e) : e.field.frame = d.field.frame ∧ e.field.ackDue = d.field.ackDue ∧
    e.field.acked = d.field.acked ∧ e.field.sent = d.field.sent ∧ e.fldLink = d.fldLink := by
  obtain ⟨⟨r, v, m, q, a, b, c, rfl⟩, -⟩ := h
  exact ⟨rfl, rfl, rfl, rfl, rfl⟩

theorem mirror_elsewhere (h : MirrorOnly d e) : Elsewhere d e := by
  obtain ⟨⟨r, v, m, q, a, b, c, rfl⟩, -⟩ := h
  exact ⟨rfl, rfl, rfl, rfl, ⟨rfl, rfl⟩, rfl, rfl, rfl, rfl⟩

theorem mirror_setReg {a : Nat} (ha : a / 0x10000 = 0x10A) (v : Word) (d : Dev) : MirrorOnly d (d.setReg a v) :=
  ⟨⟨_, d.ev, d.mon, d.pw.wakeReq, d.field.dchgs, d.field.aiAt, d.field.valid, rfl⟩, (EventsStand.refl d).setReg (by omega) (by omega) v⟩

theorem mirror_setFlag {a : Nat} (ha : a / 0x10000 = 0x10A) (i : Nat) (b : Bool) (d : Dev) : MirrorOnly d (Dev.setFlag a i b d) :=
  mirror_setReg ha _ d

theorem mirror_raise (ev : Nat) (d : Dev) : MirrorOnly d (raise ev d) := by
  obtain ⟨r, v, m, h⟩ := raise_frame ev d
  exact ⟨⟨r, v, m, d.pw.wakeReq, d.field.dchgs, d.field.aiAt, d.field.valid, h⟩, (EventsStand.refl d).raise ev⟩

theorem mirror_ite {b : Bool} (h : MirrorOnly d e) (k : MirrorOnly d f) : MirrorOnly d (if b then e else f) := by
  cases b
  · exact k
  · exact h

theorem mirror_raiseIf (b : Bool) (ev : Nat) (d : Dev) : MirrorOnly d (raiseIf b ev d) :=
  mirror_ite (mirror_raise ev d) (mirror_refl d)

theorem mirror_forAll {g : Nat → Dev → Dev} (h : ∀ k e, k < n → MirrorOnly e (g k e)) : ∀ d, MirrorOnly d (forAll n g d) := by
  intro d
  refine List.foldlRecOn (motive := MirrorOnly d) _ _ (mirror_refl d) (fun e he k hk => mirror_trans he (h k e (List.mem_range.mp hk)))

theorem mirror_setDin (w : BitVec 16) (d : Dev) : MirrorOnly d (setDin w d) :=
  ⟨⟨_, d.ev, d.mon, d.pw.wakeReq, _, d.field.aiAt, d.field.valid, rfl⟩,
    ((EventsStand.refl d).setReg (a := FLD_DIN) (by decide) (by decide) (w.setWidth 32)).upd rfl rfl⟩

theorem mirror_dioFault (i : Nat) (d : Dev) : MirrorOnly d (mirrorDioFault i d) :=
  mirror_trans (mirror_setFlag (a := FLD_DFLT) rfl i true d) (mirror_raise _ _)

theorem aoStat_block (j : Fin 4) : FLD_AO_STAT j / 0x10000 = 0x10A := by unfold FLD_AO_STAT; omega

theorem ai_block {k : Nat} (h : k < 4) : FLD_AI k / 0x10000 = 0x10A := by unfold FLD_AI; omega

theorem mirror_ao (j : Fin 4) (thrm compl shut : Bool) (d : Dev) : MirrorOnly d (mirrorAo j thrm compl shut d) := by
  have hset (i : Nat) (b : Bool) (e : Dev) : MirrorOnly e (Dev.setFlag (FLD_AO_STAT j) i b e) := mirror_setFlag (aoStat_block j) i b e
  unfold mirrorAo
  refine mirror_trans ?_ (mirror_raiseIf _ _ _)
  refine mirror_trans ?_ (hset 2 shut _)
  exact mirror_trans (mirror_ite (hset 0 true d) (mirror_refl d)) (mirror_ite (hset 1 true _) (mirror_refl _))

theorem mirror_ai (k : Fin 4) (w : Word) (d : Dev) : MirrorOnly d (mirrorAi k w d) := by
  unfold mirrorAi
  refine mirror_trans ?_ (mirror_raiseIf _ _ _)
  exact ⟨⟨_, d.ev, d.mon, d.pw.wakeReq, d.field.dchgs, _, d.field.valid, rfl⟩,
    ((EventsStand.refl d).setReg (a := FLD_AI k) (by have := ai_block k.isLt; omega) (by have := ai_block k.isLt; omega) _).upd rfl rfl⟩

/-- A field wake cause leaves the events. -/
theorem mirror_wakeReq (v : BitVec 6) (d : Dev) : MirrorOnly d { d with pw := { d.pw with wakeReq := v } } :=
  ⟨⟨d.regs, d.ev, d.mon, v, d.field.dchgs, d.field.aiAt, d.field.valid, rfl⟩, id, fun _ _ => id⟩

theorem mirror_dio (i : Fin 16) (level : Bool) (d : Dev) : MirrorOnly d (mirrorDio i level d) := by
  unfold mirrorDio
  dsimp only
  split
  · exact mirror_refl d
  · refine mirror_trans (mirror_setDin (put16 ((d.reg FLD_DIN).setWidth 16) i level) d) (mirror_ite ?_ (mirror_refl _))
    exact mirror_trans (mirror_raise (176 + i) _) (mirror_wakeReq _ _)

/-- A mark of FLD_STAT, where it comes up. -/
def marked (b : Bool) (i : Nat) (d : Dev) : Dev := if b then Dev.setFlag FLD_STAT i true d else d

theorem mirrorStatus_eq (cfgv safe uv ovld silent imm : Bool) (d : Dev) : mirrorStatus cfgv safe uv ovld silent imm d =
    raiseIf (uv && !d.flag FLD_STAT 3) 198 (raiseIf (safe && !d.flag FLD_STAT 2) 197 (raiseIf ovld 199 (marked ovld 4
      (marked (safe && !d.flag FLD_STAT 2 && imm) 7 (marked (safe && !d.flag FLD_STAT 2 && silent) 5
        (Dev.setFlag FLD_STAT 1 cfgv (Dev.setFlag FLD_STAT 2 safe (Dev.setFlag FLD_STAT 3 uv d)))))))) := by
  cases ovld <;> rfl

theorem mirror_marked (b : Bool) (i : Nat) (d : Dev) : MirrorOnly d (marked b i d) :=
  mirror_ite (mirror_setFlag (a := FLD_STAT) rfl i true d) (mirror_refl d)

theorem mirror_status (cfgv safe uv ovld silent imm : Bool) (d : Dev) : MirrorOnly d (mirrorStatus cfgv safe uv ovld silent imm d) := by
  have hset (i : Nat) (b : Bool) (e : Dev) : MirrorOnly e (Dev.setFlag FLD_STAT i b e) := mirror_setFlag rfl i b e
  rw [mirrorStatus_eq]
  refine mirror_trans (mirror_trans (mirror_trans ?_ (mirror_raiseIf _ _ _)) (mirror_raiseIf _ _ _)) (mirror_raiseIf _ _ _)
  refine mirror_trans (mirror_trans (mirror_trans ?_ (mirror_marked _ _ _)) (mirror_marked _ _ _)) (mirror_marked _ _ _)
  exact mirror_trans (mirror_trans (hset 3 uv d) (hset 2 safe _)) (hset 1 cfgv _)

theorem mirror_valid (valid : Bool) (d : Dev) : MirrorOnly d (mirrorValid valid d) := by
  have hmark : MirrorOnly d { d with field := { d.field with valid := valid } } :=
    ⟨⟨d.regs, d.ev, d.mon, d.pw.wakeReq, d.field.dchgs, d.field.aiAt, valid, rfl⟩, (EventsStand.refl d).upd rfl rfl⟩
  unfold mirrorValid
  refine mirror_trans hmark (mirror_ite (mirror_refl _) (mirror_trans (mirror_setDin 0 _) ?_))
  exact mirror_forAll (fun k e hk => mirror_setReg (ai_block hk) 0 e) _

theorem mirror_report (ovld : Bool) (d : Dev) : MirrorOnly d (reportStatus ovld d) := by
  unfold reportStatus
  dsimp only
  split
  · exact mirror_refl d
  · exact mirror_trans (mirror_status _ _ _ _ _ _ d) (mirror_valid _ _)

theorem mirror_linkReturn (d : Dev) : MirrorOnly d (linkReturn d) := by
  unfold linkReturn
  dsimp only
  have hdin : MirrorOnly d (if d.isl.cfg.isSome = true then setDin d.isl.din d else d) :=
    mirror_ite (mirror_setDin d.isl.din d) (mirror_refl d)
  exact mirror_trans (mirror_trans hdin (mirror_forAll (fun k e _ => mirror_ite (mirror_dioFault k e) (mirror_refl e)) _))
    (mirror_forAll (fun k e _ => mirror_ite (mirror_ao _ _ _ _ e) (mirror_refl e)) _)

theorem mirror_shut (d : Dev) : MirrorOnly d (mirrorShut d) := by
  unfold mirrorShut
  split
  · exact mirror_refl d
  · refine mirror_forAll (fun k e hk => mirror_setFlag ?_ 2 _ e) d
    unfold FLD_AO_STAT
    omega

end Mirror

/-! ## The mirror's registers -/

section MirrorRegs
variable {d : Dev} {a : Nat}

theorem offEvents_fld (h : a / 0x10000 = 0x10A) : OffEvents a := offEvents_of_block (by omega) (by omega)

theorem raiseIf_reg (h : OffEvents a) (b : Bool) (ev : Nat) (d : Dev) : (raiseIf b ev d).reg a = d.reg a := by
  unfold raiseIf
  split
  · exact raise_reg h ev d
  · rfl

theorem raiseIf_flag (h : OffEvents a) (b : Bool) (ev : Nat) (d : Dev) (i : Nat) : (raiseIf b ev d).flag a i = d.flag a i := by
  rw [Dev.flag, raiseIf_reg h, ← Dev.flag]

theorem reg_setDin (w : BitVec 16) (d : Dev) (a : Nat) : (setDin w d).reg a = if a = FLD_DIN then w.setWidth 32 else d.reg a :=
  Dev.reg_setReg _ _ _ _

theorem marked_flag_other {i j : Nat} (h : j ≠ i) (b : Bool) (d : Dev) : (marked b i d).flag FLD_STAT j = d.flag FLD_STAT j := by
  unfold marked
  split
  · exact flag_setFlag_other h _ _ _
  · rfl

theorem marked_flag_same {i : Nat} (hi : i < 32) (b : Bool) (d : Dev) :
    (marked b i d).flag FLD_STAT i = (d.flag FLD_STAT i || b) := by
  cases b
  · rw [Bool.or_false]
    rfl
  · rw [Bool.or_true]
    exact flag_setFlag_same hi _ _ _

theorem marked_reg (h : a ≠ FLD_STAT) (b : Bool) (i : Nat) (d : Dev) : (marked b i d).reg a = d.reg a := by
  unfold marked
  split
  · exact Dev.reg_setFlag_other _ _ _ _ _ h
  · rfl

variable (cfgv safe uv ovld silent imm : Bool) (d)

theorem mirrorStatus_reg (ho : OffEvents a) (h : a ≠ FLD_STAT) : (mirrorStatus cfgv safe uv ovld silent imm d).reg a = d.reg a := by
  rw [mirrorStatus_eq, raiseIf_reg ho, raiseIf_reg ho, raiseIf_reg ho, marked_reg h, marked_reg h, marked_reg h,
    Dev.reg_setFlag_other _ _ _ _ _ h, Dev.reg_setFlag_other _ _ _ _ _ h, Dev.reg_setFlag_other _ _ _ _ _ h]

/-- LINK, SAFE, UV and OVLD after a report. -/
theorem mirrorStatus_stat : (mirrorStatus cfgv safe uv ovld silent imm d).flag FLD_STAT 0 = d.flag FLD_STAT 0 ∧
    (mirrorStatus cfgv safe uv ovld silent imm d).flag FLD_STAT 2 = safe ∧
    (mirrorStatus cfgv safe uv ovld silent imm d).flag FLD_STAT 3 = uv ∧
    (mirrorStatus cfgv safe uv ovld silent imm d).flag FLD_STAT 4 = (d.flag FLD_STAT 4 || ovld) := by
  have ho : OffEvents FLD_STAT := offEvents_fld rfl
  simp only [mirrorStatus_eq, raiseIf_flag ho]
  refine ⟨?_, ?_, ?_, ?_⟩
  · rw [marked_flag_other (by decide), marked_flag_other (by decide), marked_flag_other (by decide), flag_setFlag_other (by decide),
      flag_setFlag_other (by decide), flag_setFlag_other (by decide)]
  · rw [marked_flag_other (by decide), marked_flag_other (by decide), marked_flag_other (by decide), flag_setFlag_other (by decide),
      flag_setFlag_same (by decide)]
  · rw [marked_flag_other (by decide), marked_flag_other (by decide), marked_flag_other (by decide), flag_setFlag_other (by decide),
      flag_setFlag_other (by decide), flag_setFlag_same (by decide)]
  · rw [marked_flag_same (by decide), marked_flag_other (by decide), marked_flag_other (by decide), flag_setFlag_other (by decide),
      flag_setFlag_other (by decide), flag_setFlag_other (by decide)]

variable {d}

theorem mirrorValid_reg (hdin : a ≠ FLD_DIN) (hai : ∀ k, k < 4 → a ≠ FLD_AI k) (valid : Bool) (d : Dev) :
    (mirrorValid valid d).reg a = d.reg a := by
  cases valid
  · have hfold (x : Dev) : (forAll 4 (fun k d => d.setReg (FLD_AI k) 0) x).reg a = x.reg a :=
      List.foldlRecOn (motive := fun y : Dev => y.reg a = x.reg a) _ _ rfl
        (fun y hy k hk => ((Dev.reg_setReg _ _ _ _).trans (if_neg (hai k (List.mem_range.mp hk)))).trans hy)
    refine (hfold _).trans ((reg_setDin _ _ _).trans (if_neg hdin))
  · rfl

/-- The inputs and AI words of the mirror, while it knows of no valid configuration, read 0. -/
theorem mirrorValid_din (valid : Bool) (d : Dev) : (mirrorValid valid d).reg FLD_DIN = if valid then d.reg FLD_DIN else 0 := by
  cases valid
  · have hfold (x : Dev) : (forAll 4 (fun k d => d.setReg (FLD_AI k) 0) x).reg FLD_DIN = x.reg FLD_DIN :=
      forAll_keeps (π := fun y : Dev => y.reg FLD_DIN)
        (fun k y => (Dev.reg_setReg _ _ _ _).trans (if_neg (by unfold FLD_DIN FLD_AI; omega))) 4 x
    exact (hfold _).trans ((reg_setDin _ _ _).trans (if_pos rfl))
  · rfl

theorem reportStatus_down (h : fieldUp d = false) (ovld : Bool) : reportStatus ovld d = d := by
  simp only [reportStatus, h, Bool.not_false, if_true]

theorem reportStatus_up (h : fieldUp d = true) (ovld : Bool) : reportStatus ovld d = mirrorValid d.isl.cfg.isSome
    (mirrorStatus (decide (d.isl.cfg = some (mirrorCfg d))) d.isl.safe d.isl.uv ovld d.isl.silent d.isl.imm d) := by
  simp only [reportStatus, h, Bool.not_true, Bool.false_eq_true, if_false]

theorem mirrorValid_stat (valid : Bool) (d : Dev) (i : Nat) : (mirrorValid valid d).flag FLD_STAT i = d.flag FLD_STAT i := by
  rw [Dev.flag, mirrorValid_reg (by decide) (fun k _ => by unfold FLD_STAT FLD_AI; omega), ← Dev.flag]

/-- What a status report shows in FLD_STAT. -/
theorem reportStatus_stat (h : fieldUp d = true) (ovld : Bool) : (reportStatus ovld d).flag FLD_STAT 2 = d.isl.safe ∧
    (reportStatus ovld d).flag FLD_STAT 3 = d.isl.uv ∧ (reportStatus ovld d).flag FLD_STAT 4 = (d.flag FLD_STAT 4 || ovld) := by
  obtain ⟨-, hsafe, huv, hovld⟩ := mirrorStatus_stat d (decide (d.isl.cfg = some (mirrorCfg d))) d.isl.safe d.isl.uv ovld d.isl.silent
    d.isl.imm
  rw [reportStatus_up h, mirrorValid_stat, mirrorValid_stat, mirrorValid_stat]
  exact ⟨hsafe, huv, hovld⟩

theorem reportStatus_link (ovld : Bool) (d : Dev) : (reportStatus ovld d).flag FLD_STAT 0 = d.flag FLD_STAT 0 := by
  cases h : fieldUp d
  · rw [reportStatus_down h]
  · rw [reportStatus_up h, mirrorValid_stat]
    obtain ⟨hlink, -⟩ := mirrorStatus_stat d (decide (d.isl.cfg = some (mirrorCfg d))) d.isl.safe d.isl.uv ovld d.isl.silent d.isl.imm
    exact hlink

theorem reportStatus_reg (ho : OffEvents a) (h : a ≠ FLD_STAT) (hdin : a ≠ FLD_DIN) (hai : ∀ k, k < 4 → a ≠ FLD_AI k) (ovld : Bool)
    (d : Dev) : (reportStatus ovld d).reg a = d.reg a := by
  cases hup : fieldUp d
  · rw [reportStatus_down hup]
  · rw [reportStatus_up hup, mirrorValid_reg hdin hai, mirrorStatus_reg _ _ _ _ _ _ _ ho h]

/-- The link's return leaves FLD_STAT. -/
theorem linkReturn_stat (d : Dev) : (linkReturn d).reg FLD_STAT = d.reg FLD_STAT := by
  have ho : OffEvents FLD_STAT := offEvents_fld rfl
  have hfault (k : Nat) (e : Dev) : (mirrorDioFault k e).reg FLD_STAT = e.reg FLD_STAT :=
    (raise_reg ho _ _).trans (Dev.reg_setFlag_other _ _ _ _ _ (by decide))
  have hao (j : Fin 4) (thrm compl shut : Bool) (e : Dev) : (mirrorAo j thrm compl shut e).reg FLD_STAT = e.reg FLD_STAT := by
    have hset (i : Nat) (b : Bool) (x : Dev) : (Dev.setFlag (FLD_AO_STAT j) i b x).reg FLD_STAT = x.reg FLD_STAT :=
      Dev.reg_setFlag_other _ _ _ _ _ (by unfold FLD_STAT FLD_AO_STAT; omega)
    unfold mirrorAo
    rw [raiseIf_reg ho, hset]
    cases thrm <;> cases compl <;> simp only [if_true, if_false, Bool.false_eq_true, hset]
  have hdin : (if d.isl.cfg.isSome then setDin d.isl.din d else d).reg FLD_STAT = d.reg FLD_STAT := by
    split
    · exact (reg_setDin _ _ _).trans (if_neg (by decide))
    · rfl
  unfold linkReturn
  dsimp only
  refine (forAll_keeps (π := fun y : Dev => y.reg FLD_STAT) (fun j e => ?_) 4 _).trans
    ((forAll_keeps (π := fun y : Dev => y.reg FLD_STAT) (fun i e => ?_) 16 _).trans hdin)
  · split
    · exact hao _ _ _ _ e
    · rfl
  · split
    · exact hfault i e
    · rfl

end MirrorRegs

end Sys2Proof.Proofs
end

section
/-! PROOFS. Frames and configuration of the field island (13_field.md: R253 to R256, R260, R268). -/
namespace Sys2Proof.Proofs
open Sys2Proof Sys2Proof.Machine Sys2Proof.Claims

/-! ## A COMMIT on the island (R253) -/

section Commit
variable {x : Island} {m : Mode}

/-- A new configuration concerns the channels whose MODE changes. -/
theorem takeCfg_frame (c : List Word) (x : Island) : ∃ (o w : BitVec 16) (a : Vector Nat 16),
    takeCfg c x = { x with cfg := some c, newCfg := none, off := o, din := w, agree := a } := by
  unfold takeCfg
  refine List.foldlRecOn (motive := fun y : Island => ∃ (o w : BitVec 16) (a : Vector Nat 16),
    y = { x with cfg := some c, newCfg := none, off := o, din := w, agree := a }) _ _ ⟨x.off, x.din, x.agree, rfl⟩ (fun y hy i _ => ?_)
  obtain ⟨o, w, a, rfl⟩ := hy
  dsimp only
  split
  · exact ⟨o, w, a, rfl⟩
  · exact ⟨_, _, _, rfl⟩

/-- The island with the configuration that waits for a COMMIT. -/
def cfgTaken (x : Island) : Island :=
  match x.newCfg with
  | some c => takeCfg c x
  | none => x

theorem cfgTaken_frame (x : Island) : ∃ (o w : BitVec 16) (a : Vector Nat 16),
    cfgTaken x = { x with cfg := (if x.newCfg.isSome then x.newCfg else x.cfg), newCfg := none, off := o, din := w, agree := a } := by
  unfold cfgTaken
  split
  · next c hc =>
    obtain ⟨o, w, a, h⟩ := takeCfg_frame c x
    exact ⟨o, w, a, by rw [h, hc]; rfl⟩
  · next hc =>
    refine ⟨x.off, x.din, x.agree, ?_⟩
    cases x
    subst hc
    rfl

/-- An output takes its word of the image, where Hold does not keep the one it has. -/
def aoTaken (held cfgd : Bool) (cool : Vector Bool 4) (im : IslImage) (v : Vector AoPin 4) : Vector AoPin 4 :=
  Vector.ofFn (fun (j : Fin 4) =>
    let a := { v[j] with shut := (v[j]).shut && !(im.fclr[j] && cool[j]) }
    if held && a.got then a else { a with word := im.ao[j], got := a.got || (im.fresh[j] && cfgd) })

/-- The island after the clears and the RESUME of its image. -/
def imageCleared (im : IslImage) (x : Island) : Island :=
  if im.resume then islResume (islDfclr im.dfclr x) else islDfclr im.dfclr x

/-- The image of a COMMIT applies: its clears, RESUME, its words. -/
def imageTaken (held : Bool) (cool : Vector Bool 4) (im : IslImage) (x : Island) : Island :=
  { imageCleared im x with
    image := none, dout := im.dout, ao := aoTaken held (imageCleared im x).cfg.isSome cool im (imageCleared im x).ao }

/-- The island of a COMMIT that enters Hold keeps its channels' levels. -/
def holdEntered (m : Mode) (x : Island) : Island := if m = .hold ∧ x.mode ≠ .hold then { x with atHold := x.dio } else x

/-- The mode of a COMMIT. -/
def modeTaken (m : Mode) (x : Island) : Island := { holdEntered m x with mode := m }

/-- The island that takes a COMMIT's image, if it holds one. -/
def imageOr (held : Bool) (cool : Vector Bool 4) (x : Island) : Island :=
  match x.image with
  | none => x
  | some im => imageTaken held cool im x

theorem imageOr_none {held : Bool} {cool : Vector Bool 4} (h : x.image = none) : imageOr held cool x = x := by
  unfold imageOr
  rw [h]

theorem imageOr_some {held : Bool} {cool : Vector Bool 4} {im : IslImage} (h : x.image = some im) :
    imageOr held cool x = imageTaken held cool im x := by
  unfold imageOr
  rw [h]

theorem islCommit_eq (m : Mode) (cool : Vector Bool 4) (x : Island) : islCommit m cool x =
    imageOr (decide (m = .hold) && decide ((holdEntered m (cfgTaken x)).mode = .hold)) cool (modeTaken m (cfgTaken x)) := by
  unfold islCommit imageOr
  rfl

theorem modeTaken_frame (m : Mode) (x : Island) : ∃ w : BitVec 16, modeTaken m x = { x with mode := m, atHold := w } := by
  unfold modeTaken holdEntered
  split
  · exact ⟨x.dio, rfl⟩
  · exact ⟨x.atHold, rfl⟩

theorem imageTaken_shows (held : Bool) (cool : Vector Bool 4) (im : IslImage) (x : Island) :
    (imageTaken held cool im x).mode = x.mode ∧ (imageTaken held cool im x).image = none ∧
    (imageTaken held cool im x).beat = x.beat ∧ (imageTaken held cool im x).cfg = x.cfg ∧
    (imageTaken held cool im x).dout = im.dout ∧
    (held = false → ∀ j : Fin 4, ((imageTaken held cool im x).ao[j]).word = im.ao[j]) := by
  have hcleared : (imageCleared im x).mode = x.mode ∧ (imageCleared im x).beat = x.beat ∧ (imageCleared im x).cfg = x.cfg := by
    unfold imageCleared
    cases im.resume
    · exact ⟨rfl, rfl, rfl⟩
    · exact ⟨rfl, rfl, rfl⟩
  obtain ⟨hmode, hbeat, hcfg⟩ := hcleared
  refine ⟨hmode, rfl, hbeat, hcfg, rfl, fun hh j => ?_⟩
  have hao : ((imageTaken held cool im x).ao[j]) = (aoTaken held (imageCleared im x).cfg.isSome cool im (imageCleared im x).ao)[j] := rfl
  rw [hao]
  simp [aoTaken, hh]

/-- What a COMMIT leaves on the island. -/
theorem islCommit_shows (m : Mode) (cool : Vector Bool 4) (x : Island) : (islCommit m cool x).mode = m ∧
    (islCommit m cool x).image = none ∧ (islCommit m cool x).beat = x.beat ∧
    (islCommit m cool x).cfg = (if x.newCfg.isSome then x.newCfg else x.cfg) ∧
    ∀ im, x.image = some im → (islCommit m cool x).dout = im.dout ∧
      (m = .run → ∀ j : Fin 4, ((islCommit m cool x).ao[j]).word = im.ao[j]) := by
  obtain ⟨o, w, a, hc⟩ := cfgTaken_frame x
  obtain ⟨h, hm⟩ := modeTaken_frame m (cfgTaken x)
  have hmode : (modeTaken m (cfgTaken x)).mode = m := by rw [hm]
  have himage : (modeTaken m (cfgTaken x)).image = x.image := by rw [hm, hc]
  have hbeat : (modeTaken m (cfgTaken x)).beat = x.beat := by rw [hm, hc]
  have hcfg : (modeTaken m (cfgTaken x)).cfg = if x.newCfg.isSome then x.newCfg else x.cfg := by rw [hm, hc]
  have hheld : m = .run → (decide (m = .hold) && decide ((holdEntered m (cfgTaken x)).mode = .hold)) = false := by
    rintro rfl
    rfl
  rw [islCommit_eq]
  generalize (decide (m = .hold) && decide ((holdEntered m (cfgTaken x)).mode = .hold)) = held at hheld ⊢
  generalize modeTaken m (cfgTaken x) = y at hmode himage hbeat hcfg ⊢
  cases hy : y.image with
  | none =>
    rw [imageOr_none hy]
    refine ⟨hmode, hy, hbeat, hcfg, fun im him => ?_⟩
    rw [← himage, hy] at him
    exact absurd him (by simp)
  | some im =>
    obtain ⟨hmode', himage', hbeat', hcfg', hdout, hwords⟩ := imageTaken_shows held cool im y
    rw [imageOr_some hy]
    refine ⟨hmode'.trans hmode, himage', hbeat'.trans hbeat, hcfg'.trans hcfg, fun im' him => ?_⟩
    rw [← himage, hy] at him
    obtain rfl := Option.some.inj him
    exact ⟨hdout, fun hrun => hwords (hheld hrun)⟩

end Commit

/-! ## The edge frame (R253, R254) -/

section Frame
variable {d : Dev} {m : Mode} {ok : Bool}

/-- The island that takes an edge frame. -/
def beatTaken (ok : Bool) (d : Dev) : Island := { d.isl with beat := d.now, newCfg := if ok then d.isl.newCfg else none }

/-- The device whose island has taken a COMMIT, before the mirror hears of it. -/
def commitTaken (m : Mode) (ok : Bool) (d : Dev) : Dev :=
  { d with
    freeCtr := d.freeCtr + 4
    field := { d.field with
      frame := none, ackDue := true
      isl := Island.drive (d.tick.edgeAt + 3000) true (islCommit m (aoCool d) (beatTaken ok d)) } }

theorem commitTaken_shows (m : Mode) (ok : Bool) (d : Dev) : (commitTaken m ok d).field.frame = none ∧
    (commitTaken m ok d).field.ackDue = true ∧
    (commitTaken m ok d).isl = Island.drive (d.tick.edgeAt + 3000) true (islCommit m (aoCool d) (beatTaken ok d)) ∧
    Elsewhere d (commitTaken m ok d) := by
  unfold commitTaken
  generalize Island.drive (d.tick.edgeAt + 3000) true (islCommit m (aoCool d) (beatTaken ok d)) = y
  exact ⟨rfl, rfl, rfl, ⟨rfl, rfl, rfl, rfl, ⟨rfl, rfl⟩, rfl, rfl, rfl, rfl⟩⟩

theorem islandEdgeFrame_commit (hf : d.field.frame = some (true, m)) (hp : d.isl.powered = true) :
    MirrorOnly (commitTaken m ok d) (islandEdgeFrame true ok d) := by
  have hpow : (!d.field.isl.powered) = false := by
    have h : d.field.isl.powered = true := hp
    rw [h]
    rfl
  have heq : islandEdgeFrame true ok d = reportStatus false
      (if fieldUp (mirrorShut (commitTaken m ok d)) && (islCommit m (aoCool d) (beatTaken ok d)).cfg.isSome then
        setDin (islCommit m (aoCool d) (beatTaken ok d)).din (mirrorShut (commitTaken m ok d)) else mirrorShut (commitTaken m ok d)) := by
    simp only [islandEdgeFrame, hf, Dev.isl, hpow, Bool.not_true, Bool.false_or, Bool.false_eq_true, if_false, if_true]
    rfl
  rw [heq]
  exact mirror_trans (mirror_trans (mirror_shut _) (mirror_ite (mirror_setDin _ _) (mirror_refl _))) (mirror_report false _)

theorem islandEdgeFrame_abandon (hf : d.field.frame = some (false, m)) (hp : d.isl.powered = true) : islandEdgeFrame true ok d =
    { d with field := { d.field with frame := none, ackDue := true, isl := { beatTaken ok d with image := none } } } := by
  have hpow : (!d.field.isl.powered) = false := by
    have h : d.field.isl.powered = true := hp
    rw [h]
    rfl
  simp only [islandEdgeFrame, hf, Dev.isl, hpow, Bool.not_true, Bool.false_or, Bool.false_eq_true, if_false]
  rfl

theorem islandEdgeFrame_lost {f : Bool × Mode} {crcOk : Bool} (hf : d.field.frame = some f) (h : crcOk = false ∨ d.isl.powered = false) :
    islandEdgeFrame crcOk ok d = Dev.count1 FLD_FRERR
      { d with field := { d.field with frame := none, isl := { d.isl with image := none } } } := by
  have hlost : (!crcOk || !d.field.isl.powered) = true := by
    rcases h with h | h
    · rw [h]
      rfl
    · have hp : d.field.isl.powered = false := h
      rw [hp, Bool.not_false, Bool.or_true]
  obtain ⟨c, m⟩ := f
  simp only [islandEdgeFrame, hf, Dev.isl, hlost, if_true]
  rfl

/-- The device that has an acknowledgement, before the mirror hears of the island. -/
def ackTaken (d : Dev) : Dev :=
  { Dev.setFlag FLD_STAT 0 true d with fldLink := true, field := { d.field with ackDue := false, acked := true } }

theorem ackTaken_shows (d : Dev) : (ackTaken d).isl = d.isl ∧ (ackTaken d).flag FLD_STAT 0 = true ∧ Elsewhere d (ackTaken d) :=
  ⟨rfl, flag_setFlag_same (by decide) _ _ _, ⟨rfl, rfl, rfl, rfl, ⟨rfl, rfl⟩, rfl, rfl, rfl, rfl⟩⟩

theorem heartbeatAck_eq (h : d.field.ackDue = true) : heartbeatAck d =
    reportStatus false (if d.flag FLD_STAT 0 then ackTaken d else linkReturn (ackTaken d)) := by
  simp only [heartbeatAck, h, Bool.not_true, Bool.false_eq_true, if_false]
  rfl

theorem heartbeatAck_shows (h : d.field.ackDue = true) : MirrorOnly (ackTaken d) (heartbeatAck d) ∧
    (heartbeatAck d).flag FLD_STAT 0 = true := by
  obtain ⟨-, hset, -⟩ := ackTaken_shows d
  rw [heartbeatAck_eq h, reportStatus_link]
  refine ⟨mirror_trans ?_ (mirror_report false _), ?_⟩
  · split
    · exact mirror_refl _
    · exact mirror_linkReturn _
  · split
    · exact hset
    · rw [Dev.flag, linkReturn_stat, ← Dev.flag, hset]

theorem stoppedHeartbeat_eq (hp : d.isl.powered = true) (hh : d.halted = false) (ht : d.tick.phase = .idle) :
    stoppedHeartbeat true d = d.setIsl { d.isl with beat := d.now } := by
  simp only [stoppedHeartbeat, hp, hh, ht]
  rfl

end Frame

/-! ## The configuration (R255, R256) -/

section Config
variable {s : State} {d : Dev}

theorem fieldCfgSend_eq (h : d.isl.powered = true) : fieldCfgSend d = { d with field := { d.field with
    sent := some (mirrorCfg d), isl := { d.isl with newCfg := some (mirrorCfg d) } } } := if_pos h

theorem exec_configSend {p : HostPort} {v : Word} (hs : Holds p s) (hm : s.dev.mode = .commission) (hv : bit v 0 = true) :
    exec (.configSend p v) s = .next { s with dev := fieldCfgSend s.dev } := by
  have hwrite : writeCfgCmd v s.dev = fieldCfgSend s.dev := by
    rw [writeCfgCmd, hv, decide_eq_true hm]
    rfl
  have hready : (fieldCfgSend s.dev).ready = s.dev.ready := by
    unfold fieldCfgSend
    dsimp only
    split
    · rfl
    · rfl
  refine congrArg Host.Outcome.next (regRow_ruled (c := 0) (e := fieldCfgSend s.dev) hs (by unfold RegAddr FLD_CFGCMD; omega)
    (by decide) (by decide) (by decide) ?_ hready)
  rw [← hwrite]
  rfl

theorem configResend_eq (h0 : d.flag FLD_STAT 0 = true) (h1 : d.flag FLD_STAT 1 = false) (hs : d.field.sent = some (mirrorCfg d)) :
    configResend d = raise 199 (Dev.setFlag FLD_STAT 6 true (fieldCfgSend d)) := by
  refine if_pos ?_
  rw [h0, h1, decide_eq_true hs]
  rfl

/-- A committed DFCLR on the island. -/
theorem fieldDfclr_eq (h : d.isl.powered = true) (m : BitVec 16) :
    fieldDfclr m d = d.setIsl ((islDfclr m d.isl).drive (pinInstant d) true) := by
  simp only [fieldDfclr, h, Bool.not_true, Bool.false_eq_true, if_false]

theorem fieldResume_eq (h : d.isl.powered = true) :
    fieldResume d = reportStatus false (d.setIsl ((islResume d.isl).drive (pinInstant d) true)) := by
  simp only [fieldResume, h, Bool.not_true, Bool.false_eq_true, if_false]

end Config

theorem elsewhere_setIsl (d : Dev) (x : Island) : Elsewhere d (d.setIsl x) := ⟨rfl, rfl, rfl, rfl, ⟨rfl, rfl⟩, rfl, rfl, rfl, rfl⟩

/-- Settles O32: the frames, the acknowledgement and the configuration, each by its own lemma; the mirror by `MirrorOnly`. -/
theorem fieldFramesAndConfiguration : Obligations.FieldFramesAndConfiguration := by
  unfold Obligations.FieldFramesAndConfiguration
  refine ⟨fun s hp => ⟨fun m ok hf => ?_, fun m ok hf => ?_⟩,
    fun s => ⟨fun f ok crcOk hf hlost => ?_, fun hack => ?_, fun hp hh ht => ?_⟩,
    fun p v s hs hm hv hp => ?_, fun s hp => ⟨fun h0 h1 hsent => ?_, fun m ht => ?_, fun ht => ?_⟩⟩
  · have hmirror := islandEdgeFrame_commit (ok := ok) hf hp
    obtain ⟨hframe, hdue, -, -, -⟩ := mirror_field hmirror
    obtain ⟨hframe', hdue', hisl', helse⟩ := commitTaken_shows m ok s.dev
    have hisl := (mirror_isl hmirror).trans hisl'
    obtain ⟨w, v, hdrive, -, hpins⟩ := drive_frame (s.dev.tick.edgeAt + 3000) true (islCommit m (aoCool s.dev) (beatTaken ok s.dev))
    obtain ⟨hmode, himage, hbeat, hcfg, hword⟩ := islCommit_shows m (aoCool s.dev) (beatTaken ok s.dev)
    refine ⟨islandEdgeFrame true ok s.dev, rfl, hframe.trans hframe', hdue.trans hdue', ?_, ?_, ?_, fun im him => ?_, ?_, ?_⟩
    · rw [hisl, hdrive]
      exact hbeat
    · rw [hisl, hdrive]
      exact hmode
    · rw [hisl, hdrive]
      exact himage
    · obtain ⟨hdout, hwords⟩ := hword im him
      rw [hisl, hdrive]
      exact ⟨hdout, fun hrun j => (hpins j).word.trans (hwords hrun j)⟩
    · rw [hisl, hdrive]
      refine hcfg.trans ?_
      cases ok
      · rfl
      · simp only [beatTaken, true_and, if_true]
    · exact elsewhere_trans helse (mirror_elsewhere hmirror)
  · have hexec : exec (.islandEdgeFrame ⟨true, ok⟩) s = .next { s with dev := islandEdgeFrame true ok s.dev } := rfl
    rw [hexec, islandEdgeFrame_abandon hf hp]
    exact ⟨_, rfl, rfl, rfl, rfl, rfl, ⟨rfl, rfl, rfl, rfl, ⟨rfl, rfl⟩, rfl, rfl, rfl, rfl⟩⟩
  · have hexec : exec (.islandEdgeFrame ⟨crcOk, ok⟩) s = .next { s with dev := islandEdgeFrame crcOk ok s.dev } := rfl
    rw [hexec, islandEdgeFrame_lost hf hlost]
    refine ⟨_, rfl, rfl, rfl, rfl, ⟨rfl, fun a ha => ?_⟩, Dev.reg_count1 _ _⟩
    exact Dev.reg_count1_other _ _ _ (fun hc => ha (List.mem_singleton.mpr hc))
  · obtain ⟨hmirror, hlink⟩ := heartbeatAck_shows hack
    obtain ⟨-, hdue, hacked, -, hfld⟩ := mirror_field hmirror
    obtain ⟨hisl, -, helse⟩ := ackTaken_shows s.dev
    exact ⟨heartbeatAck s.dev, rfl, hfld, hlink, hdue, hacked, (mirror_isl hmirror).trans hisl,
      elsewhere_trans helse (mirror_elsewhere hmirror)⟩
  · exact congrArg (fun d => (Host.Outcome.next { s with dev := d } : Out)) (stoppedHeartbeat_eq hp hh ht)
  · rw [exec_configSend hs hm hv, fieldCfgSend_eq hp]
  · have hexec : exec .configResend s = .next { s with dev := configResend s.dev } := rfl
    have hmirror : MirrorOnly (fieldCfgSend s.dev) (raise 199 (Dev.setFlag FLD_STAT 6 true (fieldCfgSend s.dev))) :=
      mirror_trans (mirror_setFlag (a := FLD_STAT) rfl 6 true _) (mirror_raise 199 _)
    have hstat : (raise 199 (Dev.setFlag FLD_STAT 6 true (fieldCfgSend s.dev))).flag FLD_STAT 6 = true := by
      rw [Dev.flag, raise_reg (offEvents_fld rfl), ← Dev.flag, flag_setFlag_same (by decide)]
    have hsent' : (fieldCfgSend s.dev).isl = { s.dev.isl with newCfg := some (mirrorCfg s.dev) } ∧ Elsewhere s.dev (fieldCfgSend s.dev) := by
      rw [fieldCfgSend_eq hp]
      exact ⟨rfl, ⟨rfl, rfl, rfl, rfl, ⟨rfl, rfl⟩, rfl, rfl, rfl, rfl⟩⟩
    obtain ⟨hisl, helse⟩ := hsent'
    rw [hexec, configResend_eq h0 h1 hsent]
    exact ⟨_, rfl, (mirror_isl hmirror).trans hisl, hstat, elsewhere_trans helse (mirror_elsewhere hmirror)⟩
  · have hexec : exec (.dfclr m) s = .next { s with dev := fieldDfclr m s.dev } := atEdge_ticking ht _
    obtain ⟨w, v, hdrive, -, -⟩ := drive_frame (pinInstant s.dev) true (islDfclr m s.dev.isl)
    rw [hexec, fieldDfclr_eq hp, hdrive]
    exact ⟨_, rfl, rfl, rfl, rfl, rfl, elsewhere_setIsl _ _⟩
  · have hexec : exec .resume s = .next { s with dev := fieldResume s.dev } := atEdge_ticking ht _
    obtain ⟨w, v, hdrive, -, -⟩ := drive_frame (pinInstant s.dev) true (islResume s.dev.isl)
    have hmirror := mirror_report false (s.dev.setIsl { islResume s.dev.isl with dio := w, ao := v })
    have hisl := mirror_isl hmirror
    rw [hexec, fieldResume_eq hp, hdrive]
    refine ⟨_, rfl, by rw [hisl]; rfl, by rw [hisl]; rfl, by rw [hisl]; rfl, fun hlink => ?_,
      elsewhere_trans (elsewhere_setIsl s.dev _) (mirror_elsewhere hmirror)⟩
    have hup : fieldUp (s.dev.setIsl { islResume s.dev.isl with dio := w, ao := v }) = true := by
      have hpow : (s.dev.setIsl { islResume s.dev.isl with dio := w, ao := v }).isl.powered = true := hp
      have hflag : (s.dev.setIsl { islResume s.dev.isl with dio := w, ao := v }).flag FLD_STAT 0 = true := hlink
      rw [fieldUp, hpow, hflag]
      rfl
    obtain ⟨hsafe, -, -⟩ := reportStatus_stat hup false
    exact hsafe

end Sys2Proof.Proofs
end

section
/-! PROOFS. Channels of the field island (13_field.md: R257 to R266). -/
namespace Sys2Proof.Proofs
open Sys2Proof Sys2Proof.Machine Sys2Proof.Claims

/-! ## What a value or a fault leaves in the mirror -/

section Values
variable {d : Dev} {i : Fin 16} {j k : Fin 4} {l : Bool} {w : Word}

theorem flag_of_setWidth {n : Nat} {v : BitVec 16} (h : d.reg FLD_DIN = v.setWidth 32) (hn : n < 16) : d.flag FLD_DIN n = bit v n := by
  have hlt : n < 32 := by omega
  rw [Dev.flag, h, bit, bit, BitVec.getLsbD_setWidth, decide_eq_true hlt, Bool.true_and]

theorem evReserved_dio (i : Fin 16) : evReserved (176 + i) = false := by
  revert i
  decide

theorem evReserved_ao (j : Fin 4) : evReserved (192 + j) = false := by
  revert j
  decide

/-- The mirror with the new state of channel i. -/
def dinTaken (i : Fin 16) (l : Bool) (d : Dev) : Dev := setDin (put16 ((d.reg FLD_DIN).setWidth 16) i l) d

theorem dinTaken_flag (i : Fin 16) (l : Bool) (d : Dev) : (dinTaken i l d).flag FLD_DIN i = l := by
  have hreg : (dinTaken i l d).reg FLD_DIN = (put16 ((d.reg FLD_DIN).setWidth 16) i l).setWidth 32 :=
    (reg_setDin _ _ _).trans (if_pos rfl)
  rw [flag_of_setWidth hreg i.isLt, bit_put16 i.isLt, if_pos rfl]

theorem mirrorDio_flag (h : d.flag FLD_DIN i ≠ l) : (mirrorDio i l d).flag FLD_DIN i = l := by
  have hflag : (raise (176 + i) (dinTaken i l d)).flag FLD_DIN i = l := by
    rw [Dev.flag, raise_reg (offEvents_fld rfl), ← Dev.flag, dinTaken_flag]
  unfold mirrorDio
  rw [if_neg h]
  dsimp only
  split
  · exact hflag
  · exact dinTaken_flag i l d

/-- An input whose EDGE takes both directions raises its event and is a wake cause. -/
theorem mirrorDio_event (h : d.flag FLD_DIN i ≠ l) (hin : d.fld (FLD_DIO_CFG i) 1 0 = 1 ∨ d.fld (FLD_DIO_CFG i) 1 0 = 2)
    (hedge : d.fld (FLD_DIO_CFG i) 13 12 = 3) : mirrorDio i l d = { raise (176 + i) (dinTaken i l d) with
      pw := { (raise (176 + i) (dinTaken i l d)).pw with wakeReq := (raise (176 + i) (dinTaken i l d)).pw.wakeReq ||| 1 } } := by
  have hcfg (hi lo : Nat) : (dinTaken i l d).fld (FLD_DIO_CFG i) hi lo = d.fld (FLD_DIO_CFG i) hi lo :=
    congrArg (fun v => bits v hi lo) ((reg_setDin _ _ _).trans (if_neg (by unfold FLD_DIO_CFG FLD_DIN; omega)))
  have hcond : ((decide ((dinTaken i l d).fld (FLD_DIO_CFG i) 1 0 = 1) || decide ((dinTaken i l d).fld (FLD_DIO_CFG i) 1 0 = 2)) &&
      (decide ((dinTaken i l d).fld (FLD_DIO_CFG i) 13 12 = 3) || (decide ((dinTaken i l d).fld (FLD_DIO_CFG i) 13 12 = 1) && l) ||
        (decide ((dinTaken i l d).fld (FLD_DIO_CFG i) 13 12 = 2) && !l))) = true := by
    rw [hcfg, hcfg, hedge]
    rcases hin with h1 | h1
    · rw [h1]
      rfl
    · rw [h1]
      rfl
  unfold mirrorDio
  rw [if_neg h]
  exact if_pos hcond

theorem mirrorDio_raised (hx : Raises d) (h : d.flag FLD_DIN i ≠ l)
    (hin : d.fld (FLD_DIO_CFG i) 1 0 = 1 ∨ d.fld (FLD_DIO_CFG i) 1 0 = 2) (hedge : d.fld (FLD_DIO_CFG i) 13 12 = 3) :
    Stuck (176 + i) (mirrorDio i l d) ∧ bit (mirrorDio i l d).pw.wakeReq 0 = true := by
  obtain ⟨-, hstand⟩ := mirror_setDin (put16 ((d.reg FLD_DIN).setWidth 16) i l) d
  have hraised : Stuck (176 + i) (raise (176 + i) (dinTaken i l d)) :=
    raise_stuck (evReserved_dio i) (hstand.1 hx)
  rw [mirrorDio_event h hin hedge]
  refine ⟨hraised, ?_⟩
  simp [bit]

theorem stuck_dio (h : Stuck (176 + i) d) : d.flag (EVT_STICKY 5) (16 + i) = true := by
  have hword : (176 + i.val) / 32 = 5 := by omega
  have hbit : (176 + i.val) % 32 = 16 + i := by omega
  rw [Stuck, hword, hbit] at h
  exact h

theorem stuck_ao (h : Stuck (192 + j) d) : d.flag (EVT_STICKY 6) j = true := by
  have hword : (192 + j.val) / 32 = 6 := by omega
  have hbit : (192 + j.val) % 32 = j := by omega
  rw [Stuck, hword, hbit] at h
  exact h

theorem mirrorDioFault_shows (hx : Raises d) (i : Fin 16) : (mirrorDioFault i d).flag FLD_DFLT i = true ∧
    Stuck (176 + i) (mirrorDioFault i d) := by
  obtain ⟨-, hstand⟩ := mirror_setFlag (a := FLD_DFLT) rfl i true d
  refine ⟨?_, raise_stuck (evReserved_dio i) (hstand.1 hx)⟩
  rw [Dev.flag, mirrorDioFault, raise_reg (offEvents_fld rfl), ← Dev.flag, flag_setFlag_same (by omega)]

/-- THERM, COMPL and SHUT after a report of AOj. -/
theorem mirrorAo_stat (j : Fin 4) (thrm compl shut : Bool) (d : Dev) :
    (mirrorAo j thrm compl shut d).flag (FLD_AO_STAT j) 0 = (d.flag (FLD_AO_STAT j) 0 || thrm) ∧
    (mirrorAo j thrm compl shut d).flag (FLD_AO_STAT j) 1 = (d.flag (FLD_AO_STAT j) 1 || compl) ∧
    (mirrorAo j thrm compl shut d).flag (FLD_AO_STAT j) 2 = shut := by
  have ho : OffEvents (FLD_AO_STAT j) := offEvents_fld (aoStat_block j)
  unfold mirrorAo
  simp only [raiseIf_flag ho]
  refine ⟨?_, ?_, flag_setFlag_same (by decide) _ _ _⟩
  · rw [flag_setFlag_other (by decide)]
    cases thrm <;> cases compl <;> simp [flag_setFlag_same, flag_setFlag_other]
  · rw [flag_setFlag_other (by decide)]
    cases thrm <;> cases compl <;> simp [flag_setFlag_same, flag_setFlag_other]

theorem mirrorAo_raised (hx : Raises d) {thrm compl : Bool} (h : (thrm || compl) = true) (j : Fin 4) (shut : Bool) :
    Stuck (192 + j) (mirrorAo j thrm compl shut d) := by
  have hset (i : Nat) (b : Bool) (e : Dev) : MirrorOnly e (Dev.setFlag (FLD_AO_STAT j) i b e) := mirror_setFlag (aoStat_block j) i b e
  obtain ⟨-, hstand⟩ := mirror_trans (mirror_trans (mirror_ite (b := thrm) (hset 0 true d) (mirror_refl d))
    (mirror_ite (b := compl) (hset 1 true _) (mirror_refl _))) (hset 2 shut _)
  unfold mirrorAo
  rw [raiseIf, h, Bool.true_or, if_pos rfl]
  exact raise_stuck (evReserved_ao j) (hstand.1 hx)

theorem mirrorAi_reg (k : Fin 4) (w : Word) (d : Dev) : (mirrorAi k w d).reg (FLD_AI k) = w &&& 0x7FFFFFF := by
  unfold mirrorAi
  rw [raiseIf_reg (offEvents_fld (ai_block k.isLt))]
  exact (Dev.reg_setReg _ _ _ _).trans (if_pos rfl)

end Values

/-! ## The word of an AI sample (R266) -/

section Sample

/-- An AI word: its value, its number, OVR, PROT and VALID. -/
def aiWord (v q : Nat) (ovr prot : Bool) : Nat := v + 2 ^ 16 * q + 2 ^ 24 * b2n ovr + 2 ^ 25 * b2n prot + 2 ^ 26

variable {v q : Nat} {ovr prot : Bool}

theorem b2n_le (b : Bool) : b2n b ≤ 1 := by cases b <;> decide

theorem toNat_aiWord (hv : v < 2 ^ 16) (hq : q < 2 ^ 8) : (word (aiWord v q ovr prot) &&& 0x7FFFFFF : Word).toNat = aiWord v q ovr prot := by
  have ho := b2n_le ovr
  have hp := b2n_le prot
  have hmask : (0x7FFFFFF : Word).toNat = 2 ^ 27 - 1 := rfl
  have hlt : aiWord v q ovr prot < 2 ^ 27 := by unfold aiWord; omega
  rw [BitVec.toNat_and, hmask, Nat.and_two_pow_sub_one_eq_mod, word, BitVec.toNat_ofNat]
  omega

theorem bits_aiWord (hv : v < 2 ^ 16) (hq : q < 2 ^ 8) : bits (word (aiWord v q ovr prot) &&& 0x7FFFFFF : Word) 15 0 = v ∧
    bits (word (aiWord v q ovr prot) &&& 0x7FFFFFF : Word) 23 16 = q := by
  have ho := b2n_le ovr
  have hp := b2n_le prot
  rw [bits, bits, toNat_aiWord hv hq, aiWord]
  omega

theorem bit_aiWord (hv : v < 2 ^ 16) (hq : q < 2 ^ 8) : bit (word (aiWord v q ovr prot) &&& 0x7FFFFFF : Word) 24 = ovr ∧
    bit (word (aiWord v q ovr prot) &&& 0x7FFFFFF : Word) 25 = prot ∧
    bit (word (aiWord v q ovr prot) &&& 0x7FFFFFF : Word) 26 = true := by
  have hbit (i : Nat) : bit (word (aiWord v q ovr prot) &&& 0x7FFFFFF : Word) i = decide (aiWord v q ovr prot / 2 ^ i % 2 = 1) := by
    rw [bit, BitVec.getLsbD, toNat_aiWord hv hq, Nat.testBit_eq_decide_div_mod_eq]
  rw [hbit, hbit, hbit, aiWord]
  have h1 : b2n true = 1 := rfl
  have h0 : b2n false = 0 := rfl
  cases ovr <;> cases prot <;> simp only [h0, h1, decide_eq_true_eq, decide_eq_false_iff_not] <;> omega

end Sample

/-! ## Inputs (R257, R258, R266) -/

section Inputs
variable {d : Dev} {i : Fin 16} {k : Fin 4} {l : Bool}

theorem dioSample_eq (hx : IslandUp d.isl) (hm : d.isl.dioMode i = 1 ∨ d.isl.dioMode i = 2) (hne : bit d.isl.din i ≠ l) :
    dioSample i l d = if d.isl.agree[i] + 1 < max 1 (bits (d.isl.dioCfg i) 11 8) then
        d.setIsl { d.isl with agree := d.isl.agree.set i (d.isl.agree[i] + 1) }
      else
        if fieldUp (d.setIsl { d.isl with agree := d.isl.agree.set i 0, din := put16 d.isl.din i l }) then
          mirrorDio i l (d.setIsl { d.isl with agree := d.isl.agree.set i 0, din := put16 d.isl.din i l })
        else d.setIsl { d.isl with agree := d.isl.agree.set i 0, din := put16 d.isl.din i l } := by
  have h0 : d.isl.dioMode i ≠ 0 := by omega
  have h3 : d.isl.dioMode i ≠ 3 := by omega
  have hnone : d.isl.cfg.isNone = false := by
    rw [← Option.not_isSome, hx.cfg]
    rfl
  simp only [dioSample, hx.powered, hx.uv, hnone, Bool.not_true, Bool.not_false, Bool.and_true, Bool.false_or, decide_eq_true_eq,
    if_neg h0, if_neg h3, if_neg (Ne.symm hne)]

theorem aiSample_eq (hx : IslandUp d.isl) (hm : d.isl.aiMode k = 1) (ht : d.fld TRM_STAT 1 0 ≠ 1) (x : Nat) (hot : Bool) :
    aiSample k x hot d =
      if fieldUp (d.setIsl { d.isl with seq := d.isl.seq.set k (d.isl.seq[k] + 1), prot := d.isl.prot.set k (d.isl.prot[k] || hot) }) then
        mirrorAi k (word (aiWord (min x 52000) (d.isl.seq[k] + 1).toNat (decide (52000 < x)) (d.isl.prot[k] || hot)))
          (d.setIsl { d.isl with seq := d.isl.seq.set k (d.isl.seq[k] + 1), prot := d.isl.prot.set k (d.isl.prot[k] || hot) })
      else d.setIsl { d.isl with seq := d.isl.seq.set k (d.isl.seq[k] + 1), prot := d.isl.prot.set k (d.isl.prot[k] || hot) } := by
  have hnone : d.isl.cfg.isNone = false := by
    rw [← Option.not_isSome, hx.cfg]
    rfl
  have htrim : decide (d.fld TRM_STAT 1 0 = 1) = false := decide_eq_false ht
  simp only [aiSample, hx.powered, hx.uv, hnone, hm, htrim, Bool.not_true, Bool.false_and, Bool.or_false, if_true,
    decide_true, Bool.and_true, Bool.false_eq_true, if_false, show decide ((1 : Nat) = 0) = false from rfl]
  rfl

theorem aiProtEnd_eq (h : d.isl.prot[k] = true) : aiProtEnd k d =
    if fieldUp (d.setIsl { d.isl with prot := d.isl.prot.set k false }) then
      Dev.setFlag (FLD_AI k) 25 false (d.setIsl { d.isl with prot := d.isl.prot.set k false })
    else d.setIsl { d.isl with prot := d.isl.prot.set k false } := by
  simp only [aiProtEnd, h, if_true]

/-- An island with power on a link that is up stays so under an update of its channels. -/
theorem fieldUp_setIsl {x : Island} (hp : x.powered = true) (hl : d.flag FLD_STAT 0 = true) : fieldUp (d.setIsl x) = true := by
  have hflag : (d.setIsl x).flag FLD_STAT 0 = true := hl
  have hpow : (d.setIsl x).isl.powered = true := hp
  rw [fieldUp, hpow, hflag]
  rfl

theorem raises_setIsl (x : Island) (h : Raises d) : Raises (d.setIsl x) := raises_of_regs h rfl rfl

/-- The instant and the value of the field island's own measurements. -/
theorem env_word (v t : BitVec 16) :
    (t.setWidth 32 <<< (16 : Nat) ||| v.setWidth 32 : Word) = word (v.toNat + 65536 * t.toNat) := by
  have hv := v.isLt
  have ht := t.isLt
  refine BitVec.eq_of_toNat_eq ?_
  rw [BitVec.toNat_or, BitVec.toNat_shiftLeft, BitVec.toNat_setWidth, BitVec.toNat_setWidth, word, BitVec.toNat_ofNat,
    Nat.mod_eq_of_lt (a := t.toNat) (by omega), Nat.mod_eq_of_lt (a := v.toNat) (by omega), Nat.shiftLeft_eq,
    Nat.mod_eq_of_lt (a := t.toNat * 2 ^ 16) (by omega), Nat.mul_comm, ← Nat.two_pow_add_eq_or_of_lt hv]
  omega

end Inputs

/-! ## Outputs (R259 to R264) -/

section Outputs
variable {d : Dev} {x : Island} {i : Fin 16} {j : Fin 4}

/-- The island whose channel i is latched off. -/
def latchedOff (i : Fin 16) (t : Nat) (x : Island) : Island := Island.drive t true { x with off := put16 x.off i true }

theorem latchedOff_shows (i : Fin 16) (t : Nat) (x : Island) : (latchedOff i t x).powered = x.powered ∧
    bit (latchedOff i t x).off i = true ∧ bit (latchedOff i t x).dio i = false := by
  obtain ⟨w, v, hdrive, hbits, -⟩ := drive_frame t true { x with off := put16 x.off i true }
  have hoff : bit (put16 x.off i true) i = true := by rw [bit_put16 i.isLt, if_pos rfl]
  rw [latchedOff, hdrive]
  refine ⟨rfl, hoff, ?_⟩
  rw [hbits i i.isLt]
  simp [Island.dioLevel, hoff]

theorem dioLatchOff_up (hp : d.isl.powered = true) (hl : d.flag FLD_STAT 0 = true) (i : Fin 16) :
    dioLatchOff i d = mirrorDioFault i (d.setIsl (latchedOff i d.now d.isl)) := by
  obtain ⟨hpow, -, -⟩ := latchedOff_shows i d.now d.isl
  have heq : dioLatchOff i d = if fieldUp (d.setIsl (latchedOff i d.now d.isl)) then mirrorDioFault i (d.setIsl (latchedOff i d.now d.isl))
      else d.setIsl (latchedOff i d.now d.isl) := rfl
  rw [heq, if_pos (fieldUp_setIsl (hpow.trans hp) hl)]

theorem flag_setIsl (x : Island) (d : Dev) (a i : Nat) : (d.setIsl x).flag a i = d.flag a i := rfl

theorem dioLatchOff_shows (hp : d.isl.powered = true) (hl : d.flag FLD_STAT 0 = true) (hx : Raises d) (i : Fin 16) :
    (dioLatchOff i d).isl = latchedOff i d.now d.isl ∧ (dioLatchOff i d).flag FLD_DFLT i = true ∧ Stuck (176 + i) (dioLatchOff i d) ∧
    (dioLatchOff i d).flag FLD_STAT 0 = true ∧ Elsewhere d (dioLatchOff i d) := by
  rw [dioLatchOff_up hp hl]
  generalize latchedOff i d.now d.isl = x
  have hmirror := mirror_dioFault i (d.setIsl x)
  obtain ⟨hflag, hstuck⟩ := mirrorDioFault_shows (raises_setIsl x hx) i
  refine ⟨mirror_isl hmirror, hflag, hstuck, ?_, elsewhere_trans (elsewhere_setIsl _ _) (mirror_elsewhere hmirror)⟩
  rw [Dev.flag, mirrorDioFault, raise_reg (offEvents_fld rfl), Dev.reg_setFlag_other _ _ _ _ _ (by decide), ← Dev.flag, flag_setIsl, hl]

/-- The highest channel that is on. -/
theorem find_highest {p : Nat → Bool} {n i : Nat} (hi : i < n) (hp : p i = true) (hmax : ∀ j, i < j → j < n → p j = false) :
    ((List.range n).reverse).find? p = some i := by
  have hmem : i ∈ (List.range n).reverse := List.mem_reverse.mpr (List.mem_range.mpr hi)
  obtain ⟨as, bs, hsplit⟩ := List.append_of_mem hmem
  have hsorted : ((List.range n).reverse).Pairwise (fun a b => b < a) := List.pairwise_reverse.mpr List.pairwise_lt_range
  rw [hsplit] at hsorted ⊢
  rw [List.pairwise_append] at hsorted
  obtain ⟨-, -, hbefore⟩ := hsorted
  refine List.find?_eq_some_iff_append.mpr ⟨hp, as, bs, rfl, fun j hj => ?_⟩
  have hjn : j < n := List.mem_range.mp (List.mem_reverse.mp (hsplit ▸ List.mem_append_left _ hj))
  rw [hmax j (hbefore j hj i List.mem_cons_self) hjn]
  rfl

theorem totalOverload_eq (hi : bit d.isl.dio i = true) (hmax : ∀ j : Fin 16, i < j → bit d.isl.dio j = false) :
    totalOverload d = reportStatus true (dioLatchOff i d) := by
  have hfind : ((List.range 16).reverse).find? (fun i => bit d.isl.dio i) = some i.val :=
    find_highest i.isLt hi (fun j hij hj => hmax ⟨j, hj⟩ hij)
  have hfin : Fin.ofNat 16 i.val = i := Fin.ext (Nat.mod_eq_of_lt i.isLt)
  rw [totalOverload, hfind]
  dsimp only
  rw [hfin]

/-- An output that moves takes what it wants. -/
theorem aoMove_takes (t : Nat) (slews : Bool) (j : Fin 4) (x : Island) : ((aoMove t slews j x).ao[j]).drive = (x.aoWants j).1 ∧
    ((aoMove t slews j x).ao[j]).target = (x.aoWants j).2 := by
  unfold aoMove
  dsimp only
  generalize (if (!(x.aoWants j).1) = true then (0 : Rat) else _) = q
  by_cases h : (x.ao[j]).target = (x.aoWants j).2 ∧ (x.ao[j]).drive = (x.aoWants j).1 ∧ (x.ao[j]).dac = q
  · rw [if_pos h]
    exact ⟨h.2.1, h.1⟩
  · rw [if_neg h]
    simp

/-- The island with the SHUT of an output. -/
def shutSet (j : Fin 4) (b : Bool) (x : Island) : Island := { x with ao := x.ao.set j { x.ao[j] with shut := b } }

theorem shutSet_at (j : Fin 4) (b : Bool) (x : Island) : (shutSet j b x).ao[j] = { x.ao[j] with shut := b } := by
  simp [shutSet]

/-- A shut output that no trim step drives wants to be off. -/
theorem aoWants_shut (hs : (x.ao[j]).shut = true) (hp : (x.ao[j]).point = none) : x.aoWants j = (false, 0) := by
  have hnone : (if x.powered && !x.uv && !x.safe then (x.ao[j]).point else none) = none := by
    rw [hp, ite_self]
  unfold Island.aoWants
  dsimp only
  rw [hnone]
  dsimp only
  rw [hs, Bool.or_true, if_pos rfl]

theorem aoThermal_eq (hp : d.isl.powered = true) : aoThermal j d =
    if fieldUp (d.setIsl (aoMove d.now false j (shutSet j true d.isl))) then
      mirrorAo j true false true (d.setIsl (aoMove d.now false j (shutSet j true d.isl)))
    else d.setIsl (aoMove d.now false j (shutSet j true d.isl)) := by
  have hpow : ¬ (!d.isl.powered) = true := by
    rw [hp]
    decide
  exact if_neg hpow

theorem fieldFclr_eq {t : Int} (hp : d.isl.powered = true) (ht : t < 140) (hs : (d.isl.ao[j]).shut = true) :
    fieldFclr j t d = mirrorShut (d.setIsl (aoMove (pinInstant d) true j (shutSet j false d.isl))) := by
  have hcond : ¬ (!d.isl.powered || decide (140 ≤ t) || !(d.isl.ao[j]).shut) = true := by
    rw [hp, hs, decide_eq_false (show ¬ 140 ≤ t by omega)]
    decide
  exact if_neg hcond

/-- SHUT of AOj in the mirror, beside the island. -/
def shutShown (j : Fin 4) (d : Dev) : Bool × Island := (d.flag (FLD_AO_STAT j) 2, d.isl)

theorem shutShown_setFlag {k : Nat} (hk : k ≠ j.val) (b : Bool) (d : Dev) :
    shutShown j (Dev.setFlag (FLD_AO_STAT k) 2 b d) = shutShown j d := by
  have hne : FLD_AO_STAT j ≠ FLD_AO_STAT k := by unfold FLD_AO_STAT; omega
  exact Prod.ext (congrArg (fun v => bit v 2) (Dev.reg_setFlag_other _ _ _ _ _ hne)) rfl

theorem shutShown_set (b : Bool) (d : Dev) : shutShown j (Dev.setFlag (FLD_AO_STAT j) 2 b d) = (b, d.isl) :=
  Prod.ext (flag_setFlag_same (by decide) _ _ _) rfl

/-- The mirror's SHUT is the island's. -/
theorem mirrorShut_flag (h : fieldUp d = true) (j : Fin 4) : (mirrorShut d).flag (FLD_AO_STAT j) 2 = (d.isl.ao[j]).shut := by
  have hfin : Fin.ofNat 4 j.val = j := Fin.ext (Nat.mod_eq_of_lt j.isLt)
  have hfold := forAll_at (f := fun j d => Dev.setFlag (FLD_AO_STAT j) 2 (d.isl.ao[Fin.ofNat 4 j]).shut d)
    (π := shutShown j) (g := fun q => ((q.2.ao[j]).shut, q.2)) (k := j.val) (n := 4)
    (fun k _ hk e => shutShown_setFlag hk _ e) (fun e => by simp only [hfin, shutShown_set]; rfl) d
  rw [if_pos j.isLt] at hfold
  rw [mirrorShut, h]
  exact congrArg Prod.fst hfold

end Outputs

/-! ## The obligation -/

section Settle
variable {s : State}

/-- Settles O33: what each input and each output fault leaves on the island and, by `MirrorOnly`, in the mirror. -/
theorem fieldChannels : Obligations.FieldChannels := by
  unfold Obligations.FieldChannels
  refine ⟨fun s hx hl hs => ⟨fun i l hm hne => ⟨fun hn => ?_, fun hn hflag => ?_⟩, fun k x hot hm ht hlt => ?_, fun k hprot => ?_,
      fun k w hready => ?_, fun v t hready => ?_, fun i hready => ?_⟩,
    fun s hp hl hs => ⟨fun i hon => ?_, fun i hon hmax => ?_, fun j => ?_, fun j hpt => ?_, fun j t ht hcool hshut => ?_⟩⟩
  · have hexec : exec (.dioSample i l) s = .next { s with dev := dioSample i l s.dev } := rfl
    rw [hexec, dioSample_eq hx hm hne, if_pos (by omega)]
    exact ⟨_, rfl, by simp [Dev.setIsl, Dev.isl], rfl, rfl, elsewhere_setIsl _ _⟩
  · have hexec : exec (.dioSample i l) s = .next { s with dev := dioSample i l s.dev } := rfl
    have hup := fieldUp_setIsl (x := { s.dev.isl with agree := s.dev.isl.agree.set i 0, din := put16 s.dev.isl.din i l }) hx.powered hl
    rw [hexec, dioSample_eq hx hm hne, if_neg (by omega), if_pos hup]
    have hraises := raises_setIsl { s.dev.isl with agree := s.dev.isl.agree.set i 0, din := put16 s.dev.isl.din i l } (raises_awake hs)
    have hmirror := mirror_dio i l (s.dev.setIsl { s.dev.isl with agree := s.dev.isl.agree.set i 0, din := put16 s.dev.isl.din i l })
    have hisl := mirror_isl hmirror
    refine ⟨_, rfl, by rw [hisl]; rfl, by rw [hisl]; simp [Dev.setIsl, Dev.isl], mirrorDio_flag hflag, fun hin hedge => ?_,
      elsewhere_trans (elsewhere_setIsl s.dev _) (mirror_elsewhere hmirror)⟩
    obtain ⟨hstuck, hwake⟩ := mirrorDio_raised hraises hflag hin hedge
    exact ⟨stuck_dio hstuck, hwake⟩
  · have hexec : exec (.aiSample k x hot) s = .next { s with dev := aiSample k x hot s.dev } := rfl
    have hup := fieldUp_setIsl (x := { s.dev.isl with
      seq := s.dev.isl.seq.set k (s.dev.isl.seq[k] + 1), prot := s.dev.isl.prot.set k (s.dev.isl.prot[k] || hot) }) hx.powered hl
    rw [hexec, aiSample_eq hx hm ht, if_pos hup]
    have hq : (s.dev.isl.seq[k] + 1).toNat < 2 ^ 8 := (s.dev.isl.seq[k] + 1).isLt
    have hv : min x 52000 < 2 ^ 16 := by omega
    obtain ⟨hval, hseq⟩ := bits_aiWord (ovr := decide (52000 < x)) (prot := s.dev.isl.prot[k] || hot) hv hq
    obtain ⟨hovr, hprot, hvalid⟩ := bit_aiWord (ovr := decide (52000 < x)) (prot := s.dev.isl.prot[k] || hot) hv hq
    have hmirror := mirror_ai k (word (aiWord (min x 52000) (s.dev.isl.seq[k] + 1).toNat (decide (52000 < x)) (s.dev.isl.prot[k] || hot)))
      (s.dev.setIsl { s.dev.isl with
        seq := s.dev.isl.seq.set k (s.dev.isl.seq[k] + 1), prot := s.dev.isl.prot.set k (s.dev.isl.prot[k] || hot) })
    refine ⟨_, rfl, ?_, ?_, ?_, ?_, ?_, ?_, elsewhere_trans (elsewhere_setIsl s.dev _) (mirror_elsewhere hmirror)⟩
    · rw [Dev.fld, mirrorAi_reg, hval]
    · rw [Dev.fld, mirrorAi_reg, hseq]
    · rw [Dev.flag, mirrorAi_reg, hovr]
    · rw [Dev.flag, mirrorAi_reg, hprot]
    · rw [Dev.flag, mirrorAi_reg, hvalid]
    · rw [mirror_isl hmirror]
      simp [Dev.setIsl, Dev.isl]
  · have hexec : exec (.aiProtEnd k) s = .next { s with dev := aiProtEnd k s.dev } := rfl
    have hup := fieldUp_setIsl (x := { s.dev.isl with prot := s.dev.isl.prot.set k false }) hx.powered hl
    rw [hexec, aiProtEnd_eq hprot, if_pos hup]
    have hmirror := mirror_setFlag (a := FLD_AI k) (ai_block k.isLt) 25 false (s.dev.setIsl { s.dev.isl with prot := s.dev.isl.prot.set k false })
    obtain ⟨-, hreg⟩ := setFlag_setsReg (s.dev.setIsl { s.dev.isl with prot := s.dev.isl.prot.set k false }) (FLD_AI k) 25 false
    refine ⟨_, rfl, ?_, hreg, elsewhere_trans (elsewhere_setIsl s.dev _) (mirror_elsewhere hmirror)⟩
    rw [mirror_isl hmirror]
    simp [Dev.setIsl, Dev.isl]
  · have hmirror := mirror_ai k w s.dev
    exact ⟨mirrorAi k w s.dev, onReady_ready hready _, mirrorAi_reg k w s.dev, mirror_isl hmirror, mirror_elsewhere hmirror⟩
  · refine ⟨_, onReady_ready hready _, ?_⟩
    rw [← env_word]
    exact setReg_setsReg s.dev FLD_ENV _
  · have hmirror := mirror_dioFault i s.dev
    obtain ⟨hflag, hstuck⟩ := mirrorDioFault_shows (raises_awake hs) i
    exact ⟨mirrorDioFault i s.dev, onReady_ready hready _, hflag, stuck_dio hstuck, mirror_isl hmirror, mirror_elsewhere hmirror⟩
  · have hexec : exec (.dioOverload i) s = .next { s with dev := dioOverload i s.dev } := rfl
    have heq : dioOverload i s.dev = dioLatchOff i s.dev := if_pos hon
    obtain ⟨hisl, hflag, hstuck, -, helse⟩ := dioLatchOff_shows hp hl (raises_awake hs) i
    obtain ⟨-, hoff, hdio⟩ := latchedOff_shows i s.dev.now s.dev.isl
    rw [hexec, heq]
    exact ⟨_, rfl, by rw [hisl, hoff], by rw [hisl, hdio], hflag, stuck_dio hstuck, helse⟩
  · have hexec : exec .totalOverload s = .next { s with dev := totalOverload s.dev } := rfl
    obtain ⟨hisl, hflag, -, hlink, helse⟩ := dioLatchOff_shows hp hl (raises_awake hs) i
    obtain ⟨hpow, hoff, hdio⟩ := latchedOff_shows i s.dev.now s.dev.isl
    have hup : fieldUp (dioLatchOff i s.dev) = true := by
      rw [fieldUp, hisl, hpow, hp, hlink]
      rfl
    have hmirror := mirror_report true (dioLatchOff i s.dev)
    obtain ⟨-, -, hovld⟩ := reportStatus_stat hup true
    rw [hexec, totalOverload_eq hon hmax]
    refine ⟨_, rfl, by rw [mirror_isl hmirror, hisl, hoff], by rw [mirror_isl hmirror, hisl, hdio], ?_, by rw [hovld, Bool.or_true],
      elsewhere_trans helse (mirror_elsewhere hmirror)⟩
    rw [Dev.flag, reportStatus_reg (offEvents_fld rfl) (by decide) (by decide) (fun k _ => by unfold FLD_DFLT FLD_AI; omega), ← Dev.flag,
      hflag]
  · have hup : fieldUp s.dev = true := by
      rw [fieldUp, hp, hl]
      rfl
    have hexec : exec (.aoCompliance j) s = .next { s with dev := mirrorAo j false true (s.dev.isl.ao[j]).shut s.dev } :=
      congrArg (fun d => (Host.Outcome.next { s with dev := d } : Out)) (if_pos hup)
    have hmirror := mirror_ao j false true (s.dev.isl.ao[j]).shut s.dev
    obtain ⟨-, hcompl, -⟩ := mirrorAo_stat j false true (s.dev.isl.ao[j]).shut s.dev
    rw [hexec]
    exact ⟨_, rfl, by rw [hcompl, Bool.or_true], stuck_ao (mirrorAo_raised (raises_awake hs) rfl j _), mirror_isl hmirror,
      mirror_elsewhere hmirror⟩
  · have hexec : exec (.aoThermalShutdown j) s = .next { s with dev := aoThermal j s.dev } := rfl
    obtain ⟨v, hmove, hpins⟩ := aoMove_frame s.dev.now false j (shutSet j true s.dev.isl)
    obtain ⟨hdrive, htarget⟩ := aoMove_takes s.dev.now false j (shutSet j true s.dev.isl)
    have hwants : (shutSet j true s.dev.isl).aoWants j = (false, 0) :=
      aoWants_shut (by rw [shutSet_at]) (by rw [shutSet_at]; exact hpt)
    have hpow : (aoMove s.dev.now false j (shutSet j true s.dev.isl)).powered = true := by
      rw [hmove]
      exact hp
    have hshut : ((aoMove s.dev.now false j (shutSet j true s.dev.isl)).ao[j]).shut = true := by
      rw [hmove]
      exact (hpins j).shut.trans (by rw [shutSet_at])
    rw [hexec, aoThermal_eq hp, if_pos (fieldUp_setIsl hpow hl)]
    have hmirror := mirror_ao j true false true (s.dev.setIsl (aoMove s.dev.now false j (shutSet j true s.dev.isl)))
    obtain ⟨htherm, -, hshow⟩ := mirrorAo_stat j true false true (s.dev.setIsl (aoMove s.dev.now false j (shutSet j true s.dev.isl)))
    have hisl : (mirrorAo j true false true (s.dev.setIsl (aoMove s.dev.now false j (shutSet j true s.dev.isl)))).isl =
      aoMove s.dev.now false j (shutSet j true s.dev.isl) := mirror_isl hmirror
    refine ⟨_, rfl, by rw [hisl, hshut], by rw [hisl, hdrive, hwants], by rw [hisl, htarget, hwants], by rw [htherm, Bool.or_true],
      hshow, elsewhere_trans (elsewhere_setIsl s.dev _) (mirror_elsewhere hmirror)⟩
  · have hexec : exec (.fclr j t) s = .next { s with dev := fieldFclr j t s.dev } := atEdge_ticking ht _
    obtain ⟨v, hmove, hpins⟩ := aoMove_frame (pinInstant s.dev) true j (shutSet j false s.dev.isl)
    have hpow : (aoMove (pinInstant s.dev) true j (shutSet j false s.dev.isl)).powered = true := by
      rw [hmove]
      exact hp
    have hshut' : ((aoMove (pinInstant s.dev) true j (shutSet j false s.dev.isl)).ao[j]).shut = false := by
      rw [hmove]
      exact (hpins j).shut.trans (by rw [shutSet_at])
    have hword : ((aoMove (pinInstant s.dev) true j (shutSet j false s.dev.isl)).ao[j]).word = (s.dev.isl.ao[j]).word := by
      rw [hmove]
      exact (hpins j).word.trans (by rw [shutSet_at])
    rw [hexec, fieldFclr_eq hp hcool hshut]
    have hmirror := mirror_shut (s.dev.setIsl (aoMove (pinInstant s.dev) true j (shutSet j false s.dev.isl)))
    have hisl : (mirrorShut (s.dev.setIsl (aoMove (pinInstant s.dev) true j (shutSet j false s.dev.isl)))).isl =
      aoMove (pinInstant s.dev) true j (shutSet j false s.dev.isl) := mirror_isl hmirror
    have hflag := mirrorShut_flag (fieldUp_setIsl hpow hl) j
    exact ⟨_, rfl, by rw [hisl, hshut'], by rw [hisl, hword], hflag.trans hshut',
      elsewhere_trans (elsewhere_setIsl s.dev _) (mirror_elsewhere hmirror)⟩

end Settle

end Sys2Proof.Proofs
end

section
/-! PROOFS. SAFE, undervoltage and power of the field island (13_field.md: R267 to R270). -/
namespace Sys2Proof.Proofs
open Sys2Proof Sys2Proof.Machine Sys2Proof.Claims

/-! ## SAFE (R267, R268) -/

section Safe
variable {d : Dev} {x : Island}

theorem islSafe_frame (h : x.safe = false) (imm : Bool) (t : Nat) : ∃ (w : BitVec 16) (v : Vector AoPin 4),
    islSafe imm t x = { x with safe := true, silent := !imm, imm := imm, atSafe := x.dio, dio := w, ao := v } := by
  obtain ⟨w, v, hdrive, -, -⟩ := drive_frame t true { x with safe := true, silent := !imm, imm := imm, atSafe := x.dio }
  refine ⟨w, v, ?_⟩
  rw [islSafe, h, if_neg (by decide), hdrive]

theorem silenceTimeout_eq (hp : d.isl.powered = true) : silenceTimeout d =
    (d.reach (d.isl.beat + d.isl.timeout)).setIsl (islSafe false (d.reach (d.isl.beat + d.isl.timeout)).now d.isl) := by
  have hpow : ¬ (!d.isl.powered) = true := by
    rw [hp]
    decide
  exact if_neg hpow

end Safe

/-! ## Undervoltage (R270) -/

section Undervoltage
variable {d : Dev} {k : Fin 4}

theorem islandDark {t : Nat} (x : Island) (huv : x.uv = true) : ∃ v : Vector AoPin 4, x.drive t false = { x with dio := 0, ao := v } := by
  obtain ⟨w, v, hdrive, hbits, -⟩ := drive_frame t false x
  have hzero : w = 0 := by
    refine BitVec.eq_of_getLsbD_eq (fun i hi => ?_)
    have hlevel : x.dioLevel i = false := by simp [Island.dioLevel, huv]
    rw [BitVec.ofNat_eq_ofNat, BitVec.getLsbD_zero]
    exact (hbits i hi).trans hlevel
  exact ⟨v, by rw [hdrive, hzero]⟩

/-- The island below its undervoltage threshold. -/
def uvIsland (x : Island) : Island := { x with uv := true, din := 0, agree := Vector.replicate 16 0 }

/-- The mirror's inputs read 0. -/
def inputsClear (d : Dev) : Dev := forAll 4 (fun k d => d.setReg (FLD_AI k) (d.reg (FLD_AI k) &&& 0x7FF0000)) (setDin 0 d)

/-- What the mirror shows of an undervoltage, on a link that is up. -/
def uvReported (d : Dev) : Dev := if fieldUp d then reportStatus false (inputsClear d) else d

theorem fieldUndervoltage_eq (b : Bool) (d : Dev) : fieldUndervoltage b d =
    if b then (uvReported (d.setIsl ((uvIsland d.isl).drive d.now false))).setIsl { Island.reset with powered := false }
    else uvReported (d.setIsl ((uvIsland d.isl).drive d.now false)) := by
  unfold fieldUndervoltage uvReported inputsClear uvIsland
  rfl

theorem mirror_inputsClear (d : Dev) : MirrorOnly d (inputsClear d) :=
  mirror_trans (mirror_setDin 0 d) (mirror_forAll (fun k e hk => mirror_setReg (ai_block hk) _ e) _)

theorem inputsClear_reg {a : Nat} (hdin : a ≠ FLD_DIN) (hai : ∀ k, k < 4 → a ≠ FLD_AI k) : (inputsClear d).reg a = d.reg a := by
  have hfold (x : Dev) : (forAll 4 (fun k d => d.setReg (FLD_AI k) (d.reg (FLD_AI k) &&& 0x7FF0000)) x).reg a = x.reg a :=
    List.foldlRecOn (motive := fun y : Dev => y.reg a = x.reg a) _ _ rfl
      (fun y hy k hk => ((Dev.reg_setReg _ _ _ _).trans (if_neg (hai k (List.mem_range.mp hk)))).trans hy)
  exact (hfold _).trans ((reg_setDin _ _ _).trans (if_neg hdin))

theorem inputsClear_din (d : Dev) : (inputsClear d).reg FLD_DIN = 0 := by
  have hfold (x : Dev) : (forAll 4 (fun k d => d.setReg (FLD_AI k) (d.reg (FLD_AI k) &&& 0x7FF0000)) x).reg FLD_DIN = x.reg FLD_DIN :=
    forAll_keeps (π := fun y : Dev => y.reg FLD_DIN)
      (fun _ y => (Dev.reg_setReg _ _ _ _).trans (if_neg (by unfold FLD_DIN FLD_AI; omega))) 4 x
  exact (hfold _).trans ((reg_setDin _ _ _).trans (if_pos rfl))

theorem inputsClear_ai (k : Fin 4) (d : Dev) : (inputsClear d).reg (FLD_AI k) = d.reg (FLD_AI k) &&& 0x7FF0000 := by
  have hfold := forAll_at (f := fun k (d : Dev) => d.setReg (FLD_AI k) (d.reg (FLD_AI k) &&& 0x7FF0000)) (π := fun y : Dev => y.reg (FLD_AI k))
    (g := fun v => v &&& 0x7FF0000) (k := k.val) (n := 4)
    (fun j _ hj e => (Dev.reg_setReg _ _ _ _).trans (if_neg (by unfold FLD_AI; omega)))
    (fun e => (Dev.reg_setReg _ _ _ _).trans (if_pos rfl)) (setDin 0 d)
  rw [if_pos k.isLt] at hfold
  refine hfold.trans (congrArg (fun v => v &&& 0x7FF0000) ?_)
  exact (reg_setDin _ _ _).trans (if_neg (by unfold FLD_DIN FLD_AI; omega))

/-- An AI word of the mirror, while it knows of no valid configuration, reads 0. -/
theorem mirrorValid_ai (valid : Bool) (k : Fin 4) (d : Dev) : (mirrorValid valid d).reg (FLD_AI k) = if valid then d.reg (FLD_AI k) else 0 := by
  cases valid
  · have hfold (x : Dev) := forAll_at (f := fun k (d : Dev) => d.setReg (FLD_AI k) 0) (π := fun y : Dev => y.reg (FLD_AI k))
      (g := fun _ => 0) (k := k.val) (n := 4)
      (fun j _ hj e => (Dev.reg_setReg _ _ _ _).trans (if_neg (by unfold FLD_AI; omega)))
      (fun e => (Dev.reg_setReg _ _ _ _).trans (if_pos rfl)) x
    exact (hfold _).trans (if_pos k.isLt)
  · rfl

/-- UV that comes up raises event 198. -/
theorem reportStatus_uv (h : fieldUp d = true) (huv : d.isl.uv = true) (hwas : d.flag FLD_STAT 3 = false) (hx : Raises d) (ovld : Bool) :
    Stuck 198 (reportStatus ovld d) := by
  have hset (i : Nat) (b : Bool) (e : Dev) : MirrorOnly e (Dev.setFlag FLD_STAT i b e) := mirror_setFlag rfl i b e
  have hraised (cfgv safe silent imm : Bool) : Stuck 198 (mirrorStatus cfgv safe true ovld silent imm d) := by
    have hmirror := mirror_trans (mirror_trans (mirror_trans (hset 3 true d) (hset 2 safe _)) (hset 1 cfgv _))
      (mirror_trans (mirror_trans (mirror_marked (safe && !d.flag FLD_STAT 2 && silent) 5 _)
        (mirror_marked (safe && !d.flag FLD_STAT 2 && imm) 7 _)) (mirror_marked ovld 4 _))
    obtain ⟨-, hstand⟩ := mirror_trans (mirror_trans hmirror (mirror_raiseIf ovld 199 _)) (mirror_raiseIf (safe && !d.flag FLD_STAT 2) 197 _)
    rw [mirrorStatus_eq, hwas]
    exact raise_stuck (by decide) (hstand.1 hx)
  rw [reportStatus_up h, huv]
  obtain ⟨-, hstand⟩ := mirror_valid d.isl.cfg.isSome
    (mirrorStatus (decide (d.isl.cfg = some (mirrorCfg d))) d.isl.safe true ovld d.isl.silent d.isl.imm d)
  exact hstand.2 198 (by decide) (hraised _ _ _ _)

theorem mirror_uvReported (d : Dev) : MirrorOnly d (uvReported d) :=
  mirror_ite (mirror_trans (mirror_inputsClear d) (mirror_report false _)) (mirror_refl d)

theorem uvReported_down (h : fieldUp d = false) : uvReported d = d := by
  rw [uvReported, h]
  rfl

theorem bits_masked (w : Word) : bits (w &&& 0x7FF0000) 15 0 = 0 := by
  have hlow : (w.toNat &&& 134152192) % 2 ^ 16 = 0 := by
    rw [Nat.and_mod_two_pow]
    simp
  rw [bits, BitVec.toNat_and]
  simpa using hlow

/-- The mirror while the island is below its threshold. -/
theorem uvReported_shows (h : fieldUp d = true) (huv : d.isl.uv = true) : (uvReported d).reg FLD_DIN = 0 ∧
    (uvReported d).flag FLD_STAT 3 = true ∧ (∀ k : Fin 4, (uvReported d).fld (FLD_AI k) 15 0 = 0) ∧
    (d.flag FLD_STAT 3 = false → Raises d → Stuck 198 (uvReported d)) := by
  have hmirror := mirror_inputsClear d
  have hisl := mirror_isl hmirror
  have hstat (i : Nat) : (inputsClear d).flag FLD_STAT i = d.flag FLD_STAT i :=
    congrArg (fun v => bit v i) (inputsClear_reg (by decide) (fun k _ => by unfold FLD_STAT FLD_AI; omega))
  have hup : fieldUp (inputsClear d) = true := by
    rw [← h, fieldUp, hisl, hstat, fieldUp]
  have hshow : uvReported d = reportStatus false (inputsClear d) := if_pos h
  obtain ⟨-, huv', -⟩ := reportStatus_stat hup false
  have hdin (cfgv safe uv ovld silent imm : Bool) : (mirrorStatus cfgv safe uv ovld silent imm (inputsClear d)).reg FLD_DIN = 0 :=
    (mirrorStatus_reg _ _ _ _ _ _ _ (offEvents_fld rfl) (by decide)).trans (inputsClear_din d)
  have hai (k : Fin 4) (cfgv safe uv ovld silent imm : Bool) :
      (mirrorStatus cfgv safe uv ovld silent imm (inputsClear d)).reg (FLD_AI k) = d.reg (FLD_AI k) &&& 0x7FF0000 :=
    (mirrorStatus_reg _ _ _ _ _ _ _ (offEvents_fld (ai_block k.isLt)) (by unfold FLD_STAT FLD_AI; omega)).trans (inputsClear_ai k d)
  rw [hshow]
  refine ⟨?_, by rw [huv', hisl, huv], fun k => ?_, fun hwas hx => ?_⟩
  · rw [reportStatus_up hup, mirrorValid_din, hdin, ite_self]
  · rw [reportStatus_up hup, Dev.fld, mirrorValid_ai, hai]
    split
    · exact bits_masked _
    · rfl
  · exact reportStatus_uv hup (by rw [hisl, huv]) (by rw [hstat, hwas]) (hmirror.2.1 hx) false

end Undervoltage

/-! ## Power (R269) -/

section Power
variable {d : Dev}

theorem trimLinkLost_frame (step : Nat) (d : Dev) : ∃ r t, trimLinkLost step d = { d with regs := r, trim := { d.trim with ended := t } } ∧
    ∀ a, a ≠ TRM_STAT → (trimLinkLost step d).reg a = d.reg a := by
  unfold trimLinkLost
  split
  · exact ⟨_, _, rfl, fun a ha => Dev.reg_setFld_other _ _ _ _ _ _ ha⟩
  · exact ⟨d.regs, d.trim.ended, rfl, fun a _ => rfl⟩

theorem islandPowerUp_shows (d : Dev) : (islandPowerUp d).isl = { Island.reset with beat := d.now } ∧
    (islandPowerUp d).trim.seg = Vector.replicate 4 none ∧ (islandPowerUp d).reg TRM_FOSC = 0 ∧
    (islandPowerUp d).fld TRM_SRC 11 8 = 0 ∧ Elsewhere d (islandPowerUp d) := by
  obtain ⟨r, t, hlost, hreg⟩ := trimLinkLost_frame 3 (Dev.setFld TRM_SRC 11 8 0 (d.setReg TRM_FOSC 0))
  have hfosc : (trimLinkLost 3 (Dev.setFld TRM_SRC 11 8 0 (d.setReg TRM_FOSC 0))).reg TRM_FOSC = 0 := by
    rw [hreg _ (by decide), Dev.reg_setFld_other _ _ _ _ _ _ (by decide), Dev.reg_setReg, if_pos rfl]
  have hsrc : (trimLinkLost 3 (Dev.setFld TRM_SRC 11 8 0 (d.setReg TRM_FOSC 0))).fld TRM_SRC 11 8 = 0 := by
    rw [Dev.fld, hreg _ (by decide), ← Dev.fld, fld_setFld (by decide) (by decide)]
  unfold islandPowerUp
  rw [hlost] at hfosc hsrc ⊢
  exact ⟨rfl, rfl, hfosc, hsrc, ⟨rfl, rfl, rfl, rfl, ⟨rfl, rfl⟩, rfl, rfl, rfl, rfl⟩⟩

theorem fieldRecovery_eq (hp : d.isl.powered = true) (hu : d.isl.uv = true) : fieldRecovery d =
    reportStatus false (d.setIsl (Island.drive d.now true { d.isl with uv := false })) := by
  refine if_pos ?_
  rw [hp, hu]
  rfl

end Power

/-- Settles O34: SAFE by `islSafe_frame`, undervoltage by `uvReported_shows`, power-up by `islandPowerUp_shows`. -/
theorem fieldSafety : Obligations.FieldSafety := by
  unfold Obligations.FieldSafety
  intro s hp
  obtain ⟨v, hdark⟩ := islandDark (t := s.dev.now) (uvIsland s.dev.isl) rfl
  have huv (b : Bool) : exec (.fieldUndervoltage b) s = .next { s with dev := fieldUndervoltage b s.dev } := rfl
  have hmirror := mirror_uvReported (s.dev.setIsl { uvIsland s.dev.isl with dio := 0, ao := v })
  have hisl := mirror_isl hmirror
  have helse := elsewhere_trans (elsewhere_setIsl s.dev _) (mirror_elsewhere hmirror)
  refine ⟨fun hsafe => ?_, fun hsafe hhalt => ?_, ?_, ?_, fun hl b => ?_, fun hu => ?_, ?_⟩
  · have hexec : exec .silenceTimeout s = .next { s with dev := silenceTimeout s.dev } := rfl
    obtain ⟨w, v, hframe⟩ := islSafe_frame hsafe false (s.dev.reach (s.dev.isl.beat + s.dev.isl.timeout)).now
    rw [hexec, silenceTimeout_eq hp, hframe]
    exact ⟨_, rfl, rfl, rfl, rfl, rfl, rfl, rfl, ⟨rfl, rfl, rfl, rfl, ⟨rfl, rfl⟩, rfl, rfl, rfl, rfl⟩⟩
  · obtain ⟨w, v, hframe⟩ := islSafe_frame hsafe true s.dev.now
    have hexec : exec .immediateSafeMarker s = .next { s with dev := s.dev.setIsl (islSafe true s.dev.now s.dev.isl) } := by
      refine congrArg (fun d => (Host.Outcome.next { s with dev := d } : Out)) (if_pos ?_)
      rw [hhalt, hp]
      rfl
    rw [hexec, hframe]
    exact ⟨_, rfl, rfl, rfl, rfl, rfl, rfl, elsewhere_setIsl _ _⟩
  · rw [huv, fieldUndervoltage_eq, if_neg (by decide), hdark]
    refine ⟨_, rfl, by rw [hisl]; rfl, by rw [hisl]; rfl, by rw [hisl]; rfl, by rw [hisl]; rfl, fun hl => ?_, helse⟩
    have hdown : fieldUp (s.dev.setIsl { uvIsland s.dev.isl with dio := 0, ao := v }) = false := by
      rw [fieldUp, flag_setIsl, hl, Bool.and_false]
    rw [uvReported_down hdown]
    rfl
  · rw [huv, fieldUndervoltage_eq, if_pos rfl, hdark]
    exact ⟨_, rfl, rfl, elsewhere_trans helse (elsewhere_setIsl _ _)⟩
  · have hup : fieldUp (s.dev.setIsl { uvIsland s.dev.isl with dio := 0, ao := v }) = true := fieldUp_setIsl hp hl
    obtain ⟨hdin, hstat, hai, hstuck⟩ := uvReported_shows hup rfl
    have hraised (hwas : s.dev.flag FLD_STAT 3 = false) (hs : s.dev.pw.stopped = false) :=
      hstuck hwas (raises_setIsl _ (raises_awake hs))
    rw [huv, fieldUndervoltage_eq, hdark]
    generalize uvReported (s.dev.setIsl { uvIsland s.dev.isl with dio := 0, ao := v }) = e at hdin hstat hai hraised
    cases b
    · exact ⟨e, rfl, hdin, hstat, hai, hraised⟩
    · exact ⟨_, rfl, hdin, hstat, hai, hraised⟩
  · have hexec : exec .vfieldRecovery s = .next { s with dev := fieldRecovery s.dev } := rfl
    obtain ⟨w, v, hdrive, -, -⟩ := drive_frame s.dev.now true { s.dev.isl with uv := false }
    have hmirror := mirror_report false (s.dev.setIsl { s.dev.isl with uv := false, dio := w, ao := v })
    have hisl := mirror_isl hmirror
    rw [hexec, fieldRecovery_eq hp hu, hdrive]
    refine ⟨_, rfl, by rw [hisl]; rfl, fun hl => ?_, by rw [hisl]; rfl, by rw [hisl]; rfl,
      elsewhere_trans (elsewhere_setIsl s.dev _) (mirror_elsewhere hmirror)⟩
    obtain ⟨-, hclear, -⟩ := reportStatus_stat (fieldUp_setIsl (x := { s.dev.isl with uv := false, dio := w, ao := v }) hp hl) false
    exact hclear
  · have hexec : exec .islandPowerUp s = .next { s with dev := islandPowerUp s.dev } := rfl
    obtain ⟨hisl, hseg, hfosc, hsrc, helse⟩ := islandPowerUp_shows s.dev
    exact ⟨_, hexec, hisl, by rw [hisl]; rfl, by rw [hisl]; rfl, by rw [hisl]; rfl, hseg, hfosc, hsrc, helse⟩

end Sys2Proof.Proofs
end

section
/-! PROOFS. The Tendril's own rules (14_tendril.md: R273 to R283, R288): start, conversions, slots, the loop's source. -/
namespace Sys2Proof.Proofs
open Sys2Proof Sys2Proof.Machine Sys2Proof.Claims

/-! ## Rounding and clamping (R276) -/

theorem clampI_eq {lo hi : Int} (h : lo ≤ hi) (x : Int) : clampI lo hi x = max lo (min hi x) := by
  unfold clampI
  split
  · omega
  · split <;> omega

/-- An integer nearer than one half is the rounded quotient, whichever way a tie goes. -/
theorem roundNear_nearest {n v : Int} {m : Nat} (tie : Bool) (h : 2 * (v * m - n).natAbs < m) : roundNear tie n m = v := by
  have hm : (0 : Int) < m := by omega
  have hdiv : n.fdiv m = n / m := Int.fdiv_eq_ediv_of_nonneg n hm.le
  have hrem : n = n / m * m + n % m := by rw [Int.mul_comm, Int.mul_ediv_add_emod]
  have hlow : 0 ≤ n % m := Int.emod_nonneg n hm.ne'
  have hhigh : n % m < m := Int.emod_lt_of_pos n hm
  have hdist : v * m - n = (v - n / m) * m - n % m := by
    rw [Int.sub_mul]
    omega
  rw [hdist] at h
  have hcases : v - n / m = 0 ∨ v - n / m = 1 := by
    rcases lt_trichotomy (v - n / m) 0 with hk | hk | hk
    · have hle : (v - n / m) * m ≤ -1 * m := Int.mul_le_mul_of_nonneg_right (by omega) hm.le
      omega
    · exact .inl hk
    · by_contra hne
      have hle : 2 * (m : Int) ≤ (v - n / m) * m := Int.mul_le_mul_of_nonneg_right (by omega) hm.le
      omega
  unfold roundNear
  dsimp only
  rw [hdiv]
  have hr : n - n / m * m = n % m := by omega
  rw [hr]
  rcases hcases with hk | hk
  · rw [hk, Int.zero_mul] at h
    rw [if_pos (.inl (by omega))]
    omega
  · rw [hk, Int.one_mul] at h
    have hnot : ¬ (2 * (n % m) < (m : Int) ∨ 2 * (n % m) = (m : Int) ∧ (!tie) = true) := by omega
    rw [if_neg hnot]
    omega

theorem vinCode_nearest {d : Dev} {vd vr v : Int} (h : nearestCode d.tdl vd vr v) : vinCode d vd vr = v := by
  obtain ⟨hpos, hnear⟩ := h
  have hgain : (1 : Int) * [1, 8, 32, 128].getD (bits d.tdl.scfg 4 2) 1 = tdlGain d.tdl := Int.one_mul _
  have hnat : ((tdlRef d.tdl vr).toNat : Int) = tdlRef d.tdl vr := Int.toNat_of_nonneg hpos.le
  have heq : vinCode d vd vr = if tdlRef d.tdl vr ≤ 0 then (Config.freeWord d.freeCtr).toInt
      else roundNear (Config.roundUp d.freeCtr) (vd * ((1 : Int) * [1, 8, 32, 128].getD (bits d.tdl.scfg 4 2) 1) * 2 ^ 23)
        (tdlRef d.tdl vr).toNat := rfl
  rw [heq, if_neg (by omega), hgain]
  refine roundNear_nearest _ ?_
  rw [hnat]
  exact hnear

/-! ## Conversions (R276, R277) -/

section Conversion
variable {t : Tendril} {vo co o : Bool} {v c : Word}

/-- The voltage channel takes a code. -/
def vTaken (vo : Bool) (v : Word) (o : Bool) (t : Tendril) : Tendril :=
  if !t.vOn then t else
    let vb := if vo then t.vbad + 1 else 0
    let eb := if o then t.ebad + 1 else 0
    let sf := decide (2 ≤ vb) || decide (2 ≤ eb) || (t.sfV && (vo || o))
    { t with vbad := vb, ebad := eb, vin := if sf && !vo then t.vgood else v, vseq := t.vseq + 1, sfV := sf,
             vgood := if vo || o then t.vgood else v }

/-- The capacitance channel takes a code. -/
def cTaken (co : Bool) (c : Word) (t : Tendril) : Tendril :=
  if !t.cOn then t else
    let cb := if co then t.cbad + 1 else 0
    { t with cbad := cb, cin := c, cseq := t.cseq + 1, sfC := decide (2 ≤ cb) || (t.sfC && co) }

theorem vTaken_keeps (vo : Bool) (v : Word) (o : Bool) (t : Tendril) : (vTaken vo v o t).settle = t.settle ∧
    (vTaken vo v o t).cOn = t.cOn ∧ (vTaken vo v o t).cseq = t.cseq := by
  unfold vTaken
  split
  · exact ⟨rfl, rfl, rfl⟩
  · exact ⟨rfl, rfl, rfl⟩

theorem cTaken_keeps (co : Bool) (c : Word) (t : Tendril) : (cTaken co c t).settle = t.settle ∧ (cTaken co c t).vin = t.vin ∧
    (cTaken co c t).vseq = t.vseq ∧ (cTaken co c t).sfV = t.sfV := by
  unfold cTaken
  split
  · exact ⟨rfl, rfl, rfl, rfl⟩
  · exact ⟨rfl, rfl, rfl, rfl⟩

theorem cTaken_on (h : t.cOn = true) : (cTaken co c t).cin = c ∧ (cTaken co c t).cseq = t.cseq + 1 := by
  rw [cTaken, h]
  exact ⟨rfl, rfl⟩

/-- The voltage channel after a conversion: its fault, and the value that it shows. -/
theorem vTaken_on (h : t.vOn = true) : (vTaken vo v o t).vseq = t.vseq + 1 ∧
    (o = false → (vTaken vo v o t).vin = v ∧ (vo = false → (vTaken vo v o t).sfV = false)) ∧
    (vo = true → 1 ≤ t.vbad → (vTaken vo v o t).sfV = true) ∧
    (o = true → 1 ≤ t.ebad → (vTaken vo v o t).sfV = true ∧ (vo = false → (vTaken vo v o t).vin = t.vgood)) := by
  rw [vTaken, h]
  refine ⟨rfl, ?_, ?_, ?_⟩
  · rintro rfl
    cases vo
    · exact ⟨by simp, fun _ => by simp⟩
    · exact ⟨by simp, fun hc => absurd hc (by decide)⟩
  · rintro rfl hbad
    simp [show 2 ≤ t.vbad + 1 by omega]
  · rintro rfl hbad
    refine ⟨by simp [show 2 ≤ t.ebad + 1 by omega], ?_⟩
    rintro rfl
    simp [show 2 ≤ t.ebad + 1 by omega]

/-- The Tendril that counts a conversion. -/
def converting (now : Nat) (t : Tendril) : Tendril := { t with settle := t.settle + 1, conv := now, refErr := t.refErr || false }

/-- The Tendril after a conversion with the codes before their clamp. -/
def converted (now : Nat) (vin cin : Int) (o : Bool) (t : Tendril) : Tendril :=
  if (converting now t).settle < 3 then converting now t
  else cTaken (clampCode 0 26214400 cin).1 (clampCode 0 26214400 cin).2
    (vTaken (clampCode (-(2 ^ 23 - 1)) (2 ^ 23 - 1) vin).1 (clampCode (-(2 ^ 23 - 1)) (2 ^ 23 - 1) vin).2 o (converting now t))

theorem conversion_eq {d : Dev} (hp : d.tdl.powered = true) (hon : d.tdl.vOn = true ∨ d.tdl.cOn = true) (ht : tdlTrimming d = false)
    (vd vr cin : Int) (o : Bool) :
    conversion vd vr cin o false d = { d with freeCtr := d.freeCtr + 1, tdl := converted d.now (vinCode d vd vr) cin o d.tdl } := by
  have hcond : ¬ (!d.tickFree.tdl.powered || (!d.tickFree.tdl.vOn && !d.tickFree.tdl.cOn) || tdlTrimming d.tickFree) = true := by
    have htrim : tdlTrimming d.tickFree = false := ht
    have hpow : d.tickFree.tdl.powered = true := hp
    have hchan : (!d.tickFree.tdl.vOn && !d.tickFree.tdl.cOn) = false := by
      rcases hon with h | h
      · have hv : d.tickFree.tdl.vOn = true := h
        rw [hv]
        rfl
      · have hc : d.tickFree.tdl.cOn = true := h
        rw [hc, Bool.not_true, Bool.and_false]
    rw [htrim, hpow, hchan]
    decide
  refine (if_neg hcond).trans ?_
  unfold converted
  by_cases h : (converting d.now d.tdl).settle < 3
  · rw [if_pos h]
    exact if_pos h
  · rw [if_neg h]
    exact if_neg h

theorem converted_settle (now : Nat) (vin cin : Int) (o : Bool) (t : Tendril) : (converted now vin cin o t).settle = t.settle + 1 := by
  unfold converted
  split
  · rfl
  · obtain ⟨hc, -⟩ := cTaken_keeps (clampCode 0 26214400 cin).1 (clampCode 0 26214400 cin).2
      (vTaken (clampCode (-(2 ^ 23 - 1)) (2 ^ 23 - 1) vin).1 (clampCode (-(2 ^ 23 - 1)) (2 ^ 23 - 1) vin).2 o (converting now t))
    obtain ⟨hv, -⟩ := vTaken_keeps (clampCode (-(2 ^ 23 - 1)) (2 ^ 23 - 1) vin).1 (clampCode (-(2 ^ 23 - 1)) (2 ^ 23 - 1) vin).2 o
      (converting now t)
    exact hc.trans hv

/-- The first two conversions give no result. -/
theorem converted_early (h : t.settle < 2) (now : Nat) (vin cin : Int) (o : Bool) : converted now vin cin o t = converting now t :=
  if_pos (by unfold converting; dsimp only; omega)

theorem converted_late (h : 2 ≤ t.settle) (now : Nat) (vin cin : Int) (o : Bool) : converted now vin cin o t =
    cTaken (clampCode 0 26214400 cin).1 (clampCode 0 26214400 cin).2
      (vTaken (clampCode (-(2 ^ 23 - 1)) (2 ^ 23 - 1) vin).1 (clampCode (-(2 ^ 23 - 1)) (2 ^ 23 - 1) vin).2 o (converting now t)) :=
  if_neg (by unfold converting; dsimp only; omega)

theorem converted_cin (h : 2 ≤ t.settle) (hc : t.cOn = true) (now : Nat) (vin cin : Int) (o : Bool) :
    (converted now vin cin o t).cin = wordI (max 0 (min 26214400 cin)) ∧ (converted now vin cin o t).cseq = t.cseq + 1 := by
  obtain ⟨-, hon, hseq⟩ := vTaken_keeps (clampCode (-(2 ^ 23 - 1)) (2 ^ 23 - 1) vin).1 (clampCode (-(2 ^ 23 - 1)) (2 ^ 23 - 1) vin).2 o
    (converting now t)
  obtain ⟨hcin, hcseq⟩ := cTaken_on (co := (clampCode 0 26214400 cin).1) (c := (clampCode 0 26214400 cin).2) (hon.trans hc)
  rw [converted_late h, hcin, hcseq, hseq]
  exact ⟨congrArg wordI (clampI_eq (by decide) cin), rfl⟩

theorem converted_vin (h : 2 ≤ t.settle) (hv : t.vOn = true) (now : Nat) (v cin : Int) (o : Bool) :
    (converted now v cin o t).vseq = t.vseq + 1 ∧
    (o = false → (converted now v cin o t).vin = wordI (max (-8388607) (min 8388607 v)) ∧
      (-8388607 ≤ v → v ≤ 8388607 → (converted now v cin o t).sfV = false)) ∧
    ((v < -8388607 ∨ 8388607 < v) → 1 ≤ t.vbad → (converted now v cin o t).sfV = true) ∧
    (o = true → 1 ≤ t.ebad → (converted now v cin o t).sfV = true ∧
      (-8388607 ≤ v → v ≤ 8388607 → (converted now v cin o t).vin = t.vgood)) := by
  have hcode : (clampCode (-(2 ^ 23 - 1)) (2 ^ 23 - 1) v).2 = wordI (max (-8388607) (min 8388607 v)) :=
    congrArg wordI (clampI_eq (by decide) v)
  have hin (h1 : -8388607 ≤ v) (h2 : v ≤ 8388607) : (clampCode (-(2 ^ 23 - 1)) (2 ^ 23 - 1) v).1 = false := by
    simp only [clampCode, Bool.or_eq_false_iff, decide_eq_false_iff_not]
    omega
  have hout (h1 : v < -8388607 ∨ 8388607 < v) : (clampCode (-(2 ^ 23 - 1)) (2 ^ 23 - 1) v).1 = true := by
    simp only [clampCode, Bool.or_eq_true, decide_eq_true_eq]
    omega
  rw [converted_late h, hcode]
  generalize (clampCode (-(2 ^ 23 - 1)) (2 ^ 23 - 1) v).1 = vo at hin hout
  obtain ⟨-, hvin, hvseq, hsf⟩ := cTaken_keeps (clampCode 0 26214400 cin).1 (clampCode 0 26214400 cin).2
    (vTaken vo (wordI (max (-8388607) (min 8388607 v))) o (converting now t))
  obtain ⟨hseq, hgood, hrange, hopen⟩ := vTaken_on (t := converting now t) (vo := vo) (o := o)
    (v := wordI (max (-8388607) (min 8388607 v))) hv
  rw [hvin, hvseq, hsf]
  refine ⟨hseq, fun ho => ?_, fun h1 => hrange (hout h1), fun ho hbad => ?_⟩
  · obtain ⟨hval, hok⟩ := hgood ho
    exact ⟨hval, fun h1 h2 => hok (hin h1 h2)⟩
  · obtain ⟨hfault, hval⟩ := hopen ho hbad
    exact ⟨hfault, fun h1 h2 => hval (hin h1 h2)⟩

end Conversion

/-! ## Slots (R279 to R281) -/

section Slot
variable {d : Dev}

/-- The device at the slot marker. -/
def slotReached (d : Dev) : Dev :=
  match d.tdl.slot with
  | some a => d.reach (a + 3000000)
  | none => d

theorem slotReached_frame (d : Dev) : ∃ n, slotReached d = { d with now := n } := by
  unfold slotReached
  split
  · exact ⟨_, rfl⟩
  · exact ⟨d.now, rfl⟩

theorem tendrilSlot_eq (hp : d.tdl.powered = true) (ok : Bool) : tendrilSlot ok d =
    if ok && (slotReached d).ready then
      (slotReached d).setTdl { d.tdl with
        slot := some (slotReached d).now, misses := 0, silent := false
        down := some ⟨(slotReached d).fld TDL_SETPT 15 0, (slotReached d).flag TDL_STAT 2, (slotReached d).mode,
          (slotReached d).origin, (slotReached d).halted⟩ }
    else (slotReached d).setTdl { d.tdl with slot := some (slotReached d).now, misses := d.tdl.misses + 1 } := by
  have hpow : ¬ (!d.tdl.powered) = true := by
    rw [hp]
    decide
  exact if_neg hpow

end Slot

/-! ## The loop's source (R280, R283, R288) -/

section Source
variable {s : State} {t u : Tendril} {a : Nat}

/-- The Tendril at the end of the downlink window: silence as R281 counts it. -/
def selecting (t : Tendril) : Tendril := { t with silent := decide (bits t.sil 7 0 ≤ t.misses) || t.down.isNone }

theorem exec_sourceSelect (s : State) : exec .sourceSelect s = .next { s with dev := sourceSelect s.dev } := rfl

/-- The source and the code of a slot whose marker came at `a`. -/
def sourced (a : Nat) (d : Dev) : Dev :=
  if !(selecting d.tdl).started && !(selecting d.tdl).settled (d.reach (a + 1200000)).now then
    (d.reach (a + 1200000)).tickFree.setTdl { selecting d.tdl with
      src := 0, code := 6000 + (Config.freeWord (d.reach (a + 1200000)).freeCtr).toNat % 801
      dac := ((6000 + (Config.freeWord (d.reach (a + 1200000)).freeCtr).toNat % 801 : Nat) : Rat) }
  else if (selecting d.tdl).holds (d.reach (a + 1200000)).now then (d.reach (a + 1200000)).setTdl (selecting d.tdl)
  else (d.reach (a + 1200000)).setTdl { selecting d.tdl with
    started := true, hold := false, src := (selecting d.tdl).choose.1, code := (selecting d.tdl).choose.2
    dac := (selecting d.tdl).dacFor (selecting d.tdl).choose.1 (selecting d.tdl).choose.2 }

theorem sourceSelect_eq {d : Dev} (hs : d.tdl.slot = some a) : sourceSelect d = sourced a d := by
  have h : sourceSelect d = match d.tdl.slot with
      | none => d
      | some a => sourced a d := rfl
  rw [h, hs]

/-- While the first value is not taken the code is one of 3.0 mA to 3.4 mA. -/
theorem selects_start (hs : s.dev.tdl.slot = some a) (hn : s.dev.tdl.started = false) (hon : s.dev.tdl.vOn = true ∨ s.dev.tdl.cOn = true)
    (h3 : s.dev.tdl.settle < 3) : Selects s 0 (6000 + (Config.freeWord s.dev.freeCtr).toNat % 801) := by
  have hstarted : (selecting s.dev.tdl).started = false := hn
  have hsettled : (selecting s.dev.tdl).settled (s.dev.reach (a + 1200000)).now = false := by
    have hchan : (s.dev.tdl.vOn || s.dev.tdl.cOn) = true := by
      rcases hon with h | h
      · rw [h, Bool.true_or]
      · rw [h, Bool.or_true]
    exact (if_pos hchan).trans (decide_eq_false (by have : (selecting s.dev.tdl).settle = s.dev.tdl.settle := rfl; omega))
  rw [Selects, exec_sourceSelect, sourceSelect_eq hs, sourced, hstarted, hsettled, if_pos (by decide)]
  exact ⟨_, rfl, rfl, rfl, rfl, rfl, ⟨rfl, rfl, rfl, rfl, ⟨rfl, rfl⟩, rfl, rfl, rfl, rfl⟩⟩

/-- While an image is programmed the current holds. -/
theorem selects_held {j : NvJob} (hs : s.dev.tdl.slot = some a) (hn : s.dev.tdl.started = true) (hj : s.dev.tdl.job = some j)
    (hp : j.stage = .program) : Selects s s.dev.tdl.src s.dev.tdl.code := by
  have hstarted : (selecting s.dev.tdl).started = true := hn
  have hholds : (selecting s.dev.tdl).holds (s.dev.reach (a + 1200000)).now = true := by
    have hjob : (selecting s.dev.tdl).job = some j := hj
    rw [Tendril.holds, hjob, Option.any_some, decide_eq_true hp, Bool.true_or]
  rw [Selects, exec_sourceSelect, sourceSelect_eq hs, sourced, hstarted, hholds, Bool.not_true, Bool.false_and, if_neg (by decide), if_pos rfl]
  exact ⟨_, rfl, rfl, rfl, rfl, rfl, ⟨rfl, rfl, rfl, rfl, ⟨rfl, rfl⟩, rfl, rfl, rfl, rfl⟩⟩

/-- A Tendril that drives takes its source and its code by the table of R280. -/
theorem selects_choose {src code : Nat} (h : Driving s.dev.tdl a) (hc : (selecting s.dev.tdl).choose = (src, code)) :
    Selects s src code := by
  have hstarted : (selecting s.dev.tdl).started = true := h.started
  have hholds : (selecting s.dev.tdl).holds (s.dev.reach (a + 1200000)).now = false := by
    have hhold : (selecting s.dev.tdl).hold = false := h.hold
    have hjob : (selecting s.dev.tdl).job.any (fun j => decide (j.stage = .program)) = false := by
      rw [Option.any_eq_false]
      exact fun j hj => by simpa using h.idle j hj
    rw [Tendril.holds, hjob, hhold, Bool.false_and, Bool.or_false]
  rw [Selects, exec_sourceSelect, sourceSelect_eq h.slot, sourced, hstarted, hholds, Bool.not_true, Bool.false_and, if_neg (by decide), if_neg (by decide), hc]
  exact ⟨_, rfl, rfl, rfl, rfl, rfl, ⟨rfl, rfl, rfl, rfl, ⟨rfl, rfl⟩, rfl, rfl, rfl, rfl⟩⟩

theorem choose_nvBad (h : t.nvBad = true) : t.choose = (3, 7200) := by
  rw [Tendril.choose, h]
  rfl

/-- The set-point that a downlink drives, if it does. -/
def drivenSet (t : Tendril) : Option Downlink := if t.silent then none else t.down.filter Downlink.sets

theorem choose_good (hn : t.nvBad = false) (hr : t.refErr = false) (ht : t.trim = none) : t.choose =
    match drivenSet t with
    | some l => (1, clampSet l.set)
    | none => match bits t.sil 9 8 with
      | 0 => if (if bit t.scfg 12 then t.sfC else t.sfV) then alarmOut (bit t.sil 12) else (2, t.tableOut)
      | 2 => alarmOut true
      | _ => alarmOut false := by
  unfold Tendril.choose drivenSet
  simp only [hn, hr, ht, Bool.or_false, Bool.false_eq_true, if_false] <;> rfl

theorem drivenSet_some {l : Downlink} (hs : t.silent = false) (hd : t.down = some l) (hl : l.sets = true) : drivenSet t = some l := by
  rw [drivenSet, hs, hd, if_neg (by decide), Option.filter_some, if_pos hl]

theorem drivenSet_silent (hs : t.silent = true) : drivenSet t = none := if_pos hs

/-- The table is the memory's. -/
theorem tableFrom_congr (h : t.nv = u.nv) (x : Int) : ∀ n p, tableFrom t x n p = tableFrom u x n p := by
  have hin (p : Nat) : t.ptIn p = u.ptIn p := by rw [Tendril.ptIn, Tendril.nvWord, h, Tendril.ptIn, Tendril.nvWord]
  have hout (p : Nat) : t.ptOut p = u.ptOut p := by rw [Tendril.ptOut, Tendril.nvWord, h, Tendril.ptOut, Tendril.nvWord]
  intro n
  induction n with
  | zero => exact fun p => hout p
  | succ n ih =>
    intro p
    simp only [tableFrom, hin, hout, ih]

theorem selecting_table (t : Tendril) : (selecting t).tableOut = t.tableOut := by
  have h := tableFrom_congr (t := selecting t) (u := t) rfl
  unfold Tendril.tableOut
  dsimp only
  rw [h]
  rfl

end Source

end Sys2Proof.Proofs
end

section
/-! PROOFS. The Tendril's mirror and its memory commands (14_tendril.md: R279, R283, R289 to R291). -/
namespace Sys2Proof.Proofs
open Sys2Proof Sys2Proof.Machine Sys2Proof.Claims

/-! ## What an uplink leaves of the registers it has written -/

/-- What a valid uplink carries to registers of its own. -/
def uplinkRegs : List Nat := [TDL_VIN, TDL_CIN, TDL_LOOP, TDL_ENV, TDL_FRERR]

/-- Of the device events, the wake request and registers change, but not what the uplink carried, nor LINK. -/
def UplinkStands (d e : Dev) : Prop :=
  (∃ r v m w f, e = { d with regs := r, ev := v, mon := m, pw := { d.pw with wakeReq := w }, freeCtr := f }) ∧
    (∀ a, a ∈ uplinkRegs → e.reg a = d.reg a) ∧ e.flag TDL_STAT 0 = d.flag TDL_STAT 0

section Stands
variable {d e f : Dev}

theorem uplink_refl (d : Dev) : UplinkStands d d := ⟨⟨d.regs, d.ev, d.mon, d.pw.wakeReq, d.freeCtr, rfl⟩, fun _ _ => rfl, rfl⟩

theorem uplink_trans (h : UplinkStands d e) (k : UplinkStands e f) : UplinkStands d f := by
  obtain ⟨⟨r, v, m, w, q, rfl⟩, hreg, hlink⟩ := h
  obtain ⟨⟨r', v', m', w', q', rfl⟩, kreg, klink⟩ := k
  exact ⟨⟨r', v', m', w', q', rfl⟩, fun a ha => (kreg a ha).trans (hreg a ha), klink.trans hlink⟩

theorem uplink_ite {b : Bool} (h : UplinkStands d e) : UplinkStands d (if b then e else d) := by
  cases b
  · exact uplink_refl d
  · exact h

theorem offEvents_tdl {a : Nat} (h : a / 0x10000 = 0x10B) : OffEvents a := offEvents_of_block (by omega) (by omega)

theorem uplinkRegs_block {a : Nat} (h : a ∈ uplinkRegs) : a / 0x10000 = 0x10B ∧ a ≠ TDL_STAT :=
  (by decide : ∀ a ∈ uplinkRegs, a / 0x10000 = 0x10B ∧ a ≠ TDL_STAT) a h

theorem uplink_raise (ev : Nat) (d : Dev) : UplinkStands d (raise ev d) := by
  obtain ⟨r, v, m, h⟩ := raise_frame ev d
  refine ⟨⟨r, v, m, d.pw.wakeReq, d.freeCtr, h⟩, fun a ha => ?_, ?_⟩
  · obtain ⟨hblock, -⟩ := uplinkRegs_block ha
    exact raise_reg (offEvents_tdl hblock) ev d
  · rw [Dev.flag, raise_reg (offEvents_tdl rfl), ← Dev.flag]

theorem uplink_setReg {a : Nat} (ha : a ∉ uplinkRegs) (hs : a ≠ TDL_STAT) (v : Word) (d : Dev) : UplinkStands d (d.setReg a v) := by
  refine ⟨⟨_, d.ev, d.mon, d.pw.wakeReq, d.freeCtr, rfl⟩, fun b hb => ?_, ?_⟩
  · exact (Dev.reg_setReg _ _ _ _).trans (if_neg (fun hc : b = a => ha (hc ▸ hb)))
  · exact congrArg (fun v => bit v 0) ((Dev.reg_setReg _ _ _ _).trans (if_neg (Ne.symm hs)))

theorem uplink_setStat {i : Nat} (hi : i ≠ 0) (b : Bool) (d : Dev) : UplinkStands d (Dev.setFlag TDL_STAT i b d) := by
  refine ⟨⟨_, d.ev, d.mon, d.pw.wakeReq, d.freeCtr, rfl⟩, fun a ha => ?_, flag_setFlag_other (Ne.symm hi) _ _ _⟩
  obtain ⟨-, hne⟩ := uplinkRegs_block ha
  exact Dev.reg_setFlag_other _ _ _ _ _ hne

theorem uplink_setStatFld {hi lo : Nat} (h : 0 < lo) (v : Nat) (d : Dev) : UplinkStands d (Dev.setFld TDL_STAT hi lo v d) := by
  refine ⟨⟨_, d.ev, d.mon, d.pw.wakeReq, d.freeCtr, rfl⟩, fun a ha => ?_, ?_⟩
  · obtain ⟨-, hne⟩ := uplinkRegs_block ha
    exact Dev.reg_setFld_other _ _ _ _ _ _ hne
  · rw [Dev.flag, Dev.reg_setFld, bit_setBits_other (.inl h), ← Dev.flag]

theorem uplink_tdlWake (d : Dev) : UplinkStands d (tdlWake d) :=
  ⟨⟨d.regs, d.ev, d.mon, _, d.freeCtr, rfl⟩, fun _ _ => rfl, rfl⟩

theorem uplink_tickFree (d : Dev) : UplinkStands d d.tickFree :=
  ⟨⟨d.regs, d.ev, d.mon, d.pw.wakeReq, _, rfl⟩, fun _ _ => rfl, rfl⟩

theorem uplink_tdl (h : UplinkStands d e) : e.tdl = d.tdl ∧ e.tdlLink = d.tdlLink := by
  obtain ⟨⟨r, v, m, w, q, rfl⟩, -, -⟩ := h
  exact ⟨rfl, rfl⟩

theorem uplink_elsewhere (h : UplinkStands d e) : Elsewhere d e := by
  obtain ⟨⟨r, v, m, w, q, rfl⟩, -, -⟩ := h
  exact ⟨rfl, rfl, rfl, rfl, ⟨rfl, rfl⟩, rfl, rfl, rfl, rfl⟩

end Stands

/-! ## The uplink (R279) -/

section Uplink
variable {d : Dev} {mv temp : BitVec 16}

/-- The registers that take a value of the uplink. -/
def uplinkTaken (mv temp : BitVec 16) (d : Dev) : Dev :=
  ((((d.setReg TDL_VIN d.tdl.vin).setReg TDL_CIN d.tdl.cin).setReg TDL_SEQ
    (word (d.tdl.vseq.toNat + 256 * d.tdl.cseq.toNat + 65536 * d.tdl.rxSeq.toNat + 2 ^ 24 * d.tdl.txSeq.toNat))).setReg TDL_LOOP
      (word (d.tdl.code + 65536 * d.tdl.src))).setReg TDL_ENV (temp.setWidth 32 <<< (16 : Nat) ||| mv.setWidth 32)

/-- The status that the uplink carries. -/
def statusTaken (t : Tendril) (d : Dev) : Dev :=
  Dev.setFld TDL_STAT 10 8 t.src (Dev.setFlag TDL_STAT 1 t.silent (Dev.setFlag TDL_STAT 4 t.nvBad
    (Dev.setFlag TDL_STAT 5 t.refErr (Dev.setFlag TDL_STAT 6 t.sfV (Dev.setFlag TDL_STAT 7 t.sfC
      (d.setReg TDL_NVTCRC (if t.nvFail then Config.freeWord d.freeCtr &&& 0xFFFF else t.crc)))))))

/-- A mark with an event, where it comes up. -/
def statRaised (b : Bool) (i ev : Nat) (d : Dev) : Dev := if b then raise ev (Dev.setFlag TDL_STAT i true d) else d

/-- An event that wakes, where it comes up. -/
def wakeRaised (b : Bool) (ev : Nat) (d : Dev) : Dev := if b then tdlWake (raise ev d) else d

/-- A restart, where the uplink reports one. -/
def restartTaken (b : Bool) (d : Dev) : Dev :=
  if b then raise 201 (Dev.setFlag TDL_STAT 16 true (Dev.count1 TDL_RESTARTS (tdlRestarted d))) else d

/-- The errors of reception since the last uplink. -/
def rxErrTaken (n : Nat) (d : Dev) : Dev :=
  if n = 0 then d else Dev.setFlag TDL_STAT 18 true (Dev.setFld TDL_HCNT 15 0 (d.fld TDL_HCNT 15 0 + n) d)

def lowTaken (mv : BitVec 16) (d : Dev) : Dev := statRaised (decide (mv.toNat < 10000) && !d.flag TDL_STAT 21) 21 207 d

def foldTaken (t : Tendril) (d : Dev) : Dev := statRaised (t.foldB && !d.flag TDL_STAT 20) 20 207 d

/-- What an uplink does beside the registers of its values. -/
def uplinkNoted (mv : BitVec 16) (t : Tendril) (was : Word) (d : Dev) : Dev :=
  (rxErrTaken t.rxErr (restartTaken t.restart (foldTaken t (lowTaken mv
    (wakeRaised ((decide (t.src = 3) || decide (t.src = 4)) && decide (bits was 10 8 ≠ t.src)) 203
      (wakeRaised ((t.sfV && !bit was 6) || (t.sfC && !bit was 7)) 202 (statusTaken t d))))))).tickFree

theorem tdlMirror_eq (mv temp : BitVec 16) (d : Dev) : tdlMirror mv temp d =
    (uplinkNoted mv d.tdl (d.reg TDL_STAT) (uplinkTaken mv temp d)).setTdl
      { d.tdl with restart := false, rxErr := 0, seen := d.tdl.conv } := by
  unfold tdlMirror uplinkNoted uplinkTaken
  rfl

theorem uplink_statusTaken (t : Tendril) (d : Dev) : UplinkStands d (statusTaken t d) :=
  uplink_trans (uplink_trans (uplink_trans (uplink_trans (uplink_trans (uplink_trans
    (uplink_setReg (by decide) (by decide) _ d) (uplink_setStat (by decide) t.sfC _)) (uplink_setStat (by decide) t.sfV _))
      (uplink_setStat (by decide) t.refErr _)) (uplink_setStat (by decide) t.nvBad _)) (uplink_setStat (by decide) t.silent _))
        (uplink_setStatFld (by decide) t.src _)

theorem uplink_statRaised {i : Nat} (hi : i ≠ 0) (b : Bool) (ev : Nat) (d : Dev) : UplinkStands d (statRaised b i ev d) :=
  uplink_ite (uplink_trans (uplink_setStat hi true d) (uplink_raise ev _))

theorem uplink_lowTaken (mv : BitVec 16) (d : Dev) : UplinkStands d (lowTaken mv d) := uplink_statRaised (by decide) _ 207 d

theorem uplink_foldTaken (t : Tendril) (d : Dev) : UplinkStands d (foldTaken t d) := uplink_statRaised (by decide) _ 207 d

theorem uplink_wakeRaised (b : Bool) (ev : Nat) (d : Dev) : UplinkStands d (wakeRaised b ev d) :=
  uplink_ite (uplink_trans (uplink_raise ev d) (uplink_tdlWake _))

theorem uplink_restartTaken (b : Bool) (d : Dev) : UplinkStands d (restartTaken b d) := by
  refine uplink_ite (uplink_trans (uplink_trans (uplink_trans (e := tdlRestarted d) ?_ ?_) (uplink_setStat (by decide) true _))
    (uplink_raise 201 _))
  · exact uplink_trans (uplink_trans (uplink_setReg (a := TRM_TREF) (by decide) (by decide) _ d)
      (uplink_setReg (a := TRM_TOSC) (by decide) (by decide) 0 _)) (uplink_tickFree _)
  · exact uplink_setReg (a := TDL_RESTARTS) (by decide) (by decide) _ _

theorem uplink_rxErrTaken (n : Nat) (d : Dev) : UplinkStands d (rxErrTaken n d) := by
  unfold rxErrTaken
  split
  · exact uplink_refl d
  · exact uplink_trans (uplink_setReg (a := TDL_HCNT) (by decide) (by decide) _ d) (uplink_setStat (by decide) true _)

theorem uplink_noted (mv : BitVec 16) (t : Tendril) (was : Word) (d : Dev) : UplinkStands d (uplinkNoted mv t was d) := by
  unfold uplinkNoted
  exact uplink_trans (uplink_trans (uplink_trans (uplink_trans (uplink_trans (uplink_trans (uplink_trans
    (uplink_statusTaken t d) (uplink_wakeRaised _ 202 _)) (uplink_wakeRaised _ 203 _)) (uplink_lowTaken mv _)) (uplink_foldTaken t _))
      (uplink_restartTaken _ _)) (uplink_rxErrTaken _ _)) (uplink_tickFree _)

/-- The registers of the uplink's values. -/
theorem uplinkTaken_shows (mv temp : BitVec 16) (d : Dev) : (uplinkTaken mv temp d).reg TDL_VIN = d.tdl.vin ∧
    (uplinkTaken mv temp d).reg TDL_CIN = d.tdl.cin ∧
    (uplinkTaken mv temp d).reg TDL_LOOP = word (d.tdl.code + 65536 * d.tdl.src) ∧
    (uplinkTaken mv temp d).reg TDL_ENV = word (mv.toNat + 65536 * temp.toNat) ∧
    (uplinkTaken mv temp d).reg TDL_FRERR = d.reg TDL_FRERR ∧ (uplinkTaken mv temp d).reg TDL_STAT = d.reg TDL_STAT := by
  unfold uplinkTaken
  rw [env_word]
  simp only [Dev.reg_setReg]
  exact ⟨rfl, rfl, rfl, rfl, rfl, rfl⟩

theorem uplinkTaken_frame (mv temp : BitVec 16) (d : Dev) : (uplinkTaken mv temp d).tdlLink = d.tdlLink ∧
    Elsewhere d (uplinkTaken mv temp d) := by
  have h : RegsOnly d (uplinkTaken mv temp d) :=
    regsOnly_setReg (regsOnly_setReg (regsOnly_setReg (regsOnly_setReg (regsOnly_setReg (regsOnly_refl d) _ _) _ _) _ _) _ _) _ _
  obtain ⟨m, h⟩ := h
  rw [h]
  exact ⟨rfl, ⟨rfl, rfl, rfl, rfl, ⟨rfl, rfl⟩, rfl, rfl, rfl, rfl⟩⟩

theorem elsewhere_setTdl (d : Dev) (t : Tendril) : Elsewhere d (d.setTdl t) := ⟨rfl, rfl, rfl, rfl, ⟨rfl, rfl⟩, rfl, rfl, rfl, rfl⟩

theorem tdlMirror_shows (mv temp : BitVec 16) (d : Dev) : (tdlMirror mv temp d).reg TDL_VIN = d.tdl.vin ∧
    (tdlMirror mv temp d).reg TDL_CIN = d.tdl.cin ∧ (tdlMirror mv temp d).flag TDL_STAT 0 = d.flag TDL_STAT 0 ∧
    (tdlMirror mv temp d).tdlLink = d.tdlLink ∧ (tdlMirror mv temp d).reg TDL_LOOP = word (d.tdl.code + 65536 * d.tdl.src) ∧
    (tdlMirror mv temp d).reg TDL_ENV = word (mv.toNat + 65536 * temp.toNat) ∧
    (tdlMirror mv temp d).reg TDL_FRERR = d.reg TDL_FRERR ∧ Elsewhere d (tdlMirror mv temp d) := by
  obtain ⟨hvin, hcin, hloop, henv, hfr, hstat⟩ := uplinkTaken_shows mv temp d
  obtain ⟨htl, helse⟩ := uplinkTaken_frame mv temp d
  rw [tdlMirror_eq]
  generalize uplinkTaken mv temp d = e at hvin hcin hloop henv hfr hstat htl helse
  have hnoted := uplink_noted mv d.tdl (d.reg TDL_STAT) e
  generalize uplinkNoted mv d.tdl (d.reg TDL_STAT) e = f at hnoted
  obtain ⟨-, hreg, hflag⟩ := id hnoted
  obtain ⟨-, hlink⟩ := uplink_tdl hnoted
  have hset (a : Nat) (t : Tendril) : (f.setTdl t).reg a = f.reg a := rfl
  have hsetf (i : Nat) (t : Tendril) : (f.setTdl t).flag TDL_STAT i = f.flag TDL_STAT i := rfl
  have hlinkf (t : Tendril) : (f.setTdl t).tdlLink = f.tdlLink := rfl
  rw [hset, hset, hset, hset, hset, hsetf, hlinkf]
  refine ⟨(hreg _ (by decide)).trans hvin, (hreg _ (by decide)).trans hcin, ?_, hlink.trans htl, (hreg _ (by decide)).trans hloop,
    (hreg _ (by decide)).trans henv, (hreg _ (by decide)).trans hfr,
    elsewhere_trans (elsewhere_trans helse (uplink_elsewhere hnoted)) (elsewhere_setTdl _ _)⟩
  rw [hflag, Dev.flag, hstat, ← Dev.flag]

/-- The device whose LINK changes, before its event. -/
def linkChanged (up : Bool) (d : Dev) : Dev := { Dev.setFlag TDL_STAT 0 up (if up then d else trimLinkLost 4 d) with tdlLink := up }

theorem tdlLinkSet_eq (up : Bool) (d : Dev) : tdlLinkSet up d =
    if d.flag TDL_STAT 0 = up then { d with tdlLink := up } else raise 200 (linkChanged up d) := by
  unfold tdlLinkSet linkChanged
  rfl

theorem linkChanged_shows (up : Bool) (d : Dev) : (linkChanged up d).flag TDL_STAT 0 = up ∧ (linkChanged up d).tdlLink = up ∧
    (linkChanged up d).tdl = d.tdl ∧ (∀ a, a ∈ uplinkRegs → (linkChanged up d).reg a = d.reg a) ∧ Elsewhere d (linkChanged up d) := by
  obtain ⟨r, t, hlost, hreg⟩ := trimLinkLost_frame 4 d
  have hflag (e : Dev) : (Dev.setFlag TDL_STAT 0 up e).flag TDL_STAT 0 = up := flag_setFlag_same (by decide) _ _ _
  have hother (e : Dev) {a : Nat} (ha : a ∈ uplinkRegs) : (Dev.setFlag TDL_STAT 0 up e).reg a = e.reg a :=
    Dev.reg_setFlag_other _ _ _ _ _ (uplinkRegs_block ha).2
  unfold linkChanged
  cases up
  · refine ⟨hflag _, rfl, by rw [hlost]; rfl, fun a ha => ?_, by rw [hlost]; exact ⟨rfl, rfl, rfl, rfl, ⟨rfl, rfl⟩, rfl, rfl, rfl, rfl⟩⟩
    obtain ⟨hblock, -⟩ := uplinkRegs_block ha
    exact (hother _ ha).trans (hreg a (fun hc => absurd hblock (by rw [hc]; decide)))
  · exact ⟨hflag _, rfl, rfl, fun a ha => hother _ ha, ⟨rfl, rfl, rfl, rfl, ⟨rfl, rfl⟩, rfl, rfl, rfl, rfl⟩⟩

theorem tdlLinkSet_shows (up : Bool) (d : Dev) : (tdlLinkSet up d).flag TDL_STAT 0 = up ∧ (tdlLinkSet up d).tdlLink = up ∧
    (tdlLinkSet up d).tdl = d.tdl ∧ (∀ a, a ∈ uplinkRegs → (tdlLinkSet up d).reg a = d.reg a) ∧ Elsewhere d (tdlLinkSet up d) := by
  rw [tdlLinkSet_eq]
  split
  · next h => exact ⟨h, rfl, rfl, fun _ _ => rfl, ⟨rfl, rfl, rfl, rfl, ⟨rfl, rfl⟩, rfl, rfl, rfl, rfl⟩⟩
  · obtain ⟨hflag, hlink, htdl, hreg, helse⟩ := linkChanged_shows up d
    have hraise := uplink_raise 200 (linkChanged up d)
    obtain ⟨htdl', hlink'⟩ := uplink_tdl hraise
    obtain ⟨-, hreg', hflag'⟩ := id hraise
    exact ⟨hflag'.trans hflag, hlink'.trans hlink, htdl'.trans htdl, fun a ha => (hreg' a ha).trans (hreg a ha),
      elsewhere_trans helse (uplink_elsewhere hraise)⟩

end Uplink

/-! ## The set-point (R283) -/

theorem setptWrite_shows (v : Word) (d : Dev) : (setptWrite v d).reg TDL_SETPT = v &&& 0xFFFF ∧ (setptWrite v d).flag TDL_STAT 2 = true ∧
    ((setptWrite v d).flag TDL_STAT 17 = true ↔ d.flag TDL_STAT 17 = true ∨ bits v 15 0 < 7000 ∨ 46000 < bits v 15 0) ∧
    OnlyRegs d (setptWrite v d) [TDL_SETPT, TDL_STAT] := by
  have hset (i : Nat) (b : Bool) (e : Dev) {a : Nat} (ha : a ≠ TDL_STAT) : (Dev.setFlag TDL_STAT i b e).reg a = e.reg a :=
    Dev.reg_setFlag_other _ _ _ _ _ ha
  have hsetpt : (Dev.setFlag TDL_STAT 2 true (d.setReg TDL_SETPT (v &&& 0xFFFF))).reg TDL_SETPT = v &&& 0xFFFF := by
    rw [hset _ _ _ (by decide), Dev.reg_setReg, if_pos rfl]
  have hsetv : (Dev.setFlag TDL_STAT 2 true (d.setReg TDL_SETPT (v &&& 0xFFFF))).flag TDL_STAT 2 = true :=
    flag_setFlag_same (by decide) _ _ _
  have hclamp : (Dev.setFlag TDL_STAT 2 true (d.setReg TDL_SETPT (v &&& 0xFFFF))).flag TDL_STAT 17 = d.flag TDL_STAT 17 := by
    rw [flag_setFlag_other (by decide), Dev.flag, Dev.reg_setReg, if_neg (by decide), ← Dev.flag]
  have hrest {a : Nat} (ha : a ∉ [TDL_SETPT, TDL_STAT]) :
      (Dev.setFlag TDL_STAT 2 true (d.setReg TDL_SETPT (v &&& 0xFFFF))).reg a = d.reg a := by
    simp only [List.mem_cons, List.not_mem_nil, or_false, not_or] at ha
    rw [hset _ _ _ ha.2, Dev.reg_setReg, if_neg ha.1]
  unfold setptWrite
  dsimp only
  split
  · next h =>
    refine ⟨(hset _ _ _ (by decide)).trans hsetpt, (flag_setFlag_other (by decide) _ _ _).trans hsetv,
      iff_of_true (flag_setFlag_same (by decide) _ _ _) (.inr h), rfl, fun a ha => ?_⟩
    have hne : a ≠ TDL_STAT := fun hc => ha (by rw [hc]; exact List.mem_cons_of_mem _ List.mem_cons_self)
    exact (hset _ _ _ hne).trans (hrest ha)
  · next h =>
    refine ⟨hsetpt, hsetv, ?_, rfl, fun a ha => hrest ha⟩
    rw [hclamp]
    exact ⟨.inl, fun hc => hc.resolve_right h⟩

/-! ## Memory commands (R289, R290) -/

section Memory
variable {s : State} {d : Dev} {p : HostPort}

/-- TDL_NVSTAT while a command runs or after it. -/
theorem nvStat_fields (w : Word) {state code : Nat} (hs : state < 4) (hc : code < 256) :
    bits (setBits (setBits w 15 8 code) 1 0 state) 1 0 = state ∧ bits (setBits (setBits w 15 8 code) 1 0 state) 15 8 = code := by
  refine ⟨?_, ?_⟩
  · rw [bits_setBits_same (by decide), Nat.mod_eq_of_lt (by omega)]
  · rw [bits_setBits_other (by decide), bits_setBits_same (by decide), Nat.mod_eq_of_lt (by omega)]

/-- An accepted WRITE or READ. -/
theorem nvCommand_taken {v : Word} (hj : d.tdl.job = none) (hl : d.flag TDL_STAT 0 = true) (hm : d.mode = .commission)
    (hv : bits v 1 0 = 1 ∨ bits v 1 0 = 2) : nvCommand v d =
      (d.setReg TDL_NVSTAT (setBits (setBits (d.reg TDL_NVSTAT) 15 8 0) 1 0 1)).setTdl
        { d.tdl with job := some ⟨if bit v 0 then some (nvImage d) else none, .transfer⟩ } := by
  have hcond : (d.tdl.job.isSome || decide (bits v 1 0 = 0) || decide (bits v 1 0 = 3)) = false := by
    rw [hj]
    rcases hv with h | h
    · rw [h]
      rfl
    · rw [h]
      rfl
  unfold nvCommand
  rw [hcond, if_neg (by decide), if_neg (not_not.mpr hm), hl, if_neg (by decide)]

/-- A host's WRITE or READ, by the holder. -/
theorem regRow_nvCommand (hs : Holds p s) (v : Word) (hr : (nvCommand v s.dev).ready = s.dev.ready) :
    regRow p TDL_NVCMD v s = { s with dev := nvCommand v s.dev } :=
  regRow_ruled (c := 0) hs (by unfold RegAddr TDL_NVCMD; omega) (by decide) (by decide) (by decide) rfl hr

theorem nvStarted {v : Word} (hs : Holds p s) (hj : s.dev.tdl.job = none) (hl : s.dev.flag TDL_STAT 0 = true)
    (hm : s.dev.mode = .commission) (hv : bits v 1 0 = 1 ∨ bits v 1 0 = 2) : ∃ d, regRow p TDL_NVCMD v s = { s with dev := d } ∧
      d.tdl = { s.dev.tdl with job := some ⟨if bit v 0 then some (nvImage s.dev) else none, .transfer⟩ } ∧
      d.fld TDL_NVSTAT 1 0 = 1 ∧ d.fld TDL_NVSTAT 15 8 = 0 ∧ Elsewhere s.dev d := by
  have heq := nvCommand_taken hj hl hm hv
  refine ⟨nvCommand v s.dev, regRow_nvCommand hs v (by rw [heq]; rfl), ?_⟩
  rw [heq]
  have hreg : (s.dev.setReg TDL_NVSTAT (setBits (setBits (s.dev.reg TDL_NVSTAT) 15 8 0) 1 0 1)).reg TDL_NVSTAT =
      setBits (setBits (s.dev.reg TDL_NVSTAT) 15 8 0) 1 0 1 := (Dev.reg_setReg _ _ _ _).trans (if_pos rfl)
  obtain ⟨hstate, hcode⟩ := nvStat_fields (s.dev.reg TDL_NVSTAT) (state := 1) (code := 0) (by decide) (by decide)
  exact ⟨rfl, (congrArg (fun w => bits w 1 0) hreg).trans hstate, (congrArg (fun w => bits w 15 8) hreg).trans hcode,
    ⟨rfl, rfl, rfl, rfl, ⟨rfl, rfl⟩, rfl, rfl, rfl, rfl⟩⟩

theorem nvEnd_shows (state code : Nat) (hs : state < 4) (hc : code < 256) (d : Dev) : (nvEnd state code d).tdl = { d.tdl with job := none } ∧
    (nvEnd state code d).fld TDL_NVSTAT 1 0 = state ∧ (nvEnd state code d).fld TDL_NVSTAT 15 8 = code ∧
    (Raises d → Stuck 206 (nvEnd state code d)) ∧ Elsewhere d (nvEnd state code d) ∧
    ∀ a, a / 0x10000 = 0x10B → a ≠ TDL_NVSTAT → (nvEnd state code d).reg a = d.reg a := by
  have hreg (a : Nat) (h : a / 0x10000 = 0x10B) : (nvEnd state code d).reg a =
      if a = TDL_NVSTAT then setBits (setBits (d.reg TDL_NVSTAT) 15 8 code) 1 0 state else d.reg a :=
    (raise_reg (offEvents_tdl h) _ _).trans (Dev.reg_setReg _ _ _ _)
  obtain ⟨hstate, hcode⟩ := nvStat_fields (d.reg TDL_NVSTAT) hs hc
  have hstat : (nvEnd state code d).reg TDL_NVSTAT = setBits (setBits (d.reg TDL_NVSTAT) 15 8 code) 1 0 state :=
    (hreg _ rfl).trans (if_pos rfl)
  have hstand : EventsStand d ((d.setTdl { d.tdl with job := none }).setReg TDL_NVSTAT
      (setBits (setBits (d.reg TDL_NVSTAT) 15 8 code) 1 0 state)) :=
    (EventsStand.upd (.refl d) rfl rfl).setReg (by decide) (by decide) _
  refine ⟨?_, by rw [Dev.fld, hstat, hstate], by rw [Dev.fld, hstat, hcode], fun hx => raise_stuck (by decide) (hstand.1 hx), ?_,
    fun a h hne => (hreg a h).trans (if_neg hne)⟩
  · unfold nvEnd
    obtain ⟨r, v, m, h⟩ := raise_frame 206 ((d.setTdl { d.tdl with job := none }).setReg TDL_NVSTAT
      (setBits (setBits (d.reg TDL_NVSTAT) 15 8 code) 1 0 state))
    exact (congrArg Dev.tdl h).trans rfl
  · unfold nvEnd
    exact elsewhere_raise (d := d) (e := (d.setTdl { d.tdl with job := none }).setReg TDL_NVSTAT
      (setBits (setBits (d.reg TDL_NVSTAT) 15 8 code) 1 0 state)) ⟨rfl, rfl, rfl, rfl, ⟨rfl, rfl⟩, rfl, rfl, rfl, rfl⟩ 206

/-- A command that ends shows its STATE and CODE. -/
theorem nvEnds_of {e : NvEnd} {state code : Nat} {t : Tendril} (h : nvTransferEnd e s.dev = nvEnd state code d) (hs : state < 4)
    (hc : code < 256) (ht : { d.tdl with job := none } = t) (helse : Elsewhere s.dev d) (hr : Raises s.dev → Raises d) :
    NvEnds s e state code t := by
  obtain ⟨htdl, hstate, hcode, hstuck, helse', -⟩ := nvEnd_shows state code hs hc d
  have hexec : exec (.nvTransferEnd e) s = .next { s with dev := nvTransferEnd e s.dev } := rfl
  rw [NvEnds, hexec, h]
  exact ⟨_, rfl, htdl.trans ht, hstate, hcode, fun hw => hstuck (hr (raises_awake hw)), elsewhere_trans helse helse'⟩

theorem nvCheck_lt (im : List Word) : nvCheck im < 256 := by
  have hcode (P Q : Prop) [Decidable P] [Decidable Q] : (if P then 3 else if Q then 4 else 0) < 256 := by
    split
    · decide
    · split
      · decide
      · decide
  exact hcode _ _

/-- The image registers that a READ has loaded. -/
theorem nvLoad_reg (t : Tendril) (d : Dev) {i : Nat} (hi : i < 512) : (nvLoad t d).reg (TDL_SCFG + 4 * i) = smGet tdlShip t.nv i := by
  have hfold := forAll_at (f := fun i (d : Dev) => d.setReg (TDL_SCFG + 4 * i) (smGet tdlShip t.nv i))
    (π := fun e : Dev => e.reg (TDL_SCFG + 4 * i)) (g := fun _ => smGet tdlShip t.nv i) (k := i) (n := 512)
    (fun j _ hj e => (Dev.reg_setReg _ _ _ _).trans (if_neg (by omega))) (fun e => (Dev.reg_setReg _ _ _ _).trans (if_pos rfl)) d
  exact hfold.trans (if_pos hi)

theorem nvLoad_frame (t : Tendril) (d : Dev) : ∃ m, nvLoad t d = { d with regs := m } ∧ EventsStand d (nvLoad t d) := by
  have h : ∀ n, n ≤ 512 → ∃ m, forAll n (fun i (d : Dev) => d.setReg (TDL_SCFG + 4 * i) (smGet tdlShip t.nv i)) d = { d with regs := m } ∧
      EventsStand d (forAll n (fun i (d : Dev) => d.setReg (TDL_SCFG + 4 * i) (smGet tdlShip t.nv i)) d) := by
    intro n
    induction n with
    | zero => exact fun _ => ⟨d.regs, rfl, .refl d⟩
    | succ n ih =>
      intro hn
      obtain ⟨m, hm, hst⟩ := ih (by omega)
      rw [forAll_succ]
      rw [hm] at hst ⊢
      exact ⟨_, rfl, hst.setReg (by unfold TDL_SCFG; omega) (by unfold TDL_SCFG; omega) _⟩
  exact h 512 (Nat.le_refl 512)

end Memory

end Sys2Proof.Proofs
end

section
/-! PROOFS. The Tendril, its mirror and its memory commands, assembled (14_tendril.md). -/
namespace Sys2Proof.Proofs
open Sys2Proof Sys2Proof.Machine Sys2Proof.Claims

section Assembly
variable {s : State} {a : Nat}

/-- A conversion on the machine. -/
theorem exec_conversion (hp : s.dev.tdl.powered = true) (hon : s.dev.tdl.vOn = true ∨ s.dev.tdl.cOn = true)
    (ht : tdlTrimming s.dev = false) (vd vr c : Int) (o : Bool) : exec (.conversion ⟨vd, vr⟩ c o false) s = .next { s with
      dev := { s.dev with freeCtr := s.dev.freeCtr + 1, tdl := converted s.dev.now (vinCode s.dev vd vr) c o s.dev.tdl } } :=
  congrArg (fun d => (Host.Outcome.next { s with dev := d } : Out)) (conversion_eq hp hon ht vd vr c o)

theorem exec_tendrilSlot (ok : Bool) : exec (.tendrilSlot ok) s = .next { s with dev := tendrilSlot ok s.dev } := rfl

theorem tendrilSlot_taken (hp : s.dev.tdl.powered = true) (hr : s.dev.ready = true) : ∃ d, exec (.tendrilSlot true) s = .next { s with dev := d } ∧
    d.tdl.misses = 0 ∧ d.tdl.silent = false ∧ d.tdl.down = some ⟨s.dev.fld TDL_SETPT 15 0, s.dev.flag TDL_STAT 2, s.dev.mode,
      s.dev.origin, s.dev.halted⟩ ∧ d.tdl.slot = some d.now ∧ d.regs = s.dev.regs ∧ Elsewhere s.dev d := by
  obtain ⟨n, hn⟩ := slotReached_frame s.dev
  have hready : (true && (slotReached s.dev).ready) = true := by
    rw [hn]
    exact hr
  rw [exec_tendrilSlot, tendrilSlot_eq hp, if_pos hready, hn]
  exact ⟨_, rfl, rfl, rfl, rfl, rfl, rfl, ⟨rfl, rfl, rfl, rfl, ⟨rfl, rfl⟩, rfl, rfl, rfl, rfl⟩⟩

theorem tendrilSlot_missed (hp : s.dev.tdl.powered = true) : ∃ d, exec (.tendrilSlot false) s = .next { s with dev := d } ∧
    d.tdl.misses = s.dev.tdl.misses + 1 ∧ d.tdl.down = s.dev.tdl.down ∧ d.regs = s.dev.regs ∧ Elsewhere s.dev d := by
  obtain ⟨n, hn⟩ := slotReached_frame s.dev
  rw [exec_tendrilSlot, tendrilSlot_eq hp, Bool.false_and, if_neg (by decide), hn]
  exact ⟨_, rfl, rfl, rfl, rfl, ⟨rfl, rfl, rfl, rfl, ⟨rfl, rfl⟩, rfl, rfl, rfl, rfl⟩⟩

/-- A good set-point drives the loop. -/
theorem selects_setpoint {l : Downlink} (h : Sound s.dev.tdl a) (hd : s.dev.tdl.down = some l)
    (hm : s.dev.tdl.misses < bits s.dev.tdl.sil 7 0) (hh : l.halt = false) (hv : l.setv = true) (hmode : l.mode = .run ∨ l.mode = .hold) :
    Selects s 1 (min 46000 (max 7000 l.set)) := by
  refine selects_choose h.toDriving ?_
  have hsil : (selecting s.dev.tdl).silent = false := by
    rw [selecting, hd, decide_eq_false (by omega)]
    rfl
  have hsets : l.sets = true := by
    rw [Downlink.sets, hh, hv]
    rcases hmode with h | h
    · rw [h]
      rfl
    · rw [h]
      rfl
  rw [choose_good (t := selecting s.dev.tdl) h.nvGood h.refGood h.trim, drivenSet_some hsil hd hsets]
  rfl

/-- Without a downlink the memory's choice drives the loop. -/
theorem choose_silent (h : Sound s.dev.tdl a) (hd : s.dev.tdl.down = none ∨ bits s.dev.tdl.sil 7 0 ≤ s.dev.tdl.misses) :
    (selecting s.dev.tdl).choose = match bits s.dev.tdl.sil 9 8 with
      | 0 => if (if bit s.dev.tdl.scfg 12 then s.dev.tdl.sfC else s.dev.tdl.sfV) then alarmOut (bit s.dev.tdl.sil 12)
          else (2, s.dev.tdl.tableOut)
      | 2 => alarmOut true
      | _ => alarmOut false := by
  have hsil : (selecting s.dev.tdl).silent = true := by
    unfold selecting
    dsimp only
    rcases hd with h | h
    · rw [h, Option.isNone_none, Bool.or_true]
    · rw [decide_eq_true h, Bool.true_or]
  rw [choose_good (t := selecting s.dev.tdl) h.nvGood h.refGood h.trim, drivenSet_silent hsil, selecting_table]
  rfl

/-- A transfer that ends. -/
theorem nvTransferEnd_failed {im : Option (List Word)} {d : Dev} (h : d.tdl.job = some ⟨im, .transfer⟩) :
    nvTransferEnd .failed d = nvEnd 3 5 d := by
  unfold nvTransferEnd
  rw [h]

theorem nvTransferEnd_lost {im : Option (List Word)} {d : Dev} (h : d.tdl.job = some ⟨im, .lost⟩) (e : NvEnd) :
    nvTransferEnd e d = nvEnd 3 5 d := by
  unfold nvTransferEnd
  rw [h]
  cases e <;> rfl

theorem nvTransferEnd_sent {im : Option (List Word)} {d : Dev} (h : d.tdl.job = some ⟨im, .transfer⟩) :
    nvTransferEnd .sent d = nvSent ⟨im, .transfer⟩ d := by
  unfold nvTransferEnd
  rw [h]

theorem nvTransferEnd_programmed {im : List Word} {d : Dev} (h : d.tdl.job = some ⟨some im, .program⟩) :
    nvTransferEnd .programmed d = nvInEffect im d := by
  unfold nvTransferEnd
  rw [h]

end Assembly

/-- Settles O35: the Tendril's own rules, its mirror by `UplinkStands`, and its memory commands by `nvEnds_of`. -/
theorem tendrilAndMirror : Obligations.TendrilAndMirror := by
  unfold Obligations.TendrilAndMirror
  refine ⟨fun s => ⟨?_, ?_, fun b => rfl, fun hp => ⟨fun vd vr c o hon ht => ?_, fun hr => tendrilSlot_taken hp hr, tendrilSlot_missed hp⟩,
      fun a hs hn hon h3 => ?_, fun a j hs hn hj hpr => selects_held hs hn hj hpr, fun a h hbad => selects_choose h (choose_nvBad hbad),
      fun a l h hd hm hh hv hmode => selects_setpoint h hd hm hh hv hmode, fun a h hd => ⟨fun h0 hv hc => ?_, fun h1 => ?_, fun h2 => ?_⟩⟩,
    fun s hr => ⟨fun hp mv t => ?_, fun mv t => ?_, ?_, fun v ht => ?_, fun p hs hj hl hm => ⟨?_, ?_⟩⟩,
    fun s => ⟨fun im hj => ?_, fun im e hj => ?_, fun im hj => ⟨fun hok => ?_, fun hbad => ?_⟩, fun im hj => ?_, fun hj => ⟨?_, ?_⟩⟩⟩
  · have hexec : exec .tendrilStart s = .next { s with dev := tendrilStart s.dev } := rfl
    rw [hexec]
    unfold tendrilStart
    exact ⟨_, rfl, rfl, rfl, rfl, rfl, rfl, rfl, rfl, rfl⟩
  · have hexec : exec .brownOut s = .next { s with dev := brownOut s.dev } := rfl
    rw [hexec]
    unfold brownOut
    refine ⟨_, rfl, rfl, rfl, rfl, rfl, rfl, rfl, fun j hj hpr => ?_, fun hno => ?_⟩
    · have hprog : s.dev.tdl.job.any (fun j => decide (j.stage = .program)) = true := by
        rw [hj, Option.any_some, decide_eq_true hpr]
      exact (congrArg (s.dev.tdl.nvFail || ·) hprog).trans (Bool.or_true _)
    · have hprog : s.dev.tdl.job.any (fun j => decide (j.stage = .program)) = false := by
        rw [Option.any_eq_false]
        exact fun j hj => by simpa using hno j hj
      exact (congrArg (s.dev.tdl.nvFail || ·) hprog).trans (Bool.or_false _)
  · refine ⟨_, exec_conversion hp hon ht vd vr c o, rfl, converted_settle _ _ _ _ _, fun h2 => ?_, fun h2 => ⟨fun hc => ?_, fun v hv hnear => ?_⟩⟩
    · rw [converted_early h2]
      exact ⟨rfl, rfl, rfl, rfl⟩
    · exact converted_cin h2 hc _ _ _ _
    · rw [vinCode_nearest hnear]
      exact converted_vin h2 hv _ _ _ _
  · have hmod : (Config.freeWord s.dev.freeCtr).toNat % 801 < 801 := Nat.mod_lt _ (by decide)
    exact ⟨_, by omega, by omega, selects_start hs hn hon h3⟩
  · refine selects_choose h.toDriving ?_
    rw [choose_silent h hd, h0, hv, hc, ite_self, if_neg (by decide)]
    rfl
  · refine selects_choose h.toDriving ?_
    rw [choose_silent h hd, h1]
    rfl
  · refine selects_choose h.toDriving ?_
    rw [choose_silent h hd, h2]
    rfl
  · have hup : uplinkReceive true mv t s.dev = tdlMirror mv t (tdlLinkSet true s.dev) := if_pos (by rw [hp]; rfl)
    have hexec : exec (.uplinkReceive true mv t) s = .next { s with dev := tdlMirror mv t (tdlLinkSet true s.dev) } :=
      (onReady_ready hr _).trans (congrArg (fun d => (Host.Outcome.next { s with dev := d } : Out)) hup)
    obtain ⟨hflag, hlink, htdl, hreg, helse⟩ := tdlLinkSet_shows true s.dev
    obtain ⟨hvin, hcin, hflag', hlink', hloop, henv, hfr, helse'⟩ := tdlMirror_shows mv t (tdlLinkSet true s.dev)
    rw [htdl] at hvin hcin hloop
    exact ⟨_, hexec, hvin, hcin, hflag'.trans hflag, hlink'.trans hlink, hloop, henv, hfr.trans (hreg _ (by decide)),
      elsewhere_trans helse helse'⟩
  · exact ⟨Dev.count1 TDL_FRERR s.dev, onReady_ready hr _, setReg_setsReg s.dev TDL_FRERR _⟩
  · obtain ⟨hflag, hlink, htdl, hreg, helse⟩ := tdlLinkSet_shows false (Dev.setFlag TDL_STAT 1 false s.dev)
    have hexec : exec .tendrilLinkLoss s = .next { s with dev := tdlLinkSet false (Dev.setFlag TDL_STAT 1 false s.dev) } :=
      onReady_ready hr (fun d => tdlLinkSet false (Dev.setFlag TDL_STAT 1 false d))
    have hmark : Elsewhere s.dev (Dev.setFlag TDL_STAT 1 false s.dev) := ⟨rfl, rfl, rfl, rfl, ⟨rfl, rfl⟩, rfl, rfl, rfl, rfl⟩
    exact ⟨_, hexec, hlink, hflag, (hreg _ (by decide)).trans (Dev.reg_setFlag_other _ _ _ _ _ (by decide)), htdl,
      elsewhere_trans hmark helse⟩
  · exact ⟨_, atEdge_ticking ht _, setptWrite_shows v s.dev⟩
  · obtain ⟨d, hd, hshow⟩ := nvStarted (v := 1) hs hj hl hm (.inl (by decide))
    exact ⟨d, congrArg Host.Outcome.next hd, hshow⟩
  · obtain ⟨d, hd, hshow⟩ := nvStarted (v := 2) hs hj hl hm (.inr (by decide))
    exact ⟨d, congrArg Host.Outcome.next hd, hshow⟩
  · exact nvEnds_of (nvTransferEnd_failed hj) (by decide) (by decide) rfl (elsewhere_refl _) id
  · exact nvEnds_of (nvTransferEnd_lost hj e) (by decide) (by decide) rfl (elsewhere_refl _) id
  · refine congrArg (fun d => (Host.Outcome.next { s with dev := d } : Out)) ?_
    rw [nvTransferEnd_sent hj]
    exact if_neg (not_not.mpr hok)
  · refine nvEnds_of ((nvTransferEnd_sent hj).trans (if_pos hbad)) (by decide) (nvCheck_lt im) rfl (elsewhere_refl _) id
  · exact nvEnds_of (nvTransferEnd_programmed hj) (by decide) (by decide) rfl (elsewhere_setTdl _ _) (fun hx => raises_of_regs hx rfl rfl)
  · obtain ⟨m, hm, hstand⟩ := nvLoad_frame s.dev.tdl s.dev
    refine nvEnds_of (nvTransferEnd_sent hj) (by decide) (by decide) ?_ ?_ hstand.1
    · rw [hm]
    · rw [hm]
      exact ⟨rfl, rfl, rfl, rfl, ⟨rfl, rfl⟩, rfl, rfl, rfl, rfl⟩
  · obtain ⟨-, -, -, -, -, hreg⟩ := nvEnd_shows 2 0 (by decide) (by decide) (nvLoad s.dev.tdl s.dev)
    refine ⟨_, congrArg (fun d => (Host.Outcome.next { s with dev := d } : Out)) (nvTransferEnd_sent hj), fun i hi => ?_⟩
    exact (hreg _ (by unfold TDL_SCFG; omega) (by unfold TDL_SCFG TDL_NVSTAT; omega)).trans (nvLoad_reg _ _ hi)

end Sys2Proof.Proofs
end

section
/-! PROOFS. HART (14_tendril.md: R292 to R295). -/
namespace Sys2Proof.Proofs
open Sys2Proof Sys2Proof.Machine Sys2Proof.Claims

section Hart
variable {d : Dev} {f : List Byte} {r : HartReq} {n : Nat}

/-- A parsed frame, by its check and whether it is forwarded. -/
theorem hartRequest_parsed (hp : d.tdl.powered = true) (hd : f.headD 0 = 0x02 ∨ f.headD 0 = 0x82) (hf : hartParse f = some r) (n : Nat)
    (ok : Bool) : hartRequest n ok f d =
      if n < 2 ∨ (!ok) = true ∨ xorBytes f ≠ 0 then d.setTdl { d.tdl with rxErr := d.tdl.rxErr + 1 }
      else if !d.tdl.isMine r || d.tdl.silent || d.tdl.down.isNone || d.tdl.nvBad || loopTrimming d then d
      else d.setTdl { d.tdl with req := some r, reqNew := true, reqIn := false } := by
  have hcond : (!d.tdl.powered || (decide (f.headD 0 ≠ 0x02) && decide (f.headD 0 ≠ 0x82))) = false := by
    rw [hp]
    rcases hd with h | h
    · rw [h]
      rfl
    · rw [h]
      rfl
  unfold hartRequest
  dsimp only
  rw [hcond, if_neg (by decide), hf]

theorem hartRequest_forwarded (hp : d.tdl.powered = true) (hd : f.headD 0 = 0x02 ∨ f.headD 0 = 0x82) (hf : hartParse f = some r)
    (hn : 2 ≤ n) (hx : xorBytes f = 0) (hm : d.tdl.isMine r = true) (hs : d.tdl.silent = false) (hl : d.tdl.down.isSome = true)
    (hb : d.tdl.nvBad = false) (ht : loopTrimming d = false) :
    hartRequest n true f d = d.setTdl { d.tdl with req := some r, reqNew := true, reqIn := false } := by
  have hcheck : ¬ (n < 2 ∨ (!true) = true ∨ xorBytes f ≠ 0) := by
    rw [hx]
    simp only [Bool.not_true, Bool.false_eq_true, ne_eq, not_true_eq_false, or_false]
    omega
  have hnone : d.tdl.down.isNone = false := by
    rw [← Option.not_isSome, hl]
    rfl
  have hmine : ¬ (!d.tdl.isMine r || d.tdl.silent || d.tdl.down.isNone || d.tdl.nvBad || loopTrimming d) = true := by
    rw [hm, hs, hnone, hb, ht]
    decide
  rw [hartRequest_parsed hp hd hf, if_neg hcheck, if_neg hmine]

theorem hartRequest_bad (hp : d.tdl.powered = true) (hd : f.headD 0 = 0x02 ∨ f.headD 0 = 0x82) (hf : hartParse f = some r)
    (hx : xorBytes f ≠ 0) (n : Nat) (ok : Bool) : hartRequest n ok f d = d.setTdl { d.tdl with rxErr := d.tdl.rxErr + 1 } := by
  rw [hartRequest_parsed hp hd hf, if_pos (.inr (.inr hx))]

/-- Whether a reply is transmitted. -/
def replyOk (ms : Nat) (r : HartReply) (t : Tendril) : Bool :=
  decide (r.seq = t.rxSeq) && decide (ms ≤ bits t.hcfg 23 16) && !t.silent && t.down.isSome && t.powered && t.started && decide (2 ≤ r.count)

theorem hartReplySend_eq {r : HartReply} {q : HartReq} (hr : d.tdl.reply = some r) (hq : d.tdl.req = some q) (hj : d.tdl.job = none)
    (ms : Nat) : hartReplySend ms d = if replyOk ms r d.tdl then
        (Dev.setFld TDL_SEQ 31 24 (d.tdl.txSeq + 1).toNat (d.setTdl { d.tdl with reply := none })).setTdl
          { d.tdl with reply := none, sent := hartFrame d.tdl q r, txSeq := d.tdl.txSeq + 1 }
      else hartDrop (d.setTdl { d.tdl with reply := none }) := by
  have hjob : d.tdl.job.isSome = false := by
    rw [hj]
    rfl
  have h : hartReplySend ms d = match d.tdl.reply, d.tdl.req with
      | some r, some q => if d.tdl.job.isSome then d else if replyOk ms r d.tdl then
          (Dev.setFld TDL_SEQ 31 24 (d.tdl.txSeq + 1).toNat (d.setTdl { d.tdl with reply := none })).setTdl
            { d.tdl with reply := none, sent := hartFrame d.tdl q r, txSeq := d.tdl.txSeq + 1 }
        else hartDrop (d.setTdl { d.tdl with reply := none })
      | some _, none => if d.tdl.job.isSome then d else hartDrop (d.setTdl { d.tdl with reply := none })
      | none, _ => d := rfl
  rw [h, hr, hq, hjob]
  rfl

/-- A dropped reply sets HTXERR, counts and raises event 205. -/
theorem hartDrop_shows (d : Dev) : (hartDrop d).tdl = d.tdl ∧ (hartDrop d).flag TDL_STAT 19 = true ∧
    (hartDrop d).fld TDL_HCNT 31 16 = (d.fld TDL_HCNT 31 16 + 1) % 65536 ∧ Elsewhere d (hartDrop d) := by
  have hcount : (Dev.setFlag TDL_STAT 19 true (Dev.setFld TDL_HCNT 31 16 (d.fld TDL_HCNT 31 16 + 1) d)).fld TDL_HCNT 31 16 =
      (d.fld TDL_HCNT 31 16 + 1) % 65536 := by
    rw [Dev.fld, Dev.reg_setFlag_other _ _ _ _ _ (by decide), Dev.reg_setFld, bits_setBits_same (hi := 31) (lo := 16) (by decide)]
    rfl
  have hflag : (Dev.setFlag TDL_STAT 19 true (Dev.setFld TDL_HCNT 31 16 (d.fld TDL_HCNT 31 16 + 1) d)).flag TDL_STAT 19 = true :=
    flag_setFlag_same (by decide) _ _ _
  have hregs : RegsOnly d (Dev.setFlag TDL_STAT 19 true (Dev.setFld TDL_HCNT 31 16 (d.fld TDL_HCNT 31 16 + 1) d)) :=
    regsOnly_setFlag (regsOnly_setFld (regsOnly_refl d) _ _ _ _) _ _ _
  obtain ⟨htdl, -⟩ := uplink_tdl (uplink_raise 205 (Dev.setFlag TDL_STAT 19 true (Dev.setFld TDL_HCNT 31 16 (d.fld TDL_HCNT 31 16 + 1) d)))
  refine ⟨htdl, ?_, ?_, elsewhere_raise (regsOnly_elsewhere hregs) 205⟩
  · rw [hartDrop, Dev.flag, raise_reg (offEvents_tdl rfl), ← Dev.flag, hflag]
  · rw [hartDrop, Dev.fld, raise_reg (offEvents_tdl rfl), ← Dev.fld, hcount]

theorem hartLand_eq {q : HartReq} (hi : d.tdl.reqIn = true) (hq : d.tdl.req = some q) : hartLand d =
    raise 204 ((Dev.setFld TDL_SEQ 23 16 (d.tdl.rxSeq + 1).toNat
      { d with sram := d.sram.setBytes (d.reg TDL_HRXADDR).toNat (hartRecord q (d.tdl.rxSeq + 1)) }).setTdl
        { d.tdl with reqIn := false, rxSeq := d.tdl.rxSeq + 1 }) := by
  unfold hartLand
  dsimp only
  rw [hi, hq]

theorem hartArrive_eq (h : d.tdl.reqNew = true) : hartArrive d = tdlWake (d.setTdl { d.tdl with reqNew := false, reqIn := true }) :=
  if_pos h

end Hart

/-- Settles O36: requests by `hartRequest_parsed`, replies by `hartReplySend_eq`, the landing by `hartLand_eq`. -/
theorem hartExchange : Obligations.HartExchange := by
  unfold Obligations.HartExchange
  refine fun s => ⟨fun n f r hp hd hf hn hx hm hs hl hb ht => ?_, fun n f r hp hd hf hx => ?_, fun hr hn => ?_, fun ht => ?_,
    fun r q n hr hq hj => ⟨fun hseq hms hs hl hp hst hc => ?_, fun hlate => ?_⟩, fun d q hi hq => ?_⟩
  · exact congrArg (fun d => (Host.Outcome.next { s with dev := d } : Out)) (hartRequest_forwarded hp hd hf hn hx hm hs hl hb ht)
  · exact congrArg (fun d => (Host.Outcome.next { s with dev := d } : Out)) (hartRequest_bad hp hd hf hx n true)
  · exact (onReady_ready hr hartArrive).trans (congrArg (fun d => (Host.Outcome.next { s with dev := d } : Out)) (hartArrive_eq hn))
  · exact ⟨_, atEdge_ticking ht hartReplyGo, rfl, _, rfl, rfl, rfl, rfl, rfl⟩
  · have hok : replyOk n r s.dev.tdl = true := by
      rw [replyOk, decide_eq_true hseq, decide_eq_true hms, hs, hl, hp, hst, decide_eq_true hc]
      rfl
    have hexec : exec (.hartReplySend n) s = .next { s with dev := hartReplySend n s.dev } := rfl
    rw [hexec, hartReplySend_eq hr hq hj, if_pos hok]
    refine ⟨_, rfl, rfl, ?_, rfl, fun a ha => ?_⟩
    · exact fld_setFld (d := s.dev.setTdl { s.dev.tdl with reply := none }) (by decide) (s.dev.tdl.txSeq + 1).isLt
    · exact Dev.reg_setFld_other (s.dev.setTdl { s.dev.tdl with reply := none }) _ _ _ _ _ (fun hc => ha (List.mem_singleton.mpr hc))
  · have hok : replyOk n r s.dev.tdl = false := by
      rw [replyOk, decide_eq_false (show ¬ n ≤ bits s.dev.tdl.hcfg 23 16 by omega), Bool.and_false]
      rfl
    have hexec : exec (.hartReplySend n) s = .next { s with dev := hartReplySend n s.dev } := rfl
    obtain ⟨htdl, hflag, hcount, helse⟩ := hartDrop_shows (s.dev.setTdl { s.dev.tdl with reply := none })
    rw [hexec, hartReplySend_eq hr hq hj, hok, if_neg (by decide)]
    exact ⟨_, rfl, htdl, hflag, hcount, elsewhere_trans (elsewhere_setTdl _ _) helse⟩
  · obtain ⟨m, v, w, h⟩ := raise_frame 204 ((Dev.setFld TDL_SEQ 23 16 (d.tdl.rxSeq + 1).toNat
      { d with sram := d.sram.setBytes (d.reg TDL_HRXADDR).toNat (hartRecord q (d.tdl.rxSeq + 1)) }).setTdl
        { d.tdl with reqIn := false, rxSeq := d.tdl.rxSeq + 1 })
    rw [hartLand_eq hi hq, h]
    exact ⟨rfl, rfl, rfl⟩

end Sys2Proof.Proofs
end

section
/-! PROOFS. What the Harness's operations leave (15_harness.md): events, stickies, slots, and a cycle in its parts. -/
namespace Sys2Proof.Proofs
open Sys2Proof Sys2Proof.Machine Sys2Proof.Claims

/-! ## One bit of a word set or cleared -/

section Bits
variable {n : Nat}

theorem bit_setOne (w : BitVec n) {i : Nat} (hi : i < n) (j : Nat) :
    bit (w ||| BitVec.ofNat n (2 ^ i)) j = (bit w j || decide (j = i)) := by
  rw [bit, BitVec.getLsbD_or, BitVec.getLsbD_ofNat, Nat.testBit_two_pow, ← bit]
  by_cases h : j = i
  · subst h
    simp [hi]
  · simp [h, Ne.symm h]

theorem bit_clearOne (w : BitVec n) (i j : Nat) : bit (w &&& ~~~ BitVec.ofNat n (2 ^ i)) j = (bit w j && !decide (j = i)) := by
  rw [bit, BitVec.getLsbD_and, BitVec.getLsbD_not, BitVec.getLsbD_ofNat, Nat.testBit_two_pow]
  by_cases hj : j < n
  · simp [bit, hj, eq_comm]
  · simp [bit, hj, BitVec.getLsbD_of_ge w j (by omega)]

theorem bit_put18 (w : BitVec 18) {i : Nat} (hi : i < 18) (b : Bool) (j : Nat) :
    bit (put18 w i b) j = if j = i then b else bit w j := by
  unfold put18
  cases b
  · rw [if_neg (by decide), bit_clearOne]
    by_cases h : j = i
    · simp [h]
    · simp [h]
  · rw [if_pos rfl, bit_setOne w hi]
    by_cases h : j = i
    · simp [h]
    · simp [h]

end Bits

/-- One step of a fold is reached by steps that a relation allows, and left by such steps. -/
theorem forAll_through {σ : Type} {f : Nat → σ → σ} {R : σ → σ → Prop} (hrefl : ∀ s, R s s) (htrans : ∀ {s t u}, R s t → R t u → R s u)
    {n k : Nat} (hk : k < n) (h : ∀ j, j < n → j ≠ k → ∀ s, R s (f j s)) (s : σ) :
    ∃ t, R s t ∧ R (f k t) (forAll n f s) := by
  induction n with
  | zero => omega
  | succ n ih =>
    rw [forAll_succ]
    by_cases hn : n = k
    · subst hn
      have hbefore : R s (forAll n f s) :=
        List.foldlRecOn (motive := R s) _ _ (hrefl s)
          (fun t ht j hj => htrans ht (h j (by have := List.mem_range.mp hj; omega) (by have := List.mem_range.mp hj; omega) t))
      exact ⟨_, hbefore, hrefl _⟩
    · obtain ⟨t, ht, hlast⟩ := ih (by omega) (fun j hj => h j (by omega))
      exact ⟨t, ht, htrans hlast (h n (by omega) hn _)⟩

theorem forAll_rel {σ : Type} {f : Nat → σ → σ} {R : σ → σ → Prop} (hrefl : ∀ s, R s s) (htrans : ∀ {s t u}, R s t → R t u → R s u)
    {n : Nat} (h : ∀ j, j < n → ∀ s, R s (f j s)) (s : σ) : R s (forAll n f s) :=
  List.foldlRecOn (motive := R s) _ _ (hrefl s) (fun t ht j hj => htrans ht (h j (List.mem_range.mp hj) t))

/-! ## What stands through an operation -/

/-- Configuration, masks, verdicts of test pulses and the count of resets stay; stickies and events that stand go on to stand. -/
structure HKept (h k : Harness) : Prop where
  active : k.active = h.active
  mask   : k.mask = h.mask
  tpBad  : k.tpBad = h.tpBad
  cross  : k.cross = h.cross
  rstCnt : k.rstCnt = h.rstCnt
  sticky : ∀ i, bit h.sticky i = true → bit k.sticky i = true
  events : ∀ i, bit h.events i = true → bit k.events i = true

/-- Beside that, STATE, the slots and the levels stay. -/
structure HStands (h k : Harness) : Prop extends HKept h k where
  state  : k.state = h.state
  slotsA : k.a.slots = h.a.slots
  slotsB : k.b.slots = h.b.slots
  lvlA   : k.a.lvl = h.a.lvl
  lvlB   : k.b.lvl = h.b.lvl

section Stands
variable {h k m : Harness}

theorem HKept.refl (h : Harness) : HKept h h := ⟨rfl, rfl, rfl, rfl, rfl, fun _ => id, fun _ => id⟩

theorem HKept.trans (p : HKept h k) (q : HKept k m) : HKept h m :=
  ⟨q.active.trans p.active, q.mask.trans p.mask, q.tpBad.trans p.tpBad, q.cross.trans p.cross, q.rstCnt.trans p.rstCnt,
    fun i hi => q.sticky i (p.sticky i hi), fun i hi => q.events i (p.events i hi)⟩

theorem HStands.refl (h : Harness) : HStands h h := ⟨.refl h, rfl, rfl, rfl, rfl, rfl⟩

theorem HStands.trans (p : HStands h k) (q : HStands k m) : HStands h m :=
  ⟨p.toHKept.trans q.toHKept, q.state.trans p.state, q.slotsA.trans p.slotsA, q.slotsB.trans p.slotsB, q.lvlA.trans p.lvlA,
    q.lvlB.trans p.lvlB⟩

theorem stands_ite {b : Prop} [Decidable b] (p : HStands h k) (q : HStands h m) : HStands h (if b then k else m) := by
  split
  · exact p
  · exact q

/-- What an operation does not touch. -/
theorem stands_brakes (h : Harness) (v : Vector Brake 2) : HStands h { h with brakes := v } :=
  ⟨⟨rfl, rfl, rfl, rfl, rfl, fun _ => id, fun _ => id⟩, rfl, rfl, rfl, rfl, rfl⟩

theorem stands_setBrake (b : Fin 2) (x : Brake) (h : Harness) : HStands h (h.setBrake b x) := stands_brakes h _

/-- An event that is raised waits with those that wait. -/
theorem event_stands (e : Nat) (h : Harness) : HStands h (h.event e) := by
  refine ⟨⟨rfl, rfl, rfl, rfl, rfl, fun _ => id, fun i hi => ?_⟩, rfl, rfl, rfl, rfl, rfl⟩
  have hor : bit (h.event e).events i = (bit h.events i || bit (BitVec.ofNat 16 (2 ^ (e - 128))) i) := BitVec.getLsbD_or
  rw [hor, hi, Bool.true_or]

theorem event_waits {e : Nat} (he : e - 128 < 16) (h : Harness) : bit (h.event e).events (e - 128) = true := by
  have hset := bit_setOne h.events he (e - 128)
  rw [decide_eq_true rfl, Bool.or_true] at hset
  exact hset

theorem stick_stands (i : Nat) (h : Harness) : HStands h (h.stick i) :=
  ⟨⟨rfl, rfl, rfl, rfl, rfl, fun _ hj => bit_setBit_true i hj, fun _ => id⟩, rfl, rfl, rfl, rfl, rfl⟩

theorem bstick_stands (i : Nat) (h : Harness) : HStands h (h.bstick i) :=
  ⟨⟨rfl, rfl, rfl, rfl, rfl, fun _ => id, fun _ => id⟩, rfl, rfl, rfl, rfl, rfl⟩

/-- A change of the Harness and what its watch adds: events alone. -/
theorem hWatch_frame (f : Harness → Harness) (h : Harness) : ∃ w, hWatch f h = { f h with events := w } ∧
    ∀ i, bit (f h).events i = true → bit w i = true := by
  have hone (e : Nat) (k : Harness) (b : Bool) : ∃ w, (if b then k else k.event e) = { k with events := w } ∧
      ∀ i, bit k.events i = true → bit w i = true := by
    cases b
    · exact ⟨_, rfl, (event_stands e k).events⟩
    · exact ⟨k.events, rfl, fun _ => id⟩
  obtain ⟨w, hw, hkeep⟩ := hone 128 (f h) (decide (h.demand = (f h).demand))
  obtain ⟨w', hw', hkeep'⟩ := hone 129 { f h with events := w }
    ((List.range 8).all (fun k => decide (h.func (Fin.ofNat 8 k) = (f h).func (Fin.ofNat 8 k))))
  refine ⟨w', ?_, fun i hi => hkeep' i (hkeep i hi)⟩
  have heq : hWatch f h = if (List.range 8).all (fun k => decide (h.func (Fin.ofNat 8 k) = (f h).func (Fin.ofNat 8 k))) then
      (if decide (h.demand = (f h).demand) then f h else (f h).event 128)
      else (if decide (h.demand = (f h).demand) then f h else (f h).event 128).event 129 := by
    unfold hWatch
    simp only [decide_eq_true_eq]
  rw [heq, hw, hw']

/-- A step that changes nothing. -/
theorem hWatch_id (hf : f h = h) : hWatch f h = h := by
  unfold hWatch
  simp only [hf, decide_true, List.all_eq_true, implies_true, if_true]

/-- A step of a Harness that runs. -/
theorem hrnStep_runs {s : State} (hr : HarnessRuns s) (f : Harness → Harness) :
    hrnStep f s = .next { s with dev := s.dev.setHrn (hWatch f s.dev.hrn) } := by
  obtain ⟨hp, hs⟩ := hr
  refine congrArg (fun d => (Host.Outcome.next { s with dev := d } : Out)) (if_pos ?_)
  rw [hp, decide_eq_true hs]
  rfl

/-- What a step of a Harness that runs does, by its function. -/
theorem hrnStep_shows {s : State} (hr : HarnessRuns s) (f : Harness → Harness) : ∃ w,
    hrnStep f s = .next { s with dev := s.dev.setHrn { f s.dev.hrn with events := w } } ∧
      ∀ i, bit (f s.dev.hrn).events i = true → bit w i = true := by
  obtain ⟨w, hw, hkeep⟩ := hWatch_frame f s.dev.hrn
  exact ⟨w, by rw [hrnStep_runs hr, hw], hkeep⟩

end Stands

/-! ## Operations that leave the slots -/

section Operations
variable {h : Harness} {b : Fin 2}

theorem testEnd_stands (b : Fin 2) (last cause : Nat) (h : Harness) : HStands h (testEnd b last cause h) :=
  (stands_setBrake b _ h).trans (event_stands 134 _)

theorem testAbort_stands (b : Fin 2) (cause : Nat) (h : Harness) : HStands h (testAbort b cause h) :=
  stands_ite (.refl h) (testEnd_stands b 3 cause h)

theorem testStep_stands (b : Fin 2) (n : Nat) (h : Harness) : HStands h (testStep b n h) := stands_setBrake b _ h

theorem testVerdict_stands (b : Fin 2) (h : Harness) : HStands h (testVerdict b h) := by
  have hbad (cause : Nat) : HStands h (testEnd b 2 cause (h.bstick (2 + b))) := (bstick_stands _ h).trans (testEnd_stands b 2 cause _)
  unfold testVerdict
  exact stands_ite (hbad 4) (stands_ite (hbad 5) (stands_ite (hbad 6) ((stands_setBrake b _ h).trans (testEnd_stands b 1 0 _))))

theorem testCycle_stands (b : Fin 2) (h : Harness) : HStands h (testCycle b h) := by
  unfold testCycle
  refine stands_ite (.refl h) (stands_ite (testAbort_stands b 1 h) ?_)
  split
  · exact stands_ite (testStep_stands b 2 h) (.refl h)
  · exact stands_ite (.refl h) (testAbort_stands b 3 h)
  · exact stands_ite (testStep_stands b 4 h) (.refl h)
  · exact stands_ite (testStep_stands b 5 h) (.refl h)
  · exact stands_ite (.refl h) (testAbort_stands b 3 h)
  · exact stands_ite (testVerdict_stands b h) (.refl h)

theorem coilFault_stands (b : Fin 2) (free : Nat) (h : Harness) : HStands h (coilFault b free h) :=
  (((testAbort_stands b _ h).trans (stands_setBrake b _ _)).trans (bstick_stands _ _)).trans (event_stands 131 _)

theorem coilWatch_stands (b : Fin 2) (free ma mb : Nat) (swA swB : Bool) (h : Harness) : HStands h (coilWatch b free ma mb swA swB h) := by
  unfold coilWatch
  exact stands_ite ((stands_setBrake b _ h).trans (coilFault_stands b free _)) (stands_setBrake b _ h)

theorem brakeSwitch_stands (b : Fin 2) (h : Harness) : HStands h (brakeSwitch b h) := stands_setBrake b _ h

theorem hackWatch_stands (was : Bool) (h : Harness) : HStands h (hackWatch was h) :=
  ⟨⟨rfl, rfl, rfl, rfl, rfl, fun _ => id, fun _ => id⟩, rfl, rfl, rfl, rfl, rfl⟩

theorem setPairs_stands (h : Harness) : HStands h (setPairs h) :=
  ⟨⟨rfl, rfl, rfl, rfl, rfl, fun _ => id, fun _ => id⟩, rfl, rfl, rfl, rfl, rfl⟩

theorem shareStates_stands (lost : Bool) (h : Harness) : HStands h (shareStates lost h) :=
  stands_ite (.refl h) ⟨⟨rfl, rfl, rfl, rfl, rfl, fun _ => id, fun _ => id⟩, rfl, rfl, rfl, rfl, rfl⟩

theorem outFault_stands (x : Nat) (oc : Bool) (h : Harness) : HStands h (outFault x oc h) := by
  have hpins : HStands h { h with ofault := h.ofault ||| BitVec.ofNat 4 (2 ^ x), pairs := h.pairs &&& ~~~ BitVec.ofNat 4 (2 ^ x) } :=
    ⟨⟨rfl, rfl, rfl, rfl, rfl, fun _ => id, fun _ => id⟩, rfl, rfl, rfl, rfl, rfl⟩
  exact (hpins.trans (stick_stands _ _)).trans (event_stands 132 _)

theorem readBack_stands (sa sb : Sys2Proof.HarnessSample) (h : Harness) : HStands h (readBack sa sb h) := by
  have hread : HStands h { h with readA := sa.hoRead, readB := sb.hoRead, highA := highCount h sa.hoRead h.highA,
                                  highB := highCount h sb.hoRead h.highB } :=
    ⟨⟨rfl, rfl, rfl, rfl, rfl, fun _ => id, fun _ => id⟩, rfl, rfl, rfl, rfl, rfl⟩
  refine hread.trans (forAll_rel HStands.refl HStands.trans (fun x _ k => ?_) _)
  have hlimit : HStands k (if (bit sa.hoLimit x || bit sb.hoLimit x) && bit k.pairs x then outFault x true k else k) :=
    stands_ite (outFault_stands x true k) (.refl k)
  exact hlimit.trans (stands_ite (outFault_stands x false _) (.refl _))

end Operations

/-! ## FAULT and the start of the slots -/

section Fault
variable {h : Harness}

theorem allSlots_kept (s : Nat → HSlot) (h : Harness) : HKept h (h.allSlots s) := ⟨rfl, rfl, rfl, rfl, rfl, fun _ => id, fun _ => id⟩

theorem dark_stands (h : Harness) : HStands h h.dark := ⟨⟨rfl, rfl, rfl, rfl, rfl, fun _ => id, fun _ => id⟩, rfl, rfl, rfl, rfl, rfl⟩

/-- FAULT, once running tests are aborted. -/
def faultedFrom (code : Nat) (k : Harness) : Harness := { ((k.dark.allSlots (fun _ => HSlot.reset)).event 133) with state := 2, fcode := code }

/-- The Harness that enters FAULT. -/
def faulted (code : Nat) (h : Harness) : Harness := faultedFrom code (testAbort 1 1 (testAbort 0 1 h))

theorem hFault_eq (hs : h.state ≠ 2) (code : Nat) : hFault code h = faulted code h := if_neg hs

theorem faulted_kept (code : Nat) (h : Harness) : HKept h (faulted code h) := by
  have hchain : HKept h (((testAbort 1 1 (testAbort 0 1 h)).dark.allSlots (fun _ => HSlot.reset)).event 133) :=
    ((((testAbort_stands 0 1 h).trans (testAbort_stands 1 1 _)).trans (dark_stands _)).toHKept.trans (allSlots_kept _ _)).trans
      (event_stands 133 _).toHKept
  exact ⟨hchain.active, hchain.mask, hchain.tpBad, hchain.cross, hchain.rstCnt, hchain.sticky, hchain.events⟩

theorem hFault_kept (code : Nat) (h : Harness) : HKept h (hFault code h) := by
  by_cases hs : h.state = 2
  · rw [hFault, if_pos hs]
    exact .refl h
  · rw [hFault_eq hs]
    exact faulted_kept code h

theorem hFault_state (code : Nat) (h : Harness) : (hFault code h).state = 2 := by
  by_cases hs : h.state = 2
  · rw [hFault, if_pos hs]
    exact hs
  · rw [hFault_eq hs]
    rfl

/-- With every slot in one state in both channels, that is its state. -/
theorem func_allSlots {c : Nat → HSlot} {h k : Harness} (ha : h.a.slots = (k.allSlots c).a.slots) (hb : h.b.slots = (k.allSlots c).b.slots)
    (hga : h.a.got = (k.allSlots c).a.got) (hgb : h.b.got = (k.allSlots c).b.got) (f : Fin 8) : h.func f = (c f).st := by
  have hsa : (h.a.slots[f]).st = (c f).st := by simp [ha, Harness.allSlots]
  have hsb : (h.b.slots[f]).st = (c f).st := by simp [hb, Harness.allSlots]
  have hgotA : h.a.got[f] = (c f).st := by simp [hga, Harness.allSlots]
  have hgotB : h.b.got[f] = (c f).st := by simp [hgb, Harness.allSlots]
  unfold Harness.func
  rw [hsa, hsb, hgotA, hgotB]
  simp only [ite_self]

theorem brake_dark (h : Harness) (b : Fin 2) : (h.dark.brake b).on = false := by
  simp [Harness.dark, Harness.brake]

/-- FAULT, also where a watch adds events. -/
theorem faultedFrom_shows (code : Nat) (k : Harness) (w : BitVec 16) (hw : ∀ i, bit (faultedFrom code k).events i = true → bit w i = true) :
    Faulted code { faultedFrom code k with events := w } := by
  have hevent : bit (faultedFrom code k).events 5 = true := event_waits (e := 133) (by decide) (k.dark.allSlots (fun _ => HSlot.reset))
  refine ⟨rfl, rfl, rfl, fun f => ?_, fun b => brake_dark k b, hw 5 hevent⟩
  exact func_allSlots (c := fun _ => HSlot.reset) (k := k.dark) rfl rfl rfl rfl f

theorem faulted_shows (code : Nat) (h : Harness) (w : BitVec 16) (hw : ∀ i, bit (faulted code h).events i = true → bit w i = true) :
    Faulted code { faulted code h with events := w } := faultedFrom_shows code _ w hw

end Fault

end Sys2Proof.Proofs
end

section
/-! PROOFS. A cycle of the Harness in the order of R312, and the verdicts of test pulses (15_harness.md: R300 to R303). -/
namespace Sys2Proof.Proofs
open Sys2Proof Sys2Proof.Machine Sys2Proof.Claims

/-! ## Sampling -/

section Sampling
variable {h : Harness} {s : Sys2Proof.HarnessSample} {ch c d : HChan}

/-- A channel whose filters have moved: levels and counts of inputs, not HRST. -/
def Filtered (c d : HChan) : Prop := ∃ v g, d = { c with lvl := v, agree := g } ∧ bit v 16 = bit c.lvl 16

theorem Filtered.refl (c : HChan) : Filtered c c := ⟨c.lvl, c.agree, rfl, rfl⟩

theorem Filtered.trans {c d e : HChan} (p : Filtered c d) (q : Filtered d e) : Filtered c e := by
  obtain ⟨v, g, rfl, hv⟩ := p
  obtain ⟨v', g', rfl, hv'⟩ := q
  exact ⟨v', g', rfl, hv'.trans hv⟩

/-- The inputs that were low at a sample of the running pulse. -/
def sampleLow (h : Harness) (s : Sys2Proof.HarnessSample) (ch : HChan) : BitVec 16 :=
  if h.mask.any (fun n => decide (3 ≤ n)) then ch.lowSeen ||| ~~~ s.hi else ch.lowSeen

theorem sampleChan_frame (h : Harness) (s : Sys2Proof.HarnessSample) (ch : HChan) : ∃ v g, sampleChan h s ch =
    { ch with lvl := v, agree := g, raw := s.hi, lowSeen := sampleLow h s ch } ∧ bit v 16 = s.hrst := by
  have hfold : Filtered { ch with lvl := put18 (put18 ch.lvl 16 s.hrst) 17 s.hack, raw := s.hi, lowSeen := sampleLow h s ch }
      (sampleChan h s ch) := by
    refine forAll_rel Filtered.refl Filtered.trans (fun i hi c => ?_) _
    dsimp only
    split
    · exact .refl c
    · split
      · exact ⟨c.lvl, _, rfl, rfl⟩
      · split
        · exact ⟨c.lvl, _, rfl, rfl⟩
        · refine ⟨_, _, rfl, ?_⟩
          rw [bit_put18 _ (by omega), if_neg (by omega)]
  obtain ⟨v, g, heq, hv⟩ := hfold
  refine ⟨v, g, heq, hv.trans ?_⟩
  rw [bit_put18 _ (by decide), if_neg (by decide), bit_put18 _ (by decide), if_pos rfl]

/-- Both channels sample. -/
def sampled (sa sb : Sys2Proof.HarnessSample) (h : Harness) : Harness := { h with a := sampleChan h sa h.a, b := sampleChan h sb h.b }

theorem sampleLow_masked {x : Fin 8} (hm : h.mask[x] = 3) (s : Sys2Proof.HarnessSample) (ch : HChan) {i : Nat} (hi : i < 16) :
    bit (sampleLow h s ch) i = (bit ch.lowSeen i || !bit s.hi i) := by
  have hany : h.mask.any (fun n => decide (3 ≤ n)) = true :=
    Vector.any_eq_true.mpr ⟨x.val, x.isLt, by
      have h3 : h.mask[x.val] = 3 := hm
      simp [h3]⟩
  rw [sampleLow, if_pos hany, bit, BitVec.getLsbD_or, BitVec.getLsbD_not, decide_eq_true hi, Bool.true_and]
  rfl

theorem sampleLow_stands (h : Harness) (s : Sys2Proof.HarnessSample) (ch : HChan) {i : Nat} (hl : bit ch.lowSeen i = true) :
    bit (sampleLow h s ch) i = true := by
  unfold sampleLow
  split
  · rw [bit, BitVec.getLsbD_or]
    exact (congrArg (· || _) hl).trans (Bool.true_or _)
  · exact hl

end Sampling

/-! ## Test pulses (R300, R301) -/

/-- What the verdicts of test pulses leave: a slot moves to TPF only, and both channels alike. -/
structure Pulsed (h k : Harness) : Prop where
  active  : k.active = h.active
  mask    : k.mask = h.mask
  rstCnt  : k.rstCnt = h.rstCnt
  state   : k.state = h.state
  events  : k.events = h.events
  chanA   : k.a = { h.a with slots := k.a.slots }
  chanB   : k.b = { h.b with slots := k.b.slots }
  alike   : h.a = h.b → k.a = k.b
  tpf     : ∀ f : Fin 8, (h.a.slots[f]).st = 7 → (k.a.slots[f]).st = 7
  used    : ∀ f : Fin 8, (h.a.slots[f]).st ≠ 0 → (k.a.slots[f]).st ≠ 0
  sticky  : ∀ i, bit h.sticky i = true → bit k.sticky i = true

section Pulse
variable {h k m : Harness} {i j : Nat} {x y : Fin 8}

theorem Pulsed.refl (h : Harness) : Pulsed h h := ⟨rfl, rfl, rfl, rfl, rfl, rfl, rfl, id, fun _ => id, fun _ => id, fun _ => id⟩

theorem Pulsed.trans (p : Pulsed h k) (q : Pulsed k m) : Pulsed h m :=
  ⟨q.active.trans p.active, q.mask.trans p.mask, q.rstCnt.trans p.rstCnt, q.state.trans p.state, q.events.trans p.events,
    by rw [q.chanA, p.chanA], by rw [q.chanB, p.chanB], fun e => q.alike (p.alike e), fun f e => q.tpf f (p.tpf f e),
    fun f e => q.used f (p.used f e), fun i e => q.sticky i (p.sticky i e)⟩

theorem Pulsed.cfg (p : Pulsed h k) : k.cfg = h.cfg := by rw [Harness.cfg, p.active, Harness.cfg]

theorem tpFault_slot (i : Nat) (h : Harness) (f : Fin 8) : ((tpFault i h).a.slots[f]).st =
    if (h.a.slots[f]).st ≠ 0 ∧ (hInputs h.cfg f).contains i = true then 7 else (h.a.slots[f]).st := by
  have hslot : (tpFault i h).a.slots[f] = if (h.a.slots[f]).st ≠ 0 ∧ (hInputs h.cfg f).contains i = true then
      { h.a.slots[f] with st := 7 } else h.a.slots[f] := Vector.getElem_ofFn f.isLt
  rw [hslot]
  split
  · rfl
  · rfl

theorem tpFault_pulsed (i : Nat) (h : Harness) : Pulsed h (tpFault i h) := by
  refine ⟨rfl, rfl, rfl, rfl, rfl, rfl, rfl, fun e => ?_, fun f hf => ?_, fun f hf => ?_, fun n hn => bit_setBit_true i hn⟩
  · unfold tpFault Harness.stick
    dsimp only
    rw [e]
  · rw [tpFault_slot, hf, ite_self]
  · rw [tpFault_slot]
    split
    · decide
    · exact hf

/-- An input at the last sample of a pulse of HTx. -/
def pulseIn (x : Fin 8) (i : Nat) (h : Harness) : Harness :=
  if !hTpen h.cfg i || decide (hSrc h.cfg i ≠ x.val) then h
  else if bit h.a.lowSeen i && bit h.b.lowSeen i then { h with tpBad := h.tpBad &&& ~~~ BitVec.ofNat 16 (2 ^ i) }
  else tpFault i { h with tpBad := h.tpBad ||| BitVec.ofNat 16 (2 ^ i) }

/-- An input read low by a channel within a pulse only. -/
def crossedIn (ch : HChan) (i : Nat) : Bool := bit ch.before i && bit ch.lowSeen i && bit ch.raw i

/-- An input at the first sample after a pulse of HTx. -/
def pulseAfter (x : Fin 8) (i : Nat) (h : Harness) : Harness :=
  if hTpen h.cfg i && decide (hSrc h.cfg i ≠ x.val) && (crossedIn h.a i || crossedIn h.b i) then
    tpFault i { h with cross := h.cross.set x (h.cross[x] ||| BitVec.ofNat 16 (2 ^ i)) }
  else { h with cross := h.cross.set x (h.cross[x] &&& ~~~ BitVec.ofNat 16 (2 ^ i)) }

theorem pulseVerdict_in (hm : h.mask[x] = 3) : pulseVerdict x h = forAll 16 (pulseIn x) h := by
  unfold pulseVerdict
  dsimp only
  rw [hm] <;> rfl

theorem pulseVerdict_after (hm : h.mask[x] = 2) : pulseVerdict x h = forAll 16 (pulseAfter x) h := by
  unfold pulseVerdict
  dsimp only
  rw [hm] <;> rfl

theorem pulseVerdict_none (h3 : h.mask[x] ≠ 3) (h2 : h.mask[x] ≠ 2) : pulseVerdict x h = h := by
  unfold pulseVerdict
  dsimp only
  split
  · next hm => exact absurd hm h3
  · next hm => exact absurd hm h2
  · rfl

/-- What every input's step of a verdict keeps, the verdict keeps. -/
theorem pulseVerdict_rel {R : Harness → Harness → Prop} (hrefl : ∀ s, R s s) (htrans : ∀ {s t u}, R s t → R t u → R s u)
    (hin : ∀ i, i < 16 → ∀ s, R s (pulseIn x i s)) (hafter : ∀ i, i < 16 → ∀ s, R s (pulseAfter x i s)) (h : Harness) :
    R h (pulseVerdict x h) := by
  by_cases h3 : h.mask[x] = 3
  · rw [pulseVerdict_in h3]
    exact forAll_rel hrefl htrans hin h
  · by_cases h2 : h.mask[x] = 2
    · rw [pulseVerdict_after h2]
      exact forAll_rel hrefl htrans hafter h
    · rw [pulseVerdict_none h3 h2]
      exact hrefl h

theorem pulsed_tpBad (v : BitVec 16) (h : Harness) : Pulsed h { h with tpBad := v } :=
  ⟨rfl, rfl, rfl, rfl, rfl, rfl, rfl, id, fun _ => id, fun _ => id, fun _ => id⟩

theorem pulsed_cross (v : Vector (BitVec 16) 8) (h : Harness) : Pulsed h { h with cross := v } :=
  ⟨rfl, rfl, rfl, rfl, rfl, rfl, rfl, id, fun _ => id, fun _ => id, fun _ => id⟩

theorem pulseIn_pulsed (x : Fin 8) (i : Nat) (h : Harness) : Pulsed h (pulseIn x i h) := by
  unfold pulseIn
  split
  · exact .refl h
  · split
    · exact pulsed_tpBad _ h
    · exact (pulsed_tpBad _ h).trans (tpFault_pulsed i _)

theorem pulseAfter_pulsed (x : Fin 8) (i : Nat) (h : Harness) : Pulsed h (pulseAfter x i h) := by
  unfold pulseAfter
  split
  · exact (pulsed_cross _ h).trans (tpFault_pulsed i _)
  · exact pulsed_cross _ h

/-- The verdicts of all test pulses. -/
def verdicts (h : Harness) : Harness := forAll 8 (fun x h => pulseVerdict (Fin.ofNat 8 x) h) h

theorem pulseTests_eq (h : Harness) : pulseTests h = { verdicts h with mask := (verdicts h).mask.map (· - 1) } := rfl

theorem verdicts_pulsed (h : Harness) : Pulsed h (verdicts h) :=
  forAll_rel Pulsed.refl Pulsed.trans (fun _ _ s => pulseVerdict_rel Pulsed.refl Pulsed.trans (fun i _ s => pulseIn_pulsed _ i s)
    (fun i _ s => pulseAfter_pulsed _ i s) s) h

/-- The verdict on input i stands, unless it is that of a pulse of its own source x. -/
def VerdictStands (x : Fin 8) (i : Nat) (h k : Harness) : Prop := Pulsed h k ∧ (hSrc h.cfg i = x → bit k.tpBad i = bit h.tpBad i)

theorem VerdictStands.refl (x : Fin 8) (i : Nat) (h : Harness) : VerdictStands x i h h := ⟨.refl h, fun _ => rfl⟩

theorem VerdictStands.trans (p : VerdictStands x i h k) (q : VerdictStands x i k m) : VerdictStands x i h m := by
  obtain ⟨p1, p2⟩ := p
  obtain ⟨q1, q2⟩ := q
  exact ⟨p1.trans q1, fun e => (q2 (by rw [p1.cfg]; exact e)).trans (p2 e)⟩

theorem verdictStands_in (hj : j < 16) (hne : y ≠ x ∨ j ≠ i) (h : Harness) : VerdictStands x i h (pulseIn y j h) := by
  refine ⟨pulseIn_pulsed y j h, fun e => ?_⟩
  unfold pulseIn
  split
  · rfl
  · next hcond =>
    have hji : i ≠ j := by
      rintro rfl
      simp only [Bool.or_eq_true, decide_eq_true_eq, not_or, not_not] at hcond
      exact hne.elim (fun hxy => hxy (Fin.ext (hcond.2.symm.trans e))) (fun hc => hc rfl)
    split
    · exact (bit_clearOne _ _ _).trans (by rw [decide_eq_false hji]; simp)
    · exact (bit_setOne _ hj _).trans (by rw [decide_eq_false hji, Bool.or_false])

theorem verdictStands_after (y : Fin 8) (j : Nat) (h : Harness) : VerdictStands x i h (pulseAfter y j h) := by
  refine ⟨pulseAfter_pulsed y j h, fun _ => ?_⟩
  unfold pulseAfter
  split
  · rfl
  · rfl

/-- An input's own step is the one that decides its verdict. -/
theorem verdicts_in (hm : h.mask[x] = 3) (hi : i < 16) : ∃ k, VerdictStands x i h k ∧ VerdictStands x i (pulseIn x i k) (verdicts h) := by
  have hfin : Fin.ofNat 8 x.val = x := Fin.ext (Nat.mod_eq_of_lt x.isLt)
  obtain ⟨t, ht, hlast⟩ := forAll_through (f := fun x h => pulseVerdict (Fin.ofNat 8 x) h) (VerdictStands.refl x i) VerdictStands.trans x.isLt
    (fun y hy hne s => pulseVerdict_rel (VerdictStands.refl x i) VerdictStands.trans
      (fun j hj s => verdictStands_in hj (.inl (fun hc => hne (by rw [← hc]; exact (Nat.mod_eq_of_lt hy).symm))) s)
      (fun j _ s => verdictStands_after _ j s) s) h
  have hmt : t.mask[x] = 3 := by rw [ht.1.mask, hm]
  rw [hfin, pulseVerdict_in hmt] at hlast
  obtain ⟨k, hk, hrest⟩ := forAll_through (f := pulseIn x) (VerdictStands.refl x i) VerdictStands.trans hi
    (fun j hj hne s => verdictStands_in hj (.inr hne) s) t
  exact ⟨k, ht.trans hk, hrest.trans hlast⟩

/-- What the latest pulse of HTx showed of input i stands. -/
def CrossStands (x : Fin 8) (i : Nat) (h k : Harness) : Prop := Pulsed h k ∧ bit k.cross[x] i = bit h.cross[x] i

theorem CrossStands.refl (x : Fin 8) (i : Nat) (h : Harness) : CrossStands x i h h := ⟨.refl h, rfl⟩

theorem CrossStands.trans (p : CrossStands x i h k) (q : CrossStands x i k m) : CrossStands x i h m :=
  ⟨p.1.trans q.1, q.2.trans p.2⟩

theorem crossStands_in (y : Fin 8) (j : Nat) (h : Harness) : CrossStands x i h (pulseIn y j h) := by
  refine ⟨pulseIn_pulsed y j h, ?_⟩
  unfold pulseIn
  split
  · rfl
  · split
    · rfl
    · rfl

theorem tpFault_cross (i : Nat) (h : Harness) : (tpFault i h).cross = h.cross := rfl

theorem crossStands_after (hj : j < 16) (hne : y ≠ x ∨ j ≠ i) (h : Harness) : CrossStands x i h (pulseAfter y j h) := by
  refine ⟨pulseAfter_pulsed y j h, ?_⟩
  have hset (w : BitVec 16) (hw : y = x → bit w i = bit h.cross[y] i) : bit (h.cross.set y w)[x] i = bit h.cross[x] i := by
    by_cases hyx : y = x
    · subst hyx
      simpa using hw rfl
    · have hval : y.val ≠ x.val := fun hc => hyx (Fin.ext hc)
      simp [Vector.getElem_set_ne _ _ hval]
  unfold pulseAfter
  split
  · refine hset _ (fun hyx => ?_)
    rw [bit_setOne _ hj, decide_eq_false (fun hc : i = j => hne.elim (fun hc' => hc' hyx) (fun hc' => hc' hc.symm)), Bool.or_false]
  · refine hset _ (fun hyx => ?_)
    rw [bit_clearOne, decide_eq_false (fun hc : i = j => hne.elim (fun hc' => hc' hyx) (fun hc' => hc' hc.symm))]
    simp

theorem verdicts_after (hm : h.mask[x] = 2) (hi : i < 16) : ∃ k, CrossStands x i h k ∧ CrossStands x i (pulseAfter x i k) (verdicts h) := by
  have hfin : Fin.ofNat 8 x.val = x := Fin.ext (Nat.mod_eq_of_lt x.isLt)
  obtain ⟨t, ht, hlast⟩ := forAll_through (f := fun x h => pulseVerdict (Fin.ofNat 8 x) h) (CrossStands.refl x i) CrossStands.trans x.isLt
    (fun y hy hne s => pulseVerdict_rel (CrossStands.refl x i) CrossStands.trans (fun j _ s => crossStands_in _ j s)
      (fun j hj s => crossStands_after hj (.inl (fun hc => hne (by rw [← hc]; exact (Nat.mod_eq_of_lt hy).symm))) s) s) h
  have hmt : t.mask[x] = 2 := by rw [ht.1.mask, hm]
  rw [hfin, pulseVerdict_after hmt] at hlast
  obtain ⟨k, hk, hrest⟩ := forAll_through (f := pulseAfter x) (CrossStands.refl x i) CrossStands.trans hi
    (fun j hj hne s => crossStands_after hj (.inr hne) s) t
  exact ⟨k, ht.trans hk, hrest.trans hlast⟩

/-- An input that both channels read low within the pulse passes. -/
theorem pulse_passed (hm : h.mask[x] = 3) (hi : i < 16) (ht : hTpen h.cfg i = true) (hs : hSrc h.cfg i = x)
    (ha : bit h.a.lowSeen i = true) (hb : bit h.b.lowSeen i = true) : bit (verdicts h).tpBad i = false := by
  obtain ⟨k, ⟨hk, -⟩, hlast, hbad⟩ := verdicts_in hm hi
  have hstep : pulseIn x i k = { k with tpBad := k.tpBad &&& ~~~ BitVec.ofNat 16 (2 ^ i) } := by
    have hlow : (bit k.a.lowSeen i && bit k.b.lowSeen i) = true := by
      rw [hk.chanA, hk.chanB, ha, hb]
      rfl
    rw [pulseIn, hk.cfg, ht, decide_eq_false (not_not.mpr hs), hlow]
    rfl
  rw [hbad (by rw [(pulseIn_pulsed x i k).cfg, hk.cfg]; exact hs), hstep]
  exact (bit_clearOne _ _ _).trans (by simp)

/-- An input that a channel did not read low within the pulse has a test-pulse fault. -/
theorem pulse_failed (hm : h.mask[x] = 3) (hi : i < 16) (ht : hTpen h.cfg i = true) (hs : hSrc h.cfg i = x)
    (hl : bit h.a.lowSeen i = false ∨ bit h.b.lowSeen i = false) : bit (verdicts h).tpBad i = true ∧ bit (verdicts h).sticky i = true ∧
      ∀ f : Fin 8, (hInputs h.cfg f).contains i = true → (h.a.slots[f]).st ≠ 0 → ((verdicts h).a.slots[f]).st = 7 := by
  obtain ⟨k, ⟨hk, -⟩, hlast, hbad⟩ := verdicts_in hm hi
  have hstep : pulseIn x i k = tpFault i { k with tpBad := k.tpBad ||| BitVec.ofNat 16 (2 ^ i) } := by
    have hlow : (bit k.a.lowSeen i && bit k.b.lowSeen i) = false := by
      rw [hk.chanA, hk.chanB]
      rcases hl with h | h
      · rw [h, Bool.false_and]
      · rw [h, Bool.and_false]
    rw [pulseIn, hk.cfg, ht, decide_eq_false (not_not.mpr hs), hlow]
    rfl
  have hcfg : ({ k with tpBad := k.tpBad ||| BitVec.ofNat 16 (2 ^ i) } : Harness).cfg = h.cfg := hk.cfg
  refine ⟨?_, hlast.sticky i ?_, fun f hf hused => hlast.tpf f ?_⟩
  · rw [hbad (by rw [(pulseIn_pulsed x i k).cfg, hk.cfg]; exact hs), hstep]
    exact (bit_setOne _ hi _).trans (by simp)
  · rw [hstep]
    exact bit_setBit_same (by omega) _
  · rw [hstep, tpFault_slot, hcfg]
    exact if_pos ⟨hk.used f hused, hf⟩

/-- An input of another source that read low within the pulse only has one too. -/
theorem pulse_crossed (hm : h.mask[x] = 2) (hi : i < 16) (ht : hTpen h.cfg i = true) (hs : hSrc h.cfg i ≠ x)
    (hc : crossedIn h.a i = true) : bit (verdicts h).sticky i = true ∧ bit (verdicts h).cross[x] i = true := by
  obtain ⟨k, ⟨hk, -⟩, hlast, hcross⟩ := verdicts_after hm hi
  have hin : crossedIn k.a i = true := by
    rw [hk.chanA]
    exact hc
  have hstep : pulseAfter x i k = tpFault i { k with cross := k.cross.set x (k.cross[x] ||| BitVec.ofNat 16 (2 ^ i)) } := by
    rw [pulseAfter, hk.cfg, ht, decide_eq_true hs, hin]
    rfl
  refine ⟨hlast.sticky i ?_, ?_⟩
  · rw [hstep]
    exact bit_setBit_same (by omega) _
  · rw [hcross, hstep, tpFault_cross]
    simp only [Fin.getElem_fin, Vector.getElem_set_self]
    rw [bit_setOne _ hi, decide_eq_true rfl, Bool.or_true]

end Pulse

end Sys2Proof.Proofs
end

section
/-! PROOFS. A Harness cycle from its samples to its outputs (15_harness.md: R302, R312). -/
namespace Sys2Proof.Proofs
open Sys2Proof Sys2Proof.Machine Sys2Proof.Claims

section Cycle
variable {h k : Harness} {sa sb : Sys2Proof.HarnessSample} {t : Sys2Proof.HarnessTrouble}

/-- Outputs, brakes and tests at the end of a cycle. -/
def cycleEnd (free : Nat) (sa sb : Sys2Proof.HarnessSample) (t : Sys2Proof.HarnessTrouble) (was h : Harness) : Harness :=
  hackWatch (bit was.a.lvl 17) (brakeSwitch 1 (brakeSwitch 0 (testCycle 1 (testCycle 0
    (coilWatch 1 free sa.coil1 sb.coil1 (bit sa.hbRead 1) (bit sb.hbRead 1)
      (coilWatch 0 free sa.coil0 sb.coil0 (bit sa.hbRead 0) (bit sb.hbRead 0) (setPairs (shareStates t.exchangeLost h))))))))

/-- The transitions that inputs cause, and the read-backs. -/
def transitioned (sa sb : Sys2Proof.HarnessSample) (h : Harness) : Harness := readBack sa sb (if h.low then h else stepSlots h)

/-- A cycle after the exchange of levels. -/
def cycleOn (free : Nat) (sa sb : Sys2Proof.HarnessSample) (t : Sys2Proof.HarnessTrouble) (rst : Harness → Harness → Harness)
    (was h : Harness) : Harness :=
  if h.state = 2 then { h with readA := sa.hoRead, readB := sb.hoRead }
  else cycleEnd free sa sb t was (rst was (transitioned sa sb h))

theorem harnessCycle_eq (free : Nat) (sa sb : Sys2Proof.HarnessSample) (t : Sys2Proof.HarnessTrouble) (rst : Harness → Harness → Harness)
    (h : Harness) : harnessCycle free sa sb t rst h = cycleOn free sa sb t rst h (exchange t (pulseTests (sampled sa sb h))) := by
  unfold harnessCycle cycleOn cycleEnd transitioned sampled
  rfl

theorem cycleEnd_stands (free : Nat) (sa sb : Sys2Proof.HarnessSample) (t : Sys2Proof.HarnessTrouble) (was h : Harness) :
    HStands h (cycleEnd free sa sb t was h) :=
  (((((((((shareStates_stands _ h).trans (setPairs_stands _)).trans (coilWatch_stands 0 _ _ _ _ _ _)).trans
    (coilWatch_stands 1 _ _ _ _ _ _)).trans (testCycle_stands 0 _)).trans (testCycle_stands 1 _)).trans (brakeSwitch_stands 0 _)).trans
      (brakeSwitch_stands 1 _)).trans (hackWatch_stands _ _))

theorem stepSlots_kept (h : Harness) : HKept h (stepSlots h) := ⟨rfl, rfl, rfl, rfl, rfl, fun _ => id, fun _ => id⟩

/-- What transitions and read-backs leave, and what they leave of the channels. -/
theorem transitioned_kept (sa sb : Sys2Proof.HarnessSample) (h : Harness) : HKept h (transitioned sa sb h) ∧
    (transitioned sa sb h).state = h.state ∧ (transitioned sa sb h).a.lvl = h.a.lvl ∧ (transitioned sa sb h).b.lvl = h.b.lvl := by
  unfold transitioned
  cases h.low
  · have hread := readBack_stands sa sb (stepSlots h)
    exact ⟨(stepSlots_kept h).trans hread.toHKept, hread.state, hread.lvlA, hread.lvlB⟩
  · have hread := readBack_stands sa sb h
    exact ⟨hread.toHKept, hread.state, hread.lvlA, hread.lvlB⟩

/-- A slot in TPF waits for a reset. -/
theorem stepChan_tpf (ch : HChan) {f : Fin 8} (hf : (ch.slots[f]).st = 7) : (stepChan h ch).slots[f] = ch.slots[f] := by
  have hslot : (stepChan h ch).slots[f] = if hType h.cfg f = 0 then ch.slots[f] else if hType h.cfg f = 3 then stepHands h ch f ch.slots[f]
      else stepSlot h ch f ch.slots[f] := Vector.getElem_ofFn f.isLt
  have hhands : stepHands h ch f ch.slots[f] = ch.slots[f] := by
    unfold stepHands
    dsimp only
    rw [hf] <;> rfl
  have hother : stepSlot h ch f ch.slots[f] = ch.slots[f] := by
    unfold stepSlot
    dsimp only
    rw [hf] <;> rfl
  rw [hslot, hhands, hother, ite_self, ite_self]

theorem transitioned_tpf {f : Fin 8} (hf : (h.a.slots[f]).st = 7) : ((transitioned sa sb h).a.slots[f]).st = 7 := by
  unfold transitioned
  cases h.low
  · have hslots : (stepSlots h).a.slots[f] = h.a.slots[f] := stepChan_tpf h.a hf
    rw [if_neg (by decide), (readBack_stands sa sb (stepSlots h)).slotsA, hslots, hf]
  · rw [if_pos rfl, (readBack_stands sa sb h).slotsA, hf]

/-- What differs and what is lost is counted. -/
def exchanged (lost : Bool) (h : Harness) : Harness :=
  { h with differ := Vector.ofFn (fun i : Fin 16 => if bit h.a.lvl i = bit h.b.lvl i then 0 else h.differ[i] + 1)
           noEx := if lost then h.noEx + 1 else 0 }

theorem differ_stands (v : Vector Nat 16) (n : Nat) (h : Harness) : HStands h { h with differ := v, noEx := n } :=
  ⟨⟨rfl, rfl, rfl, rfl, rfl, fun _ => id, fun _ => id⟩, rfl, rfl, rfl, rfl, rfl⟩

theorem exchanged_stands (lost : Bool) (h : Harness) : HStands h (exchanged lost h) := differ_stands _ _ h

theorem exchange_eq (t : Sys2Proof.HarnessTrouble) (h : Harness) : exchange t h =
    if (exchanged t.exchangeLost h).differ.toList.any (fun n => decide (8 < n)) then hFault 1 (exchanged t.exchangeLost h)
    else if 4 ≤ (exchanged t.exchangeLost h).noEx then hFault 2 (exchanged t.exchangeLost h)
    else if t.ratioBad then hFault 3 (exchanged t.exchangeLost h)
    else if t.configBad then hFault 4 (exchanged t.exchangeLost h)
    else if t.selfTestBad then hFault 5 (exchanged t.exchangeLost h)
    else exchanged t.exchangeLost h := by
  unfold exchange exchanged
  rfl

/-- The exchange of levels enters FAULT or not. -/
theorem exchange_cases (t : Sys2Proof.HarnessTrouble) (h : Harness) :
    exchange t h = exchanged t.exchangeLost h ∨ ∃ code, exchange t h = hFault code (exchanged t.exchangeLost h) := by
  rw [exchange_eq]
  generalize exchanged t.exchangeLost h = e
  split
  · exact .inr ⟨1, rfl⟩
  · split
    · exact .inr ⟨2, rfl⟩
    · split
      · exact .inr ⟨3, rfl⟩
      · split
        · exact .inr ⟨4, rfl⟩
        · split
          · exact .inr ⟨5, rfl⟩
          · exact .inl rfl

theorem exchange_kept (t : Sys2Proof.HarnessTrouble) (h : Harness) : HKept h (exchange t h) := by
  rcases exchange_cases t h with heq | ⟨code, heq⟩
  · rw [heq]
    exact (exchanged_stands _ h).toHKept
  · rw [heq]
    exact (exchanged_stands _ h).toHKept.trans (hFault_kept code _)

/-- Channels that agree, with no trouble, do not fault. -/
theorem exchange_quiet (hl : h.a.lvl = h.b.lvl) : exchange ⟨false, false, false, false⟩ h = exchanged false h := by
  have hnone : (exchanged false h).differ.toList.any (fun n => decide (8 < n)) = false := by
    rw [Vector.any_toList, Vector.any_eq_false]
    intro i hi
    have hzero : (exchanged false h).differ[i] = 0 := by
      unfold exchanged
      dsimp only
      rw [Vector.getElem_ofFn, hl, if_pos rfl]
    rw [hzero]
    decide
  have hnoEx : ¬ 4 ≤ (exchanged false h).noEx := by
    have hzero : (exchanged false h).noEx = 0 := rfl
    omega
  rw [exchange_eq, hnone, if_neg (by decide), if_neg hnoEx, if_neg (by decide), if_neg (by decide), if_neg (by decide)]

theorem cycleOn_fault (free : Nat) (rst : Harness → Harness → Harness) (was : Harness) (hs : h.state = 2) :
    cycleOn free sa sb t rst was h = { h with readA := sa.hoRead, readB := sb.hoRead } := if_pos hs

theorem cycleOn_runs (free : Nat) (rst : Harness → Harness → Harness) (was : Harness) (hs : h.state ≠ 2) :
    cycleOn free sa sb t rst was h = cycleEnd free sa sb t was (rst was (transitioned sa sb h)) := if_neg hs

theorem reads_kept (x y : BitVec 4) (h : Harness) : HKept h { h with readA := x, readB := y } :=
  ⟨rfl, rfl, rfl, rfl, rfl, fun _ => id, fun _ => id⟩

/-- The cycle without a reset. -/
def noReset (_was h : Harness) : Harness := h

theorem cycleOn_kept (free : Nat) (was : Harness) (h : Harness) : HKept h (cycleOn free sa sb t noReset was h) := by
  by_cases hs : h.state = 2
  · rw [cycleOn_fault free _ was hs]
    exact reads_kept _ _ h
  · obtain ⟨hkept, -, -, -⟩ := transitioned_kept sa sb h
    rw [cycleOn_runs free _ was hs, noReset]
    exact hkept.trans (cycleEnd_stands free sa sb t was (transitioned sa sb h)).toHKept

/-- After a test-pulse fault a slot is in TPF, or the Harness is in FAULT. -/
theorem cycleOn_tpf (free : Nat) (was : Harness) {f : Fin 8} (hf : (h.a.slots[f]).st = 7) :
    ((cycleOn free sa sb t noReset was (exchange t h)).a.slots[f]).st = 7 ∨
      (cycleOn free sa sb t noReset was (exchange t h)).state = 2 := by
  by_cases hs : (exchange t h).state = 2
  · rw [cycleOn_fault free _ was hs]
    exact .inr hs
  · rw [cycleOn_runs free _ was hs, noReset]
    have hslot : ((exchange t h).a.slots[f]).st = 7 := by
      rcases exchange_cases t h with heq | ⟨code, heq⟩
      · have hslots : (exchange t h).a.slots = h.a.slots := by rw [heq, (exchanged_stands t.exchangeLost h).slotsA]
        rw [hslots, hf]
      · exact absurd (by rw [heq, hFault_state]) hs
    generalize exchange t h = e at hslot ⊢
    have hend := (cycleEnd_stands free sa sb t was (transitioned sa sb e)).slotsA
    exact .inl ((congrArg (fun v => (v[f]).st) hend).trans (transitioned_tpf hslot))

end Cycle

/-! ## A cycle on the machine -/

section Machine
variable {s : State} {sa sb : Sys2Proof.HarnessSample} {t : Sys2Proof.HarnessTrouble}

/-- The instant's free value, which a coil fault uses. -/
def cycleFree (s : State) : Nat := (Config.freeWord s.dev.freeCtr).toNat

theorem runs_tickFree (hr : HarnessRuns s) : HarnessRuns { s with dev := s.dev.tickFree } := hr

/-- The Harness after a cycle without a reset. -/
def harnessCycled (sa sb : Sys2Proof.HarnessSample) (t : Sys2Proof.HarnessTrouble) (s : State) : Harness :=
  cycleOn (cycleFree s) sa sb t noReset s.dev.hrn (exchange t (pulseTests (sampled sa sb s.dev.hrn)))

/-- A cycle of a Harness that runs. -/
theorem exec_harnessCycle (hr : HarnessRuns s) (sa sb : Sys2Proof.HarnessSample) (t : Sys2Proof.HarnessTrouble) : ∃ w,
    exec (.harnessCycle sa sb t) s = .next { s with dev := s.dev.tickFree.setHrn { harnessCycled sa sb t s with events := w } } := by
  obtain ⟨w, hw, -⟩ := hrnStep_shows (runs_tickFree hr) (harnessCycle (cycleFree s) sa sb t noReset)
  have heq : harnessCycle (cycleFree s) sa sb t noReset s.dev.hrn = harnessCycled sa sb t s := harnessCycle_eq _ _ _ _ _ _
  have hexec : exec (.harnessCycle sa sb t) s =
      hrnStep (harnessCycle (cycleFree s) sa sb t noReset) { s with dev := s.dev.tickFree } := rfl
  have hhrn : s.dev.tickFree.hrn = s.dev.hrn := rfl
  rw [hexec, hw, hhrn, heq]
  exact ⟨w, rfl⟩

/-- What a cycle leaves of the verdicts of test pulses. -/
theorem cycled_verdicts (sa sb : Sys2Proof.HarnessSample) (t : Sys2Proof.HarnessTrouble) (s : State) :
    HKept (pulseTests (sampled sa sb s.dev.hrn)) (harnessCycled sa sb t s) :=
  (exchange_kept t _).trans (cycleOn_kept (cycleFree s) s.dev.hrn _)

end Machine

end Sys2Proof.Proofs
end

section
/-! PROOFS. The reset of the Harness and its status frames (15_harness.md: R298, R311, R312; R365). -/
namespace Sys2Proof.Proofs
open Sys2Proof Sys2Proof.Machine Sys2Proof.Claims

/-! ## An accepted reset (R311) -/

section Reset
variable {h : Harness} {f : Fin 8}

theorem readyToOk_slot (h : Harness) (f : Fin 8) :
    ((readyToOk h).a.slots[f]).st = (if (h.a.slots[f]).st = 3 then 1 else (h.a.slots[f]).st) ∧
    ((readyToOk h).b.slots[f]).st = (if (h.b.slots[f]).st = 3 then 1 else (h.b.slots[f]).st) := by
  have hmap (v : Vector HSlot 8) : ((v.map (fun x => if x.st = 3 then { x with st := 1 } else x))[f]).st =
      if (v[f]).st = 3 then 1 else (v[f]).st := by
    rw [Fin.getElem_fin, Vector.getElem_map, ← Fin.getElem_fin]
    split
    · rfl
    · rfl
  exact ⟨hmap h.a.slots, hmap h.b.slots⟩

/-- Only a slot in TPF leaves its state with step 2. -/
theorem clearFaults_slot (h : Harness) (hf : (h.a.slots[f]).st ≠ 7) : ((clearFaults h).a.slots[f]).st = (h.a.slots[f]).st := by
  have hslot : (clearFaults h).a.slots[f] =
      if (h.a.slots[f]).st = 7 ∧ (hInputs h.cfg f).all (fun i => !(hTpen h.cfg i && bit h.tpBad i)) = true then
        { h.a.slots[f] with st := 2, fromOk := false, closed := false } else h.a.slots[f] := Vector.getElem_ofFn f.isLt
  rw [hslot, if_neg (fun hc => hf hc.1)]

/-- The Harness after the three steps of a reset. -/
def resetTaken (h : Harness) : Harness := readyToOk (clearFaults (clearStickies h))

theorem resetSteps_eq (h : Harness) : resetSteps h = ({ resetTaken h with rstCnt := h.rstCnt + 1 } : Harness).event 135 := rfl

theorem resetSteps_count (h : Harness) : (resetSteps h).rstCnt = h.rstCnt + 1 ∧ bit (resetSteps h).events 7 = true := by
  rw [resetSteps_eq]
  exact ⟨rfl, event_waits (e := 135) (by decide) _⟩

/-- No slot is READY after a reset. -/
theorem resetSteps_ready (h : Harness) (f : Fin 8) : ((resetSteps h).a.slots[f]).st ≠ 3 ∧ ((resetSteps h).b.slots[f]).st ≠ 3 := by
  have hnot (n : Nat) : (if n = 3 then 1 else n) ≠ 3 := by
    split
    · decide
    · assumption
  obtain ⟨ha, hb⟩ := readyToOk_slot (clearFaults (clearStickies h)) f
  have hsa : ((resetSteps h).a.slots[f]).st = ((readyToOk (clearFaults (clearStickies h))).a.slots[f]).st := rfl
  have hsb : ((resetSteps h).b.slots[f]).st = ((readyToOk (clearFaults (clearStickies h))).b.slots[f]).st := rfl
  rw [hsa, hsb, ha, hb]
  exact ⟨hnot _, hnot _⟩

/-- READY goes to OK, and a slot that is not in TPF stays where it is otherwise. -/
theorem resetSteps_slot (hf : (h.a.slots[f]).st ≠ 7) :
    ((resetSteps h).a.slots[f]).st = if (h.a.slots[f]).st = 3 then 1 else (h.a.slots[f]).st := by
  obtain ⟨ha, -⟩ := readyToOk_slot (clearFaults (clearStickies h)) f
  have hclear : ((clearFaults (clearStickies h)).a.slots[f]).st = (h.a.slots[f]).st := clearFaults_slot (clearStickies h) hf
  have hsa : ((resetSteps h).a.slots[f]).st = ((readyToOk (clearFaults (clearStickies h))).a.slots[f]).st := rfl
  rw [hsa, ha, hclear]

theorem harnessReset_accepted {n : Nat} {was : Harness} (h1 : 100 ≤ n) (h2 : n ≤ 3000) (hf : hrstFell was h = true) :
    harnessReset n was h = resetSteps h := if_pos ⟨h1, h2, hf⟩

theorem harnessReset_other {n : Nat} (hn : n < 100 ∨ 3000 < n) : harnessReset n = fun _ h => h := by
  funext was h
  exact if_neg (by omega)

end Reset

/-! ## A reset in its cycle -/

section ResetCycle
variable {s : State} {sa : Sys2Proof.HarnessSample} {n : Nat}

/-- The Harness of channels that agree, at the place of the reset in its cycle. -/
def beforeReset (sa : Sys2Proof.HarnessSample) (h : Harness) : Harness :=
  transitioned sa sa (exchanged false (pulseTests (sampled sa sa h)))

theorem pulseTests_pulsed (h : Harness) : (pulseTests h).state = h.state ∧ (pulseTests h).rstCnt = h.rstCnt ∧
    (pulseTests h).a.lvl = h.a.lvl ∧ (pulseTests h).b.lvl = h.b.lvl := by
  have hv := verdicts_pulsed h
  rw [pulseTests_eq]
  generalize verdicts h = v at hv
  have ha : v.a.lvl = h.a.lvl := by rw [hv.chanA]
  have hb : v.b.lvl = h.b.lvl := by rw [hv.chanB]
  exact ⟨hv.state, hv.rstCnt, ha, hb⟩

/-- Channels that agree sample the same levels; HRST is low in both. -/
theorem sampled_alike {h : Harness} (hab : h.a = h.b) (hl : sa.hrst = false) : (sampled sa sa h).a.lvl = (sampled sa sa h).b.lvl ∧
    bit (sampled sa sa h).a.lvl 16 = false := by
  obtain ⟨v, g, hframe, hv⟩ := sampleChan_frame h sa h.a
  have ha : (sampled sa sa h).a = sampleChan h sa h.a := rfl
  have hb : (sampled sa sa h).b = sampleChan h sa h.b := rfl
  rw [ha, hb, ← hab, hframe]
  exact ⟨rfl, hv.trans hl⟩

theorem beforeReset_shows {h : Harness} (hs : h.state ≠ 2) (hab : h.a = h.b) (hl : sa.hrst = false) :
    exchange ⟨false, false, false, false⟩ (pulseTests (sampled sa sa h)) = exchanged false (pulseTests (sampled sa sa h)) ∧
    (exchanged false (pulseTests (sampled sa sa h))).state ≠ 2 ∧ (beforeReset sa h).rstCnt = h.rstCnt ∧
    bit (beforeReset sa h).a.lvl 16 = false ∧ bit (beforeReset sa h).b.lvl 16 = false := by
  obtain ⟨halike, hlow⟩ := sampled_alike hab hl
  obtain ⟨hstate, hcnt, hla, hlb⟩ := pulseTests_pulsed (sampled sa sa h)
  have hstate' : (sampled sa sa h).state = h.state := rfl
  have hcnt' : (sampled sa sa h).rstCnt = h.rstCnt := rfl
  have hquiet := exchange_quiet (h := pulseTests (sampled sa sa h)) (by rw [hla, hlb, halike])
  unfold beforeReset
  generalize pulseTests (sampled sa sa h) = p at hstate hcnt hla hlb hquiet ⊢
  have hex := exchanged_stands false p
  generalize exchanged false p = e at hquiet hex ⊢
  obtain ⟨hkept, -, htla, htlb⟩ := transitioned_kept sa sa e
  refine ⟨hquiet, ?_, ?_, ?_, ?_⟩
  · rw [hex.state, hstate, hstate']
    exact hs
  · rw [hkept.rstCnt, hex.rstCnt, hcnt, hcnt']
  · rw [htla, hex.lvlA, hla, hlow]
  · rw [htlb, hex.lvlB, hlb, ← halike, hlow]

/-- The Harness after the cycle of an accepted reset. -/
def resetCycled (sa : Sys2Proof.HarnessSample) (s : State) : Harness :=
  cycleEnd (cycleFree s) sa sa ⟨false, false, false, false⟩ s.dev.hrn (resetSteps (beforeReset sa s.dev.hrn))

/-- The cycle of an accepted reset. -/
theorem exec_harnessReset (hr : HarnessRuns s) (h1 : 100 ≤ n) (h2 : n ≤ 3000) (hab : s.dev.hrn.a = s.dev.hrn.b)
    (hwas : bit s.dev.hrn.a.lvl 16 = true) (hl : sa.hrst = false) : ∃ w,
      exec (.harnessReset ⟨n, sa, sa, ⟨false, false, false, false⟩⟩) s =
        .next { s with dev := s.dev.tickFree.setHrn { resetCycled sa s with events := w } } ∧
      ∀ i, bit (resetCycled sa s).events i = true → bit w i = true := by
  obtain ⟨w, hw, hkeep⟩ := hrnStep_shows (runs_tickFree hr) (harnessCycle (cycleFree s) sa sa ⟨false, false, false, false⟩ (harnessReset n))
  obtain ⟨hquiet, hstate, -, hla, hlb⟩ := beforeReset_shows (sa := sa) hr.2 hab hl
  have hfell : hrstFell s.dev.hrn (beforeReset sa s.dev.hrn) = true := by
    rw [hrstFell, hwas, hla, hlb]
    rfl
  have hhrn : ({ s with dev := s.dev.tickFree } : State).dev.hrn = s.dev.hrn := rfl
  have hcycle : harnessCycle (cycleFree s) sa sa ⟨false, false, false, false⟩ (harnessReset n) s.dev.hrn =
      resetCycled sa s := by
    rw [harnessCycle_eq, hquiet, cycleOn_runs _ _ _ hstate, ← beforeReset, harnessReset_accepted h1 h2 hfell, resetCycled]
  have hexec : exec (.harnessReset ⟨n, sa, sa, ⟨false, false, false, false⟩⟩) s =
      hrnStep (harnessCycle (cycleFree s) sa sa ⟨false, false, false, false⟩ (harnessReset n)) { s with dev := s.dev.tickFree } := rfl
  rw [hhrn, hcycle] at hw hkeep
  exact ⟨w, hexec.trans hw, hkeep⟩

end ResetCycle

/-! ## A status frame on its way (R298) -/

section Send
variable {s : State}

theorem exec_statusFrame (hp : s.dev.hrn.powered = true) :
    exec .statusFrame s = .next { s with dev := s.dev.setHrn (statusFrame s.dev.hrn) } :=
  congrArg (fun d => (Host.Outcome.next { s with dev := d } : Out)) (if_pos hp)

end Send

/-! ## A status frame in the mirror (R298, R365) -/

section Receive
variable {d e m : Dev} {f : HFrame}

/-- Of the device events, the wake request and registers beside the Harness block change. -/
def FrameStands (d e : Dev) : Prop :=
  (∃ r v q w, e = { d with regs := r, ev := v, mon := q, pw := { d.pw with wakeReq := w } }) ∧ ∀ a, a / 0x10000 = 0x10C → e.reg a = d.reg a

theorem frame_refl (d : Dev) : FrameStands d d := ⟨⟨d.regs, d.ev, d.mon, d.pw.wakeReq, rfl⟩, fun _ _ => rfl⟩

theorem frame_trans (h : FrameStands d e) (k : FrameStands e m) : FrameStands d m := by
  obtain ⟨⟨r, v, q, w, rfl⟩, hreg⟩ := h
  obtain ⟨⟨r', v', q', w', rfl⟩, kreg⟩ := k
  exact ⟨⟨r', v', q', w', rfl⟩, fun a ha => (kreg a ha).trans (hreg a ha)⟩

theorem offEvents_hrn {a : Nat} (h : a / 0x10000 = 0x10C) : OffEvents a := offEvents_of_block (by omega) (by omega)

theorem frame_raise (ev : Nat) (d : Dev) : FrameStands d (raise ev d) := by
  obtain ⟨r, v, q, h⟩ := raise_frame ev d
  exact ⟨⟨r, v, q, d.pw.wakeReq, h⟩, fun a ha => raise_reg (offEvents_hrn ha) ev d⟩

theorem frame_ite {b : Bool} (h : FrameStands d e) : FrameStands d (if b then e else d) := by
  cases b
  · exact frame_refl d
  · exact h

theorem frame_hrnWake (d : Dev) : FrameStands d (hrnWake d) := ⟨⟨d.regs, d.ev, d.mon, _, rfl⟩, fun _ _ => rfl⟩

theorem frame_eventClear (d : Dev) : FrameStands d (hrnEventClear d) := by
  refine forAll_rel (n := 16) frame_refl frame_trans (fun i _ e => ?_) d
  split
  · exact frame_refl e
  · refine ⟨⟨_, e.ev, e.mon, e.pw.wakeReq, rfl⟩, fun a ha => Dev.reg_setFlag_other _ _ _ _ _ ?_⟩
    intro hc
    rw [hc] at ha
    exact absurd ha (by decide)

/-- The events of a frame are raised. -/
def eventsRaised (f : HFrame) (d : Dev) : Dev := forAll 15 (fun e d => raiseIf (bit f.events e) (128 + e) d) d

theorem frame_eventsRaised (f : HFrame) (d : Dev) : FrameStands d (eventsRaised f d) :=
  forAll_rel frame_refl frame_trans (fun _ _ _ => frame_ite (frame_raise _ _)) d

theorem frame_elsewhere (h : FrameStands d e) : Elsewhere d e ∧ e.hrn = d.hrn ∧ e.hrnLink = d.hrnLink := by
  obtain ⟨⟨r, v, q, w, rfl⟩, -⟩ := h
  exact ⟨⟨rfl, rfl, rfl, rfl, ⟨rfl, rfl⟩, rfl, rfl, rfl, rfl⟩, rfl, rfl⟩

/-- A register value of a frame is taken, but not HRN_SEALSTAT while a proposal is on the sealing line. -/
def valTaken (sending : Bool) (d : Dev) (e : Nat × Word) : Dev := if sending && decide (e.1 = HRN_SEALSTAT) then d else d.setReg e.1 e.2

def valsTaken (sending : Bool) (vals : List (Nat × Word)) (d : Dev) : Dev := vals.foldl (valTaken sending) d

theorem valsTaken_regs (sending : Bool) (vals : List (Nat × Word)) (d : Dev) : RegsOnly d (valsTaken sending vals d) := by
  refine List.foldlRecOn (motive := RegsOnly d) _ _ (regsOnly_refl d) (fun e he v _ => ?_)
  unfold valTaken
  split
  · exact he
  · exact regsOnly_setReg he _ _

theorem valsTaken_other (sending : Bool) {vals : List (Nat × Word)} {a : Nat} (ha : a ∉ vals.map (·.1)) (d : Dev) :
    (valsTaken sending vals d).reg a = d.reg a := by
  refine List.foldlRecOn (motive := fun e : Dev => e.reg a = d.reg a) _ _ rfl (fun e he v hv => ?_)
  unfold valTaken
  split
  · exact he
  · have hne : a ≠ v.1 := by
      rintro rfl
      exact ha (List.mem_map_of_mem hv)
    exact ((Dev.reg_setReg _ _ _ _).trans (if_neg hne)).trans he

/-- Each value of a frame is in its register. -/
theorem valsTaken_reg {sending : Bool} {a : Nat} {v : Word} (hs : (sending && decide (a = HRN_SEALSTAT)) = false) :
    ∀ {vals : List (Nat × Word)}, (vals.map (·.1)).Nodup → (a, v) ∈ vals → ∀ d : Dev, (valsTaken sending vals d).reg a = v := by
  intro vals
  induction vals with
  | nil => exact fun _ hmem => absurd hmem List.not_mem_nil
  | cons x xs ih =>
    intro hnd hmem d
    rw [List.map_cons, List.nodup_cons] at hnd
    obtain ⟨hx, hxs⟩ := hnd
    have hcons : valsTaken sending (x :: xs) d = valsTaken sending xs (valTaken sending d x) := rfl
    rw [hcons]
    rcases List.mem_cons.mp hmem with rfl | hin
    · rw [valsTaken_other sending hx, valTaken, hs, if_neg (by decide), Dev.reg_setReg, if_pos rfl]
    · exact ih hxs hin _

/-- ECHOV's parts after a frame. -/
def echoTaken (f : HFrame) (d : Dev) : BitVec 32 :=
  (if f.vals.any (fun e => (decide (e.1 = HRN_ACRC) || decide (e.1 = HRN_PCRC)) && decide (d.reg e.1 ≠ e.2)) then 0 else d.hrn.echo) |||
    BitVec.ofNat 32 (2 ^ f.part)

/-- A frame shows a change of the status. -/
def frameChanged (f : HFrame) (d : Dev) : Bool :=
  decide ((f.vals.map (fun e => (e.1, if e.1 = HRN_STAT then setBit (setBit (d.reg HRN_STAT) 31 false) 4 false else d.reg e.1))).filter
    (fun e => !decide (HRN_ACFG 0 ≤ e.1)) ≠ f.vals.filter (fun e => !decide (HRN_ACFG 0 ≤ e.1)))

/-- LINK, ECHOV and the sequence number after the values `d`. -/
def linkShown (f : HFrame) (echo : BitVec 32) (d : Dev) : Dev :=
  (Dev.setFlag HRN_STAT 4 (decide (echo.toNat = 2 ^ 32 - 1)) (Dev.setFlag HRN_STAT 31 d.hrnLink d)).setReg HRN_SEQ (f.seq.setWidth 32)

/-- What the mirror keeps beside the registers. -/
def frameKept (f : HFrame) (echo : BitVec 32) (d : Dev) : Dev :=
  d.setHrn { d.hrn with echo := echo, events := d.hrn.events &&& ~~~ f.events, seen := some f.seq }

def wakeTaken (changed : Bool) (d : Dev) : Dev := if changed then hrnWake d else d

def clearTaken (b : Bool) (d : Dev) : Dev := if b then hrnEventClear d else d

theorem frameTake_eq (f : HFrame) (d : Dev) : frameTake f d = eventsRaised f (clearTaken (bit f.events 7) (wakeTaken (frameChanged f d)
    (frameKept f (echoTaken f d) (linkShown f (echoTaken f d) (valsTaken d.hrn.line.isSome f.vals d))))) := by
  unfold frameTake eventsRaised clearTaken wakeTaken frameKept linkShown valsTaken valTaken frameChanged echoTaken
  rfl

theorem linkShown_regs (f : HFrame) (echo : BitVec 32) (d : Dev) : RegsOnly d (linkShown f echo d) :=
  regsOnly_setReg (regsOnly_setFlag (regsOnly_setFlag (regsOnly_refl d) _ _ _) _ _ _) _ _

theorem linkShown_shows (f : HFrame) (echo : BitVec 32) (d : Dev) : (linkShown f echo d).flag HRN_STAT 31 = d.hrnLink ∧
    (linkShown f echo d).reg HRN_SEQ = f.seq.setWidth 32 ∧
    ∀ a, a ≠ HRN_STAT → a ≠ HRN_SEQ → (linkShown f echo d).reg a = d.reg a := by
  refine ⟨?_, (Dev.reg_setReg _ _ _ _).trans (if_pos rfl), fun a hs hq => ?_⟩
  · rw [linkShown, Dev.flag, Dev.reg_setReg, if_neg (by decide), ← Dev.flag, flag_setFlag_other (by decide), flag_setFlag_same (by decide)]
  · rw [linkShown, Dev.reg_setReg, if_neg hq, Dev.reg_setFlag_other _ _ _ _ _ hs, Dev.reg_setFlag_other _ _ _ _ _ hs]

/-- The events that a reset clears: those that no condition holds (log entry 115). -/
theorem eventClear_flag {e : Nat} (he : e ∈ [0, 1, 6, 8, 9, 10]) (d : Dev) : (hrnEventClear d).flag EVT_STICKY4 e = false := by
  have hcause (k : Dev) : hrnCause e k = false := by
    simp only [List.mem_cons, List.not_mem_nil, or_false] at he
    rcases he with rfl | rfl | rfl | rfl | rfl | rfl <;> rfl
  have hlt : e < 16 := (by decide : ∀ e ∈ [0, 1, 6, 8, 9, 10], e < 16) e he
  have hfold := forAll_at (f := fun e d => if hrnCause e d then d else Dev.setFlag EVT_STICKY4 e false d)
    (π := fun k : Dev => k.flag EVT_STICKY4 e) (g := fun _ => false) (k := e) (n := 16)
    (fun j _ hj k => by
      split
      · rfl
      · exact flag_setFlag_other (Ne.symm hj) _ _ _)
    (fun k => by
      rw [hcause, if_neg (by decide), flag_setFlag_same (by omega)]) d
  exact hfold.trans (if_pos hlt)

/-- An event of the Harness writes its own bit alone. -/
theorem raise_otherEvent {i e : Nat} (hi : i < 15) (hne : e ≠ i) (d : Dev) : (raise (128 + i) d).flag (EVT_STICKY 4) e = d.flag (EVT_STICKY 4) e := by
  have hres : evReserved (128 + i) = false := (by decide : ∀ i, i < 15 → evReserved (128 + i) = false) i hi
  have hnow : (raiseNow (128 + i) d).flag (EVT_STICKY 4) e = d.flag (EVT_STICKY 4) e := by
    have hword : (128 + i) / 32 = 4 := by omega
    have hbit : (128 + i) % 32 = i := by omega
    rw [Dev.flag, raiseNow_stickyReg hres (by decide), hword, if_pos rfl, hbit, bit_setBit_other hne, ← Dev.flag]
  unfold Machine.raise
  split
  · rfl
  · exact hnow

theorem eventsRaised_flag {e : Nat} (he : bit f.events e = false) (d : Dev) :
    (eventsRaised f d).flag (EVT_STICKY 4) e = d.flag (EVT_STICKY 4) e := by
  refine forAll_rel (n := 15) (R := fun d e' : Dev => e'.flag (EVT_STICKY 4) e = d.flag (EVT_STICKY 4) e) (fun _ => rfl)
    (fun p q => q.trans p) (fun i hi k => ?_) d
  by_cases hie : e = i
  · rw [← hie, he]
    rfl
  · unfold raiseIf
    split
    · exact raise_otherEvent hi hie k
    · rfl

/-- A valid frame in the mirror. -/
theorem frameTake_shows (f : HFrame) (d : Dev) : (frameTake f d).hrnLink = d.hrnLink ∧ (frameTake f d).hrn.seen = some f.seq ∧
    (frameTake f d).hrn.frame = d.hrn.frame ∧ (frameTake f d).flag HRN_STAT 31 = d.hrnLink ∧
    (frameTake f d).reg HRN_SEQ = f.seq.setWidth 32 ∧
    (∀ a, a / 0x10000 = 0x10C → a ≠ HRN_STAT → a ≠ HRN_SEQ →
      (frameTake f d).reg a = (valsTaken d.hrn.line.isSome f.vals d).reg a) ∧
    (bit f.events 7 = true → ∀ e, e ∈ [0, 1, 6, 8, 9, 10] → bit f.events e = false → (frameTake f d).flag (EVT_STICKY 4) e = false) ∧
    Elsewhere d (frameTake f d) := by
  rw [frameTake_eq]
  generalize hecho : echoTaken f d = echo
  generalize frameChanged f d = changed
  obtain ⟨m, hvals⟩ := valsTaken_regs d.hrn.line.isSome f.vals d
  obtain ⟨hlink, hseq, hreg⟩ := linkShown_shows f echo (valsTaken d.hrn.line.isSome f.vals d)
  obtain ⟨m', hshown⟩ := linkShown_regs f echo (valsTaken d.hrn.line.isSome f.vals d)
  have hvlink : (valsTaken d.hrn.line.isSome f.vals d).hrnLink = d.hrnLink := by rw [hvals]
  have hkept : (frameKept f echo (linkShown f echo (valsTaken d.hrn.line.isSome f.vals d))).hrnLink = d.hrnLink ∧
      (frameKept f echo (linkShown f echo (valsTaken d.hrn.line.isSome f.vals d))).hrn.frame = d.hrn.frame ∧
      Elsewhere d (frameKept f echo (linkShown f echo (valsTaken d.hrn.line.isSome f.vals d))) := by
    rw [hshown, hvals]
    exact ⟨rfl, rfl, ⟨rfl, rfl, rfl, rfl, ⟨rfl, rfl⟩, rfl, rfl, rfl, rfl⟩⟩
  obtain ⟨hklink, hkframe, hkelse⟩ := hkept
  have hkreg (a : Nat) : (frameKept f echo (linkShown f echo (valsTaken d.hrn.line.isSome f.vals d))).reg a =
      (linkShown f echo (valsTaken d.hrn.line.isSome f.vals d)).reg a := rfl
  have hkseen : (frameKept f echo (linkShown f echo (valsTaken d.hrn.line.isSome f.vals d))).hrn.seen = some f.seq := rfl
  rw [hvlink] at hlink
  generalize linkShown f echo (valsTaken d.hrn.line.isSome f.vals d) = k at *
  generalize frameKept f echo k = q at *
  have hclear : FrameStands q (clearTaken (bit f.events 7) (wakeTaken changed q)) :=
    frame_trans (frame_ite (frame_hrnWake q)) (frame_ite (frame_eventClear _))
  have hall := frame_trans hclear (frame_eventsRaised f _)
  obtain ⟨helse, hhrn, hl⟩ := frame_elsewhere hall
  obtain ⟨-, hregs⟩ := id hall
  refine ⟨hl.trans hklink, by rw [hhrn, hkseen], by rw [hhrn, hkframe], ?_, ?_, fun a ha hs hq => ?_, fun h7 e he hev => ?_,
    elsewhere_trans hkelse helse⟩
  · rw [Dev.flag, hregs _ rfl, hkreg]
    exact hlink
  · rw [hregs _ rfl, hkreg, hseq]
  · rw [hregs a ha, hkreg, hreg a hs hq]
  · rw [eventsRaised_flag hev, clearTaken, h7, if_pos rfl]
    exact eventClear_flag he _

/-- A link that comes up. -/
theorem hrnLinkSet_shows (d : Dev) : (hrnLinkSet true d).hrnLink = true ∧ (hrnLinkSet true d).hrn = d.hrn ∧ Elsewhere d (hrnLinkSet true d) := by
  unfold hrnLinkSet
  split
  · next h => exact ⟨h, rfl, elsewhere_refl d⟩
  · obtain ⟨r, v, m, h⟩ := raise_frame 140 (Dev.setFlag HRN_STAT 31 true { d with hrnLink := true })
    rw [h]
    exact ⟨rfl, rfl, ⟨rfl, rfl, rfl, rfl, ⟨rfl, rfl⟩, rfl, rfl, rfl, rfl⟩⟩

/-- A gap in the sequence of frames. -/
def gapSeen (f : HFrame) (seen : Option (BitVec 16)) : Bool :=
  match seen with
  | some n => decide (f.seq ≠ n + 1)
  | none => false

/-- A gap in the sequence of frames counts. -/
def gapCounted (f : HFrame) (d : Dev) : Dev := if gapSeen f d.hrn.seen then Dev.count1 HRN_FRERR d else d

theorem gapCounted_frame (f : HFrame) (d : Dev) : (gapCounted f d).hrn = d.hrn ∧ Elsewhere d (gapCounted f d) := by
  unfold gapCounted
  split
  · exact ⟨rfl, ⟨rfl, rfl, rfl, rfl, ⟨rfl, rfl⟩, rfl, rfl, rfl, rfl⟩⟩
  · exact ⟨rfl, elsewhere_refl d⟩

/-- The frame has left its way. -/
def frameTaken (d : Dev) : Dev := d.setHrn { d.hrn with frame := none }

theorem frameReceive_good (hf : d.hrn.frame = some f) :
    frameReceive true d = frameTake f (hrnLinkSet true (gapCounted f (frameTaken d))) := by
  unfold frameReceive
  rw [hf] <;> rfl

theorem frameReceive_bad (hf : d.hrn.frame = some f) : frameReceive false d =
    Dev.count1 HRN_FRERR ((frameTaken d).setHrn { (frameTaken d).hrn with seen := (frameTaken d).hrn.seen.map (· + 1) }) := by
  unfold frameReceive
  rw [hf] <;> rfl

end Receive

/-- Settles O38: the reset by `resetSteps_slot` and `exec_harnessReset`, the frames by `frameTake_shows`. -/
theorem harnessResetAndFrames : Obligations.HarnessResetAndFrames := by
  unfold Obligations.HarnessResetAndFrames
  refine fun s => ⟨fun n sa hr h1 h2 hab hwas hl => ?_, fun n was h h1 h2 hf => ?_, fun n sa sb t hn => ?_, fun hp => ?_,
    fun f hr hf hnd hblock => ?_, fun f hr hf => ?_⟩
  · obtain ⟨w, hexec, hkeep⟩ := exec_harnessReset hr h1 h2 hab hwas hl
    obtain ⟨-, -, hcnt, -, -⟩ := beforeReset_shows (sa := sa) hr.2 hab hl
    obtain ⟨hrst, hevent⟩ := resetSteps_count (beforeReset sa s.dev.hrn)
    have hready := resetSteps_ready (beforeReset sa s.dev.hrn)
    have hend : HStands (resetSteps (beforeReset sa s.dev.hrn)) (resetCycled sa s) := cycleEnd_stands _ _ _ _ _ _
    generalize resetCycled sa s = k at hexec hkeep hend
    refine ⟨_, hexec, rfl, ?_, hkeep 7 (hend.events 7 hevent), fun f => ?_⟩
    · exact hend.rstCnt.trans (hrst.trans (by rw [hcnt]))
    · obtain ⟨ha, hb⟩ := hready f
      refine ⟨fun hc => ha ?_, fun hc => hb ?_⟩
      · rw [← hend.slotsA]
        exact hc
      · rw [← hend.slotsB]
        exact hc
  · rw [harnessReset_accepted h1 h2 hf]
    obtain ⟨hcnt, -⟩ := resetSteps_count h
    refine ⟨hcnt, fun f => ⟨fun h3 => ?_, fun h2 => ?_, fun h6 => ?_⟩⟩
    · rw [resetSteps_slot (by omega), if_pos h3]
    · rw [resetSteps_slot (by omega), if_neg (by omega), h2]
    · rw [resetSteps_slot (by omega), if_neg (by omega), h6]
  · have hreset : exec (.harnessReset ⟨n, sa, sb, t⟩) s =
        hrnStep (harnessCycle (cycleFree s) sa sb t (harnessReset n)) { s with dev := s.dev.tickFree } := rfl
    rw [hreset, harnessReset_other hn]
    rfl
  · refine ⟨_, _, exec_statusFrame hp, rfl, rfl, rfl, rfl, rfl, .head _, ?_, ?_, rfl, rfl⟩
    · exact .tail _ (List.mem_append_left _ (List.mem_append_left _ (List.mem_append_left _
        (.tail _ (.tail _ (.tail _ (.tail _ (.head _))))))))
    · exact .tail _ (List.mem_append_left _ (List.mem_append_left _ (List.mem_append_left _ (.tail _ (.tail _ (.tail _ (.head _)))))))
  · obtain ⟨hhrn, helse⟩ := gapCounted_frame f (frameTaken s.dev)
    obtain ⟨hup, hhrn', helse'⟩ := hrnLinkSet_shows (gapCounted f (frameTaken s.dev))
    have hexec : exec (.statusFrameReceive true) s =
        .next { s with dev := frameTake f (hrnLinkSet true (gapCounted f (frameTaken s.dev))) } :=
      (onReady_ready hr (frameReceive true)).trans (congrArg (fun d => (Host.Outcome.next { s with dev := d } : Out)) (frameReceive_good hf))
    have htaken : Elsewhere s.dev (frameTaken s.dev) := ⟨rfl, rfl, rfl, rfl, ⟨rfl, rfl⟩, rfl, rfl, rfl, rfl⟩
    have hnone : (hrnLinkSet true (gapCounted f (frameTaken s.dev))).hrn = { s.dev.hrn with frame := none } := by
      rw [hhrn', hhrn]
      rfl
    generalize hrnLinkSet true (gapCounted f (frameTaken s.dev)) = e at hexec hup hhrn' helse' hnone
    obtain ⟨hlink, hseen, hframe, hflag, hseq, hreg, hclear, helse''⟩ := frameTake_shows f e
    refine ⟨_, hexec, hlink.trans hup, hseen, hframe.trans (by rw [hnone]), hflag.trans hup, hseq, fun a v hmem hs hq hline => ?_, hclear,
      elsewhere_trans htaken (elsewhere_trans helse (elsewhere_trans helse' helse''))⟩
    rw [hreg a (hblock _ hmem) hs hq]
    refine valsTaken_reg ?_ hnd hmem e
    by_cases ha : a = HRN_SEALSTAT
    · have hsome : e.hrn.line.isSome = false := by
        rw [hnone]
        exact (congrArg Option.isSome (hline ha)).trans rfl
      rw [hsome, Bool.false_and]
    · rw [decide_eq_false ha, Bool.and_false]
  · have hexec : exec (.statusFrameReceive false) s = .next { s with dev := frameReceive false s.dev } := onReady_ready hr (frameReceive false)
    rw [hexec, frameReceive_bad hf]
    refine ⟨_, rfl, Dev.reg_count1 _ _, rfl, rfl, fun a ha => ?_⟩
    exact Dev.reg_count1_other _ _ _ (fun hc => ha (List.mem_singleton.mpr hc))

end Sys2Proof.Proofs
end

section
/-! PROOFS. Test pulses, time-outs and VSAFE of the Harness, assembled (15_harness.md: R300 to R317). -/
namespace Sys2Proof.Proofs
open Sys2Proof Sys2Proof.Machine Sys2Proof.Claims

/-! ## Steps on the machine -/

section Steps
variable {s : State} {h : Harness}

/-- A step of a Harness that runs, without what its watch adds to the events. -/
theorem exec_hrnStep {i : Instr} {f : Harness → Harness} (hr : HarnessRuns s) (hi : exec i s = hrnStep f s) : ∃ w,
    exec i s = .next { s with dev := s.dev.setHrn { f s.dev.hrn with events := w } } ∧ ∀ e, bit (f s.dev.hrn).events e = true → bit w e = true := by
  obtain ⟨w, hw, hkeep⟩ := hrnStep_shows hr f
  exact ⟨w, hi.trans hw, hkeep⟩

/-- A step that changes nothing of a Harness that runs. -/
theorem exec_hrnStep_id {i : Instr} {f : Harness → Harness} (hr : HarnessRuns s) (hi : exec i s = hrnStep f s)
    (hf : f s.dev.hrn = s.dev.hrn) : exec i s = .next s := by
  rw [hi, hrnStep_runs hr, hWatch_id hf]
  rfl

end Steps

/-! ## A pin that does not read low (R309) -/

theorem outFault_shows (x : Fin 4) (h : Harness) : bit (outFault x false h).pairs x = false ∧ bit (outFault x false h).ofault x = true ∧
    bit (outFault x false h).sticky (24 + x) = true ∧ bit (outFault x false h).events 4 = true := by
  refine ⟨?_, ?_, ?_, event_waits (e := 132) (by decide) _⟩
  · exact (bit_clearOne _ _ _).trans (by simp)
  · exact (bit_setOne _ x.isLt _).trans (by simp)
  · exact bit_setBit_same (i := 24 + x) (by omega) _

/-! ## Slots that a time-out moves (R304, R305, R307) -/

section TimeOut
variable {h : Harness} {f g : Fin 8}

theorem hDiscf_shows (f : Fin 8) (h : Harness) : ((hDiscf f h).a.slots[f]).st = 6 ∧ ((hDiscf f h).b.slots[f]).st = 6 ∧
    bit (hDiscf f h).sticky (16 + f) = true ∧ bit (hDiscf f h).events 2 = true := by
  have hset (v : Vector HSlot 8) : ((v.set f { v[f] with st := 6 })[f]).st = 6 := by simp
  exact ⟨hset h.a.slots, hset h.b.slots, bit_setBit_same (by omega) _, event_waits (e := 130) (by decide) _⟩

theorem syncTimeout_slot (hf : (h.a.slots[f]).st = 4) : ((syncTimeout f h).a.slots[f]).st = 5 ∧
    ∀ g, g ≠ f → (syncTimeout f h).a.slots[g] = h.a.slots[g] := by
  have hslots : (syncTimeout f h).a.slots = h.a.slots.set f { h.a.slots[f] with st := 5 } := by
    unfold syncTimeout
    dsimp only
    rw [if_pos hf]
  rw [hslots]
  refine ⟨by simp, fun g hg => ?_⟩
  have hne : f.val ≠ g.val := fun hc => hg (Fin.ext hc.symm)
  exact Vector.getElem_set_ne _ _ hne

end TimeOut

/-! ## The start of the slots (R304, R313) -/

section Start
variable {h : Harness} {c : List Byte}

/-- The brake of a started Harness. -/
def brakeStarted (c : List Byte) (k : Nat) (b : Brake) : Brake :=
  if bkUsed c k then { b with due := true, age := none, step := 0 }
  else { Brake.reset with count := b.count, last := b.last, cause := b.cause, move2 := b.move2, move5 := b.move5, hq := b.hq, coilA := b.coilA, coilB := b.coilB }

/-- The slots and brakes of a configuration's start, before its event. -/
def slotsStarted (h : Harness) : Harness :=
  { h.dark.allSlots (slotStart h.cfg) with
    brakes := Vector.ofFn (fun k : Fin 2 => brakeStarted h.cfg k (h.dark.allSlots (slotStart h.cfg)).brakes[k])
    state := if h.active.isSome then 1 else 0 }

theorem hStart_eq (h : Harness) : hStart h =
    if (List.range 2).any (bkUsed h.cfg) then (slotsStarted h).event 139 else slotsStarted h := by
  unfold hStart slotsStarted brakeStarted
  rfl

/-- What a start shows, also where a watch adds events. -/
theorem hStart_shows (h : Harness) : (hStart h).state = (if h.active.isSome then 1 else 0) ∧ (hStart h).active = h.active ∧
    (hStart h).pairs = 0 ∧ ∀ f : Fin 8, ((hStart h).a.slots[f]).st = if hType h.cfg f = 0 then 0 else if hType h.cfg f = 3 then 5 else 2 := by
  have hslot (f : Fin 8) : ((slotsStarted h).a.slots[f]).st = if hType h.cfg f = 0 then 0 else if hType h.cfg f = 3 then 5 else 2 := by
    have hget : (slotsStarted h).a.slots[f] = slotStart h.cfg f := Vector.getElem_ofFn f.isLt
    rw [hget]
    rfl
  rw [hStart_eq]
  split
  · exact ⟨rfl, rfl, rfl, hslot⟩
  · exact ⟨rfl, rfl, rfl, hslot⟩

end Start

/-! ## VSAFE (R313, R317) -/

section Vsafe
variable {h : Harness} {c : List Byte}

theorem vsafeTested_good {newer : Bool} (hs : h.state = 3) (hc : (if newer then h.active else h.prev) = some c) (hok : hCheckOk c = true) :
    vsafeTested true newer h = hStart { h with state := 0, active := some c, prev := if newer then h.prev else none } := by
  unfold vsafeTested
  dsimp only
  rw [hc, if_neg (not_not.mpr hs), Option.all_some, hok]
  rfl

theorem vsafeTested_none (hs : h.state = 3) (ha : h.active = none) :
    vsafeTested true true h = hStart { h with state := 0, active := none, prev := h.prev } := by
  unfold vsafeTested
  dsimp only
  rw [if_neg (not_not.mpr hs), if_pos rfl, ha]
  rfl

theorem vsafeTested_lost (hs : h.state = 3) (ha : h.active.isSome = true) (hp : h.prev = none) :
    vsafeTested true false h = faulted 4 h := by
  have hcond : (!(h.prev.all hCheckOk) || (h.prev.isNone && h.active.isSome)) = true := by
    rw [hp, ha]
    rfl
  unfold vsafeTested
  dsimp only
  have hcfg : (if false = true then h.active else h.prev) = h.prev := rfl
  rw [if_neg (not_not.mpr hs), if_neg (by decide), hcfg, hcond, if_pos rfl, hFault_eq (by omega)]

theorem vsafeTested_bad (hs : h.state = 3) (newer : Bool) : vsafeTested false newer h = faulted 5 h := by
  unfold vsafeTested
  dsimp only
  rw [if_neg (not_not.mpr hs), if_pos (by decide), hFault_eq (by omega)]

/-- A slot while VSAFE is low. -/
def slotLow (x : HSlot) : HSlot := if x.st = 0 then x else { x with st := 2, fromOk := false, closed := false }

theorem slotLow_st (x : HSlot) : (slotLow x).st = if x.st = 0 then 0 else 2 := by
  unfold slotLow
  split
  · assumption
  · rfl

theorem vsafeLow_shows (h : Harness) : (vsafeLow h).low = true ∧ (vsafeLow h).pairs = 0 ∧ bit (vsafeLow h).sticky2 2 = true ∧
    (∀ b : Fin 2, ((vsafeLow h).brake b).on = false) ∧
    ∀ f : Fin 8, ((vsafeLow h).a.slots[f]).st = if (h.a.slots[f]).st = 0 then 0 else 2 := by
  refine ⟨rfl, rfl, bit_setBit_same (by decide) _, fun b => ?_, fun f => ?_⟩
  · exact brake_dark { h with brakes := h.brakes.map (fun b => { b with step := 0 }) } b
  · have hget : (vsafeLow h).a.slots[f] = slotLow h.a.slots[f] := Vector.getElem_map _ f.isLt
    rw [hget, slotLow_st]

end Vsafe

/-! ## A cycle and the test pulses -/

section Pulses
variable {s : State} {sa sb : Sys2Proof.HarnessSample} {t : Sys2Proof.HarnessTrouble} {x : Fin 8} {i : Fin 16}

/-- What sampling leaves for the verdicts. -/
theorem sampled_pulse (sa sb : Sys2Proof.HarnessSample) (h : Harness) : (sampled sa sb h).mask = h.mask ∧ (sampled sa sb h).cfg = h.cfg ∧
    (sampled sa sb h).a.lowSeen = sampleLow h sa h.a ∧ (sampled sa sb h).b.lowSeen = sampleLow h sb h.b ∧
    (sampled sa sb h).a.slots = h.a.slots ∧ (sampled sa sb h).a.before = h.a.before ∧ (sampled sa sb h).a.raw = sa.hi := by
  obtain ⟨v, g, ha, -⟩ := sampleChan_frame h sa h.a
  obtain ⟨v', g', hb, -⟩ := sampleChan_frame h sb h.b
  have hsa : (sampled sa sb h).a = sampleChan h sa h.a := rfl
  have hsb : (sampled sa sb h).b = sampleChan h sb h.b := rfl
  rw [hsa, hsb, ha, hb]
  exact ⟨rfl, rfl, rfl, rfl, rfl, rfl, rfl⟩

theorem pulseTests_fields (h : Harness) : (pulseTests h).tpBad = (verdicts h).tpBad ∧ (pulseTests h).sticky = (verdicts h).sticky ∧
    (pulseTests h).cross = (verdicts h).cross ∧ (pulseTests h).a.slots = (verdicts h).a.slots ∧
    (pulseTests h).mask = (verdicts h).mask.map (· - 1) := by
  rw [pulseTests_eq]
  generalize verdicts h = v
  exact ⟨rfl, rfl, rfl, rfl, rfl⟩

theorem cycled_mask (sa sb : Sys2Proof.HarnessSample) (t : Sys2Proof.HarnessTrouble) (s : State) (x : Fin 8) :
    (harnessCycled sa sb t s).mask[x] = s.dev.hrn.mask[x] - 1 := by
  have hkept := (cycled_verdicts sa sb t s).mask
  obtain ⟨-, -, -, -, hverdict⟩ := pulseTests_fields (sampled sa sb s.dev.hrn)
  obtain ⟨hsampled, -⟩ := sampled_pulse sa sb s.dev.hrn
  have hmask : (pulseTests (sampled sa sb s.dev.hrn)).mask = s.dev.hrn.mask.map (· - 1) := by
    rw [hverdict, (verdicts_pulsed (sampled sa sb s.dev.hrn)).mask, hsampled]
  rw [hkept, hmask, Fin.getElem_fin, Vector.getElem_map, ← Fin.getElem_fin]

/-- The verdict of input i, at the last sample of the pulse of its source. -/
theorem cycled_verdict (hm : s.dev.hrn.mask[x] = 3) (ht : hTpen s.dev.hrn.cfg i = true) (hs : hSrc s.dev.hrn.cfg i = x) :
    ((bit s.dev.hrn.a.lowSeen i || !bit sa.hi i) = true → (bit s.dev.hrn.b.lowSeen i || !bit sb.hi i) = true →
      bit (harnessCycled sa sb t s).tpBad i = false) ∧
    ((bit s.dev.hrn.a.lowSeen i || !bit sa.hi i) = false ∨ (bit s.dev.hrn.b.lowSeen i || !bit sb.hi i) = false →
      bit (harnessCycled sa sb t s).tpBad i = true ∧ bit (harnessCycled sa sb t s).sticky i = true ∧
      ∀ f : Fin 8, (hInputs s.dev.hrn.cfg f).contains i.val = true → (s.dev.hrn.a.slots[f]).st ≠ 0 →
        ((harnessCycled sa sb t s).a.slots[f]).st = 7 ∨ (harnessCycled sa sb t s).state = 2) := by
  obtain ⟨hmask, hcfg, hla, hlb, hslots, -, -⟩ := sampled_pulse sa sb s.dev.hrn
  have hlowA : bit (sampled sa sb s.dev.hrn).a.lowSeen i = (bit s.dev.hrn.a.lowSeen i || !bit sa.hi i) := by
    rw [hla, sampleLow_masked hm sa s.dev.hrn.a i.isLt]
  have hlowB : bit (sampled sa sb s.dev.hrn).b.lowSeen i = (bit s.dev.hrn.b.lowSeen i || !bit sb.hi i) := by
    rw [hlb, sampleLow_masked hm sb s.dev.hrn.b i.isLt]
  have hm' : (sampled sa sb s.dev.hrn).mask[x] = 3 := by rw [hmask, hm]
  have ht' : hTpen (sampled sa sb s.dev.hrn).cfg i = true := by rw [hcfg, ht]
  have hs' : hSrc (sampled sa sb s.dev.hrn).cfg i = x := by rw [hcfg, hs]
  have hkept := cycled_verdicts sa sb t s
  obtain ⟨hbad, hstick, -, hslot, -⟩ := pulseTests_fields (sampled sa sb s.dev.hrn)
  rw [← hlowA, ← hlowB]
  refine ⟨fun ha hb => ?_, fun hl => ?_⟩
  · rw [hkept.tpBad, hbad]
    exact pulse_passed hm' i.isLt ht' hs' ha hb
  · obtain ⟨htp, hst, htpf⟩ := pulse_failed hm' i.isLt ht' hs' hl
    refine ⟨by rw [hkept.tpBad, hbad, htp], hkept.sticky i (by rw [hstick, hst]), fun f hf hused => ?_⟩
    have h7 : ((pulseTests (sampled sa sb s.dev.hrn)).a.slots[f]).st = 7 := by
      rw [hslot]
      exact htpf f (by rw [hcfg]; exact hf) (by rw [hslots]; exact hused)
    have h := cycleOn_tpf (sa := sa) (sb := sb) (t := t) (cycleFree s) s.dev.hrn h7
    rw [← harnessCycled] at h
    exact h

/-- The verdict of a pulse of another source, at the first sample after it. -/
theorem cycled_crossed (hm : s.dev.hrn.mask[x] = 2) (ht : hTpen s.dev.hrn.cfg i = true) (hs : hSrc s.dev.hrn.cfg i ≠ x)
    (hbefore : bit s.dev.hrn.a.before i = true) (hlow : bit s.dev.hrn.a.lowSeen i = true) (hraw : bit sa.hi i = true) :
    bit (harnessCycled sa sb t s).sticky i = true ∧ bit (harnessCycled sa sb t s).cross[x] i = true := by
  obtain ⟨hmask, hcfg, hla, -, -, hbef, hr⟩ := sampled_pulse sa sb s.dev.hrn
  have hcross : crossedIn (sampled sa sb s.dev.hrn).a i = true := by
    rw [crossedIn, hla, hbef, hr, hbefore, hraw, sampleLow_stands s.dev.hrn sa s.dev.hrn.a hlow]
    rfl
  obtain ⟨hst, hcr⟩ := pulse_crossed (h := sampled sa sb s.dev.hrn) (by rw [hmask, hm]) i.isLt (by rw [hcfg, ht]) (by rw [hcfg]; exact hs) hcross
  have hkept := cycled_verdicts sa sb t s
  obtain ⟨-, hstick, hcrossed, -, -⟩ := pulseTests_fields (sampled sa sb s.dev.hrn)
  refine ⟨hkept.sticky i (by rw [hstick, hst]), ?_⟩
  rw [hkept.cross, hcrossed, hcr]

end Pulses

/-- Settles O40: test pulses by `cycled_verdict` and `cycled_crossed`, time-outs and VSAFE each by its own lemma. -/
theorem harnessTests : Obligations.HarnessTests := by
  unfold Obligations.HarnessTests
  refine ⟨fun s hr => ⟨fun x two => ?_, fun sa sb t => ?_, fun x hp ho => ⟨?_, ?_⟩, fun f hlow hdis => ?_, fun f hf => ?_, ?_⟩,
    fun s => ⟨?_, fun hp hs => ⟨fun c newer hc hok => ?_, fun ha => ?_, fun ha hpv => ?_, fun newer => ?_⟩, fun hr => ?_, fun hr => ?_⟩⟩
  · obtain ⟨w, hexec, -⟩ := exec_hrnStep (i := .testPulse x two) (f := testPulse x two) hr rfl
    exact ⟨_, hexec, rfl, Vector.getElem_set_self x.isLt, rfl, rfl, rfl, rfl, rfl⟩
  · obtain ⟨w, hexec⟩ := exec_harnessCycle hr sa sb t
    have hmask := cycled_mask sa sb t s
    have hverdict (x : Fin 8) (i : Fin 16) := cycled_verdict (s := s) (sa := sa) (sb := sb) (t := t) (x := x) (i := i)
    have hcrossed (x : Fin 8) (i : Fin 16) := cycled_crossed (s := s) (sa := sa) (sb := sb) (t := t) (x := x) (i := i)
    generalize harnessCycled sa sb t s = k at hexec hmask hverdict hcrossed
    exact ⟨_, hexec, hmask, hverdict, hcrossed⟩
  · obtain ⟨w, hexec, hkeep⟩ := exec_hrnStep (i := .outputDip x false) (f := fun h =>
      if bit h.pairs x && decide (hcfg h.cfg 12 4 / 2 ^ x.val % 2 = 1) && !false then outFault x false h else h) hr rfl
    obtain ⟨hpair, hfault, hstick, hevent⟩ := outFault_shows x s.dev.hrn
    have hcond : (bit s.dev.hrn.pairs x && decide (hcfg s.dev.hrn.cfg 12 4 / 2 ^ x.val % 2 = 1) && !false) = true := by
      rw [hp, decide_eq_true ho]
      rfl
    dsimp only at hexec hkeep
    rw [if_pos hcond] at hexec hkeep
    exact ⟨_, hexec, rfl, hpair, hfault, hstick, hkeep 4 hevent⟩
  · refine exec_hrnStep_id (i := .outputDip x true) (f := fun h =>
      if bit h.pairs x && decide (hcfg h.cfg 12 4 / 2 ^ x.val % 2 = 1) && !true then outFault x false h else h) hr rfl ?_
    simp
  · obtain ⟨w, hexec, hkeep⟩ := exec_hrnStep (i := .discrepancyTimeout f) (f := fun h =>
      if !h.low && (disagrees h f h.a || disagrees h f h.b) then hDiscf f h else h) hr rfl
    obtain ⟨ha, hb, hstick, hevent⟩ := hDiscf_shows f s.dev.hrn
    have hcond : (!s.dev.hrn.low && (disagrees s.dev.hrn f s.dev.hrn.a || disagrees s.dev.hrn f s.dev.hrn.b)) = true := by
      rw [hlow]
      rcases hdis with h | h
      · rw [h]
        rfl
      · rw [h, Bool.or_true]
        rfl
    dsimp only at hexec hkeep
    rw [if_pos hcond] at hexec hkeep
    exact ⟨_, hexec, rfl, ha, hb, hstick, hkeep 2 hevent⟩
  · obtain ⟨w, hexec, -⟩ := exec_hrnStep (i := .synchronismTimeout f) (f := syncTimeout f) hr rfl
    obtain ⟨hst, hother⟩ := syncTimeout_slot hf
    exact ⟨_, hexec, rfl, hst, hother⟩
  · obtain ⟨w, hexec, hkeep⟩ := exec_hrnStep (i := .hrstTooLong) (f := fun h => (h.stick2 0).event 141) hr rfl
    exact ⟨_, hexec, rfl, bit_setBit_same (by decide) _, hkeep 13 (event_waits (e := 141) (by decide) _)⟩
  · exact ⟨_, rfl, rfl, rfl, rfl, rfl, rfl, rfl, rfl, rfl, rfl⟩
  · obtain ⟨w, hexec, -⟩ := exec_hrnStep (i := .vsafePowerUp (.tested true newer)) (f := vsafeTested true newer) ⟨hp, by omega⟩ rfl
    rw [vsafeTested_good hs hc hok] at hexec
    obtain ⟨hstate, hactive, hpairs, hslots⟩ := hStart_shows { s.dev.hrn with
      state := 0, active := some c, prev := if newer then s.dev.hrn.prev else none }
    exact ⟨_, hexec, rfl, hstate, hactive, hpairs, hslots⟩
  · obtain ⟨w, hexec, -⟩ := exec_hrnStep (i := .vsafePowerUp (.tested true true)) (f := vsafeTested true true) ⟨hp, by omega⟩ rfl
    rw [vsafeTested_none hs ha] at hexec
    obtain ⟨hstate, -, -, -⟩ := hStart_shows { s.dev.hrn with state := 0, active := none, prev := s.dev.hrn.prev }
    exact ⟨_, hexec, rfl, hstate⟩
  · obtain ⟨w, hexec, hkeep⟩ := exec_hrnStep (i := .vsafePowerUp (.tested true false)) (f := vsafeTested true false) ⟨hp, by omega⟩ rfl
    rw [vsafeTested_lost hs ha hpv] at hexec hkeep
    exact ⟨_, hexec, rfl, faulted_shows 4 s.dev.hrn w hkeep⟩
  · obtain ⟨w, hexec, hkeep⟩ := exec_hrnStep (i := .vsafePowerUp (.tested false newer)) (f := vsafeTested false newer) ⟨hp, by omega⟩ rfl
    rw [vsafeTested_bad hs newer] at hexec hkeep
    exact ⟨_, hexec, rfl, faulted_shows 5 s.dev.hrn w hkeep⟩
  · obtain ⟨w, hexec, -⟩ := exec_hrnStep (i := .vsafeLow) (f := vsafeLow) hr rfl
    obtain ⟨hlow, hpairs, hstick, hbrakes, hslots⟩ := vsafeLow_shows s.dev.hrn
    exact ⟨_, hexec, rfl, hlow, hpairs, hstick, hbrakes, hslots⟩
  · obtain ⟨w, hexec, -⟩ := exec_hrnStep (i := .vsafeRecovery) (f := fun h => { h with low := false }) hr rfl
    exact ⟨_, hexec, rfl, rfl, rfl, rfl⟩

end Sys2Proof.Proofs
end
